-- ==== Sys2Proof/Word.lean ====
section
/-! DEFINITION. The word of the module and the plainest arithmetic on it. A register is 32 bits wide (R6); the value of a
field, an angle, a current or a time is carried as a natural number or an integer and narrowed where it is stored. -/

namespace Sys2Proof

/-- A register word (R6). -/
abbrev Word := BitVec 32

/-- A byte of a frame, a record or the flash. -/
abbrev Byte := BitVec 8

/-- The word whose bits `lo` to `lo + w - 1` are 1. -/
def maskAt (lo w : Nat) : Word := BitVec.ofNat 32 ((2 ^ w - 1) * 2 ^ lo)

/-- Bit `i` of a natural number used as a bit map. -/
def bit (m i : Nat) : Bool := Nat.testBit m i

/-- The bit map `m` with bit `i` set. -/
def setBit (m i : Nat) : Nat := m ||| 2 ^ i

/-- The bit map `m` with bit `i` cleared. -/
def clrBit (m i : Nat) : Nat := if bit m i then m - 2 ^ i else m

/-- The bit map `m` with the bits of `k` cleared. -/
def clrBits (m k : Nat) : Nat := m - (m &&& k)

/-- The number of bits set in the low `n` bits of a bit map. -/
def popcount : Nat → Nat → Nat
  | 0, _ => 0
  | n + 1, m => popcount n m + (if bit m n then 1 else 0)

/-- The two's-complement reading of the low `w` bits. -/
def toSigned (w v : Nat) : Int :=
  let x := v % 2 ^ w
  if x < 2 ^ (w - 1) then (x : Int) else (x : Int) - (2 : Int) ^ w

/-- The low `w` bits of the two's complement of an integer. -/
def ofSigned (w : Nat) (i : Int) : Nat := (i % ((2 : Int) ^ w)).toNat

/-- An integer held within two bounds. -/
def clampI (lo hi i : Int) : Int := if i < lo then lo else if hi < i then hi else i

/-- A natural number held within two bounds. -/
def clampN (lo hi n : Nat) : Nat := if n < lo then lo else if hi < n then hi else n

/-- A counter of `w` bits that saturates. -/
def satInc (w n k : Nat) : Nat := min (n + k) (2 ^ w - 1)

/-- The bytes of a value, least significant first (R6: little-endian). -/
def leBytes : Nat → Nat → List Nat
  | 0, _ => []
  | n + 1, v => v % 256 :: leBytes n (v / 256)

/-- The value of little-endian bytes. -/
def ofLeBytes : List Nat → Nat
  | [] => 0
  | b :: t => b % 256 + 256 * ofLeBytes t

/-- One bit of the CRC-32 with the IEEE 802.3 polynomial, reflected. -/
def crcBit (c : Nat) : Nat := if c % 2 = 1 then Nat.xor (c / 2) 0xEDB88320 else c / 2

/-- One byte of the CRC-32. -/
def crcByte (c b : Nat) : Nat := (List.range 8).foldl (fun c _ => crcBit c) (Nat.xor c (b % 256))

/-- The CRC-32 of bytes with the IEEE 802.3 polynomial (R417, R438, R478). -/
def crc32 (l : List Nat) : Nat := Nat.xor (l.foldl crcByte 0xFFFFFFFF) 0xFFFFFFFF

end Sys2Proof
end

