-- ==== Sys2Proof/Syntax.lean ====
section
/-! DEFINITION. The commands of the module: one constructor per row of spec/opcode_table.json, in the table's order. Each docstring is the
row's summary with its rule, and what the operands are: the value that a session writes, or what the sender of the command (the clock, a
pin, a frame, a message, a verdict of a check) brings. Beside them, the records that operands are made of. -/

namespace Sys2Proof

/-- What the sense of one phase shows in one carrier (R108, R124): the sensed value at the carrier start in LSB of
0.48828125 mV, the on-time the comparator or a truncation leaves in 4 ns, whether a truncation ended the pulse, the rise in
LSB, whether a sample was out of range, whether the comparator was tripped at the end of blanking and how many other active
phases of the group had the same, and the mean of the samples in 1/256 LSB. -/
structure CarrierObs where
  sensed : Int
  ton : Nat
  truncated : Bool
  rise : Int
  range : Bool
  stuck : Bool
  othersStuck : Nat
  mean : Int
deriving DecidableEq, Repr

/-- An election key of R177. -/
structure FabKey where
  cls : Nat
  inc : Nat
  prio : Nat
  serial : Nat
deriving DecidableEq, Repr

/-- A fabric frame of R173: `DN`, `TYPE`, `VC`, `URG`, `EPO`, `HOPS`, `DST`, `SRC`, `SEQ` and the payload. -/
structure FabFrame where
  dn : Nat
  ty : Nat
  vc : Nat
  urg : Nat
  epo : Nat
  hops : Nat
  dst : Nat
  src : Nat
  seq : Nat
  pay : List Nat
deriving DecidableEq, Repr

/-- Who sends a need frame (R330): the node of the dispenser, from the frame's `SRC`, and its connector. -/
structure NeedFrom where
  node : Nat
  conn : Nat
deriving DecidableEq, Repr

/-- What authenticates a reset command (R200): the destination, the source and `SEQ` of its header, the low 32 bits of the sender's serial number
and the tag. -/
structure ResetTag where
  dst : Nat
  src : Nat
  seq : Nat
  low : Nat
  tag : List Nat
deriving DecidableEq, Repr

/-- What a join request carries beside the serial number and `STICKY_ID` (R180): the role set, and the links, each as the module's link, the
neighbour's node ID and the neighbour's link. -/
structure JoinReq where
  role : Nat
  links : List (Nat × Nat × Nat)
deriving DecidableEq, Repr

/-- A segment as received on the powerline (R231, R233): its sequence, its data, whether its CRC is good, whether any of its
coded bits lay in an erased symbol; the offset of the first fabric frame that starts in it, 0xFF for none; `TM` of its frame (R230). -/
structure RxSeg where
  seq : Nat
  data : List Nat
  ok : Bool
  erased : Bool
  start : Nat := 0xFF
  tm : Nat := 0
deriving DecidableEq, Repr

/-- A beacon as it arrives (R192, R233): its stamp with its arrival, in 1/16 au, and the energy of each of its symbols, in a unit of the receiver's. -/
structure PlcAt where
  v16 : Nat
  energy : List Nat
deriving DecidableEq, Repr

/-- A frame as it arrives (R230, R233): its `FTYPE` and the energy of each of its symbols, in a unit of the receiver's. -/
structure PlcRx where
  ftype : Nat
  energy : List Nat
deriving DecidableEq, Repr

/-- The cipher suites of R315, and any other. -/
inductive TlsSuite where
  | aes128GcmSha256
  | aes256GcmSha384
  | other
deriving DecidableEq, Repr

/-- The curves of R315, X448, which it leaves out, and any other. -/
inductive TlsCurve where
  | p256
  | p384
  | p521
  | x448
  | other
deriving DecidableEq, Repr

/-- A TLS connection that a vehicle opens (R315): the connector, whether it offers version 1.3, its cipher suites and its curves. -/
structure TlsHello where
  conn : Nat
  v13 : Bool
  suites : List TlsSuite
  curves : List TlsCurve
deriving DecidableEq, Repr

/-- A vehicle's maximum discharge current in A and discharge power in kW (R326). -/
structure EvDis where
  i : Nat
  p : Nat
deriving DecidableEq, Repr

/-- What AUTH_TIMEOUT observes (R320, R335): the seconds without an authorisation, and whether `AUTH` was written in the very ms in which they
ended. -/
structure AuthWait where
  secs : Nat
  wrote : Bool
deriving DecidableEq, Repr

/-- An acknowledgement (R230, R240): `ACKMAP`, and the segments not acknowledged of which coded bits lay in an erased symbol at the receiver. -/
structure PlcAck where
  map : Nat
  spared : Nat
deriving DecidableEq, Repr

/-- An entry of the powerline schedule (R235): station, half-cycle, first symbol, length in symbols. -/
structure PlcSlot where
  stn : Nat
  k : Nat
  first : Nat
  len : Nat
deriving DecidableEq, Repr

/-- A read of the PUF SRAM (R414): the errors of its blocks, and whether the check value of the root that it gives matches the one stored. -/
structure PufRead where
  errs : List Nat
  check : Bool
deriving DecidableEq, Repr

/-- A handshake as the module sees it (R419, R499): whether it completes now, and the slots whose check fails at this use. -/
structure ShakeObs where
  done : Bool
  bad : List Nat := []
deriving DecidableEq, Repr

/-- A contract certificate's chain (R316, R331, R419): the slot of the trust anchor to which it verifies while it is valid at the RTC, and the slots
whose check fails at this use. -/
structure ChainObs where
  anchor : Option Nat
  bad : List Nat := []
deriving DecidableEq, Repr

/-- What a start-up or a restart of domains finds (R73, R77): the reads of the PUF SRAM by the attempts that the Key Vault may make (R414); the slots whose check fails (R419); the self-calibration
items that fail, as bits of `SYS_CAL_STAT` (R74); the domains whose RAM fails; the configuration sections whose signature does
not verify with the anchor's key (R480); the firmware banks whose digest or signature does not verify, bit 2u + b for bank b of
unit u (R474); `T_IMAGE` in ms; the counts of the 25 MHz reference at the end; the other causes of a reset that arise at the same instant or
while it runs, as bits of `SEEN`, of which those that rank wider are not counted: the command is that of the widest (R71). -/
structure BootObs where
  puf : List PufRead
  bad : List Nat
  cal : Nat
  ram : Nat
  sect : List Nat
  fw : Nat
  image : Nat
  now : Nat
  also : Nat := 0
deriving DecidableEq, Repr

/-- A command. -/
inductive Instr where
  /-- REGISTER_WRITE (R11). A write to a register field that has no row of its own is checked against its access code, the session level and
  the seal, then applied or refused. Operands: the session, the address, the value and the mask of the bits to write. -/
  | registerWrite (sess a val mask : Nat)
  /-- APPLY (R23). A write of 1 to APPLY in SYS_ROLE_CMD starts a role apply or is refused with STATUS and event 0x0013. Operands: the
  session. -/
  | apply (sess : Nat)
  /-- APPLY_COMPLETE (R24). An accepted role apply finishes its domain resets, sets ROLE_ACT and OPT, populates endpoints, logs 0x0012 and
  returns to RUN or stays in QUIET. Operands: what the restarts find. -/
  | applyComplete (o : BootObs)
  /-- POR_RESET (R73). VSUP held at or above 16.0 V for 10 ms while D1 is off starts a POR and runs the start-up sequence over D1 to D11.
  Operands: VSUP in mV, the ms for which it has held, whether D0 has been without power, and what the start finds. -/
  | porReset (mv ms : Nat) (cold : Bool) (o : BootObs)
  /-- PIN_RESET (R37). RST_N low for 1 µs or longer causes a PIN reset of D3 to D11 with the image reloaded. Operands: the ns for which RST_N
  has been low, whether it still is, and what the start finds. -/
  | pinReset (ns : Nat) (low : Bool) (o : BootObs)
  /-- SOFT_RESET (R72). A write of 1 to SOFT in SYS_RST_CMD performs a SOFT reset of D3 to D11 or is refused with event 0x0009. Operands: the
  session and what the restart finds. -/
  | softReset (sess : Nat) (o : BootObs)
  /-- DOMAIN_RESET (R56). A write to PWR_DOM_RST resets the named domains and their dependants, or is refused with RESULT. Operands: the
  session and the value of `RST`. -/
  | domainReset (sess bits : Nat)
  /-- DOMAIN_RESET_COMPLETE (R56). The domains of a DOMAIN reset restart in switch-on order and event 0x0107 is logged. Operands: what the
  restart finds. -/
  | domainResetComplete (o : BootObs)
  /-- READY_RELEASE (R75). Once every required ready bit, HOLDUP_OK and the other conditions hold, READY is released, T_READY recorded and
  0x0002 logged. Operands: the ms since step 1 of the last reset. -/
  | readyRelease (ms : Nat)
  /-- READY_DEADLINE (R76). The READY deadline passes with bits missing, setting LATE and logging 0x0003. Operands: the ms since step 1 of the
  last reset. -/
  | readyDeadline (ms : Nat)
  /-- VSUP_LOW_BAND_ENTRY (R48). VSUP below 15.5 V for 1 ms enters the low band and logs 0x0101. Operands: VSUP in mV and the µs for which the
  condition has held. -/
  | vsupLowBandEntry (mv us : Nat)
  /-- VSUP_LOW_BAND_EXIT (R48). VSUP at or above 16.0 V for 1 ms leaves the low band and logs 0x0102. Operands: VSUP in mV and the µs for
  which the condition has held. -/
  | vsupLowBandExit (mv us : Nat)
  /-- VSUP_HIGH_BAND_ENTRY (R48). VSUP above 36.5 V for 1 ms enters the high band and logs 0x0109. Operands: VSUP in mV and the µs for which
  the condition has held. -/
  | vsupHighBandEntry (mv us : Nat)
  /-- VSUP_HIGH_BAND_EXIT (R48). VSUP at or below 36.0 V for 1 ms leaves the high band and logs 0x010A. Operands: VSUP in mV and the µs for
  which the condition has held. -/
  | vsupHighBandExit (mv us : Nat)
  /-- VSUP_OVER_VOLTAGE (R48). VSUP above 38.0 V for 1 ms enters over-voltage, puts the module in QUIET and logs 0x0104. Operands: VSUP in mV
  and the µs for which the condition has held. -/
  | vsupOverVoltage (mv us : Nat)
  /-- VSUP_OVER_VOLTAGE_EXIT (R48). VSUP below 36.5 V for 1 ms leaves over-voltage into the high band. Operands: VSUP in mV and the µs for
  which the condition has held. -/
  | vsupOverVoltageExit (mv us : Nat)
  /-- SUPPLY_FAIL (R51). VSUP below 9.0 V for 50 µs declares a supply fail and runs the hold-up sequence to KEEP. Operands: VSUP in mV, the µs
  for which it has been below 9.0 V, the ms for which it has been back at 16.0 V, and what a BOR finds. -/
  | supplyFail (mv us back : Nat) (o : BootObs)
  /-- RAIL_OUT_OF_LIMITS (R52). An internal rail out of limits for 10 µs raises a BOR that runs the hold-up sequence from step 2 and logs
  0x0108. Operands: the domain, the µs for which its rail has been out of limits, and what the BOR finds. -/
  | railOutOfLimits (d us : Nat) (o : BootObs)
  /-- HOLDUP_STORE_TEST (R50). At start-up and every 24 h the hold-up store is drooped and recharged to measure its usable energy. Operands:
  the store's voltage in 0.25 V. -/
  | holdupStoreTest (v : Nat)
  /-- HOLDUP_TEST_REQUEST (R50). A write of 1 to TEST starts a store test now, refused while TESTING is 1. Operands: the session. -/
  | holdupTestRequest (sess : Nat)
  /-- HOLDUP_TEST_DONE (R50). A store test ends, updating E_USABLE and HOLDUP_OK, and logs 0x0106 if it failed. Operands: the usable energy in
  mJ and the store's voltage in 0.25 V. -/
  | holdupTestDone (e v : Nat)
  /-- VBAT_LOW (R53). VBAT falls below 2.6 V, setting VBAT_SEEN and logging 0x0105 at once or at the next start. Operands: VBAT in mV. -/
  | vbatLow (mv : Nat)
  /-- QUIET_REQUEST (R57). A QUIET request moves the module from RUN to QUIET, disabling every phase. Operands: the session. -/
  | quietRequest (sess : Nat)
  /-- RUN_REQUEST (R57). A RUN request moves the module from QUIET to RUN or is refused with RESULT. Operands: the session. -/
  | runRequest (sess : Nat)
  /-- DORMANT_REQUEST (R58). A DORMANT request switches off load switches and D3 to D11, or is refused with RESULT. Operands: the session. -/
  | dormantRequest (sess : Nat)
  /-- WAKE (R59). An enabled wake source wakes the module from DORMANT, restoring domains and reaching QUIET within 600 ms. Operands: the wake
  source, as a bit number of `EN`, and what the restart finds. -/
  | wake (src : Nat) (o : BootObs)
  /-- AUX_ENABLE (R66). Enabling an aux channel starts it with its reference at 0 as soft start. Operands: the session and the channel. -/
  | auxEnable (sess a : Nat)
  /-- AUX_STOP (R67). An aux channel stops, first driving the gates and GDEN of its connector low when it supplies gate drivers. Operands: the
  session and the channel. -/
  | auxStop (sess a : Nat)
  /-- AUX_SETPOINT_CHANGE (R66). A debounced change of VSEL selects a new setpoint that becomes the target of the loop's reference generator.
  Operands: VSEL_A (0) or VSEL_B (1), its value, and the µs for which it has been stable. -/
  | auxSetpointChange (pair v us : Nat)
  /-- AUX_PGOOD (R66). PGOOD is set 1 ms after the reference reaches its target with AUXa_FB within ±5 %. Operands: the channel, AUXa_FB in
  1.25 V / 4,096, and the µs since the reference reached its target. -/
  | auxPgood (a fb us : Nat)
  /-- AUX_PGOOD_LOSS (R67). PGOOD falls and the gates of the supplied connector are driven low within 200 ns. Operands: the channel and
  AUXa_FB. -/
  | auxPgoodLoss (a fb : Nat)
  /-- AUX_FEEDBACK_FAULT (R66). PGOOD not set within 20 ms of enable stops the channel, sets FB_FAULT and logs 0x0124. Operands: the channel
  and the ms since it was enabled. -/
  | auxFeedbackFault (a ms : Nat)
  /-- AUX_BURST_SLEEP (R62). The peak threshold below BURST_TH for 16 periods puts the channel into burst sleep. Operands: the channel and the
  periods for which the threshold has been below `BURST_TH`. -/
  | auxBurstSleep (a n : Nat)
  /-- AUX_BURST_WAKE (R62). AUXa_FB falling 1 % below the reference wakes the channel for at least 4 periods. Operands: the channel and
  AUXa_FB. -/
  | auxBurstWake (a fb : Nat)
  /-- AUX_SYNC_LOCK (R63). Eight consecutive accepted AUX_SYNC edges lock the channel's period. Operands: the channel, the consecutive edges
  and their frequency in 10 Hz. -/
  | auxSyncLock (a n f : Nat)
  /-- AUX_SYNC_LOST (R63). No accepted AUX_SYNC edge within 1.5 periods declares sync lost and moves the period to FSW. Operands: the channel
  and the time since the last accepted edge in tenths of its period. -/
  | auxSyncLost (a t : Nat)
  /-- AUX_TRUNCATION (R64). AUXa_FB above the OV1 threshold ends the present pulse and blocks new pulses. Operands: the channel and AUXa_FB. -/
  | auxTruncation (a fb : Nat)
  /-- AUX_BRAKING (R64). AUXa_FB above OV2, or truncation for more than 2 periods, holds AUXa_DRV low and logs 0x0123. Operands: the channel,
  AUXa_FB and the periods for which truncation has lasted. -/
  | auxBraking (a fb n : Nat)
  /-- AUX_BRAKE_RELEASE (R64). AUXa_FB falling below r × (1 + OV1/2) ends braking. Operands: the channel and AUXa_FB. -/
  | auxBrakeRelease (a fb : Nat)
  /-- AUX_THERMAL_WARNING (R65). The stage temperature reaching WARN limits the peak threshold to 75 % of ILIM and logs 0x0120. Operands: the
  channel. -/
  | auxThermalWarning (a : Nat)
  /-- AUX_THERMAL_SHUTDOWN (R65). The stage temperature reaching SHUT stops the channel and logs 0x0121. Operands: the channel. -/
  | auxThermalShutdown (a : Nat)
  /-- AUX_THERMAL_RESTART (R65). The stage temperature 15 K below SHUT restarts the channel with soft start. Operands: the channel. -/
  | auxThermalRestart (a : Nat)
  /-- SNS_SELECT_CHANGE (R40). A debounced change of SSEL moves SNS to the new load-switch channel within 10 µs. Operands: SSEL, the µs for
  which it has been stable, those since the end of its debounce, those since the channel entered ON, and the voltage on SNS in mV. -/
  | snsSelectChange (code us since onUs mv : Nat)
  /-- TB_ACQUIRE_LOCK (R87). In ACQUIRE a qualifying source sets the stamp and the Timebase enters LOCKED. Operands: the source, its stamp,
  its frequency in mHz, the mains cycles for which the grid has qualified. -/
  | tbAcquireLock (src srcStamp f cycles : Nat)
  /-- TB_ACQUIRE_TIMEOUT (R87). No source within 3 cycles of ACQUIRE sets the restart value and enters HOLDOVER. Operands: the time in ACQUIRE
  without a qualifying source. -/
  | tbAcquireTimeout (ms : Nat)
  /-- TB_SOURCE_LOST (R104). The selected time source is found lost, entering HOLDOVER or slewing to the next source. Operands: the source
  lost; 0 amplitude in mV, 1 frequency in mHz, 2 half-cycles without a stamp, 3 cycles without an edge; the measurement; the next source
  that qualifies, its stamp and its frequency in mHz. -/
  | tbSourceLost (src cause m : Nat) (next : Option (Nat × Nat × Nat))
  /-- GRID_PHASE_JUMP (R93). A grid phase jump above JUMP_MAX counts as a grid loss, enters HOLDOVER and logs 0x0205. Operands: the
  cycle-to-cycle angle change in au. -/
  | gridPhaseJump (jump : Int)
  /-- LINE_FAULT (R104). One mains line absent or inconsistent sets LINE_FLT and logs 0x020B. Operands: the lines absent or inconsistent. -/
  | lineFault (lines : Nat)
  /-- LINE_FAULT_CLEAR (R104). All lines qualifying for 10 cycles clears LINE_FLT. Operands: the cycles for which every line has qualified. -/
  | lineFaultClear (cycles : Nat)
  /-- TB_SLEW_ENTRY (R87). An error above tolerance in LOCKED enters SLEW and logs 0x0203. Operands: the error in 1/16 au and the frequency of
  the source in mHz. -/
  | tbSlewEntry (e : Int) (f : Nat)
  /-- TB_SLEW_LOCKED (R87). The error within tolerance for 2 cycles in SLEW enters LOCKED and logs 0x0204. Operands: the error in 1/16 au, the
  cycles it has been within tolerance, the slew time. -/
  | tbSlewLocked (e : Int) (cycles ms : Nat)
  /-- TB_SOURCE_TAKEN (R87). A source qualifying in HOLDOVER is taken, renumbering if needed and slewing, with 0x0207 logged. Operands: as
  TB_ACQUIRE_LOCK. -/
  | tbSourceTaken (src srcStamp f cycles : Nat)
  /-- CYCLE_RENUMBER (R92). At the next local angle 0 the cycle number is changed by k and 0x0208 is logged. -/
  | cycleRenumber
  /-- REFCLK_LOST (R94). A lost REFCLK changes the base clock to the crystal without stopping and logs 0x0209. -/
  | refclkLost
  /-- DLL_UNLOCK (R95). The delay-locked line unlocks, edges use tap 0 only, starts are held and 0x020A and 0x0336 are logged. Operands: the
  mean tap and for how many base periods it has been off. -/
  | dllUnlock (tapPs periods : Nat)
  /-- DLL_RELOCK (R95). The delay-locked line relocks and logs 0x020C; starts resume at the next angle 0. Operands: the mean tap. -/
  | dllRelock (tapPs : Nat)
  /-- KEEPER_COMMIT (R96). Every 2^16 cycles the keeper stamp and increment are committed to TB_LAST_STAMP with the RTC seconds. -/
  | keeperCommit
  /-- NCAR_CHANGE (R98). A written NCAR takes effect at the next angle 0 and is shown in NCAR_ACT. Operands: the group. -/
  | ncarChange (g : Nat)
  /-- OFFSET_COMMIT (R100). A write of 1 to COMMIT arms the shadow offsets for commit at the next carrier boundary or at the stamp. Operands:
  the session that writes. -/
  | offsetCommit (sess : Nat)
  /-- OFFSET_COMMIT_TAKEN (R100). At its carrier boundary a group takes the shadow offsets, which then slew towards their new values.
  Operands: the group at its carrier boundary. -/
  | offsetCommitTaken (g : Nat)
  /-- ANGLE_PULSE_OUT (R102). The local angle reaching APO_ANG raises TBR_APO for APO_W. -/
  | anglePulseOut
  /-- ANGLE_PULSE_CAPTURE (R103). A selected edge on TBR_API is captured as a stamp and used as a source if accepted. Operands: the stamp of
  the edge in 1/16 au. -/
  | anglePulseCapture (edge : Nat)
  /-- GROUP_CARRIER_BOUNDARY (R109). At each group carrier boundary the ceilings, clamped demand and common threshold are computed. Operands:
  the group and its measured voltage in 0.1 V. -/
  | groupCarrierBoundary (g v : Nat)
  /-- CARRIER_START (R108). At its carrier start an active phase loads its threshold and runs one switching cycle. Operands: the phase and
  what its sense shows in the carrier. -/
  | carrierStart (n : Nat) (o : CarrierObs)
  /-- HALF_CYCLE_BOUNDARY (R115). At each local half-cycle boundary every non-zero EXP_HC decrements. -/
  | halfCycleBoundary
  /-- LEASE_LAPSE (R115). EXP_HC reaching 0 sets LAPSED, makes P_allow the floor and logs 0x0334. Operands: the group. -/
  | leaseLapse (g : Nat)
  /-- OVERSHOOT_TRUNCATE (R122). GVS above OVS1 ends running pulses within 60 ns and blocks new pulses. Operands: the group, GVS in 1.0 V /
  4,096, the pulses it ends. -/
  | overshootTruncate (g gvs pulses : Nat)
  /-- OVERSHOOT_BRAKE (R123). GVS at or above OVS2 holds both gates of every phase of the group low. Operands: the group and GVS. -/
  | overshootBrake (g gvs : Nat)
  /-- TRUNCATE_TIMEOUT (R121). TRUNCATE lasting 2 carrier periods enters BRAKE and logs 0x0321. Operands: the group and the carrier periods
  TRUNCATE has lasted. -/
  | truncateTimeout (g periods : Nat)
  /-- TRUNCATE_RELEASE (R121). GVS at or below OVS1 returns from TRUNCATE to NORMAL. Operands: the group and GVS. -/
  | truncateRelease (g gvs : Nat)
  /-- BRAKE_RELEASE (R121). GVS below OVR returns from BRAKE to NORMAL and pulses resume. Operands: the group and GVS. -/
  | brakeRelease (g gvs : Nat)
  /-- BRAKING_TIMEOUT (R121). BRAKE lasting BRK_MAX half-cycles puts the group into FAULT and logs 0x0322. Operands: the group and the
  half-cycles BRAKE has lasted. -/
  | brakingTimeout (g hc : Nat)
  /-- PHASE_CHECK_FAIL (R126). A phase check completes, the phase is TRIPPED and the group recomputes its share and re-spaces. Operands: the
  phase. -/
  | phaseCheckFail (n : Nat)
  /-- DRIVER_FAULT (R128). PHnn_FLT_N low for FLT_FILT trips the phase and applies the group's FLT_ACT. Operands: the phase and how long
  PHnn_FLT_N has been low, in 4 ns. -/
  | driverFault (n low : Nat)
  /-- PHASE_IMBALANCE (R129). A phase current differing from the group mean by more than IMBAL over a cycle logs 0x0335. Operands: the phase
  and its mean difference over a mains cycle in 0.01 A. -/
  | phaseImbalance (n : Nat) (diff : Int)
  /-- PHASE_ENABLE (R130). Writing EN = 1 moves a phase from OFF to WAIT, or to TRIPPED if its fault input reads a fault. Operands: the
  session, the phase, whether PHnn_FLT_N reads a fault. -/
  | phaseEnable (sess n : Nat) (fltLow : Bool)
  /-- PHASE_DISABLE (R130). Writing EN = 0 moves a phase to OFF, ending its pulse and recomputing the group. Operands: the session and the
  phase. -/
  | phaseDisable (sess n : Nat)
  /-- PHASE_JOIN (R130). A waiting phase becomes ACTIVE at angle 0 while its group runs. Operands: the phase at angle 0. -/
  | phaseJoin (n : Nat)
  /-- GROUP_ENABLE (R131). Writing group EN = 1 requests a start under R131. Operands: the session and the group. -/
  | groupEnable (sess g : Nat)
  /-- GROUP_START (R131). At angle 0 with all conditions met, an IDLE group enters RUN and logs 0x0301. Operands: the group at angle 0. -/
  | groupStart (g : Nat)
  /-- GROUP_DISABLE (R132). Writing group EN = 0 moves a running group to RAMPDOWN, or a faulted group to IDLE. Operands: the session and the
  group. -/
  | groupDisable (sess g : Nat)
  /-- RAMPDOWN_COMPLETE (R132). With demand at 0 and current near zero the group returns to IDLE and logs 0x0302. Operands: the group. -/
  | rampdownComplete (g : Nat)
  /-- DEMAND_WATCHDOG (R134). No demand for DEM_TMO strobes moves the group to RAMPDOWN and logs 0x0331. Operands: the group. -/
  | demandWatchdog (g : Nat)
  /-- RESPACE_COMMIT (R119). At the next angle 0 after N_ACT changes, new phase offsets are committed and 0x0333 logged. Operands: the group
  at angle 0. -/
  | respaceCommit (g : Nat)
  /-- SAMPLE_STROBE (R142). At each sample strobe outputs are delivered, inputs captured and the due loops updated. Operands: the strobe's
  number in the cycle and the bit map of the loops that did not finish in the last sample. -/
  | sampleStrobe (i late : Nat)
  /-- LOOP_HOLD_EXIT (R155). Four consecutive fault-free due updates move a loop from HOLD to TRACK and log 0x0405. Operands: the loop. -/
  | loopHoldExit (l : Nat)
  /-- SRATE_CHANGE (R139). A written SRATE takes effect at the next angle 0 or is refused with SR_STATUS. Operands: the session and the value
  written; no value, the next angle 0. -/
  | srateChange (sess : Nat) (v : Option Nat)
  /-- LOOP_ENABLE (R141). Writing loop EN = 1 admits the loop if the budget allows and initialises it into TRACK or MANUAL. Operands: the
  session and the loop. -/
  | loopEnable (sess l : Nat)
  /-- LOOP_DISABLE (R155). Writing loop EN = 0 moves the loop to OFF and stops its output. Operands: the session and the loop. -/
  | loopDisable (sess l : Nat)
  /-- LOOP_MODE_CHANGE (R156). A change of MODE transfers the loop between MANUAL and AUTO or TRACK with a bumpless preset. Operands: the
  session, the loop and the value of MODE. -/
  | loopModeChange (sess l : Nat) (man : Bool)
  /-- GT_COMMIT (R149). A write of 1 to GT_COMMIT copies the gain-table shadow into force at the next update with a preset. Operands: the
  session and the loop. -/
  | gtCommit (sess l : Nat)
  /-- FF_SWAP (R158). A write to SWAP makes the inactive feed-forward bank active at the next angle 0. Operands: the session and the tables. -/
  | ffSwap (sess mask : Nat)
  /-- SET_TARGET (R164). Launched operation 0x01 sets R_TGT of every loop in the mask. -/
  | setTarget
  /-- SCALE_TARGET (R164). Launched operation 0x02 multiplies R_TGT of every loop in the mask by the value. -/
  | scaleTarget
  /-- SET_RATE (R164). Launched operation 0x03 sets RATE of every loop in the mask. -/
  | setRate
  /-- SET_PARAMETER (R164). Launched operation 0x04 sets one LE_PARAM. -/
  | setParameter
  /-- SET_MODE (R164). Launched operation 0x05 sets MODE of every loop in the mask. -/
  | setMode
  /-- START_INJECTOR (R164). Launched operation 0x06 starts an injector as an EN write with START = 0 would. -/
  | startInjector
  /-- INJECTOR_ENABLE (R165). Writing injector EN = 1 starts the test signal or arms it for its stamp, or refuses the start. Operands: the
  session and the injector. -/
  | injectorEnable (sess j : Nat)
  /-- INJECTOR_STAMP_START (R165). An armed injector starts at the first update at or after LE_INJ_STAMP. Operands: the injector. -/
  | injectorStampStart (j : Nat)
  /-- INJECTOR_END (R166). An injector ends on duration, saturation, loop leaving AUTO, Safe-Off or D7 reset, and logs 0x0409. Operands: the
  injector. -/
  | injectorEnd (j : Nat)
  /-- INJECTOR_DISABLE (R166). Writing injector EN = 0 ends the injection and logs 0x0409. Operands: the session and the injector. -/
  | injectorDisable (sess j : Nat)
  /-- CAPTURE_ARM (R167). A write of 1 to ARM starts or restarts the four-channel capture. Operands: the session. -/
  | captureArm (sess : Nat)
  /-- CAPTURE_TRIGGER (R167). The selected trigger occurs and the capture fills the samples after it. -/
  | captureTrigger
  /-- CAPTURE_DONE (R167). The capture buffer is full, STATE reads DONE and 0x040A is logged. -/
  | captureDone
  /-- LANE_TRAIN (R172). An enabled lane with Fn_LOS low goes from DOWN to TRAIN and sends training blocks. Operands: the lane and whether
  Fn_LOS is high. -/
  | laneTrain (n : Nat) (los : Bool)
  /-- LANE_TRAIN_TIMEOUT (R172). 20 ms in TRAIN without lock or identity exchange returns the lane to DOWN. Operands: the lane and the time in
  TRAIN. -/
  | laneTrainTimeout (n ms : Nat)
  /-- LANE_RETRY (R172). 10 ms after a training timeout the lane retries training. Operands: the lane, the time since the timeout, whether
  Fn_LOS is high. -/
  | laneRetry (n ms : Nat) (los : Bool)
  /-- LANE_HOLD (R172). Block lock, identity exchange and 16 delay measurements move the lane to HOLD. Operands: the lane, the neighbour's
  node ID, the mean delay in 125 ps, the delay measurements made, the neighbour's candidate key. -/
  | laneHold (n node dly count : Nat) (key : FabKey)
  /-- LANE_ACTIVE (R172). A lane stable in HOLD for 10 ms or LINK_HOLD becomes ACTIVE, is reported to the root and logs 0x0606. Operands: the
  lane, the time stable in HOLD, the seconds since it last went DOWN. -/
  | laneActive (n ms : Nat) (downS : Option Nat)
  /-- LANE_DOWN (R190). A lane failure takes the lane DOWN, moves traffic to alternates and reports to the root. Operands: the lane; 0 Fn_LOS
  high, 1 invalid headers, 2 failed replays, 3 LANE_EN bit 0, 4 leave notice; the count. For the powerline, lane 8, it is 4 with the station
  that leaves as the count (R242). -/
  | laneDown (n cause m : Nat)
  /-- FRAME_FORWARD (R185). A received frame is checked and delivered or forwarded under the up/down rule, hop limit and epoch. Operands: the
  link (8 powerline, 14 the module itself), 0 good CRC, 1 bad, 2 the neighbour asks for a repeat; the frame; the urgent frames queued at
  the egress, the responses pending at the endpoint, the urgent frames injected in the last 100 us. -/
  | frameForward (link crc : Nat) (f : FabFrame) (urgent pending recent : Nat)
  /-- STALL_DISCARD (R175). A frame waiting longer than STALL_T for credits is discarded and counted. Operands: the time at the head of the
  queue in 100 us. -/
  | stallDiscard (waited : Nat)
  /-- WAKE_TX (R172). A write to WAKE_TX makes a non-ACTIVE lane send wake blocks for 2 ms. Operands: the session and the lanes. -/
  | wakeTx (sess mask : Nat)
  /-- ANNOUNCE_SEND (R178). An announce with the best known key is sent every 1 ms in ELECT and every half-cycle as MEMBER. Operands: the ms
  since the class last changed. -/
  | announceSend (classMs : Nat)
  /-- ANNOUNCE_RECEIVE (R178). A received announce updates the best known key and may move the module to JOIN. Operands: the link, the key,
  its root sequence, whether the neighbour is MEMBER under that root. -/
  | announceReceive (link : Nat) (key : FabKey) (seq : Nat) (member : Bool)
  /-- BECOME_ROOT (R178). Its own key best for ELECT_HOLD half-cycles makes the module root with node ID 0x001 and logs 0x0602. Operands: the
  half-cycles its key has been best, the 25 MHz reference. -/
  | becomeRoot (hc now : Nat)
  /-- NODE_ID_GRANT (R180). The root answers a join request by granting an ID and installing routes to the joining module. Operands: the
  requester, its STICKY_ID, its role set and links, the root's link towards it and the hops. -/
  | nodeIdGrant (serial sticky : Nat) (role : JoinReq) (link hops : Nat)
  /-- JOIN_RETRY (R178). No grant within 50 ms repeats the join request. Operands: the time since the request. -/
  | joinRetry (ms : Nat)
  /-- JOIN_GRANT (R178). A grant received with routes installed makes the module MEMBER, sets the Fabric ready bit and logs 0x0601. Operands:
  the node ID granted, the level, the up link. -/
  | joinGrant (id level up : Nat)
  /-- ROOT_LOST (R179). ROOT_TMO half-cycles without a newer root announce declare the root lost and start election. Operands: the half-cycles
  without a newer announce of the root. -/
  | rootLost (hc : Nat)
  /-- FABRIC_ALONE (R178). No ACTIVE link for 100 ms forms a one-node fabric with the module as root and logs 0x060E. Operands: the time
  without an ACTIVE link, the 25 MHz reference. -/
  | fabricAlone (ms now : Nat)
  /-- ID_RESERVATION_EXPIRY (R180). The reservation of a departed node's ID ends after ID_HOLD. Operands: the node ID and the seconds since
  the node departed. -/
  | idReservationExpiry (id secs : Nat)
  /-- TOPOLOGY_REPORT (R184). The root takes a topology report and recomputes levels and routes. Operands: the reporting node and its links
  with their neighbours. -/
  | topologyReport (node : Nat) (links : List (Nat × Nat))
  /-- TABLE_LOAD (R189). A table-load frame fills the shadow forwarding bank. Operands: entries as node, primary, alternate, hop count,
  default flag; the direction of each link; the module's level. -/
  | tableLoad (entries : List (Nat × Nat × Nat × Nat × Nat)) (dirs : List (Nat × Nat)) (level : Nat)
  /-- EPOCH_CHANGE (R189). An epoch-change frame arms the switch stamp s, or swaps at once if s has passed. Operands: the switch stamp. -/
  | epochChange (sw : Nat)
  /-- EPOCH_DRAIN (R189). At s − DRAIN_T every node holds injection from its own endpoints. -/
  | epochDrain
  /-- EPOCH_SWAP (R189). At s every node swaps forwarding banks, increments EPOCH and resumes injection. -/
  | epochSwap
  /-- DELAY_EXCHANGE (R191). Every 1 ms each ACTIVE lane exchanges delay blocks and updates DLY. Operands: the lane and the four stamps in 125
  ps. -/
  | delayExchange (n : Nat) (t1 t2 t3 t4 : Int)
  /-- TIME_FRAME_SEND (R192). At each local angle k × 0x20_0000 a time frame with the transmit stamp is sent on every ACTIVE link. Operands:
  the number of the angle. -/
  | timeFrameSend (k : Nat)
  /-- TIME_FRAME_RECEIVE (R192). A time frame from the time parent gives the fabric time-channel source. Operands: the lane and the stamp in
  1/16 au. -/
  | timeFrameReceive (n v16 : Nat)
  /-- LAUNCHED_ACTION_ARRIVAL (R195). An arriving launched action is checked and queued or refused with a result code. Operands: the fields of
  the action, the endpoint of DST where it is not a group. -/
  | launchedActionArrival (src actId ack target ep op : Nat) (dstEp : Option Nat) (body : List Nat)
  /-- SET_GROUP_OFFSET (R199). Timebase operation 0x01 writes a group offset and commits it at the target. -/
  | setGroupOffset
  /-- SET_PHASE_OFFSETS (R199). Timebase operation 0x02 writes up to four phase offsets and commits them at the target. -/
  | setPhaseOffsets
  /-- FABRIC_RESET_COMMAND (R200). A reset command is authenticated and checked, then performs a FABR reset or is discarded and logged.
  Operands: the sender's node, the serial number and the stamp of the payload, the fields that its tag covers with the tag, and what
  the restart finds. -/
  | fabricResetCommand (node serial stamp : Nat) (tagOk : ResetTag) (o : BootObs)
  /-- LEDGER_REPORT (R208). At each half-cycle boundary every MEMBER module sends its ledger report to the root. Operands: the discharge power
  in kW that the store can hold for 32 half-cycles. -/
  | ledgerReport (offer : Nat)
  /-- LEDGER_REPORT_RECEIVE (R215). The root takes a report, checks floor and digest, marks presence and drops acknowledged records. Operands:
  the 25 MHz reference, the node, and the fields of its report. -/
  | ledgerReportReceive (now node serial req cls floor lease applied gen offer digest : Nat) (draw : Int)
  /-- GRANT_ACCEPT (R209). A holder accepts or rejects a grant entry and divides an accepted lease among its groups. Operands: the sending
  node, the issue stamp, the generation, the entry's value, EXP_HC and sequence, whether it is a pledge, the half-cycle boundaries passed
  since receipt. -/
  | grantAccept (src issue gen kw hc seq : Nat) (pledge : Bool) (passed : Nat)
  /-- ALLOCATION_ROUND (R212). At each half-cycle boundary the root computes targets, grants within slack and ramp, and sends grants.
  Operands: the 25 MHz reference. -/
  | allocationRound (now : Nat)
  /-- RECORD_RECLAIM (R213). A grant record whose reclaim time has passed is dropped. Operands: the holder's node and the 25 MHz reference. -/
  | recordReclaim (node now : Nat)
  /-- RECORD_ACK_DROP (R213). 1 ms after a report names an applied sequence, older records of that holder are dropped. Operands: the holder's
  node and the 25 MHz reference. -/
  | recordAckDrop (node now : Nat)
  /-- QUORUM_LOST (R216). Loss of quorum moves the ledger root to NOQUORUM with all targets 0 and logs 0x0502. Operands: the 25 MHz reference. -/
  | quorumLost (now : Nat)
  /-- QUORUM_GAINED (R216). Quorum present in NOQUORUM increments GEN_OWN, starts T_gen and enters WAIT. Operands: the 25 MHz reference. -/
  | quorumGained (now : Nat)
  /-- T_GEN_EXPIRY (R216). T_gen elapsing in WAIT enters GRANT with quorum, or NOQUORUM without. Operands: the 25 MHz reference. -/
  | tGenExpiry (now : Nat)
  /-- PLEDGE_EXPIRY (R217). A store writes its pledge to 0 when it expires in local half-cycles. -/
  | pledgeExpiry
  /-- PLEDGE_NOT_MET (R217). A store whose draw over one cycle is above −PLEDGE logs 0x050B. Operands: the draw in kW averaged over one cycle. -/
  | pledgeNotMet (draw : Int)
  /-- SET_LIM_DYN (R218). Ledger operation 0x01 sets LIM_DYN on the root at the strobe. -/
  | setLimDyn
  /-- CUT (R218). Ledger operation 0x02 scales every holder's leases by f at the strobe and logs 0x050A. -/
  | cut
  /-- LIM_DYN_WRITE (R218). An ADMIN write to LIM_DYN takes effect at the next round and logs 0x050C. Operands: the session and the value. -/
  | limDynWrite (sess v : Nat)
  /-- DRAW_OVER_LIMIT (R223). Reported draws above L_eff for one cycle log 0x0509. Operands: the 25 MHz reference and the cycles for which the
  draws exceed the limit. -/
  | drawOverLimit (now cycles : Nat)
  /-- BEACON_SEND (R235). The coordinator sends its beacon at local angle 0 of every even cycle. -/
  | beaconSend
  /-- BEACON_RECEIVE (R235). A station takes a beacon for time, schedule and association answers. Operands: the beacon's stamp in 1/16 au
  with the energy of its symbols, the coordinator's serial number, node and key, the period counter, the stations associated, the
  successor, the schedule's version and period counter, its entries, the answers as serial number and index. -/
  | beaconReceive (v16 : PlcAt) (serial node kcls klvl kprio bpc nstn succ ver verAt : Nat) (slots : List PlcSlot) (answers : List (Nat × Nat))
  /-- BEACON_MISSED (R236). A missed beacon is counted; two consecutive stop allocations and log 0x0705. -/
  | beaconMissed
  /-- COORDINATOR_TAKEOVER (R234). No beacon for 3 beacon periods makes the station coordinator with index 0. -/
  | coordinatorTakeover
  /-- SUCCESSOR_HANDOVER (R234). A better key heard for 4 periods names a successor, which takes over the beacon. -/
  | successorHandover
  /-- PLC_FRAME_SEND (R232). A station or the coordinator sends a data frame of segments in its slot or allocation. Operands: the station
  (0x3F all) and the symbols left in the slot or allocation. -/
  | plcFrameSend (stn sym : Nat)
  /-- PLC_FRAME_RECEIVE (R233). A received frame is decoded with impulse erasure and its segments checked and delivered in order. Operands:
  the sending and the receiving station, the sender's key and period counter, the frame's type with the energy of its symbols, the
  segments. -/
  | plcFrameReceive (stn dst kcls klvl kprio bpc : Nat) (erased : PlcRx) (segs : List RxSeg)
  /-- PLC_ACKNOWLEDGEMENT (R232). An acknowledgement marks segments received or to be resent. Operands: the station, ACKSEQ, and ACKMAP
  with the segments that an impulse spoilt. -/
  | plcAcknowledgement (stn ackSeq : Nat) (ackMap : PlcAck)
  /-- SEGMENT_DISCARD (R232). A segment past its retries or 2 beacon periods is discarded and counted in DROP. Operands: the station. -/
  | segmentDiscard (stn : Nat)
  /-- ASSOCIATION_REQUEST (R241). A station requests association in a contention slot and is answered in a beacon. Operands: the
  SRC_STN of the frame where the coordinator receives it, none where this module sends it; the requester's serial number and node. -/
  | associationRequest (rx : Option Nat) (serial node : Nat)
  /-- STATION_REMOVE (R241). The coordinator removes a station silent for 8 beacon periods. Operands: the station. -/
  | stationRemove (stn : Nat)
  /-- SOUNDING (R240). A sounding frame of 4 known symbols is sent for a tone map. Operands: the station. -/
  | sounding (stn : Nat)
  /-- TONE_MAP_ISSUE (R240). The receiver issues a new tone map to the sender, used from its next frame. Operands: the station, whether this
  module issues the map, its identifier, rate and codes. -/
  | toneMapIssue (stn : Nat) (mine : Bool) (id rate : Nat) (codes : List Nat)
  /-- TONE_MAP_REFRESH (R240). Every 30 s a link's tone map is refreshed. Operands: the station and the seconds since the map was issued. -/
  | toneMapRefresh (stn secs : Nat)
  /-- LINK_DEGRADED (R240). Four failed segments in 32 switch the link to robust 4× and log 0x0707. Operands: the station. -/
  | linkDegraded (stn : Nat)
  /-- RANGING (R243). Every 30 s and at association a ranging exchange updates the powerline DLY. Operands: the station, the four stamps in
  125 ps, how long the link has been stable, the seconds since it last went DOWN. -/
  | ranging (stn : Nat) (t1 t2 t3 t4 : Int) (stableMs : Nat) (downS : Option Nat)
  /-- COUPLER_ABSENT (R226). PLC_DET reading high stops transmission and reports the powerline absent. Operands: the time PLC_DET has been
  high. -/
  | couplerAbsent (ms : Nat)
  /-- COUPLER_PRESENT (R247). PLC_DET reading low again restores the powerline channel. -/
  | couplerPresent
  /-- METROLOGY_SAMPLE (R257). Each decimated sample of an enabled point is validated, powered and accumulated by direction. Operands: the
  point and the 128 bits that the modulators of its voltage and current channels gave since the last sample, bit 0 the newest (R252). -/
  | metrologySample (p : Nat) (xv xi : BitVec 128)
  /-- CHANNEL_STUCK (R251). 256 identical bits mark a modulator channel stuck and its points invalid. Operands: the channel and the identical
  bits in a row. -/
  | channelStuck (c run : Nat)
  /-- CHANNEL_OVER_RANGE (R251). Four samples with |x| above 0.97 mark a channel over range. Operands: the channel and the samples in a row
  with a magnitude above 0.97. -/
  | channelOverRange (c n : Nat)
  /-- CHANNEL_FAULT_CLEAR (R251). 1,024 good samples clear a channel fault. Operands: the channel, the fault (0 stuck, 1 over range) and the
  samples in a row without it. -/
  | channelFaultClear (c kind n : Nat)
  /-- POINT_BLOCK_PUBLISH (R258). Every 16 samples a point publishes its means of V, I, P and loss if all were valid. Operands: the point. -/
  | pointBlockPublish (p : Nat)
  /-- PACK_CURRENT_REQUEST (R259). Metrology answers the Cell Supervisor with the point current interpolated at the sweep stamp. Operands: the
  time in µs from the sweep stamp to the request. -/
  | packCurrentRequest (lateUs : Nat)
  /-- CABLE_TEMPERATURE_UPDATE (R261). Every 100 ms T is taken from the source named in CAB_TSRC. Operands: the point. -/
  | cableTemperatureUpdate (p : Nat)
  /-- CABLE_T_FALLBACK (R261). A source not updated for 1 s or suspect makes T fall back to CAB_TFALL and logs 0x0807. Operands: the point and
  the ms since its source was updated. -/
  | cableTFallback (p ms : Nat)
  /-- CABLE_T_RETURN (R261). A source good for 10 s returns T to the source and logs 0x0807. Operands: the point and the seconds for which its
  source has been good. -/
  | cableTReturn (p secs : Nat)
  /-- POINT_ENABLE (R256). A write of EN = 1 enables a measurement point or sets CFG_ERR. Operands: the session and the point. -/
  | pointEnable (sess p : Nat)
  /-- SNAPSHOT_TAKE (R266). Writing 1 to a SNAP bit takes a consistent snapshot of the point at the next or stamped sample. Operands: the
  session and the points. -/
  | snapshotTake (sess mask : Nat)
  /-- SNAPSHOT_RELEASE (R266). Writing 0 to a SNAP bit releases the snapshot. Operands: the session and the points. -/
  | snapshotRelease (sess mask : Nat)
  /-- SNAPSHOT_ACTION (R266). Metrology operation 0x01 takes snapshots of the masked points at the target. -/
  | snapshotAction
  /-- SNAPSHOT_RELEASE_ACTION (R266). Metrology operation 0x02 releases the snapshots of the masked points at the strobe. -/
  | snapshotReleaseAction
  /-- PEAK_CLEAR (R267). A write of 1 to PEAK_CLEAR clears the point's peaks. Operands: the session and the point. -/
  | peakClear (sess p : Nat)
  /-- OVER_CURRENT (R268). OC_N fast samples above OC_TH set OC, log 0x0806 and request Safe-Off if OC_ACT = 1. Operands: the point, how
  many fast samples are judged, and for each of them, newest first, the 63 bits of the current channel that its filter covers. -/
  | overCurrent (p n : Nat) (peak : List (BitVec 63))
  /-- OVER_CURRENT_CLEAR (R268). 1 ms below 0.95 × OC_TH clears OC. Operands: the point and the ms below 0.95 of the threshold. -/
  | overCurrentClear (p ms : Nat)
  /-- PULSE_EMIT (R269). A pulse output's quantity reaching the next multiple of WT starts a pulse or queues it in PEND. Operands: the output. -/
  | pulseEmit (n : Nat)
  /-- PULSE_END (R269). A pulse ends after PW and the next queued pulse may start after the gap. Operands: the output and the time since its
  pulse began, in 0.1 ms. -/
  | pulseEnd (n t : Nat)
  /-- METROLOGY_COMMIT (R273). Every 60 s the metrology state is committed to MRAM without a closing mark. Operands: the seconds since the
  last commit. -/
  | metrologyCommit (secs : Nat)
  /-- ACCUMULATION_START (R274). After POR or BOR accumulation restarts at the first sample after HOLDUP_OK is set. Operands: the seconds
  since accumulation closed. -/
  | accumulationStart (secs : Nat)
  /-- SEAL_SET (R275). An ADMIN write of SET with the right CONFIRM sets the metrology seal and logs 0x0809. Operands: the session and the
  value of `CONFIRM`. -/
  | sealSet (sess confirm : Nat)
  /-- BILLING_TICK (R301). At each RTC second tick Billing moves BT, books samples, closes intervals and periods and finds the rate. -/
  | billingTick
  /-- REBASE (R285). An ADMIN write of REBASE closes intervals and period, increments EPOCH and sets BT to the RTC. Operands: the session. -/
  | rebase (sess : Nat)
  /-- CALENDAR_ACTIVATE (R289). A write of 1 to ACTIVATE checks the passive calendar bank and schedules its activation. Operands: the session. -/
  | calendarActivate (sess : Nat)
  /-- PERIOD_CLOSE_COMMAND (R295). An ADMIN write of CLOSE closes the billing period at the next tick. Operands: the session. -/
  | periodCloseCommand (sess : Nat)
  /-- PERIOD_CLOSE_ACTION (R311). Billing operation 0x01 closes the billing period at the first tick after the strobe. -/
  | periodCloseAction
  /-- SESSION_OPEN (R296). The Vehicle Session asks Billing to open a session record on a legal point, refused when the store is full.
  Operands: the point, the connector, the session identifier, the SHA-256 of the vehicle's identifier, the stamp from which the session
  opens. -/
  | sessionOpen (p conn id : Nat) (ident : List Nat) (stamp : Nat)
  /-- SESSION_CLOSE (R296). The Vehicle Session asks Billing to close a session with its end reason and a record is made. Operands: the point,
  the end reason, the stamp from which the session closes. -/
  | sessionClose (p reason stamp : Nat)
  /-- SESSION_ACK (R297). A write to BIL_SESS_ACK acknowledges session records up to the number written. Operands: the session and the number. -/
  | sessionAck (sess n : Nat)
  /-- RECORD_SIGN (R299). A stored record is signed with the metrology signing key once the Key Vault is ready. Operands: whether the signing
  slot passes its check. -/
  | recordSign (ok : Bool)
  /-- TAMPER_LOOP_SAMPLE (R36). Every 50 ms the tamper loops are sampled and an opening declared after two open samples. Operands: whether
  TMP_COVER, TMP_TERM, TMP_LID and the mesh read open. -/
  | tamperLoopSample (cover term lid mesh : Bool)
  /-- TAMPER_QUEUE_MOVE (R304). While D2 runs Billing moves latched tamper entries to the Moraine log. -/
  | tamperQueueMove
  /-- TAMPER_ACK (R305). An ADMIN write of TMP_ACK with both loops intact clears TMP_PEND and logs 0x0925. Operands: the session. -/
  | tamperAck (sess : Nat)
  /-- DISPLAY_FRAME (R307). Every 500 ms and at each page change a page frame is sent on DISP0. -/
  | displayFrame
  /-- DISPLAY_ANSWER (R307). The display's answer is checked, and three missing answers set DISP_FLT. Operands: the bytes that the
  display has answered within 50 ms. -/
  | displayAnswer (ok : List Nat)
  /-- PAGE_ADVANCE (R309). Every DWELL seconds the display advances to the next page. Operands: the seconds for which the page has been shown. -/
  | pageAdvance (secs : Nat)
  /-- DISPLAY_BUTTON_SHORT (R309). A short press of DISP_BTN shows the next page and stops automatic advance. -/
  | displayButtonShort
  /-- DISPLAY_BUTTON_LONG (R309). A press of 2 s or longer shows a test frame for 3 s and then page 0. -/
  | displayButtonLong
  /-- MANUAL_ADVANCE_RESUME (R309). 60 s after the last press automatic page advance resumes. Operands: the seconds since the last press. -/
  | manualAdvanceResume (secs : Nat)
  /-- INTERLOCK_OPEN (R317). An interlock reading open or faulted is a fast-stop cause. Operands: the connector, the voltage of ILn_SNS in mV,
  the samples of 100 µs in a row with that reading. -/
  | interlockOpen (c mv n : Nat)
  /-- PROXIMITY_CHANGE (R318). PROXn within a new band for 10 ms changes the proximity reading. Operands: the connector, the voltage of PROXn
  in mV, the ms within its band. -/
  | proximityChange (c mv ms : Nat)
  /-- PLUG_IN (R320). Proximity latched and interlock closed for 100 ms enter PLUGGED and enable the T1S link. Operands: the connector and the
  ms for which the condition has held. -/
  | plugIn (c ms : Nat)
  /-- SDP_REQUEST (R315). An SDP request is answered with the secured transport, or refused when the SECC key is unusable. Operands: the
  connector and whether the slot named by CERT_SLOT passes its check. -/
  | sdpRequest (c : Nat) (ok : Bool)
  /-- TLS_SESSION_ESTABLISHED (R320). A TLS session on the connector moves it from PLUGGED to SETUP. Operands: the connector
  with what the vehicle offers. -/
  | tlsSessionEstablished (c : TlsHello)
  /-- PLUG_TIMEOUT (R320). 20 s in PLUGGED without a TLS session ends the connector with end 0x09. Operands: the connector and the ms without
  a TLS session. -/
  | plugTimeout (c ms : Nat)
  /-- SUPPORTED_APP_PROTOCOL (R314). The SupportedAppProtocol request is answered. Operands: the connector. -/
  | supportedAppProtocol (c : Nat)
  /-- SESSION_SETUP (R314). The SessionSetup request is answered. Operands: the connector and the session identifier. -/
  | sessionSetup (c sid : Nat)
  /-- AUTHORIZATION_SETUP (R314). The AuthorizationSetup request is answered with the offered identification methods. Operands: the connector. -/
  | authorizationSetup (c : Nat)
  /-- AUTHORIZATION (R331). An Authorization request is answered ongoing until AUTH is written, after verifying PnC or taking EIM. Operands:
  the connector, whether the method is Plug and Charge, the identifier, the trust anchor to which the contract certificate verifies while it is
  valid at the RTC, with the slots whose check fails at this use. -/
  | authorization (c : Nat) (pnc : Bool) (ident : List Nat) (chainOk : ChainObs)
  /-- SERVICE_DISCOVERY (R314). The ServiceDiscovery request is answered with DC and DC_BPT. Operands: the connector. -/
  | serviceDiscovery (c : Nat)
  /-- SERVICE_DETAIL (R314). The ServiceDetail request is answered. Operands: the connector. -/
  | serviceDetail (c : Nat)
  /-- SERVICE_SELECTION (R314). The ServiceSelection request selects the service and control mode. Operands: the connector, the service (0 DC,
  1 DC_BPT) and the control mode (1 Scheduled, 2 Dynamic). -/
  | serviceSelection (c service mode : Nat)
  /-- DC_CHARGE_PARAMETER_DISCOVERY (R326). DC_ChargeParameterDiscovery is answered with the present offer. Operands: the connector, the
  vehicle's maximum and minimum voltage in V, maximum current in A and power in kW, maximum discharge current in A and power in
  kW. -/
  | dcChargeParameterDiscovery (c vMax vMin iMax pMax : Nat) (iDisMax : EvDis)
  /-- SCHEDULE_EXCHANGE (R326). ScheduleExchange is answered with the present offer. Operands: the connector. -/
  | scheduleExchange (c : Nat)
  /-- DC_CABLE_CHECK (R320). DC_CableCheckReq in SETUP closes DC− and enters CLOSE if R321 allows. Operands: the connector. -/
  | dcCableCheck (c : Nat)
  /-- DC_PLUS_CLOSE (R320). 20 ms after DC− closes, DC+ is closed. Operands: the connector and the ms since DC− was closed. -/
  | dcPlusClose (c ms : Nat)
  /-- CABLE_CHECK_START (R324). 50 ms after DC+ closes the group is enabled and the cable check runs to V_CC. Operands: the connector and the
  ms since DC+ was closed. -/
  | cableCheckStart (c ms : Nat)
  /-- CABLE_CHECK_FINISH (R324). V within PRE_TOL of V_CC for 1 s with a good insulation value finishes the cable check. Operands: the
  connector, the ms for which the voltage has been within its tolerance, the ms since the last insulation value at or above R_WARN. -/
  | cableCheckFinish (c ms isoMs : Nat)
  /-- DC_PRE_CHARGE (R325). DC_PreChargeReq enters PRECHARGE and sets VLOOP to the vehicle's target voltage. Operands: the connector and the
  vehicle's target voltage in V. -/
  | dcPreCharge (c v : Nat)
  /-- POWER_DELIVERY_START (R320). PowerDelivery Start opens the Billing session and enters ENERGY, or ends a Standby. Operands: the
  connector. -/
  | powerDeliveryStart (c : Nat)
  /-- POWER_DELIVERY_STOP (R320). PowerDelivery Stop is a normal stop that ramps the limits to 0. Operands: the connector. -/
  | powerDeliveryStop (c : Nat)
  /-- STANDBY (R320). ChargeProgress Standby ramps the limits to 0 with contactors kept closed. Operands: the connector. -/
  | standby (c : Nat)
  /-- DC_CHARGE_LOOP (R326). DC_ChargeLoop takes the vehicle's targets and is answered with the present offer. Operands: the connector, the
  vehicle's target voltage in V and current in A, and its limits as in the parameter discovery. -/
  | dcChargeLoop (c v : Nat) (i : Int) (vMax vMin iMax pMax : Nat) (iDisMax : EvDis)
  /-- DC_WELDING_DETECTION (R323). DC_WeldingDetection is answered with V at the point. Operands: the connector. -/
  | dcWeldingDetection (c : Nat)
  /-- SESSION_STOP (R320). SessionStop is a normal stop of the connector. Operands: the connector. -/
  | sessionStop (c : Nat)
  /-- FAST_STOP (R319). A fast-stop cause takes the limits to 0 at once and enters RAMPDOWN or ENDED. Operands: the connector and whether a
  sequence timeout of the standard has expired. -/
  | fastStop (c : Nat) (seqTimeout : Bool)
  /-- AUTH_WRITE (R331). A write of AUTH accepts or refuses the identifier in SETUP. Operands: the session, the connector and the value. -/
  | authWrite (sess c v : Nat)
  /-- AUTH_TIMEOUT (R320). AUTH_TMO elapsing in SETUP ends the connector with end 0x0A. Operands: the connector, the seconds without an
  authorisation, and whether AUTH was written in the same ms. -/
  | authTimeout (c : Nat) (secs : AuthWait)
  /-- PRE_TIMEOUT (R320). PRE_TMO elapsing in PRECHARGE enters RAMPDOWN with end 0x09. Operands: the connector and the ms since PRECHARGE was
  entered. -/
  | preTimeout (c ms : Nat)
  /-- CURRENT_DECAYED (R320). |I| at or below I_OPEN for 10 ms in RAMPDOWN closes the Billing session and opens DC+. Operands: the connector
  and the ms for which the current has been low. -/
  | currentDecayed (c ms : Nat)
  /-- DECAY_TIMEOUT (R320). DECAY_T after limits reach 0 enters FAULT, holds the contactors and requests Safe-Off. Operands: the connector and
  the ms since the limits reached 0. -/
  | decayTimeout (c ms : Nat)
  /-- DC_MINUS_OPEN (R322). 20 ms after DC+ opens, DC− is opened. Operands: the connector and the ms since DC+ was opened. -/
  | dcMinusOpen (c ms : Nat)
  /-- WELD_CHECK (R323). 50 ms after DC− opens with WELD_EN = 1 the welding check runs for 200 ms. Operands: the connector and the ms since
  DC− was opened. -/
  | weldCheck (c ms : Nat)
  /-- WELD_CHECK_COMPLETE (R323). The welding check completes to ENDED, or to FAULT with 0x0A09 if welded. Operands: the connector, the ms
  since the check began, whether the voltage at the point has followed the group's throughout. -/
  | weldCheckComplete (c ms : Nat) (followed : Bool)
  /-- UNPLUG (R320). Proximity not connected for 1 s returns an ended connector to IDLE. Operands: the connector and the ms of "not
  connected". -/
  | unplug (c ms : Nat)
  /-- STOP_COMMAND (R332). A write of 1 to STOP causes a normal stop with end 0x02. Operands: the session and the connector. -/
  | stopCommand (sess c : Nat)
  /-- FAULT_CLEAR (R320). A write of 1 to CLR with proximity not connected returns a faulted connector to IDLE. Operands: the session and the
  connector. -/
  | faultClear (sess c : Nat)
  /-- LAUNCHED_STOP (R333). Vehicle Session operation 0x01 causes a normal stop with end 0x0C on the masked connectors. -/
  | launchedStop
  /-- OFFER_UPDATE (R326). Twice per half-cycle the connector's enforced limit and offer are recomputed. Operands: the connector. -/
  | offerUpdate (c : Nat)
  /-- LIMIT_RAMP_STEP (R327). Every ms in ENERGY the VLOOP target and limits move towards their goals within I_RAMP. Operands: the connector. -/
  | limitRampStep (c : Nat)
  /-- NEED_FRAME (R330). At each half-cycle boundary a dispenser sends its need frame to the feeding group. Operands: the connector. -/
  | needFrame (c : Nat)
  /-- NEED_FRAME_RECEIVE (R330). The cabinet writes a need frame's values into its loop and group enable. Operands: the group, the sender's
  node and connector, and the fields of the frame. -/
  | needFrameReceive (g : Nat) (c : NeedFrom) (flags need rTgt : Nat) (uMax uMin : Int) (rate : Nat)
  /-- ALLOWANCE_FRAME (R330). At each half-cycle boundary the cabinet sends its allowance frame to the dispenser. Operands: the group. -/
  | allowanceFrame (g : Nat)
  /-- ALLOWANCE_FRAME_RECEIVE (R330). The dispenser takes an allowance frame into its offer. Operands: the connector and the fields of the
  frame. -/
  | allowanceFrameReceive (c state : Nat) (lapsed : Bool) (exp cap p v : Nat) (i : Int) (rev : Nat)
  /-- NEED_FRAME_LOSS (R330). No need frame for 2 half-cycles writes limits 0, clears EN and logs 0x0A0C. Operands: the group. -/
  | needFrameLoss (g : Nat)
  /-- FEED_LOST (R330). No allowance frame for 4 half-cycles in CLOSE to ENERGY is a fast-stop cause with end 0x0F. Operands: the connector. -/
  | feedLost (c : Nat)
  /-- IMD_UPDATE (R324). A new insulation value is checked against R_FAULT and R_WARN. Operands: the connector and the resistance in kΩ. -/
  | imdUpdate (c r : Nat)
  /-- IMD_TIMEOUT (R324). No insulation update for IMD_TMO from CLOSE on is a fast-stop cause with end 0x05. Operands: the connector and the
  ms since the last insulation value. -/
  | imdTimeout (c ms : Nat)
  /-- CONTACTOR_FAULT (R321). V at the point not following V_GRP within 20 V for 100 ms is a contactor fault with end 0x06. Operands: the
  connector and the ms for which the voltages have differed. -/
  | contactorFault (c ms : Nat)
  /-- LINK_LOST (R315). A closed TLS connection or a T1S link down for 100 ms ends the session as link lost. Operands: the connector, whether
  the TLS connection has closed, the ms for which the T1S link has been down. -/
  | linkLost (c : Nat) (closed : Bool) (ms : Nat)
  /-- SENSOR_SAMPLE (R340). An external sensor is sampled, cross-checked and its reported value judged against its limits. Operands: the input
  and its resistance in mΩ. -/
  | sensorSample (n mOhm : Nat)
  /-- SENSOR_FAILED (R338). 3 invalid resistances make a sensor FAILED and log 0x0B04. Operands: the input and the samples in a row outside
  the valid range. -/
  | sensorFailed (n k : Nat)
  /-- SENSOR_RECOVER (R338). 10 s of valid samples make a failed sensor OK again and log 0x0B05. Operands: the input and the seconds of valid
  samples. -/
  | sensorRecover (n secs : Nat)
  /-- SENSOR_SUSPECT (R342). A sensor differing from its group by more than TOL for NX samples becomes SUSPECT. Operands: the input and the
  samples in a row beyond the tolerance. -/
  | sensorSuspect (n k : Nat)
  /-- SUSPECT_RECOVER (R342). 10 s within TOL/2 makes a suspect sensor OK again. Operands: the input and the seconds within half the
  tolerance. -/
  | suspectRecover (n secs : Nat)
  /-- SNOWLINE_EXIT (R340). 1,000 samples below the band return a sensor to 10 Hz sampling. Operands: the input and the samples in a row below
  the band. -/
  | snowlineExit (n k : Nat)
  /-- WARN_LIMIT (R341). DEB samples at or above WARN set WARN and log 0x0B01. Operands: the sensor or cable model by its number of R351, and
  the samples in a row at or above its warning limit, or below it less 1 K. -/
  | warnLimit (m k : Nat)
  /-- ZONE_ASK (R347). A member reaching THR writes the allowance as the ask and starts the grace time. Operands: the zone, a member, its
  samples in a row at or above THR. -/
  | zoneAsk (z m k : Nat)
  /-- ZONE_ENFORCE (R347). The grace time ending without compliance writes the allowance to I_THERM and logs 0x0B07. Operands: the zone and
  the time since the ask in 0.1 s. -/
  | zoneEnforce (z t : Nat)
  /-- ZONE_SHUTDOWN (R350). A member reaching SHUT stops the zone's groups and connectors and writes a shutdown record. Operands: the zone, a
  member, its samples in a row at or above SHUT. -/
  | zoneShutdown (z m k : Nat)
  /-- ZONE_RELEASE (R347). Every member leaving THR withdraws ask and enforcement and logs 0x0B08. Operands: the zone and the samples in a row
  for which every member has left THR. -/
  | zoneRelease (z k : Nat)
  /-- SHUTDOWN_RELEASE (R352). Members below THR − THR_HYS for RST_T release an unlatched shutdown and log 0x0B0A. Operands: the zone and the
  seconds for which its members have been cool. -/
  | shutdownRelease (z secs : Nat)
  /-- ZONE_CLR (R352). An ADMIN write of CLR releases a latched zone shutdown when the members are cool. Operands: the session, the zone, the
  seconds for which its members have been cool. -/
  | zoneClr (sess z secs : Nat)
  /-- ZONE_ENABLE (R346). A write of zone EN = 1 enables the zone or sets CFG_ERR. Operands: the session and the zone. -/
  | zoneEnable (sess z : Nat)
  /-- CABLE_MODEL_UPDATE (R344). Every 10 ms the cable conductor model updates its temperature. Operands: the model. -/
  | cableModelUpdate (m : Nat)
  /-- MODEL_SUSPECT (R345). An invalid point or failed coolant sensor makes the cable model SUSPECT and logs 0x0B0F. Operands: the model. -/
  | modelSuspect (m : Nat)
  /-- INTERNAL_SENSOR_SAMPLE (R339). An internal sensor is sampled and checked against its warning level. Operands: the internal sensor and
  its temperature in 0.1 °C. -/
  | internalSensorSample (i : Nat) (v : Int)
  /-- INTERNAL_OVER_TEMPERATURE (R339). 3 samples at the Safe-Off level request Safe-Off, log 0x0B0E and write a shutdown record. Operands:
  the internal sensor and the samples in a row at or above its Safe-Off level. -/
  | internalOverTemperature (i k : Nat)
  /-- THERMAL_RESTART (R353). 100 ms after D10 leaves reset zones re-enter their states and I_THERM and I_THASK are written. Operands: the ms
  since D10 left reset. -/
  | thermalRestart (ms : Nat)
  /-- CIRCUIT_RUN (R354). A coolant circuit starts running and switches its pump and valve channels on. Operands: the circuit. -/
  | circuitRun (k : Nat)
  /-- CIRCUIT_STOP (R354). AFTER_T after its last cause ends the circuit stops and its channels switch off. Operands: the circuit and the
  seconds since its last cause ended. -/
  | circuitStop (k secs : Nat)
  /-- FLOW_TIMEOUT (R355). No flow update for TMO makes the flow input invalid. Operands: the flow input and the ms since its last update. -/
  | flowTimeout (f ms : Nat)
  /-- FLOW_FAULT (R356). Flow below FLOW_MIN or invalid for FLOW_T sets FLOW_FLT, logs 0x0B0B and may shut the zone. Operands: the circuit and
  for how long in 0.1 s it has run and its flow has been low. -/
  | flowFault (k run low : Nat)
  /-- FLOW_RECOVERED (R356). 10 s at or above FLOW_MIN clears FLOW_FLT and logs 0x0B0C. Operands: the circuit and the seconds of sufficient
  flow. -/
  | flowRecovered (k secs : Nat)
  /-- HEATER_ON (R357). TIN below HEAT_ON switches the heater channel on. Operands: the circuit. -/
  | heaterOn (k : Nat)
  /-- HEATER_OFF (R357). TIN reaching HEAT_OFF switches the heater channel off. Operands: the circuit. -/
  | heaterOff (k : Nat)
  /-- CS_WAKE (R375). The Cell Supervisor enters WAKE and sends wake frames from both ring ends. -/
  | csWake
  /-- DISCOVERY (R376). After WAKE, discovery passes find the units and set N, positions and the partition. Operands: the ms in WAKE, whether
  the pass from RF0 has reached RF1, the units that answer each end, and the serial numbers by ring index. -/
  | discovery (ms : Nat) (through : Bool) (na nb : Nat) (ser : List (Nat × Nat))
  /-- DISCOVERY_ATTEMPT_END (R376). A discovery attempt ends, running WAKE again or marking missing units LOST after the third. Operands: the
  units that have answered each end, and the serial numbers by ring index. -/
  | discoveryAttemptEnd (na nb : Nat) (ser : List (Nat × Nat))
  /-- SWEEP_SYNC (R366). At T_sync both ring ends send syncs that fix the snap instant, or the sweep is skipped. -/
  | sweepSync
  /-- KEEPALIVE_SYNC (R371). While sweeps are stopped, syncs without snap are sent every 250 ms. Operands: the ms since the last sync. -/
  | keepaliveSync (ms : Nat)
  /-- RECORD_RECEIVE (R370). A record frame from a unit arrives at a ring end in a collection slot. Operands: the end, the origin position and
  the fields of the record, with the order sequence that it shows. -/
  | recordReceive (dir p sweep status : Nat) (cells : List Nat) (t0 t1 : Int) (mask seq : Nat)
  /-- COLLECTION_END (R369). Collection ends, the sweep completes, cells and limits are evaluated and balancing orders made. -/
  | collectionEnd
  /-- RECOLLECT (R372). A missing tail sends a recollect from the other ring end. -/
  | recollect
  /-- RECOLLECT_END (R373). The recollect ends, the break is recorded and the partition moved. -/
  | recollectEnd
  /-- HEAL_PROBE (R374). Every 40th sweep while broken a discovery pass from RF0 tests whether the ring is healed. Operands: whether the pass
  from RF0 has reached RF1. -/
  | healProbe (reached : Bool)
  /-- ORDER_SEND (R377). A write of 1 to SEND queues a balancing order for the next command window. Operands: the session and the unit by its
  ring index less 1. -/
  | orderSend (sess i : Nat)
  /-- SWEEP_START (R381). Cell Supervisor operation 0x01 restarts sweeping with its first snap at TARGET. -/
  | sweepStart
  /-- SWEEP_STOP (R381). Cell Supervisor operation 0x02 stops sweeping after the sweep in progress. -/
  | sweepStop
  /-- CELL_QUERY (R379). A frame to a cell endpoint is answered with the cell's value, flags and sweep. Operands: the asking node and the cell
  number. -/
  | cellQuery (src k : Nat)
  /-- RING_LOST (R376). Every unit missing for LOST_N sweeps returns the Cell Supervisor to WAKE. -/
  | ringLost
  /-- CS_DISABLE (R376). EN written 0, or STORE leaving the role set, moves the Cell Supervisor to OFF. -/
  | csDisable
  /-- CHANNEL_ON (R392). A load-switch channel commanded on goes from OFF to ON and starts T_BLANK. Operands: the session and the channel. -/
  | channelOn (sess n : Nat)
  /-- CHANNEL_OFF (R392). A load-switch channel commanded off goes to OFF. Operands: the session and the channel. -/
  | channelOff (sess n : Nat)
  /-- OVER_CURRENT_TRIP (R390). Current above I_TRIP for T_TRIP trips the channel to WAIT or LATCHED. Operands: the channel, the ms since it
  entered ON, the time above its trip current in 0.1 ms, the current in 10 mA. -/
  | overCurrentTrip (n onMs t i : Nat)
  /-- THERMAL_SHUTDOWN (R390). The junction reaching 175 °C switches the channel off to WAIT or LATCHED. Operands: the channel and its
  junction temperature in °C. -/
  | thermalShutdown (n : Nat) (tj : Int)
  /-- AUTOMATIC_RESTART (R392). RST_T after a trip with the junction below 160 °C restarts the channel and counts RST_CNT. Operands: the
  channel, the time since its output went off in 10 ms, its junction temperature in °C. -/
  | automaticRestart (n t : Nat) (tj : Int)
  /-- RESTART_WINDOW (R391). RST_WIN ON without a trip returns RST_CNT to 0. Operands: the channel and the seconds ON without a trip. -/
  | restartWindow (n secs : Nat)
  /-- BANK_UNDERVOLTAGE (R392). A bank supply below 9.0 V for 50 µs puts its ON channels into UVLO and logs 0x0D06. Operands: the bank, its
  supply in mV, the µs below 9.0 V. -/
  | bankUndervoltage (b mv us : Nat)
  /-- BANK_UNDERVOLTAGE_EXIT (R392). A bank supply at or above 9.5 V returns UVLO channels to ON and logs 0x0D06. Operands: the bank and its
  supply in mV. -/
  | bankUndervoltageExit (b mv : Nat)
  /-- LATCH_CLEAR (R392). A write of 1 to CLR with the junction below 160 °C releases a LATCHED channel to OFF. Operands: the session, the
  channel, its junction temperature in °C. -/
  | latchClear (sess n : Nat) (tj : Int)
  /-- SWITCH_CHANNELS (R389). Load Switch operation 0x01 commands the masked register-owned channels on and off. -/
  | switchChannels
  /-- OPEN_LOAD (R394). An ON channel below 50 mA for 100 ms sets OL and logs 0x0D07. Operands: the channel, the ms with a low current, the
  current in 10 mA, which I_MEAS shows for a channel in any state (R397). -/
  | openLoad (n ms i : Nat)
  /-- CAN_PORT_ENABLE (R404). A port with EN = 1 and D9 out of reset enters INIT. Operands: the port. -/
  | canPortEnable (p : Nat)
  /-- CAN_START (R402). INIT written 0 checks the bit timing and enters SYNC or stays in INIT with CFG_ERR. Operands: the session and the
  port. -/
  | canStart (sess p : Nat)
  /-- CAN_INIT (R404). INIT written 1 returns the port to INIT. Operands: the session and the port. -/
  | canInit (sess p : Nat)
  /-- CAN_SYNC (R404). 11 consecutive recessive bits move the port from SYNC to ACTIVE. Operands: the port and the consecutive recessive bits. -/
  | canSync (p n : Nat)
  /-- CAN_FRAME_RECEIVE (R407). A received frame is filtered and stored in its buffer or the hold slot. Operands: the port, words 0 and 1 of
  R406, the stamp of the SOF, the data bytes and the error counters after the frame; in word 1 also the res bit of an FD frame (bit 7, R401) and
  the error with which the reception ended as LEC codes it, 0 for none (bits 10:8). -/
  | canFrameReceive (p w0 w1 sof : Nat) (data : List Nat) (tec rec_ : Nat)
  /-- BUFFER_LOCK (R408). A read of word 0 of a receive buffer sets LOCK on it. Operands: the port and the buffer. -/
  | bufferLock (p b : Nat)
  /-- BUFFER_READ_COMPLETE (R408). A read of the buffer's last word clears LOCK and NEW and copies in any held frame. Operands: the port and
  the buffer. -/
  | bufferReadComplete (p b : Nat)
  /-- LOCK_TIMEOUT (R408). A lock held for 1 ms is released and TORN set. Operands: the port and the µs for which the lock has been held. -/
  | lockTimeout (p us : Nat)
  /-- UNLOCK (R408). A write of 1 to UNLOCK releases the lock without clearing NEW. Operands: the session and the port. -/
  | unlock (sess p : Nat)
  /-- TRANSMIT_REQUEST (R410). A write of 1 to TXREQ queues a transmit buffer for arbitration. Operands: the session, the port and the buffer. -/
  | transmitRequest (sess p b : Nat)
  /-- TRANSMIT_COMPLETE (R410). A frame sent without error sets TXOK and clears TXREQ. Operands: the port, the measured loop delay in
  protocol-clock periods, the stamp of the SOF and the error counters after the frame. -/
  | transmitComplete (p delay sof tec rec_ : Nat)
  /-- TRANSMIT_FAIL (R410). An error or lost arbitration retransmits, or with ONESHOT sets TXFAIL and logs 0x0E06. Operands: the port, the
  error as LEC codes it with 0 for lost arbitration, the measured loop delay, none where the error came before it was measured (R403), and the
  error counters after the frame. -/
  | transmitFail (p lec : Nat) (delay : Option Nat) (tec rec_ : Nat)
  /-- ABORT (R410). A write of 1 to ABORT removes a transmit request not yet on the bus. Operands: the session, the port, the buffer and
  whether its frame is on the bus. -/
  | abort (sess p b : Nat) (onBus : Bool)
  /-- BUS_OFF (R404). TEC above 255 moves the port to BUS_OFF and logs 0x0E02. Operands: the port, its transmit error counter and the error
  that has raised it. -/
  | busOff (p tec lec : Nat)
  /-- BUS_OFF_WAIT (R405). BO_WAIT elapsing with BO_AUTO starts recovery unless the limit holds the port. Operands: the port and the ms since
  the bus-off. -/
  | busOffWait (p ms : Nat)
  /-- RECOVER (R404). A write of 1 to RECOVER starts recovery from BUS_OFF. Operands: the session and the port. -/
  | recover (sess p : Nat)
  /-- BUS_OFF_RECOVERED (R404). 128 occurrences of 11 recessive bits return the port to ACTIVE and log 0x0E03. Operands: the port and the
  occurrences of 11 consecutive recessive bits. -/
  | busOffRecovered (p n : Nat)
  /-- ERROR_PASSIVE (R404). An error counter above 127 makes the port error passive and logs 0x0E01. Operands: the port and its error
  counters. -/
  | errorPassive (p tec rec_ : Nat)
  /-- ERROR_ACTIVE (R404). Both counters below 128 make the port error active again and log 0x0E08. Operands: the port and its error counters. -/
  | errorActive (p tec rec_ : Nat)
  /-- BO_RUN_CLEAR (R405). 10 s in ACTIVE without bus-off returns BO_RUN to 0. Operands: the port and the ms in ACTIVE without a bus-off. -/
  | boRunClear (p ms : Nat)
  /-- STAGE_WRITE (R421). A write to KV_STAGE_DATA claims the stage for the session and stores a word. Operands: the session and the word. -/
  | stageWrite (sess w : Nat)
  /-- STAGE_TIMEOUT (R421). 1 s without a stage write releases and zeroises the stage. Operands: the ms since the last stage write. -/
  | stageTimeout (ms : Nat)
  /-- LOAD_KEY (R421). Key Vault command 0x1 loads a clear or wrapped key into an empty slot. Operands: the session, the fields of KV_CMD, the
  wrapping slot of a wrapped key, whether it passes its check, and what the unwrap gives, which is computed from the stage and not read (log 45). -/
  | loadKey (sess slot type use : Nat) (lockw mseal : Bool) (wrap : Option Nat) (wrapOk : Bool) (plain : Option (List Nat))
  /-- LOAD_CERTIFICATE (R421). Key Vault command 0x2 loads a certificate into a slot or makes an anchor. Operands: the session, the slot, and
  whether the certificate parses, carries the slot's public key and has CA true. -/
  | loadCertificate (sess slot : Nat) (parses same ca : Bool)
  /-- GENERATE (R421). Key Vault command 0x3 generates a key inside the module in an empty slot. Operands: the session and the fields of
  KV_CMD. -/
  | generate (sess slot type use : Nat) (lockw mseal : Bool)
  /-- ERASE (R421). Key Vault command 0x4 zeroises a slot's key, certificate and attributes. Operands: the session and the slot. -/
  | erase (sess slot : Nat)
  /-- DERIVE (R424). Key Vault command 0x5 derives a child key into a working slot by the Firn rule. Operands: the session and whether the
  parent slot passes its check. -/
  | derive (sess : Nat) (parentOk : Bool)
  /-- RESERVOIR_LOW (R430). The destroy reservoir below 4.5 V clears RES_OK and logs 0x0F0A. Operands: the reservoir in mV. -/
  | reservoirLow (mv : Nat)
  /-- EVENT_RECORD (R441). The store manager writes a record with its sequence number to the operational or Moraine log. -/
  | eventRecord
  /-- LOG_CLEAR (R445). A write to CLR_TO removes operational records up to the value and logs 0x1002. Operands: the session and the value
  written. -/
  | logClear (sess v : Nat)
  /-- LOG_READ_LOAD (R448). A write to EVR_RD_SEQ loads the read window with the next held record. Operands: the session, the value written
  and whether the record passes its check. -/
  | logReadLoad (sess v : Nat) (ok : Bool)
  /-- LOG_READ_NEXT (R448). With AUTO = 1 a read of window word 7 loads the next held record. Operands: the session and whether the next
  record passes its check. -/
  | logReadNext (sess : Nat) (ok : Bool)
  /-- LOG_SEARCH (R449). A write of 1 to GO searches the log by angle stamp or UTC and sets FOUND. Operands: the session and the fields KEY
  and LOG written with GO. -/
  | logSearch (sess key log : Nat)
  /-- LOG_CRC_CHECK (R450). Every 24 h every held record's CRC is checked and failures logged as 0x1007. Operands: the sequence numbers of the
  operational and of the Moraine records that fail their check. -/
  | logCrcCheck (op mor : List Nat)
  /-- SITE_MARK (R451). Event Recorder operation 0x01 writes event 0x1008 with ACT_ID at the strobe. -/
  | siteMark
  /-- E_STOP (R457). An E-stop input low for 1 µs latches a Safe-Off request. Operands: the inputs that are low, bit 0 ESTOP1_N and bit 1
  ESTOP2_N, and the ns for which they have been. -/
  | eStop (m ns : Nat)
  /-- SO_REQ (R456). An ADMIN write of 1 to SO_REQ requests Safe-Off as source 10. Operands: the session. -/
  | soReq (sess : Nat)
  /-- CONTACTOR_OPEN (R459). A connector's current at or below I_OPEN for 10 ms lets the sequencer open DC+. Operands: the connector, the
  mean. -/
  | contactorOpen (c i ms : Nat) (valid : Bool)
  /-- SAFE_OFF_DC_MINUS_OPEN (R459). CT_GAP after DC+ opens, the sequencer clears the latch of DC−. Operands: the connector, the ms since DC+
  opened, and those since Safe-Off became active. -/
  | safeOffDcMinusOpen (c ms t : Nat)
  /-- CONNECTOR_HELD (R459). SO_DECAY without decay declares the connector held, sets HELD and logs 0x1204. Operands: the connector, the ms
  since Safe-Off became active, and the mean. -/
  | connectorHeld (c t i : Nat)
  /-- SAFE_OFF_CLEAR (R462). An ADMIN write of 1 to CLR ends Safe-Off or is refused with STATUS. Operands: the session. -/
  | safeOffClear (sess : Nat)
  /-- ESTOP_DISCREPANCY (R463). E-stop channels disagreeing for ES_DISC_T set the discrepancy lock and log 0x1207. Operands: the ms for which
  the inputs have disagreed. -/
  | estopDiscrepancy (ms : Nat)
  /-- WATCHDOG_KICK (R464). The application firmware writes KICK, restarting or expiring the watchdog period. Operands: the value written, the
  ms since the previous correct write or the start, and what a reset finds. -/
  | watchdogKick (v ms : Nat) (o : BootObs)
  /-- WATCHDOG_EXPIRY (R464). The watchdog expires on timeout, performs a WDOG reset and logs 0x1208. Operands: the ms since the previous
  correct write or the start, and what the restart finds. -/
  | watchdogExpiry (ms : Nat) (o : BootObs)
  /-- LOCKSTEP_ERROR (R464). A lockstep compare error or uncorrectable ECC error in D3 expires the watchdog at once. Operands: what the
  restart finds. -/
  | lockstepError (o : BootObs)
  /-- SUPPLY_FAIL_CONTACTOR_OPEN (R461). During a supply fail DC+ opens once |I| has been at or below I_OPEN for 1 ms. Operands: the
  connector, the mean. -/
  | supplyFailContactorOpen (c i ms : Nat) (valid : Bool)
  /-- SUPPLY_FAIL_DC_MINUS_OPEN (R461). 1 ms after DC+ opens in the supply-fail list, DC− is opened. Operands: the connector and the ms since
  DC+ opened. -/
  | supplyFailDcMinusOpen (c ms : Nat)
  /-- CONTACTOR_NOT_OPENED (R461). At t0 + 24.05 ms a connector whose DC+ is still closed is left closed and 0x120C logged. Operands: the
  connector and the µs since t0. -/
  | contactorNotOpened (c us : Nat)
  /-- FLASH_PROGRAM (R472). A write to UPD_FL_DATA programs a word of flash at ADDR or is refused. Operands: the session and the word. -/
  | flashProgram (sess w : Nat)
  /-- FLASH_ERASE (R472). A write of 1 to ERASE erases the 64 KiB sector holding ADDR or is refused. Operands: the session. -/
  | flashErase (sess : Nat)
  /-- FLASH_DONE (R472). A flash erase or program completes and STATUS is set. Operands: whether the operation ends without a flash error. -/
  | flashDone (ok : Bool)
  /-- FIRMWARE_SWITCH (R475). A write of GO switches a unit to its passive bank by a DOMAIN reset, or is refused. Operands: the session, UNIT
  as written with GO, and whether the digest and signature of the passive bank verify. -/
  | firmwareSwitch (sess u : Nat) (verified : Bool)
  /-- METROLOGY_FIRMWARE_SWITCH (R476). Unit 1 switches banks 500 ms after a tick without resetting D2 and logs 0x1109. Operands: the ms since
  the BT tick, the ms since the switch was accepted, and whether the unit is ready within 100 ms on the new bank. -/
  | metrologyFirmwareSwitch (ms waited : Nat) (ready : Bool)
  /-- FIRMWARE_REVERT (R477). A unit not ready in time after a switch returns to its previous bank and logs 0x1105. Operands: the unit, the ms
  since its restart, and what the second restart finds. -/
  | firmwareRevert (u ms : Nat) (o : BootObs)
  /-- SECTION_RELOAD (R482). A write of GO in UPD_SECT_CMD verifies one image section for live reload. Operands: the session, SECT, BANK and
  AT_STAMP as written with GO, and whether the section's signature verifies with the anchor's key. -/
  | sectionReload (sess sect bank : Nat) (atStamp verified : Bool)
  /-- SECTION_APPLY (R482). At the next or stamped angle 0 the section's entries are applied, MIXED set and 0x1101 logged. Operands: at an
  angle 0. -/
  | sectionApply
  /-- PACKAGE_SUBMIT (R485). A write of GO in UPD_PKG_CMD checks a signed package and accepts it as pending or refuses it. Operands: the
  session, the key type of the authority as in R298, whether the package's signature verifies, and whether the passive bank of unit 1
  does. -/
  | packageSubmit (sess alg : Nat) (verified fwVerified : Bool)
  /-- PACKAGE_APPLY (R486). At its BT tick D2 applies a pending package's entries, increments UCNT and logs 0x1107. Operands: at a BT tick. -/
  | packageApply
  /-- RECALIBRATION (R488). A write to REQ in UPD_RECAL starts self-calibration of the selected items whose conditions hold. Operands: the
  session and REQ. -/
  | recalibration (sess req : Nat)
  /-- RECALIBRATION_DONE (R488). Recalibration ends, SYS_CAL_STAT is updated and 0x110A logged. Operands: the items that fail, in the bit
  order of SYS_CAL_STAT. -/
  | recalibrationDone (fails : Nat)
  /-- GATEWAY_RELAY (R497). A gateway relays a datagram naming another node over the fabric or answers with an error reply. Operands: no tag:
  a client's address and port, the node that its datagram names and the bytes after the envelope; a tag: an answer of the node that
  arrives at endpoint 0x001. -/
  | gatewayRelay (ip port node : Nat) (tag : Option Nat) (bytes : List Nat)
  /-- RELAY_ENTRY_EXPIRY (R497). A relay entry without traffic for 120 s is dropped. Operands: the entry's tag and the seconds without
  traffic. -/
  | relayEntryExpiry (tag secs : Nat)
  /-- HANDSHAKE (R499). A DTLS handshake is run and a session opened at the level its certificate earns, or refused. Operands: the entry of
  the session table that the module gives it, the gateway's node (none on ETH0), whether the handshake completes now with the slots whose check
  fails at this use (R419), and whether the key of each anchor field verifies the client's chain. -/
  | handshake (i : Nat) (gateway : Option Nat) (complete : ShakeObs) (adm opr obs : Bool)
  /-- HANDSHAKE_TIMEOUT (R499). A handshake not complete 10 s after its first ClientHello is abandoned. Operands: the entry and the seconds
  since the first ClientHello. -/
  | handshakeTimeout (i secs : Nat)
  /-- SESSION_IDLE_CLOSE (R502). IDLE_T seconds without a valid record close the session and log 0x0021. Operands: the session and the seconds
  without a valid record from its client. -/
  | sessionIdleClose (i secs : Nat)
  /-- READ (R505). Coansyn READ returns the values and statuses of the addresses named. Operands: the session, the request ID and the
  addresses. -/
  | read (sess id : Nat) (addrs : List Nat)
  /-- WRITE (R505). Coansyn WRITE writes masked values to the addresses named and returns a status per entry. Operands: the session, the
  request ID and the entries: address, value, mask. -/
  | write (sess id : Nat) (entries : List (Nat × Nat × Nat))
  /-- BLOCK_READ (R505). Coansyn BLOCK_READ returns consecutive or fixed-address words. Operands: the session, the request ID, the
  fixed-address flag, the address and the count. -/
  | blockRead (sess id : Nat) (fixed : Bool) (a n : Nat)
  /-- BLOCK_WRITE (R505). Coansyn BLOCK_WRITE writes consecutive or fixed-address words, stopping at the first failure. Operands: the session,
  the request ID, the fixed-address flag, the address and the words. -/
  | blockWrite (sess id : Nat) (fixed : Bool) (a : Nat) (words : List Nat)
  /-- SUBSCRIBE (R509). Coansyn SUBSCRIBE sets up a periodic read of words at half-cycle boundaries. Operands: the session, the request ID,
  the fixed-address flag, subscription, mode, period, address and count. -/
  | subscribe (sess id : Nat) (fixed : Bool) (sub mode period a n : Nat)
  /-- UNSUBSCRIBE (R509). Coansyn UNSUBSCRIBE removes one or all subscriptions. Operands: the session, the request ID, and the subscription or
  0xFF. -/
  | unsubscribe (sess id sub : Nat)
  /-- NOTIFY (R509). At a subscription's boundary its words are read and sent as NOTIFY when the mode requires. Operands: the session, the
  subscription, and the half-cycles since its last boundary. -/
  | notify (sess sub hc : Nat)
  /-- EVENTS (R510). Coansyn EVENTS selects the logs and least severity whose records are sent to the session. Operands: the session, the
  request ID, the log mask and the least severity. -/
  | events (sess id mask sev : Nat)
  /-- RECORDS (R510). Selected log records are gathered and sent as RECORDS within 100 ms, up to 64 per second. Operands: the session. -/
  | records (sess : Nat)
  /-- LOCATE (R511). Coansyn LOCATE is answered by the root with the node ID of a serial number. Operands: the session, the request ID and the
  serial number. -/
  | locate (sess id serial : Nat)
  /-- LAUNCH (R512). Coansyn LAUNCH makes the module send a launched action from endpoint 0x001. Operands: the session, the request ID, the
  destination in the 23-bit form of R5, the 40-byte payload of R194, and the urgent frames injected in the last 100 us. -/
  | launch (sess id dst : Nat) (pay : List Nat) (recent : Nat)
  /-- LRESULT (R512). A launched-action response for a kept ACT_ID is forwarded to its session as LRESULT. Operands: the source node and the
  16 bytes of a response of R197. -/
  | lresult (src : Nat) (resp : List Nat)
  /-- RESET (R513). Coansyn RESET makes the module send an authenticated fabric reset command to a node. Operands: the session, the request
  ID, the serial number, and the urgent frames injected in the last 100 us. -/
  | reset (sess id serial recent : Nat)
  /-- TIME (R517). Coansyn TIME sets the RTC to the value given, or is refused while a source is locked. Operands: the session, the request
  ID, the UTC seconds and their fraction in 2^-32 s, and the RTC's own fraction at the arrival. -/
  | time (sess id utc frac phase : Nat)
  /-- PING (R505). Coansyn PING is answered with an empty response. Operands: the session and the request ID. -/
  | ping (sess id : Nat)
  /-- CLOSE (R502). Coansyn CLOSE closes the session and sends close_notify. Operands: the session, the request ID, and whether a DTLS alert
  of the client stands in place of the message. -/
  | close (sess id : Nat) (alert : Bool)
  /-- PTP_SYNC (R515). An IEEE 1588 Sync updates the offset, locks the source and synchronises the RTC each second. Operands: the offset in
  ns, the UTC seconds of the master in use, and whether its Announce has currentUtcOffsetValid set. -/
  | ptpSync (ofs : Int) (utc : Nat) (utcValid : Bool)
  /-- PTP_LOST (R514). Missing Announce messages or a large offset declare IEEE 1588 lost and log 0x0024. Operands: the announce intervals
  without Announce. -/
  | ptpLost (intervals : Nat)
  /-- NTP_POLL (R515). Every 2^NTP_POLL s the NTP server is polled. Operands: the seconds since the last poll. -/
  | ntpPoll (secs : Nat)
  /-- NTP_RESPONSE (R516). An accepted NTP response synchronises the RTC by step or slew. Operands: the stratum, the leap alarm, the root
  distance in ms, the offset in ns and the UTC seconds. -/
  | ntpResponse (stratum : Nat) (alarm : Bool) (rootMs : Nat) (ofs : Int) (utc : Nat)
  /-- NTP_LOST (R514). Four polls without an accepted response declare NTP lost and log 0x0024. -/
  | ntpLost
  /-- TMX_SELECT (R523). A write of a selection code to TMX_SEL_A or TMX_SEL_D drives the output or is refused. Operands: the session, the
  output (0 and 1 analog, 2 to 5 digital) and the code. -/
  | tmxSelect (sess out code : Nat)
  /-- RST_N_RELEASE (R37). RST_N returning high after a PIN reset ends the hold in reset and starts step 1 of the start-up sequence. Operands:
  what the start finds. -/
  | rstNRelease (o : BootObs)
  /-- ESTOP_RELEASE (R463). An E-stop input returning high updates ES1 or ES2 and, once both have been low together and then high together,
  ends the discrepancy lock. Operands: the inputs that return high. -/
  | estopRelease (m : Nat)
  /-- EPOCH_INSTALL (R189). When EPOCH_MIN has passed since the last epoch, the root installs the combined pending changes by sending tables
  and an epoch-change frame. Operands: the ms since the last epoch. -/
  | epochInstall (ms : Nat)
  /-- SCHEDULE_RENEGOTIATION (R314). A PowerDelivery request with ChargeProgress ScheduleRenegotiation from the vehicle is taken and answered.
  Operands: the connector. -/
  | scheduleRenegotiation (c : Nat)
  /-- VBAT_RESTORED (R53). VBAT rising back to 2.6 V or above, for example after a cell replacement, clears VBAT_LOW. Operands: VBAT in mV. -/
  | vbatRestored (mv : Nat)
  /-- RESERVOIR_RECHARGED (R430). The destroy reservoir recharged to 4.5 V or above sets RES_OK again. Operands: the reservoir in mV. -/
  | reservoirRecharged (mv : Nat)
deriving DecidableEq, Repr

end Sys2Proof
end

