-- ==== Sys2Proof/Machine/Sha.lean ====
section
/-! DEFINITION. SHA-256 (FIPS 180-4), which R206, R277, R288, R331, R424, R480 and R485 name by that name; and a digest's low bits, read as a
big-endian number (DEDUCED, log 8). -/

namespace Sys2Proof.Machine

/-- The largest `r` below `2 ^ b` above `r0`, which has its bits from `b` upwards, with `r ^ e` at most `n`: bit by bit from the top. -/
def rootFrom (e n : Nat) : Nat → Nat → Nat
  | 0, r0 => r0
  | b + 1, r0 => rootFrom e n b (if (r0 + 2 ^ b) ^ e ≤ n then r0 + 2 ^ b else r0)

/-- The first 32 bits of the fractional part of the `e`-th root of a number below `32 ^ e`. -/
def rootFrac (e n : Nat) : Word := BitVec.ofNat 32 (rootFrom e (n * 2 ^ (32 * e)) 37 0)

/-- The primes below 18 ^ 2, which are more than 64. -/
def shaPrimes : List Nat := (List.range 324).filter fun n => 2 ≤ n && (List.range 18).all fun d => d < 2 || d = n || n % d ≠ 0

/-- The 64 constants K of SHA-256, as FIPS 180-4 defines them: from the cube roots of the first 64 primes. -/
def shaK : List Word := (shaPrimes.take 64).map (rootFrac 3)

/-- The hash value of SHA-256: eight words. -/
structure Sha where
  a : Word
  b : Word
  c : Word
  d : Word
  e : Word
  f : Word
  g : Word
  h : Word
deriving DecidableEq, Repr

/-- Eight words as a hash value. -/
def Sha.ofWords (w : Nat → Word) : Sha := ⟨w 0, w 1, w 2, w 3, w 4, w 5, w 6, w 7⟩

/-- The initial hash value, as FIPS 180-4 defines it: from the square roots of the first eight primes. -/
def Sha.init : Sha := Sha.ofWords fun i => rootFrac 2 (shaPrimes.getD i 0)

/-- The exclusive or of three rotations of a word, as the capital sigmas have them. -/
def shaRot (i j k : Nat) (x : Word) : Word := x.rotateRight i ^^^ x.rotateRight j ^^^ x.rotateRight k

/-- The exclusive or of two rotations and a shift of a word, as the small sigmas have them. -/
def shaShift (i j k : Nat) (x : Word) : Word := x.rotateRight i ^^^ x.rotateRight j ^^^ (x >>> k)

/-- One round with the constant `k` and the word `w` of the message schedule. -/
def Sha.round (v : Sha) (k w : Word) : Sha :=
  let t := v.h + shaRot 6 11 25 v.e + ((v.e &&& v.f) ^^^ (~~~v.e &&& v.g)) + k + w
  ⟨t + (shaRot 2 13 22 v.a + ((v.a &&& v.b) ^^^ (v.a &&& v.c) ^^^ (v.b &&& v.c))), v.a, v.b, v.c, v.d + t, v.e, v.f, v.g⟩

/-- The rounds with constants `ks`: the message schedule stands in a window of 16 words, whose first is the round's. -/
def Sha.rounds : List Word → List Word → Sha → Sha
  | [], _, v => v
  | k :: ks, win, v =>
    let w := fun (i : Nat) => win.getD i 0
    Sha.rounds ks (win.tail ++ [shaShift 17 19 10 (w 14) + w 9 + shaShift 7 18 3 (w 1) + w 0]) (v.round k (w 0))

/-- Big-endian words of bytes. -/
def beWords : Nat → List Nat → List Word
  | 0, _ => []
  | n + 1, l => BitVec.ofNat 32 (ofLeBytes (l.take 4).reverse) :: beWords n (l.drop 4)

/-- One block of 64 bytes. -/
def Sha.block (v : Sha) (l : List Nat) : Sha :=
  let r := Sha.rounds shaK (beWords 16 l) v
  ⟨v.a + r.a, v.b + r.b, v.c + r.c, v.d + r.d, v.e + r.e, v.f + r.f, v.g + r.g, v.h + r.h⟩

/-- The first `n` blocks of bytes. -/
def Sha.blocks : Nat → List Nat → Sha → Sha
  | 0, _, v => v
  | n + 1, l, v => Sha.blocks n (l.drop 64) (v.block l)

/-- The padding of a message of `n` bytes: 0x80, zeros and the length in bits as eight big-endian bytes. -/
def shaPad (n : Nat) : List Nat := 0x80 :: List.replicate ((119 - n % 64) % 64) 0 ++ (leBytes 8 (8 * n)).reverse

/-- SHA-256 of bytes. -/
@[irreducible] def sha256 (l : List Nat) : BitVec 256 :=
  let v := Sha.blocks ((l.length + 72) / 64) (l ++ shaPad l.length) Sha.init
  v.a ++ v.b ++ v.c ++ v.d ++ v.e ++ v.f ++ v.g ++ v.h

/-- A value's bytes, most significant first: a digest as a string of bytes. -/
def beBytes (n v : Nat) : List Nat := (leBytes n v).reverse

/-- The low `w` bits of the SHA-256 of bytes, the digest read as a big-endian number (DEDUCED, log 8). -/
def shaLow (w : Nat) (l : List Nat) : Nat := (sha256 l).toNat % 2 ^ w

/-- The low `w` bits of the SHA-256 of register words, each as its four bytes in address order (R6; DEDUCED, log 8). -/
def shaLowWords (w : Nat) (l : List Nat) : Nat := shaLow w (l.flatMap fun x => leBytes 4 x)

end Sys2Proof.Machine
end

