-- ==== Sys2Proof/Machine/Aes.lean ====
section
/-! DEFINITION. The tag of AES-128-GCM with an empty plaintext, as a reset command carries it (spec/08_fabric.md, R200), and AES-256-GCM, under which
keys are imported (spec/18_keys_identity.md, R421). The spec names the algorithms; their definition is that of FIPS 197 and SP 800-38D (PRESUMED, log 126). A block is a list of 16 bytes. -/

namespace Sys2Proof.Machine

/-- A byte times x in the field of AES. -/
def aesTwice (a : Nat) : Nat := if a < 128 then 2 * a else Nat.xor (2 * a - 256) 0x1B

/-- A product in the field of AES, over the `n` low bits of the first factor. -/
def aesMul : Nat → Nat → Nat → Nat
  | 0, _, _ => 0
  | n + 1, a, b => Nat.xor (if a % 2 = 1 then b else 0) (aesMul n (a / 2) (aesTwice b))

/-- The inverse of a byte in the field of AES, 0 for 0: its power 254. -/
def aesInv (a : Nat) : Nat :=
  let sq := fun (x : Nat) => aesMul 8 x x
  (List.range 6).foldl (fun (p : Nat × Nat) _ => (aesMul 8 p.1 p.2, sq p.2)) (sq a, sq (sq a)) |>.1

/-- The substitution of a byte: the inverse, then the affine map. -/
def aesSub (a : Nat) : Nat :=
  let b := aesInv a
  let rot := fun (k : Nat) => b * 2 ^ k % 256 + b * 2 ^ k / 256
  Nat.xor 0x63 ((List.range 4).foldl (fun x k => Nat.xor x (rot (k + 1))) b)

/-- The bytes of two lists added in the field. -/
def xorBytes (a b : List Nat) : List Nat := (a.zip b).map fun p => Nat.xor p.1 p.2

/-- The last word of a round key, rotated, substituted and added to the round constant. -/
def aesRotSub (k : List Nat) (rc : Nat) : List Nat :=
  match k.drop 12 with
  | [a, b, c, d] => [Nat.xor (aesSub b) rc, aesSub c, aesSub d, aesSub a]
  | l => l

/-- A round key from an earlier one and the word that is added to its first. -/
def aesKeyMix (k t : List Nat) : List Nat :=
  let w := fun (i : Nat) => (k.drop (4 * i)).take 4
  let w0 := xorBytes (w 0) t
  let w1 := xorBytes (w 1) w0
  let w2 := xorBytes (w 2) w1
  w0 ++ w1 ++ w2 ++ xorBytes (w 3) w2

/-- The next round key of AES-128 from the one before and the round constant. -/
def aesKeyStep (k : List Nat) (rc : Nat) : List Nat := aesKeyMix k (aesRotSub k rc)

/-- The round keys of AES-256, two at a time, from the last two. -/
def aesKeys256 : Nat → Nat → List Nat → List Nat → List (List Nat)
  | 0, _, _, _ => []
  | n + 1, rc, a, b =>
    let c := aesKeyMix a (aesRotSub b rc)
    a :: b :: aesKeys256 n (aesTwice rc) c (aesKeyMix b ((c.drop 12).map aesSub))

/-- Rows shifted: byte i of a column-wise block comes from column (c + r) mod 4. -/
def aesShift (b : List Nat) : List Nat := (List.range 16).map fun i => b.getD ((i + 4 * (i % 4)) % 16) 0

/-- One column mixed. -/
def aesColumn : List Nat → List Nat
  | a :: b :: c :: d :: t =>
    let m := fun (p q r s : Nat) => Nat.xor (Nat.xor (aesTwice p) (Nat.xor (aesTwice q) q)) (Nat.xor r s)
    m a b c d :: m b c d a :: m c d a b :: m d a b c :: aesColumn t
  | _ => []

/-- The rounds of AES-128 that are left, `n` counted down; the last one mixes no columns. -/
def aesRounds : Nat → List Nat → Nat → List Nat → List Nat
  | 0, _, _, b => b
  | n + 1, k, rc, b =>
    let k1 := aesKeyStep k rc
    let x := aesShift (b.map aesSub)
    aesRounds n k1 (aesTwice rc) (xorBytes (if n = 0 then x else aesColumn x) k1)

/-- AES-128 of one block under a key. -/
def aesBlock (key b : List Nat) : List Nat := aesRounds 10 key 1 (xorBytes b key)

/-- The rounds with the keys that are left. -/
def aesWith : List (List Nat) → List Nat → List Nat
  | [], b => b
  | [k], b => xorBytes (aesShift (b.map aesSub)) k
  | k :: t, b => aesWith t (xorBytes (aesColumn (aesShift (b.map aesSub))) k)

/-- AES-256 of one block under a key of 32 bytes. -/
def aesBlock256 (key b : List Nat) : List Nat := aesWith ((aesKeys256 8 1 (key.take 16) (key.drop 16)).tail.take 14) (xorBytes b (key.take 16))

/-- A product in the field of GHASH, over the `n` leading bits of the first factor; bit 127 of a number is the first bit of its block. -/
def ghashMul : Nat → Nat → Nat → Nat
  | 0, _, _ => 0
  | n + 1, a, b =>
    Nat.xor (if a / 2 ^ 127 % 2 = 1 then b else 0)
      (ghashMul n (a * 2 % 2 ^ 128) (if b % 2 = 1 then Nat.xor (b / 2) (0xE1 * 2 ^ 120) else b / 2))

/-- A block as a number, its first byte the highest. -/
def blockNat (b : List Nat) : Nat := b.foldl (fun n x => 256 * n + x) 0

/-- GHASH over blocks. -/
def ghash (h : Nat) (l : List (List Nat)) : Nat := l.foldl (fun y b => ghashMul 128 (Nat.xor y (blockNat b)) h) 0

/-- The blocks of a list, the last padded with zeros. -/
def blocksOf (l : List Nat) : List (List Nat) :=
  (List.range ((l.length + 15) / 16)).map fun i => (List.range 16).map fun j => l.getD (16 * i + j) 0

/-- The 128-bit tag for a key, a 96-bit IV and additional data, with an empty plaintext. -/
def gcmTag (key iv aad : List Nat) : List Nat :=
  let h := blockNat (aesBlock key (List.replicate 16 0))
  let y := ghash h (blocksOf aad ++ [beBytes 8 (8 * aad.length) ++ List.replicate 8 0])
  xorBytes (beBytes 16 y) (aesBlock key (iv ++ [0, 0, 0, 1]))

/-- The key stream of AES-256-GCM over bytes, from the block counter 2. -/
def gcmStream (key iv l : List Nat) : List Nat :=
  xorBytes l ((List.range ((l.length + 15) / 16)).flatMap fun i => aesBlock256 key (iv ++ beBytes 4 (i + 2)))

/-- AES-256-GCM opened: the plaintext of a ciphertext, none where the 128-bit tag does not match. -/
@[irreducible] def gcmOpen (key iv aad ct tag : List Nat) : Option (List Nat) :=
  let h := blockNat (aesBlock256 key (List.replicate 16 0))
  let y := ghash h (blocksOf aad ++ blocksOf ct ++ [beBytes 8 (8 * aad.length) ++ beBytes 8 (8 * ct.length)])
  if xorBytes (beBytes 16 y) (aesBlock256 key (iv ++ [0, 0, 0, 1])) = tag then some (gcmStream key iv ct) else none

end Sys2Proof.Machine
end

