-- ==== Sys2Proof/Machine/Float.lean ====
section
/-! DEFINITION. IEEE 754 binary32, which the Loop Engine computes in (R140) and the Phase Engine takes its demand in (R107):
each operation is computed exactly and rounded once, to nearest, ties to even, subnormals kept; and binary64, in which the cable loss is
computed (R260). -/

namespace Sys2Proof.Machine

/-- A binary32 word taken apart: not a number, infinite, negative, and the value `m * 2 ^ e` of a finite one. -/
structure Flt where
  nan : Bool
  inf : Bool
  neg : Bool
  m : Nat
  e : Int
deriving DecidableEq, Repr

/-- Takes a binary32 word apart. -/
def Flt.ofBits (w : Word) : Flt :=
  let b := w.toNat
  let ex : Nat := b / 2 ^ 23 % 256
  let fr : Nat := b % 2 ^ 23
  let neg := b / 2 ^ 31 == 1
  if ex = 255 then ⟨fr != 0, fr == 0, neg, 0, 0⟩
  else if ex = 0 then ⟨false, false, neg, fr, -149⟩
  else ⟨false, false, neg, fr + 2 ^ 23, (ex : Int) - 150⟩

/-- The quiet NaN the manual names as a NaN word (the reset value of `LE_CAP_DATA`). -/
def fNaN : Word := 0x7FC00000#32

/-- The signed infinity. -/
def fInf (neg : Bool) : Word := if neg then 0xFF800000#32 else 0x7F800000#32

/-- Division of naturals, rounded to nearest, ties to even. -/
def divEven (n d : Nat) : Nat :=
  let q := n / d
  let r := n % d
  if 2 * r < d then q else if d < 2 * r then q + 1 else if q % 2 = 0 then q else q + 1

/-- The binary32 word nearest to `m * 2 ^ e`, with a sign. -/
def fRound (neg : Bool) (m : Nat) (e : Int) : Word :=
  let sg : Nat := if neg then 2 ^ 31 else 0
  if m = 0 then BitVec.ofNat 32 sg
  else
    let q : Int := max ((Nat.log2 m : Int) + e - 23) (-149)
    let m1 := if q ≤ e then m * 2 ^ (e - q).toNat else divEven m (2 ^ (q - e).toNat)
    let bits := (q + 149).toNat * 2 ^ 23 + m1
    if 0x7F800000 ≤ bits then fInf neg else BitVec.ofNat 32 (sg + bits)

/-- The signed integer `i * 2 ^ e` as the nearest binary32 word; an exact zero is positive. -/
def fRoundI (i : Int) (e : Int) : Word := fRound (decide (i < 0)) i.natAbs e

/-- The signed value of a finite word over a common exponent `e` not above its own. -/
def Flt.over (x : Flt) (e : Int) : Int :=
  let v : Int := (x.m * 2 ^ (x.e - e).toNat : Nat)
  if x.neg then -v else v

/-- A word is neither infinite nor a NaN. -/
def fFinite (a : Word) : Bool := let x := Flt.ofBits a; !x.nan && !x.inf

/-- Changes the sign. -/
def fNeg (a : Word) : Word := a ^^^ 0x80000000#32

/-- The magnitude. -/
def fAbs (a : Word) : Word := a &&& 0x7FFFFFFF#32

/-- Addition. -/
def fAdd (a b : Word) : Word :=
  let x := Flt.ofBits a
  let y := Flt.ofBits b
  if x.nan || y.nan then fNaN
  else if x.inf then (if y.inf && x.neg != y.neg then fNaN else a)
  else if y.inf then b
  else
    let e := min x.e y.e
    let v := x.over e + y.over e
    if v = 0 then (if x.neg && y.neg then 0x80000000#32 else 0#32) else fRoundI v e

/-- Subtraction. -/
def fSub (a b : Word) : Word := fAdd a (fNeg b)

/-- Multiplication. -/
def fMul (a b : Word) : Word :=
  let x := Flt.ofBits a
  let y := Flt.ofBits b
  let sg := x.neg != y.neg
  if x.nan || y.nan then fNaN
  else if x.inf || y.inf then
    (if (!x.inf && x.m == 0) || (!y.inf && y.m == 0) then fNaN else fInf sg)
  else fRound sg (x.m * y.m) (x.e + y.e)

/-- Division. -/
def fDiv (a b : Word) : Word :=
  let x := Flt.ofBits a
  let y := Flt.ofBits b
  let sg := x.neg != y.neg
  if x.nan || y.nan then fNaN
  else if x.inf then (if y.inf then fNaN else fInf sg)
  else if y.inf then fRound sg 0 0
  else if y.m = 0 then (if x.m = 0 then fNaN else fInf sg)
  else
    let n := x.m * 2 ^ 60
    let q := n / y.m
    fRound sg (2 * q + (if n % y.m = 0 then 0 else 1)) (x.e - y.e - 61)

/-- Less than, false where either is a NaN. -/
def fLt (a b : Word) : Bool :=
  let x := Flt.ofBits a
  let y := Flt.ofBits b
  if x.nan || y.nan then false
  else if x.inf then x.neg && !(y.inf && y.neg)
  else if y.inf then !y.neg
  else let e := min x.e y.e; decide (x.over e < y.over e)

/-- Equal as numbers, false where either is a NaN. -/
def fEq (a b : Word) : Bool := !(Flt.ofBits a).nan && !(Flt.ofBits b).nan && !fLt a b && !fLt b a

/-- At most. -/
def fLe (a b : Word) : Bool := fLt a b || fEq a b

/-- A value held between two limits. -/
def fClamp (lo hi v : Word) : Word := if fLt v lo then lo else if fLt hi v then hi else v

/-- The smaller of two. -/
def fMin (a b : Word) : Word := if fLt b a then b else a

/-- The integer nearest to the word's value times `k`, towards zero; none where it is not finite. -/
def fToInt (a : Word) (k : Nat) : Option Int :=
  let x := Flt.ofBits a
  if x.nan || x.inf then none
  else
    let n := x.m * k
    let v : Nat := if 0 ≤ x.e then n * 2 ^ x.e.toNat else n / 2 ^ (-x.e).toNat
    some (if x.neg then -(v : Int) else (v : Int))

/-- The integer `i` divided by `d`, as the nearest binary32 word. -/
def fOfRatio (i : Int) (d : Nat) : Word :=
  if d = 0 then fNaN
  else
    let n := i.natAbs * 2 ^ 80
    let q := n / d
    fRound (decide (i < 0)) (2 * q + (if n % d = 0 then 0 else 1)) (-81)

/-- The natural number as the nearest binary32 word. -/
def fOfNat (n : Nat) : Word := fRound false n 0

/-- The integer square root of a number below 2 ^ 128, bit by bit. -/
def isqrt (n : Nat) : Nat :=
  (List.range 64).foldl (fun r i => let t := r + 2 ^ (63 - i); if t * t ≤ n then t else r) 0

/-- The square root; of a negative number, a NaN. -/
def fSqrt (a : Word) : Word :=
  let x := Flt.ofBits a
  if x.nan then fNaN
  else if x.m = 0 ∧ !x.inf then a
  else if x.neg then fNaN
  else if x.inf then a
  else
    let odd := x.e % 2 != 0
    let n := (if odd then 2 * x.m else x.m) * 2 ^ 80
    let e := (if odd then x.e - 1 else x.e) - 80
    let q := isqrt n
    fRound false (2 * q + (if q * q = n then 0 else 1)) (e / 2 - 1)

/-- Not negative. -/
def fNonneg (a : Word) : Bool := fLe 0#32 a

/-- Greater than 0. -/
def fPos (a : Word) : Bool := fLt 0#32 a

/-- 2π as a binary32 word. -/
def fTwoPi : Word := 0x40C90FDB#32

/-- 2π in units of 2^-320. -/
def twoPi320 : Nat := 13420802360424337830311681948440006481608388178854297901454212848703426437343610760199000777828079

/-- The sine of `x`, in units of 2^-256, by its series, for |x| at most 2π: `k` terms from the one given, of degree `d`. -/
def sinSeries : Nat → Nat → Int → Int → Int
  | 0, _, _, _ => 0
  | k + 1, d, x, term => term + sinSeries k (d + 2) x (-(term * x / 2 ^ 256 * x / 2 ^ 256 / (((d + 1) * (d + 2) : Nat) : Int)))

/-- The sine of an angle in radians, rounded to the nearest word. -/
def fSin (a : Word) : Word :=
  let x := Flt.ofBits a
  if x.nan || x.inf then fNaN
  else if x.m = 0 then a
  else if x.e + 24 ≤ -20 then a
  else
    let n := if 0 ≤ x.e then x.m * 2 ^ x.e.toNat * 2 ^ 320 else x.m * 2 ^ 320 / 2 ^ (-x.e).toNat
    let r : Int := ((n % twoPi320 / 2 ^ 64 : Nat) : Int)
    let v := sinSeries 64 1 r r
    fRoundI (if x.neg then -v else v) (-256)

/-! ### binary64 (R260) -/

/-- A binary64 number of ordinary size: `m` × 2^`e`, with at most 53 bits in `m`. -/
structure Dbl where
  m : Int
  e : Int
deriving DecidableEq, Repr

/-- The binary64 number nearest to `n` × 2^`e`, ties to even. -/
def Dbl.round (n e : Int) : Dbl :=
  let k := Nat.log2 n.natAbs + 1
  if k ≤ 53 then ⟨n, e⟩
  else
    let m : Int := (divEven n.natAbs (2 ^ (k - 53)) : Nat)
    ⟨if n < 0 then -m else m, e + (k - 53 : Nat)⟩

/-- Multiplication. -/
def Dbl.mul (a b : Dbl) : Dbl := Dbl.round (a.m * b.m) (a.e + b.e)

/-- Addition. -/
def Dbl.add (a b : Dbl) : Dbl :=
  let e := min a.e b.e
  Dbl.round (a.m * 2 ^ (a.e - e).toNat + b.m * 2 ^ (b.e - e).toNat) e

/-- An integer divided by a positive one: the last bit of a quotient of 64 bits more stands for its remainder. -/
def Dbl.ratio (n : Int) (d : Nat) : Dbl :=
  let q := n.natAbs * 2 ^ 128 / d
  let m : Int := (2 * q + (if n.natAbs * 2 ^ 128 % d = 0 then 0 else 1) : Nat)
  Dbl.round (if n < 0 then -m else m) (-129)

/-- The integer nearest, halves upwards. -/
def Dbl.nearest (a : Dbl) : Int :=
  if 0 ≤ a.e then a.m * 2 ^ a.e.toNat else (2 * a.m + 2 ^ (-a.e).toNat) / (2 * 2 ^ (-a.e).toNat)

/-- The word 1.0. -/
def fOne : Word := 0x3F800000#32

end Sys2Proof.Machine
end

