-- ==== Sys2Proof/Config.lean ====
section
/-! DEFINITION. What an implementation fixes and the values the manual leaves open. A free value has no body: no proof can
see what it is, and a statement holds whatever it is. -/

namespace Sys2Proof.Config

/-- The n-th free value the model takes: a value the manual does not state, after which the module goes on (log 6). -/
opaque freeValue : Nat → BitVec 64

/-- The floor share in kW of the group that feeds a connector, as the image states it (R17): the manual gives it no section and no field
(log 93). -/
opaque floorShare : Nat → Nat

/-- The water-filling weight of the holder with a serial number (R212), read as 1 to 255: `WEIGHT` stands in each module's own registers and
no report or roster entry carries it to the root (log 39). -/
opaque holderWeight : Nat → BitVec 8

/-- Byte `i` of the 256-bit root that the PUF gives (R414; log 142). -/
opaque pufRoot : Nat → BitVec 8

/-- The label of the slot-wrap key, reserved to Edrepex (R416; log 142). -/
opaque wrapLabel : List (BitVec 8)

/-- The usage bits in the derivation of the slot-wrap key (R416, R424; log 142). -/
opaque wrapUse : BitVec 8

/-- Byte `i` of the key material behind the private key that Edrepex wrote to a slot (R418; log 20). -/
opaque unitKey : Nat → Nat → BitVec 8

/-- The serial number of a slot's delivered certificate, as the content of a DER integer (R427, R428; log 20). -/
opaque certSerial : Nat → List Nat

/-- The name of the Edrepex unit certification authority and the identifier of its signature algorithm, in DER (R427; log 20). -/
opaque authorityName : List Nat

/-- As above: the signature algorithm. -/
opaque authorityAlg : List Nat

/-- The UTC seconds from which a slot's delivered certificate is valid: for KS00 the manufacture (R427; log 20). -/
opaque certFrom : Nat → BitVec 32

/-- The UTC seconds to which a certificate of KS01 to KS04 is valid, which the rules do not state (log 20). -/
opaque certTo : Nat → BitVec 32

/-- The Edrepex authority's signature of the delivered certificate of KS00 (R427; log 20). -/
opaque certSignature : List Nat

end Sys2Proof.Config
end

