-- ==== Sys2Proof/Machine/Field.lean ====
section
/-! DEFINITION. What a row of a register table of spec/ says of a field (R10, R12, R13), and which word of the map a
replicated register is (R9). -/

namespace Sys2Proof.Machine

/-- The access codes of R10. -/
inductive Acc where
  | rw | ro | w1c | wo | rwa | rws
deriving DecidableEq, Repr

/-- The retention classes of R12. -/
inductive Cls where
  | A | N | F | C | V
deriving DecidableEq, Repr

/-- A field of a register: the address of its first instance, its lowest bit, its width, its access code, its retention
class, its reset value, and the two strides and counts of a replicated register (R9). -/
structure Field where
  addr : Nat
  lo : Nat
  w : Nat
  acc : Acc
  cls : Cls
  rst : Nat
  s1 : Nat
  n1 : Nat
  s2 : Nat
  n2 : Nat
deriving DecidableEq, Repr

/-- The address of instance `(i, j)` of a field (R9). -/
def Field.at (f : Field) (i j : Nat) : Nat := f.addr + f.s1 * i + f.s2 * j

/-- Whether some instance of the field lies in the word at address `a`. -/
def Field.covers (f : Field) (a : Nat) : Bool :=
  let d := a - f.addr
  let r := d % f.s1
  decide (f.addr ≤ a) && decide (d / f.s1 < f.n1) && decide (r / f.s2 < f.n2) && decide (r % f.s2 = 0)

/-- The bits of its word that the field takes. -/
def Field.mask (f : Field) : Word := maskAt f.lo f.w

end Sys2Proof.Machine
end

