-- ==== Sys2Proof/Machine/RegMap0.lean ====
section
/-! DEFINITION. The register map of blocks SYS, PWR, TB, PE (R520): one `Field` per field of the
register tables of spec/, under its own register and field name; then the table of each block. The access code, the
retention class and the reset value of each are those of its row (R10, R12, R13). Reserved bits have no row: they read 0
(R7). A cell that reads "Per module", "Per build", "Per revision" or "Per slot" carries a value the model names (log 3). -/

namespace Sys2Proof.Machine.R

-- SYS_ROLE: 01_module_roles.md, register table "role set from the image and in force (0x0000_0040)"
def SYS_ROLE.ROLE_CFG : Field := ⟨0x40, 0, 4, .ro, .C, 0x0, 0, 1, 0, 1⟩
def SYS_ROLE.OPT : Field := ⟨0x40, 4, 2, .ro, .C, 0x0, 0, 1, 0, 1⟩
def SYS_ROLE.ROLE_ACT : Field := ⟨0x40, 8, 4, .ro, .F, 0x0, 0, 1, 0, 1⟩
def SYS_ROLE.DISP_CONN : Field := ⟨0x40, 12, 2, .ro, .C, 0x0, 0, 1, 0, 1⟩
def SYS_ROLE.STORE_GRP : Field := ⟨0x40, 16, 8, .ro, .C, 0x0, 0, 1, 0, 1⟩
-- SYS_ROLE_CMD: 01_module_roles.md, register table "apply a new role set (0x0000_0044)"
def SYS_ROLE_CMD.APPLY : Field := ⟨0x44, 0, 1, .rwa, .V, 0x0, 0, 1, 0, 1⟩
def SYS_ROLE_CMD.STATUS : Field := ⟨0x44, 1, 3, .ro, .V, 0x0, 0, 1, 0, 1⟩
-- SYS_ID: 04_startup_reset_retention.md, register table "part and build (0x0000_0000)"
def SYS_ID.PART : Field := ⟨0x0, 0, 16, .ro, .N, 0x9640, 0, 1, 0, 1⟩
def SYS_ID.BUILD : Field := ⟨0x0, 16, 2, .ro, .N, 0x1, 0, 1, 0, 1⟩
def SYS_ID.HW_REV : Field := ⟨0x0, 20, 4, .ro, .N, 0x0, 0, 1, 0, 1⟩
-- SYS_SERIAL_LO: 04_startup_reset_retention.md, register table "serial number (0x0000_0004 and 0x0000_0008)"
def SYS_SERIAL_LO.SERIAL : Field := ⟨0x4, 0, 32, .ro, .N, 0x0, 0, 1, 0, 1⟩
-- SYS_SERIAL_HI: 04_startup_reset_retention.md, register table "serial number (0x0000_0004 and 0x0000_0008)"
def SYS_SERIAL_HI.SERIAL : Field := ⟨0x8, 0, 32, .ro, .N, 0x0, 0, 1, 0, 1⟩
-- SYS_RST_CAUSE: 04_startup_reset_retention.md, register table "reset cause (0x0000_0010)"
def SYS_RST_CAUSE.LAST : Field := ⟨0x10, 0, 3, .ro, .A, 0x0, 0, 1, 0, 1⟩
def SYS_RST_CAUSE.SEEN : Field := ⟨0x10, 8, 7, .w1c, .A, 0x0, 0, 1, 0, 1⟩
def SYS_RST_CAUSE.D0_COLD : Field := ⟨0x10, 15, 1, .w1c, .A, 0x0, 0, 1, 0, 1⟩
def SYS_RST_CAUSE.COINC : Field := ⟨0x10, 16, 1, .ro, .A, 0x0, 0, 1, 0, 1⟩
-- SYS_RST_INFO: 04_startup_reset_retention.md, register table "detail of the last reset (0x0000_0014)"
def SYS_RST_INFO.DOM_MASK : Field := ⟨0x14, 0, 12, .ro, .A, 0x0, 0, 1, 0, 1⟩
def SYS_RST_INFO.BOR_SRC : Field := ⟨0x14, 12, 3, .ro, .A, 0x0, 0, 1, 0, 1⟩
def SYS_RST_INFO.FABR_NODE : Field := ⟨0x14, 16, 12, .ro, .A, 0x0, 0, 1, 0, 1⟩
-- SYS_RST_CNT: 04_startup_reset_retention.md, register table "reset counters (0x0000_0018)"
def SYS_RST_CNT.COLD : Field := ⟨0x18, 0, 16, .ro, .N, 0x0, 0, 1, 0, 1⟩
def SYS_RST_CNT.WARM : Field := ⟨0x18, 16, 16, .ro, .N, 0x0, 0, 1, 0, 1⟩
-- SYS_RST_CMD: 04_startup_reset_retention.md, register table "SOFT reset (0x0000_0020)"
def SYS_RST_CMD.SOFT : Field := ⟨0x20, 0, 1, .rwa, .V, 0x0, 0, 1, 0, 1⟩
def SYS_RST_CMD.STATUS : Field := ⟨0x20, 1, 3, .ro, .V, 0x0, 0, 1, 0, 1⟩
-- SYS_READY: 04_startup_reset_retention.md, register table "ready bits (0x0000_0030)"
def SYS_READY.RDY : Field := ⟨0x30, 0, 14, .ro, .V, 0x0, 0, 1, 0, 1⟩
def SYS_READY.REQ : Field := ⟨0x30, 16, 14, .ro, .V, 0x0, 0, 1, 0, 1⟩
def SYS_READY.FRZ_PEND : Field := ⟨0x30, 30, 1, .ro, .V, 0x0, 0, 1, 0, 1⟩
def SYS_READY.PIN : Field := ⟨0x30, 31, 1, .ro, .V, 0x0, 0, 1, 0, 1⟩
-- SYS_BOOT_STAT: 04_startup_reset_retention.md, register table "start-up progress (0x0000_0034)"
def SYS_BOOT_STAT.STEP : Field := ⟨0x34, 0, 4, .ro, .V, 0x0, 0, 1, 0, 1⟩
def SYS_BOOT_STAT.BANK : Field := ⟨0x34, 8, 1, .ro, .V, 0x0, 0, 1, 0, 1⟩
def SYS_BOOT_STAT.SECT_FAIL : Field := ⟨0x34, 16, 8, .ro, .V, 0x0, 0, 1, 0, 1⟩
def SYS_BOOT_STAT.NO_IMAGE : Field := ⟨0x34, 24, 1, .ro, .V, 0x0, 0, 1, 0, 1⟩
def SYS_BOOT_STAT.LATE : Field := ⟨0x34, 25, 1, .ro, .V, 0x0, 0, 1, 0, 1⟩
def SYS_BOOT_STAT.CAL_FAIL : Field := ⟨0x34, 26, 1, .ro, .V, 0x0, 0, 1, 0, 1⟩
def SYS_BOOT_STAT.ECC_FAIL : Field := ⟨0x34, 27, 1, .ro, .V, 0x0, 0, 1, 0, 1⟩
-- SYS_BOOT_TIME: 04_startup_reset_retention.md, register table "start-up times (0x0000_0038)"
def SYS_BOOT_TIME.T_READY : Field := ⟨0x38, 0, 16, .ro, .V, 0xFFFF, 0, 1, 0, 1⟩
def SYS_BOOT_TIME.T_IMAGE : Field := ⟨0x38, 16, 16, .ro, .V, 0xFFFF, 0, 1, 0, 1⟩
-- SYS_CAL_STAT: 04_startup_reset_retention.md, register table "self-calibration results (0x0000_003C)"
def SYS_CAL_STAT.FAIL : Field := ⟨0x3C, 0, 6, .ro, .V, 0x0, 0, 1, 0, 1⟩
def SYS_CAL_STAT.DONE : Field := ⟨0x3C, 31, 1, .ro, .V, 0x0, 0, 1, 0, 1⟩
-- SYS_SCRATCH_A: 04_startup_reset_retention.md, register table "scratch word, class A (0x0000_0050)"
def SYS_SCRATCH_A.DATA : Field := ⟨0x50, 0, 32, .rw, .A, 0x0, 0, 1, 0, 1⟩
-- SYS_SCRATCH_N: 04_startup_reset_retention.md, register table "scratch word, class N (0x0000_0054)"
def SYS_SCRATCH_N.DATA : Field := ⟨0x54, 0, 32, .rwa, .N, 0x0, 0, 1, 0, 1⟩
-- SYS_SCRATCH_F: 04_startup_reset_retention.md, register table "scratch word, class F (0x0000_0058)"
def SYS_SCRATCH_F.DATA : Field := ⟨0x58, 0, 32, .rw, .F, 0x0, 0, 1, 0, 1⟩
-- SYS_SCRATCH_C: 04_startup_reset_retention.md, register table "scratch word, class C (0x0000_005C)"
def SYS_SCRATCH_C.DATA : Field := ⟨0x5C, 0, 32, .rw, .C, 0x0, 0, 1, 0, 1⟩
-- SYS_SCRATCH_V: 04_startup_reset_retention.md, register table "scratch word, class V (0x0000_0060)"
def SYS_SCRATCH_V.DATA : Field := ⟨0x60, 0, 32, .rw, .V, 0x0, 0, 1, 0, 1⟩
-- SYS_NET_CFG: 22_management_map.md, register table "ETH0 and relaying (0x0000_0100)"
def SYS_NET_CFG.ETH_EN : Field := ⟨0x100, 0, 1, .rw, .C, 0x1, 0, 1, 0, 1⟩
def SYS_NET_CFG.DHCP : Field := ⟨0x100, 1, 1, .rw, .C, 0x1, 0, 1, 0, 1⟩
def SYS_NET_CFG.RELAY_EN : Field := ⟨0x100, 2, 1, .rwa, .C, 0x0, 0, 1, 0, 1⟩
def SYS_NET_CFG.SPEED : Field := ⟨0x100, 8, 2, .ro, .V, 0x0, 0, 1, 0, 1⟩
-- SYS_NET_IP4: 22_management_map.md, register table "IPv4 (0x0000_0104, 0x0000_0108, 0x0000_010C, 0x0000_0110)"
def SYS_NET_IP4.ADDR : Field := ⟨0x104, 0, 32, .rw, .C, 0x0, 0, 1, 0, 1⟩
-- SYS_NET_MASK: 22_management_map.md, register table "IPv4 (0x0000_0104, 0x0000_0108, 0x0000_010C, 0x0000_0110)"
def SYS_NET_MASK.ADDR : Field := ⟨0x108, 0, 32, .rw, .C, 0x0, 0, 1, 0, 1⟩
-- SYS_NET_GW: 22_management_map.md, register table "IPv4 (0x0000_0104, 0x0000_0108, 0x0000_010C, 0x0000_0110)"
def SYS_NET_GW.ADDR : Field := ⟨0x10C, 0, 32, .rw, .C, 0x0, 0, 1, 0, 1⟩
-- SYS_NET_ACT: 22_management_map.md, register table "IPv4 (0x0000_0104, 0x0000_0108, 0x0000_010C, 0x0000_0110)"
def SYS_NET_ACT.ADDR : Field := ⟨0x110, 0, 32, .ro, .V, 0x0, 0, 1, 0, 1⟩
-- SYS_MGMT_CFG: 22_management_map.md, register table "anchors and idle time (0x0000_0120)"
def SYS_MGMT_CFG.ADM_ANCHOR : Field := ⟨0x120, 0, 6, .rwa, .N, 0x3F, 0, 1, 0, 1⟩
def SYS_MGMT_CFG.OPR_ANCHOR : Field := ⟨0x120, 8, 6, .rwa, .N, 0x3F, 0, 1, 0, 1⟩
def SYS_MGMT_CFG.OBS_ANCHOR : Field := ⟨0x120, 16, 6, .rwa, .N, 0x3F, 0, 1, 0, 1⟩
def SYS_MGMT_CFG.IDLE_T : Field := ⟨0x120, 24, 8, .rw, .C, 0x3C, 0, 1, 0, 1⟩
-- SYS_MGMT_STAT: 22_management_map.md, register table "session counts (0x0000_0124)"
def SYS_MGMT_STAT.N_SESS : Field := ⟨0x124, 0, 4, .ro, .V, 0x0, 0, 1, 0, 1⟩
def SYS_MGMT_STAT.N_ADMIN : Field := ⟨0x124, 4, 4, .ro, .V, 0x0, 0, 1, 0, 1⟩
def SYS_MGMT_STAT.N_RELAY : Field := ⟨0x124, 8, 7, .ro, .V, 0x0, 0, 1, 0, 1⟩
def SYS_MGMT_STAT.REFUSED : Field := ⟨0x124, 16, 16, .ro, .V, 0x0, 0, 1, 0, 1⟩
-- SYS_SESS: 22_management_map.md, register table "session table (0x0000_0140 + 4·s, s = 0 to 7)"
def SYS_SESS.STATE : Field := ⟨0x140, 0, 2, .ro, .V, 0x0, 4, 8, 0, 1⟩
def SYS_SESS.LEVEL : Field := ⟨0x140, 2, 2, .ro, .V, 0x0, 4, 8, 0, 1⟩
def SYS_SESS.VIA : Field := ⟨0x140, 4, 1, .ro, .V, 0x0, 4, 8, 0, 1⟩
def SYS_SESS.PEER : Field := ⟨0x140, 8, 12, .ro, .V, 0x0, 4, 8, 0, 1⟩
def SYS_SESS.N_SUB : Field := ⟨0x140, 20, 5, .ro, .V, 0x0, 4, 8, 0, 1⟩
-- SYS_TIME_CFG: 22_management_map.md, register table "UTC source (0x0000_0180)"
def SYS_TIME_CFG.TSRC : Field := ⟨0x180, 0, 2, .rw, .C, 0x0, 0, 1, 0, 1⟩
def SYS_TIME_CFG.PTP_DOM : Field := ⟨0x180, 8, 7, .rw, .C, 0x0, 0, 1, 0, 1⟩
def SYS_TIME_CFG.NTP_POLL : Field := ⟨0x180, 16, 4, .rw, .C, 0x6, 0, 1, 0, 1⟩
-- SYS_NTP_SRV: 22_management_map.md, register table "server, state and clock (0x0000_0184, 0x0000_0188, 0x0000_018C)"
def SYS_NTP_SRV.ADDR : Field := ⟨0x184, 0, 32, .rw, .C, 0x0, 0, 1, 0, 1⟩
-- SYS_TIME_STAT: 22_management_map.md, register table "server, state and clock (0x0000_0184, 0x0000_0188, 0x0000_018C)"
def SYS_TIME_STAT.TSTATE : Field := ⟨0x188, 0, 2, .ro, .V, 0x0, 0, 1, 0, 1⟩
def SYS_TIME_STAT.RTC_SET : Field := ⟨0x188, 2, 1, .ro, .A, 0x0, 0, 1, 0, 1⟩
def SYS_TIME_STAT.OFS : Field := ⟨0x188, 8, 24, .ro, .V, 0x0, 0, 1, 0, 1⟩
-- SYS_RTC: 22_management_map.md, register table "server, state and clock (0x0000_0184, 0x0000_0188, 0x0000_018C)"
def SYS_RTC.UTC : Field := ⟨0x18C, 0, 32, .ro, .A, 0x0, 0, 1, 0, 1⟩

/-- Block SYS, part 0 of its fields. -/
def tabSYS0 : List Field := [
  SYS_ROLE.ROLE_CFG, SYS_ROLE.OPT, SYS_ROLE.ROLE_ACT, SYS_ROLE.DISP_CONN,
  SYS_ROLE.STORE_GRP, SYS_ROLE_CMD.APPLY, SYS_ROLE_CMD.STATUS, SYS_ID.PART,
  SYS_ID.BUILD, SYS_ID.HW_REV, SYS_SERIAL_LO.SERIAL, SYS_SERIAL_HI.SERIAL,
  SYS_RST_CAUSE.LAST, SYS_RST_CAUSE.SEEN, SYS_RST_CAUSE.D0_COLD, SYS_RST_CAUSE.COINC,
  SYS_RST_INFO.DOM_MASK, SYS_RST_INFO.BOR_SRC, SYS_RST_INFO.FABR_NODE, SYS_RST_CNT.COLD,
  SYS_RST_CNT.WARM, SYS_RST_CMD.SOFT, SYS_RST_CMD.STATUS, SYS_READY.RDY,
  SYS_READY.REQ, SYS_READY.FRZ_PEND, SYS_READY.PIN, SYS_BOOT_STAT.STEP,
  SYS_BOOT_STAT.BANK, SYS_BOOT_STAT.SECT_FAIL, SYS_BOOT_STAT.NO_IMAGE, SYS_BOOT_STAT.LATE,
  SYS_BOOT_STAT.CAL_FAIL, SYS_BOOT_STAT.ECC_FAIL, SYS_BOOT_TIME.T_READY, SYS_BOOT_TIME.T_IMAGE,
  SYS_CAL_STAT.FAIL, SYS_CAL_STAT.DONE, SYS_SCRATCH_A.DATA, SYS_SCRATCH_N.DATA,
  SYS_SCRATCH_F.DATA, SYS_SCRATCH_C.DATA, SYS_SCRATCH_V.DATA, SYS_NET_CFG.ETH_EN,
  SYS_NET_CFG.DHCP, SYS_NET_CFG.RELAY_EN, SYS_NET_CFG.SPEED, SYS_NET_IP4.ADDR,
  SYS_NET_MASK.ADDR, SYS_NET_GW.ADDR, SYS_NET_ACT.ADDR, SYS_MGMT_CFG.ADM_ANCHOR,
  SYS_MGMT_CFG.OPR_ANCHOR, SYS_MGMT_CFG.OBS_ANCHOR, SYS_MGMT_CFG.IDLE_T, SYS_MGMT_STAT.N_SESS,
  SYS_MGMT_STAT.N_ADMIN, SYS_MGMT_STAT.N_RELAY, SYS_MGMT_STAT.REFUSED, SYS_SESS.STATE]
/-- Block SYS, part 1 of its fields. -/
def tabSYS1 : List Field := [
  SYS_SESS.LEVEL, SYS_SESS.VIA, SYS_SESS.PEER, SYS_SESS.N_SUB,
  SYS_TIME_CFG.TSRC, SYS_TIME_CFG.PTP_DOM, SYS_TIME_CFG.NTP_POLL, SYS_NTP_SRV.ADDR,
  SYS_TIME_STAT.TSTATE, SYS_TIME_STAT.RTC_SET, SYS_TIME_STAT.OFS, SYS_RTC.UTC]
/-- Every field of block SYS. -/
def tabSYS : List Field := tabSYS0 ++ tabSYS1
/-- The fields of block SYS whose reset value is not 0. -/
def nzSYS : List Field := [
  SYS_ID.PART, SYS_ID.BUILD, SYS_BOOT_TIME.T_READY, SYS_BOOT_TIME.T_IMAGE,
  SYS_NET_CFG.ETH_EN, SYS_NET_CFG.DHCP, SYS_MGMT_CFG.ADM_ANCHOR, SYS_MGMT_CFG.OPR_ANCHOR,
  SYS_MGMT_CFG.OBS_ANCHOR, SYS_MGMT_CFG.IDLE_T, SYS_TIME_CFG.NTP_POLL]

-- PWR_STATE: 03_supply_domains_aux.md, register table "operating state and requests (0x0001_0000)"
def PWR_STATE.STATE : Field := ⟨0x10000, 0, 2, .ro, .V, 0x1, 0, 1, 0, 1⟩
def PWR_STATE.CMD : Field := ⟨0x10000, 4, 2, .rw, .V, 0x0, 0, 1, 0, 1⟩
def PWR_STATE.RESULT : Field := ⟨0x10000, 8, 4, .ro, .V, 0x0, 0, 1, 0, 1⟩
-- PWR_WAKE: 03_supply_domains_aux.md, register table "wake sources (0x0001_0008)"
def PWR_WAKE.EN : Field := ⟨0x10008, 0, 4, .rw, .C, 0xF, 0, 1, 0, 1⟩
def PWR_WAKE.SRC : Field := ⟨0x10008, 8, 4, .w1c, .A, 0x0, 0, 1, 0, 1⟩
-- PWR_VMON: 03_supply_domains_aux.md, register table "supply measurements (0x0001_0010)"
def PWR_VMON.VSUP : Field := ⟨0x10010, 0, 16, .ro, .V, 0x0, 0, 1, 0, 1⟩
def PWR_VMON.VBAT : Field := ⟨0x10010, 16, 16, .ro, .V, 0x0, 0, 1, 0, 1⟩
-- PWR_VLS: 03_supply_domains_aux.md, register table "load-switch supply measurements (0x0001_0014)"
def PWR_VLS.VLSA : Field := ⟨0x10014, 0, 16, .ro, .V, 0x0, 0, 1, 0, 1⟩
def PWR_VLS.VLSB : Field := ⟨0x10014, 16, 16, .ro, .V, 0x0, 0, 1, 0, 1⟩
-- PWR_SUPPLY_STAT: 03_supply_domains_aux.md, register table "supply bands and history (0x0001_0018)"
def PWR_SUPPLY_STAT.LOW_BAND : Field := ⟨0x10018, 0, 1, .ro, .V, 0x0, 0, 1, 0, 1⟩
def PWR_SUPPLY_STAT.OVERV : Field := ⟨0x10018, 1, 1, .ro, .V, 0x0, 0, 1, 0, 1⟩
def PWR_SUPPLY_STAT.VBAT_LOW : Field := ⟨0x10018, 2, 1, .ro, .V, 0x0, 0, 1, 0, 1⟩
def PWR_SUPPLY_STAT.HIGH_BAND : Field := ⟨0x10018, 3, 1, .ro, .V, 0x0, 0, 1, 0, 1⟩
def PWR_SUPPLY_STAT.LOW_SEEN : Field := ⟨0x10018, 8, 1, .w1c, .F, 0x0, 0, 1, 0, 1⟩
def PWR_SUPPLY_STAT.OVERV_SEEN : Field := ⟨0x10018, 9, 1, .w1c, .F, 0x0, 0, 1, 0, 1⟩
def PWR_SUPPLY_STAT.FAIL_SEEN : Field := ⟨0x10018, 10, 1, .w1c, .A, 0x0, 0, 1, 0, 1⟩
def PWR_SUPPLY_STAT.VBAT_SEEN : Field := ⟨0x10018, 11, 1, .w1c, .A, 0x0, 0, 1, 0, 1⟩
-- PWR_HOLDUP: 03_supply_domains_aux.md, register table "hold-up store (0x0001_001C)"
def PWR_HOLDUP.VSTORE : Field := ⟨0x1001C, 0, 8, .ro, .V, 0x0, 0, 1, 0, 1⟩
def PWR_HOLDUP.E_USABLE : Field := ⟨0x1001C, 8, 16, .ro, .V, 0x0, 0, 1, 0, 1⟩
def PWR_HOLDUP.HOLDUP_OK : Field := ⟨0x1001C, 24, 1, .ro, .V, 0x0, 0, 1, 0, 1⟩
def PWR_HOLDUP.TEST : Field := ⟨0x1001C, 25, 1, .wo, .V, 0x0, 0, 1, 0, 1⟩
def PWR_HOLDUP.TESTING : Field := ⟨0x1001C, 26, 1, .ro, .V, 0x0, 0, 1, 0, 1⟩
def PWR_HOLDUP.HOLDUP_ENF : Field := ⟨0x1001C, 28, 1, .rwa, .C, 0x1, 0, 1, 0, 1⟩
-- PWR_DOM_STAT: 03_supply_domains_aux.md, register table "domain states (0x0001_0030)"
def PWR_DOM_STAT.ON : Field := ⟨0x10030, 0, 12, .ro, .V, 0xFFF, 0, 1, 0, 1⟩
def PWR_DOM_STAT.IN_RST : Field := ⟨0x10030, 16, 12, .ro, .V, 0x0, 0, 1, 0, 1⟩
-- PWR_DOM_RST: 03_supply_domains_aux.md, register table "DOMAIN reset command (0x0001_0034)"
def PWR_DOM_RST.RST : Field := ⟨0x10034, 3, 9, .rwa, .V, 0x0, 0, 1, 0, 1⟩
def PWR_DOM_RST.RESULT : Field := ⟨0x10034, 28, 3, .ro, .V, 0x0, 0, 1, 0, 1⟩
-- PWR_DOM_FAULT: 03_supply_domains_aux.md, register table "rail faults (0x0001_0038)"
def PWR_DOM_FAULT.RAIL : Field := ⟨0x10038, 0, 12, .w1c, .F, 0x0, 0, 1, 0, 1⟩
-- PWR_SYNC: 03_supply_domains_aux.md, register table "AUX_SYNC input (0x0001_0040)"
def PWR_SYNC.FSYNC : Field := ⟨0x10040, 0, 17, .ro, .V, 0x0, 0, 1, 0, 1⟩
def PWR_SYNC.PRESENT : Field := ⟨0x10040, 31, 1, .ro, .V, 0x0, 0, 1, 0, 1⟩
-- PWR_AUX_CTRL: 03_supply_domains_aux.md, register table "channel control (0x0001_0100 + 0x40·a, a = 0 to 5)"
def PWR_AUX_CTRL.EN : Field := ⟨0x10100, 0, 1, .rw, .C, 0x0, 64, 6, 0, 1⟩
def PWR_AUX_CTRL.SYNC_EN : Field := ⟨0x10100, 1, 1, .rw, .C, 0x1, 64, 6, 0, 1⟩
def PWR_AUX_CTRL.BURST_EN : Field := ⟨0x10100, 2, 1, .rw, .C, 0x1, 64, 6, 0, 1⟩
def PWR_AUX_CTRL.GD_PH : Field := ⟨0x10100, 4, 2, .rw, .C, 0x0, 64, 6, 0, 1⟩
def PWR_AUX_CTRL.PHASE : Field := ⟨0x10100, 8, 6, .rw, .C, 0x0, 64, 6, 0, 1⟩
def PWR_AUX_CTRL.LOOP : Field := ⟨0x10100, 16, 7, .rw, .C, 0x7F, 64, 6, 0, 1⟩
-- PWR_AUX_FSW: 03_supply_domains_aux.md, register table "frequency and duty (0x0001_0104 + 0x40·a)"
def PWR_AUX_FSW.FSW : Field := ⟨0x10104, 0, 16, .rw, .C, 0xFA0, 64, 6, 0, 1⟩
def PWR_AUX_FSW.DMAX : Field := ⟨0x10104, 16, 8, .rw, .C, 0x5A, 64, 6, 0, 1⟩
-- PWR_AUX_SETPT01: 03_supply_domains_aux.md, register table "setpoints (0x0001_0108 and 0x0001_010C + 0x40·a)"
def PWR_AUX_SETPT01.SP0 : Field := ⟨0x10108, 0, 12, .rwa, .C, 0x0, 64, 6, 0, 1⟩
-- PWR_AUX_SETPT23: 03_supply_domains_aux.md, register table "setpoints (0x0001_0108 and 0x0001_010C + 0x40·a)"
def PWR_AUX_SETPT23.SP2 : Field := ⟨0x1010C, 0, 12, .rwa, .C, 0x0, 64, 6, 0, 1⟩
-- PWR_AUX_SETPT01: 03_supply_domains_aux.md, register table "setpoints (0x0001_0108 and 0x0001_010C + 0x40·a)"
def PWR_AUX_SETPT01.SP1 : Field := ⟨0x10108, 16, 12, .rwa, .C, 0x0, 64, 6, 0, 1⟩
-- PWR_AUX_SETPT23: 03_supply_domains_aux.md, register table "setpoints (0x0001_0108 and 0x0001_010C + 0x40·a)"
def PWR_AUX_SETPT23.SP3 : Field := ⟨0x1010C, 16, 12, .rwa, .C, 0x0, 64, 6, 0, 1⟩
-- PWR_AUX_CS: 03_supply_domains_aux.md, register table "current sense (0x0001_0110 + 0x40·a)"
def PWR_AUX_CS.ILIM : Field := ⟨0x10110, 0, 10, .rw, .C, 0x3FF, 64, 6, 0, 1⟩
def PWR_AUX_CS.BLANK : Field := ⟨0x10110, 16, 7, .rw, .C, 0x19, 64, 6, 0, 1⟩
def PWR_AUX_CS.SLOPE : Field := ⟨0x10110, 24, 8, .rw, .C, 0x0, 64, 6, 0, 1⟩
-- PWR_AUX_OVS: 03_supply_domains_aux.md, register table "overshoot and burst thresholds (0x0001_0114 + 0x40·a)"
def PWR_AUX_OVS.OV1 : Field := ⟨0x10114, 0, 8, .rw, .C, 0xA, 64, 6, 0, 1⟩
def PWR_AUX_OVS.OV2 : Field := ⟨0x10114, 8, 8, .rw, .C, 0x1E, 64, 6, 0, 1⟩
def PWR_AUX_OVS.BURST_TH : Field := ⟨0x10114, 24, 8, .rw, .C, 0x20, 64, 6, 0, 1⟩
-- PWR_AUX_TEMP: 03_supply_domains_aux.md, register table "stage temperature limits (0x0001_0118 + 0x40·a)"
def PWR_AUX_TEMP.TS_SEL : Field := ⟨0x10118, 0, 6, .rw, .C, 0x3F, 64, 6, 0, 1⟩
def PWR_AUX_TEMP.WARN : Field := ⟨0x10118, 8, 8, .rw, .C, 0x6E, 64, 6, 0, 1⟩
def PWR_AUX_TEMP.SHUT : Field := ⟨0x10118, 16, 8, .rw, .C, 0x7D, 64, 6, 0, 1⟩
-- PWR_AUX_STAT: 03_supply_domains_aux.md, register table "channel status (0x0001_011C + 0x40·a)"
def PWR_AUX_STAT.MODE : Field := ⟨0x1011C, 0, 3, .ro, .V, 0x0, 64, 6, 0, 1⟩
def PWR_AUX_STAT.PGOOD : Field := ⟨0x1011C, 3, 1, .ro, .V, 0x0, 64, 6, 0, 1⟩
def PWR_AUX_STAT.SYNCED : Field := ⟨0x1011C, 4, 1, .ro, .V, 0x0, 64, 6, 0, 1⟩
def PWR_AUX_STAT.TWARN : Field := ⟨0x1011C, 5, 1, .ro, .V, 0x0, 64, 6, 0, 1⟩
def PWR_AUX_STAT.BRAKE_SEEN : Field := ⟨0x1011C, 8, 1, .w1c, .F, 0x0, 64, 6, 0, 1⟩
def PWR_AUX_STAT.TSHUT_SEEN : Field := ⟨0x1011C, 9, 1, .w1c, .F, 0x0, 64, 6, 0, 1⟩
def PWR_AUX_STAT.FB_FAULT : Field := ⟨0x1011C, 10, 1, .w1c, .F, 0x0, 64, 6, 0, 1⟩
def PWR_AUX_STAT.SYNC_LOST : Field := ⟨0x1011C, 11, 1, .w1c, .F, 0x0, 64, 6, 0, 1⟩
def PWR_AUX_STAT.FB : Field := ⟨0x1011C, 16, 12, .ro, .V, 0x0, 64, 6, 0, 1⟩
-- PWR_AUX_CNT: 03_supply_domains_aux.md, register table "protection counters (0x0001_0120 + 0x40·a)"
def PWR_AUX_CNT.TRUNC : Field := ⟨0x10120, 0, 16, .ro, .V, 0x0, 64, 6, 0, 1⟩
def PWR_AUX_CNT.BRAKE : Field := ⟨0x10120, 16, 16, .ro, .V, 0x0, 64, 6, 0, 1⟩

/-- Block PWR, part 0 of its fields. -/
def tabPWR0 : List Field := [
  PWR_STATE.STATE, PWR_STATE.CMD, PWR_STATE.RESULT, PWR_WAKE.EN,
  PWR_WAKE.SRC, PWR_VMON.VSUP, PWR_VMON.VBAT, PWR_VLS.VLSA,
  PWR_VLS.VLSB, PWR_SUPPLY_STAT.LOW_BAND, PWR_SUPPLY_STAT.OVERV, PWR_SUPPLY_STAT.VBAT_LOW,
  PWR_SUPPLY_STAT.HIGH_BAND, PWR_SUPPLY_STAT.LOW_SEEN, PWR_SUPPLY_STAT.OVERV_SEEN, PWR_SUPPLY_STAT.FAIL_SEEN,
  PWR_SUPPLY_STAT.VBAT_SEEN, PWR_HOLDUP.VSTORE, PWR_HOLDUP.E_USABLE, PWR_HOLDUP.HOLDUP_OK,
  PWR_HOLDUP.TEST, PWR_HOLDUP.TESTING, PWR_HOLDUP.HOLDUP_ENF, PWR_DOM_STAT.ON,
  PWR_DOM_STAT.IN_RST, PWR_DOM_RST.RST, PWR_DOM_RST.RESULT, PWR_DOM_FAULT.RAIL,
  PWR_SYNC.FSYNC, PWR_SYNC.PRESENT, PWR_AUX_CTRL.EN, PWR_AUX_CTRL.SYNC_EN,
  PWR_AUX_CTRL.BURST_EN, PWR_AUX_CTRL.GD_PH, PWR_AUX_CTRL.PHASE, PWR_AUX_CTRL.LOOP,
  PWR_AUX_FSW.FSW, PWR_AUX_FSW.DMAX, PWR_AUX_SETPT01.SP0, PWR_AUX_SETPT23.SP2,
  PWR_AUX_SETPT01.SP1, PWR_AUX_SETPT23.SP3, PWR_AUX_CS.ILIM, PWR_AUX_CS.BLANK,
  PWR_AUX_CS.SLOPE, PWR_AUX_OVS.OV1, PWR_AUX_OVS.OV2, PWR_AUX_OVS.BURST_TH,
  PWR_AUX_TEMP.TS_SEL, PWR_AUX_TEMP.WARN, PWR_AUX_TEMP.SHUT, PWR_AUX_STAT.MODE,
  PWR_AUX_STAT.PGOOD, PWR_AUX_STAT.SYNCED, PWR_AUX_STAT.TWARN, PWR_AUX_STAT.BRAKE_SEEN,
  PWR_AUX_STAT.TSHUT_SEEN, PWR_AUX_STAT.FB_FAULT, PWR_AUX_STAT.SYNC_LOST, PWR_AUX_STAT.FB]
/-- Block PWR, part 1 of its fields. -/
def tabPWR1 : List Field := [
  PWR_AUX_CNT.TRUNC, PWR_AUX_CNT.BRAKE]
/-- Every field of block PWR. -/
def tabPWR : List Field := tabPWR0 ++ tabPWR1
/-- The fields of block PWR whose reset value is not 0. -/
def nzPWR : List Field := [
  PWR_STATE.STATE, PWR_WAKE.EN, PWR_HOLDUP.HOLDUP_ENF, PWR_DOM_STAT.ON,
  PWR_AUX_CTRL.SYNC_EN, PWR_AUX_CTRL.BURST_EN, PWR_AUX_CTRL.LOOP, PWR_AUX_FSW.FSW,
  PWR_AUX_FSW.DMAX, PWR_AUX_CS.ILIM, PWR_AUX_CS.BLANK, PWR_AUX_OVS.OV1,
  PWR_AUX_OVS.OV2, PWR_AUX_OVS.BURST_TH, PWR_AUX_TEMP.TS_SEL, PWR_AUX_TEMP.WARN,
  PWR_AUX_TEMP.SHUT]

-- TB_CTRL: 05_grid_angle_timebase.md, register table "sources, lines and reference (0x0002_0000)"
def TB_CTRL.LINES : Field := ⟨0x20000, 0, 1, .rw, .C, 0x1, 0, 1, 0, 1⟩
def TB_CTRL.NOM_F : Field := ⟨0x20000, 1, 2, .rw, .C, 0x0, 0, 1, 0, 1⟩
def TB_CTRL.SRC_EN : Field := ⟨0x20000, 4, 4, .rw, .C, 0xF, 0, 1, 0, 1⟩
def TB_CTRL.REF_SEL : Field := ⟨0x20000, 8, 2, .rw, .C, 0x0, 0, 1, 0, 1⟩
-- TB_STAT: 05_grid_angle_timebase.md, register table "state and flags (0x0002_0004)"
def TB_STAT.STATE : Field := ⟨0x20004, 0, 3, .ro, .V, 0x0, 0, 1, 0, 1⟩
def TB_STAT.SRC : Field := ⟨0x20004, 3, 3, .ro, .V, 0x0, 0, 1, 0, 1⟩
def TB_STAT.ALIGNED : Field := ⟨0x20004, 6, 1, .ro, .V, 0x0, 0, 1, 0, 1⟩
def TB_STAT.ROOT : Field := ⟨0x20004, 7, 1, .ro, .V, 0x0, 0, 1, 0, 1⟩
def TB_STAT.DLL_LOCK : Field := ⟨0x20004, 8, 1, .ro, .V, 0x0, 0, 1, 0, 1⟩
def TB_STAT.REF : Field := ⟨0x20004, 9, 1, .ro, .V, 0x0, 0, 1, 0, 1⟩
def TB_STAT.GRID_OK : Field := ⟨0x20004, 10, 1, .ro, .V, 0x0, 0, 1, 0, 1⟩
def TB_STAT.ACQUIRED : Field := ⟨0x20004, 11, 1, .ro, .V, 0x0, 0, 1, 0, 1⟩
def TB_STAT.LINE_FLT : Field := ⟨0x20004, 12, 1, .ro, .V, 0x0, 0, 1, 0, 1⟩
def TB_STAT.GRID_LOST_SEEN : Field := ⟨0x20004, 16, 1, .w1c, .F, 0x0, 0, 1, 0, 1⟩
def TB_STAT.RENUM_SEEN : Field := ⟨0x20004, 17, 1, .w1c, .F, 0x0, 0, 1, 0, 1⟩
def TB_STAT.DLL_UNLK_SEEN : Field := ⟨0x20004, 18, 1, .w1c, .F, 0x0, 0, 1, 0, 1⟩
def TB_STAT.REF_LOST_SEEN : Field := ⟨0x20004, 19, 1, .w1c, .F, 0x0, 0, 1, 0, 1⟩
-- TB_STAMP_LO: 05_grid_angle_timebase.md, register table "angle stamp (0x0002_0008 and 0x0002_000C)"
def TB_STAMP_LO.STAMP : Field := ⟨0x20008, 0, 32, .ro, .V, 0x0, 0, 1, 0, 1⟩
-- TB_STAMP_HI: 05_grid_angle_timebase.md, register table "angle stamp (0x0002_0008 and 0x0002_000C)"
def TB_STAMP_HI.STAMP : Field := ⟨0x2000C, 0, 32, .ro, .V, 0x0, 0, 1, 0, 1⟩
-- TB_FREQ_GRID: 05_grid_angle_timebase.md, register table "grid frequency (0x0002_0010)"
def TB_FREQ_GRID.FGRID : Field := ⟨0x20010, 0, 17, .ro, .V, 0x0, 0, 1, 0, 1⟩
-- TB_FREQ_LOC: 05_grid_angle_timebase.md, register table "local angle frequency (0x0002_0014)"
def TB_FREQ_LOC.FLOC : Field := ⟨0x20014, 0, 17, .ro, .V, 0x0, 0, 1, 0, 1⟩
-- TB_INC: 05_grid_angle_timebase.md, register table "increment (0x0002_0018)"
def TB_INC.INC : Field := ⟨0x20018, 0, 32, .ro, .V, 0x0, 0, 1, 0, 1⟩
-- TB_ERR: 05_grid_angle_timebase.md, register table "error to the source (0x0002_001C)"
def TB_ERR.ERR : Field := ⟨0x2001C, 0, 28, .ro, .V, 0x0, 0, 1, 0, 1⟩
-- TB_GRID_CFG: 05_grid_angle_timebase.md, register table "grid qualification (0x0002_0020)"
def TB_GRID_CFG.AMIN : Field := ⟨0x20020, 0, 8, .rw, .C, 0x15, 0, 1, 0, 1⟩
def TB_GRID_CFG.RET_CYC : Field := ⟨0x20020, 8, 8, .rw, .C, 0xA, 0, 1, 0, 1⟩
def TB_GRID_CFG.JUMP_MAX : Field := ⟨0x20020, 16, 8, .rw, .C, 0x10, 0, 1, 0, 1⟩
-- TB_GRID_TOL: 05_grid_angle_timebase.md, register table "lock tolerance and sense delay (0x0002_0024)"
def TB_GRID_TOL.LOCK_TOL : Field := ⟨0x20024, 0, 16, .rw, .C, 0x1000, 0, 1, 0, 1⟩
def TB_GRID_TOL.SENSE_DLY : Field := ⟨0x20024, 16, 16, .rw, .C, 0x0, 0, 1, 0, 1⟩
-- TB_SLEW: 05_grid_angle_timebase.md, register table "slew limits (0x0002_0028)"
def TB_SLEW.DF_MAX : Field := ⟨0x20028, 0, 12, .rw, .C, 0x1F4, 0, 1, 0, 1⟩
def TB_SLEW.RAMP : Field := ⟨0x20028, 16, 12, .rw, .C, 0xC8, 0, 1, 0, 1⟩
-- TB_FOLLOW: 05_grid_angle_timebase.md, register table "follower settings (0x0002_002C)"
def TB_FOLLOW.SRC_TMO : Field := ⟨0x2002C, 0, 8, .rw, .C, 0x8, 0, 1, 0, 1⟩
def TB_FOLLOW.FOL_TOL : Field := ⟨0x2002C, 8, 8, .rw, .C, 0x10, 0, 1, 0, 1⟩
def TB_FOLLOW.GDIFF : Field := ⟨0x2002C, 16, 16, .ro, .V, 0x0, 0, 1, 0, 1⟩
-- TB_AMP: 05_grid_angle_timebase.md, register table "sense amplitudes (0x0002_0030)"
def TB_AMP.VA : Field := ⟨0x20030, 0, 10, .ro, .V, 0x0, 0, 1, 0, 1⟩
def TB_AMP.VB : Field := ⟨0x20030, 10, 10, .ro, .V, 0x0, 0, 1, 0, 1⟩
def TB_AMP.VC : Field := ⟨0x20030, 20, 10, .ro, .V, 0x0, 0, 1, 0, 1⟩
-- TB_HOLD: 05_grid_angle_timebase.md, register table "holdover duration (0x0002_0034)"
def TB_HOLD.HOLD_CYC : Field := ⟨0x20034, 0, 32, .ro, .V, 0x0, 0, 1, 0, 1⟩
-- TB_LAST_STAMP_LO: 05_grid_angle_timebase.md, register table "committed stamp (0x0002_0038 and 0x0002_003C)"
def TB_LAST_STAMP_LO.LAST : Field := ⟨0x20038, 0, 32, .ro, .N, 0x0, 0, 1, 0, 1⟩
-- TB_LAST_STAMP_HI: 05_grid_angle_timebase.md, register table "committed stamp (0x0002_0038 and 0x0002_003C)"
def TB_LAST_STAMP_HI.LAST : Field := ⟨0x2003C, 0, 32, .ro, .N, 0x0, 0, 1, 0, 1⟩
-- TB_DLL: 05_grid_angle_timebase.md, register table "delay-locked line (0x0002_0040)"
def TB_DLL.TAP_PS : Field := ⟨0x20040, 0, 8, .ro, .V, 0x0, 0, 1, 0, 1⟩
def TB_DLL.LOCK : Field := ⟨0x20040, 8, 1, .ro, .V, 0x0, 0, 1, 0, 1⟩
def TB_DLL.UNLK_CNT : Field := ⟨0x20040, 16, 8, .ro, .V, 0x0, 0, 1, 0, 1⟩
-- TB_OFS_CTRL: 05_grid_angle_timebase.md, register table "offset commit (0x0002_0050)"
def TB_OFS_CTRL.COMMIT : Field := ⟨0x20050, 0, 1, .wo, .V, 0x0, 0, 1, 0, 1⟩
def TB_OFS_CTRL.AT_STAMP : Field := ⟨0x20050, 1, 1, .rw, .V, 0x0, 0, 1, 0, 1⟩
def TB_OFS_CTRL.PEND : Field := ⟨0x20050, 2, 1, .ro, .V, 0x0, 0, 1, 0, 1⟩
def TB_OFS_CTRL.OFS_SLEW : Field := ⟨0x20050, 8, 8, .rw, .C, 0x8, 0, 1, 0, 1⟩
-- TB_COMMIT_LO: 05_grid_angle_timebase.md, register table "commit stamp (0x0002_0054 and 0x0002_0058)"
def TB_COMMIT_LO.STAMP : Field := ⟨0x20054, 0, 32, .rw, .V, 0x0, 0, 1, 0, 1⟩
-- TB_COMMIT_HI: 05_grid_angle_timebase.md, register table "commit stamp (0x0002_0054 and 0x0002_0058)"
def TB_COMMIT_HI.STAMP : Field := ⟨0x20058, 0, 32, .rw, .V, 0x0, 0, 1, 0, 1⟩
-- TB_APO_CFG: 05_grid_angle_timebase.md, register table "angle pulse out (0x0002_0060 and 0x0002_0064)"
def TB_APO_CFG.APO_ANG : Field := ⟨0x20060, 0, 24, .rw, .C, 0x0, 0, 1, 0, 1⟩
def TB_APO_CFG.APO_EN : Field := ⟨0x20060, 24, 1, .rw, .C, 0x0, 0, 1, 0, 1⟩
-- TB_APO_W: 05_grid_angle_timebase.md, register table "angle pulse out (0x0002_0060 and 0x0002_0064)"
def TB_APO_W.APO_W : Field := ⟨0x20064, 0, 10, .rw, .C, 0x64, 0, 1, 0, 1⟩
-- TB_API_CFG: 05_grid_angle_timebase.md, register table "angle pulse in (0x0002_0068)"
def TB_API_CFG.API_ANG : Field := ⟨0x20068, 0, 24, .rw, .C, 0x0, 0, 1, 0, 1⟩
def TB_API_CFG.API_EDGE : Field := ⟨0x20068, 24, 1, .rw, .C, 0x0, 0, 1, 0, 1⟩
def TB_API_CFG.API_PRESENT : Field := ⟨0x20068, 25, 1, .ro, .V, 0x0, 0, 1, 0, 1⟩
-- TB_API_CAP_LO: 05_grid_angle_timebase.md, register table "captured edge (0x0002_006C, 0x0002_0070 and 0x0002_0074)"
def TB_API_CAP_LO.STAMP : Field := ⟨0x2006C, 0, 32, .ro, .V, 0x0, 0, 1, 0, 1⟩
-- TB_API_CAP_HI: 05_grid_angle_timebase.md, register table "captured edge (0x0002_006C, 0x0002_0070 and 0x0002_0074)"
def TB_API_CAP_HI.STAMP : Field := ⟨0x20070, 0, 32, .ro, .V, 0x0, 0, 1, 0, 1⟩
-- TB_API_CAP_FR: 05_grid_angle_timebase.md, register table "captured edge (0x0002_006C, 0x0002_0070 and 0x0002_0074)"
def TB_API_CAP_FR.FRAC : Field := ⟨0x20074, 0, 4, .ro, .V, 0x0, 0, 1, 0, 1⟩
-- TB_KEEP_LO: 05_grid_angle_timebase.md, register table "stamp keeper (0x0002_0080 and 0x0002_0084)"
def TB_KEEP_LO.STAMP : Field := ⟨0x20080, 0, 32, .ro, .V, 0x0, 0, 1, 0, 1⟩
-- TB_KEEP_HI: 05_grid_angle_timebase.md, register table "stamp keeper (0x0002_0080 and 0x0002_0084)"
def TB_KEEP_HI.STAMP : Field := ⟨0x20084, 0, 32, .ro, .V, 0x0, 0, 1, 0, 1⟩
-- TB_GRP_CAR: 05_grid_angle_timebase.md, register table "carriers per cycle (0x0002_0100 + 0x10·g, g = 0 to 7)"
def TB_GRP_CAR.NCAR : Field := ⟨0x20100, 0, 13, .rw, .C, 0x7D0, 16, 8, 0, 1⟩
def TB_GRP_CAR.NCAR_ACT : Field := ⟨0x20100, 16, 13, .ro, .V, 0x7D0, 16, 8, 0, 1⟩
-- TB_GRP_OFS: 05_grid_angle_timebase.md, register table "group offset (0x0002_0104 and 0x0002_0108 + 0x10·g)"
def TB_GRP_OFS.GOFS : Field := ⟨0x20104, 0, 20, .rw, .C, 0x0, 16, 8, 0, 1⟩
-- TB_GRP_OFS_ACT: 05_grid_angle_timebase.md, register table "group offset (0x0002_0104 and 0x0002_0108 + 0x10·g)"
def TB_GRP_OFS_ACT.GOFS_ACT : Field := ⟨0x20108, 0, 20, .ro, .V, 0x0, 16, 8, 0, 1⟩
-- TB_PH_OFS: 05_grid_angle_timebase.md, register table "phase offset (0x0002_0400 + 4·n, n = 0 to 95)"
def TB_PH_OFS.POFS : Field := ⟨0x20400, 0, 20, .rw, .C, 0x0, 4, 96, 0, 1⟩
-- TB_PH_OFS_ACT: 05_grid_angle_timebase.md, register table "active phase offset (0x0002_0600 + 4·n, n = 0 to 95)"
def TB_PH_OFS_ACT.POFS_ACT : Field := ⟨0x20600, 0, 20, .ro, .V, 0x0, 4, 96, 0, 1⟩

/-- Block TB, part 0 of its fields. -/
def tabTB0 : List Field := [
  TB_CTRL.LINES, TB_CTRL.NOM_F, TB_CTRL.SRC_EN, TB_CTRL.REF_SEL,
  TB_STAT.STATE, TB_STAT.SRC, TB_STAT.ALIGNED, TB_STAT.ROOT,
  TB_STAT.DLL_LOCK, TB_STAT.REF, TB_STAT.GRID_OK, TB_STAT.ACQUIRED,
  TB_STAT.LINE_FLT, TB_STAT.GRID_LOST_SEEN, TB_STAT.RENUM_SEEN, TB_STAT.DLL_UNLK_SEEN,
  TB_STAT.REF_LOST_SEEN, TB_STAMP_LO.STAMP, TB_STAMP_HI.STAMP, TB_FREQ_GRID.FGRID,
  TB_FREQ_LOC.FLOC, TB_INC.INC, TB_ERR.ERR, TB_GRID_CFG.AMIN,
  TB_GRID_CFG.RET_CYC, TB_GRID_CFG.JUMP_MAX, TB_GRID_TOL.LOCK_TOL, TB_GRID_TOL.SENSE_DLY,
  TB_SLEW.DF_MAX, TB_SLEW.RAMP, TB_FOLLOW.SRC_TMO, TB_FOLLOW.FOL_TOL,
  TB_FOLLOW.GDIFF, TB_AMP.VA, TB_AMP.VB, TB_AMP.VC,
  TB_HOLD.HOLD_CYC, TB_LAST_STAMP_LO.LAST, TB_LAST_STAMP_HI.LAST, TB_DLL.TAP_PS,
  TB_DLL.LOCK, TB_DLL.UNLK_CNT, TB_OFS_CTRL.COMMIT, TB_OFS_CTRL.AT_STAMP,
  TB_OFS_CTRL.PEND, TB_OFS_CTRL.OFS_SLEW, TB_COMMIT_LO.STAMP, TB_COMMIT_HI.STAMP,
  TB_APO_CFG.APO_ANG, TB_APO_CFG.APO_EN, TB_APO_W.APO_W, TB_API_CFG.API_ANG,
  TB_API_CFG.API_EDGE, TB_API_CFG.API_PRESENT, TB_API_CAP_LO.STAMP, TB_API_CAP_HI.STAMP,
  TB_API_CAP_FR.FRAC, TB_KEEP_LO.STAMP, TB_KEEP_HI.STAMP, TB_GRP_CAR.NCAR]
/-- Block TB, part 1 of its fields. -/
def tabTB1 : List Field := [
  TB_GRP_CAR.NCAR_ACT, TB_GRP_OFS.GOFS, TB_GRP_OFS_ACT.GOFS_ACT, TB_PH_OFS.POFS,
  TB_PH_OFS_ACT.POFS_ACT]
/-- Every field of block TB. -/
def tabTB : List Field := tabTB0 ++ tabTB1
/-- The fields of block TB whose reset value is not 0. -/
def nzTB : List Field := [
  TB_CTRL.LINES, TB_CTRL.SRC_EN, TB_GRID_CFG.AMIN, TB_GRID_CFG.RET_CYC,
  TB_GRID_CFG.JUMP_MAX, TB_GRID_TOL.LOCK_TOL, TB_SLEW.DF_MAX, TB_SLEW.RAMP,
  TB_FOLLOW.SRC_TMO, TB_FOLLOW.FOL_TOL, TB_OFS_CTRL.OFS_SLEW, TB_APO_W.APO_W,
  TB_GRP_CAR.NCAR, TB_GRP_CAR.NCAR_ACT]

-- PE_STAT: 06_phase_engine.md, register table "Phase Engine status (0x0003_0000)"
def PE_STAT.PEA_CAL : Field := ⟨0x30000, 0, 1, .ro, .V, 0x0, 0, 1, 0, 1⟩
def PE_STAT.PEB_CAL : Field := ⟨0x30000, 1, 1, .ro, .V, 0x0, 0, 1, 0, 1⟩
def PE_STAT.DLL_HOLD : Field := ⟨0x30000, 2, 1, .ro, .V, 0x0, 0, 1, 0, 1⟩
def PE_STAT.N_ACT_ALL : Field := ⟨0x30000, 8, 7, .ro, .V, 0x0, 0, 1, 0, 1⟩
def PE_STAT.GRP_RUN : Field := ⟨0x30000, 16, 8, .ro, .V, 0x0, 0, 1, 0, 1⟩
def PE_STAT.GRP_FAULT : Field := ⟨0x30000, 24, 8, .ro, .V, 0x0, 0, 1, 0, 1⟩
-- PE_CTRL: 06_phase_engine.md, register table "common settings (0x0003_0004)"
def PE_CTRL.DEM_TMO : Field := ⟨0x30004, 0, 4, .rw, .C, 0x4, 0, 1, 0, 1⟩
def PE_CTRL.STOP_T : Field := ⟨0x30004, 8, 8, .rw, .C, 0x14, 0, 1, 0, 1⟩
def PE_CTRL.FLT_FILT : Field := ⟨0x30004, 16, 8, .rw, .C, 0x19, 0, 1, 0, 1⟩
-- PE_DIAG: 06_phase_engine.md, register table "detection settings (0x0003_0008)"
def PE_DIAG.OPEN_DI : Field := ⟨0x30008, 0, 12, .rw, .C, 0x20, 0, 1, 0, 1⟩
def PE_DIAG.IMBAL : Field := ⟨0x30008, 16, 8, .rw, .C, 0x14, 0, 1, 0, 1⟩
def PE_DIAG.DIAG_EN : Field := ⟨0x30008, 24, 1, .rwa, .C, 0x1, 0, 1, 0, 1⟩
-- PE_PH_ACT: 06_phase_engine.md, register table "active phases (0x0003_0010, 0x0003_0014, 0x0003_0018)"
def PE_PH_ACT.ACT : Field := ⟨0x30010, 0, 32, .ro, .V, 0x0, 4, 3, 0, 1⟩
-- PE_PH_TRIP: 06_phase_engine.md, register table "tripped phases (0x0003_0020, 0x0003_0024, 0x0003_0028)"
def PE_PH_TRIP.TRIP : Field := ⟨0x30020, 0, 32, .ro, .V, 0x0, 4, 3, 0, 1⟩
-- PE_GRP_CTRL: 06_phase_engine.md, register table "group control (0x0003_0100 + 0x40·g, g = 0 to 7)"
def PE_GRP_CTRL.EN : Field := ⟨0x30100, 0, 1, .rw, .V, 0x0, 64, 8, 0, 1⟩
def PE_GRP_CTRL.LED_EN : Field := ⟨0x30100, 1, 1, .rw, .C, 0x1, 64, 8, 0, 1⟩
def PE_GRP_CTRL.DEM_SRC : Field := ⟨0x30100, 2, 2, .rwa, .C, 0x0, 64, 8, 0, 1⟩
def PE_GRP_CTRL.RESPACE : Field := ⟨0x30100, 4, 2, .rw, .C, 0x1, 64, 8, 0, 1⟩
def PE_GRP_CTRL.FLT_ACT : Field := ⟨0x30100, 6, 2, .rw, .C, 0x0, 64, 8, 0, 1⟩
def PE_GRP_CTRL.N_MIN : Field := ⟨0x30100, 8, 7, .rw, .C, 0x1, 64, 8, 0, 1⟩
def PE_GRP_CTRL.LOOP : Field := ⟨0x30100, 16, 7, .rw, .C, 0x7F, 64, 8, 0, 1⟩
-- PE_GRP_STAT: 06_phase_engine.md, register table "group status (0x0003_0104 + 0x40·g)"
def PE_GRP_STAT.STATE : Field := ⟨0x30104, 0, 2, .ro, .V, 0x0, 64, 8, 0, 1⟩
def PE_GRP_STAT.OVS_STATE : Field := ⟨0x30104, 2, 2, .ro, .V, 0x0, 64, 8, 0, 1⟩
def PE_GRP_STAT.MODE : Field := ⟨0x30104, 4, 1, .ro, .V, 0x0, 64, 8, 0, 1⟩
def PE_GRP_STAT.LIMITING : Field := ⟨0x30104, 5, 1, .ro, .V, 0x0, 64, 8, 0, 1⟩
def PE_GRP_STAT.START_BLK : Field := ⟨0x30104, 6, 1, .ro, .V, 0x0, 64, 8, 0, 1⟩
def PE_GRP_STAT.N_CFG : Field := ⟨0x30104, 8, 7, .ro, .V, 0x0, 64, 8, 0, 1⟩
def PE_GRP_STAT.N_ACT : Field := ⟨0x30104, 16, 7, .ro, .V, 0x0, 64, 8, 0, 1⟩
def PE_GRP_STAT.FLT_CAUSE : Field := ⟨0x30104, 24, 3, .ro, .V, 0x0, 64, 8, 0, 1⟩
def PE_GRP_STAT.BRK_SEEN : Field := ⟨0x30104, 28, 1, .w1c, .F, 0x0, 64, 8, 0, 1⟩
def PE_GRP_STAT.TRUNC_SEEN : Field := ⟨0x30104, 29, 1, .w1c, .F, 0x0, 64, 8, 0, 1⟩
def PE_GRP_STAT.PHLOSS_SEEN : Field := ⟨0x30104, 30, 1, .w1c, .F, 0x0, 64, 8, 0, 1⟩
def PE_GRP_STAT.WDOG_SEEN : Field := ⟨0x30104, 31, 1, .w1c, .F, 0x0, 64, 8, 0, 1⟩
-- PE_GRP_DEM: 06_phase_engine.md, register table "demand received (0x0003_0108 + 0x40·g)"
def PE_GRP_DEM.DEM : Field := ⟨0x30108, 0, 32, .ro, .V, 0x0, 64, 8, 0, 1⟩
-- PE_GRP_DEM_MAN: 06_phase_engine.md, register table "manual demand (0x0003_010C + 0x40·g)"
def PE_GRP_DEM_MAN.DEM_MAN : Field := ⟨0x3010C, 0, 32, .rwa, .V, 0x0, 64, 8, 0, 1⟩
-- PE_GRP_SCALE: 06_phase_engine.md, register table "sense scaling (0x0003_0110 + 0x40·g)"
def PE_GRP_SCALE.CS_SCALE : Field := ⟨0x30110, 0, 16, .rw, .C, 0x0, 64, 8, 0, 1⟩
def PE_GRP_SCALE.VS_SCALE : Field := ⟨0x30110, 16, 16, .rw, .C, 0x0, 64, 8, 0, 1⟩
-- PE_GRP_DT: 06_phase_engine.md, register table "dead times (0x0003_0114 + 0x40·g)"
def PE_GRP_DT.DT_HL : Field := ⟨0x30114, 0, 14, .rw, .C, 0x190, 64, 8, 0, 1⟩
def PE_GRP_DT.DT_LH : Field := ⟨0x30114, 16, 14, .rw, .C, 0x190, 64, 8, 0, 1⟩
-- PE_GRP_PWM: 06_phase_engine.md, register table "blanking, duty and ramp (0x0003_0118 + 0x40·g)"
def PE_GRP_PWM.BLANK : Field := ⟨0x30118, 0, 7, .rw, .C, 0x19, 64, 8, 0, 1⟩
def PE_GRP_PWM.DMAX : Field := ⟨0x30118, 8, 8, .rw, .C, 0xF3, 64, 8, 0, 1⟩
def PE_GRP_PWM.SLOPE : Field := ⟨0x30118, 16, 16, .rw, .C, 0x0, 64, 8, 0, 1⟩
-- PE_GRP_OVS: 06_phase_engine.md, register table "overshoot thresholds (0x0003_011C + 0x40·g)"
def PE_GRP_OVS.OVS1 : Field := ⟨0x3011C, 0, 12, .rw, .C, 0xFFF, 64, 8, 0, 1⟩
def PE_GRP_OVS.OVS2 : Field := ⟨0x3011C, 16, 12, .rw, .C, 0xFFF, 64, 8, 0, 1⟩
-- PE_GRP_OVR: 06_phase_engine.md, register table "braking release and limit (0x0003_0120 + 0x40·g)"
def PE_GRP_OVR.OVR : Field := ⟨0x30120, 0, 12, .rw, .C, 0x0, 64, 8, 0, 1⟩
def PE_GRP_OVR.BRK_MAX : Field := ⟨0x30120, 16, 8, .rw, .C, 0x4, 64, 8, 0, 1⟩
-- PE_GRP_RATING: 06_phase_engine.md, register table "current ratings (0x0003_0124 + 0x40·g)"
def PE_GRP_RATING.I_GRP_MAX : Field := ⟨0x30124, 0, 16, .rw, .C, 0x0, 64, 8, 0, 1⟩
def PE_GRP_RATING.I_PH_MAX : Field := ⟨0x30124, 16, 16, .rw, .C, 0x0, 64, 8, 0, 1⟩
-- PE_GRP_FLOOR: 06_phase_engine.md, register table "floor and voltage floor (0x0003_0128 + 0x40·g)"
def PE_GRP_FLOOR.P_FLOOR : Field := ⟨0x30128, 0, 16, .ro, .C, 0x0, 64, 8, 0, 1⟩
def PE_GRP_FLOOR.V_FLOOR : Field := ⟨0x30128, 16, 16, .rw, .C, 0x32, 64, 8, 0, 1⟩
-- PE_GRP_LEASE: 06_phase_engine.md, register table "lease (0x0003_012C + 0x40·g)"
def PE_GRP_LEASE.P_LEASE : Field := ⟨0x3012C, 0, 16, .ro, .V, 0x0, 64, 8, 0, 1⟩
def PE_GRP_LEASE.EXP_HC : Field := ⟨0x3012C, 16, 6, .ro, .V, 0x0, 64, 8, 0, 1⟩
def PE_GRP_LEASE.LAPSED : Field := ⟨0x3012C, 24, 1, .ro, .V, 0x1, 64, 8, 0, 1⟩
-- PE_GRP_THERM: 06_phase_engine.md, register table "thermal ceiling (0x0003_0130 + 0x40·g)"
def PE_GRP_THERM.I_THERM : Field := ⟨0x30130, 0, 16, .ro, .V, 0xFFFF, 64, 8, 0, 1⟩
-- PE_GRP_CAP: 06_phase_engine.md, register table "ceiling in force (0x0003_0134 + 0x40·g)"
def PE_GRP_CAP.CAP : Field := ⟨0x30134, 0, 16, .ro, .V, 0x0, 64, 8, 0, 1⟩
def PE_GRP_CAP.CAP_SRC : Field := ⟨0x30134, 16, 3, .ro, .V, 0x0, 64, 8, 0, 1⟩
def PE_GRP_CAP.CAP_MARGIN : Field := ⟨0x30134, 24, 8, .rw, .C, 0xA, 64, 8, 0, 1⟩
-- PE_GRP_MEAS: 06_phase_engine.md, register table "group measurements (0x0003_0138 + 0x40·g)"
def PE_GRP_MEAS.I_GRP : Field := ⟨0x30138, 0, 16, .ro, .V, 0x0, 64, 8, 0, 1⟩
def PE_GRP_MEAS.V_GRP : Field := ⟨0x30138, 16, 16, .ro, .V, 0x0, 64, 8, 0, 1⟩
-- PE_GRP_CNT: 06_phase_engine.md, register table "protection counters (0x0003_013C + 0x40·g)"
def PE_GRP_CNT.TRUNC : Field := ⟨0x3013C, 0, 16, .ro, .V, 0x0, 64, 8, 0, 1⟩
def PE_GRP_CNT.BRAKE : Field := ⟨0x3013C, 16, 16, .ro, .V, 0x0, 64, 8, 0, 1⟩
-- PE_PH_CFG: 06_phase_engine.md, register table "phase configuration (0x0003_1000 + 0x20·n, n = 0 to 95)"
def PE_PH_CFG.EN : Field := ⟨0x31000, 0, 1, .rw, .V, 0x0, 32, 96, 0, 1⟩
def PE_PH_CFG.GRP : Field := ⟨0x31000, 1, 3, .rw, .C, 0x0, 32, 96, 0, 1⟩
def PE_PH_CFG.SLOT : Field := ⟨0x31000, 4, 7, .rw, .C, 0x0, 32, 96, 0, 1⟩
-- PE_PH_CAL: 06_phase_engine.md, register table "sense calibration (0x0003_1004 + 0x20·n)"
def PE_PH_CAL.CS_OFS : Field := ⟨0x31004, 0, 12, .rw, .C, 0x0, 32, 96, 0, 1⟩
def PE_PH_CAL.CS_GAIN : Field := ⟨0x31004, 16, 16, .rw, .C, 0x8000, 32, 96, 0, 1⟩
-- PE_PH_STAT: 06_phase_engine.md, register table "phase status (0x0003_1008 + 0x20·n)"
def PE_PH_STAT.STATE : Field := ⟨0x31008, 0, 2, .ro, .V, 0x0, 32, 96, 0, 1⟩
def PE_PH_STAT.FLT_IN : Field := ⟨0x31008, 2, 1, .ro, .V, 0x0, 32, 96, 0, 1⟩
def PE_PH_STAT.FLT_CODE : Field := ⟨0x31008, 4, 4, .ro, .V, 0x0, 32, 96, 0, 1⟩
def PE_PH_STAT.I_AVG : Field := ⟨0x31008, 16, 16, .ro, .V, 0x0, 32, 96, 0, 1⟩
-- PE_PH_MEAS: 06_phase_engine.md, register table "threshold and on-time (0x0003_100C + 0x20·n)"
def PE_PH_MEAS.TH : Field := ⟨0x3100C, 0, 12, .ro, .V, 0x800, 32, 96, 0, 1⟩
def PE_PH_MEAS.TON : Field := ⟨0x3100C, 16, 16, .ro, .V, 0x0, 32, 96, 0, 1⟩
-- PE_PH_CNT: 06_phase_engine.md, register table "phase counters (0x0003_1010 + 0x20·n)"
def PE_PH_CNT.TRIPS : Field := ⟨0x31010, 0, 16, .ro, .N, 0x0, 32, 96, 0, 1⟩
def PE_PH_CNT.TRUNC : Field := ⟨0x31010, 16, 16, .ro, .V, 0x0, 32, 96, 0, 1⟩

/-- Block PE, part 0 of its fields. -/
def tabPE0 : List Field := [
  PE_STAT.PEA_CAL, PE_STAT.PEB_CAL, PE_STAT.DLL_HOLD, PE_STAT.N_ACT_ALL,
  PE_STAT.GRP_RUN, PE_STAT.GRP_FAULT, PE_CTRL.DEM_TMO, PE_CTRL.STOP_T,
  PE_CTRL.FLT_FILT, PE_DIAG.OPEN_DI, PE_DIAG.IMBAL, PE_DIAG.DIAG_EN,
  PE_PH_ACT.ACT, PE_PH_TRIP.TRIP, PE_GRP_CTRL.EN, PE_GRP_CTRL.LED_EN,
  PE_GRP_CTRL.DEM_SRC, PE_GRP_CTRL.RESPACE, PE_GRP_CTRL.FLT_ACT, PE_GRP_CTRL.N_MIN,
  PE_GRP_CTRL.LOOP, PE_GRP_STAT.STATE, PE_GRP_STAT.OVS_STATE, PE_GRP_STAT.MODE,
  PE_GRP_STAT.LIMITING, PE_GRP_STAT.START_BLK, PE_GRP_STAT.N_CFG, PE_GRP_STAT.N_ACT,
  PE_GRP_STAT.FLT_CAUSE, PE_GRP_STAT.BRK_SEEN, PE_GRP_STAT.TRUNC_SEEN, PE_GRP_STAT.PHLOSS_SEEN,
  PE_GRP_STAT.WDOG_SEEN, PE_GRP_DEM.DEM, PE_GRP_DEM_MAN.DEM_MAN, PE_GRP_SCALE.CS_SCALE,
  PE_GRP_SCALE.VS_SCALE, PE_GRP_DT.DT_HL, PE_GRP_DT.DT_LH, PE_GRP_PWM.BLANK,
  PE_GRP_PWM.DMAX, PE_GRP_PWM.SLOPE, PE_GRP_OVS.OVS1, PE_GRP_OVS.OVS2,
  PE_GRP_OVR.OVR, PE_GRP_OVR.BRK_MAX, PE_GRP_RATING.I_GRP_MAX, PE_GRP_RATING.I_PH_MAX,
  PE_GRP_FLOOR.P_FLOOR, PE_GRP_FLOOR.V_FLOOR, PE_GRP_LEASE.P_LEASE, PE_GRP_LEASE.EXP_HC,
  PE_GRP_LEASE.LAPSED, PE_GRP_THERM.I_THERM, PE_GRP_CAP.CAP, PE_GRP_CAP.CAP_SRC,
  PE_GRP_CAP.CAP_MARGIN, PE_GRP_MEAS.I_GRP, PE_GRP_MEAS.V_GRP, PE_GRP_CNT.TRUNC]
/-- Block PE, part 1 of its fields. -/
def tabPE1 : List Field := [
  PE_GRP_CNT.BRAKE, PE_PH_CFG.EN, PE_PH_CFG.GRP, PE_PH_CFG.SLOT,
  PE_PH_CAL.CS_OFS, PE_PH_CAL.CS_GAIN, PE_PH_STAT.STATE, PE_PH_STAT.FLT_IN,
  PE_PH_STAT.FLT_CODE, PE_PH_STAT.I_AVG, PE_PH_MEAS.TH, PE_PH_MEAS.TON,
  PE_PH_CNT.TRIPS, PE_PH_CNT.TRUNC]
/-- Every field of block PE. -/
def tabPE : List Field := tabPE0 ++ tabPE1
/-- The fields of block PE whose reset value is not 0. -/
def nzPE : List Field := [
  PE_CTRL.DEM_TMO, PE_CTRL.STOP_T, PE_CTRL.FLT_FILT, PE_DIAG.OPEN_DI,
  PE_DIAG.IMBAL, PE_DIAG.DIAG_EN, PE_GRP_CTRL.LED_EN, PE_GRP_CTRL.RESPACE,
  PE_GRP_CTRL.N_MIN, PE_GRP_CTRL.LOOP, PE_GRP_DT.DT_HL, PE_GRP_DT.DT_LH,
  PE_GRP_PWM.BLANK, PE_GRP_PWM.DMAX, PE_GRP_OVS.OVS1, PE_GRP_OVS.OVS2,
  PE_GRP_OVR.BRK_MAX, PE_GRP_FLOOR.V_FLOOR, PE_GRP_LEASE.LAPSED, PE_GRP_THERM.I_THERM,
  PE_GRP_CAP.CAP_MARGIN, PE_PH_CAL.CS_GAIN, PE_PH_MEAS.TH]

end Sys2Proof.Machine.R
end

