-- ==== Sys2Proof/Machine/RegMap1.lean ====
section
/-! DEFINITION. The register map of blocks LE, SL, FAB, PLC, MET (R520): one `Field` per field of the
register tables of spec/, under its own register and field name; then the table of each block. The access code, the
retention class and the reset value of each are those of its row (R10, R12, R13). Reserved bits have no row: they read 0
(R7). A cell that reads "Per module", "Per build", "Per revision" or "Per slot" carries a value the model names (log 3). -/

namespace Sys2Proof.Machine.R

-- LE_CTRL: 07_loop_engine.md, register table "sample rate (0x0004_0000)"
def LE_CTRL.SRATE : Field := ⟨0x40000, 0, 2, .rw, .C, 0x2, 0, 1, 0, 1⟩
def LE_CTRL.SRATE_ACT : Field := ⟨0x40000, 2, 2, .ro, .V, 0x2, 0, 1, 0, 1⟩
def LE_CTRL.SR_STATUS : Field := ⟨0x40000, 4, 3, .ro, .V, 0x0, 0, 1, 0, 1⟩
-- LE_STAT: 07_loop_engine.md, register table "load and faults (0x0004_0004)"
def LE_STAT.K : Field := ⟨0x40004, 0, 7, .ro, .V, 0x3B, 0, 1, 0, 1⟩
def LE_STAT.LOAD_MAX : Field := ⟨0x40004, 8, 7, .ro, .V, 0x0, 0, 1, 0, 1⟩
def LE_STAT.N_EN : Field := ⟨0x40004, 16, 7, .ro, .V, 0x0, 0, 1, 0, 1⟩
def LE_STAT.OVERRUN : Field := ⟨0x40004, 24, 1, .w1c, .F, 0x0, 0, 1, 0, 1⟩
-- LE_RUN: 07_loop_engine.md, register table "loop maps (0x0004_0008, 0x0004_000C, 0x0004_0010, 0x0004_0014)"
def LE_RUN.RUN : Field := ⟨0x40008, 0, 32, .ro, .V, 0x0, 4, 2, 0, 1⟩
-- LE_HOLD: 07_loop_engine.md, register table "loop maps (0x0004_0008, 0x0004_000C, 0x0004_0010, 0x0004_0014)"
def LE_HOLD.HOLD : Field := ⟨0x40010, 0, 32, .ro, .V, 0x0, 4, 2, 0, 1⟩
-- LE_PARAM: 07_loop_engine.md, register table "parameters (0x0004_0100 + 4·k, k = 0 to 15)"
def LE_PARAM.VALUE : Field := ⟨0x40100, 0, 32, .rw, .C, 0x0, 4, 16, 0, 1⟩
-- LE_INJ_CTRL: 07_loop_engine.md, register table "injector control (0x0004_0200 + 0x20·j, j = 0, 1)"
def LE_INJ_CTRL.EN : Field := ⟨0x40200, 0, 1, .rwa, .V, 0x0, 32, 2, 0, 1⟩
def LE_INJ_CTRL.TYPE : Field := ⟨0x40200, 1, 2, .rw, .V, 0x0, 32, 2, 0, 1⟩
def LE_INJ_CTRL.POINT : Field := ⟨0x40200, 3, 1, .rw, .V, 0x0, 32, 2, 0, 1⟩
def LE_INJ_CTRL.START : Field := ⟨0x40200, 4, 1, .rw, .V, 0x0, 32, 2, 0, 1⟩
def LE_INJ_CTRL.LOOP : Field := ⟨0x40200, 8, 6, .rw, .V, 0x0, 32, 2, 0, 1⟩
def LE_INJ_CTRL.STATE : Field := ⟨0x40200, 14, 2, .ro, .V, 0x0, 32, 2, 0, 1⟩
def LE_INJ_CTRL.END : Field := ⟨0x40200, 16, 3, .ro, .V, 0x0, 32, 2, 0, 1⟩
-- LE_INJ_AMP: 07_loop_engine.md, register table "injector signal (0x0004_0204, 0x0004_0208, 0x0004_020C + 0x20·j)"
def LE_INJ_AMP.AMP : Field := ⟨0x40204, 0, 32, .rw, .V, 0x0, 32, 2, 0, 1⟩
-- LE_INJ_F0: 07_loop_engine.md, register table "injector signal (0x0004_0204, 0x0004_0208, 0x0004_020C + 0x20·j)"
def LE_INJ_F0.F0 : Field := ⟨0x40208, 0, 32, .rw, .V, 0x3F800000, 32, 2, 0, 1⟩
-- LE_INJ_F1: 07_loop_engine.md, register table "injector signal (0x0004_0204, 0x0004_0208, 0x0004_020C + 0x20·j)"
def LE_INJ_F1.F1 : Field := ⟨0x4020C, 0, 32, .rw, .V, 0x3F800000, 32, 2, 0, 1⟩
-- LE_INJ_DUR: 07_loop_engine.md, register table "duration and hold (0x0004_0210 + 0x20·j)"
def LE_INJ_DUR.DUR : Field := ⟨0x40210, 0, 24, .rw, .V, 0x0, 32, 2, 0, 1⟩
def LE_INJ_DUR.HOLD : Field := ⟨0x40210, 24, 8, .rw, .V, 0x1, 32, 2, 0, 1⟩
-- LE_INJ_STAMP_LO: 07_loop_engine.md, register table "injector start stamp (0x0004_0218 and 0x0004_021C + 0x20·j)"
def LE_INJ_STAMP_LO.STAMP : Field := ⟨0x40218, 0, 32, .rw, .V, 0x0, 32, 2, 0, 1⟩
-- LE_INJ_STAMP_HI: 07_loop_engine.md, register table "injector start stamp (0x0004_0218 and 0x0004_021C + 0x20·j)"
def LE_INJ_STAMP_HI.STAMP : Field := ⟨0x4021C, 0, 32, .rw, .V, 0x0, 32, 2, 0, 1⟩
-- LE_CAP_CTRL: 07_loop_engine.md, register table "capture control (0x0004_0300)"
def LE_CAP_CTRL.ARM : Field := ⟨0x40300, 0, 1, .wo, .V, 0x0, 0, 1, 0, 1⟩
def LE_CAP_CTRL.TRIG : Field := ⟨0x40300, 1, 2, .rw, .V, 0x0, 0, 1, 0, 1⟩
def LE_CAP_CTRL.EDGE : Field := ⟨0x40300, 3, 1, .rw, .V, 0x0, 0, 1, 0, 1⟩
def LE_CAP_CTRL.STATE : Field := ⟨0x40300, 4, 2, .ro, .V, 0x0, 0, 1, 0, 1⟩
def LE_CAP_CTRL.DEC : Field := ⟨0x40300, 16, 8, .rw, .V, 0x1, 0, 1, 0, 1⟩
-- LE_CAP_PRE: 07_loop_engine.md, register table "pre-trigger samples (0x0004_0304)"
def LE_CAP_PRE.PRE : Field := ⟨0x40304, 0, 13, .rw, .V, 0x0, 0, 1, 0, 1⟩
-- LE_CAP_SEL: 07_loop_engine.md, register table "channel sources (0x0004_0308 + 4·c, c = 0 to 3)"
def LE_CAP_SEL.SRC : Field := ⟨0x40308, 0, 16, .rw, .V, 0x0, 4, 4, 0, 1⟩
-- LE_CAP_LEVEL: 07_loop_engine.md, register table "trigger level (0x0004_0318)"
def LE_CAP_LEVEL.LEVEL : Field := ⟨0x40318, 0, 32, .rw, .V, 0x0, 0, 1, 0, 1⟩
-- LE_CAP_STAMP_LO: 07_loop_engine.md, register table "capture stamps (0x0004_031C, 0x0004_0320, 0x0004_0324, 0x0004_0328)"
def LE_CAP_STAMP_LO.STAMP : Field := ⟨0x4031C, 0, 32, .ro, .V, 0x0, 0, 1, 0, 1⟩
-- LE_CAP_STAMP_HI: 07_loop_engine.md, register table "capture stamps (0x0004_031C, 0x0004_0320, 0x0004_0324, 0x0004_0328)"
def LE_CAP_STAMP_HI.STAMP : Field := ⟨0x40320, 0, 32, .ro, .V, 0x0, 0, 1, 0, 1⟩
-- LE_CAP_TSTAMP_LO: 07_loop_engine.md, register table "capture stamps (0x0004_031C, 0x0004_0320, 0x0004_0324, 0x0004_0328)"
def LE_CAP_TSTAMP_LO.TSTAMP : Field := ⟨0x40324, 0, 32, .rw, .V, 0x0, 0, 1, 0, 1⟩
-- LE_CAP_TSTAMP_HI: 07_loop_engine.md, register table "capture stamps (0x0004_031C, 0x0004_0320, 0x0004_0324, 0x0004_0328)"
def LE_CAP_TSTAMP_HI.TSTAMP : Field := ⟨0x40328, 0, 32, .rw, .V, 0x0, 0, 1, 0, 1⟩
-- LE_CAP_ADDR: 07_loop_engine.md, register table "capture buffer (0x0004_032C and 0x0004_0330)"
def LE_CAP_ADDR.INDEX : Field := ⟨0x4032C, 0, 13, .rw, .V, 0x0, 0, 1, 0, 1⟩
def LE_CAP_ADDR.CH : Field := ⟨0x4032C, 13, 2, .rw, .V, 0x0, 0, 1, 0, 1⟩
-- LE_CAP_DATA: 07_loop_engine.md, register table "capture buffer (0x0004_032C and 0x0004_0330)"
def LE_CAP_DATA.DATA : Field := ⟨0x40330, 0, 32, .ro, .V, 0x7FC00000, 0, 1, 0, 1⟩
-- LE_FF_CTRL: 07_loop_engine.md, register table "feed-forward banks (0x0004_0400)"
def LE_FF_CTRL.SWAP : Field := ⟨0x40400, 0, 16, .wo, .V, 0x0, 0, 1, 0, 1⟩
def LE_FF_CTRL.ACT : Field := ⟨0x40400, 16, 16, .ro, .F, 0x0, 0, 1, 0, 1⟩
-- LE_FF_ADDR: 07_loop_engine.md, register table "feed-forward access (0x0004_0404 and 0x0004_0408)"
def LE_FF_ADDR.INDEX : Field := ⟨0x40404, 0, 10, .rw, .V, 0x0, 0, 1, 0, 1⟩
def LE_FF_ADDR.TABLE : Field := ⟨0x40404, 10, 4, .rw, .V, 0x0, 0, 1, 0, 1⟩
-- LE_FF_DATA: 07_loop_engine.md, register table "feed-forward access (0x0004_0404 and 0x0004_0408)"
def LE_FF_DATA.DATA : Field := ⟨0x40408, 0, 32, .rw, .C, 0x0, 0, 1, 0, 1⟩
-- LE_L_CTRL: 07_loop_engine.md, register table "loop control (0x0004_1000 + 0x80·l, l = 0 to 63)"
def LE_L_CTRL.EN : Field := ⟨0x41000, 0, 1, .rw, .C, 0x0, 128, 64, 0, 1⟩
def LE_L_CTRL.MODE : Field := ⟨0x41000, 1, 1, .rw, .C, 0x0, 128, 64, 0, 1⟩
def LE_L_CTRL.MAN_TRK : Field := ⟨0x41000, 2, 1, .rw, .C, 0x1, 128, 64, 0, 1⟩
def LE_L_CTRL.REV : Field := ⟨0x41000, 3, 1, .rw, .C, 0x0, 128, 64, 0, 1⟩
def LE_L_CTRL.INIT_SRC : Field := ⟨0x41000, 4, 1, .rw, .C, 0x0, 128, 64, 0, 1⟩
def LE_L_CTRL.SCHED_EN : Field := ⟨0x41000, 5, 1, .rw, .C, 0x0, 128, 64, 0, 1⟩
def LE_L_CTRL.GT_MODE : Field := ⟨0x41000, 6, 2, .rw, .C, 0x0, 128, 64, 0, 1⟩
def LE_L_CTRL.DIV : Field := ⟨0x41000, 8, 3, .rw, .C, 0x0, 128, 64, 0, 1⟩
def LE_L_CTRL.AW : Field := ⟨0x41000, 11, 1, .rw, .C, 0x0, 128, 64, 0, 1⟩
def LE_L_CTRL.PHS : Field := ⟨0x41000, 12, 7, .rw, .C, 0x0, 128, 64, 0, 1⟩
def LE_L_CTRL.GT_COMMIT : Field := ⟨0x41000, 19, 1, .wo, .V, 0x0, 128, 64, 0, 1⟩
def LE_L_CTRL.SET_FIX : Field := ⟨0x41000, 20, 4, .rw, .C, 0x0, 128, 64, 0, 1⟩
def LE_L_CTRL.FF_SEL : Field := ⟨0x41000, 24, 5, .rw, .C, 0x1F, 128, 64, 0, 1⟩
-- LE_L_STAT: 07_loop_engine.md, register table "loop status (0x0004_1004 + 0x80·l)"
def LE_L_STAT.STATE : Field := ⟨0x41004, 0, 3, .ro, .V, 0x0, 128, 64, 0, 1⟩
def LE_L_STAT.SLEWING : Field := ⟨0x41004, 3, 1, .ro, .V, 0x0, 128, 64, 0, 1⟩
def LE_L_STAT.SET : Field := ⟨0x41004, 4, 4, .ro, .V, 0x0, 128, 64, 0, 1⟩
def LE_L_STAT.REGION : Field := ⟨0x41004, 8, 6, .ro, .V, 0x0, 128, 64, 0, 1⟩
def LE_L_STAT.SAT_HI : Field := ⟨0x41004, 14, 1, .ro, .V, 0x0, 128, 64, 0, 1⟩
def LE_L_STAT.SAT_LO : Field := ⟨0x41004, 15, 1, .ro, .V, 0x0, 128, 64, 0, 1⟩
def LE_L_STAT.REFUSED : Field := ⟨0x41004, 16, 1, .ro, .V, 0x0, 128, 64, 0, 1⟩
def LE_L_STAT.SRC_FLT_SEEN : Field := ⟨0x41004, 17, 1, .w1c, .F, 0x0, 128, 64, 0, 1⟩
def LE_L_STAT.SAT_SEEN : Field := ⟨0x41004, 18, 1, .w1c, .F, 0x0, 128, 64, 0, 1⟩
def LE_L_STAT.SET_WR_REF : Field := ⟨0x41004, 19, 1, .w1c, .F, 0x0, 128, 64, 0, 1⟩
-- LE_L_SRC: 07_loop_engine.md, register table "sources (0x0004_1008 and 0x0004_100C + 0x80·l)"
def LE_L_SRC.SRC_Y : Field := ⟨0x41008, 0, 16, .rw, .C, 0x0, 128, 64, 0, 1⟩
def LE_L_SRC.SRC_T : Field := ⟨0x41008, 16, 16, .rw, .C, 0x0, 128, 64, 0, 1⟩
-- LE_L_SCHED: 07_loop_engine.md, register table "sources (0x0004_1008 and 0x0004_100C + 0x80·l)"
def LE_L_SCHED.SRC_S1 : Field := ⟨0x4100C, 0, 16, .rw, .C, 0x0, 128, 64, 0, 1⟩
def LE_L_SCHED.SRC_S2 : Field := ⟨0x4100C, 16, 16, .rw, .C, 0x0, 128, 64, 0, 1⟩
-- LE_L_DEST: 07_loop_engine.md, register table "consumers (0x0004_1010 + 0x80·l)"
def LE_L_DEST.LSW_CH : Field := ⟨0x41010, 0, 5, .rw, .C, 0x1F, 128, 64, 0, 1⟩
def LE_L_DEST.CONS : Field := ⟨0x41010, 8, 8, .ro, .V, 0x0, 128, 64, 0, 1⟩
-- LE_L_Y_SCALE: 07_loop_engine.md, register table "binary32 words (0x0004_1014 to 0x0004_105C + 0x80·l)"
def LE_L_Y_SCALE.Y_SCALE : Field := ⟨0x41014, 0, 32, .rw, .C, 0x3F800000, 128, 64, 0, 1⟩
-- LE_L_Y_OFS: 07_loop_engine.md, register table "binary32 words (0x0004_1014 to 0x0004_105C + 0x80·l)"
def LE_L_Y_OFS.Y_OFS : Field := ⟨0x41018, 0, 32, .rw, .C, 0x0, 128, 64, 0, 1⟩
-- LE_L_R_TGT: 07_loop_engine.md, register table "binary32 words (0x0004_1014 to 0x0004_105C + 0x80·l)"
def LE_L_R_TGT.R_TGT : Field := ⟨0x4101C, 0, 32, .rw, .C, 0x0, 128, 64, 0, 1⟩
-- LE_L_RATE: 07_loop_engine.md, register table "binary32 words (0x0004_1014 to 0x0004_105C + 0x80·l)"
def LE_L_RATE.RATE : Field := ⟨0x41020, 0, 32, .rw, .C, 0x3F800000, 128, 64, 0, 1⟩
-- LE_L_ACC: 07_loop_engine.md, register table "binary32 words (0x0004_1014 to 0x0004_105C + 0x80·l)"
def LE_L_ACC.ACC : Field := ⟨0x41024, 0, 32, .rw, .C, 0x0, 128, 64, 0, 1⟩
-- LE_L_R_INIT: 07_loop_engine.md, register table "binary32 words (0x0004_1014 to 0x0004_105C + 0x80·l)"
def LE_L_R_INIT.R_INIT : Field := ⟨0x41028, 0, 32, .rw, .C, 0x0, 128, 64, 0, 1⟩
-- LE_L_E_SPAN: 07_loop_engine.md, register table "binary32 words (0x0004_1014 to 0x0004_105C + 0x80·l)"
def LE_L_E_SPAN.E_SPAN : Field := ⟨0x4102C, 0, 32, .rw, .C, 0x3F800000, 128, 64, 0, 1⟩
-- LE_L_U_MIN: 07_loop_engine.md, register table "binary32 words (0x0004_1014 to 0x0004_105C + 0x80·l)"
def LE_L_U_MIN.U_MIN : Field := ⟨0x41030, 0, 32, .rw, .C, 0x0, 128, 64, 0, 1⟩
-- LE_L_U_MAX: 07_loop_engine.md, register table "binary32 words (0x0004_1014 to 0x0004_105C + 0x80·l)"
def LE_L_U_MAX.U_MAX : Field := ⟨0x41034, 0, 32, .rw, .C, 0x0, 128, 64, 0, 1⟩
-- LE_L_U_MAN: 07_loop_engine.md, register table "binary32 words (0x0004_1014 to 0x0004_105C + 0x80·l)"
def LE_L_U_MAN.U_MAN : Field := ⟨0x41038, 0, 32, .rw, .C, 0x0, 128, 64, 0, 1⟩
-- LE_L_KT: 07_loop_engine.md, register table "binary32 words (0x0004_1014 to 0x0004_105C + 0x80·l)"
def LE_L_KT.KT : Field := ⟨0x4103C, 0, 32, .rw, .C, 0x0, 128, 64, 0, 1⟩
-- LE_L_FF_K: 07_loop_engine.md, register table "binary32 words (0x0004_1014 to 0x0004_105C + 0x80·l)"
def LE_L_FF_K.FF_K : Field := ⟨0x41040, 0, 32, .rw, .C, 0x0, 128, 64, 0, 1⟩
-- LE_L_R: 07_loop_engine.md, register table "binary32 words (0x0004_1014 to 0x0004_105C + 0x80·l)"
def LE_L_R.R : Field := ⟨0x41048, 0, 32, .ro, .V, 0x0, 128, 64, 0, 1⟩
-- LE_L_V: 07_loop_engine.md, register table "binary32 words (0x0004_1014 to 0x0004_105C + 0x80·l)"
def LE_L_V.V : Field := ⟨0x4104C, 0, 32, .ro, .V, 0x0, 128, 64, 0, 1⟩
-- LE_L_Y: 07_loop_engine.md, register table "binary32 words (0x0004_1014 to 0x0004_105C + 0x80·l)"
def LE_L_Y.Y : Field := ⟨0x41050, 0, 32, .ro, .V, 0x0, 128, 64, 0, 1⟩
-- LE_L_E: 07_loop_engine.md, register table "binary32 words (0x0004_1014 to 0x0004_105C + 0x80·l)"
def LE_L_E.E : Field := ⟨0x41054, 0, 32, .ro, .V, 0x0, 128, 64, 0, 1⟩
-- LE_L_I: 07_loop_engine.md, register table "binary32 words (0x0004_1014 to 0x0004_105C + 0x80·l)"
def LE_L_I.I : Field := ⟨0x41058, 0, 32, .ro, .V, 0x0, 128, 64, 0, 1⟩
-- LE_L_U: 07_loop_engine.md, register table "binary32 words (0x0004_1014 to 0x0004_105C + 0x80·l)"
def LE_L_U.U : Field := ⟨0x4105C, 0, 32, .ro, .V, 0x0, 128, 64, 0, 1⟩
-- LE_L_FFOFS: 07_loop_engine.md, register table "feed-forward lead (0x0004_1044 + 0x80·l)"
def LE_L_FFOFS.FF_OFS : Field := ⟨0x41044, 0, 24, .rw, .C, 0x0, 128, 64, 0, 1⟩
-- LE_COEF_KP: 07_loop_engine.md, register table "coefficient sets (0x0004_4000 + 0x100·l + 0x10·s, s = 0 to 15)"
def LE_COEF_KP.K : Field := ⟨0x44000, 0, 32, .rw, .C, 0x0, 256, 64, 16, 16⟩
-- LE_COEF_KI: 07_loop_engine.md, register table "coefficient sets (0x0004_4000 + 0x100·l + 0x10·s, s = 0 to 15)"
def LE_COEF_KI.K : Field := ⟨0x44004, 0, 32, .rw, .C, 0x0, 256, 64, 16, 16⟩
-- LE_COEF_KD: 07_loop_engine.md, register table "coefficient sets (0x0004_4000 + 0x100·l + 0x10·s, s = 0 to 15)"
def LE_COEF_KD.K : Field := ⟨0x44008, 0, 32, .rw, .C, 0x0, 256, 64, 16, 16⟩
-- LE_COEF_TF: 07_loop_engine.md, register table "coefficient sets (0x0004_4000 + 0x100·l + 0x10·s, s = 0 to 15)"
def LE_COEF_TF.K : Field := ⟨0x4400C, 0, 32, .rw, .C, 0x0, 256, 64, 16, 16⟩
-- LE_GTAB: 07_loop_engine.md, register table "gain tables (0x0004_8000 + 0x100·l + 4·p, p = 0 to 63)"
def LE_GTAB.G : Field := ⟨0x48000, 0, 32, .rw, .C, 0x3F800000, 256, 64, 4, 64⟩
-- LE_RMAP: 07_loop_engine.md, register table "region maps (0x0004_C000 + 0x20·l + 4·w, w = 0 to 7)"
def LE_RMAP.SETS : Field := ⟨0x4C000, 0, 32, .rw, .C, 0x0, 32, 64, 4, 8⟩
-- LE_STH: 07_loop_engine.md, register table "scheduling thresholds (0x0004_C800 + 0x40·l + 4·k, k = 0 to 15)"
def LE_STH.TH : Field := ⟨0x4C800, 0, 32, .rw, .C, 0x7F800000, 64, 64, 4, 16⟩

/-- Block LE, part 0 of its fields. -/
def tabLE0 : List Field := [
  LE_CTRL.SRATE, LE_CTRL.SRATE_ACT, LE_CTRL.SR_STATUS, LE_STAT.K,
  LE_STAT.LOAD_MAX, LE_STAT.N_EN, LE_STAT.OVERRUN, LE_RUN.RUN,
  LE_HOLD.HOLD, LE_PARAM.VALUE, LE_INJ_CTRL.EN, LE_INJ_CTRL.TYPE,
  LE_INJ_CTRL.POINT, LE_INJ_CTRL.START, LE_INJ_CTRL.LOOP, LE_INJ_CTRL.STATE,
  LE_INJ_CTRL.END, LE_INJ_AMP.AMP, LE_INJ_F0.F0, LE_INJ_F1.F1,
  LE_INJ_DUR.DUR, LE_INJ_DUR.HOLD, LE_INJ_STAMP_LO.STAMP, LE_INJ_STAMP_HI.STAMP,
  LE_CAP_CTRL.ARM, LE_CAP_CTRL.TRIG, LE_CAP_CTRL.EDGE, LE_CAP_CTRL.STATE,
  LE_CAP_CTRL.DEC, LE_CAP_PRE.PRE, LE_CAP_SEL.SRC, LE_CAP_LEVEL.LEVEL,
  LE_CAP_STAMP_LO.STAMP, LE_CAP_STAMP_HI.STAMP, LE_CAP_TSTAMP_LO.TSTAMP, LE_CAP_TSTAMP_HI.TSTAMP,
  LE_CAP_ADDR.INDEX, LE_CAP_ADDR.CH, LE_CAP_DATA.DATA, LE_FF_CTRL.SWAP,
  LE_FF_CTRL.ACT, LE_FF_ADDR.INDEX, LE_FF_ADDR.TABLE, LE_FF_DATA.DATA,
  LE_L_CTRL.EN, LE_L_CTRL.MODE, LE_L_CTRL.MAN_TRK, LE_L_CTRL.REV,
  LE_L_CTRL.INIT_SRC, LE_L_CTRL.SCHED_EN, LE_L_CTRL.GT_MODE, LE_L_CTRL.DIV,
  LE_L_CTRL.AW, LE_L_CTRL.PHS, LE_L_CTRL.GT_COMMIT, LE_L_CTRL.SET_FIX,
  LE_L_CTRL.FF_SEL, LE_L_STAT.STATE, LE_L_STAT.SLEWING, LE_L_STAT.SET]
/-- Block LE, part 1 of its fields. -/
def tabLE1 : List Field := [
  LE_L_STAT.REGION, LE_L_STAT.SAT_HI, LE_L_STAT.SAT_LO, LE_L_STAT.REFUSED,
  LE_L_STAT.SRC_FLT_SEEN, LE_L_STAT.SAT_SEEN, LE_L_STAT.SET_WR_REF, LE_L_SRC.SRC_Y,
  LE_L_SRC.SRC_T, LE_L_SCHED.SRC_S1, LE_L_SCHED.SRC_S2, LE_L_DEST.LSW_CH,
  LE_L_DEST.CONS, LE_L_Y_SCALE.Y_SCALE, LE_L_Y_OFS.Y_OFS, LE_L_R_TGT.R_TGT,
  LE_L_RATE.RATE, LE_L_ACC.ACC, LE_L_R_INIT.R_INIT, LE_L_E_SPAN.E_SPAN,
  LE_L_U_MIN.U_MIN, LE_L_U_MAX.U_MAX, LE_L_U_MAN.U_MAN, LE_L_KT.KT,
  LE_L_FF_K.FF_K, LE_L_R.R, LE_L_V.V, LE_L_Y.Y,
  LE_L_E.E, LE_L_I.I, LE_L_U.U, LE_L_FFOFS.FF_OFS,
  LE_COEF_KP.K, LE_COEF_KI.K, LE_COEF_KD.K, LE_COEF_TF.K,
  LE_GTAB.G, LE_RMAP.SETS, LE_STH.TH]
/-- Every field of block LE. -/
def tabLE : List Field := tabLE0 ++ tabLE1
/-- The fields of block LE whose reset value is not 0. -/
def nzLE : List Field := [
  LE_CTRL.SRATE, LE_CTRL.SRATE_ACT, LE_STAT.K, LE_INJ_F0.F0,
  LE_INJ_F1.F1, LE_INJ_DUR.HOLD, LE_CAP_CTRL.DEC, LE_CAP_DATA.DATA,
  LE_L_CTRL.MAN_TRK, LE_L_CTRL.FF_SEL, LE_L_DEST.LSW_CH, LE_L_Y_SCALE.Y_SCALE,
  LE_L_RATE.RATE, LE_L_E_SPAN.E_SPAN, LE_GTAB.G, LE_STH.TH]

-- SL_STAT: 09_share_ledger.md, register table "ledger state (0x0005_0000)"
def SL_STAT.PART : Field := ⟨0x50000, 0, 2, .ro, .V, 0x0, 0, 1, 0, 1⟩
def SL_STAT.ROOT_STATE : Field := ⟨0x50000, 2, 2, .ro, .V, 0x0, 0, 1, 0, 1⟩
def SL_STAT.QUORUM : Field := ⟨0x50000, 4, 1, .ro, .V, 0x0, 0, 1, 0, 1⟩
def SL_STAT.ACCEPT : Field := ⟨0x50000, 5, 1, .ro, .V, 0x0, 0, 1, 0, 1⟩
def SL_STAT.LAPSED : Field := ⟨0x50000, 6, 1, .ro, .V, 0x1, 0, 1, 0, 1⟩
def SL_STAT.PLEDGED : Field := ⟨0x50000, 7, 1, .ro, .V, 0x0, 0, 1, 0, 1⟩
def SL_STAT.REJ_SEEN : Field := ⟨0x50000, 16, 1, .w1c, .F, 0x0, 0, 1, 0, 1⟩
def SL_STAT.CUT_SEEN : Field := ⟨0x50000, 17, 1, .w1c, .F, 0x0, 0, 1, 0, 1⟩
def SL_STAT.FLOOR_FLT : Field := ⟨0x50000, 18, 1, .w1c, .F, 0x0, 0, 1, 0, 1⟩
def SL_STAT.OVER_SEEN : Field := ⟨0x50000, 19, 1, .w1c, .F, 0x0, 0, 1, 0, 1⟩
-- SL_CFG: 09_share_ledger.md, register table "module ledger settings (0x0005_0004)"
def SL_CFG.CLASS : Field := ⟨0x50004, 0, 2, .rw, .C, 0x1, 0, 1, 0, 1⟩
def SL_CFG.SESS_CLASS : Field := ⟨0x50004, 2, 2, .rw, .C, 0x2, 0, 1, 0, 1⟩
def SL_CFG.WEIGHT : Field := ⟨0x50004, 4, 8, .rw, .C, 0x1, 0, 1, 0, 1⟩
def SL_CFG.REQ_SRC : Field := ⟨0x50004, 12, 1, .rw, .C, 0x0, 0, 1, 0, 1⟩
def SL_CFG.PLEDGE_EN : Field := ⟨0x50004, 13, 1, .rwa, .C, 0x0, 0, 1, 0, 1⟩
def SL_CFG.LIFE : Field := ⟨0x50004, 16, 5, .ro, .C, 0x3, 0, 1, 0, 1⟩
def SL_CFG.PLEDGE_PARAM : Field := ⟨0x50004, 24, 4, .rw, .C, 0x0, 0, 1, 0, 1⟩
-- SL_SITE: 09_share_ledger.md, register table "site limit (0x0005_0008)"
def SL_SITE.SITE_LIM : Field := ⟨0x50008, 0, 24, .ro, .C, 0x0, 0, 1, 0, 1⟩
-- SL_LIMDYN: 09_share_ledger.md, register table "dynamic limit (0x0005_000C)"
def SL_LIMDYN.LIM_DYN : Field := ⟨0x5000C, 0, 24, .rwa, .C, 0xFFFFFF, 0, 1, 0, 1⟩
-- SL_FLOOR: 09_share_ledger.md, register table "floors (0x0005_0010)"
def SL_FLOOR.FLOOR : Field := ⟨0x50010, 0, 16, .ro, .C, 0x0, 0, 1, 0, 1⟩
-- SL_FLOOR_SUM: 09_share_ledger.md, register table "roster floors (0x0005_0054)"
def SL_FLOOR_SUM.FLOOR_SUM : Field := ⟨0x50054, 0, 24, .ro, .C, 0x0, 0, 1, 0, 1⟩
-- SL_LEASE: 09_share_ledger.md, register table "lease in force (0x0005_0014)"
def SL_LEASE.LEASE : Field := ⟨0x50014, 0, 16, .ro, .V, 0x0, 0, 1, 0, 1⟩
def SL_LEASE.EXP_HC : Field := ⟨0x50014, 16, 6, .ro, .V, 0x0, 0, 1, 0, 1⟩
def SL_LEASE.SEQ : Field := ⟨0x50014, 24, 8, .ro, .V, 0x0, 0, 1, 0, 1⟩
-- SL_GEN: 09_share_ledger.md, register table "generations (0x0005_0018)"
def SL_GEN.GEN_ACC : Field := ⟨0x50018, 0, 16, .ro, .V, 0x0, 0, 1, 0, 1⟩
def SL_GEN.GEN_OWN : Field := ⟨0x50018, 16, 16, .ro, .N, 0x0, 0, 1, 0, 1⟩
-- SL_REQ: 09_share_ledger.md, register table "request (0x0005_001C)"
def SL_REQ.REQ : Field := ⟨0x5001C, 0, 16, .ro, .V, 0x0, 0, 1, 0, 1⟩
def SL_REQ.REQ_MAN : Field := ⟨0x5001C, 16, 16, .rw, .C, 0x0, 0, 1, 0, 1⟩
-- SL_DRAW: 09_share_ledger.md, register table "draw and pledge (0x0005_0020)"
def SL_DRAW.DRAW : Field := ⟨0x50020, 0, 16, .ro, .V, 0x0, 0, 1, 0, 1⟩
def SL_DRAW.PLEDGE : Field := ⟨0x50020, 16, 16, .ro, .V, 0x0, 0, 1, 0, 1⟩
-- SL_TUNE: 09_share_ledger.md, register table "margins and timers (0x0005_0024)"
def SL_TUNE.REQ_MARGIN : Field := ⟨0x50024, 0, 8, .rw, .C, 0x32, 0, 1, 0, 1⟩
def SL_TUNE.Q_TMO : Field := ⟨0x50024, 8, 8, .ro, .C, 0x28, 0, 1, 0, 1⟩
def SL_TUNE.RAMP_UP : Field := ⟨0x50024, 16, 16, .ro, .C, 0x3E8, 0, 1, 0, 1⟩
-- SL_CUT: 09_share_ledger.md, register table "last cut (0x0005_0028)"
def SL_CUT.CUT_F : Field := ⟨0x50028, 0, 16, .ro, .V, 0x0, 0, 1, 0, 1⟩
def SL_CUT.CUT_ACT : Field := ⟨0x50028, 16, 1, .ro, .V, 0x0, 0, 1, 0, 1⟩
-- SL_ROOT_POOL: 09_share_ledger.md, register table "root accounts (0x0005_0040 and 0x0005_0044)"
def SL_ROOT_POOL.POOL : Field := ⟨0x50040, 0, 24, .ro, .V, 0x0, 0, 1, 0, 1⟩
-- SL_ROOT_COMMIT: 09_share_ledger.md, register table "root accounts (0x0005_0040 and 0x0005_0044)"
def SL_ROOT_COMMIT.COMMIT : Field := ⟨0x50044, 0, 24, .ro, .V, 0x0, 0, 1, 0, 1⟩
-- SL_ROOT_CNT: 09_share_ledger.md, register table "quorum count (0x0005_0048)"
def SL_ROOT_CNT.PRESENT : Field := ⟨0x50048, 0, 13, .ro, .V, 0x0, 0, 1, 0, 1⟩
def SL_ROOT_CNT.ROSTER_N : Field := ⟨0x50048, 16, 13, .ro, .C, 0x0, 0, 1, 0, 1⟩
-- SL_ROOT_WAIT: 09_share_ledger.md, register table "wait time left (0x0005_004C)"
def SL_ROOT_WAIT.WAIT_MS : Field := ⟨0x5004C, 0, 16, .ro, .V, 0x0, 0, 1, 0, 1⟩
-- SL_ROOT_DRAW: 09_share_ledger.md, register table "reported draws (0x0005_0050)"
def SL_ROOT_DRAW.DRAW_SUM : Field := ⟨0x50050, 0, 24, .ro, .V, 0x0, 0, 1, 0, 1⟩
-- SL_CNT: 09_share_ledger.md, register table "grant counters (0x0005_0060)"
def SL_CNT.ACCEPTED : Field := ⟨0x50060, 0, 16, .ro, .V, 0x0, 0, 1, 0, 1⟩
def SL_CNT.REJECTED : Field := ⟨0x50060, 16, 16, .ro, .V, 0x0, 0, 1, 0, 1⟩
-- SL_ROSTER_ADDR: 09_share_ledger.md, register table "roster (0x0005_0100 and 0x0005_0104)"
def SL_ROSTER_ADDR.INDEX : Field := ⟨0x50100, 0, 12, .rw, .V, 0x0, 0, 1, 0, 1⟩
def SL_ROSTER_ADDR.WORD : Field := ⟨0x50100, 12, 2, .rw, .V, 0x0, 0, 1, 0, 1⟩
-- SL_ROSTER_DATA: 09_share_ledger.md, register table "roster (0x0005_0100 and 0x0005_0104)"
def SL_ROSTER_DATA.DATA : Field := ⟨0x50104, 0, 32, .ro, .C, 0x0, 0, 1, 0, 1⟩
-- SL_HOLD_ADDR: 09_share_ledger.md, register table "root's holder table (0x0005_0110 and 0x0005_0114)"
def SL_HOLD_ADDR.NODE : Field := ⟨0x50110, 0, 12, .rw, .V, 0x0, 0, 1, 0, 1⟩
def SL_HOLD_ADDR.WORD : Field := ⟨0x50110, 12, 2, .rw, .V, 0x0, 0, 1, 0, 1⟩
-- SL_HOLD_DATA: 09_share_ledger.md, register table "root's holder table (0x0005_0110 and 0x0005_0114)"
def SL_HOLD_DATA.DATA : Field := ⟨0x50114, 0, 32, .ro, .V, 0x0, 0, 1, 0, 1⟩

/-- Block SL, part 0 of its fields. -/
def tabSL0 : List Field := [
  SL_STAT.PART, SL_STAT.ROOT_STATE, SL_STAT.QUORUM, SL_STAT.ACCEPT,
  SL_STAT.LAPSED, SL_STAT.PLEDGED, SL_STAT.REJ_SEEN, SL_STAT.CUT_SEEN,
  SL_STAT.FLOOR_FLT, SL_STAT.OVER_SEEN, SL_CFG.CLASS, SL_CFG.SESS_CLASS,
  SL_CFG.WEIGHT, SL_CFG.REQ_SRC, SL_CFG.PLEDGE_EN, SL_CFG.LIFE,
  SL_CFG.PLEDGE_PARAM, SL_SITE.SITE_LIM, SL_LIMDYN.LIM_DYN, SL_FLOOR.FLOOR,
  SL_FLOOR_SUM.FLOOR_SUM, SL_LEASE.LEASE, SL_LEASE.EXP_HC, SL_LEASE.SEQ,
  SL_GEN.GEN_ACC, SL_GEN.GEN_OWN, SL_REQ.REQ, SL_REQ.REQ_MAN,
  SL_DRAW.DRAW, SL_DRAW.PLEDGE, SL_TUNE.REQ_MARGIN, SL_TUNE.Q_TMO,
  SL_TUNE.RAMP_UP, SL_CUT.CUT_F, SL_CUT.CUT_ACT, SL_ROOT_POOL.POOL,
  SL_ROOT_COMMIT.COMMIT, SL_ROOT_CNT.PRESENT, SL_ROOT_CNT.ROSTER_N, SL_ROOT_WAIT.WAIT_MS,
  SL_ROOT_DRAW.DRAW_SUM, SL_CNT.ACCEPTED, SL_CNT.REJECTED, SL_ROSTER_ADDR.INDEX,
  SL_ROSTER_ADDR.WORD, SL_ROSTER_DATA.DATA, SL_HOLD_ADDR.NODE, SL_HOLD_ADDR.WORD,
  SL_HOLD_DATA.DATA]
/-- Every field of block SL. -/
def tabSL : List Field := tabSL0
/-- The fields of block SL whose reset value is not 0. -/
def nzSL : List Field := [
  SL_STAT.LAPSED, SL_CFG.CLASS, SL_CFG.SESS_CLASS, SL_CFG.WEIGHT,
  SL_CFG.LIFE, SL_LIMDYN.LIM_DYN, SL_TUNE.REQ_MARGIN, SL_TUNE.Q_TMO,
  SL_TUNE.RAMP_UP]

-- FAB_STAT: 08_fabric.md, register table "fabric state (0x0006_0000)"
def FAB_STAT.STATE : Field := ⟨0x60000, 0, 3, .ro, .V, 0x0, 0, 1, 0, 1⟩
def FAB_STAT.ROOT : Field := ⟨0x60000, 3, 1, .ro, .V, 0x0, 0, 1, 0, 1⟩
def FAB_STAT.NODE_ID : Field := ⟨0x60000, 4, 12, .ro, .V, 0x0, 0, 1, 0, 1⟩
def FAB_STAT.LEVEL : Field := ⟨0x60000, 16, 5, .ro, .V, 0x0, 0, 1, 0, 1⟩
def FAB_STAT.EPOCH : Field := ⟨0x60000, 24, 8, .ro, .V, 0x0, 0, 1, 0, 1⟩
-- FAB_CTRL: 08_fabric.md, register table "lanes and candidacy (0x0006_0004)"
def FAB_CTRL.LANE_EN : Field := ⟨0x60004, 0, 8, .rw, .C, 0xFF, 0, 1, 0, 1⟩
def FAB_CTRL.PLC_EN : Field := ⟨0x60004, 8, 1, .rw, .C, 0x1, 0, 1, 0, 1⟩
def FAB_CTRL.ROOT_EN : Field := ⟨0x60004, 9, 1, .rwa, .C, 0x1, 0, 1, 0, 1⟩
def FAB_CTRL.PRIO : Field := ⟨0x60004, 16, 8, .rwa, .C, 0x80, 0, 1, 0, 1⟩
-- FAB_STICKY: 08_fabric.md, register table "remembered node ID (0x0006_0008)"
def FAB_STICKY.STICKY_ID : Field := ⟨0x60008, 0, 12, .ro, .N, 0x0, 0, 1, 0, 1⟩
-- FAB_TIMERS: 08_fabric.md, register table "election and epoch timers (0x0006_0010)"
def FAB_TIMERS.ROOT_TMO : Field := ⟨0x60010, 0, 8, .rw, .C, 0x4, 0, 1, 0, 1⟩
def FAB_TIMERS.ELECT_HOLD : Field := ⟨0x60010, 8, 8, .rw, .C, 0x2, 0, 1, 0, 1⟩
def FAB_TIMERS.EPOCH_MIN : Field := ⟨0x60010, 16, 8, .rw, .C, 0xA, 0, 1, 0, 1⟩
def FAB_TIMERS.DRAIN_T : Field := ⟨0x60010, 24, 8, .rw, .C, 0x5, 0, 1, 0, 1⟩
-- FAB_TIMERS2: 08_fabric.md, register table "stall, damping and ID hold (0x0006_0014)"
def FAB_TIMERS2.STALL_T : Field := ⟨0x60014, 0, 8, .rw, .C, 0xA, 0, 1, 0, 1⟩
def FAB_TIMERS2.LINK_HOLD : Field := ⟨0x60014, 8, 8, .rw, .C, 0xA, 0, 1, 0, 1⟩
def FAB_TIMERS2.ID_HOLD : Field := ⟨0x60014, 16, 16, .rw, .C, 0x258, 0, 1, 0, 1⟩
-- FAB_LA_CFG: 08_fabric.md, register table "launched-action queue (0x0006_0018)"
def FAB_LA_CFG.LA_AHEAD : Field := ⟨0x60018, 0, 16, .rw, .C, 0xFFFF, 0, 1, 0, 1⟩
def FAB_LA_CFG.LA_QUSE : Field := ⟨0x60018, 16, 7, .ro, .V, 0x0, 0, 1, 0, 1⟩
-- FAB_LA_CNT: 08_fabric.md, register table "launched-action counters (0x0006_001C)"
def FAB_LA_CNT.EXEC : Field := ⟨0x6001C, 0, 16, .ro, .V, 0x0, 0, 1, 0, 1⟩
def FAB_LA_CNT.REFUSED : Field := ⟨0x6001C, 16, 16, .ro, .V, 0x0, 0, 1, 0, 1⟩
-- FAB_KEY: 08_fabric.md, register table "election keys (0x0006_0020)"
def FAB_KEY.ROOT_CLASS : Field := ⟨0x60020, 0, 2, .ro, .V, 0x0, 0, 1, 0, 1⟩
def FAB_KEY.ROOT_PRIO : Field := ⟨0x60020, 8, 8, .ro, .V, 0x0, 0, 1, 0, 1⟩
def FAB_KEY.OWN_CLASS : Field := ⟨0x60020, 16, 2, .ro, .V, 0x0, 0, 1, 0, 1⟩
-- FAB_ROOT_SER_LO: 08_fabric.md, register table "root serial number (0x0006_0024 and 0x0006_0028)"
def FAB_ROOT_SER_LO.SERIAL : Field := ⟨0x60024, 0, 32, .ro, .V, 0x0, 0, 1, 0, 1⟩
-- FAB_ROOT_SER_HI: 08_fabric.md, register table "root serial number (0x0006_0024 and 0x0006_0028)"
def FAB_ROOT_SER_HI.SERIAL : Field := ⟨0x60028, 0, 32, .ro, .V, 0x0, 0, 1, 0, 1⟩
-- FAB_GRP: 08_fabric.md, register table "site groups (0x0006_0040 + 4·k, k = 0 to 7)"
def FAB_GRP.GRP_A : Field := ⟨0x60040, 0, 11, .rw, .C, 0x0, 4, 8, 0, 1⟩
def FAB_GRP.EN_A : Field := ⟨0x60040, 15, 1, .rw, .C, 0x0, 4, 8, 0, 1⟩
def FAB_GRP.GRP_B : Field := ⟨0x60040, 16, 11, .rw, .C, 0x0, 4, 8, 0, 1⟩
def FAB_GRP.EN_B : Field := ⟨0x60040, 31, 1, .rw, .C, 0x0, 4, 8, 0, 1⟩
-- FAB_DROP0: 08_fabric.md, register table "discard counters (0x0006_0060 and 0x0006_0064)"
def FAB_DROP0.STALL : Field := ⟨0x60060, 0, 8, .ro, .V, 0x0, 0, 1, 0, 1⟩
def FAB_DROP0.EPOCH : Field := ⟨0x60060, 8, 8, .ro, .V, 0x0, 0, 1, 0, 1⟩
def FAB_DROP0.UNREACH : Field := ⟨0x60060, 16, 8, .ro, .V, 0x0, 0, 1, 0, 1⟩
def FAB_DROP0.HOPORI : Field := ⟨0x60060, 24, 8, .ro, .V, 0x0, 0, 1, 0, 1⟩
-- FAB_DROP1: 08_fabric.md, register table "discard counters (0x0006_0060 and 0x0006_0064)"
def FAB_DROP1.RSP_DROP : Field := ⟨0x60064, 0, 16, .ro, .V, 0x0, 0, 1, 0, 1⟩
def FAB_DROP1.URG_DEMOTE : Field := ⟨0x60064, 16, 16, .ro, .V, 0x0, 0, 1, 0, 1⟩
-- FAB_WAKE: 08_fabric.md, register table "wake and reset commands (0x0006_0068)"
def FAB_WAKE.WAKE_TX : Field := ⟨0x60068, 0, 8, .wo, .V, 0x0, 0, 1, 0, 1⟩
def FAB_WAKE.REJ : Field := ⟨0x60068, 16, 16, .ro, .V, 0x0, 0, 1, 0, 1⟩
-- FAB_FWD_ADDR: 08_fabric.md, register table "forwarding table (0x0006_0080 and 0x0006_0084)"
def FAB_FWD_ADDR.NODE : Field := ⟨0x60080, 0, 12, .rw, .V, 0x0, 0, 1, 0, 1⟩
def FAB_FWD_ADDR.BANK : Field := ⟨0x60080, 12, 1, .rw, .V, 0x0, 0, 1, 0, 1⟩
-- FAB_FWD_DATA: 08_fabric.md, register table "forwarding table (0x0006_0080 and 0x0006_0084)"
def FAB_FWD_DATA.PRI : Field := ⟨0x60084, 0, 4, .ro, .V, 0xF, 0, 1, 0, 1⟩
def FAB_FWD_DATA.ALT : Field := ⟨0x60084, 4, 4, .ro, .V, 0xF, 0, 1, 0, 1⟩
def FAB_FWD_DATA.HOPS : Field := ⟨0x60084, 8, 5, .ro, .V, 0x0, 0, 1, 0, 1⟩
def FAB_FWD_DATA.DEFAULT : Field := ⟨0x60084, 13, 1, .ro, .V, 0x1, 0, 1, 0, 1⟩
-- FAB_LANE_STAT: 08_fabric.md, register table "lane state (0x0006_0100 + 0x20·n, n = 0 to 7)"
def FAB_LANE_STAT.STATE : Field := ⟨0x60100, 0, 2, .ro, .V, 0x0, 32, 8, 0, 1⟩
def FAB_LANE_STAT.DIR : Field := ⟨0x60100, 2, 2, .ro, .V, 0x0, 32, 8, 0, 1⟩
def FAB_LANE_STAT.TPARENT : Field := ⟨0x60100, 4, 1, .ro, .V, 0x0, 32, 8, 0, 1⟩
def FAB_LANE_STAT.LOS : Field := ⟨0x60100, 5, 1, .ro, .V, 0x0, 32, 8, 0, 1⟩
def FAB_LANE_STAT.NBR_ID : Field := ⟨0x60100, 8, 12, .ro, .V, 0x0, 32, 8, 0, 1⟩
def FAB_LANE_STAT.DOWN_SEEN : Field := ⟨0x60100, 24, 1, .w1c, .F, 0x0, 32, 8, 0, 1⟩
-- FAB_LANE_DLY: 08_fabric.md, register table "measured delay (0x0006_0104 + 0x20·n)"
def FAB_LANE_DLY.DLY : Field := ⟨0x60104, 0, 20, .ro, .V, 0x0, 32, 8, 0, 1⟩
-- FAB_LANE_ASYM: 08_fabric.md, register table "asymmetry correction (0x0006_0108 + 0x20·n)"
def FAB_LANE_ASYM.ASYM : Field := ⟨0x60108, 0, 16, .rw, .C, 0x0, 32, 8, 0, 1⟩
-- FAB_LANE_ERR: 08_fabric.md, register table "lane error counters (0x0006_010C + 0x20·n)"
def FAB_LANE_ERR.CRC : Field := ⟨0x6010C, 0, 16, .ro, .V, 0x0, 32, 8, 0, 1⟩
def FAB_LANE_ERR.REPLAY : Field := ⟨0x6010C, 16, 16, .ro, .V, 0x0, 32, 8, 0, 1⟩
-- FAB_LANE_NBR_LO: 08_fabric.md, register table "neighbour serial number (0x0006_0110 and 0x0006_0114 + 0x20·n)"
def FAB_LANE_NBR_LO.SERIAL : Field := ⟨0x60110, 0, 32, .ro, .V, 0x0, 32, 8, 0, 1⟩
-- FAB_LANE_NBR_HI: 08_fabric.md, register table "neighbour serial number (0x0006_0110 and 0x0006_0114 + 0x20·n)"
def FAB_LANE_NBR_HI.SERIAL : Field := ⟨0x60114, 0, 32, .ro, .V, 0x0, 32, 8, 0, 1⟩

/-- Block FAB, part 0 of its fields. -/
def tabFAB0 : List Field := [
  FAB_STAT.STATE, FAB_STAT.ROOT, FAB_STAT.NODE_ID, FAB_STAT.LEVEL,
  FAB_STAT.EPOCH, FAB_CTRL.LANE_EN, FAB_CTRL.PLC_EN, FAB_CTRL.ROOT_EN,
  FAB_CTRL.PRIO, FAB_STICKY.STICKY_ID, FAB_TIMERS.ROOT_TMO, FAB_TIMERS.ELECT_HOLD,
  FAB_TIMERS.EPOCH_MIN, FAB_TIMERS.DRAIN_T, FAB_TIMERS2.STALL_T, FAB_TIMERS2.LINK_HOLD,
  FAB_TIMERS2.ID_HOLD, FAB_LA_CFG.LA_AHEAD, FAB_LA_CFG.LA_QUSE, FAB_LA_CNT.EXEC,
  FAB_LA_CNT.REFUSED, FAB_KEY.ROOT_CLASS, FAB_KEY.ROOT_PRIO, FAB_KEY.OWN_CLASS,
  FAB_ROOT_SER_LO.SERIAL, FAB_ROOT_SER_HI.SERIAL, FAB_GRP.GRP_A, FAB_GRP.EN_A,
  FAB_GRP.GRP_B, FAB_GRP.EN_B, FAB_DROP0.STALL, FAB_DROP0.EPOCH,
  FAB_DROP0.UNREACH, FAB_DROP0.HOPORI, FAB_DROP1.RSP_DROP, FAB_DROP1.URG_DEMOTE,
  FAB_WAKE.WAKE_TX, FAB_WAKE.REJ, FAB_FWD_ADDR.NODE, FAB_FWD_ADDR.BANK,
  FAB_FWD_DATA.PRI, FAB_FWD_DATA.ALT, FAB_FWD_DATA.HOPS, FAB_FWD_DATA.DEFAULT,
  FAB_LANE_STAT.STATE, FAB_LANE_STAT.DIR, FAB_LANE_STAT.TPARENT, FAB_LANE_STAT.LOS,
  FAB_LANE_STAT.NBR_ID, FAB_LANE_STAT.DOWN_SEEN, FAB_LANE_DLY.DLY, FAB_LANE_ASYM.ASYM,
  FAB_LANE_ERR.CRC, FAB_LANE_ERR.REPLAY, FAB_LANE_NBR_LO.SERIAL, FAB_LANE_NBR_HI.SERIAL]
/-- Every field of block FAB. -/
def tabFAB : List Field := tabFAB0
/-- The fields of block FAB whose reset value is not 0. -/
def nzFAB : List Field := [
  FAB_CTRL.LANE_EN, FAB_CTRL.PLC_EN, FAB_CTRL.ROOT_EN, FAB_CTRL.PRIO,
  FAB_TIMERS.ROOT_TMO, FAB_TIMERS.ELECT_HOLD, FAB_TIMERS.EPOCH_MIN, FAB_TIMERS.DRAIN_T,
  FAB_TIMERS2.STALL_T, FAB_TIMERS2.LINK_HOLD, FAB_TIMERS2.ID_HOLD, FAB_LA_CFG.LA_AHEAD,
  FAB_FWD_DATA.PRI, FAB_FWD_DATA.ALT, FAB_FWD_DATA.DEFAULT]

-- PLC_STAT: 10_powerline.md, register table "channel state (0x0007_0000)"
def PLC_STAT.STATE : Field := ⟨0x70000, 0, 3, .ro, .V, 0x0, 0, 1, 0, 1⟩
def PLC_STAT.STN : Field := ⟨0x70000, 4, 6, .ro, .V, 0x3F, 0, 1, 0, 1⟩
def PLC_STAT.NSTN : Field := ⟨0x70000, 10, 6, .ro, .V, 0x0, 0, 1, 0, 1⟩
def PLC_STAT.TIME_SRC : Field := ⟨0x70000, 16, 1, .ro, .V, 0x0, 0, 1, 0, 1⟩
def PLC_STAT.BCN_SEEN : Field := ⟨0x70000, 20, 1, .w1c, .F, 0x0, 0, 1, 0, 1⟩
def PLC_STAT.DEGR_SEEN : Field := ⟨0x70000, 21, 1, .w1c, .F, 0x0, 0, 1, 0, 1⟩
def PLC_STAT.ABS_SEEN : Field := ⟨0x70000, 22, 1, .w1c, .F, 0x0, 0, 1, 0, 1⟩
-- PLC_CTRL: 10_powerline.md, register table "channel settings (0x0007_0004)"
def PLC_CTRL.EN : Field := ⟨0x70004, 0, 1, .rw, .C, 0x0, 0, 1, 0, 1⟩
def PLC_CTRL.ROBUST_ONLY : Field := ⟨0x70004, 1, 1, .rw, .C, 0x0, 0, 1, 0, 1⟩
def PLC_CTRL.RETRY : Field := ⟨0x70004, 2, 2, .rw, .C, 0x3, 0, 1, 0, 1⟩
def PLC_CTRL.PRIO : Field := ⟨0x70004, 8, 8, .rwa, .C, 0x80, 0, 1, 0, 1⟩
def PLC_CTRL.TXATT : Field := ⟨0x70004, 16, 5, .rw, .C, 0x0, 0, 1, 0, 1⟩
def PLC_CTRL.IMP_TH : Field := ⟨0x70004, 24, 5, .rw, .C, 0xA, 0, 1, 0, 1⟩
-- PLC_COORD_SER_LO: 10_powerline.md, register table "coordinator serial number (0x0007_0008 and 0x0007_000C)"
def PLC_COORD_SER_LO.SERIAL : Field := ⟨0x70008, 0, 32, .ro, .V, 0x0, 0, 1, 0, 1⟩
-- PLC_COORD_SER_HI: 10_powerline.md, register table "coordinator serial number (0x0007_0008 and 0x0007_000C)"
def PLC_COORD_SER_HI.SERIAL : Field := ⟨0x7000C, 0, 32, .ro, .V, 0x0, 0, 1, 0, 1⟩
-- PLC_BEACON: 10_powerline.md, register table "beacon state (0x0007_0010)"
def PLC_BEACON.BPC : Field := ⟨0x70010, 0, 16, .ro, .V, 0x0, 0, 1, 0, 1⟩
def PLC_BEACON.MISSED : Field := ⟨0x70010, 16, 2, .ro, .V, 0x0, 0, 1, 0, 1⟩
def PLC_BEACON.SCHED_VER : Field := ⟨0x70010, 24, 8, .ro, .V, 0x0, 0, 1, 0, 1⟩
-- PLC_DLY: 10_powerline.md, register table "delay to the coordinator (0x0007_0014)"
def PLC_DLY.DLY : Field := ⟨0x70014, 0, 20, .ro, .V, 0x0, 0, 1, 0, 1⟩
-- PLC_ASYM: 10_powerline.md, register table "asymmetry correction (0x0007_0018)"
def PLC_ASYM.PL_ASYM : Field := ⟨0x70018, 0, 16, .rw, .C, 0x0, 0, 1, 0, 1⟩
-- PLC_CNT0: 10_powerline.md, register table "counters (0x0007_0020, 0x0007_0024, 0x0007_0028)"
def PLC_CNT0.SEG_FAIL : Field := ⟨0x70020, 0, 16, .ro, .V, 0x0, 0, 1, 0, 1⟩
def PLC_CNT0.RETX : Field := ⟨0x70020, 16, 16, .ro, .V, 0x0, 0, 1, 0, 1⟩
-- PLC_CNT1: 10_powerline.md, register table "counters (0x0007_0020, 0x0007_0024, 0x0007_0028)"
def PLC_CNT1.IMP : Field := ⟨0x70024, 0, 16, .ro, .V, 0x0, 0, 1, 0, 1⟩
def PLC_CNT1.DROP : Field := ⟨0x70024, 16, 16, .ro, .V, 0x0, 0, 1, 0, 1⟩
-- PLC_CNT2: 10_powerline.md, register table "counters (0x0007_0020, 0x0007_0024, 0x0007_0028)"
def PLC_CNT2.BCN_LOST : Field := ⟨0x70028, 0, 16, .ro, .V, 0x0, 0, 1, 0, 1⟩
def PLC_CNT2.TMAP_REF : Field := ⟨0x70028, 16, 16, .ro, .V, 0x0, 0, 1, 0, 1⟩
-- PLC_NOTCH: 10_powerline.md, register table "notched carriers (0x0007_0040 + 4·w, w = 0 to 36)"
def PLC_NOTCH.MASK : Field := ⟨0x70040, 0, 32, .rw, .C, 0x0, 4, 37, 0, 1⟩
-- PLC_NBR_ADDR: 10_powerline.md, register table "station table (0x0007_0100 and 0x0007_0104)"
def PLC_NBR_ADDR.STN : Field := ⟨0x70100, 0, 6, .rw, .V, 0x0, 0, 1, 0, 1⟩
def PLC_NBR_ADDR.WORD : Field := ⟨0x70100, 6, 2, .rw, .V, 0x0, 0, 1, 0, 1⟩
-- PLC_NBR_DATA: 10_powerline.md, register table "station table (0x0007_0100 and 0x0007_0104)"
def PLC_NBR_DATA.DATA : Field := ⟨0x70104, 0, 32, .ro, .V, 0x0, 0, 1, 0, 1⟩

/-- Block PLC, part 0 of its fields. -/
def tabPLC0 : List Field := [
  PLC_STAT.STATE, PLC_STAT.STN, PLC_STAT.NSTN, PLC_STAT.TIME_SRC,
  PLC_STAT.BCN_SEEN, PLC_STAT.DEGR_SEEN, PLC_STAT.ABS_SEEN, PLC_CTRL.EN,
  PLC_CTRL.ROBUST_ONLY, PLC_CTRL.RETRY, PLC_CTRL.PRIO, PLC_CTRL.TXATT,
  PLC_CTRL.IMP_TH, PLC_COORD_SER_LO.SERIAL, PLC_COORD_SER_HI.SERIAL, PLC_BEACON.BPC,
  PLC_BEACON.MISSED, PLC_BEACON.SCHED_VER, PLC_DLY.DLY, PLC_ASYM.PL_ASYM,
  PLC_CNT0.SEG_FAIL, PLC_CNT0.RETX, PLC_CNT1.IMP, PLC_CNT1.DROP,
  PLC_CNT2.BCN_LOST, PLC_CNT2.TMAP_REF, PLC_NOTCH.MASK, PLC_NBR_ADDR.STN,
  PLC_NBR_ADDR.WORD, PLC_NBR_DATA.DATA]
/-- Every field of block PLC. -/
def tabPLC : List Field := tabPLC0
/-- The fields of block PLC whose reset value is not 0. -/
def nzPLC : List Field := [
  PLC_STAT.STN, PLC_CTRL.RETRY, PLC_CTRL.PRIO, PLC_CTRL.IMP_TH]

-- MET_STAT: 11_metrology.md, register table "metrology state (0x0008_0000)"
def MET_STAT.ACC : Field := ⟨0x80000, 0, 1, .ro, .V, 0x0, 0, 1, 0, 1⟩
def MET_STAT.SEALED : Field := ⟨0x80000, 1, 1, .ro, .N, 0x0, 0, 1, 0, 1⟩
def MET_STAT.STAMPS : Field := ⟨0x80000, 2, 1, .ro, .V, 0x0, 0, 1, 0, 1⟩
def MET_STAT.HOLD_WAIT : Field := ⟨0x80000, 3, 1, .ro, .V, 0x0, 0, 1, 0, 1⟩
def MET_STAT.BANK_ON : Field := ⟨0x80000, 4, 4, .ro, .V, 0x0, 0, 1, 0, 1⟩
def MET_STAT.PT_VALID : Field := ⟨0x80000, 8, 8, .ro, .V, 0x0, 0, 1, 0, 1⟩
def MET_STAT.PT_EN : Field := ⟨0x80000, 16, 8, .ro, .V, 0x0, 0, 1, 0, 1⟩
def MET_STAT.UNCLOSED : Field := ⟨0x80000, 24, 1, .w1c, .N, 0x0, 0, 1, 0, 1⟩
-- MET_CH_FLT: 11_metrology.md, register table "channel faults (0x0008_0004 and 0x0008_0008)"
def MET_CH_FLT.STUCK : Field := ⟨0x80004, 0, 16, .ro, .V, 0x0, 0, 1, 0, 1⟩
def MET_CH_FLT.OVR : Field := ⟨0x80004, 16, 16, .ro, .V, 0x0, 0, 1, 0, 1⟩
-- MET_CH_FLT_SEEN: 11_metrology.md, register table "channel faults (0x0008_0004 and 0x0008_0008)"
def MET_CH_FLT_SEEN.STUCK_SEEN : Field := ⟨0x80008, 0, 16, .w1c, .F, 0x0, 0, 1, 0, 1⟩
def MET_CH_FLT_SEEN.OVR_SEEN : Field := ⟨0x80008, 16, 16, .w1c, .F, 0x0, 0, 1, 0, 1⟩
-- MET_BANK: 11_metrology.md, register table "capture edges (0x0008_000C)"
def MET_BANK.CAP_EDGE : Field := ⟨0x8000C, 0, 4, .rws, .N, 0x0, 0, 1, 0, 1⟩
-- MET_SEAL: 11_metrology.md, register table "metrology seal (0x0008_0010)"
def MET_SEAL.SET : Field := ⟨0x80010, 0, 1, .rwa, .V, 0x0, 0, 1, 0, 1⟩
def MET_SEAL.SET_STATUS : Field := ⟨0x80010, 1, 3, .ro, .V, 0x0, 0, 1, 0, 1⟩
def MET_SEAL.SEALED : Field := ⟨0x80010, 4, 1, .ro, .N, 0x0, 0, 1, 0, 1⟩
def MET_SEAL.SEAL_CNT : Field := ⟨0x80010, 8, 8, .ro, .N, 0x0, 0, 1, 0, 1⟩
def MET_SEAL.CONFIRM : Field := ⟨0x80010, 16, 16, .rwa, .V, 0x0, 0, 1, 0, 1⟩
-- MET_PARAM_DIG: 11_metrology.md, register table "digests (0x0008_0014 and 0x0008_0018)"
def MET_PARAM_DIG.DIG : Field := ⟨0x80014, 0, 32, .ro, .N, 0x0, 0, 1, 0, 1⟩
-- MET_FW_DIG: 11_metrology.md, register table "digests (0x0008_0014 and 0x0008_0018)"
def MET_FW_DIG.DIG : Field := ⟨0x80018, 0, 32, .ro, .V, 0x0, 0, 1, 0, 1⟩
-- MET_REF_CORR: 11_metrology.md, register table "sample-period correction (0x0008_001C)"
def MET_REF_CORR.REF_CORR : Field := ⟨0x8001C, 0, 16, .rws, .N, 0x0, 0, 1, 0, 1⟩
-- MET_SNAP: 11_metrology.md, register table "snapshots (0x0008_0020)"
def MET_SNAP.SNAP : Field := ⟨0x80020, 0, 8, .rw, .V, 0x0, 0, 1, 0, 1⟩
def MET_SNAP.AT_STAMP : Field := ⟨0x80020, 8, 1, .rw, .V, 0x0, 0, 1, 0, 1⟩
def MET_SNAP.TAKEN : Field := ⟨0x80020, 16, 8, .ro, .V, 0x0, 0, 1, 0, 1⟩
-- MET_SNAP_STAMP_LO: 11_metrology.md, register table "snapshot stamp (0x0008_0024 and 0x0008_0028)"
def MET_SNAP_STAMP_LO.STAMP : Field := ⟨0x80024, 0, 32, .rw, .V, 0x0, 0, 1, 0, 1⟩
-- MET_SNAP_STAMP_HI: 11_metrology.md, register table "snapshot stamp (0x0008_0024 and 0x0008_0028)"
def MET_SNAP_STAMP_HI.STAMP : Field := ⟨0x80028, 0, 32, .rw, .V, 0x0, 0, 1, 0, 1⟩
-- MET_CH_SCALE: 11_metrology.md, register table "Channel registers (0x0008_0100 + 0x20·c, c = 0 to 15)"
def MET_CH_SCALE.SCALE : Field := ⟨0x80100, 0, 32, .rws, .N, 0x0, 32, 16, 0, 1⟩
-- MET_CH_GAIN: 11_metrology.md, register table "Channel registers (0x0008_0100 + 0x20·c, c = 0 to 15)"
def MET_CH_GAIN.GAIN : Field := ⟨0x80104, 0, 32, .rws, .N, 0x40000000, 32, 16, 0, 1⟩
-- MET_CH_OFS: 11_metrology.md, register table "Channel registers (0x0008_0100 + 0x20·c, c = 0 to 15)"
def MET_CH_OFS.OFS : Field := ⟨0x80108, 0, 24, .rws, .N, 0x0, 32, 16, 0, 1⟩
-- MET_CH_DLY: 11_metrology.md, register table "Channel registers (0x0008_0100 + 0x20·c, c = 0 to 15)"
def MET_CH_DLY.DLY : Field := ⟨0x8010C, 0, 13, .rws, .N, 0x0, 32, 16, 0, 1⟩
def MET_CH_DLY.SKEW : Field := ⟨0x8010C, 16, 8, .rws, .N, 0x0, 32, 16, 0, 1⟩
-- MET_CH_VAL: 11_metrology.md, register table "Channel registers (0x0008_0100 + 0x20·c, c = 0 to 15)"
def MET_CH_VAL.VAL : Field := ⟨0x80110, 0, 32, .ro, .V, 0x0, 32, 16, 0, 1⟩
-- MET_CH_RAW: 11_metrology.md, register table "Channel registers (0x0008_0100 + 0x20·c, c = 0 to 15)"
def MET_CH_RAW.RAW : Field := ⟨0x80114, 0, 24, .ro, .V, 0x0, 32, 16, 0, 1⟩
-- MET_PUL_CFG: 11_metrology.md, register table "Pulse output registers (0x0008_0400 + 0x10·n, n = 0 to 7)"
def MET_PUL_CFG.EN : Field := ⟨0x80400, 0, 1, .rw, .N, 0x0, 16, 8, 0, 1⟩
def MET_PUL_CFG.PT : Field := ⟨0x80400, 1, 3, .rw, .N, 0x0, 16, 8, 0, 1⟩
def MET_PUL_CFG.QTY : Field := ⟨0x80400, 4, 4, .rw, .N, 0x0, 16, 8, 0, 1⟩
def MET_PUL_CFG.PW : Field := ⟨0x80400, 8, 8, .rw, .N, 0x14, 16, 8, 0, 1⟩
def MET_PUL_CFG.LOCK : Field := ⟨0x80400, 16, 1, .rws, .N, 0x0, 16, 8, 0, 1⟩
-- MET_PUL_WT: 11_metrology.md, register table "Pulse output registers (0x0008_0400 + 0x10·n, n = 0 to 7)"
def MET_PUL_WT.WT : Field := ⟨0x80404, 0, 32, .rw, .N, 0x2710, 16, 8, 0, 1⟩
-- MET_PUL_STAT: 11_metrology.md, register table "Pulse output registers (0x0008_0400 + 0x10·n, n = 0 to 7)"
def MET_PUL_STAT.PEND : Field := ⟨0x80408, 0, 16, .ro, .N, 0x0, 16, 8, 0, 1⟩
def MET_PUL_STAT.OVF : Field := ⟨0x80408, 16, 1, .w1c, .F, 0x0, 16, 8, 0, 1⟩
-- MET_PUL_CNT: 11_metrology.md, register table "Pulse output registers (0x0008_0400 + 0x10·n, n = 0 to 7)"
def MET_PUL_CNT.CNT : Field := ⟨0x8040C, 0, 32, .ro, .N, 0x0, 16, 8, 0, 1⟩
-- MET_PT_CFG: 11_metrology.md, register table "point definition (0x0008_1000 + 0x100·p, p = 0 to 7)"
def MET_PT_CFG.EN : Field := ⟨0x81000, 0, 1, .rws, .N, 0x0, 256, 8, 0, 1⟩
def MET_PT_CFG.LEGAL : Field := ⟨0x81000, 1, 1, .rws, .N, 0x0, 256, 8, 0, 1⟩
def MET_PT_CFG.CAB_EN : Field := ⟨0x81000, 2, 1, .rws, .N, 0x0, 256, 8, 0, 1⟩
def MET_PT_CFG.POL : Field := ⟨0x81000, 3, 1, .rws, .N, 0x0, 256, 8, 0, 1⟩
def MET_PT_CFG.V_CH : Field := ⟨0x81000, 8, 5, .rws, .N, 0x1F, 256, 8, 0, 1⟩
def MET_PT_CFG.I_CH : Field := ⟨0x81000, 16, 5, .rws, .N, 0x1F, 256, 8, 0, 1⟩
-- MET_PT_NOM: 11_metrology.md, register table "nominal current and start threshold (0x0008_1004 + 0x100·p)"
def MET_PT_NOM.I_NOM : Field := ⟨0x81004, 0, 16, .rws, .N, 0x0, 256, 8, 0, 1⟩
def MET_PT_NOM.I_START : Field := ⟨0x81004, 16, 8, .rws, .N, 0xA, 256, 8, 0, 1⟩
-- MET_PT_STAT: 11_metrology.md, register table "point status (0x0008_1008 + 0x100·p)"
def MET_PT_STAT.VALID : Field := ⟨0x81008, 0, 1, .ro, .V, 0x0, 256, 8, 0, 1⟩
def MET_PT_STAT.DIR : Field := ⟨0x81008, 1, 2, .ro, .V, 0x0, 256, 8, 0, 1⟩
def MET_PT_STAT.TFALL : Field := ⟨0x81008, 3, 1, .ro, .V, 0x0, 256, 8, 0, 1⟩
def MET_PT_STAT.OC : Field := ⟨0x81008, 4, 1, .ro, .V, 0x0, 256, 8, 0, 1⟩
def MET_PT_STAT.SNAP_HELD : Field := ⟨0x81008, 5, 1, .ro, .V, 0x0, 256, 8, 0, 1⟩
def MET_PT_STAT.CFG_ERR : Field := ⟨0x81008, 6, 1, .ro, .V, 0x0, 256, 8, 0, 1⟩
def MET_PT_STAT.GAP_SEEN : Field := ⟨0x81008, 8, 1, .w1c, .F, 0x0, 256, 8, 0, 1⟩
def MET_PT_STAT.OC_SEEN : Field := ⟨0x81008, 9, 1, .w1c, .F, 0x0, 256, 8, 0, 1⟩
def MET_PT_STAT.TFALL_SEEN : Field := ⟨0x81008, 10, 1, .w1c, .F, 0x0, 256, 8, 0, 1⟩
def MET_PT_STAT.REV_SEEN : Field := ⟨0x81008, 11, 1, .w1c, .F, 0x0, 256, 8, 0, 1⟩
def MET_PT_STAT.WRAP_SEEN : Field := ⟨0x81008, 12, 1, .w1c, .F, 0x0, 256, 8, 0, 1⟩
-- MET_PT_LAT: 11_metrology.md, register table "Point control and timing (0x0008_100C to 0x0008_1018 + 0x100·p)"
def MET_PT_LAT.LAT : Field := ⟨0x8100C, 0, 16, .rw, .C, 0xDF4, 256, 8, 0, 1⟩
-- MET_PT_CTRL: 11_metrology.md, register table "Point control and timing (0x0008_100C to 0x0008_1018 + 0x100·p)"
def MET_PT_CTRL.PEAK_CLR : Field := ⟨0x81010, 0, 1, .wo, .V, 0x0, 256, 8, 0, 1⟩
-- MET_PT_OC: 11_metrology.md, register table "Point control and timing (0x0008_100C to 0x0008_1018 + 0x100·p)"
def MET_PT_OC.OC_TH : Field := ⟨0x81014, 0, 16, .rw, .C, 0xFFFF, 256, 8, 0, 1⟩
def MET_PT_OC.OC_N : Field := ⟨0x81014, 16, 4, .rw, .C, 0x2, 256, 8, 0, 1⟩
def MET_PT_OC.OC_ACT : Field := ⟨0x81014, 20, 1, .rwa, .C, 0x0, 256, 8, 0, 1⟩
-- MET_PT_GAP: 11_metrology.md, register table "Point control and timing (0x0008_100C to 0x0008_1018 + 0x100·p)"
def MET_PT_GAP.GAP : Field := ⟨0x81018, 0, 32, .ro, .N, 0x0, 256, 8, 0, 1⟩
-- MET_PT_CAB_RREF: 11_metrology.md, register table "Cable model (0x0008_1020 to 0x0008_102C + 0x100·p)"
def MET_PT_CAB_RREF.CAB_RREF : Field := ⟨0x81020, 0, 32, .rws, .N, 0x0, 256, 8, 0, 1⟩
-- MET_PT_CAB_RFIX: 11_metrology.md, register table "Cable model (0x0008_1020 to 0x0008_102C + 0x100·p)"
def MET_PT_CAB_RFIX.CAB_RFIX : Field := ⟨0x81024, 0, 32, .rws, .N, 0x0, 256, 8, 0, 1⟩
-- MET_PT_CAB_A: 11_metrology.md, register table "Cable model (0x0008_1020 to 0x0008_102C + 0x100·p)"
def MET_PT_CAB_A.CAB_ALPHA : Field := ⟨0x81028, 0, 16, .rws, .N, 0x0, 256, 8, 0, 1⟩
def MET_PT_CAB_A.CAB_TREF : Field := ⟨0x81028, 16, 16, .rws, .N, 0xC8, 256, 8, 0, 1⟩
-- MET_PT_CAB_T: 11_metrology.md, register table "Cable model (0x0008_1020 to 0x0008_102C + 0x100·p)"
def MET_PT_CAB_T.CAB_TSRC : Field := ⟨0x8102C, 0, 8, .rws, .N, 0xFF, 256, 8, 0, 1⟩
def MET_PT_CAB_T.CAB_TFALL : Field := ⟨0x8102C, 16, 16, .rws, .N, 0x384, 256, 8, 0, 1⟩
-- MET_PT_V: 11_metrology.md, register table "Point measurements (0x0008_1030 to 0x0008_1054 + 0x100·p)"
def MET_PT_V.V : Field := ⟨0x81030, 0, 32, .ro, .V, 0x0, 256, 8, 0, 1⟩
-- MET_PT_I: 11_metrology.md, register table "Point measurements (0x0008_1030 to 0x0008_1054 + 0x100·p)"
def MET_PT_I.I : Field := ⟨0x81034, 0, 32, .ro, .V, 0x0, 256, 8, 0, 1⟩
-- MET_PT_P: 11_metrology.md, register table "Point measurements (0x0008_1030 to 0x0008_1054 + 0x100·p)"
def MET_PT_P.P : Field := ⟨0x81038, 0, 32, .ro, .V, 0x0, 256, 8, 0, 1⟩
-- MET_PT_PLOSS: 11_metrology.md, register table "Point measurements (0x0008_1030 to 0x0008_1054 + 0x100·p)"
def MET_PT_PLOSS.PLOSS : Field := ⟨0x8103C, 0, 32, .ro, .V, 0x0, 256, 8, 0, 1⟩
-- MET_PT_TCAB: 11_metrology.md, register table "Point measurements (0x0008_1030 to 0x0008_1054 + 0x100·p)"
def MET_PT_TCAB.T_USED : Field := ⟨0x81040, 0, 16, .ro, .V, 0x0, 256, 8, 0, 1⟩
-- MET_PT_PEAK_V: 11_metrology.md, register table "Point measurements (0x0008_1030 to 0x0008_1054 + 0x100·p)"
def MET_PT_PEAK_V.PEAK_V : Field := ⟨0x81044, 0, 32, .ro, .V, 0x0, 256, 8, 0, 1⟩
-- MET_PT_PEAK_I: 11_metrology.md, register table "Point measurements (0x0008_1030 to 0x0008_1054 + 0x100·p)"
def MET_PT_PEAK_I.PEAK_I : Field := ⟨0x81048, 0, 32, .ro, .V, 0x0, 256, 8, 0, 1⟩
-- MET_PT_PEAK_P: 11_metrology.md, register table "Point measurements (0x0008_1030 to 0x0008_1054 + 0x100·p)"
def MET_PT_PEAK_P.PEAK_P : Field := ⟨0x8104C, 0, 32, .ro, .V, 0x0, 256, 8, 0, 1⟩
-- MET_PT_SNAP_TS_LO: 11_metrology.md, register table "Point measurements (0x0008_1030 to 0x0008_1054 + 0x100·p)"
def MET_PT_SNAP_TS_LO.STAMP : Field := ⟨0x81050, 0, 32, .ro, .V, 0x0, 256, 8, 0, 1⟩
-- MET_PT_SNAP_TS_HI: 11_metrology.md, register table "Point measurements (0x0008_1030 to 0x0008_1054 + 0x100·p)"
def MET_PT_SNAP_TS_HI.STAMP : Field := ⟨0x81054, 0, 32, .ro, .V, 0x0, 256, 8, 0, 1⟩
-- MET_PT_FINE_F_LO: 11_metrology.md, register table "Point energy registers (0x0008_1060 to 0x0008_10C4 + 0x100·p)"
def MET_PT_FINE_F_LO.W : Field := ⟨0x81060, 0, 32, .ro, .N, 0x0, 256, 8, 0, 1⟩
-- MET_PT_FINE_F_MID: 11_metrology.md, register table "Point energy registers (0x0008_1060 to 0x0008_10C4 + 0x100·p)"
def MET_PT_FINE_F_MID.W : Field := ⟨0x81064, 0, 32, .ro, .N, 0x0, 256, 8, 0, 1⟩
-- MET_PT_FINE_F_HI: 11_metrology.md, register table "Point energy registers (0x0008_1060 to 0x0008_10C4 + 0x100·p)"
def MET_PT_FINE_F_HI.W : Field := ⟨0x81068, 0, 32, .ro, .N, 0x0, 256, 8, 0, 1⟩
-- MET_PT_FINE_R_LO: 11_metrology.md, register table "Point energy registers (0x0008_1060 to 0x0008_10C4 + 0x100·p)"
def MET_PT_FINE_R_LO.W : Field := ⟨0x8106C, 0, 32, .ro, .N, 0x0, 256, 8, 0, 1⟩
-- MET_PT_FINE_R_MID: 11_metrology.md, register table "Point energy registers (0x0008_1060 to 0x0008_10C4 + 0x100·p)"
def MET_PT_FINE_R_MID.W : Field := ⟨0x81070, 0, 32, .ro, .N, 0x0, 256, 8, 0, 1⟩
-- MET_PT_FINE_R_HI: 11_metrology.md, register table "Point energy registers (0x0008_1060 to 0x0008_10C4 + 0x100·p)"
def MET_PT_FINE_R_HI.W : Field := ⟨0x81074, 0, 32, .ro, .N, 0x0, 256, 8, 0, 1⟩
-- MET_PT_WH_F_LO: 11_metrology.md, register table "Point energy registers (0x0008_1060 to 0x0008_10C4 + 0x100·p)"
def MET_PT_WH_F_LO.W : Field := ⟨0x81078, 0, 32, .ro, .N, 0x0, 256, 8, 0, 1⟩
-- MET_PT_WH_F_HI: 11_metrology.md, register table "Point energy registers (0x0008_1060 to 0x0008_10C4 + 0x100·p)"
def MET_PT_WH_F_HI.W : Field := ⟨0x8107C, 0, 32, .ro, .N, 0x0, 256, 8, 0, 1⟩
-- MET_PT_WH_R_LO: 11_metrology.md, register table "Point energy registers (0x0008_1060 to 0x0008_10C4 + 0x100·p)"
def MET_PT_WH_R_LO.W : Field := ⟨0x81080, 0, 32, .ro, .N, 0x0, 256, 8, 0, 1⟩
-- MET_PT_WH_R_HI: 11_metrology.md, register table "Point energy registers (0x0008_1060 to 0x0008_10C4 + 0x100·p)"
def MET_PT_WH_R_HI.W : Field := ⟨0x81084, 0, 32, .ro, .N, 0x0, 256, 8, 0, 1⟩
-- MET_PT_DISP_F_LO: 11_metrology.md, register table "Point energy registers (0x0008_1060 to 0x0008_10C4 + 0x100·p)"
def MET_PT_DISP_F_LO.W : Field := ⟨0x81088, 0, 32, .ro, .N, 0x0, 256, 8, 0, 1⟩
-- MET_PT_DISP_F_HI: 11_metrology.md, register table "Point energy registers (0x0008_1060 to 0x0008_10C4 + 0x100·p)"
def MET_PT_DISP_F_HI.W : Field := ⟨0x8108C, 0, 32, .ro, .N, 0x0, 256, 8, 0, 1⟩
-- MET_PT_DISP_R_LO: 11_metrology.md, register table "Point energy registers (0x0008_1060 to 0x0008_10C4 + 0x100·p)"
def MET_PT_DISP_R_LO.W : Field := ⟨0x81090, 0, 32, .ro, .N, 0x0, 256, 8, 0, 1⟩
-- MET_PT_DISP_R_HI: 11_metrology.md, register table "Point energy registers (0x0008_1060 to 0x0008_10C4 + 0x100·p)"
def MET_PT_DISP_R_HI.W : Field := ⟨0x81094, 0, 32, .ro, .N, 0x0, 256, 8, 0, 1⟩
-- MET_PT_QR_F: 11_metrology.md, register table "Point energy registers (0x0008_1060 to 0x0008_10C4 + 0x100·p)"
def MET_PT_QR_F.QR_F : Field := ⟨0x81098, 0, 32, .ro, .N, 0x0, 256, 8, 0, 1⟩
-- MET_PT_QR_R: 11_metrology.md, register table "Point energy registers (0x0008_1060 to 0x0008_10C4 + 0x100·p)"
def MET_PT_QR_R.QR_R : Field := ⟨0x8109C, 0, 32, .ro, .N, 0x0, 256, 8, 0, 1⟩
-- MET_PT_MWH_F_LO: 11_metrology.md, register table "Point energy registers (0x0008_1060 to 0x0008_10C4 + 0x100·p)"
def MET_PT_MWH_F_LO.W : Field := ⟨0x810A0, 0, 32, .ro, .N, 0x0, 256, 8, 0, 1⟩
-- MET_PT_MWH_F_HI: 11_metrology.md, register table "Point energy registers (0x0008_1060 to 0x0008_10C4 + 0x100·p)"
def MET_PT_MWH_F_HI.W : Field := ⟨0x810A4, 0, 32, .ro, .N, 0x0, 256, 8, 0, 1⟩
-- MET_PT_MWH_R_LO: 11_metrology.md, register table "Point energy registers (0x0008_1060 to 0x0008_10C4 + 0x100·p)"
def MET_PT_MWH_R_LO.W : Field := ⟨0x810A8, 0, 32, .ro, .N, 0x0, 256, 8, 0, 1⟩
-- MET_PT_MWH_R_HI: 11_metrology.md, register table "Point energy registers (0x0008_1060 to 0x0008_10C4 + 0x100·p)"
def MET_PT_MWH_R_HI.W : Field := ⟨0x810AC, 0, 32, .ro, .N, 0x0, 256, 8, 0, 1⟩
-- MET_PT_LOSS_LO: 11_metrology.md, register table "Point energy registers (0x0008_1060 to 0x0008_10C4 + 0x100·p)"
def MET_PT_LOSS_LO.W : Field := ⟨0x810B0, 0, 32, .ro, .N, 0x0, 256, 8, 0, 1⟩
-- MET_PT_LOSS_HI: 11_metrology.md, register table "Point energy registers (0x0008_1060 to 0x0008_10C4 + 0x100·p)"
def MET_PT_LOSS_HI.W : Field := ⟨0x810B4, 0, 32, .ro, .N, 0x0, 256, 8, 0, 1⟩
-- MET_PT_AH_F_LO: 11_metrology.md, register table "Point energy registers (0x0008_1060 to 0x0008_10C4 + 0x100·p)"
def MET_PT_AH_F_LO.W : Field := ⟨0x810B8, 0, 32, .ro, .N, 0x0, 256, 8, 0, 1⟩
-- MET_PT_AH_F_HI: 11_metrology.md, register table "Point energy registers (0x0008_1060 to 0x0008_10C4 + 0x100·p)"
def MET_PT_AH_F_HI.W : Field := ⟨0x810BC, 0, 32, .ro, .N, 0x0, 256, 8, 0, 1⟩
-- MET_PT_AH_R_LO: 11_metrology.md, register table "Point energy registers (0x0008_1060 to 0x0008_10C4 + 0x100·p)"
def MET_PT_AH_R_LO.W : Field := ⟨0x810C0, 0, 32, .ro, .N, 0x0, 256, 8, 0, 1⟩
-- MET_PT_AH_R_HI: 11_metrology.md, register table "Point energy registers (0x0008_1060 to 0x0008_10C4 + 0x100·p)"
def MET_PT_AH_R_HI.W : Field := ⟨0x810C4, 0, 32, .ro, .N, 0x0, 256, 8, 0, 1⟩

/-- Block MET, part 0 of its fields. -/
def tabMET0 : List Field := [
  MET_STAT.ACC, MET_STAT.SEALED, MET_STAT.STAMPS, MET_STAT.HOLD_WAIT,
  MET_STAT.BANK_ON, MET_STAT.PT_VALID, MET_STAT.PT_EN, MET_STAT.UNCLOSED,
  MET_CH_FLT.STUCK, MET_CH_FLT.OVR, MET_CH_FLT_SEEN.STUCK_SEEN, MET_CH_FLT_SEEN.OVR_SEEN,
  MET_BANK.CAP_EDGE, MET_SEAL.SET, MET_SEAL.SET_STATUS, MET_SEAL.SEALED,
  MET_SEAL.SEAL_CNT, MET_SEAL.CONFIRM, MET_PARAM_DIG.DIG, MET_FW_DIG.DIG,
  MET_REF_CORR.REF_CORR, MET_SNAP.SNAP, MET_SNAP.AT_STAMP, MET_SNAP.TAKEN,
  MET_SNAP_STAMP_LO.STAMP, MET_SNAP_STAMP_HI.STAMP, MET_CH_SCALE.SCALE, MET_CH_GAIN.GAIN,
  MET_CH_OFS.OFS, MET_CH_DLY.DLY, MET_CH_DLY.SKEW, MET_CH_VAL.VAL,
  MET_CH_RAW.RAW, MET_PUL_CFG.EN, MET_PUL_CFG.PT, MET_PUL_CFG.QTY,
  MET_PUL_CFG.PW, MET_PUL_CFG.LOCK, MET_PUL_WT.WT, MET_PUL_STAT.PEND,
  MET_PUL_STAT.OVF, MET_PUL_CNT.CNT, MET_PT_CFG.EN, MET_PT_CFG.LEGAL,
  MET_PT_CFG.CAB_EN, MET_PT_CFG.POL, MET_PT_CFG.V_CH, MET_PT_CFG.I_CH,
  MET_PT_NOM.I_NOM, MET_PT_NOM.I_START, MET_PT_STAT.VALID, MET_PT_STAT.DIR,
  MET_PT_STAT.TFALL, MET_PT_STAT.OC, MET_PT_STAT.SNAP_HELD, MET_PT_STAT.CFG_ERR,
  MET_PT_STAT.GAP_SEEN, MET_PT_STAT.OC_SEEN, MET_PT_STAT.TFALL_SEEN, MET_PT_STAT.REV_SEEN]
/-- Block MET, part 1 of its fields. -/
def tabMET1 : List Field := [
  MET_PT_STAT.WRAP_SEEN, MET_PT_LAT.LAT, MET_PT_CTRL.PEAK_CLR, MET_PT_OC.OC_TH,
  MET_PT_OC.OC_N, MET_PT_OC.OC_ACT, MET_PT_GAP.GAP, MET_PT_CAB_RREF.CAB_RREF,
  MET_PT_CAB_RFIX.CAB_RFIX, MET_PT_CAB_A.CAB_ALPHA, MET_PT_CAB_A.CAB_TREF, MET_PT_CAB_T.CAB_TSRC,
  MET_PT_CAB_T.CAB_TFALL, MET_PT_V.V, MET_PT_I.I, MET_PT_P.P,
  MET_PT_PLOSS.PLOSS, MET_PT_TCAB.T_USED, MET_PT_PEAK_V.PEAK_V, MET_PT_PEAK_I.PEAK_I,
  MET_PT_PEAK_P.PEAK_P, MET_PT_SNAP_TS_LO.STAMP, MET_PT_SNAP_TS_HI.STAMP, MET_PT_FINE_F_LO.W,
  MET_PT_FINE_F_MID.W, MET_PT_FINE_F_HI.W, MET_PT_FINE_R_LO.W, MET_PT_FINE_R_MID.W,
  MET_PT_FINE_R_HI.W, MET_PT_WH_F_LO.W, MET_PT_WH_F_HI.W, MET_PT_WH_R_LO.W,
  MET_PT_WH_R_HI.W, MET_PT_DISP_F_LO.W, MET_PT_DISP_F_HI.W, MET_PT_DISP_R_LO.W,
  MET_PT_DISP_R_HI.W, MET_PT_QR_F.QR_F, MET_PT_QR_R.QR_R, MET_PT_MWH_F_LO.W,
  MET_PT_MWH_F_HI.W, MET_PT_MWH_R_LO.W, MET_PT_MWH_R_HI.W, MET_PT_LOSS_LO.W,
  MET_PT_LOSS_HI.W, MET_PT_AH_F_LO.W, MET_PT_AH_F_HI.W, MET_PT_AH_R_LO.W,
  MET_PT_AH_R_HI.W]
/-- Every field of block MET. -/
def tabMET : List Field := tabMET0 ++ tabMET1
/-- The fields of block MET whose reset value is not 0. -/
def nzMET : List Field := [
  MET_CH_GAIN.GAIN, MET_PUL_CFG.PW, MET_PUL_WT.WT, MET_PT_CFG.V_CH,
  MET_PT_CFG.I_CH, MET_PT_NOM.I_START, MET_PT_LAT.LAT, MET_PT_OC.OC_TH,
  MET_PT_OC.OC_N, MET_PT_CAB_A.CAB_TREF, MET_PT_CAB_T.CAB_TSRC, MET_PT_CAB_T.CAB_TFALL]

end Sys2Proof.Machine.R
end

