-- ==== Sys2Proof/Machine/RegMap2.lean ====
section
/-! DEFINITION. The register map of blocks BIL, VS, TH, CS, LSW (R520): one `Field` per field of the
register tables of spec/, under its own register and field name; then the table of each block. The access code, the
retention class and the reset value of each are those of its row (R10, R12, R13). Reserved bits have no row: they read 0
(R7). A cell that reads "Per module", "Per build", "Per revision" or "Per slot" carries a value the model names (log 3). -/

namespace Sys2Proof.Machine.R

-- BIL_STAT: 12_billing_tariffs.md, register table "clock and rate state (0x0009_0000)"
def BIL_STAT.CLK_ST : Field := ⟨0x90000, 0, 3, .ro, .V, 0x0, 0, 1, 0, 1⟩
def BIL_STAT.CLK_VALID : Field := ⟨0x90000, 3, 1, .ro, .V, 0x0, 0, 1, 0, 1⟩
def BIL_STAT.RATE : Field := ⟨0x90000, 4, 4, .ro, .V, 0x0, 0, 1, 0, 1⟩
def BIL_STAT.SEASON : Field := ⟨0x90000, 8, 3, .ro, .V, 0x0, 0, 1, 0, 1⟩
def BIL_STAT.SPECIAL : Field := ⟨0x90000, 11, 1, .ro, .V, 0x0, 0, 1, 0, 1⟩
def BIL_STAT.DAYPROF : Field := ⟨0x90000, 12, 5, .ro, .V, 0x0, 0, 1, 0, 1⟩
def BIL_STAT.T0_FALLBACK : Field := ⟨0x90000, 17, 1, .ro, .V, 0x0, 0, 1, 0, 1⟩
def BIL_STAT.HOLD_SEEN : Field := ⟨0x90000, 20, 1, .w1c, .F, 0x0, 0, 1, 0, 1⟩
def BIL_STAT.INVAL_SEEN : Field := ⟨0x90000, 21, 1, .w1c, .F, 0x0, 0, 1, 0, 1⟩
def BIL_STAT.STEP_SEEN : Field := ⟨0x90000, 22, 1, .w1c, .F, 0x0, 0, 1, 0, 1⟩
-- BIL_BT: 12_billing_tariffs.md, register table "billing time (0x0009_0004 to 0x0009_0010)"
def BIL_BT.BT : Field := ⟨0x90004, 0, 32, .ro, .N, 0x0, 0, 1, 0, 1⟩
-- BIL_EPOCH: 12_billing_tariffs.md, register table "billing time (0x0009_0004 to 0x0009_0010)"
def BIL_EPOCH.EPOCH : Field := ⟨0x90008, 0, 16, .ro, .N, 0x0, 0, 1, 0, 1⟩
-- BIL_SYNC: 12_billing_tariffs.md, register table "billing time (0x0009_0004 to 0x0009_0010)"
def BIL_SYNC.SYNC_AGE : Field := ⟨0x9000C, 0, 17, .ro, .A, 0x1FFFF, 0, 1, 0, 1⟩
-- BIL_OFS: 12_billing_tariffs.md, register table "billing time (0x0009_0004 to 0x0009_0010)"
def BIL_OFS.BT_OFS : Field := ⟨0x90010, 0, 32, .ro, .V, 0x0, 0, 1, 0, 1⟩
-- BIL_CLK_CMD: 12_billing_tariffs.md, register table "rebase (0x0009_0014)"
def BIL_CLK_CMD.REBASE : Field := ⟨0x90014, 0, 1, .rwa, .V, 0x0, 0, 1, 0, 1⟩
def BIL_CLK_CMD.STATUS : Field := ⟨0x90014, 1, 3, .ro, .V, 0x0, 0, 1, 0, 1⟩
-- BIL_TZ: 12_billing_tariffs.md, register table "local time (0x0009_0018 and 0x0009_001C)"
def BIL_TZ.TZ_STD : Field := ⟨0x90018, 0, 11, .rwa, .N, 0x0, 0, 1, 0, 1⟩
def BIL_TZ.DST_OFS : Field := ⟨0x90018, 16, 8, .rwa, .N, 0x3C, 0, 1, 0, 1⟩
def BIL_TZ.DST_EN : Field := ⟨0x90018, 24, 1, .rwa, .N, 0x0, 0, 1, 0, 1⟩
-- BIL_DST: 12_billing_tariffs.md, register table "local time (0x0009_0018 and 0x0009_001C)"
def BIL_DST.DST_BEGIN : Field := ⟨0x9001C, 0, 15, .rwa, .N, 0x0, 0, 1, 0, 1⟩
def BIL_DST.DST_END : Field := ⟨0x9001C, 16, 15, .rwa, .N, 0x0, 0, 1, 0, 1⟩
-- BIL_CFG: 12_billing_tariffs.md, register table "intervals, periods and signing (0x0009_0020)"
def BIL_CFG.DEM_LEN : Field := ⟨0x90020, 0, 6, .rws, .N, 0xF, 0, 1, 0, 1⟩
def BIL_CFG.SIG_ALG : Field := ⟨0x90020, 8, 2, .rws, .N, 0x0, 0, 1, 0, 1⟩
def BIL_CFG.PER_MODE : Field := ⟨0x90020, 10, 2, .rwa, .N, 0x2, 0, 1, 0, 1⟩
def BIL_CFG.PER_DAY : Field := ⟨0x90020, 16, 5, .rwa, .N, 0x1, 0, 1, 0, 1⟩
def BIL_CFG.PER_HOUR : Field := ⟨0x90020, 24, 5, .rwa, .N, 0x0, 0, 1, 0, 1⟩
-- BIL_PER_CMD: 12_billing_tariffs.md, register table "period close and digest (0x0009_0024 and 0x0009_0028)"
def BIL_PER_CMD.CLOSE : Field := ⟨0x90024, 0, 1, .rwa, .V, 0x0, 0, 1, 0, 1⟩
-- BIL_DIG: 12_billing_tariffs.md, register table "period close and digest (0x0009_0024 and 0x0009_0028)"
def BIL_DIG.BIL_DIG : Field := ⟨0x90028, 0, 32, .ro, .N, 0x0, 0, 1, 0, 1⟩
-- BIL_CAL_CTRL: 12_billing_tariffs.md, register table "calendar activation (0x0009_0030)"
def BIL_CAL_CTRL.ACTIVATE : Field := ⟨0x90030, 0, 1, .rwa, .V, 0x0, 0, 1, 0, 1⟩
def BIL_CAL_CTRL.AT_TIME : Field := ⟨0x90030, 1, 1, .rwa, .V, 0x0, 0, 1, 0, 1⟩
def BIL_CAL_CTRL.ACT_BANK : Field := ⟨0x90030, 2, 1, .ro, .N, 0x0, 0, 1, 0, 1⟩
def BIL_CAL_CTRL.CAL_OK : Field := ⟨0x90030, 3, 1, .ro, .N, 0x0, 0, 1, 0, 1⟩
def BIL_CAL_CTRL.CHK_STATUS : Field := ⟨0x90030, 4, 3, .ro, .V, 0x0, 0, 1, 0, 1⟩
def BIL_CAL_CTRL.CHK_WORD : Field := ⟨0x90030, 8, 11, .ro, .V, 0x0, 0, 1, 0, 1⟩
-- BIL_CAL_TIME: 12_billing_tariffs.md, register table "calendar access (0x0009_0034 to 0x0009_0040)"
def BIL_CAL_TIME.CAL_TIME : Field := ⟨0x90034, 0, 32, .rwa, .V, 0x0, 0, 1, 0, 1⟩
-- BIL_CAL_DIG: 12_billing_tariffs.md, register table "calendar access (0x0009_0034 to 0x0009_0040)"
def BIL_CAL_DIG.CAL_DIG : Field := ⟨0x90038, 0, 32, .ro, .N, 0x0, 0, 1, 0, 1⟩
-- BIL_CAL_ADDR: 12_billing_tariffs.md, register table "calendar access (0x0009_0034 to 0x0009_0040)"
def BIL_CAL_ADDR.INDEX : Field := ⟨0x9003C, 0, 11, .rw, .V, 0x0, 0, 1, 0, 1⟩
-- BIL_CAL_DATA: 12_billing_tariffs.md, register table "calendar access (0x0009_0034 to 0x0009_0040)"
def BIL_CAL_DATA.DATA : Field := ⟨0x90040, 0, 32, .rwa, .N, 0x0, 0, 1, 0, 1⟩
-- BIL_TMP: 12_billing_tariffs.md, register table "meter security (0x0009_0050 and 0x0009_0054)"
def BIL_TMP.COVER : Field := ⟨0x90050, 0, 1, .ro, .V, 0x0, 0, 1, 0, 1⟩
def BIL_TMP.TERM : Field := ⟨0x90050, 1, 1, .ro, .V, 0x0, 0, 1, 0, 1⟩
def BIL_TMP.TMP_PEND : Field := ⟨0x90050, 2, 1, .ro, .A, 0x0, 0, 1, 0, 1⟩
def BIL_TMP.TMP_ACK : Field := ⟨0x90050, 3, 1, .rwa, .V, 0x0, 0, 1, 0, 1⟩
def BIL_TMP.HIST_LOST : Field := ⟨0x90050, 4, 1, .ro, .A, 0x0, 0, 1, 0, 1⟩
def BIL_TMP.N_Q : Field := ⟨0x90050, 8, 5, .ro, .A, 0x0, 0, 1, 0, 1⟩
-- BIL_TMP_CNT: 12_billing_tariffs.md, register table "meter security (0x0009_0050 and 0x0009_0054)"
def BIL_TMP_CNT.COVER_CNT : Field := ⟨0x90054, 0, 16, .ro, .A, 0x0, 0, 1, 0, 1⟩
def BIL_TMP_CNT.TERM_CNT : Field := ⟨0x90054, 16, 16, .ro, .A, 0x0, 0, 1, 0, 1⟩
-- BIL_DISP_CFG: 12_billing_tariffs.md, register table "display (0x0009_0060 and 0x0009_0064)"
def BIL_DISP_CFG.DWELL : Field := ⟨0x90060, 0, 5, .rws, .N, 0xA, 0, 1, 0, 1⟩
def BIL_DISP_CFG.DISP_EN : Field := ⟨0x90060, 8, 1, .rw, .C, 0x0, 0, 1, 0, 1⟩
-- BIL_DISP_STAT: 12_billing_tariffs.md, register table "display (0x0009_0060 and 0x0009_0064)"
def BIL_DISP_STAT.PAGE : Field := ⟨0x90064, 0, 5, .ro, .V, 0x0, 0, 1, 0, 1⟩
def BIL_DISP_STAT.MANUAL : Field := ⟨0x90064, 5, 1, .ro, .V, 0x0, 0, 1, 0, 1⟩
def BIL_DISP_STAT.DEFAULT_SEQ : Field := ⟨0x90064, 6, 1, .ro, .V, 0x0, 0, 1, 0, 1⟩
def BIL_DISP_STAT.DISP_FLT : Field := ⟨0x90064, 7, 1, .ro, .V, 0x0, 0, 1, 0, 1⟩
def BIL_DISP_STAT.FLT_SEEN : Field := ⟨0x90064, 8, 1, .w1c, .F, 0x0, 0, 1, 0, 1⟩
-- BIL_DISP_SEQ: 12_billing_tariffs.md, register table "scroll sequence (0x0009_0080 + 4·i, i = 0 to 31)"
def BIL_DISP_SEQ.CODE : Field := ⟨0x90080, 0, 6, .rws, .N, 0x0, 4, 32, 0, 1⟩
def BIL_DISP_SEQ.PT : Field := ⟨0x90080, 8, 3, .rws, .N, 0x0, 4, 32, 0, 1⟩
-- BIL_STORE: 12_billing_tariffs.md, register table "record stores (0x0009_0100 and 0x0009_0104)"
def BIL_STORE.INT_N : Field := ⟨0x90100, 0, 13, .ro, .V, 0x0, 0, 1, 0, 1⟩
def BIL_STORE.SESS_UNACK : Field := ⟨0x90100, 16, 12, .ro, .V, 0x0, 0, 1, 0, 1⟩
def BIL_STORE.SESS_FULL : Field := ⟨0x90100, 28, 1, .ro, .V, 0x0, 0, 1, 0, 1⟩
def BIL_STORE.SIG_PEND : Field := ⟨0x90100, 29, 1, .ro, .V, 0x0, 0, 1, 0, 1⟩
-- BIL_STORE_PER: 12_billing_tariffs.md, register table "record stores (0x0009_0100 and 0x0009_0104)"
def BIL_STORE_PER.PER_N : Field := ⟨0x90104, 0, 9, .ro, .V, 0x0, 0, 1, 0, 1⟩
-- BIL_REC_ADDR: 12_billing_tariffs.md, register table "record access (0x0009_0110 to 0x0009_011C)"
def BIL_REC_ADDR.KIND : Field := ⟨0x90110, 0, 2, .rw, .V, 0x1, 0, 1, 0, 1⟩
def BIL_REC_ADDR.PT : Field := ⟨0x90110, 2, 3, .rw, .V, 0x0, 0, 1, 0, 1⟩
def BIL_REC_ADDR.WORD : Field := ⟨0x90110, 5, 8, .rw, .V, 0x0, 0, 1, 0, 1⟩
def BIL_REC_ADDR.NUM : Field := ⟨0x90110, 13, 19, .rw, .V, 0x0, 0, 1, 0, 1⟩
-- BIL_REC_DATA: 12_billing_tariffs.md, register table "record access (0x0009_0110 to 0x0009_011C)"
def BIL_REC_DATA.DATA : Field := ⟨0x90114, 0, 32, .ro, .V, 0x0, 0, 1, 0, 1⟩
-- BIL_REC_STAT: 12_billing_tariffs.md, register table "record access (0x0009_0110 to 0x0009_011C)"
def BIL_REC_STAT.PRESENT : Field := ⟨0x90118, 0, 1, .ro, .V, 0x0, 0, 1, 0, 1⟩
def BIL_REC_STAT.SIGNED : Field := ⟨0x90118, 1, 1, .ro, .V, 0x0, 0, 1, 0, 1⟩
def BIL_REC_STAT.LEN : Field := ⟨0x90118, 2, 10, .ro, .V, 0x0, 0, 1, 0, 1⟩
-- BIL_SESS_ACK: 12_billing_tariffs.md, register table "record access (0x0009_0110 to 0x0009_011C)"
def BIL_SESS_ACK.ACK_NUM : Field := ⟨0x9011C, 0, 32, .rw, .N, 0x0, 0, 1, 0, 1⟩
-- BIL_TR_ADDR: 12_billing_tariffs.md, register table "rate registers (0x0009_0200 and 0x0009_0204)"
def BIL_TR_ADDR.PT : Field := ⟨0x90200, 0, 3, .rw, .V, 0x0, 0, 1, 0, 1⟩
def BIL_TR_ADDR.RATE : Field := ⟨0x90200, 4, 4, .rw, .V, 0x0, 0, 1, 0, 1⟩
def BIL_TR_ADDR.WORD : Field := ⟨0x90200, 8, 4, .rw, .V, 0x0, 0, 1, 0, 1⟩
-- BIL_TR_DATA: 12_billing_tariffs.md, register table "rate registers (0x0009_0200 and 0x0009_0204)"
def BIL_TR_DATA.DATA : Field := ⟨0x90204, 0, 32, .ro, .N, 0x0, 0, 1, 0, 1⟩
-- BIL_PT_DEMF: 12_billing_tariffs.md, register table "Point values (0x0009_0300 to 0x0009_0308 + 0x10·p, p = 0 to 7)"
def BIL_PT_DEMF.DEM_F : Field := ⟨0x90300, 0, 32, .ro, .V, 0x0, 16, 8, 0, 1⟩
-- BIL_PT_DEMR: 12_billing_tariffs.md, register table "Point values (0x0009_0300 to 0x0009_0308 + 0x10·p, p = 0 to 7)"
def BIL_PT_DEMR.DEM_R : Field := ⟨0x90304, 0, 32, .ro, .V, 0x0, 16, 8, 0, 1⟩
-- BIL_PT_SESS: 12_billing_tariffs.md, register table "Point values (0x0009_0300 to 0x0009_0308 + 0x10·p, p = 0 to 7)"
def BIL_PT_SESS.SESS_WH : Field := ⟨0x90308, 0, 32, .ro, .V, 0x0, 16, 8, 0, 1⟩

/-- Block BIL, part 0 of its fields. -/
def tabBIL0 : List Field := [
  BIL_STAT.CLK_ST, BIL_STAT.CLK_VALID, BIL_STAT.RATE, BIL_STAT.SEASON,
  BIL_STAT.SPECIAL, BIL_STAT.DAYPROF, BIL_STAT.T0_FALLBACK, BIL_STAT.HOLD_SEEN,
  BIL_STAT.INVAL_SEEN, BIL_STAT.STEP_SEEN, BIL_BT.BT, BIL_EPOCH.EPOCH,
  BIL_SYNC.SYNC_AGE, BIL_OFS.BT_OFS, BIL_CLK_CMD.REBASE, BIL_CLK_CMD.STATUS,
  BIL_TZ.TZ_STD, BIL_TZ.DST_OFS, BIL_TZ.DST_EN, BIL_DST.DST_BEGIN,
  BIL_DST.DST_END, BIL_CFG.DEM_LEN, BIL_CFG.SIG_ALG, BIL_CFG.PER_MODE,
  BIL_CFG.PER_DAY, BIL_CFG.PER_HOUR, BIL_PER_CMD.CLOSE, BIL_DIG.BIL_DIG,
  BIL_CAL_CTRL.ACTIVATE, BIL_CAL_CTRL.AT_TIME, BIL_CAL_CTRL.ACT_BANK, BIL_CAL_CTRL.CAL_OK,
  BIL_CAL_CTRL.CHK_STATUS, BIL_CAL_CTRL.CHK_WORD, BIL_CAL_TIME.CAL_TIME, BIL_CAL_DIG.CAL_DIG,
  BIL_CAL_ADDR.INDEX, BIL_CAL_DATA.DATA, BIL_TMP.COVER, BIL_TMP.TERM,
  BIL_TMP.TMP_PEND, BIL_TMP.TMP_ACK, BIL_TMP.HIST_LOST, BIL_TMP.N_Q,
  BIL_TMP_CNT.COVER_CNT, BIL_TMP_CNT.TERM_CNT, BIL_DISP_CFG.DWELL, BIL_DISP_CFG.DISP_EN,
  BIL_DISP_STAT.PAGE, BIL_DISP_STAT.MANUAL, BIL_DISP_STAT.DEFAULT_SEQ, BIL_DISP_STAT.DISP_FLT,
  BIL_DISP_STAT.FLT_SEEN, BIL_DISP_SEQ.CODE, BIL_DISP_SEQ.PT, BIL_STORE.INT_N,
  BIL_STORE.SESS_UNACK, BIL_STORE.SESS_FULL, BIL_STORE.SIG_PEND, BIL_STORE_PER.PER_N]
/-- Block BIL, part 1 of its fields. -/
def tabBIL1 : List Field := [
  BIL_REC_ADDR.KIND, BIL_REC_ADDR.PT, BIL_REC_ADDR.WORD, BIL_REC_ADDR.NUM,
  BIL_REC_DATA.DATA, BIL_REC_STAT.PRESENT, BIL_REC_STAT.SIGNED, BIL_REC_STAT.LEN,
  BIL_SESS_ACK.ACK_NUM, BIL_TR_ADDR.PT, BIL_TR_ADDR.RATE, BIL_TR_ADDR.WORD,
  BIL_TR_DATA.DATA, BIL_PT_DEMF.DEM_F, BIL_PT_DEMR.DEM_R, BIL_PT_SESS.SESS_WH]
/-- Every field of block BIL. -/
def tabBIL : List Field := tabBIL0 ++ tabBIL1
/-- The fields of block BIL whose reset value is not 0. -/
def nzBIL : List Field := [
  BIL_SYNC.SYNC_AGE, BIL_TZ.DST_OFS, BIL_CFG.DEM_LEN, BIL_CFG.PER_MODE,
  BIL_CFG.PER_DAY, BIL_DISP_CFG.DWELL, BIL_REC_ADDR.KIND]

-- VS_SECC: 13_vehicle_sessions.md, register table "certificates and authorisation (0x000A_0004)"
def VS_SECC.CERT_SLOT : Field := ⟨0xA0004, 0, 6, .rwa, .C, 0x0, 0, 1, 0, 1⟩
def VS_SECC.ROOT_FIRST : Field := ⟨0xA0004, 8, 6, .rwa, .C, 0x0, 0, 1, 0, 1⟩
def VS_SECC.ROOT_N : Field := ⟨0xA0004, 16, 4, .rwa, .C, 0x0, 0, 1, 0, 1⟩
def VS_SECC.AUTH_TMO : Field := ⟨0xA0004, 24, 8, .rw, .C, 0x1E, 0, 1, 0, 1⟩
-- VS_CONN_CFG: 13_vehicle_sessions.md, register table "connector configuration (+0x00)"
def VS_CONN_CFG.GRP : Field := ⟨0xA0100, 0, 3, .rwa, .C, 0x0, 256, 2, 0, 1⟩
def VS_CONN_CFG.PT : Field := ⟨0xA0100, 4, 3, .rwa, .C, 0x0, 256, 2, 0, 1⟩
def VS_CONN_CFG.BPT_EN : Field := ⟨0xA0100, 8, 1, .rw, .C, 0x0, 256, 2, 0, 1⟩
def VS_CONN_CFG.DYN_EN : Field := ⟨0xA0100, 9, 1, .rw, .C, 0x1, 256, 2, 0, 1⟩
def VS_CONN_CFG.PNC_EN : Field := ⟨0xA0100, 10, 1, .rw, .C, 0x1, 256, 2, 0, 1⟩
def VS_CONN_CFG.EIM_EN : Field := ⟨0xA0100, 11, 1, .rw, .C, 0x1, 256, 2, 0, 1⟩
def VS_CONN_CFG.WELD_EN : Field := ⟨0xA0100, 12, 1, .rw, .C, 0x0, 256, 2, 0, 1⟩
def VS_CONN_CFG.LS_POS : Field := ⟨0xA0100, 16, 5, .rwa, .C, 0x1F, 256, 2, 0, 1⟩
def VS_CONN_CFG.LS_NEG : Field := ⟨0xA0100, 24, 5, .rwa, .C, 0x1F, 256, 2, 0, 1⟩
-- VS_CONN_FEED: 13_vehicle_sessions.md, register table "feed and loop (+0x04)"
def VS_CONN_FEED.FEED_NODE : Field := ⟨0xA0104, 0, 12, .rwa, .C, 0x0, 256, 2, 0, 1⟩
def VS_CONN_FEED.VLOOP : Field := ⟨0xA0104, 16, 7, .rwa, .C, 0x7F, 256, 2, 0, 1⟩
-- VS_CONN_RATING: 13_vehicle_sessions.md, register table "ratings (+0x08, +0x0C, +0x64)"
def VS_CONN_RATING.I_CONN_MAX : Field := ⟨0xA0108, 0, 16, .rwa, .C, 0x0, 256, 2, 0, 1⟩
def VS_CONN_RATING.V_CONN_MAX : Field := ⟨0xA0108, 16, 16, .rwa, .C, 0x0, 256, 2, 0, 1⟩
-- VS_CONN_BPT: 13_vehicle_sessions.md, register table "ratings (+0x08, +0x0C, +0x64)"
def VS_CONN_BPT.I_DIS_MAX : Field := ⟨0xA010C, 0, 16, .rwa, .C, 0x0, 256, 2, 0, 1⟩
def VS_CONN_BPT.I_PRE : Field := ⟨0xA010C, 16, 16, .rw, .C, 0x14, 256, 2, 0, 1⟩
-- VS_CONN_PDIS: 13_vehicle_sessions.md, register table "ratings (+0x08, +0x0C, +0x64)"
def VS_CONN_PDIS.P_DIS_REQ : Field := ⟨0xA0164, 0, 16, .rw, .V, 0x0, 256, 2, 0, 1⟩
-- VS_CONN_SEQ: 13_vehicle_sessions.md, register table "sequencing (+0x10, +0x14)"
def VS_CONN_SEQ.I_RAMP : Field := ⟨0xA0110, 0, 16, .rw, .C, 0x7D0, 256, 2, 0, 1⟩
def VS_CONN_SEQ.I_OPEN : Field := ⟨0xA0110, 16, 8, .rw, .C, 0x5, 256, 2, 0, 1⟩
def VS_CONN_SEQ.PRE_TOL : Field := ⟨0xA0110, 24, 8, .rw, .C, 0x14, 256, 2, 0, 1⟩
-- VS_CONN_TMO: 13_vehicle_sessions.md, register table "sequencing (+0x10, +0x14)"
def VS_CONN_TMO.DECAY_T : Field := ⟨0xA0114, 0, 16, .rw, .C, 0x1F4, 256, 2, 0, 1⟩
def VS_CONN_TMO.PRE_TMO : Field := ⟨0xA0114, 16, 16, .rw, .C, 0x1B58, 256, 2, 0, 1⟩
-- VS_IMD_CFG: 13_vehicle_sessions.md, register table "insulation monitor (+0x18, +0x1C)"
def VS_IMD_CFG.PORT : Field := ⟨0xA0118, 0, 1, .rw, .C, 0x0, 256, 2, 0, 1⟩
def VS_IMD_CFG.BUF : Field := ⟨0xA0118, 1, 6, .rw, .C, 0x0, 256, 2, 0, 1⟩
def VS_IMD_CFG.OFS : Field := ⟨0xA0118, 8, 4, .rw, .C, 0x0, 256, 2, 0, 1⟩
def VS_IMD_CFG.IMD_TMO : Field := ⟨0xA0118, 16, 8, .rw, .C, 0xA, 256, 2, 0, 1⟩
-- VS_IMD_TH: 13_vehicle_sessions.md, register table "insulation monitor (+0x18, +0x1C)"
def VS_IMD_TH.R_FAULT : Field := ⟨0xA011C, 0, 16, .rw, .C, 0x96, 256, 2, 0, 1⟩
def VS_IMD_TH.R_WARN : Field := ⟨0xA011C, 16, 16, .rw, .C, 0x2EE, 256, 2, 0, 1⟩
-- VS_PROX_TH: 13_vehicle_sessions.md, register table "proximity thresholds (+0x20)"
def VS_PROX_TH.TH_NC : Field := ⟨0xA0120, 0, 8, .rw, .C, 0x5A, 256, 2, 0, 1⟩
def VS_PROX_TH.TH_REL : Field := ⟨0xA0120, 8, 8, .rw, .C, 0x32, 256, 2, 0, 1⟩
def VS_PROX_TH.TH_FLT : Field := ⟨0xA0120, 16, 8, .rw, .C, 0xF, 256, 2, 0, 1⟩
-- VS_CONN_STAT: 13_vehicle_sessions.md, register table "connector status (+0x24)"
def VS_CONN_STAT.STATE : Field := ⟨0xA0124, 0, 4, .ro, .V, 0x0, 256, 2, 0, 1⟩
def VS_CONN_STAT.PROX : Field := ⟨0xA0124, 4, 2, .ro, .V, 0x0, 256, 2, 0, 1⟩
def VS_CONN_STAT.IL : Field := ⟨0xA0124, 6, 2, .ro, .V, 0x0, 256, 2, 0, 1⟩
def VS_CONN_STAT.MODE : Field := ⟨0xA0124, 8, 2, .ro, .V, 0x0, 256, 2, 0, 1⟩
def VS_CONN_STAT.DIR : Field := ⟨0xA0124, 10, 1, .ro, .V, 0x0, 256, 2, 0, 1⟩
def VS_CONN_STAT.ID : Field := ⟨0xA0124, 11, 2, .ro, .V, 0x0, 256, 2, 0, 1⟩
def VS_CONN_STAT.COMPLY : Field := ⟨0xA0124, 13, 1, .ro, .V, 0x1, 256, 2, 0, 1⟩
def VS_CONN_STAT.IMD_WARN : Field := ⟨0xA0124, 14, 1, .ro, .V, 0x0, 256, 2, 0, 1⟩
def VS_CONN_STAT.FAST : Field := ⟨0xA0124, 15, 1, .ro, .V, 0x0, 256, 2, 0, 1⟩
def VS_CONN_STAT.END : Field := ⟨0xA0124, 16, 8, .ro, .V, 0x0, 256, 2, 0, 1⟩
def VS_CONN_STAT.FAULT_SEEN : Field := ⟨0xA0124, 24, 1, .w1c, .F, 0x0, 256, 2, 0, 1⟩
def VS_CONN_STAT.ENF_SEEN : Field := ⟨0xA0124, 25, 1, .w1c, .F, 0x0, 256, 2, 0, 1⟩
-- VS_CONN_EV: 13_vehicle_sessions.md, register table "values (+0x28 to +0x34)"
def VS_CONN_EV.I_EV : Field := ⟨0xA0128, 0, 16, .ro, .V, 0x0, 256, 2, 0, 1⟩
def VS_CONN_EV.V_EV : Field := ⟨0xA0128, 16, 16, .ro, .V, 0x0, 256, 2, 0, 1⟩
-- VS_CONN_OFFER: 13_vehicle_sessions.md, register table "values (+0x28 to +0x34)"
def VS_CONN_OFFER.I_OFF : Field := ⟨0xA012C, 0, 16, .ro, .V, 0x0, 256, 2, 0, 1⟩
def VS_CONN_OFFER.P_OFF : Field := ⟨0xA012C, 16, 16, .ro, .V, 0x0, 256, 2, 0, 1⟩
-- VS_CONN_ALLOW: 13_vehicle_sessions.md, register table "values (+0x28 to +0x34)"
def VS_CONN_ALLOW.I_ENF : Field := ⟨0xA0130, 0, 16, .ro, .V, 0x0, 256, 2, 0, 1⟩
def VS_CONN_ALLOW.I_THASK : Field := ⟨0xA0130, 16, 16, .ro, .V, 0xFFFF, 256, 2, 0, 1⟩
-- VS_CONN_ISO: 13_vehicle_sessions.md, register table "values (+0x28 to +0x34)"
def VS_CONN_ISO.R_ISO : Field := ⟨0xA0134, 0, 16, .ro, .V, 0x0, 256, 2, 0, 1⟩
-- VS_CONN_AUTH: 13_vehicle_sessions.md, register table "commands (+0x38, +0x3C)"
def VS_CONN_AUTH.AUTH : Field := ⟨0xA0138, 0, 2, .rw, .V, 0x0, 256, 2, 0, 1⟩
-- VS_CONN_CMD: 13_vehicle_sessions.md, register table "commands (+0x38, +0x3C)"
def VS_CONN_CMD.STOP : Field := ⟨0xA013C, 0, 1, .wo, .V, 0x0, 256, 2, 0, 1⟩
def VS_CONN_CMD.CLR : Field := ⟨0xA013C, 1, 1, .wo, .V, 0x0, 256, 2, 0, 1⟩
-- VS_CONN_ID: 13_vehicle_sessions.md, register table "identifier (+0x40 + 4·w, w = 0 to 7)"
def VS_CONN_ID.ID : Field := ⟨0xA0140, 0, 32, .ro, .V, 0x0, 256, 2, 4, 8⟩
-- VS_CONN_CNT: 13_vehicle_sessions.md, register table "counters (+0x60)"
def VS_CONN_CNT.SESS : Field := ⟨0xA0160, 0, 16, .ro, .N, 0x0, 256, 2, 0, 1⟩
def VS_CONN_CNT.FAULTS : Field := ⟨0xA0160, 16, 16, .ro, .N, 0x0, 256, 2, 0, 1⟩

/-- Block VS, part 0 of its fields. -/
def tabVS0 : List Field := [
  VS_SECC.CERT_SLOT, VS_SECC.ROOT_FIRST, VS_SECC.ROOT_N, VS_SECC.AUTH_TMO,
  VS_CONN_CFG.GRP, VS_CONN_CFG.PT, VS_CONN_CFG.BPT_EN, VS_CONN_CFG.DYN_EN,
  VS_CONN_CFG.PNC_EN, VS_CONN_CFG.EIM_EN, VS_CONN_CFG.WELD_EN, VS_CONN_CFG.LS_POS,
  VS_CONN_CFG.LS_NEG, VS_CONN_FEED.FEED_NODE, VS_CONN_FEED.VLOOP, VS_CONN_RATING.I_CONN_MAX,
  VS_CONN_RATING.V_CONN_MAX, VS_CONN_BPT.I_DIS_MAX, VS_CONN_BPT.I_PRE, VS_CONN_PDIS.P_DIS_REQ,
  VS_CONN_SEQ.I_RAMP, VS_CONN_SEQ.I_OPEN, VS_CONN_SEQ.PRE_TOL, VS_CONN_TMO.DECAY_T,
  VS_CONN_TMO.PRE_TMO, VS_IMD_CFG.PORT, VS_IMD_CFG.BUF, VS_IMD_CFG.OFS,
  VS_IMD_CFG.IMD_TMO, VS_IMD_TH.R_FAULT, VS_IMD_TH.R_WARN, VS_PROX_TH.TH_NC,
  VS_PROX_TH.TH_REL, VS_PROX_TH.TH_FLT, VS_CONN_STAT.STATE, VS_CONN_STAT.PROX,
  VS_CONN_STAT.IL, VS_CONN_STAT.MODE, VS_CONN_STAT.DIR, VS_CONN_STAT.ID,
  VS_CONN_STAT.COMPLY, VS_CONN_STAT.IMD_WARN, VS_CONN_STAT.FAST, VS_CONN_STAT.END,
  VS_CONN_STAT.FAULT_SEEN, VS_CONN_STAT.ENF_SEEN, VS_CONN_EV.I_EV, VS_CONN_EV.V_EV,
  VS_CONN_OFFER.I_OFF, VS_CONN_OFFER.P_OFF, VS_CONN_ALLOW.I_ENF, VS_CONN_ALLOW.I_THASK,
  VS_CONN_ISO.R_ISO, VS_CONN_AUTH.AUTH, VS_CONN_CMD.STOP, VS_CONN_CMD.CLR,
  VS_CONN_ID.ID, VS_CONN_CNT.SESS, VS_CONN_CNT.FAULTS]
/-- Every field of block VS. -/
def tabVS : List Field := tabVS0
/-- The fields of block VS whose reset value is not 0. -/
def nzVS : List Field := [
  VS_SECC.AUTH_TMO, VS_CONN_CFG.DYN_EN, VS_CONN_CFG.PNC_EN, VS_CONN_CFG.EIM_EN,
  VS_CONN_CFG.LS_POS, VS_CONN_CFG.LS_NEG, VS_CONN_FEED.VLOOP, VS_CONN_BPT.I_PRE,
  VS_CONN_SEQ.I_RAMP, VS_CONN_SEQ.I_OPEN, VS_CONN_SEQ.PRE_TOL, VS_CONN_TMO.DECAY_T,
  VS_CONN_TMO.PRE_TMO, VS_IMD_CFG.IMD_TMO, VS_IMD_TH.R_FAULT, VS_IMD_TH.R_WARN,
  VS_PROX_TH.TH_NC, VS_PROX_TH.TH_REL, VS_PROX_TH.TH_FLT, VS_CONN_STAT.COMPLY,
  VS_CONN_ALLOW.I_THASK]

-- TH_STAT: 14_thermal_cable_cooling.md, register table "summary (0x000B_0000)"
def TH_STAT.N_SUSPECT : Field := ⟨0xB0000, 0, 6, .ro, .V, 0x0, 0, 1, 0, 1⟩
def TH_STAT.N_FAILED : Field := ⟨0xB0000, 8, 6, .ro, .V, 0x0, 0, 1, 0, 1⟩
def TH_STAT.ZONE_ENF : Field := ⟨0xB0000, 16, 8, .ro, .V, 0x0, 0, 1, 0, 1⟩
def TH_STAT.ZONE_SHUT : Field := ⟨0xB0000, 24, 8, .ro, .V, 0x0, 0, 1, 0, 1⟩
-- TH_CTRL: 14_thermal_cable_cooling.md, register table "common settings (0x000B_0004)"
def TH_CTRL.GRACE : Field := ⟨0xB0004, 0, 7, .rw, .C, 0x14, 0, 1, 0, 1⟩
def TH_CTRL.DEB : Field := ⟨0xB0004, 8, 4, .rw, .C, 0x3, 0, 1, 0, 1⟩
def TH_CTRL.SNOW : Field := ⟨0xB0004, 16, 8, .rw, .C, 0x32, 0, 1, 0, 1⟩
-- TH_SD_CNT: 14_thermal_cable_cooling.md, register table "shutdown store (0x000B_0008, 0x000B_000C, 0x000B_0010)"
def TH_SD_CNT.SD_CNT : Field := ⟨0xB0008, 0, 16, .ro, .N, 0x0, 0, 1, 0, 1⟩
def TH_SD_CNT.SD_N : Field := ⟨0xB0008, 16, 7, .ro, .N, 0x0, 0, 1, 0, 1⟩
-- TH_SD_ADDR: 14_thermal_cable_cooling.md, register table "shutdown store (0x000B_0008, 0x000B_000C, 0x000B_0010)"
def TH_SD_ADDR.REC : Field := ⟨0xB000C, 0, 6, .rw, .V, 0x0, 0, 1, 0, 1⟩
def TH_SD_ADDR.WORD : Field := ⟨0xB000C, 6, 3, .rw, .V, 0x0, 0, 1, 0, 1⟩
-- TH_SD_DATA: 14_thermal_cable_cooling.md, register table "shutdown store (0x000B_0008, 0x000B_000C, 0x000B_0010)"
def TH_SD_DATA.DATA : Field := ⟨0xB0010, 0, 32, .ro, .N, 0x0, 0, 1, 0, 1⟩
-- TH_INT_VAL: 14_thermal_cable_cooling.md, register table "internal sensors (0x000B_0040 + 4·i, i = 0 to 15)"
def TH_INT_VAL.T : Field := ⟨0xB0040, 0, 16, .ro, .V, 0x0, 4, 16, 0, 1⟩
def TH_INT_VAL.EXCL : Field := ⟨0xB0040, 16, 1, .ro, .V, 0x0, 4, 16, 0, 1⟩
-- TH_XGRP: 14_thermal_cable_cooling.md, register table "cross-check groups (0x000B_0080 + 4·k, k = 0 to 15)"
def TH_XGRP.TOL : Field := ⟨0xB0080, 0, 8, .rw, .C, 0x1E, 4, 16, 0, 1⟩
def TH_XGRP.NX : Field := ⟨0xB0080, 8, 4, .rw, .C, 0x5, 4, 16, 0, 1⟩
-- TH_TS_CFG: 14_thermal_cable_cooling.md, register table "sensor configuration (0x000B_0100 + 0x20·n, n = 0 to 47)"
def TH_TS_CFG.TYPE : Field := ⟨0xB0100, 0, 4, .rw, .C, 0x0, 32, 48, 0, 1⟩
def TH_TS_CFG.XGRP : Field := ⟨0xB0100, 4, 5, .rw, .C, 0x1F, 32, 48, 0, 1⟩
def TH_TS_CFG.FAIL_ACT : Field := ⟨0xB0100, 9, 2, .rw, .C, 0x0, 32, 48, 0, 1⟩
-- TH_TS_LIM: 14_thermal_cable_cooling.md, register table "limits (0x000B_0104 + 0x20·n)"
def TH_TS_LIM.WARN : Field := ⟨0xB0104, 0, 10, .rw, .C, 0x50, 32, 48, 0, 1⟩
def TH_TS_LIM.THR : Field := ⟨0xB0104, 10, 10, .rw, .C, 0x5A, 32, 48, 0, 1⟩
def TH_TS_LIM.SHUT : Field := ⟨0xB0104, 20, 10, .rw, .C, 0x64, 32, 48, 0, 1⟩
-- TH_TS_VAL: 14_thermal_cable_cooling.md, register table "values (0x000B_0108, 0x000B_010C, 0x000B_0110 + 0x20·n)"
def TH_TS_VAL.REP : Field := ⟨0xB0108, 0, 16, .ro, .V, 0x0, 32, 48, 0, 1⟩
def TH_TS_VAL.RAW : Field := ⟨0xB0108, 16, 16, .ro, .V, 0x0, 32, 48, 0, 1⟩
-- TH_TS_STAT: 14_thermal_cable_cooling.md, register table "values (0x000B_0108, 0x000B_010C, 0x000B_0110 + 0x20·n)"
def TH_TS_STAT.STATE : Field := ⟨0xB010C, 0, 2, .ro, .V, 0x0, 32, 48, 0, 1⟩
def TH_TS_STAT.SNOW : Field := ⟨0xB010C, 2, 1, .ro, .V, 0x0, 32, 48, 0, 1⟩
def TH_TS_STAT.WARN : Field := ⟨0xB010C, 3, 1, .ro, .V, 0x0, 32, 48, 0, 1⟩
def TH_TS_STAT.SUSP_SEEN : Field := ⟨0xB010C, 8, 1, .w1c, .F, 0x0, 32, 48, 0, 1⟩
def TH_TS_STAT.FAIL_SEEN : Field := ⟨0xB010C, 9, 1, .w1c, .F, 0x0, 32, 48, 0, 1⟩
-- TH_TS_RES: 14_thermal_cable_cooling.md, register table "values (0x000B_0108, 0x000B_010C, 0x000B_0110 + 0x20·n)"
def TH_TS_RES.RES : Field := ⟨0xB0110, 0, 21, .ro, .V, 0x0, 32, 48, 0, 1⟩
-- TH_CURVE: 14_thermal_cable_cooling.md, register table "sensor tables (0x000B_0800 + 0x80·k + 4·p, k = 0 to 3, p = 0 to 31)"
def TH_CURVE.R : Field := ⟨0xB0800, 0, 20, .rw, .C, 0x0, 128, 4, 4, 32⟩
def TH_CURVE.T : Field := ⟨0xB0800, 20, 12, .rw, .C, 0x0, 128, 4, 4, 32⟩
-- TH_CM_CFG: 14_thermal_cable_cooling.md, register table "Cable models (0x000B_0A00 to 0x000B_0A10 + 0x20·m, m = 0, 1)"
def TH_CM_CFG.EN : Field := ⟨0xB0A00, 0, 1, .rw, .C, 0x0, 32, 2, 0, 1⟩
def TH_CM_CFG.PT : Field := ⟨0xB0A00, 1, 3, .rw, .C, 0x0, 32, 2, 0, 1⟩
def TH_CM_CFG.TCOOL : Field := ⟨0xB0A00, 8, 6, .rw, .C, 0x0, 32, 2, 0, 1⟩
-- TH_CM_PAR1: 14_thermal_cable_cooling.md, register table "Cable models (0x000B_0A00 to 0x000B_0A10 + 0x20·m, m = 0, 1)"
def TH_CM_PAR1.R20 : Field := ⟨0xB0A04, 0, 16, .rw, .C, 0x0, 32, 2, 0, 1⟩
def TH_CM_PAR1.ALPHA : Field := ⟨0xB0A04, 16, 16, .rw, .C, 0xF5A, 32, 2, 0, 1⟩
-- TH_CM_PAR2: 14_thermal_cable_cooling.md, register table "Cable models (0x000B_0A00 to 0x000B_0A10 + 0x20·m, m = 0, 1)"
def TH_CM_PAR2.RTH : Field := ⟨0xB0A08, 0, 16, .rw, .C, 0x0, 32, 2, 0, 1⟩
def TH_CM_PAR2.TAU : Field := ⟨0xB0A08, 16, 16, .rw, .C, 0x3C, 32, 2, 0, 1⟩
-- TH_CM_LIM: 14_thermal_cable_cooling.md, register table "Cable models (0x000B_0A00 to 0x000B_0A10 + 0x20·m, m = 0, 1)"
def TH_CM_LIM.WARN : Field := ⟨0xB0A0C, 0, 10, .rw, .C, 0x50, 32, 2, 0, 1⟩
def TH_CM_LIM.THR : Field := ⟨0xB0A0C, 10, 10, .rw, .C, 0x5A, 32, 2, 0, 1⟩
def TH_CM_LIM.SHUT : Field := ⟨0xB0A0C, 20, 10, .rw, .C, 0x64, 32, 2, 0, 1⟩
-- TH_CM_VAL: 14_thermal_cable_cooling.md, register table "Cable models (0x000B_0A00 to 0x000B_0A10 + 0x20·m, m = 0, 1)"
def TH_CM_VAL.T : Field := ⟨0xB0A10, 0, 16, .ro, .F, 0x0, 32, 2, 0, 1⟩
def TH_CM_VAL.SUSPECT : Field := ⟨0xB0A10, 16, 1, .ro, .V, 0x0, 32, 2, 0, 1⟩
-- TH_ZONE_CFG: 14_thermal_cable_cooling.md, register table "Zones (0x000B_0C00 to 0x000B_0C18 + 0x20·z, z = 0 to 7)"
def TH_ZONE_CFG.EN : Field := ⟨0xB0C00, 0, 1, .rw, .C, 0x0, 32, 8, 0, 1⟩
def TH_ZONE_CFG.LATCH : Field := ⟨0xB0C00, 1, 1, .rwa, .C, 0x0, 32, 8, 0, 1⟩
def TH_ZONE_CFG.SHUT_SO : Field := ⟨0xB0C00, 2, 1, .rwa, .C, 0x0, 32, 8, 0, 1⟩
def TH_ZONE_CFG.CFG_ERR : Field := ⟨0xB0C00, 3, 1, .ro, .V, 0x0, 32, 8, 0, 1⟩
def TH_ZONE_CFG.GRPS : Field := ⟨0xB0C00, 8, 8, .rw, .C, 0x0, 32, 8, 0, 1⟩
def TH_ZONE_CFG.CONN : Field := ⟨0xB0C00, 16, 2, .rw, .C, 0x0, 32, 8, 0, 1⟩
def TH_ZONE_CFG.THR_HYS : Field := ⟨0xB0C00, 24, 8, .rw, .C, 0x14, 32, 8, 0, 1⟩
-- TH_ZONE_SNS0: 14_thermal_cable_cooling.md, register table "Zones (0x000B_0C00 to 0x000B_0C18 + 0x20·z, z = 0 to 7)"
def TH_ZONE_SNS0.SNS : Field := ⟨0xB0C04, 0, 32, .rw, .C, 0x0, 32, 8, 0, 1⟩
-- TH_ZONE_SNS1: 14_thermal_cable_cooling.md, register table "Zones (0x000B_0C00 to 0x000B_0C18 + 0x20·z, z = 0 to 7)"
def TH_ZONE_SNS1.SNS : Field := ⟨0xB0C08, 0, 16, .rw, .C, 0x0, 32, 8, 0, 1⟩
def TH_ZONE_SNS1.CM : Field := ⟨0xB0C08, 16, 2, .rw, .C, 0x0, 32, 8, 0, 1⟩
-- TH_ZONE_I: 14_thermal_cable_cooling.md, register table "Zones (0x000B_0C00 to 0x000B_0C18 + 0x20·z, z = 0 to 7)"
def TH_ZONE_I.I_TOP : Field := ⟨0xB0C0C, 0, 16, .rw, .C, 0x0, 32, 8, 0, 1⟩
def TH_ZONE_I.I_BOT : Field := ⟨0xB0C0C, 16, 16, .rw, .C, 0x0, 32, 8, 0, 1⟩
-- TH_ZONE_RST: 14_thermal_cable_cooling.md, register table "Zones (0x000B_0C00 to 0x000B_0C18 + 0x20·z, z = 0 to 7)"
def TH_ZONE_RST.RST_T : Field := ⟨0xB0C10, 0, 8, .rw, .C, 0x3C, 32, 8, 0, 1⟩
def TH_ZONE_RST.CLR : Field := ⟨0xB0C10, 8, 1, .rwa, .V, 0x0, 32, 8, 0, 1⟩
-- TH_ZONE_STAT: 14_thermal_cable_cooling.md, register table "Zones (0x000B_0C00 to 0x000B_0C18 + 0x20·z, z = 0 to 7)"
def TH_ZONE_STAT.STATE : Field := ⟨0xB0C14, 0, 2, .ro, .V, 0x0, 32, 8, 0, 1⟩
def TH_ZONE_STAT.GRACE_LEFT : Field := ⟨0xB0C14, 4, 7, .ro, .V, 0x0, 32, 8, 0, 1⟩
def TH_ZONE_STAT.HOT : Field := ⟨0xB0C14, 16, 8, .ro, .V, 0x0, 32, 8, 0, 1⟩
def TH_ZONE_STAT.LATCHED : Field := ⟨0xB0C14, 24, 1, .ro, .N, 0x0, 32, 8, 0, 1⟩
def TH_ZONE_STAT.ENF_SEEN : Field := ⟨0xB0C14, 25, 1, .w1c, .F, 0x0, 32, 8, 0, 1⟩
def TH_ZONE_STAT.SHUT_SEEN : Field := ⟨0xB0C14, 26, 1, .w1c, .F, 0x0, 32, 8, 0, 1⟩
-- TH_ZONE_ALLOW: 14_thermal_cable_cooling.md, register table "Zones (0x000B_0C00 to 0x000B_0C18 + 0x20·z, z = 0 to 7)"
def TH_ZONE_ALLOW.ALLOW : Field := ⟨0xB0C18, 0, 16, .ro, .V, 0xFFFF, 32, 8, 0, 1⟩
def TH_ZONE_ALLOW.X : Field := ⟨0xB0C18, 16, 16, .ro, .V, 0x0, 32, 8, 0, 1⟩
-- TH_FLOW_CFG: 14_thermal_cable_cooling.md, register table "Flow inputs (0x000B_0E00 and 0x000B_0E04 + 0x10·f, f = 0 to 3)"
def TH_FLOW_CFG.PORT : Field := ⟨0xB0E00, 0, 1, .rw, .C, 0x0, 16, 4, 0, 1⟩
def TH_FLOW_CFG.BUF : Field := ⟨0xB0E00, 1, 6, .rw, .C, 0x0, 16, 4, 0, 1⟩
def TH_FLOW_CFG.OFS : Field := ⟨0xB0E00, 8, 4, .rw, .C, 0x0, 16, 4, 0, 1⟩
def TH_FLOW_CFG.TMO : Field := ⟨0xB0E00, 16, 8, .rw, .C, 0xA, 16, 4, 0, 1⟩
-- TH_FLOW_VAL: 14_thermal_cable_cooling.md, register table "Flow inputs (0x000B_0E00 and 0x000B_0E04 + 0x10·f, f = 0 to 3)"
def TH_FLOW_VAL.FLOW : Field := ⟨0xB0E04, 0, 16, .ro, .V, 0x0, 16, 4, 0, 1⟩
def TH_FLOW_VAL.VALID : Field := ⟨0xB0E04, 16, 1, .ro, .V, 0x0, 16, 4, 0, 1⟩
-- TH_CC_CFG: 14_thermal_cable_cooling.md, register table "Coolant circuits (0x000B_0F00 to 0x000B_0F10 + 0x20·k, k = 0, 1)"
def TH_CC_CFG.EN : Field := ⟨0xB0F00, 0, 1, .rw, .C, 0x0, 32, 2, 0, 1⟩
def TH_CC_CFG.FLOW_ACT : Field := ⟨0xB0F00, 1, 1, .rw, .C, 0x1, 32, 2, 0, 1⟩
def TH_CC_CFG.HEAT_FLOW : Field := ⟨0xB0F00, 2, 1, .rw, .C, 0x1, 32, 2, 0, 1⟩
def TH_CC_CFG.FLOW : Field := ⟨0xB0F00, 4, 2, .rw, .C, 0x0, 32, 2, 0, 1⟩
def TH_CC_CFG.CONN : Field := ⟨0xB0F00, 6, 2, .rw, .C, 0x0, 32, 2, 0, 1⟩
def TH_CC_CFG.PUMP_LS : Field := ⟨0xB0F00, 8, 5, .rw, .C, 0x1F, 32, 2, 0, 1⟩
def TH_CC_CFG.VALVE_LS : Field := ⟨0xB0F00, 16, 5, .rw, .C, 0x1F, 32, 2, 0, 1⟩
def TH_CC_CFG.HEAT_LS : Field := ⟨0xB0F00, 24, 5, .rw, .C, 0x1F, 32, 2, 0, 1⟩
-- TH_CC_TEMP: 14_thermal_cable_cooling.md, register table "Coolant circuits (0x000B_0F00 to 0x000B_0F10 + 0x20·k, k = 0, 1)"
def TH_CC_TEMP.TIN : Field := ⟨0xB0F04, 0, 6, .rw, .C, 0x0, 32, 2, 0, 1⟩
def TH_CC_TEMP.TOUT : Field := ⟨0xB0F04, 8, 6, .rw, .C, 0x0, 32, 2, 0, 1⟩
def TH_CC_TEMP.COOL_ON : Field := ⟨0xB0F04, 16, 8, .rw, .C, 0x28, 32, 2, 0, 1⟩
def TH_CC_TEMP.ZONE : Field := ⟨0xB0F04, 24, 3, .rw, .C, 0x0, 32, 2, 0, 1⟩
-- TH_CC_FLOW: 14_thermal_cable_cooling.md, register table "Coolant circuits (0x000B_0F00 to 0x000B_0F10 + 0x20·k, k = 0, 1)"
def TH_CC_FLOW.FLOW_MIN : Field := ⟨0xB0F08, 0, 16, .rw, .C, 0x0, 32, 2, 0, 1⟩
def TH_CC_FLOW.FLOW_T : Field := ⟨0xB0F08, 16, 8, .rw, .C, 0x1E, 32, 2, 0, 1⟩
def TH_CC_FLOW.AFTER_T : Field := ⟨0xB0F08, 24, 8, .rw, .C, 0xC, 32, 2, 0, 1⟩
-- TH_CC_HEAT: 14_thermal_cable_cooling.md, register table "Coolant circuits (0x000B_0F00 to 0x000B_0F10 + 0x20·k, k = 0, 1)"
def TH_CC_HEAT.HEAT_ON : Field := ⟨0xB0F0C, 0, 8, .rw, .C, 0xEC, 32, 2, 0, 1⟩
def TH_CC_HEAT.HEAT_OFF : Field := ⟨0xB0F0C, 8, 8, .rw, .C, 0xF6, 32, 2, 0, 1⟩
-- TH_CC_STAT: 14_thermal_cable_cooling.md, register table "Coolant circuits (0x000B_0F00 to 0x000B_0F10 + 0x20·k, k = 0, 1)"
def TH_CC_STAT.RUN : Field := ⟨0xB0F10, 0, 1, .ro, .V, 0x0, 32, 2, 0, 1⟩
def TH_CC_STAT.HEAT : Field := ⟨0xB0F10, 1, 1, .ro, .V, 0x0, 32, 2, 0, 1⟩
def TH_CC_STAT.FLOW_FLT : Field := ⟨0xB0F10, 2, 1, .ro, .V, 0x0, 32, 2, 0, 1⟩
def TH_CC_STAT.FLOW_SEEN : Field := ⟨0xB0F10, 8, 1, .w1c, .F, 0x0, 32, 2, 0, 1⟩

/-- Block TH, part 0 of its fields. -/
def tabTH0 : List Field := [
  TH_STAT.N_SUSPECT, TH_STAT.N_FAILED, TH_STAT.ZONE_ENF, TH_STAT.ZONE_SHUT,
  TH_CTRL.GRACE, TH_CTRL.DEB, TH_CTRL.SNOW, TH_SD_CNT.SD_CNT,
  TH_SD_CNT.SD_N, TH_SD_ADDR.REC, TH_SD_ADDR.WORD, TH_SD_DATA.DATA,
  TH_INT_VAL.T, TH_INT_VAL.EXCL, TH_XGRP.TOL, TH_XGRP.NX,
  TH_TS_CFG.TYPE, TH_TS_CFG.XGRP, TH_TS_CFG.FAIL_ACT, TH_TS_LIM.WARN,
  TH_TS_LIM.THR, TH_TS_LIM.SHUT, TH_TS_VAL.REP, TH_TS_VAL.RAW,
  TH_TS_STAT.STATE, TH_TS_STAT.SNOW, TH_TS_STAT.WARN, TH_TS_STAT.SUSP_SEEN,
  TH_TS_STAT.FAIL_SEEN, TH_TS_RES.RES, TH_CURVE.R, TH_CURVE.T,
  TH_CM_CFG.EN, TH_CM_CFG.PT, TH_CM_CFG.TCOOL, TH_CM_PAR1.R20,
  TH_CM_PAR1.ALPHA, TH_CM_PAR2.RTH, TH_CM_PAR2.TAU, TH_CM_LIM.WARN,
  TH_CM_LIM.THR, TH_CM_LIM.SHUT, TH_CM_VAL.T, TH_CM_VAL.SUSPECT,
  TH_ZONE_CFG.EN, TH_ZONE_CFG.LATCH, TH_ZONE_CFG.SHUT_SO, TH_ZONE_CFG.CFG_ERR,
  TH_ZONE_CFG.GRPS, TH_ZONE_CFG.CONN, TH_ZONE_CFG.THR_HYS, TH_ZONE_SNS0.SNS,
  TH_ZONE_SNS1.SNS, TH_ZONE_SNS1.CM, TH_ZONE_I.I_TOP, TH_ZONE_I.I_BOT,
  TH_ZONE_RST.RST_T, TH_ZONE_RST.CLR, TH_ZONE_STAT.STATE, TH_ZONE_STAT.GRACE_LEFT]
/-- Block TH, part 1 of its fields. -/
def tabTH1 : List Field := [
  TH_ZONE_STAT.HOT, TH_ZONE_STAT.LATCHED, TH_ZONE_STAT.ENF_SEEN, TH_ZONE_STAT.SHUT_SEEN,
  TH_ZONE_ALLOW.ALLOW, TH_ZONE_ALLOW.X, TH_FLOW_CFG.PORT, TH_FLOW_CFG.BUF,
  TH_FLOW_CFG.OFS, TH_FLOW_CFG.TMO, TH_FLOW_VAL.FLOW, TH_FLOW_VAL.VALID,
  TH_CC_CFG.EN, TH_CC_CFG.FLOW_ACT, TH_CC_CFG.HEAT_FLOW, TH_CC_CFG.FLOW,
  TH_CC_CFG.CONN, TH_CC_CFG.PUMP_LS, TH_CC_CFG.VALVE_LS, TH_CC_CFG.HEAT_LS,
  TH_CC_TEMP.TIN, TH_CC_TEMP.TOUT, TH_CC_TEMP.COOL_ON, TH_CC_TEMP.ZONE,
  TH_CC_FLOW.FLOW_MIN, TH_CC_FLOW.FLOW_T, TH_CC_FLOW.AFTER_T, TH_CC_HEAT.HEAT_ON,
  TH_CC_HEAT.HEAT_OFF, TH_CC_STAT.RUN, TH_CC_STAT.HEAT, TH_CC_STAT.FLOW_FLT,
  TH_CC_STAT.FLOW_SEEN]
/-- Every field of block TH. -/
def tabTH : List Field := tabTH0 ++ tabTH1
/-- The fields of block TH whose reset value is not 0. -/
def nzTH : List Field := [
  TH_CTRL.GRACE, TH_CTRL.DEB, TH_CTRL.SNOW, TH_XGRP.TOL,
  TH_XGRP.NX, TH_TS_CFG.XGRP, TH_TS_LIM.WARN, TH_TS_LIM.THR,
  TH_TS_LIM.SHUT, TH_CM_PAR1.ALPHA, TH_CM_PAR2.TAU, TH_CM_LIM.WARN,
  TH_CM_LIM.THR, TH_CM_LIM.SHUT, TH_ZONE_CFG.THR_HYS, TH_ZONE_RST.RST_T,
  TH_ZONE_ALLOW.ALLOW, TH_FLOW_CFG.TMO, TH_CC_CFG.FLOW_ACT, TH_CC_CFG.HEAT_FLOW,
  TH_CC_CFG.PUMP_LS, TH_CC_CFG.VALVE_LS, TH_CC_CFG.HEAT_LS, TH_CC_TEMP.COOL_ON,
  TH_CC_FLOW.FLOW_T, TH_CC_FLOW.AFTER_T, TH_CC_HEAT.HEAT_ON, TH_CC_HEAT.HEAT_OFF]

-- CS_CTRL: 15_buffer_battery.md, register table "ring control (0x000C_0000)"
def CS_CTRL.EN : Field := ⟨0xC0000, 0, 1, .rw, .C, 0x0, 0, 1, 0, 1⟩
def CS_CTRL.PAUSE_EN : Field := ⟨0xC0000, 1, 1, .rw, .C, 0x1, 0, 1, 0, 1⟩
def CS_CTRL.BAL_AUTO : Field := ⟨0xC0000, 2, 1, .rw, .C, 0x0, 0, 1, 0, 1⟩
def CS_CTRL.PROT_ACT : Field := ⟨0xC0000, 3, 1, .rwa, .C, 0x1, 0, 1, 0, 1⟩
def CS_CTRL.LOST_ACT : Field := ⟨0xC0000, 4, 1, .rwa, .C, 0x1, 0, 1, 0, 1⟩
def CS_CTRL.PT : Field := ⟨0xC0000, 5, 3, .rw, .C, 0x0, 0, 1, 0, 1⟩
def CS_CTRL.CHAN : Field := ⟨0xC0000, 8, 5, .rw, .C, 0xF, 0, 1, 0, 1⟩
def CS_CTRL.TXP : Field := ⟨0xC0000, 16, 4, .rw, .C, 0xA, 0, 1, 0, 1⟩
def CS_CTRL.LOST_N : Field := ⟨0xC0000, 20, 4, .rw, .C, 0x4, 0, 1, 0, 1⟩
def CS_CTRL.PER_HC : Field := ⟨0xC0000, 24, 8, .rw, .C, 0x19, 0, 1, 0, 1⟩
-- CS_CFG2: 15_buffer_battery.md, register table "ring size, pause and outputs (0x000C_0004)"
def CS_CFG2.N_CFG : Field := ⟨0xC0004, 0, 7, .rw, .C, 0x0, 0, 1, 0, 1⟩
def CS_CFG2.PAUSE_T : Field := ⟨0xC0004, 8, 8, .rw, .C, 0xF, 0, 1, 0, 1⟩
def CS_CFG2.PVMAX : Field := ⟨0xC0004, 16, 5, .rw, .C, 0x1F, 0, 1, 0, 1⟩
def CS_CFG2.PVMIN : Field := ⟨0xC0004, 21, 5, .rw, .C, 0x1F, 0, 1, 0, 1⟩
-- CS_SNAP_OFS: 15_buffer_battery.md, register table "snap angle (0x000C_0008)"
def CS_SNAP_OFS.SNAP_OFS : Field := ⟨0xC0008, 0, 23, .rw, .C, 0x0, 0, 1, 0, 1⟩
-- CS_LIM_V: 15_buffer_battery.md, register table "cell voltage limits (0x000C_000C)"
def CS_LIM_V.V_UV : Field := ⟨0xC000C, 0, 16, .rw, .C, 0x6590, 0, 1, 0, 1⟩
def CS_LIM_V.V_OV : Field := ⟨0xC000C, 16, 16, .rw, .C, 0xA604, 0, 1, 0, 1⟩
-- CS_LIM_B: 15_buffer_battery.md, register table "balancing and temperature limits (0x000C_0010)"
def CS_LIM_B.BAL_VMIN : Field := ⟨0xC0010, 0, 16, .rw, .C, 0x80E8, 0, 1, 0, 1⟩
def CS_LIM_B.BAL_DV : Field := ⟨0xC0010, 16, 8, .rw, .C, 0xA, 0, 1, 0, 1⟩
def CS_LIM_B.T_MAX : Field := ⟨0xC0010, 24, 8, .rw, .C, 0x3C, 0, 1, 0, 1⟩
-- CS_STAT: 15_buffer_battery.md, register table "ring state (0x000C_0020)"
def CS_STAT.STATE : Field := ⟨0xC0020, 0, 3, .ro, .V, 0x0, 0, 1, 0, 1⟩
def CS_STAT.BROKEN : Field := ⟨0xC0020, 3, 1, .ro, .V, 0x0, 0, 1, 0, 1⟩
def CS_STAT.ORDER_ERR : Field := ⟨0xC0020, 4, 1, .ro, .V, 0x0, 0, 1, 0, 1⟩
def CS_STAT.N : Field := ⟨0xC0020, 8, 7, .ro, .V, 0x0, 0, 1, 0, 1⟩
def CS_STAT.H_A : Field := ⟨0xC0020, 16, 7, .ro, .V, 0x0, 0, 1, 0, 1⟩
def CS_STAT.BRK_AT : Field := ⟨0xC0020, 24, 7, .ro, .V, 0x7F, 0, 1, 0, 1⟩
-- CS_SEEN: 15_buffer_battery.md, register table "history flags (0x000C_0024)"
def CS_SEEN.BRK_SEEN : Field := ⟨0xC0024, 0, 1, .w1c, .F, 0x0, 0, 1, 0, 1⟩
def CS_SEEN.LOST_SEEN : Field := ⟨0xC0024, 1, 1, .w1c, .F, 0x0, 0, 1, 0, 1⟩
def CS_SEEN.LIM_SEEN : Field := ⟨0xC0024, 2, 1, .w1c, .F, 0x0, 0, 1, 0, 1⟩
def CS_SEEN.SKIP_SEEN : Field := ⟨0xC0024, 3, 1, .w1c, .F, 0x0, 0, 1, 0, 1⟩
-- CS_PER: 15_buffer_battery.md, register table "period in force (0x000C_0028)"
def CS_PER.PER_ACT : Field := ⟨0xC0028, 0, 8, .ro, .V, 0x0, 0, 1, 0, 1⟩
def CS_PER.T_SWEEP : Field := ⟨0xC0028, 16, 16, .ro, .V, 0x0, 0, 1, 0, 1⟩
-- CS_SWEEP: 15_buffer_battery.md, register table "last complete sweep (0x000C_0030)"
def CS_SWEEP.SWEEP : Field := ⟨0xC0030, 0, 8, .ro, .V, 0x0, 0, 1, 0, 1⟩
def CS_SWEEP.MISS : Field := ⟨0xC0030, 8, 7, .ro, .V, 0x0, 0, 1, 0, 1⟩
def CS_SWEEP.I_VALID : Field := ⟨0xC0030, 15, 1, .ro, .V, 0x0, 0, 1, 0, 1⟩
-- CS_SWEEP_STAMP_LO: 15_buffer_battery.md, register table "snap stamp and current (0x000C_0034, 0x000C_0038, 0x000C_003C)"
def CS_SWEEP_STAMP_LO.STAMP : Field := ⟨0xC0034, 0, 32, .ro, .V, 0x0, 0, 1, 0, 1⟩
-- CS_SWEEP_STAMP_HI: 15_buffer_battery.md, register table "snap stamp and current (0x000C_0034, 0x000C_0038, 0x000C_003C)"
def CS_SWEEP_STAMP_HI.STAMP : Field := ⟨0xC0038, 0, 32, .ro, .V, 0x0, 0, 1, 0, 1⟩
-- CS_SWEEP_I: 15_buffer_battery.md, register table "snap stamp and current (0x000C_0034, 0x000C_0038, 0x000C_003C)"
def CS_SWEEP_I.I : Field := ⟨0xC003C, 0, 32, .ro, .V, 0x80000000, 0, 1, 0, 1⟩
-- CS_VEXT: 15_buffer_battery.md, register table "extremes (0x000C_0040 and 0x000C_0044)"
def CS_VEXT.VMIN : Field := ⟨0xC0040, 0, 16, .ro, .V, 0x0, 0, 1, 0, 1⟩
def CS_VEXT.VMAX : Field := ⟨0xC0040, 16, 16, .ro, .V, 0x0, 0, 1, 0, 1⟩
-- CS_VEXT_IDX: 15_buffer_battery.md, register table "extremes (0x000C_0040 and 0x000C_0044)"
def CS_VEXT_IDX.VMIN_IDX : Field := ⟨0xC0044, 0, 10, .ro, .V, 0x0, 0, 1, 0, 1⟩
def CS_VEXT_IDX.VMAX_IDX : Field := ⟨0xC0044, 16, 10, .ro, .V, 0x0, 0, 1, 0, 1⟩
-- CS_CNT0: 15_buffer_battery.md, register table "counters (0x000C_0050 and 0x000C_0054)"
def CS_CNT0.SWEEPS : Field := ⟨0xC0050, 0, 16, .ro, .V, 0x0, 0, 1, 0, 1⟩
def CS_CNT0.SKIPPED : Field := ⟨0xC0050, 16, 16, .ro, .V, 0x0, 0, 1, 0, 1⟩
-- CS_CNT1: 15_buffer_battery.md, register table "counters (0x000C_0050 and 0x000C_0054)"
def CS_CNT1.MISSING : Field := ⟨0xC0054, 0, 16, .ro, .V, 0x0, 0, 1, 0, 1⟩
def CS_CNT1.RECOLL : Field := ⟨0xC0054, 16, 16, .ro, .V, 0x0, 0, 1, 0, 1⟩
-- CS_UNIT_SER_LO: 15_buffer_battery.md, register table "Unit registers (0x000C_0100 to 0x000C_010C + 0x10·u, u = ring index − 1, 0 to 63)"
def CS_UNIT_SER_LO.SER_LO : Field := ⟨0xC0100, 0, 32, .rw, .C, 0x0, 16, 64, 0, 1⟩
-- CS_UNIT_SER_HI: 15_buffer_battery.md, register table "Unit registers (0x000C_0100 to 0x000C_010C + 0x10·u, u = ring index − 1, 0 to 63)"
def CS_UNIT_SER_HI.SER_HI : Field := ⟨0xC0104, 0, 32, .rw, .C, 0x0, 16, 64, 0, 1⟩
-- CS_UNIT_STAT: 15_buffer_battery.md, register table "Unit registers (0x000C_0100 to 0x000C_010C + 0x10·u, u = ring index − 1, 0 to 63)"
def CS_UNIT_STAT.STATE : Field := ⟨0xC0108, 0, 2, .ro, .V, 0x0, 16, 64, 0, 1⟩
def CS_UNIT_STAT.HALF : Field := ⟨0xC0108, 2, 1, .ro, .V, 0x0, 16, 64, 0, 1⟩
def CS_UNIT_STAT.MISMATCH : Field := ⟨0xC0108, 3, 1, .ro, .V, 0x0, 16, 64, 0, 1⟩
def CS_UNIT_STAT.MISS_CNT : Field := ⟨0xC0108, 4, 4, .ro, .V, 0x0, 16, 64, 0, 1⟩
def CS_UNIT_STAT.T0 : Field := ⟨0xC0108, 8, 8, .ro, .V, 0x0, 16, 64, 0, 1⟩
def CS_UNIT_STAT.T1 : Field := ⟨0xC0108, 16, 8, .ro, .V, 0x0, 16, 64, 0, 1⟩
def CS_UNIT_STAT.LOST_SEEN : Field := ⟨0xC0108, 24, 1, .w1c, .F, 0x0, 16, 64, 0, 1⟩
-- CS_UNIT_BAL: 15_buffer_battery.md, register table "Unit registers (0x000C_0100 to 0x000C_010C + 0x10·u, u = ring index − 1, 0 to 63)"
def CS_UNIT_BAL.MASK : Field := ⟨0xC010C, 0, 16, .rw, .V, 0x0, 16, 64, 0, 1⟩
def CS_UNIT_BAL.DUR : Field := ⟨0xC010C, 16, 6, .rw, .V, 0x0, 16, 64, 0, 1⟩
def CS_UNIT_BAL.PEND : Field := ⟨0xC010C, 23, 1, .ro, .V, 0x0, 16, 64, 0, 1⟩
def CS_UNIT_BAL.SEND : Field := ⟨0xC010C, 24, 1, .wo, .V, 0x0, 16, 64, 0, 1⟩
-- CS_CELL: 15_buffer_battery.md, register table "cell values (0x000C_0800 + 4·k, k = 0 to 1,023)"
def CS_CELL.V : Field := ⟨0xC0800, 0, 16, .ro, .V, 0xFFFF, 4, 1024, 0, 1⟩
def CS_CELL.FRESH : Field := ⟨0xC0800, 16, 1, .ro, .V, 0x0, 4, 1024, 0, 1⟩
def CS_CELL.DISTURBED : Field := ⟨0xC0800, 17, 1, .ro, .V, 0x0, 4, 1024, 0, 1⟩
def CS_CELL.BAL : Field := ⟨0xC0800, 18, 1, .ro, .V, 0x0, 4, 1024, 0, 1⟩
def CS_CELL.FAULT : Field := ⟨0xC0800, 19, 1, .ro, .V, 0x0, 4, 1024, 0, 1⟩
def CS_CELL.AGE : Field := ⟨0xC0800, 24, 8, .ro, .V, 0xFF, 4, 1024, 0, 1⟩

/-- Block CS, part 0 of its fields. -/
def tabCS0 : List Field := [
  CS_CTRL.EN, CS_CTRL.PAUSE_EN, CS_CTRL.BAL_AUTO, CS_CTRL.PROT_ACT,
  CS_CTRL.LOST_ACT, CS_CTRL.PT, CS_CTRL.CHAN, CS_CTRL.TXP,
  CS_CTRL.LOST_N, CS_CTRL.PER_HC, CS_CFG2.N_CFG, CS_CFG2.PAUSE_T,
  CS_CFG2.PVMAX, CS_CFG2.PVMIN, CS_SNAP_OFS.SNAP_OFS, CS_LIM_V.V_UV,
  CS_LIM_V.V_OV, CS_LIM_B.BAL_VMIN, CS_LIM_B.BAL_DV, CS_LIM_B.T_MAX,
  CS_STAT.STATE, CS_STAT.BROKEN, CS_STAT.ORDER_ERR, CS_STAT.N,
  CS_STAT.H_A, CS_STAT.BRK_AT, CS_SEEN.BRK_SEEN, CS_SEEN.LOST_SEEN,
  CS_SEEN.LIM_SEEN, CS_SEEN.SKIP_SEEN, CS_PER.PER_ACT, CS_PER.T_SWEEP,
  CS_SWEEP.SWEEP, CS_SWEEP.MISS, CS_SWEEP.I_VALID, CS_SWEEP_STAMP_LO.STAMP,
  CS_SWEEP_STAMP_HI.STAMP, CS_SWEEP_I.I, CS_VEXT.VMIN, CS_VEXT.VMAX,
  CS_VEXT_IDX.VMIN_IDX, CS_VEXT_IDX.VMAX_IDX, CS_CNT0.SWEEPS, CS_CNT0.SKIPPED,
  CS_CNT1.MISSING, CS_CNT1.RECOLL, CS_UNIT_SER_LO.SER_LO, CS_UNIT_SER_HI.SER_HI,
  CS_UNIT_STAT.STATE, CS_UNIT_STAT.HALF, CS_UNIT_STAT.MISMATCH, CS_UNIT_STAT.MISS_CNT,
  CS_UNIT_STAT.T0, CS_UNIT_STAT.T1, CS_UNIT_STAT.LOST_SEEN, CS_UNIT_BAL.MASK,
  CS_UNIT_BAL.DUR, CS_UNIT_BAL.PEND, CS_UNIT_BAL.SEND, CS_CELL.V]
/-- Block CS, part 1 of its fields. -/
def tabCS1 : List Field := [
  CS_CELL.FRESH, CS_CELL.DISTURBED, CS_CELL.BAL, CS_CELL.FAULT,
  CS_CELL.AGE]
/-- Every field of block CS. -/
def tabCS : List Field := tabCS0 ++ tabCS1
/-- The fields of block CS whose reset value is not 0. -/
def nzCS : List Field := [
  CS_CTRL.PAUSE_EN, CS_CTRL.PROT_ACT, CS_CTRL.LOST_ACT, CS_CTRL.CHAN,
  CS_CTRL.TXP, CS_CTRL.LOST_N, CS_CTRL.PER_HC, CS_CFG2.PAUSE_T,
  CS_CFG2.PVMAX, CS_CFG2.PVMIN, CS_LIM_V.V_UV, CS_LIM_V.V_OV,
  CS_LIM_B.BAL_VMIN, CS_LIM_B.BAL_DV, CS_LIM_B.T_MAX, CS_STAT.BRK_AT,
  CS_SWEEP_I.I, CS_CELL.V, CS_CELL.AGE]

-- LSW_STAT: 16_load_switches.md, register table "channel summary (0x000D_0000)"
def LSW_STAT.OUT : Field := ⟨0xD0000, 0, 16, .ro, .V, 0x0, 0, 1, 0, 1⟩
def LSW_STAT.LATCHED : Field := ⟨0xD0000, 16, 16, .ro, .F, 0x0, 0, 1, 0, 1⟩
-- LSW_BANK: 16_load_switches.md, register table "bank supplies and SNS (0x000D_0004)"
def LSW_BANK.UV_A : Field := ⟨0xD0004, 0, 1, .ro, .V, 0x0, 0, 1, 0, 1⟩
def LSW_BANK.UV_B : Field := ⟨0xD0004, 1, 1, .ro, .V, 0x0, 0, 1, 0, 1⟩
def LSW_BANK.SSEL : Field := ⟨0xD0004, 8, 4, .ro, .V, 0x0, 0, 1, 0, 1⟩
def LSW_BANK.SNS_VALID : Field := ⟨0xD0004, 12, 1, .ro, .V, 0x0, 0, 1, 0, 1⟩
def LSW_BANK.UV_SEEN : Field := ⟨0xD0004, 16, 1, .w1c, .F, 0x0, 0, 1, 0, 1⟩
-- LSW_CH_CTRL: 16_load_switches.md, register table "command (0x000D_0100 + 0x20·n, n = 0 to 15)"
def LSW_CH_CTRL.ON : Field := ⟨0xD0100, 0, 1, .rw, .F, 0x0, 32, 16, 0, 1⟩
def LSW_CH_CTRL.CLR : Field := ⟨0xD0100, 1, 1, .wo, .V, 0x0, 32, 16, 0, 1⟩
-- LSW_CH_CFG: 16_load_switches.md, register table "protection and drive (0x000D_0104 + 0x20·n)"
def LSW_CH_CFG.I_TRIP : Field := ⟨0xD0104, 0, 7, .rw, .C, 0x3C, 32, 16, 0, 1⟩
def LSW_CH_CFG.T_TRIP : Field := ⟨0xD0104, 8, 8, .rw, .C, 0xA, 32, 16, 0, 1⟩
def LSW_CH_CFG.T_BLANK : Field := ⟨0xD0104, 16, 8, .rw, .C, 0x14, 32, 16, 0, 1⟩
def LSW_CH_CFG.OC_MODE : Field := ⟨0xD0104, 24, 1, .rwa, .C, 0x1, 32, 16, 0, 1⟩
def LSW_CH_CFG.TH_LATCH : Field := ⟨0xD0104, 25, 1, .rwa, .C, 0x0, 32, 16, 0, 1⟩
def LSW_CH_CFG.OL_EN : Field := ⟨0xD0104, 26, 1, .rw, .C, 0x0, 32, 16, 0, 1⟩
def LSW_CH_CFG.PWM_F : Field := ⟨0xD0104, 28, 4, .rw, .C, 0x3, 32, 16, 0, 1⟩
-- LSW_CH_RST: 16_load_switches.md, register table "restart policy (0x000D_0108 + 0x20·n)"
def LSW_CH_RST.RST_T : Field := ⟨0xD0108, 0, 8, .rw, .C, 0x64, 32, 16, 0, 1⟩
def LSW_CH_RST.RST_MAX : Field := ⟨0xD0108, 8, 4, .rwa, .C, 0x3, 32, 16, 0, 1⟩
def LSW_CH_RST.RST_WIN : Field := ⟨0xD0108, 16, 8, .rw, .C, 0x3C, 32, 16, 0, 1⟩
-- LSW_CH_STAT: 16_load_switches.md, register table "state (0x000D_010C + 0x20·n)"
def LSW_CH_STAT.STATE : Field := ⟨0xD010C, 0, 3, .ro, .F, 0x0, 32, 16, 0, 1⟩
def LSW_CH_STAT.OWNER : Field := ⟨0xD010C, 3, 2, .ro, .V, 0x2, 32, 16, 0, 1⟩
def LSW_CH_STAT.OL : Field := ⟨0xD010C, 5, 1, .ro, .V, 0x0, 32, 16, 0, 1⟩
def LSW_CH_STAT.RST_CNT : Field := ⟨0xD010C, 8, 4, .ro, .F, 0x0, 32, 16, 0, 1⟩
def LSW_CH_STAT.FRAC : Field := ⟨0xD010C, 16, 10, .ro, .V, 0x0, 32, 16, 0, 1⟩
def LSW_CH_STAT.TRIP_SEEN : Field := ⟨0xD010C, 26, 1, .w1c, .F, 0x0, 32, 16, 0, 1⟩
def LSW_CH_STAT.TSD_SEEN : Field := ⟨0xD010C, 27, 1, .w1c, .F, 0x0, 32, 16, 0, 1⟩
def LSW_CH_STAT.LATCH_SEEN : Field := ⟨0xD010C, 28, 1, .w1c, .F, 0x0, 32, 16, 0, 1⟩
-- LSW_CH_MEAS: 16_load_switches.md, register table "measurements (0x000D_0110 + 0x20·n)"
def LSW_CH_MEAS.I_MEAS : Field := ⟨0xD0110, 0, 16, .ro, .V, 0x0, 32, 16, 0, 1⟩
def LSW_CH_MEAS.TJ : Field := ⟨0xD0110, 16, 9, .ro, .V, 0x0, 32, 16, 0, 1⟩
-- LSW_CH_CNT: 16_load_switches.md, register table "lifetime counters (0x000D_0114 + 0x20·n)"
def LSW_CH_CNT.TRIPS : Field := ⟨0xD0114, 0, 16, .ro, .N, 0x0, 32, 16, 0, 1⟩
def LSW_CH_CNT.TSDS : Field := ⟨0xD0114, 16, 16, .ro, .N, 0x0, 32, 16, 0, 1⟩

/-- Block LSW, part 0 of its fields. -/
def tabLSW0 : List Field := [
  LSW_STAT.OUT, LSW_STAT.LATCHED, LSW_BANK.UV_A, LSW_BANK.UV_B,
  LSW_BANK.SSEL, LSW_BANK.SNS_VALID, LSW_BANK.UV_SEEN, LSW_CH_CTRL.ON,
  LSW_CH_CTRL.CLR, LSW_CH_CFG.I_TRIP, LSW_CH_CFG.T_TRIP, LSW_CH_CFG.T_BLANK,
  LSW_CH_CFG.OC_MODE, LSW_CH_CFG.TH_LATCH, LSW_CH_CFG.OL_EN, LSW_CH_CFG.PWM_F,
  LSW_CH_RST.RST_T, LSW_CH_RST.RST_MAX, LSW_CH_RST.RST_WIN, LSW_CH_STAT.STATE,
  LSW_CH_STAT.OWNER, LSW_CH_STAT.OL, LSW_CH_STAT.RST_CNT, LSW_CH_STAT.FRAC,
  LSW_CH_STAT.TRIP_SEEN, LSW_CH_STAT.TSD_SEEN, LSW_CH_STAT.LATCH_SEEN, LSW_CH_MEAS.I_MEAS,
  LSW_CH_MEAS.TJ, LSW_CH_CNT.TRIPS, LSW_CH_CNT.TSDS]
/-- Every field of block LSW. -/
def tabLSW : List Field := tabLSW0
/-- The fields of block LSW whose reset value is not 0. -/
def nzLSW : List Field := [
  LSW_CH_CFG.I_TRIP, LSW_CH_CFG.T_TRIP, LSW_CH_CFG.T_BLANK, LSW_CH_CFG.OC_MODE,
  LSW_CH_CFG.PWM_F, LSW_CH_RST.RST_T, LSW_CH_RST.RST_MAX, LSW_CH_RST.RST_WIN,
  LSW_CH_STAT.OWNER]

end Sys2Proof.Machine.R
end

