-- ==== Sys2Proof/Machine/RegMap3.lean ====
section
/-! DEFINITION. The register map of blocks CAN, KV, EVR, UPD, SAF, TMX (R520): one `Field` per field of the
register tables of spec/, under its own register and field name; then the table of each block. The access code, the
retention class and the reset value of each are those of its row (R10, R12, R13). Reserved bits have no row: they read 0
(R7). A cell that reads "Per module", "Per build", "Per revision" or "Per slot" carries a value the model names (log 3). -/

namespace Sys2Proof.Machine.R

-- CAN_CTRL: 17_can_fd.md, register table "port control (0x000E_0000 + 0x100·p)"
def CAN_CTRL.EN : Field := ⟨0xE0000, 0, 1, .rw, .C, 0x0, 256, 2, 0, 1⟩
def CAN_CTRL.INIT : Field := ⟨0xE0000, 1, 1, .rw, .V, 0x1, 256, 2, 0, 1⟩
def CAN_CTRL.MODE : Field := ⟨0xE0000, 2, 2, .rwa, .C, 0x0, 256, 2, 0, 1⟩
def CAN_CTRL.FD_EN : Field := ⟨0xE0000, 4, 1, .rw, .C, 0x1, 256, 2, 0, 1⟩
def CAN_CTRL.BRS_EN : Field := ⟨0xE0000, 5, 1, .rw, .C, 0x1, 256, 2, 0, 1⟩
def CAN_CTRL.TDC_EN : Field := ⟨0xE0000, 6, 1, .rw, .C, 0x1, 256, 2, 0, 1⟩
def CAN_CTRL.BO_AUTO : Field := ⟨0xE0000, 7, 1, .rw, .C, 0x1, 256, 2, 0, 1⟩
def CAN_CTRL.RECOVER : Field := ⟨0xE0000, 8, 1, .wo, .V, 0x0, 256, 2, 0, 1⟩
def CAN_CTRL.UNLOCK : Field := ⟨0xE0000, 9, 1, .wo, .V, 0x0, 256, 2, 0, 1⟩
def CAN_CTRL.BO_WAIT : Field := ⟨0xE0000, 16, 8, .rw, .C, 0x64, 256, 2, 0, 1⟩
def CAN_CTRL.BO_MAX : Field := ⟨0xE0000, 24, 4, .rw, .C, 0x5, 256, 2, 0, 1⟩
-- CAN_NBT: 17_can_fd.md, register table "nominal bit timing (0x000E_0004 + 0x100·p)"
def CAN_NBT.NBRP : Field := ⟨0xE0004, 0, 9, .rw, .C, 0x3, 256, 2, 0, 1⟩
def CAN_NBT.NTSEG1 : Field := ⟨0xE0004, 9, 8, .rw, .C, 0xC, 256, 2, 0, 1⟩
def CAN_NBT.NTSEG2 : Field := ⟨0xE0004, 17, 7, .rw, .C, 0x5, 256, 2, 0, 1⟩
def CAN_NBT.NSJW : Field := ⟨0xE0004, 24, 7, .rw, .C, 0x4, 256, 2, 0, 1⟩
-- CAN_DBT: 17_can_fd.md, register table "data bit timing (0x000E_0008 + 0x100·p)"
def CAN_DBT.DBRP : Field := ⟨0xE0008, 0, 5, .rw, .C, 0x0, 256, 2, 0, 1⟩
def CAN_DBT.DTSEG1 : Field := ⟨0xE0008, 8, 5, .rw, .C, 0xD, 256, 2, 0, 1⟩
def CAN_DBT.DTSEG2 : Field := ⟨0xE0008, 16, 4, .rw, .C, 0x4, 256, 2, 0, 1⟩
def CAN_DBT.DSJW : Field := ⟨0xE0008, 24, 4, .rw, .C, 0x3, 256, 2, 0, 1⟩
-- CAN_TDC: 17_can_fd.md, register table "delay compensation (0x000E_000C + 0x100·p)"
def CAN_TDC.TDCO : Field := ⟨0xE000C, 0, 7, .rw, .C, 0xF, 256, 2, 0, 1⟩
def CAN_TDC.TDCF : Field := ⟨0xE000C, 8, 7, .rw, .C, 0x4, 256, 2, 0, 1⟩
def CAN_TDC.TDCV : Field := ⟨0xE000C, 16, 7, .ro, .V, 0x0, 256, 2, 0, 1⟩
def CAN_TDC.TDC_RANGE : Field := ⟨0xE000C, 23, 1, .w1c, .F, 0x0, 256, 2, 0, 1⟩
-- CAN_STAT: 17_can_fd.md, register table "state and counters (0x000E_0010 + 0x100·p)"
def CAN_STAT.STATE : Field := ⟨0xE0010, 0, 3, .ro, .V, 0x0, 256, 2, 0, 1⟩
def CAN_STAT.EPASS : Field := ⟨0xE0010, 3, 1, .ro, .V, 0x0, 256, 2, 0, 1⟩
def CAN_STAT.CFG_ERR : Field := ⟨0xE0010, 4, 1, .ro, .V, 0x0, 256, 2, 0, 1⟩
def CAN_STAT.LEC : Field := ⟨0xE0010, 5, 3, .ro, .V, 0x0, 256, 2, 0, 1⟩
def CAN_STAT.TEC : Field := ⟨0xE0010, 8, 8, .ro, .V, 0x0, 256, 2, 0, 1⟩
def CAN_STAT.REC : Field := ⟨0xE0010, 16, 8, .ro, .V, 0x0, 256, 2, 0, 1⟩
def CAN_STAT.BO_RUN : Field := ⟨0xE0010, 24, 4, .ro, .V, 0x0, 256, 2, 0, 1⟩
-- CAN_CNT: 17_can_fd.md, register table "traffic counters (0x000E_0014 + 0x100·p)"
def CAN_CNT.NOMATCH : Field := ⟨0xE0014, 0, 16, .ro, .V, 0x0, 256, 2, 0, 1⟩
def CAN_CNT.BO_CNT : Field := ⟨0xE0014, 16, 16, .ro, .V, 0x0, 256, 2, 0, 1⟩
-- CAN_FLT_ID: 17_can_fd.md, register table "filters (0x000E_0400, 0x000E_0404 and 0x000E_0408 + 0x200·p + 0x10·f, f = 0 to 31)"
def CAN_FLT_ID.FID : Field := ⟨0xE0400, 0, 29, .rw, .C, 0x0, 512, 2, 16, 32⟩
def CAN_FLT_ID.FIDE : Field := ⟨0xE0400, 29, 1, .rw, .C, 0x0, 512, 2, 16, 32⟩
def CAN_FLT_ID.FEN : Field := ⟨0xE0400, 31, 1, .rw, .C, 0x0, 512, 2, 16, 32⟩
-- CAN_FLT_MASK: 17_can_fd.md, register table "filters (0x000E_0400, 0x000E_0404 and 0x000E_0408 + 0x200·p + 0x10·f, f = 0 to 31)"
def CAN_FLT_MASK.MASK : Field := ⟨0xE0404, 0, 29, .rw, .C, 0x1FFFFFFF, 512, 2, 16, 32⟩
-- CAN_FLT_DST: 17_can_fd.md, register table "filters (0x000E_0400, 0x000E_0404 and 0x000E_0408 + 0x200·p + 0x10·f, f = 0 to 31)"
def CAN_FLT_DST.BUF : Field := ⟨0xE0408, 0, 6, .rw, .C, 0x0, 512, 2, 16, 32⟩
def CAN_FLT_DST.KIND : Field := ⟨0xE0408, 8, 2, .rw, .C, 0x0, 512, 2, 16, 32⟩
-- CAN_BUF_CTRL: 17_can_fd.md, register table "buffer control and status (0x000E_0800 + 0x100·p + 4·b, b = 0 to 63)"
def CAN_BUF_CTRL.DIR : Field := ⟨0xE0800, 0, 2, .rw, .C, 0x0, 256, 2, 4, 64⟩
def CAN_BUF_CTRL.ONESHOT : Field := ⟨0xE0800, 2, 1, .rw, .C, 0x0, 256, 2, 4, 64⟩
def CAN_BUF_CTRL.TXREQ : Field := ⟨0xE0800, 8, 1, .rw, .V, 0x0, 256, 2, 4, 64⟩
def CAN_BUF_CTRL.ABORT : Field := ⟨0xE0800, 9, 1, .wo, .V, 0x0, 256, 2, 4, 64⟩
def CAN_BUF_CTRL.TXOK : Field := ⟨0xE0800, 10, 1, .w1c, .V, 0x0, 256, 2, 4, 64⟩
def CAN_BUF_CTRL.TXFAIL : Field := ⟨0xE0800, 11, 1, .w1c, .V, 0x0, 256, 2, 4, 64⟩
def CAN_BUF_CTRL.NEW : Field := ⟨0xE0800, 12, 1, .ro, .V, 0x0, 256, 2, 4, 64⟩
def CAN_BUF_CTRL.LOCK : Field := ⟨0xE0800, 13, 1, .ro, .V, 0x0, 256, 2, 4, 64⟩
def CAN_BUF_CTRL.OVR : Field := ⟨0xE0800, 14, 1, .w1c, .V, 0x0, 256, 2, 4, 64⟩
def CAN_BUF_CTRL.TORN : Field := ⟨0xE0800, 15, 1, .w1c, .V, 0x0, 256, 2, 4, 64⟩
-- CAN_MB: 17_can_fd.md, register table "buffer memory (0x000E_1000 + 0x2000·p + 0x80·b + 4·w, w = 0 to 18)"
def CAN_MB.WORD : Field := ⟨0xE1000, 0, 32, .rw, .V, 0x0, 128, 128, 4, 19⟩

/-- Block CAN, part 0 of its fields. -/
def tabCAN0 : List Field := [
  CAN_CTRL.EN, CAN_CTRL.INIT, CAN_CTRL.MODE, CAN_CTRL.FD_EN,
  CAN_CTRL.BRS_EN, CAN_CTRL.TDC_EN, CAN_CTRL.BO_AUTO, CAN_CTRL.RECOVER,
  CAN_CTRL.UNLOCK, CAN_CTRL.BO_WAIT, CAN_CTRL.BO_MAX, CAN_NBT.NBRP,
  CAN_NBT.NTSEG1, CAN_NBT.NTSEG2, CAN_NBT.NSJW, CAN_DBT.DBRP,
  CAN_DBT.DTSEG1, CAN_DBT.DTSEG2, CAN_DBT.DSJW, CAN_TDC.TDCO,
  CAN_TDC.TDCF, CAN_TDC.TDCV, CAN_TDC.TDC_RANGE, CAN_STAT.STATE,
  CAN_STAT.EPASS, CAN_STAT.CFG_ERR, CAN_STAT.LEC, CAN_STAT.TEC,
  CAN_STAT.REC, CAN_STAT.BO_RUN, CAN_CNT.NOMATCH, CAN_CNT.BO_CNT,
  CAN_FLT_ID.FID, CAN_FLT_ID.FIDE, CAN_FLT_ID.FEN, CAN_FLT_MASK.MASK,
  CAN_FLT_DST.BUF, CAN_FLT_DST.KIND, CAN_BUF_CTRL.DIR, CAN_BUF_CTRL.ONESHOT,
  CAN_BUF_CTRL.TXREQ, CAN_BUF_CTRL.ABORT, CAN_BUF_CTRL.TXOK, CAN_BUF_CTRL.TXFAIL,
  CAN_BUF_CTRL.NEW, CAN_BUF_CTRL.LOCK, CAN_BUF_CTRL.OVR, CAN_BUF_CTRL.TORN,
  CAN_MB.WORD]
/-- Every field of block CAN. -/
def tabCAN : List Field := tabCAN0
/-- The fields of block CAN whose reset value is not 0. -/
def nzCAN : List Field := [
  CAN_CTRL.INIT, CAN_CTRL.FD_EN, CAN_CTRL.BRS_EN, CAN_CTRL.TDC_EN,
  CAN_CTRL.BO_AUTO, CAN_CTRL.BO_WAIT, CAN_CTRL.BO_MAX, CAN_NBT.NBRP,
  CAN_NBT.NTSEG1, CAN_NBT.NTSEG2, CAN_NBT.NSJW, CAN_DBT.DTSEG1,
  CAN_DBT.DTSEG2, CAN_DBT.DSJW, CAN_TDC.TDCO, CAN_TDC.TDCF,
  CAN_FLT_MASK.MASK]

-- KV_STAT: 18_keys_identity.md, register table "vault state (0x000F_0000)"
def KV_STAT.PUF_OK : Field := ⟨0xF0000, 0, 1, .ro, .V, 0x0, 0, 1, 0, 1⟩
def KV_STAT.PUF_FAIL : Field := ⟨0xF0000, 1, 1, .ro, .V, 0x0, 0, 1, 0, 1⟩
def KV_STAT.DESTROYED : Field := ⟨0xF0000, 2, 1, .ro, .N, 0x0, 0, 1, 0, 1⟩
def KV_STAT.WATCH_GAP : Field := ⟨0xF0000, 3, 1, .w1c, .N, 0x0, 0, 1, 0, 1⟩
def KV_STAT.RES_OK : Field := ⟨0xF0000, 4, 1, .ro, .V, 0x0, 0, 1, 0, 1⟩
def KV_STAT.LID : Field := ⟨0xF0000, 5, 1, .ro, .V, 0x0, 0, 1, 0, 1⟩
def KV_STAT.MESH : Field := ⟨0xF0000, 6, 1, .ro, .V, 0x0, 0, 1, 0, 1⟩
def KV_STAT.N_USED : Field := ⟨0xF0000, 8, 7, .ro, .V, 0x0, 0, 1, 0, 1⟩
def KV_STAT.N_BAD : Field := ⟨0xF0000, 16, 7, .ro, .V, 0x0, 0, 1, 0, 1⟩
def KV_STAT.N_WORK : Field := ⟨0xF0000, 24, 8, .ro, .V, 0x0, 0, 1, 0, 1⟩
-- KV_PUF: 18_keys_identity.md, register table "regeneration margin (0x000F_0004)"
def KV_PUF.ERR_BITS : Field := ⟨0xF0004, 0, 5, .ro, .V, 0x0, 0, 1, 0, 1⟩
def KV_PUF.ATTEMPTS : Field := ⟨0xF0004, 5, 2, .ro, .V, 0x0, 0, 1, 0, 1⟩
def KV_PUF.ERR_MAX : Field := ⟨0xF0004, 16, 5, .ro, .N, 0x0, 0, 1, 0, 1⟩
-- KV_CFG: 18_keys_identity.md, register table "policy (0x000F_0008)"
def KV_CFG.COLD_KILL : Field := ⟨0xF0008, 0, 1, .rwa, .N, 0x0, 0, 1, 0, 1⟩
def KV_CFG.PUF_WARN : Field := ⟨0xF0008, 16, 5, .rw, .C, 0xE, 0, 1, 0, 1⟩
-- KV_DESTROY: 18_keys_identity.md, register table "destruction record (0x000F_000C and 0x000F_0010)"
def KV_DESTROY.CAUSE : Field := ⟨0xF000C, 0, 2, .ro, .N, 0x0, 0, 1, 0, 1⟩
-- KV_DESTROY_TIME: 18_keys_identity.md, register table "destruction record (0x000F_000C and 0x000F_0010)"
def KV_DESTROY_TIME.UTC : Field := ⟨0xF0010, 0, 32, .ro, .N, 0x0, 0, 1, 0, 1⟩
-- KV_SLOT_SEL: 18_keys_identity.md, register table "slot view (0x000F_0020, 0x000F_0024, 0x000F_0028)"
def KV_SLOT_SEL.SLOT : Field := ⟨0xF0020, 0, 6, .rw, .V, 0x0, 0, 1, 0, 1⟩
-- KV_SLOT_ATTR: 18_keys_identity.md, register table "slot view (0x000F_0020, 0x000F_0024, 0x000F_0028)"
def KV_SLOT_ATTR.TYPE : Field := ⟨0xF0024, 0, 4, .ro, .N, 0x0, 0, 1, 0, 1⟩
def KV_SLOT_ATTR.USE : Field := ⟨0xF0024, 4, 5, .ro, .N, 0x0, 0, 1, 0, 1⟩
def KV_SLOT_ATTR.FIXED : Field := ⟨0xF0024, 9, 1, .ro, .N, 0x0, 0, 1, 0, 1⟩
def KV_SLOT_ATTR.LOCKW : Field := ⟨0xF0024, 10, 1, .ro, .N, 0x0, 0, 1, 0, 1⟩
def KV_SLOT_ATTR.MSEAL : Field := ⟨0xF0024, 11, 1, .ro, .N, 0x0, 0, 1, 0, 1⟩
def KV_SLOT_ATTR.CERT : Field := ⟨0xF0024, 12, 1, .ro, .N, 0x0, 0, 1, 0, 1⟩
def KV_SLOT_ATTR.BAD : Field := ⟨0xF0024, 13, 1, .ro, .V, 0x0, 0, 1, 0, 1⟩
def KV_SLOT_ATTR.CERT_LEN : Field := ⟨0xF0024, 16, 12, .ro, .N, 0x0, 0, 1, 0, 1⟩
-- KV_SLOT_WCNT: 18_keys_identity.md, register table "slot view (0x000F_0020, 0x000F_0024, 0x000F_0028)"
def KV_SLOT_WCNT.WCNT : Field := ⟨0xF0028, 0, 32, .ro, .N, 0x0, 0, 1, 0, 1⟩
-- KV_PUB_ADDR: 18_keys_identity.md, register table "public parts (0x000F_002C and 0x000F_0030)"
def KV_PUB_ADDR.INDEX : Field := ⟨0xF002C, 0, 9, .rw, .V, 0x0, 0, 1, 0, 1⟩
def KV_PUB_ADDR.PART : Field := ⟨0xF002C, 9, 1, .rw, .V, 0x0, 0, 1, 0, 1⟩
-- KV_PUB_DATA: 18_keys_identity.md, register table "public parts (0x000F_002C and 0x000F_0030)"
def KV_PUB_DATA.DATA : Field := ⟨0xF0030, 0, 32, .ro, .V, 0x0, 0, 1, 0, 1⟩
-- KV_STAGE_ADDR: 18_keys_identity.md, register table "stage (0x000F_0040, 0x000F_0044, 0x000F_0048)"
def KV_STAGE_ADDR.INDEX : Field := ⟨0xF0040, 0, 9, .rwa, .V, 0x0, 0, 1, 0, 1⟩
-- KV_STAGE_DATA: 18_keys_identity.md, register table "stage (0x000F_0040, 0x000F_0044, 0x000F_0048)"
def KV_STAGE_DATA.DATA : Field := ⟨0xF0044, 0, 32, .rwa, .V, 0x0, 0, 1, 0, 1⟩
-- KV_STAGE_LEN: 18_keys_identity.md, register table "stage (0x000F_0040, 0x000F_0044, 0x000F_0048)"
def KV_STAGE_LEN.LEN : Field := ⟨0xF0048, 0, 12, .rwa, .V, 0x0, 0, 1, 0, 1⟩
-- KV_CMD: 18_keys_identity.md, register table "command (0x000F_0050)"
def KV_CMD.GO : Field := ⟨0xF0050, 0, 1, .rwa, .V, 0x0, 0, 1, 0, 1⟩
def KV_CMD.OP : Field := ⟨0xF0050, 1, 3, .rwa, .V, 0x0, 0, 1, 0, 1⟩
def KV_CMD.SLOT : Field := ⟨0xF0050, 4, 6, .rwa, .V, 0x0, 0, 1, 0, 1⟩
def KV_CMD.TYPE : Field := ⟨0xF0050, 10, 4, .rwa, .V, 0x0, 0, 1, 0, 1⟩
def KV_CMD.USE : Field := ⟨0xF0050, 14, 5, .rwa, .V, 0x0, 0, 1, 0, 1⟩
def KV_CMD.LOCKW : Field := ⟨0xF0050, 19, 1, .rwa, .V, 0x0, 0, 1, 0, 1⟩
def KV_CMD.MSEAL : Field := ⟨0xF0050, 20, 1, .rwa, .V, 0x0, 0, 1, 0, 1⟩
def KV_CMD.WRAPPED : Field := ⟨0xF0050, 21, 1, .rwa, .V, 0x0, 0, 1, 0, 1⟩
def KV_CMD.WRAP_SLOT : Field := ⟨0xF0050, 22, 6, .rwa, .V, 0x0, 0, 1, 0, 1⟩
-- KV_FIRN: 18_keys_identity.md, register table "derivation (0x000F_0054)"
def KV_FIRN.PARENT : Field := ⟨0xF0054, 0, 8, .rwa, .V, 0x0, 0, 1, 0, 1⟩
def KV_FIRN.TARGET : Field := ⟨0xF0054, 8, 7, .rwa, .V, 0x0, 0, 1, 0, 1⟩
def KV_FIRN.TYPE : Field := ⟨0xF0054, 16, 4, .rwa, .V, 0x0, 0, 1, 0, 1⟩
def KV_FIRN.USE : Field := ⟨0xF0054, 20, 5, .rwa, .V, 0x0, 0, 1, 0, 1⟩
def KV_FIRN.LABEL_LEN : Field := ⟨0xF0054, 25, 6, .rwa, .V, 0x0, 0, 1, 0, 1⟩
-- KV_CMD_STAT: 18_keys_identity.md, register table "result and counter (0x000F_0058 and 0x000F_005C)"
def KV_CMD_STAT.BUSY : Field := ⟨0xF0058, 0, 1, .ro, .V, 0x0, 0, 1, 0, 1⟩
def KV_CMD_STAT.RESULT : Field := ⟨0xF0058, 1, 4, .ro, .V, 0x0, 0, 1, 0, 1⟩
-- KV_CNT: 18_keys_identity.md, register table "result and counter (0x000F_0058 and 0x000F_005C)"
def KV_CNT.SIGNS : Field := ⟨0xF005C, 0, 32, .ro, .N, 0x0, 0, 1, 0, 1⟩
-- KV_WORK_ATTR: 18_keys_identity.md, register table "working slots (0x000F_0100 + 4·w, w = 0 to 127)"
def KV_WORK_ATTR.VALID : Field := ⟨0xF0100, 0, 1, .ro, .V, 0x0, 4, 128, 0, 1⟩
def KV_WORK_ATTR.TYPE : Field := ⟨0xF0100, 1, 4, .ro, .V, 0x0, 4, 128, 0, 1⟩
def KV_WORK_ATTR.USE : Field := ⟨0xF0100, 5, 5, .ro, .V, 0x0, 4, 128, 0, 1⟩
def KV_WORK_ATTR.DEPTH : Field := ⟨0xF0100, 10, 4, .ro, .V, 0x0, 4, 128, 0, 1⟩
def KV_WORK_ATTR.PARENT : Field := ⟨0xF0100, 16, 8, .ro, .V, 0x0, 4, 128, 0, 1⟩

/-- Block KV, part 0 of its fields. -/
def tabKV0 : List Field := [
  KV_STAT.PUF_OK, KV_STAT.PUF_FAIL, KV_STAT.DESTROYED, KV_STAT.WATCH_GAP,
  KV_STAT.RES_OK, KV_STAT.LID, KV_STAT.MESH, KV_STAT.N_USED,
  KV_STAT.N_BAD, KV_STAT.N_WORK, KV_PUF.ERR_BITS, KV_PUF.ATTEMPTS,
  KV_PUF.ERR_MAX, KV_CFG.COLD_KILL, KV_CFG.PUF_WARN, KV_DESTROY.CAUSE,
  KV_DESTROY_TIME.UTC, KV_SLOT_SEL.SLOT, KV_SLOT_ATTR.TYPE, KV_SLOT_ATTR.USE,
  KV_SLOT_ATTR.FIXED, KV_SLOT_ATTR.LOCKW, KV_SLOT_ATTR.MSEAL, KV_SLOT_ATTR.CERT,
  KV_SLOT_ATTR.BAD, KV_SLOT_ATTR.CERT_LEN, KV_SLOT_WCNT.WCNT, KV_PUB_ADDR.INDEX,
  KV_PUB_ADDR.PART, KV_PUB_DATA.DATA, KV_STAGE_ADDR.INDEX, KV_STAGE_DATA.DATA,
  KV_STAGE_LEN.LEN, KV_CMD.GO, KV_CMD.OP, KV_CMD.SLOT,
  KV_CMD.TYPE, KV_CMD.USE, KV_CMD.LOCKW, KV_CMD.MSEAL,
  KV_CMD.WRAPPED, KV_CMD.WRAP_SLOT, KV_FIRN.PARENT, KV_FIRN.TARGET,
  KV_FIRN.TYPE, KV_FIRN.USE, KV_FIRN.LABEL_LEN, KV_CMD_STAT.BUSY,
  KV_CMD_STAT.RESULT, KV_CNT.SIGNS, KV_WORK_ATTR.VALID, KV_WORK_ATTR.TYPE,
  KV_WORK_ATTR.USE, KV_WORK_ATTR.DEPTH, KV_WORK_ATTR.PARENT]
/-- Every field of block KV. -/
def tabKV : List Field := tabKV0
/-- The fields of block KV whose reset value is not 0. -/
def nzKV : List Field := [
  KV_CFG.PUF_WARN]

-- EVR_STAT: 19_event_logs.md, register table "fill state (0x0010_0000)"
def EVR_STAT.OP_N : Field := ⟨0x100000, 0, 15, .ro, .N, 0x0, 0, 1, 0, 1⟩
def EVR_STAT.MOR_N : Field := ⟨0x100000, 16, 14, .ro, .N, 0x0, 0, 1, 0, 1⟩
def EVR_STAT.MOR_RES : Field := ⟨0x100000, 30, 1, .ro, .V, 0x0, 0, 1, 0, 1⟩
def EVR_STAT.MOR_FULL : Field := ⟨0x100000, 31, 1, .ro, .V, 0x0, 0, 1, 0, 1⟩
-- EVR_OP_SEQ: 19_event_logs.md, register table "sequence numbers (0x0010_0004, 0x0010_0008, 0x0010_000C)"
def EVR_OP_SEQ.SEQ : Field := ⟨0x100004, 0, 32, .ro, .N, 0x1, 0, 1, 0, 1⟩
-- EVR_OP_FIRST: 19_event_logs.md, register table "sequence numbers (0x0010_0004, 0x0010_0008, 0x0010_000C)"
def EVR_OP_FIRST.FIRST : Field := ⟨0x100008, 0, 32, .ro, .N, 0x0, 0, 1, 0, 1⟩
-- EVR_MOR_SEQ: 19_event_logs.md, register table "sequence numbers (0x0010_0004, 0x0010_0008, 0x0010_000C)"
def EVR_MOR_SEQ.SEQ : Field := ⟨0x10000C, 0, 32, .ro, .N, 0x1, 0, 1, 0, 1⟩
-- EVR_CFG: 19_event_logs.md, register table "filter and warning (0x0010_0010)"
def EVR_CFG.MIN_SEV : Field := ⟨0x100010, 0, 3, .rw, .C, 0x1, 0, 1, 0, 1⟩
def EVR_CFG.MOR_WARN : Field := ⟨0x100010, 16, 14, .rwa, .C, 0x1C00, 0, 1, 0, 1⟩
-- EVR_CLR: 19_event_logs.md, register table "operational clear (0x0010_0014)"
def EVR_CLR.CLR_TO : Field := ⟨0x100014, 0, 32, .wo, .V, 0x0, 0, 1, 0, 1⟩
-- EVR_CNT: 19_event_logs.md, register table "counters (0x0010_0018, 0x0010_001C, 0x0010_0020)"
def EVR_CNT.DISC : Field := ⟨0x100018, 0, 16, .ro, .N, 0x0, 0, 1, 0, 1⟩
def EVR_CNT.DROP : Field := ⟨0x100018, 16, 16, .ro, .N, 0x0, 0, 1, 0, 1⟩
-- EVR_MOR_LOST: 19_event_logs.md, register table "counters (0x0010_0018, 0x0010_001C, 0x0010_0020)"
def EVR_MOR_LOST.MOR_LOST : Field := ⟨0x10001C, 0, 16, .ro, .N, 0x0, 0, 1, 0, 1⟩
def EVR_MOR_LOST.LAST_CODE : Field := ⟨0x10001C, 16, 16, .ro, .N, 0x0, 0, 1, 0, 1⟩
-- EVR_CRC: 19_event_logs.md, register table "counters (0x0010_0018, 0x0010_001C, 0x0010_0020)"
def EVR_CRC.CRC_ERR : Field := ⟨0x100020, 0, 16, .ro, .N, 0x0, 0, 1, 0, 1⟩
-- EVR_RD_CTRL: 19_event_logs.md, register table "read window (0x0010_0040, 0x0010_0044, 0x0010_0048)"
def EVR_RD_CTRL.LOG : Field := ⟨0x100040, 0, 1, .rw, .V, 0x0, 0, 1, 0, 1⟩
def EVR_RD_CTRL.AUTO : Field := ⟨0x100040, 1, 1, .rw, .V, 0x1, 0, 1, 0, 1⟩
-- EVR_RD_SEQ: 19_event_logs.md, register table "read window (0x0010_0040, 0x0010_0044, 0x0010_0048)"
def EVR_RD_SEQ.SEQ : Field := ⟨0x100044, 0, 32, .rw, .V, 0x0, 0, 1, 0, 1⟩
-- EVR_RD_STAT: 19_event_logs.md, register table "read window (0x0010_0040, 0x0010_0044, 0x0010_0048)"
def EVR_RD_STAT.PRESENT : Field := ⟨0x100048, 0, 1, .ro, .V, 0x0, 0, 1, 0, 1⟩
def EVR_RD_STAT.CRC_OK : Field := ⟨0x100048, 1, 1, .ro, .V, 0x0, 0, 1, 0, 1⟩
-- EVR_RD_DATA: 19_event_logs.md, register table "window words (0x0010_0050 + 4·w, w = 0 to 7)"
def EVR_RD_DATA.DATA : Field := ⟨0x100050, 0, 32, .ro, .V, 0x0, 4, 8, 0, 1⟩
-- EVR_FIND_CTRL: 19_event_logs.md, register table "search (0x0010_0080 to 0x0010_008C)"
def EVR_FIND_CTRL.GO : Field := ⟨0x100080, 0, 1, .rw, .V, 0x0, 0, 1, 0, 1⟩
def EVR_FIND_CTRL.KEY : Field := ⟨0x100080, 1, 1, .rw, .V, 0x0, 0, 1, 0, 1⟩
def EVR_FIND_CTRL.LOG : Field := ⟨0x100080, 2, 1, .rw, .V, 0x0, 0, 1, 0, 1⟩
def EVR_FIND_CTRL.FOUND : Field := ⟨0x100080, 3, 1, .ro, .V, 0x0, 0, 1, 0, 1⟩
-- EVR_FIND_LO: 19_event_logs.md, register table "search (0x0010_0080 to 0x0010_008C)"
def EVR_FIND_LO.TARGET : Field := ⟨0x100084, 0, 32, .rw, .V, 0x0, 0, 1, 0, 1⟩
-- EVR_FIND_HI: 19_event_logs.md, register table "search (0x0010_0080 to 0x0010_008C)"
def EVR_FIND_HI.TARGET : Field := ⟨0x100088, 0, 32, .rw, .V, 0x0, 0, 1, 0, 1⟩
-- EVR_FIND_SEQ: 19_event_logs.md, register table "search (0x0010_0080 to 0x0010_008C)"
def EVR_FIND_SEQ.SEQ : Field := ⟨0x10008C, 0, 32, .ro, .V, 0x0, 0, 1, 0, 1⟩

/-- Block EVR, part 0 of its fields. -/
def tabEVR0 : List Field := [
  EVR_STAT.OP_N, EVR_STAT.MOR_N, EVR_STAT.MOR_RES, EVR_STAT.MOR_FULL,
  EVR_OP_SEQ.SEQ, EVR_OP_FIRST.FIRST, EVR_MOR_SEQ.SEQ, EVR_CFG.MIN_SEV,
  EVR_CFG.MOR_WARN, EVR_CLR.CLR_TO, EVR_CNT.DISC, EVR_CNT.DROP,
  EVR_MOR_LOST.MOR_LOST, EVR_MOR_LOST.LAST_CODE, EVR_CRC.CRC_ERR, EVR_RD_CTRL.LOG,
  EVR_RD_CTRL.AUTO, EVR_RD_SEQ.SEQ, EVR_RD_STAT.PRESENT, EVR_RD_STAT.CRC_OK,
  EVR_RD_DATA.DATA, EVR_FIND_CTRL.GO, EVR_FIND_CTRL.KEY, EVR_FIND_CTRL.LOG,
  EVR_FIND_CTRL.FOUND, EVR_FIND_LO.TARGET, EVR_FIND_HI.TARGET, EVR_FIND_SEQ.SEQ]
/-- Every field of block EVR. -/
def tabEVR : List Field := tabEVR0
/-- The fields of block EVR whose reset value is not 0. -/
def nzEVR : List Field := [
  EVR_OP_SEQ.SEQ, EVR_MOR_SEQ.SEQ, EVR_CFG.MIN_SEV, EVR_CFG.MOR_WARN,
  EVR_RD_CTRL.AUTO]

-- UPD_STAT: 21_updates_service_life.md, register table "update state (0x0011_0000)"
def UPD_STAT.BUSY : Field := ⟨0x110000, 0, 1, .ro, .V, 0x0, 0, 1, 0, 1⟩
def UPD_STAT.OP : Field := ⟨0x110000, 1, 2, .ro, .V, 0x0, 0, 1, 0, 1⟩
def UPD_STAT.MIXED : Field := ⟨0x110000, 3, 1, .ro, .V, 0x0, 0, 1, 0, 1⟩
def UPD_STAT.UNSIGNED : Field := ⟨0x110000, 4, 1, .ro, .V, 0x0, 0, 1, 0, 1⟩
-- UPD_CFG: 21_updates_service_life.md, register table "configuration bank and anchor (0x0011_0004)"
def UPD_CFG.CFG_NEXT : Field := ⟨0x110004, 0, 1, .rwa, .N, 0x0, 0, 1, 0, 1⟩
def UPD_CFG.CFG_ANCHOR : Field := ⟨0x110004, 8, 6, .rwa, .N, 0x3F, 0, 1, 0, 1⟩
-- UPD_FL_ADDR: 21_updates_service_life.md, register table "flash access (0x0011_0010, 0x0011_0014, 0x0011_0018)"
def UPD_FL_ADDR.ADDR : Field := ⟨0x110010, 0, 26, .rwa, .V, 0x0, 0, 1, 0, 1⟩
-- UPD_FL_DATA: 21_updates_service_life.md, register table "flash access (0x0011_0010, 0x0011_0014, 0x0011_0018)"
def UPD_FL_DATA.DATA : Field := ⟨0x110014, 0, 32, .wo, .V, 0x0, 0, 1, 0, 1⟩
-- UPD_FL_CMD: 21_updates_service_life.md, register table "flash access (0x0011_0010, 0x0011_0014, 0x0011_0018)"
def UPD_FL_CMD.ERASE : Field := ⟨0x110018, 0, 1, .wo, .V, 0x0, 0, 1, 0, 1⟩
def UPD_FL_CMD.FL_BUSY : Field := ⟨0x110018, 1, 1, .ro, .V, 0x0, 0, 1, 0, 1⟩
def UPD_FL_CMD.STATUS : Field := ⟨0x110018, 2, 3, .ro, .V, 0x0, 0, 1, 0, 1⟩
-- UPD_SECT_CMD: 21_updates_service_life.md, register table "section reload (0x0011_0020)"
def UPD_SECT_CMD.GO : Field := ⟨0x110020, 0, 1, .rwa, .V, 0x0, 0, 1, 0, 1⟩
def UPD_SECT_CMD.BANK : Field := ⟨0x110020, 1, 1, .rwa, .V, 0x0, 0, 1, 0, 1⟩
def UPD_SECT_CMD.AT_STAMP : Field := ⟨0x110020, 2, 1, .rwa, .V, 0x0, 0, 1, 0, 1⟩
def UPD_SECT_CMD.SECT : Field := ⟨0x110020, 8, 8, .rwa, .V, 0x0, 0, 1, 0, 1⟩
def UPD_SECT_CMD.STATUS : Field := ⟨0x110020, 16, 4, .ro, .V, 0x0, 0, 1, 0, 1⟩
-- UPD_SECT_STAMP_LO: 21_updates_service_life.md, register table "reload stamp and result (0x0011_0024 to 0x0011_0030)"
def UPD_SECT_STAMP_LO.STAMP : Field := ⟨0x110024, 0, 32, .rwa, .V, 0x0, 0, 1, 0, 1⟩
-- UPD_SECT_STAMP_HI: 21_updates_service_life.md, register table "reload stamp and result (0x0011_0024 to 0x0011_0030)"
def UPD_SECT_STAMP_HI.STAMP : Field := ⟨0x110028, 0, 32, .rwa, .V, 0x0, 0, 1, 0, 1⟩
-- UPD_SECT_RES: 21_updates_service_life.md, register table "reload stamp and result (0x0011_0024 to 0x0011_0030)"
def UPD_SECT_RES.APPLIED : Field := ⟨0x11002C, 0, 16, .ro, .V, 0x0, 0, 1, 0, 1⟩
def UPD_SECT_RES.REFUSED : Field := ⟨0x11002C, 16, 16, .ro, .V, 0x0, 0, 1, 0, 1⟩
-- UPD_SECT_REF: 21_updates_service_life.md, register table "reload stamp and result (0x0011_0024 to 0x0011_0030)"
def UPD_SECT_REF.FIRST_REF : Field := ⟨0x110030, 0, 24, .ro, .V, 0x0, 0, 1, 0, 1⟩
-- UPD_FW_CTRL: 21_updates_service_life.md, register table "firmware banks (0x0011_0040 and 0x0011_0044)"
def UPD_FW_CTRL.NEXT : Field := ⟨0x110040, 0, 7, .rwa, .N, 0x0, 0, 1, 0, 1⟩
def UPD_FW_CTRL.ACT : Field := ⟨0x110040, 16, 7, .ro, .V, 0x0, 0, 1, 0, 1⟩
-- UPD_FW_CMD: 21_updates_service_life.md, register table "firmware banks (0x0011_0040 and 0x0011_0044)"
def UPD_FW_CMD.GO : Field := ⟨0x110044, 0, 1, .rwa, .V, 0x0, 0, 1, 0, 1⟩
def UPD_FW_CMD.UNIT : Field := ⟨0x110044, 1, 3, .rwa, .V, 0x0, 0, 1, 0, 1⟩
def UPD_FW_CMD.STATUS : Field := ⟨0x110044, 4, 4, .ro, .V, 0x0, 0, 1, 0, 1⟩
-- UPD_FW_VER: 21_updates_service_life.md, register table "bank versions (0x0011_0050, 0x0011_0070 and 0x0011_0090 + 4·u, u = 0 to 6)"
def UPD_FW_VER.SECVER : Field := ⟨0x110050, 0, 16, .ro, .V, 0x0, 4, 7, 0, 1⟩
def UPD_FW_VER.FW_LEVEL : Field := ⟨0x110050, 16, 8, .ro, .V, 0x0, 4, 7, 0, 1⟩
-- UPD_FW_NUM: 21_updates_service_life.md, register table "bank versions (0x0011_0050, 0x0011_0070 and 0x0011_0090 + 4·u, u = 0 to 6)"
def UPD_FW_NUM.VERSION : Field := ⟨0x110070, 0, 32, .ro, .V, 0x0, 4, 7, 0, 1⟩
-- UPD_FW_MINSEC: 21_updates_service_life.md, register table "bank versions (0x0011_0050, 0x0011_0070 and 0x0011_0090 + 4·u, u = 0 to 6)"
def UPD_FW_MINSEC.MINSEC : Field := ⟨0x110090, 0, 16, .ro, .N, 0x0, 4, 7, 0, 1⟩
-- UPD_SEAL_CFG: 21_updates_service_life.md, register table "package authority (0x0011_00C0 and 0x0011_00C4)"
def UPD_SEAL_CFG.AUTH_SLOT : Field := ⟨0x1100C0, 0, 6, .rws, .N, 0x3F, 0, 1, 0, 1⟩
-- UPD_SEAL_CNT: 21_updates_service_life.md, register table "package authority (0x0011_00C0 and 0x0011_00C4)"
def UPD_SEAL_CNT.UCNT : Field := ⟨0x1100C4, 0, 32, .ro, .N, 0x0, 0, 1, 0, 1⟩
-- UPD_PKG_ADDR: 21_updates_service_life.md, register table "package window (0x0011_00D0 to 0x0011_00DC)"
def UPD_PKG_ADDR.INDEX : Field := ⟨0x1100D0, 0, 9, .rwa, .V, 0x0, 0, 1, 0, 1⟩
-- UPD_PKG_DATA: 21_updates_service_life.md, register table "package window (0x0011_00D0 to 0x0011_00DC)"
def UPD_PKG_DATA.DATA : Field := ⟨0x1100D4, 0, 32, .rwa, .V, 0x0, 0, 1, 0, 1⟩
-- UPD_PKG_LEN: 21_updates_service_life.md, register table "package window (0x0011_00D0 to 0x0011_00DC)"
def UPD_PKG_LEN.LEN : Field := ⟨0x1100D8, 0, 12, .rwa, .V, 0x0, 0, 1, 0, 1⟩
-- UPD_PKG_CMD: 21_updates_service_life.md, register table "package window (0x0011_00D0 to 0x0011_00DC)"
def UPD_PKG_CMD.GO : Field := ⟨0x1100DC, 0, 1, .rwa, .V, 0x0, 0, 1, 0, 1⟩
def UPD_PKG_CMD.STATUS : Field := ⟨0x1100DC, 1, 4, .ro, .V, 0x0, 0, 1, 0, 1⟩
def UPD_PKG_CMD.PEND : Field := ⟨0x1100DC, 5, 1, .ro, .N, 0x0, 0, 1, 0, 1⟩
-- UPD_RECAL: 21_updates_service_life.md, register table "live recalibration (0x0011_00E0)"
def UPD_RECAL.REQ : Field := ⟨0x1100E0, 0, 6, .wo, .V, 0x0, 0, 1, 0, 1⟩
def UPD_RECAL.BUSY : Field := ⟨0x1100E0, 6, 1, .ro, .V, 0x0, 0, 1, 0, 1⟩
def UPD_RECAL.REFUSED : Field := ⟨0x1100E0, 16, 6, .ro, .V, 0x0, 0, 1, 0, 1⟩
-- UPD_COMPAT: 21_updates_service_life.md, register table "compatibility (0x0011_00F0)"
def UPD_COMPAT.LEVEL : Field := ⟨0x1100F0, 0, 8, .ro, .N, 0x1, 0, 1, 0, 1⟩

/-- Block UPD, part 0 of its fields. -/
def tabUPD0 : List Field := [
  UPD_STAT.BUSY, UPD_STAT.OP, UPD_STAT.MIXED, UPD_STAT.UNSIGNED,
  UPD_CFG.CFG_NEXT, UPD_CFG.CFG_ANCHOR, UPD_FL_ADDR.ADDR, UPD_FL_DATA.DATA,
  UPD_FL_CMD.ERASE, UPD_FL_CMD.FL_BUSY, UPD_FL_CMD.STATUS, UPD_SECT_CMD.GO,
  UPD_SECT_CMD.BANK, UPD_SECT_CMD.AT_STAMP, UPD_SECT_CMD.SECT, UPD_SECT_CMD.STATUS,
  UPD_SECT_STAMP_LO.STAMP, UPD_SECT_STAMP_HI.STAMP, UPD_SECT_RES.APPLIED, UPD_SECT_RES.REFUSED,
  UPD_SECT_REF.FIRST_REF, UPD_FW_CTRL.NEXT, UPD_FW_CTRL.ACT, UPD_FW_CMD.GO,
  UPD_FW_CMD.UNIT, UPD_FW_CMD.STATUS, UPD_FW_VER.SECVER, UPD_FW_VER.FW_LEVEL,
  UPD_FW_NUM.VERSION, UPD_FW_MINSEC.MINSEC, UPD_SEAL_CFG.AUTH_SLOT, UPD_SEAL_CNT.UCNT,
  UPD_PKG_ADDR.INDEX, UPD_PKG_DATA.DATA, UPD_PKG_LEN.LEN, UPD_PKG_CMD.GO,
  UPD_PKG_CMD.STATUS, UPD_PKG_CMD.PEND, UPD_RECAL.REQ, UPD_RECAL.BUSY,
  UPD_RECAL.REFUSED, UPD_COMPAT.LEVEL]
/-- Every field of block UPD. -/
def tabUPD : List Field := tabUPD0
/-- The fields of block UPD whose reset value is not 0. -/
def nzUPD : List Field := [
  UPD_CFG.CFG_ANCHOR, UPD_SEAL_CFG.AUTH_SLOT, UPD_COMPAT.LEVEL]

-- SAF_STAT: 20_safe_off_faults.md, register table "Safe-Off state (0x0012_0000)"
def SAF_STAT.ACTIVE : Field := ⟨0x120000, 0, 1, .ro, .F, 0x0, 0, 1, 0, 1⟩
def SAF_STAT.DONE : Field := ⟨0x120000, 1, 1, .ro, .F, 0x0, 0, 1, 0, 1⟩
def SAF_STAT.HELD : Field := ⟨0x120000, 2, 1, .ro, .F, 0x0, 0, 1, 0, 1⟩
def SAF_STAT.ES1 : Field := ⟨0x120000, 3, 1, .ro, .V, 0x0, 0, 1, 0, 1⟩
def SAF_STAT.ES2 : Field := ⟨0x120000, 4, 1, .ro, .V, 0x0, 0, 1, 0, 1⟩
def SAF_STAT.ES_DISC : Field := ⟨0x120000, 5, 1, .ro, .F, 0x0, 0, 1, 0, 1⟩
def SAF_STAT.FRZ : Field := ⟨0x120000, 6, 1, .ro, .F, 0x0, 0, 1, 0, 1⟩
def SAF_STAT.WD_STOP : Field := ⟨0x120000, 7, 1, .ro, .F, 0x0, 0, 1, 0, 1⟩
-- SAF_SRC: 20_safe_off_faults.md, register table "request sources (0x0012_0004)"
def SAF_SRC.SRC : Field := ⟨0x120004, 0, 11, .ro, .F, 0x0, 0, 1, 0, 1⟩
def SAF_SRC.SRC_SEEN : Field := ⟨0x120004, 16, 11, .w1c, .F, 0x0, 0, 1, 0, 1⟩
-- SAF_FIRST: 20_safe_off_faults.md, register table "first cause and count (0x0012_0008)"
def SAF_FIRST.FIRST : Field := ⟨0x120008, 0, 16, .ro, .F, 0x0, 0, 1, 0, 1⟩
def SAF_FIRST.SO_CNT : Field := ⟨0x120008, 16, 16, .ro, .N, 0x0, 0, 1, 0, 1⟩
-- SAF_CMD: 20_safe_off_faults.md, register table "request and clear (0x0012_000C)"
def SAF_CMD.SO_REQ : Field := ⟨0x12000C, 0, 1, .rwa, .V, 0x0, 0, 1, 0, 1⟩
def SAF_CMD.CLR : Field := ⟨0x12000C, 1, 1, .rwa, .V, 0x0, 0, 1, 0, 1⟩
def SAF_CMD.STATUS : Field := ⟨0x12000C, 2, 3, .ro, .V, 0x0, 0, 1, 0, 1⟩
-- SAF_CFG: 20_safe_off_faults.md, register table "timing (0x0012_0010)"
def SAF_CFG.CT_GAP : Field := ⟨0x120010, 0, 5, .rwa, .C, 0x14, 0, 1, 0, 1⟩
def SAF_CFG.SO_DECAY : Field := ⟨0x120010, 8, 8, .rwa, .C, 0x32, 0, 1, 0, 1⟩
def SAF_CFG.ES_DISC_T : Field := ⟨0x120010, 16, 8, .rwa, .C, 0x32, 0, 1, 0, 1⟩
-- SAF_LS_OFF: 20_safe_off_faults.md, register table "channels switched off (0x0012_0014)"
def SAF_LS_OFF.LS_OFF : Field := ⟨0x120014, 0, 16, .rwa, .C, 0x0, 0, 1, 0, 1⟩
-- SAF_CONN: 20_safe_off_faults.md, register table "connector copies (0x0012_0018 + 4·c, c = 0, 1)"
def SAF_CONN.LS_POS : Field := ⟨0x120018, 0, 5, .ro, .C, 0x1F, 4, 2, 0, 1⟩
def SAF_CONN.LS_NEG : Field := ⟨0x120018, 8, 5, .ro, .C, 0x1F, 4, 2, 0, 1⟩
def SAF_CONN.PT : Field := ⟨0x120018, 16, 3, .ro, .C, 0x0, 4, 2, 0, 1⟩
def SAF_CONN.I_OPEN : Field := ⟨0x120018, 24, 8, .ro, .C, 0x5, 4, 2, 0, 1⟩
-- SAF_WD_CFG: 20_safe_off_faults.md, register table "watchdog settings (0x0012_0020)"
def SAF_WD_CFG.WD_T : Field := ⟨0x120020, 0, 8, .rwa, .C, 0x64, 0, 1, 0, 1⟩
def SAF_WD_CFG.WD_MIN : Field := ⟨0x120020, 8, 8, .rwa, .C, 0x0, 0, 1, 0, 1⟩
def SAF_WD_CFG.WD_LIMIT : Field := ⟨0x120020, 16, 4, .rwa, .C, 0x3, 0, 1, 0, 1⟩
-- SAF_WD_KICK: 20_safe_off_faults.md, register table "service (0x0012_0024)"
def SAF_WD_KICK.KICK : Field := ⟨0x120024, 0, 8, .ro, .V, 0x0, 0, 1, 0, 1⟩
-- SAF_WD_STAT: 20_safe_off_faults.md, register table "watchdog status (0x0012_0028)"
def SAF_WD_STAT.WD_CNT : Field := ⟨0x120028, 0, 4, .ro, .F, 0x0, 0, 1, 0, 1⟩
def SAF_WD_STAT.WD_CAUSE : Field := ⟨0x120028, 8, 2, .ro, .F, 0x0, 0, 1, 0, 1⟩
def SAF_WD_STAT.WD_TOTAL : Field := ⟨0x120028, 16, 16, .ro, .N, 0x0, 0, 1, 0, 1⟩
-- SAF_FRZ: 20_safe_off_faults.md, register table "Freeze record (0x0012_0030)"
def SAF_FRZ.HOLD : Field := ⟨0x120030, 0, 16, .ro, .F, 0x0, 0, 1, 0, 1⟩
def SAF_FRZ.CONN : Field := ⟨0x120030, 16, 2, .ro, .F, 0x0, 0, 1, 0, 1⟩
def SAF_FRZ.SO : Field := ⟨0x120030, 18, 1, .ro, .F, 0x0, 0, 1, 0, 1⟩
def SAF_FRZ.KIND : Field := ⟨0x120030, 20, 3, .ro, .F, 0x0, 0, 1, 0, 1⟩
-- SAF_THAW: 20_safe_off_faults.md, register table "last Thaw (0x0012_0034)"
def SAF_THAW.HANDED : Field := ⟨0x120034, 0, 16, .ro, .F, 0x0, 0, 1, 0, 1⟩
def SAF_THAW.SWOFF : Field := ⟨0x120034, 16, 16, .ro, .F, 0x0, 0, 1, 0, 1⟩

/-- Block SAF, part 0 of its fields. -/
def tabSAF0 : List Field := [
  SAF_STAT.ACTIVE, SAF_STAT.DONE, SAF_STAT.HELD, SAF_STAT.ES1,
  SAF_STAT.ES2, SAF_STAT.ES_DISC, SAF_STAT.FRZ, SAF_STAT.WD_STOP,
  SAF_SRC.SRC, SAF_SRC.SRC_SEEN, SAF_FIRST.FIRST, SAF_FIRST.SO_CNT,
  SAF_CMD.SO_REQ, SAF_CMD.CLR, SAF_CMD.STATUS, SAF_CFG.CT_GAP,
  SAF_CFG.SO_DECAY, SAF_CFG.ES_DISC_T, SAF_LS_OFF.LS_OFF, SAF_CONN.LS_POS,
  SAF_CONN.LS_NEG, SAF_CONN.PT, SAF_CONN.I_OPEN, SAF_WD_CFG.WD_T,
  SAF_WD_CFG.WD_MIN, SAF_WD_CFG.WD_LIMIT, SAF_WD_KICK.KICK, SAF_WD_STAT.WD_CNT,
  SAF_WD_STAT.WD_CAUSE, SAF_WD_STAT.WD_TOTAL, SAF_FRZ.HOLD, SAF_FRZ.CONN,
  SAF_FRZ.SO, SAF_FRZ.KIND, SAF_THAW.HANDED, SAF_THAW.SWOFF]
/-- Every field of block SAF. -/
def tabSAF : List Field := tabSAF0
/-- The fields of block SAF whose reset value is not 0. -/
def nzSAF : List Field := [
  SAF_CFG.CT_GAP, SAF_CFG.SO_DECAY, SAF_CFG.ES_DISC_T, SAF_CONN.LS_POS,
  SAF_CONN.LS_NEG, SAF_CONN.I_OPEN, SAF_WD_CFG.WD_T, SAF_WD_CFG.WD_LIMIT]

-- TMX_CTRL: 23_test_access.md, register table "enable and result (0x0013_0000)"
def TMX_CTRL.EN : Field := ⟨0x130000, 0, 1, .rw, .C, 0x0, 0, 1, 0, 1⟩
def TMX_CTRL.STATUS : Field := ⟨0x130000, 1, 3, .ro, .V, 0x0, 0, 1, 0, 1⟩
-- TMX_SEL_A: 23_test_access.md, register table "analog selection (0x0013_0010 + 4·k, k = 0, 1)"
def TMX_SEL_A.SEL : Field := ⟨0x130010, 0, 8, .rw, .V, 0x0, 4, 2, 0, 1⟩
def TMX_SEL_A.ADM : Field := ⟨0x130010, 8, 1, .ro, .V, 0x0, 4, 2, 0, 1⟩
-- TMX_SEL_D: 23_test_access.md, register table "digital selection (0x0013_0020 + 4·k, k = 0 to 3)"
def TMX_SEL_D.SEL : Field := ⟨0x130020, 0, 8, .rw, .V, 0x0, 4, 4, 0, 1⟩
def TMX_SEL_D.ADM : Field := ⟨0x130020, 8, 1, .ro, .V, 0x0, 4, 4, 0, 1⟩
-- TMX_STAT: 23_test_access.md, register table "outputs in use (0x0013_0040)"
def TMX_STAT.ACT_A : Field := ⟨0x130040, 0, 2, .ro, .V, 0x0, 0, 1, 0, 1⟩
def TMX_STAT.ACT_D : Field := ⟨0x130040, 2, 4, .ro, .V, 0x0, 0, 1, 0, 1⟩
def TMX_STAT.DROP_SEEN : Field := ⟨0x130040, 8, 1, .w1c, .V, 0x0, 0, 1, 0, 1⟩

/-- Block TMX, part 0 of its fields. -/
def tabTMX0 : List Field := [
  TMX_CTRL.EN, TMX_CTRL.STATUS, TMX_SEL_A.SEL, TMX_SEL_A.ADM,
  TMX_SEL_D.SEL, TMX_SEL_D.ADM, TMX_STAT.ACT_A, TMX_STAT.ACT_D,
  TMX_STAT.DROP_SEEN]
/-- Every field of block TMX. -/
def tabTMX : List Field := tabTMX0
/-- The fields of block TMX whose reset value is not 0. -/
def nzTMX : List Field := [
  ]

end Sys2Proof.Machine.R
end

