-- ==== Sys2Proof/Machine/Sha512.lean ====
section
/-! DEFINITION. SHA-384 and SHA-512 (FIPS 180-4), which R429 and R473 name: the rounds of SHA-256 with words of 64 bits; HMAC over a hash
(RFC 2104). -/

namespace Sys2Proof.Machine

/-- A word of SHA-512. -/
abbrev Word64 := BitVec 64

/-- The first 64 bits of the fractional part of the `e`-th root of a number below `32 ^ e`. -/
def rootFrac64 (e n : Nat) : Word64 := BitVec.ofNat 64 (rootFrom e (n * 2 ^ (64 * e)) 69 0)

/-- The primes below 21 ^ 2, which are more than 80. -/
def shaPrimes64 : List Nat := (List.range 441).filter fun n => 2 ≤ n && (List.range 21).all fun d => d < 2 || d = n || n % d ≠ 0

/-- The 80 constants K of SHA-512, as FIPS 180-4 defines them: from the cube roots of the first 80 primes. -/
def shaK64 : List Word64 := (shaPrimes64.take 80).map (rootFrac64 3)

/-- The hash value of SHA-512: eight words. -/
structure Sha64 where
  a : Word64
  b : Word64
  c : Word64
  d : Word64
  e : Word64
  f : Word64
  g : Word64
  h : Word64
deriving DecidableEq, Repr

/-- The initial hash value from the square roots of eight primes, the first of which is numbered `i`: 0 for SHA-512, 8 for SHA-384. -/
def Sha64.init (i : Nat) : Sha64 :=
  let w := fun (j : Nat) => rootFrac64 2 (shaPrimes64.getD (i + j) 0)
  ⟨w 0, w 1, w 2, w 3, w 4, w 5, w 6, w 7⟩

/-- The exclusive or of three rotations of a word. -/
def shaRot64 (i j k : Nat) (x : Word64) : Word64 := x.rotateRight i ^^^ x.rotateRight j ^^^ x.rotateRight k

/-- The exclusive or of two rotations and a shift of a word. -/
def shaShift64 (i j k : Nat) (x : Word64) : Word64 := x.rotateRight i ^^^ x.rotateRight j ^^^ (x >>> k)

/-- One round with the constant `k` and the word `w` of the message schedule. -/
def Sha64.round (v : Sha64) (k w : Word64) : Sha64 :=
  let t := v.h + shaRot64 14 18 41 v.e + ((v.e &&& v.f) ^^^ (~~~v.e &&& v.g)) + k + w
  ⟨t + (shaRot64 28 34 39 v.a + ((v.a &&& v.b) ^^^ (v.a &&& v.c) ^^^ (v.b &&& v.c))), v.a, v.b, v.c, v.d + t, v.e, v.f, v.g⟩

/-- The rounds with constants `ks`, the schedule in a window of 16 words. -/
def Sha64.rounds : List Word64 → List Word64 → Sha64 → Sha64
  | [], _, v => v
  | k :: ks, win, v =>
    let w := fun (i : Nat) => win.getD i 0
    Sha64.rounds ks (win.tail ++ [shaShift64 19 61 6 (w 14) + w 9 + shaShift64 1 8 7 (w 1) + w 0]) (v.round k (w 0))

/-- Big-endian words of 64 bits of bytes. -/
def beWords64 : Nat → List Nat → List Word64
  | 0, _ => []
  | n + 1, l => BitVec.ofNat 64 (ofLeBytes (l.take 8).reverse) :: beWords64 n (l.drop 8)

/-- One block of 128 bytes. -/
def Sha64.block (v : Sha64) (l : List Nat) : Sha64 :=
  let r := Sha64.rounds shaK64 (beWords64 16 l) v
  ⟨v.a + r.a, v.b + r.b, v.c + r.c, v.d + r.d, v.e + r.e, v.f + r.f, v.g + r.g, v.h + r.h⟩

/-- The first `n` blocks of bytes. -/
def Sha64.blocks : Nat → List Nat → Sha64 → Sha64
  | 0, _, v => v
  | n + 1, l, v => Sha64.blocks n (l.drop 128) (v.block l)

/-- The padding of a message of `n` bytes: 0x80, zeros and the length in bits as sixteen big-endian bytes. -/
def shaPad64 (n : Nat) : List Nat := 0x80 :: List.replicate ((239 - n % 128) % 128) 0 ++ (leBytes 16 (8 * n)).reverse

/-- The hash of bytes from an initial value, most significant byte first. -/
def sha64Bytes (v0 : Sha64) (l : List Nat) : List Nat :=
  let v := Sha64.blocks ((l.length + 144) / 128) (l ++ shaPad64 l.length) v0
  [v.a, v.b, v.c, v.d, v.e, v.f, v.g, v.h].flatMap fun w => beBytes 8 w.toNat

/-- SHA-512 of bytes: 64 bytes. -/
@[irreducible] def sha512 (l : List Nat) : List Nat := sha64Bytes (Sha64.init 0) l

/-- SHA-384 of bytes: 48 bytes. -/
@[irreducible] def sha384 (l : List Nat) : List Nat := (sha64Bytes (Sha64.init 8) l).take 48

/-- SHA-256 of bytes as bytes. -/
def sha256Bytes (l : List Nat) : List Nat := beBytes 32 (sha256 l).toNat

/-- HMAC of RFC 2104 over a hash with blocks of `blk` bytes. -/
def hmacWith (h : List Nat → List Nat) (blk : Nat) (k m : List Nat) : List Nat :=
  let k0 := if blk < k.length then h k else k
  let pad := fun (x : Nat) => (List.range blk).map fun i => Nat.xor (k0.getD i 0) x
  h (pad 0x5C ++ h (pad 0x36 ++ m))

/-- HMAC-SHA-256. -/
def hmac (k m : List Nat) : List Nat := hmacWith sha256Bytes 64 k m

/-- Big-endian bytes as a number. -/
def ofBeBytes (l : List Nat) : Nat := l.foldl (fun a b => 256 * a + b % 256) 0

end Sys2Proof.Machine
end

