-- ==== Sys2Proof/Machine/Curves.lean ====
section
/-! DEFINITION. ECDSA on P-256, P-384 and P-521 with the nonces of RFC 6979 (spec/18_keys_identity.md, R421, R424, R429; spec/12_billing_tariffs.md,
R298). The spec names the curves and the scheme; their definition is that of FIPS 186 and SP 800-186 (PRESUMED, log 126). -/

namespace Sys2Proof.Machine

/-! ### Arithmetic modulo a prime -/

/-- A difference modulo `p`. -/
def subMod (p a b : Nat) : Nat := (a + (p - b % p)) % p

/-- A power modulo `p`; the exponent has at most the given number of bits. -/
def powMod (p b : Nat) : Nat → Nat → Nat
  | 0, _ => 1
  | n + 1, e => let x := powMod p b n (e / 2); if e % 2 = 1 then x * x % p * b % p else x * x % p

/-- The inverse modulo a prime: the power p - 2. -/
def invMod (p a : Nat) : Nat := powMod p a 528 (p - 2)

/-! ### The curves -/

/-- A curve y^2 = x^3 - 3x + b: the prime of its field, the order n of its base point, the base point, and the length of a scalar in bytes. -/
structure Curve where
  p : Nat
  n : Nat
  gx : Nat
  gy : Nat
  len : Nat
deriving DecidableEq, Repr

/-- The curve of an EC type of `KV_CMD.TYPE`: 4 P-256, 5 P-384, 6 P-521. -/
def curveOf : Nat → Curve
  | 4 => {
      p := 2 ^ 256 - 2 ^ 224 + 2 ^ 192 + 2 ^ 96 - 1
      n := 0xFFFFFFFF00000000FFFFFFFFFFFFFFFFBCE6FAADA7179E84F3B9CAC2FC632551
      gx := 0x6B17D1F2E12C4247F8BCE6E563A440F277037D812DEB33A0F4A13945D898C296
      gy := 0x4FE342E2FE1A7F9B8EE7EB4A7C0F9E162BCE33576B315ECECBB6406837BF51F5
      len := 32 }
  | 5 => {
      p := 2 ^ 384 - 2 ^ 128 - 2 ^ 96 + 2 ^ 32 - 1
      n := 0xFFFFFFFFFFFFFFFFFFFFFFFFFFFFFFFFFFFFFFFFFFFFFFFFC7634D81F4372DDF581A0DB248B0A77AECEC196ACCC52973
      gx := 0xAA87CA22BE8B05378EB1C71EF320AD746E1D3B628BA79B9859F741E082542A385502F25DBF55296C3A545E3872760AB7
      gy := 0x3617DE4A96262C6F5D9E98BF9292DC29F8F41DBD289A147CE9DA3113B5F0B8C00A60B1CE1D7E819D7A431D7C90EA0E5F
      len := 48 }
  | _ => {
      p := 2 ^ 521 - 1
      n := 0x01FFFFFFFFFFFFFFFFFFFFFFFFFFFFFFFFFFFFFFFFFFFFFFFFFFFFFFFFFFFFFFFFFA51868783BF2F966B7FCC0148F709A5D03BB5C9B8899C47AEBB6FB71E91386409
      gx := 0x00C6858E06B70404E9CD9E3ECB662395B4429C648139053FB521F828AF606B4D3DBAA14B5E77EFE75928FE1DC127A2FFA8DE3348B3C1856A429BF97E7E31C2E5BD66
      gy := 0x011839296A789A3BC0045C8A5FB42C7D1BD998F54449579B446817AFBD17273E662C97EE72995EF42640C550B9013FAD0761353C7086A272C24088BE94769FD16650
      len := 66 }

/-- A point in Jacobian coordinates: (x / z^2, y / z^3), with z = 0 for the point at infinity. -/
structure EcPt where
  x : Nat
  y : Nat
  z : Nat
deriving DecidableEq, Repr

/-- Twice a point. -/
def EcPt.double (c : Curve) (q : EcPt) : EcPt :=
  let p := c.p
  let d := q.z * q.z % p
  let g := q.y * q.y % p
  let b := q.x * g % p
  let a := 3 * (subMod p q.x d * (q.x + d)) % p
  let x := subMod p (a * a) (8 * b)
  ⟨x, subMod p (a * subMod p (4 * b) x) (8 * (g * g)), 2 * (q.y * q.z) % p⟩

/-- The sum of two points. -/
def EcPt.add (c : Curve) (q r : EcPt) : EcPt :=
  let p := c.p
  if q.z = 0 then r
  else if r.z = 0 then q
  else
    let q2 := q.z * q.z % p
    let r2 := r.z * r.z % p
    let u := q.x * r2 % p
    let v := q.y * r2 % p * r.z % p
    let h := subMod p (r.x * q2) u
    let w := subMod p (r.y * q2 % p * q.z) v
    if h = 0 then (if w = 0 then q.double c else ⟨1, 1, 0⟩)
    else
      let h2 := h * h % p
      let h3 := h * h2 % p
      let uh := u * h2 % p
      let x := subMod p (w * w) (h3 + 2 * uh)
      ⟨x, subMod p (w * subMod p uh x) (v * h3), h * q.z % p * r.z % p⟩

/-- A multiple of the base point; the factor has at most the given number of bits. -/
def ecTimes (c : Curve) : Nat → Nat → EcPt
  | 0, _ => ⟨1, 1, 0⟩
  | n + 1, k => let q := (ecTimes c n (k / 2)).double c; if k % 2 = 1 then q.add c ⟨c.gx, c.gy, 1⟩ else q

/-- A point in affine coordinates. -/
def EcPt.affine (c : Curve) (q : EcPt) : Nat × Nat :=
  let i := invMod c.p q.z
  let i2 := i * i % c.p
  (q.x * i2 % c.p, q.y * i2 % c.p * i % c.p)

/-- The multiple of the base point by a scalar, in affine coordinates. -/
def ecBase (c : Curve) (k : Nat) : Nat × Nat := (ecTimes c 528 k).affine c

/-- The public key of a scalar: SEC1, uncompressed. -/
def ecPublic (c : Curve) (d : List Nat) : List Nat :=
  let q := ecBase c (ofBeBytes d)
  4 :: beBytes c.len q.1 ++ beBytes c.len q.2

/-! ### Signatures -/

/-- The hash of an EC type (R429): its function and its block in bytes. -/
def ecHash : Nat → (List Nat → List Nat) × Nat
  | 4 => (sha256Bytes, 64)
  | 5 => (sha384, 128)
  | _ => (sha512, 128)

/-- The leftmost bits of a string of bytes as a number, as many as the order has (RFC 6979, bits2int). -/
def ecBits (c : Curve) (l : List Nat) : Nat := ofBeBytes l / 2 ^ (8 * l.length - (Nat.log2 c.n + 1))

/-- One try of a signature with a nonce: r and s, none where one of them is 0. -/
def ecTry (c : Curve) (d z k : Nat) : Option (Nat × Nat) :=
  if k = 0 ∨ c.n ≤ k then none
  else
    let r := (ecBase c k).1 % c.n
    let s := invMod c.n k * (z + r * d) % c.n
    if r = 0 ∨ s = 0 then none else some (r, s)

/-- The nonces of RFC 6979 in turn, at most the given number of them, until one gives a signature: the candidate is taken from as many outputs of
the HMAC as the order is long. -/
def ecNonces (c : Curve) (mac : List Nat → List Nat → List Nat) (d z : Nat) : Nat → List Nat → List Nat → Nat × Nat
  | 0, _, _ => (0, 0)
  | n + 1, k, v =>
    let v1 := mac k v
    let v2 := if v1.length < c.len then mac k v1 else v1
    let t := if v1.length < c.len then v1 ++ v2 else v1
    match ecTry c d z (ecBits c t) with
    | some q => q
    | none => let k1 := mac k (v2 ++ [0]); ecNonces c mac d z n k1 (mac k1 v2)

/-- The signature of a message with a scalar (R298, R429): r and s. The tries are bounded for the sake of a total function; a nonce is refused with a
probability below 2 ^ -32. -/
def ecdsa (type : Nat) (d m : List Nat) : Nat × Nat :=
  let c := curveOf type
  let (h, blk) := ecHash type
  let mac := hmacWith h blk
  let h1 := h m
  let z := ecBits c h1
  let x := beBytes c.len (ofBeBytes d) ++ beBytes c.len (z % c.n)
  let k0 := mac (List.replicate h1.length 0) (List.replicate h1.length 1 ++ 0 :: x)
  let v0 := mac k0 (List.replicate h1.length 1)
  let k1 := mac k0 (v0 ++ 1 :: x)
  ecNonces c mac (ofBeBytes d) z 64 k1 (mac k1 v0)

/-- The signature as bytes: r, then s, each big-endian in the byte length of n. -/
@[irreducible] def ecdsaBytes (type : Nat) (d m : List Nat) : List Nat :=
  let q := ecdsa type d m
  let n := (curveOf type).len
  beBytes n q.1 ++ beBytes n q.2

end Sys2Proof.Machine
end

