-- ==== Sys2Proof/Machine/Ed448.lean ====
section
/-! DEFINITION. Ed448, pure, of RFC 8032 (spec/18_keys_identity.md, R421, R429; spec/12_billing_tariffs.md, R298), with SHAKE256 of FIPS 202. The spec
names the scheme and its text (PRESUMED, log 126). -/

namespace Sys2Proof.Machine

/-! ### SHAKE256 -/

/-- The number of places by which each lane is rotated, lane x + 5y. -/
def kecRot : List Nat := [0, 1, 62, 28, 27, 36, 44, 6, 55, 20, 3, 10, 43, 25, 39, 41, 45, 15, 21, 8, 18, 2, 61, 56, 14]

/-- The state of the register that gives the round constants, one step on. -/
def kecStep (r : Nat) : Nat := Nat.xor (2 * r % 256) (if 128 ≤ r then 0x71 else 0)

/-- A round constant from the register, and the register after it. -/
def kecConst (r : Nat) : Word64 × Nat :=
  (List.range 7).foldl (fun (p : Word64 × Nat) j =>
    let r1 := kecStep p.2
    (if bit r1 1 then p.1 ^^^ BitVec.ofNat 64 (2 ^ (2 ^ j - 1)) else p.1, r1)) (0, r)

/-- A round of Keccak-f[1600] on 25 lanes with its constant. -/
def kecRound (k : Word64) (a : List Word64) : List Word64 :=
  let g := fun (l : List Word64) (x y : Nat) => l.getD (x % 5 + 5 * (y % 5)) 0
  let c := (List.range 5).map fun x => g a x 0 ^^^ g a x 1 ^^^ g a x 2 ^^^ g a x 3 ^^^ g a x 4
  let d := (List.range 5).map fun x => c.getD ((x + 4) % 5) 0 ^^^ (c.getD ((x + 1) % 5) 0).rotateLeft 1
  let t := (List.range 25).map fun i => a.getD i 0 ^^^ d.getD (i % 5) 0
  let b := (List.range 25).map fun i =>
    let x := i % 5 + 3 * (i / 5)
    (g t x i).rotateLeft (kecRot.getD (x % 5 + 5 * (i % 5)) 0)
  (List.range 25).map fun i =>
    let x := i % 5
    let v := g b x (i / 5) ^^^ (~~~g b (x + 1) (i / 5) &&& g b (x + 2) (i / 5))
    if i = 0 then v ^^^ k else v

/-- Rounds of Keccak-f[1600], as many as are left. -/
def kecRounds : Nat → Nat → List Word64 → List Word64
  | 0, _, a => a
  | n + 1, r, a => let k := kecConst r; kecRounds n k.2 (kecRound k.1 a)

/-- Blocks of 136 bytes are absorbed, as many as are left. -/
def kecAbsorb : Nat → List Nat → List Word64 → List Word64
  | 0, _, a => a
  | n + 1, l, a =>
    kecAbsorb n (l.drop 136) (kecRounds 24 1 (a.zipIdx.map fun (p : Word64 × Nat) =>
      if p.2 < 17 then p.1 ^^^ BitVec.ofNat 64 (ofLeBytes ((l.drop (8 * p.2)).take 8)) else p.1))

/-- SHAKE256 of bytes, at most 136 bytes of output. -/
def shake256 (l : List Nat) (n : Nat) : List Nat :=
  let q := 135 - l.length % 136
  let pad := if q = 0 then [0x9F] else 0x1F :: List.replicate (q - 1) 0 ++ [0x80]
  ((kecAbsorb (l.length / 136 + 1) (l ++ pad) (List.replicate 25 0)).flatMap fun w => leBytes 8 w.toNat).take n

/-! ### The curve x^2 + y^2 = 1 + d x^2 y^2 -/

/-- The prime of the field. -/
def edP : Nat := 2 ^ 448 - 2 ^ 224 - 1

/-- The order of the base point. -/
def edL : Nat := 2 ^ 446 - 13818066809895115352007386748515426880336692474882178609894547503885

/-- The base point, in projective coordinates. -/
def edBase : EcPt :=
  ⟨224580040295924300187604334099896036246789641632564134246125461686950415467406032909029192869357953282578032075146446173674602635247710,
    298819210078481492676017930443930673437544040154080242095928241372331506189835876003536878655418784733982303233503462500531545062832660, 1⟩

/-- The sum of two points; d is -39081. -/
def edAdd (q r : EcPt) : EcPt :=
  let p := edP
  let a := q.z * r.z % p
  let b := a * a % p
  let c := q.x * r.x % p
  let d := q.y * r.y % p
  let e := 39081 * (c * d) % p
  let f := (b + e) % p
  let g := subMod p b e
  let h := subMod p ((q.x + q.y) * (r.x + r.y)) (c + d)
  ⟨a * f % p * h % p, a * g % p * subMod p d c % p, f * g % p⟩

/-- A multiple of the base point; the factor has at most the given number of bits. -/
def edTimes : Nat → Nat → EcPt
  | 0, _ => ⟨0, 1, 1⟩
  | n + 1, k => let q := edTimes n (k / 2); let q2 := edAdd q q; if k % 2 = 1 then edAdd q2 edBase else q2

/-- A point as 57 bytes: y, with the lowest bit of x as the highest bit. -/
def edEncode (q : EcPt) : List Nat :=
  let i := invMod edP q.z
  leBytes 57 (q.y * i % edP + 2 ^ 455 * (q.x * i % edP % 2))

/-- The scalar and the prefix of a private key. -/
def edSecret (d : List Nat) : Nat × List Nat :=
  let h := shake256 d 114
  (ofLeBytes (h.take 56) % 2 ^ 447 / 4 * 4 + 2 ^ 447, h.drop 57)

/-- The public key of a private key. -/
def edPublic (d : List Nat) : List Nat := edEncode (edTimes 448 (edSecret d).1)

/-- dom4 of RFC 8032 for the pure scheme with an empty context: "SigEd448", 0, 0. -/
def edDom : List Nat := [0x53, 0x69, 0x67, 0x45, 0x64, 0x34, 0x34, 0x38, 0, 0]

/-- The signature of a message with a private key: 114 bytes. -/
@[irreducible] def edSign (d m : List Nat) : List Nat :=
  let (s, pre) := edSecret d
  let r := ofLeBytes (shake256 (edDom ++ pre ++ m) 114) % edL
  let c := edEncode (edTimes 448 r)
  let k := ofLeBytes (shake256 (edDom ++ c ++ edPublic d ++ m) 114) % edL
  c ++ leBytes 57 ((r + k * s) % edL)

/-! ### The keys of the Key Vault -/

/-- The bytes of a private key of a type (R421, R424); 0 for HMAC, whose loaded length is free. -/
def keyBytes : Nat → Nat
  | 1 => 16 | 2 => 32 | 4 => 32 | 5 => 48 | 6 => 66 | 7 => 57
  | _ => 0

/-- A private scalar from key material (R424). -/
def scalarOf (type : Nat) (okm : List Nat) : List Nat :=
  if type = 4 ∨ type = 5 ∨ type = 6 then beBytes (keyBytes type) (ofBeBytes okm % ((curveOf type).n - 1) + 1) else okm

/-- The public key of a private key of a type (R417, R421): SEC1 uncompressed for ECDSA, 57 bytes for Ed448, none for the other types. -/
@[irreducible] def publicBytes (type : Nat) (d : List Nat) : List Nat :=
  if type = 4 ∨ type = 5 ∨ type = 6 then ecPublic (curveOf type) d else if type = 7 then edPublic d else []

/-- The signature of a message with a private key of a type (R298, R429). -/
def keySign (type : Nat) (d m : List Nat) : List Nat := if type = 7 then edSign d m else ecdsaBytes type d m

end Sys2Proof.Machine
end

