-- ==== Sys2Proof/Machine/State.lean ====
section
/-! DEFINITION. The state of the module, as plain data: the register file, what no register shows (queues, stores, timers,
logs, pins), the reasons a step can stop, and the state after reset. The register file is the list of the words that differ
from their reset value, in rising address order; a word not listed reads its reset value (`Ops.lean`). -/

namespace Sys2Proof.Machine

/-- A record of R438 as its fields: the angle stamp, the UTC seconds, the event code, the severity, the source byte and the
twelve payload bytes. -/
structure Rec where
  stamp : Nat
  utc : Nat
  code : Nat
  sev : Nat
  src : Nat
  pay : List Nat
deriving DecidableEq, Repr

/-- A record held in a log with the sequence number kept beside it (R439). -/
structure Held where
  seq : Nat
  rcd : Rec
deriving DecidableEq, Repr

/-- What the module sends: the kinds of frame, block, message and answer that the chapters name. -/
inductive Sent where
  | status            -- R507: the status of one access, to its session
  | response | notify | records | lresult | dtls   -- R504 to R512: Coansyn
  | gatewayError | relay                            -- R497
  | announce | joinRequest | idGrant | tableLoad | epochChange | topology | leave   -- R172 to R190: Fabric
  | training | wakeBlocks | delayBlock | replay | forwarded | delivered | timeFrame
  | action | actionResponse | resetCommand           -- R194 to R200
  | report | grant                                   -- R208, R212: Share Ledger
  | need | allowance                                 -- R330
  | beacon | plcData | plcAck | plcAssoc | plcSound | plcRange   -- R227 to R243
  | packCurrent | cellAnswer                         -- R259, R379
  | display                                          -- R307
  | sdp | v2g                                        -- R314, R315
  | ringWake | ringDiscovery | ringSync | ringKeepalive | ringRecollect | ringOrder   -- R361 to R377
  | can                                              -- R410
  | ntp                                              -- R515
deriving DecidableEq, Repr

/-- One thing sent: its kind, where it goes (a session, a node, a lane, a connector, a port) and its content. -/
structure Out where
  kind : Sent
  dst : Nat
  data : List Nat
deriving DecidableEq, Repr

/-- The event recorder: the hold of R78 in D1 and the number dropped from it, the intake queue of R441 and the number
dropped from it and not yet reported, the two logs, the discards of R443 not yet reported, the RTC second of the last event
0x1001, whether events 0x1003 and 0x1005 have been logged for the present state (R447), whether the intake queue has run since D1
started (R441). -/
structure Evr where
  hold : List Rec := []
  holdDropped : Nat := 0
  queue : List Rec := []
  dropped : Nat := 0
  op : List Held := []
  mor : List Held := []
  discNew : Nat := 0
  discAt : Option Nat := none
  warned : Bool := false
  fullNoted : Bool := false
  up : Bool := false
deriving DecidableEq, Repr

/-- Pins and output stages that no register shows: the gate pins PHnn_GH and PHnn_GL as bit maps over the 96 phases, GDEN0
and GDEN1, AUXa_DRV, the sixteen load-switch output stages and the sixteen Freeze latches (R454, R466), whether the latches
command the stages, PUL0 to PUL7, TBR_APO, SNS (its channel, none while it moves to another; its voltage in mV as last measured, which the
clamp holds at 3,500 at most, R397), RST_N low, the E-stop inputs that are low, and
PLC_DET high: no coupler (R41). The other pins of R42 follow from the state (`Pins.lean`). -/
structure Pins where
  gateH : Nat := 0
  gateL : Nat := 0
  gden : Nat := 0
  auxDrv : Nat := 0
  ls : Nat := 0
  latch : Nat := 0
  pul : Nat := 0
  apo : Bool := false
  sns : Option Nat := some 0
  snsMv : Nat := 0
  rstLow : Bool := false
  estopLow : Nat := 0
  plcDet : Bool := false
deriving DecidableEq, Repr

/-- Reset and start-up work in progress, in D1: the kind of the running reset (0 none, else as `LAST`), its domains, the domains
of a further DOMAIN reset (R71); whether the hold-up sequence runs, and whether a rail monitor declared it (R51, R52); the domains
of a role apply's own DOMAIN resets and whether it was accepted in RUN (R24); the RTC seconds of a fall of VBAT whose event waits
(R53); whether the module is in DORMANT; the load-switch owners when the Freeze record was written (R467); the self-calibration
items, the domains' RAM and the firmware units that have failed, and the ready bits whose configuration section has (R74, R474);
the ready bits held clear for these; the units whose firmware has been switched, each with its bank before, and the unit whose switch still
runs (R475, R477); the D2 words that a
PIN reset's image changes, with the stamp from which they apply (R80, R483); whether the last store test passed, none before the first
(R50). -/
structure Boot where
  kind : Nat := 0
  doms : Nat := 0
  further : Nat := 0
  failing : Bool := false
  rail : Bool := false
  apply : Nat := 0
  applyRan : Bool := false
  vbatEvent : Option Nat := none
  dormant : Bool := false
  frzOwner : List Nat := []
  cal : Nat := 0
  ram : Nat := 0
  fwBad : Nat := 0
  sect : Nat := 0
  block : Nat := 0
  switched : List (Nat × Nat) := []
  swRun : Option Nat := none
  d2 : List (Nat × Word) := []
  d2At : Nat := 0
  storeTest : Option Bool := none
deriving DecidableEq, Repr

/-- An aux channel beyond its registers, in D10: the number of the setpoint in use (R66), the peak threshold in volts at AUXa_CS
that the Loop Engine last delivered (R60), whether sync has been lost and not regained (R63); the length of the switching period and
the time in it, in ps, and the time since the last edge of AUX_SYNC, modulo its period (R60, R63); the periods of a burst still to
run at `BURST_TH`, 1 while the threshold stays below it (R62); whether `PGOOD` has been set since the channel was enabled, and the
fallback reference in 1.25 V / 4,096 (R61, R66); the peak thresholds of the last 16 pulses, newest first, in V / 262,144,000,000 (R154). -/
structure AuxX where
  sel : Nat := 0
  th : Word := 0
  lost : Bool := false
  per : Nat := 0
  t : Nat := 0
  edge : Nat := 0
  burst : Nat := 0
  good : Bool := false
  ref : Nat := 0
  peaks : List Int := []
deriving DecidableEq, Repr

/-- The Timebase beyond its registers. In D4: the 28 fractional bits of the accumulator (R84), f_loc and f_src in 10 pHz, the
exact error in 10^-20 of 1/16 au (R90), the pending renumbering (R92), the armed offset commit (R100), the targets the active
offsets move towards, the base periods TBR_APO stays high, the accepted angle pulses in a row, whether the next angle pulse is the
first since its source was taken, and whether the pulse has been lost since D4 started (R103, R104); whether LOCKED has not been entered since
ACQUIRE (R104); the sources heard and not lost since, as a bit map by number (R104); the stamp of the source in use when it was last heard,
in 1/16 au, and the base periods since, which give f_src (R89); the groups whose re-spacing is armed for angle 0, and those for which it
waits until `PEND` reads 0 (R120). -/
structure Tb where
  frac : Nat := 0
  floc : Nat := 5000000000000
  fsrc : Nat := 5000000000000
  err : Int := 0
  renum : Option Int := none
  commit : Option (Option Nat) := none
  left : Nat := 0
  respace : Nat := 0
  respWait : Nat := 0
  gTgt : List (Nat × Nat) := []
  pTgt : List (Nat × Nat) := []
  apoLeft : Nat := 0
  apiOk : Nat := 0
  apiFirst : Bool := false
  apiLost : Bool := false
  heard : Nat := 0
  srcAt : Option Nat := none
  srcN : Nat := 0
  acq : Bool := false
deriving DecidableEq, Repr

/-- The stamp keeper in D2 (R96) and what MRAM keeps beside `TB_LAST_STAMP` (R97): the keeper's fraction and increment, the
base periods since it last moved, the RTC seconds and the increment of the last commit; whether REFCLK is the reference (R94);
whether a follower took its restart value in HOLDOVER (R97). -/
structure Keeper where
  frac : Nat := 0
  inc : Nat := 0
  phase : Nat := 0
  commitRtc : Nat := 0
  commitInc : Nat := 0
  ref : Bool := false
  restarted : Bool := false
deriving DecidableEq, Repr

/-- A phase beyond its registers: the threshold loaded in µA (R109), `SLOPE` as taken at the last carrier start (R111) and the value to which
the ramp has brought the DAC at the end of the pulse, in 1/256 LSB (R108), the carriers since it became ACTIVE and the counts of
the four checks (R124, R125), the whole carriers near zero current while `MODE` waits (R112), the state published at the last strobe
(R117), the stamp at which Safe-Off or the module's leaving RUN put it OFF (R133), and that of its last carrier start (R100). -/
structure PhX where
  th : Int := 0
  slope : Nat := 0
  dac : Int := 0
  since : Nat := 0
  open4 : Nat := 0
  range : Nat := 0
  fall : Nat := 0
  stuck : Nat := 0
  zero : Nat := 0
  pub : Nat := 0
  off : Option Nat := none
  at_ : Option Nat := none
deriving DecidableEq, Repr

/-- What the Phase Engine publishes of a group at a strobe (R117): `CAP`, its source, `N_ACT`, the voltage in 0.1 V, the current in A, the
reverse ceiling in A, and the pulses truncated since the strobe before. -/
structure GrpPub where
  cap : Nat := 0
  src : Nat := 0
  n : Nat := 0
  v : Nat := 0
  i : Int := 0
  rev : Nat := 0
  trunc : Nat := 0
deriving DecidableEq, Repr

/-- A group beyond its registers: H, L, the clamped demand and the common threshold in µA (R109), the demand at the start of
RAMPDOWN and the time since in ps, whether the number of active phases has changed since the last boundary and by a loss
(R126), whether MODE waits for zero current (R112), the pulses truncated in the cycle numbered `truncCyc` (R122) and those since
the last strobe, what that strobe published (R117), the sample strobes since a demand arrived (R134). -/
structure GrpX where
  h : Int := 0
  l : Int := 0
  d : Int := 0
  th : Int := 0
  rampD0 : Int := 0
  rampPs : Nat := 0
  changed : Bool := false
  lost : Bool := false
  turning : Bool := false
  truncN : Nat := 0
  truncCyc : Option Nat := none
  trunc : Nat := 0
  pub : GrpPub := {}
  demAge : Nat := 0
deriving DecidableEq, Repr

/-- A loop beyond its registers: the derivative filter, the latest output computed, the output that waits for the next strobe
(R142), the fault-free due updates in HOLD and the updates in a row beyond a limit, the two bands of R150, the points of the
gain table in force that are not 1.0 and whether a commit waits (R149), whether the next update presets the integrator
because the loop enters AUTO (R151), whether `SRC_Y` was at fault when the loop left OFF (R162), whether the
next due update is the first after HOLD, which runs in TRACK (R155). -/
structure LoopX where
  yf : Word := 0
  u : Word := 0
  out : Option Word := none
  good : Nat := 0
  sat : Nat := 0
  band1 : Nat := 0
  band2 : Nat := 0
  gt : List (Nat × Word) := []
  gtPend : Bool := false
  preset : Bool := false
  initPend : Bool := false
  track : Bool := false
deriving DecidableEq, Repr

/-- An injector beyond its registers (R165): the phase in radians, the updates counted, the shift register, the present value, and
its value at the last sample strobe, which source class 0x15 gives (R142). -/
structure InjX where
  phase : Word := 0
  n : Nat := 0
  lfsr : Nat := 0x7FF
  q : Word := 0
  pub : Word := 0
deriving DecidableEq, Repr

/-- One strobe of the capture: its stamp and the four samples (R167). -/
structure CapS where
  stamp : Nat
  ch : List Word
deriving DecidableEq, Repr

/-- The Loop Engine beyond its registers: loops, injectors, the swaps that wait for angle 0 (R158), the capture's samples,
newest first, and the strobes counted for `DEC`, whether an injector has started since the capture was armed, whether an accepted `SRATE` waits for
angle 0 (R139). The banks of
the feed-forward tables stand in `State.ff`, because a reset of D7 keeps them. -/
structure Le where
  loops : List (Nat × LoopX) := []
  inj : List (Nat × InjX) := []
  swap : Nat := 0
  cap : List CapS := []
  capDec : Nat := 0
  injStarted : Bool := false
  sratePend : Bool := false
deriving DecidableEq, Repr

/-- A launched action in the queue of D8 (R194): its target stamp, endpoint, operation, `ACK`, identifier, source node and
the bytes of `BODY`; whether a renumbering has skipped over its target (R92). -/
structure La where
  target : Nat
  ep : Nat
  op : Nat
  ack : Nat
  actId : Nat
  src : Nat
  body : List Nat
  late : Bool
deriving DecidableEq, Repr

/-- What a neighbour has announced on a link (R178): the key, its root's sequence, whether the neighbour is MEMBER under it. -/
structure Heard where
  key : FabKey
  seq : Nat
  member : Bool
deriving DecidableEq, Repr

/-- A frame that waits at the egress of a lane, as it arrived, and the link it came from, 14 where the module itself injects it (R174, R187). -/
structure Egr where
  f : FabFrame
  src : Nat
deriving DecidableEq, Repr

/-- A lane beyond its registers (R172, R174): the frames that wait at its egress, oldest first; the ps for which the frame in transmission
still takes it; the neighbour's credits of 64 bytes for VC0 and VC1; whether VC1 is next; the next link sequence number; the replay
buffer of 16 KiB, newest first. -/
structure LaneX where
  queue : List Egr := []
  busy : Nat := 0
  cred0 : Nat := 128
  cred1 : Nat := 128
  turn : Bool := false
  seq : Nat := 0
  replay : List (Nat × List Nat) := []
deriving DecidableEq, Repr

/-- The fabric beyond its registers. In D8: the queue of launched actions and the last 64 executed, as source and identifier
(R195); what each link has announced; the root's key and the last sequence heard or sent; the roots declared lost, each with its last
sequence (R179); the lanes that wait 10 ms to train again, and the lanes that wait to be reported; the last 64 delays of each
lane (R191); the root's table of node IDs, as node and serial number, the role set of each serial number's join request, and its
reservations (R180), its topology, as node and
its links (R184), and whether an epoch is due (R189); the two banks of the forwarding table, the entries that differ from the
reset entry (R186); the directions and the level that the shadow bank brings; the armed switch stamp and whether injection is
held (R189); the frames that wait at the source; the RTC second of the last event 0x060B; the copy of the site fabric
key in D8 (R200); the lanes' own state; the module's own control frames and responses that wait at the source, urgent or not, and the
base periods since each urgent injection of the last 100 µs (R176, R189); the base periods until the announced class may change again
(R177); whether the next epoch is a new root's first and replaces both banks, and whether the armed one does; the switch stamp
that follows an earlier one still armed, and whether it replaces both banks (R202); whether the module has joined and no epoch has come
since, so that it carries no transit (R188). Lane 8 stands for
the powerline link. -/
structure Fab where
  la : List La := []
  done : List (Nat × Nat) := []
  heard : List (Nat × Heard) := []
  rootKey : Option FabKey := none
  rootSeq : Nat := 0
  lost : List (Nat × Nat) := []
  retry : Nat := 0
  dly : List (Nat × List Int) := []
  ids : List (Nat × Nat) := []
  roles : List (Nat × Nat) := []
  resv : List (Nat × Nat) := []
  topo : List (Nat × List (Nat × Nat)) := []
  due : Bool := false
  fwd0 : List (Nat × Nat) := []
  fwd1 : List (Nat × Nat) := []
  dirs : List (Nat × Nat) := []
  nextLevel : Nat := 0
  plcDir : Nat := 0
  plcParent : Bool := false
  switch : Option Nat := none
  hold : Bool := false
  inject : List FabFrame := []
  discAt : Option Nat := none
  key : Option (List Nat) := none
  lanes : List (Nat × LaneX) := []
  wait : List (Bool × Out) := []
  ages : List Nat := []
  clsWait : Nat := 0
  both : Bool := false
  swBoth : Bool := false
  later : Option (Nat × Bool) := none
  leaf : Bool := false
deriving DecidableEq, Repr

/-- A grant that the ledger root has sent (R213): its kW, its sequence and its reclaim time in ninths of 40 ns of the root's
25 MHz reference. -/
structure Grant where
  kw : Nat
  seq : Nat
  reclaim : Nat
deriving DecidableEq, Repr

/-- A holder's entry at the ledger root: serial number, request, class, floor, lease and draw as last reported, whether the
digest matches, whether it is excluded (R219), when the last report arrived (counts of the 25 MHz reference), whether one has
arrived since the previous round, the sequence and the value of the last grant, the grants in force, the sequence a report
has named as applied and when (R213), the pledge offered, and the pledge that stands: kW, its sequence, whether it is
acknowledged, and its earliest end in ninths of 40 ns (R217). -/
structure Holder where
  serial : Nat := 0
  req : Nat := 0
  cls : Nat := 0
  floor : Nat := 0
  lease : Nat := 0
  draw : Int := 0
  ok : Bool := false
  excl : Bool := false
  at_ : Nat := 0
  fresh : Bool := false
  seq : Nat := 0
  last : Nat := 0
  recs : List Grant := []
  applied : Option (Nat × Nat) := none
  offer : Nat := 0
  pledge : Option (Nat × Nat × Bool × Nat) := none
  known : Bool := false
deriving DecidableEq, Repr

/-- The Share Ledger beyond its registers, in D3: the root's table by node, the end of T_gen in ninths of 40 ns, the target of
the last cut (R218), the local half-cycles left of the pledge, the RTC second of the last event 0x0505, whether the
sum of the floors is above `SITE_LIM` (R219), the latest count of the root's 25 MHz reference. A holder whose node ID another module has
taken keeps its entry, and so its records, under a number above every node ID (R213). Whether a launched action has set `LIM_DYN` since the
last round (R222). -/
structure Sl where
  holders : List (Nat × Holder) := []
  tEnd : Nat := 0
  cutAt : Nat := 0
  pledgeHc : Nat := 0
  rejAt : Option Nat := none
  overSum : Bool := false
  now : Nat := 0
  limAct : Bool := false
deriving DecidableEq, Repr

/-- A segment to send on a powerline link (R231, R232): its sequence, its data, the offset of the first fabric frame that starts in it or
0xFF, how often it has been sent, the stamp of its first sending, the symbol at which its acknowledgement is overdue. -/
structure TxSeg where
  seq : Nat
  data : List Nat
  start : Nat := 0xFF
  tries : Nat := 0
  first : Nat := 0
  due : Nat := 0
deriving DecidableEq, Repr

/-- A powerline link (R231 to R243): the other station's serial number and node, whether it is ACTIVE, the stamp at which it was last
heard; the frames that wait, as urgent, channel and bytes; the frame of which a part has been sent, and the rest of it; the segments
sent and not acknowledged, the next sequence; the next sequence to deliver and the segments held; the last 32 segments received, true for a failure that
counts; the tone map in use to the station (identifier, rate, codes), the one issued to it, whether a sounding is awaited, the
last 8 delays; the run of beacon periods with a better key; the frames sent and not acknowledged, as their sequences; whether each of the
last 32 segments acknowledged had failed; whether VC1 is next of the channels that alternate (R244); the fabric frame received in part,
none after a gap; the stamp since which a missing segment has been awaited; the identifier of the map issued before and the stamp
of the change, and whether a sounding frame has come and waits for its map (R240); the nodes a station named at association (R245); whether the link was taken over with its
index from another coordinator (R234); at the coordinator, the nodes whose frames have come from the station (R242); the resends that have failed in a row (R172, R242). -/
structure PlcLink where
  serial : Nat := 0
  node : Nat := 0
  active : Bool := false
  heardAt : Nat := 0
  queue : List (Bool × Nat × List Nat) := []
  cur : List Nat := []
  rest : List Nat := []
  segs : List TxSeg := []
  txSeq : Nat := 0
  rxSeq : Nat := 0
  rxHold : List (Nat × List Nat × Nat) := []
  window : List Bool := []
  tm : Nat := 0
  rate : Nat := 0
  codes : List Nat := []
  issued : Nat := 0
  sound : Bool := false
  dly : List Int := []
  better : Nat := 0
  betterBpc : Nat := 0
  unacked : List (List Nat) := []
  txWindow : List Bool := []
  turn : Bool := false
  part : Option (List Nat) := none
  gap : Option Nat := none
  oldMap : Nat := 0
  oldAt : Option Nat := none
  sounded : Bool := false
  feeds : List Nat := []
  kept : Bool := false
  nodes : List Nat := []
  fails : Nat := 0
deriving DecidableEq, Repr

/-- A schedule of R237 to R239: its version, the period counter at which it takes effect, its entries as station, half-cycle,
first symbol and length. -/
structure Sched where
  ver : Nat
  at_ : Nat
  slots : List PlcSlot
deriving DecidableEq, Repr

/-- The Powerline beyond its registers, in D9: the links by station, 0 the coordinator; the schedule in force and the one that
is announced, as version, period counter and entries (station, half-cycle, first symbol, length); the answers that wait; the
acknowledgements that wait for the downlink slot; the successor and for how many beacons it has been named; the coordinator
that names this station; the periods since this station became coordinator; the beacon periods before the next association
request; the segments discarded and impulses erased since the last events, and the RTC seconds of those; the cycle of the last beacon
period of its own; the coordinator's key as last heard; the energies of the last 64 symbols received, newest first (R233); the station whose join request passed last (R242). -/
structure Plc where
  links : List (Nat × PlcLink) := []
  sched : List PlcSlot := []
  pend : Option Sched := none
  answers : List (Nat × Nat) := []
  acks : List (Nat × Nat × Nat) := []
  succ : Nat := 0x3F
  succN : Nat := 0
  named : Nat := 0
  periods : Nat := 0
  wait : Nat := 0
  dropN : Nat := 0
  dropAt : Option Nat := none
  impN : Nat := 0
  impAt : Option Nat := none
  bcnAt : Option Nat := none
  ckey : Nat × Nat × Nat × Nat := (0, 31, 0, 0)
  asked : Option Nat := none
  energy : List Nat := []
deriving DecidableEq, Repr

/-- The exact counts of a measurement point (R262, R263): inlet forward and reverse, meter forward and reverse and loss, in
1.024 fJ; charge forward and reverse in 102.4 pC; the samples not valid while enabled. -/
structure PtAcc where
  iF : Nat := 0
  iR : Nat := 0
  mF : Nat := 0
  mR : Nat := 0
  loss : Nat := 0
  aF : Nat := 0
  aR : Nat := 0
  gap : Nat := 0
deriving DecidableEq, Repr

/-- What an armed snapshot waits for (R266): a sample from a stamp on, or from the stamp on that `MET_SNAP_STAMP` arms. -/
inductive SnapArm where
  | at_ (stamp : Nat)
  | reg
deriving DecidableEq, Repr

/-- A measurement point beyond its registers: its counts; the snapshot held, with its stamp and its T (R279), and what an armed one waits
for (R266); T in 0.1 °C (R261); the sums of the running block, its samples and whether one was not valid (R258); whether the last block was
valid; the samples of the gap that runs; the last samples, newest first, as stamp, current in 10 µA and validity (R259); whether
a sample was not valid in the open interval, period and session (R300); the delay lines of its two channels, raw values, newest
first (R254); the newest bits of their modulators in groups of 128, newest first (R252). -/
structure PtX where
  acc : PtAcc := {}
  snap : Option (PtAcc × Nat × Int) := none
  arm : Option SnapArm := none
  t : Int := 0
  sumV : Int := 0
  sumI : Int := 0
  sumP : Int := 0
  sumL : Int := 0
  n : Nat := 0
  bad : Bool := false
  blockOk : Bool := false
  gapRun : Nat := 0
  hist : List (Nat × Int × Bool) := []
  badInt : Bool := false
  badPer : Bool := false
  badSess : Bool := false
  lineV : List Int := []
  lineI : List Int := []
  modV : List (BitVec 128) := []
  modI : List (BitVec 128) := []
deriving DecidableEq, Repr

/-- A pulse output beyond its registers (R269): the count since `EN` was set, in the units of its quantity, the pulses that
have fallen due, and its phase: 0 idle, 1 conducting, 2 in the gap. -/
structure PulX where
  count : Nat := 0
  m : Nat := 0
  phase : Nat := 0
deriving DecidableEq, Repr

/-- What MRAM holds of D2 (R273): the counts of the points, whether a sample was not valid in the open interval and period (R300), the pulse outputs, the class N words of Metrology and Billing, and
whether the commit carries the closing mark. -/
structure MetCom where
  acc : List (Nat × PtAcc) := []
  badInt : List (Nat × Bool) := []
  badPer : List (Nat × Bool) := []
  pul : List (Nat × PulX) := []
  regs : List (Nat × Word) := []
  closing : Bool := true
deriving DecidableEq, Repr

/-- The Metrology beyond its registers, in D2: points, pulse outputs, what MRAM holds, whether accumulation has closed on a
supply fail, the stamp that the last write of `MET_SNAP_STAMP_HI` armed (R266). -/
structure Met where
  pts : List (Nat × PtX) := []
  pul : List (Nat × PulX) := []
  com : MetCom := {}
  closed : Bool := false
  stamp : Option Nat := none
deriving DecidableEq, Repr

/-- A signed meter record (R298): kind, point, number, the bytes before the signature, and the signature. -/
structure MRec where
  kind : Nat
  pt : Nat
  num : Nat
  bytes : List Nat
  sig : Option (List Nat)
deriving DecidableEq, Repr

/-- The readings of one sample that Billing takes (R296): `WH_F`, `WH_R` and the stamp. -/
structure Reading where
  f : Nat
  r : Nat
  stamp : Nat
deriving DecidableEq, Repr

/-- A billing session on a point (R296): the connector, the session identifier, the digest of the identifier, the stamp from
which it opens, the start readings once taken, the BT of the start, the flags and the rates that have governed; the stamp from
which it closes and the end reason. -/
structure BSess where
  conn : Nat
  id : Nat
  ident : List Nat
  openAt : Nat
  start : Option Reading
  bt : Nat
  flags : Nat
  rates : Nat
  closeAt : Option (Nat × Nat)
deriving DecidableEq, Repr

/-- A BT second as bookings and records see it (R282, R298): its BT, rate, `CLK_ST`, `EPOCH` and flags; the signature algorithm,
`PARAM_DIG` and `BIL_DIG` at its end. -/
structure BSec where
  bt : Nat := 0
  rate : Nat := 0
  clk : Nat := 0
  epoch : Nat := 0
  flags : Nat := 0
  alg : Nat := 0
  paramDig : Nat := 0
  bilDig : Nat := 0
deriving DecidableEq, Repr

/-- The span of a record: BT at its start and end, and its flags. -/
structure BSpan where
  bt0 : Nat
  bt1 : Nat
  flags : Nat
deriving DecidableEq, Repr

/-- What a boundary closes (R301): the second that ended there; the interval, with its length in minutes; the period. -/
structure BClose where
  sec : BSec := {}
  int : Option (BSpan × Nat) := none
  per : Option BSpan := none
deriving DecidableEq, Repr

/-- Billing beyond its registers, in D2: whether the RTC has been synchronised since the last tick; whether the next tick is the
first after POR or BOR (R303); whether that start has found another clock state than the one before it (R312); the seconds the running hold has lasted; the demand length, the signature algorithm, the page time
and the scroll sequence in force (R292, R310); the BT at which the open interval and the open period began; their flags; the
readings of each point at the previous interval end, forward and reverse; the nWh booked to each point and rate, forward and
reverse (key 16·p + r); the maximum demands with their BT; the two calendar banks (key 2,048·bank + index); the record stores,
oldest first; the last record number of each kind and point (key 8·kind + p); the open sessions by point; whether a close by
action waits; the display's unanswered frames, the test frames left (R309), and the CRC-32 of the last frame (R307); the keeper stamp
latched at the last tick and the second that it ended (R282); what the last tick's boundary closes, and the points whose samples of that
second are not all in (R301); the flags of a condition that has ended within the running second (R300). -/
structure Bil where
  synced : Bool := false
  restart : Bool := false
  clkNew : Bool := false
  held : Nat := 0
  len : Nat := 15
  alg : Nat := 0
  dwell : Nat := 10
  seq : List (Nat × Nat) := []
  intBt : Nat := 0
  perBt : Nat := 0
  intFlags : Nat := 0
  perFlags : Nat := 0
  prevF : List (Nat × Nat) := []
  prevR : List (Nat × Nat) := []
  rateF : List (Nat × Nat) := []
  rateR : List (Nat × Nat) := []
  maxDem : List (Nat × Nat) := []
  maxBt : List (Nat × Nat) := []
  cal : List (Nat × Word) := []
  ints : List MRec := []
  sess : List MRec := []
  pers : List MRec := []
  nums : List (Nat × Nat) := []
  opn : List (Nat × BSess) := []
  actClose : Bool := false
  dispMiss : Nat := 0
  dispTest : Nat := 0
  dispCrc : Nat := 0
  latch : Nat := 0
  last : BSec := {}
  due : BClose := {}
  left : List Nat := []
  sec : Nat := 0
deriving DecidableEq, Repr

/-- An entry of the tamper queue (R304): whether the loop is TMP_TERM, whether it is an opening, the latched RTC seconds, and
the keeper stamp, 0 while D2 is off. -/
structure TmpE where
  term : Bool
  opened : Bool
  utc : Nat
  stamp : Nat
deriving DecidableEq, Repr

/-- The meter security of D0 (R36, R304): the queue, the number lost, and the open samples in a row of TMP_COVER, TMP_TERM,
TMP_LID and the mesh, up to 2; whether no sample has been taken yet (R46). -/
structure Tmp where
  queue : List TmpE := []
  lost : Nat := 0
  cover : Nat := 0
  term : Nat := 0
  lid : Nat := 0
  mesh : Nat := 0
  first : Bool := true
deriving DecidableEq, Repr

/-- A connector of the Vehicle Session beyond its registers (R320 to R332): the T1S link enabled, a TLS session, the cable
check finished, Standby in force, a Billing session open, DC+ commanded closed; the target of the voltage loop in mV and its
present limits in mA (R327), the direction the limits serve, whether they go to 0 before they move again (R320), the session identifier, whether an enforcement has been seen (R328),
whether proximity has been read since the reset of D9 (R334); the service (0 DC, 1 DC_BPT), what the vehicle has stated (target and maximum currents in A, its
maximum and minimum voltage, its maximum power, its maximum discharge current and power); the identifier (R331); whether an insulation
value has arrived, whether one at or above `R_WARN` has in this cable check, whether the monitor has gone unheard (R324), and whether the
contactor check has failed (R321, R336); and, under DISPENSER alone, the last allowance
frame (R330): whether one has been heard, the half-cycles since, the group's state, `LAPSED`, `EXP_HC`, CAP, P_allow, V_GRP,
I_GRP and the reverse ceiling. -/
structure ConnX where
  link : Bool := false
  tls : Bool := false
  ccDone : Bool := false
  standby : Bool := false
  bill : Bool := false
  plus : Bool := false
  rTgt : Nat := 0
  dir : Bool := false
  viaZero : Bool := false
  sid : Nat := 0
  enf : Bool := false
  known : Bool := false
  hi : Int := 0
  lo : Int := 0
  service : Nat := 0
  vTarget : Nat := 0
  iTarget : Int := 0
  vMax : Nat := 0
  vMin : Nat := 0
  iMax : Nat := 0
  pMax : Nat := 0
  iDisMax : Nat := 0
  pDisMax : Nat := 0
  ident : List Nat := []
  iso : Bool := false
  isoGood : Bool := false
  isoLate : Bool := false
  ct : Bool := false
  heard : Bool := false
  age : Nat := 0
  aState : Nat := 0
  aLapsed : Bool := true
  aExp : Nat := 0
  aCap : Nat := 0
  aP : Nat := 0
  aV : Nat := 0
  aI : Int := 0
  aRev : Nat := 0
deriving DecidableEq, Repr

/-- The cabinet's view of a need frame (R330): whether one feeds the group, the half-cycles since the last, the need in kW,
the connector of the last and the node of its dispenser; whether it says that energy is transferred (R211). -/
structure NeedX where
  fed : Bool := false
  age : Nat := 0
  need : Nat := 0
  conn : Nat := 0
  node : Nat := 0
  run : Bool := false
deriving DecidableEq, Repr

/-- A record of the shutdown store (R351): its 28 bytes before the CRC; the sensor whose highest value it follows, and the keeper
stamp until which it follows it. -/
structure SdRec where
  bytes : List Nat
  sensor : Nat
  till : Nat
deriving DecidableEq, Repr

/-- Thermal beyond its registers, in D10: the last OK value of each sensor in 0.1 °C, the last valid |I| of the cable models in
mA, the internal sensors and the cable models at or above their warning level, the samples in a row outside and inside the tolerance of the cold-plate
sensors (R339); the external sensors in the snowline band (R340); the base periods of the running millisecond, and the connectors that did not
comply at its start (R358). -/
structure Th where
  last : List (Nat × Int) := []
  cmI : List (Nat × Nat) := []
  intWarn : Nat := 0
  cmWarn : Nat := 0
  cpOut : List (Nat × Nat) := []
  cpIn : List (Nat × Nat) := []
  band : Nat := 0
  ms : Nat := 0
  defied : Nat := 0
  above : List (Nat × Nat) := []
  below : List (Nat × Nat) := []
deriving DecidableEq, Repr

/-- A record of a unit (R365): its status bits, sixteen cells in 100 µV, two temperatures in °C, the balancing mask, the order
sequence that it shows (R377). -/
structure CellRec where
  status : Nat
  cells : List Nat
  t0 : Int
  t1 : Int
  mask : Nat
  seq : Nat
deriving DecidableEq, Repr

/-- A balancing order (R377): the unit's ring index, the cells, the duration in s, its sequence. -/
structure CellOrder where
  u : Nat
  mask : Nat
  dur : Nat
  seq : Nat
deriving DecidableEq, Repr

/-- The Cell Supervisor beyond its registers, in D9 (R361 to R381): the units by which ring indices and positions convert, and
those found, as a bit map by ring index; the discovery attempts; whether sweeps run; the first snap instant of the schedule, and the last,
none before the first; the number of the present sweep, whether it is in progress, whether its sync ordered the pause (R378), its snap stamp and its pack current in mA; its
records by ring index; the broken half whose tail is missing, and the units that have answered a recollect; the stamp at which the
last collection or recollect ended, and that of the last sync; the sweeps since the break was recorded; the orders that wait, the
order each unit was last sent and the stamp at which it ends, the last order sequence; the sweeps in a row for which each cell has
been above or below its limit and each unit too hot. -/
structure Cs where
  size : Nat := 0
  found : Nat := 0
  attempts : Nat := 0
  sweeping : Bool := false
  first : Option Nat := none
  snap : Option Nat := none
  num : Nat := 0
  live : Nat := 0
  busy : Bool := false
  paused : Bool := false
  cur : Nat := 0
  curI : Option Int := none
  recs : List (Nat × CellRec) := []
  tail : Option Nat := none
  again : Nat := 0
  endAt : Nat := 0
  syncAt : Nat := 0
  since : Nat := 0
  orders : List CellOrder := []
  sent : List CellOrder := []
  ends : List (Nat × Nat) := []
  seq : Nat := 0
  high : List (Nat × Nat) := []
  low : List (Nat × Nat) := []
  hot : List (Nat × Nat) := []
deriving DecidableEq, Repr

/-- The Load Switches beyond their registers: the last on-fraction a loop delivered to each channel (R388), the channels
named by a second owner while the conflict stands (R387), the banks in undervoltage (R392), the channels whose junction has reached 175 °C
and has not been seen below 160 °C since (R385), and the channels that a launched action has commanded in this base period (R398). A
reset of D10 leaves all of it (log 131). -/
structure Lsw where
  frac : List (Nat × Nat) := []
  conflict : Nat := 0
  low : Nat := 0
  hot : Nat := 0
  acted : Nat := 0
deriving DecidableEq, Repr

/-- A frame in a hold slot (R408): the buffer it is for and the nineteen words of R406. -/
structure CanRec where
  buf : Nat
  words : List Nat
deriving DecidableEq, Repr

/-- The CAN ports beyond their registers, in D9: the hold slot of each port (R408), the buffer that each port offers (R410), the
buffers whose request is to be removed at the next lost arbitration, as 64·p + b (R411), the ports that the limit of R405 holds in
BUS_OFF, the ports in INIT at which the frame that was in progress has not ended (R404), the RTC second of each port's last event
0x0E05 (R412). -/
structure Can where
  hold : List (Nat × CanRec) := []
  offer : List (Nat × Nat) := []
  aborts : List Nat := []
  held : Nat := 0
  fin : Nat := 0
  ovrAt : List (Nat × Nat) := []
deriving DecidableEq, Repr

/-- A slot of the Key Vault (R417): type and usage as in `KV_SLOT_ATTR`, `LOCKW`, `MSEAL`, the key part, none where it is empty, the
certificate part, `BAD`, the writes and erases since delivery. -/
structure KvSlot where
  type : Nat := 0
  use : Nat := 0
  lockw : Bool := false
  mseal : Bool := false
  key : Option (List Nat) := none
  cert : Option (List Nat) := none
  bad : Bool := false
  wcnt : Nat := 0
deriving DecidableEq, Repr

/-- The private key that Edrepex wrote to a slot (R418): a unit's own, free (log 20). -/
def unitKey (slot type : Nat) : List Nat := scalarOf type ((List.range (keyBytes type)).map fun i => (Config.unitKey slot i).toNat)

/-- What MRAM keeps of the Key Vault, in class N: the slots that are not empty, by number, with those of R418 as delivered; the
destruction whose events wait for the next start of D11, as cause, RTC seconds and stamp (R431); whether the PUF's helper data and check value
stand there or are zeros (R414, R431); and, in D0, the voltage of the destroy reservoir in mV (R430). The certificates of KS00 to KS04 follow
from the serial number and the keys (`State.certOf`); here they stand as present. -/
structure Vault where
  slots : List (Nat × KvSlot) :=
    [(0, { type := 5, use := 1, key := some (unitKey 0 5), cert := some [] }), (1, { type := 4, use := 1, key := some (unitKey 1 4), cert := some [] }),
     (2, { type := 5, use := 1, key := some (unitKey 2 5), cert := some [] }), (3, { type := 6, use := 1, key := some (unitKey 3 6), cert := some [] }),
     (4, { type := 7, use := 1, key := some (unitKey 4 7), cert := some [] })]
  pend : Option (Nat × Nat × Nat) := none
  helper : Bool := true
  resMv : Nat := 5000
deriving DecidableEq, Repr

/-- The Key Vault beyond its registers, in D11: the slot-wrap key, none where it has not been derived (R416); the stage's words that are not 0, the session that holds the claim on it (R421), the
keys of the working slots (R424). -/
structure Kv where
  wrap : Option (List Nat) := none
  stage : List (Nat × Word) := []
  owner : Option Nat := none
  work : List (Nat × List Nat) := []
deriving DecidableEq, Repr

/-- The Safe-Off block beyond its registers, in D1: the list that runs (0 none, 1 Safe-Off, 2 supply fail, 3 Thaw), each
connector in it (1 waits, 2 DC+ opened, 3 open, 4 declared held and waiting, 5 left closed), the connectors declared held
and not yet open (R459), the channels whose latch the sequencer has cleared while Safe-Off is active (R458), whether both
E-stop inputs have been low together since the lock (R463), the next watchdog kick and whether the service period runs
(R464), whether READY has been released since the storm request (R462); the connectors that count as opened because a contactor has tripped
(R469), the base periods since t_s, whether a request has come in this base period, and the source that `FIRST` names where Safe-Off became active
in it (R456, R469). -/
structure Saf where
  list : Nat := 0
  seq : List (Nat × Nat) := []
  held : Nat := 0
  cleared : Nat := 0
  bothLow : Bool := false
  kick : Nat := 0x5A
  wdRun : Bool := false
  stormReady : Bool := true
  tripped : Nat := 0
  age : Nat := 0
  asked : Bool := false
  lead : Option Nat := none
deriving DecidableEq, Repr

/-- A section reload that waits (R482): the section, the stamp from which it applies, the entries that were verified (address, value and
mask), and the low 16 bits of the SHA-256 of the body of section 0x15 (R206). -/
structure Reload where
  sect : Nat
  target : Nat
  entries : List (Nat × Nat × Nat)
  dig : Nat
deriving DecidableEq, Repr

/-- A flash operation that runs (R472): its address, and the word to program, none for an erase. -/
structure FlOp where
  addr : Nat
  word : Option Word
deriving DecidableEq, Repr

/-- The update manager beyond its registers, in D3: the words of the package window that are not 0 (R484), the flash operation and
the reload in progress, the items under recalibration (R488), whether the flash has been identified from its SFDP tables (R34). -/
structure Upd where
  pkg : List (Nat × Word) := []
  fl : Option FlOp := none
  reload : Option Reload := none
  recal : Nat := 0
  sfdp : Bool := false
deriving DecidableEq, Repr

/-- What outlasts D3 of updates (R474, R476, R483, R486): the bank in force of each unit, the bytes of the accepted package in
MRAM, whether unit 1 is to switch after the present tick, the word of `SYS_ROLE` whose `OPT`, `DISP_CONN` and `STORE_GRP` a
reload has brought and an apply takes, the configuration bank loaded at the last start, and the low 16 bits of the digest of the
site part in force (R206; with none in force, those of the digest of no bytes). -/
structure UpdN where
  act : Nat := 0
  pkg : List Nat := []
  unit1 : Bool := false
  role : Option Word := none
  cfg : Option Nat := none
  siteDig : Nat := 0xB855
deriving DecidableEq, Repr

/-- A subscription (R509): mode, period in half-cycles, address, words, the fixed-address flag, the last read sent, the
sequence number of the next notification. -/
structure Sub where
  mode : Nat
  period : Nat
  addr : Nat
  count : Nat
  fixed : Bool
  last : Option (List Nat) := none
  seq : Nat
deriving DecidableEq, Repr

/-- The read window of a session (R448): `LOG`, `AUTO`, the sequence number loaded, `PRESENT`, `CRC_OK` and the record's words. -/
structure Window where
  log : Nat := 0
  auto : Bool := true
  seq : Nat := 0
  present : Bool := false
  crcOk : Bool := false
  words : List Nat := []
deriving DecidableEq, Repr

/-- The search of a session (R449): `KEY`, `LOG`, `FOUND`, the target and the sequence number found. -/
structure Search where
  key : Nat := 0
  log : Nat := 0
  found : Bool := false
  lo : Nat := 0
  hi : Nat := 0
  seq : Nat := 0
deriving DecidableEq, Repr

/-- A session's own state (R501): the anchor slot that granted its level, the read window, the search, the subscriptions, the EVENTS
selection (log mask, least severity), the sequence numbers of the two logs from which records wait to be sent, the number not sent, the
RTC second and the records sent in it (R510), and the kept responses: request ID and body, and the response message (R508). -/
structure Ses where
  anchor : Nat := 0x3F
  win : Window := {}
  find : Search := {}
  subs : List (Nat × Sub) := []
  mask : Nat := 0
  sev : Nat := 0
  nextOp : Nat := 0
  nextMor : Nat := 0
  dropped : Nat := 0
  second : Nat := 0
  sent : Nat := 0
  cache : List (List Nat × List Nat) := []
deriving DecidableEq, Repr

/-- A relay entry of a gateway (R497): the client's address and port, the target node and the tag. -/
structure Relay where
  ip : Nat
  port : Nat
  node : Nat
  tag : Nat
deriving DecidableEq, Repr

/-- Management beyond its registers, in D3: the sessions' own state by session, the relay entries, the last 64 launches as
identifier and session, newest first (R512; session 8 for one that is closed); the last LOCATE answer as serial number and node, and the
stamp of the last reset command sent (R513); the Sync messages in a row within 100 µs, the RTC second of the last
synchronisation by IEEE 1588, the polls without an accepted response (R514). -/
structure Mg where
  ses : List (Nat × Ses) := []
  relays : List Relay := []
  launches : List (Nat × Nat) := []
  located : Option (Nat × Nat) := none
  rstSent : Nat := 0
  syncs : Nat := 0
  ptpAt : Option Nat := none
  polls : Nat := 0
deriving DecidableEq, Repr

/-- The state of the module. A field with a default has that value after reset (`State.reset`). -/
structure State where
  /-- The register file: words that differ from their reset value. -/
  regs : List (Nat × Word) := []
  /-- The words captured by a read of a lowest word (R8). -/
  capt : List (Nat × Word) := []
  /-- The flash on NVM0: cells that differ from the erased value. -/
  flash : List Host.Cell := []
  /-- What the module has sent, newest first. -/
  out : List Out := []
  evr : Evr := {}
  pins : Pins := {}
  boot : Boot := {}
  /-- The model's own counter: how many free values have been taken. -/
  fresh : Nat := 0
  /-- The commands that are waiting, first in, first out. -/
  pending : List Instr := []
  tb : Tb := {}
  keep : Keeper := {}
  phx : List (Nat × PhX) := []
  grpx : List (Nat × GrpX) := []
  auxx : List (Nat × AuxX) := []
  le : Le := {}
  /-- The points of both banks of the sixteen feed-forward tables that are not 0 (R158): table t, bank b, point q under
  the key 2,048·t + 1,024·b + q. -/
  ff : List (Nat × Word) := []
  met : Met := {}
  conns : List (Nat × ConnX) := []
  needs : List (Nat × NeedX) := []
  lsw : Lsw := {}
  saf : Saf := {}
  fab : Fab := {}
  sl : Sl := {}
  plc : Plc := {}
  /-- The ledger's roster from the image: serial number and floor of each entry (R206). -/
  roster : List (Nat × Nat) := []
  /-- The stamp of the last reset command that was accepted, of class F (R200). -/
  rstStamp : Nat := 0
  bil : Bil := {}
  /-- Billing's state as MRAM holds it (R273, R302). -/
  bilCom : Bil := {}
  tmp : Tmp := {}
  th : Th := {}
  /-- The cable models' temperature in 10^-9 °C, of class F; a model not listed starts from T_c (R344, R345). -/
  cm : List (Nat × Int) := []
  /-- The shutdown store, newest first (R351). -/
  sd : List SdRec := []
  cs : Cs := {}
  can : Can := {}
  vault : Vault := {}
  kv : Kv := {}
  mg : Mg := {}
  upd : Upd := {}
  updN : UpdN := {}
deriving DecidableEq, Repr

/-- The module right after reset: every register at its reset value, nothing queued, stored or in progress. -/
def State.reset : State := {}

/-- The reasons a step ends in a fault. Raised by no meaning of this model. -/
inductive Fault where
  /-- Raised by no meaning: the manual lets no command stop the module. Safe. -/
  | halted
deriving DecidableEq, Repr

/-- The reasons a step ends in a refusal. -/
inductive Refusal where
  /-- Raised by an arm of `exec` whose command has no meaning yet. Safe: no false claim follows from it. -/
  | notModelled (mnemonic : String)
deriving DecidableEq, Repr

end Sys2Proof.Machine
end

