-- ==== Sys2Proof/Machine/Ops.lean ====
section
/-! DEFINITION. The named operations every meaning is written with: reading and writing a field of the register file, the
retention of R79, sending, logging (R78, R438 to R443, R447), pins, sessions and stamps. -/

namespace Sys2Proof.Machine

open R

/-- The fields of the block an address lies in (R520). -/
def tableOf : Nat → List Field
  | 0 => tabSYS | 1 => tabPWR | 2 => tabTB | 3 => tabPE | 4 => tabLE | 5 => tabSL | 6 => tabFAB | 7 => tabPLC
  | 8 => tabMET | 9 => tabBIL | 10 => tabVS | 11 => tabTH | 12 => tabCS | 13 => tabLSW | 14 => tabCAN | 15 => tabKV
  | 16 => tabEVR | 17 => tabUPD | 18 => tabSAF | 19 => tabTMX
  | _ => []

/-- The fields of a block whose reset value is not 0. -/
def nonzeroOf : Nat → List Field
  | 0 => nzSYS | 1 => nzPWR | 2 => nzTB | 3 => nzPE | 4 => nzLE | 5 => nzSL | 6 => nzFAB | 7 => nzPLC
  | 8 => nzMET | 9 => nzBIL | 10 => nzVS | 11 => nzTH | 12 => nzCS | 13 => nzLSW | 14 => nzCAN | 15 => nzKV
  | 16 => nzEVR | 17 => nzUPD | 18 => nzSAF | 19 => nzTMX
  | _ => []

/-- The fields that have an instance in the word at address `a`. -/
def fieldsAt (a : Nat) : List Field := (tableOf (a / 0x10000)).filter (·.covers a)

/-- The reset word of an address (R13). -/
def resetWord (a : Nat) : Word :=
  ((nonzeroOf (a / 0x10000)).filter (·.covers a)).foldl (fun w f => w ||| BitVec.ofNat 32 (f.rst * 2 ^ f.lo)) 0

/-- A sparse list in canonical form: keys rising, no entry equal to what an unlisted key reads as. -/
def sparseGet {α : Type} (d : α) (k : Nat) : List (Nat × α) → α
  | [] => d
  | (a, v) :: t => if a = k then v else sparseGet d k t

/-- A list without the entries under a key. -/
def eraseKey {α : Type} (k : Nat) (l : List (Nat × α)) : List (Nat × α) := l.filter fun (p : Nat × α) => decide (p.1 ≠ k)

/-- Writes one key of a sparse list, keeping the canonical form: writing the value an unlisted key reads as removes it. (A list that is
not in the canonical form, which no run reaches, still reads the value written.) -/
def sparsePut {α : Type} [DecidableEq α] (d : α) (k : Nat) (v : α) : List (Nat × α) → List (Nat × α)
  | [] => if v = d then [] else [(k, v)]
  | (a, u) :: t =>
    if k < a then (if v = d then eraseKey k ((a, u) :: t) else (k, v) :: (a, u) :: t)
    else if k = a then (if v = d then eraseKey k t else (k, v) :: t)
    else (a, u) :: sparsePut d k v t

/-- The canonical form of a sparse list whose unlisted key `k` reads as `d k`. -/
def sparseWf {α : Type} [DecidableEq α] (d : Nat → α) : List (Nat × α) → Bool
  | [] => true
  | [(a, v)] => decide (v ≠ d a)
  | (a, v) :: (b, u) :: t => decide (v ≠ d a) && decide (a < b) && sparseWf d ((b, u) :: t)

/-- The canonical form of the flash (R471): addresses strictly rising, and no cell that reads the erased value (log 12). -/
def Memory.wf (m : List Host.Cell) : Bool := sparseWf (fun _ => 0xFF#8) m

/-- A cell of the flash reads: the listed byte, else the erased value. -/
def Memory.read (m : List Host.Cell) (a : Nat) : Byte := sparseGet (0xFF#8) a m

/-- A cell of the flash takes a byte. -/
def Memory.write (m : List Host.Cell) (a : Nat) (b : Byte) : List Host.Cell := sparsePut (0xFF#8) a b m

/-- Every cell of a 64 KiB sector takes the erased value. -/
def Memory.eraseSector (m : List Host.Cell) (k : Nat) : List Host.Cell := m.filter fun p => p.1 / 0x10000 != k

/-- The entry of a list under a key, if there is one. -/
def lookupKey {α : Type} (k : Nat) : List (Nat × α) → Option α
  | [] => none
  | (a, v) :: t => if a = k then some v else lookupKey k t

/-- What the register file reads at an address: the listed word, else the reset word. -/
def State.word (s : State) (a : Nat) : Word := sparseGet (resetWord a) a s.regs

/-- Writes one word of the register file. -/
def State.setWord (s : State) (a : Nat) (w : Word) : State :=
  { s with regs := sparsePut (resetWord a) a w s.regs }

/-- The value of instance `(i, j)` of a field. -/
def State.get (s : State) (f : Field) (i : Nat := 0) (j : Nat := 0) : Nat :=
  (s.word (f.at i j)).toNat / 2 ^ f.lo % 2 ^ f.w

/-- The word `old` with the field's bits replaced by the low bits of `v`. -/
def Field.merge (f : Field) (old : Word) (v : Nat) : Word :=
  (old &&& ~~~f.mask) ||| BitVec.ofNat 32 (v % 2 ^ f.w * 2 ^ f.lo)

/-- Sets instance `(i, j)` of a field, whatever its access code: the module's own write. An index that names no instance writes nothing. -/
def State.put (s : State) (f : Field) (v : Nat) (i : Nat := 0) (j : Nat := 0) : State :=
  if i < f.n1 ∧ j < f.n2 then s.setWord (f.at i j) (f.merge (s.word (f.at i j)) v) else s

/-- The signed reading of a field. -/
def State.geti (s : State) (f : Field) (i : Nat := 0) (j : Nat := 0) : Int := toSigned f.w (s.get f i j)

/-- Sets a field to the two's complement of an integer. -/
def State.puti (s : State) (f : Field) (v : Int) (i : Nat := 0) (j : Nat := 0) : State := s.put f (ofSigned f.w v) i j

/-- Sets a signed field, held at the nearest limit when the value does not fit. -/
def State.putSat (s : State) (f : Field) (v : Int) (i : Nat := 0) (j : Nat := 0) : State :=
  s.puti f (clampI (-(2 : Int) ^ (f.w - 1)) ((2 : Int) ^ (f.w - 1) - 1) v) i j

/-- Sets an unsigned field, held at its largest value when the value does not fit. -/
def State.putMax (s : State) (f : Field) (v : Nat) (i : Nat := 0) (j : Nat := 0) : State :=
  s.put f (min v (2 ^ f.w - 1)) i j

/-- Counts up a field that saturates. -/
def State.inc (s : State) (f : Field) (i : Nat := 0) (j : Nat := 0) (k : Nat := 1) : State :=
  s.put f (satInc f.w (s.get f i j) k) i j

/-- Sets a one-bit field. -/
def State.putb (s : State) (f : Field) (b : Bool) (i : Nat := 0) (j : Nat := 0) : State := s.put f (if b then 1 else 0) i j

/-- A one-bit field as a truth value. -/
def State.is (s : State) (f : Field) (i : Nat := 0) (j : Nat := 0) : Bool := s.get f i j == 1

/-- Applies `g` only where a condition holds. -/
def State.when (s : State) (c : Bool) (g : State → State) : State := if c then g s else s

/-- Applies `g` for every index below `n`, in rising order. -/
def State.each (s : State) (n : Nat) (g : Nat → State → State) : State := (List.range n).foldl (fun t i => g i t) s

/-- Applies `g` for every bit of a bit map that is set, in rising order. -/
def State.eachBit (s : State) (n m : Nat) (g : Nat → State → State) : State :=
  s.each n fun i t => if bit m i then g i t else t

/-! ### Quantities of two words -/

/-- The 64-bit quantity in two fields. -/
def State.get2 (s : State) (lo hi : Field) (i : Nat := 0) : Nat := s.get lo i + 2 ^ 32 * s.get hi i

/-- Sets the 64-bit quantity in two fields. -/
def State.put2 (s : State) (lo hi : Field) (v : Nat) (i : Nat := 0) : State :=
  (s.put lo (v % 2 ^ 32) i).put hi (v / 2 ^ 32) i

/-- The local angle stamp (R3). -/
def State.stamp (s : State) : Nat := s.get2 TB_STAMP_LO.STAMP TB_STAMP_HI.STAMP

/-- The keeper stamp (R96). -/
def State.keeper (s : State) : Nat := s.get2 TB_KEEP_LO.STAMP TB_KEEP_HI.STAMP

/-- The RTC in UTC seconds. -/
def State.rtc (s : State) : Nat := s.get SYS_RTC.UTC

/-- The module's serial number. -/
def State.serial (s : State) : Nat := s.get2 SYS_SERIAL_LO.SERIAL SYS_SERIAL_HI.SERIAL

/-! ### Domains, states and roles -/

/-- Domain Dd is powered and not held in reset. -/
def State.runs (s : State) (d : Nat) : Bool := bit (s.get PWR_DOM_STAT.ON) d && !bit (s.get PWR_DOM_STAT.IN_RST) d

/-- The module is in RUN (R57). -/
def State.inRun (s : State) : Bool := s.get PWR_STATE.STATE == 0

/-- A role is in the role set in force: 0 FRONT, 1 CABINET, 2 DISPENSER, 3 STORE. -/
def State.role (s : State) (r : Nat) : Bool := bit (s.get SYS_ROLE.ROLE_ACT) r

/-- Any phase is enabled. -/
def State.anyPhase (s : State) : Bool := (List.range 96).any fun n => s.is PE_PH_CFG.EN n

/-- The subsystems that run in a role set, in the bit order of `RDY` (the table "Subsystems by role" and R15, R16):
`opt` holds the two bits of `OPT`, `plc` whether the Powerline is configured. -/
def runningSet (role opt : Nat) (plc : Bool) : Nat :=
  let any := fun (m : Nat) => decide (Nat.land role m ≠ 0)
  let b := fun (c : Bool) (i : Nat) => if c then 2 ^ i else 0
  b true 0 + b (any 0xB) 1 + b (any 0xF) 2 + b true 3 + b true 4 + b plc 5
    + b (any 0xD || (any 0x2 && bit opt 0)) 6 + b (any 0x4 || (any 0x1 && bit opt 1)) 7 + b (any 0x4) 8
    + b true 9 + b (any 0x8) 10 + b (any 0xF) 11 + b true 12 + b true 13

/-- The subsystems that run now. -/
def State.running (s : State) : Nat :=
  runningSet (s.get SYS_ROLE.ROLE_ACT) (s.get SYS_ROLE.OPT) (s.is PLC_CTRL.EN)

/-- `REQ` holds the subsystems that run (R75). -/
def State.reqShow (s : State) : State := s.put SYS_READY.REQ s.running

/-- The bit of `RDY` of the block whose number is given; the blocks not listed serve every role. -/
def readyBitOf : Nat → Option Nat
  | 2 => some 0 | 3 => some 1 | 4 => some 2 | 6 => some 3 | 5 => some 4 | 7 => some 5 | 8 => some 6 | 9 => some 7
  | 10 => some 8 | 11 => some 9 | 12 => some 10 | 13 => some 11 | 15 => some 12 | 16 => some 13
  | _ => none

/-- A block is a subsystem that is Off in the role set in force (R16). DESIGN CHOICE (log 92): an Opt subsystem that nothing configures does
not run, and the model takes Metrology and Billing as Off then; not the Powerline, since `EN` of `PLC_CTRL` is what configures it (R15). -/
def State.offInRole (s : State) (blk : Nat) : Bool :=
  match readyBitOf blk with
  | some i => !bit s.running i && blk != 7
  | none => false

/-- Metrology runs: D2 serves and the role set has it (R15). -/
def State.metRuns (s : State) : Bool := s.runs 2 && bit s.running 6

/-- Billing runs: D2 serves and the role set has it (R15). Billing time in D2 serves every role (R16). -/
def State.bilRuns (s : State) : Bool := s.runs 2 && bit s.running 7

/-! ### Sending and reporting -/

/-- Sends one thing. -/
def State.emit (s : State) (k : Sent) (dst : Nat) (data : List Nat) : State := { s with out := ⟨k, dst, data⟩ :: s.out }

/-- Reports a status of R507 to a session. -/
def State.report (s : State) (sess code : Nat) : State := s.emit .status sess [code]

/-- Takes a free value of `w` bits (log 6). -/
def State.free (s : State) (w : Nat) : Nat × State :=
  ((Config.freeValue s.fresh).toNat % 2 ^ w, { s with fresh := s.fresh + 1 })

/-! ### Sessions and the seal -/

/-- The level of a session: 1 OBSERVE, 2 OPERATE, 3 ADMIN, 0 for none (R500). -/
def State.level (s : State) (sess : Nat) : Nat :=
  if sess < 8 ∧ s.get SYS_SESS.STATE sess = 2 then s.get SYS_SESS.LEVEL sess else 0

/-- The metrology seal is set (R275). -/
def State.isSealed (s : State) : Bool := s.is MET_SEAL.SEALED

/-- Whether a session may write a field, and the status of R507 where it may not (R10, R11, R503). -/
def State.mayWrite (s : State) (sess : Nat) (f : Field) : Nat :=
  match f.acc with
  | .rwa => if s.level sess = 3 then 0 else 2
  | .rws => if s.level sess = 3 then (if s.isSealed then 3 else 0) else 2
  | _ => if 2 ≤ s.level sess then 0 else 2

/-! ### The logs -/

/-- Severities of R439. -/
abbrev INFO : Nat := 1
/-- Severity 2. -/
abbrev NOTICE : Nat := 2
/-- Severity 3. -/
abbrev WARNING : Nat := 3
/-- Severity 4. -/
abbrev FAULT : Nat := 4
/-- Severity 5. -/
abbrev TRIP : Nat := 5
/-- Severity 6. -/
abbrev SAFETY : Nat := 6
/-- Severity 7: Moraine only. -/
abbrev LEGAL : Nat := 7

/-- The record of an event at the present instant (R438). -/
def State.mkRec (s : State) (code sev : Nat) (pay : List Nat) (stamp utc : Nat) : Rec :=
  { stamp, utc, code, sev, pay := pay
    src := code / 256 % 32 + (if s.is SYS_TIME_STAT.RTC_SET then 0 else 32) + (if stamp = 0 then 64 else 0) }

/-- The least severity of a list of records. -/
def leastSev : List Rec → Nat
  | [] => 8
  | r :: t => min r.sev (leastSev t)

/-- Drops the oldest record of the lowest severity present (R78, R441). -/
def dropLowest (l : List Rec) : List Rec := l.eraseP fun r => r.sev == leastSev l

/-- The intake queue takes a record (R441): 256 places, the oldest of the lowest severity dropped to make room. -/
def Evr.intake (e : Evr) (r : Rec) : Evr :=
  if e.queue.length < 256 then { e with queue := e.queue ++ [r] }
  else { e with queue := dropLowest e.queue ++ [r], dropped := e.dropped + 1 }

/-- The hold of R78 takes a record: 64 places. -/
def Evr.hold78 (e : Evr) (r : Rec) : Evr :=
  let h := { r with src := r.src + 128 }
  if e.hold.length < 64 then { e with hold := e.hold ++ [h] }
  else { e with hold := dropLowest e.hold ++ [h], holdDropped := e.holdDropped + 1 }

/-- A severity is recorded in the operational log (R440). `MIN_SEV` 0x7 is taken as 0x6. -/
def State.sevKept (s : State) (sev : Nat) : Bool := decide (min (s.get EVR_CFG.MIN_SEV) 6 ≤ sev)

/-- An operational record arrives (R440, R441): below `MIN_SEV` it is neither recorded nor counted; before the Event
Recorder is ready it is held (R78). -/
def State.arrive (s : State) (r : Rec) : State :=
  if !s.sevKept r.sev then s
  else if s.evr.up then
    let t := { s with evr := s.evr.intake r }
    if s.evr.queue.length < 256 then t else t.inc EVR_CNT.DROP
  else { s with evr := s.evr.hold78 r }

/-- The fill of the Moraine log as `EVR_STAT` shows it (R447). -/
def State.moraineFill (s : State) : State :=
  let n := s.evr.mor.length
  ((s.put EVR_STAT.MOR_N n).putb EVR_STAT.MOR_RES (7936 ≤ n)).putb EVR_STAT.MOR_FULL (8192 ≤ n)

/-- Event 0x1003, once at the entry to `MOR_WARN` (R447); below the level the state is left. -/
def State.moraineWarn (s : State) : State :=
  let n := s.evr.mor.length
  if n < s.get EVR_CFG.MOR_WARN then { s with evr := { s.evr with warned := false } }
  else if s.evr.warned then s
  else { s with evr := { s.evr with warned := true } }.arrive (s.mkRec 0x1003 WARNING (leBytes 2 n) s.keeper s.rtc)

/-- A LEGAL record goes to the store manager on its own path and is written to the Moraine log (R439, R441, R447); where the
log is full it is counted as lost. Event 0x1003 is logged at the entry to `MOR_WARN`, event 0x1005 at the entry to full. -/
def State.moraine (s : State) (r : Rec) : State :=
  if s.evr.mor.length < 8192 then
    let q := s.get EVR_MOR_SEQ.SEQ
    let s1 := ({ s with evr := { s.evr with mor := s.evr.mor ++ [(⟨q, r⟩ : Held)] } }.put EVR_MOR_SEQ.SEQ (q + 1)).moraineFill
    let n := s1.evr.mor.length
    s1.moraineWarn.when (n == 8192 && !s.evr.fullNoted) fun t =>
      { t with evr := { t.evr with fullNoted := true } }.arrive (t.mkRec 0x1005 FAULT [] t.keeper t.rtc)
  else (s.inc EVR_MOR_LOST.MOR_LOST).put EVR_MOR_LOST.LAST_CODE r.code

/-- Logs an event with a stamp and UTC seconds that the raising chapter states. -/
def State.logAt (s : State) (stamp utc code sev : Nat) (pay : List Nat) : State :=
  let r := s.mkRec code sev pay stamp utc
  if sev = 7 then s.moraine r else s.arrive r

/-- Logs an event at the present instant (R438, R440). -/
def State.log (s : State) (code sev : Nat) (pay : List Nat := []) : State := s.logAt s.keeper s.rtc code sev pay

/-- The held number and the lowest held sequence number of the operational log, as the registers show them. -/
def State.opFill (s : State) : State :=
  (s.put EVR_STAT.OP_N s.evr.op.length).put EVR_OP_FIRST.FIRST (match s.evr.op with | [] => 0 | h :: _ => h.seq)

/-- The store manager writes one operational record (R439, R443). -/
def State.store1 (s : State) (r : Rec) : State :=
  let q := s.get EVR_OP_SEQ.SEQ
  let wr := fun (l : List Held) =>
    ({ s with evr := { s.evr with op := l ++ [(⟨q, r⟩ : Held)] } }.put EVR_OP_SEQ.SEQ (q + 1)).opFill
  if s.evr.op.length < 16384 then wr s.evr.op
  else if s.evr.op.any fun h => decide (h.rcd.sev ≤ r.sev) then
    wr (s.evr.op.eraseP fun h => decide (h.rcd.sev ≤ r.sev))
  else { s with evr := { s.evr with discNew := s.evr.discNew + 1 } }.inc EVR_CNT.DISC

/-- The store manager writes one operational record and, where records have been discarded, event 0x1001 with their number,
at most once per second (R443). -/
def State.storeOp (s : State) (r : Rec) : State :=
  let s1 := s.store1 r
  if s1.evr.discNew = 0 ∨ s1.evr.discAt = some s.rtc then s1
  else
    let s2 := { s1 with evr := { s1.evr with discNew := 0, discAt := some s.rtc } }
    s2.when (s.sevKept WARNING) fun t => t.store1 (s1.mkRec 0x1001 WARNING (leBytes 4 s1.evr.discNew) s1.keeper s1.rtc)

/-- The hold of R78 is emptied, and the log accepts records from then on. -/
def Evr.release (e : Evr) : Evr := { e with hold := [], holdDropped := 0, up := true }

/-- The records of R78 enter the intake queue once the log can accept them, and one event 0x000A stands for those dropped. -/
def State.releaseHold (s : State) : State :=
  let l := s.evr.hold
  let n := s.evr.holdDropped
  let s1 := { s with evr := s.evr.release }
  let s2 := l.foldl (fun t r => t.arrive r) s1
  s2.when (n != 0) fun t => t.log 0x000A WARNING (leBytes 2 n)

/-- The store manager writes what it has not yet written, on the hold-up store (R442): the records of R78 where they are still held, the queue and
event 0x1006 for what it has dropped, then event 0x0103. -/
def State.storeAll (s : State) : State :=
  let s1 := s.when (!s.evr.up) State.releaseHold
  let s2 := s1.evr.queue.foldl (fun (t : State) r => t.storeOp r) { s1 with evr := { s1.evr with queue := [], dropped := 0 } }
  let put := fun (t : State) (code : Nat) (pay : List Nat) => t.when (t.sevKept WARNING) fun u => u.storeOp (u.mkRec code WARNING pay u.keeper u.rtc)
  put (s2.when (s1.evr.dropped != 0) fun t => put t 0x1006 (leBytes 2 (min s1.evr.dropped 0xFFFF))) 0x0103 []

/-- A request that would write a Moraine record is refused in the reserve, and logged (R447). -/
def State.moraineReserve (s : State) : Bool := decide (7936 ≤ s.evr.mor.length)

/-- Event 0x1004: a request refused for the Moraine reserve, with the register address (R447). -/
def State.reserveRefused (s : State) (addr : Nat) : State := s.log 0x1004 FAULT (leBytes 4 addr)

/-! ### Retention (R79) -/

/-- The domain whose reset returns the class V fields of a word, or 12 for the Phase Engine's group and common registers,
which both D5 and D6 hold. `SYS_READY` is kept by D1, the keeper by D2, the aux channels by D10. -/
def domainOf (a : Nat) : Nat :=
  match a / 0x10000 with
  | 0 => if a = 0x30 then 1 else 3
  | 1 => if a = 0x10040 ∨ 0x10100 ≤ a then 10 else 1
  | 2 => if a = 0x20080 ∨ a = 0x20084 then 2 else 4
  | 3 => if a < 0x31000 then 12 else if a < 0x31000 + 0x20 * 48 then 5 else 6
  | 4 => 7 | 5 => 3 | 6 => 8 | 7 => 9 | 8 => 2 | 9 => 2 | 10 => 9 | 11 => 10 | 12 => 9 | 13 => 10 | 14 => 9
  | 15 => 11 | 16 => 3 | 17 => 3 | 18 => 1
  | _ => 3

/-- A word is in the scope of a reset of the domains in a bit map. -/
def inScope (doms a : Nat) : Bool :=
  match domainOf a with
  | 12 => bit doms 5 && bit doms 6
  | d => bit doms d

/-- The bits of a word whose class is kept. -/
def keepMask (keep : Cls → Bool) (a : Nat) : Word :=
  (fieldsAt a).foldl (fun m f => if keep f.cls then m ||| f.mask else m) 0

/-- What a word holds after a reset that keeps some classes (R79). -/
def retainWord (keep : Cls → Bool) (a : Nat) (w : Word) : Word :=
  (w &&& keepMask keep a) ||| (resetWord a &&& ~~~keepMask keep a)

/-- The register file after a reset of the domains in a bit map, with the classes that are kept (R79). -/
def State.retain (s : State) (doms : Nat) (keep : Cls → Bool) : State :=
  s.regs.foldl (fun t p => if inScope doms p.1 then t.setWord p.1 (retainWord keep p.1 p.2) else t) s

/-! ### A session's own write -/

/-- The domain that holds a word runs; the words that D5 and D6 share are held while either runs. -/
def State.wordRuns (s : State) (a : Nat) : Bool :=
  match domainOf a with
  | 12 => s.runs 5 || s.runs 6
  | d => s.runs d

/-- The status of R507 that keeps a session from writing any field of a word: 4 where the subsystem is Off in the role set (R16),
5 where the domain is off or in reset, else 0. -/
def State.wordStatus (s : State) (a : Nat) : Nat := if s.offInRole (a / 0x10000) then 4 else if s.wordRuns a then 0 else 5

/-- The status of R507 with which a session's write of a field is refused, 0 where it is not: 8 is the reserve of R447, which refuses
the writes of sealed fields. -/
def State.writeStatus (s : State) (sess : Nat) (f : Field) (i : Nat := 0) : Nat :=
  match s.wordStatus (f.at i 0) with
  | 0 => match s.mayWrite sess f with
    | 0 => if f.acc = .rws ∧ s.moraineReserve then 8 else 0
    | c => c
  | c => c

/-- Runs a command's write where the session may write the field; else reports the refusal (R11, R16, R447, R507). -/
def State.guarded (s : State) (sess : Nat) (f : Field) (g : State → State) (i : Nat := 0) : State :=
  match s.writeStatus sess f i with
  | 0 => g s
  | 8 => (s.report sess 2).reserveRefused (f.at i 0)
  | c => s.report sess c

/-! ### Pins -/

/-- Every gate pin low (R42). -/
def State.gatesLow (s : State) : State := { s with pins := { s.pins with gateH := 0, gateL := 0 } }

/-- GDEN0, GDEN1 and every AUXa_DRV low too (R454). -/
def State.drivesLow (s : State) : State :=
  { s with pins := { s.pins with gateH := 0, gateL := 0, gden := 0, auxDrv := 0 } }

end Sys2Proof.Machine
end

