-- ==== Sys2Proof/Machine/PhaseOps.lean ====
section
/-! DEFINITION. The Phase Engine's shared operations (spec/06_phase_engine.md): phase and group states, trips and faults, the
ceilings of R114, and GDEN (R32). Currents are integers in µA. -/

namespace Sys2Proof.Machine

open R

/-! ### The local angle (R84, R98, R99) -/

/-- The Timebase has left OFF and ACQUIRE. -/
def State.tbRuns (s : State) : Bool := s.runs 4 && decide (2 ≤ s.get TB_STAT.STATE)

/-- The local angle in 2^-28 au. -/
def State.angle (s : State) : Nat := s.stamp % 2 ^ 24 * 2 ^ 28 + s.tb.frac

/-- A quantity that runs round 2^52 by `step` in a base period has reached a value in this one. -/
def reached (x v step : Nat) : Bool := decide ((x + 2 ^ 52 - v % 2 ^ 52) % 2 ^ 52 < max 1 step)

/-- The local angle has reached `a` au in this base period. -/
def State.atAngle (s : State) (a : Nat) : Bool := s.tbRuns && reached s.angle (a * 2 ^ 28) (s.get TB_INC.INC)

/-- The local angle has reached a carrier boundary with an offset of `o` / 2^20 carrier at `n` carriers a cycle, exactly (R98, R99). -/
def State.atCarrier (s : State) (n o : Nat) : Bool := s.tbRuns && reached (s.angle * n) (o * 2 ^ 32) (s.get TB_INC.INC * n)

/-- The local angle has reached strobe `i` of `r` in the cycle (R99). -/
def State.atStrobe (s : State) (i r : Nat) : Bool :=
  s.tbRuns && decide (i < r) && reached s.angle ((i * 2 ^ 52 + r - 1) / r) (s.get TB_INC.INC)

/-- A cycle renumbering falls at this instant (R92, R101). -/
def State.renumDue (s : State) : Bool := s.atAngle 0 && s.tb.renum.isSome

/-- `NCAR`, held at the nearest limit (R98). -/
def State.ncar (s : State) (g : Nat) : Nat := clampN 320 5000 (s.get TB_GRP_CAR.NCAR g)

/-- A change of a group's `NCAR` falls at this instant (R98, R101). -/
def State.ncarDue (s : State) (g : Nat) : Bool := s.atAngle 0 && s.get TB_GRP_CAR.NCAR_ACT g != s.ncar g

/-- A group is at a carrier boundary, and what R101 puts before an offset commit there is done. -/
def State.atBoundary (s : State) (g : Nat) : Bool :=
  s.atCarrier (s.get TB_GRP_CAR.NCAR_ACT g) 0 && !s.renumDue && !s.ncarDue g

/-- The automatic commit of a group's re-spacing falls at this instant (R119). -/
def State.respaceDue (s : State) (g : Nat) : Bool := s.atAngle 0 && bit s.tb.respace g

/-- A group's pending commit is due: its carrier boundary, at or after an armed stamp. An automatic commit there comes first (R100, R133). -/
def State.ofsDue (s : State) (g : Nat) : Bool :=
  s.atBoundary g && bit s.tb.left g && !s.respaceDue g && (match s.tb.commit with
    | none => false
    | some none => true
    | some (some c) => decide (c ≤ s.stamp))

/-- The phase's hidden part. -/
def State.ph (s : State) (n : Nat) : PhX := sparseGet {} n s.phx

/-- Sets the phase's hidden part. -/
def State.setPh (s : State) (n : Nat) (x : PhX) : State := { s with phx := sparsePut {} n x s.phx }

/-- The group's hidden part. -/
def State.grp (s : State) (g : Nat) : GrpX := sparseGet {} g s.grpx

/-- What stays when a group enters RUN: what the last strobe published, and the truncated pulses that the next strobe and the end of their
cycle still report (R117, R122). The rest starts anew. -/
def GrpX.started (x : GrpX) : GrpX :=
  { changed := true, pub := x.pub, trunc := x.trunc, truncN := x.truncN, truncCyc := x.truncCyc }

/-- Sets the group's hidden part. -/
def State.setGrp (s : State) (g : Nat) (x : GrpX) : State := { s with grpx := sparsePut {} g x s.grpx }

/-- The phases assigned to a group (R105). -/
def State.phasesOf (s : State) (g : Nat) : List Nat := (List.range 96).filter fun n => s.get PE_PH_CFG.GRP n == g

/-- The phases of a group in a state of R130: 0 OFF, 1 WAIT, 2 ACTIVE, 3 TRIPPED. -/
def State.phasesIn (s : State) (g st : Nat) : List Nat := (s.phasesOf g).filter fun n => s.get PE_PH_STAT.STATE n == st

/-- The connector port a phase is on: PH0 carries PH00 to PH47, PH1 the others. -/
def portOf (n : Nat) : Nat := n / 48

/-- Every aux channel that supplies the gate drivers of a port has `PGOOD` = 1 (R67). -/
def State.gateSupply (s : State) (c : Nat) : Bool :=
  (List.range 6).all fun a => !bit (s.get PWR_AUX_CTRL.GD_PH a) c || s.is PWR_AUX_STAT.PGOOD a

/-- GDEN0 and GDEN1 are high exactly while the conditions of R32 hold. -/
def State.gden (s : State) : State :=
  let ok := fun c => s.boot.kind == 0 && !s.boot.failing && !s.is SAF_STAT.ACTIVE && s.inRun && s.gateSupply c
  { s with pins := { s.pins with gden := (if ok 0 then 1 else 0) + (if ok 1 then 2 else 0) } }

/-- Puts a phase into a state and shows it in `ACT`, `TRIP` and `N_ACT_ALL`. -/
def State.phaseState (s : State) (n st : Nat) : State :=
  let w := n / 32
  let upd := fun (m : Nat) (c : Bool) => if c then setBit m (n % 32) else clrBit m (n % 32)
  let s1 := s.put PE_PH_STAT.STATE st n
  let s2 := s1.put PE_PH_ACT.ACT (upd (s1.get PE_PH_ACT.ACT w) (st == 2)) w
  let s3 := s2.put PE_PH_TRIP.TRIP (upd (s2.get PE_PH_TRIP.TRIP w) (st == 3)) w
  s3.put PE_STAT.N_ACT_ALL (popcount 32 (s3.get PE_PH_ACT.ACT 0) + popcount 32 (s3.get PE_PH_ACT.ACT 1)
    + popcount 32 (s3.get PE_PH_ACT.ACT 2))

/-- Both gates of a phase low. -/
def State.phaseGatesLow (s : State) (n : Nat) : State :=
  { s with pins := { s.pins with gateH := clrBit s.pins.gateH n, gateL := clrBit s.pins.gateL n } }

/-- All gates of a group low. -/
def State.groupGatesLow (s : State) (g : Nat) : State := (s.phasesOf g).foldl State.phaseGatesLow s

/-- A group that leaves RUN and RAMPDOWN: no overshoot state, no clamped demand, and no recomputation or re-spacing that waits (R114, R121,
R126). -/
def State.groupRest (s : State) (g : Nat) : State :=
  let s1 := s.setGrp g { s.grp g with changed := false, lost := false, turning := false }
  let s2 := { s1 with tb := { s1.tb with respace := clrBit s1.tb.respace g, respWait := clrBit s1.tb.respWait g } }
  (s2.put PE_GRP_STAT.OVS_STATE 0 g).put PE_GRP_STAT.LIMITING 0 g

/-- Puts a group into a state of R132 and shows it in `PE_STAT`. -/
def State.groupState (s : State) (g st : Nat) : State :=
  let upd := fun (m : Nat) (c : Bool) => if c then setBit m g else clrBit m g
  let s1 := s.put PE_GRP_STAT.STATE st g
  let s2 := s1.put PE_STAT.GRP_RUN (upd (s1.get PE_STAT.GRP_RUN) (st == 1 || st == 2))
  let s3 := s2.put PE_STAT.GRP_FAULT (upd (s2.get PE_STAT.GRP_FAULT) (st == 3))
  if st = 1 ∨ st = 2 then s3 else s3.groupRest g

/-- A group is in RUN or RAMPDOWN. -/
def State.groupRuns (s : State) (g : Nat) : Bool := s.get PE_GRP_STAT.STATE g == 1 || s.get PE_GRP_STAT.STATE g == 2

/-- `N_CFG`: the phases of the group with `EN` = 1. -/
def State.groupCfg (s : State) (g : Nat) : State :=
  s.put PE_GRP_STAT.N_CFG ((s.phasesOf g).filter fun n => s.is PE_PH_CFG.EN n).length g

/-- Disables one phase at once: gates low, OFF, `EN` cleared. -/
def State.phaseOff (s : State) (n : Nat) : State := ((s.phaseGatesLow n).phaseState n 0).put PE_PH_CFG.EN 0 n

/-- A phase is disabled because Safe-Off is active or the module leaves RUN; a fault found in the same moment is still latched (R133). -/
def State.phaseStop (s : State) (n : Nat) : State :=
  let s1 := s.setPh n { s.ph n with off := if s.get PE_PH_STAT.STATE n == 0 then (s.ph n).off else some s.stamp }
  s1.phaseOff n

/-- The group leaves RUN or RAMPDOWN for IDLE because Safe-Off is active or the module leaves RUN (R132). A reset that takes the module out of RUN
logs 0x0302 beside 0x0001 (R82; DESIGN CHOICE, log 145). -/
def State.groupStop (s : State) (g : Nat) : State :=
  if s.groupRuns g then
    (((((s.phasesOf g).foldl State.phaseStop s).put PE_GRP_CTRL.EN 0 g).groupState g 0).groupCfg g).log 0x0302 INFO [g]
  else s

/-- Every phase of the module is disabled and every running group returns to IDLE; gates low (R57, R132). -/
def State.stopPhases (s : State) : State :=
  let s1 := s.each 8 fun g t => t.groupStop g
  let s2 := s1.each 96 fun n t => if t.is PE_PH_CFG.EN n || t.get PE_PH_STAT.STATE n == 2 then t.phaseStop n else t
  (s2.each 8 fun g t => t.groupCfg g).gatesLow

/-- Every group is IDLE, with `EN` cleared: what a reset of D4, D5 or D6 leaves (R135). -/
def State.groupsIdle (s : State) : State :=
  s.each 8 fun g t => if t.get PE_GRP_STAT.STATE g = 0 then t else (t.put PE_GRP_CTRL.EN 0 g).groupState g 0

/-- The group enters FAULT: gates low, its active phases to WAIT, the cause, the event (R127, R132). R132 names 0x0330 and 0x0322 without
saying which follows a driver fault: 0x0330, since 0x0322 is the braking timeout's (DEDUCED, log 104). -/
def State.groupFault (s : State) (g cause : Nat) : State :=
  if s.groupRuns g then
    let s1 := s.groupGatesLow g
    let s2 := (s.phasesIn g 2).foldl (fun t n => t.phaseState n 1) s1
    ((s2.groupState g 3).put PE_GRP_STAT.FLT_CAUSE cause g).log (if cause = 2 then 0x0322 else 0x0330) TRIP [g]
  else s

/-- The number of active phases of a group has changed; it is recomputed at the next group carrier boundary (R126). -/
def State.groupChanged (s : State) (g : Nat) (loss : Bool) : State :=
  s.setGrp g { s.grp g with changed := true, lost := (s.grp g).lost || loss }

/-- A phase enters TRIPPED with a code; where it was ACTIVE, the loss is reported (R126 step 1). -/
def State.phaseTrip (s : State) (n code : Nat) : State :=
  let g := s.get PE_PH_CFG.GRP n
  let wasActive := s.get PE_PH_STAT.STATE n == 2
  let s1 := (((s.phaseGatesLow n).phaseState n 3).put PE_PH_STAT.FLT_CODE code n).inc PE_PH_CNT.TRIPS n
  if wasActive then
    ((s1.put PE_GRP_STAT.PHLOSS_SEEN 1 g).groupChanged g true).log 0x0310 WARNING [n, code, g, (s1.phasesIn g 2).length]
  else s1

/-- The group's carrier-average current in µA: the sum over its active phases. -/
def State.groupCurrent (s : State) (g : Nat) : Int :=
  (s.phasesIn g 2).foldl (fun a n => a + s.geti PE_PH_STAT.I_AVG n * 10000) 0

/-- Safe-Off or the module's leaving RUN has put the phase OFF at this stamp: a fault detected in the same moment is still latched (R133). -/
def State.justOff (s : State) (n : Nat) : Bool := s.get PE_PH_STAT.STATE n == 0 && (s.ph n).off == some s.stamp

/-- The counts of R124 of a group's phases return to 0 as their checks are suspended (R125). -/
def State.checksClear (s : State) (g : Nat) : State :=
  (s.phasesOf g).foldl (fun t n => t.setPh n { t.ph n with open4 := 0, range := 0, fall := 0, stuck := 0 }) s

/-- The group's current is within ±2 % of `I_GRP_MAX` (R112, R132). -/
def State.groupNearZero (s : State) (g : Nat) : Bool :=
  decide ((s.groupCurrent g).natAbs * 50 ≤ s.get PE_GRP_RATING.I_GRP_MAX g * 1000000)

/-- P_allow of R114 in kW. -/
def State.pAllow (s : State) (g : Nat) : Nat :=
  s.get PE_GRP_FLOOR.P_FLOOR g + (if s.is PE_GRP_LEASE.LAPSED g then 0 else s.get PE_GRP_LEASE.P_LEASE g)

/-- The four terms of the forward ceiling of R114 in µA, in the order of `CAP_SRC`; none is no limit. -/
def State.capTerms (s : State) (g n : Nat) : List (Option Nat) :=
  let v := max (s.get PE_GRP_MEAS.V_GRP g) (10 * max 1 (s.get PE_GRP_FLOOR.V_FLOOR g))
  let m := clampN 2 100 (s.get PE_GRP_CAP.CAP_MARGIN g)
  let th := s.get PE_GRP_THERM.I_THERM g
  [some (s.get PE_GRP_RATING.I_GRP_MAX g * 1000000),
   some (n * s.get PE_GRP_RATING.I_PH_MAX g * 10000),
   if s.is PE_GRP_CTRL.LED_EN g then some (s.pAllow g * (1000 - m) * 10000000 / v) else none,
   if th = 0xFFFF then none else some (th * 1000000)]

/-- The smallest term and its place, the lower place where two are equal (R114). -/
def smallest : List (Option Nat) → Nat → Option (Nat × Nat)
  | [], _ => none
  | none :: t, i => smallest t (i + 1)
  | some v :: t, i =>
    match smallest t (i + 1) with
    | some (w, j) => if w < v then some (w, j) else some (v, i)
    | none => some (v, i)

/-- The forward ceiling in µA and its source (R114). -/
def State.capOf (s : State) (g n : Nat) : Nat × Nat := (smallest (s.capTerms g n) 0).getD (0, 0)

/-- The reverse ceiling in µA: as the forward one without the ledger term (R114). -/
def State.revOf (s : State) (g n : Nat) : Nat :=
  match s.capTerms g n with
  | [a, b, _, d] => ((smallest [a, b, d] 0).getD (0, 0)).1
  | _ => 0

/-- N of R114: the active phases while the group runs, else its phases in WAIT. -/
def State.capN (s : State) (g : Nat) : Nat :=
  if s.groupRuns g then s.get PE_GRP_STAT.N_ACT g else (s.phasesIn g 1).length

/-- The carrier period of a group in ps at the present f_loc (R98). -/
def State.carrierPs (s : State) (g : Nat) : Nat :=
  10 ^ 23 / (max 1 (s.get TB_GRP_CAR.NCAR_ACT g) * max 1 s.tb.floc)

/-- The Share Ledger runs: its domain is up and it is ready or starting. -/
def State.slRuns (s : State) : Bool := s.runs 3 && bit s.running 4

/-- The module's part (R207): 1 holder, 2 viewer, 0 none. -/
def State.slPart (s : State) : Nat := if s.role 1 || s.role 3 then 1 else if s.role 2 then 2 else 0

/-- The forward groups of R205: a holder's groups with a rating, whatever `LED_EN` reads, and those whose draw the ledger counts in another
module (R207: not those of a front end, whose `LED_EN` is 0). -/
def State.fwdGroups (s : State) : List Nat :=
  (List.range 8).filter fun g => s.get PE_GRP_RATING.I_GRP_MAX g != 0 && (s.is PE_GRP_CTRL.LED_EN g || s.slPart == 1)

/-- `FLOOR` is the sum of `P_FLOOR` over the module's groups where the role set makes the module a holder; else it has no floor (R17, R205, R207). -/
def State.floorShow (s : State) : State :=
  s.putMax SL_FLOOR.FLOOR (if s.slPart = 1 then (List.range 8).foldl (fun a g => a + s.get PE_GRP_FLOOR.P_FLOOR g) 0 else 0)

/-- What `SL_STAT` and `SL_LEASE` show of the groups' leases. -/
def State.slSync (s : State) : State :=
  let lapsed := s.fwdGroups.all fun g => s.is PE_GRP_LEASE.LAPSED g
  let s1 := s.putb SL_STAT.LAPSED lapsed
  let s2 := s1.put SL_LEASE.EXP_HC (s.fwdGroups.foldl (fun m g => max m (s.get PE_GRP_LEASE.EXP_HC g)) 0)
  if lapsed then s2.put SL_LEASE.LEASE 0 else s2

/-- A lease is written to a group (R115). -/
def State.leaseWrite (s : State) (g kw hc : Nat) : State :=
  ((s.put PE_GRP_LEASE.P_LEASE kw g).put PE_GRP_LEASE.EXP_HC (clampN 1 32 hc) g).put PE_GRP_LEASE.LAPSED 0 g

/-- A reset of D3 lapses every lease at once (R115). -/
def State.leasesLapse (s : State) : State :=
  (s.each 8 fun g t => (t.put PE_GRP_LEASE.EXP_HC 0 g).put PE_GRP_LEASE.LAPSED 1 g).slSync

end Sys2Proof.Machine
end

