-- ==== Sys2Proof/Machine/LoopOps.lean ====
section
/-! DEFINITION. The Loop Engine's shared operations (spec/07_loop_engine.md): sources, consumers and limits, the reference
generator, gain against error, scheduling, the injectors and one update of a loop. All arithmetic is binary32 (R145). -/

namespace Sys2Proof.Machine

open R

/-- The loop's hidden part. -/
def State.lx (s : State) (l : Nat) : LoopX := sparseGet {} l s.le.loops

/-- Sets the loop's hidden part. -/
def State.setLx (s : State) (l : Nat) (x : LoopX) : State := { s with le := { s.le with loops := sparsePut {} l x s.le.loops } }

/-- The injector's hidden part. -/
def State.injx (s : State) (j : Nat) : InjX := sparseGet {} j s.le.inj

/-- Sets the injector's hidden part. -/
def State.setInjx (s : State) (j : Nat) (x : InjX) : State := { s with le := { s.le with inj := sparsePut {} j x s.le.inj } }

/-- The aux channel's hidden part. -/
def State.aux (s : State) (a : Nat) : AuxX := sparseGet {} a s.auxx

/-- Sets the aux channel's hidden part. -/
def State.setAux (s : State) (a : Nat) (x : AuxX) : State := { s with auxx := sparsePut {} a x s.auxx }

/-- The setpoint of an aux channel that is in use, in 1.25 V / 4,096 (R66). -/
def State.auxSetpoint (s : State) (a : Nat) : Nat :=
  match (s.aux a).sel with
  | 0 => s.get PWR_AUX_SETPT01.SP0 a
  | 1 => s.get PWR_AUX_SETPT01.SP1 a
  | 2 => s.get PWR_AUX_SETPT23.SP2 a
  | _ => s.get PWR_AUX_SETPT23.SP3 a

/-! ### Aux channels: what the loop that regulates them and their periods need (R60 to R63) -/

/-- `MODE` of an aux channel: 0 off, 1 soft start, 2 regulating, 3 burst sleep, 4 fallback, 5 braking, 6 thermal shutdown, 7
stopped on feedback fault. -/
def State.auxMode (s : State) (a : Nat) : Nat := s.get PWR_AUX_STAT.MODE a

/-- The channel drives its stage: its domain D10 runs (R51), and its mode is one that switches. -/
def State.auxRuns (s : State) (a : Nat) : Bool := s.runs 10 && decide (1 ≤ s.auxMode a) && decide (s.auxMode a ≤ 5)

/-- The channel uses fallback regulation: no loop is named, D7 does not run, or the loop is in HOLD (R61, R155). -/
def State.auxFallback (s : State) (a : Nat) : Bool :=
  let l := s.get PWR_AUX_CTRL.LOOP a
  decide (64 ≤ l) || !s.runs 7 || s.get LE_L_STAT.STATE l == 4

/-- The mode of a channel that regulates (R61). -/
def State.auxRegulating (s : State) (a : Nat) : Nat := if s.auxFallback a then 4 else 2

/-- The reference r of a channel in 1.25 V / 4,096 (R61, R66): that of its loop's generator, in fallback the channel's own. -/
def State.auxRef (s : State) (a : Nat) : Nat :=
  if s.auxFallback a then (s.aux a).ref
  else ((fToInt (BitVec.ofNat 32 (s.get LE_L_R.R (s.get PWR_AUX_CTRL.LOOP a))) 32768).getD 0).toNat / 10

/-- A channel leaves its loop (R61): the reference goes on from where it stands (R66). -/
def State.auxLeave (s : State) (a : Nat) : State :=
  if s.auxRuns a && !s.auxFallback a then
    let s1 := s.setAux a { s.aux a with ref := s.auxRef a }
    if s.auxMode a = 2 ∨ s.auxMode a = 3 then s1.put PWR_AUX_STAT.MODE 4 a else s1
  else s

/-- A channel in fallback whose loop regulates again (R61, R162). -/
def State.auxJoin (s : State) (a : Nat) : State :=
  if s.auxMode a = 4 ∧ !s.auxFallback a then s.put PWR_AUX_STAT.MODE 2 a else s

/-- Runs an operation on every aux channel that names a loop. -/
def State.auxOf (s : State) (l : Nat) (g : Nat → State → State) : State :=
  s.each 6 fun a t => if t.get PWR_AUX_CTRL.LOOP a == l then g a t else t

/-- The frequency `PWM_F` selects in Hz; other values are taken as 0x3. -/
def pwmHz : Nat → Nat
  | 0 => 50 | 1 => 100 | 2 => 200 | 4 => 1000 | 5 => 2000 | _ => 500

/-- A loop delivers its on-fraction to a load switch, which applies it while ON (R388): below 50 µs × `PWM_F` as off, above
1 − 50 µs × `PWM_F` as fully on. It is kept for the next time the channel enters ON. While D10 is in reset or a Freeze record waits the
channel stays fully on (R396). -/
def State.lswFraction (s : State) (n : Nat) (u : Word) : State :=
  if s.get LSW_CH_STAT.STATE n = 1 && s.runs 10 && !s.is SAF_STAT.FRZ then
    let f := (fToInt (fClamp 0#32 fOne u) 1000).getD 0 |>.toNat
    let hz := (pwmHz (s.get LSW_CH_CFG.PWM_F n))
    let v := if f * 20 < hz then 0 else if 20000 < 20 * f + hz then 1000 else f
    { s.put LSW_CH_STAT.FRAC v n with lsw := { s.lsw with frac := sparsePut 0 n v s.lsw.frac } }
  else s

/-- A binary32 field. -/
def State.fl (s : State) (f : Field) (i : Nat := 0) (j : Nat := 0) : Word := BitVec.ofNat 32 (s.get f i j)

/-- Sets a binary32 field. -/
def State.putf (s : State) (f : Field) (w : Word) (i : Nat := 0) (j : Nat := 0) : State := s.put f w.toNat i j

/-- The number of strobes in a cycle for an encoding of `SRATE` (R139). -/
def srateOf (c : Nat) : Nat := 512 * 2 ^ c

/-- S in force. -/
def State.sRate (s : State) : Nat := srateOf (s.get LE_CTRL.SRATE_ACT)

/-- K(S) of R140. -/
def capacityOf (sr : Nat) : Nat := min 64 (8000000 / (66 * sr))

/-- The loop is not OFF. -/
def State.loopOn (s : State) (l : Nat) : Bool := s.get LE_L_STAT.STATE l != 0

/-- The loop is due at strobe `i` (R140). -/
def State.loopDue (s : State) (l i : Nat) : Bool :=
  let d := 2 ^ s.get LE_L_CTRL.DIV l
  i % d == s.get LE_L_CTRL.PHS l % d

/-- How many of the loops of a list are due at strobe `i`. -/
def State.loadAt (s : State) (ls : List Nat) (i : Nat) : Nat := (ls.filter fun l => s.loopDue l i).length

/-- The loops that are not OFF. -/
def State.loopsOn (s : State) : List Nat := (List.range 64).filter s.loopOn

/-- The first strobe at which the loops of a list exceed the capacity under S (R141). -/
def State.overBudget (s : State) (ls : List Nat) (sr : Nat) : Option Nat :=
  (List.range 128).find? fun i => decide (capacityOf sr < s.loadAt ls i)

/-- The load figures of `LE_STAT`. -/
def State.loopLoad (s : State) : State :=
  let ls := s.loopsOn
  ((s.put LE_STAT.N_EN ls.length).put LE_STAT.LOAD_MAX
    ((List.range 128).foldl (fun m i => max m (s.loadAt ls i)) 0)).put LE_STAT.K (capacityOf s.sRate)

/-- Puts a loop into a state of R155 and shows it in the loop maps. While it is in HOLD an aux channel that names it uses fallback
regulation. -/
def State.loopState (s : State) (l st : Nat) : State :=
  let w := l / 32
  let upd := fun (m : Nat) (c : Bool) => if c then setBit m (l % 32) else clrBit m (l % 32)
  let s0 := if st = 4 then s.auxOf l fun a t => t.auxLeave a else s
  let s1 := s0.put LE_L_STAT.STATE st l
  let s2 := s1.put LE_RUN.RUN (upd (s1.get LE_RUN.RUN w) (st != 0)) w
  let s3 := s2.put LE_HOLD.HOLD (upd (s2.get LE_HOLD.HOLD w) (st == 4)) w
  if s.get LE_L_STAT.STATE l = 4 ∧ st ≠ 4 then s3.auxOf l fun a t => t.auxJoin a else s3

/-! ### Sources (R146) -/

/-- A subsystem is in the role and its bit of `RDY` is set. -/
def State.subReady (s : State) (i : Nat) : Bool := bit s.running i && bit (s.get SYS_READY.RDY) i

/-- The value a source code names; none is a source fault (R146). -/
def State.source (s : State) (code : Nat) : Option Word :=
  let c := code / 256
  let i := code % 256
  let chk := fun (ok : Bool) (v : Word) => if ok && fFinite v then some v else none
  match c with
  | 0x00 => some 0#32
  | 0x01 => chk (s.subReady 1 && i < 8) (fRoundI (s.geti PE_GRP_MEAS.I_GRP i) 0)
  | 0x02 => chk (s.subReady 1 && i < 8) (fOfRatio (s.get PE_GRP_MEAS.V_GRP i) 10)
  | 0x03 => chk (s.subReady 1 && i < 8) (fOfNat (s.get PE_GRP_CAP.CAP i))
  | 0x04 => chk (s.subReady 1 && i < 8) (fOfNat (s.pAllow i))
  | 0x05 => chk (s.runs 10 && i < 6) (fOfRatio (s.get PWR_AUX_STAT.FB i * 125) 409600)
  | 0x06 => chk (s.subReady 9 && i < 48) (fOfRatio (s.geti TH_TS_VAL.REP i) 10)
  | 0x07 => chk (s.subReady 9 && i < 16) (fOfRatio (s.geti TH_INT_VAL.T i) 10)
  | 0x08 => chk (s.subReady 9 && i < 4) (fOfRatio (s.get TH_FLOW_VAL.FLOW i) 100)
  | 0x09 => chk (s.subReady 6 && i < 8 && s.is MET_PT_CFG.EN i && (sparseGet {} i s.met.pts).blockOk)
      (fOfRatio (s.geti MET_PT_V.V i) 1000)
  | 0x0A => chk (s.subReady 6 && i < 8 && s.is MET_PT_CFG.EN i && (sparseGet {} i s.met.pts).blockOk)
      (fOfRatio (s.geti MET_PT_I.I i) 1000)
  | 0x0B => chk (s.subReady 6 && i < 8 && s.is MET_PT_CFG.EN i && (sparseGet {} i s.met.pts).blockOk)
      (fOfRatio (s.geti MET_PT_P.P i) 1000)
  | 0x10 => chk (s.subReady 2 && i < 64) (s.fl LE_L_R.R i)
  | 0x11 => chk (s.subReady 2 && i < 64) (s.fl LE_L_Y.Y i)
  | 0x12 => chk (s.subReady 2 && i < 64) (s.fl LE_L_E.E i)
  | 0x13 => chk (s.subReady 2 && i < 64) (s.fl LE_L_I.I i)
  | 0x14 => chk (s.subReady 2 && i < 64) (s.lx i).u
  | 0x15 => chk (s.subReady 2 && i < 2) (s.injx i).pub
  | 0x20 => chk (s.subReady 2 && i < 16) (s.fl LE_PARAM.VALUE i)
  | _ => none

/-! ### Consumers (R154) -/

/-- The primary consumer of a loop, as `CONS` encodes it. `LSW_CH` 0x10 to 0x1E, which the spec does not list, names no channel, as 0x1F
(DESIGN CHOICE, log 123). -/
def State.consumer (s : State) (l : Nat) : Nat :=
  match (List.range 8).find? fun g => s.get PE_GRP_CTRL.LOOP g == l with
  | some g => 0x10 + g
  | none =>
    match (List.range 6).find? fun a => s.get PWR_AUX_CTRL.LOOP a == l with
    | some a => 0x20 + a
    | none => let n := s.get LE_L_DEST.LSW_CH l; if n < 16 then 0x30 + n else 0

/-- The aux channel that names a loop, which supplies its target and its measurement (R161). -/
def State.auxNaming (s : State) (l : Nat) : Option Nat := (List.range 6).find? fun a => s.get PWR_AUX_CTRL.LOOP a == l

/-- The limits of the consumer: lower, then upper; none where there is no consumer. -/
def State.consumerLimits (s : State) (c : Nat) : Option (Word × Word) :=
  match c / 16 with
  | 1 =>
    let g := c % 16
    let n := s.capN g
    some (fNeg (fOfRatio (s.revOf g n) 1000000), fOfRatio (s.capOf g n).1 1000000)
  | 2 =>
    let a := c % 16
    let il := s.get PWR_AUX_CS.ILIM a
    some (0#32, if s.is PWR_AUX_STAT.TWARN a then fOfRatio (3 * il) 4096 else fOfRatio il 1024)
  | 3 => some (0#32, fOne)
  | _ => none

/-- The consumer takes the output (R154): always where there is none. -/
def State.taken (s : State) (c : Nat) : Bool :=
  match c / 16 with
  | 1 => s.get PE_GRP_STAT.STATE (c % 16) == 1
  | 2 => s.get PWR_AUX_STAT.MODE (c % 16) == 2 || s.get PWR_AUX_STAT.MODE (c % 16) == 3
  | 3 => s.get LSW_CH_STAT.STATE (c % 16) == 1
  | _ => true

/-- The track value of the consumer (R154); a loop without one holds the output it last delivered, so that a restart does not step it
(R151; DEDUCED, log 135). -/
def State.trackOf (s : State) (l c : Nat) : Word :=
  match c / 16 with
  | 1 => if s.groupRuns (c % 16) then fOfRatio (s.grp (c % 16)).d 1000000 else 0#32
  | 2 => let p := (s.aux (c % 16)).peaks; if p.isEmpty then 0#32 else fOfRatio (p.foldl (· + ·) 0) (p.length * 262144000000)
  | 3 => fOfRatio (s.get LSW_CH_STAT.FRAC (c % 16)) 1000
  | _ => s.fl LE_L_U.U l

/-- The effective limits of R153. -/
def State.loopLimits (s : State) (l : Nat) : Word × Word :=
  let lo := s.fl LE_L_U_MIN.U_MIN l
  let hi := s.fl LE_L_U_MAX.U_MAX l
  match s.consumerLimits (s.consumer l) with
  | none => (lo, hi)
  | some (a, b) => (if fLt lo a then a else lo, fMin hi b)

/-! ### The parts of an update -/

/-- The update interval in seconds (R144). -/
def State.loopTs (s : State) (l : Nat) : Word :=
  fDiv (fOfNat (2 ^ s.get LE_L_CTRL.DIV l)) (fMul (fOfNat s.sRate) (fOfRatio s.tb.floc (10 ^ 11)))

/-- The target: the setpoint of the naming aux channel, `R_TGT`, or the value of `SRC_T` (R161). -/
def State.loopTarget (s : State) (l : Nat) : Option Word :=
  match s.auxNaming l with
  | some a => some (fOfRatio (s.auxSetpoint a * 125) 409600)
  | none =>
    match s.get LE_L_SRC.SRC_T l with
    | 0 => some (s.fl LE_L_R_TGT.R_TGT l)
    | c => s.source c

/-- The measurement y (R147 step 1, R161). -/
def State.loopY (s : State) (l : Nat) : Option Word :=
  match s.auxNaming l with
  | some a => s.source (0x500 + a)
  | none =>
    match s.source (s.get LE_L_SRC.SRC_Y l) with
    | none => none
    | some v => some (fAdd (fMul (s.fl LE_L_Y_SCALE.Y_SCALE l) v) (s.fl LE_L_Y_OFS.Y_OFS l))

/-- The reference generator of R159: the new r and v. -/
def generator (rt r v rate acc ts : Word) : Word × Word :=
  let dist := fSub rt r
  if fEq acc 0#32 then
    let v1 := fClamp (fNeg rate) rate (fDiv dist ts)
    (fAdd r (fMul v1 ts), v1)
  else if fLe (fAbs dist) (fMul (fMul acc ts) ts) && fLe (fAbs v) (fMul acc ts) then (rt, 0#32)
  else
    let m := fMin rate (fSqrt (fMul (fMul 0x40000000#32 acc) (fAbs dist)))
    let want := if fLt dist 0#32 then fNeg m else if fEq dist 0#32 then 0#32 else m
    let dv := fMul acc ts
    let v1 := fAdd v (fClamp (fNeg dv) dv (fSub want v))
    (fAdd r (fMul v1 ts), v1)

/-- Point `p` of the gain table in force. -/
def State.gain (s : State) (l p : Nat) : Word := sparseGet fOne p (s.lx l).gt

/-- The gain factor m of R148. -/
def State.gainFactor (s : State) (l : Nat) (e : Word) : Word :=
  let span := s.fl LE_L_E_SPAN.E_SPAN l
  let interp := fun (x : Word) =>   -- x: the place in the table, 0 to 63
    if fLe x 0#32 then s.gain l 0
    else if fLe (fOfNat 63) x then s.gain l 63
    else
      let q := (fToInt x 1).getD 0 |>.toNat
      let a := s.gain l q
      let b := s.gain l (q + 1)
      fAdd a (fMul (fSub b a) (fSub x (fOfNat q)))
  match s.get LE_L_CTRL.GT_MODE l with
  | 1 => interp (fDiv (fMul (fAbs e) (fOfNat 63)) span)
  | 2 => interp (fDiv (fMul (fAdd e span) (fOfNat 63)) (fMul 0x40000000#32 span))
  | _ => fOne

/-- The number of thresholds of a variable that `x` exceeds, each moved by `h` (R150). -/
def State.bandOf (s : State) (l k0 : Nat) (x : Word) (h : Word → Word) : Nat :=
  ((List.range 7).filter fun k => fLt (h (s.fl LE_STH.TH l (k0 + k))) x).length

/-- The band in force after an update of a scheduling variable; a source fault holds it (R150). It moves to the band computed with the moved
thresholds (DESIGN CHOICE, log 135). -/
def State.bandNext (s : State) (l src k0 old : Nat) : Nat :=
  match s.source src with
  | none => old
  | some x =>
    let h := let w := s.fl LE_STH.TH l (k0 + 7); if fFinite w then w else 0#32
    let up := s.bandOf l k0 x fun t => fAdd t h
    let dn := s.bandOf l k0 x fun t => fSub t h
    if old < up then up else if dn < old then dn else old

/-- The set that entry `r` of the region map names. -/
def State.regionSet (s : State) (l r : Nat) : Nat := s.get LE_RMAP.SETS l (r / 8) / 16 ^ (r % 8) % 16

/-- A point of a feed-forward table. -/
def State.ffPoint (s : State) (t b q : Nat) : Word := sparseGet 0#32 (2048 * t + 1024 * b + q) s.ff

/-- The active bank of a table. -/
def State.ffBank (s : State) (t : Nat) : Nat := if bit (s.get LE_FF_CTRL.ACT) t then 1 else 0

/-- The feed-forward term for strobe `i` (R157). `FF_SEL` 0x10 to 0x1E, which the spec does not list, is taken as none, as 0x1F (DESIGN CHOICE, log 123). -/
def State.ffTerm (s : State) (l i : Nat) : Word :=
  let t := s.get LE_L_CTRL.FF_SEL l
  if 16 ≤ t then 0#32
  else
    let th := ((i + 1) * (2 ^ 24 / s.sRate) + s.get LE_L_FFOFS.FF_OFS l) % 2 ^ 24
    let q := th / 2 ^ 14
    let a := s.ffPoint t (s.ffBank t) q
    let b := s.ffPoint t (s.ffBank t) ((q + 1) % 1024)
    fMul (s.fl LE_L_FF_K.FF_K l) (fAdd a (fDiv (fMul (fSub b a) (fOfNat (th % 2 ^ 14))) (fOfNat 16384)))

/-! ### Injectors (R165, R166) -/

/-- The injector ends: q to 0, the reason, the event (R166). -/
def State.injEnd (s : State) (j reason : Nat) : State :=
  if s.get LE_INJ_CTRL.STATE j = 0 then s
  else
    ((((s.setInjx j { pub := (s.injx j).pub }).put LE_INJ_CTRL.STATE 0 j).put LE_INJ_CTRL.EN 0 j).put LE_INJ_CTRL.END reason j).log 0x0409 NOTICE
      [s.get LE_INJ_CTRL.LOOP j, j, reason]

/-- The signal of a running injector at one update, and its new hidden part (R165). -/
def State.injSignal (s : State) (j : Nat) (ts : Word) : Word × InjX × State :=
  let x := s.injx j
  let amp := s.fl LE_INJ_AMP.AMP j
  let dur := s.get LE_INJ_DUR.DUR j
  match s.get LE_INJ_CTRL.TYPE j with
  | 2 =>
    let hold := max 1 (s.get LE_INJ_DUR.HOLD j)
    let step := fun (r : Nat) => r * 2 % 2 ^ 11 + (if bit r 10 != bit r 8 then 1 else 0)
    let r := if x.n ≠ 0 ∧ x.n % hold = 0 then step x.lfsr else x.lfsr
    let q := if bit r 10 then amp else fNeg amp
    (q, { x with n := x.n + 1, lfsr := r, q := q }, s)
  | ty =>
    let f0 := s.fl LE_INJ_F0.F0 j
    let q := fMul amp (fSin x.phase)
    let r :=
      if ty = 1 then
        if dur = 0 then (BitVec.ofNat 32 (s.free 32).1, (s.free 32).2)
        else (fAdd f0 (fDiv (fMul (fSub (s.fl LE_INJ_F1.F1 j) f0) (fOfNat x.n)) (fOfNat dur)), s)
      else (f0, s)
    (q, { x with n := x.n + 1, phase := fAdd x.phase (fMul (fMul fTwoPi r.1) ts), q := q }, r.2)

/-- The injections of one update of a loop in AUTO: at the reference and at the output, the injectors advanced. -/
def State.injections (s : State) (l : Nat) (ts : Word) : Word × Word × State :=
  (List.range 2).foldl (fun (a : Word × Word × State) j =>
    if a.2.2.get LE_INJ_CTRL.STATE j == 2 && a.2.2.get LE_INJ_CTRL.LOOP j == l then
      let r := a.2.2.injSignal j ts
      let t := r.2.2.setInjx j r.2.1
      if t.is LE_INJ_CTRL.POINT j then (a.1, fAdd a.2.1 r.1, t) else (fAdd a.1 r.1, a.2.1, t)
    else a) (0#32, 0#32, s)

/-- The loop has left AUTO: its injectors end (R166). -/
def State.injLeave (s : State) (l : Nat) : State :=
  s.each 2 fun j t => if t.get LE_INJ_CTRL.LOOP j == l && t.get LE_INJ_CTRL.STATE j == 2 then t.injEnd j 3 else t

/-! ### One update (R147, R155) -/

/-- The loop enters HOLD: nothing is delivered, the cause is logged (R155, R170). -/
def State.loopHold (s : State) (l cause : Nat) : State :=
  let x := s.lx l
  let s1 := (s.setLx l { x with out := none, good := 0 }).loopState l 4
  ((s1.put LE_L_STAT.SRC_FLT_SEEN 1 l).injLeave l).log 0x0404 WARNING [l, cause]

/-- `SLEWING` reads 1 while r is not the target (R159). -/
def State.slewShow (s : State) (l : Nat) : State :=
  match s.loopTarget l with
  | some rt => s.putb LE_L_STAT.SLEWING (!fEq (s.fl LE_L_R.R l) rt) l
  | none => s

/-- What one update computes before the state decides the output. -/
structure LoopCalc where
  y : Word
  r : Word
  v : Word
  e : Word
  yf : Word
  p : Word
  d : Word
  ff : Word
  ki : Word
  ts : Word
  qu : Word
  set : Nat
  region : Nat
  b1 : Nat
  b2 : Nat
  changed : Bool

/-- P + D + FF, as R151 sums them. -/
def LoopCalc.pdf (c : LoopCalc) : Word := fAdd (fAdd c.p c.d) c.ff

/-- Every term computed so far is finite (R145). -/
def LoopCalc.finite (c : LoopCalc) : Bool :=
  fFinite c.y && fFinite c.r && fFinite c.v && fFinite c.e && fFinite c.yf && fFinite c.p && fFinite c.d && fFinite c.ff && fFinite c.pdf

/-- The terms of R147 steps 1 to 7 for a loop whose measurement and target are given. -/
def State.loopCalc (s : State) (l i : Nat) (y rt qr qu : Word) : LoopCalc :=
  let x := s.lx l
  let ts := s.loopTs l
  let rv := generator rt (s.fl LE_L_R.R l) (s.fl LE_L_V.V l) (s.fl LE_L_RATE.RATE l) (s.fl LE_L_ACC.ACC l) ts
  let rev := s.is LE_L_CTRL.REV l
  let sg := fun (w : Word) => if rev then fNeg w else w
  let e := sg (fSub (fAdd rv.1 qr) y)
  let sched := s.is LE_L_CTRL.SCHED_EN l
  let b1 := if sched then s.bandNext l (s.get LE_L_SCHED.SRC_S1 l) 0 x.band1 else x.band1
  let b2 := if sched then s.bandNext l (s.get LE_L_SCHED.SRC_S2 l) 8 x.band2 else x.band2
  let region := 8 * b1 + b2
  let set := if sched then s.regionSet l region else s.get LE_L_CTRL.SET_FIX l
  let kp := s.fl LE_COEF_KP.K l set
  let kd := s.fl LE_COEF_KD.K l set
  let tf := s.fl LE_COEF_TF.K l set
  let p := fMul (fMul (s.gainFactor l e) kp) e
  let yf := fAdd x.yf (fMul (fDiv ts (fAdd tf ts)) (fSub y x.yf))
  let d := fDiv (fMul (fNeg (sg kd)) (fSub yf x.yf)) ts
  { y := y, r := rv.1, v := rv.2, e := e, yf := yf, p := p, d := d, ff := s.ffTerm l i, ki := s.fl LE_COEF_KI.K l set, ts := ts, qu := qu, set := set,
    region := region, b1 := b1, b2 := b2, changed := set != s.get LE_L_STAT.SET l }

/-- The gain-table commit is taken: the shadow becomes the copy in force (R149). -/
def State.gainTake (s : State) (l : Nat) : State :=
  let x := s.lx l
  let gt := (List.range 64).foldl (fun t p => sparsePut fOne p (s.fl LE_GTAB.G l p) t) []
  s.setLx l { x with gtPend := false, gt := gt }

/-- The integrator's advance before its limits (R153). -/
def State.integrate (s : State) (l : Nat) (c : LoopCalc) (i0 uraw u lo hi : Word) : Word :=
  let kie := fMul c.ki c.e
  if s.is LE_L_CTRL.AW l then
    fAdd i0 (fMul c.ts (fAdd kie (fMul (s.fl LE_L_KT.KT l) (fSub u uraw))))
  else if (fLt hi uraw && fPos kie) || (fLt uraw lo && fLt kie 0#32) then i0
  else fAdd i0 (fMul (fMul c.ki c.ts) c.e)

/-- The state of R155 a running loop is in at this update: a change of `MODE` and of what the consumer takes acts first. -/
def State.loopRow (s : State) (l : Nat) : State :=
  let x := s.lx l
  let man := s.is LE_L_CTRL.MODE l
  let tk := s.taken (s.consumer l)
  match s.get LE_L_STAT.STATE l with
  | 1 => if man then s.loopState l 3 else if tk then (s.setLx l { x with preset := true }).loopState l 2 else s
  | 2 => if man then ((s.loopState l 3).injLeave l).log 0x0407 INFO [l, 3]
         else if tk then s else (s.loopState l 1).injLeave l
  | 3 => if man then s
         else
           let st := if tk then 2 else 1
           ((s.setLx l { x with preset := true }).loopState l st).log 0x0407 INFO [l, st]
  | _ => s

/-- The output, the limits and the integrator of an update, and the values shown (R147 steps 8 to 11, R153, R156). -/
def State.loopOutput (s : State) (l : Nat) (c : LoopCalc) (preset : Bool) : State :=
  let x := s.lx l
  let (lo, hi) := s.loopLimits l
  let st := s.get LE_L_STAT.STATE l
  let i0 := s.fl LE_L_I.I l
  let cl := fun w => fClamp lo hi w
  let man := cl (s.fl LE_L_U_MAN.U_MAN l)
  let trk := s.trackOf l (s.consumer l)
  let pre := if st = 2 then (if preset then fSub (s.fl LE_L_U.U l) c.pdf else i0) else fSub (if st = 3 then man else trk) c.pdf
  let ip := if st = 2 && !preset then i0 else cl pre
  let uraw := if st = 2 then fAdd (fAdd (fAdd (fAdd c.p ip) c.d) c.ff) c.qu else if st = 3 then s.fl LE_L_U_MAN.U_MAN l else trk
  let u := if st = 1 then trk else cl uraw
  let raw := if st = 2 then s.integrate l c ip uraw u lo hi else ip
  let i1 := if st = 2 then cl raw else ip
  if !(c.finite && fFinite pre && fFinite uraw && fFinite u && fFinite (fMul c.ki c.e) && fFinite raw) then s.loopHold l 2
  else
    let hiS := st != 1 && fLt hi uraw
    let loS := st != 1 && fLt uraw lo
    let sat := if hiS || loS then x.sat + 1 else 0
    let s1 := s.setLx l
      { x with yf := c.yf, u := u, out := some u, good := 0, preset := false, band1 := c.b1, band2 := c.b2, sat := sat }
    let s2 := (((((s1.putf LE_L_R.R c.r l).putf LE_L_V.V c.v l).putf LE_L_Y.Y c.y l).putf LE_L_E.E c.e l).putf LE_L_I.I i1 l)
    let s3 := ((s2.put LE_L_STAT.SET c.set l).put LE_L_STAT.REGION c.region l).putb LE_L_STAT.SAT_HI hiS l
    let s4 := (s3.putb LE_L_STAT.SAT_LO loS l).when (hiS || loS) fun t => t.put LE_L_STAT.SAT_SEEN 1 l
    if s.is LE_L_CTRL.MAN_TRK l && (st == 1 || st == 2) then s4.putf LE_L_U_MAN.U_MAN u l else s4

/-- `yf`, and r where `INIT_SRC` = 1, are set from y where `SRC_Y` was at fault when the loop left OFF (R162). -/
def State.loopLateInit (s : State) (l : Nat) (y : Word) : State :=
  let x := s.lx l
  if x.initPend then
    ((s.setLx l { x with yf := y, initPend := false }).putf LE_L_Y.Y y l).when (s.is LE_L_CTRL.INIT_SRC l) fun t => t.putf LE_L_R.R y l
  else s

/-- One due update of a loop at strobe `i` (R147, R155). The first after HOLD runs in TRACK. The row of HOLD comes before those of a change of
mode: where a value is not finite, nothing of the change happens. -/
def State.loopUpdate (s : State) (l i : Nat) : State :=
  match s.get LE_L_STAT.STATE l, s.loopY l, s.loopTarget l with
  | 0, _, _ => s
  | 4, some _, some _ => s.setLx l { s.lx l with good := (s.lx l).good + 1 }
  | 4, _, _ => s.setLx l { s.lx l with good := 0 }
  | _, none, _ => s.loopHold l 0
  | _, some _, none => s.loopHold l 1
  | _, some y, some rt =>
    let s0 := s.loopLateInit l y
    let s1 := if (s0.lx l).track then s0.setLx l { s0.lx l with track := false } else s0.loopRow l
    let inAuto := s1.get LE_L_STAT.STATE l == 2
    let inj := if inAuto then s1.injections l (s1.loopTs l) else (0#32, 0#32, s1)
    let s2 := inj.2.2
    let gc := (s2.lx l).gtPend
    let s3 := if gc then s2.gainTake l else s2
    let c := s3.loopCalc l i y rt inj.1 inj.2.1
    let t := s3.loopOutput l c (gc || c.changed || (s3.lx l).preset)
    if t.get LE_L_STAT.STATE l = 4 then s0.loopHold l 2 else t

/-- The output of a loop that has one waiting reaches every consumer at the strobe (R142 step 1, R163). -/
def State.loopDeliver (s : State) (l : Nat) : State :=
  match (s.lx l).out with
  | none => s
  | some u =>
    let s1 := (s.setLx l { s.lx l with out := none }).putf LE_L_U.U u l
    let s2 := s1.each 8 fun g t =>
      if t.get PE_GRP_CTRL.LOOP g == l && t.get PE_GRP_CTRL.DEM_SRC g != 1 then
        (t.putf PE_GRP_DEM.DEM u g).setGrp g { t.grp g with demAge := 0 } else t
    let s3 := s2.each 6 fun a t => if t.get PWR_AUX_CTRL.LOOP a == l then t.setAux a { t.aux a with th := u } else t
    let n := s3.get LE_L_DEST.LSW_CH l
    if n < 16 then s3.lswFraction n u else s3

/-- The initialisation of a loop that leaves OFF (R162). `U` starts at what its consumer would track, which the rule does not state (DESIGN
CHOICE, log 114). -/
def State.loopInit (s : State) (l : Nat) : State :=
  let y? := s.loopY l
  let y := y?.getD 0#32
  let r := match s.auxNaming l with
    | some a => if s.get PWR_AUX_STAT.MODE a = 2 ∨ s.get PWR_AUX_STAT.MODE a = 4 then y else 0#32
    | none => if s.is LE_L_CTRL.INIT_SRC l then y else s.fl LE_L_R_INIT.R_INIT l
  let s1 := s.setLx l { s.lx l with yf := y, initPend := y?.isNone, out := none, good := 0, sat := 0, preset := false, track := false }
  let s2 := ((((s1.putf LE_L_I.I 0#32 l).putf LE_L_V.V 0#32 l).putf LE_L_Y.Y y l).putf LE_L_R.R r l)
  let s3 := s2.putf LE_L_U.U 0#32 l
  (s3.putf LE_L_U.U (s3.trackOf l (s3.consumer l)) l).slewShow l

/-- `CONS` of every loop shows its primary consumer (R154). -/
def State.consShow (s : State) : State := s.each 64 fun l t => t.put LE_L_DEST.CONS (t.consumer l) l

/-- A write of `EN` = 1 of a loop that is OFF: admitted under the budget, or refused (R141, R155). The budget is that of the S in force, also
while a change of `SRATE` waits (DESIGN CHOICE, log 135). -/
def State.loopEnable (s : State) (l : Nat) : State :=
  if s.loopOn l then s.put LE_L_CTRL.EN 1 l
  else
    match s.overBudget (s.loopsOn ++ [l]) s.sRate with
    | some i => ((s.put LE_L_CTRL.EN 0 l).put LE_L_STAT.REFUSED 1 l).log 0x0403 WARNING ([l] ++ leBytes 2 i)
    | none =>
      (((s.put LE_L_CTRL.EN 1 l).put LE_L_STAT.REFUSED 0 l).loopInit l).loopState l (if s.is LE_L_CTRL.MODE l then 3 else 1)
        |>.loopLoad

/-- A write of `EN` = 0: the loop is OFF and its output is no longer delivered (R155). -/
def State.loopDisable (s : State) (l : Nat) : State :=
  (((s.put LE_L_CTRL.EN 0 l).setLx l { s.lx l with out := none }).loopState l 0).injLeave l |>.loopLoad

/-- The Loop Engine starts: `SRATE` and the gain tables come into force and its loops are admitted in ascending number (R139, R141). A
refused loop keeps the ready bit clear. -/
def State.leStart (s : State) : State :=
  let s1 := (s.put LE_CTRL.SRATE_ACT (s.get LE_CTRL.SRATE)).consShow.each 64 fun l t => t.gainTake l
  let s2 := s1.each 64 fun l t => if t.is LE_L_CTRL.EN l then t.loopEnable l else t
  s2.loopLoad.each 6 fun a t => t.auxJoin a

/-- Every loop that `EN` names runs: the condition of the Loop Engine's ready bit (R141). -/
def State.leReady (s : State) : Bool := (List.range 64).all fun l => !s.is LE_L_STAT.REFUSED l

end Sys2Proof.Machine
end

