-- ==== Sys2Proof/Machine/SwitchOps.lean ====
section
/-! DEFINITION. Shared operations of the load switches, the vehicle connectors and the Safe-Off sequencer
(spec/16_load_switches.md, spec/13_vehicle_sessions.md, spec/20_safe_off_faults.md), and what Safe-Off does to every block. -/

namespace Sys2Proof.Machine

open R

/-! ### Load switches (R387 to R392) -/

/-- A connector is in `DISP_CONN`: 0x1 names connector 0, 0x2 connectors 0 and 1. -/
def State.connUsed (s : State) (c : Nat) : Bool := decide (c < s.get SYS_ROLE.DISP_CONN)

/-- The channel is a contactor channel of a connector in `DISP_CONN`. -/
def State.vsNames (s : State) (n : Nat) : Bool :=
  (List.range 2).any fun c => s.connUsed c &&
    (s.get VS_CONN_CFG.LS_POS c == n || s.get VS_CONN_CFG.LS_NEG c == n)

/-- The channel is named by an enabled coolant circuit. -/
def State.thNames (s : State) (n : Nat) : Bool :=
  (List.range 2).any fun m => s.is TH_CC_CFG.EN m &&
    (s.get TH_CC_CFG.PUMP_LS m == n || s.get TH_CC_CFG.VALVE_LS m == n || s.get TH_CC_CFG.HEAT_LS m == n)

/-- The owner of a channel: 0 Vehicle Session, 1 Thermal, 2 registers (R387). -/
def State.ownerOf (s : State) (n : Nat) : Nat := if s.vsNames n then 0 else if s.thNames n then 1 else 2

/-- The owners are fixed again; a conflict that first arises is logged (R387). -/
def State.lswOwners (s : State) : State :=
  s.each 16 fun n t =>
    let clash := t.vsNames n && t.thNames n
    let t1 := t.put LSW_CH_STAT.OWNER (t.ownerOf n) n
    let was := bit t1.lsw.conflict n
    let t2 := { t1 with lsw := { t1.lsw with conflict := if clash then setBit t1.lsw.conflict n else clrBit t1.lsw.conflict n } }
    t2.when (clash && !was) fun u => u.log 0x0D09 WARNING [n, 1]

/-- Some loop drives the channel's on-fraction. -/
def State.lswLoop (s : State) (n : Nat) : Bool := (List.range 64).any fun l => s.get LE_L_DEST.LSW_CH l == n

/-- The output stages: each follows its channel's state, or its Freeze latch while a record waits for Thaw (R396, R454). -/
def State.lswPins (s : State) : State :=
  let on := if s.is SAF_STAT.FRZ then s.pins.latch else s.get LSW_STAT.OUT
  { s with pins := { s.pins with ls := on } }

/-- Puts a channel into a state of R392 and shows it. -/
def State.lswState (s : State) (n st : Nat) : State :=
  let upd := fun (m : Nat) (c : Bool) => if c then setBit m n else clrBit m n
  let s1 := s.put LSW_CH_STAT.STATE st n
  let s2 := s1.put LSW_STAT.OUT (upd (s1.get LSW_STAT.OUT) (st == 1))
  let s3 := s2.put LSW_STAT.LATCHED (upd (s2.get LSW_STAT.LATCHED) (st == 4))
  let fr := if st = 1 then (if s.lswLoop n then sparseGet 0 n s.lsw.frac else 1000) else 0
  let s4 := (s3.put LSW_CH_STAT.FRAC fr n).when (st != 1) fun t => t.put LSW_CH_STAT.OL 0 n
  (s4.when (s4.get LSW_BANK.SSEL == n) fun t => t.put LSW_BANK.SNS_VALID 0).lswPins

/-- The bank of a channel: 0 A, 1 B. -/
def bankOf (n : Nat) : Nat := n / 8

/-- The bank is in undervoltage: it has been below 9.0 V and not at 9.5 V since. -/
def State.bankLow (s : State) (b : Nat) : Bool := bit s.lsw.low b

/-- The bank is in undervoltage and its supply, as last measured, is still below 9.0 V: it lies between 9.0 V and 9.5 V otherwise. -/
def State.bankUnder (s : State) (b : Nat) : Bool :=
  s.bankLow b && decide ((if b = 0 then s.get PWR_VLS.VLSA else s.get PWR_VLS.VLSB) < 900)

/-- The role set has the Load Switches (R15) and D10 runs, in which their logic stands. -/
def State.lswLogic (s : State) : Bool := s.runs 10 && bit s.running 11

/-- `UV_A` and `UV_B` show the banks in undervoltage. -/
def State.lswBanks (s : State) : State := (s.putb LSW_BANK.UV_A (s.bankLow 0)).putb LSW_BANK.UV_B (s.bankLow 1)

/-- D10's logic commands the channels: it runs and no Freeze record waits (R396). -/
def State.lswRuns (s : State) : Bool := s.lswLogic && !s.is SAF_STAT.FRZ

/-- A channel enters ON (R392), and at once UVLO where its bank is below 9.0 V still; after a thermal shutdown it waits for a junction
below 160 °C, commanded on (R385). -/
def State.lswEnter (s : State) (n : Nat) : State :=
  if bit s.lsw.hot n then s else s.lswState n (if s.bankUnder (bankOf n) then 3 else 1)

/-- A command of the channel's owner (R392): LATCHED ignores every command; while Safe-Off is active a channel the sequencer
has cleared is not switched on again (R458). While a Freeze record waits, `ON` takes the command and the state follows at Thaw (R396);
while D10 is in reset, and in a role set without the Load Switches (R15), nothing is switched on. -/
def State.lswCommand (s : State) (n : Nat) (on : Bool) : State :=
  let st := s.get LSW_CH_STAT.STATE n
  if st = 4 || !s.runs 10 then s
  else if on then
    if !bit s.running 11 || s.is SAF_STAT.ACTIVE && bit s.saf.cleared n then s
    else
      let s1 := s.put LSW_CH_CTRL.ON 1 n
      if st = 0 && !s.is SAF_STAT.FRZ then s1.lswEnter n else s1
  else
    let s1 := s.put LSW_CH_CTRL.ON 0 n
    if s.is SAF_STAT.FRZ then s1 else s1.lswState n 0

/-- At Thaw D10's logic goes on with a channel from the state that Freeze held (R396, R467): what its bank has done meanwhile and what was
commanded take effect. -/
def State.lswResume (s : State) (n : Nat) : State :=
  match s.get LSW_CH_STAT.STATE n with
  | 0 => if s.is LSW_CH_CTRL.ON n then s.lswEnter n else s.lswState n 0
  | 1 => s.lswState n (if s.bankUnder (bankOf n) then 3 else 1)
  | 3 => if s.bankLow (bankOf n) || bit s.lsw.hot n then s.lswState n 3 else s.lswState n 1
  | st => s.lswState n st

/-- The junction is seen: `TJ` shows it, and below 160 °C a channel that a thermal shutdown held off may switch on again (R385). -/
def State.lswJunction (s : State) (n : Nat) (tj : Int) : State :=
  let s1 := s.putSat LSW_CH_MEAS.TJ tj n
  if 175 ≤ tj then { s1 with lsw := { s1.lsw with hot := setBit s1.lsw.hot n } }
  else if tj < 160 ∧ bit s1.lsw.hot n then
    let s2 := { s1 with lsw := { s1.lsw with hot := clrBit s1.lsw.hot n } }
    if s2.lswRuns then
      match s2.get LSW_CH_STAT.STATE n with
      | 0 => if s2.is LSW_CH_CTRL.ON n then s2.lswEnter n else s2
      | 3 => if s2.bankLow (bankOf n) then s2 else s2.lswState n 1
      | _ => s2
    else s2
  else s1

/-- A channel that is ON and that no loop names any more is driven fully on (R388). -/
def State.lswUnnamed (s : State) : State :=
  s.each 16 fun n t => if t.get LSW_CH_STAT.STATE n = 1 ∧ t.lswLoop n = false then t.put LSW_CH_STAT.FRAC 1000 n else t

/-! ### Connectors (R319 to R327) -/

/-- A connector's hidden part. -/
def State.conn (s : State) (c : Nat) : ConnX := sparseGet {} c s.conns

/-- Sets a connector's hidden part. -/
def State.setConn (s : State) (c : Nat) (x : ConnX) : State := { s with conns := sparsePut {} c x s.conns }

/-- The feeding group is in this module (R19); else it is in the cabinet of `FEED_NODE` (R17). -/
def State.localFeed (s : State) (c : Nat) : Bool := s.get VS_CONN_FEED.FEED_NODE c == 0

/-- Writes the target in mV and the limits in mA of a loop as binary32, in volts and amperes (R327, R330). -/
def State.loopSet (s : State) (l rt : Nat) (hi lo : Int) : State :=
  if l < 64 then
    ((s.putf LE_L_R_TGT.R_TGT (fOfRatio rt 1000) l).putf LE_L_U_MAX.U_MAX (fOfRatio hi 1000) l).putf LE_L_U_MIN.U_MIN (fOfRatio lo 1000) l
  else s

/-- `COMPLY` of R328. -/
def State.comply (s : State) (c : Nat) : State :=
  let a := s.get VS_CONN_ALLOW.I_THASK c
  let x := s.conn c
  let ok := a == 0xFFFF ||
    (decide ((s.geti VS_CONN_EV.I_EV c).natAbs ≤ a) && decide (x.hi.natAbs ≤ a * 1000) && decide (x.lo.natAbs ≤ a * 1000))
  s.putb VS_CONN_STAT.COMPLY ok c

/-- Sets the target of the connector's voltage loop in mV and its limits in mA; the loop is written here, or in the next need
frame under DISPENSER alone. `COMPLY` follows the limits (R328). -/
def State.connDrive (s : State) (c rt : Nat) (hi lo : Int) : State :=
  let s1 := s.setConn c { s.conn c with rTgt := rt, hi := hi, lo := lo }
  (if s1.localFeed c then s1.loopSet (s1.get VS_CONN_FEED.VLOOP c) rt hi lo else s1).comply c

/-- Both limits at 0 at once, without the ramp (R320). -/
def State.limitsZero (s : State) (c : Nat) : State := s.connDrive c (s.conn c).rTgt 0 0

/-- Puts a connector into a state of R320. -/
def State.connState (s : State) (c st : Nat) : State := s.put VS_CONN_STAT.STATE st c

/-- The end reason is given (R332). -/
def State.connEnd (s : State) (c code : Nat) : State := s.put VS_CONN_STAT.END code c

/-- The connector enters FAULT. -/
def State.connFault (s : State) (c : Nat) : State :=
  ((s.connState c 0xB).put VS_CONN_STAT.FAULT_SEEN 1 c).inc VS_CONN_CNT.FAULTS c

/-- A normal stop still ramps its limits to 0 (R320). -/
def State.ramping (s : State) (c : Nat) : Bool :=
  s.get VS_CONN_STAT.STATE c == 7 && !s.is VS_CONN_STAT.FAST c && !((s.conn c).hi == 0 && (s.conn c).lo == 0)

/-- An insulation fault and a lost feed that stop a connector have an event of their own (R336). -/
def State.causeLog (s : State) (c code : Nat) : State :=
  if code = 5 then s.log 0x0A0B TRIP [c] else if code = 0xF then s.log 0x0A0C WARNING [c] else s

/-- A fast stop (R319, R320): ENDED from SETUP; RAMPDOWN with limits 0 from CLOSE to ENERGY. A normal stop that still ramps becomes fast, for
both causes hold then (R319; DEDUCED, log 117), and Safe-Off gives any RAMPDOWN end 0x07 (R335). No effect elsewhere. -/
def State.fastStop (s : State) (c code : Nat) : State :=
  match s.get VS_CONN_STAT.STATE c with
  | 2 => (((s.connState c 0xA).connEnd c code).put VS_CONN_STAT.FAST 1 c).log 0x0A0A WARNING [c, code]
  | 3 | 4 | 5 | 6 =>
    let s1 := (((s.causeLog c code).setConn c { s.conn c with standby := false })).limitsZero c
    (((s1.connState c 7).connEnd c code).put VS_CONN_STAT.FAST 1 c).log 0x0A0A WARNING [c, code]
  | 7 => if s.ramping c || (code == 7 && s.get VS_CONN_STAT.END c != 7) then ((((s.causeLog c code).limitsZero c).connEnd c code).put VS_CONN_STAT.FAST 1 c).log 0x0A0A WARNING [c, code] else s
  | _ => s

/-- A normal stop (R320): the limits go to 0 at once before ENERGY and ramp from ENERGY. -/
def State.normalStop (s : State) (c code : Nat) : State :=
  match s.get VS_CONN_STAT.STATE c with
  | 2 => ((s.connState c 0xA).connEnd c code).put VS_CONN_STAT.FAST 0 c
  | 3 | 4 | 5 => (((s.limitsZero c).connState c 7).connEnd c code).put VS_CONN_STAT.FAST 0 c
  | 6 => (((s.setConn c { s.conn c with standby := false }).connState c 7).connEnd c code).put VS_CONN_STAT.FAST 0 c
  | _ => s

/-- The connectors that stop fast with one end reason. -/
def State.fastStopAll (s : State) (code : Nat) : State := s.each 2 fun c t => t.fastStop c code

/-- A connector's contactor channel is on. A connector with a channel at 0x1F has no contactor (R455). -/
def State.contactorOn (s : State) (c : Nat) : Bool :=
  let p := s.get SAF_CONN.LS_POS c
  let n := s.get SAF_CONN.LS_NEG c
  p < 16 && n < 16 && (bit s.pins.ls p || bit s.pins.ls n)

/-- A connector's contactor is commanded closed or held by Freeze (R23, R58). -/
def State.anyContactor (s : State) : Bool := s.is SAF_STAT.FRZ && s.get SAF_FRZ.CONN != 0 || s.contactorOn 0 || s.contactorOn 1

/-- A session is active on a connector: a state from SETUP to WELD (R56). -/
def State.connActive (s : State) (c : Nat) : Bool :=
  let st := s.get VS_CONN_STAT.STATE c
  decide (2 ≤ st) && decide (st ≤ 9)

/-- A group's need frame as the cabinet last heard it. -/
def State.needOf (s : State) (g : Nat) : NeedX := sparseGet {} g s.needs

/-- Sets a group's need frame. -/
def State.setNeed (s : State) (g : Nat) (x : NeedX) : State := { s with needs := sparsePut {} g x s.needs }

/-- At a half-cycle boundary one more has passed since the last need and allowance frame (R330). -/
def State.halfCycleAges (s : State) : State :=
  let s1 := s.each 8 fun g t => let x := t.needOf g; if x.fed then t.setNeed g { x with age := x.age + 1 } else t
  s1.each 2 fun c t => let x := t.conn c; if t.localFeed c then t else t.setConn c { x with age := x.age + 1 }

/-! ### The Safe-Off sequencer (R456 to R461) -/

/-- Where a connector stands in the sequencer's list. -/
def State.seqOf (s : State) (c : Nat) : Nat := sparseGet 0 c s.saf.seq

/-- Sets where a connector stands. -/
def State.setSeq (s : State) (c v : Nat) : State := { s with saf := { s.saf with seq := sparsePut 0 c v s.saf.seq } }

/-- The channel is a contactor of the sequencer's own copies (R455). -/
def State.isContactor (s : State) (n : Nat) : Bool :=
  (List.range 2).any fun c =>
    (s.get SAF_CONN.LS_POS c == n || s.get SAF_CONN.LS_NEG c == n) && decide (s.get SAF_CONN.LS_POS c < 16) && decide (s.get SAF_CONN.LS_NEG c < 16)

/-- The sequencer clears the latch of a channel: the output goes off whoever commands it; ON, WAIT and UVLO go to OFF with
`ON` cleared, LATCHED stays (R458). -/
def State.latchClear (s : State) (n : Nat) : State :=
  if 16 ≤ n then s
  else
    let s1 := { s with pins := { s.pins with latch := clrBit s.pins.latch n } }
    let s2 := if s1.is SAF_STAT.ACTIVE then { s1 with saf := { s1.saf with cleared := setBit s1.saf.cleared n } } else s1
    let st := s2.get LSW_CH_STAT.STATE n
    if st = 0 ∨ st = 4 then s2.lswPins else (s2.put LSW_CH_CTRL.ON 0 n).lswState n 0

/-- Step 4 of R458: every connector of step 3 is open, declared held, or counts as opened (R460, R469). The time from t_s is in ms. -/
def State.safDone (s : State) (ms : Nat) : State :=
  let open_ := (List.range 2).all fun c => s.seqOf c == 0 || decide (3 ≤ s.seqOf c) || bit s.saf.held c || bit s.saf.tripped c
  if s.is SAF_STAT.ACTIVE && !s.is SAF_STAT.DONE && open_ then
    (s.put SAF_STAT.DONE 1).log 0x1203 NOTICE (leBytes 2 (min ms 0xFFFF))
  else s

/-- A connector is no longer held; `HELD` clears when none declared held is left (R459). -/
def State.heldEnds (s : State) (c : Nat) : State :=
  let s1 := { s with saf := { s.saf with held := clrBit s.saf.held c } }
  s1.putb SAF_STAT.HELD (s1.saf.held != 0)

/-- A connector's contactors are open (R459). -/
def State.connOpened (s : State) (c ms : Nat) : State := ((s.setSeq c 3).heldEnds c).safDone ms

/-- The ms since t_s. -/
def State.safMs (s : State) : Nat := s.saf.age / 250000

/-- A contactor channel went off by its own protection while the sequencer waits: its connector counts as opened (R469). A contactor of it that is
still on is opened as the list has it (DEDUCED, log 143). -/
def State.safTripped (s : State) (n : Nat) : State :=
  s.each 2 fun c t =>
    if (t.get SAF_CONN.LS_POS c == n || t.get SAF_CONN.LS_NEG c == n) && (t.seqOf c == 1 || t.seqOf c == 4) then
      if t.contactorOn c then ({ t with saf := { t.saf with tripped := setBit t.saf.tripped c } }.heldEnds c).safDone t.safMs
      else t.connOpened c t.safMs
    else t

/-- The reactions of the other blocks to `ACTIVE` (R458): the module leaves RUN for QUIET, groups go to IDLE, connectors to
RAMPDOWN with end 0x07, injectors end. -/
def State.safReact (s : State) : State :=
  let s1 := s.when s.inRun fun t => t.put PWR_STATE.STATE 1
  let s2 := s1.stopPhases
  let s3 := s2.fastStopAll 0x07
  s3.each 2 fun j t => t.injEnd j 5

/-- Event 0x1201 is logged 50 base periods after t_s (R458): it shows `FIRST` and `SRC` with every request of the base period in which Safe-Off became
active (R456). -/
def State.amendEntry (s : State) : State :=
  let pay := (s.mkRec 0x1201 SAFETY (leBytes 2 (s.get SAF_FIRST.FIRST) ++ leBytes 2 (s.get SAF_SRC.SRC)) s.keeper s.rtc).pay
  let fix := fun (l : List Rec) => match l.reverse.findIdx? fun r => r.code == 0x1201 with
    | some i => (l.reverse.modify i fun r => { r with pay := pay }).reverse
    | none => l
  { s with evr := { s.evr with queue := fix s.evr.queue, hold := fix s.evr.hold } }

/-- A further request in the base period in which Safe-Off became active: `FIRST` names the lowest-numbered source (R456). -/
def State.safJoin (s : State) (src code lead : Nat) : State :=
  let s1 := if src < lead then { s.put SAF_FIRST.FIRST code with saf := { s.saf with lead := some src } } else s
  s1.amendEntry

/-- Safe-Off activation: the list of R458 from step 1. -/
def State.safActivate (s : State) (src code : Nat) : State :=
  let s1 := (((s.put SAF_STAT.ACTIVE 1).put SAF_STAT.DONE 0).put SAF_FIRST.FIRST code).inc SAF_FIRST.SO_CNT
  let s2 := s1.drivesLow.log 0x1201 SAFETY (leBytes 2 code ++ leBytes 2 (s1.get SAF_SRC.SRC))
  let s3 := { s2 with saf := { s2.saf with cleared := 0, list := 1, tripped := 0, age := 0, lead := some src } }
  let s4 := s3.eachBit 16 (s3.get SAF_LS_OFF.LS_OFF) fun n t => if t.isContactor n then t else t.latchClear n
  let s5 := s4.each 2 fun c t => if t.contactorOn c then (if t.seqOf c = 0 ∨ t.seqOf c = 3 then t.setSeq c 1 else t) else t.setSeq c 0
  s5.safReact.safDone 0

/-- A request for Safe-Off from a source with its event code (R456, R469). Inside the hold-up sequence it adds nothing (R52). -/
def State.reqSafeOff (s : State) (src code : Nat) : State :=
  if s.boot.failing then s else
  let s0 := (s.put SAF_SRC.SRC (setBit (s.get SAF_SRC.SRC) src)).put SAF_SRC.SRC_SEEN (setBit (s.get SAF_SRC.SRC_SEEN) src)
  let s1 := { s0 with saf := { s0.saf with asked := true } }
  if !s1.is SAF_STAT.ACTIVE then s1.safActivate src code
  else match s1.saf.lead with
    | some k => s1.safJoin src code k
    | none => s1

/-- The supply-fail list starts: it replaces the contactor step of Safe-Off and Freeze (R461, R469). -/
def State.supplyFailList (s : State) : State :=
  let s1 := { s.drivesLow with saf := { s.saf with list := 2 } }
  s1.each 2 fun c t => if t.contactorOn c then (if t.seqOf c = 2 then t else t.setSeq c 1) else t.setSeq c 0

/-- A trip, shutdown or latch of a contactor channel requests Safe-Off (R393), and counts as opened where the sequencer
waits (R469). -/
def State.lswProtect (s : State) (n code : Nat) : State :=
  let s1 := s.safTripped n
  if s1.ownerOf n = 0 then s1.reqSafeOff 7 code else s1

end Sys2Proof.Machine
end

