-- ==== Sys2Proof/Machine/Topology.lean ====
section
/-! DEFINITION. What the root computes from the topology (spec/08_fabric.md, R184 to R188): levels, parents, routes and tables. A topology
holds the links of each node as it has reported them, the powerline as link 8. -/

namespace Sys2Proof.Machine

/-- The entry an address of the forwarding table reads after a reset of D8. -/
def fwdReset : Nat := 0x20FF

/-- An entry as its fields: primary, alternate, hop count, default flag. -/
def mkEntry (pri alt hops dflt : Nat) : Nat := pri % 16 + 16 * (alt % 16) + 256 * (hops % 32) + 8192 * (dflt % 2)

/-- A topology: each node with its links, as link and neighbour. -/
abbrev Topo := List (Nat × List (Nat × Nat))

/-- One pass over the topology: a node takes one more than the lowest level among its neighbours over the links allowed. -/
def levelPass (plc : Bool) (topo : Topo) (lv : List (Nat × Nat)) : List (Nat × Nat) :=
  topo.foldl (fun m p => p.2.foldl (fun m q =>
    if q.1 = 8 ∧ !plc then m
    else
      let ly := sparseGet 99 q.2 m
      if ly + 1 < sparseGet 99 p.1 m then sparsePut 99 p.1 (ly + 1) m else m) m) lv

/-- The levels of R184: over lanes first, and over the powerline where no path over lanes exists. -/
def fabLevels (topo : Topo) : List (Nat × Nat) :=
  let n := topo.length
  let lanes := (List.range n).foldl (fun m _ => levelPass false topo m) [(1, 0)]
  (List.range n).foldl (fun m _ =>
    (levelPass true topo m).foldl (fun a p => if sparseGet 99 p.1 lanes = 99 then sparsePut 99 p.1 p.2 a else a) m) lanes

/-- A node's parent: its neighbour of the next lower level with the lowest node ID, with the link to it; over a lane where there is one (R184). -/
def fabParent (lv : List (Nat × Nat)) (links : List (Nat × Nat)) (node : Nat) : Option (Nat × Nat) :=
  let l := sparseGet 99 node lv
  let near := links.filter fun q => sparseGet 99 q.2 lv + 1 == l
  (if near.any fun q => q.1 != 8 then near.filter fun q => q.1 != 8 else near).foldl (fun b q => match b with
    | none => some q
    | some r => if q.2 < r.2 then some q else b) none

/-- The links of a node. -/
def linksOf (topo : Topo) (n : Nat) : List (Nat × Nat) := (topo.find? fun p => p.1 == n).elim [] Prod.snd

/-- A link from a node to a neighbour is up: the neighbour has the lower level or, at equal level, the lower node ID (R184). -/
def upFrom (lv : List (Nat × Nat)) (x y : Nat) : Bool :=
  let a := sparseGet 99 x lv
  let b := sparseGet 99 y lv
  decide (b < a) || (b == a && decide (y < x))

/-- One pass over the topology: the fewest down links from each node to a destination. -/
def downPass (plc : Bool) (topo : Topo) (lv d : List (Nat × Nat)) : List (Nat × Nat) :=
  topo.foldl (fun m p => p.2.foldl (fun m q =>
    if (q.1 = 8 ∧ !plc) ∨ upFrom lv p.1 q.2 then m
    else
      let h := sparseGet 99 q.2 m
      if h + 1 < sparseGet 99 p.1 m then sparsePut 99 p.1 (h + 1) m else m) m) d

/-- The fewest down links from each node to a destination, over lanes alone or over the powerline too. -/
def downDist (plc : Bool) (topo : Topo) (lv : List (Nat × Nat)) (dst : Nat) : List (Nat × Nat) :=
  (List.range topo.length).foldl (fun m _ => downPass plc topo lv m) [(dst, 0)]

/-- Enters a link with its hops at its place: the fewer hops first, then the lower link number. -/
def linkInsert (a : Nat × Nat) : List (Nat × Nat) → List (Nat × Nat)
  | [] => [a]
  | b :: t => if a.2 < b.2 ∨ (a.2 = b.2 ∧ a.1 ≤ b.1) then a :: b :: t else b :: linkInsert a t

/-- The down links of a node that lead to a destination, each with the hops of its route, the shortest first and the lower link number before
the higher; over the powerline only where no path over lanes exists (R184). -/
def downLinks (topo : Topo) (lv : List (Nat × Nat)) (x dst : Nat) : List (Nat × Nat) :=
  let via := fun (plc : Bool) =>
    let d := downDist plc topo lv dst
    let l := ((linksOf topo x).filter fun q => (plc || q.1 != 8) && !upFrom lv x q.2 && decide (sparseGet 99 q.2 d < 99)).map fun q =>
      (q.1, sparseGet 99 q.2 d + 1)
    l.foldr linkInsert []
  if (via false).isEmpty then via true else via false

/-- The hops of a route from a node: down where it can, else up towards its parent; none where there is none. -/
def routeHops (topo : Topo) (lv : List (Nat × Nat)) (dst : Nat) : Nat → Nat → Option Nat
  | 0, _ => none
  | n + 1, x =>
    if x = dst then some 0
    else match downLinks topo lv x dst with
      | p :: _ => some p.2
      | [] => (fabParent lv (linksOf topo x) x).bind fun q => (routeHops topo lv dst n q.2).map (· + 1)

/-- The entry of a node's table for a destination (R184, R186, R187): the shortest route down with the next one as alternate, else by default
through the up link; a destination more than 24 links away is unreachable. -/
def tableEntry (topo : Topo) (lv : List (Nat × Nat)) (x dst : Nat) : Nat × Nat × Nat × Nat :=
  match routeHops topo lv dst 25 x with
  | none => (0xF, 0xF, 0, 0)
  | some h =>
    if 24 < h then (0xF, 0xF, 0, 0)
    else match downLinks topo lv x dst with
      | p :: q :: _ => (p.1, q.1, p.2, 0)
      | [p] => (p.1, 0xF, p.2, 0)
      | [] => (0xF, 0xF, h, 1)

/-- The table of a node: an entry for every other node, as node, primary, alternate, hop count and default flag. -/
def nodeTable (topo : Topo) (lv : List (Nat × Nat)) (x : Nat) : List (Nat × Nat × Nat × Nat × Nat) :=
  (topo.filter fun p => p.1 != x).map fun p => (p.1, tableEntry topo lv x p.1)

/-- The entries of a table as a bank holds them, written over a bank. -/
def bankLoad (l : List (Nat × Nat × Nat × Nat × Nat)) (bank : List (Nat × Nat)) : List (Nat × Nat) :=
  l.foldl (fun m e => sparsePut fwdReset (e.1 % 4096) (mkEntry e.2.1 e.2.2.1 e.2.2.2.1 e.2.2.2.2) m) bank

/-- The payload of a table-load frame: the level, the direction of each link, 1 up and 2 down, and the entries, each as its node and its word. The
layout is the model's (DESIGN CHOICE, log 124). -/
def tableFrame (level : Nat) (dirs : List (Nat × Nat)) (l : List (Nat × Nat × Nat × Nat × Nat)) : List Nat :=
  [level, dirs.length] ++ dirs.flatMap (fun d => [d.1, d.2]) ++
    l.flatMap fun e => leBytes 2 e.1 ++ leBytes 2 (mkEntry e.2.1 e.2.2.1 e.2.2.2.1 e.2.2.2.2)

/-- The parts of a list, of `n` each, in `fuel` parts at most. -/
def chunks {α : Type} (n : Nat) : Nat → List α → List (List α)
  | 0, _ => []
  | k + 1, l => if l.length ≤ n then [l] else l.take n :: chunks n k (l.drop n)

/-- The payloads that bring a table: 85 entries to a frame of at most 512 bytes (R173). -/
def tableFrames (level : Nat) (dirs : List (Nat × Nat)) (l : List (Nat × Nat × Nat × Nat × Nat)) : List (List Nat) :=
  (chunks 85 49 l).map fun c => tableFrame level dirs c

/-- The directions of a node's links. -/
def nodeDirs (topo : Topo) (lv : List (Nat × Nat)) (x : Nat) : List (Nat × Nat) :=
  ((linksOf topo x).map fun q => (q.1, if upFrom lv x q.2 then 1 else 2)).eraseDups

/-- The nodes from a node up to the root, without the root, each with the link down to the one before it. -/
def pathUp (topo : Topo) (lv : List (Nat × Nat)) : Nat → Nat → Nat → List (Nat × Nat)
  | 0, _, _ => []
  | n + 1, x, link =>
    if x = 1 then []
    else match fabParent lv (linksOf topo x) x with
      | none => [(x, link)]
      | some q => (x, link) :: pathUp topo lv n q.2 (((linksOf topo q.2).find? fun r => r.2 == x).elim 0xF Prod.fst)

/-- The first `k` links to a node are kept, and every link to another. -/
def keepLinks (node : Nat) : Nat → List (Nat × Nat) → List (Nat × Nat)
  | _, [] => []
  | k, q :: t => if q.2 ≠ node then q :: keepLinks node k t else if k = 0 then keepLinks node 0 t else q :: keepLinks node (k - 1) t

/-- The links of a list to a node. -/
def linksTo (node : Nat) (l : List (Nat × Nat)) : Nat := (l.filter fun q => q.2 == node).length

/-- A node's report replaces its links; a link that it lists no longer is not ACTIVE, and goes from the list of the node at its other end
(R184). -/
def topoReport (topo : Topo) (node : Nat) (links : List (Nat × Nat)) : Topo :=
  let old := linksOf topo node
  sparsePut [] node links (topo.map fun p => if linksTo p.1 links < linksTo p.1 old then (p.1, keepLinks node (linksTo p.1 links) p.2) else p)

/-- A joining node enters the topology with the links of its request, as its link, the neighbour's node and the neighbour's link, of which those
to nodes of the topology count; each neighbour has the link too (R180, R184). -/
def topoJoin (topo : Topo) (id : Nat) (links : List (Nat × Nat × Nat)) : Topo :=
  let near := links.filter fun q => topo.any fun p => p.1 == q.2.1
  if near.isEmpty then topo
  else near.foldl (fun t q =>
      sparsePut [] q.2.1 (((linksOf t q.2.1).filter fun r => r.1 == 8 && r.2 != id || r.1 != q.2.2) ++ [(q.2.2, id)]) t)
    (sparsePut [] id (near.map fun q => (q.1, q.2.1)) topo)

/-- The parent of a joining module (R184, R188): of the neighbours that its request names, as its link, their node and their link, the one
nearest to the root, then of the lowest node ID; a lane before the powerline. -/
def joinParent (lv : List (Nat × Nat)) (links : List (Nat × Nat × Nat)) : Option (Nat × Nat × Nat) :=
  let near := links.filter fun q => decide (sparseGet 99 q.2.1 lv < 99)
  let l := if near.any fun q => q.1 != 8 then near.filter fun q => q.1 != 8 else near
  l.foldl (fun b q => match b with
    | none => some q
    | some r =>
      let x := sparseGet 99 q.2.1 lv
      let y := sparseGet 99 r.2.1 lv
      if x < y ∨ (x = y ∧ q.2.1 < r.2.1) then some q else b) none

end Sys2Proof.Machine
end

