-- ==== Sys2Proof/Machine/LaneOps.lean ====
section
/-! DEFINITION. The Fabric's links, its endpoints, the forwarding table and the path of one frame (spec/08_fabric.md, R171 to R176, R182 to
R190). Link 8 is the powerline; a frame of the module's own comes from link 14. -/

namespace Sys2Proof.Machine

open R

/-! ### Bytes -/

/-- The byte `i` of a list, 0 where there is none. -/
def byteAt (l : List Nat) (i : Nat) : Nat := l.getD i 0 % 256

/-- The little-endian value of `n` bytes from byte `i`. -/
def bytesAt (l : List Nat) (i n : Nat) : Nat := ofLeBytes ((List.range n).map fun k => byteAt l (i + k))

/-! ### Links -/

/-- A lane is used (R171): enabled, Fn_LOS low, ACTIVE. -/
def State.laneUp (s : State) (n : Nat) : Bool :=
  bit (s.get FAB_CTRL.LANE_EN) n && !s.is FAB_LANE_STAT.LOS n && s.get FAB_LANE_STAT.STATE n == 3

/-- A lane's own state. -/
def State.lane (s : State) (n : Nat) : LaneX := sparseGet {} n s.fab.lanes

/-- Sets a lane's own state. -/
def State.setLane (s : State) (n : Nat) (x : LaneX) : State := { s with fab := { s.fab with lanes := sparsePut {} n x s.fab.lanes } }

/-- A powerline link is ACTIVE (R242). -/
def State.plcUp (s : State) : Bool := s.is FAB_CTRL.PLC_EN && s.plc.links.any fun p => p.2.active

/-- A link of the forwarding table is ACTIVE: a lane, or the powerline as 8. -/
def State.linkUp (s : State) (l : Nat) : Bool := if l = 8 then s.plcUp else decide (l < 8) && s.laneUp l

/-- The links that are ACTIVE. -/
def State.linksUp (s : State) : List Nat := (List.range 9).filter s.linkUp

/-- The direction of a link (R184): 0 none, 1 up, 2 down. -/
def State.linkDir (s : State) (l : Nat) : Nat := if l = 8 then s.fab.plcDir else s.get FAB_LANE_STAT.DIR l

/-- Sets the direction of a link. -/
def State.setDir (s : State) (l d : Nat) : State :=
  if l = 8 then { s with fab := { s.fab with plcDir := d } } else s.put FAB_LANE_STAT.DIR d l

/-- The module's up link: a lane before the powerline (R184, R190, R192). -/
def State.upLink (s : State) : Option Nat := s.linksUp.find? fun l => s.linkDir l == 1

/-- The time parent is the neighbour on the up link (R192). -/
def State.setParent (s : State) : State :=
  let p := s.upLink
  let s1 := s.each 8 fun n t => t.putb FAB_LANE_STAT.TPARENT (p == some n) n
  { s1 with fab := { s1.fab with plcParent := p == some 8 } }

/-! ### Endpoints and groups (R182, R183) -/

/-- The module has an endpoint in the role set in force (R20, R182). A group is configured while it has a rating, a point while one of its
channels is assigned. -/
def State.hasEndpoint (s : State) (ep : Nat) : Bool :=
  let grp := fun (g : Nat) => s.get PE_GRP_RATING.I_GRP_MAX g != 0
  if ep ≤ 3 then true
  else if ep = 4 then bit s.running 4
  else if 0x10 ≤ ep ∧ ep ≤ 0x1D then bit s.running (ep - 0x10)
  else if 0x20 ≤ ep ∧ ep ≤ 0x27 then bit s.running 1 && grp (ep - 0x20)
  else if 0x28 ≤ ep ∧ ep ≤ 0x29 then bit s.running 8 && s.connUsed (ep - 0x28)
  else if 0x30 ≤ ep ∧ ep ≤ 0x37 then bit s.running 6 && s.is MET_PT_CFG.EN (ep - 0x30)
  else if 0x40 ≤ ep ∧ ep ≤ 0x7F then bit s.running 2 && s.get LE_L_STAT.STATE (ep - 0x40) != 0
  else if 0x80 ≤ ep ∧ ep ≤ 0xDF then bit s.running 1 && grp (s.get PE_PH_CFG.GRP (ep - 0x80))
  else if 0x100 ≤ ep ∧ ep ≤ 0x4FF then s.role 3 && decide (ep - 0x100 < 16 * s.get CS_CFG2.N_CFG)
  else false

/-- The module populates an endpoint now: while a role apply runs it has withdrawn every endpoint that is not populated always (R24;
log 55). -/
def State.populated (s : State) (ep : Nat) : Bool := s.hasEndpoint ep && (decide (ep ≤ 3) || !s.is SYS_ROLE_CMD.APPLY)

/-- The module is a member of a group (R183). -/
def State.inGroup (s : State) (g : Nat) : Bool :=
  if g = 0 then true
  else if g ≤ 4 then s.role (g - 1)
  else if g = 5 then s.get SYS_ROLE.ROLE_ACT == 0
  else if 0x10 ≤ g then (List.range 8).any fun k =>
    (s.is FAB_GRP.EN_A k && s.get FAB_GRP.GRP_A k == g) || (s.is FAB_GRP.EN_B k && s.get FAB_GRP.GRP_B k == g)
  else false

/-! ### Forwarding (R184 to R190) -/

/-- The urgent frames that wait at an egress (R176): a lane's, or a powerline link's. -/
def State.urgentAt (s : State) (l : Nat) (stn : Option Nat) : Nat :=
  if l = 8 then (match stn with
    | some n => ((sparseGet ({} : PlcLink) n s.plc.links).queue.filter fun q => q.1).length
    | none => 0)
  else ((s.lane l).queue.filter fun e => e.f.urg == 1 && e.f.vc == 0).length

/-- The module's own responses that have not left it (R175). -/
def State.respPending (s : State) : Nat :=
  (s.fab.wait.filter fun p => p.2.kind == .response || p.2.kind == .actionResponse).length +
    (s.fab.inject.filter fun f => f.vc % 2 == 1).length +
    (s.fab.lanes.foldl (fun n p => n + (p.2.queue.filter fun e => e.src == 14 && e.f.vc % 2 == 1).length) 0)

/-- An entry of a bank: 0 in force, 1 shadow. -/
def State.fwdEntry (s : State) (bank node : Nat) : Nat :=
  sparseGet fwdReset node (if bank = 0 then s.fab.fwd0 else s.fab.fwd1)

/-- The counters of R175 to R190 that a discard counts in: 0 `STALL`, 1 `EPOCH`, 2 `UNREACH`, 3 `HOPORI`, 4 `RSP_DROP`. Event
0x060B, at most once per second, for those that the fault table names. -/
def State.discard (s : State) (k : Nat) : State :=
  let s1 := match k with
    | 0 => s.inc FAB_DROP0.STALL
    | 1 => s.inc FAB_DROP0.EPOCH
    | 2 => s.inc FAB_DROP0.UNREACH
    | 3 => s.inc FAB_DROP0.HOPORI
    | _ => s.inc FAB_DROP1.RSP_DROP
  if k = 2 ∨ s1.fab.discAt = some s1.rtc then s1
  else { s1 with fab := { s1.fab with discAt := some s1.rtc } }.log 0x060B WARNING [k]

/-- The header of a frame as its twelve bytes (R173). -/
def frameHeader (f : FabFrame) : List Nat :=
  [0x40 + 32 * (f.dn % 2) + f.ty % 16, 128 * (f.vc % 2) + 64 * (f.urg % 2) + 32 * (f.epo % 2) + f.hops % 32]
    ++ leBytes 3 (f.dst % 2 ^ 23) ++ leBytes 3 (f.src % 2 ^ 23) ++ leBytes 2 (f.pay.length % 1024) ++ leBytes 2 f.seq

/-- The whole frame with its CRC-32. -/
def frameBytes (f : FabFrame) : List Nat :=
  let l := frameHeader f ++ f.pay.map (· % 256)
  l ++ leBytes 4 (crc32 l)

/-- The first twenty bytes of a reset command's payload: the target's serial number, the sender's stamp, the low half of its serial number (R200). -/
def resetHead (serial stamp low : Nat) : List Nat := leBytes 8 serial ++ leBytes 8 stamp ++ leBytes 4 low

/-- The tag of a reset command under a key (R200): the IV is bytes 8 to 19 of the payload, the additional data the header without `DN`, `EPO` and
`HOPS` and then bytes 0 to 19. -/
def resetTag (key : List Nat) (dst src seq serial stamp low : Nat) : List Nat :=
  let head := resetHead serial stamp low
  let f : FabFrame := { dn := 0, ty := 9, vc := 0, urg := 1, epo := 0, hops := 0, dst, src, seq, pay := List.replicate 36 0 }
  gcmTag key (head.drop 8) (frameHeader f ++ head)

/-- A powerline link. -/
def State.plcLink (s : State) (n : Nat) : PlcLink := sparseGet {} n s.plc.links

/-- Sets a powerline link. -/
def State.setPlc (s : State) (n : Nat) (x : PlcLink) : State := { s with plc := { s.plc with links := sparsePut {} n x s.plc.links } }

/-- The station of the powerline for a frame (R242): the coordinator itself, 0, from a station; from the coordinator 0x3F for what is not for one
node, else the station that is the node or behind which it has been heard. For a node never heard it is the station whose join request passed
last, for the root all stations (DESIGN CHOICE, log 125). -/
def State.plcStation (s : State) (f : FabFrame) : Option Nat :=
  let node := f.dst / 2 ^ 11
  if s.get PLC_STAT.STATE ≠ 5 then some 0
  else if f.ty = 4 ∨ node = 0 then some 0x3F
  else match s.plc.links.find? fun p => decide (p.1 ≠ 0x3F) && (p.2.node == node || p.2.nodes.contains node) with
    | some p => some p.1
    | none => if node = 1 then some 0x3F else s.plc.asked

/-- The coordinator notes the nodes that a station's frames come from, and the station whose join request passes (R242; log 125). -/
def State.plcLearn (s : State) (stn : Nat) (f : FabFrame) : State :=
  let node := f.src / 2 ^ 11
  let s1 := if f.ty = 5 then { s with plc := { s.plc with asked := some stn } } else s
  if s.get PLC_STAT.STATE ≠ 5 ∨ node = 0 ∨ (s.plcLink stn).nodes.contains node then s1
  else
    { s1 with plc := { s1.plc with links := s1.plc.links.map fun p =>
      (p.1, { p.2 with nodes := if p.1 = stn then node :: p.2.nodes else p.2.nodes.filter fun n => n != node }) } }

/-- A frame waits in the queue of a powerline link (R244, R245): a newer ledger report of a source replaces the older one. -/
def State.plcQueue (s : State) (n : Nat) (f : FabFrame) : State :=
  let x := s.plcLink n
  let u := f.urg == 1 && f.vc == 0
  let report := f.ty == 1 && bytesAt f.pay 0 3 == 0x010004
  let keep := if report then x.queue.filter fun q => !(bytesAt q.2.2 5 3 == f.src && bytesAt q.2.2 12 3 == 0x010004) else x.queue
  s.setPlc n { x with queue := keep ++ [(u, f.vc % 2, frameBytes f)] }

/-- The bank that a frame's `EPO` selects (R189): the one in force, or the shadow while a switch is armed. -/
def State.bankOf (s : State) (epo : Nat) : Option Nat :=
  if epo = s.get FAB_STAT.EPOCH % 2 then some 0 else if s.fab.switch.isSome then some 1 else none

/-- An urgent frame (R173): on VC0. -/
def Egr.urgent (e : Egr) : Bool := e.f.urg == 1 && e.f.vc == 0

/-- The credits of 64 bytes that a whole frame takes (R174). -/
def Egr.credits (e : Egr) : Nat := (e.f.pay.length + 79) / 64

/-- The neighbour's credits cover a frame; sixteen of VC0 are for urgent ones (R174). -/
def LaneX.covers (x : LaneX) (e : Egr) : Bool :=
  if e.f.vc % 2 = 1 then decide (e.credits ≤ x.cred1)
  else if e.urgent then decide (e.credits ≤ x.cred0) else decide (e.credits + 16 ≤ x.cred0)

/-- The frame that the egress sends next (R174): an urgent one, then VC1 and other VC0 frames alternately. -/
def LaneX.pick (x : LaneX) : Option Egr :=
  let head := fun (p : Egr → Bool) => match x.queue.find? p with
    | some e => if x.covers e then some e else none
    | none => none
  let v1 := head fun e => e.f.vc % 2 == 1
  let v0 := head fun e => e.f.vc % 2 == 0 && !e.urgent
  (head Egr.urgent).or (if x.turn then v1.or v0 else v0.or v1)

/-- The newest entries of the replay buffer that fit its 16 KiB. -/
def replayFit : Nat → List (Nat × List Nat) → List (Nat × List Nat)
  | _, [] => []
  | room, p :: t => if p.2.length ≤ room then p :: replayFit (room - p.2.length) t else []

/-- A frame as it leaves on a link: `HOPS` counts up where it is forwarded, `DN` is set on a down link (R185, R187). -/
def State.leaving (s : State) (e : Egr) (l : Nat) : FabFrame :=
  { e.f with dn := if s.linkDir l == 2 then 1 else e.f.dn, hops := if e.src = 14 then e.f.hops else e.f.hops + 1 }

/-- An idle egress sends its next frame, 8 bytes in 25.6 ns, with the link sequence number before it (R171, R172, R174); a frame whose epoch is
gone is discarded (R189). -/
def State.laneServe (s : State) (l : Nat) : State :=
  let x := s.lane l
  match x.pick with
  | none => s
  | some e =>
    if x.busy ≠ 0 ∨ !s.laneUp l then s
    else
      let y := { x with queue := x.queue.erase e }
      if (s.bankOf e.f.epo).isNone then (s.setLane l y).discard 1
      else
        let b := frameBytes (s.leaving e l)
        let v1 := e.f.vc % 2 == 1
        (s.setLane l { y with
          busy := 3200 * b.length, seq := x.seq + 1, replay := replayFit 16384 ((x.seq, b) :: x.replay)
          cred0 := if v1 then x.cred0 else x.cred0 - e.credits, cred1 := if v1 then x.cred1 - e.credits else x.cred1
          turn := if e.urgent then x.turn else !v1 }).emit .forwarded l (x.seq :: b)

/-- A frame goes to a link: one that would leave with `HOPS` above 24 or turn from down to up is discarded (R185, R187). An urgent frame that
arrives at an egress with 24 urgent frames queued goes on as an ordinary one (R176). An idle lane with credits for it sends it at once; else
it is stored (R174). -/
def State.sendOn (s : State) (f : FabFrame) (l urgent src : Nat) : State :=
  let e : Egr := ⟨f, src⟩
  if f.dn = 1 ∧ s.linkDir l = 1 then s.discard 3
  else if 24 < (s.leaving e l).hops then s.discard 3
  else
    let demote := e.urgent && decide (24 ≤ max urgent (s.urgentAt l (s.plcStation f)))
    let d : Egr := if demote then ⟨{ f with urg := 0 }, src⟩ else e
    let s1 := s.when demote fun t => t.inc FAB_DROP1.URG_DEMOTE
    if l = 8 then (match s1.plcStation d.f with | some n => s1.plcQueue n (s1.leaving d l) | none => s1.discard 2)
    else (s1.setLane l { s1.lane l with queue := (s1.lane l).queue ++ [d] }).laneServe l

/-- The module delivers a frame to one of its endpoints; an endpoint it does not populate refuses it (R20), with a response that waits at the source; beyond 256 pending
responses, those the command tells of or those the module holds, it is discarded (R175). -/
def State.deliver (s : State) (f : FabFrame) (ep pending : Nat) : State :=
  if f.vc = 0 ∧ 256 ≤ max pending s.respPending then s.discard 4
  else if s.populated ep then s.emit .delivered ep (f.src :: f.ty :: f.pay)
  else if f.ty = 1 then { s with fab := { s.fab with wait := s.fab.wait ++ [(false, (⟨.response, f.src, [3]⟩ : Out))] } }.log 0x0609 NOTICE ([3] ++ leBytes 2 ep)
  else s.emit .delivered ep (f.src :: f.ty :: f.pay)

/-- A link is ACTIVE for a frame: of the powerline the link to the station that the frame goes to (R190, R242). -/
def State.linkFor (s : State) (l : Nat) (f : FabFrame) : Bool :=
  if l = 8 then s.plcUp && (match s.plcStation f with
    | some n => n == 0x3F || (s.plcLink n).active
    | none => false)
  else s.linkUp l

/-- A frame goes by the entry of its node in a bank: to the primary link or its alternate, or, marked default, to the up link (R186, R190). A
module that has joined carries no transit before the next epoch (R188). -/
def State.byEntry (s : State) (bank : Nat) (f : FabFrame) (urgent src : Nat) : State :=
  let e := s.fwdEntry bank (f.dst / 2 ^ 11)
  if s.fab.leaf && src != 14 then s.discard 2
  else if bit e 13 then
    if f.dn = 1 then s.discard 2
    else match s.upLink with
      | some l => s.sendOn f l urgent src
      | none => s.discard 2
  else if s.linkFor (e % 16) f then s.sendOn f (e % 16) urgent src
  else if s.linkFor (e / 16 % 16) f then s.sendOn f (e / 16 % 16) urgent src
  else s.discard 2

/-- The path of one frame, which the module itself injects or forwards (R183, R185 to R190). Entry 0x000 governs group frames on their way up to
the root (R186). -/
def State.routeFrame (s : State) (f : FabFrame) (urgent pending src : Nat) : State :=
  match s.bankOf f.epo with
  | none => s.discard 1
  | some bank =>
    let node := f.dst / 2 ^ 11
    let ep := f.dst % 2 ^ 11
    if f.ty = 0 ∨ 0xA ≤ f.ty then s
    else if f.ty = 4 then s.deliver f 0 pending
    else if node = 0 then
      if f.ty ≠ 1 ∧ f.ty ≠ 2 then s
      else if f.dn = 0 ∧ !s.is FAB_STAT.ROOT then s.byEntry bank f urgent src
      else
        let dest := if f.ty = 2 then bytesAt f.pay 8 2 % 2 ^ 11 else bytesAt f.pay 0 2 % 2 ^ 11
        let s1 := if s.inGroup ep then s.deliver f dest pending else s
        (s1.linksUp.filter fun l => s1.linkDir l == 2).foldl (fun t l => t.sendOn f l urgent src) s1
    else if node = s.get FAB_STAT.NODE_ID then s.deliver f ep pending
    else s.byEntry bank f urgent src

/-- A frame that waited at the egress of a link that is DOWN, where `dir` was its direction, takes its entry's alternate (R190). A copy of a group
frame on its way down has no other link, and a frame of that one link none either. -/
def State.reRoute (s : State) (f : FabFrame) (dir src : Nat) : State :=
  match s.bankOf f.epo with
  | none => s.discard 1
  | some bank =>
    if f.ty = 4 then s
    else if f.dst / 2 ^ 11 = 0 ∧ dir = 2 then s.discard 2
    else s.byEntry bank f 0 src

/-! ### The module's own frames (R173, R176, R178, R189) -/

/-- `TYPE` of a frame of the module's own (R173). -/
def typeOf : Sent → Nat
  | .action => 2 | .response | .actionResponse => 3 | .announce => 4 | .joinRequest | .idGrant => 5
  | .topology => 6 | .tableLoad => 7 | .epochChange => 8 | .resetCommand => 9 | _ => 1

/-- The frame that carries something of the module's own (R173): responses on VC1; its `SEQ`, whose count the spec does not state, is a free
value. -/
def State.ownFrame (s : State) (urgent : Bool) (k : Sent) (dst seq : Nat) (data : List Nat) : FabFrame :=
  { dn := 0, ty := typeOf k, vc := if typeOf k = 3 then 1 else 0, urg := if urgent then 1 else 0, epo := s.get FAB_STAT.EPOCH % 2, hops := 0
    dst, src := s.get FAB_STAT.NODE_ID * 2 ^ 11, seq, pay := data }

/-- A frame of the module's own takes its path: an announce and a join request over the link named, any other by the forwarding table. -/
def State.ownRoute (s : State) (urgent : Bool) (k : Sent) (dst : Nat) (data : List Nat) : State :=
  let r := s.free 16
  let t := r.2
  match k with
  | .announce => t.sendOn (t.ownFrame urgent k 0 r.1 data) dst 0 14
  | .joinRequest => t.sendOn (t.ownFrame urgent k (2 ^ 11) r.1 data) dst 0 14
  | _ => t.routeFrame (t.ownFrame urgent k dst r.1 data) 0 0 14

/-- The module injects a frame of its own: none while injection is held, and at most 4 urgent ones per 100 µs. The others wait at the source
(R176, R189). What it carries is reported as sent; the frame itself takes its turn at the egress (R174). -/
def State.srcSend (s : State) (urgent : Bool) (k : Sent) (dst : Nat) (data : List Nat) : State :=
  let f := s.fab
  if f.hold || (urgent && decide (4 ≤ f.ages.length)) then { s with fab := { f with wait := f.wait ++ [(urgent, ⟨k, dst, data⟩)] } }
  else ({ s with fab := { f with ages := if urgent then 0 :: f.ages else f.ages } }.ownRoute urgent k dst data).emit k dst data

/-! ### This receiver's buffers (R174) -/

/-- The frames of a data channel of a lane that this receiver still holds, as the credits each takes: those that wait at an egress. -/
def State.rxHeld (s : State) (l vc : Nat) : Nat :=
  let held := (List.range 8).flatMap fun k => ((s.lane k).queue.filter fun e => e.src == l && e.f.vc % 2 == vc).map fun e =>
    (e.f.src, e.f.seq, e.f.dst, e.credits)
  held.eraseDups.foldl (fun n p => n + p.2.2.2) 0

/-- The credits given to the neighbour cover a frame: 8 KiB less what is held, sixteen of VC0 for urgent frames. -/
def State.rxRoom (s : State) (l : Nat) (e : Egr) : Bool :=
  decide (s.rxHeld l (e.f.vc % 2) + e.credits + (if e.f.vc % 2 = 0 && !e.urgent then 16 else 0) ≤ 128)

end Sys2Proof.Machine
end

