-- ==== Sys2Proof/Machine/LaunchOps.lean ====
section
/-! DEFINITION. The queue of launched actions (spec/08_fabric.md, R88, R92, R194 to R197): its order, what is due, and the
report to the sender. -/

namespace Sys2Proof.Machine

open R

/-- The node of a source address (R5). -/
def La.node (a : La) : Nat := a.src / 2 ^ 11

/-- The order of R196: target, endpoint, source node, identifier; then, which R196 leaves open, the source endpoint (log 108). -/
def La.before (a b : La) : Bool :=
  decide (a.target < b.target) || (a.target == b.target && (decide (a.ep < b.ep) || (a.ep == b.ep &&
    (decide (a.node < b.node) || (a.node == b.node && (decide (a.actId < b.actId) || (a.actId == b.actId && decide (a.src < b.src))))))))

/-- Enters an action at its place in the queue. -/
def La.insert (a : La) : List La → List La
  | [] => [a]
  | b :: t => if a.before b then a :: b :: t else b :: La.insert a t

/-- A renumbering, a change of `NCAR` or an offset commit falls at this instant: it comes before launched-action strobes (R101). -/
def State.laWaits (s : State) : Bool :=
  s.renumDue || (List.range 8).any fun g => s.ncarDue g || s.respaceDue g || s.ofsDue g

/-- An action can act now (R88, R92, R164): the stamp has reached its target, or a renumbering has skipped over it; one of the Loop Engine acts
at a sample strobe only. -/
def State.laReady (s : State) (a : La) : Bool :=
  (decide (a.target ≤ s.stamp) || a.late) && (a.ep != 0x012 || s.atCarrier s.sRate 0)

/-- A section reload due at an angle comes before the launched actions of that angle and of later ones (R482, R493). -/
def State.reloadFirst (s : State) (a : La) : Bool :=
  match s.upd.reload with
  | some r => s.runs 3 && decide (r.target ≤ s.stamp) && decide (r.target ≤ a.target)
  | none => false

/-- The first action of the queue that can act now (R196). -/
def State.laDue (s : State) : Option La := if s.laWaits then none else s.fab.la.find? fun a => s.laReady a && !s.reloadFirst a

/-- The 16-byte response of R197 to the sender, on VC1. -/
def State.laRespond (s : State) (src actId code : Nat) : State :=
  s.srcSend false .actionResponse src (leBytes 4 actId ++ [code, 0, 0, 0] ++ leBytes 8 s.stamp)

/-- An action is refused (R195): the response and event 0x0609. -/
def State.laRefuse (s : State) (src ep actId code : Nat) : State :=
  ((s.laRespond src actId code).inc FAB_LA_CNT.REFUSED).log 0x0609 NOTICE ([code] ++ leBytes 2 ep ++ [0] ++ leBytes 4 actId)

/-- The outcome of an executed action (R197): 0x2 late, 0x9 while `ALIGNED` was 0, else 0x1. -/
def State.laCode (s : State) (a : La) : Nat := if a.late then 2 else if s.is TB_STAT.ALIGNED then 1 else 9

/-- Takes an executed action from the queue, remembers it and reports it. -/
def State.laFinish (s : State) (a : La) : State :=
  let c := s.laCode a
  let s0 := { s with fab := { s.fab with la := s.fab.la.erase a, done := ((a.src, a.actId) :: s.fab.done).take 64 } }
  let s1 := (s0.put FAB_LA_CFG.LA_QUSE s0.fab.la.length).inc FAB_LA_CNT.EXEC
  let s2 := if c = 1 ∧ a.ack = 0 then s1 else s1.laRespond a.src a.actId c
  if c = 1 then s2 else s2.log 0x060A WARNING [c]

/-- Runs the operation of the action whose strobe has come, where it names this endpoint and operation (R196). -/
def State.laRun (s : State) (ep op : Nat) (g : La → State → State) : State :=
  match s.laDue with
  | some a => if a.ep = ep ∧ a.op = op then (g a s).laFinish a else s
  | none => s

/-- A renumbering has moved the stamp forward: a waiting action whose target was skipped over runs late (R92). -/
def State.laRenumber (s : State) (old new : Nat) : State :=
  { s with fab := { s.fab with la := s.fab.la.map fun a =>
      { a with late := a.late || (decide (old < a.target) && decide (a.target < new)) } } }

end Sys2Proof.Machine
end

