-- ==== Sys2Proof/Machine/TimeOps.lean ====
section
/-! DEFINITION. The Timebase's shared operations (spec/05_grid_angle_timebase.md): the accumulator and the stamp keeper of one
base period, the slew profile, the restart value, the states of R87 and the offset commits of R100. Frequencies are in 10 pHz
and errors in 10^-20 of 1/16 au, in which one base period is exact. -/

namespace Sys2Proof.Machine

open R

/-- Frequency units in one mHz. -/
def mHz : Nat := 10 ^ 8

/-- The nominal frequency of `NOM_F`. -/
def State.nominal (s : State) : Nat := if s.get TB_CTRL.NOM_F = 1 then 60000 * mHz else 50000 * mHz

/-- `INC` for a frequency: au per base period with 28 fractional bits, the nearest (R84). -/
def incOf (f : Nat) : Nat := (2 * f * 2 ^ 54 + 10 ^ 20) / (2 * 10 ^ 20)

/-- Sets f_loc, held within 45 Hz to 66 Hz (R89), and what shows it. -/
def State.setFloc (s : State) (f : Nat) : State :=
  let v := clampN (45000 * mHz) (66000 * mHz) f
  (({ s with tb := { s.tb with floc := v } }.put TB_FREQ_LOC.FLOC ((v + mHz / 2) / mHz)).put TB_INC.INC (incOf v))

/-- Sets the error e, given in 1/16 au, and what shows it (R90). -/
def State.setErr (s : State) (e : Int) : State :=
  { s with tb := { s.tb with err := e * 10 ^ 20 } }.puti TB_ERR.ERR e

/-- The source in use is `src`, in LOCKED or SLEW. -/
def State.tbUses (s : State) (src : Nat) : Bool := s.get TB_STAT.SRC == src && (s.get TB_STAT.STATE == 2 || s.get TB_STAT.STATE == 3)

/-- Sets the local stamp and clears its fraction. -/
def State.setStamp (s : State) (v : Nat) : State :=
  { s with tb := { s.tb with frac := 0 } }.put2 TB_STAMP_LO.STAMP TB_STAMP_HI.STAMP (v % 2 ^ 64)

/-- Puts the Timebase into a state of R87; `ALIGNED` is 1 in LOCKED only (R88). -/
def State.tbState (s : State) (st : Nat) : State := (s.put TB_STAT.STATE st).putb TB_STAT.ALIGNED (st == 2)

/-- A source comes into use, 0 none: it has been heard, its frequency is to be measured anew, and the first angle pulse after it is taken is
accepted wherever it falls (R103). -/
def Tb.sourced (t : Tb) (n : Nat) : Tb :=
  { t with apiFirst := n == 4, srcAt := none, srcN := 0, heard := if n = 0 then t.heard else setBit t.heard n }

/-- The frequency of a source whose stamp has gone from `p` to `pos`, in 1/16 au, in `n` base periods; none where that is no frequency a
grid may have, as where the source has been renumbered. -/
def srcFreq (p pos n : Nat) : Option Nat :=
  let f := (pos + 2 ^ 68 - p) % 2 ^ 68 * 10 ^ 20 / (n * 2 ^ 30)
  if 0 < n ∧ 45000 * mHz ≤ f ∧ f ≤ 66000 * mHz then some f else none

/-- A source is heard at its stamp `pos`, in 1/16 au. Where it is the source in use its frequency since it was last heard is f_src (R89;
DESIGN CHOICE, log 134). -/
def Tb.hear (t : Tb) (src pos : Nat) (used : Bool) : Tb :=
  let h := setBit t.heard src
  if !used then { t with heard := h }
  else match t.srcAt with
    | none => { t with heard := h, srcAt := some pos, srcN := 0 }
    | some p => if t.srcN = 0 then t else { t with heard := h, srcAt := some pos, srcN := 0, fsrc := (srcFreq p pos t.srcN).getD t.fsrc }

/-- Sets the source in use; the Powerline shows whether beacons are (PLC_STAT). -/
def State.setSrc (s : State) (n : Nat) : State :=
  ({ s with tb := s.tb.sourced n }.put TB_STAT.SRC n).putb PLC_STAT.TIME_SRC (n == 3)

/-- The ready bits of the subsystems that run the firmware of a unit (R471): 0 APP, 1 MET, 2 FAB, 3 COM, 4 LE, 5 FIO, 6 KV. -/
def unitReady : Nat → Nat
  | 0 => 0x10 | 1 => 0xC0 | 2 => 0x8 | 3 => 0x520 | 4 => 0x4 | 5 => 0xA00 | 6 => 0x1000
  | _ => 0

/-- A unit all of whose subsystems that run are ready raises `MINSEC` to the security version of its bank (R474). -/
def State.minsecRaise (s : State) (u : Nat) : State :=
  if Nat.land (unitReady u) s.running &&& s.get SYS_READY.RDY = Nat.land (unitReady u) s.running then
    s.put UPD_FW_MINSEC.MINSEC (max (s.get UPD_FW_MINSEC.MINSEC u) (s.get UPD_FW_VER.SECVER u)) u
  else s

/-- Steps 10 and 11 of R73 complete as the Fabric and the Timebase are ready. -/
def State.stepShow (s : State) : State :=
  let on := fun (i : Nat) => bit (s.get SYS_READY.RDY) i
  match s.get SYS_BOOT_STAT.STEP with
  | 9 => if on 3 then s.put SYS_BOOT_STAT.STEP (if on 0 then 11 else 10) else s
  | 10 => if on 0 then s.put SYS_BOOT_STAT.STEP 11 else s
  | _ => s

/-- Sets a bit of `RDY` and, where it is the Event Recorder's, releases the records of R78. A bit that a failing item holds
clear stays clear (R74). -/
def State.setReady (s : State) (i : Nat) : State :=
  if bit s.boot.block i || bit (s.get SYS_READY.RDY) i then s
  else
    let s1 := s.put SYS_READY.RDY (setBit (s.get SYS_READY.RDY) i)
    let s2 := s1.each 7 fun u t => if bit (unitReady u) i then t.minsecRaise u else t
    if i = 13 then s2.releaseHold else s2.stepShow

/-- The tolerance of a source in 1/16 au (R87): 1 grid, 2 fabric, 3 powerline, 4 angle pulse. -/
def State.tbTol (s : State) (src : Nat) : Nat :=
  if src = 2 ∨ src = 3 then s.get TB_FOLLOW.FOL_TOL else 16 * s.get TB_GRID_TOL.LOCK_TOL

/-- A source is enabled and in the list of R85 for this module. -/
def State.srcAllowed (s : State) (src : Nat) : Bool :=
  decide (1 ≤ src) && decide (src ≤ 4) && bit (s.get TB_CTRL.SRC_EN) (src - 1) &&
    (if s.is TB_STAT.ROOT then src == 1 || src == 4 else src != 1)

/-- The cycle number of the restart value (R97). -/
def State.restartCycle (s : State) : Nat :=
  let last := s.get2 TB_LAST_STAMP_LO.LAST TB_LAST_STAMP_HI.LAST
  if last = 0 then 1
  else
    let el := if !s.is SYS_TIME_STAT.RTC_SET then 946728000 else s.rtc - s.keep.commitRtc
    last / 2 ^ 24 + el * 66 + 1

/-- Event 0x020E: the cycle number of `TB_LAST_STAMP` and the new one (R97). -/
def State.logNumbering (s : State) (new : Nat) : State :=
  s.log 0x020E NOTICE (leBytes 5 (s.get2 TB_LAST_STAMP_LO.LAST TB_LAST_STAMP_HI.LAST / 2 ^ 24) ++ leBytes 5 new)

/-- The Timebase enters HOLDOVER: no source, the angle moves to nominal (R87, R91). -/
def State.tbHoldover (s : State) : State :=
  let s1 := ((s.tbState 4).setSrc 0).put TB_HOLD.HOLD_CYC 0
  { s1 with tb := { s1.tb with fsrc := s1.nominal } }

/-- The source in use is no longer in the list of R85: its bit of `SRC_EN` has been cleared, or the module has become or ceased to be time
root. It goes to HOLDOVER without an event, which R104 gives to a source that is lost (DEDUCED, log 102). -/
def State.srcCheck (s : State) : State :=
  let st := s.get TB_STAT.STATE
  if (st = 2 ∨ st = 3) ∧ !s.srcAllowed (s.get TB_STAT.SRC) then s.tbHoldover else s

/-- The amplitudes of the lines, which no command states: free values; line A alone in one-line mode. -/
def State.ampShow (s : State) : State :=
  let a := s.free 10
  let b := a.2.free 10
  let c := b.2.free 10
  let t := c.2.put TB_AMP.VA a.1
  if t.is TB_CTRL.LINES then (t.put TB_AMP.VB b.1).put TB_AMP.VC c.1 else (t.put TB_AMP.VB 0).put TB_AMP.VC 0

/-- The sensed angle with `SENSE_DLY`, in 10 ns and held at 6,500 (log 9), converted to au at a frequency in mHz (R86). -/
def State.compensated (s : State) (v f : Nat) : Nat := v + min 6500 (s.get TB_GRID_TOL.SENSE_DLY) * f * 2 ^ 24 / 10 ^ 11

/-- A grid that qualifies is measured: its frequency, its amplitudes, and the grid angle minus the local angle (R85). -/
def State.gridSeen (s : State) (v f : Nat) : State :=
  let s1 := (s.put TB_STAT.GRID_OK 1).put TB_FREQ_GRID.FGRID f
  (s1.puti TB_FOLLOW.GDIFF (toSigned 24 (v + 2 ^ 64 - s1.stamp) / 256)).ampShow

/-- A measurement of the grid: where it is the source followed, f_src and the error follow it (R86, R90). -/
def State.gridFollow (s : State) (v f : Nat) : State :=
  let s1 := s.gridSeen v f
  if s1.get TB_STAT.SRC == 1 && (s1.get TB_STAT.STATE == 2 || s1.get TB_STAT.STATE == 3) then
    ({ s1 with tb := { s1.tb with fsrc := f * mHz } }).setErr (toSigned 24 (v + 2 ^ 64 - s1.stamp) * 16)
  else s1

/-- Grid lost: what shows that the grid qualifies is cleared. -/
def State.gridGone (s : State) : State :=
  (((s.put TB_STAT.GRID_OK 0).put TB_FREQ_GRID.FGRID 0).put TB_FOLLOW.GDIFF 0).put TB_STAT.GRID_LOST_SEEN 1

/-! ### Offsets (R99, R100) -/

/-- The shadow offset of a phase with its group's: o of R99. -/
def State.shadowOfs (s : State) (n : Nat) : Nat :=
  (s.get TB_GRP_OFS.GOFS (s.get PE_PH_CFG.GRP n) + s.get TB_PH_OFS.POFS n) % 2 ^ 20

/-- Every active offset is set equal to its shadow at once (R100). -/
def State.ofsStart (s : State) : State :=
  let s1 := s.each 8 fun g t =>
    let v := t.get TB_GRP_OFS.GOFS g
    { t with tb := { t.tb with gTgt := sparsePut 0 g v t.tb.gTgt } }.put TB_GRP_OFS_ACT.GOFS_ACT v g
  s1.each 96 fun n t =>
    let v := t.shadowOfs n
    { t with tb := { t.tb with pTgt := sparsePut 0 n v t.tb.pTgt } }.put TB_PH_OFS_ACT.POFS_ACT v n

/-- The groups a commit affects: those with a shadow that differs from where its active offset is or is going; a commit that changes nothing
affects none and `PEND` stays 0 (DESIGN CHOICE, log 120). -/
def State.ofsAffected (s : State) : Nat :=
  (List.range 8).foldl (fun m g =>
    if s.get TB_GRP_OFS.GOFS g != sparseGet 0 g s.tb.gTgt ||
        (s.phasesOf g).any (fun n => s.shadowOfs n != sparseGet 0 n s.tb.pTgt) then setBit m g else m) 0

/-- Arms a commit for a set of groups: at once, or at a stamp (R100). A pending one is replaced. -/
def State.ofsArm (s : State) (groups : Nat) (at_ : Option Nat) : State :=
  if groups = 0 then { s with tb := { s.tb with commit := none, left := 0 } }.put TB_OFS_CTRL.PEND 0
  else { s with tb := { s.tb with commit := some at_, left := groups } }.put TB_OFS_CTRL.PEND 1

/-- A group takes its shadows: the active offsets move towards them from now on. -/
def State.ofsTake (s : State) (g : Nat) : State :=
  (s.phasesOf g).foldl (fun t n => { t with tb := { t.tb with pTgt := sparsePut 0 n (t.shadowOfs n) t.tb.pTgt } })
    { s with tb := { s.tb with gTgt := sparsePut 0 g (s.get TB_GRP_OFS.GOFS g) s.tb.gTgt } }

/-- A group takes the pending commit; `PEND` clears when every affected group has (R100). -/
def State.ofsCommitted (s : State) (g : Nat) : State :=
  let s1 := s.ofsTake g
  let left := clrBit s1.tb.left g
  { s1 with tb := { s1.tb with left := left, commit := if left = 0 then none else s1.tb.commit } }.putb TB_OFS_CTRL.PEND (left != 0)

/-- Moves an offset of 2^-20 carrier towards a target by the shorter way, by at most `d` (R100). -/
def ofsMove (v tgt d : Nat) : Nat :=
  let up := (tgt + 2 ^ 20 - v) % 2 ^ 20
  if up ≤ 2 ^ 19 then (v + min up d) % 2 ^ 20 else (v + 2 ^ 20 - min (2 ^ 20 - up) d) % 2 ^ 20

/-- The most that a group's active offsets move in one carrier: `OFS_SLEW` taps and half a carrier (R100). -/
def State.ofsStep (s : State) (g : Nat) : Nat := min (2 ^ 19) (125 * max 1 (s.get TB_OFS_CTRL.OFS_SLEW) * 2 ^ 20 / max 1 (s.carrierPs g))

/-- The movement of a phase's active offset in one carrier (R100). -/
def State.phSlew (s : State) (g n : Nat) : State :=
  s.put TB_PH_OFS_ACT.POFS_ACT (ofsMove (s.get TB_PH_OFS_ACT.POFS_ACT n) (sparseGet 0 n s.tb.pTgt) (s.ofsStep g)) n

/-- The movement of a group's active offsets in one carrier (R100): at its boundary those of the group and of the phases that run no carriers;
a phase that does moves at its own start, so that the next one is a whole carrier and the movement later. -/
def State.ofsSlew (s : State) (g : Nat) : State :=
  let s1 := s.put TB_GRP_OFS_ACT.GOFS_ACT (ofsMove (s.get TB_GRP_OFS_ACT.GOFS_ACT g) (sparseGet 0 g s.tb.gTgt) (s.ofsStep g)) g
  (s1.phasesOf g).foldl (fun t n => if t.get PE_PH_STAT.STATE n = 2 then t else t.phSlew g n) s1

/-! ### Start and base period -/

/-- The reference is chosen at POR, BOR and PIN (R94). Whether REFCLK is present and within ±100 ppm no command states: a free bit. -/
def State.refChoose (s : State) : State :=
  let sel := s.get TB_CTRL.REF_SEL
  let r := s.free 1
  let good := r.1 == 1
  let s1 := { r.2 with keep := { r.2.keep with ref := sel != 1 && good } }
  if sel = 2 ∧ !good then (s1.put TB_STAT.REF_LOST_SEEN 1).log 0x0209 FAULT else s1

/-- D4 starts (R87, R96, R100): ACQUIRE after POR or BOR or while the keeper reads 0; else HOLDOVER from the keeper. -/
def State.tbStart (s : State) (cold : Bool) : State :=
  let s0 := (((({ s with tb := {} }.ofsStart).put TB_STAT.DLL_LOCK 1).put TB_DLL.LOCK 1).put TB_DLL.TAP_PS 125)
  let s1 := s0.putb TB_STAT.REF s0.keep.ref
  if cold || s1.keeper == 0 then { (s1.setStamp 0).tbState 1 with tb := { ((s1.setStamp 0).tbState 1).tb with acq := true } }
  else
    let s2 := (s1.setStamp s1.keeper).setFloc ((s1.keep.inc * 10 ^ 20 + 2 ^ 53) / 2 ^ 54)
    ((({ s2 with tb := { s2.tb with frac := s2.keep.frac } }.tbHoldover).put TB_STAT.ACQUIRED 1)).setReady 0

/-- f_loc after one base period (R89 to R92): towards f_src, in HOLDOVER the nominal frequency of `NOM_F`, at `RAMP`; in SLEW once no
renumbering waits, the trapezoidal profile that brings the error and f_loc − f_src to 0 together. LOCKED holds its angle by the same profile
(R86; DESIGN CHOICE, log 121). -/
def State.slewStep (s : State) : Nat :=
  let ramp := clampN 10 1000 (s.get TB_SLEW.RAMP)
  let dmax : Int := (clampN 50 2000 (s.get TB_SLEW.DF_MAX) * mHz : Nat)
  let step : Int := (4 * ramp : Nat)
  let src := if s.get TB_STAT.STATE = 4 then s.nominal else s.tb.fsrc
  let df : Int := (s.tb.floc : Int) - (src : Int)
  let toward := fun (goal : Int) => df + clampI (-step) step (goal - df)
  let e := s.tb.err
  let next :=
    if (s.get TB_STAT.STATE ≠ 2 ∧ s.get TB_STAT.STATE ≠ 3) ∨ e = 0 ∨ s.tb.renum.isSome then toward 0
    else
      let sg : Int := if e < 0 then -1 else 1
      let d := sg * df
      if 0 < d ∧ (e.natAbs : Int) * ramp ≤ d * d * 2 ^ 27 then toward 0 else toward (sg * dmax)
  ((src : Int) + next).toNat

/-- What the base period ends by itself: `API_PRESENT` where no edge has come for a cycle and the window (R103), the run of accepted edges
after 2 cycles without one (R104), and the wait of a re-spacing for `PEND` (R120). -/
def State.tbWaits (s : State) : State :=
  let s1 := if s.is TB_OFS_CTRL.PEND ∨ s.tb.respWait = 0 then s
    else { s with tb := { s.tb with respace := s.tb.respace ||| s.tb.respWait, respWait := 0 } }
  let gap := s1.stamp - s1.get2 TB_API_CAP_LO.STAMP TB_API_CAP_HI.STAMP
  let s2 := if s1.is TB_API_CFG.API_PRESENT ∧ 2 ^ 24 + 0x40000 < gap then s1.put TB_API_CFG.API_PRESENT 0 else s1
  if 2 ^ 25 < gap ∧ s2.tb.apiOk ≠ 0 then { s2 with tb := { s2.tb with apiOk := 0 } } else s2

/-- The accumulator in one base period (R84): the stamp, f_loc, the error, TBR_APO. -/
def State.tbTick (s : State) : State :=
  if !s.runs 4 then s
  else
    match s.get TB_STAT.STATE with
    | 0 => s.tbStart false
    | 1 => s
    | st =>
      let acc := s.tb.frac + s.get TB_INC.INC
      let old := s.stamp
      let new := (old + acc / 2 ^ 28) % 2 ^ 64
      let s1 := { s with tb := { s.tb with frac := acc % 2 ^ 28, srcN := s.tb.srcN + 1 } }.put2 TB_STAMP_LO.STAMP TB_STAMP_HI.STAMP new
      let s2 := s1.when (st == 4 && new / 2 ^ 24 != old / 2 ^ 24) fun t => t.inc TB_HOLD.HOLD_CYC
      let e := s2.tb.err + ((s2.tb.fsrc : Int) - (s2.tb.floc : Int)) * 2 ^ 30
      let s3 := if st = 4 then s2 else { s2 with tb := { s2.tb with err := e } }.puti TB_ERR.ERR (e / 10 ^ 20)
      let left := s3.tb.apoLeft - 1
      let s4 := { s3 with tb := { s3.tb with apoLeft := left }, pins := { s3.pins with apo := decide (0 < left) } }
      (s4.setFloc s4.slewStep).tbWaits

/-- The stamp keeper, in D2, in one base period (R96): every tenth, it takes D4's stamp and increment while D4 has left ACQUIRE, else
it advances by itself once it has left 0. -/
def State.keepTick (s : State) : State :=
  let n := (s.keep.phase + 1) % 10
  let s1 := if s.runs 2 then { s with keep := { s.keep with phase := n } } else s
  if n ≠ 0 ∨ !s.runs 2 then s1
  else if s1.tbRuns then
    { s1 with keep := { s1.keep with frac := s1.tb.frac, inc := s1.get TB_INC.INC } }.put2
      TB_KEEP_LO.STAMP TB_KEEP_HI.STAMP s1.stamp
  else if s1.keeper = 0 then s1
  else
    let acc := s1.keep.frac + 10 * s1.keep.inc
    { s1 with keep := { s1.keep with frac := acc % 2 ^ 28 } }.put2 TB_KEEP_LO.STAMP TB_KEEP_HI.STAMP
      ((s1.keeper + acc / 2 ^ 28) % 2 ^ 64)

/-- The keeper's stamp and increment are committed to MRAM with the RTC seconds (R96, R97); a keeper that reads 0 holds none. -/
def State.keepCommit (s : State) : State :=
  if s.keeper = 0 then s
  else { s with keep := { s.keep with commitRtc := s.rtc, commitInc := s.keep.inc } }.put2
    TB_LAST_STAMP_LO.LAST TB_LAST_STAMP_HI.LAST s.keeper

end Sys2Proof.Machine
end

