-- ==== Sys2Proof/Machine/CellOps.lean ====
section
/-! DEFINITION. The Cell Supervisor's schedule (spec/15_buffer_battery.md, R366, R370, R371, R381): the times of a sweep and the
check of a launched start. -/

namespace Sys2Proof.Machine

open R

/-- A half-cycle in au. -/
def halfCycleAu : Nat := 2 ^ 23

/-- The channel of RF0 and RF1, held at the nearest limit, and their transmit power in dBm (R362). -/
def State.ringPhy (s : State) : Nat × Nat := (clampN 11 26 (s.get CS_CTRL.CHAN), min (s.get CS_CTRL.TXP) 10)

/-- A time in 0.1 ms as au at f_loc. -/
def State.tenthMsAu (s : State) (t : Nat) : Nat := t * s.tb.floc * 2 ^ 24 / (10 ^ 7 * mHz)

/-- The size of the larger half (R366). -/
def State.hMax (s : State) : Nat := max (s.get CS_STAT.H_A) (s.cs.size - s.get CS_STAT.H_A)

/-- `PAUSE_T` in 0.1 ms, held in its range (log 9). -/
def State.pauseT (s : State) : Nat := clampN 2 100 (s.get CS_CFG2.PAUSE_T)

/-- `SNAP_DLY` in 0.1 ms (R366). -/
def State.snapDly (s : State) : Nat := 8 * s.hMax + max 20 (s.pauseT + 2)

/-- T_sweep in 0.1 ms (R371). -/
def State.tSweep (s : State) : Nat := s.snapDly + 20 + (3 * s.hMax - 2) * 20

/-- The half-cycles of a period, rounded up, for a time in 0.1 ms at twice a frequency in the unit of f_loc. -/
def halfCycles (t f : Nat) : Nat := (t * 2 * f + 10 ^ 7 * mHz - 1) / (10 ^ 7 * mHz)

/-- `PER_ACT` of R371. -/
def State.perAct (s : State) : Nat :=
  let f := s.tb.floc
  max (clampN 2 255 (s.get CS_CTRL.PER_HC)) (max (halfCycles 2500 f) (halfCycles (s.tSweep + 260) (f + 250 * mHz)))

/-- The end of the present sweep's collection, or of the last collection or recollect (R370, R371). -/
def State.collectEnd (s : State) : Nat :=
  if s.cs.busy then s.cs.cur + s.tenthMsAu (20 + (3 * s.hMax - 2) * 20) else s.cs.endAt

/-- The Cell Supervisor accepts a start of sweeping at a target (R381). -/
def State.csAccepts (s : State) (target : Nat) : Bool :=
  let dly := s.tenthMsAu s.snapDly
  s.get CS_STAT.STATE == 3 && decide (s.stamp + s.tenthMsAu 10 + dly ≤ target) &&
    decide (s.collectEnd + s.tenthMsAu 260 + dly ≤ target)

end Sys2Proof.Machine
end

