-- ==== Sys2Proof/Machine/FabOps.lean ====
section
/-! DEFINITION. The Fabric's shared operations (spec/08_fabric.md): keys and election, the ledger root's start and end
(spec/09_share_ledger.md, R216), the root's topology, epochs, and the check of a launched action. -/

namespace Sys2Proof.Machine

open R

/-! ### Keys and election (R177 to R179) -/

/-- A key is strictly better than another. -/
def keyBetter (a b : FabKey) : Bool :=
  decide (b.cls < a.cls) || (a.cls == b.cls && (decide (b.inc < a.inc) || (a.inc == b.inc &&
    (decide (b.prio < a.prio) || (a.prio == b.prio && decide (a.serial < b.serial))))))

/-- The class of this module's key. -/
def State.fabClass (s : State) : Nat :=
  if s.is TB_STAT.GRID_OK then (if s.role 0 then 3 else 2) else if s.is TB_STAT.ACQUIRED then 1 else 0

/-- This module's own key, where it is a candidate. -/
def State.ownKey (s : State) : Option FabKey :=
  if s.is FAB_CTRL.ROOT_EN then
    some ⟨s.get FAB_KEY.OWN_CLASS, s.get FAB_STAT.ROOT, s.get FAB_CTRL.PRIO, s.serial⟩
  else none

/-- The better of two keys. -/
def bestKey : Option FabKey → Option FabKey → Option FabKey
  | none, b => b
  | a, none => a
  | some a, some b => some (if keyBetter b a then b else a)

/-- What a link announces of a root is out of date: an echo of this module's own key, or a key that a newer sequence of that root, heard on
another link or in force, has replaced (R178, R179). -/
def State.keyStale (s : State) (h : Heard) : Bool :=
  h.key.serial == s.serial || (s.fab.heard.any fun p => p.2.key.serial == h.key.serial && decide (h.seq < p.2.seq) && p.2.key != h.key) ||
    (match s.fab.rootKey with
    | some r => r.serial == h.key.serial && r != h.key && decide (h.seq ≤ s.fab.rootSeq)
    | none => false)

/-- The best key heard on any link. -/
def State.heardBest (s : State) : Option FabKey :=
  s.fab.heard.foldl (fun k p => if s.keyStale p.2 then k else bestKey k (some p.2.key)) none

/-- The best key this module knows. -/
def State.knownBest (s : State) : Option FabKey := bestKey s.ownKey s.heardBest

/-- Puts the key of the root into force and shows it; the first epoch of a new root replaces both banks (R202). -/
def State.setRoot (s : State) (k : FabKey) (seq : Nat) : State :=
  let new := match s.fab.rootKey with | some r => r.serial != k.serial | none => true
  (({ s with fab := { s.fab with rootKey := some k, rootSeq := seq, both := s.fab.both || new } }.put FAB_KEY.ROOT_CLASS k.cls).put FAB_KEY.ROOT_PRIO k.prio).put2
    FAB_ROOT_SER_LO.SERIAL FAB_ROOT_SER_HI.SERIAL k.serial

/-- The root sequence that goes with a key: that of the root in force, this module's own among them, as `rootSeq` holds it; of another root the
newest heard (R178, R179). -/
def State.keySeq (s : State) (k : FabKey) : Nat :=
  match s.fab.rootKey with
  | some r => if r.serial = k.serial then s.fab.rootSeq else s.fab.heard.foldl (fun m p => if p.2.key.serial = k.serial then max m p.2.seq else m) 0
  | none => if s.ownKey = some k then s.fab.rootSeq else s.fab.heard.foldl (fun m p => if p.2.key.serial = k.serial then max m p.2.seq else m) 0

/-- The payload of an announce. The layout is the model's (DESIGN CHOICE, log 124). -/
def announceBytes (k : FabKey) (seq : Nat) : List Nat := [k.cls, k.inc, k.prio] ++ leBytes 8 k.serial ++ leBytes 8 seq

/-- An announce on every ACTIVE link with the best key known and the sequence of that key's root (R178). -/
def State.announce (s : State) : State :=
  match s.knownBest with
  | none => s
  | some k => s.linksUp.foldl (fun t l => t.srcSend true .announce l (announceBytes k (t.keySeq k))) s

/-- The module announces its own class, which changes at most once per second (R177). -/
def State.takeClass (s : State) : State :=
  if s.fab.clsWait ≠ 0 ∨ s.get FAB_KEY.OWN_CLASS = s.fabClass then s
  else { s with fab := { s.fab with clsWait := 250000000 } }.put FAB_KEY.OWN_CLASS s.fabClass

/-! ### The ledger root (R216) -/

/-- T_gen in ninths of 40 ns: `Q_TMO` + 33/90 s + 1 ms. -/
def State.tGen (s : State) : Nat := (clampN 25 200 (s.get SL_TUNE.Q_TMO) + 1) * 225000 + 33 * 2500000

/-- The ledger root's state, logged as event 0x0501. -/
def State.slRootState (s : State) (st : Nat) : State := s.put SL_STAT.ROOT_STATE st

/-- Event 0x0501. -/
def State.slLogState (s : State) : State :=
  s.log 0x0501 NOTICE ([s.get SL_STAT.ROOT_STATE, 0] ++ leBytes 2 (s.get SL_GEN.GEN_OWN))

/-- The module becomes ledger root: WAIT, a new generation, no records, T_gen starts (R216). `now` counts the root's 25 MHz
reference. -/
def State.slRootStart (s : State) (now : Nat) : State :=
  let s1 := { s with sl := { s.sl with holders := [], tEnd := 9 * now + s.tGen, overSum := false } }
  (((s1.put SL_GEN.GEN_OWN ((s.get SL_GEN.GEN_OWN + 1) % 2 ^ 16)).slRootState 1).put SL_ROOT_WAIT.WAIT_MS (s.tGen / 225000)).slLogState

/-- The module is no longer ledger root: IDLE. -/
def State.slRootStop (s : State) : State :=
  if s.get SL_STAT.ROOT_STATE = 0 then s
  else
    let s1 := { s with sl := { s.sl with holders := [] } }
    (((s1.slRootState 0).put SL_STAT.QUORUM 0).put SL_ROOT_WAIT.WAIT_MS 0).slLogState

/-! ### States of R178 -/

/-- The module's part as root ends: the time root and the ledger root with it (R21). -/
def State.rootOff (s : State) : State :=
  if s.is FAB_STAT.ROOT then ((s.put FAB_STAT.ROOT 0).put TB_STAT.ROOT 0).srcCheck.slRootStop else s

/-- The root's own links as its topology shows them. -/
def State.ownLinks (s : State) : List (Nat × Nat) :=
  ((List.range 8).filter s.laneUp).map (fun n => (n, s.get FAB_LANE_STAT.NBR_ID n)) ++
    (if s.is FAB_CTRL.PLC_EN then (s.plc.links.filter fun p => p.2.active).map fun p => (8, p.2.node) else [])

/-- A gateway's relay entries are dropped: its node ID changes (R518). -/
def State.relaysDrop (s : State) : State := { s with mg := { s.mg with relays := [] } }.put SYS_MGMT_STAT.N_RELAY 0

/-- The module becomes root: node ID 0x001, level 0, time root and ledger root (R21, R178). -/
def State.rootOn (s : State) (now : Nat) : State :=
  let old := s.get FAB_STAT.NODE_ID
  let s0 := s.when (old != 0 && old != 1) State.relaysDrop
  let s1 := ((s0.put FAB_STAT.NODE_ID 1).put FAB_STAT.LEVEL 0)
  let s2 := s1.linksUp.foldl (fun t l => t.setDir l 2) s1
  let resv := if 2 ≤ old then [(old, s.serial)] else []
  let s3 := { s2.setParent with fab := { s2.setParent.fab with ids := [(1, s.serial)], resv := resv, topo := [(1, s.ownLinks)], due := true, leaf := false } }
  if s.is FAB_STAT.ROOT then s3
  else
    let s4 := ((s3.put FAB_STAT.ROOT 1).put TB_STAT.ROOT 1).srcCheck
    let s5 := match s4.ownKey with | some k => s4.setRoot k s4.fab.rootSeq | none => s4
    if bit s5.running 4 && s5.runs 3 then s5.slRootStart now else s5

/-- A reset of D8 ends the module's part as root; the ledger root's with it, where D3 is not reset too (R178, R216). -/
def State.rootReset (s : State) (doms : Nat) : State :=
  if bit doms 3 then ((s.put FAB_STAT.ROOT 0).put TB_STAT.ROOT 0).srcCheck else s.rootOff

/-- The Fabric has left OFF when D8 is out of reset: TRAIN (R178). -/
def State.fabStart (s : State) : State :=
  if s.runs 8 && s.get FAB_STAT.STATE == 0 then s.put FAB_STAT.STATE 1 else s

/-- The Fabric enters ELECT and announces its own key. -/
def State.fabElect (s : State) : State :=
  let s1 := s.rootOff
  ({ s1 with fab := { s1.fab with rootKey := none } }.put FAB_STAT.STATE 2).announce

/-- The module's links as a frame carries them, each with its neighbour's node. The layout is the model's (DESIGN CHOICE, log 124). -/
def State.linkBytes (s : State) : List Nat := s.ownLinks.flatMap fun q => q.1 :: leBytes 2 q.2

/-- The link that leads to the root: the up link of a MEMBER, else the ACTIVE one over which the root's key was heard, from a MEMBER first (R178). -/
def State.rootLink (s : State) : Option Nat :=
  let from_ := fun (m : Bool) => (s.fab.heard.find? fun p => s.linkUp p.1 && (p.2.member || !m) && s.fab.rootKey == some p.2.key).map Prod.fst
  if s.get FAB_STAT.STATE = 4 then s.upLink else (from_ true).or (from_ false)

/-- A join request to the root, over the neighbour from which its key was heard (R178, R180): serial number, `STICKY_ID`, role set and links. -/
def State.joinRequest (s : State) : State :=
  match s.rootLink with
  | some l => s.srcSend true .joinRequest l
      (leBytes 8 s.serial ++ leBytes 2 (s.get FAB_STICKY.STICKY_ID) ++ [s.get SYS_ROLE.ROLE_ACT] ++ s.linkBytes)
  | none => s

/-- A node has left: its ID is reserved for its serial number (R180). -/
def State.idLeave (s : State) (node : Nat) : State :=
  match s.fab.ids.find? fun p => p.1 == node with
  | some p => { s with fab := { s.fab with ids := s.fab.ids.filter fun q => q.1 != node, resv := s.fab.resv ++ [p] } }
  | none => s

/-- The root takes a topology: a node that no path reaches any more has left, and a new epoch is due (R180, R184, R189). -/
def State.topoTake (s : State) (topo : Topo) : State :=
  let lv := fabLevels topo
  let far := fun (n : Nat) => sparseGet 99 n lv == 99
  let s1 := ((s.fab.topo.map Prod.fst).filter far).foldl State.idLeave s
  let kept := topo.filter fun p => !far p.1
  { s1 with fab := { s1.fab with topo := kept, due := true } }

/-- A link of this module has come or gone: the root takes it into its topology, another module reports its links to the root (R172, R190). -/
def State.linkReport (s : State) : State :=
  if s.is FAB_STAT.ROOT then s.topoTake (topoReport s.fab.topo 1 s.ownLinks)
  else s.srcSend true .topology (2 ^ 11) s.linkBytes

/-- The module joins the fabric of a better key; a root gives up node ID 0x001 (R178, R518). -/
def State.fabJoin (s : State) (k : FabKey) (seq : Nat) : State :=
  let s1 := if s.is FAB_STAT.ROOT then (s.rootOff.relaysDrop.put FAB_STAT.NODE_ID 0).log 0x0603 WARNING else s
  ((s1.setRoot k seq).put FAB_STAT.STATE 3).joinRequest

/-- A link has reached ACTIVE: reported to the root; TRAIN and ALONE pass to ELECT. -/
def State.fabLinkUp (s : State) : State :=
  let s1 := s.linkReport
  match s1.get FAB_STAT.STATE with
  | 1 => s1.takeClass.fabElect
  | 5 => s1.takeClass.fabElect
  | _ => s1

/-- A link has gone DOWN (R190): its announces are forgotten, the up link and the time parent move to the alternate at once,
and the loss is reported to the root, which owes a new epoch. A change of the best key known is announced (R178). -/
def State.fabLinkLost (s : State) (l : Nat) : State :=
  let s1 := { s with fab := { s.fab with heard := s.fab.heard.filter fun p => p.1 != l } }
  let s2 := (s1.setDir l 0).setParent.linkReport
  s2.when (s2.knownBest != s.knownBest && decide (2 ≤ s2.get FAB_STAT.STATE) && decide (s2.get FAB_STAT.STATE ≤ 4)) State.announce

/-- The node of the neighbour on a lane, as a frame that has traversed that lane alone names it, or as the root has granted it; what changes is
reported (R184). -/
def State.nbrLearn (s : State) (l node : Nat) : State :=
  if node = 0 ∨ s.get FAB_LANE_STAT.NBR_ID l = node then s
  else (s.put FAB_LANE_STAT.NBR_ID node l).when (s.get FAB_STAT.STATE == 4) State.linkReport

/-- The root's own neighbour of a serial number has a node ID. -/
def State.nbrGrant (s : State) (serial id : Nat) : State :=
  let s1 := s.each 8 fun l t =>
    if t.get2 FAB_LANE_NBR_LO.SERIAL FAB_LANE_NBR_HI.SERIAL l = serial ∧ 2 ≤ t.get FAB_LANE_STAT.STATE l then t.put FAB_LANE_STAT.NBR_ID id l else t
  { s1 with plc := { s1.plc with links := s1.plc.links.map fun p => if p.2.serial = serial then (p.1, { p.2 with node := id }) else p } }

/-- A leave notice on every ACTIVE lane (R172). -/
def State.leaveAll (s : State) : State := (List.range 8).foldl (fun t n => if t.laneUp n then t.emit .leave n [] else t) s

/-- The frames that wait at the source are sent while injection is not held: control frames and responses first, then the others, at most
`room` urgent ones and 4 in 100 µs (R176, R189). -/
def State.injectAll (s : State) (room : Nat) : State :=
  if s.fab.hold then s
  else
    let s0 := s.fab.wait.foldl (fun t p => t.srcSend p.1 p.2.kind p.2.dst p.2.data) { s with fab := { s.fab with wait := [] } }
    let urgentOf := fun (f : FabFrame) => (⟨f, 14⟩ : Egr).urgent
    let go := s0.fab.inject.foldl (fun (acc : List FabFrame × List FabFrame × Nat) f =>
      if urgentOf f then
        (if 0 < acc.2.2 then (acc.1 ++ [f], acc.2.1, acc.2.2 - 1) else (acc.1, acc.2.1 ++ [f], 0))
      else (acc.1 ++ [f], acc.2.1, acc.2.2)) ([], [], min room (4 - s0.fab.ages.length))
    let sent := (go.1.filter urgentOf).length
    let s1 := { s0 with fab := { s0.fab with inject := go.2.1, ages := List.replicate sent 0 ++ s0.fab.ages } }
    go.1.foldl (fun t f => t.routeFrame { f with epo := t.get FAB_STAT.EPOCH % 2 } 0 0 14) s1

/-- A lane goes DOWN (R172): the frames at its egress take the alternates (R190). -/
def State.laneDown (s : State) (n : Nat) : State :=
  let was := s.get FAB_LANE_STAT.STATE n
  let q := (s.lane n).queue
  let dir := s.linkDir n
  let s1 := (s.setLane n {}).put FAB_LANE_STAT.STATE 0 n
  if was = 3 then
    let s2 := ((s1.put FAB_LANE_STAT.DOWN_SEEN 1 n).fabLinkLost n).log 0x0605 WARNING [n]
    q.foldl (fun t e => t.reRoute e.f dir e.src) s2
  else s1

/-- A lane whose `LANE_EN` bit has been written 0 leaves HOLD or ACTIVE (R172). -/
def State.lanesOff (s : State) : State :=
  s.each 8 fun n t => if bit (t.get FAB_CTRL.LANE_EN) n = false ∧ 2 ≤ t.get FAB_LANE_STAT.STATE n then t.laneDown n else t

/-! ### The root's topology and epochs (R184, R188, R189) -/

/-- The root installs a new epoch (R189): each node's table, then the epoch-change frame with the switch stamp, at least one
half-cycle ahead of the last of these frames, of which 4 leave in 100 µs (R176); its own shadow bank is loaded and its own switch is armed. How
far beyond is a free value. A level above 12 is logged (R203). -/
def State.installEpoch (s : State) : State :=
  let topo := s.fab.topo
  let lv := fabLevels topo
  let r := s.free 24
  let s1 := r.2
  let frames := s1.fab.wait.length + topo.length * (2 + topo.length / 85)
  let sw := s1.stamp + 0x800000 + (frames / 4 + 1) * 110729 + r.1
  let s2 := (topo.filter fun p => p.1 != 1).foldl (fun t p =>
    (tableFrames (sparseGet 99 p.1 lv) (nodeDirs topo lv p.1) (nodeTable topo lv p.1)).foldl (fun u b => u.srcSend true .tableLoad (p.1 * 2 ^ 11) b) t) s1
  let s3 := { s2 with fab := { s2.fab with
    fwd1 := bankLoad (nodeTable topo lv 1) [], dirs := s2.linksUp.map fun l => (l, 2), nextLevel := 0, switch := some sw
    swBoth := s2.fab.both, both := false, due := false } }
  let s4 := (topo.filter fun p => p.1 != 1).foldl (fun t p => t.srcSend true .epochChange (p.1 * 2 ^ 11) (leBytes 8 sw)) s3
  let top := topo.foldl (fun m p => max m (sparseGet 0 p.1 lv)) 0
  s4.when (decide (12 < top)) fun t => t.log 0x060F WARNING [top]

/-- Every node swaps banks (R189 step 4), or takes the new one into both as a new root's first epoch does (R202); held frames are injected. A
switch that follows is armed then, and the new root's table stays in the shadow bank for it. -/
def State.epochSwap (s : State) : State :=
  let e := (s.get FAB_STAT.EPOCH + 1) % 256
  let f := s.fab
  let s1 := { s with fab := { f with
    fwd0 := f.fwd1, fwd1 := if f.swBoth || f.later.isSome then f.fwd1 else f.fwd0, switch := f.later.map Prod.fst
    swBoth := match f.later with | some p => p.2 | none => false
    later := none, hold := false, leaf := false, dirs := if f.later.isSome then f.dirs else [] } }
  let s2 := f.dirs.foldl (fun t p => t.setDir p.1 p.2) s1
  let s3 := if f.dirs.isEmpty then s2 else s2.put FAB_STAT.LEVEL f.nextLevel
  let s4 := ((s3.put FAB_STAT.EPOCH e).setParent).log 0x0604 NOTICE [e]
  let s5 := s4.when (12 < s4.get FAB_STAT.LEVEL) fun t => t.log 0x060F WARNING [t.get FAB_STAT.LEVEL]
  s5.injectAll 4

/-- `DRAIN_T` in au at f_loc. -/
def State.drainAu (s : State) : Nat := clampN 1 50 (s.get FAB_TIMERS.DRAIN_T) * s.tb.floc * 2 ^ 24 / (10 ^ 7 * mHz)

/-- A delay of 125 ps units as 1/16 au at f_loc. -/
def State.delayAu16 (s : State) (d : Nat) : Nat := d * 125 * s.tb.floc * 2 ^ 28 / (10 ^ 15 * mHz)

/-- A source stamp in 1/16 au steers the Timebase while it follows that source (R85, R192), in its angle and in its frequency (R89). -/
def State.followSource (s : State) (src v16 : Nat) : State :=
  let used := s.tbUses src
  let s1 := { s with tb := s.tb.hear src (v16 % 2 ^ 68) used }
  if used then s1.setErr (toSigned 28 (v16 + 2 ^ 72 - (s.stamp * 16 + s.tb.frac / 2 ^ 24))) else s1

/-! ### The base period (R174 to R177) -/

/-- 4 ns of a lane: the frame in transmission goes on, the neighbour gives back credits, which no command states (free values), and an idle
egress serves its queue. -/
def State.laneTick (s : State) (l : Nat) : State :=
  let x := s.lane l
  if x.busy = 0 ∧ x.queue = [] ∧ x.cred0 = 128 ∧ x.cred1 = 128 then s
  else
    let a := s.free 8
    let b := a.2.free 8
    (b.2.setLane l { x with busy := x.busy - 4000, cred0 := min 128 (x.cred0 + a.1), cred1 := min 128 (x.cred1 + b.1) }).laneServe l

/-- 4 ns of the source: the urgent injections of the last 100 µs, the frames that wait, and the time to the next change of class. -/
def State.srcTick (s : State) : State :=
  let f := s.fab
  let ages := (f.ages.map (· + 1)).filter fun n => decide (n < 25000)
  let s1 := { s with fab := { f with ages, clsWait := f.clsWait - 1 } }
  if f.wait = [] ∧ f.inject = [] then s1 else s1.injectAll 4

/-- 4 ns of the Fabric. -/
def State.fabTick (s : State) : State := if s.runs 8 then s.srcTick.each 8 fun l t => t.laneTick l else s

/-! ### The check of a launched action (R195) -/

/-- The body is within the range of the operation, as its subsystem states it. -/
def State.laAccepts (s : State) (target ep op : Nat) (body : List Nat) : Bool :=
  let pts := byteAt body 0
  match ep with
  | 0x010 => match op with
    | 1 => decide (byteAt body 0 < 8)
    | 2 => decide (1 ≤ byteAt body 1) && decide (byteAt body 1 ≤ 4) && decide (byteAt body 0 + byteAt body 1 ≤ 96)
    | _ => false
  | 0x012 => match op with
    | 4 => decide (byteAt body 8 < 16) && fFinite (BitVec.ofNat 32 (bytesAt body 12 4))
    | 1 | 2 | 3 | 5 | 6 => true
    | _ => false
  | 0x014 => match op with
    | 1 => true
    | 2 => bytesAt body 0 2 != 0
    | _ => false
  | 0x016 => (op == 1 || op == 2) && pts != 0 && (List.range 8).all fun p => !bit pts p || s.is MET_PT_CFG.EN p
  | 0x017 => op == 1 && body.isEmpty
  | 0x018 => op == 1
  | 0x01A => (op == 1 && s.csAccepts target) || op == 2
  | 0x01B => op == 1 && (List.range 16).all fun n => !(bit (bytesAt body 0 2) n || bit (bytesAt body 2 2) n) || s.ownerOf n == 2
  | 0x01D => op == 1 && body.isEmpty
  | _ => false

end Sys2Proof.Machine
end

