-- ==== Sys2Proof/Machine/SessionOps.lean ====
section
/-! DEFINITION. What a connector's feeding group gives it, and the need it contributes to the ledger
(spec/13_vehicle_sessions.md, R326, R329, R330; spec/09_share_ledger.md, R211). -/

namespace Sys2Proof.Machine

open R

/-- The group that feeds a connector. -/
def State.feedGrp (s : State) (c : Nat) : Nat := s.get VS_CONN_CFG.GRP c

/-- The feeding group's voltage in 0.1 V: as the Phase Engine published it at the last strobe (R117), or from the allowance frame. -/
def State.feedV (s : State) (c : Nat) : Nat :=
  if s.localFeed c then (s.grp (s.feedGrp c)).pub.v else 10 * (s.conn c).aV

/-- The feeding group's grant has not been heard for longer than one lease life, `LIFE` cycles (R17). -/
def State.feedUnheard (s : State) (c : Nat) : Bool :=
  !(s.conn c).heard || decide (2 * clampN 2 16 (s.get SL_CFG.LIFE) < (s.conn c).age)

/-- The feeding group's forward ceiling in A. Under DISPENSER alone it is that of the allowance frame, and while no grant is heard what the
floor share of the image gives at the group's last voltage (R17, R330; log 93). -/
def State.feedCap (s : State) (c : Nat) : Nat :=
  if s.localFeed c then (s.grp (s.feedGrp c)).pub.cap
  else if s.feedUnheard c then 1000 * Config.floorShare c / max 1 (s.conn c).aV
  else (s.conn c).aCap

/-- The feeding group's reverse ceiling in A. -/
def State.feedRev (s : State) (c : Nat) : Nat :=
  if s.localFeed c then (s.grp (s.feedGrp c)).pub.rev else (s.conn c).aRev

/-- P_allow of the feeding group in kW. Under DISPENSER alone it is that of the allowance frame, and the floor share of the image while no
grant is heard (R17; log 93). -/
def State.feedP (s : State) (c : Nat) : Nat :=
  if s.localFeed c then s.pAllow (s.feedGrp c) else if s.feedUnheard c then Config.floorShare c else (s.conn c).aP

/-- The lowest allowance that Thermal enforces on a connector in its zones (R349); 0xFFFF for none. -/
def State.zoneEnf (s : State) (c : Nat) : Nat :=
  (List.range 8).foldl (fun a z =>
    if bit (s.get TH_ZONE_CFG.CONN z) c && decide (2 ≤ s.get TH_ZONE_STAT.STATE z) then min a (s.get TH_ZONE_ALLOW.ALLOW z) else a) 0xFFFF

/-- Thermal enforces in a zone of a connector (R328). -/
def State.zoneEnforced (s : State) (c : Nat) : Bool :=
  (List.range 8).any fun z => bit (s.get TH_ZONE_CFG.CONN z) c && s.get TH_ZONE_STAT.STATE z == 2

/-- I_enf of R326 in A, charging or discharging; under DISPENSER alone Thermal's allowance bounds it too (R349). -/
def State.iEnf (s : State) (c : Nat) : Nat :=
  let own := if s.is VS_CONN_STAT.DIR c then min (s.get VS_CONN_BPT.I_DIS_MAX c) (s.feedRev c)
    else min (s.get VS_CONN_RATING.I_CONN_MAX c) (s.feedCap c)
  if s.localFeed c then own else min own (s.zoneEnf c)

/-- The need of a connector in W (R329): in PRECHARGE the target voltage × `I_PRE`; in ENERGY while charging the vehicle's
demand, bounded by the offer without the thermal ask, or its maximum power in Dynamic mode, each capped by the ratings; else 0. -/
def State.connNeedW (s : State) (c : Nat) : Nat :=
  let x := s.conn c
  let cap := s.get VS_CONN_RATING.I_CONN_MAX c * s.get VS_CONN_RATING.V_CONN_MAX c
  match s.get VS_CONN_STAT.STATE c with
  | 5 => x.vTarget * s.get VS_CONN_BPT.I_PRE c
  | 6 =>
    if s.is VS_CONN_STAT.DIR c then 0
    else if s.get VS_CONN_STAT.MODE c = 2 then min cap (1000 * x.pMax)
    else
      let v := s.feedV c
      let offer := min (s.iEnf c * v / 10) (1000 * s.feedP c)
      min cap (min ((s.geti VS_CONN_EV.I_EV c).toNat * v / 10) offer)
  | _ => 0

/-- Watts as whole kW, rounded up. -/
def ceilKw (w : Nat) : Nat := (w + 999) / 1000

/-- A group of this module is a CABINET output group: the module is a CABINET and the group is not of the battery stage (R18). -/
def State.outGroup (s : State) (g : Nat) : Bool :=
  decide (g < 8) && s.role 1 && !(s.role 3 && bit (s.get SYS_ROLE.STORE_GRP) g)

/-- A group feeds a connector: an output group of this module feeds one of its own, or one of a dispenser that sends it need frames (R18,
R211). -/
def State.feeds (s : State) (g : Nat) : Bool :=
  s.outGroup g && (s.needOf g).fed || (List.range 2).any fun c => s.connUsed c && s.localFeed c && s.feedGrp c == g

/-- want_g of R211 in W. -/
def State.wantW (s : State) (g : Nat) : Nat :=
  if s.feeds g then
    (List.range 2).foldl (fun a c => if s.connUsed c && s.localFeed c && s.feedGrp c == g then a + s.connNeedW c else a)
      (1000 * (s.needOf g).need)
  else
    let ma := (fToInt (s.fl PE_GRP_DEM.DEM g) 1000).getD 0
    s.get PE_GRP_MEAS.V_GRP g * ma.toNat / 10000

end Sys2Proof.Machine
end

