-- ==== Sys2Proof/Machine/MetOps.lean ====
section
/-! DEFINITION. Metrology's shared operations (spec/11_metrology.md): exact counts and what the registers show of them, channel
correction, the seal and its digest, and pulses. -/

namespace Sys2Proof.Machine

open R

/-- A point's hidden part. -/
def State.pt (s : State) (p : Nat) : PtX := sparseGet {} p s.met.pts

/-- Sets a point's hidden part. -/
def State.setPt (s : State) (p : Nat) (x : PtX) : State := { s with met := { s.met with pts := sparsePut {} p x s.met.pts } }

/-- A pulse output's hidden part. -/
def State.pul (s : State) (n : Nat) : PulX := sparseGet {} n s.met.pul

/-- Sets a pulse output's hidden part. -/
def State.setPul (s : State) (n : Nat) (x : PulX) : State := { s with met := { s.met with pul := sparsePut {} n x s.met.pul } }

/-- A point's event goes to the Moraine log where the point is legal (R281). -/
def State.ptLog (s : State) (p code sev : Nat) (pay : List Nat) : State :=
  s.log code (if s.is MET_PT_CFG.LEGAL p then LEGAL else sev) pay

/-- Units of 1.024 fJ in 1 nWh (R263). -/
def unitsPerNwh : Nat := 3515625000

/-- Units of 102.4 pC in 1 mAh (R263). -/
def unitsPerMah : Nat := 35156250000

/-- The nWh of an exact count. -/
def nwh (u : Nat) : Nat := u / unitsPerNwh

/-- The Wh of an exact count. The manual's quotient by 10^6 is read as nWh to Wh, 10^9, as its units, wraps and worked examples
have it (DEDUCED, log 10). -/
def whOf (u : Nat) : Nat := nwh u / 10 ^ 9

/-- Writes a quantity of three words. -/
def State.put3 (s : State) (lo mid hi : Field) (v p : Nat) : State :=
  ((s.put lo (v % 2 ^ 32) p).put mid (v / 2 ^ 32 % 2 ^ 32) p).put hi (v / 2 ^ 64) p

/-- The energy registers of a point show a set of counts (R264). -/
def State.showAcc (s : State) (p : Nat) (a : PtAcc) : State :=
  let s1 := s.put3 MET_PT_FINE_F_LO.W MET_PT_FINE_F_MID.W MET_PT_FINE_F_HI.W (nwh a.iF) p
  let s2 := s1.put3 MET_PT_FINE_R_LO.W MET_PT_FINE_R_MID.W MET_PT_FINE_R_HI.W (nwh a.iR) p
  let s3 := (s2.put2 MET_PT_WH_F_LO.W MET_PT_WH_F_HI.W (whOf a.iF) p).put2 MET_PT_WH_R_LO.W MET_PT_WH_R_HI.W (whOf a.iR) p
  let s4 := (s3.put2 MET_PT_DISP_F_LO.W MET_PT_DISP_F_HI.W (whOf a.iF % 10 ^ 11) p).put2
    MET_PT_DISP_R_LO.W MET_PT_DISP_R_HI.W (whOf a.iR % 10 ^ 11) p
  let s5 := (s4.put MET_PT_QR_F.QR_F (whOf a.iF % 2 ^ 32) p).put MET_PT_QR_R.QR_R (whOf a.iR % 2 ^ 32) p
  let s6 := (s5.put2 MET_PT_MWH_F_LO.W MET_PT_MWH_F_HI.W (whOf a.mF) p).put2 MET_PT_MWH_R_LO.W MET_PT_MWH_R_HI.W (whOf a.mR) p
  let s7 := s6.put2 MET_PT_LOSS_LO.W MET_PT_LOSS_HI.W (whOf a.loss) p
  (s7.put2 MET_PT_AH_F_LO.W MET_PT_AH_F_HI.W (a.aF / unitsPerMah) p).put2 MET_PT_AH_R_LO.W MET_PT_AH_R_HI.W (a.aR / unitsPerMah) p

/-- The registers show the snapshot while one is held, else the live counts (R266), and with them the T used (R279). -/
def State.showPt (s : State) (p : Nat) : State :=
  let x := s.pt p
  let s1 := s.putMax MET_PT_GAP.GAP (x.acc.gap * 1024 / 100000) p
  match x.snap with
  | some (a, t, temp) => ((s1.showAcc p a).put2 MET_PT_SNAP_TS_LO.STAMP MET_PT_SNAP_TS_HI.STAMP t p).puti MET_PT_TCAB.T_USED temp p
  | none => (s1.showAcc p x.acc).puti MET_PT_TCAB.T_USED x.t p

/-- T of a point's cable changes (R261); `T_USED` shows it but while a snapshot is held, which shows its own (R279). -/
def State.setT (s : State) (p : Nat) (t : Int) : State :=
  let x := s.pt p
  let s1 := s.setPt p { x with t := t }
  if x.snap.isSome then s1 else s1.puti MET_PT_TCAB.T_USED t p

/-- Integer division to the nearest, halves upwards. -/
def divNear (n : Int) (d : Nat) : Int := (n + (d / 2 : Nat)) / (d : Int)

/-- The corrected value of a channel in 10 µV or 10 µA (R253): `SCALE` × (`GAIN` × 2^-30 × x + `OFS` × 2^-23), rounded to the
nearest, for x in 2^-23. -/
def State.chValue (s : State) (c : Nat) (x : Int) : Int :=
  let f := Flt.ofBits (s.fl MET_CH_SCALE.SCALE c)
  let n := (f.m : Int) * (s.geti MET_CH_GAIN.GAIN c * x + s.geti MET_CH_OFS.OFS c * 2 ^ 30) * 10 ^ 5
  let e := f.e - 53
  if 0 ≤ e then n * 2 ^ e.toNat else divNear n (2 ^ (-e).toNat)

/-- A delay line takes its newest raw value: nine entries serve the longest delay. -/
def lineTake (x : Int) (l : List Int) : List Int := (x :: l).take 9

/-- The entry k places back, newest first; before the first, the oldest held (log 115). -/
def lineAt {α : Type} (none_ : α) : List α → Nat → α
  | [], _ => none_
  | [x], _ => x
  | x :: _, 0 => x
  | _ :: l, k + 1 => lineAt none_ l k

/-! ### The decimators (R252, R268) -/

/-- The weight of the bit `k` clocks back in the sinc3 filter with OSR 128: the ways in which three places of 128 sum to `k`. -/
def sinc3Weight (k : Nat) : Nat :=
  let c2 := fun (n : Nat) => n * (n - 1) / 2
  c2 (k + 2) + 3 * c2 (k - 254) - 3 * c2 (k - 126)

/-- The weight of the bit `k` clocks back in the sinc2 filter with OSR 32. -/
def sinc2Weight (k : Nat) : Nat := if k < 32 then k + 1 else 63 - k

/-- The sum of the weights of the ones among the newest `n` bits. -/
def weighted (wt : Nat → Nat) (n w : Nat) : Nat := (List.range n).foldl (fun a k => if w.testBit k then a + wt k else a) 0

/-- x of R252 in 2^-23 from the newest groups of 128 bits: 2 × (density of ones) − 1, each bit with its weight in the filter. -/
def sinc3 (l : List (BitVec 128)) : Int :=
  let w := (lineAt 0#128 l 0).toNat + (lineAt 0#128 l 1).toNat * 2 ^ 128 + (lineAt 0#128 l 2).toNat * 2 ^ 256
  8 * (weighted sinc3Weight 382 w : Int) - 2 ^ 23

/-- x of the fast path in 2^-23 from the 63 bits that the sinc2 filter covers (R268). -/
def sinc2 (w : BitVec 63) : Int := 2 ^ 14 * (weighted sinc2Weight 63 w.toNat : Int) - 2 ^ 23

/-- A modulator's newest groups of bits, as many as the filter covers. -/
def modTake (b : BitVec 128) (l : List (BitVec 128)) : List (BitVec 128) := (b :: l).take 3

/-- The effective delay of a channel in 1/1,024 sample (R254): `DLY`, held at 4,096, + `SKEW`, held within 0 to 4,096. -/
def State.chDelay (s : State) (c : Nat) : Nat := min ((min (s.get MET_CH_DLY.DLY c) 4096 : Nat) + s.geti MET_CH_DLY.SKEW c : Int).toNat 4096

/-- The unit of a delayed raw value: 6 · 1,024³ of the raw unit. -/
def lineUnit : Nat := 6 * 1024 ^ 3

/-- The third-order Lagrange interpolator of R254 over four neighbouring raw values, newest first: the value `n`/1,024 of the way from the
second to the third, in `lineUnit`s. Its weights sum to `lineUnit`, so the gain at DC is 1. -/
def lagrange (n : Int) (x0 x1 x2 x3 : Int) : Int :=
  -(n * (n - 1024) * (n - 2048)) * x0 + 3 * (n + 1024) * (n - 1024) * (n - 2048) * x1 - 3 * (n + 1024) * n * (n - 2048) * x2 +
    (n + 1024) * n * (n - 1024) * x3

/-- A line's value after an effective delay of `d`/1,024 sample and the interpolator's latency of 2 samples (R254), in `lineUnit`s. -/
def lineValue (l : List Int) (d : Nat) : Int :=
  let m := d / 1024
  lagrange (d % 1024 : Nat) (lineAt 0 l (m + 1)) (lineAt 0 l (m + 2)) (lineAt 0 l (m + 3)) (lineAt 0 l (m + 4))

/-- The corrected value of a channel after its delay (R253, R254), in 10 µV or 10 µA, rounded once (log 115). -/
def State.ptValue (s : State) (c : Nat) (l : List Int) : Int :=
  let f := Flt.ofBits (s.fl MET_CH_SCALE.SCALE c)
  let n := (f.m : Int) * (s.geti MET_CH_GAIN.GAIN c * lineValue l (s.chDelay c) + s.geti MET_CH_OFS.OFS c * 2 ^ 30 * lineUnit) * 10 ^ 5
  let e := f.e - 53
  if 0 ≤ e then divNear (n * 2 ^ e.toNat) lineUnit else divNear n (2 ^ (-e).toNat * lineUnit)

/-- A channel is faulted (R251). -/
def State.chFault (s : State) (c : Nat) : Bool := bit (s.get MET_CH_FLT.STUCK) c || bit (s.get MET_CH_FLT.OVR) c

/-- A channel can be used: it is not faulted and has a scale (R253, R257). -/
def State.chOk (s : State) (c : Nat) : Bool := decide (c < 16) && !s.chFault c && !fEq (s.fl MET_CH_SCALE.SCALE c) 0#32

/-- A point has no voltage channel (R256). -/
def State.currentOnly (s : State) (p : Nat) : Bool := s.get MET_PT_CFG.V_CH p == 0x1F

/-- The banks whose clock is on: an enabled point names a channel of the bank (R249). -/
def State.banksOn (s : State) : Nat :=
  (List.range 8).foldl (fun m p =>
    if s.is MET_PT_CFG.EN p then
      let m1 := if s.get MET_PT_CFG.I_CH p < 16 then setBit m (s.get MET_PT_CFG.I_CH p / 4) else m
      if s.get MET_PT_CFG.V_CH p < 16 then setBit m1 (s.get MET_PT_CFG.V_CH p / 4) else m1
    else m) 0

/-- What `MET_STAT` shows of points and banks. -/
def State.metShow (s : State) : State :=
  let en := (List.range 8).foldl (fun m p => if s.is MET_PT_CFG.EN p then setBit m p else m) 0
  let va := (List.range 8).foldl (fun m p => if s.is MET_PT_STAT.VALID p then setBit m p else m) 0
  (((s.put MET_STAT.PT_EN en).put MET_STAT.PT_VALID va).put MET_STAT.BANK_ON s.banksOn).putb MET_STAT.STAMPS (s.keeper != 0)

/-- A valid point becomes invalid, with the cause of event 0x0804 (R257). -/
def State.ptInvalid (s : State) (p cause : Nat) : State :=
  if s.is MET_PT_STAT.VALID p then ((s.put MET_PT_STAT.VALID 0 p).metShow).ptLog p 0x0804 WARNING [p, cause] else s

/-- The points that use a channel become invalid: 0 stuck, 2 over range, as voltage or as current channel. -/
def State.chPoints (s : State) (c kind : Nat) : State :=
  s.each 8 fun p t =>
    if t.is MET_PT_CFG.EN p then
      if t.get MET_PT_CFG.V_CH p = c then t.ptInvalid p (1 + kind)
      else if t.get MET_PT_CFG.I_CH p = c then t.ptInvalid p (2 + kind) else t
    else t

/-- A block's mean counts as not valid from now on, as where the point is disabled. -/
def State.ptOff (s : State) (p : Nat) : State :=
  (s.setPt p { s.pt p with
    n := 0, bad := false, blockOk := false, sumV := 0, sumI := 0, sumP := 0, sumL := 0, arm := none, lineV := [], lineI := [], modV := [], modI := [] }).put
    MET_PT_STAT.VALID 0 p

/-! ### The seal (R275 to R277, R310) -/

/-- The fields of a sealed set in a block, word by word in address order. -/
def State.sealedWords (s : State) (blk words : Nat) : List Nat :=
  (List.range words).filterMap fun i =>
    let a := blk * 0x10000 + 4 * i
    let m := (fieldsAt a).foldl (fun m f => if f.acc = .rws then m ||| f.mask else m) 0
    if m = 0 then none else some (s.word a &&& m).toNat

/-- `PARAM_DIG`: the low 32 bits of the digest of the sealed set of MET (R277). -/
def State.paramDig (s : State) : Nat := shaLowWords 32 (s.sealedWords 8 0x800)

/-- `BIL_DIG` (R310). -/
def State.bilDig (s : State) : Nat := shaLowWords 32 (s.sealedWords 9 0x100)

/-- The bits of a word that are sealed. -/
def sealedBits (a : Nat) : Word := (fieldsAt a).foldl (fun m f => if f.acc = .rws then m ||| f.mask else m) 0

/-- A changed word of a sealed set goes to the Moraine log, as event 0x0808 or 0x0910 with the address and the digests before and after,
or as event 0x110B with the old and the new value (R277, R310, R494); `old` is the word before. -/
def State.sealedNote (t : State) (a : Nat) (old : Word) : State :=
  match a / 0x10000 with
  | 8 =>
    let u := t.put MET_PARAM_DIG.DIG t.paramDig
    u.log 0x0808 LEGAL (leBytes 4 a ++ leBytes 4 (t.get MET_PARAM_DIG.DIG) ++ leBytes 4 (u.get MET_PARAM_DIG.DIG))
  | 9 =>
    let u := t.put BIL_DIG.BIL_DIG t.bilDig
    u.log 0x0910 LEGAL (leBytes 4 a ++ leBytes 4 (t.get BIL_DIG.BIL_DIG) ++ leBytes 4 (u.get BIL_DIG.BIL_DIG))
  | _ =>
    let m := sealedBits a
    t.log 0x110B LEGAL (leBytes 4 a ++ leBytes 4 (old &&& m).toNat ++ leBytes 4 (t.word a &&& m).toNat)

/-- A change of a word with sealed fields is noted where one of them changes. -/
def State.sealedChange (s : State) (a : Nat) (g : State → State) : State :=
  let t := g s
  if s.word a &&& sealedBits a = t.word a &&& sealedBits a then t else t.sealedNote a (s.word a)

/-! ### Points -/

/-- The conditions of R256. -/
def State.ptCfgOk (s : State) (p : Nat) : Bool :=
  let v := s.get MET_PT_CFG.V_CH p
  let i := s.get MET_PT_CFG.I_CH p
  decide (i < 16) && (v == 0x1F || (decide (v < 16) && v != i)) && s.get MET_PT_NOM.I_NOM p != 0 &&
    (!s.is MET_PT_CFG.LEGAL p || (v != 0x1F && (!s.is MET_PT_CFG.CAB_EN p || s.get MET_PT_CAB_T.CAB_TSRC p != 0xFF)))

/-- A write of `EN` = 1 of a point (R256): where a condition fails, the point is left disabled, also one that was enabled (log 127). -/
def State.ptEnable (s : State) (p : Nat) : State :=
  if s.ptCfgOk p then (s.sealedChange (MET_PT_CFG.EN.at p 0) fun t => (t.put MET_PT_CFG.EN 1 p).put MET_PT_STAT.CFG_ERR 0 p).metShow
  else
    ((s.sealedChange (MET_PT_CFG.EN.at p 0) fun t => (t.put MET_PT_CFG.EN 0 p).when (s.is MET_PT_CFG.EN p) fun u => (u.ptOff p).metShow).put
      MET_PT_STAT.CFG_ERR 1 p).ptLog p 0x0810 WARNING [p]

/-- A value that a sealed field takes (R253, R292, R308, and the table of `MET_PT_CAB_T`); another is refused. -/
def sealedValueOk (f : Field) (v : Nat) : Bool :=
  if f = MET_CH_GAIN.GAIN then decide (0x38000000 ≤ v) && decide (v ≤ 0x48000000)
  else if f = MET_CH_SCALE.SCALE then fFinite (BitVec.ofNat 32 v) && (decide (v < 2 ^ 31) || v == 2 ^ 31)
  else if f = MET_PT_CAB_T.CAB_TSRC then decide (v < 0x30) || v == 0x40 || v == 0x41 || v == 0xFF
  else if f = BIL_CFG.DEM_LEN then v != 0 && 60 % v == 0
  else if f = BIL_DISP_SEQ.CODE then decide (v ≤ 0xB)
  else true

/-- The bits of `m` less those of sealed fields whose value in `w` is refused. -/
def sealedTaken (a : Nat) (m w : Word) : Word :=
  (fieldsAt a).foldl (fun k f =>
    if f.acc = .rws ∧ m &&& f.mask ≠ 0 ∧ !sealedValueOk f (w.toNat / 2 ^ f.lo % 2 ^ f.w) then k &&& ~~~f.mask else k) m

/-- What a point holds of its channels restarts where it names others. -/
def State.ptChannels (s : State) (p v i : Nat) : State :=
  let x := s.pt p
  let sv := s.get MET_PT_CFG.V_CH p == v
  let si := s.get MET_PT_CFG.I_CH p == i
  s.setPt p { x with
    lineV := if sv then x.lineV else [], modV := if sv then x.modV else [], lineI := if si then x.lineI else [], modI := if si then x.modI else [] }

/-- `MET_PT_CFG` takes a word: `EN` follows R256. A word with `EN` = 1 that a point already enabled takes is judged as any write of `EN` = 1:
where a condition fails, the point is disabled (log 127). -/
def State.ptCfgWrite (s : State) (p : Nat) (w : Word) : State :=
  let a := MET_PT_CFG.EN.at p 0
  let t := (s.setWord a (w &&& ~~~MET_PT_CFG.EN.mask)).ptChannels p (s.get MET_PT_CFG.V_CH p) (s.get MET_PT_CFG.I_CH p)
  let off := t.when (s.is MET_PT_CFG.EN p) fun u => u.ptOff p
  if w &&& MET_PT_CFG.EN.mask = 0 then off
  else if t.ptCfgOk p then (t.put MET_PT_CFG.EN 1 p).put MET_PT_STAT.CFG_ERR 0 p
  else (off.put MET_PT_STAT.CFG_ERR 1 p).ptLog p 0x0810 WARNING [p]

/-- The masked bits of a word of a sealed set change; `always` notes the word even where it stays as it was (R486). -/
def State.sealedWrite (s : State) (a : Nat) (m w : Word) (always : Bool) : State :=
  let k := sealedTaken a m w
  let new := (s.word a &&& ~~~k) ||| (w &&& k)
  let t := if MET_PT_CFG.EN.covers a then (s.ptCfgWrite ((a - MET_PT_CFG.EN.addr) / MET_PT_CFG.EN.s1) new).metShow else s.setWord a new
  if always || s.word a &&& sealedBits a != t.word a &&& sealedBits a then t.sealedNote a (s.word a) else t

/-- r(T) of R260 in 0.1 µΩ, in binary64, each operation of the formula rounded in the order written (log 11). -/
def State.cableR (s : State) (p : Nat) : Dbl :=
  let dT := Dbl.ratio ((s.pt p).t - s.geti MET_PT_CAB_A.CAB_TREF p) 10
  let k := Dbl.add ⟨1, 0⟩ (Dbl.mul (Dbl.mul ⟨s.get MET_PT_CAB_A.CAB_ALPHA p, 0⟩ (Dbl.ratio 1 (10 ^ 6))) dT)
  Dbl.add (Dbl.mul ⟨s.get MET_PT_CAB_RREF.CAB_RREF p, 0⟩ k) ⟨s.get MET_PT_CAB_RFIX.CAB_RFIX p, 0⟩

/-- The loss of R260 in 0.1 nW, for a current in 10 µA: I² × r(T) in binary64, rounded to the nearest unit (log 11). A point without a
voltage channel has no loss: its powers are 0 (R256). -/
def State.cableLoss (s : State) (p : Nat) (i : Int) : Int :=
  if s.is MET_PT_CFG.CAB_EN p && !s.currentOnly p then
    let a := Dbl.round i 0
    (Dbl.mul (Dbl.mul (Dbl.mul a a) (s.cableR p)) (Dbl.ratio 1 (10 ^ 7))).nearest
  else 0

/-- A value multiplied by 1 + `REF_CORR` × 10^-8 and rounded (R263). -/
def State.refCorr (s : State) (v : Int) : Int :=
  let c := s.geti MET_REF_CORR.REF_CORR
  if c = 0 then v else divNear (v * (10 ^ 8 + c)) (10 ^ 8)

/-- The quantity of a pulse output or a register: 0 inlet forward to 6 charge reverse (R269). -/
def PtAcc.qty (a : PtAcc) : Nat → Nat
  | 0 => a.iF | 1 => a.iR | 2 => a.mF | 3 => a.mR | 4 => a.loss | 5 => a.aF | 6 => a.aR | _ => 0

/-- The units of one pulse (R269): `WT` in mWh or mAh, 0 taken as 1. -/
def State.pulWeight (s : State) (n : Nat) : Nat :=
  max 1 (s.get MET_PUL_WT.WT n) * (if 5 ≤ s.get MET_PUL_CFG.QTY n then unitsPerMah else 10 ^ 6 * unitsPerNwh)

/-- A write to `PT`, `QTY` or `WT`, or a set of `EN`, restarts the count of an output and discards what waits (R269). -/
def State.pulRestart (s : State) (n : Nat) : State := (s.setPul n { s.pul n with count := 0, m := 0 }).put MET_PUL_STAT.PEND 0 n

/-- An output starts to conduct: one pulse more. -/
def State.pulStart (s : State) (n : Nat) : State :=
  let s1 := (s.setPul n { s.pul n with phase := 1 }).put MET_PUL_CNT.CNT ((s.get MET_PUL_CNT.CNT n + 1) % 2 ^ 32) n
  { s1 with pins := { s1.pins with pul := setBit s1.pins.pul n } }

end Sys2Proof.Machine
end

