-- ==== Sys2Proof/Machine/BillOps.lean ====
section
/-! DEFINITION. Billing's shared operations (spec/12_billing_tariffs.md): billing time and local time, the tariff calendar,
records and their stores, demand intervals, billing periods, sessions and the meter display. -/

namespace Sys2Proof.Machine

open R

/-! ### Dates -/

/-- A date: year, month 1 to 12, day 1 to 31. -/
structure Civil where
  y : Nat
  m : Nat
  d : Nat
deriving DecidableEq, Repr

/-- The days from 0000-03-01 to a date of the proleptic Gregorian calendar. -/
def Civil.days (c : Civil) : Nat :=
  let y := if c.m ≤ 2 then c.y - 1 else c.y
  let mp := (c.m + 9) % 12
  365 * y + y / 4 - y / 100 + y / 400 + (153 * mp + 2) / 5 + c.d - 1

/-- The date of a number of days from 0000-03-01. -/
def civilOf (n : Nat) : Civil :=
  let era := n / 146097
  let doe := n % 146097
  let yoe := (doe - doe / 1460 + doe / 36524 - doe / 146096) / 365
  let doy := doe - (365 * yoe + yoe / 4 - yoe / 100)
  let mp := (5 * doy + 2) / 153
  let m := if mp < 10 then mp + 3 else mp - 9
  { y := yoe + 400 * era + (if m ≤ 2 then 1 else 0), m := m, d := doy - (153 * mp + 2) / 5 + 1 }

/-- 1970-01-01 in days from 0000-03-01. -/
def epochDay : Nat := 719468

/-- The weekday of a number of days from 0000-03-01: 0 Monday to 6 Sunday (0000-03-01 is a Wednesday). -/
def weekday (n : Nat) : Nat := (n + 2) % 7

/-- The days of a month. -/
def monthDays (y m : Nat) : Nat :=
  if m = 2 then (if y % 4 = 0 ∧ (y % 100 ≠ 0 ∨ y % 400 = 0) then 29 else 28)
  else if m = 4 ∨ m = 6 ∨ m = 9 ∨ m = 11 then 30 else 31

/-- A date exists; with year 0, in some year. -/
def validDate (y m d : Nat) : Bool :=
  decide (1 ≤ m) && decide (m ≤ 12) && decide (1 ≤ d) && decide (d ≤ monthDays (if y = 0 then 2000 else y) m)

/-- A daylight rule names a day (R286): month 1 to 12, week 1 to 5, weekday 0 to 6, hour 0 to 23. -/
def dstRuleOk (r : Nat) : Bool :=
  let m := r % 16
  let w := r / 16 % 8
  decide (1 ≤ m) && decide (m ≤ 12) && decide (1 ≤ w) && decide (w ≤ 5) && decide (r / 128 % 8 ≤ 6) && decide (r / 1024 % 32 ≤ 23)

/-- The UTC second of a daylight rule in a year (R286): week 5 is the last such weekday of the month. -/
def dstInstant (y r : Nat) : Nat :=
  let m := r % 16
  let w := r / 16 % 8
  let wd := r / 128 % 8
  let first := ({ y := y, m := m, d := 1 } : Civil).days
  let d0 := first + (wd + 7 - weekday first) % 7
  let d := if w = 5 then (if d0 + 28 < first + monthDays y m then d0 + 28 else d0 + 21) else d0 + 7 * (w - 1)
  (d - epochDay) * 86400 + r / 1024 % 32 * 3600

/-- Daylight time is in force at a BT second (R286). A rule that names no day gives no instant, and no daylight time (log 13). -/
def State.daylight (s : State) (bt : Nat) : Bool :=
  let rb := s.get BIL_DST.DST_BEGIN
  let re := s.get BIL_DST.DST_END
  if s.is BIL_TZ.DST_EN && dstRuleOk rb && dstRuleOk re then
    let y := (civilOf (bt / 86400 + epochDay)).y
    let b := dstInstant y rb
    let e := dstInstant y re
    if b ≤ e then decide (b ≤ bt) && decide (bt < e) else !(decide (e ≤ bt) && decide (bt < b))
  else false

/-- The local offset in seconds with or without daylight time. -/
def State.localOfs (s : State) (dst : Bool) : Int :=
  60 * (s.geti BIL_TZ.TZ_STD + (if dst then (s.get BIL_TZ.DST_OFS : Int) else 0))

/-- Local time (R286), counted from 0000-03-01 so that it is never negative. -/
def State.local (s : State) (bt : Nat) : Nat :=
  ((bt : Int) + (epochDay : Int) * 86400 + s.localOfs (s.daylight bt)).toNat

/-! ### The tariff calendar (R287 to R290) -/

/-- A word of a calendar bank. -/
def State.calWord (s : State) (bank i : Nat) : Nat := (sparseGet 0#32 (2048 * bank + i) s.bil.cal).toNat

/-- The active bank. -/
def State.calBank (s : State) : Nat := s.get BIL_CAL_CTRL.ACT_BANK

/-- A season's start as month·32 + day; 0 unused. -/
def State.seasonKey (s : State) (bank n : Nat) : Nat :=
  let w := s.calWord bank (3 * n)
  if w % 16 = 0 then 0 else w % 16 * 32 + w / 16 % 32

/-- The season in force at a date: the latest start on or before it, counted round the year. -/
def State.seasonAt (s : State) (bank md : Nat) : Nat :=
  let best := fun (lim : Nat) => (List.range 8).foldl (fun (b : Nat × Nat) n =>
    let k := s.seasonKey bank n
    if k ≠ 0 ∧ k ≤ lim ∧ b.1 < k then (k, n) else b) (0, 0)
  let b := best md
  if b.1 = 0 then (best 511).2 else b.2

/-- The day profile a season gives for a weekday. -/
def State.seasonProfile (s : State) (bank n wd : Nat) : Nat :=
  if wd < 4 then s.calWord bank (3 * n + 1) / 2 ^ (5 * wd) % 32 else s.calWord bank (3 * n + 2) / 2 ^ (5 * (wd - 4)) % 32

/-- The special day that governs a date: an entry for its year, else an every-year entry. -/
def State.specialAt (s : State) (bank : Nat) (c : Civil) : Option Nat :=
  let hit := fun (y : Nat) => (List.range 128).find? fun j =>
    let w := s.calWord bank (0x500 + j)
    bit w 31 && w % 65536 == y && w / 65536 % 16 == c.m && w / 2 ^ 20 % 32 == c.d
  match hit c.y with
  | some j => some j
  | none => hit 0

/-- The minute of the day of a switching point. -/
def pointMinute (w : Nat) : Nat := w % 32 * 60 + w / 32 % 64

/-- The rate of a day profile at a local time of day: that of the last used point at or before it. -/
def State.profileRate (s : State) (bank n tod : Nat) : Nat :=
  ((List.range 24).foldl (fun (r : Nat) k =>
    let w := s.calWord bank (0x100 + 0x20 * n + k)
    if bit w 31 && decide (pointMinute w * 60 ≤ tod) then w / 2 ^ 12 % 16 else r) 0)

/-- The rate for a BT second is found (R287) and `BIL_STAT` shows how. -/
def State.findRate (s : State) (bt : Nat) : State :=
  if !s.is BIL_STAT.CLK_VALID || !s.is BIL_CAL_CTRL.CAL_OK then
    (((s.put BIL_STAT.RATE 0).put BIL_STAT.T0_FALLBACK 1).put BIL_STAT.SPECIAL 0)
  else
    let b := s.calBank
    let l := s.local bt
    let day := l / 86400
    let c := civilOf day
    let sea := s.seasonAt b (c.m * 32 + c.d)
    let sp := s.specialAt b c
    let prof := match sp with
      | some j => s.calWord b (0x500 + j) / 2 ^ 25 % 32
      | none => s.seasonProfile b sea (weekday day)
    let s1 := (s.put BIL_STAT.RATE (s.profileRate b prof (l % 86400))).put BIL_STAT.T0_FALLBACK 0
    ((s1.put BIL_STAT.SEASON sea).put BIL_STAT.DAYPROF prof).putb BIL_STAT.SPECIAL sp.isSome

/-- The first index at which a check of a calendar bank fails, below `n`. -/
def firstBad (n : Nat) (bad : Nat → Bool) : Option Nat := (List.range n).find? bad

/-- The first point of a profile that fails R290: no used point at 00:00, or a point not above the one before it. -/
def State.badProfile (s : State) (bank n : Nat) : Option Nat :=
  let w := fun (k : Nat) => s.calWord bank (0x100 + 0x20 * n + k)
  let used := (List.range 24).filter fun k => bit (w k) 31
  match used with
  | [] => some (0x100 + 0x20 * n)
  | k :: _ =>
    if pointMinute (w k) ≠ 0 then some (0x100 + 0x20 * n + k)
    else (firstBad 24 fun j => bit (w j) 31 && used.any fun i => decide (i < j) && decide (pointMinute (w j) ≤ pointMinute (w i))).map
      fun j => 0x100 + 0x20 * n + j

/-- The profiles that the used seasons and special days of a bank name. -/
def State.namedProfiles (s : State) (bank : Nat) : List Nat :=
  (List.range 32).filter fun n =>
    ((List.range 8).any fun k => s.seasonKey bank k != 0 && (List.range 7).any fun d => s.seasonProfile bank k d == n) ||
    ((List.range 128).any fun j => let w := s.calWord bank (0x500 + j); bit w 31 && w / 2 ^ 25 % 32 == n)

/-- The check of R290 over a bank: `CHK_STATUS` and `CHK_WORD`. -/
def State.calCheck (s : State) (bank : Nat) : Nat × Nat :=
  let sp := fun (j : Nat) => s.calWord bank (0x500 + j)
  if (List.range 8).all fun n => s.seasonKey bank n == 0 then (2, 0)
  else
    match firstBad 8 (fun n => let k := s.seasonKey bank n; k != 0 && !validDate 0 (k / 32) (k % 32)) with
    | some n => (3, 3 * n)
    | none =>
      match firstBad 128 (fun j => bit (sp j) 31 && !validDate (sp j % 65536) (sp j / 65536 % 16) (sp j / 2 ^ 20 % 32)) with
      | some j => (3, 0x500 + j)
      | none =>
        match (s.namedProfiles bank).findSome? (s.badProfile bank) with
        | some i => (4, i)
        | none =>
          match firstBad 128 (fun j => bit (sp j) 31 && (List.range j).any fun i =>
              bit (sp i) 31 && sp i % 2 ^ 25 == sp j % 2 ^ 25) with
          | some j => (5, 0x500 + j)
          | none =>
            if s.is BIL_TZ.DST_EN && !(dstRuleOk (s.get BIL_DST.DST_BEGIN) && dstRuleOk (s.get BIL_DST.DST_END)) then (6, 0)
            else (1, 0)

/-- A failed check (R289): the status, the word and event 0x0912. -/
def State.calRefuse (s : State) (r : Nat × Nat) : State :=
  (((s.put BIL_CAL_CTRL.CHK_STATUS r.1).put BIL_CAL_CTRL.CHK_WORD r.2).put BIL_CAL_CTRL.ACTIVATE 0).log 0x0912 WARNING
    (r.1 :: leBytes 2 r.2)

/-- The activation (R289): the banks exchange roles, `CAL_OK`, the digest of the new active bank, event 0x0911. -/
def State.calSwap (s : State) : State :=
  let b := 1 - s.calBank
  let s1 := ((s.put BIL_CAL_CTRL.ACT_BANK b).put BIL_CAL_CTRL.CAL_OK 1).put BIL_CAL_CTRL.ACTIVATE 0
  let s2 := s1.put BIL_CAL_DIG.CAL_DIG (shaLowWords 32 ((List.range 0x580).map (s1.calWord b)))
  s2.log 0x0911 LEGAL (leBytes 4 (s2.get BIL_CAL_DIG.CAL_DIG))

/-- A calendar activation that falls due at this tick is applied (R289, R301 step 4). -/
def State.calDue (s : State) : State :=
  if !s.is BIL_CAL_CTRL.ACTIVATE then s
  else if !s.is BIL_CAL_CTRL.AT_TIME then s.calSwap
  else if s.get BIL_BT.BT < s.get BIL_CAL_TIME.CAL_TIME then s
  else
    let r := s.calCheck (1 - s.calBank)
    if r.1 = 1 then s.calSwap else s.calRefuse r

/-! ### Records (R291, R298 to R300) -/

/-- The legal points (R281): enabled, with `LEGAL` = 1. -/
def State.legalPts (s : State) : List Nat := (List.range 8).filter fun p => s.is MET_PT_CFG.EN p && s.is MET_PT_CFG.LEGAL p

/-- The live inlet energy of a point in Wh, forward. -/
def State.whF (s : State) (p : Nat) : Nat := whOf (s.pt p).acc.iF

/-- The live inlet energy of a point in Wh, reverse. -/
def State.whR (s : State) (p : Nat) : Nat := whOf (s.pt p).acc.iR

/-- The stamp of the last sample of a point. -/
def State.lastStamp (s : State) (p : Nat) : Nat :=
  match (s.pt p).hist with
  | (t, _) :: _ => t
  | [] => 0

/-- The flags that the present second adds to open records (R300): CLKINV, T0, TAMPER. -/
def State.secondFlags (s : State) : Nat :=
  (if s.is BIL_STAT.CLK_VALID then 0 else 8) + (if s.is BIL_STAT.T0_FALLBACK then 16 else 0) + (if s.is BIL_TMP.TMP_PEND then 32 else 0)

/-- The flags that a record gets at its end: UNSEALED, and INVALID for its point. -/
def State.endFlags (s : State) (invalid : Bool) : Nat := (if s.isSealed then 0 else 64) + (if invalid then 128 else 0)

/-- The bytes of a signature (R298). -/
def sigLen (alg : Nat) : Nat := if alg = 0 then 64 else if alg = 1 then 96 else if alg = 2 then 132 else 114

/-- The running BT second: its flags with those of conditions that have ended in it. -/
def State.second (s : State) : BSec where
  bt := s.get BIL_BT.BT
  rate := s.get BIL_STAT.RATE
  clk := s.get BIL_STAT.CLK_ST
  epoch := s.get BIL_EPOCH.EPOCH
  flags := s.secondFlags ||| s.bil.sec
  alg := s.bil.alg
  paramDig := s.get MET_PARAM_DIG.DIG
  bilDig := s.get BIL_DIG.BIL_DIG

/-- What holds now has held in some part of the running second (R300): noted before it ends. -/
def State.secMark (s : State) : State := { s with bil := { s.bil with sec := s.bil.sec ||| s.secondFlags } }

/-- The second to which a sample with a stamp belongs (R282). -/
def State.secondOf (s : State) (stamp : Nat) : BSec := if stamp < s.bil.latch then s.bil.last else s.second

/-- The header of a record (R298), of which `sec` is the last second. -/
def State.recHeader (s : State) (sec : BSec) (kind p num bt0 bt1 flags : Nat) : List Nat :=
  [1, kind, p, sec.alg] ++ leBytes 4 num ++ leBytes 8 s.serial ++ leBytes 4 bt0 ++ leBytes 4 bt1 ++
    leBytes 2 sec.epoch ++ [sec.clk, sec.rate] ++ leBytes 2 flags ++ [0, 0] ++ leBytes 4 sec.paramDig ++ leBytes 4 sec.bilDig

/-- What `BIL_STORE` and `BIL_STORE_PER` show of the stores; 2,048 records that are not acknowledged show as 0x7FF with `SESS_FULL`. -/
def State.bilShow (s : State) : State :=
  let n := s.bil.sess.length
  let open_ := (s.bil.ints ++ s.bil.sess ++ s.bil.pers).any fun r => r.sig.isNone
  ((((s.put BIL_STORE.INT_N s.bil.ints.length).put BIL_STORE.SESS_UNACK (min n 0x7FF)).putb BIL_STORE.SIG_PEND open_).put
    BIL_STORE_PER.PER_N s.bil.pers.length).putb BIL_STORE.SESS_FULL (s.is BIL_STORE.SESS_FULL || decide (2048 ≤ n))

/-- A list that overwrites its oldest entry first. -/
def pushOldest {α : Type} (cap : Nat) (l : List α) (x : α) : List α := (if l.length < cap then l else l.drop 1) ++ [x]

/-- Makes a record (R298, R299): numbered for its kind and point, stored unsigned. -/
def State.makeRecord (s : State) (sec : BSec) (kind p bt0 bt1 flags : Nat) (body : List Nat) : State :=
  let num := sparseGet 0 (8 * kind + p) s.bil.nums + 1
  let r : MRec := { kind := kind, pt := p, num := num, bytes := s.recHeader sec kind p num bt0 bt1 flags ++ body, sig := none }
  let b := { s.bil with nums := sparsePut 0 (8 * kind + p) num s.bil.nums }
  let b1 :=
    if kind = 1 then { b with ints := pushOldest 4096 b.ints r }
    else if kind = 2 then { b with sess := b.sess ++ [r] }
    else { b with pers := pushOldest 256 b.pers r }
  { s with bil := b1 }.bilShow

/-- The record that `BIL_REC_ADDR` selects; a number is held by its low 19 bits. -/
def State.recSelected (s : State) : Option MRec :=
  let k := s.get BIL_REC_ADDR.KIND
  let l := if k = 1 then s.bil.ints else if k = 2 then s.bil.sess else if k = 3 then s.bil.pers else []
  l.find? fun r => r.pt == s.get BIL_REC_ADDR.PT && r.num % 2 ^ 19 == s.get BIL_REC_ADDR.NUM

/-- What `BIL_REC_STAT` and `BIL_REC_DATA` show of the selected record. -/
def State.recShow (s : State) : State :=
  match s.recSelected with
  | none => (((s.put BIL_REC_STAT.PRESENT 0).put BIL_REC_STAT.SIGNED 0).put BIL_REC_STAT.LEN 0).put BIL_REC_DATA.DATA 0
  | some r =>
    let all := r.bytes ++ (match r.sig with | some g => g | none => List.replicate (sigLen (byteAt r.bytes 3)) 0)
    let w := s.get BIL_REC_ADDR.WORD
    (((s.put BIL_REC_STAT.PRESENT 1).putb BIL_REC_STAT.SIGNED r.sig.isSome).put BIL_REC_STAT.LEN all.length).put BIL_REC_DATA.DATA
      (ofLeBytes ((all.drop (4 * w)).take 4))

/-- A word of the rate registers (R291, `BIL_TR_ADDR`). -/
def State.trWord (s : State) (p r w : Nat) : Nat :=
  let k := 16 * p + r
  let f := sparseGet 0 k s.bil.rateF
  let v := sparseGet 0 k s.bil.rateR
  match w with
  | 0 => f / 10 ^ 9 % 2 ^ 32 | 1 => f / 10 ^ 9 / 2 ^ 32 | 2 => v / 10 ^ 9 % 2 ^ 32 | 3 => v / 10 ^ 9 / 2 ^ 32
  | 4 => sparseGet 0 k s.bil.maxDem | 5 => sparseGet 0 k s.bil.maxBt
  | 6 => f % 2 ^ 32 | 7 => f / 2 ^ 32 % 2 ^ 32 | 8 => f / 2 ^ 64 | 9 => v % 2 ^ 32 | 10 => v / 2 ^ 32 % 2 ^ 32 | 11 => v / 2 ^ 64
  | _ => 0

/-! ### Intervals and periods (R292 to R295) -/

/-- The interval record of one point (R293), with the readings as they stand; the demand enters the maximum of the rate in force in the
interval's last second, and the readings become those of the previous end. -/
def State.closeIntPt (s : State) (sec : BSec) (x : BSpan) (len p : Nat) : State :=
  let ls := 60 * len
  let df := (s.whF p - sparseGet 0 p s.bil.prevF) * 3600 / ls
  let dr := (s.whR p - sparseGet 0 p s.bil.prevR) * 3600 / ls
  let fl := x.flags ||| (if (s.pt p).badInt then 128 else 0)
  let s1 := s.makeRecord sec 1 p x.bt0 x.bt1 fl
    (leBytes 8 (s.whF p) ++ leBytes 8 (s.whR p) ++ leBytes 8 (whOf (s.pt p).acc.loss) ++ leBytes 4 df ++ leBytes 4 dr ++
      leBytes 8 (s.lastStamp p))
  let s2 := ((s1.put BIL_PT_DEMF.DEM_F df p).put BIL_PT_DEMR.DEM_R dr p).setPt p { s1.pt p with badInt := false }
  let s3 := { s2 with bil := { s2.bil with prevF := sparsePut 0 p (s.whF p) s2.bil.prevF, prevR := sparsePut 0 p (s.whR p) s2.bil.prevR } }
  let k := 16 * p + sec.rate
  if fl &&& 140 = 0 ∧ sparseGet 0 k s3.bil.maxDem < df then
    { s3 with bil := { s3.bil with maxDem := sparsePut 0 k df s3.bil.maxDem, maxBt := sparsePut 0 k x.bt1 s3.bil.maxBt } }
  else s3

/-- The period record of one point (R295, R298); its maximum demands are reset. -/
def State.closePerPt (s : State) (sec : BSec) (x : BSpan) (p : Nat) : State :=
  let wh := (List.range 16).flatMap fun r =>
    leBytes 8 (sparseGet 0 (16 * p + r) s.bil.rateF / 10 ^ 9) ++ leBytes 8 (sparseGet 0 (16 * p + r) s.bil.rateR / 10 ^ 9)
  let md := (List.range 16).flatMap fun r =>
    leBytes 4 (sparseGet 0 (16 * p + r) s.bil.maxDem) ++ leBytes 4 (sparseGet 0 (16 * p + r) s.bil.maxBt)
  let fl := x.flags ||| (if (s.pt p).badPer then 128 else 0)
  let s1 := (s.makeRecord sec 3 p x.bt0 x.bt1 fl (wh ++ md)).setPt p { s.pt p with badPer := false }
  let other := fun (l : List (Nat × Nat)) => l.filter fun (q : Nat × Nat) => q.1 / 16 != p
  { s1 with bil := { s1.bil with maxDem := other s1.bil.maxDem, maxBt := other s1.bil.maxBt } }

/-- What a boundary closes is recorded for one point: the interval, then the period (R301). -/
def State.closePt (s : State) (c : BClose) (p : Nat) : State :=
  let s1 := match c.int with | some (x, len) => s.closeIntPt c.sec x len p | none => s
  match c.per with | some x => s1.closePerPt c.sec x p | none => s1

/-- The samples of a point that belong to the second before the last tick are all in: its records of that tick are made (R301). -/
def State.settle (s : State) (p : Nat) : State :=
  if s.bil.left.contains p then { s with bil := { s.bil with left := s.bil.left.erase p } }.closePt s.bil.due p else s

/-- A sample of a point is about to be booked: the first of a new second ends the one before (R282). -/
def State.billSettle (s : State) (p stamp : Nat) : State := if stamp < s.bil.latch then s else s.settle p

/-- No further sample of the second before the last tick is awaited. -/
def State.settleAll (s : State) : State := s.bil.left.foldl State.settle s

/-- At an interval end the readings of a point that is not legal become those of the previous end, from which a demand is computed once
it is legal (R293). -/
def State.endRead (s : State) (p : Nat) : State :=
  { s with bil := { s.bil with prevF := sparsePut 0 p (s.whF p) s.bil.prevF, prevR := sparsePut 0 p (s.whR p) s.bil.prevR } }

/-- A boundary closes an interval or a period: every legal point's records are made once its samples of the second are in. -/
def State.owe (s : State) (c : BClose) : State :=
  if c.int.isNone ∧ c.per.isNone then s
  else
    let s1 := s.when c.int.isSome fun t => t.each 8 fun p u => if s.legalPts.contains p then u else u.endRead p
    { s1 with bil := { s1.bil with due := c, left := s.legalPts } }

/-- The last local `PER_HOUR`:00 of the period mode in (old, new], in BT (R295); none where there is none. -/
def State.periodBoundary (s : State) (old new : Nat) : Option Nat :=
  let h := s.get BIL_CFG.PER_HOUR * 3600
  let mode := s.get BIL_CFG.PER_MODE
  let cand := fun (dst : Bool) =>
    let ofs := s.localOfs dst + (epochDay : Int) * 86400
    let l := ((new : Int) + ofs).toNat
    let days := if mode = 1 then [l / 86400, l / 86400 - 1, l / 86400 - 2]
      else if mode = 2 then
        let c := civilOf (l / 86400)
        let d := clampN 1 28 (s.get BIL_CFG.PER_DAY)
        let prev := fun (c : Civil) => if c.m ≤ 1 then { c with y := c.y - 1, m := 12 } else { c with m := c.m - 1 }
        [{ c with d := d }, { prev c with d := d }, { prev (prev c) with d := d }].map Civil.days
      else []
    days.filterMap fun (day : Nat) =>
      let b := (day * 86400 + h : Int) - ofs
      if (old : Int) < b ∧ b ≤ new ∧ s.daylight b.toNat = dst then some b.toNat else none
  (cand false ++ cand true).foldl (fun (m : Option Nat) b => match m with | some x => some (max x b) | none => some b) none

/-! ### Sessions (R296, R297) -/

/-- Puts a value under a key of a list in rising key order. -/
def keyPut {α : Type} (k : Nat) (v : α) : List (Nat × α) → List (Nat × α)
  | [] => [(k, v)]
  | (a, u) :: t => if k < a then (k, v) :: (a, u) :: t else if k = a then (k, v) :: t else (a, u) :: keyPut k v t

/-- The record of a session that ends (R296, R298), from its end reading, in a second. -/
def State.sessRecord (s : State) (sec : BSec) (p : Nat) (x : BSess) (e : Reading) (reason : Nat) : State :=
  let b := x.start.getD e
  let flags := x.flags ||| sec.flags ||| s.endFlags (s.pt p).badSess
  let s1 := { s with bil := { s.bil with opn := s.bil.opn.filter fun q => q.1 != p } }
  let s2 := s1.makeRecord sec 2 p x.bt sec.bt flags
    (leBytes 8 b.f ++ leBytes 8 e.f ++ leBytes 8 b.r ++ leBytes 8 e.r ++ leBytes 8 b.stamp ++ leBytes 8 e.stamp ++
      (List.range 32).map (byteAt x.ident) ++ leBytes 4 x.id ++ [reason, x.conn] ++ leBytes 2 x.rates)
  (s2.put BIL_PT_SESS.SESS_WH 0 p).log 0x0915 INFO [p]

/-- A sample of a legal point reaches Billing (R282, R291, R296): the nWh it carried are booked to the rate of the second it belongs to, and
a session takes its opening or closing readings, and its BT, at the first sample at or after the named stamp. -/
def State.billSample (s : State) (p stamp : Nat) (old new : PtAcc) : State :=
  if !s.is MET_PT_CFG.LEGAL p || !s.bilRuns || s.met.closed then s
  else
    let sec := s.secondOf stamp
    let k := 16 * p + sec.rate
    let add := fun (a b : Nat) (l : List (Nat × Nat)) => if nwh b ≤ nwh a then l else sparsePut 0 k (sparseGet 0 k l + (nwh b - nwh a)) l
    let s1 := { s with bil := { s.bil with rateF := add old.iF new.iF s.bil.rateF, rateR := add old.iR new.iR s.bil.rateR } }
    let e : Reading := { f := whOf new.iF, r := whOf new.iR, stamp := stamp }
    match s1.bil.opn.find? (fun q => q.1 == p) with
    | none => s1
    | some (_, x) =>
      let first := x.start.isNone && decide (x.openAt ≤ stamp)
      let x1 := if first then { x with start := some e, bt := sec.bt, flags := if stamp < s.bil.latch then sec.flags else 0 } else x
      let x2 := if x1.start.isSome then { x1 with rates := setBit x1.rates sec.rate } else x1
      let s2 := ({ s1 with bil := { s1.bil with opn := s1.bil.opn.map fun (q : Nat × BSess) => if q.1 = p then (p, x2) else q } }).when first
        fun t => t.setPt p { t.pt p with badSess := !t.is MET_PT_STAT.VALID p }
      match x2.start with
      | none => s2
      | some b =>
        let s3 := s2.put BIL_PT_SESS.SESS_WH (min (e.f - b.f) 0xFFFFFFFF) p
        match x2.closeAt with
        | some (t, reason) => if t ≤ stamp then s3.sessRecord sec p x2 e reason else s3
        | none => s3

/-- Billing opens a session on a legal point, or refuses (R297, R447): answers whether it did. A point that is not legal has no
record and is not refused. An open session holds the slot that its record will need (log 128). -/
def State.billOpen (s : State) (p conn id : Nat) (ident : List Nat) (stamp : Nat) : Bool × State :=
  if !s.legalPts.contains p || s.bil.opn.any (fun q => q.1 == p) then (true, s)
  else if 2048 ≤ s.bil.sess.length + s.bil.opn.length ∨ 8192 ≤ s.evr.mor.length ∨ s.met.closed ∨ !s.bilRuns then
    (false, if 2048 ≤ s.bil.sess.length + s.bil.opn.length then (s.put BIL_STORE.SESS_FULL 1).log 0x0914 WARNING else s)
  else
    let x : BSess := {
      conn := conn, id := id, ident := ident, openAt := stamp, start := none, bt := s.get BIL_BT.BT, flags := 0, rates := 0, closeAt := none }
    (true, { s with bil := { s.bil with opn := keyPut p x s.bil.opn } }.setPt p { s.pt p with badSess := false })

/-- The Vehicle Session asks Billing to close a point's session (R296). -/
def State.billEnd (s : State) (p reason stamp : Nat) : State :=
  { s with bil := { s.bil with opn := s.bil.opn.map fun (q : Nat × BSess) =>
      if q.1 = p ∧ q.2.closeAt.isNone then (q.1, { q.2 with closeAt := some (stamp, reason) }) else q } }

/-- Billing closes on a supply fail (R302): what the last tick still owes, every open session with reason 0xFE and POWER, event 0x0917. -/
def State.billClose (s : State) : State :=
  let s0 := s.settleAll
  let s1 := s0.bil.opn.foldl (fun t (q : Nat × BSess) =>
    t.sessRecord t.second q.1 { q.2 with flags := q.2.flags ||| 1 } ⟨t.whF q.1, t.whR q.1, t.lastStamp q.1⟩ 0xFE) s0
  s1.log 0x0917 LEGAL (leBytes 4 (s.get BIL_BT.BT))

/-- A write to `BIL_SESS_ACK` (R297): a lower value is ignored. -/
def State.sessAck (s : State) (n : Nat) : State :=
  if n < s.get BIL_SESS_ACK.ACK_NUM then s
  else
    let s1 := s.put BIL_SESS_ACK.ACK_NUM n
    let s2 := { s1 with bil := { s1.bil with sess := s1.bil.sess.filter fun r => decide (n < r.num) } }.bilShow
    if s2.bil.sess.length < 2048 then s2.put BIL_STORE.SESS_FULL 0 else s2

/-! ### Time (R284, R514, R517) -/

/-- The RTC is set from UTC (R284, R514): event 0x0901 with the step; `SYNC_AGE` 0; a stale clock is valid again. -/
def State.rtcSync (s : State) (utc : Nat) : State :=
  let step := (utc : Int) - (s.rtc : Int)
  let s1 := ((s.put SYS_RTC.UTC utc).put SYS_TIME_STAT.RTC_SET 1).put BIL_SYNC.SYNC_AGE 0
  let s2 := ({ s1 with bil := { s1.bil with synced := true } }).log 0x0901 NOTICE (leBytes 4 (ofSigned 32 step))
  s2.when (s2.get BIL_STAT.CLK_ST == 3) fun t => ((t.secMark.put BIL_STAT.CLK_ST 1).put BIL_STAT.CLK_VALID 1).log 0x0905 LEGAL

/-! ### What MRAM holds (R273, R274, R302) -/

/-- The words of Metrology and Billing. -/
def State.d2Words (s : State) : List (Nat × Word) := s.regs.filter fun p => p.1 / 0x10000 == 8 || p.1 / 0x10000 == 9

/-- The metrology state is committed, with or without the closing mark; Billing's state goes with it, as it is with the records that a
boundary still owes (log 42). -/
def State.metCommit (s : State) (closing : Bool) : State :=
  { s with
    met := { s.met with com := {
      acc := s.met.pts.map fun (p : Nat × PtX) => (p.1, p.2.acc)
      badInt := s.met.pts.map fun (p : Nat × PtX) => (p.1, p.2.badInt)
      badPer := s.met.pts.map fun (p : Nat × PtX) => (p.1, p.2.badPer)
      pul := s.met.pul, regs := s.d2Words, closing := closing } }
    bilCom := s.settleAll.bil }

/-- Accumulation closes on a supply fail (R273), with event 0x0802 and the point mask where it ran; nothing is accumulated or billed from
here on. -/
def State.metClose (s : State) : State :=
  let s1 := s.put MET_STAT.ACC 0
  let s2 := { s1 with met := { s1.met with closed := true } }
  s2.when (s.is MET_STAT.ACC) fun t => t.log 0x0802 LEGAL [s.get MET_STAT.PT_EN]

/-- Billing takes up the committed state too; the calendar's banks and the records, which MRAM holds as they are made (R288, R299), stay. No tick has
latched the keeper since, so samples belong to the running second (R282). -/
def State.bilRestore (s : State) : Bil :=
  { s.bilCom with
    restart := true, left := [], latch := 0, synced := s.bil.synced, cal := s.bil.cal, ints := s.bil.ints, sess := s.bil.sess, pers := s.bil.pers, nums := s.bil.nums }

/-- The words of class N that return to the last commit (R273, R274): pulses, gaps, energies and billing time. The other class N fields of
D2 keep what was written (R12). -/
def comWord (a : Nat) : Bool :=
  let r := a % 0x100
  a == 0x90004 || (decide (0x80400 ≤ a) && decide (a < 0x80480) && (a % 16 == 8 || a % 16 == 12)) ||
    (decide (0x81000 ≤ a) && decide (a < 0x81800) && (r == 0x18 || (decide (0x60 ≤ r) && decide (r < 0xC8))))

/-- After POR or BOR Metrology takes up the committed state (R274). -/
def State.metRestore (s : State) : State :=
  let c := s.met.com
  let s1 := (List.range 8).foldl (fun t p => (t.setPt p { acc := sparseGet {} p c.acc, badInt := sparseGet false p c.badInt, badPer := sparseGet false p c.badPer }).showPt p) { s with met := { com := c } }
  let s2 := { s1 with
    met := { s1.met with pul := c.pul.map fun (p : Nat × PulX) => (p.1, { p.2 with phase := 0 }) }, bil := s.bilRestore
    pins := { s1.pins with pul := 0 } }
  ((s2.put MET_STAT.ACC 0).put MET_STAT.HOLD_WAIT 1).metShow

/-! ### The meter display (R307 to R309) -/

/-- The scroll sequence named by `BIL_DISP_SEQ` as it stands: up to the first code 0x00. -/
def State.dispEntries (s : State) : List (Nat × Nat) :=
  ((List.range 32).map fun i => (s.get BIL_DISP_SEQ.CODE i, s.get BIL_DISP_SEQ.PT i)).takeWhile fun e => e.1 != 0

/-- The default sequence (R308). -/
def State.dispDefault (s : State) : List (Nat × Nat) :=
  s.legalPts.flatMap (fun p => [(1, p), (2, p)]) ++ [(3, 0), (6, 0), (7, 0)]

/-- A sequence may be used: a page 0x01 for every legal point and a page 0x07 (R308). -/
def State.dispOk (s : State) (l : List (Nat × Nat)) : Bool :=
  s.legalPts.all (fun p => l.any fun e => e.1 == 1 && e.2 == p) && l.any fun e => e.1 == 7

/-- The sequence shown. -/
def State.dispSeq (s : State) : List (Nat × Nat) := if s.dispOk s.bil.seq then s.bil.seq else s.dispDefault

/-- The characters of a text. -/
def ascii (t : String) : List Nat := t.toList.map Char.toNat

/-- A number with `k` decimal digits, the highest first. -/
def decimal : Nat → Nat → List Nat
  | 0, _ => []
  | k + 1, n => decimal k (n / 10) ++ [48 + n % 10]

/-- A number with `k` hexadecimal digits, the highest first. -/
def dispHex : Nat → Nat → List Nat
  | 0, _ => []
  | k + 1, n => dispHex k (n / 16) ++ [if n % 16 < 10 then 48 + n % 16 else 55 + n % 16]

/-- A line of 16 characters. -/
def dispLine (l : List Nat) : List Nat := (l ++ List.replicate 16 32).take 16

/-- Thousandths as 8 integer digits and 3 decimals (R308). -/
def dispMilli (n : Nat) : List Nat := decimal 8 (n / 1000) ++ ascii "." ++ decimal 3 n

/-- A time of day. -/
def dispTime (l : Nat) : List Nat :=
  decimal 2 (l % 86400 / 3600) ++ ascii ":" ++ decimal 2 (l % 3600 / 60) ++ ascii ":" ++ decimal 2 (l % 60)

/-- A date. -/
def dispDate (l : Nat) : List Nat :=
  let c := civilOf (l / 86400)
  decimal 4 c.y ++ decimal 2 c.m ++ decimal 2 c.d

/-- The two lines of a page (R308). The content is the rule's; the words beside it and their places are the model's (log 14). -/
def State.pageLines (s : State) (code p : Nat) : List Nat × List Nat :=
  let bt := s.get BIL_BT.BT
  let r := s.get BIL_STAT.RATE
  let pt := ascii "P" ++ decimal 1 p ++ ascii " "
  let rate := fun (k : Nat) => ascii "T" ++ decimal 2 k
  match code with
  | 1 => (pt ++ ascii "kWh forward", dispMilli (s.whF p % 10 ^ 11))
  | 2 => (pt ++ ascii "kWh reverse", dispMilli (s.whR p % 10 ^ 11))
  | 3 => (ascii "Rate " ++ rate r, dispTime (s.local bt))
  | 4 => (pt ++ ascii "session kWh", if s.bil.opn.any (fun q => q.1 == p) then dispMilli (s.get BIL_PT_SESS.SESS_WH p) else ascii "no session")
  | 5 =>
    let b := (List.range 16).foldl (fun (m : Nat × Nat) k =>
      let d := sparseGet 0 (16 * p + k) s.bil.maxDem
      if m.1 < d then (d, k) else m) (0, 0)
    (pt ++ ascii "max kW " ++ rate b.2, dispMilli b.1)
  | 6 => (ascii "Clk " ++ decimal 1 (s.get BIL_STAT.CLK_ST) ++ ascii " Ep " ++ decimal 5 (s.get BIL_EPOCH.EPOCH),
      dispDate (s.local bt) ++ ascii " " ++ decimal 2 (s.local bt % 86400 / 3600) ++ decimal 2 (s.local bt % 3600 / 60) ++
        decimal 2 (s.local bt % 60))
  | 7 => (ascii "PAR " ++ dispHex 8 (s.get MET_PARAM_DIG.DIG) ++ (if s.isSealed then ascii " SL" else ascii " --"),
      ascii "BIL " ++ dispHex 8 (s.get BIL_DIG.BIL_DIG))
  | 8 => (ascii "MET FW", dispHex 8 (s.get MET_FW_DIG.DIG))
  | 9 => (ascii "Serial", dispHex 16 s.serial)
  | 10 => (ascii "Tamper C" ++ decimal 1 (s.get BIL_TMP.COVER) ++ ascii " T" ++ decimal 1 (s.get BIL_TMP.TERM) ++ ascii " P" ++
        decimal 1 (s.get BIL_TMP.TMP_PEND),
      decimal 5 (s.get BIL_TMP_CNT.COVER_CNT) ++ ascii " " ++ decimal 5 (s.get BIL_TMP_CNT.TERM_CNT))
  | 11 => (pt ++ ascii "Wh " ++ rate r, decimal 16 (s.trWord p r 0 + 2 ^ 32 * s.trWord p r 1))
  | _ => ([], [])

/-- A page frame (R307): 0x02, page index, flags, two lines of 16 characters, the CRC-32 of bytes 1 to 34; during the test of R309 every
character is 0x7F. -/
def State.dispFrame (s : State) : State :=
  let l := s.dispSeq
  let i := s.get BIL_DISP_STAT.PAGE
  let e := (l[i]?).getD (0, 0)
  let s1 := if s.dispOk s.bil.seq then s.put BIL_DISP_STAT.DEFAULT_SEQ 0
    else if s.is BIL_DISP_STAT.DEFAULT_SEQ then s
    else (s.put BIL_DISP_STAT.DEFAULT_SEQ 1).log 0x0931 WARNING
  let fl := (if s.is BIL_TMP.TMP_PEND then 1 else 0) + (if s.is BIL_STAT.CLK_VALID then 0 else 2) + (if s.isSealed then 0 else 4) +
    (if s.get MET_PT_STAT.DIR e.2 = 2 then 8 else 0)
  let lines := s1.pageLines e.1 e.2
  let text := if s1.bil.dispTest = 0 then dispLine lines.1 ++ dispLine lines.2 else List.replicate 32 0x7F
  let body := [i, fl] ++ text
  { s1 with bil := { s1.bil with dispCrc := crc32 body } }.emit .display 0 ([2] ++ body ++ leBytes 4 (crc32 body))

/-- The display runs: Billing runs and `DISP_EN` is set (R309). -/
def State.dispRuns (s : State) : Bool := s.bilRuns && s.is BIL_DISP_CFG.DISP_EN

/-- The next page is shown, the last wraps to page 0; a page change sends a frame. -/
def State.nextPage (s : State) : State :=
  let n := s.dispSeq.length
  let i := s.get BIL_DISP_STAT.PAGE + 1
  (s.put BIL_DISP_STAT.PAGE (if i < n then i else 0)).dispFrame

end Sys2Proof.Machine
end

