-- ==== Sys2Proof/Machine/TmxOps.lean ====
section
/-! DEFINITION. The test multiplexer (spec/23_test_access.md): its codes, a selection, and the drop of R524. Outputs 0 and 1 are the
analog outputs, 2 to 5 the digital ones, as in R526. -/

namespace Sys2Proof.Machine

open R

/-- A code is listed in R522. -/
def tmxListed (out code : Nat) : Bool :=
  let r := fun (a b : Nat) => decide (a ≤ code) && decide (code ≤ b)
  if out < 2 then r 0 0x67 || r 0x70 0x7F || r 0x88 0x8A || r 0x90 0x9F
  else r 0 0x6D || r 0x70 0x73 || r 0x78 0x79 || r 0x80 0x8F

/-- A code needs ADMIN and is refused under seal (R522): the signals of the metrology channels. -/
def tmxAdmin (out code : Nat) : Bool :=
  if out < 2 then decide (0x90 ≤ code) && decide (code ≤ 0x9F) else decide (0x80 ≤ code) && decide (code ≤ 0x8F)

/-- The code of an output. -/
def State.tmxCode (s : State) (out : Nat) : Nat := if out < 2 then s.get TMX_SEL_A.SEL out else s.get TMX_SEL_D.SEL (out - 2)

/-- Sets the code of an output, with `ADM`. -/
def State.tmxPut (s : State) (out code : Nat) : State :=
  if out < 2 then (s.put TMX_SEL_A.SEL code out).putb TMX_SEL_A.ADM (tmxAdmin out code) out
  else (s.put TMX_SEL_D.SEL code (out - 2)).putb TMX_SEL_D.ADM (tmxAdmin out code) (out - 2)

/-- The outputs that drive (R523). -/
def State.tmxShow (s : State) : State :=
  let m := (List.range 6).foldl (fun m o => if s.is TMX_CTRL.EN && s.tmxCode o != 0 then setBit m o else m) 0
  (s.put TMX_STAT.ACT_A (m % 4)).put TMX_STAT.ACT_D (m / 4)

/-- The first case of R523 that refuses a selection, as `STATUS`; 0 for none. -/
def State.tmxRefusal (s : State) (sess out code : Nat) : Nat :=
  if !tmxListed out code then 4
  else if s.level sess < (if tmxAdmin out code then 3 else 2) then 2
  else if tmxAdmin out code && s.isSealed then 3
  else 0

/-- A write of a selection code (R523). -/
def State.tmxSelect (s : State) (sess out code : Nat) : State :=
  match s.tmxRefusal sess out code with
  | 0 => (((s.tmxPut out code).put TMX_CTRL.STATUS 1).tmxShow).log 0x1301 INFO [out, code]
  | r => (s.put TMX_CTRL.STATUS r).log 0x1302 WARNING [out, code, r]

/-- TMX_SELECT (R523): the session, the output and the code. A session below OPERATE is refused by its level as well (R503). -/
def execTmxSelect (sess out code : Nat) (s : State) : Host.Outcome State Fault Refusal :=
  .next <|
    if 6 ≤ out then s
    else if s.wordStatus TMX_SEL_A.SEL.addr ≠ 0 then s.report sess (s.wordStatus TMX_SEL_A.SEL.addr)
    else
      let t := if s.level sess < 2 then s.report sess 2 else s
      t.tmxSelect sess out (code % 256)

/-- Every selection is none, without notice (R82). -/
def State.tmxClear (s : State) : State := (s.each 6 fun o t => t.tmxPut o 0).tmxShow

/-- The codes that need ADMIN are dropped (R524): reason 1 for the seal, 2 for no ADMIN session. -/
def State.tmxDrop (s : State) (reason : Nat) : State :=
  let m := (List.range 6).foldl (fun m o => if tmxAdmin o (s.tmxCode o) then setBit m o else m) 0
  if m = 0 then s
  else (((s.eachBit 6 m fun o t => t.tmxPut o 0).put TMX_STAT.DROP_SEEN 1).tmxShow).log 0x1303 NOTICE [m, reason]

end Sys2Proof.Machine
end

