-- ==== Sys2Proof/Machine/Metrology.lean ====
section
/-! DEFINITION. What each Metrology command does (spec/11_metrology.md). A command whose condition the manual states and the
state or its measurement does not meet leaves the state unchanged. -/

namespace Sys2Proof.Machine

open R

/-- The stamp of a sample (R255): the keeper's stamp less `LAT` in au at the keeper's increment; 0 while the keeper reads 0. -/
def State.sampleStamp (s : State) (p : Nat) : Nat :=
  if s.keeper = 0 then 0 else s.keeper - s.get MET_PT_LAT.LAT p * 10 * s.keep.inc / (4 * 2 ^ 28)

/-- A display or quick-read register has wrapped (R264): events 0x080B and 0x080C. -/
def State.wraps (s : State) (p dir old new : Nat) : State :=
  let s1 := if old / 10 ^ 11 ≠ new / 10 ^ 11 then (s.put MET_PT_STAT.WRAP_SEEN 1 p).ptLog p 0x080B NOTICE [p, dir] else s
  if old / 2 ^ 32 ≠ new / 2 ^ 32 then s1.log 0x080C INFO [p, dir] else s1

/-- The block that a sample enters (R258): a full block that no mean was taken of is over. -/
def PtX.block (x : PtX) : PtX := if 16 ≤ x.n then { x with n := 0, bad := false, sumV := 0, sumI := 0, sumP := 0, sumL := 0 } else x

/-- The cause of event 0x0804 (R281): a stuck channel before one over range, voltage before current. Of a channel without a scale R281
names no cause, and byte 1 is 0 (log 115). -/
def State.ptCause (s : State) (p : Nat) : Nat :=
  let has := fun (f : Field) (c : Nat) => decide (c < 16) && bit (s.get f) c
  let v := s.get MET_PT_CFG.V_CH p
  let i := s.get MET_PT_CFG.I_CH p
  if has MET_CH_FLT.STUCK v then 1 else if has MET_CH_FLT.STUCK i then 2
  else if has MET_CH_FLT.OVR v then 3 else if has MET_CH_FLT.OVR i then 4 else 0

/-- A sample that is not valid (R257 step 1): it counts in the gap and in nothing else; a point that was valid becomes invalid. The gap
stands once accumulation has closed (R273). -/
def State.badSample (s0 : State) (p : Nat) (stamp : Nat) : State :=
  let s := s0.ptInvalid p (s0.ptCause p)
  let x := (s.pt p).block
  let s1 := s.setPt p { x with
    acc := { x.acc with gap := if s.met.closed then x.acc.gap else x.acc.gap + 1 }, gapRun := x.gapRun + 1, n := x.n + 1, bad := true
    hist := ((stamp, 0, false) :: x.hist).take 100, badInt := true, badPer := true, badSess := true }
  ((s1.put MET_PT_STAT.GAP_SEEN 1 p).putMax MET_PT_GAP.GAP ((s1.pt p).acc.gap * 1024 / 100000) p).billSample p stamp x.acc x.acc

/-- The amounts of one sample by direction (R262): each quantity by its own sign. -/
def PtAcc.add (a : PtAcc) (p pm loss i : Int) : PtAcc :=
  { a with
    iF := a.iF + p.toNat, iR := a.iR + (-p).toNat, mF := a.mF + pm.toNat, mR := a.mR + (-pm).toNat
    loss := a.loss + loss.toNat, aF := a.aF + i.toNat, aR := a.aR + (-i).toNat }

/-- The pulse outputs that count a point take the amounts of a sample (R269). -/
def State.pulCount (s : State) (p : Nat) (old new : PtAcc) : State :=
  s.each 8 fun n t =>
    if t.is MET_PUL_CFG.EN n && t.get MET_PUL_CFG.PT n == p then
      let q := t.get MET_PUL_CFG.QTY n
      t.setPul n { t.pul n with count := (t.pul n).count + (new.qty q - old.qty q) }
    else t

/-- The peaks of a metering point rise to a sample's magnitudes (R267). -/
def State.peaks (s : State) (p v i w : Nat) : State :=
  ((s.when (s.get MET_PT_PEAK_V.PEAK_V p < v) fun t => t.putMax MET_PT_PEAK_V.PEAK_V v p).when (s.get MET_PT_PEAK_I.PEAK_I p < i)
    fun t => t.putMax MET_PT_PEAK_I.PEAK_I i p).when (s.get MET_PT_PEAK_P.PEAK_P p < w) fun t => t.putMax MET_PT_PEAK_P.PEAK_P w p

/-- An armed snapshot is due at a sample with a stamp (R266). -/
def State.snapDue (s : State) (p stamp : Nat) : Bool :=
  match (s.pt p).arm with
  | some (.at_ t) => decide (t ≤ stamp)
  | some .reg => match s.met.stamp with | some t => decide (t ≤ stamp) | none => false
  | none => false

/-- A valid sample (R257 steps 2 to 6), for V in 10 µV and I in 10 µA. -/
def State.goodSample (s : State) (p stamp : Nat) (v i : Int) : State :=
  let x := s.pt p
  let s0 := if s.is MET_PT_STAT.VALID p then s
    else (((s.setPt p { x with gapRun := 0 }).put MET_PT_STAT.VALID 1 p).metShow).ptLog p 0x0805 NOTICE
      ([p, 0, 0, 0] ++ leBytes 4 (x.gapRun * 1024 / 100000))
  let x := (s0.pt p).block
  let pm := s0.refCorr (v * i)
  let loss := s0.refCorr (s0.cableLoss p i)
  let pw := pm - loss
  let ic := s0.refCorr i
  let counts := s0.is MET_STAT.ACC && decide (clampN 1 100 (s0.get MET_PT_NOM.I_START p) * s0.get MET_PT_NOM.I_NOM p * 10 ≤ i.natAbs)
  let acc := if counts then (if s0.currentOnly p then x.acc.add 0 0 0 ic else x.acc.add pw pm loss ic) else x.acc
  let arm := s0.snapDue p stamp
  let s1 := s0.setPt p { x with
    acc := acc
    snap := if arm then some (acc, stamp, x.t) else x.snap
    arm := if arm then none else x.arm
    sumV := x.sumV + v, sumI := x.sumI + i, sumP := x.sumP + pw, sumL := x.sumL + loss, n := x.n + 1
    hist := ((stamp, i, true) :: x.hist).take 100 }
  let dir := if !counts then 0 else if 0 < pw then 1 else if pw < 0 then 2 else 0
  let s2 := (s1.put MET_PT_STAT.DIR dir p).when (dir == 2) fun t => t.put MET_PT_STAT.REV_SEEN 1 p
  let s3 := (s2.wraps p 0 (whOf x.acc.iF) (whOf acc.iF)).wraps p 1 (whOf x.acc.iR) (whOf acc.iR)
  let s4 := s3.pulCount p x.acc acc
  let s5 := s4.peaks p (v.natAbs / 100) (i.natAbs / 100) (pw.natAbs / 10 ^ 10)
  let s6 := s5.when arm fun t =>
    ((t.put MET_SNAP.TAKEN (setBit (t.get MET_SNAP.TAKEN) p)).put MET_PT_STAT.SNAP_HELD 1 p).log 0x080F INFO [p]
  (s6.showPt p).billSample p stamp x.acc acc

/-- The bits of a sample enter the filters of a point's channels (R252), and the raw values that these give their delay lines (R254). -/
def State.lines (s : State) (p : Nat) (bv bi : BitVec 128) : State :=
  let x := s.pt p
  let mv := if s.currentOnly p then [] else modTake bv x.modV
  let mi := modTake bi x.modI
  s.setPt p { x with
    modV := mv, modI := mi, lineV := if s.currentOnly p then [] else lineTake (sinc3 mv) x.lineV, lineI := lineTake (sinc3 mi) x.lineI }

/-- `RAW` and `VAL` of a channel show a raw value; `RAW` has no room for +1 and shows the value below (log 115). -/
def State.chShow (s : State) (c : Nat) (x : Int) : State :=
  let t := s.puti MET_CH_RAW.RAW (min x (2 ^ 23 - 1)) c
  if 16 ≤ c || s.chFault c then t else t.putf MET_CH_VAL.VAL (fOfRatio (s.chValue c x) 100000) c

/-- METROLOGY_SAMPLE (R250 to R257, R260 to R267): one sample of an enabled point, given by the bits of its channels. The registers show
the newest; the point takes those that R254 has delayed. Samples go on after accumulation has closed and until D2 goes off, for the
contactors of R461. -/
def execMetrologySample (p : Nat) (xv xi : BitVec 128) (s : State) : Host.Outcome State Fault Refusal :=
  .next <|
    if s.metRuns && decide (p < 8) && s.is MET_PT_CFG.EN p then
      let cv := s.get MET_PT_CFG.V_CH p
      let ci := s.get MET_PT_CFG.I_CH p
      let only := s.currentOnly p
      let s0 := s.lines p xv xi
      let s1 := (if only then s0 else s0.chShow cv (lineAt 0 (s0.pt p).lineV 0)).chShow ci (lineAt 0 (s0.pt p).lineI 0)
      let stamp := s1.sampleStamp p
      let s2 := s1.billSettle p stamp
      let ok := s2.chOk ci && (only || s2.chOk cv)
      if ok then
        let i := s2.ptValue ci (s2.pt p).lineI
        s2.goodSample p stamp (if only then 0 else s2.ptValue cv (s2.pt p).lineV) (if s2.is MET_PT_CFG.POL p then -i else i)
      else s2.badSample p stamp
    else s

/-- A channel's bank has its clock on (R249). -/
def State.chOn (s : State) (c : Nat) : Bool := s.metRuns && decide (c < 16) && bit (s.get MET_STAT.BANK_ON) (c / 4)

/-- CHANNEL_STUCK (R251): 256 identical bits in a row. -/
def execChannelStuck (c run : Nat) (s : State) : Host.Outcome State Fault Refusal :=
  .next <|
    if s.chOn c && decide (256 ≤ run) then
      let s1 := ((s.put MET_CH_FLT.STUCK (setBit (s.get MET_CH_FLT.STUCK) c)).put MET_CH_FLT_SEEN.STUCK_SEEN
        (setBit (s.get MET_CH_FLT_SEEN.STUCK_SEEN) c)).putf MET_CH_VAL.VAL fNaN c
      s1.chPoints c 0
    else s

/-- CHANNEL_OVER_RANGE (R251): samples in a row with |x| above 0.97. -/
def execChannelOverRange (c n : Nat) (s : State) : Host.Outcome State Fault Refusal :=
  .next <|
    if s.chOn c && decide (4 ≤ n) then
      let s1 := ((s.put MET_CH_FLT.OVR (setBit (s.get MET_CH_FLT.OVR) c)).put MET_CH_FLT_SEEN.OVR_SEEN
        (setBit (s.get MET_CH_FLT_SEEN.OVR_SEEN) c)).putf MET_CH_VAL.VAL fNaN c
      s1.chPoints c 2
    else s

/-- CHANNEL_FAULT_CLEAR (R251): samples in a row without the condition; 0 stuck, 1 over range. -/
def execChannelFaultClear (c kind n : Nat) (s : State) : Host.Outcome State Fault Refusal :=
  .next <|
    if s.chOn c && decide (1024 ≤ n) then
      if kind = 0 then s.put MET_CH_FLT.STUCK (clrBit (s.get MET_CH_FLT.STUCK) c)
      else s.put MET_CH_FLT.OVR (clrBit (s.get MET_CH_FLT.OVR) c)
    else s

/-- POINT_BLOCK_PUBLISH (R258): the means of 16 samples, where all were valid. -/
def execPointBlockPublish (p : Nat) (s : State) : Host.Outcome State Fault Refusal :=
  .next <|
    let x := s.pt p
    if decide (p < 8) && decide (16 ≤ x.n) then
      let s1 := if x.bad then s
        else (((s.puti MET_PT_V.V (divNear x.sumV 1600) p).puti MET_PT_I.I (divNear x.sumI 1600) p).puti MET_PT_P.P
          (divNear x.sumP (16 * 10 ^ 10)) p).puti MET_PT_PLOSS.PLOSS (divNear x.sumL (16 * 10 ^ 10)) p
      s1.setPt p { x with n := 0, bad := false, blockOk := !x.bad, sumV := 0, sumI := 0, sumP := 0, sumL := 0 }
    else s

/-- The current of a point at a stamp (R259): between the two samples that bracket it; none where either is not valid or the
stamps are 0. -/
def bracketAt (at_ : Nat) : List (Nat × Int × Bool) → Option Int
  | (t1, i1, ok1) :: (t0, i0, ok0) :: l =>
    if t0 ≤ at_ ∧ at_ ≤ t1 then
      if ok0 && ok1 && t0 != 0 then
        some (if t1 = t0 then i0 else i0 + (i1 - i0) * ((at_ - t0 : Nat) : Int) / ((t1 - t0 : Nat) : Int))
      else none
    else bracketAt at_ ((t0, i0, ok0) :: l)
  | _ => none

/-- PACK_CURRENT_REQUEST (R259, R368): the Cell Supervisor's current in mA at the snap of the present sweep; the value is marked
invalid where the snap lies more than 1 ms before the request. An invalid value is logged as event 0x0C0F. -/
def execPackCurrentRequest (lateUs : Nat) (s : State) : Host.Outcome State Fault Refusal :=
  .next <|
    if s.cs.busy then
      let p := s.get CS_CTRL.PT
      let r := if lateUs ≤ 1000 ∧ s.is MET_PT_CFG.EN p then (bracketAt s.cs.cur (s.pt p).hist).map (· / 100) else none
      let s1 := { s with cs := { s.cs with curI := r } }
      let s2 := s1.emit .packCurrent p [match r with | some i => ofSigned 32 i | none => 0x80000000, if r.isSome then 1 else 0]
      if r.isSome then s2 else s2.log 0x0C0F WARNING
    else s

/-- The temperature that `CAB_TSRC` names, in 0.1 °C; none for the fixed value. -/
def State.cabSource (s : State) (p : Nat) : Option Int :=
  let c := s.get MET_PT_CAB_T.CAB_TSRC p
  if c < 48 then some (s.geti TH_TS_VAL.REP c)
  else if c = 0x40 ∨ c = 0x41 then some (s.geti TH_CM_VAL.T (c - 0x40))
  else none

/-- Thermal marks the source that `CAB_TSRC` names suspect. A failed sensor's reported value is used (R343). -/
def State.cabSuspect (s : State) (p : Nat) : Bool :=
  let c := s.get MET_PT_CAB_T.CAB_TSRC p
  if c < 48 then s.get TH_TS_STAT.STATE c == 2
  else if c = 0x40 ∨ c = 0x41 then s.is TH_CM_VAL.SUSPECT (c - 0x40)
  else false

/-- The source that `CAB_TSRC` names is updated: D10 runs, and the sensor has been sampled since D10's reset or the model is enabled. -/
def State.cabUpdated (s : State) (p : Nat) : Bool :=
  let c := s.get MET_PT_CAB_T.CAB_TSRC p
  s.runs 10 && (if c < 48 then s.get TH_TS_STAT.STATE c != 0 else s.is TH_CM_CFG.EN (c - 0x40))

/-- CABLE_TEMPERATURE_UPDATE (R261): T from its source, while that is neither lost nor suspect; a source that is not updated leaves the last
good value, and after its fallback T is `CAB_TFALL` as it stands. -/
def execCableTemperatureUpdate (p : Nat) (s : State) : Host.Outcome State Fault Refusal :=
  .next <|
    if s.metRuns && decide (p < 8) && s.is MET_PT_CFG.EN p then
      match s.cabSource p with
      | some t =>
        if s.is MET_PT_STAT.TFALL p then s.setT p (s.geti MET_PT_CAB_T.CAB_TFALL p)
        else if s.cabSuspect p || !s.cabUpdated p then s else s.setT p t
      | none => s.setT p (s.geti MET_PT_CAB_T.CAB_TFALL p)
    else s

/-- CABLE_T_FALLBACK (R261): the ms since the source was updated, or a suspect source. -/
def execCableTFallback (p ms : Nat) (s : State) : Host.Outcome State Fault Refusal :=
  .next <|
    if s.metRuns && decide (p < 8) && s.is MET_PT_CFG.EN p && (s.cabSource p).isSome && !s.is MET_PT_STAT.TFALL p &&
        (decide (1000 ≤ ms) || s.cabSuspect p) then
      (((s.setT p (s.geti MET_PT_CAB_T.CAB_TFALL p)).put MET_PT_STAT.TFALL 1 p).put
        MET_PT_STAT.TFALL_SEEN 1 p).ptLog p 0x0807 WARNING [p, 1]
    else s

/-- CABLE_T_RETURN (R261): the seconds for which the source has been good. -/
def execCableTReturn (p secs : Nat) (s : State) : Host.Outcome State Fault Refusal :=
  .next <|
    if s.metRuns && decide (p < 8) && s.is MET_PT_STAT.TFALL p && decide (10 ≤ secs) && !s.cabSuspect p && s.cabUpdated p then
      match s.cabSource p with
      | some t => ((s.setT p t).put MET_PT_STAT.TFALL 0 p).ptLog p 0x0807 WARNING [p, 0]
      | none => s
    else s

/-- POINT_ENABLE (R256). -/
def execPointEnable (sess p : Nat) (s : State) : Host.Outcome State Fault Refusal :=
  .next <| if 8 ≤ p then s else s.guarded sess MET_PT_CFG.EN fun t => t.ptEnable p

/-- A bit of `SNAP` written 1 arms a snapshot of an enabled point: at the next sample, or at the stamp (R266). -/
def State.snapArm (s : State) (p : Nat) (at_ : SnapArm) : State :=
  if s.is MET_PT_CFG.EN p then
    (s.setPt p { s.pt p with arm := some at_ }).put MET_SNAP.SNAP (setBit (s.get MET_SNAP.SNAP) p)
  else s

/-- A bit of `SNAP` written 0 releases the snapshot. -/
def State.snapRelease (s : State) (p : Nat) : State :=
  let s1 := (s.setPt p { s.pt p with snap := none, arm := none }).put MET_SNAP.SNAP (clrBit (s.get MET_SNAP.SNAP) p)
  ((s1.put MET_SNAP.TAKEN (clrBit (s1.get MET_SNAP.TAKEN) p)).put MET_PT_STAT.SNAP_HELD 0 p).showPt p

/-- What a register snapshot waits for: the stamp that `MET_SNAP_STAMP` arms, or the next sample. -/
def State.snapStamp (s : State) : SnapArm := if s.is MET_SNAP.AT_STAMP then .reg else .at_ 0

/-- A write of `MET_SNAP_STAMP_HI` arms the stamp of both words (R266, register table): points that wait for it, and those armed later, take
their snapshots from it on (log 127). -/
def State.snapTarget (s : State) : State :=
  { s with met := { s.met with stamp := some (s.get2 MET_SNAP_STAMP_LO.STAMP MET_SNAP_STAMP_HI.STAMP) } }

/-- SNAPSHOT_TAKE (R266). -/
def execSnapshotTake (sess mask : Nat) (s : State) : Host.Outcome State Fault Refusal :=
  .next <| s.guarded sess MET_SNAP.SNAP fun t => t.eachBit 8 mask fun p u => u.snapArm p u.snapStamp

/-- SNAPSHOT_RELEASE (R266). -/
def execSnapshotRelease (sess mask : Nat) (s : State) : Host.Outcome State Fault Refusal :=
  .next <| s.guarded sess MET_SNAP.SNAP fun t => t.eachBit 8 mask fun p u => u.snapRelease p

/-- SNAPSHOT_ACTION (R266). -/
def execSnapshotAction (s : State) : Host.Outcome State Fault Refusal :=
  .next <| s.laRun 0x016 1 fun a t => t.eachBit 8 (byteAt a.body 0) fun p u => u.snapArm p (.at_ a.target)

/-- SNAPSHOT_RELEASE_ACTION (R266). -/
def execSnapshotReleaseAction (s : State) : Host.Outcome State Fault Refusal :=
  .next <| s.laRun 0x016 2 fun a t => t.eachBit 8 (byteAt a.body 0) fun p u => u.snapRelease p

/-- A write of 1 to `PEAK_CLR` (R267). -/
def State.peakClear (s : State) (p : Nat) : State :=
  ((s.put MET_PT_PEAK_V.PEAK_V 0 p).put MET_PT_PEAK_I.PEAK_I 0 p).put MET_PT_PEAK_P.PEAK_P 0 p

/-- PEAK_CLEAR (R267). -/
def execPeakClear (sess p : Nat) (s : State) : Host.Outcome State Fault Refusal :=
  .next <| if 8 ≤ p then s else s.guarded sess MET_PT_CTRL.PEAK_CLR fun t => t.peakClear p

/-- The magnitude of a fast value in 10 µA, corrected as R253 has it. -/
def State.fastValue (s : State) (p : Nat) (w : BitVec 63) : Nat := (s.chValue (s.get MET_PT_CFG.I_CH p) (sinc2 w)).natAbs

/-- A fast value counts as above the threshold (R268): it is above it, or beyond full scale, as it is where the filter stands at an end of
its range or the corrected value passes `SCALE` (log 127). -/
def State.fastAbove (s : State) (p : Nat) (w : BitVec 63) : Bool :=
  let c := s.get MET_PT_CFG.I_CH p
  decide (s.get MET_PT_OC.OC_TH p * 10 ^ 5 < s.fastValue p w) || (sinc2 w).natAbs == 2 ^ 23 ||
    decide (2 ^ 53 < (s.geti MET_CH_GAIN.GAIN c * sinc2 w + s.geti MET_CH_OFS.OFS c * 2 ^ 30).natAbs)

/-- The peak fast current in A, to the nearest. -/
def State.fastPeak (s : State) (p : Nat) (l : List (BitVec 63)) : Nat := l.foldl (fun m w => max m ((s.fastValue p w + 50000) / 10 ^ 5)) 0

/-- OVER_CURRENT (R268, R456): the newest `n` fast samples, each by the bits of its filter, are all above `OC_TH`. -/
def execOverCurrent (p n : Nat) (peak : List (BitVec 63)) (s : State) : Host.Outcome State Fault Refusal :=
  .next <|
    let l := peak.take n
    if s.metRuns && decide (p < 8) && s.is MET_PT_CFG.EN p && s.get MET_PT_OC.OC_TH p != 0xFFFF &&
        !bit (s.get MET_CH_FLT.STUCK) (s.get MET_PT_CFG.I_CH p) && !s.is MET_PT_STAT.OC p &&
        decide (max 1 (s.get MET_PT_OC.OC_N p) ≤ l.length) && l.all (s.fastAbove p) then
      let s1 := ((s.put MET_PT_STAT.OC 1 p).put MET_PT_STAT.OC_SEEN 1 p).ptLog p 0x0806 WARNING ([p, 0] ++ leBytes 2 (min (s.fastPeak p l) 0xFFFF))
      if s1.is MET_PT_OC.OC_ACT p then s1.reqSafeOff 2 0x0806 else s1
    else s

/-- OVER_CURRENT_CLEAR (R268): the ms below 0.95 × `OC_TH`. -/
def execOverCurrentClear (p ms : Nat) (s : State) : Host.Outcome State Fault Refusal :=
  .next <| if s.metRuns && decide (p < 8) && decide (1 ≤ ms) then s.put MET_PT_STAT.OC 0 p else s

/-- A pulse output drives its pin: accumulation runs (R271) and the output is enabled. -/
def State.pulRuns (s : State) (n : Nat) : Bool := s.metRuns && decide (n < 8) && s.is MET_PUL_CFG.EN n && s.is MET_STAT.ACC && !s.met.closed

/-- Events of a locked output go to the Moraine log (R270, R281). -/
def State.pulLog (s : State) (n code sev : Nat) : State :=
  s.log code (if s.is MET_PUL_CFG.LOCK n && s.isSealed then LEGAL else sev) [n]

/-- PULSE_EMIT (R269): the quantity has reached the next multiple of `WT`. -/
def execPulseEmit (n : Nat) (s : State) : Host.Outcome State Fault Refusal :=
  .next <|
    let x := s.pul n
    if s.pulRuns n && decide ((x.m + 1) * s.pulWeight n ≤ x.count) then
      let s1 := s.setPul n { x with m := x.m + 1 }
      let q := s1.get MET_PUL_STAT.PEND n
      if x.phase = 0 ∧ q = 0 then s1.pulStart n
      else if q = 0xFFFF then (s1.put MET_PUL_STAT.OVF 1 n).pulLog n 0x080D WARNING
      else s1.put MET_PUL_STAT.PEND (q + 1) n
    else s

/-- PULSE_END (R269): the time since the pulse began, in 0.1 ms. The pulse ends after `PW`; after as much again the next one that
waits may start. -/
def execPulseEnd (n t : Nat) (s : State) : Host.Outcome State Fault Refusal :=
  .next <|
    let x := s.pul n
    let pw := max 2 (s.get MET_PUL_CFG.PW n)
    let low := fun (u : State) => { u with pins := { u.pins with pul := clrBit u.pins.pul n } }
    if !decide (n < 8) || x.phase == 0 || decide (t < pw) then s
    else if t < 2 * pw then low (s.setPul n { x with phase := 2 })
    else
      let s1 := low (s.setPul n { x with phase := 0 })
      let q := s1.get MET_PUL_STAT.PEND n
      if 0 < q then (s1.put MET_PUL_STAT.PEND (q - 1) n).pulStart n else s1

/-- METROLOGY_COMMIT (R273): 60 s since the last commit, without the closing mark. Before accumulation has started, the mark of the restored
commit stands: nothing has been measured since (R274, log 127). -/
def execMetrologyCommit (secs : Nat) (s : State) : Host.Outcome State Fault Refusal :=
  .next <| if s.metRuns && !s.met.closed && decide (60 ≤ secs) then s.metCommit (!s.is MET_STAT.ACC && s.met.com.closing) else s

/-- Pulses that wait start as accumulation restarts (R271). -/
def State.pulResume (s : State) : State :=
  s.each 8 fun n t =>
    let q := t.get MET_PUL_STAT.PEND n
    if t.pulRuns n && (t.pul n).phase == 0 && q != 0 then (t.put MET_PUL_STAT.PEND (q - 1) n).pulStart n else t

/-- ACCUMULATION_START (R274): the first sample after `HOLDUP_OK` is first set; the seconds since the close. -/
def execAccumulationStart (secs : Nat) (s : State) : Host.Outcome State Fault Refusal :=
  .next <|
    if s.metRuns && !s.is MET_STAT.ACC && !s.met.closed && s.is PWR_HOLDUP.HOLDUP_OK then
      let s1 := ((s.put MET_STAT.ACC 1).put MET_STAT.HOLD_WAIT 0).log 0x0801 NOTICE (leBytes 4 (min secs 0xFFFFFFFF))
      let s2 := if s1.met.com.closing then s1 else (s1.put MET_STAT.UNCLOSED 1).log 0x0803 LEGAL
      let s3 := { s2 with met := { s2.met with com := { s2.met.com with closing := false } } }
      (s3.setReady 6).metShow.pulResume
    else s

/-- A write of 1 to `SET` (R275, R447, R524): the module clears `SET` and `CONFIRM`, and gives the reason of a refusal. -/
def State.sealSet (s : State) (sess confirm : Nat) : State :=
  let s0 := (s.put MET_SEAL.SET 0).put MET_SEAL.CONFIRM 0
  let legal := (List.range 8).filter fun p => s.is MET_PT_CFG.EN p && s.is MET_PT_CFG.LEGAL p
  if confirm % 2 ^ 16 ≠ s.get SYS_SERIAL_LO.SERIAL % 2 ^ 16 then s0.put MET_SEAL.SET_STATUS 2
  else if s.isSealed then s0.put MET_SEAL.SET_STATUS 4
  else if legal.isEmpty || legal.any (fun p => !s.is MET_PT_STAT.VALID p) then s0.put MET_SEAL.SET_STATUS 3
  else if s.moraineReserve then (s0.report sess 2).reserveRefused MET_SEAL.SET.addr
  else
    let s1 := ((s0.put MET_SEAL.SEALED 1).put MET_STAT.SEALED 1).put MET_SEAL.SET_STATUS 1
    let s2 := (s1.put MET_PARAM_DIG.DIG s1.paramDig).inc MET_SEAL.SEAL_CNT
    (s2.log 0x0809 LEGAL (leBytes 4 (s2.get MET_PARAM_DIG.DIG))).tmxDrop 1

/-- SEAL_SET (R275): the session and the value of `CONFIRM`. -/
def execSealSet (sess confirm : Nat) (s : State) : Host.Outcome State Fault Refusal :=
  .next <| s.guarded sess MET_SEAL.SET fun t => t.sealSet sess confirm

end Sys2Proof.Machine
end

