-- ==== Sys2Proof/Machine/Billing.lean ====
section
/-! DEFINITION. What each Billing command does (spec/12_billing_tariffs.md). A command whose condition the manual states and the
state does not meet leaves the state unchanged. -/

namespace Sys2Proof.Machine

open R

/-- Where BT goes at a tick and the clock state it leaves (R283), for the RTC after the tick. A hold is over where the RTC has
reached BT (log 15). -/
def moveBt (clk bt rtc : Nat) (synced : Bool) : Nat × Nat :=
  let unset := clk == 0 || clk == 4
  if unset && !synced then (bt + 1, clk)
  else
    let c := if unset || (clk == 2 && decide (bt ≤ rtc)) then 1 else clk
    if bt < rtc then (rtc, c)
    else if bt - rtc ≤ 86400 then (bt, if c = 1 ∧ ¬ (clk = 2 ∧ rtc = bt) then 2 else c)
    else (bt + 1, 4)

/-- The clock state after a tick (R284): a clock that has not been synchronised for 86,400 s is stale. -/
def staleClk (clk age : Nat) : Nat := if (clk = 1 ∨ clk = 2) ∧ 86400 < age then 3 else clk

/-- The clock moves at a tick (R283, R284) with its events: 0x0904 where it becomes stale or invalid set back, or is found so at a start; answers the forward step beyond the second. -/
def State.clockTick (s : State) : Nat × State :=
  let bt := s.get BIL_BT.BT
  let clk := s.get BIL_STAT.CLK_ST
  let m := moveBt clk bt s.rtc s.bil.synced
  let st := staleClk m.2 (s.get BIL_SYNC.SYNC_AGE)
  let valid := decide (st = 1) || decide (st = 2)
  let was := s.is BIL_STAT.CLK_VALID
  let held := if m.1 = bt then s.bil.held + 1 else 0
  let step := m.1 - bt - 1
  let s1 := { s with bil := { s.bil with synced := false, held := held, clkNew := false } }
  let s2 := if m.2 = 2 ∧ clk ≠ 2 then (s1.put BIL_STAT.HOLD_SEEN 1).log 0x0902 LEGAL (leBytes 4 (bt - s.rtc))
    else if clk = 2 ∧ m.2 ≠ 2 then s1.log 0x0903 LEGAL else s1
  let s3 := if 2 < step then (s2.put BIL_STAT.STEP_SEEN 1).log 0x0907 LEGAL (leBytes 4 step) else s2
  let s4 := s3.when (!valid) fun t => t.put BIL_STAT.INVAL_SEEN 1
  let s4 := if (decide (st = 3) || decide (st = 4)) && (clk != st || s.bil.clkNew) then s4.log 0x0904 LEGAL [st]
    else if valid && !was then s4.log 0x0905 LEGAL else s4
  let s5 := ((s4.put BIL_BT.BT m.1).put BIL_STAT.CLK_ST st).putb BIL_STAT.CLK_VALID valid
  (step, s5.puti BIL_OFS.BT_OFS ((m.1 : Int) - (s.rtc : Int)))

/-- Flags enter every open record: the interval, the period and the sessions (R300). -/
def State.addFlags (s : State) (f : Nat) : State :=
  { s with bil := { s.bil with
      intFlags := s.bil.intFlags ||| f, perFlags := s.bil.perFlags ||| f
      opn := s.bil.opn.map fun (q : Nat × BSess) => (q.1, { q.2 with flags := q.2.flags ||| f }) } }

/-- The demand interval ends where BT reaches its boundary (R292 to R294): what it closes; `f` is what a step or a hold leaves in the next
one. -/
def State.intervalTick (s : State) (f : Nat) : Option (BSpan × Nat) × State :=
  let l := 60 * s.bil.len
  let nb := (s.bil.intBt / l + 1) * l
  let bt := s.get BIL_BT.BT
  if bt < nb then (none, s)
  else
    let l2 := 60 * s.get BIL_CFG.DEM_LEN
    let c := Nat.lcm l l2
    let len := if nb ≤ bt / c * c then s.get BIL_CFG.DEM_LEN else s.bil.len
    let start := bt / (60 * len) * (60 * len)
    (some (⟨s.bil.intBt, nb, s.bil.intFlags ||| s.endFlags false⟩, s.bil.len),
      { s with bil := { s.bil with intBt := start, intFlags := if start = bt then 0 else f, len := len } })

/-- The billing period closes (R295): its span, with event 0x0913; the next one begins where it ended. -/
def State.closePeriod (s : State) (endBt flags newFlags : Nat) : BSpan × State :=
  let s1 := { s with bil := { s.bil with perBt := endBt, perFlags := newFlags } }
  (⟨s.bil.perBt, endBt, flags ||| s.endFlags false⟩, s1.log 0x0913 INFO [s.legalPts.foldl setBit 0])

/-- The billing period closes at a boundary or on a request (R295). -/
def State.periodTick (s : State) (old f : Nat) : Option BSpan × State :=
  let bt := s.get BIL_BT.BT
  let ops := s.is BIL_PER_CMD.CLOSE || s.bil.actClose
  if ops then
    let r := s.closePeriod bt (s.bil.perFlags ||| 256) 0
    (some r.1, { r.2 with bil := { r.2.bil with actClose := false } }.put BIL_PER_CMD.CLOSE 0)
  else
    match s.periodBoundary old bt with
    | some b => let r := s.closePeriod b s.bil.perFlags (if b = bt then 0 else f); (some r.1, r.2)
    | none => (none, s)

/-- Sealed fields take effect at the next tick (R310): the signature algorithm, the page time and the scroll sequence. -/
def State.sealedTick (s : State) : State :=
  { s with bil := { s.bil with
      alg := s.get BIL_CFG.SIG_ALG, dwell := s.get BIL_DISP_CFG.DWELL, seq := s.dispEntries } }

/-! ### The signed package (R484, R486, R487) -/

/-- A little-endian value of the accepted package. -/
def State.pkgLe (s : State) (i n : Nat) : Nat := ofLeBytes ((s.updN.pkg.drop i).take n)

/-- An accepted package is due at the billing time reached. -/
def State.pkgDue (s : State) : Bool :=
  s.is UPD_PKG_CMD.PEND && (s.pkgLe 32 4 == 0 || decide (s.pkgLe 32 4 ≤ s.get BIL_BT.BT))

/-- The accepted package is applied (R486): its entries, or the unseal of R487; `UCNT` and event 0x1107; unit 1 is to switch if a digest is
named; the pending mark goes. -/
def State.pkgApply (s : State) : State :=
  let s1 := (List.range (s.pkgLe 6 2)).foldl (fun (t : State) i =>
    let a := s.pkgLe (36 + 8 * i) 4
    t.sealedWrite a (sealedBits a) (BitVec.ofNat 32 (s.pkgLe (40 + 8 * i) 4)) true) s
  let s2 := if s.pkgLe 5 1 = 2 then (((s1.put MET_SEAL.SEALED 0).put MET_STAT.SEALED 0).inc MET_SEAL.SEAL_CNT).log 0x080A LEGAL else s1
  let s3 := s2.put UPD_SEAL_CNT.UCNT ((s2.get UPD_SEAL_CNT.UCNT + 1) % 2 ^ 32)
  let s4 := s3.log 0x1107 LEGAL
    (leBytes 4 (s3.get UPD_SEAL_CNT.UCNT) ++ leBytes 4 (s3.get MET_PARAM_DIG.DIG) ++ leBytes 4 (s3.get BIL_DIG.BIL_DIG))
  { s4 with updN := { s4.updN with pkg := [], unit1 := s4.updN.unit1 || s.pkgLe 28 4 != 0 } }.put UPD_PKG_CMD.PEND 0

/-- The interval and the period that end at a tick: each legal point's records are made once its samples of the ended second are in. -/
def State.boundaries (s : State) (old span : Nat) (sec : BSec) : State :=
  let i := s.intervalTick span
  let p := i.2.periodTick old span
  p.2.owe { sec := sec, int := i.1, per := p.1 }

/-- What Billing does at a tick (R283, R301, R303), in the order of R301: samples of the second that ends and come after the tick still count
in it (R282), so the records of an interval and a period wait for them (log 42); a package that is due (R486), a calendar activation and
the rate of the new second follow. Where the role set has no Billing, billing time still runs in D2 (R15, R16) and nothing is booked or
closed on it. -/
def State.billTick (s0 : State) : State :=
  let s := s0.settleAll
  let old := s.get BIL_BT.BT
  let first := s.bil.restart
  let ending := s.second
  let r := s.clockTick
  let span := (if 2 < r.1 then 2 else 0) + (if 2 < r.2.bil.held then 4 else 0)
  let s1 := r.2.addFlags (ending.flags ||| span ||| (if first then 1 else 0))
  let sec := { ending with clk := s1.get BIL_STAT.CLK_ST }
  let s2 := s1.when s.bilRuns fun t => t.boundaries old span sec
  let s3 := (s2.when s2.pkgDue State.pkgApply).sealedTick.when s.bilRuns fun t => t.calDue.findRate (s2.get BIL_BT.BT)
  let s4 := { s3 with bil := { s3.bil with restart := false, latch := s.keeper, last := ending, sec := 0 } }
  if first then s4.log 0x0918 LEGAL (leBytes 4 (s.rtc - old)) else s4

/-- BILLING_TICK (R282 to R284, R301, R302): one RTC second. The RTC counts and `SYNC_AGE` ages whatever D2 does; Billing works
while D2 runs and accumulation has not closed on a supply fail. -/
def execBillingTick (s : State) : Host.Outcome State Fault Refusal :=
  .next <|
    let s1 := (s.put SYS_RTC.UTC (s.rtc + 1)).put BIL_SYNC.SYNC_AGE (satInc 17 (s.get BIL_SYNC.SYNC_AGE) 1)
    if s1.runs 2 && !s1.met.closed then s1.billTick else s1

/-- A write of 1 to `REBASE` (R285, R447). -/
def State.rebase (s : State) (sess : Nat) : State :=
  if s.get BIL_STAT.CLK_ST ≠ 4 then (s.put BIL_CLK_CMD.REBASE 0).put BIL_CLK_CMD.STATUS 2
  else if s.moraineReserve then (s.report sess 2).reserveRefused (BIL_CLK_CMD.REBASE.at 0 0)
  else
    let bt := s.get BIL_BT.BT
    let s0 := s.settleAll.secMark
    let sec := s0.second
    let f := sec.flags ||| 512
    let x : BSpan := ⟨s.bil.intBt, bt, s.bil.intFlags ||| f ||| s.endFlags false⟩
    let r := { s0 with bil := { s0.bil with intBt := s.rtc, intFlags := 0 } }.closePeriod bt (s.bil.perFlags ||| f) 0
    let s1 := (r.2.owe { sec := sec, int := some (x, s.bil.len), per := some r.1 }).settleAll
    let s2 := (s1.put BIL_EPOCH.EPOCH (s.get BIL_EPOCH.EPOCH + 1)).put BIL_BT.BT s.rtc
    let s3 := { s2 with bil := { s2.bil with perBt := s.rtc, held := 0 } }.puti BIL_OFS.BT_OFS 0
    let s4 := s3.log 0x0906 LEGAL (leBytes 2 (s3.get BIL_EPOCH.EPOCH))
    let st := staleClk 1 (s.get BIL_SYNC.SYNC_AGE)
    let s5 := (s4.put BIL_STAT.CLK_ST st).putb BIL_STAT.CLK_VALID (st == 1)
    ((if st = 1 then s5.log 0x0905 LEGAL else s5).put BIL_CLK_CMD.REBASE 0).put BIL_CLK_CMD.STATUS 1

/-- REBASE (R285). -/
def execRebase (sess : Nat) (s : State) : Host.Outcome State Fault Refusal :=
  .next <| s.guarded sess BIL_CLK_CMD.REBASE fun t => t.rebase sess

/-- A write of 1 to `ACTIVATE` (R289, R290, R447): the passive bank is checked; an activation then waits for its tick. -/
def State.calActivate (s : State) (sess : Nat) : State :=
  if s.moraineReserve then (s.report sess 2).reserveRefused (BIL_CAL_CTRL.ACTIVATE.at 0 0)
  else
    let r := s.calCheck (1 - s.calBank)
    if r.1 = 1 then ((s.put BIL_CAL_CTRL.CHK_STATUS 1).put BIL_CAL_CTRL.CHK_WORD 0).put BIL_CAL_CTRL.ACTIVATE 1 else s.calRefuse r

/-- CALENDAR_ACTIVATE (R289, R290). -/
def execCalendarActivate (sess : Nat) (s : State) : Host.Outcome State Fault Refusal :=
  .next <| s.guarded sess BIL_CAL_CTRL.ACTIVATE fun t => t.calActivate sess

/-- PERIOD_CLOSE_COMMAND (R295): the period closes at the next tick. -/
def execPeriodCloseCommand (sess : Nat) (s : State) : Host.Outcome State Fault Refusal :=
  .next <| s.guarded sess BIL_PER_CMD.CLOSE fun t => t.put BIL_PER_CMD.CLOSE 1

/-- PERIOD_CLOSE_ACTION (R311): the period closes at the first tick after the strobe. -/
def execPeriodCloseAction (s : State) : Host.Outcome State Fault Refusal :=
  .next <| s.laRun 0x017 1 fun _ t => { t with bil := { t.bil with actClose := true } }

/-- SESSION_OPEN (R296, R297): the Vehicle Session's request for a point, its connector, the session identifier, the digest of
the vehicle's identifier, and the stamp from which the session opens. -/
def execSessionOpen (p conn id : Nat) (ident : List Nat) (stamp : Nat) (s : State) : Host.Outcome State Fault Refusal :=
  .next <| (s.billOpen p conn id ident stamp).2

/-- SESSION_CLOSE (R296): the Vehicle Session's request for a point, the end reason and the stamp from which the session closes. -/
def execSessionClose (p reason stamp : Nat) (s : State) : Host.Outcome State Fault Refusal :=
  .next <| s.billEnd p reason stamp

/-- SESSION_ACK (R297). -/
def execSessionAck (sess n : Nat) (s : State) : Host.Outcome State Fault Refusal :=
  .next <| s.guarded sess BIL_SESS_ACK.ACK_NUM fun t => t.sessAck n

/-- Bytes that nothing fixes (log 6). -/
def State.freeBytes (s : State) : Nat → List Nat × State
  | 0 => ([], s)
  | n + 1 => let r := s.free 8; let t := r.2.freeBytes n; (r.1 :: t.1, t.2)

/-- The first record of a store that has no signature gets one. -/
def signFirst (sig : List Nat) : List MRec → List MRec
  | [] => []
  | r :: l => if r.sig.isNone then { r with sig := some sig } :: l else r :: signFirst sig l

/-- The event of a tamper entry (R304). -/
def TmpE.code (e : TmpE) : Nat := 0x0920 + (if e.term then 2 else 0) + (if e.opened then 0 else 1)

/-- TAMPER_QUEUE_MOVE (R304): the queue of D0 goes to the Moraine log in the order of arrival, with the latched RTC seconds. -/
def execTamperQueueMove (s : State) : Host.Outcome State Fault Refusal :=
  .next <|
    if s.runs 2 then
      let s1 := s.tmp.queue.foldl (fun t (e : TmpE) => t.logAt e.stamp e.utc e.code LEGAL []) s
      let s2 := if s.tmp.lost = 0 then s1 else s1.log 0x0926 LEGAL (leBytes 2 (min s.tmp.lost 0xFFFF))
      { s2 with tmp := { s2.tmp with queue := [], lost := 0 } }.put BIL_TMP.N_Q 0
    else s

/-- A write of 1 to `TMP_ACK` (R305, R447). -/
def State.tmpAck (s : State) (sess : Nat) : State :=
  if s.moraineReserve then (s.report sess 2).reserveRefused (BIL_TMP.TMP_ACK.at 0 0)
  else if s.is BIL_TMP.TMP_PEND && !s.is BIL_TMP.COVER && !s.is BIL_TMP.TERM then (s.secMark.put BIL_TMP.TMP_PEND 0).log 0x0925 LEGAL
  else s

/-- TAMPER_ACK (R305). -/
def execTamperAck (sess : Nat) (s : State) : Host.Outcome State Fault Refusal :=
  .next <| s.guarded sess BIL_TMP.TMP_ACK fun t => t.tmpAck sess

/-- DISPLAY_FRAME (R307, R308): the page frame of every 500 ms; one of the test of R309 where that runs. -/
def execDisplayFrame (s : State) : Host.Outcome State Fault Refusal :=
  .next <| if s.dispRuns then (let t := s.dispFrame; { t with bil := { t.bil with dispTest := t.bil.dispTest - 1 } }) else s

/-- DISPLAY_ANSWER (R307): the bytes that came within 50 ms of the frame, none where none came. The right answer is 0x06 and the CRC of the
frame sent. -/
def execDisplayAnswer (ok : List Nat) (s : State) : Host.Outcome State Fault Refusal :=
  .next <|
    if !s.dispRuns then s
    else if ok = 0x06 :: leBytes 4 s.bil.dispCrc then { s with bil := { s.bil with dispMiss := 0 } }.put BIL_DISP_STAT.DISP_FLT 0
    else
      let n := s.bil.dispMiss + 1
      let s1 := { s with bil := { s.bil with dispMiss := min n 3 } }
      if 3 ≤ n ∧ ¬ s.is BIL_DISP_STAT.DISP_FLT then
        ((s1.put BIL_DISP_STAT.DISP_FLT 1).put BIL_DISP_STAT.FLT_SEEN 1).log 0x0930 WARNING
      else s1

/-- PAGE_ADVANCE (R309): the seconds for which the page has been shown. While the test runs no page is shown. -/
def execPageAdvance (secs : Nat) (s : State) : Host.Outcome State Fault Refusal :=
  .next <| if s.dispRuns && !s.is BIL_DISP_STAT.MANUAL && s.bil.dispTest == 0 && decide (clampN 2 30 s.bil.dwell ≤ secs) then s.nextPage else s

/-- DISPLAY_BUTTON_SHORT (R40, R309): a press of 20 ms or longer and shorter than 2 s; what the debounce removes is no press (log 96).
During the test it stops the advance and changes no page: page 0 follows the test. -/
def execDisplayButtonShort (s : State) : Host.Outcome State Fault Refusal :=
  .next <| if s.dispRuns then (let t := s.put BIL_DISP_STAT.MANUAL 1; if t.bil.dispTest = 0 then t.nextPage else t) else s

/-- DISPLAY_BUTTON_LONG (R309): the frame with every character 0x7F is sent, and in each of the six frames of the next 3 s; then page 0. -/
def execDisplayButtonLong (s : State) : Host.Outcome State Fault Refusal :=
  .next <|
    if s.dispRuns then ({ s with bil := { s.bil with dispTest := 6 } }.put BIL_DISP_STAT.PAGE 0).dispFrame else s

/-- MANUAL_ADVANCE_RESUME (R309): the seconds since the last press. -/
def execManualAdvanceResume (secs : Nat) (s : State) : Host.Outcome State Fault Refusal :=
  .next <| if s.dispRuns && decide (60 ≤ secs) then s.put BIL_DISP_STAT.MANUAL 0 else s

end Sys2Proof.Machine
end

