-- ==== Sys2Proof/Machine/AuxOps.lean ====
section
/-! DEFINITION. Shared operations of the aux regulator channels (spec/03_supply_domains_aux.md, R60 to R67). -/

namespace Sys2Proof.Machine

open R

/-- The channel supplies the gate drivers of a connector port (R67). -/
def State.auxFeeds (s : State) (a c : Nat) : Bool := bit (s.get PWR_AUX_CTRL.GD_PH a) c

/-- AUXa_DRV low. -/
def State.auxLow (s : State) (a : Nat) : State := { s with pins := { s.pins with auxDrv := clrBit s.pins.auxDrv a } }

/-- `PGOOD` falls (R67): every gate of each supplied connector goes low with its GDEN, and its active phases trip with the gate
supply lost (R130, R137). -/
def State.pgoodFalls (s : State) (a : Nat) : State :=
  if s.is PWR_AUX_STAT.PGOOD a then
    let s1 := s.put PWR_AUX_STAT.PGOOD 0 a
    (s1.each 96 fun n t =>
      if t.auxFeeds a (portOf n) then
        let t1 := t.phaseGatesLow n
        if t1.get PE_PH_STAT.STATE n = 2 then (t1.log 0x0313 FAULT [n, portOf n]).phaseTrip n 7
        else if t1.justOff n then (t1.put PE_PH_STAT.FLT_CODE 7 n).log 0x0313 FAULT [n, portOf n]
        else t1
      else t).gden
  else s

/-- The channel stops in a mode (R67): first the gates and GDEN of its connector. -/
def State.auxStop (s : State) (a mode : Nat) : State :=
  let s1 := ((s.pgoodFalls a).auxLow a).put PWR_AUX_STAT.MODE mode a
  s1.setAux a { s1.aux a with th := 0 }

/-- The period that `FSW` sets, in ps (R63). -/
def State.auxFswPer (s : State) (a : Nat) : Nat := 10 ^ 10 / clampN 1000 10000 (s.get PWR_AUX_FSW.FSW a)

/-- The channel starts with its reference at 0 (R66). None starts while the aux sense ADCs have failed their calibration
(R74), or after a feedback fault until that is cleared. -/
def State.auxStart (s : State) (a : Nat) : State :=
  if !s.runs 10 || bit s.boot.cal 5 || s.is PWR_AUX_STAT.FB_FAULT a || s.auxMode a != 0 then s
  else
    let l := s.get PWR_AUX_CTRL.LOOP a
    let per := s.auxFswPer a
    let s1 := (s.put PWR_AUX_STAT.MODE 1 a).setAux a
      { s.aux a with th := 0, per := per, t := per - 4000, burst := 0, good := false, ref := 0, peaks := [] }
    if l < 64 ∧ s1.loopOn l then s1.putf LE_L_R.R 0#32 l else s1

/-- A write of `EN` (R66, R67). -/
def State.auxWrite (s : State) (a : Nat) (on : Bool) : State :=
  let s1 := s.putb PWR_AUX_CTRL.EN on a
  if on then s1.auxStart a else s1.auxStop a 0

/-- `FB_FAULT` written 1 (R66): cleared, after which `EN` restarts the channel. -/
def State.auxFaultClear (s : State) (a : Nat) : State :=
  let s1 := (s.put PWR_AUX_STAT.FB_FAULT 0 a)
  let s2 := if s1.auxMode a = 7 then s1.put PWR_AUX_STAT.MODE 0 a else s1
  if s2.is PWR_AUX_CTRL.EN a then s2.auxStart a else s2

/-- `FB` shows the measured AUXa_FB. -/
def State.auxFb (s : State) (a fb : Nat) : State := s.putMax PWR_AUX_STAT.FB fb a

/-- AUXa_FB is within ±5 % of the target (R66). -/
def State.auxInBand (s : State) (a fb : Nat) : Bool :=
  let t := s.auxSetpoint a
  decide (95 * t ≤ 100 * fb) && decide (100 * fb ≤ 105 * t)

/-- The mode of a channel whose braking or burst sleep ends. -/
def State.auxBack (s : State) (a : Nat) : Nat := if s.is PWR_AUX_STAT.PGOOD a then s.auxRegulating a else 1

/-- AUXa_FB is above r × (1 + `OV`), `OV` in 0.5 % (R64). -/
def State.auxOver (s : State) (a fb ov : Nat) : Bool := decide (s.auxRef a * (200 + ov) < 200 * fb)

/-- A write of `LOOP` (R61, R66): the reference goes on from its present value, in the generator of the loop that is named. -/
def State.auxLoop (s : State) (a l : Nat) : State :=
  let s1 := (s.auxLeave a).put PWR_AUX_CTRL.LOOP l a
  let s2 := if s1.auxRuns a && decide (l < 64) && s1.loopOn l then s1.putf LE_L_R.R (fOfRatio ((s1.aux a).ref * 10 : Nat) 32768) l else s1
  (s2.auxJoin a).consShow

/-- A write of `SYNC_EN` (R63): a channel that is not to be synchronised is not locked. -/
def State.auxSyncEn (s : State) (a : Nat) (on : Bool) : State :=
  let s1 := s.putb PWR_AUX_CTRL.SYNC_EN on a
  if on then s1 else s1.put PWR_AUX_STAT.SYNCED 0 a

/-- A write of `BURST_EN` (R62): with 0 the channel leaves burst sleep and switches in every period. -/
def State.auxBurstEn (s : State) (a : Nat) (on : Bool) : State :=
  let s1 := s.putb PWR_AUX_CTRL.BURST_EN on a
  if on then s1
  else (if s1.auxMode a = 3 then s1.put PWR_AUX_STAT.MODE (s1.auxBack a) a else s1).setAux a { s1.aux a with burst := 0 }

/-! ### The switching period (R60 to R63)

Thresholds and AUXa_CS are in V / 262,144,000,000, in which `ILIM`, its parts of 1/256 and the ramp are exact but for the last digit;
periods in ps. What AUXa_CS reads is free (log 95). -/

/-- `ILIM` on AUXa_CS. -/
def State.auxIlim (s : State) (a : Nat) : Int := (s.get PWR_AUX_CS.ILIM a * 256000000 : Nat)

/-- `BURST_TH`, in 1/256 of `ILIM`. -/
def State.auxBurstTh (s : State) (a : Nat) : Int := (s.get PWR_AUX_CS.ILIM a * s.get PWR_AUX_OVS.BURST_TH a * 1000000 : Nat)

/-- The threshold the loop delivers. -/
def State.auxLoopTh (s : State) (a : Nat) : Int := (fToInt (s.aux a).th 262144000000).getD 0

/-- The peak threshold of a pulse: `ILIM` in fallback, `BURST_TH` in a burst, else the loop's, each limited to `ILIM`, or to 75 % of it at
or above `WARN` (R60 to R62, R65). -/
def State.auxPeak (s : State) (a : Nat) : Int :=
  let lim := if s.is PWR_AUX_STAT.TWARN a then 3 * s.auxIlim a / 4 else s.auxIlim a
  if s.auxFallback a then lim
  else if (s.aux a).burst ≠ 0 then min lim (s.auxBurstTh a)
  else clampI 0 lim (s.auxLoopTh a)

/-- The period of AUX_SYNC as last measured, within the limits of a period (R63). -/
def State.auxSyncPer (s : State) : Nat := clampN 1000000 10000000 (10 ^ 11 / max 1 (s.get PWR_SYNC.FSYNC))

/-- The period that a channel goes to: that of AUX_SYNC while it is locked and not in a burst, else that of `FSW` (R62, R63). -/
def State.auxGoal (s : State) (a : Nat) : Nat :=
  if s.is PWR_AUX_STAT.SYNCED a && s.get PWR_SYNC.FSYNC != 0 && (s.aux a).burst == 0 then
    s.auxSyncPer
  else s.auxFswPer a

/-- The difference of the delay that `PHASE` asks for and the time since the edge, the nearer way round (R63). -/
def State.auxShift (s : State) (a goal : Nat) : Int :=
  let d := s.get PWR_AUX_CTRL.PHASE a * goal / 64 + goal - (s.aux a).edge % goal
  ((d + goal / 2) % goal : Nat) - ((goal / 2 : Nat) : Int)

/-- The length of the next period: by at most 2 % from the last one towards the goal and, while locked, towards the delay; never below 1 µs
or above 10 µs (R63). -/
def State.auxPer (s : State) (a : Nat) : Nat :=
  let x := s.aux a
  let goal := s.auxGoal a
  let part : Int := (goal / 50 : Nat)
  let d := if s.is PWR_AUX_STAT.SYNCED a && x.burst == 0 then clampI (-part) part (s.auxShift a goal) else 0
  let step := x.per / 50
  clampN 1000000 10000000 (clampI ((x.per - step : Nat) : Int) ((x.per + step : Nat) : Int) ((goal : Int) + d)).toNat

/-- The fallback reference moves towards the setpoint in use; its rate is not stated (R61, R66; log 95). -/
def State.auxRefMove (s : State) (a : Nat) : State :=
  let x := s.aux a
  let tgt := s.auxSetpoint a
  if !s.auxFallback a || x.ref == tgt then s
  else
    let r := s.free 12
    let v := if x.ref < tgt then min tgt (x.ref + r.1) else max tgt (x.ref - r.1)
    r.2.setAux a { x with ref := v }

/-- A period in which a pulse starts: not in burst sleep, braking, overshoot, Safe-Off or the hold-up sequence, nor in fallback at or above
the reference (R42, R51, R61, R62, R64). -/
def State.auxPulse (s : State) (a : Nat) : Bool :=
  let fb := s.get PWR_AUX_STAT.FB a
  s.auxMode a != 3 && s.auxMode a != 5 && !s.is SAF_STAT.ACTIVE && !s.boot.failing && !s.auxOver a fb (s.get PWR_AUX_OVS.OV1 a) &&
    (!s.auxFallback a || decide (fb < s.auxRef a))

/-- A period begins, `t0` ps ago. -/
def State.auxBegin (s : State) (a t0 : Nat) : State :=
  let s1 := s.auxRefMove a
  let x := s1.aux a
  let go := s1.auxPulse a
  let burst := if !go then x.burst else if 1 < x.burst then x.burst - 1 else if s1.auxBurstTh a ≤ s1.auxLoopTh a then 0 else x.burst
  let s2 := s1.setAux a { x with
    per := s1.auxPer a, t := t0, burst := burst, peaks := if go then (s1.auxPeak a :: x.peaks).take 16 else x.peaks }
  if go then { s2 with pins := { s2.pins with auxDrv := setBit s2.pins.auxDrv a } } else s2.auxLow a

/-- A pulse at `t` ps of its period ends at `DMAX`, at `ILIM`, or once blanked at the threshold less the ramp; with `BURST_EN` = 0 the
threshold does not end it before 120 ns (R60, R62). -/
def State.auxEnds (s : State) (a t : Nat) (cs : Int) : Bool :=
  let from_ := max (4000 * clampN 10 100 (s.get PWR_AUX_CS.BLANK a)) (if s.is PWR_AUX_CTRL.BURST_EN a then 0 else 120000)
  let ramp : Int := (s.get PWR_AUX_CS.SLOPE a * t * 262144 / 1000 : Nat)
  decide (clampN 50 95 (s.get PWR_AUX_FSW.DMAX a) * (s.aux a).per ≤ 100 * t) || decide (s.auxIlim a < cs) ||
    (decide (from_ ≤ t) && decide (s.auxPeak a - ramp < cs))

/-- 4 ns of a channel that drives its stage. -/
def State.auxTick (s : State) (a : Nat) : State :=
  if !s.auxRuns a then s
  else
    let x := s.aux a
    let s1 := s.setAux a { x with t := x.t + 4000, edge := (x.edge + 4000) % s.auxSyncPer }
    if x.per ≤ x.t + 4000 then s1.auxBegin a (x.t + 4000 - x.per)
    else if bit s.pins.auxDrv a then
      let cs := s1.free 21
      if s1.auxEnds a (x.t + 4000) (cs.1 * 262144 : Nat) then cs.2.auxLow a else cs.2
    else s1

/-- The stage temperature in 0.1 °C that Thermal reports for `TS_SEL`; none where it names no input (R65). -/
def State.auxTemp (s : State) (a : Nat) : Option Int :=
  let n := s.get PWR_AUX_TEMP.TS_SEL a
  if n < 48 then some (s.geti TH_TS_VAL.REP n) else none

end Sys2Proof.Machine
end

