-- ==== Sys2Proof/Machine/Phase.lean ====
section
/-! DEFINITION. What each Phase Engine command does (spec/06_phase_engine.md). Currents are integers in µA, voltages of GVS in
1.0 V / 4,096, times in 4 ns unless a name says otherwise. -/

namespace Sys2Proof.Machine

open R

/-- `DEM` shows the demand received: with `DEM_SRC` = 0x1 it is `DEM_MAN` at once (R107). -/
def State.demTake (s : State) (g : Nat) : State :=
  if s.get PE_GRP_CTRL.DEM_SRC g = 1 then s.put PE_GRP_DEM.DEM (s.get PE_GRP_DEM_MAN.DEM_MAN g) g else s

/-- The demand a group has received, in µA; a demand that is not a number is a free value (log 6). -/
def State.demandOf (s : State) (g : Nat) : Int × State :=
  let w := s.fl PE_GRP_DEM.DEM g
  match fToInt w 1000000 with
  | some d => (d, s)
  | none =>
    if (Flt.ofBits w).nan then (toSigned 32 (s.free 32).1, (s.free 32).2)
    else ((if (Flt.ofBits w).neg then -(2 : Int) ^ 40 else (2 : Int) ^ 40), s)

/-- The demand of RAMPDOWN: linear from its value at the start to 0 over `STOP_T` (R132). -/
def rampDemand (d0 : Int) (ps stopMs : Nat) : Int :=
  let t := max 1 stopMs * 10 ^ 9
  if t ≤ ps then 0 else d0 * (t - ps : Nat) / t

/-- The ceilings and the number of active phases are computed again (R114, R126 step 2). -/
def State.ceilings (s : State) (g : Nat) : State :=
  let s1 := if s.groupRuns g then s.put PE_GRP_STAT.N_ACT (s.phasesIn g 2).length g else s.put PE_GRP_STAT.N_ACT 0 g
  let (c, src) := s1.capOf g (s1.capN g)
  (s1.putMax PE_GRP_CAP.CAP (c / 1000000) g).put PE_GRP_CAP.CAP_SRC src g

/-- The number of active phases has changed: re-spacing becomes due under `RESPACE` (R118, R126 step 6), or waits while `PEND` reads 1
(R120), and a ceiling that fell by a loss is logged. -/
def State.afterChange (s : State) (g oldCap : Nat) : State :=
  let x := s.grp g
  let n := s.get PE_GRP_STAT.N_ACT g
  let new := s.get PE_GRP_CAP.CAP g
  let s1 := s.setGrp g { x with changed := false, lost := false }
  let s2 := s1.when (x.lost && decide (new < oldCap)) fun t => t.log 0x0332 NOTICE ([g, 0] ++ leBytes 2 oldCap ++ leBytes 2 new)
  if !x.changed then s2
  else
    match s2.get PE_GRP_CTRL.RESPACE g with
    | 1 => if s2.is TB_OFS_CTRL.PEND && !bit s2.tb.respace g then { s2 with tb := { s2.tb with respWait := setBit s2.tb.respWait g } }
      else { s2 with tb := { s2.tb with respace := setBit s2.tb.respace g } }
    | 2 => s2.log 0x0333 INFO [g, n, 1]
    | _ => s2

/-- Every active phase of a group has run a whole carrier near zero current since `MODE` began to wait (R112); a carrier without offset
ends at the boundary itself. -/
def State.wholeCarrier (s : State) (g : Nat) : Bool :=
  (s.phasesIn g 2).all fun n => decide (2 ≤ (s.ph n).zero) || ((s.ph n).zero == 1 && s.get TB_PH_OFS_ACT.POFS_ACT n == 0)

/-- The count of whole carriers near zero current starts anew for the phases of a group. -/
def State.zeroClear (s : State) (g : Nat) : State := (s.phasesOf g).foldl (fun t n => t.setPh n { t.ph n with zero := 0 }) s

/-- The clamped demand, the mode, L, and the common threshold (R109, R112, R116): with the other sign than `MODE`, the demand is held at 0 in
the present mode until the current has been near 0 over a whole carrier of every active phase. -/
def State.threshold (s : State) (g : Nat) : State :=
  let x := s.grp g
  let n := s.get PE_GRP_STAT.N_ACT g
  let r := s.demandOf g
  let dem := r.1
  let s1 := r.2
  let down := s.get PE_GRP_STAT.STATE g == 2
  let ps := x.rampPs + s.carrierPs g
  let want := if down then rampDemand x.rampD0 ps (s.get PE_CTRL.STOP_T) else dem
  let cap : Int := (s.capOf g n).1
  let rev : Int := s.revOf g n
  let d := clampI (-rev) cap want
  let rvs := s.is PE_GRP_STAT.MODE g
  let turn := (decide (d < 0) && !rvs) || (decide (0 < d) && rvs)
  let flip := turn && x.turning && s.groupNearZero g && s.wholeCarrier g
  let d1 := if turn && !flip then 0 else d
  let lim := decide (d ≠ want)
  let i := (s.groupCurrent g).natAbs
  let l := if lim then max 0 (x.l + ((i : Int) - (if d < 0 then rev else cap)) / max 1 (n : Int)) else 0
  let th := (d1.natAbs : Int) / max 1 (n : Int) + x.h - l
  let s2 := s1.setGrp g { x with d := d1, l := l, th := th, turning := turn && !flip, rampPs := if down then ps else x.rampPs }
  let s3 := (s2.when (turn && (!x.turning || !s.groupNearZero g)) fun t => t.zeroClear g).when (turn && !flip) fun t => t.checksClear g
  (s3.putb PE_GRP_STAT.LIMITING lim g).when flip fun t => t.putb PE_GRP_STAT.MODE (!rvs) g

/-- Event 0x0320 of a cycle that has ended, with the pulses truncated in it: at most one per cycle and group (R122, R138; log 105). -/
def State.truncReport (s : State) (g : Nat) : State :=
  let x := s.grp g
  match x.truncCyc with
  | some c =>
    if c = s.stamp / 2 ^ 24 then s
    else (s.setGrp g { x with truncN := 0, truncCyc := none }).log 0x0320 NOTICE ([g, 0] ++ leBytes 2 (min x.truncN 0xFFFF))
  | none => s

/-- GROUP_CARRIER_BOUNDARY (R98, R100, R109, R112, R114, R116, R126, R127): active offsets move; the group's voltage is taken in 0.1 V,
ceilings, demand and threshold are computed; a group below `N_MIN` enters FAULT. In BRAKE the clamped demand, H and L are frozen, and
`DEM` goes on showing what arrives (R107, R123; DEDUCED, log 122). -/
def execGroupCarrierBoundary (g v : Nat) (s : State) : Host.Outcome State Fault Refusal :=
  .next <|
    if s.atBoundary g && decide (g < 8) then
      let s0 := s.ofsSlew g
      if s.runs 5 || s.runs 6 then
        let old := s.get PE_GRP_CAP.CAP g
        let s1 := ((s0.truncReport g).putMax PE_GRP_MEAS.V_GRP v g).ceilings g
        if s1.groupRuns g && decide (s1.get PE_GRP_STAT.N_ACT g < max 1 (s1.get PE_GRP_CTRL.N_MIN g)) then s1.groupFault g 1
        else
          let s2 := (s1.afterChange g old).demTake g
          if s2.groupRuns g && s2.get PE_GRP_STAT.OVS_STATE g != 2 then s2.threshold g else s2
      else s0
    else s

/-- The DAC code of a threshold before it is held at 0xFD7 (R109); none where the scale is 0. -/
def State.dacCode (s : State) (n : Nat) (th : Int) : Option Int :=
  let sc := s.get PE_GRP_SCALE.CS_SCALE (s.get PE_PH_CFG.GRP n)
  if sc = 0 then none
  else
    let num : Int := th * (s.get PE_PH_CAL.CS_GAIN n * 2048 * 100 : Nat)
    let den : Int := (sc * 2 ^ 15 * 10 ^ 6 : Nat)
    some (2048 + (2 * num + den) / (2 * den) + s.geti PE_PH_CAL.CS_OFS n)

/-- The carrier-average current in 0.01 A of a mean in 1/256 LSB (R108), rounded down (DESIGN CHOICE, log 133); none where the gain is 0. -/
def State.avgOf (s : State) (n : Nat) (mean : Int) : Option Int :=
  let gain := s.get PE_PH_CAL.CS_GAIN n
  if gain = 0 then none
  else some ((mean - s.geti PE_PH_CAL.CS_OFS n * 256) * (2 ^ 15 * s.get PE_GRP_SCALE.CS_SCALE (s.get PE_PH_CFG.GRP n) : Nat)
    / (gain * 2048 * 256 : Nat))

/-- The longest on-time in 4 ns (R110). Where it is below the shortest, which the spec does not settle, the shortest holds (DESIGN CHOICE, log 106). -/
def State.tonMax (s : State) (n : Nat) : Nat :=
  let g := s.get PE_PH_CFG.GRP n
  let t := s.carrierPs g
  let dt := fun (f : Field) => 125 * clampN 160 16000 (s.get f g)
  min (t * clampN 0x40 0xF8 (s.get PE_GRP_PWM.DMAX g) / 256) (t - dt PE_GRP_DT.DT_HL - dt PE_GRP_DT.DT_LH - 120000) / 4000

/-- The shortest on-time in 4 ns (R110, R136). -/
def State.tonMin (s : State) (n : Nat) : Nat :=
  max (if s.is TB_STAT.DLL_LOCK then 30 else 32) (clampN 10 100 (s.get PE_GRP_PWM.BLANK (s.get PE_PH_CFG.GRP n)))

/-- In reverse mode the sense is negated (R108). -/
def State.senseSign (s : State) (n : Nat) : Int := if s.is PE_GRP_STAT.MODE (s.get PE_PH_CFG.GRP n) then -1 else 1

/-- The checks of R124 are suspended for a phase (R125). -/
def State.checksOff (s : State) (n : Nat) : Bool :=
  let g := s.get PE_PH_CFG.GRP n
  decide ((s.ph n).since < 4) || s.get PE_GRP_STAT.OVS_STATE g != 0 || (s.grp g).turning || !s.is PE_DIAG.DIAG_EN

/-- The counts of R124 after a carrier, with the on-time of the pulse started in it, none where no pulse was: such a carrier and a truncated
pulse advance no count (R133); a suspended check keeps its count at 0 (R125). The first 4 carriers after ACTIVE are counted here, and
while `MODE` waits the carriers of R112. -/
def State.checkCounts (s : State) (n : Nat) (o : CarrierObs) (ton : Option Nat) : PhX :=
  let x0 := s.ph n
  let x := { x0 with since := x0.since + 1, zero := if (s.grp (s.get PE_PH_CFG.GRP n)).turning then x0.zero + 1 else x0.zero }
  if s.checksOff n then { x with open4 := 0, range := 0, fall := 0, stuck := 0 }
  else match ton with
  | none => x
  | some ton =>
    if o.truncated then x
    else
    let di : Int := s.get PE_DIAG.OPEN_DI
    let rise := s.senseSign n * o.rise
    let others := (s.phasesIn (s.get PE_PH_CFG.GRP n) 2).length - 1
    let up := fun (k : Nat) (c : Bool) => if c then k + 1 else 0
    { x with
      open4 := up x.open4 (ton == s.tonMax n && decide (rise < di))
      range := up x.range o.range
      fall := up x.fall (decide (rise < -di))
      stuck := up x.stuck (o.stuck && (others == 0 || decide (2 * o.othersStuck < others))) }

/-- The complementary gate is high at the end of a carrier and the controlled one low (R108 step 6); in BRAKE both are low (R123). -/
def State.gatesAfter (s : State) (n : Nat) : State :=
  if s.get PE_GRP_STAT.OVS_STATE (s.get PE_PH_CFG.GRP n) = 2 then s.phaseGatesLow n else
  let rev := s.is PE_GRP_STAT.MODE (s.get PE_PH_CFG.GRP n)
  let h := if rev then setBit s.pins.gateH n else clrBit s.pins.gateH n
  let l := if rev then clrBit s.pins.gateL n else setBit s.pins.gateL n
  { s with pins := { s.pins with gateH := h, gateL := l } }

/-- The DAC code and the carrier-average current of a carrier: the threshold of the group and the mean sensed, with a free value where the scale
or the gain is 0 (R108, R109; log 6). -/
def State.carrierCode (s : State) (n : Nat) (o : CarrierObs) : Nat × Int × State :=
  let c : Nat × State := match s.dacCode n (s.grp (s.get PE_PH_CFG.GRP n)).th with
    | some c => ((clampI 0 0xFD7 c).toNat, s)
    | none => (min (s.free 12).1 0xFD7, (s.free 12).2)
  match c.2.avgOf n o.mean with
  | some a => (c.1, a, c.2)
  | none => (c.1, toSigned 16 (c.2.free 16).1, (c.2.free 16).2)

/-- More than half a carrier has passed since the phase's last start: an angle that its moving offset reaches sooner is no start (R100). -/
def State.nextCarrier (s : State) (n : Nat) : Bool :=
  let au := 2 ^ 23 / max 1 (s.get TB_GRP_CAR.NCAR_ACT (s.get PE_PH_CFG.GRP n))
  match (s.ph n).at_ with
  | some v => !(decide (v ≤ s.stamp) && decide (s.stamp ≤ v + au))
  | none => true

/-- CARRIER_START (R99, R108 to R112, R123 to R125): at its start angle an active phase takes the shadows, loads its threshold and runs one
switching cycle, or skips the pulse where the sensed current is already at the threshold; no pulse starts in TRUNCATE or BRAKE. The
ramp lowers the DAC by `SLOPE` from the carrier start on; a truncated pulse lasts its minimum on-time at least (R122; log 106). -/
def execCarrierStart (n : Nat) (o : CarrierObs) (s : State) : Host.Outcome State Fault Refusal :=
  let g := s.get PE_PH_CFG.GRP n
  .next <|
    if s.atCarrier (s.get TB_GRP_CAR.NCAR_ACT g) (s.get TB_PH_OFS_ACT.POFS_ACT n) && s.nextCarrier n && s.runs (5 + portOf n) && decide (n < 96) &&
        s.get PE_PH_STAT.STATE n == 2 then
      let c := s.carrierCode n o
      let code := c.1
      let slope := s.get PE_GRP_PWM.SLOPE g
      let pulse := s.get PE_GRP_STAT.OVS_STATE g == 0 && decide (s.senseSign n * o.sensed < (code : Int) - 2048)
      let ton := if pulse then clampN (s.tonMin n) (max (s.tonMin n) (s.tonMax n)) o.ton else 0
      let s1 := ((c.2.2.put PE_PH_MEAS.TH code n).putSat PE_PH_STAT.I_AVG c.2.1 n).gatesAfter n
      let x := s1.checkCounts n o (if pulse then some ton else none)
      let s2 := (s1.putMax PE_PH_MEAS.TON ton n).setPh n
        { x with th := (s.grp g).th, slope, dac := (256 * code : Int) - (slope * ton : Nat), at_ := some s.stamp }
      (s2.phSlew g n).when (pulse && o.truncated) fun t => t.inc PE_PH_CNT.TRUNC n
    else s

/-- HALF_CYCLE_BOUNDARY (R115): at angle 0 and at 0x80_0000 every non-zero `EXP_HC` decrements, as do the half-cycles left of a pledge (R217); the counts of half-cycles without a need or allowance
frame advance (R330). -/
def execHalfCycleBoundary (s : State) : Host.Outcome State Fault Refusal :=
  .next <|
    if s.atAngle 0 || s.atAngle 0x800000 then
      let s1 := s.each 8 fun g t =>
        let e := t.get PE_GRP_LEASE.EXP_HC g
        if e = 0 then t else t.put PE_GRP_LEASE.EXP_HC (e - 1) g
      ({ s1 with sl := { s1.sl with pledgeHc := s1.sl.pledgeHc - 1 } }.slSync).halfCycleAges
    else s

/-- LEASE_LAPSE (R115): a lease whose `EXP_HC` has reached 0. -/
def execLeaseLapse (g : Nat) (s : State) : Host.Outcome State Fault Refusal :=
  .next <|
    if decide (g < 8) && s.get PE_GRP_LEASE.EXP_HC g == 0 && !s.is PE_GRP_LEASE.LAPSED g then
      ((s.put PE_GRP_LEASE.LAPSED 1 g).slSync).log 0x0334 INFO [g]
    else s

/-- The overshoot comparators act: the group is in RUN or RAMPDOWN. -/
def State.ovsActs (s : State) (g st : Nat) : Bool := decide (g < 8) && s.groupRuns g && s.get PE_GRP_STAT.OVS_STATE g == st

/-- The group enters BRAKE (R123, R125): both gates of every phase low, and no check counts. -/
def State.brake (s : State) (g : Nat) : State :=
  ((((s.checksClear g).groupGatesLow g).put PE_GRP_STAT.OVS_STATE 2 g).put PE_GRP_STAT.BRK_SEEN 1 g).inc PE_GRP_CNT.BRAKE g

/-- OVERSHOOT_TRUNCATE (R117, R121, R122, R125): above `OVS1` and below `OVS2`; the pulses it ends count for the strobe and for the cycle, whose
event 0x0320 follows when it has ended. -/
def execOvershootTruncate (g gvs pulses : Nat) (s : State) : Host.Outcome State Fault Refusal :=
  .next <|
    if s.ovsActs g 0 && decide (s.get PE_GRP_OVS.OVS1 g < gvs) && decide (gvs < s.get PE_GRP_OVS.OVS2 g) then
      let s1 := ((((s.checksClear g).truncReport g).put PE_GRP_STAT.OVS_STATE 1 g).put PE_GRP_STAT.TRUNC_SEEN 1 g).inc PE_GRP_CNT.TRUNC g 0 pulses
      let x := s1.grp g
      s1.setGrp g { x with truncN := x.truncN + pulses, trunc := x.trunc + pulses, truncCyc := some (s.stamp / 2 ^ 24) }
    else s

/-- OVERSHOOT_BRAKE (R121, R123): at or above `OVS2`; from TRUNCATE event 0x0321 is logged. -/
def execOvershootBrake (g gvs : Nat) (s : State) : Host.Outcome State Fault Refusal :=
  .next <|
    if decide (s.get PE_GRP_OVS.OVS2 g ≤ gvs) then
      if s.ovsActs g 0 then s.brake g
      else if s.ovsActs g 1 then (s.brake g).log 0x0321 WARNING [g]
      else s
    else s

/-- TRUNCATE_TIMEOUT (R121): TRUNCATE has lasted 2 carrier periods. -/
def execTruncateTimeout (g periods : Nat) (s : State) : Host.Outcome State Fault Refusal :=
  .next <| if s.ovsActs g 1 && decide (2 ≤ periods) then (s.brake g).log 0x0321 WARNING [g] else s

/-- TRUNCATE_RELEASE (R121): the row to BRAKE comes first, which thresholds written in RUN can reach. -/
def execTruncateRelease (g gvs : Nat) (s : State) : Host.Outcome State Fault Refusal :=
  .next <|
    if s.ovsActs g 1 && decide (gvs ≤ s.get PE_GRP_OVS.OVS1 g) then
      if s.get PE_GRP_OVS.OVS2 g ≤ gvs then (s.brake g).log 0x0321 WARNING [g] else s.put PE_GRP_STAT.OVS_STATE 0 g
    else s

/-- BRAKE_RELEASE (R121). -/
def execBrakeRelease (g gvs : Nat) (s : State) : Host.Outcome State Fault Refusal :=
  .next <| if s.ovsActs g 2 && decide (gvs < s.get PE_GRP_OVR.OVR g) then s.put PE_GRP_STAT.OVS_STATE 0 g else s

/-- BRAKING_TIMEOUT (R121, R132): the group enters FAULT with cause 0x2. -/
def execBrakingTimeout (g hc : Nat) (s : State) : Host.Outcome State Fault Refusal :=
  .next <| if s.ovsActs g 2 && decide (max 1 (s.get PE_GRP_OVR.BRK_MAX g) ≤ hc) then s.groupFault g 2 else s

/-- The check of R124 that is complete for a phase, as `FLT_CODE` names it; the lowest code of several at one carrier (DESIGN CHOICE, log 122). -/
def State.checkDone (s : State) (n : Nat) : Option Nat :=
  let x := s.ph n
  if 4 ≤ x.open4 then some 1 else if 2 ≤ x.range then some 2 else if 4 ≤ x.fall then some 3 else if 4 ≤ x.stuck then some 4 else none

/-- PHASE_CHECK_FAIL (R124, R126, R127, R133): the phase is TRIPPED; the group recomputes at its next carrier boundary. Where Safe-Off has put the
phase OFF in the same moment, the fault is still latched and logged. -/
def execPhaseCheckFail (n : Nat) (s : State) : Host.Outcome State Fault Refusal :=
  .next <|
    if decide (n < 96) && s.get PE_PH_STAT.STATE n == 2 then
      match s.checkDone n with
      | some c => s.phaseTrip n c
      | none => s
    else if decide (n < 96) && s.justOff n then
      match s.checkDone n with
      | some c =>
        let g := s.get PE_PH_CFG.GRP n
        (s.put PE_PH_STAT.FLT_CODE c n).log 0x0310 WARNING [n, c, g, (s.phasesIn g 2).length]
      | none => s
    else s

/-- DRIVER_FAULT (R128, R130, R133): PHnn_FLT_N low for `FLT_FILT`; then `FLT_ACT` of the group. With 0x2 Safe-Off comes first
and takes the group to IDLE. Where Safe-Off has put the phase OFF in the same moment, the fault is still latched and logged. -/
def execDriverFault (n low : Nat) (s : State) : Host.Outcome State Fault Refusal :=
  let g := s.get PE_PH_CFG.GRP n
  let st := s.get PE_PH_STAT.STATE n
  .next <|
    if decide (n < 96) && (st == 1 || st == 2) && decide (s.get PE_CTRL.FLT_FILT ≤ low) then
      let s1 := ((s.put PE_PH_STAT.FLT_IN 1 n).log 0x0311 FAULT [n, g]).phaseTrip n 5
      match s1.get PE_GRP_CTRL.FLT_ACT g with
      | 0 => s1
      | 2 => (s1.reqSafeOff 1 0x0311).groupFault g 3
      | _ => s1.groupFault g 3
    else if decide (n < 96) && s.justOff n && decide (s.get PE_CTRL.FLT_FILT ≤ low) then
      ((s.put PE_PH_STAT.FLT_IN 1 n).put PE_PH_STAT.FLT_CODE 5 n).log 0x0311 FAULT [n, g]
    else s

/-- PHASE_IMBALANCE (R129). -/
def execPhaseImbalance (n : Nat) (diff : Int) (s : State) : Host.Outcome State Fault Refusal :=
  let g := s.get PE_PH_CFG.GRP n
  .next <|
    if decide (n < 96) && s.get PE_PH_STAT.STATE n == 2 &&
        decide (s.get PE_DIAG.IMBAL * s.get PE_GRP_RATING.I_PH_MAX g < diff.natAbs * 100) then
      s.log 0x0335 WARNING [g, n]
    else s

/-- A write of `EN` = 1 of a phase (R33, R50, R57, R67, R130). -/
def State.phaseEnable (s : State) (n : Nat) (fltLow : Bool) : State :=
  let g := s.get PE_PH_CFG.GRP n
  if decide (n < 96) && s.get PE_PH_STAT.STATE n == 0 && s.inRun && s.is PWR_HOLDUP.HOLDUP_OK && s.gateSupply (portOf n) &&
      !s.is SAF_STAT.ACTIVE && !bit s.upd.recal (portOf n) then
    let s1 := (s.put PE_PH_CFG.EN 1 n).putb PE_PH_STAT.FLT_IN fltLow n
    let s2 := if fltLow then (s1.phaseTrip n 6).log 0x0312 WARNING [n]
      else (s1.phaseState n 1).put PE_PH_STAT.FLT_CODE 0 n
    s2.groupCfg g
  else s

/-- PHASE_ENABLE (R130). -/
def execPhaseEnable (sess n : Nat) (fltLow : Bool) (s : State) : Host.Outcome State Fault Refusal :=
  .next <| s.guarded sess PE_PH_CFG.EN (fun t => t.phaseEnable n fltLow) n

/-- A write of `EN` = 0 of a phase (R126, R130): OFF; a loss of an active phase is recomputed at the next boundary. -/
def State.phaseDisable (s : State) (n : Nat) : State :=
  if 96 ≤ n then s
  else
    let g := s.get PE_PH_CFG.GRP n
    let act := s.get PE_PH_STAT.STATE n == 2
    ((s.phaseOff n).when act fun t => t.groupChanged g true).groupCfg g

/-- PHASE_DISABLE (R130). -/
def execPhaseDisable (sess n : Nat) (s : State) : Host.Outcome State Fault Refusal :=
  .next <| s.guarded sess PE_PH_CFG.EN (fun t => t.phaseDisable n) n

/-- A phase becomes ACTIVE: its counts start at 0. -/
def State.phaseActive (s : State) (n : Nat) : State := (s.setPh n { pub := (s.ph n).pub }).phaseState n 2

/-- PHASE_JOIN (R130): a waiting phase joins its running group at angle 0. -/
def execPhaseJoin (n : Nat) (s : State) : Host.Outcome State Fault Refusal :=
  let g := s.get PE_PH_CFG.GRP n
  .next <|
    if decide (n < 96) && s.atAngle 0 && s.get PE_PH_STAT.STATE n == 1 && s.groupRuns g && s.is TB_STAT.DLL_LOCK &&
        s.gateSupply (portOf n) then
      (s.phaseActive n).groupChanged g false
    else s

/-- The conditions of R131 beside `EN`. -/
def State.startOk (s : State) (g : Nat) : Bool :=
  let o1 := s.get PE_GRP_OVS.OVS1 g
  let o2 := s.get PE_GRP_OVS.OVS2 g
  let lp := s.get PE_GRP_CTRL.LOOP g
  s.inRun && !s.is SAF_STAT.ACTIVE &&
  (s.get PE_GRP_CTRL.DEM_SRC g == 1 || (lp != 0x7F && bit (s.get SYS_READY.RDY) 2)) &&
  o2 != 0xFFF && decide (s.get PE_GRP_OVR.OVR g < o1) && decide (o1 < o2) &&
  s.get PE_GRP_RATING.I_GRP_MAX g != 0 && s.get PE_GRP_RATING.I_PH_MAX g != 0 &&
  s.get PE_GRP_SCALE.CS_SCALE g != 0 && s.get PE_GRP_SCALE.VS_SCALE g != 0 &&
  decide (max 1 (s.get PE_GRP_CTRL.N_MIN g) ≤ (s.phasesIn g 1).length) &&
  s.is TB_STAT.DLL_LOCK && bit (s.get SYS_READY.RDY) 0 && bit (s.get SYS_READY.RDY) 9 &&
  (s.phasesOf g).all fun n => s.gateSupply (portOf n)

/-- A write of `EN` = 1 of a group (R131, R132). -/
def State.groupEnable (s : State) (g : Nat) : State :=
  if 8 ≤ g then s
  else
    let s1 := s.put PE_GRP_CTRL.EN 1 g
    if s1.get PE_GRP_STAT.STATE g = 0 then s1.putb PE_GRP_STAT.START_BLK (!s1.startOk g) g else s1

/-- GROUP_ENABLE (R131). -/
def execGroupEnable (sess g : Nat) (s : State) : Host.Outcome State Fault Refusal :=
  .next <| s.guarded sess PE_GRP_CTRL.EN fun t => t.groupEnable g

/-- GROUP_START (R131, R132): at angle 0 an enabled IDLE group whose conditions hold enters RUN; else `START_BLK` shows. The watchdog of R134
counts strobes from here on (DESIGN CHOICE, log 133). -/
def execGroupStart (g : Nat) (s : State) : Host.Outcome State Fault Refusal :=
  .next <|
    if decide (g < 8) && s.atAngle 0 && s.get PE_GRP_STAT.STATE g == 0 && s.is PE_GRP_CTRL.EN g then
      if s.startOk g then
        let s1 := (s.phasesIn g 1).foldl State.phaseActive s
        let n := (s1.phasesIn g 2).length
        let s2 := (((s1.setGrp g (s1.grp g).started).groupState g 1).put PE_GRP_STAT.N_ACT n g).put PE_GRP_STAT.FLT_CAUSE 0 g
        ((s2.put PE_GRP_STAT.START_BLK 0 g).groupCfg g).log 0x0301 NOTICE [g, n]
      else s.put PE_GRP_STAT.START_BLK 1 g
    else s

/-- The group enters RAMPDOWN from its present demand (R132). -/
def State.groupRampdown (s : State) (g : Nat) : State :=
  (s.setGrp g { s.grp g with rampD0 := (s.grp g).d, rampPs := 0 }).groupState g 2

/-- A write of `EN` = 0 of a group (R132): RUN to RAMPDOWN, FAULT to IDLE. -/
def State.groupDisable (s : State) (g : Nat) : State :=
  if 8 ≤ g then s
  else
    let s1 := (s.put PE_GRP_CTRL.EN 0 g).put PE_GRP_STAT.START_BLK 0 g
    match s1.get PE_GRP_STAT.STATE g with
    | 1 => s1.groupRampdown g
    | 3 => s1.groupState g 0
    | _ => s1

/-- GROUP_DISABLE (R132). -/
def execGroupDisable (sess g : Nat) (s : State) : Host.Outcome State Fault Refusal :=
  .next <| s.guarded sess PE_GRP_CTRL.EN fun t => t.groupDisable g

/-- RAMPDOWN_COMPLETE (R132): d is 0 and the current within ±2 % of `I_GRP_MAX`; the active phases wait. -/
def execRampdownComplete (g : Nat) (s : State) : Host.Outcome State Fault Refusal :=
  .next <|
    if decide (g < 8) && s.get PE_GRP_STAT.STATE g == 2 && (s.grp g).d == 0 && s.groupNearZero g then
      let s1 := (s.phasesIn g 2).foldl (fun t n => t.phaseState n 1) (s.groupGatesLow g)
      ((s1.groupState g 0).put PE_GRP_STAT.N_ACT 0 g).log 0x0302 INFO [g]
    else s

/-- DEMAND_WATCHDOG (R132, R134): no new demand for `DEM_TMO` strobes. -/
def execDemandWatchdog (g : Nat) (s : State) : Host.Outcome State Fault Refusal :=
  .next <|
    if decide (g < 8) && s.get PE_GRP_STAT.STATE g == 1 && s.get PE_GRP_CTRL.DEM_SRC g != 1 &&
        decide (max 2 (s.get PE_CTRL.DEM_TMO) ≤ (s.grp g).demAge) then
      (((s.groupRampdown g).put PE_GRP_CTRL.EN 0 g).put PE_GRP_STAT.WDOG_SEEN 1 g).log 0x0331 WARNING [g]
    else s

/-- The rank of an active phase in its group (R106). -/
def State.rankOf (s : State) (act : List Nat) (n : Nat) : Nat :=
  let k := fun m => s.get PE_PH_CFG.SLOT m * 128 + m
  (act.filter fun m => decide (k m < k n)).length

/-- RESPACE_COMMIT (R118 to R120, R133): at angle 0, before a management commit there, the group's automatic offsets are written and
committed. -/
def execRespaceCommit (g : Nat) (s : State) : Host.Outcome State Fault Refusal :=
  .next <|
    if s.respaceDue g && s.atBoundary g then
      let act := s.phasesIn g 2
      let cnt := act.length
      let s1 := act.foldl (fun t n =>
        t.put TB_PH_OFS.POFS ((2 * (t.rankOf act n) * 2 ^ 20 + cnt) / (2 * cnt) % 2 ^ 20) n) s
      let s2 := { s1 with tb := { s1.tb with respace := clrBit s1.tb.respace g } }
      (s2.ofsTake g).log 0x0333 INFO [g, cnt, 0]
    else s

/-- What the Phase Engine does at a sample strobe (R109, R117, R134): the demand of a manual group, the age of the demand,
the update of H, and what is published of every group and of every phase. An ACTIVE phase that has run no carrier counts in H with the
threshold 0, since it has loaded none, and with its I_AVG as it stands (DESIGN CHOICE, log 122). `I_GRP` is the group current to the
nearest A (DESIGN CHOICE, log 133). -/
def State.phaseStrobe (s : State) : State :=
  (s.each 96 fun n t => t.setPh n { t.ph n with pub := t.get PE_PH_STAT.STATE n }).each 8 fun g t =>
    let x := t.grp g
    let act := t.phasesIn g 2
    let man := t.get PE_GRP_CTRL.DEM_SRC g == 1
    let t1 := t.demTake g
    let age := if man then 0 else x.demAge + 1
    let sg : Int := if t.is PE_GRP_STAT.MODE g then -1 else 1
    let mean : Int := if act.isEmpty then 0
      else act.foldl (fun a n => a + (t.ph n).th - sg * t.geti PE_PH_STAT.I_AVG n * 10000) 0 / (act.length : Int)
    let frozen := t.get PE_GRP_STAT.OVS_STATE g == 2 || !t.groupRuns g
    let h := if frozen then x.h else x.h + (mean - x.h) / 4
    let t2 := t1.putSat PE_GRP_MEAS.I_GRP ((t.groupCurrent g + 500000) / 1000000) g
    let pub : GrpPub :=
      { cap := t2.get PE_GRP_CAP.CAP g, src := t2.get PE_GRP_CAP.CAP_SRC g, n := t2.get PE_GRP_STAT.N_ACT g
        v := t2.get PE_GRP_MEAS.V_GRP g, i := t2.geti PE_GRP_MEAS.I_GRP g, rev := t2.revOf g (t2.capN g) / 1000000, trunc := x.trunc }
    t2.setGrp g { x with demAge := age, h := h, trunc := 0, pub }

end Sys2Proof.Machine
end

