-- ==== Sys2Proof/Machine/Cert.lean ====
section
/-! DEFINITION. The public key of a slot (R417) and the X.509 v3 certificates that KS00 to KS04 hold at delivery (R427, R428), as DER. What the
rules do not state of a certificate is free: its serial number, the authority's name, the time of manufacture, the validity of KS01 to
KS04 and the authority's signature (log 20). Object identifiers and the DER of the fields are those of X.509 (PRESUMED, log 20). -/

namespace Sys2Proof.Machine

open R

/-- The bytes of a slot's public key. -/
def KvSlot.publicKey (x : KvSlot) : List Nat :=
  match x.key with
  | none => []
  | some d => publicBytes x.type d

/-! ### DER -/

/-- A length in DER. -/
def derLen (n : Nat) : List Nat := if n < 128 then [n] else if n < 256 then [0x81, n] else [0x82, n / 256, n % 256]

/-- A value in DER with its tag and its length. -/
def der (tag : Nat) (body : List Nat) : List Nat := tag :: derLen body.length ++ body

/-- A sequence. -/
def derSeq (parts : List (List Nat)) : List Nat := der 0x30 parts.flatten

/-- `n` decimal digits in ASCII. -/
def digits : Nat → Nat → List Nat
  | 0, _ => []
  | n + 1, v => digits n (v / 10) ++ [0x30 + v % 10]

/-- UTC seconds as a time of X.509: UTCTime, YYMMDDHHMMSSZ, before 2050, and GeneralizedTime, YYYYMMDDHHMMSSZ, from then on. -/
def derTime (utc : Nat) : List Nat :=
  let c := civilOf (epochDay + utc / 86400)
  let t := utc % 86400
  der (if c.y < 2050 then 0x17 else 0x18) (digits (if c.y < 2050 then 2 else 4) c.y ++ digits 2 c.m ++ digits 2 c.d ++ digits 2 (t / 3600) ++ digits 2 (t / 60 % 60) ++ digits 2 (t % 60) ++ [0x5A])

/-- 99991231235959Z. -/
def derEnd : List Nat :=
  der 0x18 (digits 4 9999 ++ digits 2 12 ++ digits 2 31 ++ digits 2 23 ++ digits 2 59 ++ digits 2 59 ++ [0x5A])

/-- Upper-case hexadecimal digits of a value in ASCII, `n` of them. -/
def hexDigits : Nat → Nat → List Nat
  | 0, _ => []
  | n + 1, v => hexDigits n (v / 16) ++ [let d := v % 16; if d < 10 then 0x30 + d else 0x37 + d]

/-- The subject of a unit's certificates: `SYS_SERIAL_HI` and `SYS_SERIAL_LO` as 16 upper-case hexadecimal digits in serialNumber (R427). -/
def State.unitName (s : State) : List Nat :=
  derSeq [der 0x31 (derSeq [der 0x06 [0x55, 0x04, 0x05], der 0x13 (hexDigits 16 s.serial)])]

/-- The algorithm and the public key of a type. -/
def publicInfo (type : Nat) (key : List Nat) : List Nat :=
  let ec := der 0x06 [0x2A, 0x86, 0x48, 0xCE, 0x3D, 0x02, 0x01]
  let alg := match type with
    | 4 => [ec, der 0x06 [0x2A, 0x86, 0x48, 0xCE, 0x3D, 0x03, 0x01, 0x07]]
    | 5 => [ec, der 0x06 [0x2B, 0x81, 0x04, 0x00, 0x22]]
    | 6 => [ec, der 0x06 [0x2B, 0x81, 0x04, 0x00, 0x23]]
    | _ => [der 0x06 [0x2B, 0x65, 0x71]]
  derSeq [derSeq alg, der 0x03 (0 :: key)]

/-- ecdsa-with-SHA384, as KS00 signs (R429). -/
def ecdsaSha384 : List Nat := derSeq [der 0x06 [0x2A, 0x86, 0x48, 0xCE, 0x3D, 0x04, 0x03, 0x03]]

/-- A critical extension. -/
def extension (oid body : List Nat) : List Nat := derSeq [der 0x06 oid, der 0x01 [0xFF], der 0x04 body]

/-- keyUsage digitalSignature and keyCertSign with basicConstraints CA true and path length 0 for KS00; digitalSignature only for KS01 to KS04
(R427, R428). -/
def certExtensions (slot : Nat) : List Nat :=
  let usage := fun (b : List Nat) => extension [0x55, 0x1D, 0x0F] (der 0x03 b)
  der 0xA3 (derSeq (if slot = 0 then
      [usage [0x02, 0x84], extension [0x55, 0x1D, 0x13] (derSeq [der 0x01 [0xFF], der 0x02 [0]])]
    else [usage [0x07, 0x80]]))

/-- The validity: from manufacture to 99991231235959Z for KS00 (R427). -/
def certValidity (slot : Nat) : List Nat :=
  if slot = 0 then derSeq [derTime (Config.certFrom 0).toNat, derEnd]
  else derSeq [derTime (Config.certFrom slot).toNat, derTime (Config.certTo slot).toNat]

/-- What is signed of a delivered certificate: KS00's is issued by the Edrepex authority, the others' under KS00 (R427, R428). -/
def State.certBody (s : State) (slot type : Nat) : List Nat :=
  derSeq [der 0xA0 (der 0x02 [2]), der 0x02 (Config.certSerial slot), if slot = 0 then Config.authorityAlg else ecdsaSha384,
    if slot = 0 then Config.authorityName else s.unitName, certValidity slot, s.unitName, publicInfo type (publicBytes type (unitKey slot type)),
    certExtensions slot]

/-- A non-negative integer of at most `n` bytes. -/
def derInt (n v : Nat) : List Nat :=
  let l := (beBytes n v).dropWhile fun b => b == 0
  der 0x02 (if 128 ≤ l.headD 128 then 0 :: l else l)

/-- The signature of a delivered certificate (R427, R428): the authority's on KS00's is free; the others' are made with the key of KS00. -/
def certSig (slot : Nat) (body : List Nat) : List Nat :=
  if slot = 0 then Config.certSignature else (let q := ecdsa 5 (unitKey 0 5) body; derSeq [derInt 48 q.1, derInt 48 q.2])

/-- The certificate of a slot at delivery (R427, R428): the body and its signature. -/
@[irreducible] def State.unitCert (s : State) (slot type : Nat) : List Nat :=
  let body := s.certBody slot type
  derSeq [body, if slot = 0 then Config.authorityAlg else ecdsaSha384, der 0x03 (0 :: certSig slot body)]

/-- A slot's certificate part: KS00 to KS04, which are `FIXED`, hold those of their delivery (R418, R427, R428). -/
def State.certOf (s : State) (k : Nat) (x : KvSlot) : Option (List Nat) :=
  if k < 5 ∧ x.cert.isSome then some (s.unitCert k x.type) else x.cert

end Sys2Proof.Machine
end

