-- ==== Sys2Proof/Machine/VaultOps.lean ====
section
/-! DEFINITION. Shared operations of the Key Vault and of the management sessions it serves: slots and their checks (R417 to R419),
the stage (R421), the Firn rule (R424), regeneration (R414, R415), destruction (R430, R431), the end of a session (R502). -/

namespace Sys2Proof.Machine

open R

/-! ### Sessions -/

/-- A session's own state (R501). -/
def State.ses (s : State) (i : Nat) : Ses := sparseGet {} i s.mg.ses

/-- Sets a session's own state. -/
def State.setSes (s : State) (i : Nat) (x : Ses) : State := { s with mg := { s.mg with ses := sparsePut {} i x s.mg.ses } }

/-- The sessions that are open. -/
def State.openSessions (s : State) : List Nat := (List.range 8).filter fun i => s.get SYS_SESS.STATE i == 2

/-- `SYS_MGMT_STAT` follows the session table and the relay entries. -/
def State.sessShow (s : State) : State :=
  ((s.put SYS_MGMT_STAT.N_SESS s.openSessions.length).put SYS_MGMT_STAT.N_ADMIN
    (s.openSessions.filter fun i => s.get SYS_SESS.LEVEL i == 3).length).put SYS_MGMT_STAT.N_RELAY s.mg.relays.length

/-- The stage is released and zeroised (R421). -/
def State.stageFree (s : State) : State := { s with kv := { s.kv with stage := [], owner := none } }

/-- An entry of the session table is free. -/
def State.sessClear (s : State) (i : Nat) : State :=
  ((((s.put SYS_SESS.STATE 0 i).put SYS_SESS.LEVEL 0 i).put SYS_SESS.VIA 0 i).put SYS_SESS.PEER 0 i).put SYS_SESS.N_SUB 0 i

/-- A session closes (R501, R502): nothing of its own state is kept. Event 0x0021 gives the reason. With the last ADMIN session the
codes that need one are dropped (R524). -/
def State.sessClose (s : State) (i reason : Nat) : State :=
  if s.get SYS_SESS.STATE i = 2 then
    let s0 := { s with mg := { s.mg with launches := s.mg.launches.map fun (p : Nat × Nat) => if p.2 = i then (p.1, 8) else p } }
    let s1 := (s0.sessClear i).setSes i {}
    let s2 := if s1.kv.owner = some i then s1.stageFree else s1
    let s3 := s2.sessShow.log 0x0021 INFO [i, reason]
    if s.get SYS_SESS.LEVEL i = 3 ∧ s3.get SYS_MGMT_STAT.N_ADMIN = 0 then s3.tmxDrop 2 else s3
  else s

/-- Every open session closes. A reset that closes them logs 0x0021 beside 0x0001: R82 calls 0x0001 the only record of a return to default, and R502
names the event for every close (DESIGN CHOICE, log 145). -/
def State.sessCloseAll (s : State) (reason : Nat) : State := s.openSessions.foldl (fun (t : State) i => t.sessClose i reason) s

/-- The sessions of a level close: the anchor field that granted it changes (R502). -/
def State.sessCloseLevel (s : State) (level : Nat) : State :=
  s.openSessions.foldl (fun (t : State) i => if t.get SYS_SESS.LEVEL i = level then t.sessClose i 4 else t) s

/-- The sessions whose level a slot granted close: its contents change (R502). -/
def State.sessCloseSlot (s : State) (slot : Nat) : State :=
  s.openSessions.foldl (fun (t : State) i => if (t.ses i).anchor = slot then t.sessClose i 4 else t) s

/-! ### Slots -/

/-- A slot (R417). -/
def State.slot (s : State) (k : Nat) : KvSlot := sparseGet {} k s.vault.slots

/-- KS00 to KS04 are `FIXED` (R418). -/
def fixedSlot (k : Nat) : Bool := decide (k < 5)

/-- The slot is not empty. -/
def KvSlot.used (x : KvSlot) : Bool := x.type != 0

/-- The Key Vault serves requests (R55, R419, R420). -/
def State.kvReady (s : State) : Bool := s.runs 11 && s.runs 3 && bit (s.get SYS_READY.RDY) 12

/-- `N_USED`, `N_BAD` and `N_WORK` follow the slots. -/
def State.kvShow (s : State) : State :=
  let l := (List.range 64).filter fun k => (s.slot k).used
  ((s.put KV_STAT.N_USED l.length).put KV_STAT.N_BAD (l.filter fun k => (s.slot k).bad).length).put KV_STAT.N_WORK s.kv.work.length

/-- Sets a slot. -/
def State.setSlot (s : State) (k : Nat) (x : KvSlot) : State :=
  { s with vault := { s.vault with slots := sparsePut {} k x s.vault.slots } }.kvShow

/-- A slot fails its check (R419). -/
def State.slotBad (s : State) (k : Nat) : State :=
  if (s.slot k).used && !(s.slot k).bad then (s.setSlot k { s.slot k with bad := true }).log 0x0F05 FAULT [k] else s

/-- A slot is checked at a use (R419): `ok` is the outcome. -/
def State.slotCheck (s : State) (k : Nat) (ok : Bool) : State := if ok then s else s.slotBad k

/-- A slot can serve a usage (R415, R418, R419). -/
def State.slotServes (s : State) (k use : Nat) : Bool :=
  s.kvReady && (s.slot k).used && !(s.slot k).bad && (s.slot k).key.isSome && bit (s.slot k).use use

/-- The slot is a trust anchor (R418). -/
def State.slotAnchor (s : State) (k : Nat) : Bool :=
  s.kvReady && decide ((s.slot k).type = 8) && !(s.slot k).bad && bit (s.slot k).use 4

/-- The slot holds an ECDSA key with SIGN and a certificate part, and has no fixed use (R316, R418). -/
def State.slotSecc (s : State) (k : Nat) : Bool :=
  decide (6 ≤ k) && s.slotServes k 0 && decide (4 ≤ (s.slot k).type) && decide ((s.slot k).type ≤ 6) && (s.slot k).cert.isSome

/-- `KV_SLOT_ATTR` of a slot. -/
def State.slotAttr (s : State) (k : Nat) : Nat :=
  let x := s.slot k
  let b := fun (c : Bool) (i : Nat) => if c then 2 ^ i else 0
  x.type + 16 * x.use + b (fixedSlot k && x.used) 9 + b x.lockw 10 + b x.mseal 11 + b x.cert.isSome 12 + b x.bad 13
    + 65536 * ((s.certOf k x).getD []).length

/-- `KV_PUB_DATA` at the index that is selected. -/
def State.pubWord (s : State) : Nat :=
  let k := s.get KV_SLOT_SEL.SLOT
  let x := s.slot k
  let l := if s.is KV_PUB_ADDR.PART then (s.certOf k x).getD [] else x.publicKey
  if x.bad then 0 else ofLeBytes ((l.drop (4 * s.get KV_PUB_ADDR.INDEX)).take 4)

/-! ### The stage and the rules for keys -/

/-- The first `n` bytes of the stage. -/
def State.stageBytes (s : State) (n : Nat) : List Nat :=
  ((List.range ((n + 3) / 4)).flatMap fun k => leBytes 4 (sparseGet 0 k s.kv.stage).toNat).take n

/-- The usages that a type allows (R422). -/
def useAllowed : Nat → Nat
  | 1 => 2 | 2 => 14 | 3 => 4 | 4 => 1 | 5 => 1 | 6 => 1 | 7 => 1
  | _ => 0

/-- `TYPE` and `USE` agree (R422). -/
def useAgrees (type use : Nat) : Bool := decide (1 ≤ type) && decide (type ≤ 7) && clrBits use (useAllowed type) == 0

/-- The bytes are a valid key of a type (R421, R422). -/
def keyValid (type : Nat) (d : List Nat) : Bool :=
  match type with
  | 3 => decide (1 ≤ d.length) && decide (d.length ≤ 132)
  | 4 | 5 | 6 => decide (d.length = keyBytes type) && decide (1 ≤ ofBeBytes d) && decide (ofBeBytes d < (curveOf type).n)
  | _ => decide (d.length = keyBytes type)

/-- The blocks of HKDF-Expand of RFC 5869, with the last block and the number of the next. -/
def hkdfBlocks (prk info : List Nat) : Nat → Nat → List Nat → List Nat
  | 0, _, _ => []
  | n + 1, i, last => let t := hmac prk (last ++ info ++ [i]); t ++ hkdfBlocks prk info n (i + 1) t

/-- HKDF-Expand to `l` bytes (R424). -/
def hkdfExpand (prk info : List Nat) (l : Nat) : List Nat := (hkdfBlocks prk info ((l + 31) / 32) 1 []).take l

/-- The bytes L of key material for a child type (R424). -/
def firnLen : Nat → Nat
  | 1 => 16 | 4 => 40 | 5 => 56 | 6 => 74 | 7 => 57
  | _ => 32

/-- The child of a key by the Firn rule (R424); `depth` is the child's. -/
def firnChild (parent : List Nat) (depth type use : Nat) (label : List Nat) : List Nat :=
  scalarOf type (hkdfExpand parent ([0x46, depth, type, use] ++ label) (firnLen type))

/-! ### Regeneration and destruction -/

/-- The slot-wrap key: the child of the PUF's root by the Firn rule, with a label reserved to Edrepex (R416). Root, label and usages are free
(log 142). -/
def wrapKey : List Nat := firnChild ((List.range 32).map fun i => (Config.pufRoot i).toNat) 1 2 Config.wrapUse.toNat (Config.wrapLabel.map fun b => b.toNat)

/-- Everything of the vault in D11 is cleared (R416, R420, R431). -/
def State.kvClear (s : State) : State :=
  let s1 := { s with kv := {} }
  let s2 := s1.each 128 fun w t =>
    ((((t.put KV_WORK_ATTR.VALID 0 w).put KV_WORK_ATTR.TYPE 0 w).put KV_WORK_ATTR.USE 0 w).put KV_WORK_ATTR.DEPTH 0 w).put
      KV_WORK_ATTR.PARENT 0 w
  ((s2.put KV_STAT.PUF_OK 0).put KV_STAT.N_WORK 0).put SYS_READY.RDY (clrBit (s2.get SYS_READY.RDY) 12)

/-- Destruction is declared (R430, R431): a later declaration keeps the first record. `on` says whether a domain is on: in a D0 cold start only
D0 is. -/
def State.destroyWith (s : State) (on : Nat → Bool) (cause : Nat) : State :=
  if s.is KV_STAT.DESTROYED then s
  else
    let s1 := ((s.put KV_STAT.DESTROYED 1).put KV_DESTROY.CAUSE cause).put KV_DESTROY_TIME.UTC s.rtc
    let s2 := { s1 with vault := { s1.vault with pend := some (cause, s.rtc, if on 4 then s.keeper else 0), helper := false } }
    let s3 := if on 11 then s2.kvClear else s2
    let s4 := if on 8 then { s3 with fab := { s3.fab with key := none } } else s3
    (if on 1 then s4.reqSafeOff 8 0x0F08 else s4).sessCloseAll 5

/-- Destruction is declared while the module works (R430, R431). -/
def State.destroy (s : State) (cause : Nat) : State := s.destroyWith s.runs cause

/-- A D0 cold start (R430, R434). -/
def State.kvColdStart (s : State) : State :=
  if s.is KV_CFG.COLD_KILL then s.destroyWith (fun _ => false) 3 else (s.put KV_STAT.WATCH_GAP 1).log 0x0F09 WARNING

/-- The key parts are overwritten with zeros, and the events of a destruction are written (R431, R432). -/
def State.kvWipe (s : State) : State :=
  let s1 := (List.range 64).foldl
    (fun (t : State) k => if (t.slot k).key.isSome then t.setSlot k { t.slot k with key := none } else t) s
  match s1.vault.pend with
  | some (cause, utc, stamp) =>
    ({ s1 with vault := { s1.vault with pend := none } }.logAt stamp utc 0x0F08 SAFETY [cause]).logAt stamp utc 0x0F0C LEGAL []
  | none => s1

/-- A read of the PUF SRAM is accepted (R414): every block has at most 18 errors, the code's limit, and the check value matches the one stored with the
helper data, which destruction has made zeros. -/
def State.pufAccepts (s : State) (r : PufRead) : Bool := s.vault.helper && r.check && r.errs.all fun e => decide (e ≤ 18)

/-- The first of at most three attempts that is accepted (R414): the largest number of errors in a block, and the attempts used. -/
def State.pufRegen (s : State) (puf : List PufRead) : Option (Nat × Nat) :=
  ((puf.take 3).findIdx? s.pufAccepts).map fun i => ((puf.getD i ⟨[], false⟩).errs.foldl max 0, i + 1)

/-- The slots that a start finds `BAD` (R419): those whose check fails, and those that were, for only ERASE and a new write repair one. -/
def State.slotsCheck (s : State) (bad : List Nat) : State :=
  let l := (List.range 64).filter fun k => (s.slot k).used && ((s.slot k).bad || bad.contains k)
  l.foldl (fun (t : State) k => (t.setSlot k { t.slot k with bad := false }).slotBad k) s

/-- `RES_OK` at a start of D11 follows the reservoir; one that is low is reported (R430, R436). -/
def State.resShow (s : State) : State :=
  if 4500 ≤ s.vault.resMv then s.put KV_STAT.RES_OK 1 else (s.put KV_STAT.RES_OK 0).log 0x0F0A WARNING

/-- A start of D11 (R414, R415, R416, R419, R431): the reads of the PUF SRAM, and the slots whose check fails. -/
def State.kvStart (s : State) (puf : List PufRead) (bad : List Nat) : State :=
  if s.is KV_STAT.DESTROYED then s.kvClear.kvWipe
  else match s.pufRegen puf with
  | none =>
    ((s.kvClear.put KV_STAT.PUF_FAIL 1).put KV_PUF.ATTEMPTS 3).log 0x0F02 FAULT
  | some (e, n) =>
    let s1 := (((s.kvClear.put KV_STAT.PUF_OK 1).put KV_STAT.PUF_FAIL 0).put KV_PUF.ERR_BITS e).put KV_PUF.ATTEMPTS n
    let s2 := (s1.put KV_PUF.ERR_MAX (max (s1.get KV_PUF.ERR_MAX) e)).log 0x0F01 INFO [e, n]
    let s3 := if s2.get KV_CFG.PUF_WARN ≤ e then s2.log 0x0F03 WARNING [e] else s2
    let s4 := { s3.slotsCheck bad with kv := { s3.kv with wrap := some wrapKey } }
    (s4.setReady 12).kvShow

/-- The copy of the site fabric key in D8 (R200, R423): none while the vault cannot use KS05 (R415, R419). -/
def State.fabKeyCopy (s : State) : State :=
  if s.runs 8 then { s with fab := { s.fab with key := if (s.slot 5).bad || s.is KV_STAT.DESTROYED || !s.is KV_STAT.PUF_OK then none else (s.slot 5).key } } else s

end Sys2Proof.Machine
end

