-- ==== Sys2Proof/Machine/Vehicle.lean ====
section
/-! DEFINITION. What each Vehicle Session command does (spec/13_vehicle_sessions.md). A command whose condition the manual states
and the state or its measurement does not meet leaves the state unchanged. -/

namespace Sys2Proof.Machine

open R

/-- The Vehicle Session serves a connector: D9 runs, and D3, on which it depends (R55), DISPENSER is in the role set, the connector is in `DISP_CONN`. -/
def State.vsRuns (s : State) (c : Nat) : Bool := s.runs 9 && s.runs 3 && s.role 2 && decide (c < 2) && s.connUsed c

/-- The state of a connector. -/
def State.cst (s : State) (c : Nat) : Nat := s.get VS_CONN_STAT.STATE c

/-- The connector's measurement point. -/
def State.connPt (s : State) (c : Nat) : Nat := s.get VS_CONN_CFG.PT c

/-- V at the connector's point in mV. -/
def State.connV (s : State) (c : Nat) : Nat := (s.geti MET_PT_V.V (s.connPt c)).natAbs

/-- V at the point and V_GRP differ by no more than 20 V. -/
def State.vFollows (s : State) (c : Nat) : Bool :=
  decide (((s.connV c : Int) - 100 * (s.feedV c : Int)).natAbs ≤ 20000)

/-- The state of the feeding group (`PE_GRP_STAT`). -/
def State.feedState (s : State) (c : Nat) : Nat :=
  if s.localFeed c then s.get PE_GRP_STAT.STATE (s.feedGrp c) else (s.conn c).aState

/-- From CLOSE onward, while the connector can still stop fast. -/
def State.closing (s : State) (c : Nat) : Bool := decide (3 ≤ s.cst c) && decide (s.cst c ≤ 6) || s.ramping c

/-- The insulation monitor reports a fault or has gone unheard, from CLOSE onward (R324). -/
def State.isoFault (s : State) (c : Nat) : Bool :=
  let x := s.conn c
  s.closing c && (x.isoLate || x.iso && decide (s.get VS_CONN_ISO.R_ISO c < s.get VS_IMD_TH.R_FAULT c))

/-- No allowance frame has been heard for 4 half-cycles in CLOSE to ENERGY under DISPENSER alone (R330). -/
def State.feedLost (s : State) (c : Nat) : Bool :=
  !s.localFeed c && decide (3 ≤ s.cst c) && decide (s.cst c ≤ 6) && decide (4 ≤ (s.conn c).age)

/-- The end reason of the fast-stop cause that holds and is listed first in R319; the sequence timeout stands among them where the
command that sees it says so. -/
def State.fastWith (s : State) (c : Nat) (seqTimeout : Bool) : Option Nat :=
  if s.get VS_CONN_STAT.IL c ≠ 1 then some 3
  else if s.get VS_CONN_STAT.PROX c ≠ 2 then some 4
  else if s.isoFault c then some 5
  else if s.feedState c = 3 then some 6
  else if s.is SAF_STAT.ACTIVE then some 7
  else if ¬ (s.conn c).tls ∧ 2 ≤ s.cst c then some 8
  else if seqTimeout then some 9
  else if (s.conn c).ct then some 6
  else if s.feedLost c then some 0xF
  else none

/-- The fast-stop cause that the state shows. -/
def State.fastCause (s : State) (c : Nat) : Option Nat := s.fastWith c false

/-- A stop for a normal-stop cause; where a fast-stop cause holds too, the stop is fast (R319, R335). -/
def State.stopConn (s : State) (c code : Nat) : State :=
  match s.fastCause c with
  | some f => s.fastStop c f
  | none => s.normalStop c code

/-- A connector stops fast where a cause of R319 holds. -/
def State.fastEval (s : State) (c : Nat) : State :=
  match s.fastCause c with
  | some f => s.fastStop c f
  | none => s

/-- INTERLOCK_OPEN (R317): the voltage of ILn_SNS in mV and the samples in a row with that reading; an interlock that is not
closed is a fast-stop cause. -/
def execInterlockOpen (c mv n : Nat) (s : State) : Host.Outcome State Fault Refusal :=
  .next <|
    if s.vsRuns c then
      let r := if 10000 ≤ mv then (if 3 ≤ n then some 1 else none) else if mv ≤ 2000 then (if 3 ≤ n then some 0 else none)
        else if 10 ≤ n then some 2 else none
      match r with
      | some v => (s.put VS_CONN_STAT.IL v c).fastEval c
      | none => s
    else s

/-- The band of R318 for a voltage of PROXn in mV. -/
def State.proxBand (s : State) (c mv : Nat) : Nat :=
  if s.get VS_PROX_TH.TH_NC c * 100 < mv then 0
  else if s.get VS_PROX_TH.TH_REL c * 100 ≤ mv then 1
  else if s.get VS_PROX_TH.TH_FLT c * 100 ≤ mv then 2 else 3

/-- The connector's opening is over (R320): ENDED, or FAULT where the contactor check has failed, which recovers by `CLR` after unplug (R336;
DEDUCED, log 129). -/
def State.connOver (s : State) (c : Nat) : State := if (s.conn c).ct then s.connFault c else s.connState c 0xA

/-- PROXIMITY_CHANGE (R318, R320, R334): the voltage of PROXn and the ms within its band. The first reading after a reset of D9
puts a connected connector into ENDED (a reading of Fault is not connected, R318). A change while the welding check runs abandons it (R335). -/
def execProximityChange (c mv ms : Nat) (s : State) : Host.Outcome State Fault Refusal :=
  .next <|
    if s.vsRuns c && decide (10 ≤ ms) then
      let b := s.proxBand c mv
      let x := s.conn c
      let s1 := (s.put VS_CONN_STAT.PROX b c).setConn c { x with known := true }
      let s2 := if !x.known && (b == 1 || b == 2) && s1.cst c == 0 then s1.connState c 0xA else s1
      let st := s2.cst c
      if b ≠ 2 ∧ st = 1 then (s2.connState c 0).setConn c { s2.conn c with link := false, tls := false }
      else if b = 0 ∧ st = 9 then (s2.limitsZero c).connOver c
      else s2.fastEval c
    else s

/-- What a new session starts from: no identifier, no authorisation, no mode. -/
def State.connClear (s : State) (c : Nat) : State :=
  let s1 := ((((s.put VS_CONN_STAT.MODE 0 c).put VS_CONN_STAT.DIR 0 c).put VS_CONN_STAT.ID 0 c).put VS_CONN_AUTH.AUTH 0 c).put
    VS_CONN_STAT.IMD_WARN 0 c
  let s2 := s1.each 8 fun w t => t.put VS_CONN_ID.ID 0 c w
  let s3 := ((s2.put VS_CONN_EV.I_EV 0 c).put VS_CONN_EV.V_EV 0 c).setConn c {
    known := true, iso := (s.conn c).iso, heard := (s.conn c).heard, age := (s.conn c).age, aState := (s.conn c).aState, aLapsed := (s.conn c).aLapsed
    aExp := (s.conn c).aExp, aCap := (s.conn c).aCap, aP := (s.conn c).aP, aV := (s.conn c).aV, aI := (s.conn c).aI
    aRev := (s.conn c).aRev }
  s3.comply c

/-- PLUG_IN (R320): proximity latched and interlock closed for the given ms. -/
def execPlugIn (c ms : Nat) (s : State) : Host.Outcome State Fault Refusal :=
  .next <|
    if s.vsRuns c && s.cst c == 0 && decide (100 ≤ ms) && s.get VS_CONN_STAT.PROX c == 2 && s.get VS_CONN_STAT.IL c == 1 then
      let s1 := s.connClear c
      ((s1.setConn c { s1.conn c with link := true }).connState c 1).log 0x0A01 INFO [c]
    else s

/-- A TLS connection that the module accepts (R315): version 1.3, one of the two suites, one of the three curves. -/
def tlsAccepted (h : TlsHello) : Bool :=
  h.v13 && h.suites.any (fun x => x == .aes128GcmSha256 || x == .aes256GcmSha384) && h.curves.any fun x => x == .p521 || x == .p384 || x == .p256

/-- TLS_SESSION_ESTABLISHED (R315, R320): what the module does not accept establishes no session. -/
def execTlsSessionEstablished (c : TlsHello) (s : State) : Host.Outcome State Fault Refusal :=
  .next <|
    let n := c.conn
    if s.vsRuns n && s.cst n == 1 then
      if s.get VS_CONN_STAT.PROX n ≠ 2 then s.connState n 0
      else if tlsAccepted c then (s.setConn n { s.conn n with tls := true }).connState n 2
      else s
    else s

/-- PLUG_TIMEOUT (R320): the ms in PLUGGED without a TLS session. -/
def execPlugTimeout (c ms : Nat) (s : State) : Host.Outcome State Fault Refusal :=
  .next <|
    if s.vsRuns c && s.cst c == 1 && decide (20000 ≤ ms) then
      ((s.connState c 0xA).connEnd c 9).put VS_CONN_STAT.FAST 0 c
    else s

/-! ### The messages of R314, numbered in the order of its table -/

/-- An answer to the vehicle: the message, 0 for success or 1 for a failure response, and its content. -/
def State.answer (s : State) (c msg : Nat) (ok : Bool) (data : List Nat) : State :=
  if (s.conn c).tls then s.emit .v2g c (msg :: (if ok then 0 else 1) :: data) else s

/-- A request reaches the Vehicle Session: in ENDED and FAULT every one is answered with a failure response (R320). -/
def State.request (s : State) (c msg : Nat) (g : State → State) : State :=
  if s.vsRuns c && (s.conn c).tls then (if 0xA ≤ s.cst c then s.answer c msg false [] else g s) else s

/-- SUPPORTED_APP_PROTOCOL (R314). -/
def execSupportedAppProtocol (c : Nat) (s : State) : Host.Outcome State Fault Refusal :=
  .next <| s.request c 0 fun t => t.answer c 0 true []

/-- SESSION_SETUP (R314): the session identifier. -/
def execSessionSetup (c sid : Nat) (s : State) : Host.Outcome State Fault Refusal :=
  .next <| s.request c 1 fun t => (t.setConn c { t.conn c with sid := sid % 2 ^ 32 }).answer c 1 true (leBytes 4 sid)

/-- The identification methods offered: EIM, PnC (R331). -/
def State.offered (s : State) (c : Nat) : List Nat := [s.get VS_CONN_CFG.EIM_EN c, s.get VS_CONN_CFG.PNC_EN c]

/-- AUTHORIZATION_SETUP (R314, R331). -/
def execAuthorizationSetup (c : Nat) (s : State) : Host.Outcome State Fault Refusal :=
  .next <| s.request c 2 fun t => t.answer c 2 true (t.offered c)

/-- The identifier of up to 32 bytes is placed in `VS_CONN_ID` and awaits authorisation (R331). -/
def State.identify (s0 : State) (c : Nat) (pnc : Bool) (ident : List Nat) : State :=
  let s := s0.setConn c { s0.conn c with ident := ident.take 32 }
  let s1 := s.each 8 fun w t => t.put VS_CONN_ID.ID (bytesAt ident (4 * w) 4) c w
  (s1.put VS_CONN_STAT.ID (if pnc then 2 else 1) c).log 0x0A04 NOTICE [c, if pnc then 1 else 0]

/-- The slots of the trust anchors for contract certificates (R316). -/
def State.rootSlots (s : State) : List Nat := (List.range (s.get VS_SECC.ROOT_N)).map fun i => s.get VS_SECC.ROOT_FIRST + i

/-- The anchors that a chain is held against are checked (R419). -/
def State.rootCheck (s : State) (bad : List Nat) : State := (s.rootSlots.filter bad.contains).foldl (fun (t : State) k => t.slotBad k) s

/-- A chain verifies to a sound trust anchor of R316. -/
def State.chainSound (s : State) (a : Option Nat) : Bool :=
  match a with
  | some k => s.rootSlots.contains k && s.slotAnchor k
  | none => false

/-- AUTHORIZATION (R331): the method, the identifier of up to 32 bytes, and the contract certificate's chain, which must verify to
a sound trust anchor of R316 and be valid at the RTC. The content of the answer is 0 finished, 1 ongoing. -/
def execAuthorization (c : Nat) (pnc : Bool) (ident : List Nat) (chainOk : ChainObs) (s : State) : Host.Outcome State Fault Refusal :=
  .next <| s.request c 3 fun t =>
    if t.cst c ≠ 2 then t.answer c 3 false []
    else if t.get VS_CONN_STAT.ID c ≠ 0 then t.answer c 3 true [if t.get VS_CONN_AUTH.AUTH c = 1 then 0 else 1]
    else if pnc then
      let u := t.rootCheck chainOk.bad
      if u.is VS_CONN_CFG.PNC_EN c && u.chainSound chainOk.anchor && u.is BIL_STAT.CLK_VALID then
        (u.identify c true ident).answer c 3 true [1]
      else u.answer c 3 false [u.get VS_CONN_CFG.EIM_EN c]
    else if t.is VS_CONN_CFG.EIM_EN c then (t.identify c false ident).answer c 3 true [1]
    else t.answer c 3 false []

/-- SERVICE_DISCOVERY (R314): DC, and DC_BPT where it is offered. -/
def execServiceDiscovery (c : Nat) (s : State) : Host.Outcome State Fault Refusal :=
  .next <| s.request c 4 fun t => t.answer c 4 true (if t.is VS_CONN_CFG.BPT_EN c then [0, 1] else [0])

/-- SERVICE_DETAIL (R314): the control modes, Scheduled and Dynamic. -/
def execServiceDetail (c : Nat) (s : State) : Host.Outcome State Fault Refusal :=
  .next <| s.request c 5 fun t => t.answer c 5 true (if t.is VS_CONN_CFG.DYN_EN c then [1, 2] else [1])

/-- SERVICE_SELECTION (R314): the service, 0 DC or 1 DC_BPT, and the control mode, 1 Scheduled or 2 Dynamic. -/
def execServiceSelection (c service mode : Nat) (s : State) : Host.Outcome State Fault Refusal :=
  .next <| s.request c 6 fun t =>
    if (service == 0 || (service == 1 && t.is VS_CONN_CFG.BPT_EN c)) && (mode == 1 || (mode == 2 && t.is VS_CONN_CFG.DYN_EN c)) then
      ((t.setConn c { t.conn c with service := service }).put VS_CONN_STAT.MODE mode c).answer c 6 true []
    else t.answer c 6 false []

/-! ### Offers (R326 to R328) -/

/-- The offered current of R326 in A. -/
def State.iOff (s : State) (c : Nat) : Nat := min (s.iEnf c) (s.get VS_CONN_ALLOW.I_THASK c)

/-- The offered power of R326 in kW. -/
def State.pOff (s : State) (c : Nat) : Nat :=
  let p := s.iOff c * s.feedV c / 10000
  if s.is VS_CONN_STAT.DIR c then p else min p (s.feedP c)

/-- I_EV of R327 in A: the vehicle's target, or in Dynamic mode the module's: the lower of I_off and the vehicle's maximum current and power
(R326). -/
def State.evTarget (s : State) (c : Nat) : Int :=
  let x := s.conn c
  if s.get VS_CONN_STAT.MODE c = 2 then
    let v := s.feedV c
    let byP := fun (i p : Nat) => if v = 0 then i else min i (p * 10000 / v)
    if s.is VS_CONN_STAT.DIR c then -(min (s.iOff c) (byP x.iDisMax x.pDisMax) : Nat) else (min (s.iOff c) (byP x.iMax x.pMax) : Nat)
  else x.iTarget

/-- The direction a connector serves: discharging under DC_BPT where the target is negative, or in Dynamic mode where
`P_DIS_REQ` is not 0 (R326). -/
def State.evDir (s : State) (c : Nat) : Bool :=
  (s.conn c).service == 1 &&
    (if s.get VS_CONN_STAT.MODE c = 2 then s.get VS_CONN_PDIS.P_DIS_REQ c != 0 else decide ((s.conn c).iTarget < 0))

/-- The offer is computed and shown. -/
def State.offer (s : State) (c : Nat) : State :=
  let s1 := if s.cst c = 6 then s.putb VS_CONN_STAT.DIR (s.evDir c) c else s
  let s2 := ((s1.put VS_CONN_ALLOW.I_ENF (s1.iEnf c) c).put VS_CONN_OFFER.I_OFF (s1.iOff c) c).putMax VS_CONN_OFFER.P_OFF (s1.pOff c) c
  let s3 := if s2.cst c = 6 then s2.putSat VS_CONN_EV.I_EV (s2.evTarget c) c else s2
  s3.comply c

/-- The content of an answer that carries the offer: current, power, maximum voltage, the insulation warning (R324, R326). -/
def State.offerData (s : State) (c : Nat) : List Nat :=
  [s.get VS_CONN_OFFER.I_OFF c, s.get VS_CONN_OFFER.P_OFF c, s.get VS_CONN_RATING.V_CONN_MAX c, s.get VS_CONN_STAT.IMD_WARN c]

/-- DC_CHARGE_PARAMETER_DISCOVERY (R324, R326): the vehicle's maximum and minimum voltage in V, its maximum current in A and
power in kW, its maximum discharge current in A and power in kW. -/
def execDcChargeParameterDiscovery (c vMax vMin iMax pMax : Nat) (iDisMax : EvDis) (s : State) : Host.Outcome State Fault Refusal :=
  .next <| s.request c 7 fun t =>
    let t1 := (t.setConn c { t.conn c with
      vMax := vMax, vMin := vMin, iMax := iMax, pMax := pMax, iDisMax := iDisMax.i, pDisMax := iDisMax.p }).offer c
    t1.answer c 7 true (t1.offerData c)

/-- SCHEDULE_EXCHANGE (R326). -/
def execScheduleExchange (c : Nat) (s : State) : Host.Outcome State Fault Refusal :=
  .next <| s.request c 8 fun t => let t1 := t.offer c; t1.answer c 8 true (t1.offerData c)

/-- The contactors may be closed (R321, R50). -/
def State.mayClose (s : State) (c : Nat) : Bool :=
  let pos := s.get VS_CONN_CFG.LS_POS c
  let neg := s.get VS_CONN_CFG.LS_NEG c
  decide (pos < 16) && decide (neg < 16) && decide (s.feedV c ≤ 600) && decide (s.connV c ≤ 60000) && s.is MET_PT_STAT.VALID (s.connPt c) &&
    (s.feedState c == 0 || s.feedState c == 1) && s.is PWR_HOLDUP.HOLDUP_OK &&
    (if s.localFeed c then decide (s.get VS_CONN_FEED.VLOOP c < 64) else (s.conn c).heard && decide ((s.conn c).age ≤ 2))

/-- DC_CABLE_CHECK (R320, R324): in SETUP DC− is closed where R321 allows; the content of the answer is 0 once the check has
finished, 1 before. -/
def execDcCableCheck (c : Nat) (s : State) : Host.Outcome State Fault Refusal :=
  .next <| s.request c 9 fun t =>
    let t1 := if t.cst c = 2 then
        match t.fastCause c with
        | some f => t.fastStop c f
        | none => if t.mayClose c then (t.connState c 3).lswCommand (t.get VS_CONN_CFG.LS_NEG c) true else t
      else t
    t1.answer c 9 (t1.cst c != 0xA) [if (t1.conn c).ccDone then 0 else 1]

/-- DC_PLUS_CLOSE (R320, R50): the ms since DC− was closed; nothing is closed while `HOLDUP_OK` is 0. -/
def execDcPlusClose (c ms : Nat) (s : State) : Host.Outcome State Fault Refusal :=
  .next <|
    if s.vsRuns c && s.cst c == 3 && !(s.conn c).plus && decide (20 ≤ ms) && s.is PWR_HOLDUP.HOLDUP_OK then
      (s.setConn c { s.conn c with plus := true }).lswCommand (s.get VS_CONN_CFG.LS_POS c) true
    else s

/-- V_CC of R324 in V. -/
def State.vCc (s : State) (c : Nat) : Nat := min (s.get VS_CONN_RATING.V_CONN_MAX c) (s.conn c).vMax

/-- `I_PRE` in mA. -/
def State.iPre (s : State) (c : Nat) : Int := 1000 * s.get VS_CONN_BPT.I_PRE c

/-- The group is enabled, or disabled: here, or by the run flag of the next need frame (R330). -/
def State.feedEnable (s : State) (c : Nat) (on : Bool) : State :=
  if s.localFeed c then (if on then s.groupEnable (s.feedGrp c) else s.groupDisable (s.feedGrp c)) else s

/-- CABLE_CHECK_START (R320, R324): the ms since DC+ was closed. -/
def execCableCheckStart (c ms : Nat) (s : State) : Host.Outcome State Fault Refusal :=
  .next <|
    if s.vsRuns c && s.cst c == 3 && (s.conn c).plus && decide (50 ≤ ms) then
      ((((s.connState c 4).setConn c { s.conn c with isoGood := false })).connDrive c (1000 * s.vCc c) (s.iPre c) 0).feedEnable c true
    else s

/-- CABLE_CHECK_FINISH (R324): the ms for which V at the point has been within `PRE_TOL` of V_CC, and the ms since the last
insulation value at or above `R_WARN`, which has come in that time. -/
def execCableCheckFinish (c ms isoMs : Nat) (s : State) : Host.Outcome State Fault Refusal :=
  .next <|
    if s.vsRuns c && s.cst c == 4 && decide (1000 ≤ ms) && decide (isoMs ≤ ms) &&
        decide (((s.connV c : Int) - 1000 * (s.vCc c : Int)).natAbs ≤ 1000 * s.get VS_CONN_SEQ.PRE_TOL c) &&
        (s.conn c).isoGood then
      s.setConn c { s.conn c with ccDone := true }
    else s

/-- DC_PRE_CHARGE (R320, R325): the vehicle's target voltage in V; answered with V at the point in mV. -/
def execDcPreCharge (c v : Nat) (s : State) : Host.Outcome State Fault Refusal :=
  .next <| s.request c 10 fun t =>
    let go := (t.cst c == 4 && (t.conn c).ccDone) || t.cst c == 5
    let t1 := if go then
        ((t.setConn c { t.conn c with vTarget := v }).put VS_CONN_EV.V_EV v c).connState c 5 |>.connDrive c (1000 * v) (t.iPre c) (-t.iPre c)
      else t
    t1.answer c 10 go [t1.connV c]

/-- POWER_DELIVERY_START (R320, R331, R332): Billing opens the session, with the SHA-256 of the identifier, or refuses; while Standby is in
force it ends, and the limits start from 0. The row stands before that of a fast stop, which acts on the state it leads to. -/
def execPowerDeliveryStart (c : Nat) (s : State) : Host.Outcome State Fault Refusal :=
  .next <| s.request c 11 fun t =>
    if t.cst c = 5 then
      let r := t.billOpen (t.connPt c) c (t.conn c).sid (beBytes 32 (sha256 (t.conn c).ident).toNat) t.keeper
      if r.1 then
        let t1 := ((r.2.setConn c { r.2.conn c with bill := true, standby := false, dir := false, viaZero := false }).connState c 6).inc VS_CONN_CNT.SESS c
        ((t1.log 0x0A03 NOTICE [c, if t1.get VS_CONN_STAT.MODE c = 2 then 1 else 0, (t1.conn c).service]).answer c 11 true []).fastEval c
      else ((((r.2.connState c 7).connEnd c 0xB).put VS_CONN_STAT.FAST 0 c).answer c 11 false []).fastEval c
    else if t.cst c = 6 then (t.setConn c { t.conn c with standby := false, viaZero := (t.conn c).viaZero || (t.conn c).standby }).answer c 11 true []
    else t.answer c 11 false []

/-- POWER_DELIVERY_STOP (R319, R320): in SETUP it is answered with a failure response. -/
def execPowerDeliveryStop (c : Nat) (s : State) : Host.Outcome State Fault Refusal :=
  .next <| s.request c 11 fun t => (t.stopConn c 1).answer c 11 (t.cst c != 2) []

/-- STANDBY (R320). -/
def execStandby (c : Nat) (s : State) : Host.Outcome State Fault Refusal :=
  .next <| s.request c 11 fun t =>
    if t.cst c = 6 then (t.setConn c { t.conn c with standby := true }).answer c 11 true [] else t.answer c 11 false []

/-- SCHEDULE_RENEGOTIATION (R314): a PowerDelivery request with this ChargeProgress is answered with success in ENERGY; it changes
nothing else, the renegotiation itself being the schedule exchange that follows. -/
def execScheduleRenegotiation (c : Nat) (s : State) : Host.Outcome State Fault Refusal :=
  .next <| s.request c 11 fun t => t.answer c 11 (t.cst c == 6) []

/-- DC_CHARGE_LOOP (R326, R327): the vehicle's target voltage in V and current in A, negative for discharging, and its limits as in
the parameter discovery. -/
def execDcChargeLoop (c v : Nat) (i : Int) (vMax vMin iMax pMax : Nat) (iDisMax : EvDis) (s : State) : Host.Outcome State Fault Refusal :=
  .next <| s.request c 12 fun t =>
    if t.cst c = 6 then
      let t1 := (t.setConn c { t.conn c with
        vTarget := v, iTarget := i, vMax := vMax, vMin := vMin, iMax := iMax, pMax := pMax, iDisMax := iDisMax.i, pDisMax := iDisMax.p }).put VS_CONN_EV.V_EV v c
      let t2 := t1.offer c
      t2.answer c 12 true (t2.offerData c)
    else t.answer c 12 false []

/-- DC_WELDING_DETECTION (R323): answered with V at the point in mV. -/
def execDcWeldingDetection (c : Nat) (s : State) : Host.Outcome State Fault Refusal :=
  .next <| s.request c 13 fun t => t.answer c 13 true [t.connV c]

/-- SESSION_STOP (R319, R320): answered with success. -/
def execSessionStop (c : Nat) (s : State) : Host.Outcome State Fault Refusal :=
  .next <| s.request c 14 fun t => (t.stopConn c 1).answer c 14 true []

/-! ### Stops and sequencing -/

/-- FAST_STOP (R319, R335): the causes of R319 as the state shows them, or a sequence timeout of the standard. -/
def execFastStop (c : Nat) (seqTimeout : Bool) (s : State) : Host.Outcome State Fault Refusal :=
  .next <|
    if s.vsRuns c then
      match s.fastWith c seqTimeout with
      | some f => s.fastStop c f
      | none => s
    else s

/-- SETUP ends without an authorisation (R320); its row stands after that of a fast-stop cause. -/
def State.authEnd (s : State) (c : Nat) : State :=
  match s.fastCause c with
  | some f => s.fastStop c f
  | none => (((s.connState c 0xA).connEnd c 0xA).put VS_CONN_STAT.FAST 0 c).answer c 3 false []

/-- A write of `AUTH` (R331): it has effect in SETUP only. -/
def State.authWrite (s : State) (c v : Nat) : State :=
  if s.vsRuns c && s.cst c == 2 then
    let s1 := s.put VS_CONN_AUTH.AUTH v c
    if v = 2 then s1.authEnd c else s1
  else s

/-- AUTH_WRITE (R331). -/
def execAuthWrite (sess c v : Nat) (s : State) : Host.Outcome State Fault Refusal :=
  .next <| s.guarded sess VS_CONN_AUTH.AUTH fun t => t.authWrite c (v % 4)

/-- AUTH_TIMEOUT (R320, R335): the seconds without an authorisation. A write of the same ms is ignored. -/
def execAuthTimeout (c : Nat) (secs : AuthWait) (s : State) : Host.Outcome State Fault Refusal :=
  .next <|
    if s.vsRuns c && s.cst c == 2 && (s.get VS_CONN_AUTH.AUTH c != 1 || secs.wrote) && decide (s.get VS_SECC.AUTH_TMO ≤ secs.secs) then
      (s.when secs.wrote fun t => t.put VS_CONN_AUTH.AUTH 0 c).authEnd c
    else s

/-- PRE_TIMEOUT (R320): the ms since PRECHARGE was entered. -/
def execPreTimeout (c ms : Nat) (s : State) : Host.Outcome State Fault Refusal :=
  .next <|
    if s.vsRuns c && s.cst c == 5 && decide (s.get VS_CONN_TMO.PRE_TMO c ≤ ms) then
      ((s.connState c 7).connEnd c 9).put VS_CONN_STAT.FAST 0 c
    else s

/-- Both limits of a connector are 0. -/
def State.limitsAre0 (s : State) (c : Nat) : Bool := (s.conn c).hi == 0 && (s.conn c).lo == 0

/-- |I| at the point is at or below `I_OPEN`. -/
def State.decayed (s : State) (c : Nat) : Bool :=
  decide ((s.geti MET_PT_I.I (s.connPt c)).natAbs ≤ 1000 * s.get VS_CONN_SEQ.I_OPEN c)

/-- CURRENT_DECAYED (R320, R322, R332): the ms for which |I| has been at or below `I_OPEN` with limits at 0. The contactors
belong to the Safe-Off sequencer while it is active (R335). -/
def execCurrentDecayed (c ms : Nat) (s : State) : Host.Outcome State Fault Refusal :=
  .next <|
    if s.vsRuns c && s.cst c == 7 && decide (10 ≤ ms) && s.limitsAre0 c && s.decayed c then
      let s1 := if (s.conn c).bill then s.billEnd (s.connPt c) (s.get VS_CONN_STAT.END c) s.keeper else s
      let s2 := ((s1.setConn c { s1.conn c with bill := false, plus := false }).connState c 8).feedEnable c false
      if s2.is SAF_STAT.ACTIVE then s2 else s2.lswCommand (s2.get VS_CONN_CFG.LS_POS c) false
    else s

/-- DECAY_TIMEOUT (R320): the ms since the limits reached 0. The contactors stay as they are, and Safe-Off is requested. -/
def execDecayTimeout (c ms : Nat) (s : State) : Host.Outcome State Fault Refusal :=
  .next <|
    if s.vsRuns c && s.cst c == 7 && s.limitsAre0 c && decide (s.get VS_CONN_TMO.DECAY_T c ≤ ms) then
      ((s.connFault c).log 0x0A08 TRIP [c]).reqSafeOff 3 0x0A08
    else s

/-- DC_MINUS_OPEN (R322): the ms since DC+ was opened. -/
def execDcMinusOpen (c ms : Nat) (s : State) : Host.Outcome State Fault Refusal :=
  .next <|
    if s.vsRuns c && s.cst c == 8 && decide (20 ≤ ms) && s.decayed c && !s.is SAF_STAT.ACTIVE then
      s.lswCommand (s.get VS_CONN_CFG.LS_NEG c) false
    else s

/-- DC− is open. -/
def State.minusOpen (s : State) (c : Nat) : Bool :=
  let n := s.get VS_CONN_CFG.LS_NEG c
  decide (16 ≤ n) || !bit s.pins.ls n

/-- WELD_CHECK (R320, R323): the ms since DC− was opened. The check starts with `WELD_EN` = 1 and a feeding group that can carry
reverse current, whose reverse ceiling is above 0 (DEDUCED, log 138); else the connector ends. `R_TGT` becomes half of V_GRP. -/
def execWeldCheck (c ms : Nat) (s : State) : Host.Outcome State Fault Refusal :=
  .next <|
    if s.vsRuns c && s.cst c == 8 && s.minusOpen c && decide (50 ≤ ms) then
      if s.is VS_CONN_CFG.WELD_EN c && s.feedRev c != 0 && s.get VS_CONN_STAT.PROX c != 0 then
        (s.connState c 9).connDrive c (50 * s.feedV c) (s.iPre c) (-s.iPre c)
      else s.connOver c
    else s

/-- WELD_CHECK_COMPLETE (R323): the ms since the check began, and whether V at the point has followed V_GRP throughout. -/
def execWeldCheckComplete (c ms : Nat) (followed : Bool) (s : State) : Host.Outcome State Fault Refusal :=
  .next <|
    if s.vsRuns c && s.cst c == 9 && decide (200 ≤ ms) then
      let s1 := s.limitsZero c
      if followed then (s1.connFault c).log 0x0A09 FAULT [c] else s1.connOver c
    else s

/-- UNPLUG (R320): the ms of "not connected". -/
def execUnplug (c ms : Nat) (s : State) : Host.Outcome State Fault Refusal :=
  .next <|
    if s.vsRuns c && s.cst c == 0xA && s.get VS_CONN_STAT.PROX c == 0 && decide (1000 ≤ ms) then
      ((s.setConn c { s.conn c with link := false, tls := false }).connState c 0).log 0x0A02 INFO [c, s.get VS_CONN_STAT.END c]
    else s

/-- A write of 1 to `STOP` (R319, R332). -/
def State.stopWrite (s : State) (c : Nat) : State := if s.vsRuns c then s.stopConn c 2 else s

/-- STOP_COMMAND (R332). -/
def execStopCommand (sess c : Nat) (s : State) : Host.Outcome State Fault Refusal :=
  .next <| s.guarded sess VS_CONN_CMD.STOP fun t => t.stopWrite c

/-- A write of 1 to `CLR` (R320). -/
def State.connClr (s : State) (c : Nat) : State :=
  if s.vsRuns c && s.cst c == 0xB && s.get VS_CONN_STAT.PROX c == 0 then
    (s.setConn c { s.conn c with link := false, tls := false }).connState c 0
  else s

/-- FAULT_CLEAR (R320). -/
def execFaultClear (sess c : Nat) (s : State) : Host.Outcome State Fault Refusal :=
  .next <| s.guarded sess VS_CONN_CMD.CLR fun t => t.connClr c

/-- LAUNCHED_STOP (R333). -/
def execLaunchedStop (s : State) : Host.Outcome State Fault Refusal :=
  .next <| s.laRun 0x018 1 fun a t => t.eachBit 2 (byteAt a.body 0) fun c u => if u.vsRuns c then u.stopConn c 0xC else u

/-- OFFER_UPDATE (R326, R328, R349): twice per half-cycle; an enforcement of Thermal that the Vehicle Session sees is logged, and
under DISPENSER alone a fall in the cap binds the limits at once. -/
def execOfferUpdate (c : Nat) (s : State) : Host.Outcome State Fault Refusal :=
  .next <|
    if s.vsRuns c then
      let enf := s.zoneEnforced c
      let x := s.conn c
      let s1 := if enf && !x.enf then (s.put VS_CONN_STAT.ENF_SEEN 1 c).log 0x0A05 WARNING [c] else s
      let s2 := (s1.setConn c { x with enf := enf }).offer c
      if !s2.localFeed c && s2.cst c == 6 && decide (s2.zoneEnf c < 0xFFFF) then
        let lim : Int := 1000 * (s2.zoneEnf c)
        s2.connDrive c x.rTgt (min x.hi lim) (max x.lo (-lim))
      else s2
    else s

/-- A value moved towards a goal by at most a step. -/
def moveTo (v goal step : Int) : Int := if v < goal then min goal (v + step) else max goal (v - step)

/-- What `U_MAX` moves towards in charging (R327), in mA: min(I_EV, I_enf), and not below the 0 of `U_MIN` (DEDUCED, log 138). -/
def State.chargeGoal (s : State) (c : Nat) : Int := 1000 * max 0 (min (s.geti VS_CONN_EV.I_EV c) (s.iEnf c))

/-- What `U_MIN` moves away to in discharging (R327), in mA: min(|I_EV|, I_enf). -/
def State.dischargeGoal (s : State) (c : Nat) : Int := 1000 * (min (s.geti VS_CONN_EV.I_EV c).natAbs (s.iEnf c) : Nat)

/-- LIMIT_RAMP_STEP (R327): once per ms. A change of direction first takes both limits to 0, and so does the end of Standby, after which they start
from 0 (R320). -/
def execLimitRampStep (c : Nat) (s : State) : Host.Outcome State Fault Refusal :=
  .next <|
    if s.vsRuns c then
      let x := s.conn c
      let step : Int := s.get VS_CONN_SEQ.I_RAMP c
      let zero := s.connDrive c x.rTgt (moveTo x.hi 0 step) (moveTo x.lo 0 step)
      let st := s.cst c
      if st = 7 then zero
      else if st ≠ 6 then s
      else
        let d := s.is VS_CONN_STAT.DIR c
        if x.standby then zero
        else if (d ≠ x.dir ∨ x.viaZero) ∧ ¬ (x.hi = 0 ∧ x.lo = 0) then zero
        else
          let s1 := s.setConn c { x with dir := d, viaZero := false }
          if d then s1.connDrive c (1000 * x.vMin) (moveTo x.hi 0 step) (moveTo x.lo (-s.dischargeGoal c) step)
          else
            let rt := if s.get VS_CONN_STAT.MODE c = 2 then x.vMax else x.vTarget
            s1.connDrive c (1000 * rt) (moveTo x.hi (s.chargeGoal c) step) (moveTo x.lo 0 step)
    else s

/-! ### Frames between dispenser and cabinet (R330) -/

/-- NEED_FRAME (R330): under DISPENSER alone, at each local half-cycle boundary, to the group's endpoint. The manual gives `RATE` no source in the
dispenser: it is free. -/
def execNeedFrame (c : Nat) (s : State) : Host.Outcome State Fault Refusal :=
  .next <|
    if s.vsRuns c && !s.localFeed c then
      let x := s.conn c
      let st := s.cst c
      let r := s.free 16
      let fl := (if 4 ≤ st ∧ st ≤ 7 ∨ st = 9 then 1 else 0) + (if st = 7 ∧ s.is VS_CONN_STAT.FAST c then 2 else 0) +
        (if s.is VS_CONN_STAT.DIR c then 4 else 0)
      r.2.srcSend true .need (s.get VS_CONN_FEED.FEED_NODE c * 2 ^ 11 + 0x20 + s.feedGrp c) ([0x21, c, fl, 0] ++ leBytes 2 (min (ceilKw (s.connNeedW c)) 0xFFFF) ++
        leBytes 2 (x.rTgt / 1000) ++ leBytes 2 (ofSigned 16 (x.hi / 1000)) ++ leBytes 2 (ofSigned 16 (-((-x.lo) / 1000))) ++ leBytes 2 r.1 ++ [0, 0])
    else s

/-- A need frame says that energy is transferred (R211): run, no fast stop, not the limits ±`I_PRE` of PRECHARGE and WELD, nor a positive limit
without a need, as in CABLECHECK and while the limit ramps down (R324, R325, R329; DEDUCED, log 111). -/
def needTransfers (flags need : Nat) (uMax uMin : Int) : Bool :=
  bit flags 0 && !bit flags 1 && !(decide (0 < uMax) && (decide (uMin < 0) || need == 0))

/-- NEED_FRAME_RECEIVE (R330): the group and the fields of the frame; the limits in A, the rate in V/ms, which the loop takes per second. -/
def execNeedFrameReceive (g : Nat) (c : NeedFrom) (flags need rTgt : Nat) (uMax uMin : Int) (rate : Nat) (s : State) : Host.Outcome State Fault Refusal :=
  .next <|
    if s.outGroup g && (s.runs 5 || s.runs 6) then
      let l := s.get PE_GRP_CTRL.LOOP g
      let fast := bit flags 1
      let s1 := s.setNeed g { fed := true, age := 0, need := need, conn := c.conn, node := c.node, run := needTransfers flags need uMax uMin }
      let s2 := s1.loopSet l (1000 * rTgt) (if fast then 0 else 1000 * uMax) (if fast then 0 else 1000 * uMin)
      let s3 := if l < 64 then s2.putf LE_L_RATE.RATE (fOfNat (1000 * rate)) l else s2
      if bit flags 0 then (if s3.is PE_GRP_CTRL.EN g then s3 else s3.groupEnable g)
      else if s3.is PE_GRP_CTRL.EN g then s3.groupDisable g else s3
    else s

/-- ALLOWANCE_FRAME (R330): the cabinet, at each local half-cycle boundary, to the connector's endpoint of the dispenser that a group feeds. -/
def execAllowanceFrame (g : Nat) (s : State) : Host.Outcome State Fault Refusal :=
  .next <|
    if s.outGroup g && (s.needOf g).fed then
      s.srcSend true .allowance ((s.needOf g).node * 2 ^ 11 + 0x28 + (s.needOf g).conn) ([0x22, s.get PE_GRP_STAT.STATE g, s.get PE_GRP_LEASE.LAPSED g, s.get PE_GRP_LEASE.EXP_HC g] ++
        leBytes 2 (s.grp g).pub.cap ++ leBytes 2 (min (s.pAllow g) 0xFFFF) ++ leBytes 2 ((s.grp g).pub.v / 10) ++
        leBytes 2 (ofSigned 16 (s.grp g).pub.i) ++ leBytes 2 (min (s.grp g).pub.rev 0xFFFF) ++ [0, 0])
    else s

/-- ALLOWANCE_FRAME_RECEIVE (R330): the connector and the fields of the frame. -/
def execAllowanceFrameReceive (c state : Nat) (lapsed : Bool) (exp cap p v : Nat) (i : Int) (rev : Nat) (s : State) :
    Host.Outcome State Fault Refusal :=
  .next <|
    if s.vsRuns c && !s.localFeed c then
      (s.setConn c { s.conn c with
        heard := true, age := 0, aState := state, aLapsed := lapsed, aExp := exp, aCap := cap, aP := p, aV := v, aI := i, aRev := rev }).fastEval c
    else s

/-- NEED_FRAME_LOSS (R330): no need frame for 2 half-cycles. -/
def execNeedFrameLoss (g : Nat) (s : State) : Host.Outcome State Fault Refusal :=
  .next <|
    let x := s.needOf g
    if decide (g < 8) && x.fed && decide (2 ≤ x.age) then
      let s1 := s.setNeed g { conn := x.conn, node := x.node }
      let l := s.get PE_GRP_CTRL.LOOP g
      let s2 := if l < 64 then (s1.putf LE_L_U_MAX.U_MAX 0#32 l).putf LE_L_U_MIN.U_MIN 0#32 l else s1
      (s2.groupDisable g).log 0x0A0C WARNING [x.conn]
    else s

/-- FEED_LOST (R330): no allowance frame for 4 half-cycles in CLOSE to ENERGY. -/
def execFeedLost (c : Nat) (s : State) : Host.Outcome State Fault Refusal :=
  .next <|
    if s.vsRuns c && s.feedLost c then
      s.fastStop c 0xF
    else s

/-! ### The insulation monitor, the contactor check and the link -/

/-- An insulation value in kΩ arrives (R324). The rule sets `IMD_WARN` and names nothing that clears it but the next session. -/
def State.imdTake (s : State) (c r : Nat) : State :=
  let warn := decide (r < s.get VS_IMD_TH.R_WARN c)
  let x := s.conn c
  let s1 := (s.put VS_CONN_ISO.R_ISO r c).setConn c { x with iso := true, isoLate := false, isoGood := x.isoGood || !warn }
  let s3 := if warn then (s1.put VS_CONN_STAT.IMD_WARN 1 c).log 0x0A06 WARNING ([c, 0] ++ leBytes 2 r) else s1
  if s3.closing c && decide (r < s.get VS_IMD_TH.R_FAULT c) then s3.fastStop c 5 else s3

/-- IMD_UPDATE (R324, R409): an insulation value in kΩ; none where the buffer named is off or a transmit buffer. -/
def execImdUpdate (c r : Nat) (s : State) : Host.Outcome State Fault Refusal :=
  .next <| if s.vsRuns c && s.get CAN_BUF_CTRL.DIR (s.get VS_IMD_CFG.PORT c) (s.get VS_IMD_CFG.BUF c) == 1 then s.imdTake c r else s

/-- IMD_TIMEOUT (R324): the ms since the last insulation value. -/
def execImdTimeout (c ms : Nat) (s : State) : Host.Outcome State Fault Refusal :=
  .next <|
    if s.vsRuns c && s.closing c && decide (100 * s.get VS_IMD_CFG.IMD_TMO c ≤ ms) then
      (s.setConn c { s.conn c with isoLate := true }).fastStop c 5
    else s

/-- CONTACTOR_FAULT (R321, R336): the ms for which V at the point has not followed V_GRP. The connector ends in FAULT. -/
def execContactorFault (c ms : Nat) (s : State) : Host.Outcome State Fault Refusal :=
  .next <|
    if s.vsRuns c && s.cst c == 4 && decide (1000 ≤ s.feedV c) && !s.vFollows c && decide (100 ≤ ms) then
      ((s.setConn c { s.conn c with ct := true }).log 0x0A07 FAULT [c]).fastStop c 6
    else s

/-- LINK_LOST (R315): whether the TLS connection has closed, and the ms for which the T1S link has been down. -/
def execLinkLost (c : Nat) (closed : Bool) (ms : Nat) (s : State) : Host.Outcome State Fault Refusal :=
  .next <|
    if s.vsRuns c && (s.conn c).tls && (closed || decide (100 ≤ ms)) then
      (s.setConn c { s.conn c with tls := false }).fastStop c 8
    else s

end Sys2Proof.Machine
end

