-- ==== Sys2Proof/Machine/Thermal.lean ====
section
/-! DEFINITION. Thermal (spec/14_thermal_cable_cooling.md): linearisation, substitution, zones, the shutdown store and the coolant
circuits, and what each Thermal command does. A command whose condition the manual states and the state or its measurement does
not meet leaves the state unchanged. Temperatures are in 0.1 °C. -/

namespace Sys2Proof.Machine

open R

/-! ### Linearisation (R338) -/

/-- R(T)/R0 of IEC 60751 in 10^-16, for T in 0.1 °C: 1 + A T + B T², and C (T − 100) T³ below 0 °C. -/
def cvd (t : Int) : Int :=
  let base := 10 ^ 16 + 3908300000000 * t - 57750000 * t * t
  if 0 ≤ t then base else base - 418300000 * (t - 1000) * t * t * t / 10 ^ 8

/-- The temperature in [lo, hi] whose resistance is the nearest: a search over a rising function. -/
def cvdSearch (n : Nat) (r : Int) (lo hi : Int) : Int :=
  match n with
  | 0 => if r - cvd lo ≤ cvd hi - r then lo else hi
  | k + 1 => if hi - lo ≤ 1 then (if r - cvd lo ≤ cvd hi - r then lo else hi)
    else
      let m := (lo + hi) / 2
      if cvd m ≤ r then cvdSearch k r m hi else cvdSearch k r lo m

/-- The points of a sensor table: resistance in Ω and temperature in 0.1 °C. -/
def State.curve (s : State) (k : Nat) : List (Nat × Int) :=
  (List.range 32).map fun p => (s.get TH_CURVE.R k p, 5 * s.geti TH_CURVE.T k p)

/-- A table is in strictly ascending resistance. -/
def ascending : List (Nat × Int) → Bool
  | (r1, _) :: (r2, t2) :: l => decide (r1 < r2) && ascending ((r2, t2) :: l)
  | _ => true

/-- The next `k` binary digits of a base-2 logarithm: `x` in [1, 2) with 96 fractional bits, its logarithm so far in `acc`. -/
def logBits : Nat → Nat → Nat → Nat
  | 0, _, acc => acc
  | k + 1, x, acc =>
    let y := x * x / 2 ^ 96
    if 2 ^ 97 ≤ y then logBits k (y / 2) (2 * acc + 1) else logBits k y (2 * acc)

/-- The base-2 logarithm of a / b, for 0 < b ≤ a, in 2^-48 and rounded down (log 16). -/
def logRatio (a b : Nat) : Nat :=
  let e := Nat.log2 (a / b)
  logBits 48 (a * 2 ^ 96 / (b * 2 ^ e)) e

/-- The temperature of a resistance in mΩ by a table: linear in ln R between points, rounded to the nearest 0.1 °C (R338; log 16). -/
def tableTemp (m : Nat) : List (Nat × Int) → Option Int
  | (r1, t1) :: (r2, t2) :: l =>
    if m < 1000 * r1 then none
    else if m = 1000 * r1 then some t1
    else if m < 1000 * r2 then some (t1 + divNear ((t2 - t1) * (logRatio m (1000 * r1) : Int)) (logRatio r2 r1))
    else tableTemp m ((r2, t2) :: l)
  | [(r, t)] => if m = 1000 * r then some t else none
  | [] => none

/-- The converted value of a resistance in mΩ; none outside the valid range of the type. -/
def State.convert (s : State) (n m : Nat) : Option Int :=
  let ty := s.get TH_TS_CFG.TYPE n
  if ty = 1 then (if 76330 ≤ m ∧ m ≤ 194100 then some (cvdSearch 13 (m * 10 ^ 11) (-600) 2500) else none)
  else if ty = 2 then (if 763300 ≤ m ∧ m ≤ 1941000 then some (cvdSearch 13 (m * 10 ^ 10) (-600) 2500) else none)
  else if 4 ≤ ty ∧ ty ≤ 7 then tableTemp m (s.curve (ty - 4))
  else none

/-- A sensor's table, where it has one, is in strictly ascending resistance. -/
def State.tableOk (s : State) (n : Nat) : Bool :=
  let ty := s.get TH_TS_CFG.TYPE n
  decide (ty < 4) || ascending (s.curve (ty - 4))

/-- A sensor is on: PT100, PT1000 or a table. -/
def State.tsOn (s : State) (n : Nat) : Bool :=
  let ty := s.get TH_TS_CFG.TYPE n
  ty == 1 || ty == 2 || (decide (4 ≤ ty) && decide (ty ≤ 7))

/-! ### Cross-check and substitution (R342, R343) -/

/-- The state of a sensor: 0 off, 1 OK, 2 SUSPECT, 3 FAILED. -/
def State.tst (s : State) (n : Nat) : Nat := s.get TH_TS_STAT.STATE n

/-- The members of a sensor's cross-check group, itself included. -/
def State.xgroup (s : State) (n : Nat) : List Nat :=
  let g := s.get TH_TS_CFG.XGRP n
  if g < 16 then (List.range 48).filter fun m => s.tst m != 0 && s.get TH_TS_CFG.XGRP m == g else [n]

/-- The highest own value among sensors; none of an empty list. -/
def State.highest (s : State) (l : List Nat) : Option Int :=
  l.foldl (fun (b : Option Int) m =>
    let v := s.geti TH_TS_VAL.RAW m
    match b with | some x => some (max x v) | none => some v) none

/-- The reported value of a sensor (R343). -/
def State.reported (s : State) (n : Nat) : Int :=
  let grp := s.xgroup n
  let ok := s.highest (grp.filter fun m => s.tst m == 1)
  let own := s.geti TH_TS_VAL.RAW n
  match s.tst n with
  | 2 => (ok.orElse fun _ => s.highest (grp.filter fun m => s.tst m == 2)).getD own
  | 3 =>
    match ok with
    | some v => v
    | none =>
      match s.get TH_TS_CFG.FAIL_ACT n with
      | 1 => 10 * s.geti TH_TS_LIM.THR n
      | 2 => sparseGet 0 n s.th.last
      | _ => 10 * s.geti TH_TS_LIM.SHUT n
  | _ => own

/-- The median of a list in rising order, the mean of the two middle values rounded down for an even number. -/
def medianOf (l : List Int) : Int :=
  let a := l.insertionSort (· ≤ ·)
  let k := a.length
  if k % 2 = 1 then a.getD (k / 2) 0 else (a.getD (k / 2 - 1) 0 + a.getD (k / 2) 0) / 2

/-- The distance of a sensor from the median of its checked group, or from its partner (R342); none where it is not checked. -/
def State.deviation (s : State) (n : Nat) : Option Nat :=
  let l := (s.xgroup n).filter fun m => s.tst m != 3
  let v := s.geti TH_TS_VAL.RAW n
  if l.length < 2 then none
  else if l.length = 2 then
    match l.find? (fun m => m != n) with
    | some m => some (v - s.geti TH_TS_VAL.RAW m).natAbs
    | none => none
  else some (v - medianOf (l.map fun m => s.geti TH_TS_VAL.RAW m)).natAbs

/-- The reported values of a sensor's group, and the numbers of `TH_STAT`. -/
def State.tsShow (s : State) (n : Nat) : State :=
  let grp := if (s.xgroup n).contains n then s.xgroup n else n :: s.xgroup n
  let s1 := grp.foldl (fun t m => t.putSat TH_TS_VAL.REP (t.reported m) m) s
  let cnt := fun (st : Nat) => ((List.range 48).filter fun m => s1.tst m == st).length
  (s1.put TH_STAT.N_SUSPECT (cnt 2)).put TH_STAT.N_FAILED (cnt 3)

/-! ### Zones (R346 to R353) -/

/-- The members of a zone by the numbers of R351: sensors that are on, models that run. -/
def State.members (s : State) (z : Nat) : List Nat :=
  let m := s.get TH_ZONE_SNS0.SNS z + 2 ^ 32 * s.get TH_ZONE_SNS1.SNS z
  ((List.range 48).filter fun n => bit m n && s.tst n != 0) ++
    ((List.range 2).filter fun k => bit (s.get TH_ZONE_SNS1.CM z) k && s.is TH_CM_CFG.EN k).map fun k => 0x40 + k

/-- A member's value. -/
def State.memVal (s : State) (m : Nat) : Int := if m < 48 then s.geti TH_TS_VAL.REP m else s.geti TH_CM_VAL.T (m - 0x40)

/-- A member's value in 10^-9 °C, in which limits and margins are judged: a model's T as it is computed, not as its register shows
it (R344). -/
def State.memFine (s : State) (m : Nat) : Int :=
  if m < 48 then s.memVal m * 10 ^ 8
  else ((s.cm.find? fun (q : Nat × Int) => q.1 == m - 0x40).map fun q => q.2).getD (s.memVal m * 10 ^ 8)

/-- A member is at or above a limit in 0.1 °C. -/
def State.reaches (s : State) (m : Nat) (limit : Int) : Bool := decide (limit * 10 ^ 8 ≤ s.memFine m)

/-- A member's `THR`. -/
def State.memThr (s : State) (m : Nat) : Int := 10 * (if m < 48 then s.geti TH_TS_LIM.THR m else s.geti TH_CM_LIM.THR (m - 0x40))

/-- A member's `SHUT`. -/
def State.memShut (s : State) (m : Nat) : Int := 10 * (if m < 48 then s.geti TH_TS_LIM.SHUT m else s.geti TH_CM_LIM.SHUT (m - 0x40))

/-- A member's `WARN`. -/
def State.memWarn (s : State) (m : Nat) : Int := 10 * (if m < 48 then s.geti TH_TS_LIM.WARN m else s.geti TH_CM_LIM.WARN (m - 0x40))

/-- A zone's margin x as a fraction, with the member that has the largest; 0 of no member. -/
def State.margin (s : State) (z : Nat) : Int × Nat × Nat :=
  (s.members z).foldl (fun (b : Int × Nat × Nat) m =>
    let n := s.memFine m - s.memThr m * 10 ^ 8
    let d : Nat := 10 ^ 8 * max 1 (s.memShut m - s.memThr m).toNat
    if b.2.1 = 0 ∨ b.1 * d < n * b.2.1 then (n, d, m) else b) (0, 0, 0)

/-- A zone's allowance A (R346). -/
def State.allowance (s : State) (z : Nat) : Nat :=
  let x := s.margin z
  let d := max 1 x.2.1
  let n := clampI 0 d x.1
  let top : Int := s.get TH_ZONE_I.I_TOP z
  let bot : Int := s.get TH_ZONE_I.I_BOT z
  ((top * d - n * (top - bot)) / d).toNat

/-- What a zone shows: A in force, x, the hottest member (R346). -/
def State.zoneShow (s : State) (z : Nat) : State :=
  let x := s.margin z
  let st := s.get TH_ZONE_STAT.STATE z
  let s1 := s.putSat TH_ZONE_ALLOW.X (x.1 * 1000 / (max 1 x.2.1 : Nat)) z
  (s1.put TH_ZONE_STAT.HOT x.2.2 z).putMax TH_ZONE_ALLOW.ALLOW (if st = 0 then 0xFFFF else if st = 3 then 0 else s.allowance z) z

/-- The lowest A of the zones that a map names, among those in a state of at least `least`; 0xFFFF of none (R348). -/
def State.thermLow (s : State) (least : Nat) (names : Nat → Bool) : Nat :=
  (List.range 8).foldl (fun a z =>
    if names z && decide (least ≤ s.get TH_ZONE_STAT.STATE z) then min a (s.get TH_ZONE_ALLOW.ALLOW z) else a) 0xFFFF

/-- `I_THERM` of every group of this module (R348). -/
def State.thermGroups (s : State) : State :=
  s.each 8 fun g t => t.put PE_GRP_THERM.I_THERM (s.thermLow 2 fun z => bit (s.get TH_ZONE_CFG.GRPS z) g) g

/-- The zones in a state of R347, as a bit map. -/
def State.zonesIn (s : State) (st : Nat) : Nat := (List.range 8).foldl (fun a z => if s.get TH_ZONE_STAT.STATE z = st then setBit a z else a) 0

/-- Thermal's writes of R348: `I_THERM` of every group of this module and `I_THASK` of every connector. -/
def State.thermWrite (s : State) : State :=
  let s2 := s.thermGroups.each 2 fun c t =>
    (t.put VS_CONN_ALLOW.I_THASK (s.thermLow 1 fun z => bit (s.get TH_ZONE_CFG.CONN z) c) c).comply c
  (s2.put TH_STAT.ZONE_ENF (s.zonesIn 2)).put TH_STAT.ZONE_SHUT (s.zonesIn 3)

/-- Thermal's writes follow a change once Thermal is ready; until its restart ends they keep their values (R353). -/
def State.thermOut (s : State) : State := if bit (s.get SYS_READY.RDY) 9 then s.thermWrite else s

/-- Puts a zone into a state of R347. -/
def State.zoneState (s : State) (z st : Nat) : State := ((s.put TH_ZONE_STAT.STATE st z).zoneShow z).thermOut

/-- The zones that members belong to follow them (R347). -/
def State.zonesFollow (s : State) (l : List Nat) : State :=
  (s.each 8 fun z t => if (t.members z).any fun m => l.contains m then t.zoneShow z else t).thermOut

/-- Whether Thermal evaluates a zone. -/
def State.zoneOn (s : State) (z : Nat) : Bool :=
  s.runs 10 && bit (s.get SYS_READY.RDY) 9 && decide (z < 8) && s.is TH_ZONE_CFG.EN z

/-- 1 s in au of the local frequency. -/
def State.auPerS (s : State) : Nat := s.tb.floc * 2 ^ 24 / (1000 * mHz)

/-- Writes a shutdown record (R351): zone, cause, sensor, whether `LATCH` is in force, A just before, the sets of the zone. -/
def State.sdWrite (s : State) (zone cause sensor : Nat) (latch : Bool) (v : Int) (a grps conn : Nat) : State :=
  let b := leBytes 8 s.keeper ++ leBytes 4 s.rtc ++ [zone, cause, sensor, if latch then 1 else 0] ++ leBytes 2 (ofSigned 16 v) ++
    leBytes 2 (ofSigned 16 v) ++ leBytes 2 a ++ [grps, conn, 0, 0, 0, 0]
  let s1 := { s with sd := (({ bytes := b, sensor := sensor, till := s.keeper + s.auPerS } : SdRec) :: s.sd).take 64 }
  (s1.inc TH_SD_CNT.SD_CNT).put TH_SD_CNT.SD_N s1.sd.length

/-- Replaces bytes of a list from a place. -/
def setBytes (l : List Nat) (i : Nat) (v : List Nat) : List Nat := l.take i ++ v ++ l.drop (i + v.length)

/-- A sample of a sensor raises the highest value of the records that follow it (R351). -/
def State.sdPeak (s : State) (sensor : Nat) (v : Int) : State :=
  { s with sd := s.sd.map fun r =>
      if r.sensor = sensor ∧ s.keeper ≤ r.till ∧ toSigned 16 (bytesAt r.bytes 18 2) < v then
        { r with bytes := setBytes r.bytes 18 (leBytes 2 (ofSigned 16 v)) } else r }

/-- The release time enters the newest record of a zone (R352). -/
def sdRelease (z utc : Nat) : List SdRec → List SdRec
  | [] => []
  | r :: l => if byteAt r.bytes 12 = z then { r with bytes := setBytes r.bytes 24 (leBytes 4 utc) } :: l else r :: sdRelease z utc l

/-- The word of the shutdown store that `TH_SD_ADDR` selects; the CRC of R351 is the last. -/
def State.sdWord (s : State) : Nat :=
  match s.sd[s.get TH_SD_ADDR.REC]? with
  | none => 0
  | some r =>
    let w := s.get TH_SD_ADDR.WORD
    if w = 7 then crc32 r.bytes else bytesAt r.bytes (4 * w) 4

/-- Entry into SHUTDOWN (R350). -/
def State.zoneShut (s : State) (z cause sensor : Nat) (v : Int) : State :=
  let a := if s.get TH_ZONE_STAT.STATE z = 0 then s.get TH_ZONE_I.I_TOP z else s.get TH_ZONE_ALLOW.ALLOW z
  let latch := s.is TH_ZONE_CFG.LATCH z
  let conn := s.get TH_ZONE_CFG.CONN z
  let s1 := ((s.put TH_ZONE_STAT.GRACE_LEFT 0 z).put TH_ZONE_STAT.SHUT_SEEN 1 z).zoneState z 3
  let s2 := s1.eachBit 2 conn fun c t => t.fastStop c 0xE
  let s3 := (s2.log 0x0B09 TRIP [z, cause]).when latch fun t => t.put TH_ZONE_STAT.LATCHED 1 z
  let s4 := s3.sdWrite z cause sensor latch v a (s.get TH_ZONE_CFG.GRPS z) conn
  if s.is TH_ZONE_CFG.SHUT_SO z then s4.reqSafeOff 5 0x0B09 else s4

/-- The cause of a shutdown by a member: 2 where a failed sensor reports `SHUT` under `FAIL_ACT` 0x0 (R351). -/
def State.shutCause (s : State) (m : Nat) : Nat :=
  if m < 48 ∧ s.tst m = 3 ∧ ((s.xgroup m).all fun k => s.tst k != 1) ∧ s.get TH_TS_CFG.FAIL_ACT m != 1 ∧
    s.get TH_TS_CFG.FAIL_ACT m != 2 then 2 else 1

/-- Entry into ENFORCE (R347). -/
def State.zoneEnforce (s : State) (z : Nat) : State :=
  let s1 := ((s.put TH_ZONE_STAT.GRACE_LEFT 0 z).put TH_ZONE_STAT.ENF_SEEN 1 z).zoneState z 2
  s1.log 0x0B07 WARNING ([z, 0] ++ leBytes 2 (s1.get TH_ZONE_ALLOW.ALLOW z))

/-! ### Sensor commands -/

/-- A sensor samples at 1 kHz (R340, R353): it or a member of its group is in the snowline band, or Thermal restarts. -/
def State.fastSampled (s : State) (n : Nat) : Bool := !bit (s.get SYS_READY.RDY) 9 || (s.xgroup n).any fun m => bit s.th.band m

/-- `SNOW` of a sensor and of its group. -/
def State.snowShow (s : State) (n : Nat) : State := (n :: s.xgroup n).foldl (fun t m => t.putb TH_TS_STAT.SNOW (t.fastSampled m) m) s

/-- A sensor enters or leaves the snowline band (R340). -/
def State.snowSet (s : State) (n : Nat) (on : Bool) : State :=
  { s with th := { s.th with band := if on then setBit s.th.band n else clrBit s.th.band n } }.snowShow n

/-- `WARN` − `SNOW` of a sensor. -/
def State.snowLine (s : State) (n : Nat) : Int := s.memWarn n - s.get TH_CTRL.SNOW

/-- A sensor's reported value: it raises the records that follow it, and enters the snowline band at `WARN` − `SNOW` (R340, R351). -/
def State.tsJudge (s : State) (n : Nat) : State :=
  let s1 := s.sdPeak n (s.geti TH_TS_VAL.REP n)
  if s1.tst n ≠ 0 ∧ ¬ bit s1.th.band n ∧ s1.snowLine n ≤ s1.geti TH_TS_VAL.REP n then (s1.snowSet n true).log 0x0B02 INFO [n, 1]
  else s1.snowShow n

/-- A sensor and the members of its group. -/
def State.tsGroup (s : State) (n : Nat) : List Nat := n :: (s.xgroup n).filter fun m => m != n

/-- What follows a sample or a change of state of a sensor: the reported values of its group, what each of them reaches, and the
zones of its members (R340, R343, R347, R351). -/
def State.tsFollow (s : State) (n : Nat) : State :=
  (((s.tsGroup n).foldl State.tsJudge (s.tsShow n))).zonesFollow (s.tsGroup n)

/-- A sensor becomes FAILED (R338). -/
def State.tsFail (s : State) (n : Nat) : State :=
  if s.tst n = 3 then s
  else (((s.put TH_TS_STAT.STATE 3 n).put TH_TS_STAT.FAIL_SEEN 1 n).log 0x0B04 FAULT [n]).tsFollow n

/-- Counts a member's samples in a row at or above `SHUT`, and for each zone those below `THR` − `THR_HYS` (R341). -/
def State.sampleCount (s : State) (m : Nat) : State :=
  let up := fun (c : Bool) (k : Nat) (l : List (Nat × Nat)) => sparsePut 0 k (if c then min 15 (sparseGet 0 k l + 1) else 0) l
  let low := (List.range 8).foldl (fun l z =>
    up ((s.members z).contains m && !s.reaches m (s.memThr m - s.get TH_ZONE_CFG.THR_HYS z)) (0x100 * z + m) l) s.th.below
  { s with th := { s.th with above := up (s.reaches m (s.memShut m)) m s.th.above, below := low } }

/-- SENSOR_SAMPLE (R338, R340, R342, R343, R346): the resistance of TSnn in mΩ. The value is converted where it is in the valid
range; the group's reported values, their snowline bands and the zones follow in every case. A sensor whose table is not
ascending is FAILED. -/
def execSensorSample (n mOhm : Nat) (s : State) : Host.Outcome State Fault Refusal :=
  .next <|
    if s.runs 10 && decide (n < 48) && s.tsOn n then
      let s0 := s.putMax TH_TS_RES.RES (mOhm / 1000) n
      let s1 := if s0.tst n = 0 then s0.put TH_TS_STAT.STATE 1 n else s0
      if !s.tableOk n then (s1.tsFail n).sampleCount n
      else
        match s.convert n mOhm with
        | none => (s1.tsFollow n).sampleCount n
        | some v =>
          let s2 := s1.putSat TH_TS_VAL.RAW v n
          let s3 := if s2.tst n = 1 then { s2 with th := { s2.th with last := sparsePut 0 n v s2.th.last } } else s2
          (s3.tsFollow n).sampleCount n
    else s

/-- SENSOR_FAILED (R338): the samples in a row outside the valid range. -/
def execSensorFailed (n k : Nat) (s : State) : Host.Outcome State Fault Refusal :=
  .next <| if s.runs 10 && decide (n < 48) && s.tsOn n && decide (3 ≤ k) then s.tsFail n else s

/-- SENSOR_RECOVER (R338): the seconds of valid samples. -/
def execSensorRecover (n secs : Nat) (s : State) : Host.Outcome State Fault Refusal :=
  .next <|
    if s.runs 10 && decide (n < 48) && s.tst n == 3 && decide (10 ≤ secs) && s.tableOk n then
      ((s.put TH_TS_STAT.STATE 1 n).log 0x0B05 INFO [n]).tsFollow n
    else s

/-- SENSOR_SUSPECT (R342): the samples in a row more than `TOL` from the median; of exactly two, both become SUSPECT. -/
def execSensorSuspect (n k : Nat) (s : State) : Host.Outcome State Fault Refusal :=
  .next <|
    let g := s.get TH_TS_CFG.XGRP n
    let susp := fun (t : State) (m : Nat) =>
      if t.tst m = 1 then ((t.put TH_TS_STAT.STATE 2 m).put TH_TS_STAT.SUSP_SEEN 1 m).log 0x0B03 WARNING [m] else t
    if s.runs 10 && decide (n < 48) && s.tst n == 1 && decide (g < 16) && decide (max 1 (s.get TH_XGRP.NX g) ≤ k) then
      match s.deviation n with
      | some d =>
        if s.get TH_XGRP.TOL g < d then
          let l := (s.xgroup n).filter fun m => s.tst m != 3
          let s1 := if l.length = 2 then l.foldl susp s else susp s n
          s1.tsFollow n
        else s
      | none => s
    else s

/-- A checked sensor is within half the tolerance of the median or of its partner (R342). -/
def State.withinHalf (s : State) (n : Nat) : Bool :=
  match s.deviation n with
  | some d => decide (2 * d ≤ s.get TH_XGRP.TOL (s.get TH_TS_CFG.XGRP n))
  | none => false

/-- SUSPECT_RECOVER (R342): the seconds within half the tolerance. -/
def execSuspectRecover (n secs : Nat) (s : State) : Host.Outcome State Fault Refusal :=
  .next <|
    if s.runs 10 && decide (n < 48) && s.tst n == 2 && decide (10 ≤ secs) && s.withinHalf n then
      ((s.put TH_TS_STAT.STATE 1 n).log 0x0B05 INFO [n]).tsFollow n
    else s

/-- SNOWLINE_EXIT (R340): the samples in a row below `WARN` − `SNOW` − 1 K. -/
def execSnowlineExit (n k : Nat) (s : State) : Host.Outcome State Fault Refusal :=
  .next <|
    if s.runs 10 && decide (n < 48) && bit s.th.band n && decide (1000 ≤ k) &&
        decide (s.geti TH_TS_VAL.REP n < s.snowLine n - 10) then
      (s.snowSet n false).log 0x0B02 INFO [n, 0]
    else s

/-- The samples that reach or leave a limit (R341). -/
def State.deb (s : State) : Nat := max 1 (s.get TH_CTRL.DEB)

/-- A sensor, or a cable model by its number of R351, shows that it is at or above `WARN`. -/
def State.warnShown (s : State) (m : Nat) : Bool := if m < 48 then s.is TH_TS_STAT.WARN m else bit s.th.cmWarn (m - 0x40)

/-- Sets what `warnShown` reads. -/
def State.setWarn (s : State) (m : Nat) (on : Bool) : State :=
  if m < 48 then s.putb TH_TS_STAT.WARN on m
  else { s with th := { s.th with cmWarn := if on then setBit s.th.cmWarn (m - 0x40) else clrBit s.th.cmWarn (m - 0x40) } }

/-- WARN_LIMIT (R341, R344): the samples in a row of a sensor or a cable model at or above `WARN`, or below it less 1 K. -/
def execWarnLimit (m k : Nat) (s : State) : Host.Outcome State Fault Refusal :=
  .next <|
    let on := if m < 48 then s.tst m != 0 else (m == 0x40 || m == 0x41) && s.is TH_CM_CFG.EN (m - 0x40)
    if !(s.runs 10 && on && decide (s.deb ≤ k)) then s
    else if ¬ s.warnShown m ∧ s.reaches m (s.memWarn m) then
      (s.setWarn m true).log 0x0B01 WARNING ([m, 0] ++ leBytes 2 (ofSigned 16 (s.memVal m)))
    else if ¬ s.reaches m (s.memWarn m - 10) then s.setWarn m false else s

/-! ### Zone commands -/

/-- Some member of a zone has reached `SHUT`: its last `DEB` samples are at or above it (R341). -/
def State.zoneHot (s : State) (z : Nat) : Bool := (s.members z).any fun m => decide (s.deb ≤ sparseGet 0 m s.th.above)

/-- ZONE_ASK (R347): a member and its samples in a row at or above `THR`. The row of `SHUT` stands before: while a member has reached it, no ask is
made. -/
def execZoneAsk (z m k : Nat) (s : State) : Host.Outcome State Fault Refusal :=
  .next <|
    if s.zoneOn z && s.get TH_ZONE_STAT.STATE z == 0 && (s.members z).contains m && decide (s.deb ≤ k) &&
        s.reaches m (s.memThr m) && !s.zoneHot z then
      let s1 := (s.put TH_ZONE_STAT.GRACE_LEFT (clampN 1 100 (s.get TH_CTRL.GRACE)) z).zoneState z 1
      s1.log 0x0B06 WARNING ([z, 0] ++ leBytes 2 (s1.get TH_ZONE_ALLOW.ALLOW z))
    else s

/-- Every member of a zone has left `THR`: the last `DEB` samples of each are below `THR` − `THR_HYS` (R341). -/
def State.zoneLeft (s : State) (z : Nat) : Bool :=
  (s.members z).all fun m => decide (s.deb ≤ sparseGet 0 (0x100 * z + m) s.th.below)

/-- A connector does not comply: where the grace time ends now, as at the start of the present millisecond (R358). -/
def State.refuses (s : State) (z c : Nat) : Bool :=
  if s.get TH_ZONE_STAT.GRACE_LEFT z = 0 then !s.is VS_CONN_STAT.COMPLY c else bit s.th.defied c

/-- ZONE_ENFORCE (R347, R358): the time since the ask in 0.1 s. The rows of ASK are evaluated in order: while a member has
reached `SHUT`, or every member has left `THR`, no enforcement step is made. -/
def execZoneEnforce (z t : Nat) (s : State) : Host.Outcome State Fault Refusal :=
  .next <|
    let g := clampN 1 100 (s.get TH_CTRL.GRACE)
    let conn := s.get TH_ZONE_CFG.CONN z
    if s.zoneOn z && s.get TH_ZONE_STAT.STATE z == 1 && !s.zoneHot z && !s.zoneLeft z then
      if t < g then s.put TH_ZONE_STAT.GRACE_LEFT (g - t) z
      else if conn = 0 ∨ (List.range 2).any (fun c => bit conn c && s.refuses z c) then s.zoneEnforce z
      else s.put TH_ZONE_STAT.GRACE_LEFT 0 z
    else s

/-- A record of a flow fault takes a limit-based shutdown of the same zone at the same stamp: one record, with the cause that R351 lists
first (R358). -/
def sdLimit (z stamp cause sensor : Nat) (v : Int) : List SdRec → List SdRec
  | [] => []
  | r :: l =>
    if stamp ≠ 0 ∧ byteAt r.bytes 12 = z ∧ byteAt r.bytes 13 = 3 ∧ bytesAt r.bytes 0 8 = stamp then
      { r with sensor := sensor, bytes := setBytes (setBytes r.bytes 13 [cause, sensor]) 16 (leBytes 2 (ofSigned 16 v) ++ leBytes 2 (ofSigned 16 v)) } :: l
    else r :: sdLimit z stamp cause sensor v l

/-- ZONE_SHUTDOWN (R347, R350, R358): a member and its samples in a row at or above `SHUT`. -/
def execZoneShutdown (z m k : Nat) (s : State) : Host.Outcome State Fault Refusal :=
  .next <|
    if s.zoneOn z && (s.members z).contains m && decide (s.deb ≤ k) && s.reaches m (s.memShut m) then
      if s.get TH_ZONE_STAT.STATE z ≠ 3 then s.zoneShut z (s.shutCause m) m (s.memVal m)
      else { s with sd := sdLimit z s.keeper (s.shutCause m) m (s.memVal m) s.sd }
    else s

/-- Every member of a zone is below `THR` − `THR_HYS`. -/
def State.zoneCool (s : State) (z : Nat) : Bool :=
  (s.members z).all fun m => !s.reaches m (s.memThr m - s.get TH_ZONE_CFG.THR_HYS z)

/-- ZONE_RELEASE (R347): the samples in a row for which every member has been below `THR` − `THR_HYS`. -/
def execZoneRelease (z k : Nat) (s : State) : Host.Outcome State Fault Refusal :=
  .next <|
    let st := s.get TH_ZONE_STAT.STATE z
    if s.zoneOn z && (st == 1 || st == 2) && decide (s.deb ≤ k) && s.zoneCool z then
      ((s.put TH_ZONE_STAT.GRACE_LEFT 0 z).zoneState z 0).log 0x0B08 NOTICE [z]
    else s

/-- The release of a shutdown (R352). -/
def State.shutRelease (s : State) (z : Nat) : State :=
  let s1 := { s with sd := sdRelease z s.rtc s.sd }
  ((s1.put TH_ZONE_STAT.LATCHED 0 z).zoneState z 0).log 0x0B0A NOTICE [z]

/-- The first condition of R352, with the seconds for which it has held. -/
def State.shutCool (s : State) (z secs : Nat) : Bool :=
  s.runs 10 && decide (z < 8) && s.get TH_ZONE_STAT.STATE z == 3 && decide (s.get TH_ZONE_RST.RST_T z ≤ secs) && s.zoneCool z

/-- SHUTDOWN_RELEASE (R352). -/
def execShutdownRelease (z secs : Nat) (s : State) : Host.Outcome State Fault Refusal :=
  .next <| if s.shutCool z secs && !s.is TH_ZONE_CFG.LATCH z then s.shutRelease z else s

/-- ZONE_CLR (R352): a write of 1 to `CLR`, with the seconds for which the members have been cool. -/
def execZoneClr (sess z secs : Nat) (s : State) : Host.Outcome State Fault Refusal :=
  .next <| s.guarded sess TH_ZONE_RST.CLR fun t => if t.shutCool z secs then t.shutRelease z else t

/-- The conditions of R346. -/
def State.zoneCfgOk (s : State) (z : Nat) : Bool :=
  let m := s.get TH_ZONE_SNS0.SNS z + 2 ^ 32 * s.get TH_ZONE_SNS1.SNS z
  let ms := ((List.range 48).filter fun n => bit m n) ++ ((List.range 2).filter fun k => bit (s.get TH_ZONE_SNS1.CM z) k).map fun k => 0x40 + k
  (ms.all fun i => decide (s.memWarn i ≤ s.memThr i) && decide (s.memThr i < s.memShut i)) &&
    decide (s.get TH_ZONE_I.I_BOT z ≤ s.get TH_ZONE_I.I_TOP z)

/-- A write of `EN` = 1 of a zone (R346). -/
def State.zoneEnable (s : State) (z : Nat) : State :=
  if s.zoneCfgOk z then ((s.put TH_ZONE_CFG.EN 1 z).put TH_ZONE_CFG.CFG_ERR 0 z).zoneShow z else s.put TH_ZONE_CFG.CFG_ERR 1 z

/-- A write of `EN` = 0: the zone is not evaluated; its ask and enforcement are withdrawn, a shutdown stays (log 17). -/
def State.zoneDisable (s : State) (z : Nat) : State :=
  let s1 := s.put TH_ZONE_CFG.EN 0 z
  if s1.get TH_ZONE_STAT.STATE z = 3 then s1 else s1.zoneState z 0

/-- ZONE_ENABLE (R346). -/
def execZoneEnable (sess z : Nat) (s : State) : Host.Outcome State Fault Refusal :=
  .next <| if 8 ≤ z then s else s.guarded sess TH_ZONE_CFG.EN fun t => t.zoneEnable z

/-! ### Cable models (R344, R345) -/

/-- The coolant sensor is FAILED and has no substitute. -/
def State.coolLost (s : State) (m : Nat) : Bool :=
  let n := s.get TH_CM_CFG.TCOOL m
  s.tst n == 3 && (s.xgroup n).all fun k => s.tst k != 1

/-- The model's inputs are good (R345). -/
def State.cmGood (s : State) (m : Nat) : Bool := s.is MET_PT_STAT.VALID (s.get TH_CM_CFG.PT m) && !s.coolLost m

/-- CABLE_MODEL_UPDATE (R344, R345): every 10 ms, computed in 10^-9 °C (log 18). -/
def execCableModelUpdate (m : Nat) (s : State) : Host.Outcome State Fault Refusal :=
  .next <|
    if s.runs 10 && decide (m < 2) && s.is TH_CM_CFG.EN m then
      let p := s.get TH_CM_CFG.PT m
      let i := if s.is MET_PT_STAT.VALID p then (s.geti MET_PT_I.I p).natAbs else sparseGet 0 m s.th.cmI
      let tc := s.geti TH_TS_VAL.REP (s.get TH_CM_CFG.TCOOL m) * 10 ^ 8
      let t := ((s.cm.find? fun (q : Nat × Int) => q.1 == m).map fun q => q.2).getD tc
      let k : Int := (i * i * s.get TH_CM_PAR1.R20 m * s.get TH_CM_PAR2.RTH m : Nat)
      let tss := tc + divNear (k * (10 ^ 15 + (s.get TH_CM_PAR1.ALPHA m : Int) * (t - 20 * 10 ^ 9))) (10 ^ 22)
      let t1 := t + divNear (tss - t) (100 * max 1 (s.get TH_CM_PAR2.TAU m))
      let s1 := { s with cm := keyPut m t1 s.cm, th := { s.th with cmI := sparsePut 0 m i s.th.cmI } }
      let s2 := s1.putSat TH_CM_VAL.T (divNear t1 (10 ^ 8)) m
      let s3 := if s2.cmGood m then s2.put TH_CM_VAL.SUSPECT 0 m else s2
      ((s3.sdPeak (0x40 + m) (s3.memVal (0x40 + m))).zonesFollow [0x40 + m]).sampleCount (0x40 + m)
    else s

/-- MODEL_SUSPECT (R345). -/
def execModelSuspect (m : Nat) (s : State) : Host.Outcome State Fault Refusal :=
  .next <|
    if s.runs 10 && decide (m < 2) && s.is TH_CM_CFG.EN m && !s.cmGood m && !s.is TH_CM_VAL.SUSPECT m then
      (s.put TH_CM_VAL.SUSPECT 1 m).log 0x0B0F WARNING [m]
    else s

/-! ### Internal sensors (R339) -/

/-- The warning and the Safe-Off level of an internal sensor. -/
def intLevels (i : Nat) : Int × Int := if i < 4 then (1200, 1300) else (1350, 1500)

/-- The ms between two samples of an internal sensor whose value is `v`: 10 Hz, and 1 kHz within 5 K of its warning (R339). -/
def intSpacing (i : Nat) (v : Int) : Nat := if (v - (intLevels i).1).natAbs ≤ 50 then 1 else 100

/-- The cold-plate cross-check at a sample of sensor `i`, whose value before it was `old` (R339, R342): the four are never FAILED,
so each is compared with the median of the four, with a tolerance of 5 K; the number of samples is that of the other groups
at reset, and the return takes 10 s within half the tolerance (log 19). `cpIn` is one more than the ms within it. -/
def State.coldPlate (s : State) (i : Nat) (old : Int) : State :=
  let v := s.geti TH_INT_VAL.T i
  let d := (v - medianOf ((List.range 4).map fun k => s.geti TH_INT_VAL.T k)).natAbs
  let out := if 50 < d then sparseGet 0 i s.th.cpOut + 1 else 0
  let was := sparseGet 0 i s.th.cpIn
  let inn := if d ≤ 25 then (if was = 0 then 1 else was + intSpacing i old) else 0
  let s1 := { s with th := { s.th with
    cpOut := sparsePut 0 i (min out 5) s.th.cpOut, cpIn := sparsePut 0 i (min inn 10001) s.th.cpIn } }
  if 5 ≤ out ∧ ¬ s1.is TH_INT_VAL.EXCL i then (s1.put TH_INT_VAL.EXCL 1 i).log 0x0B03 WARNING [0x30 + i]
  else if 10001 ≤ inn ∧ s1.is TH_INT_VAL.EXCL i then (s1.put TH_INT_VAL.EXCL 0 i).log 0x0B05 INFO [0x30 + i]
  else s1

/-- The highest of some internal sensors; none of an empty list. -/
def State.intHighest (s : State) (l : List Nat) : Option Int :=
  l.foldl (fun (b : Option Int) k =>
    let v := s.geti TH_INT_VAL.T k
    match b with | some x => some (max x v) | none => some v) none

/-- The reported value of an internal sensor (R339, R343): an excluded cold-plate sensor reports the highest of those that are
not, and where all four are excluded the highest of their own values (log 19). -/
def State.intRep (s : State) (i : Nat) : Int :=
  if i < 4 ∧ s.is TH_INT_VAL.EXCL i then
    ((s.intHighest ((List.range 4).filter fun k => !s.is TH_INT_VAL.EXCL k)).orElse fun _ => s.intHighest (List.range 4)).getD 0
  else s.geti TH_INT_VAL.T i

/-- INTERNAL_SENSOR_SAMPLE (R339): the temperature of an internal sensor. -/
def execInternalSensorSample (i : Nat) (v : Int) (s : State) : Host.Outcome State Fault Refusal :=
  .next <|
    if s.runs 10 && decide (i < 16) then
      let s1 := s.putSat TH_INT_VAL.T v i
      let s2 := if i < 4 then (s1.coldPlate i (s.geti TH_INT_VAL.T i)).each 4 fun k t => t.sdPeak (0x30 + k) (t.intRep k)
        else s1.sdPeak (0x30 + i) (s1.intRep i)
      let hot := decide ((intLevels i).1 ≤ s2.intRep i)
      let s3 := if hot && !bit s2.th.intWarn i then s2.log 0x0B0D WARNING [0x30 + i] else s2
      { s3 with th := { s3.th with intWarn := if hot then setBit s3.th.intWarn i else clrBit s3.th.intWarn i } }
    else s

/-- INTERNAL_OVER_TEMPERATURE (R339, R343, R456): the samples in a row at or above the Safe-Off level. -/
def execInternalOverTemperature (i k : Nat) (s : State) : Host.Outcome State Fault Refusal :=
  .next <|
    let v := s.intRep i
    if s.runs 10 && decide (i < 16) && decide (3 ≤ k) && decide ((intLevels i).2 ≤ v) then
      ((s.log 0x0B0E SAFETY [0x30 + i]).sdWrite 0xFF 4 (0x30 + i) false v 0 0 0).reqSafeOff 4 0x0B0E
    else s

/-! ### Restart (R353) -/

/-- D10 leaves reset: every zone with `LATCHED` starts in SHUTDOWN. -/
def State.thStart (s : State) : State :=
  let t := s.each 8 fun z t => if t.is TH_ZONE_STAT.LATCHED z then (t.put TH_ZONE_STAT.STATE 3 z).put TH_ZONE_ALLOW.ALLOW 0 z else t
  t.put TH_STAT.ZONE_SHUT (t.zonesIn 3)

/-- THERMAL_RESTART (R353): the ms since D10 left reset. -/
def execThermalRestart (ms : Nat) (s : State) : Host.Outcome State Fault Refusal :=
  .next <|
    if s.runs 10 && decide (100 ≤ ms) && !bit (s.get SYS_READY.RDY) 9 then
      let s1 := s.each 8 fun z t =>
        if t.is TH_ZONE_CFG.EN z && t.get TH_ZONE_STAT.STATE z == 0 then
          match (t.members z).find? fun m => t.reaches m (t.memShut m) with
          | some m => t.zoneShut z (t.shutCause m) m (t.memVal m)
          | none => if (t.members z).any fun m => t.reaches m (t.memThr m) then t.zoneEnforce z else t
        else t
      let s2 := s1.thermWrite.setReady 9
      s2.each 48 fun n t => if t.tst n = 0 then t else t.putb TH_TS_STAT.SNOW (t.fastSampled n) n
    else s

/-! ### Coolant circuits (R354 to R357) -/

/-- A cause for a circuit to run holds (R354). -/
def State.circuitWanted (s : State) (k : Nat) : Bool :=
  let conn := s.get TH_CC_CFG.CONN k
  ((List.range 2).any fun c => bit conn c && decide (3 ≤ s.cst c) && decide (s.cst c ≤ 9)) ||
    s.get TH_ZONE_STAT.STATE (s.get TH_CC_TEMP.ZONE k) != 0 ||
    decide (10 * (s.get TH_CC_TEMP.COOL_ON k : Int) ≤ s.geti TH_TS_VAL.REP (s.get TH_CC_TEMP.TOUT k))

/-- A circuit's pump and valve channels are switched. -/
def State.circuitSwitch (s : State) (k : Nat) (on : Bool) : State :=
  let sw := fun (t : State) (n : Nat) => if n < 16 ∧ t.ownerOf n = 1 then t.lswCommand n on else t
  (sw (sw s (s.get TH_CC_CFG.PUMP_LS k)) (s.get TH_CC_CFG.VALVE_LS k)).putb TH_CC_STAT.RUN on k

/-- The heater channel is switched. -/
def State.heatSwitch (s : State) (k : Nat) (on : Bool) : State :=
  let n := s.get TH_CC_CFG.HEAT_LS k
  if n < 16 ∧ s.ownerOf n = 1 then (s.lswCommand n on).putb TH_CC_STAT.HEAT on k else s

/-- With `HEAT_FLOW` = 1 the heater is off while the circuit does not run or has a flow fault (R357). -/
def State.heatFlow (s : State) (k : Nat) : State :=
  if s.is TH_CC_CFG.HEAT_FLOW k && (!s.is TH_CC_STAT.RUN k || s.is TH_CC_STAT.FLOW_FLT k) then s.heatSwitch k false else s

/-- Thermal supervises a circuit. -/
def State.circuitOn (s : State) (k : Nat) : Bool := s.runs 10 && decide (k < 2) && s.is TH_CC_CFG.EN k

/-- CIRCUIT_RUN (R354): the channels are switched on, whatever `RUN` reads. -/
def execCircuitRun (k : Nat) (s : State) : Host.Outcome State Fault Refusal :=
  .next <| if s.circuitOn k && s.circuitWanted k then s.circuitSwitch k true else s

/-- CIRCUIT_STOP (R354): the seconds since the last cause ended. The channels are switched off, whatever `RUN` reads. -/
def execCircuitStop (k secs : Nat) (s : State) : Host.Outcome State Fault Refusal :=
  .next <|
    if s.circuitOn k && !s.circuitWanted k && decide (10 * s.get TH_CC_FLOW.AFTER_T k ≤ secs) then
      (s.circuitSwitch k false).heatFlow k
    else s

/-- A flow value arrives in its message buffer (R355): 0.01 L/min. -/
def State.flowValue (s : State) (f v : Nat) : State := (s.put TH_FLOW_VAL.FLOW v f).put TH_FLOW_VAL.VALID 1 f

/-- FLOW_TIMEOUT (R355): the ms since the last update. -/
def execFlowTimeout (f ms : Nat) (s : State) : Host.Outcome State Fault Refusal :=
  .next <|
    if s.runs 10 && decide (f < 4) && decide (100 * s.get TH_FLOW_CFG.TMO f ≤ ms) then
      (s.put TH_FLOW_VAL.FLOW 0 f).put TH_FLOW_VAL.VALID 0 f
    else s

/-- The flow of a circuit is below its least value, or invalid. -/
def State.flowLow (s : State) (k : Nat) : Bool :=
  let f := s.get TH_CC_CFG.FLOW k
  !s.is TH_FLOW_VAL.VALID f || decide (s.get TH_FLOW_VAL.FLOW f < s.get TH_CC_FLOW.FLOW_MIN k)

/-- FLOW_FAULT (R356): for how long in 0.1 s the circuit has run, and the flow has been low. -/
def execFlowFault (k run low : Nat) (s : State) : Host.Outcome State Fault Refusal :=
  .next <|
    let ft := s.get TH_CC_FLOW.FLOW_T k
    if s.circuitOn k && s.is TH_CC_STAT.RUN k && !s.is TH_CC_STAT.FLOW_FLT k && s.flowLow k && decide (ft < run) && decide (ft ≤ low) then
      let s1 := (((s.put TH_CC_STAT.FLOW_FLT 1 k).put TH_CC_STAT.FLOW_SEEN 1 k).log 0x0B0B FAULT [k]).heatFlow k
      let z := s.get TH_CC_TEMP.ZONE k
      if s.is TH_CC_CFG.FLOW_ACT k && s1.get TH_ZONE_STAT.STATE z != 3 then
        s1.zoneShut z 3 (0x50 + k) (s1.geti TH_TS_VAL.REP (s1.get TH_CC_TEMP.TOUT k))
      else s1
    else s

/-- FLOW_RECOVERED (R356): the seconds at or above `FLOW_MIN`. -/
def execFlowRecovered (k secs : Nat) (s : State) : Host.Outcome State Fault Refusal :=
  .next <|
    if s.circuitOn k && s.is TH_CC_STAT.FLOW_FLT k && !s.flowLow k && decide (10 ≤ secs) then
      (s.put TH_CC_STAT.FLOW_FLT 0 k).log 0x0B0C INFO [k]
    else s

/-- The temperature of the inlet. -/
def State.tIn (s : State) (k : Nat) : Int := s.geti TH_TS_VAL.REP (s.get TH_CC_TEMP.TIN k)

/-- HEATER_ON (R357). -/
def execHeaterOn (k : Nat) (s : State) : Host.Outcome State Fault Refusal :=
  .next <|
    if s.circuitOn k && decide (s.tIn k < 10 * s.geti TH_CC_HEAT.HEAT_ON k) &&
        !(s.is TH_CC_CFG.HEAT_FLOW k && (!s.is TH_CC_STAT.RUN k || s.is TH_CC_STAT.FLOW_FLT k)) then
      s.heatSwitch k true
    else s

/-- HEATER_OFF (R357). -/
def execHeaterOff (k : Nat) (s : State) : Host.Outcome State Fault Refusal :=
  .next <|
    if 2 ≤ k then s
    else if !s.circuitOn k then s
    else if 10 * s.geti TH_CC_HEAT.HEAT_OFF k ≤ s.tIn k then s.heatSwitch k false else s.heatFlow k

end Sys2Proof.Machine
end

