-- ==== Sys2Proof/Machine/Can.lean ====
section
/-! DEFINITION. What each command of the CAN ports does (spec/17_can_fd.md). The error counters of ISO 11898-1, the kind of an error
and the measured loop delay are operands. A command whose condition the manual states and the state or its measurement does not meet
leaves the state unchanged. -/

namespace Sys2Proof.Machine

open R

/-- The state of a port (R404): 0 OFF, 1 INIT, 2 SYNC, 3 ACTIVE, 4 BUS_OFF, 5 RECOVER. -/
def State.canSt (s : State) (p : Nat) : Nat := s.get CAN_STAT.STATE p

/-- Port p exists, D9 runs and the port is in a state. -/
def State.canIn (s : State) (p st : Nat) : Bool := decide (p < 2) && s.runs 9 && s.canSt p == st

/-- A port with `EN` = 1 and D9 out of reset leaves OFF (R404). -/
def State.canPort (s : State) (p : Nat) : State :=
  if s.canIn p 0 && s.is CAN_CTRL.EN p then s.put CAN_STAT.STATE 1 p else s

/-- A write of `EN` (R404): 0 turns the port OFF with its buffers and counters kept. -/
def State.canEnable (s : State) (p : Nat) (on : Bool) : State :=
  let s1 := s.putb CAN_CTRL.EN on p
  if on then s1.canPort p
  else { s1.put CAN_STAT.STATE 0 p with can := { s1.can with offer := eraseKey p s1.can.offer, held := clrBit s1.can.held p, fin := clrBit s1.can.fin p } }

/-- CAN_PORT_ENABLE (R404). -/
def execCanPortEnable (p : Nat) (s : State) : Host.Outcome State Fault Refusal := .next (s.canPort p)

/-- The periods of the 80 MHz protocol clock in a nominal bit (R402). -/
def State.nomBit (s : State) (p : Nat) : Nat :=
  (s.get CAN_NBT.NBRP p + 1) * (1 + (s.get CAN_NBT.NTSEG1 p + 1) + (s.get CAN_NBT.NTSEG2 p + 1))

/-- The periods of the protocol clock in a data bit (R402). -/
def State.dataBit (s : State) (p : Nat) : Nat :=
  (s.get CAN_DBT.DBRP p + 1) * (1 + (s.get CAN_DBT.DTSEG1 p + 1) + (s.get CAN_DBT.DTSEG2 p + 1))

/-- The settings of a port pass R402. -/
def State.timingOk (s : State) (p : Nat) : Bool :=
  decide (1 ≤ s.get CAN_NBT.NTSEG1 p) && decide (1 ≤ s.get CAN_NBT.NTSEG2 p) &&
    decide (s.get CAN_NBT.NSJW p ≤ s.get CAN_NBT.NTSEG2 p) && decide (s.get CAN_DBT.DTSEG1 p ≤ 31) &&
    decide (s.get CAN_DBT.DSJW p ≤ s.get CAN_DBT.DTSEG2 p) && decide (80 ≤ s.nomBit p) && decide (10 ≤ s.dataBit p) &&
    decide (s.dataBit p ≤ s.nomBit p) &&
    !(s.is CAN_CTRL.BRS_EN p && decide (s.dataBit p < 80) && !s.is CAN_CTRL.TDC_EN p)

/-- A port enters INIT from a state: from ACTIVE with the frame in progress (R404). -/
def Can.leaves (c : Can) (p st : Nat) : Can :=
  { c with held := clrBit c.held p, fin := if st = 3 then setBit c.fin p else if st = 1 then c.fin else clrBit c.fin p }

/-- The frame that was in progress when a port entered INIT has ended. -/
def State.canEnded (s : State) (p : Nat) : State := { s with can := { s.can with fin := clrBit s.can.fin p } }

/-- Frames pass on a port: it is ACTIVE, or the frame in progress when it entered INIT has not ended (R404). -/
def State.canTraffic (s : State) (p : Nat) : Bool := s.canIn p 3 || s.canIn p 1 && bit s.can.fin p

/-- `INIT` written 0 (R402, R404). -/
def State.canStart (s : State) (p : Nat) : State :=
  let s1 := s.put CAN_CTRL.INIT 0 p
  if !s.canIn p 1 then s1
  else if s.timingOk p then
    (((((s1.put CAN_STAT.STATE 2 p).put CAN_STAT.TEC 0 p).put CAN_STAT.REC 0 p).put CAN_STAT.EPASS 0 p).put CAN_STAT.CFG_ERR 0 p).canEnded p
  else ((s1.put CAN_CTRL.INIT 1 p).put CAN_STAT.CFG_ERR 1 p).log 0x0E07 WARNING [p]

/-- CAN_START (R402, R404). -/
def execCanStart (sess p : Nat) (s : State) : Host.Outcome State Fault Refusal :=
  .next <| if 2 ≤ p then s else s.guarded sess CAN_CTRL.INIT fun t => t.canStart p

/-- `INIT` written 1 (R404, R411): in ACTIVE the frame in progress, one of the buffer that is offered or one that is received, goes on. -/
def State.canInit (s : State) (p : Nat) : State :=
  let s1 := s.put CAN_CTRL.INIT 1 p
  if s.canSt p = 0 ∨ !s.runs 9 then s1
  else { s1.put CAN_STAT.STATE 1 p with can := (s1.can.leaves p (s.canSt p)) }

/-- CAN_INIT (R404, R411). -/
def execCanInit (sess p : Nat) (s : State) : Host.Outcome State Fault Refusal :=
  .next <| if 2 ≤ p then s else s.guarded sess CAN_CTRL.INIT fun t => t.canInit p

/-! ### Buffers and frames -/

/-- The number of a buffer among both ports'. -/
def mbOf (p b : Nat) : Nat := 64 * p + b

/-- Word w of a buffer (R406). -/
def State.mb (s : State) (p b w : Nat) : Nat := s.get CAN_MB.WORD (mbOf p b) w

/-- The role of a buffer: 1 receive, 2 transmit, else off. -/
def State.mbDir (s : State) (p b : Nat) : Nat := s.get CAN_BUF_CTRL.DIR p b

/-- The length in bytes that words 0 and 1 of a frame give (R406). -/
def frameLen (w0 w1 : Nat) : Nat :=
  let dlc := w1 % 16
  if bit w0 30 then 0
  else if dlc ≤ 8 then dlc
  else if !bit w1 4 then 8
  else match dlc with
    | 9 => 12 | 10 => 16 | 11 => 20 | 12 => 24 | 13 => 32 | 14 => 48 | _ => 64

/-- The last word of the frame in a buffer (R406). -/
def State.lastWord (s : State) (p b : Nat) : Nat := 2 + (frameLen (s.mb p b 0) (s.mb p b 1) + 3) / 4

/-- The order in which identifiers win arbitration, lowest first: base identifier, SRR or RTR, IDE, extension, RTR (R401, R410). -/
def arbKey (w0 : Nat) : Nat :=
  let ide := bit w0 29
  let rtr := if bit w0 30 then 1 else 0
  let base := w0 / 2 ^ 18 % 2 ^ 11
  base * 2 ^ 21 + (if ide then 2 ^ 20 + 2 ^ 19 + w0 % 2 ^ 18 * 2 + rtr else rtr * 2 ^ 20)

/-- The queued buffers of a port. -/
def State.txQueue (s : State) (p : Nat) : List Nat :=
  (List.range 64).filter fun b => s.mbDir p b == 2 && s.is CAN_BUF_CTRL.TXREQ p b

/-- The queued buffer whose identifier wins, ties to the lower index (R410). -/
def State.winner (s : State) (p : Nat) : Option Nat :=
  (s.txQueue p).foldl (fun (best : Option Nat) b =>
    match best with
    | none => some b
    | some a => if arbKey (s.mb p b 0) < arbKey (s.mb p a 0) then some b else best) none

/-- The port chooses the buffer it offers (R410). -/
def State.canPick (s : State) (p : Nat) : State :=
  let o := eraseKey p s.can.offer
  if s.canSt p = 3 ∧ s.get CAN_CTRL.MODE p ≠ 1 then
    match s.winner p with
    | some b => { s with can := { s.can with offer := (p, b) :: o } }
    | none => { s with can := { s.can with offer := o } }
  else { s with can := { s.can with offer := o } }

/-- The port offers a buffer where it has none on offer. -/
def State.canOffer (s : State) (p : Nat) : State := if (lookupKey p s.can.offer).isSome then s else s.canPick p

/-- A buffer is overrun (R407, R408): event 0x0E05 at most once per second per port (R412). -/
def State.overrun (s : State) (p b : Nat) : State :=
  let s1 := s.put CAN_BUF_CTRL.OVR 1 p b
  if lookupKey p s.can.ovrAt = some s.rtc then s1
  else { s1 with can := { s1.can with ovrAt := (p, s.rtc) :: eraseKey p s1.can.ovrAt } }.log 0x0E05 WARNING [p, b]

/-- The 16-bit little-endian value at a byte of a frame's data (R324, R355). -/
def frame16 (words : List Nat) (ofs : Nat) : Nat :=
  let byte := fun (i : Nat) => words.getD (3 + i / 4) 0 / 2 ^ (8 * (i % 4)) % 256
  byte ofs + 256 * byte (ofs + 1)

/-- A frame is stored in its buffer (R406, R407), and the Vehicle Session and Thermal take it (R409). -/
def State.canStore (s : State) (p : Nat) (r : CanRec) : State :=
  let b := r.buf
  let s1 := s.each 19 fun w t => t.put CAN_MB.WORD (r.words.getD w 0) (mbOf p b) w
  let s2 := if s.is CAN_BUF_CTRL.NEW p b then s1.overrun p b else s1.put CAN_BUF_CTRL.NEW 1 p b
  let s3 := s2.each 2 fun c t =>
    if t.vsRuns c ∧ t.get VS_IMD_CFG.PORT c = p ∧ t.get VS_IMD_CFG.BUF c = b then
      t.imdTake c (frame16 r.words (t.get VS_IMD_CFG.OFS c))
    else t
  s3.each 4 fun f t =>
    if t.runs 10 ∧ t.get TH_FLOW_CFG.PORT f = p ∧ t.get TH_FLOW_CFG.BUF f = b then
      t.flowValue f (frame16 r.words (t.get TH_FLOW_CFG.OFS f))
    else t

/-- A received frame goes to its buffer, or to the hold slot while that buffer is locked (R408). -/
def State.canArrive (s : State) (p : Nat) (r : CanRec) : State :=
  if s.is CAN_BUF_CTRL.LOCK p r.buf then
    let s1 := if (lookupKey p s.can.hold).isSome then s.overrun p r.buf else s
    { s1 with can := { s1.can with hold := (p, r) :: eraseKey p s1.can.hold } }
  else s.canStore p r

/-- The buffer of a port that is locked (R408). -/
def State.lockOf (s : State) (p : Nat) : Option Nat := (List.range 64).find? fun b => s.is CAN_BUF_CTRL.LOCK p b

/-- The lock of a port is released, and its hold slot is copied in (R408), while the buffer is a receive buffer (R409). -/
def State.canUnlock (s : State) (p : Nat) : State :=
  match s.lockOf p with
  | none => s
  | some b =>
    let s1 := s.put CAN_BUF_CTRL.LOCK 0 p b
    match lookupKey p s1.can.hold with
    | some r =>
      let s2 := { s1 with can := { s1.can with hold := eraseKey p s1.can.hold } }
      if s.mbDir p r.buf = 1 then s2.canStore p r else s2
    | none => s1

/-- The filter of a port takes a frame, by its words 0 and 1 (R407). -/
def State.filterTakes (s : State) (p f w0 w1 : Nat) : Bool :=
  let id := CAN_FLT_ID.FID
  let kind := s.get CAN_FLT_DST.KIND p f
  s.is CAN_FLT_ID.FEN p f && decide (Nat.land (Nat.xor (w0 % 2 ^ 29) (s.get id p f)) (s.get CAN_FLT_MASK.MASK p f) = 0) &&
    bit w0 29 == s.is CAN_FLT_ID.FIDE p f && !(kind == 1 && bit w1 4) && !(kind == 2 && !bit w1 4) &&
    s.mbDir p (s.get CAN_FLT_DST.BUF p f) == 1

/-- A frame is compared with the filters in ascending number and stored, or counted in `NOMATCH` (R407); `sof` holds the stamp of
its SOF. -/
def State.canMatch (s : State) (p w0 w1 sof : Nat) (data : List Nat) : State :=
  match (List.range 32).find? fun f => s.filterTakes p f w0 w1 with
  | none => s.inc CAN_CNT.NOMATCH p
  | some f =>
    let n := frameLen w0 w1
    let byte := fun (i : Nat) => if i < n then data.getD i 0 % 256 else 0
    let word := fun (w : Nat) => byte (4 * w) + 256 * byte (4 * w + 1) + 65536 * byte (4 * w + 2) + 16777216 * byte (4 * w + 3)
    s.canArrive p ⟨s.get CAN_FLT_DST.BUF p f, [w0 % 2 ^ 31, w1 % 128 + 256 * f, sof % 2 ^ 32] ++ (List.range 16).map word⟩

/-- The error counters that the standard gives after a frame: `TEC` saturates, `REC` shows bits 6:0 with bit 7 set while it is above
127 (R404). -/
def State.canCounters (s : State) (p tec rec_ : Nat) : State :=
  (s.putMax CAN_STAT.TEC tec p).put CAN_STAT.REC (rec_ % 128 + if 127 < rec_ then 128 else 0) p

/-- The error with which a reception ends, as `LEC` codes it, 0 for none: bits 10:8 of word 1; an FD frame with the res bit, bit 7, recessive is a
form error (R401). -/
def rxError (w1 : Nat) : Nat := if bit w1 4 && bit w1 7 then 2 else if w1 / 256 % 8 = 7 then 0 else w1 / 256 % 8

/-- CAN_FRAME_RECEIVE (R401, R404, R407 to R410): words 0 and 1 of R406, the SOF stamp, the data and the error counters after the frame.
A frame that ends with an error is not taken. With `FD_EN` = 0 no FD frame is received. -/
def execCanFrameReceive (p w0 w1 sof : Nat) (data : List Nat) (tec rec_ : Nat) (s : State) :
    Host.Outcome State Fault Refusal :=
  .next <|
    if s.canTraffic p && (!bit w1 4 || s.is CAN_CTRL.FD_EN p) then
      let s1 := s.canCounters p tec rec_
      ((if rxError w1 = 0 then s1.canMatch p w0 w1 sof data else s1.put CAN_STAT.LEC (rxError w1) p).canPick p).canEnded p
    else s

/-- A read of word w of a buffer (R408): word 0 locks a receive buffer, its last word clears `LOCK` and `NEW`. -/
def State.canRead (s : State) (p b w : Nat) : State :=
  if s.mbDir p b ≠ 1 then s
  else if w = 0 then
    if s.is CAN_BUF_CTRL.LOCK p b then s else (s.canUnlock p).put CAN_BUF_CTRL.LOCK 1 p b
  else if w = s.lastWord p b then
    let s1 := s.put CAN_BUF_CTRL.NEW 0 p b
    if s.is CAN_BUF_CTRL.LOCK p b then s1.canUnlock p else s1
  else s

/-- BUFFER_LOCK (R408): a read of word 0. -/
def execBufferLock (p b : Nat) (s : State) : Host.Outcome State Fault Refusal :=
  .next <| if p < 2 ∧ b < 64 ∧ s.runs 9 then s.canRead p b 0 else s

/-- BUFFER_READ_COMPLETE (R408): a read of the last word. -/
def execBufferReadComplete (p b : Nat) (s : State) : Host.Outcome State Fault Refusal :=
  .next <| if p < 2 ∧ b < 64 ∧ s.runs 9 then s.canRead p b (s.lastWord p b) else s

/-- LOCK_TIMEOUT (R408): the µs for which the lock has been held. -/
def execLockTimeout (p us : Nat) (s : State) : Host.Outcome State Fault Refusal :=
  .next <|
    match s.lockOf p with
    | some b => if p < 2 ∧ s.runs 9 ∧ 1000 ≤ us then (s.put CAN_BUF_CTRL.TORN 1 p b).canUnlock p else s
    | none => s

/-- UNLOCK (R408). -/
def execUnlock (sess p : Nat) (s : State) : Host.Outcome State Fault Refusal :=
  .next <| if 2 ≤ p then s else s.guarded sess CAN_CTRL.UNLOCK fun t => t.canUnlock p

/-! ### Transmission -/

/-- A write of 1 to `TXREQ` (R410). -/
def State.txRequest (s : State) (p b : Nat) : State :=
  let fd := bit (s.mb p b 1) 4
  if s.mbDir p b ≠ 2 ∨ s.get CAN_CTRL.MODE p = 1 ∨ (fd ∧ !s.is CAN_CTRL.FD_EN p) ∨ (fd ∧ bit (s.mb p b 0) 30) then s
  else (s.put CAN_BUF_CTRL.TXREQ 1 p b).canOffer p

/-- TRANSMIT_REQUEST (R410). -/
def execTransmitRequest (sess p b : Nat) (s : State) : Host.Outcome State Fault Refusal :=
  .next <| if 2 ≤ p ∨ 64 ≤ b then s else s.guarded sess CAN_BUF_CTRL.TXREQ fun t => t.txRequest p b

/-- A frame in buffer b is sent with BRS, so that its loop delay is measured (R403). -/
def State.tdcFrame (s : State) (p b : Nat) : Bool :=
  s.is CAN_CTRL.TDC_EN p && s.is CAN_CTRL.BRS_EN p && bit (s.mb p b 1) 4 && bit (s.mb p b 1) 5

/-- The measured loop delay (R403): one below `TDCF` is ignored. -/
def State.tdcTake (s : State) (p b delay : Nat) : State :=
  if s.tdcFrame p b && decide (s.get CAN_TDC.TDCF p ≤ delay) then s.putMax CAN_TDC.TDCV delay p else s

/-- The secondary sample point lies too late (R403). -/
def State.tdcLate (s : State) (p b delay : Nat) : Bool :=
  s.tdcFrame p b &&
    decide (127 < (if s.get CAN_TDC.TDCF p ≤ delay then delay else s.get CAN_TDC.TDCV p) + s.get CAN_TDC.TDCO p)

/-- The request of a buffer is no longer queued. -/
def State.txDone (s : State) (p b : Nat) : State :=
  { s.put CAN_BUF_CTRL.TXREQ 0 p b with
    can := { s.can with aborts := s.can.aborts.filter fun (x : Nat) => decide (x ≠ mbOf p b), offer := eraseKey p s.can.offer } }

/-- The offered frame has not been sent (R410, R411): `lec` is the error, 0 for lost arbitration, at which an abort takes effect. -/
def State.txFail (s : State) (p b lec : Nat) : State :=
  let s1 := if lec = 0 then s else s.put CAN_STAT.LEC (lec % 8) p
  let gone := s.can.aborts.contains (mbOf p b)
  let s2 :=
    if s.is CAN_BUF_CTRL.ONESHOT p b then
      ((s1.txDone p b).put CAN_BUF_CTRL.TXFAIL 1 p b).log 0x0E06 WARNING [p, b]
    else if gone ∧ lec = 0 then s1.txDone p b
    else s1
  (s2.canPick p).canEnded p

/-- Word 1 of a frame as it is sent (R401): `BRS` where the port may switch its bit rate, `ESI` while it is error passive; neither in a classical
frame. -/
def State.sentWord1 (s : State) (p w1 : Nat) : Nat :=
  if bit w1 4 then w1 % 32 + (if bit w1 5 && s.is CAN_CTRL.BRS_EN p then 32 else 0) + if s.is CAN_STAT.EPASS p then 64 else 0
  else w1 % 32

/-- A frame for which the secondary sample point lies too late is abandoned with a bit error (R403); the manual does not say with
which of the two. -/
def State.tdcAbandon (s : State) (p b : Nat) : State :=
  let r := s.free 1
  (r.2.put CAN_TDC.TDC_RANGE 1 p).txFail p b (4 + r.1)

/-- TRANSMIT_COMPLETE (R403, R407, R410): the measured loop delay in protocol-clock periods, the SOF stamp, the error counters after
the frame. The port's own frame is received in the loopback modes. -/
def execTransmitComplete (p delay sof tec rec_ : Nat) (s : State) : Host.Outcome State Fault Refusal :=
  .next <|
    match lookupKey p s.can.offer with
    | none => s
    | some b =>
      if !s.canTraffic p then s
      else if s.tdcLate p b delay then ((s.tdcTake p b delay).canCounters p tec rec_).tdcAbandon p b
      else
        let w0 := s.mb p b 0
        let w1 := s.sentWord1 p (s.mb p b 1)
        let data := ((List.range 16).flatMap fun w => leBytes 4 (s.mb p b (3 + w))).take (frameLen w0 w1)
        let m := s.get CAN_CTRL.MODE p
        let s1 := ((s.tdcTake p b delay).canCounters p tec rec_).txDone p b
        let s2 := s1.put CAN_BUF_CTRL.TXOK 1 p b
        let s3 := if m = 2 then s2 else s2.emit .can p ([w0, w1] ++ data)
        let s4 := if 2 ≤ m then s3.canMatch p w0 w1 sof data else s3
        (s4.canPick p).canEnded p

/-- TRANSMIT_FAIL (R403, R410, R411): the error as `LEC` codes it, 0 for lost arbitration, the measured loop delay, none where the error came before
it was measured, and the error counters after the frame. -/
def execTransmitFail (p lec : Nat) (delay : Option Nat) (tec rec_ : Nat) (s : State) : Host.Outcome State Fault Refusal :=
  .next <|
    match lookupKey p s.can.offer with
    | none => s
    | some b =>
      if !s.canTraffic p then s
      else match (if lec = 0 then none else delay) with
        | some d =>
          let s1 := (s.tdcTake p b d).canCounters p tec rec_
          if s.tdcLate p b d then s1.tdcAbandon p b else s1.txFail p b (if lec < 7 then lec else 0)
        | none => (s.canCounters p tec rec_).txFail p b (if lec < 7 then lec else 0)

/-- A write of 1 to `ABORT` (R410, R411): a frame on the bus completes, and the request is removed if arbitration is lost. -/
def State.txAbort (s : State) (p b : Nat) (onBus : Bool) : State :=
  if !s.is CAN_BUF_CTRL.TXREQ p b then s
  else if onBus ∧ lookupKey p s.can.offer = some b then { s with can := { s.can with aborts := mbOf p b :: s.can.aborts } }
  else if lookupKey p s.can.offer = some b then (s.txDone p b).canPick p
  else s.put CAN_BUF_CTRL.TXREQ 0 p b

/-- ABORT (R410): whether the frame is on the bus. -/
def execAbort (sess p b : Nat) (onBus : Bool) (s : State) : Host.Outcome State Fault Refusal :=
  .next <| if 2 ≤ p ∨ 64 ≤ b then s else s.guarded sess CAN_BUF_CTRL.ABORT fun t => t.txAbort p b onBus

/-! ### Error confinement -/

/-- CAN_SYNC (R404): the consecutive recessive bits. -/
def execCanSync (p n : Nat) (s : State) : Host.Outcome State Fault Refusal :=
  .next <| if s.canIn p 2 && decide (11 ≤ n) then (s.put CAN_STAT.STATE 3 p).canPick p else s

/-- At a bus-off no buffer is offered, and a request that has been aborted goes (R411). -/
def State.busOffQueue (s : State) (p : Nat) : State :=
  let t := s.each 64 fun b t => if s.can.aborts.contains (mbOf p b) then t.txDone p b else t
  { t with can := { t.can with offer := eraseKey p t.can.offer } }

/-- BUS_OFF (R404, R405): the transmit error counter and the error that has raised it. -/
def execBusOff (p tec lec : Nat) (s : State) : Host.Outcome State Fault Refusal :=
  .next <|
    if s.canIn p 3 && decide (255 < tec) then
      let mx := s.get CAN_CTRL.BO_MAX p
      let s1 := (((s.put CAN_STAT.STATE 4 p).putMax CAN_STAT.TEC tec p).put CAN_STAT.EPASS 0 p).inc CAN_CNT.BO_CNT p
      let s2 := s1.put CAN_STAT.LEC (lec % 8) p
      let s3 := (s2.busOffQueue p).log 0x0E02 FAULT [p]
      if mx ≠ 0 ∧ s.get CAN_STAT.BO_RUN p = mx then
        { s3 with can := { s3.can with held := setBit s3.can.held p } }.log 0x0E04 FAULT [p]
      else s3
    else s

/-- BUS_OFF_WAIT (R404, R405): the ms since the bus-off. -/
def execBusOffWait (p ms : Nat) (s : State) : Host.Outcome State Fault Refusal :=
  .next <|
    if s.canIn p 4 && s.is CAN_CTRL.BO_AUTO p && !bit s.can.held p && decide (s.get CAN_CTRL.BO_WAIT p ≤ ms) then
      s.put CAN_STAT.STATE 5 p
    else s

/-- A write of 1 to `RECOVER` (R404, R405). -/
def State.canRecover (s : State) (p : Nat) : State :=
  if s.canIn p 4 then { s.put CAN_STAT.STATE 5 p with can := { s.can with held := clrBit s.can.held p } } else s

/-- RECOVER (R404, R405). -/
def execRecover (sess p : Nat) (s : State) : Host.Outcome State Fault Refusal :=
  .next <| if 2 ≤ p then s else s.guarded sess CAN_CTRL.RECOVER fun t => t.canRecover p

/-- BUS_OFF_RECOVERED (R404, R405): the occurrences of 11 consecutive recessive bits. -/
def execBusOffRecovered (p n : Nat) (s : State) : Host.Outcome State Fault Refusal :=
  .next <|
    if s.canIn p 5 && decide (128 ≤ n) then
      let s1 := (((s.put CAN_STAT.STATE 3 p).put CAN_STAT.TEC 0 p).put CAN_STAT.REC 0 p).inc CAN_STAT.BO_RUN p
      (s1.log 0x0E03 NOTICE [p, 0, s1.get CAN_STAT.BO_RUN p]).canPick p
    else s

/-- ERROR_PASSIVE (R404, R412): the error counters. -/
def execErrorPassive (p tec rec_ : Nat) (s : State) : Host.Outcome State Fault Refusal :=
  .next <|
    if s.canIn p 3 && (decide (127 < tec) || decide (127 < rec_)) && !s.is CAN_STAT.EPASS p then
      let s1 := (s.canCounters p tec rec_).put CAN_STAT.EPASS 1 p
      s1.log 0x0E01 WARNING [p, 0, s1.get CAN_STAT.TEC p, s1.get CAN_STAT.REC p]
    else s

/-- ERROR_ACTIVE (R404, R412): the error counters. -/
def execErrorActive (p tec rec_ : Nat) (s : State) : Host.Outcome State Fault Refusal :=
  .next <|
    if s.canIn p 3 && decide (tec < 128) && decide (rec_ < 128) && s.is CAN_STAT.EPASS p then
      ((s.canCounters p tec rec_).put CAN_STAT.EPASS 0 p).log 0x0E08 INFO [p]
    else s

/-- BO_RUN_CLEAR (R405): the ms in ACTIVE without a bus-off. -/
def execBoRunClear (p ms : Nat) (s : State) : Host.Outcome State Fault Refusal :=
  .next <| if s.canIn p 3 && decide (10000 ≤ ms) then s.put CAN_STAT.BO_RUN 0 p else s

end Sys2Proof.Machine
end

