-- ==== Sys2Proof/Machine/Cells.lean ====
section
/-! DEFINITION. The Cell Supervisor (spec/15_buffer_battery.md): the ring and its partition, sweeps, recollects, balancing and
limits, and what each of its commands does. Units are named by their ring index, from 1. A command whose condition the manual
states and the state does not meet leaves the state unchanged. -/

namespace Sys2Proof.Machine

open R

/-- The Cell Supervisor may run (R361). -/
def State.csOn (s : State) : Bool := s.runs 9 && s.role 3 && s.is CS_CTRL.EN

/-- Its state (R376): 0 OFF, 1 WAKE, 2 DISCOVER, 3 RUN, 4 RECOLLECT. -/
def State.csState (s : State) : Nat := s.get CS_STAT.STATE

/-- Units configured, at most 64. -/
def State.nCfg (s : State) : Nat := min 64 (s.get CS_CFG2.N_CFG)

/-- The units found, in rising order. -/
def State.units (s : State) : List Nat := (List.range 65).filter fun u => bit s.cs.found u

/-- Wake frames leave both ends (R365, R375). -/
def State.csWake (s : State) : State :=
  ((s.put CS_STAT.STATE 1).emit .ringWake 0 [7, s.cs.attempts + 1]).emit .ringWake 1 [7 + 16, s.cs.attempts + 1]

/-- A discovery frame leaves an end (R365). -/
def State.discover (s : State) (dir pass : Nat) : State := s.emit .ringDiscovery dir [5 + 16 * dir, 0, pass]

/-- What is left of the Cell Supervisor where it starts anew without a reset of D9: the orders, which `PEND` shows (R377; DEDUCED, log 140). -/
def Cs.anew (c : Cs) : Cs := { seq := c.seq, orders := c.orders, sent := c.sent, ends := c.ends }

/-- CS_WAKE (R375, R376). -/
def execCsWake (s : State) : Host.Outcome State Fault Refusal :=
  .next <|
    if s.csOn && s.csState == 0 then ({ s with cs := s.cs.anew }.csWake).log 0x0C0E NOTICE else s

/-- The partition is set: the units served from RF0, and the half of every unit (R361, R373). -/
def State.partition (s : State) (ha : Nat) : State :=
  (s.put CS_STAT.H_A ha).each 64 fun i t => t.putb CS_UNIT_STAT.HALF (ha < i + 1) i

/-- `PER_ACT` and `T_SWEEP` follow the partition (R371); a change is logged. -/
def State.perShow (s : State) : State :=
  let n := min 255 s.perAct
  let s1 := (s.put CS_PER.T_SWEEP s.tSweep).put CS_PER.PER_ACT n
  if s.get CS_PER.PER_ACT = n then s1 else s1.log 0x0C09 INFO ([0, 0] ++ leBytes 2 n)

/-- The serial numbers found are compared with those expected (R376). -/
def State.serialCheck (s : State) (ser : List (Nat × Nat)) : State :=
  ser.foldl (fun (t : State) (p : Nat × Nat) =>
    if 1 ≤ p.1 ∧ p.1 ≤ 64 then
      let bad := decide (p.2 ≠ t.get2 CS_UNIT_SER_LO.SER_LO CS_UNIT_SER_HI.SER_HI (p.1 - 1))
      let t1 := t.putb CS_UNIT_STAT.MISMATCH bad (p.1 - 1)
      if bad then (t1.put CS_STAT.ORDER_ERR 1).log 0x0C08 WARNING [p.1 - 1, 0] else t1
    else t) (s.put CS_STAT.ORDER_ERR 0)

/-- The first snap instant of the schedule: the first half-cycle boundary + `SNAP_OFS` for which a sync can still leave (R371). -/
def State.firstSnap (s : State) : Nat :=
  let ofs := s.get CS_SNAP_OFS.SNAP_OFS
  (s.stamp + s.tenthMsAu s.snapDly + halfCycleAu - 1 - ofs) / halfCycleAu * halfCycleAu + ofs

/-- The ring runs (R376): `na` units answer RF0 and `nb` units answer RF1 of `size`; the units between them are not found. A unit that was LOST
is OK only at its next snapped record (R379). `BROKEN` reads 1 where the two ends reach every unit between them (DEDUCED, log 140); after a
third attempt with units missing no break has been recorded. -/
def State.ringRun (s : State) (size na nb : Nat) (through : Bool) : State :=
  let ok := fun (u : Nat) => decide (u ≤ na) || decide (size < u + nb)
  let found := (List.range 65).foldl (fun m u => if 1 ≤ u && decide (u ≤ size) && ok u then setBit m u else m) 0
  let s1 := { s with cs := { s.cs with size := size, found := found, attempts := 0, sweeping := true, snap := none, since := 0 } }
  let s2 := s1.each 64 fun i t =>
    if i < size then (if ok (i + 1) && t.get CS_UNIT_STAT.STATE i != 3 then t.put CS_UNIT_STAT.STATE 1 i else t.put CS_UNIT_STAT.STATE 3 i) else t.put CS_UNIT_STAT.STATE 0 i
  let n := ((List.range 65).filter fun u => bit found u).length
  let s3 := (s2.put CS_STAT.N n).put CS_STAT.STATE 3
  let s4 := if through then ((s3.put CS_STAT.BROKEN 0).put CS_STAT.BRK_AT 0x7F).partition ((size + 1) / 2)
    else if n = size then ((s3.put CS_STAT.BROKEN 1).put CS_STAT.BRK_AT na).partition na
    else ((s3.put CS_STAT.BROKEN 0).put CS_STAT.BRK_AT 0x7F).partition na
  { s4 with cs := { s4.cs with first := some s4.firstSnap } }.perShow

/-- Event 0x0C01: the ring runs. -/
def State.ringLog (s : State) : State := s.log 0x0C01 NOTICE [0, 0, s.get CS_STAT.N, s.get CS_STAT.H_A]

/-- The ms for which WAKE lasts (R375). -/
def State.wakeMs (s : State) : Nat := s.nCfg * 56 + 100

/-- DISCOVERY (R375, R376): the ms in WAKE, whether the pass from RF0 has reached RF1, the units that answer each end, and the
serial numbers of the identity frames by ring index. -/
def execDiscovery (ms : Nat) (through : Bool) (na nb : Nat) (ser : List (Nat × Nat)) (s : State) : Host.Outcome State Fault Refusal :=
  .next <|
    if s.csOn && ((s.csState == 1 && decide (s.wakeMs ≤ ms)) || s.csState == 2) then
      let s1 := (s.put CS_STAT.STATE 2).discover 0 (s.cs.attempts + 1)
      if through then
        if 1 ≤ na ∧ na ≤ 64 then (s1.ringRun na na 0 true).ringLog.serialCheck ser else s1
      else
        let s2 := s1.discover 1 (s.cs.attempts + 1)
        if na + nb = s.nCfg ∧ 1 ≤ s.nCfg then (s2.ringRun s.nCfg na nb false).ringLog.serialCheck ser else s2
    else s

/-- DISCOVERY_ATTEMPT_END (R376): an attempt ends without every configured unit; `na` and `nb` units have answered the ends. After
the third, the units not found are LOST. -/
def execDiscoveryAttemptEnd (na nb : Nat) (ser : List (Nat × Nat)) (s : State) : Host.Outcome State Fault Refusal :=
  .next <|
    if s.csOn && s.csState == 2 && decide (na + nb < s.nCfg) then
      let n := s.cs.attempts + 1
      if n < 3 then { s with cs := { s.cs with attempts := n } }.csWake
      else
        let size := s.nCfg
        let s1 := (s.ringRun size na nb false).serialCheck ser
        s1.each size fun i t =>
          if !bit s1.cs.found (i + 1) then ((t.put CS_UNIT_STAT.LOST_SEEN 1 i).put CS_SEEN.LOST_SEEN 1).log 0x0C06 FAULT [i] else t
    else s

/-! ### Sweeps (R366 to R371) -/

/-- A launched start of sweeping that waits in the action queue (R381). -/
def State.launchedStart (s : State) : Option Nat :=
  ((s.fab.la.find? fun a => a.ep == 0x01A && a.op == 1).map fun a => a.target).filter fun t => s.cs.snap != some t

/-- The next snap instant: `PER_ACT` half-cycles after the last instant of the schedule, else its first (R371). -/
def State.nextSnap (s : State) : Nat :=
  match s.cs.snap with
  | some t => t + s.get CS_PER.PER_ACT * halfCycleAu
  | none => s.cs.first.getD s.firstSnap

/-- A collection or a recollect runs, or has ended less than 26 ms before (R371). -/
def State.ringBusy (s : State) : Bool := s.cs.busy || s.csState == 4 || decide (s.stamp < s.cs.endAt + s.tenthMsAu 260)

/-- A sweep with its snap at a stamp would not be over 26 ms before the sync of an accepted start leaves (R381). -/
def State.inTheWay (s : State) (snap : Nat) : Bool :=
  s.launchedStart.any fun t => decide (t < snap + s.tenthMsAu (20 + (3 * s.hMax - 2) * 20 + 260 + s.snapDly))

/-- The µs since the previous sync. -/
def State.sinceSync (s : State) : Nat :=
  let f := s.tb.floc
  if f = 0 then 0 else (s.stamp - s.cs.syncAt) * (10 ^ 9 * mHz) / (f * 2 ^ 24)

/-- A sync leaves both ends (R365, R366). -/
def State.sendSync (s : State) (k : Sent) (flags : Nat) : State :=
  let us := min s.sinceSync (2 ^ 24 - 1)
  let fr := fun (dir : Nat) => [1 + 16 * dir, 0, s.cs.size, s.get CS_STAT.H_A, s.cs.num, flags] ++ leBytes 3 us
  { (s.emit k 0 (fr 0)).emit k 1 (fr 1) with cs := { s.cs with syncAt := s.stamp } }

/-- SWEEP_SYNC (R366, R371): at T_sync both ends send syncs that fix the snap; the sweep is skipped where a collection or a
recollect runs or has ended less than 26 ms before, and its number is passed over. A sweep of the schedule that would hold up the sync of an
accepted start is skipped too (R381; DEDUCED, log 140). Every 40th sweep of a broken ring that is not skipped is left to the heal probe (R374, R382). -/
def execSweepSync (s : State) : Host.Outcome State Fault Refusal :=
  .next <|
    let dly := s.tenthMsAu s.snapDly
    let la := s.launchedStart.filter fun t => t ≤ s.stamp + dly
    let at_ := la.getD s.nextSnap
    if !(s.csOn && (s.csState == 3 || s.csState == 4) && (s.cs.sweeping || la.isSome) && decide (at_ ≤ s.stamp + dly)) then s
    else if s.is CS_STAT.BROKEN && decide (39 ≤ s.cs.since) && !s.ringBusy && la.isNone then s
    else
      let num := (s.cs.num + 1) % 256
      let s1 := { s with cs := { s.cs with snap := some at_, num := num, since := if s.is CS_STAT.BROKEN then s.cs.since + 1 else 0 } }
      if s.ringBusy || (la.isNone && s.inTheWay at_) then
        ((s1.inc CS_CNT0.SKIPPED).put CS_SEEN.SKIP_SEEN 1).log 0x0C05 WARNING [0, 0, num]
      else
        let s2 := { s1 with cs := { s1.cs with busy := true, paused := s.is CS_CTRL.PAUSE_EN, live := num, cur := at_, curI := none, recs := [], tail := none, again := 0 } }
        (s2.perShow).sendSync .ringSync (1 + (if s.is CS_CTRL.PAUSE_EN then 2 else 0))

/-- KEEPALIVE_SYNC (R371): while sweeps are stopped, 250 ms since the last sync. As at every sync, `PER_ACT` is set. -/
def execKeepaliveSync (ms : Nat) (s : State) : Host.Outcome State Fault Refusal :=
  .next <| if s.csOn && s.csState == 3 && !s.cs.sweeping && !s.cs.busy && decide (250 ≤ ms) then s.perShow.sendSync .ringKeepalive 0 else s

/-- The ring index of position p as seen from an end (R361). -/
def State.ringIdx (s : State) (dir p : Nat) : Nat := if dir = 0 then p else s.cs.size + 1 - p

/-- RECORD_RECEIVE (R365, R370, R372, R377): the end, the origin position, the sweep number, the status, cells, temperatures and
balancing mask of the record, the order sequence that it shows, which clears `PEND` where no newer order waits. A duplicate changes nothing that is held. -/
def execRecordReceive (dir p sweep status : Nat) (cells : List Nat) (t0 t1 : Int) (mask seq : Nat) (s : State) :
    Host.Outcome State Fault Refusal :=
  .next <|
    let u := s.ringIdx dir p
    if s.csOn && s.cs.busy && sweep == s.cs.live && decide (1 ≤ p) && decide (p ≤ s.cs.size) then
      let r : CellRec := { status := status, cells := (List.range 16).map fun c => cells.getD c 0xFFFF % 65536, t0 := t0, t1 := t1, mask := mask, seq := seq }
      let recs := if s.cs.recs.any (fun (q : Nat × CellRec) => q.1 == u) then s.cs.recs else keyPut u r s.cs.recs
      let s1 := { s with cs := { s.cs with recs := recs, again := if s.csState = 4 then setBit s.cs.again u else s.cs.again } }
      if s1.cs.sent.any (fun o => o.u == u && o.seq == seq) && !s1.cs.orders.any (fun o => o.u == u) then s1.put CS_UNIT_BAL.PEND 0 (u - 1) else s1
    else s

/-- The record of a unit in the present sweep. -/
def State.recOf (s : State) (u : Nat) : Option CellRec := (s.cs.recs.find? fun (q : Nat × CellRec) => q.1 == u).map fun q => q.2

/-- A record with its cells snapped. -/
def State.snapped (s : State) (u : Nat) : Bool := match s.recOf u with | some r => bit r.status 0 | none => false

/-- A cell was disturbed: the sweep's sync ordered no pause, and balancing on it or on a neighbour within its unit ran through the snap (R378). -/
def State.disturbed (s : State) (r : CellRec) (c : Nat) : Bool :=
  !s.cs.paused && (bit r.mask c || bit r.mask (c + 1) && decide (c + 1 < 16) || decide (1 ≤ c) && bit r.mask (c - 1))

/-- The cells of a unit after a complete sweep (R369, R378, R379). -/
def State.unitCells (s : State) (u : Nat) : State :=
  s.each 16 fun c t =>
    let k := 16 * (u - 1) + c
    let stale := fun (x : State) => (x.put CS_CELL.FRESH 0 k).inc CS_CELL.AGE k
    match s.recOf u with
    | none => stale t
    | some r =>
      if !bit r.status 0 then stale t
      else
        let v := r.cells.getD c 0xFFFF
        let t1 := ((t.put CS_CELL.V v k).putb CS_CELL.BAL (bit r.mask c) k).putb CS_CELL.DISTURBED (s.disturbed r c) k
        if v = 0xFFFF then (stale (t1.put CS_CELL.FAULT 1 k)).log 0x0C0D WARNING [u - 1, c]
        else ((t1.put CS_CELL.FAULT 0 k).put CS_CELL.FRESH 1 k).put CS_CELL.AGE 0 k

/-- A unit's state after a complete sweep (R379). -/
def State.unitState (s : State) (u : Nat) : State :=
  let i := u - 1
  let st := s.get CS_UNIT_STAT.STATE i
  if s.snapped u then
    let r := s.recOf u
    let s1 := match r with
      | some r => (s.puti CS_UNIT_STAT.T0 r.t0 i).puti CS_UNIT_STAT.T1 r.t1 i
      | none => s
    let s2 := (s1.put CS_UNIT_STAT.MISS_CNT 0 i).put CS_UNIT_STAT.STATE 1 i
    if st = 3 then s2.log 0x0C07 NOTICE [i] else s2
  else
    let s1 := s.inc CS_UNIT_STAT.MISS_CNT i
    if st = 3 then s1
    else if max 1 (s.get CS_CTRL.LOST_N) ≤ s1.get CS_UNIT_STAT.MISS_CNT i then
      let s2 := (((s1.put CS_UNIT_STAT.STATE 3 i).put CS_UNIT_STAT.LOST_SEEN 1 i).put CS_SEEN.LOST_SEEN 1).log 0x0C06 FAULT [i]
      if s.is CS_CTRL.LOST_ACT then s2.reqSafeOff 6 0x0C06 else s2
    else s1.put CS_UNIT_STAT.STATE 2 i

/-- The cells that are used under R377 and R380: fresh and not disturbed. -/
def State.usedCells (s : State) : List Nat :=
  (List.range (16 * s.cs.size)).filter fun k => s.is CS_CELL.FRESH k && !s.is CS_CELL.DISTURBED k

/-- One limit of R380: two complete sweeps in a row beyond it. -/
def State.limitOne (s : State) (n code : Nat) (pay : List Nat) : State :=
  if n = 2 then
    let s1 := (s.put CS_SEEN.LIM_SEEN 1).log code FAULT pay
    if s.is CS_CTRL.PROT_ACT then s1.reqSafeOff 6 code else s1
  else s

/-- The limits of R380. A cell or a unit that a sweep does not check starts again from its next check. -/
def State.cellLimits (s : State) : State :=
  let s0 := { s with cs := { s.cs with high := [], low := [], hot := [] } }
  let s1 := s.usedCells.foldl (fun (t : State) k =>
    let v := s.get CS_CELL.V k
    let o := if s.get CS_LIM_V.V_OV < v then min 3 (sparseGet 0 k s.cs.high + 1) else 0
    let n := if v < s.get CS_LIM_V.V_UV then min 3 (sparseGet 0 k s.cs.low + 1) else 0
    let t1 := { t with cs := { t.cs with high := sparsePut 0 k o t.cs.high, low := sparsePut 0 k n t.cs.low } }
    (t1.limitOne o 0x0C0A ([k / 16, k % 16] ++ leBytes 2 v)).limitOne n 0x0C0B ([k / 16, k % 16] ++ leBytes 2 v)) s0
  ((List.range s1.cs.size).map fun i => i + 1).foldl (fun (t : State) u =>
    if t.snapped u then
      let v := max (t.geti CS_UNIT_STAT.T0 (u - 1)) (t.geti CS_UNIT_STAT.T1 (u - 1))
      let n := if (s.get CS_LIM_B.T_MAX : Int) < v then min 3 (sparseGet 0 u s.cs.hot + 1) else 0
      { t with cs := { t.cs with hot := sparsePut 0 u n t.cs.hot } }.limitOne n 0x0C0C [u - 1, 0, ofSigned 8 v]
    else t) s1

/-- The extremes, and their values for the Loop Engine (R380). -/
def State.extremes (s : State) : State :=
  match s.usedCells with
  | [] => s
  | k :: l =>
    let lo := l.foldl (fun b x => if s.get CS_CELL.V x < s.get CS_CELL.V b then x else b) k
    let hi := l.foldl (fun b x => if s.get CS_CELL.V b < s.get CS_CELL.V x then x else b) k
    let s1 := ((s.put CS_VEXT.VMIN (s.get CS_CELL.V lo)).put CS_VEXT.VMAX (s.get CS_CELL.V hi)).put CS_VEXT_IDX.VMIN_IDX lo
    let out := fun (t : State) (idx k : Nat) => if idx < 16 then t.put LE_PARAM.VALUE (fOfRatio (s.get CS_CELL.V k) 10000).toNat idx else t
    out (out (s1.put CS_VEXT_IDX.VMAX_IDX hi) (s.get CS_CFG2.PVMAX) hi) (s.get CS_CFG2.PVMIN) lo

/-- An order is queued for the next command window (R377). -/
def State.queueOrder (s : State) (u mask dur : Nat) : State :=
  let seq := (s.cs.seq + 1) % 256
  let o : CellOrder := { u := u, mask := mask, dur := min dur 60, seq := seq }
  { s with cs := { s.cs with orders := s.cs.orders.filter (fun (x : CellOrder) => x.u != u) ++ [o], seq := seq } }.put CS_UNIT_BAL.PEND 1 (u - 1)

/-- The orders that the module makes itself after a complete sweep (R377). -/
def State.autoBalance (s : State) : State :=
  if !s.is CS_CTRL.BAL_AUTO || s.usedCells.isEmpty then s
  else
    let vmin := s.get CS_VEXT.VMIN
    ((List.range s.cs.size).map fun i => i + 1).foldl (fun (t : State) u =>
      let mask := (List.range 16).foldl (fun m c =>
        let k := 16 * (u - 1) + c
        let v := s.get CS_CELL.V k
        if s.is CS_CELL.FRESH k && !s.is CS_CELL.DISTURBED k && decide (s.get CS_LIM_B.BAL_VMIN ≤ v) &&
            decide (vmin + 10 * s.get CS_LIM_B.BAL_DV < v) then setBit m c else m) 0
      let old := match t.cs.sent.find? (fun o => o.u == u) with | some o => if o.dur = 0 then 0 else o.mask | none => 0
      let ending := decide (sparseGet 0 u t.cs.ends ≤ t.stamp + t.tenthMsAu 20000)
      if mask = old ∧ (mask = 0 ∨ ¬ ending) then t else t.queueOrder u mask (if mask = 0 then 0 else 10)) s

/-- An order leaves its end (R365, R377). -/
def State.sendOrder (s : State) (o : CellOrder) : State :=
  let dir := if o.u ≤ s.get CS_STAT.H_A then 0 else 1
  let s1 := s.emit .ringOrder dir ([4 + 16 * dir, 0, s.ringIdx dir o.u] ++ leBytes 2 o.mask ++ [o.dur, o.seq])
  { s1 with cs := { s1.cs with
      sent := s1.cs.sent.filter (fun (x : CellOrder) => x.u != o.u) ++ [o], ends := sparsePut 0 o.u (s.stamp + s.tenthMsAu (10000 * o.dur)) s1.cs.ends } }

/-- The command window (R371, R377): up to ten orders per half, nearest position first; the others wait. -/
def State.commandWindow (s : State) : State :=
  let pick := fun (dir : Nat) =>
    ((s.cs.orders.filter fun o => decide (o.u ≤ s.get CS_STAT.H_A) == (dir == 0)).insertionSort fun a b =>
      s.ringIdx dir a.u ≤ s.ringIdx dir b.u).take 10
  let go := pick 0 ++ pick 1
  go.foldl State.sendOrder { s with cs := { s.cs with orders := s.cs.orders.filter fun o => !go.any fun x => x.u == o.u } }

/-- A sweep is complete (R369): cells, units, limits, extremes and orders. -/
def State.sweepDone (s : State) : State :=
  let miss := (s.units.filter fun u => !s.snapped u).length
  let s1 := (List.range s.cs.size).foldl (fun t i => (t.unitCells (i + 1)).unitState (i + 1)) s
  let s2 := ((s1.put CS_SWEEP.SWEEP s.cs.live).put CS_SWEEP.MISS miss).put2 CS_SWEEP_STAMP_LO.STAMP CS_SWEEP_STAMP_HI.STAMP s.cs.cur
  let s3 := match s.cs.curI with
    | some i => (s2.puti CS_SWEEP_I.I i).put CS_SWEEP.I_VALID 1
    | none => (s2.put CS_SWEEP_I.I 0x80000000).put CS_SWEEP.I_VALID 0
  let s4 := (s3.inc CS_CNT0.SWEEPS).extremes.cellLimits
  let s5 := { s4.autoBalance with cs := { s4.autoBalance.cs with busy := false, endAt := s.stamp, tail := none } }
  s5.commandWindow

/-- The half whose tail is missing (R372): 0 the RF0 half, 1 the RF1 half. A tail is missing where the record of the last position
of the half has not arrived: it begins after the last position whose record has. A whole half counts as a tail (DEDUCED,
log 118). -/
def State.missingTail (s : State) : Option Nat :=
  let ha := s.get CS_STAT.H_A
  let broken := fun (dir n : Nat) => decide (0 < n) && (s.recOf (s.ringIdx dir n)).isNone
  if s.cs.recs.isEmpty then none
  else if broken 0 ha then some 0
  else if broken 1 (s.cs.size - ha) then some 1 else none

/-- COLLECTION_END (R369, R372): missing records are counted and logged; the sweep is complete unless a tail is missing. -/
def execCollectionEnd (s : State) : Host.Outcome State Fault Refusal :=
  .next <|
    if s.csOn && s.csState == 3 && s.cs.busy then
      let miss := (s.units.filter fun u => (s.recOf u).isNone).length
      let s1 := if miss = 0 then s else
        (s.inc CS_CNT1.MISSING 0 0 miss).log 0x0C04 WARNING [0, 0, s.cs.live, (s.units.filter fun u => !s.snapped u).length]
      match (if miss = 0 then none else s.missingTail) with
      | some d => { s1 with cs := { s1.cs with tail := some d, endAt := s.stamp } }
      | none => s1.sweepDone
    else s

/-- RECOLLECT (R372): the request leaves the other end for the whole broken half. -/
def execRecollect (s : State) : Host.Outcome State Fault Refusal :=
  .next <|
    match s.cs.tail with
    | some d =>
      if s.csOn && s.csState == 3 && s.cs.busy then
        let ha := s.get CS_STAT.H_A
        let dir := 1 - d
        let s1 := ({ s with cs := { s.cs with again := 0 } }.put CS_STAT.STATE 4).inc CS_CNT1.RECOLL
        s1.emit .ringRecollect dir
          [3 + 16 * dir, 0, s.cs.size, ha, s.cs.live, if d = 0 then 1 else ha + 1, if d = 0 then ha else s.cs.size, 0, 0]
      else s
    | none => s

/-- A break is recorded after the unit with ring index `b` (R373), and the partition moves. The sweeps of R374 count from the
first break. -/
def State.breakAt (s : State) (b : Nat) : State :=
  let s1 := ((s.put CS_STAT.BROKEN 1).put CS_STAT.BRK_AT b).put CS_SEEN.BRK_SEEN 1
  ({ s1 with cs := { s1.cs with since := if s.is CS_STAT.BROKEN then s1.cs.since else 0 } }.partition b).log 0x0C02 WARNING [0, 0, b]

/-- RECOLLECT_END (R369, R373): the sweep is complete; a record that is still missing is logged. -/
def execRecollectEnd (s : State) : Host.Outcome State Fault Refusal :=
  .next <|
    match s.cs.tail with
    | some d =>
      if s.csOn && s.csState == 4 then
        let ha := s.get CS_STAT.H_A
        let silent := fun (u : Nat) => !bit s.cs.again u
        let s1 :=
          if d = 0 then
            match (List.range ha).reverse.find? fun i => silent (i + 1) with
            | some i => s.breakAt (i + 1)
            | none => s
          else
            match (List.range (s.cs.size - ha)).find? fun i => silent (ha + 1 + i) with
            | some i => s.breakAt (ha + i)
            | none => s
        let miss := (s.units.filter fun u => !s.snapped u).length
        let s2 := if s.units.all fun u => (s.recOf u).isSome then s1 else s1.log 0x0C04 WARNING [0, 0, s.cs.live, miss]
        ((s2.put CS_STAT.STATE 3).perShow).sweepDone
      else s
    | none => s

/-- HEAL_PROBE (R374): whether the discovery pass from RF0 has reached RF1 after N relays, which finds every unit. It replaces the sweep that
is due: sweeps run, its sync would leave now, and it is not skipped. -/
def execHealProbe (reached : Bool) (s : State) : Host.Outcome State Fault Refusal :=
  .next <|
    if s.csOn && s.csState == 3 && s.is CS_STAT.BROKEN && !s.ringBusy && decide (39 ≤ s.cs.since) &&
        s.cs.sweeping && decide (s.nextSnap ≤ s.stamp + s.tenthMsAu s.snapDly) then
      let s1 := { s with cs := { s.cs with since := 0, snap := some s.nextSnap, num := (s.cs.num + 1) % 256 } }.discover 0 1
      if reached then
        let all := { s1 with cs := { s1.cs with found := 2 ^ (s1.cs.size + 1) - 2 } }.put CS_STAT.N s1.cs.size
        let s2 := ((all.put CS_STAT.BROKEN 0).put CS_STAT.BRK_AT 0x7F).partition ((s1.cs.size + 1) / 2)
        s2.perShow.log 0x0C03 NOTICE
      else s1
    else s

/-- A write of 1 to `SEND` (R377): refused with `BAL_AUTO` = 1. -/
def State.balSend (s : State) (i : Nat) : State :=
  if s.is CS_CTRL.BAL_AUTO || decide (64 ≤ i) then s
  else s.queueOrder (i + 1) (s.get CS_UNIT_BAL.MASK i) (s.get CS_UNIT_BAL.DUR i)

/-- ORDER_SEND (R377): the unit by its ring index less 1. -/
def execOrderSend (sess i : Nat) (s : State) : Host.Outcome State Fault Refusal :=
  .next <| s.guarded sess CS_UNIT_BAL.SEND fun t => t.balSend i

/-- SWEEP_START (R381): at the strobe of the target; its sync has left before (`SWEEP_SYNC`). -/
def execSweepStart (s : State) : Host.Outcome State Fault Refusal :=
  .next <| s.laRun 0x01A 1 fun a t =>
    let t1 := (t.put CS_CTRL.PER_HC (min 255 (bytesAt a.body 0 2))).put CS_SNAP_OFS.SNAP_OFS (a.target % halfCycleAu)
    ({ t1 with cs := { t1.cs with sweeping := true, snap := some a.target } }).perShow

/-- SWEEP_STOP (R381). -/
def execSweepStop (s : State) : Host.Outcome State Fault Refusal :=
  .next <| s.laRun 0x01A 2 fun _ t => { t with cs := { t.cs with sweeping := false } }

/-- CELL_QUERY (R379): a frame to the endpoint of cell k is answered with 16 bytes; byte 2 holds bits 23:16 of `CS_CELL`. -/
def execCellQuery (src k : Nat) (s : State) : Host.Outcome State Fault Refusal :=
  .next <|
    if s.populated (0x100 + k) && decide (k < 1024) then
      let w := (s.word (CS_CELL.V.at k 0)).toNat
      s.emit .cellAnswer src (leBytes 2 (w % 65536) ++ [w / 65536 % 256, s.get CS_SWEEP.SWEEP] ++
        leBytes 8 (s.get2 CS_SWEEP_STAMP_LO.STAMP CS_SWEEP_STAMP_HI.STAMP) ++ leBytes 4 (s.get CS_SWEEP_I.I))
    else s

/-- RING_LOST (R376): every unit missing for `LOST_N` sweeps. -/
def execRingLost (s : State) : Host.Outcome State Fault Refusal :=
  .next <|
    if s.csOn && s.csState == 3 && decide (1 ≤ s.cs.size) &&
        (List.range s.cs.size).all fun i => decide (max 1 (s.get CS_CTRL.LOST_N) ≤ s.get CS_UNIT_STAT.MISS_CNT i) then
      { s with cs := s.cs.anew }.csWake
    else s

/-- CS_DISABLE (R376): `EN` is 0, or STORE has left the role set. -/
def execCsDisable (s : State) : Host.Outcome State Fault Refusal :=
  .next <|
    if s.csState != 0 && !(s.role 3 && s.is CS_CTRL.EN) then { s with cs := s.cs.anew }.put CS_STAT.STATE 0 else s

end Sys2Proof.Machine
end

