-- ==== Sys2Proof/Machine/Powerline.lean ====
section
/-! DEFINITION. The Powerline: its shared operations and what each of its commands does (spec/10_powerline.md). A command whose
condition the manual states and the state or its measurement does not meet leaves the state unchanged. -/

namespace Sys2Proof.Machine

open R

/-! ### Keys, links and schedules -/

/-- The coordinator key of this station (R234): `KCLASS`, `KLEVEL`, `PRIO`, serial number. -/
def State.plcKey (s : State) : Nat × Nat × Nat × Nat :=
  let cls := if s.is FAB_STAT.ROOT then 2 else if (List.range 8).any s.laneUp then 1 else 0
  let lvl := if s.get FAB_STAT.STATE = 4 then s.get FAB_STAT.LEVEL else 31
  (cls, lvl, s.get PLC_CTRL.PRIO, s.serial)

/-- A coordinator key is better than another (R234). -/
def plcBetter (a b : Nat × Nat × Nat × Nat) : Bool :=
  decide (b.1 < a.1) || (a.1 == b.1 && (decide (a.2.1 < b.2.1) || (a.2.1 == b.2.1 && (decide (b.2.2.1 < a.2.2.1) ||
    (a.2.2.1 == b.2.2.1 && decide (a.2.2.2 < b.2.2.2))))))

/-! ### Symbols and slots (R237) -/

/-- The number of the local half-cycle and the symbol of it at which a transmission can begin now: the next whole one of 46.52 µs. -/
def State.plcNow (s : State) : Nat × Nat :=
  let d := 2 ^ 24 * max 1 s.tb.floc * 46520000
  (s.stamp / 2 ^ 23, (s.stamp % 2 ^ 23 * 10 ^ 23 + d - 1) / d)

/-- A moment as one count that rises with the symbols, 256 to a half-cycle, more than the longest has. -/
def State.plcClock (s : State) : Nat := 256 * s.plcNow.1 + s.plcNow.2

/-- The regions of a half-cycle k of the beacon period. -/
inductive PlcRegion
  | beacon | downlink | allocation | contention | idle
deriving DecidableEq, Repr

/-- The region of a symbol. -/
def plcRegion (k sym : Nat) : PlcRegion :=
  if sym < 24 then (if k = 0 then .beacon else .allocation)
  else if sym < 40 then .downlink
  else if sym < 152 then .allocation
  else if sym < 160 then .contention
  else .idle

/-- The region the channel is in. -/
def State.plcRegionNow (s : State) : PlcRegion := plcRegion (s.plcNow.1 % 4) s.plcNow.2

/-- A station that has missed 2 consecutive beacons transmits in contention slots only (R236); nothing transmits without a local angle. -/
def State.plcMaySend (s : State) : Bool :=
  s.tbRuns && (s.get PLC_STAT.STATE == 5 || (s.get PLC_STAT.STATE == 4 && decide (s.get PLC_BEACON.MISSED < 2)))

/-- The symbols that this station may still use of the slot it is in: the coordinator's downlink slot, or an allocation that the schedule in
force gives it, less the idle symbol at its end (R237, R239). -/
def State.plcLeft (s : State) : Nat :=
  let n := s.plcNow
  if !s.plcMaySend then 0
  else match s.plcRegionNow with
    | .downlink => if s.get PLC_STAT.STATE = 5 then 40 - n.2 else 0
    | .allocation =>
      match s.plc.sched.find? fun e => e.stn == s.get PLC_STAT.STN && e.k == n.1 % 4 && decide (e.first ≤ n.2) && decide (n.2 < e.first + e.len) with
      | some e => e.first + e.len - 1 - n.2
      | none => 0
    | _ => 0

/-- The symbol by which a frame sent now is acknowledged or never is (R232): a station's in the coordinator's next downlink slot, the
coordinator's, of `len` symbols, with the three symbols that follow it. -/
def State.ackDue (s : State) (len : Nat) : Nat :=
  let n := s.plcNow
  if s.get PLC_STAT.STATE = 5 then s.plcClock + len + 3 else 256 * (if n.2 < 24 then n.1 else n.1 + 1) + 40

/-! ### What is sent (R226, R230) -/

/-- The carriers that are never transmitted, as a bit map (R226). -/
def State.notched (s : State) : Nat :=
  (List.range 37).foldl (fun a w => a + s.get PLC_NOTCH.MASK w * 2 ^ (32 * w)) 0 % 2 ^ 1155

/-- The frame control (R230): its 19 bytes and their CRC-32. -/
def State.plcControl (s : State) (ftype dst tm rate nsym nseg ackMap ackSeq : Nat) : List Nat :=
  let k := s.plcKey
  let l := [ftype, s.get PLC_STAT.STN, dst, tm + 16 * rate] ++ leBytes 2 (nsym % 1024 + 2048 * nseg) ++ leBytes 2 ackMap ++ leBytes 2 ackSeq ++
    leBytes 2 (s.get PLC_BEACON.BPC) ++ [k.1 + 4 * k.2.1, k.2.2.1, 0, 0, 0, 0, 0]
  l ++ leBytes 4 (crc32 l)

/-- A transmission: the attenuation in dB, the carriers left out, the frame control and the payload. -/
def State.plcEmit (s : State) (kind : Sent) (dst : Nat) (control payload : List Nat) : State :=
  s.emit kind dst ([min 30 (s.get PLC_CTRL.TXATT), s.notched] ++ control ++ payload)

/-! ### Links and schedules -/

/-- Segments are discarded (R232): counted in `DROP`, and event 0x0708 with their number at most once per second. -/
def State.plcDrop (s : State) (n : Nat) : State :=
  if n = 0 then s
  else
    let s1 := s.inc PLC_CNT1.DROP 0 0 n
    let m := s1.plc.dropN + n
    if s1.plc.dropAt = some s1.rtc then { s1 with plc := { s1.plc with dropN := m } }
    else { s1 with plc := { s1.plc with dropN := 0, dropAt := some s1.rtc } }.log 0x0708 WARNING (leBytes 2 (min m 0xFFFF))

/-- A fabric frame of its bytes, where its version and its CRC-32 are good (R173). -/
def frameOf (l : List Nat) : Option FabFrame :=
  let n := l.length - 4
  let b := fun (i : Nat) => l.getD i 0
  if b 0 / 64 = 1 ∧ leBytes 4 (crc32 (l.take n)) = l.drop n then
    some {
      dn := b 0 / 32 % 2, ty := b 0 % 16, vc := b 1 / 128 % 2, urg := b 1 / 64 % 2, epo := b 1 / 32 % 2, hops := b 1 % 32
      dst := bytesAt l 2 3 % 2 ^ 23, src := bytesAt l 5 3 % 2 ^ 23, seq := bytesAt l 10 2, pay := (l.take n).drop 12 }
  else none

/-- A powerline link goes DOWN (R190, R242): its segments are discarded; where it was ACTIVE the Fabric learns of it, and the frames that wait
take another path. -/
def State.plcLinkDown (s : State) (n : Nat) : State :=
  let x := s.plcLink n
  let dir := s.linkDir 8
  let s1 := (s.setPlc n { x with active := false, queue := [], cur := [], rest := [], segs := [], unacked := [] }).plcDrop x.segs.length
  if x.active then
    let s2 := s1.log 0x070B WARNING [n]
    let s3 := if s2.plcUp then s2.linkReport else s2.fabLinkLost 8
    x.queue.foldl (fun t q => match frameOf q.2.2 with | some f => t.reRoute f dir 14 | none => t) s3
  else s1

/-- Every powerline link goes DOWN and is forgotten. -/
def State.plcAllDown (s : State) : State :=
  let s1 := s.plc.links.foldl (fun t p => t.plcLinkDown p.1) s
  { s1 with plc := { s1.plc with links := [], sched := [], pend := none, answers := [], acks := [], succ := 0x3F, succN := 0, named := 0, bcnAt := none, asked := none } }

/-- The channel's state, with no station index of its own and none associated. -/
def State.plcState (s : State) (st : Nat) : State := ((s.put PLC_STAT.STATE st).put PLC_STAT.STN 0x3F).put PLC_STAT.NSTN 0

/-- `STATE` of a channel with no links: absent while PLC_DET is high, else listening or off (R41, R226). -/
def State.plcIdle (s : State) : Nat := if s.pins.plcDet then 1 else if s.is PLC_CTRL.EN then 2 else 0

/-- `PLC_EN` of the Fabric has been written 0: the links leave ACTIVE as lanes do (R172, R242). -/
def State.plcFabOff (s : State) : State :=
  if s.is FAB_CTRL.PLC_EN then s else s.plc.links.foldl (fun t p => if p.2.active then t.plcLinkDown p.1 else t) s

/-- A write of `EN` (R15): on listens, off takes the links down. -/
def State.plcEnable (s : State) (on : Bool) : State :=
  let s1 := (s.putb PLC_CTRL.EN on).reqShow
  if on then (if s1.get PLC_STAT.STATE = 0 ∧ s1.runs 9 then s1.plcState s1.plcIdle else s1)
  else s1.plcAllDown.plcState s1.plcIdle

/-- The 8-symbol places of R237, those of the four half-cycles in turn: half-cycle and first symbol. Symbols 0 to 23 of half-cycle 0 belong to
the beacon. -/
def plcPlaces : List (Nat × Nat) :=
  (List.range 17).flatMap fun i => (List.range 4).filterMap fun k =>
    let j := if k = 0 then i else i - 3
    if k ≠ 0 ∧ i < 3 then some (k, 8 * i) else if j < 14 then some (k, 40 + 8 * j) else none

/-- The allocations of the associated stations (R238): up to 14 stations, 8 symbols each in every half-cycle; else 8 symbols
each in every beacon period, spread over the half-cycles in station order. -/
def plcSchedule (stns : List Nat) : List PlcSlot :=
  if stns.length ≤ 14 then
    (List.range 4).flatMap fun k => stns.zipIdx.map fun p => ⟨p.1, k, 40 + 8 * p.2, 8⟩
  else (stns.zip plcPlaces).map fun p => ⟨p.1, p.2.1, p.2.2, 8⟩

/-- The coordinator owes a new schedule, with a new version, which two beacons carry before it takes effect (R239): of the first 8 periods, in
which a beacon may be omitted, none counts. -/
def State.plcNewSchedule (s : State) : State :=
  let stns := (s.plc.links.map Prod.fst).filter fun n => n != 0 && n != 0x3F
  let last := match s.plc.pend with | some p => p.ver | none => s.get PLC_BEACON.SCHED_VER
  { s with plc := { s.plc with pend := some ⟨(last + 1) % 256, (s.get PLC_BEACON.BPC + 3 + (8 - s.plc.periods)) % 256, plcSchedule stns⟩ } }.put
    PLC_STAT.NSTN stns.length

/-- The announced schedule takes effect at its period counter, whether that period's beacon is heard or not (R239). -/
def State.plcTakeSchedule (s : State) (bpc : Nat) : State :=
  match s.plc.pend with
  | some p =>
    if p.at_ = bpc % 256 then { s with plc := { s.plc with sched := p.slots, pend := none } }.put PLC_BEACON.SCHED_VER p.ver else s
  | none => s

/-- A beacon period passes. -/
def State.plcPeriod (s : State) : State := { s with plc := { s.plc with wait := s.plc.wait - 1 } }

/-- The station becomes coordinator with index 0, and takes its time from sources other than beacons (R234). -/
def State.plcCoordinate (s : State) : State :=
  let s1 := ((((s.put PLC_STAT.STATE 5).put PLC_STAT.STN 0).put PLC_DLY.DLY 0).put PLC_BEACON.MISSED 0).srcCheck
  { s1 with plc := { s1.plc with periods := 0, named := 0, succ := 0x3F, succN := 0 } }.put2
    PLC_COORD_SER_LO.SERIAL PLC_COORD_SER_HI.SERIAL s.serial

/-! ### Beacons -/

/-- The bits of information that a number of bytes gives the coder: 6 tail bits, padded to a multiple of 10 (R227). -/
def infoBits (bytes : Nat) : Nat := ((8 * bytes + 6) + 9) / 10 * 10

/-- The payload symbols of robust 4× or 6× for a number of coded bits (R228). -/
def robustSymbols (r bits : Nat) : Nat := let g := 2 * 1152 / r; (bits + g - 1) / g + r - 1

/-- The body of a beacon (R235). -/
def State.beaconBody (s : State) (ver : List Nat) (slots : List PlcSlot) (answers : List (Nat × Nat)) : List Nat :=
  let l := leBytes 8 s.stamp ++ [0] ++ leBytes 8 s.serial ++ leBytes 2 (s.get PLC_BEACON.BPC) ++ [s.get PLC_STAT.NSTN, s.plc.succ] ++ ver ++
    [slots.length, answers.length, 0, 0, 0] ++ (slots.flatMap fun e => [e.stn + 64 * e.k, e.first, e.len]) ++
    answers.flatMap fun a => leBytes 8 a.1 ++ [a.2]
  l ++ leBytes 4 (crc32 l)

/-- BEACON_SEND (R234, R235, R239): at angle 0 of an even cycle, once; in each of the first 8 periods of a coordinator that took over for want
of beacons the beacon is omitted with probability 1/2, a choice the manual does not state further (a free value). A renumbering due at that
angle comes first (R246). -/
def execBeaconSend (s : State) : Host.Outcome State Fault Refusal :=
  let cyc := s.stamp / 2 ^ 24
  .next <|
    if s.runs 9 && s.get PLC_STAT.STATE == 5 && s.atAngle 0 && !s.renumDue && cyc % 2 == 0 && s.plc.bcnAt != some cyc then
      let bpc := cyc / 2 % 2 ^ 16
      let s1 := ((s.put PLC_BEACON.BPC bpc).plcPeriod).plcTakeSchedule bpc
      let s2 := { s1 with plc := { s1.plc with periods := s1.plc.periods + 1, bcnAt := some cyc } }
      let r := if s2.plc.periods ≤ 8 then s2.free 1 else (0, s2)
      let s3 := r.2
      if r.1 = 1 then s3
      else
        let sch := match s3.plc.pend with | some p => p.slots | none => s3.plc.sched
        let va := match s3.plc.pend with | some p => [p.ver, p.at_] | none => [s3.get PLC_BEACON.SCHED_VER, bpc % 256]
        let ans := s3.plc.answers.take 4
        let s4 := { s3 with plc := { s3.plc with
          answers := s3.plc.answers.drop 4, succN := if s3.plc.succ = 0x3F then 0 else s3.plc.succN + 1 } }
        let body := s3.beaconBody va sch ans
        s4.plcEmit .beacon 0x3F (s4.plcControl 1 0x3F 1 0 (robustSymbols 6 (2 * infoBits body.length)) 0 0 0) body
    else s

/-- A new coordinator is heard: its links start with sequence 0, and what waited is discarded (R242, R246). Only a successor keeps the schedule in
force; of another coordinator none is in force before its own has been taken (R239). -/
def State.plcNewCoordinator (s : State) (serial node : Nat) (handover : Bool) : State :=
  let old := s.get2 PLC_COORD_SER_LO.SERIAL PLC_COORD_SER_HI.SERIAL
  if old = serial then s
  else
    let s1 := s.plcLinkDown 0
    let s2 := (s1.setPlc 0 { serial := serial, node := node, sound := true }).put2 PLC_COORD_SER_LO.SERIAL PLC_COORD_SER_HI.SERIAL serial
    if handover then s2
    else
      let s3 := { s2 with plc := { s2.plc with sched := [], pend := none } }
      if s3.get PLC_STAT.STATE ≠ 4 then s3 else (s3.put PLC_STAT.STATE 3).put PLC_STAT.STN 0x3F

/-- `IMP_TH` in dB, within its range (R233). -/
def State.impTh (s : State) : Nat := clampN 3 31 (s.get PLC_CTRL.IMP_TH)

/-- A symbol's energy exceeds the mean of those before it, 64 at most, by more than the threshold (R233): its tenth power is compared, so that the
dB need no rounding. With none before it nothing is exceeded; with fewer than 64 their mean counts (DESIGN CHOICE, log 113). -/
def impulse (th e : Nat) (before : List Nat) : Bool :=
  !before.isEmpty && decide ((before.foldl (· + ·) 0) ^ 10 * 10 ^ th < (e * before.length) ^ 10)

/-- The symbols that impulses erased are counted (R233), and event 0x0709 gives their number at most once per second. -/
def State.plcImpulse (s : State) (erased : Nat) : State :=
  let s1 := s.inc PLC_CNT1.IMP 0 0 erased
  let m := s1.plc.impN + erased
  if m = 0 then s1
  else if s1.plc.impAt = some s1.rtc then { s1 with plc := { s1.plc with impN := m } }
  else { s1 with plc := { s1.plc with impN := 0, impAt := some s1.rtc } }.log 0x0709 NOTICE (leBytes 2 (min m 0xFFFF))

/-- The symbols of a received frame: how many are erased, and the state (R233). -/
def State.plcHear (s : State) (energy : List Nat) : Nat × State :=
  let r := energy.foldl (fun (a : Nat × List Nat) e => (if impulse s.impTh e a.2 then a.1 + 1 else a.1, (e :: a.2).take 64)) (0, s.plc.energy)
  (r.1, { s with plc := { s.plc with energy := r.2 } }.plcImpulse r.1)

/-- BEACON_RECEIVE (R233 to R236, R239, R241): the beacon's stamp and its arrival, and its symbols, the coordinator's serial number,
node and key, the period counter, the stations associated, the successor, the schedule's version and period counter with its
entries, and the answers as serial number and index. -/
def execBeaconReceive (v16 : PlcAt) (serial node kcls klvl kprio bpc nstn succ ver verAt : Nat) (slots : List PlcSlot)
    (answers : List (Nat × Nat)) (s : State) : Host.Outcome State Fault Refusal :=
  let st := s.get PLC_STAT.STATE
  .next <|
    if !s.runs 9 || decide (st < 2) then s
    else
    let s := (s.plcHear v16.energy).2
    if st = 5 then
      if plcBetter (kcls, klvl, kprio, serial) s.plcKey then
        let s1 := (s.plcAllDown.plcState 3).put PLC_BEACON.MISSED 0
        (s1.setPlc 0 { serial := serial, node := node, sound := true }).put2 PLC_COORD_SER_LO.SERIAL PLC_COORD_SER_HI.SERIAL serial
      else s
    else
      let handover := s.plc.succ != 0x3F && s.plc.succ != s.get PLC_STAT.STN
      let s1 := s.plcNewCoordinator serial node handover
      let s2 := if st = 2 then s1.put PLC_STAT.STATE 3 else s1
      let s3 := (((s2.put PLC_BEACON.BPC bpc).put PLC_BEACON.MISSED 0).plcPeriod).setPlc 0 { s2.plcLink 0 with heardAt := s.stamp }
      let s4 := { s3 with plc := { s3.plc with
        succ := succ
        named := if succ = s3.get PLC_STAT.STN ∧ succ ≠ 0x3F then s3.plc.named + 1 else 0
        ckey := (kcls, klvl, kprio, serial)
        pend := if ver = s3.get PLC_BEACON.SCHED_VER ∧ !s3.plc.sched.isEmpty then s3.plc.pend else some ⟨ver, verAt, slots⟩ } }.plcTakeSchedule bpc
      let s5 := s4.put PLC_STAT.NSTN nstn
      let s6 := match answers.find? fun a => a.1 == s5.serial with
        | some a =>
          if s5.get PLC_STAT.STATE ≠ 3 then s5
          else if a.2 = 0x3F then { s5 with plc := { s5.plc with wait := 32 } }.log 0x0703 WARNING
          else ((s5.put PLC_STAT.STATE 4).put PLC_STAT.STN a.2).log 0x0702 NOTICE [a.2]
        | none => s5
      s6.followSource 3 (v16.v16 + s6.delayAu16 (s6.get PLC_DLY.DLY))

/-- BEACON_MISSED (R236): a schedule announced for that beacon's period counter takes effect all the same (R239). -/
def execBeaconMissed (s : State) : Host.Outcome State Fault Refusal :=
  let st := s.get PLC_STAT.STATE
  .next <|
    if s.runs 9 && decide (2 ≤ st) && decide (st ≤ 4) then
      let n := min 3 (s.get PLC_BEACON.MISSED + 1)
      let s0 := s.plcPeriod.plcTakeSchedule (s.get PLC_BEACON.BPC + s.get PLC_BEACON.MISSED + 1)
      let s1 := ((s0.put PLC_BEACON.MISSED n).inc PLC_CNT2.BCN_LOST).log 0x0704 INFO (leBytes 2 (s.get PLC_BEACON.BPC))
      if n = 2 ∧ s.get PLC_BEACON.MISSED = 1 then (s1.put PLC_STAT.BCN_SEEN 1).log 0x0705 WARNING else s1
    else s

/-- COORDINATOR_TAKEOVER (R234): no beacon for 3 beacon periods. -/
def execCoordinatorTakeover (s : State) : Host.Outcome State Fault Refusal :=
  let st := s.get PLC_STAT.STATE
  .next <|
    if s.runs 9 && decide (2 ≤ st) && decide (st ≤ 4) && s.get PLC_BEACON.MISSED == 3 then
      ((s.plcAllDown.plcCoordinate).put PLC_STAT.NSTN 0).log 0x0701 NOTICE
    else s

/-- The successor's links: a station of the schedule keeps its index. What the successor knows of the station's serial number and node the
spec does not say: free values (log 113). -/
def State.plcKeepLinks (s : State) (stns : List Nat) : State :=
  stns.foldl (fun t n =>
    let a := t.free 64
    let b := a.2.free 12
    b.2.setPlc n { serial := a.1, node := b.1, kept := true, sound := true, heardAt := s.stamp }) s

/-- SUCCESSOR_HANDOVER (R234, R246): the coordinator names the station whose key has been better in 4 consecutive periods, and
associates once it has named it in 2 beacons; the station named in 2 beacons becomes coordinator, keeps the schedule and the
station indices, and omits no beacon. -/
def execSuccessorHandover (s : State) : Host.Outcome State Fault Refusal :=
  .next <|
    if !s.runs 9 then s
    else match s.get PLC_STAT.STATE with
      | 5 =>
        if s.plc.succ = 0x3F then
          match s.plc.links.find? fun p => decide (4 ≤ p.2.better) with
          | some p => { s with plc := { s.plc with succ := p.1, succN := 0 } }
          | none => s
        else if 2 ≤ s.plc.succN then
          let x := s.plcLink s.plc.succ
          (((s.plcAllDown.plcState 3).put PLC_BEACON.MISSED 0).setPlc 0 { serial := x.serial, node := x.node, sound := true }).put2
            PLC_COORD_SER_LO.SERIAL PLC_COORD_SER_HI.SERIAL x.serial
        else s
      | 4 =>
        if 2 ≤ s.plc.named then
          let own := s.get PLC_STAT.STN
          let stns := ((s.plc.sched.map fun e => e.stn).filter fun n => n != own && n != 0 && n != 0x3F).eraseDups
          let s1 := s.plcAllDown.plcCoordinate
          let s2 := { s1 with plc := { s1.plc with sched := s.plc.sched, pend := s.plc.pend, periods := 8 } }.plcKeepLinks stns
          (s2.put PLC_STAT.NSTN stns.length).log 0x0701 NOTICE
        else s
      | _ => s

/-! ### Frames and segments -/

/-- The coded bits of a segment of `n` data bytes (R227, R231). -/
def segBits (rate n : Nat) : Nat :=
  match rate with
  | 0 => 2 * infoBits (n + 8)
  | 1 => infoBits (n + 8) * 3 / 2
  | _ => infoBits (n + 8) * 6 / 5

/-- The bits that a code of a tone map gives a carrier (R240). -/
def codeBits : Nat → Nat
  | 0 => 0 | 1 => 1 | 2 => 2 | 3 => 3 | 4 => 4 | 5 => 6 | 6 => 8 | _ => 0

/-- The payload symbols of a data frame, in robust 4× or by the tone map (R228, R229). -/
def plcPayload (robust : Bool) (rate : Nat) (codes : List Nat) (lens : List Nat) : Nat :=
  if robust then robustSymbols 4 ((lens.map (segBits 0)).foldl (· + ·) 0)
  else
    let per := max 1 ((codes.map codeBits).foldl (· + ·) 0)
    ((lens.map (segBits rate)).foldl (· + ·) 0 + per - 1) / per

/-- The symbols of a data frame: preamble, frame control and payload. -/
def plcSymbols (robust : Bool) (rate : Nat) (codes : List Nat) (lens : List Nat) : Nat := 2 + plcPayload robust rate codes lens

/-- The next frame of a link's queue (R244): urgent VC0 first, then VC1 and other VC0 frames alternately. -/
def PlcLink.next (x : PlcLink) : Option (Bool × Nat × List Nat) :=
  let other := fun (v : Nat) => x.queue.find? fun q => !q.1 && q.2.1 == v
  (x.queue.find? fun q => q.1).or (if x.turn then (other 1).or (other 0) else (other 0).or (other 1))

/-- The link once it has taken a frame from its queue. -/
def PlcLink.takeNext (x : PlcLink) (q : Bool × Nat × List Nat) : PlcLink :=
  { x with queue := x.queue.erase q, turn := if q.1 then x.turn else q.2.1 != 1 }

/-- The stream of a link as it would go out now, in its first `room` bytes at least: the rest of the frame in progress, then the frames that wait,
each in its turn (R231, R244); with each byte, whether a frame starts there. -/
def PlcLink.stream (x : PlcLink) (room : Nat) : Nat → List (Nat × Bool)
  | 0 => x.rest.map fun b => (b, false)
  | n + 1 =>
    let l := x.rest.map fun b => (b, false)
    if room ≤ l.length then l
    else match x.next with
      | none => l
      | some q => l ++ ((q.2.2.zipIdx.map fun p => (p.1, p.2 == 0)) ++ PlcLink.stream { x.takeNext q with rest := [] } (room - l.length - q.2.2.length) n)

/-- The link after the first `c` bytes of its stream have gone out: a frame that has begun is in progress, those that have not still wait. -/
def PlcLink.consume (x : PlcLink) (c : Nat) : Nat → PlcLink
  | 0 => { x with rest := x.rest.drop c }
  | n + 1 =>
    if c ≤ x.rest.length then { x with rest := x.rest.drop c }
    else match x.next with
      | none => { x with rest := [] }
      | some q => PlcLink.consume { x.takeNext q with cur := q.2.2, rest := q.2.2 } (c - x.rest.length) n

/-- A stretch of the stream as segments of up to 128 bytes, each with the place where the first frame starts in it (R231). -/
def cutStream (seq : Nat) (l : List (Nat × Bool)) : List TxSeg :=
  (List.range ((l.length + 127) / 128)).map fun i =>
    let d := (l.drop (128 * i)).take 128
    { seq := (seq + i) % 2 ^ 16, data := d.map Prod.fst, start := (d.findIdx? Prod.snd).getD 0xFF }

/-- The most segments, at most 16, whose frame and `extra` symbols fit (R232). -/
def plcFit (robust : Bool) (rate : Nat) (codes : List Nat) (segs : List TxSeg) (extra sym : Nat) : Nat :=
  (List.range 17).foldl (fun best k =>
    if k ≤ segs.length ∧ plcSymbols robust rate codes ((segs.take k).map fun g => g.data.length) + extra ≤ sym then k else best) 0

/-- A segment's acknowledgement is overdue. -/
def State.segOpen (s : State) (g : TxSeg) : Bool := decide (g.due ≤ s.plcClock)

/-- A segment that is not sent again (R232): past `RETRY` + 1 sendings or 2 beacon periods, of two cycles each, after its first. -/
def State.segDead (s : State) (g : TxSeg) : Bool :=
  s.segOpen g && (decide (s.get PLC_CTRL.RETRY < g.tries) || decide (g.first + 2 ^ 26 ≤ s.stamp))

/-- A powerline link whose resends have failed 8 times in a row goes DOWN, as a lane does (R172, R242; DEDUCED, log 137). -/
def State.plcFailing (s : State) (stn : Nat) : State :=
  if (s.plcLink stn).active && decide (8 ≤ (s.plcLink stn).fails) then s.plcLinkDown stn else s

/-- A link's dead segments are discarded and counted. -/
def State.plcSweep (s : State) (stn : Nat) : State :=
  let x := s.plcLink stn
  let n := (x.segs.filter s.segDead).length
  let resent := (x.segs.filter s.segDead).foldl (fun m g => m + (g.tries - 1)) 0
  if n = 0 then s
  else ((s.setPlc stn { x with segs := x.segs.filter fun g => !s.segDead g, fails := x.fails + resent }).plcDrop n).plcFailing stn

/-- The entries of a grant frame's payload, 8 bytes each (R214). -/
def grantEntries : Nat → List Nat → List (List Nat)
  | 0, _ => []
  | n + 1, l => if l.isEmpty then [] else l.take 8 :: grantEntries n (l.drop 8)

/-- A grant frame on its way to the stations (R245): only in the half-cycle in which it was issued, and reduced to the entries for their nodes
and for the nodes they named at association. -/
def State.plcGrant (s : State) (bytes : List Nat) : Option (List Nat) :=
  match frameOf bytes with
  | some f =>
    if f.ty = 1 ∧ f.dst = 0 ∧ bytesAt f.pay 0 2 = 4 ∧ bytesAt f.pay 2 1 = 2 then
      let nodes := s.plc.links.flatMap fun p => p.2.node :: p.2.feeds
      let es := (grantEntries 63 (f.pay.drop 16)).filter fun e => nodes.contains (bytesAt e 0 2 % 4096)
      if bytesAt f.pay 4 8 / 2 ^ 23 ≠ s.stamp / 2 ^ 23 ∨ es.isEmpty then none
      else some (frameBytes { f with pay := f.pay.take 3 ++ [es.length] ++ (f.pay.take 16).drop 4 ++ es.flatten })
    else some bytes
  | none => some bytes

/-- The frames that wait for every station, with the grants as R245 has them: one that has missed its slot is discarded, the rest of one in
progress too. -/
def State.plcGrants (s : State) : State :=
  if s.get PLC_STAT.STATE = 5 then
    let x := s.plcLink 0x3F
    let late := (s.plcGrant x.cur).isNone
    s.setPlc 0x3F { x with
      queue := x.queue.filterMap fun q => (s.plcGrant q.2.2).map fun b => (q.1, q.2.1, b)
      cur := if late then [] else x.cur, rest := if late then [] else x.rest }
  else s

/-- The bytes are those of a grant frame (R214). -/
def isGrant (bytes : List Nat) : Bool :=
  match frameOf bytes with
  | some f => f.ty == 1 && f.dst == 0 && bytesAt f.pay 0 3 == 0x020004
  | none => false

/-- In its downlink slot the coordinator first sends one broadcast acknowledgement of the stations' frames (R232): the symbols it takes. -/
def State.plcAckAll (s : State) (left : Nat) : Nat × State :=
  let n := robustSymbols 4 (2 * infoBits (5 * s.plc.acks.length))
  if s.get PLC_STAT.STATE = 5 ∧ s.plcRegionNow = .downlink ∧ !s.plc.acks.isEmpty ∧ 2 + n ≤ left then
    (2 + n, { s with plc := { s.plc with acks := [] } }.plcEmit .plcAck 0x3F (s.plcControl 3 0x3F 0 0 n 0 0 0)
      (s.plc.acks.flatMap fun (a : Nat × Nat × Nat) => [a.1] ++ leBytes 2 a.2.1 ++ leBytes 2 a.2.2))
  else (0, s)

/-- The frames of a link whose `EPO` matches no bank any more are discarded (R189). -/
def State.plcEpoch (s : State) (stn : Nat) : State :=
  let x := s.plcLink stn
  let gone := fun (q : Bool × Nat × List Nat) => match frameOf q.2.2 with
    | some f => (s.bankOf f.epo).isNone
    | none => false
  let n := (x.queue.filter gone).length
  if n = 0 then s
  else (List.range n).foldl (fun t _ => t.discard 1) (s.setPlc stn { x with queue := x.queue.filter fun q => !gone q })

/-- The link as a transmission sees it: outside the downlink slot no grant is sent, and the rest of one cut short in it is discarded (R245). -/
def State.plcView (s : State) (stn : Nat) : PlcLink :=
  let x := s.plcLink stn
  if stn = 0x3F ∧ s.plcRegionNow ≠ .downlink then
    let y := { x with queue := x.queue.filter fun q => !isGrant q.2.2 }
    if isGrant x.cur then { y with cur := [], rest := [] } else y
  else x

/-- The frame of a link that fits the symbols left: segments whose acknowledgement is overdue come before new ones, which are cut as they are sent;
a broadcast is sent once (R231, R232, R240, R244). -/
def State.plcTransmit (s : State) (stn left : Nat) : State :=
  let x := s.plcView stn
  let held := (s.plcLink stn).queue.filter fun q => !x.queue.contains q
  let robust := s.is PLC_CTRL.ROBUST_ONLY || decide (x.tm < 2) || stn == 0x3F
  let rate := if robust then 0 else x.rate
  let again := x.segs.filter s.segOpen
  let new := (cutStream x.txSeq (x.stream 2048 (x.queue.length + 1))).take 16
  let open_ := again ++ new
  let k := plcFit robust rate x.codes open_ (if s.get PLC_STAT.STATE = 5 ∧ stn ≠ 0x3F then 3 else 0) left
  if k = 0 then s
  else
    let sent := open_.take k
    let seqs := sent.map fun g => g.seq
    let nsym := plcPayload robust rate x.codes (sent.map fun g => g.data.length)
    let due := s.ackDue (2 + nsym)
    let fresh := new.take (k - again.length)
    let z := x.consume (fresh.foldl (fun n g => n + g.data.length) 0) (x.queue.length + 1)
    let y := { z with queue := z.queue ++ held, txSeq := (x.txSeq + fresh.length) % 2 ^ 16 }
    let y := if stn = 0x3F then y
      else { y with
        segs := (y.segs.map fun g => if seqs.contains g.seq then { g with tries := g.tries + 1, due := due } else g) ++
          fresh.map fun g => { g with tries := 1, first := s.stamp, due := due }
        unacked := (seqs :: y.unacked).take 16 }
    ((s.setPlc stn y).inc PLC_CNT0.RETX 0 0 (min k again.length)).plcEmit .plcData stn
      (s.plcControl 2 stn (if robust then 0 else x.tm) rate nsym k 0 0)
      (sent.flatMap fun g => let l := leBytes 2 g.seq ++ [g.data.length - 1, g.start] ++ g.data; l ++ leBytes 4 (crc32 l))

/-- PLC_FRAME_SEND (R226, R231, R232, R236, R237, R240, R189, R244, R245): the station of the link, 0x3F for all, and the most symbols that the
sender uses of what is left of its slot or allocation. -/
def execPlcFrameSend (stn sym : Nat) (s : State) : Host.Outcome State Fault Refusal :=
  .next <|
    let left := min sym s.plcLeft
    if !s.runs 9 || left == 0 || !(s.get PLC_STAT.STATE == 5 || stn == 0) then s
    else
      let r := s.plcAckAll left
      ((if stn = 0x3F then r.2.plcGrants else r.2.plcSweep stn).plcEpoch stn).plcTransmit stn (left - r.1)

/-- The bytes of a tone map as it is sent: identifier, rate and 1,155 codes of three bits (R240). -/
def mapBytes : Nat := 436

/-- Whole fabric frames and tone maps at the head of a stream, and the rest of it. A map, whose first byte is its identifier, differs from a frame
in it (R173, R240; DEDUCED, log 113). -/
def takeFrames : Nat → List Nat → List (List Nat) × List Nat
  | 0, l => ([], l)
  | n + 1, l =>
    let size := if l.headD 0 < 8 then mapBytes else 16 + bytesAt l 8 2 % 1024
    if l.length < 16 ∨ l.length < size then ([], l)
    else let r := takeFrames n (l.drop size); (l.take size :: r.1, r.2)

/-- A segment's data join what a link has received of a fabric frame; the stream begins anew where a frame starts, as after a gap (R231, R232). -/
def PlcLink.join (x : PlcLink) (data : List Nat) (start : Nat) : List (List Nat) × PlcLink :=
  let go := fun (l : List Nat) => takeFrames (l.length / 16 + 1) l
  let whole := start = 0xFF
  let old := match x.part with
    | some p => go (p ++ (if whole then data else data.take start))
    | none => ([], [])
  if whole then (if x.part.isNone then ([], x) else (old.1, { x with part := some old.2 }))
  else let r := go (data.drop start); (old.1 ++ r.1, { x with part := some r.2 })

/-- Delivers held segments in sequence order (R232): the fabric frames that are whole. -/
def PlcLink.drain : Nat → PlcLink → List (List Nat) × PlcLink
  | 0, x => ([], x)
  | n + 1, x =>
    match x.rxHold.find? fun p => p.1 == x.rxSeq with
    | some p =>
      let a := { x with rxHold := x.rxHold.filter fun q => q.1 != x.rxSeq, rxSeq := (x.rxSeq + 1) % 2 ^ 16 }.join p.2.1 p.2.2
      let r := PlcLink.drain n a.2
      (a.1 ++ r.1, r.2)
    | none => ([], x)

/-- A link whose receiver waits for a missing segment knows since when; one that has gone on waits anew (R232). -/
def PlcLink.awaits (x old : PlcLink) (now : Nat) : PlcLink :=
  { x with gap := if x.rxHold.isEmpty then none else if x.rxSeq = old.rxSeq ∧ old.gap.isSome then old.gap else some now }

/-- Two beacon periods, of two cycles each, in au. -/
def twoPeriods : Nat := 2 ^ 26

/-- A segment decodes: its CRC is good, in a robust mode, by the map issued or by the one before for two beacon periods (R240). -/
def PlcLink.decodes (x : PlcLink) (now : Nat) (g : RxSeg) : Bool :=
  g.ok && (decide (g.tm < 2) || g.tm == x.issued || (g.tm == x.oldMap && (match x.oldAt with
    | some t => decide (now < t + twoPeriods)
    | none => false)))

/-- A segment arrives: whether it is acknowledged, and the link. It is not where it does not decode or where 64 are held already (R232). -/
def PlcLink.arrive (x : PlcLink) (now : Nat) (g : RxSeg) : Bool × PlcLink :=
  let d := (g.seq + 2 ^ 16 - x.rxSeq) % 2 ^ 16
  if !x.decodes now g then (false, x)
  else if 2 ^ 15 ≤ d ∨ x.rxHold.any fun p => p.1 == g.seq then (true, x)
  else if d ≠ 0 ∧ 64 ≤ x.rxHold.length then (false, x)
  else (true, { x with rxHold := x.rxHold ++ [(g.seq, g.data, g.start)] })

/-- A segment of a broadcast, which is sent once: one that is missing leaves a gap (R232). -/
def PlcLink.hear (x : PlcLink) (now : Nat) (g : RxSeg) : List (List Nat) × PlcLink :=
  if !x.decodes now g then ([], x)
  else { x with rxSeq := (g.seq + 1) % 2 ^ 16, part := if g.seq = x.rxSeq then x.part else none }.join g.data g.start

/-- The codes of a tone map in its bytes. -/
def unpackCodes (b : List Nat) : List Nat :=
  let n := ofLeBytes b
  (List.range 1155).map fun i => n / 8 ^ i % 8

/-- The sender takes a tone map with its identifier and rate; one with a code 7 makes it go without (R240). -/
def State.plcMap (s : State) (stn id rate : Nat) (codes : List Nat) : State :=
  let x := s.plcLink stn
  if 2 ≤ id ∧ id ≤ 7 ∧ (codes.all fun c => decide (c < 7)) then s.setPlc stn { x with tm := id, rate := rate, codes := codes, txWindow := [] }
  else s.setPlc stn { x with tm := 0, rate := 0, codes := [], sound := true }

/-- What a powerline link delivers: a tone map is taken (R240), a fabric frame takes its path (R183, R185 to R190, R242), one with a bad CRC is
dropped. -/
def State.plcRoute (s : State) (stn : Nat) (l : List (List Nat)) : State :=
  l.foldl (fun t b =>
    if b.headD 0 < 8 then t.plcMap stn (b.headD 0) (b.getD 1 0) (unpackCodes (b.drop 2))
    else if t.runs 8 && t.linkUp 8 then (match frameOf b with | some f => (t.plcLearn stn f).routeFrame f 0 0 8 | none => t) else t) s

/-- The acknowledgement of a frame's segments, bit i for its segment i: with the coordinator's next downlink slot, or one symbol after the
frame. A station that has missed 2 beacons sends none (R232, R236). -/
def State.plcAckSend (s : State) (stn seq map : Nat) : State :=
  if s.get PLC_STAT.STATE = 5 then { s with plc := { s.plc with acks := s.plc.acks ++ [(stn, seq, map)] } }
  else if s.plcMaySend then s.plcEmit .plcAck stn (s.plcControl 3 stn 0 0 0 0 map seq) []
  else s

/-- The segments of a frame of a station: held until they can be delivered in order, counted and acknowledged (R231 to R233). -/
def State.plcUnicast (s : State) (stn : Nat) (segs : List RxSeg) : State :=
  let x := s.plcLink stn
  let r := segs.zipIdx.foldl (fun (a : Nat × List (List Nat) × PlcLink) g =>
    let b := a.2.2.arrive s.stamp g.1
    let c := b.2.drain 65
    (if b.1 then setBit a.1 g.2 else a.1, a.2.1 ++ c.1, c.2)) (0, [], x)
  let win := (segs.map fun g => !x.decodes s.stamp g && !g.erased).reverse ++ x.window
  let s1 := (s.setPlc stn ({ r.2.2 with window := win.take 32 }.awaits x s.stamp)).inc PLC_CNT0.SEG_FAIL 0 0 (segs.filter fun g => !g.ok).length
  (s1.plcAckSend stn (segs.headD ⟨0, [], true, false, 0xFF, 0⟩).seq r.1).plcRoute stn r.2.1

/-- The segments of a broadcast, in robust 4× and not acknowledged (R232). -/
def State.plcBroadcast (s : State) (segs : List RxSeg) : State :=
  let r := segs.foldl (fun (a : List (List Nat) × PlcLink) g => let b := a.2.hear s.stamp g; (a.1 ++ b.1, b.2)) ([], s.plcLink 0x3F)
  ((s.setPlc 0x3F r.2).inc PLC_CNT0.SEG_FAIL 0 0 (segs.filter fun g => !g.ok).length).plcRoute 0x3F r.1

/-- The number of consecutive beacon periods in which a station's key was better than the coordinator's (R234). -/
def State.plcKeyHeard (s : State) (n kcls klvl kprio bpc : Nat) : State :=
  let x := s.plcLink n
  if s.get PLC_STAT.STATE ≠ 5 then s
  else if plcBetter (kcls, klvl, kprio, x.serial) s.plcKey then
    if x.better ≠ 0 ∧ bpc = x.betterBpc then s
    else s.setPlc n { x with better := if x.better ≠ 0 ∧ bpc = (x.betterBpc + 1) % 2 ^ 16 then x.better + 1 else 1, betterBpc := bpc }
  else s.setPlc n { x with better := 0 }

/-- PLC_FRAME_RECEIVE (R230 to R234, R240): the sending and the receiving station, the sender's key and period counter as any frame control has
them, `FTYPE` and the energies of the frame's symbols, and the segments, none for a frame without data. A segment is spared the count of R233
only where a symbol has been erased. A frame of a reserved `FTYPE` is ignored but for its energy, and only a data frame has segments (R230). -/
def execPlcFrameReceive (stn dst kcls klvl kprio bpc : Nat) (erased : PlcRx) (segs : List RxSeg) (s : State) :
    Host.Outcome State Fault Refusal :=
  .next <|
    if !s.runs 9 || decide (s.get PLC_STAT.STATE < 2) then s
    else
      let h := s.plcHear erased.energy
      let s1 := h.2
      let segs := segs.map fun g => { g with erased := g.erased && decide (h.1 ≠ 0) }
      if erased.ftype = 0 ∨ 6 < erased.ftype ∨ s1.get PLC_STAT.STATE < 4 ∨ !(s1.plc.links.any fun p => p.1 == stn) then s1
      else
        let s2 := s1.plcKeyHeard stn kcls klvl kprio bpc
        let x := s2.plcLink stn
        let s3 := s2.setPlc stn { x with heardAt := s.stamp, sounded := x.sounded || (erased.ftype == 4 && dst == s1.get PLC_STAT.STN) }
        if segs.isEmpty ∨ erased.ftype ≠ 2 then s3
        else if dst = 0x3F then s3.plcBroadcast segs
        else if dst = s1.get PLC_STAT.STN then s3.plcUnicast stn segs
        else s3

/-- PLC_ACKNOWLEDGEMENT (R232, R233): of the frame whose first segment was `ACKSEQ`, segment i is done where bit i of `ACKMAP` is set; the others
are sent again at the next opportunity, and count as failures where no impulse spoilt them. Resends that fail 8 times in a row take the link DOWN
(R242). -/
def execPlcAcknowledgement (stn ackSeq : Nat) (ackMap : PlcAck) (s : State) : Host.Outcome State Fault Refusal :=
  .next <|
    if s.runs 9 && s.plc.links.any fun p => p.1 == stn then
      let x := s.plcLink stn
      match x.unacked.find? fun f => f.head? == some ackSeq with
      | none => s
      | some f =>
        let done := (f.zipIdx.filter fun p => bit ackMap.map p.2).map Prod.fst
        let lost := fun (q : Nat) => f.contains q && !done.contains q
        let again := (x.segs.filter fun g => lost g.seq && decide (2 ≤ g.tries)).length
        State.plcFailing (stn := stn) <| s.setPlc stn { x with
          fails := if done.isEmpty then x.fails + again else 0
          segs := (x.segs.filter fun g => !done.contains g.seq).map fun g => if lost g.seq then { g with due := 0 } else g
          unacked := x.unacked.erase f, txWindow := ((f.zipIdx.map fun p => lost p.1 && !bit ackMap.spared p.2).reverse ++ x.txWindow).take 32 }
    else s

/-- The lowest sequence held, from the one that is due. -/
def PlcLink.lowest (x : PlcLink) : Nat :=
  x.rxHold.foldl (fun m p => if (p.1 + 2 ^ 16 - x.rxSeq) % 2 ^ 16 < (m + 2 ^ 16 - x.rxSeq) % 2 ^ 16 then p.1 else m) ((x.rxSeq + 2 ^ 16 - 1) % 2 ^ 16)

/-- A segment awaited for 2 beacon periods is not sent again: the fabric frames that overlap it are discarded, and delivery goes on after it
(R232). -/
def State.plcSkip (s : State) (stn : Nat) : State :=
  let x := s.plcLink stn
  if x.rxHold.isEmpty || !(match x.gap with | some t => decide (t + twoPeriods ≤ s.stamp) | none => false) then s
  else
    let r := { x with rxSeq := x.lowest, part := none, gap := none }.drain 65
    (s.setPlc stn (r.2.awaits x s.stamp)).plcRoute stn r.1

/-- SEGMENT_DISCARD (R232): segments of a link past `RETRY` + 1 sendings or 2 beacon periods, as their sender and as their receiver. -/
def execSegmentDiscard (stn : Nat) (s : State) : Host.Outcome State Fault Refusal :=
  .next <| (s.plcSweep stn).plcSkip stn

/-! ### Association, tone maps, ranging, the coupler -/

/-- The channel is in a contention slot. -/
def State.inContention (s : State) : Bool := s.tbRuns && decide (s.plcRegionNow = .contention)

/-- A request of a serial number and node at the coordinator (R241): its index, or 0x3F where none is left. A station that asks again has lost its
association: its link begins anew. The nodes of R17 that the station names with it (R245) are no operand: free values (log 113). -/
def State.plcAssociate (s : State) (serial node : Nat) : State :=
  match s.plc.links.find? fun p => p.2.serial == serial && p.1 != 0x3F && p.1 != 0 with
  | some p =>
    let s1 := (s.plcLinkDown p.1).setPlc p.1 { serial := serial, node := node, feeds := p.2.feeds, sound := true, heardAt := s.stamp }
    { s1 with plc := { s1.plc with answers := s1.plc.answers ++ [(serial, p.1)] } }
  | none =>
    match ((List.range 62).map (· + 1)).find? fun n => !(s.plc.links.any fun p => p.1 == n) with
    | some n =>
      let a := s.free 12
      let b := a.2.free 12
      let s1 := b.2.setPlc n { serial := serial, node := node, feeds := [a.1, b.1], sound := true, heardAt := s.stamp }
      { s1 with plc := { s1.plc with answers := s1.plc.answers ++ [(serial, n)] } }.plcNewSchedule
    | none => { s with plc := { s.plc with answers := s.plc.answers ++ [(serial, 0x3F)] } }

/-- A frame of a contention slot with this station's serial number, node, key and feeding-cabinet nodes (R241, R245). How long it waits before
it asks again, 1 to 8 beacon periods, is a free value. The frame ends within the slot (R237). -/
def State.plcRequest (s : State) : State :=
  let k := s.plcKey
  let r := s.free 3
  let s1 := r.2
  let body := leBytes 8 s.serial ++ leBytes 2 (s.get FAB_STAT.NODE_ID) ++ [k.1, k.2.1, k.2.2.1] ++
    (List.range 2).flatMap fun c => leBytes 2 (s.get VS_CONN_FEED.FEED_NODE c)
  if 160 < s.plcNow.2 + 2 + robustSymbols 4 (2 * infoBits body.length) then s
  else
  { s1 with plc := { s1.plc with wait := 1 + r.1 } }.plcEmit .plcAssoc 0
    (s.plcControl 5 0 0 0 (robustSymbols 4 (2 * infoBits body.length)) 0 0 0) body

/-- ASSOCIATION_REQUEST (R234, R238, R241): in a contention slot a station asks to be associated, or, associated, reports that its key is
better than the coordinator's; or the coordinator takes a frame of a serial number and node, with its `SRC_STN`: of a station that has no
index, or is not known by it, a request, which a beacon answers. The spec gives a successor report no frame of its own: it goes out as a
request does (log 113). -/
def execAssociationRequest (rx : Option Nat) (serial node : Nat) (s : State) : Host.Outcome State Fault Refusal :=
  .next <|
    if !s.runs 9 then s
    else if rx.isSome then
      (if s.get PLC_STAT.STATE = 5 ∧ !(s.plc.links.any fun p => rx == some p.1 && p.2.serial == serial) then s.plcAssociate serial node else s)
    else if s.inContention ∧ s.plc.wait = 0 ∧
        (s.get PLC_STAT.STATE = 3 ∨ (s.get PLC_STAT.STATE = 4 ∧ plcBetter s.plcKey s.plc.ckey = true)) then s.plcRequest
    else s

/-- STATION_REMOVE (R241, R242): a station silent for 8 beacon periods. -/
def execStationRemove (stn : Nat) (s : State) : Host.Outcome State Fault Refusal :=
  .next <|
    if s.runs 9 && s.get PLC_STAT.STATE == 5 && stn != 0 && stn != 0x3F && (s.plc.links.any fun p => p.1 == stn) &&
        decide ((s.plcLink stn).heardAt + 4 * twoPeriods ≤ s.stamp) then
      let s1 := s.plcLinkDown stn
      { s1 with plc := { s1.plc with links := s1.plc.links.filter fun p => p.1 != stn } }.plcNewSchedule
    else s

/-- A powerline link exists: associated, between the coordinator and a station (R242). -/
def State.plcHas (s : State) (stn : Nat) : Bool :=
  s.runs 9 && ((s.get PLC_STAT.STATE == 5 && stn != 0 && stn != 0x3F) || (s.get PLC_STAT.STATE == 4 && stn == 0)) &&
    s.plc.links.any fun p => p.1 == stn

/-- SOUNDING (R240, R246): a sounding frame of 4 known symbols to the station, where one is awaited, since no map is in use yet, or the map is to be
refreshed, in a slot that holds its 6 symbols. -/
def execSounding (stn : Nat) (s : State) : Host.Outcome State Fault Refusal :=
  .next <|
    let x := s.plcLink stn
    if s.plcHas stn && decide (6 ≤ s.plcLeft) && x.sound then
      (s.setPlc stn { x with sound := false }).plcEmit .plcSound stn (s.plcControl 4 stn 0 0 4 0 0 0) []
    else s

/-- Three-bit codes packed from bit 0 into bytes (R240). -/
def packCodes (codes : List Nat) : List Nat :=
  leBytes ((3 * codes.length + 7) / 8) (codes.foldr (fun c a => c % 8 + 8 * a) 0)

/-- TONE_MAP_ISSUE (R230, R240): as receiver of a sounding frame the module issues a map, rate and codes of its own choice, under an identifier
that differs from the one in force, and the map before decodes for 2 beacon periods more; the map goes out as data of the link. As sender
(`mine` false) it takes a map with its identifier, unless a code 7 makes it invalid. -/
def execToneMapIssue (stn : Nat) (mine : Bool) (id rate : Nat) (codes : List Nat) (s : State) :
    Host.Outcome State Fault Refusal :=
  .next <|
    if !s.plcHas stn then s
    else
      let x := s.plcLink stn
      if mine then
        if !x.sounded then s
        else
        let n := if x.issued < 2 ∨ x.issued = 7 then 2 else x.issued + 1
        let map := [n, rate % 3] ++ packCodes ((List.range 1155).map fun i => codes.getD i 0)
        ((s.setPlc stn { x with issued := n, oldMap := x.issued, oldAt := some s.stamp, sounded := false, queue := x.queue ++ [(false, 0, map)] }).inc
          PLC_CNT2.TMAP_REF).log 0x0706 INFO [stn, n]
      else s.plcMap stn id rate codes

/-- TONE_MAP_REFRESH (R240): 30 s since the map was issued; one sounding serves a refresh and a degradation together (R246). -/
def execToneMapRefresh (stn secs : Nat) (s : State) : Host.Outcome State Fault Refusal :=
  .next <| if s.plcHas stn && decide (30 ≤ secs) then s.setPlc stn { s.plcLink stn with sound := true } else s

/-- LINK_DEGRADED (R233, R240): 4 or more failures among the last 32 segments, none of an impulse. Those received say that a new map is due, for
which the other side, whose acknowledgements tell it the same, sends its sounding; those sent, that this side owes one and goes robust 4× at once
until the map arrives (DEDUCED, log 113). -/
def execLinkDegraded (stn : Nat) (s : State) : Host.Outcome State Fault Refusal :=
  .next <|
    let x := s.plcLink stn
    let rx := decide (4 ≤ (x.window.filter id).length)
    let tx := decide (4 ≤ (x.txWindow.filter id).length)
    if s.plcHas stn && (rx || tx) then
      let y := if tx then { x with tm := 0, rate := 0, codes := [], sound := true } else x
      ((s.setPlc stn { y with window := [], txWindow := [] }).put PLC_STAT.DEGR_SEEN 1).log 0x0707 WARNING [stn]
    else s

/-- RANGING (R191, R237, R242, R243): in a slot that holds its 2 symbols, four stamps in 125 ps; `DLY` is the mean of the last 8. The first exchange after association
makes the link ACTIVE where `PLC_EN` is 1, `LINK_HOLD` after a loss within the last 60 s. -/
def execRanging (stn : Nat) (t1 t2 t3 t4 : Int) (stableMs : Nat) (downS : Option Nat) (s : State) :
    Host.Outcome State Fault Refusal :=
  .next <|
    if s.plcHas stn && decide (2 ≤ s.plcLeft) then
      let x := s.plcLink stn
      let a := s.geti PLC_ASYM.PL_ASYM
      let d := ((t4 - t1) - (t3 - t2)) / 2 + a
      let l := (d :: x.dly).take 8
      let mean := l.foldl (· + ·) 0 / (l.length : Int)
      let held := match downS with
        | some n => decide (60 < n) || decide (100 * clampN 1 100 (s.get FAB_TIMERS2.LINK_HOLD) ≤ stableMs)
        | none => true
      let up := !x.active && held && s.is FAB_CTRL.PLC_EN
      let s1 := s.setPlc stn { x with dly := l, active := x.active || up }
      let s2 := (if stn = 0 then s1.put PLC_DLY.DLY (clampI 0 (2 ^ 20 - 1) mean).toNat else s1).plcEmit .plcRange stn (s.plcControl 6 stn 0 0 0 0 0 0) []
      if up then (if s.plcUp then s2.linkReport else s2.fabLinkUp) else s2
    else s

/-- COUPLER_ABSENT (R41, R45, R226, R246): PLC_DET high for 1 ms; links go DOWN. A port that is not configured is absent without a fault. -/
def execCouplerAbsent (ms : Nat) (s : State) : Host.Outcome State Fault Refusal :=
  .next <|
    if ms < 1 then s
    else
      let s1 := { s with pins := { s.pins with plcDet := true } }
      if !s1.runs 9 then s1
      else if s1.get PLC_STAT.STATE = 0 then s1.plcState 1
      else if s1.get PLC_STAT.STATE = 1 then s1
      else ((s1.plcAllDown.plcState 1).put PLC_STAT.ABS_SEEN 1).log 0x070A WARNING

/-- COUPLER_PRESENT (R247): PLC_DET low again; the module listens where the channel is enabled. -/
def execCouplerPresent (s : State) : Host.Outcome State Fault Refusal :=
  .next <|
    let s1 := { s with pins := { s.pins with plcDet := false } }
    if s1.runs 9 && s1.get PLC_STAT.STATE == 1 then (s1.plcState s1.plcIdle).put PLC_BEACON.MISSED 0 else s1

end Sys2Proof.Machine
end

