-- ==== Sys2Proof/Machine/Pins.lean ====
section
/-! DEFINITION. What each output pin is at (R42): a view of the state, with the column "Unpowered", the column "Own domain off or in
reset" and, while the domain runs, what its block does with the pin. -/

namespace Sys2Proof.Machine

open R

/-- The output pins of R42, numbered as the connector tables number them. -/
inductive Pin where
  | gateH (n : Nat) | gateL (n : Nat) | gden (c : Nat) | ls (n : Nat) | sns | auxDrv (a : Nat)
  | modClk (k : Nat) | modVdd (k : Nat) | pul (n : Nat) | dispTxd | dispPwr
  | laneTx (n : Nat) | laneTxdis (n : Nat) | eth | t1s (c : Nat) | plc | can (p : Nat) | rf (e : Nat)
  | nvmClk | nvmIo | nvmVcc | nvmCs | apo | ilSrc (c : Nat) | mesh | ready | fioVref | tmxA (k : Nat) | tmxD (k : Nat)
deriving DecidableEq, Repr

/-- What a pin is at: the words of R42, and `runs` where its block drives the pin with its own signal; for SNS the current it sources in
µA, and `unsettled` while that is not valid (R397). -/
inductive PinAt where
  | low | high | off | on | highZ | nonConducting | conducting | noCurrent | current (ua : Nat) | unsettled | idle | notTransmitting | recessive
  | noEmission | notSampled | sampled | runs
deriving DecidableEq, Repr

/-- The column "Unpowered" of R42. -/
def Pin.unpowered : Pin → PinAt
  | .gateH _ | .gateL _ | .gden _ | .auxDrv _ | .ready => .low
  | .ls _ | .modClk _ | .modVdd _ | .dispTxd | .dispPwr | .nvmVcc | .nvmCs | .ilSrc _ | .fioVref => .off
  | .pul _ => .nonConducting
  | .sns => .noCurrent
  | .laneTx _ => .idle
  | .rf _ => .noEmission
  | .mesh => .notSampled
  | .laneTxdis _ | .eth | .t1s _ | .plc | .can _ | .nvmClk | .nvmIo | .apo | .tmxA _ | .tmxD _ => .highZ

/-- The domain of a pin. The phase pins are those of PH0 in D5 and of PH1 in D6; GDEN and FIO_VREF stand in D1. -/
def Pin.domain : Pin → Nat
  | .gateH n | .gateL n => 5 + portOf n
  | .gden _ | .ready | .fioVref => 1
  | .ls _ | .sns | .auxDrv _ | .ilSrc _ => 10
  | .modClk _ | .modVdd _ | .pul _ | .dispTxd | .dispPwr => 2
  | .laneTx _ | .laneTxdis _ => 8
  | .eth | .t1s _ | .plc | .can _ | .rf _ => 9
  | .nvmClk | .nvmIo | .nvmVcc | .nvmCs | .tmxA _ | .tmxD _ => 3
  | .apo => 4
  | .mesh => 0

/-- The column "Own domain off or in reset" of R42. -/
def Pin.held : Pin → PinAt
  | .gateH _ | .gateL _ | .gden _ | .auxDrv _ | .ready | .apo => .low
  | .ls _ | .modClk _ | .modVdd _ | .dispTxd | .dispPwr | .nvmVcc | .nvmCs | .ilSrc _ | .fioVref => .off
  | .pul _ => .nonConducting
  | .sns => .noCurrent
  | .laneTx _ => .idle
  | .laneTxdis _ => .high
  | .eth | .t1s _ | .plc => .notTransmitting
  | .can _ => .recessive
  | .rf _ => .noEmission
  | .nvmClk | .nvmIo | .tmxA _ | .tmxD _ => .highZ
  | .mesh => .sampled

/-- A level. -/
def levelOf (b : Bool) : PinAt := if b then .high else .low

/-- The level of a digital test output with a code (R522), where the state holds its signal; a pulse, a clock or a bitstream `runs`. A gate
copy follows its pin, and the watchdog's output toggles at each correct `KICK`. -/
def State.tmxLevel (s : State) (code : Nat) : PinAt :=
  if code = 0 then .highZ
  else if code ≤ 0x60 then levelOf (bit s.pins.gateH (code - 1))
  else if code = 0x6D then levelOf (s.is TB_STAT.DLL_LOCK)
  else if 0x70 ≤ code ∧ code ≤ 0x73 then (if s.runs 2 && bit s.banksOn (code - 0x70) then .runs else .low)
  else if code = 0x78 then levelOf (s.is SAF_STAT.ACTIVE)
  else if code = 0x79 then levelOf (s.saf.kick == 0xA5)
  else .runs

/-- The voltage of an analog test output with a code (R522), in µV, where the state holds its signal: the threshold DACs, the hold-up store,
AUXa_FB and the internal sensors. The mains lines and the metrology channels are none of them. -/
def State.tmxVolts (s : State) (code : Nat) : Option Int :=
  if code = 0 then none
  else if code ≤ 0x60 then some (1250000 + ((s.ph (code - 1)).dac - 524288) * 6103515625 / 2560000000)
  else if code = 0x61 then some (12500 * s.get PWR_HOLDUP.VSTORE : Nat)
  else if code ≤ 0x67 then some (2500000 * s.get PWR_AUX_STAT.FB (code - 0x62) / 4096 : Nat)
  else if 0x70 ≤ code ∧ code ≤ 0x7F then some ((s.geti TH_INT_VAL.T (code - 0x70) + 500) * 1000)
  else none

/-- What SNS sources (R397): I_LS / 2,000 of a selected channel that is ON, nothing where it is OFF, and 5 mA in WAIT, UVLO and LATCHED. -/
def State.snsAt (s : State) : PinAt :=
  match s.pins.sns with
  | none => .unsettled
  | some n =>
    match s.get LSW_CH_STAT.STATE n with
    | 0 => .noCurrent
    | 1 => if s.is LSW_BANK.SNS_VALID then .current (5 * s.get LSW_CH_MEAS.I_MEAS n) else .unsettled
    | _ => .current 5000

/-- What a pin is at while its domain runs. -/
def State.pinRuns (s : State) : Pin → PinAt
  | .gateH n => levelOf (bit s.pins.gateH n)
  | .gateL n => levelOf (bit s.pins.gateL n)
  | .gden c => levelOf (bit s.pins.gden c)
  | .ls n => if bit s.pins.ls n then .on else .off
  | .sns => s.snsAt
  | .auxDrv a => levelOf (bit s.pins.auxDrv a && !s.is SAF_STAT.ACTIVE)
  | .modClk k => if bit s.banksOn k then .runs else .off
  | .modVdd k => if bit s.banksOn k then .on else .off
  | .dispTxd => if s.dispRuns then .runs else .off
  | .dispPwr => if s.dispRuns then .on else .off
  | .nvmVcc | .fioVref => .on
  | .pul n => if bit s.pins.pul n then .conducting else .nonConducting
  | .laneTx n => if bit (s.get FAB_CTRL.LANE_EN) n && decide (1 ≤ s.get FAB_LANE_STAT.STATE n) then .runs else .idle
  | .laneTxdis n => levelOf (!bit (s.get FAB_CTRL.LANE_EN) n || s.get FAB_LANE_STAT.STATE n == 0)
  | .eth => if s.is SYS_NET_CFG.ETH_EN then .runs else .notTransmitting
  | .t1s c => if (s.conn c).link then .runs else .notTransmitting
  | .plc => if 2 ≤ s.get PLC_STAT.STATE && !s.pins.plcDet then .runs else .notTransmitting
  | .can p => if 2 ≤ s.get CAN_STAT.STATE p then .runs else .recessive
  | .rf _ => if s.cs.sweeping || s.cs.busy then .runs else .noEmission
  | .nvmClk | .nvmIo | .nvmCs => .runs
  | .apo => levelOf s.pins.apo
  | .ilSrc _ => if s.role 2 then .on else .off
  | .mesh => .sampled
  | .ready => levelOf (s.is SYS_READY.PIN)
  | .tmxA k => if bit (s.get TMX_STAT.ACT_A) k then .runs else .highZ
  | .tmxD k => if bit (s.get TMX_STAT.ACT_D) k then s.tmxLevel (s.get TMX_SEL_D.SEL k) else .highZ

/-- What a pin is at (R42): D0 off stands for a module without VSUP and VBAT. The load switches are held by Freeze while their own domain
is in reset. -/
def State.pinAt (s : State) (p : Pin) : PinAt :=
  if !bit (s.get PWR_DOM_STAT.ON) 0 then p.unpowered
  else if s.runs p.domain then s.pinRuns p
  else match p with
    | .ls n => if s.is SAF_STAT.FRZ && bit s.pins.ls n then .on else .off
    | _ => p.held

end Sys2Proof.Machine
end

