-- ==== Sys2Proof/Machine/Switches.lean ====
section
/-! DEFINITION. What each load-switch command does (spec/16_load_switches.md). A command whose condition the manual states and the
state or its measurement does not meet leaves the state unchanged. -/

namespace Sys2Proof.Machine

open R

/-- The state of a channel (R392): 0 OFF, 1 ON, 2 WAIT, 3 UVLO, 4 LATCHED. -/
def State.chSt (s : State) (n : Nat) : Nat := s.get LSW_CH_STAT.STATE n

/-- A register write of `ON` (R387, R392): refused for a channel that another owner commands. A launched action of the same strobe comes
after it and stands (R398). -/
def State.onWrite (s : State) (sess n : Nat) (on : Bool) : State :=
  if s.ownerOf n ≠ 2 then s.report sess 2 else if bit s.lsw.acted n then s else s.lswCommand n on

/-- CHANNEL_ON (R392). -/
def execChannelOn (sess n : Nat) (s : State) : Host.Outcome State Fault Refusal :=
  .next <| if 16 ≤ n then s else s.guarded sess LSW_CH_CTRL.ON fun t => t.onWrite sess n true

/-- CHANNEL_OFF (R392). -/
def execChannelOff (sess n : Nat) (s : State) : Host.Outcome State Fault Refusal :=
  .next <| if 16 ≤ n then s else s.guarded sess LSW_CH_CTRL.ON fun t => t.onWrite sess n false

/-- An ON channel goes off by its protection (R391, R392): to LATCHED with a cause, or to WAIT; a contactor channel requests
Safe-Off (R393). -/
def State.lswTrip (s : State) (n code cause : Nat) : State :=
  let clr := fun (t : State) => { t with pins := { t.pins with latch := clrBit t.pins.latch n } }
  if cause = 0 then (clr (s.lswState n 2)).lswPins.lswProtect n code
  else
    let s1 := (((s.put LSW_CH_CTRL.ON 0 n).lswState n 4).put LSW_CH_STAT.LATCH_SEEN 1 n).log 0x0D04 FAULT [n, cause]
    (clr s1).lswPins.lswProtect n code

/-- The restarts are exhausted; with `RST_MAX` 0 every trip and shutdown latches (R391). -/
def State.exhausted (s : State) (n : Nat) : Bool :=
  s.get LSW_CH_RST.RST_MAX n == 0 || s.get LSW_CH_STAT.RST_CNT n == s.get LSW_CH_RST.RST_MAX n

/-- The over-current trip is due (R390): the current above `I_TRIP` for `T_TRIP`, of which only the time after `T_BLANK` counts. -/
def State.tripDue (s : State) (n onMs t i : Nat) : Bool :=
  s.lswRuns && decide (n < 16) && s.chSt n == 1 && decide (s.get LSW_CH_CFG.T_BLANK n ≤ onMs) &&
    decide (max 1 (s.get LSW_CH_CFG.T_TRIP n) ≤ min t (10 * (onMs - s.get LSW_CH_CFG.T_BLANK n))) &&
    decide (10 * clampN 5 80 (s.get LSW_CH_CFG.I_TRIP n) < i)

/-- A thermal shutdown of the channel comes in the same base period (R398): it waits in the queue (log 4, log 131). -/
def State.shutComes (s : State) (n : Nat) : Bool :=
  s.pending.any fun c => match c with
    | .thermalShutdown m tj => m == n && decide (175 ≤ tj)
    | _ => false

/-- A trip or a thermal shutdown of the channel comes in the same base period (R398). -/
def State.tripComes (s : State) (n : Nat) : Bool :=
  s.shutComes n || s.pending.any fun c => match c with
    | .overCurrentTrip m onMs t i => m == n && s.tripDue n onMs t i
    | _ => false

/-- OVER_CURRENT_TRIP (R390 to R392): the ms since the channel entered ON, the time above `I_TRIP` in 0.1 ms, the current in
10 mA. Together with a thermal shutdown there is one entry, the shutdown's (R398). -/
def execOverCurrentTrip (n onMs t i : Nat) (s : State) : Host.Outcome State Fault Refusal :=
  .next <|
    if s.shutComes n then s
    else if s.tripDue n onMs t i then
      let s1 := ((s.putMax LSW_CH_MEAS.I_MEAS i n).put LSW_CH_STAT.TRIP_SEEN 1 n).inc LSW_CH_CNT.TRIPS n
      let s2 := s1.log 0x0D01 WARNING ([n, 0] ++ leBytes 2 (min (i / 10) 0xFFFF))
      s2.lswTrip n 0x0D01 (if !s.is LSW_CH_CFG.OC_MODE n then 1 else if s.exhausted n then 3 else 0)
    else s

/-- An ON channel shuts down (R391, R392). -/
def State.lswShut (s : State) (n : Nat) : State :=
  let s1 := ((s.put LSW_CH_STAT.TSD_SEEN 1 n).inc LSW_CH_CNT.TSDS n).log 0x0D02 WARNING [n]
  s1.lswTrip n 0x0D02 (if s.is LSW_CH_CFG.TH_LATCH n then 2 else if s.exhausted n then 3 else 0)

/-- THERMAL_SHUTDOWN (R390 to R392, R396): the junction temperature in °C; it acts in every state, while D10 is in reset too. -/
def execThermalShutdown (n : Nat) (tj : Int) (s : State) : Host.Outcome State Fault Refusal :=
  .next <|
    if n < 16 ∧ 175 ≤ tj then
      let s1 := s.lswJunction n tj
      if s.chSt n = 1 then s1.lswShut n else s1
    else s

/-- A channel leaves WAIT for ON, and the restart counts (R391, R392). -/
def State.lswRestart (s : State) (n : Nat) : State :=
  let s1 := (s.inc LSW_CH_STAT.RST_CNT n).lswState n 1
  s1.log 0x0D03 INFO [n, s1.get LSW_CH_STAT.RST_CNT n]

/-- AUTOMATIC_RESTART (R392, R398): the time since the output went off in 10 ms, and the junction temperature, which counts for a channel
that a thermal shutdown holds off in another state too (R385). Where `RST_T` ends with the junction at 175 °C the restart counts and the
shutdown follows (log 131). -/
def execAutomaticRestart (n t : Nat) (tj : Int) (s : State) : Host.Outcome State Fault Refusal :=
  .next <|
    if s.lswRuns && decide (n < 16) then
      let s1 := s.lswJunction n tj
      if s.chSt n == 2 && decide (max 1 (s.get LSW_CH_RST.RST_T n) ≤ t) && !s.bankLow (bankOf n) then
        if tj < 160 && !s.shutComes n then s1.lswRestart n
        else if 175 ≤ tj then (s1.lswRestart n).lswShut n
        else s1
      else s1
    else s

/-- RESTART_WINDOW (R391): the seconds ON without a trip. A trip at the same instant is judged with the count before (R398). -/
def execRestartWindow (n secs : Nat) (s : State) : Host.Outcome State Fault Refusal :=
  .next <|
    if s.lswRuns && decide (n < 16) && s.chSt n == 1 && decide (max 1 (s.get LSW_CH_RST.RST_WIN n) ≤ secs) && !s.tripComes n then
      s.put LSW_CH_STAT.RST_CNT 0 n
    else s

/-- The channels of a bank in one state go to another. -/
def State.bankMove (s : State) (b old new : Nat) : State :=
  s.each 8 fun i t => if t.chSt (8 * b + i) = old then t.lswState (8 * b + i) new else t

/-- The UVLO channels of a bank return to ON, but those whose junction has to cool (R385, R392). -/
def State.bankUp (s : State) (b : Nat) : State :=
  s.each 8 fun i t => if t.chSt (8 * b + i) = 3 ∧ bit t.lsw.hot (8 * b + i) = false then t.lswState (8 * b + i) 1 else t

/-- A bank's undervoltage begins or ends: `UV_A` or `UV_B` shows it and 0x0D06 is logged (R392). -/
def State.bankUv (s : State) (b : Nat) (on : Bool) : State :=
  let s1 := { s with lsw := { s.lsw with low := if on then setBit s.lsw.low b else clrBit s.lsw.low b } }
  s1.lswBanks.log 0x0D06 WARNING [b, on.toNat]

/-- LSW0 is used (R45): the role set needs it, a channel is owned or commanded on, or one is configured (log 95). -/
def State.lswUsed (s : State) : Bool :=
  s.role 2 || (List.range 16).any fun n => s.ownerOf n != 2 || s.is LSW_CH_CTRL.ON n || s.lswLoop n ||
    s.word (LSW_CH_CFG.PWM_F.at n 0) != resetWord (LSW_CH_CFG.PWM_F.at n 0)

/-- A bank's supply as measured, in mV, in `PWR_VLS`. -/
def State.bankVolt (s : State) (b mv : Nat) : State :=
  if b = 0 then s.putMax PWR_VLS.VLSA (mv / 10) else if b = 1 then s.putMax PWR_VLS.VLSB (mv / 10) else s

/-- BANK_UNDERVOLTAGE (R45, R392): bank 0 A or 1 B, its supply in mV and the µs below 9.0 V. The supplies of an unused LSW0 may be left
open, and raise no fault. The states of channels that Freeze holds follow at Thaw (R396). -/
def execBankUndervoltage (b mv us : Nat) (s : State) : Host.Outcome State Fault Refusal :=
  .next <|
    if decide (b < 2) && s.lswLogic && s.lswUsed then
      let s1 := s.bankVolt b mv
      if mv < 9000 ∧ 50 ≤ us then
        let s2 := s1.when (!s.bankLow b) fun t => (t.put LSW_BANK.UV_SEEN 1).bankUv b true
        s2.when s.lswRuns fun t => t.bankMove b 1 3
      else s1
    else s

/-- BANK_UNDERVOLTAGE_EXIT (R392). -/
def execBankUndervoltageExit (b mv : Nat) (s : State) : Host.Outcome State Fault Refusal :=
  .next <|
    if decide (b < 2) && s.lswLogic && s.bankLow b && decide (9500 ≤ mv) then
      ((s.bankVolt b mv).bankUv b false).when s.lswRuns fun t => t.bankUp b
    else s

/-- A write of 1 to `CLR` (R391, R392): with the junction at or above 160 °C, or outside LATCHED, it has no effect. -/
def State.latchRelease (s : State) (n : Nat) : State :=
  if s.chSt n = 4 ∧ s.geti LSW_CH_MEAS.TJ n < 160 then
    ((s.put LSW_CH_STAT.RST_CNT 0 n).lswState n 0).log 0x0D05 NOTICE [n]
  else s

/-- LATCH_CLEAR (R392): the junction temperature as measured. -/
def execLatchClear (sess n : Nat) (tj : Int) (s : State) : Host.Outcome State Fault Refusal :=
  .next <| if 16 ≤ n then s else (s.lswJunction n tj).guarded sess LSW_CH_CTRL.CLR fun t => t.latchRelease n

/-- SWITCH_CHANNELS (R389): a channel set in both masks is commanded off. The channels are marked for a register write of the same strobe,
which comes before the action (R398). -/
def execSwitchChannels (s : State) : Host.Outcome State Fault Refusal :=
  .next <| s.laRun 0x01B 1 fun a t =>
    let on := bytesAt a.body 0 2
    let off := bytesAt a.body 2 2
    let t1 := t.each 16 fun n u => if bit off n then u.lswCommand n false else if bit on n then u.lswCommand n true else u
    { t1 with lsw := { t1.lsw with acted := Nat.lor t1.lsw.acted (Nat.lor on off) } }

/-- OPEN_LOAD (R394): the ms ON after `T_BLANK` for which the current has been below 50 mA, and the current in 10 mA, which `I_MEAS` shows
for every channel (R397); `OL` clears when current flows (R399). -/
def execOpenLoad (n ms i : Nat) (s : State) : Host.Outcome State Fault Refusal :=
  .next <|
    if s.lswLogic && decide (n < 16) then
      let s1 := s.putMax LSW_CH_MEAS.I_MEAS i n
      if !s.lswRuns || s.chSt n != 1 || !s.is LSW_CH_CFG.OL_EN n then s1
      else if 5 ≤ i then s1.put LSW_CH_STAT.OL 0 n
      else if 100 ≤ ms ∧ ¬ s.is LSW_CH_STAT.OL n then (s1.put LSW_CH_STAT.OL 1 n).log 0x0D07 WARNING [n]
      else s1
    else s

end Sys2Proof.Machine
end

