-- ==== Sys2Proof/Machine/BootOps.lean ====
section
/-! DEFINITION. Freeze and Thaw (R466, R467), the flash and what it holds (R471 to R481), and the two ends of a reset (R69 to R82):
what it stops and clears, and what the start-up sequence of R73 or R77 does from step 1 to step 9. -/

namespace Sys2Proof.Machine

open R

/-! ### Freeze and Thaw -/

/-- D1's copies of the connector fields, for the connectors in `DISP_CONN` (R455). -/
def State.safCopy (s : State) : State :=
  s.each 2 fun c t =>
    if t.connUsed c then
      let t1 := (t.put SAF_CONN.LS_POS (t.get VS_CONN_CFG.LS_POS c) c).put SAF_CONN.LS_NEG (t.get VS_CONN_CFG.LS_NEG c) c
      (t1.put SAF_CONN.PT (t1.get VS_CONN_CFG.PT c) c).put SAF_CONN.I_OPEN (t1.get VS_CONN_SEQ.I_OPEN c) c
    else t

/-- The connectors with a contactor channel in a bit map of channels. -/
def State.connsIn (s : State) (hold : Nat) : Nat :=
  (List.range 2).foldl (fun m c =>
    let p := s.get SAF_CONN.LS_POS c
    let n := s.get SAF_CONN.LS_NEG c
    if (p < 16 ∧ bit hold p) ∨ (n < 16 ∧ bit hold n) then setBit m c else m) 0

/-- The Freeze record is written (R466); one that waits for Thaw is kept. -/
def State.freeze (s : State) (kind : Nat) : State :=
  if s.is SAF_STAT.FRZ then s
  else
    let hold := s.get LSW_STAT.OUT
    let s1 := { s with
      pins := { s.pins with latch := hold }
      boot := { s.boot with frzOwner := (List.range 16).map s.ownerOf } }
    let s2 := ((s1.put SAF_FRZ.HOLD hold).put SAF_FRZ.CONN (s1.connsIn hold)).put SAF_FRZ.SO (s1.get SAF_STAT.ACTIVE)
    let s3 := ((s2.put SAF_FRZ.KIND kind).put SAF_STAT.FRZ 1).put SYS_READY.FRZ_PEND 1
    s3.lswPins.log 0x120A NOTICE (leBytes 2 hold ++ [kind])

/-- What Thaw does with one channel that is held on: handed over, switched off, or left with the sequencer (R467). -/
inductive ThawTo where
  | handed | off | sequencer
deriving DecidableEq, Repr

/-- Row by row of R467. -/
def State.thawOf (s : State) (n : Nat) : ThawTo :=
  if s.vsNames n then (if s.is SAF_STAT.ACTIVE then .sequencer else .handed)
  else
    let now := s.ownerOf n
    if s.boot.frzOwner.getD n 2 = now ∧ now ≠ 0 then .handed else .off

/-- Thaw (R467): the contactors of the connectors in use are opened under R459, unless Safe-Off has them; the other channels go back
to their owners or off. -/
def State.thaw (s : State) : State :=
  if !s.is SAF_STAT.FRZ then s
  else
    let hold := Nat.land (s.get SAF_FRZ.HOLD) s.pins.latch
    let pick := fun (k : ThawTo) => (List.range 16).foldl (fun m n => if bit hold n && s.thawOf n == k then setBit m n else m) 0
    let off := pick .off
    let s1 := ((s.put SAF_STAT.FRZ 0).put SYS_READY.FRZ_PEND 0)
    let s2 := s1.each 16 fun n t =>
      if bit off n then (if t.chSt n = 4 then t else (t.put LSW_CH_CTRL.ON 0 n).lswState n 0) else (t.when (bit hold n && t.thawOf n == .handed && !t.vsNames n) fun u => u.put LSW_CH_CTRL.ON 1 n).lswResume n
    let s3 := s2.each 2 fun c t =>
      if t.connUsed c && !t.is SAF_STAT.ACTIVE && t.contactorOn c then
        { t.setSeq c 1 with saf := { (t.setSeq c 1).saf with list := 3 } } else t
    ((s3.put SAF_THAW.HANDED (pick .handed)).put SAF_THAW.SWOFF off).log 0x120B INFO
      (leBytes 2 (pick .handed) ++ leBytes 2 off)

/-! ### The flash (R471) -/

/-- The end of the areas of the flash that the module reads and writes: the rest of the first 64 MiB is reserved (R34, R471). -/
def flEnd : Nat := 0x2A00000

/-- A byte of the flash; an unlisted cell is erased and reads 0xFF. A reserved area is never read. -/
def State.flByte (s : State) (a : Nat) : Nat := if a < flEnd then (Memory.read s.flash a).toNat else 0xFF

/-- `n` bytes of the flash. -/
def State.flBytes (s : State) (a n : Nat) : List Nat := (List.range n).map fun i => s.flByte (a + i)

/-- A little-endian value of the flash. -/
def State.flLe (s : State) (a n : Nat) : Nat := ofLeBytes (s.flBytes a n)

/-- The start and the size of a firmware bank (R471). -/
def bankAt (u b : Nat) : Nat × Nat :=
  match u with
  | 0 => (0x400000 + 0x800000 * b, 0x800000)
  | 1 => (0x1400000 + 0x200000 * b, 0x200000)
  | 2 => (0x1800000 + 0x200000 * b, 0x200000)
  | 3 => (0x1C00000 + 0x400000 * b, 0x400000)
  | 4 => (0x2400000 + 0x100000 * b, 0x100000)
  | 5 => (0x2600000 + 0x100000 * b, 0x100000)
  | _ => (0x2800000 + 0x100000 * b, 0x100000)

/-- The digest of a firmware bank that starts at `a` verifies: bytes 16 to 63 are the SHA-384 of the body (R473). -/
def State.fwDigOk (s : State) (a : Nat) : Bool := s.flBytes (a + 16) 48 == sha384 (s.flBytes (a + 160) (s.flLe (a + 12) 4))

/-- A firmware bank passes the checks of R474; `verified` says whether its signature verifies. -/
def State.fwOk (s : State) (u b : Nat) (verified : Bool) : Bool :=
  let (a, size) := bankAt u b
  (s.flBytes a 4 == [0x4D, 0x44, 0x4E, 0x46]) && s.flByte (a + 4) == u && decide (160 + s.flLe (a + 12) 4 ≤ size) && verified &&
    s.fwDigOk a && decide (s.get UPD_FW_MINSEC.MINSEC u ≤ s.flLe (a + 6) 2) && decide (s.flByte (a + 5) ≤ s.get UPD_COMPAT.LEVEL)

/-- A bank of a unit comes into force. -/
def State.fwTake (s : State) (u b : Nat) : State :=
  let a := (bankAt u b).1
  let act := if b = 1 then setBit s.updN.act u else clrBit s.updN.act u
  let s1 := { s with updN := { s.updN with act } }.put UPD_FW_CTRL.ACT act
  ((s1.put UPD_FW_VER.SECVER (s1.flLe (a + 6) 2) u).put UPD_FW_VER.FW_LEVEL (s1.flByte (a + 5)) u).put
    UPD_FW_NUM.VERSION (s1.flLe (a + 8) 4) u

/-- `MET_FW_DIG` of a bank of unit 1: the low 32 bits of the digest of the bank (R485). -/
def State.metFwDig (s : State) (b : Nat) : Nat :=
  let (a, size) := bankAt 1 b
  shaLow 32 (s.flBytes a (min size (160 + s.flLe (a + 12) 4)))

/-- The bank of a unit that `NEXT` names. -/
def State.fwNext (s : State) (u : Nat) : Nat := if bit (s.get UPD_FW_CTRL.NEXT) u then 1 else 0

/-- Step 7 for one unit (R474): `bad` are the banks whose signature fails, bit 2u + b. -/
def State.fwLoad (s : State) (bad u : Nat) : State :=
  let b := s.fwNext u
  let ok := fun (c : Nat) => s.fwOk u c (!bit bad (2 * u + c))
  let mark := fun (t : State) (f : Bool) =>
    { t with boot := { t.boot with fwBad := if f then setBit t.boot.fwBad u else clrBit t.boot.fwBad u } }
  if ok b then mark (s.fwTake u b) false
  else
    let s1 := s.log 0x1106 FAULT [u, b]
    if ok (1 - b) then mark (s1.fwTake u (1 - b)) false else mark (s1.log 0x1106 FAULT [u, 1 - b]) true

/-- The domain of a firmware unit (R471). -/
def unitDomain : Nat → Nat
  | 0 => 3 | 1 => 2 | 2 => 8 | 3 => 9 | 4 => 7 | 5 => 10 | _ => 11

/-! ### The hold-up store (R50) -/

/-- While `HOLDUP_OK` is 0 no phase is enabled (R50). -/
def State.holdupOk (s : State) (ok : Bool) : State :=
  let s1 := s.putb PWR_HOLDUP.HOLDUP_OK ok
  if ok then s1 else s1.stopPhases

/-- `HOLDUP_OK`: the store is at or above 40 V and its last test passed; with `HOLDUP_ENF` = 0 a failed test does not count, but before
the first test it reads 0 (R50). -/
def State.holdupShow (s : State) : State :=
  s.holdupOk (decide (160 ≤ s.get PWR_HOLDUP.VSTORE) &&
    (match s.boot.storeTest with | none => false | some p => p || !s.is PWR_HOLDUP.HOLDUP_ENF))

/-! ### The Soster image (R478 to R481) -/

/-- An entry of the section table (R478) in a bank that starts at `base`. -/
structure Sect where
  base : Nat
  num : Nat
  level : Nat
  siglen : Nat
  off : Nat
  len : Nat
  ver : Nat
deriving DecidableEq, Repr

/-- The start of a configuration bank (R471). -/
def cfgBase (b : Nat) : Nat := 0x200000 * b

/-- The header of a configuration bank verifies (R478, R481). -/
def State.imageOk (s : State) (b : Nat) : Bool :=
  let a := cfgBase b
  let n := s.flLe (a + 6) 2
  let ser := s.flLe (a + 16) 8
  (s.flBytes a 4 == [0x4D, 0x44, 0x4E, 0x43]) && s.flLe (a + 4) 2 == 1 && decide (1 ≤ n) && decide (n ≤ 64) &&
    (ser == 0 || ser == s.serial) && crc32 (s.flBytes a 24 ++ s.flBytes (a + 28) (16 * n)) == s.flLe (a + 24) 4

/-- The section table of a bank. -/
def State.sections (s : State) (b : Nat) : List Sect :=
  let a := cfgBase b
  (List.range (s.flLe (a + 6) 2)).map fun i =>
    let e := a + 28 + 16 * i
    { base := a, num := s.flByte e, level := s.flByte (e + 1), siglen := s.flLe (e + 2) 2, off := s.flLe (e + 4) 4,
      len := s.flLe (e + 8) 4, ver := s.flLe (e + 12) 4 }

/-- An entry of a section body: address, value, mask. -/
abbrev Entry := Nat × Nat × Nat

/-- The entries of a section (R478). -/
def State.entries (s : State) (e : Sect) : List Entry :=
  (List.range (e.len / 12)).map fun i =>
    let a := e.base + e.off + 12 * i
    (s.flLe a 4, s.flLe (a + 4) 4, s.flLe (a + 8) 4)

/-- The bits of a word that are of class C. -/
def classMask (a : Nat) : Word := (fieldsAt a).foldl (fun m f => if f.cls = .C then m ||| f.mask else m) 0

/-- The addresses a section may name (R479): those of its block; the role section's and the site part's own. -/
def sectNames (n a : Nat) : Bool :=
  if n < 0x14 then a / 0x10000 == n && a != 0x40
  else if n = 0x14 then a == 0x40
  else n == 0x15 && (a == 0x50004 || a == 0x50008 || a == 0x50024 || a == 0x50048 || a == 0x50054 || a == 0x50104)

/-- A section's signature (R480): by the SHA-256 of the signed bytes while no anchor is named, else by the anchor's key, whose verdict
is given. -/
def State.sectSigned (s : State) (e : Sect) (verified : Bool) : Bool :=
  if s.get UPD_CFG.CFG_ANCHOR = 0x3F then
    e.siglen == 32 &&
      s.flBytes (e.base + e.off + e.len) 32 == beBytes 32 (sha256 (s.flBytes (e.base + e.off) e.len ++ [e.num] ++
        leBytes 4 e.ver ++ s.flBytes (e.base + 16) 8)).toNat
  else verified && s.slotAnchor (s.get UPD_CFG.CFG_ANCHOR)

/-- The outcome of a section's checks as a `STATUS` of `UPD_SECT_CMD`: 0 passes, 4 not verified, 5 invalid or sealed address, 8
level (R479, R480). -/
def State.sectCheck (s : State) (e : Sect) (verified : Bool) : Nat :=
  if 0x15 < e.num ∨ flEnd < e.base + e.off + e.len + e.siglen ∨ !s.sectSigned e verified then 4
  else if (s.entries e).any fun (x : Entry) =>
      let m := BitVec.ofNat 32 x.2.2
      !sectNames e.num x.1 || m &&& ~~~classMask x.1 != 0 || m &&& sealedBits x.1 != 0 then 5
  else if s.get UPD_COMPAT.LEVEL < e.level then 8
  else 0

/-- Writes the masked bits of an entry, whatever their access code: the loader's own write. -/
def State.entryRaw (s : State) (x : Entry) : State :=
  let m := BitVec.ofNat 32 x.2.2
  s.setWord x.1 ((s.word x.1 &&& ~~~m) ||| (BitVec.ofNat 32 x.2.1 &&& m))

/-- The feed-forward points of a section (R158): the n-th entry for `LE_FF_DATA` fills the n-th point, in both banks. -/
def State.imagePoints (s : State) (l : List Entry) : State :=
  let pts := l.filter fun (x : Entry) => x.1 == LE_FF_DATA.DATA.addr
  pts.zipIdx.foldl (fun (t : State) (p : Entry × Nat) =>
    let k := 2048 * (p.2 / 1024) + p.2 % 1024
    let w := BitVec.ofNat 32 p.1.2.1
    if p.2 < 16384 then { t with ff := sparsePut 0#32 (k + 1024) w (sparsePut 0#32 k w t.ff) } else t) s

/-- Three words an entry: serial number and floor (R206). -/
def rosterOf : List Nat → List (Nat × Nat)
  | lo :: hi :: f :: t => (lo + 2 ^ 32 * hi, f) :: rosterOf t
  | _ => []

/-- The roster of the site part (R206): each entry takes three entries for `SL_ROSTER_DATA`. -/
def State.imageRoster (s : State) (l : List Entry) : State :=
  let r := (rosterOf ((l.filter fun (x : Entry) => x.1 == SL_ROSTER_DATA.DATA.addr).map fun (x : Entry) => x.2.1)).take 4096
  let s1 := { s with roster := r }
  (s1.put SL_ROOT_CNT.ROSTER_N r.length).putMax SL_FLOOR_SUM.FLOOR_SUM (r.foldl (fun a p => a + p.2) 0)

/-- The digest of the site part (R206): of the body of section 0x15 as it was loaded. -/
def State.siteDigest (s : State) (dig : Nat) : State := { s with updN := { s.updN with siteDig := dig } }

/-- The digest of a site part that is loaded. -/
def State.siteTake (s : State) (e : Sect) : State := s.siteDigest (shaLow 16 (s.flBytes (e.base + e.off) e.len))

/-- The word of an entry is one the loader writes as it stands. -/
def plainEntry (x : Entry) : Bool := x.1 != LE_FF_DATA.DATA.addr && x.1 != SL_ROSTER_DATA.DATA.addr

/-- The entries of a section that passes are written (R73 step 8). -/
def State.sectWrite (s : State) (e : Sect) : State :=
  let l := s.entries e
  let s1 := (l.filter plainEntry).foldl State.entryRaw s
  let s2 := if e.num = 4 then s1.imagePoints l else s1
  if e.num = 0x15 then (s2.imageRoster l).siteTake e else if e.num = 3 ∨ e.num = 5 then s2.floorShow else s2

/-- The ready bits that a failed section's owner keeps clear (R74). -/
def sectOwner (n : Nat) : Nat :=
  if n = 0x15 then 0x10
  else if n < 0x14 then (match readyBitOf n with | some i => 2 ^ i | none => 0) else 0

/-- One section of the image at start (R74): `bad` are those whose signature does not verify. -/
def State.sectLoad (bad : List Nat) (s : State) (e : Sect) : State :=
  if s.sectCheck e (!bad.contains e.num) = 0 then s.sectWrite e
  else
    let s1 := s.put SYS_BOOT_STAT.SECT_FAIL (s.get SYS_BOOT_STAT.SECT_FAIL + 1)
    if e.num = 0x14 then s1
    else { s1 with boot := { s1.boot with sect := s1.boot.sect ||| sectOwner e.num } }.log 0x0005 FAULT (leBytes 2 e.num)

/-- Every class C field takes its reset value (R79). -/
def State.classReset (s : State) : State :=
  let s1 := s.regs.foldl (fun (t : State) (p : Nat × Word) => t.setWord p.1 (retainWord (fun c => decide (c ≠ .C)) p.1 p.2)) s
  { s1 with ff := [], roster := [], updN := { s1.updN with siteDig := shaLow 16 [] } }

/-- The role sets of R15. -/
def roleAllowed (r : Nat) : Bool := [0, 1, 2, 4, 8, 6, 10].contains r

/-- The consistency conditions of R22. -/
def State.roleOk (s : State) : Bool :=
  let r := s.get SYS_ROLE.ROLE_CFG
  let d := s.get SYS_ROLE.DISP_CONN
  let feed := fun (c : Nat) => (s.get VS_CONN_FEED.FEED_NODE c, s.get VS_CONN_CFG.GRP c)
  let used := (List.range 2).filter s.connUsed
  roleAllowed r && (if bit r 2 then d == 1 || d == 2 else d == 0) && ((s.get SYS_ROLE.STORE_GRP != 0) == bit r 3) &&
    (!bit r 2 || used.all fun c => (s.get VS_CONN_FEED.FEED_NODE c == 0) == bit r 1) &&
    (d != 2 || (feed 0 != feed 1 && s.get VS_CONN_CFG.PT 0 != s.get VS_CONN_CFG.PT 1))

/-- The role set in force from the image (R22, R26); `good` says whether a role section is present and passes its checks,
`noted` whether a failure is logged. -/
def State.roleTake (s : State) (good noted : Bool) : State :=
  if good && s.roleOk then (s.put SYS_ROLE.ROLE_ACT (s.get SYS_ROLE.ROLE_CFG)).floorShow
  else
    let s1 := (((s.put SYS_ROLE.ROLE_CFG 0).put SYS_ROLE.OPT 0).put SYS_ROLE.DISP_CONN 0).put SYS_ROLE.STORE_GRP 0
    let s2 := (s1.put SYS_ROLE.ROLE_ACT 0).floorShow
    if noted then s2.log 0x0011 FAULT else s2

/-- The bank the loader takes (R481), if its header verifies. -/
def State.imageBank (s : State) : Option Nat :=
  let b := s.get UPD_CFG.CFG_NEXT
  if s.imageOk b then some b else if s.imageOk (1 - b) then some (1 - b) else none

/-- Step 8 of R73 over every block (R74, R80, R481). A valid image without a role section leaves the module a spare and logs nothing (DESIGN
CHOICE, log 100). -/
def State.imageAll (s : State) (bad : List Nat) : State :=
  let s0 := ((s.classReset.put SYS_BOOT_STAT.SECT_FAIL 0).put SYS_BOOT_STAT.NO_IMAGE 0).put UPD_STAT.MIXED 0
  let s1 := { s0 with boot := { s0.boot with sect := 0, d2 := [] }, updN := { s0.updN with role := none, cfg := s0.imageBank } }
  match s1.imageBank with
  | none => (((s1.put SYS_BOOT_STAT.NO_IMAGE 1).put UPD_STAT.UNSIGNED 0).log 0x0006 FAULT).roleTake false false
  | some b =>
    let l := s1.sections b
    let s2 := (s1.put SYS_BOOT_STAT.BANK b)
    let s3 := if s2.get UPD_CFG.CFG_ANCHOR = 0x3F then (s2.put UPD_STAT.UNSIGNED 1).log 0x1103 WARNING else s2.put UPD_STAT.UNSIGNED 0
    let s4 := l.foldl (State.sectLoad bad) s3
    let role := l.filter fun e => e.num == 0x14
    let good := !role.isEmpty && role.all fun e => s4.sectCheck e (!bad.contains 0x14) == 0
    s4.roleTake good (!role.isEmpty)

/-- The words of Metrology and Billing whose class C bits differ, as they are to become (R80). -/
def d2Changes (old new : State) : List (Nat × Word) :=
  let keys := (old.d2Words ++ new.d2Words).map fun (p : Nat × Word) => p.1
  (keys.eraseDups.filter fun a => old.word a &&& classMask a != new.word a &&& classMask a).map fun a => (a, new.word a)

/-- Step 8 of R73. At a PIN reset the class C fields of D2 keep their values until the first keeper angle 0 (R80, R483). -/
def State.imageLoad (s : State) (bad : List Nat) : State :=
  let t := (s.imageAll bad).holdupShow
  if s.boot.kind = 3 then
    let ch := d2Changes s t
    let t1 := ch.foldl (fun (u : State) (p : Nat × Word) => u.setWord p.1 (s.word p.1)) t
    { t1 with boot := { t1.boot with d2 := ch, d2At := (s.keeper / 2 ^ 24 + 1) * 2 ^ 24 } }
  else t

/-! ### What a reset stops and clears -/

/-- The ready bits of the subsystems in a bit map of domains: each clears as its domain enters reset. -/
def readyIn (doms : Nat) : Nat :=
  let b := fun (c : Bool) (m : Nat) => if c then m else 0
  b (bit doms 2) 0xC0 + b (bit doms 3) 0x10 + b (bit doms 4) 0x1 + b (bit doms 5 || bit doms 6) 0x2 + b (bit doms 7) 0x4 +
    b (bit doms 8) 0x8 + b (bit doms 9) 0x520 + b (bit doms 10) 0xA00 + b (bit doms 11) 0x1000

/-- The domains with the dependants that are held in reset with them or stop with them (R55). -/
def withDependants (doms : Nat) : Nat := if bit doms 4 then doms ||| 0x1E0 else doms

/-- What a reset of D3 clears (R82). -/
def State.resetD3 (s : State) : State :=
  let s1 := (s.leasesLapse.tmxClear.sessCloseAll 3).stageFree
  { s1 with sl := {}, mg := {}, upd := {}, capt := [], needs := [], saf := { s1.saf with wdRun := false } }

/-- What a reset of the phase domains clears. -/
def State.resetPhases (s : State) (doms : Nat) : State :=
  let keep := s.phx.filter fun (p : Nat × PhX) => !bit doms (5 + portOf p.1)
  { s with phx := keep, grpx := if bit doms 5 && bit doms 6 then [] else s.grpx }

/-- What a reset of D7 does (R55, R61, R82, R166): aux channels change to fallback regulation, a running injector ends with the loop. -/
def State.resetD7 (s : State) : State :=
  let s1 := (s.each 6 fun a t => t.auxLeave a).each 2 fun j t => if t.get LE_INJ_CTRL.STATE j = 2 then t.injEnd j 3 else t
  { s1 with le := {} }

/-- What a reset of D9 clears (R82, R334): open Billing sessions close at the first sample after the restart. -/
def State.resetD9 (s : State) : State :=
  let s1 := s.sessCloseAll 3
  { s1 with can := {}, plc := {}, cs := {}, conns := [] }

/-- What a reset of D10 clears; the shutdown store and the cable models stay. Until VSEL has been debounced again, which the next AUX_SETPOINT_CHANGE
tells, SP0 is in use: R66 does not say which setpoint is (DESIGN CHOICE, log 145). -/
def State.resetD10 (s : State) : State :=
  { s with th := {}, auxx := [], pins := { s.pins with auxDrv := 0, sns := none } }

/-- What no register shows of a set of domains goes with their reset. -/
def State.resetHidden (s : State) (doms : Nat) : State :=
  let s1 := s.when (bit doms 3) State.resetD3
  let s2 := s1.when (bit doms 4) fun t => { t with tb := {}, pins := { t.pins with apo := false } }
  let s3 := ((s2.when (Nat.land doms 0x70 != 0) State.groupsIdle).resetPhases doms).when (bit doms 7) State.resetD7
  let s4 := s3.when (bit doms 8) fun t => { t.rootReset doms with fab := {} }
  ((s4.when (bit doms 9) State.resetD9).when (bit doms 10) State.resetD10).when (bit doms 11) State.kvClear

/-- The cause is recorded (R71, `SYS_RST_CAUSE`, `SYS_RST_INFO`, `SYS_RST_CNT`). -/
def State.recordReset (s : State) (kind doms : Nat) : State :=
  let s1 := ((s.put SYS_RST_CAUSE.LAST kind).put SYS_RST_CAUSE.SEEN (setBit (s.get SYS_RST_CAUSE.SEEN) (kind - 1))).put
    SYS_RST_INFO.DOM_MASK doms
  let s2 := if kind = 2 then s1 else s1.put SYS_RST_INFO.BOR_SRC 0
  if kind = 7 then s2 else if kind ≤ 2 then s2.inc SYS_RST_CNT.COLD else s2.inc SYS_RST_CNT.WARM

/-- What every reset does first (R70, R82): Freeze, gates and GDEN low, READY low, the module in QUIET, its start-up progress
cleared, the ready bits of its domains clear. -/
def State.resetStart (s : State) (kind doms : Nat) : State :=
  let s1 := (if 3 ≤ kind then s.freeze kind else s).stopPhases
  let s2 := { s1 with boot := { s1.boot with kind := kind, doms := doms } }.put PWR_STATE.STATE 1
  let s3 := (s2.put SYS_READY.PIN 0).put SYS_READY.RDY (clrBits (s2.get SYS_READY.RDY) (readyIn doms))
  let s4 := ((s3.put SYS_BOOT_STAT.STEP 0).put SYS_BOOT_STAT.LATE 0).put SYS_CAL_STAT.DONE 0
  ((s4.put SYS_BOOT_TIME.T_READY 0xFFFF).put SYS_BOOT_TIME.T_IMAGE 0xFFFF).gden

/-- A warm reset of a set of domains begins (R69, R79, R80): classes A, N, F and C keep their values in its scope. A reload that a reset of
D3 cuts off leaves `MIXED` set (R493). -/
def State.enterReset (s : State) (kind doms : Nat) : State :=
  let s1 := (s.resetStart kind doms).resetHidden doms
  let s2 := s1.retain doms fun c => decide (c ≠ .V)
  let s3 := (s2.put PWR_DOM_STAT.IN_RST (s2.get PWR_DOM_STAT.IN_RST ||| doms)).recordReset kind doms
  if bit doms 3 then
    { s3.putb UPD_STAT.MIXED s.upd.reload.isSome with boot := { s3.boot with apply := 0, applyRan := false } } else s3

/-- A cause of a reset (R71, R52): performed, or absorbed with its bit of `SEEN` and `COINC`. -/
def State.resetCause (s : State) (kind doms : Nat) : Bool × State :=
  if s.boot.failing then (false, s)
  else if s.boot.kind = 0 then (true, s.put SYS_RST_CAUSE.COINC 0)
  else
    let s1 := (s.put SYS_RST_CAUSE.COINC 1).put SYS_RST_CAUSE.SEEN (setBit (s.get SYS_RST_CAUSE.SEEN) (kind - 1))
    if kind < s.boot.kind then (true, { s1 with boot := { s1.boot with further := 0, swRun := none } })
    else if kind = 7 ∧ s.boot.kind = 7 then
      (false, { s1 with boot := { s1.boot with further := s1.boot.further ||| withDependants (clrBits doms s1.boot.doms) } })
    else (false, s1)

/-! ### The start-up sequence to step 9 -/

/-- The domains that the role set in force powers (R16): D5 and D6 for the Phase Engine, D7 for the Loop Engine. -/
def State.domainsOn (s : State) : Nat :=
  0xFFF - (if bit s.running 1 then 0 else 0x60) - (if bit s.running 2 then 0 else 0x80)

/-- The domains are powered and leave reset. -/
def State.domainsUp (s : State) (doms : Nat) : State :=
  (s.put PWR_DOM_STAT.IN_RST (clrBits (s.get PWR_DOM_STAT.IN_RST) doms)).put PWR_DOM_STAT.ON 0xFFF

/-- The self-calibration items of a set of domains (R74). -/
def calItems (doms : Nat) : Nat :=
  let b := fun (c : Bool) (m : Nat) => if c then m else 0
  b (bit doms 5) 0x1 + b (bit doms 6) 0x2 + b (bit doms 4) 0xC + b (bit doms 10) 0x30

/-- The ready bits of the subsystems in domains whose RAM has failed: with the store manager in D0, the intake queue in D1 and the windows in D3,
those of the Event Recorder are all three (R441; DEDUCED, log 119). -/
def ramReady (doms : Nat) : Nat := readyIn doms ||| (if Nat.land doms 0xB != 0 then 0x2000 else 0)

/-- The ready bits that failed items hold clear (R74, R474). The Event Recorder's stays set through every reset (R441), and an item that has
failed holds it clear as it does another (DEDUCED, log 119). -/
def State.blocked (s : State) : Nat :=
  let b := fun (c : Bool) (m : Nat) => if c then m else 0
  b (Nat.land s.boot.cal 0x3 != 0) 0x2 ||| b (Nat.land s.boot.cal 0xC != 0) 0x1 ||| b (bit s.boot.cal 4) 0x200 |||
    ramReady s.boot.ram ||| s.boot.sect |||
    (List.range 7).foldl (fun m u => if bit s.boot.fwBad u then m ||| unitReady u else m) 0

/-- The held ready bits follow the items that have failed; a bit they hold is clear. The Event Recorder's is held clear only where it has not been set
before: it stays set through every warm reset (R441; log 119). -/
def State.block (s : State) (evr : Bool) : State :=
  let m := if evr then s.blocked else clrBit s.blocked 13
  { s with boot := { s.boot with block := m } }.put SYS_READY.RDY (clrBits (s.get SYS_READY.RDY) m)

/-- `PEA_CAL` and `PEB_CAL`: the comparators and DACs of D5 and D6 have passed. -/
def State.peCal (s : State) : State :=
  (s.putb PE_STAT.PEA_CAL (!bit s.boot.cal 0)).putb PE_STAT.PEB_CAL (!bit s.boot.cal 1)

/-- Step 6 (R74): self-calibration and RAM read-back of the domains in scope. -/
def State.selfTest (s : State) (doms : Nat) (o : BootObs) : State :=
  let items := calItems doms
  let fails := Nat.land o.cal items
  let ram := Nat.land o.ram doms
  let s1 := { s with boot := { s.boot with cal := clrBits s.boot.cal items ||| fails, ram := clrBits s.boot.ram doms ||| ram } }
  let s2 := ((s1.put SYS_CAL_STAT.FAIL s1.boot.cal).put SYS_CAL_STAT.DONE 1).peCal
  let s3 := (s2.putb SYS_BOOT_STAT.CAL_FAIL (s1.boot.cal != 0)).putb SYS_BOOT_STAT.ECC_FAIL (s1.boot.ram != 0)
  let s4 := if fails = 0 then s3 else s3.log 0x0007 FAULT [s1.boot.cal]
  s4.eachBit 12 ram fun d t => t.log 0x0008 FAULT [d]

/-- Step 7 (R34, R474): with D3, the flash is identified from its SFDP tables; the units of the domains in scope are loaded; the registers show the others' banks again after a reset of D3. -/
def State.fwStep (s : State) (doms : Nat) (o : BootObs) : State :=
  let s1 := s.each 7 fun u t =>
    if bit doms (unitDomain u) then t.fwLoad o.fw u
    else if bit doms 3 then t.fwTake u (if bit t.updN.act u then 1 else 0) else t
  let s1 := if bit doms 3 then { s1 with upd := { s1.upd with sfdp := true } } else s1
  if bit doms 2 && !bit s1.boot.fwBad 1 then s1.put MET_FW_DIG.DIG (s1.metFwDig (if bit (s1.get UPD_FW_CTRL.ACT) 1 then 1 else 0)) else s1

/-- The Loop Engine starts; a refused loop keeps its ready bit clear (R141). -/
def State.startD7 (s : State) : State :=
  if bit s.running 2 then (let t := s.leStart; if t.leReady then t.setReady 2 else t) else s

/-- The subsystems of D9 start (R73 step 9, R404); a Billing session still open is closed with end 0x0D (R332, R334). -/
def State.startD9 (s : State) : State :=
  let s1 := (s.canPort 0).canPort 1
  let s2 := if s1.is PLC_CTRL.EN then (s1.plcEnable true).setReady 5 else s1.plcState s1.plcIdle
  let s3 := if bit s2.running 8 then s2.setReady 8 else s2
  let s4 := if bit s3.running 10 then s3.setReady 10 else s3
  s4.bil.opn.foldl (fun (t : State) (q : Nat × BSess) => (t.connEnd q.2.conn 0x0D).billEnd q.1 0x0D t.keeper) s4

/-- D10's registers show what lived on while it was in reset: the banks in undervoltage, and the channels that Freeze holds fully on
(R396). -/
def State.lswHeld (s : State) : State :=
  s.lswBanks.each 16 fun n t => if t.chSt n = 1 then t.put LSW_CH_STAT.FRAC 1000 n else t

/-- The subsystems of D10 start: Thermal's own ready bit follows R353. -/
def State.startD10 (s : State) : State :=
  let s0 := s.lswHeld.lswOwners.thStart
  let s1 := s0.each 8 fun z t => if t.is TH_ZONE_CFG.EN z then (t.put TH_ZONE_CFG.EN 0 z).zoneEnable z else t
  let s2 := s1.each 6 fun a t => if t.is PWR_AUX_CTRL.EN a then t.auxStart a else t
  let s3 := { s2 with pins := { s2.pins with sns := some (s2.get LSW_BANK.SSEL) } }
  if bit s3.running 11 then s3.setReady 11 else s3

/-- `TSTATE` of a UTC source that is newly in use (R514): acquiring, or off where `TSRC` names none. -/
def State.tsrcShow (s : State) : State :=
  let n := s.get SYS_TIME_CFG.TSRC
  { s.put SYS_TIME_STAT.TSTATE (if n = 1 ∨ n = 2 then 1 else 0) with mg := { s.mg with syncs := 0, ptpAt := none, polls := 0 } }

/-- The IPv4 address in force (R495): the static one, or the one that DHCP gives, which no command tells (free, log 116); 0 with ETH0 off. -/
def State.netAddr (s : State) : State :=
  if !s.is SYS_NET_CFG.ETH_EN then s.put SYS_NET_ACT.ADDR 0
  else if s.is SYS_NET_CFG.DHCP then (let r := s.free 32; r.2.put SYS_NET_ACT.ADDR r.1)
  else s.put SYS_NET_ACT.ADDR (s.get SYS_NET_IP4.ADDR)

/-- ETH0 goes on or off (R495): the speed that auto-negotiation finds is free (log 116); with `ETH_EN` = 0 there is no link. -/
def State.netShow (s : State) : State :=
  let r := if s.is SYS_NET_CFG.ETH_EN then s.free 2 else (0, s)
  (r.2.put SYS_NET_CFG.SPEED r.1).netAddr

/-- The Share Ledger starts; at the root, as ledger root (R216). The network and the UTC source start too. -/
def State.startD3 (s : State) (now : Nat) : State :=
  let s1 := s.netShow.tsrcShow.setReady 4
  let s2 := if s1.is FAB_STAT.ROOT then s1.slRootStart now else s1
  { s2 with saf := { s2.saf with kick := 0x5A, wdRun := !s2.is SAF_STAT.WD_STOP } }

/-- `PART` follows the role set in force (R207). -/
def State.partShow (s : State) : State := if s.slRuns then s.put SL_STAT.PART s.slPart else s

/-- The ready bits after a change of role set: those of subsystems that no longer run clear; Metrology and Billing, whose domain no warm
reset and no apply restarts, are ready at once. -/
def State.roleReady (s : State) : State :=
  let s1 := s.put SYS_READY.RDY (Nat.land (s.get SYS_READY.RDY) s.running)
  let s2 := if bit s1.running 6 && s1.is MET_STAT.ACC then s1.setReady 6 else s1
  (if bit s2.running 7 then s2.setReady 7 else s2).partShow

/-- Step 9: the subsystems of the role set start in the domains in scope; Thermal, where it runs, writes `I_THERM` again when D5
or D6 leaves reset (R348). -/
def State.startAll (s : State) (doms : Nat) (cold : Bool) (now : Nat) : State :=
  let s0 := (s.put PWR_DOM_STAT.ON s.domainsOn).reqShow
  let s1 := (s0.when (bit doms 4) fun t => t.tbStart cold).when (bit doms 8) State.fabStart
  let s1 := s1.when (bit doms 5 || bit doms 6) fun t => t.putb PE_STAT.DLL_HOLD (!t.is TB_STAT.DLL_LOCK)
  let s2 := if (bit doms 5 || bit doms 6) && bit s1.running 1 then s1.setReady 1 else s1
  let s2 := s2.when ((bit doms 5 || bit doms 6) && bit (s2.get SYS_READY.RDY) 9) State.thermGroups
  let s3 := ((s2.when (bit doms 7) State.startD7).when (bit doms 9) State.startD9).when (bit doms 10) State.startD10
  let s4 := s3.when (bit doms 3) fun t => t.startD3 now
  (s4.roleReady.when (cold && bit s4.running 7) fun t => t.findRate (t.get BIL_BT.BT)).lswOwners

/-- Causes that are combined with a reset or absorbed by it (R71), as bits of `SEEN`. -/
def State.absorb (s : State) (kind also : Nat) : State :=
  let m := clrBits (also % 2 ^ 7) (2 ^ (kind - 1) - 1)
  if m = 0 then s else (s.put SYS_RST_CAUSE.COINC 1).put SYS_RST_CAUSE.SEEN (s.get SYS_RST_CAUSE.SEEN ||| m)

/-- The sequence of R73 or R77 from step 1 to step 9 ends the running reset: Thaw, event 0x0001 (R83). D8 takes its copy of the site fabric key at
its start, and keeps the one it has through a reset that spares it (R200, R420). `PWR_DOM_RST` keeps what
it reads when a wider reset has taken the place of a DOMAIN reset (DESIGN CHOICE, log 97). -/
def State.exitReset (s : State) (o : BootObs) : State :=
  let kind := s.boot.kind
  let doms := s.boot.doms
  let s0 := ({ s with boot := { s.boot with block := 0 } }.absorb kind o.also).domainsUp doms
  let s1 := (s0.setReady 13).moraineFill
  let s2 := (s1.when (bit doms 11) fun t => (t.kvStart o.puf o.bad).resShow).when (bit doms 8 || s1.fab.key.isNone) State.fabKeyCopy
  let s3 := (s2.selfTest doms o).fwStep doms o
  let s4 := if kind ≤ 3 then (s3.imageLoad o.sect).moraineWarn else s3
  let s5 := ((s4.block (kind ≤ 2 || !bit (s.get SYS_READY.RDY) 13)).putMax SYS_BOOT_TIME.T_IMAGE o.image).safCopy
  let s5 := if kind ≤ 3 then (s5.put SAF_STAT.WD_STOP 0).refChoose else s5
  let s6 := { s5 with boot := { s5.boot with kind := 0, doms := 0 } }
  let s7 := (s6.startAll doms (kind ≤ 2) o.now).thaw
  (((s7.put SYS_BOOT_STAT.STEP 9).stepShow).log 0x0001 INFO ([kind, 0] ++ leBytes 2 doms)).gden

/-- One warm reset of a kind and a set of domains, from its cause to step 9. -/
def State.warmReset (s : State) (kind doms : Nat) (o : BootObs) : State :=
  let r := s.resetCause kind doms
  if r.1 then (r.2.enterReset kind doms).exitReset o else r.2

/-- D3 to D11. -/
def warmDoms : Nat := 0xFF8

/-! ### Cold resets -/

/-- The register file after POR or BOR: classes A and N keep their values, those of a periodic commit as MRAM holds them
(R79, R274); with `cold`, class A takes its reset values (R81). -/
def State.coldRegs (s : State) (cold : Bool) : State :=
  let keep := fun (c : Cls) => (c == .A && !cold) || c == .N
  let s1 := s.regs.foldl (fun (t : State) (p : Nat × Word) =>
    t.setWord p.1 (if comWord p.1 then resetWord p.1 else retainWord keep p.1 p.2)) s
  s.met.com.regs.foldl (fun (t : State) (p : Nat × Word) =>
    let m := keepMask (fun c => c == .N) p.1
    if comWord p.1 then t.setWord p.1 ((t.word p.1 &&& ~~~m) ||| (p.2 &&& m)) else t) s1

/-- The billing clock after POR or BOR (R284). -/
def State.clockStart (s : State) (old : Nat) : State :=
  let st := if !s.is SYS_TIME_STAT.RTC_SET then 0 else if old = 4 then 4 else if 86400 < s.get BIL_SYNC.SYNC_AGE then 3 else 1
  ({ s with bil := { s.bil with clkNew := st != old } }.put BIL_STAT.CLK_ST st).putb BIL_STAT.CLK_VALID (st == 1)

/-- What a D0 cold start does (R81, R306, R430, R434). -/
def State.d0Cold (s : State) : State :=
  let s1 := { s with tmp := {} }
  let s2 := (((s1.put SYS_RST_CAUSE.D0_COLD 1).put SYS_TIME_STAT.RTC_SET 0).log 0x0004 WARNING)
  (((s2.put BIL_TMP.HIST_LOST 1).put BIL_TMP.TMP_PEND 1).log 0x0924 LEGAL).kvColdStart

/-- The E-stop inputs as they read. -/
def State.safSample (s : State) : State :=
  (s.putb SAF_STAT.ES1 (bit s.pins.estopLow 0)).putb SAF_STAT.ES2 (bit s.pins.estopLow 1)

/-- POR or BOR over D1 to D11 (R69, R73, R79): everything outside D0, MRAM and the flash starts anew. While RST_N is low the module stays
in reset, with D0 to D2 at work (R37); events wait in the hold of R78 until the Event Recorder is ready. An E-stop input that is low as D1 starts is a request (R39, R456). -/
def State.coldReset (s : State) (kind : Nat) (cold : Bool) (o : BootObs) : State :=
  let clk := s.get BIL_STAT.CLK_ST
  let low := s.get PWR_SUPPLY_STAT.VBAT_LOW
  let doms := if cold then 0xFFF else 0xFFE
  let pins : Pins := { rstLow := s.pins.rstLow, estopLow := s.pins.estopLow, plcDet := s.pins.plcDet, sns := none }
  let s1 := { s with
    pins := pins, tb := {}, keep := { commitRtc := s.keep.commitRtc, commitInc := s.keep.commitInc }, phx := [], grpx := [], auxx := [], le := {}, ff := []
    conns := [], needs := [], lsw := {}, saf := {}, fab := {}, sl := {}, plc := {}, roster := [], rstStamp := 0, th := {}
    cm := [], cs := {}, can := {}, kv := {}, mg := {}, capt := [], upd := {}, boot := { kind, doms, vbatEvent := s.boot.vbatEvent }
    evr := { s.evr with hold := [], holdDropped := 0, queue := [], dropped := 0, up := false } }
  let s2 := (s1.coldRegs cold).put SYS_RST_CAUSE.COINC 0
  let s3 := ((if cold then s2.d0Cold else s2).recordReset kind doms).metRestore
  let s4 := (s3.clockStart clk).safSample.put PWR_SUPPLY_STAT.VBAT_LOW low
  let s5 := match s4.boot.vbatEvent with
    | some u => { s4 with boot := { s4.boot with vbatEvent := none } }.logAt 0 u 0x0105 WARNING []
    | none => s4
  let s6 := if s.pins.estopLow = 0 then s5 else (s5.log 0x1202 SAFETY [s.pins.estopLow]).reqSafeOff 0 0x1202
  if pins.rstLow then (s6.put PWR_DOM_STAT.ON 0xFFF).put PWR_DOM_STAT.IN_RST warmDoms else s6.exitReset o

end Sys2Proof.Machine
end

