-- ==== Sys2Proof/Machine/Power.lean ====
section
/-! DEFINITION. What each command of the supply, the operating states and the aux regulators does
(spec/03_supply_domains_aux.md). Voltages of VSUP and VBAT are in mV, AUXa_FB in 1.25 V / 4,096. A command whose condition the
manual states and the state or its measurement does not meet leaves the state unchanged. -/

namespace Sys2Proof.Machine

open R

/-- D1 runs and no hold-up sequence does. -/
def State.supplied (s : State) : Bool := s.runs 1 && !s.boot.failing

/-- VSUP as measured. -/
def State.vsup (s : State) (mv : Nat) : State := s.putMax PWR_VMON.VSUP (mv / 10)

/-- VSUP is in none of the low, high and over-voltage bands. -/
def State.vsupNormal (s : State) : Bool :=
  !s.is PWR_SUPPLY_STAT.LOW_BAND && !s.is PWR_SUPPLY_STAT.HIGH_BAND && !s.is PWR_SUPPLY_STAT.OVERV

/-- VSUP_LOW_BAND_ENTRY (R48): VSUP, and the µs for which it has held. -/
def execVsupLowBandEntry (mv us : Nat) (s : State) : Host.Outcome State Fault Refusal :=
  .next <|
    if s.supplied && s.vsupNormal && decide (mv < 15500) && decide (1000 ≤ us) then
      (((s.vsup mv).put PWR_SUPPLY_STAT.LOW_BAND 1).put PWR_SUPPLY_STAT.LOW_SEEN 1).log 0x0101 NOTICE
    else s

/-- VSUP_LOW_BAND_EXIT (R48). -/
def execVsupLowBandExit (mv us : Nat) (s : State) : Host.Outcome State Fault Refusal :=
  .next <|
    if s.supplied && s.is PWR_SUPPLY_STAT.LOW_BAND && decide (16000 ≤ mv) && decide (1000 ≤ us) then
      ((s.vsup mv).put PWR_SUPPLY_STAT.LOW_BAND 0).log 0x0102 INFO
    else s

/-- VSUP_HIGH_BAND_ENTRY (R48): from the normal band. -/
def execVsupHighBandEntry (mv us : Nat) (s : State) : Host.Outcome State Fault Refusal :=
  .next <|
    if s.supplied && s.vsupNormal && decide (36500 < mv) && decide (1000 ≤ us) then
      ((s.vsup mv).put PWR_SUPPLY_STAT.HIGH_BAND 1).log 0x0109 NOTICE
    else s

/-- VSUP_HIGH_BAND_EXIT (R48). -/
def execVsupHighBandExit (mv us : Nat) (s : State) : Host.Outcome State Fault Refusal :=
  .next <|
    if s.supplied && s.is PWR_SUPPLY_STAT.HIGH_BAND && decide (mv ≤ 36000) && decide (1000 ≤ us) then
      ((s.vsup mv).put PWR_SUPPLY_STAT.HIGH_BAND 0).log 0x010A INFO
    else s

/-- The module leaves RUN for QUIET (R57): every phase disabled, gates and GDEN low. -/
def State.toQuiet (s : State) : State :=
  if s.inRun then (s.put PWR_STATE.STATE 1).stopPhases.gden else s

/-- VSUP_OVER_VOLTAGE (R48, R57). The bands that entry leaves clear without an event of their own (DESIGN CHOICE, log 101). -/
def execVsupOverVoltage (mv us : Nat) (s : State) : Host.Outcome State Fault Refusal :=
  .next <|
    if s.supplied && !s.is PWR_SUPPLY_STAT.OVERV && decide (38000 < mv) && decide (1000 ≤ us) then
      let s1 := ((s.vsup mv).put PWR_SUPPLY_STAT.LOW_BAND 0).put PWR_SUPPLY_STAT.HIGH_BAND 0
      (((s1.put PWR_SUPPLY_STAT.OVERV 1).put PWR_SUPPLY_STAT.OVERV_SEEN 1).log 0x0104 FAULT).toQuiet
    else s

/-- VSUP_OVER_VOLTAGE_EXIT (R48): into the high band. -/
def execVsupOverVoltageExit (mv us : Nat) (s : State) : Host.Outcome State Fault Refusal :=
  .next <|
    if s.supplied && s.is PWR_SUPPLY_STAT.OVERV && decide (mv < 36500) && decide (1000 ≤ us) then
      ((s.vsup mv).put PWR_SUPPLY_STAT.OVERV 0).put PWR_SUPPLY_STAT.HIGH_BAND 1
    else s

/-! ### The hold-up sequence (R51, R52) -/

/-- Step 2 of R51, and the close of accumulation and billing of step 4: what was in progress ends without a report (R52), D3 to D9
and D11 go off. -/
def State.failDeclare (s : State) (rail : Bool) : State :=
  let s1 := ((s.stopPhases.put PWR_STATE.STATE 1).put PWR_HOLDUP.TESTING 0).put SYS_ROLE_CMD.APPLY 0
  let s2 := { s1 with boot := { s1.boot with kind := 0, doms := 0, further := 0, failing := true, rail := rail, apply := 0, applyRan := false } }
  let s3 := s2.supplyFailList
  let s4 := s3.metClose
  let s5 := if bit s4.running 7 then s4.billClose else s4
  let s6 := s5.resetHidden 0xBF8
  let s7 := (s6.put PWR_DOM_STAT.ON (Nat.land (s6.get PWR_DOM_STAT.ON) 0x407)).put SYS_READY.RDY
    (clrBits (s6.get SYS_READY.RDY) (readyIn 0xBF8))
  ((if rail then s7.put SYS_READY.PIN 0 else s7).metCommit (s.is MET_STAT.ACC || s.met.com.closing)).keepCommit

/-- Step 5 of R51 (R442): every record that waits, then event 0x0103; then KEEP, or a BOR where VSUP is back or a rail monitor
declared the fail (R52). -/
def State.failEnd (s : State) (back : Bool) (o : BootObs) : State :=
  let s2 := s.storeAll.put PWR_SUPPLY_STAT.FAIL_SEEN 1
  let pins : Pins := { rstLow := s2.pins.rstLow, estopLow := s2.pins.estopLow, plcDet := s2.pins.plcDet, sns := none }
  let s3 := { s2 with pins := pins, boot := { vbatEvent := s2.boot.vbatEvent }, saf := {} }
  let s4 := ((s3.put PWR_DOM_STAT.ON 1).put PWR_DOM_STAT.IN_RST 0).put SYS_READY.RDY 0
  let s5 := s4.put SYS_READY.PIN 0
  if s.boot.rail then (s5.put SYS_RST_INFO.BOR_SRC 2).coldReset 2 false o
  else if back then (s5.put SYS_RST_INFO.BOR_SRC 1).coldReset 2 false o
  else s5

/-- SUPPLY_FAIL (R51, R52): VSUP and the µs for which it has been below 9.0 V; given again while the sequence runs, its last step,
with the ms for which VSUP has been back at 16.0 V. -/
def execSupplyFail (mv us back : Nat) (o : BootObs) (s : State) : Host.Outcome State Fault Refusal :=
  .next <|
    if s.boot.failing then s.failEnd (decide (10 ≤ back)) o
    else if s.runs 1 && decide (mv < 9000) && decide (50 ≤ us) then (s.vsup mv).failDeclare false
    else s

/-- RAIL_OUT_OF_LIMITS (R52): the domain, and the µs for which its rail has been out of limits while VSUP is not in the fail band;
given again while the sequence runs, its last step. -/
def execRailOutOfLimits (d us : Nat) (o : BootObs) (s : State) : Host.Outcome State Fault Refusal :=
  .next <|
    if s.boot.failing then s.failEnd false o
    else if s.runs 1 && decide (d < 12) && decide (10 < us) then
      ((s.put PWR_DOM_FAULT.RAIL (setBit (s.get PWR_DOM_FAULT.RAIL) d)).log 0x0108 FAULT [d]).failDeclare true
    else s

/-! ### The hold-up store (R50) and VBAT (R53) -/

/-- HOLDUP_STORE_TEST (R50): the store's voltage in 0.25 V, which `HOLDUP_OK` follows; the test begins once it has reached 41 V. -/
def execHoldupStoreTest (v : Nat) (s : State) : Host.Outcome State Fault Refusal :=
  .next <|
    if s.supplied then
      let s1 := (s.putMax PWR_HOLDUP.VSTORE v).holdupShow
      if 164 ≤ v then s1.put PWR_HOLDUP.TESTING 1 else s1
    else s

/-- HOLDUP_TEST_REQUEST (R50). -/
def execHoldupTestRequest (sess : Nat) (s : State) : Host.Outcome State Fault Refusal :=
  .next <| s.guarded sess PWR_HOLDUP.TEST fun t =>
    t.when (!t.is PWR_HOLDUP.TESTING && !t.boot.failing) fun u => u.put PWR_HOLDUP.TESTING 1

/-- HOLDUP_TEST_DONE (R50): the usable energy in mJ and the store's voltage in 0.25 V. -/
def execHoldupTestDone (e v : Nat) (s : State) : Host.Outcome State Fault Refusal :=
  .next <|
    if s.supplied && s.is PWR_HOLDUP.TESTING then
      let s1 := ((s.put PWR_HOLDUP.TESTING 0).putMax PWR_HOLDUP.E_USABLE e).putMax PWR_HOLDUP.VSTORE v
      let s2 := { s1 with boot := { s1.boot with storeTest := some (decide (1920 ≤ e)) } }.holdupShow
      if e < 1920 then s2.log 0x0106 FAULT else s2
    else s

/-- VBAT_LOW (R53): VBAT; while D1 is off, the event waits for the next start. -/
def execVbatLow (mv : Nat) (s : State) : Host.Outcome State Fault Refusal :=
  .next <|
    if decide (mv < 2600) && !s.is PWR_SUPPLY_STAT.VBAT_LOW then
      let s1 := ((s.putMax PWR_VMON.VBAT mv).put PWR_SUPPLY_STAT.VBAT_LOW 1).put PWR_SUPPLY_STAT.VBAT_SEEN 1
      if s1.runs 1 then s1.log 0x0105 WARNING else { s1 with boot := { s1.boot with vbatEvent := some s1.rtc } }
    else s

/-- VBAT_RESTORED (R53). -/
def execVbatRestored (mv : Nat) (s : State) : Host.Outcome State Fault Refusal :=
  .next <| if 2600 ≤ mv then (s.putMax PWR_VMON.VBAT mv).put PWR_SUPPLY_STAT.VBAT_LOW 0 else s

/-! ### Operating states (R57 to R59) -/

/-- QUIET_REQUEST (R57). -/
def State.quietRequest (s : State) : State := ((s.put PWR_STATE.CMD 1).put PWR_STATE.RESULT 0).toQuiet

/-- QUIET_REQUEST (R57). -/
def execQuietRequest (sess : Nat) (s : State) : Host.Outcome State Fault Refusal :=
  .next <| s.guarded sess PWR_STATE.CMD State.quietRequest

/-- The first condition of R57 that a RUN request fails, as `RESULT`; 0 for none. -/
def State.runRefusal (s : State) : Nat :=
  if !s.is PWR_HOLDUP.HOLDUP_OK then 4
  else if s.is PWR_SUPPLY_STAT.OVERV then 6
  else if s.is SAF_STAT.ACTIVE then 8
  else if Nat.land (s.get SYS_ROLE.ROLE_ACT) 0xB = 0 then 9
  else 0

/-- A RUN request (R57). -/
def State.runRequest (s : State) : State :=
  let s1 := s.put PWR_STATE.CMD 2
  if s1.inRun then s1.put PWR_STATE.RESULT 0
  else
    let r := s1.runRefusal
    let s2 := s1.put PWR_STATE.RESULT r
    if r = 0 then (s2.put PWR_STATE.STATE 0).gden else s2

/-- RUN_REQUEST (R57). -/
def execRunRequest (sess : Nat) (s : State) : Host.Outcome State Fault Refusal :=
  .next <| s.guarded sess PWR_STATE.CMD State.runRequest

/-- The module's lease is above its floor (R23, R58): a group's lease that has not lapsed. -/
def State.aboveFloor (s : State) : Bool := (List.range 8).any fun g => !s.is PE_GRP_LEASE.LAPSED g && s.get PE_GRP_LEASE.P_LEASE g != 0

/-- A launched action waits for a target stamp in the future. -/
def State.actionWaits (s : State) : Bool := s.fab.la.any fun a => decide (s.stamp < a.target)

/-- A session is active on some connector. -/
def State.anySession (s : State) : Bool := s.connActive 0 || s.connActive 1

/-- The first condition that refuses a DORMANT request, as `RESULT` (R57, R58); 0 for none. -/
def State.dormantRefusal (s : State) : Nat :=
  if s.inRun then 0xA
  else if s.anyPhase then 1
  else if s.anyContactor || s.anySession then 2
  else if s.aboveFloor then 3
  else if s.actionWaits then 5
  else if !s.vsupNormal then 6
  else 0

/-- The module enters DORMANT (R57, R79, R80, R172): leave notices, every load switch off but a LATCHED one stays so, D3 to D11 off
with their classes F and C kept. -/
def State.dormant (s : State) : State :=
  let s1 := s.leaveAll
  let s2 := s1.each 16 fun n t =>
    let t1 := { t with pins := { t.pins with latch := clrBit t.pins.latch n } }
    if t1.chSt n = 4 then t1 else (t1.put LSW_CH_CTRL.ON 0 n).lswState n 0
  let s3 := (s2.resetHidden warmDoms).retain warmDoms fun c => decide (c ≠ .V)
  let s4 := (s3.put PWR_DOM_STAT.ON 0x107).put PWR_DOM_STAT.IN_RST warmDoms
  let s5 := (s4.put SYS_READY.RDY (clrBits (s4.get SYS_READY.RDY) (readyIn warmDoms))).put PWR_STATE.STATE 2
  { s5 with boot := { s5.boot with dormant := true } }

/-- A DORMANT request (R57, R58). -/
def State.dormantRequest (s : State) : State :=
  let s1 := s.put PWR_STATE.CMD 3
  let r := s1.dormantRefusal
  let s2 := s1.put PWR_STATE.RESULT r
  if r = 0 then s2.dormant else s2

/-- DORMANT_REQUEST (R57, R58). -/
def execDormantRequest (sess : Nat) (s : State) : Host.Outcome State Fault Refusal :=
  .next <| s.guarded sess PWR_STATE.CMD State.dormantRequest

/-- WAKE (R57, R59): the source, bits as `EN`, and what the restart finds. Each restored domain starts as after a DOMAIN reset.
`SRC` keeps the bits of earlier wakes until they are cleared (DESIGN CHOICE, log 98). -/
def execWake (src : Nat) (o : BootObs) (s : State) : Host.Outcome State Fault Refusal :=
  .next <|
    if s.boot.dormant && decide (src < 4) && bit (s.get PWR_WAKE.EN) src && s.supplied then
      let s1 := (s.put PWR_WAKE.SRC (setBit (s.get PWR_WAKE.SRC) src)).put PWR_STATE.STATE 1
      { s1 with boot := { s1.boot with dormant := false } }.warmReset 7 warmDoms o
    else s

/-! ### Aux channels (R60 to R67) -/

/-- A write of an aux channel's register: D10 must run. -/
def State.auxGuarded (s : State) (sess a : Nat) (f : Field) (g : State → State) : State :=
  if 6 ≤ a then s else s.guarded sess f fun t => if t.runs 10 then g t else t.report sess 5

/-- AUX_ENABLE (R66). -/
def execAuxEnable (sess a : Nat) (s : State) : Host.Outcome State Fault Refusal :=
  .next <| s.auxGuarded sess a PWR_AUX_CTRL.EN fun t => t.auxWrite a true

/-- AUX_STOP (R67). -/
def execAuxStop (sess a : Nat) (s : State) : Host.Outcome State Fault Refusal :=
  .next <| s.auxGuarded sess a PWR_AUX_CTRL.EN fun t => t.auxWrite a false

/-- AUX_SETPOINT_CHANGE (R40, R66): the pair of inputs, 0 VSEL_A for AUX0 to AUX2 and 1 VSEL_B for AUX3 to AUX5, its value, and the µs
for which it has been stable. -/
def execAuxSetpointChange (pair v us : Nat) (s : State) : Host.Outcome State Fault Refusal :=
  .next <|
    if s.runs 10 && decide (pair < 2) && decide (v < 4) && decide (1000 ≤ us) then
      s.each 3 fun i t => t.setAux (3 * pair + i) { t.aux (3 * pair + i) with sel := v }
    else s

/-- AUX_PGOOD (R66): AUXa_FB, and the µs since the reference reached its target. -/
def execAuxPgood (a fb us : Nat) (s : State) : Host.Outcome State Fault Refusal :=
  .next <|
    if decide (a < 6) && s.auxRuns a && !s.is PWR_AUX_STAT.PGOOD a && s.auxInBand a fb && decide (1000 ≤ us) then
      let s0 := (s.auxFb a fb).put PWR_AUX_STAT.PGOOD 1 a
      let s1 := s0.setAux a { s0.aux a with good := true }
      (if s1.auxMode a = 1 then s1.put PWR_AUX_STAT.MODE (s1.auxRegulating a) a else s1).gden
    else s

/-- AUX_PGOOD_LOSS (R67): AUXa_FB outside ±5 % of the target. -/
def execAuxPgoodLoss (a fb : Nat) (s : State) : Host.Outcome State Fault Refusal :=
  .next <| if decide (a < 6) && s.runs 10 && s.is PWR_AUX_STAT.PGOOD a && !s.auxInBand a fb then (s.auxFb a fb).pgoodFalls a else s

/-- AUX_FEEDBACK_FAULT (R66): the ms since the channel was enabled. -/
def execAuxFeedbackFault (a ms : Nat) (s : State) : Host.Outcome State Fault Refusal :=
  .next <|
    if decide (a < 6) && s.auxRuns a && !(s.aux a).good && decide (20 ≤ ms) then
      ((s.auxStop a 7).put PWR_AUX_STAT.FB_FAULT 1 a).log 0x0124 FAULT [a]
    else s

/-- AUX_BURST_SLEEP (R62): the periods for which the peak threshold has been below `BURST_TH`, in regulation or soft start. -/
def execAuxBurstSleep (a n : Nat) (s : State) : Host.Outcome State Fault Refusal :=
  .next <|
    if decide (a < 6) && s.auxRuns a && s.is PWR_AUX_CTRL.BURST_EN a && decide (s.auxMode a ≤ 2) && !s.auxFallback a && decide (16 ≤ n) &&
        decide (s.auxLoopTh a < s.auxBurstTh a) then
      ((s.auxLow a).put PWR_AUX_STAT.MODE 3 a).setAux a { s.aux a with burst := 0 }
    else s

/-- AUX_BURST_WAKE (R62): AUXa_FB. -/
def execAuxBurstWake (a fb : Nat) (s : State) : Host.Outcome State Fault Refusal :=
  .next <|
    if decide (a < 6) && s.runs 10 && s.auxMode a == 3 && decide (100 * fb ≤ 99 * s.auxRef a) then
      ((s.auxFb a fb).put PWR_AUX_STAT.MODE (s.auxBack a) a).setAux a { s.aux a with burst := 5 }
    else s

/-- AUX_SYNC_LOCK (R63): the consecutive edges, the last of them now, and their frequency in 10 Hz. Eight lock the channel, for the first
time as after a loss (DEDUCED, log 132); a locked channel takes each accepted edge. -/
def execAuxSyncLock (a n f : Nat) (s : State) : Host.Outcome State Fault Refusal :=
  let w := clampN 1000 10000 (s.get PWR_AUX_FSW.FSW a)
  .next <|
    if decide (a < 6) && s.auxRuns a && s.is PWR_AUX_CTRL.SYNC_EN a && (decide (8 ≤ n) || (s.is PWR_AUX_STAT.SYNCED a && decide (1 ≤ n))) &&
        decide (8 * w ≤ f) && decide (f ≤ 12 * w) then
      let s1 := ((s.put PWR_AUX_STAT.SYNCED 1 a).putMax PWR_SYNC.FSYNC f).put PWR_SYNC.PRESENT 1
      let s2 := s1.setAux a { s1.aux a with lost := false, edge := 0 }
      if (s1.aux a).lost then s2.log 0x0122 NOTICE [a, 0] else s2
    else s

/-- AUX_SYNC_LOST (R63): the time since the last accepted edge in tenths of the period. -/
def execAuxSyncLost (a t : Nat) (s : State) : Host.Outcome State Fault Refusal :=
  .next <|
    if decide (a < 6) && s.runs 10 && s.is PWR_AUX_STAT.SYNCED a && decide (15 ≤ t) then
      let s1 := (s.put PWR_AUX_STAT.SYNCED 0 a).put PWR_AUX_STAT.SYNC_LOST 1 a
      (s1.setAux a { s1.aux a with lost := true }).log 0x0122 NOTICE [a, 1]
    else s

/-- AUX_TRUNCATION (R64): AUXa_FB. -/
def execAuxTruncation (a fb : Nat) (s : State) : Host.Outcome State Fault Refusal :=
  .next <|
    if decide (a < 6) && s.auxRuns a && s.auxOver a fb (s.get PWR_AUX_OVS.OV1 a) then
      ((s.auxFb a fb).auxLow a).inc PWR_AUX_CNT.TRUNC a
    else s

/-- AUX_BRAKING (R64): AUXa_FB, and the periods for which truncation has lasted. -/
def execAuxBraking (a fb n : Nat) (s : State) : Host.Outcome State Fault Refusal :=
  .next <|
    if decide (a < 6) && s.auxRuns a && s.auxMode a != 5 &&
        (s.auxOver a fb (s.get PWR_AUX_OVS.OV2 a) || (s.auxOver a fb (s.get PWR_AUX_OVS.OV1 a) && decide (2 < n))) then
      let s1 := (((s.auxFb a fb).auxLow a).put PWR_AUX_STAT.MODE 5 a).put PWR_AUX_STAT.BRAKE_SEEN 1 a
      (s1.inc PWR_AUX_CNT.BRAKE a).log 0x0123 WARNING [a]
    else s

/-- AUX_BRAKE_RELEASE (R64): AUXa_FB below r × (1 + `OV1`/2). -/
def execAuxBrakeRelease (a fb : Nat) (s : State) : Host.Outcome State Fault Refusal :=
  .next <|
    if decide (a < 6) && s.runs 10 && s.auxMode a == 5 && decide (400 * fb < s.auxRef a * (400 + s.get PWR_AUX_OVS.OV1 a)) then
      (s.auxFb a fb).put PWR_AUX_STAT.MODE (s.auxBack a) a
    else s

/-- AUX_THERMAL_WARNING (R65): `TWARN` follows the stage temperature that Thermal reports. -/
def execAuxThermalWarning (a : Nat) (s : State) : Host.Outcome State Fault Refusal :=
  .next <|
    if 6 ≤ a ∨ !s.runs 10 then s
    else
      let hot := match s.auxTemp a with | some t => decide (10 * (s.get PWR_AUX_TEMP.WARN a : Int) ≤ t) | none => false
      let s1 := s.putb PWR_AUX_STAT.TWARN hot a
      if hot && !s.is PWR_AUX_STAT.TWARN a then s1.log 0x0120 WARNING [a] else s1

/-- AUX_THERMAL_SHUTDOWN (R65). -/
def execAuxThermalShutdown (a : Nat) (s : State) : Host.Outcome State Fault Refusal :=
  .next <|
    match s.auxTemp a with
    | some t =>
      if decide (a < 6) && s.auxRuns a && decide (10 * (s.get PWR_AUX_TEMP.SHUT a : Int) ≤ t) then
        ((s.auxStop a 6).put PWR_AUX_STAT.TSHUT_SEEN 1 a).log 0x0121 FAULT [a]
      else s
    | none => s

/-- AUX_THERMAL_RESTART (R65): 15 K below `SHUT`, with soft start. -/
def execAuxThermalRestart (a : Nat) (s : State) : Host.Outcome State Fault Refusal :=
  .next <|
    match s.auxTemp a with
    | some t =>
      if decide (a < 6) && s.runs 10 && s.auxMode a == 6 && decide (t ≤ 10 * (s.get PWR_AUX_TEMP.SHUT a : Int) - 150) then
        let s1 := s.put PWR_AUX_STAT.MODE 0 a
        if s1.is PWR_AUX_CTRL.EN a then s1.auxStart a else s1
      else s
    | none => s

/-- SNS_SELECT_CHANGE (R40, R397): SSEL and the µs for which it has been stable, the µs since the end of its debounce, those since the
channel last entered ON, and the voltage on SNS in mV. -/
def execSnsSelectChange (code us since onUs mv : Nat) (s : State) : Host.Outcome State Fault Refusal :=
  .next <|
    if s.runs 10 && decide (code < 16) && decide (1000 ≤ us) then
      let s1 := s.put LSW_BANK.SSEL code
      if since < 10 then { s1 with pins := { s1.pins with sns := none } }.put LSW_BANK.SNS_VALID 0
      else { s1 with pins := { s1.pins with sns := some code, snsMv := min mv 3500 } }.putb LSW_BANK.SNS_VALID
        (s1.chSt code == 1 && decide (200 ≤ onUs) && decide (mv ≤ 3300))
    else s

end Sys2Proof.Machine
end

