-- ==== Sys2Proof/Machine/Boot.lean ====
section
/-! DEFINITION. What each command of the role set, the resets and READY does (spec/01_module_roles.md,
spec/04_startup_reset_retention.md). A command whose condition the manual states and the state or its measurement does not meet
leaves the state unchanged. -/

namespace Sys2Proof.Machine

open R

/-! ### Assigning a role (R23 to R27) -/

/-- A role apply runs. -/
def State.applying (s : State) : Bool := s.is SYS_ROLE_CMD.APPLY

/-- The first condition of R23 that refuses an apply, as `STATUS`; 0 for none. R23 does not order its conditions: where several hold, `STATUS` shows
the first of its list (DESIGN CHOICE, log 145). -/
def State.applyRefusal (s : State) : Nat :=
  if s.anyPhase || s.anyContactor then 3
  else if s.aboveFloor then 4
  else if s.actionWaits then 5
  else if !roleAllowed (s.get SYS_ROLE.ROLE_CFG) then 6
  else 0

/-- The word of `SYS_ROLE` that an apply takes into force (R24, R483). -/
def State.roleNext (s : State) : Word := s.updN.role.getD (s.word 0x40)

/-- The subsystems that run after an apply. -/
def State.runningNext (s : State) : Nat :=
  runningSet (s.get SYS_ROLE.ROLE_CFG) (s.roleNext.toNat / 16 % 4) (s.is PLC_CTRL.EN)

/-- The domains whose subsystems change between two sets of running subsystems; D0 to D4, D8 and D11 are never among them (R24). -/
def changedDomains (old new : Nat) : Nat :=
  let ch := fun (i : Nat) => bit old i != bit new i
  let b := fun (c : Bool) (m : Nat) => if c then m else 0
  b (ch 1) 0x60 + b (ch 2) 0x80 + b (ch 8 || ch 10) 0x200 + b (ch 11) 0x400

/-- A DOMAIN reset of a set of domains begins, where it is not absorbed. -/
def State.domainBegin (s : State) (doms : Nat) : State :=
  let r := s.resetCause 7 doms
  if r.1 then r.2.enterReset 7 doms else r.2

/-- A write of 1 to `APPLY` (R23, R24). -/
def State.applyWrite (s : State) : State :=
  if s.applying then s
  else
    let r := s.applyRefusal
    if r ≠ 0 then (s.put SYS_ROLE_CMD.STATUS r).log 0x0013 WARNING [r]
    else
      let ran := s.inRun
      let doms := changedDomains s.running s.runningNext
      let s1 := (((s.put SYS_ROLE_CMD.APPLY 1).put SYS_ROLE_CMD.STATUS 1).toQuiet).leasesLapse
      let s2 := { s1 with boot := { s1.boot with apply := doms, applyRan := ran } }
      if doms = 0 then s2 else s2.domainBegin doms

/-- APPLY (R23). -/
def execApply (sess : Nat) (s : State) : Host.Outcome State Fault Refusal :=
  .next <| s.guarded sess SYS_ROLE_CMD.APPLY State.applyWrite

/-- The firmware switch that ends with the restart of these domains, if one does. -/
def State.switchOver (s : State) (doms : Nat) : Option Nat := s.boot.swRun.filter fun u => bit doms (unitDomain u)

/-- A firmware switch ends with the restart of its unit (R475): event 0x1104 with the bank in force. The `STATUS` of a switch of unit 0 went
with the reset of D3; its result is read in `ACT`. -/
def State.switchEnd (s : State) (doms : Nat) : State :=
  match s.switchOver doms with
  | some u =>
    let s1 := { s with boot := { s.boot with swRun := none } }.log 0x1104 NOTICE [u, if bit s.updN.act u then 1 else 0]
    if u = 0 then s1 else ((s1.put UPD_FW_CMD.STATUS 2).put UPD_STAT.BUSY 0).put UPD_STAT.OP 0
  | none => s

/-- The bits of `PWR_DOM_RST` of the domains that have restarted clear (R56). -/
def State.rstDone (s : State) (doms : Nat) : State :=
  let left := clrBits (8 * s.get PWR_DOM_RST.RST) doms
  let t := s.put PWR_DOM_RST.RST (left / 8)
  if left = 0 then t.put PWR_DOM_RST.RESULT 2 else t

/-- A DOMAIN reset completes (R56): the command's bits clear, and event 0x0107 where one of them or a firmware switch was in it (R475). -/
def State.domainDone (s : State) (o : BootObs) : State :=
  let doms := s.boot.doms
  let t := s.exitReset o
  let rst := Nat.land (8 * t.get PWR_DOM_RST.RST) doms != 0
  let t1 := t.when rst fun v => v.rstDone doms
  (t1.when (rst || (t.switchOver doms).isSome) fun v => v.log 0x0107 NOTICE (leBytes 2 doms)).switchEnd doms

/-- The further DOMAIN reset begins as soon as the running one has completed (R71). -/
def State.domainFurther (s : State) : State :=
  let d := s.boot.further
  if d = 0 then s else { s with boot := { s.boot with further := 0 } }.domainBegin d

/-- The new role set comes into force, with its floor (R24, R207, R483). -/
def State.roleInForce (s : State) : State :=
  let w := s.roleNext
  let v := fun (f : Field) => w.toNat / 2 ^ f.lo
  let s1 := ((s.put SYS_ROLE.OPT (v SYS_ROLE.OPT)).put SYS_ROLE.DISP_CONN (v SYS_ROLE.DISP_CONN)).put SYS_ROLE.STORE_GRP
    (v SYS_ROLE.STORE_GRP)
  { (s1.put SYS_ROLE.ROLE_ACT (s1.get SYS_ROLE.ROLE_CFG)).floorShow with updN := { s1.updN with role := none } }

/-- APPLY_COMPLETE (R24, R27): what the restarts find. A MEMBER joins again with its new role set, and with it its new floor (log 55). -/
def execApplyComplete (o : BootObs) (s : State) : Host.Outcome State Fault Refusal :=
  .next <|
    if s.applying then
      let s1 := s.roleInForce.safCopy
      let s2 := if s1.boot.kind = 7 then (s1.domainDone o).domainFurther else s1
      let s3 := if s2.boot.kind = 7 then s2.domainDone o else s2
      let s4 := (s3.put PWR_DOM_STAT.ON s3.domainsOn).reqShow.lswOwners.roleReady
      let s5 := ((s4.put SYS_ROLE_CMD.APPLY 0).put SYS_ROLE_CMD.STATUS 2).log 0x0012 NOTICE [2]
      let ran := s5.boot.applyRan
      let s6 := { s5 with boot := { s5.boot with apply := 0, applyRan := false } }
      let s7 := if s6.get FAB_STAT.STATE = 4 && s6.runs 8 then s6.joinRequest else s6
      if ran && s7.runRefusal = 0 then (s7.put PWR_STATE.STATE 0).gden else s7
    else s

/-! ### Resets (R69 to R72) -/

/-- POR_RESET (R73, R81): VSUP in mV and the ms for which it has held, whether D0 has been without power, and what the start finds.
D1 is off in KEEP; the state after reset, in which no step of the sequence has run, stands for first power. -/
def execPorReset (mv ms : Nat) (cold : Bool) (o : BootObs) (s : State) : Host.Outcome State Fault Refusal :=
  .next <|
    if (!s.runs 1 || (s.get SYS_BOOT_STAT.STEP == 0 && s.boot.kind == 0 && !s.boot.dormant)) && !s.boot.failing &&
        decide (16000 ≤ mv) && decide (10 ≤ ms) then
      ((s.put SYS_RST_CAUSE.COINC 0).coldReset 1 cold o).vsup mv
    else s

/-- A PIN reset (R37): held while RST_N stays low. -/
def State.pinReset (s : State) (low : Bool) (o : BootObs) : State :=
  let r := s.resetCause 3 warmDoms
  if r.1 then
    let t1 := ({ r.2 with boot := { r.2.boot with dormant := false } }.enterReset 3 warmDoms)
    let t2 := { t1 with pins := { t1.pins with rstLow := low } }
    if low then t2 else t2.exitReset o
  else r.2

/-- PIN_RESET (R37): the ns for which RST_N has been low, whether it still is, and what the start finds. A low level of 100 ns or longer
but shorter than 1 µs may or may not cause a reset. While D1 is off or the hold-up sequence runs, the level counts for the next start. -/
def execPinReset (ns : Nat) (low : Bool) (o : BootObs) (s : State) : Host.Outcome State Fault Refusal :=
  .next <|
    if !s.supplied then (if low then { s with pins := { s.pins with rstLow := true } } else s)
    else if 1000 ≤ ns then s.pinReset low o
    else if 100 ≤ ns then
      let r := s.free 1
      if r.1 = 1 then r.2.pinReset low o else r.2
    else s

/-- RST_N_RELEASE (R37, R73): what the start finds. -/
def execRstNRelease (o : BootObs) (s : State) : Host.Outcome State Fault Refusal :=
  .next <|
    if s.pins.rstLow then
      let s1 := { s with pins := { s.pins with rstLow := false } }
      if s1.supplied ∧ 1 ≤ s1.boot.kind ∧ s1.boot.kind ≤ 3 then s1.exitReset o else s1
    else s

/-- The first condition of R72 that refuses a SOFT reset, as `STATUS`; 0 for none. -/
def State.softRefusal (s : State) : Nat :=
  if s.anyPhase then 1 else if s.anySession then 2 else if s.applying then 3 else 0

/-- A write of 1 to `SOFT` (R72). -/
def State.softReset (s : State) (o : BootObs) : State :=
  let r := s.softRefusal
  if r = 0 then s.warmReset 6 warmDoms o else (s.put SYS_RST_CMD.STATUS r).log 0x0009 WARNING [r]

/-- SOFT_RESET (R72, R77): the session and what the restart finds. -/
def execSoftReset (sess : Nat) (o : BootObs) (s : State) : Host.Outcome State Fault Refusal :=
  .next <| s.guarded sess SYS_RST_CMD.SOFT fun t => t.softReset o

/-- The first condition of R56 that refuses a DOMAIN reset, as `RESULT`; 0 for none. -/
def State.domainRefusal (s : State) (doms : Nat) : Nat :=
  if Nat.land doms 0xF0 != 0 && s.anyPhase then 3
  else if bit doms 9 && s.anySession then 4
  else if bit doms 3 && s.applying then 5
  else 0

/-- A write to `PWR_DOM_RST` (R56); `bits` is the value of `RST`, bit d − 3 for Dd. -/
def State.domainWrite (s : State) (bits : Nat) : State :=
  let doms := 8 * (bits % 2 ^ 9)
  if doms = 0 then s
  else
    let r := s.domainRefusal doms
    if r ≠ 0 then s.put PWR_DOM_RST.RESULT r
    else ((s.put PWR_DOM_RST.RST (s.get PWR_DOM_RST.RST ||| bits % 2 ^ 9)).put PWR_DOM_RST.RESULT 1).domainBegin (withDependants doms)

/-- DOMAIN_RESET (R56): the session and the value of `RST`. -/
def execDomainReset (sess bits : Nat) (s : State) : Host.Outcome State Fault Refusal :=
  .next <| s.guarded sess PWR_DOM_RST.RST fun t => t.domainWrite bits

/-- DOMAIN_RESET_COMPLETE (R56, R71, R77): what the restart finds. -/
def execDomainResetComplete (o : BootObs) (s : State) : Host.Outcome State Fault Refusal :=
  .next <| if s.boot.kind = 7 ∧ !s.applying then (s.domainDone o).domainFurther else s

/-- The tag of a reset command verifies under the copy of the site fabric key in D8 (R200). -/
def State.resetTagOk (s : State) (serial stamp : Nat) (t : ResetTag) : Bool :=
  match s.fab.key with
  | some k => t.tag == resetTag k t.dst t.src t.seq serial stamp t.low
  | none => false

/-- FABRIC_RESET_COMMAND (R200, R72): the sender's node, the serial number and the stamp of the payload, what authenticates them, and what the
restart finds. -/
def execFabricResetCommand (node serial stamp : Nat) (tagOk : ResetTag) (o : BootObs) (s : State) : Host.Outcome State Fault Refusal :=
  .next <|
    if s.runs 8 then
      if s.resetTagOk serial stamp tagOk && serial == s.serial && decide (((stamp : Int) - (s.stamp : Int)).natAbs ≤ 2 ^ 24) &&
          decide (s.rstStamp < stamp) then
        let r := { s with rstStamp := stamp }.resetCause 5 warmDoms
        if r.1 then ((r.2.enterReset 5 warmDoms).put SYS_RST_INFO.FABR_NODE node).exitReset o else r.2
      else (s.inc FAB_WAKE.REJ).log 0x060C FAULT
    else s

/-! ### READY (R75, R76) -/

/-- The bits of `REQ` that are not set in `RDY`. -/
def State.readyMissing (s : State) : Nat := clrBits (s.get SYS_READY.REQ) (s.get SYS_READY.RDY)

/-- The conditions of R75. -/
def State.readyHolds (s : State) : Bool :=
  s.supplied && !s.boot.dormant && s.readyMissing == 0 && s.is PWR_HOLDUP.HOLDUP_OK && !s.is SYS_READY.FRZ_PEND && s.boot.kind == 0 &&
    !s.pins.rstLow

/-- READY_RELEASE (R75, R465): the ms since step 1 of the last reset; above 65,534 ms `T_READY` holds 0xFFFE (DESIGN CHOICE, log 99). -/
def execReadyRelease (ms : Nat) (s : State) : Host.Outcome State Fault Refusal :=
  .next <|
    if s.readyHolds && !s.is SYS_READY.PIN then
      let s1 := (((s.put SYS_READY.PIN 1).put SYS_BOOT_TIME.T_READY (min ms 0xFFFE)).put SYS_BOOT_STAT.STEP 12).put SYS_BOOT_STAT.LATE 0
      let s2 := { s1.put SAF_WD_STAT.WD_CNT 0 with saf := { s1.saf with stormReady := true } }
      s2.log 0x0002 INFO (leBytes 2 (min ms 0xFFFE))
    else s

/-- READY_DEADLINE (R76): the ms since step 1 of the last reset. -/
def execReadyDeadline (ms : Nat) (s : State) : Host.Outcome State Fault Refusal :=
  let limit := if s.get SYS_RST_CAUSE.LAST ≤ 3 then 2367 else 1567
  .next <|
    if s.supplied && !s.boot.dormant && !s.is SYS_READY.PIN && !s.is SYS_BOOT_STAT.LATE && decide (limit ≤ ms) && !s.readyHolds then
      (s.put SYS_BOOT_STAT.LATE 1).log 0x0003 FAULT (leBytes 2 s.readyMissing)
    else s

end Sys2Proof.Machine
end

