-- ==== Sys2Proof/Machine/EventLog.lean ====
section
/-! DEFINITION. What each command of the Event Recorder does (spec/19_event_logs.md). The read window and the search are each
session's own (R444, R501). -/

namespace Sys2Proof.Machine

open R

/-- The 32 bytes of a record (R438). -/
def Rec.bytes (r : Rec) : List Nat :=
  let b := leBytes 8 r.stamp ++ leBytes 4 r.utc ++ leBytes 2 r.code ++ [r.sev, r.src] ++
    (List.range 12).map fun i => r.pay.getD i 0 % 256
  b ++ leBytes 4 (crc32 b)

/-- EVENT_RECORD (R439, R441): the store manager writes the first record of the intake queue, and event 0x1006 once there is room
after a drop. -/
def execEventRecord (s : State) : Host.Outcome State Fault Refusal :=
  .next <|
    match s.evr.queue with
    | [] => s
    | r :: l =>
      let n := s.evr.dropped
      let s1 := { s with evr := { s.evr with queue := l } }.storeOp r
      if n = 0 then s1 else { s1 with evr := { s1.evr with dropped := 0 } }.log 0x1006 WARNING (leBytes 2 (min n 0xFFFF))

/-- A write to `CLR_TO` (R445). -/
def State.logClear (s : State) (sess v : Nat) : State :=
  let keep := s.evr.op.filter fun h => decide (v < h.seq) && decide (v ≠ 0xFFFFFFFF)
  let n := s.evr.op.length - keep.length
  ({ s with evr := { s.evr with op := keep } }.opFill).log 0x1002 NOTICE (leBytes 4 n ++ [s.level sess])

/-- LOG_CLEAR (R445): accepted from a session of every level. -/
def execLogClear (sess v : Nat) (s : State) : Host.Outcome State Fault Refusal :=
  .next <|
    if s.level sess = 0 then s.report sess 2
    else if !s.runs 3 then s.report sess 5
    else s.logClear sess (v % 2 ^ 32)

/-- The records held in a log. -/
def State.logOf (s : State) (log : Nat) : List Held := if log = 0 then s.evr.op else s.evr.mor

/-- The held record with the lowest sequence number at or above a value. -/
def nextHeld (l : List Held) (v : Nat) : Option Held :=
  l.foldl (fun (best : Option Held) (h : Held) =>
    if h.seq < v then best
    else match best with
      | none => some h
      | some b => if h.seq < b.seq then some h else best) none

/-- A record has failed its check (R450). -/
def State.crcFailed (s : State) (log seq : Nat) : State :=
  (s.inc EVR_CRC.CRC_ERR).log 0x1007 FAULT ([log, 0, 0, 0] ++ leBytes 4 seq)

/-- The read window of a session takes the next held record (R448, R450): `ok` is the outcome of its check. -/
def State.windowLoad (s : State) (sess v : Nat) (ok : Bool) : State :=
  let x := s.ses sess
  match nextHeld (s.logOf x.win.log) v with
  | none => s.setSes sess { x with win := { x.win with seq := 0, present := false, crcOk := false, words := [] } }
  | some h =>
    let b := h.rcd.bytes
    let words := (List.range 8).map fun w => ofLeBytes ((b.drop (4 * w)).take 4)
    let s1 := s.setSes sess { x with win := { x.win with seq := h.seq, present := true, crcOk := ok, words } }
    if ok then s1 else s1.crcFailed x.win.log h.seq

/-- LOG_READ_LOAD (R448): the value written to `EVR_RD_SEQ`, and whether the record passes its check. -/
def execLogReadLoad (sess v : Nat) (ok : Bool) (s : State) : Host.Outcome State Fault Refusal :=
  .next <| s.guarded sess EVR_RD_SEQ.SEQ fun t => if !t.runs 3 then t.report sess 5 else t.windowLoad sess (v % 2 ^ 32) ok

/-- A read of window word 7 (R448). -/
def State.windowNext (s : State) (sess : Nat) (ok : Bool) : State :=
  let w := (s.ses sess).win
  if w.auto && w.present then s.windowLoad sess (w.seq + 1) ok else s

/-- LOG_READ_NEXT (R448): whether the next record passes its check. -/
def execLogReadNext (sess : Nat) (ok : Bool) (s : State) : Host.Outcome State Fault Refusal :=
  .next <| if s.level sess = 0 then s.report sess 2 else if !s.runs 3 then s.report sess 5 else s.windowNext sess ok

/-- The key by which a record is searched, where it has one (R449). -/
def Rec.searchKey (r : Rec) (key : Nat) : Option Nat :=
  if key = 0 then (if r.stamp = 0 then none else some r.stamp) else (if bit r.src 5 then none else some r.utc)

/-- A search (R449). -/
def State.search (s : State) (sess key log : Nat) : State :=
  let x := s.ses sess
  let target := if key = 0 then x.find.lo + 2 ^ 32 * x.find.hi else x.find.lo
  let hits := (s.logOf log).filter fun h => match h.rcd.searchKey key with | some k => decide (target ≤ k) | none => false
  let f := match nextHeld hits 0 with
    | some h => { x.find with key, log, found := true, seq := h.seq }
    | none => { x.find with key, log, found := false, seq := 0 }
  s.setSes sess { x with find := f }

/-- LOG_SEARCH (R449): `KEY` and `LOG` as written with `GO`. -/
def execLogSearch (sess key log : Nat) (s : State) : Host.Outcome State Fault Refusal :=
  .next <| s.guarded sess EVR_FIND_CTRL.GO fun t => if !t.runs 3 then t.report sess 5 else t.search sess (key % 2) (log % 2)

/-- LOG_CRC_CHECK (R450): the sequence numbers of the operational and of the Moraine records that fail their check. -/
def execLogCrcCheck (op mor : List Nat) (s : State) : Host.Outcome State Fault Refusal :=
  let held := fun (l : List Held) (q : Nat) => l.any fun h => h.seq == q
  let s1 := (op.filter (held s.evr.op)).foldl (fun (t : State) q => t.crcFailed 0 q) s
  .next ((mor.filter (held s.evr.mor)).foldl (fun (t : State) q => t.crcFailed 1 q) s1)

/-- SITE_MARK (R451). -/
def execSiteMark (s : State) : Host.Outcome State Fault Refusal :=
  .next (s.laRun 0x01D 0x01 fun a t => t.log 0x1008 INFO (leBytes 4 a.actId))

end Sys2Proof.Machine
end

