-- ==== Sys2Proof/Machine/Fabric.lean ====
section
/-! DEFINITION. What each Fabric command does (spec/08_fabric.md), but for the reset command, which stands with the other
resets. A command whose condition the manual states and the state or its measurement does not meet leaves the state unchanged. -/

namespace Sys2Proof.Machine

open R

/-- Fn_LOS as it reads now. -/
def State.setLos (s : State) (n : Nat) (los : Bool) : State := s.putb FAB_LANE_STAT.LOS los n

/-- A lane starts training (R172). -/
def State.laneTrain (s : State) (n : Nat) : State := (s.put FAB_LANE_STAT.STATE 1 n).emit .training n []

/-- LANE_TRAIN (R172). -/
def execLaneTrain (n : Nat) (los : Bool) (s : State) : Host.Outcome State Fault Refusal :=
  .next <|
    if s.runs 8 && decide (n < 8) then
      let s1 := s.fabStart.setLos n los
      if bit (s1.get FAB_CTRL.LANE_EN) n && !los && s1.get FAB_LANE_STAT.STATE n == 0 && !bit s1.fab.retry n then s1.laneTrain n
      else s1
    else s

/-- LANE_TRAIN_TIMEOUT (R172): 20 ms without block lock or identity exchange. -/
def execLaneTrainTimeout (n ms : Nat) (s : State) : Host.Outcome State Fault Refusal :=
  .next <|
    if decide (n < 8) && s.get FAB_LANE_STAT.STATE n == 1 && decide (20 ≤ ms) then
      { s with fab := { s.fab with retry := setBit s.fab.retry n } }.put FAB_LANE_STAT.STATE 0 n
    else s

/-- LANE_RETRY (R172): 10 ms after the timeout. -/
def execLaneRetry (n ms : Nat) (los : Bool) (s : State) : Host.Outcome State Fault Refusal :=
  .next <|
    if decide (n < 8) && bit s.fab.retry n && decide (10 ≤ ms) then
      let s1 := ({ s with fab := { s.fab with retry := clrBit s.fab.retry n } }).setLos n los
      if bit (s1.get FAB_CTRL.LANE_EN) n && !los && s1.get FAB_LANE_STAT.STATE n == 0 then s1.laneTrain n else s1
    else s

/-- This module's part of the identity exchange (R172): serial number, node ID, role set and candidate key. -/
def State.identity (s : State) : List Nat :=
  [s.serial, s.get FAB_STAT.NODE_ID, s.get SYS_ROLE.ROLE_ACT] ++ (match s.ownKey with | some k => [k.cls, k.inc, k.prio] | none => [])

/-- LANE_HOLD (R172): block lock, then the exchange of serial number, node ID, role set and candidate key, and 16 delay measurements of
a mean in 125 ps, on a lane that is enabled (R171). Nothing uses the neighbour's role set, and no command states it. -/
def execLaneHold (n node dly count : Nat) (key : FabKey) (s : State) : Host.Outcome State Fault Refusal :=
  .next <|
    if decide (n < 8) && bit (s.get FAB_CTRL.LANE_EN) n && s.get FAB_LANE_STAT.STATE n == 1 && decide (16 ≤ count) then
      let s1 := ((s.put FAB_LANE_STAT.STATE 2 n).put FAB_LANE_STAT.NBR_ID node n).putMax FAB_LANE_DLY.DLY dly n
      let s2 := (s1.put FAB_LANE_NBR_LO.SERIAL (key.serial % 2 ^ 32) n).put FAB_LANE_NBR_HI.SERIAL (key.serial / 2 ^ 32) n
      { s2 with fab := { s2.fab with dly := sparsePut [] n (List.replicate 16 (dly : Int)) s2.fab.dly } }.emit .training n s2.identity
    else s

/-- LANE_ACTIVE (R172): stable in HOLD for 10 ms, or for `LINK_HOLD` where the lane went DOWN within the last 60 s. The row to DOWN comes
first: a lane that is not enabled, or whose Fn_LOS is high, goes there. -/
def execLaneActive (n ms : Nat) (downS : Option Nat) (s : State) : Host.Outcome State Fault Refusal :=
  let hold := match downS with
    | some d => if d ≤ 60 then 100 * clampN 1 100 (s.get FAB_TIMERS2.LINK_HOLD) else 10
    | none => 10
  .next <|
    if decide (n < 8) && s.get FAB_LANE_STAT.STATE n == 2 && (!bit (s.get FAB_CTRL.LANE_EN) n || s.is FAB_LANE_STAT.LOS n) then s.laneDown n
    else if decide (n < 8) && s.get FAB_LANE_STAT.STATE n == 2 && decide (hold ≤ ms) then
      (((s.setLane n {}).put FAB_LANE_STAT.STATE 3 n).fabLinkUp).log 0x0606 INFO [n]
    else s

/-- LANE_DOWN (R172, R190): 0 Fn_LOS high, 1 invalid sync headers in 64 blocks, 2 failed replays in a row, 3 the lane's
`LANE_EN` bit is 0, 4 a leave notice; `m` is the count. Lane 8 is the powerline (R242): cause 4, with the station that leaves as `m`, takes its
link DOWN. -/
def execLaneDown (n cause m : Nat) (s : State) : Host.Outcome State Fault Refusal :=
  let found := match cause with
    | 0 => true
    | 1 => decide (16 ≤ m)
    | 2 => decide (8 ≤ m)
    | 3 => !bit (s.get FAB_CTRL.LANE_EN) n
    | 4 => true
    | _ => false
  .next <|
    if n = 8 then (if cause = 4 ∧ (s.plcLink m).active then s.plcLinkDown m else s)
    else if decide (n < 8) && decide (2 ≤ s.get FAB_LANE_STAT.STATE n) && found then
      (if cause = 0 then s.setLos n true else s).laneDown n
    else s

/-- FRAME_FORWARD (R172 to R176, R183 to R190): a frame from a link; `crc` 0 good, 1 bad here, 2 found bad by the neighbour,
which asks for a repeat from the replay buffer. A frame of the module's own waits while injection is held and while 4 urgent frames have
been injected in the last 100 µs. A neighbour sends only what its credits cover (R174); a frame that it sends itself names its node (R184). -/
def execFrameForward (link crc : Nat) (f : FabFrame) (urgent pending recent : Nat) (s : State) :
    Host.Outcome State Fault Refusal :=
  .next <|
    if !s.runs 8 then s
    else if link = 14 then
      { s with fab := { s.fab with inject := s.fab.inject ++ [f] } }.injectAll (4 - recent)
    else if !s.linkUp link then s
    else match crc with
      | 0 =>
        if link < 8 ∧ !s.rxRoom link (⟨f, link⟩ : Egr) then s
        else (s.when (decide (link < 8) && f.hops == 0) fun t => t.nbrLearn link (f.src / 2 ^ 11)).routeFrame f urgent pending link
      | 1 => if link < 8 then s.inc FAB_LANE_ERR.CRC link else s
      | _ =>
        if link < 8 then
          match (s.lane link).replay.find? fun p => p.2 == frameBytes f with
          | some p => (s.inc FAB_LANE_ERR.REPLAY link).emit .replay link (p.1 :: p.2)
          | none => s
        else s

/-- The frame at the head of a lane's egress queue waits for credits (R175). -/
def State.stalled (s : State) (l : Nat) : Bool :=
  match (s.lane l).queue with
  | e :: _ => !(s.lane l).covers e
  | [] => false

/-- STALL_DISCARD (R175): the time at the head of the egress queue in 100 µs. The frame that waits for credits at the head of a queue is
discarded; of several queues the command names none, and the lowest lane with one is taken (DESIGN CHOICE, log 109). -/
def execStallDiscard (waited : Nat) (s : State) : Host.Outcome State Fault Refusal :=
  .next <|
    if s.runs 8 && decide (clampN 1 100 (s.get FAB_TIMERS2.STALL_T) < waited) then
      match (List.range 8).find? s.stalled with
      | some l => (s.setLane l { s.lane l with queue := (s.lane l).queue.drop 1 }).discard 0
      | none => s
    else s

/-- A write of `WAKE_TX` (R172): every named lane that is not ACTIVE and is enabled sends wake blocks for 2 ms. -/
def State.wakeTx (s : State) (mask : Nat) : State :=
  s.eachBit 8 mask fun n t =>
    if t.get FAB_LANE_STAT.STATE n = 3 ∨ !bit (t.get FAB_CTRL.LANE_EN) n then t else t.emit .wakeBlocks n [2]

/-- WAKE_TX (R172). -/
def execWakeTx (sess mask : Nat) (s : State) : Host.Outcome State Fault Refusal :=
  .next <| s.guarded sess FAB_WAKE.WAKE_TX fun t => if t.runs 8 then t.wakeTx mask else t

/-- ANNOUNCE_SEND (R177 to R179): the class changes at most once per second, the root counts its sequence up. -/
def execAnnounceSend (classMs : Nat) (s : State) : Host.Outcome State Fault Refusal :=
  let st := s.get FAB_STAT.STATE
  .next <|
    if s.runs 8 && decide (2 ≤ st) && decide (st ≤ 4) then
      let s1 := s.when (decide (1000 ≤ classMs)) fun t => { t with fab := { t.fab with clsWait := 0 } }.takeClass
      let s2 := s1.when (s1.is FAB_STAT.ROOT) fun t => match t.ownKey with
        | some k => t.setRoot k (t.fab.rootSeq + 1)
        | none => { t with fab := { t.fab with rootSeq := t.fab.rootSeq + 1 } }
      s2.announce
    else s

/-- EPOCH_INSTALL (R189): the ms since the last epoch. Changes that arrive before `EPOCH_MIN` has passed are combined. -/
def execEpochInstall (ms : Nat) (s : State) : Host.Outcome State Fault Refusal :=
  .next <|
    if s.runs 8 && s.is FAB_STAT.ROOT && s.fab.due && s.fab.switch.isNone && decide (10 * clampN 1 255 (s.get FAB_TIMERS.EPOCH_MIN) ≤ ms)
    then s.installEpoch
    else s

/-- ANNOUNCE_RECEIVE (R177 to R179): what a neighbour announces on a link. -/
def execAnnounceReceive (link : Nat) (key : FabKey) (seq : Nat) (member : Bool) (s : State) :
    Host.Outcome State Fault Refusal :=
  let st := s.get FAB_STAT.STATE
  let stale := s.fab.lost.any fun p => p.1 == key.serial && decide (seq ≤ p.2)
  .next <|
    if s.runs 8 && s.linkUp link && decide (2 ≤ st) && decide (st ≤ 4) && !stale then
      let before := s.knownBest
      let root := member && decide (link < 8) && s.get2 FAB_LANE_NBR_LO.SERIAL FAB_LANE_NBR_HI.SERIAL link == key.serial
      let s := s.when root fun t => t.nbrLearn link 1
      let heard := sparsePut ⟨⟨0, 0, 0, 0⟩, 0, false⟩ link ⟨key, seq, member⟩ s.fab.heard
      let s1 := { s with fab := { s.fab with heard, lost := s.fab.lost.filter fun p => p.1 != key.serial } }
      let s2 := match s1.fab.rootKey with
        | some r =>
          if r.serial = key.serial ∧ !s1.is FAB_STAT.ROOT ∧ s1.fab.rootSeq < seq then s1.setRoot key seq else s1
        | none => s1
      let isBest := s2.knownBest == some key && s2.ownKey != some key
      let s3 := s2.when (s2.knownBest != before) State.announce
      let betterRoot := match s3.fab.rootKey with
        | some r => keyBetter key r && decide (r.serial ≠ key.serial)
        | none => true
      match st with
      | 2 => if isBest && member then s3.fabJoin key seq else s3
      | 4 => if isBest && betterRoot then s3.fabJoin key seq else s3
      | _ => if isBest && betterRoot then s3.setRoot key seq else s3
    else s

/-- BECOME_ROOT (R178, R202, R216): the module's own key has been the best heard for `ELECT_HOLD` half-cycles. It sends its first epoch at
once, or, where a switch that the former root armed is still to come, after that. -/
def execBecomeRoot (hc now : Nat) (s : State) : Host.Outcome State Fault Refusal :=
  .next <|
    if s.runs 8 && s.get FAB_STAT.STATE == 2 && s.is FAB_CTRL.ROOT_EN && s.knownBest == s.ownKey &&
        decide (clampN 1 16 (s.get FAB_TIMERS.ELECT_HOLD) ≤ hc) then
      let s1 := ((s.put FAB_STAT.STATE 4).rootOn now).log 0x0602 NOTICE
      if s1.fab.switch.isSome then s1.setReady 3 else (s1.setReady 3).installEpoch
    else s

/-- The lowest node ID from 0x002 that is neither in use nor reserved (R180). -/
def State.freeId (s : State) : Option Nat :=
  ((List.range 4094).map (· + 2)).find? fun n =>
    !(s.fab.ids.any fun p => p.1 == n) && !(s.fab.resv.any fun p => p.1 == n)

/-- The entry for a joining node's ID: a node more than 24 links away is unreachable (R187). -/
def joinEntry (id link hops : Nat) : Nat × Nat × Nat × Nat × Nat :=
  if 24 < hops then (id, 0xF, 0xF, 0, 0) else (id, link, 0xF, hops, 0)

/-- The entries for a joining node's ID at the nodes between the root and its parent, which its links fix (R188). -/
def State.joinRoutes (s : State) (id hops : Nat) (links : List (Nat × Nat × Nat)) : State :=
  let topo := s.fab.topo
  let lv := fabLevels topo
  match joinParent lv links with
  | none => s
  | some p => (pathUp topo lv 25 p.2.1 p.2.2).foldl (fun t q => t.srcSend true .tableLoad (q.1 * 2 ^ 11)
      (tableFrame (sparseGet 99 q.1 lv) [] [joinEntry id q.2 (hops - sparseGet 99 q.1 lv)])) s

/-- The root grants an ID to a serial number: its entry, the routes towards it and the answer (R180, R188). The ledger root compares the
module's floor and digest anew: it joins (R219). While a switch is armed the entry goes into the shadow bank too. The node enters the topology with
the links of its request, and where it has more than one a new epoch is due, with which they carry transit (R180, R188, R189). A node more than
24 links away is marked unreachable (R187). -/
def State.idGrant (s : State) (id serial link hops : Nat) (links : List (Nat × Nat × Nat)) : State :=
  let ids := (s.fab.ids.filter fun p => p.2 != serial && p.1 != id) ++ [(id, serial)]
  let resv := s.fab.resv.filter fun p => p.1 != id && p.2 != serial
  let hs := s.sl.holders.map fun (p : Nat × Holder) => if p.2.serial = serial then (p.1, { p.2 with known := false }) else p
  let add := sparsePut fwdReset id (if 24 < hops then mkEntry 0xF 0xF 0 0 else mkEntry link 0xF hops 0)
  let s := s.nbrGrant serial id
  let f := s.fab
  let topo := topoJoin f.topo id links
  let s1 := { s with sl := { s.sl with holders := hs }, fab := { f with
    ids, resv, topo, due := f.due || decide (1 < links.length), fwd0 := add f.fwd0, fwd1 := if f.switch.isSome then add f.fwd1 else f.fwd1 } }
  (s1.joinRoutes id hops links).srcSend true .idGrant (id * 2 ^ 11) (leBytes 2 id ++ leBytes 8 serial ++ [hops])

/-- NODE_ID_GRANT (R180, R181, R188): a join request of a serial number with its `STICKY_ID`, its role set and its links, reached over a link of
the root in some hops. -/
def execNodeIdGrant (serial sticky : Nat) (role : JoinReq) (link hops : Nat) (s : State) : Host.Outcome State Fault Refusal :=
  .next <|
    if s.runs 8 && s.is FAB_STAT.ROOT && s.get FAB_STAT.STATE == 4 then
      let s := { s with fab := { s.fab with roles := (serial, role.role % 16) :: eraseKey serial s.fab.roles } }
      let user := if 2 ≤ sticky then s.fab.ids.find? fun p => p.1 == sticky else none
      let held := s.fab.resv.any fun p => p.1 == sticky && p.2 != serial
      let s1 := match user with
        | some p =>
          if p.2 = serial then s.idGrant sticky serial link hops role.links
          else
            let t := s.log 0x0608 NOTICE
            match t.freeId with
            | none => t
            | some n =>
              let e := t.fwdEntry 0 sticky
              if serial < p.2 then
                ({ t with fab := { t.fab with ids := t.fab.ids.filter fun q => q.1 != sticky } }.idGrant n p.2 (e % 16) (e / 256 % 32) []).idGrant
                  sticky serial link hops role.links
              else t.idGrant n serial link hops role.links
        | none =>
          if 2 ≤ sticky ∧ sticky < 4096 ∧ !held then s.idGrant sticky serial link hops role.links
          else match s.freeId with
            | some n => s.idGrant n serial link hops role.links
            | none => s
      s1.when (decide (12 < hops)) fun t => t.log 0x060F WARNING [hops]
    else s

/-- JOIN_RETRY (R178): no grant within 50 ms. -/
def execJoinRetry (ms : Nat) (s : State) : Host.Outcome State Fault Refusal :=
  .next <| if s.runs 8 && s.get FAB_STAT.STATE == 3 && decide (50 ≤ ms) then s.joinRequest else s

/-- The module takes a granted node ID; a change is logged and drops the relay entries (R180, R181, R518). -/
def State.takeId (s : State) (id : Nat) : State :=
  let old := s.get FAB_STAT.NODE_ID
  let s1 := s.put FAB_STAT.NODE_ID id
  let s2 := if id = 1 then s1 else s1.put FAB_STICKY.STICKY_ID id
  s2.when (old != 0 && old != id) fun t => t.relaysDrop.log 0x0607 WARNING (leBytes 2 old ++ leBytes 2 id)

/-- JOIN_GRANT (R178, R180, R181, R188): a grant received over the up link and the routes to the module installed; its other links carry no
transit until the next epoch, and what a former fabric's table said is gone (DEDUCED, log 136). A member that the root moves to another ID takes
it. -/
def execJoinGrant (id level up : Nat) (s : State) : Host.Outcome State Fault Refusal :=
  .next <|
    if s.runs 8 && !s.is FAB_STAT.ROOT && decide (2 ≤ id) && decide (id < 4096) then
      match s.get FAB_STAT.STATE with
      | 3 =>
        let s1 := ((s.takeId id).put FAB_STAT.STATE 4).put FAB_STAT.LEVEL level
        let s2 := (((List.range 9).foldl (fun t l => t.setDir l 0) s1).setDir up 1).setParent
        let s2 := { s2 with fab := { s2.fab with fwd0 := [], leaf := true } }
        let s3 := (s2.setReady 3).log 0x0601 NOTICE (leBytes 2 id ++ [level])
        s3.when (decide (12 < level)) fun t => t.log 0x060F WARNING [level]
      | 4 => s.takeId id
      | _ => s
    else s

/-- ROOT_LOST (R179): half-cycles without an announce of a higher sequence for the root. -/
def execRootLost (hc : Nat) (s : State) : Host.Outcome State Fault Refusal :=
  .next <|
    if s.runs 8 && s.get FAB_STAT.STATE == 4 && !s.is FAB_STAT.ROOT && decide (clampN 2 32 (s.get FAB_TIMERS.ROOT_TMO) ≤ hc) then
      let r := match s.fab.rootKey with | some k => k.serial | none => 0
      let s1 := { s with fab := { s.fab with
        lost := (r, s.fab.rootSeq) :: s.fab.lost.filter fun p => p.1 != r, heard := s.fab.heard.filter fun p => p.2.key.serial != r } }
      (s1.log 0x0603 WARNING).fabElect
    else s

/-- FABRIC_ALONE (R178): no link ACTIVE for 100 ms. -/
def execFabricAlone (ms now : Nat) (s : State) : Host.Outcome State Fault Refusal :=
  let st := s.get FAB_STAT.STATE
  .next <|
    if s.runs 8 && decide (1 ≤ st) && decide (st ≤ 4) && s.linksUp.isEmpty && decide (100 ≤ ms) then
      (((s.put FAB_STAT.STATE 5).takeClass.rootOn now).setReady 3).log 0x060E WARNING
    else s

/-- ID_RESERVATION_EXPIRY (R180): seconds since the node departed. -/
def execIdReservationExpiry (id secs : Nat) (s : State) : Host.Outcome State Fault Refusal :=
  .next <|
    if decide (s.get FAB_TIMERS2.ID_HOLD ≤ secs) then
      { s with fab := { s.fab with resv := s.fab.resv.filter fun p => p.1 != id } }
    else s

/-- TOPOLOGY_REPORT (R184, R189): the root takes a node's links, given as link and neighbour, 8 the powerline; a node that no
path reaches any more has left. The next epoch carries the routes. -/
def execTopologyReport (node : Nat) (links : List (Nat × Nat)) (s : State) : Host.Outcome State Fault Refusal :=
  .next <|
    if s.runs 8 && s.is FAB_STAT.ROOT then
      s.topoTake (topoReport (topoReport s.fab.topo node links) 1 s.ownLinks)
    else s

/-- TABLE_LOAD (R188, R189 step 1): entries of the shadow bank as node, primary, alternate, hop count and default flag, with the
direction of each link and the module's level. A load without directions is the addition of R188, without a new epoch: its entries go into
both banks (DESIGN CHOICE, log 110). -/
def execTableLoad (entries : List (Nat × Nat × Nat × Nat × Nat)) (dirs : List (Nat × Nat)) (level : Nat) (s : State) :
    Host.Outcome State Fault Refusal :=
  .next <|
    if s.runs 8 then
      let f := { s.fab with fwd1 := bankLoad entries s.fab.fwd1 }
      if dirs.isEmpty then { s with fab := { f with fwd0 := bankLoad entries f.fwd0 } }
      else { s with fab := { f with dirs := dirs.filter fun p => decide (p.1 < 9), nextLevel := level } }
    else s

/-- EPOCH_CHANGE (R189, R202): the switch stamp is armed; one that has passed swaps at once. A change of a new root leaves an earlier switch
that the lost root had armed in force, and follows it. -/
def execEpochChange (sw : Nat) (s : State) : Host.Outcome State Fault Refusal :=
  .next <|
    if s.runs 8 && s.get FAB_STAT.STATE == 4 then
      let f := s.fab
      match f.switch with
      | some s0 =>
        if f.both ∧ !f.swBoth ∧ s0 < sw ∧ s.stamp < s0 then { s with fab := { f with later := some (sw, true), both := false } }
        else
          let t := { s with fab := { f with switch := some sw, swBoth := f.both, both := false } }
          if sw ≤ s.stamp then t.epochSwap else t
      | none =>
        let t := { s with fab := { f with switch := some sw, swBoth := f.both, both := false } }
        if sw ≤ s.stamp then t.epochSwap else t
    else s

/-- EPOCH_DRAIN (R189 step 3): from s − `DRAIN_T` the module's own endpoints inject nothing. -/
def execEpochDrain (s : State) : Host.Outcome State Fault Refusal :=
  .next <|
    match s.fab.switch with
    | some sw => if sw ≤ s.stamp + s.drainAu then { s with fab := { s.fab with hold := true } } else s
    | none => s

/-- EPOCH_SWAP (R189 step 4). -/
def execEpochSwap (s : State) : Host.Outcome State Fault Refusal :=
  .next <|
    match s.fab.switch with
    | some sw => if sw ≤ s.stamp then s.epochSwap else s
    | none => s

/-- The one-way delay of R191 in 125 ps. -/
def delayOf (t1 t2 t3 t4 asym : Int) : Int := ((t4 - t1) - (t3 - t2)) / 2 + asym

/-- The mean of a list of delays, 0 where it is empty. -/
def meanOf (l : List Int) : Int := if l.isEmpty then 0 else l.foldl (· + ·) 0 / (l.length : Int)

/-- DELAY_EXCHANGE (R191): four stamps in 125 ps; `DLY` shows the mean of the last 64. -/
def execDelayExchange (n : Nat) (t1 t2 t3 t4 : Int) (s : State) : Host.Outcome State Fault Refusal :=
  .next <|
    if decide (n < 8) && s.laneUp n then
      let d := delayOf t1 t2 t3 t4 (s.geti FAB_LANE_ASYM.ASYM n)
      let l := (d :: sparseGet [] n s.fab.dly).take 64
      ({ s with fab := { s.fab with dly := sparsePut [] n l s.fab.dly } }.put FAB_LANE_DLY.DLY
        (clampI 0 (2 ^ 20 - 1) (meanOf l)).toNat n).emit .delayBlock n []
    else s

/-- TIME_FRAME_SEND (R192): at a local angle k × 0x20_0000, on every ACTIVE lane, the stamp of the transmit block boundary in
1/16 au. -/
def execTimeFrameSend (k : Nat) (s : State) : Host.Outcome State Fault Refusal :=
  let st := s.get FAB_STAT.STATE
  .next <|
    if s.runs 8 && decide (k < 8) && s.atAngle (k * 0x200000) && (st == 4 || st == 5) then
      (List.range 8).foldl (fun t n =>
        if t.laneUp n then t.emit .timeFrame n (leBytes 9 (t.stamp * 16 + t.tb.frac / 2 ^ 24)) else t) s
    else s

/-- TIME_FRAME_RECEIVE (R192): the stamp of a frame in 1/16 au; only the time parent's counts. -/
def execTimeFrameReceive (n v16 : Nat) (s : State) : Host.Outcome State Fault Refusal :=
  .next <|
    if s.runs 8 && decide (n < 8) && s.laneUp n && s.is FAB_LANE_STAT.TPARENT n then
      s.followSource 2 (v16 + s.delayAu16 (s.get FAB_LANE_DLY.DLY n))
    else s

/-- The Loop Engine logs an action that is refused as a whole (R164). -/
def State.laRefusedNote (s : State) (ep op : Nat) : State := if ep = 0x012 then s.log 0x040C NOTICE [0xFF, op] else s

/-- The checks of R195 in their order, from the endpoint to the subsystem: the result code. -/
def State.laCheck (s : State) (target ep op : Nat) (dstEp : Option Nat) (body : List Nat) : Nat :=
  let match_ := match dstEp with | some e => e == ep | none => true
  if !(match_ && s.hasEndpoint ep) then 3
  else if s.get SYS_ROLE_CMD.STATUS = 1 then 4
  else if target ≤ s.stamp then 5
  else if s.get FAB_LA_CFG.LA_AHEAD * 2 ^ 24 < target - s.stamp then 6
  else if 64 ≤ s.fab.la.length then 7
  else if !s.laAccepts target ep op body then 8
  else 0

/-- LAUNCHED_ACTION_ARRIVAL (R194 to R197): `dstEp` is the endpoint of `DST`, none for a group. With 256 responses pending the frame is
discarded (R175). -/
def execLaunchedActionArrival (src actId ack target ep op : Nat) (dstEp : Option Nat) (body : List Nat) (s : State) :
    Host.Outcome State Fault Refusal :=
  .next <|
    if !s.runs 8 then s
    else
      if 256 ≤ s.respPending then s.discard 4 else
      let code := s.laCheck target ep op dstEp body
      let known := (s.fab.la.any fun a => a.src == src && a.actId == actId) || s.fab.done.any fun d => d == (src, actId)
      if code ≠ 3 ∧ code ≠ 4 ∧ code ≠ 5 ∧ code ≠ 6 ∧ known then s
      else if code = 0 then
        let a : La := ⟨target, ep, op, ack, actId, src, body, false⟩
        let l := a.insert s.fab.la
        let s1 := { s with fab := { s.fab with la := l } }.put FAB_LA_CFG.LA_QUSE l.length
        s1.when (decide (2 ≤ ack)) fun t => t.laRespond src actId 0
      else
        let s1 := s.laRefuse src ep actId code
        s1.when (code == 8) fun t => t.laRefusedNote ep op

/-- A launched offset commit (R199): the group's shadows at the first carrier boundary at or after the target. -/
def State.laOffsets (s : State) (target : Nat) : State := s.ofsArm s.ofsAffected (some target)

/-- SET_GROUP_OFFSET (R199). -/
def execSetGroupOffset (s : State) : Host.Outcome State Fault Refusal :=
  .next <| s.laRun 0x010 1 fun a t =>
    let g := byteAt a.body 0
    if g < 8 then (t.put TB_GRP_OFS.GOFS (bytesAt a.body 4 4) g).laOffsets a.target else t

/-- SET_PHASE_OFFSETS (R199). -/
def execSetPhaseOffsets (s : State) : Host.Outcome State Fault Refusal :=
  .next <| s.laRun 0x010 2 fun a t =>
    let n := byteAt a.body 0
    let c := byteAt a.body 1
    ((List.range c).foldl (fun u i =>
      if n + i < 96 then u.put TB_PH_OFS.POFS (bytesAt a.body (4 + 4 * i) 4) (n + i) else u) t).laOffsets a.target

end Sys2Proof.Machine
end

