-- ==== Sys2Proof/Machine/Ledger.lean ====
section
/-! DEFINITION. The Share Ledger: its shared operations and what each of its commands does (spec/09_share_ledger.md). `now`
counts the root's 25 MHz reference. A command whose condition the manual states and the state or its measurement does not meet
leaves the state unchanged. -/

namespace Sys2Proof.Machine

open R

/-! ### The holder's side -/

/-- The draw in kW (R205): Σ over the forward groups of V × I, to the nearest kW. -/
def State.slDraw (s : State) : Int :=
  let w := s.fwdGroups.foldl (fun a g => a + (s.get PE_GRP_MEAS.V_GRP g : Int) * s.groupCurrent g) 0
  (w + 5000000000) / 10000000000

/-- The request of R211 in kW above the floor. -/
def State.slRequest (s : State) : Nat :=
  if s.is SL_CFG.REQ_SRC then s.get SL_REQ.REQ_MAN
  else
    let w := s.fwdGroups.foldl (fun a g => a + s.wantW g) 0 * (1000 + s.get SL_TUNE.REQ_MARGIN)
    (w + 999999) / 1000000 - s.get SL_FLOOR.FLOOR

/-- A connector fed by the module has a vehicle session in energy transfer (R211). Of a dispenser's connector the cabinet knows what the need
frame says (DEDUCED, log 111). -/
def State.slInSession (s : State) : Bool :=
  ((List.range 2).any fun c => s.connUsed c && s.localFeed c && s.get VS_CONN_STAT.STATE c == 6) ||
    (List.range 8).any fun g => (s.needOf g).fed && (s.needOf g).run

/-- The class of the request; 0xFF for a viewer or a module with no part (R208). -/
def State.slClass (s : State) : Nat :=
  if s.slPart ≠ 1 then 0xFF else if s.slInSession then s.get SL_CFG.SESS_CLASS else s.get SL_CFG.CLASS

/-- The low 16 bits of the digest of the site part (R206). -/
def State.slDigest (s : State) : Nat := s.updN.siteDig

/-- The Timebase conditions of R209: LOCKED, or SLEW on the fabric or the powerline. -/
def State.slTimeOk (s : State) : Bool :=
  let st := s.get TB_STAT.STATE
  st == 2 || (st == 3 && (s.get TB_STAT.SRC == 2 || s.get TB_STAT.SRC == 3))

/-- `LIFE` in cycles. -/
def State.slLife (s : State) : Nat := clampN 2 16 (s.get SL_CFG.LIFE)

/-- What the ledger's registers show of this module. -/
def State.slShow (s : State) : State :=
  let part := s.slPart
  ((((s.put SL_STAT.PART part).putb SL_STAT.ACCEPT s.slTimeOk).put SL_REQ.REQ (min 0xFFFF (if part = 1 then s.slRequest else 0))).putSat
    SL_DRAW.DRAW s.slDraw).slSync

/-- LEDGER_REPORT (R208): at a half-cycle boundary a MEMBER reports; `offer` is the discharge power in kW that a store can hold
for 32 half-cycles. -/
def execLedgerReport (offer : Nat) (s : State) : Host.Outcome State Fault Refusal :=
  .next <|
    if s.slRuns && s.get FAB_STAT.STATE == 4 then
      let t := s.slShow
      t.srcSend true .report (2 ^ 11 + 4) (leBytes 2 4 ++ [1, t.slClass] ++ leBytes 8 t.serial ++ leBytes 2 (t.get SL_REQ.REQ) ++
        leBytes 2 (t.get SL_FLOOR.FLOOR) ++ leBytes 2 (t.get SL_LEASE.LEASE) ++ [t.get SL_LEASE.EXP_HC, t.get SL_LEASE.SEQ] ++
        leBytes 2 (t.get SL_GEN.GEN_ACC) ++ leBytes 2 (if t.is SL_CFG.PLEDGE_EN && t.role 3 then offer else 0) ++
        leBytes 2 (t.get SL_DRAW.DRAW) ++ leBytes 2 t.slDigest ++ [0, 0, 0, 0])
    else s

/-- The shares of a lease among the forward groups (R210), as group and kW. -/
def State.slShares (s : State) (p : Nat) : List (Nat × Nat) :=
  let gs := s.fwdGroups
  let need := fun (g : Nat) => s.wantW g - 1000 * s.get PE_GRP_FLOOR.P_FLOOR g
  let total := gs.foldl (fun a g => a + need g) 0
  let share := fun (g : Nat) => if total = 0 then p / gs.length else p * need g / total
  let rest := p - gs.foldl (fun a g => a + share g) 0
  gs.zipIdx.map fun q => (q.1, share q.1 + (if q.2 = 0 then rest else 0))

/-- Writes a lease to the groups: the shares that fall before those that rise (R210). -/
def State.slDivide (s : State) (p hc : Nat) : State :=
  let sh := s.slShares p
  let falls := fun (q : Nat × Nat) => decide (q.2 ≤ s.get PE_GRP_LEASE.P_LEASE q.1)
  let write := fun (t : State) (q : Nat × Nat) => t.leaseWrite q.1 q.2 hc
  (((sh.filter fun q => !falls q).foldl write ((sh.filter falls).foldl write s))).slSync

/-- An entry is rejected (R209): counted, and event 0x0505 with the first failed condition at most once per second. -/
def State.slReject (s : State) (k : Nat) : State :=
  let s1 := (s.inc SL_CNT.REJECTED).put SL_STAT.REJ_SEEN 1
  if s1.sl.rejAt = some s1.rtc then s1
  else { s1 with sl := { s1.sl with rejAt := some s1.rtc } }.log 0x0505 WARNING [k]

/-- An accepted entry (R209, R217, R218): a pledge makes the lease 0 and is written to the parameter and to `PLEDGE`; the lease stays 0
while the pledge is in force; a lease granted before the target of the last cut is scaled by f. -/
def State.slTake (s : State) (issue gen kw hc seq : Nat) (pledge : Bool) (passed : Nat) : State :=
  let s1 := ((s.put SL_LEASE.SEQ seq).put SL_GEN.GEN_ACC gen).inc SL_CNT.ACCEPTED
  if pledge then
    let s2 := s1.slDivide 0 (hc - passed)
    let s3 := (s2.put SL_LEASE.LEASE 0).put SL_DRAW.PLEDGE kw
    let s4 := (s3.putf LE_PARAM.VALUE (fOfNat kw) (s3.get SL_CFG.PLEDGE_PARAM)).putb SL_STAT.PLEDGED (kw != 0)
    { s4 with sl := { s4.sl with pledgeHc := hc - passed } }
  else
    let cut := s1.is SL_CUT.CUT_ACT && decide (issue < s1.sl.cutAt)
    let s2 := if cut then s1 else s1.put SL_CUT.CUT_ACT 0
    let p := if s2.is SL_STAT.PLEDGED then 0 else if cut then kw * s2.get SL_CUT.CUT_F / 2 ^ 16 else kw
    (s2.put SL_LEASE.LEASE p).slDivide p (hc - passed)

/-- The first failed condition of R209, 1 to 4; 0 where all hold. -/
def State.slGrantCheck (s : State) (src issue gen seq : Nat) : Nat :=
  let e : Int := s.geti TB_ERR.ERR / 16
  let d := (seq + 256 - s.get SL_LEASE.SEQ) % 256
  if !(src == 1 && s.get FAB_STAT.STATE == 4) then 1
  else if !s.slTimeOk then 2
  else if 0x800000 < (s.stamp : Int) + e - (issue : Int) then 3
  else if gen = s.get SL_GEN.GEN_ACC ∧ !(decide (1 ≤ d) && decide (d ≤ 127)) then 4
  else 0

/-- GRANT_ACCEPT (R209, R210, R217, R218): an entry addressed to this holder, and the local half-cycle boundaries that have
passed since it was received. -/
def execGrantAccept (src issue gen kw hc seq : Nat) (pledge : Bool) (passed : Nat) (s : State) :
    Host.Outcome State Fault Refusal :=
  .next <|
    if s.slRuns && s.slPart == 1 then
      match s.slGrantCheck src issue gen seq with
      | 0 => if pledge && !s.is SL_CFG.PLEDGE_EN then s else s.slTake issue gen kw hc seq pledge passed
      | k => s.slReject k
    else s

/-! ### The root's side -/

/-- A holder's entry at the root. -/
def State.holder (s : State) (node : Nat) : Holder := sparseGet {} node s.sl.holders

/-- Sets a holder's entry. -/
def State.setHolder (s : State) (node : Nat) (h : Holder) : State :=
  { s with sl := { s.sl with holders := sparsePut {} node h s.sl.holders } }

/-- The module is ledger root. -/
def State.slRoot (s : State) : Bool := s.slRuns && s.get SL_STAT.ROOT_STATE != 0

/-- The floor of a roster entry, none for a serial number that is not in the roster. -/
def State.rosterFloor (s : State) (serial : Nat) : Option Nat := (s.roster.find? fun p => p.1 == serial).map Prod.snd

/-- A report of the holder has arrived within the last `Q_TMO` ms (R215). -/
def State.slHeard (s : State) (now : Nat) (h : Holder) : Bool :=
  decide (now ≤ h.at_ + clampN 25 200 (s.get SL_TUNE.Q_TMO) * 25000)

/-- The present entries of the roster (R215): the root itself and every holder heard with a matching digest and floor. -/
def State.slPresent (s : State) (now : Nat) : Nat :=
  (s.roster.filter fun p => p.1 == s.serial ||
    s.sl.holders.any fun q => q.2.serial == p.1 && q.2.ok && !q.2.excl && s.slHeard now q.2).length

/-- Quorum: more than half of the roster is present (R215). -/
def State.slQuorum (s : State) (now : Nat) : Bool := decide (s.roster.length < 2 * s.slPresent now)

/-- ΣF (R205, R219): the roster's floors and the excess of those reported while their modules are present. -/
def State.slFloors (s : State) (now : Nat) : Nat :=
  s.sl.holders.foldl (fun a q =>
    if q.2.excl && s.slHeard now q.2 then a + (q.2.floor - (s.rosterFloor q.2.serial).getD 0) else a) (s.get SL_FLOOR_SUM.FLOOR_SUM)

/-- L_eff of R205. -/
def State.slLimit (s : State) (floors : Nat) : Nat := max floors (min (s.get SL_SITE.SITE_LIM) (s.get SL_LIMDYN.LIM_DYN))

/-- c_h: the largest value among the records that remain (R213). -/
def committed (h : Holder) : Nat := h.recs.foldl (fun m g => max m g.kw) 0

/-- The reclaim time of a grant issued at `now`, in ninths of 40 ns (R213). -/
def reclaimAt (now hc : Nat) : Nat := 9 * now + (hc + 1) * 2500000 + 225000

/-- The root checks a report's floor and digest (R219) and logs what it finds once. -/
def State.slCheckReport (s : State) (now node : Nat) (was h : Holder) : State :=
  let known := was.serial == h.serial && was.known
  let s1 := s.when (!h.ok && !(known && !was.ok)) fun t => t.log 0x0508 WARNING (leBytes 2 node)
  let s2 := s1.when (h.excl && !(known && was.excl)) fun t =>
    (t.put SL_STAT.FLOOR_FLT 1).log 0x0506 FAULT (leBytes 2 node ++ leBytes 2 h.floor)
  let above := decide (s2.get SL_SITE.SITE_LIM < s2.slFloors now)
  let s3 := s2.when (above && !s2.sl.overSum) fun t => t.log 0x0507 FAULT
  { s3 with sl := { s3.sl with overSum := above } }

/-- The root's latest count of its 25 MHz reference. -/
def State.slNow (s : State) (now : Nat) : State := { s with sl := { s.sl with now := now } }

/-- The module that reports from a node has taken the node ID of another: that one's entry moves above every node ID, so that its records
stand until their reclaim times (R181, R213). -/
def State.slDisplace (s : State) (node serial : Nat) : State :=
  let h := s.holder node
  if h.serial = serial ∨ h = {} then s
  else
    let k := s.sl.holders.foldl (fun m p => max m (p.1 + 1)) 4096
    (s.setHolder node {}).setHolder k { h with fresh := false }

/-- The records that a report's `SEQ` leaves: not those of earlier sequence numbers (R213). -/
def notOlder (q : Nat) (recs : List Grant) : List Grant :=
  recs.filter fun g => let d := (q + 256 - g.seq) % 256; !(decide (1 ≤ d) && decide (d ≤ 127))

/-- LEDGER_REPORT_RECEIVE (R208, R213, R215, R217, R219): the fields of a report from a node. -/
def execLedgerReportReceive (now node serial req cls floor lease applied gen offer digest : Nat) (draw : Int) (s : State) :
    Host.Outcome State Fault Refusal :=
  .next <|
    if s.slRoot then
      let s := (s.slDisplace node serial).slNow now
      let moved := s.sl.holders.find? fun p => p.2.serial == serial && p.1 != node
      let was := match moved with | some p => p.2 | none => s.holder node
      let was := if was.serial = serial then was else {}
      let s1 := match moved with
        | some p => { s with sl := { s.sl with holders := s.sl.holders.filter fun q => q.1 != p.1 } }
        | none => s
      let mine := gen == s.get SL_GEN.GEN_OWN
      let pl := match was.pledge with
        | some (k, q, a, e) => some (k, q, a || (mine && q == applied), e)
        | none => none
      let h : Holder := { was with
        serial := serial, req := req, cls := cls, floor := floor, lease := lease, draw := draw, ok := digest == s.slDigest
        excl := s.rosterFloor serial != some floor, at_ := now, fresh := true, offer := offer, pledge := pl, known := true
        applied := if mine then some (applied, now) else was.applied }
      (s1.setHolder node h).slCheckReport now node was h
    else s

/-- The water-filling weight of a holder (R212): its own at the root itself, free for another module's (log 39); 0 is taken as 1. -/
def State.slWeight (s : State) (h : Holder) : Nat :=
  max 1 (if h.serial = s.serial then s.get SL_CFG.WEIGHT else (Config.holderWeight h.serial).toNat)

/-- A holder's part in the water-filling: node, request and weight. -/
structure Fill where
  node : Nat
  req : Nat
  w : Nat
deriving DecidableEq, Repr

/-- Weighted water-filling of a class (R212 step 2): the requests within their share of what is left by weight are met, and the rest share
what then is left, rounded down. -/
def waterFill : Nat → Nat → List Fill → List (Nat × Nat)
  | 0, _, l => l.map fun p => (p.node, 0)
  | n + 1, left, l =>
    let w := l.foldl (fun a p => a + p.w) 0
    let met := l.filter fun p => decide (p.req * w ≤ p.w * left)
    if w = 0 then []
    else if met.isEmpty then l.map fun p => (p.node, p.w * left / w)
    else
      (met.map fun p => (p.node, p.req)) ++
        waterFill n (left - met.foldl (fun a p => a + p.req) 0) (l.filter fun p => !decide (p.req * w ≤ p.w * left))

/-- The targets of R212: class 3 first, each class from the pool not yet given out, as node and kW. -/
def State.slTargets (s : State) (pool : Nat) (hs : List (Nat × Holder)) : List (Nat × Nat) :=
  ([3, 2, 1, 0].foldl (fun (acc : List (Nat × Nat) × Nat) c =>
    let l := (hs.filter fun p => p.2.cls == c).map fun p => (⟨p.1, p.2.req, s.slWeight p.2⟩ : Fill)
    let f := waterFill (l.length + 1) acc.2 l
    (acc.1 ++ f, acc.2 - f.foldl (fun a p => a + p.2) 0)) ([], pool)).1

/-- Steps 3 to 5 of R212: each grant is the lesser of target and committed amount, then raised within the slack and the ramp, by
class and node. A ramp of none is no limit. -/
def slGrants (targets : List (Nat × Nat)) (hs : List (Nat × Holder)) (slack : Nat) (ramp : Option Nat) : List (Nat × Nat) :=
  let order := [3, 2, 1, 0].flatMap fun c => hs.filter fun p => p.2.cls == c
  (order.foldl (fun (acc : List (Nat × Nat) × Nat × Option Nat) p =>
    let tgt := sparseGet 0 p.1 (targets.filter fun q => q.1 == p.1)
    let base := min tgt (committed p.2)
    let up := min (tgt - base) (match acc.2.2 with | some r => min acc.2.1 r | none => acc.2.1)
    (acc.1 ++ [(p.1, base + up)], acc.2.1 - up, acc.2.2.map (· - up))) ([], slack, ramp)).1

/-- An entry of a grant frame (R214). -/
def grantEntry (node kw hc seq : Nat) (pledge : Bool) : List Nat :=
  leBytes 2 (node % 4096 + (if pledge then 32768 else 0)) ++ leBytes 2 kw ++ [hc, seq, 0, 0]

/-- Grant frames of up to 62 entries to group 0x000 (R214). -/
def State.sendGrants (s : State) (issue : Nat) (entries : List (List Nat)) : Nat → State
  | 0 => s
  | n + 1 =>
    if entries.isEmpty then s
    else
      let l := entries.take 62
      (s.srcSend true .grant 0 (leBytes 2 4 ++ [2, l.length] ++ leBytes 8 issue ++ leBytes 2 (s.get SL_GEN.GEN_OWN) ++ [0, 0] ++
        l.flatten)).sendGrants issue (entries.drop 62) n

/-- A module that is ALONE is its own holder (R209): its entry at its own table. -/
def State.slSelf (s : State) (now : Nat) : State :=
  if s.get FAB_STAT.STATE = 5 ∧ s.slPart = 1 then
    let t := s.slShow
    let h := t.holder 1
    t.setHolder 1 { h with
      serial := t.serial, req := t.get SL_REQ.REQ, cls := t.slClass, floor := t.get SL_FLOOR.FLOOR, ok := true
      excl := t.rosterFloor t.serial != some (t.get SL_FLOOR.FLOOR), at_ := now, fresh := true, draw := t.slDraw }
  else s

/-- The root's accounts as the registers show them. -/
def State.slAccounts (s : State) (now pool commit : Nat) : State :=
  let s1 := ((s.putMax SL_ROOT_POOL.POOL pool).putMax SL_ROOT_COMMIT.COMMIT commit).putMax SL_ROOT_CNT.PRESENT (s.slPresent now)
  let s2 := (s1.putb SL_STAT.QUORUM (s1.slQuorum now)).putSat SL_ROOT_DRAW.DRAW_SUM
    (s1.sl.holders.foldl (fun a q => if s1.slHeard now q.2 then a + q.2.draw else a) 0)
  s2.putMax SL_ROOT_WAIT.WAIT_MS (if s2.get SL_STAT.ROOT_STATE = 1 then (s2.sl.tEnd - 9 * now + 224999) / 225000 else 0)

/-- Quorum is lost or absent (R216): event 0x0502. -/
def State.slNoQuorum (s : State) (now : Nat) : State :=
  (((s.slRootState 3).put SL_STAT.QUORUM 0).put SL_ROOT_WAIT.WAIT_MS 0).log 0x0502 WARNING
    (leBytes 2 (s.slPresent now) ++ leBytes 2 s.roster.length)

/-- The round at a boundary at which quorum is lost too uses the state after that change (R222). -/
def State.slRoundState (s : State) (now : Nat) : State :=
  s.when (s.get SL_STAT.ROOT_STATE == 2 && !s.slQuorum now) fun t => t.slNoQuorum now

/-- The round takes the limits set since the last one (R218, R222). -/
def State.slRoundTakes (s : State) : State := { s with sl := { s.sl with limAct := false } }

/-- ALLOCATION_ROUND (R212 to R214, R217): one round at a half-cycle boundary of the root. -/
def execAllocationRound (now : Nat) (s : State) : Host.Outcome State Fault Refusal :=
  .next <|
    if s.slRoot then
      let s0 := (((s.slSelf now).slNow now).slRoundState now).slRoundTakes
      let floors := s0.slFloors now
      let pool := s0.slLimit floors - floors
      let hs := s0.sl.holders.filter fun p => decide (p.1 < 4096) && p.2.fresh && p.2.ok && !p.2.excl && p.2.cls != 0xFF
      let granting := s0.get SL_STAT.ROOT_STATE == 2 && decide (floors ≤ s0.get SL_SITE.SITE_LIM)
      let targets := if granting then s0.slTargets pool hs else []
      let commit := s0.sl.holders.foldl (fun a p => a + committed p.2) 0
      let hc := 2 * s0.slLife
      let rec_ := reclaimAt now hc
      let lent := if s0.is SL_CFG.PLEDGE_EN then s0.sl.holders.foldl (fun a p => match p.2.pledge with
        | some (k, _, true, e) => if rec_ < e then a + k else a
        | _ => a) 0 else 0
      let rup := s0.get SL_TUNE.RAMP_UP
      let xs := slGrants targets hs (pool + lent - commit) (if rup = 0 then none else some rup)
      let s1 := xs.foldl (fun t x =>
        let h := t.holder x.1
        let q := (h.seq + 1) % 256
        t.setHolder x.1 { h with seq := q, last := x.2, recs := h.recs ++ [⟨x.2, q, rec_⟩] }) s0
      let entries := xs.map fun x => grantEntry x.1 x.2 hc (s1.holder x.1).seq false
      let pHc := min 32 (4 * s0.slLife + 2)
      let pls : List (Nat × Holder) := if s0.is SL_CFG.PLEDGE_EN && granting then
          hs.filter fun p => decide (0 < p.2.offer) && (match p.2.pledge with | some (_, _, _, e) => decide (e ≤ 9 * now) | none => true)
        else []
      let s2 := pls.foldl (fun (t : State) (p : Nat × Holder) =>
        let h := t.holder p.1
        let q := (h.seq + 1) % 256
        t.setHolder p.1 { h with seq := q, pledge := some (p.2.offer, q, false, 9 * now + pHc * 225000000 / 132) }) s1
      let pent := pls.map fun (p : Nat × Holder) => grantEntry p.1 p.2.offer pHc (s2.holder p.1).seq true
      let s3 := s2.sendGrants s2.stamp (entries ++ pent) (entries ++ pent).length
      let s4 := { s3 with sl := { s3.sl with holders := s3.sl.holders.map fun (p : Nat × Holder) => (p.1, { p.2 with fresh := false }) } }
      let s5 := s4.slAccounts now pool commit
      if s5.get FAB_STAT.STATE = 5 ∧ s5.slPart = 1 then
        match xs.find? fun x => x.1 == 1 with
        | some x => s5.slTake s5.stamp (s5.get SL_GEN.GEN_OWN) x.2 hc (s5.holder 1).seq false 0
        | none => s5
      else s5
    else s

/-- RECORD_RECLAIM (R213): the records of a holder whose reclaim time has passed, and those of holders whose node IDs others have taken. -/
def execRecordReclaim (node now : Nat) (s : State) : Host.Outcome State Fault Refusal :=
  .next <|
    if s.slRoot then
      let s := s.slNow now
      { s with sl := { s.sl with holders := s.sl.holders.map fun p =>
        if p.1 = node ∨ 4096 ≤ p.1 then (p.1, { p.2 with recs := p.2.recs.filter fun g => decide (9 * now < g.reclaim) }) else p } }
    else s

/-- RECORD_ACK_DROP (R213): 1 ms after a report names a sequence, the holder's older records. -/
def execRecordAckDrop (node now : Nat) (s : State) : Host.Outcome State Fault Refusal :=
  .next <|
    if s.slRoot then
      let h := s.holder node
      match h.applied with
      | some (q, t) =>
        if t + 25000 ≤ now then
          s.setHolder node { h with recs := notOlder q h.recs, applied := none }
        else s
      | none => s
    else s

/-- QUORUM_LOST (R216). -/
def execQuorumLost (now : Nat) (s : State) : Host.Outcome State Fault Refusal :=
  .next <| if s.slRoot && s.get SL_STAT.ROOT_STATE == 2 && !s.slQuorum now then s.slNoQuorum now else s

/-- QUORUM_GAINED (R216): a new generation, T_gen starts. -/
def execQuorumGained (now : Nat) (s : State) : Host.Outcome State Fault Refusal :=
  .next <|
    if s.slRoot && s.get SL_STAT.ROOT_STATE == 3 && s.slQuorum now then
      let s1 := { s with sl := { s.sl with tEnd := 9 * now + s.tGen } }
      ((((s1.slRootState 1).put SL_STAT.QUORUM 1).put SL_ROOT_WAIT.WAIT_MS (s.tGen / 225000)).put SL_GEN.GEN_OWN
        ((s.get SL_GEN.GEN_OWN + 1) % 2 ^ 16)).log 0x0503 NOTICE
    else s

/-- T_GEN_EXPIRY (R216). -/
def execTGenExpiry (now : Nat) (s : State) : Host.Outcome State Fault Refusal :=
  .next <|
    if s.slRoot && s.get SL_STAT.ROOT_STATE == 1 && decide (s.sl.tEnd ≤ 9 * now) then
      if s.slQuorum now then (((s.slRootState 2).put SL_STAT.QUORUM 1).put SL_ROOT_WAIT.WAIT_MS 0).log 0x0504 INFO
      else s.slNoQuorum now
    else s

/-- PLEDGE_EXPIRY (R217): no half-cycle of the pledge is left. -/
def execPledgeExpiry (s : State) : Host.Outcome State Fault Refusal :=
  .next <|
    if s.is SL_STAT.PLEDGED && s.sl.pledgeHc == 0 then
      ((s.put SL_DRAW.PLEDGE 0).put SL_STAT.PLEDGED 0).putf LE_PARAM.VALUE 0#32 (s.get SL_CFG.PLEDGE_PARAM)
    else s

/-- PLEDGE_NOT_MET (R217): the draw in kW averaged over one cycle. -/
def execPledgeNotMet (draw : Int) (s : State) : Host.Outcome State Fault Refusal :=
  .next <|
    if s.is SL_STAT.PLEDGED && decide (-(s.get SL_DRAW.PLEDGE : Int) < draw) then
      s.log 0x050B WARNING (leBytes 2 (s.get SL_DRAW.PLEDGE) ++ leBytes 2 (ofSigned 16 draw))
    else s

/-- Sets `LIM_DYN` and logs the new value (R218). -/
def State.setLimDyn (s : State) (v : Nat) : State :=
  (s.putMax SL_LIMDYN.LIM_DYN v).log 0x050C NOTICE (leBytes 4 (min v 0xFFFFFF))

/-- A write of `LIM_DYN` (R218). Of a write and a launched limit in one round the write counts first, so that the action's value stands (R222). -/
def State.limDynWrite (s : State) (v : Nat) : State :=
  if s.sl.limAct then s.log 0x050C NOTICE (leBytes 4 (min v 0xFFFFFF)) else s.setLimDyn v

/-- A launched action sets `LIM_DYN` at the root (R218). -/
def State.limDynAct (s : State) (v : Nat) : State := { s.setLimDyn v with sl := { s.sl with limAct := true } }

/-- SET_LIM_DYN (R218): the root sets it; other modules change nothing. -/
def execSetLimDyn (s : State) : Host.Outcome State Fault Refusal :=
  .next <| s.laRun 0x014 1 fun a t => if t.is FAB_STAT.ROOT then t.limDynAct (bytesAt a.body 0 4) else t

/-- CUT (R218): every holder scales its groups' leases by f and remembers it; the root sets `LIM_DYN`. -/
def execCut (s : State) : Host.Outcome State Fault Refusal :=
  .next <| s.laRun 0x014 2 fun a t =>
    let f := bytesAt a.body 0 2
    let lim := bytesAt a.body 4 4
    let t1 := if t.slPart = 1 then
        let u := t.each 8 fun g v => v.put PE_GRP_LEASE.P_LEASE (v.get PE_GRP_LEASE.P_LEASE g * f / 2 ^ 16) g
        let u1 := ((u.put SL_CUT.CUT_F f).put SL_CUT.CUT_ACT 1).put SL_STAT.CUT_SEEN 1
        { u1 with sl := { u1.sl with cutAt := a.target } }.put SL_LEASE.LEASE (u.get SL_LEASE.LEASE * f / 2 ^ 16)
          |>.log 0x050A NOTICE (leBytes 2 f)
      else t
    if t1.is FAB_STAT.ROOT && lim != 0xFFFFFFFF then t1.limDynAct lim else t1

/-- LIM_DYN_WRITE (R218). -/
def execLimDynWrite (sess v : Nat) (s : State) : Host.Outcome State Fault Refusal :=
  .next <| s.guarded sess SL_LIMDYN.LIM_DYN fun t => t.limDynWrite (v % 2 ^ 24)

/-- DRAW_OVER_LIMIT (R223): the reported draws exceed L_eff for one cycle. -/
def execDrawOverLimit (now cycles : Nat) (s : State) : Host.Outcome State Fault Refusal :=
  .next <|
    let sum := s.sl.holders.foldl (fun a q => if s.slHeard now q.2 then a + q.2.draw else a) 0
    if s.slRoot && decide (1 ≤ cycles) && decide ((s.slLimit (s.slFloors now) : Int) < sum) then
      ((s.putSat SL_ROOT_DRAW.DRAW_SUM sum).put SL_STAT.OVER_SEEN 1).log 0x0509 WARNING (leBytes 4 (ofSigned 32 sum))
    else s

end Sys2Proof.Machine
end

