-- ==== Sys2Proof/Machine/Loop.lean ====
section
/-! DEFINITION. What each Loop Engine command does (spec/07_loop_engine.md), the launched operations of R164 among them. -/

namespace Sys2Proof.Machine

open R

/-- A write to `SRATE`: pending until the next angle 0, or refused (R139), which leaves an accepted one pending. A capture that is armed counts as
running, and where both reasons apply the second is given (DESIGN CHOICE, log 112). -/
def State.srateWrite (s : State) (v : Nat) : State :=
  let refuse := fun (c : Nat) => (s.put LE_CTRL.SR_STATUS c).log 0x0402 WARNING [c]
  let cap := s.get LE_CAP_CTRL.STATE
  if s.get LE_INJ_CTRL.STATE 0 = 2 ∨ s.get LE_INJ_CTRL.STATE 1 = 2 ∨ cap = 1 ∨ cap = 2 then refuse 4
  else if (s.overBudget s.loopsOn (srateOf (v % 4))).isSome then refuse 3
  else { (s.put LE_CTRL.SRATE v).put LE_CTRL.SR_STATUS 1 with le := { s.le with sratePend := true } }

/-- The pending `SRATE` comes into force at angle 0 (R139). -/
def State.srateTake (s : State) : State :=
  if s.le.sratePend then
    let v := s.get LE_CTRL.SRATE
    (((({ s with le := { s.le with sratePend := false } }.put LE_CTRL.SRATE_ACT v).put LE_CTRL.SR_STATUS 2).loopLoad)).log 0x0401 INFO [v]
  else s

/-- The swaps that wait take effect at angle 0 (R158). -/
def State.ffTake (s : State) : State :=
  let act := s.get LE_FF_CTRL.ACT
  { s with le := { s.le with swap := 0 } }.put LE_FF_CTRL.ACT (Nat.xor act (s.le.swap % 2 ^ 16))

/-- At angle 0 the new S comes into force, then the swaps; a launched action at that strobe comes after them (R168). -/
def State.angleZero (s : State) : State := if s.runs 7 && s.atAngle 0 then s.srateTake.ffTake else s

/-- The inputs are captured at the strobe (R142 step 2): what an injector adds in this sample is seen from the next one. -/
def State.injPub (s : State) : State := s.each 2 fun j t => t.setInjx j { t.injx j with pub := (t.injx j).q }

/-- The capture takes one strobe (R167). -/
def State.capStrobe (s : State) : State :=
  let st := s.get LE_CAP_CTRL.STATE
  if st ≠ 1 ∧ st ≠ 2 then s
  else if s.le.capDec ≠ 0 then { s with le := { s.le with capDec := s.le.capDec - 1 } }
  else
    let s0 := { s with le := { s.le with capDec := max 1 (s.get LE_CAP_CTRL.DEC) - 1 } }
    let r := (List.range 4).foldl (fun (a : List Word × State) c =>
      match a.2.source (a.2.get LE_CAP_SEL.SRC c) with
      | some w => (a.1 ++ [w], a.2)
      | none => (a.1 ++ [BitVec.ofNat 32 (a.2.free 32).1], (a.2.free 32).2)) ([], s0)
    let s1 := r.2
    let all := (⟨s1.stamp, r.1⟩ : CapS) :: s1.le.cap
    let kept := if st = 1 then all.take (max 2 (s1.get LE_CAP_PRE.PRE)) else if s1.le.cap.length < 8192 then all else s1.le.cap
    { s1 with le := { s1.le with cap := kept } }

/-- SAMPLE_STROBE (R107, R117, R134, R139 to R158, R163, R165, R167 to R169): strobe `i`. The Phase Engine publishes; a new S
and swaps act at angle 0; waiting outputs are delivered; the capture samples; the due loops are updated in ascending number.
`late` is the bit map of the loops that did not finish in the last sample (R169). -/
def execSampleStrobe (i late : Nat) (s : State) : Host.Outcome State Fault Refusal :=
  .next <|
    if !s.atStrobe i s.sRate then s
    else
      let s1 := s.phaseStrobe
      if !s1.runs 7 then s1
      else
        let s2 := if i = 0 then s1.srateTake.ffTake else s1
        let s3 := s2.eachBit 64 late fun l t =>
          ((t.setLx l { t.lx l with out := none }).put LE_STAT.OVERRUN 1).log 0x040B FAULT ([l] ++ leBytes 2 i)
        let s4 := s3.each 64 fun l t => t.loopDeliver l
        let s5 := s4.injPub.capStrobe
        s5.each 64 fun l t => (if t.loopOn l && t.loopDue l i then t.loopUpdate l i else t).slewShow l

/-- LOOP_HOLD_EXIT (R155, R162): four fault-free due updates in HOLD; the loop goes to TRACK, in which its next due update runs. -/
def execLoopHoldExit (l : Nat) (s : State) : Host.Outcome State Fault Refusal :=
  .next <|
    let x := s.lx l
    if decide (l < 64) && s.get LE_L_STAT.STATE l == 4 && decide (4 ≤ x.good) then
      let s1 := (s.setLx l { x with good := 0, track := true }).loopLateInit l ((s.loopY l).getD 0#32)
      (s1.loopState l 1).log 0x0405 INFO [l]
    else s

/-- SRATE_CHANGE (R139): a write of `SRATE`, or, without a value, the next angle 0 at which a pending one is taken. -/
def execSrateChange (sess : Nat) (v : Option Nat) (s : State) : Host.Outcome State Fault Refusal :=
  .next <|
    match v with
    | some c => s.guarded sess LE_CTRL.SRATE fun t => t.srateWrite c
    | none => if s.atAngle 0 then s.srateTake else s

/-- LOOP_ENABLE (R141, R155, R162). -/
def execLoopEnable (sess l : Nat) (s : State) : Host.Outcome State Fault Refusal :=
  .next <| if 64 ≤ l then s else s.guarded sess LE_L_CTRL.EN fun t => t.loopEnable l

/-- LOOP_DISABLE (R155, R166). -/
def execLoopDisable (sess l : Nat) (s : State) : Host.Outcome State Fault Refusal :=
  .next <| if 64 ≤ l then s else s.guarded sess LE_L_CTRL.EN fun t => t.loopDisable l

/-- `MODE` is written. It is captured at the next strobe (R142 step 2), and a running loop transfers at its next due update (`State.loopRow`),
where no source is at fault (R155, R168). -/
def State.loopMode (s : State) (l : Nat) (man : Bool) : State := s.putb LE_L_CTRL.MODE man l

/-- LOOP_MODE_CHANGE (R142, R155). -/
def execLoopModeChange (sess l : Nat) (man : Bool) (s : State) : Host.Outcome State Fault Refusal :=
  .next <| if 64 ≤ l then s else s.guarded sess LE_L_CTRL.MODE fun t => t.loopMode l man

/-- GT_COMMIT (R149): the shadow is taken at the loop's next update. -/
def execGtCommit (sess l : Nat) (s : State) : Host.Outcome State Fault Refusal :=
  .next <| if 64 ≤ l then s else s.guarded sess LE_L_CTRL.GT_COMMIT fun t => t.setLx l { t.lx l with gtPend := true }

/-- FF_SWAP (R158): the swap is taken at the next angle 0. -/
def execFfSwap (sess mask : Nat) (s : State) : Host.Outcome State Fault Refusal :=
  .next <| s.guarded sess LE_FF_CTRL.SWAP fun t => { t with le := { t.le with swap := t.le.swap ||| mask % 2 ^ 16 } }

/-! ### Launched operations (R164) -/

/-- One loop of a launched action is refused. -/
def State.laLoopRefuse (s : State) (l op : Nat) : State := s.log 0x040C NOTICE [l, op]

/-- Applies an operation to every loop of the mask; a loop that is OFF or that refuses the value is refused alone. -/
def State.laLoops (s : State) (a : La) (ok : State → Nat → Bool) (g : Nat → State → State) : State :=
  s.eachBit 64 (bytesAt a.body 0 8) fun l t => if t.loopOn l && ok t l then g l t else t.laLoopRefuse l a.op

/-- The binary32 value of a launched action. -/
def La.value (a : La) : Word := BitVec.ofNat 32 (bytesAt a.body 12 4)

/-- Runs an operation of the Loop Engine: at angle 0 after the new S and the swaps (R168). -/
def State.laLoopRun (s : State) (op : Nat) (g : La → State → State) : State := s.laRun 0x012 op fun a t => g a t.angleZero

/-- SET_TARGET: `R_TGT` = value. -/
def execSetTarget (s : State) : Host.Outcome State Fault Refusal :=
  .next <| s.laLoopRun 1 fun a t =>
    t.laLoops a (fun _ _ => fFinite a.value) fun l u => (u.putf LE_L_R_TGT.R_TGT a.value l).slewShow l

/-- SCALE_TARGET: `R_TGT` multiplied by the value; refused for a loop whose target comes from a source. -/
def execScaleTarget (s : State) : Host.Outcome State Fault Refusal :=
  .next <| s.laLoopRun 2 fun a t =>
    t.laLoops a (fun u l => u.get LE_L_SRC.SRC_T l == 0 && fFinite (fMul (u.fl LE_L_R_TGT.R_TGT l) a.value))
      fun l u => (u.putf LE_L_R_TGT.R_TGT (fMul (u.fl LE_L_R_TGT.R_TGT l) a.value) l).slewShow l

/-- SET_RATE: `RATE` = value, which must be positive (R159). -/
def execSetRate (s : State) : Host.Outcome State Fault Refusal :=
  .next <| s.laLoopRun 3 fun a t =>
    t.laLoops a (fun _ _ => fFinite a.value && fPos a.value) fun l u => u.putf LE_L_RATE.RATE a.value l

/-- SET_PARAMETER: `LE_PARAM` index = value; the mask is ignored. -/
def execSetParameter (s : State) : Host.Outcome State Fault Refusal :=
  .next <| s.laLoopRun 4 fun a t =>
    let i := byteAt a.body 8
    if i < 16 ∧ fFinite a.value then t.putf LE_PARAM.VALUE a.value i else t.laLoopRefuse 0xFF 4

/-- SET_MODE: `MODE` = value ≠ 0.0. -/
def execSetMode (s : State) : Host.Outcome State Fault Refusal :=
  .next <| s.laLoopRun 5 fun a t => t.laLoops a (fun _ _ => true) fun l u => u.loopMode l (!fEq a.value 0#32)

/-! ### Injectors and capture -/

/-- The start of an injector is allowed (R165): not where the loop leaves AUTO at the strobe (R168). -/
def State.injOk (s : State) (j : Nat) : Bool :=
  let l := s.get LE_INJ_CTRL.LOOP j
  let lo := fOfRatio 1 100
  let hi := fDiv (fOfRatio s.tb.floc (10 ^ 11) |> fMul (fOfNat s.sRate)) (fOfNat (2 * 2 ^ s.get LE_L_CTRL.DIV l))
  let inR := fun w => fLe lo w && fLe w hi
  s.get LE_L_STAT.STATE l == 2 && !s.is LE_L_CTRL.MODE l && s.taken (s.consumer l) && (s.loopY l).isSome && (s.loopTarget l).isSome &&
    s.get LE_INJ_CTRL.TYPE j != 3 && inR (s.fl LE_INJ_F0.F0 j) && inR (s.fl LE_INJ_F1.F1 j)

/-- An injector starts, or its start is refused (R165). -/
def State.injStart (s : State) (j : Nat) : State :=
  if s.injOk j then
    let s1 := ((s.setInjx j {}).put LE_INJ_CTRL.EN 1 j).put LE_INJ_CTRL.STATE 2 j
    { s1.put LE_INJ_CTRL.END 0 j with le := { s1.le with injStarted := true } }.log 0x0408 NOTICE [s.get LE_INJ_CTRL.LOOP j, j]
  else ((s.put LE_INJ_CTRL.EN 0 j).put LE_INJ_CTRL.STATE 0 j).put LE_INJ_CTRL.END 6 j

/-- A write of `EN` = 1 of an injector: with `START` = 1 it waits for its stamp. -/
def State.injEnable (s : State) (j : Nat) : State :=
  if s.get LE_INJ_CTRL.STATE j = 2 then s
  else if s.is LE_INJ_CTRL.START j then (s.put LE_INJ_CTRL.EN 1 j).put LE_INJ_CTRL.STATE 1 j
  else s.injStart j

/-- START_INJECTOR: as `EN` written 1 with `START` = 0; loops of the mask that are OFF are refused. -/
def execStartInjector (s : State) : Host.Outcome State Fault Refusal :=
  .next <| s.laLoopRun 6 fun a t =>
    let t1 := t.laLoops a (fun _ _ => true) fun _ u => u
    let j := byteAt a.body 8
    if j < 2 ∧ t1.get LE_INJ_CTRL.STATE j ≠ 2 then t1.injStart j else t1

/-- INJECTOR_ENABLE (R165). -/
def execInjectorEnable (sess j : Nat) (s : State) : Host.Outcome State Fault Refusal :=
  .next <| if 2 ≤ j then s else s.guarded sess LE_INJ_CTRL.EN fun t => t.injEnable j

/-- INJECTOR_STAMP_START (R165): the first update at or after the stamp. -/
def execInjectorStampStart (j : Nat) (s : State) : Host.Outcome State Fault Refusal :=
  .next <|
    if decide (j < 2) && s.get LE_INJ_CTRL.STATE j == 1 &&
        decide (s.get2 LE_INJ_STAMP_LO.STAMP LE_INJ_STAMP_HI.STAMP j ≤ s.stamp) then s.injStart j
    else s

/-- INJECTOR_END (R166): the duration is up, the loop has left AUTO or has been saturated for 16 updates, or Safe-Off is
active. -/
def execInjectorEnd (j : Nat) (s : State) : Host.Outcome State Fault Refusal :=
  .next <|
    if decide (j < 2) && s.get LE_INJ_CTRL.STATE j == 2 then
      let l := s.get LE_INJ_CTRL.LOOP j
      let dur := s.get LE_INJ_DUR.DUR j
      if dur ≠ 0 ∧ dur ≤ (s.injx j).n then s.injEnd j 1
      else if s.get LE_L_STAT.STATE l ≠ 2 then s.injEnd j 3
      else if 16 ≤ (s.lx l).sat then s.injEnd j 4
      else if s.is SAF_STAT.ACTIVE then s.injEnd j 5
      else s
    else s

/-- INJECTOR_DISABLE (R166). -/
def execInjectorDisable (sess j : Nat) (s : State) : Host.Outcome State Fault Refusal :=
  .next <| if 2 ≤ j then s else s.guarded sess LE_INJ_CTRL.EN fun t => (t.injEnd j 2).put LE_INJ_CTRL.EN 0 j

/-- A write of 1 to `ARM` (R167): the capture starts or restarts; an immediate trigger fills it at once. -/
def State.capArm (s : State) : State :=
  { s with le := { s.le with cap := [], capDec := 0, injStarted := false } }.put LE_CAP_CTRL.STATE
    (if s.get LE_CAP_CTRL.TRIG = 0 then 2 else 1)

/-- CAPTURE_ARM (R167). -/
def execCaptureArm (sess : Nat) (s : State) : Host.Outcome State Fault Refusal :=
  .next <| s.guarded sess LE_CAP_CTRL.ARM State.capArm

/-- The selected trigger has occurred (R167). -/
def State.capTriggered (s : State) : Bool :=
  match s.get LE_CAP_CTRL.TRIG with
  | 0 => true
  | 1 => decide (s.get2 LE_CAP_TSTAMP_LO.TSTAMP LE_CAP_TSTAMP_HI.TSTAMP ≤ s.stamp)
  | 2 => s.le.injStarted
  | _ =>
    let lv := s.fl LE_CAP_LEVEL.LEVEL
    match s.le.cap with
    | b :: a :: _ =>
      let x := a.ch.headD 0#32
      let y := b.ch.headD 0#32
      if s.is LE_CAP_CTRL.EDGE then fLe lv x && fLt y lv else fLt x lv && fLe lv y
    | _ => false

/-- CAPTURE_TRIGGER (R167): `PRE` samples are kept and the rest is filled after the trigger. -/
def execCaptureTrigger (s : State) : Host.Outcome State Fault Refusal :=
  .next <|
    if s.get LE_CAP_CTRL.STATE == 1 && s.capTriggered then
      { s with le := { s.le with cap := s.le.cap.take (s.get LE_CAP_PRE.PRE) } }.put LE_CAP_CTRL.STATE 2
    else s

/-- CAPTURE_DONE (R167): 8,192 samples of each channel. -/
def execCaptureDone (s : State) : Host.Outcome State Fault Refusal :=
  .next <|
    if s.get LE_CAP_CTRL.STATE == 2 && decide (8192 ≤ s.le.cap.length) then
      let t0 := match s.le.cap.getLast? with | some c => c.stamp | none => 0
      ((s.put2 LE_CAP_STAMP_LO.STAMP LE_CAP_STAMP_HI.STAMP t0).put LE_CAP_CTRL.STATE 3).log 0x040A INFO
    else s

end Sys2Proof.Machine
end

