-- ==== Sys2Proof/Machine/Safe.lean ====
section
/-! DEFINITION. What each command of the Safe-Off sequencer and the watchdog does (spec/20_safe_off_faults.md). Currents are in mA. A
command whose condition the manual states and the state or its measurement does not meet leaves the state unchanged. -/

namespace Sys2Proof.Machine

open R

/-! ### Requests (R456, R463) -/

/-- `ES1` and `ES2` follow the inputs. -/
def State.estopShow (s : State) : State := if s.runs 1 then s.safSample else s

/-- E_STOP (R39, R457): the inputs that are low, bit 0 ESTOP1_N and bit 1 ESTOP2_N, and the ns for which they have been. A shorter low is
ignored. -/
def execEStop (m ns : Nat) (s : State) : Host.Outcome State Fault Refusal :=
  let low := m % 4
  .next <|
    if decide (1000 ≤ ns) && low != 0 then
      let all := s.pins.estopLow ||| low
      let s1 := { s with pins := { s.pins with estopLow := all } }.estopShow
      if s1.runs 1 && !s1.boot.failing then
        let s2 := if all = 3 ∧ s1.is SAF_STAT.ES_DISC then { s1 with saf := { s1.saf with bothLow := true } } else s1
        (s2.log 0x1202 SAFETY [low]).reqSafeOff 0 0x1202
      else s1
    else s

/-- SO_REQ (R456). -/
def execSoReq (sess : Nat) (s : State) : Host.Outcome State Fault Refusal :=
  .next <| s.guarded sess SAF_CMD.SO_REQ fun t => (t.log 0x120D NOTICE).reqSafeOff 10 0x120D

/-- ESTOP_DISCREPANCY (R463): the ms for which the inputs have disagreed. -/
def execEstopDiscrepancy (ms : Nat) (s : State) : Host.Outcome State Fault Refusal :=
  .next <|
    if s.runs 1 && (s.is SAF_STAT.ES1 != s.is SAF_STAT.ES2) && !s.is SAF_STAT.ES_DISC &&
        decide (10 * max 1 (s.get SAF_CFG.ES_DISC_T) < ms) then
      ({ s with saf := { s.saf with bothLow := false } }.put SAF_STAT.ES_DISC 1).log 0x1207 SAFETY
    else s

/-- ESTOP_RELEASE (R463): the inputs that return high. The lock ends once both have been low together and are then high together. -/
def execEstopRelease (m : Nat) (s : State) : Host.Outcome State Fault Refusal :=
  .next <|
    let low := clrBits s.pins.estopLow (m % 4)
    let s1 := { s with pins := { s.pins with estopLow := low } }.estopShow
    if s1.runs 1 && low == 0 && s1.is SAF_STAT.ES_DISC && s1.saf.bothLow then
      { s1 with saf := { s1.saf with bothLow := false } }.put SAF_STAT.ES_DISC 0
    else s1

/-! ### The lists (R458 to R461) -/

/-- |I| at a connector's point is at or below `I_OPEN`, with the point valid (R459): through the time that the command names, and in the
last means published, where a block with a sample that is not valid counts as not decayed (R258). -/
def State.atOpen (s : State) (c i : Nat) (valid : Bool) : Bool :=
  let p := s.get SAF_CONN.PT c
  valid && (s.pt p).blockOk && decide (i ≤ 1000 * s.get SAF_CONN.I_OPEN c) && decide ((s.geti MET_PT_I.I p).natAbs ≤ 1000 * s.get SAF_CONN.I_OPEN c)

/-- The latch of DC+ is cleared. -/
def State.plusOpen (s : State) (c : Nat) : State := (s.latchClear (s.get SAF_CONN.LS_POS c)).setSeq c 2

/-- CONTACTOR_OPEN (R459, R467): the highest mean |I| of the connector's point in the ms for which it has been at or below `I_OPEN`, and whether the point was valid
throughout. -/
def execContactorOpen (c i ms : Nat) (valid : Bool) (s : State) : Host.Outcome State Fault Refusal :=
  .next <|
    if s.runs 1 && decide (c < 2) && s.saf.list != 2 && !s.boot.failing && (s.seqOf c == 1 || s.seqOf c == 4) && s.atOpen c i valid &&
        decide (10 ≤ ms) then s.plusOpen c
    else s

/-- SAFE_OFF_DC_MINUS_OPEN (R459): the ms since DC+ opened, and those since t_s. -/
def execSafeOffDcMinusOpen (c ms t : Nat) (s : State) : Host.Outcome State Fault Refusal :=
  .next <|
    if s.runs 1 && decide (c < 2) && s.saf.list != 2 && !s.boot.failing && s.seqOf c == 2 &&
        decide (clampN 1 20 (s.get SAF_CFG.CT_GAP) ≤ ms) then (s.latchClear (s.get SAF_CONN.LS_NEG c)).connOpened c t
    else s

/-- CONNECTOR_HELD (R459): the ms since t_s and the mean |I|. -/
def execConnectorHeld (c t i : Nat) (s : State) : Host.Outcome State Fault Refusal :=
  .next <|
    if s.runs 1 && decide (c < 2) && s.saf.list != 2 && !s.boot.failing && s.seqOf c == 1 && !bit s.saf.tripped c &&
        decide (10 * max 1 (s.get SAF_CFG.SO_DECAY) ≤ t) then
      let s1 := s.setSeq c 4
      let s2 := { s1 with saf := { s1.saf with held := setBit s1.saf.held c } }.put SAF_STAT.HELD 1
      (s2.log 0x1204 SAFETY ([c, 0] ++ leBytes 2 (min (i / 1000) 0xFFFF))).safDone t
    else s

/-- SUPPLY_FAIL_CONTACTOR_OPEN (R461): the mean |I|, the ms for which it has been so, and whether the point was valid. -/
def execSupplyFailContactorOpen (c i ms : Nat) (valid : Bool) (s : State) : Host.Outcome State Fault Refusal :=
  .next <|
    if s.boot.failing && decide (c < 2) && s.saf.list == 2 && s.seqOf c == 1 && s.atOpen c i valid && decide (1 ≤ ms) then s.plusOpen c
    else s

/-- SUPPLY_FAIL_DC_MINUS_OPEN (R461): the ms since DC+ opened. -/
def execSupplyFailDcMinusOpen (c ms : Nat) (s : State) : Host.Outcome State Fault Refusal :=
  .next <|
    if s.boot.failing && decide (c < 2) && s.saf.list == 2 && s.seqOf c == 2 && decide (1 ≤ ms) then
      ((s.latchClear (s.get SAF_CONN.LS_NEG c)).setSeq c 3).heldEnds c
    else s

/-- CONTACTOR_NOT_OPENED (R461): the µs since t0. -/
def execContactorNotOpened (c us : Nat) (s : State) : Host.Outcome State Fault Refusal :=
  .next <|
    if s.boot.failing && decide (c < 2) && s.saf.list == 2 && s.seqOf c == 1 && decide (24050 ≤ us) then
      (s.setSeq c 5).log 0x120C SAFETY [c]
    else s

/-! ### Leaving Safe-Off (R462) -/

/-- A request waits among the commands of this base period: an E-stop input that has been low, or `SO_REQ` (R469; log 131). -/
def State.requestComes (s : State) : Bool :=
  s.pending.any fun i => match i with
    | .eStop m ns => decide (1000 ≤ ns) && m % 4 != 0
    | .soReq sess => s.writeStatus sess SAF_CMD.SO_REQ == 0
    | _ => false

/-- The first condition of R462 that fails, as `STATUS`; 1 for none. A request of the same base period comes first, and its list is not complete
(R469). -/
def State.clearStatus (s : State) : Nat :=
  if !s.is SAF_STAT.DONE || s.saf.asked || s.requestComes then 2
  else if s.is SAF_STAT.HELD then 5
  else if s.is SAF_STAT.ES1 || s.is SAF_STAT.ES2 then 3
  else if s.is SAF_STAT.ES_DISC then 4
  else if s.is KV_STAT.DESTROYED then 6
  else if bit (s.get SAF_SRC.SRC) 9 && !s.saf.stormReady then 7
  else 1

/-- A write of 1 to `CLR` (R462). -/
def State.safClear (s : State) : State :=
  if !s.is SAF_STAT.ACTIVE then s
  else
    let r := s.clearStatus
    let s1 := s.put SAF_CMD.STATUS r
    if r = 1 then
      let s2 := (((s1.put SAF_STAT.ACTIVE 0).put SAF_STAT.DONE 0).put SAF_SRC.SRC 0).put SAF_FIRST.FIRST 0
      ({ s2 with saf := { s2.saf with list := 0, cleared := 0 } }.log 0x1205 NOTICE).gden
    else s1.log 0x1206 WARNING [r]

/-- SAFE_OFF_CLEAR (R462). -/
def execSafeOffClear (sess : Nat) (s : State) : Host.Outcome State Fault Refusal :=
  .next <| s.guarded sess SAF_CMD.CLR State.safClear

/-! ### The watchdog (R464, R465) -/

/-- The watchdog's limit is reached (R465): it stops, and Safe-Off is requested. -/
def State.watchStop (s : State) : State :=
  let u := s.put SAF_STAT.WD_STOP 1
  ({ u with saf := { u.saf with stormReady := false } }.reqSafeOff 9 0x1209).log 0x1209 SAFETY

/-- The watchdog expires with a cause (R464, R465): event 0x1208, the WDOG reset, and at `WD_LIMIT` the reset storm. An expiry that a
running reset absorbs is not counted in `WD_CNT`. -/
def State.wdExpire (s : State) (cause : Nat) (o : BootObs) : State :=
  if !s.runs 3 || s.is SAF_STAT.WD_STOP || s.boot.failing then s
  else
    let s1 := ((s.put SAF_WD_STAT.WD_CAUSE cause).inc SAF_WD_STAT.WD_TOTAL).log 0x1208 FAULT [cause]
    let r := { s1 with saf := { s1.saf with wdRun := false } }.resetCause 4 warmDoms
    if r.1 then
      let n := min (r.2.get SAF_WD_STAT.WD_CNT + 1) 15
      let t1 := (r.2.enterReset 4 warmDoms).put SAF_WD_STAT.WD_CNT n
      (t1.when (max 1 (t1.get SAF_WD_CFG.WD_LIMIT) ≤ n) State.watchStop).exitReset o
    else r.2

/-- `WD_T` within 10 ms to 255 ms, and `WD_MIN`, 0 where it is not below (R464). -/
def State.wdTimes (s : State) : Nat × Nat :=
  let t := max 10 (s.get SAF_WD_CFG.WD_T)
  (t, if s.get SAF_WD_CFG.WD_MIN < t then s.get SAF_WD_CFG.WD_MIN else 0)

/-- WATCHDOG_KICK (R464): the value written, the ms since the previous correct write or the start, and what a reset finds. -/
def execWatchdogKick (v ms : Nat) (o : BootObs) (s : State) : Host.Outcome State Fault Refusal :=
  let (wt, wm) := s.wdTimes
  .next <|
    if !s.saf.wdRun then s
    else if wt ≤ ms then s.wdExpire 1 o
    else if v ≠ s.saf.kick ∨ ms < wm then s.wdExpire 2 o
    else { s with saf := { s.saf with kick := if s.saf.kick = 0x5A then 0xA5 else 0x5A } }

/-- WATCHDOG_EXPIRY (R464): the ms since the previous correct write or the start, and what the restart finds. -/
def execWatchdogExpiry (ms : Nat) (o : BootObs) (s : State) : Host.Outcome State Fault Refusal :=
  .next <| if s.saf.wdRun && decide (s.wdTimes.1 ≤ ms) then s.wdExpire 1 o else s

/-- LOCKSTEP_ERROR (R464): what the restart finds. -/
def execLockstepError (o : BootObs) (s : State) : Host.Outcome State Fault Refusal := .next (s.wdExpire 3 o)

end Sys2Proof.Machine
end

