-- ==== Sys2Proof/Machine/Timebase.lean ====
section
/-! DEFINITION. What each Timebase command does (spec/05_grid_angle_timebase.md). A command whose condition the manual states
and the state or its measurement does not meet leaves the state unchanged. -/

namespace Sys2Proof.Machine

open R

/-- TB_ACQUIRE_LOCK (R86, R87, R97): a follower takes the source's stamp; a time root, whose grid has qualified for 3 cycles, takes
the restart value as its cycle number and the grid angle. A follower's grid is measured only (R85); a grid that is followed steers (R86). -/
def execTbAcquireLock (src srcStamp f cycles : Nat) (s : State) : Host.Outcome State Fault Refusal :=
  let root := s.is TB_STAT.ROOT
  .next <|
    if s.runs 4 && s.get TB_STAT.STATE == 1 && s.srcAllowed src && (!root || (src == 1 && decide (3 ≤ cycles))) then
      let v := if root then s.restartCycle * 2 ^ 24 + s.compensated srcStamp f % 2 ^ 24 else srcStamp
      let s1 := (s.setStamp v).setFloc (f * mHz)
      let s2 := ((({ s1 with tb := { s1.tb with fsrc := f * mHz, acq := false } }.setErr 0).tbState 2).setSrc src).put TB_STAT.ACQUIRED 1
      let s3 := s2.when (src == 1) fun t => t.gridSeen v f
      let s4 := s3.setReady 0
      (s4.logNumbering (v / 2 ^ 24 % 2 ^ 40)).log 0x0201 NOTICE [src]
    else s.when (s.runs 4 && src == 1 && decide (3 ≤ cycles)) fun t => t.gridFollow (t.compensated srcStamp f) f

/-- TB_ACQUIRE_TIMEOUT (R87): three cycles at 50 Hz, 60 ms, without a source: the restart value at angle 0, nominal
frequency, HOLDOVER. -/
def execTbAcquireTimeout (ms : Nat) (s : State) : Host.Outcome State Fault Refusal :=
  .next <|
    if s.runs 4 && s.get TB_STAT.STATE == 1 && decide (60 ≤ ms) then
      let c := s.restartCycle
      let s1 := ((s.setStamp (c * 2 ^ 24)).setFloc s.nominal).tbHoldover
      let s2 := { s1 with keep := { s1.keep with restarted := !s1.is TB_STAT.ROOT } }.put TB_STAT.ACQUIRED 1
      (s2.setReady 0).logNumbering c
    else s

/-- The measurement that finds a source lost (R104), with its event and payload: 0 amplitude in mV, 1 frequency in mHz, 2
half-cycles without a stamp, 3 cycles without an accepted edge. -/
def State.lossFound (s : State) (src cause m : Nat) : Option (Nat × List Nat) :=
  match cause with
  | 0 => if src = 1 ∧ m < 10 * s.get TB_GRID_CFG.AMIN then some (0x0202, []) else none
  | 1 => if src = 1 ∧ (m < 45000 ∨ 66000 < m) then some (0x020F, []) else none
  | 2 => if (src = 2 ∨ src = 3) ∧ clampN 2 32 (s.get TB_FOLLOW.SRC_TMO) ≤ m then some (0x0206, [src]) else none
  | 3 => if src = 4 ∧ 2 ≤ m then some (0x020D, []) else none
  | _ => none

/-- A source is lost; of the angle pulse the run of accepted edges starts anew (R104). -/
def Tb.lose (t : Tb) (src : Nat) : Tb :=
  { t with heard := clrBit t.heard src, apiOk := if src = 4 then 0 else t.apiOk, apiLost := t.apiLost || src == 4 }

/-- The whole cycles k of R92: the difference rounded, halves towards zero. -/
def renumberOf (d : Int) : Int :=
  let k : Int := ((d.natAbs + (2 ^ 23 - 1)) / 2 ^ 24 : Nat)
  if d < 0 then -k else k

/-- The renumbering that the taking of a source brings with a difference `d` of the stamps (R92, R97): the fabric and the powerline number
cycles, the grid and the pulse carry an angle only. -/
def State.renumFor (s : State) (src : Nat) (d : Int) : Option Int :=
  if src = 2 ∨ src = 3 then (if renumberOf d = 0 then none else some (renumberOf d)) else s.tb.renum

/-- TB_SOURCE_LOST (R85, R87, R91, R104): HOLDOVER, or from LOCKED the next source that qualifies, given with its stamp and
its frequency in mHz. A grid that is measured and not followed is shown and logged as lost (R85, R104), and so is another source that has
been heard and is not followed. -/
def execTbSourceLost (src cause m : Nat) (next : Option (Nat × Nat × Nat)) (s : State) : Host.Outcome State Fault Refusal :=
  let st := s.get TB_STAT.STATE
  let sel := (st == 2 || st == 3) && s.get TB_STAT.SRC == src
  .next <|
    if s.runs 4 && (sel || (src == 1 && s.is TB_STAT.GRID_OK) || (src != 1 && s.srcAllowed src && bit s.tb.heard src)) then
      match s.lossFound src cause m with
      | none => s
      | some (code, pay) =>
        let s1 := s.when (src == 1) fun t => t.gridGone.when (cause == 0) fun u =>
          if u.is TB_CTRL.LINES then u.ampShow else u.putMax TB_AMP.VA m
        let s2 := if !sel then s1 else match next with
          | some (n, v, f) =>
            if st = 2 ∧ n ≠ src ∧ s.srcAllowed n then
              let w := if n = 1 then s1.compensated v f else v
              let t := ((s1.tbState 3).setSrc n).setErr (toSigned 24 (w + 2 ^ 64 - s.stamp) * 16)
              { t with tb := { t.tb with fsrc := f * mHz, renum := s.renumFor n (toSigned 64 (w + 2 ^ 64 - s.stamp)) } }
            else s1.tbHoldover
          | none => s1.tbHoldover
        let s3 := { s2 with tb := s2.tb.lose src }
        s3.log code WARNING pay
    else s

/-- GRID_PHASE_JUMP (R93, R104): a jump above `JUMP_MAX` is a loss of the grid, followed or only measured; a smaller one is left to SLEW. -/
def execGridPhaseJump (jump : Int) (s : State) : Host.Outcome State Fault Refusal :=
  let st := s.get TB_STAT.STATE
  let sel := (st == 2 || st == 3) && s.get TB_STAT.SRC == 1
  .next <|
    if s.runs 4 && (sel || s.is TB_STAT.GRID_OK) && decide (s.get TB_GRID_CFG.JUMP_MAX * 0x10000 < jump.natAbs) then
      (s.gridGone.when sel State.tbHoldover).log 0x0205 WARNING (leBytes 4 (ofSigned 32 jump))
    else s

/-- LINE_FAULT (R104): in three-line mode, a line absent or inconsistent. -/
def execLineFault (lines : Nat) (s : State) : Host.Outcome State Fault Refusal :=
  .next <|
    if s.runs 4 && s.is TB_CTRL.LINES && lines % 8 != 0 then ((s.put TB_STAT.LINE_FLT 1).ampShow).log 0x020B WARNING [lines % 8] else s

/-- LINE_FAULT_CLEAR (R104): every line has qualified for 10 cycles. -/
def execLineFaultClear (cycles : Nat) (s : State) : Host.Outcome State Fault Refusal :=
  .next <| if decide (10 ≤ cycles) then s.put TB_STAT.LINE_FLT 0 else s

/-- TB_SLEW_ENTRY (R87, R90): an error above the tolerance of the source in LOCKED. -/
def execTbSlewEntry (e : Int) (f : Nat) (s : State) : Host.Outcome State Fault Refusal :=
  .next <|
    if s.runs 4 && s.get TB_STAT.STATE == 2 && decide (s.tbTol (s.get TB_STAT.SRC) < e.natAbs) then
      let s1 := ((s.setErr e).tbState 3).when (s.get TB_STAT.SRC == 1) fun t => t.put TB_FREQ_GRID.FGRID f
      { s1 with tb := { s1.tb with fsrc := f * mHz } }.log 0x0203 NOTICE (leBytes 4 (ofSigned 32 e))
    else s

/-- TB_SLEW_LOCKED (R87): the error has been within the tolerance for 2 cycles, and no renumbering waits (R92). The first LOCKED since ACQUIRE
logs 0x0201 as well (R104). -/
def execTbSlewLocked (e : Int) (cycles ms : Nat) (s : State) : Host.Outcome State Fault Refusal :=
  .next <|
    if s.runs 4 && s.get TB_STAT.STATE == 3 && s.tb.renum.isNone &&
        decide (e.natAbs ≤ s.tbTol (s.get TB_STAT.SRC)) && decide (2 ≤ cycles) then
      let s1 := ((s.setErr e).tbState 2).log 0x0204 INFO (leBytes 2 (min ms 0xFFFF))
      s1.when s.tb.acq fun t => { t with tb := { t.tb with acq := false } }.log 0x0201 NOTICE [t.get TB_STAT.SRC]
    else s

/-- TB_SOURCE_TAKEN (R87, R92): a source that qualifies in HOLDOVER; the grid after `RET_CYC` cycles, the angle pulse after 3
accepted edges where it has been lost, else while it is present (DESIGN CHOICE, log 120). The grid and the pulse carry an angle only, so
nothing is renumbered for them. In LOCKED and SLEW a source that comes before the present one in the list of R85 is taken as well, with
SLEW (DEDUCED, log 102). -/
def execTbSourceTaken (src srcStamp f cycles : Nat) (s : State) : Host.Outcome State Fault Refusal :=
  let qual := if src = 1 then decide (clampN 2 250 (s.get TB_GRID_CFG.RET_CYC) ≤ cycles)
    else if src = 4 then (if s.tb.apiLost then decide (3 ≤ s.tb.apiOk) else s.is TB_API_CFG.API_PRESENT) else true
  let v := if src = 1 then s.compensated srcStamp f else srcStamp
  let st := s.get TB_STAT.STATE
  let s0 := s.when (s.runs 4 && src == 1 && qual) fun t => t.gridFollow v f
  .next <|
    if s.runs 4 && s.srcAllowed src && qual then
      let d := toSigned 64 (v + 2 ^ 64 - s.stamp)
      let e := toSigned 24 (ofSigned 24 d) * 16
      let t := ((s0.tbState 3).setSrc src).setErr e
      let t := { t with tb := { t.tb with fsrc := f * mHz, renum := s.renumFor src d } }
      if st = 4 then t.log 0x0207 NOTICE [src]
      else if (st = 2 ∨ st = 3) ∧ src < s.get TB_STAT.SRC then
        t.when (st == 2) fun u => u.log 0x0203 NOTICE (leBytes 4 (ofSigned 32 e))
      else s0
    else s0

/-- Billing's latched stamp, where one is latched, counted in cycles that have moved by k (R97, R282). -/
def Bil.moved (b : Bil) (k : Int) : Bil := { b with latch := if b.latch = 0 then 0 else ofSigned 64 ((b.latch : Int) + k * 2 ^ 24) }

/-- The stamp of a phase's last carrier start, where it has had one, counted in cycles that have moved by k (R97, R100). -/
def PhX.moved (p : PhX) (k : Int) : PhX := { p with at_ := p.at_.map fun v => ofSigned 64 ((v : Int) + k * 2 ^ 24) }

/-- A stamp counted in cycles that have moved by k; one from before the first of the new numbers is 0. -/
def stampMoved (k : Int) (v : Nat) : Nat := if (v : Int) + k * 2 ^ 24 < 0 then 0 else ofSigned 64 ((v : Int) + k * 2 ^ 24)

/-- The Cell Supervisor's stamps counted in cycles that have moved by k: a snap keeps its angle (R101, R382). -/
def Cs.moved (c : Cs) (k : Int) : Cs :=
  { c with
    first := c.first.map (stampMoved k), snap := c.snap.map (stampMoved k), cur := stampMoved k c.cur, endAt := stampMoved k c.endAt
    syncAt := stampMoved k c.syncAt, ends := c.ends.map fun (p : Nat × Nat) => (p.1, stampMoved k p.2) }

/-- A powerline link's stamps counted in cycles that have moved by k. -/
def PlcLink.moved (x : PlcLink) (k : Int) : PlcLink :=
  { x with
    heardAt := stampMoved k x.heardAt, gap := x.gap.map (stampMoved k), oldAt := x.oldAt.map (stampMoved k)
    segs := x.segs.map fun g => { g with first := stampMoved k g.first } }

/-- What holds stamps outside D4 counts them in cycles that have moved by k (R92). -/
def State.stampsMoved (s : State) (k : Int) : State :=
  { s with
    phx := s.phx.map fun (p : Nat × PhX) => (p.1, p.2.moved k), bil := s.bil.moved k, cs := s.cs.moved k
    plc := { s.plc with links := s.plc.links.map fun (p : Nat × PlcLink) => (p.1, p.2.moved k) } }

/-- CYCLE_RENUMBER (R92, R97, R101): at angle 0 the cycle number changes by k; a waiting action that is skipped over runs
late, and an offset commit that is skipped over is applied at this instant. Stamps that are held are counted in the new numbers (R282, R382). -/
def execCycleRenumber (s : State) : Host.Outcome State Fault Refusal :=
  .next <|
    match s.tb.renum with
    | none => s
    | some k =>
      if s.atAngle 0 then
        let old := s.stamp
        let new := ofSigned 64 ((old : Int) + k * 2 ^ 24)
        let s1 := ({ s with tb := { s.tb with renum := none } }.put2 TB_STAMP_LO.STAMP TB_STAMP_HI.STAMP new).put TB_STAT.RENUM_SEEN 1
        let s2 := (s1.stampsMoved k).log 0x0208 WARNING
          (leBytes 8 (ofSigned 64 k))
        let s3 := s2.when s2.keep.restarted fun t => { t with keep := { t.keep with restarted := false } }.logNumbering (new / 2 ^ 24)
        let s4 := s3.laRenumber old new
        match s4.tb.commit with
        | some (some c) => if old < c ∧ c < new then s4.eachBit 8 s4.tb.left fun g t => t.ofsCommitted g else s4
        | _ => s4
      else s

/-- REFCLK_LOST (R94): the base clock changes to the crystal; with `REF_SEL` = crystal REFCLK is not in use. -/
def execRefclkLost (s : State) : Host.Outcome State Fault Refusal :=
  .next <|
    if s.keep.ref then
      (({ s with keep := { s.keep with ref := false } }.put TB_STAT.REF 0).put TB_STAT.REF_LOST_SEEN 1).log 0x0209 FAULT
    else s

/-- DLL_UNLOCK (R95, R136): the mean tap more than 31 ps from 125 ps for 16 base periods; starts are held. -/
def execDllUnlock (tapPs periods : Nat) (s : State) : Host.Outcome State Fault Refusal :=
  .next <|
    if s.runs 4 && s.is TB_STAT.DLL_LOCK && decide (31 < ((tapPs : Int) - 125).natAbs) && decide (16 ≤ periods) then
      let s1 := (((s.put TB_STAT.DLL_LOCK 0).put TB_DLL.LOCK 0).putMax TB_DLL.TAP_PS tapPs).inc TB_DLL.UNLK_CNT
      let s2 := ((s1.put TB_STAT.DLL_UNLK_SEEN 1).put PE_STAT.DLL_HOLD 1).log 0x020A FAULT
      s2.log 0x0336 WARNING [0xFF]
    else s

/-- DLL_RELOCK (R95, R136): the line relocks by itself; starts resume at the next angle 0. -/
def execDllRelock (tapPs : Nat) (s : State) : Host.Outcome State Fault Refusal :=
  .next <|
    if s.runs 4 && !s.is TB_STAT.DLL_LOCK && decide (((tapPs : Int) - 125).natAbs ≤ 31) then
      ((((s.put TB_STAT.DLL_LOCK 1).put TB_DLL.LOCK 1).put TB_DLL.TAP_PS tapPs).put PE_STAT.DLL_HOLD 0).log 0x020C NOTICE
    else s

/-- KEEPER_COMMIT (R96): the keeper's stamp to `TB_LAST_STAMP`, once every 2^16 cycles, or where the numbering has gone back; nothing while
the keeper reads 0. -/
def execKeeperCommit (s : State) : Host.Outcome State Fault Refusal :=
  let last := s.get2 TB_LAST_STAMP_LO.LAST TB_LAST_STAMP_HI.LAST
  .next <| if last + 2 ^ 40 ≤ s.keeper ∨ s.keeper < last then s.keepCommit else s

/-- NCAR_CHANGE (R98, R101): at angle 0, after a renumbering there, `NCAR`, held at the nearest limit, comes into force. -/
def execNcarChange (g : Nat) (s : State) : Host.Outcome State Fault Refusal :=
  .next <| if s.atAngle 0 && !s.renumDue && decide (g < 8) then s.put TB_GRP_CAR.NCAR_ACT (s.ncar g) g else s

/-- A write of 1 to `COMMIT` (R100): every affected group, at its next carrier boundary or at the stamp held now. -/
def State.ofsCommitWrite (s : State) : State :=
  s.ofsArm s.ofsAffected (if s.is TB_OFS_CTRL.AT_STAMP then some (s.get2 TB_COMMIT_LO.STAMP TB_COMMIT_HI.STAMP) else none)

/-- OFFSET_COMMIT (R100). -/
def execOffsetCommit (sess : Nat) (s : State) : Host.Outcome State Fault Refusal :=
  .next <| s.guarded sess TB_OFS_CTRL.COMMIT State.ofsCommitWrite

/-- OFFSET_COMMIT_TAKEN (R100, R101, R133): the group takes its shadows at its carrier boundary. -/
def execOffsetCommitTaken (g : Nat) (s : State) : Host.Outcome State Fault Refusal :=
  .next <| if s.ofsDue g then s.ofsCommitted g else s

/-- ANGLE_PULSE_OUT (R102): the local angle reaches `APO_ANG`; TBR_APO high for `APO_W`. -/
def execAnglePulseOut (s : State) : Host.Outcome State Fault Refusal :=
  .next <|
    if s.is TB_APO_CFG.APO_EN && s.atAngle (s.get TB_APO_CFG.APO_ANG) then
      { s with tb := { s.tb with apoLeft := clampN 1 1000 (s.get TB_APO_W.APO_W) * 250 }, pins := { s.pins with apo := true } }
    else s

/-- ANGLE_PULSE_CAPTURE (R103): the edge is captured to 1/16 au; it is accepted within ±0x4_0000 au of the expected angle, or
as the first after the source is taken; accepted edges give the pulse's angle and its frequency (R89). -/
def execAnglePulseCapture (edge : Nat) (s : State) : Host.Outcome State Fault Refusal :=
  .next <|
    if s.runs 4 then
      let v := edge / 16 % 2 ^ 64
      let prev := s.get2 TB_API_CAP_LO.STAMP TB_API_CAP_HI.STAMP
      let e16 : Int := toSigned 28 (s.get TB_API_CFG.API_ANG * 16 + 2 ^ 72 - edge)
      let near := decide (e16.natAbs ≤ 0x40000 * 16)
      let gap := v + 2 ^ 64 - prev
      let present := decide (prev ≠ 0) && decide (2 ^ 24 - 0x40000 ≤ gap % 2 ^ 64) && decide (gap % 2 ^ 64 ≤ 2 ^ 24 + 0x40000)
      let s1 := (s.put2 TB_API_CAP_LO.STAMP TB_API_CAP_HI.STAMP v).put TB_API_CAP_FR.FRAC (edge % 16)
      let s2 := s1.putb TB_API_CFG.API_PRESENT present
      let ok := near || (s2.get TB_STAT.SRC == 4 && s2.tb.apiFirst)
      let s3 := { s2 with tb := { s2.tb with apiOk := if ok then s2.tb.apiOk + 1 else 0, apiFirst := false } }
      let used := s3.tbUses 4
      s3.when ok fun t => { t with tb := t.tb.hear 4 (ofSigned 68 ((edge : Int) + e16)) used }.when used fun u => u.setErr e16
    else s

end Sys2Proof.Machine
end

