-- ==== Sys2Proof/Machine/UpdOps.lean ====
section
/-! DEFINITION. What the update manager does on a write of its registers (spec/21_updates_service_life.md): the flash (R472), a firmware
switch (R475), the checks of a reload (R482) and of a package (R485), and recalibration (R488). -/

namespace Sys2Proof.Machine

open R

/-- An operation of the update manager runs (R475, R485, R493): a section reload, a firmware switch, or an accepted package that waits. -/
def State.updBusy (s : State) : Bool := s.is UPD_STAT.BUSY || s.updN.unit1

/-- An operation starts. -/
def State.updBegin (s : State) (op : Nat) : State := (s.put UPD_STAT.BUSY 1).put UPD_STAT.OP op

/-- The operation has ended. -/
def State.updEnd (s : State) : State := (s.put UPD_STAT.BUSY 0).put UPD_STAT.OP 0

/-! ### The flash (R472) -/

/-- The bank in force of a unit. -/
def State.fwBank (s : State) (u : Nat) : Nat := if bit s.updN.act u then 1 else 0

/-- The area of an address, as the `STATUS` with which it is refused: 2 in use, 3 reserved, 0 neither. -/
def State.flRefusal (s : State) (a : Nat) : Nat :=
  if a < 0x400000 then (if s.updN.cfg = some (a / 0x200000) then 2 else 0)
  else if 0x2A00000 ≤ a then 3
  else if (List.range 7).any fun u =>
      let b := bankAt u (s.fwBank u)
      !bit s.boot.fwBad u && decide (b.1 ≤ a) && decide (a < b.1 + b.2) then 2
  else 0

/-- A program or an erase begins at `ADDR`, or is refused. -/
def State.flBegin (s : State) (w : Option Word) : State :=
  let a := s.get UPD_FL_ADDR.ADDR / 4 * 4
  match s.flRefusal a with
  | 0 => { s.put UPD_FL_CMD.FL_BUSY 1 with upd := { s.upd with fl := some { addr := a, word := w } } }
  | r => s.put UPD_FL_CMD.STATUS r

/-- A write to `UPD_FL_DATA`: the word is programmed at `ADDR`, which counts on. The manual does not say what a request does while the flash
is busy; here it does nothing (log 21). -/
def State.flData (s : State) (w : Word) : State :=
  if s.is UPD_FL_CMD.FL_BUSY then s
  else
    let a := s.get UPD_FL_ADDR.ADDR
    (s.flBegin (some w)).put UPD_FL_ADDR.ADDR ((a + 4) % 2 ^ 26)

/-- A write of 1 to `ERASE`: the 64 KiB sector that holds `ADDR`. -/
def State.flErase (s : State) : State := if s.is UPD_FL_CMD.FL_BUSY then s else s.flBegin none

/-- One cell takes a byte. -/
def State.flSet (s : State) (a b : Nat) : State := { s with flash := Memory.write s.flash a (BitVec.ofNat 8 b) }

/-- Four cells take a word, the least significant byte at the lowest address. -/
def State.flPut (s : State) (a w : Nat) : State :=
  (leBytes 4 w).zipIdx.foldl (fun (t : State) (p : Nat × Nat) => t.flSet (a + p.2) p.1) s

/-- The 64 KiB sector that holds an address is erased. -/
def State.flSector (s : State) (a : Nat) : State := { s with flash := Memory.eraseSector s.flash (a / 0x10000) }

/-- The operation ends: `ok` says whether without a flash error. A word programmed where its cells are neither erased nor equal to it, and
what an error leaves, are free values (log 6). -/
def State.flDone (s : State) (ok : Bool) : State :=
  match s.upd.fl with
  | none => s
  | some f =>
    let s1 := ({ s with upd := { s.upd with fl := none } }.put UPD_FL_CMD.FL_BUSY 0).put UPD_FL_CMD.STATUS (if ok then 1 else 4)
    match f.word with
    | some w =>
      let old := s1.flLe f.addr 4
      if ok && (old == 0xFFFFFFFF || old == w.toNat) then s1.flPut f.addr w.toNat
      else (let r := s1.free 32; r.2.flPut f.addr r.1)
    | none =>
      let s2 := s1.flSector f.addr
      if ok then s2
      else (s1.flash.filter fun p => p.1 / 0x10000 == f.addr / 0x10000).foldl (fun (t : State) (p : Nat × Byte) =>
        let r := t.free 8
        r.2.flSet p.1 r.1) s2

/-! ### Firmware (R475 to R477) -/

/-- The first reason of R475 and R476 that refuses a switch, as `STATUS`; 0 for none. -/
def State.fwRefusal (s : State) (u : Nat) (verified : Bool) : Nat :=
  if s.updBusy then 7
  else if u == 1 && s.isSealed then 6
  else if 7 ≤ u ∨ !s.fwOk u (1 - s.fwBank u) verified then 4
  else if u ≠ 1 ∧ s.domainRefusal (withDependants (2 ^ unitDomain u)) ≠ 0 then 5
  else 0

/-- A switch of a unit is remembered until the time for its return has passed (R477): the bank before. -/
def State.switchNote (s : State) (u old : Nat) : State :=
  { s with boot := { s.boot with switched := (u, old) :: s.boot.switched.filter fun p => p.1 != u } }

/-- The switch of a unit is no longer remembered: its unit is ready, or has returned once. -/
def State.switchDrop (s : State) (u : Nat) : State :=
  { s with boot := { s.boot with switched := s.boot.switched.filter fun p => p.1 != u } }

/-- The bank before the switch of a unit, while its return is possible. -/
def State.switchOf (s : State) (u : Nat) : Option Nat := (s.boot.switched.find? fun p => p.1 == u).map Prod.snd

/-- `NEXT` names a bank of a unit. -/
def State.fwName (s : State) (u b : Nat) : State :=
  let n := s.get UPD_FW_CTRL.NEXT
  s.put UPD_FW_CTRL.NEXT (if b = 1 then setBit n u else clrBit n u)

/-- A write of 1 to `GO` in `UPD_FW_CMD` (R475, R476); `verified` is the verdict on the passive bank's signature. -/
def State.fwSwitch (s : State) (u : Nat) (verified : Bool) : State :=
  let s0 := s.put UPD_FW_CMD.UNIT u
  match s0.fwRefusal u verified with
  | 0 =>
    let s1 := (s0.put UPD_FW_CMD.STATUS 1).updBegin 2
    if u = 1 then { s1 with updN := { s1.updN with unit1 := true } }
    else
      let old := s1.fwBank u
      let s2 := s1.switchNote u old
      ({ s2 with boot := { s2.boot with swRun := some u } }.fwName u (1 - old)).domainBegin (withDependants (2 ^ unitDomain u))
  | r => s0.put UPD_FW_CMD.STATUS r

/-- Unit 1 runs the named bank, without a reset of D2: event 0x1109 with both digests (R476). -/
def State.metFwTake (s : State) (b : Nat) : State :=
  let old := s.get MET_FW_DIG.DIG
  let s1 := (s.fwName 1 b).fwTake 1 b
  let s2 := s1.put MET_FW_DIG.DIG (s1.metFwDig b)
  s2.log 0x1109 LEGAL (leBytes 4 old ++ leBytes 4 (s2.get MET_FW_DIG.DIG))

/-- Every subsystem of a unit that runs is ready. -/
def State.unitIsReady (s : State) (u : Nat) : Bool := clrBits (Nat.land (unitReady u) s.running) (s.get SYS_READY.RDY) == 0

/-! ### Section reload (R482) -/

/-- The first angle 0 at or after a stamp. -/
def angleAt (v : Nat) : Nat := (v + 2 ^ 24 - 1) / 2 ^ 24 * 2 ^ 24

/-- The stamp in `UPD_SECT_STAMP`. -/
def State.sectStamp (s : State) : Nat := s.get2 UPD_SECT_STAMP_LO.STAMP UPD_SECT_STAMP_HI.STAMP

/-- The section of a bank whose header verifies. -/
def State.findSect (s : State) (bank sect : Nat) : Option Sect :=
  if s.imageOk bank then (s.sections bank).find? fun e => e.num == sect else none

/-- The first reason that refuses a reload, as `STATUS`; 0 for none. -/
def State.sectRefusal (s : State) (sect bank : Nat) (at_ verified : Bool) : Nat :=
  if s.updBusy || (sect == 0x14 && s.applying) then 6
  else match s.findSect bank sect with
  | none => 4
  | some e =>
    match s.sectCheck e verified with
    | 0 => if at_ && decide (s.sectStamp < s.stamp) then 7 else 0
    | r => r

/-- The reload that waits, with what has been verified: a later change of the flash does not reach it (R482). -/
def State.sectKeep (s : State) (sect bank target : Nat) : Option Reload :=
  (s.findSect bank sect).map fun e =>
    { sect, target, entries := s.entries e, dig := if sect = 0x15 then shaLow 16 (s.flBytes (e.base + e.off) e.len) else 0 }

/-- A write of 1 to `GO` in `UPD_SECT_CMD` (R482); `verified` is the verdict on the section's signature. -/
def State.sectReload (s : State) (sect bank : Nat) (at_ verified : Bool) : State :=
  let s0 := ((s.put UPD_SECT_CMD.SECT sect).put UPD_SECT_CMD.BANK bank).putb UPD_SECT_CMD.AT_STAMP at_
  match s0.sectRefusal sect bank at_ verified with
  | 0 =>
    let target := if at_ then angleAt s0.sectStamp else (s0.stamp / 2 ^ 24 + 1) * 2 ^ 24
    let s1 := (((s0.put UPD_SECT_CMD.STATUS 1).updBegin 1).put UPD_SECT_RES.APPLIED 0).put UPD_SECT_RES.REFUSED 0
    { s1.put UPD_SECT_REF.FIRST_REF 0 with upd := { s1.upd with reload := s0.sectKeep sect bank target } }
  | r => (s0.put UPD_SECT_CMD.STATUS r).log 0x1102 WARNING [sect, r]

/-! ### Signed packages (R484, R485) -/

/-- The bytes of the package window. -/
def State.pkgBytes (s : State) (n : Nat) : List Nat :=
  ((List.range ((n + 3) / 4)).flatMap fun i => leBytes 4 (sparseGet (0#32) i s.upd.pkg).toNat).take n

/-- A little-endian value of a list of bytes. -/
def leOf (l : List Nat) (i n : Nat) : Nat := ofLeBytes ((l.drop i).take n)

/-- The first check of R485 that fails, as `STATUS`; 1 for none. `alg` is the key type of the authority as in R298, `verified` the verdict
on the signature, `fwVerified` that on the passive bank of unit 1. -/
def State.pkgCheck (s : State) (alg : Nat) (verified fwVerified : Bool) : Nat :=
  let len := s.get UPD_PKG_LEN.LEN
  let l := s.pkgBytes len
  let n := leOf l 6 2
  let kind := leOf l 5 1
  let dig := leOf l 28 4
  let auth := s.get UPD_SEAL_CFG.AUTH_SLOT
  let bank := 1 - s.fwBank 1
  if !(l.take 4 == [0x4D, 0x44, 0x4E, 0x50]) || leOf l 4 1 != 1 || decide (128 < n) || len != 36 + 8 * n + sigLen alg then 2
  else if leOf l 8 8 ≠ s.serial then 3
  else if leOf l 16 4 ≠ (s.get UPD_SEAL_CNT.UCNT + 1) % 2 ^ 32 then 4
  else if leOf l 20 4 ≠ s.get MET_PARAM_DIG.DIG ∨ leOf l 24 4 ≠ s.get BIL_DIG.BIL_DIG then 5
  else if !verified || !(auth == 0x3F || s.slotAnchor auth) then 6
  else if (List.range n).any fun i => sealedBits (leOf l (36 + 8 * i) 4) == 0 then 7
  else if !(kind == 1 || (kind == 2 && n == 0 && dig == 0 && s.isSealed)) then 8
  else if dig != 0 && (!s.fwOk 1 bank fwVerified || dig != s.metFwDig bank) then 9
  else if 7936 ≤ s.evr.mor.length + n + 1 + (if dig = 0 then 0 else 1) then 0xA
  else if s.updBusy || s.is UPD_PKG_CMD.PEND then 0xB
  else 1

/-- A write of 1 to `GO` in `UPD_PKG_CMD` (R485, R486, R447). -/
def State.pkgSubmit (s : State) (sess alg : Nat) (verified fwVerified : Bool) : State :=
  match s.pkgCheck alg verified fwVerified with
  | 1 =>
    let s1 := { s with updN := { s.updN with pkg := s.pkgBytes (s.get UPD_PKG_LEN.LEN) } }
    (s1.put UPD_PKG_CMD.STATUS 1).put UPD_PKG_CMD.PEND 1
  | r =>
    let s1 := (s.put UPD_PKG_CMD.STATUS r).log 0x1108 WARNING [r]
    if r = 0xA then (s1.report sess 2).reserveRefused UPD_PKG_CMD.GO.addr else s1

/-- A write to `UPD_PKG_DATA`: the word at `INDEX`, which counts on. -/
def State.pkgData (s : State) (w : Word) : State :=
  let i := s.get UPD_PKG_ADDR.INDEX
  { s with upd := { s.upd with pkg := sparsePut (0#32) i w s.upd.pkg } }.put UPD_PKG_ADDR.INDEX (i + 1)

/-! ### Recalibration (R488) -/

/-- The phases of half `c` are all OFF. -/
def State.phasesOff (s : State) (c : Nat) : Bool := (List.range 48).all fun n => s.get PE_PH_STAT.STATE (48 * c + n) == 0

/-- The condition of an item. -/
def State.recalOk (s : State) : Nat → Bool
  | 0 => s.phasesOff 0
  | 1 => s.phasesOff 1
  | 3 => s.get TB_STAT.SRC != 1
  | 4 => (List.range 2).all fun c => s.get VS_CONN_STAT.STATE c == 0 || s.get VS_CONN_STAT.STATE c == 0xA
  | 5 => (List.range 6).any fun a => !s.is PWR_AUX_CTRL.EN a
  | _ => true

/-- A write to `REQ` (R488): the items whose condition holds run, the others are shown in `REFUSED`. -/
def State.recalibrate (s : State) (req : Nat) : State :=
  if s.is UPD_RECAL.BUSY then s
  else
    let run := (List.range 6).foldl (fun m i => if bit req i && s.recalOk i then setBit m i else m) 0
    let s1 := s.put UPD_RECAL.REFUSED (clrBits (req % 64) run)
    if req % 64 = 0 then s
    else { s1.put UPD_RECAL.BUSY 1 with upd := { s1.upd with recal := run } }

/-- Recalibration ends (R488): `fails` are the items that fail. The results replace those of `SYS_CAL_STAT`; a ready bit that nothing holds
clear any more is set where its subsystem runs. -/
def State.recalDone (s : State) (fails : Nat) : State :=
  if !s.is UPD_RECAL.BUSY then s
  else
    let run := s.upd.recal
    let was := s.boot.block
    let cal := clrBits s.boot.cal run ||| Nat.land fails run
    let s1 := { s with boot := { s.boot with cal := cal }, upd := { s.upd with recal := 0 } }.put UPD_RECAL.BUSY 0
    let s2 := ((s1.put SYS_CAL_STAT.FAIL cal).putb SYS_BOOT_STAT.CAL_FAIL (cal != 0)).peCal.block (!bit (s1.get SYS_READY.RDY) 13)
    let free := clrBits was s2.boot.block
    let s3 := if bit free 1 && bit s2.running 1 then s2.setReady 1 else s2
    let s4 := if bit free 0 && s3.tbRuns then s3.setReady 0 else s3
    s4.log 0x110A NOTICE [cal, s4.get UPD_RECAL.REFUSED]

end Sys2Proof.Machine
end

