-- ==== Sys2Proof/Machine/Vault.lean ====
section
/-! DEFINITION. What each command of the Key Vault does (spec/18_keys_identity.md), with the tamper loops of R36, whose openings
destroy keys, and the SDP request of R315 and R316, which needs a key. A command whose condition the manual states and the state or
its measurement does not meet leaves the state unchanged. Verdicts on certificates are operands (log 45). -/

namespace Sys2Proof.Machine

open R

/-! ### The stage and the slot commands -/

/-- A write to `KV_STAGE_DATA` (R421): without effect while another session holds the stage. -/
def State.stageWrite (s : State) (sess w : Nat) : State :=
  if s.kv.owner.isSome && s.kv.owner != some sess then s
  else
    let i := s.get KV_STAGE_ADDR.INDEX
    let k := { s.kv with stage := sparsePut 0 i (BitVec.ofNat 32 w) s.kv.stage, owner := some sess }
    { s with kv := k }.put KV_STAGE_ADDR.INDEX (i + 1)

/-- STAGE_WRITE (R421). -/
def execStageWrite (sess w : Nat) (s : State) : Host.Outcome State Fault Refusal :=
  .next (s.guarded sess KV_STAGE_DATA.DATA fun t => t.stageWrite sess w)

/-- STAGE_TIMEOUT (R421): the ms since the last stage write. -/
def execStageTimeout (ms : Nat) (s : State) : Host.Outcome State Fault Refusal :=
  .next <| if s.kv.owner.isSome && decide (1000 ≤ ms) then s.stageFree else s

/-- A command ends with a result (R421, R422): the stage is released. -/
def State.kvResult (s : State) (sess slot r : Nat) : State :=
  let s1 := ((s.put KV_CMD.GO 0).put KV_CMD_STAT.BUSY 0).put KV_CMD_STAT.RESULT r
  let s2 := if r = 2 then s1 else if s1.kv.owner = none ∨ s1.kv.owner = some sess then s1.stageFree else s1
  if r = 1 then s2 else s2.log 0x0F07 WARNING [slot, r]

/-- The word that a session writes to `KV_CMD`, apart from `GO`. -/
def State.kvCmdWord (s : State) (op slot type use : Nat) (lockw mseal : Bool) (wrap : Option Nat) : State :=
  let s1 := (((s.put KV_CMD.OP op).put KV_CMD.SLOT slot).put KV_CMD.TYPE type).put KV_CMD.USE use
  (((s1.putb KV_CMD.LOCKW lockw).putb KV_CMD.MSEAL mseal).putb KV_CMD.WRAPPED wrap.isSome).put KV_CMD.WRAP_SLOT (wrap.getD 0)

/-- The refusals of R422 that every slot command shares, in the order listed: the result, or 0. The vault must serve (R415, R433). -/
def State.kvRefuse (s : State) (sess op slot : Nat) (mseal : Bool) : Nat :=
  let x := s.slot slot
  if s.kv.owner.isSome && s.kv.owner != some sess then 2
  else if fixedSlot slot then 3
  else if x.lockw && op != 4 then 4
  else if (x.mseal || mseal || (op == 1 || op == 2 || op == 4) && slot == s.get UPD_SEAL_CFG.AUTH_SLOT) && s.isSealed then 5
  else if !s.kvReady then 0xC
  else 0

/-- A slot takes new contents (R423): `WCNT` counts, and the copy in D8 and the sessions that the slot admitted follow. -/
def State.kvCommit (s : State) (slot : Nat) (x : KvSlot) : State :=
  let s1 := (s.setSlot slot { x with wcnt := (s.slot slot).wcnt + 1 }).sessCloseSlot slot
  if slot = 5 then s1.fabKeyCopy else s1

/-- What the stage holds, unwrapped under the key of a slot (R421): a 12-byte IV, the ciphertext of AES-256-GCM and its tag; the additional data is
the target slot's number. None where the tag fails. -/
def State.unwrap (s : State) (w slot : Nat) : Option (List Nat) :=
  let d := s.stageBytes (s.get KV_STAGE_LEN.LEN)
  let n := d.length - 28
  match (s.slot w).key with
  | some k => if 28 ≤ d.length then gcmOpen k (d.take 12) [slot] ((d.drop 12).take n) (d.drop (12 + n)) else none
  | none => none

/-- LOAD key (R421, R422). -/
def State.loadKey (s : State) (sess slot type use : Nat) (lockw mseal : Bool) (wrap : Option Nat) (wrapOk : Bool) : State :=
  let s0 := s.kvCmdWord 1 slot type use lockw mseal wrap
  match s0.kvRefuse sess 1 slot mseal with
  | 0 =>
    let s1 := match wrap with | some w => s0.slotCheck w wrapOk | none => s0
    let data := match wrap with
      | some w => if s1.slotServes w 3 then s1.unwrap w slot else none
      | none => some (s1.stageBytes (s1.get KV_STAGE_LEN.LEN))
    if !useAgrees type use || (slot == 5 && !(type == 1 && use == 2)) then s1.kvResult sess slot 6
    else match data with
    | none => s1.kvResult sess slot 9
    | some d =>
      if !keyValid type d then s1.kvResult sess slot 7
      else if (s1.slot slot).used then s1.kvResult sess slot 0xD
      else ((s1.kvCommit slot { type, use, lockw, mseal, key := some d }).log 0x0F04 NOTICE [slot, 1]).kvResult sess slot 1
  | r => s0.kvResult sess slot r

/-- LOAD_KEY (R421, R422): the wrapping slot of a wrapped key, and whether that slot passes its check. The last operand is not read: what the unwrap
gives is computed from the stage (log 45). -/
def execLoadKey (sess slot type use : Nat) (lockw mseal : Bool) (wrap : Option Nat) (wrapOk : Bool)
    (_plain : Option (List Nat)) (s : State) : Host.Outcome State Fault Refusal :=
  .next (s.guarded sess KV_CMD.GO fun t =>
    if !t.runs 11 then t.report sess 5
    else t.loadKey sess (slot % 64) (type % 16) (use % 32) lockw mseal (wrap.map fun w => w % 64) wrapOk)

/-- LOAD certificate of up to 2,048 bytes (R417, R421, R422): `parses`, `same` (its public key is the slot's), `ca` (basicConstraints with CA true). -/
def State.loadCert (s : State) (sess slot : Nat) (parses same ca : Bool) : State :=
  let s0 := (s.put KV_CMD.OP 2).put KV_CMD.SLOT slot
  match s0.kvRefuse sess 2 slot false with
  | 0 =>
    let x := s0.slot slot
    let der := s0.stageBytes (s0.get KV_STAGE_LEN.LEN)
    let done := fun (y : KvSlot) => ((s0.kvCommit slot y).log 0x0F04 NOTICE [slot, 2]).kvResult sess slot 1
    if x.bad then s0.kvResult sess slot 0xC
    else if 2048 < s0.get KV_STAGE_LEN.LEN then s0.kvResult sess slot 8
    else if !x.used then
      if slot = 5 then s0.kvResult sess slot 6
      else if parses && ca then done { type := 8, use := 16, cert := some der } else s0.kvResult sess slot 8
    else if x.type = 8 then s0.kvResult sess slot 0xD
    else if parses && same && decide (4 ≤ x.type) then done { x with cert := some der }
    else s0.kvResult sess slot 8
  | r => s0.kvResult sess slot r

/-- LOAD_CERTIFICATE (R421, R422): whether the certificate parses, carries the slot's public key, and has CA true. -/
def execLoadCertificate (sess slot : Nat) (parses same ca : Bool) (s : State) : Host.Outcome State Fault Refusal :=
  .next (s.guarded sess KV_CMD.GO fun t =>
    if !t.runs 11 then t.report sess 5 else t.loadCert sess (slot % 64) parses same ca)

/-- GENERATE (R421, R422): the key is a free value. -/
def State.generate (s : State) (sess slot type use : Nat) (lockw mseal : Bool) : State :=
  let s0 := s.kvCmdWord 3 slot type use lockw mseal none
  match s0.kvRefuse sess 3 slot mseal with
  | 0 =>
    if !useAgrees type use || (slot == 5 && !(type == 1 && use == 2)) then s0.kvResult sess slot 6
    else if (s0.slot slot).used then s0.kvResult sess slot 0xD
    else
      let r := s0.freeBytes (firnLen type)
      ((r.2.kvCommit slot { type, use, lockw, mseal, key := some (scalarOf type r.1) }).log 0x0F04 NOTICE [slot, 3]).kvResult sess slot 1
  | r => s0.kvResult sess slot r

/-- GENERATE (R421, R422). -/
def execGenerate (sess slot type use : Nat) (lockw mseal : Bool) (s : State) : Host.Outcome State Fault Refusal :=
  .next (s.guarded sess KV_CMD.GO fun t =>
    if !t.runs 11 then t.report sess 5 else t.generate sess (slot % 64) (type % 16) (use % 32) lockw mseal)

/-- ERASE (R421, R422). -/
def State.kvErase (s : State) (sess slot : Nat) : State :=
  let s0 := (s.put KV_CMD.OP 4).put KV_CMD.SLOT slot
  match s0.kvRefuse sess 4 slot false with
  | 0 => ((s0.kvCommit slot {}).log 0x0F06 NOTICE [slot]).kvResult sess slot 1
  | r => s0.kvResult sess slot r

/-- ERASE (R421, R422). -/
def execErase (sess slot : Nat) (s : State) : Host.Outcome State Fault Refusal :=
  .next (s.guarded sess KV_CMD.GO fun t => if !t.runs 11 then t.report sess 5 else t.kvErase sess (slot % 64))

/-- The parent of a derivation (R424, R425): its type, usage, depth and key. -/
def State.firnParent (s : State) : Option (Nat × Nat × Nat × List Nat) :=
  let p := s.get KV_FIRN.PARENT
  if p < 64 then
    if s.slotServes p 2 then (s.slot p).key.map fun k => ((s.slot p).type, (s.slot p).use, 0, k) else none
  else if 128 ≤ p then
    let w := p - 128
    if s.is KV_WORK_ATTR.VALID w && bit (s.get KV_WORK_ATTR.USE w) 2 then
      (lookupKey w s.kv.work).map fun k => (s.get KV_WORK_ATTR.TYPE w, s.get KV_WORK_ATTR.USE w, s.get KV_WORK_ATTR.DEPTH w, k)
    else none
  else none

/-- A key in a working slot (R425). -/
def State.setWork (s : State) (w type use depth parent : Nat) (k : List Nat) : State :=
  let s1 := { s with kv := { s.kv with work := (w, k) :: eraseKey w s.kv.work } }
  let s2 := ((s1.put KV_WORK_ATTR.VALID 1 w).put KV_WORK_ATTR.TYPE type w).put KV_WORK_ATTR.USE use w
  ((s2.put KV_WORK_ATTR.DEPTH depth w).put KV_WORK_ATTR.PARENT parent w).kvShow

/-- DERIVE (R424, R425): the fields of `KV_FIRN` as written. -/
def State.derive (s : State) (sess : Nat) (parentOk : Bool) : State :=
  let s0 := s.put KV_CMD.OP 5
  let slot := s0.get KV_CMD.SLOT
  let p := s0.get KV_FIRN.PARENT
  let s1 := if p < 64 then s0.slotCheck p parentOk else s0
  let type := s1.get KV_FIRN.TYPE
  let use := s1.get KV_FIRN.USE
  let n := s1.get KV_FIRN.LABEL_LEN
  if s1.kv.owner.isSome && s1.kv.owner != some sess then s1.kvResult sess slot 2
  else if !s1.kvReady then s1.kvResult sess slot 0xC
  else match s1.firnParent with
  | none => s1.kvResult sess slot 0xA
  | some (pt, pu, d, k) =>
    if !(pt == 2 || pt == 3) then s1.kvResult sess slot 0xA
    else if 8 ≤ d then s1.kvResult sess slot 0xB
    else if !useAgrees type use || clrBits use pu != 0 || n == 0 || decide (32 < n) then s1.kvResult sess slot 6
    else (s1.setWork (s1.get KV_FIRN.TARGET) type use (d + 1) p (firnChild k (d + 1) type use (s1.stageBytes n))).kvResult sess slot 1

/-- DERIVE (R424, R425): whether the parent slot passes its check. -/
def execDerive (sess : Nat) (parentOk : Bool) (s : State) : Host.Outcome State Fault Refusal :=
  .next (s.guarded sess KV_CMD.GO fun t => if !t.runs 11 then t.report sess 5 else t.derive sess parentOk)

/-! ### The reservoir and the tamper loops -/

/-- The reservoir's voltage, which D0 watches in every state (R430). -/
def State.reservoir (s : State) (mv : Nat) : State := { s with vault := { s.vault with resMv := mv } }

/-- RESERVOIR_LOW (R430): the reservoir in mV. -/
def execReservoirLow (mv : Nat) (s : State) : Host.Outcome State Fault Refusal :=
  .next <|
    if 4500 ≤ mv then s
    else if s.runs 11 && s.is KV_STAT.RES_OK then ((s.reservoir mv).put KV_STAT.RES_OK 0).log 0x0F0A WARNING
    else s.reservoir mv

/-- RESERVOIR_RECHARGED (R430): the reservoir in mV. -/
def execReservoirRecharged (mv : Nat) (s : State) : Host.Outcome State Fault Refusal :=
  .next <| if mv < 4500 then s else if s.runs 11 then (s.reservoir mv).put KV_STAT.RES_OK 1 else s.reservoir mv

/-- An entry of the tamper queue (R304): the first 15 are kept and entry 16 is overwritten. -/
def State.tmpLatch (s : State) (term opened : Bool) : State :=
  let e : TmpE := ⟨term, opened, s.rtc, if s.runs 2 then s.keeper else 0⟩
  let q := if s.tmp.queue.length < 16 then s.tmp.queue ++ [e] else s.tmp.queue.take 15 ++ [e]
  let lost := if s.tmp.queue.length < 16 then s.tmp.lost else s.tmp.lost + 1
  let s1 := { s with tmp := { s.tmp with queue := q, lost } }.put BIL_TMP.N_Q q.length
  if opened then (if term then s1.inc BIL_TMP_CNT.TERM_CNT else s1.inc BIL_TMP_CNT.COVER_CNT).put BIL_TMP.TMP_PEND 1 else s1

/-- TAMPER_LOOP_SAMPLE (R36, R46, R304, R305, R430): whether TMP_COVER, TMP_TERM, TMP_LID and the mesh read open. A loop open on the first
sample of all counts at once (log 51). -/
def execTamperLoopSample (cover term lid mesh : Bool) (s : State) : Host.Outcome State Fault Refusal :=
  let t := s.tmp
  let nx := fun (n : Nat) (o : Bool) => if o then (if t.first then 2 else min (n + 1) 2) else 0
  let s1 := { s with tmp := { t with first := false, cover := nx t.cover cover, term := nx t.term term, lid := nx t.lid lid, mesh := nx t.mesh mesh } }
  let s2 := (((s1.putb BIL_TMP.COVER cover).putb BIL_TMP.TERM term).putb KV_STAT.LID (lid && s.runs 11)).putb KV_STAT.MESH (mesh && s.runs 11)
  let opens := fun (n : Nat) (o : Bool) => o && (n == 1 || (t.first && n == 0))
  let s3 := if opens t.cover cover then s2.tmpLatch false true else if !cover && t.cover == 2 then s2.tmpLatch false false else s2
  let s4 := if opens t.term term then s3.tmpLatch true true else if !term && t.term == 2 then s3.tmpLatch true false else s3
  let s5 := if opens t.lid lid then s4.destroy 1 else s4
  .next (if opens t.mesh mesh then s5.destroy 2 else s5)

/-! ### The keys that serve -/

/-- The first unsigned record of a store. -/
def firstUnsigned (l : List MRec) : Option MRec := l.find? fun r => r.sig.isNone

/-- The first record without a signature, sessions first: which store, and the record. -/
def Bil.toSign (b : Bil) : Option (Nat × MRec) :=
  match firstUnsigned b.sess with
  | some a => some (0, a)
  | none =>
    match firstUnsigned b.pers with
    | some a => some (1, a)
    | none => (firstUnsigned b.ints).map fun a => (2, a)

/-- The signature of a record under the key of a slot (R298): the signed message is the bytes before it; byte 3 is `SIG_ALG`. -/
def State.recordSig (s : State) (r : MRec) : List Nat :=
  let k := s.slot (1 + byteAt r.bytes 3)
  keySign k.type (k.key.getD []) r.bytes

/-- The first unsigned record of a store takes a signature. -/
def Bil.signed (b : Bil) (store : Nat) (sig : List Nat) : Bil :=
  match store with
  | 0 => { b with sess := signFirst sig b.sess }
  | 1 => { b with pers := signFirst sig b.pers }
  | _ => { b with ints := signFirst sig b.ints }

/-- RECORD_SIGN (R299, R418, R419): the oldest unsigned record, sessions first, is signed with the key of the slot that its `SIG_ALG`
names while the Key Vault is ready; whether that slot passes its check. -/
def execRecordSign (ok : Bool) (s : State) : Host.Outcome State Fault Refusal :=
  .next <|
    match s.bil.toSign with
    | some (store, rec) =>
      let k := 1 + byteAt rec.bytes 3
      if s.runs 2 && s.kvReady then
        let s1 := s.slotCheck k ok
        if s1.slotServes k 0 then ({ s1 with bil := s1.bil.signed store (s1.recordSig rec) }.inc KV_CNT.SIGNS).bilShow.recShow
        else s1
      else s
    | none => s

/-! ### The SECC key -/

/-- SDP_REQUEST (R315, R316, R418): whether the slot named by `CERT_SLOT` passes its check. -/
def execSdpRequest (c : Nat) (ok : Bool) (s : State) : Host.Outcome State Fault Refusal :=
  .next <|
    if s.vsRuns c && (s.conn c).link && decide (1 ≤ s.cst c) then
      let k := s.get VS_SECC.CERT_SLOT
      let s1 := s.slotCheck k ok
      if s1.slotSecc k then s1.emit .sdp c [1] else s1.log 0x0A10 FAULT [c]
    else s

end Sys2Proof.Machine
end

