-- ==== Sys2Proof/Machine/Windows.lean ====
section
/-! DEFINITION. What a register word reads at this instant (R6, R16, R505): the words that other state stands behind, and a session's own. -/

namespace Sys2Proof.Machine

open R

/-- The words of the Event Recorder that are each session's own (R444, R501). -/
def State.evrWord (s : State) (sess a : Nat) : Option Nat :=
  let x := s.ses sess
  let b := fun (c : Bool) (i : Nat) => if c then 2 ^ i else 0
  if a < 0x100040 then none
  else some <|
    if a = 0x100040 then x.win.log + b x.win.auto 1
    else if a = 0x100044 then x.win.seq
    else if a = 0x100048 then b x.win.present 0 + b x.win.crcOk 1
    else if a < 0x100080 then x.win.words.getD ((a - 0x100050) / 4) 0
    else if a = 0x100080 then 2 * x.find.key + 4 * x.find.log + b x.find.found 3
    else if a = 0x100084 then x.find.lo
    else if a = 0x100088 then x.find.hi
    else x.find.seq

/-- A word as a session holds it: its own of the Event Recorder, else the register file's. -/
def State.ownWord (s : State) (sess a : Nat) : Word :=
  if a / 0x10000 = 16 then (match s.evrWord sess a with | some v => BitVec.ofNat 32 v | none => s.word a) else s.word a

/-! ### The words that other state stands behind -/

/-- A word of the buffer memory (R406): word 2 of a transmit buffer and the bytes beyond its frame's length read as 0. -/
def State.mbShown (s : State) (a : Nat) : Word :=
  let k := a - 0xE1000
  let p := k / 0x2000
  let b := k % 0x2000 / 0x80
  let w := k % 0x80 / 4
  if s.mbDir p b ≠ 2 ∨ w < 2 then s.word a
  else if w = 2 then 0
  else s.word a % 2 ^ (8 * (frameLen (s.mb p b 0) (s.mb p b 1) - 4 * (w - 3)))

/-- `LE_CAP_DATA`: a sample of the capture, oldest first; not a number unless DONE. -/
def State.capWord (s : State) : Word :=
  if s.get LE_CAP_CTRL.STATE = 3 then
    match s.le.cap[8191 - s.get LE_CAP_ADDR.INDEX]? with
    | some x => x.ch.getD (s.get LE_CAP_ADDR.CH) fNaN
    | none => fNaN
  else fNaN

/-- `LE_FF_DATA`: the point of the inactive bank (R158). -/
def State.ffWord (s : State) : Word :=
  let t := s.get LE_FF_ADDR.TABLE
  sparseGet (0#32) (2048 * t + 1024 * (1 - s.ffBank t) + s.get LE_FF_ADDR.INDEX) s.ff

/-- `SL_ROSTER_DATA`. -/
def State.rosterWord (s : State) : Nat :=
  match s.roster[s.get SL_ROSTER_ADDR.INDEX]? with
  | none => 0
  | some p => match s.get SL_ROSTER_ADDR.WORD with
    | 0 => p.1 % 2 ^ 32
    | 1 => p.1 / 2 ^ 32
    | 2 => p.2
    | _ => 0

/-- `SL_HOLD_DATA`: the root's entry of a node. A module is excluded for its floor, for its absence from the roster and for its digest (R219). -/
def State.holdWord (s : State) : Nat :=
  if !s.slRoot then 0
  else
    let h := s.holder (s.get SL_HOLD_ADDR.NODE)
    let b := fun (c : Bool) (i : Nat) => if c then 2 ^ i else 0
    match s.get SL_HOLD_ADDR.WORD with
    | 0 => h.req % 65536 + 65536 * (h.cls % 4) + b (h.ok && !h.excl && s.slHeard s.sl.now h) 18 + b (h.excl || h.known && !h.ok) 19
    | 1 => committed h % 65536 + 65536 * (h.last % 65536)
    | 2 => ofSigned 16 h.draw + 65536 * (h.floor % 65536)
    | _ => 0

/-- The carriers that a tone map uses, with the bits they carry. -/
def toneBits (codes : List Nat) : List Nat := (codes.map codeBits).filter fun n => decide (n ≠ 0)

/-- `PLC_NBR_DATA`: a station of the table. -/
def State.nbrWord (s : State) : Nat :=
  match lookupKey (s.get PLC_NBR_ADDR.STN) s.plc.links with
  | none => 0
  | some x => match s.get PLC_NBR_ADDR.WORD with
    | 0 => x.serial % 2 ^ 32
    | 1 => x.serial / 2 ^ 32
    | 2 =>
      let l := toneBits x.codes
      let mean := if l.isEmpty then 0 else 16 * l.foldl (· + ·) 0 / l.length
      x.node % 4096 + (if x.active then 4096 else 0) + 8192 * (x.tm % 8) + 65536 * (x.rate % 4) + 2 ^ 20 * (mean % 256)
    | _ => 0

/-- `FAB_FWD_DATA`: an entry of a bank of the forwarding table. -/
def State.fwdWord (s : State) : Nat := s.fwdEntry (s.get FAB_FWD_ADDR.BANK) (s.get FAB_FWD_ADDR.NODE)

/-- `BIL_CAL_DATA`: a word of the passive bank. -/
def State.calShown (s : State) : Word := sparseGet (0#32) (2048 * (1 - s.calBank) + s.get BIL_CAL_ADDR.INDEX) s.bil.cal

/-- The key under which a word of the rate registers is captured. -/
def trKey (w : Nat) : Nat := 0x1000000 + w

/-- `BIL_TR_DATA`: the selected word, as word 0 last captured it. -/
def State.trShown (s : State) : Word :=
  let w := s.get BIL_TR_ADDR.WORD
  let live := BitVec.ofNat 32 (s.trWord (s.get BIL_TR_ADDR.PT) (s.get BIL_TR_ADDR.RATE) w)
  if w = 0 then live else (lookupKey (trKey w) s.capt).getD live

/-- The bits of a word that read as 0 since they are WO. -/
def woMask (a : Nat) : Word := (fieldsAt a).foldl (fun m f => if f.acc = .wo then m ||| f.mask else m) 0

/-- What a word reads to a session at this instant. -/
def State.liveWord (s : State) (sess a : Nat) : Word :=
  let v := match a with
    | 0x40330 => s.capWord
    | 0x40408 => s.ffWord
    | 0x50104 => BitVec.ofNat 32 s.rosterWord
    | 0x50114 => BitVec.ofNat 32 s.holdWord
    | 0x60084 => BitVec.ofNat 32 s.fwdWord
    | 0x70104 => BitVec.ofNat 32 s.nbrWord
    | 0x90040 => s.calShown
    | 0x90204 => s.trShown
    | 0xB0010 => BitVec.ofNat 32 s.sdWord
    | 0xF0024 => BitVec.ofNat 32 (s.slotAttr (s.get KV_SLOT_SEL.SLOT))
    | 0xF0028 => BitVec.ofNat 32 (s.slot (s.get KV_SLOT_SEL.SLOT)).wcnt
    | 0xF0030 => BitVec.ofNat 32 s.pubWord
    | _ => if 0xE1000 ≤ a ∧ a < 0xE5000 then s.mbShown a else s.ownWord sess a
  v &&& ~~~woMask a

end Sys2Proof.Machine
end

