-- ==== Sys2Proof/Machine/WriteOps.lean ====
section
/-! DEFINITION. A register write (R6, R7, R10, R11, R16, R503, R505, R507): which of its fields the session may write, which values a
block refuses, what each field does that is more than a store, and what follows from a changed word. -/

namespace Sys2Proof.Machine

open R

/-- A write as a block sees it: the session, the address, the bits of the fields that may be written, and the word; a bit of a W1C or WO
field that the mask does not cover is 0 in it (R505). -/
structure Wr where
  sess : Nat
  lvl : Nat
  a : Nat
  am : Word
  req : Word
deriving DecidableEq, Repr

/-- The field is among those written. -/
def Wr.hits (w : Wr) (f : Field) : Bool := w.am &&& f.mask != 0

/-- The value written to a field. -/
def Wr.val (w : Wr) (f : Field) : Nat := w.req.toNat / 2 ^ f.lo % 2 ^ f.w

/-- A one-bit field is written 1. -/
def Wr.one (w : Wr) (f : Field) : Bool := w.val f == 1

/-- The first index of the register. -/
def Wr.i (w : Wr) (f : Field) : Nat := (w.a - f.addr) / f.s1

/-- The second index. -/
def Wr.j (w : Wr) (f : Field) : Nat := (w.a - f.addr) % f.s1 / f.s2

/-! ### Free verdicts

A register write that needs what no register holds (the outcome of a check of a signature, what a restart finds) takes it as a free
value (log 6); the commands of the tables carry it as an operand. -/

/-- A free truth value. -/
def State.freeBit (s : State) : Bool × State := let r := s.free 1; (r.1 == 1, r.2)

/-- The bits of a free value as a list of numbers. -/
def bitList (n m : Nat) : List Nat := (List.range n).filter (bit m)

/-- What a restart finds, free. -/
def State.freeObs (s : State) : BootObs × State :=
  let p := s.freeBit
  let e := p.2.free 5
  let t := e.2.free 2
  let b0 := t.2.free 32
  let b1 := b0.2.free 32
  let c := b1.2.free 6
  let m := c.2.free 12
  let k := m.2.free 22
  let f := k.2.free 14
  let i := f.2.free 16
  let n := i.2.free 32
  ({ puf := List.replicate t.1 ⟨[19], false⟩ ++ [⟨[e.1], p.1⟩], bad := bitList 64 (b0.1 + 2 ^ 32 * b1.1), cal := c.1, ram := m.1
     sect := bitList 22 k.1, fw := f.1, image := i.1, now := n.1 }, n.2)

/-! ### Who may write -/

/-- Fields that need ADMIN though their code does not say so: the flash (R472). -/
def adminToo (f : Field) : Bool := f == UPD_FL_DATA.DATA || f == UPD_FL_CMD.ERASE

/-- The pulse outputs locked under seal (R270). -/
def State.pulLocked (s : State) (f : Field) (a : Nat) : Bool :=
  s.isSealed && (f.addr == 0x80400 || f.addr == 0x80404) && s.is MET_PUL_CFG.LOCK ((a - 0x80400) / 16)

/-- The status with which a field is refused to a session of a level, 0 where it is not (R11, R503, R270, R387, R472). -/
def State.fieldStatus (s : State) (lvl : Nat) (f : Field) (a : Nat) : Nat :=
  if f = EVR_CLR.CLR_TO then (if 1 ≤ lvl then 0 else 2)
  else if lvl < 2 then 2
  else if (f.acc = .rwa ∨ f.acc = .rws ∨ adminToo f) ∧ lvl ≠ 3 then 2
  else if f.acc = .rws ∧ s.isSealed then 3
  else if s.pulLocked f a then 3
  else if f = LSW_CH_CTRL.ON ∧ s.ownerOf ((a - f.addr) / f.s1) ≠ 2 then 2
  else 0

/-- A sealed field would change in the reserve of the Moraine log (R447). -/
def State.reserveHolds (s : State) (f : Field) (a : Nat) (req : Word) : Bool :=
  f.acc == .rws && s.moraineReserve && (s.word a ^^^ req) &&& f.mask != 0

/-! ### Values that a block refuses -/

/-- The binary32 fields of the Loop Engine (R145). -/
def leFloat (f : Field) : Bool :=
  [LE_PARAM.VALUE, LE_INJ_AMP.AMP, LE_INJ_F0.F0, LE_INJ_F1.F1, LE_CAP_LEVEL.LEVEL, LE_FF_DATA.DATA, LE_L_Y_SCALE.Y_SCALE,
   LE_L_Y_OFS.Y_OFS, LE_L_R_TGT.R_TGT, LE_L_RATE.RATE, LE_L_ACC.ACC, LE_L_R_INIT.R_INIT, LE_L_E_SPAN.E_SPAN, LE_L_U_MIN.U_MIN,
   LE_L_U_MAX.U_MAX, LE_L_U_MAN.U_MAN, LE_L_KT.KT, LE_L_FF_K.FF_K, LE_COEF_KP.K, LE_COEF_KI.K, LE_COEF_KD.K, LE_COEF_TF.K, LE_GTAB.G,
   LE_STH.TH].contains f

/-- The coefficient words of a set. -/
def leCoef (f : Field) : Bool := [LE_COEF_KP.K, LE_COEF_KI.K, LE_COEF_KD.K, LE_COEF_TF.K].contains f

/-- The coefficient set of a loop is in force (R152): of a running loop that of its last update; an OFF loop has none (DEDUCED, log 135). -/
def State.setInForce (s : State) (l k : Nat) : Bool := s.loopOn l && s.get LE_L_STAT.SET l == k

/-- A value of a binary32 field is taken (R145, R159, and the tables of the Loop Engine). The thresholds' reset value +∞ cannot be written.
A negative `ACC` is refused, and of `U_MIN` and `U_MAX` only a `U_MAX` below `U_MIN` (DESIGN CHOICE, log 135). -/
def State.floatOk (s : State) (f : Field) (i : Nat) (v : Word) : Bool :=
  fFinite v &&
    (!(f == LE_L_RATE.RATE || f == LE_L_E_SPAN.E_SPAN) || fPos v) &&
    (!(f == LE_INJ_AMP.AMP || f == LE_COEF_TF.K || f == LE_L_ACC.ACC) || fNonneg v) &&
    (f != LE_L_U_MAX.U_MAX || fLe (s.fl LE_L_U_MIN.U_MIN i) v)

/-- Whether a block takes the value written to a field (R105, R141, R145, R152, R156, R253, R295, R402, R410, R480). -/
def State.takes (s : State) (w : Wr) (f : Field) : Bool :=
  let i := w.i f
  let v := w.val f
  match w.a / 0x10000 with
  | 3 => f != PE_PH_CFG.GRP || v == s.get PE_PH_CFG.GRP i || s.get PE_PH_STAT.STATE i == 0
  | 4 =>
    if leFloat f then
      s.floatOk f i (BitVec.ofNat 32 v) && !(leCoef f && s.setInForce i (w.j f)) &&
        !(f == LE_L_U_MAN.U_MAN && s.is LE_L_CTRL.MAN_TRK i && s.get LE_L_STAT.STATE i != 3)
    else !((f == LE_L_CTRL.DIV || f == LE_L_CTRL.PHS) && s.loopOn i)
  | 8 => f != MET_PUL_CFG.QTY || decide (v ≤ 6)
  | 9 => f != BIL_CFG.PER_MODE || v != 3
  | 14 =>
    if w.a / 4 % 64 = 1 ∧ f.addr = 0xE0004 ∨ f.addr = 0xE0008 then s.get CAN_STAT.STATE i == 1
    else if f = CAN_MB.WORD then s.mbDir (i / 64) (i % 64) == 2 && !s.is CAN_BUF_CTRL.TXREQ (i / 64) (i % 64)
    else true
  | 17 => !(f == UPD_CFG.CFG_ANCHOR && v == 0x3F && s.isSealed)
  | _ => true

/-- What a refused value leaves behind: events 0x0337 and 0x0406 (R105, R152). Byte 0 of 0x0337 is a group's number; the spec does not say
which, and the model puts the group that the phase keeps (DESIGN CHOICE, log 107). -/
def State.refusedValue (s : State) (w : Wr) (f : Field) : State :=
  let i := w.i f
  if f = PE_PH_CFG.GRP then s.log 0x0337 NOTICE [s.get PE_PH_CFG.GRP i, i]
  else if leCoef f && s.setInForce i (w.j f) then (s.put LE_L_STAT.SET_WR_REF 1 i).log 0x0406 NOTICE [i, w.j f]
  else s

/-! ### Fields whose write does more than set them -/

/-- SYS: role apply (R23), SOFT (R72), the anchors of sessions (R502), the UTC source (R514), the network settings (R495). -/
def State.actSys (s : State) (w : Wr) (f : Field) : State :=
  let v := w.val f
  if f = SYS_ROLE_CMD.APPLY then s.when (w.one f) State.applyWrite
  else if f = SYS_RST_CMD.SOFT then s.when (w.one f) fun t => let o := t.freeObs; o.2.softReset o.1
  else if f = SYS_TIME_CFG.TSRC then (if v = s.get f then s else (s.put f v).tsrcShow)
  else if f = SYS_NET_CFG.ETH_EN then (if v = s.get f then s else (s.put f v).netShow)
  else if f = SYS_NET_CFG.DHCP ∨ f = SYS_NET_IP4.ADDR then (if v = s.get f then s else (s.put f v).netAddr)
  else
    let l := if f = SYS_MGMT_CFG.ADM_ANCHOR then 3 else if f = SYS_MGMT_CFG.OPR_ANCHOR then 2 else 1
    if v = s.get f then s else (s.put f v).sessCloseLevel l

/-- PWR: requests of the operating state (R57, R58), the hold-up store (R50), DOMAIN resets (R56), the aux channels (R61, R66). -/
def State.actPwr (s : State) (w : Wr) (f : Field) : State :=
  let v := w.val f
  if f = PWR_STATE.CMD then
    (match v with | 1 => s.quietRequest | 2 => s.runRequest | 3 => s.dormantRequest | _ => s)
  else if f = PWR_HOLDUP.TEST then
    s.when (w.one f && !s.is PWR_HOLDUP.TESTING && !s.boot.failing) fun t => t.put PWR_HOLDUP.TESTING 1
  else if f = PWR_DOM_RST.RST then s.domainWrite v
  else if f = PWR_HOLDUP.HOLDUP_ENF then (s.put f v).holdupShow
  else if f = PWR_AUX_CTRL.LOOP then (if v = s.get f (w.i f) then s else s.auxLoop (w.i f) v)
  else if f = PWR_AUX_CTRL.SYNC_EN then s.auxSyncEn (w.i f) (v == 1)
  else if f = PWR_AUX_CTRL.BURST_EN then s.auxBurstEn (w.i f) (v == 1)
  else if f = PWR_AUX_CTRL.EN then s.auxWrite (w.i f) (v == 1)
  else s.when (w.one f) fun t => t.auxFaultClear (w.i f)

/-- TB: an offset commit (R100). -/
def State.actTb (s : State) (w : Wr) (f : Field) : State := s.when (w.one f) State.ofsCommitWrite

/-- PE: the enables (R126, R130 to R132), a phase's group (R105), and the checks (R125). What PHnn_FLT_N reads at an enable is free (R33; log 45). -/
def State.actPe (s : State) (w : Wr) (f : Field) : State :=
  let i := w.i f
  if f = PE_PH_CFG.GRP then
    let old := s.get f i
    let s1 := s.put f (w.val f) i
    (s1.groupCfg old).groupCfg (w.val f)
  else if f = PE_PH_CFG.EN then (if w.one f then (let r := s.freeBit; r.2.phaseEnable i r.1) else s.phaseDisable i)
  else if f = PE_DIAG.DIAG_EN then (s.put f (w.val f)).when (w.val f == 0) fun t => t.each 8 fun g u => u.checksClear g
  else (if w.one f then s.groupEnable i else s.groupDisable i)

/-- LE: S (R139), the enables and modes of loops (R141, R156), gain tables (R149), injectors (R165), the capture (R167), the feed-forward
tables (R158). -/
def State.actLe (s : State) (w : Wr) (f : Field) : State :=
  let i := w.i f
  let v := w.val f
  if f = LE_CTRL.SRATE then s.srateWrite v
  else if f = LE_L_CTRL.EN then (if w.one f then s.loopEnable i else s.loopDisable i)
  else if f = LE_L_CTRL.MODE then s.loopMode i (v == 1)
  else if f = LE_L_CTRL.GT_COMMIT then s.when (w.one f) fun t => t.setLx i { t.lx i with gtPend := true }
  else if f = LE_INJ_CTRL.EN then
    (if w.one f then s.injEnable i
     else if s.is LE_INJ_CTRL.EN i then (s.injEnd i 2).put LE_INJ_CTRL.EN 0 i else s)
  else if f = LE_CAP_CTRL.ARM then s.when (w.one f) State.capArm
  else if f = LE_FF_CTRL.SWAP then { s with le := { s.le with swap := s.le.swap ||| v } }
  else
    let t := s.get LE_FF_ADDR.TABLE
    let q := s.get LE_FF_ADDR.INDEX
    { s with ff := sparsePut (0#32) (2048 * t + 1024 * (1 - s.ffBank t) + q) (BitVec.ofNat 32 v) s.ff }.put LE_FF_ADDR.INDEX (q + 1)

/-- MET: the seal (R275), snapshots (R266), peaks (R267), pulse outputs (R269). -/
def State.actMet (s : State) (w : Wr) (f : Field) : State :=
  let i := w.i f
  let v := w.val f
  if f = MET_SEAL.SET then s.when (w.one f) fun t => t.sealSet w.sess (w.val MET_SEAL.CONFIRM)
  else if f = MET_SEAL.CONFIRM then s.put f 0
  else if f = MET_SNAP.SNAP then
    s.each 8 fun p t => if bit v p then t.snapArm p t.snapStamp else t.snapRelease p
  else if f = MET_SNAP_STAMP_HI.STAMP then (s.put f v).snapTarget
  else if f = MET_PT_CTRL.PEAK_CLR then s.when (w.one f) fun t => t.peakClear i
  else if f = MET_PUL_CFG.EN then
    let t := s.put f v i
    if w.one f && !s.is f i then t.pulRestart i else t
  else (s.put f v i).pulRestart i

/-- BIL: rebase (R285), the period (R295), the calendar (R288, R289), tamper (R305), acknowledgement (R297), and the selections. -/
def State.actBil (s : State) (w : Wr) (f : Field) : State :=
  let v := w.val f
  if f = BIL_CLK_CMD.REBASE then s.when (w.one f) fun t => t.rebase w.sess
  else if f = BIL_PER_CMD.CLOSE then s.when (w.one f) fun t => t.put f 1
  else if f = BIL_CAL_CTRL.ACTIVATE then s.when (w.one f) fun t => t.calActivate w.sess
  else if f = BIL_TMP.TMP_ACK then s.when (w.one f) fun t => t.tmpAck w.sess
  else if f = BIL_SESS_ACK.ACK_NUM then s.sessAck v
  else if f = BIL_CAL_DATA.DATA then
    let i := s.get BIL_CAL_ADDR.INDEX
    { s with bil := { s.bil with cal := sparsePut (0#32) (2048 * (1 - s.calBank) + i) (BitVec.ofNat 32 v) s.bil.cal } }.put
      BIL_CAL_ADDR.INDEX (i + 1)
  else
    -- `PT` or `RATE` of `BIL_TR_ADDR`: another quantity, whose words are not captured (DESIGN CHOICE, log 86)
    let t := s.put f v
    if v = s.get f then t else { t with capt := t.capt.filter fun (p : Nat × Word) => p.1 / 0x1000000 != 1 }

/-- VS: the authorization (R331), the commands of a connector (R319, R320). -/
def State.actVs (s : State) (w : Wr) (f : Field) : State :=
  let c := w.i f
  if f = VS_CONN_AUTH.AUTH then s.authWrite c (w.val f)
  else if f = VS_CONN_CMD.STOP then s.when (w.one f) fun t => t.stopWrite c
  else s.when (w.one f) fun t => t.connClr c

/-- TH: the zones (R346, R352), a sensor's type (R338). How long a zone has been cool is a free value. -/
def State.actTh (s : State) (w : Wr) (f : Field) : State :=
  let z := w.i f
  if f = TH_ZONE_CFG.EN then (if w.one f then s.zoneEnable z else s.zoneDisable z)
  else if f = TH_ZONE_RST.CLR then
    s.when (w.one f) fun t => let r := t.free 32; if r.2.shutCool z r.1 then r.2.shutRelease z else r.2
  else
    let t := s.put f (w.val f) z
    if w.val f = s.get f z then t else ((t.put TH_TS_STAT.STATE 0 z).put TH_TS_STAT.WARN 0 z).snowSet z false

/-- LSW: the command and the release (R387, R392). -/
def State.actLsw (s : State) (w : Wr) (f : Field) : State :=
  let n := w.i f
  if f = LSW_CH_CTRL.ON then s.onWrite w.sess n (w.one f) else s.when (w.one f) fun t => t.latchRelease n

/-- CAN: the port (R402 to R405), the lock (R408), transmission (R410). Whether the frame that the port offers is on the bus is free. -/
def State.actCan (s : State) (w : Wr) (f : Field) : State :=
  let p := w.i f
  let b := w.j f
  if f = CAN_CTRL.EN then s.canEnable p (w.one f)
  else if f = CAN_CTRL.INIT then (if w.one f then s.canInit p else s.canStart p)
  else if f = CAN_CTRL.RECOVER then s.when (w.one f) fun t => t.canRecover p
  else if f = CAN_CTRL.UNLOCK then s.when (w.one f) fun t => t.canUnlock p
  else if f = CAN_BUF_CTRL.TXREQ then s.when (w.one f) fun t => t.txRequest p b
  else s.when (w.one f) fun t =>
    if (lookupKey p t.can.offer).isSome then (let r := t.freeBit; r.2.txAbort p b r.1) else t.txAbort p b false

/-- KV: a command (R421, R424), with what the vault alone sees free; and the stage. -/
def State.kvGo (s : State) (sess : Nat) : State :=
  let slot := s.get KV_CMD.SLOT
  let type := s.get KV_CMD.TYPE
  let use := s.get KV_CMD.USE
  let lockw := s.is KV_CMD.LOCKW
  let mseal := s.is KV_CMD.MSEAL
  match s.get KV_CMD.OP with
  | 1 =>
    if s.is KV_CMD.WRAPPED then
      let ok := s.freeBit
      ok.2.loadKey sess slot type use lockw mseal (some (s.get KV_CMD.WRAP_SLOT)) ok.1
    else s.loadKey sess slot type use lockw mseal none true
  | 2 =>
    let a := s.freeBit
    let b := a.2.freeBit
    let c := b.2.freeBit
    c.2.loadCert sess slot a.1 b.1 c.1
  | 3 => s.generate sess slot type use lockw mseal
  | 4 => s.kvErase sess slot
  | 5 => let r := s.freeBit; r.2.derive sess r.1
  | _ => s

/-- KV. -/
def State.actKv (s : State) (w : Wr) (f : Field) : State :=
  if f = KV_STAGE_DATA.DATA then s.stageWrite w.sess (w.val f) else s.when (w.one f) fun t => t.kvGo w.sess

/-- EVR: `CLR_TO` (R445), and the window and the search of the session (R444, R448, R449). Whether a record passes its check is free. -/
def State.actEvr (s : State) (w : Wr) (f : Field) : State :=
  let v := w.val f
  let x := s.ses w.sess
  let own := fun (y : Ses) => if w.sess < 8 then s.setSes w.sess y else s
  if f = EVR_CLR.CLR_TO then s.logClear w.sess v
  else if f = EVR_RD_CTRL.LOG then own { x with win := { x.win with log := v } }
  else if f = EVR_RD_CTRL.AUTO then own { x with win := { x.win with auto := v == 1 } }
  else if f = EVR_RD_SEQ.SEQ then (if w.sess < 8 then (let r := s.freeBit; r.2.windowLoad w.sess v r.1) else s)
  else if f = EVR_FIND_CTRL.GO then (if w.sess < 8 ∧ w.one f then s.search w.sess x.find.key x.find.log else s)
  else if f = EVR_FIND_CTRL.KEY then own { x with find := { x.find with key := v } }
  else if f = EVR_FIND_CTRL.LOG then own { x with find := { x.find with log := v } }
  else if f = EVR_FIND_LO.TARGET then own { x with find := { x.find with lo := v } }
  else own { x with find := { x.find with hi := v } }

/-- UPD: flash, reload, switch, package and recalibration, with the verdicts of signatures free. -/
def State.actUpd (s : State) (w : Wr) (f : Field) : State :=
  let v := w.val f
  if f = UPD_FL_DATA.DATA then s.flData (BitVec.ofNat 32 v)
  else if f = UPD_FL_CMD.ERASE then s.when (w.one f) State.flErase
  else if f = UPD_SECT_CMD.GO then s.when (w.one f) fun t =>
    let r := t.freeBit
    r.2.sectReload (t.get UPD_SECT_CMD.SECT) (t.get UPD_SECT_CMD.BANK) (t.is UPD_SECT_CMD.AT_STAMP) r.1
  else if f = UPD_FW_CMD.GO then s.when (w.one f) fun t => let r := t.freeBit; r.2.fwSwitch (t.get UPD_FW_CMD.UNIT) r.1
  else if f = UPD_PKG_DATA.DATA then s.pkgData (BitVec.ofNat 32 v)
  else if f = UPD_PKG_CMD.GO then s.when (w.one f) fun t =>
    let a := t.free 2
    let b := a.2.freeBit
    let c := b.2.freeBit
    c.2.pkgSubmit w.sess a.1 b.1 c.1
  else s.recalibrate v

/-- SAF: the request and the clear of Safe-Off (R456, R462); in one write the request comes first (R469). -/
def State.actSaf (s : State) (w : Wr) (f : Field) : State :=
  if f = SAF_CMD.SO_REQ then
    s.when (w.one f) fun t => ((t.log 0x120D NOTICE).reqSafeOff 10 0x120D).when (w.one SAF_CMD.CLR) State.safClear
  else s.when (w.one f && !w.one SAF_CMD.SO_REQ) State.safClear

/-- TMX: a selection (R523). -/
def State.actTmx (s : State) (w : Wr) (f : Field) : State :=
  s.tmxSelect w.sess (if f = TMX_SEL_A.SEL then w.i f else 2 + w.i f) (w.val f)

/-- The fields whose write does more than set them, by block. -/
def actFields : Nat → List Field
  | 0 => [SYS_ROLE_CMD.APPLY, SYS_RST_CMD.SOFT, SYS_TIME_CFG.TSRC, SYS_MGMT_CFG.ADM_ANCHOR, SYS_MGMT_CFG.OPR_ANCHOR, SYS_MGMT_CFG.OBS_ANCHOR,
         SYS_NET_CFG.ETH_EN, SYS_NET_CFG.DHCP, SYS_NET_IP4.ADDR]
  | 1 => [PWR_STATE.CMD, PWR_HOLDUP.TEST, PWR_HOLDUP.HOLDUP_ENF, PWR_DOM_RST.RST, PWR_AUX_CTRL.LOOP, PWR_AUX_CTRL.SYNC_EN, PWR_AUX_CTRL.BURST_EN,
         PWR_AUX_CTRL.EN, PWR_AUX_STAT.FB_FAULT]
  | 2 => [TB_OFS_CTRL.COMMIT]
  | 3 => [PE_PH_CFG.GRP, PE_PH_CFG.EN, PE_GRP_CTRL.EN, PE_DIAG.DIAG_EN]
  | 4 => [LE_CTRL.SRATE, LE_L_CTRL.MODE, LE_L_CTRL.EN, LE_L_CTRL.GT_COMMIT, LE_INJ_CTRL.EN, LE_CAP_CTRL.ARM, LE_FF_CTRL.SWAP, LE_FF_DATA.DATA]
  | 5 => [SL_LIMDYN.LIM_DYN]
  | 6 => [FAB_WAKE.WAKE_TX]
  | 7 => [PLC_CTRL.EN]
  | 8 => [MET_SEAL.SET, MET_SEAL.CONFIRM, MET_SNAP.SNAP, MET_SNAP_STAMP_HI.STAMP, MET_PT_CTRL.PEAK_CLR, MET_PUL_CFG.PT, MET_PUL_CFG.QTY, MET_PUL_CFG.EN, MET_PUL_WT.WT]
  | 9 => [BIL_CLK_CMD.REBASE, BIL_PER_CMD.CLOSE, BIL_CAL_CTRL.ACTIVATE, BIL_TMP.TMP_ACK, BIL_SESS_ACK.ACK_NUM, BIL_CAL_DATA.DATA,
          BIL_TR_ADDR.PT, BIL_TR_ADDR.RATE]
  | 10 => [VS_CONN_AUTH.AUTH, VS_CONN_CMD.STOP, VS_CONN_CMD.CLR]
  | 11 => [TH_ZONE_CFG.EN, TH_ZONE_RST.CLR, TH_TS_CFG.TYPE]
  | 12 => [CS_UNIT_BAL.SEND]
  | 13 => [LSW_CH_CTRL.ON, LSW_CH_CTRL.CLR]
  | 14 => [CAN_CTRL.EN, CAN_CTRL.RECOVER, CAN_CTRL.UNLOCK, CAN_CTRL.INIT, CAN_BUF_CTRL.ABORT, CAN_BUF_CTRL.TXREQ]
  | 15 => [KV_STAGE_DATA.DATA, KV_CMD.GO]
  | 16 => [EVR_CLR.CLR_TO, EVR_RD_CTRL.LOG, EVR_RD_CTRL.AUTO, EVR_RD_SEQ.SEQ, EVR_FIND_CTRL.KEY, EVR_FIND_CTRL.LOG, EVR_FIND_LO.TARGET,
           EVR_FIND_HI.TARGET, EVR_FIND_CTRL.GO]
  | 17 => [UPD_FL_DATA.DATA, UPD_FL_CMD.ERASE, UPD_SECT_CMD.GO, UPD_FW_CMD.GO, UPD_PKG_DATA.DATA, UPD_PKG_CMD.GO, UPD_RECAL.REQ]
  | 18 => [SAF_CMD.SO_REQ, SAF_CMD.CLR]
  | 19 => [TMX_SEL_A.SEL, TMX_SEL_D.SEL]
  | _ => []

/-- What such a field does. -/
def State.act (s : State) (w : Wr) (f : Field) : State :=
  match w.a / 0x10000 with
  | 0 => s.actSys w f | 1 => s.actPwr w f | 2 => s.actTb w f | 3 => s.actPe w f | 4 => s.actLe w f
  | 5 => s.limDynWrite (w.val f)
  | 6 => s.wakeTx (w.val f)
  | 7 => let t := s.plcEnable (w.one f); if w.one f && t.runs 9 then t.setReady 5 else t
  | 8 => s.actMet w f | 9 => s.actBil w f | 10 => s.actVs w f | 11 => s.actTh w f
  | 12 => s.when (w.one f) fun t => t.balSend (w.i f)
  | 13 => s.actLsw w f | 14 => s.actCan w f | 15 => s.actKv w f | 16 => s.actEvr w f | 17 => s.actUpd w f
  | 18 => s.actSaf w f | 19 => s.actTmx w f
  | _ => s

/-! ### The write -/

/-- A field is set, or cleared where 1 is written to a W1C bit; a WO field with no action of its own keeps nothing (R10). -/
def State.setField (s : State) (w : Wr) (f : Field) : State :=
  let old := s.word w.a
  match f.acc with
  | .rw | .rwa | .rws => s.setWord w.a ((old &&& ~~~f.mask) ||| (w.req &&& f.mask))
  | .w1c => s.setWord w.a (old &&& ~~~(w.req &&& f.mask))
  | _ => s

/-- What follows from a changed word: the owners and D1's copies of connector fields (R387, R455), what `TMX_STAT`, `BIL_REC_STAT` and
`MET_STAT` show, GDEN after a change of the gate-driver supplies. -/
def State.afterWrite (s : State) (a : Nat) : State :=
  match a / 0x10000 with
  | 1 => if PWR_AUX_CTRL.EN.covers a then s.gden else s
  | 2 => if TB_CTRL.SRC_EN.covers a then s.srcCheck else s
  | 3 => if PE_GRP_CTRL.LOOP.covers a then (s.each 8 fun g t => t.demTake g).consShow
         else if PE_GRP_FLOOR.P_FLOOR.covers a then s.floorShow
         else if PE_GRP_DEM_MAN.DEM_MAN.covers a then s.each 8 fun g t => t.demTake g else s
  | 4 => if LE_L_DEST.LSW_CH.covers a then s.lswPins.lswUnnamed.consShow
         else if LE_L_R_TGT.R_TGT.covers a then s.slewShow ((a - LE_L_R_TGT.R_TGT.addr) / LE_L_R_TGT.R_TGT.s1) else s
  | 5 => if SL_FLOOR.FLOOR.covers a then s.floorShow else s
  | 6 => if FAB_CTRL.LANE_EN.covers a then s.lanesOff.plcFabOff else s
  | 8 => s.metShow
  | 9 => if a = BIL_REC_ADDR.KIND.addr then s.recShow else s
  | 10 => if VS_CONN_CFG.GRP.covers a || VS_CONN_SEQ.I_RAMP.covers a then s.safCopy.lswOwners else s
  | 11 => if TH_CC_CFG.EN.covers a then s.lswOwners else s
  | 16 => if a = EVR_CFG.MOR_WARN.addr then s.moraineWarn else s
  | 19 => s.tmxShow
  | _ => s

/-- The fields of a word that are written: sealed ones first, then those that are only set, then those that do more. -/
def State.regWrite (s : State) (w : Wr) : State :=
  let fs := (fieldsAt w.a).filter w.hits
  let sealedMask := fs.foldl (fun m f => if f.acc = .rws then m ||| f.mask else m) 0
  let acts := (actFields (w.a / 0x10000)).filter fun f => fs.contains f
  let s1 := if sealedMask = 0 then s else s.sealedWrite w.a sealedMask w.req false
  let plain := fs.filter fun f => decide (f.acc ≠ .rws) && !acts.contains f
  let s2 := plain.foldl (fun (t : State) f => if s.takes w f then t.setField w f else t.refusedValue w f) s1
  let s3 := acts.foldl (fun (t : State) f => if t.takes w f then t.act w f else t.refusedValue w f) s2
  s3.afterWrite w.a

/-- One masked write of a session of a level (R11, R505, R507): the status of the entry, and the state. Bits that the mask does not cover
keep what the word reads now, which of a window is what stands behind it. A test selection that the level
refuses leaves its `STATUS` and event all the same (R523). -/
def State.accessWrite (s : State) (sess lvl a : Nat) (val mask : Word) : Nat × State :=
  if a % 4 ≠ 0 ∨ fieldsAt a = [] then (1, s)
  else if s.wordStatus a ≠ 0 then (s.wordStatus a, s)
  else
    let fs := (fieldsAt a).filter fun f => decide (f.acc ≠ .ro) && mask &&& f.mask != 0
    let keep := (s.liveWord sess a &&& ~~~mask) ||| (val &&& mask)
    let req := fs.foldl (fun r f => r ||| ((if f.acc = .w1c ∨ f.acc = .wo then val &&& mask else keep) &&& f.mask)) (0#32)
    let code := fun (f : Field) => s.fieldStatus lvl f a
    let held := fun (f : Field) => code f == 0 && s.reserveHolds f a req
    let okMask := fs.foldl (fun m f => if code f = 0 ∧ !held f then m ||| f.mask else m) (0#32)
    let st := if fs.any fun f => code f == 2 || held f then 2 else if fs.any fun f => code f == 3 then 3 else 0
    let s0 := if fs.any held then s.reserveRefused a else s
    let tmx := if a / 0x10000 = 19 then fs.filter fun f => decide (code f ≠ 0) && (actFields 19).contains f else []
    let s1 := tmx.foldl (fun (t : State) f => t.actTmx { sess, lvl, a, am := f.mask, req } f) s0
    (st, if okMask = 0 then s1 else s1.regWrite { sess, lvl, a, am := okMask, req })

end Sys2Proof.Machine
end

