-- ==== Sys2Proof/Machine/ReadOps.lean ====
section
/-! DEFINITION. A register read (R6 to R8, R16, R507): the capture of a quantity of several words, and what a read does. -/

namespace Sys2Proof.Machine

open R

/-! ### Capture (R8) -/

/-- The lowest words of the quantities that a read captures, with the number of their higher words. R8 does not say whether a bit map over several
words (`PE_PH_ACT0` to `2`, `PE_PH_TRIP0` to `2`, `LE_RUN0`, `1`, `LE_HOLD0`, `1`) or the 32-byte identifier `VS_CONN_ID` is one quantity: here
each of their words reads as it stands (DESIGN CHOICE, log 86). -/
def captLows : List (Field × Nat) :=
  [(SYS_SERIAL_LO.SERIAL, 1), (TB_STAMP_LO.STAMP, 1), (TB_LAST_STAMP_LO.LAST, 1), (TB_COMMIT_LO.STAMP, 1), (TB_API_CAP_LO.STAMP, 2),
   (TB_KEEP_LO.STAMP, 1), (LE_INJ_STAMP_LO.STAMP, 1), (LE_CAP_STAMP_LO.STAMP, 1), (LE_CAP_TSTAMP_LO.TSTAMP, 1),
   (FAB_ROOT_SER_LO.SERIAL, 1), (FAB_LANE_NBR_LO.SERIAL, 1), (PLC_COORD_SER_LO.SERIAL, 1), (MET_SNAP_STAMP_LO.STAMP, 1),
   (MET_PT_SNAP_TS_LO.STAMP, 1), (MET_PT_FINE_F_LO.W, 2), (MET_PT_FINE_R_LO.W, 2), (MET_PT_WH_F_LO.W, 1), (MET_PT_WH_R_LO.W, 1),
   (MET_PT_DISP_F_LO.W, 1), (MET_PT_DISP_R_LO.W, 1), (MET_PT_MWH_F_LO.W, 1), (MET_PT_MWH_R_LO.W, 1), (MET_PT_LOSS_LO.W, 1),
   (MET_PT_AH_F_LO.W, 1), (MET_PT_AH_R_LO.W, 1), (CS_SWEEP_STAMP_LO.STAMP, 1), (CS_UNIT_SER_LO.SER_LO, 1),
   (UPD_SECT_STAMP_LO.STAMP, 1), (EVR_FIND_LO.TARGET, 1)]

/-- How many higher words a read of a word captures. -/
def captCount (a : Nat) : Nat := match captLows.find? fun p => p.1.covers a with | some p => p.2 | none => 0

/-- The key of a captured word; the search registers are each session's own. -/
def captKey (sess a : Nat) : Nat := if a / 0x10000 = 16 then a + 0x2000000 * (sess + 1) else a

/-- An energy register or the snapshot stamp of a point whose snapshot is held: its words are read under R266, from the snapshot and not
from an earlier capture. -/
def State.snapHolds (s : State) (a : Nat) : Bool :=
  decide (0x81000 ≤ a) && decide (a < 0x81800) && decide (0x50 ≤ a % 0x100) && (s.pt ((a - 0x81000) / 0x100)).snap.isSome

/-- Keeps one captured word. -/
def State.keepWord (s : State) (k : Nat) (w : Word) : State := { s with capt := (k, w) :: eraseKey k s.capt }

/-- A read of the lowest word captures the higher ones. -/
def State.capture (s : State) (sess a : Nat) : State :=
  (List.range (captCount a)).foldl (fun (t : State) i =>
    let b := a + 4 * (i + 1)
    t.keepWord (captKey sess b) (s.liveWord sess b)) s

/-! ### What a read does -/

/-- The capture's index counts up, and the channel at its wrap. -/
def State.capStep (s : State) : State :=
  let v := s.get LE_CAP_ADDR.INDEX + 1
  if v < 2 ^ LE_CAP_ADDR.INDEX.w then s.put LE_CAP_ADDR.INDEX v
  else (s.put LE_CAP_ADDR.INDEX 0).put LE_CAP_ADDR.CH ((s.get LE_CAP_ADDR.CH + 1) % 2 ^ LE_CAP_ADDR.CH.w)

/-- The roster's word counts up, and the index at its wrap. -/
def State.rosterStep (s : State) : State :=
  let v := s.get SL_ROSTER_ADDR.WORD + 1
  if v < 2 ^ SL_ROSTER_ADDR.WORD.w then s.put SL_ROSTER_ADDR.WORD v
  else (s.put SL_ROSTER_ADDR.WORD 0).put SL_ROSTER_ADDR.INDEX ((s.get SL_ROSTER_ADDR.INDEX + 1) % 2 ^ SL_ROSTER_ADDR.INDEX.w)

/-- A read of a receive buffer's word (R408). -/
def State.mbRead (s : State) (a : Nat) : State :=
  if CAN_MB.WORD.covers a then
    let i := (a - 0xE1000) / 128
    s.canRead (i / 64) (i % 64) ((a - 0xE1000) % 128 / 4)
  else s

/-- What the read of a word does beside answering it: windows that count on, a receive buffer's lock, the next record of a session's
read window. Whether that record passes its check is free. -/
def State.readEffect (s : State) (sess a : Nat) : State :=
  match a with
  | 0x40330 => s.capStep
  | 0x40408 => s.put LE_FF_ADDR.INDEX (s.get LE_FF_ADDR.INDEX + 1)
  | 0x50104 => s.rosterStep
  | 0x90040 => s.put BIL_CAL_ADDR.INDEX (s.get BIL_CAL_ADDR.INDEX + 1)
  | 0x90114 => (s.put BIL_REC_ADDR.WORD (s.get BIL_REC_ADDR.WORD + 1)).recShow
  | 0x90204 =>
    let p := s.get BIL_TR_ADDR.PT
    let r := s.get BIL_TR_ADDR.RATE
    let w := s.get BIL_TR_ADDR.WORD
    let t := if w = 0 then (List.range 12).foldl (fun (t : State) i => t.keepWord (trKey i) (BitVec.ofNat 32 (s.trWord p r i))) s else s
    t.put BIL_TR_ADDR.WORD (w + 1)
  | 0xB0010 => s.put TH_SD_ADDR.WORD (s.get TH_SD_ADDR.WORD + 1)
  | 0xF0030 => s.put KV_PUB_ADDR.INDEX (s.get KV_PUB_ADDR.INDEX + 1)
  | 0x10006C => if sess < 8 then (let r := s.freeBit; r.2.windowNext sess r.1) else s
  | _ => if a / 0x10000 = 14 then s.mbRead a else s

/-- One read of a session (R6, R8, R16, R507): the status of the entry, the value, and the state. A higher word whose lowest word has captured
nothing reads as it stands (DESIGN CHOICE, log 86). -/
def State.accessRead (s : State) (sess a : Nat) : Nat × Word × State :=
  if a % 4 ≠ 0 ∨ fieldsAt a = [] then (1, 0, s)
  else if s.offInRole (a / 0x10000) then (0, resetWord a &&& ~~~woMask a, s)
  else if !s.wordRuns a then (5, 0, s)
  else
    let v := if s.snapHolds a then s.liveWord sess a else (lookupKey (captKey sess a) s.capt).getD (s.liveWord sess a)
    (0, v, (s.capture sess a).readEffect sess a)

end Sys2Proof.Machine
end

