-- ==== Sys2Proof/Machine/Update.lean ====
section
/-! DEFINITION. What each command of the update manager does (spec/21_updates_service_life.md). -/

namespace Sys2Proof.Machine

open R

/-! ### The flash (R472) -/

/-- Runs a write of the flash registers, which take an ADMIN session (R472). -/
def State.flGuard (s : State) (sess a : Nat) (g : State → State) : State :=
  if s.wordStatus a ≠ 0 then s.report sess (s.wordStatus a) else if s.level sess = 3 then g s else s.report sess 2

/-- FLASH_PROGRAM (R472): the session and the word. -/
def execFlashProgram (sess w : Nat) (s : State) : Host.Outcome State Fault Refusal :=
  .next <| s.flGuard sess UPD_FL_DATA.DATA.addr fun t => t.flData (BitVec.ofNat 32 w)

/-- FLASH_ERASE (R472). -/
def execFlashErase (sess : Nat) (s : State) : Host.Outcome State Fault Refusal :=
  .next <| s.flGuard sess UPD_FL_CMD.ERASE.addr State.flErase

/-- FLASH_DONE (R472): whether the operation ends without a flash error. -/
def execFlashDone (ok : Bool) (s : State) : Host.Outcome State Fault Refusal := .next <| if s.runs 3 then s.flDone ok else s

/-! ### Firmware (R475 to R477) -/

/-- FIRMWARE_SWITCH (R475, R476): the session, the unit, and whether the signature of its passive bank verifies. -/
def execFirmwareSwitch (sess u : Nat) (verified : Bool) (s : State) : Host.Outcome State Fault Refusal :=
  .next <| s.guarded sess UPD_FW_CMD.GO fun t => t.fwSwitch (u % 8) verified

/-- The switch of unit 1 has ended: `STATUS` of a switch that `UPD_FW_CMD` began. -/
def State.metFwEnd (s : State) (st : Nat) : State :=
  if s.get UPD_STAT.OP = 2 then (s.put UPD_FW_CMD.STATUS st).updEnd else s

/-- METROLOGY_FIRMWARE_SWITCH (R476, R493): the ms since the BT tick, the ms since the switch was accepted, and whether the subsystems of the
unit are ready within 100 ms on the new bank. A switch accepted less than 550 ms before the next tick waits for the following one. -/
def execMetrologyFirmwareSwitch (ms waited : Nat) (ready : Bool) (s : State) : Host.Outcome State Fault Refusal :=
  .next <|
    if s.updN.unit1 && ms == 500 && decide (50 ≤ waited) then
      let old := s.fwBank 1
      let s1 := (s.metFwTake (1 - old)).metFwEnd 2
      let s2 := { s1 with updN := { s1.updN with unit1 := false } }
      if ready then s2.minsecRaise 1 else s2.switchNote 1 old
    else s

/-- The second restart of a unit, done as the first (R477): on its previous bank, by a DOMAIN reset with its event 0x0107. -/
def State.fwBack (s : State) (u old : Nat) (o : BootObs) : State :=
  let doms := withDependants (2 ^ unitDomain u)
  if u = 1 then s.metFwTake old else ((s.fwName u old).warmReset 7 doms o).log 0x0107 NOTICE (leBytes 2 doms)

/-- FIRMWARE_REVERT (R477): the unit, the ms since its restart, and what the second restart finds. -/
def execFirmwareRevert (u ms : Nat) (o : BootObs) (s : State) : Host.Outcome State Fault Refusal :=
  .next <|
    match s.switchOf u with
    | some old =>
      if s.boot.kind = 0 ∧ (if u = 1 then 100 else 1000) ≤ ms then
        if u ≠ 1 ∧ s.unitIsReady u then s.switchDrop u
        else (((s.switchDrop u).fwBack u old o).put UPD_FW_CMD.STATUS 3).log 0x1105 FAULT [u]
      else s
    | none => s

/-! ### Section reload (R482, R483) -/

/-- SECTION_RELOAD (R482): the session, `SECT`, `BANK` and `AT_STAMP` as written with `GO`, and whether the section's signature verifies. -/
def execSectionReload (sess sect bank : Nat) (atStamp verified : Bool) (s : State) : Host.Outcome State Fault Refusal :=
  .next <| s.guarded sess UPD_SECT_CMD.GO fun t => t.sectReload (sect % 256) (bank % 2) atStamp verified

/-- The entries of a section in ascending address order, those of one address in the section's order. -/
def sortEntries (l : List Entry) : List Entry :=
  l.foldr (fun (x : Entry) (t : List Entry) => (t.takeWhile fun (y : Entry) => decide (y.1 < x.1)) ++ x ::
    (t.dropWhile fun (y : Entry) => decide (y.1 < x.1))) []

/-- The RO bits of class C of a word: only an image sets them. -/
def roMask (a : Nat) : Word := (fieldsAt a).foldl (fun m f => if f.acc = .ro ∧ f.cls = .C then m ||| f.mask else m) 0

/-- One entry of a reload as a write of an ADMIN session (R482): whether it is refused, and the state. -/
def State.entryWrite (s : State) (x : Entry) : Bool × State :=
  let m := BitVec.ofNat 32 x.2.2
  let v := BitVec.ofNat 32 x.2.1
  if s.wordStatus x.1 ≠ 0 then (true, s)
  else
    let raw := m &&& roMask x.1
    let s1 := if raw = 0 then s else (s.entryRaw (x.1, x.2.1, raw.toNat)).afterWrite x.1
    let rest := m &&& ~~~roMask x.1
    if rest = 0 then (false, s1)
    else
      let r := s1.accessWrite 8 3 x.1 v rest
      let kept := if x.1 = LE_FF_DATA.DATA.addr then r.2.get LE_FF_ADDR.INDEX == s1.get LE_FF_ADDR.INDEX
        else (r.2.word x.1 ^^^ v) &&& rest != 0
      (decide (r.1 ≠ 0) || kept, r.2)

/-- One entry is applied and counted. -/
def State.entryApply (s : State) (x : Entry) : State :=
  let r := s.entryWrite x
  if r.1 then
    let n := r.2.get UPD_SECT_RES.REFUSED
    (if n = 0 then r.2.put UPD_SECT_REF.FIRST_REF x.1 else r.2).put UPD_SECT_RES.REFUSED (n + 1)
  else r.2.inc UPD_SECT_RES.APPLIED

/-- Section 0x14 (R483): `ROLE_CFG` at once; the other fields with the next apply. -/
def State.roleReload (s : State) (l : List Entry) : State :=
  let w := l.foldl (fun (v : Word) (x : Entry) =>
    let m := BitVec.ofNat 32 x.2.2
    (v &&& ~~~m) ||| (BitVec.ofNat 32 x.2.1 &&& m)) s.roleNext
  let s1 := s.put SYS_ROLE.ROLE_CFG (w.toNat % 16)
  { s1 with updN := { s1.updN with role := some w } }.put UPD_SECT_RES.APPLIED l.length

/-- Section 0x15 (R483): the site part, with the roster as a whole, and its digest. -/
def State.siteReload (s : State) (dig : Nat) (l : List Entry) : State :=
  ((((sortEntries l).filter plainEntry).foldl State.entryApply s).imageRoster l).siteDigest dig |>.inc UPD_SECT_RES.APPLIED 0 0
    (l.filter fun (x : Entry) => !plainEntry x).length

/-- The entries of the reload are applied (R482). -/
def State.sectApply (s : State) (r : Reload) : State :=
  let l := r.entries
  let s0 := { s with upd := { s.upd with reload := none } }
  let s1 := if r.sect = 0x14 then s0.roleReload l else if r.sect = 0x15 then s0.siteReload r.dig l
    else (sortEntries l).foldl State.entryApply s0
  let n := s1.get UPD_SECT_RES.REFUSED
  (((s1.put UPD_SECT_CMD.STATUS (if n = 0 then 2 else 3)).put UPD_STAT.MIXED 1).updEnd).log 0x1101 NOTICE ([r.sect, 0] ++ leBytes 2 n)

/-- The fields of Metrology and Billing that a PIN reset has changed are applied (R80, R483). -/
def State.pinApply (s : State) : State :=
  let ch := s.boot.d2
  let s1 := { ch.foldl (fun (t : State) (p : Nat × Word) =>
    t.setWord p.1 ((t.word p.1 &&& ~~~classMask p.1) ||| (p.2 &&& classMask p.1))) s with boot := { s.boot with d2 := [] } }
  let note := fun (b : Nat) (t : State) =>
    if ch.any fun (p : Nat × Word) => p.1 / 0x10000 == b then t.log 0x1101 NOTICE [b, 0, 0, 0] else t
  note 9 (note 8 s1)

/-- SECTION_APPLY (R482, R483): at an angle 0, after the offset commits that are due there (R101). -/
def execSectionApply (s : State) : Host.Outcome State Fault Refusal :=
  let s1 := if !s.boot.d2.isEmpty && decide (s.boot.d2At ≤ s.keeper) && s.runs 2 then s.pinApply else s
  .next <|
    match s1.upd.reload with
    | some r => if s1.runs 3 ∧ r.target ≤ s1.stamp ∧ !s1.laWaits then s1.sectApply r else s1
    | none => s1

/-! ### Signed packages (R484 to R487) -/

/-- PACKAGE_SUBMIT (R485): the session, the key type of the authority as in R298, whether the package's signature verifies, and whether the
passive bank of unit 1 does. -/
def execPackageSubmit (sess alg : Nat) (verified fwVerified : Bool) (s : State) : Host.Outcome State Fault Refusal :=
  .next <| s.guarded sess UPD_PKG_CMD.GO fun t => t.pkgSubmit sess alg verified fwVerified

/-- PACKAGE_APPLY (R486, R487): at a tick; `BILLING_TICK` applies a package that is due in the same way. -/
def execPackageApply (s : State) : Host.Outcome State Fault Refusal := .next <| if s.runs 2 && s.pkgDue then s.pkgApply.sealedTick else s

/-! ### Recalibration (R488) -/

/-- RECALIBRATION (R488): the session and `REQ`. -/
def execRecalibration (sess req : Nat) (s : State) : Host.Outcome State Fault Refusal :=
  .next <| s.guarded sess UPD_RECAL.REQ fun t => t.recalibrate (req % 64)

/-- RECALIBRATION_DONE (R488): the items that fail, in the bit order of `SYS_CAL_STAT`. -/
def execRecalibrationDone (fails : Nat) (s : State) : Host.Outcome State Fault Refusal :=
  .next <| if s.runs 3 then s.recalDone fails else s

end Sys2Proof.Machine
end

