-- ==== Sys2Proof/Machine/Mgmt.lean ====
section
/-! DEFINITION. What each command of management does (spec/22_management_map.md): sessions, Coansyn messages, UTC. -/

namespace Sys2Proof.Machine

open R

/-- REGISTER_WRITE (R11): the session, the address, the value and the mask of the bits to write. -/
def execRegisterWrite (sess a val mask : Nat) (s : State) : Host.Outcome State Fault Refusal :=
  let r := s.accessWrite sess (s.level sess) a (BitVec.ofNat 32 val) (BitVec.ofNat 32 mask)
  .next (r.2.report sess r.1)

/-! ### The gateway (R495 to R497) -/

/-- The agent can be reached on ETH0. -/
def State.ethRuns (s : State) : Bool := s.runs 3 && s.runs 9 && s.is SYS_NET_CFG.ETH_EN

/-- The address of the management agent, endpoint 0x001. -/
def State.agentSrc (s : State) : Nat := 2048 * s.get FAB_STAT.NODE_ID + 1

/-- A frame of the management agent enters the injection queue; its sequence number, on which the payload may depend, is free (R173, R176):
`room` urgent frames may be injected at once. -/
def State.agentFrame (s : State) (ty urg dst room : Nat) (pay : Nat → List Nat) : State :=
  let r := s.free 16
  let f : FabFrame := { dn := 0, ty, vc := 0, urg, epo := s.get FAB_STAT.EPOCH % 2, hops := 0, dst
                        src := s.agentSrc, seq := r.1, pay := pay r.1 }
  { r.2 with fab := { r.2.fab with inject := r.2.fab.inject ++ [f] } }.injectAll room

/-- The first 16-bit tag at or after a value that no relay entry holds. -/
def State.relayTag (s : State) (r : Nat) : Nat :=
  (((List.range 65).map fun i => (r + i) % 65536).find? fun t => !(s.mg.relays.any fun e => e.tag == t)).getD r

/-- The error reply of a gateway without DTLS (R497). -/
def State.relayError (s : State) (ip port node code : Nat) : State := s.emit .gatewayError ip [port, node, code]

/-- The first reason of R497 not to relay a datagram of `len` bytes after its envelope; 0 for none. -/
def State.relayRefusal (s : State) (known : Bool) (len : Nat) : Nat :=
  let st := s.get FAB_STAT.STATE
  if !s.is SYS_NET_CFG.RELAY_EN then 1
  else if st ≠ 4 ∧ st ≠ 5 then 2
  else if 510 < len + 2 then 3
  else if !known && decide (64 ≤ s.mg.relays.length) then 4
  else 0

/-- GATEWAY_RELAY (R497). Without a tag: a datagram of a client (address and port) that names another node, with the bytes after its
envelope. With a tag: an answer of a node that arrives at endpoint 0x001. -/
def execGatewayRelay (ip port node : Nat) (tag : Option Nat) (bytes : List Nat) (s : State) : Host.Outcome State Fault Refusal :=
  .next <|
    match tag with
    | none =>
      if !s.ethRuns ∨ node = 0 ∨ node = s.get FAB_STAT.NODE_ID then s
      else
        let old := s.mg.relays.find? fun e => e.ip == ip && e.port == port && e.node == node
        match s.relayRefusal old.isSome bytes.length with
        | 0 =>
          match old with
          | some e => s.agentFrame 1 0 (2048 * node + 1) 0 fun _ => (leBytes 2 e.tag ++ bytes)
          | none =>
            let r := s.free 16
            let t := r.2.relayTag r.1
            let s1 := { r.2 with mg := { r.2.mg with relays := r.2.mg.relays ++ [({ ip, port, node, tag := t } : Relay)] } }.sessShow
            s1.agentFrame 1 0 (2048 * node + 1) 0 fun _ => (leBytes 2 t ++ bytes)
        | c => s.relayError ip port node c
    | some t =>
      match s.mg.relays.find? fun e => e.tag == t && e.node == node with
      | some e => if s.ethRuns then s.emit .relay e.ip ([e.port, 1, 0] ++ leBytes 2 node ++ [0, 0, 0, 0] ++ bytes) else s
      | none => s

/-- RELAY_ENTRY_EXPIRY (R497): the entry's tag and the seconds without traffic. -/
def execRelayEntryExpiry (tag secs : Nat) (s : State) : Host.Outcome State Fault Refusal :=
  .next <|
    if s.runs 3 && decide (120 ≤ secs) then
      { s with mg := { s.mg with relays := s.mg.relays.filter fun e => e.tag != tag } }.sessShow
    else s

/-! ### Sessions (R499 to R502) -/

/-- An anchor field grants its level to a chain that its key verifies (R500). -/
def State.anchorGrants (s : State) (f : Field) (verified : Bool) : Bool :=
  verified && (if s.get f = 0x3F then f == SYS_MGMT_CFG.ADM_ANCHOR else s.slotAnchor (s.get f))

/-- The level that a chain earns with the anchor field that grants it, the first of R500. -/
def State.chainLevel (s : State) (adm opr obs : Bool) : Option (Nat × Field) :=
  if s.anchorGrants SYS_MGMT_CFG.ADM_ANCHOR adm then some (3, SYS_MGMT_CFG.ADM_ANCHOR)
  else if s.anchorGrants SYS_MGMT_CFG.OPR_ANCHOR opr then some (2, SYS_MGMT_CFG.OPR_ANCHOR)
  else if s.anchorGrants SYS_MGMT_CFG.OBS_ANCHOR obs then some (1, SYS_MGMT_CFG.OBS_ANCHOR)
  else none

/-- A handshake is refused (R499, R500, R502): its entry of the table is free again. -/
def State.shakeRefused (s : State) (i reason : Nat) : State :=
  let s1 := if s.get SYS_SESS.STATE i = 1 then s.sessClear i else s
  (s1.inc SYS_MGMT_STAT.REFUSED).log 0x0022 WARNING [reason]

/-- The table entry of a client. -/
def State.sessEntry (s : State) (i st level : Nat) (gateway : Option Nat) : State :=
  ((((s.put SYS_SESS.STATE st i).put SYS_SESS.LEVEL level i).putb SYS_SESS.VIA gateway.isSome i).put SYS_SESS.PEER (gateway.getD 0) i).put
    SYS_SESS.N_SUB 0 i

/-- A session opens with none of a former session's state (R501): events 0x0020 and, while the RTC is not set, 0x0025. -/
def State.sessOpen (s : State) (i level : Nat) (f : Field) (gateway : Option Nat) : State :=
  let s1 := (s.sessEntry i 2 level gateway).setSes i { anchor := s.get f }
  let s2 := { s1 with capt := s1.capt.filter fun (p : Nat × Word) => p.1 / 0x2000000 != i + 1 }.sessShow
  let s3 := s2.log 0x0020 INFO ([i, level, if gateway.isSome then 1 else 0, 0] ++ leBytes 2 (gateway.getD 0))
  if s.is SYS_TIME_STAT.RTC_SET then s3 else s3.log 0x0025 WARNING

/-- The slots that a handshake uses are checked (R419): KS00 and those of the three anchors. -/
def State.shakeCheck (s : State) (bad : List Nat) : State :=
  let used := [0, s.get SYS_MGMT_CFG.ADM_ANCHOR, s.get SYS_MGMT_CFG.OPR_ANCHOR, s.get SYS_MGMT_CFG.OBS_ANCHOR]
  (used.filter bad.contains).foldl (fun (t : State) k => t.slotBad k) s

/-- HANDSHAKE (R499, R500, R502): the entry of the session table that the module gives it, the gateway's node, none on ETH0; whether the
handshake completes now and which slots fail their check at this use (R419), and which of the three anchors verifies the client's chain. Without
the unit identity key of KS00 the vault cannot serve a handshake (DEDUCED, log 142). -/
def execHandshake (i : Nat) (gateway : Option Nat) (complete : ShakeObs) (adm opr obs : Bool) (s : State) : Host.Outcome State Fault Refusal :=
  .next <|
    if 8 ≤ i ∨ !s.runs 3 ∨ !s.runs 9 ∨ (gateway.isNone ∧ !s.is SYS_NET_CFG.ETH_EN) then s
    else if s.get SYS_SESS.STATE i = 2 then
      if (List.range 8).all fun k => s.get SYS_SESS.STATE k != 0 then s.shakeRefused i 2 else s
    else if !s.kvReady then s.shakeRefused i 4
    else if !complete.done then s.sessEntry i 1 0 gateway
    else
      let t := s.shakeCheck complete.bad
      if !t.slotServes 0 0 then t.shakeRefused i 4
      else match t.chainLevel adm opr obs with
        | some (level, f) => t.sessOpen i level f gateway
        | none => t.shakeRefused i 1

/-- HANDSHAKE_TIMEOUT (R499): the entry, and the seconds since its first ClientHello. -/
def execHandshakeTimeout (i secs : Nat) (s : State) : Host.Outcome State Fault Refusal :=
  .next <| if i < 8 ∧ s.runs 3 ∧ s.get SYS_SESS.STATE i = 1 ∧ 10 ≤ secs then s.shakeRefused i 3 else s

/-- SESSION_IDLE_CLOSE (R502): the session, and the seconds without a valid record from its client. -/
def execSessionIdleClose (i secs : Nat) (s : State) : Host.Outcome State Fault Refusal :=
  .next <| if s.level i ≠ 0 ∧ s.runs 3 ∧ max 10 (s.get SYS_MGMT_CFG.IDLE_T) ≤ secs then s.sessClose i 2 else s

/-! ### Messages (R504 to R508) -/

/-- The header of R504. -/
def msgHead (op id len st flags : Nat) : List Nat := [1, op] ++ leBytes 2 id ++ leBytes 2 len ++ [st, flags]

/-- The module sends a message unasked. -/
def State.unasked (s : State) (k : Sent) (sess op : Nat) (body : List Nat) : State := s.emit k sess (msgHead op 0 body.length 0 0 ++ body)

/-- The response to a request, kept with its ID and body (R508). -/
def State.respond (s : State) (sess op id st : Nat) (fixed : Bool) (req body : List Nat) : State :=
  let r := msgHead op id body.length st (if fixed then 3 else 1) ++ body
  let x := s.ses sess
  (s.setSes sess { x with cache := ((id :: req, r) :: x.cache).take 32 }).emit .response sess r

/-- The kept response to a request. -/
def lookupReq (k : List Nat) : List (List Nat × List Nat) → Option (List Nat)
  | [] => none
  | (a, r) :: t => if a = k then some r else lookupReq k t

/-- A message of a client (R506, R508, R518): a request whose ID and body are kept is answered from the cache; else `g` executes it, and a
session that it closes gets no response. -/
def State.message (s : State) (sess op id : Nat) (fixed : Bool) (req : List Nat) (g : State → Nat × List Nat × State) : State :=
  if s.level sess = 0 then s
  else
    match lookupReq (id % 65536 :: req) (s.ses sess).cache with
    | some r => s.emit .response sess (r.set 7 (r.getD 7 0 ||| 4))
    | none =>
      let r := g s
      if r.2.2.level sess = 0 then r.2.2 else r.2.2.respond sess op (id % 65536) r.1 fixed req r.2.1

/-- The most entries of a message: on ETH0, and on the fabric (R505). -/
def State.maxEntries (s : State) (sess eth fab : Nat) : Nat := if s.is SYS_SESS.VIA sess then fab else eth

/-- Reads in the order written; an access after the session has closed is not made (R506, R518). -/
def State.readAll (sess : Nat) : List Nat → State → List (Nat × Word) × State
  | [], s => ([], s)
  | a :: l, s =>
    if s.level sess = 0 then ([], s)
    else
      let r := s.accessRead sess a
      let t := State.readAll sess l r.2.2
      ((r.1, r.2.1) :: t.1, t.2)

/-- Writes in the order written: address, value, mask. -/
def State.writeAll (sess : Nat) : List (Nat × Nat × Nat) → State → List Nat × State
  | [], s => ([], s)
  | e :: l, s =>
    if s.level sess = 0 then ([], s)
    else
      let r := s.accessWrite sess (s.level sess) e.1 (BitVec.ofNat 32 e.2.1) (BitVec.ofNat 32 e.2.2)
      let t := State.writeAll sess l r.2
      (r.1 :: t.1, t.2)

/-- Reads up to the first failing word (R505): its status, and the words done. -/
def State.readBlock (sess : Nat) : List Nat → State → Nat × List Word × State
  | [], s => (0, [], s)
  | a :: l, s =>
    if s.level sess = 0 then (0, [], s)
    else
      let r := s.accessRead sess a
      if r.1 ≠ 0 then (r.1, [], r.2.2)
      else
        let t := State.readBlock sess l r.2.2
        (t.1, r.2.1 :: t.2.1, t.2.2)

/-- Writes up to the first failing word: its status, and the number of words done. -/
def State.writeBlock (sess : Nat) : List (Nat × Nat) → State → Nat × Nat × State
  | [], s => (0, 0, s)
  | e :: l, s =>
    if s.level sess = 0 then (0, 0, s)
    else
      let r := s.accessWrite sess (s.level sess) e.1 (BitVec.ofNat 32 e.2) (BitVec.allOnes 32)
      if r.1 ≠ 0 then (r.1, 0, r.2)
      else
        let t := State.writeBlock sess l r.2
        (t.1, t.2.1 + 1, t.2.2)

/-- The addresses of a block: consecutive, or one fixed address. -/
def blockAddrs (a n : Nat) (fixed : Bool) : List Nat := (List.range n).map fun i => if fixed then a else a + 4 * i

/-- The header status of a message whose entries have statuses of their own: done where each is; the manual does not say what it is
otherwise, and it is free (log 6). -/
def State.headStatus (s : State) (l : List Nat) : Nat × State := if l.all fun c => c == 0 then (0, s) else s.free 8

/-- READ (R505): the session, the request ID and the addresses. -/
def execRead (sess id : Nat) (addrs : List Nat) (s : State) : Host.Outcome State Fault Refusal :=
  .next <| s.message sess 1 id false (addrs.flatMap (leBytes 4)) fun t =>
    if t.maxEntries sess 64 32 < addrs.length then (7, [], t)
    else
      let r := State.readAll sess addrs t
      let h := r.2.headStatus (r.1.map fun p => p.1)
      (h.1, r.1.flatMap fun p => leBytes 4 p.2.toNat ++ [p.1, 0, 0, 0], h.2)

/-- WRITE (R505): the session, the request ID and the entries: address, value, mask. -/
def execWrite (sess id : Nat) (entries : List (Nat × Nat × Nat)) (s : State) : Host.Outcome State Fault Refusal :=
  .next <| s.message sess 2 id false (entries.flatMap fun e => leBytes 4 e.1 ++ leBytes 4 e.2.1 ++ leBytes 4 e.2.2) fun t =>
    if t.maxEntries sess 64 32 < entries.length then (7, [], t)
    else
      let r := State.writeAll sess entries t
      let h := r.2.headStatus r.1
      (h.1, r.1, h.2)

/-- BLOCK_READ (R505): the session, the request ID, the fixed-address flag, the address and the count. -/
def execBlockRead (sess id : Nat) (fixed : Bool) (a n : Nat) (s : State) : Host.Outcome State Fault Refusal :=
  .next <| s.message sess 3 id fixed (leBytes 4 a ++ leBytes 2 n ++ [0, 0]) fun t =>
    if t.maxEntries sess 256 112 < n then (7, [], t)
    else
      let r := State.readBlock sess (blockAddrs a n fixed) t
      (r.1, r.2.1.flatMap fun w => leBytes 4 w.toNat, r.2.2)

/-- BLOCK_WRITE (R505): the session, the request ID, the fixed-address flag, the address and the words. -/
def execBlockWrite (sess id : Nat) (fixed : Bool) (a : Nat) (words : List Nat) (s : State) : Host.Outcome State Fault Refusal :=
  .next <| s.message sess 4 id fixed (leBytes 4 a ++ leBytes 2 words.length ++ [0, 0] ++ words.flatMap (leBytes 4)) fun t =>
    if t.maxEntries sess 256 112 < words.length then (7, leBytes 2 0, t)
    else
      let r := State.writeBlock sess ((blockAddrs a words.length fixed).zip words) t
      (r.1, leBytes 2 r.2.1, r.2.2)

/-- PING (R505). -/
def execPing (sess id : Nat) (s : State) : Host.Outcome State Fault Refusal :=
  .next <| s.message sess 0xF id false [] fun t => (0, [], t)

/-- CLOSE (R502, R505): an empty response and close_notify, or a DTLS alert of the client, which is not answered. -/
def execClose (sess id : Nat) (alert : Bool) (s : State) : Host.Outcome State Fault Refusal :=
  .next <|
    if s.level sess = 0 then s
    else if alert then s.sessClose sess 1
    else ((s.message sess 0x10 id false [] fun t => (0, [], t)).sessClose sess 1).emit .dtls sess [0]

/-! ### Subscriptions and records (R509, R510) -/

/-- The words that a session's subscriptions cover. -/
def subWords (l : List (Nat × Sub)) : Nat := l.foldl (fun n p => n + p.2.count) 0

/-- A session's subscriptions are set, with `N_SUB`. -/
def State.setSubs (s : State) (sess : Nat) (l : List (Nat × Sub)) : State :=
  (s.setSes sess { s.ses sess with subs := l }).put SYS_SESS.N_SUB l.length sess

/-- SUBSCRIBE (R509): the session, the request ID, the fixed-address flag, subscription, mode, period, address and count. One of the same
number is replaced; where a notification's sequence number starts is free. -/
def execSubscribe (sess id : Nat) (fixed : Bool) (sub mode period a n : Nat) (s : State) : Host.Outcome State Fault Refusal :=
  .next <| s.message sess 5 id fixed ([sub, mode] ++ leBytes 2 period ++ leBytes 4 a ++ leBytes 2 n ++ [0, 0]) fun t =>
    let others := eraseKey sub (t.ses sess).subs
    if 1 < mode ∨ n = 0 ∨ 16 < n ∨ period < t.maxEntries sess 1 10 ∨ 65535 < period then (6, [], t)
    else if 16 ≤ others.length ∨ 128 < subWords others + n then (7, [], t)
    else
      let r := t.free 16
      (0, [], r.2.setSubs sess (others ++ [(sub, { mode, period, addr := a, count := n, fixed, seq := r.1 })]))

/-- UNSUBSCRIBE (R505): the session, the request ID, and the subscription or 0xFF. -/
def execUnsubscribe (sess id sub : Nat) (s : State) : Host.Outcome State Fault Refusal :=
  .next <| s.message sess 6 id false [sub] fun t =>
    (0, [], t.setSubs sess (if sub = 0xFF then [] else eraseKey sub (t.ses sess).subs))

/-- NOTIFY (R509): the session, the subscription, and the half-cycles since its last boundary. -/
def execNotify (sess sub hc : Nat) (s : State) : Host.Outcome State Fault Refusal :=
  .next <|
    match lookupKey sub (s.ses sess).subs with
    | some x =>
      if s.level sess = 0 ∨ hc < x.period then s
      else
        let r := State.readAll sess (blockAddrs x.addr x.count x.fixed) s
        let words := r.1.map fun p => p.2.toNat
        if x.mode = 1 ∧ x.last = some words then r.2
        else
          let st := ((r.1.map fun p => p.1).find? fun c => c != 0).getD 0
          let y := { x with last := some words, seq := (x.seq + 1) % 65536 }
          let s1 := r.2.setSubs sess ((r.2.ses sess).subs.map fun p => if p.1 = sub then (sub, y) else p)
          s1.unasked .notify sess 7 ([sub, 0] ++ leBytes 2 x.seq ++ leBytes 8 s.keeper ++ leBytes 4 s.rtc ++ [st, 0, 0, 0] ++
            words.flatMap (leBytes 4))
    | none => s

/-- EVENTS (R510): the session, the request ID, the log mask and the least severity. Records written from then on are sent. -/
def execEvents (sess id mask sev : Nat) (s : State) : Host.Outcome State Fault Refusal :=
  .next <| s.message sess 8 id false [mask, sev] fun t =>
    let x := t.ses sess
    (0, [], t.setSes sess { x with
      mask := mask % 4, sev
      nextOp := if bit x.mask 0 then x.nextOp else t.get EVR_OP_SEQ.SEQ
      nextMor := if bit x.mask 1 then x.nextMor else t.get EVR_MOR_SEQ.SEQ })

/-- The records of a log that wait for a session. -/
def waiting (l : List Held) (from_ sev : Nat) : List Held := l.filter fun h => decide (from_ ≤ h.seq) && decide (sev ≤ h.rcd.sev)

/-- Sends records in messages of at most `n` (R505); the first one gives the number not sent. -/
def State.sendRecords (sess n : Nat) : Nat → Nat → List Held → State → State
  | 0, _, _, s => s
  | fuel + 1, dropped, l, s =>
    if l.isEmpty then s
    else
      let g := l.take n
      State.sendRecords sess n fuel 0 (l.drop n) (s.unasked .records sess 9
        ([g.length, 0] ++ leBytes 2 (min dropped 0xFFFF) ++ g.flatMap fun h => leBytes 4 h.seq ++ h.rcd.bytes))

/-- RECORDS (R510): the records that wait are sent, at most 64 in one second; the others are not sent. -/
def execRecords (sess : Nat) (s : State) : Host.Outcome State Fault Refusal :=
  .next <|
    let x := s.ses sess
    if s.level sess = 0 ∨ x.mask = 0 then s
    else
      let l := (if bit x.mask 0 then waiting s.evr.op x.nextOp x.sev else []) ++ (if bit x.mask 1 then waiting s.evr.mor x.nextMor 0 else [])
      let used := if x.second = s.rtc then x.sent else 0
      let go := l.take (64 - used)
      let lost := l.length - go.length
      let y := { x with nextOp := s.get EVR_OP_SEQ.SEQ, nextMor := s.get EVR_MOR_SEQ.SEQ, second := s.rtc, sent := used + go.length
                        dropped := (if go.isEmpty then x.dropped else 0) + lost }
      State.sendRecords sess (s.maxEntries sess 32 12) 65 x.dropped go (s.setSes sess y)

/-! ### Locating nodes and acting on the fabric (R511 to R513) -/

/-- A value that a table holds, else a free value of `w` bits. -/
def State.knownOr (s : State) (v : Option Nat) (w : Nat) : Nat × State :=
  match v with
  | some n => (n, s)
  | none => s.free w

/-- The answer to LOCATE: node, level, role set, fabric state. A node of the root's table is a MEMBER; what its table does not hold is
free. -/
def State.locate (s : State) (serial : Nat) : Option (List Nat × Nat) × State :=
  if !s.is FAB_STAT.ROOT then (none, s)
  else if serial = s.serial then
    let n := s.get FAB_STAT.NODE_ID
    (some (leBytes 2 n ++ [s.get FAB_STAT.LEVEL, s.get SYS_ROLE.ROLE_ACT, s.get FAB_STAT.STATE], n), s)
  else match s.fab.ids.find? fun p => p.2 == serial with
    | none => (none, s)
    | some p =>
      let lv := s.knownOr (lookupKey p.1 (fabLevels s.fab.topo)) 5
      let ro := lv.2.knownOr (lookupKey serial lv.2.fab.roles) 4
      (some (leBytes 2 p.1 ++ [lv.1, ro.1, 4], p.1), ro.2)

/-- LOCATE (R511): the session, the request ID and the serial number. -/
def execLocate (sess id serial : Nat) (s : State) : Host.Outcome State Fault Refusal :=
  .next <| s.message sess 0xA id false (leBytes 8 serial) fun t =>
    let r := t.locate serial
    match r.1 with
    | some x => (0, x.1, { r.2 with mg := { r.2.mg with located := some (serial, x.2) } })
    | none => (9, [], r.2)

/-- LAUNCH (R512): the session, the request ID, the destination in the 23-bit form of R5, the 40-byte payload of R194, and the urgent frames
injected in the last 100 µs. -/
def execLaunch (sess id dst : Nat) (pay : List Nat) (recent : Nat) (s : State) : Host.Outcome State Fault Refusal :=
  .next <| s.message sess 0xB id false (leBytes 4 dst ++ pay) fun t =>
    if t.level sess ≠ 3 then (8, [], t)
    else if pay.length ≠ 40 then (6, [], t)
    else
      let t1 := { t with mg := { t.mg with launches := ((bytesAt pay 12 4, sess) :: t.mg.launches).take 64 } }
      (0, [], t1.agentFrame 2 1 (dst % 2 ^ 23) (4 - recent) fun _ => pay)

/-- LRESULT (R512): a response of R197 that arrives at endpoint 0x001: its source and its 16 bytes. -/
def execLresult (src : Nat) (resp : List Nat) (s : State) : Host.Outcome State Fault Refusal :=
  .next <|
    match lookupKey (bytesAt resp 0 4) s.mg.launches with
    | some i => if s.level i ≠ 0 then s.unasked .lresult i 0xC (leBytes 2 src ++ [0, 0] ++ resp.take 16) else s
    | none => s

/-- The node of a serial number as the root says (R513); at a module that is not root, its answer is free. -/
def State.rootNode (s : State) (serial : Nat) : Option Nat × State :=
  if s.is FAB_STAT.ROOT then ((s.fab.ids.find? fun p => p.2 == serial).map fun p => p.1, s)
  else
    let r := s.free 12
    (some r.1, r.2)

/-- The node that RESET names (R513): that of the last LOCATE answer for the serial number, else the root's. -/
def State.resetNode (s : State) (serial : Nat) : Option Nat × State :=
  match s.mg.located with
  | some p => if p.1 = serial then (some p.2, s) else s.rootNode serial
  | none => s.rootNode serial

/-- RESET (R513): the session, the request ID, the serial number, and the urgent frames injected in the last 100 µs. -/
def execReset (sess id serial recent : Nat) (s : State) : Host.Outcome State Fault Refusal :=
  .next <| s.message sess 0xD id false (leBytes 8 serial) fun t =>
    if t.level sess ≠ 3 then (8, [], t)
    else if !t.kvReady || !(t.slot 5).used then (0xB, [], t)
    else if serial = t.serial then (0, [], t)
    else
      let r := t.resetNode serial
      match r.1 with
      | none => (9, [], r.2)
      | some n =>
        let st := max r.2.stamp (r.2.mg.rstSent + 1)
        let low := t.serial % 2 ^ 32
        let key := t.fab.key.getD ((t.slot 5).key.getD [])
        (0, [], { r.2 with mg := { r.2.mg with rstSent := st } }.agentFrame 9 1 (2048 * n) (4 - recent) fun seq =>
          resetHead serial st low ++ resetTag key (2048 * n) t.agentSrc seq serial st low)

/-! ### UTC (R514 to R517) -/

/-- A synchronisation (R284, R516): a step to the source where the offset is 0.5 s or more, with event 0x0026; a smaller offset is slewed,
which `SYS_RTC` in whole seconds does not show. -/
def State.utcSync (s : State) (step : Bool) (utc : Nat) : State :=
  if step then (s.rtcSync (utc % 2 ^ 32)).log 0x0026 NOTICE (leBytes 4 (ofSigned 32 ((utc : Int) - (s.rtc : Int)))) else s.rtcSync s.rtc

/-- TIME (R516, R517): the session, the request ID, the UTC seconds and the fraction in 2^-32 s, and the RTC's own fraction at the arrival. -/
def execTime (sess id utc frac phase : Nat) (s : State) : Host.Outcome State Fault Refusal :=
  .next <| s.message sess 0xE id false (leBytes 8 utc ++ leBytes 4 frac) fun t =>
    let src := t.get SYS_TIME_CFG.TSRC
    if t.level sess ≠ 3 then (8, [], t)
    else if (src = 1 ∨ src = 2) ∧ t.get SYS_TIME_STAT.TSTATE = 2 then (0xA, [], t)
    else
      let ofs := (2 ^ 32 * utc + frac : Int) - (2 ^ 32 * t.rtc + phase : Int)
      (0, [], t.utcSync (decide (2 ^ 31 ≤ ofs.natAbs)) utc)

/-- The UTC source that `TSRC` names runs. -/
def State.srcRuns (s : State) (n : Nat) : Bool := s.ethRuns && s.get SYS_TIME_CFG.TSRC == n

/-- `OFS` in µs. -/
def State.ofsShow (s : State) (ns : Int) : State := s.putSat SYS_TIME_STAT.OFS (ns / 1000)

/-- A UTC source locks, or is lost, with its event. -/
def State.srcState (s : State) (n st : Nat) : State :=
  let t := s.put SYS_TIME_STAT.TSTATE st
  if st = 2 then t.log 0x0023 NOTICE [n] else t.log 0x0024 WARNING [n]

/-- PTP_SYNC (R514 to R516): the offset in ns, the UTC seconds of the master in use, and whether its Announce has currentUtcOffsetValid
set. Before the lock an offset of 0.5 s or more steps the RTC, and no synchronisation is made. -/
def execPtpSync (ofs : Int) (utc : Nat) (utcValid : Bool) (s : State) : Host.Outcome State Fault Refusal :=
  .next <|
    if s.srcRuns 1 then
      let n := if ofs.natAbs ≤ 100000 then s.mg.syncs + 1 else 0
      let s1 := { s.ofsShow ofs with mg := { s.mg with syncs := min n 16 } }
      let s2 := if 16 ≤ n ∧ s1.get SYS_TIME_STAT.TSTATE ≠ 2 then s1.srcState 1 2 else s1
      let step := decide (500000000 ≤ ofs.natAbs)
      if !utcValid then s2
      else if s2.get SYS_TIME_STAT.TSTATE = 2 then
        if s2.mg.ptpAt = some s2.rtc then s2
        else (let t := s2.utcSync step utc; { t with mg := { t.mg with ptpAt := some t.rtc } })
      else if step then
        ((s2.put SYS_RTC.UTC (utc % 2 ^ 32)).put SYS_TIME_STAT.RTC_SET 1).log 0x0026 NOTICE (leBytes 4 (ofSigned 32 ((utc : Int) - (s2.rtc : Int))))
      else s2
    else s

/-- PTP_LOST (R514): the announce intervals without Announce; or the last offset is above 1 ms. -/
def execPtpLost (intervals : Nat) (s : State) : Host.Outcome State Fault Refusal :=
  .next <|
    if s.srcRuns 1 && s.get SYS_TIME_STAT.TSTATE == 2 && (decide (3 ≤ intervals) || decide (1000 < (s.geti SYS_TIME_STAT.OFS).natAbs)) then
      { s with mg := { s.mg with syncs := 0 } }.srcState 1 3
    else s

/-- NTP_POLL (R515): the seconds since the last poll. The server 0 is the one that DHCP supplies. -/
def execNtpPoll (secs : Nat) (s : State) : Host.Outcome State Fault Refusal :=
  .next <|
    if s.srcRuns 2 && decide (2 ^ clampN 4 10 (s.get SYS_TIME_CFG.NTP_POLL) ≤ secs) then
      { s with mg := { s.mg with polls := s.mg.polls + 1 } }.emit .ntp (s.get SYS_NTP_SRV.ADDR) []
    else s

/-- NTP_RESPONSE (R514 to R516): the stratum, the leap alarm, the root distance in ms, the offset in ns and the UTC seconds. -/
def execNtpResponse (stratum : Nat) (alarm : Bool) (rootMs : Nat) (ofs : Int) (utc : Nat) (s : State) : Host.Outcome State Fault Refusal :=
  .next <|
    if s.srcRuns 2 && decide (1 ≤ stratum) && decide (stratum ≤ 15) && !alarm && decide (rootMs ≤ 100) then
      let s1 := { s.ofsShow ofs with mg := { s.mg with polls := 0 } }
      let s2 := if s1.get SYS_TIME_STAT.TSTATE = 2 then s1 else s1.srcState 2 2
      s2.utcSync (decide (500000000 ≤ ofs.natAbs)) utc
    else s

/-- NTP_LOST (R514): four polls without an accepted response. -/
def execNtpLost (s : State) : Host.Outcome State Fault Refusal :=
  .next <| if s.srcRuns 2 && s.get SYS_TIME_STAT.TSTATE == 2 && decide (4 ≤ s.mg.polls) then s.srcState 2 3 else s

end Sys2Proof.Machine
end

