-- ==== Sys2Proof/Machine/Dispatch.lean ====
section
/-! DEFINITION. One arm per command: its meaning on everything but the queue. -/

namespace Sys2Proof.Machine

def exec (i : Instr) (s : State) : Host.Outcome State Fault Refusal :=
  match i with
  | .registerWrite sess a val mask => Sys2Proof.Machine.execRegisterWrite sess a val mask s
  | .apply sess => Sys2Proof.Machine.execApply sess s
  | .applyComplete o => Sys2Proof.Machine.execApplyComplete o s
  | .porReset mv ms cold o => Sys2Proof.Machine.execPorReset mv ms cold o s
  | .pinReset ns low o => Sys2Proof.Machine.execPinReset ns low o s
  | .softReset sess o => Sys2Proof.Machine.execSoftReset sess o s
  | .domainReset sess bits => Sys2Proof.Machine.execDomainReset sess bits s
  | .domainResetComplete o => Sys2Proof.Machine.execDomainResetComplete o s
  | .readyRelease ms => Sys2Proof.Machine.execReadyRelease ms s
  | .readyDeadline ms => Sys2Proof.Machine.execReadyDeadline ms s
  | .vsupLowBandEntry mv us => Sys2Proof.Machine.execVsupLowBandEntry mv us s
  | .vsupLowBandExit mv us => Sys2Proof.Machine.execVsupLowBandExit mv us s
  | .vsupHighBandEntry mv us => Sys2Proof.Machine.execVsupHighBandEntry mv us s
  | .vsupHighBandExit mv us => Sys2Proof.Machine.execVsupHighBandExit mv us s
  | .vsupOverVoltage mv us => Sys2Proof.Machine.execVsupOverVoltage mv us s
  | .vsupOverVoltageExit mv us => Sys2Proof.Machine.execVsupOverVoltageExit mv us s
  | .supplyFail mv us back o => Sys2Proof.Machine.execSupplyFail mv us back o s
  | .railOutOfLimits d us o => Sys2Proof.Machine.execRailOutOfLimits d us o s
  | .holdupStoreTest v => Sys2Proof.Machine.execHoldupStoreTest v s
  | .holdupTestRequest sess => Sys2Proof.Machine.execHoldupTestRequest sess s
  | .holdupTestDone e v => Sys2Proof.Machine.execHoldupTestDone e v s
  | .vbatLow mv => Sys2Proof.Machine.execVbatLow mv s
  | .quietRequest sess => Sys2Proof.Machine.execQuietRequest sess s
  | .runRequest sess => Sys2Proof.Machine.execRunRequest sess s
  | .dormantRequest sess => Sys2Proof.Machine.execDormantRequest sess s
  | .wake src o => Sys2Proof.Machine.execWake src o s
  | .auxEnable sess a => Sys2Proof.Machine.execAuxEnable sess a s
  | .auxStop sess a => Sys2Proof.Machine.execAuxStop sess a s
  | .auxSetpointChange pair v us => Sys2Proof.Machine.execAuxSetpointChange pair v us s
  | .auxPgood a fb us => Sys2Proof.Machine.execAuxPgood a fb us s
  | .auxPgoodLoss a fb => Sys2Proof.Machine.execAuxPgoodLoss a fb s
  | .auxFeedbackFault a ms => Sys2Proof.Machine.execAuxFeedbackFault a ms s
  | .auxBurstSleep a n => Sys2Proof.Machine.execAuxBurstSleep a n s
  | .auxBurstWake a fb => Sys2Proof.Machine.execAuxBurstWake a fb s
  | .auxSyncLock a n f => Sys2Proof.Machine.execAuxSyncLock a n f s
  | .auxSyncLost a t => Sys2Proof.Machine.execAuxSyncLost a t s
  | .auxTruncation a fb => Sys2Proof.Machine.execAuxTruncation a fb s
  | .auxBraking a fb n => Sys2Proof.Machine.execAuxBraking a fb n s
  | .auxBrakeRelease a fb => Sys2Proof.Machine.execAuxBrakeRelease a fb s
  | .auxThermalWarning a => Sys2Proof.Machine.execAuxThermalWarning a s
  | .auxThermalShutdown a => Sys2Proof.Machine.execAuxThermalShutdown a s
  | .auxThermalRestart a => Sys2Proof.Machine.execAuxThermalRestart a s
  | .snsSelectChange code us since onUs mv => Sys2Proof.Machine.execSnsSelectChange code us since onUs mv s
  | .tbAcquireLock src srcStamp f cycles => Sys2Proof.Machine.execTbAcquireLock src srcStamp f cycles s
  | .tbAcquireTimeout ms => Sys2Proof.Machine.execTbAcquireTimeout ms s
  | .tbSourceLost src cause m next => Sys2Proof.Machine.execTbSourceLost src cause m next s
  | .gridPhaseJump jump => Sys2Proof.Machine.execGridPhaseJump jump s
  | .lineFault lines => Sys2Proof.Machine.execLineFault lines s
  | .lineFaultClear cycles => Sys2Proof.Machine.execLineFaultClear cycles s
  | .tbSlewEntry e f => Sys2Proof.Machine.execTbSlewEntry e f s
  | .tbSlewLocked e cycles ms => Sys2Proof.Machine.execTbSlewLocked e cycles ms s
  | .tbSourceTaken src srcStamp f cycles => Sys2Proof.Machine.execTbSourceTaken src srcStamp f cycles s
  | .cycleRenumber => Sys2Proof.Machine.execCycleRenumber s
  | .refclkLost => Sys2Proof.Machine.execRefclkLost s
  | .dllUnlock tapPs periods => Sys2Proof.Machine.execDllUnlock tapPs periods s
  | .dllRelock tapPs => Sys2Proof.Machine.execDllRelock tapPs s
  | .keeperCommit => Sys2Proof.Machine.execKeeperCommit s
  | .ncarChange g => Sys2Proof.Machine.execNcarChange g s
  | .offsetCommit sess => Sys2Proof.Machine.execOffsetCommit sess s
  | .offsetCommitTaken g => Sys2Proof.Machine.execOffsetCommitTaken g s
  | .anglePulseOut => Sys2Proof.Machine.execAnglePulseOut s
  | .anglePulseCapture edge => Sys2Proof.Machine.execAnglePulseCapture edge s
  | .groupCarrierBoundary g v => Sys2Proof.Machine.execGroupCarrierBoundary g v s
  | .carrierStart n o => Sys2Proof.Machine.execCarrierStart n o s
  | .halfCycleBoundary => Sys2Proof.Machine.execHalfCycleBoundary s
  | .leaseLapse g => Sys2Proof.Machine.execLeaseLapse g s
  | .overshootTruncate g gvs pulses => Sys2Proof.Machine.execOvershootTruncate g gvs pulses s
  | .overshootBrake g gvs => Sys2Proof.Machine.execOvershootBrake g gvs s
  | .truncateTimeout g periods => Sys2Proof.Machine.execTruncateTimeout g periods s
  | .truncateRelease g gvs => Sys2Proof.Machine.execTruncateRelease g gvs s
  | .brakeRelease g gvs => Sys2Proof.Machine.execBrakeRelease g gvs s
  | .brakingTimeout g hc => Sys2Proof.Machine.execBrakingTimeout g hc s
  | .phaseCheckFail n => Sys2Proof.Machine.execPhaseCheckFail n s
  | .driverFault n low => Sys2Proof.Machine.execDriverFault n low s
  | .phaseImbalance n diff => Sys2Proof.Machine.execPhaseImbalance n diff s
  | .phaseEnable sess n fltLow => Sys2Proof.Machine.execPhaseEnable sess n fltLow s
  | .phaseDisable sess n => Sys2Proof.Machine.execPhaseDisable sess n s
  | .phaseJoin n => Sys2Proof.Machine.execPhaseJoin n s
  | .groupEnable sess g => Sys2Proof.Machine.execGroupEnable sess g s
  | .groupStart g => Sys2Proof.Machine.execGroupStart g s
  | .groupDisable sess g => Sys2Proof.Machine.execGroupDisable sess g s
  | .rampdownComplete g => Sys2Proof.Machine.execRampdownComplete g s
  | .demandWatchdog g => Sys2Proof.Machine.execDemandWatchdog g s
  | .respaceCommit g => Sys2Proof.Machine.execRespaceCommit g s
  | .sampleStrobe idx late => Sys2Proof.Machine.execSampleStrobe idx late s
  | .loopHoldExit l => Sys2Proof.Machine.execLoopHoldExit l s
  | .srateChange sess v => Sys2Proof.Machine.execSrateChange sess v s
  | .loopEnable sess l => Sys2Proof.Machine.execLoopEnable sess l s
  | .loopDisable sess l => Sys2Proof.Machine.execLoopDisable sess l s
  | .loopModeChange sess l man => Sys2Proof.Machine.execLoopModeChange sess l man s
  | .gtCommit sess l => Sys2Proof.Machine.execGtCommit sess l s
  | .ffSwap sess mask => Sys2Proof.Machine.execFfSwap sess mask s
  | .setTarget => Sys2Proof.Machine.execSetTarget s
  | .scaleTarget => Sys2Proof.Machine.execScaleTarget s
  | .setRate => Sys2Proof.Machine.execSetRate s
  | .setParameter => Sys2Proof.Machine.execSetParameter s
  | .setMode => Sys2Proof.Machine.execSetMode s
  | .startInjector => Sys2Proof.Machine.execStartInjector s
  | .injectorEnable sess j => Sys2Proof.Machine.execInjectorEnable sess j s
  | .injectorStampStart j => Sys2Proof.Machine.execInjectorStampStart j s
  | .injectorEnd j => Sys2Proof.Machine.execInjectorEnd j s
  | .injectorDisable sess j => Sys2Proof.Machine.execInjectorDisable sess j s
  | .captureArm sess => Sys2Proof.Machine.execCaptureArm sess s
  | .captureTrigger => Sys2Proof.Machine.execCaptureTrigger s
  | .captureDone => Sys2Proof.Machine.execCaptureDone s
  | .laneTrain n los => Sys2Proof.Machine.execLaneTrain n los s
  | .laneTrainTimeout n ms => Sys2Proof.Machine.execLaneTrainTimeout n ms s
  | .laneRetry n ms los => Sys2Proof.Machine.execLaneRetry n ms los s
  | .laneHold n node dly count key => Sys2Proof.Machine.execLaneHold n node dly count key s
  | .laneActive n ms downS => Sys2Proof.Machine.execLaneActive n ms downS s
  | .laneDown n cause m => Sys2Proof.Machine.execLaneDown n cause m s
  | .frameForward link crc f urgent pending recent => Sys2Proof.Machine.execFrameForward link crc f urgent pending recent s
  | .stallDiscard waited => Sys2Proof.Machine.execStallDiscard waited s
  | .wakeTx sess mask => Sys2Proof.Machine.execWakeTx sess mask s
  | .announceSend classMs => Sys2Proof.Machine.execAnnounceSend classMs s
  | .announceReceive link key seq member => Sys2Proof.Machine.execAnnounceReceive link key seq member s
  | .becomeRoot hc now => Sys2Proof.Machine.execBecomeRoot hc now s
  | .nodeIdGrant serial sticky role link hops => Sys2Proof.Machine.execNodeIdGrant serial sticky role link hops s
  | .joinRetry ms => Sys2Proof.Machine.execJoinRetry ms s
  | .joinGrant id level up => Sys2Proof.Machine.execJoinGrant id level up s
  | .rootLost hc => Sys2Proof.Machine.execRootLost hc s
  | .fabricAlone ms now => Sys2Proof.Machine.execFabricAlone ms now s
  | .idReservationExpiry id secs => Sys2Proof.Machine.execIdReservationExpiry id secs s
  | .topologyReport node links => Sys2Proof.Machine.execTopologyReport node links s
  | .tableLoad entries dirs level => Sys2Proof.Machine.execTableLoad entries dirs level s
  | .epochChange sw => Sys2Proof.Machine.execEpochChange sw s
  | .epochDrain => Sys2Proof.Machine.execEpochDrain s
  | .epochSwap => Sys2Proof.Machine.execEpochSwap s
  | .delayExchange n t1 t2 t3 t4 => Sys2Proof.Machine.execDelayExchange n t1 t2 t3 t4 s
  | .timeFrameSend k => Sys2Proof.Machine.execTimeFrameSend k s
  | .timeFrameReceive n v16 => Sys2Proof.Machine.execTimeFrameReceive n v16 s
  | .launchedActionArrival src actId ack target ep op dstEp body => Sys2Proof.Machine.execLaunchedActionArrival src actId ack target ep op dstEp body s
  | .setGroupOffset => Sys2Proof.Machine.execSetGroupOffset s
  | .setPhaseOffsets => Sys2Proof.Machine.execSetPhaseOffsets s
  | .fabricResetCommand node serial stamp tagOk o => Sys2Proof.Machine.execFabricResetCommand node serial stamp tagOk o s
  | .ledgerReport offer => Sys2Proof.Machine.execLedgerReport offer s
  | .ledgerReportReceive now node serial req cls floor lease applied gen offer digest draw => Sys2Proof.Machine.execLedgerReportReceive now node serial req cls floor lease applied gen offer digest draw s
  | .grantAccept src issue gen kw hc seq pledge passed => Sys2Proof.Machine.execGrantAccept src issue gen kw hc seq pledge passed s
  | .allocationRound now => Sys2Proof.Machine.execAllocationRound now s
  | .recordReclaim node now => Sys2Proof.Machine.execRecordReclaim node now s
  | .recordAckDrop node now => Sys2Proof.Machine.execRecordAckDrop node now s
  | .quorumLost now => Sys2Proof.Machine.execQuorumLost now s
  | .quorumGained now => Sys2Proof.Machine.execQuorumGained now s
  | .tGenExpiry now => Sys2Proof.Machine.execTGenExpiry now s
  | .pledgeExpiry => Sys2Proof.Machine.execPledgeExpiry s
  | .pledgeNotMet draw => Sys2Proof.Machine.execPledgeNotMet draw s
  | .setLimDyn => Sys2Proof.Machine.execSetLimDyn s
  | .cut => Sys2Proof.Machine.execCut s
  | .limDynWrite sess v => Sys2Proof.Machine.execLimDynWrite sess v s
  | .drawOverLimit now cycles => Sys2Proof.Machine.execDrawOverLimit now cycles s
  | .beaconSend => Sys2Proof.Machine.execBeaconSend s
  | .beaconReceive v16 serial node kcls klvl kprio bpc nstn succ ver verAt slots answers => Sys2Proof.Machine.execBeaconReceive v16 serial node kcls klvl kprio bpc nstn succ ver verAt slots answers s
  | .beaconMissed => Sys2Proof.Machine.execBeaconMissed s
  | .coordinatorTakeover => Sys2Proof.Machine.execCoordinatorTakeover s
  | .successorHandover => Sys2Proof.Machine.execSuccessorHandover s
  | .plcFrameSend stn sym => Sys2Proof.Machine.execPlcFrameSend stn sym s
  | .plcFrameReceive stn dst kcls klvl kprio bpc erased segs => Sys2Proof.Machine.execPlcFrameReceive stn dst kcls klvl kprio bpc erased segs s
  | .plcAcknowledgement stn ackSeq ackMap => Sys2Proof.Machine.execPlcAcknowledgement stn ackSeq ackMap s
  | .segmentDiscard stn => Sys2Proof.Machine.execSegmentDiscard stn s
  | .associationRequest rx serial node => Sys2Proof.Machine.execAssociationRequest rx serial node s
  | .stationRemove stn => Sys2Proof.Machine.execStationRemove stn s
  | .sounding stn => Sys2Proof.Machine.execSounding stn s
  | .toneMapIssue stn mine id rate codes => Sys2Proof.Machine.execToneMapIssue stn mine id rate codes s
  | .toneMapRefresh stn secs => Sys2Proof.Machine.execToneMapRefresh stn secs s
  | .linkDegraded stn => Sys2Proof.Machine.execLinkDegraded stn s
  | .ranging stn t1 t2 t3 t4 stableMs downS => Sys2Proof.Machine.execRanging stn t1 t2 t3 t4 stableMs downS s
  | .couplerAbsent ms => Sys2Proof.Machine.execCouplerAbsent ms s
  | .couplerPresent => Sys2Proof.Machine.execCouplerPresent s
  | .metrologySample p xv xi => Sys2Proof.Machine.execMetrologySample p xv xi s
  | .channelStuck c run => Sys2Proof.Machine.execChannelStuck c run s
  | .channelOverRange c n => Sys2Proof.Machine.execChannelOverRange c n s
  | .channelFaultClear c kind n => Sys2Proof.Machine.execChannelFaultClear c kind n s
  | .pointBlockPublish p => Sys2Proof.Machine.execPointBlockPublish p s
  | .packCurrentRequest lateUs => Sys2Proof.Machine.execPackCurrentRequest lateUs s
  | .cableTemperatureUpdate p => Sys2Proof.Machine.execCableTemperatureUpdate p s
  | .cableTFallback p ms => Sys2Proof.Machine.execCableTFallback p ms s
  | .cableTReturn p secs => Sys2Proof.Machine.execCableTReturn p secs s
  | .pointEnable sess p => Sys2Proof.Machine.execPointEnable sess p s
  | .snapshotTake sess mask => Sys2Proof.Machine.execSnapshotTake sess mask s
  | .snapshotRelease sess mask => Sys2Proof.Machine.execSnapshotRelease sess mask s
  | .snapshotAction => Sys2Proof.Machine.execSnapshotAction s
  | .snapshotReleaseAction => Sys2Proof.Machine.execSnapshotReleaseAction s
  | .peakClear sess p => Sys2Proof.Machine.execPeakClear sess p s
  | .overCurrent p n peak => Sys2Proof.Machine.execOverCurrent p n peak s
  | .overCurrentClear p ms => Sys2Proof.Machine.execOverCurrentClear p ms s
  | .pulseEmit n => Sys2Proof.Machine.execPulseEmit n s
  | .pulseEnd n t => Sys2Proof.Machine.execPulseEnd n t s
  | .metrologyCommit secs => Sys2Proof.Machine.execMetrologyCommit secs s
  | .accumulationStart secs => Sys2Proof.Machine.execAccumulationStart secs s
  | .sealSet sess confirm => Sys2Proof.Machine.execSealSet sess confirm s
  | .billingTick => Sys2Proof.Machine.execBillingTick s
  | .rebase sess => Sys2Proof.Machine.execRebase sess s
  | .calendarActivate sess => Sys2Proof.Machine.execCalendarActivate sess s
  | .periodCloseCommand sess => Sys2Proof.Machine.execPeriodCloseCommand sess s
  | .periodCloseAction => Sys2Proof.Machine.execPeriodCloseAction s
  | .sessionOpen p conn id ident stamp => Sys2Proof.Machine.execSessionOpen p conn id ident stamp s
  | .sessionClose p reason stamp => Sys2Proof.Machine.execSessionClose p reason stamp s
  | .sessionAck sess n => Sys2Proof.Machine.execSessionAck sess n s
  | .recordSign ok => Sys2Proof.Machine.execRecordSign ok s
  | .tamperLoopSample cover term lid mesh => Sys2Proof.Machine.execTamperLoopSample cover term lid mesh s
  | .tamperQueueMove => Sys2Proof.Machine.execTamperQueueMove s
  | .tamperAck sess => Sys2Proof.Machine.execTamperAck sess s
  | .displayFrame => Sys2Proof.Machine.execDisplayFrame s
  | .displayAnswer ok => Sys2Proof.Machine.execDisplayAnswer ok s
  | .pageAdvance secs => Sys2Proof.Machine.execPageAdvance secs s
  | .displayButtonShort => Sys2Proof.Machine.execDisplayButtonShort s
  | .displayButtonLong => Sys2Proof.Machine.execDisplayButtonLong s
  | .manualAdvanceResume secs => Sys2Proof.Machine.execManualAdvanceResume secs s
  | .interlockOpen c mv n => Sys2Proof.Machine.execInterlockOpen c mv n s
  | .proximityChange c mv ms => Sys2Proof.Machine.execProximityChange c mv ms s
  | .plugIn c ms => Sys2Proof.Machine.execPlugIn c ms s
  | .sdpRequest c ok => Sys2Proof.Machine.execSdpRequest c ok s
  | .tlsSessionEstablished c => Sys2Proof.Machine.execTlsSessionEstablished c s
  | .plugTimeout c ms => Sys2Proof.Machine.execPlugTimeout c ms s
  | .supportedAppProtocol c => Sys2Proof.Machine.execSupportedAppProtocol c s
  | .sessionSetup c sid => Sys2Proof.Machine.execSessionSetup c sid s
  | .authorizationSetup c => Sys2Proof.Machine.execAuthorizationSetup c s
  | .authorization c pnc ident chainOk => Sys2Proof.Machine.execAuthorization c pnc ident chainOk s
  | .serviceDiscovery c => Sys2Proof.Machine.execServiceDiscovery c s
  | .serviceDetail c => Sys2Proof.Machine.execServiceDetail c s
  | .serviceSelection c service mode => Sys2Proof.Machine.execServiceSelection c service mode s
  | .dcChargeParameterDiscovery c vMax vMin iMax pMax iDisMax => Sys2Proof.Machine.execDcChargeParameterDiscovery c vMax vMin iMax pMax iDisMax s
  | .scheduleExchange c => Sys2Proof.Machine.execScheduleExchange c s
  | .dcCableCheck c => Sys2Proof.Machine.execDcCableCheck c s
  | .dcPlusClose c ms => Sys2Proof.Machine.execDcPlusClose c ms s
  | .cableCheckStart c ms => Sys2Proof.Machine.execCableCheckStart c ms s
  | .cableCheckFinish c ms isoMs => Sys2Proof.Machine.execCableCheckFinish c ms isoMs s
  | .dcPreCharge c v => Sys2Proof.Machine.execDcPreCharge c v s
  | .powerDeliveryStart c => Sys2Proof.Machine.execPowerDeliveryStart c s
  | .powerDeliveryStop c => Sys2Proof.Machine.execPowerDeliveryStop c s
  | .standby c => Sys2Proof.Machine.execStandby c s
  | .dcChargeLoop c v idx vMax vMin iMax pMax iDisMax => Sys2Proof.Machine.execDcChargeLoop c v idx vMax vMin iMax pMax iDisMax s
  | .dcWeldingDetection c => Sys2Proof.Machine.execDcWeldingDetection c s
  | .sessionStop c => Sys2Proof.Machine.execSessionStop c s
  | .fastStop c seqTimeout => Sys2Proof.Machine.execFastStop c seqTimeout s
  | .authWrite sess c v => Sys2Proof.Machine.execAuthWrite sess c v s
  | .authTimeout c secs => Sys2Proof.Machine.execAuthTimeout c secs s
  | .preTimeout c ms => Sys2Proof.Machine.execPreTimeout c ms s
  | .currentDecayed c ms => Sys2Proof.Machine.execCurrentDecayed c ms s
  | .decayTimeout c ms => Sys2Proof.Machine.execDecayTimeout c ms s
  | .dcMinusOpen c ms => Sys2Proof.Machine.execDcMinusOpen c ms s
  | .weldCheck c ms => Sys2Proof.Machine.execWeldCheck c ms s
  | .weldCheckComplete c ms followed => Sys2Proof.Machine.execWeldCheckComplete c ms followed s
  | .unplug c ms => Sys2Proof.Machine.execUnplug c ms s
  | .stopCommand sess c => Sys2Proof.Machine.execStopCommand sess c s
  | .faultClear sess c => Sys2Proof.Machine.execFaultClear sess c s
  | .launchedStop => Sys2Proof.Machine.execLaunchedStop s
  | .offerUpdate c => Sys2Proof.Machine.execOfferUpdate c s
  | .limitRampStep c => Sys2Proof.Machine.execLimitRampStep c s
  | .needFrame c => Sys2Proof.Machine.execNeedFrame c s
  | .needFrameReceive g c flags need rTgt uMax uMin rate => Sys2Proof.Machine.execNeedFrameReceive g c flags need rTgt uMax uMin rate s
  | .allowanceFrame g => Sys2Proof.Machine.execAllowanceFrame g s
  | .allowanceFrameReceive c state lapsed exp cap p v idx rev => Sys2Proof.Machine.execAllowanceFrameReceive c state lapsed exp cap p v idx rev s
  | .needFrameLoss g => Sys2Proof.Machine.execNeedFrameLoss g s
  | .feedLost c => Sys2Proof.Machine.execFeedLost c s
  | .imdUpdate c r => Sys2Proof.Machine.execImdUpdate c r s
  | .imdTimeout c ms => Sys2Proof.Machine.execImdTimeout c ms s
  | .contactorFault c ms => Sys2Proof.Machine.execContactorFault c ms s
  | .linkLost c closed ms => Sys2Proof.Machine.execLinkLost c closed ms s
  | .sensorSample n mOhm => Sys2Proof.Machine.execSensorSample n mOhm s
  | .sensorFailed n k => Sys2Proof.Machine.execSensorFailed n k s
  | .sensorRecover n secs => Sys2Proof.Machine.execSensorRecover n secs s
  | .sensorSuspect n k => Sys2Proof.Machine.execSensorSuspect n k s
  | .suspectRecover n secs => Sys2Proof.Machine.execSuspectRecover n secs s
  | .snowlineExit n k => Sys2Proof.Machine.execSnowlineExit n k s
  | .warnLimit m k => Sys2Proof.Machine.execWarnLimit m k s
  | .zoneAsk z m k => Sys2Proof.Machine.execZoneAsk z m k s
  | .zoneEnforce z t => Sys2Proof.Machine.execZoneEnforce z t s
  | .zoneShutdown z m k => Sys2Proof.Machine.execZoneShutdown z m k s
  | .zoneRelease z k => Sys2Proof.Machine.execZoneRelease z k s
  | .shutdownRelease z secs => Sys2Proof.Machine.execShutdownRelease z secs s
  | .zoneClr sess z secs => Sys2Proof.Machine.execZoneClr sess z secs s
  | .zoneEnable sess z => Sys2Proof.Machine.execZoneEnable sess z s
  | .cableModelUpdate m => Sys2Proof.Machine.execCableModelUpdate m s
  | .modelSuspect m => Sys2Proof.Machine.execModelSuspect m s
  | .internalSensorSample idx v => Sys2Proof.Machine.execInternalSensorSample idx v s
  | .internalOverTemperature idx k => Sys2Proof.Machine.execInternalOverTemperature idx k s
  | .thermalRestart ms => Sys2Proof.Machine.execThermalRestart ms s
  | .circuitRun k => Sys2Proof.Machine.execCircuitRun k s
  | .circuitStop k secs => Sys2Proof.Machine.execCircuitStop k secs s
  | .flowTimeout f ms => Sys2Proof.Machine.execFlowTimeout f ms s
  | .flowFault k run low => Sys2Proof.Machine.execFlowFault k run low s
  | .flowRecovered k secs => Sys2Proof.Machine.execFlowRecovered k secs s
  | .heaterOn k => Sys2Proof.Machine.execHeaterOn k s
  | .heaterOff k => Sys2Proof.Machine.execHeaterOff k s
  | .csWake => Sys2Proof.Machine.execCsWake s
  | .discovery ms through na nb ser => Sys2Proof.Machine.execDiscovery ms through na nb ser s
  | .discoveryAttemptEnd na nb ser => Sys2Proof.Machine.execDiscoveryAttemptEnd na nb ser s
  | .sweepSync => Sys2Proof.Machine.execSweepSync s
  | .keepaliveSync ms => Sys2Proof.Machine.execKeepaliveSync ms s
  | .recordReceive dir p sweep status cells t0 t1 mask seq => Sys2Proof.Machine.execRecordReceive dir p sweep status cells t0 t1 mask seq s
  | .collectionEnd => Sys2Proof.Machine.execCollectionEnd s
  | .recollect => Sys2Proof.Machine.execRecollect s
  | .recollectEnd => Sys2Proof.Machine.execRecollectEnd s
  | .healProbe reached => Sys2Proof.Machine.execHealProbe reached s
  | .orderSend sess idx => Sys2Proof.Machine.execOrderSend sess idx s
  | .sweepStart => Sys2Proof.Machine.execSweepStart s
  | .sweepStop => Sys2Proof.Machine.execSweepStop s
  | .cellQuery src k => Sys2Proof.Machine.execCellQuery src k s
  | .ringLost => Sys2Proof.Machine.execRingLost s
  | .csDisable => Sys2Proof.Machine.execCsDisable s
  | .channelOn sess n => Sys2Proof.Machine.execChannelOn sess n s
  | .channelOff sess n => Sys2Proof.Machine.execChannelOff sess n s
  | .overCurrentTrip n onMs t idx => Sys2Proof.Machine.execOverCurrentTrip n onMs t idx s
  | .thermalShutdown n tj => Sys2Proof.Machine.execThermalShutdown n tj s
  | .automaticRestart n t tj => Sys2Proof.Machine.execAutomaticRestart n t tj s
  | .restartWindow n secs => Sys2Proof.Machine.execRestartWindow n secs s
  | .bankUndervoltage b mv us => Sys2Proof.Machine.execBankUndervoltage b mv us s
  | .bankUndervoltageExit b mv => Sys2Proof.Machine.execBankUndervoltageExit b mv s
  | .latchClear sess n tj => Sys2Proof.Machine.execLatchClear sess n tj s
  | .switchChannels => Sys2Proof.Machine.execSwitchChannels s
  | .openLoad n ms idx => Sys2Proof.Machine.execOpenLoad n ms idx s
  | .canPortEnable p => Sys2Proof.Machine.execCanPortEnable p s
  | .canStart sess p => Sys2Proof.Machine.execCanStart sess p s
  | .canInit sess p => Sys2Proof.Machine.execCanInit sess p s
  | .canSync p n => Sys2Proof.Machine.execCanSync p n s
  | .canFrameReceive p w0 w1 sof data tec rec_ => Sys2Proof.Machine.execCanFrameReceive p w0 w1 sof data tec rec_ s
  | .bufferLock p b => Sys2Proof.Machine.execBufferLock p b s
  | .bufferReadComplete p b => Sys2Proof.Machine.execBufferReadComplete p b s
  | .lockTimeout p us => Sys2Proof.Machine.execLockTimeout p us s
  | .unlock sess p => Sys2Proof.Machine.execUnlock sess p s
  | .transmitRequest sess p b => Sys2Proof.Machine.execTransmitRequest sess p b s
  | .transmitComplete p delay sof tec rec_ => Sys2Proof.Machine.execTransmitComplete p delay sof tec rec_ s
  | .transmitFail p lec delay tec rec_ => Sys2Proof.Machine.execTransmitFail p lec delay tec rec_ s
  | .abort sess p b onBus => Sys2Proof.Machine.execAbort sess p b onBus s
  | .busOff p tec lec => Sys2Proof.Machine.execBusOff p tec lec s
  | .busOffWait p ms => Sys2Proof.Machine.execBusOffWait p ms s
  | .recover sess p => Sys2Proof.Machine.execRecover sess p s
  | .busOffRecovered p n => Sys2Proof.Machine.execBusOffRecovered p n s
  | .errorPassive p tec rec_ => Sys2Proof.Machine.execErrorPassive p tec rec_ s
  | .errorActive p tec rec_ => Sys2Proof.Machine.execErrorActive p tec rec_ s
  | .boRunClear p ms => Sys2Proof.Machine.execBoRunClear p ms s
  | .stageWrite sess w => Sys2Proof.Machine.execStageWrite sess w s
  | .stageTimeout ms => Sys2Proof.Machine.execStageTimeout ms s
  | .loadKey sess slot type use lockw mseal wrap wrapOk plain => Sys2Proof.Machine.execLoadKey sess slot type use lockw mseal wrap wrapOk plain s
  | .loadCertificate sess slot parses same ca => Sys2Proof.Machine.execLoadCertificate sess slot parses same ca s
  | .generate sess slot type use lockw mseal => Sys2Proof.Machine.execGenerate sess slot type use lockw mseal s
  | .erase sess slot => Sys2Proof.Machine.execErase sess slot s
  | .derive sess parentOk => Sys2Proof.Machine.execDerive sess parentOk s
  | .reservoirLow mv => Sys2Proof.Machine.execReservoirLow mv s
  | .eventRecord => Sys2Proof.Machine.execEventRecord s
  | .logClear sess v => Sys2Proof.Machine.execLogClear sess v s
  | .logReadLoad sess v ok => Sys2Proof.Machine.execLogReadLoad sess v ok s
  | .logReadNext sess ok => Sys2Proof.Machine.execLogReadNext sess ok s
  | .logSearch sess key log => Sys2Proof.Machine.execLogSearch sess key log s
  | .logCrcCheck op mor => Sys2Proof.Machine.execLogCrcCheck op mor s
  | .siteMark => Sys2Proof.Machine.execSiteMark s
  | .eStop m ns => Sys2Proof.Machine.execEStop m ns s
  | .soReq sess => Sys2Proof.Machine.execSoReq sess s
  | .contactorOpen c idx ms valid => Sys2Proof.Machine.execContactorOpen c idx ms valid s
  | .safeOffDcMinusOpen c ms t => Sys2Proof.Machine.execSafeOffDcMinusOpen c ms t s
  | .connectorHeld c t idx => Sys2Proof.Machine.execConnectorHeld c t idx s
  | .safeOffClear sess => Sys2Proof.Machine.execSafeOffClear sess s
  | .estopDiscrepancy ms => Sys2Proof.Machine.execEstopDiscrepancy ms s
  | .watchdogKick v ms o => Sys2Proof.Machine.execWatchdogKick v ms o s
  | .watchdogExpiry ms o => Sys2Proof.Machine.execWatchdogExpiry ms o s
  | .lockstepError o => Sys2Proof.Machine.execLockstepError o s
  | .supplyFailContactorOpen c idx ms valid => Sys2Proof.Machine.execSupplyFailContactorOpen c idx ms valid s
  | .supplyFailDcMinusOpen c ms => Sys2Proof.Machine.execSupplyFailDcMinusOpen c ms s
  | .contactorNotOpened c us => Sys2Proof.Machine.execContactorNotOpened c us s
  | .flashProgram sess w => Sys2Proof.Machine.execFlashProgram sess w s
  | .flashErase sess => Sys2Proof.Machine.execFlashErase sess s
  | .flashDone ok => Sys2Proof.Machine.execFlashDone ok s
  | .firmwareSwitch sess u verified => Sys2Proof.Machine.execFirmwareSwitch sess u verified s
  | .metrologyFirmwareSwitch ms waited ready => Sys2Proof.Machine.execMetrologyFirmwareSwitch ms waited ready s
  | .firmwareRevert u ms o => Sys2Proof.Machine.execFirmwareRevert u ms o s
  | .sectionReload sess sect bank atStamp verified => Sys2Proof.Machine.execSectionReload sess sect bank atStamp verified s
  | .sectionApply => Sys2Proof.Machine.execSectionApply s
  | .packageSubmit sess alg verified fwVerified => Sys2Proof.Machine.execPackageSubmit sess alg verified fwVerified s
  | .packageApply => Sys2Proof.Machine.execPackageApply s
  | .recalibration sess req => Sys2Proof.Machine.execRecalibration sess req s
  | .recalibrationDone fails => Sys2Proof.Machine.execRecalibrationDone fails s
  | .gatewayRelay ip port node tag bytes => Sys2Proof.Machine.execGatewayRelay ip port node tag bytes s
  | .relayEntryExpiry tag secs => Sys2Proof.Machine.execRelayEntryExpiry tag secs s
  | .handshake idx gateway complete adm opr obs => Sys2Proof.Machine.execHandshake idx gateway complete adm opr obs s
  | .handshakeTimeout idx secs => Sys2Proof.Machine.execHandshakeTimeout idx secs s
  | .sessionIdleClose idx secs => Sys2Proof.Machine.execSessionIdleClose idx secs s
  | .read sess id addrs => Sys2Proof.Machine.execRead sess id addrs s
  | .write sess id entries => Sys2Proof.Machine.execWrite sess id entries s
  | .blockRead sess id fixed a n => Sys2Proof.Machine.execBlockRead sess id fixed a n s
  | .blockWrite sess id fixed a words => Sys2Proof.Machine.execBlockWrite sess id fixed a words s
  | .subscribe sess id fixed sub mode period a n => Sys2Proof.Machine.execSubscribe sess id fixed sub mode period a n s
  | .unsubscribe sess id sub => Sys2Proof.Machine.execUnsubscribe sess id sub s
  | .notify sess sub hc => Sys2Proof.Machine.execNotify sess sub hc s
  | .events sess id mask sev => Sys2Proof.Machine.execEvents sess id mask sev s
  | .records sess => Sys2Proof.Machine.execRecords sess s
  | .locate sess id serial => Sys2Proof.Machine.execLocate sess id serial s
  | .launch sess id dst pay recent => Sys2Proof.Machine.execLaunch sess id dst pay recent s
  | .lresult src resp => Sys2Proof.Machine.execLresult src resp s
  | .reset sess id serial recent => Sys2Proof.Machine.execReset sess id serial recent s
  | .time sess id utc frac phase => Sys2Proof.Machine.execTime sess id utc frac phase s
  | .ping sess id => Sys2Proof.Machine.execPing sess id s
  | .close sess id alert => Sys2Proof.Machine.execClose sess id alert s
  | .ptpSync ofs utc utcValid => Sys2Proof.Machine.execPtpSync ofs utc utcValid s
  | .ptpLost intervals => Sys2Proof.Machine.execPtpLost intervals s
  | .ntpPoll secs => Sys2Proof.Machine.execNtpPoll secs s
  | .ntpResponse stratum alarm rootMs ofs utc => Sys2Proof.Machine.execNtpResponse stratum alarm rootMs ofs utc s
  | .ntpLost => Sys2Proof.Machine.execNtpLost s
  | .tmxSelect sess out code => Sys2Proof.Machine.execTmxSelect sess out code s
  | .rstNRelease o => Sys2Proof.Machine.execRstNRelease o s
  | .estopRelease m => Sys2Proof.Machine.execEstopRelease m s
  | .epochInstall ms => Sys2Proof.Machine.execEpochInstall ms s
  | .scheduleRenegotiation c => Sys2Proof.Machine.execScheduleRenegotiation c s
  | .vbatRestored mv => Sys2Proof.Machine.execVbatRestored mv s
  | .reservoirRecharged mv => Sys2Proof.Machine.execReservoirRecharged mv s

end Sys2Proof.Machine
end

