-- ==== Sys2Proof/Machine/Tick.lean ====
section
/-! DEFINITION. What one base period of 4 ns does by itself, whatever is commanded: the Timebase and its keeper (R84, R96), the aux regulators'
switching periods (R60 to R63), the millisecond of R358, and the Fabric's egress queues and injection limit (R174 to R177). -/

namespace Sys2Proof.Machine

open R

/-- The commands of one base period have been taken: what was kept of them for R398, R456 and R469 ends; the time from t_s goes on. -/
def State.sameEnds (s : State) : State :=
  { s with lsw := { s.lsw with acted := 0 }, saf := { s.saf with asked := false, lead := none, age := s.saf.age + 1 } }

/-- A millisecond of 250,000 base periods runs; at its start Thermal notes the connectors that do not comply (R358). -/
def State.msTick (s : State) : State :=
  let no := (if s.is VS_CONN_STAT.COMPLY 0 then 0 else 1) + if s.is VS_CONN_STAT.COMPLY 1 then 0 else 2
  { s with th := if 249999 ≤ s.th.ms then { s.th with ms := 0, defied := no } else { s.th with ms := s.th.ms + 1 } }

/-- One base period of 4 ns (log 4). -/
def State.tick (s : State) : State := ((s.tbTick.keepTick.each 6 fun a t => t.auxTick a).fabTick).sameEnds.msTick

end Sys2Proof.Machine
end

