-- ==== Sys2Proof/Safety.lean ====
section
/-! DEFINITION. What statements about the module are made of: the canonical form of its data, and which parts of the state a command
may change. -/

namespace Sys2Proof

open Sys2Proof.Machine

/-- The data stand in their one canonical form: the register file lists in rising order exactly the words that differ from their
reset value, and the flash exactly the cells that are not erased. -/
def Canonical (s : State) : Prop := sparseWf resetWord s.regs = true ∧ Memory.wf s.flash = true

/-- The parts of the state: a field of the register tables with all its instances, one instance of a field, the whole register file, and
every other field of `State` under its own name. -/
inductive Part where
  | reg (f : Field)
  | inst (f : Field) (i j : Nat)
  | regs
  | capt
  | flash
  | out
  | evr
  | pins
  | boot
  | fresh
  | pending
  | tb
  | keep
  | phx
  | grpx
  | auxx
  | le
  | ff
  | met
  | conns
  | needs
  | lsw
  | saf
  | fab
  | sl
  | plc
  | roster
  | rstStamp
  | bil
  | bilCom
  | tmp
  | th
  | cm
  | sd
  | cs
  | can
  | vault
  | kv
  | mg
  | upd
  | updN
deriving DecidableEq, Repr

/-- Instance `(i, j)` of a field takes bit `k` of the word at address `a`. -/
def holdsBit (f : Field) (i j a k : Nat) : Prop := i < f.n1 ∧ j < f.n2 ∧ a = f.at i j ∧ f.lo ≤ k ∧ k < f.lo + f.w

/-- `t` comes from `s` by changes of the parts in `A` only: every bit of the register file that no field or instance in `A` takes, and every other
field of the state that is not in `A`, is as it was. -/
structure Unchanged (A : Part → Prop) (s t : State) : Prop where
  bits : ¬ A .regs → ∀ a k, (∀ f i j, holdsBit f i j a k → ¬ A (.reg f) ∧ ¬ A (.inst f i j)) →
    (t.word a).getLsbD k = (s.word a).getLsbD k
  capt : A .capt ∨ t.capt = s.capt
  flash : A .flash ∨ t.flash = s.flash
  out : A .out ∨ t.out = s.out
  evr : A .evr ∨ t.evr = s.evr
  pins : A .pins ∨ t.pins = s.pins
  boot : A .boot ∨ t.boot = s.boot
  fresh : A .fresh ∨ t.fresh = s.fresh
  pending : A .pending ∨ t.pending = s.pending
  tb : A .tb ∨ t.tb = s.tb
  keep : A .keep ∨ t.keep = s.keep
  phx : A .phx ∨ t.phx = s.phx
  grpx : A .grpx ∨ t.grpx = s.grpx
  auxx : A .auxx ∨ t.auxx = s.auxx
  le : A .le ∨ t.le = s.le
  ff : A .ff ∨ t.ff = s.ff
  met : A .met ∨ t.met = s.met
  conns : A .conns ∨ t.conns = s.conns
  needs : A .needs ∨ t.needs = s.needs
  lsw : A .lsw ∨ t.lsw = s.lsw
  saf : A .saf ∨ t.saf = s.saf
  fab : A .fab ∨ t.fab = s.fab
  sl : A .sl ∨ t.sl = s.sl
  plc : A .plc ∨ t.plc = s.plc
  roster : A .roster ∨ t.roster = s.roster
  rstStamp : A .rstStamp ∨ t.rstStamp = s.rstStamp
  bil : A .bil ∨ t.bil = s.bil
  bilCom : A .bilCom ∨ t.bilCom = s.bilCom
  tmp : A .tmp ∨ t.tmp = s.tmp
  th : A .th ∨ t.th = s.th
  cm : A .cm ∨ t.cm = s.cm
  sd : A .sd ∨ t.sd = s.sd
  cs : A .cs ∨ t.cs = s.cs
  can : A .can ∨ t.can = s.can
  vault : A .vault ∨ t.vault = s.vault
  kv : A .kv ∨ t.kv = s.kv
  mg : A .mg ∨ t.mg = s.mg
  upd : A .upd ∨ t.upd = s.upd
  updN : A .updN ∨ t.updN = s.updN

/-- The parts that a list names; a field named whole stands for each of its instances. -/
def within (l : List Part) : Part → Prop
  | .inst f i j => .inst f i j ∈ l ∨ .reg f ∈ l
  | p => p ∈ l

/-! ### What is recorded -/

/-- The Event Recorder takes records of these codes, severities and payloads now (R440, R441): it is ready, none is below `MIN_SEV`, and
its intake queue has the places. -/
def accepts (s : State) (l : List (Nat × Nat × List Nat)) : Bool :=
  s.evr.up && decide (s.evr.queue.length + l.length ≤ 256) &&
    l.all fun p => decide (min (s.get R.EVR_CFG.MIN_SEV) 6 ≤ p.2.1)

/-- Where the Event Recorder takes them, these records, and no others, follow in its intake queue. -/
def Logged (s t : State) (l : List (Nat × Nat × List Nat)) : Prop :=
  accepts s l = true →
    (t.evr.queue.map fun r => (r.code, r.sev, r.pay)) = (s.evr.queue.map fun r => (r.code, r.sev, r.pay)) ++ l

/-- Where the Moraine log has the places, these records, and no others, follow in it (R447). -/
def Entered (s t : State) (l : List (Nat × List Nat)) : Prop :=
  s.evr.mor.length + l.length ≤ 8192 →
    (t.evr.mor.map fun h => (h.rcd.code, h.rcd.pay)) = (s.evr.mor.map fun h => (h.rcd.code, h.rcd.pay)) ++ l

/-- These messages were sent first, in this order, beside whatever follows them. -/
def Outs (s t : State) (l : List Out) : Prop := (t.out.reverse.drop s.out.length).take l.length = l

/-- The last message sent, after whatever the way of its frame has brought (R174, R176). -/
def Sends (s t : State) (o : Out) : Prop := ∃ l, t.out = o :: (l ++ s.out)

/-- No frame waits at the egress of a lane (R174). -/
def EgressEmpty (s : State) : Prop := ∀ l, (s.lane l).queue = []

/-! ### Parts that several commands may change -/

/-- What a record of an event may change (R438 to R447). -/
def logParts : List Part := [.evr, .reg R.EVR_CNT.DROP, .reg R.EVR_MOR_LOST.LAST_CODE, .reg R.EVR_MOR_LOST.MOR_LOST, .reg R.EVR_MOR_SEQ.SEQ, .reg
  R.EVR_STAT.MOR_FULL, .reg R.EVR_STAT.MOR_N, .reg R.EVR_STAT.MOR_RES]

/-- What a request of Safe-Off may change (R452 to R462). -/
def safeOffParts : List Part := logParts ++ ([.conns, .le, .pins, .saf, .reg R.LE_INJ_CTRL.EN, .reg R.LE_INJ_CTRL.END, .reg R.LE_INJ_CTRL.STATE,
  .reg R.LE_L_R_TGT.R_TGT, .reg R.LE_L_U_MAX.U_MAX, .reg R.LE_L_U_MIN.U_MIN, .reg R.LSW_BANK.SNS_VALID, .reg R.LSW_CH_CTRL.ON, .reg
  R.LSW_CH_STAT.FRAC, .reg R.LSW_CH_STAT.OL, .reg R.LSW_CH_STAT.STATE, .reg R.LSW_STAT.LATCHED, .reg R.LSW_STAT.OUT, .reg R.PE_GRP_CTRL.EN, .reg
  R.PE_GRP_STAT.N_CFG, .reg R.PE_GRP_STAT.OVS_STATE, .reg R.PE_GRP_STAT.STATE, .reg R.PE_PH_ACT.ACT, .reg R.PE_PH_CFG.EN, .reg R.PE_PH_STAT.STATE,
  .reg R.PE_PH_TRIP.TRIP, .reg R.PE_STAT.GRP_FAULT, .reg R.PE_STAT.GRP_RUN, .reg R.PE_STAT.N_ACT_ALL, .reg R.PWR_STATE.STATE, .reg
  R.SAF_FIRST.FIRST, .reg R.SAF_FIRST.SO_CNT, .reg R.SAF_SRC.SRC, .reg R.SAF_SRC.SRC_SEEN, .reg R.SAF_STAT.ACTIVE, .reg R.SAF_STAT.DONE, .reg
  R.VS_CONN_STAT.COMPLY, .reg R.VS_CONN_STAT.END, .reg R.VS_CONN_STAT.FAST, .reg R.VS_CONN_STAT.STATE] : List Part)

/-- What a request of an operating state may change (R57, R58). -/
def dormantParts : List Part := [.auxx, .boot, .can, .capt, .conns, .cs, .evr, .fab, .grpx, .kv, .le, .lsw, .mg, .needs, .out, .phx, .pins, .plc,
  .regs, .saf, .sl, .tb, .th, .upd]

/-- What a CAN frame stored in a buffer may change (R407 to R410). -/
def canParts : List Part := logParts ++ ([.can, .conns, .reg R.CAN_BUF_CTRL.NEW, .reg R.CAN_BUF_CTRL.OVR, .reg R.CAN_MB.WORD, .reg
  R.LE_L_R_TGT.R_TGT, .reg R.LE_L_U_MAX.U_MAX, .reg R.LE_L_U_MIN.U_MIN, .reg R.TH_FLOW_VAL.FLOW, .reg R.TH_FLOW_VAL.VALID, .reg R.VS_CONN_ISO.R_ISO,
  .reg R.VS_CONN_STAT.COMPLY, .reg R.VS_CONN_STAT.END, .reg R.VS_CONN_STAT.FAST, .reg R.VS_CONN_STAT.IMD_WARN, .reg R.VS_CONN_STAT.STATE] : List
  Part)

/-- What a command of a load switch channel may change (R386 to R390). -/
def channelParts : List Part := [.pins, .reg R.LSW_BANK.SNS_VALID, .reg R.LSW_CH_CTRL.ON, .reg R.LSW_CH_STAT.FRAC, .reg R.LSW_CH_STAT.OL, .reg
  R.LSW_CH_STAT.STATE, .reg R.LSW_STAT.LATCHED, .reg R.LSW_STAT.OUT]

/-- What a change of a key slot may change (R421 to R423, R502). -/
def slotParts : List Part := logParts ++ ([.fab, .kv, .mg, .vault, .reg R.KV_CMD.GO, .reg R.KV_CMD.OP, .reg R.KV_CMD.SLOT, .reg R.KV_CMD_STAT.BUSY,
  .reg R.KV_CMD_STAT.RESULT, .reg R.KV_STAT.N_BAD, .reg R.KV_STAT.N_USED, .reg R.KV_STAT.N_WORK, .reg R.SYS_MGMT_STAT.N_ADMIN, .reg
  R.SYS_MGMT_STAT.N_RELAY, .reg R.SYS_MGMT_STAT.N_SESS, .reg R.SYS_SESS.LEVEL, .reg R.SYS_SESS.N_SUB, .reg R.SYS_SESS.PEER, .reg R.SYS_SESS.STATE,
  .reg R.SYS_SESS.VIA, .reg R.TMX_SEL_A.ADM, .reg R.TMX_SEL_A.SEL, .reg R.TMX_SEL_D.ADM, .reg R.TMX_SEL_D.SEL, .reg R.TMX_STAT.ACT_A, .reg
  R.TMX_STAT.ACT_D, .reg R.TMX_STAT.DROP_SEEN] : List Part)

/-- What the end of a reset of domains may change (R73 to R75). -/
def restartParts : List Part := [.auxx, .bil, .boot, .evr, .fab, .ff, .kv, .le, .lsw, .mg, .out, .pins, .plc, .regs, .roster, .saf, .sl, .tb, .updN,
  .vault]

/-- What a change of a zone's state may change (R347 to R349). -/
def zoneParts : List Part := [.reg R.PE_GRP_THERM.I_THERM, .reg R.TH_STAT.ZONE_ENF, .reg R.TH_STAT.ZONE_SHUT, .reg R.VS_CONN_ALLOW.I_THASK, .reg
  R.VS_CONN_STAT.COMPLY]

/-- What a frame on its way may change (R185 to R187). -/
def routeParts : List Part := logParts ++ ([.fab, .fresh, .out, .plc, .reg R.FAB_DROP0.EPOCH, .reg R.FAB_DROP0.HOPORI, .reg R.FAB_DROP0.STALL,
  .reg R.FAB_DROP0.UNREACH, .reg R.FAB_DROP1.RSP_DROP, .reg R.FAB_DROP1.URG_DEMOTE] : List Part)

/-- What the end of a launched action may change (R196, R197). -/
def launchParts : List Part := routeParts ++ ([.reg R.FAB_LA_CFG.LA_QUSE, .reg R.FAB_LA_CNT.EXEC] : List Part)

/-- What the loops take at angle 0, which an action of the Loop Engine awaits (R139, R158, R196), may change. -/
def angleZeroParts : List Part := [.le, .reg R.LE_CTRL.SRATE_ACT, .reg R.LE_CTRL.SR_STATUS, .reg R.LE_FF_CTRL.ACT, .reg R.LE_STAT.K, .reg
  R.LE_STAT.LOAD_MAX, .reg R.LE_STAT.N_EN]

/-- What a stop of a connector may change (R319, R320). -/
def stopParts : List Part := logParts ++ ([.conns, .reg R.LE_L_R_TGT.R_TGT, .reg R.LE_L_U_MAX.U_MAX, .reg R.LE_L_U_MIN.U_MIN] : List Part)

/-- What a fallen power-good signal of an aux channel may change (R64). -/
def railParts : List Part := logParts ++ ([.grpx, .pins, .reg R.PE_GRP_STAT.PHLOSS_SEEN, .reg R.PE_PH_ACT.ACT, .reg R.PE_PH_CNT.TRIPS, .reg
  R.PE_PH_STAT.FLT_CODE, .reg R.PE_PH_STAT.STATE, .reg R.PE_PH_TRIP.TRIP, .reg R.PE_STAT.N_ACT_ALL] : List Part)

/-- What a fault of a phase group may change (R127, R133). -/
def groupParts : List Part := logParts ++ ([.pins, .reg R.PE_PH_ACT.ACT, .reg R.PE_PH_STAT.STATE, .reg R.PE_PH_TRIP.TRIP, .reg R.PE_STAT.GRP_FAULT,
  .reg R.PE_STAT.GRP_RUN, .reg R.PE_STAT.N_ACT_ALL] : List Part)

/-- What an election may change (R177, R178). -/
def electParts : List Part := routeParts ++ ([.sl, .reg R.FAB_STAT.ROOT, .reg R.FAB_STAT.STATE, .reg R.SL_ROOT_WAIT.WAIT_MS, .reg
  R.SL_STAT.QUORUM, .reg R.SL_STAT.ROOT_STATE, .reg R.TB_STAT.ROOT] : List Part)

end Sys2Proof
end

