-- ==== Sys2Proof/Certificates/Slice0/Obligations.lean ====
section
/-! DEFINITION. The statements about the module. -/

open Sys2Proof Sys2Proof.Machine Sys2Proof.Machine.R

/-- A step takes the command at the front of the queue and runs it with the rest of the queue waiting. The queue is the model's own (log 1). -/
def Obligations.StepTakesFront : Prop :=
  ∀ (c : Instr) (s : State), step { s with pending := c :: s.pending } = exec c s

/-- With an empty queue a step is one base period of 4 ns: the Timebase and the stamp keeper count on, the aux channels switch, the lanes and the
frames that wait at the source go on, and nothing else changes but what these bring. The tick is the model's choice (log 4). -/
def Obligations.EmptyQueueTick : Prop :=
  ∀ s : State, s.pending = [] → ∃ t, step s = .next t ∧ t = s.tick ∧ Unchanged (within (routeParts ++ ([.auxx, .fresh, .keep, .pins, .tb, .reg
    R.PLC_STAT.TIME_SRC, .reg R.SYS_BOOT_STAT.STEP, .reg R.SYS_READY.RDY, .reg R.TB_API_CFG.API_PRESENT, .reg R.TB_DLL.LOCK, .reg R.TB_DLL.TAP_PS,
    .reg R.TB_ERR.ERR, .reg R.TB_FREQ_LOC.FLOC, .reg R.TB_GRP_OFS_ACT.GOFS_ACT, .reg R.TB_HOLD.HOLD_CYC, .reg R.TB_INC.INC, .reg R.TB_KEEP_HI.STAMP,
    .reg R.TB_KEEP_LO.STAMP, .reg R.TB_PH_OFS_ACT.POFS_ACT, .reg R.TB_STAMP_HI.STAMP, .reg R.TB_STAMP_LO.STAMP, .reg R.TB_STAT.ACQUIRED, .reg
    R.TB_STAT.ALIGNED, .reg R.TB_STAT.DLL_LOCK, .reg R.TB_STAT.REF, .reg R.TB_STAT.SRC, .reg R.TB_STAT.STATE, .reg R.UPD_FW_MINSEC.MINSEC] : List
    Part))) s t

/-- Every command answers a next state and leaves the waiting commands alone; a step therefore consumes exactly one. The queue is the model's own
(log 1). -/
def Obligations.QueueUntouched : Prop :=
  (∀ (c : Instr) (s : State), ∃ t, exec c s = .next t ∧ t.pending = s.pending) ∧
  (∀ (c : Instr) (l : List Instr) (s : State), s.pending = c :: l → ∃ t, step s = .next t ∧ t.pending = l)

/-- The data of the reset state stand in canonical form. The form is the model's own (log 2, log 12). -/
def Obligations.ResetCanonical : Prop :=
  Canonical State.reset

/-- Every step keeps the canonical form, so that equal registers and equal flash are equal data. The form is the model's own (log 2, log 12). -/
def Obligations.StepKeepsCanonical : Prop :=
  ∀ s t : State, Canonical s → step s = .next t → Canonical t

/-- R446: whatever the command, the Moraine log of the next state begins with that of the state. -/
def Obligations.MoraineKept : Prop :=
  ∀ s : State, ∃ t, step s = .next t ∧ s.evr.mor <+: t.evr.mor

/-- Results of the Timebase's commands: what each leaves, and that it completes. Chapters: 05_grid_angle_timebase. Operands stand for what the
module observes (log 5) and open values are free (log 6); where a clause rests on another choice of the model, the log entries are 4, 25, 30,
102, 103, 120, 121, 134. -/
def Obligations.TimebaseResults : Prop :=
  (∀ (s : State) (src srcStamp f cycles : Nat), s.runs 4 → s.get TB_STAT.STATE = 1 → s.srcAllowed src → (s.is TB_STAT.ROOT → src = 1 ∧ 3 ≤ cycles) → ∃
    t, exec (.tbAcquireLock src srcStamp f cycles) s = .next t ∧ t.get TB_STAT.STATE = 2 ∧ t.get TB_STAT.SRC = src ∧ t.get TB_STAT.ALIGNED = 1 ∧
    t.get TB_STAT.ACQUIRED = 1 ∧ t.get TB_ERR.ERR = 0 ∧ (s.is TB_STAT.ROOT = false → t.stamp = srcStamp % 2 ^ 64) ∧ (src = 1 → t.get TB_STAT.GRID_OK
    = 1)) ∧
  (∀ (s : State) (ms : Nat), s.runs 4 → s.get TB_STAT.STATE = 1 → 60 ≤ ms → ∃ t, exec (.tbAcquireTimeout ms) s = .next t ∧ t.get TB_STAT.STATE = 4 ∧
    t.get TB_STAT.SRC = 0 ∧ t.get TB_STAT.ALIGNED = 0 ∧ t.get TB_STAT.ACQUIRED = 1 ∧ t.stamp = s.restartCycle * 2 ^ 24 % 2 ^ 64) ∧
  (∀ (s : State) (m : Nat), s.runs 4 → (s.get TB_STAT.STATE = 2 ∨ s.get TB_STAT.STATE = 3) → s.get TB_STAT.SRC = 3 → clampN 2 32 (s.get
    TB_FOLLOW.SRC_TMO) ≤ m → ∃ t, exec (.tbSourceLost 3 2 m none) s = .next t ∧ t.get TB_STAT.STATE = 4 ∧ t.get TB_STAT.SRC = 0 ∧ t.get
    TB_HOLD.HOLD_CYC = 0 ∧ Logged s t [(0x0206, 3, [3])]) ∧
  (∀ (s : State) (jump : Int), s.runs 4 → (s.get TB_STAT.STATE = 2 ∨ s.get TB_STAT.STATE = 3) → s.get TB_STAT.SRC = 1 → s.get TB_GRID_CFG.JUMP_MAX *
    0x10000 < jump.natAbs → ∃ t, exec (.gridPhaseJump jump) s = .next t ∧ t.get TB_STAT.STATE = 4 ∧ t.get TB_STAT.SRC = 0 ∧ t.get TB_STAT.GRID_OK =
    0 ∧ t.get TB_STAT.GRID_LOST_SEEN = 1 ∧ Logged s t [(0x0205, 3, leBytes 4 (ofSigned 32 jump))]) ∧
  (∀ (s : State) (jump : Int), s.runs 4 → s.get TB_STAT.SRC ≠ 1 → s.is TB_STAT.GRID_OK → s.get TB_GRID_CFG.JUMP_MAX * 0x10000 < jump.natAbs → ∃ t,
    exec (.gridPhaseJump jump) s = .next t ∧ t.get TB_STAT.STATE = s.get TB_STAT.STATE ∧ t.get TB_STAT.SRC = s.get TB_STAT.SRC ∧ t.get TB_STAT.GRID_OK
    = 0 ∧ Logged s t [(0x0205, 3, leBytes 4 (ofSigned 32 jump))]) ∧
  (∀ (s : State) (lines : Nat), s.runs 4 → s.is TB_CTRL.LINES → lines % 8 ≠ 0 → ∃ t, exec (.lineFault lines) s = .next t ∧ t.get TB_STAT.LINE_FLT = 1
    ∧ Logged s t [(0x020B, 3, [lines % 8])]) ∧
  (∀ (s : State) (cycles : Nat), 10 ≤ cycles → exec (.lineFaultClear cycles) s = .next (s.put TB_STAT.LINE_FLT 0)) ∧
  (∀ (s : State) (e : Int) (f : Nat), s.runs 4 → s.get TB_STAT.STATE = 2 → s.tbTol (s.get TB_STAT.SRC) < e.natAbs → ∃ t, exec (.tbSlewEntry e f) s =
    .next t ∧ t.get TB_STAT.STATE = 3 ∧ t.get TB_STAT.ALIGNED = 0 ∧ t.get TB_ERR.ERR = ofSigned 32 e % 2 ^ TB_ERR.ERR.w ∧ t.tb.fsrc = f * mHz ∧
    Logged s t [(0x0203, 2, leBytes 4 (ofSigned 32 e))]) ∧
  (∀ (s : State) (e : Int) (cycles ms : Nat), s.runs 4 → s.get TB_STAT.STATE = 3 → s.tb.renum = none → e.natAbs ≤ s.tbTol (s.get TB_STAT.SRC) → 2 ≤
    cycles → ∃ t, exec (.tbSlewLocked e cycles ms) s = .next t ∧ t.get TB_STAT.STATE = 2 ∧ t.get TB_STAT.ALIGNED = 1 ∧ t.tb.acq = false ∧ Logged s t
    ((0x0204, 1, leBytes 2 (min ms 0xFFFF)) :: if s.tb.acq then [(0x0201, 2, [s.get TB_STAT.SRC])] else [])) ∧
  (∀ (s : State) (src srcStamp f cycles : Nat), s.runs 4 → s.get TB_STAT.STATE = 4 → s.srcAllowed src → (src = 1 → clampN 2 250 (s.get
    TB_GRID_CFG.RET_CYC) ≤ cycles) → (src = 4 → if s.tb.apiLost then 3 ≤ s.tb.apiOk else s.is TB_API_CFG.API_PRESENT) → ∃ t, exec (.tbSourceTaken src
    srcStamp f cycles) s = .next t ∧ t.get TB_STAT.STATE = 3 ∧ t.get TB_STAT.SRC = src ∧ t.tb.fsrc = f * mHz ∧ (src = 1 → t.get TB_STAT.GRID_OK = 1) ∧
    Logged s t [(0x0207, 2, [src])]) ∧
  (∀ (s : State) (k : Int), s.atAngle 0 → s.tb.renum = some k → s.tb.commit = none → ∃ t, exec (.cycleRenumber) s = .next t ∧ t.stamp = ofSigned 64
    (s.stamp + k * 2 ^ 24) ∧ t.get TB_STAT.RENUM_SEEN = 1 ∧ t.tb.renum = none) ∧
  (∀ (s : State), s.keep.ref → ∃ t, exec (.refclkLost) s = .next t ∧ t.get TB_STAT.REF = 0 ∧ t.get TB_STAT.REF_LOST_SEEN = 1 ∧ Logged s t [(0x0209,
    4, [])]) ∧
  (∀ (s : State) (tapPs periods : Nat), s.runs 4 → s.is TB_STAT.DLL_LOCK → (tapPs < 94 ∨ 156 < tapPs) → 16 ≤ periods → ∃ t, exec (.dllUnlock tapPs
    periods) s = .next t ∧ t.get TB_STAT.DLL_LOCK = 0 ∧ t.get TB_DLL.LOCK = 0 ∧ t.get TB_STAT.DLL_UNLK_SEEN = 1 ∧ t.get PE_STAT.DLL_HOLD = 1 ∧
    Logged s t [(0x020A, 4, []), (0x0336, 3, [0xFF])]) ∧
  (∀ (s : State) (tapPs : Nat), s.runs 4 → s.get TB_STAT.DLL_LOCK = 0 → 94 ≤ tapPs → tapPs ≤ 156 → ∃ t, exec (.dllRelock tapPs) s = .next t ∧ t.get
    TB_STAT.DLL_LOCK = 1 ∧ t.get TB_DLL.LOCK = 1 ∧ t.get TB_DLL.TAP_PS = tapPs ∧ t.get PE_STAT.DLL_HOLD = 0 ∧ Logged s t [(0x020C, 2, [])]) ∧
  (∀ (s : State), s.keeper ≠ 0 → (s.get2 TB_LAST_STAMP_LO.LAST TB_LAST_STAMP_HI.LAST + 2 ^ 40 ≤ s.keeper ∨ s.keeper < s.get2 TB_LAST_STAMP_LO.LAST
    TB_LAST_STAMP_HI.LAST) → ∃ t, exec (.keeperCommit) s = .next t ∧ t.keep.commitInc = s.keep.inc ∧ t.get2 TB_LAST_STAMP_LO.LAST
    TB_LAST_STAMP_HI.LAST = s.keeper ∧ t.keep.commitRtc = s.rtc) ∧
  (∀ (s : State) (g : Nat), s.atAngle 0 → s.tb.renum = none → g < 8 → exec (.ncarChange g) s = .next (s.put TB_GRP_CAR.NCAR_ACT (clampN 320 5000
    (s.get TB_GRP_CAR.NCAR g)) g)) ∧
  (∀ (s : State) (sess : Nat), s.writeStatus sess TB_OFS_CTRL.COMMIT = 0 → s.ofsAffected ≠ 0 → ∃ t, exec (.offsetCommit sess) s = .next t ∧ t.get
    TB_OFS_CTRL.PEND = 1 ∧ t.tb.left = s.ofsAffected ∧ (t.tb.commit = some (if s.is TB_OFS_CTRL.AT_STAMP then some (s.get2 TB_COMMIT_LO.STAMP
    TB_COMMIT_HI.STAMP) else none))) ∧
  (∀ (s : State) (g : Nat), s.atBoundary g → s.respaceDue g = false → s.tb.left = 2 ^ g → s.tb.commit = some none → g < 8 → ∃ t, exec
    (.offsetCommitTaken g) s = .next t ∧ t.tb.left = 0 ∧ t.tb.commit = none ∧ t.get TB_OFS_CTRL.PEND = 0 ∧ sparseGet 0 g t.tb.gTgt = s.get
    TB_GRP_OFS.GOFS g) ∧
  (∀ (s : State), s.is TB_APO_CFG.APO_EN → s.atAngle (s.get TB_APO_CFG.APO_ANG) → ∃ t, exec (.anglePulseOut) s = .next t ∧ t.pins.apo = true ∧
    t.tb.apoLeft = clampN 1 1000 (s.get TB_APO_W.APO_W) * 250) ∧
  (∀ (s : State) (edge : Nat), s.runs 4 → ∃ t, exec (.anglePulseCapture edge) s = .next t ∧ t.get2 TB_API_CAP_LO.STAMP TB_API_CAP_HI.STAMP = edge / 16
    % 2 ^ 64 ∧ t.get TB_API_CAP_FR.FRAC = edge % 16)

/-- Results of the Phase Engine's commands: what each leaves, and that it completes. Chapters: 06_phase_engine. Operands stand for what the
module observes (log 5) and open values are free (log 6); where a clause rests on another choice of the model, the log entries are 24, 28, 35,
104, 105, 106, 107, 122, 133. -/
def Obligations.PhaseResults : Prop :=
  (∀ (s : State) (g v : Nat), s.atBoundary g → s.runs 5 → g < 8 → s.get PE_GRP_STAT.STATE g = 0 → ∃ t, exec (.groupCarrierBoundary g v) s = .next t
    ∧ t.get PE_GRP_MEAS.V_GRP g = min v (2 ^ PE_GRP_MEAS.V_GRP.w - 1) ∧ t.get PE_GRP_STAT.N_ACT g = 0 ∧ t.get PE_GRP_STAT.STATE g = 0) ∧
  (∀ (s : State) (g v : Nat), s.atBoundary g → s.runs 5 → g < 8 → s.get PE_GRP_STAT.STATE g = 1 → (s.phasesIn g 2).length < max 1 (s.get
    PE_GRP_CTRL.N_MIN g) → ∃ t, exec (.groupCarrierBoundary g v) s = .next t ∧ t.get PE_GRP_STAT.STATE g = 3 ∧ t.get PE_GRP_STAT.FLT_CAUSE g = 1 ∧ bit
    (t.get PE_STAT.GRP_FAULT) g) ∧
  (∀ (s : State) (n : Nat) (o : CarrierObs), s.atCarrier (s.get TB_GRP_CAR.NCAR_ACT (s.get PE_PH_CFG.GRP n)) (s.get TB_PH_OFS_ACT.POFS_ACT n) →
    s.nextCarrier n → s.runs (5 + n / 48) → n < 96 → s.get PE_PH_STAT.STATE n = 2 → s.get PE_GRP_STAT.OVS_STATE (s.get PE_PH_CFG.GRP n) = 0 → s.get
    PE_GRP_SCALE.CS_SCALE (s.get PE_PH_CFG.GRP n) ≠ 0 → s.dacCode n (s.grp (s.get PE_PH_CFG.GRP n)).th = some 2048 → s.senseSign n * o.sensed < 0 →
    o.truncated = false → ∃ t, exec (.carrierStart n o) s = .next t ∧ t.get PE_PH_MEAS.TH n = 2048 ∧ t.get PE_PH_MEAS.TON n ≠ 0 ∧ (t.ph n).th = (s.grp
    (s.get PE_PH_CFG.GRP n)).th ∧ (t.ph n).at_ = some s.stamp) ∧
  (∀ (s : State) (n : Nat) (o : CarrierObs), s.atCarrier (s.get TB_GRP_CAR.NCAR_ACT (s.get PE_PH_CFG.GRP n)) (s.get TB_PH_OFS_ACT.POFS_ACT n) →
    s.nextCarrier n → s.runs (5 + n / 48) → n < 96 → s.get PE_PH_STAT.STATE n = 2 → s.get PE_GRP_STAT.OVS_STATE (s.get PE_PH_CFG.GRP n) = 0 →
    s.dacCode n (s.grp (s.get PE_PH_CFG.GRP n)).th = some 2048 → 0 ≤ s.senseSign n * o.sensed → ∃ t, exec (.carrierStart n o) s = .next t ∧ t.get
    PE_PH_MEAS.TON n = 0) ∧
  (∀ (s : State) (g : Nat), g < 8 → s.atAngle 0 ∨ s.atAngle 0x800000 → ∃ t, exec (.halfCycleBoundary) s = .next t ∧ t.get PE_GRP_LEASE.EXP_HC g =
    s.get PE_GRP_LEASE.EXP_HC g - 1 ∧ t.sl.pledgeHc = s.sl.pledgeHc - 1) ∧
  (∀ (s : State) (g : Nat), g < 8 → s.get PE_GRP_LEASE.EXP_HC g = 0 → s.get PE_GRP_LEASE.LAPSED g = 0 → ∃ t, exec (.leaseLapse g) s = .next t ∧ t.get
    PE_GRP_LEASE.LAPSED g = 1 ∧ Logged s t [(0x0334, 1, [g])]) ∧
  (∀ (s : State) (g gvs pulses : Nat), g < 8 → s.groupRuns g → s.get PE_GRP_STAT.OVS_STATE g = 0 → s.get PE_GRP_OVS.OVS1 g < gvs → gvs < s.get
    PE_GRP_OVS.OVS2 g → ∃ t, exec (.overshootTruncate g gvs pulses) s = .next t ∧ t.get PE_GRP_STAT.OVS_STATE g = 1 ∧ t.get PE_GRP_STAT.TRUNC_SEEN g
    = 1) ∧
  (∀ (s : State) (g gvs : Nat), g < 8 → s.groupRuns g → (s.get PE_GRP_STAT.OVS_STATE g = 0 ∨ s.get PE_GRP_STAT.OVS_STATE g = 1) → s.get
    PE_GRP_OVS.OVS2 g ≤ gvs → ∃ t, exec (.overshootBrake g gvs) s = .next t ∧ t.get PE_GRP_STAT.OVS_STATE g = 2 ∧ t.get PE_GRP_STAT.BRK_SEEN g = 1)
    ∧
  (∀ (s : State) (g periods : Nat), g < 8 → s.groupRuns g → s.get PE_GRP_STAT.OVS_STATE g = 1 → 2 ≤ periods → ∃ t, exec (.truncateTimeout g periods) s
    = .next t ∧ t.get PE_GRP_STAT.OVS_STATE g = 2 ∧ t.get PE_GRP_STAT.BRK_SEEN g = 1 ∧ Logged s t [(0x0321, 3, [g])]) ∧
  (∀ (s : State) (g gvs : Nat), g < 8 → s.groupRuns g → s.get PE_GRP_STAT.OVS_STATE g = 1 → gvs ≤ s.get PE_GRP_OVS.OVS1 g → gvs < s.get
    PE_GRP_OVS.OVS2 g → exec (.truncateRelease g gvs) s = .next (s.put PE_GRP_STAT.OVS_STATE 0 g)) ∧
  (∀ (s : State) (g gvs : Nat), g < 8 → s.groupRuns g → s.get PE_GRP_STAT.OVS_STATE g = 1 → gvs ≤ s.get PE_GRP_OVS.OVS1 g → s.get PE_GRP_OVS.OVS2 g
    ≤ gvs → ∃ t, exec (.truncateRelease g gvs) s = .next t ∧ t.get PE_GRP_STAT.OVS_STATE g = 2 ∧ t.get PE_GRP_STAT.BRK_SEEN g = 1 ∧ Logged s t
    [(0x0321, 3, [g])]) ∧
  (∀ (s : State) (g gvs : Nat), g < 8 → s.groupRuns g → s.get PE_GRP_STAT.OVS_STATE g = 2 → gvs < s.get PE_GRP_OVR.OVR g → exec (.brakeRelease g gvs)
    s = .next (s.put PE_GRP_STAT.OVS_STATE 0 g)) ∧
  (∀ (s : State) (g hc : Nat), g < 8 → s.groupRuns g → s.get PE_GRP_STAT.OVS_STATE g = 2 → max 1 (s.get PE_GRP_OVR.BRK_MAX g) ≤ hc → ∃ t, exec
    (.brakingTimeout g hc) s = .next t ∧ t.get PE_GRP_STAT.STATE g = 3 ∧ t.get PE_GRP_STAT.FLT_CAUSE g = 2 ∧ t.phasesIn g 2 = [] ∧ Logged s t
    [(0x0322, 5, [g])]) ∧
  (∀ (s : State) (n code : Nat), n < 96 → s.get PE_PH_STAT.STATE n = 2 → s.checkDone n = some code → ∃ t, exec (.phaseCheckFail n) s = .next t ∧ t.get
    PE_PH_STAT.STATE n = 3 ∧ t.get PE_PH_STAT.FLT_CODE n = code ∧ t.get PE_GRP_STAT.PHLOSS_SEEN (s.get PE_PH_CFG.GRP n) = 1 ∧ (bit t.pins.gateH n =
    false ∧ bit t.pins.gateL n = false)) ∧
  (∀ (s : State) (n low : Nat), n < 96 → (s.get PE_PH_STAT.STATE n = 1 ∨ s.get PE_PH_STAT.STATE n = 2) → s.get PE_CTRL.FLT_FILT ≤ low → s.get
    PE_GRP_CTRL.FLT_ACT (s.get PE_PH_CFG.GRP n) = 0 → ∃ t, exec (.driverFault n low) s = .next t ∧ t.get PE_PH_STAT.STATE n = 3 ∧ t.get
    PE_PH_STAT.FLT_CODE n = 5 ∧ t.get PE_PH_STAT.FLT_IN n = 1 ∧ (bit t.pins.gateH n = false ∧ bit t.pins.gateL n = false)) ∧
  (∀ (s : State) (n : Nat) (diff : Int), n < 96 → s.get PE_PH_STAT.STATE n = 2 → s.get PE_DIAG.IMBAL * s.get PE_GRP_RATING.I_PH_MAX (s.get
    PE_PH_CFG.GRP n) < diff.natAbs * 100 → ∃ t, exec (.phaseImbalance n diff) s = .next t ∧ Logged s t [(0x0335, 3, [s.get PE_PH_CFG.GRP n, n])] ∧
    t.regs = (s.log 0x0335 WARNING [s.get PE_PH_CFG.GRP n, n]).regs) ∧
  (∀ (s : State) (sess n : Nat), n < 96 → s.writeStatus sess PE_PH_CFG.EN n = 0 → s.get PE_PH_STAT.STATE n = 0 → s.inRun → s.is PWR_HOLDUP.HOLDUP_OK →
    s.gateSupply (n / 48) → s.get SAF_STAT.ACTIVE = 0 → bit s.upd.recal (n / 48) = false → ∃ t, exec (.phaseEnable sess n false) s = .next t ∧ t.get
    PE_PH_CFG.EN n = 1 ∧ t.get PE_PH_STAT.STATE n = 1 ∧ t.get PE_PH_STAT.FLT_CODE n = 0) ∧
  (∀ (s : State) (sess n : Nat), n < 96 → s.writeStatus sess PE_PH_CFG.EN n = 0 → ∃ t, exec (.phaseDisable sess n) s = .next t ∧ t.get PE_PH_CFG.EN n
    = 0 ∧ t.get PE_PH_STAT.STATE n = 0 ∧ (bit t.pins.gateH n = false ∧ bit t.pins.gateL n = false)) ∧
  (∀ (s : State) (n : Nat), n < 96 → s.atAngle 0 → s.get PE_PH_STAT.STATE n = 1 → s.groupRuns (s.get PE_PH_CFG.GRP n) → s.is TB_STAT.DLL_LOCK →
    s.gateSupply (n / 48) → ∃ t, exec (.phaseJoin n) s = .next t ∧ t.get PE_PH_STAT.STATE n = 2 ∧ bit (t.get PE_PH_ACT.ACT (n / 32)) (n % 32) ∧ (t.grp
    (s.get PE_PH_CFG.GRP n)).changed = true) ∧
  (∀ (s : State) (sess g : Nat), g < 8 → s.writeStatus sess PE_GRP_CTRL.EN = 0 → ∃ t, exec (.groupEnable sess g) s = .next t ∧ t.get PE_GRP_CTRL.EN g
    = 1 ∧ (s.get PE_GRP_STAT.STATE g ≠ 0 → t = s.put PE_GRP_CTRL.EN 1 g)) ∧
  (∀ (s : State) (g : Nat), g < 8 → s.atAngle 0 → s.get PE_GRP_STAT.STATE g = 0 → s.is PE_GRP_CTRL.EN g → s.startOk g → ∃ t, exec (.groupStart g) s
    = .next t ∧ t.get PE_GRP_STAT.STATE g = 1 ∧ t.get PE_GRP_STAT.N_ACT g = (t.phasesIn g 2).length ∧ t.phasesIn g 1 = [] ∧ t.get
    PE_GRP_STAT.FLT_CAUSE g = 0 ∧ t.get PE_GRP_STAT.START_BLK g = 0) ∧
  (∀ (s : State) (g : Nat), g < 8 → s.atAngle 0 → s.get PE_GRP_STAT.STATE g = 0 → s.is PE_GRP_CTRL.EN g → s.startOk g = false → exec (.groupStart g)
    s = .next (s.put PE_GRP_STAT.START_BLK 1 g)) ∧
  (∀ (s : State) (sess g : Nat), g < 8 → s.writeStatus sess PE_GRP_CTRL.EN = 0 → ∃ t, exec (.groupDisable sess g) s = .next t ∧ t.get PE_GRP_CTRL.EN g
    = 0 ∧ t.get PE_GRP_STAT.START_BLK g = 0 ∧ (s.get PE_GRP_STAT.STATE g = 1 → t.get PE_GRP_STAT.STATE g = 2) ∧ (s.get PE_GRP_STAT.STATE g = 3 →
    t.get PE_GRP_STAT.STATE g = 0)) ∧
  (∀ (s : State) (g : Nat), g < 8 → s.get PE_GRP_STAT.STATE g = 2 → (s.grp g).d = 0 → s.groupNearZero g → ∃ t, exec (.rampdownComplete g) s = .next t
    ∧ t.get PE_GRP_STAT.STATE g = 0 ∧ t.get PE_GRP_STAT.N_ACT g = 0 ∧ t.phasesIn g 2 = [] ∧ Logged s t [(0x0302, 1, [g])]) ∧
  (∀ (s : State) (g : Nat), g < 8 → s.get PE_GRP_STAT.STATE g = 1 → s.get PE_GRP_CTRL.DEM_SRC g ≠ 1 → max 2 (s.get PE_CTRL.DEM_TMO) ≤ (s.grp g).demAge
    → ∃ t, exec (.demandWatchdog g) s = .next t ∧ t.get PE_GRP_STAT.STATE g = 2 ∧ t.get PE_GRP_CTRL.EN g = 0 ∧ t.get PE_GRP_STAT.WDOG_SEEN g = 1 ∧
    Logged s t [(0x0331, 3, [g])]) ∧
  (∀ (s : State) (g : Nat), g < 8 → s.atAngle 0 → s.atBoundary g → bit s.tb.respace g → ∃ t, exec (.respaceCommit g) s = .next t ∧ bit t.tb.respace
    g = false ∧ sparseGet 0 g t.tb.gTgt = s.get TB_GRP_OFS.GOFS g ∧ Logged s t [(0x0333, 1, [g, (s.phasesIn g 2).length, 0])])

/-- Results of the Loop Engine's commands: what each leaves, and that it completes. Chapters: 07_loop_engine. Operands stand for what the module
observes (log 5) and open values are free (log 6); where a clause rests on another choice of the model, the log entries are 7, 26, 27, 29, 33,
89, 112, 114, 123, 135. -/
def Obligations.LoopResults : Prop :=
  (∀ (s : State) (i late g : Nat), s.atStrobe i s.sRate → s.runs 7 → g < 8 → s.get PE_GRP_CTRL.DEM_SRC g = 1 → ∃ t, exec (.sampleStrobe i late) s =
    .next t ∧ t.get PE_GRP_DEM.DEM g = s.get PE_GRP_DEM_MAN.DEM_MAN g ∧ (i = 0 → t.le.swap = 0) ∧ (i = 0 → s.le.sratePend → t.get LE_CTRL.SRATE_ACT =
    s.get LE_CTRL.SRATE ∧ t.get LE_CTRL.SR_STATUS = 2)) ∧
  (∀ (s : State) (l : Nat), l < 64 → s.get LE_L_STAT.STATE l = 4 → 4 ≤ (s.lx l).good → ∃ t, exec (.loopHoldExit l) s = .next t ∧ t.get LE_L_STAT.STATE
    l = 1 ∧ (t.lx l).good = 0 ∧ Logged s t [(0x0405, 1, [l])]) ∧
  (∀ (s : State) (sess v : Nat), s.writeStatus sess LE_CTRL.SRATE = 0 → v < 4 → s.get LE_INJ_CTRL.STATE 0 ≠ 2 → s.get LE_INJ_CTRL.STATE 1 ≠ 2 →
    s.get LE_CAP_CTRL.STATE = 0 → s.overBudget s.loopsOn (srateOf v) = none → exec (.srateChange sess (some v)) s = .next ({ (s.put LE_CTRL.SRATE
    v).put LE_CTRL.SR_STATUS 1 with le := { s.le with sratePend := true } })) ∧
  (∀ (s : State) (sess v : Nat), s.writeStatus sess LE_CTRL.SRATE = 0 → s.get LE_CAP_CTRL.STATE = 2 → ∃ t, exec (.srateChange sess (some v)) s = .next t ∧ t.le = s.le ∧ t.get LE_CTRL.SRATE = s.get LE_CTRL.SRATE ∧ t.get LE_CTRL.SR_STATUS = 4 ∧ Logged s t [(0x0402, 3, [4])]) ∧
  (∀ (s : State) (sess : Nat), s.atAngle 0 → s.le.sratePend → ∃ t, exec (.srateChange sess none) s = .next t ∧ t.get LE_CTRL.SRATE_ACT = s.get
    LE_CTRL.SRATE ∧ t.get LE_CTRL.SR_STATUS = 2 ∧ Logged s t [(0x0401, 1, [s.get LE_CTRL.SRATE])]) ∧
  (∀ (s : State) (sess l : Nat), l < 64 → s.writeStatus sess LE_L_CTRL.EN = 0 → s.get LE_L_STAT.STATE l = 0 → s.overBudget (s.loopsOn ++ [l]) s.sRate
    = none → ∃ t, exec (.loopEnable sess l) s = .next t ∧ t.get LE_L_CTRL.EN l = 1 ∧ t.get LE_L_STAT.REFUSED l = 0 ∧ (t.get LE_L_STAT.STATE l = if
    s.is LE_L_CTRL.MODE l then 3 else 1)) ∧
  (∀ (s : State) (sess l : Nat), l < 64 → s.writeStatus sess LE_L_CTRL.EN = 0 → ∃ t, exec (.loopDisable sess l) s = .next t ∧ t.get LE_L_CTRL.EN l = 0
    ∧ t.get LE_L_STAT.STATE l = 0 ∧ (t.lx l).out = none) ∧
  (∀ (s : State) (sess l : Nat) (man : Bool), l < 64 → s.writeStatus sess LE_L_CTRL.MODE = 0 → exec (.loopModeChange sess l man) s = .next (s.putb
    LE_L_CTRL.MODE man l)) ∧
  (∀ (s : State) (l : Nat), l < 64 → s.get LE_L_STAT.STATE l = 2 → s.is LE_L_CTRL.MODE l → (s.loopRow l).get LE_L_STAT.STATE l = 3) ∧
  (∀ (s : State) (sess l : Nat), l < 64 → s.writeStatus sess LE_L_CTRL.GT_COMMIT = 0 → ∃ t, exec (.gtCommit sess l) s = .next t ∧ t.lx l = { s.lx l with gtPend := true }
    ∧ t.regs = s.regs) ∧
  (∀ (s : State) (sess mask : Nat), s.writeStatus sess LE_FF_CTRL.SWAP = 0 → exec (.ffSwap sess mask) s = .next ({ s with le := { s.le with swap := s.le.swap ||| mask % 2 ^ 16 } }))
    ∧
  (∀ (s : State) (a : La) (l : Nat), s.laDue = some a → a.ep = 0x012 → a.op = 1 → fFinite a.value → l < 64 → bit (bytesAt a.body 0 8) l → s.get
    LE_L_STAT.STATE l ≠ 0 → ∃ t, exec (.setTarget) s = .next t ∧ t.get LE_L_R_TGT.R_TGT l = a.value.toNat ∧ t.fab.la = s.fab.la.erase a) ∧
  (∀ (s : State) (a : La) (l : Nat), s.laDue = some a → a.ep = 0x012 → a.op = 2 → l < 64 → bit (bytesAt a.body 0 8) l → s.get LE_L_STAT.STATE l ≠ 0 →
    s.get LE_L_SRC.SRC_T l = 0 → fFinite (fMul (s.fl LE_L_R_TGT.R_TGT l) a.value) → ∃ t, exec (.scaleTarget) s = .next t ∧ t.get LE_L_R_TGT.R_TGT l
    = (fMul (s.fl LE_L_R_TGT.R_TGT l) a.value).toNat ∧ t.fab.la = s.fab.la.erase a) ∧
  (∀ (s : State) (a : La) (l : Nat), s.laDue = some a → a.ep = 0x012 → a.op = 3 → fFinite a.value → fPos a.value → l < 64 → bit (bytesAt a.body 0 8) l
    → s.get LE_L_STAT.STATE l ≠ 0 → ∃ t, exec (.setRate) s = .next t ∧ t.get LE_L_RATE.RATE l = a.value.toNat ∧ t.fab.la = s.fab.la.erase a) ∧
  (∀ (s : State) (a : La), s.laDue = some a → a.ep = 0x012 → a.op = 4 → fFinite a.value → byteAt a.body 8 < 16 → ∃ t, exec (.setParameter) s = .next t
    ∧ t.get LE_PARAM.VALUE (byteAt a.body 8) = a.value.toNat ∧ t.fab.la = s.fab.la.erase a) ∧
  (∀ (s : State) (a : La) (l : Nat), s.laDue = some a → a.ep = 0x012 → a.op = 5 → l < 64 → bit (bytesAt a.body 0 8) l → s.get LE_L_STAT.STATE l ≠ 0 →
    ∃ t, exec (.setMode) s = .next t ∧ (t.get LE_L_CTRL.MODE l = if fEq a.value 0#32 then 0 else 1) ∧ t.fab.la = s.fab.la.erase a) ∧
  (∀ (s : State) (a : La) (j : Nat), s.laDue = some a → a.ep = 0x012 → a.op = 6 → byteAt a.body 8 = j → j < 2 → s.get LE_INJ_CTRL.STATE j ≠ 2 →
    s.angleZero.injOk j → ∃ t, exec (.startInjector) s = .next t ∧ t.get LE_INJ_CTRL.STATE j = 2 ∧ t.get LE_INJ_CTRL.EN j = 1 ∧ t.get LE_INJ_CTRL.END
    j = 0 ∧ t.fab.la = s.fab.la.erase a) ∧
  (∀ (s : State) (sess j : Nat), j < 2 → s.writeStatus sess LE_INJ_CTRL.EN = 0 → s.get LE_INJ_CTRL.STATE j ≠ 2 → s.get LE_INJ_CTRL.START j = 0 →
    s.injOk j → ∃ t, exec (.injectorEnable sess j) s = .next t ∧ t.get LE_INJ_CTRL.STATE j = 2 ∧ t.get LE_INJ_CTRL.EN j = 1 ∧ t.injx j = {} ∧ Logged
    s t [(0x0408, 2, [s.get LE_INJ_CTRL.LOOP j, j])]) ∧
  (∀ (s : State) (j : Nat), j < 2 → s.get LE_INJ_CTRL.STATE j = 1 → s.get2 LE_INJ_STAMP_LO.STAMP LE_INJ_STAMP_HI.STAMP j ≤ s.stamp → s.injOk j → ∃ t,
    exec (.injectorStampStart j) s = .next t ∧ t.get LE_INJ_CTRL.STATE j = 2 ∧ t.get LE_INJ_CTRL.EN j = 1 ∧ t.get LE_INJ_CTRL.END j = 0) ∧
  (∀ (s : State) (j : Nat), j < 2 → s.get LE_INJ_CTRL.STATE j = 2 → s.get LE_INJ_DUR.DUR j ≠ 0 → s.get LE_INJ_DUR.DUR j ≤ (s.injx j).n → ∃ t, exec
    (.injectorEnd j) s = .next t ∧ t.get LE_INJ_CTRL.STATE j = 0 ∧ t.get LE_INJ_CTRL.EN j = 0 ∧ t.get LE_INJ_CTRL.END j = 1 ∧ t.injx j =
    { pub := (s.injx j).pub } ∧ Logged s t [(0x0409, 2, [s.get LE_INJ_CTRL.LOOP j, j, 1])]) ∧
  (∀ (s : State) (sess j : Nat), j < 2 → s.writeStatus sess LE_INJ_CTRL.EN = 0 → s.get LE_INJ_CTRL.STATE j ≠ 0 → ∃ t, exec (.injectorDisable sess j) s
    = .next t ∧ t.get LE_INJ_CTRL.STATE j = 0 ∧ t.get LE_INJ_CTRL.EN j = 0 ∧ t.get LE_INJ_CTRL.END j = 2) ∧
  (∀ (s : State) (sess : Nat), s.writeStatus sess LE_CAP_CTRL.ARM = 0 → ∃ t, exec (.captureArm sess) s = .next t ∧ (t.get LE_CAP_CTRL.STATE = if s.get
    LE_CAP_CTRL.TRIG = 0 then 2 else 1) ∧ t.le.cap = []) ∧
  (∀ (s : State), s.get LE_CAP_CTRL.STATE = 1 → s.capTriggered → ∃ t, exec (.captureTrigger) s = .next t ∧ t.get LE_CAP_CTRL.STATE = 2 ∧ t.le.cap =
    s.le.cap.take (s.get LE_CAP_PRE.PRE)) ∧
  (∀ (s : State), s.get LE_CAP_CTRL.STATE = 2 → 8192 ≤ s.le.cap.length → ∃ t, exec (.captureDone) s = .next t ∧ t.get LE_CAP_CTRL.STATE = 3 ∧ (some
    (t.get2 LE_CAP_STAMP_LO.STAMP LE_CAP_STAMP_HI.STAMP) = s.le.cap.getLast?.map fun p => p.stamp % 2 ^ 64) ∧ Logged s t [(0x040A, 1, [])])

/-- Results of the Fabric's commands on its lanes and frames: what each leaves, and that it completes. Chapters: 08_fabric. Operands stand for
what the module observes (log 5) and open values are free (log 6); where a clause rests on another choice of the model, the log entries are 4,
35, 36, 37, 38, 109, 124, 136. -/
def Obligations.FabricLaneResults : Prop :=
  (∀ (s : State) (n : Nat), n < 8 → s.runs 8 → bit (s.get FAB_CTRL.LANE_EN) n → s.get FAB_LANE_STAT.STATE n = 0 → bit s.fab.retry n = false → ∃ t,
    exec (.laneTrain n false) s = .next t ∧ t.get FAB_LANE_STAT.STATE n = 1 ∧ t.get FAB_LANE_STAT.LOS n = 0 ∧ (s.get FAB_STAT.STATE = 0 → t.get
    FAB_STAT.STATE = 1) ∧ t.out = ⟨.training, n, []⟩ :: s.out) ∧
  (∀ (s : State) (n ms : Nat), n < 8 → s.get FAB_LANE_STAT.STATE n = 1 → 20 ≤ ms → ∃ t, exec (.laneTrainTimeout n ms) s = .next t ∧ t.get
    FAB_LANE_STAT.STATE n = 0 ∧ bit t.fab.retry n) ∧
  (∀ (s : State) (n ms : Nat), n < 8 → bit s.fab.retry n → 10 ≤ ms → bit (s.get FAB_CTRL.LANE_EN) n → s.get FAB_LANE_STAT.STATE n = 0 → ∃ t, exec
    (.laneRetry n ms false) s = .next t ∧ t.get FAB_LANE_STAT.STATE n = 1 ∧ bit t.fab.retry n = false ∧ t.out = ⟨.training, n, []⟩ :: s.out) ∧
  (∀ (s : State) (n node dly count : Nat) (key : FabKey), n < 8 → bit (s.get FAB_CTRL.LANE_EN) n → s.get FAB_LANE_STAT.STATE n = 1 → 16 ≤ count → ∃
    t, exec (.laneHold n node dly count key) s = .next t ∧ t.get FAB_LANE_STAT.STATE n = 2 ∧ t.get FAB_LANE_STAT.NBR_ID n = node % 4096 ∧ t.get2
    FAB_LANE_NBR_LO.SERIAL FAB_LANE_NBR_HI.SERIAL n = key.serial % 2 ^ 64 ∧ t.get FAB_LANE_DLY.DLY n = min dly (2 ^ FAB_LANE_DLY.DLY.w - 1)) ∧
  (∀ (s : State) (n ms : Nat), n < 8 → s.get FAB_LANE_STAT.STATE n = 2 → bit (s.get FAB_CTRL.LANE_EN) n → s.get FAB_LANE_STAT.LOS n = 0 → 10 ≤ ms →
    ∃ t, exec (.laneActive n ms none) s = .next t ∧ t.get FAB_LANE_STAT.STATE n = 3 ∧ (s.get FAB_STAT.STATE = 1 ∨ s.get FAB_STAT.STATE = 5 → t.get
    FAB_STAT.STATE = 2) ∧ (s.get FAB_STAT.STATE = 4 → s.is FAB_STAT.ROOT → t.lane n = {} ∧ t.fab.due) ∧ (s.get FAB_STAT.STATE = 4 → s.get
    FAB_STAT.ROOT = 0 → s.fab.hold = false → s.fab.ages.length < 4 → Sends s t ⟨.topology, 2 ^ 11, ((s.setLane n {}).put FAB_LANE_STAT.STATE 3
    n).linkBytes⟩)) ∧
  (∀ (s : State) (n m : Nat), n < 8 → s.get FAB_LANE_STAT.STATE n = 3 → ∃ t, exec (.laneDown n 0 m) s = .next t ∧ t.get FAB_LANE_STAT.STATE n = 0 ∧
    t.get FAB_LANE_STAT.LOS n = 1 ∧ t.get FAB_LANE_STAT.DOWN_SEEN n = 1 ∧ t.get FAB_LANE_STAT.DIR n = 0 ∧ (t.fab.heard = s.fab.heard.filter fun p =>
    p.1 != n) ∧ t.lane n = {} ∧ (EgressEmpty s → s.get FAB_STAT.ROOT = 0 → Logged s t [(0x0605, 3, [n])])) ∧
  (∀ (s : State) (link : Nat) (f : FabFrame) (urgent pending recent : Nat), link < 8 → s.runs 8 → s.linkUp link → ∃ t, exec (.frameForward link 1 f
    urgent pending recent) s = .next t ∧ t.get FAB_LANE_ERR.CRC link = min (s.get FAB_LANE_ERR.CRC link + 1) (2 ^ FAB_LANE_ERR.CRC.w - 1)) ∧
  (∀ (s : State) (link : Nat) (f : FabFrame) (urgent pending recent : Nat), s.runs 8 → s.linkUp link → (link < 8 → s.rxRoom link ⟨f, link⟩) → f.epo
    = s.get FAB_STAT.EPOCH % 2 → f.ty = 1 → f.dst / 2 ^ 11 = s.get FAB_STAT.NODE_ID → s.get FAB_STAT.NODE_ID ≠ 0 → s.populated (f.dst % 2 ^ 11) →
    pending < 256 → exec (.frameForward link 0 f urgent pending recent) s = .next
    ({ s with out := ⟨.delivered, f.dst % 2 ^ 11, f.src :: f.ty :: f.pay⟩ :: s.out })) ∧
  (∀ (s : State) (link : Nat) (f : FabFrame) (urgent pending recent : Nat), s.runs 8 → s.linkUp link → (link < 8 → s.rxRoom link ⟨f, link⟩) → f.epo
    ≠ s.get FAB_STAT.EPOCH % 2 → s.fab.switch = none → ∃ t, exec (.frameForward link 0 f urgent pending recent) s = .next t ∧ t.get FAB_DROP0.EPOCH =
    min (s.get FAB_DROP0.EPOCH + 1) (2 ^ FAB_DROP0.EPOCH.w - 1) ∧ t.out = s.out) ∧
  (∀ (s : State) (waited n : Nat) (e : Egr) (q : List Egr), s.runs 8 → clampN 1 100 (s.get FAB_TIMERS2.STALL_T) < waited → n < 8 → (s.lane n).queue
    = e :: q → (s.lane n).covers e = false → (∀ l < n, s.stalled l = false) → ∃ t, exec (.stallDiscard waited) s = .next t ∧ t.lane n =
    { s.lane n with queue := q } ∧ t.get FAB_DROP0.STALL = min (s.get FAB_DROP0.STALL + 1) (2 ^ FAB_DROP0.STALL.w - 1)) ∧
  (∀ (s : State) (sess mask n : Nat), s.writeStatus sess FAB_WAKE.WAKE_TX = 0 → s.runs 8 → mask = 2 ^ n → n < 8 → s.get FAB_LANE_STAT.STATE n ≠ 3 →
    bit (s.get FAB_CTRL.LANE_EN) n → exec (.wakeTx sess mask) s = .next ({ s with out := ⟨.wakeBlocks, n, [2]⟩ :: s.out })) ∧
  (∀ (s : State) (n : Nat) (t1 t2 t3 t4 : Int), n < 8 → s.laneUp n → ∃ t, exec (.delayExchange n t1 t2 t3 t4) s = .next t ∧ sparseGet [] n t.fab.dly =
    (delayOf t1 t2 t3 t4 (s.geti FAB_LANE_ASYM.ASYM n) :: sparseGet [] n s.fab.dly).take 64 ∧ (t.get FAB_LANE_DLY.DLY n : Int) = clampI 0 (2 ^ 20 -
    1) (meanOf (sparseGet [] n t.fab.dly)) ∧ t.out = ⟨.delayBlock, n, []⟩ :: s.out) ∧
  (∀ (s : State) (k n : Nat), k < 8 → s.runs 8 → s.atAngle (k * 0x200000) → (s.get FAB_STAT.STATE = 4 ∨ s.get FAB_STAT.STATE = 5) → n < 8 → s.laneUp
    n → ∃ t, exec (.timeFrameSend k) s = .next t ∧ (⟨.timeFrame, n, leBytes 9 (s.stamp * 16 + s.tb.frac / 2 ^ 24)⟩ : Out) ∈ t.out ∧ t.regs = s.regs) ∧
  (∀ (s : State) (n v16 : Nat), n < 8 → s.runs 8 → s.laneUp n → s.is FAB_LANE_STAT.TPARENT n → s.get TB_STAT.SRC = 2 → (s.get TB_STAT.STATE = 2 ∨
    s.get TB_STAT.STATE = 3) → ∃ t, exec (.timeFrameReceive n v16) s = .next t ∧ t.tb.err = toSigned 28 (v16 + s.delayAu16 (s.get FAB_LANE_DLY.DLY
    n) + 2 ^ 72 - (s.stamp * 16 + s.tb.frac / 2 ^ 24)) * 10 ^ 20)

/-- Results of the Fabric's commands on its root, its epochs and its launched actions: what each leaves, and that it completes. Chapters:
08_fabric. Operands stand for what the module observes (log 5) and open values are free (log 6); where a clause rests on another choice of the
model, the log entries are 4, 35, 36, 37, 38, 108, 110, 124, 125, 136. -/
def Obligations.FabricRootResults : Prop :=
  (∀ (s : State) (classMs : Nat), s.runs 8 → s.get FAB_STAT.STATE = 4 → s.is FAB_STAT.ROOT → 1000 ≤ classMs → ∃ t, exec (.announceSend classMs) s =
    .next t ∧ t.get FAB_KEY.OWN_CLASS = s.fabClass ∧ t.fab.rootSeq = s.fab.rootSeq + 1) ∧
  (∀ (s : State) (ms : Nat), s.runs 8 → s.is FAB_STAT.ROOT → s.fab.due → s.fab.switch = none → 10 * clampN 1 255 (s.get FAB_TIMERS.EPOCH_MIN) ≤ ms →
    ∃ t, exec (.epochInstall ms) s = .next t ∧ t.fab.due = false ∧ t.fab.fwd1 = bankLoad (nodeTable s.fab.topo (fabLevels s.fab.topo) 1) [] ∧
    t.fab.swBoth = s.fab.both ∧ ∃ sw, t.fab.switch = some sw ∧ s.stamp + 0x800000 ≤ sw ∧ ∀ p ∈ s.fab.topo, p.1 ≠ 1 → (⟨.epochChange, p.1 * 2 ^ 11,
    leBytes 8 sw⟩ : Out) ∈ t.out ∨ (true, (⟨.epochChange, p.1 * 2 ^ 11, leBytes 8 sw⟩ : Out)) ∈ t.fab.wait) ∧
  (∀ (s : State) (link : Nat) (key : FabKey) (seq : Nat) (member : Bool), s.runs 8 → s.linkUp link → s.get FAB_STAT.STATE = 3 → (s.fab.lost.any fun
    p => p.1 == key.serial && decide (seq ≤ p.2)) = false → ∃ t, exec (.announceReceive link key seq member) s = .next t ∧ sparseGet ⟨⟨0, 0, 0, 0⟩, 0,
    false⟩ link t.fab.heard = ⟨key, seq, member⟩ ∧ t.get FAB_STAT.STATE = 3) ∧
  (∀ (s : State) (hc now : Nat), s.runs 8 → s.get FAB_STAT.STATE = 2 → s.is FAB_CTRL.ROOT_EN → s.get FAB_STAT.ROOT = 0 → s.knownBest = s.ownKey →
    clampN 1 16 (s.get FAB_TIMERS.ELECT_HOLD) ≤ hc → ∃ t, exec (.becomeRoot hc now) s = .next t ∧ t.get FAB_STAT.STATE = 4 ∧ t.get FAB_STAT.ROOT = 1
    ∧ t.get TB_STAT.ROOT = 1 ∧ t.get FAB_STAT.NODE_ID = 1 ∧ t.get FAB_STAT.LEVEL = 0 ∧ t.fab.switch ≠ none) ∧
  (∀ (s : State) (serial sticky : Nat) (role : JoinReq) (link hops : Nat), s.runs 8 → s.is FAB_STAT.ROOT → s.get FAB_STAT.STATE = 4 → 2 ≤ sticky →
    sticky < 4096 → s.fab.ids = [] → s.fab.resv = [] → hops ≤ 12 → ∃ t, exec (.nodeIdGrant serial sticky role link hops) s = .next t ∧ t.fab.ids =
    [(sticky, serial)] ∧ t.fab.roles = (serial, role.role % 16) :: eraseKey serial s.fab.roles ∧ t.fwdEntry 0 sticky = mkEntry link 0xF hops 0 ∧
    (s.fab.switch ≠ none → t.fwdEntry 1 sticky = mkEntry link 0xF hops 0) ∧ (s.fab.hold = false → role.links = [] → s.fab.ages.length < 4 → Sends s t
    ⟨.idGrant, sticky * 2 ^ 11, leBytes 2 sticky ++ leBytes 8 serial ++ [hops]⟩) ∧ (s.fab.hold → t.fab.wait.getLast? = some (true, ⟨.idGrant, sticky *
    2 ^ 11, leBytes 2 sticky ++ leBytes 8 serial ++ [hops]⟩))) ∧
  (∀ (s : State) (ms l : Nat), s.runs 8 → s.get FAB_STAT.STATE = 3 → 50 ≤ ms → s.rootLink = some l → s.fab.hold = false → s.fab.ages.length < 4 → ∃
    t, exec (.joinRetry ms) s = .next t ∧ t.fab.ages = 0 :: s.fab.ages ∧ Sends s t ⟨.joinRequest, l, leBytes 8 s.serial ++ leBytes 2 (s.get
    FAB_STICKY.STICKY_ID) ++ [s.get SYS_ROLE.ROLE_ACT] ++ s.linkBytes⟩) ∧
  (∀ (s : State) (id level up : Nat), s.runs 8 → s.get FAB_STAT.ROOT = 0 → s.get FAB_STAT.STATE = 3 → 2 ≤ id → id < 4096 → level < 32 → ∃ t, exec
    (.joinGrant id level up) s = .next t ∧ t.get FAB_STAT.STATE = 4 ∧ t.get FAB_STAT.NODE_ID = id ∧ t.get FAB_STICKY.STICKY_ID = id ∧ t.get
    FAB_STAT.LEVEL = level ∧ (up < 8 → t.get FAB_LANE_STAT.DIR up = 1) ∧ (∀ l < 8, l ≠ up → t.get FAB_LANE_STAT.DIR l = 0)) ∧
  (∀ (s : State) (hc : Nat), s.runs 8 → s.get FAB_STAT.STATE = 4 → s.get FAB_STAT.ROOT = 0 → clampN 2 32 (s.get FAB_TIMERS.ROOT_TMO) ≤ hc → ∃ t,
    exec (.rootLost hc) s = .next t ∧ t.get FAB_STAT.STATE = 2 ∧ t.fab.rootKey = none ∧ (EgressEmpty s → Logged s t [(0x0603, 3, [])])) ∧
  (∀ (s : State) (ms now : Nat), s.runs 8 → s.get FAB_STAT.STATE ≤ 4 → s.get FAB_STAT.ROOT = 0 → s.linksUp = [] → 100 ≤ ms → ∃ t, exec (.fabricAlone
    ms now) s = .next t ∧ t.get FAB_STAT.STATE = 5 ∧ t.get FAB_STAT.ROOT = 1 ∧ t.get TB_STAT.ROOT = 1 ∧ t.get FAB_STAT.NODE_ID = 1) ∧
  (∀ (s : State) (id secs : Nat), s.get FAB_TIMERS2.ID_HOLD ≤ secs → exec (.idReservationExpiry id secs) s = .next ({ s with fab := { s.fab with resv := s.fab.resv.filter fun p => p.1 != id } }))
    ∧
  (∀ (s : State) (node : Nat) (links : List (Nat × Nat)), s.runs 8 → s.is FAB_STAT.ROOT → ∃ t, exec (.topologyReport node links) s = .next t ∧
    t.fab.due = true ∧ ((t.fab.topo.all fun p => sparseGet 99 p.1 (fabLevels (topoReport (topoReport s.fab.topo node links) 1 s.ownLinks)) != 99)) ∧
    (node ≠ 1 → sparseGet 99 node (fabLevels (topoReport (topoReport s.fab.topo node links) 1 s.ownLinks)) = 99 → s.fab.topo.any (fun p => p.1 ==
    node) → t.fab.ids.all fun p => p.1 != node)) ∧
  (∀ (s : State) (entries : List (Nat × Nat × Nat × Nat × Nat)) (dirs : List (Nat × Nat)) (level node pri : Nat), s.runs 8 → entries = [(node, pri,
    0xF, 3, 0)] → node < 4096 → ∃ t, exec (.tableLoad entries dirs level) s = .next t ∧ t.fwdEntry 1 node = mkEntry pri 0xF 3 0 ∧ (dirs ≠ [] →
    t.fab.fwd0 = s.fab.fwd0 ∧ (t.fab.dirs = dirs.filter fun p => decide (p.1 < 9)) ∧ t.fab.nextLevel = level) ∧ (dirs = [] → t.fwdEntry 0 node =
    mkEntry pri 0xF 3 0 ∧ t.fab.nextLevel = s.fab.nextLevel)) ∧
  (∀ (s : State) (sw : Nat), s.runs 8 → s.get FAB_STAT.STATE = 4 → s.fab.switch = none → s.stamp < sw → exec (.epochChange sw) s = .next ({ s with
    fab := { s.fab with switch := some sw, swBoth := s.fab.both, both := false } })) ∧
  (∀ (s : State) (s0 sw : Nat), s.runs 8 → s.get FAB_STAT.STATE = 4 → s.fab.switch = some s0 → s.fab.both → s.fab.swBoth = false → s.stamp < s0 → s0 < sw → exec (.epochChange sw) s = .next ({ s with fab := { s.fab with later := some (sw, true), both := false } })) ∧
  (∀ (s : State) (sw : Nat), s.fab.switch = some sw → sw ≤ s.stamp + s.drainAu → exec (.epochDrain) s = .next ({ s with fab := { s.fab with hold := true } }))
    ∧
  (∀ (s : State) (sw : Nat), s.fab.switch = some sw → sw ≤ s.stamp → s.fab.inject = [] → ∃ t, exec (.epochSwap) s = .next t ∧ t.get FAB_STAT.EPOCH =
    (s.get FAB_STAT.EPOCH + 1) % 256 ∧ t.fab.fwd0 = s.fab.fwd1 ∧ t.fab.fwd1 = (if s.fab.swBoth ∨ s.fab.later.isSome then s.fab.fwd1 else s.fab.fwd0) ∧
    t.fab.switch = s.fab.later.map Prod.fst ∧ t.fab.later = none ∧ t.fab.hold = false) ∧
  (∀ (s : State) (src actId ack target ep op : Nat) (dstEp : Option Nat) (body : List Nat), s.runs 8 → s.laCheck target ep op dstEp body = 0 →
    s.fab.la = [] → s.fab.done = [] → ∃ t, exec (.launchedActionArrival src actId ack target ep op dstEp body) s = .next t ∧ t.fab.la = [⟨target,
    ep, op, ack, actId, src, body, false⟩] ∧ t.get FAB_LA_CFG.LA_QUSE = 1) ∧
  (∀ (s : State) (src actId ack target ep op : Nat) (dstEp : Option Nat) (body : List Nat), s.runs 8 → s.laCheck target ep op dstEp body = 5 →
    s.fab.hold = false → ∃ t, exec (.launchedActionArrival src actId ack target ep op dstEp body) s = .next t ∧ t.fab.la = s.fab.la ∧ t.get
    FAB_LA_CNT.REFUSED = min (s.get FAB_LA_CNT.REFUSED + 1) (2 ^ FAB_LA_CNT.REFUSED.w - 1) ∧ Sends s t ⟨.actionResponse, src, leBytes 4 actId ++ [5,
    0, 0, 0] ++ leBytes 8 s.stamp⟩ ∧ (EgressEmpty s → Logged s t [(0x0609, 2, [5] ++ leBytes 2 ep ++ [0] ++ leBytes 4 actId)])) ∧
  (∀ (s : State) (a : La), s.laDue = some a → a.ep = 0x010 → a.op = 1 → byteAt a.body 0 < 8 → bytesAt a.body 4 4 < 2 ^ 20 → ∃ t, exec
    (.setGroupOffset) s = .next t ∧ t.get TB_GRP_OFS.GOFS (byteAt a.body 0) = bytesAt a.body 4 4 ∧ t.fab.la = s.fab.la.erase a ∧ t.get
    FAB_LA_CNT.EXEC = min (s.get FAB_LA_CNT.EXEC + 1) (2 ^ FAB_LA_CNT.EXEC.w - 1)) ∧
  (∀ (s : State) (a : La), s.laDue = some a → a.ep = 0x010 → a.op = 2 → byteAt a.body 0 < 96 → byteAt a.body 1 = 1 → bytesAt a.body 4 4 < 2 ^ 20 → ∃
    t, exec (.setPhaseOffsets) s = .next t ∧ t.get TB_PH_OFS.POFS (byteAt a.body 0) = bytesAt a.body 4 4 ∧ t.fab.la = s.fab.la.erase a)

/-- Results of the Share Ledger's commands: what each leaves, and that it completes. Chapters: 09_share_ledger. Operands stand for what the module
observes (log 5) and open values are free (log 6); where a clause rests on another choice of the model, the log entries are 37, 39, 111. -/
def Obligations.LedgerResults : Prop :=
  (∀ (s : State) (offer : Nat), s.slRuns → s.get FAB_STAT.STATE = 4 → s.fab.hold = false → s.fab.ages.length < 4 → ∃ t, exec (.ledgerReport offer) s
    = .next t ∧ t.get SL_STAT.PART = s.slPart ∧ (t.get SL_STAT.ACCEPT = if s.slTimeOk then 1 else 0) ∧ (t.get SL_REQ.REQ = min 0xFFFF (if s.slPart = 1
    then s.slRequest else 0)) ∧ ((t.out.head?.map fun p => (p.kind, p.dst, p.data.take 4)) = some (.report, 2 ^ 11 + 4, [4, 0, 1, s.slClass]))) ∧
  (∀ (s : State) (now node serial req cls floor lease applied gen offer digest : Nat) (draw : Int), s.slRoot → s.sl.holders = [] → ∃ t, exec
    (.ledgerReportReceive now node serial req cls floor lease applied gen offer digest draw) s = .next t ∧ (t.holder node).serial = serial ∧
    (t.holder node).req = req ∧ (t.holder node).at_ = now ∧ (t.holder node).fresh = true ∧ (t.holder node).ok = (digest == s.slDigest) ∧ (t.holder
    node).excl = (s.rosterFloor serial != some floor)) ∧
  (∀ (s : State) (src issue gen kw hc seq passed : Nat), s.slRuns → s.slPart = 1 → s.slGrantCheck src issue gen seq = 0 → seq < 256 → gen < 2 ^ 16 →
    kw < 2 ^ 16 → s.get SL_CUT.CUT_ACT = 0 → s.get SL_STAT.PLEDGED = 0 → s.fwdGroups ≠ [] → ∃ t, exec (.grantAccept src issue gen kw hc seq false
    passed) s = .next t ∧ t.get SL_LEASE.SEQ = seq ∧ t.get SL_GEN.GEN_ACC = gen ∧ t.get SL_CNT.ACCEPTED = min (s.get SL_CNT.ACCEPTED + 1) (2 ^
    SL_CNT.ACCEPTED.w - 1) ∧ t.get SL_LEASE.LEASE = kw) ∧
  (∀ (s : State) (src issue gen kw hc seq : Nat) (pledge : Bool) (passed : Nat), s.slRuns → s.slPart = 1 → s.slGrantCheck src issue gen seq = 2 → ∃ t,
    exec (.grantAccept src issue gen kw hc seq pledge passed) s = .next t ∧ t.get SL_CNT.REJECTED = min (s.get SL_CNT.REJECTED + 1) (2 ^
    SL_CNT.REJECTED.w - 1) ∧ t.get SL_STAT.REJ_SEEN = 1 ∧ t.get SL_LEASE.LEASE = s.get SL_LEASE.LEASE ∧ t.get SL_LEASE.SEQ = s.get SL_LEASE.SEQ) ∧
  (∀ (s : State) (now node : Nat) (h : Holder), s.slRoot → s.get FAB_STAT.STATE = 4 → s.get SL_STAT.ROOT_STATE = 2 → s.slQuorum now → node < 4096 →
    s.sl.holders = [(node, h)] → h.fresh → h.ok → h.excl = false → h.cls = 3 → h.recs = [] → h.pledge = none → h.offer = 0 → s.get SL_TUNE.RAMP_UP = 0
    → s.slFloors now ≤ s.get SL_SITE.SITE_LIM → h.req ≤ s.slLimit (s.slFloors now) - s.slFloors now → ∃ t, exec (.allocationRound now) s = .next t ∧
    (t.holder node).last = h.req ∧ (t.holder node).seq = (h.seq + 1) % 256 ∧ (t.holder node).recs = [⟨h.req, (h.seq + 1) % 256, reclaimAt now (2 *
    s.slLife)⟩] ∧ (t.holder node).fresh = false ∧ t.get SL_ROOT_POOL.POOL = min (s.slLimit (s.slFloors now) - s.slFloors now) (2 ^ SL_ROOT_POOL.POOL.w
    - 1)) ∧
  (∀ (s : State) (node now : Nat), s.slRoot → exec (.recordReclaim node now) s = .next ({ s with sl := { s.sl with now := now, holders :=
    (s.sl.holders.map fun p => if p.1 = node ∨ 4096 ≤ p.1 then (p.1, { p.2 with recs := (p.2.recs.filter fun g => decide (9 * now < g.reclaim)) })
    else p) } })) ∧
  (∀ (s : State) (node now q at_ : Nat), s.slRoot → (s.holder node).applied = some (q, at_) → at_ + 25000 ≤ now → ∃ t, exec (.recordAckDrop node
    now) s = .next t ∧ ((t.holder node).recs = (s.holder node).recs.filter fun g => !(decide (1 ≤ (q + 256 - g.seq) % 256) && decide ((q + 256 -
    g.seq) % 256 ≤ 127))) ∧ (t.holder node).applied = none) ∧
  (∀ (s : State) (now : Nat), s.slRoot → s.get SL_STAT.ROOT_STATE = 2 → s.slQuorum now = false → ∃ t, exec (.quorumLost now) s = .next t ∧ t.get
    SL_STAT.ROOT_STATE = 3 ∧ t.get SL_STAT.QUORUM = 0 ∧ t.get SL_ROOT_WAIT.WAIT_MS = 0) ∧
  (∀ (s : State) (now : Nat), s.slRoot → s.get SL_STAT.ROOT_STATE = 3 → s.slQuorum now → ∃ t, exec (.quorumGained now) s = .next t ∧ t.get
    SL_STAT.ROOT_STATE = 1 ∧ t.get SL_STAT.QUORUM = 1 ∧ t.get SL_GEN.GEN_OWN = (s.get SL_GEN.GEN_OWN + 1) % 2 ^ 16 ∧ t.sl.tEnd = 9 * now + s.tGen ∧
    Logged s t [(0x0503, 2, [])]) ∧
  (∀ (s : State) (now : Nat), s.slRoot → s.get SL_STAT.ROOT_STATE = 1 → s.sl.tEnd ≤ 9 * now → s.slQuorum now → ∃ t, exec (.tGenExpiry now) s = .next t
    ∧ t.get SL_STAT.ROOT_STATE = 2 ∧ t.get SL_STAT.QUORUM = 1 ∧ t.get SL_ROOT_WAIT.WAIT_MS = 0 ∧ Logged s t [(0x0504, 1, [])]) ∧
  (∀ (s : State), s.is SL_STAT.PLEDGED → s.sl.pledgeHc = 0 → s.get SL_CFG.PLEDGE_PARAM < 16 → ∃ t, exec (.pledgeExpiry) s = .next t ∧ t.get
    SL_DRAW.PLEDGE = 0 ∧ t.get SL_STAT.PLEDGED = 0 ∧ t.get LE_PARAM.VALUE (s.get SL_CFG.PLEDGE_PARAM) = 0) ∧
  (∀ (s : State) (draw : Int), s.is SL_STAT.PLEDGED → -(s.get SL_DRAW.PLEDGE : Int) < draw → ∃ t, exec (.pledgeNotMet draw) s = .next t ∧ Logged s t
    [(0x050B, 3, leBytes 2 (s.get SL_DRAW.PLEDGE) ++ leBytes 2 (ofSigned 16 draw))] ∧ t.get SL_DRAW.PLEDGE = s.get SL_DRAW.PLEDGE) ∧
  (∀ (s : State) (a : La), s.laDue = some a → a.ep = 0x014 → a.op = 1 → s.is FAB_STAT.ROOT → ∃ t, exec (.setLimDyn) s = .next t ∧ t.get
    SL_LIMDYN.LIM_DYN = min (bytesAt a.body 0 4) (2 ^ SL_LIMDYN.LIM_DYN.w - 1) ∧ t.fab.la = s.fab.la.erase a) ∧
  (∀ (s : State) (a : La) (g : Nat), s.laDue = some a → a.ep = 0x014 → a.op = 2 → s.slPart = 1 → g < 8 → ∃ t, exec (.cut) s = .next t ∧ t.get
    PE_GRP_LEASE.P_LEASE g = s.get PE_GRP_LEASE.P_LEASE g * bytesAt a.body 0 2 / 2 ^ 16 ∧ t.get SL_LEASE.LEASE = s.get SL_LEASE.LEASE * bytesAt
    a.body 0 2 / 2 ^ 16 ∧ t.get SL_CUT.CUT_F = bytesAt a.body 0 2 ∧ t.get SL_CUT.CUT_ACT = 1 ∧ t.sl.cutAt = a.target) ∧
  (∀ (s : State) (sess v : Nat), s.writeStatus sess SL_LIMDYN.LIM_DYN = 0 → ∃ t, exec (.limDynWrite sess v) s = .next t ∧ t.get SL_LIMDYN.LIM_DYN = v
    % 2 ^ 24 ∧ Logged s t [(0x050C, 2, leBytes 4 (min (v % 2 ^ 24) 0xFFFFFF))]) ∧
  (∀ (s : State) (now cycles : Nat), s.slRoot → 1 ≤ cycles → ((s.slLimit (s.slFloors now) : Int) < s.sl.holders.foldl (fun a q => if s.slHeard now q.2
    then a + q.2.draw else a) 0) → ∃ t, exec (.drawOverLimit now cycles) s = .next t ∧ t.get SL_STAT.OVER_SEEN = 1 ∧ (Logged s t [(0x0509, 3,
    leBytes 4 (ofSigned 32 (s.sl.holders.foldl (fun a q => if s.slHeard now q.2 then a + q.2.draw else a) 0)))]))

/-- Results of the Powerline's commands: what each leaves, and that it completes. Chapters: 10_powerline. Operands stand for what the module
observes (log 5) and open values are free (log 6); where a clause rests on another choice of the model, the log entries are 40, 113, 124, 125,
137. -/
def Obligations.PowerlineResults : Prop :=
  (∀ (s : State), s.runs 9 → s.get PLC_STAT.STATE = 5 → s.atAngle 0 → s.tb.renum = none → s.stamp / 2 ^ 24 % 2 = 0 → s.plc.bcnAt ≠ some (s.stamp / 2
    ^ 24) → 8 ≤ s.plc.periods → s.plc.pend = none → ∃ t, exec (.beaconSend) s = .next t ∧ t.get PLC_BEACON.BPC = s.stamp / 2 ^ 25 % 2 ^ 16 ∧
    t.plc.periods = s.plc.periods + 1 ∧ t.plc.bcnAt = some (s.stamp / 2 ^ 24) ∧ t.plc.answers = s.plc.answers.drop 4 ∧ ((t.out.head?.map fun p =>
    (p.kind, p.dst, (p.data.drop 25).take 17)) = some (.beacon, 0x3F, leBytes 8 s.stamp ++ [0] ++ leBytes 8 s.serial))) ∧
  (∀ (s : State) (v16 : PlcAt) (serial node kcls klvl kprio bpc nstn succ ver verAt : Nat) (slots : List PlcSlot) (answers : List (Nat × Nat)),
    s.runs 9 → s.get PLC_STAT.STATE = 3 → bpc < 2 ^ 16 → ((answers.find? fun a => a.1 == s.serial) = some (s.serial, 17)) → s.get2
    PLC_COORD_SER_LO.SERIAL PLC_COORD_SER_HI.SERIAL = serial → ∃ t, exec (.beaconReceive v16 serial node kcls klvl kprio bpc nstn succ ver verAt slots
    answers) s = .next t ∧ t.get PLC_STAT.STATE = 4 ∧ t.get PLC_STAT.STN = 17 ∧ t.get PLC_BEACON.BPC = bpc ∧ t.get PLC_BEACON.MISSED = 0 ∧ t.plc.succ
    = succ ∧ (t.plcLink 0).heardAt = s.stamp) ∧
  (∀ (s : State), s.runs 9 → s.get PLC_STAT.STATE = 4 → s.get PLC_BEACON.MISSED = 1 → ∃ t, exec (.beaconMissed) s = .next t ∧ t.get PLC_BEACON.MISSED
    = 2 ∧ t.get PLC_CNT2.BCN_LOST = min (s.get PLC_CNT2.BCN_LOST + 1) (2 ^ PLC_CNT2.BCN_LOST.w - 1) ∧ t.get PLC_STAT.BCN_SEEN = 1 ∧ Logged s t
    [(0x0704, 1, leBytes 2 (s.get PLC_BEACON.BPC)), (0x0705, 3, [])]) ∧
  (∀ (s : State), s.runs 9 → s.get PLC_STAT.STATE = 3 → s.get PLC_BEACON.MISSED = 3 → ∃ t, exec (.coordinatorTakeover) s = .next t ∧ t.get
    PLC_STAT.STATE = 5 ∧ t.get PLC_BEACON.MISSED = 0 ∧ t.get PLC_STAT.STN = 0 ∧ t.get PLC_STAT.NSTN = 0 ∧ t.get2 PLC_COORD_SER_LO.SERIAL
    PLC_COORD_SER_HI.SERIAL = s.serial ∧ t.plc.links = [] ∧ t.plc.sched = []) ∧
  (∀ (s : State), s.runs 9 → s.get PLC_STAT.STATE = 4 → 2 ≤ s.plc.named → ∃ t, exec (.successorHandover) s = .next t ∧ t.get PLC_STAT.STATE = 5 ∧
    t.get PLC_STAT.STN = 0 ∧ (t.get PLC_STAT.NSTN = (((s.plc.sched.map fun e => e.stn).filter fun n => n != s.get PLC_STAT.STN && n != 0 && n !=
    0x3F).eraseDups).length % 2 ^ PLC_STAT.NSTN.w) ∧ (s.plc.sched.all fun e => e.stn == s.get PLC_STAT.STN || e.stn == 0 || e.stn == 0x3F ||
    t.plc.links.any fun p => p.1 == e.stn && p.2.kept) ∧ t.plc.sched = s.plc.sched ∧ t.get2 PLC_COORD_SER_LO.SERIAL PLC_COORD_SER_HI.SERIAL =
    s.serial) ∧
  (∀ (s : State) (n : Nat), s.runs 9 → s.get PLC_STAT.STATE = 5 → s.plc.succ = n → n ≠ 0x3F → 2 ≤ s.plc.succN → (s.plcLink n).serial < 2 ^ 64 → ∃ t,
    exec (.successorHandover) s = .next t ∧ t.get PLC_STAT.STATE = 3 ∧ t.get PLC_STAT.STN = 0x3F ∧ t.get2 PLC_COORD_SER_LO.SERIAL
    PLC_COORD_SER_HI.SERIAL = (s.plcLink n).serial) ∧
  (∀ (s : State) (stn sym : Nat) (q : List Nat), s.runs 9 → s.get PLC_STAT.STATE = 5 → stn ≠ 0x3F → (s.plcLink stn).segs = [] → (s.plcLink
    stn).queue = [(true, 0, q)] → (s.plcLink stn).rest = [] → q ≠ [] → q.length ≤ 128 → (s.plcLink stn).tm = 0 → s.plc.acks = [] → plcSymbols true 0
    [] [q.length] + 3 ≤ min sym s.plcLeft → ∃ t, exec (.plcFrameSend stn sym) s = .next t ∧ (t.plcLink stn).queue = [] ∧ (t.plcLink stn).segs =
    [⟨(s.plcLink stn).txSeq % 2 ^ 16, q, 0, 1, s.stamp, s.ackDue (plcSymbols true 0 [] [q.length])⟩] ∧ (t.plcLink stn).rest = [] ∧ (t.plcLink
    stn).unacked.head? = some [(s.plcLink stn).txSeq % 2 ^ 16] ∧ (t.plcLink stn).txSeq = ((s.plcLink stn).txSeq + 1) % 2 ^ 16 ∧ ((t.out.head?.map fun
    p => (p.kind, p.dst)) = some (.plcData, stn))) ∧
  (∀ (s : State) (stn dst kcls klvl kprio bpc : Nat) (erased : PlcRx) (segs : List RxSeg) (q : Nat) (d : List Nat), s.runs 9 → s.get PLC_STAT.STATE
    = 4 → (s.plc.links.any fun p => p.1 == stn) → dst = s.get PLC_STAT.STN → dst ≠ 0x3F → (s.plcLink stn).rxSeq = q → (s.plcLink stn).rxHold = [] → q
    < 2 ^ 16 → erased.energy = [] → s.plcMaySend → (s.plcLink stn).part = none → segs = [⟨q, d, true, false, 0xFF, 0⟩] → ∃ t, exec (.plcFrameReceive
    stn dst kcls klvl kprio bpc erased segs) s = .next t ∧ (t.plcLink stn).rxSeq = (q + 1) % 2 ^ 16 ∧ (t.plcLink stn).heardAt = s.stamp ∧ (t.plcLink
    stn).part = none ∧ t.out = ⟨.plcAck, stn, [min 30 (s.get PLC_CTRL.TXATT), s.notched] ++ s.plcControl 3 stn 0 0 0 0 1 q⟩ :: s.out) ∧
  (∀ (s : State) (stn ackSeq : Nat) (ackMap : PlcAck) (f : List Nat), s.runs 9 → (s.plc.links.any fun p => p.1 == stn) → (s.plcLink
    stn).unacked.find? (fun f => f.head? == some ackSeq) = some f → ∃ t, exec (.plcAcknowledgement stn ackSeq ackMap) s = .next t ∧ ((t.plcLink
    stn).segs.map (fun g => (g.seq, g.data)) = ((s.plcLink stn).segs.filter fun g => !(((f.zipIdx.filter fun p => bit ackMap.map p.2).map
    Prod.fst).contains g.seq)).map fun g => (g.seq, g.data)) ∧ (t.plcLink stn).unacked = (s.plcLink stn).unacked.erase f ∧ ((t.plcLink stn).txWindow =
    ((f.zipIdx.map fun p => !bit ackMap.map p.2 && !bit ackMap.spared p.2 && !(((f.zipIdx.filter fun p => bit ackMap.map p.2).map Prod.fst).contains
    p.1)).reverse ++ (s.plcLink stn).txWindow).take 32) ∧ t.regs = s.regs) ∧
  (∀ (s : State) (stn : Nat) (g : TxSeg), (s.plcLink stn).segs = [g] → (s.plcLink stn).rxHold = [] → (s.get PLC_CTRL.RETRY < g.tries ∨ g.first + 2 ^
    26 ≤ s.stamp) → g.due ≤ s.plcClock → ∃ t, exec (.segmentDiscard stn) s = .next t ∧ (t.plcLink stn).segs = [] ∧ t.get PLC_CNT1.DROP = min (s.get
    PLC_CNT1.DROP + 1) (2 ^ PLC_CNT1.DROP.w - 1)) ∧
  (∀ (s : State) (src serial node : Nat), s.runs 9 → s.get PLC_STAT.STATE = 5 → s.plc.links = [] → s.plc.answers = [] → ∃ t, exec
    (.associationRequest (some src) serial node) s = .next t ∧ t.plc.links.map Prod.fst = [1] ∧ (t.plcLink 1).serial = serial ∧ (t.plcLink 1).node =
    node ∧ t.plc.answers = [(serial, 1)] ∧ t.get PLC_STAT.NSTN = 1) ∧
  (∀ (s : State) (serial node : Nat), s.runs 9 → s.get PLC_STAT.STATE = 3 → s.inContention → s.plc.wait = 0 → s.plcNow.2 + 2 + robustSymbols 4 (2 *
    infoBits 17) ≤ 160 → ∃ t, exec (.associationRequest none serial node) s = .next t ∧ ((t.out.head?.map fun p => (p.kind, (p.data.drop 25).take 8))
    = some (.plcAssoc, leBytes 8 s.serial)) ∧ (1 ≤ t.plc.wait ∧ t.plc.wait ≤ 8)) ∧
  (∀ (s : State) (stn : Nat), s.runs 9 → s.get PLC_STAT.STATE = 5 → stn ≠ 0 → stn ≠ 0x3F → (s.plc.links.any fun p => p.1 == stn) → (s.plcLink
    stn).heardAt + 4 * twoPeriods ≤ s.stamp → ∃ t, exec (.stationRemove stn) s = .next t ∧ ((t.plc.links.any fun p => p.1 == stn) = false) ∧
    t.plc.pend ≠ none) ∧
  (∀ (s : State) (stn : Nat), s.plcHas stn → 6 ≤ s.plcLeft → (s.plcLink stn).sound → ∃ t, exec (.sounding stn) s = .next t ∧ t.plcLink stn =
    { s.plcLink stn with sound := false } ∧ t.out = ⟨.plcSound, stn, [min 30 (s.get PLC_CTRL.TXATT), s.notched] ++ s.plcControl 4 stn 0 0 4 0 0 0⟩ ::
    s.out ∧ t.regs = s.regs) ∧
  (∀ (s : State) (stn id rate : Nat) (codes : List Nat), s.plcHas stn → (s.plcLink stn).sounded → (s.plcLink stn).issued = 7 → ∃ t, exec
    (.toneMapIssue stn true id rate codes) s = .next t ∧ (t.plcLink stn).issued = 2 ∧ (t.plcLink stn).oldMap = 7 ∧ (t.plcLink stn).oldAt = some
    s.stamp ∧ t.get PLC_CNT2.TMAP_REF = min (s.get PLC_CNT2.TMAP_REF + 1) (2 ^ PLC_CNT2.TMAP_REF.w - 1) ∧ (t.plcLink stn).sounded = false ∧
    ((t.plcLink stn).queue = (s.plcLink stn).queue ++ [(false, 0, [2, rate % 3] ++ packCodes ((List.range 1155).map fun i => codes.getD i 0))]) ∧
    t.out = s.out ∧ Logged s t [(0x0706, 1, [stn, 2])]) ∧
  (∀ (s : State) (stn id rate : Nat) (codes : List Nat), s.plcHas stn → 2 ≤ id → id ≤ 7 → (codes.all fun k => decide (k < 7)) → exec (.toneMapIssue
    stn false id rate codes) s = .next (s.setPlc stn { s.plcLink stn with tm := id, rate := rate, codes := codes, txWindow := [] })) ∧
  (∀ (s : State) (stn secs : Nat), s.plcHas stn → 30 ≤ secs → exec (.toneMapRefresh stn secs) s = .next (s.setPlc stn { s.plcLink stn with sound := true }))
    ∧
  (∀ (s : State) (stn : Nat), s.plcHas stn → 4 ≤ ((s.plcLink stn).window.filter id).length ∨ 4 ≤ ((s.plcLink stn).txWindow.filter id).length → ∃ t,
    exec (.linkDegraded stn) s = .next t ∧ ((t.plcLink stn).tm = if 4 ≤ ((s.plcLink stn).txWindow.filter id).length then 0 else (s.plcLink stn).tm) ∧
    (t.plcLink stn).sound = true ∧ (t.plcLink stn).window = [] ∧ (t.plcLink stn).txWindow = [] ∧ t.get PLC_STAT.DEGR_SEEN = 1 ∧ Logged s t [(0x0707,
    3, [stn])]) ∧
  (∀ (s : State) (stn : Nat) (t1 t2 t3 t4 : Int) (stableMs : Nat), s.plcHas stn → s.is FAB_CTRL.PLC_EN → 2 ≤ s.plcLeft → (s.plcLink stn).dly = [] →
    (s.plcLink stn).active = false → ∃ t, exec (.ranging stn t1 t2 t3 t4 stableMs none) s = .next t ∧ (t.plcLink stn).active = true ∧ (t.plcLink
    stn).dly = [((t4 - t1) - (t3 - t2)) / 2 + s.geti PLC_ASYM.PL_ASYM] ∧ ((stn = 0 → (t.get PLC_DLY.DLY : Int) = clampI 0 (2 ^ 20 - 1) (((t4 - t1) -
    (t3 - t2)) / 2 + s.geti PLC_ASYM.PL_ASYM)))) ∧
  (∀ (s : State) (ms : Nat), s.runs 9 → 2 ≤ s.get PLC_STAT.STATE → 1 ≤ ms → ∃ t, exec (.couplerAbsent ms) s = .next t ∧ t.get PLC_STAT.STATE = 1 ∧
    t.get PLC_STAT.ABS_SEEN = 1 ∧ t.pins.plcDet = true ∧ t.plc.links = []) ∧
  (∀ (s : State), s.runs 9 → s.get PLC_STAT.STATE = 1 → ∃ t, exec (.couplerPresent) s = .next t ∧ (t.get PLC_STAT.STATE = if s.is PLC_CTRL.EN then 2
    else 0) ∧ t.pins.plcDet = false ∧ t.get PLC_BEACON.MISSED = 0)

/-- Results of Metrology's commands: what each leaves, and that it completes. Chapters: 11_metrology. Operands stand for what the module observes
(log 5) and open values are free (log 6); where a clause rests on another choice of the model, the log entries are 10, 11, 41, 56, 70, 92, 115,
127. -/
def Obligations.MetrologyResults : Prop :=
  (∀ (s : State) (p : Nat) (xv xi : BitVec 128), s.metRuns → p < 8 → s.is MET_PT_CFG.EN p → s.get MET_PT_CFG.V_CH p = 0x1F → s.chOk (s.get
    MET_PT_CFG.I_CH p) = false → ∃ t, exec (.metrologySample p xv xi) s = .next t ∧ t.get MET_PT_STAT.VALID p = 0 ∧ t.get MET_PT_STAT.GAP_SEEN p = 1 ∧
    (t.pt p).acc.gap = (s.pt p).acc.gap + (if s.met.closed then 0 else 1) ∧ (t.pt p).acc.iF = (s.pt p).acc.iF ∧ (t.pt p).acc.iR = (s.pt p).acc.iR) ∧
  (∀ (s : State) (p : Nat) (xv xi : BitVec 128), s.metRuns → p < 8 → s.is MET_PT_CFG.EN p → s.get MET_PT_CFG.V_CH p < 16 → s.chOk (s.get
    MET_PT_CFG.V_CH p) → s.chOk (s.get MET_PT_CFG.I_CH p) → s.get MET_PT_CFG.V_CH p ≠ s.get MET_PT_CFG.I_CH p → s.is MET_PT_CFG.POL p = false → s.is
    MET_STAT.ACC → s.is MET_PT_CFG.CAB_EN p = false → s.geti MET_REF_CORR.REF_CORR = 0 → clampN 1 100 (s.get MET_PT_NOM.I_START p) * s.get
    MET_PT_NOM.I_NOM p * 10 ≤ (s.ptValue (s.get MET_PT_CFG.I_CH p) (lineTake (sinc3 (modTake xi (s.pt p).modI)) (s.pt p).lineI)).natAbs → ∃ t, exec
    (.metrologySample p xv xi) s = .next t ∧ (t.pt p).acc.iF = (s.pt p).acc.iF + (s.ptValue (s.get MET_PT_CFG.V_CH p) (lineTake (sinc3 (modTake xv
    (s.pt p).modV)) (s.pt p).lineV) * s.ptValue (s.get MET_PT_CFG.I_CH p) (lineTake (sinc3 (modTake xi (s.pt p).modI)) (s.pt p).lineI)).toNat ∧ (t.pt
    p).acc.iR = (s.pt p).acc.iR + (-(s.ptValue (s.get MET_PT_CFG.V_CH p) (lineTake (sinc3 (modTake xv (s.pt p).modV)) (s.pt p).lineV) * s.ptValue
    (s.get MET_PT_CFG.I_CH p) (lineTake (sinc3 (modTake xi (s.pt p).modI)) (s.pt p).lineI))).toNat ∧ (t.pt p).acc.gap = (s.pt p).acc.gap ∧ t.get
    MET_PT_STAT.VALID p = 1) ∧
  (∀ (s : State) (c run p : Nat), s.chOn c → 256 ≤ run → p < 8 → s.is MET_PT_CFG.EN p → s.get MET_PT_CFG.I_CH p = c → s.get MET_PT_CFG.V_CH p ≠ c →
    s.is MET_PT_STAT.VALID p → ∃ t, exec (.channelStuck c run) s = .next t ∧ bit (t.get MET_CH_FLT.STUCK) c ∧ bit (t.get MET_CH_FLT_SEEN.STUCK_SEEN)
    c ∧ t.fl MET_CH_VAL.VAL c = fNaN ∧ t.get MET_PT_STAT.VALID p = 0) ∧
  (∀ (s : State) (c n p : Nat), s.chOn c → 4 ≤ n → p < 8 → s.is MET_PT_CFG.EN p → s.get MET_PT_CFG.V_CH p = c → s.is MET_PT_STAT.VALID p → ∃ t, exec
    (.channelOverRange c n) s = .next t ∧ bit (t.get MET_CH_FLT.OVR) c ∧ bit (t.get MET_CH_FLT_SEEN.OVR_SEEN) c ∧ t.fl MET_CH_VAL.VAL c = fNaN ∧
    t.get MET_PT_STAT.VALID p = 0) ∧
  (∀ (s : State) (c kind n : Nat), s.chOn c → 1024 ≤ n → ∃ t, exec (.channelFaultClear c kind n) s = .next t ∧ (kind = 0 → bit (t.get
    MET_CH_FLT.STUCK) c = false ∧ t.get MET_CH_FLT.OVR = s.get MET_CH_FLT.OVR) ∧ (kind ≠ 0 → bit (t.get MET_CH_FLT.OVR) c = false ∧ t.get
    MET_CH_FLT.STUCK = s.get MET_CH_FLT.STUCK) ∧ t.get MET_CH_FLT_SEEN.STUCK_SEEN = s.get MET_CH_FLT_SEEN.STUCK_SEEN) ∧
  (∀ (s : State) (p : Nat), p < 8 → 16 ≤ (s.pt p).n → (s.pt p).bad = false → ∃ t, exec (.pointBlockPublish p) s = .next t ∧ t.get MET_PT_V.V p =
    ofSigned MET_PT_V.V.w (divNear (s.pt p).sumV 1600) ∧ t.get MET_PT_I.I p = ofSigned MET_PT_I.I.w (divNear (s.pt p).sumI 1600) ∧ t.get MET_PT_P.P
    p = ofSigned MET_PT_P.P.w (divNear (s.pt p).sumP (16 * 10 ^ 10)) ∧ t.get MET_PT_PLOSS.PLOSS p = ofSigned MET_PT_PLOSS.PLOSS.w (divNear (s.pt
    p).sumL (16 * 10 ^ 10)) ∧ (t.pt p).n = 0 ∧ (t.pt p).acc = (s.pt p).acc) ∧
  (∀ (s : State) (lateUs : Nat), s.cs.busy → 1000 < lateUs → ∃ t, exec (.packCurrentRequest lateUs) s = .next t ∧ t.cs.curI = none ∧ t.out =
    ⟨.packCurrent, s.get CS_CTRL.PT, [0x80000000, 0]⟩ :: s.out ∧ Logged s t [(0x0C0F, 3, [])]) ∧
  (∀ (s : State) (lateUs t0 t1 : Nat) (i0 : Int), s.cs.busy → lateUs ≤ 1000 → s.is MET_PT_CFG.EN (s.get CS_CTRL.PT) → (s.pt (s.get CS_CTRL.PT)).hist =
    [(t1, i0, true), (t0, i0, true)] → 0 < t0 → t0 ≤ s.cs.cur → s.cs.cur ≤ t1 → ∃ t, exec (.packCurrentRequest lateUs) s = .next t ∧ t.cs.curI =
    some (i0 / 100) ∧ t.out = ⟨.packCurrent, s.get CS_CTRL.PT, [ofSigned 32 (i0 / 100), 1]⟩ :: s.out) ∧
  (∀ (s : State) (p : Nat), s.metRuns → s.runs 10 → p < 8 → s.is MET_PT_CFG.EN p → s.get MET_PT_CAB_T.CAB_TSRC p < 48 → s.get MET_PT_STAT.TFALL p =
    0 → s.get TH_TS_STAT.STATE (s.get MET_PT_CAB_T.CAB_TSRC p) = 1 → ∃ t, exec (.cableTemperatureUpdate p) s = .next t ∧ (t.pt p).t = s.geti
    TH_TS_VAL.REP (s.get MET_PT_CAB_T.CAB_TSRC p) ∧ ((s.pt p).snap = none → t.get MET_PT_TCAB.T_USED p = s.get TH_TS_VAL.REP (s.get
    MET_PT_CAB_T.CAB_TSRC p)) ∧ ((s.pt p).snap ≠ none → t.get MET_PT_TCAB.T_USED p = s.get MET_PT_TCAB.T_USED p)) ∧
  (∀ (s : State) (p ms : Nat), s.metRuns → p < 8 → s.is MET_PT_CFG.EN p → s.get MET_PT_CAB_T.CAB_TSRC p < 48 → s.get MET_PT_STAT.TFALL p = 0 → s.is
    MET_PT_CFG.LEGAL p = false → 1000 ≤ ms → ∃ t, exec (.cableTFallback p ms) s = .next t ∧ (t.pt p).t = s.geti MET_PT_CAB_T.CAB_TFALL p ∧ ((s.pt
    p).snap = none → t.get MET_PT_TCAB.T_USED p = s.get MET_PT_CAB_T.CAB_TFALL p) ∧ t.get MET_PT_STAT.TFALL p = 1 ∧ t.get MET_PT_STAT.TFALL_SEEN p = 1
    ∧ Logged s t [(0x0807, 3, [p, 1])]) ∧
  (∀ (s : State) (p secs : Nat), s.metRuns → p < 8 → s.runs 10 → s.get TH_CM_CFG.EN 1 = 1 → s.get MET_PT_CAB_T.CAB_TSRC p = 0x41 → s.get
    TH_CM_VAL.SUSPECT 1 = 0 → s.get MET_PT_STAT.TFALL p = 1 → s.is MET_PT_CFG.LEGAL p → 10 ≤ secs → ∃ t, exec (.cableTReturn p secs) s = .next t ∧
    (t.pt p).t = s.geti TH_CM_VAL.T 1 ∧ ((s.pt p).snap = none → t.get MET_PT_TCAB.T_USED p = s.get TH_CM_VAL.T 1) ∧ t.get MET_PT_STAT.TFALL p = 0 ∧
    Entered s t [(0x0807, [p, 0])]) ∧
  (∀ (s : State) (sess p : Nat), p < 8 → s.writeStatus sess MET_PT_CFG.EN = 0 → s.ptCfgOk p → ∃ t, exec (.pointEnable sess p) s = .next t ∧ t.get
    MET_PT_CFG.EN p = 1 ∧ t.get MET_PT_STAT.CFG_ERR p = 0 ∧ t.get MET_STAT.BANK_ON = t.banksOn) ∧
  (∀ (s : State) (sess p : Nat), p < 8 → s.writeStatus sess MET_PT_CFG.EN = 0 → s.ptCfgOk p = false → ∃ t, exec (.pointEnable sess p) s = .next t ∧
    t.get MET_PT_STAT.CFG_ERR p = 1 ∧ t.get MET_PT_CFG.EN p = 0 ∧ (s.is MET_PT_CFG.LEGAL p = false → s.is MET_PT_CFG.EN p = false → Logged s t
    [(0x0810, 3, [p])])) ∧
  (∀ (s : State) (sess mask p : Nat), p < 8 → bit mask p → s.writeStatus sess MET_SNAP.SNAP = 0 → s.is MET_PT_CFG.EN p → ∃ t, exec (.snapshotTake sess
    mask) s = .next t ∧ bit (t.get MET_SNAP.SNAP) p ∧ (t.pt p).arm = some s.snapStamp ∧ (t.pt p).acc = (s.pt p).acc) ∧
  (∀ (s : State) (sess mask p : Nat), p < 8 → bit mask p → s.writeStatus sess MET_SNAP.SNAP = 0 → ∃ t, exec (.snapshotRelease sess mask) s = .next t ∧
    bit (t.get MET_SNAP.SNAP) p = false ∧ bit (t.get MET_SNAP.TAKEN) p = false ∧ t.get MET_PT_STAT.SNAP_HELD p = 0 ∧ (t.pt p).snap = none ∧ (t.pt
    p).arm = none ∧ t.get MET_PT_QR_F.QR_F p = whOf (s.pt p).acc.iF % 2 ^ 32) ∧
  (∀ (s : State) (a : La) (p : Nat), s.laDue = some a → a.ep = 0x016 → a.op = 1 → p < 8 → bit (byteAt a.body 0) p → s.is MET_PT_CFG.EN p → ∃ t, exec
    (.snapshotAction) s = .next t ∧ (t.pt p).arm = some (.at_ a.target) ∧ bit (t.get MET_SNAP.SNAP) p ∧ t.fab.la = s.fab.la.erase a) ∧
  (∀ (s : State) (a : La) (p : Nat), s.laDue = some a → a.ep = 0x016 → a.op = 2 → p < 8 → bit (byteAt a.body 0) p → ∃ t, exec (.snapshotReleaseAction)
    s = .next t ∧ (t.pt p).snap = none ∧ (t.pt p).arm = none ∧ t.get MET_PT_STAT.SNAP_HELD p = 0 ∧ t.fab.la = s.fab.la.erase a) ∧
  (∀ (s : State) (sess p : Nat), p < 8 → s.writeStatus sess MET_PT_CTRL.PEAK_CLR = 0 → ∃ t, exec (.peakClear sess p) s = .next t ∧ t.get
    MET_PT_PEAK_V.PEAK_V p = 0 ∧ t.get MET_PT_PEAK_I.PEAK_I p = 0 ∧ t.get MET_PT_PEAK_P.PEAK_P p = 0) ∧
  (∀ (s : State) (p n : Nat) (peak : List (BitVec 63)), s.metRuns → p < 8 → s.is MET_PT_CFG.EN p → s.get MET_PT_OC.OC_TH p ≠ 0xFFFF → bit (s.get
    MET_CH_FLT.STUCK) (s.get MET_PT_CFG.I_CH p) = false → s.get MET_PT_STAT.OC p = 0 → s.is MET_PT_CFG.LEGAL p = false → s.is MET_PT_OC.OC_ACT p =
    false → max 1 (s.get MET_PT_OC.OC_N p) ≤ (peak.take n).length → ((peak.take n).all fun w => decide (s.get MET_PT_OC.OC_TH p * 10 ^ 5 < s.fastValue
    p w) || decide ((sinc2 w).natAbs = 2 ^ 23)) → ∃ t, exec (.overCurrent p n peak) s = .next t ∧ t.get MET_PT_STAT.OC p = 1 ∧ t.get
    MET_PT_STAT.OC_SEEN p = 1 ∧ Logged s t [(0x0806, 3, [p, 0] ++ leBytes 2 (min (s.fastPeak p (peak.take n)) 0xFFFF))]) ∧
  (∀ (s : State) (p ms : Nat), s.metRuns → p < 8 → 1 ≤ ms → ∃ t, exec (.overCurrentClear p ms) s = .next t ∧ t.get MET_PT_STAT.OC p = 0 ∧ t.get
    MET_PT_STAT.OC_SEEN p = s.get MET_PT_STAT.OC_SEEN p) ∧
  (∀ (s : State) (n : Nat), s.pulRuns n → ((s.pul n).m + 1) * s.pulWeight n ≤ (s.pul n).count → (s.pul n).phase = 0 → s.get MET_PUL_STAT.PEND n = 0 →
    ∃ t, exec (.pulseEmit n) s = .next t ∧ t.get MET_PUL_CNT.CNT n = (s.get MET_PUL_CNT.CNT n + 1) % 2 ^ 32 ∧ bit t.pins.pul n ∧ t.pul n = { s.pul n with m := (s.pul n).m + 1, phase := 1 })
    ∧
  (∀ (s : State) (n : Nat), s.pulRuns n → ((s.pul n).m + 1) * s.pulWeight n ≤ (s.pul n).count → (s.pul n).phase = 1 → s.get MET_PUL_STAT.PEND n <
    0xFFFF → ∃ t, exec (.pulseEmit n) s = .next t ∧ t.get MET_PUL_STAT.PEND n = s.get MET_PUL_STAT.PEND n + 1 ∧ t.get MET_PUL_CNT.CNT n = s.get
    MET_PUL_CNT.CNT n ∧ t.pins = s.pins) ∧
  (∀ (s : State) (n tw : Nat), n < 8 → (s.pul n).phase ≠ 0 → 2 * max 2 (s.get MET_PUL_CFG.PW n) ≤ tw → s.get MET_PUL_STAT.PEND n = 0 → ∃ t, exec
    (.pulseEnd n tw) s = .next t ∧ (t.pul n).phase = 0 ∧ bit t.pins.pul n = false ∧ t.get MET_PUL_CNT.CNT n = s.get MET_PUL_CNT.CNT n) ∧
  (∀ (s : State) (secs : Nat), s.metRuns → s.met.closed = false → 60 ≤ secs → ∃ t, exec (.metrologyCommit secs) s = .next t ∧ (t.met.com.acc =
    s.met.pts.map fun (p : Nat × PtX) => (p.1, p.2.acc)) ∧ t.met.com.pul = s.met.pul ∧ (t.met.com.closing = (!s.is MET_STAT.ACC && s.met.com.closing))
    ∧ t.bilCom = s.bil ∧ t.regs = s.regs) ∧
  (∀ (s : State) (secs : Nat), s.metRuns → s.get MET_STAT.ACC = 0 → s.met.closed = false → s.is PWR_HOLDUP.HOLDUP_OK → s.met.com.closing → ∃ t, exec
    (.accumulationStart secs) s = .next t ∧ t.get MET_STAT.ACC = 1 ∧ t.get MET_STAT.HOLD_WAIT = 0 ∧ t.met.com.closing = false ∧ t.get
    MET_STAT.UNCLOSED = s.get MET_STAT.UNCLOSED ∧ Logged s t [(0x0801, 2, leBytes 4 (min secs 0xFFFFFFFF))]) ∧
  (∀ (s : State) (secs : Nat), s.metRuns → s.get MET_STAT.ACC = 0 → s.met.closed = false → s.is PWR_HOLDUP.HOLDUP_OK → s.met.com.closing = false → ∃ t,
    exec (.accumulationStart secs) s = .next t ∧ t.get MET_STAT.ACC = 1 ∧ t.get MET_STAT.UNCLOSED = 1 ∧ Entered s t [(0x0803, [])]) ∧
  (∀ (s : State) (sess confirm : Nat), s.writeStatus sess MET_SEAL.SET = 0 → confirm % 2 ^ 16 = s.get SYS_SERIAL_LO.SERIAL % 2 ^ 16 → s.isSealed =
    false → s.is MET_PT_CFG.EN 7 → s.is MET_PT_CFG.LEGAL 7 → (((List.range 8).all fun p => !s.is MET_PT_CFG.EN p || !s.is MET_PT_CFG.LEGAL p || s.is
    MET_PT_STAT.VALID p)) → s.moraineReserve = false → ∃ t, exec (.sealSet sess confirm) s = .next t ∧ t.get MET_SEAL.SEALED = 1 ∧ t.get
    MET_STAT.SEALED = 1 ∧ t.get MET_SEAL.SET_STATUS = 1 ∧ t.get MET_SEAL.SEAL_CNT = min (s.get MET_SEAL.SEAL_CNT + 1) (2 ^ MET_SEAL.SEAL_CNT.w - 1)
    ∧ Entered s t [(0x0809, leBytes 4 (t.get MET_PARAM_DIG.DIG))]) ∧
  (∀ (s : State) (sess confirm : Nat), s.writeStatus sess MET_SEAL.SET = 0 → confirm % 2 ^ 16 ≠ s.get SYS_SERIAL_LO.SERIAL % 2 ^ 16 → ∃ t, exec
    (.sealSet sess confirm) s = .next t ∧ t.get MET_SEAL.SET_STATUS = 2 ∧ t.get MET_SEAL.SEALED = s.get MET_SEAL.SEALED ∧ t.get MET_SEAL.CONFIRM =
    0)

/-- Results of Billing's commands: what each leaves, and that it completes. Chapters: 12_billing_tariffs. Operands stand for what the module
observes (log 5) and open values are free (log 6); where a clause rests on another choice of the model, the log entries are 4, 13, 14, 15, 42,
43, 44, 45, 56, 70, 92, 96, 126, 128. -/
def Obligations.BillingResults : Prop :=
  (∀ (s : State), s.runs 2 → s.met.closed = false → s.rtc + 1 < 2 ^ 32 → s.is UPD_PKG_CMD.PEND = false → ∃ t, exec (.billingTick) s = .next t ∧ t.get
    SYS_RTC.UTC = s.rtc + 1 ∧ t.get BIL_SYNC.SYNC_AGE = min (s.get BIL_SYNC.SYNC_AGE + 1) (2 ^ 17 - 1) ∧ t.get BIL_BT.BT = (moveBt (s.get
    BIL_STAT.CLK_ST) (s.get BIL_BT.BT) (s.rtc + 1) s.bil.synced).1 % 2 ^ 32 ∧ t.get BIL_STAT.CLK_ST = staleClk (moveBt (s.get BIL_STAT.CLK_ST)
    (s.get BIL_BT.BT) (s.rtc + 1) s.bil.synced).2 (t.get BIL_SYNC.SYNC_AGE) % 2 ^ BIL_STAT.CLK_ST.w ∧ t.bil.restart = false ∧ t.bil.synced = false)
    ∧
  (∀ (s : State), s.runs 2 = false → s.rtc + 1 < 2 ^ 32 → ∃ t, exec (.billingTick) s = .next t ∧ t.get SYS_RTC.UTC = s.rtc + 1 ∧ t.get
    BIL_SYNC.SYNC_AGE = min (s.get BIL_SYNC.SYNC_AGE + 1) (2 ^ 17 - 1) ∧ t.get BIL_BT.BT = s.get BIL_BT.BT ∧ t.bil = s.bil) ∧
  (∀ (s : State) (sess : Nat), s.writeStatus sess BIL_CLK_CMD.REBASE = 0 → s.get BIL_STAT.CLK_ST = 4 → s.moraineReserve = false → ∃ t, exec (.rebase
    sess) s = .next t ∧ t.get BIL_EPOCH.EPOCH = (s.get BIL_EPOCH.EPOCH + 1) % 2 ^ 16 ∧ t.get BIL_BT.BT = s.rtc ∧ t.get BIL_OFS.BT_OFS = 0 ∧ t.get
    BIL_CLK_CMD.REBASE = 0 ∧ t.get BIL_CLK_CMD.STATUS = 1 ∧ t.bil.perBt = s.rtc ∧ t.bil.intBt = s.rtc ∧ (s.get BIL_SYNC.SYNC_AGE ≤ 86400 → t.get
    BIL_STAT.CLK_ST = 1 ∧ t.get BIL_STAT.CLK_VALID = 1) ∧ (86400 < s.get BIL_SYNC.SYNC_AGE → t.get BIL_STAT.CLK_ST = 3 ∧ t.get BIL_STAT.CLK_VALID =
    0)) ∧
  (∀ (s : State) (sess : Nat), s.writeStatus sess BIL_CLK_CMD.REBASE = 0 → s.get BIL_STAT.CLK_ST ≠ 4 → exec (.rebase sess) s = .next ((s.put
    BIL_CLK_CMD.REBASE 0).put BIL_CLK_CMD.STATUS 2)) ∧
  (∀ (s : State) (sess : Nat), s.writeStatus sess BIL_CAL_CTRL.ACTIVATE = 0 → s.moraineReserve = false → s.calCheck (1 - s.calBank) = (1, 0) → ∃ t,
    exec (.calendarActivate sess) s = .next t ∧ t.get BIL_CAL_CTRL.ACTIVATE = 1 ∧ t.get BIL_CAL_CTRL.CHK_STATUS = 1 ∧ t.get BIL_CAL_CTRL.CHK_WORD =
    0 ∧ t.get BIL_CAL_CTRL.ACT_BANK = s.get BIL_CAL_CTRL.ACT_BANK ∧ t.bil = s.bil) ∧
  (∀ (s : State) (sess : Nat), s.writeStatus sess BIL_CAL_CTRL.ACTIVATE = 0 → s.moraineReserve = false → s.calCheck (1 - s.calBank) = (2, 0) → ∃ t,
    exec (.calendarActivate sess) s = .next t ∧ t.get BIL_CAL_CTRL.ACTIVATE = 0 ∧ t.get BIL_CAL_CTRL.CHK_STATUS = 2 ∧ Logged s t [(0x0912, 3, [2, 0,
    0])]) ∧
  (∀ (s : State) (sess : Nat), s.writeStatus sess BIL_PER_CMD.CLOSE = 0 → exec (.periodCloseCommand sess) s = .next (s.put BIL_PER_CMD.CLOSE 1)) ∧
  (∀ (s : State) (a : La), s.laDue = some a → a.ep = 0x017 → a.op = 1 → ∃ t, exec (.periodCloseAction) s = .next t ∧ t.bil = { s.bil with actClose := true }
    ∧ t.fab.la = s.fab.la.erase a) ∧
  (∀ (s : State) (p conn id : Nat) (ident : List Nat) (stamp : Nat), s.legalPts.contains p → s.bil.opn = [] → s.bil.sess.length < 2048 → s.get
    EVR_STAT.MOR_FULL = 0 → s.met.closed = false → s.bilRuns → ∃ t, exec (.sessionOpen p conn id ident stamp) s = .next t ∧ t.bil.opn = [(p, ⟨conn,
    id, ident, stamp, none, s.get BIL_BT.BT, 0, 0, none⟩)] ∧ (t.pt p).badSess = false ∧ t.regs = s.regs) ∧
  (∀ (s : State) (p conn id : Nat) (ident : List Nat) (stamp : Nat), s.legalPts.contains p → s.bil.opn = [] → 8192 ≤ s.evr.mor.length →
    s.bil.sess.length < 2048 → exec (.sessionOpen p conn id ident stamp) s = .next s) ∧
  (∀ (s : State) (p reason stamp : Nat) (x0 : BSess), s.bil.opn = [(p, x0)] → x0.closeAt = none → exec (.sessionClose p reason stamp) s = .next ({ s with bil := { s.bil with opn := [(p, { x0 with closeAt := some (stamp, reason) })] } }))
    ∧
  (∀ (s : State) (sess n : Nat), s.writeStatus sess BIL_SESS_ACK.ACK_NUM = 0 → s.get BIL_SESS_ACK.ACK_NUM ≤ n → n < 2 ^ 32 → ∃ t, exec (.sessionAck
    sess n) s = .next t ∧ t.get BIL_SESS_ACK.ACK_NUM = n ∧ (t.bil.sess = s.bil.sess.filter fun r => decide (n < r.num)) ∧ (t.bil.sess.length < 2048
    → t.get BIL_STORE.SESS_FULL = 0)) ∧
  (∀ (s : State) (r : MRec), s.runs 2 → s.bil.sess = [r] → r.sig = none → s.slotServes (1 + byteAt r.bytes 3) 0 → ∃ t, exec (.recordSign true) s =
    .next t ∧ ((t.bil.sess.map fun q => (q.num, q.bytes, q.sig.map List.length)) = [(r.num, r.bytes, some (sigLen (byteAt r.bytes 3)))]) ∧ t.get
    KV_CNT.SIGNS = min (s.get KV_CNT.SIGNS + 1) (2 ^ KV_CNT.SIGNS.w - 1) ∧ t.vault = s.vault) ∧
  (∀ (s : State), s.tmp.cover = 1 → s.tmp.term = 0 → s.tmp.queue.length < 16 → ∃ t, exec (.tamperLoopSample true false false false) s = .next t ∧
    t.get BIL_TMP.COVER = 1 ∧ t.get BIL_TMP.TERM = 0 ∧ t.get BIL_TMP.TMP_PEND = 1 ∧ t.get BIL_TMP_CNT.COVER_CNT = min (s.get BIL_TMP_CNT.COVER_CNT +
    1) (2 ^ BIL_TMP_CNT.COVER_CNT.w - 1) ∧ (t.tmp.queue = s.tmp.queue ++ [⟨false, true, s.rtc, if s.runs 2 then s.keeper else 0⟩]) ∧ t.get
    KV_STAT.DESTROYED = s.get KV_STAT.DESTROYED) ∧
  (∀ (s : State), s.tmp.lid = 1 → s.tmp.cover = 0 → s.tmp.term = 0 → s.get KV_STAT.DESTROYED = 0 → ∃ t, exec (.tamperLoopSample false false true
    false) s = .next t ∧ t.get KV_STAT.DESTROYED = 1 ∧ t.get KV_DESTROY.CAUSE = 1 ∧ t.get KV_DESTROY_TIME.UTC = s.rtc ∧ (s.runs 11 → t.kv = {} ∧ t.get
    KV_STAT.N_WORK = 0 ∧ bit (t.get SYS_READY.RDY) 12 = false) ∧ (s.runs 8 → t.fab.key = none) ∧ (t.vault.pend = some (1, s.rtc, if s.runs 4 then
    s.keeper else 0))) ∧
  (∀ (s : State), s.runs 2 → s.tmp.lost = 0 → ∃ t, exec (.tamperQueueMove) s = .next t ∧ t.tmp = { s.tmp with queue := [] } ∧ t.get BIL_TMP.N_Q = 0 ∧
    (Entered s t (s.tmp.queue.map fun e => (e.code, [])))) ∧
  (∀ (s : State) (sess : Nat), s.writeStatus sess BIL_TMP.TMP_ACK = 0 → s.moraineReserve = false → s.get BIL_TMP.TMP_PEND = 1 → s.get BIL_TMP.COVER =
    0 → s.get BIL_TMP.TERM = 0 → ∃ t, exec (.tamperAck sess) s = .next t ∧ t.get BIL_TMP.TMP_PEND = 0 ∧ Entered s t [(0x0925, [])]) ∧
  (∀ (s : State) (sess : Nat), s.writeStatus sess BIL_TMP.TMP_ACK = 0 → s.moraineReserve = false → s.get BIL_TMP.COVER = 1 → exec (.tamperAck sess) s
    = .next s) ∧
  (∀ (s : State), s.dispRuns → ∃ t, exec (.displayFrame) s = .next t ∧ ((t.out.head?.map fun p => (p.kind, p.data.take 2)) = some (.display, [2,
    s.get BIL_DISP_STAT.PAGE])) ∧ ((t.out.head?.map fun p => (p.data.length, p.data.drop 35)) = some (39, leBytes 4 t.bil.dispCrc)) ∧ (s.dispOk
    s.bil.seq → t.get BIL_DISP_STAT.DEFAULT_SEQ = 0) ∧ (s.dispOk s.bil.seq = false → t.get BIL_DISP_STAT.DEFAULT_SEQ = 1) ∧ t.bil.dispTest =
    s.bil.dispTest - 1) ∧
  (∀ (s : State), s.dispRuns → exec (.displayAnswer (0x06 :: leBytes 4 s.bil.dispCrc)) s = .next ({ s with bil := { s.bil with dispMiss := 0 } }.put
    BIL_DISP_STAT.DISP_FLT 0)) ∧
  (∀ (s : State) (ok : List Nat), s.dispRuns → ok ≠ 0x06 :: leBytes 4 s.bil.dispCrc → s.bil.dispMiss = 2 → s.get BIL_DISP_STAT.DISP_FLT = 0 → ∃ t,
    exec (.displayAnswer ok) s = .next t ∧ t.get BIL_DISP_STAT.DISP_FLT = 1 ∧ t.get BIL_DISP_STAT.FLT_SEEN = 1 ∧ t.bil.dispMiss = 3 ∧ Logged s t
    [(0x0930, 3, [])]) ∧
  (∀ (s : State) (secs : Nat), s.dispRuns → s.get BIL_DISP_STAT.MANUAL = 0 → s.bil.dispTest = 0 → clampN 2 30 s.bil.dwell ≤ secs → s.get
    BIL_DISP_STAT.PAGE + 1 < s.dispSeq.length → s.get BIL_DISP_STAT.PAGE < 31 → ∃ t, exec (.pageAdvance secs) s = .next t ∧ t.get BIL_DISP_STAT.PAGE =
    s.get BIL_DISP_STAT.PAGE + 1 ∧ ((t.out.head?.map fun p => p.kind) = some .display)) ∧
  (∀ (s : State), s.dispRuns → s.bil.dispTest ≠ 0 → exec (.displayButtonShort) s = .next (s.put BIL_DISP_STAT.MANUAL 1)) ∧
  (∀ (s : State), s.dispRuns → s.bil.dispTest = 0 → s.dispSeq.length ≤ s.get BIL_DISP_STAT.PAGE + 1 → ∃ t, exec (.displayButtonShort) s = .next t ∧ t.get
    BIL_DISP_STAT.MANUAL = 1 ∧ t.get BIL_DISP_STAT.PAGE = 0 ∧ ((t.out.head?.map fun p => p.kind) = some .display)) ∧
  (∀ (s : State), s.dispRuns → ∃ t, exec (.displayButtonLong) s = .next t ∧ t.get BIL_DISP_STAT.PAGE = 0 ∧ t.bil.dispTest = 6 ∧ ((t.out.head?.map
    fun p => (p.kind, (p.data.drop 3).take 32)) = some (.display, List.replicate 32 0x7F))) ∧
  (∀ (s : State) (secs : Nat), s.dispRuns → 60 ≤ secs → exec (.manualAdvanceResume secs) s = .next (s.put BIL_DISP_STAT.MANUAL 0))

/-- Results of the commands that move a connector between its states: what each leaves, and that it completes. Chapters: 13_vehicle_sessions.
Operands stand for what the module observes (log 5) and open values are free (log 6); where a clause rests on another choice of the model, the
log entries are 34, 46, 71, 117, 129, 138. -/
def Obligations.VehicleStateResults : Prop :=
  (∀ (s : State) (c mv n : Nat), s.vsRuns c → 10000 ≤ mv → 3 ≤ n → (s.put VS_CONN_STAT.IL 1 c).fastCause c = none → ∃ t, exec (.interlockOpen c mv
    n) s = .next t ∧ t.get VS_CONN_STAT.IL c = 1 ∧ t.get VS_CONN_STAT.STATE c = s.get VS_CONN_STAT.STATE c) ∧
  (∀ (s : State) (c mv n : Nat), s.vsRuns c → mv ≤ 2000 → 3 ≤ n → s.get VS_CONN_STAT.STATE c = 6 → ∃ t, exec (.interlockOpen c mv n) s = .next t ∧
    t.get VS_CONN_STAT.IL c = 0 ∧ t.get VS_CONN_STAT.STATE c = 7 ∧ t.get VS_CONN_STAT.END c = 3 ∧ t.get VS_CONN_STAT.FAST c = 1 ∧ ((t.conn c).hi = 0
    ∧ (t.conn c).lo = 0) ∧ Logged s t [(0x0A0A, 3, [c, 3])]) ∧
  (∀ (s : State) (c mv ms : Nat), s.vsRuns c → 10 ≤ ms → s.get VS_PROX_TH.TH_NC c * 100 < mv → s.get VS_CONN_STAT.STATE c = 1 → ∃ t, exec
    (.proximityChange c mv ms) s = .next t ∧ t.get VS_CONN_STAT.PROX c = 0 ∧ t.get VS_CONN_STAT.STATE c = 0 ∧ (t.conn c).link = false ∧ (t.conn
    c).known) ∧
  (∀ (s : State) (c ms : Nat), s.vsRuns c → s.get VS_CONN_STAT.STATE c = 0 → 100 ≤ ms → s.get VS_CONN_STAT.PROX c = 2 → s.get VS_CONN_STAT.IL c = 1 →
    ∃ t, exec (.plugIn c ms) s = .next t ∧ t.get VS_CONN_STAT.STATE c = 1 ∧ t.get VS_CONN_STAT.ID c = 0 ∧ t.get VS_CONN_AUTH.AUTH c = 0 ∧ (t.conn
    c).link ∧ Logged s t [(0x0A01, 1, [c])]) ∧
  (∀ (s : State) (c : Nat), s.vsRuns c → (s.conn c).link → 1 ≤ s.get VS_CONN_STAT.STATE c → s.slotSecc (s.get VS_SECC.CERT_SLOT) → exec (.sdpRequest c
    true) s = .next ({ s with out := ⟨.sdp, c, [1]⟩ :: s.out })) ∧
  (∀ (s : State) (h : TlsHello), s.vsRuns h.conn → s.get VS_CONN_STAT.STATE h.conn = 1 → s.get VS_CONN_STAT.PROX h.conn = 2 → tlsAccepted h → ∃ t,
    exec (.tlsSessionEstablished h) s = .next t ∧ t.get VS_CONN_STAT.STATE h.conn = 2 ∧ (t.conn h.conn).tls) ∧
  (∀ (s : State) (h : TlsHello), s.get VS_CONN_STAT.PROX h.conn = 2 → (h.v13 = false ∨ (h.suites.all fun x => x == .other) ∨ (h.curves.all fun x => x == .x448 || x == .other)) → exec (.tlsSessionEstablished h) s = .next s) ∧
  (∀ (s : State) (c ms : Nat), s.vsRuns c → s.get VS_CONN_STAT.STATE c = 1 → 20000 ≤ ms → exec (.plugTimeout c ms) s = .next (((s.put
    VS_CONN_STAT.STATE 0xA c).put VS_CONN_STAT.END 9 c).put VS_CONN_STAT.FAST 0 c)) ∧
  (∀ (s : State) (c : Nat), s.vsRuns c → (s.conn c).tls → (s.conn c).ccDone = false → s.get VS_CONN_STAT.STATE c = 2 → s.fastCause c = none →
    s.mayClose c → s.lswRuns → s.get SAF_STAT.ACTIVE = 0 → s.get LSW_CH_STAT.STATE (s.get VS_CONN_CFG.LS_NEG c) = 0 → bit s.lsw.hot (s.get
    VS_CONN_CFG.LS_NEG c) = false → s.bankUnder (bankOf (s.get VS_CONN_CFG.LS_NEG c)) = false → ∃ t, exec (.dcCableCheck c) s = .next t ∧ t.get
    VS_CONN_STAT.STATE c = 3 ∧ t.get LSW_CH_CTRL.ON (s.get VS_CONN_CFG.LS_NEG c) = 1 ∧ t.get LSW_CH_STAT.STATE (s.get VS_CONN_CFG.LS_NEG c) = 1 ∧
    t.out = ⟨.v2g, c, [9, 0, 1]⟩ :: s.out) ∧
  (∀ (s : State) (c ms : Nat), s.vsRuns c → s.get VS_CONN_STAT.STATE c = 3 → (s.conn c).plus = false → 20 ≤ ms → s.is PWR_HOLDUP.HOLDUP_OK →
    s.lswRuns → s.get VS_CONN_CFG.LS_POS c < 16 → s.get SAF_STAT.ACTIVE = 0 → s.get LSW_CH_STAT.STATE (s.get VS_CONN_CFG.LS_POS c) = 0 → bit s.lsw.hot
    (s.get VS_CONN_CFG.LS_POS c) = false → s.bankUnder (bankOf (s.get VS_CONN_CFG.LS_POS c)) = false → ∃ t, exec (.dcPlusClose c ms) s = .next t ∧
    (t.conn c).plus ∧ t.get LSW_CH_CTRL.ON (s.get VS_CONN_CFG.LS_POS c) = 1 ∧ t.get LSW_CH_STAT.STATE (s.get VS_CONN_CFG.LS_POS c) = 1) ∧
  (∀ (s : State) (c ms : Nat), s.vsRuns c → s.get VS_CONN_STAT.STATE c = 3 → (s.conn c).plus → 50 ≤ ms → s.get VS_CONN_FEED.FEED_NODE c ≠ 0 → ∃ t,
    exec (.cableCheckStart c ms) s = .next t ∧ t.get VS_CONN_STAT.STATE c = 4 ∧ t.conn c =
    { s.conn c with isoGood := false, rTgt := 1000 * s.vCc c, hi := s.iPre c, lo := 0 }) ∧
  (∀ (s : State) (c ms isoMs : Nat), s.vsRuns c → s.get VS_CONN_STAT.STATE c = 4 → 1000 ≤ ms → isoMs ≤ ms → ((s.connV c : Int) - 1000 * (s.vCc c :
    Int)).natAbs ≤ 1000 * s.get VS_CONN_SEQ.PRE_TOL c → (s.conn c).isoGood → exec (.cableCheckFinish c ms isoMs) s = .next (s.setConn c
    { s.conn c with ccDone := true })) ∧
  (∀ (s : State) (sess c v : Nat), s.writeStatus sess VS_CONN_AUTH.AUTH = 0 → s.vsRuns c → s.get VS_CONN_STAT.STATE c = 2 → v = 1 → exec (.authWrite
    sess c v) s = .next (s.put VS_CONN_AUTH.AUTH 1 c)) ∧
  (∀ (s : State) (sess c v : Nat), s.writeStatus sess VS_CONN_AUTH.AUTH = 0 → s.vsRuns c → s.get VS_CONN_STAT.STATE c = 2 → s.fastCause c = none → v
    = 2 → ∃ t, exec (.authWrite sess c v) s = .next t ∧ t.get VS_CONN_AUTH.AUTH c = 2 ∧ t.get VS_CONN_STAT.STATE c = 0xA ∧ t.get VS_CONN_STAT.END c =
    0xA ∧ t.get VS_CONN_STAT.FAST c = 0) ∧
  (∀ (s : State) (sess c v : Nat), s.writeStatus sess VS_CONN_AUTH.AUTH = 0 → s.get VS_CONN_STAT.STATE c ≠ 2 → exec (.authWrite sess c v) s = .next s)
    ∧
  (∀ (s : State) (c : Nat) (w : AuthWait), s.vsRuns c → s.get VS_CONN_STAT.STATE c = 2 → (s.get VS_CONN_AUTH.AUTH c ≠ 1 ∨ w.wrote) → s.get
    VS_SECC.AUTH_TMO ≤ w.secs → s.fastCause c = none → ∃ t, exec (.authTimeout c w) s = .next t ∧ t.get VS_CONN_STAT.STATE c = 0xA ∧ t.get
    VS_CONN_STAT.END c = 0xA ∧ t.get VS_CONN_STAT.FAST c = 0 ∧ (t.get VS_CONN_AUTH.AUTH c = if w.wrote then 0 else s.get VS_CONN_AUTH.AUTH c)) ∧
  (∀ (s : State) (c f : Nat) (w : AuthWait), s.vsRuns c → s.get VS_CONN_STAT.STATE c = 2 → s.get VS_CONN_AUTH.AUTH c ≠ 1 → w.wrote = false → s.get VS_SECC.AUTH_TMO ≤ w.secs → s.fastCause c = some f → ∃ t, exec (.authTimeout c w) s = .next t ∧ t.get VS_CONN_STAT.STATE c = 0xA ∧ t.get VS_CONN_STAT.END c = f ∧ t.get VS_CONN_STAT.FAST c = 1) ∧
  (∀ (s : State) (c ms : Nat), s.vsRuns c → s.get VS_CONN_STAT.STATE c = 5 → s.get VS_CONN_TMO.PRE_TMO c ≤ ms → exec (.preTimeout c ms) s = .next
    (((s.put VS_CONN_STAT.STATE 7 c).put VS_CONN_STAT.END 9 c).put VS_CONN_STAT.FAST 0 c)) ∧
  (∀ (s : State) (c ms : Nat), s.vsRuns c → s.get VS_CONN_STAT.STATE c = 7 → 10 ≤ ms → s.limitsAre0 c → s.decayed c → (s.conn c).bill = false →
    s.get VS_CONN_FEED.FEED_NODE c ≠ 0 → s.get SAF_STAT.ACTIVE = 0 → s.runs 10 → s.get SAF_STAT.FRZ = 0 → s.get VS_CONN_CFG.LS_POS c < 16 → s.get
    LSW_CH_STAT.STATE (s.get VS_CONN_CFG.LS_POS c) ≠ 4 → ∃ t, exec (.currentDecayed c ms) s = .next t ∧ t.get VS_CONN_STAT.STATE c = 8 ∧ (t.conn
    c).plus = false ∧ t.get LSW_CH_CTRL.ON (s.get VS_CONN_CFG.LS_POS c) = 0 ∧ t.get LSW_CH_STAT.STATE (s.get VS_CONN_CFG.LS_POS c) = 0) ∧
  (∀ (s : State) (c ms : Nat), s.vsRuns c → s.get VS_CONN_STAT.STATE c = 7 → s.limitsAre0 c → s.get VS_CONN_TMO.DECAY_T c ≤ ms → s.get SAF_STAT.ACTIVE
    = 1 → ∃ t, exec (.decayTimeout c ms) s = .next t ∧ t.get VS_CONN_STAT.STATE c = 0xB ∧ t.get VS_CONN_STAT.FAULT_SEEN c = 1 ∧ t.get
    VS_CONN_CNT.FAULTS c = min (s.get VS_CONN_CNT.FAULTS c + 1) (2 ^ VS_CONN_CNT.FAULTS.w - 1) ∧ bit (t.get SAF_SRC.SRC) 3 ∧ Logged s t [(0x0A08, 5,
    [c])]) ∧
  (∀ (s : State) (c ms : Nat), s.vsRuns c → s.get VS_CONN_STAT.STATE c = 8 → 20 ≤ ms → s.decayed c → s.get SAF_STAT.ACTIVE = 0 → s.runs 10 → s.get
    SAF_STAT.FRZ = 0 → s.get VS_CONN_CFG.LS_NEG c < 16 → s.get LSW_CH_STAT.STATE (s.get VS_CONN_CFG.LS_NEG c) ≠ 4 → ∃ t, exec (.dcMinusOpen c ms) s =
    .next t ∧ t.get LSW_CH_CTRL.ON (s.get VS_CONN_CFG.LS_NEG c) = 0 ∧ t.get LSW_CH_STAT.STATE (s.get VS_CONN_CFG.LS_NEG c) = 0 ∧ t.get
    VS_CONN_STAT.STATE c = 8) ∧
  (∀ (s : State) (c ms : Nat), s.vsRuns c → s.get VS_CONN_STAT.STATE c = 8 → s.minusOpen c → 50 ≤ ms → s.is VS_CONN_CFG.WELD_EN c = false → (s.conn
    c).ct = false → exec (.weldCheck c ms) s = .next (s.put VS_CONN_STAT.STATE 0xA c)) ∧
  (∀ (s : State) (c ms : Nat), s.vsRuns c → s.get VS_CONN_STAT.STATE c = 8 → s.minusOpen c → 50 ≤ ms → s.is VS_CONN_CFG.WELD_EN c = false → (s.conn c).ct → ∃ t, exec (.weldCheck c ms) s = .next t ∧ t.get VS_CONN_STAT.STATE c = 0xB ∧ t.get VS_CONN_STAT.FAULT_SEEN c = 1) ∧
  (∀ (s : State) (c ms : Nat), s.vsRuns c → s.get VS_CONN_STAT.STATE c = 8 → s.minusOpen c → 50 ≤ ms → s.is VS_CONN_CFG.WELD_EN c → s.feedRev c ≠ 0
    → s.get VS_CONN_STAT.PROX c ≠ 0 → ∃ t, exec (.weldCheck c ms) s = .next t ∧ t.get VS_CONN_STAT.STATE c = 9 ∧ t.conn c =
    { s.conn c with rTgt := 50 * s.feedV c, hi := s.iPre c, lo := -s.iPre c }) ∧
  (∀ (s : State) (c ms : Nat) (followed : Bool), s.vsRuns c → s.get VS_CONN_STAT.STATE c = 9 → 200 ≤ ms → followed = false → (s.conn c).ct = false →
    ∃ t, exec (.weldCheckComplete c ms followed) s = .next t ∧ t.get VS_CONN_STAT.STATE c = 0xA ∧ ((t.conn c).hi = 0 ∧ (t.conn c).lo = 0)) ∧
  (∀ (s : State) (c ms : Nat) (followed : Bool), s.vsRuns c → s.get VS_CONN_STAT.STATE c = 9 → 200 ≤ ms → followed → ∃ t, exec (.weldCheckComplete c
    ms followed) s = .next t ∧ t.get VS_CONN_STAT.STATE c = 0xB ∧ t.get VS_CONN_CNT.FAULTS c = min (s.get VS_CONN_CNT.FAULTS c + 1) (2 ^
    VS_CONN_CNT.FAULTS.w - 1) ∧ Logged s t [(0x0A09, 4, [c])]) ∧
  (∀ (s : State) (c ms : Nat), s.vsRuns c → s.get VS_CONN_STAT.STATE c = 0xA → s.get VS_CONN_STAT.PROX c = 0 → 1000 ≤ ms → ∃ t, exec (.unplug c ms) s
    = .next t ∧ t.get VS_CONN_STAT.STATE c = 0 ∧ (t.conn c).link = false ∧ (t.conn c).tls = false ∧ Logged s t [(0x0A02, 1, [c, s.get
    VS_CONN_STAT.END c])]) ∧
  (∀ (s : State) (sess c : Nat), s.writeStatus sess VS_CONN_CMD.STOP = 0 → s.vsRuns c → s.fastCause c = none → s.get VS_CONN_STAT.STATE c = 6 → ∃ t,
    exec (.stopCommand sess c) s = .next t ∧ t.get VS_CONN_STAT.STATE c = 7 ∧ t.get VS_CONN_STAT.END c = 2 ∧ t.get VS_CONN_STAT.FAST c = 0 ∧ t.conn
    c = { s.conn c with standby := false }) ∧
  (∀ (s : State) (sess c : Nat), s.writeStatus sess VS_CONN_CMD.CLR = 0 → s.vsRuns c → s.get VS_CONN_STAT.STATE c = 0xB → s.get VS_CONN_STAT.PROX c =
    0 → exec (.faultClear sess c) s = .next ((s.setConn c { s.conn c with link := false, tls := false }).put VS_CONN_STAT.STATE 0 c)) ∧
  (∀ (s : State) (a : La), s.laDue = some a → a.ep = 0x018 → a.op = 1 → byteAt a.body 0 = 1 → s.vsRuns 0 → s.fastCause 0 = none → s.get
    VS_CONN_STAT.STATE 0 = 6 → ∃ t, exec (.launchedStop) s = .next t ∧ t.get VS_CONN_STAT.STATE 0 = 7 ∧ t.get VS_CONN_STAT.END 0 = 0xC ∧ t.get
    VS_CONN_STAT.FAST 0 = 0 ∧ t.fab.la = s.fab.la.erase a) ∧
  (∀ (s : State) (c : Nat) (seqTimeout : Bool), s.vsRuns c → s.fastCause c = none → seqTimeout → s.get VS_CONN_STAT.STATE c = 2 → ∃ t, exec (.fastStop
    c seqTimeout) s = .next t ∧ t.get VS_CONN_STAT.STATE c = 0xA ∧ t.get VS_CONN_STAT.END c = 9 ∧ t.get VS_CONN_STAT.FAST c = 1 ∧ Logged s t
    [(0x0A0A, 3, [c, 9])]) ∧
  (∀ (s : State) (c : Nat) (seqTimeout : Bool), s.vsRuns c → s.get VS_CONN_STAT.IL c ≠ 1 → (3 ≤ s.get VS_CONN_STAT.STATE c ∧ s.get VS_CONN_STAT.STATE
    c ≤ 6) → ∃ t, exec (.fastStop c seqTimeout) s = .next t ∧ t.get VS_CONN_STAT.STATE c = 7 ∧ t.get VS_CONN_STAT.END c = 3 ∧ t.get
    VS_CONN_STAT.FAST c = 1 ∧ ((t.conn c).hi = 0 ∧ (t.conn c).lo = 0)) ∧
  (∀ (s : State) (c : Nat) (seqTimeout : Bool), s.vsRuns c → s.fastCause c = some 5 → (3 ≤ s.get VS_CONN_STAT.STATE c ∧ s.get VS_CONN_STAT.STATE c ≤
    6) → ∃ t, exec (.fastStop c seqTimeout) s = .next t ∧ t.get VS_CONN_STAT.STATE c = 7 ∧ t.get VS_CONN_STAT.END c = 5 ∧ Logged s t [(0x0A0B, 5,
    [c]), (0x0A0A, 3, [c, 5])]) ∧
  (∀ (s : State) (c : Nat), s.vsRuns c → s.get VS_CONN_FEED.FEED_NODE c ≠ 0 → (3 ≤ s.get VS_CONN_STAT.STATE c ∧ s.get VS_CONN_STAT.STATE c ≤ 6) → 4 ≤
    (s.conn c).age → ∃ t, exec (.feedLost c) s = .next t ∧ t.get VS_CONN_STAT.STATE c = 7 ∧ t.get VS_CONN_STAT.END c = 0xF ∧ ((t.conn c).hi = 0 ∧
    (t.conn c).lo = 0) ∧ Logged s t [(0x0A0C, 3, [c]), (0x0A0A, 3, [c, 0xF])]) ∧
  (∀ (s : State) (c r : Nat), s.vsRuns c → s.get CAN_BUF_CTRL.DIR (s.get VS_IMD_CFG.PORT c) (s.get VS_IMD_CFG.BUF c) = 1 → r < 2 ^ 16 → s.get
    VS_IMD_TH.R_WARN c ≤ r → s.get VS_IMD_TH.R_FAULT c ≤ r → exec (.imdUpdate c r) s = .next ((s.put VS_CONN_ISO.R_ISO r c).setConn c
    { s.conn c with iso := true, isoLate := false, isoGood := true })) ∧
  (∀ (s : State) (c r : Nat), s.vsRuns c → s.get CAN_BUF_CTRL.DIR (s.get VS_IMD_CFG.PORT c) (s.get VS_IMD_CFG.BUF c) = 1 → s.get VS_CONN_STAT.STATE
    c = 6 → r < s.get VS_IMD_TH.R_WARN c → r < s.get VS_IMD_TH.R_FAULT c → ∃ t, exec (.imdUpdate c r) s = .next t ∧ t.get VS_CONN_ISO.R_ISO c = r ∧
    t.get VS_CONN_STAT.IMD_WARN c = 1 ∧ t.get VS_CONN_STAT.STATE c = 7 ∧ t.get VS_CONN_STAT.END c = 5 ∧ Logged s t [(0x0A06, 3, [c, 0] ++ leBytes 2
    r), (0x0A0B, 5, [c]), (0x0A0A, 3, [c, 5])]) ∧
  (∀ (s : State) (c ms : Nat), s.vsRuns c → (3 ≤ s.get VS_CONN_STAT.STATE c ∧ s.get VS_CONN_STAT.STATE c ≤ 6) → 100 * s.get VS_IMD_CFG.IMD_TMO c ≤ ms
    → ∃ t, exec (.imdTimeout c ms) s = .next t ∧ t.get VS_CONN_STAT.STATE c = 7 ∧ t.get VS_CONN_STAT.END c = 5 ∧ Logged s t [(0x0A0B, 5, [c]),
    (0x0A0A, 3, [c, 5])]) ∧
  (∀ (s : State) (c ms : Nat), s.vsRuns c → s.get VS_CONN_STAT.STATE c = 4 → 1000 ≤ s.feedV c → s.vFollows c = false → 100 ≤ ms → ∃ t, exec
    (.contactorFault c ms) s = .next t ∧ t.get VS_CONN_STAT.STATE c = 7 ∧ t.get VS_CONN_STAT.END c = 6 ∧ (t.conn c).ct ∧ Logged s t [(0x0A07, 4, [c]),
    (0x0A0A, 3, [c, 6])]) ∧
  (∀ (s : State) (c : Nat) (closed : Bool) (ms : Nat), s.vsRuns c → (s.conn c).tls → (closed ∨ 100 ≤ ms) → s.get VS_CONN_STAT.STATE c = 2 → ∃ t, exec
    (.linkLost c closed ms) s = .next t ∧ (t.conn c).tls = false ∧ t.get VS_CONN_STAT.STATE c = 0xA ∧ t.get VS_CONN_STAT.END c = 8)

/-- Results of the vehicle's messages and of the frames between dispenser and cabinet: what each leaves, and that it completes. Chapters:
13_vehicle_sessions. Operands stand for what the module observes (log 5) and open values are free (log 6); where a clause rests on another choice
of the model, the log entries are 34, 46, 71, 93, 111, 117, 129, 138. -/
def Obligations.VehicleMessageResults : Prop :=
  (∀ (s : State) (c : Nat), s.vsRuns c → (s.conn c).tls → s.get VS_CONN_STAT.STATE c < 0xA → exec (.supportedAppProtocol c) s = .next ({ s with out := ⟨.v2g, c, [0, 0]⟩ :: s.out }))
    ∧
  (∀ (s : State) (c : Nat), s.vsRuns c → (s.conn c).tls → 0xA ≤ s.get VS_CONN_STAT.STATE c → exec (.supportedAppProtocol c) s = .next ({ s with out := ⟨.v2g, c, [0, 1]⟩ :: s.out }))
    ∧
  (∀ (s : State) (c sid : Nat), s.vsRuns c → (s.conn c).tls → s.get VS_CONN_STAT.STATE c < 0xA → ∃ t, exec (.sessionSetup c sid) s = .next t ∧ t.conn
    c = { s.conn c with sid := sid % 2 ^ 32 } ∧ t.out = ⟨.v2g, c, [1, 0] ++ leBytes 4 sid⟩ :: s.out ∧ t.regs = s.regs) ∧
  (∀ (s : State) (c : Nat), s.vsRuns c → (s.conn c).tls → s.get VS_CONN_STAT.STATE c < 0xA → exec (.authorizationSetup c) s = .next ({ s with out := ⟨.v2g, c, [2, 0, s.get VS_CONN_CFG.EIM_EN c, s.get VS_CONN_CFG.PNC_EN c]⟩ :: s.out }))
    ∧
  (∀ (s : State) (c : Nat) (pnc : Bool) (ident : List Nat) (chainOk : ChainObs), s.vsRuns c → (s.conn c).tls → s.get VS_CONN_STAT.STATE c = 2 →
    s.get VS_CONN_STAT.ID c = 0 → pnc = false → s.is VS_CONN_CFG.EIM_EN c → ∃ t, exec (.authorization c pnc ident chainOk) s = .next t ∧ t.get
    VS_CONN_STAT.ID c = 1 ∧ ((List.range 8).all fun k => t.get VS_CONN_ID.ID c k == bytesAt ident (4 * k) 4) ∧ t.out = ⟨.v2g, c, [3, 0, 1]⟩ :: s.out ∧
    Logged s t [(0x0A04, 2, [c, 0])]) ∧
  (∀ (s : State) (c : Nat) (pnc : Bool) (ident : List Nat) (chainOk : ChainObs), s.vsRuns c → (s.conn c).tls → s.get VS_CONN_STAT.STATE c = 2 →
    s.get VS_CONN_STAT.ID c ≠ 0 → exec (.authorization c pnc ident chainOk) s = .next
    ({ s with out := ⟨.v2g, c, [3, 0, if s.get VS_CONN_AUTH.AUTH c = 1 then 0 else 1]⟩ :: s.out })) ∧
  (∀ (s : State) (c : Nat), s.vsRuns c → (s.conn c).tls → s.get VS_CONN_STAT.STATE c < 0xA → exec (.serviceDiscovery c) s = .next ({ s with out := ⟨.v2g, c, [4, 0] ++ (if s.is VS_CONN_CFG.BPT_EN c then [0, 1] else [0])⟩ :: s.out }))
    ∧
  (∀ (s : State) (c : Nat), s.vsRuns c → (s.conn c).tls → s.get VS_CONN_STAT.STATE c < 0xA → exec (.serviceDetail c) s = .next ({ s with out := ⟨.v2g, c, [5, 0] ++ (if s.is VS_CONN_CFG.DYN_EN c then [1, 2] else [1])⟩ :: s.out }))
    ∧
  (∀ (s : State) (c service mode : Nat), s.vsRuns c → (s.conn c).tls → s.get VS_CONN_STAT.STATE c < 0xA → (service = 0 ∨ service = 1 ∧ s.is
    VS_CONN_CFG.BPT_EN c) → (mode = 1 ∨ mode = 2 ∧ s.is VS_CONN_CFG.DYN_EN c) → ∃ t, exec (.serviceSelection c service mode) s = .next t ∧ (t.conn
    c).service = service ∧ t.get VS_CONN_STAT.MODE c = mode ∧ t.out = ⟨.v2g, c, [6, 0]⟩ :: s.out) ∧
  (∀ (s : State) (c vMax vMin iMax pMax : Nat) (iDisMax : EvDis), s.vsRuns c → (s.conn c).tls → s.get VS_CONN_STAT.STATE c < 6 → ∃ t, exec
    (.dcChargeParameterDiscovery c vMax vMin iMax pMax iDisMax) s = .next t ∧ t.conn c =
    { s.conn c with vMax := vMax, vMin := vMin, iMax := iMax, pMax := pMax, iDisMax := iDisMax.i, pDisMax := iDisMax.p } ∧ t.get VS_CONN_OFFER.I_OFF c
    = s.iOff c % 2 ^ VS_CONN_OFFER.I_OFF.w ∧ t.out = ⟨.v2g, c, [7, 0, t.get VS_CONN_OFFER.I_OFF c, t.get VS_CONN_OFFER.P_OFF c, s.get
    VS_CONN_RATING.V_CONN_MAX c, s.get VS_CONN_STAT.IMD_WARN c]⟩ :: s.out) ∧
  (∀ (s : State) (c : Nat), s.vsRuns c → (s.conn c).tls → s.get VS_CONN_STAT.STATE c < 6 → ∃ t, exec (.scheduleExchange c) s = .next t ∧ t.get
    VS_CONN_ALLOW.I_ENF c = s.iEnf c % 2 ^ VS_CONN_ALLOW.I_ENF.w ∧ t.get VS_CONN_OFFER.I_OFF c = s.iOff c % 2 ^ VS_CONN_OFFER.I_OFF.w ∧ t.get
    VS_CONN_OFFER.P_OFF c = min (s.pOff c) (2 ^ VS_CONN_OFFER.P_OFF.w - 1) ∧ t.out = ⟨.v2g, c, [8, 0, t.get VS_CONN_OFFER.I_OFF c, t.get
    VS_CONN_OFFER.P_OFF c, s.get VS_CONN_RATING.V_CONN_MAX c, s.get VS_CONN_STAT.IMD_WARN c]⟩ :: s.out) ∧
  (∀ (s : State) (c v : Nat), s.vsRuns c → (s.conn c).tls → ((s.get VS_CONN_STAT.STATE c = 4 ∧ (s.conn c).ccDone) ∨ s.get VS_CONN_STAT.STATE c = 5)
    → ∃ t, exec (.dcPreCharge c v) s = .next t ∧ t.get VS_CONN_STAT.STATE c = 5 ∧ t.get VS_CONN_EV.V_EV c = v % 2 ^ VS_CONN_EV.V_EV.w ∧ t.conn c =
    { s.conn c with vTarget := v, rTgt := 1000 * v, hi := s.iPre c, lo := -s.iPre c } ∧ t.out = ⟨.v2g, c, [10, 0, s.connV c]⟩ :: s.out) ∧
  (∀ (s : State) (c : Nat), s.vsRuns c → (s.conn c).tls → s.get VS_CONN_STAT.STATE c = 5 → s.fastCause c = none → s.legalPts.contains (s.connPt c) =
    false → ∃ t, exec (.powerDeliveryStart c) s = .next t ∧ t.get VS_CONN_STAT.STATE c = 6 ∧ t.conn c =
    { s.conn c with bill := true, standby := false, dir := false, viaZero := false } ∧ t.get VS_CONN_CNT.SESS c = min (s.get VS_CONN_CNT.SESS c + 1)
    (2 ^ VS_CONN_CNT.SESS.w - 1) ∧ t.out = ⟨.v2g, c, [11, 0]⟩ :: s.out ∧ (Logged s t [(0x0A03, 2, [c, if s.get VS_CONN_STAT.MODE c = 2 then 1 else 0,
    (s.conn c).service])])) ∧
  (∀ (s : State) (c : Nat), s.vsRuns c → (s.conn c).tls → s.get VS_CONN_STAT.STATE c = 5 → s.fastCause c = none → s.legalPts.contains (s.connPt c) →
    s.bil.opn = [] → s.bil.sess.length < 2048 → 8192 ≤ s.evr.mor.length → ∃ t, exec (.powerDeliveryStart c) s = .next t ∧ t.get VS_CONN_STAT.STATE c =
    7 ∧ t.get VS_CONN_STAT.END c = 0xB ∧ t.get VS_CONN_STAT.FAST c = 0 ∧ t.out = ⟨.v2g, c, [11, 1]⟩ :: s.out) ∧
  (∀ (s : State) (c : Nat), s.vsRuns c → (s.conn c).tls → s.get VS_CONN_STAT.STATE c = 6 → (s.conn c).standby → ∃ t, exec (.powerDeliveryStart c) s
    = .next t ∧ t.conn c = { s.conn c with standby := false, viaZero := true } ∧ t.out = ⟨.v2g, c, [11, 0]⟩ :: s.out ∧ t.regs = s.regs) ∧
  (∀ (s : State) (c : Nat), s.vsRuns c → (s.conn c).tls → s.get VS_CONN_STAT.STATE c = 6 → s.fastCause c = none → ∃ t, exec (.powerDeliveryStop c) s =
    .next t ∧ t.get VS_CONN_STAT.STATE c = 7 ∧ t.get VS_CONN_STAT.END c = 1 ∧ t.get VS_CONN_STAT.FAST c = 0 ∧ t.conn c = { s.conn c with standby := false }
    ∧ t.out = ⟨.v2g, c, [11, 0]⟩ :: s.out) ∧
  (∀ (s : State) (c : Nat), s.vsRuns c → (s.conn c).tls → s.get VS_CONN_STAT.STATE c = 6 → ∃ t, exec (.standby c) s = .next t ∧ t.conn c = { s.conn c with standby := true }
    ∧ t.out = ⟨.v2g, c, [11, 0]⟩ :: s.out ∧ t.regs = s.regs) ∧
  (∀ (s : State) (c : Nat), s.vsRuns c → (s.conn c).tls → s.get VS_CONN_STAT.STATE c < 0xA → exec (.scheduleRenegotiation c) s = .next ({ s with out := ⟨.v2g, c, [11, if s.get VS_CONN_STAT.STATE c = 6 then 0 else 1]⟩ :: s.out }))
    ∧
  (∀ (s : State) (c v : Nat) (i : Int) (vMax vMin iMax pMax : Nat) (iDisMax : EvDis), s.vsRuns c → (s.conn c).tls → s.get VS_CONN_STAT.STATE c = 6 →
    s.get VS_CONN_STAT.MODE c ≠ 2 → i.natAbs < 2 ^ 15 → ∃ t, exec (.dcChargeLoop c v i vMax vMin iMax pMax iDisMax) s = .next t ∧ t.conn c =
    { s.conn c with vTarget := v, iTarget := i, vMax := vMax, vMin := vMin, iMax := iMax, pMax := pMax, iDisMax := iDisMax.i, pDisMax := iDisMax.p } ∧
    t.get VS_CONN_EV.V_EV c = v % 2 ^ VS_CONN_EV.V_EV.w ∧ t.geti VS_CONN_EV.I_EV c = i ∧ t.out = ⟨.v2g, c, [12, 0, t.get VS_CONN_OFFER.I_OFF c, t.get
    VS_CONN_OFFER.P_OFF c, s.get VS_CONN_RATING.V_CONN_MAX c, s.get VS_CONN_STAT.IMD_WARN c]⟩ :: s.out) ∧
  (∀ (s : State) (c : Nat), s.vsRuns c → (s.conn c).tls → s.get VS_CONN_STAT.STATE c < 0xA → exec (.dcWeldingDetection c) s = .next ({ s with out := ⟨.v2g, c, [13, 0, s.connV c]⟩ :: s.out }))
    ∧
  (∀ (s : State) (c : Nat), s.vsRuns c → (s.conn c).tls → s.get VS_CONN_STAT.STATE c = 2 → s.fastCause c = none → ∃ t, exec (.sessionStop c) s = .next
    t ∧ t.get VS_CONN_STAT.STATE c = 0xA ∧ t.get VS_CONN_STAT.END c = 1 ∧ t.out = ⟨.v2g, c, [14, 0]⟩ :: s.out) ∧
  (∀ (s : State) (c : Nat), s.vsRuns c → s.get VS_CONN_STAT.STATE c ≠ 6 → ∃ t, exec (.offerUpdate c) s = .next t ∧ t.get VS_CONN_ALLOW.I_ENF c =
    s.iEnf c % 2 ^ VS_CONN_ALLOW.I_ENF.w ∧ t.get VS_CONN_OFFER.I_OFF c = s.iOff c % 2 ^ VS_CONN_OFFER.I_OFF.w ∧ t.get VS_CONN_OFFER.P_OFF c = min
    (s.pOff c) (2 ^ VS_CONN_OFFER.P_OFF.w - 1) ∧ t.conn c = { s.conn c with enf := s.zoneEnforced c }) ∧
  (∀ (s : State) (c : Nat), s.vsRuns c → s.get VS_CONN_STAT.STATE c = 6 → s.get VS_CONN_STAT.DIR c = 0 → s.get VS_CONN_STAT.MODE c ≠ 2 → (s.conn
    c).standby = false → (s.conn c).dir = false → (s.conn c).viaZero = false → ∃ t, exec (.limitRampStep c) s = .next t ∧ t.conn c =
    { s.conn c with rTgt := 1000 * (s.conn c).vTarget, hi := moveTo (s.conn c).hi (1000 * max 0 (min (s.geti VS_CONN_EV.I_EV c) (s.iEnf c))) (s.get VS_CONN_SEQ.I_RAMP c), lo := moveTo (s.conn c).lo 0 (s.get VS_CONN_SEQ.I_RAMP c) }
    ∧ (s.get VS_CONN_FEED.FEED_NODE c = 0 → s.get VS_CONN_FEED.VLOOP c < 64 → t.fl LE_L_R_TGT.R_TGT (s.get VS_CONN_FEED.VLOOP c) = fOfRatio (1000 *
    (s.conn c).vTarget) 1000)) ∧
  (∀ (s : State) (c : Nat), s.vsRuns c → s.get VS_CONN_STAT.STATE c = 7 → ∃ t, exec (.limitRampStep c) s = .next t ∧ t.conn c = { s.conn c with hi := moveTo (s.conn c).hi 0 (s.get VS_CONN_SEQ.I_RAMP c), lo := moveTo (s.conn c).lo 0 (s.get VS_CONN_SEQ.I_RAMP c) })
    ∧
  (∀ (s : State) (c : Nat), s.vsRuns c → s.get VS_CONN_FEED.FEED_NODE c ≠ 0 → s.fab.hold = false → s.fab.ages.length < 4 → ∃ t, exec (.needFrame c)
    s = .next t ∧ ((t.out.head?.map fun p => (p.kind, p.dst, p.data.take 2)) = some (.need, s.get VS_CONN_FEED.FEED_NODE c * 2 ^ 11 + 0x20 + s.feedGrp
    c, [0x21, c])) ∧ (((t.out.head?.map fun p => (p.data.drop 4).take 2)) = some (leBytes 2 (min (ceilKw (s.connNeedW c)) 0xFFFF))) ∧ s.out <:+
    t.out.drop 1) ∧
  (∀ (s : State) (g : Nat) (c : NeedFrom) (flags need rTgt : Nat) (uMax uMin : Int) (rate : Nat), s.outGroup g → s.runs 6 → flags = 1 → s.is
    PE_GRP_CTRL.EN g → s.get PE_GRP_CTRL.LOOP g < 64 → ∃ t, exec (.needFrameReceive g c flags need rTgt uMax uMin rate) s = .next t ∧ t.needOf g =
    { fed := true, age := 0, need := need, conn := c.conn, node := c.node, run := needTransfers flags need uMax uMin } ∧ t.fl LE_L_R_TGT.R_TGT (s.get
    PE_GRP_CTRL.LOOP g) = fOfNat rTgt ∧ t.fl LE_L_U_MAX.U_MAX (s.get PE_GRP_CTRL.LOOP g) = fOfRatio (1000 * uMax) 1000 ∧ t.fl LE_L_U_MIN.U_MIN (s.get
    PE_GRP_CTRL.LOOP g) = fOfRatio (1000 * uMin) 1000 ∧ t.fl LE_L_RATE.RATE (s.get PE_GRP_CTRL.LOOP g) = fOfNat (1000 * rate) ∧ t.get PE_GRP_CTRL.EN g
    = 1) ∧
  (∀ (s : State) (g : Nat), s.outGroup g → (s.needOf g).fed → s.fab.hold = false → s.fab.ages.length < 4 → ∃ t, exec (.allowanceFrame g) s = .next t
    ∧ t.fab.ages = 0 :: s.fab.ages ∧ Sends s t ⟨.allowance, (s.needOf g).node * 2 ^ 11 + 0x28 + (s.needOf g).conn, [0x22, s.get PE_GRP_STAT.STATE g,
    s.get PE_GRP_LEASE.LAPSED g, s.get PE_GRP_LEASE.EXP_HC g] ++ leBytes 2 (s.grp g).pub.cap ++ leBytes 2 (min (s.pAllow g) 0xFFFF) ++ leBytes 2
    ((s.grp g).pub.v / 10) ++ leBytes 2 (ofSigned 16 (s.grp g).pub.i) ++ leBytes 2 (min (s.grp g).pub.rev 0xFFFF) ++ [0, 0]⟩) ∧
  (∀ (s : State) (c state : Nat) (lapsed : Bool) (exp cap p v : Nat) (i : Int) (rev : Nat), s.vsRuns c → s.get VS_CONN_FEED.FEED_NODE c ≠ 0 → s.get
    VS_CONN_STAT.STATE c < 2 → exec (.allowanceFrameReceive c state lapsed exp cap p v i rev) s = .next (s.setConn c { s.conn c with heard := true, age := 0, aState := state, aLapsed := lapsed, aExp := exp, aCap := cap, aP := p, aV := v, aI := i, aRev := rev }))
    ∧
  (∀ (s : State) (g : Nat), g < 8 → (s.needOf g).fed → 2 ≤ (s.needOf g).age → s.get PE_GRP_CTRL.LOOP g < 64 → s.get PE_GRP_CTRL.EN g = 0 → ∃ t, exec
    (.needFrameLoss g) s = .next t ∧ t.needOf g = { conn := (s.needOf g).conn } ∧ t.fl LE_L_U_MAX.U_MAX (s.get PE_GRP_CTRL.LOOP g) = 0#32 ∧ t.fl
    LE_L_U_MIN.U_MIN (s.get PE_GRP_CTRL.LOOP g) = 0#32 ∧ Logged s t [(0x0A0C, 3, [(s.needOf g).conn])])

/-- Results of Thermal's sensor and model commands: what each leaves, and that it completes. Chapters: 14_thermal_cable_cooling. Operands stand for
what the module observes (log 5) and open values are free (log 6); where a clause rests on another choice of the model, the log entries are 16, 17,
18, 19, 66. -/
def Obligations.ThermalSensorResults : Prop :=
  (∀ (s : State) (n mOhm : Nat) (v : Int), s.runs 10 → n < 48 → (s.get TH_TS_CFG.TYPE n = 1 ∨ s.get TH_TS_CFG.TYPE n = 2) → s.convert n mOhm = some v
    → v.natAbs < 2 ^ 15 → ∃ t, exec (.sensorSample n mOhm) s = .next t ∧ t.geti TH_TS_VAL.RAW n = v ∧ t.get TH_TS_RES.RES n = min (mOhm / 1000) (2 ^
    TH_TS_RES.RES.w - 1) ∧ (s.get TH_TS_STAT.STATE n = 0 → t.get TH_TS_STAT.STATE n = 1)) ∧
  (∀ (s : State) (n mOhm : Nat), s.runs 10 → n < 48 → (s.get TH_TS_CFG.TYPE n = 1 ∨ s.get TH_TS_CFG.TYPE n = 2) → s.convert n mOhm = none → s.get
    TH_TS_STAT.STATE n ≠ 0 → ∃ t, exec (.sensorSample n mOhm) s = .next t ∧ t.get TH_TS_RES.RES n = min (mOhm / 1000) (2 ^ TH_TS_RES.RES.w - 1) ∧
    t.get TH_TS_VAL.RAW n = s.get TH_TS_VAL.RAW n ∧ t.get TH_TS_STAT.STATE n = s.get TH_TS_STAT.STATE n ∧ t.th.last = s.th.last) ∧
  (∀ (s : State) (n mOhm : Nat) (v : Int), s.runs 10 → n < 48 → s.get TH_TS_CFG.TYPE n = 2 → s.get TH_TS_CFG.XGRP n = 31 → s.convert n mOhm = some v → v.natAbs < 2 ^ 15 → s.get TH_TS_STAT.STATE n = 1 → bit s.th.band n = false → s.snowLine n ≤ v → ∃ t, exec (.sensorSample n mOhm) s = .next t ∧ t.geti TH_TS_VAL.REP n = v ∧ bit t.th.band n ∧ t.get TH_TS_STAT.SNOW n = 1 ∧ Logged s t [(0x0B02, 1, [n, 1])]) ∧
  (∀ (s : State) (n k : Nat), s.runs 10 → n < 48 → s.tsOn n → 3 ≤ k → s.get TH_TS_STAT.STATE n ≠ 3 → ((s.tsGroup n).all fun m => bit s.th.band m) →
    ∃ t, exec (.sensorFailed n k) s = .next t ∧ t.get TH_TS_STAT.STATE n = 3 ∧ t.get TH_TS_STAT.FAIL_SEEN n = 1 ∧ t.get TH_TS_VAL.RAW n = s.get
    TH_TS_VAL.RAW n ∧ Logged s t [(0x0B04, 4, [n])]) ∧
  (∀ (s : State) (n secs : Nat), s.runs 10 → n < 48 → s.get TH_TS_STAT.STATE n = 3 → 10 ≤ secs → s.tableOk n → ((s.tsGroup n).all fun m => bit
    s.th.band m) → ∃ t, exec (.sensorRecover n secs) s = .next t ∧ t.get TH_TS_STAT.STATE n = 1 ∧ t.geti TH_TS_VAL.REP n = s.geti TH_TS_VAL.RAW n ∧
    t.get TH_TS_STAT.FAIL_SEEN n = s.get TH_TS_STAT.FAIL_SEEN n ∧ Logged s t [(0x0B05, 1, [n])]) ∧
  (∀ (s : State) (n k d : Nat), s.runs 10 → n < 48 → s.get TH_TS_STAT.STATE n = 1 → s.get TH_TS_CFG.XGRP n < 16 → max 1 (s.get TH_XGRP.NX (s.get
    TH_TS_CFG.XGRP n)) ≤ k → s.deviation n = some d → s.get TH_XGRP.TOL (s.get TH_TS_CFG.XGRP n) < d → (((s.xgroup n).filter fun m => s.tst m !=
    3).length ≠ 2) → ((s.tsGroup n).all fun m => bit s.th.band m) → ∃ t, exec (.sensorSuspect n k) s = .next t ∧ t.get TH_TS_STAT.STATE n = 2 ∧ t.get
    TH_TS_STAT.SUSP_SEEN n = 1 ∧ Logged s t [(0x0B03, 3, [n])]) ∧
  (∀ (s : State) (n secs : Nat), s.runs 10 → n < 48 → s.get TH_TS_STAT.STATE n = 2 → 10 ≤ secs → s.withinHalf n → ((s.tsGroup n).all fun m => bit
    s.th.band m) → ∃ t, exec (.suspectRecover n secs) s = .next t ∧ t.get TH_TS_STAT.STATE n = 1 ∧ t.geti TH_TS_VAL.REP n = s.geti TH_TS_VAL.RAW n ∧
    Logged s t [(0x0B05, 1, [n])]) ∧
  (∀ (s : State) (n k : Nat), s.runs 10 → n < 48 → bit s.th.band n → 1000 ≤ k → s.geti TH_TS_VAL.REP n < s.snowLine n - 10 → bit (s.get
    SYS_READY.RDY) 9 → (((s.xgroup n).all fun m => m == n || !bit s.th.band m)) → ∃ t, exec (.snowlineExit n k) s = .next t ∧ t.get TH_TS_STAT.SNOW n
    = 0 ∧ bit t.th.band n = false ∧ t.get TH_TS_VAL.REP n = s.get TH_TS_VAL.REP n ∧ Logged s t [(0x0B02, 1, [n, 0])]) ∧
  (∀ (s : State) (m k : Nat), s.runs 10 → m < 48 → s.get TH_TS_STAT.STATE m ≠ 0 → s.deb ≤ k → s.get TH_TS_STAT.WARN m = 0 → s.reaches m (s.memWarn
    m) → ∃ t, exec (.warnLimit m k) s = .next t ∧ t.get TH_TS_STAT.WARN m = 1 ∧ Logged s t [(0x0B01, 3, [m, 0] ++ leBytes 2 (ofSigned 16 (s.memVal
    m)))]) ∧
  (∀ (s : State) (m k : Nat), s.runs 10 → m = 0x41 → s.is TH_CM_CFG.EN 1 → s.deb ≤ k → bit s.th.cmWarn 1 → s.reaches m (s.memWarn m - 10) = false →
    ∃ t, exec (.warnLimit m k) s = .next t ∧ bit t.th.cmWarn 1 = false ∧ t.regs = s.regs) ∧
  (∀ (s : State) (m : Nat), s.runs 10 → m < 2 → s.is TH_CM_CFG.EN m → s.is MET_PT_STAT.VALID (s.get TH_CM_CFG.PT m) → s.coolLost m = false → s.cm =
    [(m, 0)] → s.get TH_CM_PAR2.RTH m = 0 → ∃ t, exec (.cableModelUpdate m) s = .next t ∧ t.get TH_CM_VAL.SUSPECT m = 0 ∧ t.cm = [(m, divNear
    (s.geti TH_TS_VAL.REP (s.get TH_CM_CFG.TCOOL m) * 10 ^ 8) (100 * max 1 (s.get TH_CM_PAR2.TAU m)))] ∧ sparseGet 0 m t.th.cmI = (s.geti MET_PT_I.I
    (s.get TH_CM_CFG.PT m)).natAbs) ∧
  (∀ (s : State) (m : Nat), s.runs 10 → m < 2 → s.is TH_CM_CFG.EN m → s.is MET_PT_STAT.VALID (s.get TH_CM_CFG.PT m) = false → s.get TH_CM_VAL.SUSPECT
    m = 0 → ∃ t, exec (.modelSuspect m) s = .next t ∧ t.get TH_CM_VAL.SUSPECT m = 1 ∧ t.get TH_CM_VAL.T m = s.get TH_CM_VAL.T m ∧ Logged s t
    [(0x0B0F, 3, [m])]) ∧
  (∀ (s : State) (i : Nat) (v : Int), s.runs 10 → 4 ≤ i → i < 16 → v.natAbs < 2 ^ 15 → s.get TH_INT_VAL.EXCL i = 0 → 1350 ≤ v → bit s.th.intWarn i =
    false → ∃ t, exec (.internalSensorSample i v) s = .next t ∧ t.geti TH_INT_VAL.T i = v ∧ bit t.th.intWarn i ∧ Logged s t [(0x0B0D, 3, [0x30 +
    i])]) ∧
  (∀ (s : State) (i : Nat) (v : Int), s.runs 10 → 4 ≤ i → i < 16 → v.natAbs < 2 ^ 15 → v < 1350 → ∃ t, exec (.internalSensorSample i v) s = .next t ∧
    t.geti TH_INT_VAL.T i = v ∧ bit t.th.intWarn i = false ∧ t.evr = s.evr) ∧
  (∀ (s : State) (i k : Nat), s.runs 10 → i < 16 → 3 ≤ k → (intLevels i).2 ≤ s.intRep i → s.get SAF_STAT.ACTIVE = 1 → ∃ t, exec
    (.internalOverTemperature i k) s = .next t ∧ bit (t.get SAF_SRC.SRC) 4 ∧ bit (t.get SAF_SRC.SRC_SEEN) 4 ∧ t.get TH_SD_CNT.SD_CNT = min (s.get
    TH_SD_CNT.SD_CNT + 1) (2 ^ TH_SD_CNT.SD_CNT.w - 1) ∧ ((t.sd.head?.map fun r => (r.sensor, byteAt r.bytes 12, byteAt r.bytes 13)) = some (0x30 + i,
    0xFF, 4)) ∧ Logged s t [(0x0B0E, 6, [0x30 + i])])

/-- Results of Thermal's zone and coolant circuit commands: what each leaves, and that it completes. Chapters: 14_thermal_cable_cooling. Operands
stand for what the module observes (log 5) and open values are free (log 6); where a clause rests on another choice of the model, the log entries
are 16, 17, 18, 19, 66, 130, 139. -/
def Obligations.ThermalZoneResults : Prop :=
  (∀ (s : State) (z m k : Nat), s.zoneOn z → s.get TH_ZONE_STAT.STATE z = 0 → (s.members z).contains m → s.deb ≤ k → s.reaches m (s.memThr m) →
    s.zoneHot z = false → ∃ t, exec (.zoneAsk z m k) s = .next t ∧ t.get TH_ZONE_STAT.STATE z = 1 ∧ t.get TH_ZONE_STAT.GRACE_LEFT z = clampN 1 100
    (s.get TH_CTRL.GRACE) ∧ t.get TH_ZONE_ALLOW.ALLOW z = min (s.allowance z) 0xFFFF ∧ Logged s t [(0x0B06, 3, [z, 0] ++ leBytes 2 (t.get
    TH_ZONE_ALLOW.ALLOW z))]) ∧
  (∀ (s : State) (z m k : Nat), s.zoneHot z → exec (.zoneAsk z m k) s = .next s) ∧
  (∀ (s : State) (z tw : Nat), s.zoneOn z → s.get TH_ZONE_STAT.STATE z = 1 → s.zoneHot z = false → s.zoneLeft z = false → clampN 1 100 (s.get
    TH_CTRL.GRACE) ≤ tw → s.get TH_ZONE_CFG.CONN z = 0 → ∃ t, exec (.zoneEnforce z tw) s = .next t ∧ t.get TH_ZONE_STAT.STATE z = 2 ∧ t.get
    TH_ZONE_STAT.GRACE_LEFT z = 0 ∧ t.get TH_ZONE_STAT.ENF_SEEN z = 1 ∧ t.get TH_ZONE_ALLOW.ALLOW z = min (s.allowance z) 0xFFFF ∧ Logged s t
    [(0x0B07, 3, [z, 0] ++ leBytes 2 (t.get TH_ZONE_ALLOW.ALLOW z))]) ∧
  (∀ (s : State) (z tw : Nat), s.zoneOn z → s.get TH_ZONE_STAT.STATE z = 1 → s.zoneHot z = false → s.zoneLeft z = false → tw < clampN 1 100 (s.get
    TH_CTRL.GRACE) → exec (.zoneEnforce z tw) s = .next (s.put TH_ZONE_STAT.GRACE_LEFT (clampN 1 100 (s.get TH_CTRL.GRACE) - tw) z)) ∧
  (∀ (s : State) (z tw : Nat), (s.zoneHot z ∨ s.zoneLeft z) → exec (.zoneEnforce z tw) s = .next s) ∧
  (∀ (s : State) (z m k : Nat), s.zoneOn z → s.get TH_ZONE_STAT.STATE z < 3 → (s.members z).contains m → s.deb ≤ k → s.reaches m (s.memShut m) →
    s.is TH_ZONE_CFG.SHUT_SO z = false → s.get TH_ZONE_CFG.CONN z = 0 → ∃ t, exec (.zoneShutdown z m k) s = .next t ∧ t.get TH_ZONE_STAT.STATE z = 3 ∧
    t.get TH_ZONE_STAT.SHUT_SEEN z = 1 ∧ t.get TH_ZONE_ALLOW.ALLOW z = 0 ∧ (s.is TH_ZONE_CFG.LATCH z → t.get TH_ZONE_STAT.LATCHED z = 1) ∧ t.get
    TH_SD_CNT.SD_CNT = min (s.get TH_SD_CNT.SD_CNT + 1) (2 ^ TH_SD_CNT.SD_CNT.w - 1) ∧ ((t.sd.head?.map fun r => (r.sensor, byteAt r.bytes 12, byteAt
    r.bytes 13)) = some (m, z, s.shutCause m)) ∧ Logged s t [(0x0B09, 5, [z, s.shutCause m])]) ∧
  (∀ (s : State) (z k : Nat), s.zoneOn z → (s.get TH_ZONE_STAT.STATE z = 1 ∨ s.get TH_ZONE_STAT.STATE z = 2) → s.deb ≤ k → s.zoneCool z → ∃ t, exec
    (.zoneRelease z k) s = .next t ∧ t.get TH_ZONE_STAT.STATE z = 0 ∧ t.get TH_ZONE_STAT.GRACE_LEFT z = 0 ∧ t.get TH_ZONE_ALLOW.ALLOW z = 0xFFFF ∧
    Logged s t [(0x0B08, 2, [z])]) ∧
  (∀ (s : State) (z secs : Nat), s.shutCool z secs → s.is TH_ZONE_CFG.LATCH z = false → ∃ t, exec (.shutdownRelease z secs) s = .next t ∧ t.get
    TH_ZONE_STAT.STATE z = 0 ∧ t.get TH_ZONE_STAT.LATCHED z = 0 ∧ t.get TH_ZONE_ALLOW.ALLOW z = 0xFFFF ∧ t.sd = sdRelease z s.rtc s.sd ∧ Logged s t
    [(0x0B0A, 2, [z])]) ∧
  (∀ (s : State) (sess z secs : Nat), s.writeStatus sess TH_ZONE_RST.CLR = 0 → s.shutCool z secs → ∃ t, exec (.zoneClr sess z secs) s = .next t ∧
    t.get TH_ZONE_STAT.STATE z = 0 ∧ t.get TH_ZONE_STAT.LATCHED z = 0 ∧ t.get TH_ZONE_ALLOW.ALLOW z = 0xFFFF ∧ t.sd = sdRelease z s.rtc s.sd ∧
    Logged s t [(0x0B0A, 2, [z])]) ∧
  (∀ (s : State) (sess z secs : Nat), s.writeStatus sess TH_ZONE_RST.CLR = 0 → s.shutCool z secs = false → exec (.zoneClr sess z secs) s = .next s) ∧
  (∀ (s : State) (sess z : Nat), z < 8 → s.writeStatus sess TH_ZONE_CFG.EN = 0 → s.zoneCfgOk z → ∃ t, exec (.zoneEnable sess z) s = .next t ∧ t.get
    TH_ZONE_CFG.EN z = 1 ∧ t.get TH_ZONE_CFG.CFG_ERR z = 0 ∧ t.get TH_ZONE_STAT.STATE z = s.get TH_ZONE_STAT.STATE z) ∧
  (∀ (s : State) (sess z : Nat), z < 8 → s.writeStatus sess TH_ZONE_CFG.EN = 0 → s.zoneCfgOk z = false → exec (.zoneEnable sess z) s = .next (s.put
    TH_ZONE_CFG.CFG_ERR 1 z)) ∧
  (∀ (s : State) (ms : Nat), s.runs 10 → 100 ≤ ms → bit (s.get SYS_READY.RDY) 9 = false → bit s.boot.block 9 = false → (((List.range 8).all fun z =>
    !s.is TH_ZONE_CFG.EN z)) → ∃ t, exec (.thermalRestart ms) s = .next t ∧ bit (t.get SYS_READY.RDY) 9 ∧ (t.get TH_STAT.ZONE_ENF = (List.range
    8).foldl (fun a z => if s.get TH_ZONE_STAT.STATE z = 2 then setBit a z else a) 0) ∧ (t.get TH_STAT.ZONE_SHUT = (List.range 8).foldl (fun a z =>
    if s.get TH_ZONE_STAT.STATE z = 3 then setBit a z else a) 0)) ∧
  (∀ (s : State) (k : Nat), s.circuitOn k → s.circuitWanted k → s.lswRuns → s.get TH_CC_CFG.PUMP_LS k < 16 → s.ownerOf (s.get TH_CC_CFG.PUMP_LS k) ≠
    0 → 16 ≤ s.get TH_CC_CFG.VALVE_LS k → s.get SAF_STAT.ACTIVE = 0 → s.get LSW_CH_STAT.STATE (s.get TH_CC_CFG.PUMP_LS k) = 0 → bit s.lsw.hot (s.get
    TH_CC_CFG.PUMP_LS k) = false → s.bankUnder (bankOf (s.get TH_CC_CFG.PUMP_LS k)) = false → ∃ t, exec (.circuitRun k) s = .next t ∧ t.get
    TH_CC_STAT.RUN k = 1 ∧ t.get LSW_CH_CTRL.ON (s.get TH_CC_CFG.PUMP_LS k) = 1 ∧ t.get LSW_CH_STAT.STATE (s.get TH_CC_CFG.PUMP_LS k) = 1) ∧
  (∀ (s : State) (k secs : Nat), s.circuitOn k → s.circuitWanted k = false → 10 * s.get TH_CC_FLOW.AFTER_T k ≤ secs → s.runs 10 → s.get SAF_STAT.FRZ
    = 0 → s.get TH_CC_CFG.PUMP_LS k < 16 → s.ownerOf (s.get TH_CC_CFG.PUMP_LS k) ≠ 0 → 16 ≤ s.get TH_CC_CFG.VALVE_LS k → s.is TH_CC_CFG.HEAT_FLOW k =
    false → s.get LSW_CH_STAT.STATE (s.get TH_CC_CFG.PUMP_LS k) ≠ 4 → ∃ t, exec (.circuitStop k secs) s = .next t ∧ t.get TH_CC_STAT.RUN k = 0 ∧ t.get
    LSW_CH_CTRL.ON (s.get TH_CC_CFG.PUMP_LS k) = 0 ∧ t.get LSW_CH_STAT.STATE (s.get TH_CC_CFG.PUMP_LS k) = 0) ∧
  (∀ (s : State) (f ms : Nat), s.runs 10 → f < 4 → 100 * s.get TH_FLOW_CFG.TMO f ≤ ms → exec (.flowTimeout f ms) s = .next ((s.put TH_FLOW_VAL.FLOW 0
    f).put TH_FLOW_VAL.VALID 0 f)) ∧
  (∀ (s : State) (k run low : Nat), s.circuitOn k → s.get TH_CC_STAT.RUN k = 1 → s.get TH_CC_STAT.FLOW_FLT k = 0 → s.flowLow k → s.get
    TH_CC_FLOW.FLOW_T k < run → s.get TH_CC_FLOW.FLOW_T k ≤ low → s.is TH_CC_CFG.FLOW_ACT k = false → s.is TH_CC_CFG.HEAT_FLOW k = false → ∃ t, exec
    (.flowFault k run low) s = .next t ∧ t.get TH_CC_STAT.FLOW_FLT k = 1 ∧ t.get TH_CC_STAT.FLOW_SEEN k = 1 ∧ t.get TH_CC_STAT.RUN k = 1 ∧ Logged s
    t [(0x0B0B, 4, [k])]) ∧
  (∀ (s : State) (k secs : Nat), s.circuitOn k → s.get TH_CC_STAT.FLOW_FLT k = 1 → s.flowLow k = false → 10 ≤ secs → ∃ t, exec (.flowRecovered k secs)
    s = .next t ∧ t.get TH_CC_STAT.FLOW_FLT k = 0 ∧ t.get TH_CC_STAT.FLOW_SEEN k = s.get TH_CC_STAT.FLOW_SEEN k ∧ Logged s t [(0x0B0C, 1, [k])]) ∧
  (∀ (s : State) (k : Nat), s.circuitOn k → s.tIn k < 10 * s.geti TH_CC_HEAT.HEAT_ON k → s.is TH_CC_CFG.HEAT_FLOW k = false → s.get
    TH_CC_CFG.HEAT_LS k < 16 → s.ownerOf (s.get TH_CC_CFG.HEAT_LS k) ≠ 0 → s.lswRuns → s.get SAF_STAT.ACTIVE = 0 → s.get LSW_CH_STAT.STATE (s.get
    TH_CC_CFG.HEAT_LS k) = 0 → bit s.lsw.hot (s.get TH_CC_CFG.HEAT_LS k) = false → s.bankUnder (bankOf (s.get TH_CC_CFG.HEAT_LS k)) = false → ∃ t,
    exec (.heaterOn k) s = .next t ∧ t.get TH_CC_STAT.HEAT k = 1 ∧ t.get LSW_CH_CTRL.ON (s.get TH_CC_CFG.HEAT_LS k) = 1 ∧ t.get LSW_CH_STAT.STATE
    (s.get TH_CC_CFG.HEAT_LS k) = 1) ∧
  (∀ (s : State) (k : Nat), s.circuitOn k → 10 * s.geti TH_CC_HEAT.HEAT_OFF k ≤ s.tIn k → s.runs 10 → s.get SAF_STAT.FRZ = 0 → s.get
    TH_CC_CFG.HEAT_LS k < 16 → s.ownerOf (s.get TH_CC_CFG.HEAT_LS k) ≠ 0 → s.get LSW_CH_STAT.STATE (s.get TH_CC_CFG.HEAT_LS k) ≠ 4 → ∃ t, exec
    (.heaterOff k) s = .next t ∧ t.get TH_CC_STAT.HEAT k = 0 ∧ t.get LSW_CH_CTRL.ON (s.get TH_CC_CFG.HEAT_LS k) = 0 ∧ t.get LSW_CH_STAT.STATE (s.get
    TH_CC_CFG.HEAT_LS k) = 0)

/-- Results of the Cell Supervisor's commands: what each leaves, and that it completes. Chapters: 15_buffer_battery. Operands stand for what the
module observes (log 5) and open values are free (log 6); where a clause rests on another choice of the model, the log entries are 9, 47, 118,
140. -/
def Obligations.CellSupervisorResults : Prop :=
  (∀ (s : State), s.csOn → s.get CS_STAT.STATE = 0 → ∃ t, exec (.csWake) s = .next t ∧ t.get CS_STAT.STATE = 1 ∧ t.cs = {} ∧ t.out = ⟨.ringWake, 1,
    [23, 1]⟩ :: ⟨.ringWake, 0, [7, 1]⟩ :: s.out ∧ Logged s t [(0x0C0E, 2, [])]) ∧
  (∀ (s : State) (ms na nb : Nat) (ser : List (Nat × Nat)), s.csOn → s.get CS_STAT.STATE = 1 → s.wakeMs ≤ ms → (1 ≤ na ∧ na ≤ 64) → ser = [] → ∃ t,
    exec (.discovery ms true na nb ser) s = .next t ∧ t.get CS_STAT.STATE = 3 ∧ t.get CS_STAT.N = na ∧ t.get CS_STAT.BROKEN = 0 ∧ t.get
    CS_STAT.BRK_AT = 0x7F ∧ t.get CS_STAT.H_A = (na + 1) / 2 ∧ t.cs.size = na ∧ t.cs.sweeping ∧ ((List.range 64).all fun i => t.get
    CS_UNIT_STAT.STATE i == (if i < na then 1 else 0))) ∧
  (∀ (s : State) (ms na nb : Nat) (ser : List (Nat × Nat)), s.csOn → s.get CS_STAT.STATE = 2 → na + nb = s.nCfg → 1 ≤ s.nCfg → ser = [] → ∃ t, exec
    (.discovery ms false na nb ser) s = .next t ∧ t.get CS_STAT.STATE = 3 ∧ t.get CS_STAT.N = s.nCfg ∧ t.get CS_STAT.BROKEN = 1 ∧ t.get
    CS_STAT.BRK_AT = na ∧ t.get CS_STAT.H_A = na ∧ t.cs.size = s.nCfg) ∧
  (∀ (s : State) (na nb : Nat) (ser : List (Nat × Nat)), s.csOn → s.get CS_STAT.STATE = 2 → na + nb < s.nCfg → s.cs.attempts < 2 → ∃ t, exec
    (.discoveryAttemptEnd na nb ser) s = .next t ∧ t.get CS_STAT.STATE = 1 ∧ t.cs = { s.cs with attempts := s.cs.attempts + 1 } ∧ t.out = ⟨.ringWake,
    1, [23, s.cs.attempts + 2]⟩ :: ⟨.ringWake, 0, [7, s.cs.attempts + 2]⟩ :: s.out) ∧
  (∀ (s : State) (na nb : Nat) (ser : List (Nat × Nat)), s.csOn → s.get CS_STAT.STATE = 2 → s.cs.attempts = 2 → s.nCfg = 2 → na = 1 → nb = 0 → ser =
    [] → ∃ t, exec (.discoveryAttemptEnd na nb ser) s = .next t ∧ t.get CS_STAT.STATE = 3 ∧ t.get CS_STAT.N = 1 ∧ t.get CS_UNIT_STAT.STATE 0 = 1 ∧
    t.get CS_UNIT_STAT.STATE 1 = 3 ∧ t.get CS_UNIT_STAT.LOST_SEEN 1 = 1 ∧ t.get CS_SEEN.LOST_SEEN = 1) ∧
  (∀ (s : State), s.csOn → s.get CS_STAT.STATE = 3 → s.cs.sweeping → s.launchedStart = none → s.nextSnap ≤ s.stamp + s.tenthMsAu s.snapDly → s.get
    CS_STAT.BROKEN = 0 → s.cs.busy = false → s.cs.endAt + s.tenthMsAu 260 ≤ s.stamp → ∃ t, exec (.sweepSync) s = .next t ∧ t.cs.busy ∧ t.cs.cur =
    s.nextSnap ∧ t.cs.snap = some s.nextSnap ∧ t.cs.num = (s.cs.num + 1) % 256 ∧ t.cs.live = t.cs.num ∧ t.cs.recs = [] ∧ t.cs.syncAt = s.stamp ∧
    ((t.out.take 2).map (fun p => p.kind) = [.ringSync, .ringSync])) ∧
  (∀ (s : State), s.csOn → s.get CS_STAT.STATE = 3 → s.cs.sweeping → s.launchedStart = none → s.nextSnap ≤ s.stamp + s.tenthMsAu s.snapDly → s.get
    CS_STAT.BROKEN = 0 → s.cs.busy → ∃ t, exec (.sweepSync) s = .next t ∧ t.cs = { s.cs with snap := some s.nextSnap, num := (s.cs.num + 1) % 256, since := 0 }
    ∧ t.get CS_CNT0.SKIPPED = min (s.get CS_CNT0.SKIPPED + 1) (2 ^ CS_CNT0.SKIPPED.w - 1) ∧ t.get CS_SEEN.SKIP_SEEN = 1 ∧ t.out = s.out ∧ Logged s t
    [(0x0C05, 3, [0, 0, (s.cs.num + 1) % 256])]) ∧
  (∀ (s : State) (ms : Nat), s.csOn → s.get CS_STAT.STATE = 3 → s.cs.sweeping = false → s.cs.busy = false → 250 ≤ ms → ∃ t, exec (.keepaliveSync ms)
    s = .next t ∧ t.cs = { s.cs with syncAt := s.stamp } ∧ ((t.out.take 2).map (fun p => (p.kind, p.data.take 1)) = [(.ringKeepalive, [17]),
    (.ringKeepalive, [1])]) ∧ t.get CS_PER.PER_ACT = min 255 s.perAct ∧ t.get CS_PER.T_SWEEP = s.tSweep % 2 ^ CS_PER.T_SWEEP.w) ∧
  (∀ (s : State) (dir p sweep status : Nat) (cells : List Nat) (t0 t1 : Int) (mask seq : Nat), s.csOn → s.cs.busy → sweep = s.cs.live → dir = 0 → 1
    ≤ p → p ≤ s.cs.size → s.cs.recs = [] → s.cs.sent = [] → s.get CS_STAT.STATE = 3 → ∃ t, exec (.recordReceive dir p sweep status cells t0 t1 mask
    seq) s = .next t ∧ (t.cs = { s.cs with recs := [(p, ⟨status, (List.range 16).map (fun c => cells.getD c 0xFFFF % 65536), t0, t1, mask, seq⟩)] }) ∧
    t.regs = s.regs) ∧
  (∀ (s : State) (dir p sweep status : Nat) (cells : List Nat) (t0 t1 : Int) (mask seq : Nat), s.csOn → s.cs.busy → sweep = s.cs.live → dir = 1 → p
    = 1 → s.cs.size = 64 → s.cs.sent = [⟨64, 1, 1, seq⟩] → ∃ t, exec (.recordReceive dir p sweep status cells t0 t1 mask seq) s = .next t ∧ t.get
    CS_UNIT_BAL.PEND 63 = 0) ∧
  (∀ (s : State), s.csOn → s.get CS_STAT.STATE = 3 → s.cs.busy → ((s.units.all fun u => (s.recOf u).isSome)) → s.cs.cur < 2 ^ 64 → s.cs.curI = none
    → ∃ t, exec (.collectionEnd) s = .next t ∧ t.get CS_SWEEP.SWEEP = s.cs.live % 256 ∧ t.get2 CS_SWEEP_STAMP_LO.STAMP CS_SWEEP_STAMP_HI.STAMP =
    s.cs.cur ∧ t.get CS_SWEEP.I_VALID = 0 ∧ t.get CS_SWEEP_I.I = 0x80000000 ∧ t.get CS_CNT0.SWEEPS = min (s.get CS_CNT0.SWEEPS + 1) (2 ^
    CS_CNT0.SWEEPS.w - 1) ∧ t.cs.busy = false ∧ t.cs.tail = none ∧ t.cs.endAt = s.stamp) ∧
  (∀ (s : State), s.csOn → s.get CS_STAT.STATE = 3 → s.cs.busy → s.cs.size = 2 → s.cs.found = 6 → s.get CS_STAT.H_A = 2 → (((s.recOf 1).map fun r =>
    r.status) = some 1) → s.recOf 2 = none → ∃ t, exec (.collectionEnd) s = .next t ∧ t.cs.tail = some 0 ∧ t.cs.busy ∧ t.cs.endAt = s.stamp ∧ t.get
    CS_CNT1.MISSING = min (s.get CS_CNT1.MISSING + 1) (2 ^ CS_CNT1.MISSING.w - 1) ∧ Logged s t [(0x0C04, 3, [0, 0, s.cs.live, 1])]) ∧
  (∀ (s : State), s.csOn → s.get CS_STAT.STATE = 3 → s.cs.busy → s.cs.tail = some 0 → ∃ t, exec (.recollect) s = .next t ∧ t.get CS_STAT.STATE = 4 ∧
    t.get CS_CNT1.RECOLL = min (s.get CS_CNT1.RECOLL + 1) (2 ^ CS_CNT1.RECOLL.w - 1) ∧ t.cs = { s.cs with again := 0 } ∧ t.out = ⟨.ringRecollect, 1,
    [19, 0, s.cs.size, s.get CS_STAT.H_A, s.cs.live, 1, s.get CS_STAT.H_A, 0, 0]⟩ :: s.out) ∧
  (∀ (s : State), s.csOn → s.get CS_STAT.STATE = 4 → s.cs.tail = some 0 → s.get CS_STAT.H_A = 2 → bit s.cs.again 1 → bit s.cs.again 2 = false → ∃ t,
    exec (.recollectEnd) s = .next t ∧ t.get CS_STAT.STATE = 3 ∧ t.get CS_STAT.BROKEN = 1 ∧ t.get CS_STAT.BRK_AT = 2 ∧ t.get CS_STAT.H_A = 2 ∧ t.get
    CS_SEEN.BRK_SEEN = 1 ∧ t.cs.busy = false ∧ t.cs.tail = none ∧ t.get CS_CNT0.SWEEPS = min (s.get CS_CNT0.SWEEPS + 1) (2 ^ CS_CNT0.SWEEPS.w - 1))
    ∧
  (∀ (s : State) (reached : Bool), s.csOn → s.get CS_STAT.STATE = 3 → s.get CS_STAT.BROKEN = 1 → s.ringBusy = false → s.cs.sweeping → s.nextSnap ≤
    s.stamp + s.tenthMsAu s.snapDly → 39 ≤ s.cs.since → reached → ∃ t, exec (.healProbe reached) s = .next t ∧ t.get CS_STAT.BROKEN = 0 ∧ t.get
    CS_STAT.BRK_AT = 0x7F ∧ t.get CS_STAT.H_A = (s.cs.size + 1) / 2 % 2 ^ CS_STAT.H_A.w ∧ t.cs.since = 0 ∧ t.cs.num = (s.cs.num + 1) % 256 ∧
    t.cs.found = 2 ^ (s.cs.size + 1) - 2 ∧ t.get CS_STAT.N = s.cs.size % 2 ^ CS_STAT.N.w ∧ t.out = ⟨.ringDiscovery, 0, [5, 0, 1]⟩ :: s.out) ∧
  (∀ (s : State) (sess i : Nat), i < 64 → s.writeStatus sess CS_UNIT_BAL.SEND = 0 → s.get CS_CTRL.BAL_AUTO = 0 → ∃ t, exec (.orderSend sess i) s =
    .next t ∧ t.get CS_UNIT_BAL.PEND i = 1 ∧ t.cs.seq = (s.cs.seq + 1) % 256 ∧ (t.cs.orders = s.cs.orders.filter (fun x => x.u != i + 1) ++ [⟨i + 1,
    s.get CS_UNIT_BAL.MASK i, min (s.get CS_UNIT_BAL.DUR i) 60, (s.cs.seq + 1) % 256⟩])) ∧
  (∀ (s : State) (sess i : Nat), s.writeStatus sess CS_UNIT_BAL.SEND = 0 → s.get CS_CTRL.BAL_AUTO = 1 → exec (.orderSend sess i) s = .next s) ∧
  (∀ (s : State) (a : La), s.laDue = some a → a.ep = 0x01A → a.op = 1 → ∃ t, exec (.sweepStart) s = .next t ∧ t.get CS_CTRL.PER_HC = min 255 (bytesAt
    a.body 0 2) ∧ t.get CS_SNAP_OFS.SNAP_OFS = a.target % 2 ^ 23 ∧ t.cs = { s.cs with sweeping := true, snap := some a.target } ∧ t.fab.la =
    s.fab.la.erase a) ∧
  (∀ (s : State) (a : La), s.laDue = some a → a.ep = 0x01A → a.op = 2 → ∃ t, exec (.sweepStop) s = .next t ∧ t.cs = { s.cs with sweeping := false } ∧
    t.fab.la = s.fab.la.erase a) ∧
  (∀ (s : State) (src k : Nat), k < 1024 → s.populated (0x100 + k) → exec (.cellQuery src k) s = .next ({ s with out := ⟨.cellAnswer, src, leBytes 2 ((s.word (CS_CELL.V.at k 0)).toNat % 65536) ++ [(s.word (CS_CELL.V.at k 0)).toNat / 65536 % 256, s.get CS_SWEEP.SWEEP] ++ leBytes 8 (s.get2 CS_SWEEP_STAMP_LO.STAMP CS_SWEEP_STAMP_HI.STAMP) ++ leBytes 4 (s.get CS_SWEEP_I.I)⟩ :: s.out }))
    ∧
  (∀ (s : State), s.csOn → s.get CS_STAT.STATE = 3 → 1 ≤ s.cs.size → (((List.range s.cs.size).all fun i => decide (max 1 (s.get CS_CTRL.LOST_N) ≤
    s.get CS_UNIT_STAT.MISS_CNT i))) → ∃ t, exec (.ringLost) s = .next t ∧ t.get CS_STAT.STATE = 1 ∧ t.cs = s.cs.anew ∧ t.out = ⟨.ringWake, 1, [23,
    1]⟩ :: ⟨.ringWake, 0, [7, 1]⟩ :: s.out) ∧
  (∀ (s : State), s.get CS_STAT.STATE ≠ 0 → s.get CS_CTRL.EN = 0 → exec (.csDisable) s = .next ({ s with cs := s.cs.anew }.put CS_STAT.STATE 0))

/-- Results of the load switches' commands: what each leaves, and that it completes. Chapters: 16_load_switches. Operands stand for what the
module observes (log 5) and open values are free (log 6); where a clause rests on another choice of the model, the log entries are 23, 47, 116,
131. -/
def Obligations.LoadSwitchResults : Prop :=
  (∀ (s : State) (sess n : Nat), n < 16 → s.writeStatus sess LSW_CH_CTRL.ON = 0 → s.ownerOf n = 2 → bit s.lsw.acted n = false → s.lswRuns → s.get
    LSW_CH_STAT.STATE n = 0 → s.get SAF_STAT.ACTIVE = 0 → bit s.lsw.hot n = false → s.bankUnder (bankOf n) = false → ∃ t, exec (.channelOn sess n) s =
    .next t ∧ t.get LSW_CH_CTRL.ON n = 1 ∧ t.get LSW_CH_STAT.STATE n = 1 ∧ bit (t.get LSW_STAT.OUT) n ∧ bit t.pins.ls n) ∧
  (∀ (s : State) (sess n : Nat), n < 16 → s.writeStatus sess LSW_CH_CTRL.ON = 0 → s.ownerOf n = 2 → bit s.lsw.acted n = false → s.lswRuns → s.get
    LSW_CH_STAT.STATE n = 0 → s.get SAF_STAT.ACTIVE = 0 → bit s.lsw.hot n = false → s.bankUnder (bankOf n) → ∃ t, exec (.channelOn sess n) s = .next t
    ∧ t.get LSW_CH_CTRL.ON n = 1 ∧ t.get LSW_CH_STAT.STATE n = 3 ∧ bit (t.get LSW_STAT.OUT) n = false) ∧
  (∀ (s : State) (sess n : Nat), n < 16 → s.writeStatus sess LSW_CH_CTRL.ON = 0 → s.ownerOf n = 2 → bit s.lsw.acted n = false → s.lswRuns → s.get
    LSW_CH_STAT.STATE n = 0 → s.get SAF_STAT.ACTIVE = 0 → bit s.lsw.hot n → exec (.channelOn sess n) s = .next (s.put LSW_CH_CTRL.ON 1 n)) ∧
  (∀ (s : State) (sess n : Nat), n < 16 → bit s.running 11 = false → exec (.channelOn sess n) s = .next
    ({ s with out := ⟨.status, sess, [4]⟩ :: s.out })) ∧
  (∀ (s : State) (sess n : Nat), n < 16 → s.writeStatus sess LSW_CH_CTRL.ON = 0 → s.ownerOf n ≠ 2 → exec (.channelOn sess n) s = .next ({ s with out := ⟨.status, sess, [2]⟩ :: s.out }))
    ∧
  (∀ (s : State) (sess n : Nat), n < 16 → s.writeStatus sess LSW_CH_CTRL.ON = 0 → s.ownerOf n = 2 → bit s.lsw.acted n = false → s.get
    LSW_CH_STAT.STATE n ≠ 4 → s.get SAF_STAT.FRZ = 0 → ∃ t, exec (.channelOff sess n) s = .next t ∧ t.get LSW_CH_CTRL.ON n = 0 ∧ t.get
    LSW_CH_STAT.STATE n = 0 ∧ bit (t.get LSW_STAT.OUT) n = false ∧ bit t.pins.ls n = false) ∧
  (∀ (s : State) (n onMs tw i : Nat), s.lswRuns → n < 16 → s.get LSW_CH_STAT.STATE n = 1 → s.get LSW_CH_CFG.T_BLANK n ≤ onMs → max 1 (s.get
    LSW_CH_CFG.T_TRIP n) ≤ min tw (10 * (onMs - s.get LSW_CH_CFG.T_BLANK n)) → 10 * clampN 5 80 (s.get LSW_CH_CFG.I_TRIP n) < i → s.shutComes n =
    false → s.get LSW_CH_CFG.OC_MODE n = 0 → s.ownerOf n ≠ 0 → s.isContactor n = false → ∃ t, exec (.overCurrentTrip n onMs tw i) s = .next t ∧ t.get
    LSW_CH_STAT.STATE n = 4 ∧ t.get LSW_CH_STAT.TRIP_SEEN n = 1 ∧ t.get LSW_CH_STAT.LATCH_SEEN n = 1 ∧ t.get LSW_CH_CTRL.ON n = 0 ∧ t.get
    LSW_CH_MEAS.I_MEAS n = min i (2 ^ LSW_CH_MEAS.I_MEAS.w - 1) ∧ t.get LSW_CH_CNT.TRIPS n = min (s.get LSW_CH_CNT.TRIPS n + 1) (2 ^
    LSW_CH_CNT.TRIPS.w - 1) ∧ Logged s t [(0x0D01, 3, [n, 0] ++ leBytes 2 (min (i / 10) 0xFFFF)), (0x0D04, 4, [n, 1])]) ∧
  (∀ (s : State) (n onMs tw i : Nat), s.lswRuns → n < 16 → s.get LSW_CH_STAT.STATE n = 1 → s.get LSW_CH_CFG.T_BLANK n ≤ onMs → max 1 (s.get
    LSW_CH_CFG.T_TRIP n) ≤ min tw (10 * (onMs - s.get LSW_CH_CFG.T_BLANK n)) → 10 * clampN 5 80 (s.get LSW_CH_CFG.I_TRIP n) < i → s.shutComes n =
    false → s.get LSW_CH_CFG.OC_MODE n = 1 → s.exhausted n = false → s.ownerOf n ≠ 0 → s.isContactor n = false → ∃ t, exec (.overCurrentTrip n onMs tw
    i) s = .next t ∧ t.get LSW_CH_STAT.STATE n = 2 ∧ t.get LSW_CH_STAT.TRIP_SEEN n = 1 ∧ t.get LSW_CH_CTRL.ON n = s.get LSW_CH_CTRL.ON n ∧ bit (t.get
    LSW_STAT.OUT) n = false ∧ Logged s t [(0x0D01, 3, [n, 0] ++ leBytes 2 (min (i / 10) 0xFFFF))]) ∧
  (∀ (s : State) (n : Nat) (tj : Int), n < 16 → 175 ≤ tj → s.get LSW_CH_STAT.STATE n = 1 → s.get LSW_CH_CFG.TH_LATCH n = 1 → s.ownerOf n ≠ 0 →
    s.isContactor n = false → ∃ t, exec (.thermalShutdown n tj) s = .next t ∧ t.get LSW_CH_STAT.STATE n = 4 ∧ t.get LSW_CH_STAT.TSD_SEEN n = 1 ∧ t.get
    LSW_CH_CTRL.ON n = 0 ∧ t.get LSW_CH_CNT.TSDS n = min (s.get LSW_CH_CNT.TSDS n + 1) (2 ^ LSW_CH_CNT.TSDS.w - 1) ∧ Logged s t [(0x0D02, 3, [n]),
    (0x0D04, 4, [n, 2])]) ∧
  (∀ (s : State) (n tw : Nat) (tj : Int), s.lswRuns → n < 16 → s.get LSW_CH_STAT.STATE n = 2 → max 1 (s.get LSW_CH_RST.RST_T n) ≤ tw → tj < 160 →
    s.shutComes n = false → s.bankLow (bankOf n) = false → ∃ t, exec (.automaticRestart n tw tj) s = .next t ∧ t.get LSW_CH_STAT.STATE n = 1 ∧ t.get
    LSW_CH_STAT.RST_CNT n = min (s.get LSW_CH_STAT.RST_CNT n + 1) (2 ^ LSW_CH_STAT.RST_CNT.w - 1) ∧ bit (t.get LSW_STAT.OUT) n ∧ bit t.pins.ls n ∧
    Logged s t [(0x0D03, 1, [n, t.get LSW_CH_STAT.RST_CNT n])]) ∧
  (∀ (s : State) (n secs : Nat), s.lswRuns → n < 16 → s.get LSW_CH_STAT.STATE n = 1 → max 1 (s.get LSW_CH_RST.RST_WIN n) ≤ secs → s.tripComes n =
    false → exec (.restartWindow n secs) s = .next (s.put LSW_CH_STAT.RST_CNT 0 n)) ∧
  (∀ (s : State) (b mv us : Nat), b = 1 → s.lswRuns → s.lswUsed → s.bankLow 1 = false → mv < 9000 → 50 ≤ us → ∃ t, exec (.bankUndervoltage b mv us)
    s = .next t ∧ t.get LSW_BANK.UV_B = 1 ∧ t.get LSW_BANK.UV_SEEN = 1 ∧ ((List.range 16).all fun n => t.get LSW_CH_STAT.STATE n == (if 8 ≤ n ∧ s.get
    LSW_CH_STAT.STATE n = 1 then 3 else s.get LSW_CH_STAT.STATE n)) ∧ Logged s t [(0x0D06, 3, [1, 1])]) ∧
  (∀ (s : State) (b mv : Nat), b = 0 → s.lswRuns → s.bankLow 0 → 9500 ≤ mv → ∃ t, exec (.bankUndervoltageExit b mv) s = .next t ∧ t.get
    LSW_BANK.UV_A = 0 ∧ t.get LSW_BANK.UV_SEEN = s.get LSW_BANK.UV_SEEN ∧ ((List.range 16).all fun n => t.get LSW_CH_STAT.STATE n == (if n < 8 ∧ s.get
    LSW_CH_STAT.STATE n = 3 ∧ bit s.lsw.hot n = false then 1 else s.get LSW_CH_STAT.STATE n)) ∧ Logged s t [(0x0D06, 3, [0, 0])]) ∧
  (∀ (s : State) (sess n : Nat) (tj : Int), n < 16 → s.writeStatus sess LSW_CH_CTRL.CLR = 0 → s.get LSW_CH_STAT.STATE n = 4 → -100 ≤ tj → tj < 160 → ∃
    t, exec (.latchClear sess n tj) s = .next t ∧ t.get LSW_CH_STAT.STATE n = 0 ∧ t.get LSW_CH_STAT.RST_CNT n = 0 ∧ bit (t.get LSW_STAT.LATCHED) n =
    false ∧ Logged s t [(0x0D05, 2, [n])]) ∧
  (∀ (s : State) (sess n : Nat) (tj : Int), n < 16 → s.writeStatus sess LSW_CH_CTRL.CLR = 0 → s.get LSW_CH_STAT.STATE n = 4 → 160 ≤ tj → ∃ t, exec
    (.latchClear sess n tj) s = .next t ∧ t.get LSW_CH_STAT.STATE n = 4 ∧ t.get LSW_STAT.LATCHED = s.get LSW_STAT.LATCHED ∧ t.evr = s.evr) ∧
  (∀ (s : State) (a : La), s.laDue = some a → a.ep = 0x01B → a.op = 1 → bit (bytesAt a.body 0 2) 15 → bit (bytesAt a.body 2 2) 15 = false → s.get
    LSW_CH_STAT.STATE 15 = 0 → s.lswRuns → s.get SAF_STAT.ACTIVE = 0 → bit s.lsw.hot 15 = false → s.bankUnder 1 = false → ∃ t, exec (.switchChannels)
    s = .next t ∧ t.get LSW_CH_CTRL.ON 15 = 1 ∧ t.get LSW_CH_STAT.STATE 15 = 1 ∧ (bit (bytesAt a.body 2 2) 0 → s.get LSW_CH_STAT.STATE 0 ≠ 4 → t.get
    LSW_CH_STAT.STATE 0 = 0) ∧ t.fab.la = s.fab.la.erase a) ∧
  (∀ (s : State) (n ms i : Nat), s.lswRuns → n < 16 → s.get LSW_CH_STAT.STATE n = 1 → s.get LSW_CH_CFG.OL_EN n = 1 → i < 5 → 100 ≤ ms → s.get
    LSW_CH_STAT.OL n = 0 → ∃ t, exec (.openLoad n ms i) s = .next t ∧ t.get LSW_CH_STAT.OL n = 1 ∧ t.get LSW_CH_MEAS.I_MEAS n = i ∧ Logged s t
    [(0x0D07, 3, [n])]) ∧
  (∀ (s : State) (n ms i : Nat), s.lswRuns → n < 16 → s.get LSW_CH_STAT.STATE n = 1 → s.get LSW_CH_CFG.OL_EN n = 1 → 5 ≤ i → ∃ t, exec (.openLoad n ms
    i) s = .next t ∧ t.get LSW_CH_STAT.OL n = 0 ∧ t.evr = s.evr)

/-- Results of the CAN ports' commands: what each leaves, and that it completes. Chapters: 17_can_fd. Operands stand for what the module observes
(log 5) and open values are free (log 6); where a clause rests on another choice of the model, the log entries are 48, 141. -/
def Obligations.CanResults : Prop :=
  (∀ (s : State) (p : Nat), p < 2 → s.runs 9 → s.get CAN_STAT.STATE p = 0 → s.get CAN_CTRL.EN p = 1 → exec (.canPortEnable p) s = .next (s.put
    CAN_STAT.STATE 1 p)) ∧
  (∀ (s : State) (sess p : Nat), p < 2 → s.writeStatus sess CAN_CTRL.INIT = 0 → s.canIn p 1 → s.timingOk p → ∃ t, exec (.canStart sess p) s = .next t
    ∧ t.get CAN_CTRL.INIT p = 0 ∧ t.get CAN_STAT.STATE p = 2 ∧ t.get CAN_STAT.TEC p = 0 ∧ t.get CAN_STAT.REC p = 0 ∧ t.get CAN_STAT.EPASS p = 0 ∧
    t.get CAN_STAT.CFG_ERR p = 0) ∧
  (∀ (s : State) (sess p : Nat), p < 2 → s.writeStatus sess CAN_CTRL.INIT = 0 → s.canIn p 1 → s.timingOk p = false → ∃ t, exec (.canStart sess p) s =
    .next t ∧ t.get CAN_CTRL.INIT p = 1 ∧ t.get CAN_STAT.CFG_ERR p = 1 ∧ t.get CAN_STAT.STATE p = 1 ∧ Logged s t [(0x0E07, 3, [p])]) ∧
  (∀ (s : State) (sess p : Nat), p < 2 → s.writeStatus sess CAN_CTRL.INIT = 0 → s.runs 9 → s.get CAN_STAT.STATE p ≠ 0 → ∃ t, exec (.canInit sess p) s
    = .next t ∧ t.get CAN_CTRL.INIT p = 1 ∧ t.get CAN_STAT.STATE p = 1 ∧ t.can = { s.can with held := clrBit s.can.held p }) ∧
  (∀ (s : State) (p n : Nat), s.canIn p 2 → 11 ≤ n → ∃ t, exec (.canSync p n) s = .next t ∧ t.get CAN_STAT.STATE p = 3 ∧ (s.txQueue p = [] → lookupKey
    p t.can.offer = none)) ∧
  (∀ (s : State) (p w0 w1 sof : Nat) (data : List Nat) (tec rec_ f : Nat), s.canIn p 3 → bit w1 4 = false → rxError w1 = 0 → (((List.range 32).find?
    fun q => s.filterTakes p q w0 w1) = some f) → s.get CAN_BUF_CTRL.LOCK p (s.get CAN_FLT_DST.BUF p f) = 0 → s.get CAN_BUF_CTRL.NEW p (s.get
    CAN_FLT_DST.BUF p f) = 0 → tec < 256 → rec_ < 128 → ∃ t, exec (.canFrameReceive p w0 w1 sof data tec rec_) s = .next t ∧ t.get CAN_BUF_CTRL.NEW p
    (s.get CAN_FLT_DST.BUF p f) = 1 ∧ t.mb p (s.get CAN_FLT_DST.BUF p f) 0 = w0 % 2 ^ 31 ∧ t.mb p (s.get CAN_FLT_DST.BUF p f) 1 = w1 % 128 + 256 * f ∧
    t.mb p (s.get CAN_FLT_DST.BUF p f) 2 = sof % 2 ^ 32 ∧ (4 ≤ frameLen w0 w1 → t.mb p (s.get CAN_FLT_DST.BUF p f) 3 = bytesAt data 0 4) ∧ t.get
    CAN_STAT.TEC p = tec ∧ t.get CAN_STAT.REC p = rec_) ∧
  (∀ (s : State) (p w0 w1 sof : Nat) (data : List Nat) (tec rec_ : Nat), s.canIn p 3 → bit w1 4 = false → rxError w1 = 0 → (((List.range 32).find?
    fun q => s.filterTakes p q w0 w1) = none) → ∃ t, exec (.canFrameReceive p w0 w1 sof data tec rec_) s = .next t ∧ t.get CAN_CNT.NOMATCH p = min
    (s.get CAN_CNT.NOMATCH p + 1) (2 ^ CAN_CNT.NOMATCH.w - 1)) ∧
  (∀ (s : State) (p w0 w1 sof : Nat) (data : List Nat) (tec rec_ : Nat), s.canIn p 3 →
    bit w1 4 = false → rxError w1 ≠ 0 → ∃ t, exec (.canFrameReceive p w0 w1 sof data tec rec_) s = .next t ∧ t.get CAN_STAT.LEC p = rxError w1 ∧ t.get
    CAN_CNT.NOMATCH p = s.get CAN_CNT.NOMATCH p) ∧
  (∀ (s : State) (p b : Nat), p < 2 → b < 64 → s.runs 9 → s.mbDir p b = 1 → s.lockOf p = none → exec (.bufferLock p b) s = .next (s.put
    CAN_BUF_CTRL.LOCK 1 p b)) ∧
  (∀ (s : State) (p b : Nat), p < 2 → b < 64 → s.runs 9 → s.mbDir p b = 1 → s.lockOf p = some b → lookupKey p s.can.hold = none → exec
    (.bufferReadComplete p b) s = .next ((s.put CAN_BUF_CTRL.NEW 0 p b).put CAN_BUF_CTRL.LOCK 0 p b)) ∧
  (∀ (s : State) (p us b : Nat), p < 2 → s.runs 9 → s.lockOf p = some b → 1000 ≤ us → lookupKey p s.can.hold = none → exec (.lockTimeout p us) s =
    .next ((s.put CAN_BUF_CTRL.TORN 1 p b).put CAN_BUF_CTRL.LOCK 0 p b)) ∧
  (∀ (s : State) (sess p b : Nat), p < 2 → s.writeStatus sess CAN_CTRL.UNLOCK = 0 → s.lockOf p = some b → lookupKey p s.can.hold = none → exec
    (.unlock sess p) s = .next (s.put CAN_BUF_CTRL.LOCK 0 p b)) ∧
  (∀ (s : State) (sess p b : Nat), p < 2 → b < 64 → s.writeStatus sess CAN_BUF_CTRL.TXREQ = 0 → s.mbDir p b = 2 → s.get CAN_CTRL.MODE p ≠ 1 → bit
    (s.mb p b 1) 4 = false → s.get CAN_STAT.STATE p = 3 → s.txQueue p = [] → lookupKey p s.can.offer = none → ∃ t, exec (.transmitRequest sess p b)
    s = .next t ∧ t.get CAN_BUF_CTRL.TXREQ p b = 1 ∧ lookupKey p t.can.offer = some b) ∧
  (∀ (s : State) (p delay sof tec rec_ b : Nat), s.canIn p 3 → lookupKey p s.can.offer = some b → b < 64 → s.tdcFrame p b = false → s.get
    CAN_CTRL.MODE p = 0 → tec < 256 → rec_ < 128 → ∃ t, exec (.transmitComplete p delay sof tec rec_) s = .next t ∧ t.get CAN_BUF_CTRL.TXREQ p b = 0
    ∧ t.get CAN_BUF_CTRL.TXOK p b = 1 ∧ t.get CAN_STAT.TEC p = tec ∧ t.get CAN_STAT.REC p = rec_ ∧ ((t.out.head?.map fun q => (q.kind, q.dst,
    q.data.take 2)) = some (.can, p, [s.mb p b 0, s.mb p b 1 % 128]))) ∧
  (∀ (s : State) (p lec : Nat) (delay : Option Nat) (tec rec_ b : Nat), s.canIn p 3 → lookupKey p s.can.offer = some b → b < 64 → s.tdcFrame p b =
    false → s.get CAN_BUF_CTRL.ONESHOT p b = 1 → (0 < lec ∧ lec < 7) → ∃ t, exec (.transmitFail p lec delay tec rec_) s = .next t ∧ t.get
    CAN_BUF_CTRL.TXREQ p b = 0 ∧ t.get CAN_BUF_CTRL.TXFAIL p b = 1 ∧ t.get CAN_STAT.LEC p = lec ∧ Logged s t [(0x0E06, 3, [p, b])]) ∧
  (∀ (s : State) (sess p b : Nat) (onBus : Bool), p < 2 → b < 64 → s.writeStatus sess CAN_BUF_CTRL.ABORT = 0 → s.get CAN_BUF_CTRL.TXREQ p b = 1 →
    lookupKey p s.can.offer ≠ some b → exec (.abort sess p b onBus) s = .next (s.put CAN_BUF_CTRL.TXREQ 0 p b)) ∧
  (∀ (s : State) (sess p b : Nat) (onBus : Bool), p < 2 → b < 64 → s.writeStatus sess CAN_BUF_CTRL.ABORT = 0 → s.get CAN_BUF_CTRL.TXREQ p b = 1 →
    lookupKey p s.can.offer = some b → onBus → exec (.abort sess p b onBus) s = .next ({ s with can := { s.can with aborts := (64 * p + b) :: s.can.aborts } }))
    ∧
  (∀ (s : State) (p tec lec : Nat), s.canIn p 3 → 255 < tec → s.get CAN_CTRL.BO_MAX p = 0 → ∃ t, exec (.busOff p tec lec) s = .next t ∧ t.get
    CAN_STAT.STATE p = 4 ∧ t.get CAN_STAT.EPASS p = 0 ∧ t.get CAN_STAT.LEC p = lec % 8 ∧ t.get CAN_CNT.BO_CNT p = min (s.get CAN_CNT.BO_CNT p + 1)
    (2 ^ CAN_CNT.BO_CNT.w - 1) ∧ lookupKey p t.can.offer = none ∧ Logged s t [(0x0E02, 4, [p])]) ∧
  (∀ (s : State) (p ms : Nat), s.canIn p 4 → s.get CAN_CTRL.BO_AUTO p = 1 → bit s.can.held p = false → s.get CAN_CTRL.BO_WAIT p ≤ ms → exec
    (.busOffWait p ms) s = .next (s.put CAN_STAT.STATE 5 p)) ∧
  (∀ (s : State) (sess p : Nat), p < 2 → s.writeStatus sess CAN_CTRL.RECOVER = 0 → s.canIn p 4 → exec (.recover sess p) s = .next ({ s.put CAN_STAT.STATE 5 p with can := { s.can with held := clrBit s.can.held p } }))
    ∧
  (∀ (s : State) (p n : Nat), s.canIn p 5 → 128 ≤ n → ∃ t, exec (.busOffRecovered p n) s = .next t ∧ t.get CAN_STAT.STATE p = 3 ∧ t.get CAN_STAT.TEC p
    = 0 ∧ t.get CAN_STAT.REC p = 0 ∧ t.get CAN_STAT.BO_RUN p = min (s.get CAN_STAT.BO_RUN p + 1) (2 ^ CAN_STAT.BO_RUN.w - 1) ∧ Logged s t [(0x0E03,
    2, [p, 0, t.get CAN_STAT.BO_RUN p])]) ∧
  (∀ (s : State) (p tec rec_ : Nat), s.canIn p 3 → (127 < tec ∨ 127 < rec_) → s.get CAN_STAT.EPASS p = 0 → ∃ t, exec (.errorPassive p tec rec_) s =
    .next t ∧ t.get CAN_STAT.EPASS p = 1 ∧ t.get CAN_STAT.TEC p = min tec 255 ∧ (127 < rec_ → t.get CAN_STAT.REC p = rec_ % 128 + 128) ∧ Logged s t
    [(0x0E01, 3, [p, 0, t.get CAN_STAT.TEC p, t.get CAN_STAT.REC p])]) ∧
  (∀ (s : State) (p tec rec_ : Nat), s.canIn p 3 → tec < 128 → rec_ < 128 → s.get CAN_STAT.EPASS p = 1 → ∃ t, exec (.errorActive p tec rec_) s = .next
    t ∧ t.get CAN_STAT.EPASS p = 0 ∧ t.get CAN_STAT.TEC p = tec ∧ t.get CAN_STAT.REC p = rec_ ∧ Logged s t [(0x0E08, 1, [p])]) ∧
  (∀ (s : State) (p ms : Nat), s.canIn p 3 → 10000 ≤ ms → exec (.boRunClear p ms) s = .next (s.put CAN_STAT.BO_RUN 0 p))

/-- Results of the Key Vault's commands: what each leaves, and that it completes. Chapters: 18_keys_identity. Operands stand for what the module
observes (log 5) and open values are free (log 6); where a clause rests on another choice of the model, the log entries are 20, 45, 49, 50, 51,
83, 126, 142. -/
def Obligations.VaultResults : Prop :=
  (∀ (s : State) (sess w : Nat), s.writeStatus sess KV_STAGE_DATA.DATA = 0 → (s.kv.owner = none ∨ s.kv.owner = some sess) → w < 2 ^ 32 → ∃ t, exec
    (.stageWrite sess w) s = .next t ∧ t.kv.owner = some sess ∧ sparseGet 0#32 (s.get KV_STAGE_ADDR.INDEX) t.kv.stage = BitVec.ofNat 32 w ∧ t.get
    KV_STAGE_ADDR.INDEX = (s.get KV_STAGE_ADDR.INDEX + 1) % 2 ^ KV_STAGE_ADDR.INDEX.w) ∧
  (∀ (s : State) (sess w : Nat), s.writeStatus sess KV_STAGE_DATA.DATA = 0 → s.kv.owner ≠ none → s.kv.owner ≠ some sess → exec (.stageWrite sess w) s
    = .next s) ∧
  (∀ (s : State) (ms : Nat), s.kv.owner ≠ none → 1000 ≤ ms → exec (.stageTimeout ms) s = .next ({ s with kv := { s.kv with stage := [], owner := none } }))
    ∧
  (∀ (s : State) (sess slot type use : Nat) (lockw mseal wrapOk : Bool) (plain : Option (List Nat)), s.writeStatus sess KV_CMD.GO = 0 → s.kvReady →
    (s.kv.owner = none ∨ s.kv.owner = some sess) → (6 ≤ slot ∧ slot < 64) → s.isSealed = false → (s.slot slot).used = false → (s.slot slot).lockw =
    false → type = 2 → use = 6 → s.get KV_STAGE_LEN.LEN = 32 → ∃ t, exec (.loadKey sess slot type use lockw mseal none wrapOk plain) s = .next t ∧
    t.slot slot = { type := 2, use := 6, lockw := lockw, mseal := mseal, key := some (s.stageBytes 32), wcnt := (s.slot slot).wcnt + 1 } ∧ t.get
    KV_CMD_STAT.RESULT = 1 ∧ t.get KV_CMD_STAT.BUSY = 0 ∧ t.kv.stage = [] ∧ t.kv.owner = none) ∧
  (∀ (s : State) (sess slot type use : Nat) (lockw mseal : Bool) (wrap : Option Nat) (wrapOk : Bool) (plain : Option (List Nat)), s.writeStatus sess
    KV_CMD.GO = 0 → s.kvReady → (s.kv.owner = none ∨ s.kv.owner = some sess) → slot < 5 → ∃ t, exec (.loadKey sess slot type use lockw mseal wrap
    wrapOk plain) s = .next t ∧ t.vault = s.vault ∧ t.get KV_CMD_STAT.RESULT = 3 ∧ Logged s t [(0x0F07, 3, [slot, 3])]) ∧
  (∀ (s : State) (sess slot : Nat) (parses same ca : Bool), s.writeStatus sess KV_CMD.GO = 0 → s.kvReady → (s.kv.owner = none ∨ s.kv.owner = some
    sess) → (6 ≤ slot ∧ slot < 64) → s.isSealed = false → (s.slot slot).used = false → (s.slot slot).lockw = false → (s.slot slot).mseal = false →
    (s.slot slot).bad = false → parses → ca → ∃ t, exec (.loadCertificate sess slot parses same ca) s = .next t ∧ t.slot slot = { type := 8, use := 16, cert := some (s.stageBytes (s.get KV_STAGE_LEN.LEN)), wcnt := (s.slot slot).wcnt + 1 }
    ∧ t.get KV_CMD_STAT.RESULT = 1 ∧ t.kv.owner = none) ∧
  (∀ (s : State) (sess slot type use : Nat) (lockw mseal : Bool), s.writeStatus sess KV_CMD.GO = 0 → s.kvReady → (s.kv.owner = none ∨ s.kv.owner =
    some sess) → (6 ≤ slot ∧ slot < 64) → s.isSealed = false → (s.slot slot).used = false → (s.slot slot).lockw = false → type = 2 → use = 2 → ∃ t,
    exec (.generate sess slot type use lockw mseal) s = .next t ∧ ((t.slot slot).type, (t.slot slot).use, (t.slot slot).lockw, (t.slot slot).mseal)
    = (2, 2, lockw, mseal) ∧ ((t.slot slot).key.map List.length) = some 32 ∧ (t.slot slot).wcnt = (s.slot slot).wcnt + 1 ∧ t.get KV_CMD_STAT.RESULT
    = 1 ∧ t.kv.owner = none) ∧
  (∀ (s : State) (sess slot : Nat), s.writeStatus sess KV_CMD.GO = 0 → s.kvReady → (s.kv.owner = none ∨ s.kv.owner = some sess) → (6 ≤ slot ∧ slot <
    64) → s.isSealed = false → ∃ t, exec (.erase sess slot) s = .next t ∧ t.slot slot = { wcnt := (s.slot slot).wcnt + 1 } ∧ t.get
    KV_CMD_STAT.RESULT = 1 ∧ t.kv.owner = none) ∧
  (∀ (s : State) (sess slot : Nat), s.writeStatus sess KV_CMD.GO = 0 → s.runs 11 → s.kv.owner ≠ none → s.kv.owner ≠ some sess → slot < 64 → ∃ t, exec
    (.erase sess slot) s = .next t ∧ t.vault = s.vault ∧ t.kv = s.kv ∧ t.get KV_CMD_STAT.RESULT = 2 ∧ Logged s t [(0x0F07, 3, [slot, 2])]) ∧
  (∀ (s : State) (sess : Nat) (parentOk : Bool) (k : List Nat) (p : Nat), s.writeStatus sess KV_CMD.GO = 0 → s.kvReady → (s.kv.owner = none ∨
    s.kv.owner = some sess) → parentOk → s.get KV_FIRN.PARENT = p → p < 64 → s.slot p = { type := 2, use := 6, key := some k } → s.get KV_FIRN.TYPE
    = 2 → s.get KV_FIRN.USE = 2 → s.get KV_FIRN.LABEL_LEN = 4 → ∃ t, exec (.derive sess parentOk) s = .next t ∧ t.get KV_CMD_STAT.RESULT = 1 ∧ t.get
    KV_WORK_ATTR.VALID (s.get KV_FIRN.TARGET) = 1 ∧ t.get KV_WORK_ATTR.TYPE (s.get KV_FIRN.TARGET) = 2 ∧ t.get KV_WORK_ATTR.DEPTH (s.get
    KV_FIRN.TARGET) = 1 ∧ t.get KV_WORK_ATTR.PARENT (s.get KV_FIRN.TARGET) = p ∧ lookupKey (s.get KV_FIRN.TARGET) t.kv.work = some (firnChild k 1 2
    2 (s.stageBytes 4)) ∧ t.vault = s.vault) ∧
  (∀ (s : State) (mv : Nat), s.runs 11 → s.get KV_STAT.RES_OK = 1 → mv < 4500 → ∃ t, exec (.reservoirLow mv) s = .next t ∧ t.get KV_STAT.RES_OK = 0 ∧
    Logged s t [(0x0F0A, 3, [])]) ∧
  (∀ (s : State) (mv : Nat), s.runs 11 → 4500 ≤ mv → exec (.reservoirRecharged mv) s = .next ((s.reservoir mv).put KV_STAT.RES_OK 1))

/-- Results of the Event Recorder's commands: what each leaves, and that it completes. Chapters: 19_event_logs. Operands stand for what the
module observes (log 5) and open values are free (log 6); where a clause rests on another choice of the model, the log entries are 52, 85, 119.
-/
def Obligations.EventRecorderResults : Prop :=
  (∀ (s : State) (r : Rec) (l : List Rec), s.evr.queue = r :: l → s.evr.dropped = 0 → s.evr.discNew = 0 → s.evr.op.length < 16384 → ∃ t, exec
    (.eventRecord) s = .next t ∧ t.evr.queue = l ∧ t.evr.op = s.evr.op ++ [⟨s.get EVR_OP_SEQ.SEQ, r⟩] ∧ t.get EVR_OP_SEQ.SEQ = (s.get EVR_OP_SEQ.SEQ
    + 1) % 2 ^ 32 ∧ t.get EVR_STAT.OP_N = (s.evr.op.length + 1) % 2 ^ EVR_STAT.OP_N.w) ∧
  (∀ (s : State) (sess v : Nat), s.level sess ≠ 0 → s.runs 3 → v < 2 ^ 32 → ∃ t, exec (.logClear sess v) s = .next t ∧ (t.evr.op = s.evr.op.filter fun
    h => decide (v < h.seq) && decide (v ≠ 0xFFFFFFFF)) ∧ t.get EVR_STAT.OP_N = t.evr.op.length % 2 ^ EVR_STAT.OP_N.w ∧ t.evr.mor = s.evr.mor ∧
    Logged s t [(0x1002, 2, leBytes 4 (s.evr.op.length - t.evr.op.length) ++ [s.level sess])]) ∧
  (∀ (s : State) (sess v : Nat) (ok : Bool) (h0 : Held), s.writeStatus sess EVR_RD_SEQ.SEQ = 0 → s.runs 3 → v < 2 ^ 32 → nextHeld (s.logOf (s.ses
    sess).win.log) v = some h0 → ok → ∃ t, exec (.logReadLoad sess v ok) s = .next t ∧ ((t.ses sess).win = { (s.ses sess).win with seq := h0.seq, present := true, crcOk := true, words := (List.range 8).map fun w => ofLeBytes ((h0.rcd.bytes.drop (4 * w)).take 4) })
    ∧ t.regs = s.regs ∧ t.evr = s.evr) ∧
  (∀ (s : State) (sess v : Nat) (ok : Bool) (h0 : Held), s.writeStatus sess EVR_RD_SEQ.SEQ = 0 → s.runs 3 → v < 2 ^ 32 → nextHeld (s.logOf (s.ses
    sess).win.log) v = some h0 → ok = false → ∃ t, exec (.logReadLoad sess v ok) s = .next t ∧ (t.ses sess).win.seq = h0.seq ∧ (t.ses
    sess).win.present ∧ (t.ses sess).win.crcOk = false ∧ t.get EVR_CRC.CRC_ERR = min (s.get EVR_CRC.CRC_ERR + 1) (2 ^ EVR_CRC.CRC_ERR.w - 1) ∧
    Logged s t [(0x1007, 4, [(s.ses sess).win.log, 0, 0, 0] ++ leBytes 4 h0.seq)]) ∧
  (∀ (s : State) (sess : Nat) (ok : Bool), s.level sess ≠ 0 → s.runs 3 → (s.ses sess).win.auto → (s.ses sess).win.present → nextHeld (s.logOf (s.ses
    sess).win.log) ((s.ses sess).win.seq + 1) = none → ∃ t, exec (.logReadNext sess ok) s = .next t ∧ (t.ses sess).win = { (s.ses sess).win with seq := 0, present := false, crcOk := false, words := [] }
    ∧ t.regs = s.regs) ∧
  (∀ (s : State) (sess key log : Nat) (h0 : Held), s.writeStatus sess EVR_FIND_CTRL.GO = 0 → s.runs 3 → key = 1 → log = 0 → s.evr.op = [h0] → bit
    h0.rcd.src 5 = false → (s.ses sess).find.lo ≤ h0.rcd.utc → ∃ t, exec (.logSearch sess key log) s = .next t ∧ (t.ses sess).find.found ∧ (t.ses
    sess).find.seq = h0.seq ∧ t.regs = s.regs) ∧
  (∀ (s : State) (op mor : List Nat) (q : Nat), op = [q] → mor = [] → (s.evr.op.any fun h => h.seq == q) → ∃ t, exec (.logCrcCheck op mor) s = .next t
    ∧ t.get EVR_CRC.CRC_ERR = min (s.get EVR_CRC.CRC_ERR + 1) (2 ^ EVR_CRC.CRC_ERR.w - 1) ∧ t.evr.op = s.evr.op ∧ Logged s t [(0x1007, 4, [0, 0, 0,
    0] ++ leBytes 4 q)]) ∧
  (∀ (s : State) (a : La), s.laDue = some a → a.ep = 0x01D → a.op = 1 → s.laCode a = 1 → ∃ t, exec (.siteMark) s = .next t ∧ t.fab.la =
    s.fab.la.erase a ∧ t.get FAB_LA_CNT.EXEC = min (s.get FAB_LA_CNT.EXEC + 1) (2 ^ FAB_LA_CNT.EXEC.w - 1) ∧ (EgressEmpty s → Logged s t [(0x1008, 1,
    leBytes 4 a.actId)]))

/-- Results of the supply's commands and of the operating states: what each leaves, and that it completes. Chapters: 03_supply_domains_aux. Operands
stand for what the module observes (log 5) and open values are free (log 6); where a clause rests on another choice of the model, the log entries
are 56, 60, 61, 62, 63, 98, 101. -/
def Obligations.SupplyResults : Prop :=
  (∀ (s : State) (mv us : Nat), s.supplied → s.vsupNormal → mv < 15500 → 1000 ≤ us → ∃ t, exec (.vsupLowBandEntry mv us) s = .next t ∧ t.get
    PWR_SUPPLY_STAT.LOW_BAND = 1 ∧ t.get PWR_SUPPLY_STAT.LOW_SEEN = 1 ∧ t.get PWR_VMON.VSUP = mv / 10 ∧ Logged s t [(0x0101, 2, [])]) ∧
  (∀ (s : State) (mv us : Nat), s.supplied → s.get PWR_SUPPLY_STAT.LOW_BAND = 1 → 16000 ≤ mv → 1000 ≤ us → ∃ t, exec (.vsupLowBandExit mv us) s =
    .next t ∧ t.get PWR_SUPPLY_STAT.LOW_BAND = 0 ∧ t.get PWR_SUPPLY_STAT.LOW_SEEN = s.get PWR_SUPPLY_STAT.LOW_SEEN ∧ t.get PWR_VMON.VSUP = min (mv /
    10) (2 ^ PWR_VMON.VSUP.w - 1) ∧ Logged s t [(0x0102, 1, [])]) ∧
  (∀ (s : State) (mv us : Nat), s.supplied → s.vsupNormal → 36500 < mv → 1000 ≤ us → ∃ t, exec (.vsupHighBandEntry mv us) s = .next t ∧ t.get
    PWR_SUPPLY_STAT.HIGH_BAND = 1 ∧ Logged s t [(0x0109, 2, [])]) ∧
  (∀ (s : State) (mv us : Nat), s.supplied → s.get PWR_SUPPLY_STAT.HIGH_BAND = 1 → mv ≤ 36000 → 1000 ≤ us → ∃ t, exec (.vsupHighBandExit mv us) s =
    .next t ∧ t.get PWR_SUPPLY_STAT.HIGH_BAND = 0 ∧ t.get PWR_VMON.VSUP = mv / 10 ∧ Logged s t [(0x010A, 1, [])]) ∧
  (∀ (s : State) (mv us : Nat), s.supplied → s.get PWR_SUPPLY_STAT.OVERV = 0 → s.get PWR_STATE.STATE = 0 → 38000 < mv → 1000 ≤ us → ∃ t, exec
    (.vsupOverVoltage mv us) s = .next t ∧ t.get PWR_SUPPLY_STAT.OVERV = 1 ∧ t.get PWR_SUPPLY_STAT.OVERV_SEEN = 1 ∧ t.get PWR_SUPPLY_STAT.HIGH_BAND
    = 0 ∧ t.get PWR_STATE.STATE = 1 ∧ (t.pins.gateH = 0 ∧ t.pins.gateL = 0)) ∧
  (∀ (s : State) (mv us : Nat), s.supplied → s.get PWR_SUPPLY_STAT.OVERV = 1 → mv < 36500 → 1000 ≤ us → exec (.vsupOverVoltageExit mv us) s = .next
    (((s.put PWR_VMON.VSUP (mv / 10)).put PWR_SUPPLY_STAT.OVERV 0).put PWR_SUPPLY_STAT.HIGH_BAND 1)) ∧
  (∀ (s : State) (mv us back : Nat) (o : BootObs), s.runs 1 → s.boot.failing = false → mv < 9000 → 50 ≤ us → ∃ t, exec (.supplyFail mv us back o) s =
    .next t ∧ t.boot.failing ∧ t.boot.rail = false ∧ t.get PWR_STATE.STATE = 1 ∧ t.get PWR_DOM_STAT.ON = Nat.land (s.get PWR_DOM_STAT.ON) 0x407 ∧ t.get PWR_HOLDUP.TESTING = 0 ∧
    (t.pins.gateH = 0 ∧ t.pins.gateL = 0 ∧ t.pins.gden = 0) ∧ t.saf.list = 2) ∧
  (∀ (s : State) (mv us back : Nat) (o : BootObs), s.boot.failing → s.boot.rail = false → back < 10 → ∃ t, exec (.supplyFail mv us back o) s = .next t
    ∧ t.boot.failing = false ∧ t.evr.queue = [] ∧ t.get PWR_DOM_STAT.ON = 1 ∧ t.get PWR_DOM_STAT.IN_RST = 0 ∧ t.get PWR_SUPPLY_STAT.FAIL_SEEN = 1 ∧
    t.get SYS_READY.RDY = 0 ∧ t.get SYS_READY.PIN = 0 ∧ (t.pins.gateH = 0 ∧ t.pins.gateL = 0 ∧ t.pins.ls = 0)) ∧
  (∀ (s : State) (d us : Nat) (o : BootObs), s.runs 1 → s.boot.failing = false → d < 12 → 10 < us → ∃ t, exec (.railOutOfLimits d us o) s = .next t ∧
    t.boot.failing ∧ t.boot.rail ∧ bit (t.get PWR_DOM_FAULT.RAIL) d ∧ t.get PWR_STATE.STATE = 1 ∧ t.get PWR_DOM_STAT.ON = Nat.land (s.get PWR_DOM_STAT.ON) 0x407 ∧ (t.pins.gateH = 0
    ∧ t.pins.gateL = 0 ∧ t.pins.gden = 0)) ∧
  (∀ (s : State) (v : Nat), s.supplied → s.get PWR_HOLDUP.TESTING = 0 → 164 ≤ v → ∃ t, exec (.holdupStoreTest v) s = .next t ∧ t.get
    PWR_HOLDUP.VSTORE = min v (2 ^ PWR_HOLDUP.VSTORE.w - 1) ∧ t.get PWR_HOLDUP.TESTING = 1 ∧ (t.get PWR_HOLDUP.HOLDUP_OK = if s.boot.storeTest = some
    true ∨ (s.boot.storeTest ≠ none ∧ s.get PWR_HOLDUP.HOLDUP_ENF = 0) then 1 else 0)) ∧
  (∀ (s : State) (sess : Nat), s.writeStatus sess PWR_HOLDUP.TEST = 0 → s.get PWR_HOLDUP.TESTING = 0 → s.boot.failing = false → exec
    (.holdupTestRequest sess) s = .next (s.put PWR_HOLDUP.TESTING 1)) ∧
  (∀ (s : State) (e v : Nat), s.supplied → s.get PWR_HOLDUP.TESTING = 1 → 160 ≤ v → 1920 ≤ e → ∃ t, exec (.holdupTestDone e v) s = .next t ∧ t.get
    PWR_HOLDUP.TESTING = 0 ∧ t.get PWR_HOLDUP.HOLDUP_OK = 1 ∧ t.get PWR_HOLDUP.E_USABLE = min e (2 ^ PWR_HOLDUP.E_USABLE.w - 1) ∧ t.get
    PWR_HOLDUP.VSTORE = min v (2 ^ PWR_HOLDUP.VSTORE.w - 1) ∧ t.evr = s.evr) ∧
  (∀ (s : State) (e v : Nat), s.supplied → s.get PWR_HOLDUP.TESTING = 1 → v < 160 → e < 1920 → ∃ t, exec (.holdupTestDone e v) s = .next t ∧ t.get
    PWR_HOLDUP.TESTING = 0 ∧ t.get PWR_HOLDUP.HOLDUP_OK = 0 ∧ ((List.range 96).all fun n => t.get PE_PH_STAT.STATE n != 2) ∧ (t.pins.gateH = 0 ∧
    t.pins.gateL = 0)) ∧
  (∀ (s : State) (mv : Nat), s.runs 1 → mv < 2600 → s.get PWR_SUPPLY_STAT.VBAT_LOW = 0 → ∃ t, exec (.vbatLow mv) s = .next t ∧ t.get
    PWR_SUPPLY_STAT.VBAT_LOW = 1 ∧ t.get PWR_SUPPLY_STAT.VBAT_SEEN = 1 ∧ t.get PWR_VMON.VBAT = mv ∧ Logged s t [(0x0105, 3, [])]) ∧
  (∀ (s : State) (mv : Nat), 2600 ≤ mv → exec (.vbatRestored mv) s = .next ((s.put PWR_VMON.VBAT (min mv (2 ^ PWR_VMON.VBAT.w - 1))).put
    PWR_SUPPLY_STAT.VBAT_LOW 0)) ∧
  (∀ (s : State) (sess : Nat), s.writeStatus sess PWR_STATE.CMD = 0 → s.get PWR_STATE.STATE = 0 → ∃ t, exec (.quietRequest sess) s = .next t ∧ t.get
    PWR_STATE.STATE = 1 ∧ t.get PWR_STATE.CMD = 1 ∧ t.get PWR_STATE.RESULT = 0 ∧ (t.pins.gateH = 0 ∧ t.pins.gateL = 0)) ∧
  (∀ (s : State) (sess : Nat), s.writeStatus sess PWR_STATE.CMD = 0 → s.get PWR_STATE.STATE = 1 → s.runRefusal = 0 → ∃ t, exec (.runRequest sess) s =
    .next t ∧ t.get PWR_STATE.STATE = 0 ∧ t.get PWR_STATE.CMD = 2 ∧ t.get PWR_STATE.RESULT = 0) ∧
  (∀ (s : State) (sess : Nat), s.writeStatus sess PWR_STATE.CMD = 0 → s.get PWR_STATE.STATE = 1 → s.runRefusal ≠ 0 → ∃ t, exec (.runRequest sess) s =
    .next t ∧ t.get PWR_STATE.STATE = 1 ∧ t.get PWR_STATE.RESULT = s.runRefusal ∧ t.pins = s.pins) ∧
  (∀ (s : State) (sess : Nat), s.writeStatus sess PWR_STATE.CMD = 0 → s.dormantRefusal = 0 → ∃ t, exec (.dormantRequest sess) s = .next t ∧ t.get
    PWR_STATE.STATE = 2 ∧ t.get PWR_STATE.RESULT = 0 ∧ t.get PWR_DOM_STAT.ON = 0x107 ∧ t.get PWR_DOM_STAT.IN_RST = 0xFF8 ∧ t.boot.dormant) ∧
  (∀ (s : State) (sess : Nat), s.writeStatus sess PWR_STATE.CMD = 0 → s.get PWR_STATE.STATE = 0 → exec (.dormantRequest sess) s = .next ((s.put
    PWR_STATE.CMD 3).put PWR_STATE.RESULT 0xA)) ∧
  (∀ (s : State) (src : Nat) (o : BootObs), s.boot.dormant → src < 4 → bit (s.get PWR_WAKE.EN) src → s.supplied → s.boot.kind = 0 → ∃ t, exec (.wake
    src o) s = .next t ∧ t.boot.dormant = false ∧ t.boot.kind = 0 ∧ bit (t.get PWR_WAKE.SRC) src ∧ t.get PWR_STATE.STATE = 1 ∧ t.get
    SYS_RST_CAUSE.LAST = 7 ∧ t.get SYS_BOOT_STAT.STEP = 9)

/-- Results of the aux regulators' commands: what each leaves, and that it completes. Chapters: 03_supply_domains_aux. Operands stand for what
the module observes (log 5) and open values are free (log 6); where a clause rests on another choice of the model, the log entries are 56, 60,
61, 62, 63, 95, 132, 145. -/
def Obligations.AuxResults : Prop :=
  (∀ (s : State) (sess a : Nat), a < 6 → s.writeStatus sess PWR_AUX_CTRL.EN = 0 → s.runs 10 → bit s.boot.cal 5 = false → s.get PWR_AUX_STAT.FB_FAULT a
    = 0 → s.get PWR_AUX_STAT.MODE a = 0 → ∃ t, exec (.auxEnable sess a) s = .next t ∧ t.get PWR_AUX_CTRL.EN a = 1 ∧ t.get PWR_AUX_STAT.MODE a = 1 ∧
    (t.aux a).th = 0) ∧
  (∀ (s : State) (sess a : Nat), a < 6 → s.writeStatus sess PWR_AUX_CTRL.EN = 0 → s.runs 10 → s.get PWR_AUX_STAT.PGOOD a = 0 → ∃ t, exec (.auxStop
    sess a) s = .next t ∧ t.get PWR_AUX_CTRL.EN a = 0 ∧ t.get PWR_AUX_STAT.MODE a = 0 ∧ bit t.pins.auxDrv a = false ∧ (t.aux a).th = 0) ∧
  (∀ (s : State) (pair v us : Nat), s.runs 10 → pair = 1 → v < 4 → 1000 ≤ us → ∃ t, exec (.auxSetpointChange pair v us) s = .next t ∧ ((t.aux 3).sel =
    v ∧ (t.aux 4).sel = v ∧ (t.aux 5).sel = v) ∧ (t.aux 0).sel = (s.aux 0).sel ∧ t.regs = s.regs) ∧
  (∀ (s : State) (a fb us : Nat), a < 6 → s.runs 10 → s.get PWR_AUX_STAT.MODE a = 1 → s.get PWR_AUX_STAT.PGOOD a = 0 → s.auxInBand a fb → 1000 ≤ us
    → ∃ t, exec (.auxPgood a fb us) s = .next t ∧ t.get PWR_AUX_STAT.PGOOD a = 1 ∧ (t.aux a).good = true ∧ t.get PWR_AUX_STAT.MODE a = s.auxRegulating
    a ∧ t.get PWR_AUX_STAT.FB a = min fb (2 ^ PWR_AUX_STAT.FB.w - 1)) ∧
  (∀ (s : State) (a fb : Nat), a < 6 → s.runs 10 → s.get PWR_AUX_STAT.PGOOD a = 1 → s.auxInBand a fb = false → ∃ t, exec (.auxPgoodLoss a fb) s =
    .next t ∧ t.get PWR_AUX_STAT.PGOOD a = 0 ∧ t.get PWR_AUX_STAT.FB a = min fb (2 ^ PWR_AUX_STAT.FB.w - 1) ∧ ((List.range 96).all fun n =>
    !s.auxFeeds a (portOf n) || (!bit t.pins.gateH n && !bit t.pins.gateL n))) ∧
  (∀ (s : State) (a ms : Nat), a < 6 → s.auxRuns a → (s.aux a).good = false → 20 ≤ ms → ∃ t, exec (.auxFeedbackFault a ms) s = .next t ∧ t.get
    PWR_AUX_STAT.MODE a = 7 ∧ t.get PWR_AUX_STAT.FB_FAULT a = 1 ∧ bit t.pins.auxDrv a = false ∧ Logged s t [(0x0124, 4, [a])]) ∧
  (∀ (s : State) (a n : Nat), a < 6 → s.runs 10 → s.get PWR_AUX_CTRL.BURST_EN a = 1 → (s.get PWR_AUX_STAT.MODE a = 1 ∨ s.get PWR_AUX_STAT.MODE a =
    2) → s.auxFallback a = false → 16 ≤ n → s.auxLoopTh a < s.auxBurstTh a → ∃ t, exec (.auxBurstSleep a n) s = .next t ∧ t.get PWR_AUX_STAT.MODE a =
    3 ∧ bit t.pins.auxDrv a = false) ∧
  (∀ (s : State) (a fb : Nat), a < 6 → s.runs 10 → s.get PWR_AUX_STAT.MODE a = 3 → 100 * fb ≤ 99 * s.auxRef a → s.get PWR_AUX_STAT.PGOOD a = 1 → ∃
    t, exec (.auxBurstWake a fb) s = .next t ∧ t.get PWR_AUX_STAT.MODE a = s.auxRegulating a ∧ t.get PWR_AUX_STAT.FB a = min fb (2 ^ PWR_AUX_STAT.FB.w
    - 1)) ∧
  (∀ (s : State) (a n f : Nat), a < 6 → s.auxRuns a → s.get PWR_AUX_CTRL.SYNC_EN a = 1 → s.get PWR_AUX_STAT.SYNCED a = 0 → 8 ≤ n → 8 * clampN 1000
    10000 (s.get PWR_AUX_FSW.FSW a) ≤ f → f ≤ 12 * clampN 1000 10000 (s.get PWR_AUX_FSW.FSW a) → (s.aux a).lost → ∃ t, exec (.auxSyncLock a n f) s =
    .next t ∧ t.get PWR_AUX_STAT.SYNCED a = 1 ∧ t.get PWR_SYNC.PRESENT = 1 ∧ t.get PWR_SYNC.FSYNC = min f (2 ^ PWR_SYNC.FSYNC.w - 1) ∧ (t.aux
    a).lost = false ∧ Logged s t [(0x0122, 2, [a, 0])]) ∧
  (∀ (s : State) (a tw : Nat), a < 6 → s.runs 10 → s.get PWR_AUX_STAT.SYNCED a = 1 → 15 ≤ tw → ∃ t, exec (.auxSyncLost a tw) s = .next t ∧ t.get
    PWR_AUX_STAT.SYNCED a = 0 ∧ t.get PWR_AUX_STAT.SYNC_LOST a = 1 ∧ (t.aux a).lost ∧ Logged s t [(0x0122, 2, [a, 1])]) ∧
  (∀ (s : State) (a fb : Nat), a < 6 → s.auxRuns a → s.auxOver a fb (s.get PWR_AUX_OVS.OV1 a) → ∃ t, exec (.auxTruncation a fb) s = .next t ∧ t.get
    PWR_AUX_CNT.TRUNC a = min (s.get PWR_AUX_CNT.TRUNC a + 1) (2 ^ PWR_AUX_CNT.TRUNC.w - 1) ∧ bit t.pins.auxDrv a = false ∧ t.get PWR_AUX_STAT.FB a
    = min fb (2 ^ PWR_AUX_STAT.FB.w - 1) ∧ t.get PWR_AUX_STAT.MODE a = s.get PWR_AUX_STAT.MODE a) ∧
  (∀ (s : State) (a fb n : Nat), a < 6 → s.auxRuns a → s.get PWR_AUX_STAT.MODE a ≠ 5 → (s.auxOver a fb (s.get PWR_AUX_OVS.OV2 a) ∨ s.auxOver a fb
    (s.get PWR_AUX_OVS.OV1 a) ∧ 2 < n) → ∃ t, exec (.auxBraking a fb n) s = .next t ∧ t.get PWR_AUX_STAT.MODE a = 5 ∧ t.get PWR_AUX_STAT.BRAKE_SEEN
    a = 1 ∧ t.get PWR_AUX_CNT.BRAKE a = min (s.get PWR_AUX_CNT.BRAKE a + 1) (2 ^ PWR_AUX_CNT.BRAKE.w - 1) ∧ bit t.pins.auxDrv a = false ∧ Logged s t
    [(0x0123, 3, [a])]) ∧
  (∀ (s : State) (a fb : Nat), a < 6 → s.runs 10 → s.get PWR_AUX_STAT.MODE a = 5 → 400 * fb < s.auxRef a * (400 + s.get PWR_AUX_OVS.OV1 a) → s.get
    PWR_AUX_STAT.PGOOD a = 0 → ∃ t, exec (.auxBrakeRelease a fb) s = .next t ∧ t.get PWR_AUX_STAT.MODE a = 1 ∧ t.get PWR_AUX_STAT.FB a = min fb (2 ^
    PWR_AUX_STAT.FB.w - 1)) ∧
  (∀ (s : State) (a n : Nat), a < 6 → s.runs 10 → s.get PWR_AUX_TEMP.TS_SEL a = n → n < 48 → 10 * (s.get PWR_AUX_TEMP.WARN a : Int) ≤ s.geti
    TH_TS_VAL.REP n → s.get PWR_AUX_STAT.TWARN a = 0 → ∃ t, exec (.auxThermalWarning a) s = .next t ∧ t.get PWR_AUX_STAT.TWARN a = 1 ∧ Logged s t
    [(0x0120, 3, [a])]) ∧
  (∀ (s : State) (a n : Nat), a < 6 → s.get PWR_AUX_TEMP.TS_SEL a = n → n < 48 → s.auxRuns a → 10 * (s.get PWR_AUX_TEMP.SHUT a : Int) ≤ s.geti
    TH_TS_VAL.REP n → s.get PWR_AUX_STAT.PGOOD a = 0 → ∃ t, exec (.auxThermalShutdown a) s = .next t ∧ t.get PWR_AUX_STAT.MODE a = 6 ∧ t.get
    PWR_AUX_STAT.TSHUT_SEEN a = 1 ∧ bit t.pins.auxDrv a = false ∧ Logged s t [(0x0121, 4, [a])]) ∧
  (∀ (s : State) (a n : Nat), a < 6 → s.get PWR_AUX_TEMP.TS_SEL a = n → n < 48 → s.get PWR_AUX_STAT.MODE a = 6 → s.geti TH_TS_VAL.REP n ≤ 10 * (s.get
    PWR_AUX_TEMP.SHUT a : Int) - 150 → s.runs 10 → bit s.boot.cal 5 = false → s.get PWR_AUX_STAT.FB_FAULT a = 0 → s.get PWR_AUX_CTRL.EN a = 1 → ∃ t,
    exec (.auxThermalRestart a) s = .next t ∧ t.get PWR_AUX_STAT.MODE a = 1 ∧ (t.aux a).th = 0) ∧
  (∀ (s : State) (code us since onUs mv : Nat), s.runs 10 → code < 16 → 1000 ≤ us → 10 ≤ since → s.get LSW_CH_STAT.STATE code = 1 → 200 ≤ onUs → mv
    ≤ 3300 → ∃ t, exec (.snsSelectChange code us since onUs mv) s = .next t ∧ t.get LSW_BANK.SSEL = code ∧ t.get LSW_BANK.SNS_VALID = 1 ∧ t.pins =
    { s.pins with sns := some code, snsMv := mv }) ∧
  (∀ (s : State) (code us since onUs mv : Nat), s.runs 10 → code < 16 → 1000 ≤ us → since < 10 → ∃ t, exec (.snsSelectChange code us since onUs mv) s
    = .next t ∧ t.get LSW_BANK.SSEL = code ∧ t.get LSW_BANK.SNS_VALID = 0 ∧ t.pins = { s.pins with sns := none })

/-- Results of the commands of the role set, the resets and READY: what each leaves, and that it completes. Chapters: 01_module_roles,
04_startup_reset_retention. Operands stand for what the module observes (log 5) and open values are free (log 6); where a clause rests on another
choice of the model, the log entries are 1, 12, 22, 32, 53, 54, 55, 57, 58, 59, 60, 64, 66, 94, 97, 99, 100, 119, 126, 145. -/
def Obligations.ResetResults : Prop :=
  (∀ (s : State) (sess : Nat), s.writeStatus sess SYS_ROLE_CMD.APPLY = 0 → s.get SYS_ROLE_CMD.APPLY = 0 → s.applyRefusal = 0 → s.runningNext =
    s.running → ∃ t, exec (.apply sess) s = .next t ∧ t.get SYS_ROLE_CMD.APPLY = 1 ∧ t.get SYS_ROLE_CMD.STATUS = 1 ∧ (s.get PWR_STATE.STATE = 0 →
    t.get PWR_STATE.STATE = 1) ∧ t.boot.apply = 0 ∧ t.boot.applyRan = s.inRun ∧ t.get SYS_ROLE.ROLE_ACT = s.get SYS_ROLE.ROLE_ACT) ∧
  (∀ (s : State) (sess : Nat), s.writeStatus sess SYS_ROLE_CMD.APPLY = 0 → s.get SYS_ROLE_CMD.APPLY = 0 → s.applyRefusal ≠ 0 → ∃ t, exec (.apply sess)
    s = .next t ∧ t.get SYS_ROLE_CMD.STATUS = s.applyRefusal ∧ t.get SYS_ROLE_CMD.APPLY = 0 ∧ t.get SYS_ROLE.ROLE_ACT = s.get SYS_ROLE.ROLE_ACT ∧
    Logged s t [(0x0013, 3, [s.applyRefusal])]) ∧
  (∀ (s : State) (o : BootObs), s.get SYS_ROLE_CMD.APPLY = 1 → s.boot.kind = 0 → ∃ t, exec (.applyComplete o) s = .next t ∧ t.get SYS_ROLE.ROLE_ACT =
    s.get SYS_ROLE.ROLE_CFG ∧ t.get SYS_ROLE_CMD.APPLY = 0 ∧ t.get SYS_ROLE_CMD.STATUS = 2 ∧ t.boot.apply = 0 ∧ t.boot.applyRan = false ∧ t.get
    SYS_READY.REQ = t.running) ∧
  (∀ (s : State) (mv ms : Nat) (cold : Bool) (o : BootObs), s.runs 1 = false → s.boot.failing = false → 16000 ≤ mv → 10 ≤ ms → ∃ t, exec (.porReset mv
    ms cold o) s = .next t ∧ t.get SYS_BOOT_STAT.STEP = 9 ∧ t.boot.kind = 0 ∧ t.get PWR_VMON.VSUP = min (mv / 10) (2 ^ PWR_VMON.VSUP.w - 1) ∧
    t.flash = s.flash ∧ t.get SYS_READY.PIN = 0 ∧ (t.pins.gateH = 0 ∧ t.pins.gateL = 0)) ∧
  (∀ (s : State) (mv ms : Nat) (cold : Bool) (o : BootObs), s.runs 1 = false → s.boot.failing = false → 16000 ≤ mv → 10 ≤ ms → s.flBytes 0 4 ≠ [0x4D,
    0x44, 0x4E, 0x43] → s.flBytes 0x200000 4 ≠ [0x4D, 0x44, 0x4E, 0x43] → ∃ t, exec (.porReset mv ms cold o) s = .next t ∧ t.get SYS_RST_CAUSE.LAST
    = 1 ∧ t.get SYS_BOOT_STAT.NO_IMAGE = 1 ∧ t.get SYS_ROLE.ROLE_ACT = 0) ∧
  (∀ (s : State) (ns : Nat) (low : Bool) (o : BootObs), s.supplied → 1000 ≤ ns → low → s.boot.kind = 0 → ∃ t, exec (.pinReset ns low o) s = .next t ∧
    t.boot.kind = 3 ∧ t.boot.doms = 0xFF8 ∧ t.pins.rstLow ∧ (t.pins.gateH = 0 ∧ t.pins.gateL = 0) ∧ t.get SYS_RST_CAUSE.LAST = 3 ∧ t.get
    PWR_STATE.STATE = 1 ∧ t.get SYS_READY.PIN = 0 ∧ Nat.land (t.get PWR_DOM_STAT.IN_RST) 0xFF8 = 0xFF8) ∧
  (∀ (s : State) (ns : Nat) (low : Bool) (o : BootObs), s.supplied → ns < 100 → exec (.pinReset ns low o) s = .next s) ∧
  (∀ (s : State) (o : BootObs), s.pins.rstLow → s.supplied → s.boot.kind = 3 → ∃ t, exec (.rstNRelease o) s = .next t ∧ t.pins.rstLow = false ∧
    t.boot.kind = 0 ∧ t.get SYS_BOOT_STAT.STEP = 9 ∧ t.flash = s.flash) ∧
  (∀ (s : State) (sess : Nat) (o : BootObs), s.writeStatus sess SYS_RST_CMD.SOFT = 0 → s.softRefusal = 0 → s.boot.kind = 0 → s.boot.failing = false →
    ∃ t, exec (.softReset sess o) s = .next t ∧ t.get SYS_RST_CAUSE.LAST = 6 ∧ t.get SYS_RST_INFO.DOM_MASK = 0xFF8 ∧ t.get SYS_RST_CAUSE.COINC = 0 ∧
    t.get SYS_RST_CNT.WARM = min (s.get SYS_RST_CNT.WARM + 1) (2 ^ SYS_RST_CNT.WARM.w - 1) ∧ t.get SYS_BOOT_STAT.STEP = 9 ∧ t.boot.kind = 0 ∧ t.get
    SYS_READY.PIN = 0 ∧ t.flash = s.flash) ∧
  (∀ (s : State) (sess : Nat) (o : BootObs), s.writeStatus sess SYS_RST_CMD.SOFT = 0 → s.softRefusal ≠ 0 → ∃ t, exec (.softReset sess o) s = .next t ∧
    t.get SYS_RST_CMD.STATUS = s.softRefusal ∧ t.get SYS_RST_CAUSE.LAST = s.get SYS_RST_CAUSE.LAST ∧ Logged s t [(0x0009, 3, [s.softRefusal])]) ∧
  (∀ (s : State) (sess bits : Nat), s.writeStatus sess PWR_DOM_RST.RST = 0 → 0 < bits → bits < 2 ^ 9 → s.domainRefusal (8 * bits) = 0 → s.boot.kind =
    0 → s.boot.failing = false → ∃ t, exec (.domainReset sess bits) s = .next t ∧ t.boot.kind = 7 ∧ t.boot.doms = withDependants (8 * bits) ∧ t.get
    PWR_DOM_RST.RST = s.get PWR_DOM_RST.RST ||| bits ∧ t.get PWR_DOM_RST.RESULT = 1 ∧ t.get SYS_RST_CAUSE.LAST = 7 ∧ Nat.land (t.get
    PWR_DOM_STAT.IN_RST) (8 * bits) = 8 * bits) ∧
  (∀ (s : State) (sess bits : Nat), s.writeStatus sess PWR_DOM_RST.RST = 0 → 0 < bits → bits < 2 ^ 9 → s.domainRefusal (8 * bits) ≠ 0 → exec
    (.domainReset sess bits) s = .next (s.put PWR_DOM_RST.RESULT (s.domainRefusal (8 * bits)))) ∧
  (∀ (s : State) (o : BootObs), s.boot.kind = 7 → s.get SYS_ROLE_CMD.APPLY = 0 → s.boot.further = 0 → s.boot.swRun = none → ∃ t, exec
    (.domainResetComplete o) s = .next t ∧ t.boot.kind = 0 ∧ (t.get SYS_BOOT_STAT.STEP = if bit (t.get SYS_READY.RDY) 3 then (if bit (t.get
    SYS_READY.RDY) 0 then 11 else 10) else 9) ∧ t.get PWR_DOM_RST.RST = clrBits (8 * s.get PWR_DOM_RST.RST) s.boot.doms / 8 ∧ t.flash = s.flash) ∧
  (∀ (s : State) (node serial stamp : Nat) (tagOk : ResetTag) (o : BootObs) (k : List Nat), s.runs 8 → s.fab.key = some k → tagOk.tag = resetTag k
    tagOk.dst tagOk.src tagOk.seq serial stamp tagOk.low → serial = s.serial → ((stamp : Int) - (s.stamp : Int)).natAbs ≤ 2 ^ 24 → s.rstStamp < stamp
    → s.boot.kind = 0 → s.boot.failing = false → ∃ t, exec (.fabricResetCommand node serial stamp tagOk o) s = .next t ∧ t.rstStamp = stamp ∧ t.get
    SYS_RST_CAUSE.LAST = 5 ∧ t.get SYS_RST_INFO.FABR_NODE = node % 2 ^ SYS_RST_INFO.FABR_NODE.w ∧ t.get SYS_BOOT_STAT.STEP = 9 ∧ t.boot.kind = 0) ∧
  (∀ (s : State) (node serial stamp : Nat) (tagOk : ResetTag) (o : BootObs), s.runs 8 → s.resetTagOk serial stamp tagOk = false → ∃ t, exec
    (.fabricResetCommand node serial stamp tagOk o) s = .next t ∧ t.get FAB_WAKE.REJ = min (s.get FAB_WAKE.REJ + 1) (2 ^ FAB_WAKE.REJ.w - 1) ∧
    t.rstStamp = s.rstStamp ∧ t.boot = s.boot ∧ Logged s t [(0x060C, 4, [])]) ∧
  (∀ (s : State) (ms : Nat), s.readyHolds → s.get SYS_READY.PIN = 0 → ∃ t, exec (.readyRelease ms) s = .next t ∧ t.get SYS_READY.PIN = 1 ∧ t.get
    SYS_BOOT_STAT.STEP = 12 ∧ t.get SYS_BOOT_TIME.T_READY = min ms 0xFFFE ∧ t.get SYS_BOOT_STAT.LATE = 0 ∧ t.get SAF_WD_STAT.WD_CNT = 0 ∧ Logged s t
    [(0x0002, 1, leBytes 2 (min ms 0xFFFE))]) ∧
  (∀ (s : State) (ms : Nat), s.supplied → s.boot.dormant = false → s.get SYS_READY.PIN = 0 → s.get SYS_BOOT_STAT.LATE = 0 → s.readyHolds = false →
    2367 ≤ ms → ∃ t, exec (.readyDeadline ms) s = .next t ∧ t.get SYS_BOOT_STAT.LATE = 1 ∧ t.get SYS_READY.PIN = 0 ∧ Logged s t [(0x0003, 4, leBytes
    2 s.readyMissing)])

/-- Results of the Safe-Off sequencer's and the watchdog's commands: what each leaves, and that it completes. Chapters: 20_safe_off_faults.
Operands stand for what the module observes (log 5) and open values are free (log 6); where a clause rests on another choice of the model, the
log entries are 65, 143. -/
def Obligations.SafeOffResults : Prop :=
  (∀ (s : State) (m ns : Nat), 1000 ≤ ns → (m = 1 ∨ m = 2) → s.runs 1 → s.boot.failing = false → s.pins.estopLow = 0 → s.get SAF_STAT.ACTIVE = 0 → ∃
    t, exec (.eStop m ns) s = .next t ∧ t.pins.estopLow = m ∧ t.get SAF_STAT.ACTIVE = 1 ∧ t.get SAF_FIRST.FIRST = 0x1202 ∧ bit (t.get SAF_SRC.SRC) 0 ∧
    bit (t.get SAF_SRC.SRC_SEEN) 0 ∧ t.get SAF_FIRST.SO_CNT = min (s.get SAF_FIRST.SO_CNT + 1) (2 ^ SAF_FIRST.SO_CNT.w - 1) ∧ (t.pins.gateH = 0 ∧
    t.pins.gateL = 0 ∧ t.pins.gden = 0 ∧ t.pins.auxDrv = 0) ∧ (s.get PWR_STATE.STATE = 0 → t.get PWR_STATE.STATE = 1)) ∧
  (∀ (s : State) (m ns : Nat), ns < 1000 → exec (.eStop m ns) s = .next s) ∧
  (∀ (s : State) (sess : Nat), s.writeStatus sess SAF_CMD.SO_REQ = 0 → s.get SAF_STAT.ACTIVE = 0 → ∃ t, exec (.soReq sess) s = .next t ∧ t.get
    SAF_STAT.ACTIVE = 1 ∧ t.get SAF_FIRST.FIRST = 0x120D ∧ bit (t.get SAF_SRC.SRC) 10 ∧ (t.pins.gateH = 0 ∧ t.pins.gateL = 0 ∧ t.pins.gden = 0 ∧
    t.pins.auxDrv = 0)) ∧
  (∀ (s : State) (c i ms : Nat) (valid : Bool), s.runs 1 → c < 2 → s.saf.list ≠ 2 → s.boot.failing = false → (s.seqOf c = 1 ∨ s.seqOf c = 4) → valid
    → (s.pt (s.get SAF_CONN.PT c)).blockOk → (s.geti MET_PT_I.I (s.get SAF_CONN.PT c)).natAbs ≤ 1000 * s.get SAF_CONN.I_OPEN c → i ≤ 1000 * s.get
    SAF_CONN.I_OPEN c → 10 ≤ ms → s.get SAF_CONN.LS_POS c < 16 → ∃ t, exec (.contactorOpen c i ms valid) s = .next t ∧ t.seqOf c = 2 ∧ bit
    t.pins.latch (s.get SAF_CONN.LS_POS c) = false ∧ bit t.pins.ls (s.get SAF_CONN.LS_POS c) = false) ∧
  (∀ (s : State) (c ms tw : Nat), s.runs 1 → c < 2 → s.saf.list ≠ 2 → s.boot.failing = false → s.seqOf c = 2 → clampN 1 20 (s.get SAF_CFG.CT_GAP) ≤ ms
    → s.get SAF_CONN.LS_NEG c < 16 → ∃ t, exec (.safeOffDcMinusOpen c ms tw) s = .next t ∧ t.seqOf c = 3 ∧ bit t.pins.latch (s.get SAF_CONN.LS_NEG
    c) = false ∧ bit t.saf.held c = false) ∧
  (∀ (s : State) (c tw i : Nat), s.runs 1 → c < 2 → s.saf.list ≠ 2 → s.boot.failing = false → s.seqOf c = 1 → 10 * max 1 (s.get SAF_CFG.SO_DECAY) ≤ tw
    → s.get SAF_STAT.ACTIVE = 0 → ∃ t, exec (.connectorHeld c tw i) s = .next t ∧ t.seqOf c = 4 ∧ bit t.saf.held c ∧ t.get SAF_STAT.HELD = 1 ∧
    Logged s t [(0x1204, 6, [c, 0] ++ leBytes 2 (min (i / 1000) 0xFFFF))]) ∧
  (∀ (s : State) (c i ms : Nat) (valid : Bool), s.boot.failing → c < 2 → s.saf.list = 2 → s.seqOf c = 1 → valid → (s.pt (s.get SAF_CONN.PT
    c)).blockOk → (s.geti MET_PT_I.I (s.get SAF_CONN.PT c)).natAbs ≤ 1000 * s.get SAF_CONN.I_OPEN c → i ≤ 1000 * s.get SAF_CONN.I_OPEN c → 1 ≤ ms →
    s.get SAF_CONN.LS_POS c < 16 → ∃ t, exec (.supplyFailContactorOpen c i ms valid) s = .next t ∧ t.seqOf c = 2 ∧ bit t.pins.latch (s.get
    SAF_CONN.LS_POS c) = false) ∧
  (∀ (s : State) (c ms : Nat), s.boot.failing → c < 2 → s.saf.list = 2 → s.seqOf c = 2 → 1 ≤ ms → s.get SAF_CONN.LS_NEG c < 16 → ∃ t, exec
    (.supplyFailDcMinusOpen c ms) s = .next t ∧ t.seqOf c = 3 ∧ bit t.pins.latch (s.get SAF_CONN.LS_NEG c) = false) ∧
  (∀ (s : State) (c us : Nat), s.boot.failing → c < 2 → s.saf.list = 2 → s.seqOf c = 1 → 24050 ≤ us → ∃ t, exec (.contactorNotOpened c us) s = .next t
    ∧ t.seqOf c = 5 ∧ t.pins = s.pins ∧ Logged s t [(0x120C, 6, [c])]) ∧
  (∀ (s : State) (sess : Nat), s.writeStatus sess SAF_CMD.CLR = 0 → s.get SAF_STAT.ACTIVE = 1 → s.clearStatus = 1 → ∃ t, exec (.safeOffClear sess) s =
    .next t ∧ t.get SAF_STAT.ACTIVE = 0 ∧ t.get SAF_STAT.DONE = 0 ∧ t.get SAF_SRC.SRC = 0 ∧ t.get SAF_FIRST.FIRST = 0 ∧ t.get SAF_CMD.STATUS = 1 ∧
    t.saf.list = 0 ∧ Logged s t [(0x1205, 2, [])]) ∧
  (∀ (s : State) (sess : Nat), s.writeStatus sess SAF_CMD.CLR = 0 → s.get SAF_STAT.ACTIVE = 1 → s.clearStatus ≠ 1 → ∃ t, exec (.safeOffClear sess) s =
    .next t ∧ t.get SAF_STAT.ACTIVE = 1 ∧ t.get SAF_CMD.STATUS = s.clearStatus ∧ t.pins = s.pins ∧ Logged s t [(0x1206, 3, [s.clearStatus])]) ∧
  (∀ (s : State) (ms : Nat), s.runs 1 → s.get SAF_STAT.ES1 ≠ s.get SAF_STAT.ES2 → s.get SAF_STAT.ES_DISC = 0 → 10 * max 1 (s.get SAF_CFG.ES_DISC_T) <
    ms → ∃ t, exec (.estopDiscrepancy ms) s = .next t ∧ t.get SAF_STAT.ES_DISC = 1 ∧ t.saf.bothLow = false ∧ Logged s t [(0x1207, 6, [])]) ∧
  (∀ (s : State) (m : Nat), m = 3 → s.runs 1 → s.get SAF_STAT.ES_DISC = 1 → s.saf.bothLow → ∃ t, exec (.estopRelease m) s = .next t ∧ t.pins.estopLow
    = clrBits s.pins.estopLow 3 ∧ (s.pins.estopLow < 4 → t.get SAF_STAT.ES_DISC = 0 ∧ t.get SAF_STAT.ES1 = 0 ∧ t.get SAF_STAT.ES2 = 0) ∧ t.get
    SAF_STAT.ACTIVE = s.get SAF_STAT.ACTIVE) ∧
  (∀ (s : State) (v ms : Nat) (o : BootObs), s.saf.wdRun → v = s.saf.kick → ms < s.wdTimes.1 → s.wdTimes.2 ≤ ms → exec (.watchdogKick v ms o) s =
    .next ({ s with saf := { s.saf with kick := if s.saf.kick = 0x5A then 0xA5 else 0x5A } })) ∧
  (∀ (s : State) (v ms : Nat) (o : BootObs), s.saf.wdRun → v ≠ s.saf.kick → ms < s.wdTimes.1 → s.runs 3 → s.get SAF_STAT.WD_STOP = 0 → s.boot.failing
    = false → s.boot.kind = 0 → ∃ t, exec (.watchdogKick v ms o) s = .next t ∧ t.get SAF_WD_STAT.WD_CAUSE = 2 ∧ t.get SAF_WD_STAT.WD_TOTAL = min
    (s.get SAF_WD_STAT.WD_TOTAL + 1) (2 ^ SAF_WD_STAT.WD_TOTAL.w - 1) ∧ t.get SYS_RST_CAUSE.LAST = 4 ∧ t.get SYS_BOOT_STAT.STEP = 9) ∧
  (∀ (s : State) (ms : Nat) (o : BootObs), s.saf.wdRun → s.wdTimes.1 ≤ ms → s.runs 3 → s.get SAF_STAT.WD_STOP = 0 → s.boot.failing = false →
    s.boot.kind = 0 → ∃ t, exec (.watchdogExpiry ms o) s = .next t ∧ t.get SAF_WD_STAT.WD_CAUSE = 1 ∧ t.get SAF_WD_STAT.WD_TOTAL = min (s.get
    SAF_WD_STAT.WD_TOTAL + 1) (2 ^ SAF_WD_STAT.WD_TOTAL.w - 1) ∧ t.get SAF_WD_STAT.WD_CNT = min (s.get SAF_WD_STAT.WD_CNT + 1) 15 ∧ t.get
    SYS_RST_CAUSE.LAST = 4 ∧ t.get SYS_BOOT_STAT.STEP = 9 ∧ (max 1 (s.get SAF_WD_CFG.WD_LIMIT) ≤ t.get SAF_WD_STAT.WD_CNT → t.get SAF_STAT.WD_STOP =
    1 ∧ bit (t.get SAF_SRC.SRC) 9)) ∧
  (∀ (s : State) (o : BootObs), s.runs 3 → s.get SAF_STAT.WD_STOP = 0 → s.boot.failing = false → s.boot.kind = 0 → ∃ t, exec (.lockstepError o) s =
    .next t ∧ t.get SAF_WD_STAT.WD_CAUSE = 3 ∧ t.get SAF_WD_STAT.WD_TOTAL = min (s.get SAF_WD_STAT.WD_TOTAL + 1) (2 ^ SAF_WD_STAT.WD_TOTAL.w - 1) ∧
    t.get SYS_RST_CAUSE.LAST = 4 ∧ t.get SYS_BOOT_STAT.STEP = 9 ∧ t.boot.kind = 0)

/-- Results of the update manager's commands: what each leaves, and that it completes. Chapters: 21_updates_service_life. Operands stand for what
the module observes (log 5) and open values are free (log 6); where a clause rests on another choice of the model, the log entries are 21, 64,
69, 80, 81, 144. -/
def Obligations.UpdateResults : Prop :=
  (∀ (s : State) (sess w : Nat), s.wordStatus UPD_FL_DATA.DATA.addr = 0 → s.level sess = 3 → s.get UPD_FL_CMD.FL_BUSY = 0 → s.flRefusal (s.get
    UPD_FL_ADDR.ADDR / 4 * 4) = 0 → ∃ t, exec (.flashProgram sess w) s = .next t ∧ t.upd.fl = some { addr := s.get UPD_FL_ADDR.ADDR / 4 * 4, word := some (BitVec.ofNat 32 w) }
    ∧ t.get UPD_FL_CMD.FL_BUSY = 1 ∧ t.get UPD_FL_ADDR.ADDR = (s.get UPD_FL_ADDR.ADDR + 4) % 2 ^ 26 ∧ t.flash = s.flash) ∧
  (∀ (s : State) (sess w : Nat), s.wordStatus UPD_FL_DATA.DATA.addr = 0 → s.level sess = 3 → s.get UPD_FL_CMD.FL_BUSY = 0 → 0x2A00000 ≤ s.get
    UPD_FL_ADDR.ADDR → ∃ t, exec (.flashProgram sess w) s = .next t ∧ t.get UPD_FL_CMD.STATUS = 3 ∧ t.upd = s.upd ∧ t.flash = s.flash) ∧
  (∀ (s : State) (sess w : Nat), s.wordStatus UPD_FL_DATA.DATA.addr = 0 → s.level sess ≠ 3 → ∃ t, exec (.flashProgram sess w) s = .next t ∧ t.upd =
    s.upd ∧ t.regs = s.regs ∧ Outs s t [⟨.status, sess, [2]⟩]) ∧
  (∀ (s : State) (sess : Nat), s.wordStatus UPD_FL_CMD.ERASE.addr = 0 → s.level sess = 3 → s.get UPD_FL_CMD.FL_BUSY = 0 → s.flRefusal (s.get
    UPD_FL_ADDR.ADDR / 4 * 4) = 0 → exec (.flashErase sess) s = .next ({ s.put UPD_FL_CMD.FL_BUSY 1 with upd := { s.upd with fl := some { addr := s.get UPD_FL_ADDR.ADDR / 4 * 4, word := none } } }))
    ∧
  (∀ (s : State) (sess : Nat), s.wordStatus UPD_FL_CMD.ERASE.addr = 0 → s.level sess = 3 → s.get UPD_FL_CMD.FL_BUSY = 0 → s.get UPD_FL_ADDR.ADDR <
    0x400000 → s.updN.cfg = some (s.get UPD_FL_ADDR.ADDR / 0x200000) → exec (.flashErase sess) s = .next (s.put UPD_FL_CMD.STATUS 2)) ∧
  (∀ (s : State) (ok : Bool) (a : Nat) (v : Word), s.runs 3 → s.upd.fl = some { addr := a, word := some v } → ok → s.flLe a 4 = 0xFFFFFFFF → ∃ t, exec
    (.flashDone ok) s = .next t ∧ t.flBytes a 4 = leBytes 4 v.toNat ∧ t.get UPD_FL_CMD.FL_BUSY = 0 ∧ t.get UPD_FL_CMD.STATUS = 1 ∧ t.upd.fl = none)
    ∧
  (∀ (s : State) (ok : Bool) (a b : Nat), s.runs 3 → s.upd.fl = some { addr := a, word := none } → ok → b / 0x10000 = a / 0x10000 → ∃ t, exec
    (.flashDone ok) s = .next t ∧ t.flByte b = 0xFF ∧ t.get UPD_FL_CMD.FL_BUSY = 0 ∧ t.get UPD_FL_CMD.STATUS = 1 ∧ t.upd.fl = none) ∧
  (∀ (s : State) (ok : Bool) (f : FlOp), s.runs 3 → s.upd.fl = some f → ok = false → ∃ t, exec (.flashDone ok) s = .next t ∧ t.get UPD_FL_CMD.FL_BUSY
    = 0 ∧ t.get UPD_FL_CMD.STATUS = 4 ∧ t.upd.fl = none) ∧
  (∀ (s : State) (sess : Nat) (verified : Bool), s.writeStatus sess UPD_FW_CMD.GO = 0 → s.get UPD_STAT.BUSY = 0 → s.updN.unit1 = false → s.get
    MET_SEAL.SEALED = 0 → s.fwOk 1 (1 - s.fwBank 1) verified → ∃ t, exec (.firmwareSwitch sess 1 verified) s = .next t ∧ t.get UPD_FW_CMD.UNIT = 1 ∧
    t.get UPD_FW_CMD.STATUS = 1 ∧ t.get UPD_STAT.BUSY = 1 ∧ t.get UPD_STAT.OP = 2 ∧ t.updN.unit1 ∧ t.boot = s.boot) ∧
  (∀ (s : State) (sess u : Nat) (verified : Bool), s.writeStatus sess UPD_FW_CMD.GO = 0 → s.get UPD_STAT.BUSY = 1 → ∃ t, exec (.firmwareSwitch sess u
    verified) s = .next t ∧ t.get UPD_FW_CMD.UNIT = u % 8 ∧ t.get UPD_FW_CMD.STATUS = 7 ∧ t.updN = s.updN ∧ t.boot = s.boot) ∧
  (∀ (s : State) (sess : Nat) (verified : Bool), s.writeStatus sess UPD_FW_CMD.GO = 0 → s.get UPD_STAT.BUSY = 0 → s.updN.unit1 = false → s.get
    MET_SEAL.SEALED = 1 → ∃ t, exec (.firmwareSwitch sess 1 verified) s = .next t ∧ t.get UPD_FW_CMD.STATUS = 6 ∧ t.updN = s.updN) ∧
  (∀ (s : State) (sess u : Nat) (verified : Bool), s.writeStatus sess UPD_FW_CMD.GO = 0 → s.get UPD_STAT.BUSY = 0 → s.updN.unit1 = false → u < 8 → u ≠
    1 → verified = false → ∃ t, exec (.firmwareSwitch sess u verified) s = .next t ∧ t.get UPD_FW_CMD.UNIT = u ∧ t.get UPD_FW_CMD.STATUS = 4 ∧
    t.updN = s.updN ∧ t.boot = s.boot) ∧
  (∀ (s : State) (sess : Nat) (verified : Bool), s.writeStatus sess UPD_FW_CMD.GO = 0 → s.get UPD_STAT.BUSY = 0 → s.updN.unit1 = false → s.fwOk 6 (1
    - s.fwBank 6) verified → s.domainRefusal 0x800 = 0 → s.boot.kind = 0 → s.boot.failing = false → ∃ t, exec (.firmwareSwitch sess 6 verified) s =
    .next t ∧ t.boot.kind = 7 ∧ t.boot.doms = 0x800 ∧ t.switchOf 6 = some (s.fwBank 6) ∧ t.boot.swRun = some 6 ∧ bit (t.get UPD_FW_CTRL.NEXT) 6 =
    (s.fwBank 6 == 0) ∧ t.get UPD_FW_CMD.STATUS = 1 ∧ t.get SYS_RST_CAUSE.LAST = 7) ∧
  (∀ (s : State) (ms waited : Nat) (ready : Bool), ms = 500 → 50 ≤ waited → s.updN.unit1 → s.get UPD_STAT.OP = 2 → ∃ t, exec
    (.metrologyFirmwareSwitch ms waited ready) s = .next t ∧ bit t.updN.act 1 = (s.fwBank 1 == 0) ∧ t.updN.unit1 = false ∧ t.get UPD_FW_CMD.STATUS = 2
    ∧ t.get UPD_STAT.BUSY = 0 ∧ t.get UPD_STAT.OP = 0 ∧ t.get MET_FW_DIG.DIG = s.metFwDig (1 - s.fwBank 1) ∧ (ready = false → t.switchOf 1 = some
    (s.fwBank 1)) ∧ Entered s t [(0x1109, leBytes 4 (s.get MET_FW_DIG.DIG) ++ leBytes 4 (s.metFwDig (1 - s.fwBank 1)))]) ∧
  (∀ (s : State) (ms waited : Nat) (ready : Bool), waited < 50 → exec (.metrologyFirmwareSwitch ms waited ready) s = .next s) ∧
  (∀ (s : State) (u ms : Nat) (o : BootObs) (old : Nat), s.switchOf u = some old → s.boot.kind = 0 → u = 1 → 100 ≤ ms → ∃ t, exec (.firmwareRevert u
    ms o) s = .next t ∧ t.switchOf u = none ∧ t.get UPD_FW_CMD.STATUS = 3 ∧ bit t.updN.act 1 = decide (old = 1) ∧ Entered s t [(0x1109, leBytes 4
    (s.get MET_FW_DIG.DIG) ++ leBytes 4 (s.metFwDig old))] ∧ (s.evr.mor.length + 1 < s.get EVR_CFG.MOR_WARN → s.evr.mor.length < 8191 → Logged s t
    [(0x1105, 4, [1])])) ∧
  (∀ (s : State) (u ms : Nat) (o : BootObs) (old : Nat), s.switchOf u = some old → s.boot.kind = 0 → u ≠ 1 → 1000 ≤ ms → s.unitIsReady u → exec
    (.firmwareRevert u ms o) s = .next (s.switchDrop u)) ∧
  (∀ (s : State) (u ms : Nat) (o : BootObs) (old : Nat), s.switchOf u = some old → s.boot.kind = 0 → s.boot.failing = false → u = 6 → 1000 ≤ ms →
    s.unitIsReady u = false → ∃ t, exec (.firmwareRevert u ms o) s = .next t ∧ t.switchOf u = none ∧ t.get UPD_FW_CMD.STATUS = 3 ∧ bit (t.get
    UPD_FW_CTRL.NEXT) 6 = decide (old = 1) ∧ t.get SYS_RST_CAUSE.LAST = 7 ∧ t.boot.kind = 0) ∧
  (∀ (s : State) (sess sect bank : Nat) (atStamp verified : Bool) (e0 : Sect), s.writeStatus sess UPD_SECT_CMD.GO = 0 → s.get UPD_STAT.BUSY = 0 →
    s.updN.unit1 = false → sect < 0x14 → bank < 2 → s.findSect bank sect = some e0 → s.sectCheck e0 verified = 0 → atStamp = false → ∃ t, exec
    (.sectionReload sess sect bank atStamp verified) s = .next t ∧ t.upd.reload = some ⟨sect, (s.stamp / 2 ^ 24 + 1) * 2 ^ 24, s.entries e0, 0⟩ ∧
    t.get UPD_SECT_CMD.STATUS = 1 ∧ t.get UPD_SECT_CMD.SECT = sect ∧ t.get UPD_STAT.BUSY = 1 ∧ t.get UPD_STAT.OP = 1 ∧ t.get UPD_SECT_RES.APPLIED = 0
    ∧ t.get UPD_SECT_RES.REFUSED = 0 ∧ t.get UPD_SECT_REF.FIRST_REF = 0) ∧
  (∀ (s : State) (sess sect bank : Nat) (atStamp verified : Bool), s.writeStatus sess UPD_SECT_CMD.GO = 0 → s.get UPD_STAT.BUSY = 1 → sect < 0x100 →
    bank < 2 → ∃ t, exec (.sectionReload sess sect bank atStamp verified) s = .next t ∧ t.get UPD_SECT_CMD.STATUS = 6 ∧ t.upd = s.upd ∧ Logged s t
    [(0x1102, 3, [sect, 6])]) ∧
  (∀ (s : State) (sess sect bank : Nat) (atStamp verified : Bool), s.writeStatus sess UPD_SECT_CMD.GO = 0 → s.get UPD_STAT.BUSY = 0 → s.updN.unit1 =
    false → sect < 0x14 → bank < 2 → s.findSect bank sect = none → ∃ t, exec (.sectionReload sess sect bank atStamp verified) s = .next t ∧ t.get
    UPD_SECT_CMD.STATUS = 4 ∧ t.upd = s.upd ∧ Logged s t [(0x1102, 3, [sect, 4])]) ∧
  (∀ (s : State) (r0 : Reload), s.boot.d2 = [] → s.upd.reload = some r0 → s.runs 3 → r0.target ≤ s.stamp → s.laWaits = false → r0.sect < 0x14 →
    r0.entries = [] → ∃ t, exec (.sectionApply) s = .next t ∧ t.upd.reload = none ∧ t.get UPD_STAT.BUSY = 0 ∧ t.get UPD_STAT.OP = 0 ∧ t.get
    UPD_STAT.MIXED = 1 ∧ (s.get UPD_SECT_RES.REFUSED = 0 → t.get UPD_SECT_CMD.STATUS = 2) ∧ Logged s t [(0x1101, 2, [r0.sect, 0] ++ leBytes 2 (s.get
    UPD_SECT_RES.REFUSED))]) ∧
  (∀ (s : State) (r0 : Reload) (b0 : Entry), s.boot.d2 = [] → s.upd.reload = some r0 → s.runs 3 → r0.target ≤ s.stamp → s.laWaits = false → r0.sect
    < 0x14 → r0.entries = [b0] → s.get UPD_SECT_RES.REFUSED = 0 → (s.entryWrite b0).1 → s.wordStatus b0.1 ≠ 0 → ∃ t, exec (.sectionApply) s = .next t
    ∧ t.get UPD_SECT_CMD.STATUS = 3 ∧ t.get UPD_SECT_RES.REFUSED = 1 ∧ t.get UPD_SECT_REF.FIRST_REF = b0.1 % 2 ^ UPD_SECT_REF.FIRST_REF.w ∧ t.get
    UPD_STAT.MIXED = 1) ∧
  (∀ (s : State), s.boot.d2 = [] → s.upd.reload = none → exec (.sectionApply) s = .next s) ∧
  (∀ (s : State) (sess alg : Nat) (verified fwVerified : Bool), s.writeStatus sess UPD_PKG_CMD.GO = 0 → s.pkgCheck alg verified fwVerified = 1 → exec
    (.packageSubmit sess alg verified fwVerified) s = .next (({ s with updN := { s.updN with pkg := s.pkgBytes (s.get UPD_PKG_LEN.LEN) } }.put
    UPD_PKG_CMD.STATUS 1).put UPD_PKG_CMD.PEND 1)) ∧
  (∀ (s : State) (sess alg : Nat) (verified fwVerified : Bool), s.writeStatus sess UPD_PKG_CMD.GO = 0 → s.pkgCheck alg verified fwVerified ≠ 1 →
    s.pkgCheck alg verified fwVerified ≠ 0xA → ∃ t, exec (.packageSubmit sess alg verified fwVerified) s = .next t ∧ t.get UPD_PKG_CMD.STATUS =
    s.pkgCheck alg verified fwVerified ∧ t.updN = s.updN ∧ t.get UPD_PKG_CMD.PEND = s.get UPD_PKG_CMD.PEND ∧ Logged s t [(0x1108, 3, [s.pkgCheck alg
    verified fwVerified])]) ∧
  (∀ (s : State), s.runs 2 → s.get UPD_PKG_CMD.PEND = 1 → s.pkgLe 32 4 ≤ s.get BIL_BT.BT → s.pkgLe 6 2 = 0 → s.pkgLe 5 1 = 2 → ∃ t, exec
    (.packageApply) s = .next t ∧ t.get UPD_PKG_CMD.PEND = 0 ∧ t.updN.pkg = [] ∧ t.get MET_SEAL.SEALED = 0 ∧ t.get MET_SEAL.SEAL_CNT = min (s.get
    MET_SEAL.SEAL_CNT + 1) (2 ^ MET_SEAL.SEAL_CNT.w - 1) ∧ t.get UPD_SEAL_CNT.UCNT = (s.get UPD_SEAL_CNT.UCNT + 1) % 2 ^ 32 ∧ t.updN.unit1 =
    (s.updN.unit1 || s.pkgLe 28 4 != 0) ∧ Entered s t [(0x080A, []), (0x1107, leBytes 4 (t.get UPD_SEAL_CNT.UCNT) ++ leBytes 4 (s.get
    MET_PARAM_DIG.DIG) ++ leBytes 4 (s.get BIL_DIG.BIL_DIG))]) ∧
  (∀ (s : State), s.get UPD_PKG_CMD.PEND = 0 → exec (.packageApply) s = .next s) ∧
  (∀ (s : State) (sess req : Nat), s.writeStatus sess UPD_RECAL.REQ = 0 → s.get UPD_RECAL.BUSY = 0 → 0 < req → req < 64 → ∃ t, exec (.recalibration
    sess req) s = .next t ∧ t.get UPD_RECAL.BUSY = 1 ∧ t.upd.recal = clrBits req (t.get UPD_RECAL.REFUSED) ∧ bit t.upd.recal 3 = (bit req 3 && s.get
    TB_STAT.SRC != 1) ∧ bit t.upd.recal 0 = (bit req 0 && s.phasesOff 0) ∧ bit t.upd.recal 1 = (bit req 1 && s.phasesOff 1) ∧ bit t.upd.recal 2 =
    bit req 2) ∧
  (∀ (s : State) (sess req : Nat), s.writeStatus sess UPD_RECAL.REQ = 0 → s.get UPD_RECAL.BUSY = 1 → exec (.recalibration sess req) s = .next s) ∧
  (∀ (s : State) (fails : Nat), s.runs 3 → s.get UPD_RECAL.BUSY = 1 → ∃ t, exec (.recalibrationDone fails) s = .next t ∧ t.get UPD_RECAL.BUSY = 0 ∧
    t.upd.recal = 0 ∧ t.boot.cal = clrBits s.boot.cal s.upd.recal ||| Nat.land fails s.upd.recal ∧ t.get SYS_CAL_STAT.FAIL = t.boot.cal % 2 ^
    SYS_CAL_STAT.FAIL.w) ∧
  (∀ (s : State), s.runs 2 → s.get UPD_PKG_CMD.PEND = 1 → s.pkgLe 32 4 = 0 → s.pkgLe 5 1 = 1 → ∃ t, exec (.packageApply) s = .next t ∧ t.get
    UPD_PKG_CMD.PEND = 0 ∧ t.updN.pkg = [] ∧ t.updN.unit1 = (s.updN.unit1 || s.pkgLe 28 4 != 0))

/-- Results of register access, sessions and the gateway: what each leaves, and that it completes. Chapters: 00_scope, 22_management_map,
23_test_access. Operands stand for what the module observes (log 5) and open values are free (log 6); where a clause rests on another choice of
the model, the log entries are 45, 67, 68, 71, 73, 74, 75, 76, 77, 78, 79, 82, 83, 92, 142. -/
def Obligations.ManagementAccessResults : Prop :=
  (∀ (s : State) (sess val mask : Nat), 2 ≤ s.level sess → s.runs 3 → ∃ t, exec (.registerWrite sess 0x184 val mask) s = .next t ∧ t.word 0x184 =
    (s.word 0x184 &&& ~~~(BitVec.ofNat 32 mask)) ||| (BitVec.ofNat 32 val &&& BitVec.ofNat 32 mask) ∧ Outs s t [⟨.status, sess, [0]⟩]) ∧
  (∀ (s : State) (sess a val mask : Nat), fieldsAt a = [] → exec (.registerWrite sess a val mask) s = .next (s.report sess 1)) ∧
  (∀ (s : State) (sess a val mask : Nat), a % 4 = 0 → fieldsAt a ≠ [] → s.offInRole (a / 0x10000) → exec (.registerWrite sess a val mask) s = .next
    (s.report sess 4)) ∧
  (∀ (s : State) (sess val mask : Nat), s.level sess < 2 → s.runs 3 → mask % 2 ^ 32 ≠ 0 → exec (.registerWrite sess 0x184 val mask) s = .next
    (s.report sess 2)) ∧
  (∀ (s : State) (ip port node : Nat) (bytes : List Nat), s.ethRuns → node ≠ 0 → node ≠ s.get FAB_STAT.NODE_ID → s.get SYS_NET_CFG.RELAY_EN = 1 →
    (s.get FAB_STAT.STATE = 4 ∨ s.get FAB_STAT.STATE = 5) → bytes.length ≤ 508 → ((s.mg.relays.find? fun e => e.ip == ip && e.port == port && e.node
    == node) = none) → s.mg.relays.length < 64 → s.fab.hold → ∃ t, exec (.gatewayRelay ip port node none bytes) s = .next t ∧ t.mg.relays =
    s.mg.relays ++ [{ ip := ip, port := port, node := node, tag := ({ s with fresh := s.fresh + 1 } : State).relayTag (s.free 16).1 }] ∧ t.get
    SYS_MGMT_STAT.N_RELAY = t.mg.relays.length ∧ t.fab.inject.length = s.fab.inject.length + 1 ∧ t.out = s.out) ∧
  (∀ (s : State) (ip port node : Nat) (bytes : List Nat), s.ethRuns → node ≠ 0 → node ≠ s.get FAB_STAT.NODE_ID → s.get SYS_NET_CFG.RELAY_EN = 0 → exec
    (.gatewayRelay ip port node none bytes) s = .next (s.relayError ip port node 1)) ∧
  (∀ (s : State) (ip port node : Nat) (bytes : List Nat) (tag : Nat) (r : Relay), s.ethRuns → ((s.mg.relays.find? fun e => e.tag == tag && e.node ==
    node) = some r) → exec (.gatewayRelay ip port node (some tag) bytes) s = .next (s.emit .relay r.ip ([r.port, 1, 0] ++ leBytes 2 node ++ [0, 0,
    0, 0] ++ bytes))) ∧
  (∀ (s : State) (tag secs : Nat), s.runs 3 → 120 ≤ secs → ∃ t, exec (.relayEntryExpiry tag secs) s = .next t ∧ (t.mg.relays = s.mg.relays.filter fun
    e => e.tag != tag) ∧ t.get SYS_MGMT_STAT.N_RELAY = t.mg.relays.length % 2 ^ SYS_MGMT_STAT.N_RELAY.w) ∧
  (∀ (s : State) (tag secs : Nat), secs < 120 → exec (.relayEntryExpiry tag secs) s = .next s) ∧
  (∀ (s : State) (i : Nat) (gateway : Option Nat) (adm opr obs : Bool), i < 8 → s.runs 3 → s.runs 9 → s.get SYS_NET_CFG.ETH_EN = 1 → s.get
    SYS_SESS.STATE i ≠ 2 → s.slotServes 0 0 → s.anchorGrants SYS_MGMT_CFG.ADM_ANCHOR adm → (∀ n, gateway = some n → n < 4096) → s.get
    SYS_TIME_STAT.RTC_SET = 1 → ∃ t, exec (.handshake i gateway ⟨true, []⟩ adm opr obs) s = .next t ∧ t.get SYS_SESS.STATE i = 2 ∧ t.level i = 3 ∧
    (t.get SYS_SESS.VIA i = (if gateway.isSome then 1 else 0)) ∧ t.get SYS_SESS.PEER i = gateway.getD 0 ∧ t.get SYS_SESS.N_SUB i = 0 ∧ t.ses i =
    { anchor := s.get SYS_MGMT_CFG.ADM_ANCHOR } ∧ t.get SYS_MGMT_STAT.N_SESS = t.openSessions.length ∧ (Logged s t [(0x0020, 1, [i, 3, if
    gateway.isSome then 1 else 0, 0] ++ leBytes 2 (gateway.getD 0))])) ∧
  (∀ (s : State) (i : Nat) (gateway : Option Nat) (bad : List Nat) (adm opr obs : Bool), i < 8 → s.runs 3 → s.runs 9 → s.get SYS_NET_CFG.ETH_EN = 1
    → s.get SYS_SESS.STATE i ≠ 2 → s.kvReady → (∀ n, gateway = some n → n < 4096) → ∃ t, exec (.handshake i gateway ⟨false, bad⟩ adm opr obs) s =
    .next t ∧ t.get SYS_SESS.STATE i = 1 ∧ t.level i = 0 ∧ t.evr = s.evr) ∧
  (∀ (s : State) (i : Nat) (gateway : Option Nat) (adm opr obs : Bool), i < 8 → s.runs 3 → s.runs 9 → s.get SYS_NET_CFG.ETH_EN = 1 → s.get
    SYS_SESS.STATE i ≠ 2 → s.slotServes 0 0 → s.chainLevel adm opr obs = none → ∃ t, exec (.handshake i gateway ⟨true, []⟩ adm opr obs) s = .next t ∧
    t.level i = 0 ∧ t.get SYS_SESS.STATE i ≠ 1 ∧ t.get SYS_MGMT_STAT.REFUSED = min (s.get SYS_MGMT_STAT.REFUSED + 1) (2 ^ SYS_MGMT_STAT.REFUSED.w - 1)
    ∧ Logged s t [(0x0022, 3, [1])]) ∧
  (∀ (s : State) (i : Nat) (gateway : Option Nat) (adm opr obs : Bool), i < 8 → s.runs 3 → s.runs 9 → s.get SYS_NET_CFG.ETH_EN = 1 → s.get
    SYS_SESS.STATE i ≠ 2 → s.slotServes 0 0 → ∃ t, exec (.handshake i gateway ⟨true, [0]⟩ adm opr obs) s = .next t ∧ t.level i = 0 ∧ (t.slot 0).bad ∧
    Logged s t [(0x0F05, 4, [0]), (0x0022, 3, [4])]) ∧
  (∀ (s : State) (i secs : Nat), i < 8 → s.runs 3 → s.get SYS_SESS.STATE i = 1 → 10 ≤ secs → ∃ t, exec (.handshakeTimeout i secs) s = .next t ∧ t.get
    SYS_SESS.STATE i = 0 ∧ t.get SYS_MGMT_STAT.REFUSED = min (s.get SYS_MGMT_STAT.REFUSED + 1) (2 ^ SYS_MGMT_STAT.REFUSED.w - 1) ∧ Logged s t
    [(0x0022, 3, [3])]) ∧
  (∀ (s : State) (i secs : Nat), secs < 10 → exec (.handshakeTimeout i secs) s = .next s) ∧
  (∀ (s : State) (i secs : Nat), s.level i ≠ 0 → s.level i ≠ 3 → s.runs 3 → max 10 (s.get SYS_MGMT_CFG.IDLE_T) ≤ secs → ∃ t, exec (.sessionIdleClose i
    secs) s = .next t ∧ t.get SYS_SESS.STATE i = 0 ∧ t.level i = 0 ∧ t.ses i = {} ∧ t.get SYS_MGMT_STAT.N_SESS = t.openSessions.length ∧ Logged s t
    [(0x0021, 1, [i, 2])]) ∧
  (∀ (s : State) (i secs : Nat), secs < 10 → exec (.sessionIdleClose i secs) s = .next s) ∧
  (∀ (s : State) (sess out code : Nat), out < 6 → s.wordStatus TMX_SEL_A.SEL.addr = 0 → 2 ≤ s.level sess → code < 256 → s.tmxRefusal sess out code = 0
    → ∃ t, exec (.tmxSelect sess out code) s = .next t ∧ t.tmxCode out = code ∧ t.get TMX_CTRL.STATUS = 1 ∧ Logged s t [(0x1301, 1, [out, code])]) ∧
  (∀ (s : State) (sess out code : Nat), out < 6 → s.wordStatus TMX_SEL_A.SEL.addr = 0 → 2 ≤ s.level sess → code < 256 → s.tmxRefusal sess out code ≠ 0
    → ∃ t, exec (.tmxSelect sess out code) s = .next t ∧ t.tmxCode out = s.tmxCode out ∧ t.get TMX_CTRL.STATUS = s.tmxRefusal sess out code ∧ Logged
    s t [(0x1302, 3, [out, code, s.tmxRefusal sess out code])])

/-- Results of the Coansyn messages that access registers, events and records: what each leaves, and that it completes. Chapters: 22_management_map.
Operands stand for what the module observes (log 5) and open values are free (log 6); where a clause rests on another choice of the model, the log
entries are 45, 67, 68, 71, 73, 74, 75, 76, 77, 78, 79, 83, 86. -/
def Obligations.MessageResults : Prop :=
  (∀ (s : State) (sess id a : Nat), s.level sess ≠ 0 → lookupReq (id % 65536 :: [a].flatMap (leBytes 4)) (s.ses sess).cache = none → a % 4 = 0 → a <
    0x10000 → fieldsAt a ≠ [] → captCount a = 0 → lookupKey a s.capt = none → s.runs 3 → ∃ t, exec (.read sess id [a]) s = .next t ∧ t.out.head? =
    some ⟨.response, sess, msgHead 1 (id % 65536) 8 0 1 ++ (leBytes 4 (s.liveWord sess a).toNat ++ [0, 0, 0, 0])⟩ ∧ t.regs = s.regs) ∧
  (∀ (s : State) (sess id a : Nat), s.level sess ≠ 0 → lookupReq (id % 65536 :: [a].flatMap (leBytes 4)) (s.ses sess).cache = none → fieldsAt a = [] →
    ∃ t, exec (.read sess id [a]) s = .next t ∧ t.out.head? = some ⟨.response, sess, msgHead 1 (id % 65536) 8 (s.free 8).1 1 ++ (leBytes 4 0 ++ [1,
    0, 0, 0])⟩ ∧ t.regs = s.regs) ∧
  (∀ (s : State) (sess id : Nat) (addrs : List Nat), s.level sess ≠ 0 → lookupReq (id % 65536 :: addrs.flatMap (leBytes 4)) (s.ses sess).cache = none
    → 64 < addrs.length → ∃ t, exec (.read sess id addrs) s = .next t ∧ t.out.head? = some ⟨.response, sess, msgHead 1 (id % 65536) 0 7 1 ++ []⟩ ∧
    t.regs = s.regs) ∧
  (∀ (s : State) (sess id v m : Nat), s.level sess ≠ 0 → (lookupReq (id % 65536 :: ([(0x184, v, m)].flatMap fun e => leBytes 4 e.1 ++ leBytes 4 e.2.1
    ++ leBytes 4 e.2.2)) (s.ses sess).cache = none) → 2 ≤ s.level sess → s.runs 3 → ∃ t, exec (.write sess id [(0x184, v, m)]) s = .next t ∧ t.word
    0x184 = ((s.word 0x184 &&& ~~~(BitVec.ofNat 32 m)) ||| (BitVec.ofNat 32 v &&& BitVec.ofNat 32 m)) ∧ t.out.head? = some ⟨.response, sess, msgHead
    2 (id % 65536) 1 0 1 ++ [0]⟩) ∧
  (∀ (s : State) (sess id v m : Nat), s.level sess = 1 → (lookupReq (id % 65536 :: ([(0x184, v, m)].flatMap fun e => leBytes 4 e.1 ++ leBytes 4 e.2.1
    ++ leBytes 4 e.2.2)) (s.ses sess).cache = none) → s.runs 3 → m % 2 ^ 32 ≠ 0 → ∃ t, exec (.write sess id [(0x184, v, m)]) s = .next t ∧ t.regs =
    s.regs ∧ t.out.head? = some ⟨.response, sess, msgHead 2 (id % 65536) 1 (s.free 8).1 1 ++ [2]⟩) ∧
  (∀ (s : State) (sess id a : Nat), s.level sess ≠ 0 → lookupReq (id % 65536 :: leBytes 4 a ++ leBytes 2 2 ++ [0, 0]) (s.ses sess).cache = none → a %
    4 = 0 → a < 0x10000 → fieldsAt a ≠ [] → captCount a = 0 → lookupKey a s.capt = none → s.runs 3 → ∃ t, exec (.blockRead sess id true a 2) s =
    .next t ∧ t.out.head? = some ⟨.response, sess, msgHead 3 (id % 65536) 8 0 3 ++ (leBytes 4 (s.liveWord sess a).toNat ++ leBytes 4 (s.liveWord
    sess a).toNat)⟩ ∧ t.regs = s.regs) ∧
  (∀ (s : State) (sess id : Nat) (fixed : Bool) (a n : Nat), s.level sess ≠ 0 → lookupReq (id % 65536 :: leBytes 4 a ++ leBytes 2 n ++ [0, 0]) (s.ses
    sess).cache = none → 0 < n → n ≤ 112 → fieldsAt a = [] → ∃ t, exec (.blockRead sess id fixed a n) s = .next t ∧ (t.out.head? = some ⟨.response,
    sess, msgHead 3 (id % 65536) 0 1 (if fixed then 3 else 1) ++ []⟩) ∧ t.regs = s.regs) ∧
  (∀ (s : State) (sess id : Nat) (fixed : Bool) (v : Nat), s.level sess ≠ 0 → lookupReq (id % 65536 :: leBytes 4 0x184 ++ leBytes 2 1 ++ [0, 0] ++
    leBytes 4 v) (s.ses sess).cache = none → 2 ≤ s.level sess → s.runs 3 → ∃ t, exec (.blockWrite sess id fixed 0x184 [v]) s = .next t ∧ t.word
    0x184 = BitVec.ofNat 32 v ∧ (t.out.head? = some ⟨.response, sess, msgHead 4 (id % 65536) 2 0 (if fixed then 3 else 1) ++ leBytes 2 1⟩)) ∧
  (∀ (s : State) (sess id : Nat) (fixed : Bool) (a : Nat) (words : List Nat), s.level sess ≠ 0 → lookupReq (id % 65536 :: leBytes 4 a ++ leBytes 2
    words.length ++ [0, 0] ++ words.flatMap (leBytes 4)) (s.ses sess).cache = none → words ≠ [] → words.length ≤ 112 → fieldsAt a = [] → ∃ t, exec
    (.blockWrite sess id fixed a words) s = .next t ∧ t.regs = s.regs ∧ (t.out.head? = some ⟨.response, sess, msgHead 4 (id % 65536) 2 1 (if fixed
    then 3 else 1) ++ leBytes 2 0⟩)) ∧
  (∀ (s : State) (sess id : Nat) (fixed : Bool) (sub mode period a n : Nat), s.level sess ≠ 0 → lookupReq (id % 65536 :: [sub, mode] ++ leBytes 2
    period ++ leBytes 4 a ++ leBytes 2 n ++ [0, 0]) (s.ses sess).cache = none → mode ≤ 1 → 0 < n → n ≤ 16 → 10 ≤ period → period ≤ 65535 → (eraseKey
    sub (s.ses sess).subs).length < 16 → subWords (eraseKey sub (s.ses sess).subs) + n ≤ 128 → ∃ t, exec (.subscribe sess id fixed sub mode period a
    n) s = .next t ∧ (t.ses sess).subs = eraseKey sub (s.ses sess).subs ++ [(sub, { mode := mode, period := period, addr := a, count := n, fixed := fixed, seq := (s.free 16).1 })]
    ∧ t.get SYS_SESS.N_SUB sess = (t.ses sess).subs.length ∧ (t.out.head? = some ⟨.response, sess, msgHead 5 (id % 65536) 0 0 (if fixed then 3 else
    1) ++ []⟩)) ∧
  (∀ (s : State) (sess id : Nat) (fixed : Bool) (sub mode period a n : Nat), s.level sess ≠ 0 → lookupReq (id % 65536 :: [sub, mode] ++ leBytes 2
    period ++ leBytes 4 a ++ leBytes 2 n ++ [0, 0]) (s.ses sess).cache = none → (1 < mode ∨ n = 0 ∨ 16 < n ∨ period = 0 ∨ 65535 < period) → ∃ t,
    exec (.subscribe sess id fixed sub mode period a n) s = .next t ∧ (t.ses sess).subs = (s.ses sess).subs ∧ t.regs = s.regs ∧ (t.out.head? = some
    ⟨.response, sess, msgHead 5 (id % 65536) 0 6 (if fixed then 3 else 1) ++ []⟩)) ∧
  (∀ (s : State) (sess id sub : Nat), s.level sess ≠ 0 → lookupReq (id % 65536 :: [sub]) (s.ses sess).cache = none → ∃ t, exec (.unsubscribe sess id
    sub) s = .next t ∧ ((t.ses sess).subs = if sub = 0xFF then [] else eraseKey sub (s.ses sess).subs) ∧ t.get SYS_SESS.N_SUB sess = (t.ses
    sess).subs.length % 2 ^ SYS_SESS.N_SUB.w ∧ t.out.head? = some ⟨.response, sess, msgHead 6 (id % 65536) 0 0 1 ++ []⟩) ∧
  (∀ (s : State) (sess sub hc : Nat) (x : Sub), lookupKey sub (s.ses sess).subs = some x → s.level sess ≠ 0 → x.period ≤ hc → x.mode = 0 → x.count = 1
    → x.addr % 4 = 0 → x.addr < 0x10000 → fieldsAt x.addr ≠ [] → captCount x.addr = 0 → lookupKey x.addr s.capt = none → s.runs 3 → ∃ t, exec
    (.notify sess sub hc) s = .next t ∧ t.out = ⟨.notify, sess, msgHead 7 0 24 0 0 ++ ([sub, 0] ++ leBytes 2 x.seq ++ leBytes 8 s.keeper ++ leBytes
    4 s.rtc ++ [0, 0, 0, 0] ++ leBytes 4 (s.liveWord sess x.addr).toNat)⟩ :: s.out ∧ lookupKey sub (t.ses sess).subs = some { x with last := some [(s.liveWord sess x.addr).toNat], seq := (x.seq + 1) % 65536 })
    ∧
  (∀ (s : State) (sess sub hc : Nat) (x : Sub), lookupKey sub (s.ses sess).subs = some x → hc < x.period → exec (.notify sess sub hc) s = .next s) ∧
  (∀ (s : State) (sess id mask sev : Nat), s.level sess ≠ 0 → lookupReq (id % 65536 :: [mask, sev]) (s.ses sess).cache = none → (s.ses sess).mask = 0
    → ∃ t, exec (.events sess id mask sev) s = .next t ∧ (t.ses sess).mask = mask % 4 ∧ (t.ses sess).sev = sev ∧ (t.ses sess).nextOp = s.get
    EVR_OP_SEQ.SEQ ∧ (t.ses sess).nextMor = s.get EVR_MOR_SEQ.SEQ ∧ t.regs = s.regs ∧ t.out.head? = some ⟨.response, sess, msgHead 8 (id % 65536) 0
    0 1 ++ []⟩) ∧
  (∀ (s : State) (sess : Nat) (r : Held), s.level sess ≠ 0 → (s.ses sess).mask = 1 → waiting s.evr.op (s.ses sess).nextOp (s.ses sess).sev = [r] →
    (s.ses sess).second ≠ s.rtc → (s.ses sess).dropped = 0 → ∃ t, exec (.records sess) s = .next t ∧ Outs s t [⟨.records, sess, msgHead 9 0 (8 +
    r.rcd.bytes.length) 0 0 ++ ([1, 0] ++ leBytes 2 0 ++ (leBytes 4 r.seq ++ r.rcd.bytes))⟩] ∧ t.out.length = s.out.length + 1 ∧ (t.ses sess).nextOp
    = s.get EVR_OP_SEQ.SEQ ∧ (t.ses sess).sent = 1 ∧ (t.ses sess).second = s.rtc ∧ t.evr = s.evr) ∧
  (∀ (s : State) (sess : Nat), (s.ses sess).mask = 0 → exec (.records sess) s = .next s) ∧
  (∀ (s : State) (sess id : Nat), s.level sess ≠ 0 → lookupReq [id % 65536] (s.ses sess).cache = none → ∃ t, exec (.ping sess id) s = .next t ∧ t.regs
    = s.regs ∧ (t.ses sess).cache = (([id % 65536], msgHead 0xF (id % 65536) 0 0 1) :: (s.ses sess).cache).take 32 ∧ t.out = ⟨.response, sess,
    msgHead 0xF (id % 65536) 0 0 1⟩ :: s.out) ∧
  (∀ (s : State) (sess id : Nat) (r : List Nat), s.level sess ≠ 0 → lookupReq [id % 65536] (s.ses sess).cache = some r → exec (.ping sess id) s =
    .next (s.emit .response sess (r.set 7 (r.getD 7 0 ||| 4)))) ∧
  (∀ (s : State) (sess id : Nat) (alert : Bool), s.level sess ≠ 0 → s.level sess ≠ 3 → alert → ∃ t, exec (.close sess id alert) s = .next t ∧ t.get
    SYS_SESS.STATE sess = 0 ∧ t.ses sess = {} ∧ t.out = s.out ∧ Logged s t [(0x0021, 1, [sess, 1])]) ∧
  (∀ (s : State) (sess id : Nat) (alert : Bool), s.level sess ≠ 0 → s.level sess ≠ 3 → alert = false → lookupReq [id % 65536] (s.ses sess).cache =
    none → ∃ t, exec (.close sess id alert) s = .next t ∧ t.get SYS_SESS.STATE sess = 0 ∧ t.ses sess = {} ∧ t.out = ⟨.dtls, sess, [0]⟩ ::
    ⟨.response, sess, msgHead 0x10 (id % 65536) 0 0 1⟩ :: s.out ∧ Logged s t [(0x0021, 1, [sess, 1])])

/-- Results of the Coansyn messages that act on other nodes, and of UTC: what each leaves, and that it completes. Chapters: 22_management_map.
Operands stand for what the module observes (log 5) and open values are free (log 6); where a clause rests on another choice of the model, the
log entries are 35, 36, 37, 38, 73, 74, 75, 76, 77, 78, 79, 83, 124, 126, 145. -/
def Obligations.RemoteAndTimeResults : Prop :=
  (∀ (s : State) (sess id serial : Nat), s.level sess ≠ 0 → lookupReq (id % 65536 :: leBytes 8 serial) (s.ses sess).cache = none → s.get FAB_STAT.ROOT
    = 1 → serial = s.serial → ∃ t, exec (.locate sess id serial) s = .next t ∧ t.mg.located = some (serial, s.get FAB_STAT.NODE_ID) ∧ t.regs =
    s.regs ∧ t.out.head? = some ⟨.response, sess, msgHead 10 (id % 65536) 5 0 1 ++ (leBytes 2 (s.get FAB_STAT.NODE_ID) ++ [s.get FAB_STAT.LEVEL,
    s.get SYS_ROLE.ROLE_ACT, s.get FAB_STAT.STATE])⟩) ∧
  (∀ (s : State) (sess id serial : Nat), s.level sess ≠ 0 → lookupReq (id % 65536 :: leBytes 8 serial) (s.ses sess).cache = none → s.get FAB_STAT.ROOT
    = 0 → ∃ t, exec (.locate sess id serial) s = .next t ∧ t.mg.located = s.mg.located ∧ t.out.head? = some ⟨.response, sess, msgHead 10 (id %
    65536) 0 9 1 ++ []⟩) ∧
  (∀ (s : State) (sess id dst : Nat) (pay : List Nat) (recent : Nat), s.level sess = 3 → lookupReq (id % 65536 :: leBytes 4 dst ++ pay) (s.ses
    sess).cache = none → pay.length = 40 → s.fab.hold → ∃ t, exec (.launch sess id dst pay recent) s = .next t ∧ t.mg.launches = ((bytesAt pay 12 4,
    sess) :: s.mg.launches).take 64 ∧ t.fab.inject.length = s.fab.inject.length + 1 ∧ t.out.head? = some ⟨.response, sess, msgHead 11 (id % 65536) 0
    0 1 ++ []⟩) ∧
  (∀ (s : State) (sess id dst : Nat) (pay : List Nat) (recent : Nat), s.level sess ≠ 0 → lookupReq (id % 65536 :: leBytes 4 dst ++ pay) (s.ses
    sess).cache = none → s.level sess ≠ 3 → ∃ t, exec (.launch sess id dst pay recent) s = .next t ∧ t.fab = s.fab ∧ t.mg.launches = s.mg.launches ∧
    t.out.head? = some ⟨.response, sess, msgHead 11 (id % 65536) 0 8 1 ++ []⟩) ∧
  (∀ (s : State) (src : Nat) (resp : List Nat) (i : Nat), lookupKey (bytesAt resp 0 4) s.mg.launches = some i → s.level i ≠ 0 → exec (.lresult src
    resp) s = .next (s.unasked .lresult i 0xC (leBytes 2 src ++ [0, 0] ++ resp.take 16))) ∧
  (∀ (s : State) (src : Nat) (resp : List Nat), lookupKey (bytesAt resp 0 4) s.mg.launches = none → exec (.lresult src resp) s = .next s) ∧
  (∀ (s : State) (sess id serial recent n : Nat), s.level sess = 3 → lookupReq (id % 65536 :: leBytes 8 serial) (s.ses sess).cache = none → s.kvReady
    → (s.slot 5).used → serial ≠ s.serial → s.mg.located = some (serial, n) → s.fab.hold → ∃ t, exec (.reset sess id serial recent) s = .next t ∧
    t.mg.rstSent = max s.stamp (s.mg.rstSent + 1) ∧ t.fab.inject.length = s.fab.inject.length + 1 ∧ t.boot = s.boot ∧ t.out.head? = some ⟨.response,
    sess, msgHead 13 (id % 65536) 0 0 1 ++ []⟩) ∧
  (∀ (s : State) (sess id serial recent : Nat), s.level sess = 3 → lookupReq (id % 65536 :: leBytes 8 serial) (s.ses sess).cache = none → s.kvReady =
    false → ∃ t, exec (.reset sess id serial recent) s = .next t ∧ t.mg.rstSent = s.mg.rstSent ∧ t.fab = s.fab ∧ t.out.head? = some ⟨.response,
    sess, msgHead 13 (id % 65536) 0 11 1 ++ []⟩) ∧
  (∀ (s : State) (sess id serial recent : Nat), s.level sess ≠ 0 → lookupReq (id % 65536 :: leBytes 8 serial) (s.ses sess).cache = none → s.level sess
    ≠ 3 → ∃ t, exec (.reset sess id serial recent) s = .next t ∧ t.mg.rstSent = s.mg.rstSent ∧ t.fab = s.fab ∧ t.out.head? = some ⟨.response, sess,
    msgHead 13 (id % 65536) 0 8 1 ++ []⟩) ∧
  (∀ (s : State) (sess id utc frac phase : Nat), s.level sess = 3 → lookupReq (id % 65536 :: leBytes 8 utc ++ leBytes 4 frac) (s.ses sess).cache =
    none → s.get SYS_TIME_CFG.TSRC = 0 → utc < 2 ^ 32 → 1 ≤ ((utc : Int) - (s.rtc : Int)).natAbs - 1 → frac < 2 ^ 32 → phase < 2 ^ 32 → s.get
    BIL_STAT.CLK_ST ≠ 3 → ∃ t, exec (.time sess id utc frac phase) s = .next t ∧ t.get SYS_RTC.UTC = utc ∧ t.get SYS_TIME_STAT.RTC_SET = 1 ∧ t.get
    BIL_SYNC.SYNC_AGE = 0 ∧ Logged s t [(0x0901, 2, leBytes 4 (ofSigned 32 ((utc : Int) - (s.rtc : Int)))), (0x0026, 2, leBytes 4 (ofSigned 32 ((utc
    : Int) - (s.rtc : Int))))] ∧ t.out.head? = some ⟨.response, sess, msgHead 14 (id % 65536) 0 0 1 ++ []⟩) ∧
  (∀ (s : State) (sess id utc frac phase : Nat), s.level sess = 3 → lookupReq (id % 65536 :: leBytes 8 utc ++ leBytes 4 frac) (s.ses sess).cache =
    none → s.get SYS_TIME_CFG.TSRC = 1 → s.get SYS_TIME_STAT.TSTATE = 2 → ∃ t, exec (.time sess id utc frac phase) s = .next t ∧ t.get SYS_RTC.UTC =
    s.get SYS_RTC.UTC ∧ t.regs = s.regs ∧ t.out.head? = some ⟨.response, sess, msgHead 14 (id % 65536) 0 10 1 ++ []⟩) ∧
  (∀ (s : State) (ofs : Int) (utc : Nat) (utcValid : Bool), s.srcRuns 1 → ofs.natAbs ≤ 100000 → 15 ≤ s.mg.syncs → s.get SYS_TIME_STAT.TSTATE ≠ 2 →
    utcValid = false → ∃ t, exec (.ptpSync ofs utc utcValid) s = .next t ∧ t.get SYS_TIME_STAT.TSTATE = 2 ∧ t.geti SYS_TIME_STAT.OFS = ofs / 1000 ∧
    t.mg.syncs = 16 ∧ Logged s t [(0x0023, 2, [1])]) ∧
  (∀ (s : State) (ofs : Int) (utc : Nat) (utcValid : Bool), s.srcRuns 1 → 500000000 ≤ ofs.natAbs → s.get SYS_TIME_STAT.TSTATE ≠ 2 → utcValid → utc < 2
    ^ 32 → ∃ t, exec (.ptpSync ofs utc utcValid) s = .next t ∧ t.get SYS_RTC.UTC = utc ∧ t.get SYS_TIME_STAT.RTC_SET = 1 ∧ t.get
    SYS_TIME_STAT.TSTATE = s.get SYS_TIME_STAT.TSTATE ∧ t.mg.syncs = 0 ∧ Logged s t [(0x0026, 2, leBytes 4 (ofSigned 32 ((utc : Int) - (s.rtc :
    Int))))]) ∧
  (∀ (s : State) (ofs : Int) (utc : Nat) (utcValid : Bool), s.srcRuns 1 → 500000000 ≤ ofs.natAbs → s.get SYS_TIME_STAT.TSTATE = 2 → utcValid → utc < 2
    ^ 32 → s.mg.ptpAt ≠ some s.rtc → s.get BIL_STAT.CLK_ST ≠ 3 → ∃ t, exec (.ptpSync ofs utc utcValid) s = .next t ∧ t.get SYS_RTC.UTC = utc ∧ t.get
    BIL_SYNC.SYNC_AGE = 0 ∧ t.mg.ptpAt = some utc ∧ Logged s t [(0x0901, 2, leBytes 4 (ofSigned 32 ((utc : Int) - (s.rtc : Int)))), (0x0026, 2,
    leBytes 4 (ofSigned 32 ((utc : Int) - (s.rtc : Int))))]) ∧
  (∀ (s : State) (intervals : Nat), s.srcRuns 1 → s.get SYS_TIME_STAT.TSTATE = 2 → 3 ≤ intervals → ∃ t, exec (.ptpLost intervals) s = .next t ∧ t.get
    SYS_TIME_STAT.TSTATE = 3 ∧ t.mg.syncs = 0 ∧ Logged s t [(0x0024, 3, [1])]) ∧
  (∀ (s : State) (intervals : Nat), intervals < 3 → (s.geti SYS_TIME_STAT.OFS).natAbs ≤ 1000 → exec (.ptpLost intervals) s = .next s) ∧
  (∀ (s : State) (secs : Nat), s.srcRuns 2 → 2 ^ clampN 4 10 (s.get SYS_TIME_CFG.NTP_POLL) ≤ secs → ∃ t, exec (.ntpPoll secs) s = .next t ∧ t.mg.polls
    = s.mg.polls + 1 ∧ t.out = ⟨.ntp, s.get SYS_NTP_SRV.ADDR, []⟩ :: s.out ∧ t.regs = s.regs) ∧
  (∀ (s : State) (secs : Nat), secs < 16 → exec (.ntpPoll secs) s = .next s) ∧
  (∀ (s : State) (stratum : Nat) (alarm : Bool) (rootMs : Nat) (ofs : Int) (utc : Nat), s.srcRuns 2 → 1 ≤ stratum → stratum ≤ 15 → alarm = false →
    rootMs ≤ 100 → 500000000 ≤ ofs.natAbs → utc < 2 ^ 32 → s.get BIL_STAT.CLK_ST ≠ 3 → s.get SYS_TIME_STAT.TSTATE ≠ 2 → ∃ t, exec (.ntpResponse
    stratum alarm rootMs ofs utc) s = .next t ∧ t.get SYS_TIME_STAT.TSTATE = 2 ∧ t.get SYS_RTC.UTC = utc ∧ t.get BIL_SYNC.SYNC_AGE = 0 ∧ t.mg.polls
    = 0 ∧ Logged s t [(0x0023, 2, [2]), (0x0901, 2, leBytes 4 (ofSigned 32 ((utc : Int) - (s.rtc : Int)))), (0x0026, 2, leBytes 4 (ofSigned 32 ((utc
    : Int) - (s.rtc : Int))))]) ∧
  (∀ (s : State) (stratum : Nat) (alarm : Bool) (rootMs : Nat) (ofs : Int) (utc : Nat), (stratum = 0 ∨ 15 < stratum ∨ alarm ∨ 100 < rootMs) → exec
    (.ntpResponse stratum alarm rootMs ofs utc) s = .next s) ∧
  (∀ (s : State), s.srcRuns 2 → s.get SYS_TIME_STAT.TSTATE = 2 → 4 ≤ s.mg.polls → ∃ t, exec (.ntpLost) s = .next t ∧ t.get SYS_TIME_STAT.TSTATE = 3 ∧
    Logged s t [(0x0024, 3, [2])])

/-- The frame of the commands of the Timebase, the stamp keeper and the Phase Engine: outside the parts listed for a command, nothing changes,
whatever the state and the operands. How the parts are cut is the model's own. -/
def Obligations.TimebaseAndPhaseFrame : Prop :=
  (∀ (s : State) (src srcStamp f cycles : Nat), ∃ t, exec (.tbAcquireLock src srcStamp f cycles) s = .next t ∧ Unchanged (within (logParts ++
    ([.fresh, .tb, .reg R.PLC_STAT.TIME_SRC, .reg R.SYS_BOOT_STAT.STEP, .reg R.SYS_READY.RDY, .reg R.TB_AMP.VA, .reg R.TB_AMP.VB, .reg R.TB_AMP.VC, .reg
    R.TB_ERR.ERR, .reg R.TB_FOLLOW.GDIFF, .reg R.TB_FREQ_GRID.FGRID, .reg R.TB_FREQ_LOC.FLOC, .reg R.TB_INC.INC, .reg R.TB_STAMP_HI.STAMP, .reg
    R.TB_STAMP_LO.STAMP, .reg R.TB_STAT.ACQUIRED, .reg R.TB_STAT.ALIGNED, .reg R.TB_STAT.GRID_OK, .reg R.TB_STAT.SRC, .reg R.TB_STAT.STATE, .reg
    R.UPD_FW_MINSEC.MINSEC] : List Part))) s t) ∧
  (∀ (s : State) (ms : Nat), ∃ t, exec (.tbAcquireTimeout ms) s = .next t ∧ Unchanged (within (logParts ++ ([.keep, .tb, .reg R.PLC_STAT.TIME_SRC,
    .reg R.SYS_BOOT_STAT.STEP, .reg R.SYS_READY.RDY, .reg R.TB_FREQ_LOC.FLOC, .reg R.TB_HOLD.HOLD_CYC, .reg R.TB_INC.INC, .reg R.TB_STAMP_HI.STAMP, .reg
    R.TB_STAMP_LO.STAMP, .reg R.TB_STAT.ACQUIRED, .reg R.TB_STAT.ALIGNED, .reg R.TB_STAT.SRC, .reg R.TB_STAT.STATE, .reg R.UPD_FW_MINSEC.MINSEC] : List
    Part))) s t) ∧
  (∀ (s : State) (src cause m : Nat) (next : Option (Nat × Nat × Nat)), ∃ t, exec (.tbSourceLost src cause m next) s = .next t ∧ Unchanged (within
    (logParts ++ ([.fresh, .tb, .reg R.PLC_STAT.TIME_SRC, .reg R.TB_AMP.VA, .reg R.TB_AMP.VB, .reg R.TB_AMP.VC, .reg R.TB_ERR.ERR, .reg
    R.TB_FOLLOW.GDIFF, .reg R.TB_FREQ_GRID.FGRID, .reg R.TB_HOLD.HOLD_CYC, .reg R.TB_STAT.ALIGNED, .reg R.TB_STAT.GRID_LOST_SEEN, .reg
    R.TB_STAT.GRID_OK, .reg R.TB_STAT.SRC, .reg R.TB_STAT.STATE] : List Part))) s t) ∧
  (∀ (s : State) (jump : Int), ∃ t, exec (.gridPhaseJump jump) s = .next t ∧ Unchanged (within (logParts ++ ([.tb, .reg R.PLC_STAT.TIME_SRC, .reg
    R.TB_FOLLOW.GDIFF, .reg R.TB_FREQ_GRID.FGRID, .reg R.TB_HOLD.HOLD_CYC, .reg R.TB_STAT.ALIGNED, .reg R.TB_STAT.GRID_LOST_SEEN, .reg
    R.TB_STAT.GRID_OK, .reg R.TB_STAT.SRC, .reg R.TB_STAT.STATE] : List Part))) s t) ∧
  (∀ (s : State) (lines : Nat), ∃ t, exec (.lineFault lines) s = .next t ∧ Unchanged (within (logParts ++ ([.fresh, .reg R.TB_AMP.VA, .reg
    R.TB_AMP.VB, .reg R.TB_AMP.VC, .reg R.TB_STAT.LINE_FLT] : List Part))) s t) ∧
  (∀ (s : State) (cycles : Nat), ∃ t, exec (.lineFaultClear cycles) s = .next t ∧ Unchanged (within ([.reg R.TB_STAT.LINE_FLT])) s t) ∧
  (∀ (s : State) (e : Int) (f : Nat), ∃ t, exec (.tbSlewEntry e f) s = .next t ∧ Unchanged (within (logParts ++ ([.tb, .reg R.TB_ERR.ERR, .reg
    R.TB_FREQ_GRID.FGRID, .reg R.TB_STAT.ALIGNED, .reg R.TB_STAT.STATE] : List Part))) s t) ∧
  (∀ (s : State) (e : Int) (cycles ms : Nat), ∃ t, exec (.tbSlewLocked e cycles ms) s = .next t ∧ Unchanged (within (logParts ++ ([.tb, .reg
    R.TB_ERR.ERR, .reg R.TB_STAT.ALIGNED, .reg R.TB_STAT.STATE] : List Part))) s t) ∧
  (∀ (s : State) (src srcStamp f cycles : Nat), ∃ t, exec (.tbSourceTaken src srcStamp f cycles) s = .next t ∧ Unchanged (within (logParts ++
    ([.fresh, .tb, .reg R.PLC_STAT.TIME_SRC, .reg R.TB_AMP.VA, .reg R.TB_AMP.VB, .reg R.TB_AMP.VC, .reg R.TB_ERR.ERR, .reg R.TB_FOLLOW.GDIFF, .reg
    R.TB_FREQ_GRID.FGRID, .reg R.TB_STAT.ALIGNED, .reg R.TB_STAT.GRID_OK, .reg R.TB_STAT.SRC, .reg R.TB_STAT.STATE] : List Part))) s t) ∧
  (∀ (s : State), ∃ t, exec (.cycleRenumber) s = .next t ∧ Unchanged (within (logParts ++ ([.bil, .cs, .fab, .keep, .phx, .plc, .tb, .reg
    R.TB_OFS_CTRL.PEND, .reg R.TB_STAMP_HI.STAMP, .reg R.TB_STAMP_LO.STAMP, .reg R.TB_STAT.RENUM_SEEN] : List Part))) s t) ∧
  (∀ (s : State), ∃ t, exec (.refclkLost) s = .next t ∧ Unchanged (within (logParts ++ ([.keep, .reg R.TB_STAT.REF, .reg R.TB_STAT.REF_LOST_SEEN] :
    List Part))) s t) ∧
  (∀ (s : State) (tapPs periods : Nat), ∃ t, exec (.dllUnlock tapPs periods) s = .next t ∧ Unchanged (within (logParts ++ ([.reg R.PE_STAT.DLL_HOLD,
    .reg R.TB_DLL.LOCK, .reg R.TB_DLL.TAP_PS, .reg R.TB_DLL.UNLK_CNT, .reg R.TB_STAT.DLL_LOCK, .reg R.TB_STAT.DLL_UNLK_SEEN] : List Part))) s t) ∧
  (∀ (s : State) (tapPs : Nat), ∃ t, exec (.dllRelock tapPs) s = .next t ∧ Unchanged (within (logParts ++ ([.reg R.PE_STAT.DLL_HOLD, .reg
    R.TB_DLL.LOCK, .reg R.TB_DLL.TAP_PS, .reg R.TB_STAT.DLL_LOCK] : List Part))) s t) ∧
  (∀ (s : State), ∃ t, exec (.keeperCommit) s = .next t ∧ Unchanged (within ([.keep, .reg R.TB_LAST_STAMP_HI.LAST, .reg R.TB_LAST_STAMP_LO.LAST])) s
    t) ∧
  (∀ (s : State) (g : Nat), ∃ t, exec (.ncarChange g) s = .next t ∧ Unchanged (within ([.inst R.TB_GRP_CAR.NCAR_ACT g 0])) s t) ∧
  (∀ (s : State) (sess : Nat), ∃ t, exec (.offsetCommit sess) s = .next t ∧ Unchanged (within (logParts ++ ([.out, .tb, .reg R.TB_OFS_CTRL.PEND] :
    List Part))) s t) ∧
  (∀ (s : State) (g : Nat), ∃ t, exec (.offsetCommitTaken g) s = .next t ∧ Unchanged (within ([.tb, .reg R.TB_OFS_CTRL.PEND])) s t) ∧
  (∀ (s : State), ∃ t, exec (.anglePulseOut) s = .next t ∧ Unchanged (within ([.pins, .tb])) s t) ∧
  (∀ (s : State) (edge : Nat), ∃ t, exec (.anglePulseCapture edge) s = .next t ∧ Unchanged (within ([.tb, .reg R.TB_API_CAP_FR.FRAC, .reg
    R.TB_API_CAP_HI.STAMP, .reg R.TB_API_CAP_LO.STAMP, .reg R.TB_API_CFG.API_PRESENT, .reg R.TB_ERR.ERR])) s t) ∧
  (∀ (s : State) (g v : Nat), ∃ t, exec (.groupCarrierBoundary g v) s = .next t ∧ Unchanged (within (groupParts ++ ([.fresh, .grpx, .phx, .tb, .inst
    R.PE_GRP_CAP.CAP g 0, .inst R.PE_GRP_CAP.CAP_SRC g 0, .inst R.PE_GRP_DEM.DEM g 0, .inst R.PE_GRP_MEAS.V_GRP g 0, .inst R.PE_GRP_STAT.FLT_CAUSE g 0,
    .inst R.PE_GRP_STAT.LIMITING g 0, .inst R.PE_GRP_STAT.MODE g 0, .inst R.PE_GRP_STAT.N_ACT g 0, .inst R.PE_GRP_STAT.OVS_STATE g 0, .inst
    R.PE_GRP_STAT.STATE g 0, .inst R.TB_GRP_OFS_ACT.GOFS_ACT g 0, .reg R.TB_PH_OFS_ACT.POFS_ACT] : List Part))) s t) ∧
  (∀ (s : State) (n : Nat) (o : CarrierObs), ∃ t, exec (.carrierStart n o) s = .next t ∧ Unchanged (within ([.fresh, .phx, .pins, .inst
    R.PE_PH_CNT.TRUNC n 0, .inst R.PE_PH_MEAS.TH n 0, .inst R.PE_PH_MEAS.TON n 0, .inst R.PE_PH_STAT.I_AVG n 0, .inst R.TB_PH_OFS_ACT.POFS_ACT n 0] :
    List Part)) s t) ∧
  (∀ (s : State), ∃ t, exec (.halfCycleBoundary) s = .next t ∧ Unchanged (within ([.conns, .needs, .sl, .reg R.PE_GRP_LEASE.EXP_HC, .reg
    R.SL_LEASE.EXP_HC, .reg R.SL_LEASE.LEASE, .reg R.SL_STAT.LAPSED])) s t) ∧
  (∀ (s : State) (g : Nat), ∃ t, exec (.leaseLapse g) s = .next t ∧ Unchanged (within (logParts ++ ([.reg R.SL_LEASE.EXP_HC, .reg R.SL_LEASE.LEASE,
    .reg R.SL_STAT.LAPSED, .inst R.PE_GRP_LEASE.LAPSED g 0] : List Part))) s t) ∧
  (∀ (s : State) (g gvs pulses : Nat), ∃ t, exec (.overshootTruncate g gvs pulses) s = .next t ∧ Unchanged (within (logParts ++ ([.grpx, .phx, .inst
    R.PE_GRP_CNT.TRUNC g 0, .inst R.PE_GRP_STAT.OVS_STATE g 0, .inst R.PE_GRP_STAT.TRUNC_SEEN g 0] : List Part))) s t) ∧
  (∀ (s : State) (g gvs : Nat), ∃ t, exec (.overshootBrake g gvs) s = .next t ∧ Unchanged (within (logParts ++ ([.phx, .pins, .inst R.PE_GRP_CNT.BRAKE
    g 0, .inst R.PE_GRP_STAT.BRK_SEEN g 0, .inst R.PE_GRP_STAT.OVS_STATE g 0] : List Part))) s t) ∧
  (∀ (s : State) (g periods : Nat), ∃ t, exec (.truncateTimeout g periods) s = .next t ∧ Unchanged (within (logParts ++ ([.phx, .pins, .inst
    R.PE_GRP_CNT.BRAKE g 0, .inst R.PE_GRP_STAT.BRK_SEEN g 0, .inst R.PE_GRP_STAT.OVS_STATE g 0] : List Part))) s t) ∧
  (∀ (s : State) (g gvs : Nat), ∃ t, exec (.truncateRelease g gvs) s = .next t ∧ Unchanged (within (logParts ++ ([.phx, .pins, .inst
    R.PE_GRP_CNT.BRAKE g 0, .inst R.PE_GRP_STAT.BRK_SEEN g 0, .inst R.PE_GRP_STAT.OVS_STATE g 0] : List Part))) s t) ∧
  (∀ (s : State) (g gvs : Nat), ∃ t, exec (.brakeRelease g gvs) s = .next t ∧ Unchanged (within ([.inst R.PE_GRP_STAT.OVS_STATE g 0])) s t) ∧
  (∀ (s : State) (g hc : Nat), ∃ t, exec (.brakingTimeout g hc) s = .next t ∧ Unchanged (within (groupParts ++ ([.grpx, .tb, .inst
    R.PE_GRP_STAT.FLT_CAUSE g 0, .inst R.PE_GRP_STAT.LIMITING g 0, .inst R.PE_GRP_STAT.OVS_STATE g 0, .inst R.PE_GRP_STAT.STATE g 0] : List Part))) s t) ∧
  (∀ (s : State) (n : Nat), ∃ t, exec (.phaseCheckFail n) s = .next t ∧ Unchanged (within (logParts ++ ([.grpx, .pins, .reg R.PE_GRP_STAT.PHLOSS_SEEN,
    .reg R.PE_PH_ACT.ACT, .reg R.PE_PH_TRIP.TRIP, .reg R.PE_STAT.N_ACT_ALL, .inst R.PE_PH_CNT.TRIPS n 0, .inst R.PE_PH_STAT.FLT_CODE n 0, .inst
    R.PE_PH_STAT.STATE n 0] : List Part))) s t) ∧
  (∀ (s : State) (n low : Nat), ∃ t, exec (.driverFault n low) s = .next t ∧ Unchanged (within (safeOffParts ++ ([.grpx, .phx, .tb, .inst
    R.PE_PH_CNT.TRIPS n 0, .inst R.PE_PH_STAT.FLT_CODE n 0, .inst R.PE_PH_STAT.FLT_IN n 0, .reg R.PE_GRP_STAT.FLT_CAUSE, .reg R.PE_GRP_STAT.LIMITING,
    .reg R.PE_GRP_STAT.PHLOSS_SEEN] : List Part))) s t) ∧
  (∀ (s : State) (n : Nat) (diff : Int), ∃ t, exec (.phaseImbalance n diff) s = .next t ∧ Unchanged (within (logParts)) s t) ∧
  (∀ (s : State) (sess n : Nat) (fltLow : Bool), ∃ t, exec (.phaseEnable sess n fltLow) s = .next t ∧ Unchanged (within (logParts ++ ([.grpx, .out,
    .pins, .reg R.PE_GRP_STAT.N_CFG, .reg R.PE_GRP_STAT.PHLOSS_SEEN, .reg R.PE_PH_ACT.ACT, .reg R.PE_PH_TRIP.TRIP, .reg R.PE_STAT.N_ACT_ALL, .inst
    R.PE_PH_CFG.EN n 0, .inst R.PE_PH_CNT.TRIPS n 0, .inst R.PE_PH_STAT.FLT_CODE n 0, .inst R.PE_PH_STAT.FLT_IN n 0, .inst R.PE_PH_STAT.STATE n 0] :
    List Part))) s t) ∧
  (∀ (s : State) (sess n : Nat), ∃ t, exec (.phaseDisable sess n) s = .next t ∧ Unchanged (within (logParts ++ ([.grpx, .out, .pins, .reg
    R.PE_GRP_STAT.N_CFG, .reg R.PE_PH_ACT.ACT, .reg R.PE_PH_TRIP.TRIP, .reg R.PE_STAT.N_ACT_ALL, .inst R.PE_PH_CFG.EN n 0, .inst R.PE_PH_STAT.STATE
    n 0] : List Part))) s t) ∧
  (∀ (s : State) (n : Nat), ∃ t, exec (.phaseJoin n) s = .next t ∧ Unchanged (within ([.grpx, .phx, .reg R.PE_PH_ACT.ACT, .reg R.PE_PH_TRIP.TRIP, .reg
    R.PE_STAT.N_ACT_ALL, .inst R.PE_PH_STAT.STATE n 0])) s t) ∧
  (∀ (s : State) (sess g : Nat), ∃ t, exec (.groupEnable sess g) s = .next t ∧ Unchanged (within (logParts ++ ([.out, .inst R.PE_GRP_CTRL.EN g 0,
    .inst R.PE_GRP_STAT.START_BLK g 0] : List Part))) s t) ∧
  (∀ (s : State) (g : Nat), ∃ t, exec (.groupStart g) s = .next t ∧ Unchanged (within (logParts ++ ([.grpx, .phx, .tb, .inst R.PE_GRP_STAT.FLT_CAUSE g
    0, .inst R.PE_GRP_STAT.LIMITING g 0, .inst R.PE_GRP_STAT.N_ACT g 0, .inst R.PE_GRP_STAT.N_CFG g 0, .inst R.PE_GRP_STAT.OVS_STATE g 0, .inst
    R.PE_GRP_STAT.START_BLK g 0, .inst R.PE_GRP_STAT.STATE g 0, .reg R.PE_PH_ACT.ACT, .reg R.PE_PH_STAT.STATE, .reg R.PE_PH_TRIP.TRIP, .reg
    R.PE_STAT.GRP_FAULT, .reg R.PE_STAT.GRP_RUN, .reg R.PE_STAT.N_ACT_ALL] : List Part))) s t) ∧
  (∀ (s : State) (sess g : Nat), ∃ t, exec (.groupDisable sess g) s = .next t ∧ Unchanged (within (logParts ++ ([.grpx, .out, .tb, .inst
    R.PE_GRP_CTRL.EN g 0, .inst R.PE_GRP_STAT.LIMITING g 0, .inst R.PE_GRP_STAT.OVS_STATE g 0, .inst R.PE_GRP_STAT.START_BLK g 0, .inst
    R.PE_GRP_STAT.STATE g 0, .reg R.PE_STAT.GRP_FAULT, .reg R.PE_STAT.GRP_RUN] : List Part))) s t) ∧
  (∀ (s : State) (g : Nat), ∃ t, exec (.rampdownComplete g) s = .next t ∧ Unchanged (within (groupParts ++ ([.grpx, .tb, .inst R.PE_GRP_STAT.LIMITING
    g 0, .inst R.PE_GRP_STAT.N_ACT g 0, .inst R.PE_GRP_STAT.OVS_STATE g 0, .inst R.PE_GRP_STAT.STATE g 0] : List Part))) s t) ∧
  (∀ (s : State) (g : Nat), ∃ t, exec (.demandWatchdog g) s = .next t ∧ Unchanged (within (logParts ++ ([.grpx, .tb, .inst R.PE_GRP_CTRL.EN g 0, .inst
    R.PE_GRP_STAT.LIMITING g 0, .inst R.PE_GRP_STAT.OVS_STATE g 0, .inst R.PE_GRP_STAT.STATE g 0, .inst R.PE_GRP_STAT.WDOG_SEEN g 0, .reg
    R.PE_STAT.GRP_FAULT, .reg R.PE_STAT.GRP_RUN] : List Part))) s t) ∧
  (∀ (s : State) (g : Nat), ∃ t, exec (.respaceCommit g) s = .next t ∧ Unchanged (within (logParts ++ ([.tb, .reg R.TB_PH_OFS.POFS] : List Part))) s
    t)

/-- The frame of the commands of the Loop Engine: outside the parts listed for a command, nothing changes, whatever the state and the operands. How
the parts are cut is the model's own. -/
def Obligations.LoopFrame : Prop :=
  (∀ (s : State) (idx late : Nat), ∃ t, exec (.sampleStrobe idx late) s = .next t ∧ Unchanged (within (angleZeroParts ++ logParts ++ ([.auxx, .fresh,
    .grpx, .lsw, .phx, .reg R.LE_HOLD.HOLD, .reg R.LE_INJ_CTRL.EN, .reg R.LE_INJ_CTRL.END, .reg R.LE_INJ_CTRL.STATE, .reg R.LE_L_E.E, .reg R.LE_L_I.I,
    .reg R.LE_L_R.R, .reg R.LE_L_STAT.REGION, .reg R.LE_L_STAT.SAT_HI, .reg R.LE_L_STAT.SAT_LO, .reg R.LE_L_STAT.SAT_SEEN, .reg R.LE_L_STAT.SET, .reg
    R.LE_L_STAT.SLEWING, .reg R.LE_L_STAT.SRC_FLT_SEEN, .reg R.LE_L_STAT.STATE, .reg R.LE_L_U.U, .reg R.LE_L_U_MAN.U_MAN, .reg R.LE_L_V.V, .reg
    R.LE_L_Y.Y, .reg R.LE_RUN.RUN, .reg R.LE_STAT.OVERRUN, .reg R.LSW_CH_STAT.FRAC, .reg R.PE_GRP_DEM.DEM, .reg R.PE_GRP_MEAS.I_GRP, .reg
    R.PWR_AUX_STAT.MODE] : List Part))) s t) ∧
  (∀ (s : State) (l : Nat), ∃ t, exec (.loopHoldExit l) s = .next t ∧ Unchanged (within (logParts ++ ([.auxx, .le, .inst R.LE_L_R.R l 0, .inst
    R.LE_L_STAT.STATE l 0, .inst R.LE_L_Y.Y l 0, .reg R.LE_HOLD.HOLD, .reg R.LE_RUN.RUN, .reg R.PWR_AUX_STAT.MODE] : List Part))) s t) ∧
  (∀ (s : State) (sess : Nat) (v : Option Nat), ∃ t, exec (.srateChange sess v) s = .next t ∧ Unchanged (within (logParts ++ ([.le, .out, .reg
    R.LE_CTRL.SRATE, .reg R.LE_CTRL.SRATE_ACT, .reg R.LE_CTRL.SR_STATUS, .reg R.LE_STAT.K, .reg R.LE_STAT.LOAD_MAX, .reg R.LE_STAT.N_EN] : List Part)))
    s t) ∧
  (∀ (s : State) (sess l : Nat), ∃ t, exec (.loopEnable sess l) s = .next t ∧ Unchanged (within (logParts ++ ([.auxx, .le, .out, .inst R.LE_L_CTRL.EN
    l 0, .inst R.LE_L_I.I l 0, .inst R.LE_L_R.R l 0, .inst R.LE_L_STAT.REFUSED l 0, .inst R.LE_L_STAT.SLEWING l 0, .inst R.LE_L_STAT.STATE l 0, .inst
    R.LE_L_U.U l 0, .inst R.LE_L_V.V l 0, .inst R.LE_L_Y.Y l 0, .reg R.LE_HOLD.HOLD, .reg R.LE_RUN.RUN, .reg R.LE_STAT.K, .reg R.LE_STAT.LOAD_MAX, .reg
    R.LE_STAT.N_EN, .reg R.PWR_AUX_STAT.MODE] : List Part))) s t) ∧
  (∀ (s : State) (sess l : Nat), ∃ t, exec (.loopDisable sess l) s = .next t ∧ Unchanged (within (logParts ++ ([.auxx, .le, .out, .inst R.LE_L_CTRL.EN
    l 0, .inst R.LE_L_STAT.STATE l 0, .reg R.LE_HOLD.HOLD, .reg R.LE_INJ_CTRL.EN, .reg R.LE_INJ_CTRL.END, .reg R.LE_INJ_CTRL.STATE, .reg R.LE_RUN.RUN,
    .reg R.LE_STAT.K, .reg R.LE_STAT.LOAD_MAX, .reg R.LE_STAT.N_EN, .reg R.PWR_AUX_STAT.MODE] : List Part))) s t) ∧
  (∀ (s : State) (sess l : Nat) (man : Bool), ∃ t, exec (.loopModeChange sess l man) s = .next t ∧ Unchanged (within (logParts ++ ([.out, .inst
    R.LE_L_CTRL.MODE l 0] : List Part))) s t) ∧
  (∀ (s : State) (sess l : Nat), ∃ t, exec (.gtCommit sess l) s = .next t ∧ Unchanged (within (logParts ++ ([.le, .out] : List Part))) s t) ∧
  (∀ (s : State) (sess mask : Nat), ∃ t, exec (.ffSwap sess mask) s = .next t ∧ Unchanged (within (logParts ++ ([.le, .out] : List Part))) s t) ∧
  (∀ (s : State), ∃ t, exec (.setTarget) s = .next t ∧ Unchanged (within (angleZeroParts ++ launchParts ++ ([.reg R.LE_L_R_TGT.R_TGT, .reg
    R.LE_L_STAT.SLEWING] : List Part))) s t) ∧
  (∀ (s : State), ∃ t, exec (.scaleTarget) s = .next t ∧ Unchanged (within (angleZeroParts ++ launchParts ++ ([.reg R.LE_L_R_TGT.R_TGT, .reg
    R.LE_L_STAT.SLEWING] : List Part))) s t)
    ∧
  (∀ (s : State), ∃ t, exec (.setRate) s = .next t ∧ Unchanged (within (angleZeroParts ++ launchParts ++ ([.reg R.LE_L_RATE.RATE] : List Part))) s t) ∧
  (∀ (s : State), ∃ t, exec (.setParameter) s = .next t ∧ Unchanged (within (angleZeroParts ++ launchParts ++ ([.reg R.LE_PARAM.VALUE] : List Part)))
    s t) ∧
  (∀ (s : State), ∃ t, exec (.setMode) s = .next t ∧ Unchanged (within (angleZeroParts ++ launchParts ++ ([.reg R.LE_L_CTRL.MODE] : List Part))) s t) ∧
  (∀ (s : State), ∃ t, exec (.startInjector) s = .next t ∧ Unchanged (within (angleZeroParts ++ launchParts ++ ([.reg R.LE_INJ_CTRL.EN, .reg
    R.LE_INJ_CTRL.END, .reg R.LE_INJ_CTRL.STATE] : List Part))) s t) ∧
  (∀ (s : State) (sess j : Nat), ∃ t, exec (.injectorEnable sess j) s = .next t ∧ Unchanged (within (logParts ++ ([.le, .out, .inst R.LE_INJ_CTRL.EN j
    0, .inst R.LE_INJ_CTRL.END j 0, .inst R.LE_INJ_CTRL.STATE j 0] : List Part))) s t) ∧
  (∀ (s : State) (j : Nat), ∃ t, exec (.injectorStampStart j) s = .next t ∧ Unchanged (within (logParts ++ ([.le, .inst R.LE_INJ_CTRL.EN j 0, .inst
    R.LE_INJ_CTRL.END j 0, .inst R.LE_INJ_CTRL.STATE j 0] : List Part))) s t) ∧
  (∀ (s : State) (j : Nat), ∃ t, exec (.injectorEnd j) s = .next t ∧ Unchanged (within (logParts ++ ([.le, .inst R.LE_INJ_CTRL.EN j 0, .inst
    R.LE_INJ_CTRL.END j 0, .inst R.LE_INJ_CTRL.STATE j 0] : List Part))) s t) ∧
  (∀ (s : State) (sess j : Nat), ∃ t, exec (.injectorDisable sess j) s = .next t ∧ Unchanged (within (logParts ++ ([.le, .out, .inst R.LE_INJ_CTRL.EN
    j 0, .inst R.LE_INJ_CTRL.END j 0, .inst R.LE_INJ_CTRL.STATE j 0] : List Part))) s t) ∧
  (∀ (s : State) (sess : Nat), ∃ t, exec (.captureArm sess) s = .next t ∧ Unchanged (within (logParts ++ ([.le, .out, .reg R.LE_CAP_CTRL.STATE] : List
    Part))) s t) ∧
  (∀ (s : State), ∃ t, exec (.captureTrigger) s = .next t ∧ Unchanged (within ([.le, .reg R.LE_CAP_CTRL.STATE])) s t) ∧
  (∀ (s : State), ∃ t, exec (.captureDone) s = .next t ∧ Unchanged (within (logParts ++ ([.reg R.LE_CAP_CTRL.STATE, .reg R.LE_CAP_STAMP_HI.STAMP, .reg
    R.LE_CAP_STAMP_LO.STAMP] : List Part))) s t)

/-- The frame of the commands of the Fabric: outside the parts listed for a command, nothing changes, whatever the state and the operands. How the
parts are cut is the model's own. -/
def Obligations.FabricFrame : Prop :=
  (∀ (s : State) (n : Nat) (los : Bool), ∃ t, exec (.laneTrain n los) s = .next t ∧ Unchanged (within ([.out, .reg R.FAB_STAT.STATE, .inst
    R.FAB_LANE_STAT.LOS n 0, .inst R.FAB_LANE_STAT.STATE n 0])) s t) ∧
  (∀ (s : State) (n ms : Nat), ∃ t, exec (.laneTrainTimeout n ms) s = .next t ∧ Unchanged (within ([.fab, .inst R.FAB_LANE_STAT.STATE n 0])) s t) ∧
  (∀ (s : State) (n ms : Nat) (los : Bool), ∃ t, exec (.laneRetry n ms los) s = .next t ∧ Unchanged (within ([.fab, .out, .inst R.FAB_LANE_STAT.LOS n
    0, .inst R.FAB_LANE_STAT.STATE n 0])) s t) ∧
  (∀ (s : State) (n node dly count : Nat) (key : FabKey), ∃ t, exec (.laneHold n node dly count key) s = .next t ∧ Unchanged (within ([.fab, .out,
    .inst R.FAB_LANE_DLY.DLY n 0, .inst R.FAB_LANE_NBR_HI.SERIAL n 0, .inst R.FAB_LANE_NBR_LO.SERIAL n 0, .inst R.FAB_LANE_STAT.NBR_ID n 0, .inst
    R.FAB_LANE_STAT.STATE n 0] : List Part)) s t) ∧
  (∀ (s : State) (n ms : Nat) (downS : Option Nat), ∃ t, exec (.laneActive n ms downS) s = .next t ∧ Unchanged (within (electParts ++ ([.tb, .inst
    R.FAB_LANE_STAT.DIR n 0, .inst R.FAB_LANE_STAT.DOWN_SEEN n 0, .inst R.FAB_LANE_STAT.STATE n 0, .reg R.FAB_KEY.OWN_CLASS, .reg
    R.FAB_LANE_STAT.TPARENT, .reg R.PLC_STAT.TIME_SRC, .reg R.TB_HOLD.HOLD_CYC, .reg R.TB_STAT.ALIGNED, .reg R.TB_STAT.SRC, .reg R.TB_STAT.STATE] : List
    Part))) s t) ∧
  (∀ (s : State) (n cause m : Nat), ∃ t, exec (.laneDown n cause m) s = .next t ∧ Unchanged (within (routeParts ++ ([.inst R.FAB_LANE_STAT.DIR 8 0,
    .inst R.FAB_LANE_STAT.DIR n 0, .inst R.FAB_LANE_STAT.DOWN_SEEN n 0, .inst R.FAB_LANE_STAT.LOS n 0, .inst R.FAB_LANE_STAT.STATE n 0, .reg
    R.FAB_LANE_STAT.TPARENT, .reg R.PLC_CNT1.DROP] : List Part))) s t) ∧
  (∀ (s : State) (link crc : Nat) (f : FabFrame) (urgent pending recent : Nat), ∃ t, exec (.frameForward link crc f urgent pending recent) s = .next t
    ∧ Unchanged (within (routeParts ++ ([.inst R.FAB_LANE_ERR.CRC link 0, .inst R.FAB_LANE_ERR.REPLAY link 0, .inst R.FAB_LANE_STAT.NBR_ID link 0] :
    List Part))) s t) ∧
  (∀ (s : State) (waited : Nat), ∃ t, exec (.stallDiscard waited) s = .next t ∧ Unchanged (within (logParts ++ ([.fab, .reg R.FAB_DROP0.EPOCH, .reg
    R.FAB_DROP0.HOPORI, .reg R.FAB_DROP0.STALL, .reg R.FAB_DROP0.UNREACH, .reg R.FAB_DROP1.RSP_DROP] : List Part))) s t) ∧
  (∀ (s : State) (sess mask : Nat), ∃ t, exec (.wakeTx sess mask) s = .next t ∧ Unchanged (within (logParts ++ ([.out] : List Part))) s t) ∧
  (∀ (s : State) (classMs : Nat), ∃ t, exec (.announceSend classMs) s = .next t ∧ Unchanged (within (routeParts ++ ([.reg R.FAB_KEY.OWN_CLASS, .reg
    R.FAB_KEY.ROOT_CLASS, .reg R.FAB_KEY.ROOT_PRIO, .reg R.FAB_ROOT_SER_HI.SERIAL, .reg R.FAB_ROOT_SER_LO.SERIAL] : List Part))) s t) ∧
  (∀ (s : State) (link : Nat) (key : FabKey) (seq : Nat) (member : Bool), ∃ t, exec (.announceReceive link key seq member) s = .next t ∧ Unchanged
    (within (electParts ++ ([.mg, .tb, .inst R.FAB_LANE_STAT.NBR_ID link 0, .reg R.FAB_KEY.ROOT_CLASS, .reg R.FAB_KEY.ROOT_PRIO, .reg
    R.FAB_ROOT_SER_HI.SERIAL, .reg R.FAB_ROOT_SER_LO.SERIAL, .reg R.FAB_STAT.NODE_ID, .reg R.PLC_STAT.TIME_SRC, .reg R.SYS_MGMT_STAT.N_RELAY, .reg
    R.TB_HOLD.HOLD_CYC, .reg R.TB_STAT.ALIGNED, .reg R.TB_STAT.SRC, .reg R.TB_STAT.STATE] : List Part))) s t) ∧
  (∀ (s : State) (hc now : Nat), ∃ t, exec (.becomeRoot hc now) s = .next t ∧ Unchanged (within (routeParts ++ ([.mg, .sl, .tb, .reg
    R.FAB_KEY.ROOT_CLASS, .reg R.FAB_KEY.ROOT_PRIO, .reg R.FAB_LANE_STAT.DIR, .reg R.FAB_LANE_STAT.TPARENT, .reg R.FAB_ROOT_SER_HI.SERIAL, .reg
    R.FAB_ROOT_SER_LO.SERIAL, .reg R.FAB_STAT.LEVEL, .reg R.FAB_STAT.NODE_ID, .reg R.FAB_STAT.ROOT, .reg R.FAB_STAT.STATE, .reg R.PLC_STAT.TIME_SRC,
    .reg R.SL_GEN.GEN_OWN, .reg R.SL_ROOT_WAIT.WAIT_MS, .reg R.SL_STAT.ROOT_STATE, .reg R.SYS_BOOT_STAT.STEP, .reg R.SYS_MGMT_STAT.N_RELAY, .reg
    R.SYS_READY.RDY, .reg R.TB_HOLD.HOLD_CYC, .reg R.TB_STAT.ALIGNED, .reg R.TB_STAT.ROOT, .reg R.TB_STAT.SRC, .reg R.TB_STAT.STATE, .reg
    R.UPD_FW_MINSEC.MINSEC] : List Part))) s t) ∧
  (∀ (s : State) (serial sticky : Nat) (role : JoinReq) (link hops : Nat), ∃ t, exec (.nodeIdGrant serial sticky role link hops) s = .next t ∧
    Unchanged (within (routeParts ++ ([.sl, .reg R.FAB_LANE_STAT.NBR_ID] : List Part))) s t) ∧
  (∀ (s : State) (ms : Nat), ∃ t, exec (.joinRetry ms) s = .next t ∧ Unchanged (within (routeParts)) s t) ∧
  (∀ (s : State) (id level up : Nat), ∃ t, exec (.joinGrant id level up) s = .next t ∧ Unchanged (within (logParts ++ ([.fab, .mg, .reg
    R.FAB_LANE_STAT.DIR, .reg R.FAB_LANE_STAT.TPARENT, .reg R.FAB_STAT.LEVEL, .reg R.FAB_STAT.NODE_ID, .reg R.FAB_STAT.STATE, .reg
    R.FAB_STICKY.STICKY_ID, .reg R.SYS_BOOT_STAT.STEP, .reg R.SYS_MGMT_STAT.N_RELAY, .reg R.SYS_READY.RDY, .reg R.UPD_FW_MINSEC.MINSEC] : List Part))) s
    t) ∧
  (∀ (s : State) (hc : Nat), ∃ t, exec (.rootLost hc) s = .next t ∧ Unchanged (within (electParts ++ ([.tb, .reg R.PLC_STAT.TIME_SRC, .reg
    R.TB_HOLD.HOLD_CYC, .reg R.TB_STAT.ALIGNED, .reg R.TB_STAT.SRC, .reg R.TB_STAT.STATE] : List Part))) s t) ∧
  (∀ (s : State) (ms now : Nat), ∃ t, exec (.fabricAlone ms now) s = .next t ∧ Unchanged (within (logParts ++ ([.fab, .mg, .sl, .tb, .reg
    R.FAB_KEY.OWN_CLASS, .reg R.FAB_KEY.ROOT_CLASS, .reg R.FAB_KEY.ROOT_PRIO, .reg R.FAB_LANE_STAT.DIR, .reg R.FAB_LANE_STAT.TPARENT, .reg
    R.FAB_ROOT_SER_HI.SERIAL, .reg R.FAB_ROOT_SER_LO.SERIAL, .reg R.FAB_STAT.LEVEL, .reg R.FAB_STAT.NODE_ID, .reg R.FAB_STAT.ROOT, .reg
    R.FAB_STAT.STATE, .reg R.PLC_STAT.TIME_SRC, .reg R.SL_GEN.GEN_OWN, .reg R.SL_ROOT_WAIT.WAIT_MS, .reg R.SL_STAT.ROOT_STATE, .reg
    R.SYS_BOOT_STAT.STEP, .reg R.SYS_MGMT_STAT.N_RELAY, .reg R.SYS_READY.RDY, .reg R.TB_HOLD.HOLD_CYC, .reg R.TB_STAT.ALIGNED, .reg R.TB_STAT.ROOT, .reg
    R.TB_STAT.SRC, .reg R.TB_STAT.STATE, .reg R.UPD_FW_MINSEC.MINSEC] : List Part))) s t) ∧
  (∀ (s : State) (id secs : Nat), ∃ t, exec (.idReservationExpiry id secs) s = .next t ∧ Unchanged (within ([.fab])) s t) ∧
  (∀ (s : State) (node : Nat) (links : List (Nat × Nat)), ∃ t, exec (.topologyReport node links) s = .next t ∧ Unchanged (within ([.fab] : List Part))
    s t) ∧
  (∀ (s : State) (entries : List (Nat × Nat × Nat × Nat × Nat)) (dirs : List (Nat × Nat)) (level : Nat), ∃ t, exec (.tableLoad entries dirs level) s =
    .next t ∧ Unchanged (within ([.fab])) s t) ∧
  (∀ (s : State) (sw : Nat), ∃ t, exec (.epochChange sw) s = .next t ∧ Unchanged (within (logParts ++ routeParts ++ ([.reg R.FAB_LANE_STAT.DIR, .reg
    R.FAB_LANE_STAT.TPARENT, .reg R.FAB_STAT.EPOCH, .reg R.FAB_STAT.LEVEL] : List Part))) s t) ∧
  (∀ (s : State), ∃ t, exec (.epochDrain) s = .next t ∧ Unchanged (within ([.fab])) s t) ∧
  (∀ (s : State), ∃ t, exec (.epochSwap) s = .next t ∧ Unchanged (within (logParts ++ routeParts ++ ([.reg R.FAB_LANE_STAT.DIR, .reg
    R.FAB_LANE_STAT.TPARENT, .reg R.FAB_STAT.EPOCH, .reg R.FAB_STAT.LEVEL] : List Part))) s t) ∧
  (∀ (s : State) (n : Nat) (t1 t2 t3 t4 : Int), ∃ t, exec (.delayExchange n t1 t2 t3 t4) s = .next t ∧ Unchanged (within ([.fab, .out, .inst
    R.FAB_LANE_DLY.DLY n 0])) s t) ∧
  (∀ (s : State) (k : Nat), ∃ t, exec (.timeFrameSend k) s = .next t ∧ Unchanged (within ([.out])) s t) ∧
  (∀ (s : State) (n v16 : Nat), ∃ t, exec (.timeFrameReceive n v16) s = .next t ∧ Unchanged (within ([.tb, .reg R.TB_ERR.ERR])) s t) ∧
  (∀ (s : State) (src actId ack target ep op : Nat) (dstEp : Option Nat) (body : List Nat), ∃ t, exec (.launchedActionArrival src actId ack target ep
    op dstEp body) s = .next t ∧ Unchanged (within (routeParts ++ ([.reg R.FAB_LA_CFG.LA_QUSE, .reg R.FAB_LA_CNT.REFUSED] : List Part))) s t) ∧
  (∀ (s : State), ∃ t, exec (.setGroupOffset) s = .next t ∧ Unchanged (within (logParts ++ launchParts ++ ([.tb, .reg R.TB_GRP_OFS.GOFS, .reg
    R.TB_OFS_CTRL.PEND] : List Part))) s t) ∧
  (∀ (s : State), ∃ t, exec (.setPhaseOffsets) s = .next t ∧ Unchanged (within (logParts ++ launchParts ++ ([.tb, .reg R.TB_OFS_CTRL.PEND, .reg
    R.TB_PH_OFS.POFS] : List Part))) s t) ∧
  (∀ (s : State) (ms : Nat), ∃ t, exec (.epochInstall ms) s = .next t ∧ Unchanged (within (routeParts)) s t)

/-- The frame of the commands of the Share Ledger and the Powerline: outside the parts listed for a command, nothing changes, whatever the state and
the operands. How the parts are cut is the model's own. -/
def Obligations.LedgerAndPowerlineFrame : Prop :=
  (∀ (s : State) (offer : Nat), ∃ t, exec (.ledgerReport offer) s = .next t ∧ Unchanged (within (routeParts ++ ([.reg R.SL_DRAW.DRAW, .reg
    R.SL_LEASE.EXP_HC, .reg R.SL_LEASE.LEASE, .reg R.SL_REQ.REQ, .reg R.SL_STAT.ACCEPT, .reg R.SL_STAT.LAPSED, .reg R.SL_STAT.PART] : List Part))) s t) ∧
  (∀ (s : State) (now node serial req cls floor lease applied gen offer digest : Nat) (draw : Int), ∃ t, exec (.ledgerReportReceive now node serial
    req cls floor lease applied gen offer digest draw) s = .next t ∧ Unchanged (within (logParts ++ ([.sl, .reg R.SL_STAT.FLOOR_FLT] : List Part)))
    s t) ∧
  (∀ (s : State) (src issue gen kw hc seq : Nat) (pledge : Bool) (passed : Nat), ∃ t, exec (.grantAccept src issue gen kw hc seq pledge passed) s =
    .next t ∧ Unchanged (within (logParts ++ ([.sl, .reg R.LE_PARAM.VALUE, .reg R.PE_GRP_LEASE.EXP_HC, .reg R.PE_GRP_LEASE.LAPSED, .reg
    R.PE_GRP_LEASE.P_LEASE, .reg R.SL_CNT.ACCEPTED, .reg R.SL_CNT.REJECTED, .reg R.SL_CUT.CUT_ACT, .reg R.SL_DRAW.PLEDGE, .reg R.SL_GEN.GEN_ACC,
    .reg R.SL_LEASE.EXP_HC, .reg R.SL_LEASE.LEASE, .reg R.SL_LEASE.SEQ, .reg R.SL_STAT.LAPSED, .reg R.SL_STAT.PLEDGED, .reg R.SL_STAT.REJ_SEEN] :
    List Part))) s t) ∧
  (∀ (s : State) (now : Nat), ∃ t, exec (.allocationRound now) s = .next t ∧ Unchanged (within (routeParts ++ ([.sl, .reg R.LE_PARAM.VALUE, .reg
    R.PE_GRP_LEASE.EXP_HC, .reg R.PE_GRP_LEASE.LAPSED, .reg R.PE_GRP_LEASE.P_LEASE, .reg R.SL_CNT.ACCEPTED, .reg R.SL_CUT.CUT_ACT, .reg R.SL_DRAW.DRAW,
    .reg R.SL_DRAW.PLEDGE, .reg R.SL_GEN.GEN_ACC, .reg R.SL_LEASE.EXP_HC, .reg R.SL_LEASE.LEASE, .reg R.SL_LEASE.SEQ, .reg R.SL_REQ.REQ, .reg
    R.SL_ROOT_CNT.PRESENT, .reg R.SL_ROOT_COMMIT.COMMIT, .reg R.SL_ROOT_DRAW.DRAW_SUM, .reg R.SL_ROOT_POOL.POOL, .reg R.SL_ROOT_WAIT.WAIT_MS, .reg
    R.SL_STAT.ACCEPT, .reg R.SL_STAT.LAPSED, .reg R.SL_STAT.PART, .reg R.SL_STAT.PLEDGED, .reg R.SL_STAT.QUORUM, .reg R.SL_STAT.ROOT_STATE] : List
    Part))) s t)
    ∧
  (∀ (s : State) (node now : Nat), ∃ t, exec (.recordReclaim node now) s = .next t ∧ Unchanged (within ([.sl])) s t) ∧
  (∀ (s : State) (node now : Nat), ∃ t, exec (.recordAckDrop node now) s = .next t ∧ Unchanged (within ([.sl])) s t) ∧
  (∀ (s : State) (now : Nat), ∃ t, exec (.quorumLost now) s = .next t ∧ Unchanged (within (logParts ++ ([.reg R.SL_ROOT_WAIT.WAIT_MS, .reg
    R.SL_STAT.QUORUM, .reg R.SL_STAT.ROOT_STATE] : List Part))) s t) ∧
  (∀ (s : State) (now : Nat), ∃ t, exec (.quorumGained now) s = .next t ∧ Unchanged (within (logParts ++ ([.sl, .reg R.SL_GEN.GEN_OWN, .reg
    R.SL_ROOT_WAIT.WAIT_MS, .reg R.SL_STAT.QUORUM, .reg R.SL_STAT.ROOT_STATE] : List Part))) s t) ∧
  (∀ (s : State) (now : Nat), ∃ t, exec (.tGenExpiry now) s = .next t ∧ Unchanged (within (logParts ++ ([.reg R.SL_ROOT_WAIT.WAIT_MS, .reg
    R.SL_STAT.QUORUM, .reg R.SL_STAT.ROOT_STATE] : List Part))) s t) ∧
  (∀ (s : State), ∃ t, exec (.pledgeExpiry) s = .next t ∧ Unchanged (within ([.reg R.LE_PARAM.VALUE, .reg R.SL_DRAW.PLEDGE, .reg R.SL_STAT.PLEDGED]))
    s t) ∧
  (∀ (s : State) (draw : Int), ∃ t, exec (.pledgeNotMet draw) s = .next t ∧ Unchanged (within (logParts)) s t) ∧
  (∀ (s : State), ∃ t, exec (.setLimDyn) s = .next t ∧ Unchanged (within (launchParts ++ ([.sl, .reg R.SL_LIMDYN.LIM_DYN] : List Part))) s t) ∧
  (∀ (s : State), ∃ t, exec (.cut) s = .next t ∧ Unchanged (within (logParts ++ launchParts ++ ([.sl, .reg R.PE_GRP_LEASE.P_LEASE, .reg
    R.SL_CUT.CUT_ACT, .reg R.SL_CUT.CUT_F, .reg R.SL_LEASE.LEASE, .reg R.SL_LIMDYN.LIM_DYN, .reg R.SL_STAT.CUT_SEEN] : List Part))) s t) ∧
  (∀ (s : State) (sess v : Nat), ∃ t, exec (.limDynWrite sess v) s = .next t ∧ Unchanged (within (logParts ++ ([.out, .reg R.SL_LIMDYN.LIM_DYN] : List
    Part))) s t) ∧
  (∀ (s : State) (now cycles : Nat), ∃ t, exec (.drawOverLimit now cycles) s = .next t ∧ Unchanged (within (logParts ++ ([.reg
    R.SL_ROOT_DRAW.DRAW_SUM, .reg R.SL_STAT.OVER_SEEN] : List Part))) s t) ∧
  (∀ (s : State), ∃ t, exec (.beaconSend) s = .next t ∧ Unchanged (within ([.fresh, .out, .plc, .reg R.PLC_BEACON.BPC, .reg R.PLC_BEACON.SCHED_VER]))
    s t) ∧
  (∀ (s : State) (v16 : PlcAt) (serial node kcls klvl kprio bpc nstn succ ver verAt : Nat) (slots : List PlcSlot) (answers : List (Nat × Nat)), ∃ t,
    exec (.beaconReceive v16 serial node kcls klvl kprio bpc nstn succ ver verAt slots answers) s = .next t ∧ Unchanged (within (routeParts ++ ([.tb,
    .inst R.FAB_LANE_STAT.DIR 8 0, .reg R.FAB_LANE_STAT.TPARENT, .reg R.PLC_BEACON.BPC, .reg R.PLC_BEACON.MISSED, .reg R.PLC_BEACON.SCHED_VER, .reg
    R.PLC_CNT1.DROP, .reg R.PLC_CNT1.IMP, .reg R.PLC_COORD_SER_HI.SERIAL, .reg R.PLC_COORD_SER_LO.SERIAL, .reg R.PLC_STAT.NSTN, .reg R.PLC_STAT.STATE,
    .reg R.PLC_STAT.STN, .reg R.TB_ERR.ERR] : List Part))) s t) ∧
  (∀ (s : State), ∃ t, exec (.beaconMissed) s = .next t ∧ Unchanged (within (logParts ++ ([.plc, .reg R.PLC_BEACON.MISSED, .reg
    R.PLC_BEACON.SCHED_VER, .reg R.PLC_CNT2.BCN_LOST, .reg R.PLC_STAT.BCN_SEEN] : List Part))) s t) ∧
  (∀ (s : State), ∃ t, exec (.coordinatorTakeover) s = .next t ∧ Unchanged (within (routeParts ++ ([.tb, .inst R.FAB_LANE_STAT.DIR 8 0, .reg
    R.FAB_LANE_STAT.TPARENT, .reg R.PLC_BEACON.MISSED, .reg R.PLC_CNT1.DROP, .reg R.PLC_COORD_SER_HI.SERIAL, .reg R.PLC_COORD_SER_LO.SERIAL, .reg
    R.PLC_DLY.DLY, .reg R.PLC_STAT.NSTN, .reg R.PLC_STAT.STATE, .reg R.PLC_STAT.STN, .reg R.PLC_STAT.TIME_SRC, .reg R.TB_HOLD.HOLD_CYC, .reg
    R.TB_STAT.ALIGNED, .reg R.TB_STAT.SRC, .reg R.TB_STAT.STATE] : List Part))) s t) ∧
  (∀ (s : State), ∃ t, exec (.successorHandover) s = .next t ∧ Unchanged (within (routeParts ++ ([.tb, .inst R.FAB_LANE_STAT.DIR 8 0, .reg
    R.FAB_LANE_STAT.TPARENT, .reg R.PLC_BEACON.MISSED, .reg R.PLC_CNT1.DROP, .reg R.PLC_COORD_SER_HI.SERIAL, .reg R.PLC_COORD_SER_LO.SERIAL, .reg
    R.PLC_DLY.DLY, .reg R.PLC_STAT.NSTN, .reg R.PLC_STAT.STATE, .reg R.PLC_STAT.STN, .reg R.PLC_STAT.TIME_SRC, .reg R.TB_HOLD.HOLD_CYC, .reg
    R.TB_STAT.ALIGNED, .reg R.TB_STAT.SRC, .reg R.TB_STAT.STATE] : List Part))) s t) ∧
  (∀ (s : State) (stn sym : Nat), ∃ t, exec (.plcFrameSend stn sym) s = .next t ∧ Unchanged (within (routeParts ++ ([.inst R.FAB_LANE_STAT.DIR 8 0,
    .reg R.FAB_LANE_STAT.TPARENT, .reg R.PLC_CNT0.RETX, .reg R.PLC_CNT1.DROP] : List Part))) s t) ∧
  (∀ (s : State) (stn dst kcls klvl kprio bpc : Nat) (erased : PlcRx) (segs : List RxSeg), ∃ t, exec (.plcFrameReceive stn dst kcls klvl kprio bpc
    erased segs) s = .next t ∧ Unchanged (within (logParts ++ ([.fab, .out, .plc, .reg R.FAB_DROP0.EPOCH, .reg R.FAB_DROP0.HOPORI, .reg
    R.FAB_DROP0.STALL, .reg R.FAB_DROP0.UNREACH, .reg R.FAB_DROP1.RSP_DROP, .reg R.FAB_DROP1.URG_DEMOTE, .reg R.PLC_CNT0.SEG_FAIL, .reg
    R.PLC_CNT1.IMP] : List Part))) s t) ∧
  (∀ (s : State) (stn ackSeq : Nat) (ackMap : PlcAck), ∃ t, exec (.plcAcknowledgement stn ackSeq ackMap) s = .next t ∧ Unchanged (within (routeParts
    ++ ([.inst R.FAB_LANE_STAT.DIR 8 0, .reg R.FAB_LANE_STAT.TPARENT, .reg R.PLC_CNT1.DROP] : List Part))) s t) ∧
  (∀ (s : State) (stn : Nat), ∃ t, exec (.segmentDiscard stn) s = .next t ∧ Unchanged (within (routeParts ++ ([.inst R.FAB_LANE_STAT.DIR 8 0, .reg
    R.FAB_LANE_STAT.TPARENT, .reg R.PLC_CNT1.DROP] : List Part))) s t) ∧
  (∀ (s : State) (rx : Option Nat) (serial node : Nat), ∃ t, exec (.associationRequest rx serial node) s = .next t ∧ Unchanged (within (routeParts
    ++ ([.inst R.FAB_LANE_STAT.DIR 8 0, .reg R.FAB_LANE_STAT.TPARENT, .reg R.PLC_CNT1.DROP, .reg R.PLC_STAT.NSTN] : List Part))) s t) ∧
  (∀ (s : State) (stn : Nat), ∃ t, exec (.stationRemove stn) s = .next t ∧ Unchanged (within (routeParts ++ ([.inst R.FAB_LANE_STAT.DIR 8 0, .reg
    R.FAB_LANE_STAT.TPARENT, .reg R.PLC_CNT1.DROP, .reg R.PLC_STAT.NSTN] : List Part))) s t) ∧
  (∀ (s : State) (stn : Nat), ∃ t, exec (.sounding stn) s = .next t ∧ Unchanged (within ([.out, .plc] : List Part)) s t) ∧
  (∀ (s : State) (stn : Nat) (mine : Bool) (id rate : Nat) (codes : List Nat), ∃ t, exec (.toneMapIssue stn mine id rate codes) s = .next t ∧
    Unchanged (within (logParts ++ ([.plc, .reg R.PLC_CNT2.TMAP_REF] : List Part))) s t) ∧
  (∀ (s : State) (stn secs : Nat), ∃ t, exec (.toneMapRefresh stn secs) s = .next t ∧ Unchanged (within ([.plc])) s t) ∧
  (∀ (s : State) (stn : Nat), ∃ t, exec (.linkDegraded stn) s = .next t ∧ Unchanged (within (logParts ++ ([.plc, .reg R.PLC_STAT.DEGR_SEEN] : List
    Part))) s t) ∧
  (∀ (s : State) (stn : Nat) (t1 t2 t3 t4 : Int) (stableMs : Nat) (downS : Option Nat), ∃ t, exec (.ranging stn t1 t2 t3 t4 stableMs downS) s = .next
    t ∧ Unchanged (within (electParts ++ ([.plc, .tb, .reg R.FAB_KEY.OWN_CLASS, .reg R.PLC_DLY.DLY, .reg R.PLC_STAT.TIME_SRC, .reg R.TB_HOLD.HOLD_CYC,
    .reg R.TB_STAT.ALIGNED, .reg R.TB_STAT.SRC, .reg R.TB_STAT.STATE] : List Part))) s t) ∧
  (∀ (s : State) (ms : Nat), ∃ t, exec (.couplerAbsent ms) s = .next t ∧ Unchanged (within (routeParts ++ ([.pins, .inst R.FAB_LANE_STAT.DIR 8 0, .reg
    R.FAB_LANE_STAT.TPARENT, .reg R.PLC_CNT1.DROP, .reg R.PLC_STAT.ABS_SEEN, .reg R.PLC_STAT.NSTN, .reg R.PLC_STAT.STATE, .reg R.PLC_STAT.STN] : List
    Part))) s t) ∧
  (∀ (s : State), ∃ t, exec (.couplerPresent) s = .next t ∧ Unchanged (within ([.pins, .reg R.PLC_BEACON.MISSED, .reg R.PLC_STAT.NSTN, .reg
    R.PLC_STAT.STATE, .reg R.PLC_STAT.STN] : List Part)) s t)

/-- The frame of the commands of Metrology: outside the parts listed for a command, nothing changes, whatever the state and the operands. How the
parts are cut is the model's own. -/
def Obligations.MetrologyFrame : Prop :=
  (∀ (s : State) (p : Nat) (xv xi : Int), ∃ t, exec (.metrologySample p xv xi) s = .next t ∧ Unchanged (within (logParts ++ ([.bil, .met, .inst
    R.BIL_PT_DEMF.DEM_F p 0, .inst R.BIL_PT_DEMR.DEM_R p 0, .inst R.BIL_PT_SESS.SESS_WH p 0, .inst R.MET_PT_AH_F_HI.W p 0, .inst R.MET_PT_AH_F_LO.W p 0,
    .inst R.MET_PT_AH_R_HI.W p 0, .inst R.MET_PT_AH_R_LO.W p 0, .inst R.MET_PT_DISP_F_HI.W p 0, .inst R.MET_PT_DISP_F_LO.W p 0, .inst
    R.MET_PT_DISP_R_HI.W p 0, .inst R.MET_PT_DISP_R_LO.W p 0, .inst R.MET_PT_FINE_F_HI.W p 0, .inst R.MET_PT_FINE_F_LO.W p 0, .inst
    R.MET_PT_FINE_F_MID.W p 0, .inst R.MET_PT_FINE_R_HI.W p 0, .inst R.MET_PT_FINE_R_LO.W p 0, .inst R.MET_PT_FINE_R_MID.W p 0, .inst R.MET_PT_GAP.GAP p
    0, .inst R.MET_PT_LOSS_HI.W p 0, .inst R.MET_PT_LOSS_LO.W p 0, .inst R.MET_PT_MWH_F_HI.W p 0, .inst R.MET_PT_MWH_F_LO.W p 0, .inst
    R.MET_PT_MWH_R_HI.W p 0, .inst R.MET_PT_MWH_R_LO.W p 0, .inst R.MET_PT_PEAK_I.PEAK_I p 0, .inst R.MET_PT_PEAK_P.PEAK_P p 0, .inst
    R.MET_PT_PEAK_V.PEAK_V p 0, .inst R.MET_PT_QR_F.QR_F p 0, .inst R.MET_PT_QR_R.QR_R p 0, .inst R.MET_PT_SNAP_TS_HI.STAMP p 0, .inst
    R.MET_PT_SNAP_TS_LO.STAMP p 0, .inst R.MET_PT_STAT.DIR p 0, .inst R.MET_PT_STAT.GAP_SEEN p 0, .inst R.MET_PT_STAT.REV_SEEN p 0, .inst
    R.MET_PT_STAT.SNAP_HELD p 0, .inst R.MET_PT_STAT.VALID p 0, .inst R.MET_PT_STAT.WRAP_SEEN p 0, .inst R.MET_PT_TCAB.T_USED p 0, .inst
    R.MET_PT_WH_F_HI.W p 0, .inst R.MET_PT_WH_F_LO.W p 0, .inst R.MET_PT_WH_R_HI.W p 0, .inst R.MET_PT_WH_R_LO.W p 0, .reg R.BIL_STORE.INT_N, .reg
    R.BIL_STORE.SESS_FULL, .reg R.BIL_STORE.SESS_UNACK, .reg R.BIL_STORE.SIG_PEND, .reg R.BIL_STORE_PER.PER_N, .reg R.MET_CH_RAW.RAW, .reg
    R.MET_CH_VAL.VAL, .reg R.MET_SNAP.TAKEN, .reg R.MET_STAT.BANK_ON, .reg R.MET_STAT.PT_EN, .reg R.MET_STAT.PT_VALID, .reg R.MET_STAT.STAMPS] : List
    Part))) s t) ∧
  (∀ (s : State) (c run : Nat), ∃ t, exec (.channelStuck c run) s = .next t ∧ Unchanged (within (logParts ++ ([.reg R.MET_CH_FLT.STUCK, .reg
    R.MET_CH_FLT_SEEN.STUCK_SEEN, .reg R.MET_PT_STAT.VALID, .reg R.MET_STAT.BANK_ON, .reg R.MET_STAT.PT_EN, .reg R.MET_STAT.PT_VALID, .reg
    R.MET_STAT.STAMPS, .inst R.MET_CH_VAL.VAL c 0] : List Part))) s t) ∧
  (∀ (s : State) (c n : Nat), ∃ t, exec (.channelOverRange c n) s = .next t ∧ Unchanged (within (logParts ++ ([.reg R.MET_CH_FLT.OVR, .reg
    R.MET_CH_FLT_SEEN.OVR_SEEN, .reg R.MET_PT_STAT.VALID, .reg R.MET_STAT.BANK_ON, .reg R.MET_STAT.PT_EN, .reg R.MET_STAT.PT_VALID, .reg
    R.MET_STAT.STAMPS, .inst R.MET_CH_VAL.VAL c 0] : List Part))) s t) ∧
  (∀ (s : State) (c kind n : Nat), ∃ t, exec (.channelFaultClear c kind n) s = .next t ∧ Unchanged (within ([.reg R.MET_CH_FLT.OVR, .reg
    R.MET_CH_FLT.STUCK])) s t) ∧
  (∀ (s : State) (p : Nat), ∃ t, exec (.pointBlockPublish p) s = .next t ∧ Unchanged (within ([.met, .inst R.MET_PT_I.I p 0, .inst R.MET_PT_P.P p 0,
    .inst R.MET_PT_PLOSS.PLOSS p 0, .inst R.MET_PT_V.V p 0])) s t) ∧
  (∀ (s : State) (lateUs : Nat), ∃ t, exec (.packCurrentRequest lateUs) s = .next t ∧ Unchanged (within (logParts ++ ([.cs, .out] : List Part))) s t)
    ∧
  (∀ (s : State) (p : Nat), ∃ t, exec (.cableTemperatureUpdate p) s = .next t ∧ Unchanged (within ([.met, .inst R.MET_PT_TCAB.T_USED p 0] : List
    Part)) s t) ∧
  (∀ (s : State) (p ms : Nat), ∃ t, exec (.cableTFallback p ms) s = .next t ∧ Unchanged (within (logParts ++ ([.met, .inst R.MET_PT_STAT.TFALL p 0,
    .inst R.MET_PT_STAT.TFALL_SEEN p 0, .inst R.MET_PT_TCAB.T_USED p 0] : List Part))) s t) ∧
  (∀ (s : State) (p secs : Nat), ∃ t, exec (.cableTReturn p secs) s = .next t ∧ Unchanged (within (logParts ++ ([.met, .inst R.MET_PT_STAT.TFALL p 0,
    .inst R.MET_PT_TCAB.T_USED p 0] : List Part))) s t) ∧
  (∀ (s : State) (sess p : Nat), ∃ t, exec (.pointEnable sess p) s = .next t ∧ Unchanged (within (logParts ++ ([.met, .out, .inst R.MET_PT_CFG.EN p 0,
    .inst R.MET_PT_STAT.CFG_ERR p 0, .inst R.MET_PT_STAT.VALID p 0, .reg R.BIL_DIG.BIL_DIG, .reg R.MET_PARAM_DIG.DIG, .reg R.MET_STAT.BANK_ON, .reg
    R.MET_STAT.PT_EN, .reg R.MET_STAT.PT_VALID, .reg R.MET_STAT.STAMPS] : List Part))) s t) ∧
  (∀ (s : State) (sess mask : Nat), ∃ t, exec (.snapshotTake sess mask) s = .next t ∧ Unchanged (within (logParts ++ ([.met, .out, .reg
    R.MET_SNAP.SNAP] : List Part))) s t) ∧
  (∀ (s : State) (sess mask : Nat), ∃ t, exec (.snapshotRelease sess mask) s = .next t ∧ Unchanged (within (logParts ++ ([.met, .out, .reg
    R.MET_PT_AH_F_HI.W, .reg R.MET_PT_AH_F_LO.W, .reg R.MET_PT_AH_R_HI.W, .reg R.MET_PT_AH_R_LO.W, .reg R.MET_PT_DISP_F_HI.W, .reg R.MET_PT_DISP_F_LO.W,
    .reg R.MET_PT_DISP_R_HI.W, .reg R.MET_PT_DISP_R_LO.W, .reg R.MET_PT_FINE_F_HI.W, .reg R.MET_PT_FINE_F_LO.W, .reg R.MET_PT_FINE_F_MID.W, .reg
    R.MET_PT_FINE_R_HI.W, .reg R.MET_PT_FINE_R_LO.W, .reg R.MET_PT_FINE_R_MID.W, .reg R.MET_PT_GAP.GAP, .reg R.MET_PT_LOSS_HI.W, .reg
    R.MET_PT_LOSS_LO.W, .reg R.MET_PT_MWH_F_HI.W, .reg R.MET_PT_MWH_F_LO.W, .reg R.MET_PT_MWH_R_HI.W, .reg R.MET_PT_MWH_R_LO.W, .reg R.MET_PT_QR_F.QR_F,
    .reg R.MET_PT_QR_R.QR_R, .reg R.MET_PT_SNAP_TS_HI.STAMP, .reg R.MET_PT_SNAP_TS_LO.STAMP, .reg R.MET_PT_STAT.SNAP_HELD, .reg R.MET_PT_TCAB.T_USED,
    .reg R.MET_PT_WH_F_HI.W, .reg R.MET_PT_WH_F_LO.W, .reg R.MET_PT_WH_R_HI.W, .reg R.MET_PT_WH_R_LO.W, .reg R.MET_SNAP.SNAP, .reg R.MET_SNAP.TAKEN] :
    List Part))) s t) ∧
  (∀ (s : State), ∃ t, exec (.snapshotAction) s = .next t ∧ Unchanged (within (logParts ++ launchParts ++ ([.met, .reg R.MET_SNAP.SNAP] : List Part)))
    s t) ∧
  (∀ (s : State), ∃ t, exec (.snapshotReleaseAction) s = .next t ∧ Unchanged (within (launchParts ++ ([.met, .reg R.MET_PT_AH_F_HI.W, .reg
    R.MET_PT_AH_F_LO.W, .reg R.MET_PT_AH_R_HI.W, .reg R.MET_PT_AH_R_LO.W, .reg R.MET_PT_DISP_F_HI.W, .reg R.MET_PT_DISP_F_LO.W, .reg
    R.MET_PT_DISP_R_HI.W, .reg R.MET_PT_DISP_R_LO.W, .reg R.MET_PT_FINE_F_HI.W, .reg R.MET_PT_FINE_F_LO.W, .reg R.MET_PT_FINE_F_MID.W, .reg
    R.MET_PT_FINE_R_HI.W, .reg R.MET_PT_FINE_R_LO.W, .reg R.MET_PT_FINE_R_MID.W, .reg R.MET_PT_GAP.GAP, .reg R.MET_PT_LOSS_HI.W, .reg
    R.MET_PT_LOSS_LO.W, .reg R.MET_PT_MWH_F_HI.W, .reg R.MET_PT_MWH_F_LO.W, .reg R.MET_PT_MWH_R_HI.W, .reg R.MET_PT_MWH_R_LO.W, .reg R.MET_PT_QR_F.QR_F,
    .reg R.MET_PT_QR_R.QR_R, .reg R.MET_PT_SNAP_TS_HI.STAMP, .reg R.MET_PT_SNAP_TS_LO.STAMP, .reg R.MET_PT_STAT.SNAP_HELD, .reg R.MET_PT_TCAB.T_USED,
    .reg R.MET_PT_WH_F_HI.W, .reg R.MET_PT_WH_F_LO.W, .reg R.MET_PT_WH_R_HI.W, .reg R.MET_PT_WH_R_LO.W, .reg R.MET_SNAP.SNAP, .reg R.MET_SNAP.TAKEN] :
    List Part))) s t) ∧
  (∀ (s : State) (sess p : Nat), ∃ t, exec (.peakClear sess p) s = .next t ∧ Unchanged (within (logParts ++ ([.out, .inst R.MET_PT_PEAK_I.PEAK_I p 0,
    .inst R.MET_PT_PEAK_P.PEAK_P p 0, .inst R.MET_PT_PEAK_V.PEAK_V p 0] : List Part))) s t) ∧
  (∀ (s : State) (p n : Nat) (peak : List (BitVec 63)), ∃ t, exec (.overCurrent p n peak) s = .next t ∧ Unchanged (within (safeOffParts ++ ([.grpx,
    .phx, .tb, .inst R.MET_PT_STAT.OC p 0, .inst R.MET_PT_STAT.OC_SEEN p 0, .reg R.PE_GRP_STAT.LIMITING] : List Part))) s t) ∧
  (∀ (s : State) (p ms : Nat), ∃ t, exec (.overCurrentClear p ms) s = .next t ∧ Unchanged (within ([.inst R.MET_PT_STAT.OC p 0])) s t) ∧
  (∀ (s : State) (n : Nat), ∃ t, exec (.pulseEmit n) s = .next t ∧ Unchanged (within (logParts ++ ([.met, .pins, .inst R.MET_PUL_CNT.CNT n 0, .inst
    R.MET_PUL_STAT.OVF n 0, .inst R.MET_PUL_STAT.PEND n 0] : List Part))) s t) ∧
  (∀ (s : State) (n x : Nat), ∃ t, exec (.pulseEnd n x) s = .next t ∧ Unchanged (within ([.met, .pins, .inst R.MET_PUL_CNT.CNT n 0, .inst
    R.MET_PUL_STAT.PEND n 0])) s t) ∧
  (∀ (s : State) (secs : Nat), ∃ t, exec (.metrologyCommit secs) s = .next t ∧ Unchanged (within ([.bil, .bilCom, .met, .reg R.BIL_PT_DEMF.DEM_F, .reg
    R.BIL_PT_DEMR.DEM_R, .reg R.BIL_STORE.INT_N, .reg R.BIL_STORE.SESS_FULL, .reg R.BIL_STORE.SESS_UNACK, .reg R.BIL_STORE.SIG_PEND, .reg
    R.BIL_STORE_PER.PER_N] : List Part)) s t) ∧
  (∀ (s : State) (secs : Nat), ∃ t, exec (.accumulationStart secs) s = .next t ∧ Unchanged (within (logParts ++ ([.met, .pins, .reg R.MET_PUL_CNT.CNT,
    .reg R.MET_PUL_STAT.PEND, .reg R.MET_STAT.ACC, .reg R.MET_STAT.BANK_ON, .reg R.MET_STAT.HOLD_WAIT, .reg R.MET_STAT.PT_EN, .reg R.MET_STAT.PT_VALID,
    .reg R.MET_STAT.STAMPS, .reg R.MET_STAT.UNCLOSED, .reg R.SYS_BOOT_STAT.STEP, .reg R.SYS_READY.RDY, .reg R.UPD_FW_MINSEC.MINSEC] : List Part))) s t) ∧
  (∀ (s : State) (sess confirm : Nat), ∃ t, exec (.sealSet sess confirm) s = .next t ∧ Unchanged (within (logParts ++ ([.out, .reg
    R.MET_PARAM_DIG.DIG, .reg R.MET_SEAL.CONFIRM, .reg R.MET_SEAL.SEALED, .reg R.MET_SEAL.SEAL_CNT, .reg R.MET_SEAL.SET, .reg R.MET_SEAL.SET_STATUS,
    .reg R.MET_STAT.SEALED, .reg R.TMX_SEL_A.ADM, .reg R.TMX_SEL_A.SEL, .reg R.TMX_SEL_D.ADM, .reg R.TMX_SEL_D.SEL, .reg R.TMX_STAT.ACT_A, .reg
    R.TMX_STAT.ACT_D, .reg R.TMX_STAT.DROP_SEEN] : List Part))) s t)

/-- The frame of the commands of Billing: outside the parts listed for a command, nothing changes, whatever the state and the operands. How the
parts are cut is the model's own. -/
def Obligations.BillingFrame : Prop :=
  (∀ (s : State), ∃ t, exec (.billingTick) s = .next t ∧ Unchanged (within ([.bil, .evr, .met, .regs, .updN])) s t) ∧
  (∀ (s : State) (sess : Nat), ∃ t, exec (.rebase sess) s = .next t ∧ Unchanged (within (logParts ++ ([.bil, .met, .out, .reg R.BIL_BT.BT, .reg
    R.BIL_CLK_CMD.REBASE, .reg R.BIL_CLK_CMD.STATUS, .reg R.BIL_EPOCH.EPOCH, .reg R.BIL_OFS.BT_OFS, .reg R.BIL_PT_DEMF.DEM_F, .reg R.BIL_PT_DEMR.DEM_R,
    .reg R.BIL_STAT.CLK_ST, .reg R.BIL_STAT.CLK_VALID, .reg R.BIL_STORE.INT_N, .reg R.BIL_STORE.SESS_FULL, .reg R.BIL_STORE.SESS_UNACK, .reg
    R.BIL_STORE.SIG_PEND, .reg R.BIL_STORE_PER.PER_N] : List Part))) s t) ∧
  (∀ (s : State) (sess : Nat), ∃ t, exec (.calendarActivate sess) s = .next t ∧ Unchanged (within (logParts ++ ([.out, .reg R.BIL_CAL_CTRL.ACTIVATE,
    .reg R.BIL_CAL_CTRL.CHK_STATUS, .reg R.BIL_CAL_CTRL.CHK_WORD] : List Part))) s t) ∧
  (∀ (s : State) (sess : Nat), ∃ t, exec (.periodCloseCommand sess) s = .next t ∧ Unchanged (within (logParts ++ ([.out, .reg R.BIL_PER_CMD.CLOSE] :
    List Part))) s t) ∧
  (∀ (s : State), ∃ t, exec (.periodCloseAction) s = .next t ∧ Unchanged (within (logParts ++ launchParts ++ ([.bil] : List Part))) s t) ∧
  (∀ (s : State) (p conn id : Nat) (ident : List Nat) (stamp : Nat), ∃ t, exec (.sessionOpen p conn id ident stamp) s = .next t ∧ Unchanged (within
    (logParts ++ ([.bil, .met, .reg R.BIL_STORE.SESS_FULL] : List Part))) s t) ∧
  (∀ (s : State) (p reason stamp : Nat), ∃ t, exec (.sessionClose p reason stamp) s = .next t ∧ Unchanged (within ([.bil])) s t) ∧
  (∀ (s : State) (sess n : Nat), ∃ t, exec (.sessionAck sess n) s = .next t ∧ Unchanged (within (logParts ++ ([.bil, .out, .reg
    R.BIL_SESS_ACK.ACK_NUM, .reg R.BIL_STORE.INT_N, .reg R.BIL_STORE.SESS_FULL, .reg R.BIL_STORE.SESS_UNACK, .reg R.BIL_STORE.SIG_PEND, .reg
    R.BIL_STORE_PER.PER_N] : List Part))) s t) ∧
  (∀ (s : State), ∃ t, exec (.tamperQueueMove) s = .next t ∧ Unchanged (within (logParts ++ ([.tmp, .reg R.BIL_TMP.N_Q] : List Part))) s t) ∧
  (∀ (s : State) (sess : Nat), ∃ t, exec (.tamperAck sess) s = .next t ∧ Unchanged (within (logParts ++ ([.bil, .out, .reg R.BIL_TMP.TMP_PEND] : List
    Part))) s t) ∧
  (∀ (s : State), ∃ t, exec (.displayFrame) s = .next t ∧ Unchanged (within (logParts ++ ([.bil, .out, .reg R.BIL_DISP_STAT.DEFAULT_SEQ] : List
    Part))) s t) ∧
  (∀ (s : State) (ok : List Nat), ∃ t, exec (.displayAnswer ok) s = .next t ∧ Unchanged (within (logParts ++ ([.bil, .reg R.BIL_DISP_STAT.DISP_FLT,
    .reg R.BIL_DISP_STAT.FLT_SEEN] : List Part))) s t) ∧
  (∀ (s : State) (secs : Nat), ∃ t, exec (.pageAdvance secs) s = .next t ∧ Unchanged (within (logParts ++ ([.bil, .out, .reg
    R.BIL_DISP_STAT.DEFAULT_SEQ, .reg R.BIL_DISP_STAT.PAGE] : List Part))) s t) ∧
  (∀ (s : State), ∃ t, exec (.displayButtonShort) s = .next t ∧ Unchanged (within (logParts ++ ([.bil, .out, .reg R.BIL_DISP_STAT.DEFAULT_SEQ, .reg
    R.BIL_DISP_STAT.MANUAL, .reg R.BIL_DISP_STAT.PAGE] : List Part))) s t) ∧
  (∀ (s : State), ∃ t, exec (.displayButtonLong) s = .next t ∧ Unchanged (within (logParts ++ ([.bil, .out, .reg R.BIL_DISP_STAT.DEFAULT_SEQ, .reg
    R.BIL_DISP_STAT.PAGE] : List Part))) s t) ∧
  (∀ (s : State) (secs : Nat), ∃ t, exec (.manualAdvanceResume secs) s = .next t ∧ Unchanged (within ([.reg R.BIL_DISP_STAT.MANUAL])) s t)

/-- The frame of the commands of the Vehicle Session: outside the parts listed for a command, nothing changes, whatever the state and the operands.
How the parts are cut is the model's own. -/
def Obligations.VehicleFrame : Prop :=
  (∀ (s : State) (c mv n : Nat), ∃ t, exec (.interlockOpen c mv n) s = .next t ∧ Unchanged (within (logParts ++ stopParts ++ ([.inst
    R.VS_CONN_STAT.COMPLY c 0, .inst R.VS_CONN_STAT.END c 0, .inst R.VS_CONN_STAT.FAST c 0, .inst R.VS_CONN_STAT.IL c 0, .inst R.VS_CONN_STAT.STATE
    c 0] : List Part))) s t) ∧
  (∀ (s : State) (c mv ms : Nat), ∃ t, exec (.proximityChange c mv ms) s = .next t ∧ Unchanged (within (stopParts ++ ([.inst R.VS_CONN_CNT.FAULTS c 0,
    .inst R.VS_CONN_STAT.COMPLY c 0, .inst R.VS_CONN_STAT.END c 0, .inst R.VS_CONN_STAT.FAST c 0, .inst R.VS_CONN_STAT.FAULT_SEEN c 0, .inst
    R.VS_CONN_STAT.PROX c 0, .inst R.VS_CONN_STAT.STATE c 0] : List Part))) s t) ∧
  (∀ (s : State) (c ms : Nat), ∃ t, exec (.plugIn c ms) s = .next t ∧ Unchanged (within (logParts ++ ([.conns, .inst R.VS_CONN_AUTH.AUTH c 0, .inst
    R.VS_CONN_EV.I_EV c 0, .inst R.VS_CONN_EV.V_EV c 0, .inst R.VS_CONN_STAT.COMPLY c 0, .inst R.VS_CONN_STAT.DIR c 0, .inst R.VS_CONN_STAT.ID c 0,
    .inst R.VS_CONN_STAT.IMD_WARN c 0, .inst R.VS_CONN_STAT.MODE c 0, .inst R.VS_CONN_STAT.STATE c 0, .reg R.VS_CONN_ID.ID] : List Part))) s t) ∧
  (∀ (s : State) (c : TlsHello), ∃ t, exec (.tlsSessionEstablished c) s = .next t ∧ Unchanged (within ([.conns, .reg R.VS_CONN_STAT.STATE] : List
    Part)) s t) ∧
  (∀ (s : State) (c ms : Nat), ∃ t, exec (.plugTimeout c ms) s = .next t ∧ Unchanged (within ([.inst R.VS_CONN_STAT.END c 0, .inst R.VS_CONN_STAT.FAST
    c 0, .inst R.VS_CONN_STAT.STATE c 0])) s t) ∧
  (∀ (s : State) (c : Nat), ∃ t, exec (.supportedAppProtocol c) s = .next t ∧ Unchanged (within ([.out])) s t) ∧
  (∀ (s : State) (c sid : Nat), ∃ t, exec (.sessionSetup c sid) s = .next t ∧ Unchanged (within ([.conns, .out])) s t) ∧
  (∀ (s : State) (c : Nat), ∃ t, exec (.authorizationSetup c) s = .next t ∧ Unchanged (within ([.out])) s t) ∧
  (∀ (s : State) (c : Nat) (pnc : Bool) (ident : List Nat) (chainOk : ChainObs), ∃ t, exec (.authorization c pnc ident chainOk) s = .next t ∧
    Unchanged (within (logParts ++ ([.conns, .out, .vault, .inst R.VS_CONN_STAT.ID c 0, .reg R.KV_STAT.N_BAD, .reg R.KV_STAT.N_USED, .reg
    R.KV_STAT.N_WORK, .reg R.VS_CONN_ID.ID] : List Part))) s t) ∧
  (∀ (s : State) (c : Nat), ∃ t, exec (.serviceDiscovery c) s = .next t ∧ Unchanged (within ([.out])) s t) ∧
  (∀ (s : State) (c : Nat), ∃ t, exec (.serviceDetail c) s = .next t ∧ Unchanged (within ([.out])) s t) ∧
  (∀ (s : State) (c service mode : Nat), ∃ t, exec (.serviceSelection c service mode) s = .next t ∧ Unchanged (within ([.conns, .out, .inst
    R.VS_CONN_STAT.MODE c 0])) s t) ∧
  (∀ (s : State) (c vMax vMin iMax pMax : Nat) (iDisMax : EvDis), ∃ t, exec (.dcChargeParameterDiscovery c vMax vMin iMax pMax iDisMax) s = .next t
    ∧ Unchanged (within ([.conns, .out, .inst R.VS_CONN_ALLOW.I_ENF c 0, .inst R.VS_CONN_EV.I_EV c 0, .inst R.VS_CONN_OFFER.I_OFF c 0, .inst
    R.VS_CONN_OFFER.P_OFF c 0, .inst R.VS_CONN_STAT.COMPLY c 0, .inst R.VS_CONN_STAT.DIR c 0])) s t) ∧
  (∀ (s : State) (c : Nat), ∃ t, exec (.scheduleExchange c) s = .next t ∧ Unchanged (within ([.out, .inst R.VS_CONN_ALLOW.I_ENF c 0, .inst
    R.VS_CONN_EV.I_EV c 0, .inst R.VS_CONN_OFFER.I_OFF c 0, .inst R.VS_CONN_OFFER.P_OFF c 0, .inst R.VS_CONN_STAT.COMPLY c 0, .inst
    R.VS_CONN_STAT.DIR c 0])) s t) ∧
  (∀ (s : State) (c : Nat), ∃ t, exec (.dcCableCheck c) s = .next t ∧ Unchanged (within (logParts ++ channelParts ++ stopParts ++ ([.out, .inst
    R.VS_CONN_STAT.COMPLY c 0, .inst R.VS_CONN_STAT.END c 0, .inst R.VS_CONN_STAT.FAST c 0, .inst R.VS_CONN_STAT.STATE c 0] : List Part))) s t) ∧
  (∀ (s : State) (c ms : Nat), ∃ t, exec (.dcPlusClose c ms) s = .next t ∧ Unchanged (within (channelParts ++ ([.conns] : List Part))) s t) ∧
  (∀ (s : State) (c ms : Nat), ∃ t, exec (.cableCheckStart c ms) s = .next t ∧ Unchanged (within ([.conns, .grpx, .tb, .inst R.VS_CONN_STAT.COMPLY c
    0, .inst R.VS_CONN_STAT.STATE c 0, .reg R.LE_L_R_TGT.R_TGT, .reg R.LE_L_U_MAX.U_MAX, .reg R.LE_L_U_MIN.U_MIN, .reg R.PE_GRP_CTRL.EN, .reg
    R.PE_GRP_STAT.LIMITING, .reg R.PE_GRP_STAT.OVS_STATE, .reg R.PE_GRP_STAT.START_BLK, .reg R.PE_GRP_STAT.STATE, .reg R.PE_STAT.GRP_FAULT, .reg
    R.PE_STAT.GRP_RUN] : List Part)) s t) ∧
  (∀ (s : State) (c ms isoMs : Nat), ∃ t, exec (.cableCheckFinish c ms isoMs) s = .next t ∧ Unchanged (within ([.conns])) s t) ∧
  (∀ (s : State) (c v : Nat), ∃ t, exec (.dcPreCharge c v) s = .next t ∧ Unchanged (within ([.conns, .out, .inst R.VS_CONN_EV.V_EV c 0, .inst
    R.VS_CONN_STAT.COMPLY c 0, .inst R.VS_CONN_STAT.STATE c 0, .reg R.LE_L_R_TGT.R_TGT, .reg R.LE_L_U_MAX.U_MAX, .reg R.LE_L_U_MIN.U_MIN] : List Part))
    s t) ∧
  (∀ (s : State) (c : Nat), ∃ t, exec (.powerDeliveryStart c) s = .next t ∧ Unchanged (within (logParts ++ stopParts ++ ([.bil, .met, .out, .reg
    R.BIL_STORE.SESS_FULL, .inst R.VS_CONN_CNT.SESS c 0, .inst R.VS_CONN_STAT.COMPLY c 0, .inst R.VS_CONN_STAT.END c 0, .inst R.VS_CONN_STAT.FAST c
    0, .inst R.VS_CONN_STAT.STATE c 0] : List Part))) s t) ∧
  (∀ (s : State) (c : Nat), ∃ t, exec (.powerDeliveryStop c) s = .next t ∧ Unchanged (within (logParts ++ stopParts ++ ([.out, .inst
    R.VS_CONN_STAT.COMPLY c 0, .inst R.VS_CONN_STAT.END c 0, .inst R.VS_CONN_STAT.FAST c 0, .inst R.VS_CONN_STAT.STATE c 0] : List Part))) s t) ∧
  (∀ (s : State) (c : Nat), ∃ t, exec (.standby c) s = .next t ∧ Unchanged (within ([.conns, .out])) s t) ∧
  (∀ (s : State) (c v : Nat) (idx : Int) (vMax vMin iMax pMax : Nat) (iDisMax : EvDis), ∃ t, exec (.dcChargeLoop c v idx vMax vMin iMax pMax
    iDisMax) s = .next t ∧ Unchanged (within ([.conns, .out, .inst R.VS_CONN_ALLOW.I_ENF c 0, .inst R.VS_CONN_EV.I_EV c 0, .inst R.VS_CONN_EV.V_EV c
    0, .inst R.VS_CONN_OFFER.I_OFF c 0, .inst R.VS_CONN_OFFER.P_OFF c 0, .inst R.VS_CONN_STAT.COMPLY c 0, .inst R.VS_CONN_STAT.DIR c 0])) s t) ∧
  (∀ (s : State) (c : Nat), ∃ t, exec (.dcWeldingDetection c) s = .next t ∧ Unchanged (within ([.out])) s t) ∧
  (∀ (s : State) (c : Nat), ∃ t, exec (.sessionStop c) s = .next t ∧ Unchanged (within (logParts ++ stopParts ++ ([.out, .inst R.VS_CONN_STAT.COMPLY c
    0, .inst R.VS_CONN_STAT.END c 0, .inst R.VS_CONN_STAT.FAST c 0, .inst R.VS_CONN_STAT.STATE c 0] : List Part))) s t) ∧
  (∀ (s : State) (c : Nat) (seqTimeout : Bool), ∃ t, exec (.fastStop c seqTimeout) s = .next t ∧ Unchanged (within (logParts ++ stopParts ++ ([.inst
    R.VS_CONN_STAT.COMPLY c 0, .inst R.VS_CONN_STAT.END c 0, .inst R.VS_CONN_STAT.FAST c 0, .inst R.VS_CONN_STAT.STATE c 0] : List Part))) s t) ∧
  (∀ (s : State) (sess c v : Nat), ∃ t, exec (.authWrite sess c v) s = .next t ∧ Unchanged (within (stopParts ++ ([.out, .inst R.VS_CONN_AUTH.AUTH c
    0, .inst R.VS_CONN_STAT.COMPLY c 0, .inst R.VS_CONN_STAT.END c 0, .inst R.VS_CONN_STAT.FAST c 0, .inst R.VS_CONN_STAT.STATE c 0] : List Part))) s t) ∧
  (∀ (s : State) (c : Nat) (secs : AuthWait), ∃ t, exec (.authTimeout c secs) s = .next t ∧ Unchanged (within (stopParts ++ ([.out, .inst
    R.VS_CONN_AUTH.AUTH c 0, .inst R.VS_CONN_STAT.COMPLY c 0, .inst R.VS_CONN_STAT.END c 0, .inst R.VS_CONN_STAT.FAST c 0, .inst R.VS_CONN_STAT.STATE
    c 0] : List Part))) s t) ∧
  (∀ (s : State) (c ms : Nat), ∃ t, exec (.preTimeout c ms) s = .next t ∧ Unchanged (within ([.inst R.VS_CONN_STAT.END c 0, .inst R.VS_CONN_STAT.FAST
    c 0, .inst R.VS_CONN_STAT.STATE c 0])) s t) ∧
  (∀ (s : State) (c ms : Nat), ∃ t, exec (.currentDecayed c ms) s = .next t ∧ Unchanged (within (channelParts ++ ([.bil, .conns, .grpx, .tb, .inst
    R.VS_CONN_STAT.STATE c 0, .reg R.PE_GRP_CTRL.EN, .reg R.PE_GRP_STAT.LIMITING, .reg R.PE_GRP_STAT.OVS_STATE, .reg R.PE_GRP_STAT.START_BLK, .reg
    R.PE_GRP_STAT.STATE, .reg R.PE_STAT.GRP_FAULT, .reg R.PE_STAT.GRP_RUN] : List Part))) s t) ∧
  (∀ (s : State) (c ms : Nat), ∃ t, exec (.decayTimeout c ms) s = .next t ∧ Unchanged (within (safeOffParts ++ ([.grpx, .phx, .tb, .inst
    R.VS_CONN_CNT.FAULTS c 0, .inst R.VS_CONN_STAT.FAULT_SEEN c 0, .reg R.PE_GRP_STAT.LIMITING] : List Part))) s t) ∧
  (∀ (s : State) (c ms : Nat), ∃ t, exec (.dcMinusOpen c ms) s = .next t ∧ Unchanged (within (channelParts)) s t) ∧
  (∀ (s : State) (c ms : Nat), ∃ t, exec (.weldCheck c ms) s = .next t ∧ Unchanged (within ([.conns, .inst R.VS_CONN_CNT.FAULTS c 0, .inst
    R.VS_CONN_STAT.COMPLY c 0, .inst R.VS_CONN_STAT.FAULT_SEEN c 0, .inst R.VS_CONN_STAT.STATE c 0, .reg R.LE_L_R_TGT.R_TGT, .reg R.LE_L_U_MAX.U_MAX,
    .reg R.LE_L_U_MIN.U_MIN] : List Part)) s t) ∧
  (∀ (s : State) (c ms : Nat) (followed : Bool), ∃ t, exec (.weldCheckComplete c ms followed) s = .next t ∧ Unchanged (within (logParts ++ stopParts
    ++ ([.inst R.VS_CONN_CNT.FAULTS c 0, .inst R.VS_CONN_STAT.COMPLY c 0, .inst R.VS_CONN_STAT.FAULT_SEEN c 0, .inst R.VS_CONN_STAT.STATE c 0] :
    List Part))) s t) ∧
  (∀ (s : State) (c ms : Nat), ∃ t, exec (.unplug c ms) s = .next t ∧ Unchanged (within (logParts ++ ([.conns, .inst R.VS_CONN_STAT.STATE c 0] : List
    Part))) s t) ∧
  (∀ (s : State) (sess c : Nat), ∃ t, exec (.stopCommand sess c) s = .next t ∧ Unchanged (within (logParts ++ stopParts ++ ([.out, .inst
    R.VS_CONN_STAT.COMPLY c 0, .inst R.VS_CONN_STAT.END c 0, .inst R.VS_CONN_STAT.FAST c 0, .inst R.VS_CONN_STAT.STATE c 0] : List Part))) s t) ∧
  (∀ (s : State) (sess c : Nat), ∃ t, exec (.faultClear sess c) s = .next t ∧ Unchanged (within (logParts ++ ([.conns, .out, .inst
    R.VS_CONN_STAT.STATE c 0] : List Part))) s t) ∧
  (∀ (s : State), ∃ t, exec (.launchedStop) s = .next t ∧ Unchanged (within (logParts ++ launchParts ++ stopParts ++ ([.reg R.VS_CONN_STAT.COMPLY,
    .reg R.VS_CONN_STAT.END, .reg R.VS_CONN_STAT.FAST, .reg R.VS_CONN_STAT.STATE] : List Part))) s t) ∧
  (∀ (s : State) (c : Nat), ∃ t, exec (.offerUpdate c) s = .next t ∧ Unchanged (within (logParts ++ stopParts ++ ([.inst R.VS_CONN_ALLOW.I_ENF c 0,
    .inst R.VS_CONN_EV.I_EV c 0, .inst R.VS_CONN_OFFER.I_OFF c 0, .inst R.VS_CONN_OFFER.P_OFF c 0, .inst R.VS_CONN_STAT.COMPLY c 0, .inst
    R.VS_CONN_STAT.DIR c 0, .inst R.VS_CONN_STAT.ENF_SEEN c 0] : List Part))) s t) ∧
  (∀ (s : State) (c : Nat), ∃ t, exec (.limitRampStep c) s = .next t ∧ Unchanged (within ([.conns, .reg R.LE_L_R_TGT.R_TGT, .reg R.LE_L_U_MAX.U_MAX,
    .reg R.LE_L_U_MIN.U_MIN, .inst R.VS_CONN_STAT.COMPLY c 0])) s t) ∧
  (∀ (s : State) (c : Nat), ∃ t, exec (.needFrame c) s = .next t ∧ Unchanged (within (routeParts)) s t) ∧
  (∀ (s : State) (g : Nat) (c : NeedFrom) (flags need rTgt : Nat) (uMax uMin : Int) (rate : Nat), ∃ t, exec (.needFrameReceive g c flags need rTgt
    uMax uMin rate) s = .next t ∧ Unchanged (within ([.grpx, .needs, .tb, .inst R.PE_GRP_CTRL.EN g 0, .inst R.PE_GRP_STAT.LIMITING g 0, .inst
    R.PE_GRP_STAT.OVS_STATE g 0, .inst R.PE_GRP_STAT.START_BLK g 0, .inst R.PE_GRP_STAT.STATE g 0, .reg R.LE_L_RATE.RATE, .reg R.LE_L_R_TGT.R_TGT,
    .reg R.LE_L_U_MAX.U_MAX, .reg R.LE_L_U_MIN.U_MIN, .reg R.PE_STAT.GRP_FAULT, .reg R.PE_STAT.GRP_RUN] : List Part)) s t) ∧
  (∀ (s : State) (g : Nat), ∃ t, exec (.allowanceFrame g) s = .next t ∧ Unchanged (within (routeParts)) s t) ∧
  (∀ (s : State) (c state : Nat) (lapsed : Bool) (exp cap p v : Nat) (idx : Int) (rev : Nat), ∃ t, exec (.allowanceFrameReceive c state lapsed exp cap
    p v idx rev) s = .next t ∧ Unchanged (within (logParts ++ stopParts ++ ([.inst R.VS_CONN_STAT.COMPLY c 0, .inst R.VS_CONN_STAT.END c 0, .inst
    R.VS_CONN_STAT.FAST c 0, .inst R.VS_CONN_STAT.STATE c 0] : List Part))) s t) ∧
  (∀ (s : State) (g : Nat), ∃ t, exec (.needFrameLoss g) s = .next t ∧ Unchanged (within (logParts ++ ([.grpx, .needs, .tb, .inst R.PE_GRP_CTRL.EN g
    0, .inst R.PE_GRP_STAT.LIMITING g 0, .inst R.PE_GRP_STAT.OVS_STATE g 0, .inst R.PE_GRP_STAT.START_BLK g 0, .inst R.PE_GRP_STAT.STATE g 0, .reg
    R.LE_L_U_MAX.U_MAX, .reg R.LE_L_U_MIN.U_MIN, .reg R.PE_STAT.GRP_FAULT, .reg R.PE_STAT.GRP_RUN] : List Part))) s t) ∧
  (∀ (s : State) (c : Nat), ∃ t, exec (.feedLost c) s = .next t ∧ Unchanged (within (logParts ++ stopParts ++ ([.inst R.VS_CONN_STAT.COMPLY c 0, .inst
    R.VS_CONN_STAT.END c 0, .inst R.VS_CONN_STAT.FAST c 0, .inst R.VS_CONN_STAT.STATE c 0] : List Part))) s t) ∧
  (∀ (s : State) (c r : Nat), ∃ t, exec (.imdUpdate c r) s = .next t ∧ Unchanged (within (logParts ++ stopParts ++ ([.inst R.VS_CONN_ISO.R_ISO c 0,
    .inst R.VS_CONN_STAT.COMPLY c 0, .inst R.VS_CONN_STAT.END c 0, .inst R.VS_CONN_STAT.FAST c 0, .inst R.VS_CONN_STAT.IMD_WARN c 0, .inst
    R.VS_CONN_STAT.STATE c 0] : List Part))) s t) ∧
  (∀ (s : State) (c ms : Nat), ∃ t, exec (.imdTimeout c ms) s = .next t ∧ Unchanged (within (logParts ++ stopParts ++ ([.inst R.VS_CONN_STAT.COMPLY c
    0, .inst R.VS_CONN_STAT.END c 0, .inst R.VS_CONN_STAT.FAST c 0, .inst R.VS_CONN_STAT.STATE c 0] : List Part))) s t) ∧
  (∀ (s : State) (c ms : Nat), ∃ t, exec (.contactorFault c ms) s = .next t ∧ Unchanged (within (logParts ++ stopParts ++ ([.inst
    R.VS_CONN_STAT.COMPLY c 0, .inst R.VS_CONN_STAT.END c 0, .inst R.VS_CONN_STAT.FAST c 0, .inst R.VS_CONN_STAT.STATE c 0] : List Part))) s t) ∧
  (∀ (s : State) (c : Nat) (closed : Bool) (ms : Nat), ∃ t, exec (.linkLost c closed ms) s = .next t ∧ Unchanged (within (logParts ++ stopParts ++
    ([.inst R.VS_CONN_STAT.COMPLY c 0, .inst R.VS_CONN_STAT.END c 0, .inst R.VS_CONN_STAT.FAST c 0, .inst R.VS_CONN_STAT.STATE c 0] : List Part))) s
    t) ∧
  (∀ (s : State) (c : Nat), ∃ t, exec (.scheduleRenegotiation c) s = .next t ∧ Unchanged (within ([.out])) s t)

/-- The frame of the commands of Thermal and the Load Switches: outside the parts listed for a command, nothing changes, whatever the state and the
operands. How the parts are cut is the model's own. -/
def Obligations.ThermalAndSwitchFrame : Prop :=
  (∀ (s : State) (n mOhm : Nat), ∃ t, exec (.sensorSample n mOhm) s = .next t ∧ Unchanged (within (logParts ++ zoneParts ++ ([.sd, .th, .inst
    R.TH_TS_RES.RES n 0, .inst R.TH_TS_STAT.FAIL_SEEN n 0, .inst R.TH_TS_STAT.STATE n 0, .inst R.TH_TS_VAL.RAW n 0, .reg R.TH_STAT.N_FAILED, .reg
    R.TH_STAT.N_SUSPECT, .reg R.TH_TS_STAT.SNOW, .reg R.TH_TS_VAL.REP, .reg R.TH_ZONE_ALLOW.ALLOW, .reg R.TH_ZONE_ALLOW.X, .reg R.TH_ZONE_STAT.HOT] :
    List Part))) s t) ∧
  (∀ (s : State) (n k : Nat), ∃ t, exec (.sensorFailed n k) s = .next t ∧ Unchanged (within (logParts ++ zoneParts ++ ([.sd, .th, .inst
    R.TH_TS_STAT.FAIL_SEEN n 0, .inst R.TH_TS_STAT.STATE n 0, .reg R.TH_STAT.N_FAILED, .reg R.TH_STAT.N_SUSPECT, .reg R.TH_TS_STAT.SNOW, .reg
    R.TH_TS_VAL.REP, .reg R.TH_ZONE_ALLOW.ALLOW, .reg R.TH_ZONE_ALLOW.X, .reg R.TH_ZONE_STAT.HOT] : List Part))) s t) ∧
  (∀ (s : State) (n secs : Nat), ∃ t, exec (.sensorRecover n secs) s = .next t ∧ Unchanged (within (logParts ++ zoneParts ++ ([.sd, .th, .inst
    R.TH_TS_STAT.STATE n 0, .reg R.TH_STAT.N_FAILED, .reg R.TH_STAT.N_SUSPECT, .reg R.TH_TS_STAT.SNOW, .reg R.TH_TS_VAL.REP, .reg R.TH_ZONE_ALLOW.ALLOW,
    .reg R.TH_ZONE_ALLOW.X, .reg R.TH_ZONE_STAT.HOT] : List Part))) s t) ∧
  (∀ (s : State) (n k : Nat), ∃ t, exec (.sensorSuspect n k) s = .next t ∧ Unchanged (within (logParts ++ zoneParts ++ ([.sd, .th, .reg
    R.TH_STAT.N_FAILED, .reg R.TH_STAT.N_SUSPECT, .reg R.TH_TS_STAT.SNOW, .reg R.TH_TS_STAT.STATE, .reg R.TH_TS_STAT.SUSP_SEEN, .reg R.TH_TS_VAL.REP,
    .reg R.TH_ZONE_ALLOW.ALLOW, .reg R.TH_ZONE_ALLOW.X, .reg R.TH_ZONE_STAT.HOT] : List Part))) s t) ∧
  (∀ (s : State) (n secs : Nat), ∃ t, exec (.suspectRecover n secs) s = .next t ∧ Unchanged (within (logParts ++ zoneParts ++ ([.sd, .th, .inst
    R.TH_TS_STAT.STATE n 0, .reg R.TH_STAT.N_FAILED, .reg R.TH_STAT.N_SUSPECT, .reg R.TH_TS_STAT.SNOW, .reg R.TH_TS_VAL.REP, .reg R.TH_ZONE_ALLOW.ALLOW,
    .reg R.TH_ZONE_ALLOW.X, .reg R.TH_ZONE_STAT.HOT] : List Part))) s t) ∧
  (∀ (s : State) (n k : Nat), ∃ t, exec (.snowlineExit n k) s = .next t ∧ Unchanged (within (logParts ++ ([.th, .reg R.TH_TS_STAT.SNOW] : List Part)))
    s t) ∧
  (∀ (s : State) (m k : Nat), ∃ t, exec (.warnLimit m k) s = .next t ∧ Unchanged (within (logParts ++ ([.th, .inst R.TH_TS_STAT.WARN m 0] : List
    Part))) s t) ∧
  (∀ (s : State) (z m k : Nat), ∃ t, exec (.zoneAsk z m k) s = .next t ∧ Unchanged (within (logParts ++ zoneParts ++ ([.inst R.TH_ZONE_ALLOW.ALLOW z
    0, .inst R.TH_ZONE_ALLOW.X z 0, .inst R.TH_ZONE_STAT.GRACE_LEFT z 0, .inst R.TH_ZONE_STAT.HOT z 0, .inst R.TH_ZONE_STAT.STATE z 0] : List
    Part))) s t) ∧
  (∀ (s : State) (z x : Nat), ∃ t, exec (.zoneEnforce z x) s = .next t ∧ Unchanged (within (logParts ++ zoneParts ++ ([.inst R.TH_ZONE_ALLOW.ALLOW z
    0, .inst R.TH_ZONE_ALLOW.X z 0, .inst R.TH_ZONE_STAT.ENF_SEEN z 0, .inst R.TH_ZONE_STAT.GRACE_LEFT z 0, .inst R.TH_ZONE_STAT.HOT z 0, .inst
    R.TH_ZONE_STAT.STATE z 0] : List Part))) s t) ∧
  (∀ (s : State) (z m k : Nat), ∃ t, exec (.zoneShutdown z m k) s = .next t ∧ Unchanged (within (safeOffParts ++ zoneParts ++ ([.grpx, .phx, .sd, .tb,
    .inst R.TH_ZONE_ALLOW.ALLOW z 0, .inst R.TH_ZONE_ALLOW.X z 0, .inst R.TH_ZONE_STAT.GRACE_LEFT z 0, .inst R.TH_ZONE_STAT.HOT z 0, .inst
    R.TH_ZONE_STAT.LATCHED z 0, .inst R.TH_ZONE_STAT.SHUT_SEEN z 0, .inst R.TH_ZONE_STAT.STATE z 0, .reg R.PE_GRP_STAT.LIMITING, .reg
    R.TH_SD_CNT.SD_CNT, .reg R.TH_SD_CNT.SD_N] : List Part))) s t) ∧
  (∀ (s : State) (z k : Nat), ∃ t, exec (.zoneRelease z k) s = .next t ∧ Unchanged (within (logParts ++ zoneParts ++ ([.inst R.TH_ZONE_ALLOW.ALLOW z
    0, .inst R.TH_ZONE_ALLOW.X z 0, .inst R.TH_ZONE_STAT.GRACE_LEFT z 0, .inst R.TH_ZONE_STAT.HOT z 0, .inst R.TH_ZONE_STAT.STATE z 0] : List
    Part))) s t) ∧
  (∀ (s : State) (z secs : Nat), ∃ t, exec (.shutdownRelease z secs) s = .next t ∧ Unchanged (within (logParts ++ zoneParts ++ ([.sd, .inst
    R.TH_ZONE_ALLOW.ALLOW z 0, .inst R.TH_ZONE_ALLOW.X z 0, .inst R.TH_ZONE_STAT.HOT z 0, .inst R.TH_ZONE_STAT.LATCHED z 0, .inst
    R.TH_ZONE_STAT.STATE z 0] : List Part))) s t) ∧
  (∀ (s : State) (sess z secs : Nat), ∃ t, exec (.zoneClr sess z secs) s = .next t ∧ Unchanged (within (logParts ++ zoneParts ++ ([.out, .sd, .inst
    R.TH_ZONE_ALLOW.ALLOW z 0, .inst R.TH_ZONE_ALLOW.X z 0, .inst R.TH_ZONE_STAT.HOT z 0, .inst R.TH_ZONE_STAT.LATCHED z 0, .inst
    R.TH_ZONE_STAT.STATE z 0] : List Part))) s t) ∧
  (∀ (s : State) (sess z : Nat), ∃ t, exec (.zoneEnable sess z) s = .next t ∧ Unchanged (within (logParts ++ ([.out, .inst R.TH_ZONE_ALLOW.ALLOW z 0,
    .inst R.TH_ZONE_ALLOW.X z 0, .inst R.TH_ZONE_CFG.CFG_ERR z 0, .inst R.TH_ZONE_CFG.EN z 0, .inst R.TH_ZONE_STAT.HOT z 0] : List Part))) s t) ∧
  (∀ (s : State) (m : Nat), ∃ t, exec (.cableModelUpdate m) s = .next t ∧ Unchanged (within (zoneParts ++ ([.cm, .sd, .th, .reg R.TH_ZONE_ALLOW.ALLOW,
    .reg R.TH_ZONE_ALLOW.X, .reg R.TH_ZONE_STAT.HOT, .inst R.TH_CM_VAL.SUSPECT m 0, .inst R.TH_CM_VAL.T m 0] : List Part))) s t) ∧
  (∀ (s : State) (m : Nat), ∃ t, exec (.modelSuspect m) s = .next t ∧ Unchanged (within (logParts ++ ([.inst R.TH_CM_VAL.SUSPECT m 0] : List Part))) s
    t) ∧
  (∀ (s : State) (idx : Nat) (v : Int), ∃ t, exec (.internalSensorSample idx v) s = .next t ∧ Unchanged (within (logParts ++ ([.sd, .th, .inst
    R.TH_INT_VAL.EXCL idx 0, .inst R.TH_INT_VAL.T idx 0] : List Part))) s t) ∧
  (∀ (s : State) (idx k : Nat), ∃ t, exec (.internalOverTemperature idx k) s = .next t ∧ Unchanged (within (safeOffParts ++ ([.grpx, .phx, .sd, .tb,
    .reg R.PE_GRP_STAT.LIMITING, .reg R.TH_SD_CNT.SD_CNT, .reg R.TH_SD_CNT.SD_N] : List Part))) s t) ∧
  (∀ (s : State) (ms : Nat), ∃ t, exec (.thermalRestart ms) s = .next t ∧ Unchanged (within (safeOffParts ++ zoneParts ++ ([.grpx, .phx, .sd, .tb,
    .reg R.PE_GRP_STAT.LIMITING, .reg R.SYS_BOOT_STAT.STEP, .reg R.SYS_READY.RDY, .reg R.TH_SD_CNT.SD_CNT, .reg R.TH_SD_CNT.SD_N, .reg
    R.TH_TS_STAT.SNOW, .reg R.TH_ZONE_ALLOW.ALLOW, .reg R.TH_ZONE_ALLOW.X, .reg R.TH_ZONE_STAT.ENF_SEEN, .reg R.TH_ZONE_STAT.GRACE_LEFT, .reg
    R.TH_ZONE_STAT.HOT, .reg R.TH_ZONE_STAT.LATCHED, .reg R.TH_ZONE_STAT.SHUT_SEEN, .reg R.TH_ZONE_STAT.STATE, .reg R.UPD_FW_MINSEC.MINSEC] : List
    Part))) s t) ∧
  (∀ (s : State) (k : Nat), ∃ t, exec (.circuitRun k) s = .next t ∧ Unchanged (within (channelParts ++ ([.inst R.TH_CC_STAT.RUN k 0] : List Part))) s
    t) ∧
  (∀ (s : State) (k secs : Nat), ∃ t, exec (.circuitStop k secs) s = .next t ∧ Unchanged (within (channelParts ++ ([.inst R.TH_CC_STAT.HEAT k 0, .inst
    R.TH_CC_STAT.RUN k 0] : List Part))) s t) ∧
  (∀ (s : State) (f ms : Nat), ∃ t, exec (.flowTimeout f ms) s = .next t ∧ Unchanged (within ([.inst R.TH_FLOW_VAL.FLOW f 0, .inst R.TH_FLOW_VAL.VALID
    f 0])) s t) ∧
  (∀ (s : State) (k run low : Nat), ∃ t, exec (.flowFault k run low) s = .next t ∧ Unchanged (within (safeOffParts ++ zoneParts ++ ([.grpx, .phx, .sd,
    .tb, .inst R.TH_CC_STAT.FLOW_FLT k 0, .inst R.TH_CC_STAT.FLOW_SEEN k 0, .inst R.TH_CC_STAT.HEAT k 0, .reg R.PE_GRP_STAT.LIMITING, .reg
    R.TH_SD_CNT.SD_CNT, .reg R.TH_SD_CNT.SD_N, .reg R.TH_ZONE_ALLOW.ALLOW, .reg R.TH_ZONE_ALLOW.X, .reg R.TH_ZONE_STAT.GRACE_LEFT, .reg
    R.TH_ZONE_STAT.HOT, .reg R.TH_ZONE_STAT.LATCHED, .reg R.TH_ZONE_STAT.SHUT_SEEN, .reg R.TH_ZONE_STAT.STATE] : List Part))) s t) ∧
  (∀ (s : State) (k secs : Nat), ∃ t, exec (.flowRecovered k secs) s = .next t ∧ Unchanged (within (logParts ++ ([.inst R.TH_CC_STAT.FLOW_FLT k 0] :
    List Part))) s t) ∧
  (∀ (s : State) (k : Nat), ∃ t, exec (.heaterOn k) s = .next t ∧ Unchanged (within (channelParts ++ ([.inst R.TH_CC_STAT.HEAT k 0] : List Part))) s
    t) ∧
  (∀ (s : State) (k : Nat), ∃ t, exec (.heaterOff k) s = .next t ∧ Unchanged (within (channelParts ++ ([.inst R.TH_CC_STAT.HEAT k 0] : List Part))) s
    t) ∧
  (∀ (s : State) (sess n : Nat), ∃ t, exec (.channelOn sess n) s = .next t ∧ Unchanged (within (logParts ++ ([.out, .pins, .reg R.LSW_BANK.SNS_VALID,
    .reg R.LSW_STAT.LATCHED, .reg R.LSW_STAT.OUT, .inst R.LSW_CH_CTRL.ON n 0, .inst R.LSW_CH_STAT.FRAC n 0, .inst R.LSW_CH_STAT.OL n 0, .inst
    R.LSW_CH_STAT.STATE n 0] : List Part))) s t) ∧
  (∀ (s : State) (sess n : Nat), ∃ t, exec (.channelOff sess n) s = .next t ∧ Unchanged (within (logParts ++ ([.out, .pins, .reg R.LSW_BANK.SNS_VALID,
    .reg R.LSW_STAT.LATCHED, .reg R.LSW_STAT.OUT, .inst R.LSW_CH_CTRL.ON n 0, .inst R.LSW_CH_STAT.FRAC n 0, .inst R.LSW_CH_STAT.OL n 0, .inst
    R.LSW_CH_STAT.STATE n 0] : List Part))) s t) ∧
  (∀ (s : State) (n onMs x idx : Nat), ∃ t, exec (.overCurrentTrip n onMs x idx) s = .next t ∧ Unchanged (within (safeOffParts ++ ([.grpx, .phx, .tb,
    .inst R.LSW_CH_CNT.TRIPS n 0, .inst R.LSW_CH_MEAS.I_MEAS n 0, .inst R.LSW_CH_STAT.LATCH_SEEN n 0, .inst R.LSW_CH_STAT.TRIP_SEEN n 0, .reg
    R.PE_GRP_STAT.LIMITING, .reg R.SAF_STAT.HELD] : List Part))) s t) ∧
  (∀ (s : State) (n : Nat) (tj : Int), ∃ t, exec (.thermalShutdown n tj) s = .next t ∧ Unchanged (within (safeOffParts ++ ([.grpx, .lsw, .phx, .tb,
    .inst R.LSW_CH_CNT.TSDS n 0, .inst R.LSW_CH_MEAS.TJ n 0, .inst R.LSW_CH_STAT.LATCH_SEEN n 0, .inst R.LSW_CH_STAT.TSD_SEEN n 0, .reg
    R.PE_GRP_STAT.LIMITING, .reg R.SAF_STAT.HELD] : List Part))) s t) ∧
  (∀ (s : State) (n x : Nat) (tj : Int), ∃ t, exec (.automaticRestart n x tj) s = .next t ∧ Unchanged (within (safeOffParts ++ ([.grpx, .lsw, .phx,
    .tb, .inst R.LSW_CH_CNT.TSDS n 0, .inst R.LSW_CH_MEAS.TJ n 0, .inst R.LSW_CH_STAT.LATCH_SEEN n 0, .inst R.LSW_CH_STAT.RST_CNT n 0, .inst
    R.LSW_CH_STAT.TSD_SEEN n 0, .reg R.PE_GRP_STAT.LIMITING, .reg R.SAF_STAT.HELD] : List Part))) s t) ∧
  (∀ (s : State) (n secs : Nat), ∃ t, exec (.restartWindow n secs) s = .next t ∧ Unchanged (within ([.inst R.LSW_CH_STAT.RST_CNT n 0])) s t) ∧
  (∀ (s : State) (b mv us : Nat), ∃ t, exec (.bankUndervoltage b mv us) s = .next t ∧ Unchanged (within (logParts ++ ([.lsw, .pins, .reg
    R.LSW_BANK.SNS_VALID, .reg R.LSW_BANK.UV_A, .reg R.LSW_BANK.UV_B, .reg R.LSW_BANK.UV_SEEN, .reg R.LSW_CH_STAT.FRAC, .reg R.LSW_CH_STAT.OL, .reg
    R.LSW_CH_STAT.STATE, .reg R.LSW_STAT.LATCHED, .reg R.LSW_STAT.OUT, .reg R.PWR_VLS.VLSA, .reg R.PWR_VLS.VLSB] : List Part))) s t) ∧
  (∀ (s : State) (b mv : Nat), ∃ t, exec (.bankUndervoltageExit b mv) s = .next t ∧ Unchanged (within (logParts ++ ([.lsw, .pins, .reg
    R.LSW_BANK.SNS_VALID, .reg R.LSW_BANK.UV_A, .reg R.LSW_BANK.UV_B, .reg R.LSW_CH_STAT.FRAC, .reg R.LSW_CH_STAT.OL, .reg R.LSW_CH_STAT.STATE, .reg
    R.LSW_STAT.LATCHED, .reg R.LSW_STAT.OUT, .reg R.PWR_VLS.VLSA, .reg R.PWR_VLS.VLSB] : List Part))) s t) ∧
  (∀ (s : State) (sess n : Nat) (tj : Int), ∃ t, exec (.latchClear sess n tj) s = .next t ∧ Unchanged (within (logParts ++ ([.lsw, .out, .pins, .inst
    R.LSW_CH_MEAS.TJ n 0, .inst R.LSW_CH_STAT.FRAC n 0, .inst R.LSW_CH_STAT.OL n 0, .inst R.LSW_CH_STAT.RST_CNT n 0, .inst R.LSW_CH_STAT.STATE n 0, .reg
    R.LSW_BANK.SNS_VALID, .reg R.LSW_STAT.LATCHED, .reg R.LSW_STAT.OUT] : List Part))) s t) ∧
  (∀ (s : State), ∃ t, exec (.switchChannels) s = .next t ∧ Unchanged (within (channelParts ++ launchParts ++ ([.lsw] : List Part))) s t) ∧
  (∀ (s : State) (n ms idx : Nat), ∃ t, exec (.openLoad n ms idx) s = .next t ∧ Unchanged (within (logParts ++ ([.inst R.LSW_CH_MEAS.I_MEAS n 0, .inst
    R.LSW_CH_STAT.OL n 0] : List Part))) s t)

/-- The frame of the commands of the Cell Supervisor and the CAN ports: outside the parts listed for a command, nothing changes, whatever the state
and the operands. How the parts are cut is the model's own. -/
def Obligations.CellAndCanFrame : Prop :=
  (∀ (s : State), ∃ t, exec (.csWake) s = .next t ∧ Unchanged (within (logParts ++ ([.cs, .out, .reg R.CS_STAT.STATE] : List Part))) s t) ∧
  (∀ (s : State) (ms : Nat) (through : Bool) (na nb : Nat) (ser : List (Nat × Nat)), ∃ t, exec (.discovery ms through na nb ser) s = .next t ∧
    Unchanged (within (logParts ++ ([.cs, .out, .reg R.CS_PER.PER_ACT, .reg R.CS_PER.T_SWEEP, .reg R.CS_STAT.BRK_AT, .reg R.CS_STAT.BROKEN, .reg
    R.CS_STAT.H_A, .reg R.CS_STAT.N, .reg R.CS_STAT.ORDER_ERR, .reg R.CS_STAT.STATE, .reg R.CS_UNIT_STAT.HALF, .reg R.CS_UNIT_STAT.MISMATCH, .reg
    R.CS_UNIT_STAT.STATE] : List Part))) s t) ∧
  (∀ (s : State) (na nb : Nat) (ser : List (Nat × Nat)), ∃ t, exec (.discoveryAttemptEnd na nb ser) s = .next t ∧ Unchanged (within (logParts ++
    ([.cs, .out, .reg R.CS_PER.PER_ACT, .reg R.CS_PER.T_SWEEP, .reg R.CS_SEEN.LOST_SEEN, .reg R.CS_STAT.BRK_AT, .reg R.CS_STAT.BROKEN, .reg
    R.CS_STAT.H_A, .reg R.CS_STAT.N, .reg R.CS_STAT.ORDER_ERR, .reg R.CS_STAT.STATE, .reg R.CS_UNIT_STAT.HALF, .reg R.CS_UNIT_STAT.LOST_SEEN, .reg
    R.CS_UNIT_STAT.MISMATCH, .reg R.CS_UNIT_STAT.STATE] : List Part))) s t) ∧
  (∀ (s : State), ∃ t, exec (.sweepSync) s = .next t ∧ Unchanged (within (logParts ++ ([.cs, .out, .reg R.CS_CNT0.SKIPPED, .reg R.CS_PER.PER_ACT, .reg
    R.CS_PER.T_SWEEP, .reg R.CS_SEEN.SKIP_SEEN] : List Part))) s t) ∧
  (∀ (s : State) (ms : Nat), ∃ t, exec (.keepaliveSync ms) s = .next t ∧ Unchanged (within (logParts ++ ([.cs, .out, .reg R.CS_PER.PER_ACT, .reg
    R.CS_PER.T_SWEEP] : List Part))) s t) ∧
  (∀ (s : State) (dir p sweep status : Nat) (cells : List Nat) (t0 t1 : Int) (mask seq : Nat), ∃ t, exec (.recordReceive dir p sweep status cells t0
    t1 mask seq) s = .next t ∧ Unchanged (within ([.cs, .reg R.CS_UNIT_BAL.PEND])) s t) ∧
  (∀ (s : State), ∃ t, exec (.collectionEnd) s = .next t ∧ Unchanged (within (safeOffParts ++ ([.cs, .grpx, .out, .phx, .tb, .reg R.CS_CELL.AGE, .reg
    R.CS_CELL.BAL, .reg R.CS_CELL.DISTURBED, .reg R.CS_CELL.FAULT, .reg R.CS_CELL.FRESH, .reg R.CS_CELL.V, .reg R.CS_CNT0.SWEEPS, .reg
    R.CS_CNT1.MISSING, .reg R.CS_SEEN.LIM_SEEN, .reg R.CS_SEEN.LOST_SEEN, .reg R.CS_SWEEP.I_VALID, .reg R.CS_SWEEP.MISS, .reg R.CS_SWEEP.SWEEP, .reg
    R.CS_SWEEP_I.I, .reg R.CS_SWEEP_STAMP_HI.STAMP, .reg R.CS_SWEEP_STAMP_LO.STAMP, .reg R.CS_UNIT_BAL.PEND, .reg R.CS_UNIT_STAT.LOST_SEEN, .reg
    R.CS_UNIT_STAT.MISS_CNT, .reg R.CS_UNIT_STAT.STATE, .reg R.CS_UNIT_STAT.T0, .reg R.CS_UNIT_STAT.T1, .reg R.CS_VEXT.VMAX, .reg R.CS_VEXT.VMIN, .reg
    R.CS_VEXT_IDX.VMAX_IDX, .reg R.CS_VEXT_IDX.VMIN_IDX, .reg R.LE_PARAM.VALUE, .reg R.PE_GRP_STAT.LIMITING] : List Part))) s t) ∧
  (∀ (s : State), ∃ t, exec (.recollect) s = .next t ∧ Unchanged (within ([.cs, .out, .reg R.CS_CNT1.RECOLL, .reg R.CS_STAT.STATE])) s t) ∧
  (∀ (s : State), ∃ t, exec (.recollectEnd) s = .next t ∧ Unchanged (within (safeOffParts ++ ([.cs, .grpx, .out, .phx, .tb, .reg R.CS_CELL.AGE, .reg
    R.CS_CELL.BAL, .reg R.CS_CELL.DISTURBED, .reg R.CS_CELL.FAULT, .reg R.CS_CELL.FRESH, .reg R.CS_CELL.V, .reg R.CS_CNT0.SWEEPS, .reg R.CS_PER.PER_ACT,
    .reg R.CS_PER.T_SWEEP, .reg R.CS_SEEN.BRK_SEEN, .reg R.CS_SEEN.LIM_SEEN, .reg R.CS_SEEN.LOST_SEEN, .reg R.CS_STAT.BRK_AT, .reg R.CS_STAT.BROKEN,
    .reg R.CS_STAT.H_A, .reg R.CS_STAT.STATE, .reg R.CS_SWEEP.I_VALID, .reg R.CS_SWEEP.MISS, .reg R.CS_SWEEP.SWEEP, .reg R.CS_SWEEP_I.I, .reg
    R.CS_SWEEP_STAMP_HI.STAMP, .reg R.CS_SWEEP_STAMP_LO.STAMP, .reg R.CS_UNIT_BAL.PEND, .reg R.CS_UNIT_STAT.HALF, .reg R.CS_UNIT_STAT.LOST_SEEN, .reg
    R.CS_UNIT_STAT.MISS_CNT, .reg R.CS_UNIT_STAT.STATE, .reg R.CS_UNIT_STAT.T0, .reg R.CS_UNIT_STAT.T1, .reg R.CS_VEXT.VMAX, .reg R.CS_VEXT.VMIN, .reg
    R.CS_VEXT_IDX.VMAX_IDX, .reg R.CS_VEXT_IDX.VMIN_IDX, .reg R.LE_PARAM.VALUE, .reg R.PE_GRP_STAT.LIMITING] : List Part))) s t) ∧
  (∀ (s : State) (reached : Bool), ∃ t, exec (.healProbe reached) s = .next t ∧ Unchanged (within (logParts ++ ([.cs, .out, .reg R.CS_PER.PER_ACT,
    .reg R.CS_PER.T_SWEEP, .reg R.CS_STAT.BRK_AT, .reg R.CS_STAT.BROKEN, .reg R.CS_STAT.H_A, .reg R.CS_STAT.N, .reg R.CS_UNIT_STAT.HALF] : List Part)))
    s t) ∧
  (∀ (s : State) (sess idx : Nat), ∃ t, exec (.orderSend sess idx) s = .next t ∧ Unchanged (within (logParts ++ ([.cs, .out, .reg R.CS_UNIT_BAL.PEND]
    : List Part))) s t) ∧
  (∀ (s : State), ∃ t, exec (.sweepStart) s = .next t ∧ Unchanged (within (logParts ++ launchParts ++ ([.cs, .reg R.CS_CTRL.PER_HC, .reg
    R.CS_PER.PER_ACT, .reg R.CS_PER.T_SWEEP, .reg R.CS_SNAP_OFS.SNAP_OFS] : List Part))) s t) ∧
  (∀ (s : State), ∃ t, exec (.sweepStop) s = .next t ∧ Unchanged (within (logParts ++ launchParts ++ ([.cs] : List Part))) s t) ∧
  (∀ (s : State) (src k : Nat), ∃ t, exec (.cellQuery src k) s = .next t ∧ Unchanged (within ([.out])) s t) ∧
  (∀ (s : State), ∃ t, exec (.ringLost) s = .next t ∧ Unchanged (within ([.cs, .out, .reg R.CS_STAT.STATE])) s t) ∧
  (∀ (s : State), ∃ t, exec (.csDisable) s = .next t ∧ Unchanged (within ([.cs, .reg R.CS_STAT.STATE])) s t) ∧
  (∀ (s : State) (p : Nat), ∃ t, exec (.canPortEnable p) s = .next t ∧ Unchanged (within ([.inst R.CAN_STAT.STATE p 0])) s t) ∧
  (∀ (s : State) (sess p : Nat), ∃ t, exec (.canStart sess p) s = .next t ∧ Unchanged (within (logParts ++ ([.can, .out, .inst R.CAN_CTRL.INIT p 0,
    .inst R.CAN_STAT.CFG_ERR p 0, .inst R.CAN_STAT.EPASS p 0, .inst R.CAN_STAT.REC p 0, .inst R.CAN_STAT.STATE p 0, .inst R.CAN_STAT.TEC p 0] : List
    Part))) s t) ∧
  (∀ (s : State) (sess p : Nat), ∃ t, exec (.canInit sess p) s = .next t ∧ Unchanged (within (logParts ++ ([.can, .out, .inst R.CAN_CTRL.INIT p 0,
    .inst R.CAN_STAT.STATE p 0] : List Part))) s t) ∧
  (∀ (s : State) (p n : Nat), ∃ t, exec (.canSync p n) s = .next t ∧ Unchanged (within ([.can, .inst R.CAN_STAT.STATE p 0])) s t) ∧
  (∀ (s : State) (p w0 w1 sof : Nat) (data : List Nat) (tec rec_ : Nat), ∃ t, exec (.canFrameReceive p w0 w1 sof data tec rec_) s = .next t ∧
    Unchanged (within (canParts ++ ([.inst R.CAN_CNT.NOMATCH p 0, .inst R.CAN_STAT.LEC p 0, .inst R.CAN_STAT.REC p 0, .inst R.CAN_STAT.TEC p 0] : List
    Part))) s t) ∧
  (∀ (s : State) (p b : Nat), ∃ t, exec (.bufferLock p b) s = .next t ∧ Unchanged (within (logParts ++ canParts ++ ([.reg R.CAN_BUF_CTRL.LOCK] : List
    Part))) s t) ∧
  (∀ (s : State) (p b : Nat), ∃ t, exec (.bufferReadComplete p b) s = .next t ∧ Unchanged (within (logParts ++ canParts ++ ([.reg R.CAN_BUF_CTRL.LOCK]
    : List Part))) s t) ∧
  (∀ (s : State) (p us : Nat), ∃ t, exec (.lockTimeout p us) s = .next t ∧ Unchanged (within (logParts ++ canParts ++ ([.reg R.CAN_BUF_CTRL.LOCK, .reg
    R.CAN_BUF_CTRL.TORN] : List Part))) s t) ∧
  (∀ (s : State) (sess p : Nat), ∃ t, exec (.unlock sess p) s = .next t ∧ Unchanged (within (logParts ++ canParts ++ ([.out, .reg R.CAN_BUF_CTRL.LOCK]
    : List Part))) s t) ∧
  (∀ (s : State) (sess p b : Nat), ∃ t, exec (.transmitRequest sess p b) s = .next t ∧ Unchanged (within (logParts ++ ([.can, .out, .inst
    R.CAN_BUF_CTRL.TXREQ p b] : List Part))) s t) ∧
  (∀ (s : State) (p delay sof tec rec_ : Nat), ∃ t, exec (.transmitComplete p delay sof tec rec_) s = .next t ∧ Unchanged (within (logParts ++
    canParts ++ ([.fresh, .out, .reg R.CAN_BUF_CTRL.TXFAIL, .reg R.CAN_BUF_CTRL.TXOK, .reg R.CAN_BUF_CTRL.TXREQ, .inst R.CAN_CNT.NOMATCH p 0, .inst
    R.CAN_STAT.LEC p 0, .inst R.CAN_STAT.REC p 0, .inst R.CAN_STAT.TEC p 0, .inst R.CAN_TDC.TDCV p 0, .inst R.CAN_TDC.TDC_RANGE p 0] : List Part)))
    s t) ∧
  (∀ (s : State) (p lec : Nat) (delay : Option Nat) (tec rec_ : Nat), ∃ t, exec (.transmitFail p lec delay tec rec_) s = .next t ∧ Unchanged (within
    (logParts ++ ([.can, .fresh, .reg R.CAN_BUF_CTRL.TXFAIL, .reg R.CAN_BUF_CTRL.TXREQ, .inst R.CAN_STAT.LEC p 0, .inst R.CAN_STAT.REC p 0, .inst
    R.CAN_STAT.TEC p 0, .inst R.CAN_TDC.TDCV p 0, .inst R.CAN_TDC.TDC_RANGE p 0] : List Part))) s t) ∧
  (∀ (s : State) (sess p b : Nat) (onBus : Bool), ∃ t, exec (.abort sess p b onBus) s = .next t ∧ Unchanged (within (logParts ++ ([.can, .out, .inst
    R.CAN_BUF_CTRL.TXREQ p b] : List Part))) s t) ∧
  (∀ (s : State) (p tec lec : Nat), ∃ t, exec (.busOff p tec lec) s = .next t ∧ Unchanged (within (logParts ++ ([.can, .inst R.CAN_CNT.BO_CNT p 0,
    .inst R.CAN_STAT.EPASS p 0, .inst R.CAN_STAT.LEC p 0, .inst R.CAN_STAT.STATE p 0, .inst R.CAN_STAT.TEC p 0, .reg R.CAN_BUF_CTRL.TXREQ] : List
    Part))) s t) ∧
  (∀ (s : State) (p ms : Nat), ∃ t, exec (.busOffWait p ms) s = .next t ∧ Unchanged (within ([.inst R.CAN_STAT.STATE p 0])) s t) ∧
  (∀ (s : State) (sess p : Nat), ∃ t, exec (.recover sess p) s = .next t ∧ Unchanged (within (logParts ++ ([.can, .out, .inst R.CAN_STAT.STATE p 0] :
    List Part))) s t) ∧
  (∀ (s : State) (p n : Nat), ∃ t, exec (.busOffRecovered p n) s = .next t ∧ Unchanged (within (logParts ++ ([.can, .inst R.CAN_STAT.BO_RUN p 0, .inst
    R.CAN_STAT.REC p 0, .inst R.CAN_STAT.STATE p 0, .inst R.CAN_STAT.TEC p 0] : List Part))) s t) ∧
  (∀ (s : State) (p tec rec_ : Nat), ∃ t, exec (.errorPassive p tec rec_) s = .next t ∧ Unchanged (within (logParts ++ ([.inst R.CAN_STAT.EPASS p 0,
    .inst R.CAN_STAT.REC p 0, .inst R.CAN_STAT.TEC p 0] : List Part))) s t) ∧
  (∀ (s : State) (p tec rec_ : Nat), ∃ t, exec (.errorActive p tec rec_) s = .next t ∧ Unchanged (within (logParts ++ ([.inst R.CAN_STAT.EPASS p 0,
    .inst R.CAN_STAT.REC p 0, .inst R.CAN_STAT.TEC p 0] : List Part))) s t) ∧
  (∀ (s : State) (p ms : Nat), ∃ t, exec (.boRunClear p ms) s = .next t ∧ Unchanged (within ([.inst R.CAN_STAT.BO_RUN p 0])) s t)

/-- The frame of the commands of the Key Vault and the Event Recorder: outside the parts listed for a command, nothing changes, whatever the state
and the operands. How the parts are cut is the model's own. -/
def Obligations.VaultAndLogFrame : Prop :=
  (∀ (s : State) (ok : Bool), ∃ t, exec (.recordSign ok) s = .next t ∧ Unchanged (within (logParts ++ ([.bil, .vault, .reg R.BIL_REC_DATA.DATA, .reg
    R.BIL_REC_STAT.LEN, .reg R.BIL_REC_STAT.PRESENT, .reg R.BIL_REC_STAT.SIGNED, .reg R.BIL_STORE.INT_N, .reg R.BIL_STORE.SESS_FULL, .reg
    R.BIL_STORE.SESS_UNACK, .reg R.BIL_STORE.SIG_PEND, .reg R.BIL_STORE_PER.PER_N, .reg R.KV_CNT.SIGNS, .reg R.KV_STAT.N_BAD, .reg R.KV_STAT.N_USED,
    .reg R.KV_STAT.N_WORK] : List Part))) s t) ∧
  (∀ (s : State) (cover term lid mesh : Bool), ∃ t, exec (.tamperLoopSample cover term lid mesh) s = .next t ∧ Unchanged (within (safeOffParts ++
    ([.fab, .grpx, .kv, .mg, .phx, .tb, .tmp, .vault, .reg R.BIL_TMP.COVER, .reg R.BIL_TMP.N_Q, .reg R.BIL_TMP.TERM, .reg R.BIL_TMP.TMP_PEND, .reg
    R.BIL_TMP_CNT.COVER_CNT, .reg R.BIL_TMP_CNT.TERM_CNT, .reg R.KV_DESTROY.CAUSE, .reg R.KV_DESTROY_TIME.UTC, .reg R.KV_STAT.DESTROYED, .reg
    R.KV_STAT.LID, .reg R.KV_STAT.MESH, .reg R.KV_STAT.N_WORK, .reg R.KV_STAT.PUF_OK, .reg R.KV_WORK_ATTR.DEPTH, .reg R.KV_WORK_ATTR.PARENT, .reg
    R.KV_WORK_ATTR.TYPE, .reg R.KV_WORK_ATTR.USE, .reg R.KV_WORK_ATTR.VALID, .reg R.PE_GRP_STAT.LIMITING, .reg R.SYS_MGMT_STAT.N_ADMIN, .reg
    R.SYS_MGMT_STAT.N_RELAY, .reg R.SYS_MGMT_STAT.N_SESS, .reg R.SYS_READY.RDY, .reg R.SYS_SESS.LEVEL, .reg R.SYS_SESS.N_SUB, .reg R.SYS_SESS.PEER, .reg
    R.SYS_SESS.STATE, .reg R.SYS_SESS.VIA, .reg R.TMX_SEL_A.ADM, .reg R.TMX_SEL_A.SEL, .reg R.TMX_SEL_D.ADM, .reg R.TMX_SEL_D.SEL, .reg
    R.TMX_STAT.ACT_A, .reg R.TMX_STAT.ACT_D, .reg R.TMX_STAT.DROP_SEEN] : List Part))) s t) ∧
  (∀ (s : State) (c : Nat) (ok : Bool), ∃ t, exec (.sdpRequest c ok) s = .next t ∧ Unchanged (within (logParts ++ ([.out, .vault, .reg
    R.KV_STAT.N_BAD, .reg R.KV_STAT.N_USED, .reg R.KV_STAT.N_WORK] : List Part))) s t) ∧
  (∀ (s : State) (sess w : Nat), ∃ t, exec (.stageWrite sess w) s = .next t ∧ Unchanged (within (logParts ++ ([.kv, .out, .reg R.KV_STAGE_ADDR.INDEX]
    : List Part))) s t) ∧
  (∀ (s : State) (ms : Nat), ∃ t, exec (.stageTimeout ms) s = .next t ∧ Unchanged (within ([.kv])) s t) ∧
  (∀ (s : State) (sess slot type use : Nat) (lockw mseal : Bool) (wrap : Option Nat) (wrapOk : Bool) (plain : Option (List Nat)), ∃ t, exec (.loadKey
    sess slot type use lockw mseal wrap wrapOk plain) s = .next t ∧ Unchanged (within (logParts ++ slotParts ++ ([.out, .reg R.KV_CMD.LOCKW, .reg
    R.KV_CMD.MSEAL, .reg R.KV_CMD.TYPE, .reg R.KV_CMD.USE, .reg R.KV_CMD.WRAPPED, .reg R.KV_CMD.WRAP_SLOT] : List Part))) s t) ∧
  (∀ (s : State) (sess slot : Nat) (parses same ca : Bool), ∃ t, exec (.loadCertificate sess slot parses same ca) s = .next t ∧ Unchanged (within
    (logParts ++ slotParts ++ ([.out] : List Part))) s t) ∧
  (∀ (s : State) (sess slot type use : Nat) (lockw mseal : Bool), ∃ t, exec (.generate sess slot type use lockw mseal) s = .next t ∧ Unchanged (within
    (logParts ++ slotParts ++ ([.fresh, .out, .reg R.KV_CMD.LOCKW, .reg R.KV_CMD.MSEAL, .reg R.KV_CMD.TYPE, .reg R.KV_CMD.USE, .reg
    R.KV_CMD.WRAPPED, .reg R.KV_CMD.WRAP_SLOT] : List Part))) s t) ∧
  (∀ (s : State) (sess slot : Nat), ∃ t, exec (.erase sess slot) s = .next t ∧ Unchanged (within (logParts ++ slotParts ++ ([.out] : List Part))) s t)
    ∧
  (∀ (s : State) (sess : Nat) (parentOk : Bool), ∃ t, exec (.derive sess parentOk) s = .next t ∧ Unchanged (within (logParts ++ ([.kv, .out, .vault,
    .reg R.KV_CMD.GO, .reg R.KV_CMD.OP, .reg R.KV_CMD_STAT.BUSY, .reg R.KV_CMD_STAT.RESULT, .reg R.KV_STAT.N_BAD, .reg R.KV_STAT.N_USED, .reg
    R.KV_STAT.N_WORK, .reg R.KV_WORK_ATTR.DEPTH, .reg R.KV_WORK_ATTR.PARENT, .reg R.KV_WORK_ATTR.TYPE, .reg R.KV_WORK_ATTR.USE, .reg
    R.KV_WORK_ATTR.VALID] : List Part))) s t) ∧
  (∀ (s : State) (mv : Nat), ∃ t, exec (.reservoirLow mv) s = .next t ∧ Unchanged (within (logParts ++ ([.vault, .reg R.KV_STAT.RES_OK] : List Part)))
    s t) ∧
  (∀ (s : State), ∃ t, exec (.eventRecord) s = .next t ∧ Unchanged (within (logParts ++ ([.reg R.EVR_CNT.DISC, .reg R.EVR_OP_FIRST.FIRST, .reg
    R.EVR_OP_SEQ.SEQ, .reg R.EVR_STAT.OP_N] : List Part))) s t) ∧
  (∀ (s : State) (sess v : Nat), ∃ t, exec (.logClear sess v) s = .next t ∧ Unchanged (within (logParts ++ ([.out, .reg R.EVR_OP_FIRST.FIRST, .reg
    R.EVR_STAT.OP_N] : List Part))) s t) ∧
  (∀ (s : State) (sess v : Nat) (ok : Bool), ∃ t, exec (.logReadLoad sess v ok) s = .next t ∧ Unchanged (within (logParts ++ ([.mg, .out, .reg
    R.EVR_CRC.CRC_ERR] : List Part))) s t) ∧
  (∀ (s : State) (sess : Nat) (ok : Bool), ∃ t, exec (.logReadNext sess ok) s = .next t ∧ Unchanged (within (logParts ++ ([.mg, .out, .reg
    R.EVR_CRC.CRC_ERR] : List Part))) s t) ∧
  (∀ (s : State) (sess key log : Nat), ∃ t, exec (.logSearch sess key log) s = .next t ∧ Unchanged (within (logParts ++ ([.mg, .out] : List Part))) s
    t) ∧
  (∀ (s : State) (op mor : List Nat), ∃ t, exec (.logCrcCheck op mor) s = .next t ∧ Unchanged (within (logParts ++ ([.reg R.EVR_CRC.CRC_ERR] : List
    Part))) s t) ∧
  (∀ (s : State), ∃ t, exec (.siteMark) s = .next t ∧ Unchanged (within (logParts ++ launchParts)) s t) ∧
  (∀ (s : State) (mv : Nat), ∃ t, exec (.reservoirRecharged mv) s = .next t ∧ Unchanged (within ([.vault, .reg R.KV_STAT.RES_OK] : List Part)) s t)

/-- The frame of the commands of supplies, resets, roles and Safe-Off: outside the parts listed for a command, nothing changes, whatever the state
and the operands. How the parts are cut is the model's own. -/
def Obligations.PowerAndResetFrame : Prop :=
  (∀ (s : State) (sess : Nat), ∃ t, exec (.apply sess) s = .next t ∧ Unchanged (within (safeOffParts ++ ([.auxx, .boot, .can, .capt, .cs, .fab, .grpx,
    .kv, .mg, .needs, .out, .phx, .plc, .regs, .sl, .tb, .th, .upd] : List Part))) s t) ∧
  (∀ (s : State) (o : BootObs), ∃ t, exec (.applyComplete o) s = .next t ∧ Unchanged (within (dormantParts ++ restartParts ++ ([.fresh, .keep] : List
    Part))) s t) ∧
  (∀ (s : State) (mv ms : Nat) (cold : Bool) (o : BootObs), ∃ t, exec (.porReset mv ms cold o) s = .next t ∧ Unchanged (within (dormantParts ++
    restartParts ++ ([.cm, .fresh, .keep, .met, .rstStamp, .tmp] : List Part))) s t) ∧
  (∀ (s : State) (ns : Nat) (low : Bool) (o : BootObs), ∃ t, exec (.pinReset ns low o) s = .next t ∧ Unchanged (within (dormantParts ++ restartParts
    ++ ([.fresh, .keep] : List Part))) s t) ∧
  (∀ (s : State) (sess : Nat) (o : BootObs), ∃ t, exec (.softReset sess o) s = .next t ∧ Unchanged (within (dormantParts ++ restartParts ++ ([.fresh,
    .keep] : List Part))) s t) ∧
  (∀ (s : State) (sess bits : Nat), ∃ t, exec (.domainReset sess bits) s = .next t ∧ Unchanged (within (safeOffParts ++ ([.auxx, .boot, .can, .capt,
    .cs, .fab, .grpx, .kv, .mg, .needs, .out, .phx, .plc, .regs, .sl, .tb, .th, .upd] : List Part))) s t) ∧
  (∀ (s : State) (o : BootObs), ∃ t, exec (.domainResetComplete o) s = .next t ∧ Unchanged (within (dormantParts ++ restartParts ++ ([.fresh, .keep] :
    List Part))) s t) ∧
  (∀ (s : State) (ms : Nat), ∃ t, exec (.readyRelease ms) s = .next t ∧ Unchanged (within (logParts ++ ([.saf, .reg R.SAF_WD_STAT.WD_CNT, .reg
    R.SYS_BOOT_STAT.LATE, .reg R.SYS_BOOT_STAT.STEP, .reg R.SYS_BOOT_TIME.T_READY, .reg R.SYS_READY.PIN] : List Part))) s t) ∧
  (∀ (s : State) (ms : Nat), ∃ t, exec (.readyDeadline ms) s = .next t ∧ Unchanged (within (logParts ++ ([.reg R.SYS_BOOT_STAT.LATE] : List Part))) s
    t) ∧
  (∀ (s : State) (mv us : Nat), ∃ t, exec (.vsupLowBandEntry mv us) s = .next t ∧ Unchanged (within (logParts ++ ([.reg R.PWR_SUPPLY_STAT.LOW_BAND,
    .reg R.PWR_SUPPLY_STAT.LOW_SEEN, .reg R.PWR_VMON.VSUP] : List Part))) s t) ∧
  (∀ (s : State) (mv us : Nat), ∃ t, exec (.vsupLowBandExit mv us) s = .next t ∧ Unchanged (within (logParts ++ ([.reg R.PWR_SUPPLY_STAT.LOW_BAND,
    .reg R.PWR_VMON.VSUP] : List Part))) s t) ∧
  (∀ (s : State) (mv us : Nat), ∃ t, exec (.vsupHighBandEntry mv us) s = .next t ∧ Unchanged (within (logParts ++ ([.reg R.PWR_SUPPLY_STAT.HIGH_BAND,
    .reg R.PWR_VMON.VSUP] : List Part))) s t) ∧
  (∀ (s : State) (mv us : Nat), ∃ t, exec (.vsupHighBandExit mv us) s = .next t ∧ Unchanged (within (logParts ++ ([.reg R.PWR_SUPPLY_STAT.HIGH_BAND,
    .reg R.PWR_VMON.VSUP] : List Part))) s t) ∧
  (∀ (s : State) (mv us : Nat), ∃ t, exec (.vsupOverVoltage mv us) s = .next t ∧ Unchanged (within (groupParts ++ ([.grpx, .phx, .tb, .reg
    R.PE_GRP_CTRL.EN, .reg R.PE_GRP_STAT.LIMITING, .reg R.PE_GRP_STAT.N_CFG, .reg R.PE_GRP_STAT.OVS_STATE, .reg R.PE_GRP_STAT.STATE, .reg
    R.PE_PH_CFG.EN, .reg R.PWR_STATE.STATE, .reg R.PWR_SUPPLY_STAT.HIGH_BAND, .reg R.PWR_SUPPLY_STAT.LOW_BAND, .reg R.PWR_SUPPLY_STAT.OVERV, .reg
    R.PWR_SUPPLY_STAT.OVERV_SEEN, .reg R.PWR_VMON.VSUP] : List Part))) s t) ∧
  (∀ (s : State) (mv us : Nat), ∃ t, exec (.vsupOverVoltageExit mv us) s = .next t ∧ Unchanged (within ([.reg R.PWR_SUPPLY_STAT.HIGH_BAND, .reg
    R.PWR_SUPPLY_STAT.OVERV, .reg R.PWR_VMON.VSUP])) s t) ∧
  (∀ (s : State) (mv us back : Nat) (o : BootObs), ∃ t, exec (.supplyFail mv us back o) s = .next t ∧ Unchanged (within (dormantParts ++ restartParts
    ++ ([.bilCom, .cm, .fresh, .keep, .met, .rstStamp, .tmp] : List Part))) s t) ∧
  (∀ (s : State) (d us : Nat) (o : BootObs), ∃ t, exec (.railOutOfLimits d us o) s = .next t ∧ Unchanged (within (dormantParts ++ restartParts ++
    ([.bilCom, .cm, .fresh, .keep, .met, .rstStamp, .tmp] : List Part))) s t) ∧
  (∀ (s : State) (v : Nat), ∃ t, exec (.holdupStoreTest v) s = .next t ∧ Unchanged (within (groupParts ++ ([.grpx, .phx, .tb, .reg R.PE_GRP_CTRL.EN,
    .reg R.PE_GRP_STAT.LIMITING, .reg R.PE_GRP_STAT.N_CFG, .reg R.PE_GRP_STAT.OVS_STATE, .reg R.PE_GRP_STAT.STATE, .reg R.PE_PH_CFG.EN, .reg
    R.PWR_HOLDUP.HOLDUP_OK, .reg R.PWR_HOLDUP.TESTING, .reg R.PWR_HOLDUP.VSTORE] : List Part))) s t) ∧
  (∀ (s : State) (sess : Nat), ∃ t, exec (.holdupTestRequest sess) s = .next t ∧ Unchanged (within (logParts ++ ([.out, .reg R.PWR_HOLDUP.TESTING] :
    List Part))) s t) ∧
  (∀ (s : State) (e v : Nat), ∃ t, exec (.holdupTestDone e v) s = .next t ∧ Unchanged (within (groupParts ++ ([.boot, .grpx, .phx, .tb, .reg
    R.PE_GRP_CTRL.EN, .reg R.PE_GRP_STAT.LIMITING, .reg R.PE_GRP_STAT.N_CFG, .reg R.PE_GRP_STAT.OVS_STATE, .reg R.PE_GRP_STAT.STATE, .reg
    R.PE_PH_CFG.EN, .reg R.PWR_HOLDUP.E_USABLE, .reg R.PWR_HOLDUP.HOLDUP_OK, .reg R.PWR_HOLDUP.TESTING, .reg R.PWR_HOLDUP.VSTORE] : List Part))) s t) ∧
  (∀ (s : State) (mv : Nat), ∃ t, exec (.vbatLow mv) s = .next t ∧ Unchanged (within (logParts ++ ([.boot, .reg R.PWR_SUPPLY_STAT.VBAT_LOW, .reg
    R.PWR_SUPPLY_STAT.VBAT_SEEN, .reg R.PWR_VMON.VBAT] : List Part))) s t) ∧
  (∀ (s : State) (sess : Nat), ∃ t, exec (.quietRequest sess) s = .next t ∧ Unchanged (within (groupParts ++ ([.grpx, .out, .phx, .tb, .reg
    R.PE_GRP_CTRL.EN, .reg R.PE_GRP_STAT.LIMITING, .reg R.PE_GRP_STAT.N_CFG, .reg R.PE_GRP_STAT.OVS_STATE, .reg R.PE_GRP_STAT.STATE, .reg
    R.PE_PH_CFG.EN, .reg R.PWR_STATE.CMD, .reg R.PWR_STATE.RESULT, .reg R.PWR_STATE.STATE] : List Part))) s t) ∧
  (∀ (s : State) (sess : Nat), ∃ t, exec (.runRequest sess) s = .next t ∧ Unchanged (within (logParts ++ ([.out, .pins, .reg R.PWR_STATE.CMD, .reg
    R.PWR_STATE.RESULT, .reg R.PWR_STATE.STATE] : List Part))) s t) ∧
  (∀ (s : State) (sess : Nat), ∃ t, exec (.dormantRequest sess) s = .next t ∧ Unchanged (within (safeOffParts ++ ([.auxx, .boot, .can, .capt, .cs,
    .fab, .grpx, .kv, .mg, .needs, .out, .phx, .plc, .regs, .sl, .tb, .th, .upd] : List Part))) s t) ∧
  (∀ (s : State) (src : Nat) (o : BootObs), ∃ t, exec (.wake src o) s = .next t ∧ Unchanged (within (dormantParts ++ restartParts ++ ([.fresh, .keep]
    : List Part))) s t) ∧
  (∀ (s : State) (sess a : Nat), ∃ t, exec (.auxEnable sess a) s = .next t ∧ Unchanged (within (railParts ++ ([.auxx, .out, .inst R.PWR_AUX_CTRL.EN a
    0, .inst R.PWR_AUX_STAT.MODE a 0, .inst R.PWR_AUX_STAT.PGOOD a 0, .reg R.LE_L_R.R] : List Part))) s t) ∧
  (∀ (s : State) (sess a : Nat), ∃ t, exec (.auxStop sess a) s = .next t ∧ Unchanged (within (railParts ++ ([.auxx, .out, .inst R.PWR_AUX_CTRL.EN a 0,
    .inst R.PWR_AUX_STAT.MODE a 0, .inst R.PWR_AUX_STAT.PGOOD a 0, .reg R.LE_L_R.R] : List Part))) s t) ∧
  (∀ (s : State) (pair v us : Nat), ∃ t, exec (.auxSetpointChange pair v us) s = .next t ∧ Unchanged (within ([.auxx])) s t) ∧
  (∀ (s : State) (a fb us : Nat), ∃ t, exec (.auxPgood a fb us) s = .next t ∧ Unchanged (within ([.auxx, .pins, .inst R.PWR_AUX_STAT.FB a 0, .inst
    R.PWR_AUX_STAT.MODE a 0, .inst R.PWR_AUX_STAT.PGOOD a 0] : List Part)) s t) ∧
  (∀ (s : State) (a fb : Nat), ∃ t, exec (.auxPgoodLoss a fb) s = .next t ∧ Unchanged (within (logParts ++ railParts ++ ([.inst R.PWR_AUX_STAT.FB a 0,
    .inst R.PWR_AUX_STAT.PGOOD a 0] : List Part))) s t) ∧
  (∀ (s : State) (a ms : Nat), ∃ t, exec (.auxFeedbackFault a ms) s = .next t ∧ Unchanged (within (logParts ++ railParts ++ ([.auxx, .inst
    R.PWR_AUX_STAT.FB_FAULT a 0, .inst R.PWR_AUX_STAT.MODE a 0, .inst R.PWR_AUX_STAT.PGOOD a 0] : List Part))) s t) ∧
  (∀ (s : State) (a n : Nat), ∃ t, exec (.auxBurstSleep a n) s = .next t ∧ Unchanged (within ([.auxx, .pins, .inst R.PWR_AUX_STAT.MODE a 0] : List
    Part)) s t) ∧
  (∀ (s : State) (a fb : Nat), ∃ t, exec (.auxBurstWake a fb) s = .next t ∧ Unchanged (within ([.auxx, .inst R.PWR_AUX_STAT.FB a 0, .inst
    R.PWR_AUX_STAT.MODE a 0] : List Part)) s t) ∧
  (∀ (s : State) (a n f : Nat), ∃ t, exec (.auxSyncLock a n f) s = .next t ∧ Unchanged (within (logParts ++ ([.auxx, .reg R.PWR_SYNC.FSYNC, .reg
    R.PWR_SYNC.PRESENT, .inst R.PWR_AUX_STAT.SYNCED a 0] : List Part))) s t) ∧
  (∀ (s : State) (a x : Nat), ∃ t, exec (.auxSyncLost a x) s = .next t ∧ Unchanged (within (logParts ++ ([.auxx, .inst R.PWR_AUX_STAT.SYNCED a 0,
    .inst R.PWR_AUX_STAT.SYNC_LOST a 0] : List Part))) s t) ∧
  (∀ (s : State) (a fb : Nat), ∃ t, exec (.auxTruncation a fb) s = .next t ∧ Unchanged (within ([.pins, .inst R.PWR_AUX_CNT.TRUNC a 0, .inst
    R.PWR_AUX_STAT.FB a 0])) s t) ∧
  (∀ (s : State) (a fb n : Nat), ∃ t, exec (.auxBraking a fb n) s = .next t ∧ Unchanged (within (logParts ++ ([.pins, .inst R.PWR_AUX_CNT.BRAKE a 0,
    .inst R.PWR_AUX_STAT.BRAKE_SEEN a 0, .inst R.PWR_AUX_STAT.FB a 0, .inst R.PWR_AUX_STAT.MODE a 0] : List Part))) s t) ∧
  (∀ (s : State) (a fb : Nat), ∃ t, exec (.auxBrakeRelease a fb) s = .next t ∧ Unchanged (within ([.inst R.PWR_AUX_STAT.FB a 0, .inst
    R.PWR_AUX_STAT.MODE a 0])) s t) ∧
  (∀ (s : State) (a : Nat), ∃ t, exec (.auxThermalWarning a) s = .next t ∧ Unchanged (within (logParts ++ ([.inst R.PWR_AUX_STAT.TWARN a 0] : List
    Part))) s t) ∧
  (∀ (s : State) (a : Nat), ∃ t, exec (.auxThermalShutdown a) s = .next t ∧ Unchanged (within (logParts ++ railParts ++ ([.auxx, .inst
    R.PWR_AUX_STAT.MODE a 0, .inst R.PWR_AUX_STAT.PGOOD a 0, .inst R.PWR_AUX_STAT.TSHUT_SEEN a 0] : List Part))) s t) ∧
  (∀ (s : State) (a : Nat), ∃ t, exec (.auxThermalRestart a) s = .next t ∧ Unchanged (within ([.auxx, .inst R.PWR_AUX_STAT.MODE a 0, .reg R.LE_L_R.R]
    : List Part)) s t) ∧
  (∀ (s : State) (code us since onUs mv : Nat), ∃ t, exec (.snsSelectChange code us since onUs mv) s = .next t ∧ Unchanged (within ([.pins, .reg
    R.LSW_BANK.SNS_VALID, .reg R.LSW_BANK.SSEL])) s t) ∧
  (∀ (s : State) (node serial stamp : Nat) (tagOk : ResetTag) (o : BootObs), ∃ t, exec (.fabricResetCommand node serial stamp tagOk o) s = .next t ∧
    Unchanged (within (dormantParts ++ restartParts ++ ([.fresh, .keep, .rstStamp] : List Part))) s t) ∧
  (∀ (s : State) (m ns : Nat), ∃ t, exec (.eStop m ns) s = .next t ∧ Unchanged (within (safeOffParts ++ ([.grpx, .phx, .tb, .reg
    R.PE_GRP_STAT.LIMITING, .reg R.SAF_STAT.ES1, .reg R.SAF_STAT.ES2] : List Part))) s t) ∧
  (∀ (s : State) (sess : Nat), ∃ t, exec (.soReq sess) s = .next t ∧ Unchanged (within (safeOffParts ++ ([.grpx, .out, .phx, .tb, .reg
    R.PE_GRP_STAT.LIMITING] : List Part))) s t) ∧
  (∀ (s : State) (c idx ms : Nat) (valid : Bool), ∃ t, exec (.contactorOpen c idx ms valid) s = .next t ∧ Unchanged (within (channelParts ++ ([.saf] :
    List Part))) s t) ∧
  (∀ (s : State) (c ms x : Nat), ∃ t, exec (.safeOffDcMinusOpen c ms x) s = .next t ∧ Unchanged (within (logParts ++ channelParts ++ ([.saf, .reg
    R.SAF_STAT.DONE, .reg R.SAF_STAT.HELD] : List Part))) s t) ∧
  (∀ (s : State) (c x idx : Nat), ∃ t, exec (.connectorHeld c x idx) s = .next t ∧ Unchanged (within (logParts ++ ([.saf, .reg R.SAF_STAT.DONE, .reg
    R.SAF_STAT.HELD] : List Part))) s t) ∧
  (∀ (s : State) (sess : Nat), ∃ t, exec (.safeOffClear sess) s = .next t ∧ Unchanged (within (logParts ++ ([.out, .pins, .saf, .reg R.SAF_CMD.STATUS,
    .reg R.SAF_FIRST.FIRST, .reg R.SAF_SRC.SRC, .reg R.SAF_STAT.ACTIVE, .reg R.SAF_STAT.DONE] : List Part))) s t) ∧
  (∀ (s : State) (ms : Nat), ∃ t, exec (.estopDiscrepancy ms) s = .next t ∧ Unchanged (within (logParts ++ ([.saf, .reg R.SAF_STAT.ES_DISC] : List
    Part))) s t) ∧
  (∀ (s : State) (v ms : Nat) (o : BootObs), ∃ t, exec (.watchdogKick v ms o) s = .next t ∧ Unchanged (within (dormantParts ++ restartParts ++
    ([.fresh, .keep] : List Part))) s t) ∧
  (∀ (s : State) (ms : Nat) (o : BootObs), ∃ t, exec (.watchdogExpiry ms o) s = .next t ∧ Unchanged (within (dormantParts ++ restartParts ++ ([.fresh,
    .keep] : List Part))) s t) ∧
  (∀ (s : State) (o : BootObs), ∃ t, exec (.lockstepError o) s = .next t ∧ Unchanged (within (dormantParts ++ restartParts ++ ([.fresh, .keep] : List
    Part))) s t) ∧
  (∀ (s : State) (c idx ms : Nat) (valid : Bool), ∃ t, exec (.supplyFailContactorOpen c idx ms valid) s = .next t ∧ Unchanged (within (channelParts ++
    ([.saf] : List Part))) s t) ∧
  (∀ (s : State) (c ms : Nat), ∃ t, exec (.supplyFailDcMinusOpen c ms) s = .next t ∧ Unchanged (within (channelParts ++ ([.saf, .reg R.SAF_STAT.HELD]
    : List Part))) s t) ∧
  (∀ (s : State) (c us : Nat), ∃ t, exec (.contactorNotOpened c us) s = .next t ∧ Unchanged (within (logParts ++ ([.saf] : List Part))) s t) ∧
  (∀ (s : State) (o : BootObs), ∃ t, exec (.rstNRelease o) s = .next t ∧ Unchanged (within (restartParts ++ ([.fresh, .grpx, .keep, .phx, .upd] : List
    Part))) s t) ∧
  (∀ (s : State) (m : Nat), ∃ t, exec (.estopRelease m) s = .next t ∧ Unchanged (within ([.pins, .saf, .reg R.SAF_STAT.ES1, .reg R.SAF_STAT.ES2, .reg
    R.SAF_STAT.ES_DISC])) s t) ∧
  (∀ (s : State) (mv : Nat), ∃ t, exec (.vbatRestored mv) s = .next t ∧ Unchanged (within ([.reg R.PWR_SUPPLY_STAT.VBAT_LOW, .reg R.PWR_VMON.VBAT])) s
    t)

/-- The frame of the commands of the update manager, management and test access: outside the parts listed for a command, nothing changes, whatever
the state and the operands. How the parts are cut is the model's own. -/
def Obligations.UpdateAndManagementFrame : Prop :=
  (∀ (s : State) (sess a val mask : Nat), ∃ t, exec (.registerWrite sess a val mask) s = .next t ∧ Unchanged (within (dormantParts ++ restartParts ++
    ([.fresh, .keep, .met, .sd] : List Part))) s t) ∧
  (∀ (s : State) (sess w : Nat), ∃ t, exec (.flashProgram sess w) s = .next t ∧ Unchanged (within ([.out, .upd, .reg R.UPD_FL_ADDR.ADDR, .reg
    R.UPD_FL_CMD.FL_BUSY, .reg R.UPD_FL_CMD.STATUS])) s t) ∧
  (∀ (s : State) (sess : Nat), ∃ t, exec (.flashErase sess) s = .next t ∧ Unchanged (within ([.out, .upd, .reg R.UPD_FL_CMD.FL_BUSY, .reg
    R.UPD_FL_CMD.STATUS])) s t) ∧
  (∀ (s : State) (ok : Bool), ∃ t, exec (.flashDone ok) s = .next t ∧ Unchanged (within ([.flash, .fresh, .upd, .reg R.UPD_FL_CMD.FL_BUSY, .reg
    R.UPD_FL_CMD.STATUS])) s t) ∧
  (∀ (s : State) (sess u : Nat) (verified : Bool), ∃ t, exec (.firmwareSwitch sess u verified) s = .next t ∧ Unchanged (within (safeOffParts ++
    ([.auxx, .boot, .can, .capt, .cs, .fab, .grpx, .kv, .mg, .needs, .out, .phx, .plc, .regs, .sl, .tb, .th, .upd, .updN] : List Part))) s t) ∧
  (∀ (s : State) (ms waited : Nat) (ready : Bool), ∃ t, exec (.metrologyFirmwareSwitch ms waited ready) s = .next t ∧ Unchanged (within (logParts ++
    ([.boot, .updN, .reg R.MET_FW_DIG.DIG, .reg R.UPD_FW_CMD.STATUS, .reg R.UPD_FW_CTRL.ACT, .reg R.UPD_FW_CTRL.NEXT, .reg R.UPD_STAT.BUSY, .reg
    R.UPD_STAT.OP, .inst R.UPD_FW_MINSEC.MINSEC 1 0, .inst R.UPD_FW_NUM.VERSION 1 0, .inst R.UPD_FW_VER.FW_LEVEL 1 0, .inst R.UPD_FW_VER.SECVER 1 0]
    : List Part))) s t) ∧
  (∀ (s : State) (u ms : Nat) (o : BootObs), ∃ t, exec (.firmwareRevert u ms o) s = .next t ∧ Unchanged (within (dormantParts ++ restartParts ++
    ([.fresh, .keep] : List Part))) s t) ∧
  (∀ (s : State) (sess sect bank : Nat) (atStamp verified : Bool), ∃ t, exec (.sectionReload sess sect bank atStamp verified) s = .next t ∧ Unchanged
    (within (logParts ++ ([.out, .upd, .reg R.UPD_SECT_CMD.AT_STAMP, .reg R.UPD_SECT_CMD.BANK, .reg R.UPD_SECT_CMD.SECT, .reg R.UPD_SECT_CMD.STATUS,
    .reg R.UPD_SECT_REF.FIRST_REF, .reg R.UPD_SECT_RES.APPLIED, .reg R.UPD_SECT_RES.REFUSED, .reg R.UPD_STAT.BUSY, .reg R.UPD_STAT.OP] : List
    Part))) s t) ∧
  (∀ (s : State), ∃ t, exec (.sectionApply) s = .next t ∧ Unchanged (within (dormantParts ++ restartParts ++ ([.fresh, .keep, .met, .sd] : List
    Part))) s t)
    ∧
  (∀ (s : State) (sess alg : Nat) (verified fwVerified : Bool), ∃ t, exec (.packageSubmit sess alg verified fwVerified) s = .next t ∧ Unchanged
    (within (logParts ++ ([.out, .updN, .reg R.UPD_PKG_CMD.PEND, .reg R.UPD_PKG_CMD.STATUS] : List Part))) s t) ∧
  (∀ (s : State), ∃ t, exec (.packageApply) s = .next t ∧ Unchanged (within ([.bil, .evr, .met, .regs, .updN])) s t) ∧
  (∀ (s : State) (sess req : Nat), ∃ t, exec (.recalibration sess req) s = .next t ∧ Unchanged (within (logParts ++ ([.out, .upd, .reg
    R.UPD_RECAL.BUSY, .reg R.UPD_RECAL.REFUSED] : List Part))) s t) ∧
  (∀ (s : State) (fails : Nat), ∃ t, exec (.recalibrationDone fails) s = .next t ∧ Unchanged (within (logParts ++ ([.boot, .upd, .reg
    R.PE_STAT.PEA_CAL, .reg R.PE_STAT.PEB_CAL, .reg R.SYS_BOOT_STAT.CAL_FAIL, .reg R.SYS_BOOT_STAT.STEP, .reg R.SYS_CAL_STAT.FAIL, .reg R.SYS_READY.RDY,
    .reg R.UPD_FW_MINSEC.MINSEC, .reg R.UPD_RECAL.BUSY] : List Part))) s t) ∧
  (∀ (s : State) (ip port node : Nat) (tag : Option Nat) (bytes : List Nat), ∃ t, exec (.gatewayRelay ip port node tag bytes) s = .next t ∧ Unchanged
    (within (logParts ++ routeParts ++ ([.fresh, .mg, .reg R.SYS_MGMT_STAT.N_ADMIN, .reg R.SYS_MGMT_STAT.N_RELAY, .reg R.SYS_MGMT_STAT.N_SESS] :
    List Part))) s t) ∧
  (∀ (s : State) (tag secs : Nat), ∃ t, exec (.relayEntryExpiry tag secs) s = .next t ∧ Unchanged (within ([.mg, .reg R.SYS_MGMT_STAT.N_ADMIN, .reg
    R.SYS_MGMT_STAT.N_RELAY, .reg R.SYS_MGMT_STAT.N_SESS])) s t) ∧
  (∀ (s : State) (idx : Nat) (gateway : Option Nat) (complete : ShakeObs) (adm opr obs : Bool), ∃ t, exec (.handshake idx gateway complete adm opr
    obs) s = .next t ∧ Unchanged (within (logParts ++ ([.capt, .mg, .vault, .inst R.SYS_SESS.LEVEL idx 0, .inst R.SYS_SESS.N_SUB idx 0, .inst
    R.SYS_SESS.PEER idx 0, .inst R.SYS_SESS.STATE idx 0, .inst R.SYS_SESS.VIA idx 0, .reg R.KV_STAT.N_BAD, .reg R.KV_STAT.N_USED, .reg
    R.KV_STAT.N_WORK, .reg R.SYS_MGMT_STAT.N_ADMIN, .reg R.SYS_MGMT_STAT.N_RELAY, .reg R.SYS_MGMT_STAT.N_SESS, .reg R.SYS_MGMT_STAT.REFUSED] : List
    Part))) s t) ∧
  (∀ (s : State) (idx secs : Nat), ∃ t, exec (.handshakeTimeout idx secs) s = .next t ∧ Unchanged (within (logParts ++ ([.reg R.SYS_MGMT_STAT.REFUSED,
    .inst R.SYS_SESS.STATE idx 0, .inst R.SYS_SESS.VIA idx 0, .inst R.SYS_SESS.LEVEL idx 0, .inst R.SYS_SESS.PEER idx 0, .inst R.SYS_SESS.N_SUB idx
    0] : List Part))) s t) ∧
  (∀ (s : State) (idx secs : Nat), ∃ t, exec (.sessionIdleClose idx secs) s = .next t ∧ Unchanged (within (logParts ++ ([.kv, .mg, .reg
    R.SYS_MGMT_STAT.N_ADMIN, .reg R.SYS_MGMT_STAT.N_RELAY, .reg R.SYS_MGMT_STAT.N_SESS, .reg R.TMX_SEL_A.ADM, .reg R.TMX_SEL_A.SEL, .reg
    R.TMX_SEL_D.ADM, .reg R.TMX_SEL_D.SEL, .reg R.TMX_STAT.ACT_A, .reg R.TMX_STAT.ACT_D, .reg R.TMX_STAT.DROP_SEEN, .inst R.SYS_SESS.STATE idx 0,
    .inst R.SYS_SESS.N_SUB idx 0, .inst R.SYS_SESS.VIA idx 0, .inst R.SYS_SESS.LEVEL idx 0, .inst R.SYS_SESS.PEER idx 0] : List Part))) s t) ∧
  (∀ (s : State) (sess id : Nat) (addrs : List Nat), ∃ t, exec (.read sess id addrs) s = .next t ∧ Unchanged (within (logParts ++ canParts ++ ([.capt,
    .fresh, .mg, .out, .reg R.BIL_CAL_ADDR.INDEX, .reg R.BIL_REC_ADDR.WORD, .reg R.BIL_REC_DATA.DATA, .reg R.BIL_REC_STAT.LEN, .reg
    R.BIL_REC_STAT.PRESENT, .reg R.BIL_REC_STAT.SIGNED, .reg R.BIL_TR_ADDR.WORD, .reg R.CAN_BUF_CTRL.LOCK, .reg R.EVR_CRC.CRC_ERR, .reg
    R.KV_PUB_ADDR.INDEX, .reg R.LE_CAP_ADDR.CH, .reg R.LE_CAP_ADDR.INDEX, .reg R.LE_FF_ADDR.INDEX, .reg R.SL_ROSTER_ADDR.INDEX, .reg
    R.SL_ROSTER_ADDR.WORD, .reg R.TH_SD_ADDR.WORD] : List Part))) s t) ∧
  (∀ (s : State) (sess id : Nat) (entries : List (Nat × Nat × Nat)), ∃ t, exec (.write sess id entries) s = .next t ∧ Unchanged (within (dormantParts
    ++ restartParts ++ ([.fresh, .keep, .met, .sd] : List Part))) s t) ∧
  (∀ (s : State) (sess id : Nat) (fixed : Bool) (a n : Nat), ∃ t, exec (.blockRead sess id fixed a n) s = .next t ∧ Unchanged (within (logParts ++
    canParts ++ ([.capt, .fresh, .mg, .out, .reg R.BIL_CAL_ADDR.INDEX, .reg R.BIL_REC_ADDR.WORD, .reg R.BIL_REC_DATA.DATA, .reg R.BIL_REC_STAT.LEN,
    .reg R.BIL_REC_STAT.PRESENT, .reg R.BIL_REC_STAT.SIGNED, .reg R.BIL_TR_ADDR.WORD, .reg R.CAN_BUF_CTRL.LOCK, .reg R.EVR_CRC.CRC_ERR, .reg
    R.KV_PUB_ADDR.INDEX, .reg R.LE_CAP_ADDR.CH, .reg R.LE_CAP_ADDR.INDEX, .reg R.LE_FF_ADDR.INDEX, .reg R.SL_ROSTER_ADDR.INDEX, .reg
    R.SL_ROSTER_ADDR.WORD, .reg R.TH_SD_ADDR.WORD] : List Part))) s t) ∧
  (∀ (s : State) (sess id : Nat) (fixed : Bool) (a : Nat) (words : List Nat), ∃ t, exec (.blockWrite sess id fixed a words) s = .next t ∧ Unchanged
    (within (dormantParts ++ restartParts ++ ([.fresh, .keep, .met, .sd] : List Part))) s t) ∧
  (∀ (s : State) (sess id : Nat) (fixed : Bool) (sub mode period a n : Nat), ∃ t, exec (.subscribe sess id fixed sub mode period a n) s = .next t ∧
    Unchanged (within ([.fresh, .mg, .out, .inst R.SYS_SESS.N_SUB sess 0])) s t) ∧
  (∀ (s : State) (sess id sub : Nat), ∃ t, exec (.unsubscribe sess id sub) s = .next t ∧ Unchanged (within ([.mg, .out, .inst R.SYS_SESS.N_SUB sess
    0])) s t) ∧
  (∀ (s : State) (sess sub hc : Nat), ∃ t, exec (.notify sess sub hc) s = .next t ∧ Unchanged (within (logParts ++ canParts ++ ([.capt, .fresh, .mg,
    .out, .reg R.BIL_CAL_ADDR.INDEX, .reg R.BIL_REC_ADDR.WORD, .reg R.BIL_REC_DATA.DATA, .reg R.BIL_REC_STAT.LEN, .reg R.BIL_REC_STAT.PRESENT, .reg
    R.BIL_REC_STAT.SIGNED, .reg R.BIL_TR_ADDR.WORD, .reg R.CAN_BUF_CTRL.LOCK, .reg R.EVR_CRC.CRC_ERR, .reg R.KV_PUB_ADDR.INDEX, .reg
    R.LE_CAP_ADDR.CH, .reg R.LE_CAP_ADDR.INDEX, .reg R.LE_FF_ADDR.INDEX, .reg R.SL_ROSTER_ADDR.INDEX, .reg R.SL_ROSTER_ADDR.WORD, .reg
    R.TH_SD_ADDR.WORD, .inst R.SYS_SESS.N_SUB sess 0] : List Part))) s t) ∧
  (∀ (s : State) (sess id mask sev : Nat), ∃ t, exec (.events sess id mask sev) s = .next t ∧ Unchanged (within ([.mg, .out])) s t) ∧
  (∀ (s : State) (sess : Nat), ∃ t, exec (.records sess) s = .next t ∧ Unchanged (within ([.mg, .out])) s t) ∧
  (∀ (s : State) (sess id serial : Nat), ∃ t, exec (.locate sess id serial) s = .next t ∧ Unchanged (within ([.fresh, .mg, .out])) s t) ∧
  (∀ (s : State) (sess id dst : Nat) (pay : List Nat) (recent : Nat), ∃ t, exec (.launch sess id dst pay recent) s = .next t ∧ Unchanged (within
    (logParts ++ routeParts ++ ([.fresh, .mg] : List Part))) s t) ∧
  (∀ (s : State) (src : Nat) (resp : List Nat), ∃ t, exec (.lresult src resp) s = .next t ∧ Unchanged (within ([.out])) s t) ∧
  (∀ (s : State) (sess id serial recent : Nat), ∃ t, exec (.reset sess id serial recent) s = .next t ∧ Unchanged (within (logParts ++ routeParts ++
    ([.fresh, .mg] : List Part))) s t) ∧
  (∀ (s : State) (sess id utc frac phase : Nat), ∃ t, exec (.time sess id utc frac phase) s = .next t ∧ Unchanged (within (logParts ++ ([.bil, .mg,
    .out, .reg R.BIL_STAT.CLK_ST, .reg R.BIL_STAT.CLK_VALID, .reg R.BIL_SYNC.SYNC_AGE, .reg R.SYS_RTC.UTC, .reg R.SYS_TIME_STAT.RTC_SET] : List
    Part))) s t) ∧
  (∀ (s : State) (sess id : Nat), ∃ t, exec (.ping sess id) s = .next t ∧ Unchanged (within ([.mg, .out])) s t) ∧
  (∀ (s : State) (sess id : Nat) (alert : Bool), ∃ t, exec (.close sess id alert) s = .next t ∧ Unchanged (within (logParts ++ ([.kv, .mg, .out, .reg
    R.SYS_MGMT_STAT.N_ADMIN, .reg R.SYS_MGMT_STAT.N_RELAY, .reg R.SYS_MGMT_STAT.N_SESS, .reg R.TMX_SEL_A.ADM, .reg R.TMX_SEL_A.SEL, .reg
    R.TMX_SEL_D.ADM, .reg R.TMX_SEL_D.SEL, .reg R.TMX_STAT.ACT_A, .reg R.TMX_STAT.ACT_D, .reg R.TMX_STAT.DROP_SEEN, .inst R.SYS_SESS.LEVEL sess 0,
    .inst R.SYS_SESS.N_SUB sess 0, .inst R.SYS_SESS.PEER sess 0, .inst R.SYS_SESS.STATE sess 0, .inst R.SYS_SESS.VIA sess 0] : List Part))) s t) ∧
  (∀ (s : State) (ofs : Int) (utc : Nat) (utcValid : Bool), ∃ t, exec (.ptpSync ofs utc utcValid) s = .next t ∧ Unchanged (within (logParts ++ ([.bil,
    .mg, .reg R.BIL_STAT.CLK_ST, .reg R.BIL_STAT.CLK_VALID, .reg R.BIL_SYNC.SYNC_AGE, .reg R.SYS_RTC.UTC, .reg R.SYS_TIME_STAT.OFS, .reg
    R.SYS_TIME_STAT.RTC_SET, .reg R.SYS_TIME_STAT.TSTATE] : List Part))) s t) ∧
  (∀ (s : State) (intervals : Nat), ∃ t, exec (.ptpLost intervals) s = .next t ∧ Unchanged (within (logParts ++ ([.mg, .reg R.SYS_TIME_STAT.TSTATE] :
    List Part))) s t) ∧
  (∀ (s : State) (secs : Nat), ∃ t, exec (.ntpPoll secs) s = .next t ∧ Unchanged (within ([.mg, .out])) s t) ∧
  (∀ (s : State) (stratum : Nat) (alarm : Bool) (rootMs : Nat) (ofs : Int) (utc : Nat), ∃ t, exec (.ntpResponse stratum alarm rootMs ofs utc) s =
    .next t ∧ Unchanged (within (logParts ++ ([.bil, .mg, .reg R.BIL_STAT.CLK_ST, .reg R.BIL_STAT.CLK_VALID, .reg R.BIL_SYNC.SYNC_AGE, .reg
    R.SYS_RTC.UTC, .reg R.SYS_TIME_STAT.OFS, .reg R.SYS_TIME_STAT.RTC_SET, .reg R.SYS_TIME_STAT.TSTATE] : List Part))) s t) ∧
  (∀ (s : State), ∃ t, exec (.ntpLost) s = .next t ∧ Unchanged (within (logParts ++ ([.reg R.SYS_TIME_STAT.TSTATE] : List Part))) s t) ∧
  (∀ (s : State) (sess out code : Nat), ∃ t, exec (.tmxSelect sess out code) s = .next t ∧ Unchanged (within (logParts ++ ([.out, .reg
    R.TMX_CTRL.STATUS, .reg R.TMX_SEL_D.ADM, .reg R.TMX_SEL_D.SEL, .reg R.TMX_STAT.ACT_A, .reg R.TMX_STAT.ACT_D, .inst R.TMX_SEL_A.ADM out 0, .inst
    R.TMX_SEL_A.SEL out 0] : List Part))) s t)

/-- R445: a write to CLR_TO removes the operational records up to its value and says so. -/
def Obligations.OperationalLogClear : Prop :=
  ∀ (s : State) (sess v : Nat), s.level sess ≠ 0 → s.runs 3 → v < 2 ^ 32 → ∃ t, exec (.logClear sess v) s = .next t ∧ (t.evr.op = s.evr.op.filter fun
    h => decide (v < h.seq) && decide (v ≠ 0xFFFFFFFF)) ∧ t.get EVR_OP_SEQ.SEQ = s.get EVR_OP_SEQ.SEQ ∧ t.evr.mor = s.evr.mor ∧ Logged s t [(0x1002,
    2, leBytes 4 (s.evr.op.length - t.evr.op.length) ++ [s.level sess])]

/-- R129: a phase whose mean current strays from its group's is logged, and nothing else happens. -/
def Obligations.ImbalanceNoted : Prop :=
  (∀ (s : State) (n : Nat) (diff : Int), n < 96 → s.get PE_PH_STAT.STATE n = 2 → s.get PE_DIAG.IMBAL * s.get PE_GRP_RATING.I_PH_MAX (s.get
    PE_PH_CFG.GRP n) < diff.natAbs * 100 → ∃ t, exec (.phaseImbalance n diff) s = .next t ∧ Logged s t [(0x0335, 3, [s.get PE_PH_CFG.GRP n, n])] ∧
    Unchanged (within (logParts)) s t) ∧
  (∀ (s : State) (n : Nat) (diff : Int), diff.natAbs * 100 ≤ s.get PE_DIAG.IMBAL * s.get PE_GRP_RATING.I_PH_MAX (s.get PE_PH_CFG.GRP n) → exec
    (.phaseImbalance n diff) s = .next s)

/-- R394: a channel that is ON without load for 100 ms is marked open-load and logged. -/
def Obligations.OpenLoadDetected : Prop :=
  (∀ (s : State) (n ms i : Nat), s.lswRuns → n < 16 → s.get LSW_CH_STAT.STATE n = 1 → s.get LSW_CH_CFG.OL_EN n = 1 → i < 5 → 100 ≤ ms → s.get
    LSW_CH_STAT.OL n = 0 → ∃ t, exec (.openLoad n ms i) s = .next t ∧ t.get LSW_CH_STAT.OL n = 1 ∧ Logged s t [(0x0D07, 3, [n])] ∧ Unchanged (within
    (logParts ++ ([.inst LSW_CH_STAT.OL n 0, .inst LSW_CH_MEAS.I_MEAS n 0] : List Part))) s t) ∧
  (∀ (s : State) (n ms i : Nat), s.lswLogic → n < 16 → s.get LSW_CH_CFG.OL_EN n = 0 → exec (.openLoad n ms i) s = .next (s.putMax LSW_CH_MEAS.I_MEAS
    i n)) ∧
  (∀ (s : State) (n ms i : Nat), s.lswLogic → n < 16 → s.get LSW_CH_STAT.STATE n ≠ 1 → exec (.openLoad n ms i) s = .next (s.putMax
    LSW_CH_MEAS.I_MEAS i n))

/-- R356: a flow fault, what it does, and how it clears. -/
def Obligations.FlowFaultRule : Prop :=
  (∀ (s : State) (k run low : Nat), s.circuitOn k → s.get TH_CC_STAT.RUN k = 1 → s.get TH_CC_STAT.FLOW_FLT k = 0 → s.flowLow k → s.get
    TH_CC_FLOW.FLOW_T k < run → s.get TH_CC_FLOW.FLOW_T k ≤ low → s.get TH_CC_CFG.FLOW_ACT k = 0 → ∃ t, exec (.flowFault k run low) s = .next t ∧
    t.get TH_CC_STAT.FLOW_FLT k = 1 ∧ t.get TH_CC_STAT.RUN k = 1 ∧ Logged s t [(0x0B0B, 4, [k])]) ∧
  (∀ (s : State) (k run low : Nat), s.circuitOn k → s.get TH_CC_STAT.RUN k = 1 → s.get TH_CC_STAT.FLOW_FLT k = 0 → s.flowLow k → s.get
    TH_CC_FLOW.FLOW_T k < run → s.get TH_CC_FLOW.FLOW_T k ≤ low → s.get TH_CC_CFG.FLOW_ACT k = 1 → s.get TH_CC_TEMP.ZONE k < 8 → s.get
    TH_ZONE_CFG.EN (s.get TH_CC_TEMP.ZONE k) = 1 → ∃ t, exec (.flowFault k run low) s = .next t ∧ t.get TH_CC_STAT.FLOW_FLT k = 1 ∧ t.get
    TH_CC_STAT.RUN k = 1 ∧ t.get TH_ZONE_STAT.STATE (s.get TH_CC_TEMP.ZONE k) = 3 ∧ (s.get TH_ZONE_STAT.STATE (s.get TH_CC_TEMP.ZONE k) ≠ 3 →
    (t.sd.head?.map fun r => byteAt r.bytes 13) = some 3)) ∧
  (∀ (s : State) (k secs : Nat), s.circuitOn k → s.get TH_CC_STAT.FLOW_FLT k = 1 → s.flowLow k = false → 10 ≤ secs → ∃ t, exec (.flowRecovered k secs)
    s = .next t ∧ t.get TH_CC_STAT.FLOW_FLT k = 0 ∧ Logged s t [(0x0B0C, 1, [k])]) ∧
  (∀ (s : State) (k secs : Nat), (s.flowLow k ∨ secs < 10) → exec (.flowRecovered k secs) s = .next s)

/-- R152: a write to a coefficient of the set in force is refused. -/
def Obligations.CoefficientsInForceKept : Prop :=
  ∀ (s : State) (sess a val mask : Nat) (f : Field) (l k : Nat), (f = LE_COEF_KP.K ∨ f = LE_COEF_KI.K ∨ f = LE_COEF_KD.K ∨ f = LE_COEF_TF.K) → l < 64
    → k < 16 → a = f.at l k → s.get LE_L_STAT.STATE l ≠ 0 → s.get LE_L_STAT.SET l = k → 2 ≤ s.level sess → s.wordStatus a = 0 → mask % 2 ^ 32 ≠ 0 →
    ∃ t, exec (.registerWrite sess a val mask) s = .next t ∧ (∀ g ∈ [LE_COEF_KP.K, LE_COEF_KI.K, LE_COEF_KD.K, LE_COEF_TF.K], t.word (g.at l k) =
    s.word (g.at l k)) ∧ t.get LE_L_STAT.SET_WR_REF l = 1 ∧ Logged s t [(0x0406, 2, [l, k])]

/-- R58: a DORMANT request is refused while any condition of the list holds. -/
def Obligations.DormantRefused : Prop :=
  ∀ (s : State) (sess n c g : Nat), s.writeStatus sess PWR_STATE.CMD = 0 → ((n < 96 ∧ s.get PE_PH_CFG.EN n = 1) ∨ (c < 2 ∧ s.contactorOn c) ∨ (s.get
    SAF_STAT.FRZ = 1 ∧ s.get SAF_FRZ.CONN ≠ 0) ∨ (c < 2 ∧ s.connActive c) ∨ (g < 8 ∧ s.get PE_GRP_LEASE.LAPSED g = 0 ∧ s.get PE_GRP_LEASE.P_LEASE g
    ≠ 0) ∨ (s.fab.la.any fun a => decide (s.stamp < a.target)) ∨ s.get PWR_SUPPLY_STAT.LOW_BAND = 1 ∨ s.get PWR_SUPPLY_STAT.HIGH_BAND = 1 ∨ s.get
    PWR_SUPPLY_STAT.OVERV = 1) → ∃ t, exec (.dormantRequest sess) s = .next t ∧ t.get PWR_STATE.STATE = s.get PWR_STATE.STATE ∧ t.get
    PWR_STATE.RESULT ≠ 0 ∧ t.boot = s.boot

/-- R195: the checks on an arriving launched action, in their order. -/
def Obligations.ActionArrivalChecks : Prop :=
  (∀ (s : State) (src actId ack target ep op : Nat) (dstEp : Option Nat) (body : List Nat) (code : Nat), s.runs 8 → s.fab.hold = false → code =
    s.laCheck target ep op dstEp body → (code = 3 ∨ code = 4 ∨ code = 5 ∨ code = 6 ∨ ((code = 7 ∨ code = 8) ∧ (s.fab.la.any fun a => a.src == src &&
    a.actId == actId) = false ∧ (s.fab.done.any fun d => d == (src, actId)) = false)) → ∃ t, exec (.launchedActionArrival src actId ack target ep op
    dstEp body) s = .next t ∧ (code = (if (∃ e, dstEp = some e ∧ e ≠ ep) ∨ s.hasEndpoint ep = false then 3 else if s.get SYS_ROLE_CMD.STATUS = 1 then
    4 else if target ≤ s.stamp then 5 else if s.get FAB_LA_CFG.LA_AHEAD * 2 ^ 24 < target - s.stamp then 6 else if 64 ≤ s.fab.la.length then 7 else
    8)) ∧ t.fab.la = s.fab.la ∧ t.get FAB_LA_CNT.REFUSED = min (s.get FAB_LA_CNT.REFUSED + 1) (2 ^ FAB_LA_CNT.REFUSED.w - 1) ∧ Sends s t
    ⟨.actionResponse, src, leBytes 4 actId ++ [code, 0, 0, 0] ++ leBytes 8 s.stamp⟩ ∧ (EgressEmpty s → Logged s t ((0x0609, 2, [code] ++ leBytes 2 ep
    ++ [0] ++ leBytes 4 actId) :: if code = 8 ∧ ep = 0x012 then [(0x040C, 2, [0xFF, op])] else []))) ∧
  (∀ (s : State) (src actId ack target ep op : Nat) (dstEp : Option Nat) (body : List Nat), (s.laCheck target ep op dstEp body = 0 ∨ s.laCheck target
    ep op dstEp body = 7 ∨ s.laCheck target ep op dstEp body = 8) → ((s.fab.la.any fun a => a.src == src && a.actId == actId) ∨ (s.fab.done.any fun
    d => d == (src, actId))) → exec (.launchedActionArrival src actId ack target ep op dstEp body) s = .next s) ∧
  (∀ (s : State) (src actId ack target ep op : Nat) (dstEp : Option Nat) (body : List Nat), s.runs 8 → 0x10 ≤ ep → ep ≤ 0x1D → (∀ e, dstEp = some e →
    e = ep) → s.populated ep → s.get SYS_ROLE_CMD.STATUS ≠ 1 → s.stamp < target → target - s.stamp ≤ s.get FAB_LA_CFG.LA_AHEAD * 2 ^ 24 →
    ((s.fab.la.any fun a => a.src == src && a.actId == actId) = false) → ((s.fab.done.any fun d => d == (src, actId)) = false) → s.fab.la.length <
    64 → s.laAccepts target ep op body → ∃ t, exec (.launchedActionArrival src actId ack target ep op dstEp body) s = .next t ∧ t.fab.la.length =
    s.fab.la.length + 1 ∧ (⟨target, ep, op, ack, actId, src, body, false⟩ : La) ∈ t.fab.la ∧ t.get FAB_LA_CFG.LA_QUSE = (s.fab.la.length + 1) % 2 ^
    FAB_LA_CFG.LA_QUSE.w)

/-- R451: a launched action marks every log with event 0x1008. -/
def Obligations.EventMark : Prop :=
  (∀ (s : State) (src actId ack target op : Nat) (dstEp : Option Nat) (body : List Nat), s.runs 8 → (s.laCheck target 0x01D op dstEp body = 0 ∨
    s.laCheck target 0x01D op dstEp body = 8) → ((s.fab.la.any fun a => a.src == src && a.actId == actId) = false) → ((s.fab.done.any fun d => d ==
    (src, actId)) = false) → ∃ t, exec (.launchedActionArrival src actId ack target 0x01D op dstEp body) s = .next t ∧ (s.laCheck target 0x01D op
    dstEp body = 0 ↔ op = 1) ∧ (op = 1 → t.fab.la.length = s.fab.la.length + 1) ∧ (op ≠ 1 → t.fab.la = s.fab.la) ∧ (op ≠ 1 → s.fab.hold = false →
    Sends s t ⟨.actionResponse, src, leBytes 4 actId ++ [8, 0, 0, 0] ++ leBytes 8 s.stamp⟩)) ∧
  (∀ (s : State) (a : La), s.laDue = some a → a.ep = 0x01D → a.op = 1 → s.laCode a = 1 → ∃ t, exec (.siteMark) s = .next t ∧ (EgressEmpty s → Logged
    s t [(0x1008, 1, leBytes 4 a.actId)]) ∧ t.fab.la = s.fab.la.erase a)

/-- R425: depth, usage and independence of derived keys. -/
def Obligations.FirnDerivation : Prop :=
  (∀ (s : State) (sess : Nat) (parentOk : Bool) (k : List Nat) (pt pu d : Nat), s.writeStatus sess KV_CMD.GO = 0 → s.kvReady → (s.kv.owner = none ∨
    s.kv.owner = some sess) → (parentOk ∨ 64 ≤ s.get KV_FIRN.PARENT) → s.firnParent = some (pt, pu, d, k) → (pt = 2 ∨ pt = 3) → d < 8 → useAgrees
    (s.get KV_FIRN.TYPE) (s.get KV_FIRN.USE) → clrBits (s.get KV_FIRN.USE) pu = 0 → 1 ≤ s.get KV_FIRN.LABEL_LEN → s.get KV_FIRN.LABEL_LEN ≤ 32 → ∃
    t, exec (.derive sess parentOk) s = .next t ∧ t.get KV_CMD_STAT.RESULT = 1 ∧ t.get KV_WORK_ATTR.VALID (s.get KV_FIRN.TARGET) = 1 ∧ t.get
    KV_WORK_ATTR.DEPTH (s.get KV_FIRN.TARGET) = d + 1 ∧ (s.get KV_FIRN.PARENT < 64 → d = 0) ∧ (128 ≤ s.get KV_FIRN.PARENT → d = s.get
    KV_WORK_ATTR.DEPTH (s.get KV_FIRN.PARENT - 128)) ∧ t.get KV_WORK_ATTR.USE (s.get KV_FIRN.TARGET) = s.get KV_FIRN.USE ∧ lookupKey (s.get
    KV_FIRN.TARGET) t.kv.work = some (firnChild k (d + 1) (s.get KV_FIRN.TYPE) (s.get KV_FIRN.USE) (s.stageBytes (s.get KV_FIRN.LABEL_LEN))) ∧ (∀ w
    ∈ List.range 128, w ≠ s.get KV_FIRN.TARGET → lookupKey w t.kv.work = lookupKey w s.kv.work)) ∧
  (∀ (s : State) (sess : Nat) (parentOk : Bool) (k : List Nat) (pt pu d : Nat), s.writeStatus sess KV_CMD.GO = 0 → s.kvReady → (s.kv.owner = none ∨
    s.kv.owner = some sess) → (parentOk ∨ 64 ≤ s.get KV_FIRN.PARENT) → s.firnParent = some (pt, pu, d, k) → (pt = 2 ∨ pt = 3) → 8 ≤ d → ∃ t, exec
    (.derive sess parentOk) s = .next t ∧ t.get KV_CMD_STAT.RESULT = 0xB ∧ t.kv.work = s.kv.work) ∧
  (∀ (s : State) (sess : Nat) (parentOk : Bool) (k : List Nat) (pt pu d : Nat), s.writeStatus sess KV_CMD.GO = 0 → s.kvReady → (s.kv.owner = none ∨
    s.kv.owner = some sess) → (parentOk ∨ 64 ≤ s.get KV_FIRN.PARENT) → s.firnParent = some (pt, pu, d, k) → (pt = 2 ∨ pt = 3) → d < 8 → clrBits
    (s.get KV_FIRN.USE) pu ≠ 0 → ∃ t, exec (.derive sess parentOk) s = .next t ∧ t.get KV_CMD_STAT.RESULT = 6 ∧ t.kv.work = s.kv.work) ∧
  (∀ (s : State) (sess slot : Nat), ∃ t, exec (.erase sess slot) s = .next t ∧ t.kv.work = s.kv.work)

/-- R472: the flash is written only through its registers, by ADMIN sessions, outside what is in use. -/
def Obligations.FlashWrites : Prop :=
  (∀ (c : Instr) (s : State), (∀ ok, c ≠ .flashDone ok) → ∃ t, exec c s = .next t ∧ t.flash = s.flash) ∧
  (∀ (s : State) (sess w : Nat), s.level sess ≠ 3 → ∃ t, exec (.flashProgram sess w) s = .next t ∧ t.upd = s.upd ∧ t.flash = s.flash) ∧
  (∀ (s : State) (sess : Nat), s.level sess ≠ 3 → ∃ t, exec (.flashErase sess) s = .next t ∧ t.upd = s.upd ∧ t.flash = s.flash) ∧
  (∀ (s : State) (sess a val mask : Nat), (a = UPD_FL_ADDR.ADDR.addr ∨ a = UPD_FL_DATA.DATA.addr ∨ a = UPD_FL_CMD.ERASE.addr) → s.level sess ≠ 3 → ∃
    t, exec (.registerWrite sess a val mask) s = .next t ∧ t.upd = s.upd ∧ t.regs = s.regs) ∧
  (∀ (s : State) (sess w a : Nat), s.wordStatus UPD_FL_DATA.DATA.addr = 0 → s.level sess = 3 → s.get UPD_FL_CMD.FL_BUSY = 0 → a = s.get
    UPD_FL_ADDR.ADDR / 4 * 4 → ((a < 0x400000 ∧ s.updN.cfg = some (a / 0x200000)) ∨ (a < 0x2A00000 ∧ ∃ u ∈ List.range 7, bit s.boot.fwBad u = false
    ∧ (bankAt u (s.fwBank u)).1 ≤ a ∧ a < (bankAt u (s.fwBank u)).1 + (bankAt u (s.fwBank u)).2)) → ∃ t, exec (.flashProgram sess w) s = .next t ∧
    t.upd = s.upd ∧ t.get UPD_FL_CMD.STATUS = 2) ∧
  (∀ (s : State) (sess a : Nat), s.wordStatus UPD_FL_CMD.ERASE.addr = 0 → s.level sess = 3 → s.get UPD_FL_CMD.FL_BUSY = 0 → a = s.get UPD_FL_ADDR.ADDR
    / 4 * 4 → ((a < 0x400000 ∧ s.updN.cfg = some (a / 0x200000)) ∨ (a < 0x2A00000 ∧ ∃ u ∈ List.range 7, bit s.boot.fwBad u = false ∧ (bankAt u
    (s.fwBank u)).1 ≤ a ∧ a < (bankAt u (s.fwBank u)).1 + (bankAt u (s.fwBank u)).2)) → ∃ t, exec (.flashErase sess) s = .next t ∧ t.upd = s.upd ∧
    t.get UPD_FL_CMD.STATUS = 2) ∧
  (∀ (s : State) (sess : Nat), s.wordStatus UPD_FL_CMD.ERASE.addr = 0 → s.level sess = 3 → s.get UPD_FL_CMD.FL_BUSY = 0 → 0x2A00000 ≤ s.get
    UPD_FL_ADDR.ADDR → ∃ t, exec (.flashErase sess) s = .next t ∧ t.upd = s.upd ∧ t.get UPD_FL_CMD.STATUS = 3) ∧
  (∀ (s : State) (sess w : Nat), s.wordStatus UPD_FL_DATA.DATA.addr = 0 → s.level sess = 3 → s.get UPD_FL_CMD.FL_BUSY = 0 → 0x2A00000 ≤ s.get
    UPD_FL_ADDR.ADDR → ∃ t, exec (.flashProgram sess w) s = .next t ∧ t.upd = s.upd ∧ t.get UPD_FL_CMD.STATUS = 3) ∧
  (∀ (s : State) (ok : Bool) (a : Nat) (v : Word) (b : Nat), s.upd.fl = some { addr := a, word := some v } → (b < a ∨ a + 4 ≤ b) → ∃ t, exec
    (.flashDone ok) s = .next t ∧ t.flByte b = s.flByte b) ∧
  (∀ (s : State) (ok : Bool) (a b : Nat), s.upd.fl = some { addr := a, word := none } → b / 0x10000 ≠ a / 0x10000 → ∃ t, exec (.flashDone ok) s =
    .next t ∧ t.flByte b = s.flByte b)

/-- R6: an access to an address that is not listed or not aligned changes no state. -/
def Obligations.AddressErrors : Prop :=
  (∀ (s : State) (sess a val mask : Nat), (a % 4 ≠ 0 ∨ fieldsAt a = []) → exec (.registerWrite sess a val mask) s = .next (s.report sess 1)) ∧
  (∀ (s : State) (sess id : Nat) (fixed : Bool) (a n : Nat), s.level sess ≠ 0 → lookupReq (id % 65536 :: (leBytes 4 a ++ leBytes 2 n ++ [0, 0]))
    (s.ses sess).cache = none → 0 < n → n ≤ 112 → (a % 4 ≠ 0 ∨ fieldsAt a = []) → ∃ t, exec (.blockRead sess id fixed a n) s = .next t ∧ (t.out =
    ⟨.response, sess, msgHead 3 (id % 65536) 0 1 (if fixed then 3 else 1)⟩ :: s.out) ∧ Unchanged (within ([.out, .mg])) s t)

/-- Fields of the register tables at the values that their Reset column gives. -/
def Obligations.ResetRegisterValues : Prop :=
  (State.reset.get PWR_STATE.STATE = 1) ∧
  (State.reset.get PWR_AUX_FSW.FSW 5 = 4000) ∧
  (State.reset.get TB_GRID_TOL.LOCK_TOL = 4096) ∧
  (State.reset.get PE_GRP_DT.DT_HL 7 = 400) ∧
  (State.reset.get LE_INJ_F0.F0 1 = 1065353216) ∧
  (State.reset.get FAB_CTRL.PRIO = 128) ∧
  (State.reset.get MET_CH_GAIN.GAIN 15 = 1073741824) ∧
  (State.reset.get BIL_SYNC.SYNC_AGE = 131071) ∧
  (State.reset.get TH_TS_LIM.SHUT 47 = 100) ∧
  (State.reset.get LSW_CH_CFG.I_TRIP 15 = 60) ∧
  (State.reset.get EVR_CFG.MOR_WARN = 7168) ∧
  (State.reset.get EVR_OP_SEQ.SEQ = 1) ∧
  (State.reset.get SAF_CFG.CT_GAP = 20) ∧
  (State.reset.get SYS_MGMT_CFG.IDLE_T = 60)

/-- What pins are at while the module has power and what drives them does not run (R42, R171): the gates of a port that is off or in reset, an aux
drive under Safe-Off, a lane's transmit disable, a load switch output that Freeze holds, TBR_APO; and READY at every moment. -/
def Obligations.PinLevels : Prop :=
  ∀ s : State, bit (s.get PWR_DOM_STAT.ON) 0 →
  (∀ n, n < 96 → s.runs (5 + n / 48) = false → s.pinAt (.gateH n) = .low ∧ s.pinAt (.gateL n) = .low) ∧
  (∀ a, s.is SAF_STAT.ACTIVE → s.pinAt (.auxDrv a) = .low) ∧
  (∀ n, s.runs 8 = false ∨ bit (s.get FAB_CTRL.LANE_EN) n = false → s.pinAt (.laneTxdis n) = .high) ∧
  (∀ n, s.runs 10 = false → s.pinAt (.ls n) = if s.is SAF_STAT.FRZ ∧ bit s.pins.ls n then .on else .off) ∧
  (∀ p, s.runs 9 = false → s.pinAt (.can p) = .recessive ∧ s.pinAt .plc = .notTransmitting ∧ s.pinAt .eth = .notTransmitting) ∧
  (s.runs 4 = false → s.pinAt .apo = .low) ∧
  (s.pinAt .ready = if s.runs 1 ∧ s.is SYS_READY.PIN then .high else .low)

/-- A lane's egress (R172, R174): an urgent frame that the credits cover is sent before any other; VC1 and other VC0 frames take turns; a frame
that is not urgent leaves sixteen VC0 credits; what is sent takes its credits and a link sequence number, and enters the replay buffer. -/
def Obligations.LaneEgress : Prop :=
  (∀ (x : LaneX) (e : Egr), x.queue.find? Egr.urgent = some e → x.covers e → x.pick = some e) ∧
  (∀ (x : LaneX) (a b : Egr), x.queue.find? Egr.urgent = none → (x.queue.find? fun e => e.f.vc % 2 == 1) = some a → (x.queue.find? fun e =>
    e.f.vc % 2 == 0 && !e.urgent) = some b → x.covers a → x.covers b → x.pick = some (if x.turn then a else b)) ∧
  (∀ (x : LaneX) (e : Egr), e.urgent = false → e.f.vc % 2 = 0 → x.cred0 < (e.f.pay.length + 79) / 64 + 16 → x.covers e = false) ∧
  (∀ (s : State) (l : Nat) (e : Egr), s.laneUp l → (s.lane l).busy = 0 → (s.lane l).pick = some e → s.bankOf e.f.epo ≠ none → (s.laneServe l).out =
    ⟨.forwarded, l, (s.lane l).seq :: frameBytes (s.leaving e l)⟩ :: s.out ∧ ((s.laneServe l).lane l).queue = (s.lane l).queue.erase e ∧ ((s.laneServe
    l).lane l).seq = (s.lane l).seq + 1 ∧ ((frameBytes (s.leaving e l)).length ≤ 16384 → ((s.laneServe l).lane l).replay.head? = some ((s.lane l).seq,
    frameBytes (s.leaving e l))) ∧ ((s.laneServe l).lane l).cred0 + ((s.laneServe l).lane l).cred1 + (e.f.pay.length + 79) / 64 = (s.lane l).cred0 +
    (s.lane l).cred1 ∧ (s.laneServe l).regs = s.regs)

/-- An aux channel's switching period (R60 to R62): it raises AUXa_DRV where a period begins, unless burst sleep, braking, overshoot, Safe-Off or
fallback at the reference keeps it low, and lowers it at `DMAX` of the period at the latest. The tick is the model's choice (log 4). -/
def Obligations.AuxSwitching : Prop :=
  (∀ (s : State) (a : Nat), s.auxRuns a → (s.aux a).per ≤ (s.aux a).t + 4000 → s.auxFallback a = false → s.get PWR_AUX_STAT.MODE a ≠ 3 →
    s.get PWR_AUX_STAT.MODE a ≠ 5 → s.is SAF_STAT.ACTIVE = false → s.auxOver a (s.get PWR_AUX_STAT.FB a) (s.get PWR_AUX_OVS.OV1 a) = false →
    bit (s.auxTick a).pins.auxDrv a ∧ 1000000 ≤ ((s.auxTick a).aux a).per ∧ ((s.auxTick a).aux a).per ≤ 10000000 ∧ (s.auxTick a).regs = s.regs) ∧
  (∀ (s : State) (a : Nat), s.auxRuns a → (s.aux a).per ≤ (s.aux a).t + 4000 → s.get PWR_AUX_STAT.MODE a = 3 ∨ s.is SAF_STAT.ACTIVE →
    bit (s.auxTick a).pins.auxDrv a = false) ∧
  (∀ (s : State) (a : Nat), s.auxRuns a → (s.aux a).t + 4000 < (s.aux a).per → clampN 50 95 (s.get PWR_AUX_FSW.DMAX a) * (s.aux a).per ≤ 100 *
    ((s.aux a).t + 4000) → bit (s.auxTick a).pins.auxDrv a = false) ∧
  (∀ (s : State) (a : Nat), s.auxRuns a = false → s.auxTick a = s)

/-- The certificates of delivery (R427, R428): key usage digitalSignature and keyCertSign, and CA true with path length 0, in KS00; key usage
digitalSignature alone in KS01 to KS04; in each the unit's serial number as 16 upper-case hexadecimal digits and the slot's public key; the length
that `CERT_LEN` shows.
The DER is that of X.509 (log 20). -/
def Obligations.DeliveredCertificates : Prop :=
  certExtensions 0 = [0xA3, 0x26, 0x30, 0x24, 0x30, 0x0E, 0x06, 0x03, 0x55, 0x1D, 0x0F, 0x01, 0x01, 0xFF, 0x04, 0x04, 0x03, 0x02, 0x02, 0x84, 0x30,
    0x12, 0x06, 0x03, 0x55, 0x1D, 0x13, 0x01, 0x01, 0xFF, 0x04, 0x08, 0x30, 0x06, 0x01, 0x01, 0xFF, 0x02, 0x01, 0x00] ∧
  (∀ k, k ≠ 0 → certExtensions k = [0xA3, 0x12, 0x30, 0x10, 0x30, 0x0E, 0x06, 0x03, 0x55, 0x1D, 0x0F, 0x01, 0x01, 0xFF, 0x04, 0x04, 0x03, 0x02,
    0x07, 0x80]) ∧
  (∀ s : State, s.serial = 0x0123456789ABCDEF → s.unitName = [0x30, 0x1B, 0x31, 0x19, 0x30, 0x17, 0x06, 0x03, 0x55, 0x04, 0x05, 0x13, 0x10, 0x30,
    0x31, 0x32, 0x33, 0x34, 0x35, 0x36, 0x37, 0x38, 0x39, 0x41, 0x42, 0x43, 0x44, 0x45, 0x46]) ∧
  (∀ (s : State) (k : Nat), k < 5 → (s.slot k).cert.isSome → s.certOf k (s.slot k) = some (s.unitCert k (s.slot k).type)) ∧
  (∀ (s : State) (k type : Nat), s.unitName <:+: s.unitCert k type ∧ certExtensions k <:+: s.unitCert k type ∧
    publicBytes type (unitKey k type) <:+: s.unitCert k type) ∧
  (∀ (s : State) (k : Nat), 5 ≤ k → s.certOf k (s.slot k) = (s.slot k).cert) ∧
  (∀ (s : State) (k : Nat), (s.slot k).type < 16 → (s.slot k).use < 32 → s.slotAttr k / 65536 = ((s.certOf k (s.slot k)).getD []).length)
end

