-- ==== Sys2Proof/Laws/Sparse.lean ====
section
/-! SUPPORT. Sparse lists in canonical form: what one write changes, and that it keeps the form. -/

namespace Sys2Proof.Laws
open Sys2Proof.Machine
variable {α : Type}

/-- All keys of a list lie above a bound. -/
def above (k : Nat) (l : List (Nat × α)) : Prop := ∀ p ∈ l, k < p.1

theorem sparseWf_cons [DecidableEq α] {d : Nat → α} {a : Nat} {v : α} {l : List (Nat × α)} :
    sparseWf d ((a, v) :: l) = true ↔ v ≠ d a ∧ above a l ∧ sparseWf d l = true := by
  induction l generalizing a v with
  | nil => simp [sparseWf, above]
  | cons q t ih =>
    obtain ⟨b, u⟩ := q
    simp only [sparseWf, Bool.and_eq_true, decide_eq_true_eq]
    constructor
    · rintro ⟨⟨h1, h2⟩, h3⟩
      refine ⟨h1, ?_, h3⟩
      intro p hp
      rcases List.mem_cons.1 hp with rfl | hp
      · exact h2
      · exact lt_trans h2 ((ih.1 h3).2.1 p hp)
    · rintro ⟨h1, h2, h3⟩
      exact ⟨⟨h1, h2 _ List.mem_cons_self⟩, h3⟩

theorem mem_eraseKey {k : Nat} {l : List (Nat × α)} {p : Nat × α} : p ∈ eraseKey k l ↔ p ∈ l ∧ p.1 ≠ k := by simp [eraseKey]

theorem above_eraseKey {b k : Nat} {l : List (Nat × α)} (h : above b l) : above b (eraseKey k l) :=
  fun p hp => h p (mem_eraseKey.1 hp).1

/-- Removing a key keeps the canonical form. -/
theorem eraseKey_wf [DecidableEq α] {d : Nat → α} {k : Nat} {l : List (Nat × α)} (h : sparseWf d l = true) : sparseWf d (eraseKey k l) = true := by
  induction l with
  | nil => rfl
  | cons q t ih =>
    obtain ⟨a, u⟩ := q
    have hq := sparseWf_cons.1 h
    by_cases hk : a = k
    · simpa [eraseKey, hk] using ih hq.2.2
    · have : eraseKey k ((a, u) :: t) = (a, u) :: eraseKey k t := by simp [eraseKey, hk]
      rw [this]
      exact sparseWf_cons.2 ⟨hq.1, above_eraseKey hq.2.1, ih hq.2.2⟩

theorem mem_sparsePut [DecidableEq α] {d : α} {k : Nat} {v : α} {l : List (Nat × α)} {p : Nat × α} (h : p ∈ sparsePut d k v l) :
    p.1 = k ∨ p ∈ l := by
  induction l with
  | nil => unfold sparsePut at h; split at h <;> simp_all
  | cons q t ih =>
    obtain ⟨a, u⟩ := q
    unfold sparsePut at h
    split at h
    · split at h
      · exact .inr (mem_eraseKey.1 h).1
      · rcases List.mem_cons.1 h with rfl | h
        · exact .inl rfl
        · exact .inr h
    · split at h
      · split at h
        · exact .inr (List.mem_cons_of_mem _ (mem_eraseKey.1 h).1)
        · rcases List.mem_cons.1 h with rfl | h
          · exact .inl rfl
          · exact .inr (List.mem_cons_of_mem _ h)
      · rcases List.mem_cons.1 h with rfl | h
        · exact .inr List.mem_cons_self
        · exact (ih h).imp id (List.mem_cons_of_mem _)

/-- Writing one key keeps the canonical form. -/
theorem sparsePut_wf [DecidableEq α] {d : Nat → α} {k : Nat} {v : α} {l : List (Nat × α)} (h : sparseWf d l = true) :
    sparseWf d (sparsePut (d k) k v l) = true := by
  induction l with
  | nil => unfold sparsePut; split <;> simp_all [sparseWf]
  | cons q t ih =>
    obtain ⟨a, u⟩ := q
    have hq := sparseWf_cons.1 h
    unfold sparsePut
    split
    · split
      · exact eraseKey_wf h
      · rename_i hk hv
        refine sparseWf_cons.2 ⟨hv, ?_, h⟩
        intro p hp
        rcases List.mem_cons.1 hp with rfl | hp
        · exact hk
        · exact lt_trans hk (hq.2.1 p hp)
    · split
      · rename_i h1 h2
        subst h2
        split
        · exact eraseKey_wf hq.2.2
        · rename_i hv
          exact sparseWf_cons.2 ⟨hv, hq.2.1, hq.2.2⟩
      · rename_i h1 h2
        refine sparseWf_cons.2 ⟨hq.1, ?_, ih hq.2.2⟩
        intro p hp
        rcases mem_sparsePut hp with hp | hp
        · omega
        · exact hq.2.1 p hp

theorem sparseGet_eraseKey_same (d : α) (k : Nat) (l : List (Nat × α)) : sparseGet d k (eraseKey k l) = d := by
  induction l with
  | nil => rfl
  | cons q t ih =>
    obtain ⟨a, u⟩ := q
    by_cases hk : a = k
    · simpa [eraseKey, hk] using ih
    · have : eraseKey k ((a, u) :: t) = (a, u) :: eraseKey k t := by simp [eraseKey, hk]
      rw [this]
      simp [sparseGet, hk, ih]

theorem sparseGet_eraseKey_other {d : α} {k k' : Nat} (hk : k' ≠ k) (l : List (Nat × α)) :
    sparseGet d k' (eraseKey k l) = sparseGet d k' l := by
  induction l with
  | nil => rfl
  | cons q t ih =>
    obtain ⟨a, u⟩ := q
    by_cases ha : a = k
    · subst ha
      have : eraseKey a ((a, u) :: t) = eraseKey a t := by simp [eraseKey]
      rw [this, ih]
      simp [sparseGet, hk.symm]
    · have : eraseKey k ((a, u) :: t) = (a, u) :: eraseKey k t := by simp [eraseKey, ha]
      rw [this]
      simp only [sparseGet, ih]

/-- A part of a list in the canonical form is in it. -/
theorem filter_wf [DecidableEq α] {d : Nat → α} {f : Nat × α → Bool} {l : List (Nat × α)} (h : sparseWf d l = true) :
    sparseWf d (l.filter f) = true := by
  induction l with
  | nil => rfl
  | cons q t ih =>
    obtain ⟨a, u⟩ := q
    have hq := sparseWf_cons.1 h
    by_cases ha : f (a, u) = true
    · rw [List.filter_cons_of_pos ha]
      exact sparseWf_cons.2 ⟨hq.1, fun p hp => hq.2.1 p (List.mem_filter.1 hp).1, ih hq.2.2⟩
    · rw [List.filter_cons_of_neg ha]
      exact ih hq.2.2

theorem sparseGet_filter {d : α} {k : Nat} {f : Nat × α → Bool} (hf : ∀ v, f (k, v) = true) (l : List (Nat × α)) :
    sparseGet d k (l.filter f) = sparseGet d k l := by
  induction l with
  | nil => rfl
  | cons q t ih =>
    obtain ⟨a, u⟩ := q
    by_cases ha : f (a, u) = true
    · rw [List.filter_cons_of_pos ha]
      simp only [sparseGet, ih]
    · rw [List.filter_cons_of_neg ha, ih]
      have : a ≠ k := fun h => ha (h ▸ hf u)
      simp [sparseGet, this]

theorem sparseGet_filter_none {d : α} {k : Nat} {f : Nat × α → Bool} (hf : ∀ v, f (k, v) = false) (l : List (Nat × α)) :
    sparseGet d k (l.filter f) = d := by
  induction l with
  | nil => rfl
  | cons q t ih =>
    obtain ⟨a, u⟩ := q
    by_cases ha : f (a, u) = true
    · have : a ≠ k := fun h => by simp [h, hf] at ha
      rw [List.filter_cons_of_pos ha]
      simp [sparseGet, this, ih]
    · rw [List.filter_cons_of_neg ha, ih]

/-! ### The flash -/

/-- Every operation of the flash keeps its canonical form. -/
theorem Memory.wf_write {m : List Host.Cell} {a : Nat} {b : Byte} (h : Machine.Memory.wf m = true) :
    Machine.Memory.wf (Machine.Memory.write m a b) = true :=
  sparsePut_wf (d := fun _ => 0xFF#8) h

theorem Memory.wf_eraseSector {m : List Host.Cell} {k : Nat} (h : Machine.Memory.wf m = true) :
    Machine.Memory.wf (Machine.Memory.eraseSector m k) = true := filter_wf h

/-- A key reads what was written to it last. -/
theorem sparseGet_sparsePut_same [DecidableEq α] (d : α) (k : Nat) (v : α) (l : List (Nat × α)) : sparseGet d k (sparsePut d k v l) = v := by
  induction l with
  | nil => unfold sparsePut; split <;> simp_all [sparseGet]
  | cons q t ih =>
    obtain ⟨a, u⟩ := q
    unfold sparsePut
    split
    · split
      · rename_i hv
        rw [sparseGet_eraseKey_same, hv]
      · simp [sparseGet]
    · split
      · rename_i h1 h2
        subst h2
        split
        · rename_i hv
          rw [sparseGet_eraseKey_same, hv]
        · simp [sparseGet]
      · rename_i h1 h2
        have : a ≠ k := fun h => h2 h.symm
        simp [sparseGet, this, ih]

/-- Writing one key leaves every other key alone. -/
theorem sparseGet_sparsePut_other [DecidableEq α] {d d' : α} {k k' : Nat} {v : α} (hk : k' ≠ k) (l : List (Nat × α)) :
    sparseGet d' k' (sparsePut d k v l) = sparseGet d' k' l := by
  induction l with
  | nil => unfold sparsePut; split <;> simp [sparseGet, hk.symm]
  | cons q t ih =>
    obtain ⟨a, u⟩ := q
    unfold sparsePut
    split
    · split
      · exact sparseGet_eraseKey_other hk _
      · simp [sparseGet, hk.symm]
    · split
      · rename_i h1 h2
        subst h2
        split
        · rw [sparseGet_eraseKey_other hk]
          simp [sparseGet, hk.symm]
        · simp [sparseGet, hk.symm]
      · simp only [sparseGet, ih]

/-- A cell reads the byte written to it. -/
theorem Memory.read_write_same (m : List Host.Cell) (a : Nat) (b : Byte) : Machine.Memory.read (Machine.Memory.write m a b) a = b :=
  sparseGet_sparsePut_same _ _ _ _

/-- A write leaves every other cell alone. -/
theorem Memory.read_write_other {m : List Host.Cell} {a c : Nat} {b : Byte} (h : c ≠ a) :
    Machine.Memory.read (Machine.Memory.write m a b) c = Machine.Memory.read m c := sparseGet_sparsePut_other h _

/-- An erased sector reads erased, and the others as before. -/
theorem Memory.read_eraseSector_in {m : List Host.Cell} {a k : Nat} (h : a / 0x10000 = k) :
    Machine.Memory.read (Machine.Memory.eraseSector m k) a = 0xFF#8 := sparseGet_filter_none (by simp [h]) _

theorem Memory.read_eraseSector_out {m : List Host.Cell} {a k : Nat} (h : a / 0x10000 ≠ k) :
    Machine.Memory.read (Machine.Memory.eraseSector m k) a = Machine.Memory.read m a := sparseGet_filter (by simp [h]) _

end Sys2Proof.Laws
end

