-- ==== Sys2Proof/Laws/State.lean ====
section
/-! SUPPORT. The register file: what one write changes. Beside it one lemma for each field of the state that the writes of the register
file, the sending of a message and the taking of a free value leave alone. -/

namespace Sys2Proof.Laws

open Sys2Proof.Machine

theorem setWord_word_same (s : State) (a : Nat) (w : Word) : (s.setWord a w).word a = w := by
  simp [State.word, State.setWord, sparseGet_sparsePut_same]

theorem setWord_word_other {s : State} {a b : Nat} {w : Word} (h : b ≠ a) : (s.setWord a w).word b = s.word b := by
  simp [State.word, State.setWord, sparseGet_sparsePut_other h]

theorem getLsbD_maskAt {lo w k : Nat} (hk : k < 32) : (maskAt lo w).getLsbD k = (decide (lo ≤ k) && decide (k < lo + w)) := by
  unfold maskAt
  rw [BitVec.getLsbD_ofNat, Nat.mul_comm, Nat.testBit_two_pow_mul, Nat.testBit_two_pow_sub_one]
  simp only [hk, decide_true, Bool.true_and]
  by_cases h : lo ≤ k
  · simp only [h, decide_true, Bool.true_and, decide_eq_decide]; omega
  · simp [h]

theorem merge_bit_other {f : Field} {old : Word} {v k : Nat} (h : k < f.lo ∨ f.lo + f.w ≤ k) :
    (f.merge old v).getLsbD k = old.getLsbD k := by
  by_cases hk : k < 32
  · unfold Field.merge Field.mask
    rw [BitVec.getLsbD_or, BitVec.getLsbD_and, BitVec.getLsbD_not, getLsbD_maskAt hk, BitVec.getLsbD_ofNat, Nat.mul_comm,
      Nat.testBit_two_pow_mul, Nat.testBit_mod_two_pow]
    rcases h with h | h
    · simp [hk, show ¬ f.lo ≤ k by omega]
    · simp [hk, show ¬ k - f.lo < f.w by omega, show ¬ k < f.lo + f.w by omega]
  · simp [BitVec.getLsbD_of_ge _ _ (Nat.le_of_not_lt hk)]

theorem merge_bit_same {f : Field} {old : Word} {v k : Nat} (hk : k < 32) (h : f.lo ≤ k) (h' : k < f.lo + f.w) :
    (f.merge old v).getLsbD k = v.testBit (k - f.lo) := by
  unfold Field.merge Field.mask
  rw [BitVec.getLsbD_or, BitVec.getLsbD_and, BitVec.getLsbD_not, getLsbD_maskAt hk, BitVec.getLsbD_ofNat, Nat.mul_comm,
    Nat.testBit_two_pow_mul, Nat.testBit_mod_two_pow]
  simp [hk, h, h', show k - f.lo < f.w by omega]

/-- What a field holds is fixed by its bits. -/
theorem get_eq_of_bits {s t : State} {f : Field} {i j : Nat}
    (h : ∀ k, f.lo ≤ k → k < f.lo + f.w → (t.word (f.at i j)).getLsbD k = (s.word (f.at i j)).getLsbD k) :
    t.get f i j = s.get f i j := by
  apply Nat.eq_of_testBit_eq
  intro k
  unfold State.get
  rw [Nat.testBit_mod_two_pow, Nat.testBit_mod_two_pow, Nat.testBit_div_two_pow, Nat.testBit_div_two_pow]
  by_cases hk : k < f.w
  · have := h (k + f.lo) (by omega) (by omega)
    simpa [hk, BitVec.getLsbD] using this
  · simp [hk]

theorem put_word_other {s : State} {f : Field} {v i j a : Nat} (h : a ≠ f.at i j) : (s.put f v i j).word a = s.word a := by
  unfold State.put
  split
  · exact setWord_word_other h
  · rfl

theorem put_bit_other {s : State} {f : Field} {v i j a k : Nat} (h : a ≠ f.at i j ∨ k < f.lo ∨ f.lo + f.w ≤ k) :
    ((s.put f v i j).word a).getLsbD k = (s.word a).getLsbD k := by
  by_cases ha : a = f.at i j
  · subst ha
    unfold State.put
    split
    · rw [setWord_word_same, merge_bit_other]
      rcases h with h | h
      · exact absurd rfl h
      · exact h
    · rfl
  · rw [put_word_other ha]

/-- A field reads what was put into it last, in its width. -/
theorem get_put_same {s : State} {f : Field} {v i j : Nat} (hi : i < f.n1) (hj : j < f.n2) (hw : f.lo + f.w ≤ 32) :
    (s.put f v i j).get f i j = v % 2 ^ f.w := by
  apply Nat.eq_of_testBit_eq
  intro k
  unfold State.get State.put
  rw [if_pos ⟨hi, hj⟩, setWord_word_same, Nat.testBit_mod_two_pow, Nat.testBit_mod_two_pow, Nat.testBit_div_two_pow]
  by_cases hk : k < f.w
  · have := merge_bit_same (f := f) (old := s.word (f.at i j)) (v := v) (k := k + f.lo) (by omega) (by omega) (by omega)
    simpa [hk, BitVec.getLsbD] using this
  · simp [hk]

/-- A put leaves a field alone that lies in another word or in other bits. -/
theorem get_put_other {s : State} {f g : Field} {v i j i' j' : Nat}
    (h : g.at i' j' ≠ f.at i j ∨ g.lo + g.w ≤ f.lo ∨ f.lo + f.w ≤ g.lo) : (s.put f v i j).get g i' j' = s.get g i' j' := by
  apply get_eq_of_bits
  intro k h1 h2
  apply put_bit_other
  omega

/-- No instance of `g` shares a bit with an instance of `f`: other bits, other spans of addresses, or other places in one stride. -/
def apart (f g : Field) : Bool :=
  decide (g.lo + g.w ≤ f.lo) || decide (f.lo + f.w ≤ g.lo) ||
  decide (f.addr + f.s1 * (f.n1 - 1) + f.s2 * (f.n2 - 1) < g.addr) || decide (g.addr + g.s1 * (g.n1 - 1) + g.s2 * (g.n2 - 1) < f.addr) ||
  (decide (f.s1 = g.s1) && decide (f.n2 = 1) && decide (g.n2 = 1) && decide (f.addr % f.s1 ≠ g.addr % f.s1))

/-- Two fields of one layout, in different words of each cell or in different bits. -/
def sameCell (f g : Field) : Bool :=
  decide (f.s1 = g.s1) && decide (f.s2 = g.s2) &&
    (decide (f.addr ≠ g.addr) || decide (g.lo + g.w ≤ f.lo) || decide (f.lo + f.w ≤ g.lo))

theorem at_le_last {f : Field} {i j : Nat} (hi : i < f.n1) (hj : j < f.n2) :
    f.addr ≤ f.at i j ∧ f.at i j ≤ f.addr + f.s1 * (f.n1 - 1) + f.s2 * (f.n2 - 1) := by
  have h1 : f.s1 * i ≤ f.s1 * (f.n1 - 1) := Nat.mul_le_mul_left _ (by omega)
  have h2 : f.s2 * j ≤ f.s2 * (f.n2 - 1) := Nat.mul_le_mul_left _ (by omega)
  unfold Field.at
  omega

theorem apart_at {f g : Field} (h : apart f g = true) {i j i' j' : Nat} (hi : i < f.n1) (hj : j < f.n2) (hi' : i' < g.n1)
    (hj' : j' < g.n2) : g.at i' j' ≠ f.at i j ∨ g.lo + g.w ≤ f.lo ∨ f.lo + f.w ≤ g.lo := by
  have hf := at_le_last hi hj
  have hg := at_le_last hi' hj'
  simp only [apart, Bool.or_eq_true, Bool.and_eq_true, decide_eq_true_eq] at h
  rcases h with (((h | h) | h) | h) | ⟨⟨⟨h1, h2⟩, h3⟩, h4⟩
  · omega
  · omega
  · omega
  · omega
  · left
    intro h
    apply h4
    unfold Field.at at h
    have e1 : j = 0 := by omega
    have e2 : j' = 0 := by omega
    subst e1 e2
    rw [← h1] at h
    have := congrArg (· % f.s1) h
    simpa using this.symm

/-- A put leaves every instance of a field alone that shares no bit with it. -/
theorem get_put_apart {s : State} {f g : Field} {v i j i' j' : Nat} (h : apart f g = true) (hi : i' < g.n1) (hj : j' < g.n2) :
    (s.put f v i j).get g i' j' = s.get g i' j' := by
  by_cases hp : i < f.n1 ∧ j < f.n2
  · exact get_put_other (apart_at h hp.1 hp.2 hi hj)
  · unfold State.put
    rw [if_neg hp]

/-- A put leaves the other fields of its own cell alone. -/
theorem get_put_cell {s : State} {f g : Field} {v i j : Nat} (h : sameCell f g = true) :
    (s.put f v i j).get g i j = s.get g i j := by
  apply get_put_other
  simp only [sameCell, Bool.or_eq_true, Bool.and_eq_true, decide_eq_true_eq] at h
  obtain ⟨⟨h1, h2⟩, (h3 | h3) | h3⟩ := h
  · left
    unfold Field.at
    rw [h1, h2]
    omega
  · omega
  · omega

@[simp] theorem setWord_capt (s : State) (a : Nat) (w : Word) : (s.setWord a w).capt = s.capt := rfl
@[simp] theorem setWord_flash (s : State) (a : Nat) (w : Word) : (s.setWord a w).flash = s.flash := rfl
@[simp] theorem setWord_out (s : State) (a : Nat) (w : Word) : (s.setWord a w).out = s.out := rfl
@[simp] theorem setWord_evr (s : State) (a : Nat) (w : Word) : (s.setWord a w).evr = s.evr := rfl
@[simp] theorem setWord_pins (s : State) (a : Nat) (w : Word) : (s.setWord a w).pins = s.pins := rfl
@[simp] theorem setWord_boot (s : State) (a : Nat) (w : Word) : (s.setWord a w).boot = s.boot := rfl
@[simp] theorem setWord_fresh (s : State) (a : Nat) (w : Word) : (s.setWord a w).fresh = s.fresh := rfl
@[simp] theorem setWord_pending (s : State) (a : Nat) (w : Word) : (s.setWord a w).pending = s.pending := rfl
@[simp] theorem setWord_tb (s : State) (a : Nat) (w : Word) : (s.setWord a w).tb = s.tb := rfl
@[simp] theorem setWord_keep (s : State) (a : Nat) (w : Word) : (s.setWord a w).keep = s.keep := rfl
@[simp] theorem setWord_phx (s : State) (a : Nat) (w : Word) : (s.setWord a w).phx = s.phx := rfl
@[simp] theorem setWord_grpx (s : State) (a : Nat) (w : Word) : (s.setWord a w).grpx = s.grpx := rfl
@[simp] theorem setWord_auxx (s : State) (a : Nat) (w : Word) : (s.setWord a w).auxx = s.auxx := rfl
@[simp] theorem setWord_le (s : State) (a : Nat) (w : Word) : (s.setWord a w).le = s.le := rfl
@[simp] theorem setWord_ff (s : State) (a : Nat) (w : Word) : (s.setWord a w).ff = s.ff := rfl
@[simp] theorem setWord_met (s : State) (a : Nat) (w : Word) : (s.setWord a w).met = s.met := rfl
@[simp] theorem setWord_conns (s : State) (a : Nat) (w : Word) : (s.setWord a w).conns = s.conns := rfl
@[simp] theorem setWord_needs (s : State) (a : Nat) (w : Word) : (s.setWord a w).needs = s.needs := rfl
@[simp] theorem setWord_lsw (s : State) (a : Nat) (w : Word) : (s.setWord a w).lsw = s.lsw := rfl
@[simp] theorem setWord_saf (s : State) (a : Nat) (w : Word) : (s.setWord a w).saf = s.saf := rfl
@[simp] theorem setWord_fab (s : State) (a : Nat) (w : Word) : (s.setWord a w).fab = s.fab := rfl
@[simp] theorem setWord_sl (s : State) (a : Nat) (w : Word) : (s.setWord a w).sl = s.sl := rfl
@[simp] theorem setWord_plc (s : State) (a : Nat) (w : Word) : (s.setWord a w).plc = s.plc := rfl
@[simp] theorem setWord_roster (s : State) (a : Nat) (w : Word) : (s.setWord a w).roster = s.roster := rfl
@[simp] theorem setWord_rstStamp (s : State) (a : Nat) (w : Word) : (s.setWord a w).rstStamp = s.rstStamp := rfl
@[simp] theorem setWord_bil (s : State) (a : Nat) (w : Word) : (s.setWord a w).bil = s.bil := rfl
@[simp] theorem setWord_bilCom (s : State) (a : Nat) (w : Word) : (s.setWord a w).bilCom = s.bilCom := rfl
@[simp] theorem setWord_tmp (s : State) (a : Nat) (w : Word) : (s.setWord a w).tmp = s.tmp := rfl
@[simp] theorem setWord_th (s : State) (a : Nat) (w : Word) : (s.setWord a w).th = s.th := rfl
@[simp] theorem setWord_cm (s : State) (a : Nat) (w : Word) : (s.setWord a w).cm = s.cm := rfl
@[simp] theorem setWord_sd (s : State) (a : Nat) (w : Word) : (s.setWord a w).sd = s.sd := rfl
@[simp] theorem setWord_cs (s : State) (a : Nat) (w : Word) : (s.setWord a w).cs = s.cs := rfl
@[simp] theorem setWord_can (s : State) (a : Nat) (w : Word) : (s.setWord a w).can = s.can := rfl
@[simp] theorem setWord_vault (s : State) (a : Nat) (w : Word) : (s.setWord a w).vault = s.vault := rfl
@[simp] theorem setWord_kv (s : State) (a : Nat) (w : Word) : (s.setWord a w).kv = s.kv := rfl
@[simp] theorem setWord_mg (s : State) (a : Nat) (w : Word) : (s.setWord a w).mg = s.mg := rfl
@[simp] theorem setWord_upd (s : State) (a : Nat) (w : Word) : (s.setWord a w).upd = s.upd := rfl
@[simp] theorem setWord_updN (s : State) (a : Nat) (w : Word) : (s.setWord a w).updN = s.updN := rfl
@[simp] theorem put_capt (s : State) (f : Field) (v i j : Nat) : (s.put f v i j).capt = s.capt := by unfold State.put; split <;> rfl
@[simp] theorem put_flash (s : State) (f : Field) (v i j : Nat) : (s.put f v i j).flash = s.flash := by unfold State.put; split <;> rfl
@[simp] theorem put_out (s : State) (f : Field) (v i j : Nat) : (s.put f v i j).out = s.out := by unfold State.put; split <;> rfl
@[simp] theorem put_evr (s : State) (f : Field) (v i j : Nat) : (s.put f v i j).evr = s.evr := by unfold State.put; split <;> rfl
@[simp] theorem put_pins (s : State) (f : Field) (v i j : Nat) : (s.put f v i j).pins = s.pins := by unfold State.put; split <;> rfl
@[simp] theorem put_boot (s : State) (f : Field) (v i j : Nat) : (s.put f v i j).boot = s.boot := by unfold State.put; split <;> rfl
@[simp] theorem put_fresh (s : State) (f : Field) (v i j : Nat) : (s.put f v i j).fresh = s.fresh := by unfold State.put; split <;> rfl
@[simp] theorem put_pending (s : State) (f : Field) (v i j : Nat) : (s.put f v i j).pending = s.pending := by unfold State.put; split <;> rfl
@[simp] theorem put_tb (s : State) (f : Field) (v i j : Nat) : (s.put f v i j).tb = s.tb := by unfold State.put; split <;> rfl
@[simp] theorem put_keep (s : State) (f : Field) (v i j : Nat) : (s.put f v i j).keep = s.keep := by unfold State.put; split <;> rfl
@[simp] theorem put_phx (s : State) (f : Field) (v i j : Nat) : (s.put f v i j).phx = s.phx := by unfold State.put; split <;> rfl
@[simp] theorem put_grpx (s : State) (f : Field) (v i j : Nat) : (s.put f v i j).grpx = s.grpx := by unfold State.put; split <;> rfl
@[simp] theorem put_auxx (s : State) (f : Field) (v i j : Nat) : (s.put f v i j).auxx = s.auxx := by unfold State.put; split <;> rfl
@[simp] theorem put_le (s : State) (f : Field) (v i j : Nat) : (s.put f v i j).le = s.le := by unfold State.put; split <;> rfl
@[simp] theorem put_ff (s : State) (f : Field) (v i j : Nat) : (s.put f v i j).ff = s.ff := by unfold State.put; split <;> rfl
@[simp] theorem put_met (s : State) (f : Field) (v i j : Nat) : (s.put f v i j).met = s.met := by unfold State.put; split <;> rfl
@[simp] theorem put_conns (s : State) (f : Field) (v i j : Nat) : (s.put f v i j).conns = s.conns := by unfold State.put; split <;> rfl
@[simp] theorem put_needs (s : State) (f : Field) (v i j : Nat) : (s.put f v i j).needs = s.needs := by unfold State.put; split <;> rfl
@[simp] theorem put_lsw (s : State) (f : Field) (v i j : Nat) : (s.put f v i j).lsw = s.lsw := by unfold State.put; split <;> rfl
@[simp] theorem put_saf (s : State) (f : Field) (v i j : Nat) : (s.put f v i j).saf = s.saf := by unfold State.put; split <;> rfl
@[simp] theorem put_fab (s : State) (f : Field) (v i j : Nat) : (s.put f v i j).fab = s.fab := by unfold State.put; split <;> rfl
@[simp] theorem put_sl (s : State) (f : Field) (v i j : Nat) : (s.put f v i j).sl = s.sl := by unfold State.put; split <;> rfl
@[simp] theorem put_plc (s : State) (f : Field) (v i j : Nat) : (s.put f v i j).plc = s.plc := by unfold State.put; split <;> rfl
@[simp] theorem put_roster (s : State) (f : Field) (v i j : Nat) : (s.put f v i j).roster = s.roster := by unfold State.put; split <;> rfl
@[simp] theorem put_rstStamp (s : State) (f : Field) (v i j : Nat) : (s.put f v i j).rstStamp = s.rstStamp := by unfold State.put; split <;> rfl
@[simp] theorem put_bil (s : State) (f : Field) (v i j : Nat) : (s.put f v i j).bil = s.bil := by unfold State.put; split <;> rfl
@[simp] theorem put_bilCom (s : State) (f : Field) (v i j : Nat) : (s.put f v i j).bilCom = s.bilCom := by unfold State.put; split <;> rfl
@[simp] theorem put_tmp (s : State) (f : Field) (v i j : Nat) : (s.put f v i j).tmp = s.tmp := by unfold State.put; split <;> rfl
@[simp] theorem put_th (s : State) (f : Field) (v i j : Nat) : (s.put f v i j).th = s.th := by unfold State.put; split <;> rfl
@[simp] theorem put_cm (s : State) (f : Field) (v i j : Nat) : (s.put f v i j).cm = s.cm := by unfold State.put; split <;> rfl
@[simp] theorem put_sd (s : State) (f : Field) (v i j : Nat) : (s.put f v i j).sd = s.sd := by unfold State.put; split <;> rfl
@[simp] theorem put_cs (s : State) (f : Field) (v i j : Nat) : (s.put f v i j).cs = s.cs := by unfold State.put; split <;> rfl
@[simp] theorem put_can (s : State) (f : Field) (v i j : Nat) : (s.put f v i j).can = s.can := by unfold State.put; split <;> rfl
@[simp] theorem put_vault (s : State) (f : Field) (v i j : Nat) : (s.put f v i j).vault = s.vault := by unfold State.put; split <;> rfl
@[simp] theorem put_kv (s : State) (f : Field) (v i j : Nat) : (s.put f v i j).kv = s.kv := by unfold State.put; split <;> rfl
@[simp] theorem put_mg (s : State) (f : Field) (v i j : Nat) : (s.put f v i j).mg = s.mg := by unfold State.put; split <;> rfl
@[simp] theorem put_upd (s : State) (f : Field) (v i j : Nat) : (s.put f v i j).upd = s.upd := by unfold State.put; split <;> rfl
@[simp] theorem put_updN (s : State) (f : Field) (v i j : Nat) : (s.put f v i j).updN = s.updN := by unfold State.put; split <;> rfl
@[simp] theorem emit_regs (s : State) (k : Sent) (d : Nat) (l : List Nat) : (s.emit k d l).regs = s.regs := rfl
@[simp] theorem emit_capt (s : State) (k : Sent) (d : Nat) (l : List Nat) : (s.emit k d l).capt = s.capt := rfl
@[simp] theorem emit_flash (s : State) (k : Sent) (d : Nat) (l : List Nat) : (s.emit k d l).flash = s.flash := rfl
@[simp] theorem emit_evr (s : State) (k : Sent) (d : Nat) (l : List Nat) : (s.emit k d l).evr = s.evr := rfl
@[simp] theorem emit_pins (s : State) (k : Sent) (d : Nat) (l : List Nat) : (s.emit k d l).pins = s.pins := rfl
@[simp] theorem emit_boot (s : State) (k : Sent) (d : Nat) (l : List Nat) : (s.emit k d l).boot = s.boot := rfl
@[simp] theorem emit_fresh (s : State) (k : Sent) (d : Nat) (l : List Nat) : (s.emit k d l).fresh = s.fresh := rfl
@[simp] theorem emit_pending (s : State) (k : Sent) (d : Nat) (l : List Nat) : (s.emit k d l).pending = s.pending := rfl
@[simp] theorem emit_tb (s : State) (k : Sent) (d : Nat) (l : List Nat) : (s.emit k d l).tb = s.tb := rfl
@[simp] theorem emit_keep (s : State) (k : Sent) (d : Nat) (l : List Nat) : (s.emit k d l).keep = s.keep := rfl
@[simp] theorem emit_phx (s : State) (k : Sent) (d : Nat) (l : List Nat) : (s.emit k d l).phx = s.phx := rfl
@[simp] theorem emit_grpx (s : State) (k : Sent) (d : Nat) (l : List Nat) : (s.emit k d l).grpx = s.grpx := rfl
@[simp] theorem emit_auxx (s : State) (k : Sent) (d : Nat) (l : List Nat) : (s.emit k d l).auxx = s.auxx := rfl
@[simp] theorem emit_le (s : State) (k : Sent) (d : Nat) (l : List Nat) : (s.emit k d l).le = s.le := rfl
@[simp] theorem emit_ff (s : State) (k : Sent) (d : Nat) (l : List Nat) : (s.emit k d l).ff = s.ff := rfl
@[simp] theorem emit_met (s : State) (k : Sent) (d : Nat) (l : List Nat) : (s.emit k d l).met = s.met := rfl
@[simp] theorem emit_conns (s : State) (k : Sent) (d : Nat) (l : List Nat) : (s.emit k d l).conns = s.conns := rfl
@[simp] theorem emit_needs (s : State) (k : Sent) (d : Nat) (l : List Nat) : (s.emit k d l).needs = s.needs := rfl
@[simp] theorem emit_lsw (s : State) (k : Sent) (d : Nat) (l : List Nat) : (s.emit k d l).lsw = s.lsw := rfl
@[simp] theorem emit_saf (s : State) (k : Sent) (d : Nat) (l : List Nat) : (s.emit k d l).saf = s.saf := rfl
@[simp] theorem emit_fab (s : State) (k : Sent) (d : Nat) (l : List Nat) : (s.emit k d l).fab = s.fab := rfl
@[simp] theorem emit_sl (s : State) (k : Sent) (d : Nat) (l : List Nat) : (s.emit k d l).sl = s.sl := rfl
@[simp] theorem emit_plc (s : State) (k : Sent) (d : Nat) (l : List Nat) : (s.emit k d l).plc = s.plc := rfl
@[simp] theorem emit_roster (s : State) (k : Sent) (d : Nat) (l : List Nat) : (s.emit k d l).roster = s.roster := rfl
@[simp] theorem emit_rstStamp (s : State) (k : Sent) (d : Nat) (l : List Nat) : (s.emit k d l).rstStamp = s.rstStamp := rfl
@[simp] theorem emit_bil (s : State) (k : Sent) (d : Nat) (l : List Nat) : (s.emit k d l).bil = s.bil := rfl
@[simp] theorem emit_bilCom (s : State) (k : Sent) (d : Nat) (l : List Nat) : (s.emit k d l).bilCom = s.bilCom := rfl
@[simp] theorem emit_tmp (s : State) (k : Sent) (d : Nat) (l : List Nat) : (s.emit k d l).tmp = s.tmp := rfl
@[simp] theorem emit_th (s : State) (k : Sent) (d : Nat) (l : List Nat) : (s.emit k d l).th = s.th := rfl
@[simp] theorem emit_cm (s : State) (k : Sent) (d : Nat) (l : List Nat) : (s.emit k d l).cm = s.cm := rfl
@[simp] theorem emit_sd (s : State) (k : Sent) (d : Nat) (l : List Nat) : (s.emit k d l).sd = s.sd := rfl
@[simp] theorem emit_cs (s : State) (k : Sent) (d : Nat) (l : List Nat) : (s.emit k d l).cs = s.cs := rfl
@[simp] theorem emit_can (s : State) (k : Sent) (d : Nat) (l : List Nat) : (s.emit k d l).can = s.can := rfl
@[simp] theorem emit_vault (s : State) (k : Sent) (d : Nat) (l : List Nat) : (s.emit k d l).vault = s.vault := rfl
@[simp] theorem emit_kv (s : State) (k : Sent) (d : Nat) (l : List Nat) : (s.emit k d l).kv = s.kv := rfl
@[simp] theorem emit_mg (s : State) (k : Sent) (d : Nat) (l : List Nat) : (s.emit k d l).mg = s.mg := rfl
@[simp] theorem emit_upd (s : State) (k : Sent) (d : Nat) (l : List Nat) : (s.emit k d l).upd = s.upd := rfl
@[simp] theorem emit_updN (s : State) (k : Sent) (d : Nat) (l : List Nat) : (s.emit k d l).updN = s.updN := rfl
@[simp] theorem free_regs (s : State) (w : Nat) : (s.free w).2.regs = s.regs := rfl
@[simp] theorem free_capt (s : State) (w : Nat) : (s.free w).2.capt = s.capt := rfl
@[simp] theorem free_flash (s : State) (w : Nat) : (s.free w).2.flash = s.flash := rfl
@[simp] theorem free_out (s : State) (w : Nat) : (s.free w).2.out = s.out := rfl
@[simp] theorem free_evr (s : State) (w : Nat) : (s.free w).2.evr = s.evr := rfl
@[simp] theorem free_pins (s : State) (w : Nat) : (s.free w).2.pins = s.pins := rfl
@[simp] theorem free_boot (s : State) (w : Nat) : (s.free w).2.boot = s.boot := rfl
@[simp] theorem free_pending (s : State) (w : Nat) : (s.free w).2.pending = s.pending := rfl
@[simp] theorem free_tb (s : State) (w : Nat) : (s.free w).2.tb = s.tb := rfl
@[simp] theorem free_keep (s : State) (w : Nat) : (s.free w).2.keep = s.keep := rfl
@[simp] theorem free_phx (s : State) (w : Nat) : (s.free w).2.phx = s.phx := rfl
@[simp] theorem free_grpx (s : State) (w : Nat) : (s.free w).2.grpx = s.grpx := rfl
@[simp] theorem free_auxx (s : State) (w : Nat) : (s.free w).2.auxx = s.auxx := rfl
@[simp] theorem free_le (s : State) (w : Nat) : (s.free w).2.le = s.le := rfl
@[simp] theorem free_ff (s : State) (w : Nat) : (s.free w).2.ff = s.ff := rfl
@[simp] theorem free_met (s : State) (w : Nat) : (s.free w).2.met = s.met := rfl
@[simp] theorem free_conns (s : State) (w : Nat) : (s.free w).2.conns = s.conns := rfl
@[simp] theorem free_needs (s : State) (w : Nat) : (s.free w).2.needs = s.needs := rfl
@[simp] theorem free_lsw (s : State) (w : Nat) : (s.free w).2.lsw = s.lsw := rfl
@[simp] theorem free_saf (s : State) (w : Nat) : (s.free w).2.saf = s.saf := rfl
@[simp] theorem free_fab (s : State) (w : Nat) : (s.free w).2.fab = s.fab := rfl
@[simp] theorem free_sl (s : State) (w : Nat) : (s.free w).2.sl = s.sl := rfl
@[simp] theorem free_plc (s : State) (w : Nat) : (s.free w).2.plc = s.plc := rfl
@[simp] theorem free_roster (s : State) (w : Nat) : (s.free w).2.roster = s.roster := rfl
@[simp] theorem free_rstStamp (s : State) (w : Nat) : (s.free w).2.rstStamp = s.rstStamp := rfl
@[simp] theorem free_bil (s : State) (w : Nat) : (s.free w).2.bil = s.bil := rfl
@[simp] theorem free_bilCom (s : State) (w : Nat) : (s.free w).2.bilCom = s.bilCom := rfl
@[simp] theorem free_tmp (s : State) (w : Nat) : (s.free w).2.tmp = s.tmp := rfl
@[simp] theorem free_th (s : State) (w : Nat) : (s.free w).2.th = s.th := rfl
@[simp] theorem free_cm (s : State) (w : Nat) : (s.free w).2.cm = s.cm := rfl
@[simp] theorem free_sd (s : State) (w : Nat) : (s.free w).2.sd = s.sd := rfl
@[simp] theorem free_cs (s : State) (w : Nat) : (s.free w).2.cs = s.cs := rfl
@[simp] theorem free_can (s : State) (w : Nat) : (s.free w).2.can = s.can := rfl
@[simp] theorem free_vault (s : State) (w : Nat) : (s.free w).2.vault = s.vault := rfl
@[simp] theorem free_kv (s : State) (w : Nat) : (s.free w).2.kv = s.kv := rfl
@[simp] theorem free_mg (s : State) (w : Nat) : (s.free w).2.mg = s.mg := rfl
@[simp] theorem free_upd (s : State) (w : Nat) : (s.free w).2.upd = s.upd := rfl
@[simp] theorem free_updN (s : State) (w : Nat) : (s.free w).2.updN = s.updN := rfl

end Sys2Proof.Laws
end

