-- ==== Sys2Proof/Laws/Keeps.lean ====
section
/-! SUPPORT. What a change of the state leaves alone. `Keeps A s t` says that `t` comes from `s` by changes of the parts in `A` only,
that the canonical form of the data is kept, and that no Moraine record is removed or altered. Every operation of the model has one lemma of this kind, in the files
`Keeps<file>` beside this one, so that no later proof unfolds an operation to know what it does not touch. -/

namespace Sys2Proof.Laws

open Sys2Proof.Machine

/-- `t` comes from `s` by changes of the parts in `A` only, its data stand in canonical form where those of `s` do, and its Moraine log
begins with that of `s`. -/
structure Keeps (A : Part → Prop) (s t : State) : Prop where
  canon : Canonical s → Canonical t
  same : Unchanged A s t
  moraine : s.evr.mor <+: t.evr.mor

variable {A : Part → Prop} {s t : State}

theorem Keeps.refl (A : Part → Prop) (s : State) : Keeps A s s :=
  ⟨id, ⟨fun _ _ _ _ => rfl, .inr rfl, .inr rfl, .inr rfl, .inr rfl, .inr rfl, .inr rfl, .inr rfl, .inr rfl, .inr rfl, .inr rfl, .inr rfl, .inr rfl, .inr rfl, .inr rfl, .inr rfl, .inr rfl, .inr rfl, .inr rfl, .inr rfl, .inr rfl, .inr rfl, .inr rfl, .inr rfl, .inr rfl, .inr rfl, .inr rfl, .inr rfl, .inr rfl, .inr rfl, .inr rfl, .inr rfl, .inr rfl, .inr rfl, .inr rfl, .inr rfl, .inr rfl, .inr rfl, .inr rfl⟩, List.prefix_rfl⟩

theorem cut {P Q : Prop} (hp : P) (hq : P → Q) : Q := hq hp

theorem keeps_ite {c : Prop} [Decidable c] {a b : State} (ha : Keeps A s a) (hb : Keeps A s b) : Keeps A s (if c then a else b) := by
  split <;> assumption

theorem keeps_ite2 {α : Type} {c : Prop} [Decidable c] {a b : α × State} (ha : Keeps A s a.2) (hb : Keeps A s b.2) :
    Keeps A s (if c then a else b).2 := by
  split <;> assumption

theorem keeps_foldl {α : Type} {f : State → α → State} {l : List α} (hf : ∀ t x, Keeps A s t → Keeps A s (f t x))
    (h : Keeps A s t) : Keeps A s (l.foldl f t) := by
  induction l generalizing t with
  | nil => exact h
  | cons x l ih => exact ih (hf t x h)

theorem keeps_foldl2 {α β : Type} {f : β × State → α → β × State} {l : List α} {p : β × State}
    (hf : ∀ p x, Keeps A s p.2 → Keeps A s (f p x).2) (h : Keeps A s p.2) : Keeps A s (l.foldl f p).2 := by
  induction l generalizing p with
  | nil => exact h
  | cons x l ih => exact ih (hf p x h)

theorem keeps_ite3 {α β : Type} {c : Prop} [Decidable c] {a b : α × β × State} (ha : Keeps A s a.2.2) (hb : Keeps A s b.2.2) :
    Keeps A s (if c then a else b).2.2 := by
  split <;> assumption

theorem keeps_foldl3 {α β γ : Type} {f : β × γ × State → α → β × γ × State} {l : List α} {p : β × γ × State}
    (hf : ∀ p x, Keeps A s p.2.2 → Keeps A s (f p x).2.2) (h : Keeps A s p.2.2) : Keeps A s (l.foldl f p).2.2 := by
  induction l generalizing p with
  | nil => exact h
  | cons x l ih => exact ih (hf p x h)

theorem keeps_setWord {a : Nat} {w : Word} (hA : A .regs) (h : Keeps A s t) : Keeps A s (t.setWord a w) :=
  ⟨fun c => ⟨sparsePut_wf (h.canon c).1, (h.canon c).2⟩,
    ⟨fun n => absurd hA n, h.same.capt, h.same.flash, h.same.out, h.same.evr, h.same.pins, h.same.boot, h.same.fresh, h.same.pending, h.same.tb, h.same.keep, h.same.phx, h.same.grpx, h.same.auxx, h.same.le, h.same.ff, h.same.met, h.same.conns, h.same.needs, h.same.lsw, h.same.saf, h.same.fab, h.same.sl, h.same.plc, h.same.roster, h.same.rstStamp, h.same.bil, h.same.bilCom, h.same.tmp, h.same.th, h.same.cm, h.same.sd, h.same.cs, h.same.can, h.same.vault, h.same.kv, h.same.mg, h.same.upd, h.same.updN⟩, h.moraine⟩

theorem put_keepsOf {f : Field} {v i j : Nat} (hA : A (.reg f) ∨ A (.inst f i j)) (h : Keeps A s t) : Keeps A s (t.put f v i j) := by
  refine ⟨fun c => ?_, ⟨fun n a k hk => ?_, ?_, ?_, ?_, ?_, ?_, ?_, ?_, ?_, ?_, ?_, ?_, ?_, ?_, ?_, ?_, ?_, ?_, ?_, ?_, ?_, ?_, ?_, ?_, ?_, ?_, ?_, ?_, ?_, ?_, ?_, ?_, ?_, ?_, ?_, ?_, ?_, ?_, ?_⟩, ?_⟩
  · unfold State.put
    split
    · exact ⟨sparsePut_wf (h.canon c).1, (h.canon c).2⟩
    · exact h.canon c
  · rw [← h.same.bits n a k hk]
    by_cases hi : i < f.n1 ∧ j < f.n2
    · apply put_bit_other
      by_cases ha : a = f.at i j
      · right
        by_contra hc
        have := hk f i j ⟨hi.1, hi.2, ha, by omega, by omega⟩
        exact hA.elim this.1 this.2
      · exact .inl ha
    · unfold State.put
      rw [if_neg hi]
  · rw [put_capt]; exact h.same.capt
  · rw [put_flash]; exact h.same.flash
  · rw [put_out]; exact h.same.out
  · rw [put_evr]; exact h.same.evr
  · rw [put_pins]; exact h.same.pins
  · rw [put_boot]; exact h.same.boot
  · rw [put_fresh]; exact h.same.fresh
  · rw [put_pending]; exact h.same.pending
  · rw [put_tb]; exact h.same.tb
  · rw [put_keep]; exact h.same.keep
  · rw [put_phx]; exact h.same.phx
  · rw [put_grpx]; exact h.same.grpx
  · rw [put_auxx]; exact h.same.auxx
  · rw [put_le]; exact h.same.le
  · rw [put_ff]; exact h.same.ff
  · rw [put_met]; exact h.same.met
  · rw [put_conns]; exact h.same.conns
  · rw [put_needs]; exact h.same.needs
  · rw [put_lsw]; exact h.same.lsw
  · rw [put_saf]; exact h.same.saf
  · rw [put_fab]; exact h.same.fab
  · rw [put_sl]; exact h.same.sl
  · rw [put_plc]; exact h.same.plc
  · rw [put_roster]; exact h.same.roster
  · rw [put_rstStamp]; exact h.same.rstStamp
  · rw [put_bil]; exact h.same.bil
  · rw [put_bilCom]; exact h.same.bilCom
  · rw [put_tmp]; exact h.same.tmp
  · rw [put_th]; exact h.same.th
  · rw [put_cm]; exact h.same.cm
  · rw [put_sd]; exact h.same.sd
  · rw [put_cs]; exact h.same.cs
  · rw [put_can]; exact h.same.can
  · rw [put_vault]; exact h.same.vault
  · rw [put_kv]; exact h.same.kv
  · rw [put_mg]; exact h.same.mg
  · rw [put_upd]; exact h.same.upd
  · rw [put_updN]; exact h.same.updN
  · rw [put_evr]; exact h.moraine

theorem put_keepsAny {f : Field} {v i j : Nat} (hA : A .regs) (h : Keeps A s t) : Keeps A s (t.put f v i j) := by
  unfold State.put
  split
  · exact keeps_setWord hA h
  · exact h

theorem put_keeps {f : Field} {v i j : Nat} (hA : A (.reg f)) (h : Keeps A s t) : Keeps A s (t.put f v i j) := put_keepsOf (.inl hA) h

theorem put_keepsAt {f : Field} {v i j : Nat} (hA : A (.inst f i j)) (h : Keeps A s t) : Keeps A s (t.put f v i j) := put_keepsOf (.inr hA) h

theorem putb_keeps {f : Field} {b : Bool} {i j : Nat} (hA : A (.reg f)) (h : Keeps A s t) : Keeps A s (t.putb f b i j) := put_keeps hA h

theorem putb_keepsAt {f : Field} {b : Bool} {i j : Nat} (hA : A (.inst f i j)) (h : Keeps A s t) : Keeps A s (t.putb f b i j) := put_keepsAt hA h

theorem puti_keeps {f : Field} {v : Int} {i j : Nat} (hA : A (.reg f)) (h : Keeps A s t) : Keeps A s (t.puti f v i j) := put_keeps hA h

theorem puti_keepsAt {f : Field} {v : Int} {i j : Nat} (hA : A (.inst f i j)) (h : Keeps A s t) : Keeps A s (t.puti f v i j) := put_keepsAt hA h

theorem putSat_keeps {f : Field} {v : Int} {i j : Nat} (hA : A (.reg f)) (h : Keeps A s t) : Keeps A s (t.putSat f v i j) := put_keeps hA h

theorem putSat_keepsAt {f : Field} {v : Int} {i j : Nat} (hA : A (.inst f i j)) (h : Keeps A s t) : Keeps A s (t.putSat f v i j) := put_keepsAt hA h

theorem putMax_keeps {f : Field} {v i j : Nat} (hA : A (.reg f)) (h : Keeps A s t) : Keeps A s (t.putMax f v i j) := put_keeps hA h

theorem putMax_keepsAt {f : Field} {v i j : Nat} (hA : A (.inst f i j)) (h : Keeps A s t) : Keeps A s (t.putMax f v i j) := put_keepsAt hA h

theorem inc_keeps {f : Field} {i j n : Nat} (hA : A (.reg f)) (h : Keeps A s t) : Keeps A s (t.inc f i j n) := put_keeps hA h

theorem inc_keepsAt {f : Field} {i j n : Nat} (hA : A (.inst f i j)) (h : Keeps A s t) : Keeps A s (t.inc f i j n) := put_keepsAt hA h

theorem put2_keeps {lo hi : Field} {v i : Nat} (hl : A (.reg lo)) (hh : A (.reg hi)) (h : Keeps A s t) : Keeps A s (t.put2 lo hi v i) :=
  put_keeps hh (put_keeps hl h)

theorem put2_keepsAt {lo hi : Field} {v i : Nat} (hl : A (.inst lo i 0)) (hh : A (.inst hi i 0)) (h : Keeps A s t) :
    Keeps A s (t.put2 lo hi v i) := put_keepsAt hh (put_keepsAt hl h)

theorem when_keeps {c : Bool} {g : State → State} (hg : ∀ t, Keeps A s t → Keeps A s (g t)) (h : Keeps A s t) : Keeps A s (t.when c g) := by
  unfold State.when
  split
  · exact hg t h
  · exact h

theorem each_keeps {n : Nat} {g : Nat → State → State} (hg : ∀ i t, Keeps A s t → Keeps A s (g i t)) (h : Keeps A s t) :
    Keeps A s (t.each n g) := keeps_foldl (fun t i ht => hg i t ht) h

theorem eachBit_keeps {n m : Nat} {g : Nat → State → State} (hg : ∀ i t, Keeps A s t → Keeps A s (g i t)) (h : Keeps A s t) :
    Keeps A s (t.eachBit n m g) := by
  refine each_keeps (fun i t ht => ?_) h
  split
  · exact hg i t ht
  · exact ht

theorem keeps_capt {v : List (Nat × Word)} (hA : A .capt) (h : Keeps A s t) : Keeps A s { t with capt := v } :=
  ⟨h.canon, ⟨h.same.bits, .inl hA, h.same.flash, h.same.out, h.same.evr, h.same.pins, h.same.boot, h.same.fresh, h.same.pending, h.same.tb, h.same.keep, h.same.phx, h.same.grpx, h.same.auxx, h.same.le, h.same.ff, h.same.met, h.same.conns, h.same.needs, h.same.lsw, h.same.saf, h.same.fab, h.same.sl, h.same.plc, h.same.roster, h.same.rstStamp, h.same.bil, h.same.bilCom, h.same.tmp, h.same.th, h.same.cm, h.same.sd, h.same.cs, h.same.can, h.same.vault, h.same.kv, h.same.mg, h.same.upd, h.same.updN⟩, h.moraine⟩

theorem keeps_flash {v : List Host.Cell} (hA : A .flash) (hv : Memory.wf t.flash = true → Memory.wf v = true) (h : Keeps A s t) :
    Keeps A s { t with flash := v } :=
  ⟨fun c => ⟨(h.canon c).1, hv (h.canon c).2⟩, ⟨h.same.bits, h.same.capt, .inl hA, h.same.out, h.same.evr, h.same.pins, h.same.boot, h.same.fresh, h.same.pending, h.same.tb, h.same.keep, h.same.phx, h.same.grpx, h.same.auxx, h.same.le, h.same.ff, h.same.met, h.same.conns, h.same.needs, h.same.lsw, h.same.saf, h.same.fab, h.same.sl, h.same.plc, h.same.roster, h.same.rstStamp, h.same.bil, h.same.bilCom, h.same.tmp, h.same.th, h.same.cm, h.same.sd, h.same.cs, h.same.can, h.same.vault, h.same.kv, h.same.mg, h.same.upd, h.same.updN⟩, h.moraine⟩

theorem keeps_out {v : List Out} (hA : A .out) (h : Keeps A s t) : Keeps A s { t with out := v } :=
  ⟨h.canon, ⟨h.same.bits, h.same.capt, h.same.flash, .inl hA, h.same.evr, h.same.pins, h.same.boot, h.same.fresh, h.same.pending, h.same.tb, h.same.keep, h.same.phx, h.same.grpx, h.same.auxx, h.same.le, h.same.ff, h.same.met, h.same.conns, h.same.needs, h.same.lsw, h.same.saf, h.same.fab, h.same.sl, h.same.plc, h.same.roster, h.same.rstStamp, h.same.bil, h.same.bilCom, h.same.tmp, h.same.th, h.same.cm, h.same.sd, h.same.cs, h.same.can, h.same.vault, h.same.kv, h.same.mg, h.same.upd, h.same.updN⟩, h.moraine⟩

/-- The intake queue takes a record; the Moraine log is as it was. -/
theorem intake_mor (e : Evr) (r : Rec) : e.mor <+: (e.intake r).mor := by
  unfold Evr.intake
  split <;> exact List.prefix_rfl

/-- The hold takes a record; the Moraine log is as it was. -/
theorem hold78_mor (e : Evr) (r : Rec) : e.mor <+: (e.hold78 r).mor := by
  unfold Evr.hold78
  split <;> exact List.prefix_rfl

/-- Emptying the hold leaves the Moraine log as it was. -/
theorem release_mor (e : Evr) : e.mor <+: e.release.mor := List.prefix_rfl

theorem keeps_evr {v : Evr} (hA : A .evr) (hv : t.evr.mor <+: v.mor) (h : Keeps A s t) : Keeps A s { t with evr := v } :=
  ⟨h.canon, ⟨h.same.bits, h.same.capt, h.same.flash, h.same.out, .inl hA, h.same.pins, h.same.boot, h.same.fresh, h.same.pending, h.same.tb, h.same.keep, h.same.phx, h.same.grpx, h.same.auxx, h.same.le, h.same.ff, h.same.met, h.same.conns, h.same.needs, h.same.lsw, h.same.saf, h.same.fab, h.same.sl, h.same.plc, h.same.roster, h.same.rstStamp, h.same.bil, h.same.bilCom, h.same.tmp, h.same.th, h.same.cm, h.same.sd, h.same.cs, h.same.can, h.same.vault, h.same.kv, h.same.mg, h.same.upd, h.same.updN⟩, h.moraine.trans hv⟩

theorem keeps_pins {v : Pins} (hA : A .pins) (h : Keeps A s t) : Keeps A s { t with pins := v } :=
  ⟨h.canon, ⟨h.same.bits, h.same.capt, h.same.flash, h.same.out, h.same.evr, .inl hA, h.same.boot, h.same.fresh, h.same.pending, h.same.tb, h.same.keep, h.same.phx, h.same.grpx, h.same.auxx, h.same.le, h.same.ff, h.same.met, h.same.conns, h.same.needs, h.same.lsw, h.same.saf, h.same.fab, h.same.sl, h.same.plc, h.same.roster, h.same.rstStamp, h.same.bil, h.same.bilCom, h.same.tmp, h.same.th, h.same.cm, h.same.sd, h.same.cs, h.same.can, h.same.vault, h.same.kv, h.same.mg, h.same.upd, h.same.updN⟩, h.moraine⟩

theorem keeps_boot {v : Boot} (hA : A .boot) (h : Keeps A s t) : Keeps A s { t with boot := v } :=
  ⟨h.canon, ⟨h.same.bits, h.same.capt, h.same.flash, h.same.out, h.same.evr, h.same.pins, .inl hA, h.same.fresh, h.same.pending, h.same.tb, h.same.keep, h.same.phx, h.same.grpx, h.same.auxx, h.same.le, h.same.ff, h.same.met, h.same.conns, h.same.needs, h.same.lsw, h.same.saf, h.same.fab, h.same.sl, h.same.plc, h.same.roster, h.same.rstStamp, h.same.bil, h.same.bilCom, h.same.tmp, h.same.th, h.same.cm, h.same.sd, h.same.cs, h.same.can, h.same.vault, h.same.kv, h.same.mg, h.same.upd, h.same.updN⟩, h.moraine⟩

theorem keeps_fresh {v : Nat} (hA : A .fresh) (h : Keeps A s t) : Keeps A s { t with fresh := v } :=
  ⟨h.canon, ⟨h.same.bits, h.same.capt, h.same.flash, h.same.out, h.same.evr, h.same.pins, h.same.boot, .inl hA, h.same.pending, h.same.tb, h.same.keep, h.same.phx, h.same.grpx, h.same.auxx, h.same.le, h.same.ff, h.same.met, h.same.conns, h.same.needs, h.same.lsw, h.same.saf, h.same.fab, h.same.sl, h.same.plc, h.same.roster, h.same.rstStamp, h.same.bil, h.same.bilCom, h.same.tmp, h.same.th, h.same.cm, h.same.sd, h.same.cs, h.same.can, h.same.vault, h.same.kv, h.same.mg, h.same.upd, h.same.updN⟩, h.moraine⟩

theorem keeps_pending {v : List Instr} (hA : A .pending) (h : Keeps A s t) : Keeps A s { t with pending := v } :=
  ⟨h.canon, ⟨h.same.bits, h.same.capt, h.same.flash, h.same.out, h.same.evr, h.same.pins, h.same.boot, h.same.fresh, .inl hA, h.same.tb, h.same.keep, h.same.phx, h.same.grpx, h.same.auxx, h.same.le, h.same.ff, h.same.met, h.same.conns, h.same.needs, h.same.lsw, h.same.saf, h.same.fab, h.same.sl, h.same.plc, h.same.roster, h.same.rstStamp, h.same.bil, h.same.bilCom, h.same.tmp, h.same.th, h.same.cm, h.same.sd, h.same.cs, h.same.can, h.same.vault, h.same.kv, h.same.mg, h.same.upd, h.same.updN⟩, h.moraine⟩

theorem keeps_tb {v : Tb} (hA : A .tb) (h : Keeps A s t) : Keeps A s { t with tb := v } :=
  ⟨h.canon, ⟨h.same.bits, h.same.capt, h.same.flash, h.same.out, h.same.evr, h.same.pins, h.same.boot, h.same.fresh, h.same.pending, .inl hA, h.same.keep, h.same.phx, h.same.grpx, h.same.auxx, h.same.le, h.same.ff, h.same.met, h.same.conns, h.same.needs, h.same.lsw, h.same.saf, h.same.fab, h.same.sl, h.same.plc, h.same.roster, h.same.rstStamp, h.same.bil, h.same.bilCom, h.same.tmp, h.same.th, h.same.cm, h.same.sd, h.same.cs, h.same.can, h.same.vault, h.same.kv, h.same.mg, h.same.upd, h.same.updN⟩, h.moraine⟩

theorem keeps_keep {v : Keeper} (hA : A .keep) (h : Keeps A s t) : Keeps A s { t with keep := v } :=
  ⟨h.canon, ⟨h.same.bits, h.same.capt, h.same.flash, h.same.out, h.same.evr, h.same.pins, h.same.boot, h.same.fresh, h.same.pending, h.same.tb, .inl hA, h.same.phx, h.same.grpx, h.same.auxx, h.same.le, h.same.ff, h.same.met, h.same.conns, h.same.needs, h.same.lsw, h.same.saf, h.same.fab, h.same.sl, h.same.plc, h.same.roster, h.same.rstStamp, h.same.bil, h.same.bilCom, h.same.tmp, h.same.th, h.same.cm, h.same.sd, h.same.cs, h.same.can, h.same.vault, h.same.kv, h.same.mg, h.same.upd, h.same.updN⟩, h.moraine⟩

theorem keeps_phx {v : List (Nat × PhX)} (hA : A .phx) (h : Keeps A s t) : Keeps A s { t with phx := v } :=
  ⟨h.canon, ⟨h.same.bits, h.same.capt, h.same.flash, h.same.out, h.same.evr, h.same.pins, h.same.boot, h.same.fresh, h.same.pending, h.same.tb, h.same.keep, .inl hA, h.same.grpx, h.same.auxx, h.same.le, h.same.ff, h.same.met, h.same.conns, h.same.needs, h.same.lsw, h.same.saf, h.same.fab, h.same.sl, h.same.plc, h.same.roster, h.same.rstStamp, h.same.bil, h.same.bilCom, h.same.tmp, h.same.th, h.same.cm, h.same.sd, h.same.cs, h.same.can, h.same.vault, h.same.kv, h.same.mg, h.same.upd, h.same.updN⟩, h.moraine⟩

theorem keeps_grpx {v : List (Nat × GrpX)} (hA : A .grpx) (h : Keeps A s t) : Keeps A s { t with grpx := v } :=
  ⟨h.canon, ⟨h.same.bits, h.same.capt, h.same.flash, h.same.out, h.same.evr, h.same.pins, h.same.boot, h.same.fresh, h.same.pending, h.same.tb, h.same.keep, h.same.phx, .inl hA, h.same.auxx, h.same.le, h.same.ff, h.same.met, h.same.conns, h.same.needs, h.same.lsw, h.same.saf, h.same.fab, h.same.sl, h.same.plc, h.same.roster, h.same.rstStamp, h.same.bil, h.same.bilCom, h.same.tmp, h.same.th, h.same.cm, h.same.sd, h.same.cs, h.same.can, h.same.vault, h.same.kv, h.same.mg, h.same.upd, h.same.updN⟩, h.moraine⟩

theorem keeps_auxx {v : List (Nat × AuxX)} (hA : A .auxx) (h : Keeps A s t) : Keeps A s { t with auxx := v } :=
  ⟨h.canon, ⟨h.same.bits, h.same.capt, h.same.flash, h.same.out, h.same.evr, h.same.pins, h.same.boot, h.same.fresh, h.same.pending, h.same.tb, h.same.keep, h.same.phx, h.same.grpx, .inl hA, h.same.le, h.same.ff, h.same.met, h.same.conns, h.same.needs, h.same.lsw, h.same.saf, h.same.fab, h.same.sl, h.same.plc, h.same.roster, h.same.rstStamp, h.same.bil, h.same.bilCom, h.same.tmp, h.same.th, h.same.cm, h.same.sd, h.same.cs, h.same.can, h.same.vault, h.same.kv, h.same.mg, h.same.upd, h.same.updN⟩, h.moraine⟩

theorem keeps_le {v : Le} (hA : A .le) (h : Keeps A s t) : Keeps A s { t with le := v } :=
  ⟨h.canon, ⟨h.same.bits, h.same.capt, h.same.flash, h.same.out, h.same.evr, h.same.pins, h.same.boot, h.same.fresh, h.same.pending, h.same.tb, h.same.keep, h.same.phx, h.same.grpx, h.same.auxx, .inl hA, h.same.ff, h.same.met, h.same.conns, h.same.needs, h.same.lsw, h.same.saf, h.same.fab, h.same.sl, h.same.plc, h.same.roster, h.same.rstStamp, h.same.bil, h.same.bilCom, h.same.tmp, h.same.th, h.same.cm, h.same.sd, h.same.cs, h.same.can, h.same.vault, h.same.kv, h.same.mg, h.same.upd, h.same.updN⟩, h.moraine⟩

theorem keeps_ff {v : List (Nat × Word)} (hA : A .ff) (h : Keeps A s t) : Keeps A s { t with ff := v } :=
  ⟨h.canon, ⟨h.same.bits, h.same.capt, h.same.flash, h.same.out, h.same.evr, h.same.pins, h.same.boot, h.same.fresh, h.same.pending, h.same.tb, h.same.keep, h.same.phx, h.same.grpx, h.same.auxx, h.same.le, .inl hA, h.same.met, h.same.conns, h.same.needs, h.same.lsw, h.same.saf, h.same.fab, h.same.sl, h.same.plc, h.same.roster, h.same.rstStamp, h.same.bil, h.same.bilCom, h.same.tmp, h.same.th, h.same.cm, h.same.sd, h.same.cs, h.same.can, h.same.vault, h.same.kv, h.same.mg, h.same.upd, h.same.updN⟩, h.moraine⟩

theorem keeps_met {v : Met} (hA : A .met) (h : Keeps A s t) : Keeps A s { t with met := v } :=
  ⟨h.canon, ⟨h.same.bits, h.same.capt, h.same.flash, h.same.out, h.same.evr, h.same.pins, h.same.boot, h.same.fresh, h.same.pending, h.same.tb, h.same.keep, h.same.phx, h.same.grpx, h.same.auxx, h.same.le, h.same.ff, .inl hA, h.same.conns, h.same.needs, h.same.lsw, h.same.saf, h.same.fab, h.same.sl, h.same.plc, h.same.roster, h.same.rstStamp, h.same.bil, h.same.bilCom, h.same.tmp, h.same.th, h.same.cm, h.same.sd, h.same.cs, h.same.can, h.same.vault, h.same.kv, h.same.mg, h.same.upd, h.same.updN⟩, h.moraine⟩

theorem keeps_conns {v : List (Nat × ConnX)} (hA : A .conns) (h : Keeps A s t) : Keeps A s { t with conns := v } :=
  ⟨h.canon, ⟨h.same.bits, h.same.capt, h.same.flash, h.same.out, h.same.evr, h.same.pins, h.same.boot, h.same.fresh, h.same.pending, h.same.tb, h.same.keep, h.same.phx, h.same.grpx, h.same.auxx, h.same.le, h.same.ff, h.same.met, .inl hA, h.same.needs, h.same.lsw, h.same.saf, h.same.fab, h.same.sl, h.same.plc, h.same.roster, h.same.rstStamp, h.same.bil, h.same.bilCom, h.same.tmp, h.same.th, h.same.cm, h.same.sd, h.same.cs, h.same.can, h.same.vault, h.same.kv, h.same.mg, h.same.upd, h.same.updN⟩, h.moraine⟩

theorem keeps_needs {v : List (Nat × NeedX)} (hA : A .needs) (h : Keeps A s t) : Keeps A s { t with needs := v } :=
  ⟨h.canon, ⟨h.same.bits, h.same.capt, h.same.flash, h.same.out, h.same.evr, h.same.pins, h.same.boot, h.same.fresh, h.same.pending, h.same.tb, h.same.keep, h.same.phx, h.same.grpx, h.same.auxx, h.same.le, h.same.ff, h.same.met, h.same.conns, .inl hA, h.same.lsw, h.same.saf, h.same.fab, h.same.sl, h.same.plc, h.same.roster, h.same.rstStamp, h.same.bil, h.same.bilCom, h.same.tmp, h.same.th, h.same.cm, h.same.sd, h.same.cs, h.same.can, h.same.vault, h.same.kv, h.same.mg, h.same.upd, h.same.updN⟩, h.moraine⟩

theorem keeps_lsw {v : Lsw} (hA : A .lsw) (h : Keeps A s t) : Keeps A s { t with lsw := v } :=
  ⟨h.canon, ⟨h.same.bits, h.same.capt, h.same.flash, h.same.out, h.same.evr, h.same.pins, h.same.boot, h.same.fresh, h.same.pending, h.same.tb, h.same.keep, h.same.phx, h.same.grpx, h.same.auxx, h.same.le, h.same.ff, h.same.met, h.same.conns, h.same.needs, .inl hA, h.same.saf, h.same.fab, h.same.sl, h.same.plc, h.same.roster, h.same.rstStamp, h.same.bil, h.same.bilCom, h.same.tmp, h.same.th, h.same.cm, h.same.sd, h.same.cs, h.same.can, h.same.vault, h.same.kv, h.same.mg, h.same.upd, h.same.updN⟩, h.moraine⟩

theorem keeps_saf {v : Saf} (hA : A .saf) (h : Keeps A s t) : Keeps A s { t with saf := v } :=
  ⟨h.canon, ⟨h.same.bits, h.same.capt, h.same.flash, h.same.out, h.same.evr, h.same.pins, h.same.boot, h.same.fresh, h.same.pending, h.same.tb, h.same.keep, h.same.phx, h.same.grpx, h.same.auxx, h.same.le, h.same.ff, h.same.met, h.same.conns, h.same.needs, h.same.lsw, .inl hA, h.same.fab, h.same.sl, h.same.plc, h.same.roster, h.same.rstStamp, h.same.bil, h.same.bilCom, h.same.tmp, h.same.th, h.same.cm, h.same.sd, h.same.cs, h.same.can, h.same.vault, h.same.kv, h.same.mg, h.same.upd, h.same.updN⟩, h.moraine⟩

theorem keeps_fab {v : Fab} (hA : A .fab) (h : Keeps A s t) : Keeps A s { t with fab := v } :=
  ⟨h.canon, ⟨h.same.bits, h.same.capt, h.same.flash, h.same.out, h.same.evr, h.same.pins, h.same.boot, h.same.fresh, h.same.pending, h.same.tb, h.same.keep, h.same.phx, h.same.grpx, h.same.auxx, h.same.le, h.same.ff, h.same.met, h.same.conns, h.same.needs, h.same.lsw, h.same.saf, .inl hA, h.same.sl, h.same.plc, h.same.roster, h.same.rstStamp, h.same.bil, h.same.bilCom, h.same.tmp, h.same.th, h.same.cm, h.same.sd, h.same.cs, h.same.can, h.same.vault, h.same.kv, h.same.mg, h.same.upd, h.same.updN⟩, h.moraine⟩

theorem keeps_sl {v : Sl} (hA : A .sl) (h : Keeps A s t) : Keeps A s { t with sl := v } :=
  ⟨h.canon, ⟨h.same.bits, h.same.capt, h.same.flash, h.same.out, h.same.evr, h.same.pins, h.same.boot, h.same.fresh, h.same.pending, h.same.tb, h.same.keep, h.same.phx, h.same.grpx, h.same.auxx, h.same.le, h.same.ff, h.same.met, h.same.conns, h.same.needs, h.same.lsw, h.same.saf, h.same.fab, .inl hA, h.same.plc, h.same.roster, h.same.rstStamp, h.same.bil, h.same.bilCom, h.same.tmp, h.same.th, h.same.cm, h.same.sd, h.same.cs, h.same.can, h.same.vault, h.same.kv, h.same.mg, h.same.upd, h.same.updN⟩, h.moraine⟩

theorem keeps_plc {v : Plc} (hA : A .plc) (h : Keeps A s t) : Keeps A s { t with plc := v } :=
  ⟨h.canon, ⟨h.same.bits, h.same.capt, h.same.flash, h.same.out, h.same.evr, h.same.pins, h.same.boot, h.same.fresh, h.same.pending, h.same.tb, h.same.keep, h.same.phx, h.same.grpx, h.same.auxx, h.same.le, h.same.ff, h.same.met, h.same.conns, h.same.needs, h.same.lsw, h.same.saf, h.same.fab, h.same.sl, .inl hA, h.same.roster, h.same.rstStamp, h.same.bil, h.same.bilCom, h.same.tmp, h.same.th, h.same.cm, h.same.sd, h.same.cs, h.same.can, h.same.vault, h.same.kv, h.same.mg, h.same.upd, h.same.updN⟩, h.moraine⟩

theorem keeps_roster {v : List (Nat × Nat)} (hA : A .roster) (h : Keeps A s t) : Keeps A s { t with roster := v } :=
  ⟨h.canon, ⟨h.same.bits, h.same.capt, h.same.flash, h.same.out, h.same.evr, h.same.pins, h.same.boot, h.same.fresh, h.same.pending, h.same.tb, h.same.keep, h.same.phx, h.same.grpx, h.same.auxx, h.same.le, h.same.ff, h.same.met, h.same.conns, h.same.needs, h.same.lsw, h.same.saf, h.same.fab, h.same.sl, h.same.plc, .inl hA, h.same.rstStamp, h.same.bil, h.same.bilCom, h.same.tmp, h.same.th, h.same.cm, h.same.sd, h.same.cs, h.same.can, h.same.vault, h.same.kv, h.same.mg, h.same.upd, h.same.updN⟩, h.moraine⟩

theorem keeps_rstStamp {v : Nat} (hA : A .rstStamp) (h : Keeps A s t) : Keeps A s { t with rstStamp := v } :=
  ⟨h.canon, ⟨h.same.bits, h.same.capt, h.same.flash, h.same.out, h.same.evr, h.same.pins, h.same.boot, h.same.fresh, h.same.pending, h.same.tb, h.same.keep, h.same.phx, h.same.grpx, h.same.auxx, h.same.le, h.same.ff, h.same.met, h.same.conns, h.same.needs, h.same.lsw, h.same.saf, h.same.fab, h.same.sl, h.same.plc, h.same.roster, .inl hA, h.same.bil, h.same.bilCom, h.same.tmp, h.same.th, h.same.cm, h.same.sd, h.same.cs, h.same.can, h.same.vault, h.same.kv, h.same.mg, h.same.upd, h.same.updN⟩, h.moraine⟩

theorem keeps_bil {v : Bil} (hA : A .bil) (h : Keeps A s t) : Keeps A s { t with bil := v } :=
  ⟨h.canon, ⟨h.same.bits, h.same.capt, h.same.flash, h.same.out, h.same.evr, h.same.pins, h.same.boot, h.same.fresh, h.same.pending, h.same.tb, h.same.keep, h.same.phx, h.same.grpx, h.same.auxx, h.same.le, h.same.ff, h.same.met, h.same.conns, h.same.needs, h.same.lsw, h.same.saf, h.same.fab, h.same.sl, h.same.plc, h.same.roster, h.same.rstStamp, .inl hA, h.same.bilCom, h.same.tmp, h.same.th, h.same.cm, h.same.sd, h.same.cs, h.same.can, h.same.vault, h.same.kv, h.same.mg, h.same.upd, h.same.updN⟩, h.moraine⟩

theorem keeps_bilCom {v : Bil} (hA : A .bilCom) (h : Keeps A s t) : Keeps A s { t with bilCom := v } :=
  ⟨h.canon, ⟨h.same.bits, h.same.capt, h.same.flash, h.same.out, h.same.evr, h.same.pins, h.same.boot, h.same.fresh, h.same.pending, h.same.tb, h.same.keep, h.same.phx, h.same.grpx, h.same.auxx, h.same.le, h.same.ff, h.same.met, h.same.conns, h.same.needs, h.same.lsw, h.same.saf, h.same.fab, h.same.sl, h.same.plc, h.same.roster, h.same.rstStamp, h.same.bil, .inl hA, h.same.tmp, h.same.th, h.same.cm, h.same.sd, h.same.cs, h.same.can, h.same.vault, h.same.kv, h.same.mg, h.same.upd, h.same.updN⟩, h.moraine⟩

theorem keeps_tmp {v : Tmp} (hA : A .tmp) (h : Keeps A s t) : Keeps A s { t with tmp := v } :=
  ⟨h.canon, ⟨h.same.bits, h.same.capt, h.same.flash, h.same.out, h.same.evr, h.same.pins, h.same.boot, h.same.fresh, h.same.pending, h.same.tb, h.same.keep, h.same.phx, h.same.grpx, h.same.auxx, h.same.le, h.same.ff, h.same.met, h.same.conns, h.same.needs, h.same.lsw, h.same.saf, h.same.fab, h.same.sl, h.same.plc, h.same.roster, h.same.rstStamp, h.same.bil, h.same.bilCom, .inl hA, h.same.th, h.same.cm, h.same.sd, h.same.cs, h.same.can, h.same.vault, h.same.kv, h.same.mg, h.same.upd, h.same.updN⟩, h.moraine⟩

theorem keeps_th {v : Th} (hA : A .th) (h : Keeps A s t) : Keeps A s { t with th := v } :=
  ⟨h.canon, ⟨h.same.bits, h.same.capt, h.same.flash, h.same.out, h.same.evr, h.same.pins, h.same.boot, h.same.fresh, h.same.pending, h.same.tb, h.same.keep, h.same.phx, h.same.grpx, h.same.auxx, h.same.le, h.same.ff, h.same.met, h.same.conns, h.same.needs, h.same.lsw, h.same.saf, h.same.fab, h.same.sl, h.same.plc, h.same.roster, h.same.rstStamp, h.same.bil, h.same.bilCom, h.same.tmp, .inl hA, h.same.cm, h.same.sd, h.same.cs, h.same.can, h.same.vault, h.same.kv, h.same.mg, h.same.upd, h.same.updN⟩, h.moraine⟩

theorem keeps_cm {v : List (Nat × Int)} (hA : A .cm) (h : Keeps A s t) : Keeps A s { t with cm := v } :=
  ⟨h.canon, ⟨h.same.bits, h.same.capt, h.same.flash, h.same.out, h.same.evr, h.same.pins, h.same.boot, h.same.fresh, h.same.pending, h.same.tb, h.same.keep, h.same.phx, h.same.grpx, h.same.auxx, h.same.le, h.same.ff, h.same.met, h.same.conns, h.same.needs, h.same.lsw, h.same.saf, h.same.fab, h.same.sl, h.same.plc, h.same.roster, h.same.rstStamp, h.same.bil, h.same.bilCom, h.same.tmp, h.same.th, .inl hA, h.same.sd, h.same.cs, h.same.can, h.same.vault, h.same.kv, h.same.mg, h.same.upd, h.same.updN⟩, h.moraine⟩

theorem keeps_sd {v : List SdRec} (hA : A .sd) (h : Keeps A s t) : Keeps A s { t with sd := v } :=
  ⟨h.canon, ⟨h.same.bits, h.same.capt, h.same.flash, h.same.out, h.same.evr, h.same.pins, h.same.boot, h.same.fresh, h.same.pending, h.same.tb, h.same.keep, h.same.phx, h.same.grpx, h.same.auxx, h.same.le, h.same.ff, h.same.met, h.same.conns, h.same.needs, h.same.lsw, h.same.saf, h.same.fab, h.same.sl, h.same.plc, h.same.roster, h.same.rstStamp, h.same.bil, h.same.bilCom, h.same.tmp, h.same.th, h.same.cm, .inl hA, h.same.cs, h.same.can, h.same.vault, h.same.kv, h.same.mg, h.same.upd, h.same.updN⟩, h.moraine⟩

theorem keeps_cs {v : Cs} (hA : A .cs) (h : Keeps A s t) : Keeps A s { t with cs := v } :=
  ⟨h.canon, ⟨h.same.bits, h.same.capt, h.same.flash, h.same.out, h.same.evr, h.same.pins, h.same.boot, h.same.fresh, h.same.pending, h.same.tb, h.same.keep, h.same.phx, h.same.grpx, h.same.auxx, h.same.le, h.same.ff, h.same.met, h.same.conns, h.same.needs, h.same.lsw, h.same.saf, h.same.fab, h.same.sl, h.same.plc, h.same.roster, h.same.rstStamp, h.same.bil, h.same.bilCom, h.same.tmp, h.same.th, h.same.cm, h.same.sd, .inl hA, h.same.can, h.same.vault, h.same.kv, h.same.mg, h.same.upd, h.same.updN⟩, h.moraine⟩

theorem keeps_can {v : Can} (hA : A .can) (h : Keeps A s t) : Keeps A s { t with can := v } :=
  ⟨h.canon, ⟨h.same.bits, h.same.capt, h.same.flash, h.same.out, h.same.evr, h.same.pins, h.same.boot, h.same.fresh, h.same.pending, h.same.tb, h.same.keep, h.same.phx, h.same.grpx, h.same.auxx, h.same.le, h.same.ff, h.same.met, h.same.conns, h.same.needs, h.same.lsw, h.same.saf, h.same.fab, h.same.sl, h.same.plc, h.same.roster, h.same.rstStamp, h.same.bil, h.same.bilCom, h.same.tmp, h.same.th, h.same.cm, h.same.sd, h.same.cs, .inl hA, h.same.vault, h.same.kv, h.same.mg, h.same.upd, h.same.updN⟩, h.moraine⟩

theorem keeps_vault {v : Vault} (hA : A .vault) (h : Keeps A s t) : Keeps A s { t with vault := v } :=
  ⟨h.canon, ⟨h.same.bits, h.same.capt, h.same.flash, h.same.out, h.same.evr, h.same.pins, h.same.boot, h.same.fresh, h.same.pending, h.same.tb, h.same.keep, h.same.phx, h.same.grpx, h.same.auxx, h.same.le, h.same.ff, h.same.met, h.same.conns, h.same.needs, h.same.lsw, h.same.saf, h.same.fab, h.same.sl, h.same.plc, h.same.roster, h.same.rstStamp, h.same.bil, h.same.bilCom, h.same.tmp, h.same.th, h.same.cm, h.same.sd, h.same.cs, h.same.can, .inl hA, h.same.kv, h.same.mg, h.same.upd, h.same.updN⟩, h.moraine⟩

theorem keeps_kv {v : Kv} (hA : A .kv) (h : Keeps A s t) : Keeps A s { t with kv := v } :=
  ⟨h.canon, ⟨h.same.bits, h.same.capt, h.same.flash, h.same.out, h.same.evr, h.same.pins, h.same.boot, h.same.fresh, h.same.pending, h.same.tb, h.same.keep, h.same.phx, h.same.grpx, h.same.auxx, h.same.le, h.same.ff, h.same.met, h.same.conns, h.same.needs, h.same.lsw, h.same.saf, h.same.fab, h.same.sl, h.same.plc, h.same.roster, h.same.rstStamp, h.same.bil, h.same.bilCom, h.same.tmp, h.same.th, h.same.cm, h.same.sd, h.same.cs, h.same.can, h.same.vault, .inl hA, h.same.mg, h.same.upd, h.same.updN⟩, h.moraine⟩

theorem keeps_mg {v : Mg} (hA : A .mg) (h : Keeps A s t) : Keeps A s { t with mg := v } :=
  ⟨h.canon, ⟨h.same.bits, h.same.capt, h.same.flash, h.same.out, h.same.evr, h.same.pins, h.same.boot, h.same.fresh, h.same.pending, h.same.tb, h.same.keep, h.same.phx, h.same.grpx, h.same.auxx, h.same.le, h.same.ff, h.same.met, h.same.conns, h.same.needs, h.same.lsw, h.same.saf, h.same.fab, h.same.sl, h.same.plc, h.same.roster, h.same.rstStamp, h.same.bil, h.same.bilCom, h.same.tmp, h.same.th, h.same.cm, h.same.sd, h.same.cs, h.same.can, h.same.vault, h.same.kv, .inl hA, h.same.upd, h.same.updN⟩, h.moraine⟩

theorem keeps_upd {v : Upd} (hA : A .upd) (h : Keeps A s t) : Keeps A s { t with upd := v } :=
  ⟨h.canon, ⟨h.same.bits, h.same.capt, h.same.flash, h.same.out, h.same.evr, h.same.pins, h.same.boot, h.same.fresh, h.same.pending, h.same.tb, h.same.keep, h.same.phx, h.same.grpx, h.same.auxx, h.same.le, h.same.ff, h.same.met, h.same.conns, h.same.needs, h.same.lsw, h.same.saf, h.same.fab, h.same.sl, h.same.plc, h.same.roster, h.same.rstStamp, h.same.bil, h.same.bilCom, h.same.tmp, h.same.th, h.same.cm, h.same.sd, h.same.cs, h.same.can, h.same.vault, h.same.kv, h.same.mg, .inl hA, h.same.updN⟩, h.moraine⟩

theorem keeps_updN {v : UpdN} (hA : A .updN) (h : Keeps A s t) : Keeps A s { t with updN := v } :=
  ⟨h.canon, ⟨h.same.bits, h.same.capt, h.same.flash, h.same.out, h.same.evr, h.same.pins, h.same.boot, h.same.fresh, h.same.pending, h.same.tb, h.same.keep, h.same.phx, h.same.grpx, h.same.auxx, h.same.le, h.same.ff, h.same.met, h.same.conns, h.same.needs, h.same.lsw, h.same.saf, h.same.fab, h.same.sl, h.same.plc, h.same.roster, h.same.rstStamp, h.same.bil, h.same.bilCom, h.same.tmp, h.same.th, h.same.cm, h.same.sd, h.same.cs, h.same.can, h.same.vault, h.same.kv, h.same.mg, h.same.upd, .inl hA⟩, h.moraine⟩

/-! Updates of several fields at once. -/

theorem keeps_met_bilCom {v_met : Met} {v_bilCom : Bil} (h_met : A .met) (h_bilCom : A .bilCom) (h : Keeps A s t) :
    Keeps A s { t with met := v_met, bilCom := v_bilCom } :=
  ⟨h.canon, ⟨h.same.bits, h.same.capt, h.same.flash, h.same.out, h.same.evr, h.same.pins, h.same.boot, h.same.fresh, h.same.pending, h.same.tb, h.same.keep, h.same.phx, h.same.grpx, h.same.auxx, h.same.le, h.same.ff, .inl h_met, h.same.conns, h.same.needs, h.same.lsw, h.same.saf, h.same.fab, h.same.sl, h.same.plc, h.same.roster, h.same.rstStamp, h.same.bil, .inl h_bilCom, h.same.tmp, h.same.th, h.same.cm, h.same.sd, h.same.cs, h.same.can, h.same.vault, h.same.kv, h.same.mg, h.same.upd, h.same.updN⟩, h.moraine⟩

theorem keeps_pins_boot {v_pins : Pins} {v_boot : Boot} (h_pins : A .pins) (h_boot : A .boot) (h : Keeps A s t) :
    Keeps A s { t with pins := v_pins, boot := v_boot } :=
  ⟨h.canon, ⟨h.same.bits, h.same.capt, h.same.flash, h.same.out, h.same.evr, .inl h_pins, .inl h_boot, h.same.fresh, h.same.pending, h.same.tb, h.same.keep, h.same.phx, h.same.grpx, h.same.auxx, h.same.le, h.same.ff, h.same.met, h.same.conns, h.same.needs, h.same.lsw, h.same.saf, h.same.fab, h.same.sl, h.same.plc, h.same.roster, h.same.rstStamp, h.same.bil, h.same.bilCom, h.same.tmp, h.same.th, h.same.cm, h.same.sd, h.same.cs, h.same.can, h.same.vault, h.same.kv, h.same.mg, h.same.upd, h.same.updN⟩, h.moraine⟩

theorem keeps_met_bil {v_met : Met} {v_bil : Bil} (h_met : A .met) (h_bil : A .bil) (h : Keeps A s t) :
    Keeps A s { t with met := v_met, bil := v_bil } :=
  ⟨h.canon, ⟨h.same.bits, h.same.capt, h.same.flash, h.same.out, h.same.evr, h.same.pins, h.same.boot, h.same.fresh, h.same.pending, h.same.tb, h.same.keep, h.same.phx, h.same.grpx, h.same.auxx, h.same.le, h.same.ff, .inl h_met, h.same.conns, h.same.needs, h.same.lsw, h.same.saf, h.same.fab, h.same.sl, h.same.plc, h.same.roster, h.same.rstStamp, .inl h_bil, h.same.bilCom, h.same.tmp, h.same.th, h.same.cm, h.same.sd, h.same.cs, h.same.can, h.same.vault, h.same.kv, h.same.mg, h.same.upd, h.same.updN⟩, h.moraine⟩

theorem keeps_pins_tb {v_pins : Pins} {v_tb : Tb} (h_pins : A .pins) (h_tb : A .tb) (h : Keeps A s t) :
    Keeps A s { t with pins := v_pins, tb := v_tb } :=
  ⟨h.canon, ⟨h.same.bits, h.same.capt, h.same.flash, h.same.out, h.same.evr, .inl h_pins, h.same.boot, h.same.fresh, h.same.pending, .inl h_tb, h.same.keep, h.same.phx, h.same.grpx, h.same.auxx, h.same.le, h.same.ff, h.same.met, h.same.conns, h.same.needs, h.same.lsw, h.same.saf, h.same.fab, h.same.sl, h.same.plc, h.same.roster, h.same.rstStamp, h.same.bil, h.same.bilCom, h.same.tmp, h.same.th, h.same.cm, h.same.sd, h.same.cs, h.same.can, h.same.vault, h.same.kv, h.same.mg, h.same.upd, h.same.updN⟩, h.moraine⟩

theorem keeps_pins_boot_saf {v_pins : Pins} {v_boot : Boot} {v_saf : Saf} (h_pins : A .pins) (h_boot : A .boot) (h_saf : A .saf) (h : Keeps A s t) :
    Keeps A s { t with pins := v_pins, boot := v_boot, saf := v_saf } :=
  ⟨h.canon, ⟨h.same.bits, h.same.capt, h.same.flash, h.same.out, h.same.evr, .inl h_pins, .inl h_boot, h.same.fresh, h.same.pending, h.same.tb, h.same.keep, h.same.phx, h.same.grpx, h.same.auxx, h.same.le, h.same.ff, h.same.met, h.same.conns, h.same.needs, h.same.lsw, .inl h_saf, h.same.fab, h.same.sl, h.same.plc, h.same.roster, h.same.rstStamp, h.same.bil, h.same.bilCom, h.same.tmp, h.same.th, h.same.cm, h.same.sd, h.same.cs, h.same.can, h.same.vault, h.same.kv, h.same.mg, h.same.upd, h.same.updN⟩, h.moraine⟩

theorem keeps_pins_auxx_lsw_th {v_pins : Pins} {v_auxx : List (Nat × AuxX)} {v_lsw : Lsw} {v_th : Th} (h_pins : A .pins) (h_auxx : A .auxx) (h_lsw : A .lsw) (h_th : A .th) (h : Keeps A s t) :
    Keeps A s { t with pins := v_pins, auxx := v_auxx, lsw := v_lsw, th := v_th } :=
  ⟨h.canon, ⟨h.same.bits, h.same.capt, h.same.flash, h.same.out, h.same.evr, .inl h_pins, h.same.boot, h.same.fresh, h.same.pending, h.same.tb, h.same.keep, h.same.phx, h.same.grpx, .inl h_auxx, h.same.le, h.same.ff, h.same.met, h.same.conns, h.same.needs, .inl h_lsw, h.same.saf, h.same.fab, h.same.sl, h.same.plc, h.same.roster, h.same.rstStamp, h.same.bil, h.same.bilCom, h.same.tmp, .inl h_th, h.same.cm, h.same.sd, h.same.cs, h.same.can, h.same.vault, h.same.kv, h.same.mg, h.same.upd, h.same.updN⟩, h.moraine⟩

theorem keeps_capt_evr_pins_boot_tb_keep_phx_grpx_auxx_le_ff_conns_needs_lsw_saf_fab_sl_plc_roster_rstStamp_th_cm_cs_can_kv_mg_upd {v_capt : List (Nat × Word)} {v_evr : Evr} {v_pins : Pins} {v_boot : Boot} {v_tb : Tb} {v_keep : Keeper} {v_phx : List (Nat × PhX)} {v_grpx : List (Nat × GrpX)} {v_auxx : List (Nat × AuxX)} {v_le : Le} {v_ff : List (Nat × Word)} {v_conns : List (Nat × ConnX)} {v_needs : List (Nat × NeedX)} {v_lsw : Lsw} {v_saf : Saf} {v_fab : Fab} {v_sl : Sl} {v_plc : Plc} {v_roster : List (Nat × Nat)} {v_rstStamp : Nat} {v_th : Th} {v_cm : List (Nat × Int)} {v_cs : Cs} {v_can : Can} {v_kv : Kv} {v_mg : Mg} {v_upd : Upd} (h_capt : A .capt) (h_evr : A .evr) (h_pins : A .pins) (h_boot : A .boot) (h_tb : A .tb) (h_keep : A .keep) (h_phx : A .phx) (h_grpx : A .grpx) (h_auxx : A .auxx) (h_le : A .le) (h_ff : A .ff) (h_conns : A .conns) (h_needs : A .needs) (h_lsw : A .lsw) (h_saf : A .saf) (h_fab : A .fab) (h_sl : A .sl) (h_plc : A .plc) (h_roster : A .roster) (h_rstStamp : A .rstStamp) (h_th : A .th) (h_cm : A .cm) (h_cs : A .cs) (h_can : A .can) (h_kv : A .kv) (h_mg : A .mg) (h_upd : A .upd) (hv : t.evr.mor <+: v_evr.mor) (h : Keeps A s t) :
    Keeps A s { t with capt := v_capt, evr := v_evr, pins := v_pins, boot := v_boot, tb := v_tb, keep := v_keep, phx := v_phx, grpx := v_grpx, auxx := v_auxx, le := v_le, ff := v_ff, conns := v_conns, needs := v_needs, lsw := v_lsw, saf := v_saf, fab := v_fab, sl := v_sl, plc := v_plc, roster := v_roster, rstStamp := v_rstStamp, th := v_th, cm := v_cm, cs := v_cs, can := v_can, kv := v_kv, mg := v_mg, upd := v_upd } :=
  ⟨h.canon, ⟨h.same.bits, .inl h_capt, h.same.flash, h.same.out, .inl h_evr, .inl h_pins, .inl h_boot, h.same.fresh, h.same.pending, .inl h_tb, .inl h_keep, .inl h_phx, .inl h_grpx, .inl h_auxx, .inl h_le, .inl h_ff, h.same.met, .inl h_conns, .inl h_needs, .inl h_lsw, .inl h_saf, .inl h_fab, .inl h_sl, .inl h_plc, .inl h_roster, .inl h_rstStamp, h.same.bil, h.same.bilCom, h.same.tmp, .inl h_th, .inl h_cm, h.same.sd, .inl h_cs, .inl h_can, h.same.vault, .inl h_kv, .inl h_mg, .inl h_upd, h.same.updN⟩, h.moraine.trans hv⟩

theorem keeps_th_cm {v_th : Th} {v_cm : List (Nat × Int)} (h_th : A .th) (h_cm : A .cm) (h : Keeps A s t) :
    Keeps A s { t with th := v_th, cm := v_cm } :=
  ⟨h.canon, ⟨h.same.bits, h.same.capt, h.same.flash, h.same.out, h.same.evr, h.same.pins, h.same.boot, h.same.fresh, h.same.pending, h.same.tb, h.same.keep, h.same.phx, h.same.grpx, h.same.auxx, h.same.le, h.same.ff, h.same.met, h.same.conns, h.same.needs, h.same.lsw, h.same.saf, h.same.fab, h.same.sl, h.same.plc, h.same.roster, h.same.rstStamp, h.same.bil, h.same.bilCom, h.same.tmp, .inl h_th, .inl h_cm, h.same.sd, h.same.cs, h.same.can, h.same.vault, h.same.kv, h.same.mg, h.same.upd, h.same.updN⟩, h.moraine⟩

theorem keeps_capt_needs_saf_sl_mg_upd {v_capt : List (Nat × Word)} {v_needs : List (Nat × NeedX)} {v_saf : Saf} {v_sl : Sl} {v_mg : Mg} {v_upd : Upd} (h_capt : A .capt) (h_needs : A .needs) (h_saf : A .saf) (h_sl : A .sl) (h_mg : A .mg) (h_upd : A .upd) (h : Keeps A s t) :
    Keeps A s { t with capt := v_capt, needs := v_needs, saf := v_saf, sl := v_sl, mg := v_mg, upd := v_upd } :=
  ⟨h.canon, ⟨h.same.bits, .inl h_capt, h.same.flash, h.same.out, h.same.evr, h.same.pins, h.same.boot, h.same.fresh, h.same.pending, h.same.tb, h.same.keep, h.same.phx, h.same.grpx, h.same.auxx, h.same.le, h.same.ff, h.same.met, h.same.conns, .inl h_needs, h.same.lsw, .inl h_saf, h.same.fab, .inl h_sl, h.same.plc, h.same.roster, h.same.rstStamp, h.same.bil, h.same.bilCom, h.same.tmp, h.same.th, h.same.cm, h.same.sd, h.same.cs, h.same.can, h.same.vault, h.same.kv, .inl h_mg, .inl h_upd, h.same.updN⟩, h.moraine⟩

theorem keeps_conns_plc_cs_can {v_conns : List (Nat × ConnX)} {v_plc : Plc} {v_cs : Cs} {v_can : Can} (h_conns : A .conns) (h_plc : A .plc) (h_cs : A .cs) (h_can : A .can) (h : Keeps A s t) :
    Keeps A s { t with conns := v_conns, plc := v_plc, cs := v_cs, can := v_can } :=
  ⟨h.canon, ⟨h.same.bits, h.same.capt, h.same.flash, h.same.out, h.same.evr, h.same.pins, h.same.boot, h.same.fresh, h.same.pending, h.same.tb, h.same.keep, h.same.phx, h.same.grpx, h.same.auxx, h.same.le, h.same.ff, h.same.met, .inl h_conns, h.same.needs, h.same.lsw, h.same.saf, h.same.fab, h.same.sl, .inl h_plc, h.same.roster, h.same.rstStamp, h.same.bil, h.same.bilCom, h.same.tmp, h.same.th, h.same.cm, h.same.sd, .inl h_cs, .inl h_can, h.same.vault, h.same.kv, h.same.mg, h.same.upd, h.same.updN⟩, h.moraine⟩

theorem keeps_ff_roster {v_ff : List (Nat × Word)} {v_roster : List (Nat × Nat)} (h_ff : A .ff) (h_roster : A .roster) (h : Keeps A s t) :
    Keeps A s { t with ff := v_ff, roster := v_roster } :=
  ⟨h.canon, ⟨h.same.bits, h.same.capt, h.same.flash, h.same.out, h.same.evr, h.same.pins, h.same.boot, h.same.fresh, h.same.pending, h.same.tb, h.same.keep, h.same.phx, h.same.grpx, h.same.auxx, h.same.le, .inl h_ff, h.same.met, h.same.conns, h.same.needs, h.same.lsw, h.same.saf, h.same.fab, h.same.sl, h.same.plc, .inl h_roster, h.same.rstStamp, h.same.bil, h.same.bilCom, h.same.tmp, h.same.th, h.same.cm, h.same.sd, h.same.cs, h.same.can, h.same.vault, h.same.kv, h.same.mg, h.same.upd, h.same.updN⟩, h.moraine⟩

theorem keeps_phx_grpx {v_phx : List (Nat × PhX)} {v_grpx : List (Nat × GrpX)} (h_phx : A .phx) (h_grpx : A .grpx) (h : Keeps A s t) :
    Keeps A s { t with phx := v_phx, grpx := v_grpx } :=
  ⟨h.canon, ⟨h.same.bits, h.same.capt, h.same.flash, h.same.out, h.same.evr, h.same.pins, h.same.boot, h.same.fresh, h.same.pending, h.same.tb, h.same.keep, .inl h_phx, .inl h_grpx, h.same.auxx, h.same.le, h.same.ff, h.same.met, h.same.conns, h.same.needs, h.same.lsw, h.same.saf, h.same.fab, h.same.sl, h.same.plc, h.same.roster, h.same.rstStamp, h.same.bil, h.same.bilCom, h.same.tmp, h.same.th, h.same.cm, h.same.sd, h.same.cs, h.same.can, h.same.vault, h.same.kv, h.same.mg, h.same.upd, h.same.updN⟩, h.moraine⟩

theorem keeps_boot_updN {v_boot : Boot} {v_updN : UpdN} (h_boot : A .boot) (h_updN : A .updN) (h : Keeps A s t) :
    Keeps A s { t with boot := v_boot, updN := v_updN } :=
  ⟨h.canon, ⟨h.same.bits, h.same.capt, h.same.flash, h.same.out, h.same.evr, h.same.pins, .inl h_boot, h.same.fresh, h.same.pending, h.same.tb, h.same.keep, h.same.phx, h.same.grpx, h.same.auxx, h.same.le, h.same.ff, h.same.met, h.same.conns, h.same.needs, h.same.lsw, h.same.saf, h.same.fab, h.same.sl, h.same.plc, h.same.roster, h.same.rstStamp, h.same.bil, h.same.bilCom, h.same.tmp, h.same.th, h.same.cm, h.same.sd, h.same.cs, h.same.can, h.same.vault, h.same.kv, h.same.mg, h.same.upd, .inl h_updN⟩, h.moraine⟩

theorem keeps_boot_upd {v_boot : Boot} {v_upd : Upd} (h_boot : A .boot) (h_upd : A .upd) (h : Keeps A s t) :
    Keeps A s { t with boot := v_boot, upd := v_upd } :=
  ⟨h.canon, ⟨h.same.bits, h.same.capt, h.same.flash, h.same.out, h.same.evr, h.same.pins, .inl h_boot, h.same.fresh, h.same.pending, h.same.tb, h.same.keep, h.same.phx, h.same.grpx, h.same.auxx, h.same.le, h.same.ff, h.same.met, h.same.conns, h.same.needs, h.same.lsw, h.same.saf, h.same.fab, h.same.sl, h.same.plc, h.same.roster, h.same.rstStamp, h.same.bil, h.same.bilCom, h.same.tmp, h.same.th, h.same.cm, h.same.sd, h.same.cs, h.same.can, h.same.vault, h.same.kv, h.same.mg, .inl h_upd, h.same.updN⟩, h.moraine⟩

/-- Fewer parts are a stronger statement. -/
theorem Keeps.mono {B : Part → Prop} (hB : ∀ p, A p → B p) (h : Keeps A s t) : Keeps B s t :=
  ⟨h.canon, ⟨fun n a k hk => h.same.bits (fun x => n (hB _ x)) a k fun f i j hf => ⟨fun x => (hk f i j hf).1 (hB _ x), fun x => (hk f i j hf).2 (hB _ x)⟩, h.same.capt.imp (hB _) id, h.same.flash.imp (hB _) id, h.same.out.imp (hB _) id, h.same.evr.imp (hB _) id, h.same.pins.imp (hB _) id, h.same.boot.imp (hB _) id, h.same.fresh.imp (hB _) id, h.same.pending.imp (hB _) id, h.same.tb.imp (hB _) id, h.same.keep.imp (hB _) id, h.same.phx.imp (hB _) id, h.same.grpx.imp (hB _) id, h.same.auxx.imp (hB _) id, h.same.le.imp (hB _) id, h.same.ff.imp (hB _) id, h.same.met.imp (hB _) id, h.same.conns.imp (hB _) id, h.same.needs.imp (hB _) id, h.same.lsw.imp (hB _) id, h.same.saf.imp (hB _) id, h.same.fab.imp (hB _) id, h.same.sl.imp (hB _) id, h.same.plc.imp (hB _) id, h.same.roster.imp (hB _) id, h.same.rstStamp.imp (hB _) id, h.same.bil.imp (hB _) id, h.same.bilCom.imp (hB _) id, h.same.tmp.imp (hB _) id, h.same.th.imp (hB _) id, h.same.cm.imp (hB _) id, h.same.sd.imp (hB _) id, h.same.cs.imp (hB _) id, h.same.can.imp (hB _) id, h.same.vault.imp (hB _) id, h.same.kv.imp (hB _) id, h.same.mg.imp (hB _) id, h.same.upd.imp (hB _) id, h.same.updN.imp (hB _) id⟩, h.moraine⟩

/-- An instance keeps its value where the parts that may change share no bit with it. -/
theorem Keeps.get {g : Field} {i j : Nat} (h : Keeps A s t) (hr : ¬ A .regs) (hi : i < g.n1) (hj : j < g.n2)
    (hA : ∀ f, A (.reg f) → apart f g = true)
    (hB : ∀ f i' j', A (.inst f i' j') → g.at i j ≠ f.at i' j' ∨ g.lo + g.w ≤ f.lo ∨ f.lo + f.w ≤ g.lo) : t.get g i j = s.get g i j := by
  apply get_eq_of_bits
  intro k h1 h2
  apply h.same.bits hr
  rintro f i' j' ⟨hi', hj', ha, h3, h4⟩
  refine ⟨fun hf => ?_, fun hf => ?_⟩
  · rcases apart_at (hA f hf) hi' hj' hi hj with h | h | h
    · exact h ha
    · omega
    · omega
  · rcases hB f i' j' hf with h | h | h
    · exact h ha
    · omega
    · omega

theorem keeps_fab_sl {v_fab : Fab} {v_sl : Sl} (h_fab : A .fab) (h_sl : A .sl) (h : Keeps A s t) :
    Keeps A s { t with fab := v_fab, sl := v_sl } :=
  ⟨h.canon, ⟨h.same.bits, h.same.capt, h.same.flash, h.same.out, h.same.evr, h.same.pins, h.same.boot, h.same.fresh, h.same.pending, h.same.tb, h.same.keep, h.same.phx, h.same.grpx, h.same.auxx, h.same.le, h.same.ff, h.same.met, h.same.conns, h.same.needs, h.same.lsw, h.same.saf, .inl h_fab, .inl h_sl, h.same.plc, h.same.roster, h.same.rstStamp, h.same.bil, h.same.bilCom, h.same.tmp, h.same.th, h.same.cm, h.same.sd, h.same.cs, h.same.can, h.same.vault, h.same.kv, h.same.mg, h.same.upd, h.same.updN⟩, h.moraine⟩

theorem keeps_ff_roster_updN {v_ff : List (Nat × Word)} {v_roster : List (Nat × Nat)} {v_updN : UpdN} (h_ff : A .ff) (h_roster : A .roster) (h_updN : A .updN) (h : Keeps A s t) :
    Keeps A s { t with ff := v_ff, roster := v_roster, updN := v_updN } :=
  ⟨h.canon, ⟨h.same.bits, h.same.capt, h.same.flash, h.same.out, h.same.evr, h.same.pins, h.same.boot, h.same.fresh, h.same.pending, h.same.tb, h.same.keep, h.same.phx, h.same.grpx, h.same.auxx, h.same.le, .inl h_ff, h.same.met, h.same.conns, h.same.needs, h.same.lsw, h.same.saf, h.same.fab, h.same.sl, h.same.plc, .inl h_roster, h.same.rstStamp, h.same.bil, h.same.bilCom, h.same.tmp, h.same.th, h.same.cm, h.same.sd, h.same.cs, h.same.can, h.same.vault, h.same.kv, h.same.mg, h.same.upd, .inl h_updN⟩, h.moraine⟩

theorem keeps_pins_met_bil {v_pins : Pins} {v_met : Met} {v_bil : Bil} (h_pins : A .pins) (h_met : A .met) (h_bil : A .bil) (h : Keeps A s t) :
    Keeps A s { t with pins := v_pins, met := v_met, bil := v_bil } :=
  ⟨h.canon, ⟨h.same.bits, h.same.capt, h.same.flash, h.same.out, h.same.evr, .inl h_pins, h.same.boot, h.same.fresh, h.same.pending, h.same.tb, h.same.keep, h.same.phx, h.same.grpx, h.same.auxx, h.same.le, h.same.ff, .inl h_met, h.same.conns, h.same.needs, h.same.lsw, h.same.saf, h.same.fab, h.same.sl, h.same.plc, h.same.roster, h.same.rstStamp, .inl h_bil, h.same.bilCom, h.same.tmp, h.same.th, h.same.cm, h.same.sd, h.same.cs, h.same.can, h.same.vault, h.same.kv, h.same.mg, h.same.upd, h.same.updN⟩, h.moraine⟩

theorem keeps_phx_bil {v_phx : List (Nat × PhX)} {v_bil : Bil} (h_phx : A .phx) (h_bil : A .bil) (h : Keeps A s t) :
    Keeps A s { t with phx := v_phx, bil := v_bil } :=
  ⟨h.canon, ⟨h.same.bits, h.same.capt, h.same.flash, h.same.out, h.same.evr, h.same.pins, h.same.boot, h.same.fresh, h.same.pending, h.same.tb, h.same.keep, .inl h_phx, h.same.grpx, h.same.auxx, h.same.le, h.same.ff, h.same.met, h.same.conns, h.same.needs, h.same.lsw, h.same.saf, h.same.fab, h.same.sl, h.same.plc, h.same.roster, h.same.rstStamp, .inl h_bil, h.same.bilCom, h.same.tmp, h.same.th, h.same.cm, h.same.sd, h.same.cs, h.same.can, h.same.vault, h.same.kv, h.same.mg, h.same.upd, h.same.updN⟩, h.moraine⟩

theorem keeps_lsw_saf {v_lsw : Lsw} {v_saf : Saf} (h_lsw : A .lsw) (h_saf : A .saf) (h : Keeps A s t) :
    Keeps A s { t with lsw := v_lsw, saf := v_saf } :=
  ⟨h.canon, ⟨h.same.bits, h.same.capt, h.same.flash, h.same.out, h.same.evr, h.same.pins, h.same.boot, h.same.fresh, h.same.pending, h.same.tb, h.same.keep, h.same.phx, h.same.grpx, h.same.auxx, h.same.le, h.same.ff, h.same.met, h.same.conns, h.same.needs, .inl h_lsw, .inl h_saf, h.same.fab, h.same.sl, h.same.plc, h.same.roster, h.same.rstStamp, h.same.bil, h.same.bilCom, h.same.tmp, h.same.th, h.same.cm, h.same.sd, h.same.cs, h.same.can, h.same.vault, h.same.kv, h.same.mg, h.same.upd, h.same.updN⟩, h.moraine⟩

theorem keeps_phx_plc_bil_cs {v_phx : List (Nat × PhX)} {v_plc : Plc} {v_bil : Bil} {v_cs : Cs} (h_phx : A .phx) (h_plc : A .plc) (h_bil : A .bil) (h_cs : A .cs) (h : Keeps A s t) :
    Keeps A s { t with phx := v_phx, plc := v_plc, bil := v_bil, cs := v_cs } :=
  ⟨h.canon, ⟨h.same.bits, h.same.capt, h.same.flash, h.same.out, h.same.evr, h.same.pins, h.same.boot, h.same.fresh, h.same.pending, h.same.tb, h.same.keep, .inl h_phx, h.same.grpx, h.same.auxx, h.same.le, h.same.ff, h.same.met, h.same.conns, h.same.needs, h.same.lsw, h.same.saf, h.same.fab, h.same.sl, .inl h_plc, h.same.roster, h.same.rstStamp, .inl h_bil, h.same.bilCom, h.same.tmp, h.same.th, h.same.cm, h.same.sd, .inl h_cs, h.same.can, h.same.vault, h.same.kv, h.same.mg, h.same.upd, h.same.updN⟩, h.moraine⟩

theorem keeps_pins_auxx_th {v_pins : Pins} {v_auxx : List (Nat × AuxX)} {v_th : Th} (h_pins : A .pins) (h_auxx : A .auxx) (h_th : A .th) (h : Keeps A s t) :
    Keeps A s { t with pins := v_pins, auxx := v_auxx, th := v_th } :=
  ⟨h.canon, ⟨h.same.bits, h.same.capt, h.same.flash, h.same.out, h.same.evr, .inl h_pins, h.same.boot, h.same.fresh, h.same.pending, h.same.tb, h.same.keep, h.same.phx, h.same.grpx, .inl h_auxx, h.same.le, h.same.ff, h.same.met, h.same.conns, h.same.needs, h.same.lsw, h.same.saf, h.same.fab, h.same.sl, h.same.plc, h.same.roster, h.same.rstStamp, h.same.bil, h.same.bilCom, h.same.tmp, .inl h_th, h.same.cm, h.same.sd, h.same.cs, h.same.can, h.same.vault, h.same.kv, h.same.mg, h.same.upd, h.same.updN⟩, h.moraine⟩

end Sys2Proof.Laws
end

