-- ==== Sys2Proof/Laws/KeepsOps.lean ====
section
/-! SUPPORT. What the operations of Machine/Ops.lean leave alone: for each the parts it may change (`touch…`) and its lemma. -/

namespace Sys2Proof.Laws

open Sys2Proof.Machine

set_option linter.unusedTactic false
set_option linter.unreachableTactic false
set_option linter.unusedVariables false
set_option linter.tactic.unusedName false

variable {A : Part → Prop} {s t : State}

def touchReqShow (A : Part → Prop) : Prop := A (.reg R.SYS_READY.REQ)
theorem touchReqShow_all (h : ∀ q, A q) : touchReqShow A := h _
theorem reqShow_keeps  (hA : touchReqShow A)  (h : Keeps A s t) : Keeps A s (State.reqShow t) := by
  unfold State.reqShow
  unfold touchReqShow at hA
  repeat' (first
    | with_reducible assumption
    | intro y
    | (with_reducible refine put_keepsAt (by assumption) ?_)
    | (with_reducible refine put_keeps (by assumption) ?_)
    | with_reducible apply keeps_ite
    | split)

def touchEmit (A : Part → Prop) : Prop := A .out
theorem touchEmit_all (h : ∀ q, A q) : touchEmit A := h _
theorem emit_keeps {k : Sys2Proof.Machine.Sent} {dst : ℕ} {data : List ℕ} (hA : touchEmit A)  (h : Keeps A s t) : Keeps A s (State.emit t k dst data) := by
  unfold State.emit
  unfold touchEmit at hA
  repeat' (first
    | with_reducible assumption
    | intro y
    | (extract_lets +onlyGivenNames x; first | (refine cut (P := Keeps A s x) ?_ ?_; (on_goal 1 => (unfold x; clear x)); (on_goal 2 => (intro hx; first | clear_value x | skip))) | clear_value x | skip)
    | with_reducible apply keeps_ite
    | split
    | with_reducible exact keeps_out (by assumption) (by assumption))

def touchReport (A : Part → Prop) : Prop := touchEmit A
theorem touchReport_all (h : ∀ q, A q) : touchReport A := touchEmit_all h
theorem report_keeps {sess : ℕ} {code : ℕ} (hA : touchReport A)  (h : Keeps A s t) : Keeps A s (State.report t sess code) := by
  unfold State.report
  unfold touchReport at hA
  repeat' (first
    | with_reducible assumption
    | intro y
    | (with_reducible apply emit_keeps (hA := by first | with_reducible assumption | with_reducible apply_assumption))
    | with_reducible apply keeps_ite
    | split)

def touchFree (A : Part → Prop) : Prop := A .fresh
theorem touchFree_all (h : ∀ q, A q) : touchFree A := h _
theorem free_keeps {w : ℕ} (hA : touchFree A)  (h : Keeps A s t) : Keeps A s (State.free t w).2 := by
  unfold State.free
  unfold touchFree at hA
  repeat' (first
    | with_reducible assumption
    | intro y
    | (extract_lets +onlyGivenNames x; first | (refine cut (P := Keeps A s x) ?_ ?_; (on_goal 1 => (unfold x; clear x)); (on_goal 2 => (intro hx; first | clear_value x | skip))) | clear_value x | skip)
    | with_reducible apply keeps_ite
    | with_reducible apply keeps_ite2
    | with_reducible apply keeps_ite3
    | split
    | with_reducible exact keeps_fresh (by assumption) (by assumption))

def touchArrive (A : Part → Prop) : Prop := A .evr ∧ A (.reg R.EVR_CNT.DROP)
theorem touchArrive_all (h : ∀ q, A q) : touchArrive A := ⟨h _, h _⟩
theorem arrive_keeps {r : Sys2Proof.Machine.Rec} (hA : touchArrive A)  (h : Keeps A s t) : Keeps A s (State.arrive t r) := by
  unfold State.arrive
  obtain ⟨_, _⟩ := hA
  repeat' (first
    | with_reducible assumption
    | intro y
    | (extract_lets +onlyGivenNames x; first | (refine cut (P := Keeps A s x) ?_ ?_; (on_goal 1 => (unfold x; clear x)); (on_goal 2 => (intro hx; first | clear_value x | skip))) | clear_value x | skip)
    | (with_reducible refine inc_keepsAt (by assumption) ?_)
    | (with_reducible refine inc_keeps (by assumption) ?_)
    | with_reducible apply keeps_ite
    | split
    | refine keeps_ite ?_ ?_
    | with_reducible exact keeps_evr (by assumption) (by first | exact List.prefix_rfl | exact List.prefix_append _ _ | exact intake_mor _ _ | exact hold78_mor _ _ | exact release_mor _) (by assumption))

def touchMoraineFill (A : Part → Prop) : Prop := A (.reg R.EVR_STAT.MOR_FULL) ∧ A (.reg R.EVR_STAT.MOR_RES) ∧ A (.reg R.EVR_STAT.MOR_N)
theorem touchMoraineFill_all (h : ∀ q, A q) : touchMoraineFill A := ⟨h _, h _, h _⟩
theorem moraineFill_keeps  (hA : touchMoraineFill A)  (h : Keeps A s t) : Keeps A s (State.moraineFill t) := by
  unfold State.moraineFill
  obtain ⟨_, _, _⟩ := hA
  repeat' (first
    | with_reducible assumption
    | intro y
    | (extract_lets +onlyGivenNames x; first | (refine cut (P := Keeps A s x) ?_ ?_; (on_goal 1 => (unfold x; clear x)); (on_goal 2 => (intro hx; first | clear_value x | skip))) | clear_value x | skip)
    | (with_reducible refine putb_keepsAt (by assumption) ?_)
    | (with_reducible refine putb_keeps (by assumption) ?_)
    | (with_reducible refine put_keepsAt (by assumption) ?_)
    | (with_reducible refine put_keeps (by assumption) ?_)
    | with_reducible apply keeps_ite
    | split
    | refine keeps_ite ?_ ?_)

def touchMoraineWarn (A : Part → Prop) : Prop := A .evr ∧ touchArrive A
theorem touchMoraineWarn_all (h : ∀ q, A q) : touchMoraineWarn A := ⟨h _, touchArrive_all h⟩
theorem moraineWarn_keeps  (hA : touchMoraineWarn A)  (h : Keeps A s t) : Keeps A s (State.moraineWarn t) := by
  unfold State.moraineWarn
  obtain ⟨_, _⟩ := hA
  repeat' (first
    | with_reducible assumption
    | intro y
    | (extract_lets +onlyGivenNames x; first | (refine cut (P := Keeps A s x) ?_ ?_; (on_goal 1 => (unfold x; clear x)); (on_goal 2 => (intro hx; first | clear_value x | skip))) | (unfold x; clear x) | clear_value x | skip)
    | (with_reducible apply arrive_keeps (hA := by first | with_reducible assumption | with_reducible apply_assumption))
    | with_reducible apply keeps_ite
    | split
    | refine keeps_ite ?_ ?_
    | with_reducible exact keeps_evr (by assumption) (by first | exact List.prefix_rfl | exact List.prefix_append _ _ | exact intake_mor _ _ | exact hold78_mor _ _ | exact release_mor _) (by assumption))

def touchMoraine (A : Part → Prop) : Prop := touchMoraineFill A ∧ A (.reg R.EVR_MOR_SEQ.SEQ) ∧ A .evr ∧ touchMoraineWarn A ∧ touchArrive A ∧ A (.reg R.EVR_MOR_LOST.LAST_CODE) ∧ A (.reg R.EVR_MOR_LOST.MOR_LOST)
theorem touchMoraine_all (h : ∀ q, A q) : touchMoraine A := ⟨touchMoraineFill_all h, h _, h _, touchMoraineWarn_all h, touchArrive_all h, h _, h _⟩
theorem moraine_keeps {r : Sys2Proof.Machine.Rec} (hA : touchMoraine A)  (h : Keeps A s t) : Keeps A s (State.moraine t r) := by
  unfold State.moraine
  obtain ⟨_, _, _, _, _, _, _⟩ := hA
  repeat' (first
    | with_reducible assumption
    | intro y
    | (extract_lets +onlyGivenNames x; first | (refine cut (P := Keeps A s x) ?_ ?_; (on_goal 1 => (unfold x; clear x)); (on_goal 2 => (intro hx; first | clear_value x | skip))) | (unfold x; clear x) | clear_value x | skip)
    | (with_reducible refine put_keepsAt (by assumption) ?_)
    | (with_reducible refine put_keeps (by assumption) ?_)
    | (with_reducible refine inc_keepsAt (by assumption) ?_)
    | (with_reducible refine inc_keeps (by assumption) ?_)
    | (with_reducible apply moraineFill_keeps (hA := by first | with_reducible assumption | with_reducible apply_assumption))
    | (with_reducible apply moraineWarn_keeps (hA := by first | with_reducible assumption | with_reducible apply_assumption))
    | (with_reducible apply arrive_keeps (hA := by first | with_reducible assumption | with_reducible apply_assumption))
    | with_reducible apply when_keeps
    | with_reducible apply keeps_ite
    | split
    | refine keeps_ite ?_ ?_
    | with_reducible exact keeps_evr (by assumption) (by first | exact List.prefix_rfl | exact List.prefix_append _ _ | exact intake_mor _ _ | exact hold78_mor _ _ | exact release_mor _) (by assumption))

def touchLogAt (A : Part → Prop) : Prop := touchMoraine A ∧ touchArrive A
theorem touchLogAt_all (h : ∀ q, A q) : touchLogAt A := ⟨touchMoraine_all h, touchArrive_all h⟩
theorem logAt_keeps {stamp : ℕ} {utc : ℕ} {code : ℕ} {sev : ℕ} {pay : List ℕ} (hA : touchLogAt A)  (h : Keeps A s t) : Keeps A s (State.logAt t stamp utc code sev pay) := by
  unfold State.logAt
  obtain ⟨_, _⟩ := hA
  repeat' (first
    | with_reducible assumption
    | intro y
    | (extract_lets +onlyGivenNames x; first | (refine cut (P := Keeps A s x) ?_ ?_; (on_goal 1 => (unfold x; clear x)); (on_goal 2 => (intro hx; first | clear_value x | skip))) | clear_value x | skip)
    | (with_reducible apply moraine_keeps (hA := by first | with_reducible assumption | with_reducible apply_assumption))
    | (with_reducible apply arrive_keeps (hA := by first | with_reducible assumption | with_reducible apply_assumption))
    | with_reducible apply keeps_ite
    | split
    | refine keeps_ite ?_ ?_)

def touchLog (A : Part → Prop) : Prop := touchLogAt A
theorem touchLog_all (h : ∀ q, A q) : touchLog A := touchLogAt_all h
theorem log_keeps {code : ℕ} {sev : ℕ} {pay : optParam (List ℕ) []} (hA : touchLog A)  (h : Keeps A s t) : Keeps A s (State.log t code sev pay) := by
  unfold State.log
  unfold touchLog at hA
  repeat' (first
    | with_reducible assumption
    | intro y
    | (with_reducible apply logAt_keeps (hA := by first | with_reducible assumption | with_reducible apply_assumption))
    | with_reducible apply keeps_ite
    | split)

def touchOpFill (A : Part → Prop) : Prop := A (.reg R.EVR_OP_FIRST.FIRST) ∧ A (.reg R.EVR_STAT.OP_N)
theorem touchOpFill_all (h : ∀ q, A q) : touchOpFill A := ⟨h _, h _⟩
theorem opFill_keeps  (hA : touchOpFill A)  (h : Keeps A s t) : Keeps A s (State.opFill t) := by
  unfold State.opFill
  obtain ⟨_, _⟩ := hA
  repeat' (first
    | with_reducible assumption
    | intro y
    | (extract_lets +onlyGivenNames x; first | (refine cut (P := Keeps A s x) ?_ ?_; (on_goal 1 => (unfold x; clear x)); (on_goal 2 => (intro hx; first | clear_value x | skip))) | clear_value x | skip)
    | (with_reducible refine put_keepsAt (by assumption) ?_)
    | (with_reducible refine put_keeps (by assumption) ?_)
    | with_reducible apply keeps_ite
    | split)

def touchStore1 (A : Part → Prop) : Prop := touchOpFill A ∧ A (.reg R.EVR_OP_SEQ.SEQ) ∧ A .evr ∧ A (.reg R.EVR_CNT.DISC)
theorem touchStore1_all (h : ∀ q, A q) : touchStore1 A := ⟨touchOpFill_all h, h _, h _, h _⟩
theorem store1_keeps {r : Sys2Proof.Machine.Rec} (hA : touchStore1 A)  (h : Keeps A s t) : Keeps A s (State.store1 t r) := by
  unfold State.store1
  obtain ⟨_, _, _, _⟩ := hA
  repeat' (first
    | with_reducible assumption
    | intro y
    | (extract_lets +onlyGivenNames x; first | (refine cut (P := Keeps A s x) ?_ ?_; (on_goal 1 => (unfold x; clear x)); (on_goal 2 => (intro hx; first | clear_value x | skip))) | (refine cut (P := ∀ y0, Keeps A s (x y0)) ?_ ?_; (on_goal 1 => (unfold x; clear x)); (on_goal 2 => (intro hf; first | clear_value x | skip))) | (unfold x; clear x) | clear_value x | skip)
    | (with_reducible refine put_keepsAt (by assumption) ?_)
    | (with_reducible refine put_keeps (by assumption) ?_)
    | (with_reducible refine inc_keepsAt (by assumption) ?_)
    | (with_reducible refine inc_keeps (by assumption) ?_)
    | (with_reducible apply opFill_keeps (hA := by first | with_reducible assumption | with_reducible apply_assumption))
    | with_reducible apply keeps_ite
    | with_reducible apply hf
    | with_reducible apply_assumption
    | split
    | refine keeps_ite ?_ ?_
    | with_reducible exact keeps_evr (by assumption) (by first | exact List.prefix_rfl | exact List.prefix_append _ _ | exact intake_mor _ _ | exact hold78_mor _ _ | exact release_mor _) (by assumption))

def touchStoreOp (A : Part → Prop) : Prop := touchStore1 A ∧ A .evr
theorem touchStoreOp_all (h : ∀ q, A q) : touchStoreOp A := ⟨touchStore1_all h, h _⟩
theorem storeOp_keeps {r : Sys2Proof.Machine.Rec} (hA : touchStoreOp A)  (h : Keeps A s t) : Keeps A s (State.storeOp t r) := by
  unfold State.storeOp
  obtain ⟨_, _⟩ := hA
  repeat' (first
    | with_reducible assumption
    | intro y
    | (extract_lets +onlyGivenNames x; first | (refine cut (P := Keeps A s x) ?_ ?_; (on_goal 1 => (unfold x; clear x)); (on_goal 2 => (intro hx; first | clear_value x | skip))) | (unfold x; clear x) | clear_value x | skip)
    | (with_reducible apply store1_keeps (hA := by first | with_reducible assumption | with_reducible apply_assumption))
    | with_reducible apply when_keeps
    | with_reducible apply keeps_ite
    | split
    | refine keeps_ite ?_ ?_
    | with_reducible exact keeps_evr (by assumption) (by first | exact List.prefix_rfl | exact List.prefix_append _ _ | exact intake_mor _ _ | exact hold78_mor _ _ | exact release_mor _) (by assumption))

def touchReleaseHold (A : Part → Prop) : Prop := A .evr ∧ touchArrive A ∧ touchLog A
theorem touchReleaseHold_all (h : ∀ q, A q) : touchReleaseHold A := ⟨h _, touchArrive_all h, touchLog_all h⟩
theorem releaseHold_keeps  (hA : touchReleaseHold A)  (h : Keeps A s t) : Keeps A s (State.releaseHold t) := by
  unfold State.releaseHold
  obtain ⟨_, _, _⟩ := hA
  repeat' (first
    | with_reducible assumption
    | intro y
    | (extract_lets +onlyGivenNames x; first | (refine cut (P := Keeps A s x) ?_ ?_; (on_goal 1 => (unfold x; clear x)); (on_goal 2 => (intro hx; first | clear_value x | skip))) | clear_value x | skip)
    | (with_reducible apply arrive_keeps (hA := by first | with_reducible assumption | with_reducible apply_assumption))
    | (with_reducible apply log_keeps (hA := by first | with_reducible assumption | with_reducible apply_assumption))
    | with_reducible apply when_keeps
    | with_reducible apply keeps_ite
    | with_reducible apply keeps_foldl
    | split
    | refine keeps_ite ?_ ?_
    | with_reducible exact keeps_evr (by assumption) (by first | exact List.prefix_rfl | exact List.prefix_append _ _ | exact intake_mor _ _ | exact hold78_mor _ _ | exact release_mor _) (by assumption))

def touchStoreAll (A : Part → Prop) : Prop := touchReleaseHold A ∧ touchStoreOp A ∧ A .evr
theorem touchStoreAll_all (h : ∀ q, A q) : touchStoreAll A := ⟨touchReleaseHold_all h, touchStoreOp_all h, h _⟩
theorem storeAll_keeps  (hA : touchStoreAll A)  (h : Keeps A s t) : Keeps A s (State.storeAll t) := by
  unfold State.storeAll
  obtain ⟨_, _, _⟩ := hA
  repeat' (first
    | with_reducible assumption
    | intro y
    | (extract_lets +onlyGivenNames x; first | (refine cut (P := Keeps A s x) ?_ ?_; (on_goal 1 => (unfold x; clear x)); (on_goal 2 => (intro hx; first | clear_value x | skip))) | (refine cut (P := ∀ y0 y1 y2, Keeps A s y0 → Keeps A s (x y0 y1 y2)) ?_ ?_; (on_goal 1 => (unfold x; clear x)); (on_goal 2 => (intro hf; first | clear_value x | skip))) | (unfold x; clear x) | clear_value x | skip)
    | (with_reducible apply releaseHold_keeps (hA := by first | with_reducible assumption | with_reducible apply_assumption))
    | (with_reducible apply storeOp_keeps (hA := by first | with_reducible assumption | with_reducible apply_assumption))
    | with_reducible apply when_keeps
    | with_reducible apply keeps_ite
    | with_reducible apply keeps_foldl
    | with_reducible apply hf
    | with_reducible apply_assumption
    | split
    | refine keeps_ite ?_ ?_
    | with_reducible exact keeps_evr (by assumption) (by first | exact List.prefix_rfl | exact List.prefix_append _ _ | exact intake_mor _ _ | exact hold78_mor _ _ | exact release_mor _) (by assumption))

def touchReserveRefused (A : Part → Prop) : Prop := touchLog A
theorem touchReserveRefused_all (h : ∀ q, A q) : touchReserveRefused A := touchLog_all h
theorem reserveRefused_keeps {addr : ℕ} (hA : touchReserveRefused A)  (h : Keeps A s t) : Keeps A s (State.reserveRefused t addr) := by
  unfold State.reserveRefused
  unfold touchReserveRefused at hA
  repeat' (first
    | with_reducible assumption
    | intro y
    | (with_reducible apply log_keeps (hA := by first | with_reducible assumption | with_reducible apply_assumption))
    | with_reducible apply keeps_ite
    | split)

def touchRetain (A : Part → Prop) : Prop := A .regs
theorem touchRetain_all (h : ∀ q, A q) : touchRetain A := h _
theorem retain_keeps {doms : ℕ} {keep : Sys2Proof.Machine.Cls → Bool} (hA : touchRetain A)  (h : Keeps A s t) : Keeps A s (State.retain t doms keep) := by
  unfold State.retain
  unfold touchRetain at hA
  repeat' (first
    | with_reducible assumption
    | intro y
    | (with_reducible refine keeps_setWord (by first | assumption | exact hA _) ?_)
    | with_reducible apply keeps_ite
    | with_reducible apply keeps_foldl
    | split)

def touchGuarded (A : Part → Prop) : Prop := touchReserveRefused A ∧ touchReport A
theorem touchGuarded_all (h : ∀ q, A q) : touchGuarded A := ⟨touchReserveRefused_all h, touchReport_all h⟩
theorem guarded_keeps {sess : ℕ} {f : Sys2Proof.Machine.Field} {g : Sys2Proof.Machine.State → Sys2Proof.Machine.State} {i : ℕ} (hA : touchGuarded A) (hg : ∀ y0, Keeps A s y0 → Keeps A s (g y0)) (h : Keeps A s t) : Keeps A s (State.guarded t sess f g i) := by
  unfold State.guarded
  obtain ⟨_, _⟩ := hA
  repeat' (first
    | with_reducible assumption
    | intro y
    | (extract_lets +onlyGivenNames x; first | (refine cut (P := Keeps A s x) ?_ ?_; (on_goal 1 => (unfold x; clear x)); (on_goal 2 => (intro hx; first | clear_value x | skip))) | clear_value x | skip)
    | (with_reducible apply reserveRefused_keeps (hA := by first | with_reducible assumption | with_reducible apply_assumption))
    | (with_reducible apply report_keeps (hA := by first | with_reducible assumption | with_reducible apply_assumption))
    | with_reducible apply keeps_ite
    | with_reducible apply hg
    | split)

def touchGatesLow (A : Part → Prop) : Prop := A .pins
theorem touchGatesLow_all (h : ∀ q, A q) : touchGatesLow A := h _
theorem gatesLow_keeps  (hA : touchGatesLow A)  (h : Keeps A s t) : Keeps A s (State.gatesLow t) := by
  unfold State.gatesLow
  unfold touchGatesLow at hA
  repeat' (first
    | with_reducible assumption
    | intro y
    | (extract_lets +onlyGivenNames x; first | (refine cut (P := Keeps A s x) ?_ ?_; (on_goal 1 => (unfold x; clear x)); (on_goal 2 => (intro hx; first | clear_value x | skip))) | clear_value x | skip)
    | with_reducible apply keeps_ite
    | split
    | with_reducible exact keeps_pins (by assumption) (by assumption))

def touchDrivesLow (A : Part → Prop) : Prop := A .pins
theorem touchDrivesLow_all (h : ∀ q, A q) : touchDrivesLow A := h _
theorem drivesLow_keeps  (hA : touchDrivesLow A)  (h : Keeps A s t) : Keeps A s (State.drivesLow t) := by
  unfold State.drivesLow
  unfold touchDrivesLow at hA
  repeat' (first
    | with_reducible assumption
    | intro y
    | (extract_lets +onlyGivenNames x; first | (refine cut (P := Keeps A s x) ?_ ?_; (on_goal 1 => (unfold x; clear x)); (on_goal 2 => (intro hx; first | clear_value x | skip))) | clear_value x | skip)
    | with_reducible apply keeps_ite
    | split
    | with_reducible exact keeps_pins (by assumption) (by assumption))

end Sys2Proof.Laws
end

