-- ==== Sys2Proof/Laws/KeepsPhaseOps.lean ====
section
/-! SUPPORT. What the operations of Machine/PhaseOps.lean leave alone: for each the parts it may change (`touch…`) and its lemma. -/

namespace Sys2Proof.Laws

open Sys2Proof.Machine

set_option linter.unusedTactic false
set_option linter.unreachableTactic false
set_option linter.unusedVariables false
set_option linter.tactic.unusedName false

variable {A : Part → Prop} {s t : State}

def touchSetPh (A : Part → Prop) : Prop := A .phx
theorem touchSetPh_all (h : ∀ q, A q) : touchSetPh A := h _
theorem setPh_keeps {n : ℕ} {x0 : Sys2Proof.Machine.PhX} (hA : touchSetPh A)  (h : Keeps A s t) : Keeps A s (State.setPh t n x0) := by
  unfold State.setPh
  unfold touchSetPh at hA
  repeat' (first
    | with_reducible assumption
    | intro y
    | (extract_lets +onlyGivenNames x; first | (refine cut (P := Keeps A s x) ?_ ?_; (on_goal 1 => (unfold x; clear x)); (on_goal 2 => (intro hx; first | clear_value x | skip))) | clear_value x | skip)
    | with_reducible apply keeps_ite
    | split
    | with_reducible exact keeps_phx (by assumption) (by assumption))

def touchSetGrp (A : Part → Prop) : Prop := A .grpx
theorem touchSetGrp_all (h : ∀ q, A q) : touchSetGrp A := h _
theorem setGrp_keeps {g : ℕ} {x0 : Sys2Proof.Machine.GrpX} (hA : touchSetGrp A)  (h : Keeps A s t) : Keeps A s (State.setGrp t g x0) := by
  unfold State.setGrp
  unfold touchSetGrp at hA
  repeat' (first
    | with_reducible assumption
    | intro y
    | (extract_lets +onlyGivenNames x; first | (refine cut (P := Keeps A s x) ?_ ?_; (on_goal 1 => (unfold x; clear x)); (on_goal 2 => (intro hx; first | clear_value x | skip))) | clear_value x | skip)
    | with_reducible apply keeps_ite
    | split
    | with_reducible exact keeps_grpx (by assumption) (by assumption))

def touchGden (A : Part → Prop) : Prop := A .pins
theorem touchGden_all (h : ∀ q, A q) : touchGden A := h _
theorem gden_keeps  (hA : touchGden A)  (h : Keeps A s t) : Keeps A s (State.gden t) := by
  unfold State.gden
  unfold touchGden at hA
  repeat' (first
    | with_reducible assumption
    | intro y
    | (extract_lets +onlyGivenNames x; first | (refine cut (P := Keeps A s x) ?_ ?_; (on_goal 1 => (unfold x; clear x)); (on_goal 2 => (intro hx; first | clear_value x | skip))) | (refine cut (P := ∀ y, Keeps A s y → Keeps A s (x y)) ?_ ?_; (on_goal 1 => (unfold x; clear x)); (on_goal 2 => (intro hf; first | clear_value x | skip))) | (refine cut (P := ∀ y, Keeps A s (x y)) ?_ ?_; (on_goal 1 => (unfold x; clear x)); (on_goal 2 => (intro hf; first | clear_value x | skip))) | (refine cut (P := ∀ y z, Keeps A s y → Keeps A s (x y z)) ?_ ?_; (on_goal 1 => (unfold x; clear x)); (on_goal 2 => (intro hf; first | clear_value x | skip))) | (refine cut (P := ∀ y z, Keeps A s z → Keeps A s (x y z)) ?_ ?_; (on_goal 1 => (unfold x; clear x)); (on_goal 2 => (intro hf; first | clear_value x | skip))) | (refine cut (P := ∀ y z w, Keeps A s y → Keeps A s (x y z w)) ?_ ?_; (on_goal 1 => (unfold x; clear x)); (on_goal 2 => (intro hf; first | clear_value x | skip))) | (refine cut (P := ∀ (d : Nat) (g : State → State) (y : State), (∀ z, Keeps A s z → Keeps A s (g z)) → Keeps A s y → Keeps A s (x d g y)) ?_ ?_; (on_goal 1 => (unfold x; clear x)); (on_goal 2 => (intro hf; first | clear_value x | skip))) | clear_value x | skip)
    | with_reducible apply keeps_ite
    | with_reducible apply hf
    | split
    | refine keeps_ite ?_ ?_
    | with_reducible exact keeps_pins (by assumption) (by assumption))

def touchPhaseState (A : Part → Prop) (n : Nat) : Prop := A (.inst R.PE_PH_STAT.STATE n 0) ∧ A (.reg R.PE_PH_ACT.ACT) ∧ A (.reg R.PE_PH_TRIP.TRIP) ∧ A (.reg R.PE_STAT.N_ACT_ALL)
theorem touchPhaseState_all (h : ∀ q, A q) {n : Nat} : touchPhaseState A n := ⟨h _, h _, h _, h _⟩
theorem phaseState_keeps {n : ℕ} {st : ℕ} (hA : touchPhaseState A n)  (h : Keeps A s t) : Keeps A s (State.phaseState t n st) := by
  unfold State.phaseState
  obtain ⟨_, _, _, _⟩ := hA
  repeat' (first
    | with_reducible assumption
    | intro y
    | (extract_lets +onlyGivenNames x; first | (refine cut (P := Keeps A s x) ?_ ?_; (on_goal 1 => (unfold x; clear x)); (on_goal 2 => (intro hx; first | clear_value x | skip))) | (refine cut (P := ∀ y, Keeps A s y → Keeps A s (x y)) ?_ ?_; (on_goal 1 => (unfold x; clear x)); (on_goal 2 => (intro hf; first | clear_value x | skip))) | (refine cut (P := ∀ y, Keeps A s (x y)) ?_ ?_; (on_goal 1 => (unfold x; clear x)); (on_goal 2 => (intro hf; first | clear_value x | skip))) | (refine cut (P := ∀ y z, Keeps A s y → Keeps A s (x y z)) ?_ ?_; (on_goal 1 => (unfold x; clear x)); (on_goal 2 => (intro hf; first | clear_value x | skip))) | (refine cut (P := ∀ y z, Keeps A s z → Keeps A s (x y z)) ?_ ?_; (on_goal 1 => (unfold x; clear x)); (on_goal 2 => (intro hf; first | clear_value x | skip))) | (refine cut (P := ∀ y z w, Keeps A s y → Keeps A s (x y z w)) ?_ ?_; (on_goal 1 => (unfold x; clear x)); (on_goal 2 => (intro hf; first | clear_value x | skip))) | (refine cut (P := ∀ (d : Nat) (g : State → State) (y : State), (∀ z, Keeps A s z → Keeps A s (g z)) → Keeps A s y → Keeps A s (x d g y)) ?_ ?_; (on_goal 1 => (unfold x; clear x)); (on_goal 2 => (intro hf; first | clear_value x | skip))) | clear_value x | skip)
    | (with_reducible refine put_keepsAt (by assumption) ?_)
    | (with_reducible refine put_keeps (by assumption) ?_)
    | with_reducible apply keeps_ite
    | with_reducible apply hf
    | split
    | refine keeps_ite ?_ ?_)

def touchPhaseGatesLow (A : Part → Prop) : Prop := A .pins
theorem touchPhaseGatesLow_all (h : ∀ q, A q) : touchPhaseGatesLow A := h _
theorem phaseGatesLow_keeps {n : ℕ} (hA : touchPhaseGatesLow A)  (h : Keeps A s t) : Keeps A s (State.phaseGatesLow t n) := by
  unfold State.phaseGatesLow
  unfold touchPhaseGatesLow at hA
  repeat' (first
    | with_reducible assumption
    | intro y
    | (extract_lets +onlyGivenNames x; first | (refine cut (P := Keeps A s x) ?_ ?_; (on_goal 1 => (unfold x; clear x)); (on_goal 2 => (intro hx; first | clear_value x | skip))) | clear_value x | skip)
    | with_reducible apply keeps_ite
    | split
    | with_reducible exact keeps_pins (by assumption) (by assumption))

def touchGroupGatesLow (A : Part → Prop) : Prop := touchPhaseGatesLow A
theorem touchGroupGatesLow_all (h : ∀ q, A q) : touchGroupGatesLow A := touchPhaseGatesLow_all h
theorem groupGatesLow_keeps {g : ℕ} (hA : touchGroupGatesLow A)  (h : Keeps A s t) : Keeps A s (State.groupGatesLow t g) := by
  unfold State.groupGatesLow
  unfold touchGroupGatesLow at hA
  repeat' (first
    | with_reducible assumption
    | intro y
    | (with_reducible apply phaseGatesLow_keeps (hA := by first | with_reducible assumption | with_reducible apply_assumption))
    | with_reducible apply keeps_ite
    | with_reducible apply keeps_foldl
    | split)

def touchGroupRest (A : Part → Prop) (g : Nat) : Prop := touchSetGrp A ∧ A .tb ∧ A (.inst R.PE_GRP_STAT.LIMITING g 0) ∧ A (.inst R.PE_GRP_STAT.OVS_STATE g 0)
theorem touchGroupRest_all (h : ∀ q, A q) {g : Nat} : touchGroupRest A g := ⟨touchSetGrp_all h, h _, h _, h _⟩
theorem groupRest_keeps {g : ℕ} (hA : touchGroupRest A g)  (h : Keeps A s t) : Keeps A s (State.groupRest t g) := by
  unfold State.groupRest
  obtain ⟨_, _, _, _⟩ := hA
  repeat' (first
    | with_reducible assumption
    | intro y
    | (extract_lets +onlyGivenNames x; first | (refine cut (P := Keeps A s x) ?_ ?_; (on_goal 1 => (unfold x; clear x)); (on_goal 2 => (intro hx; first | clear_value x | skip))) | clear_value x | skip)
    | (with_reducible refine put_keepsAt (by assumption) ?_)
    | (with_reducible refine put_keeps (by assumption) ?_)
    | (with_reducible apply setGrp_keeps (hA := by first | with_reducible assumption | with_reducible apply_assumption))
    | with_reducible apply keeps_ite
    | split
    | refine keeps_ite ?_ ?_
    | with_reducible exact keeps_tb (by assumption) (by assumption))

def touchGroupState (A : Part → Prop) (g : Nat) : Prop := A (.inst R.PE_GRP_STAT.STATE g 0) ∧ A (.reg R.PE_STAT.GRP_RUN) ∧ A (.reg R.PE_STAT.GRP_FAULT) ∧ touchGroupRest A g
theorem touchGroupState_all (h : ∀ q, A q) {g : Nat} : touchGroupState A g := ⟨h _, h _, h _, touchGroupRest_all h⟩
theorem groupState_keeps {g : ℕ} {st : ℕ} (hA : touchGroupState A g)  (h : Keeps A s t) : Keeps A s (State.groupState t g st) := by
  unfold State.groupState
  obtain ⟨_, _, _, _⟩ := hA
  repeat' (first
    | with_reducible assumption
    | intro y
    | (extract_lets +onlyGivenNames x; first | (refine cut (P := Keeps A s x) ?_ ?_; (on_goal 1 => (unfold x; clear x)); (on_goal 2 => (intro hx; first | clear_value x | skip))) | clear_value x | skip)
    | (with_reducible refine put_keepsAt (by assumption) ?_)
    | (with_reducible refine put_keeps (by assumption) ?_)
    | (with_reducible apply groupRest_keeps (hA := by first | with_reducible assumption | with_reducible apply_assumption))
    | with_reducible apply keeps_ite
    | split
    | refine keeps_ite ?_ ?_)

def touchGroupCfg (A : Part → Prop) (g : Nat) : Prop := A (.inst R.PE_GRP_STAT.N_CFG g 0)
theorem touchGroupCfg_all (h : ∀ q, A q) {g : Nat} : touchGroupCfg A g := h _
theorem groupCfg_keeps {g : ℕ} (hA : touchGroupCfg A g)  (h : Keeps A s t) : Keeps A s (State.groupCfg t g) := by
  unfold State.groupCfg
  unfold touchGroupCfg at hA
  repeat' (first
    | with_reducible assumption
    | intro y
    | (with_reducible refine put_keepsAt (by assumption) ?_)
    | (with_reducible refine put_keeps (by assumption) ?_)
    | with_reducible apply keeps_ite
    | split)

def touchPhaseOff (A : Part → Prop) (n : Nat) : Prop := A (.inst R.PE_PH_CFG.EN n 0) ∧ touchPhaseState A n ∧ touchPhaseGatesLow A
theorem touchPhaseOff_all (h : ∀ q, A q) {n : Nat} : touchPhaseOff A n := ⟨h _, touchPhaseState_all h, touchPhaseGatesLow_all h⟩
theorem phaseOff_keeps {n : ℕ} (hA : touchPhaseOff A n)  (h : Keeps A s t) : Keeps A s (State.phaseOff t n) := by
  unfold State.phaseOff
  obtain ⟨_, _, _⟩ := hA
  repeat' (first
    | with_reducible assumption
    | intro y
    | (with_reducible refine put_keepsAt (by assumption) ?_)
    | (with_reducible refine put_keeps (by assumption) ?_)
    | (with_reducible apply phaseState_keeps (hA := by first | with_reducible assumption | with_reducible apply_assumption))
    | (with_reducible apply phaseGatesLow_keeps (hA := by first | with_reducible assumption | with_reducible apply_assumption))
    | with_reducible apply keeps_ite
    | split)

def touchPhaseStop (A : Part → Prop) (n : Nat) : Prop := touchSetPh A ∧ touchPhaseOff A n
theorem touchPhaseStop_all (h : ∀ q, A q) {n : Nat} : touchPhaseStop A n := ⟨touchSetPh_all h, touchPhaseOff_all h⟩
theorem phaseStop_keeps {n : ℕ} (hA : touchPhaseStop A n)  (h : Keeps A s t) : Keeps A s (State.phaseStop t n) := by
  unfold State.phaseStop
  obtain ⟨_, _⟩ := hA
  repeat' (first
    | with_reducible assumption
    | intro y
    | (extract_lets +onlyGivenNames x; first | (refine cut (P := Keeps A s x) ?_ ?_; (on_goal 1 => (unfold x; clear x)); (on_goal 2 => (intro hx; first | clear_value x | skip))) | clear_value x | skip)
    | (with_reducible apply setPh_keeps (hA := by first | with_reducible assumption | with_reducible apply_assumption))
    | (with_reducible apply phaseOff_keeps (hA := by first | with_reducible assumption | with_reducible apply_assumption))
    | with_reducible apply keeps_ite
    | split
    | refine keeps_ite ?_ ?_)

def touchGroupStop (A : Part → Prop) (g : Nat) : Prop := touchLog A ∧ touchGroupCfg A g ∧ touchGroupState A g ∧ A (.inst R.PE_GRP_CTRL.EN g 0) ∧ (∀ x0, touchPhaseStop A x0)
theorem touchGroupStop_all (h : ∀ q, A q) {g : Nat} : touchGroupStop A g := ⟨touchLog_all h, touchGroupCfg_all h, touchGroupState_all h, h _, (fun _ => touchPhaseStop_all h)⟩
theorem groupStop_keeps {g : ℕ} (hA : touchGroupStop A g)  (h : Keeps A s t) : Keeps A s (State.groupStop t g) := by
  unfold State.groupStop
  obtain ⟨_, _, _, _, _⟩ := hA
  repeat' (first
    | with_reducible assumption
    | intro y
    | (extract_lets +onlyGivenNames x; first | (refine cut (P := Keeps A s x) ?_ ?_; (on_goal 1 => (unfold x; clear x)); (on_goal 2 => (intro hx; first | clear_value x | skip))) | clear_value x | skip)
    | (with_reducible refine put_keepsAt (by assumption) ?_)
    | (with_reducible refine put_keeps (by assumption) ?_)
    | (with_reducible apply log_keeps (hA := by first | with_reducible assumption | with_reducible apply_assumption))
    | (with_reducible apply groupCfg_keeps (hA := by first | with_reducible assumption | with_reducible apply_assumption))
    | (with_reducible apply groupState_keeps (hA := by first | with_reducible assumption | with_reducible apply_assumption))
    | (with_reducible apply phaseStop_keeps (hA := by first | with_reducible assumption | with_reducible apply_assumption))
    | with_reducible apply keeps_ite
    | with_reducible apply keeps_foldl
    | split
    | refine keeps_ite ?_ ?_)

def touchStopPhases (A : Part → Prop) : Prop := (∀ x0, touchGroupStop A x0) ∧ (∀ x0, touchPhaseStop A x0) ∧ touchGatesLow A ∧ (∀ x0, touchGroupCfg A x0)
theorem touchStopPhases_all (h : ∀ q, A q) : touchStopPhases A := ⟨(fun _ => touchGroupStop_all h), (fun _ => touchPhaseStop_all h), touchGatesLow_all h, (fun _ => touchGroupCfg_all h)⟩
theorem stopPhases_keeps  (hA : touchStopPhases A)  (h : Keeps A s t) : Keeps A s (State.stopPhases t) := by
  unfold State.stopPhases
  obtain ⟨_, _, _, _⟩ := hA
  repeat' (first
    | with_reducible assumption
    | intro y
    | (extract_lets +onlyGivenNames x; first | (refine cut (P := Keeps A s x) ?_ ?_; (on_goal 1 => (unfold x; clear x)); (on_goal 2 => (intro hx; first | clear_value x | skip))) | clear_value x | skip)
    | (with_reducible apply groupStop_keeps (hA := by first | with_reducible assumption | with_reducible apply_assumption))
    | (with_reducible apply phaseStop_keeps (hA := by first | with_reducible assumption | with_reducible apply_assumption))
    | (with_reducible apply gatesLow_keeps (hA := by first | with_reducible assumption | with_reducible apply_assumption))
    | (with_reducible apply groupCfg_keeps (hA := by first | with_reducible assumption | with_reducible apply_assumption))
    | with_reducible apply each_keeps
    | with_reducible apply keeps_ite
    | split
    | refine keeps_ite ?_ ?_)

def touchGroupsIdle (A : Part → Prop) : Prop := (∀ x0, touchGroupState A x0) ∧ A (.reg R.PE_GRP_CTRL.EN)
theorem touchGroupsIdle_all (h : ∀ q, A q) : touchGroupsIdle A := ⟨(fun _ => touchGroupState_all h), h _⟩
theorem groupsIdle_keeps  (hA : touchGroupsIdle A)  (h : Keeps A s t) : Keeps A s (State.groupsIdle t) := by
  unfold State.groupsIdle
  obtain ⟨_, _⟩ := hA
  repeat' (first
    | with_reducible assumption
    | intro y
    | (extract_lets +onlyGivenNames x; first | (refine cut (P := Keeps A s x) ?_ ?_; (on_goal 1 => (unfold x; clear x)); (on_goal 2 => (intro hx; first | clear_value x | skip))) | clear_value x | skip)
    | (with_reducible refine put_keepsAt (by assumption) ?_)
    | (with_reducible refine put_keeps (by assumption) ?_)
    | (with_reducible apply groupState_keeps (hA := by first | with_reducible assumption | with_reducible apply_assumption))
    | with_reducible apply each_keeps
    | with_reducible apply keeps_ite
    | split
    | refine keeps_ite ?_ ?_)

def touchGroupFault (A : Part → Prop) (g : Nat) : Prop := touchGroupGatesLow A ∧ (∀ x0, touchPhaseState A x0) ∧ touchLog A ∧ A (.inst R.PE_GRP_STAT.FLT_CAUSE g 0) ∧ touchGroupState A g
theorem touchGroupFault_all (h : ∀ q, A q) {g : Nat} : touchGroupFault A g := ⟨touchGroupGatesLow_all h, fun _ => touchPhaseState_all h, touchLog_all h, h _, touchGroupState_all h⟩
theorem groupFault_keeps {g : ℕ} {cause : ℕ} (hA : touchGroupFault A g)  (h : Keeps A s t) : Keeps A s (State.groupFault t g cause) := by
  unfold State.groupFault
  obtain ⟨_, _, _, _, _⟩ := hA
  repeat' (first
    | with_reducible assumption
    | intro y
    | (extract_lets +onlyGivenNames x; first | (refine cut (P := Keeps A s x) ?_ ?_; (on_goal 1 => (unfold x; clear x)); (on_goal 2 => (intro hx; first | clear_value x | skip))) | clear_value x | skip)
    | (with_reducible apply groupGatesLow_keeps (hA := by first | with_reducible assumption | with_reducible apply_assumption))
    | (with_reducible apply phaseState_keeps (hA := by first | with_reducible assumption | with_reducible apply_assumption))
    | (with_reducible apply log_keeps (hA := by first | with_reducible assumption | with_reducible apply_assumption))
    | (with_reducible refine put_keepsAt (by assumption) ?_)
    | (with_reducible refine put_keeps (by assumption) ?_)
    | (with_reducible apply groupState_keeps (hA := by first | with_reducible assumption | with_reducible apply_assumption))
    | with_reducible apply keeps_ite
    | with_reducible apply keeps_foldl
    | split
    | refine keeps_ite ?_ ?_)

def touchGroupChanged (A : Part → Prop) : Prop := touchSetGrp A
theorem touchGroupChanged_all (h : ∀ q, A q) : touchGroupChanged A := touchSetGrp_all h
theorem groupChanged_keeps {g : ℕ} {loss : Bool} (hA : touchGroupChanged A)  (h : Keeps A s t) : Keeps A s (State.groupChanged t g loss) := by
  unfold State.groupChanged
  unfold touchGroupChanged at hA
  repeat' (first
    | with_reducible assumption
    | intro y
    | (extract_lets +onlyGivenNames x; first | (refine cut (P := Keeps A s x) ?_ ?_; (on_goal 1 => (unfold x; clear x)); (on_goal 2 => (intro hx; first | clear_value x | skip))) | clear_value x | skip)
    | (with_reducible apply setGrp_keeps (hA := by first | with_reducible assumption | with_reducible apply_assumption))
    | with_reducible apply keeps_ite
    | split)

def touchPhaseTrip (A : Part → Prop) (n : Nat) : Prop := A (.inst R.PE_PH_CNT.TRIPS n 0) ∧ A (.inst R.PE_PH_STAT.FLT_CODE n 0) ∧ touchPhaseState A n ∧ touchPhaseGatesLow A ∧ touchLog A ∧ touchGroupChanged A ∧ A (.reg R.PE_GRP_STAT.PHLOSS_SEEN)
theorem touchPhaseTrip_all (h : ∀ q, A q) {n : Nat} : touchPhaseTrip A n := ⟨h _, h _, touchPhaseState_all h, touchPhaseGatesLow_all h, touchLog_all h, touchGroupChanged_all h, h _⟩
theorem phaseTrip_keeps {n : ℕ} {code : ℕ} (hA : touchPhaseTrip A n)  (h : Keeps A s t) : Keeps A s (State.phaseTrip t n code) := by
  unfold State.phaseTrip
  obtain ⟨_, _, _, _, _, _, _⟩ := hA
  repeat' (first
    | with_reducible assumption
    | intro y
    | (extract_lets +onlyGivenNames x; first | (refine cut (P := Keeps A s x) ?_ ?_; (on_goal 1 => (unfold x; clear x)); (on_goal 2 => (intro hx; first | clear_value x | skip))) | clear_value x | skip)
    | (with_reducible refine inc_keepsAt (by assumption) ?_)
    | (with_reducible refine inc_keeps (by assumption) ?_)
    | (with_reducible refine put_keepsAt (by assumption) ?_)
    | (with_reducible refine put_keeps (by assumption) ?_)
    | (with_reducible apply phaseState_keeps (hA := by first | with_reducible assumption | with_reducible apply_assumption))
    | (with_reducible apply phaseGatesLow_keeps (hA := by first | with_reducible assumption | with_reducible apply_assumption))
    | (with_reducible apply log_keeps (hA := by first | with_reducible assumption | with_reducible apply_assumption))
    | (with_reducible apply groupChanged_keeps (hA := by first | with_reducible assumption | with_reducible apply_assumption))
    | with_reducible apply keeps_ite
    | split
    | refine keeps_ite ?_ ?_)

def touchChecksClear (A : Part → Prop) : Prop := touchSetPh A
theorem touchChecksClear_all (h : ∀ q, A q) : touchChecksClear A := touchSetPh_all h
theorem checksClear_keeps {g : ℕ} (hA : touchChecksClear A)  (h : Keeps A s t) : Keeps A s (State.checksClear t g) := by
  unfold State.checksClear
  unfold touchChecksClear at hA
  repeat' (first
    | with_reducible assumption
    | intro y
    | (extract_lets +onlyGivenNames x; first | (refine cut (P := Keeps A s x) ?_ ?_; (on_goal 1 => (unfold x; clear x)); (on_goal 2 => (intro hx; first | clear_value x | skip))) | clear_value x | skip)
    | (with_reducible apply setPh_keeps (hA := by first | with_reducible assumption | with_reducible apply_assumption))
    | with_reducible apply keeps_ite
    | with_reducible apply keeps_foldl
    | split
    | refine keeps_ite ?_ ?_)

def touchFloorShow (A : Part → Prop) : Prop := A (.reg R.SL_FLOOR.FLOOR)
theorem touchFloorShow_all (h : ∀ q, A q) : touchFloorShow A := h _
theorem floorShow_keeps  (hA : touchFloorShow A)  (h : Keeps A s t) : Keeps A s (State.floorShow t) := by
  unfold State.floorShow
  unfold touchFloorShow at hA
  repeat' (first
    | with_reducible assumption
    | intro y
    | (extract_lets +onlyGivenNames x; first | (refine cut (P := Keeps A s x) ?_ ?_; (on_goal 1 => (unfold x; clear x)); (on_goal 2 => (intro hx; first | clear_value x | skip))) | clear_value x | skip)
    | (with_reducible refine putMax_keepsAt (by assumption) ?_)
    | (with_reducible refine putMax_keeps (by assumption) ?_)
    | with_reducible apply keeps_ite
    | with_reducible apply keeps_foldl
    | split
    | refine keeps_ite ?_ ?_)

def touchSlSync (A : Part → Prop) : Prop := A (.reg R.SL_STAT.LAPSED) ∧ A (.reg R.SL_LEASE.EXP_HC) ∧ A (.reg R.SL_LEASE.LEASE)
theorem touchSlSync_all (h : ∀ q, A q) : touchSlSync A := ⟨h _, h _, h _⟩
theorem slSync_keeps  (hA : touchSlSync A)  (h : Keeps A s t) : Keeps A s (State.slSync t) := by
  unfold State.slSync
  obtain ⟨_, _, _⟩ := hA
  repeat' (first
    | with_reducible assumption
    | intro y
    | (extract_lets +onlyGivenNames x; first | (refine cut (P := Keeps A s x) ?_ ?_; (on_goal 1 => (unfold x; clear x)); (on_goal 2 => (intro hx; first | clear_value x | skip))) | clear_value x | skip)
    | (with_reducible refine putb_keepsAt (by assumption) ?_)
    | (with_reducible refine putb_keeps (by assumption) ?_)
    | (with_reducible refine put_keepsAt (by assumption) ?_)
    | (with_reducible refine put_keeps (by assumption) ?_)
    | with_reducible apply keeps_ite
    | with_reducible apply keeps_foldl
    | split
    | refine keeps_ite ?_ ?_)

def touchLeaseWrite (A : Part → Prop) (g : Nat) : Prop := A (.inst R.PE_GRP_LEASE.LAPSED g 0) ∧ A (.inst R.PE_GRP_LEASE.EXP_HC g 0) ∧ A (.inst R.PE_GRP_LEASE.P_LEASE g 0)
theorem touchLeaseWrite_all (h : ∀ q, A q) {g : Nat} : touchLeaseWrite A g := ⟨h _, h _, h _⟩
theorem leaseWrite_keeps {g : ℕ} {kw : ℕ} {hc : ℕ} (hA : touchLeaseWrite A g)  (h : Keeps A s t) : Keeps A s (State.leaseWrite t g kw hc) := by
  unfold State.leaseWrite
  obtain ⟨_, _, _⟩ := hA
  repeat' (first
    | with_reducible assumption
    | intro y
    | (with_reducible refine put_keepsAt (by assumption) ?_)
    | (with_reducible refine put_keeps (by assumption) ?_)
    | with_reducible apply keeps_ite
    | split)

def touchLeasesLapse (A : Part → Prop) : Prop := touchSlSync A ∧ A (.reg R.PE_GRP_LEASE.LAPSED) ∧ A (.reg R.PE_GRP_LEASE.EXP_HC)
theorem touchLeasesLapse_all (h : ∀ q, A q) : touchLeasesLapse A := ⟨touchSlSync_all h, h _, h _⟩
theorem leasesLapse_keeps  (hA : touchLeasesLapse A)  (h : Keeps A s t) : Keeps A s (State.leasesLapse t) := by
  unfold State.leasesLapse
  obtain ⟨_, _, _⟩ := hA
  repeat' (first
    | with_reducible assumption
    | intro y
    | (with_reducible apply slSync_keeps (hA := by first | with_reducible assumption | with_reducible apply_assumption))
    | with_reducible apply each_keeps
    | (with_reducible refine put_keepsAt (by assumption) ?_)
    | (with_reducible refine put_keeps (by assumption) ?_)
    | with_reducible apply keeps_ite
    | split)

end Sys2Proof.Laws
end

