-- ==== Sys2Proof/Laws/KeepsLoopOps.lean ====
section
/-! SUPPORT. What the operations of Machine/LoopOps.lean leave alone: for each the parts it may change (`touch…`) and its lemma. -/

namespace Sys2Proof.Laws

open Sys2Proof.Machine

set_option linter.unusedTactic false
set_option linter.unreachableTactic false
set_option linter.unusedVariables false
set_option linter.tactic.unusedName false

variable {A : Part → Prop} {s t : State}

theorem putf_keeps {f : Machine.Field} {w : Word} {i j : Nat} (hA : A (.reg f)) (h : Keeps A s t) : Keeps A s (t.putf f w i j) := put_keeps hA h

theorem putf_keepsAt {f : Machine.Field} {w : Word} {i j : Nat} (hA : A (.inst f i j)) (h : Keeps A s t) : Keeps A s (t.putf f w i j) :=
  put_keepsAt hA h

def touchSetLx (A : Part → Prop) : Prop := A .le
theorem touchSetLx_all (h : ∀ q, A q) : touchSetLx A := h _
theorem setLx_keeps {l : ℕ} {x0 : Sys2Proof.Machine.LoopX} (hA : touchSetLx A)  (h : Keeps A s t) : Keeps A s (State.setLx t l x0) := by
  unfold State.setLx
  unfold touchSetLx at hA
  repeat' (first
    | with_reducible assumption
    | intro y
    | (extract_lets +onlyGivenNames x; first | (refine cut (P := Keeps A s x) ?_ ?_; (on_goal 1 => (unfold x; clear x)); (on_goal 2 => (intro hx; first | clear_value x | skip))) | clear_value x | skip)
    | with_reducible apply keeps_ite
    | split
    | with_reducible exact keeps_le (by assumption) (by assumption))

def touchSetInjx (A : Part → Prop) : Prop := A .le
theorem touchSetInjx_all (h : ∀ q, A q) : touchSetInjx A := h _
theorem setInjx_keeps {j : ℕ} {x0 : Sys2Proof.Machine.InjX} (hA : touchSetInjx A)  (h : Keeps A s t) : Keeps A s (State.setInjx t j x0) := by
  unfold State.setInjx
  unfold touchSetInjx at hA
  repeat' (first
    | with_reducible assumption
    | intro y
    | (extract_lets +onlyGivenNames x; first | (refine cut (P := Keeps A s x) ?_ ?_; (on_goal 1 => (unfold x; clear x)); (on_goal 2 => (intro hx; first | clear_value x | skip))) | clear_value x | skip)
    | with_reducible apply keeps_ite
    | split
    | with_reducible exact keeps_le (by assumption) (by assumption))

def touchSetAux (A : Part → Prop) : Prop := A .auxx
theorem touchSetAux_all (h : ∀ q, A q) : touchSetAux A := h _
theorem setAux_keeps {a : ℕ} {x0 : Sys2Proof.Machine.AuxX} (hA : touchSetAux A)  (h : Keeps A s t) : Keeps A s (State.setAux t a x0) := by
  unfold State.setAux
  unfold touchSetAux at hA
  repeat' (first
    | with_reducible assumption
    | intro y
    | (extract_lets +onlyGivenNames x; first | (refine cut (P := Keeps A s x) ?_ ?_; (on_goal 1 => (unfold x; clear x)); (on_goal 2 => (intro hx; first | clear_value x | skip))) | clear_value x | skip)
    | with_reducible apply keeps_ite
    | split
    | with_reducible exact keeps_auxx (by assumption) (by assumption))

def touchAuxLeave (A : Part → Prop) (a : Nat) : Prop := touchSetAux A ∧ A (.inst R.PWR_AUX_STAT.MODE a 0)
theorem touchAuxLeave_all (h : ∀ q, A q) {a : Nat} : touchAuxLeave A a := ⟨touchSetAux_all h, h _⟩
theorem auxLeave_keeps {a : ℕ} (hA : touchAuxLeave A a)  (h : Keeps A s t) : Keeps A s (State.auxLeave t a) := by
  unfold State.auxLeave
  obtain ⟨_, _⟩ := hA
  repeat' (first
    | with_reducible assumption
    | intro y
    | (extract_lets +onlyGivenNames x; first | (refine cut (P := Keeps A s x) ?_ ?_; (on_goal 1 => (unfold x; clear x)); (on_goal 2 => (intro hx; first | clear_value x | skip))) | clear_value x | skip)
    | (with_reducible refine put_keepsAt (by assumption) ?_)
    | (with_reducible refine put_keeps (by assumption) ?_)
    | (with_reducible apply setAux_keeps (hA := by first | with_reducible assumption | with_reducible apply_assumption))
    | with_reducible apply keeps_ite
    | split
    | refine keeps_ite ?_ ?_)

def touchAuxJoin (A : Part → Prop) (a : Nat) : Prop := A (.inst R.PWR_AUX_STAT.MODE a 0)
theorem touchAuxJoin_all (h : ∀ q, A q) {a : Nat} : touchAuxJoin A a := h _
theorem auxJoin_keeps {a : ℕ} (hA : touchAuxJoin A a)  (h : Keeps A s t) : Keeps A s (State.auxJoin t a) := by
  unfold State.auxJoin
  unfold touchAuxJoin at hA
  repeat' (first
    | with_reducible assumption
    | intro y
    | (extract_lets +onlyGivenNames x; first | (refine cut (P := Keeps A s x) ?_ ?_; (on_goal 1 => (unfold x; clear x)); (on_goal 2 => (intro hx; first | clear_value x | skip))) | clear_value x | skip)
    | (with_reducible refine put_keepsAt (by assumption) ?_)
    | (with_reducible refine put_keeps (by assumption) ?_)
    | with_reducible apply keeps_ite
    | split
    | refine keeps_ite ?_ ?_)

def touchAuxOf (A : Part → Prop) : Prop := True
theorem touchAuxOf_all (h : ∀ q, A q) : touchAuxOf A := trivial
theorem auxOf_keeps {l : ℕ} {g : ℕ → State → State} (hA : touchAuxOf A) (hg : ∀ a z, Keeps A s z → Keeps A s (g a z))
    (h : Keeps A s t) : Keeps A s (State.auxOf t l g) := by
  refine each_keeps (fun a z hz => ?_) h
  split
  · exact hg a z hz
  · exact hz

def touchLswFraction (A : Part → Prop) (n : Nat) : Prop := A (.inst R.LSW_CH_STAT.FRAC n 0) ∧ A .lsw
theorem touchLswFraction_all (h : ∀ q, A q) {n : Nat} : touchLswFraction A n := ⟨h _, h _⟩
theorem lswFraction_keeps {n : ℕ} {u0 : Sys2Proof.Word} (hA : touchLswFraction A n)  (h : Keeps A s t) : Keeps A s (State.lswFraction t n u0) := by
  unfold State.lswFraction
  obtain ⟨_, _⟩ := hA
  repeat' (first
    | with_reducible assumption
    | intro y
    | (extract_lets +onlyGivenNames x; first | (refine cut (P := Keeps A s x) ?_ ?_; (on_goal 1 => (unfold x; clear x)); (on_goal 2 => (intro hx; first | clear_value x | skip))) | clear_value x | skip)
    | (with_reducible refine put_keepsAt (by assumption) ?_)
    | (with_reducible refine put_keeps (by assumption) ?_)
    | with_reducible apply keeps_ite
    | split
    | refine keeps_ite ?_ ?_
    | with_reducible exact keeps_lsw (by assumption) (by assumption))

def touchLoopLoad (A : Part → Prop) : Prop := A (.reg R.LE_STAT.K) ∧ A (.reg R.LE_STAT.LOAD_MAX) ∧ A (.reg R.LE_STAT.N_EN)
theorem touchLoopLoad_all (h : ∀ q, A q) : touchLoopLoad A := ⟨h _, h _, h _⟩
theorem loopLoad_keeps  (hA : touchLoopLoad A)  (h : Keeps A s t) : Keeps A s (State.loopLoad t) := by
  unfold State.loopLoad
  obtain ⟨_, _, _⟩ := hA
  repeat' (first
    | with_reducible assumption
    | intro y
    | (extract_lets +onlyGivenNames x; first | (refine cut (P := Keeps A s x) ?_ ?_; (on_goal 1 => (unfold x; clear x)); (on_goal 2 => (intro hx; first | clear_value x | skip))) | clear_value x | skip)
    | (with_reducible refine put_keepsAt (by assumption) ?_)
    | (with_reducible refine put_keeps (by assumption) ?_)
    | with_reducible apply keeps_ite
    | with_reducible apply keeps_foldl
    | split
    | refine keeps_ite ?_ ?_)

def touchLoopState (A : Part → Prop) (l : Nat) : Prop := touchAuxOf A ∧ (∀ x0, touchAuxLeave A x0) ∧ A (.inst R.LE_L_STAT.STATE l 0) ∧ A (.reg R.LE_RUN.RUN) ∧ A (.reg R.LE_HOLD.HOLD) ∧ (∀ x0, touchAuxJoin A x0)
theorem touchLoopState_all (h : ∀ q, A q) {l : Nat} : touchLoopState A l := ⟨touchAuxOf_all h, (fun _ => touchAuxLeave_all h), h _, h _, h _, (fun _ => touchAuxJoin_all h)⟩
theorem loopState_keeps {l : ℕ} {st : ℕ} (hA : touchLoopState A l)  (h : Keeps A s t) : Keeps A s (State.loopState t l st) := by
  unfold State.loopState
  obtain ⟨_, _, _, _, _, _⟩ := hA
  repeat' (first
    | with_reducible assumption
    | intro y
    | (extract_lets +onlyGivenNames x; first | (refine cut (P := Keeps A s x) ?_ ?_; (on_goal 1 => (unfold x; clear x)); (on_goal 2 => (intro hx; first | clear_value x | skip))) | clear_value x | skip)
    | (with_reducible refine put_keepsAt (by assumption) ?_)
    | (with_reducible refine put_keeps (by assumption) ?_)
    | (with_reducible apply auxOf_keeps (hA := by first | with_reducible assumption | with_reducible apply_assumption))
    | (with_reducible apply auxLeave_keeps (hA := by first | with_reducible assumption | with_reducible apply_assumption))
    | (with_reducible apply auxJoin_keeps (hA := by first | with_reducible assumption | with_reducible apply_assumption))
    | with_reducible apply keeps_ite
    | split
    | refine keeps_ite ?_ ?_)

def touchInjEnd (A : Part → Prop) (j : Nat) : Prop := touchLog A ∧ A (.inst R.LE_INJ_CTRL.END j 0) ∧ A (.inst R.LE_INJ_CTRL.EN j 0) ∧ A (.inst R.LE_INJ_CTRL.STATE j 0) ∧ touchSetInjx A
theorem touchInjEnd_all (h : ∀ q, A q) {j : Nat} : touchInjEnd A j := ⟨touchLog_all h, h _, h _, h _, touchSetInjx_all h⟩
theorem injEnd_keeps {j : ℕ} {reason : ℕ} (hA : touchInjEnd A j)  (h : Keeps A s t) : Keeps A s (State.injEnd t j reason) := by
  unfold State.injEnd
  obtain ⟨_, _, _, _, _⟩ := hA
  repeat' (first
    | with_reducible assumption
    | intro y
    | (extract_lets +onlyGivenNames x; first | (refine cut (P := Keeps A s x) ?_ ?_; (on_goal 1 => (unfold x; clear x)); (on_goal 2 => (intro hx; first | clear_value x | skip))) | clear_value x | skip)
    | (with_reducible refine put_keepsAt (by assumption) ?_)
    | (with_reducible refine put_keeps (by assumption) ?_)
    | (with_reducible apply log_keeps (hA := by first | with_reducible assumption | with_reducible apply_assumption))
    | (with_reducible apply setInjx_keeps (hA := by first | with_reducible assumption | with_reducible apply_assumption))
    | with_reducible apply keeps_ite
    | split
    | refine keeps_ite ?_ ?_)

def touchInjSignal (A : Part → Prop) : Prop := touchFree A
theorem touchInjSignal_all (h : ∀ q, A q) : touchInjSignal A := touchFree_all h
theorem injSignal_keeps {j : ℕ} {ts : Sys2Proof.Word} (hA : touchInjSignal A)  (h : Keeps A s t) : Keeps A s (State.injSignal t j ts).2.2 := by
  unfold State.injSignal
  unfold touchInjSignal at hA
  repeat' (first
    | with_reducible assumption
    | intro y
    | (extract_lets +onlyGivenNames x; first | (refine cut (P := Keeps A s x) ?_ ?_; (on_goal 1 => (unfold x; clear x)); (on_goal 2 => (intro hx; first | clear_value x | skip))) | (refine cut (P := Keeps A s x.2) ?_ ?_; (on_goal 1 => (unfold x; clear x)); (on_goal 2 => (intro hx; first | clear_value x | skip))) | (refine cut (P := Keeps A s x.2.2) ?_ ?_; (on_goal 1 => (unfold x; clear x)); (on_goal 2 => (intro hx; first | clear_value x | skip))) | clear_value x | skip)
    | (with_reducible apply free_keeps (hA := by first | with_reducible assumption | with_reducible apply_assumption))
    | with_reducible apply keeps_ite
    | with_reducible apply keeps_ite2
    | with_reducible apply keeps_ite3
    | split
    | refine keeps_ite ?_ ?_)

def touchInjections (A : Part → Prop) : Prop := touchInjSignal A ∧ touchSetInjx A
theorem touchInjections_all (h : ∀ q, A q) : touchInjections A := ⟨touchInjSignal_all h, touchSetInjx_all h⟩
theorem injections_keeps {l : ℕ} {ts : Sys2Proof.Word} (hA : touchInjections A)  (h : Keeps A s t) : Keeps A s (State.injections t l ts).2.2 := by
  unfold State.injections
  obtain ⟨_, _⟩ := hA
  repeat' (first
    | with_reducible assumption
    | intro y
    | (extract_lets +onlyGivenNames x; first | (refine cut (P := Keeps A s x) ?_ ?_; (on_goal 1 => (unfold x; clear x)); (on_goal 2 => (intro hx; first | clear_value x | skip))) | (refine cut (P := Keeps A s x.2) ?_ ?_; (on_goal 1 => (unfold x; clear x)); (on_goal 2 => (intro hx; first | clear_value x | skip))) | (refine cut (P := Keeps A s x.2.2) ?_ ?_; (on_goal 1 => (unfold x; clear x)); (on_goal 2 => (intro hx; first | clear_value x | skip))) | clear_value x | skip)
    | (with_reducible apply injSignal_keeps (hA := by first | with_reducible assumption | with_reducible apply_assumption))
    | (with_reducible apply setInjx_keeps (hA := by first | with_reducible assumption | with_reducible apply_assumption))
    | with_reducible apply keeps_ite
    | with_reducible apply keeps_ite2
    | with_reducible apply keeps_ite3
    | with_reducible apply keeps_foldl
    | with_reducible apply keeps_foldl2
    | with_reducible apply keeps_foldl3
    | split
    | refine keeps_ite ?_ ?_)

def touchInjLeave (A : Part → Prop) : Prop := (∀ x0, touchInjEnd A x0)
theorem touchInjLeave_all (h : ∀ q, A q) : touchInjLeave A := fun _ => touchInjEnd_all h
theorem injLeave_keeps {l : ℕ} (hA : touchInjLeave A)  (h : Keeps A s t) : Keeps A s (State.injLeave t l) := by
  unfold State.injLeave
  unfold touchInjLeave at hA
  repeat' (first
    | with_reducible assumption
    | intro y
    | with_reducible apply each_keeps
    | (with_reducible apply injEnd_keeps (hA := by first | with_reducible assumption | with_reducible apply_assumption))
    | with_reducible apply keeps_ite
    | split)

def touchLoopHold (A : Part → Prop) (l : Nat) : Prop := touchLoopState A l ∧ touchSetLx A ∧ touchLog A ∧ touchInjLeave A ∧ A (.inst R.LE_L_STAT.SRC_FLT_SEEN l 0)
theorem touchLoopHold_all (h : ∀ q, A q) {l : Nat} : touchLoopHold A l := ⟨touchLoopState_all h, touchSetLx_all h, touchLog_all h, touchInjLeave_all h, h _⟩
theorem loopHold_keeps {l : ℕ} {cause : ℕ} (hA : touchLoopHold A l)  (h : Keeps A s t) : Keeps A s (State.loopHold t l cause) := by
  unfold State.loopHold
  obtain ⟨_, _, _, _, _⟩ := hA
  repeat' (first
    | with_reducible assumption
    | intro y
    | (extract_lets +onlyGivenNames x; first | (refine cut (P := Keeps A s x) ?_ ?_; (on_goal 1 => (unfold x; clear x)); (on_goal 2 => (intro hx; first | clear_value x | skip))) | clear_value x | skip)
    | (with_reducible apply loopState_keeps (hA := by first | with_reducible assumption | with_reducible apply_assumption))
    | (with_reducible apply setLx_keeps (hA := by first | with_reducible assumption | with_reducible apply_assumption))
    | (with_reducible apply log_keeps (hA := by first | with_reducible assumption | with_reducible apply_assumption))
    | (with_reducible apply injLeave_keeps (hA := by first | with_reducible assumption | with_reducible apply_assumption))
    | (with_reducible refine put_keepsAt (by assumption) ?_)
    | (with_reducible refine put_keeps (by assumption) ?_)
    | with_reducible apply keeps_ite
    | split
    | refine keeps_ite ?_ ?_)

def touchSlewShow (A : Part → Prop) (l : Nat) : Prop := A (.inst R.LE_L_STAT.SLEWING l 0)
theorem touchSlewShow_all (h : ∀ q, A q) {l : Nat} : touchSlewShow A l := h _
theorem slewShow_keeps {l : ℕ} (hA : touchSlewShow A l)  (h : Keeps A s t) : Keeps A s (State.slewShow t l) := by
  unfold State.slewShow
  unfold touchSlewShow at hA
  repeat' (first
    | with_reducible assumption
    | intro y
    | (extract_lets +onlyGivenNames x; first | (refine cut (P := Keeps A s x) ?_ ?_; (on_goal 1 => (unfold x; clear x)); (on_goal 2 => (intro hx; first | clear_value x | skip))) | clear_value x | skip)
    | (with_reducible refine putb_keepsAt (by assumption) ?_)
    | (with_reducible refine putb_keeps (by assumption) ?_)
    | with_reducible apply keeps_ite
    | split
    | refine keeps_ite ?_ ?_)

def touchGainTake (A : Part → Prop) : Prop := touchSetLx A
theorem touchGainTake_all (h : ∀ q, A q) : touchGainTake A := touchSetLx_all h
theorem gainTake_keeps {l : ℕ} (hA : touchGainTake A)  (h : Keeps A s t) : Keeps A s (State.gainTake t l) := by
  unfold State.gainTake
  unfold touchGainTake at hA
  repeat' (first
    | with_reducible assumption
    | intro y
    | (extract_lets +onlyGivenNames x; first | (refine cut (P := Keeps A s x) ?_ ?_; (on_goal 1 => (unfold x; clear x)); (on_goal 2 => (intro hx; first | clear_value x | skip))) | clear_value x | skip)
    | (with_reducible apply setLx_keeps (hA := by first | with_reducible assumption | with_reducible apply_assumption))
    | with_reducible apply keeps_ite
    | with_reducible apply keeps_foldl
    | split
    | refine keeps_ite ?_ ?_)

def touchLoopRow (A : Part → Prop) (l : Nat) : Prop := touchLoopState A l ∧ touchSetLx A ∧ touchLog A ∧ touchInjLeave A
theorem touchLoopRow_all (h : ∀ q, A q) {l : Nat} : touchLoopRow A l := ⟨touchLoopState_all h, touchSetLx_all h, touchLog_all h, touchInjLeave_all h⟩
theorem loopRow_keeps {l : ℕ} (hA : touchLoopRow A l)  (h : Keeps A s t) : Keeps A s (State.loopRow t l) := by
  unfold State.loopRow
  obtain ⟨_, _, _, _⟩ := hA
  repeat' (first
    | with_reducible assumption
    | intro y
    | (extract_lets +onlyGivenNames x; first | (refine cut (P := Keeps A s x) ?_ ?_; (on_goal 1 => (unfold x; clear x)); (on_goal 2 => (intro hx; first | clear_value x | skip))) | clear_value x | skip)
    | (with_reducible apply loopState_keeps (hA := by first | with_reducible assumption | with_reducible apply_assumption))
    | (with_reducible apply setLx_keeps (hA := by first | with_reducible assumption | with_reducible apply_assumption))
    | (with_reducible apply log_keeps (hA := by first | with_reducible assumption | with_reducible apply_assumption))
    | (with_reducible apply injLeave_keeps (hA := by first | with_reducible assumption | with_reducible apply_assumption))
    | with_reducible apply keeps_ite
    | split
    | refine keeps_ite ?_ ?_)

def touchLoopOutput (A : Part → Prop) (l : Nat) : Prop := touchLoopHold A l ∧ touchSetLx A ∧ A (.inst R.LE_L_I.I l 0) ∧ A (.inst R.LE_L_E.E l 0) ∧ A (.inst R.LE_L_Y.Y l 0) ∧ A (.inst R.LE_L_V.V l 0) ∧ A (.inst R.LE_L_R.R l 0) ∧ A (.inst R.LE_L_STAT.SAT_HI l 0) ∧ A (.inst R.LE_L_STAT.REGION l 0) ∧ A (.inst R.LE_L_STAT.SET l 0) ∧ A (.inst R.LE_L_STAT.SAT_LO l 0) ∧ A (.inst R.LE_L_STAT.SAT_SEEN l 0) ∧ A (.inst R.LE_L_U_MAN.U_MAN l 0)
theorem touchLoopOutput_all (h : ∀ q, A q) {l : Nat} : touchLoopOutput A l := ⟨touchLoopHold_all h, touchSetLx_all h, h _, h _, h _, h _, h _, h _, h _, h _, h _, h _, h _⟩
theorem loopOutput_keeps {l : ℕ} {c : Sys2Proof.Machine.LoopCalc} {preset : Bool} (hA : touchLoopOutput A l)  (h : Keeps A s t) : Keeps A s (State.loopOutput t l c preset) := by
  unfold State.loopOutput
  obtain ⟨_, _, _, _, _, _, _, _, _, _, _, _, _⟩ := hA
  repeat' (first
    | with_reducible assumption
    | intro y
    | (extract_lets +onlyGivenNames x; first | (refine cut (P := Keeps A s x) ?_ ?_; (on_goal 1 => (unfold x; clear x)); (on_goal 2 => (intro hx; first | clear_value x | skip))) | clear_value x | skip)
    | (with_reducible refine put_keepsAt (by assumption) ?_)
    | (with_reducible refine put_keeps (by assumption) ?_)
    | (with_reducible refine putb_keepsAt (by assumption) ?_)
    | (with_reducible refine putb_keeps (by assumption) ?_)
    | (with_reducible refine putf_keepsAt (by assumption) ?_)
    | (with_reducible refine putf_keeps (by assumption) ?_)
    | (with_reducible apply loopHold_keeps (hA := by first | with_reducible assumption | with_reducible apply_assumption))
    | (with_reducible apply setLx_keeps (hA := by first | with_reducible assumption | with_reducible apply_assumption))
    | with_reducible apply when_keeps
    | with_reducible apply keeps_ite
    | split
    | refine keeps_ite ?_ ?_)

def touchLoopLateInit (A : Part → Prop) (l : Nat) : Prop := A (.inst R.LE_L_Y.Y l 0) ∧ touchSetLx A ∧ A (.inst R.LE_L_R.R l 0)
theorem touchLoopLateInit_all (h : ∀ q, A q) {l : Nat} : touchLoopLateInit A l := ⟨h _, touchSetLx_all h, h _⟩
theorem loopLateInit_keeps {l : ℕ} {y : Sys2Proof.Word} (hA : touchLoopLateInit A l)  (h : Keeps A s t) : Keeps A s (State.loopLateInit t l y) := by
  unfold State.loopLateInit
  obtain ⟨_, _, _⟩ := hA
  repeat' (first
    | with_reducible assumption
    | intro y
    | (extract_lets +onlyGivenNames x; first | (refine cut (P := Keeps A s x) ?_ ?_; (on_goal 1 => (unfold x; clear x)); (on_goal 2 => (intro hx; first | clear_value x | skip))) | clear_value x | skip)
    | (with_reducible refine putf_keepsAt (by assumption) ?_)
    | (with_reducible refine putf_keeps (by assumption) ?_)
    | (with_reducible apply setLx_keeps (hA := by first | with_reducible assumption | with_reducible apply_assumption))
    | with_reducible apply when_keeps
    | with_reducible apply keeps_ite
    | split
    | refine keeps_ite ?_ ?_)

def touchLoopUpdate (A : Part → Prop) (l : Nat) : Prop := touchSetLx A ∧ touchLoopHold A l ∧ touchLoopLateInit A l ∧ touchLoopRow A l ∧ touchInjections A ∧ touchGainTake A ∧ touchLoopOutput A l
theorem touchLoopUpdate_all (h : ∀ q, A q) {l : Nat} : touchLoopUpdate A l := ⟨touchSetLx_all h, touchLoopHold_all h, touchLoopLateInit_all h, touchLoopRow_all h, touchInjections_all h, touchGainTake_all h, touchLoopOutput_all h⟩
theorem loopUpdate_keeps {l : ℕ} {i : ℕ} (hA : touchLoopUpdate A l)  (h : Keeps A s t) : Keeps A s (State.loopUpdate t l i) := by
  unfold State.loopUpdate
  obtain ⟨_, _, _, _, _, _, _⟩ := hA
  repeat' (first
    | with_reducible assumption
    | intro y
    | (extract_lets +onlyGivenNames x; first | (refine cut (P := Keeps A s x) ?_ ?_; (on_goal 1 => (unfold x; clear x)); (on_goal 2 => (intro hx; first | clear_value x | skip))) | (refine cut (P := Keeps A s x.2) ?_ ?_; (on_goal 1 => (unfold x; clear x)); (on_goal 2 => (intro hx; first | clear_value x | skip))) | (refine cut (P := Keeps A s x.2.2) ?_ ?_; (on_goal 1 => (unfold x; clear x)); (on_goal 2 => (intro hx; first | clear_value x | skip))) | clear_value x | skip)
    | (with_reducible apply setLx_keeps (hA := by first | with_reducible assumption | with_reducible apply_assumption))
    | (with_reducible apply loopHold_keeps (hA := by first | with_reducible assumption | with_reducible apply_assumption))
    | (with_reducible apply loopLateInit_keeps (hA := by first | with_reducible assumption | with_reducible apply_assumption))
    | (with_reducible apply loopRow_keeps (hA := by first | with_reducible assumption | with_reducible apply_assumption))
    | (with_reducible apply injections_keeps (hA := by first | with_reducible assumption | with_reducible apply_assumption))
    | (with_reducible apply gainTake_keeps (hA := by first | with_reducible assumption | with_reducible apply_assumption))
    | (with_reducible apply loopOutput_keeps (hA := by first | with_reducible assumption | with_reducible apply_assumption))
    | with_reducible apply keeps_ite
    | with_reducible apply keeps_ite2
    | with_reducible apply keeps_ite3
    | split
    | refine keeps_ite ?_ ?_)

def touchLoopDeliver (A : Part → Prop) (l : Nat) : Prop := A (.inst R.LE_L_U.U l 0) ∧ touchSetLx A ∧ touchSetGrp A ∧ A (.reg R.PE_GRP_DEM.DEM) ∧ touchSetAux A ∧ (∀ x0, touchLswFraction A x0)
theorem touchLoopDeliver_all (h : ∀ q, A q) {l : Nat} : touchLoopDeliver A l := ⟨h _, touchSetLx_all h, touchSetGrp_all h, h _, touchSetAux_all h, fun _ => touchLswFraction_all h⟩
theorem loopDeliver_keeps {l : ℕ} (hA : touchLoopDeliver A l)  (h : Keeps A s t) : Keeps A s (State.loopDeliver t l) := by
  unfold State.loopDeliver
  obtain ⟨_, _, _, _, _, _⟩ := hA
  repeat' (first
    | with_reducible assumption
    | intro y
    | (extract_lets +onlyGivenNames x; first | (refine cut (P := Keeps A s x) ?_ ?_; (on_goal 1 => (unfold x; clear x)); (on_goal 2 => (intro hx; first | clear_value x | skip))) | clear_value x | skip)
    | (with_reducible refine putf_keepsAt (by assumption) ?_)
    | (with_reducible refine putf_keeps (by assumption) ?_)
    | (with_reducible apply setLx_keeps (hA := by first | with_reducible assumption | with_reducible apply_assumption))
    | with_reducible apply each_keeps
    | (with_reducible apply setGrp_keeps (hA := by first | with_reducible assumption | with_reducible apply_assumption))
    | (with_reducible apply setAux_keeps (hA := by first | with_reducible assumption | with_reducible apply_assumption))
    | (with_reducible apply lswFraction_keeps (hA := by first | with_reducible assumption | with_reducible apply_assumption))
    | with_reducible apply keeps_ite
    | split
    | refine keeps_ite ?_ ?_)

def touchLoopInit (A : Part → Prop) (l : Nat) : Prop := touchSetLx A ∧ A (.inst R.LE_L_R.R l 0) ∧ A (.inst R.LE_L_Y.Y l 0) ∧ A (.inst R.LE_L_V.V l 0) ∧ A (.inst R.LE_L_I.I l 0) ∧ A (.inst R.LE_L_U.U l 0) ∧ touchSlewShow A l
theorem touchLoopInit_all (h : ∀ q, A q) {l : Nat} : touchLoopInit A l := ⟨touchSetLx_all h, h _, h _, h _, h _, h _, touchSlewShow_all h⟩
theorem loopInit_keeps {l : ℕ} (hA : touchLoopInit A l)  (h : Keeps A s t) : Keeps A s (State.loopInit t l) := by
  unfold State.loopInit
  obtain ⟨_, _, _, _, _, _, _⟩ := hA
  repeat' (first
    | with_reducible assumption
    | intro y
    | (extract_lets +onlyGivenNames x; first | (refine cut (P := Keeps A s x) ?_ ?_; (on_goal 1 => (unfold x; clear x)); (on_goal 2 => (intro hx; first | clear_value x | skip))) | clear_value x | skip)
    | (with_reducible refine putf_keepsAt (by assumption) ?_)
    | (with_reducible refine putf_keeps (by assumption) ?_)
    | (with_reducible apply setLx_keeps (hA := by first | with_reducible assumption | with_reducible apply_assumption))
    | (with_reducible apply slewShow_keeps (hA := by first | with_reducible assumption | with_reducible apply_assumption))
    | with_reducible apply keeps_ite
    | split
    | refine keeps_ite ?_ ?_)

def touchConsShow (A : Part → Prop) : Prop := A (.reg R.LE_L_DEST.CONS)
theorem touchConsShow_all (h : ∀ q, A q) : touchConsShow A := h _
theorem consShow_keeps  (hA : touchConsShow A)  (h : Keeps A s t) : Keeps A s (State.consShow t) := by
  unfold State.consShow
  unfold touchConsShow at hA
  repeat' (first
    | with_reducible assumption
    | intro y
    | (extract_lets +onlyGivenNames x; first | (refine cut (P := Keeps A s x) ?_ ?_; (on_goal 1 => (unfold x; clear x)); (on_goal 2 => (intro hx; first | clear_value x | skip))) | clear_value x | skip)
    | (with_reducible refine put_keepsAt (by assumption) ?_)
    | (with_reducible refine put_keeps (by assumption) ?_)
    | with_reducible apply each_keeps
    | with_reducible apply keeps_ite
    | split
    | refine keeps_ite ?_ ?_)

def touchLoopEnable (A : Part → Prop) (l : Nat) : Prop := A (.inst R.LE_L_CTRL.EN l 0) ∧ touchLog A ∧ A (.inst R.LE_L_STAT.REFUSED l 0) ∧ touchLoopLoad A ∧ touchLoopState A l ∧ touchLoopInit A l
theorem touchLoopEnable_all (h : ∀ q, A q) {l : Nat} : touchLoopEnable A l := ⟨h _, touchLog_all h, h _, touchLoopLoad_all h, touchLoopState_all h, touchLoopInit_all h⟩
theorem loopEnable_keeps {l : ℕ} (hA : touchLoopEnable A l)  (h : Keeps A s t) : Keeps A s (State.loopEnable t l) := by
  unfold State.loopEnable
  obtain ⟨_, _, _, _, _, _⟩ := hA
  repeat' (first
    | with_reducible assumption
    | intro y
    | (extract_lets +onlyGivenNames x; first | (refine cut (P := Keeps A s x) ?_ ?_; (on_goal 1 => (unfold x; clear x)); (on_goal 2 => (intro hx; first | clear_value x | skip))) | clear_value x | skip)
    | (with_reducible refine put_keepsAt (by assumption) ?_)
    | (with_reducible refine put_keeps (by assumption) ?_)
    | (with_reducible apply log_keeps (hA := by first | with_reducible assumption | with_reducible apply_assumption))
    | (with_reducible apply loopLoad_keeps (hA := by first | with_reducible assumption | with_reducible apply_assumption))
    | (with_reducible apply loopState_keeps (hA := by first | with_reducible assumption | with_reducible apply_assumption))
    | (with_reducible apply loopInit_keeps (hA := by first | with_reducible assumption | with_reducible apply_assumption))
    | with_reducible apply keeps_ite
    | split)

def touchLoopDisable (A : Part → Prop) (l : Nat) : Prop := touchLoopLoad A ∧ touchInjLeave A ∧ touchLoopState A l ∧ touchSetLx A ∧ A (.inst R.LE_L_CTRL.EN l 0)
theorem touchLoopDisable_all (h : ∀ q, A q) {l : Nat} : touchLoopDisable A l := ⟨touchLoopLoad_all h, touchInjLeave_all h, touchLoopState_all h, touchSetLx_all h, h _⟩
theorem loopDisable_keeps {l : ℕ} (hA : touchLoopDisable A l)  (h : Keeps A s t) : Keeps A s (State.loopDisable t l) := by
  unfold State.loopDisable
  obtain ⟨_, _, _, _, _⟩ := hA
  repeat' (first
    | with_reducible assumption
    | intro y
    | (extract_lets +onlyGivenNames x; first | (refine cut (P := Keeps A s x) ?_ ?_; (on_goal 1 => (unfold x; clear x)); (on_goal 2 => (intro hx; first | clear_value x | skip))) | clear_value x | skip)
    | (with_reducible apply loopLoad_keeps (hA := by first | with_reducible assumption | with_reducible apply_assumption))
    | (with_reducible apply injLeave_keeps (hA := by first | with_reducible assumption | with_reducible apply_assumption))
    | (with_reducible apply loopState_keeps (hA := by first | with_reducible assumption | with_reducible apply_assumption))
    | (with_reducible apply setLx_keeps (hA := by first | with_reducible assumption | with_reducible apply_assumption))
    | (with_reducible refine put_keepsAt (by assumption) ?_)
    | (with_reducible refine put_keeps (by assumption) ?_)
    | with_reducible apply keeps_ite
    | split)

def touchLeStart (A : Part → Prop) : Prop := touchConsShow A ∧ A (.reg R.LE_CTRL.SRATE_ACT) ∧ touchGainTake A ∧ (∀ x0, touchLoopEnable A x0) ∧ touchLoopLoad A ∧ (∀ x0, touchAuxJoin A x0)
theorem touchLeStart_all (h : ∀ q, A q) : touchLeStart A := ⟨touchConsShow_all h, h _, touchGainTake_all h, (fun _ => touchLoopEnable_all h), touchLoopLoad_all h, (fun _ => touchAuxJoin_all h)⟩
theorem leStart_keeps  (hA : touchLeStart A)  (h : Keeps A s t) : Keeps A s (State.leStart t) := by
  unfold State.leStart
  obtain ⟨_, _, _, _, _, _⟩ := hA
  repeat' (first
    | with_reducible assumption
    | intro y
    | (extract_lets +onlyGivenNames x; first | (refine cut (P := Keeps A s x) ?_ ?_; (on_goal 1 => (unfold x; clear x)); (on_goal 2 => (intro hx; first | clear_value x | skip))) | clear_value x | skip)
    | (with_reducible refine put_keepsAt (by assumption) ?_)
    | (with_reducible refine put_keeps (by assumption) ?_)
    | (with_reducible apply consShow_keeps (hA := by first | with_reducible assumption | with_reducible apply_assumption))
    | (with_reducible apply gainTake_keeps (hA := by first | with_reducible assumption | with_reducible apply_assumption))
    | (with_reducible apply loopEnable_keeps (hA := by first | with_reducible assumption | with_reducible apply_assumption))
    | (with_reducible apply loopLoad_keeps (hA := by first | with_reducible assumption | with_reducible apply_assumption))
    | (with_reducible apply auxJoin_keeps (hA := by first | with_reducible assumption | with_reducible apply_assumption))
    | with_reducible apply each_keeps
    | with_reducible apply keeps_ite
    | split
    | refine keeps_ite ?_ ?_)

end Sys2Proof.Laws
end

