-- ==== Sys2Proof/Laws/KeepsAuxOps.lean ====
section
/-! SUPPORT. What the operations of Machine/AuxOps.lean leave alone: for each the parts it may change (`touch…`) and its lemma. -/

namespace Sys2Proof.Laws

open Sys2Proof.Machine

set_option linter.unusedTactic false
set_option linter.unreachableTactic false
set_option linter.unusedVariables false
set_option linter.tactic.unusedName false

variable {A : Part → Prop} {s t : State}

def touchAuxLow (A : Part → Prop) : Prop := A .pins
theorem touchAuxLow_all (h : ∀ q, A q) : touchAuxLow A := h _
theorem auxLow_keeps {a : ℕ} (hA : touchAuxLow A)  (h : Keeps A s t) : Keeps A s (State.auxLow t a) := by
  unfold State.auxLow
  unfold touchAuxLow at hA
  repeat' (first
    | with_reducible assumption
    | intro y
    | (extract_lets +onlyGivenNames x; first | (refine cut (P := Keeps A s x) ?_ ?_; (on_goal 1 => (unfold x; clear x)); (on_goal 2 => (intro hx; first | clear_value x | skip))) | clear_value x | skip)
    | with_reducible apply keeps_ite
    | split
    | with_reducible exact keeps_pins (by assumption) (by assumption))

def touchPgoodFalls (A : Part → Prop) (a : Nat) : Prop := A (.inst R.PWR_AUX_STAT.PGOOD a 0) ∧ touchGden A ∧ touchPhaseGatesLow A ∧ (∀ x0, touchPhaseTrip A x0) ∧ touchLog A ∧ A (.reg R.PE_PH_STAT.FLT_CODE)
theorem touchPgoodFalls_all (h : ∀ q, A q) {a : Nat} : touchPgoodFalls A a := ⟨h _, touchGden_all h, touchPhaseGatesLow_all h, (fun _ => touchPhaseTrip_all h), touchLog_all h, h _⟩
theorem pgoodFalls_keeps {a : ℕ} (hA : touchPgoodFalls A a)  (h : Keeps A s t) : Keeps A s (State.pgoodFalls t a) := by
  unfold State.pgoodFalls
  obtain ⟨_, _, _, _, _, _⟩ := hA
  repeat' (first
    | with_reducible assumption
    | intro y
    | (extract_lets +onlyGivenNames x; first | (refine cut (P := Keeps A s x) ?_ ?_; (on_goal 1 => (unfold x; clear x)); (on_goal 2 => (intro hx; first | clear_value x | skip))) | clear_value x | skip)
    | (with_reducible refine put_keepsAt (by assumption) ?_)
    | (with_reducible refine put_keeps (by assumption) ?_)
    | (with_reducible apply gden_keeps (hA := by first | with_reducible assumption | with_reducible apply_assumption))
    | (with_reducible apply phaseGatesLow_keeps (hA := by first | with_reducible assumption | with_reducible apply_assumption))
    | (with_reducible apply phaseTrip_keeps (hA := by first | with_reducible assumption | with_reducible apply_assumption))
    | (with_reducible apply log_keeps (hA := by first | with_reducible assumption | with_reducible apply_assumption))
    | with_reducible apply each_keeps
    | with_reducible apply keeps_ite
    | split
    | refine keeps_ite ?_ ?_)

def touchAuxStop (A : Part → Prop) (a : Nat) : Prop := A (.inst R.PWR_AUX_STAT.MODE a 0) ∧ touchAuxLow A ∧ touchPgoodFalls A a ∧ touchSetAux A
theorem touchAuxStop_all (h : ∀ q, A q) {a : Nat} : touchAuxStop A a := ⟨h _, touchAuxLow_all h, touchPgoodFalls_all h, touchSetAux_all h⟩
theorem auxStop_keeps {a : ℕ} {mode : ℕ} (hA : touchAuxStop A a)  (h : Keeps A s t) : Keeps A s (State.auxStop t a mode) := by
  unfold State.auxStop
  obtain ⟨_, _, _, _⟩ := hA
  repeat' (first
    | with_reducible assumption
    | intro y
    | (extract_lets +onlyGivenNames x; first | (refine cut (P := Keeps A s x) ?_ ?_; (on_goal 1 => (unfold x; clear x)); (on_goal 2 => (intro hx; first | clear_value x | skip))) | clear_value x | skip)
    | (with_reducible refine put_keepsAt (by assumption) ?_)
    | (with_reducible refine put_keeps (by assumption) ?_)
    | (with_reducible apply auxLow_keeps (hA := by first | with_reducible assumption | with_reducible apply_assumption))
    | (with_reducible apply pgoodFalls_keeps (hA := by first | with_reducible assumption | with_reducible apply_assumption))
    | (with_reducible apply setAux_keeps (hA := by first | with_reducible assumption | with_reducible apply_assumption))
    | with_reducible apply keeps_ite
    | split
    | refine keeps_ite ?_ ?_)

def touchAuxStart (A : Part → Prop) (a : Nat) : Prop := touchSetAux A ∧ A (.inst R.PWR_AUX_STAT.MODE a 0) ∧ A (.reg R.LE_L_R.R)
theorem touchAuxStart_all (h : ∀ q, A q) {a : Nat} : touchAuxStart A a := ⟨touchSetAux_all h, h _, h _⟩
theorem auxStart_keeps {a : ℕ} (hA : touchAuxStart A a)  (h : Keeps A s t) : Keeps A s (State.auxStart t a) := by
  unfold State.auxStart
  obtain ⟨_, _, _⟩ := hA
  repeat' (first
    | with_reducible assumption
    | intro y
    | (extract_lets +onlyGivenNames x; first | (refine cut (P := Keeps A s x) ?_ ?_; (on_goal 1 => (unfold x; clear x)); (on_goal 2 => (intro hx; first | clear_value x | skip))) | clear_value x | skip)
    | (with_reducible refine put_keepsAt (by assumption) ?_)
    | (with_reducible refine put_keeps (by assumption) ?_)
    | (with_reducible refine putf_keepsAt (by assumption) ?_)
    | (with_reducible refine putf_keeps (by assumption) ?_)
    | (with_reducible apply setAux_keeps (hA := by first | with_reducible assumption | with_reducible apply_assumption))
    | with_reducible apply keeps_ite
    | split
    | refine keeps_ite ?_ ?_)

def touchAuxWrite (A : Part → Prop) (a : Nat) : Prop := A (.inst R.PWR_AUX_CTRL.EN a 0) ∧ touchAuxStart A a ∧ touchAuxStop A a
theorem touchAuxWrite_all (h : ∀ q, A q) {a : Nat} : touchAuxWrite A a := ⟨h _, touchAuxStart_all h, touchAuxStop_all h⟩
theorem auxWrite_keeps {a : ℕ} {on : Bool} (hA : touchAuxWrite A a)  (h : Keeps A s t) : Keeps A s (State.auxWrite t a on) := by
  unfold State.auxWrite
  obtain ⟨_, _, _⟩ := hA
  repeat' (first
    | with_reducible assumption
    | intro y
    | (extract_lets +onlyGivenNames x; first | (refine cut (P := Keeps A s x) ?_ ?_; (on_goal 1 => (unfold x; clear x)); (on_goal 2 => (intro hx; first | clear_value x | skip))) | clear_value x | skip)
    | (with_reducible refine putb_keepsAt (by assumption) ?_)
    | (with_reducible refine putb_keeps (by assumption) ?_)
    | (with_reducible apply auxStart_keeps (hA := by first | with_reducible assumption | with_reducible apply_assumption))
    | (with_reducible apply auxStop_keeps (hA := by first | with_reducible assumption | with_reducible apply_assumption))
    | with_reducible apply keeps_ite
    | split
    | refine keeps_ite ?_ ?_)

def touchAuxFaultClear (A : Part → Prop) (a : Nat) : Prop := A (.inst R.PWR_AUX_STAT.FB_FAULT a 0) ∧ A (.inst R.PWR_AUX_STAT.MODE a 0) ∧ touchAuxStart A a
theorem touchAuxFaultClear_all (h : ∀ q, A q) {a : Nat} : touchAuxFaultClear A a := ⟨h _, h _, touchAuxStart_all h⟩
theorem auxFaultClear_keeps {a : ℕ} (hA : touchAuxFaultClear A a)  (h : Keeps A s t) : Keeps A s (State.auxFaultClear t a) := by
  unfold State.auxFaultClear
  obtain ⟨_, _, _⟩ := hA
  repeat' (first
    | with_reducible assumption
    | intro y
    | (extract_lets +onlyGivenNames x; first | (refine cut (P := Keeps A s x) ?_ ?_; (on_goal 1 => (unfold x; clear x)); (on_goal 2 => (intro hx; first | clear_value x | skip))) | clear_value x | skip)
    | (with_reducible refine put_keepsAt (by assumption) ?_)
    | (with_reducible refine put_keeps (by assumption) ?_)
    | (with_reducible apply auxStart_keeps (hA := by first | with_reducible assumption | with_reducible apply_assumption))
    | with_reducible apply keeps_ite
    | split
    | refine keeps_ite ?_ ?_)

def touchAuxFb (A : Part → Prop) (a : Nat) : Prop := A (.inst R.PWR_AUX_STAT.FB a 0)
theorem touchAuxFb_all (h : ∀ q, A q) {a : Nat} : touchAuxFb A a := h _
theorem auxFb_keeps {a : ℕ} {fb : ℕ} (hA : touchAuxFb A a)  (h : Keeps A s t) : Keeps A s (State.auxFb t a fb) := by
  unfold State.auxFb
  unfold touchAuxFb at hA
  repeat' (first
    | with_reducible assumption
    | intro y
    | (with_reducible refine putMax_keepsAt (by assumption) ?_)
    | (with_reducible refine putMax_keeps (by assumption) ?_)
    | with_reducible apply keeps_ite
    | split)

def touchAuxLoop (A : Part → Prop) (a : Nat) (l : Nat) : Prop := A (.inst R.PWR_AUX_CTRL.LOOP a 0) ∧ touchAuxLeave A a ∧ A (.inst R.LE_L_R.R l 0) ∧ touchConsShow A ∧ touchAuxJoin A a
theorem touchAuxLoop_all (h : ∀ q, A q) {a l : Nat} : touchAuxLoop A a l := ⟨h _, touchAuxLeave_all h, h _, touchConsShow_all h, touchAuxJoin_all h⟩
theorem auxLoop_keeps {a : ℕ} {l : ℕ} (hA : touchAuxLoop A a l)  (h : Keeps A s t) : Keeps A s (State.auxLoop t a l) := by
  unfold State.auxLoop
  obtain ⟨_, _, _, _, _⟩ := hA
  repeat' (first
    | with_reducible assumption
    | intro y
    | (extract_lets +onlyGivenNames x; first | (refine cut (P := Keeps A s x) ?_ ?_; (on_goal 1 => (unfold x; clear x)); (on_goal 2 => (intro hx; first | clear_value x | skip))) | clear_value x | skip)
    | (with_reducible refine put_keepsAt (by assumption) ?_)
    | (with_reducible refine put_keeps (by assumption) ?_)
    | (with_reducible refine putf_keepsAt (by assumption) ?_)
    | (with_reducible refine putf_keeps (by assumption) ?_)
    | (with_reducible apply auxLeave_keeps (hA := by first | with_reducible assumption | with_reducible apply_assumption))
    | (with_reducible apply consShow_keeps (hA := by first | with_reducible assumption | with_reducible apply_assumption))
    | (with_reducible apply auxJoin_keeps (hA := by first | with_reducible assumption | with_reducible apply_assumption))
    | with_reducible apply keeps_ite
    | split
    | refine keeps_ite ?_ ?_)

def touchAuxSyncEn (A : Part → Prop) (a : Nat) : Prop := A (.inst R.PWR_AUX_CTRL.SYNC_EN a 0) ∧ A (.inst R.PWR_AUX_STAT.SYNCED a 0)
theorem touchAuxSyncEn_all (h : ∀ q, A q) {a : Nat} : touchAuxSyncEn A a := ⟨h _, h _⟩
theorem auxSyncEn_keeps {a : ℕ} {on : Bool} (hA : touchAuxSyncEn A a)  (h : Keeps A s t) : Keeps A s (State.auxSyncEn t a on) := by
  unfold State.auxSyncEn
  obtain ⟨_, _⟩ := hA
  repeat' (first
    | with_reducible assumption
    | intro y
    | (extract_lets +onlyGivenNames x; first | (refine cut (P := Keeps A s x) ?_ ?_; (on_goal 1 => (unfold x; clear x)); (on_goal 2 => (intro hx; first | clear_value x | skip))) | clear_value x | skip)
    | (with_reducible refine put_keepsAt (by assumption) ?_)
    | (with_reducible refine put_keeps (by assumption) ?_)
    | (with_reducible refine putb_keepsAt (by assumption) ?_)
    | (with_reducible refine putb_keeps (by assumption) ?_)
    | with_reducible apply keeps_ite
    | split
    | refine keeps_ite ?_ ?_)

def touchAuxBurstEn (A : Part → Prop) (a : Nat) : Prop := A (.inst R.PWR_AUX_CTRL.BURST_EN a 0) ∧ touchSetAux A ∧ A (.inst R.PWR_AUX_STAT.MODE a 0)
theorem touchAuxBurstEn_all (h : ∀ q, A q) {a : Nat} : touchAuxBurstEn A a := ⟨h _, touchSetAux_all h, h _⟩
theorem auxBurstEn_keeps {a : ℕ} {on : Bool} (hA : touchAuxBurstEn A a)  (h : Keeps A s t) : Keeps A s (State.auxBurstEn t a on) := by
  unfold State.auxBurstEn
  obtain ⟨_, _, _⟩ := hA
  repeat' (first
    | with_reducible assumption
    | intro y
    | (extract_lets +onlyGivenNames x; first | (refine cut (P := Keeps A s x) ?_ ?_; (on_goal 1 => (unfold x; clear x)); (on_goal 2 => (intro hx; first | clear_value x | skip))) | clear_value x | skip)
    | (with_reducible refine put_keepsAt (by assumption) ?_)
    | (with_reducible refine put_keeps (by assumption) ?_)
    | (with_reducible refine putb_keepsAt (by assumption) ?_)
    | (with_reducible refine putb_keeps (by assumption) ?_)
    | (with_reducible apply setAux_keeps (hA := by first | with_reducible assumption | with_reducible apply_assumption))
    | with_reducible apply keeps_ite
    | split
    | refine keeps_ite ?_ ?_)

def touchAuxRefMove (A : Part → Prop) : Prop := touchFree A ∧ touchSetAux A
theorem touchAuxRefMove_all (h : ∀ q, A q) : touchAuxRefMove A := ⟨touchFree_all h, touchSetAux_all h⟩
theorem auxRefMove_keeps {a : ℕ} (hA : touchAuxRefMove A)  (h : Keeps A s t) : Keeps A s (State.auxRefMove t a) := by
  unfold State.auxRefMove
  obtain ⟨_, _⟩ := hA
  repeat' (first
    | with_reducible assumption
    | intro y
    | (extract_lets +onlyGivenNames x; first | (refine cut (P := Keeps A s x) ?_ ?_; (on_goal 1 => (unfold x; clear x)); (on_goal 2 => (intro hx; first | clear_value x | skip))) | (refine cut (P := Keeps A s x.2) ?_ ?_; (on_goal 1 => (unfold x; clear x)); (on_goal 2 => (intro hx; first | clear_value x | skip))) | (refine cut (P := Keeps A s x.2.2) ?_ ?_; (on_goal 1 => (unfold x; clear x)); (on_goal 2 => (intro hx; first | clear_value x | skip))) | clear_value x | skip)
    | (with_reducible apply free_keeps (hA := by first | with_reducible assumption | with_reducible apply_assumption))
    | (with_reducible apply setAux_keeps (hA := by first | with_reducible assumption | with_reducible apply_assumption))
    | with_reducible apply keeps_ite
    | with_reducible apply keeps_ite2
    | with_reducible apply keeps_ite3
    | split
    | refine keeps_ite ?_ ?_)

def touchAuxBegin (A : Part → Prop) : Prop := touchAuxRefMove A ∧ touchSetAux A ∧ A .pins ∧ touchAuxLow A
theorem touchAuxBegin_all (h : ∀ q, A q) : touchAuxBegin A := ⟨touchAuxRefMove_all h, touchSetAux_all h, h _, touchAuxLow_all h⟩
theorem auxBegin_keeps {a : ℕ} {t0 : ℕ} (hA : touchAuxBegin A)  (h : Keeps A s t) : Keeps A s (State.auxBegin t a t0) := by
  unfold State.auxBegin
  obtain ⟨_, _, _, _⟩ := hA
  repeat' (first
    | with_reducible assumption
    | intro y
    | (extract_lets +onlyGivenNames x; first | (refine cut (P := Keeps A s x) ?_ ?_; (on_goal 1 => (unfold x; clear x)); (on_goal 2 => (intro hx; first | clear_value x | skip))) | clear_value x | skip)
    | (with_reducible apply auxRefMove_keeps (hA := by first | with_reducible assumption | with_reducible apply_assumption))
    | (with_reducible apply setAux_keeps (hA := by first | with_reducible assumption | with_reducible apply_assumption))
    | (with_reducible apply auxLow_keeps (hA := by first | with_reducible assumption | with_reducible apply_assumption))
    | with_reducible apply keeps_ite
    | split
    | refine keeps_ite ?_ ?_
    | with_reducible exact keeps_pins (by assumption) (by assumption))

def touchAuxTick (A : Part → Prop) : Prop := touchSetAux A ∧ touchAuxBegin A ∧ touchFree A ∧ touchAuxLow A
theorem touchAuxTick_all (h : ∀ q, A q) : touchAuxTick A := ⟨touchSetAux_all h, touchAuxBegin_all h, touchFree_all h, touchAuxLow_all h⟩
theorem auxTick_keeps {a : ℕ} (hA : touchAuxTick A)  (h : Keeps A s t) : Keeps A s (State.auxTick t a) := by
  unfold State.auxTick
  obtain ⟨_, _, _, _⟩ := hA
  repeat' (first
    | with_reducible assumption
    | intro y
    | (extract_lets +onlyGivenNames x; first | (refine cut (P := Keeps A s x) ?_ ?_; (on_goal 1 => (unfold x; clear x)); (on_goal 2 => (intro hx; first | clear_value x | skip))) | (refine cut (P := Keeps A s x.2) ?_ ?_; (on_goal 1 => (unfold x; clear x)); (on_goal 2 => (intro hx; first | clear_value x | skip))) | (refine cut (P := Keeps A s x.2.2) ?_ ?_; (on_goal 1 => (unfold x; clear x)); (on_goal 2 => (intro hx; first | clear_value x | skip))) | clear_value x | skip)
    | (with_reducible apply setAux_keeps (hA := by first | with_reducible assumption | with_reducible apply_assumption))
    | (with_reducible apply auxBegin_keeps (hA := by first | with_reducible assumption | with_reducible apply_assumption))
    | (with_reducible apply free_keeps (hA := by first | with_reducible assumption | with_reducible apply_assumption))
    | (with_reducible apply auxLow_keeps (hA := by first | with_reducible assumption | with_reducible apply_assumption))
    | with_reducible apply keeps_ite
    | with_reducible apply keeps_ite2
    | with_reducible apply keeps_ite3
    | split
    | refine keeps_ite ?_ ?_)

end Sys2Proof.Laws
end

