-- ==== Sys2Proof/Laws/KeepsMetOps.lean ====
section
/-! SUPPORT. What the operations of Machine/MetOps.lean leave alone: for each the parts it may change (`touch…`) and its lemma. -/

namespace Sys2Proof.Laws

open Sys2Proof.Machine

set_option linter.unusedTactic false
set_option linter.unreachableTactic false
set_option linter.unusedVariables false
set_option linter.tactic.unusedName false

variable {A : Part → Prop} {s t : State}

def touchSetPt (A : Part → Prop) : Prop := A .met
theorem touchSetPt_all (h : ∀ q, A q) : touchSetPt A := h _
theorem setPt_keeps {p : ℕ} {x0 : Sys2Proof.Machine.PtX} (hA : touchSetPt A)  (h : Keeps A s t) : Keeps A s (State.setPt t p x0) := by
  unfold State.setPt
  unfold touchSetPt at hA
  repeat' (first
    | with_reducible assumption
    | intro y
    | (extract_lets +onlyGivenNames x; first | (refine cut (P := Keeps A s x) ?_ ?_; (on_goal 1 => (unfold x; clear x)); (on_goal 2 => (intro hx; first | clear_value x | skip))) | clear_value x | skip)
    | with_reducible apply keeps_ite
    | split
    | with_reducible exact keeps_met (by assumption) (by assumption))

def touchSetPul (A : Part → Prop) : Prop := A .met
theorem touchSetPul_all (h : ∀ q, A q) : touchSetPul A := h _
theorem setPul_keeps {n : ℕ} {x0 : Sys2Proof.Machine.PulX} (hA : touchSetPul A)  (h : Keeps A s t) : Keeps A s (State.setPul t n x0) := by
  unfold State.setPul
  unfold touchSetPul at hA
  repeat' (first
    | with_reducible assumption
    | intro y
    | (extract_lets +onlyGivenNames x; first | (refine cut (P := Keeps A s x) ?_ ?_; (on_goal 1 => (unfold x; clear x)); (on_goal 2 => (intro hx; first | clear_value x | skip))) | clear_value x | skip)
    | with_reducible apply keeps_ite
    | split
    | with_reducible exact keeps_met (by assumption) (by assumption))

def touchPtLog (A : Part → Prop) : Prop := touchLog A
theorem touchPtLog_all (h : ∀ q, A q) : touchPtLog A := touchLog_all h
theorem ptLog_keeps {p : ℕ} {code : ℕ} {sev : ℕ} {pay : List ℕ} (hA : touchPtLog A)  (h : Keeps A s t) : Keeps A s (State.ptLog t p code sev pay) := by
  unfold State.ptLog
  unfold touchPtLog at hA
  repeat' (first
    | with_reducible assumption
    | intro y
    | (with_reducible apply log_keeps (hA := by first | with_reducible assumption | with_reducible apply_assumption))
    | with_reducible apply keeps_ite
    | split)

theorem put3_keeps {lo mid hi : Machine.Field} {v p : Nat} (hl : A (.reg lo)) (hm : A (.reg mid)) (hh : A (.reg hi)) (h : Keeps A s t) :
    Keeps A s (t.put3 lo mid hi v p) := put_keeps hh (put_keeps hm (put_keeps hl h))

theorem put3_keepsAt {lo mid hi : Machine.Field} {v p : Nat} (hl : A (.inst lo p 0)) (hm : A (.inst mid p 0)) (hh : A (.inst hi p 0))
    (h : Keeps A s t) : Keeps A s (t.put3 lo mid hi v p) := put_keepsAt hh (put_keepsAt hm (put_keepsAt hl h))

def touchShowAcc (A : Part → Prop) (p : Nat) : Prop := A (.inst R.MET_PT_FINE_F_LO.W p 0) ∧ A (.inst R.MET_PT_FINE_F_MID.W p 0) ∧ A (.inst R.MET_PT_FINE_F_HI.W p 0) ∧ A (.inst R.MET_PT_FINE_R_LO.W p 0) ∧ A (.inst R.MET_PT_FINE_R_MID.W p 0) ∧ A (.inst R.MET_PT_FINE_R_HI.W p 0) ∧ A (.inst R.MET_PT_WH_R_LO.W p 0) ∧ A (.inst R.MET_PT_WH_R_HI.W p 0) ∧ A (.inst R.MET_PT_WH_F_LO.W p 0) ∧ A (.inst R.MET_PT_WH_F_HI.W p 0) ∧ A (.inst R.MET_PT_DISP_R_LO.W p 0) ∧ A (.inst R.MET_PT_DISP_R_HI.W p 0) ∧ A (.inst R.MET_PT_DISP_F_LO.W p 0) ∧ A (.inst R.MET_PT_DISP_F_HI.W p 0) ∧ A (.inst R.MET_PT_QR_R.QR_R p 0) ∧ A (.inst R.MET_PT_QR_F.QR_F p 0) ∧ A (.inst R.MET_PT_MWH_R_LO.W p 0) ∧ A (.inst R.MET_PT_MWH_R_HI.W p 0) ∧ A (.inst R.MET_PT_MWH_F_LO.W p 0) ∧ A (.inst R.MET_PT_MWH_F_HI.W p 0) ∧ A (.inst R.MET_PT_LOSS_LO.W p 0) ∧ A (.inst R.MET_PT_LOSS_HI.W p 0) ∧ A (.inst R.MET_PT_AH_R_LO.W p 0) ∧ A (.inst R.MET_PT_AH_R_HI.W p 0) ∧ A (.inst R.MET_PT_AH_F_LO.W p 0) ∧ A (.inst R.MET_PT_AH_F_HI.W p 0)
theorem touchShowAcc_all (h : ∀ q, A q) {p : Nat} : touchShowAcc A p := ⟨h _, h _, h _, h _, h _, h _, h _, h _, h _, h _, h _, h _, h _, h _, h _, h _, h _, h _, h _, h _, h _, h _, h _, h _, h _, h _⟩
theorem showAcc_keeps {p : ℕ} {a : Sys2Proof.Machine.PtAcc} (hA : touchShowAcc A p)  (h : Keeps A s t) : Keeps A s (State.showAcc t p a) := by
  unfold State.showAcc
  obtain ⟨_, _, _, _, _, _, _, _, _, _, _, _, _, _, _, _, _, _, _, _, _, _, _, _, _, _⟩ := hA
  repeat' (first
    | with_reducible assumption
    | intro y
    | (extract_lets +onlyGivenNames x; first | (refine cut (P := Keeps A s x) ?_ ?_; (on_goal 1 => (unfold x; clear x)); (on_goal 2 => (intro hx; first | clear_value x | skip))) | clear_value x | skip)
    | (with_reducible refine put3_keepsAt (by assumption) (by assumption) (by assumption) ?_)
    | (with_reducible refine put3_keeps (by assumption) (by assumption) (by assumption) ?_)
    | (with_reducible refine put2_keepsAt (by assumption) (by assumption) ?_)
    | (with_reducible refine put2_keeps (by assumption) (by assumption) ?_)
    | (with_reducible refine put_keepsAt (by assumption) ?_)
    | (with_reducible refine put_keeps (by assumption) ?_)
    | with_reducible apply keeps_ite
    | split
    | refine keeps_ite ?_ ?_)

def touchShowPt (A : Part → Prop) (p : Nat) : Prop := A (.inst R.MET_PT_GAP.GAP p 0) ∧ A (.inst R.MET_PT_TCAB.T_USED p 0) ∧ A (.inst R.MET_PT_SNAP_TS_LO.STAMP p 0) ∧ A (.inst R.MET_PT_SNAP_TS_HI.STAMP p 0) ∧ touchShowAcc A p
theorem touchShowPt_all (h : ∀ q, A q) {p : Nat} : touchShowPt A p := ⟨h _, h _, h _, h _, touchShowAcc_all h⟩
theorem showPt_keeps {p : ℕ} (hA : touchShowPt A p)  (h : Keeps A s t) : Keeps A s (State.showPt t p) := by
  unfold State.showPt
  obtain ⟨_, _, _, _, _⟩ := hA
  repeat' (first
    | with_reducible assumption
    | intro y
    | (extract_lets +onlyGivenNames x; first | (refine cut (P := Keeps A s x) ?_ ?_; (on_goal 1 => (unfold x; clear x)); (on_goal 2 => (intro hx; first | clear_value x | skip))) | clear_value x | skip)
    | (with_reducible refine puti_keepsAt (by assumption) ?_)
    | (with_reducible refine puti_keeps (by assumption) ?_)
    | (with_reducible refine putMax_keepsAt (by assumption) ?_)
    | (with_reducible refine putMax_keeps (by assumption) ?_)
    | (with_reducible refine put2_keepsAt (by assumption) (by assumption) ?_)
    | (with_reducible refine put2_keeps (by assumption) (by assumption) ?_)
    | (with_reducible apply showAcc_keeps (hA := by first | with_reducible assumption | with_reducible apply_assumption))
    | with_reducible apply keeps_ite
    | split
    | refine keeps_ite ?_ ?_)

def touchSetT (A : Part → Prop) (p : Nat) : Prop := touchSetPt A ∧ A (.inst R.MET_PT_TCAB.T_USED p 0)
theorem touchSetT_all (h : ∀ q, A q) {p : Nat} : touchSetT A p := ⟨touchSetPt_all h, h _⟩
theorem setT_keeps {p : ℕ} {t0 : ℤ} (hA : touchSetT A p)  (h : Keeps A s t) : Keeps A s (State.setT t p t0) := by
  unfold State.setT
  obtain ⟨_, _⟩ := hA
  repeat' (first
    | with_reducible assumption
    | intro y
    | (extract_lets +onlyGivenNames x; first | (refine cut (P := Keeps A s x) ?_ ?_; (on_goal 1 => (unfold x; clear x)); (on_goal 2 => (intro hx; first | clear_value x | skip))) | clear_value x | skip)
    | (with_reducible refine puti_keepsAt (by assumption) ?_)
    | (with_reducible refine puti_keeps (by assumption) ?_)
    | (with_reducible apply setPt_keeps (hA := by first | with_reducible assumption | with_reducible apply_assumption))
    | with_reducible apply keeps_ite
    | split
    | refine keeps_ite ?_ ?_)

def touchMetShow (A : Part → Prop) : Prop := A (.reg R.MET_STAT.STAMPS) ∧ A (.reg R.MET_STAT.BANK_ON) ∧ A (.reg R.MET_STAT.PT_VALID) ∧ A (.reg R.MET_STAT.PT_EN)
theorem touchMetShow_all (h : ∀ q, A q) : touchMetShow A := ⟨h _, h _, h _, h _⟩
theorem metShow_keeps  (hA : touchMetShow A)  (h : Keeps A s t) : Keeps A s (State.metShow t) := by
  unfold State.metShow
  obtain ⟨_, _, _, _⟩ := hA
  repeat' (first
    | with_reducible assumption
    | intro y
    | (extract_lets +onlyGivenNames x; first | (refine cut (P := Keeps A s x) ?_ ?_; (on_goal 1 => (unfold x; clear x)); (on_goal 2 => (intro hx; first | clear_value x | skip))) | clear_value x | skip)
    | (with_reducible refine putb_keepsAt (by assumption) ?_)
    | (with_reducible refine putb_keeps (by assumption) ?_)
    | (with_reducible refine put_keepsAt (by assumption) ?_)
    | (with_reducible refine put_keeps (by assumption) ?_)
    | with_reducible apply keeps_ite
    | with_reducible apply keeps_foldl
    | split
    | refine keeps_ite ?_ ?_)

def touchPtInvalid (A : Part → Prop) (p : Nat) : Prop := touchPtLog A ∧ touchMetShow A ∧ A (.inst R.MET_PT_STAT.VALID p 0)
theorem touchPtInvalid_all (h : ∀ q, A q) {p : Nat} : touchPtInvalid A p := ⟨touchPtLog_all h, touchMetShow_all h, h _⟩
theorem ptInvalid_keeps {p : ℕ} {cause : ℕ} (hA : touchPtInvalid A p)  (h : Keeps A s t) : Keeps A s (State.ptInvalid t p cause) := by
  unfold State.ptInvalid
  obtain ⟨_, _, _⟩ := hA
  repeat' (first
    | with_reducible assumption
    | intro y
    | (with_reducible apply ptLog_keeps (hA := by first | with_reducible assumption | with_reducible apply_assumption))
    | (with_reducible apply metShow_keeps (hA := by first | with_reducible assumption | with_reducible apply_assumption))
    | (with_reducible refine put_keepsAt (by assumption) ?_)
    | (with_reducible refine put_keeps (by assumption) ?_)
    | with_reducible apply keeps_ite
    | split)

def touchChPoints (A : Part → Prop) : Prop := (∀ x0, touchPtInvalid A x0)
theorem touchChPoints_all (h : ∀ q, A q) : touchChPoints A := fun _ => touchPtInvalid_all h
theorem chPoints_keeps {c : ℕ} {kind : ℕ} (hA : touchChPoints A)  (h : Keeps A s t) : Keeps A s (State.chPoints t c kind) := by
  unfold State.chPoints
  unfold touchChPoints at hA
  repeat' (first
    | with_reducible assumption
    | intro y
    | with_reducible apply each_keeps
    | (with_reducible apply ptInvalid_keeps (hA := by first | with_reducible assumption | with_reducible apply_assumption))
    | with_reducible apply keeps_ite
    | split)

def touchPtOff (A : Part → Prop) (p : Nat) : Prop := A (.inst R.MET_PT_STAT.VALID p 0) ∧ touchSetPt A
theorem touchPtOff_all (h : ∀ q, A q) {p : Nat} : touchPtOff A p := ⟨h _, touchSetPt_all h⟩
theorem ptOff_keeps {p : ℕ} (hA : touchPtOff A p)  (h : Keeps A s t) : Keeps A s (State.ptOff t p) := by
  unfold State.ptOff
  obtain ⟨_, _⟩ := hA
  repeat' (first
    | with_reducible assumption
    | intro y
    | (extract_lets +onlyGivenNames x; first | (refine cut (P := Keeps A s x) ?_ ?_; (on_goal 1 => (unfold x; clear x)); (on_goal 2 => (intro hx; first | clear_value x | skip))) | clear_value x | skip)
    | (with_reducible refine put_keepsAt (by assumption) ?_)
    | (with_reducible refine put_keeps (by assumption) ?_)
    | (with_reducible apply setPt_keeps (hA := by first | with_reducible assumption | with_reducible apply_assumption))
    | with_reducible apply keeps_ite
    | split
    | refine keeps_ite ?_ ?_)

def touchSealedNote (A : Part → Prop) : Prop := A (.reg R.MET_PARAM_DIG.DIG) ∧ touchLog A ∧ A (.reg R.BIL_DIG.BIL_DIG)
theorem touchSealedNote_all (h : ∀ q, A q) : touchSealedNote A := ⟨h _, touchLog_all h, h _⟩
theorem sealedNote_keeps {a : ℕ} {old : Sys2Proof.Word} (hA : touchSealedNote A)  (h : Keeps A s t) : Keeps A s (State.sealedNote t a old) := by
  unfold State.sealedNote
  obtain ⟨_, _, _⟩ := hA
  repeat' (first
    | with_reducible assumption
    | intro y
    | (extract_lets +onlyGivenNames x; first | (refine cut (P := Keeps A s x) ?_ ?_; (on_goal 1 => (unfold x; clear x)); (on_goal 2 => (intro hx; first | clear_value x | skip))) | clear_value x | skip)
    | (with_reducible refine put_keepsAt (by assumption) ?_)
    | (with_reducible refine put_keeps (by assumption) ?_)
    | (with_reducible apply log_keeps (hA := by first | with_reducible assumption | with_reducible apply_assumption))
    | with_reducible apply keeps_ite
    | split
    | refine keeps_ite ?_ ?_)

def touchSealedChange (A : Part → Prop) : Prop := touchSealedNote A
theorem touchSealedChange_all (h : ∀ q, A q) : touchSealedChange A := touchSealedNote_all h
theorem sealedChange_keeps {a : ℕ} {g : Sys2Proof.Machine.State → Sys2Proof.Machine.State} (hA : touchSealedChange A) (hg : ∀ y0, Keeps A s y0 → Keeps A s (g y0)) (h : Keeps A s t) : Keeps A s (State.sealedChange t a g) := by
  unfold State.sealedChange
  unfold touchSealedChange at hA
  repeat' (first
    | with_reducible assumption
    | intro y
    | (extract_lets +onlyGivenNames x; first | (refine cut (P := Keeps A s x) ?_ ?_; (on_goal 1 => (unfold x; clear x)); (on_goal 2 => (intro hx; first | clear_value x | skip))) | clear_value x | skip)
    | (with_reducible apply sealedNote_keeps (hA := by first | with_reducible assumption | with_reducible apply_assumption))
    | with_reducible apply keeps_ite
    | with_reducible apply hg
    | split
    | refine keeps_ite ?_ ?_)

def touchPtEnable (A : Part → Prop) (p : Nat) : Prop := touchMetShow A ∧ touchSealedChange A ∧ A (.inst R.MET_PT_STAT.CFG_ERR p 0) ∧ A (.inst R.MET_PT_CFG.EN p 0) ∧ touchPtLog A ∧ touchPtOff A p
theorem touchPtEnable_all (h : ∀ q, A q) {p : Nat} : touchPtEnable A p := ⟨touchMetShow_all h, touchSealedChange_all h, h _, h _, touchPtLog_all h, touchPtOff_all h⟩
theorem ptEnable_keeps {p : ℕ} (hA : touchPtEnable A p)  (h : Keeps A s t) : Keeps A s (State.ptEnable t p) := by
  unfold State.ptEnable
  obtain ⟨_, _, _, _, _, _⟩ := hA
  repeat' (first
    | with_reducible assumption
    | intro y
    | (extract_lets +onlyGivenNames x; first | (refine cut (P := Keeps A s x) ?_ ?_; (on_goal 1 => (unfold x; clear x)); (on_goal 2 => (intro hx; first | clear_value x | skip))) | clear_value x | skip)
    | (with_reducible refine put_keepsAt (by assumption) ?_)
    | (with_reducible refine put_keeps (by assumption) ?_)
    | (with_reducible apply metShow_keeps (hA := by first | with_reducible assumption | with_reducible apply_assumption))
    | (with_reducible apply sealedChange_keeps (hA := by first | with_reducible assumption | with_reducible apply_assumption))
    | (with_reducible apply ptLog_keeps (hA := by first | with_reducible assumption | with_reducible apply_assumption))
    | (with_reducible apply ptOff_keeps (hA := by first | with_reducible assumption | with_reducible apply_assumption))
    | with_reducible apply when_keeps
    | with_reducible apply keeps_ite
    | split
    | refine keeps_ite ?_ ?_)

def touchPtChannels (A : Part → Prop) : Prop := touchSetPt A
theorem touchPtChannels_all (h : ∀ q, A q) : touchPtChannels A := touchSetPt_all h
theorem ptChannels_keeps {p : ℕ} {v : ℕ} {i : ℕ} (hA : touchPtChannels A)  (h : Keeps A s t) : Keeps A s (State.ptChannels t p v i) := by
  unfold State.ptChannels
  unfold touchPtChannels at hA
  repeat' (first
    | with_reducible assumption
    | intro y
    | (extract_lets +onlyGivenNames x; first | (refine cut (P := Keeps A s x) ?_ ?_; (on_goal 1 => (unfold x; clear x)); (on_goal 2 => (intro hx; first | clear_value x | skip))) | clear_value x | skip)
    | (with_reducible apply setPt_keeps (hA := by first | with_reducible assumption | with_reducible apply_assumption))
    | with_reducible apply keeps_ite
    | split
    | refine keeps_ite ?_ ?_)

def touchPtCfgWrite (A : Part → Prop) (p : Nat) : Prop := touchPtChannels A ∧ touchPtOff A p ∧ A (.inst R.MET_PT_STAT.CFG_ERR p 0) ∧ A (.inst R.MET_PT_CFG.EN p 0) ∧ touchPtLog A ∧ A .regs
theorem touchPtCfgWrite_all (h : ∀ q, A q) {p : Nat} : touchPtCfgWrite A p := ⟨touchPtChannels_all h, touchPtOff_all h, h _, h _, touchPtLog_all h, h _⟩
theorem ptCfgWrite_keeps {p : ℕ} {w : Sys2Proof.Word} (hA : touchPtCfgWrite A p)  (h : Keeps A s t) : Keeps A s (State.ptCfgWrite t p w) := by
  unfold State.ptCfgWrite
  obtain ⟨_, _, _, _, _, _⟩ := hA
  repeat' (first
    | with_reducible assumption
    | intro y
    | (extract_lets +onlyGivenNames x; first | (refine cut (P := Keeps A s x) ?_ ?_; (on_goal 1 => (unfold x; clear x)); (on_goal 2 => (intro hx; first | clear_value x | skip))) | clear_value x | skip)
    | (with_reducible refine put_keepsAt (by assumption) ?_)
    | (with_reducible refine put_keeps (by assumption) ?_)
    | (with_reducible refine put_keepsAny (by assumption) ?_)
    | (with_reducible refine keeps_setWord (by assumption) ?_)
    | (with_reducible apply ptChannels_keeps (hA := by first | with_reducible assumption | with_reducible apply_assumption))
    | (with_reducible apply ptOff_keeps (hA := by first | with_reducible assumption | with_reducible apply_assumption))
    | (with_reducible apply ptLog_keeps (hA := by first | with_reducible assumption | with_reducible apply_assumption))
    | with_reducible apply when_keeps
    | with_reducible apply keeps_ite
    | split
    | refine keeps_ite ?_ ?_)

def touchSealedWrite (A : Part → Prop) : Prop := touchMetShow A ∧ (∀ x0, touchPtCfgWrite A x0) ∧ A .regs ∧ touchSealedNote A
theorem touchSealedWrite_all (h : ∀ q, A q) : touchSealedWrite A := ⟨touchMetShow_all h, fun _ => touchPtCfgWrite_all h, h _, touchSealedNote_all h⟩
theorem sealedWrite_keeps {a : ℕ} {m : Sys2Proof.Word} {w : Sys2Proof.Word} {always : Bool} (hA : touchSealedWrite A)  (h : Keeps A s t) : Keeps A s (State.sealedWrite t a m w always) := by
  unfold State.sealedWrite
  obtain ⟨_, _, _, _⟩ := hA
  repeat' (first
    | with_reducible assumption
    | intro y
    | (extract_lets +onlyGivenNames x; first | (refine cut (P := Keeps A s x) ?_ ?_; (on_goal 1 => (unfold x; clear x)); (on_goal 2 => (intro hx; first | clear_value x | skip))) | clear_value x | skip)
    | (with_reducible apply metShow_keeps (hA := by first | with_reducible assumption | with_reducible apply_assumption))
    | (with_reducible apply ptCfgWrite_keeps (hA := by first | with_reducible assumption | with_reducible apply_assumption))
    | (with_reducible refine keeps_setWord (by first | assumption | exact hA _) ?_)
    | (with_reducible apply sealedNote_keeps (hA := by first | with_reducible assumption | with_reducible apply_assumption))
    | with_reducible apply keeps_ite
    | split
    | refine keeps_ite ?_ ?_)

def touchPulRestart (A : Part → Prop) (n : Nat) : Prop := A (.inst R.MET_PUL_STAT.PEND n 0) ∧ touchSetPul A
theorem touchPulRestart_all (h : ∀ q, A q) {n : Nat} : touchPulRestart A n := ⟨h _, touchSetPul_all h⟩
theorem pulRestart_keeps {n : ℕ} (hA : touchPulRestart A n)  (h : Keeps A s t) : Keeps A s (State.pulRestart t n) := by
  unfold State.pulRestart
  obtain ⟨_, _⟩ := hA
  repeat' (first
    | with_reducible assumption
    | intro y
    | (extract_lets +onlyGivenNames x; first | (refine cut (P := Keeps A s x) ?_ ?_; (on_goal 1 => (unfold x; clear x)); (on_goal 2 => (intro hx; first | clear_value x | skip))) | clear_value x | skip)
    | (with_reducible refine put_keepsAt (by assumption) ?_)
    | (with_reducible refine put_keeps (by assumption) ?_)
    | (with_reducible apply setPul_keeps (hA := by first | with_reducible assumption | with_reducible apply_assumption))
    | with_reducible apply keeps_ite
    | split)

def touchPulStart (A : Part → Prop) (n : Nat) : Prop := A .pins ∧ A (.inst R.MET_PUL_CNT.CNT n 0) ∧ touchSetPul A
theorem touchPulStart_all (h : ∀ q, A q) {n : Nat} : touchPulStart A n := ⟨h _, h _, touchSetPul_all h⟩
theorem pulStart_keeps {n : ℕ} (hA : touchPulStart A n)  (h : Keeps A s t) : Keeps A s (State.pulStart t n) := by
  unfold State.pulStart
  obtain ⟨_, _, _⟩ := hA
  repeat' (first
    | with_reducible assumption
    | intro y
    | (extract_lets +onlyGivenNames x; first | (refine cut (P := Keeps A s x) ?_ ?_; (on_goal 1 => (unfold x; clear x)); (on_goal 2 => (intro hx; first | clear_value x | skip))) | clear_value x | skip)
    | (with_reducible refine put_keepsAt (by assumption) ?_)
    | (with_reducible refine put_keeps (by assumption) ?_)
    | (with_reducible apply setPul_keeps (hA := by first | with_reducible assumption | with_reducible apply_assumption))
    | with_reducible apply keeps_ite
    | split
    | refine keeps_ite ?_ ?_
    | with_reducible exact keeps_pins (by assumption) (by assumption))

end Sys2Proof.Laws
end

