-- ==== Sys2Proof/Laws/KeepsBillOps.lean ====
section
/-! SUPPORT. What the operations of Machine/BillOps.lean leave alone: for each the parts it may change (`touch…`) and its lemma. -/

namespace Sys2Proof.Laws

open Sys2Proof.Machine

set_option linter.unusedTactic false
set_option linter.unreachableTactic false
set_option linter.unusedVariables false
set_option linter.tactic.unusedName false

variable {A : Part → Prop} {s t : State}

def touchFindRate (A : Part → Prop) : Prop := A (.reg R.BIL_STAT.SPECIAL) ∧ A (.reg R.BIL_STAT.T0_FALLBACK) ∧ A (.reg R.BIL_STAT.RATE) ∧ A (.reg R.BIL_STAT.DAYPROF) ∧ A (.reg R.BIL_STAT.SEASON)
theorem touchFindRate_all (h : ∀ q, A q) : touchFindRate A := ⟨h _, h _, h _, h _, h _⟩
theorem findRate_keeps {bt : ℕ} (hA : touchFindRate A)  (h : Keeps A s t) : Keeps A s (State.findRate t bt) := by
  unfold State.findRate
  obtain ⟨_, _, _, _, _⟩ := hA
  repeat' (first
    | with_reducible assumption
    | intro y
    | (extract_lets +onlyGivenNames x; first | (refine cut (P := Keeps A s x) ?_ ?_; (on_goal 1 => (unfold x; clear x)); (on_goal 2 => (intro hx; first | clear_value x | skip))) | clear_value x | skip)
    | (with_reducible refine put_keepsAt (by assumption) ?_)
    | (with_reducible refine put_keeps (by assumption) ?_)
    | (with_reducible refine putb_keepsAt (by assumption) ?_)
    | (with_reducible refine putb_keeps (by assumption) ?_)
    | with_reducible apply keeps_ite
    | split
    | refine keeps_ite ?_ ?_)

def touchCalRefuse (A : Part → Prop) : Prop := touchLog A ∧ A (.reg R.BIL_CAL_CTRL.ACTIVATE) ∧ A (.reg R.BIL_CAL_CTRL.CHK_WORD) ∧ A (.reg R.BIL_CAL_CTRL.CHK_STATUS)
theorem touchCalRefuse_all (h : ∀ q, A q) : touchCalRefuse A := ⟨touchLog_all h, h _, h _, h _⟩
theorem calRefuse_keeps {r : ℕ × ℕ} (hA : touchCalRefuse A)  (h : Keeps A s t) : Keeps A s (State.calRefuse t r) := by
  unfold State.calRefuse
  obtain ⟨_, _, _, _⟩ := hA
  repeat' (first
    | with_reducible assumption
    | intro y
    | (with_reducible apply log_keeps (hA := by first | with_reducible assumption | with_reducible apply_assumption))
    | (with_reducible refine put_keepsAt (by assumption) ?_)
    | (with_reducible refine put_keeps (by assumption) ?_)
    | with_reducible apply keeps_ite
    | split)

def touchCalSwap (A : Part → Prop) : Prop := A (.reg R.BIL_CAL_CTRL.ACTIVATE) ∧ A (.reg R.BIL_CAL_CTRL.CAL_OK) ∧ A (.reg R.BIL_CAL_CTRL.ACT_BANK) ∧ A (.reg R.BIL_CAL_DIG.CAL_DIG) ∧ touchLog A
theorem touchCalSwap_all (h : ∀ q, A q) : touchCalSwap A := ⟨h _, h _, h _, h _, touchLog_all h⟩
theorem calSwap_keeps  (hA : touchCalSwap A)  (h : Keeps A s t) : Keeps A s (State.calSwap t) := by
  unfold State.calSwap
  obtain ⟨_, _, _, _, _⟩ := hA
  repeat' (first
    | with_reducible assumption
    | intro y
    | (extract_lets +onlyGivenNames x; first | (refine cut (P := Keeps A s x) ?_ ?_; (on_goal 1 => (unfold x; clear x)); (on_goal 2 => (intro hx; first | clear_value x | skip))) | clear_value x | skip)
    | (with_reducible refine put_keepsAt (by assumption) ?_)
    | (with_reducible refine put_keeps (by assumption) ?_)
    | (with_reducible apply log_keeps (hA := by first | with_reducible assumption | with_reducible apply_assumption))
    | with_reducible apply keeps_ite
    | split
    | refine keeps_ite ?_ ?_)

def touchCalDue (A : Part → Prop) : Prop := touchCalSwap A ∧ touchCalRefuse A
theorem touchCalDue_all (h : ∀ q, A q) : touchCalDue A := ⟨touchCalSwap_all h, touchCalRefuse_all h⟩
theorem calDue_keeps  (hA : touchCalDue A)  (h : Keeps A s t) : Keeps A s (State.calDue t) := by
  unfold State.calDue
  obtain ⟨_, _⟩ := hA
  repeat' (first
    | with_reducible assumption
    | intro y
    | (extract_lets +onlyGivenNames x; first | (refine cut (P := Keeps A s x) ?_ ?_; (on_goal 1 => (unfold x; clear x)); (on_goal 2 => (intro hx; first | clear_value x | skip))) | clear_value x | skip)
    | (with_reducible apply calSwap_keeps (hA := by first | with_reducible assumption | with_reducible apply_assumption))
    | (with_reducible apply calRefuse_keeps (hA := by first | with_reducible assumption | with_reducible apply_assumption))
    | with_reducible apply keeps_ite
    | split
    | refine keeps_ite ?_ ?_)

def touchSecMark (A : Part → Prop) : Prop := A .bil
theorem touchSecMark_all (h : ∀ q, A q) : touchSecMark A := h _
theorem secMark_keeps  (hA : touchSecMark A)  (h : Keeps A s t) : Keeps A s (State.secMark t) := by
  unfold State.secMark
  unfold touchSecMark at hA
  repeat' (first
    | with_reducible assumption
    | intro y
    | (extract_lets +onlyGivenNames x; first | (refine cut (P := Keeps A s x) ?_ ?_; (on_goal 1 => (unfold x; clear x)); (on_goal 2 => (intro hx; first | clear_value x | skip))) | clear_value x | skip)
    | with_reducible apply keeps_ite
    | split
    | refine keeps_ite ?_ ?_
    | with_reducible exact keeps_bil (by assumption) (by assumption))

def touchBilShow (A : Part → Prop) : Prop := A (.reg R.BIL_STORE.SESS_FULL) ∧ A (.reg R.BIL_STORE_PER.PER_N) ∧ A (.reg R.BIL_STORE.SIG_PEND) ∧ A (.reg R.BIL_STORE.SESS_UNACK) ∧ A (.reg R.BIL_STORE.INT_N)
theorem touchBilShow_all (h : ∀ q, A q) : touchBilShow A := ⟨h _, h _, h _, h _, h _⟩
theorem bilShow_keeps  (hA : touchBilShow A)  (h : Keeps A s t) : Keeps A s (State.bilShow t) := by
  unfold State.bilShow
  obtain ⟨_, _, _, _, _⟩ := hA
  repeat' (first
    | with_reducible assumption
    | intro y
    | (extract_lets +onlyGivenNames x; first | (refine cut (P := Keeps A s x) ?_ ?_; (on_goal 1 => (unfold x; clear x)); (on_goal 2 => (intro hx; first | clear_value x | skip))) | clear_value x | skip)
    | (with_reducible refine put_keepsAt (by assumption) ?_)
    | (with_reducible refine put_keeps (by assumption) ?_)
    | (with_reducible refine putb_keepsAt (by assumption) ?_)
    | (with_reducible refine putb_keeps (by assumption) ?_)
    | with_reducible apply keeps_ite
    | split
    | refine keeps_ite ?_ ?_)

def touchMakeRecord (A : Part → Prop) : Prop := touchBilShow A ∧ A .bil
theorem touchMakeRecord_all (h : ∀ q, A q) : touchMakeRecord A := ⟨touchBilShow_all h, h _⟩
theorem makeRecord_keeps {sec : Sys2Proof.Machine.BSec} {kind : ℕ} {p : ℕ} {bt0 : ℕ} {bt1 : ℕ} {flags : ℕ} {body : List ℕ} (hA : touchMakeRecord A)  (h : Keeps A s t) : Keeps A s (State.makeRecord t sec kind p bt0 bt1 flags body) := by
  unfold State.makeRecord
  obtain ⟨_, _⟩ := hA
  repeat' (first
    | with_reducible assumption
    | intro y
    | (extract_lets +onlyGivenNames x; first | (refine cut (P := Keeps A s x) ?_ ?_; (on_goal 1 => (unfold x; clear x)); (on_goal 2 => (intro hx; first | clear_value x | skip))) | clear_value x | skip)
    | (with_reducible apply bilShow_keeps (hA := by first | with_reducible assumption | with_reducible apply_assumption))
    | with_reducible apply keeps_ite
    | split
    | refine keeps_ite ?_ ?_
    | with_reducible exact keeps_bil (by assumption) (by assumption))

def touchRecShow (A : Part → Prop) : Prop := A (.reg R.BIL_REC_DATA.DATA) ∧ A (.reg R.BIL_REC_STAT.LEN) ∧ A (.reg R.BIL_REC_STAT.SIGNED) ∧ A (.reg R.BIL_REC_STAT.PRESENT)
theorem touchRecShow_all (h : ∀ q, A q) : touchRecShow A := ⟨h _, h _, h _, h _⟩
theorem recShow_keeps  (hA : touchRecShow A)  (h : Keeps A s t) : Keeps A s (State.recShow t) := by
  unfold State.recShow
  obtain ⟨_, _, _, _⟩ := hA
  repeat' (first
    | with_reducible assumption
    | intro y
    | (extract_lets +onlyGivenNames x; first | (refine cut (P := Keeps A s x) ?_ ?_; (on_goal 1 => (unfold x; clear x)); (on_goal 2 => (intro hx; first | clear_value x | skip))) | clear_value x | skip)
    | (with_reducible refine put_keepsAt (by assumption) ?_)
    | (with_reducible refine put_keeps (by assumption) ?_)
    | (with_reducible refine putb_keepsAt (by assumption) ?_)
    | (with_reducible refine putb_keeps (by assumption) ?_)
    | with_reducible apply keeps_ite
    | split
    | refine keeps_ite ?_ ?_)

def touchCloseIntPt (A : Part → Prop) (p : Nat) : Prop := touchMakeRecord A ∧ touchSetPt A ∧ A (.inst R.BIL_PT_DEMR.DEM_R p 0) ∧ A (.inst R.BIL_PT_DEMF.DEM_F p 0) ∧ A .bil
theorem touchCloseIntPt_all (h : ∀ q, A q) {p : Nat} : touchCloseIntPt A p := ⟨touchMakeRecord_all h, touchSetPt_all h, h _, h _, h _⟩
theorem closeIntPt_keeps {sec : Sys2Proof.Machine.BSec} {x : Sys2Proof.Machine.BSpan} {len : ℕ} {p : ℕ} (hA : touchCloseIntPt A p)  (h : Keeps A s t) : Keeps A s (State.closeIntPt t sec x len p) := by
  unfold State.closeIntPt
  obtain ⟨_, _, _, _, _⟩ := hA
  repeat' (first
    | with_reducible assumption
    | intro y
    | (extract_lets +onlyGivenNames x; first | (refine cut (P := Keeps A s x) ?_ ?_; (on_goal 1 => (unfold x; clear x)); (on_goal 2 => (intro hx; first | clear_value x | skip))) | clear_value x | skip)
    | (with_reducible refine put_keepsAt (by assumption) ?_)
    | (with_reducible refine put_keeps (by assumption) ?_)
    | (with_reducible apply makeRecord_keeps (hA := by first | with_reducible assumption | with_reducible apply_assumption))
    | (with_reducible apply setPt_keeps (hA := by first | with_reducible assumption | with_reducible apply_assumption))
    | with_reducible apply keeps_ite
    | split
    | refine keeps_ite ?_ ?_
    | with_reducible exact keeps_bil (by assumption) (by assumption))

def touchClosePerPt (A : Part → Prop) : Prop := touchSetPt A ∧ touchMakeRecord A ∧ A .bil
theorem touchClosePerPt_all (h : ∀ q, A q) : touchClosePerPt A := ⟨touchSetPt_all h, touchMakeRecord_all h, h _⟩
theorem closePerPt_keeps {sec : Sys2Proof.Machine.BSec} {x : Sys2Proof.Machine.BSpan} {p : ℕ} (hA : touchClosePerPt A)  (h : Keeps A s t) : Keeps A s (State.closePerPt t sec x p) := by
  unfold State.closePerPt
  obtain ⟨_, _, _⟩ := hA
  repeat' (first
    | with_reducible assumption
    | intro y
    | (extract_lets +onlyGivenNames x; first | (refine cut (P := Keeps A s x) ?_ ?_; (on_goal 1 => (unfold x; clear x)); (on_goal 2 => (intro hx; first | clear_value x | skip))) | clear_value x | skip)
    | (with_reducible apply setPt_keeps (hA := by first | with_reducible assumption | with_reducible apply_assumption))
    | (with_reducible apply makeRecord_keeps (hA := by first | with_reducible assumption | with_reducible apply_assumption))
    | with_reducible apply keeps_ite
    | split
    | refine keeps_ite ?_ ?_
    | with_reducible exact keeps_bil (by assumption) (by assumption))

def touchClosePt (A : Part → Prop) (p : Nat) : Prop := touchCloseIntPt A p ∧ touchClosePerPt A
theorem touchClosePt_all (h : ∀ q, A q) {p : Nat} : touchClosePt A p := ⟨touchCloseIntPt_all h, touchClosePerPt_all h⟩
theorem closePt_keeps {c : Sys2Proof.Machine.BClose} {p : ℕ} (hA : touchClosePt A p)  (h : Keeps A s t) : Keeps A s (State.closePt t c p) := by
  unfold State.closePt
  obtain ⟨_, _⟩ := hA
  repeat' (first
    | with_reducible assumption
    | intro y
    | (extract_lets +onlyGivenNames x; first | (refine cut (P := Keeps A s x) ?_ ?_; (on_goal 1 => (unfold x; clear x)); (on_goal 2 => (intro hx; first | clear_value x | skip))) | clear_value x | skip)
    | (with_reducible apply closeIntPt_keeps (hA := by first | with_reducible assumption | with_reducible apply_assumption))
    | (with_reducible apply closePerPt_keeps (hA := by first | with_reducible assumption | with_reducible apply_assumption))
    | with_reducible apply keeps_ite
    | split
    | refine keeps_ite ?_ ?_)

def touchSettle (A : Part → Prop) (p : Nat) : Prop := touchClosePt A p ∧ A .bil
theorem touchSettle_all (h : ∀ q, A q) {p : Nat} : touchSettle A p := ⟨touchClosePt_all h, h _⟩
theorem settle_keeps {p : ℕ} (hA : touchSettle A p)  (h : Keeps A s t) : Keeps A s (State.settle t p) := by
  unfold State.settle
  obtain ⟨_, _⟩ := hA
  repeat' (first
    | with_reducible assumption
    | intro y
    | (extract_lets +onlyGivenNames x; first | (refine cut (P := Keeps A s x) ?_ ?_; (on_goal 1 => (unfold x; clear x)); (on_goal 2 => (intro hx; first | clear_value x | skip))) | clear_value x | skip)
    | (with_reducible apply closePt_keeps (hA := by first | with_reducible assumption | with_reducible apply_assumption))
    | with_reducible apply keeps_ite
    | split
    | refine keeps_ite ?_ ?_
    | with_reducible exact keeps_bil (by assumption) (by assumption))

def touchBillSettle (A : Part → Prop) (p : Nat) : Prop := touchSettle A p
theorem touchBillSettle_all (h : ∀ q, A q) {p : Nat} : touchBillSettle A p := touchSettle_all h
theorem billSettle_keeps {p : ℕ} {stamp : ℕ} (hA : touchBillSettle A p)  (h : Keeps A s t) : Keeps A s (State.billSettle t p stamp) := by
  unfold State.billSettle
  unfold touchBillSettle at hA
  repeat' (first
    | with_reducible assumption
    | intro y
    | (extract_lets +onlyGivenNames x; first | (refine cut (P := Keeps A s x) ?_ ?_; (on_goal 1 => (unfold x; clear x)); (on_goal 2 => (intro hx; first | clear_value x | skip))) | clear_value x | skip)
    | (with_reducible apply settle_keeps (hA := by first | with_reducible assumption | with_reducible apply_assumption))
    | with_reducible apply keeps_ite
    | split
    | refine keeps_ite ?_ ?_)

def touchSettleAll (A : Part → Prop) : Prop := (∀ x0, touchSettle A x0)
theorem touchSettleAll_all (h : ∀ q, A q) : touchSettleAll A := (fun _ => touchSettle_all h)
theorem settleAll_keeps  (hA : touchSettleAll A)  (h : Keeps A s t) : Keeps A s (State.settleAll t) := by
  unfold State.settleAll
  unfold touchSettleAll at hA
  repeat' (first
    | with_reducible assumption
    | intro y
    | (extract_lets +onlyGivenNames x; first | (refine cut (P := Keeps A s x) ?_ ?_; (on_goal 1 => (unfold x; clear x)); (on_goal 2 => (intro hx; first | clear_value x | skip))) | clear_value x | skip)
    | (with_reducible apply settle_keeps (hA := by first | with_reducible assumption | with_reducible apply_assumption))
    | with_reducible apply keeps_ite
    | with_reducible apply keeps_foldl
    | split
    | refine keeps_ite ?_ ?_)

def touchEndRead (A : Part → Prop) : Prop := A .bil
theorem touchEndRead_all (h : ∀ q, A q) : touchEndRead A := h _
theorem endRead_keeps {p : ℕ} (hA : touchEndRead A)  (h : Keeps A s t) : Keeps A s (State.endRead t p) := by
  unfold State.endRead
  unfold touchEndRead at hA
  repeat' (first
    | with_reducible assumption
    | intro y
    | (extract_lets +onlyGivenNames x; first | (refine cut (P := Keeps A s x) ?_ ?_; (on_goal 1 => (unfold x; clear x)); (on_goal 2 => (intro hx; first | clear_value x | skip))) | clear_value x | skip)
    | with_reducible apply keeps_ite
    | split
    | refine keeps_ite ?_ ?_
    | with_reducible exact keeps_bil (by assumption) (by assumption))

def touchOwe (A : Part → Prop) : Prop := touchEndRead A ∧ A .bil
theorem touchOwe_all (h : ∀ q, A q) : touchOwe A := ⟨touchEndRead_all h, h _⟩
theorem owe_keeps {c : Sys2Proof.Machine.BClose} (hA : touchOwe A)  (h : Keeps A s t) : Keeps A s (State.owe t c) := by
  unfold State.owe
  obtain ⟨_, _⟩ := hA
  repeat' (first
    | with_reducible assumption
    | intro y
    | (extract_lets +onlyGivenNames x; first | (refine cut (P := Keeps A s x) ?_ ?_; (on_goal 1 => (unfold x; clear x)); (on_goal 2 => (intro hx; first | clear_value x | skip))) | clear_value x | skip)
    | (with_reducible apply endRead_keeps (hA := by first | with_reducible assumption | with_reducible apply_assumption))
    | with_reducible apply when_keeps
    | with_reducible apply each_keeps
    | with_reducible apply keeps_ite
    | split
    | refine keeps_ite ?_ ?_
    | with_reducible exact keeps_bil (by assumption) (by assumption))

def touchSessRecord (A : Part → Prop) (p : Nat) : Prop := A .bil ∧ touchMakeRecord A ∧ touchLog A ∧ A (.inst R.BIL_PT_SESS.SESS_WH p 0)
theorem touchSessRecord_all (h : ∀ q, A q) {p : Nat} : touchSessRecord A p := ⟨h _, touchMakeRecord_all h, touchLog_all h, h _⟩
theorem sessRecord_keeps {sec : Sys2Proof.Machine.BSec} {p : ℕ} {x : Sys2Proof.Machine.BSess} {e : Sys2Proof.Machine.Reading} {reason : ℕ} (hA : touchSessRecord A p)  (h : Keeps A s t) : Keeps A s (State.sessRecord t sec p x e reason) := by
  unfold State.sessRecord
  obtain ⟨_, _, _, _⟩ := hA
  repeat' (first
    | with_reducible assumption
    | intro y
    | (extract_lets +onlyGivenNames x; first | (refine cut (P := Keeps A s x) ?_ ?_; (on_goal 1 => (unfold x; clear x)); (on_goal 2 => (intro hx; first | clear_value x | skip))) | clear_value x | skip)
    | (with_reducible refine put_keepsAt (by assumption) ?_)
    | (with_reducible refine put_keeps (by assumption) ?_)
    | (with_reducible apply makeRecord_keeps (hA := by first | with_reducible assumption | with_reducible apply_assumption))
    | (with_reducible apply log_keeps (hA := by first | with_reducible assumption | with_reducible apply_assumption))
    | with_reducible apply keeps_ite
    | split
    | refine keeps_ite ?_ ?_
    | with_reducible exact keeps_bil (by assumption) (by assumption))

def touchBillSample (A : Part → Prop) (p : Nat) : Prop := A .bil ∧ touchSetPt A ∧ A (.inst R.BIL_PT_SESS.SESS_WH p 0) ∧ touchSessRecord A p
theorem touchBillSample_all (h : ∀ q, A q) {p : Nat} : touchBillSample A p := ⟨h _, touchSetPt_all h, h _, touchSessRecord_all h⟩
theorem billSample_keeps {p : ℕ} {stamp : ℕ} {old : Sys2Proof.Machine.PtAcc} {new : Sys2Proof.Machine.PtAcc} (hA : touchBillSample A p)  (h : Keeps A s t) : Keeps A s (State.billSample t p stamp old new) := by
  unfold State.billSample
  obtain ⟨_, _, _, _⟩ := hA
  repeat' (first
    | with_reducible assumption
    | intro y
    | (extract_lets +onlyGivenNames x; first | (refine cut (P := Keeps A s x) ?_ ?_; (on_goal 1 => (unfold x; clear x)); (on_goal 2 => (intro hx; first | clear_value x | skip))) | clear_value x | skip)
    | (with_reducible refine put_keepsAt (by assumption) ?_)
    | (with_reducible refine put_keeps (by assumption) ?_)
    | (with_reducible apply setPt_keeps (hA := by first | with_reducible assumption | with_reducible apply_assumption))
    | (with_reducible apply sessRecord_keeps (hA := by first | with_reducible assumption | with_reducible apply_assumption))
    | with_reducible apply when_keeps
    | with_reducible apply keeps_ite
    | split
    | refine keeps_ite ?_ ?_
    | with_reducible exact keeps_bil (by assumption) (by assumption))

def touchBillOpen (A : Part → Prop) : Prop := touchLog A ∧ A (.reg R.BIL_STORE.SESS_FULL) ∧ touchSetPt A ∧ A .bil
theorem touchBillOpen_all (h : ∀ q, A q) : touchBillOpen A := ⟨touchLog_all h, h _, touchSetPt_all h, h _⟩
theorem billOpen_keeps {p : ℕ} {conn : ℕ} {id : ℕ} {ident : List ℕ} {stamp : ℕ} (hA : touchBillOpen A)  (h : Keeps A s t) : Keeps A s (State.billOpen t p conn id ident stamp).2 := by
  unfold State.billOpen
  obtain ⟨_, _, _, _⟩ := hA
  repeat' (first
    | with_reducible assumption
    | intro y
    | (extract_lets +onlyGivenNames x; first | (refine cut (P := Keeps A s x) ?_ ?_; (on_goal 1 => (unfold x; clear x)); (on_goal 2 => (intro hx; first | clear_value x | skip))) | clear_value x | skip)
    | (with_reducible refine put_keepsAt (by assumption) ?_)
    | (with_reducible refine put_keeps (by assumption) ?_)
    | (with_reducible apply log_keeps (hA := by first | with_reducible assumption | with_reducible apply_assumption))
    | (with_reducible apply setPt_keeps (hA := by first | with_reducible assumption | with_reducible apply_assumption))
    | with_reducible apply keeps_ite
    | with_reducible apply keeps_ite2
    | with_reducible apply keeps_ite3
    | split
    | refine keeps_ite ?_ ?_
    | with_reducible exact keeps_bil (by assumption) (by assumption))

def touchBillEnd (A : Part → Prop) : Prop := A .bil
theorem touchBillEnd_all (h : ∀ q, A q) : touchBillEnd A := h _
theorem billEnd_keeps {p : ℕ} {reason : ℕ} {stamp : ℕ} (hA : touchBillEnd A)  (h : Keeps A s t) : Keeps A s (State.billEnd t p reason stamp) := by
  unfold State.billEnd
  unfold touchBillEnd at hA
  repeat' (first
    | with_reducible assumption
    | intro y
    | (extract_lets +onlyGivenNames x; first | (refine cut (P := Keeps A s x) ?_ ?_; (on_goal 1 => (unfold x; clear x)); (on_goal 2 => (intro hx; first | clear_value x | skip))) | clear_value x | skip)
    | with_reducible apply keeps_ite
    | split
    | with_reducible exact keeps_bil (by assumption) (by assumption))

def touchBillClose (A : Part → Prop) : Prop := touchSettleAll A ∧ (∀ x0, touchSessRecord A x0) ∧ touchLog A
theorem touchBillClose_all (h : ∀ q, A q) : touchBillClose A := ⟨touchSettleAll_all h, (fun _ => touchSessRecord_all h), touchLog_all h⟩
theorem billClose_keeps  (hA : touchBillClose A)  (h : Keeps A s t) : Keeps A s (State.billClose t) := by
  unfold State.billClose
  obtain ⟨_, _, _⟩ := hA
  repeat' (first
    | with_reducible assumption
    | intro y
    | (extract_lets +onlyGivenNames x; first | (refine cut (P := Keeps A s x) ?_ ?_; (on_goal 1 => (unfold x; clear x)); (on_goal 2 => (intro hx; first | clear_value x | skip))) | clear_value x | skip)
    | (with_reducible apply settleAll_keeps (hA := by first | with_reducible assumption | with_reducible apply_assumption))
    | (with_reducible apply sessRecord_keeps (hA := by first | with_reducible assumption | with_reducible apply_assumption))
    | (with_reducible apply log_keeps (hA := by first | with_reducible assumption | with_reducible apply_assumption))
    | with_reducible apply keeps_ite
    | with_reducible apply keeps_foldl
    | split
    | refine keeps_ite ?_ ?_)

def touchSessAck (A : Part → Prop) : Prop := A .bil ∧ A (.reg R.BIL_SESS_ACK.ACK_NUM) ∧ touchBilShow A ∧ A (.reg R.BIL_STORE.SESS_FULL)
theorem touchSessAck_all (h : ∀ q, A q) : touchSessAck A := ⟨h _, h _, touchBilShow_all h, h _⟩
theorem sessAck_keeps {n : ℕ} (hA : touchSessAck A)  (h : Keeps A s t) : Keeps A s (State.sessAck t n) := by
  unfold State.sessAck
  obtain ⟨_, _, _, _⟩ := hA
  repeat' (first
    | with_reducible assumption
    | intro y
    | (extract_lets +onlyGivenNames x; first | (refine cut (P := Keeps A s x) ?_ ?_; (on_goal 1 => (unfold x; clear x)); (on_goal 2 => (intro hx; first | clear_value x | skip))) | clear_value x | skip)
    | (with_reducible refine put_keepsAt (by assumption) ?_)
    | (with_reducible refine put_keeps (by assumption) ?_)
    | (with_reducible apply bilShow_keeps (hA := by first | with_reducible assumption | with_reducible apply_assumption))
    | with_reducible apply keeps_ite
    | split
    | refine keeps_ite ?_ ?_
    | with_reducible exact keeps_bil (by assumption) (by assumption))

def touchRtcSync (A : Part → Prop) : Prop := A (.reg R.BIL_SYNC.SYNC_AGE) ∧ A (.reg R.SYS_TIME_STAT.RTC_SET) ∧ A (.reg R.SYS_RTC.UTC) ∧ touchLog A ∧ A .bil ∧ A (.reg R.BIL_STAT.CLK_VALID) ∧ A (.reg R.BIL_STAT.CLK_ST) ∧ touchSecMark A
theorem touchRtcSync_all (h : ∀ q, A q) : touchRtcSync A := ⟨h _, h _, h _, touchLog_all h, h _, h _, h _, touchSecMark_all h⟩
theorem rtcSync_keeps {utc : ℕ} (hA : touchRtcSync A)  (h : Keeps A s t) : Keeps A s (State.rtcSync t utc) := by
  unfold State.rtcSync
  obtain ⟨_, _, _, _, _, _, _, _⟩ := hA
  repeat' (first
    | with_reducible assumption
    | intro y
    | (extract_lets +onlyGivenNames x; first | (refine cut (P := Keeps A s x) ?_ ?_; (on_goal 1 => (unfold x; clear x)); (on_goal 2 => (intro hx; first | clear_value x | skip))) | clear_value x | skip)
    | (with_reducible refine put_keepsAt (by assumption) ?_)
    | (with_reducible refine put_keeps (by assumption) ?_)
    | (with_reducible apply log_keeps (hA := by first | with_reducible assumption | with_reducible apply_assumption))
    | (with_reducible apply secMark_keeps (hA := by first | with_reducible assumption | with_reducible apply_assumption))
    | with_reducible apply when_keeps
    | with_reducible apply keeps_ite
    | split
    | refine keeps_ite ?_ ?_
    | with_reducible exact keeps_bil (by assumption) (by assumption))

def touchMetCommit (A : Part → Prop) : Prop := A .met ∧ A .bilCom ∧ touchSettleAll A
theorem touchMetCommit_all (h : ∀ q, A q) : touchMetCommit A := ⟨h _, h _, touchSettleAll_all h⟩
theorem metCommit_keeps {closing : Bool} (hA : touchMetCommit A)  (h : Keeps A s t) : Keeps A s (State.metCommit t closing) := by
  unfold State.metCommit
  obtain ⟨_, _, _⟩ := hA
  repeat' (first
    | with_reducible assumption
    | intro y
    | (extract_lets +onlyGivenNames x; first | (refine cut (P := Keeps A s x) ?_ ?_; (on_goal 1 => (unfold x; clear x)); (on_goal 2 => (intro hx; first | clear_value x | skip))) | clear_value x | skip)
    | (with_reducible apply settleAll_keeps (hA := by first | with_reducible assumption | with_reducible apply_assumption))
    | with_reducible apply keeps_ite
    | split
    | refine keeps_ite ?_ ?_
    | with_reducible exact keeps_met_bilCom (by assumption) (by assumption) (by assumption))

def touchMetClose (A : Part → Prop) : Prop := A (.reg R.MET_STAT.ACC) ∧ A .met ∧ touchLog A
theorem touchMetClose_all (h : ∀ q, A q) : touchMetClose A := ⟨h _, h _, touchLog_all h⟩
theorem metClose_keeps  (hA : touchMetClose A)  (h : Keeps A s t) : Keeps A s (State.metClose t) := by
  unfold State.metClose
  obtain ⟨_, _, _⟩ := hA
  repeat' (first
    | with_reducible assumption
    | intro y
    | (extract_lets +onlyGivenNames x; first | (refine cut (P := Keeps A s x) ?_ ?_; (on_goal 1 => (unfold x; clear x)); (on_goal 2 => (intro hx; first | clear_value x | skip))) | clear_value x | skip)
    | (with_reducible refine put_keepsAt (by assumption) ?_)
    | (with_reducible refine put_keeps (by assumption) ?_)
    | (with_reducible apply log_keeps (hA := by first | with_reducible assumption | with_reducible apply_assumption))
    | with_reducible apply when_keeps
    | with_reducible apply keeps_ite
    | split
    | refine keeps_ite ?_ ?_
    | with_reducible exact keeps_met (by assumption) (by assumption))

def touchMetRestore (A : Part → Prop) : Prop := (∀ x0, touchShowPt A x0) ∧ touchSetPt A ∧ A .met ∧ A .pins ∧ A .bil ∧ touchMetShow A ∧ A (.reg R.MET_STAT.HOLD_WAIT) ∧ A (.reg R.MET_STAT.ACC)
theorem touchMetRestore_all (h : ∀ q, A q) : touchMetRestore A := ⟨(fun _ => touchShowPt_all h), touchSetPt_all h, h _, h _, h _, touchMetShow_all h, h _, h _⟩
theorem metRestore_keeps  (hA : touchMetRestore A)  (h : Keeps A s t) : Keeps A s (State.metRestore t) := by
  unfold State.metRestore
  obtain ⟨_, _, _, _, _, _, _, _⟩ := hA
  repeat' (first
    | with_reducible assumption
    | intro y
    | (extract_lets +onlyGivenNames x; first | (refine cut (P := Keeps A s x) ?_ ?_; (on_goal 1 => (unfold x; clear x)); (on_goal 2 => (intro hx; first | clear_value x | skip))) | clear_value x | skip)
    | (with_reducible refine put_keepsAt (by assumption) ?_)
    | (with_reducible refine put_keeps (by assumption) ?_)
    | (with_reducible apply showPt_keeps (hA := by first | with_reducible assumption | with_reducible apply_assumption))
    | (with_reducible apply setPt_keeps (hA := by first | with_reducible assumption | with_reducible apply_assumption))
    | (with_reducible apply metShow_keeps (hA := by first | with_reducible assumption | with_reducible apply_assumption))
    | with_reducible apply keeps_ite
    | with_reducible apply keeps_foldl
    | split
    | refine keeps_ite ?_ ?_
    | with_reducible exact keeps_met (by assumption) (by assumption)
    | with_reducible exact keeps_pins_met_bil (by assumption) (by assumption) (by assumption) (by assumption))

def touchDispFrame (A : Part → Prop) : Prop := A (.reg R.BIL_DISP_STAT.DEFAULT_SEQ) ∧ touchLog A ∧ touchEmit A ∧ A .bil
theorem touchDispFrame_all (h : ∀ q, A q) : touchDispFrame A := ⟨h _, touchLog_all h, touchEmit_all h, h _⟩
theorem dispFrame_keeps  (hA : touchDispFrame A)  (h : Keeps A s t) : Keeps A s (State.dispFrame t) := by
  unfold State.dispFrame
  obtain ⟨_, _, _, _⟩ := hA
  repeat' (first
    | with_reducible assumption
    | intro y
    | (extract_lets +onlyGivenNames x; first | (refine cut (P := Keeps A s x) ?_ ?_; (on_goal 1 => (unfold x; clear x)); (on_goal 2 => (intro hx; first | clear_value x | skip))) | (refine cut (P := Keeps A s x.2) ?_ ?_; (on_goal 1 => (unfold x; clear x)); (on_goal 2 => (intro hx; first | clear_value x | skip))) | (refine cut (P := Keeps A s x.2.2) ?_ ?_; (on_goal 1 => (unfold x; clear x)); (on_goal 2 => (intro hx; first | clear_value x | skip))) | clear_value x | skip)
    | (with_reducible refine put_keepsAt (by assumption) ?_)
    | (with_reducible refine put_keeps (by assumption) ?_)
    | (with_reducible apply log_keeps (hA := by first | with_reducible assumption | with_reducible apply_assumption))
    | (with_reducible apply emit_keeps (hA := by first | with_reducible assumption | with_reducible apply_assumption))
    | with_reducible apply keeps_ite
    | with_reducible apply keeps_ite2
    | with_reducible apply keeps_ite3
    | split
    | refine keeps_ite ?_ ?_
    | with_reducible exact keeps_bil (by assumption) (by assumption))

def touchNextPage (A : Part → Prop) : Prop := touchDispFrame A ∧ A (.reg R.BIL_DISP_STAT.PAGE)
theorem touchNextPage_all (h : ∀ q, A q) : touchNextPage A := ⟨touchDispFrame_all h, h _⟩
theorem nextPage_keeps  (hA : touchNextPage A)  (h : Keeps A s t) : Keeps A s (State.nextPage t) := by
  unfold State.nextPage
  obtain ⟨_, _⟩ := hA
  repeat' (first
    | with_reducible assumption
    | intro y
    | (extract_lets +onlyGivenNames x; first | (refine cut (P := Keeps A s x) ?_ ?_; (on_goal 1 => (unfold x; clear x)); (on_goal 2 => (intro hx; first | clear_value x | skip))) | clear_value x | skip)
    | (with_reducible apply dispFrame_keeps (hA := by first | with_reducible assumption | with_reducible apply_assumption))
    | (with_reducible refine put_keepsAt (by assumption) ?_)
    | (with_reducible refine put_keeps (by assumption) ?_)
    | with_reducible apply keeps_ite
    | split
    | refine keeps_ite ?_ ?_)

end Sys2Proof.Laws
end

