-- ==== Sys2Proof/Laws/KeepsLaneOps.lean ====
section
/-! SUPPORT. What the operations of Machine/LaneOps.lean leave alone: for each the parts it may change (`touch…`) and its lemma. -/

namespace Sys2Proof.Laws

open Sys2Proof.Machine

set_option linter.unusedTactic false
set_option linter.unreachableTactic false
set_option linter.unusedVariables false
set_option linter.tactic.unusedName false

variable {A : Part → Prop} {s t : State}

def touchSetLane (A : Part → Prop) : Prop := A .fab
theorem touchSetLane_all (h : ∀ q, A q) : touchSetLane A := h _
theorem setLane_keeps {n : ℕ} {x : Sys2Proof.Machine.LaneX} (hA : touchSetLane A)  (h : Keeps A s t) : Keeps A s (State.setLane t n x) := by
  unfold State.setLane
  unfold touchSetLane at hA
  repeat' (first
    | with_reducible assumption
    | intro y
    | (extract_lets +onlyGivenNames x; first | (refine cut (P := Keeps A s x) ?_ ?_; (on_goal 1 => (unfold x; clear x)); (on_goal 2 => (intro hx; first | clear_value x | skip))) | clear_value x | skip)
    | with_reducible apply keeps_ite
    | split
    | refine keeps_ite ?_ ?_
    | with_reducible exact keeps_fab (by assumption) (by assumption))

def touchSetDir (A : Part → Prop) (l : Nat) : Prop := A .fab ∧ A (.inst R.FAB_LANE_STAT.DIR l 0)
theorem touchSetDir_all (h : ∀ q, A q) {l : Nat} : touchSetDir A l := ⟨h _, h _⟩
theorem setDir_keeps {l : ℕ} {d : ℕ} (hA : touchSetDir A l)  (h : Keeps A s t) : Keeps A s (State.setDir t l d) := by
  unfold State.setDir
  obtain ⟨_, _⟩ := hA
  repeat' (first
    | with_reducible assumption
    | intro y
    | (extract_lets +onlyGivenNames x; first | (refine cut (P := Keeps A s x) ?_ ?_; (on_goal 1 => (unfold x; clear x)); (on_goal 2 => (intro hx; first | clear_value x | skip))) | clear_value x | skip)
    | (with_reducible refine put_keepsAt (by assumption) ?_)
    | (with_reducible refine put_keeps (by assumption) ?_)
    | with_reducible apply keeps_ite
    | split
    | with_reducible exact keeps_fab (by assumption) (by assumption))

def touchSetParent (A : Part → Prop) : Prop := A .fab ∧ A (.reg R.FAB_LANE_STAT.TPARENT)
theorem touchSetParent_all (h : ∀ q, A q) : touchSetParent A := ⟨h _, h _⟩
theorem setParent_keeps  (hA : touchSetParent A)  (h : Keeps A s t) : Keeps A s (State.setParent t) := by
  unfold State.setParent
  obtain ⟨_, _⟩ := hA
  repeat' (first
    | with_reducible assumption
    | intro y
    | (extract_lets +onlyGivenNames x; first | (refine cut (P := Keeps A s x) ?_ ?_; (on_goal 1 => (unfold x; clear x)); (on_goal 2 => (intro hx; first | clear_value x | skip))) | clear_value x | skip)
    | with_reducible apply each_keeps
    | (with_reducible refine putb_keepsAt (by assumption) ?_)
    | (with_reducible refine putb_keeps (by assumption) ?_)
    | with_reducible apply keeps_ite
    | split
    | refine keeps_ite ?_ ?_
    | with_reducible exact keeps_fab (by assumption) (by assumption))

def touchDiscard (A : Part → Prop) : Prop := A .fab ∧ A (.reg R.FAB_DROP0.STALL) ∧ A (.reg R.FAB_DROP0.EPOCH) ∧ A (.reg R.FAB_DROP0.UNREACH) ∧ A (.reg R.FAB_DROP0.HOPORI) ∧ A (.reg R.FAB_DROP1.RSP_DROP) ∧ touchLog A
theorem touchDiscard_all (h : ∀ q, A q) : touchDiscard A := ⟨h _, h _, h _, h _, h _, h _, touchLog_all h⟩
theorem discard_keeps {k : ℕ} (hA : touchDiscard A)  (h : Keeps A s t) : Keeps A s (State.discard t k) := by
  unfold State.discard
  obtain ⟨_, _, _, _, _, _, _⟩ := hA
  repeat' (first
    | with_reducible assumption
    | intro y
    | (extract_lets +onlyGivenNames x; first | (refine cut (P := Keeps A s x) ?_ ?_; (on_goal 1 => (unfold x; clear x)); (on_goal 2 => (intro hx; first | clear_value x | skip))) | clear_value x | skip)
    | (with_reducible refine inc_keepsAt (by assumption) ?_)
    | (with_reducible refine inc_keeps (by assumption) ?_)
    | (with_reducible apply log_keeps (hA := by first | with_reducible assumption | with_reducible apply_assumption))
    | with_reducible apply keeps_ite
    | split
    | refine keeps_ite ?_ ?_
    | with_reducible exact keeps_fab (by assumption) (by assumption))

def touchSetPlc (A : Part → Prop) : Prop := A .plc
theorem touchSetPlc_all (h : ∀ q, A q) : touchSetPlc A := h _
theorem setPlc_keeps {n : ℕ} {x0 : Sys2Proof.Machine.PlcLink} (hA : touchSetPlc A)  (h : Keeps A s t) : Keeps A s (State.setPlc t n x0) := by
  unfold State.setPlc
  unfold touchSetPlc at hA
  repeat' (first
    | with_reducible assumption
    | intro y
    | (extract_lets +onlyGivenNames x; first | (refine cut (P := Keeps A s x) ?_ ?_; (on_goal 1 => (unfold x; clear x)); (on_goal 2 => (intro hx; first | clear_value x | skip))) | clear_value x | skip)
    | with_reducible apply keeps_ite
    | split
    | with_reducible exact keeps_plc (by assumption) (by assumption))

def touchPlcLearn (A : Part → Prop) : Prop := A .plc
theorem touchPlcLearn_all (h : ∀ q, A q) : touchPlcLearn A := h _
theorem plcLearn_keeps {stn : ℕ} {f : Sys2Proof.FabFrame} (hA : touchPlcLearn A)  (h : Keeps A s t) : Keeps A s (State.plcLearn t stn f) := by
  unfold State.plcLearn
  unfold touchPlcLearn at hA
  repeat' (first
    | with_reducible assumption
    | intro y
    | (extract_lets +onlyGivenNames x; first | (refine cut (P := Keeps A s x) ?_ ?_; (on_goal 1 => (unfold x; clear x)); (on_goal 2 => (intro hx; first | clear_value x | skip))) | clear_value x | skip)
    | with_reducible apply keeps_ite
    | split
    | refine keeps_ite ?_ ?_
    | with_reducible exact keeps_plc (by assumption) (by assumption))

def touchPlcQueue (A : Part → Prop) : Prop := touchSetPlc A
theorem touchPlcQueue_all (h : ∀ q, A q) : touchPlcQueue A := touchSetPlc_all h
theorem plcQueue_keeps {n : ℕ} {f : Sys2Proof.FabFrame} (hA : touchPlcQueue A)  (h : Keeps A s t) : Keeps A s (State.plcQueue t n f) := by
  unfold State.plcQueue
  unfold touchPlcQueue at hA
  repeat' (first
    | with_reducible assumption
    | intro y
    | (extract_lets +onlyGivenNames x; first | (refine cut (P := Keeps A s x) ?_ ?_; (on_goal 1 => (unfold x; clear x)); (on_goal 2 => (intro hx; first | clear_value x | skip))) | clear_value x | skip)
    | (with_reducible apply setPlc_keeps (hA := by first | with_reducible assumption | with_reducible apply_assumption))
    | with_reducible apply keeps_ite
    | split
    | refine keeps_ite ?_ ?_)

def touchLaneServe (A : Part → Prop) : Prop := touchDiscard A ∧ touchSetLane A ∧ touchEmit A
theorem touchLaneServe_all (h : ∀ q, A q) : touchLaneServe A := ⟨touchDiscard_all h, touchSetLane_all h, touchEmit_all h⟩
theorem laneServe_keeps {l : ℕ} (hA : touchLaneServe A)  (h : Keeps A s t) : Keeps A s (State.laneServe t l) := by
  unfold State.laneServe
  obtain ⟨_, _, _⟩ := hA
  repeat' (first
    | with_reducible assumption
    | intro y
    | (extract_lets +onlyGivenNames x; first | (refine cut (P := Keeps A s x) ?_ ?_; (on_goal 1 => (unfold x; clear x)); (on_goal 2 => (intro hx; first | clear_value x | skip))) | clear_value x | skip)
    | (with_reducible apply discard_keeps (hA := by first | with_reducible assumption | with_reducible apply_assumption))
    | (with_reducible apply setLane_keeps (hA := by first | with_reducible assumption | with_reducible apply_assumption))
    | (with_reducible apply emit_keeps (hA := by first | with_reducible assumption | with_reducible apply_assumption))
    | with_reducible apply keeps_ite
    | split
    | refine keeps_ite ?_ ?_)

def touchSendOn (A : Part → Prop) : Prop := touchDiscard A ∧ A (.reg R.FAB_DROP1.URG_DEMOTE) ∧ touchPlcQueue A ∧ touchLaneServe A ∧ touchSetLane A
theorem touchSendOn_all (h : ∀ q, A q) : touchSendOn A := ⟨touchDiscard_all h, h _, touchPlcQueue_all h, touchLaneServe_all h, touchSetLane_all h⟩
theorem sendOn_keeps {f : Sys2Proof.FabFrame} {l : ℕ} {urgent : ℕ} {src : ℕ} (hA : touchSendOn A)  (h : Keeps A s t) : Keeps A s (State.sendOn t f l urgent src) := by
  unfold State.sendOn
  obtain ⟨_, _, _, _, _⟩ := hA
  repeat' (first
    | with_reducible assumption
    | intro y
    | (extract_lets +onlyGivenNames x; first | (refine cut (P := Keeps A s x) ?_ ?_; (on_goal 1 => (unfold x; clear x)); (on_goal 2 => (intro hx; first | clear_value x | skip))) | clear_value x | skip)
    | (with_reducible refine inc_keepsAt (by assumption) ?_)
    | (with_reducible refine inc_keeps (by assumption) ?_)
    | (with_reducible apply discard_keeps (hA := by first | with_reducible assumption | with_reducible apply_assumption))
    | (with_reducible apply plcQueue_keeps (hA := by first | with_reducible assumption | with_reducible apply_assumption))
    | (with_reducible apply laneServe_keeps (hA := by first | with_reducible assumption | with_reducible apply_assumption))
    | (with_reducible apply setLane_keeps (hA := by first | with_reducible assumption | with_reducible apply_assumption))
    | with_reducible apply when_keeps
    | with_reducible apply keeps_ite
    | split
    | refine keeps_ite ?_ ?_)

def touchDeliver (A : Part → Prop) : Prop := touchDiscard A ∧ touchEmit A ∧ touchLog A ∧ A .fab
theorem touchDeliver_all (h : ∀ q, A q) : touchDeliver A := ⟨touchDiscard_all h, touchEmit_all h, touchLog_all h, h _⟩
theorem deliver_keeps {f : Sys2Proof.FabFrame} {ep : ℕ} {pending : ℕ} (hA : touchDeliver A)  (h : Keeps A s t) : Keeps A s (State.deliver t f ep pending) := by
  unfold State.deliver
  obtain ⟨_, _, _, _⟩ := hA
  repeat' (first
    | with_reducible assumption
    | intro y
    | (extract_lets +onlyGivenNames x; first | (refine cut (P := Keeps A s x) ?_ ?_; (on_goal 1 => (unfold x; clear x)); (on_goal 2 => (intro hx; first | clear_value x | skip))) | clear_value x | skip)
    | (with_reducible apply discard_keeps (hA := by first | with_reducible assumption | with_reducible apply_assumption))
    | (with_reducible apply emit_keeps (hA := by first | with_reducible assumption | with_reducible apply_assumption))
    | (with_reducible apply log_keeps (hA := by first | with_reducible assumption | with_reducible apply_assumption))
    | with_reducible apply keeps_ite
    | split
    | refine keeps_ite ?_ ?_
    | with_reducible exact keeps_fab (by assumption) (by assumption))

def touchByEntry (A : Part → Prop) : Prop := touchDiscard A ∧ touchSendOn A
theorem touchByEntry_all (h : ∀ q, A q) : touchByEntry A := ⟨touchDiscard_all h, touchSendOn_all h⟩
theorem byEntry_keeps {bank : ℕ} {f : Sys2Proof.FabFrame} {urgent : ℕ} {src : ℕ} (hA : touchByEntry A)  (h : Keeps A s t) : Keeps A s (State.byEntry t bank f urgent src) := by
  unfold State.byEntry
  obtain ⟨_, _⟩ := hA
  repeat' (first
    | with_reducible assumption
    | intro y
    | (extract_lets +onlyGivenNames x; first | (refine cut (P := Keeps A s x) ?_ ?_; (on_goal 1 => (unfold x; clear x)); (on_goal 2 => (intro hx; first | clear_value x | skip))) | clear_value x | skip)
    | (with_reducible apply discard_keeps (hA := by first | with_reducible assumption | with_reducible apply_assumption))
    | (with_reducible apply sendOn_keeps (hA := by first | with_reducible assumption | with_reducible apply_assumption))
    | with_reducible apply keeps_ite
    | split
    | refine keeps_ite ?_ ?_)

def touchRouteFrame (A : Part → Prop) : Prop := touchDiscard A ∧ touchDeliver A ∧ touchByEntry A ∧ touchSendOn A
theorem touchRouteFrame_all (h : ∀ q, A q) : touchRouteFrame A := ⟨touchDiscard_all h, touchDeliver_all h, touchByEntry_all h, touchSendOn_all h⟩
theorem routeFrame_keeps {f : Sys2Proof.FabFrame} {urgent : ℕ} {pending : ℕ} {src : ℕ} (hA : touchRouteFrame A)  (h : Keeps A s t) : Keeps A s (State.routeFrame t f urgent pending src) := by
  unfold State.routeFrame
  obtain ⟨_, _, _, _⟩ := hA
  repeat' (first
    | with_reducible assumption
    | intro y
    | (extract_lets +onlyGivenNames x; first | (refine cut (P := Keeps A s x) ?_ ?_; (on_goal 1 => (unfold x; clear x)); (on_goal 2 => (intro hx; first | clear_value x | skip))) | clear_value x | skip)
    | (with_reducible apply discard_keeps (hA := by first | with_reducible assumption | with_reducible apply_assumption))
    | (with_reducible apply deliver_keeps (hA := by first | with_reducible assumption | with_reducible apply_assumption))
    | (with_reducible apply byEntry_keeps (hA := by first | with_reducible assumption | with_reducible apply_assumption))
    | (with_reducible apply sendOn_keeps (hA := by first | with_reducible assumption | with_reducible apply_assumption))
    | with_reducible apply keeps_ite
    | with_reducible apply keeps_foldl
    | split
    | refine keeps_ite ?_ ?_)

def touchReRoute (A : Part → Prop) : Prop := touchDiscard A ∧ touchByEntry A
theorem touchReRoute_all (h : ∀ q, A q) : touchReRoute A := ⟨touchDiscard_all h, touchByEntry_all h⟩
theorem reRoute_keeps {f : Sys2Proof.FabFrame} {dir : ℕ} {src : ℕ} (hA : touchReRoute A)  (h : Keeps A s t) : Keeps A s (State.reRoute t f dir src) := by
  unfold State.reRoute
  obtain ⟨_, _⟩ := hA
  repeat' (first
    | with_reducible assumption
    | intro y
    | (extract_lets +onlyGivenNames x; first | (refine cut (P := Keeps A s x) ?_ ?_; (on_goal 1 => (unfold x; clear x)); (on_goal 2 => (intro hx; first | clear_value x | skip))) | clear_value x | skip)
    | (with_reducible apply discard_keeps (hA := by first | with_reducible assumption | with_reducible apply_assumption))
    | (with_reducible apply byEntry_keeps (hA := by first | with_reducible assumption | with_reducible apply_assumption))
    | with_reducible apply keeps_ite
    | split
    | refine keeps_ite ?_ ?_)

def touchOwnRoute (A : Part → Prop) : Prop := touchFree A ∧ touchSendOn A ∧ touchRouteFrame A
theorem touchOwnRoute_all (h : ∀ q, A q) : touchOwnRoute A := ⟨touchFree_all h, touchSendOn_all h, touchRouteFrame_all h⟩
theorem ownRoute_keeps {urgent : Bool} {k : Sys2Proof.Machine.Sent} {dst : ℕ} {data : List ℕ} (hA : touchOwnRoute A)  (h : Keeps A s t) : Keeps A s (State.ownRoute t urgent k dst data) := by
  unfold State.ownRoute
  obtain ⟨_, _, _⟩ := hA
  repeat' (first
    | with_reducible assumption
    | intro y
    | (extract_lets +onlyGivenNames x; first | (refine cut (P := Keeps A s x) ?_ ?_; (on_goal 1 => (unfold x; clear x)); (on_goal 2 => (intro hx; first | clear_value x | skip))) | (refine cut (P := Keeps A s x.2) ?_ ?_; (on_goal 1 => (unfold x; clear x)); (on_goal 2 => (intro hx; first | clear_value x | skip))) | (refine cut (P := Keeps A s x.2.2) ?_ ?_; (on_goal 1 => (unfold x; clear x)); (on_goal 2 => (intro hx; first | clear_value x | skip))) | clear_value x | skip)
    | (with_reducible apply free_keeps (hA := by first | with_reducible assumption | with_reducible apply_assumption))
    | (with_reducible apply sendOn_keeps (hA := by first | with_reducible assumption | with_reducible apply_assumption))
    | (with_reducible apply routeFrame_keeps (hA := by first | with_reducible assumption | with_reducible apply_assumption))
    | with_reducible apply keeps_ite
    | with_reducible apply keeps_ite2
    | with_reducible apply keeps_ite3
    | split
    | refine keeps_ite ?_ ?_)

def touchSrcSend (A : Part → Prop) : Prop := A .fab ∧ touchEmit A ∧ touchOwnRoute A
theorem touchSrcSend_all (h : ∀ q, A q) : touchSrcSend A := ⟨h _, touchEmit_all h, touchOwnRoute_all h⟩
theorem srcSend_keeps {urgent : Bool} {k : Sys2Proof.Machine.Sent} {dst : ℕ} {data : List ℕ} (hA : touchSrcSend A)  (h : Keeps A s t) : Keeps A s (State.srcSend t urgent k dst data) := by
  unfold State.srcSend
  obtain ⟨_, _, _⟩ := hA
  repeat' (first
    | with_reducible assumption
    | intro y
    | (extract_lets +onlyGivenNames x; first | (refine cut (P := Keeps A s x) ?_ ?_; (on_goal 1 => (unfold x; clear x)); (on_goal 2 => (intro hx; first | clear_value x | skip))) | clear_value x | skip)
    | (with_reducible apply emit_keeps (hA := by first | with_reducible assumption | with_reducible apply_assumption))
    | (with_reducible apply ownRoute_keeps (hA := by first | with_reducible assumption | with_reducible apply_assumption))
    | with_reducible apply keeps_ite
    | split
    | refine keeps_ite ?_ ?_
    | with_reducible exact keeps_fab (by assumption) (by assumption))

end Sys2Proof.Laws
end

