-- ==== Sys2Proof/Laws/KeepsLaunchOps.lean ====
section
/-! SUPPORT. What the operations of Machine/LaunchOps.lean leave alone: for each the parts it may change (`touch…`) and its lemma. -/

namespace Sys2Proof.Laws

open Sys2Proof.Machine

set_option linter.unusedTactic false
set_option linter.unreachableTactic false
set_option linter.unusedVariables false
set_option linter.tactic.unusedName false

variable {A : Part → Prop} {s t : State}

def touchLaRespond (A : Part → Prop) : Prop := touchSrcSend A
theorem touchLaRespond_all (h : ∀ q, A q) : touchLaRespond A := touchSrcSend_all h
theorem laRespond_keeps {src : ℕ} {actId : ℕ} {code : ℕ} (hA : touchLaRespond A)  (h : Keeps A s t) : Keeps A s (State.laRespond t src actId code) := by
  unfold State.laRespond
  unfold touchLaRespond at hA
  repeat' (first
    | with_reducible assumption
    | intro y
    | (extract_lets +onlyGivenNames x; first | (refine cut (P := Keeps A s x) ?_ ?_; (on_goal 1 => (unfold x; clear x)); (on_goal 2 => (intro hx; first | clear_value x | skip))) | clear_value x | skip)
    | (with_reducible apply srcSend_keeps (hA := by first | with_reducible assumption | with_reducible apply_assumption))
    | with_reducible apply keeps_ite
    | split
    | refine keeps_ite ?_ ?_)

def touchLaRefuse (A : Part → Prop) : Prop := touchLog A ∧ A (.reg R.FAB_LA_CNT.REFUSED) ∧ touchLaRespond A
theorem touchLaRefuse_all (h : ∀ q, A q) : touchLaRefuse A := ⟨touchLog_all h, h _, touchLaRespond_all h⟩
theorem laRefuse_keeps {src : ℕ} {ep : ℕ} {actId : ℕ} {code : ℕ} (hA : touchLaRefuse A)  (h : Keeps A s t) : Keeps A s (State.laRefuse t src ep actId code) := by
  unfold State.laRefuse
  obtain ⟨_, _, _⟩ := hA
  repeat' (first
    | with_reducible assumption
    | intro y
    | (with_reducible apply log_keeps (hA := by first | with_reducible assumption | with_reducible apply_assumption))
    | (with_reducible refine inc_keepsAt (by assumption) ?_)
    | (with_reducible refine inc_keeps (by assumption) ?_)
    | (with_reducible apply laRespond_keeps (hA := by first | with_reducible assumption | with_reducible apply_assumption))
    | with_reducible apply keeps_ite
    | split)

def touchLaFinish (A : Part → Prop) : Prop := A .fab ∧ A (.reg R.FAB_LA_CNT.EXEC) ∧ A (.reg R.FAB_LA_CFG.LA_QUSE) ∧ touchLaRespond A ∧ touchLog A
theorem touchLaFinish_all (h : ∀ q, A q) : touchLaFinish A := ⟨h _, h _, h _, touchLaRespond_all h, touchLog_all h⟩
theorem laFinish_keeps {a : Sys2Proof.Machine.La} (hA : touchLaFinish A)  (h : Keeps A s t) : Keeps A s (State.laFinish t a) := by
  unfold State.laFinish
  obtain ⟨_, _, _, _, _⟩ := hA
  repeat' (first
    | with_reducible assumption
    | intro y
    | (extract_lets +onlyGivenNames x; first | (refine cut (P := Keeps A s x) ?_ ?_; (on_goal 1 => (unfold x; clear x)); (on_goal 2 => (intro hx; first | clear_value x | skip))) | clear_value x | skip)
    | (with_reducible refine put_keepsAt (by assumption) ?_)
    | (with_reducible refine put_keeps (by assumption) ?_)
    | (with_reducible refine inc_keepsAt (by assumption) ?_)
    | (with_reducible refine inc_keeps (by assumption) ?_)
    | (with_reducible apply laRespond_keeps (hA := by first | with_reducible assumption | with_reducible apply_assumption))
    | (with_reducible apply log_keeps (hA := by first | with_reducible assumption | with_reducible apply_assumption))
    | with_reducible apply keeps_ite
    | split
    | refine keeps_ite ?_ ?_
    | with_reducible exact keeps_fab (by assumption) (by assumption))

def touchLaRun (A : Part → Prop) : Prop := touchLaFinish A
theorem touchLaRun_all (h : ∀ q, A q) : touchLaRun A := touchLaFinish_all h
theorem laRun_keeps {ep : ℕ} {op : ℕ} {g : Sys2Proof.Machine.La → Sys2Proof.Machine.State → Sys2Proof.Machine.State} (hA : touchLaRun A) (hg : ∀ y0 y1, Keeps A s y1 → Keeps A s (g y0 y1)) (h : Keeps A s t) : Keeps A s (State.laRun t ep op g) := by
  unfold State.laRun
  unfold touchLaRun at hA
  repeat' (first
    | with_reducible assumption
    | intro y
    | (extract_lets +onlyGivenNames x; first | (refine cut (P := Keeps A s x) ?_ ?_; (on_goal 1 => (unfold x; clear x)); (on_goal 2 => (intro hx; first | clear_value x | skip))) | clear_value x | skip)
    | (with_reducible apply laFinish_keeps (hA := by first | with_reducible assumption | with_reducible apply_assumption))
    | with_reducible apply keeps_ite
    | with_reducible apply hg
    | split)

def touchLaRenumber (A : Part → Prop) : Prop := A .fab
theorem touchLaRenumber_all (h : ∀ q, A q) : touchLaRenumber A := h _
theorem laRenumber_keeps {old : ℕ} {new : ℕ} (hA : touchLaRenumber A)  (h : Keeps A s t) : Keeps A s (State.laRenumber t old new) := by
  unfold State.laRenumber
  unfold touchLaRenumber at hA
  repeat' (first
    | with_reducible assumption
    | intro y
    | (extract_lets +onlyGivenNames x; first | (refine cut (P := Keeps A s x) ?_ ?_; (on_goal 1 => (unfold x; clear x)); (on_goal 2 => (intro hx; first | clear_value x | skip))) | clear_value x | skip)
    | with_reducible apply keeps_ite
    | split
    | with_reducible exact keeps_fab (by assumption) (by assumption))

end Sys2Proof.Laws
end

