-- ==== Sys2Proof/Laws/KeepsBilling.lean ====
section
/-! SUPPORT. What the operations of Machine/Billing.lean leave alone: for each the parts it may change (`touch…`) and its lemma. -/

namespace Sys2Proof.Laws

open Sys2Proof.Machine

set_option linter.unusedTactic false
set_option linter.unreachableTactic false
set_option linter.unusedVariables false
set_option linter.tactic.unusedName false

variable {A : Part → Prop} {s t : State}

def touchClockTick (A : Part → Prop) : Prop := A .bil ∧ touchLog A ∧ A (.reg R.BIL_STAT.HOLD_SEEN) ∧ A (.reg R.BIL_STAT.STEP_SEEN) ∧ A (.reg R.BIL_STAT.INVAL_SEEN) ∧ A (.reg R.BIL_STAT.CLK_VALID) ∧ A (.reg R.BIL_STAT.CLK_ST) ∧ A (.reg R.BIL_BT.BT) ∧ A (.reg R.BIL_OFS.BT_OFS)
theorem touchClockTick_all (h : ∀ q, A q) : touchClockTick A := ⟨h _, touchLog_all h, h _, h _, h _, h _, h _, h _, h _⟩
theorem clockTick_keeps  (hA : touchClockTick A)  (h : Keeps A s t) : Keeps A s (State.clockTick t).2 := by
  unfold State.clockTick
  obtain ⟨_, _, _, _, _, _, _, _, _⟩ := hA
  repeat' (first
    | with_reducible assumption
    | intro y
    | (extract_lets +onlyGivenNames x; first | (refine cut (P := Keeps A s x) ?_ ?_; (on_goal 1 => (unfold x; clear x)); (on_goal 2 => (intro hx; first | clear_value x | skip))) | (refine cut (P := Keeps A s x.2) ?_ ?_; (on_goal 1 => (unfold x; clear x)); (on_goal 2 => (intro hx; first | clear_value x | skip))) | (refine cut (P := Keeps A s x.2.2) ?_ ?_; (on_goal 1 => (unfold x; clear x)); (on_goal 2 => (intro hx; first | clear_value x | skip))) | clear_value x | skip)
    | (with_reducible refine put_keepsAt (by assumption) ?_)
    | (with_reducible refine put_keeps (by assumption) ?_)
    | (with_reducible refine putb_keepsAt (by assumption) ?_)
    | (with_reducible refine putb_keeps (by assumption) ?_)
    | (with_reducible refine puti_keepsAt (by assumption) ?_)
    | (with_reducible refine puti_keeps (by assumption) ?_)
    | (with_reducible apply log_keeps (hA := by first | with_reducible assumption | with_reducible apply_assumption))
    | with_reducible apply when_keeps
    | with_reducible apply keeps_ite
    | with_reducible apply keeps_ite2
    | with_reducible apply keeps_ite3
    | split
    | refine keeps_ite ?_ ?_
    | with_reducible exact keeps_bil (by assumption) (by assumption))

def touchAddFlags (A : Part → Prop) : Prop := A .bil
theorem touchAddFlags_all (h : ∀ q, A q) : touchAddFlags A := h _
theorem addFlags_keeps {f : ℕ} (hA : touchAddFlags A)  (h : Keeps A s t) : Keeps A s (State.addFlags t f) := by
  unfold State.addFlags
  unfold touchAddFlags at hA
  repeat' (first
    | with_reducible assumption
    | intro y
    | (extract_lets +onlyGivenNames x; first | (refine cut (P := Keeps A s x) ?_ ?_; (on_goal 1 => (unfold x; clear x)); (on_goal 2 => (intro hx; first | clear_value x | skip))) | clear_value x | skip)
    | with_reducible apply keeps_ite
    | split
    | with_reducible exact keeps_bil (by assumption) (by assumption))

def touchIntervalTick (A : Part → Prop) : Prop := A .bil
theorem touchIntervalTick_all (h : ∀ q, A q) : touchIntervalTick A := h _
theorem intervalTick_keeps {f : ℕ} (hA : touchIntervalTick A)  (h : Keeps A s t) : Keeps A s (State.intervalTick t f).2 := by
  unfold State.intervalTick
  unfold touchIntervalTick at hA
  repeat' (first
    | with_reducible assumption
    | intro y
    | (extract_lets +onlyGivenNames x; first | (refine cut (P := Keeps A s x) ?_ ?_; (on_goal 1 => (unfold x; clear x)); (on_goal 2 => (intro hx; first | clear_value x | skip))) | clear_value x | skip)
    | with_reducible apply keeps_ite
    | with_reducible apply keeps_ite2
    | with_reducible apply keeps_ite3
    | split
    | refine keeps_ite ?_ ?_
    | with_reducible exact keeps_bil (by assumption) (by assumption))

def touchClosePeriod (A : Part → Prop) : Prop := A .bil ∧ touchLog A
theorem touchClosePeriod_all (h : ∀ q, A q) : touchClosePeriod A := ⟨h _, touchLog_all h⟩
theorem closePeriod_keeps {endBt : ℕ} {flags : ℕ} {newFlags : ℕ} (hA : touchClosePeriod A)  (h : Keeps A s t) : Keeps A s (State.closePeriod t endBt flags newFlags).2 := by
  unfold State.closePeriod
  obtain ⟨_, _⟩ := hA
  repeat' (first
    | with_reducible assumption
    | intro y
    | (extract_lets +onlyGivenNames x; first | (refine cut (P := Keeps A s x) ?_ ?_; (on_goal 1 => (unfold x; clear x)); (on_goal 2 => (intro hx; first | clear_value x | skip))) | clear_value x | skip)
    | (with_reducible apply log_keeps (hA := by first | with_reducible assumption | with_reducible apply_assumption))
    | with_reducible apply keeps_ite
    | with_reducible apply keeps_ite2
    | with_reducible apply keeps_ite3
    | with_reducible apply keeps_foldl
    | with_reducible apply keeps_foldl2
    | with_reducible apply keeps_foldl3
    | split
    | refine keeps_ite ?_ ?_
    | with_reducible exact keeps_bil (by assumption) (by assumption))

def touchPeriodTick (A : Part → Prop) : Prop := touchClosePeriod A ∧ A (.reg R.BIL_PER_CMD.CLOSE) ∧ A .bil
theorem touchPeriodTick_all (h : ∀ q, A q) : touchPeriodTick A := ⟨touchClosePeriod_all h, h _, h _⟩
theorem periodTick_keeps {old : ℕ} {f : ℕ} (hA : touchPeriodTick A)  (h : Keeps A s t) : Keeps A s (State.periodTick t old f).2 := by
  unfold State.periodTick
  obtain ⟨_, _, _⟩ := hA
  repeat' (first
    | with_reducible assumption
    | intro y
    | (extract_lets +onlyGivenNames x; first | (refine cut (P := Keeps A s x) ?_ ?_; (on_goal 1 => (unfold x; clear x)); (on_goal 2 => (intro hx; first | clear_value x | skip))) | (refine cut (P := Keeps A s x.2) ?_ ?_; (on_goal 1 => (unfold x; clear x)); (on_goal 2 => (intro hx; first | clear_value x | skip))) | (refine cut (P := Keeps A s x.2.2) ?_ ?_; (on_goal 1 => (unfold x; clear x)); (on_goal 2 => (intro hx; first | clear_value x | skip))) | clear_value x | skip)
    | (with_reducible refine put_keepsAt (by assumption) ?_)
    | (with_reducible refine put_keeps (by assumption) ?_)
    | (with_reducible apply closePeriod_keeps (hA := by first | with_reducible assumption | with_reducible apply_assumption))
    | with_reducible apply keeps_ite
    | with_reducible apply keeps_ite2
    | with_reducible apply keeps_ite3
    | split
    | refine keeps_ite ?_ ?_
    | with_reducible exact keeps_bil (by assumption) (by assumption))

def touchSealedTick (A : Part → Prop) : Prop := A .bil
theorem touchSealedTick_all (h : ∀ q, A q) : touchSealedTick A := h _
theorem sealedTick_keeps  (hA : touchSealedTick A)  (h : Keeps A s t) : Keeps A s (State.sealedTick t) := by
  unfold State.sealedTick
  unfold touchSealedTick at hA
  repeat' (first
    | with_reducible assumption
    | intro y
    | (extract_lets +onlyGivenNames x; first | (refine cut (P := Keeps A s x) ?_ ?_; (on_goal 1 => (unfold x; clear x)); (on_goal 2 => (intro hx; first | clear_value x | skip))) | clear_value x | skip)
    | with_reducible apply keeps_ite
    | split
    | with_reducible exact keeps_bil (by assumption) (by assumption))

def touchPkgApply (A : Part → Prop) : Prop := A .updN ∧ touchSealedWrite A ∧ touchLog A ∧ A (.reg R.MET_SEAL.SEAL_CNT) ∧ A (.reg R.MET_STAT.SEALED) ∧ A (.reg R.MET_SEAL.SEALED) ∧ A (.reg R.UPD_SEAL_CNT.UCNT) ∧ A (.reg R.UPD_PKG_CMD.PEND)
theorem touchPkgApply_all (h : ∀ q, A q) : touchPkgApply A := ⟨h _, touchSealedWrite_all h, touchLog_all h, h _, h _, h _, h _, h _⟩
theorem pkgApply_keeps  (hA : touchPkgApply A)  (h : Keeps A s t) : Keeps A s (State.pkgApply t) := by
  unfold State.pkgApply
  obtain ⟨_, _, _, _, _, _, _, _⟩ := hA
  repeat' (first
    | with_reducible assumption
    | intro y
    | (extract_lets +onlyGivenNames x; first | (refine cut (P := Keeps A s x) ?_ ?_; (on_goal 1 => (unfold x; clear x)); (on_goal 2 => (intro hx; first | clear_value x | skip))) | clear_value x | skip)
    | (with_reducible apply sealedWrite_keeps (hA := by first | with_reducible assumption | with_reducible apply_assumption))
    | (with_reducible apply log_keeps (hA := by first | with_reducible assumption | with_reducible apply_assumption))
    | (with_reducible refine inc_keepsAt (by assumption) ?_)
    | (with_reducible refine inc_keeps (by assumption) ?_)
    | (with_reducible refine put_keepsAt (by assumption) ?_)
    | (with_reducible refine put_keeps (by assumption) ?_)
    | with_reducible apply keeps_ite
    | with_reducible apply keeps_foldl
    | split
    | refine keeps_ite ?_ ?_
    | with_reducible exact keeps_updN (by assumption) (by assumption))

def touchBoundaries (A : Part → Prop) : Prop := touchIntervalTick A ∧ touchPeriodTick A ∧ touchOwe A
theorem touchBoundaries_all (h : ∀ q, A q) : touchBoundaries A := ⟨touchIntervalTick_all h, touchPeriodTick_all h, touchOwe_all h⟩
theorem boundaries_keeps {old : ℕ} {span : ℕ} {sec : Sys2Proof.Machine.BSec} (hA : touchBoundaries A)  (h : Keeps A s t) : Keeps A s (State.boundaries t old span sec) := by
  unfold State.boundaries
  obtain ⟨_, _, _⟩ := hA
  repeat' (first
    | with_reducible assumption
    | intro y
    | (extract_lets +onlyGivenNames x; first | (refine cut (P := Keeps A s x) ?_ ?_; (on_goal 1 => (unfold x; clear x)); (on_goal 2 => (intro hx; first | clear_value x | skip))) | (refine cut (P := Keeps A s x.2) ?_ ?_; (on_goal 1 => (unfold x; clear x)); (on_goal 2 => (intro hx; first | clear_value x | skip))) | (refine cut (P := Keeps A s x.2.2) ?_ ?_; (on_goal 1 => (unfold x; clear x)); (on_goal 2 => (intro hx; first | clear_value x | skip))) | clear_value x | skip)
    | (with_reducible apply intervalTick_keeps (hA := by first | with_reducible assumption | with_reducible apply_assumption))
    | (with_reducible apply periodTick_keeps (hA := by first | with_reducible assumption | with_reducible apply_assumption))
    | (with_reducible apply owe_keeps (hA := by first | with_reducible assumption | with_reducible apply_assumption))
    | with_reducible apply keeps_ite
    | with_reducible apply keeps_ite2
    | with_reducible apply keeps_ite3
    | split
    | refine keeps_ite ?_ ?_)

def touchBillTick (A : Part → Prop) : Prop := touchSettleAll A ∧ touchClockTick A ∧ touchAddFlags A ∧ touchBoundaries A ∧ touchSealedTick A ∧ touchPkgApply A ∧ touchFindRate A ∧ touchCalDue A ∧ A .bil ∧ touchLog A
theorem touchBillTick_all (h : ∀ q, A q) : touchBillTick A := ⟨touchSettleAll_all h, touchClockTick_all h, touchAddFlags_all h, touchBoundaries_all h, touchSealedTick_all h, touchPkgApply_all h, touchFindRate_all h, touchCalDue_all h, h _, touchLog_all h⟩
theorem billTick_keeps  (hA : touchBillTick A)  (h : Keeps A s t) : Keeps A s (State.billTick t) := by
  unfold State.billTick
  obtain ⟨_, _, _, _, _, _, _, _, _, _⟩ := hA
  repeat' (first
    | with_reducible assumption
    | intro y
    | (extract_lets +onlyGivenNames x; first | (refine cut (P := Keeps A s x) ?_ ?_; (on_goal 1 => (unfold x; clear x)); (on_goal 2 => (intro hx; first | clear_value x | skip))) | (refine cut (P := Keeps A s x.2) ?_ ?_; (on_goal 1 => (unfold x; clear x)); (on_goal 2 => (intro hx; first | clear_value x | skip))) | (refine cut (P := Keeps A s x.2.2) ?_ ?_; (on_goal 1 => (unfold x; clear x)); (on_goal 2 => (intro hx; first | clear_value x | skip))) | clear_value x | skip)
    | (with_reducible apply settleAll_keeps (hA := by first | with_reducible assumption | with_reducible apply_assumption))
    | (with_reducible apply clockTick_keeps (hA := by first | with_reducible assumption | with_reducible apply_assumption))
    | (with_reducible apply addFlags_keeps (hA := by first | with_reducible assumption | with_reducible apply_assumption))
    | (with_reducible apply boundaries_keeps (hA := by first | with_reducible assumption | with_reducible apply_assumption))
    | (with_reducible apply sealedTick_keeps (hA := by first | with_reducible assumption | with_reducible apply_assumption))
    | (with_reducible apply pkgApply_keeps (hA := by first | with_reducible assumption | with_reducible apply_assumption))
    | (with_reducible apply findRate_keeps (hA := by first | with_reducible assumption | with_reducible apply_assumption))
    | (with_reducible apply calDue_keeps (hA := by first | with_reducible assumption | with_reducible apply_assumption))
    | (with_reducible apply log_keeps (hA := by first | with_reducible assumption | with_reducible apply_assumption))
    | with_reducible apply when_keeps
    | with_reducible apply keeps_ite
    | with_reducible apply keeps_ite2
    | with_reducible apply keeps_ite3
    | split
    | refine keeps_ite ?_ ?_
    | with_reducible exact keeps_bil (by assumption) (by assumption))

def touchExecBillingTick (A : Part → Prop) : Prop := A (.reg R.BIL_SYNC.SYNC_AGE) ∧ A (.reg R.SYS_RTC.UTC) ∧ touchBillTick A
theorem touchExecBillingTick_all (h : ∀ q, A q) : touchExecBillingTick A := ⟨h _, h _, touchBillTick_all h⟩
theorem execBillingTick_next  (hA : touchExecBillingTick A) : ∃ u, execBillingTick s = .next u ∧ Keeps A s u := by
  unfold execBillingTick
  have h := Keeps.refl A s
  refine ⟨_, rfl, ?_⟩
  obtain ⟨_, _, _⟩ := hA
  repeat' (first
    | with_reducible assumption
    | intro y
    | (extract_lets +onlyGivenNames x; first | (refine cut (P := Keeps A s x) ?_ ?_; (on_goal 1 => (unfold x; clear x)); (on_goal 2 => (intro hx; first | clear_value x | skip))) | clear_value x | skip)
    | (with_reducible refine put_keepsAt (by assumption) ?_)
    | (with_reducible refine put_keeps (by assumption) ?_)
    | (with_reducible apply billTick_keeps (hA := by first | with_reducible assumption | with_reducible apply_assumption))
    | with_reducible apply keeps_ite
    | split
    | refine keeps_ite ?_ ?_)

def touchRebase (A : Part → Prop) : Prop := A (.reg R.BIL_CLK_CMD.STATUS) ∧ A (.reg R.BIL_CLK_CMD.REBASE) ∧ touchReserveRefused A ∧ touchReport A ∧ touchSecMark A ∧ touchSettleAll A ∧ touchClosePeriod A ∧ A .bil ∧ touchOwe A ∧ A (.reg R.BIL_BT.BT) ∧ A (.reg R.BIL_EPOCH.EPOCH) ∧ A (.reg R.BIL_OFS.BT_OFS) ∧ touchLog A ∧ A (.reg R.BIL_STAT.CLK_VALID) ∧ A (.reg R.BIL_STAT.CLK_ST)
theorem touchRebase_all (h : ∀ q, A q) : touchRebase A := ⟨h _, h _, touchReserveRefused_all h, touchReport_all h, touchSecMark_all h, touchSettleAll_all h, touchClosePeriod_all h, h _, touchOwe_all h, h _, h _, h _, touchLog_all h, h _, h _⟩
theorem rebase_keeps {sess : ℕ} (hA : touchRebase A)  (h : Keeps A s t) : Keeps A s (State.rebase t sess) := by
  unfold State.rebase
  obtain ⟨_, _, _, _, _, _, _, _, _, _, _, _, _, _, _⟩ := hA
  repeat' (first
    | with_reducible assumption
    | intro y
    | (extract_lets +onlyGivenNames x; first | (refine cut (P := Keeps A s x) ?_ ?_; (on_goal 1 => (unfold x; clear x)); (on_goal 2 => (intro hx; first | clear_value x | skip))) | (refine cut (P := Keeps A s x.2) ?_ ?_; (on_goal 1 => (unfold x; clear x)); (on_goal 2 => (intro hx; first | clear_value x | skip))) | (refine cut (P := Keeps A s x.2.2) ?_ ?_; (on_goal 1 => (unfold x; clear x)); (on_goal 2 => (intro hx; first | clear_value x | skip))) | clear_value x | skip)
    | (with_reducible refine put_keepsAt (by assumption) ?_)
    | (with_reducible refine put_keeps (by assumption) ?_)
    | (with_reducible refine putb_keepsAt (by assumption) ?_)
    | (with_reducible refine putb_keeps (by assumption) ?_)
    | (with_reducible refine puti_keepsAt (by assumption) ?_)
    | (with_reducible refine puti_keeps (by assumption) ?_)
    | (with_reducible apply reserveRefused_keeps (hA := by first | with_reducible assumption | with_reducible apply_assumption))
    | (with_reducible apply report_keeps (hA := by first | with_reducible assumption | with_reducible apply_assumption))
    | (with_reducible apply secMark_keeps (hA := by first | with_reducible assumption | with_reducible apply_assumption))
    | (with_reducible apply settleAll_keeps (hA := by first | with_reducible assumption | with_reducible apply_assumption))
    | (with_reducible apply closePeriod_keeps (hA := by first | with_reducible assumption | with_reducible apply_assumption))
    | (with_reducible apply owe_keeps (hA := by first | with_reducible assumption | with_reducible apply_assumption))
    | (with_reducible apply log_keeps (hA := by first | with_reducible assumption | with_reducible apply_assumption))
    | with_reducible apply keeps_ite
    | with_reducible apply keeps_ite2
    | with_reducible apply keeps_ite3
    | split
    | refine keeps_ite ?_ ?_
    | with_reducible exact keeps_bil (by assumption) (by assumption))

def touchExecRebase (A : Part → Prop) : Prop := touchGuarded A ∧ touchRebase A
theorem touchExecRebase_all (h : ∀ q, A q) : touchExecRebase A := ⟨touchGuarded_all h, touchRebase_all h⟩
theorem execRebase_next {sess : ℕ} (hA : touchExecRebase A) : ∃ u, execRebase sess s = .next u ∧ Keeps A s u := by
  unfold execRebase
  have h := Keeps.refl A s
  refine ⟨_, rfl, ?_⟩
  obtain ⟨_, _⟩ := hA
  repeat' (first
    | with_reducible assumption
    | intro y
    | (with_reducible apply guarded_keeps (hA := by first | with_reducible assumption | with_reducible apply_assumption))
    | (with_reducible apply rebase_keeps (hA := by first | with_reducible assumption | with_reducible apply_assumption))
    | with_reducible apply keeps_ite
    | split)

def touchCalActivate (A : Part → Prop) : Prop := touchReserveRefused A ∧ touchReport A ∧ A (.reg R.BIL_CAL_CTRL.ACTIVATE) ∧ A (.reg R.BIL_CAL_CTRL.CHK_WORD) ∧ A (.reg R.BIL_CAL_CTRL.CHK_STATUS) ∧ touchCalRefuse A
theorem touchCalActivate_all (h : ∀ q, A q) : touchCalActivate A := ⟨touchReserveRefused_all h, touchReport_all h, h _, h _, h _, touchCalRefuse_all h⟩
theorem calActivate_keeps {sess : ℕ} (hA : touchCalActivate A)  (h : Keeps A s t) : Keeps A s (State.calActivate t sess) := by
  unfold State.calActivate
  obtain ⟨_, _, _, _, _, _⟩ := hA
  repeat' (first
    | with_reducible assumption
    | intro y
    | (extract_lets +onlyGivenNames x; first | (refine cut (P := Keeps A s x) ?_ ?_; (on_goal 1 => (unfold x; clear x)); (on_goal 2 => (intro hx; first | clear_value x | skip))) | clear_value x | skip)
    | (with_reducible apply reserveRefused_keeps (hA := by first | with_reducible assumption | with_reducible apply_assumption))
    | (with_reducible apply report_keeps (hA := by first | with_reducible assumption | with_reducible apply_assumption))
    | (with_reducible refine put_keepsAt (by assumption) ?_)
    | (with_reducible refine put_keeps (by assumption) ?_)
    | (with_reducible apply calRefuse_keeps (hA := by first | with_reducible assumption | with_reducible apply_assumption))
    | with_reducible apply keeps_ite
    | split
    | refine keeps_ite ?_ ?_)

def touchExecCalendarActivate (A : Part → Prop) : Prop := touchGuarded A ∧ touchCalActivate A
theorem touchExecCalendarActivate_all (h : ∀ q, A q) : touchExecCalendarActivate A := ⟨touchGuarded_all h, touchCalActivate_all h⟩
theorem execCalendarActivate_next {sess : ℕ} (hA : touchExecCalendarActivate A) : ∃ u, execCalendarActivate sess s = .next u ∧ Keeps A s u := by
  unfold execCalendarActivate
  have h := Keeps.refl A s
  refine ⟨_, rfl, ?_⟩
  obtain ⟨_, _⟩ := hA
  repeat' (first
    | with_reducible assumption
    | intro y
    | (with_reducible apply guarded_keeps (hA := by first | with_reducible assumption | with_reducible apply_assumption))
    | (with_reducible apply calActivate_keeps (hA := by first | with_reducible assumption | with_reducible apply_assumption))
    | with_reducible apply keeps_ite
    | split)

def touchExecPeriodCloseCommand (A : Part → Prop) : Prop := touchGuarded A ∧ A (.reg R.BIL_PER_CMD.CLOSE)
theorem touchExecPeriodCloseCommand_all (h : ∀ q, A q) : touchExecPeriodCloseCommand A := ⟨touchGuarded_all h, h _⟩
theorem execPeriodCloseCommand_next {sess : ℕ} (hA : touchExecPeriodCloseCommand A) : ∃ u, execPeriodCloseCommand sess s = .next u ∧ Keeps A s u := by
  unfold execPeriodCloseCommand
  have h := Keeps.refl A s
  refine ⟨_, rfl, ?_⟩
  obtain ⟨_, _⟩ := hA
  repeat' (first
    | with_reducible assumption
    | intro y
    | (with_reducible apply guarded_keeps (hA := by first | with_reducible assumption | with_reducible apply_assumption))
    | (with_reducible refine put_keepsAt (by assumption) ?_)
    | (with_reducible refine put_keeps (by assumption) ?_)
    | with_reducible apply keeps_ite
    | split)

def touchExecPeriodCloseAction (A : Part → Prop) : Prop := A .bil ∧ touchLaRun A
theorem touchExecPeriodCloseAction_all (h : ∀ q, A q) : touchExecPeriodCloseAction A := ⟨h _, touchLaRun_all h⟩
theorem execPeriodCloseAction_next  (hA : touchExecPeriodCloseAction A) : ∃ u, execPeriodCloseAction s = .next u ∧ Keeps A s u := by
  unfold execPeriodCloseAction
  have h := Keeps.refl A s
  refine ⟨_, rfl, ?_⟩
  obtain ⟨_, _⟩ := hA
  repeat' (first
    | with_reducible assumption
    | intro y
    | (extract_lets +onlyGivenNames x; first | (refine cut (P := Keeps A s x) ?_ ?_; (on_goal 1 => (unfold x; clear x)); (on_goal 2 => (intro hx; first | clear_value x | skip))) | clear_value x | skip)
    | (with_reducible apply laRun_keeps (hA := by first | with_reducible assumption | with_reducible apply_assumption))
    | with_reducible apply keeps_ite
    | split
    | with_reducible exact keeps_bil (by assumption) (by assumption))

def touchExecSessionOpen (A : Part → Prop) : Prop := touchBillOpen A
theorem touchExecSessionOpen_all (h : ∀ q, A q) : touchExecSessionOpen A := touchBillOpen_all h
theorem execSessionOpen_next {p : ℕ} {conn : ℕ} {id : ℕ} {ident : List ℕ} {stamp : ℕ} (hA : touchExecSessionOpen A) : ∃ u, execSessionOpen p conn id ident stamp s = .next u ∧ Keeps A s u := by
  unfold execSessionOpen
  have h := Keeps.refl A s
  refine ⟨_, rfl, ?_⟩
  unfold touchExecSessionOpen at hA
  repeat' (first
    | with_reducible assumption
    | intro y
    | (with_reducible apply billOpen_keeps (hA := by first | with_reducible assumption | with_reducible apply_assumption))
    | with_reducible apply keeps_ite
    | with_reducible apply keeps_ite2
    | with_reducible apply keeps_ite3
    | split)

def touchExecSessionClose (A : Part → Prop) : Prop := touchBillEnd A
theorem touchExecSessionClose_all (h : ∀ q, A q) : touchExecSessionClose A := touchBillEnd_all h
theorem execSessionClose_next {p : ℕ} {reason : ℕ} {stamp : ℕ} (hA : touchExecSessionClose A) : ∃ u, execSessionClose p reason stamp s = .next u ∧ Keeps A s u := by
  unfold execSessionClose
  have h := Keeps.refl A s
  refine ⟨_, rfl, ?_⟩
  unfold touchExecSessionClose at hA
  repeat' (first
    | with_reducible assumption
    | intro y
    | (with_reducible apply billEnd_keeps (hA := by first | with_reducible assumption | with_reducible apply_assumption))
    | with_reducible apply keeps_ite
    | split)

def touchExecSessionAck (A : Part → Prop) : Prop := touchGuarded A ∧ touchSessAck A
theorem touchExecSessionAck_all (h : ∀ q, A q) : touchExecSessionAck A := ⟨touchGuarded_all h, touchSessAck_all h⟩
theorem execSessionAck_next {sess : ℕ} {n : ℕ} (hA : touchExecSessionAck A) : ∃ u, execSessionAck sess n s = .next u ∧ Keeps A s u := by
  unfold execSessionAck
  have h := Keeps.refl A s
  refine ⟨_, rfl, ?_⟩
  obtain ⟨_, _⟩ := hA
  repeat' (first
    | with_reducible assumption
    | intro y
    | (with_reducible apply guarded_keeps (hA := by first | with_reducible assumption | with_reducible apply_assumption))
    | (with_reducible apply sessAck_keeps (hA := by first | with_reducible assumption | with_reducible apply_assumption))
    | with_reducible apply keeps_ite
    | split)

def touchFreeBytes (A : Part → Prop) : Prop := touchFree A

theorem touchFreeBytes_all (h : ∀ q, A q) : touchFreeBytes A := touchFree_all h

theorem freeBytes_keeps {n : Nat} (hA : touchFreeBytes A) (h : Keeps A s t) : Keeps A s (t.freeBytes n).2 := by
  induction n generalizing t with
  | zero => exact h
  | succ n ih => exact ih (free_keeps hA h)

def touchExecTamperQueueMove (A : Part → Prop) : Prop := A .tmp ∧ touchLogAt A ∧ touchLog A ∧ A (.reg R.BIL_TMP.N_Q)
theorem touchExecTamperQueueMove_all (h : ∀ q, A q) : touchExecTamperQueueMove A := ⟨h _, touchLogAt_all h, touchLog_all h, h _⟩
theorem execTamperQueueMove_next  (hA : touchExecTamperQueueMove A) : ∃ u, execTamperQueueMove s = .next u ∧ Keeps A s u := by
  unfold execTamperQueueMove
  have h := Keeps.refl A s
  refine ⟨_, rfl, ?_⟩
  obtain ⟨_, _, _, _⟩ := hA
  repeat' (first
    | with_reducible assumption
    | intro y
    | (extract_lets +onlyGivenNames x; first | (refine cut (P := Keeps A s x) ?_ ?_; (on_goal 1 => (unfold x; clear x)); (on_goal 2 => (intro hx; first | clear_value x | skip))) | clear_value x | skip)
    | (with_reducible apply logAt_keeps (hA := by first | with_reducible assumption | with_reducible apply_assumption))
    | (with_reducible apply log_keeps (hA := by first | with_reducible assumption | with_reducible apply_assumption))
    | (with_reducible refine put_keepsAt (by assumption) ?_)
    | (with_reducible refine put_keeps (by assumption) ?_)
    | with_reducible apply keeps_ite
    | with_reducible apply keeps_foldl
    | split
    | refine keeps_ite ?_ ?_
    | with_reducible exact keeps_tmp (by assumption) (by assumption))

def touchTmpAck (A : Part → Prop) : Prop := touchReserveRefused A ∧ touchReport A ∧ touchLog A ∧ A (.reg R.BIL_TMP.TMP_PEND) ∧ touchSecMark A
theorem touchTmpAck_all (h : ∀ q, A q) : touchTmpAck A := ⟨touchReserveRefused_all h, touchReport_all h, touchLog_all h, h _, touchSecMark_all h⟩
theorem tmpAck_keeps {sess : ℕ} (hA : touchTmpAck A)  (h : Keeps A s t) : Keeps A s (State.tmpAck t sess) := by
  unfold State.tmpAck
  obtain ⟨_, _, _, _, _⟩ := hA
  repeat' (first
    | with_reducible assumption
    | intro y
    | (extract_lets +onlyGivenNames x; first | (refine cut (P := Keeps A s x) ?_ ?_; (on_goal 1 => (unfold x; clear x)); (on_goal 2 => (intro hx; first | clear_value x | skip))) | clear_value x | skip)
    | (with_reducible refine put_keepsAt (by assumption) ?_)
    | (with_reducible refine put_keeps (by assumption) ?_)
    | (with_reducible apply reserveRefused_keeps (hA := by first | with_reducible assumption | with_reducible apply_assumption))
    | (with_reducible apply report_keeps (hA := by first | with_reducible assumption | with_reducible apply_assumption))
    | (with_reducible apply log_keeps (hA := by first | with_reducible assumption | with_reducible apply_assumption))
    | (with_reducible apply secMark_keeps (hA := by first | with_reducible assumption | with_reducible apply_assumption))
    | with_reducible apply keeps_ite
    | split
    | refine keeps_ite ?_ ?_)

def touchExecTamperAck (A : Part → Prop) : Prop := touchGuarded A ∧ touchTmpAck A
theorem touchExecTamperAck_all (h : ∀ q, A q) : touchExecTamperAck A := ⟨touchGuarded_all h, touchTmpAck_all h⟩
theorem execTamperAck_next {sess : ℕ} (hA : touchExecTamperAck A) : ∃ u, execTamperAck sess s = .next u ∧ Keeps A s u := by
  unfold execTamperAck
  have h := Keeps.refl A s
  refine ⟨_, rfl, ?_⟩
  obtain ⟨_, _⟩ := hA
  repeat' (first
    | with_reducible assumption
    | intro y
    | (with_reducible apply guarded_keeps (hA := by first | with_reducible assumption | with_reducible apply_assumption))
    | (with_reducible apply tmpAck_keeps (hA := by first | with_reducible assumption | with_reducible apply_assumption))
    | with_reducible apply keeps_ite
    | split)

def touchExecDisplayFrame (A : Part → Prop) : Prop := touchDispFrame A ∧ A .bil
theorem touchExecDisplayFrame_all (h : ∀ q, A q) : touchExecDisplayFrame A := ⟨touchDispFrame_all h, h _⟩
theorem execDisplayFrame_next  (hA : touchExecDisplayFrame A) : ∃ u, execDisplayFrame s = .next u ∧ Keeps A s u := by
  unfold execDisplayFrame
  have h := Keeps.refl A s
  refine ⟨_, rfl, ?_⟩
  obtain ⟨_, _⟩ := hA
  repeat' (first
    | with_reducible assumption
    | intro y
    | (extract_lets +onlyGivenNames x; first | (refine cut (P := Keeps A s x) ?_ ?_; (on_goal 1 => (unfold x; clear x)); (on_goal 2 => (intro hx; first | clear_value x | skip))) | clear_value x | skip)
    | (with_reducible apply dispFrame_keeps (hA := by first | with_reducible assumption | with_reducible apply_assumption))
    | with_reducible apply keeps_ite
    | split
    | refine keeps_ite ?_ ?_
    | with_reducible exact keeps_bil (by assumption) (by assumption))

def touchExecDisplayAnswer (A : Part → Prop) : Prop := A (.reg R.BIL_DISP_STAT.DISP_FLT) ∧ A .bil ∧ touchLog A ∧ A (.reg R.BIL_DISP_STAT.FLT_SEEN)
theorem touchExecDisplayAnswer_all (h : ∀ q, A q) : touchExecDisplayAnswer A := ⟨h _, h _, touchLog_all h, h _⟩
theorem execDisplayAnswer_next {ok : List ℕ} (hA : touchExecDisplayAnswer A) : ∃ u, execDisplayAnswer ok s = .next u ∧ Keeps A s u := by
  unfold execDisplayAnswer
  have h := Keeps.refl A s
  refine ⟨_, rfl, ?_⟩
  obtain ⟨_, _, _, _⟩ := hA
  repeat' (first
    | with_reducible assumption
    | intro y
    | (extract_lets +onlyGivenNames x; first | (refine cut (P := Keeps A s x) ?_ ?_; (on_goal 1 => (unfold x; clear x)); (on_goal 2 => (intro hx; first | clear_value x | skip))) | clear_value x | skip)
    | (with_reducible refine put_keepsAt (by assumption) ?_)
    | (with_reducible refine put_keeps (by assumption) ?_)
    | (with_reducible apply log_keeps (hA := by first | with_reducible assumption | with_reducible apply_assumption))
    | with_reducible apply keeps_ite
    | split
    | refine keeps_ite ?_ ?_
    | with_reducible exact keeps_bil (by assumption) (by assumption))

def touchExecPageAdvance (A : Part → Prop) : Prop := touchNextPage A
theorem touchExecPageAdvance_all (h : ∀ q, A q) : touchExecPageAdvance A := touchNextPage_all h
theorem execPageAdvance_next {secs : ℕ} (hA : touchExecPageAdvance A) : ∃ u, execPageAdvance secs s = .next u ∧ Keeps A s u := by
  unfold execPageAdvance
  have h := Keeps.refl A s
  refine ⟨_, rfl, ?_⟩
  unfold touchExecPageAdvance at hA
  repeat' (first
    | with_reducible assumption
    | intro y
    | (extract_lets +onlyGivenNames x; first | (refine cut (P := Keeps A s x) ?_ ?_; (on_goal 1 => (unfold x; clear x)); (on_goal 2 => (intro hx; first | clear_value x | skip))) | clear_value x | skip)
    | (with_reducible apply nextPage_keeps (hA := by first | with_reducible assumption | with_reducible apply_assumption))
    | with_reducible apply keeps_ite
    | split
    | refine keeps_ite ?_ ?_)

def touchExecDisplayButtonShort (A : Part → Prop) : Prop := A (.reg R.BIL_DISP_STAT.MANUAL) ∧ touchNextPage A
theorem touchExecDisplayButtonShort_all (h : ∀ q, A q) : touchExecDisplayButtonShort A := ⟨h _, touchNextPage_all h⟩
theorem execDisplayButtonShort_next  (hA : touchExecDisplayButtonShort A) : ∃ u, execDisplayButtonShort s = .next u ∧ Keeps A s u := by
  unfold execDisplayButtonShort
  have h := Keeps.refl A s
  refine ⟨_, rfl, ?_⟩
  obtain ⟨_, _⟩ := hA
  repeat' (first
    | with_reducible assumption
    | intro y
    | (extract_lets +onlyGivenNames x; first | (refine cut (P := Keeps A s x) ?_ ?_; (on_goal 1 => (unfold x; clear x)); (on_goal 2 => (intro hx; first | clear_value x | skip))) | clear_value x | skip)
    | (with_reducible refine put_keepsAt (by assumption) ?_)
    | (with_reducible refine put_keeps (by assumption) ?_)
    | (with_reducible apply nextPage_keeps (hA := by first | with_reducible assumption | with_reducible apply_assumption))
    | with_reducible apply keeps_ite
    | split
    | refine keeps_ite ?_ ?_)

def touchExecDisplayButtonLong (A : Part → Prop) : Prop := A .bil ∧ touchDispFrame A ∧ A (.reg R.BIL_DISP_STAT.PAGE)
theorem touchExecDisplayButtonLong_all (h : ∀ q, A q) : touchExecDisplayButtonLong A := ⟨h _, touchDispFrame_all h, h _⟩
theorem execDisplayButtonLong_next  (hA : touchExecDisplayButtonLong A) : ∃ u, execDisplayButtonLong s = .next u ∧ Keeps A s u := by
  unfold execDisplayButtonLong
  have h := Keeps.refl A s
  refine ⟨_, rfl, ?_⟩
  obtain ⟨_, _, _⟩ := hA
  repeat' (first
    | with_reducible assumption
    | intro y
    | (extract_lets +onlyGivenNames x; first | (refine cut (P := Keeps A s x) ?_ ?_; (on_goal 1 => (unfold x; clear x)); (on_goal 2 => (intro hx; first | clear_value x | skip))) | clear_value x | skip)
    | (with_reducible apply dispFrame_keeps (hA := by first | with_reducible assumption | with_reducible apply_assumption))
    | (with_reducible refine put_keepsAt (by assumption) ?_)
    | (with_reducible refine put_keeps (by assumption) ?_)
    | with_reducible apply keeps_ite
    | split
    | with_reducible exact keeps_bil (by assumption) (by assumption))

def touchExecManualAdvanceResume (A : Part → Prop) : Prop := A (.reg R.BIL_DISP_STAT.MANUAL)
theorem touchExecManualAdvanceResume_all (h : ∀ q, A q) : touchExecManualAdvanceResume A := h _
theorem execManualAdvanceResume_next {secs : ℕ} (hA : touchExecManualAdvanceResume A) : ∃ u, execManualAdvanceResume secs s = .next u ∧ Keeps A s u := by
  unfold execManualAdvanceResume
  have h := Keeps.refl A s
  refine ⟨_, rfl, ?_⟩
  unfold touchExecManualAdvanceResume at hA
  repeat' (first
    | with_reducible assumption
    | intro y
    | (with_reducible refine put_keepsAt (by assumption) ?_)
    | (with_reducible refine put_keeps (by assumption) ?_)
    | with_reducible apply keeps_ite
    | split)

end Sys2Proof.Laws
end

