-- ==== Sys2Proof/Laws/KeepsSwitchOps.lean ====
section
/-! SUPPORT. What the operations of Machine/SwitchOps.lean leave alone: for each the parts it may change (`touch…`) and its lemma. -/

namespace Sys2Proof.Laws

open Sys2Proof.Machine

set_option linter.unusedTactic false
set_option linter.unreachableTactic false
set_option linter.unusedVariables false
set_option linter.tactic.unusedName false

variable {A : Part → Prop} {s t : State}

def touchLswOwners (A : Part → Prop) : Prop := A .lsw ∧ A (.reg R.LSW_CH_STAT.OWNER) ∧ touchLog A
theorem touchLswOwners_all (h : ∀ q, A q) : touchLswOwners A := ⟨h _, h _, touchLog_all h⟩
theorem lswOwners_keeps  (hA : touchLswOwners A)  (h : Keeps A s t) : Keeps A s (State.lswOwners t) := by
  unfold State.lswOwners
  obtain ⟨_, _, _⟩ := hA
  repeat' (first
    | with_reducible assumption
    | intro y
    | (extract_lets +onlyGivenNames x; first | (refine cut (P := Keeps A s x) ?_ ?_; (on_goal 1 => (unfold x; clear x)); (on_goal 2 => (intro hx; first | clear_value x | skip))) | clear_value x | skip)
    | with_reducible apply each_keeps
    | (with_reducible refine put_keepsAt (by assumption) ?_)
    | (with_reducible refine put_keeps (by assumption) ?_)
    | with_reducible apply when_keeps
    | (with_reducible apply log_keeps (hA := by first | with_reducible assumption | with_reducible apply_assumption))
    | with_reducible apply keeps_ite
    | split
    | refine keeps_ite ?_ ?_
    | with_reducible exact keeps_lsw (by assumption) (by assumption))

def touchLswPins (A : Part → Prop) : Prop := A .pins
theorem touchLswPins_all (h : ∀ q, A q) : touchLswPins A := h _
theorem lswPins_keeps  (hA : touchLswPins A)  (h : Keeps A s t) : Keeps A s (State.lswPins t) := by
  unfold State.lswPins
  unfold touchLswPins at hA
  repeat' (first
    | with_reducible assumption
    | intro y
    | (extract_lets +onlyGivenNames x; first | (refine cut (P := Keeps A s x) ?_ ?_; (on_goal 1 => (unfold x; clear x)); (on_goal 2 => (intro hx; first | clear_value x | skip))) | clear_value x | skip)
    | with_reducible apply keeps_ite
    | split
    | refine keeps_ite ?_ ?_
    | with_reducible exact keeps_pins (by assumption) (by assumption))

def touchLswState (A : Part → Prop) (n : Nat) : Prop := A (.inst R.LSW_CH_STAT.STATE n 0) ∧ A (.reg R.LSW_STAT.OUT) ∧ A (.reg R.LSW_STAT.LATCHED) ∧ A (.inst R.LSW_CH_STAT.FRAC n 0) ∧ A (.inst R.LSW_CH_STAT.OL n 0) ∧ touchLswPins A ∧ A (.reg R.LSW_BANK.SNS_VALID)
theorem touchLswState_all (h : ∀ q, A q) {n : Nat} : touchLswState A n := ⟨h _, h _, h _, h _, h _, touchLswPins_all h, h _⟩
theorem lswState_keeps {n : ℕ} {st : ℕ} (hA : touchLswState A n)  (h : Keeps A s t) : Keeps A s (State.lswState t n st) := by
  unfold State.lswState
  obtain ⟨_, _, _, _, _, _, _⟩ := hA
  repeat' (first
    | with_reducible assumption
    | intro y
    | (extract_lets +onlyGivenNames x; first | (refine cut (P := Keeps A s x) ?_ ?_; (on_goal 1 => (unfold x; clear x)); (on_goal 2 => (intro hx; first | clear_value x | skip))) | (refine cut (P := ∀ y, Keeps A s y → Keeps A s (x y)) ?_ ?_; (on_goal 1 => (unfold x; clear x)); (on_goal 2 => (intro hf; first | clear_value x | skip))) | (refine cut (P := ∀ y, Keeps A s (x y)) ?_ ?_; (on_goal 1 => (unfold x; clear x)); (on_goal 2 => (intro hf; first | clear_value x | skip))) | (refine cut (P := ∀ y z, Keeps A s y → Keeps A s (x y z)) ?_ ?_; (on_goal 1 => (unfold x; clear x)); (on_goal 2 => (intro hf; first | clear_value x | skip))) | (refine cut (P := ∀ y z, Keeps A s z → Keeps A s (x y z)) ?_ ?_; (on_goal 1 => (unfold x; clear x)); (on_goal 2 => (intro hf; first | clear_value x | skip))) | (refine cut (P := ∀ y z w, Keeps A s y → Keeps A s (x y z w)) ?_ ?_; (on_goal 1 => (unfold x; clear x)); (on_goal 2 => (intro hf; first | clear_value x | skip))) | (refine cut (P := ∀ (d : Nat) (g : State → State) (y : State), (∀ z, Keeps A s z → Keeps A s (g z)) → Keeps A s y → Keeps A s (x d g y)) ?_ ?_; (on_goal 1 => (unfold x; clear x)); (on_goal 2 => (intro hf; first | clear_value x | skip))) | clear_value x | skip)
    | (with_reducible refine put_keepsAt (by assumption) ?_)
    | (with_reducible refine put_keeps (by assumption) ?_)
    | with_reducible apply when_keeps
    | (with_reducible apply lswPins_keeps (hA := by first | with_reducible assumption | with_reducible apply_assumption))
    | with_reducible apply keeps_ite
    | with_reducible apply hf
    | split
    | refine keeps_ite ?_ ?_)

def touchLswBanks (A : Part → Prop) : Prop := A (.reg R.LSW_BANK.UV_B) ∧ A (.reg R.LSW_BANK.UV_A)
theorem touchLswBanks_all (h : ∀ q, A q) : touchLswBanks A := ⟨h _, h _⟩
theorem lswBanks_keeps  (hA : touchLswBanks A)  (h : Keeps A s t) : Keeps A s (State.lswBanks t) := by
  unfold State.lswBanks
  obtain ⟨_, _⟩ := hA
  repeat' (first
    | with_reducible assumption
    | intro y
    | (extract_lets +onlyGivenNames x; first | (refine cut (P := Keeps A s x) ?_ ?_; (on_goal 1 => (unfold x; clear x)); (on_goal 2 => (intro hx; first | clear_value x | skip))) | clear_value x | skip)
    | (with_reducible refine putb_keepsAt (by assumption) ?_)
    | (with_reducible refine putb_keeps (by assumption) ?_)
    | with_reducible apply keeps_ite
    | split
    | refine keeps_ite ?_ ?_)

def touchLswEnter (A : Part → Prop) (n : Nat) : Prop := touchLswState A n
theorem touchLswEnter_all (h : ∀ q, A q) {n : Nat} : touchLswEnter A n := touchLswState_all h
theorem lswEnter_keeps {n : ℕ} (hA : touchLswEnter A n)  (h : Keeps A s t) : Keeps A s (State.lswEnter t n) := by
  unfold State.lswEnter
  unfold touchLswEnter at hA
  repeat' (first
    | with_reducible assumption
    | intro y
    | (extract_lets +onlyGivenNames x; first | (refine cut (P := Keeps A s x) ?_ ?_; (on_goal 1 => (unfold x; clear x)); (on_goal 2 => (intro hx; first | clear_value x | skip))) | clear_value x | skip)
    | (with_reducible apply lswState_keeps (hA := by first | with_reducible assumption | with_reducible apply_assumption))
    | with_reducible apply keeps_ite
    | split
    | refine keeps_ite ?_ ?_)

def touchLswCommand (A : Part → Prop) (n : Nat) : Prop := A (.inst R.LSW_CH_CTRL.ON n 0) ∧ touchLswEnter A n ∧ touchLswState A n
theorem touchLswCommand_all (h : ∀ q, A q) {n : Nat} : touchLswCommand A n := ⟨h _, touchLswEnter_all h, touchLswState_all h⟩
theorem lswCommand_keeps {n : ℕ} {on : Bool} (hA : touchLswCommand A n)  (h : Keeps A s t) : Keeps A s (State.lswCommand t n on) := by
  unfold State.lswCommand
  obtain ⟨_, _, _⟩ := hA
  repeat' (first
    | with_reducible assumption
    | intro y
    | (extract_lets +onlyGivenNames x; first | (refine cut (P := Keeps A s x) ?_ ?_; (on_goal 1 => (unfold x; clear x)); (on_goal 2 => (intro hx; first | clear_value x | skip))) | clear_value x | skip)
    | (with_reducible refine put_keepsAt (by assumption) ?_)
    | (with_reducible refine put_keeps (by assumption) ?_)
    | (with_reducible apply lswEnter_keeps (hA := by first | with_reducible assumption | with_reducible apply_assumption))
    | (with_reducible apply lswState_keeps (hA := by first | with_reducible assumption | with_reducible apply_assumption))
    | with_reducible apply keeps_ite
    | split
    | refine keeps_ite ?_ ?_)

def touchLswResume (A : Part → Prop) (n : Nat) : Prop := touchLswEnter A n ∧ touchLswState A n
theorem touchLswResume_all (h : ∀ q, A q) {n : Nat} : touchLswResume A n := ⟨touchLswEnter_all h, touchLswState_all h⟩
theorem lswResume_keeps {n : ℕ} (hA : touchLswResume A n)  (h : Keeps A s t) : Keeps A s (State.lswResume t n) := by
  unfold State.lswResume
  obtain ⟨_, _⟩ := hA
  repeat' (first
    | with_reducible assumption
    | intro y
    | (extract_lets +onlyGivenNames x; first | (refine cut (P := Keeps A s x) ?_ ?_; (on_goal 1 => (unfold x; clear x)); (on_goal 2 => (intro hx; first | clear_value x | skip))) | clear_value x | skip)
    | (with_reducible apply lswEnter_keeps (hA := by first | with_reducible assumption | with_reducible apply_assumption))
    | (with_reducible apply lswState_keeps (hA := by first | with_reducible assumption | with_reducible apply_assumption))
    | with_reducible apply keeps_ite
    | split
    | refine keeps_ite ?_ ?_)

def touchLswJunction (A : Part → Prop) (n : Nat) : Prop := A (.inst R.LSW_CH_MEAS.TJ n 0) ∧ A .lsw ∧ touchLswEnter A n ∧ touchLswState A n
theorem touchLswJunction_all (h : ∀ q, A q) {n : Nat} : touchLswJunction A n := ⟨h _, h _, touchLswEnter_all h, touchLswState_all h⟩
theorem lswJunction_keeps {n : ℕ} {tj : ℤ} (hA : touchLswJunction A n)  (h : Keeps A s t) : Keeps A s (State.lswJunction t n tj) := by
  unfold State.lswJunction
  obtain ⟨_, _, _, _⟩ := hA
  repeat' (first
    | with_reducible assumption
    | intro y
    | (extract_lets +onlyGivenNames x; first | (refine cut (P := Keeps A s x) ?_ ?_; (on_goal 1 => (unfold x; clear x)); (on_goal 2 => (intro hx; first | clear_value x | skip))) | clear_value x | skip)
    | (with_reducible refine putSat_keepsAt (by assumption) ?_)
    | (with_reducible refine putSat_keeps (by assumption) ?_)
    | (with_reducible apply lswEnter_keeps (hA := by first | with_reducible assumption | with_reducible apply_assumption))
    | (with_reducible apply lswState_keeps (hA := by first | with_reducible assumption | with_reducible apply_assumption))
    | with_reducible apply keeps_ite
    | split
    | refine keeps_ite ?_ ?_
    | with_reducible exact keeps_lsw (by assumption) (by assumption))

def touchLswUnnamed (A : Part → Prop) : Prop := A (.reg R.LSW_CH_STAT.FRAC)
theorem touchLswUnnamed_all (h : ∀ q, A q) : touchLswUnnamed A := h _
theorem lswUnnamed_keeps  (hA : touchLswUnnamed A)  (h : Keeps A s t) : Keeps A s (State.lswUnnamed t) := by
  unfold State.lswUnnamed
  unfold touchLswUnnamed at hA
  repeat' (first
    | with_reducible assumption
    | intro y
    | (extract_lets +onlyGivenNames x; first | (refine cut (P := Keeps A s x) ?_ ?_; (on_goal 1 => (unfold x; clear x)); (on_goal 2 => (intro hx; first | clear_value x | skip))) | clear_value x | skip)
    | (with_reducible refine put_keepsAt (by assumption) ?_)
    | (with_reducible refine put_keeps (by assumption) ?_)
    | with_reducible apply each_keeps
    | with_reducible apply keeps_ite
    | split
    | refine keeps_ite ?_ ?_)

def touchSetConn (A : Part → Prop) : Prop := A .conns
theorem touchSetConn_all (h : ∀ q, A q) : touchSetConn A := h _
theorem setConn_keeps {c : ℕ} {x0 : Sys2Proof.Machine.ConnX} (hA : touchSetConn A)  (h : Keeps A s t) : Keeps A s (State.setConn t c x0) := by
  unfold State.setConn
  unfold touchSetConn at hA
  repeat' (first
    | with_reducible assumption
    | intro y
    | (extract_lets +onlyGivenNames x; first | (refine cut (P := Keeps A s x) ?_ ?_; (on_goal 1 => (unfold x; clear x)); (on_goal 2 => (intro hx; first | clear_value x | skip))) | clear_value x | skip)
    | with_reducible apply keeps_ite
    | split
    | with_reducible exact keeps_conns (by assumption) (by assumption))

def touchLoopSet (A : Part → Prop) (l : Nat) : Prop := A (.inst R.LE_L_U_MIN.U_MIN l 0) ∧ A (.inst R.LE_L_U_MAX.U_MAX l 0) ∧ A (.inst R.LE_L_R_TGT.R_TGT l 0)
theorem touchLoopSet_all (h : ∀ q, A q) {l : Nat} : touchLoopSet A l := ⟨h _, h _, h _⟩
theorem loopSet_keeps {l : ℕ} {rt : ℕ} {hi : ℤ} {lo : ℤ} (hA : touchLoopSet A l)  (h : Keeps A s t) : Keeps A s (State.loopSet t l rt hi lo) := by
  unfold State.loopSet
  obtain ⟨_, _, _⟩ := hA
  repeat' (first
    | with_reducible assumption
    | intro y
    | (extract_lets +onlyGivenNames x; first | (refine cut (P := Keeps A s x) ?_ ?_; (on_goal 1 => (unfold x; clear x)); (on_goal 2 => (intro hx; first | clear_value x | skip))) | clear_value x | skip)
    | (with_reducible refine putf_keepsAt (by assumption) ?_)
    | (with_reducible refine putf_keeps (by assumption) ?_)
    | with_reducible apply keeps_ite
    | split
    | refine keeps_ite ?_ ?_)

def touchComply (A : Part → Prop) (c : Nat) : Prop := A (.inst R.VS_CONN_STAT.COMPLY c 0)
theorem touchComply_all (h : ∀ q, A q) {c : Nat} : touchComply A c := h _
theorem comply_keeps {c : ℕ} (hA : touchComply A c)  (h : Keeps A s t) : Keeps A s (State.comply t c) := by
  unfold State.comply
  unfold touchComply at hA
  repeat' (first
    | with_reducible assumption
    | intro y
    | (extract_lets +onlyGivenNames x; first | (refine cut (P := Keeps A s x) ?_ ?_; (on_goal 1 => (unfold x; clear x)); (on_goal 2 => (intro hx; first | clear_value x | skip))) | clear_value x | skip)
    | (with_reducible refine putb_keepsAt (by assumption) ?_)
    | (with_reducible refine putb_keeps (by assumption) ?_)
    | with_reducible apply keeps_ite
    | split
    | refine keeps_ite ?_ ?_)

def touchConnDrive (A : Part → Prop) (c : Nat) : Prop := touchSetConn A ∧ touchComply A c ∧ (∀ x0, touchLoopSet A x0)
theorem touchConnDrive_all (h : ∀ q, A q) {c : Nat} : touchConnDrive A c := ⟨touchSetConn_all h, touchComply_all h, (fun _ => touchLoopSet_all h)⟩
theorem connDrive_keeps {c : ℕ} {rt : ℕ} {hi : ℤ} {lo : ℤ} (hA : touchConnDrive A c)  (h : Keeps A s t) : Keeps A s (State.connDrive t c rt hi lo) := by
  unfold State.connDrive
  obtain ⟨_, _, _⟩ := hA
  repeat' (first
    | with_reducible assumption
    | intro y
    | (extract_lets +onlyGivenNames x; first | (refine cut (P := Keeps A s x) ?_ ?_; (on_goal 1 => (unfold x; clear x)); (on_goal 2 => (intro hx; first | clear_value x | skip))) | clear_value x | skip)
    | (with_reducible apply setConn_keeps (hA := by first | with_reducible assumption | with_reducible apply_assumption))
    | (with_reducible apply comply_keeps (hA := by first | with_reducible assumption | with_reducible apply_assumption))
    | (with_reducible apply loopSet_keeps (hA := by first | with_reducible assumption | with_reducible apply_assumption))
    | with_reducible apply keeps_ite
    | split
    | refine keeps_ite ?_ ?_)

def touchLimitsZero (A : Part → Prop) (c : Nat) : Prop := touchConnDrive A c
theorem touchLimitsZero_all (h : ∀ q, A q) {c : Nat} : touchLimitsZero A c := touchConnDrive_all h
theorem limitsZero_keeps {c : ℕ} (hA : touchLimitsZero A c)  (h : Keeps A s t) : Keeps A s (State.limitsZero t c) := by
  unfold State.limitsZero
  unfold touchLimitsZero at hA
  repeat' (first
    | with_reducible assumption
    | intro y
    | (extract_lets +onlyGivenNames x; first | (refine cut (P := Keeps A s x) ?_ ?_; (on_goal 1 => (unfold x; clear x)); (on_goal 2 => (intro hx; first | clear_value x | skip))) | clear_value x | skip)
    | (with_reducible apply connDrive_keeps (hA := by first | with_reducible assumption | with_reducible apply_assumption))
    | with_reducible apply keeps_ite
    | split
    | refine keeps_ite ?_ ?_)

def touchConnState (A : Part → Prop) (c : Nat) : Prop := A (.inst R.VS_CONN_STAT.STATE c 0)
theorem touchConnState_all (h : ∀ q, A q) {c : Nat} : touchConnState A c := h _
theorem connState_keeps {c : ℕ} {st : ℕ} (hA : touchConnState A c)  (h : Keeps A s t) : Keeps A s (State.connState t c st) := by
  unfold State.connState
  unfold touchConnState at hA
  repeat' (first
    | with_reducible assumption
    | intro y
    | (with_reducible refine put_keepsAt (by assumption) ?_)
    | (with_reducible refine put_keeps (by assumption) ?_)
    | with_reducible apply keeps_ite
    | split)

def touchConnEnd (A : Part → Prop) (c : Nat) : Prop := A (.inst R.VS_CONN_STAT.END c 0)
theorem touchConnEnd_all (h : ∀ q, A q) {c : Nat} : touchConnEnd A c := h _
theorem connEnd_keeps {c : ℕ} {code : ℕ} (hA : touchConnEnd A c)  (h : Keeps A s t) : Keeps A s (State.connEnd t c code) := by
  unfold State.connEnd
  unfold touchConnEnd at hA
  repeat' (first
    | with_reducible assumption
    | intro y
    | (with_reducible refine put_keepsAt (by assumption) ?_)
    | (with_reducible refine put_keeps (by assumption) ?_)
    | with_reducible apply keeps_ite
    | split)

def touchConnFault (A : Part → Prop) (c : Nat) : Prop := A (.inst R.VS_CONN_CNT.FAULTS c 0) ∧ A (.inst R.VS_CONN_STAT.FAULT_SEEN c 0) ∧ touchConnState A c
theorem touchConnFault_all (h : ∀ q, A q) {c : Nat} : touchConnFault A c := ⟨h _, h _, touchConnState_all h⟩
theorem connFault_keeps {c : ℕ} (hA : touchConnFault A c)  (h : Keeps A s t) : Keeps A s (State.connFault t c) := by
  unfold State.connFault
  obtain ⟨_, _, _⟩ := hA
  repeat' (first
    | with_reducible assumption
    | intro y
    | (with_reducible refine inc_keepsAt (by assumption) ?_)
    | (with_reducible refine inc_keeps (by assumption) ?_)
    | (with_reducible refine put_keepsAt (by assumption) ?_)
    | (with_reducible refine put_keeps (by assumption) ?_)
    | (with_reducible apply connState_keeps (hA := by first | with_reducible assumption | with_reducible apply_assumption))
    | with_reducible apply keeps_ite
    | split)

def touchCauseLog (A : Part → Prop) : Prop := touchLog A
theorem touchCauseLog_all (h : ∀ q, A q) : touchCauseLog A := touchLog_all h
theorem causeLog_keeps {c : ℕ} {code : ℕ} (hA : touchCauseLog A)  (h : Keeps A s t) : Keeps A s (State.causeLog t c code) := by
  unfold State.causeLog
  unfold touchCauseLog at hA
  repeat' (first
    | with_reducible assumption
    | intro y
    | (extract_lets +onlyGivenNames x; first | (refine cut (P := Keeps A s x) ?_ ?_; (on_goal 1 => (unfold x; clear x)); (on_goal 2 => (intro hx; first | clear_value x | skip))) | clear_value x | skip)
    | (with_reducible apply log_keeps (hA := by first | with_reducible assumption | with_reducible apply_assumption))
    | with_reducible apply keeps_ite
    | split
    | refine keeps_ite ?_ ?_)

def touchFastStop (A : Part → Prop) (c : Nat) : Prop := touchLog A ∧ A (.inst R.VS_CONN_STAT.FAST c 0) ∧ touchConnEnd A c ∧ touchConnState A c ∧ touchLimitsZero A c ∧ touchSetConn A ∧ touchCauseLog A
theorem touchFastStop_all (h : ∀ q, A q) {c : Nat} : touchFastStop A c := ⟨touchLog_all h, h _, touchConnEnd_all h, touchConnState_all h, touchLimitsZero_all h, touchSetConn_all h, touchCauseLog_all h⟩
theorem fastStop_keeps {c : ℕ} {code : ℕ} (hA : touchFastStop A c)  (h : Keeps A s t) : Keeps A s (State.fastStop t c code) := by
  unfold State.fastStop
  obtain ⟨_, _, _, _, _, _, _⟩ := hA
  repeat' (first
    | with_reducible assumption
    | intro y
    | (extract_lets +onlyGivenNames x; first | (refine cut (P := Keeps A s x) ?_ ?_; (on_goal 1 => (unfold x; clear x)); (on_goal 2 => (intro hx; first | clear_value x | skip))) | clear_value x | skip)
    | (with_reducible refine put_keepsAt (by assumption) ?_)
    | (with_reducible refine put_keeps (by assumption) ?_)
    | (with_reducible apply log_keeps (hA := by first | with_reducible assumption | with_reducible apply_assumption))
    | (with_reducible apply connEnd_keeps (hA := by first | with_reducible assumption | with_reducible apply_assumption))
    | (with_reducible apply connState_keeps (hA := by first | with_reducible assumption | with_reducible apply_assumption))
    | (with_reducible apply limitsZero_keeps (hA := by first | with_reducible assumption | with_reducible apply_assumption))
    | (with_reducible apply setConn_keeps (hA := by first | with_reducible assumption | with_reducible apply_assumption))
    | (with_reducible apply causeLog_keeps (hA := by first | with_reducible assumption | with_reducible apply_assumption))
    | with_reducible apply keeps_ite
    | split
    | refine keeps_ite ?_ ?_)

def touchNormalStop (A : Part → Prop) (c : Nat) : Prop := A (.inst R.VS_CONN_STAT.FAST c 0) ∧ touchConnEnd A c ∧ touchConnState A c ∧ touchLimitsZero A c ∧ touchSetConn A
theorem touchNormalStop_all (h : ∀ q, A q) {c : Nat} : touchNormalStop A c := ⟨h _, touchConnEnd_all h, touchConnState_all h, touchLimitsZero_all h, touchSetConn_all h⟩
theorem normalStop_keeps {c : ℕ} {code : ℕ} (hA : touchNormalStop A c)  (h : Keeps A s t) : Keeps A s (State.normalStop t c code) := by
  unfold State.normalStop
  obtain ⟨_, _, _, _, _⟩ := hA
  repeat' (first
    | with_reducible assumption
    | intro y
    | (extract_lets +onlyGivenNames x; first | (refine cut (P := Keeps A s x) ?_ ?_; (on_goal 1 => (unfold x; clear x)); (on_goal 2 => (intro hx; first | clear_value x | skip))) | clear_value x | skip)
    | (with_reducible refine put_keepsAt (by assumption) ?_)
    | (with_reducible refine put_keeps (by assumption) ?_)
    | (with_reducible apply connEnd_keeps (hA := by first | with_reducible assumption | with_reducible apply_assumption))
    | (with_reducible apply connState_keeps (hA := by first | with_reducible assumption | with_reducible apply_assumption))
    | (with_reducible apply limitsZero_keeps (hA := by first | with_reducible assumption | with_reducible apply_assumption))
    | (with_reducible apply setConn_keeps (hA := by first | with_reducible assumption | with_reducible apply_assumption))
    | with_reducible apply keeps_ite
    | split)

def touchFastStopAll (A : Part → Prop) : Prop := (∀ x0, touchFastStop A x0)
theorem touchFastStopAll_all (h : ∀ q, A q) : touchFastStopAll A := fun _ => touchFastStop_all h
theorem fastStopAll_keeps {code : ℕ} (hA : touchFastStopAll A)  (h : Keeps A s t) : Keeps A s (State.fastStopAll t code) := by
  unfold State.fastStopAll
  unfold touchFastStopAll at hA
  repeat' (first
    | with_reducible assumption
    | intro y
    | with_reducible apply each_keeps
    | (with_reducible apply fastStop_keeps (hA := by first | with_reducible assumption | with_reducible apply_assumption))
    | with_reducible apply keeps_ite
    | split)

def touchSetNeed (A : Part → Prop) : Prop := A .needs
theorem touchSetNeed_all (h : ∀ q, A q) : touchSetNeed A := h _
theorem setNeed_keeps {g : ℕ} {x0 : Sys2Proof.Machine.NeedX} (hA : touchSetNeed A)  (h : Keeps A s t) : Keeps A s (State.setNeed t g x0) := by
  unfold State.setNeed
  unfold touchSetNeed at hA
  repeat' (first
    | with_reducible assumption
    | intro y
    | (extract_lets +onlyGivenNames x; first | (refine cut (P := Keeps A s x) ?_ ?_; (on_goal 1 => (unfold x; clear x)); (on_goal 2 => (intro hx; first | clear_value x | skip))) | clear_value x | skip)
    | with_reducible apply keeps_ite
    | split
    | with_reducible exact keeps_needs (by assumption) (by assumption))

def touchHalfCycleAges (A : Part → Prop) : Prop := touchSetNeed A ∧ touchSetConn A
theorem touchHalfCycleAges_all (h : ∀ q, A q) : touchHalfCycleAges A := ⟨touchSetNeed_all h, touchSetConn_all h⟩
theorem halfCycleAges_keeps  (hA : touchHalfCycleAges A)  (h : Keeps A s t) : Keeps A s (State.halfCycleAges t) := by
  unfold State.halfCycleAges
  obtain ⟨_, _⟩ := hA
  repeat' (first
    | with_reducible assumption
    | intro y
    | (extract_lets +onlyGivenNames x; first | (refine cut (P := Keeps A s x) ?_ ?_; (on_goal 1 => (unfold x; clear x)); (on_goal 2 => (intro hx; first | clear_value x | skip))) | clear_value x | skip)
    | with_reducible apply each_keeps
    | (with_reducible apply setNeed_keeps (hA := by first | with_reducible assumption | with_reducible apply_assumption))
    | (with_reducible apply setConn_keeps (hA := by first | with_reducible assumption | with_reducible apply_assumption))
    | with_reducible apply keeps_ite
    | split
    | refine keeps_ite ?_ ?_)

def touchSetSeq (A : Part → Prop) : Prop := A .saf
theorem touchSetSeq_all (h : ∀ q, A q) : touchSetSeq A := h _
theorem setSeq_keeps {c : ℕ} {v : ℕ} (hA : touchSetSeq A)  (h : Keeps A s t) : Keeps A s (State.setSeq t c v) := by
  unfold State.setSeq
  unfold touchSetSeq at hA
  repeat' (first
    | with_reducible assumption
    | intro y
    | (extract_lets +onlyGivenNames x; first | (refine cut (P := Keeps A s x) ?_ ?_; (on_goal 1 => (unfold x; clear x)); (on_goal 2 => (intro hx; first | clear_value x | skip))) | clear_value x | skip)
    | with_reducible apply keeps_ite
    | split
    | with_reducible exact keeps_saf (by assumption) (by assumption))

def touchLatchClear (A : Part → Prop) (n : Nat) : Prop := A .pins ∧ A .saf ∧ touchLswPins A ∧ touchLswState A n ∧ A (.inst R.LSW_CH_CTRL.ON n 0)
theorem touchLatchClear_all (h : ∀ q, A q) {n : Nat} : touchLatchClear A n := ⟨h _, h _, touchLswPins_all h, touchLswState_all h, h _⟩
theorem latchClear_keeps {n : ℕ} (hA : touchLatchClear A n)  (h : Keeps A s t) : Keeps A s (State.latchClear t n) := by
  unfold State.latchClear
  obtain ⟨_, _, _, _, _⟩ := hA
  repeat' (first
    | with_reducible assumption
    | intro y
    | (extract_lets +onlyGivenNames x; first | (refine cut (P := Keeps A s x) ?_ ?_; (on_goal 1 => (unfold x; clear x)); (on_goal 2 => (intro hx; first | clear_value x | skip))) | clear_value x | skip)
    | (with_reducible apply lswPins_keeps (hA := by first | with_reducible assumption | with_reducible apply_assumption))
    | (with_reducible apply lswState_keeps (hA := by first | with_reducible assumption | with_reducible apply_assumption))
    | (with_reducible refine put_keepsAt (by assumption) ?_)
    | (with_reducible refine put_keeps (by assumption) ?_)
    | with_reducible apply keeps_ite
    | split
    | refine keeps_ite ?_ ?_
    | with_reducible exact keeps_pins (by assumption) (by assumption)
    | with_reducible exact keeps_saf (by assumption) (by assumption))

def touchSafDone (A : Part → Prop) : Prop := touchLog A ∧ A (.reg R.SAF_STAT.DONE)
theorem touchSafDone_all (h : ∀ q, A q) : touchSafDone A := ⟨touchLog_all h, h _⟩
theorem safDone_keeps {ms : ℕ} (hA : touchSafDone A)  (h : Keeps A s t) : Keeps A s (State.safDone t ms) := by
  unfold State.safDone
  obtain ⟨_, _⟩ := hA
  repeat' (first
    | with_reducible assumption
    | intro y
    | (extract_lets +onlyGivenNames x; first | (refine cut (P := Keeps A s x) ?_ ?_; (on_goal 1 => (unfold x; clear x)); (on_goal 2 => (intro hx; first | clear_value x | skip))) | clear_value x | skip)
    | (with_reducible refine put_keepsAt (by assumption) ?_)
    | (with_reducible refine put_keeps (by assumption) ?_)
    | (with_reducible apply log_keeps (hA := by first | with_reducible assumption | with_reducible apply_assumption))
    | with_reducible apply keeps_ite
    | split
    | refine keeps_ite ?_ ?_)

def touchHeldEnds (A : Part → Prop) : Prop := A .saf ∧ A (.reg R.SAF_STAT.HELD)
theorem touchHeldEnds_all (h : ∀ q, A q) : touchHeldEnds A := ⟨h _, h _⟩
theorem heldEnds_keeps {c : ℕ} (hA : touchHeldEnds A)  (h : Keeps A s t) : Keeps A s (State.heldEnds t c) := by
  unfold State.heldEnds
  obtain ⟨_, _⟩ := hA
  repeat' (first
    | with_reducible assumption
    | intro y
    | (extract_lets +onlyGivenNames x; first | (refine cut (P := Keeps A s x) ?_ ?_; (on_goal 1 => (unfold x; clear x)); (on_goal 2 => (intro hx; first | clear_value x | skip))) | clear_value x | skip)
    | (with_reducible refine putb_keepsAt (by assumption) ?_)
    | (with_reducible refine putb_keeps (by assumption) ?_)
    | with_reducible apply keeps_ite
    | split
    | refine keeps_ite ?_ ?_
    | with_reducible exact keeps_saf (by assumption) (by assumption))

def touchConnOpened (A : Part → Prop) : Prop := touchSafDone A ∧ touchHeldEnds A ∧ touchSetSeq A
theorem touchConnOpened_all (h : ∀ q, A q) : touchConnOpened A := ⟨touchSafDone_all h, touchHeldEnds_all h, touchSetSeq_all h⟩
theorem connOpened_keeps {c : ℕ} {ms : ℕ} (hA : touchConnOpened A)  (h : Keeps A s t) : Keeps A s (State.connOpened t c ms) := by
  unfold State.connOpened
  obtain ⟨_, _, _⟩ := hA
  repeat' (first
    | with_reducible assumption
    | intro y
    | (extract_lets +onlyGivenNames x; first | (refine cut (P := Keeps A s x) ?_ ?_; (on_goal 1 => (unfold x; clear x)); (on_goal 2 => (intro hx; first | clear_value x | skip))) | clear_value x | skip)
    | (with_reducible apply safDone_keeps (hA := by first | with_reducible assumption | with_reducible apply_assumption))
    | (with_reducible apply heldEnds_keeps (hA := by first | with_reducible assumption | with_reducible apply_assumption))
    | (with_reducible apply setSeq_keeps (hA := by first | with_reducible assumption | with_reducible apply_assumption))
    | with_reducible apply keeps_ite
    | split
    | refine keeps_ite ?_ ?_)

def touchSafTripped (A : Part → Prop) : Prop := touchSafDone A ∧ touchHeldEnds A ∧ A .saf ∧ touchConnOpened A
theorem touchSafTripped_all (h : ∀ q, A q) : touchSafTripped A := ⟨touchSafDone_all h, touchHeldEnds_all h, h _, touchConnOpened_all h⟩
theorem safTripped_keeps {n : ℕ} (hA : touchSafTripped A)  (h : Keeps A s t) : Keeps A s (State.safTripped t n) := by
  unfold State.safTripped
  obtain ⟨_, _, _, _⟩ := hA
  repeat' (first
    | with_reducible assumption
    | intro y
    | (extract_lets +onlyGivenNames x; first | (refine cut (P := Keeps A s x) ?_ ?_; (on_goal 1 => (unfold x; clear x)); (on_goal 2 => (intro hx; first | clear_value x | skip))) | clear_value x | skip)
    | (with_reducible apply safDone_keeps (hA := by first | with_reducible assumption | with_reducible apply_assumption))
    | (with_reducible apply heldEnds_keeps (hA := by first | with_reducible assumption | with_reducible apply_assumption))
    | (with_reducible apply connOpened_keeps (hA := by first | with_reducible assumption | with_reducible apply_assumption))
    | with_reducible apply each_keeps
    | with_reducible apply keeps_ite
    | split
    | refine keeps_ite ?_ ?_
    | with_reducible exact keeps_saf (by assumption) (by assumption))

def touchSafReact (A : Part → Prop) : Prop := A (.reg R.PWR_STATE.STATE) ∧ touchStopPhases A ∧ touchFastStopAll A ∧ (∀ x0, touchInjEnd A x0)
theorem touchSafReact_all (h : ∀ q, A q) : touchSafReact A := ⟨h _, touchStopPhases_all h, touchFastStopAll_all h, fun _ => touchInjEnd_all h⟩
theorem safReact_keeps  (hA : touchSafReact A)  (h : Keeps A s t) : Keeps A s (State.safReact t) := by
  unfold State.safReact
  obtain ⟨_, _, _, _⟩ := hA
  repeat' (first
    | with_reducible assumption
    | intro y
    | (extract_lets +onlyGivenNames x; first | (refine cut (P := Keeps A s x) ?_ ?_; (on_goal 1 => (unfold x; clear x)); (on_goal 2 => (intro hx; first | clear_value x | skip))) | clear_value x | skip)
    | with_reducible apply when_keeps
    | (with_reducible refine put_keepsAt (by assumption) ?_)
    | (with_reducible refine put_keeps (by assumption) ?_)
    | (with_reducible apply stopPhases_keeps (hA := by first | with_reducible assumption | with_reducible apply_assumption))
    | (with_reducible apply fastStopAll_keeps (hA := by first | with_reducible assumption | with_reducible apply_assumption))
    | with_reducible apply each_keeps
    | (with_reducible apply injEnd_keeps (hA := by first | with_reducible assumption | with_reducible apply_assumption))
    | with_reducible apply keeps_ite
    | split
    | refine keeps_ite ?_ ?_)

def touchAmendEntry (A : Part → Prop) : Prop := A .evr
theorem touchAmendEntry_all (h : ∀ q, A q) : touchAmendEntry A := h _
theorem amendEntry_keeps  (hA : touchAmendEntry A)  (h : Keeps A s t) : Keeps A s (State.amendEntry t) := by
  unfold State.amendEntry
  unfold touchAmendEntry at hA
  repeat' (first
    | with_reducible assumption
    | intro y
    | (extract_lets +onlyGivenNames x; first | (refine cut (P := Keeps A s x) ?_ ?_; (on_goal 1 => (unfold x; clear x)); (on_goal 2 => (intro hx; first | clear_value x | skip))) | (unfold x; clear x) | clear_value x | skip)
    | with_reducible apply keeps_ite
    | split
    | refine keeps_ite ?_ ?_
    | with_reducible exact keeps_evr (by assumption) (by first | exact List.prefix_rfl | exact List.prefix_append _ _ | exact intake_mor _ _ | exact hold78_mor _ _ | exact release_mor _) (by assumption))

def touchSafJoin (A : Part → Prop) : Prop := A (.reg R.SAF_FIRST.FIRST) ∧ A .saf ∧ touchAmendEntry A
theorem touchSafJoin_all (h : ∀ q, A q) : touchSafJoin A := ⟨h _, h _, touchAmendEntry_all h⟩
theorem safJoin_keeps {src : ℕ} {code : ℕ} {lead : ℕ} (hA : touchSafJoin A)  (h : Keeps A s t) : Keeps A s (State.safJoin t src code lead) := by
  unfold State.safJoin
  obtain ⟨_, _, _⟩ := hA
  repeat' (first
    | with_reducible assumption
    | intro y
    | (extract_lets +onlyGivenNames x; first | (refine cut (P := Keeps A s x) ?_ ?_; (on_goal 1 => (unfold x; clear x)); (on_goal 2 => (intro hx; first | clear_value x | skip))) | clear_value x | skip)
    | (with_reducible refine put_keepsAt (by assumption) ?_)
    | (with_reducible refine put_keeps (by assumption) ?_)
    | (with_reducible apply amendEntry_keeps (hA := by first | with_reducible assumption | with_reducible apply_assumption))
    | with_reducible apply keeps_ite
    | split
    | refine keeps_ite ?_ ?_
    | with_reducible exact keeps_saf (by assumption) (by assumption))

def touchSafActivate (A : Part → Prop) : Prop := A (.reg R.SAF_FIRST.SO_CNT) ∧ A (.reg R.SAF_FIRST.FIRST) ∧ A (.reg R.SAF_STAT.DONE) ∧ A (.reg R.SAF_STAT.ACTIVE) ∧ touchLog A ∧ touchDrivesLow A ∧ A .saf ∧ (∀ x0, touchLatchClear A x0) ∧ touchSetSeq A ∧ touchSafDone A ∧ touchSafReact A
theorem touchSafActivate_all (h : ∀ q, A q) : touchSafActivate A := ⟨h _, h _, h _, h _, touchLog_all h, touchDrivesLow_all h, h _, (fun _ => touchLatchClear_all h), touchSetSeq_all h, touchSafDone_all h, touchSafReact_all h⟩
theorem safActivate_keeps {src : ℕ} {code : ℕ} (hA : touchSafActivate A)  (h : Keeps A s t) : Keeps A s (State.safActivate t src code) := by
  unfold State.safActivate
  obtain ⟨_, _, _, _, _, _, _, _, _, _, _⟩ := hA
  repeat' (first
    | with_reducible assumption
    | intro y
    | (extract_lets +onlyGivenNames x; first | (refine cut (P := Keeps A s x) ?_ ?_; (on_goal 1 => (unfold x; clear x)); (on_goal 2 => (intro hx; first | clear_value x | skip))) | clear_value x | skip)
    | (with_reducible refine put_keepsAt (by assumption) ?_)
    | (with_reducible refine put_keeps (by assumption) ?_)
    | (with_reducible refine inc_keepsAt (by assumption) ?_)
    | (with_reducible refine inc_keeps (by assumption) ?_)
    | (with_reducible apply log_keeps (hA := by first | with_reducible assumption | with_reducible apply_assumption))
    | (with_reducible apply drivesLow_keeps (hA := by first | with_reducible assumption | with_reducible apply_assumption))
    | (with_reducible apply latchClear_keeps (hA := by first | with_reducible assumption | with_reducible apply_assumption))
    | (with_reducible apply setSeq_keeps (hA := by first | with_reducible assumption | with_reducible apply_assumption))
    | (with_reducible apply safDone_keeps (hA := by first | with_reducible assumption | with_reducible apply_assumption))
    | (with_reducible apply safReact_keeps (hA := by first | with_reducible assumption | with_reducible apply_assumption))
    | with_reducible apply each_keeps
    | with_reducible apply eachBit_keeps
    | with_reducible apply keeps_ite
    | split
    | refine keeps_ite ?_ ?_
    | with_reducible exact keeps_saf (by assumption) (by assumption))

def touchReqSafeOff (A : Part → Prop) : Prop := A (.reg R.SAF_SRC.SRC_SEEN) ∧ A (.reg R.SAF_SRC.SRC) ∧ A .saf ∧ touchSafActivate A ∧ touchSafJoin A
theorem touchReqSafeOff_all (h : ∀ q, A q) : touchReqSafeOff A := ⟨h _, h _, h _, touchSafActivate_all h, touchSafJoin_all h⟩
theorem reqSafeOff_keeps {src : ℕ} {code : ℕ} (hA : touchReqSafeOff A)  (h : Keeps A s t) : Keeps A s (State.reqSafeOff t src code) := by
  unfold State.reqSafeOff
  obtain ⟨_, _, _, _, _⟩ := hA
  repeat' (first
    | with_reducible assumption
    | intro y
    | (extract_lets +onlyGivenNames x; first | (refine cut (P := Keeps A s x) ?_ ?_; (on_goal 1 => (unfold x; clear x)); (on_goal 2 => (intro hx; first | clear_value x | skip))) | clear_value x | skip)
    | (with_reducible refine put_keepsAt (by assumption) ?_)
    | (with_reducible refine put_keeps (by assumption) ?_)
    | (with_reducible apply safActivate_keeps (hA := by first | with_reducible assumption | with_reducible apply_assumption))
    | (with_reducible apply safJoin_keeps (hA := by first | with_reducible assumption | with_reducible apply_assumption))
    | with_reducible apply keeps_ite
    | split
    | refine keeps_ite ?_ ?_
    | with_reducible exact keeps_saf (by assumption) (by assumption))

def touchSupplyFailList (A : Part → Prop) : Prop := A .saf ∧ touchDrivesLow A ∧ touchSetSeq A
theorem touchSupplyFailList_all (h : ∀ q, A q) : touchSupplyFailList A := ⟨h _, touchDrivesLow_all h, touchSetSeq_all h⟩
theorem supplyFailList_keeps  (hA : touchSupplyFailList A)  (h : Keeps A s t) : Keeps A s (State.supplyFailList t) := by
  unfold State.supplyFailList
  obtain ⟨_, _, _⟩ := hA
  repeat' (first
    | with_reducible assumption
    | intro y
    | (extract_lets +onlyGivenNames x; first | (refine cut (P := Keeps A s x) ?_ ?_; (on_goal 1 => (unfold x; clear x)); (on_goal 2 => (intro hx; first | clear_value x | skip))) | clear_value x | skip)
    | (with_reducible apply drivesLow_keeps (hA := by first | with_reducible assumption | with_reducible apply_assumption))
    | with_reducible apply each_keeps
    | (with_reducible apply setSeq_keeps (hA := by first | with_reducible assumption | with_reducible apply_assumption))
    | with_reducible apply keeps_ite
    | split
    | refine keeps_ite ?_ ?_
    | with_reducible exact keeps_saf (by assumption) (by assumption))

def touchLswProtect (A : Part → Prop) : Prop := touchSafTripped A ∧ touchReqSafeOff A
theorem touchLswProtect_all (h : ∀ q, A q) : touchLswProtect A := ⟨touchSafTripped_all h, touchReqSafeOff_all h⟩
theorem lswProtect_keeps {n : ℕ} {code : ℕ} (hA : touchLswProtect A)  (h : Keeps A s t) : Keeps A s (State.lswProtect t n code) := by
  unfold State.lswProtect
  obtain ⟨_, _⟩ := hA
  repeat' (first
    | with_reducible assumption
    | intro y
    | (extract_lets +onlyGivenNames x; first | (refine cut (P := Keeps A s x) ?_ ?_; (on_goal 1 => (unfold x; clear x)); (on_goal 2 => (intro hx; first | clear_value x | skip))) | clear_value x | skip)
    | (with_reducible apply safTripped_keeps (hA := by first | with_reducible assumption | with_reducible apply_assumption))
    | (with_reducible apply reqSafeOff_keeps (hA := by first | with_reducible assumption | with_reducible apply_assumption))
    | with_reducible apply keeps_ite
    | split
    | refine keeps_ite ?_ ?_)

end Sys2Proof.Laws
end

