-- ==== Sys2Proof/Laws/KeepsTimeOps.lean ====
section
/-! SUPPORT. What the operations of Machine/TimeOps.lean leave alone: for each the parts it may change (`touch…`) and its lemma. -/

namespace Sys2Proof.Laws

open Sys2Proof.Machine

set_option linter.unusedTactic false
set_option linter.unreachableTactic false
set_option linter.unusedVariables false
set_option linter.tactic.unusedName false

variable {A : Part → Prop} {s t : State}

def touchSetFloc (A : Part → Prop) : Prop := A .tb ∧ A (.reg R.TB_INC.INC) ∧ A (.reg R.TB_FREQ_LOC.FLOC)
theorem touchSetFloc_all (h : ∀ q, A q) : touchSetFloc A := ⟨h _, h _, h _⟩
theorem setFloc_keeps {f : ℕ} (hA : touchSetFloc A)  (h : Keeps A s t) : Keeps A s (State.setFloc t f) := by
  unfold State.setFloc
  obtain ⟨_, _, _⟩ := hA
  repeat' (first
    | with_reducible assumption
    | intro y
    | (extract_lets +onlyGivenNames x; first | (refine cut (P := Keeps A s x) ?_ ?_; (on_goal 1 => (unfold x; clear x)); (on_goal 2 => (intro hx; first | clear_value x | skip))) | clear_value x | skip)
    | (with_reducible refine put_keepsAt (by assumption) ?_)
    | (with_reducible refine put_keeps (by assumption) ?_)
    | with_reducible apply keeps_ite
    | split
    | refine keeps_ite ?_ ?_
    | with_reducible exact keeps_tb (by assumption) (by assumption))

def touchSetErr (A : Part → Prop) : Prop := A .tb ∧ A (.reg R.TB_ERR.ERR)
theorem touchSetErr_all (h : ∀ q, A q) : touchSetErr A := ⟨h _, h _⟩
theorem setErr_keeps {e : ℤ} (hA : touchSetErr A)  (h : Keeps A s t) : Keeps A s (State.setErr t e) := by
  unfold State.setErr
  obtain ⟨_, _⟩ := hA
  repeat' (first
    | with_reducible assumption
    | intro y
    | (extract_lets +onlyGivenNames x; first | (refine cut (P := Keeps A s x) ?_ ?_; (on_goal 1 => (unfold x; clear x)); (on_goal 2 => (intro hx; first | clear_value x | skip))) | clear_value x | skip)
    | (with_reducible refine puti_keepsAt (by assumption) ?_)
    | (with_reducible refine puti_keeps (by assumption) ?_)
    | with_reducible apply keeps_ite
    | split
    | with_reducible exact keeps_tb (by assumption) (by assumption))

def touchSetStamp (A : Part → Prop) : Prop := A .tb ∧ A (.reg R.TB_STAMP_LO.STAMP) ∧ A (.reg R.TB_STAMP_HI.STAMP)
theorem touchSetStamp_all (h : ∀ q, A q) : touchSetStamp A := ⟨h _, h _, h _⟩
theorem setStamp_keeps {v : ℕ} (hA : touchSetStamp A)  (h : Keeps A s t) : Keeps A s (State.setStamp t v) := by
  unfold State.setStamp
  obtain ⟨_, _, _⟩ := hA
  repeat' (first
    | with_reducible assumption
    | intro y
    | (extract_lets +onlyGivenNames x; first | (refine cut (P := Keeps A s x) ?_ ?_; (on_goal 1 => (unfold x; clear x)); (on_goal 2 => (intro hx; first | clear_value x | skip))) | clear_value x | skip)
    | (with_reducible refine put2_keepsAt (by assumption) (by assumption) ?_)
    | (with_reducible refine put2_keeps (by assumption) (by assumption) ?_)
    | with_reducible apply keeps_ite
    | split
    | with_reducible exact keeps_tb (by assumption) (by assumption))

def touchTbState (A : Part → Prop) : Prop := A (.reg R.TB_STAT.ALIGNED) ∧ A (.reg R.TB_STAT.STATE)
theorem touchTbState_all (h : ∀ q, A q) : touchTbState A := ⟨h _, h _⟩
theorem tbState_keeps {st : ℕ} (hA : touchTbState A)  (h : Keeps A s t) : Keeps A s (State.tbState t st) := by
  unfold State.tbState
  obtain ⟨_, _⟩ := hA
  repeat' (first
    | with_reducible assumption
    | intro y
    | (with_reducible refine putb_keepsAt (by assumption) ?_)
    | (with_reducible refine putb_keeps (by assumption) ?_)
    | (with_reducible refine put_keepsAt (by assumption) ?_)
    | (with_reducible refine put_keeps (by assumption) ?_)
    | with_reducible apply keeps_ite
    | split)

def touchSetSrc (A : Part → Prop) : Prop := A (.reg R.PLC_STAT.TIME_SRC) ∧ A (.reg R.TB_STAT.SRC) ∧ A .tb
theorem touchSetSrc_all (h : ∀ q, A q) : touchSetSrc A := ⟨h _, h _, h _⟩
theorem setSrc_keeps {n : ℕ} (hA : touchSetSrc A)  (h : Keeps A s t) : Keeps A s (State.setSrc t n) := by
  unfold State.setSrc
  obtain ⟨_, _, _⟩ := hA
  repeat' (first
    | with_reducible assumption
    | intro y
    | (extract_lets +onlyGivenNames x; first | (refine cut (P := Keeps A s x) ?_ ?_; (on_goal 1 => (unfold x; clear x)); (on_goal 2 => (intro hx; first | clear_value x | skip))) | clear_value x | skip)
    | (with_reducible refine put_keepsAt (by assumption) ?_)
    | (with_reducible refine put_keeps (by assumption) ?_)
    | (with_reducible refine putb_keepsAt (by assumption) ?_)
    | (with_reducible refine putb_keeps (by assumption) ?_)
    | with_reducible apply keeps_ite
    | split
    | refine keeps_ite ?_ ?_
    | with_reducible exact keeps_tb (by assumption) (by assumption))

def touchMinsecRaise (A : Part → Prop) (u0 : Nat) : Prop := A (.inst R.UPD_FW_MINSEC.MINSEC u0 0)
theorem touchMinsecRaise_all (h : ∀ q, A q) {u0 : Nat} : touchMinsecRaise A u0 := h _
theorem minsecRaise_keeps {u0 : ℕ} (hA : touchMinsecRaise A u0)  (h : Keeps A s t) : Keeps A s (State.minsecRaise t u0) := by
  unfold State.minsecRaise
  unfold touchMinsecRaise at hA
  repeat' (first
    | with_reducible assumption
    | intro y
    | (with_reducible refine put_keepsAt (by assumption) ?_)
    | (with_reducible refine put_keeps (by assumption) ?_)
    | with_reducible apply keeps_ite
    | split)

def touchStepShow (A : Part → Prop) : Prop := A (.reg R.SYS_BOOT_STAT.STEP)
theorem touchStepShow_all (h : ∀ q, A q) : touchStepShow A := h _
theorem stepShow_keeps  (hA : touchStepShow A)  (h : Keeps A s t) : Keeps A s (State.stepShow t) := by
  unfold State.stepShow
  unfold touchStepShow at hA
  repeat' (first
    | with_reducible assumption
    | intro y
    | (extract_lets +onlyGivenNames x; first | (refine cut (P := Keeps A s x) ?_ ?_; (on_goal 1 => (unfold x; clear x)); (on_goal 2 => (intro hx; first | clear_value x | skip))) | clear_value x | skip)
    | (with_reducible refine put_keepsAt (by assumption) ?_)
    | (with_reducible refine put_keeps (by assumption) ?_)
    | with_reducible apply keeps_ite
    | split
    | refine keeps_ite ?_ ?_)

def touchSetReady (A : Part → Prop) : Prop := A (.reg R.SYS_READY.RDY) ∧ (∀ x0, touchMinsecRaise A x0) ∧ touchReleaseHold A ∧ touchStepShow A
theorem touchSetReady_all (h : ∀ q, A q) : touchSetReady A := ⟨h _, (fun _ => touchMinsecRaise_all h), touchReleaseHold_all h, touchStepShow_all h⟩
theorem setReady_keeps {i : ℕ} (hA : touchSetReady A)  (h : Keeps A s t) : Keeps A s (State.setReady t i) := by
  unfold State.setReady
  obtain ⟨_, _, _, _⟩ := hA
  repeat' (first
    | with_reducible assumption
    | intro y
    | (extract_lets +onlyGivenNames x; first | (refine cut (P := Keeps A s x) ?_ ?_; (on_goal 1 => (unfold x; clear x)); (on_goal 2 => (intro hx; first | clear_value x | skip))) | clear_value x | skip)
    | (with_reducible refine put_keepsAt (by assumption) ?_)
    | (with_reducible refine put_keeps (by assumption) ?_)
    | (with_reducible apply minsecRaise_keeps (hA := by first | with_reducible assumption | with_reducible apply_assumption))
    | (with_reducible apply releaseHold_keeps (hA := by first | with_reducible assumption | with_reducible apply_assumption))
    | (with_reducible apply stepShow_keeps (hA := by first | with_reducible assumption | with_reducible apply_assumption))
    | with_reducible apply each_keeps
    | with_reducible apply keeps_ite
    | split
    | refine keeps_ite ?_ ?_)

def touchLogNumbering (A : Part → Prop) : Prop := touchLog A
theorem touchLogNumbering_all (h : ∀ q, A q) : touchLogNumbering A := touchLog_all h
theorem logNumbering_keeps {new : ℕ} (hA : touchLogNumbering A)  (h : Keeps A s t) : Keeps A s (State.logNumbering t new) := by
  unfold State.logNumbering
  unfold touchLogNumbering at hA
  repeat' (first
    | with_reducible assumption
    | intro y
    | (with_reducible apply log_keeps (hA := by first | with_reducible assumption | with_reducible apply_assumption))
    | with_reducible apply keeps_ite
    | split)

def touchTbHoldover (A : Part → Prop) : Prop := A .tb ∧ A (.reg R.TB_HOLD.HOLD_CYC) ∧ touchSetSrc A ∧ touchTbState A
theorem touchTbHoldover_all (h : ∀ q, A q) : touchTbHoldover A := ⟨h _, h _, touchSetSrc_all h, touchTbState_all h⟩
theorem tbHoldover_keeps  (hA : touchTbHoldover A)  (h : Keeps A s t) : Keeps A s (State.tbHoldover t) := by
  unfold State.tbHoldover
  obtain ⟨_, _, _, _⟩ := hA
  repeat' (first
    | with_reducible assumption
    | intro y
    | (extract_lets +onlyGivenNames x; first | (refine cut (P := Keeps A s x) ?_ ?_; (on_goal 1 => (unfold x; clear x)); (on_goal 2 => (intro hx; first | clear_value x | skip))) | clear_value x | skip)
    | (with_reducible refine put_keepsAt (by assumption) ?_)
    | (with_reducible refine put_keeps (by assumption) ?_)
    | (with_reducible apply setSrc_keeps (hA := by first | with_reducible assumption | with_reducible apply_assumption))
    | (with_reducible apply tbState_keeps (hA := by first | with_reducible assumption | with_reducible apply_assumption))
    | with_reducible apply keeps_ite
    | split
    | refine keeps_ite ?_ ?_
    | with_reducible exact keeps_tb (by assumption) (by assumption))

def touchSrcCheck (A : Part → Prop) : Prop := touchTbHoldover A
theorem touchSrcCheck_all (h : ∀ q, A q) : touchSrcCheck A := touchTbHoldover_all h
theorem srcCheck_keeps  (hA : touchSrcCheck A)  (h : Keeps A s t) : Keeps A s (State.srcCheck t) := by
  unfold State.srcCheck
  unfold touchSrcCheck at hA
  repeat' (first
    | with_reducible assumption
    | intro y
    | (extract_lets +onlyGivenNames x; first | (refine cut (P := Keeps A s x) ?_ ?_; (on_goal 1 => (unfold x; clear x)); (on_goal 2 => (intro hx; first | clear_value x | skip))) | clear_value x | skip)
    | (with_reducible apply tbHoldover_keeps (hA := by first | with_reducible assumption | with_reducible apply_assumption))
    | with_reducible apply keeps_ite
    | split
    | refine keeps_ite ?_ ?_)

def touchAmpShow (A : Part → Prop) : Prop := touchFree A ∧ A (.reg R.TB_AMP.VA) ∧ A (.reg R.TB_AMP.VC) ∧ A (.reg R.TB_AMP.VB)
theorem touchAmpShow_all (h : ∀ q, A q) : touchAmpShow A := ⟨touchFree_all h, h _, h _, h _⟩
theorem ampShow_keeps  (hA : touchAmpShow A)  (h : Keeps A s t) : Keeps A s (State.ampShow t) := by
  unfold State.ampShow
  obtain ⟨_, _, _, _⟩ := hA
  repeat' (first
    | with_reducible assumption
    | intro y
    | (extract_lets +onlyGivenNames x; first | (refine cut (P := Keeps A s x) ?_ ?_; (on_goal 1 => (unfold x; clear x)); (on_goal 2 => (intro hx; first | clear_value x | skip))) | (refine cut (P := Keeps A s x.2) ?_ ?_; (on_goal 1 => (unfold x; clear x)); (on_goal 2 => (intro hx; first | clear_value x | skip))) | (refine cut (P := Keeps A s x.2.2) ?_ ?_; (on_goal 1 => (unfold x; clear x)); (on_goal 2 => (intro hx; first | clear_value x | skip))) | clear_value x | skip)
    | (with_reducible refine put_keepsAt (by assumption) ?_)
    | (with_reducible refine put_keeps (by assumption) ?_)
    | (with_reducible apply free_keeps (hA := by first | with_reducible assumption | with_reducible apply_assumption))
    | with_reducible apply keeps_ite
    | with_reducible apply keeps_ite2
    | with_reducible apply keeps_ite3
    | split
    | refine keeps_ite ?_ ?_)

def touchGridSeen (A : Part → Prop) : Prop := A (.reg R.TB_FREQ_GRID.FGRID) ∧ A (.reg R.TB_STAT.GRID_OK) ∧ touchAmpShow A ∧ A (.reg R.TB_FOLLOW.GDIFF)
theorem touchGridSeen_all (h : ∀ q, A q) : touchGridSeen A := ⟨h _, h _, touchAmpShow_all h, h _⟩
theorem gridSeen_keeps {v : ℕ} {f : ℕ} (hA : touchGridSeen A)  (h : Keeps A s t) : Keeps A s (State.gridSeen t v f) := by
  unfold State.gridSeen
  obtain ⟨_, _, _, _⟩ := hA
  repeat' (first
    | with_reducible assumption
    | intro y
    | (extract_lets +onlyGivenNames x; first | (refine cut (P := Keeps A s x) ?_ ?_; (on_goal 1 => (unfold x; clear x)); (on_goal 2 => (intro hx; first | clear_value x | skip))) | clear_value x | skip)
    | (with_reducible refine put_keepsAt (by assumption) ?_)
    | (with_reducible refine put_keeps (by assumption) ?_)
    | (with_reducible refine puti_keepsAt (by assumption) ?_)
    | (with_reducible refine puti_keeps (by assumption) ?_)
    | (with_reducible apply ampShow_keeps (hA := by first | with_reducible assumption | with_reducible apply_assumption))
    | with_reducible apply keeps_ite
    | split
    | refine keeps_ite ?_ ?_)

def touchGridFollow (A : Part → Prop) : Prop := touchGridSeen A ∧ touchSetErr A ∧ A .tb
theorem touchGridFollow_all (h : ∀ q, A q) : touchGridFollow A := ⟨touchGridSeen_all h, touchSetErr_all h, h _⟩
theorem gridFollow_keeps {v : ℕ} {f : ℕ} (hA : touchGridFollow A)  (h : Keeps A s t) : Keeps A s (State.gridFollow t v f) := by
  unfold State.gridFollow
  obtain ⟨_, _, _⟩ := hA
  repeat' (first
    | with_reducible assumption
    | intro y
    | (extract_lets +onlyGivenNames x; first | (refine cut (P := Keeps A s x) ?_ ?_; (on_goal 1 => (unfold x; clear x)); (on_goal 2 => (intro hx; first | clear_value x | skip))) | clear_value x | skip)
    | (with_reducible apply gridSeen_keeps (hA := by first | with_reducible assumption | with_reducible apply_assumption))
    | (with_reducible apply setErr_keeps (hA := by first | with_reducible assumption | with_reducible apply_assumption))
    | with_reducible apply keeps_ite
    | split
    | refine keeps_ite ?_ ?_
    | with_reducible exact keeps_tb (by assumption) (by assumption))

def touchGridGone (A : Part → Prop) : Prop := A (.reg R.TB_STAT.GRID_LOST_SEEN) ∧ A (.reg R.TB_FOLLOW.GDIFF) ∧ A (.reg R.TB_FREQ_GRID.FGRID) ∧ A (.reg R.TB_STAT.GRID_OK)
theorem touchGridGone_all (h : ∀ q, A q) : touchGridGone A := ⟨h _, h _, h _, h _⟩
theorem gridGone_keeps  (hA : touchGridGone A)  (h : Keeps A s t) : Keeps A s (State.gridGone t) := by
  unfold State.gridGone
  obtain ⟨_, _, _, _⟩ := hA
  repeat' (first
    | with_reducible assumption
    | intro y
    | (extract_lets +onlyGivenNames x; first | (refine cut (P := Keeps A s x) ?_ ?_; (on_goal 1 => (unfold x; clear x)); (on_goal 2 => (intro hx; first | clear_value x | skip))) | clear_value x | skip)
    | (with_reducible refine put_keepsAt (by assumption) ?_)
    | (with_reducible refine put_keeps (by assumption) ?_)
    | with_reducible apply keeps_ite
    | split
    | refine keeps_ite ?_ ?_)

def touchOfsStart (A : Part → Prop) : Prop := A .tb ∧ A (.reg R.TB_GRP_OFS_ACT.GOFS_ACT) ∧ A (.reg R.TB_PH_OFS_ACT.POFS_ACT)
theorem touchOfsStart_all (h : ∀ q, A q) : touchOfsStart A := ⟨h _, h _, h _⟩
theorem ofsStart_keeps  (hA : touchOfsStart A)  (h : Keeps A s t) : Keeps A s (State.ofsStart t) := by
  unfold State.ofsStart
  obtain ⟨_, _, _⟩ := hA
  repeat' (first
    | with_reducible assumption
    | intro y
    | (extract_lets +onlyGivenNames x; first | (refine cut (P := Keeps A s x) ?_ ?_; (on_goal 1 => (unfold x; clear x)); (on_goal 2 => (intro hx; first | clear_value x | skip))) | clear_value x | skip)
    | with_reducible apply each_keeps
    | (with_reducible refine put_keepsAt (by assumption) ?_)
    | (with_reducible refine put_keeps (by assumption) ?_)
    | with_reducible apply keeps_ite
    | split
    | refine keeps_ite ?_ ?_
    | with_reducible exact keeps_tb (by assumption) (by assumption))

def touchOfsArm (A : Part → Prop) : Prop := A .tb ∧ A (.reg R.TB_OFS_CTRL.PEND)
theorem touchOfsArm_all (h : ∀ q, A q) : touchOfsArm A := ⟨h _, h _⟩
theorem ofsArm_keeps {groups : ℕ} {at_ : Option ℕ} (hA : touchOfsArm A)  (h : Keeps A s t) : Keeps A s (State.ofsArm t groups at_) := by
  unfold State.ofsArm
  obtain ⟨_, _⟩ := hA
  repeat' (first
    | with_reducible assumption
    | intro y
    | (extract_lets +onlyGivenNames x; first | (refine cut (P := Keeps A s x) ?_ ?_; (on_goal 1 => (unfold x; clear x)); (on_goal 2 => (intro hx; first | clear_value x | skip))) | clear_value x | skip)
    | (with_reducible refine put_keepsAt (by assumption) ?_)
    | (with_reducible refine put_keeps (by assumption) ?_)
    | with_reducible apply keeps_ite
    | split
    | with_reducible exact keeps_tb (by assumption) (by assumption))

def touchOfsTake (A : Part → Prop) : Prop := A .tb
theorem touchOfsTake_all (h : ∀ q, A q) : touchOfsTake A := h _
theorem ofsTake_keeps {g : ℕ} (hA : touchOfsTake A)  (h : Keeps A s t) : Keeps A s (State.ofsTake t g) := by
  unfold State.ofsTake
  unfold touchOfsTake at hA
  repeat' (first
    | with_reducible assumption
    | intro y
    | (extract_lets +onlyGivenNames x; first | (refine cut (P := Keeps A s x) ?_ ?_; (on_goal 1 => (unfold x; clear x)); (on_goal 2 => (intro hx; first | clear_value x | skip))) | clear_value x | skip)
    | with_reducible apply keeps_ite
    | with_reducible apply keeps_foldl
    | split
    | with_reducible exact keeps_tb (by assumption) (by assumption))

def touchOfsCommitted (A : Part → Prop) : Prop := A .tb ∧ touchOfsTake A ∧ A (.reg R.TB_OFS_CTRL.PEND)
theorem touchOfsCommitted_all (h : ∀ q, A q) : touchOfsCommitted A := ⟨h _, touchOfsTake_all h, h _⟩
theorem ofsCommitted_keeps {g : ℕ} (hA : touchOfsCommitted A)  (h : Keeps A s t) : Keeps A s (State.ofsCommitted t g) := by
  unfold State.ofsCommitted
  obtain ⟨_, _, _⟩ := hA
  repeat' (first
    | with_reducible assumption
    | intro y
    | (extract_lets +onlyGivenNames x; first | (refine cut (P := Keeps A s x) ?_ ?_; (on_goal 1 => (unfold x; clear x)); (on_goal 2 => (intro hx; first | clear_value x | skip))) | clear_value x | skip)
    | (with_reducible apply ofsTake_keeps (hA := by first | with_reducible assumption | with_reducible apply_assumption))
    | (with_reducible refine putb_keepsAt (by assumption) ?_)
    | (with_reducible refine putb_keeps (by assumption) ?_)
    | with_reducible apply keeps_ite
    | split
    | refine keeps_ite ?_ ?_
    | with_reducible exact keeps_tb (by assumption) (by assumption))

def touchPhSlew (A : Part → Prop) (n : Nat) : Prop := A (.inst R.TB_PH_OFS_ACT.POFS_ACT n 0)
theorem touchPhSlew_all (h : ∀ q, A q) {n : Nat} : touchPhSlew A n := h _
theorem phSlew_keeps {g : ℕ} {n : ℕ} (hA : touchPhSlew A n)  (h : Keeps A s t) : Keeps A s (State.phSlew t g n) := by
  unfold State.phSlew
  unfold touchPhSlew at hA
  repeat' (first
    | with_reducible assumption
    | intro y
    | (extract_lets +onlyGivenNames x; first | (refine cut (P := Keeps A s x) ?_ ?_; (on_goal 1 => (unfold x; clear x)); (on_goal 2 => (intro hx; first | clear_value x | skip))) | clear_value x | skip)
    | (with_reducible refine put_keepsAt (by assumption) ?_)
    | (with_reducible refine put_keeps (by assumption) ?_)
    | with_reducible apply keeps_ite
    | split
    | refine keeps_ite ?_ ?_)

def touchOfsSlew (A : Part → Prop) (g : Nat) : Prop := A (.inst R.TB_GRP_OFS_ACT.GOFS_ACT g 0) ∧ (∀ x0, touchPhSlew A x0)
theorem touchOfsSlew_all (h : ∀ q, A q) {g : Nat} : touchOfsSlew A g := ⟨h _, (fun _ => touchPhSlew_all h)⟩
theorem ofsSlew_keeps {g : ℕ} (hA : touchOfsSlew A g)  (h : Keeps A s t) : Keeps A s (State.ofsSlew t g) := by
  unfold State.ofsSlew
  obtain ⟨_, _⟩ := hA
  repeat' (first
    | with_reducible assumption
    | intro y
    | (extract_lets +onlyGivenNames x; first | (refine cut (P := Keeps A s x) ?_ ?_; (on_goal 1 => (unfold x; clear x)); (on_goal 2 => (intro hx; first | clear_value x | skip))) | clear_value x | skip)
    | (with_reducible refine put_keepsAt (by assumption) ?_)
    | (with_reducible refine put_keeps (by assumption) ?_)
    | (with_reducible apply phSlew_keeps (hA := by first | with_reducible assumption | with_reducible apply_assumption))
    | with_reducible apply keeps_ite
    | with_reducible apply keeps_foldl
    | split
    | refine keeps_ite ?_ ?_)

def touchRefChoose (A : Part → Prop) : Prop := touchFree A ∧ A .keep ∧ touchLog A ∧ A (.reg R.TB_STAT.REF_LOST_SEEN)
theorem touchRefChoose_all (h : ∀ q, A q) : touchRefChoose A := ⟨touchFree_all h, h _, touchLog_all h, h _⟩
theorem refChoose_keeps  (hA : touchRefChoose A)  (h : Keeps A s t) : Keeps A s (State.refChoose t) := by
  unfold State.refChoose
  obtain ⟨_, _, _, _⟩ := hA
  repeat' (first
    | with_reducible assumption
    | intro y
    | (extract_lets +onlyGivenNames x; first | (refine cut (P := Keeps A s x) ?_ ?_; (on_goal 1 => (unfold x; clear x)); (on_goal 2 => (intro hx; first | clear_value x | skip))) | (refine cut (P := Keeps A s x.2) ?_ ?_; (on_goal 1 => (unfold x; clear x)); (on_goal 2 => (intro hx; first | clear_value x | skip))) | (refine cut (P := Keeps A s x.2.2) ?_ ?_; (on_goal 1 => (unfold x; clear x)); (on_goal 2 => (intro hx; first | clear_value x | skip))) | clear_value x | skip)
    | (with_reducible refine put_keepsAt (by assumption) ?_)
    | (with_reducible refine put_keeps (by assumption) ?_)
    | (with_reducible apply free_keeps (hA := by first | with_reducible assumption | with_reducible apply_assumption))
    | (with_reducible apply log_keeps (hA := by first | with_reducible assumption | with_reducible apply_assumption))
    | with_reducible apply keeps_ite
    | with_reducible apply keeps_ite2
    | with_reducible apply keeps_ite3
    | split
    | refine keeps_ite ?_ ?_
    | with_reducible exact keeps_keep (by assumption) (by assumption))

def touchTbStart (A : Part → Prop) : Prop := A (.reg R.TB_DLL.TAP_PS) ∧ A (.reg R.TB_DLL.LOCK) ∧ A (.reg R.TB_STAT.DLL_LOCK) ∧ touchOfsStart A ∧ A .tb ∧ A (.reg R.TB_STAT.REF) ∧ touchTbState A ∧ touchSetStamp A ∧ touchSetFloc A ∧ touchSetReady A ∧ A (.reg R.TB_STAT.ACQUIRED) ∧ touchTbHoldover A
theorem touchTbStart_all (h : ∀ q, A q) : touchTbStart A := ⟨h _, h _, h _, touchOfsStart_all h, h _, h _, touchTbState_all h, touchSetStamp_all h, touchSetFloc_all h, touchSetReady_all h, h _, touchTbHoldover_all h⟩
theorem tbStart_keeps {cold : Bool} (hA : touchTbStart A)  (h : Keeps A s t) : Keeps A s (State.tbStart t cold) := by
  unfold State.tbStart
  obtain ⟨_, _, _, _, _, _, _, _, _, _, _, _⟩ := hA
  repeat' (first
    | with_reducible assumption
    | intro y
    | (extract_lets +onlyGivenNames x; first | (refine cut (P := Keeps A s x) ?_ ?_; (on_goal 1 => (unfold x; clear x)); (on_goal 2 => (intro hx; first | clear_value x | skip))) | clear_value x | skip)
    | (with_reducible refine put_keepsAt (by assumption) ?_)
    | (with_reducible refine put_keeps (by assumption) ?_)
    | (with_reducible refine putb_keepsAt (by assumption) ?_)
    | (with_reducible refine putb_keeps (by assumption) ?_)
    | (with_reducible apply ofsStart_keeps (hA := by first | with_reducible assumption | with_reducible apply_assumption))
    | (with_reducible apply tbState_keeps (hA := by first | with_reducible assumption | with_reducible apply_assumption))
    | (with_reducible apply setStamp_keeps (hA := by first | with_reducible assumption | with_reducible apply_assumption))
    | (with_reducible apply setFloc_keeps (hA := by first | with_reducible assumption | with_reducible apply_assumption))
    | (with_reducible apply setReady_keeps (hA := by first | with_reducible assumption | with_reducible apply_assumption))
    | (with_reducible apply tbHoldover_keeps (hA := by first | with_reducible assumption | with_reducible apply_assumption))
    | with_reducible apply keeps_ite
    | split
    | refine keeps_ite ?_ ?_
    | with_reducible exact keeps_tb (by assumption) (by assumption))

def touchTbWaits (A : Part → Prop) : Prop := A .tb ∧ A (.reg R.TB_API_CFG.API_PRESENT)
theorem touchTbWaits_all (h : ∀ q, A q) : touchTbWaits A := ⟨h _, h _⟩
theorem tbWaits_keeps  (hA : touchTbWaits A)  (h : Keeps A s t) : Keeps A s (State.tbWaits t) := by
  unfold State.tbWaits
  obtain ⟨_, _⟩ := hA
  repeat' (first
    | with_reducible assumption
    | intro y
    | (extract_lets +onlyGivenNames x; first | (refine cut (P := Keeps A s x) ?_ ?_; (on_goal 1 => (unfold x; clear x)); (on_goal 2 => (intro hx; first | clear_value x | skip))) | clear_value x | skip)
    | (with_reducible refine put_keepsAt (by assumption) ?_)
    | (with_reducible refine put_keeps (by assumption) ?_)
    | with_reducible apply keeps_ite
    | split
    | refine keeps_ite ?_ ?_
    | with_reducible exact keeps_tb (by assumption) (by assumption))

def touchTbTick (A : Part → Prop) : Prop := touchTbStart A ∧ A (.reg R.TB_STAMP_LO.STAMP) ∧ A (.reg R.TB_STAMP_HI.STAMP) ∧ A .tb ∧ A (.reg R.TB_HOLD.HOLD_CYC) ∧ A (.reg R.TB_ERR.ERR) ∧ A .pins ∧ touchTbWaits A ∧ touchSetFloc A
theorem touchTbTick_all (h : ∀ q, A q) : touchTbTick A := ⟨touchTbStart_all h, h _, h _, h _, h _, h _, h _, touchTbWaits_all h, touchSetFloc_all h⟩
theorem tbTick_keeps  (hA : touchTbTick A)  (h : Keeps A s t) : Keeps A s (State.tbTick t) := by
  unfold State.tbTick
  obtain ⟨_, _, _, _, _, _, _, _, _⟩ := hA
  repeat' (first
    | with_reducible assumption
    | intro y
    | (extract_lets +onlyGivenNames x; first | (refine cut (P := Keeps A s x) ?_ ?_; (on_goal 1 => (unfold x; clear x)); (on_goal 2 => (intro hx; first | clear_value x | skip))) | clear_value x | skip)
    | (with_reducible refine puti_keepsAt (by assumption) ?_)
    | (with_reducible refine puti_keeps (by assumption) ?_)
    | (with_reducible refine inc_keepsAt (by assumption) ?_)
    | (with_reducible refine inc_keeps (by assumption) ?_)
    | (with_reducible refine put2_keepsAt (by assumption) (by assumption) ?_)
    | (with_reducible refine put2_keeps (by assumption) (by assumption) ?_)
    | (with_reducible apply tbStart_keeps (hA := by first | with_reducible assumption | with_reducible apply_assumption))
    | (with_reducible apply tbWaits_keeps (hA := by first | with_reducible assumption | with_reducible apply_assumption))
    | (with_reducible apply setFloc_keeps (hA := by first | with_reducible assumption | with_reducible apply_assumption))
    | with_reducible apply when_keeps
    | with_reducible apply keeps_ite
    | split
    | refine keeps_ite ?_ ?_
    | with_reducible exact keeps_tb (by assumption) (by assumption)
    | with_reducible exact keeps_pins_tb (by assumption) (by assumption) (by assumption))

def touchKeepTick (A : Part → Prop) : Prop := A .keep ∧ A (.reg R.TB_KEEP_LO.STAMP) ∧ A (.reg R.TB_KEEP_HI.STAMP)
theorem touchKeepTick_all (h : ∀ q, A q) : touchKeepTick A := ⟨h _, h _, h _⟩
theorem keepTick_keeps  (hA : touchKeepTick A)  (h : Keeps A s t) : Keeps A s (State.keepTick t) := by
  unfold State.keepTick
  obtain ⟨_, _, _⟩ := hA
  repeat' (first
    | with_reducible assumption
    | intro y
    | (extract_lets +onlyGivenNames x; first | (refine cut (P := Keeps A s x) ?_ ?_; (on_goal 1 => (unfold x; clear x)); (on_goal 2 => (intro hx; first | clear_value x | skip))) | clear_value x | skip)
    | (with_reducible refine put2_keepsAt (by assumption) (by assumption) ?_)
    | (with_reducible refine put2_keeps (by assumption) (by assumption) ?_)
    | with_reducible apply keeps_ite
    | split
    | refine keeps_ite ?_ ?_
    | with_reducible exact keeps_keep (by assumption) (by assumption))

def touchKeepCommit (A : Part → Prop) : Prop := A (.reg R.TB_LAST_STAMP_LO.LAST) ∧ A (.reg R.TB_LAST_STAMP_HI.LAST) ∧ A .keep
theorem touchKeepCommit_all (h : ∀ q, A q) : touchKeepCommit A := ⟨h _, h _, h _⟩
theorem keepCommit_keeps  (hA : touchKeepCommit A)  (h : Keeps A s t) : Keeps A s (State.keepCommit t) := by
  unfold State.keepCommit
  obtain ⟨_, _, _⟩ := hA
  repeat' (first
    | with_reducible assumption
    | intro y
    | (extract_lets +onlyGivenNames x; first | (refine cut (P := Keeps A s x) ?_ ?_; (on_goal 1 => (unfold x; clear x)); (on_goal 2 => (intro hx; first | clear_value x | skip))) | clear_value x | skip)
    | (with_reducible refine put2_keepsAt (by assumption) (by assumption) ?_)
    | (with_reducible refine put2_keeps (by assumption) (by assumption) ?_)
    | with_reducible apply keeps_ite
    | split
    | refine keeps_ite ?_ ?_
    | with_reducible exact keeps_keep (by assumption) (by assumption))

end Sys2Proof.Laws
end

