-- ==== Sys2Proof/Laws/KeepsThermal.lean ====
section
/-! SUPPORT. What the operations of Machine/Thermal.lean leave alone: for each the parts it may change (`touch…`) and its lemma. -/

namespace Sys2Proof.Laws

open Sys2Proof.Machine

set_option linter.unusedTactic false
set_option linter.unreachableTactic false
set_option linter.unusedVariables false
set_option linter.tactic.unusedName false

variable {A : Part → Prop} {s t : State}

def touchTsShow (A : Part → Prop) : Prop := A (.reg R.TH_TS_VAL.REP) ∧ A (.reg R.TH_STAT.N_FAILED) ∧ A (.reg R.TH_STAT.N_SUSPECT)
theorem touchTsShow_all (h : ∀ q, A q) : touchTsShow A := ⟨h _, h _, h _⟩
theorem tsShow_keeps {n : ℕ} (hA : touchTsShow A)  (h : Keeps A s t) : Keeps A s (State.tsShow t n) := by
  unfold State.tsShow
  obtain ⟨_, _, _⟩ := hA
  repeat' (first
    | with_reducible assumption
    | intro y
    | (extract_lets +onlyGivenNames x; first | (refine cut (P := Keeps A s x) ?_ ?_; (on_goal 1 => (unfold x; clear x)); (on_goal 2 => (intro hx; first | clear_value x | skip))) | (refine cut (P := ∀ y, Keeps A s y → Keeps A s (x y)) ?_ ?_; (on_goal 1 => (unfold x; clear x)); (on_goal 2 => (intro hf; first | clear_value x | skip))) | (refine cut (P := ∀ y, Keeps A s (x y)) ?_ ?_; (on_goal 1 => (unfold x; clear x)); (on_goal 2 => (intro hf; first | clear_value x | skip))) | (refine cut (P := ∀ y z, Keeps A s y → Keeps A s (x y z)) ?_ ?_; (on_goal 1 => (unfold x; clear x)); (on_goal 2 => (intro hf; first | clear_value x | skip))) | (refine cut (P := ∀ y z, Keeps A s z → Keeps A s (x y z)) ?_ ?_; (on_goal 1 => (unfold x; clear x)); (on_goal 2 => (intro hf; first | clear_value x | skip))) | (refine cut (P := ∀ y z w, Keeps A s y → Keeps A s (x y z w)) ?_ ?_; (on_goal 1 => (unfold x; clear x)); (on_goal 2 => (intro hf; first | clear_value x | skip))) | (refine cut (P := ∀ (d : Nat) (g : State → State) (y : State), (∀ z, Keeps A s z → Keeps A s (g z)) → Keeps A s y → Keeps A s (x d g y)) ?_ ?_; (on_goal 1 => (unfold x; clear x)); (on_goal 2 => (intro hf; first | clear_value x | skip))) | clear_value x | skip)
    | (with_reducible refine putSat_keepsAt (by assumption) ?_)
    | (with_reducible refine putSat_keeps (by assumption) ?_)
    | (with_reducible refine put_keepsAt (by assumption) ?_)
    | (with_reducible refine put_keeps (by assumption) ?_)
    | with_reducible apply keeps_ite
    | with_reducible apply keeps_foldl
    | with_reducible apply hf
    | split
    | refine keeps_ite ?_ ?_)

def touchZoneShow (A : Part → Prop) (z : Nat) : Prop := A (.inst R.TH_ZONE_ALLOW.X z 0) ∧ A (.inst R.TH_ZONE_ALLOW.ALLOW z 0) ∧ A (.inst R.TH_ZONE_STAT.HOT z 0)
theorem touchZoneShow_all (h : ∀ q, A q) {z : Nat} : touchZoneShow A z := ⟨h _, h _, h _⟩
theorem zoneShow_keeps {z : ℕ} (hA : touchZoneShow A z)  (h : Keeps A s t) : Keeps A s (State.zoneShow t z) := by
  unfold State.zoneShow
  obtain ⟨_, _, _⟩ := hA
  repeat' (first
    | with_reducible assumption
    | intro y
    | (extract_lets +onlyGivenNames x; first | (refine cut (P := Keeps A s x) ?_ ?_; (on_goal 1 => (unfold x; clear x)); (on_goal 2 => (intro hx; first | clear_value x | skip))) | clear_value x | skip)
    | (with_reducible refine putSat_keepsAt (by assumption) ?_)
    | (with_reducible refine putSat_keeps (by assumption) ?_)
    | (with_reducible refine putMax_keepsAt (by assumption) ?_)
    | (with_reducible refine putMax_keeps (by assumption) ?_)
    | (with_reducible refine put_keepsAt (by assumption) ?_)
    | (with_reducible refine put_keeps (by assumption) ?_)
    | with_reducible apply keeps_ite
    | split
    | refine keeps_ite ?_ ?_)

def touchThermGroups (A : Part → Prop) : Prop := A (.reg R.PE_GRP_THERM.I_THERM)
theorem touchThermGroups_all (h : ∀ q, A q) : touchThermGroups A := h _
theorem thermGroups_keeps  (hA : touchThermGroups A)  (h : Keeps A s t) : Keeps A s (State.thermGroups t) := by
  unfold State.thermGroups
  unfold touchThermGroups at hA
  repeat' (first
    | with_reducible assumption
    | intro y
    | (extract_lets +onlyGivenNames x; first | (refine cut (P := Keeps A s x) ?_ ?_; (on_goal 1 => (unfold x; clear x)); (on_goal 2 => (intro hx; first | clear_value x | skip))) | clear_value x | skip)
    | (with_reducible refine put_keepsAt (by assumption) ?_)
    | (with_reducible refine put_keeps (by assumption) ?_)
    | with_reducible apply each_keeps
    | with_reducible apply keeps_ite
    | split
    | refine keeps_ite ?_ ?_)

def touchThermWrite (A : Part → Prop) : Prop := touchThermGroups A ∧ (∀ x0, touchComply A x0) ∧ A (.reg R.VS_CONN_ALLOW.I_THASK) ∧ A (.reg R.TH_STAT.ZONE_SHUT) ∧ A (.reg R.TH_STAT.ZONE_ENF)
theorem touchThermWrite_all (h : ∀ q, A q) : touchThermWrite A := ⟨touchThermGroups_all h, (fun _ => touchComply_all h), h _, h _, h _⟩
theorem thermWrite_keeps  (hA : touchThermWrite A)  (h : Keeps A s t) : Keeps A s (State.thermWrite t) := by
  unfold State.thermWrite
  obtain ⟨_, _, _, _, _⟩ := hA
  repeat' (first
    | with_reducible assumption
    | intro y
    | (extract_lets +onlyGivenNames x; first | (refine cut (P := Keeps A s x) ?_ ?_; (on_goal 1 => (unfold x; clear x)); (on_goal 2 => (intro hx; first | clear_value x | skip))) | clear_value x | skip)
    | (with_reducible refine put_keepsAt (by assumption) ?_)
    | (with_reducible refine put_keeps (by assumption) ?_)
    | (with_reducible apply thermGroups_keeps (hA := by first | with_reducible assumption | with_reducible apply_assumption))
    | (with_reducible apply comply_keeps (hA := by first | with_reducible assumption | with_reducible apply_assumption))
    | with_reducible apply each_keeps
    | with_reducible apply keeps_ite
    | split
    | refine keeps_ite ?_ ?_)

def touchThermOut (A : Part → Prop) : Prop := touchThermWrite A
theorem touchThermOut_all (h : ∀ q, A q) : touchThermOut A := touchThermWrite_all h
theorem thermOut_keeps  (hA : touchThermOut A)  (h : Keeps A s t) : Keeps A s (State.thermOut t) := by
  unfold State.thermOut
  unfold touchThermOut at hA
  repeat' (first
    | with_reducible assumption
    | intro y
    | (with_reducible apply thermWrite_keeps (hA := by first | with_reducible assumption | with_reducible apply_assumption))
    | with_reducible apply keeps_ite
    | split)

def touchZoneState (A : Part → Prop) (z : Nat) : Prop := touchThermOut A ∧ touchZoneShow A z ∧ A (.inst R.TH_ZONE_STAT.STATE z 0)
theorem touchZoneState_all (h : ∀ q, A q) {z : Nat} : touchZoneState A z := ⟨touchThermOut_all h, touchZoneShow_all h, h _⟩
theorem zoneState_keeps {z : ℕ} {st : ℕ} (hA : touchZoneState A z)  (h : Keeps A s t) : Keeps A s (State.zoneState t z st) := by
  unfold State.zoneState
  obtain ⟨_, _, _⟩ := hA
  repeat' (first
    | with_reducible assumption
    | intro y
    | (with_reducible apply thermOut_keeps (hA := by first | with_reducible assumption | with_reducible apply_assumption))
    | (with_reducible apply zoneShow_keeps (hA := by first | with_reducible assumption | with_reducible apply_assumption))
    | (with_reducible refine put_keepsAt (by assumption) ?_)
    | (with_reducible refine put_keeps (by assumption) ?_)
    | with_reducible apply keeps_ite
    | split)

def touchZonesFollow (A : Part → Prop) : Prop := touchThermOut A ∧ (∀ x0, touchZoneShow A x0)
theorem touchZonesFollow_all (h : ∀ q, A q) : touchZonesFollow A := ⟨touchThermOut_all h, (fun _ => touchZoneShow_all h)⟩
theorem zonesFollow_keeps {l : List ℕ} (hA : touchZonesFollow A)  (h : Keeps A s t) : Keeps A s (State.zonesFollow t l) := by
  unfold State.zonesFollow
  obtain ⟨_, _⟩ := hA
  repeat' (first
    | with_reducible assumption
    | intro y
    | (extract_lets +onlyGivenNames x; first | (refine cut (P := Keeps A s x) ?_ ?_; (on_goal 1 => (unfold x; clear x)); (on_goal 2 => (intro hx; first | clear_value x | skip))) | clear_value x | skip)
    | (with_reducible apply thermOut_keeps (hA := by first | with_reducible assumption | with_reducible apply_assumption))
    | (with_reducible apply zoneShow_keeps (hA := by first | with_reducible assumption | with_reducible apply_assumption))
    | with_reducible apply each_keeps
    | with_reducible apply keeps_ite
    | split
    | refine keeps_ite ?_ ?_)

def touchSdWrite (A : Part → Prop) : Prop := A .sd ∧ A (.reg R.TH_SD_CNT.SD_N) ∧ A (.reg R.TH_SD_CNT.SD_CNT)
theorem touchSdWrite_all (h : ∀ q, A q) : touchSdWrite A := ⟨h _, h _, h _⟩
theorem sdWrite_keeps {zone : ℕ} {cause : ℕ} {sensor : ℕ} {latch : Bool} {v : ℤ} {a : ℕ} {grps : ℕ} {conn : ℕ} (hA : touchSdWrite A)  (h : Keeps A s t) : Keeps A s (State.sdWrite t zone cause sensor latch v a grps conn) := by
  unfold State.sdWrite
  obtain ⟨_, _, _⟩ := hA
  repeat' (first
    | with_reducible assumption
    | intro y
    | (extract_lets +onlyGivenNames x; first | (refine cut (P := Keeps A s x) ?_ ?_; (on_goal 1 => (unfold x; clear x)); (on_goal 2 => (intro hx; first | clear_value x | skip))) | clear_value x | skip)
    | (with_reducible refine put_keepsAt (by assumption) ?_)
    | (with_reducible refine put_keeps (by assumption) ?_)
    | (with_reducible refine inc_keepsAt (by assumption) ?_)
    | (with_reducible refine inc_keeps (by assumption) ?_)
    | with_reducible apply keeps_ite
    | split
    | refine keeps_ite ?_ ?_
    | with_reducible exact keeps_sd (by assumption) (by assumption))

def touchSdPeak (A : Part → Prop) : Prop := A .sd
theorem touchSdPeak_all (h : ∀ q, A q) : touchSdPeak A := h _
theorem sdPeak_keeps {sensor : ℕ} {v : ℤ} (hA : touchSdPeak A)  (h : Keeps A s t) : Keeps A s (State.sdPeak t sensor v) := by
  unfold State.sdPeak
  unfold touchSdPeak at hA
  repeat' (first
    | with_reducible assumption
    | intro y
    | (extract_lets +onlyGivenNames x; first | (refine cut (P := Keeps A s x) ?_ ?_; (on_goal 1 => (unfold x; clear x)); (on_goal 2 => (intro hx; first | clear_value x | skip))) | clear_value x | skip)
    | with_reducible apply keeps_ite
    | split
    | with_reducible exact keeps_sd (by assumption) (by assumption))

def touchZoneShut (A : Part → Prop) (z : Nat) : Prop := touchZoneState A z ∧ A (.inst R.TH_ZONE_STAT.SHUT_SEEN z 0) ∧ A (.inst R.TH_ZONE_STAT.GRACE_LEFT z 0) ∧ (∀ x0, touchFastStop A x0) ∧ touchLog A ∧ A (.inst R.TH_ZONE_STAT.LATCHED z 0) ∧ touchSdWrite A ∧ touchReqSafeOff A
theorem touchZoneShut_all (h : ∀ q, A q) {z : Nat} : touchZoneShut A z := ⟨touchZoneState_all h, h _, h _, fun _ => touchFastStop_all h, touchLog_all h, h _, touchSdWrite_all h, touchReqSafeOff_all h⟩
theorem zoneShut_keeps {z : ℕ} {cause : ℕ} {sensor : ℕ} {v : ℤ} (hA : touchZoneShut A z)  (h : Keeps A s t) : Keeps A s (State.zoneShut t z cause sensor v) := by
  unfold State.zoneShut
  obtain ⟨_, _, _, _, _, _, _, _⟩ := hA
  repeat' (first
    | with_reducible assumption
    | intro y
    | (extract_lets +onlyGivenNames x; first | (refine cut (P := Keeps A s x) ?_ ?_; (on_goal 1 => (unfold x; clear x)); (on_goal 2 => (intro hx; first | clear_value x | skip))) | clear_value x | skip)
    | (with_reducible apply zoneState_keeps (hA := by first | with_reducible assumption | with_reducible apply_assumption))
    | (with_reducible refine put_keepsAt (by assumption) ?_)
    | (with_reducible refine put_keeps (by assumption) ?_)
    | with_reducible apply eachBit_keeps
    | (with_reducible apply fastStop_keeps (hA := by first | with_reducible assumption | with_reducible apply_assumption))
    | with_reducible apply when_keeps
    | (with_reducible apply log_keeps (hA := by first | with_reducible assumption | with_reducible apply_assumption))
    | (with_reducible apply sdWrite_keeps (hA := by first | with_reducible assumption | with_reducible apply_assumption))
    | (with_reducible apply reqSafeOff_keeps (hA := by first | with_reducible assumption | with_reducible apply_assumption))
    | with_reducible apply keeps_ite
    | split
    | refine keeps_ite ?_ ?_)

def touchZoneEnforce (A : Part → Prop) (z : Nat) : Prop := touchZoneState A z ∧ A (.inst R.TH_ZONE_STAT.ENF_SEEN z 0) ∧ A (.inst R.TH_ZONE_STAT.GRACE_LEFT z 0) ∧ touchLog A
theorem touchZoneEnforce_all (h : ∀ q, A q) {z : Nat} : touchZoneEnforce A z := ⟨touchZoneState_all h, h _, h _, touchLog_all h⟩
theorem zoneEnforce_keeps {z : ℕ} (hA : touchZoneEnforce A z)  (h : Keeps A s t) : Keeps A s (State.zoneEnforce t z) := by
  unfold State.zoneEnforce
  obtain ⟨_, _, _, _⟩ := hA
  repeat' (first
    | with_reducible assumption
    | intro y
    | (extract_lets +onlyGivenNames x; first | (refine cut (P := Keeps A s x) ?_ ?_; (on_goal 1 => (unfold x; clear x)); (on_goal 2 => (intro hx; first | clear_value x | skip))) | clear_value x | skip)
    | (with_reducible apply zoneState_keeps (hA := by first | with_reducible assumption | with_reducible apply_assumption))
    | (with_reducible refine put_keepsAt (by assumption) ?_)
    | (with_reducible refine put_keeps (by assumption) ?_)
    | (with_reducible apply log_keeps (hA := by first | with_reducible assumption | with_reducible apply_assumption))
    | with_reducible apply keeps_ite
    | split
    | refine keeps_ite ?_ ?_)

def touchSnowShow (A : Part → Prop) : Prop := A (.reg R.TH_TS_STAT.SNOW)
theorem touchSnowShow_all (h : ∀ q, A q) : touchSnowShow A := h _
theorem snowShow_keeps {n : ℕ} (hA : touchSnowShow A)  (h : Keeps A s t) : Keeps A s (State.snowShow t n) := by
  unfold State.snowShow
  unfold touchSnowShow at hA
  repeat' (first
    | with_reducible assumption
    | intro y
    | (extract_lets +onlyGivenNames x; first | (refine cut (P := Keeps A s x) ?_ ?_; (on_goal 1 => (unfold x; clear x)); (on_goal 2 => (intro hx; first | clear_value x | skip))) | clear_value x | skip)
    | (with_reducible refine putb_keepsAt (by assumption) ?_)
    | (with_reducible refine putb_keeps (by assumption) ?_)
    | with_reducible apply keeps_ite
    | with_reducible apply keeps_foldl
    | split
    | refine keeps_ite ?_ ?_)

def touchSnowSet (A : Part → Prop) : Prop := touchSnowShow A ∧ A .th
theorem touchSnowSet_all (h : ∀ q, A q) : touchSnowSet A := ⟨touchSnowShow_all h, h _⟩
theorem snowSet_keeps {n : ℕ} {on : Bool} (hA : touchSnowSet A)  (h : Keeps A s t) : Keeps A s (State.snowSet t n on) := by
  unfold State.snowSet
  obtain ⟨_, _⟩ := hA
  repeat' (first
    | with_reducible assumption
    | intro y
    | (extract_lets +onlyGivenNames x; first | (refine cut (P := Keeps A s x) ?_ ?_; (on_goal 1 => (unfold x; clear x)); (on_goal 2 => (intro hx; first | clear_value x | skip))) | clear_value x | skip)
    | (with_reducible apply snowShow_keeps (hA := by first | with_reducible assumption | with_reducible apply_assumption))
    | with_reducible apply keeps_ite
    | split
    | refine keeps_ite ?_ ?_
    | with_reducible exact keeps_th (by assumption) (by assumption))

def touchTsJudge (A : Part → Prop) : Prop := touchSdPeak A ∧ touchLog A ∧ touchSnowSet A ∧ touchSnowShow A
theorem touchTsJudge_all (h : ∀ q, A q) : touchTsJudge A := ⟨touchSdPeak_all h, touchLog_all h, touchSnowSet_all h, touchSnowShow_all h⟩
theorem tsJudge_keeps {n : ℕ} (hA : touchTsJudge A)  (h : Keeps A s t) : Keeps A s (State.tsJudge t n) := by
  unfold State.tsJudge
  obtain ⟨_, _, _, _⟩ := hA
  repeat' (first
    | with_reducible assumption
    | intro y
    | (extract_lets +onlyGivenNames x; first | (refine cut (P := Keeps A s x) ?_ ?_; (on_goal 1 => (unfold x; clear x)); (on_goal 2 => (intro hx; first | clear_value x | skip))) | clear_value x | skip)
    | (with_reducible apply sdPeak_keeps (hA := by first | with_reducible assumption | with_reducible apply_assumption))
    | (with_reducible apply log_keeps (hA := by first | with_reducible assumption | with_reducible apply_assumption))
    | (with_reducible apply snowSet_keeps (hA := by first | with_reducible assumption | with_reducible apply_assumption))
    | (with_reducible apply snowShow_keeps (hA := by first | with_reducible assumption | with_reducible apply_assumption))
    | with_reducible apply keeps_ite
    | split
    | refine keeps_ite ?_ ?_)

def touchTsFollow (A : Part → Prop) : Prop := touchZonesFollow A ∧ touchTsJudge A ∧ touchTsShow A
theorem touchTsFollow_all (h : ∀ q, A q) : touchTsFollow A := ⟨touchZonesFollow_all h, touchTsJudge_all h, touchTsShow_all h⟩
theorem tsFollow_keeps {n : ℕ} (hA : touchTsFollow A)  (h : Keeps A s t) : Keeps A s (State.tsFollow t n) := by
  unfold State.tsFollow
  obtain ⟨_, _, _⟩ := hA
  repeat' (first
    | with_reducible assumption
    | intro y
    | (extract_lets +onlyGivenNames x; first | (refine cut (P := Keeps A s x) ?_ ?_; (on_goal 1 => (unfold x; clear x)); (on_goal 2 => (intro hx; first | clear_value x | skip))) | clear_value x | skip)
    | (with_reducible apply zonesFollow_keeps (hA := by first | with_reducible assumption | with_reducible apply_assumption))
    | (with_reducible apply tsJudge_keeps (hA := by first | with_reducible assumption | with_reducible apply_assumption))
    | (with_reducible apply tsShow_keeps (hA := by first | with_reducible assumption | with_reducible apply_assumption))
    | with_reducible apply keeps_ite
    | with_reducible apply keeps_foldl
    | split
    | refine keeps_ite ?_ ?_)

def touchTsFail (A : Part → Prop) (n : Nat) : Prop := touchTsFollow A ∧ touchLog A ∧ A (.inst R.TH_TS_STAT.FAIL_SEEN n 0) ∧ A (.inst R.TH_TS_STAT.STATE n 0)
theorem touchTsFail_all (h : ∀ q, A q) {n : Nat} : touchTsFail A n := ⟨touchTsFollow_all h, touchLog_all h, h _, h _⟩
theorem tsFail_keeps {n : ℕ} (hA : touchTsFail A n)  (h : Keeps A s t) : Keeps A s (State.tsFail t n) := by
  unfold State.tsFail
  obtain ⟨_, _, _, _⟩ := hA
  repeat' (first
    | with_reducible assumption
    | intro y
    | (extract_lets +onlyGivenNames x; first | (refine cut (P := Keeps A s x) ?_ ?_; (on_goal 1 => (unfold x; clear x)); (on_goal 2 => (intro hx; first | clear_value x | skip))) | clear_value x | skip)
    | (with_reducible refine put_keepsAt (by assumption) ?_)
    | (with_reducible refine put_keeps (by assumption) ?_)
    | (with_reducible apply tsFollow_keeps (hA := by first | with_reducible assumption | with_reducible apply_assumption))
    | (with_reducible apply log_keeps (hA := by first | with_reducible assumption | with_reducible apply_assumption))
    | with_reducible apply keeps_ite
    | split
    | refine keeps_ite ?_ ?_)

def touchSampleCount (A : Part → Prop) : Prop := A .th
theorem touchSampleCount_all (h : ∀ q, A q) : touchSampleCount A := h _
theorem sampleCount_keeps {m : ℕ} (hA : touchSampleCount A)  (h : Keeps A s t) : Keeps A s (State.sampleCount t m) := by
  unfold State.sampleCount
  unfold touchSampleCount at hA
  repeat' (first
    | with_reducible assumption
    | intro y
    | (extract_lets +onlyGivenNames x; first | (refine cut (P := Keeps A s x) ?_ ?_; (on_goal 1 => (unfold x; clear x)); (on_goal 2 => (intro hx; first | clear_value x | skip))) | clear_value x | skip)
    | with_reducible apply keeps_ite
    | with_reducible apply keeps_foldl
    | split
    | refine keeps_ite ?_ ?_
    | with_reducible exact keeps_th (by assumption) (by assumption))

def touchExecSensorSample (A : Part → Prop) (n : Nat) : Prop := A (.inst R.TH_TS_RES.RES n 0) ∧ A (.inst R.TH_TS_STAT.STATE n 0) ∧ touchSampleCount A ∧ touchTsFail A n ∧ touchTsFollow A ∧ A (.inst R.TH_TS_VAL.RAW n 0) ∧ A .th
theorem touchExecSensorSample_all (h : ∀ q, A q) {n : Nat} : touchExecSensorSample A n := ⟨h _, h _, touchSampleCount_all h, touchTsFail_all h, touchTsFollow_all h, h _, h _⟩
theorem execSensorSample_next {n : ℕ} {mOhm : ℕ} (hA : touchExecSensorSample A n) : ∃ u, execSensorSample n mOhm s = .next u ∧ Keeps A s u := by
  unfold execSensorSample
  have h := Keeps.refl A s
  refine ⟨_, rfl, ?_⟩
  obtain ⟨_, _, _, _, _, _, _⟩ := hA
  repeat' (first
    | with_reducible assumption
    | intro y
    | (extract_lets +onlyGivenNames x; first | (refine cut (P := Keeps A s x) ?_ ?_; (on_goal 1 => (unfold x; clear x)); (on_goal 2 => (intro hx; first | clear_value x | skip))) | clear_value x | skip)
    | (with_reducible refine put_keepsAt (by assumption) ?_)
    | (with_reducible refine put_keeps (by assumption) ?_)
    | (with_reducible refine putSat_keepsAt (by assumption) ?_)
    | (with_reducible refine putSat_keeps (by assumption) ?_)
    | (with_reducible refine putMax_keepsAt (by assumption) ?_)
    | (with_reducible refine putMax_keeps (by assumption) ?_)
    | (with_reducible apply sampleCount_keeps (hA := by first | with_reducible assumption | with_reducible apply_assumption))
    | (with_reducible apply tsFail_keeps (hA := by first | with_reducible assumption | with_reducible apply_assumption))
    | (with_reducible apply tsFollow_keeps (hA := by first | with_reducible assumption | with_reducible apply_assumption))
    | with_reducible apply keeps_ite
    | split
    | refine keeps_ite ?_ ?_
    | with_reducible exact keeps_th (by assumption) (by assumption))

def touchExecSensorFailed (A : Part → Prop) (n : Nat) : Prop := touchTsFail A n
theorem touchExecSensorFailed_all (h : ∀ q, A q) {n : Nat} : touchExecSensorFailed A n := touchTsFail_all h
theorem execSensorFailed_next {n : ℕ} {k : ℕ} (hA : touchExecSensorFailed A n) : ∃ u, execSensorFailed n k s = .next u ∧ Keeps A s u := by
  unfold execSensorFailed
  have h := Keeps.refl A s
  refine ⟨_, rfl, ?_⟩
  unfold touchExecSensorFailed at hA
  repeat' (first
    | with_reducible assumption
    | intro y
    | (with_reducible apply tsFail_keeps (hA := by first | with_reducible assumption | with_reducible apply_assumption))
    | with_reducible apply keeps_ite
    | split)

def touchExecSensorRecover (A : Part → Prop) (n : Nat) : Prop := touchTsFollow A ∧ touchLog A ∧ A (.inst R.TH_TS_STAT.STATE n 0)
theorem touchExecSensorRecover_all (h : ∀ q, A q) {n : Nat} : touchExecSensorRecover A n := ⟨touchTsFollow_all h, touchLog_all h, h _⟩
theorem execSensorRecover_next {n : ℕ} {secs : ℕ} (hA : touchExecSensorRecover A n) : ∃ u, execSensorRecover n secs s = .next u ∧ Keeps A s u := by
  unfold execSensorRecover
  have h := Keeps.refl A s
  refine ⟨_, rfl, ?_⟩
  obtain ⟨_, _, _⟩ := hA
  repeat' (first
    | with_reducible assumption
    | intro y
    | (extract_lets +onlyGivenNames x; first | (refine cut (P := Keeps A s x) ?_ ?_; (on_goal 1 => (unfold x; clear x)); (on_goal 2 => (intro hx; first | clear_value x | skip))) | clear_value x | skip)
    | (with_reducible refine put_keepsAt (by assumption) ?_)
    | (with_reducible refine put_keeps (by assumption) ?_)
    | (with_reducible apply tsFollow_keeps (hA := by first | with_reducible assumption | with_reducible apply_assumption))
    | (with_reducible apply log_keeps (hA := by first | with_reducible assumption | with_reducible apply_assumption))
    | with_reducible apply keeps_ite
    | split
    | refine keeps_ite ?_ ?_)

def touchExecSensorSuspect (A : Part → Prop) : Prop := touchLog A ∧ A (.reg R.TH_TS_STAT.SUSP_SEEN) ∧ A (.reg R.TH_TS_STAT.STATE) ∧ touchTsFollow A
theorem touchExecSensorSuspect_all (h : ∀ q, A q) : touchExecSensorSuspect A := ⟨touchLog_all h, h _, h _, touchTsFollow_all h⟩
theorem execSensorSuspect_next {n : ℕ} {k : ℕ} (hA : touchExecSensorSuspect A) : ∃ u, execSensorSuspect n k s = .next u ∧ Keeps A s u := by
  unfold execSensorSuspect
  have h := Keeps.refl A s
  refine ⟨_, rfl, ?_⟩
  obtain ⟨_, _, _, _⟩ := hA
  repeat' (first
    | with_reducible assumption
    | intro y
    | (extract_lets +onlyGivenNames x; first | (refine cut (P := Keeps A s x) ?_ ?_; (on_goal 1 => (unfold x; clear x)); (on_goal 2 => (intro hx; first | clear_value x | skip))) | (refine cut (P := ∀ y0 y1, Keeps A s y0 → Keeps A s (x y0 y1)) ?_ ?_; (on_goal 1 => (unfold x; clear x)); (on_goal 2 => (intro hf; first | clear_value x | skip))) | clear_value x | skip)
    | (with_reducible refine put_keepsAt (by assumption) ?_)
    | (with_reducible refine put_keeps (by assumption) ?_)
    | (with_reducible apply log_keeps (hA := by first | with_reducible assumption | with_reducible apply_assumption))
    | (with_reducible apply tsFollow_keeps (hA := by first | with_reducible assumption | with_reducible apply_assumption))
    | with_reducible apply keeps_ite
    | with_reducible apply keeps_foldl
    | with_reducible apply hf
    | with_reducible apply_assumption
    | split
    | refine keeps_ite ?_ ?_)

def touchExecSuspectRecover (A : Part → Prop) (n : Nat) : Prop := touchTsFollow A ∧ touchLog A ∧ A (.inst R.TH_TS_STAT.STATE n 0)
theorem touchExecSuspectRecover_all (h : ∀ q, A q) {n : Nat} : touchExecSuspectRecover A n := ⟨touchTsFollow_all h, touchLog_all h, h _⟩
theorem execSuspectRecover_next {n : ℕ} {secs : ℕ} (hA : touchExecSuspectRecover A n) : ∃ u, execSuspectRecover n secs s = .next u ∧ Keeps A s u := by
  unfold execSuspectRecover
  have h := Keeps.refl A s
  refine ⟨_, rfl, ?_⟩
  obtain ⟨_, _, _⟩ := hA
  repeat' (first
    | with_reducible assumption
    | intro y
    | (extract_lets +onlyGivenNames x; first | (refine cut (P := Keeps A s x) ?_ ?_; (on_goal 1 => (unfold x; clear x)); (on_goal 2 => (intro hx; first | clear_value x | skip))) | clear_value x | skip)
    | (with_reducible refine put_keepsAt (by assumption) ?_)
    | (with_reducible refine put_keeps (by assumption) ?_)
    | (with_reducible apply tsFollow_keeps (hA := by first | with_reducible assumption | with_reducible apply_assumption))
    | (with_reducible apply log_keeps (hA := by first | with_reducible assumption | with_reducible apply_assumption))
    | with_reducible apply keeps_ite
    | split
    | refine keeps_ite ?_ ?_)

def touchExecSnowlineExit (A : Part → Prop) : Prop := touchLog A ∧ touchSnowSet A
theorem touchExecSnowlineExit_all (h : ∀ q, A q) : touchExecSnowlineExit A := ⟨touchLog_all h, touchSnowSet_all h⟩
theorem execSnowlineExit_next {n : ℕ} {k : ℕ} (hA : touchExecSnowlineExit A) : ∃ u, execSnowlineExit n k s = .next u ∧ Keeps A s u := by
  unfold execSnowlineExit
  have h := Keeps.refl A s
  refine ⟨_, rfl, ?_⟩
  obtain ⟨_, _⟩ := hA
  repeat' (first
    | with_reducible assumption
    | intro y
    | (extract_lets +onlyGivenNames x; first | (refine cut (P := Keeps A s x) ?_ ?_; (on_goal 1 => (unfold x; clear x)); (on_goal 2 => (intro hx; first | clear_value x | skip))) | clear_value x | skip)
    | (with_reducible apply log_keeps (hA := by first | with_reducible assumption | with_reducible apply_assumption))
    | (with_reducible apply snowSet_keeps (hA := by first | with_reducible assumption | with_reducible apply_assumption))
    | with_reducible apply keeps_ite
    | split
    | refine keeps_ite ?_ ?_)

def touchSetWarn (A : Part → Prop) (m : Nat) : Prop := A .th ∧ A (.inst R.TH_TS_STAT.WARN m 0)
theorem touchSetWarn_all (h : ∀ q, A q) {m : Nat} : touchSetWarn A m := ⟨h _, h _⟩
theorem setWarn_keeps {m : ℕ} {on : Bool} (hA : touchSetWarn A m)  (h : Keeps A s t) : Keeps A s (State.setWarn t m on) := by
  unfold State.setWarn
  obtain ⟨_, _⟩ := hA
  repeat' (first
    | with_reducible assumption
    | intro y
    | (extract_lets +onlyGivenNames x; first | (refine cut (P := Keeps A s x) ?_ ?_; (on_goal 1 => (unfold x; clear x)); (on_goal 2 => (intro hx; first | clear_value x | skip))) | clear_value x | skip)
    | (with_reducible refine putb_keepsAt (by assumption) ?_)
    | (with_reducible refine putb_keeps (by assumption) ?_)
    | with_reducible apply keeps_ite
    | split
    | with_reducible exact keeps_th (by assumption) (by assumption))

def touchExecWarnLimit (A : Part → Prop) (m : Nat) : Prop := touchLog A ∧ touchSetWarn A m
theorem touchExecWarnLimit_all (h : ∀ q, A q) {m : Nat} : touchExecWarnLimit A m := ⟨touchLog_all h, touchSetWarn_all h⟩
theorem execWarnLimit_next {m : ℕ} {k : ℕ} (hA : touchExecWarnLimit A m) : ∃ u, execWarnLimit m k s = .next u ∧ Keeps A s u := by
  unfold execWarnLimit
  have h := Keeps.refl A s
  refine ⟨_, rfl, ?_⟩
  obtain ⟨_, _⟩ := hA
  repeat' (first
    | with_reducible assumption
    | intro y
    | (extract_lets +onlyGivenNames x; first | (refine cut (P := Keeps A s x) ?_ ?_; (on_goal 1 => (unfold x; clear x)); (on_goal 2 => (intro hx; first | clear_value x | skip))) | clear_value x | skip)
    | (with_reducible apply log_keeps (hA := by first | with_reducible assumption | with_reducible apply_assumption))
    | (with_reducible apply setWarn_keeps (hA := by first | with_reducible assumption | with_reducible apply_assumption))
    | with_reducible apply keeps_ite
    | split
    | refine keeps_ite ?_ ?_)

def touchExecZoneAsk (A : Part → Prop) (z : Nat) : Prop := touchZoneState A z ∧ A (.inst R.TH_ZONE_STAT.GRACE_LEFT z 0) ∧ touchLog A
theorem touchExecZoneAsk_all (h : ∀ q, A q) {z : Nat} : touchExecZoneAsk A z := ⟨touchZoneState_all h, h _, touchLog_all h⟩
theorem execZoneAsk_next {z : ℕ} {m : ℕ} {k : ℕ} (hA : touchExecZoneAsk A z) : ∃ u, execZoneAsk z m k s = .next u ∧ Keeps A s u := by
  unfold execZoneAsk
  have h := Keeps.refl A s
  refine ⟨_, rfl, ?_⟩
  obtain ⟨_, _, _⟩ := hA
  repeat' (first
    | with_reducible assumption
    | intro y
    | (extract_lets +onlyGivenNames x; first | (refine cut (P := Keeps A s x) ?_ ?_; (on_goal 1 => (unfold x; clear x)); (on_goal 2 => (intro hx; first | clear_value x | skip))) | clear_value x | skip)
    | (with_reducible refine put_keepsAt (by assumption) ?_)
    | (with_reducible refine put_keeps (by assumption) ?_)
    | (with_reducible apply zoneState_keeps (hA := by first | with_reducible assumption | with_reducible apply_assumption))
    | (with_reducible apply log_keeps (hA := by first | with_reducible assumption | with_reducible apply_assumption))
    | with_reducible apply keeps_ite
    | split
    | refine keeps_ite ?_ ?_)

def touchExecZoneEnforce (A : Part → Prop) (z : Nat) : Prop := A (.inst R.TH_ZONE_STAT.GRACE_LEFT z 0) ∧ touchZoneEnforce A z
theorem touchExecZoneEnforce_all (h : ∀ q, A q) {z : Nat} : touchExecZoneEnforce A z := ⟨h _, touchZoneEnforce_all h⟩
theorem execZoneEnforce_next {z : ℕ} {t0 : ℕ} (hA : touchExecZoneEnforce A z) : ∃ u, execZoneEnforce z t0 s = .next u ∧ Keeps A s u := by
  unfold execZoneEnforce
  have h := Keeps.refl A s
  refine ⟨_, rfl, ?_⟩
  obtain ⟨_, _⟩ := hA
  repeat' (first
    | with_reducible assumption
    | intro y
    | (extract_lets +onlyGivenNames x; first | (refine cut (P := Keeps A s x) ?_ ?_; (on_goal 1 => (unfold x; clear x)); (on_goal 2 => (intro hx; first | clear_value x | skip))) | clear_value x | skip)
    | (with_reducible refine put_keepsAt (by assumption) ?_)
    | (with_reducible refine put_keeps (by assumption) ?_)
    | (with_reducible apply zoneEnforce_keeps (hA := by first | with_reducible assumption | with_reducible apply_assumption))
    | with_reducible apply keeps_ite
    | split
    | refine keeps_ite ?_ ?_)

def touchExecZoneShutdown (A : Part → Prop) (z : Nat) : Prop := touchZoneShut A z ∧ A .sd
theorem touchExecZoneShutdown_all (h : ∀ q, A q) {z : Nat} : touchExecZoneShutdown A z := ⟨touchZoneShut_all h, h _⟩
theorem execZoneShutdown_next {z : ℕ} {m : ℕ} {k : ℕ} (hA : touchExecZoneShutdown A z) : ∃ u, execZoneShutdown z m k s = .next u ∧ Keeps A s u := by
  unfold execZoneShutdown
  have h := Keeps.refl A s
  refine ⟨_, rfl, ?_⟩
  obtain ⟨_, _⟩ := hA
  repeat' (first
    | with_reducible assumption
    | intro y
    | (extract_lets +onlyGivenNames x; first | (refine cut (P := Keeps A s x) ?_ ?_; (on_goal 1 => (unfold x; clear x)); (on_goal 2 => (intro hx; first | clear_value x | skip))) | clear_value x | skip)
    | (with_reducible apply zoneShut_keeps (hA := by first | with_reducible assumption | with_reducible apply_assumption))
    | with_reducible apply keeps_ite
    | split
    | refine keeps_ite ?_ ?_
    | with_reducible exact keeps_sd (by assumption) (by assumption))

def touchExecZoneRelease (A : Part → Prop) (z : Nat) : Prop := touchLog A ∧ touchZoneState A z ∧ A (.inst R.TH_ZONE_STAT.GRACE_LEFT z 0)
theorem touchExecZoneRelease_all (h : ∀ q, A q) {z : Nat} : touchExecZoneRelease A z := ⟨touchLog_all h, touchZoneState_all h, h _⟩
theorem execZoneRelease_next {z : ℕ} {k : ℕ} (hA : touchExecZoneRelease A z) : ∃ u, execZoneRelease z k s = .next u ∧ Keeps A s u := by
  unfold execZoneRelease
  have h := Keeps.refl A s
  refine ⟨_, rfl, ?_⟩
  obtain ⟨_, _, _⟩ := hA
  repeat' (first
    | with_reducible assumption
    | intro y
    | (extract_lets +onlyGivenNames x; first | (refine cut (P := Keeps A s x) ?_ ?_; (on_goal 1 => (unfold x; clear x)); (on_goal 2 => (intro hx; first | clear_value x | skip))) | clear_value x | skip)
    | (with_reducible apply log_keeps (hA := by first | with_reducible assumption | with_reducible apply_assumption))
    | (with_reducible apply zoneState_keeps (hA := by first | with_reducible assumption | with_reducible apply_assumption))
    | (with_reducible refine put_keepsAt (by assumption) ?_)
    | (with_reducible refine put_keeps (by assumption) ?_)
    | with_reducible apply keeps_ite
    | split
    | refine keeps_ite ?_ ?_)

def touchShutRelease (A : Part → Prop) (z : Nat) : Prop := A .sd ∧ touchLog A ∧ touchZoneState A z ∧ A (.inst R.TH_ZONE_STAT.LATCHED z 0)
theorem touchShutRelease_all (h : ∀ q, A q) {z : Nat} : touchShutRelease A z := ⟨h _, touchLog_all h, touchZoneState_all h, h _⟩
theorem shutRelease_keeps {z : ℕ} (hA : touchShutRelease A z)  (h : Keeps A s t) : Keeps A s (State.shutRelease t z) := by
  unfold State.shutRelease
  obtain ⟨_, _, _, _⟩ := hA
  repeat' (first
    | with_reducible assumption
    | intro y
    | (extract_lets +onlyGivenNames x; first | (refine cut (P := Keeps A s x) ?_ ?_; (on_goal 1 => (unfold x; clear x)); (on_goal 2 => (intro hx; first | clear_value x | skip))) | clear_value x | skip)
    | (with_reducible apply log_keeps (hA := by first | with_reducible assumption | with_reducible apply_assumption))
    | (with_reducible apply zoneState_keeps (hA := by first | with_reducible assumption | with_reducible apply_assumption))
    | (with_reducible refine put_keepsAt (by assumption) ?_)
    | (with_reducible refine put_keeps (by assumption) ?_)
    | with_reducible apply keeps_ite
    | split
    | refine keeps_ite ?_ ?_
    | with_reducible exact keeps_sd (by assumption) (by assumption))

def touchExecShutdownRelease (A : Part → Prop) (z : Nat) : Prop := touchShutRelease A z
theorem touchExecShutdownRelease_all (h : ∀ q, A q) {z : Nat} : touchExecShutdownRelease A z := touchShutRelease_all h
theorem execShutdownRelease_next {z : ℕ} {secs : ℕ} (hA : touchExecShutdownRelease A z) : ∃ u, execShutdownRelease z secs s = .next u ∧ Keeps A s u := by
  unfold execShutdownRelease
  have h := Keeps.refl A s
  refine ⟨_, rfl, ?_⟩
  unfold touchExecShutdownRelease at hA
  repeat' (first
    | with_reducible assumption
    | intro y
    | (with_reducible apply shutRelease_keeps (hA := by first | with_reducible assumption | with_reducible apply_assumption))
    | with_reducible apply keeps_ite
    | split)

def touchExecZoneClr (A : Part → Prop) (z : Nat) : Prop := touchGuarded A ∧ touchShutRelease A z
theorem touchExecZoneClr_all (h : ∀ q, A q) {z : Nat} : touchExecZoneClr A z := ⟨touchGuarded_all h, touchShutRelease_all h⟩
theorem execZoneClr_next {sess : ℕ} {z : ℕ} {secs : ℕ} (hA : touchExecZoneClr A z) : ∃ u, execZoneClr sess z secs s = .next u ∧ Keeps A s u := by
  unfold execZoneClr
  have h := Keeps.refl A s
  refine ⟨_, rfl, ?_⟩
  obtain ⟨_, _⟩ := hA
  repeat' (first
    | with_reducible assumption
    | intro y
    | (with_reducible apply guarded_keeps (hA := by first | with_reducible assumption | with_reducible apply_assumption))
    | (with_reducible apply shutRelease_keeps (hA := by first | with_reducible assumption | with_reducible apply_assumption))
    | with_reducible apply keeps_ite
    | split)

def touchZoneEnable (A : Part → Prop) (z : Nat) : Prop := touchZoneShow A z ∧ A (.inst R.TH_ZONE_CFG.CFG_ERR z 0) ∧ A (.inst R.TH_ZONE_CFG.EN z 0)
theorem touchZoneEnable_all (h : ∀ q, A q) {z : Nat} : touchZoneEnable A z := ⟨touchZoneShow_all h, h _, h _⟩
theorem zoneEnable_keeps {z : ℕ} (hA : touchZoneEnable A z)  (h : Keeps A s t) : Keeps A s (State.zoneEnable t z) := by
  unfold State.zoneEnable
  obtain ⟨_, _, _⟩ := hA
  repeat' (first
    | with_reducible assumption
    | intro y
    | (with_reducible apply zoneShow_keeps (hA := by first | with_reducible assumption | with_reducible apply_assumption))
    | (with_reducible refine put_keepsAt (by assumption) ?_)
    | (with_reducible refine put_keeps (by assumption) ?_)
    | with_reducible apply keeps_ite
    | split)

def touchZoneDisable (A : Part → Prop) (z : Nat) : Prop := A (.inst R.TH_ZONE_CFG.EN z 0) ∧ touchZoneState A z
theorem touchZoneDisable_all (h : ∀ q, A q) {z : Nat} : touchZoneDisable A z := ⟨h _, touchZoneState_all h⟩
theorem zoneDisable_keeps {z : ℕ} (hA : touchZoneDisable A z)  (h : Keeps A s t) : Keeps A s (State.zoneDisable t z) := by
  unfold State.zoneDisable
  obtain ⟨_, _⟩ := hA
  repeat' (first
    | with_reducible assumption
    | intro y
    | (extract_lets +onlyGivenNames x; first | (refine cut (P := Keeps A s x) ?_ ?_; (on_goal 1 => (unfold x; clear x)); (on_goal 2 => (intro hx; first | clear_value x | skip))) | clear_value x | skip)
    | (with_reducible refine put_keepsAt (by assumption) ?_)
    | (with_reducible refine put_keeps (by assumption) ?_)
    | (with_reducible apply zoneState_keeps (hA := by first | with_reducible assumption | with_reducible apply_assumption))
    | with_reducible apply keeps_ite
    | split
    | refine keeps_ite ?_ ?_)

def touchExecZoneEnable (A : Part → Prop) (z : Nat) : Prop := touchGuarded A ∧ touchZoneEnable A z
theorem touchExecZoneEnable_all (h : ∀ q, A q) {z : Nat} : touchExecZoneEnable A z := ⟨touchGuarded_all h, touchZoneEnable_all h⟩
theorem execZoneEnable_next {sess : ℕ} {z : ℕ} (hA : touchExecZoneEnable A z) : ∃ u, execZoneEnable sess z s = .next u ∧ Keeps A s u := by
  unfold execZoneEnable
  have h := Keeps.refl A s
  refine ⟨_, rfl, ?_⟩
  obtain ⟨_, _⟩ := hA
  repeat' (first
    | with_reducible assumption
    | intro y
    | (with_reducible apply guarded_keeps (hA := by first | with_reducible assumption | with_reducible apply_assumption))
    | (with_reducible apply zoneEnable_keeps (hA := by first | with_reducible assumption | with_reducible apply_assumption))
    | with_reducible apply keeps_ite
    | split)

def touchExecCableModelUpdate (A : Part → Prop) (m : Nat) : Prop := A .th ∧ A .cm ∧ A (.inst R.TH_CM_VAL.T m 0) ∧ A (.inst R.TH_CM_VAL.SUSPECT m 0) ∧ touchSampleCount A ∧ touchZonesFollow A ∧ touchSdPeak A
theorem touchExecCableModelUpdate_all (h : ∀ q, A q) {m : Nat} : touchExecCableModelUpdate A m := ⟨h _, h _, h _, h _, touchSampleCount_all h, touchZonesFollow_all h, touchSdPeak_all h⟩
theorem execCableModelUpdate_next {m : ℕ} (hA : touchExecCableModelUpdate A m) : ∃ u, execCableModelUpdate m s = .next u ∧ Keeps A s u := by
  unfold execCableModelUpdate
  have h := Keeps.refl A s
  refine ⟨_, rfl, ?_⟩
  obtain ⟨_, _, _, _, _, _, _⟩ := hA
  repeat' (first
    | with_reducible assumption
    | intro y
    | (extract_lets +onlyGivenNames x; first | (refine cut (P := Keeps A s x) ?_ ?_; (on_goal 1 => (unfold x; clear x)); (on_goal 2 => (intro hx; first | clear_value x | skip))) | clear_value x | skip)
    | (with_reducible refine put_keepsAt (by assumption) ?_)
    | (with_reducible refine put_keeps (by assumption) ?_)
    | (with_reducible refine putSat_keepsAt (by assumption) ?_)
    | (with_reducible refine putSat_keeps (by assumption) ?_)
    | (with_reducible apply sampleCount_keeps (hA := by first | with_reducible assumption | with_reducible apply_assumption))
    | (with_reducible apply zonesFollow_keeps (hA := by first | with_reducible assumption | with_reducible apply_assumption))
    | (with_reducible apply sdPeak_keeps (hA := by first | with_reducible assumption | with_reducible apply_assumption))
    | with_reducible apply keeps_ite
    | split
    | refine keeps_ite ?_ ?_
    | with_reducible exact keeps_th_cm (by assumption) (by assumption) (by assumption))

def touchExecModelSuspect (A : Part → Prop) (m : Nat) : Prop := touchLog A ∧ A (.inst R.TH_CM_VAL.SUSPECT m 0)
theorem touchExecModelSuspect_all (h : ∀ q, A q) {m : Nat} : touchExecModelSuspect A m := ⟨touchLog_all h, h _⟩
theorem execModelSuspect_next {m : ℕ} (hA : touchExecModelSuspect A m) : ∃ u, execModelSuspect m s = .next u ∧ Keeps A s u := by
  unfold execModelSuspect
  have h := Keeps.refl A s
  refine ⟨_, rfl, ?_⟩
  obtain ⟨_, _⟩ := hA
  repeat' (first
    | with_reducible assumption
    | intro y
    | (with_reducible apply log_keeps (hA := by first | with_reducible assumption | with_reducible apply_assumption))
    | (with_reducible refine put_keepsAt (by assumption) ?_)
    | (with_reducible refine put_keeps (by assumption) ?_)
    | with_reducible apply keeps_ite
    | split)

def touchColdPlate (A : Part → Prop) (i : Nat) : Prop := A .th ∧ touchLog A ∧ A (.inst R.TH_INT_VAL.EXCL i 0)
theorem touchColdPlate_all (h : ∀ q, A q) {i : Nat} : touchColdPlate A i := ⟨h _, touchLog_all h, h _⟩
theorem coldPlate_keeps {i : ℕ} {old : ℤ} (hA : touchColdPlate A i)  (h : Keeps A s t) : Keeps A s (State.coldPlate t i old) := by
  unfold State.coldPlate
  obtain ⟨_, _, _⟩ := hA
  repeat' (first
    | with_reducible assumption
    | intro y
    | (extract_lets +onlyGivenNames x; first | (refine cut (P := Keeps A s x) ?_ ?_; (on_goal 1 => (unfold x; clear x)); (on_goal 2 => (intro hx; first | clear_value x | skip))) | clear_value x | skip)
    | (with_reducible refine put_keepsAt (by assumption) ?_)
    | (with_reducible refine put_keeps (by assumption) ?_)
    | (with_reducible apply log_keeps (hA := by first | with_reducible assumption | with_reducible apply_assumption))
    | with_reducible apply keeps_ite
    | split
    | refine keeps_ite ?_ ?_
    | with_reducible exact keeps_th (by assumption) (by assumption))

def touchExecInternalSensorSample (A : Part → Prop) (i : Nat) : Prop := A (.inst R.TH_INT_VAL.T i 0) ∧ touchColdPlate A i ∧ touchSdPeak A ∧ touchLog A ∧ A .th
theorem touchExecInternalSensorSample_all (h : ∀ q, A q) {i : Nat} : touchExecInternalSensorSample A i := ⟨h _, touchColdPlate_all h, touchSdPeak_all h, touchLog_all h, h _⟩
theorem execInternalSensorSample_next {i : ℕ} {v : ℤ} (hA : touchExecInternalSensorSample A i) : ∃ u, execInternalSensorSample i v s = .next u ∧ Keeps A s u := by
  unfold execInternalSensorSample
  have h := Keeps.refl A s
  refine ⟨_, rfl, ?_⟩
  obtain ⟨_, _, _, _, _⟩ := hA
  repeat' (first
    | with_reducible assumption
    | intro y
    | (extract_lets +onlyGivenNames x; first | (refine cut (P := Keeps A s x) ?_ ?_; (on_goal 1 => (unfold x; clear x)); (on_goal 2 => (intro hx; first | clear_value x | skip))) | clear_value x | skip)
    | (with_reducible refine putSat_keepsAt (by assumption) ?_)
    | (with_reducible refine putSat_keeps (by assumption) ?_)
    | (with_reducible apply coldPlate_keeps (hA := by first | with_reducible assumption | with_reducible apply_assumption))
    | (with_reducible apply sdPeak_keeps (hA := by first | with_reducible assumption | with_reducible apply_assumption))
    | (with_reducible apply log_keeps (hA := by first | with_reducible assumption | with_reducible apply_assumption))
    | with_reducible apply each_keeps
    | with_reducible apply keeps_ite
    | split
    | refine keeps_ite ?_ ?_
    | with_reducible exact keeps_th (by assumption) (by assumption))

def touchExecInternalOverTemperature (A : Part → Prop) : Prop := touchReqSafeOff A ∧ touchSdWrite A ∧ touchLog A
theorem touchExecInternalOverTemperature_all (h : ∀ q, A q) : touchExecInternalOverTemperature A := ⟨touchReqSafeOff_all h, touchSdWrite_all h, touchLog_all h⟩
theorem execInternalOverTemperature_next {i : ℕ} {k : ℕ} (hA : touchExecInternalOverTemperature A) : ∃ u, execInternalOverTemperature i k s = .next u ∧ Keeps A s u := by
  unfold execInternalOverTemperature
  have h := Keeps.refl A s
  refine ⟨_, rfl, ?_⟩
  obtain ⟨_, _, _⟩ := hA
  repeat' (first
    | with_reducible assumption
    | intro y
    | (extract_lets +onlyGivenNames x; first | (refine cut (P := Keeps A s x) ?_ ?_; (on_goal 1 => (unfold x; clear x)); (on_goal 2 => (intro hx; first | clear_value x | skip))) | clear_value x | skip)
    | (with_reducible apply reqSafeOff_keeps (hA := by first | with_reducible assumption | with_reducible apply_assumption))
    | (with_reducible apply sdWrite_keeps (hA := by first | with_reducible assumption | with_reducible apply_assumption))
    | (with_reducible apply log_keeps (hA := by first | with_reducible assumption | with_reducible apply_assumption))
    | with_reducible apply keeps_ite
    | split
    | refine keeps_ite ?_ ?_)

def touchThStart (A : Part → Prop) : Prop := A (.reg R.TH_ZONE_ALLOW.ALLOW) ∧ A (.reg R.TH_ZONE_STAT.STATE) ∧ A (.reg R.TH_STAT.ZONE_SHUT)
theorem touchThStart_all (h : ∀ q, A q) : touchThStart A := ⟨h _, h _, h _⟩
theorem thStart_keeps  (hA : touchThStart A)  (h : Keeps A s t) : Keeps A s (State.thStart t) := by
  unfold State.thStart
  obtain ⟨_, _, _⟩ := hA
  repeat' (first
    | with_reducible assumption
    | intro y
    | (extract_lets +onlyGivenNames x; first | (refine cut (P := Keeps A s x) ?_ ?_; (on_goal 1 => (unfold x; clear x)); (on_goal 2 => (intro hx; first | clear_value x | skip))) | clear_value x | skip)
    | (with_reducible refine put_keepsAt (by assumption) ?_)
    | (with_reducible refine put_keeps (by assumption) ?_)
    | with_reducible apply each_keeps
    | with_reducible apply keeps_ite
    | split
    | refine keeps_ite ?_ ?_)

def touchExecThermalRestart (A : Part → Prop) : Prop := (∀ x0, touchZoneShut A x0) ∧ (∀ x0, touchZoneEnforce A x0) ∧ touchSetReady A ∧ touchThermWrite A ∧ A (.reg R.TH_TS_STAT.SNOW)
theorem touchExecThermalRestart_all (h : ∀ q, A q) : touchExecThermalRestart A := ⟨(fun _ => touchZoneShut_all h), (fun _ => touchZoneEnforce_all h), touchSetReady_all h, touchThermWrite_all h, h _⟩
theorem execThermalRestart_next {ms : ℕ} (hA : touchExecThermalRestart A) : ∃ u, execThermalRestart ms s = .next u ∧ Keeps A s u := by
  unfold execThermalRestart
  have h := Keeps.refl A s
  refine ⟨_, rfl, ?_⟩
  obtain ⟨_, _, _, _, _⟩ := hA
  repeat' (first
    | with_reducible assumption
    | intro y
    | (extract_lets +onlyGivenNames x; first | (refine cut (P := Keeps A s x) ?_ ?_; (on_goal 1 => (unfold x; clear x)); (on_goal 2 => (intro hx; first | clear_value x | skip))) | clear_value x | skip)
    | (with_reducible refine putb_keepsAt (by assumption) ?_)
    | (with_reducible refine putb_keeps (by assumption) ?_)
    | (with_reducible apply zoneShut_keeps (hA := by first | with_reducible assumption | with_reducible apply_assumption))
    | (with_reducible apply zoneEnforce_keeps (hA := by first | with_reducible assumption | with_reducible apply_assumption))
    | (with_reducible apply setReady_keeps (hA := by first | with_reducible assumption | with_reducible apply_assumption))
    | (with_reducible apply thermWrite_keeps (hA := by first | with_reducible assumption | with_reducible apply_assumption))
    | with_reducible apply each_keeps
    | with_reducible apply keeps_ite
    | split
    | refine keeps_ite ?_ ?_)

def touchCircuitSwitch (A : Part → Prop) (k : Nat) : Prop := (∀ x0, touchLswCommand A x0) ∧ A (.inst R.TH_CC_STAT.RUN k 0)
theorem touchCircuitSwitch_all (h : ∀ q, A q) {k : Nat} : touchCircuitSwitch A k := ⟨(fun _ => touchLswCommand_all h), h _⟩
theorem circuitSwitch_keeps {k : ℕ} {on : Bool} (hA : touchCircuitSwitch A k)  (h : Keeps A s t) : Keeps A s (State.circuitSwitch t k on) := by
  unfold State.circuitSwitch
  obtain ⟨_, _⟩ := hA
  repeat' (first
    | with_reducible assumption
    | intro y
    | (extract_lets +onlyGivenNames x; first | (refine cut (P := Keeps A s x) ?_ ?_; (on_goal 1 => (unfold x; clear x)); (on_goal 2 => (intro hx; first | clear_value x | skip))) | (refine cut (P := ∀ y0 y1, Keeps A s y0 → Keeps A s (x y0 y1)) ?_ ?_; (on_goal 1 => (unfold x; clear x)); (on_goal 2 => (intro hf; first | clear_value x | skip))) | clear_value x | skip)
    | (with_reducible refine putb_keepsAt (by assumption) ?_)
    | (with_reducible refine putb_keeps (by assumption) ?_)
    | (with_reducible apply lswCommand_keeps (hA := by first | with_reducible assumption | with_reducible apply_assumption))
    | with_reducible apply keeps_ite
    | with_reducible apply hf
    | with_reducible apply_assumption
    | split
    | refine keeps_ite ?_ ?_)

def touchHeatSwitch (A : Part → Prop) (k : Nat) : Prop := A (.inst R.TH_CC_STAT.HEAT k 0) ∧ (∀ x0, touchLswCommand A x0)
theorem touchHeatSwitch_all (h : ∀ q, A q) {k : Nat} : touchHeatSwitch A k := ⟨h _, (fun _ => touchLswCommand_all h)⟩
theorem heatSwitch_keeps {k : ℕ} {on : Bool} (hA : touchHeatSwitch A k)  (h : Keeps A s t) : Keeps A s (State.heatSwitch t k on) := by
  unfold State.heatSwitch
  obtain ⟨_, _⟩ := hA
  repeat' (first
    | with_reducible assumption
    | intro y
    | (extract_lets +onlyGivenNames x; first | (refine cut (P := Keeps A s x) ?_ ?_; (on_goal 1 => (unfold x; clear x)); (on_goal 2 => (intro hx; first | clear_value x | skip))) | clear_value x | skip)
    | (with_reducible refine putb_keepsAt (by assumption) ?_)
    | (with_reducible refine putb_keeps (by assumption) ?_)
    | (with_reducible apply lswCommand_keeps (hA := by first | with_reducible assumption | with_reducible apply_assumption))
    | with_reducible apply keeps_ite
    | split
    | refine keeps_ite ?_ ?_)

def touchHeatFlow (A : Part → Prop) (k : Nat) : Prop := touchHeatSwitch A k
theorem touchHeatFlow_all (h : ∀ q, A q) {k : Nat} : touchHeatFlow A k := touchHeatSwitch_all h
theorem heatFlow_keeps {k : ℕ} (hA : touchHeatFlow A k)  (h : Keeps A s t) : Keeps A s (State.heatFlow t k) := by
  unfold State.heatFlow
  unfold touchHeatFlow at hA
  repeat' (first
    | with_reducible assumption
    | intro y
    | (with_reducible apply heatSwitch_keeps (hA := by first | with_reducible assumption | with_reducible apply_assumption))
    | with_reducible apply keeps_ite
    | split)

def touchExecCircuitRun (A : Part → Prop) (k : Nat) : Prop := touchCircuitSwitch A k
theorem touchExecCircuitRun_all (h : ∀ q, A q) {k : Nat} : touchExecCircuitRun A k := touchCircuitSwitch_all h
theorem execCircuitRun_next {k : ℕ} (hA : touchExecCircuitRun A k) : ∃ u, execCircuitRun k s = .next u ∧ Keeps A s u := by
  unfold execCircuitRun
  have h := Keeps.refl A s
  refine ⟨_, rfl, ?_⟩
  unfold touchExecCircuitRun at hA
  repeat' (first
    | with_reducible assumption
    | intro y
    | (extract_lets +onlyGivenNames x; first | (refine cut (P := Keeps A s x) ?_ ?_; (on_goal 1 => (unfold x; clear x)); (on_goal 2 => (intro hx; first | clear_value x | skip))) | clear_value x | skip)
    | (with_reducible apply circuitSwitch_keeps (hA := by first | with_reducible assumption | with_reducible apply_assumption))
    | with_reducible apply keeps_ite
    | split
    | refine keeps_ite ?_ ?_)

def touchExecCircuitStop (A : Part → Prop) (k : Nat) : Prop := touchHeatFlow A k ∧ touchCircuitSwitch A k
theorem touchExecCircuitStop_all (h : ∀ q, A q) {k : Nat} : touchExecCircuitStop A k := ⟨touchHeatFlow_all h, touchCircuitSwitch_all h⟩
theorem execCircuitStop_next {k : ℕ} {secs : ℕ} (hA : touchExecCircuitStop A k) : ∃ u, execCircuitStop k secs s = .next u ∧ Keeps A s u := by
  unfold execCircuitStop
  have h := Keeps.refl A s
  refine ⟨_, rfl, ?_⟩
  obtain ⟨_, _⟩ := hA
  repeat' (first
    | with_reducible assumption
    | intro y
    | (extract_lets +onlyGivenNames x; first | (refine cut (P := Keeps A s x) ?_ ?_; (on_goal 1 => (unfold x; clear x)); (on_goal 2 => (intro hx; first | clear_value x | skip))) | clear_value x | skip)
    | (with_reducible apply heatFlow_keeps (hA := by first | with_reducible assumption | with_reducible apply_assumption))
    | (with_reducible apply circuitSwitch_keeps (hA := by first | with_reducible assumption | with_reducible apply_assumption))
    | with_reducible apply keeps_ite
    | split
    | refine keeps_ite ?_ ?_)

def touchFlowValue (A : Part → Prop) (f : Nat) : Prop := A (.inst R.TH_FLOW_VAL.VALID f 0) ∧ A (.inst R.TH_FLOW_VAL.FLOW f 0)
theorem touchFlowValue_all (h : ∀ q, A q) {f : Nat} : touchFlowValue A f := ⟨h _, h _⟩
theorem flowValue_keeps {f : ℕ} {v : ℕ} (hA : touchFlowValue A f)  (h : Keeps A s t) : Keeps A s (State.flowValue t f v) := by
  unfold State.flowValue
  obtain ⟨_, _⟩ := hA
  repeat' (first
    | with_reducible assumption
    | intro y
    | (with_reducible refine put_keepsAt (by assumption) ?_)
    | (with_reducible refine put_keeps (by assumption) ?_)
    | with_reducible apply keeps_ite
    | split)

def touchExecFlowTimeout (A : Part → Prop) (f : Nat) : Prop := A (.inst R.TH_FLOW_VAL.VALID f 0) ∧ A (.inst R.TH_FLOW_VAL.FLOW f 0)
theorem touchExecFlowTimeout_all (h : ∀ q, A q) {f : Nat} : touchExecFlowTimeout A f := ⟨h _, h _⟩
theorem execFlowTimeout_next {f : ℕ} {ms : ℕ} (hA : touchExecFlowTimeout A f) : ∃ u, execFlowTimeout f ms s = .next u ∧ Keeps A s u := by
  unfold execFlowTimeout
  have h := Keeps.refl A s
  refine ⟨_, rfl, ?_⟩
  obtain ⟨_, _⟩ := hA
  repeat' (first
    | with_reducible assumption
    | intro y
    | (with_reducible refine put_keepsAt (by assumption) ?_)
    | (with_reducible refine put_keeps (by assumption) ?_)
    | with_reducible apply keeps_ite
    | split)

def touchExecFlowFault (A : Part → Prop) (k : Nat) : Prop := touchHeatFlow A k ∧ touchLog A ∧ A (.inst R.TH_CC_STAT.FLOW_SEEN k 0) ∧ A (.inst R.TH_CC_STAT.FLOW_FLT k 0) ∧ (∀ x0, touchZoneShut A x0)
theorem touchExecFlowFault_all (h : ∀ q, A q) {k : Nat} : touchExecFlowFault A k := ⟨touchHeatFlow_all h, touchLog_all h, h _, h _, fun _ => touchZoneShut_all h⟩
theorem execFlowFault_next {k : ℕ} {run : ℕ} {low : ℕ} (hA : touchExecFlowFault A k) : ∃ u, execFlowFault k run low s = .next u ∧ Keeps A s u := by
  unfold execFlowFault
  have h := Keeps.refl A s
  refine ⟨_, rfl, ?_⟩
  obtain ⟨_, _, _, _, _⟩ := hA
  repeat' (first
    | with_reducible assumption
    | intro y
    | (extract_lets +onlyGivenNames x; first | (refine cut (P := Keeps A s x) ?_ ?_; (on_goal 1 => (unfold x; clear x)); (on_goal 2 => (intro hx; first | clear_value x | skip))) | clear_value x | skip)
    | (with_reducible apply heatFlow_keeps (hA := by first | with_reducible assumption | with_reducible apply_assumption))
    | (with_reducible apply log_keeps (hA := by first | with_reducible assumption | with_reducible apply_assumption))
    | (with_reducible refine put_keepsAt (by assumption) ?_)
    | (with_reducible refine put_keeps (by assumption) ?_)
    | (with_reducible apply zoneShut_keeps (hA := by first | with_reducible assumption | with_reducible apply_assumption))
    | with_reducible apply keeps_ite
    | split
    | refine keeps_ite ?_ ?_)

def touchExecFlowRecovered (A : Part → Prop) (k : Nat) : Prop := touchLog A ∧ A (.inst R.TH_CC_STAT.FLOW_FLT k 0)
theorem touchExecFlowRecovered_all (h : ∀ q, A q) {k : Nat} : touchExecFlowRecovered A k := ⟨touchLog_all h, h _⟩
theorem execFlowRecovered_next {k : ℕ} {secs : ℕ} (hA : touchExecFlowRecovered A k) : ∃ u, execFlowRecovered k secs s = .next u ∧ Keeps A s u := by
  unfold execFlowRecovered
  have h := Keeps.refl A s
  refine ⟨_, rfl, ?_⟩
  obtain ⟨_, _⟩ := hA
  repeat' (first
    | with_reducible assumption
    | intro y
    | (with_reducible apply log_keeps (hA := by first | with_reducible assumption | with_reducible apply_assumption))
    | (with_reducible refine put_keepsAt (by assumption) ?_)
    | (with_reducible refine put_keeps (by assumption) ?_)
    | with_reducible apply keeps_ite
    | split)

def touchExecHeaterOn (A : Part → Prop) (k : Nat) : Prop := touchHeatSwitch A k
theorem touchExecHeaterOn_all (h : ∀ q, A q) {k : Nat} : touchExecHeaterOn A k := touchHeatSwitch_all h
theorem execHeaterOn_next {k : ℕ} (hA : touchExecHeaterOn A k) : ∃ u, execHeaterOn k s = .next u ∧ Keeps A s u := by
  unfold execHeaterOn
  have h := Keeps.refl A s
  refine ⟨_, rfl, ?_⟩
  unfold touchExecHeaterOn at hA
  repeat' (first
    | with_reducible assumption
    | intro y
    | (with_reducible apply heatSwitch_keeps (hA := by first | with_reducible assumption | with_reducible apply_assumption))
    | with_reducible apply keeps_ite
    | split)

def touchExecHeaterOff (A : Part → Prop) (k : Nat) : Prop := touchHeatSwitch A k ∧ touchHeatFlow A k
theorem touchExecHeaterOff_all (h : ∀ q, A q) {k : Nat} : touchExecHeaterOff A k := ⟨touchHeatSwitch_all h, touchHeatFlow_all h⟩
theorem execHeaterOff_next {k : ℕ} (hA : touchExecHeaterOff A k) : ∃ u, execHeaterOff k s = .next u ∧ Keeps A s u := by
  unfold execHeaterOff
  have h := Keeps.refl A s
  refine ⟨_, rfl, ?_⟩
  obtain ⟨_, _⟩ := hA
  repeat' (first
    | with_reducible assumption
    | intro y
    | (extract_lets +onlyGivenNames x; first | (refine cut (P := Keeps A s x) ?_ ?_; (on_goal 1 => (unfold x; clear x)); (on_goal 2 => (intro hx; first | clear_value x | skip))) | clear_value x | skip)
    | (with_reducible apply heatSwitch_keeps (hA := by first | with_reducible assumption | with_reducible apply_assumption))
    | (with_reducible apply heatFlow_keeps (hA := by first | with_reducible assumption | with_reducible apply_assumption))
    | with_reducible apply keeps_ite
    | split
    | refine keeps_ite ?_ ?_)

end Sys2Proof.Laws
end

