-- ==== Sys2Proof/Laws/KeepsPhase.lean ====
section
/-! SUPPORT. What the operations of Machine/Phase.lean leave alone: for each the parts it may change (`touch…`) and its lemma. -/

namespace Sys2Proof.Laws

open Sys2Proof.Machine

set_option linter.unusedTactic false
set_option linter.unreachableTactic false
set_option linter.unusedVariables false
set_option linter.tactic.unusedName false

variable {A : Part → Prop} {s t : State}

def touchDemTake (A : Part → Prop) (g : Nat) : Prop := A (.inst R.PE_GRP_DEM.DEM g 0)
theorem touchDemTake_all (h : ∀ q, A q) {g : Nat} : touchDemTake A g := h _
theorem demTake_keeps {g : ℕ} (hA : touchDemTake A g)  (h : Keeps A s t) : Keeps A s (State.demTake t g) := by
  unfold State.demTake
  unfold touchDemTake at hA
  repeat' (first
    | with_reducible assumption
    | intro y
    | (extract_lets +onlyGivenNames x; first | (refine cut (P := Keeps A s x) ?_ ?_; (on_goal 1 => (unfold x; clear x)); (on_goal 2 => (intro hx; first | clear_value x | skip))) | clear_value x | skip)
    | (with_reducible refine put_keepsAt (by assumption) ?_)
    | (with_reducible refine put_keeps (by assumption) ?_)
    | with_reducible apply keeps_ite
    | split
    | refine keeps_ite ?_ ?_)

def touchDemandOf (A : Part → Prop) : Prop := touchFree A
theorem touchDemandOf_all (h : ∀ q, A q) : touchDemandOf A := touchFree_all h
theorem demandOf_keeps {g : ℕ} (hA : touchDemandOf A)  (h : Keeps A s t) : Keeps A s (State.demandOf t g).2 := by
  unfold State.demandOf
  unfold touchDemandOf at hA
  repeat' (first
    | with_reducible assumption
    | intro y
    | (extract_lets +onlyGivenNames x; first | (refine cut (P := Keeps A s x) ?_ ?_; (on_goal 1 => (unfold x; clear x)); (on_goal 2 => (intro hx; first | clear_value x | skip))) | (refine cut (P := Keeps A s x.2) ?_ ?_; (on_goal 1 => (unfold x; clear x)); (on_goal 2 => (intro hx; first | clear_value x | skip))) | (refine cut (P := Keeps A s x.2.2) ?_ ?_; (on_goal 1 => (unfold x; clear x)); (on_goal 2 => (intro hx; first | clear_value x | skip))) | clear_value x | skip)
    | (with_reducible apply free_keeps (hA := by first | with_reducible assumption | with_reducible apply_assumption))
    | with_reducible apply keeps_ite
    | with_reducible apply keeps_ite2
    | with_reducible apply keeps_ite3
    | split
    | refine keeps_ite ?_ ?_)

def touchCeilings (A : Part → Prop) (g : Nat) : Prop := A (.inst R.PE_GRP_STAT.N_ACT g 0) ∧ A (.inst R.PE_GRP_CAP.CAP_SRC g 0) ∧ A (.inst R.PE_GRP_CAP.CAP g 0)
theorem touchCeilings_all (h : ∀ q, A q) {g : Nat} : touchCeilings A g := ⟨h _, h _, h _⟩
theorem ceilings_keeps {g : ℕ} (hA : touchCeilings A g)  (h : Keeps A s t) : Keeps A s (State.ceilings t g) := by
  unfold State.ceilings
  obtain ⟨_, _, _⟩ := hA
  repeat' (first
    | with_reducible assumption
    | intro y
    | (extract_lets +onlyGivenNames x; first | (refine cut (P := Keeps A s x) ?_ ?_; (on_goal 1 => (unfold x; clear x)); (on_goal 2 => (intro hx; first | clear_value x | skip))) | clear_value x | skip)
    | (with_reducible refine put_keepsAt (by assumption) ?_)
    | (with_reducible refine put_keeps (by assumption) ?_)
    | (with_reducible refine putMax_keepsAt (by assumption) ?_)
    | (with_reducible refine putMax_keeps (by assumption) ?_)
    | with_reducible apply keeps_ite
    | split
    | refine keeps_ite ?_ ?_)

def touchAfterChange (A : Part → Prop) : Prop := touchSetGrp A ∧ touchLog A ∧ A .tb
theorem touchAfterChange_all (h : ∀ q, A q) : touchAfterChange A := ⟨touchSetGrp_all h, touchLog_all h, h _⟩
theorem afterChange_keeps {g : ℕ} {oldCap : ℕ} (hA : touchAfterChange A)  (h : Keeps A s t) : Keeps A s (State.afterChange t g oldCap) := by
  unfold State.afterChange
  obtain ⟨_, _, _⟩ := hA
  repeat' (first
    | with_reducible assumption
    | intro y
    | (extract_lets +onlyGivenNames x; first | (refine cut (P := Keeps A s x) ?_ ?_; (on_goal 1 => (unfold x; clear x)); (on_goal 2 => (intro hx; first | clear_value x | skip))) | clear_value x | skip)
    | (with_reducible apply setGrp_keeps (hA := by first | with_reducible assumption | with_reducible apply_assumption))
    | (with_reducible apply log_keeps (hA := by first | with_reducible assumption | with_reducible apply_assumption))
    | with_reducible apply when_keeps
    | with_reducible apply keeps_ite
    | split
    | refine keeps_ite ?_ ?_
    | with_reducible exact keeps_tb (by assumption) (by assumption))

def touchZeroClear (A : Part → Prop) : Prop := touchSetPh A
theorem touchZeroClear_all (h : ∀ q, A q) : touchZeroClear A := touchSetPh_all h
theorem zeroClear_keeps {g : ℕ} (hA : touchZeroClear A)  (h : Keeps A s t) : Keeps A s (State.zeroClear t g) := by
  unfold State.zeroClear
  unfold touchZeroClear at hA
  repeat' (first
    | with_reducible assumption
    | intro y
    | (extract_lets +onlyGivenNames x; first | (refine cut (P := Keeps A s x) ?_ ?_; (on_goal 1 => (unfold x; clear x)); (on_goal 2 => (intro hx; first | clear_value x | skip))) | clear_value x | skip)
    | (with_reducible apply setPh_keeps (hA := by first | with_reducible assumption | with_reducible apply_assumption))
    | with_reducible apply keeps_ite
    | with_reducible apply keeps_foldl
    | split
    | refine keeps_ite ?_ ?_)

def touchThreshold (A : Part → Prop) (g : Nat) : Prop := touchDemandOf A ∧ touchSetGrp A ∧ touchZeroClear A ∧ touchChecksClear A ∧ A (.inst R.PE_GRP_STAT.LIMITING g 0) ∧ A (.inst R.PE_GRP_STAT.MODE g 0)
theorem touchThreshold_all (h : ∀ q, A q) {g : Nat} : touchThreshold A g := ⟨touchDemandOf_all h, touchSetGrp_all h, touchZeroClear_all h, touchChecksClear_all h, h _, h _⟩
theorem threshold_keeps {g : ℕ} (hA : touchThreshold A g)  (h : Keeps A s t) : Keeps A s (State.threshold t g) := by
  unfold State.threshold
  obtain ⟨_, _, _, _, _, _⟩ := hA
  repeat' (first
    | with_reducible assumption
    | intro y
    | (extract_lets +onlyGivenNames x; first | (refine cut (P := Keeps A s x) ?_ ?_; (on_goal 1 => (unfold x; clear x)); (on_goal 2 => (intro hx; first | clear_value x | skip))) | (refine cut (P := Keeps A s x.2) ?_ ?_; (on_goal 1 => (unfold x; clear x)); (on_goal 2 => (intro hx; first | clear_value x | skip))) | (refine cut (P := Keeps A s x.2.2) ?_ ?_; (on_goal 1 => (unfold x; clear x)); (on_goal 2 => (intro hx; first | clear_value x | skip))) | clear_value x | skip)
    | (with_reducible refine putb_keepsAt (by assumption) ?_)
    | (with_reducible refine putb_keeps (by assumption) ?_)
    | (with_reducible apply demandOf_keeps (hA := by first | with_reducible assumption | with_reducible apply_assumption))
    | (with_reducible apply setGrp_keeps (hA := by first | with_reducible assumption | with_reducible apply_assumption))
    | (with_reducible apply zeroClear_keeps (hA := by first | with_reducible assumption | with_reducible apply_assumption))
    | (with_reducible apply checksClear_keeps (hA := by first | with_reducible assumption | with_reducible apply_assumption))
    | with_reducible apply when_keeps
    | with_reducible apply keeps_ite
    | with_reducible apply keeps_ite2
    | with_reducible apply keeps_ite3
    | split
    | refine keeps_ite ?_ ?_)

def touchTruncReport (A : Part → Prop) : Prop := touchLog A ∧ touchSetGrp A
theorem touchTruncReport_all (h : ∀ q, A q) : touchTruncReport A := ⟨touchLog_all h, touchSetGrp_all h⟩
theorem truncReport_keeps {g : ℕ} (hA : touchTruncReport A)  (h : Keeps A s t) : Keeps A s (State.truncReport t g) := by
  unfold State.truncReport
  obtain ⟨_, _⟩ := hA
  repeat' (first
    | with_reducible assumption
    | intro y
    | (extract_lets +onlyGivenNames x; first | (refine cut (P := Keeps A s x) ?_ ?_; (on_goal 1 => (unfold x; clear x)); (on_goal 2 => (intro hx; first | clear_value x | skip))) | clear_value x | skip)
    | (with_reducible apply log_keeps (hA := by first | with_reducible assumption | with_reducible apply_assumption))
    | (with_reducible apply setGrp_keeps (hA := by first | with_reducible assumption | with_reducible apply_assumption))
    | with_reducible apply keeps_ite
    | split
    | refine keeps_ite ?_ ?_)

def touchExecGroupCarrierBoundary (A : Part → Prop) (g : Nat) : Prop := touchOfsSlew A g ∧ touchCeilings A g ∧ A (.inst R.PE_GRP_MEAS.V_GRP g 0) ∧ touchTruncReport A ∧ touchGroupFault A g ∧ touchDemTake A g ∧ touchAfterChange A ∧ touchThreshold A g
theorem touchExecGroupCarrierBoundary_all (h : ∀ q, A q) {g : Nat} : touchExecGroupCarrierBoundary A g := ⟨touchOfsSlew_all h, touchCeilings_all h, h _, touchTruncReport_all h, touchGroupFault_all h, touchDemTake_all h, touchAfterChange_all h, touchThreshold_all h⟩
theorem execGroupCarrierBoundary_next {g : ℕ} {v : ℕ} (hA : touchExecGroupCarrierBoundary A g) : ∃ u, execGroupCarrierBoundary g v s = .next u ∧ Keeps A s u := by
  unfold execGroupCarrierBoundary
  have h := Keeps.refl A s
  refine ⟨_, rfl, ?_⟩
  obtain ⟨_, _, _, _, _, _, _, _⟩ := hA
  repeat' (first
    | with_reducible assumption
    | intro y
    | (extract_lets +onlyGivenNames x; first | (refine cut (P := Keeps A s x) ?_ ?_; (on_goal 1 => (unfold x; clear x)); (on_goal 2 => (intro hx; first | clear_value x | skip))) | clear_value x | skip)
    | (with_reducible refine putMax_keepsAt (by assumption) ?_)
    | (with_reducible refine putMax_keeps (by assumption) ?_)
    | (with_reducible apply ofsSlew_keeps (hA := by first | with_reducible assumption | with_reducible apply_assumption))
    | (with_reducible apply ceilings_keeps (hA := by first | with_reducible assumption | with_reducible apply_assumption))
    | (with_reducible apply truncReport_keeps (hA := by first | with_reducible assumption | with_reducible apply_assumption))
    | (with_reducible apply groupFault_keeps (hA := by first | with_reducible assumption | with_reducible apply_assumption))
    | (with_reducible apply demTake_keeps (hA := by first | with_reducible assumption | with_reducible apply_assumption))
    | (with_reducible apply afterChange_keeps (hA := by first | with_reducible assumption | with_reducible apply_assumption))
    | (with_reducible apply threshold_keeps (hA := by first | with_reducible assumption | with_reducible apply_assumption))
    | with_reducible apply keeps_ite
    | split
    | refine keeps_ite ?_ ?_)

def touchGatesAfter (A : Part → Prop) : Prop := touchPhaseGatesLow A ∧ A .pins
theorem touchGatesAfter_all (h : ∀ q, A q) : touchGatesAfter A := ⟨touchPhaseGatesLow_all h, h _⟩
theorem gatesAfter_keeps {n : ℕ} (hA : touchGatesAfter A)  (h : Keeps A s t) : Keeps A s (State.gatesAfter t n) := by
  unfold State.gatesAfter
  obtain ⟨_, _⟩ := hA
  repeat' (first
    | with_reducible assumption
    | intro y
    | (extract_lets +onlyGivenNames x; first | (refine cut (P := Keeps A s x) ?_ ?_; (on_goal 1 => (unfold x; clear x)); (on_goal 2 => (intro hx; first | clear_value x | skip))) | clear_value x | skip)
    | (with_reducible apply phaseGatesLow_keeps (hA := by first | with_reducible assumption | with_reducible apply_assumption))
    | with_reducible apply keeps_ite
    | split
    | refine keeps_ite ?_ ?_
    | with_reducible exact keeps_pins (by assumption) (by assumption))

def touchCarrierCode (A : Part → Prop) : Prop := touchFree A
theorem touchCarrierCode_all (h : ∀ q, A q) : touchCarrierCode A := touchFree_all h
theorem carrierCode_keeps {n : ℕ} {o : Sys2Proof.CarrierObs} (hA : touchCarrierCode A)  (h : Keeps A s t) : Keeps A s (State.carrierCode t n o).2.2 := by
  unfold State.carrierCode
  unfold touchCarrierCode at hA
  repeat' (first
    | with_reducible assumption
    | intro y
    | (extract_lets +onlyGivenNames x; first | (refine cut (P := Keeps A s x) ?_ ?_; (on_goal 1 => (unfold x; clear x)); (on_goal 2 => (intro hx; first | clear_value x | skip))) | (refine cut (P := Keeps A s x.2) ?_ ?_; (on_goal 1 => (unfold x; clear x)); (on_goal 2 => (intro hx; first | clear_value x | skip))) | (refine cut (P := Keeps A s x.2.2) ?_ ?_; (on_goal 1 => (unfold x; clear x)); (on_goal 2 => (intro hx; first | clear_value x | skip))) | clear_value x | skip)
    | (with_reducible apply free_keeps (hA := by first | with_reducible assumption | with_reducible apply_assumption))
    | with_reducible apply keeps_ite
    | with_reducible apply keeps_ite2
    | with_reducible apply keeps_ite3
    | split
    | refine keeps_ite ?_ ?_)

def touchExecCarrierStart (A : Part → Prop) (n : Nat) : Prop := touchCarrierCode A ∧ touchGatesAfter A ∧ A (.inst R.PE_PH_STAT.I_AVG n 0) ∧ A (.inst R.PE_PH_MEAS.TH n 0) ∧ touchSetPh A ∧ A (.inst R.PE_PH_MEAS.TON n 0) ∧ touchPhSlew A n ∧ A (.inst R.PE_PH_CNT.TRUNC n 0)
theorem touchExecCarrierStart_all (h : ∀ q, A q) {n : Nat} : touchExecCarrierStart A n := ⟨touchCarrierCode_all h, touchGatesAfter_all h, h _, h _, touchSetPh_all h, h _, touchPhSlew_all h, h _⟩
theorem execCarrierStart_next {n : ℕ} {o : Sys2Proof.CarrierObs} (hA : touchExecCarrierStart A n) : ∃ u, execCarrierStart n o s = .next u ∧ Keeps A s u := by
  unfold execCarrierStart
  have h := Keeps.refl A s
  refine ⟨_, rfl, ?_⟩
  obtain ⟨_, _, _, _, _, _, _, _⟩ := hA
  repeat' (first
    | with_reducible assumption
    | intro y
    | (extract_lets +onlyGivenNames x; first | (refine cut (P := Keeps A s x) ?_ ?_; (on_goal 1 => (unfold x; clear x)); (on_goal 2 => (intro hx; first | clear_value x | skip))) | (refine cut (P := Keeps A s x.2) ?_ ?_; (on_goal 1 => (unfold x; clear x)); (on_goal 2 => (intro hx; first | clear_value x | skip))) | (refine cut (P := Keeps A s x.2.2) ?_ ?_; (on_goal 1 => (unfold x; clear x)); (on_goal 2 => (intro hx; first | clear_value x | skip))) | clear_value x | skip)
    | (with_reducible refine put_keepsAt (by assumption) ?_)
    | (with_reducible refine put_keeps (by assumption) ?_)
    | (with_reducible refine putSat_keepsAt (by assumption) ?_)
    | (with_reducible refine putSat_keeps (by assumption) ?_)
    | (with_reducible refine putMax_keepsAt (by assumption) ?_)
    | (with_reducible refine putMax_keeps (by assumption) ?_)
    | (with_reducible refine inc_keepsAt (by assumption) ?_)
    | (with_reducible refine inc_keeps (by assumption) ?_)
    | (with_reducible apply carrierCode_keeps (hA := by first | with_reducible assumption | with_reducible apply_assumption))
    | (with_reducible apply gatesAfter_keeps (hA := by first | with_reducible assumption | with_reducible apply_assumption))
    | (with_reducible apply setPh_keeps (hA := by first | with_reducible assumption | with_reducible apply_assumption))
    | (with_reducible apply phSlew_keeps (hA := by first | with_reducible assumption | with_reducible apply_assumption))
    | with_reducible apply when_keeps
    | with_reducible apply keeps_ite
    | with_reducible apply keeps_ite2
    | with_reducible apply keeps_ite3
    | split
    | refine keeps_ite ?_ ?_)

def touchExecHalfCycleBoundary (A : Part → Prop) : Prop := A (.reg R.PE_GRP_LEASE.EXP_HC) ∧ touchHalfCycleAges A ∧ touchSlSync A ∧ A .sl
theorem touchExecHalfCycleBoundary_all (h : ∀ q, A q) : touchExecHalfCycleBoundary A := ⟨h _, touchHalfCycleAges_all h, touchSlSync_all h, h _⟩
theorem execHalfCycleBoundary_next  (hA : touchExecHalfCycleBoundary A) : ∃ u, execHalfCycleBoundary s = .next u ∧ Keeps A s u := by
  unfold execHalfCycleBoundary
  have h := Keeps.refl A s
  refine ⟨_, rfl, ?_⟩
  obtain ⟨_, _, _, _⟩ := hA
  repeat' (first
    | with_reducible assumption
    | intro y
    | (extract_lets +onlyGivenNames x; first | (refine cut (P := Keeps A s x) ?_ ?_; (on_goal 1 => (unfold x; clear x)); (on_goal 2 => (intro hx; first | clear_value x | skip))) | clear_value x | skip)
    | (with_reducible refine put_keepsAt (by assumption) ?_)
    | (with_reducible refine put_keeps (by assumption) ?_)
    | (with_reducible apply halfCycleAges_keeps (hA := by first | with_reducible assumption | with_reducible apply_assumption))
    | (with_reducible apply slSync_keeps (hA := by first | with_reducible assumption | with_reducible apply_assumption))
    | with_reducible apply each_keeps
    | with_reducible apply keeps_ite
    | split
    | refine keeps_ite ?_ ?_
    | with_reducible exact keeps_sl (by assumption) (by assumption))

def touchExecLeaseLapse (A : Part → Prop) (g : Nat) : Prop := touchLog A ∧ touchSlSync A ∧ A (.inst R.PE_GRP_LEASE.LAPSED g 0)
theorem touchExecLeaseLapse_all (h : ∀ q, A q) {g : Nat} : touchExecLeaseLapse A g := ⟨touchLog_all h, touchSlSync_all h, h _⟩
theorem execLeaseLapse_next {g : ℕ} (hA : touchExecLeaseLapse A g) : ∃ u, execLeaseLapse g s = .next u ∧ Keeps A s u := by
  unfold execLeaseLapse
  have h := Keeps.refl A s
  refine ⟨_, rfl, ?_⟩
  obtain ⟨_, _, _⟩ := hA
  repeat' (first
    | with_reducible assumption
    | intro y
    | (with_reducible apply log_keeps (hA := by first | with_reducible assumption | with_reducible apply_assumption))
    | (with_reducible apply slSync_keeps (hA := by first | with_reducible assumption | with_reducible apply_assumption))
    | (with_reducible refine put_keepsAt (by assumption) ?_)
    | (with_reducible refine put_keeps (by assumption) ?_)
    | with_reducible apply keeps_ite
    | split)

def touchBrake (A : Part → Prop) (g : Nat) : Prop := A (.inst R.PE_GRP_CNT.BRAKE g 0) ∧ A (.inst R.PE_GRP_STAT.BRK_SEEN g 0) ∧ A (.inst R.PE_GRP_STAT.OVS_STATE g 0) ∧ touchGroupGatesLow A ∧ touchChecksClear A
theorem touchBrake_all (h : ∀ q, A q) {g : Nat} : touchBrake A g := ⟨h _, h _, h _, touchGroupGatesLow_all h, touchChecksClear_all h⟩
theorem brake_keeps {g : ℕ} (hA : touchBrake A g)  (h : Keeps A s t) : Keeps A s (State.brake t g) := by
  unfold State.brake
  obtain ⟨_, _, _, _, _⟩ := hA
  repeat' (first
    | with_reducible assumption
    | intro y
    | (extract_lets +onlyGivenNames x; first | (refine cut (P := Keeps A s x) ?_ ?_; (on_goal 1 => (unfold x; clear x)); (on_goal 2 => (intro hx; first | clear_value x | skip))) | clear_value x | skip)
    | (with_reducible refine put_keepsAt (by assumption) ?_)
    | (with_reducible refine put_keeps (by assumption) ?_)
    | (with_reducible refine inc_keepsAt (by assumption) ?_)
    | (with_reducible refine inc_keeps (by assumption) ?_)
    | (with_reducible apply groupGatesLow_keeps (hA := by first | with_reducible assumption | with_reducible apply_assumption))
    | (with_reducible apply checksClear_keeps (hA := by first | with_reducible assumption | with_reducible apply_assumption))
    | with_reducible apply keeps_ite
    | split
    | refine keeps_ite ?_ ?_)

def touchExecOvershootTruncate (A : Part → Prop) (g : Nat) : Prop := A (.inst R.PE_GRP_CNT.TRUNC g 0) ∧ A (.inst R.PE_GRP_STAT.TRUNC_SEEN g 0) ∧ A (.inst R.PE_GRP_STAT.OVS_STATE g 0) ∧ touchTruncReport A ∧ touchChecksClear A ∧ touchSetGrp A
theorem touchExecOvershootTruncate_all (h : ∀ q, A q) {g : Nat} : touchExecOvershootTruncate A g := ⟨h _, h _, h _, touchTruncReport_all h, touchChecksClear_all h, touchSetGrp_all h⟩
theorem execOvershootTruncate_next {g : ℕ} {gvs : ℕ} {pulses : ℕ} (hA : touchExecOvershootTruncate A g) : ∃ u, execOvershootTruncate g gvs pulses s = .next u ∧ Keeps A s u := by
  unfold execOvershootTruncate
  have h := Keeps.refl A s
  refine ⟨_, rfl, ?_⟩
  obtain ⟨_, _, _, _, _, _⟩ := hA
  repeat' (first
    | with_reducible assumption
    | intro y
    | (extract_lets +onlyGivenNames x; first | (refine cut (P := Keeps A s x) ?_ ?_; (on_goal 1 => (unfold x; clear x)); (on_goal 2 => (intro hx; first | clear_value x | skip))) | clear_value x | skip)
    | (with_reducible refine put_keepsAt (by assumption) ?_)
    | (with_reducible refine put_keeps (by assumption) ?_)
    | (with_reducible refine inc_keepsAt (by assumption) ?_)
    | (with_reducible refine inc_keeps (by assumption) ?_)
    | (with_reducible apply truncReport_keeps (hA := by first | with_reducible assumption | with_reducible apply_assumption))
    | (with_reducible apply checksClear_keeps (hA := by first | with_reducible assumption | with_reducible apply_assumption))
    | (with_reducible apply setGrp_keeps (hA := by first | with_reducible assumption | with_reducible apply_assumption))
    | with_reducible apply keeps_ite
    | split
    | refine keeps_ite ?_ ?_)

def touchExecOvershootBrake (A : Part → Prop) (g : Nat) : Prop := touchBrake A g ∧ touchLog A
theorem touchExecOvershootBrake_all (h : ∀ q, A q) {g : Nat} : touchExecOvershootBrake A g := ⟨touchBrake_all h, touchLog_all h⟩
theorem execOvershootBrake_next {g : ℕ} {gvs : ℕ} (hA : touchExecOvershootBrake A g) : ∃ u, execOvershootBrake g gvs s = .next u ∧ Keeps A s u := by
  unfold execOvershootBrake
  have h := Keeps.refl A s
  refine ⟨_, rfl, ?_⟩
  obtain ⟨_, _⟩ := hA
  repeat' (first
    | with_reducible assumption
    | intro y
    | (with_reducible apply brake_keeps (hA := by first | with_reducible assumption | with_reducible apply_assumption))
    | (with_reducible apply log_keeps (hA := by first | with_reducible assumption | with_reducible apply_assumption))
    | with_reducible apply keeps_ite
    | split)

def touchExecTruncateTimeout (A : Part → Prop) (g : Nat) : Prop := touchLog A ∧ touchBrake A g
theorem touchExecTruncateTimeout_all (h : ∀ q, A q) {g : Nat} : touchExecTruncateTimeout A g := ⟨touchLog_all h, touchBrake_all h⟩
theorem execTruncateTimeout_next {g : ℕ} {periods : ℕ} (hA : touchExecTruncateTimeout A g) : ∃ u, execTruncateTimeout g periods s = .next u ∧ Keeps A s u := by
  unfold execTruncateTimeout
  have h := Keeps.refl A s
  refine ⟨_, rfl, ?_⟩
  obtain ⟨_, _⟩ := hA
  repeat' (first
    | with_reducible assumption
    | intro y
    | (with_reducible apply log_keeps (hA := by first | with_reducible assumption | with_reducible apply_assumption))
    | (with_reducible apply brake_keeps (hA := by first | with_reducible assumption | with_reducible apply_assumption))
    | with_reducible apply keeps_ite
    | split)

def touchExecTruncateRelease (A : Part → Prop) (g : Nat) : Prop := touchLog A ∧ touchBrake A g ∧ A (.inst R.PE_GRP_STAT.OVS_STATE g 0)
theorem touchExecTruncateRelease_all (h : ∀ q, A q) {g : Nat} : touchExecTruncateRelease A g := ⟨touchLog_all h, touchBrake_all h, h _⟩
theorem execTruncateRelease_next {g : ℕ} {gvs : ℕ} (hA : touchExecTruncateRelease A g) : ∃ u, execTruncateRelease g gvs s = .next u ∧ Keeps A s u := by
  unfold execTruncateRelease
  have h := Keeps.refl A s
  refine ⟨_, rfl, ?_⟩
  obtain ⟨_, _, _⟩ := hA
  repeat' (first
    | with_reducible assumption
    | intro y
    | (extract_lets +onlyGivenNames x; first | (refine cut (P := Keeps A s x) ?_ ?_; (on_goal 1 => (unfold x; clear x)); (on_goal 2 => (intro hx; first | clear_value x | skip))) | clear_value x | skip)
    | (with_reducible refine put_keepsAt (by assumption) ?_)
    | (with_reducible refine put_keeps (by assumption) ?_)
    | (with_reducible apply log_keeps (hA := by first | with_reducible assumption | with_reducible apply_assumption))
    | (with_reducible apply brake_keeps (hA := by first | with_reducible assumption | with_reducible apply_assumption))
    | with_reducible apply keeps_ite
    | split
    | refine keeps_ite ?_ ?_)

def touchExecBrakeRelease (A : Part → Prop) (g : Nat) : Prop := A (.inst R.PE_GRP_STAT.OVS_STATE g 0)
theorem touchExecBrakeRelease_all (h : ∀ q, A q) {g : Nat} : touchExecBrakeRelease A g := h _
theorem execBrakeRelease_next {g : ℕ} {gvs : ℕ} (hA : touchExecBrakeRelease A g) : ∃ u, execBrakeRelease g gvs s = .next u ∧ Keeps A s u := by
  unfold execBrakeRelease
  have h := Keeps.refl A s
  refine ⟨_, rfl, ?_⟩
  unfold touchExecBrakeRelease at hA
  repeat' (first
    | with_reducible assumption
    | intro y
    | (with_reducible refine put_keepsAt (by assumption) ?_)
    | (with_reducible refine put_keeps (by assumption) ?_)
    | with_reducible apply keeps_ite
    | split)

def touchExecBrakingTimeout (A : Part → Prop) (g : Nat) : Prop := touchGroupFault A g
theorem touchExecBrakingTimeout_all (h : ∀ q, A q) {g : Nat} : touchExecBrakingTimeout A g := touchGroupFault_all h
theorem execBrakingTimeout_next {g : ℕ} {hc : ℕ} (hA : touchExecBrakingTimeout A g) : ∃ u, execBrakingTimeout g hc s = .next u ∧ Keeps A s u := by
  unfold execBrakingTimeout
  have h := Keeps.refl A s
  refine ⟨_, rfl, ?_⟩
  unfold touchExecBrakingTimeout at hA
  repeat' (first
    | with_reducible assumption
    | intro y
    | (with_reducible apply groupFault_keeps (hA := by first | with_reducible assumption | with_reducible apply_assumption))
    | with_reducible apply keeps_ite
    | split)

def touchExecPhaseCheckFail (A : Part → Prop) (n : Nat) : Prop := touchPhaseTrip A n ∧ touchLog A ∧ A (.inst R.PE_PH_STAT.FLT_CODE n 0)
theorem touchExecPhaseCheckFail_all (h : ∀ q, A q) {n : Nat} : touchExecPhaseCheckFail A n := ⟨touchPhaseTrip_all h, touchLog_all h, h _⟩
theorem execPhaseCheckFail_next {n : ℕ} (hA : touchExecPhaseCheckFail A n) : ∃ u, execPhaseCheckFail n s = .next u ∧ Keeps A s u := by
  unfold execPhaseCheckFail
  have h := Keeps.refl A s
  refine ⟨_, rfl, ?_⟩
  obtain ⟨_, _, _⟩ := hA
  repeat' (first
    | with_reducible assumption
    | intro y
    | (extract_lets +onlyGivenNames x; first | (refine cut (P := Keeps A s x) ?_ ?_; (on_goal 1 => (unfold x; clear x)); (on_goal 2 => (intro hx; first | clear_value x | skip))) | clear_value x | skip)
    | (with_reducible refine put_keepsAt (by assumption) ?_)
    | (with_reducible refine put_keeps (by assumption) ?_)
    | (with_reducible apply phaseTrip_keeps (hA := by first | with_reducible assumption | with_reducible apply_assumption))
    | (with_reducible apply log_keeps (hA := by first | with_reducible assumption | with_reducible apply_assumption))
    | with_reducible apply keeps_ite
    | split
    | refine keeps_ite ?_ ?_)

def touchExecDriverFault (A : Part → Prop) (n : Nat) : Prop := touchPhaseTrip A n ∧ touchLog A ∧ A (.inst R.PE_PH_STAT.FLT_IN n 0) ∧ (∀ x0, touchGroupFault A x0) ∧ touchReqSafeOff A ∧ A (.inst R.PE_PH_STAT.FLT_CODE n 0)
theorem touchExecDriverFault_all (h : ∀ q, A q) {n : Nat} : touchExecDriverFault A n := ⟨touchPhaseTrip_all h, touchLog_all h, h _, (fun _ => touchGroupFault_all h), touchReqSafeOff_all h, h _⟩
theorem execDriverFault_next {n : ℕ} {low : ℕ} (hA : touchExecDriverFault A n) : ∃ u, execDriverFault n low s = .next u ∧ Keeps A s u := by
  unfold execDriverFault
  have h := Keeps.refl A s
  refine ⟨_, rfl, ?_⟩
  obtain ⟨_, _, _, _, _, _⟩ := hA
  repeat' (first
    | with_reducible assumption
    | intro y
    | (extract_lets +onlyGivenNames x; first | (refine cut (P := Keeps A s x) ?_ ?_; (on_goal 1 => (unfold x; clear x)); (on_goal 2 => (intro hx; first | clear_value x | skip))) | clear_value x | skip)
    | (with_reducible refine put_keepsAt (by assumption) ?_)
    | (with_reducible refine put_keeps (by assumption) ?_)
    | (with_reducible apply phaseTrip_keeps (hA := by first | with_reducible assumption | with_reducible apply_assumption))
    | (with_reducible apply log_keeps (hA := by first | with_reducible assumption | with_reducible apply_assumption))
    | (with_reducible apply groupFault_keeps (hA := by first | with_reducible assumption | with_reducible apply_assumption))
    | (with_reducible apply reqSafeOff_keeps (hA := by first | with_reducible assumption | with_reducible apply_assumption))
    | with_reducible apply keeps_ite
    | split
    | refine keeps_ite ?_ ?_)

def touchExecPhaseImbalance (A : Part → Prop) : Prop := touchLog A
theorem touchExecPhaseImbalance_all (h : ∀ q, A q) : touchExecPhaseImbalance A := touchLog_all h
theorem execPhaseImbalance_next {n : ℕ} {diff : ℤ} (hA : touchExecPhaseImbalance A) : ∃ u, execPhaseImbalance n diff s = .next u ∧ Keeps A s u := by
  unfold execPhaseImbalance
  have h := Keeps.refl A s
  refine ⟨_, rfl, ?_⟩
  unfold touchExecPhaseImbalance at hA
  repeat' (first
    | with_reducible assumption
    | intro y
    | (extract_lets +onlyGivenNames x; first | (refine cut (P := Keeps A s x) ?_ ?_; (on_goal 1 => (unfold x; clear x)); (on_goal 2 => (intro hx; first | clear_value x | skip))) | clear_value x | skip)
    | (with_reducible apply log_keeps (hA := by first | with_reducible assumption | with_reducible apply_assumption))
    | with_reducible apply keeps_ite
    | split
    | refine keeps_ite ?_ ?_)

def touchPhaseEnable (A : Part → Prop) (n : Nat) : Prop := A (.inst R.PE_PH_STAT.FLT_IN n 0) ∧ A (.inst R.PE_PH_CFG.EN n 0) ∧ touchLog A ∧ touchPhaseTrip A n ∧ A (.inst R.PE_PH_STAT.FLT_CODE n 0) ∧ touchPhaseState A n ∧ (∀ x0, touchGroupCfg A x0)
theorem touchPhaseEnable_all (h : ∀ q, A q) {n : Nat} : touchPhaseEnable A n := ⟨h _, h _, touchLog_all h, touchPhaseTrip_all h, h _, touchPhaseState_all h, fun _ => touchGroupCfg_all h⟩
theorem phaseEnable_keeps {n : ℕ} {fltLow : Bool} (hA : touchPhaseEnable A n)  (h : Keeps A s t) : Keeps A s (State.phaseEnable t n fltLow) := by
  unfold State.phaseEnable
  obtain ⟨_, _, _, _, _, _, _⟩ := hA
  repeat' (first
    | with_reducible assumption
    | intro y
    | (extract_lets +onlyGivenNames x; first | (refine cut (P := Keeps A s x) ?_ ?_; (on_goal 1 => (unfold x; clear x)); (on_goal 2 => (intro hx; first | clear_value x | skip))) | clear_value x | skip)
    | (with_reducible refine putb_keepsAt (by assumption) ?_)
    | (with_reducible refine putb_keeps (by assumption) ?_)
    | (with_reducible refine put_keepsAt (by assumption) ?_)
    | (with_reducible refine put_keeps (by assumption) ?_)
    | (with_reducible apply log_keeps (hA := by first | with_reducible assumption | with_reducible apply_assumption))
    | (with_reducible apply phaseTrip_keeps (hA := by first | with_reducible assumption | with_reducible apply_assumption))
    | (with_reducible apply phaseState_keeps (hA := by first | with_reducible assumption | with_reducible apply_assumption))
    | (with_reducible apply groupCfg_keeps (hA := by first | with_reducible assumption | with_reducible apply_assumption))
    | with_reducible apply keeps_ite
    | split
    | refine keeps_ite ?_ ?_)

def touchExecPhaseEnable (A : Part → Prop) (n : Nat) : Prop := touchGuarded A ∧ touchPhaseEnable A n
theorem touchExecPhaseEnable_all (h : ∀ q, A q) {n : Nat} : touchExecPhaseEnable A n := ⟨touchGuarded_all h, touchPhaseEnable_all h⟩
theorem execPhaseEnable_next {sess : ℕ} {n : ℕ} {fltLow : Bool} (hA : touchExecPhaseEnable A n) : ∃ u, execPhaseEnable sess n fltLow s = .next u ∧ Keeps A s u := by
  unfold execPhaseEnable
  have h := Keeps.refl A s
  refine ⟨_, rfl, ?_⟩
  obtain ⟨_, _⟩ := hA
  repeat' (first
    | with_reducible assumption
    | intro y
    | (with_reducible apply guarded_keeps (hA := by first | with_reducible assumption | with_reducible apply_assumption))
    | (with_reducible apply phaseEnable_keeps (hA := by first | with_reducible assumption | with_reducible apply_assumption))
    | with_reducible apply keeps_ite
    | split)

def touchPhaseDisable (A : Part → Prop) (n : Nat) : Prop := (∀ x0, touchGroupCfg A x0) ∧ touchPhaseOff A n ∧ touchGroupChanged A
theorem touchPhaseDisable_all (h : ∀ q, A q) {n : Nat} : touchPhaseDisable A n := ⟨fun _ => touchGroupCfg_all h, touchPhaseOff_all h, touchGroupChanged_all h⟩
theorem phaseDisable_keeps {n : ℕ} (hA : touchPhaseDisable A n)  (h : Keeps A s t) : Keeps A s (State.phaseDisable t n) := by
  unfold State.phaseDisable
  obtain ⟨_, _, _⟩ := hA
  repeat' (first
    | with_reducible assumption
    | intro y
    | (extract_lets +onlyGivenNames x; first | (refine cut (P := Keeps A s x) ?_ ?_; (on_goal 1 => (unfold x; clear x)); (on_goal 2 => (intro hx; first | clear_value x | skip))) | clear_value x | skip)
    | (with_reducible apply groupCfg_keeps (hA := by first | with_reducible assumption | with_reducible apply_assumption))
    | with_reducible apply when_keeps
    | (with_reducible apply phaseOff_keeps (hA := by first | with_reducible assumption | with_reducible apply_assumption))
    | (with_reducible apply groupChanged_keeps (hA := by first | with_reducible assumption | with_reducible apply_assumption))
    | with_reducible apply keeps_ite
    | split
    | refine keeps_ite ?_ ?_)

def touchExecPhaseDisable (A : Part → Prop) (n : Nat) : Prop := touchGuarded A ∧ touchPhaseDisable A n
theorem touchExecPhaseDisable_all (h : ∀ q, A q) {n : Nat} : touchExecPhaseDisable A n := ⟨touchGuarded_all h, touchPhaseDisable_all h⟩
theorem execPhaseDisable_next {sess : ℕ} {n : ℕ} (hA : touchExecPhaseDisable A n) : ∃ u, execPhaseDisable sess n s = .next u ∧ Keeps A s u := by
  unfold execPhaseDisable
  have h := Keeps.refl A s
  refine ⟨_, rfl, ?_⟩
  obtain ⟨_, _⟩ := hA
  repeat' (first
    | with_reducible assumption
    | intro y
    | (with_reducible apply guarded_keeps (hA := by first | with_reducible assumption | with_reducible apply_assumption))
    | (with_reducible apply phaseDisable_keeps (hA := by first | with_reducible assumption | with_reducible apply_assumption))
    | with_reducible apply keeps_ite
    | split)

def touchPhaseActive (A : Part → Prop) (n : Nat) : Prop := touchPhaseState A n ∧ touchSetPh A
theorem touchPhaseActive_all (h : ∀ q, A q) {n : Nat} : touchPhaseActive A n := ⟨touchPhaseState_all h, touchSetPh_all h⟩
theorem phaseActive_keeps {n : ℕ} (hA : touchPhaseActive A n)  (h : Keeps A s t) : Keeps A s (State.phaseActive t n) := by
  unfold State.phaseActive
  obtain ⟨_, _⟩ := hA
  repeat' (first
    | with_reducible assumption
    | intro y
    | (extract_lets +onlyGivenNames x; first | (refine cut (P := Keeps A s x) ?_ ?_; (on_goal 1 => (unfold x; clear x)); (on_goal 2 => (intro hx; first | clear_value x | skip))) | clear_value x | skip)
    | (with_reducible apply phaseState_keeps (hA := by first | with_reducible assumption | with_reducible apply_assumption))
    | (with_reducible apply setPh_keeps (hA := by first | with_reducible assumption | with_reducible apply_assumption))
    | with_reducible apply keeps_ite
    | split
    | refine keeps_ite ?_ ?_)

def touchExecPhaseJoin (A : Part → Prop) (n : Nat) : Prop := touchGroupChanged A ∧ touchPhaseActive A n
theorem touchExecPhaseJoin_all (h : ∀ q, A q) {n : Nat} : touchExecPhaseJoin A n := ⟨touchGroupChanged_all h, touchPhaseActive_all h⟩
theorem execPhaseJoin_next {n : ℕ} (hA : touchExecPhaseJoin A n) : ∃ u, execPhaseJoin n s = .next u ∧ Keeps A s u := by
  unfold execPhaseJoin
  have h := Keeps.refl A s
  refine ⟨_, rfl, ?_⟩
  obtain ⟨_, _⟩ := hA
  repeat' (first
    | with_reducible assumption
    | intro y
    | (extract_lets +onlyGivenNames x; first | (refine cut (P := Keeps A s x) ?_ ?_; (on_goal 1 => (unfold x; clear x)); (on_goal 2 => (intro hx; first | clear_value x | skip))) | clear_value x | skip)
    | (with_reducible apply groupChanged_keeps (hA := by first | with_reducible assumption | with_reducible apply_assumption))
    | (with_reducible apply phaseActive_keeps (hA := by first | with_reducible assumption | with_reducible apply_assumption))
    | with_reducible apply keeps_ite
    | split
    | refine keeps_ite ?_ ?_)

def touchGroupEnable (A : Part → Prop) (g : Nat) : Prop := A (.inst R.PE_GRP_CTRL.EN g 0) ∧ A (.inst R.PE_GRP_STAT.START_BLK g 0)
theorem touchGroupEnable_all (h : ∀ q, A q) {g : Nat} : touchGroupEnable A g := ⟨h _, h _⟩
theorem groupEnable_keeps {g : ℕ} (hA : touchGroupEnable A g)  (h : Keeps A s t) : Keeps A s (State.groupEnable t g) := by
  unfold State.groupEnable
  obtain ⟨_, _⟩ := hA
  repeat' (first
    | with_reducible assumption
    | intro y
    | (extract_lets +onlyGivenNames x; first | (refine cut (P := Keeps A s x) ?_ ?_; (on_goal 1 => (unfold x; clear x)); (on_goal 2 => (intro hx; first | clear_value x | skip))) | clear_value x | skip)
    | (with_reducible refine put_keepsAt (by assumption) ?_)
    | (with_reducible refine put_keeps (by assumption) ?_)
    | (with_reducible refine putb_keepsAt (by assumption) ?_)
    | (with_reducible refine putb_keeps (by assumption) ?_)
    | with_reducible apply keeps_ite
    | split
    | refine keeps_ite ?_ ?_)

def touchExecGroupEnable (A : Part → Prop) (g : Nat) : Prop := touchGuarded A ∧ touchGroupEnable A g
theorem touchExecGroupEnable_all (h : ∀ q, A q) {g : Nat} : touchExecGroupEnable A g := ⟨touchGuarded_all h, touchGroupEnable_all h⟩
theorem execGroupEnable_next {sess : ℕ} {g : ℕ} (hA : touchExecGroupEnable A g) : ∃ u, execGroupEnable sess g s = .next u ∧ Keeps A s u := by
  unfold execGroupEnable
  have h := Keeps.refl A s
  refine ⟨_, rfl, ?_⟩
  obtain ⟨_, _⟩ := hA
  repeat' (first
    | with_reducible assumption
    | intro y
    | (with_reducible apply guarded_keeps (hA := by first | with_reducible assumption | with_reducible apply_assumption))
    | (with_reducible apply groupEnable_keeps (hA := by first | with_reducible assumption | with_reducible apply_assumption))
    | with_reducible apply keeps_ite
    | split)

def touchExecGroupStart (A : Part → Prop) (g : Nat) : Prop := (∀ x0, touchPhaseActive A x0) ∧ A (.inst R.PE_GRP_STAT.FLT_CAUSE g 0) ∧ A (.inst R.PE_GRP_STAT.N_ACT g 0) ∧ touchGroupState A g ∧ touchSetGrp A ∧ touchLog A ∧ touchGroupCfg A g ∧ A (.inst R.PE_GRP_STAT.START_BLK g 0)
theorem touchExecGroupStart_all (h : ∀ q, A q) {g : Nat} : touchExecGroupStart A g := ⟨(fun _ => touchPhaseActive_all h), h _, h _, touchGroupState_all h, touchSetGrp_all h, touchLog_all h, touchGroupCfg_all h, h _⟩
theorem execGroupStart_next {g : ℕ} (hA : touchExecGroupStart A g) : ∃ u, execGroupStart g s = .next u ∧ Keeps A s u := by
  unfold execGroupStart
  have h := Keeps.refl A s
  refine ⟨_, rfl, ?_⟩
  obtain ⟨_, _, _, _, _, _, _, _⟩ := hA
  repeat' (first
    | with_reducible assumption
    | intro y
    | (extract_lets +onlyGivenNames x; first | (refine cut (P := Keeps A s x) ?_ ?_; (on_goal 1 => (unfold x; clear x)); (on_goal 2 => (intro hx; first | clear_value x | skip))) | clear_value x | skip)
    | (with_reducible refine put_keepsAt (by assumption) ?_)
    | (with_reducible refine put_keeps (by assumption) ?_)
    | (with_reducible apply phaseActive_keeps (hA := by first | with_reducible assumption | with_reducible apply_assumption))
    | (with_reducible apply groupState_keeps (hA := by first | with_reducible assumption | with_reducible apply_assumption))
    | (with_reducible apply setGrp_keeps (hA := by first | with_reducible assumption | with_reducible apply_assumption))
    | (with_reducible apply log_keeps (hA := by first | with_reducible assumption | with_reducible apply_assumption))
    | (with_reducible apply groupCfg_keeps (hA := by first | with_reducible assumption | with_reducible apply_assumption))
    | with_reducible apply keeps_ite
    | with_reducible apply keeps_foldl
    | split
    | refine keeps_ite ?_ ?_)

def touchGroupRampdown (A : Part → Prop) (g : Nat) : Prop := touchGroupState A g ∧ touchSetGrp A
theorem touchGroupRampdown_all (h : ∀ q, A q) {g : Nat} : touchGroupRampdown A g := ⟨touchGroupState_all h, touchSetGrp_all h⟩
theorem groupRampdown_keeps {g : ℕ} (hA : touchGroupRampdown A g)  (h : Keeps A s t) : Keeps A s (State.groupRampdown t g) := by
  unfold State.groupRampdown
  obtain ⟨_, _⟩ := hA
  repeat' (first
    | with_reducible assumption
    | intro y
    | (extract_lets +onlyGivenNames x; first | (refine cut (P := Keeps A s x) ?_ ?_; (on_goal 1 => (unfold x; clear x)); (on_goal 2 => (intro hx; first | clear_value x | skip))) | clear_value x | skip)
    | (with_reducible apply groupState_keeps (hA := by first | with_reducible assumption | with_reducible apply_assumption))
    | (with_reducible apply setGrp_keeps (hA := by first | with_reducible assumption | with_reducible apply_assumption))
    | with_reducible apply keeps_ite
    | split)

def touchGroupDisable (A : Part → Prop) (g : Nat) : Prop := A (.inst R.PE_GRP_STAT.START_BLK g 0) ∧ A (.inst R.PE_GRP_CTRL.EN g 0) ∧ touchGroupRampdown A g ∧ touchGroupState A g
theorem touchGroupDisable_all (h : ∀ q, A q) {g : Nat} : touchGroupDisable A g := ⟨h _, h _, touchGroupRampdown_all h, touchGroupState_all h⟩
theorem groupDisable_keeps {g : ℕ} (hA : touchGroupDisable A g)  (h : Keeps A s t) : Keeps A s (State.groupDisable t g) := by
  unfold State.groupDisable
  obtain ⟨_, _, _, _⟩ := hA
  repeat' (first
    | with_reducible assumption
    | intro y
    | (extract_lets +onlyGivenNames x; first | (refine cut (P := Keeps A s x) ?_ ?_; (on_goal 1 => (unfold x; clear x)); (on_goal 2 => (intro hx; first | clear_value x | skip))) | clear_value x | skip)
    | (with_reducible refine put_keepsAt (by assumption) ?_)
    | (with_reducible refine put_keeps (by assumption) ?_)
    | (with_reducible apply groupRampdown_keeps (hA := by first | with_reducible assumption | with_reducible apply_assumption))
    | (with_reducible apply groupState_keeps (hA := by first | with_reducible assumption | with_reducible apply_assumption))
    | with_reducible apply keeps_ite
    | split
    | refine keeps_ite ?_ ?_)

def touchExecGroupDisable (A : Part → Prop) (g : Nat) : Prop := touchGuarded A ∧ touchGroupDisable A g
theorem touchExecGroupDisable_all (h : ∀ q, A q) {g : Nat} : touchExecGroupDisable A g := ⟨touchGuarded_all h, touchGroupDisable_all h⟩
theorem execGroupDisable_next {sess : ℕ} {g : ℕ} (hA : touchExecGroupDisable A g) : ∃ u, execGroupDisable sess g s = .next u ∧ Keeps A s u := by
  unfold execGroupDisable
  have h := Keeps.refl A s
  refine ⟨_, rfl, ?_⟩
  obtain ⟨_, _⟩ := hA
  repeat' (first
    | with_reducible assumption
    | intro y
    | (with_reducible apply guarded_keeps (hA := by first | with_reducible assumption | with_reducible apply_assumption))
    | (with_reducible apply groupDisable_keeps (hA := by first | with_reducible assumption | with_reducible apply_assumption))
    | with_reducible apply keeps_ite
    | split)

def touchExecRampdownComplete (A : Part → Prop) (g : Nat) : Prop := (∀ x0, touchPhaseState A x0) ∧ touchGroupGatesLow A ∧ touchLog A ∧ A (.inst R.PE_GRP_STAT.N_ACT g 0) ∧ touchGroupState A g
theorem touchExecRampdownComplete_all (h : ∀ q, A q) {g : Nat} : touchExecRampdownComplete A g := ⟨fun _ => touchPhaseState_all h, touchGroupGatesLow_all h, touchLog_all h, h _, touchGroupState_all h⟩
theorem execRampdownComplete_next {g : ℕ} (hA : touchExecRampdownComplete A g) : ∃ u, execRampdownComplete g s = .next u ∧ Keeps A s u := by
  unfold execRampdownComplete
  have h := Keeps.refl A s
  refine ⟨_, rfl, ?_⟩
  obtain ⟨_, _, _, _, _⟩ := hA
  repeat' (first
    | with_reducible assumption
    | intro y
    | (extract_lets +onlyGivenNames x; first | (refine cut (P := Keeps A s x) ?_ ?_; (on_goal 1 => (unfold x; clear x)); (on_goal 2 => (intro hx; first | clear_value x | skip))) | clear_value x | skip)
    | (with_reducible apply phaseState_keeps (hA := by first | with_reducible assumption | with_reducible apply_assumption))
    | (with_reducible apply groupGatesLow_keeps (hA := by first | with_reducible assumption | with_reducible apply_assumption))
    | (with_reducible apply log_keeps (hA := by first | with_reducible assumption | with_reducible apply_assumption))
    | (with_reducible refine put_keepsAt (by assumption) ?_)
    | (with_reducible refine put_keeps (by assumption) ?_)
    | (with_reducible apply groupState_keeps (hA := by first | with_reducible assumption | with_reducible apply_assumption))
    | with_reducible apply keeps_ite
    | with_reducible apply keeps_foldl
    | split
    | refine keeps_ite ?_ ?_)

def touchExecDemandWatchdog (A : Part → Prop) (g : Nat) : Prop := touchLog A ∧ A (.inst R.PE_GRP_STAT.WDOG_SEEN g 0) ∧ A (.inst R.PE_GRP_CTRL.EN g 0) ∧ touchGroupRampdown A g
theorem touchExecDemandWatchdog_all (h : ∀ q, A q) {g : Nat} : touchExecDemandWatchdog A g := ⟨touchLog_all h, h _, h _, touchGroupRampdown_all h⟩
theorem execDemandWatchdog_next {g : ℕ} (hA : touchExecDemandWatchdog A g) : ∃ u, execDemandWatchdog g s = .next u ∧ Keeps A s u := by
  unfold execDemandWatchdog
  have h := Keeps.refl A s
  refine ⟨_, rfl, ?_⟩
  obtain ⟨_, _, _, _⟩ := hA
  repeat' (first
    | with_reducible assumption
    | intro y
    | (with_reducible apply log_keeps (hA := by first | with_reducible assumption | with_reducible apply_assumption))
    | (with_reducible refine put_keepsAt (by assumption) ?_)
    | (with_reducible refine put_keeps (by assumption) ?_)
    | (with_reducible apply groupRampdown_keeps (hA := by first | with_reducible assumption | with_reducible apply_assumption))
    | with_reducible apply keeps_ite
    | split)

def touchExecRespaceCommit (A : Part → Prop) : Prop := A (.reg R.TB_PH_OFS.POFS) ∧ A .tb ∧ touchLog A ∧ touchOfsTake A
theorem touchExecRespaceCommit_all (h : ∀ q, A q) : touchExecRespaceCommit A := ⟨h _, h _, touchLog_all h, touchOfsTake_all h⟩
theorem execRespaceCommit_next {g : ℕ} (hA : touchExecRespaceCommit A) : ∃ u, execRespaceCommit g s = .next u ∧ Keeps A s u := by
  unfold execRespaceCommit
  have h := Keeps.refl A s
  refine ⟨_, rfl, ?_⟩
  obtain ⟨_, _, _, _⟩ := hA
  repeat' (first
    | with_reducible assumption
    | intro y
    | (extract_lets +onlyGivenNames x; first | (refine cut (P := Keeps A s x) ?_ ?_; (on_goal 1 => (unfold x; clear x)); (on_goal 2 => (intro hx; first | clear_value x | skip))) | clear_value x | skip)
    | (with_reducible refine put_keepsAt (by assumption) ?_)
    | (with_reducible refine put_keeps (by assumption) ?_)
    | (with_reducible apply log_keeps (hA := by first | with_reducible assumption | with_reducible apply_assumption))
    | (with_reducible apply ofsTake_keeps (hA := by first | with_reducible assumption | with_reducible apply_assumption))
    | with_reducible apply keeps_ite
    | with_reducible apply keeps_foldl
    | split
    | refine keeps_ite ?_ ?_
    | with_reducible exact keeps_tb (by assumption) (by assumption))

def touchPhaseStrobe (A : Part → Prop) : Prop := touchSetPh A ∧ (∀ x0, touchDemTake A x0) ∧ A (.reg R.PE_GRP_MEAS.I_GRP) ∧ touchSetGrp A
theorem touchPhaseStrobe_all (h : ∀ q, A q) : touchPhaseStrobe A := ⟨touchSetPh_all h, (fun _ => touchDemTake_all h), h _, touchSetGrp_all h⟩
theorem phaseStrobe_keeps  (hA : touchPhaseStrobe A)  (h : Keeps A s t) : Keeps A s (State.phaseStrobe t) := by
  unfold State.phaseStrobe
  obtain ⟨_, _, _, _⟩ := hA
  repeat' (first
    | with_reducible assumption
    | intro y
    | (extract_lets +onlyGivenNames x; first | (refine cut (P := Keeps A s x) ?_ ?_; (on_goal 1 => (unfold x; clear x)); (on_goal 2 => (intro hx; first | clear_value x | skip))) | clear_value x | skip)
    | (with_reducible refine putSat_keepsAt (by assumption) ?_)
    | (with_reducible refine putSat_keeps (by assumption) ?_)
    | (with_reducible apply setPh_keeps (hA := by first | with_reducible assumption | with_reducible apply_assumption))
    | (with_reducible apply demTake_keeps (hA := by first | with_reducible assumption | with_reducible apply_assumption))
    | (with_reducible apply setGrp_keeps (hA := by first | with_reducible assumption | with_reducible apply_assumption))
    | with_reducible apply each_keeps
    | with_reducible apply keeps_ite
    | with_reducible apply keeps_foldl
    | split
    | refine keeps_ite ?_ ?_)

end Sys2Proof.Laws
end

