-- ==== Sys2Proof/Laws/KeepsTmxOps.lean ====
section
/-! SUPPORT. What the operations of Machine/TmxOps.lean leave alone: for each the parts it may change (`touch…`) and its lemma. -/

namespace Sys2Proof.Laws

open Sys2Proof.Machine

set_option linter.unusedTactic false
set_option linter.unreachableTactic false
set_option linter.unusedVariables false
set_option linter.tactic.unusedName false

variable {A : Part → Prop} {s t : State}

def touchTmxPut (A : Part → Prop) (out : Nat) : Prop := A (.inst R.TMX_SEL_A.ADM out 0) ∧ A (.inst R.TMX_SEL_A.SEL out 0) ∧ A (.reg R.TMX_SEL_D.ADM) ∧ A (.reg R.TMX_SEL_D.SEL)
theorem touchTmxPut_all (h : ∀ q, A q) {out : Nat} : touchTmxPut A out := ⟨h _, h _, h _, h _⟩
theorem tmxPut_keeps {out : ℕ} {code : ℕ} (hA : touchTmxPut A out)  (h : Keeps A s t) : Keeps A s (State.tmxPut t out code) := by
  unfold State.tmxPut
  obtain ⟨_, _, _, _⟩ := hA
  repeat' (first
    | with_reducible assumption
    | intro y
    | (with_reducible refine putb_keepsAt (by assumption) ?_)
    | (with_reducible refine putb_keeps (by assumption) ?_)
    | (with_reducible refine put_keepsAt (by assumption) ?_)
    | (with_reducible refine put_keeps (by assumption) ?_)
    | with_reducible apply keeps_ite
    | split)

def touchTmxShow (A : Part → Prop) : Prop := A (.reg R.TMX_STAT.ACT_D) ∧ A (.reg R.TMX_STAT.ACT_A)
theorem touchTmxShow_all (h : ∀ q, A q) : touchTmxShow A := ⟨h _, h _⟩
theorem tmxShow_keeps  (hA : touchTmxShow A)  (h : Keeps A s t) : Keeps A s (State.tmxShow t) := by
  unfold State.tmxShow
  obtain ⟨_, _⟩ := hA
  repeat' (first
    | with_reducible assumption
    | intro y
    | (extract_lets +onlyGivenNames x; first | (refine cut (P := Keeps A s x) ?_ ?_; (on_goal 1 => (unfold x; clear x)); (on_goal 2 => (intro hx; first | clear_value x | skip))) | clear_value x | skip)
    | (with_reducible refine put_keepsAt (by assumption) ?_)
    | (with_reducible refine put_keeps (by assumption) ?_)
    | with_reducible apply keeps_ite
    | with_reducible apply keeps_foldl
    | split
    | refine keeps_ite ?_ ?_)

def touchTmxSelect (A : Part → Prop) (out : Nat) : Prop := touchLog A ∧ touchTmxShow A ∧ A (.reg R.TMX_CTRL.STATUS) ∧ touchTmxPut A out
theorem touchTmxSelect_all (h : ∀ q, A q) {out : Nat} : touchTmxSelect A out := ⟨touchLog_all h, touchTmxShow_all h, h _, touchTmxPut_all h⟩
theorem tmxSelect_keeps {sess : ℕ} {out : ℕ} {code : ℕ} (hA : touchTmxSelect A out)  (h : Keeps A s t) : Keeps A s (State.tmxSelect t sess out code) := by
  unfold State.tmxSelect
  obtain ⟨_, _, _, _⟩ := hA
  repeat' (first
    | with_reducible assumption
    | intro y
    | (extract_lets +onlyGivenNames x; first | (refine cut (P := Keeps A s x) ?_ ?_; (on_goal 1 => (unfold x; clear x)); (on_goal 2 => (intro hx; first | clear_value x | skip))) | clear_value x | skip)
    | (with_reducible apply log_keeps (hA := by first | with_reducible assumption | with_reducible apply_assumption))
    | (with_reducible apply tmxShow_keeps (hA := by first | with_reducible assumption | with_reducible apply_assumption))
    | (with_reducible refine put_keepsAt (by assumption) ?_)
    | (with_reducible refine put_keeps (by assumption) ?_)
    | (with_reducible apply tmxPut_keeps (hA := by first | with_reducible assumption | with_reducible apply_assumption))
    | with_reducible apply keeps_ite
    | split)

def touchExecTmxSelect (A : Part → Prop) (out : Nat) : Prop := touchReport A ∧ touchTmxSelect A out
theorem touchExecTmxSelect_all (h : ∀ q, A q) {out : Nat} : touchExecTmxSelect A out := ⟨touchReport_all h, touchTmxSelect_all h⟩
theorem execTmxSelect_next {sess : ℕ} {out : ℕ} {code : ℕ} (hA : touchExecTmxSelect A out) : ∃ u, execTmxSelect sess out code s = .next u ∧ Keeps A s u := by
  unfold execTmxSelect
  have h := Keeps.refl A s
  refine ⟨_, rfl, ?_⟩
  obtain ⟨_, _⟩ := hA
  repeat' (first
    | with_reducible assumption
    | intro y
    | (extract_lets +onlyGivenNames x; first | (refine cut (P := Keeps A s x) ?_ ?_; (on_goal 1 => (unfold x; clear x)); (on_goal 2 => (intro hx; first | clear_value x | skip))) | clear_value x | skip)
    | (with_reducible apply report_keeps (hA := by first | with_reducible assumption | with_reducible apply_assumption))
    | (with_reducible apply tmxSelect_keeps (hA := by first | with_reducible assumption | with_reducible apply_assumption))
    | with_reducible apply keeps_ite
    | split
    | refine keeps_ite ?_ ?_)

def touchTmxClear (A : Part → Prop) : Prop := touchTmxShow A ∧ (∀ x0, touchTmxPut A x0)
theorem touchTmxClear_all (h : ∀ q, A q) : touchTmxClear A := ⟨touchTmxShow_all h, fun _ => touchTmxPut_all h⟩
theorem tmxClear_keeps  (hA : touchTmxClear A)  (h : Keeps A s t) : Keeps A s (State.tmxClear t) := by
  unfold State.tmxClear
  obtain ⟨_, _⟩ := hA
  repeat' (first
    | with_reducible assumption
    | intro y
    | (with_reducible apply tmxShow_keeps (hA := by first | with_reducible assumption | with_reducible apply_assumption))
    | with_reducible apply each_keeps
    | (with_reducible apply tmxPut_keeps (hA := by first | with_reducible assumption | with_reducible apply_assumption))
    | with_reducible apply keeps_ite
    | split)

def touchTmxDrop (A : Part → Prop) : Prop := touchLog A ∧ touchTmxShow A ∧ A (.reg R.TMX_STAT.DROP_SEEN) ∧ (∀ x0, touchTmxPut A x0)
theorem touchTmxDrop_all (h : ∀ q, A q) : touchTmxDrop A := ⟨touchLog_all h, touchTmxShow_all h, h _, fun _ => touchTmxPut_all h⟩
theorem tmxDrop_keeps {reason : ℕ} (hA : touchTmxDrop A)  (h : Keeps A s t) : Keeps A s (State.tmxDrop t reason) := by
  unfold State.tmxDrop
  obtain ⟨_, _, _, _⟩ := hA
  repeat' (first
    | with_reducible assumption
    | intro y
    | (extract_lets +onlyGivenNames x; first | (refine cut (P := Keeps A s x) ?_ ?_; (on_goal 1 => (unfold x; clear x)); (on_goal 2 => (intro hx; first | clear_value x | skip))) | clear_value x | skip)
    | (with_reducible apply log_keeps (hA := by first | with_reducible assumption | with_reducible apply_assumption))
    | (with_reducible apply tmxShow_keeps (hA := by first | with_reducible assumption | with_reducible apply_assumption))
    | (with_reducible refine put_keepsAt (by assumption) ?_)
    | (with_reducible refine put_keeps (by assumption) ?_)
    | with_reducible apply eachBit_keeps
    | (with_reducible apply tmxPut_keeps (hA := by first | with_reducible assumption | with_reducible apply_assumption))
    | with_reducible apply keeps_ite
    | with_reducible apply keeps_foldl
    | split
    | refine keeps_ite ?_ ?_)

end Sys2Proof.Laws
end

