-- ==== Sys2Proof/Laws/KeepsVaultOps.lean ====
section
/-! SUPPORT. What the operations of Machine/VaultOps.lean leave alone: for each the parts it may change (`touch…`) and its lemma. -/

namespace Sys2Proof.Laws

open Sys2Proof.Machine

set_option linter.unusedTactic false
set_option linter.unreachableTactic false
set_option linter.unusedVariables false
set_option linter.tactic.unusedName false

variable {A : Part → Prop} {s t : State}

def touchSetSes (A : Part → Prop) : Prop := A .mg
theorem touchSetSes_all (h : ∀ q, A q) : touchSetSes A := h _
theorem setSes_keeps {i : ℕ} {x0 : Sys2Proof.Machine.Ses} (hA : touchSetSes A)  (h : Keeps A s t) : Keeps A s (State.setSes t i x0) := by
  unfold State.setSes
  unfold touchSetSes at hA
  repeat' (first
    | with_reducible assumption
    | intro y
    | (extract_lets +onlyGivenNames x; first | (refine cut (P := Keeps A s x) ?_ ?_; (on_goal 1 => (unfold x; clear x)); (on_goal 2 => (intro hx; first | clear_value x | skip))) | clear_value x | skip)
    | with_reducible apply keeps_ite
    | split
    | with_reducible exact keeps_mg (by assumption) (by assumption))

def touchSessShow (A : Part → Prop) : Prop := A (.reg R.SYS_MGMT_STAT.N_RELAY) ∧ A (.reg R.SYS_MGMT_STAT.N_ADMIN) ∧ A (.reg R.SYS_MGMT_STAT.N_SESS)
theorem touchSessShow_all (h : ∀ q, A q) : touchSessShow A := ⟨h _, h _, h _⟩
theorem sessShow_keeps  (hA : touchSessShow A)  (h : Keeps A s t) : Keeps A s (State.sessShow t) := by
  unfold State.sessShow
  obtain ⟨_, _, _⟩ := hA
  repeat' (first
    | with_reducible assumption
    | intro y
    | (with_reducible refine put_keepsAt (by assumption) ?_)
    | (with_reducible refine put_keeps (by assumption) ?_)
    | with_reducible apply keeps_ite
    | split)

def touchStageFree (A : Part → Prop) : Prop := A .kv
theorem touchStageFree_all (h : ∀ q, A q) : touchStageFree A := h _
theorem stageFree_keeps  (hA : touchStageFree A)  (h : Keeps A s t) : Keeps A s (State.stageFree t) := by
  unfold State.stageFree
  unfold touchStageFree at hA
  repeat' (first
    | with_reducible assumption
    | intro y
    | (extract_lets +onlyGivenNames x; first | (refine cut (P := Keeps A s x) ?_ ?_; (on_goal 1 => (unfold x; clear x)); (on_goal 2 => (intro hx; first | clear_value x | skip))) | clear_value x | skip)
    | with_reducible apply keeps_ite
    | split
    | with_reducible exact keeps_kv (by assumption) (by assumption))

def touchSessClear (A : Part → Prop) (i : Nat) : Prop := A (.inst R.SYS_SESS.N_SUB i 0) ∧ A (.inst R.SYS_SESS.PEER i 0) ∧ A (.inst R.SYS_SESS.VIA i 0) ∧ A (.inst R.SYS_SESS.LEVEL i 0) ∧ A (.inst R.SYS_SESS.STATE i 0)
theorem touchSessClear_all (h : ∀ q, A q) {i : Nat} : touchSessClear A i := ⟨h _, h _, h _, h _, h _⟩
theorem sessClear_keeps {i : ℕ} (hA : touchSessClear A i)  (h : Keeps A s t) : Keeps A s (State.sessClear t i) := by
  unfold State.sessClear
  obtain ⟨_, _, _, _, _⟩ := hA
  repeat' (first
    | with_reducible assumption
    | intro y
    | (with_reducible refine put_keepsAt (by assumption) ?_)
    | (with_reducible refine put_keeps (by assumption) ?_)
    | with_reducible apply keeps_ite
    | split)

def touchSessClose (A : Part → Prop) (i : Nat) : Prop := A .mg ∧ touchSetSes A ∧ touchSessClear A i ∧ touchStageFree A ∧ touchLog A ∧ touchSessShow A ∧ touchTmxDrop A
theorem touchSessClose_all (h : ∀ q, A q) {i : Nat} : touchSessClose A i := ⟨h _, touchSetSes_all h, touchSessClear_all h, touchStageFree_all h, touchLog_all h, touchSessShow_all h, touchTmxDrop_all h⟩
theorem sessClose_keeps {i : ℕ} {reason : ℕ} (hA : touchSessClose A i)  (h : Keeps A s t) : Keeps A s (State.sessClose t i reason) := by
  unfold State.sessClose
  obtain ⟨_, _, _, _, _, _, _⟩ := hA
  split
  case isFalse => exact h
  extract_lets _ s0 s1 s2 s3
  have h0 : Keeps A s s0 := keeps_mg ‹_› h
  have h1 : Keeps A s s1 := setSes_keeps ‹_› (sessClear_keeps ‹_› h0)
  have h2 : Keeps A s s2 := keeps_ite (stageFree_keeps ‹_› h1) h1
  have h3 : Keeps A s s3 := log_keeps ‹_› (sessShow_keeps ‹_› h2)
  split
  · exact tmxDrop_keeps ‹_› h3
  · exact h3

def touchSessCloseAll (A : Part → Prop) : Prop := (∀ x0, touchSessClose A x0)
theorem touchSessCloseAll_all (h : ∀ q, A q) : touchSessCloseAll A := fun _ => touchSessClose_all h
theorem sessCloseAll_keeps {reason : ℕ} (hA : touchSessCloseAll A)  (h : Keeps A s t) : Keeps A s (State.sessCloseAll t reason) := by
  unfold State.sessCloseAll
  unfold touchSessCloseAll at hA
  repeat' (first
    | with_reducible assumption
    | intro y
    | (with_reducible apply sessClose_keeps (hA := by first | with_reducible assumption | with_reducible apply_assumption))
    | with_reducible apply keeps_ite
    | with_reducible apply keeps_foldl
    | split)

def touchSessCloseLevel (A : Part → Prop) : Prop := (∀ x0, touchSessClose A x0)
theorem touchSessCloseLevel_all (h : ∀ q, A q) : touchSessCloseLevel A := fun _ => touchSessClose_all h
theorem sessCloseLevel_keeps {level : ℕ} (hA : touchSessCloseLevel A)  (h : Keeps A s t) : Keeps A s (State.sessCloseLevel t level) := by
  unfold State.sessCloseLevel
  unfold touchSessCloseLevel at hA
  repeat' (first
    | with_reducible assumption
    | intro y
    | (with_reducible apply sessClose_keeps (hA := by first | with_reducible assumption | with_reducible apply_assumption))
    | with_reducible apply keeps_ite
    | with_reducible apply keeps_foldl
    | split)

def touchSessCloseSlot (A : Part → Prop) : Prop := (∀ x0, touchSessClose A x0)
theorem touchSessCloseSlot_all (h : ∀ q, A q) : touchSessCloseSlot A := fun _ => touchSessClose_all h
theorem sessCloseSlot_keeps {slot : ℕ} (hA : touchSessCloseSlot A)  (h : Keeps A s t) : Keeps A s (State.sessCloseSlot t slot) := by
  unfold State.sessCloseSlot
  unfold touchSessCloseSlot at hA
  repeat' (first
    | with_reducible assumption
    | intro y
    | (with_reducible apply sessClose_keeps (hA := by first | with_reducible assumption | with_reducible apply_assumption))
    | with_reducible apply keeps_ite
    | with_reducible apply keeps_foldl
    | split)

def touchKvShow (A : Part → Prop) : Prop := A (.reg R.KV_STAT.N_WORK) ∧ A (.reg R.KV_STAT.N_BAD) ∧ A (.reg R.KV_STAT.N_USED)
theorem touchKvShow_all (h : ∀ q, A q) : touchKvShow A := ⟨h _, h _, h _⟩
theorem kvShow_keeps  (hA : touchKvShow A)  (h : Keeps A s t) : Keeps A s (State.kvShow t) := by
  unfold State.kvShow
  obtain ⟨_, _, _⟩ := hA
  repeat' (first
    | with_reducible assumption
    | intro y
    | (extract_lets +onlyGivenNames x; first | (refine cut (P := Keeps A s x) ?_ ?_; (on_goal 1 => (unfold x; clear x)); (on_goal 2 => (intro hx; first | clear_value x | skip))) | clear_value x | skip)
    | (with_reducible refine put_keepsAt (by assumption) ?_)
    | (with_reducible refine put_keeps (by assumption) ?_)
    | with_reducible apply keeps_ite
    | split
    | refine keeps_ite ?_ ?_)

def touchSetSlot (A : Part → Prop) : Prop := A .vault ∧ touchKvShow A
theorem touchSetSlot_all (h : ∀ q, A q) : touchSetSlot A := ⟨h _, touchKvShow_all h⟩
theorem setSlot_keeps {k : ℕ} {x0 : Sys2Proof.Machine.KvSlot} (hA : touchSetSlot A)  (h : Keeps A s t) : Keeps A s (State.setSlot t k x0) := by
  unfold State.setSlot
  obtain ⟨_, _⟩ := hA
  repeat' (first
    | with_reducible assumption
    | intro y
    | (extract_lets +onlyGivenNames x; first | (refine cut (P := Keeps A s x) ?_ ?_; (on_goal 1 => (unfold x; clear x)); (on_goal 2 => (intro hx; first | clear_value x | skip))) | clear_value x | skip)
    | (with_reducible apply kvShow_keeps (hA := by first | with_reducible assumption | with_reducible apply_assumption))
    | with_reducible apply keeps_ite
    | split
    | with_reducible exact keeps_vault (by assumption) (by assumption))

def touchSlotBad (A : Part → Prop) : Prop := touchLog A ∧ touchSetSlot A
theorem touchSlotBad_all (h : ∀ q, A q) : touchSlotBad A := ⟨touchLog_all h, touchSetSlot_all h⟩
theorem slotBad_keeps {k : ℕ} (hA : touchSlotBad A)  (h : Keeps A s t) : Keeps A s (State.slotBad t k) := by
  unfold State.slotBad
  obtain ⟨_, _⟩ := hA
  repeat' (first
    | with_reducible assumption
    | intro y
    | (extract_lets +onlyGivenNames x; first | (refine cut (P := Keeps A s x) ?_ ?_; (on_goal 1 => (unfold x; clear x)); (on_goal 2 => (intro hx; first | clear_value x | skip))) | clear_value x | skip)
    | (with_reducible apply log_keeps (hA := by first | with_reducible assumption | with_reducible apply_assumption))
    | (with_reducible apply setSlot_keeps (hA := by first | with_reducible assumption | with_reducible apply_assumption))
    | with_reducible apply keeps_ite
    | split)

def touchSlotCheck (A : Part → Prop) : Prop := touchSlotBad A
theorem touchSlotCheck_all (h : ∀ q, A q) : touchSlotCheck A := touchSlotBad_all h
theorem slotCheck_keeps {k : ℕ} {ok : Bool} (hA : touchSlotCheck A)  (h : Keeps A s t) : Keeps A s (State.slotCheck t k ok) := by
  unfold State.slotCheck
  unfold touchSlotCheck at hA
  repeat' (first
    | with_reducible assumption
    | intro y
    | (with_reducible apply slotBad_keeps (hA := by first | with_reducible assumption | with_reducible apply_assumption))
    | with_reducible apply keeps_ite
    | split)

def touchKvClear (A : Part → Prop) : Prop := A .kv ∧ A (.reg R.KV_WORK_ATTR.PARENT) ∧ A (.reg R.KV_WORK_ATTR.DEPTH) ∧ A (.reg R.KV_WORK_ATTR.USE) ∧ A (.reg R.KV_WORK_ATTR.TYPE) ∧ A (.reg R.KV_WORK_ATTR.VALID) ∧ A (.reg R.SYS_READY.RDY) ∧ A (.reg R.KV_STAT.N_WORK) ∧ A (.reg R.KV_STAT.PUF_OK)
theorem touchKvClear_all (h : ∀ q, A q) : touchKvClear A := ⟨h _, h _, h _, h _, h _, h _, h _, h _, h _⟩
theorem kvClear_keeps  (hA : touchKvClear A)  (h : Keeps A s t) : Keeps A s (State.kvClear t) := by
  unfold State.kvClear
  obtain ⟨_, _, _, _, _, _, _, _, _⟩ := hA
  repeat' (first
    | with_reducible assumption
    | intro y
    | (extract_lets +onlyGivenNames x; first | (refine cut (P := Keeps A s x) ?_ ?_; (on_goal 1 => (unfold x; clear x)); (on_goal 2 => (intro hx; first | clear_value x | skip))) | clear_value x | skip)
    | with_reducible apply each_keeps
    | (with_reducible refine put_keepsAt (by assumption) ?_)
    | (with_reducible refine put_keeps (by assumption) ?_)
    | with_reducible apply keeps_ite
    | split
    | refine keeps_ite ?_ ?_
    | with_reducible exact keeps_kv (by assumption) (by assumption))

def touchDestroyWith (A : Part → Prop) : Prop := A (.reg R.KV_DESTROY_TIME.UTC) ∧ A (.reg R.KV_DESTROY.CAUSE) ∧ A (.reg R.KV_STAT.DESTROYED) ∧ A .vault ∧ touchKvClear A ∧ A .fab ∧ touchSessCloseAll A ∧ touchReqSafeOff A
theorem touchDestroyWith_all (h : ∀ q, A q) : touchDestroyWith A := ⟨h _, h _, h _, h _, touchKvClear_all h, h _, touchSessCloseAll_all h, touchReqSafeOff_all h⟩
theorem destroyWith_keeps {on : ℕ → Bool} {cause : ℕ} (hA : touchDestroyWith A)  (h : Keeps A s t) : Keeps A s (State.destroyWith t on cause) := by
  unfold State.destroyWith
  obtain ⟨_, _, _, _, _, _, _, _⟩ := hA
  repeat' (first
    | with_reducible assumption
    | intro y
    | (extract_lets +onlyGivenNames x; first | (refine cut (P := Keeps A s x) ?_ ?_; (on_goal 1 => (unfold x; clear x)); (on_goal 2 => (intro hx; first | clear_value x | skip))) | clear_value x | skip)
    | (with_reducible refine put_keepsAt (by assumption) ?_)
    | (with_reducible refine put_keeps (by assumption) ?_)
    | (with_reducible apply kvClear_keeps (hA := by first | with_reducible assumption | with_reducible apply_assumption))
    | (with_reducible apply sessCloseAll_keeps (hA := by first | with_reducible assumption | with_reducible apply_assumption))
    | (with_reducible apply reqSafeOff_keeps (hA := by first | with_reducible assumption | with_reducible apply_assumption))
    | with_reducible apply keeps_ite
    | split
    | refine keeps_ite ?_ ?_
    | with_reducible exact keeps_vault (by assumption) (by assumption)
    | with_reducible exact keeps_fab (by assumption) (by assumption))

def touchDestroy (A : Part → Prop) : Prop := touchDestroyWith A
theorem touchDestroy_all (h : ∀ q, A q) : touchDestroy A := touchDestroyWith_all h
theorem destroy_keeps {cause : ℕ} (hA : touchDestroy A)  (h : Keeps A s t) : Keeps A s (State.destroy t cause) := by
  unfold State.destroy
  unfold touchDestroy at hA
  repeat' (first
    | with_reducible assumption
    | intro y
    | (extract_lets +onlyGivenNames x; first | (refine cut (P := Keeps A s x) ?_ ?_; (on_goal 1 => (unfold x; clear x)); (on_goal 2 => (intro hx; first | clear_value x | skip))) | clear_value x | skip)
    | (with_reducible apply destroyWith_keeps (hA := by first | with_reducible assumption | with_reducible apply_assumption))
    | with_reducible apply keeps_ite
    | split
    | refine keeps_ite ?_ ?_)

def touchKvColdStart (A : Part → Prop) : Prop := touchDestroyWith A ∧ touchLog A ∧ A (.reg R.KV_STAT.WATCH_GAP)
theorem touchKvColdStart_all (h : ∀ q, A q) : touchKvColdStart A := ⟨touchDestroyWith_all h, touchLog_all h, h _⟩
theorem kvColdStart_keeps  (hA : touchKvColdStart A)  (h : Keeps A s t) : Keeps A s (State.kvColdStart t) := by
  unfold State.kvColdStart
  obtain ⟨_, _, _⟩ := hA
  repeat' (first
    | with_reducible assumption
    | intro y
    | (extract_lets +onlyGivenNames x; first | (refine cut (P := Keeps A s x) ?_ ?_; (on_goal 1 => (unfold x; clear x)); (on_goal 2 => (intro hx; first | clear_value x | skip))) | clear_value x | skip)
    | (with_reducible refine put_keepsAt (by assumption) ?_)
    | (with_reducible refine put_keeps (by assumption) ?_)
    | (with_reducible apply destroyWith_keeps (hA := by first | with_reducible assumption | with_reducible apply_assumption))
    | (with_reducible apply log_keeps (hA := by first | with_reducible assumption | with_reducible apply_assumption))
    | with_reducible apply keeps_ite
    | split
    | refine keeps_ite ?_ ?_)

def touchKvWipe (A : Part → Prop) : Prop := A .vault ∧ touchSetSlot A ∧ touchLogAt A
theorem touchKvWipe_all (h : ∀ q, A q) : touchKvWipe A := ⟨h _, touchSetSlot_all h, touchLogAt_all h⟩
theorem kvWipe_keeps  (hA : touchKvWipe A)  (h : Keeps A s t) : Keeps A s (State.kvWipe t) := by
  unfold State.kvWipe
  obtain ⟨_, _, _⟩ := hA
  repeat' (first
    | with_reducible assumption
    | intro y
    | (extract_lets +onlyGivenNames x; first | (refine cut (P := Keeps A s x) ?_ ?_; (on_goal 1 => (unfold x; clear x)); (on_goal 2 => (intro hx; first | clear_value x | skip))) | clear_value x | skip)
    | (with_reducible apply setSlot_keeps (hA := by first | with_reducible assumption | with_reducible apply_assumption))
    | (with_reducible apply logAt_keeps (hA := by first | with_reducible assumption | with_reducible apply_assumption))
    | with_reducible apply keeps_ite
    | with_reducible apply keeps_foldl
    | split
    | refine keeps_ite ?_ ?_
    | with_reducible exact keeps_vault (by assumption) (by assumption))

def touchSlotsCheck (A : Part → Prop) : Prop := touchSlotBad A ∧ touchSetSlot A
theorem touchSlotsCheck_all (h : ∀ q, A q) : touchSlotsCheck A := ⟨touchSlotBad_all h, touchSetSlot_all h⟩
theorem slotsCheck_keeps {bad : List ℕ} (hA : touchSlotsCheck A)  (h : Keeps A s t) : Keeps A s (State.slotsCheck t bad) := by
  unfold State.slotsCheck
  obtain ⟨_, _⟩ := hA
  repeat' (first
    | with_reducible assumption
    | intro y
    | (extract_lets +onlyGivenNames x; first | (refine cut (P := Keeps A s x) ?_ ?_; (on_goal 1 => (unfold x; clear x)); (on_goal 2 => (intro hx; first | clear_value x | skip))) | clear_value x | skip)
    | (with_reducible apply slotBad_keeps (hA := by first | with_reducible assumption | with_reducible apply_assumption))
    | (with_reducible apply setSlot_keeps (hA := by first | with_reducible assumption | with_reducible apply_assumption))
    | with_reducible apply keeps_ite
    | with_reducible apply keeps_foldl
    | split
    | refine keeps_ite ?_ ?_)

def touchResShow (A : Part → Prop) : Prop := A (.reg R.KV_STAT.RES_OK) ∧ touchLog A
theorem touchResShow_all (h : ∀ q, A q) : touchResShow A := ⟨h _, touchLog_all h⟩
theorem resShow_keeps  (hA : touchResShow A)  (h : Keeps A s t) : Keeps A s (State.resShow t) := by
  unfold State.resShow
  obtain ⟨_, _⟩ := hA
  repeat' (first
    | with_reducible assumption
    | intro y
    | (extract_lets +onlyGivenNames x; first | (refine cut (P := Keeps A s x) ?_ ?_; (on_goal 1 => (unfold x; clear x)); (on_goal 2 => (intro hx; first | clear_value x | skip))) | clear_value x | skip)
    | (with_reducible refine put_keepsAt (by assumption) ?_)
    | (with_reducible refine put_keeps (by assumption) ?_)
    | (with_reducible apply log_keeps (hA := by first | with_reducible assumption | with_reducible apply_assumption))
    | with_reducible apply keeps_ite
    | split
    | refine keeps_ite ?_ ?_)

def touchKvStart (A : Part → Prop) : Prop := touchKvWipe A ∧ touchKvClear A ∧ touchLog A ∧ A (.reg R.KV_PUF.ATTEMPTS) ∧ A (.reg R.KV_STAT.PUF_FAIL) ∧ A (.reg R.KV_PUF.ERR_BITS) ∧ A (.reg R.KV_STAT.PUF_OK) ∧ A (.reg R.KV_PUF.ERR_MAX) ∧ touchSlotsCheck A ∧ A .kv ∧ touchKvShow A ∧ touchSetReady A
theorem touchKvStart_all (h : ∀ q, A q) : touchKvStart A := ⟨touchKvWipe_all h, touchKvClear_all h, touchLog_all h, h _, h _, h _, h _, h _, touchSlotsCheck_all h, h _, touchKvShow_all h, touchSetReady_all h⟩
theorem kvStart_keeps {puf : List Sys2Proof.PufRead} {bad : List ℕ} (hA : touchKvStart A)  (h : Keeps A s t) : Keeps A s (State.kvStart t puf bad) := by
  unfold State.kvStart
  obtain ⟨_, _, _, _, _, _, _, _, _, _, _, _⟩ := hA
  repeat' (first
    | with_reducible assumption
    | intro y
    | (extract_lets +onlyGivenNames x; first | (refine cut (P := Keeps A s x) ?_ ?_; (on_goal 1 => (unfold x; clear x)); (on_goal 2 => (intro hx; first | clear_value x | skip))) | clear_value x | skip)
    | (with_reducible refine put_keepsAt (by assumption) ?_)
    | (with_reducible refine put_keeps (by assumption) ?_)
    | (with_reducible apply kvWipe_keeps (hA := by first | with_reducible assumption | with_reducible apply_assumption))
    | (with_reducible apply kvClear_keeps (hA := by first | with_reducible assumption | with_reducible apply_assumption))
    | (with_reducible apply log_keeps (hA := by first | with_reducible assumption | with_reducible apply_assumption))
    | (with_reducible apply slotsCheck_keeps (hA := by first | with_reducible assumption | with_reducible apply_assumption))
    | (with_reducible apply kvShow_keeps (hA := by first | with_reducible assumption | with_reducible apply_assumption))
    | (with_reducible apply setReady_keeps (hA := by first | with_reducible assumption | with_reducible apply_assumption))
    | with_reducible apply keeps_ite
    | split
    | refine keeps_ite ?_ ?_
    | with_reducible exact keeps_kv (by assumption) (by assumption))

def touchFabKeyCopy (A : Part → Prop) : Prop := A .fab
theorem touchFabKeyCopy_all (h : ∀ q, A q) : touchFabKeyCopy A := h _
theorem fabKeyCopy_keeps  (hA : touchFabKeyCopy A)  (h : Keeps A s t) : Keeps A s (State.fabKeyCopy t) := by
  unfold State.fabKeyCopy
  unfold touchFabKeyCopy at hA
  repeat' (first
    | with_reducible assumption
    | intro y
    | (extract_lets +onlyGivenNames x; first | (refine cut (P := Keeps A s x) ?_ ?_; (on_goal 1 => (unfold x; clear x)); (on_goal 2 => (intro hx; first | clear_value x | skip))) | clear_value x | skip)
    | with_reducible apply keeps_ite
    | split
    | refine keeps_ite ?_ ?_
    | with_reducible exact keeps_fab (by assumption) (by assumption))

end Sys2Proof.Laws
end

