-- ==== Sys2Proof/Laws/KeepsVehicle.lean ====
section
/-! SUPPORT. What the operations of Machine/Vehicle.lean leave alone: for each the parts it may change (`touch…`) and its lemma. -/

namespace Sys2Proof.Laws

open Sys2Proof.Machine

set_option linter.unusedTactic false
set_option linter.unreachableTactic false
set_option linter.unusedVariables false
set_option linter.tactic.unusedName false

variable {A : Part → Prop} {s t : State}

def touchStopConn (A : Part → Prop) (c : Nat) : Prop := touchFastStop A c ∧ touchNormalStop A c
theorem touchStopConn_all (h : ∀ q, A q) {c : Nat} : touchStopConn A c := ⟨touchFastStop_all h, touchNormalStop_all h⟩
theorem stopConn_keeps {c : ℕ} {code : ℕ} (hA : touchStopConn A c)  (h : Keeps A s t) : Keeps A s (State.stopConn t c code) := by
  unfold State.stopConn
  obtain ⟨_, _⟩ := hA
  repeat' (first
    | with_reducible assumption
    | intro y
    | (extract_lets +onlyGivenNames x; first | (refine cut (P := Keeps A s x) ?_ ?_; (on_goal 1 => (unfold x; clear x)); (on_goal 2 => (intro hx; first | clear_value x | skip))) | clear_value x | skip)
    | (with_reducible apply fastStop_keeps (hA := by first | with_reducible assumption | with_reducible apply_assumption))
    | (with_reducible apply normalStop_keeps (hA := by first | with_reducible assumption | with_reducible apply_assumption))
    | with_reducible apply keeps_ite
    | split)

def touchFastEval (A : Part → Prop) (c : Nat) : Prop := touchFastStop A c
theorem touchFastEval_all (h : ∀ q, A q) {c : Nat} : touchFastEval A c := touchFastStop_all h
theorem fastEval_keeps {c : ℕ} (hA : touchFastEval A c)  (h : Keeps A s t) : Keeps A s (State.fastEval t c) := by
  unfold State.fastEval
  unfold touchFastEval at hA
  repeat' (first
    | with_reducible assumption
    | intro y
    | (extract_lets +onlyGivenNames x; first | (refine cut (P := Keeps A s x) ?_ ?_; (on_goal 1 => (unfold x; clear x)); (on_goal 2 => (intro hx; first | clear_value x | skip))) | clear_value x | skip)
    | (with_reducible apply fastStop_keeps (hA := by first | with_reducible assumption | with_reducible apply_assumption))
    | with_reducible apply keeps_ite
    | split)

def touchExecInterlockOpen (A : Part → Prop) (c : Nat) : Prop := touchFastEval A c ∧ A (.inst R.VS_CONN_STAT.IL c 0)
theorem touchExecInterlockOpen_all (h : ∀ q, A q) {c : Nat} : touchExecInterlockOpen A c := ⟨touchFastEval_all h, h _⟩
theorem execInterlockOpen_next {c : ℕ} {mv : ℕ} {n : ℕ} (hA : touchExecInterlockOpen A c) : ∃ u, execInterlockOpen c mv n s = .next u ∧ Keeps A s u := by
  unfold execInterlockOpen
  have h := Keeps.refl A s
  refine ⟨_, rfl, ?_⟩
  obtain ⟨_, _⟩ := hA
  repeat' (first
    | with_reducible assumption
    | intro y
    | (extract_lets +onlyGivenNames x; first | (refine cut (P := Keeps A s x) ?_ ?_; (on_goal 1 => (unfold x; clear x)); (on_goal 2 => (intro hx; first | clear_value x | skip))) | clear_value x | skip)
    | (with_reducible apply fastEval_keeps (hA := by first | with_reducible assumption | with_reducible apply_assumption))
    | (with_reducible refine put_keepsAt (by assumption) ?_)
    | (with_reducible refine put_keeps (by assumption) ?_)
    | with_reducible apply keeps_ite
    | split
    | refine keeps_ite ?_ ?_)

def touchConnOver (A : Part → Prop) (c : Nat) : Prop := touchConnFault A c ∧ touchConnState A c
theorem touchConnOver_all (h : ∀ q, A q) {c : Nat} : touchConnOver A c := ⟨touchConnFault_all h, touchConnState_all h⟩
theorem connOver_keeps {c : ℕ} (hA : touchConnOver A c)  (h : Keeps A s t) : Keeps A s (State.connOver t c) := by
  unfold State.connOver
  obtain ⟨_, _⟩ := hA
  repeat' (first
    | with_reducible assumption
    | intro y
    | (extract_lets +onlyGivenNames x; first | (refine cut (P := Keeps A s x) ?_ ?_; (on_goal 1 => (unfold x; clear x)); (on_goal 2 => (intro hx; first | clear_value x | skip))) | clear_value x | skip)
    | (with_reducible apply connFault_keeps (hA := by first | with_reducible assumption | with_reducible apply_assumption))
    | (with_reducible apply connState_keeps (hA := by first | with_reducible assumption | with_reducible apply_assumption))
    | with_reducible apply keeps_ite
    | split
    | refine keeps_ite ?_ ?_)

def touchExecProximityChange (A : Part → Prop) (c : Nat) : Prop := touchSetConn A ∧ A (.inst R.VS_CONN_STAT.PROX c 0) ∧ touchConnState A c ∧ touchConnOver A c ∧ touchLimitsZero A c ∧ touchFastEval A c
theorem touchExecProximityChange_all (h : ∀ q, A q) {c : Nat} : touchExecProximityChange A c := ⟨touchSetConn_all h, h _, touchConnState_all h, touchConnOver_all h, touchLimitsZero_all h, touchFastEval_all h⟩
theorem execProximityChange_next {c : ℕ} {mv : ℕ} {ms : ℕ} (hA : touchExecProximityChange A c) : ∃ u, execProximityChange c mv ms s = .next u ∧ Keeps A s u := by
  unfold execProximityChange
  have h := Keeps.refl A s
  refine ⟨_, rfl, ?_⟩
  obtain ⟨_, _, _, _, _, _⟩ := hA
  repeat' (first
    | with_reducible assumption
    | intro y
    | (extract_lets +onlyGivenNames x; first | (refine cut (P := Keeps A s x) ?_ ?_; (on_goal 1 => (unfold x; clear x)); (on_goal 2 => (intro hx; first | clear_value x | skip))) | clear_value x | skip)
    | (with_reducible refine put_keepsAt (by assumption) ?_)
    | (with_reducible refine put_keeps (by assumption) ?_)
    | (with_reducible apply setConn_keeps (hA := by first | with_reducible assumption | with_reducible apply_assumption))
    | (with_reducible apply connState_keeps (hA := by first | with_reducible assumption | with_reducible apply_assumption))
    | (with_reducible apply connOver_keeps (hA := by first | with_reducible assumption | with_reducible apply_assumption))
    | (with_reducible apply limitsZero_keeps (hA := by first | with_reducible assumption | with_reducible apply_assumption))
    | (with_reducible apply fastEval_keeps (hA := by first | with_reducible assumption | with_reducible apply_assumption))
    | with_reducible apply keeps_ite
    | split
    | refine keeps_ite ?_ ?_)

def touchConnClear (A : Part → Prop) (c : Nat) : Prop := A (.inst R.VS_CONN_STAT.IMD_WARN c 0) ∧ A (.inst R.VS_CONN_AUTH.AUTH c 0) ∧ A (.inst R.VS_CONN_STAT.ID c 0) ∧ A (.inst R.VS_CONN_STAT.DIR c 0) ∧ A (.inst R.VS_CONN_STAT.MODE c 0) ∧ A (.reg R.VS_CONN_ID.ID) ∧ touchSetConn A ∧ A (.inst R.VS_CONN_EV.V_EV c 0) ∧ A (.inst R.VS_CONN_EV.I_EV c 0) ∧ touchComply A c
theorem touchConnClear_all (h : ∀ q, A q) {c : Nat} : touchConnClear A c := ⟨h _, h _, h _, h _, h _, h _, touchSetConn_all h, h _, h _, touchComply_all h⟩
theorem connClear_keeps {c : ℕ} (hA : touchConnClear A c)  (h : Keeps A s t) : Keeps A s (State.connClear t c) := by
  unfold State.connClear
  obtain ⟨_, _, _, _, _, _, _, _, _, _⟩ := hA
  repeat' (first
    | with_reducible assumption
    | intro y
    | (extract_lets +onlyGivenNames x; first | (refine cut (P := Keeps A s x) ?_ ?_; (on_goal 1 => (unfold x; clear x)); (on_goal 2 => (intro hx; first | clear_value x | skip))) | clear_value x | skip)
    | (with_reducible refine put_keepsAt (by assumption) ?_)
    | (with_reducible refine put_keeps (by assumption) ?_)
    | (with_reducible apply setConn_keeps (hA := by first | with_reducible assumption | with_reducible apply_assumption))
    | (with_reducible apply comply_keeps (hA := by first | with_reducible assumption | with_reducible apply_assumption))
    | with_reducible apply each_keeps
    | with_reducible apply keeps_ite
    | split
    | refine keeps_ite ?_ ?_)

def touchExecPlugIn (A : Part → Prop) (c : Nat) : Prop := touchConnClear A c ∧ touchLog A ∧ touchConnState A c ∧ touchSetConn A
theorem touchExecPlugIn_all (h : ∀ q, A q) {c : Nat} : touchExecPlugIn A c := ⟨touchConnClear_all h, touchLog_all h, touchConnState_all h, touchSetConn_all h⟩
theorem execPlugIn_next {c : ℕ} {ms : ℕ} (hA : touchExecPlugIn A c) : ∃ u, execPlugIn c ms s = .next u ∧ Keeps A s u := by
  unfold execPlugIn
  have h := Keeps.refl A s
  refine ⟨_, rfl, ?_⟩
  obtain ⟨_, _, _, _⟩ := hA
  repeat' (first
    | with_reducible assumption
    | intro y
    | (extract_lets +onlyGivenNames x; first | (refine cut (P := Keeps A s x) ?_ ?_; (on_goal 1 => (unfold x; clear x)); (on_goal 2 => (intro hx; first | clear_value x | skip))) | clear_value x | skip)
    | (with_reducible apply connClear_keeps (hA := by first | with_reducible assumption | with_reducible apply_assumption))
    | (with_reducible apply log_keeps (hA := by first | with_reducible assumption | with_reducible apply_assumption))
    | (with_reducible apply connState_keeps (hA := by first | with_reducible assumption | with_reducible apply_assumption))
    | (with_reducible apply setConn_keeps (hA := by first | with_reducible assumption | with_reducible apply_assumption))
    | with_reducible apply keeps_ite
    | split
    | refine keeps_ite ?_ ?_)

def touchExecTlsSessionEstablished (A : Part → Prop) : Prop := (∀ x0, touchConnState A x0) ∧ touchSetConn A
theorem touchExecTlsSessionEstablished_all (h : ∀ q, A q) : touchExecTlsSessionEstablished A := ⟨(fun _ => touchConnState_all h), touchSetConn_all h⟩
theorem execTlsSessionEstablished_next {c : Sys2Proof.TlsHello} (hA : touchExecTlsSessionEstablished A) : ∃ u, execTlsSessionEstablished c s = .next u ∧ Keeps A s u := by
  unfold execTlsSessionEstablished
  have h := Keeps.refl A s
  refine ⟨_, rfl, ?_⟩
  obtain ⟨_, _⟩ := hA
  repeat' (first
    | with_reducible assumption
    | intro y
    | (extract_lets +onlyGivenNames x; first | (refine cut (P := Keeps A s x) ?_ ?_; (on_goal 1 => (unfold x; clear x)); (on_goal 2 => (intro hx; first | clear_value x | skip))) | clear_value x | skip)
    | (with_reducible apply connState_keeps (hA := by first | with_reducible assumption | with_reducible apply_assumption))
    | (with_reducible apply setConn_keeps (hA := by first | with_reducible assumption | with_reducible apply_assumption))
    | with_reducible apply keeps_ite
    | split
    | refine keeps_ite ?_ ?_)

def touchExecPlugTimeout (A : Part → Prop) (c : Nat) : Prop := A (.inst R.VS_CONN_STAT.FAST c 0) ∧ touchConnEnd A c ∧ touchConnState A c
theorem touchExecPlugTimeout_all (h : ∀ q, A q) {c : Nat} : touchExecPlugTimeout A c := ⟨h _, touchConnEnd_all h, touchConnState_all h⟩
theorem execPlugTimeout_next {c : ℕ} {ms : ℕ} (hA : touchExecPlugTimeout A c) : ∃ u, execPlugTimeout c ms s = .next u ∧ Keeps A s u := by
  unfold execPlugTimeout
  have h := Keeps.refl A s
  refine ⟨_, rfl, ?_⟩
  obtain ⟨_, _, _⟩ := hA
  repeat' (first
    | with_reducible assumption
    | intro y
    | (with_reducible refine put_keepsAt (by assumption) ?_)
    | (with_reducible refine put_keeps (by assumption) ?_)
    | (with_reducible apply connEnd_keeps (hA := by first | with_reducible assumption | with_reducible apply_assumption))
    | (with_reducible apply connState_keeps (hA := by first | with_reducible assumption | with_reducible apply_assumption))
    | with_reducible apply keeps_ite
    | split)

def touchAnswer (A : Part → Prop) : Prop := touchEmit A
theorem touchAnswer_all (h : ∀ q, A q) : touchAnswer A := touchEmit_all h
theorem answer_keeps {c : ℕ} {msg : ℕ} {ok : Bool} {data : List ℕ} (hA : touchAnswer A)  (h : Keeps A s t) : Keeps A s (State.answer t c msg ok data) := by
  unfold State.answer
  unfold touchAnswer at hA
  repeat' (first
    | with_reducible assumption
    | intro y
    | (with_reducible apply emit_keeps (hA := by first | with_reducible assumption | with_reducible apply_assumption))
    | with_reducible apply keeps_ite
    | split)

def touchRequest (A : Part → Prop) : Prop := touchAnswer A
theorem touchRequest_all (h : ∀ q, A q) : touchRequest A := touchAnswer_all h
theorem request_keeps {c : ℕ} {msg : ℕ} {g : Sys2Proof.Machine.State → Sys2Proof.Machine.State} (hA : touchRequest A) (hg : ∀ y0, Keeps A s y0 → Keeps A s (g y0)) (h : Keeps A s t) : Keeps A s (State.request t c msg g) := by
  unfold State.request
  unfold touchRequest at hA
  repeat' (first
    | with_reducible assumption
    | intro y
    | (with_reducible apply answer_keeps (hA := by first | with_reducible assumption | with_reducible apply_assumption))
    | with_reducible apply keeps_ite
    | with_reducible apply hg
    | split)

def touchExecSupportedAppProtocol (A : Part → Prop) : Prop := touchRequest A ∧ touchAnswer A
theorem touchExecSupportedAppProtocol_all (h : ∀ q, A q) : touchExecSupportedAppProtocol A := ⟨touchRequest_all h, touchAnswer_all h⟩
theorem execSupportedAppProtocol_next {c : ℕ} (hA : touchExecSupportedAppProtocol A) : ∃ u, execSupportedAppProtocol c s = .next u ∧ Keeps A s u := by
  unfold execSupportedAppProtocol
  have h := Keeps.refl A s
  refine ⟨_, rfl, ?_⟩
  obtain ⟨_, _⟩ := hA
  repeat' (first
    | with_reducible assumption
    | intro y
    | (with_reducible apply request_keeps (hA := by first | with_reducible assumption | with_reducible apply_assumption))
    | (with_reducible apply answer_keeps (hA := by first | with_reducible assumption | with_reducible apply_assumption))
    | with_reducible apply keeps_ite
    | split)

def touchExecSessionSetup (A : Part → Prop) : Prop := touchRequest A ∧ touchAnswer A ∧ touchSetConn A
theorem touchExecSessionSetup_all (h : ∀ q, A q) : touchExecSessionSetup A := ⟨touchRequest_all h, touchAnswer_all h, touchSetConn_all h⟩
theorem execSessionSetup_next {c : ℕ} {sid : ℕ} (hA : touchExecSessionSetup A) : ∃ u, execSessionSetup c sid s = .next u ∧ Keeps A s u := by
  unfold execSessionSetup
  have h := Keeps.refl A s
  refine ⟨_, rfl, ?_⟩
  obtain ⟨_, _, _⟩ := hA
  repeat' (first
    | with_reducible assumption
    | intro y
    | (extract_lets +onlyGivenNames x; first | (refine cut (P := Keeps A s x) ?_ ?_; (on_goal 1 => (unfold x; clear x)); (on_goal 2 => (intro hx; first | clear_value x | skip))) | clear_value x | skip)
    | (with_reducible apply request_keeps (hA := by first | with_reducible assumption | with_reducible apply_assumption))
    | (with_reducible apply answer_keeps (hA := by first | with_reducible assumption | with_reducible apply_assumption))
    | (with_reducible apply setConn_keeps (hA := by first | with_reducible assumption | with_reducible apply_assumption))
    | with_reducible apply keeps_ite
    | split)

def touchExecAuthorizationSetup (A : Part → Prop) : Prop := touchRequest A ∧ touchAnswer A
theorem touchExecAuthorizationSetup_all (h : ∀ q, A q) : touchExecAuthorizationSetup A := ⟨touchRequest_all h, touchAnswer_all h⟩
theorem execAuthorizationSetup_next {c : ℕ} (hA : touchExecAuthorizationSetup A) : ∃ u, execAuthorizationSetup c s = .next u ∧ Keeps A s u := by
  unfold execAuthorizationSetup
  have h := Keeps.refl A s
  refine ⟨_, rfl, ?_⟩
  obtain ⟨_, _⟩ := hA
  repeat' (first
    | with_reducible assumption
    | intro y
    | (with_reducible apply request_keeps (hA := by first | with_reducible assumption | with_reducible apply_assumption))
    | (with_reducible apply answer_keeps (hA := by first | with_reducible assumption | with_reducible apply_assumption))
    | with_reducible apply keeps_ite
    | split)

def touchIdentify (A : Part → Prop) (c : Nat) : Prop := touchSetConn A ∧ A (.reg R.VS_CONN_ID.ID) ∧ touchLog A ∧ A (.inst R.VS_CONN_STAT.ID c 0)
theorem touchIdentify_all (h : ∀ q, A q) {c : Nat} : touchIdentify A c := ⟨touchSetConn_all h, h _, touchLog_all h, h _⟩
theorem identify_keeps {c : ℕ} {pnc : Bool} {ident : List ℕ} (hA : touchIdentify A c)  (h : Keeps A s t) : Keeps A s (State.identify t c pnc ident) := by
  unfold State.identify
  obtain ⟨_, _, _, _⟩ := hA
  repeat' (first
    | with_reducible assumption
    | intro y
    | (extract_lets +onlyGivenNames x; first | (refine cut (P := Keeps A s x) ?_ ?_; (on_goal 1 => (unfold x; clear x)); (on_goal 2 => (intro hx; first | clear_value x | skip))) | clear_value x | skip)
    | (with_reducible refine put_keepsAt (by assumption) ?_)
    | (with_reducible refine put_keeps (by assumption) ?_)
    | (with_reducible apply setConn_keeps (hA := by first | with_reducible assumption | with_reducible apply_assumption))
    | (with_reducible apply log_keeps (hA := by first | with_reducible assumption | with_reducible apply_assumption))
    | with_reducible apply each_keeps
    | with_reducible apply keeps_ite
    | split
    | refine keeps_ite ?_ ?_)

def touchRootCheck (A : Part → Prop) : Prop := touchSlotBad A
theorem touchRootCheck_all (h : ∀ q, A q) : touchRootCheck A := touchSlotBad_all h
theorem rootCheck_keeps {bad : List ℕ} (hA : touchRootCheck A)  (h : Keeps A s t) : Keeps A s (State.rootCheck t bad) := by
  unfold State.rootCheck
  unfold touchRootCheck at hA
  repeat' (first
    | with_reducible assumption
    | intro y
    | (extract_lets +onlyGivenNames x; first | (refine cut (P := Keeps A s x) ?_ ?_; (on_goal 1 => (unfold x; clear x)); (on_goal 2 => (intro hx; first | clear_value x | skip))) | clear_value x | skip)
    | (with_reducible apply slotBad_keeps (hA := by first | with_reducible assumption | with_reducible apply_assumption))
    | with_reducible apply keeps_ite
    | with_reducible apply keeps_foldl
    | split
    | refine keeps_ite ?_ ?_)

def touchExecAuthorization (A : Part → Prop) (c : Nat) : Prop := touchRequest A ∧ touchAnswer A ∧ touchRootCheck A ∧ touchIdentify A c
theorem touchExecAuthorization_all (h : ∀ q, A q) {c : Nat} : touchExecAuthorization A c := ⟨touchRequest_all h, touchAnswer_all h, touchRootCheck_all h, touchIdentify_all h⟩
theorem execAuthorization_next {c : ℕ} {pnc : Bool} {ident : List ℕ} {chainOk : Sys2Proof.ChainObs} (hA : touchExecAuthorization A c) : ∃ u, execAuthorization c pnc ident chainOk s = .next u ∧ Keeps A s u := by
  unfold execAuthorization
  have h := Keeps.refl A s
  refine ⟨_, rfl, ?_⟩
  obtain ⟨_, _, _, _⟩ := hA
  repeat' (first
    | with_reducible assumption
    | intro y
    | (extract_lets +onlyGivenNames x; first | (refine cut (P := Keeps A s x) ?_ ?_; (on_goal 1 => (unfold x; clear x)); (on_goal 2 => (intro hx; first | clear_value x | skip))) | clear_value x | skip)
    | (with_reducible apply request_keeps (hA := by first | with_reducible assumption | with_reducible apply_assumption))
    | (with_reducible apply answer_keeps (hA := by first | with_reducible assumption | with_reducible apply_assumption))
    | (with_reducible apply rootCheck_keeps (hA := by first | with_reducible assumption | with_reducible apply_assumption))
    | (with_reducible apply identify_keeps (hA := by first | with_reducible assumption | with_reducible apply_assumption))
    | with_reducible apply keeps_ite
    | split
    | refine keeps_ite ?_ ?_)

def touchExecServiceDiscovery (A : Part → Prop) : Prop := touchRequest A ∧ touchAnswer A
theorem touchExecServiceDiscovery_all (h : ∀ q, A q) : touchExecServiceDiscovery A := ⟨touchRequest_all h, touchAnswer_all h⟩
theorem execServiceDiscovery_next {c : ℕ} (hA : touchExecServiceDiscovery A) : ∃ u, execServiceDiscovery c s = .next u ∧ Keeps A s u := by
  unfold execServiceDiscovery
  have h := Keeps.refl A s
  refine ⟨_, rfl, ?_⟩
  obtain ⟨_, _⟩ := hA
  repeat' (first
    | with_reducible assumption
    | intro y
    | (with_reducible apply request_keeps (hA := by first | with_reducible assumption | with_reducible apply_assumption))
    | (with_reducible apply answer_keeps (hA := by first | with_reducible assumption | with_reducible apply_assumption))
    | with_reducible apply keeps_ite
    | split)

def touchExecServiceDetail (A : Part → Prop) : Prop := touchRequest A ∧ touchAnswer A
theorem touchExecServiceDetail_all (h : ∀ q, A q) : touchExecServiceDetail A := ⟨touchRequest_all h, touchAnswer_all h⟩
theorem execServiceDetail_next {c : ℕ} (hA : touchExecServiceDetail A) : ∃ u, execServiceDetail c s = .next u ∧ Keeps A s u := by
  unfold execServiceDetail
  have h := Keeps.refl A s
  refine ⟨_, rfl, ?_⟩
  obtain ⟨_, _⟩ := hA
  repeat' (first
    | with_reducible assumption
    | intro y
    | (with_reducible apply request_keeps (hA := by first | with_reducible assumption | with_reducible apply_assumption))
    | (with_reducible apply answer_keeps (hA := by first | with_reducible assumption | with_reducible apply_assumption))
    | with_reducible apply keeps_ite
    | split)

def touchExecServiceSelection (A : Part → Prop) (c : Nat) : Prop := touchRequest A ∧ touchAnswer A ∧ A (.inst R.VS_CONN_STAT.MODE c 0) ∧ touchSetConn A
theorem touchExecServiceSelection_all (h : ∀ q, A q) {c : Nat} : touchExecServiceSelection A c := ⟨touchRequest_all h, touchAnswer_all h, h _, touchSetConn_all h⟩
theorem execServiceSelection_next {c : ℕ} {service : ℕ} {mode : ℕ} (hA : touchExecServiceSelection A c) : ∃ u, execServiceSelection c service mode s = .next u ∧ Keeps A s u := by
  unfold execServiceSelection
  have h := Keeps.refl A s
  refine ⟨_, rfl, ?_⟩
  obtain ⟨_, _, _, _⟩ := hA
  repeat' (first
    | with_reducible assumption
    | intro y
    | (extract_lets +onlyGivenNames x; first | (refine cut (P := Keeps A s x) ?_ ?_; (on_goal 1 => (unfold x; clear x)); (on_goal 2 => (intro hx; first | clear_value x | skip))) | clear_value x | skip)
    | (with_reducible apply request_keeps (hA := by first | with_reducible assumption | with_reducible apply_assumption))
    | (with_reducible apply answer_keeps (hA := by first | with_reducible assumption | with_reducible apply_assumption))
    | (with_reducible refine put_keepsAt (by assumption) ?_)
    | (with_reducible refine put_keeps (by assumption) ?_)
    | (with_reducible apply setConn_keeps (hA := by first | with_reducible assumption | with_reducible apply_assumption))
    | with_reducible apply keeps_ite
    | split)

def touchOffer (A : Part → Prop) (c : Nat) : Prop := A (.inst R.VS_CONN_STAT.DIR c 0) ∧ A (.inst R.VS_CONN_OFFER.P_OFF c 0) ∧ A (.inst R.VS_CONN_OFFER.I_OFF c 0) ∧ A (.inst R.VS_CONN_ALLOW.I_ENF c 0) ∧ A (.inst R.VS_CONN_EV.I_EV c 0) ∧ touchComply A c
theorem touchOffer_all (h : ∀ q, A q) {c : Nat} : touchOffer A c := ⟨h _, h _, h _, h _, h _, touchComply_all h⟩
theorem offer_keeps {c : ℕ} (hA : touchOffer A c)  (h : Keeps A s t) : Keeps A s (State.offer t c) := by
  unfold State.offer
  obtain ⟨_, _, _, _, _, _⟩ := hA
  repeat' (first
    | with_reducible assumption
    | intro y
    | (extract_lets +onlyGivenNames x; first | (refine cut (P := Keeps A s x) ?_ ?_; (on_goal 1 => (unfold x; clear x)); (on_goal 2 => (intro hx; first | clear_value x | skip))) | clear_value x | skip)
    | (with_reducible refine putb_keepsAt (by assumption) ?_)
    | (with_reducible refine putb_keeps (by assumption) ?_)
    | (with_reducible refine putMax_keepsAt (by assumption) ?_)
    | (with_reducible refine putMax_keeps (by assumption) ?_)
    | (with_reducible refine put_keepsAt (by assumption) ?_)
    | (with_reducible refine put_keeps (by assumption) ?_)
    | (with_reducible refine putSat_keepsAt (by assumption) ?_)
    | (with_reducible refine putSat_keeps (by assumption) ?_)
    | (with_reducible apply comply_keeps (hA := by first | with_reducible assumption | with_reducible apply_assumption))
    | with_reducible apply keeps_ite
    | split
    | refine keeps_ite ?_ ?_)

def touchExecDcChargeParameterDiscovery (A : Part → Prop) (c : Nat) : Prop := touchRequest A ∧ touchOffer A c ∧ touchSetConn A ∧ touchAnswer A
theorem touchExecDcChargeParameterDiscovery_all (h : ∀ q, A q) {c : Nat} : touchExecDcChargeParameterDiscovery A c := ⟨touchRequest_all h, touchOffer_all h, touchSetConn_all h, touchAnswer_all h⟩
theorem execDcChargeParameterDiscovery_next {c : ℕ} {vMax : ℕ} {vMin : ℕ} {iMax : ℕ} {pMax : ℕ} {iDisMax : Sys2Proof.EvDis} (hA : touchExecDcChargeParameterDiscovery A c) : ∃ u, execDcChargeParameterDiscovery c vMax vMin iMax pMax iDisMax s = .next u ∧ Keeps A s u := by
  unfold execDcChargeParameterDiscovery
  have h := Keeps.refl A s
  refine ⟨_, rfl, ?_⟩
  obtain ⟨_, _, _, _⟩ := hA
  repeat' (first
    | with_reducible assumption
    | intro y
    | (extract_lets +onlyGivenNames x; first | (refine cut (P := Keeps A s x) ?_ ?_; (on_goal 1 => (unfold x; clear x)); (on_goal 2 => (intro hx; first | clear_value x | skip))) | clear_value x | skip)
    | (with_reducible apply request_keeps (hA := by first | with_reducible assumption | with_reducible apply_assumption))
    | (with_reducible apply offer_keeps (hA := by first | with_reducible assumption | with_reducible apply_assumption))
    | (with_reducible apply setConn_keeps (hA := by first | with_reducible assumption | with_reducible apply_assumption))
    | (with_reducible apply answer_keeps (hA := by first | with_reducible assumption | with_reducible apply_assumption))
    | with_reducible apply keeps_ite
    | split
    | refine keeps_ite ?_ ?_)

def touchExecScheduleExchange (A : Part → Prop) (c : Nat) : Prop := touchRequest A ∧ touchOffer A c ∧ touchAnswer A
theorem touchExecScheduleExchange_all (h : ∀ q, A q) {c : Nat} : touchExecScheduleExchange A c := ⟨touchRequest_all h, touchOffer_all h, touchAnswer_all h⟩
theorem execScheduleExchange_next {c : ℕ} (hA : touchExecScheduleExchange A c) : ∃ u, execScheduleExchange c s = .next u ∧ Keeps A s u := by
  unfold execScheduleExchange
  have h := Keeps.refl A s
  refine ⟨_, rfl, ?_⟩
  obtain ⟨_, _, _⟩ := hA
  repeat' (first
    | with_reducible assumption
    | intro y
    | (extract_lets +onlyGivenNames x; first | (refine cut (P := Keeps A s x) ?_ ?_; (on_goal 1 => (unfold x; clear x)); (on_goal 2 => (intro hx; first | clear_value x | skip))) | clear_value x | skip)
    | (with_reducible apply request_keeps (hA := by first | with_reducible assumption | with_reducible apply_assumption))
    | (with_reducible apply offer_keeps (hA := by first | with_reducible assumption | with_reducible apply_assumption))
    | (with_reducible apply answer_keeps (hA := by first | with_reducible assumption | with_reducible apply_assumption))
    | with_reducible apply keeps_ite
    | split
    | refine keeps_ite ?_ ?_)

def touchExecDcCableCheck (A : Part → Prop) (c : Nat) : Prop := touchRequest A ∧ touchFastStop A c ∧ (∀ x0, touchLswCommand A x0) ∧ touchConnState A c ∧ touchAnswer A
theorem touchExecDcCableCheck_all (h : ∀ q, A q) {c : Nat} : touchExecDcCableCheck A c := ⟨touchRequest_all h, touchFastStop_all h, fun _ => touchLswCommand_all h, touchConnState_all h, touchAnswer_all h⟩
theorem execDcCableCheck_next {c : ℕ} (hA : touchExecDcCableCheck A c) : ∃ u, execDcCableCheck c s = .next u ∧ Keeps A s u := by
  unfold execDcCableCheck
  have h := Keeps.refl A s
  refine ⟨_, rfl, ?_⟩
  obtain ⟨_, _, _, _, _⟩ := hA
  repeat' (first
    | with_reducible assumption
    | intro y
    | (extract_lets +onlyGivenNames x; first | (refine cut (P := Keeps A s x) ?_ ?_; (on_goal 1 => (unfold x; clear x)); (on_goal 2 => (intro hx; first | clear_value x | skip))) | clear_value x | skip)
    | (with_reducible apply request_keeps (hA := by first | with_reducible assumption | with_reducible apply_assumption))
    | (with_reducible apply fastStop_keeps (hA := by first | with_reducible assumption | with_reducible apply_assumption))
    | (with_reducible apply lswCommand_keeps (hA := by first | with_reducible assumption | with_reducible apply_assumption))
    | (with_reducible apply connState_keeps (hA := by first | with_reducible assumption | with_reducible apply_assumption))
    | (with_reducible apply answer_keeps (hA := by first | with_reducible assumption | with_reducible apply_assumption))
    | with_reducible apply keeps_ite
    | split
    | refine keeps_ite ?_ ?_)

def touchExecDcPlusClose (A : Part → Prop) : Prop := (∀ x0, touchLswCommand A x0) ∧ touchSetConn A
theorem touchExecDcPlusClose_all (h : ∀ q, A q) : touchExecDcPlusClose A := ⟨(fun _ => touchLswCommand_all h), touchSetConn_all h⟩
theorem execDcPlusClose_next {c : ℕ} {ms : ℕ} (hA : touchExecDcPlusClose A) : ∃ u, execDcPlusClose c ms s = .next u ∧ Keeps A s u := by
  unfold execDcPlusClose
  have h := Keeps.refl A s
  refine ⟨_, rfl, ?_⟩
  obtain ⟨_, _⟩ := hA
  repeat' (first
    | with_reducible assumption
    | intro y
    | (extract_lets +onlyGivenNames x; first | (refine cut (P := Keeps A s x) ?_ ?_; (on_goal 1 => (unfold x; clear x)); (on_goal 2 => (intro hx; first | clear_value x | skip))) | clear_value x | skip)
    | (with_reducible apply lswCommand_keeps (hA := by first | with_reducible assumption | with_reducible apply_assumption))
    | (with_reducible apply setConn_keeps (hA := by first | with_reducible assumption | with_reducible apply_assumption))
    | with_reducible apply keeps_ite
    | split
    | refine keeps_ite ?_ ?_)

def touchFeedEnable (A : Part → Prop) : Prop := (∀ x0, touchGroupEnable A x0) ∧ (∀ x0, touchGroupDisable A x0)
theorem touchFeedEnable_all (h : ∀ q, A q) : touchFeedEnable A := ⟨fun _ => touchGroupEnable_all h, fun _ => touchGroupDisable_all h⟩
theorem feedEnable_keeps {c : ℕ} {on : Bool} (hA : touchFeedEnable A)  (h : Keeps A s t) : Keeps A s (State.feedEnable t c on) := by
  unfold State.feedEnable
  obtain ⟨_, _⟩ := hA
  repeat' (first
    | with_reducible assumption
    | intro y
    | (with_reducible apply groupEnable_keeps (hA := by first | with_reducible assumption | with_reducible apply_assumption))
    | (with_reducible apply groupDisable_keeps (hA := by first | with_reducible assumption | with_reducible apply_assumption))
    | with_reducible apply keeps_ite
    | split)

def touchExecCableCheckStart (A : Part → Prop) (c : Nat) : Prop := touchFeedEnable A ∧ touchConnDrive A c ∧ touchSetConn A ∧ touchConnState A c
theorem touchExecCableCheckStart_all (h : ∀ q, A q) {c : Nat} : touchExecCableCheckStart A c := ⟨touchFeedEnable_all h, touchConnDrive_all h, touchSetConn_all h, touchConnState_all h⟩
theorem execCableCheckStart_next {c : ℕ} {ms : ℕ} (hA : touchExecCableCheckStart A c) : ∃ u, execCableCheckStart c ms s = .next u ∧ Keeps A s u := by
  unfold execCableCheckStart
  have h := Keeps.refl A s
  refine ⟨_, rfl, ?_⟩
  obtain ⟨_, _, _, _⟩ := hA
  repeat' (first
    | with_reducible assumption
    | intro y
    | (extract_lets +onlyGivenNames x; first | (refine cut (P := Keeps A s x) ?_ ?_; (on_goal 1 => (unfold x; clear x)); (on_goal 2 => (intro hx; first | clear_value x | skip))) | clear_value x | skip)
    | (with_reducible apply feedEnable_keeps (hA := by first | with_reducible assumption | with_reducible apply_assumption))
    | (with_reducible apply connDrive_keeps (hA := by first | with_reducible assumption | with_reducible apply_assumption))
    | (with_reducible apply setConn_keeps (hA := by first | with_reducible assumption | with_reducible apply_assumption))
    | (with_reducible apply connState_keeps (hA := by first | with_reducible assumption | with_reducible apply_assumption))
    | with_reducible apply keeps_ite
    | split
    | refine keeps_ite ?_ ?_)

def touchExecCableCheckFinish (A : Part → Prop) : Prop := touchSetConn A
theorem touchExecCableCheckFinish_all (h : ∀ q, A q) : touchExecCableCheckFinish A := touchSetConn_all h
theorem execCableCheckFinish_next {c : ℕ} {ms : ℕ} {isoMs : ℕ} (hA : touchExecCableCheckFinish A) : ∃ u, execCableCheckFinish c ms isoMs s = .next u ∧ Keeps A s u := by
  unfold execCableCheckFinish
  have h := Keeps.refl A s
  refine ⟨_, rfl, ?_⟩
  unfold touchExecCableCheckFinish at hA
  repeat' (first
    | with_reducible assumption
    | intro y
    | (extract_lets +onlyGivenNames x; first | (refine cut (P := Keeps A s x) ?_ ?_; (on_goal 1 => (unfold x; clear x)); (on_goal 2 => (intro hx; first | clear_value x | skip))) | clear_value x | skip)
    | (with_reducible apply setConn_keeps (hA := by first | with_reducible assumption | with_reducible apply_assumption))
    | with_reducible apply keeps_ite
    | split
    | refine keeps_ite ?_ ?_)

def touchExecDcPreCharge (A : Part → Prop) (c : Nat) : Prop := touchRequest A ∧ touchConnDrive A c ∧ touchConnState A c ∧ A (.inst R.VS_CONN_EV.V_EV c 0) ∧ touchSetConn A ∧ touchAnswer A
theorem touchExecDcPreCharge_all (h : ∀ q, A q) {c : Nat} : touchExecDcPreCharge A c := ⟨touchRequest_all h, touchConnDrive_all h, touchConnState_all h, h _, touchSetConn_all h, touchAnswer_all h⟩
theorem execDcPreCharge_next {c : ℕ} {v : ℕ} (hA : touchExecDcPreCharge A c) : ∃ u, execDcPreCharge c v s = .next u ∧ Keeps A s u := by
  unfold execDcPreCharge
  have h := Keeps.refl A s
  refine ⟨_, rfl, ?_⟩
  obtain ⟨_, _, _, _, _, _⟩ := hA
  repeat' (first
    | with_reducible assumption
    | intro y
    | (extract_lets +onlyGivenNames x; first | (refine cut (P := Keeps A s x) ?_ ?_; (on_goal 1 => (unfold x; clear x)); (on_goal 2 => (intro hx; first | clear_value x | skip))) | clear_value x | skip)
    | (with_reducible refine put_keepsAt (by assumption) ?_)
    | (with_reducible refine put_keeps (by assumption) ?_)
    | (with_reducible apply request_keeps (hA := by first | with_reducible assumption | with_reducible apply_assumption))
    | (with_reducible apply connDrive_keeps (hA := by first | with_reducible assumption | with_reducible apply_assumption))
    | (with_reducible apply connState_keeps (hA := by first | with_reducible assumption | with_reducible apply_assumption))
    | (with_reducible apply setConn_keeps (hA := by first | with_reducible assumption | with_reducible apply_assumption))
    | (with_reducible apply answer_keeps (hA := by first | with_reducible assumption | with_reducible apply_assumption))
    | with_reducible apply keeps_ite
    | split
    | refine keeps_ite ?_ ?_)

def touchExecPowerDeliveryStart (A : Part → Prop) (c : Nat) : Prop := touchRequest A ∧ touchBillOpen A ∧ A (.inst R.VS_CONN_CNT.SESS c 0) ∧ touchConnState A c ∧ touchSetConn A ∧ touchFastEval A c ∧ touchAnswer A ∧ touchLog A ∧ A (.inst R.VS_CONN_STAT.FAST c 0) ∧ touchConnEnd A c
theorem touchExecPowerDeliveryStart_all (h : ∀ q, A q) {c : Nat} : touchExecPowerDeliveryStart A c := ⟨touchRequest_all h, touchBillOpen_all h, h _, touchConnState_all h, touchSetConn_all h, touchFastEval_all h, touchAnswer_all h, touchLog_all h, h _, touchConnEnd_all h⟩
theorem execPowerDeliveryStart_next {c : ℕ} (hA : touchExecPowerDeliveryStart A c) : ∃ u, execPowerDeliveryStart c s = .next u ∧ Keeps A s u := by
  unfold execPowerDeliveryStart
  have h := Keeps.refl A s
  refine ⟨_, rfl, ?_⟩
  obtain ⟨_, _, _, _, _, _, _, _, _, _⟩ := hA
  repeat' (first
    | with_reducible assumption
    | intro y
    | (extract_lets +onlyGivenNames x; first | (refine cut (P := Keeps A s x) ?_ ?_; (on_goal 1 => (unfold x; clear x)); (on_goal 2 => (intro hx; first | clear_value x | skip))) | (refine cut (P := Keeps A s x.2) ?_ ?_; (on_goal 1 => (unfold x; clear x)); (on_goal 2 => (intro hx; first | clear_value x | skip))) | (refine cut (P := Keeps A s x.2.2) ?_ ?_; (on_goal 1 => (unfold x; clear x)); (on_goal 2 => (intro hx; first | clear_value x | skip))) | clear_value x | skip)
    | (with_reducible refine put_keepsAt (by assumption) ?_)
    | (with_reducible refine put_keeps (by assumption) ?_)
    | (with_reducible refine inc_keepsAt (by assumption) ?_)
    | (with_reducible refine inc_keeps (by assumption) ?_)
    | (with_reducible apply request_keeps (hA := by first | with_reducible assumption | with_reducible apply_assumption))
    | (with_reducible apply billOpen_keeps (hA := by first | with_reducible assumption | with_reducible apply_assumption))
    | (with_reducible apply connState_keeps (hA := by first | with_reducible assumption | with_reducible apply_assumption))
    | (with_reducible apply setConn_keeps (hA := by first | with_reducible assumption | with_reducible apply_assumption))
    | (with_reducible apply fastEval_keeps (hA := by first | with_reducible assumption | with_reducible apply_assumption))
    | (with_reducible apply answer_keeps (hA := by first | with_reducible assumption | with_reducible apply_assumption))
    | (with_reducible apply log_keeps (hA := by first | with_reducible assumption | with_reducible apply_assumption))
    | (with_reducible apply connEnd_keeps (hA := by first | with_reducible assumption | with_reducible apply_assumption))
    | with_reducible apply keeps_ite
    | with_reducible apply keeps_ite2
    | with_reducible apply keeps_ite3
    | split
    | refine keeps_ite ?_ ?_)

def touchExecPowerDeliveryStop (A : Part → Prop) (c : Nat) : Prop := touchRequest A ∧ touchAnswer A ∧ touchStopConn A c
theorem touchExecPowerDeliveryStop_all (h : ∀ q, A q) {c : Nat} : touchExecPowerDeliveryStop A c := ⟨touchRequest_all h, touchAnswer_all h, touchStopConn_all h⟩
theorem execPowerDeliveryStop_next {c : ℕ} (hA : touchExecPowerDeliveryStop A c) : ∃ u, execPowerDeliveryStop c s = .next u ∧ Keeps A s u := by
  unfold execPowerDeliveryStop
  have h := Keeps.refl A s
  refine ⟨_, rfl, ?_⟩
  obtain ⟨_, _, _⟩ := hA
  repeat' (first
    | with_reducible assumption
    | intro y
    | (with_reducible apply request_keeps (hA := by first | with_reducible assumption | with_reducible apply_assumption))
    | (with_reducible apply answer_keeps (hA := by first | with_reducible assumption | with_reducible apply_assumption))
    | (with_reducible apply stopConn_keeps (hA := by first | with_reducible assumption | with_reducible apply_assumption))
    | with_reducible apply keeps_ite
    | split)

def touchExecStandby (A : Part → Prop) : Prop := touchRequest A ∧ touchAnswer A ∧ touchSetConn A
theorem touchExecStandby_all (h : ∀ q, A q) : touchExecStandby A := ⟨touchRequest_all h, touchAnswer_all h, touchSetConn_all h⟩
theorem execStandby_next {c : ℕ} (hA : touchExecStandby A) : ∃ u, execStandby c s = .next u ∧ Keeps A s u := by
  unfold execStandby
  have h := Keeps.refl A s
  refine ⟨_, rfl, ?_⟩
  obtain ⟨_, _, _⟩ := hA
  repeat' (first
    | with_reducible assumption
    | intro y
    | (extract_lets +onlyGivenNames x; first | (refine cut (P := Keeps A s x) ?_ ?_; (on_goal 1 => (unfold x; clear x)); (on_goal 2 => (intro hx; first | clear_value x | skip))) | clear_value x | skip)
    | (with_reducible apply request_keeps (hA := by first | with_reducible assumption | with_reducible apply_assumption))
    | (with_reducible apply answer_keeps (hA := by first | with_reducible assumption | with_reducible apply_assumption))
    | (with_reducible apply setConn_keeps (hA := by first | with_reducible assumption | with_reducible apply_assumption))
    | with_reducible apply keeps_ite
    | split)

def touchExecScheduleRenegotiation (A : Part → Prop) : Prop := touchRequest A ∧ touchAnswer A
theorem touchExecScheduleRenegotiation_all (h : ∀ q, A q) : touchExecScheduleRenegotiation A := ⟨touchRequest_all h, touchAnswer_all h⟩
theorem execScheduleRenegotiation_next {c : ℕ} (hA : touchExecScheduleRenegotiation A) : ∃ u, execScheduleRenegotiation c s = .next u ∧ Keeps A s u := by
  unfold execScheduleRenegotiation
  have h := Keeps.refl A s
  refine ⟨_, rfl, ?_⟩
  obtain ⟨_, _⟩ := hA
  repeat' (first
    | with_reducible assumption
    | intro y
    | (with_reducible apply request_keeps (hA := by first | with_reducible assumption | with_reducible apply_assumption))
    | (with_reducible apply answer_keeps (hA := by first | with_reducible assumption | with_reducible apply_assumption))
    | with_reducible apply keeps_ite
    | split)

def touchExecDcChargeLoop (A : Part → Prop) (c : Nat) : Prop := touchRequest A ∧ A (.inst R.VS_CONN_EV.V_EV c 0) ∧ touchSetConn A ∧ touchOffer A c ∧ touchAnswer A
theorem touchExecDcChargeLoop_all (h : ∀ q, A q) {c : Nat} : touchExecDcChargeLoop A c := ⟨touchRequest_all h, h _, touchSetConn_all h, touchOffer_all h, touchAnswer_all h⟩
theorem execDcChargeLoop_next {c : ℕ} {v : ℕ} {i : ℤ} {vMax : ℕ} {vMin : ℕ} {iMax : ℕ} {pMax : ℕ} {iDisMax : Sys2Proof.EvDis} (hA : touchExecDcChargeLoop A c) : ∃ u, execDcChargeLoop c v i vMax vMin iMax pMax iDisMax s = .next u ∧ Keeps A s u := by
  unfold execDcChargeLoop
  have h := Keeps.refl A s
  refine ⟨_, rfl, ?_⟩
  obtain ⟨_, _, _, _, _⟩ := hA
  repeat' (first
    | with_reducible assumption
    | intro y
    | (extract_lets +onlyGivenNames x; first | (refine cut (P := Keeps A s x) ?_ ?_; (on_goal 1 => (unfold x; clear x)); (on_goal 2 => (intro hx; first | clear_value x | skip))) | clear_value x | skip)
    | (with_reducible refine put_keepsAt (by assumption) ?_)
    | (with_reducible refine put_keeps (by assumption) ?_)
    | (with_reducible apply request_keeps (hA := by first | with_reducible assumption | with_reducible apply_assumption))
    | (with_reducible apply setConn_keeps (hA := by first | with_reducible assumption | with_reducible apply_assumption))
    | (with_reducible apply offer_keeps (hA := by first | with_reducible assumption | with_reducible apply_assumption))
    | (with_reducible apply answer_keeps (hA := by first | with_reducible assumption | with_reducible apply_assumption))
    | with_reducible apply keeps_ite
    | split
    | refine keeps_ite ?_ ?_)

def touchExecDcWeldingDetection (A : Part → Prop) : Prop := touchRequest A ∧ touchAnswer A
theorem touchExecDcWeldingDetection_all (h : ∀ q, A q) : touchExecDcWeldingDetection A := ⟨touchRequest_all h, touchAnswer_all h⟩
theorem execDcWeldingDetection_next {c : ℕ} (hA : touchExecDcWeldingDetection A) : ∃ u, execDcWeldingDetection c s = .next u ∧ Keeps A s u := by
  unfold execDcWeldingDetection
  have h := Keeps.refl A s
  refine ⟨_, rfl, ?_⟩
  obtain ⟨_, _⟩ := hA
  repeat' (first
    | with_reducible assumption
    | intro y
    | (with_reducible apply request_keeps (hA := by first | with_reducible assumption | with_reducible apply_assumption))
    | (with_reducible apply answer_keeps (hA := by first | with_reducible assumption | with_reducible apply_assumption))
    | with_reducible apply keeps_ite
    | split)

def touchExecSessionStop (A : Part → Prop) (c : Nat) : Prop := touchRequest A ∧ touchAnswer A ∧ touchStopConn A c
theorem touchExecSessionStop_all (h : ∀ q, A q) {c : Nat} : touchExecSessionStop A c := ⟨touchRequest_all h, touchAnswer_all h, touchStopConn_all h⟩
theorem execSessionStop_next {c : ℕ} (hA : touchExecSessionStop A c) : ∃ u, execSessionStop c s = .next u ∧ Keeps A s u := by
  unfold execSessionStop
  have h := Keeps.refl A s
  refine ⟨_, rfl, ?_⟩
  obtain ⟨_, _, _⟩ := hA
  repeat' (first
    | with_reducible assumption
    | intro y
    | (with_reducible apply request_keeps (hA := by first | with_reducible assumption | with_reducible apply_assumption))
    | (with_reducible apply answer_keeps (hA := by first | with_reducible assumption | with_reducible apply_assumption))
    | (with_reducible apply stopConn_keeps (hA := by first | with_reducible assumption | with_reducible apply_assumption))
    | with_reducible apply keeps_ite
    | split)

def touchExecFastStop (A : Part → Prop) (c : Nat) : Prop := touchFastStop A c
theorem touchExecFastStop_all (h : ∀ q, A q) {c : Nat} : touchExecFastStop A c := touchFastStop_all h
theorem execFastStop_next {c : ℕ} {seqTimeout : Bool} (hA : touchExecFastStop A c) : ∃ u, execFastStop c seqTimeout s = .next u ∧ Keeps A s u := by
  unfold execFastStop
  have h := Keeps.refl A s
  refine ⟨_, rfl, ?_⟩
  unfold touchExecFastStop at hA
  repeat' (first
    | with_reducible assumption
    | intro y
    | (extract_lets +onlyGivenNames x; first | (refine cut (P := Keeps A s x) ?_ ?_; (on_goal 1 => (unfold x; clear x)); (on_goal 2 => (intro hx; first | clear_value x | skip))) | clear_value x | skip)
    | (with_reducible apply fastStop_keeps (hA := by first | with_reducible assumption | with_reducible apply_assumption))
    | with_reducible apply keeps_ite
    | split
    | refine keeps_ite ?_ ?_)

def touchAuthEnd (A : Part → Prop) (c : Nat) : Prop := touchFastStop A c ∧ touchAnswer A ∧ A (.inst R.VS_CONN_STAT.FAST c 0) ∧ touchConnEnd A c ∧ touchConnState A c
theorem touchAuthEnd_all (h : ∀ q, A q) {c : Nat} : touchAuthEnd A c := ⟨touchFastStop_all h, touchAnswer_all h, h _, touchConnEnd_all h, touchConnState_all h⟩
theorem authEnd_keeps {c : ℕ} (hA : touchAuthEnd A c)  (h : Keeps A s t) : Keeps A s (State.authEnd t c) := by
  unfold State.authEnd
  obtain ⟨_, _, _, _, _⟩ := hA
  repeat' (first
    | with_reducible assumption
    | intro y
    | (extract_lets +onlyGivenNames x; first | (refine cut (P := Keeps A s x) ?_ ?_; (on_goal 1 => (unfold x; clear x)); (on_goal 2 => (intro hx; first | clear_value x | skip))) | clear_value x | skip)
    | (with_reducible refine put_keepsAt (by assumption) ?_)
    | (with_reducible refine put_keeps (by assumption) ?_)
    | (with_reducible apply fastStop_keeps (hA := by first | with_reducible assumption | with_reducible apply_assumption))
    | (with_reducible apply answer_keeps (hA := by first | with_reducible assumption | with_reducible apply_assumption))
    | (with_reducible apply connEnd_keeps (hA := by first | with_reducible assumption | with_reducible apply_assumption))
    | (with_reducible apply connState_keeps (hA := by first | with_reducible assumption | with_reducible apply_assumption))
    | with_reducible apply keeps_ite
    | split
    | refine keeps_ite ?_ ?_)

def touchAuthWrite (A : Part → Prop) (c : Nat) : Prop := A (.inst R.VS_CONN_AUTH.AUTH c 0) ∧ touchAuthEnd A c
theorem touchAuthWrite_all (h : ∀ q, A q) {c : Nat} : touchAuthWrite A c := ⟨h _, touchAuthEnd_all h⟩
theorem authWrite_keeps {c : ℕ} {v : ℕ} (hA : touchAuthWrite A c)  (h : Keeps A s t) : Keeps A s (State.authWrite t c v) := by
  unfold State.authWrite
  obtain ⟨_, _⟩ := hA
  repeat' (first
    | with_reducible assumption
    | intro y
    | (extract_lets +onlyGivenNames x; first | (refine cut (P := Keeps A s x) ?_ ?_; (on_goal 1 => (unfold x; clear x)); (on_goal 2 => (intro hx; first | clear_value x | skip))) | clear_value x | skip)
    | (with_reducible refine put_keepsAt (by assumption) ?_)
    | (with_reducible refine put_keeps (by assumption) ?_)
    | (with_reducible apply authEnd_keeps (hA := by first | with_reducible assumption | with_reducible apply_assumption))
    | with_reducible apply keeps_ite
    | split
    | refine keeps_ite ?_ ?_)

def touchExecAuthWrite (A : Part → Prop) (c : Nat) : Prop := touchGuarded A ∧ touchAuthWrite A c
theorem touchExecAuthWrite_all (h : ∀ q, A q) {c : Nat} : touchExecAuthWrite A c := ⟨touchGuarded_all h, touchAuthWrite_all h⟩
theorem execAuthWrite_next {sess : ℕ} {c : ℕ} {v : ℕ} (hA : touchExecAuthWrite A c) : ∃ u, execAuthWrite sess c v s = .next u ∧ Keeps A s u := by
  unfold execAuthWrite
  have h := Keeps.refl A s
  refine ⟨_, rfl, ?_⟩
  obtain ⟨_, _⟩ := hA
  repeat' (first
    | with_reducible assumption
    | intro y
    | (with_reducible apply guarded_keeps (hA := by first | with_reducible assumption | with_reducible apply_assumption))
    | (with_reducible apply authWrite_keeps (hA := by first | with_reducible assumption | with_reducible apply_assumption))
    | with_reducible apply keeps_ite
    | split)

def touchExecAuthTimeout (A : Part → Prop) (c : Nat) : Prop := touchAuthEnd A c ∧ A (.inst R.VS_CONN_AUTH.AUTH c 0)
theorem touchExecAuthTimeout_all (h : ∀ q, A q) {c : Nat} : touchExecAuthTimeout A c := ⟨touchAuthEnd_all h, h _⟩
theorem execAuthTimeout_next {c : ℕ} {secs : Sys2Proof.AuthWait} (hA : touchExecAuthTimeout A c) : ∃ u, execAuthTimeout c secs s = .next u ∧ Keeps A s u := by
  unfold execAuthTimeout
  have h := Keeps.refl A s
  refine ⟨_, rfl, ?_⟩
  obtain ⟨_, _⟩ := hA
  repeat' (first
    | with_reducible assumption
    | intro y
    | (extract_lets +onlyGivenNames x; first | (refine cut (P := Keeps A s x) ?_ ?_; (on_goal 1 => (unfold x; clear x)); (on_goal 2 => (intro hx; first | clear_value x | skip))) | clear_value x | skip)
    | (with_reducible refine put_keepsAt (by assumption) ?_)
    | (with_reducible refine put_keeps (by assumption) ?_)
    | (with_reducible apply authEnd_keeps (hA := by first | with_reducible assumption | with_reducible apply_assumption))
    | with_reducible apply when_keeps
    | with_reducible apply keeps_ite
    | split
    | refine keeps_ite ?_ ?_)

def touchExecPreTimeout (A : Part → Prop) (c : Nat) : Prop := A (.inst R.VS_CONN_STAT.FAST c 0) ∧ touchConnEnd A c ∧ touchConnState A c
theorem touchExecPreTimeout_all (h : ∀ q, A q) {c : Nat} : touchExecPreTimeout A c := ⟨h _, touchConnEnd_all h, touchConnState_all h⟩
theorem execPreTimeout_next {c : ℕ} {ms : ℕ} (hA : touchExecPreTimeout A c) : ∃ u, execPreTimeout c ms s = .next u ∧ Keeps A s u := by
  unfold execPreTimeout
  have h := Keeps.refl A s
  refine ⟨_, rfl, ?_⟩
  obtain ⟨_, _, _⟩ := hA
  repeat' (first
    | with_reducible assumption
    | intro y
    | (with_reducible refine put_keepsAt (by assumption) ?_)
    | (with_reducible refine put_keeps (by assumption) ?_)
    | (with_reducible apply connEnd_keeps (hA := by first | with_reducible assumption | with_reducible apply_assumption))
    | (with_reducible apply connState_keeps (hA := by first | with_reducible assumption | with_reducible apply_assumption))
    | with_reducible apply keeps_ite
    | split)

def touchExecCurrentDecayed (A : Part → Prop) (c : Nat) : Prop := touchBillEnd A ∧ touchFeedEnable A ∧ touchConnState A c ∧ touchSetConn A ∧ (∀ x0, touchLswCommand A x0)
theorem touchExecCurrentDecayed_all (h : ∀ q, A q) {c : Nat} : touchExecCurrentDecayed A c := ⟨touchBillEnd_all h, touchFeedEnable_all h, touchConnState_all h, touchSetConn_all h, fun _ => touchLswCommand_all h⟩
theorem execCurrentDecayed_next {c : ℕ} {ms : ℕ} (hA : touchExecCurrentDecayed A c) : ∃ u, execCurrentDecayed c ms s = .next u ∧ Keeps A s u := by
  unfold execCurrentDecayed
  have h := Keeps.refl A s
  refine ⟨_, rfl, ?_⟩
  obtain ⟨_, _, _, _, _⟩ := hA
  repeat' (first
    | with_reducible assumption
    | intro y
    | (extract_lets +onlyGivenNames x; first | (refine cut (P := Keeps A s x) ?_ ?_; (on_goal 1 => (unfold x; clear x)); (on_goal 2 => (intro hx; first | clear_value x | skip))) | clear_value x | skip)
    | (with_reducible apply billEnd_keeps (hA := by first | with_reducible assumption | with_reducible apply_assumption))
    | (with_reducible apply feedEnable_keeps (hA := by first | with_reducible assumption | with_reducible apply_assumption))
    | (with_reducible apply connState_keeps (hA := by first | with_reducible assumption | with_reducible apply_assumption))
    | (with_reducible apply setConn_keeps (hA := by first | with_reducible assumption | with_reducible apply_assumption))
    | (with_reducible apply lswCommand_keeps (hA := by first | with_reducible assumption | with_reducible apply_assumption))
    | with_reducible apply keeps_ite
    | split
    | refine keeps_ite ?_ ?_)

def touchExecDecayTimeout (A : Part → Prop) (c : Nat) : Prop := touchReqSafeOff A ∧ touchLog A ∧ touchConnFault A c
theorem touchExecDecayTimeout_all (h : ∀ q, A q) {c : Nat} : touchExecDecayTimeout A c := ⟨touchReqSafeOff_all h, touchLog_all h, touchConnFault_all h⟩
theorem execDecayTimeout_next {c : ℕ} {ms : ℕ} (hA : touchExecDecayTimeout A c) : ∃ u, execDecayTimeout c ms s = .next u ∧ Keeps A s u := by
  unfold execDecayTimeout
  have h := Keeps.refl A s
  refine ⟨_, rfl, ?_⟩
  obtain ⟨_, _, _⟩ := hA
  repeat' (first
    | with_reducible assumption
    | intro y
    | (with_reducible apply reqSafeOff_keeps (hA := by first | with_reducible assumption | with_reducible apply_assumption))
    | (with_reducible apply log_keeps (hA := by first | with_reducible assumption | with_reducible apply_assumption))
    | (with_reducible apply connFault_keeps (hA := by first | with_reducible assumption | with_reducible apply_assumption))
    | with_reducible apply keeps_ite
    | split)

def touchExecDcMinusOpen (A : Part → Prop) : Prop := (∀ x0, touchLswCommand A x0)
theorem touchExecDcMinusOpen_all (h : ∀ q, A q) : touchExecDcMinusOpen A := fun _ => touchLswCommand_all h
theorem execDcMinusOpen_next {c : ℕ} {ms : ℕ} (hA : touchExecDcMinusOpen A) : ∃ u, execDcMinusOpen c ms s = .next u ∧ Keeps A s u := by
  unfold execDcMinusOpen
  have h := Keeps.refl A s
  refine ⟨_, rfl, ?_⟩
  unfold touchExecDcMinusOpen at hA
  repeat' (first
    | with_reducible assumption
    | intro y
    | (with_reducible apply lswCommand_keeps (hA := by first | with_reducible assumption | with_reducible apply_assumption))
    | with_reducible apply keeps_ite
    | split)

def touchExecWeldCheck (A : Part → Prop) (c : Nat) : Prop := touchConnDrive A c ∧ touchConnState A c ∧ touchConnOver A c
theorem touchExecWeldCheck_all (h : ∀ q, A q) {c : Nat} : touchExecWeldCheck A c := ⟨touchConnDrive_all h, touchConnState_all h, touchConnOver_all h⟩
theorem execWeldCheck_next {c : ℕ} {ms : ℕ} (hA : touchExecWeldCheck A c) : ∃ u, execWeldCheck c ms s = .next u ∧ Keeps A s u := by
  unfold execWeldCheck
  have h := Keeps.refl A s
  refine ⟨_, rfl, ?_⟩
  obtain ⟨_, _, _⟩ := hA
  repeat' (first
    | with_reducible assumption
    | intro y
    | (extract_lets +onlyGivenNames x; first | (refine cut (P := Keeps A s x) ?_ ?_; (on_goal 1 => (unfold x; clear x)); (on_goal 2 => (intro hx; first | clear_value x | skip))) | clear_value x | skip)
    | (with_reducible apply connDrive_keeps (hA := by first | with_reducible assumption | with_reducible apply_assumption))
    | (with_reducible apply connState_keeps (hA := by first | with_reducible assumption | with_reducible apply_assumption))
    | (with_reducible apply connOver_keeps (hA := by first | with_reducible assumption | with_reducible apply_assumption))
    | with_reducible apply keeps_ite
    | split
    | refine keeps_ite ?_ ?_)

def touchExecWeldCheckComplete (A : Part → Prop) (c : Nat) : Prop := touchLimitsZero A c ∧ touchLog A ∧ touchConnFault A c ∧ touchConnOver A c
theorem touchExecWeldCheckComplete_all (h : ∀ q, A q) {c : Nat} : touchExecWeldCheckComplete A c := ⟨touchLimitsZero_all h, touchLog_all h, touchConnFault_all h, touchConnOver_all h⟩
theorem execWeldCheckComplete_next {c : ℕ} {ms : ℕ} {followed : Bool} (hA : touchExecWeldCheckComplete A c) : ∃ u, execWeldCheckComplete c ms followed s = .next u ∧ Keeps A s u := by
  unfold execWeldCheckComplete
  have h := Keeps.refl A s
  refine ⟨_, rfl, ?_⟩
  obtain ⟨_, _, _, _⟩ := hA
  repeat' (first
    | with_reducible assumption
    | intro y
    | (extract_lets +onlyGivenNames x; first | (refine cut (P := Keeps A s x) ?_ ?_; (on_goal 1 => (unfold x; clear x)); (on_goal 2 => (intro hx; first | clear_value x | skip))) | clear_value x | skip)
    | (with_reducible apply limitsZero_keeps (hA := by first | with_reducible assumption | with_reducible apply_assumption))
    | (with_reducible apply log_keeps (hA := by first | with_reducible assumption | with_reducible apply_assumption))
    | (with_reducible apply connFault_keeps (hA := by first | with_reducible assumption | with_reducible apply_assumption))
    | (with_reducible apply connOver_keeps (hA := by first | with_reducible assumption | with_reducible apply_assumption))
    | with_reducible apply keeps_ite
    | split
    | refine keeps_ite ?_ ?_)

def touchExecUnplug (A : Part → Prop) (c : Nat) : Prop := touchLog A ∧ touchConnState A c ∧ touchSetConn A
theorem touchExecUnplug_all (h : ∀ q, A q) {c : Nat} : touchExecUnplug A c := ⟨touchLog_all h, touchConnState_all h, touchSetConn_all h⟩
theorem execUnplug_next {c : ℕ} {ms : ℕ} (hA : touchExecUnplug A c) : ∃ u, execUnplug c ms s = .next u ∧ Keeps A s u := by
  unfold execUnplug
  have h := Keeps.refl A s
  refine ⟨_, rfl, ?_⟩
  obtain ⟨_, _, _⟩ := hA
  repeat' (first
    | with_reducible assumption
    | intro y
    | (extract_lets +onlyGivenNames x; first | (refine cut (P := Keeps A s x) ?_ ?_; (on_goal 1 => (unfold x; clear x)); (on_goal 2 => (intro hx; first | clear_value x | skip))) | clear_value x | skip)
    | (with_reducible apply log_keeps (hA := by first | with_reducible assumption | with_reducible apply_assumption))
    | (with_reducible apply connState_keeps (hA := by first | with_reducible assumption | with_reducible apply_assumption))
    | (with_reducible apply setConn_keeps (hA := by first | with_reducible assumption | with_reducible apply_assumption))
    | with_reducible apply keeps_ite
    | split)

def touchStopWrite (A : Part → Prop) (c : Nat) : Prop := touchStopConn A c
theorem touchStopWrite_all (h : ∀ q, A q) {c : Nat} : touchStopWrite A c := touchStopConn_all h
theorem stopWrite_keeps {c : ℕ} (hA : touchStopWrite A c)  (h : Keeps A s t) : Keeps A s (State.stopWrite t c) := by
  unfold State.stopWrite
  unfold touchStopWrite at hA
  repeat' (first
    | with_reducible assumption
    | intro y
    | (with_reducible apply stopConn_keeps (hA := by first | with_reducible assumption | with_reducible apply_assumption))
    | with_reducible apply keeps_ite
    | split)

def touchExecStopCommand (A : Part → Prop) (c : Nat) : Prop := touchGuarded A ∧ touchStopWrite A c
theorem touchExecStopCommand_all (h : ∀ q, A q) {c : Nat} : touchExecStopCommand A c := ⟨touchGuarded_all h, touchStopWrite_all h⟩
theorem execStopCommand_next {sess : ℕ} {c : ℕ} (hA : touchExecStopCommand A c) : ∃ u, execStopCommand sess c s = .next u ∧ Keeps A s u := by
  unfold execStopCommand
  have h := Keeps.refl A s
  refine ⟨_, rfl, ?_⟩
  obtain ⟨_, _⟩ := hA
  repeat' (first
    | with_reducible assumption
    | intro y
    | (with_reducible apply guarded_keeps (hA := by first | with_reducible assumption | with_reducible apply_assumption))
    | (with_reducible apply stopWrite_keeps (hA := by first | with_reducible assumption | with_reducible apply_assumption))
    | with_reducible apply keeps_ite
    | split)

def touchConnClr (A : Part → Prop) (c : Nat) : Prop := touchConnState A c ∧ touchSetConn A
theorem touchConnClr_all (h : ∀ q, A q) {c : Nat} : touchConnClr A c := ⟨touchConnState_all h, touchSetConn_all h⟩
theorem connClr_keeps {c : ℕ} (hA : touchConnClr A c)  (h : Keeps A s t) : Keeps A s (State.connClr t c) := by
  unfold State.connClr
  obtain ⟨_, _⟩ := hA
  repeat' (first
    | with_reducible assumption
    | intro y
    | (extract_lets +onlyGivenNames x; first | (refine cut (P := Keeps A s x) ?_ ?_; (on_goal 1 => (unfold x; clear x)); (on_goal 2 => (intro hx; first | clear_value x | skip))) | clear_value x | skip)
    | (with_reducible apply connState_keeps (hA := by first | with_reducible assumption | with_reducible apply_assumption))
    | (with_reducible apply setConn_keeps (hA := by first | with_reducible assumption | with_reducible apply_assumption))
    | with_reducible apply keeps_ite
    | split)

def touchExecFaultClear (A : Part → Prop) (c : Nat) : Prop := touchGuarded A ∧ touchConnClr A c
theorem touchExecFaultClear_all (h : ∀ q, A q) {c : Nat} : touchExecFaultClear A c := ⟨touchGuarded_all h, touchConnClr_all h⟩
theorem execFaultClear_next {sess : ℕ} {c : ℕ} (hA : touchExecFaultClear A c) : ∃ u, execFaultClear sess c s = .next u ∧ Keeps A s u := by
  unfold execFaultClear
  have h := Keeps.refl A s
  refine ⟨_, rfl, ?_⟩
  obtain ⟨_, _⟩ := hA
  repeat' (first
    | with_reducible assumption
    | intro y
    | (with_reducible apply guarded_keeps (hA := by first | with_reducible assumption | with_reducible apply_assumption))
    | (with_reducible apply connClr_keeps (hA := by first | with_reducible assumption | with_reducible apply_assumption))
    | with_reducible apply keeps_ite
    | split)

def touchExecLaunchedStop (A : Part → Prop) : Prop := touchLaRun A ∧ (∀ x0, touchStopConn A x0)
theorem touchExecLaunchedStop_all (h : ∀ q, A q) : touchExecLaunchedStop A := ⟨touchLaRun_all h, fun _ => touchStopConn_all h⟩
theorem execLaunchedStop_next  (hA : touchExecLaunchedStop A) : ∃ u, execLaunchedStop s = .next u ∧ Keeps A s u := by
  unfold execLaunchedStop
  have h := Keeps.refl A s
  refine ⟨_, rfl, ?_⟩
  obtain ⟨_, _⟩ := hA
  repeat' (first
    | with_reducible assumption
    | intro y
    | (with_reducible apply laRun_keeps (hA := by first | with_reducible assumption | with_reducible apply_assumption))
    | with_reducible apply eachBit_keeps
    | (with_reducible apply stopConn_keeps (hA := by first | with_reducible assumption | with_reducible apply_assumption))
    | with_reducible apply keeps_ite
    | split)

def touchExecOfferUpdate (A : Part → Prop) (c : Nat) : Prop := touchLog A ∧ A (.inst R.VS_CONN_STAT.ENF_SEEN c 0) ∧ touchOffer A c ∧ touchSetConn A ∧ touchConnDrive A c
theorem touchExecOfferUpdate_all (h : ∀ q, A q) {c : Nat} : touchExecOfferUpdate A c := ⟨touchLog_all h, h _, touchOffer_all h, touchSetConn_all h, touchConnDrive_all h⟩
theorem execOfferUpdate_next {c : ℕ} (hA : touchExecOfferUpdate A c) : ∃ u, execOfferUpdate c s = .next u ∧ Keeps A s u := by
  unfold execOfferUpdate
  have h := Keeps.refl A s
  refine ⟨_, rfl, ?_⟩
  obtain ⟨_, _, _, _, _⟩ := hA
  repeat' (first
    | with_reducible assumption
    | intro y
    | (extract_lets +onlyGivenNames x; first | (refine cut (P := Keeps A s x) ?_ ?_; (on_goal 1 => (unfold x; clear x)); (on_goal 2 => (intro hx; first | clear_value x | skip))) | clear_value x | skip)
    | (with_reducible refine put_keepsAt (by assumption) ?_)
    | (with_reducible refine put_keeps (by assumption) ?_)
    | (with_reducible apply log_keeps (hA := by first | with_reducible assumption | with_reducible apply_assumption))
    | (with_reducible apply offer_keeps (hA := by first | with_reducible assumption | with_reducible apply_assumption))
    | (with_reducible apply setConn_keeps (hA := by first | with_reducible assumption | with_reducible apply_assumption))
    | (with_reducible apply connDrive_keeps (hA := by first | with_reducible assumption | with_reducible apply_assumption))
    | with_reducible apply keeps_ite
    | split
    | refine keeps_ite ?_ ?_)

def touchExecLimitRampStep (A : Part → Prop) (c : Nat) : Prop := touchConnDrive A c ∧ touchSetConn A
theorem touchExecLimitRampStep_all (h : ∀ q, A q) {c : Nat} : touchExecLimitRampStep A c := ⟨touchConnDrive_all h, touchSetConn_all h⟩
theorem execLimitRampStep_next {c : ℕ} (hA : touchExecLimitRampStep A c) : ∃ u, execLimitRampStep c s = .next u ∧ Keeps A s u := by
  unfold execLimitRampStep
  have h := Keeps.refl A s
  refine ⟨_, rfl, ?_⟩
  obtain ⟨_, _⟩ := hA
  repeat' (first
    | with_reducible assumption
    | intro y
    | (extract_lets +onlyGivenNames x; first | (refine cut (P := Keeps A s x) ?_ ?_; (on_goal 1 => (unfold x; clear x)); (on_goal 2 => (intro hx; first | clear_value x | skip))) | clear_value x | skip)
    | (with_reducible apply connDrive_keeps (hA := by first | with_reducible assumption | with_reducible apply_assumption))
    | (with_reducible apply setConn_keeps (hA := by first | with_reducible assumption | with_reducible apply_assumption))
    | with_reducible apply keeps_ite
    | split
    | refine keeps_ite ?_ ?_)

def touchExecNeedFrame (A : Part → Prop) : Prop := touchFree A ∧ touchSrcSend A
theorem touchExecNeedFrame_all (h : ∀ q, A q) : touchExecNeedFrame A := ⟨touchFree_all h, touchSrcSend_all h⟩
theorem execNeedFrame_next {c : ℕ} (hA : touchExecNeedFrame A) : ∃ u, execNeedFrame c s = .next u ∧ Keeps A s u := by
  unfold execNeedFrame
  have h := Keeps.refl A s
  refine ⟨_, rfl, ?_⟩
  obtain ⟨_, _⟩ := hA
  repeat' (first
    | with_reducible assumption
    | intro y
    | (extract_lets +onlyGivenNames x; first | (refine cut (P := Keeps A s x) ?_ ?_; (on_goal 1 => (unfold x; clear x)); (on_goal 2 => (intro hx; first | clear_value x | skip))) | (refine cut (P := Keeps A s x.2) ?_ ?_; (on_goal 1 => (unfold x; clear x)); (on_goal 2 => (intro hx; first | clear_value x | skip))) | (refine cut (P := Keeps A s x.2.2) ?_ ?_; (on_goal 1 => (unfold x; clear x)); (on_goal 2 => (intro hx; first | clear_value x | skip))) | clear_value x | skip)
    | (with_reducible apply free_keeps (hA := by first | with_reducible assumption | with_reducible apply_assumption))
    | (with_reducible apply srcSend_keeps (hA := by first | with_reducible assumption | with_reducible apply_assumption))
    | with_reducible apply keeps_ite
    | with_reducible apply keeps_ite2
    | with_reducible apply keeps_ite3
    | split
    | refine keeps_ite ?_ ?_)

def touchExecNeedFrameReceive (A : Part → Prop) (g : Nat) : Prop := touchSetNeed A ∧ (∀ x0, touchLoopSet A x0) ∧ A (.reg R.LE_L_RATE.RATE) ∧ touchGroupEnable A g ∧ touchGroupDisable A g
theorem touchExecNeedFrameReceive_all (h : ∀ q, A q) {g : Nat} : touchExecNeedFrameReceive A g := ⟨touchSetNeed_all h, (fun _ => touchLoopSet_all h), h _, touchGroupEnable_all h, touchGroupDisable_all h⟩
theorem execNeedFrameReceive_next {g : ℕ} {c : Sys2Proof.NeedFrom} {flags : ℕ} {need : ℕ} {rTgt : ℕ} {uMax : ℤ} {uMin : ℤ} {rate : ℕ} (hA : touchExecNeedFrameReceive A g) : ∃ u, execNeedFrameReceive g c flags need rTgt uMax uMin rate s = .next u ∧ Keeps A s u := by
  unfold execNeedFrameReceive
  have h := Keeps.refl A s
  refine ⟨_, rfl, ?_⟩
  obtain ⟨_, _, _, _, _⟩ := hA
  repeat' (first
    | with_reducible assumption
    | intro y
    | (extract_lets +onlyGivenNames x; first | (refine cut (P := Keeps A s x) ?_ ?_; (on_goal 1 => (unfold x; clear x)); (on_goal 2 => (intro hx; first | clear_value x | skip))) | clear_value x | skip)
    | (with_reducible refine putf_keepsAt (by assumption) ?_)
    | (with_reducible refine putf_keeps (by assumption) ?_)
    | (with_reducible apply setNeed_keeps (hA := by first | with_reducible assumption | with_reducible apply_assumption))
    | (with_reducible apply loopSet_keeps (hA := by first | with_reducible assumption | with_reducible apply_assumption))
    | (with_reducible apply groupEnable_keeps (hA := by first | with_reducible assumption | with_reducible apply_assumption))
    | (with_reducible apply groupDisable_keeps (hA := by first | with_reducible assumption | with_reducible apply_assumption))
    | with_reducible apply keeps_ite
    | split
    | refine keeps_ite ?_ ?_)

def touchExecAllowanceFrame (A : Part → Prop) : Prop := touchSrcSend A
theorem touchExecAllowanceFrame_all (h : ∀ q, A q) : touchExecAllowanceFrame A := touchSrcSend_all h
theorem execAllowanceFrame_next {g : ℕ} (hA : touchExecAllowanceFrame A) : ∃ u, execAllowanceFrame g s = .next u ∧ Keeps A s u := by
  unfold execAllowanceFrame
  have h := Keeps.refl A s
  refine ⟨_, rfl, ?_⟩
  unfold touchExecAllowanceFrame at hA
  repeat' (first
    | with_reducible assumption
    | intro y
    | (extract_lets +onlyGivenNames x; first | (refine cut (P := Keeps A s x) ?_ ?_; (on_goal 1 => (unfold x; clear x)); (on_goal 2 => (intro hx; first | clear_value x | skip))) | clear_value x | skip)
    | (with_reducible apply srcSend_keeps (hA := by first | with_reducible assumption | with_reducible apply_assumption))
    | with_reducible apply keeps_ite
    | split
    | refine keeps_ite ?_ ?_)

def touchExecAllowanceFrameReceive (A : Part → Prop) (c : Nat) : Prop := touchFastEval A c ∧ touchSetConn A
theorem touchExecAllowanceFrameReceive_all (h : ∀ q, A q) {c : Nat} : touchExecAllowanceFrameReceive A c := ⟨touchFastEval_all h, touchSetConn_all h⟩
theorem execAllowanceFrameReceive_next {c : ℕ} {state : ℕ} {lapsed : Bool} {exp : ℕ} {cap : ℕ} {p : ℕ} {v : ℕ} {i : ℤ} {rev : ℕ} (hA : touchExecAllowanceFrameReceive A c) : ∃ u, execAllowanceFrameReceive c state lapsed exp cap p v i rev s = .next u ∧ Keeps A s u := by
  unfold execAllowanceFrameReceive
  have h := Keeps.refl A s
  refine ⟨_, rfl, ?_⟩
  obtain ⟨_, _⟩ := hA
  repeat' (first
    | with_reducible assumption
    | intro y
    | (extract_lets +onlyGivenNames x; first | (refine cut (P := Keeps A s x) ?_ ?_; (on_goal 1 => (unfold x; clear x)); (on_goal 2 => (intro hx; first | clear_value x | skip))) | clear_value x | skip)
    | (with_reducible apply fastEval_keeps (hA := by first | with_reducible assumption | with_reducible apply_assumption))
    | (with_reducible apply setConn_keeps (hA := by first | with_reducible assumption | with_reducible apply_assumption))
    | with_reducible apply keeps_ite
    | split)

def touchExecNeedFrameLoss (A : Part → Prop) (g : Nat) : Prop := touchSetNeed A ∧ A (.reg R.LE_L_U_MIN.U_MIN) ∧ A (.reg R.LE_L_U_MAX.U_MAX) ∧ touchLog A ∧ touchGroupDisable A g
theorem touchExecNeedFrameLoss_all (h : ∀ q, A q) {g : Nat} : touchExecNeedFrameLoss A g := ⟨touchSetNeed_all h, h _, h _, touchLog_all h, touchGroupDisable_all h⟩
theorem execNeedFrameLoss_next {g : ℕ} (hA : touchExecNeedFrameLoss A g) : ∃ u, execNeedFrameLoss g s = .next u ∧ Keeps A s u := by
  unfold execNeedFrameLoss
  have h := Keeps.refl A s
  refine ⟨_, rfl, ?_⟩
  obtain ⟨_, _, _, _, _⟩ := hA
  repeat' (first
    | with_reducible assumption
    | intro y
    | (extract_lets +onlyGivenNames x; first | (refine cut (P := Keeps A s x) ?_ ?_; (on_goal 1 => (unfold x; clear x)); (on_goal 2 => (intro hx; first | clear_value x | skip))) | clear_value x | skip)
    | (with_reducible refine putf_keepsAt (by assumption) ?_)
    | (with_reducible refine putf_keeps (by assumption) ?_)
    | (with_reducible apply setNeed_keeps (hA := by first | with_reducible assumption | with_reducible apply_assumption))
    | (with_reducible apply log_keeps (hA := by first | with_reducible assumption | with_reducible apply_assumption))
    | (with_reducible apply groupDisable_keeps (hA := by first | with_reducible assumption | with_reducible apply_assumption))
    | with_reducible apply keeps_ite
    | split
    | refine keeps_ite ?_ ?_)

def touchExecFeedLost (A : Part → Prop) (c : Nat) : Prop := touchFastStop A c
theorem touchExecFeedLost_all (h : ∀ q, A q) {c : Nat} : touchExecFeedLost A c := touchFastStop_all h
theorem execFeedLost_next {c : ℕ} (hA : touchExecFeedLost A c) : ∃ u, execFeedLost c s = .next u ∧ Keeps A s u := by
  unfold execFeedLost
  have h := Keeps.refl A s
  refine ⟨_, rfl, ?_⟩
  unfold touchExecFeedLost at hA
  repeat' (first
    | with_reducible assumption
    | intro y
    | (extract_lets +onlyGivenNames x; first | (refine cut (P := Keeps A s x) ?_ ?_; (on_goal 1 => (unfold x; clear x)); (on_goal 2 => (intro hx; first | clear_value x | skip))) | clear_value x | skip)
    | (with_reducible apply fastStop_keeps (hA := by first | with_reducible assumption | with_reducible apply_assumption))
    | with_reducible apply keeps_ite
    | split
    | refine keeps_ite ?_ ?_)

def touchImdTake (A : Part → Prop) (c : Nat) : Prop := touchSetConn A ∧ A (.inst R.VS_CONN_ISO.R_ISO c 0) ∧ touchLog A ∧ A (.inst R.VS_CONN_STAT.IMD_WARN c 0) ∧ touchFastStop A c
theorem touchImdTake_all (h : ∀ q, A q) {c : Nat} : touchImdTake A c := ⟨touchSetConn_all h, h _, touchLog_all h, h _, touchFastStop_all h⟩
theorem imdTake_keeps {c : ℕ} {r : ℕ} (hA : touchImdTake A c)  (h : Keeps A s t) : Keeps A s (State.imdTake t c r) := by
  unfold State.imdTake
  obtain ⟨_, _, _, _, _⟩ := hA
  repeat' (first
    | with_reducible assumption
    | intro y
    | (extract_lets +onlyGivenNames x; first | (refine cut (P := Keeps A s x) ?_ ?_; (on_goal 1 => (unfold x; clear x)); (on_goal 2 => (intro hx; first | clear_value x | skip))) | clear_value x | skip)
    | (with_reducible refine put_keepsAt (by assumption) ?_)
    | (with_reducible refine put_keeps (by assumption) ?_)
    | (with_reducible apply setConn_keeps (hA := by first | with_reducible assumption | with_reducible apply_assumption))
    | (with_reducible apply log_keeps (hA := by first | with_reducible assumption | with_reducible apply_assumption))
    | (with_reducible apply fastStop_keeps (hA := by first | with_reducible assumption | with_reducible apply_assumption))
    | with_reducible apply keeps_ite
    | split
    | refine keeps_ite ?_ ?_)

def touchExecImdUpdate (A : Part → Prop) (c : Nat) : Prop := touchImdTake A c
theorem touchExecImdUpdate_all (h : ∀ q, A q) {c : Nat} : touchExecImdUpdate A c := touchImdTake_all h
theorem execImdUpdate_next {c : ℕ} {r : ℕ} (hA : touchExecImdUpdate A c) : ∃ u, execImdUpdate c r s = .next u ∧ Keeps A s u := by
  unfold execImdUpdate
  have h := Keeps.refl A s
  refine ⟨_, rfl, ?_⟩
  unfold touchExecImdUpdate at hA
  repeat' (first
    | with_reducible assumption
    | intro y
    | (extract_lets +onlyGivenNames x; first | (refine cut (P := Keeps A s x) ?_ ?_; (on_goal 1 => (unfold x; clear x)); (on_goal 2 => (intro hx; first | clear_value x | skip))) | clear_value x | skip)
    | (with_reducible apply imdTake_keeps (hA := by first | with_reducible assumption | with_reducible apply_assumption))
    | with_reducible apply keeps_ite
    | split
    | refine keeps_ite ?_ ?_)

def touchExecImdTimeout (A : Part → Prop) (c : Nat) : Prop := touchFastStop A c ∧ touchSetConn A
theorem touchExecImdTimeout_all (h : ∀ q, A q) {c : Nat} : touchExecImdTimeout A c := ⟨touchFastStop_all h, touchSetConn_all h⟩
theorem execImdTimeout_next {c : ℕ} {ms : ℕ} (hA : touchExecImdTimeout A c) : ∃ u, execImdTimeout c ms s = .next u ∧ Keeps A s u := by
  unfold execImdTimeout
  have h := Keeps.refl A s
  refine ⟨_, rfl, ?_⟩
  obtain ⟨_, _⟩ := hA
  repeat' (first
    | with_reducible assumption
    | intro y
    | (extract_lets +onlyGivenNames x; first | (refine cut (P := Keeps A s x) ?_ ?_; (on_goal 1 => (unfold x; clear x)); (on_goal 2 => (intro hx; first | clear_value x | skip))) | clear_value x | skip)
    | (with_reducible apply fastStop_keeps (hA := by first | with_reducible assumption | with_reducible apply_assumption))
    | (with_reducible apply setConn_keeps (hA := by first | with_reducible assumption | with_reducible apply_assumption))
    | with_reducible apply keeps_ite
    | split
    | refine keeps_ite ?_ ?_)

def touchExecContactorFault (A : Part → Prop) (c : Nat) : Prop := touchFastStop A c ∧ touchLog A ∧ touchSetConn A
theorem touchExecContactorFault_all (h : ∀ q, A q) {c : Nat} : touchExecContactorFault A c := ⟨touchFastStop_all h, touchLog_all h, touchSetConn_all h⟩
theorem execContactorFault_next {c : ℕ} {ms : ℕ} (hA : touchExecContactorFault A c) : ∃ u, execContactorFault c ms s = .next u ∧ Keeps A s u := by
  unfold execContactorFault
  have h := Keeps.refl A s
  refine ⟨_, rfl, ?_⟩
  obtain ⟨_, _, _⟩ := hA
  repeat' (first
    | with_reducible assumption
    | intro y
    | (extract_lets +onlyGivenNames x; first | (refine cut (P := Keeps A s x) ?_ ?_; (on_goal 1 => (unfold x; clear x)); (on_goal 2 => (intro hx; first | clear_value x | skip))) | clear_value x | skip)
    | (with_reducible apply fastStop_keeps (hA := by first | with_reducible assumption | with_reducible apply_assumption))
    | (with_reducible apply log_keeps (hA := by first | with_reducible assumption | with_reducible apply_assumption))
    | (with_reducible apply setConn_keeps (hA := by first | with_reducible assumption | with_reducible apply_assumption))
    | with_reducible apply keeps_ite
    | split
    | refine keeps_ite ?_ ?_)

def touchExecLinkLost (A : Part → Prop) (c : Nat) : Prop := touchFastStop A c ∧ touchSetConn A
theorem touchExecLinkLost_all (h : ∀ q, A q) {c : Nat} : touchExecLinkLost A c := ⟨touchFastStop_all h, touchSetConn_all h⟩
theorem execLinkLost_next {c : ℕ} {closed : Bool} {ms : ℕ} (hA : touchExecLinkLost A c) : ∃ u, execLinkLost c closed ms s = .next u ∧ Keeps A s u := by
  unfold execLinkLost
  have h := Keeps.refl A s
  refine ⟨_, rfl, ?_⟩
  obtain ⟨_, _⟩ := hA
  repeat' (first
    | with_reducible assumption
    | intro y
    | (extract_lets +onlyGivenNames x; first | (refine cut (P := Keeps A s x) ?_ ?_; (on_goal 1 => (unfold x; clear x)); (on_goal 2 => (intro hx; first | clear_value x | skip))) | clear_value x | skip)
    | (with_reducible apply fastStop_keeps (hA := by first | with_reducible assumption | with_reducible apply_assumption))
    | (with_reducible apply setConn_keeps (hA := by first | with_reducible assumption | with_reducible apply_assumption))
    | with_reducible apply keeps_ite
    | split)

end Sys2Proof.Laws
end

