-- ==== Sys2Proof/Laws/KeepsCan.lean ====
section
/-! SUPPORT. What the operations of Machine/Can.lean leave alone: for each the parts it may change (`touch…`) and its lemma. -/

namespace Sys2Proof.Laws

open Sys2Proof.Machine

set_option linter.unusedTactic false
set_option linter.unreachableTactic false
set_option linter.unusedVariables false
set_option linter.tactic.unusedName false

variable {A : Part → Prop} {s t : State}

def touchCanPort (A : Part → Prop) (p : Nat) : Prop := A (.inst R.CAN_STAT.STATE p 0)
theorem touchCanPort_all (h : ∀ q, A q) {p : Nat} : touchCanPort A p := h _
theorem canPort_keeps {p : ℕ} (hA : touchCanPort A p)  (h : Keeps A s t) : Keeps A s (State.canPort t p) := by
  unfold State.canPort
  unfold touchCanPort at hA
  repeat' (first
    | with_reducible assumption
    | intro y
    | (with_reducible refine put_keepsAt (by assumption) ?_)
    | (with_reducible refine put_keeps (by assumption) ?_)
    | with_reducible apply keeps_ite
    | split)

def touchCanEnable (A : Part → Prop) (p : Nat) : Prop := A (.inst R.CAN_CTRL.EN p 0) ∧ touchCanPort A p ∧ A (.inst R.CAN_STAT.STATE p 0) ∧ A .can
theorem touchCanEnable_all (h : ∀ q, A q) {p : Nat} : touchCanEnable A p := ⟨h _, touchCanPort_all h, h _, h _⟩
theorem canEnable_keeps {p : ℕ} {on : Bool} (hA : touchCanEnable A p)  (h : Keeps A s t) : Keeps A s (State.canEnable t p on) := by
  unfold State.canEnable
  obtain ⟨_, _, _, _⟩ := hA
  repeat' (first
    | with_reducible assumption
    | intro y
    | (extract_lets +onlyGivenNames x; first | (refine cut (P := Keeps A s x) ?_ ?_; (on_goal 1 => (unfold x; clear x)); (on_goal 2 => (intro hx; first | clear_value x | skip))) | clear_value x | skip)
    | (with_reducible refine put_keepsAt (by assumption) ?_)
    | (with_reducible refine put_keeps (by assumption) ?_)
    | (with_reducible refine putb_keepsAt (by assumption) ?_)
    | (with_reducible refine putb_keeps (by assumption) ?_)
    | (with_reducible apply canPort_keeps (hA := by first | with_reducible assumption | with_reducible apply_assumption))
    | with_reducible apply keeps_ite
    | split
    | refine keeps_ite ?_ ?_
    | with_reducible exact keeps_can (by assumption) (by assumption))

def touchExecCanPortEnable (A : Part → Prop) (p : Nat) : Prop := touchCanPort A p
theorem touchExecCanPortEnable_all (h : ∀ q, A q) {p : Nat} : touchExecCanPortEnable A p := touchCanPort_all h
theorem execCanPortEnable_next {p : ℕ} (hA : touchExecCanPortEnable A p) : ∃ u, execCanPortEnable p s = .next u ∧ Keeps A s u := by
  unfold execCanPortEnable
  have h := Keeps.refl A s
  refine ⟨_, rfl, ?_⟩
  unfold touchExecCanPortEnable at hA
  repeat' (first
    | with_reducible assumption
    | intro y
    | (with_reducible apply canPort_keeps (hA := by first | with_reducible assumption | with_reducible apply_assumption))
    | with_reducible apply keeps_ite
    | split)

def touchCanEnded (A : Part → Prop) : Prop := A .can
theorem touchCanEnded_all (h : ∀ q, A q) : touchCanEnded A := h _
theorem canEnded_keeps {p : ℕ} (hA : touchCanEnded A)  (h : Keeps A s t) : Keeps A s (State.canEnded t p) := by
  unfold State.canEnded
  unfold touchCanEnded at hA
  repeat' (first
    | with_reducible assumption
    | intro y
    | (extract_lets +onlyGivenNames x; first | (refine cut (P := Keeps A s x) ?_ ?_; (on_goal 1 => (unfold x; clear x)); (on_goal 2 => (intro hx; first | clear_value x | skip))) | clear_value x | skip)
    | with_reducible apply keeps_ite
    | split
    | refine keeps_ite ?_ ?_
    | with_reducible exact keeps_can (by assumption) (by assumption))

def touchCanStart (A : Part → Prop) (p : Nat) : Prop := A (.inst R.CAN_CTRL.INIT p 0) ∧ touchCanEnded A ∧ A (.inst R.CAN_STAT.CFG_ERR p 0) ∧ A (.inst R.CAN_STAT.EPASS p 0) ∧ A (.inst R.CAN_STAT.REC p 0) ∧ A (.inst R.CAN_STAT.TEC p 0) ∧ A (.inst R.CAN_STAT.STATE p 0) ∧ touchLog A
theorem touchCanStart_all (h : ∀ q, A q) {p : Nat} : touchCanStart A p := ⟨h _, touchCanEnded_all h, h _, h _, h _, h _, h _, touchLog_all h⟩
theorem canStart_keeps {p : ℕ} (hA : touchCanStart A p)  (h : Keeps A s t) : Keeps A s (State.canStart t p) := by
  unfold State.canStart
  obtain ⟨_, _, _, _, _, _, _, _⟩ := hA
  repeat' (first
    | with_reducible assumption
    | intro y
    | (extract_lets +onlyGivenNames x; first | (refine cut (P := Keeps A s x) ?_ ?_; (on_goal 1 => (unfold x; clear x)); (on_goal 2 => (intro hx; first | clear_value x | skip))) | clear_value x | skip)
    | (with_reducible refine put_keepsAt (by assumption) ?_)
    | (with_reducible refine put_keeps (by assumption) ?_)
    | (with_reducible apply canEnded_keeps (hA := by first | with_reducible assumption | with_reducible apply_assumption))
    | (with_reducible apply log_keeps (hA := by first | with_reducible assumption | with_reducible apply_assumption))
    | with_reducible apply keeps_ite
    | split
    | refine keeps_ite ?_ ?_)

def touchExecCanStart (A : Part → Prop) (p : Nat) : Prop := touchGuarded A ∧ touchCanStart A p
theorem touchExecCanStart_all (h : ∀ q, A q) {p : Nat} : touchExecCanStart A p := ⟨touchGuarded_all h, touchCanStart_all h⟩
theorem execCanStart_next {sess : ℕ} {p : ℕ} (hA : touchExecCanStart A p) : ∃ u, execCanStart sess p s = .next u ∧ Keeps A s u := by
  unfold execCanStart
  have h := Keeps.refl A s
  refine ⟨_, rfl, ?_⟩
  obtain ⟨_, _⟩ := hA
  repeat' (first
    | with_reducible assumption
    | intro y
    | (with_reducible apply guarded_keeps (hA := by first | with_reducible assumption | with_reducible apply_assumption))
    | (with_reducible apply canStart_keeps (hA := by first | with_reducible assumption | with_reducible apply_assumption))
    | with_reducible apply keeps_ite
    | split)

def touchCanInit (A : Part → Prop) (p : Nat) : Prop := A (.inst R.CAN_CTRL.INIT p 0) ∧ A (.inst R.CAN_STAT.STATE p 0) ∧ A .can
theorem touchCanInit_all (h : ∀ q, A q) {p : Nat} : touchCanInit A p := ⟨h _, h _, h _⟩
theorem canInit_keeps {p : ℕ} (hA : touchCanInit A p)  (h : Keeps A s t) : Keeps A s (State.canInit t p) := by
  unfold State.canInit
  obtain ⟨_, _, _⟩ := hA
  repeat' (first
    | with_reducible assumption
    | intro y
    | (extract_lets +onlyGivenNames x; first | (refine cut (P := Keeps A s x) ?_ ?_; (on_goal 1 => (unfold x; clear x)); (on_goal 2 => (intro hx; first | clear_value x | skip))) | clear_value x | skip)
    | (with_reducible refine put_keepsAt (by assumption) ?_)
    | (with_reducible refine put_keeps (by assumption) ?_)
    | with_reducible apply keeps_ite
    | split
    | refine keeps_ite ?_ ?_
    | with_reducible exact keeps_can (by assumption) (by assumption))

def touchExecCanInit (A : Part → Prop) (p : Nat) : Prop := touchGuarded A ∧ touchCanInit A p
theorem touchExecCanInit_all (h : ∀ q, A q) {p : Nat} : touchExecCanInit A p := ⟨touchGuarded_all h, touchCanInit_all h⟩
theorem execCanInit_next {sess : ℕ} {p : ℕ} (hA : touchExecCanInit A p) : ∃ u, execCanInit sess p s = .next u ∧ Keeps A s u := by
  unfold execCanInit
  have h := Keeps.refl A s
  refine ⟨_, rfl, ?_⟩
  obtain ⟨_, _⟩ := hA
  repeat' (first
    | with_reducible assumption
    | intro y
    | (with_reducible apply guarded_keeps (hA := by first | with_reducible assumption | with_reducible apply_assumption))
    | (with_reducible apply canInit_keeps (hA := by first | with_reducible assumption | with_reducible apply_assumption))
    | with_reducible apply keeps_ite
    | split)

def touchCanPick (A : Part → Prop) : Prop := A .can
theorem touchCanPick_all (h : ∀ q, A q) : touchCanPick A := h _
theorem canPick_keeps {p : ℕ} (hA : touchCanPick A)  (h : Keeps A s t) : Keeps A s (State.canPick t p) := by
  unfold State.canPick
  unfold touchCanPick at hA
  repeat' (first
    | with_reducible assumption
    | intro y
    | (extract_lets +onlyGivenNames x; first | (refine cut (P := Keeps A s x) ?_ ?_; (on_goal 1 => (unfold x; clear x)); (on_goal 2 => (intro hx; first | clear_value x | skip))) | clear_value x | skip)
    | with_reducible apply keeps_ite
    | split
    | refine keeps_ite ?_ ?_
    | with_reducible exact keeps_can (by assumption) (by assumption))

def touchCanOffer (A : Part → Prop) : Prop := touchCanPick A
theorem touchCanOffer_all (h : ∀ q, A q) : touchCanOffer A := touchCanPick_all h
theorem canOffer_keeps {p : ℕ} (hA : touchCanOffer A)  (h : Keeps A s t) : Keeps A s (State.canOffer t p) := by
  unfold State.canOffer
  unfold touchCanOffer at hA
  repeat' (first
    | with_reducible assumption
    | intro y
    | (with_reducible apply canPick_keeps (hA := by first | with_reducible assumption | with_reducible apply_assumption))
    | with_reducible apply keeps_ite
    | split)

def touchOverrun (A : Part → Prop) (p b : Nat) : Prop := A .can ∧ A (.inst R.CAN_BUF_CTRL.OVR p b) ∧ touchLog A
theorem touchOverrun_all (h : ∀ q, A q) {p b : Nat} : touchOverrun A p b := ⟨h _, h _, touchLog_all h⟩
theorem overrun_keeps {p : ℕ} {b : ℕ} (hA : touchOverrun A p b)  (h : Keeps A s t) : Keeps A s (State.overrun t p b) := by
  unfold State.overrun
  obtain ⟨_, _, _⟩ := hA
  repeat' (first
    | with_reducible assumption
    | intro y
    | (extract_lets +onlyGivenNames x; first | (refine cut (P := Keeps A s x) ?_ ?_; (on_goal 1 => (unfold x; clear x)); (on_goal 2 => (intro hx; first | clear_value x | skip))) | clear_value x | skip)
    | (with_reducible refine put_keepsAt (by assumption) ?_)
    | (with_reducible refine put_keeps (by assumption) ?_)
    | (with_reducible apply log_keeps (hA := by first | with_reducible assumption | with_reducible apply_assumption))
    | with_reducible apply keeps_ite
    | split
    | refine keeps_ite ?_ ?_
    | with_reducible exact keeps_can (by assumption) (by assumption))

def touchCanStore (A : Part → Prop) (p : Nat) : Prop := A (.reg R.CAN_MB.WORD) ∧ (∀ x0, touchOverrun A p x0) ∧ A (.reg R.CAN_BUF_CTRL.NEW) ∧ (∀ x0, touchImdTake A x0) ∧ (∀ x0, touchFlowValue A x0)
theorem touchCanStore_all (h : ∀ q, A q) {p : Nat} : touchCanStore A p := ⟨h _, fun _ => touchOverrun_all h, h _, fun _ => touchImdTake_all h, fun _ => touchFlowValue_all h⟩
theorem canStore_keeps {p : ℕ} {r : Sys2Proof.Machine.CanRec} (hA : touchCanStore A p)  (h : Keeps A s t) : Keeps A s (State.canStore t p r) := by
  unfold State.canStore
  obtain ⟨_, _, _, _, _⟩ := hA
  repeat' (first
    | with_reducible assumption
    | intro y
    | (extract_lets +onlyGivenNames x; first | (refine cut (P := Keeps A s x) ?_ ?_; (on_goal 1 => (unfold x; clear x)); (on_goal 2 => (intro hx; first | clear_value x | skip))) | clear_value x | skip)
    | with_reducible apply each_keeps
    | (with_reducible refine put_keepsAt (by assumption) ?_)
    | (with_reducible refine put_keeps (by assumption) ?_)
    | (with_reducible apply overrun_keeps (hA := by first | with_reducible assumption | with_reducible apply_assumption))
    | (with_reducible apply imdTake_keeps (hA := by first | with_reducible assumption | with_reducible apply_assumption))
    | (with_reducible apply flowValue_keeps (hA := by first | with_reducible assumption | with_reducible apply_assumption))
    | with_reducible apply keeps_ite
    | split
    | refine keeps_ite ?_ ?_)

def touchCanArrive (A : Part → Prop) (p : Nat) : Prop := A .can ∧ (∀ x0, touchOverrun A p x0) ∧ touchCanStore A p
theorem touchCanArrive_all (h : ∀ q, A q) {p : Nat} : touchCanArrive A p := ⟨h _, fun _ => touchOverrun_all h, touchCanStore_all h⟩
theorem canArrive_keeps {p : ℕ} {r : Sys2Proof.Machine.CanRec} (hA : touchCanArrive A p)  (h : Keeps A s t) : Keeps A s (State.canArrive t p r) := by
  unfold State.canArrive
  obtain ⟨_, _, _⟩ := hA
  repeat' (first
    | with_reducible assumption
    | intro y
    | (extract_lets +onlyGivenNames x; first | (refine cut (P := Keeps A s x) ?_ ?_; (on_goal 1 => (unfold x; clear x)); (on_goal 2 => (intro hx; first | clear_value x | skip))) | clear_value x | skip)
    | (with_reducible apply overrun_keeps (hA := by first | with_reducible assumption | with_reducible apply_assumption))
    | (with_reducible apply canStore_keeps (hA := by first | with_reducible assumption | with_reducible apply_assumption))
    | with_reducible apply keeps_ite
    | split
    | refine keeps_ite ?_ ?_
    | with_reducible exact keeps_can (by assumption) (by assumption))

def touchCanUnlock (A : Part → Prop) (p : Nat) : Prop := A (.reg R.CAN_BUF_CTRL.LOCK) ∧ A .can ∧ touchCanStore A p
theorem touchCanUnlock_all (h : ∀ q, A q) {p : Nat} : touchCanUnlock A p := ⟨h _, h _, touchCanStore_all h⟩
theorem canUnlock_keeps {p : ℕ} (hA : touchCanUnlock A p)  (h : Keeps A s t) : Keeps A s (State.canUnlock t p) := by
  unfold State.canUnlock
  obtain ⟨_, _, _⟩ := hA
  repeat' (first
    | with_reducible assumption
    | intro y
    | (extract_lets +onlyGivenNames x; first | (refine cut (P := Keeps A s x) ?_ ?_; (on_goal 1 => (unfold x; clear x)); (on_goal 2 => (intro hx; first | clear_value x | skip))) | clear_value x | skip)
    | (with_reducible refine put_keepsAt (by assumption) ?_)
    | (with_reducible refine put_keeps (by assumption) ?_)
    | (with_reducible apply canStore_keeps (hA := by first | with_reducible assumption | with_reducible apply_assumption))
    | with_reducible apply keeps_ite
    | split
    | refine keeps_ite ?_ ?_
    | with_reducible exact keeps_can (by assumption) (by assumption))

def touchCanMatch (A : Part → Prop) (p : Nat) : Prop := A (.inst R.CAN_CNT.NOMATCH p 0) ∧ touchCanArrive A p
theorem touchCanMatch_all (h : ∀ q, A q) {p : Nat} : touchCanMatch A p := ⟨h _, touchCanArrive_all h⟩
theorem canMatch_keeps {p : ℕ} {w0 : ℕ} {w1 : ℕ} {sof : ℕ} {data : List ℕ} (hA : touchCanMatch A p)  (h : Keeps A s t) : Keeps A s (State.canMatch t p w0 w1 sof data) := by
  unfold State.canMatch
  obtain ⟨_, _⟩ := hA
  repeat' (first
    | with_reducible assumption
    | intro y
    | (extract_lets +onlyGivenNames x; first | (refine cut (P := Keeps A s x) ?_ ?_; (on_goal 1 => (unfold x; clear x)); (on_goal 2 => (intro hx; first | clear_value x | skip))) | (refine cut (P := ∀ y, Keeps A s y → Keeps A s (x y)) ?_ ?_; (on_goal 1 => (unfold x; clear x)); (on_goal 2 => (intro hf; first | clear_value x | skip))) | (refine cut (P := ∀ y, Keeps A s (x y)) ?_ ?_; (on_goal 1 => (unfold x; clear x)); (on_goal 2 => (intro hf; first | clear_value x | skip))) | (refine cut (P := ∀ y z, Keeps A s y → Keeps A s (x y z)) ?_ ?_; (on_goal 1 => (unfold x; clear x)); (on_goal 2 => (intro hf; first | clear_value x | skip))) | (refine cut (P := ∀ y z, Keeps A s z → Keeps A s (x y z)) ?_ ?_; (on_goal 1 => (unfold x; clear x)); (on_goal 2 => (intro hf; first | clear_value x | skip))) | (refine cut (P := ∀ y z w, Keeps A s y → Keeps A s (x y z w)) ?_ ?_; (on_goal 1 => (unfold x; clear x)); (on_goal 2 => (intro hf; first | clear_value x | skip))) | (refine cut (P := ∀ (d : Nat) (g : State → State) (y : State), (∀ z, Keeps A s z → Keeps A s (g z)) → Keeps A s y → Keeps A s (x d g y)) ?_ ?_; (on_goal 1 => (unfold x; clear x)); (on_goal 2 => (intro hf; first | clear_value x | skip))) | clear_value x | skip)
    | (with_reducible refine inc_keepsAt (by assumption) ?_)
    | (with_reducible refine inc_keeps (by assumption) ?_)
    | (with_reducible apply canArrive_keeps (hA := by first | with_reducible assumption | with_reducible apply_assumption))
    | with_reducible apply keeps_ite
    | with_reducible apply hf
    | split
    | refine keeps_ite ?_ ?_)

def touchCanCounters (A : Part → Prop) (p : Nat) : Prop := A (.inst R.CAN_STAT.REC p 0) ∧ A (.inst R.CAN_STAT.TEC p 0)
theorem touchCanCounters_all (h : ∀ q, A q) {p : Nat} : touchCanCounters A p := ⟨h _, h _⟩
theorem canCounters_keeps {p : ℕ} {tec : ℕ} {rec_ : ℕ} (hA : touchCanCounters A p)  (h : Keeps A s t) : Keeps A s (State.canCounters t p tec rec_) := by
  unfold State.canCounters
  obtain ⟨_, _⟩ := hA
  repeat' (first
    | with_reducible assumption
    | intro y
    | (with_reducible refine put_keepsAt (by assumption) ?_)
    | (with_reducible refine put_keeps (by assumption) ?_)
    | (with_reducible refine putMax_keepsAt (by assumption) ?_)
    | (with_reducible refine putMax_keeps (by assumption) ?_)
    | with_reducible apply keeps_ite
    | split)

def touchExecCanFrameReceive (A : Part → Prop) (p : Nat) : Prop := touchCanCounters A p ∧ touchCanEnded A ∧ touchCanPick A ∧ touchCanMatch A p ∧ A (.inst R.CAN_STAT.LEC p 0)
theorem touchExecCanFrameReceive_all (h : ∀ q, A q) {p : Nat} : touchExecCanFrameReceive A p := ⟨touchCanCounters_all h, touchCanEnded_all h, touchCanPick_all h, touchCanMatch_all h, h _⟩
theorem execCanFrameReceive_next {p : ℕ} {w0 : ℕ} {w1 : ℕ} {sof : ℕ} {data : List ℕ} {tec : ℕ} {rec_ : ℕ} (hA : touchExecCanFrameReceive A p) : ∃ u, execCanFrameReceive p w0 w1 sof data tec rec_ s = .next u ∧ Keeps A s u := by
  unfold execCanFrameReceive
  have h := Keeps.refl A s
  refine ⟨_, rfl, ?_⟩
  obtain ⟨_, _, _, _, _⟩ := hA
  repeat' (first
    | with_reducible assumption
    | intro y
    | (extract_lets +onlyGivenNames x; first | (refine cut (P := Keeps A s x) ?_ ?_; (on_goal 1 => (unfold x; clear x)); (on_goal 2 => (intro hx; first | clear_value x | skip))) | clear_value x | skip)
    | (with_reducible refine put_keepsAt (by assumption) ?_)
    | (with_reducible refine put_keeps (by assumption) ?_)
    | (with_reducible apply canCounters_keeps (hA := by first | with_reducible assumption | with_reducible apply_assumption))
    | (with_reducible apply canEnded_keeps (hA := by first | with_reducible assumption | with_reducible apply_assumption))
    | (with_reducible apply canPick_keeps (hA := by first | with_reducible assumption | with_reducible apply_assumption))
    | (with_reducible apply canMatch_keeps (hA := by first | with_reducible assumption | with_reducible apply_assumption))
    | with_reducible apply keeps_ite
    | split
    | refine keeps_ite ?_ ?_)

def touchCanRead (A : Part → Prop) (p b : Nat) : Prop := A (.inst R.CAN_BUF_CTRL.LOCK p b) ∧ touchCanUnlock A p ∧ A (.inst R.CAN_BUF_CTRL.NEW p b)
theorem touchCanRead_all (h : ∀ q, A q) {p b : Nat} : touchCanRead A p b := ⟨h _, touchCanUnlock_all h, h _⟩
theorem canRead_keeps {p : ℕ} {b : ℕ} {w : ℕ} (hA : touchCanRead A p b)  (h : Keeps A s t) : Keeps A s (State.canRead t p b w) := by
  unfold State.canRead
  obtain ⟨_, _, _⟩ := hA
  repeat' (first
    | with_reducible assumption
    | intro y
    | (extract_lets +onlyGivenNames x; first | (refine cut (P := Keeps A s x) ?_ ?_; (on_goal 1 => (unfold x; clear x)); (on_goal 2 => (intro hx; first | clear_value x | skip))) | clear_value x | skip)
    | (with_reducible refine put_keepsAt (by assumption) ?_)
    | (with_reducible refine put_keeps (by assumption) ?_)
    | (with_reducible apply canUnlock_keeps (hA := by first | with_reducible assumption | with_reducible apply_assumption))
    | with_reducible apply keeps_ite
    | split
    | refine keeps_ite ?_ ?_)

def touchExecBufferLock (A : Part → Prop) (p b : Nat) : Prop := touchCanRead A p b
theorem touchExecBufferLock_all (h : ∀ q, A q) {p b : Nat} : touchExecBufferLock A p b := touchCanRead_all h
theorem execBufferLock_next {p : ℕ} {b : ℕ} (hA : touchExecBufferLock A p b) : ∃ u, execBufferLock p b s = .next u ∧ Keeps A s u := by
  unfold execBufferLock
  have h := Keeps.refl A s
  refine ⟨_, rfl, ?_⟩
  unfold touchExecBufferLock at hA
  repeat' (first
    | with_reducible assumption
    | intro y
    | (with_reducible apply canRead_keeps (hA := by first | with_reducible assumption | with_reducible apply_assumption))
    | with_reducible apply keeps_ite
    | split)

def touchExecBufferReadComplete (A : Part → Prop) (p b : Nat) : Prop := touchCanRead A p b
theorem touchExecBufferReadComplete_all (h : ∀ q, A q) {p b : Nat} : touchExecBufferReadComplete A p b := touchCanRead_all h
theorem execBufferReadComplete_next {p : ℕ} {b : ℕ} (hA : touchExecBufferReadComplete A p b) : ∃ u, execBufferReadComplete p b s = .next u ∧ Keeps A s u := by
  unfold execBufferReadComplete
  have h := Keeps.refl A s
  refine ⟨_, rfl, ?_⟩
  unfold touchExecBufferReadComplete at hA
  repeat' (first
    | with_reducible assumption
    | intro y
    | (with_reducible apply canRead_keeps (hA := by first | with_reducible assumption | with_reducible apply_assumption))
    | with_reducible apply keeps_ite
    | split)

def touchExecLockTimeout (A : Part → Prop) (p : Nat) : Prop := touchCanUnlock A p ∧ A (.reg R.CAN_BUF_CTRL.TORN)
theorem touchExecLockTimeout_all (h : ∀ q, A q) {p : Nat} : touchExecLockTimeout A p := ⟨touchCanUnlock_all h, h _⟩
theorem execLockTimeout_next {p : ℕ} {us : ℕ} (hA : touchExecLockTimeout A p) : ∃ u, execLockTimeout p us s = .next u ∧ Keeps A s u := by
  unfold execLockTimeout
  have h := Keeps.refl A s
  refine ⟨_, rfl, ?_⟩
  obtain ⟨_, _⟩ := hA
  repeat' (first
    | with_reducible assumption
    | intro y
    | (extract_lets +onlyGivenNames x; first | (refine cut (P := Keeps A s x) ?_ ?_; (on_goal 1 => (unfold x; clear x)); (on_goal 2 => (intro hx; first | clear_value x | skip))) | clear_value x | skip)
    | (with_reducible apply canUnlock_keeps (hA := by first | with_reducible assumption | with_reducible apply_assumption))
    | (with_reducible refine put_keepsAt (by assumption) ?_)
    | (with_reducible refine put_keeps (by assumption) ?_)
    | with_reducible apply keeps_ite
    | split)

def touchExecUnlock (A : Part → Prop) (p : Nat) : Prop := touchGuarded A ∧ touchCanUnlock A p
theorem touchExecUnlock_all (h : ∀ q, A q) {p : Nat} : touchExecUnlock A p := ⟨touchGuarded_all h, touchCanUnlock_all h⟩
theorem execUnlock_next {sess : ℕ} {p : ℕ} (hA : touchExecUnlock A p) : ∃ u, execUnlock sess p s = .next u ∧ Keeps A s u := by
  unfold execUnlock
  have h := Keeps.refl A s
  refine ⟨_, rfl, ?_⟩
  obtain ⟨_, _⟩ := hA
  repeat' (first
    | with_reducible assumption
    | intro y
    | (with_reducible apply guarded_keeps (hA := by first | with_reducible assumption | with_reducible apply_assumption))
    | (with_reducible apply canUnlock_keeps (hA := by first | with_reducible assumption | with_reducible apply_assumption))
    | with_reducible apply keeps_ite
    | split)

def touchTxRequest (A : Part → Prop) (p b : Nat) : Prop := touchCanOffer A ∧ A (.inst R.CAN_BUF_CTRL.TXREQ p b)
theorem touchTxRequest_all (h : ∀ q, A q) {p b : Nat} : touchTxRequest A p b := ⟨touchCanOffer_all h, h _⟩
theorem txRequest_keeps {p : ℕ} {b : ℕ} (hA : touchTxRequest A p b)  (h : Keeps A s t) : Keeps A s (State.txRequest t p b) := by
  unfold State.txRequest
  obtain ⟨_, _⟩ := hA
  repeat' (first
    | with_reducible assumption
    | intro y
    | (extract_lets +onlyGivenNames x; first | (refine cut (P := Keeps A s x) ?_ ?_; (on_goal 1 => (unfold x; clear x)); (on_goal 2 => (intro hx; first | clear_value x | skip))) | clear_value x | skip)
    | (with_reducible apply canOffer_keeps (hA := by first | with_reducible assumption | with_reducible apply_assumption))
    | (with_reducible refine put_keepsAt (by assumption) ?_)
    | (with_reducible refine put_keeps (by assumption) ?_)
    | with_reducible apply keeps_ite
    | split
    | refine keeps_ite ?_ ?_)

def touchExecTransmitRequest (A : Part → Prop) (p b : Nat) : Prop := touchGuarded A ∧ touchTxRequest A p b
theorem touchExecTransmitRequest_all (h : ∀ q, A q) {p b : Nat} : touchExecTransmitRequest A p b := ⟨touchGuarded_all h, touchTxRequest_all h⟩
theorem execTransmitRequest_next {sess : ℕ} {p : ℕ} {b : ℕ} (hA : touchExecTransmitRequest A p b) : ∃ u, execTransmitRequest sess p b s = .next u ∧ Keeps A s u := by
  unfold execTransmitRequest
  have h := Keeps.refl A s
  refine ⟨_, rfl, ?_⟩
  obtain ⟨_, _⟩ := hA
  repeat' (first
    | with_reducible assumption
    | intro y
    | (with_reducible apply guarded_keeps (hA := by first | with_reducible assumption | with_reducible apply_assumption))
    | (with_reducible apply txRequest_keeps (hA := by first | with_reducible assumption | with_reducible apply_assumption))
    | with_reducible apply keeps_ite
    | split)

def touchTdcTake (A : Part → Prop) (p : Nat) : Prop := A (.inst R.CAN_TDC.TDCV p 0)
theorem touchTdcTake_all (h : ∀ q, A q) {p : Nat} : touchTdcTake A p := h _
theorem tdcTake_keeps {p : ℕ} {b : ℕ} {delay : ℕ} (hA : touchTdcTake A p)  (h : Keeps A s t) : Keeps A s (State.tdcTake t p b delay) := by
  unfold State.tdcTake
  unfold touchTdcTake at hA
  repeat' (first
    | with_reducible assumption
    | intro y
    | (with_reducible refine putMax_keepsAt (by assumption) ?_)
    | (with_reducible refine putMax_keeps (by assumption) ?_)
    | with_reducible apply keeps_ite
    | split)

def touchTxDone (A : Part → Prop) (p b : Nat) : Prop := A .can ∧ A (.inst R.CAN_BUF_CTRL.TXREQ p b)
theorem touchTxDone_all (h : ∀ q, A q) {p b : Nat} : touchTxDone A p b := ⟨h _, h _⟩
theorem txDone_keeps {p : ℕ} {b : ℕ} (hA : touchTxDone A p b)  (h : Keeps A s t) : Keeps A s (State.txDone t p b) := by
  unfold State.txDone
  obtain ⟨_, _⟩ := hA
  repeat' (first
    | with_reducible assumption
    | intro y
    | (extract_lets +onlyGivenNames x; first | (refine cut (P := Keeps A s x) ?_ ?_; (on_goal 1 => (unfold x; clear x)); (on_goal 2 => (intro hx; first | clear_value x | skip))) | clear_value x | skip)
    | (with_reducible refine put_keepsAt (by assumption) ?_)
    | (with_reducible refine put_keeps (by assumption) ?_)
    | with_reducible apply keeps_ite
    | split
    | with_reducible exact keeps_can (by assumption) (by assumption))

def touchTxFail (A : Part → Prop) (p : Nat) (b : Nat) : Prop := A (.inst R.CAN_STAT.LEC p 0) ∧ touchLog A ∧ A (.inst R.CAN_BUF_CTRL.TXFAIL p b) ∧ touchTxDone A p b ∧ touchCanEnded A ∧ touchCanPick A
theorem touchTxFail_all (h : ∀ q, A q) {p b : Nat} : touchTxFail A p b := ⟨h _, touchLog_all h, h _, touchTxDone_all h, touchCanEnded_all h, touchCanPick_all h⟩
theorem txFail_keeps {p : ℕ} {b : ℕ} {lec : ℕ} (hA : touchTxFail A p b)  (h : Keeps A s t) : Keeps A s (State.txFail t p b lec) := by
  unfold State.txFail
  obtain ⟨_, _, _, _, _, _⟩ := hA
  repeat' (first
    | with_reducible assumption
    | intro y
    | (extract_lets +onlyGivenNames x; first | (refine cut (P := Keeps A s x) ?_ ?_; (on_goal 1 => (unfold x; clear x)); (on_goal 2 => (intro hx; first | clear_value x | skip))) | clear_value x | skip)
    | (with_reducible refine put_keepsAt (by assumption) ?_)
    | (with_reducible refine put_keeps (by assumption) ?_)
    | (with_reducible apply log_keeps (hA := by first | with_reducible assumption | with_reducible apply_assumption))
    | (with_reducible apply txDone_keeps (hA := by first | with_reducible assumption | with_reducible apply_assumption))
    | (with_reducible apply canEnded_keeps (hA := by first | with_reducible assumption | with_reducible apply_assumption))
    | (with_reducible apply canPick_keeps (hA := by first | with_reducible assumption | with_reducible apply_assumption))
    | with_reducible apply keeps_ite
    | split
    | refine keeps_ite ?_ ?_)

def touchTdcAbandon (A : Part → Prop) (p b : Nat) : Prop := touchFree A ∧ touchTxFail A p b ∧ A (.inst R.CAN_TDC.TDC_RANGE p 0)
theorem touchTdcAbandon_all (h : ∀ q, A q) {p b : Nat} : touchTdcAbandon A p b := ⟨touchFree_all h, touchTxFail_all h, h _⟩
theorem tdcAbandon_keeps {p : ℕ} {b : ℕ} (hA : touchTdcAbandon A p b)  (h : Keeps A s t) : Keeps A s (State.tdcAbandon t p b) := by
  unfold State.tdcAbandon
  obtain ⟨_, _, _⟩ := hA
  repeat' (first
    | with_reducible assumption
    | intro y
    | (extract_lets +onlyGivenNames x; first | (refine cut (P := Keeps A s x) ?_ ?_; (on_goal 1 => (unfold x; clear x)); (on_goal 2 => (intro hx; first | clear_value x | skip))) | (refine cut (P := Keeps A s x.2) ?_ ?_; (on_goal 1 => (unfold x; clear x)); (on_goal 2 => (intro hx; first | clear_value x | skip))) | (refine cut (P := Keeps A s x.2.2) ?_ ?_; (on_goal 1 => (unfold x; clear x)); (on_goal 2 => (intro hx; first | clear_value x | skip))) | clear_value x | skip)
    | (with_reducible apply free_keeps (hA := by first | with_reducible assumption | with_reducible apply_assumption))
    | (with_reducible apply txFail_keeps (hA := by first | with_reducible assumption | with_reducible apply_assumption))
    | (with_reducible refine put_keepsAt (by assumption) ?_)
    | (with_reducible refine put_keeps (by assumption) ?_)
    | with_reducible apply keeps_ite
    | with_reducible apply keeps_ite2
    | with_reducible apply keeps_ite3
    | split
    | refine keeps_ite ?_ ?_)

def touchExecTransmitComplete (A : Part → Prop) (p : Nat) : Prop := (∀ x0, touchTdcAbandon A p x0) ∧ touchCanCounters A p ∧ touchTdcTake A p ∧ (∀ x0, touchTxDone A p x0) ∧ A (.reg R.CAN_BUF_CTRL.TXOK) ∧ touchEmit A ∧ touchCanMatch A p ∧ touchCanEnded A ∧ touchCanPick A
theorem touchExecTransmitComplete_all (h : ∀ q, A q) {p : Nat} : touchExecTransmitComplete A p := ⟨(fun _ => touchTdcAbandon_all h), touchCanCounters_all h, touchTdcTake_all h, (fun _ => touchTxDone_all h), h _, touchEmit_all h, touchCanMatch_all h, touchCanEnded_all h, touchCanPick_all h⟩
theorem execTransmitComplete_next {p : ℕ} {delay : ℕ} {sof : ℕ} {tec : ℕ} {rec_ : ℕ} (hA : touchExecTransmitComplete A p) : ∃ u, execTransmitComplete p delay sof tec rec_ s = .next u ∧ Keeps A s u := by
  unfold execTransmitComplete
  have h := Keeps.refl A s
  refine ⟨_, rfl, ?_⟩
  obtain ⟨_, _, _, _, _, _, _, _, _⟩ := hA
  repeat' (first
    | with_reducible assumption
    | intro y
    | (extract_lets +onlyGivenNames x; first | (refine cut (P := Keeps A s x) ?_ ?_; (on_goal 1 => (unfold x; clear x)); (on_goal 2 => (intro hx; first | clear_value x | skip))) | clear_value x | skip)
    | (with_reducible refine put_keepsAt (by assumption) ?_)
    | (with_reducible refine put_keeps (by assumption) ?_)
    | (with_reducible apply tdcAbandon_keeps (hA := by first | with_reducible assumption | with_reducible apply_assumption))
    | (with_reducible apply canCounters_keeps (hA := by first | with_reducible assumption | with_reducible apply_assumption))
    | (with_reducible apply tdcTake_keeps (hA := by first | with_reducible assumption | with_reducible apply_assumption))
    | (with_reducible apply txDone_keeps (hA := by first | with_reducible assumption | with_reducible apply_assumption))
    | (with_reducible apply emit_keeps (hA := by first | with_reducible assumption | with_reducible apply_assumption))
    | (with_reducible apply canMatch_keeps (hA := by first | with_reducible assumption | with_reducible apply_assumption))
    | (with_reducible apply canEnded_keeps (hA := by first | with_reducible assumption | with_reducible apply_assumption))
    | (with_reducible apply canPick_keeps (hA := by first | with_reducible assumption | with_reducible apply_assumption))
    | with_reducible apply keeps_ite
    | split
    | refine keeps_ite ?_ ?_)

def touchExecTransmitFail (A : Part → Prop) (p : Nat) : Prop := touchCanCounters A p ∧ touchTdcTake A p ∧ (∀ x0, touchTdcAbandon A p x0) ∧ (∀ x0, touchTxFail A p x0)
theorem touchExecTransmitFail_all (h : ∀ q, A q) {p : Nat} : touchExecTransmitFail A p := ⟨touchCanCounters_all h, touchTdcTake_all h, (fun _ => touchTdcAbandon_all h), (fun _ => touchTxFail_all h)⟩
theorem execTransmitFail_next {p : ℕ} {lec : ℕ} {delay : Option ℕ} {tec : ℕ} {rec_ : ℕ} (hA : touchExecTransmitFail A p) : ∃ u, execTransmitFail p lec delay tec rec_ s = .next u ∧ Keeps A s u := by
  unfold execTransmitFail
  have h := Keeps.refl A s
  refine ⟨_, rfl, ?_⟩
  obtain ⟨_, _, _, _⟩ := hA
  repeat' (first
    | with_reducible assumption
    | intro y
    | (extract_lets +onlyGivenNames x; first | (refine cut (P := Keeps A s x) ?_ ?_; (on_goal 1 => (unfold x; clear x)); (on_goal 2 => (intro hx; first | clear_value x | skip))) | clear_value x | skip)
    | (with_reducible apply canCounters_keeps (hA := by first | with_reducible assumption | with_reducible apply_assumption))
    | (with_reducible apply tdcTake_keeps (hA := by first | with_reducible assumption | with_reducible apply_assumption))
    | (with_reducible apply tdcAbandon_keeps (hA := by first | with_reducible assumption | with_reducible apply_assumption))
    | (with_reducible apply txFail_keeps (hA := by first | with_reducible assumption | with_reducible apply_assumption))
    | with_reducible apply keeps_ite
    | split
    | refine keeps_ite ?_ ?_)

def touchTxAbort (A : Part → Prop) (p b : Nat) : Prop := A .can ∧ touchCanPick A ∧ touchTxDone A p b ∧ A (.inst R.CAN_BUF_CTRL.TXREQ p b)
theorem touchTxAbort_all (h : ∀ q, A q) {p b : Nat} : touchTxAbort A p b := ⟨h _, touchCanPick_all h, touchTxDone_all h, h _⟩
theorem txAbort_keeps {p : ℕ} {b : ℕ} {onBus : Bool} (hA : touchTxAbort A p b)  (h : Keeps A s t) : Keeps A s (State.txAbort t p b onBus) := by
  unfold State.txAbort
  obtain ⟨_, _, _, _⟩ := hA
  repeat' (first
    | with_reducible assumption
    | intro y
    | (extract_lets +onlyGivenNames x; first | (refine cut (P := Keeps A s x) ?_ ?_; (on_goal 1 => (unfold x; clear x)); (on_goal 2 => (intro hx; first | clear_value x | skip))) | clear_value x | skip)
    | (with_reducible apply canPick_keeps (hA := by first | with_reducible assumption | with_reducible apply_assumption))
    | (with_reducible apply txDone_keeps (hA := by first | with_reducible assumption | with_reducible apply_assumption))
    | (with_reducible refine put_keepsAt (by assumption) ?_)
    | (with_reducible refine put_keeps (by assumption) ?_)
    | with_reducible apply keeps_ite
    | split
    | with_reducible exact keeps_can (by assumption) (by assumption))

def touchExecAbort (A : Part → Prop) (p b : Nat) : Prop := touchGuarded A ∧ touchTxAbort A p b
theorem touchExecAbort_all (h : ∀ q, A q) {p b : Nat} : touchExecAbort A p b := ⟨touchGuarded_all h, touchTxAbort_all h⟩
theorem execAbort_next {sess : ℕ} {p : ℕ} {b : ℕ} {onBus : Bool} (hA : touchExecAbort A p b) : ∃ u, execAbort sess p b onBus s = .next u ∧ Keeps A s u := by
  unfold execAbort
  have h := Keeps.refl A s
  refine ⟨_, rfl, ?_⟩
  obtain ⟨_, _⟩ := hA
  repeat' (first
    | with_reducible assumption
    | intro y
    | (with_reducible apply guarded_keeps (hA := by first | with_reducible assumption | with_reducible apply_assumption))
    | (with_reducible apply txAbort_keeps (hA := by first | with_reducible assumption | with_reducible apply_assumption))
    | with_reducible apply keeps_ite
    | split)

def touchExecCanSync (A : Part → Prop) (p : Nat) : Prop := touchCanPick A ∧ A (.inst R.CAN_STAT.STATE p 0)
theorem touchExecCanSync_all (h : ∀ q, A q) {p : Nat} : touchExecCanSync A p := ⟨touchCanPick_all h, h _⟩
theorem execCanSync_next {p : ℕ} {n : ℕ} (hA : touchExecCanSync A p) : ∃ u, execCanSync p n s = .next u ∧ Keeps A s u := by
  unfold execCanSync
  have h := Keeps.refl A s
  refine ⟨_, rfl, ?_⟩
  obtain ⟨_, _⟩ := hA
  repeat' (first
    | with_reducible assumption
    | intro y
    | (with_reducible apply canPick_keeps (hA := by first | with_reducible assumption | with_reducible apply_assumption))
    | (with_reducible refine put_keepsAt (by assumption) ?_)
    | (with_reducible refine put_keeps (by assumption) ?_)
    | with_reducible apply keeps_ite
    | split)

def touchBusOffQueue (A : Part → Prop) (p : Nat) : Prop := (∀ x0, touchTxDone A p x0) ∧ A .can
theorem touchBusOffQueue_all (h : ∀ q, A q) {p : Nat} : touchBusOffQueue A p := ⟨(fun _ => touchTxDone_all h), h _⟩
theorem busOffQueue_keeps {p : ℕ} (hA : touchBusOffQueue A p)  (h : Keeps A s t) : Keeps A s (State.busOffQueue t p) := by
  unfold State.busOffQueue
  obtain ⟨_, _⟩ := hA
  repeat' (first
    | with_reducible assumption
    | intro y
    | (extract_lets +onlyGivenNames x; first | (refine cut (P := Keeps A s x) ?_ ?_; (on_goal 1 => (unfold x; clear x)); (on_goal 2 => (intro hx; first | clear_value x | skip))) | clear_value x | skip)
    | (with_reducible apply txDone_keeps (hA := by first | with_reducible assumption | with_reducible apply_assumption))
    | with_reducible apply each_keeps
    | with_reducible apply keeps_ite
    | split
    | refine keeps_ite ?_ ?_
    | with_reducible exact keeps_can (by assumption) (by assumption))

def touchExecBusOff (A : Part → Prop) (p : Nat) : Prop := A (.inst R.CAN_CNT.BO_CNT p 0) ∧ A (.inst R.CAN_STAT.EPASS p 0) ∧ A (.inst R.CAN_STAT.TEC p 0) ∧ A (.inst R.CAN_STAT.STATE p 0) ∧ A (.inst R.CAN_STAT.LEC p 0) ∧ touchLog A ∧ touchBusOffQueue A p ∧ A .can
theorem touchExecBusOff_all (h : ∀ q, A q) {p : Nat} : touchExecBusOff A p := ⟨h _, h _, h _, h _, h _, touchLog_all h, touchBusOffQueue_all h, h _⟩
theorem execBusOff_next {p : ℕ} {tec : ℕ} {lec : ℕ} (hA : touchExecBusOff A p) : ∃ u, execBusOff p tec lec s = .next u ∧ Keeps A s u := by
  unfold execBusOff
  have h := Keeps.refl A s
  refine ⟨_, rfl, ?_⟩
  obtain ⟨_, _, _, _, _, _, _, _⟩ := hA
  repeat' (first
    | with_reducible assumption
    | intro y
    | (extract_lets +onlyGivenNames x; first | (refine cut (P := Keeps A s x) ?_ ?_; (on_goal 1 => (unfold x; clear x)); (on_goal 2 => (intro hx; first | clear_value x | skip))) | clear_value x | skip)
    | (with_reducible refine put_keepsAt (by assumption) ?_)
    | (with_reducible refine put_keeps (by assumption) ?_)
    | (with_reducible refine putMax_keepsAt (by assumption) ?_)
    | (with_reducible refine putMax_keeps (by assumption) ?_)
    | (with_reducible refine inc_keepsAt (by assumption) ?_)
    | (with_reducible refine inc_keeps (by assumption) ?_)
    | (with_reducible apply log_keeps (hA := by first | with_reducible assumption | with_reducible apply_assumption))
    | (with_reducible apply busOffQueue_keeps (hA := by first | with_reducible assumption | with_reducible apply_assumption))
    | with_reducible apply keeps_ite
    | split
    | refine keeps_ite ?_ ?_
    | with_reducible exact keeps_can (by assumption) (by assumption))

def touchExecBusOffWait (A : Part → Prop) (p : Nat) : Prop := A (.inst R.CAN_STAT.STATE p 0)
theorem touchExecBusOffWait_all (h : ∀ q, A q) {p : Nat} : touchExecBusOffWait A p := h _
theorem execBusOffWait_next {p : ℕ} {ms : ℕ} (hA : touchExecBusOffWait A p) : ∃ u, execBusOffWait p ms s = .next u ∧ Keeps A s u := by
  unfold execBusOffWait
  have h := Keeps.refl A s
  refine ⟨_, rfl, ?_⟩
  unfold touchExecBusOffWait at hA
  repeat' (first
    | with_reducible assumption
    | intro y
    | (with_reducible refine put_keepsAt (by assumption) ?_)
    | (with_reducible refine put_keeps (by assumption) ?_)
    | with_reducible apply keeps_ite
    | split)

def touchCanRecover (A : Part → Prop) (p : Nat) : Prop := A .can ∧ A (.inst R.CAN_STAT.STATE p 0)
theorem touchCanRecover_all (h : ∀ q, A q) {p : Nat} : touchCanRecover A p := ⟨h _, h _⟩
theorem canRecover_keeps {p : ℕ} (hA : touchCanRecover A p)  (h : Keeps A s t) : Keeps A s (State.canRecover t p) := by
  unfold State.canRecover
  obtain ⟨_, _⟩ := hA
  repeat' (first
    | with_reducible assumption
    | intro y
    | (extract_lets +onlyGivenNames x; first | (refine cut (P := Keeps A s x) ?_ ?_; (on_goal 1 => (unfold x; clear x)); (on_goal 2 => (intro hx; first | clear_value x | skip))) | clear_value x | skip)
    | (with_reducible refine put_keepsAt (by assumption) ?_)
    | (with_reducible refine put_keeps (by assumption) ?_)
    | with_reducible apply keeps_ite
    | split
    | with_reducible exact keeps_can (by assumption) (by assumption))

def touchExecRecover (A : Part → Prop) (p : Nat) : Prop := touchGuarded A ∧ touchCanRecover A p
theorem touchExecRecover_all (h : ∀ q, A q) {p : Nat} : touchExecRecover A p := ⟨touchGuarded_all h, touchCanRecover_all h⟩
theorem execRecover_next {sess : ℕ} {p : ℕ} (hA : touchExecRecover A p) : ∃ u, execRecover sess p s = .next u ∧ Keeps A s u := by
  unfold execRecover
  have h := Keeps.refl A s
  refine ⟨_, rfl, ?_⟩
  obtain ⟨_, _⟩ := hA
  repeat' (first
    | with_reducible assumption
    | intro y
    | (with_reducible apply guarded_keeps (hA := by first | with_reducible assumption | with_reducible apply_assumption))
    | (with_reducible apply canRecover_keeps (hA := by first | with_reducible assumption | with_reducible apply_assumption))
    | with_reducible apply keeps_ite
    | split)

def touchExecBusOffRecovered (A : Part → Prop) (p : Nat) : Prop := A (.inst R.CAN_STAT.BO_RUN p 0) ∧ A (.inst R.CAN_STAT.REC p 0) ∧ A (.inst R.CAN_STAT.TEC p 0) ∧ A (.inst R.CAN_STAT.STATE p 0) ∧ touchCanPick A ∧ touchLog A
theorem touchExecBusOffRecovered_all (h : ∀ q, A q) {p : Nat} : touchExecBusOffRecovered A p := ⟨h _, h _, h _, h _, touchCanPick_all h, touchLog_all h⟩
theorem execBusOffRecovered_next {p : ℕ} {n : ℕ} (hA : touchExecBusOffRecovered A p) : ∃ u, execBusOffRecovered p n s = .next u ∧ Keeps A s u := by
  unfold execBusOffRecovered
  have h := Keeps.refl A s
  refine ⟨_, rfl, ?_⟩
  obtain ⟨_, _, _, _, _, _⟩ := hA
  repeat' (first
    | with_reducible assumption
    | intro y
    | (extract_lets +onlyGivenNames x; first | (refine cut (P := Keeps A s x) ?_ ?_; (on_goal 1 => (unfold x; clear x)); (on_goal 2 => (intro hx; first | clear_value x | skip))) | clear_value x | skip)
    | (with_reducible refine inc_keepsAt (by assumption) ?_)
    | (with_reducible refine inc_keeps (by assumption) ?_)
    | (with_reducible refine put_keepsAt (by assumption) ?_)
    | (with_reducible refine put_keeps (by assumption) ?_)
    | (with_reducible apply canPick_keeps (hA := by first | with_reducible assumption | with_reducible apply_assumption))
    | (with_reducible apply log_keeps (hA := by first | with_reducible assumption | with_reducible apply_assumption))
    | with_reducible apply keeps_ite
    | split
    | refine keeps_ite ?_ ?_)

def touchExecErrorPassive (A : Part → Prop) (p : Nat) : Prop := A (.inst R.CAN_STAT.EPASS p 0) ∧ touchCanCounters A p ∧ touchLog A
theorem touchExecErrorPassive_all (h : ∀ q, A q) {p : Nat} : touchExecErrorPassive A p := ⟨h _, touchCanCounters_all h, touchLog_all h⟩
theorem execErrorPassive_next {p : ℕ} {tec : ℕ} {rec_ : ℕ} (hA : touchExecErrorPassive A p) : ∃ u, execErrorPassive p sec rec_ s = .next u ∧ Keeps A s u := by
  unfold execErrorPassive
  have h := Keeps.refl A s
  refine ⟨_, rfl, ?_⟩
  obtain ⟨_, _, _⟩ := hA
  repeat' (first
    | with_reducible assumption
    | intro y
    | (extract_lets +onlyGivenNames x; first | (refine cut (P := Keeps A s x) ?_ ?_; (on_goal 1 => (unfold x; clear x)); (on_goal 2 => (intro hx; first | clear_value x | skip))) | clear_value x | skip)
    | (with_reducible refine put_keepsAt (by assumption) ?_)
    | (with_reducible refine put_keeps (by assumption) ?_)
    | (with_reducible apply canCounters_keeps (hA := by first | with_reducible assumption | with_reducible apply_assumption))
    | (with_reducible apply log_keeps (hA := by first | with_reducible assumption | with_reducible apply_assumption))
    | with_reducible apply keeps_ite
    | split
    | refine keeps_ite ?_ ?_)

def touchExecErrorActive (A : Part → Prop) (p : Nat) : Prop := touchLog A ∧ A (.inst R.CAN_STAT.EPASS p 0) ∧ touchCanCounters A p
theorem touchExecErrorActive_all (h : ∀ q, A q) {p : Nat} : touchExecErrorActive A p := ⟨touchLog_all h, h _, touchCanCounters_all h⟩
theorem execErrorActive_next {p : ℕ} {tec : ℕ} {rec_ : ℕ} (hA : touchExecErrorActive A p) : ∃ u, execErrorActive p sec rec_ s = .next u ∧ Keeps A s u := by
  unfold execErrorActive
  have h := Keeps.refl A s
  refine ⟨_, rfl, ?_⟩
  obtain ⟨_, _, _⟩ := hA
  repeat' (first
    | with_reducible assumption
    | intro y
    | (with_reducible apply log_keeps (hA := by first | with_reducible assumption | with_reducible apply_assumption))
    | (with_reducible refine put_keepsAt (by assumption) ?_)
    | (with_reducible refine put_keeps (by assumption) ?_)
    | (with_reducible apply canCounters_keeps (hA := by first | with_reducible assumption | with_reducible apply_assumption))
    | with_reducible apply keeps_ite
    | split)

def touchExecBoRunClear (A : Part → Prop) (p : Nat) : Prop := A (.inst R.CAN_STAT.BO_RUN p 0)
theorem touchExecBoRunClear_all (h : ∀ q, A q) {p : Nat} : touchExecBoRunClear A p := h _
theorem execBoRunClear_next {p : ℕ} {ms : ℕ} (hA : touchExecBoRunClear A p) : ∃ u, execBoRunClear p ms s = .next u ∧ Keeps A s u := by
  unfold execBoRunClear
  have h := Keeps.refl A s
  refine ⟨_, rfl, ?_⟩
  unfold touchExecBoRunClear at hA
  repeat' (first
    | with_reducible assumption
    | intro y
    | (with_reducible refine put_keepsAt (by assumption) ?_)
    | (with_reducible refine put_keeps (by assumption) ?_)
    | with_reducible apply keeps_ite
    | split)

end Sys2Proof.Laws
end

