-- ==== Sys2Proof/Laws/KeepsFabOps.lean ====
section
/-! SUPPORT. What the operations of Machine/FabOps.lean leave alone: for each the parts it may change (`touch…`) and its lemma. -/

namespace Sys2Proof.Laws

open Sys2Proof.Machine

set_option linter.unusedTactic false
set_option linter.unreachableTactic false
set_option linter.unusedVariables false
set_option linter.tactic.unusedName false

variable {A : Part → Prop} {s t : State}

def touchSetRoot (A : Part → Prop) : Prop := A (.reg R.FAB_ROOT_SER_LO.SERIAL) ∧ A (.reg R.FAB_ROOT_SER_HI.SERIAL) ∧ A (.reg R.FAB_KEY.ROOT_PRIO) ∧ A (.reg R.FAB_KEY.ROOT_CLASS) ∧ A .fab
theorem touchSetRoot_all (h : ∀ q, A q) : touchSetRoot A := ⟨h _, h _, h _, h _, h _⟩
theorem setRoot_keeps {k : Sys2Proof.FabKey} {seq : ℕ} (hA : touchSetRoot A)  (h : Keeps A s t) : Keeps A s (State.setRoot t k seq) := by
  unfold State.setRoot
  obtain ⟨_, _, _, _, _⟩ := hA
  repeat' (first
    | with_reducible assumption
    | intro y
    | (extract_lets +onlyGivenNames x; first | (refine cut (P := Keeps A s x) ?_ ?_; (on_goal 1 => (unfold x; clear x)); (on_goal 2 => (intro hx; first | clear_value x | skip))) | clear_value x | skip)
    | (with_reducible refine put_keepsAt (by assumption) ?_)
    | (with_reducible refine put_keeps (by assumption) ?_)
    | (with_reducible refine put2_keepsAt (by assumption) (by assumption) ?_)
    | (with_reducible refine put2_keeps (by assumption) (by assumption) ?_)
    | with_reducible apply keeps_ite
    | split
    | refine keeps_ite ?_ ?_
    | with_reducible exact keeps_fab (by assumption) (by assumption))

def touchAnnounce (A : Part → Prop) : Prop := touchSrcSend A
theorem touchAnnounce_all (h : ∀ q, A q) : touchAnnounce A := touchSrcSend_all h
theorem announce_keeps  (hA : touchAnnounce A)  (h : Keeps A s t) : Keeps A s (State.announce t) := by
  unfold State.announce
  unfold touchAnnounce at hA
  repeat' (first
    | with_reducible assumption
    | intro y
    | (extract_lets +onlyGivenNames x; first | (refine cut (P := Keeps A s x) ?_ ?_; (on_goal 1 => (unfold x; clear x)); (on_goal 2 => (intro hx; first | clear_value x | skip))) | clear_value x | skip)
    | (with_reducible apply srcSend_keeps (hA := by first | with_reducible assumption | with_reducible apply_assumption))
    | with_reducible apply keeps_ite
    | with_reducible apply keeps_foldl
    | split
    | refine keeps_ite ?_ ?_)

def touchTakeClass (A : Part → Prop) : Prop := A (.reg R.FAB_KEY.OWN_CLASS) ∧ A .fab
theorem touchTakeClass_all (h : ∀ q, A q) : touchTakeClass A := ⟨h _, h _⟩
theorem takeClass_keeps  (hA : touchTakeClass A)  (h : Keeps A s t) : Keeps A s (State.takeClass t) := by
  unfold State.takeClass
  obtain ⟨_, _⟩ := hA
  repeat' (first
    | with_reducible assumption
    | intro y
    | (extract_lets +onlyGivenNames x; first | (refine cut (P := Keeps A s x) ?_ ?_; (on_goal 1 => (unfold x; clear x)); (on_goal 2 => (intro hx; first | clear_value x | skip))) | clear_value x | skip)
    | (with_reducible refine put_keepsAt (by assumption) ?_)
    | (with_reducible refine put_keeps (by assumption) ?_)
    | with_reducible apply keeps_ite
    | split
    | refine keeps_ite ?_ ?_
    | with_reducible exact keeps_fab (by assumption) (by assumption))

def touchSlRootState (A : Part → Prop) : Prop := A (.reg R.SL_STAT.ROOT_STATE)
theorem touchSlRootState_all (h : ∀ q, A q) : touchSlRootState A := h _
theorem slRootState_keeps {st : ℕ} (hA : touchSlRootState A)  (h : Keeps A s t) : Keeps A s (State.slRootState t st) := by
  unfold State.slRootState
  unfold touchSlRootState at hA
  repeat' (first
    | with_reducible assumption
    | intro y
    | (with_reducible refine put_keepsAt (by assumption) ?_)
    | (with_reducible refine put_keeps (by assumption) ?_)
    | with_reducible apply keeps_ite
    | split)

def touchSlLogState (A : Part → Prop) : Prop := touchLog A
theorem touchSlLogState_all (h : ∀ q, A q) : touchSlLogState A := touchLog_all h
theorem slLogState_keeps  (hA : touchSlLogState A)  (h : Keeps A s t) : Keeps A s (State.slLogState t) := by
  unfold State.slLogState
  unfold touchSlLogState at hA
  repeat' (first
    | with_reducible assumption
    | intro y
    | (with_reducible apply log_keeps (hA := by first | with_reducible assumption | with_reducible apply_assumption))
    | with_reducible apply keeps_ite
    | split)

def touchSlRootStart (A : Part → Prop) : Prop := A .sl ∧ touchSlLogState A ∧ A (.reg R.SL_ROOT_WAIT.WAIT_MS) ∧ touchSlRootState A ∧ A (.reg R.SL_GEN.GEN_OWN)
theorem touchSlRootStart_all (h : ∀ q, A q) : touchSlRootStart A := ⟨h _, touchSlLogState_all h, h _, touchSlRootState_all h, h _⟩
theorem slRootStart_keeps {now : ℕ} (hA : touchSlRootStart A)  (h : Keeps A s t) : Keeps A s (State.slRootStart t now) := by
  unfold State.slRootStart
  obtain ⟨_, _, _, _, _⟩ := hA
  repeat' (first
    | with_reducible assumption
    | intro y
    | (extract_lets +onlyGivenNames x; first | (refine cut (P := Keeps A s x) ?_ ?_; (on_goal 1 => (unfold x; clear x)); (on_goal 2 => (intro hx; first | clear_value x | skip))) | clear_value x | skip)
    | (with_reducible apply slLogState_keeps (hA := by first | with_reducible assumption | with_reducible apply_assumption))
    | (with_reducible refine put_keepsAt (by assumption) ?_)
    | (with_reducible refine put_keeps (by assumption) ?_)
    | (with_reducible apply slRootState_keeps (hA := by first | with_reducible assumption | with_reducible apply_assumption))
    | with_reducible apply keeps_ite
    | split
    | refine keeps_ite ?_ ?_
    | with_reducible exact keeps_sl (by assumption) (by assumption))

def touchSlRootStop (A : Part → Prop) : Prop := A .sl ∧ touchSlLogState A ∧ A (.reg R.SL_ROOT_WAIT.WAIT_MS) ∧ A (.reg R.SL_STAT.QUORUM) ∧ touchSlRootState A
theorem touchSlRootStop_all (h : ∀ q, A q) : touchSlRootStop A := ⟨h _, touchSlLogState_all h, h _, h _, touchSlRootState_all h⟩
theorem slRootStop_keeps  (hA : touchSlRootStop A)  (h : Keeps A s t) : Keeps A s (State.slRootStop t) := by
  unfold State.slRootStop
  obtain ⟨_, _, _, _, _⟩ := hA
  repeat' (first
    | with_reducible assumption
    | intro y
    | (extract_lets +onlyGivenNames x; first | (refine cut (P := Keeps A s x) ?_ ?_; (on_goal 1 => (unfold x; clear x)); (on_goal 2 => (intro hx; first | clear_value x | skip))) | clear_value x | skip)
    | (with_reducible apply slLogState_keeps (hA := by first | with_reducible assumption | with_reducible apply_assumption))
    | (with_reducible refine put_keepsAt (by assumption) ?_)
    | (with_reducible refine put_keeps (by assumption) ?_)
    | (with_reducible apply slRootState_keeps (hA := by first | with_reducible assumption | with_reducible apply_assumption))
    | with_reducible apply keeps_ite
    | split
    | refine keeps_ite ?_ ?_
    | with_reducible exact keeps_sl (by assumption) (by assumption))

def touchRootOff (A : Part → Prop) : Prop := touchSlRootStop A ∧ touchSrcCheck A ∧ A (.reg R.TB_STAT.ROOT) ∧ A (.reg R.FAB_STAT.ROOT)
theorem touchRootOff_all (h : ∀ q, A q) : touchRootOff A := ⟨touchSlRootStop_all h, touchSrcCheck_all h, h _, h _⟩
theorem rootOff_keeps  (hA : touchRootOff A)  (h : Keeps A s t) : Keeps A s (State.rootOff t) := by
  unfold State.rootOff
  obtain ⟨_, _, _, _⟩ := hA
  repeat' (first
    | with_reducible assumption
    | intro y
    | (extract_lets +onlyGivenNames x; first | (refine cut (P := Keeps A s x) ?_ ?_; (on_goal 1 => (unfold x; clear x)); (on_goal 2 => (intro hx; first | clear_value x | skip))) | clear_value x | skip)
    | (with_reducible refine put_keepsAt (by assumption) ?_)
    | (with_reducible refine put_keeps (by assumption) ?_)
    | (with_reducible apply slRootStop_keeps (hA := by first | with_reducible assumption | with_reducible apply_assumption))
    | (with_reducible apply srcCheck_keeps (hA := by first | with_reducible assumption | with_reducible apply_assumption))
    | with_reducible apply keeps_ite
    | split
    | refine keeps_ite ?_ ?_)

def touchRelaysDrop (A : Part → Prop) : Prop := A .mg ∧ A (.reg R.SYS_MGMT_STAT.N_RELAY)
theorem touchRelaysDrop_all (h : ∀ q, A q) : touchRelaysDrop A := ⟨h _, h _⟩
theorem relaysDrop_keeps  (hA : touchRelaysDrop A)  (h : Keeps A s t) : Keeps A s (State.relaysDrop t) := by
  unfold State.relaysDrop
  obtain ⟨_, _⟩ := hA
  repeat' (first
    | with_reducible assumption
    | intro y
    | (extract_lets +onlyGivenNames x; first | (refine cut (P := Keeps A s x) ?_ ?_; (on_goal 1 => (unfold x; clear x)); (on_goal 2 => (intro hx; first | clear_value x | skip))) | clear_value x | skip)
    | (with_reducible refine put_keepsAt (by assumption) ?_)
    | (with_reducible refine put_keeps (by assumption) ?_)
    | with_reducible apply keeps_ite
    | split
    | with_reducible exact keeps_mg (by assumption) (by assumption))

def touchRootOn (A : Part → Prop) : Prop := touchRelaysDrop A ∧ A (.reg R.FAB_STAT.LEVEL) ∧ A (.reg R.FAB_STAT.NODE_ID) ∧ (∀ x0, touchSetDir A x0) ∧ touchSetParent A ∧ A .fab ∧ touchSrcCheck A ∧ A (.reg R.TB_STAT.ROOT) ∧ A (.reg R.FAB_STAT.ROOT) ∧ touchSetRoot A ∧ touchSlRootStart A
theorem touchRootOn_all (h : ∀ q, A q) : touchRootOn A := ⟨touchRelaysDrop_all h, h _, h _, (fun _ => touchSetDir_all h), touchSetParent_all h, h _, touchSrcCheck_all h, h _, h _, touchSetRoot_all h, touchSlRootStart_all h⟩
theorem rootOn_keeps {now : ℕ} (hA : touchRootOn A)  (h : Keeps A s t) : Keeps A s (State.rootOn t now) := by
  unfold State.rootOn
  obtain ⟨_, _, _, _, _, _, _, _, _, _, _⟩ := hA
  repeat' (first
    | with_reducible assumption
    | intro y
    | (extract_lets +onlyGivenNames x; first | (refine cut (P := Keeps A s x) ?_ ?_; (on_goal 1 => (unfold x; clear x)); (on_goal 2 => (intro hx; first | clear_value x | skip))) | clear_value x | skip)
    | (with_reducible refine put_keepsAt (by assumption) ?_)
    | (with_reducible refine put_keeps (by assumption) ?_)
    | (with_reducible apply relaysDrop_keeps (hA := by first | with_reducible assumption | with_reducible apply_assumption))
    | (with_reducible apply setDir_keeps (hA := by first | with_reducible assumption | with_reducible apply_assumption))
    | (with_reducible apply setParent_keeps (hA := by first | with_reducible assumption | with_reducible apply_assumption))
    | (with_reducible apply srcCheck_keeps (hA := by first | with_reducible assumption | with_reducible apply_assumption))
    | (with_reducible apply setRoot_keeps (hA := by first | with_reducible assumption | with_reducible apply_assumption))
    | (with_reducible apply slRootStart_keeps (hA := by first | with_reducible assumption | with_reducible apply_assumption))
    | with_reducible apply when_keeps
    | with_reducible apply keeps_ite
    | with_reducible apply keeps_foldl
    | split
    | refine keeps_ite ?_ ?_
    | with_reducible exact keeps_fab (by assumption) (by assumption))

def touchRootReset (A : Part → Prop) : Prop := touchSrcCheck A ∧ A (.reg R.TB_STAT.ROOT) ∧ A (.reg R.FAB_STAT.ROOT) ∧ touchRootOff A
theorem touchRootReset_all (h : ∀ q, A q) : touchRootReset A := ⟨touchSrcCheck_all h, h _, h _, touchRootOff_all h⟩
theorem rootReset_keeps {doms : ℕ} (hA : touchRootReset A)  (h : Keeps A s t) : Keeps A s (State.rootReset t doms) := by
  unfold State.rootReset
  obtain ⟨_, _, _, _⟩ := hA
  repeat' (first
    | with_reducible assumption
    | intro y
    | (extract_lets +onlyGivenNames x; first | (refine cut (P := Keeps A s x) ?_ ?_; (on_goal 1 => (unfold x; clear x)); (on_goal 2 => (intro hx; first | clear_value x | skip))) | clear_value x | skip)
    | (with_reducible refine put_keepsAt (by assumption) ?_)
    | (with_reducible refine put_keeps (by assumption) ?_)
    | (with_reducible apply srcCheck_keeps (hA := by first | with_reducible assumption | with_reducible apply_assumption))
    | (with_reducible apply rootOff_keeps (hA := by first | with_reducible assumption | with_reducible apply_assumption))
    | with_reducible apply keeps_ite
    | split
    | refine keeps_ite ?_ ?_)

def touchFabStart (A : Part → Prop) : Prop := A (.reg R.FAB_STAT.STATE)
theorem touchFabStart_all (h : ∀ q, A q) : touchFabStart A := h _
theorem fabStart_keeps  (hA : touchFabStart A)  (h : Keeps A s t) : Keeps A s (State.fabStart t) := by
  unfold State.fabStart
  unfold touchFabStart at hA
  repeat' (first
    | with_reducible assumption
    | intro y
    | (with_reducible refine put_keepsAt (by assumption) ?_)
    | (with_reducible refine put_keeps (by assumption) ?_)
    | with_reducible apply keeps_ite
    | split)

def touchFabElect (A : Part → Prop) : Prop := A .fab ∧ touchRootOff A ∧ touchAnnounce A ∧ A (.reg R.FAB_STAT.STATE)
theorem touchFabElect_all (h : ∀ q, A q) : touchFabElect A := ⟨h _, touchRootOff_all h, touchAnnounce_all h, h _⟩
theorem fabElect_keeps  (hA : touchFabElect A)  (h : Keeps A s t) : Keeps A s (State.fabElect t) := by
  unfold State.fabElect
  obtain ⟨_, _, _, _⟩ := hA
  repeat' (first
    | with_reducible assumption
    | intro y
    | (extract_lets +onlyGivenNames x; first | (refine cut (P := Keeps A s x) ?_ ?_; (on_goal 1 => (unfold x; clear x)); (on_goal 2 => (intro hx; first | clear_value x | skip))) | clear_value x | skip)
    | (with_reducible apply rootOff_keeps (hA := by first | with_reducible assumption | with_reducible apply_assumption))
    | (with_reducible apply announce_keeps (hA := by first | with_reducible assumption | with_reducible apply_assumption))
    | (with_reducible refine put_keepsAt (by assumption) ?_)
    | (with_reducible refine put_keeps (by assumption) ?_)
    | with_reducible apply keeps_ite
    | split
    | refine keeps_ite ?_ ?_
    | with_reducible exact keeps_fab (by assumption) (by assumption))

def touchJoinRequest (A : Part → Prop) : Prop := touchSrcSend A
theorem touchJoinRequest_all (h : ∀ q, A q) : touchJoinRequest A := touchSrcSend_all h
theorem joinRequest_keeps  (hA : touchJoinRequest A)  (h : Keeps A s t) : Keeps A s (State.joinRequest t) := by
  unfold State.joinRequest
  unfold touchJoinRequest at hA
  repeat' (first
    | with_reducible assumption
    | intro y
    | (extract_lets +onlyGivenNames x; first | (refine cut (P := Keeps A s x) ?_ ?_; (on_goal 1 => (unfold x; clear x)); (on_goal 2 => (intro hx; first | clear_value x | skip))) | clear_value x | skip)
    | (with_reducible apply srcSend_keeps (hA := by first | with_reducible assumption | with_reducible apply_assumption))
    | with_reducible apply keeps_ite
    | split
    | refine keeps_ite ?_ ?_)

def touchIdLeave (A : Part → Prop) : Prop := A .fab
theorem touchIdLeave_all (h : ∀ q, A q) : touchIdLeave A := h _
theorem idLeave_keeps {node : ℕ} (hA : touchIdLeave A)  (h : Keeps A s t) : Keeps A s (State.idLeave t node) := by
  unfold State.idLeave
  unfold touchIdLeave at hA
  repeat' (first
    | with_reducible assumption
    | intro y
    | (extract_lets +onlyGivenNames x; first | (refine cut (P := Keeps A s x) ?_ ?_; (on_goal 1 => (unfold x; clear x)); (on_goal 2 => (intro hx; first | clear_value x | skip))) | clear_value x | skip)
    | with_reducible apply keeps_ite
    | split
    | with_reducible exact keeps_fab (by assumption) (by assumption))

def touchTopoTake (A : Part → Prop) : Prop := touchIdLeave A ∧ A .fab
theorem touchTopoTake_all (h : ∀ q, A q) : touchTopoTake A := ⟨touchIdLeave_all h, h _⟩
theorem topoTake_keeps {topo : Sys2Proof.Machine.Topo} (hA : touchTopoTake A)  (h : Keeps A s t) : Keeps A s (State.topoTake t topo) := by
  unfold State.topoTake
  obtain ⟨_, _⟩ := hA
  repeat' (first
    | with_reducible assumption
    | intro y
    | (extract_lets +onlyGivenNames x; first | (refine cut (P := Keeps A s x) ?_ ?_; (on_goal 1 => (unfold x; clear x)); (on_goal 2 => (intro hx; first | clear_value x | skip))) | clear_value x | skip)
    | (with_reducible apply idLeave_keeps (hA := by first | with_reducible assumption | with_reducible apply_assumption))
    | with_reducible apply keeps_ite
    | with_reducible apply keeps_foldl
    | split
    | refine keeps_ite ?_ ?_
    | with_reducible exact keeps_fab (by assumption) (by assumption))

def touchLinkReport (A : Part → Prop) : Prop := touchTopoTake A ∧ touchSrcSend A
theorem touchLinkReport_all (h : ∀ q, A q) : touchLinkReport A := ⟨touchTopoTake_all h, touchSrcSend_all h⟩
theorem linkReport_keeps  (hA : touchLinkReport A)  (h : Keeps A s t) : Keeps A s (State.linkReport t) := by
  unfold State.linkReport
  obtain ⟨_, _⟩ := hA
  repeat' (first
    | with_reducible assumption
    | intro y
    | (extract_lets +onlyGivenNames x; first | (refine cut (P := Keeps A s x) ?_ ?_; (on_goal 1 => (unfold x; clear x)); (on_goal 2 => (intro hx; first | clear_value x | skip))) | clear_value x | skip)
    | (with_reducible apply topoTake_keeps (hA := by first | with_reducible assumption | with_reducible apply_assumption))
    | (with_reducible apply srcSend_keeps (hA := by first | with_reducible assumption | with_reducible apply_assumption))
    | with_reducible apply keeps_ite
    | split
    | refine keeps_ite ?_ ?_)

def touchFabJoin (A : Part → Prop) : Prop := touchLog A ∧ A (.reg R.FAB_STAT.NODE_ID) ∧ touchRelaysDrop A ∧ touchRootOff A ∧ touchJoinRequest A ∧ A (.reg R.FAB_STAT.STATE) ∧ touchSetRoot A
theorem touchFabJoin_all (h : ∀ q, A q) : touchFabJoin A := ⟨touchLog_all h, h _, touchRelaysDrop_all h, touchRootOff_all h, touchJoinRequest_all h, h _, touchSetRoot_all h⟩
theorem fabJoin_keeps {k : Sys2Proof.FabKey} {seq : ℕ} (hA : touchFabJoin A)  (h : Keeps A s t) : Keeps A s (State.fabJoin t k seq) := by
  unfold State.fabJoin
  obtain ⟨_, _, _, _, _, _, _⟩ := hA
  repeat' (first
    | with_reducible assumption
    | intro y
    | (extract_lets +onlyGivenNames x; first | (refine cut (P := Keeps A s x) ?_ ?_; (on_goal 1 => (unfold x; clear x)); (on_goal 2 => (intro hx; first | clear_value x | skip))) | clear_value x | skip)
    | (with_reducible refine put_keepsAt (by assumption) ?_)
    | (with_reducible refine put_keeps (by assumption) ?_)
    | (with_reducible apply log_keeps (hA := by first | with_reducible assumption | with_reducible apply_assumption))
    | (with_reducible apply relaysDrop_keeps (hA := by first | with_reducible assumption | with_reducible apply_assumption))
    | (with_reducible apply rootOff_keeps (hA := by first | with_reducible assumption | with_reducible apply_assumption))
    | (with_reducible apply joinRequest_keeps (hA := by first | with_reducible assumption | with_reducible apply_assumption))
    | (with_reducible apply setRoot_keeps (hA := by first | with_reducible assumption | with_reducible apply_assumption))
    | with_reducible apply keeps_ite
    | split
    | refine keeps_ite ?_ ?_)

def touchFabLinkUp (A : Part → Prop) : Prop := touchLinkReport A ∧ touchFabElect A ∧ touchTakeClass A
theorem touchFabLinkUp_all (h : ∀ q, A q) : touchFabLinkUp A := ⟨touchLinkReport_all h, touchFabElect_all h, touchTakeClass_all h⟩
theorem fabLinkUp_keeps  (hA : touchFabLinkUp A)  (h : Keeps A s t) : Keeps A s (State.fabLinkUp t) := by
  unfold State.fabLinkUp
  obtain ⟨_, _, _⟩ := hA
  repeat' (first
    | with_reducible assumption
    | intro y
    | (extract_lets +onlyGivenNames x; first | (refine cut (P := Keeps A s x) ?_ ?_; (on_goal 1 => (unfold x; clear x)); (on_goal 2 => (intro hx; first | clear_value x | skip))) | clear_value x | skip)
    | (with_reducible apply linkReport_keeps (hA := by first | with_reducible assumption | with_reducible apply_assumption))
    | (with_reducible apply fabElect_keeps (hA := by first | with_reducible assumption | with_reducible apply_assumption))
    | (with_reducible apply takeClass_keeps (hA := by first | with_reducible assumption | with_reducible apply_assumption))
    | with_reducible apply keeps_ite
    | split
    | refine keeps_ite ?_ ?_)

def touchFabLinkLost (A : Part → Prop) (l : Nat) : Prop := A .fab ∧ touchLinkReport A ∧ touchSetParent A ∧ touchSetDir A l ∧ touchAnnounce A
theorem touchFabLinkLost_all (h : ∀ q, A q) {l : Nat} : touchFabLinkLost A l := ⟨h _, touchLinkReport_all h, touchSetParent_all h, touchSetDir_all h, touchAnnounce_all h⟩
theorem fabLinkLost_keeps {l : ℕ} (hA : touchFabLinkLost A l)  (h : Keeps A s t) : Keeps A s (State.fabLinkLost t l) := by
  unfold State.fabLinkLost
  obtain ⟨_, _, _, _, _⟩ := hA
  repeat' (first
    | with_reducible assumption
    | intro y
    | (extract_lets +onlyGivenNames x; first | (refine cut (P := Keeps A s x) ?_ ?_; (on_goal 1 => (unfold x; clear x)); (on_goal 2 => (intro hx; first | clear_value x | skip))) | clear_value x | skip)
    | (with_reducible apply linkReport_keeps (hA := by first | with_reducible assumption | with_reducible apply_assumption))
    | (with_reducible apply setParent_keeps (hA := by first | with_reducible assumption | with_reducible apply_assumption))
    | (with_reducible apply setDir_keeps (hA := by first | with_reducible assumption | with_reducible apply_assumption))
    | (with_reducible apply announce_keeps (hA := by first | with_reducible assumption | with_reducible apply_assumption))
    | with_reducible apply when_keeps
    | with_reducible apply keeps_ite
    | split
    | refine keeps_ite ?_ ?_
    | with_reducible exact keeps_fab (by assumption) (by assumption))

def touchNbrLearn (A : Part → Prop) (l : Nat) : Prop := A (.inst R.FAB_LANE_STAT.NBR_ID l 0) ∧ touchLinkReport A
theorem touchNbrLearn_all (h : ∀ q, A q) {l : Nat} : touchNbrLearn A l := ⟨h _, touchLinkReport_all h⟩
theorem nbrLearn_keeps {l : ℕ} {node : ℕ} (hA : touchNbrLearn A l)  (h : Keeps A s t) : Keeps A s (State.nbrLearn t l node) := by
  unfold State.nbrLearn
  obtain ⟨_, _⟩ := hA
  repeat' (first
    | with_reducible assumption
    | intro y
    | (extract_lets +onlyGivenNames x; first | (refine cut (P := Keeps A s x) ?_ ?_; (on_goal 1 => (unfold x; clear x)); (on_goal 2 => (intro hx; first | clear_value x | skip))) | clear_value x | skip)
    | (with_reducible refine put_keepsAt (by assumption) ?_)
    | (with_reducible refine put_keeps (by assumption) ?_)
    | (with_reducible apply linkReport_keeps (hA := by first | with_reducible assumption | with_reducible apply_assumption))
    | with_reducible apply when_keeps
    | with_reducible apply keeps_ite
    | split
    | refine keeps_ite ?_ ?_)

def touchNbrGrant (A : Part → Prop) : Prop := A (.reg R.FAB_LANE_STAT.NBR_ID) ∧ A .plc
theorem touchNbrGrant_all (h : ∀ q, A q) : touchNbrGrant A := ⟨h _, h _⟩
theorem nbrGrant_keeps {serial : ℕ} {id : ℕ} (hA : touchNbrGrant A)  (h : Keeps A s t) : Keeps A s (State.nbrGrant t serial id) := by
  unfold State.nbrGrant
  obtain ⟨_, _⟩ := hA
  repeat' (first
    | with_reducible assumption
    | intro y
    | (extract_lets +onlyGivenNames x; first | (refine cut (P := Keeps A s x) ?_ ?_; (on_goal 1 => (unfold x; clear x)); (on_goal 2 => (intro hx; first | clear_value x | skip))) | clear_value x | skip)
    | (with_reducible refine put_keepsAt (by assumption) ?_)
    | (with_reducible refine put_keeps (by assumption) ?_)
    | with_reducible apply each_keeps
    | with_reducible apply keeps_ite
    | split
    | refine keeps_ite ?_ ?_
    | with_reducible exact keeps_plc (by assumption) (by assumption))

def touchLeaveAll (A : Part → Prop) : Prop := touchEmit A
theorem touchLeaveAll_all (h : ∀ q, A q) : touchLeaveAll A := touchEmit_all h
theorem leaveAll_keeps  (hA : touchLeaveAll A)  (h : Keeps A s t) : Keeps A s (State.leaveAll t) := by
  unfold State.leaveAll
  unfold touchLeaveAll at hA
  repeat' (first
    | with_reducible assumption
    | intro y
    | (with_reducible apply emit_keeps (hA := by first | with_reducible assumption | with_reducible apply_assumption))
    | with_reducible apply keeps_ite
    | with_reducible apply keeps_foldl
    | split)

def touchInjectAll (A : Part → Prop) : Prop := touchSrcSend A ∧ A .fab ∧ touchRouteFrame A
theorem touchInjectAll_all (h : ∀ q, A q) : touchInjectAll A := ⟨touchSrcSend_all h, h _, touchRouteFrame_all h⟩
theorem injectAll_keeps {room : ℕ} (hA : touchInjectAll A)  (h : Keeps A s t) : Keeps A s (State.injectAll t room) := by
  unfold State.injectAll
  obtain ⟨_, _, _⟩ := hA
  repeat' (first
    | with_reducible assumption
    | intro y
    | (extract_lets +onlyGivenNames x; first | (refine cut (P := Keeps A s x) ?_ ?_; (on_goal 1 => (unfold x; clear x)); (on_goal 2 => (intro hx; first | clear_value x | skip))) | (refine cut (P := Keeps A s x.2) ?_ ?_; (on_goal 1 => (unfold x; clear x)); (on_goal 2 => (intro hx; first | clear_value x | skip))) | (refine cut (P := Keeps A s x.2.2) ?_ ?_; (on_goal 1 => (unfold x; clear x)); (on_goal 2 => (intro hx; first | clear_value x | skip))) | clear_value x | skip)
    | (with_reducible apply srcSend_keeps (hA := by first | with_reducible assumption | with_reducible apply_assumption))
    | (with_reducible apply routeFrame_keeps (hA := by first | with_reducible assumption | with_reducible apply_assumption))
    | with_reducible apply keeps_ite
    | with_reducible apply keeps_ite2
    | with_reducible apply keeps_ite3
    | with_reducible apply keeps_foldl
    | with_reducible apply keeps_foldl2
    | with_reducible apply keeps_foldl3
    | split
    | refine keeps_ite ?_ ?_
    | with_reducible exact keeps_fab (by assumption) (by assumption))

def touchLaneDown (A : Part → Prop) (n : Nat) : Prop := A (.inst R.FAB_LANE_STAT.STATE n 0) ∧ touchSetLane A ∧ touchLog A ∧ touchFabLinkLost A n ∧ A (.inst R.FAB_LANE_STAT.DOWN_SEEN n 0) ∧ touchReRoute A
theorem touchLaneDown_all (h : ∀ q, A q) {n : Nat} : touchLaneDown A n := ⟨h _, touchSetLane_all h, touchLog_all h, touchFabLinkLost_all h, h _, touchReRoute_all h⟩
theorem laneDown_keeps {n : ℕ} (hA : touchLaneDown A n)  (h : Keeps A s t) : Keeps A s (State.laneDown t n) := by
  unfold State.laneDown
  obtain ⟨_, _, _, _, _, _⟩ := hA
  repeat' (first
    | with_reducible assumption
    | intro y
    | (extract_lets +onlyGivenNames x; first | (refine cut (P := Keeps A s x) ?_ ?_; (on_goal 1 => (unfold x; clear x)); (on_goal 2 => (intro hx; first | clear_value x | skip))) | clear_value x | skip)
    | (with_reducible refine put_keepsAt (by assumption) ?_)
    | (with_reducible refine put_keeps (by assumption) ?_)
    | (with_reducible apply setLane_keeps (hA := by first | with_reducible assumption | with_reducible apply_assumption))
    | (with_reducible apply log_keeps (hA := by first | with_reducible assumption | with_reducible apply_assumption))
    | (with_reducible apply fabLinkLost_keeps (hA := by first | with_reducible assumption | with_reducible apply_assumption))
    | (with_reducible apply reRoute_keeps (hA := by first | with_reducible assumption | with_reducible apply_assumption))
    | with_reducible apply keeps_ite
    | with_reducible apply keeps_foldl
    | split
    | refine keeps_ite ?_ ?_)

def touchLanesOff (A : Part → Prop) : Prop := (∀ x0, touchLaneDown A x0)
theorem touchLanesOff_all (h : ∀ q, A q) : touchLanesOff A := (fun _ => touchLaneDown_all h)
theorem lanesOff_keeps  (hA : touchLanesOff A)  (h : Keeps A s t) : Keeps A s (State.lanesOff t) := by
  unfold State.lanesOff
  unfold touchLanesOff at hA
  repeat' (first
    | with_reducible assumption
    | intro y
    | (extract_lets +onlyGivenNames x; first | (refine cut (P := Keeps A s x) ?_ ?_; (on_goal 1 => (unfold x; clear x)); (on_goal 2 => (intro hx; first | clear_value x | skip))) | clear_value x | skip)
    | (with_reducible apply laneDown_keeps (hA := by first | with_reducible assumption | with_reducible apply_assumption))
    | with_reducible apply each_keeps
    | with_reducible apply keeps_ite
    | split
    | refine keeps_ite ?_ ?_)

def touchInstallEpoch (A : Part → Prop) : Prop := touchFree A ∧ touchSrcSend A ∧ A .fab ∧ touchLog A
theorem touchInstallEpoch_all (h : ∀ q, A q) : touchInstallEpoch A := ⟨touchFree_all h, touchSrcSend_all h, h _, touchLog_all h⟩
theorem installEpoch_keeps  (hA : touchInstallEpoch A)  (h : Keeps A s t) : Keeps A s (State.installEpoch t) := by
  unfold State.installEpoch
  obtain ⟨_, _, _, _⟩ := hA
  repeat' (first
    | with_reducible assumption
    | intro y
    | (extract_lets +onlyGivenNames x; first | (refine cut (P := Keeps A s x) ?_ ?_; (on_goal 1 => (unfold x; clear x)); (on_goal 2 => (intro hx; first | clear_value x | skip))) | (refine cut (P := Keeps A s x.2) ?_ ?_; (on_goal 1 => (unfold x; clear x)); (on_goal 2 => (intro hx; first | clear_value x | skip))) | (refine cut (P := Keeps A s x.2.2) ?_ ?_; (on_goal 1 => (unfold x; clear x)); (on_goal 2 => (intro hx; first | clear_value x | skip))) | clear_value x | skip)
    | (with_reducible apply free_keeps (hA := by first | with_reducible assumption | with_reducible apply_assumption))
    | (with_reducible apply srcSend_keeps (hA := by first | with_reducible assumption | with_reducible apply_assumption))
    | (with_reducible apply log_keeps (hA := by first | with_reducible assumption | with_reducible apply_assumption))
    | with_reducible apply when_keeps
    | with_reducible apply keeps_ite
    | with_reducible apply keeps_ite2
    | with_reducible apply keeps_ite3
    | with_reducible apply keeps_foldl
    | with_reducible apply keeps_foldl2
    | with_reducible apply keeps_foldl3
    | split
    | refine keeps_ite ?_ ?_
    | with_reducible exact keeps_fab (by assumption) (by assumption))

def touchEpochSwap (A : Part → Prop) : Prop := A .fab ∧ (∀ x0, touchSetDir A x0) ∧ A (.reg R.FAB_STAT.LEVEL) ∧ touchLog A ∧ touchSetParent A ∧ A (.reg R.FAB_STAT.EPOCH) ∧ touchInjectAll A
theorem touchEpochSwap_all (h : ∀ q, A q) : touchEpochSwap A := ⟨h _, (fun _ => touchSetDir_all h), h _, touchLog_all h, touchSetParent_all h, h _, touchInjectAll_all h⟩
theorem epochSwap_keeps  (hA : touchEpochSwap A)  (h : Keeps A s t) : Keeps A s (State.epochSwap t) := by
  unfold State.epochSwap
  obtain ⟨_, _, _, _, _, _, _⟩ := hA
  repeat' (first
    | with_reducible assumption
    | intro y
    | (extract_lets +onlyGivenNames x; first | (refine cut (P := Keeps A s x) ?_ ?_; (on_goal 1 => (unfold x; clear x)); (on_goal 2 => (intro hx; first | clear_value x | skip))) | clear_value x | skip)
    | (with_reducible refine put_keepsAt (by assumption) ?_)
    | (with_reducible refine put_keeps (by assumption) ?_)
    | (with_reducible apply setDir_keeps (hA := by first | with_reducible assumption | with_reducible apply_assumption))
    | (with_reducible apply log_keeps (hA := by first | with_reducible assumption | with_reducible apply_assumption))
    | (with_reducible apply setParent_keeps (hA := by first | with_reducible assumption | with_reducible apply_assumption))
    | (with_reducible apply injectAll_keeps (hA := by first | with_reducible assumption | with_reducible apply_assumption))
    | with_reducible apply when_keeps
    | with_reducible apply keeps_ite
    | with_reducible apply keeps_foldl
    | split
    | refine keeps_ite ?_ ?_
    | with_reducible exact keeps_fab (by assumption) (by assumption))

def touchFollowSource (A : Part → Prop) : Prop := A .tb ∧ touchSetErr A
theorem touchFollowSource_all (h : ∀ q, A q) : touchFollowSource A := ⟨h _, touchSetErr_all h⟩
theorem followSource_keeps {src : ℕ} {v16 : ℕ} (hA : touchFollowSource A)  (h : Keeps A s t) : Keeps A s (State.followSource t src v16) := by
  unfold State.followSource
  obtain ⟨_, _⟩ := hA
  repeat' (first
    | with_reducible assumption
    | intro y
    | (extract_lets +onlyGivenNames x; first | (refine cut (P := Keeps A s x) ?_ ?_; (on_goal 1 => (unfold x; clear x)); (on_goal 2 => (intro hx; first | clear_value x | skip))) | clear_value x | skip)
    | (with_reducible apply setErr_keeps (hA := by first | with_reducible assumption | with_reducible apply_assumption))
    | with_reducible apply keeps_ite
    | split
    | refine keeps_ite ?_ ?_
    | with_reducible exact keeps_tb (by assumption) (by assumption))

def touchLaneTick (A : Part → Prop) : Prop := touchFree A ∧ touchLaneServe A ∧ touchSetLane A
theorem touchLaneTick_all (h : ∀ q, A q) : touchLaneTick A := ⟨touchFree_all h, touchLaneServe_all h, touchSetLane_all h⟩
theorem laneTick_keeps {l : ℕ} (hA : touchLaneTick A)  (h : Keeps A s t) : Keeps A s (State.laneTick t l) := by
  unfold State.laneTick
  obtain ⟨_, _, _⟩ := hA
  repeat' (first
    | with_reducible assumption
    | intro y
    | (extract_lets +onlyGivenNames x; first | (refine cut (P := Keeps A s x) ?_ ?_; (on_goal 1 => (unfold x; clear x)); (on_goal 2 => (intro hx; first | clear_value x | skip))) | (refine cut (P := Keeps A s x.2) ?_ ?_; (on_goal 1 => (unfold x; clear x)); (on_goal 2 => (intro hx; first | clear_value x | skip))) | (refine cut (P := Keeps A s x.2.2) ?_ ?_; (on_goal 1 => (unfold x; clear x)); (on_goal 2 => (intro hx; first | clear_value x | skip))) | clear_value x | skip)
    | (with_reducible apply free_keeps (hA := by first | with_reducible assumption | with_reducible apply_assumption))
    | (with_reducible apply laneServe_keeps (hA := by first | with_reducible assumption | with_reducible apply_assumption))
    | (with_reducible apply setLane_keeps (hA := by first | with_reducible assumption | with_reducible apply_assumption))
    | with_reducible apply keeps_ite
    | with_reducible apply keeps_ite2
    | with_reducible apply keeps_ite3
    | split
    | refine keeps_ite ?_ ?_)

def touchSrcTick (A : Part → Prop) : Prop := A .fab ∧ touchInjectAll A
theorem touchSrcTick_all (h : ∀ q, A q) : touchSrcTick A := ⟨h _, touchInjectAll_all h⟩
theorem srcTick_keeps  (hA : touchSrcTick A)  (h : Keeps A s t) : Keeps A s (State.srcTick t) := by
  unfold State.srcTick
  obtain ⟨_, _⟩ := hA
  repeat' (first
    | with_reducible assumption
    | intro y
    | (extract_lets +onlyGivenNames x; first | (refine cut (P := Keeps A s x) ?_ ?_; (on_goal 1 => (unfold x; clear x)); (on_goal 2 => (intro hx; first | clear_value x | skip))) | clear_value x | skip)
    | (with_reducible apply injectAll_keeps (hA := by first | with_reducible assumption | with_reducible apply_assumption))
    | with_reducible apply keeps_ite
    | split
    | refine keeps_ite ?_ ?_
    | with_reducible exact keeps_fab (by assumption) (by assumption))

def touchFabTick (A : Part → Prop) : Prop := touchSrcTick A ∧ touchLaneTick A
theorem touchFabTick_all (h : ∀ q, A q) : touchFabTick A := ⟨touchSrcTick_all h, touchLaneTick_all h⟩
theorem fabTick_keeps  (hA : touchFabTick A)  (h : Keeps A s t) : Keeps A s (State.fabTick t) := by
  unfold State.fabTick
  obtain ⟨_, _⟩ := hA
  repeat' (first
    | with_reducible assumption
    | intro y
    | (extract_lets +onlyGivenNames x; first | (refine cut (P := Keeps A s x) ?_ ?_; (on_goal 1 => (unfold x; clear x)); (on_goal 2 => (intro hx; first | clear_value x | skip))) | clear_value x | skip)
    | (with_reducible apply srcTick_keeps (hA := by first | with_reducible assumption | with_reducible apply_assumption))
    | (with_reducible apply laneTick_keeps (hA := by first | with_reducible assumption | with_reducible apply_assumption))
    | with_reducible apply each_keeps
    | with_reducible apply keeps_ite
    | split
    | refine keeps_ite ?_ ?_)

end Sys2Proof.Laws
end

