-- ==== Sys2Proof/Laws/KeepsPowerline.lean ====
section
/-! SUPPORT. What the operations of Machine/Powerline.lean leave alone: for each the parts it may change (`touch…`) and its lemma. -/

namespace Sys2Proof.Laws

open Sys2Proof.Machine

set_option linter.unusedTactic false
set_option linter.unreachableTactic false
set_option linter.unusedVariables false
set_option linter.tactic.unusedName false

variable {A : Part → Prop} {s t : State}

def touchPlcEmit (A : Part → Prop) : Prop := touchEmit A
theorem touchPlcEmit_all (h : ∀ q, A q) : touchPlcEmit A := touchEmit_all h
theorem plcEmit_keeps {kind : Sys2Proof.Machine.Sent} {dst : ℕ} {control : List ℕ} {payload : List ℕ} (hA : touchPlcEmit A)  (h : Keeps A s t) : Keeps A s (State.plcEmit t kind dst control payload) := by
  unfold State.plcEmit
  unfold touchPlcEmit at hA
  repeat' (first
    | with_reducible assumption
    | intro y
    | (extract_lets +onlyGivenNames x; first | (refine cut (P := Keeps A s x) ?_ ?_; (on_goal 1 => (unfold x; clear x)); (on_goal 2 => (intro hx; first | clear_value x | skip))) | clear_value x | skip)
    | (with_reducible apply emit_keeps (hA := by first | with_reducible assumption | with_reducible apply_assumption))
    | with_reducible apply keeps_ite
    | split
    | refine keeps_ite ?_ ?_)

def touchPlcDrop (A : Part → Prop) : Prop := A .plc ∧ A (.reg R.PLC_CNT1.DROP) ∧ touchLog A
theorem touchPlcDrop_all (h : ∀ q, A q) : touchPlcDrop A := ⟨h _, h _, touchLog_all h⟩
theorem plcDrop_keeps {n : ℕ} (hA : touchPlcDrop A)  (h : Keeps A s t) : Keeps A s (State.plcDrop t n) := by
  unfold State.plcDrop
  obtain ⟨_, _, _⟩ := hA
  repeat' (first
    | with_reducible assumption
    | intro y
    | (extract_lets +onlyGivenNames x; first | (refine cut (P := Keeps A s x) ?_ ?_; (on_goal 1 => (unfold x; clear x)); (on_goal 2 => (intro hx; first | clear_value x | skip))) | clear_value x | skip)
    | (with_reducible refine inc_keepsAt (by assumption) ?_)
    | (with_reducible refine inc_keeps (by assumption) ?_)
    | (with_reducible apply log_keeps (hA := by first | with_reducible assumption | with_reducible apply_assumption))
    | with_reducible apply keeps_ite
    | split
    | refine keeps_ite ?_ ?_
    | with_reducible exact keeps_plc (by assumption) (by assumption))

def touchPlcLinkDown (A : Part → Prop) : Prop := touchPlcDrop A ∧ touchSetPlc A ∧ touchLog A ∧ touchLinkReport A ∧ touchFabLinkLost A 8 ∧ touchReRoute A
theorem touchPlcLinkDown_all (h : ∀ q, A q) : touchPlcLinkDown A := ⟨touchPlcDrop_all h, touchSetPlc_all h, touchLog_all h, touchLinkReport_all h, touchFabLinkLost_all h, touchReRoute_all h⟩
theorem plcLinkDown_keeps {n : ℕ} (hA : touchPlcLinkDown A)  (h : Keeps A s t) : Keeps A s (State.plcLinkDown t n) := by
  unfold State.plcLinkDown
  obtain ⟨_, _, _, _, _, _⟩ := hA
  repeat' (first
    | with_reducible assumption
    | intro y
    | (extract_lets +onlyGivenNames x; first | (refine cut (P := Keeps A s x) ?_ ?_; (on_goal 1 => (unfold x; clear x)); (on_goal 2 => (intro hx; first | clear_value x | skip))) | clear_value x | skip)
    | (with_reducible apply plcDrop_keeps (hA := by first | with_reducible assumption | with_reducible apply_assumption))
    | (with_reducible apply setPlc_keeps (hA := by first | with_reducible assumption | with_reducible apply_assumption))
    | (with_reducible apply log_keeps (hA := by first | with_reducible assumption | with_reducible apply_assumption))
    | (with_reducible apply linkReport_keeps (hA := by first | with_reducible assumption | with_reducible apply_assumption))
    | (with_reducible apply fabLinkLost_keeps (hA := by first | with_reducible assumption | with_reducible apply_assumption))
    | (with_reducible apply reRoute_keeps (hA := by first | with_reducible assumption | with_reducible apply_assumption))
    | with_reducible apply keeps_ite
    | with_reducible apply keeps_foldl
    | split
    | refine keeps_ite ?_ ?_)

def touchPlcAllDown (A : Part → Prop) : Prop := touchPlcLinkDown A ∧ A .plc
theorem touchPlcAllDown_all (h : ∀ q, A q) : touchPlcAllDown A := ⟨touchPlcLinkDown_all h, h _⟩
theorem plcAllDown_keeps  (hA : touchPlcAllDown A)  (h : Keeps A s t) : Keeps A s (State.plcAllDown t) := by
  unfold State.plcAllDown
  obtain ⟨_, _⟩ := hA
  repeat' (first
    | with_reducible assumption
    | intro y
    | (extract_lets +onlyGivenNames x; first | (refine cut (P := Keeps A s x) ?_ ?_; (on_goal 1 => (unfold x; clear x)); (on_goal 2 => (intro hx; first | clear_value x | skip))) | clear_value x | skip)
    | (with_reducible apply plcLinkDown_keeps (hA := by first | with_reducible assumption | with_reducible apply_assumption))
    | with_reducible apply keeps_ite
    | with_reducible apply keeps_foldl
    | split
    | refine keeps_ite ?_ ?_
    | with_reducible exact keeps_plc (by assumption) (by assumption))

def touchPlcState (A : Part → Prop) : Prop := A (.reg R.PLC_STAT.NSTN) ∧ A (.reg R.PLC_STAT.STN) ∧ A (.reg R.PLC_STAT.STATE)
theorem touchPlcState_all (h : ∀ q, A q) : touchPlcState A := ⟨h _, h _, h _⟩
theorem plcState_keeps {st : ℕ} (hA : touchPlcState A)  (h : Keeps A s t) : Keeps A s (State.plcState t st) := by
  unfold State.plcState
  obtain ⟨_, _, _⟩ := hA
  repeat' (first
    | with_reducible assumption
    | intro y
    | (with_reducible refine put_keepsAt (by assumption) ?_)
    | (with_reducible refine put_keeps (by assumption) ?_)
    | with_reducible apply keeps_ite
    | split)

def touchPlcFabOff (A : Part → Prop) : Prop := touchPlcLinkDown A
theorem touchPlcFabOff_all (h : ∀ q, A q) : touchPlcFabOff A := touchPlcLinkDown_all h
theorem plcFabOff_keeps  (hA : touchPlcFabOff A)  (h : Keeps A s t) : Keeps A s (State.plcFabOff t) := by
  unfold State.plcFabOff
  unfold touchPlcFabOff at hA
  repeat' (first
    | with_reducible assumption
    | intro y
    | (extract_lets +onlyGivenNames x; first | (refine cut (P := Keeps A s x) ?_ ?_; (on_goal 1 => (unfold x; clear x)); (on_goal 2 => (intro hx; first | clear_value x | skip))) | clear_value x | skip)
    | (with_reducible apply plcLinkDown_keeps (hA := by first | with_reducible assumption | with_reducible apply_assumption))
    | with_reducible apply keeps_ite
    | with_reducible apply keeps_foldl
    | split
    | refine keeps_ite ?_ ?_)

def touchPlcEnable (A : Part → Prop) : Prop := touchReqShow A ∧ A (.reg R.PLC_CTRL.EN) ∧ touchPlcState A ∧ touchPlcAllDown A
theorem touchPlcEnable_all (h : ∀ q, A q) : touchPlcEnable A := ⟨touchReqShow_all h, h _, touchPlcState_all h, touchPlcAllDown_all h⟩
theorem plcEnable_keeps {on : Bool} (hA : touchPlcEnable A)  (h : Keeps A s t) : Keeps A s (State.plcEnable t on) := by
  unfold State.plcEnable
  obtain ⟨_, _, _, _⟩ := hA
  repeat' (first
    | with_reducible assumption
    | intro y
    | (extract_lets +onlyGivenNames x; first | (refine cut (P := Keeps A s x) ?_ ?_; (on_goal 1 => (unfold x; clear x)); (on_goal 2 => (intro hx; first | clear_value x | skip))) | clear_value x | skip)
    | (with_reducible refine putb_keepsAt (by assumption) ?_)
    | (with_reducible refine putb_keeps (by assumption) ?_)
    | (with_reducible apply reqShow_keeps (hA := by first | with_reducible assumption | with_reducible apply_assumption))
    | (with_reducible apply plcState_keeps (hA := by first | with_reducible assumption | with_reducible apply_assumption))
    | (with_reducible apply plcAllDown_keeps (hA := by first | with_reducible assumption | with_reducible apply_assumption))
    | with_reducible apply keeps_ite
    | split
    | refine keeps_ite ?_ ?_)

def touchPlcNewSchedule (A : Part → Prop) : Prop := A (.reg R.PLC_STAT.NSTN) ∧ A .plc
theorem touchPlcNewSchedule_all (h : ∀ q, A q) : touchPlcNewSchedule A := ⟨h _, h _⟩
theorem plcNewSchedule_keeps  (hA : touchPlcNewSchedule A)  (h : Keeps A s t) : Keeps A s (State.plcNewSchedule t) := by
  unfold State.plcNewSchedule
  obtain ⟨_, _⟩ := hA
  repeat' (first
    | with_reducible assumption
    | intro y
    | (extract_lets +onlyGivenNames x; first | (refine cut (P := Keeps A s x) ?_ ?_; (on_goal 1 => (unfold x; clear x)); (on_goal 2 => (intro hx; first | clear_value x | skip))) | clear_value x | skip)
    | (with_reducible refine put_keepsAt (by assumption) ?_)
    | (with_reducible refine put_keeps (by assumption) ?_)
    | with_reducible apply keeps_ite
    | split
    | refine keeps_ite ?_ ?_
    | with_reducible exact keeps_plc (by assumption) (by assumption))

def touchPlcTakeSchedule (A : Part → Prop) : Prop := A (.reg R.PLC_BEACON.SCHED_VER) ∧ A .plc
theorem touchPlcTakeSchedule_all (h : ∀ q, A q) : touchPlcTakeSchedule A := ⟨h _, h _⟩
theorem plcTakeSchedule_keeps {bpc : ℕ} (hA : touchPlcTakeSchedule A)  (h : Keeps A s t) : Keeps A s (State.plcTakeSchedule t bpc) := by
  unfold State.plcTakeSchedule
  obtain ⟨_, _⟩ := hA
  repeat' (first
    | with_reducible assumption
    | intro y
    | (extract_lets +onlyGivenNames x; first | (refine cut (P := Keeps A s x) ?_ ?_; (on_goal 1 => (unfold x; clear x)); (on_goal 2 => (intro hx; first | clear_value x | skip))) | clear_value x | skip)
    | (with_reducible refine put_keepsAt (by assumption) ?_)
    | (with_reducible refine put_keeps (by assumption) ?_)
    | with_reducible apply keeps_ite
    | split
    | refine keeps_ite ?_ ?_
    | with_reducible exact keeps_plc (by assumption) (by assumption))

def touchPlcPeriod (A : Part → Prop) : Prop := A .plc
theorem touchPlcPeriod_all (h : ∀ q, A q) : touchPlcPeriod A := h _
theorem plcPeriod_keeps  (hA : touchPlcPeriod A)  (h : Keeps A s t) : Keeps A s (State.plcPeriod t) := by
  unfold State.plcPeriod
  unfold touchPlcPeriod at hA
  repeat' (first
    | with_reducible assumption
    | intro y
    | (extract_lets +onlyGivenNames x; first | (refine cut (P := Keeps A s x) ?_ ?_; (on_goal 1 => (unfold x; clear x)); (on_goal 2 => (intro hx; first | clear_value x | skip))) | clear_value x | skip)
    | with_reducible apply keeps_ite
    | split
    | refine keeps_ite ?_ ?_
    | with_reducible exact keeps_plc (by assumption) (by assumption))

def touchPlcCoordinate (A : Part → Prop) : Prop := touchSrcCheck A ∧ A (.reg R.PLC_BEACON.MISSED) ∧ A (.reg R.PLC_DLY.DLY) ∧ A (.reg R.PLC_STAT.STN) ∧ A (.reg R.PLC_STAT.STATE) ∧ A (.reg R.PLC_COORD_SER_LO.SERIAL) ∧ A (.reg R.PLC_COORD_SER_HI.SERIAL) ∧ A .plc
theorem touchPlcCoordinate_all (h : ∀ q, A q) : touchPlcCoordinate A := ⟨touchSrcCheck_all h, h _, h _, h _, h _, h _, h _, h _⟩
theorem plcCoordinate_keeps  (hA : touchPlcCoordinate A)  (h : Keeps A s t) : Keeps A s (State.plcCoordinate t) := by
  unfold State.plcCoordinate
  obtain ⟨_, _, _, _, _, _, _, _⟩ := hA
  repeat' (first
    | with_reducible assumption
    | intro y
    | (extract_lets +onlyGivenNames x; first | (refine cut (P := Keeps A s x) ?_ ?_; (on_goal 1 => (unfold x; clear x)); (on_goal 2 => (intro hx; first | clear_value x | skip))) | clear_value x | skip)
    | (with_reducible refine put_keepsAt (by assumption) ?_)
    | (with_reducible refine put_keeps (by assumption) ?_)
    | (with_reducible refine put2_keepsAt (by assumption) (by assumption) ?_)
    | (with_reducible refine put2_keeps (by assumption) (by assumption) ?_)
    | (with_reducible apply srcCheck_keeps (hA := by first | with_reducible assumption | with_reducible apply_assumption))
    | with_reducible apply keeps_ite
    | split
    | refine keeps_ite ?_ ?_
    | with_reducible exact keeps_plc (by assumption) (by assumption))

def touchExecBeaconSend (A : Part → Prop) : Prop := touchPlcTakeSchedule A ∧ touchPlcPeriod A ∧ A (.reg R.PLC_BEACON.BPC) ∧ A .plc ∧ touchFree A ∧ touchPlcEmit A
theorem touchExecBeaconSend_all (h : ∀ q, A q) : touchExecBeaconSend A := ⟨touchPlcTakeSchedule_all h, touchPlcPeriod_all h, h _, h _, touchFree_all h, touchPlcEmit_all h⟩
theorem execBeaconSend_next  (hA : touchExecBeaconSend A) : ∃ u, execBeaconSend s = .next u ∧ Keeps A s u := by
  unfold execBeaconSend
  have h := Keeps.refl A s
  refine ⟨_, rfl, ?_⟩
  obtain ⟨_, _, _, _, _, _⟩ := hA
  repeat' (first
    | with_reducible assumption
    | intro y
    | (extract_lets +onlyGivenNames x; first | (refine cut (P := Keeps A s x) ?_ ?_; (on_goal 1 => (unfold x; clear x)); (on_goal 2 => (intro hx; first | clear_value x | skip))) | (refine cut (P := Keeps A s x.2) ?_ ?_; (on_goal 1 => (unfold x; clear x)); (on_goal 2 => (intro hx; first | clear_value x | skip))) | (refine cut (P := Keeps A s x.2.2) ?_ ?_; (on_goal 1 => (unfold x; clear x)); (on_goal 2 => (intro hx; first | clear_value x | skip))) | clear_value x | skip)
    | (with_reducible refine put_keepsAt (by assumption) ?_)
    | (with_reducible refine put_keeps (by assumption) ?_)
    | (with_reducible apply plcTakeSchedule_keeps (hA := by first | with_reducible assumption | with_reducible apply_assumption))
    | (with_reducible apply plcPeriod_keeps (hA := by first | with_reducible assumption | with_reducible apply_assumption))
    | (with_reducible apply free_keeps (hA := by first | with_reducible assumption | with_reducible apply_assumption))
    | (with_reducible apply plcEmit_keeps (hA := by first | with_reducible assumption | with_reducible apply_assumption))
    | with_reducible apply keeps_ite
    | with_reducible apply keeps_ite2
    | with_reducible apply keeps_ite3
    | split
    | refine keeps_ite ?_ ?_
    | with_reducible exact keeps_plc (by assumption) (by assumption))

def touchPlcNewCoordinator (A : Part → Prop) : Prop := touchPlcLinkDown A ∧ A (.reg R.PLC_COORD_SER_LO.SERIAL) ∧ A (.reg R.PLC_COORD_SER_HI.SERIAL) ∧ touchSetPlc A ∧ A .plc ∧ A (.reg R.PLC_STAT.STN) ∧ A (.reg R.PLC_STAT.STATE)
theorem touchPlcNewCoordinator_all (h : ∀ q, A q) : touchPlcNewCoordinator A := ⟨touchPlcLinkDown_all h, h _, h _, touchSetPlc_all h, h _, h _, h _⟩
theorem plcNewCoordinator_keeps {serial : ℕ} {node : ℕ} {handover : Bool} (hA : touchPlcNewCoordinator A)  (h : Keeps A s t) : Keeps A s (State.plcNewCoordinator t serial node handover) := by
  unfold State.plcNewCoordinator
  obtain ⟨_, _, _, _, _, _, _⟩ := hA
  repeat' (first
    | with_reducible assumption
    | intro y
    | (extract_lets +onlyGivenNames x; first | (refine cut (P := Keeps A s x) ?_ ?_; (on_goal 1 => (unfold x; clear x)); (on_goal 2 => (intro hx; first | clear_value x | skip))) | clear_value x | skip)
    | (with_reducible refine put_keepsAt (by assumption) ?_)
    | (with_reducible refine put_keeps (by assumption) ?_)
    | (with_reducible refine put2_keepsAt (by assumption) (by assumption) ?_)
    | (with_reducible refine put2_keeps (by assumption) (by assumption) ?_)
    | (with_reducible apply plcLinkDown_keeps (hA := by first | with_reducible assumption | with_reducible apply_assumption))
    | (with_reducible apply setPlc_keeps (hA := by first | with_reducible assumption | with_reducible apply_assumption))
    | with_reducible apply keeps_ite
    | split
    | refine keeps_ite ?_ ?_
    | with_reducible exact keeps_plc (by assumption) (by assumption))

def touchPlcImpulse (A : Part → Prop) : Prop := A .plc ∧ A (.reg R.PLC_CNT1.IMP) ∧ touchLog A
theorem touchPlcImpulse_all (h : ∀ q, A q) : touchPlcImpulse A := ⟨h _, h _, touchLog_all h⟩
theorem plcImpulse_keeps {erased : ℕ} (hA : touchPlcImpulse A)  (h : Keeps A s t) : Keeps A s (State.plcImpulse t erased) := by
  unfold State.plcImpulse
  obtain ⟨_, _, _⟩ := hA
  repeat' (first
    | with_reducible assumption
    | intro y
    | (extract_lets +onlyGivenNames x; first | (refine cut (P := Keeps A s x) ?_ ?_; (on_goal 1 => (unfold x; clear x)); (on_goal 2 => (intro hx; first | clear_value x | skip))) | clear_value x | skip)
    | (with_reducible refine inc_keepsAt (by assumption) ?_)
    | (with_reducible refine inc_keeps (by assumption) ?_)
    | (with_reducible apply log_keeps (hA := by first | with_reducible assumption | with_reducible apply_assumption))
    | with_reducible apply keeps_ite
    | split
    | refine keeps_ite ?_ ?_
    | with_reducible exact keeps_plc (by assumption) (by assumption))

def touchPlcHear (A : Part → Prop) : Prop := touchPlcImpulse A ∧ A .plc
theorem touchPlcHear_all (h : ∀ q, A q) : touchPlcHear A := ⟨touchPlcImpulse_all h, h _⟩
theorem plcHear_keeps {energy : List ℕ} (hA : touchPlcHear A)  (h : Keeps A s t) : Keeps A s (State.plcHear t energy).2 := by
  unfold State.plcHear
  obtain ⟨_, _⟩ := hA
  repeat' (first
    | with_reducible assumption
    | intro y
    | (extract_lets +onlyGivenNames x; first | (refine cut (P := Keeps A s x) ?_ ?_; (on_goal 1 => (unfold x; clear x)); (on_goal 2 => (intro hx; first | clear_value x | skip))) | (refine cut (P := Keeps A s x.2) ?_ ?_; (on_goal 1 => (unfold x; clear x)); (on_goal 2 => (intro hx; first | clear_value x | skip))) | (refine cut (P := Keeps A s x.2.2) ?_ ?_; (on_goal 1 => (unfold x; clear x)); (on_goal 2 => (intro hx; first | clear_value x | skip))) | clear_value x | skip)
    | (with_reducible apply plcImpulse_keeps (hA := by first | with_reducible assumption | with_reducible apply_assumption))
    | with_reducible apply keeps_ite
    | with_reducible apply keeps_ite2
    | with_reducible apply keeps_ite3
    | with_reducible apply keeps_foldl
    | with_reducible apply keeps_foldl2
    | with_reducible apply keeps_foldl3
    | split
    | refine keeps_ite ?_ ?_
    | with_reducible exact keeps_plc (by assumption) (by assumption))

def touchExecBeaconReceive (A : Part → Prop) : Prop := touchPlcHear A ∧ A (.reg R.PLC_BEACON.MISSED) ∧ touchPlcState A ∧ touchPlcAllDown A ∧ A (.reg R.PLC_COORD_SER_LO.SERIAL) ∧ A (.reg R.PLC_COORD_SER_HI.SERIAL) ∧ touchSetPlc A ∧ touchPlcNewCoordinator A ∧ A (.reg R.PLC_STAT.STATE) ∧ touchPlcPeriod A ∧ A (.reg R.PLC_BEACON.BPC) ∧ touchPlcTakeSchedule A ∧ A .plc ∧ A (.reg R.PLC_STAT.NSTN) ∧ touchLog A ∧ A (.reg R.PLC_STAT.STN) ∧ touchFollowSource A
theorem touchExecBeaconReceive_all (h : ∀ q, A q) : touchExecBeaconReceive A := ⟨touchPlcHear_all h, h _, touchPlcState_all h, touchPlcAllDown_all h, h _, h _, touchSetPlc_all h, touchPlcNewCoordinator_all h, h _, touchPlcPeriod_all h, h _, touchPlcTakeSchedule_all h, h _, h _, touchLog_all h, h _, touchFollowSource_all h⟩
theorem execBeaconReceive_next {v16 : Sys2Proof.PlcAt} {serial : ℕ} {node : ℕ} {kcls : ℕ} {klvl : ℕ} {kprio : ℕ} {bpc : ℕ} {nstn : ℕ} {succ : ℕ} {ver : ℕ} {verAt : ℕ} {slots : List Sys2Proof.PlcSlot} {answers : List (ℕ × ℕ)} (hA : touchExecBeaconReceive A) : ∃ u, execBeaconReceive v16 serial node kcls klvl kprio bpc nstn succ ver verAt slots answers s = .next u ∧ Keeps A s u := by
  unfold execBeaconReceive
  have h := Keeps.refl A s
  refine ⟨_, rfl, ?_⟩
  obtain ⟨_, _, _, _, _, _, _, _, _, _, _, _, _, _, _, _, _⟩ := hA
  repeat' (first
    | with_reducible assumption
    | intro y
    | (extract_lets +onlyGivenNames x; first | (refine cut (P := Keeps A s x) ?_ ?_; (on_goal 1 => (unfold x; clear x)); (on_goal 2 => (intro hx; first | clear_value x | skip))) | clear_value x | skip)
    | (with_reducible refine put_keepsAt (by assumption) ?_)
    | (with_reducible refine put_keeps (by assumption) ?_)
    | (with_reducible refine put2_keepsAt (by assumption) (by assumption) ?_)
    | (with_reducible refine put2_keeps (by assumption) (by assumption) ?_)
    | (with_reducible apply plcHear_keeps (hA := by first | with_reducible assumption | with_reducible apply_assumption))
    | (with_reducible apply plcState_keeps (hA := by first | with_reducible assumption | with_reducible apply_assumption))
    | (with_reducible apply plcAllDown_keeps (hA := by first | with_reducible assumption | with_reducible apply_assumption))
    | (with_reducible apply setPlc_keeps (hA := by first | with_reducible assumption | with_reducible apply_assumption))
    | (with_reducible apply plcNewCoordinator_keeps (hA := by first | with_reducible assumption | with_reducible apply_assumption))
    | (with_reducible apply plcPeriod_keeps (hA := by first | with_reducible assumption | with_reducible apply_assumption))
    | (with_reducible apply plcTakeSchedule_keeps (hA := by first | with_reducible assumption | with_reducible apply_assumption))
    | (with_reducible apply log_keeps (hA := by first | with_reducible assumption | with_reducible apply_assumption))
    | (with_reducible apply followSource_keeps (hA := by first | with_reducible assumption | with_reducible apply_assumption))
    | with_reducible apply keeps_ite
    | with_reducible apply keeps_ite2
    | with_reducible apply keeps_ite3
    | split
    | refine keeps_ite ?_ ?_
    | with_reducible exact keeps_plc (by assumption) (by assumption))

def touchExecBeaconMissed (A : Part → Prop) : Prop := touchPlcTakeSchedule A ∧ touchPlcPeriod A ∧ touchLog A ∧ A (.reg R.PLC_CNT2.BCN_LOST) ∧ A (.reg R.PLC_BEACON.MISSED) ∧ A (.reg R.PLC_STAT.BCN_SEEN)
theorem touchExecBeaconMissed_all (h : ∀ q, A q) : touchExecBeaconMissed A := ⟨touchPlcTakeSchedule_all h, touchPlcPeriod_all h, touchLog_all h, h _, h _, h _⟩
theorem execBeaconMissed_next  (hA : touchExecBeaconMissed A) : ∃ u, execBeaconMissed s = .next u ∧ Keeps A s u := by
  unfold execBeaconMissed
  have h := Keeps.refl A s
  refine ⟨_, rfl, ?_⟩
  obtain ⟨_, _, _, _, _, _⟩ := hA
  repeat' (first
    | with_reducible assumption
    | intro y
    | (extract_lets +onlyGivenNames x; first | (refine cut (P := Keeps A s x) ?_ ?_; (on_goal 1 => (unfold x; clear x)); (on_goal 2 => (intro hx; first | clear_value x | skip))) | clear_value x | skip)
    | (with_reducible refine put_keepsAt (by assumption) ?_)
    | (with_reducible refine put_keeps (by assumption) ?_)
    | (with_reducible refine inc_keepsAt (by assumption) ?_)
    | (with_reducible refine inc_keeps (by assumption) ?_)
    | (with_reducible apply plcTakeSchedule_keeps (hA := by first | with_reducible assumption | with_reducible apply_assumption))
    | (with_reducible apply plcPeriod_keeps (hA := by first | with_reducible assumption | with_reducible apply_assumption))
    | (with_reducible apply log_keeps (hA := by first | with_reducible assumption | with_reducible apply_assumption))
    | with_reducible apply keeps_ite
    | split
    | refine keeps_ite ?_ ?_)

def touchExecCoordinatorTakeover (A : Part → Prop) : Prop := touchLog A ∧ A (.reg R.PLC_STAT.NSTN) ∧ touchPlcCoordinate A ∧ touchPlcAllDown A
theorem touchExecCoordinatorTakeover_all (h : ∀ q, A q) : touchExecCoordinatorTakeover A := ⟨touchLog_all h, h _, touchPlcCoordinate_all h, touchPlcAllDown_all h⟩
theorem execCoordinatorTakeover_next  (hA : touchExecCoordinatorTakeover A) : ∃ u, execCoordinatorTakeover s = .next u ∧ Keeps A s u := by
  unfold execCoordinatorTakeover
  have h := Keeps.refl A s
  refine ⟨_, rfl, ?_⟩
  obtain ⟨_, _, _, _⟩ := hA
  repeat' (first
    | with_reducible assumption
    | intro y
    | (extract_lets +onlyGivenNames x; first | (refine cut (P := Keeps A s x) ?_ ?_; (on_goal 1 => (unfold x; clear x)); (on_goal 2 => (intro hx; first | clear_value x | skip))) | clear_value x | skip)
    | (with_reducible apply log_keeps (hA := by first | with_reducible assumption | with_reducible apply_assumption))
    | (with_reducible refine put_keepsAt (by assumption) ?_)
    | (with_reducible refine put_keeps (by assumption) ?_)
    | (with_reducible apply plcCoordinate_keeps (hA := by first | with_reducible assumption | with_reducible apply_assumption))
    | (with_reducible apply plcAllDown_keeps (hA := by first | with_reducible assumption | with_reducible apply_assumption))
    | with_reducible apply keeps_ite
    | split
    | refine keeps_ite ?_ ?_)

def touchPlcKeepLinks (A : Part → Prop) : Prop := touchFree A ∧ touchSetPlc A
theorem touchPlcKeepLinks_all (h : ∀ q, A q) : touchPlcKeepLinks A := ⟨touchFree_all h, touchSetPlc_all h⟩
theorem plcKeepLinks_keeps {stns : List ℕ} (hA : touchPlcKeepLinks A)  (h : Keeps A s t) : Keeps A s (State.plcKeepLinks t stns) := by
  unfold State.plcKeepLinks
  obtain ⟨_, _⟩ := hA
  repeat' (first
    | with_reducible assumption
    | intro y
    | (extract_lets +onlyGivenNames x; first | (refine cut (P := Keeps A s x) ?_ ?_; (on_goal 1 => (unfold x; clear x)); (on_goal 2 => (intro hx; first | clear_value x | skip))) | (refine cut (P := Keeps A s x.2) ?_ ?_; (on_goal 1 => (unfold x; clear x)); (on_goal 2 => (intro hx; first | clear_value x | skip))) | (refine cut (P := Keeps A s x.2.2) ?_ ?_; (on_goal 1 => (unfold x; clear x)); (on_goal 2 => (intro hx; first | clear_value x | skip))) | clear_value x | skip)
    | (with_reducible apply free_keeps (hA := by first | with_reducible assumption | with_reducible apply_assumption))
    | (with_reducible apply setPlc_keeps (hA := by first | with_reducible assumption | with_reducible apply_assumption))
    | with_reducible apply keeps_ite
    | with_reducible apply keeps_ite2
    | with_reducible apply keeps_ite3
    | with_reducible apply keeps_foldl
    | with_reducible apply keeps_foldl2
    | with_reducible apply keeps_foldl3
    | split
    | refine keeps_ite ?_ ?_)

def touchExecSuccessorHandover (A : Part → Prop) : Prop := A .plc ∧ A (.reg R.PLC_COORD_SER_LO.SERIAL) ∧ A (.reg R.PLC_COORD_SER_HI.SERIAL) ∧ touchSetPlc A ∧ A (.reg R.PLC_BEACON.MISSED) ∧ touchPlcState A ∧ touchPlcAllDown A ∧ touchPlcCoordinate A ∧ touchPlcKeepLinks A ∧ touchLog A ∧ A (.reg R.PLC_STAT.NSTN)
theorem touchExecSuccessorHandover_all (h : ∀ q, A q) : touchExecSuccessorHandover A := ⟨h _, h _, h _, touchSetPlc_all h, h _, touchPlcState_all h, touchPlcAllDown_all h, touchPlcCoordinate_all h, touchPlcKeepLinks_all h, touchLog_all h, h _⟩
theorem execSuccessorHandover_next  (hA : touchExecSuccessorHandover A) : ∃ u, execSuccessorHandover s = .next u ∧ Keeps A s u := by
  unfold execSuccessorHandover
  have h := Keeps.refl A s
  refine ⟨_, rfl, ?_⟩
  obtain ⟨_, _, _, _, _, _, _, _, _, _, _⟩ := hA
  repeat' (first
    | with_reducible assumption
    | intro y
    | (extract_lets +onlyGivenNames x; first | (refine cut (P := Keeps A s x) ?_ ?_; (on_goal 1 => (unfold x; clear x)); (on_goal 2 => (intro hx; first | clear_value x | skip))) | clear_value x | skip)
    | (with_reducible refine put_keepsAt (by assumption) ?_)
    | (with_reducible refine put_keeps (by assumption) ?_)
    | (with_reducible refine put2_keepsAt (by assumption) (by assumption) ?_)
    | (with_reducible refine put2_keeps (by assumption) (by assumption) ?_)
    | (with_reducible apply setPlc_keeps (hA := by first | with_reducible assumption | with_reducible apply_assumption))
    | (with_reducible apply plcState_keeps (hA := by first | with_reducible assumption | with_reducible apply_assumption))
    | (with_reducible apply plcAllDown_keeps (hA := by first | with_reducible assumption | with_reducible apply_assumption))
    | (with_reducible apply plcCoordinate_keeps (hA := by first | with_reducible assumption | with_reducible apply_assumption))
    | (with_reducible apply plcKeepLinks_keeps (hA := by first | with_reducible assumption | with_reducible apply_assumption))
    | (with_reducible apply log_keeps (hA := by first | with_reducible assumption | with_reducible apply_assumption))
    | with_reducible apply keeps_ite
    | split
    | refine keeps_ite ?_ ?_
    | with_reducible exact keeps_plc (by assumption) (by assumption))

def touchPlcFailing (A : Part → Prop) : Prop := touchPlcLinkDown A
theorem touchPlcFailing_all (h : ∀ q, A q) : touchPlcFailing A := touchPlcLinkDown_all h
theorem plcFailing_keeps {stn : ℕ} (hA : touchPlcFailing A)  (h : Keeps A s t) : Keeps A s (State.plcFailing t stn) := by
  unfold State.plcFailing
  unfold touchPlcFailing at hA
  repeat' (first
    | with_reducible assumption
    | intro y
    | (extract_lets +onlyGivenNames x; first | (refine cut (P := Keeps A s x) ?_ ?_; (on_goal 1 => (unfold x; clear x)); (on_goal 2 => (intro hx; first | clear_value x | skip))) | clear_value x | skip)
    | (with_reducible apply plcLinkDown_keeps (hA := by first | with_reducible assumption | with_reducible apply_assumption))
    | with_reducible apply keeps_ite
    | split
    | refine keeps_ite ?_ ?_)

def touchPlcSweep (A : Part → Prop) : Prop := touchPlcFailing A ∧ touchPlcDrop A ∧ touchSetPlc A
theorem touchPlcSweep_all (h : ∀ q, A q) : touchPlcSweep A := ⟨touchPlcFailing_all h, touchPlcDrop_all h, touchSetPlc_all h⟩
theorem plcSweep_keeps {stn : ℕ} (hA : touchPlcSweep A)  (h : Keeps A s t) : Keeps A s (State.plcSweep t stn) := by
  unfold State.plcSweep
  obtain ⟨_, _, _⟩ := hA
  repeat' (first
    | with_reducible assumption
    | intro y
    | (extract_lets +onlyGivenNames x; first | (refine cut (P := Keeps A s x) ?_ ?_; (on_goal 1 => (unfold x; clear x)); (on_goal 2 => (intro hx; first | clear_value x | skip))) | clear_value x | skip)
    | (with_reducible apply plcFailing_keeps (hA := by first | with_reducible assumption | with_reducible apply_assumption))
    | (with_reducible apply plcDrop_keeps (hA := by first | with_reducible assumption | with_reducible apply_assumption))
    | (with_reducible apply setPlc_keeps (hA := by first | with_reducible assumption | with_reducible apply_assumption))
    | with_reducible apply keeps_ite
    | with_reducible apply keeps_foldl
    | split
    | refine keeps_ite ?_ ?_)

def touchPlcGrants (A : Part → Prop) : Prop := touchSetPlc A
theorem touchPlcGrants_all (h : ∀ q, A q) : touchPlcGrants A := touchSetPlc_all h
theorem plcGrants_keeps  (hA : touchPlcGrants A)  (h : Keeps A s t) : Keeps A s (State.plcGrants t) := by
  unfold State.plcGrants
  unfold touchPlcGrants at hA
  repeat' (first
    | with_reducible assumption
    | intro y
    | (extract_lets +onlyGivenNames x; first | (refine cut (P := Keeps A s x) ?_ ?_; (on_goal 1 => (unfold x; clear x)); (on_goal 2 => (intro hx; first | clear_value x | skip))) | clear_value x | skip)
    | (with_reducible apply setPlc_keeps (hA := by first | with_reducible assumption | with_reducible apply_assumption))
    | with_reducible apply keeps_ite
    | split
    | refine keeps_ite ?_ ?_)

def touchPlcAckAll (A : Part → Prop) : Prop := touchPlcEmit A ∧ A .plc
theorem touchPlcAckAll_all (h : ∀ q, A q) : touchPlcAckAll A := ⟨touchPlcEmit_all h, h _⟩
theorem plcAckAll_keeps {left : ℕ} (hA : touchPlcAckAll A)  (h : Keeps A s t) : Keeps A s (State.plcAckAll t left).2 := by
  unfold State.plcAckAll
  obtain ⟨_, _⟩ := hA
  repeat' (first
    | with_reducible assumption
    | intro y
    | (extract_lets +onlyGivenNames x; first | (refine cut (P := Keeps A s x) ?_ ?_; (on_goal 1 => (unfold x; clear x)); (on_goal 2 => (intro hx; first | clear_value x | skip))) | clear_value x | skip)
    | (with_reducible apply plcEmit_keeps (hA := by first | with_reducible assumption | with_reducible apply_assumption))
    | with_reducible apply keeps_ite
    | with_reducible apply keeps_ite2
    | with_reducible apply keeps_ite3
    | split
    | refine keeps_ite ?_ ?_
    | with_reducible exact keeps_plc (by assumption) (by assumption))

def touchPlcEpoch (A : Part → Prop) : Prop := touchDiscard A ∧ touchSetPlc A
theorem touchPlcEpoch_all (h : ∀ q, A q) : touchPlcEpoch A := ⟨touchDiscard_all h, touchSetPlc_all h⟩
theorem plcEpoch_keeps {stn : ℕ} (hA : touchPlcEpoch A)  (h : Keeps A s t) : Keeps A s (State.plcEpoch t stn) := by
  unfold State.plcEpoch
  obtain ⟨_, _⟩ := hA
  repeat' (first
    | with_reducible assumption
    | intro y
    | (extract_lets +onlyGivenNames x; first | (refine cut (P := Keeps A s x) ?_ ?_; (on_goal 1 => (unfold x; clear x)); (on_goal 2 => (intro hx; first | clear_value x | skip))) | clear_value x | skip)
    | (with_reducible apply discard_keeps (hA := by first | with_reducible assumption | with_reducible apply_assumption))
    | (with_reducible apply setPlc_keeps (hA := by first | with_reducible assumption | with_reducible apply_assumption))
    | with_reducible apply keeps_ite
    | with_reducible apply keeps_foldl
    | split
    | refine keeps_ite ?_ ?_)

def touchPlcTransmit (A : Part → Prop) : Prop := touchPlcEmit A ∧ A (.reg R.PLC_CNT0.RETX) ∧ touchSetPlc A
theorem touchPlcTransmit_all (h : ∀ q, A q) : touchPlcTransmit A := ⟨touchPlcEmit_all h, h _, touchSetPlc_all h⟩
theorem plcTransmit_keeps {stn : ℕ} {left : ℕ} (hA : touchPlcTransmit A)  (h : Keeps A s t) : Keeps A s (State.plcTransmit t stn left) := by
  unfold State.plcTransmit
  obtain ⟨_, _, _⟩ := hA
  repeat' (first
    | with_reducible assumption
    | intro y
    | (extract_lets +onlyGivenNames x; first | (refine cut (P := Keeps A s x) ?_ ?_; (on_goal 1 => (unfold x; clear x)); (on_goal 2 => (intro hx; first | clear_value x | skip))) | clear_value x | skip)
    | (with_reducible refine inc_keepsAt (by assumption) ?_)
    | (with_reducible refine inc_keeps (by assumption) ?_)
    | (with_reducible apply plcEmit_keeps (hA := by first | with_reducible assumption | with_reducible apply_assumption))
    | (with_reducible apply setPlc_keeps (hA := by first | with_reducible assumption | with_reducible apply_assumption))
    | with_reducible apply keeps_ite
    | with_reducible apply keeps_foldl
    | split
    | refine keeps_ite ?_ ?_)

def touchExecPlcFrameSend (A : Part → Prop) : Prop := touchPlcAckAll A ∧ touchPlcTransmit A ∧ touchPlcEpoch A ∧ touchPlcGrants A ∧ touchPlcSweep A
theorem touchExecPlcFrameSend_all (h : ∀ q, A q) : touchExecPlcFrameSend A := ⟨touchPlcAckAll_all h, touchPlcTransmit_all h, touchPlcEpoch_all h, touchPlcGrants_all h, touchPlcSweep_all h⟩
theorem execPlcFrameSend_next {stn : ℕ} {sym : ℕ} (hA : touchExecPlcFrameSend A) : ∃ u, execPlcFrameSend stn sym s = .next u ∧ Keeps A s u := by
  unfold execPlcFrameSend
  have h := Keeps.refl A s
  refine ⟨_, rfl, ?_⟩
  obtain ⟨_, _, _, _, _⟩ := hA
  repeat' (first
    | with_reducible assumption
    | intro y
    | (extract_lets +onlyGivenNames x; first | (refine cut (P := Keeps A s x) ?_ ?_; (on_goal 1 => (unfold x; clear x)); (on_goal 2 => (intro hx; first | clear_value x | skip))) | (refine cut (P := Keeps A s x.2) ?_ ?_; (on_goal 1 => (unfold x; clear x)); (on_goal 2 => (intro hx; first | clear_value x | skip))) | (refine cut (P := Keeps A s x.2.2) ?_ ?_; (on_goal 1 => (unfold x; clear x)); (on_goal 2 => (intro hx; first | clear_value x | skip))) | clear_value x | skip)
    | (with_reducible apply plcAckAll_keeps (hA := by first | with_reducible assumption | with_reducible apply_assumption))
    | (with_reducible apply plcTransmit_keeps (hA := by first | with_reducible assumption | with_reducible apply_assumption))
    | (with_reducible apply plcEpoch_keeps (hA := by first | with_reducible assumption | with_reducible apply_assumption))
    | (with_reducible apply plcGrants_keeps (hA := by first | with_reducible assumption | with_reducible apply_assumption))
    | (with_reducible apply plcSweep_keeps (hA := by first | with_reducible assumption | with_reducible apply_assumption))
    | with_reducible apply keeps_ite
    | with_reducible apply keeps_ite2
    | with_reducible apply keeps_ite3
    | split
    | refine keeps_ite ?_ ?_)

def touchPlcMap (A : Part → Prop) : Prop := touchSetPlc A
theorem touchPlcMap_all (h : ∀ q, A q) : touchPlcMap A := touchSetPlc_all h
theorem plcMap_keeps {stn : ℕ} {id : ℕ} {rate : ℕ} {codes : List ℕ} (hA : touchPlcMap A)  (h : Keeps A s t) : Keeps A s (State.plcMap t stn id rate codes) := by
  unfold State.plcMap
  unfold touchPlcMap at hA
  repeat' (first
    | with_reducible assumption
    | intro y
    | (extract_lets +onlyGivenNames x; first | (refine cut (P := Keeps A s x) ?_ ?_; (on_goal 1 => (unfold x; clear x)); (on_goal 2 => (intro hx; first | clear_value x | skip))) | clear_value x | skip)
    | (with_reducible apply setPlc_keeps (hA := by first | with_reducible assumption | with_reducible apply_assumption))
    | with_reducible apply keeps_ite
    | split
    | refine keeps_ite ?_ ?_)

def touchPlcRoute (A : Part → Prop) : Prop := touchPlcMap A ∧ touchRouteFrame A ∧ touchPlcLearn A
theorem touchPlcRoute_all (h : ∀ q, A q) : touchPlcRoute A := ⟨touchPlcMap_all h, touchRouteFrame_all h, touchPlcLearn_all h⟩
theorem plcRoute_keeps {stn : ℕ} {l : List (List ℕ)} (hA : touchPlcRoute A)  (h : Keeps A s t) : Keeps A s (State.plcRoute t stn l) := by
  unfold State.plcRoute
  obtain ⟨_, _, _⟩ := hA
  repeat' (first
    | with_reducible assumption
    | intro y
    | (extract_lets +onlyGivenNames x; first | (refine cut (P := Keeps A s x) ?_ ?_; (on_goal 1 => (unfold x; clear x)); (on_goal 2 => (intro hx; first | clear_value x | skip))) | clear_value x | skip)
    | (with_reducible apply plcMap_keeps (hA := by first | with_reducible assumption | with_reducible apply_assumption))
    | (with_reducible apply routeFrame_keeps (hA := by first | with_reducible assumption | with_reducible apply_assumption))
    | (with_reducible apply plcLearn_keeps (hA := by first | with_reducible assumption | with_reducible apply_assumption))
    | with_reducible apply keeps_ite
    | with_reducible apply keeps_foldl
    | split
    | refine keeps_ite ?_ ?_)

def touchPlcAckSend (A : Part → Prop) : Prop := A .plc ∧ touchPlcEmit A
theorem touchPlcAckSend_all (h : ∀ q, A q) : touchPlcAckSend A := ⟨h _, touchPlcEmit_all h⟩
theorem plcAckSend_keeps {stn : ℕ} {seq : ℕ} {map : ℕ} (hA : touchPlcAckSend A)  (h : Keeps A s t) : Keeps A s (State.plcAckSend t stn seq map) := by
  unfold State.plcAckSend
  obtain ⟨_, _⟩ := hA
  repeat' (first
    | with_reducible assumption
    | intro y
    | (extract_lets +onlyGivenNames x; first | (refine cut (P := Keeps A s x) ?_ ?_; (on_goal 1 => (unfold x; clear x)); (on_goal 2 => (intro hx; first | clear_value x | skip))) | clear_value x | skip)
    | (with_reducible apply plcEmit_keeps (hA := by first | with_reducible assumption | with_reducible apply_assumption))
    | with_reducible apply keeps_ite
    | split
    | refine keeps_ite ?_ ?_
    | with_reducible exact keeps_plc (by assumption) (by assumption))

def touchPlcUnicast (A : Part → Prop) : Prop := A (.reg R.PLC_CNT0.SEG_FAIL) ∧ touchSetPlc A ∧ touchPlcRoute A ∧ touchPlcAckSend A
theorem touchPlcUnicast_all (h : ∀ q, A q) : touchPlcUnicast A := ⟨h _, touchSetPlc_all h, touchPlcRoute_all h, touchPlcAckSend_all h⟩
theorem plcUnicast_keeps {stn : ℕ} {segs : List Sys2Proof.RxSeg} (hA : touchPlcUnicast A)  (h : Keeps A s t) : Keeps A s (State.plcUnicast t stn segs) := by
  unfold State.plcUnicast
  obtain ⟨_, _, _, _⟩ := hA
  repeat' (first
    | with_reducible assumption
    | intro y
    | (extract_lets +onlyGivenNames x; first | (refine cut (P := Keeps A s x) ?_ ?_; (on_goal 1 => (unfold x; clear x)); (on_goal 2 => (intro hx; first | clear_value x | skip))) | (refine cut (P := Keeps A s x.2) ?_ ?_; (on_goal 1 => (unfold x; clear x)); (on_goal 2 => (intro hx; first | clear_value x | skip))) | (refine cut (P := Keeps A s x.2.2) ?_ ?_; (on_goal 1 => (unfold x; clear x)); (on_goal 2 => (intro hx; first | clear_value x | skip))) | clear_value x | skip)
    | (with_reducible refine inc_keepsAt (by assumption) ?_)
    | (with_reducible refine inc_keeps (by assumption) ?_)
    | (with_reducible apply setPlc_keeps (hA := by first | with_reducible assumption | with_reducible apply_assumption))
    | (with_reducible apply plcRoute_keeps (hA := by first | with_reducible assumption | with_reducible apply_assumption))
    | (with_reducible apply plcAckSend_keeps (hA := by first | with_reducible assumption | with_reducible apply_assumption))
    | with_reducible apply keeps_ite
    | with_reducible apply keeps_ite2
    | with_reducible apply keeps_ite3
    | with_reducible apply keeps_foldl
    | with_reducible apply keeps_foldl2
    | with_reducible apply keeps_foldl3
    | split
    | refine keeps_ite ?_ ?_)

def touchPlcBroadcast (A : Part → Prop) : Prop := touchPlcRoute A ∧ A (.reg R.PLC_CNT0.SEG_FAIL) ∧ touchSetPlc A
theorem touchPlcBroadcast_all (h : ∀ q, A q) : touchPlcBroadcast A := ⟨touchPlcRoute_all h, h _, touchSetPlc_all h⟩
theorem plcBroadcast_keeps {segs : List Sys2Proof.RxSeg} (hA : touchPlcBroadcast A)  (h : Keeps A s t) : Keeps A s (State.plcBroadcast t segs) := by
  unfold State.plcBroadcast
  obtain ⟨_, _, _⟩ := hA
  repeat' (first
    | with_reducible assumption
    | intro y
    | (extract_lets +onlyGivenNames x; first | (refine cut (P := Keeps A s x) ?_ ?_; (on_goal 1 => (unfold x; clear x)); (on_goal 2 => (intro hx; first | clear_value x | skip))) | (refine cut (P := Keeps A s x.2) ?_ ?_; (on_goal 1 => (unfold x; clear x)); (on_goal 2 => (intro hx; first | clear_value x | skip))) | (refine cut (P := Keeps A s x.2.2) ?_ ?_; (on_goal 1 => (unfold x; clear x)); (on_goal 2 => (intro hx; first | clear_value x | skip))) | clear_value x | skip)
    | (with_reducible refine inc_keepsAt (by assumption) ?_)
    | (with_reducible refine inc_keeps (by assumption) ?_)
    | (with_reducible apply plcRoute_keeps (hA := by first | with_reducible assumption | with_reducible apply_assumption))
    | (with_reducible apply setPlc_keeps (hA := by first | with_reducible assumption | with_reducible apply_assumption))
    | with_reducible apply keeps_ite
    | with_reducible apply keeps_ite2
    | with_reducible apply keeps_ite3
    | with_reducible apply keeps_foldl
    | with_reducible apply keeps_foldl2
    | with_reducible apply keeps_foldl3
    | split
    | refine keeps_ite ?_ ?_)

def touchPlcKeyHeard (A : Part → Prop) : Prop := touchSetPlc A
theorem touchPlcKeyHeard_all (h : ∀ q, A q) : touchPlcKeyHeard A := touchSetPlc_all h
theorem plcKeyHeard_keeps {n : ℕ} {kcls : ℕ} {klvl : ℕ} {kprio : ℕ} {bpc : ℕ} (hA : touchPlcKeyHeard A)  (h : Keeps A s t) : Keeps A s (State.plcKeyHeard t n kcls klvl kprio bpc) := by
  unfold State.plcKeyHeard
  unfold touchPlcKeyHeard at hA
  repeat' (first
    | with_reducible assumption
    | intro y
    | (extract_lets +onlyGivenNames x; first | (refine cut (P := Keeps A s x) ?_ ?_; (on_goal 1 => (unfold x; clear x)); (on_goal 2 => (intro hx; first | clear_value x | skip))) | clear_value x | skip)
    | (with_reducible apply setPlc_keeps (hA := by first | with_reducible assumption | with_reducible apply_assumption))
    | with_reducible apply keeps_ite
    | split
    | refine keeps_ite ?_ ?_)

def touchExecPlcFrameReceive (A : Part → Prop) : Prop := touchPlcHear A ∧ touchPlcKeyHeard A ∧ touchSetPlc A ∧ touchPlcBroadcast A ∧ touchPlcUnicast A
theorem touchExecPlcFrameReceive_all (h : ∀ q, A q) : touchExecPlcFrameReceive A := ⟨touchPlcHear_all h, touchPlcKeyHeard_all h, touchSetPlc_all h, touchPlcBroadcast_all h, touchPlcUnicast_all h⟩
theorem execPlcFrameReceive_next {stn : ℕ} {dst : ℕ} {kcls : ℕ} {klvl : ℕ} {kprio : ℕ} {bpc : ℕ} {erased : Sys2Proof.PlcRx} {segs : List Sys2Proof.RxSeg} (hA : touchExecPlcFrameReceive A) : ∃ u, execPlcFrameReceive stn dst kcls klvl kprio bpc erased segs s = .next u ∧ Keeps A s u := by
  unfold execPlcFrameReceive
  have h := Keeps.refl A s
  refine ⟨_, rfl, ?_⟩
  obtain ⟨_, _, _, _, _⟩ := hA
  repeat' (first
    | with_reducible assumption
    | intro y
    | (extract_lets +onlyGivenNames x; first | (refine cut (P := Keeps A s x) ?_ ?_; (on_goal 1 => (unfold x; clear x)); (on_goal 2 => (intro hx; first | clear_value x | skip))) | (refine cut (P := Keeps A s x.2) ?_ ?_; (on_goal 1 => (unfold x; clear x)); (on_goal 2 => (intro hx; first | clear_value x | skip))) | (refine cut (P := Keeps A s x.2.2) ?_ ?_; (on_goal 1 => (unfold x; clear x)); (on_goal 2 => (intro hx; first | clear_value x | skip))) | clear_value x | skip)
    | (with_reducible apply plcHear_keeps (hA := by first | with_reducible assumption | with_reducible apply_assumption))
    | (with_reducible apply plcKeyHeard_keeps (hA := by first | with_reducible assumption | with_reducible apply_assumption))
    | (with_reducible apply setPlc_keeps (hA := by first | with_reducible assumption | with_reducible apply_assumption))
    | (with_reducible apply plcBroadcast_keeps (hA := by first | with_reducible assumption | with_reducible apply_assumption))
    | (with_reducible apply plcUnicast_keeps (hA := by first | with_reducible assumption | with_reducible apply_assumption))
    | with_reducible apply keeps_ite
    | with_reducible apply keeps_ite2
    | with_reducible apply keeps_ite3
    | split
    | refine keeps_ite ?_ ?_)

def touchExecPlcAcknowledgement (A : Part → Prop) : Prop := touchPlcFailing A ∧ touchSetPlc A
theorem touchExecPlcAcknowledgement_all (h : ∀ q, A q) : touchExecPlcAcknowledgement A := ⟨touchPlcFailing_all h, touchSetPlc_all h⟩
theorem execPlcAcknowledgement_next {stn : ℕ} {ackSeq : ℕ} {ackMap : Sys2Proof.PlcAck} (hA : touchExecPlcAcknowledgement A) : ∃ u, execPlcAcknowledgement stn ackSeq ackMap s = .next u ∧ Keeps A s u := by
  unfold execPlcAcknowledgement
  have h := Keeps.refl A s
  refine ⟨_, rfl, ?_⟩
  obtain ⟨_, _⟩ := hA
  repeat' (first
    | with_reducible assumption
    | intro y
    | (extract_lets +onlyGivenNames x; first | (refine cut (P := Keeps A s x) ?_ ?_; (on_goal 1 => (unfold x; clear x)); (on_goal 2 => (intro hx; first | clear_value x | skip))) | clear_value x | skip)
    | (with_reducible apply plcFailing_keeps (hA := by first | with_reducible assumption | with_reducible apply_assumption))
    | (with_reducible apply setPlc_keeps (hA := by first | with_reducible assumption | with_reducible apply_assumption))
    | with_reducible apply keeps_ite
    | split
    | refine keeps_ite ?_ ?_)

def touchPlcSkip (A : Part → Prop) : Prop := touchPlcRoute A ∧ touchSetPlc A
theorem touchPlcSkip_all (h : ∀ q, A q) : touchPlcSkip A := ⟨touchPlcRoute_all h, touchSetPlc_all h⟩
theorem plcSkip_keeps {stn : ℕ} (hA : touchPlcSkip A)  (h : Keeps A s t) : Keeps A s (State.plcSkip t stn) := by
  unfold State.plcSkip
  obtain ⟨_, _⟩ := hA
  repeat' (first
    | with_reducible assumption
    | intro y
    | (extract_lets +onlyGivenNames x; first | (refine cut (P := Keeps A s x) ?_ ?_; (on_goal 1 => (unfold x; clear x)); (on_goal 2 => (intro hx; first | clear_value x | skip))) | (refine cut (P := Keeps A s x.2) ?_ ?_; (on_goal 1 => (unfold x; clear x)); (on_goal 2 => (intro hx; first | clear_value x | skip))) | (refine cut (P := Keeps A s x.2.2) ?_ ?_; (on_goal 1 => (unfold x; clear x)); (on_goal 2 => (intro hx; first | clear_value x | skip))) | clear_value x | skip)
    | (with_reducible apply plcRoute_keeps (hA := by first | with_reducible assumption | with_reducible apply_assumption))
    | (with_reducible apply setPlc_keeps (hA := by first | with_reducible assumption | with_reducible apply_assumption))
    | with_reducible apply keeps_ite
    | with_reducible apply keeps_ite2
    | with_reducible apply keeps_ite3
    | split
    | refine keeps_ite ?_ ?_)

def touchExecSegmentDiscard (A : Part → Prop) : Prop := touchPlcSkip A ∧ touchPlcSweep A
theorem touchExecSegmentDiscard_all (h : ∀ q, A q) : touchExecSegmentDiscard A := ⟨touchPlcSkip_all h, touchPlcSweep_all h⟩
theorem execSegmentDiscard_next {stn : ℕ} (hA : touchExecSegmentDiscard A) : ∃ u, execSegmentDiscard stn s = .next u ∧ Keeps A s u := by
  unfold execSegmentDiscard
  have h := Keeps.refl A s
  refine ⟨_, rfl, ?_⟩
  obtain ⟨_, _⟩ := hA
  repeat' (first
    | with_reducible assumption
    | intro y
    | (extract_lets +onlyGivenNames x; first | (refine cut (P := Keeps A s x) ?_ ?_; (on_goal 1 => (unfold x; clear x)); (on_goal 2 => (intro hx; first | clear_value x | skip))) | clear_value x | skip)
    | (with_reducible apply plcSkip_keeps (hA := by first | with_reducible assumption | with_reducible apply_assumption))
    | (with_reducible apply plcSweep_keeps (hA := by first | with_reducible assumption | with_reducible apply_assumption))
    | with_reducible apply keeps_ite
    | split
    | refine keeps_ite ?_ ?_)

def touchPlcAssociate (A : Part → Prop) : Prop := touchSetPlc A ∧ touchPlcLinkDown A ∧ A .plc ∧ touchFree A ∧ touchPlcNewSchedule A
theorem touchPlcAssociate_all (h : ∀ q, A q) : touchPlcAssociate A := ⟨touchSetPlc_all h, touchPlcLinkDown_all h, h _, touchFree_all h, touchPlcNewSchedule_all h⟩
theorem plcAssociate_keeps {serial : ℕ} {node : ℕ} (hA : touchPlcAssociate A)  (h : Keeps A s t) : Keeps A s (State.plcAssociate t serial node) := by
  unfold State.plcAssociate
  obtain ⟨_, _, _, _, _⟩ := hA
  repeat' (first
    | with_reducible assumption
    | intro y
    | (extract_lets +onlyGivenNames x; first | (refine cut (P := Keeps A s x) ?_ ?_; (on_goal 1 => (unfold x; clear x)); (on_goal 2 => (intro hx; first | clear_value x | skip))) | (refine cut (P := Keeps A s x.2) ?_ ?_; (on_goal 1 => (unfold x; clear x)); (on_goal 2 => (intro hx; first | clear_value x | skip))) | (refine cut (P := Keeps A s x.2.2) ?_ ?_; (on_goal 1 => (unfold x; clear x)); (on_goal 2 => (intro hx; first | clear_value x | skip))) | clear_value x | skip)
    | (with_reducible apply setPlc_keeps (hA := by first | with_reducible assumption | with_reducible apply_assumption))
    | (with_reducible apply plcLinkDown_keeps (hA := by first | with_reducible assumption | with_reducible apply_assumption))
    | (with_reducible apply free_keeps (hA := by first | with_reducible assumption | with_reducible apply_assumption))
    | (with_reducible apply plcNewSchedule_keeps (hA := by first | with_reducible assumption | with_reducible apply_assumption))
    | with_reducible apply keeps_ite
    | with_reducible apply keeps_ite2
    | with_reducible apply keeps_ite3
    | split
    | refine keeps_ite ?_ ?_
    | with_reducible exact keeps_plc (by assumption) (by assumption))

def touchPlcRequest (A : Part → Prop) : Prop := touchFree A ∧ touchPlcEmit A ∧ A .plc
theorem touchPlcRequest_all (h : ∀ q, A q) : touchPlcRequest A := ⟨touchFree_all h, touchPlcEmit_all h, h _⟩
theorem plcRequest_keeps  (hA : touchPlcRequest A)  (h : Keeps A s t) : Keeps A s (State.plcRequest t) := by
  unfold State.plcRequest
  obtain ⟨_, _, _⟩ := hA
  repeat' (first
    | with_reducible assumption
    | intro y
    | (extract_lets +onlyGivenNames x; first | (refine cut (P := Keeps A s x) ?_ ?_; (on_goal 1 => (unfold x; clear x)); (on_goal 2 => (intro hx; first | clear_value x | skip))) | (refine cut (P := Keeps A s x.2) ?_ ?_; (on_goal 1 => (unfold x; clear x)); (on_goal 2 => (intro hx; first | clear_value x | skip))) | (refine cut (P := Keeps A s x.2.2) ?_ ?_; (on_goal 1 => (unfold x; clear x)); (on_goal 2 => (intro hx; first | clear_value x | skip))) | clear_value x | skip)
    | (with_reducible apply free_keeps (hA := by first | with_reducible assumption | with_reducible apply_assumption))
    | (with_reducible apply plcEmit_keeps (hA := by first | with_reducible assumption | with_reducible apply_assumption))
    | with_reducible apply keeps_ite
    | with_reducible apply keeps_ite2
    | with_reducible apply keeps_ite3
    | split
    | refine keeps_ite ?_ ?_
    | with_reducible exact keeps_plc (by assumption) (by assumption))

def touchExecAssociationRequest (A : Part → Prop) : Prop := touchPlcAssociate A ∧ touchPlcRequest A
theorem touchExecAssociationRequest_all (h : ∀ q, A q) : touchExecAssociationRequest A := ⟨touchPlcAssociate_all h, touchPlcRequest_all h⟩
theorem execAssociationRequest_next {rx : Option ℕ} {serial : ℕ} {node : ℕ} (hA : touchExecAssociationRequest A) : ∃ u, execAssociationRequest rx serial node s = .next u ∧ Keeps A s u := by
  unfold execAssociationRequest
  have h := Keeps.refl A s
  refine ⟨_, rfl, ?_⟩
  obtain ⟨_, _⟩ := hA
  repeat' (first
    | with_reducible assumption
    | intro y
    | (extract_lets +onlyGivenNames x; first | (refine cut (P := Keeps A s x) ?_ ?_; (on_goal 1 => (unfold x; clear x)); (on_goal 2 => (intro hx; first | clear_value x | skip))) | clear_value x | skip)
    | (with_reducible apply plcAssociate_keeps (hA := by first | with_reducible assumption | with_reducible apply_assumption))
    | (with_reducible apply plcRequest_keeps (hA := by first | with_reducible assumption | with_reducible apply_assumption))
    | with_reducible apply keeps_ite
    | split
    | refine keeps_ite ?_ ?_)

def touchExecStationRemove (A : Part → Prop) : Prop := touchPlcLinkDown A ∧ touchPlcNewSchedule A ∧ A .plc
theorem touchExecStationRemove_all (h : ∀ q, A q) : touchExecStationRemove A := ⟨touchPlcLinkDown_all h, touchPlcNewSchedule_all h, h _⟩
theorem execStationRemove_next {stn : ℕ} (hA : touchExecStationRemove A) : ∃ u, execStationRemove stn s = .next u ∧ Keeps A s u := by
  unfold execStationRemove
  have h := Keeps.refl A s
  refine ⟨_, rfl, ?_⟩
  obtain ⟨_, _, _⟩ := hA
  repeat' (first
    | with_reducible assumption
    | intro y
    | (extract_lets +onlyGivenNames x; first | (refine cut (P := Keeps A s x) ?_ ?_; (on_goal 1 => (unfold x; clear x)); (on_goal 2 => (intro hx; first | clear_value x | skip))) | clear_value x | skip)
    | (with_reducible apply plcLinkDown_keeps (hA := by first | with_reducible assumption | with_reducible apply_assumption))
    | (with_reducible apply plcNewSchedule_keeps (hA := by first | with_reducible assumption | with_reducible apply_assumption))
    | with_reducible apply keeps_ite
    | split
    | refine keeps_ite ?_ ?_
    | with_reducible exact keeps_plc (by assumption) (by assumption))

def touchExecSounding (A : Part → Prop) : Prop := touchPlcEmit A ∧ touchSetPlc A
theorem touchExecSounding_all (h : ∀ q, A q) : touchExecSounding A := ⟨touchPlcEmit_all h, touchSetPlc_all h⟩
theorem execSounding_next {stn : ℕ} (hA : touchExecSounding A) : ∃ u, execSounding stn s = .next u ∧ Keeps A s u := by
  unfold execSounding
  have h := Keeps.refl A s
  refine ⟨_, rfl, ?_⟩
  obtain ⟨_, _⟩ := hA
  repeat' (first
    | with_reducible assumption
    | intro y
    | (extract_lets +onlyGivenNames x; first | (refine cut (P := Keeps A s x) ?_ ?_; (on_goal 1 => (unfold x; clear x)); (on_goal 2 => (intro hx; first | clear_value x | skip))) | clear_value x | skip)
    | (with_reducible apply plcEmit_keeps (hA := by first | with_reducible assumption | with_reducible apply_assumption))
    | (with_reducible apply setPlc_keeps (hA := by first | with_reducible assumption | with_reducible apply_assumption))
    | with_reducible apply keeps_ite
    | split
    | refine keeps_ite ?_ ?_)

def touchExecToneMapIssue (A : Part → Prop) : Prop := touchLog A ∧ A (.reg R.PLC_CNT2.TMAP_REF) ∧ touchSetPlc A ∧ touchPlcMap A
theorem touchExecToneMapIssue_all (h : ∀ q, A q) : touchExecToneMapIssue A := ⟨touchLog_all h, h _, touchSetPlc_all h, touchPlcMap_all h⟩
theorem execToneMapIssue_next {stn : ℕ} {mine : Bool} {id : ℕ} {rate : ℕ} {codes : List ℕ} (hA : touchExecToneMapIssue A) : ∃ u, execToneMapIssue stn mine id rate codes s = .next u ∧ Keeps A s u := by
  unfold execToneMapIssue
  have h := Keeps.refl A s
  refine ⟨_, rfl, ?_⟩
  obtain ⟨_, _, _, _⟩ := hA
  repeat' (first
    | with_reducible assumption
    | intro y
    | (extract_lets +onlyGivenNames x; first | (refine cut (P := Keeps A s x) ?_ ?_; (on_goal 1 => (unfold x; clear x)); (on_goal 2 => (intro hx; first | clear_value x | skip))) | clear_value x | skip)
    | (with_reducible refine inc_keepsAt (by assumption) ?_)
    | (with_reducible refine inc_keeps (by assumption) ?_)
    | (with_reducible apply log_keeps (hA := by first | with_reducible assumption | with_reducible apply_assumption))
    | (with_reducible apply setPlc_keeps (hA := by first | with_reducible assumption | with_reducible apply_assumption))
    | (with_reducible apply plcMap_keeps (hA := by first | with_reducible assumption | with_reducible apply_assumption))
    | with_reducible apply keeps_ite
    | split
    | refine keeps_ite ?_ ?_)

def touchExecToneMapRefresh (A : Part → Prop) : Prop := touchSetPlc A
theorem touchExecToneMapRefresh_all (h : ∀ q, A q) : touchExecToneMapRefresh A := touchSetPlc_all h
theorem execToneMapRefresh_next {stn : ℕ} {secs : ℕ} (hA : touchExecToneMapRefresh A) : ∃ u, execToneMapRefresh stn secs s = .next u ∧ Keeps A s u := by
  unfold execToneMapRefresh
  have h := Keeps.refl A s
  refine ⟨_, rfl, ?_⟩
  unfold touchExecToneMapRefresh at hA
  repeat' (first
    | with_reducible assumption
    | intro y
    | (extract_lets +onlyGivenNames x; first | (refine cut (P := Keeps A s x) ?_ ?_; (on_goal 1 => (unfold x; clear x)); (on_goal 2 => (intro hx; first | clear_value x | skip))) | clear_value x | skip)
    | (with_reducible apply setPlc_keeps (hA := by first | with_reducible assumption | with_reducible apply_assumption))
    | with_reducible apply keeps_ite
    | split)

def touchExecLinkDegraded (A : Part → Prop) : Prop := touchLog A ∧ A (.reg R.PLC_STAT.DEGR_SEEN) ∧ touchSetPlc A
theorem touchExecLinkDegraded_all (h : ∀ q, A q) : touchExecLinkDegraded A := ⟨touchLog_all h, h _, touchSetPlc_all h⟩
theorem execLinkDegraded_next {stn : ℕ} (hA : touchExecLinkDegraded A) : ∃ u, execLinkDegraded stn s = .next u ∧ Keeps A s u := by
  unfold execLinkDegraded
  have h := Keeps.refl A s
  refine ⟨_, rfl, ?_⟩
  obtain ⟨_, _, _⟩ := hA
  repeat' (first
    | with_reducible assumption
    | intro y
    | (extract_lets +onlyGivenNames x; first | (refine cut (P := Keeps A s x) ?_ ?_; (on_goal 1 => (unfold x; clear x)); (on_goal 2 => (intro hx; first | clear_value x | skip))) | clear_value x | skip)
    | (with_reducible refine put_keepsAt (by assumption) ?_)
    | (with_reducible refine put_keeps (by assumption) ?_)
    | (with_reducible apply log_keeps (hA := by first | with_reducible assumption | with_reducible apply_assumption))
    | (with_reducible apply setPlc_keeps (hA := by first | with_reducible assumption | with_reducible apply_assumption))
    | with_reducible apply keeps_ite
    | split
    | refine keeps_ite ?_ ?_)

def touchExecRanging (A : Part → Prop) : Prop := touchSetPlc A ∧ touchPlcEmit A ∧ A (.reg R.PLC_DLY.DLY) ∧ touchLinkReport A ∧ touchFabLinkUp A
theorem touchExecRanging_all (h : ∀ q, A q) : touchExecRanging A := ⟨touchSetPlc_all h, touchPlcEmit_all h, h _, touchLinkReport_all h, touchFabLinkUp_all h⟩
theorem execRanging_next {stn : ℕ} {t1 : ℤ} {t2 : ℤ} {t3 : ℤ} {t4 : ℤ} {stableMs : ℕ} {downS : Option ℕ} (hA : touchExecRanging A) : ∃ u, execRanging stn t1 t2 t3 t4 stableMs downS s = .next u ∧ Keeps A s u := by
  unfold execRanging
  have h := Keeps.refl A s
  refine ⟨_, rfl, ?_⟩
  obtain ⟨_, _, _, _, _⟩ := hA
  repeat' (first
    | with_reducible assumption
    | intro y
    | (extract_lets +onlyGivenNames x; first | (refine cut (P := Keeps A s x) ?_ ?_; (on_goal 1 => (unfold x; clear x)); (on_goal 2 => (intro hx; first | clear_value x | skip))) | clear_value x | skip)
    | (with_reducible refine put_keepsAt (by assumption) ?_)
    | (with_reducible refine put_keeps (by assumption) ?_)
    | (with_reducible apply setPlc_keeps (hA := by first | with_reducible assumption | with_reducible apply_assumption))
    | (with_reducible apply plcEmit_keeps (hA := by first | with_reducible assumption | with_reducible apply_assumption))
    | (with_reducible apply linkReport_keeps (hA := by first | with_reducible assumption | with_reducible apply_assumption))
    | (with_reducible apply fabLinkUp_keeps (hA := by first | with_reducible assumption | with_reducible apply_assumption))
    | with_reducible apply keeps_ite
    | with_reducible apply keeps_foldl
    | split
    | refine keeps_ite ?_ ?_)

def touchExecCouplerAbsent (A : Part → Prop) : Prop := A .pins ∧ touchPlcState A ∧ touchLog A ∧ A (.reg R.PLC_STAT.ABS_SEEN) ∧ touchPlcAllDown A
theorem touchExecCouplerAbsent_all (h : ∀ q, A q) : touchExecCouplerAbsent A := ⟨h _, touchPlcState_all h, touchLog_all h, h _, touchPlcAllDown_all h⟩
theorem execCouplerAbsent_next {ms : ℕ} (hA : touchExecCouplerAbsent A) : ∃ u, execCouplerAbsent ms s = .next u ∧ Keeps A s u := by
  unfold execCouplerAbsent
  have h := Keeps.refl A s
  refine ⟨_, rfl, ?_⟩
  obtain ⟨_, _, _, _, _⟩ := hA
  repeat' (first
    | with_reducible assumption
    | intro y
    | (extract_lets +onlyGivenNames x; first | (refine cut (P := Keeps A s x) ?_ ?_; (on_goal 1 => (unfold x; clear x)); (on_goal 2 => (intro hx; first | clear_value x | skip))) | clear_value x | skip)
    | (with_reducible refine put_keepsAt (by assumption) ?_)
    | (with_reducible refine put_keeps (by assumption) ?_)
    | (with_reducible apply plcState_keeps (hA := by first | with_reducible assumption | with_reducible apply_assumption))
    | (with_reducible apply log_keeps (hA := by first | with_reducible assumption | with_reducible apply_assumption))
    | (with_reducible apply plcAllDown_keeps (hA := by first | with_reducible assumption | with_reducible apply_assumption))
    | with_reducible apply keeps_ite
    | split
    | refine keeps_ite ?_ ?_
    | with_reducible exact keeps_pins (by assumption) (by assumption))

def touchExecCouplerPresent (A : Part → Prop) : Prop := A .pins ∧ A (.reg R.PLC_BEACON.MISSED) ∧ touchPlcState A
theorem touchExecCouplerPresent_all (h : ∀ q, A q) : touchExecCouplerPresent A := ⟨h _, h _, touchPlcState_all h⟩
theorem execCouplerPresent_next  (hA : touchExecCouplerPresent A) : ∃ u, execCouplerPresent s = .next u ∧ Keeps A s u := by
  unfold execCouplerPresent
  have h := Keeps.refl A s
  refine ⟨_, rfl, ?_⟩
  obtain ⟨_, _, _⟩ := hA
  repeat' (first
    | with_reducible assumption
    | intro y
    | (extract_lets +onlyGivenNames x; first | (refine cut (P := Keeps A s x) ?_ ?_; (on_goal 1 => (unfold x; clear x)); (on_goal 2 => (intro hx; first | clear_value x | skip))) | clear_value x | skip)
    | (with_reducible refine put_keepsAt (by assumption) ?_)
    | (with_reducible refine put_keeps (by assumption) ?_)
    | (with_reducible apply plcState_keeps (hA := by first | with_reducible assumption | with_reducible apply_assumption))
    | with_reducible apply keeps_ite
    | split
    | refine keeps_ite ?_ ?_
    | with_reducible exact keeps_pins (by assumption) (by assumption))

end Sys2Proof.Laws
end

