-- ==== Sys2Proof/Laws/KeepsBootOps.lean ====
section
/-! SUPPORT. What the operations of Machine/BootOps.lean leave alone: for each the parts it may change (`touch…`) and its lemma. -/

namespace Sys2Proof.Laws

open Sys2Proof.Machine

set_option linter.unusedTactic false
set_option linter.unreachableTactic false
set_option linter.unusedVariables false
set_option linter.tactic.unusedName false

variable {A : Part → Prop} {s t : State}

def touchSafCopy (A : Part → Prop) : Prop := A (.reg R.SAF_CONN.LS_NEG) ∧ A (.reg R.SAF_CONN.LS_POS) ∧ A (.reg R.SAF_CONN.I_OPEN) ∧ A (.reg R.SAF_CONN.PT)
theorem touchSafCopy_all (h : ∀ q, A q) : touchSafCopy A := ⟨h _, h _, h _, h _⟩
theorem safCopy_keeps  (hA : touchSafCopy A)  (h : Keeps A s t) : Keeps A s (State.safCopy t) := by
  unfold State.safCopy
  obtain ⟨_, _, _, _⟩ := hA
  repeat' (first
    | with_reducible assumption
    | intro y
    | (extract_lets +onlyGivenNames x; first | (refine cut (P := Keeps A s x) ?_ ?_; (on_goal 1 => (unfold x; clear x)); (on_goal 2 => (intro hx; first | clear_value x | skip))) | clear_value x | skip)
    | with_reducible apply each_keeps
    | (with_reducible refine put_keepsAt (by assumption) ?_)
    | (with_reducible refine put_keeps (by assumption) ?_)
    | with_reducible apply keeps_ite
    | split
    | refine keeps_ite ?_ ?_)

def touchFreeze (A : Part → Prop) : Prop := A .pins ∧ A .boot ∧ A (.reg R.SAF_FRZ.SO) ∧ A (.reg R.SAF_FRZ.CONN) ∧ A (.reg R.SAF_FRZ.HOLD) ∧ A (.reg R.SYS_READY.FRZ_PEND) ∧ A (.reg R.SAF_STAT.FRZ) ∧ A (.reg R.SAF_FRZ.KIND) ∧ touchLog A ∧ touchLswPins A
theorem touchFreeze_all (h : ∀ q, A q) : touchFreeze A := ⟨h _, h _, h _, h _, h _, h _, h _, h _, touchLog_all h, touchLswPins_all h⟩
theorem freeze_keeps {kind : ℕ} (hA : touchFreeze A)  (h : Keeps A s t) : Keeps A s (State.freeze t kind) := by
  unfold State.freeze
  obtain ⟨_, _, _, _, _, _, _, _, _, _⟩ := hA
  repeat' (first
    | with_reducible assumption
    | intro y
    | (extract_lets +onlyGivenNames x; first | (refine cut (P := Keeps A s x) ?_ ?_; (on_goal 1 => (unfold x; clear x)); (on_goal 2 => (intro hx; first | clear_value x | skip))) | clear_value x | skip)
    | (with_reducible refine put_keepsAt (by assumption) ?_)
    | (with_reducible refine put_keeps (by assumption) ?_)
    | (with_reducible apply log_keeps (hA := by first | with_reducible assumption | with_reducible apply_assumption))
    | (with_reducible apply lswPins_keeps (hA := by first | with_reducible assumption | with_reducible apply_assumption))
    | with_reducible apply keeps_ite
    | split
    | refine keeps_ite ?_ ?_
    | with_reducible exact keeps_pins_boot (by assumption) (by assumption) (by assumption))

def touchThaw (A : Part → Prop) : Prop := A (.reg R.SYS_READY.FRZ_PEND) ∧ A (.reg R.SAF_STAT.FRZ) ∧ (∀ x0, touchLswState A x0) ∧ A (.reg R.LSW_CH_CTRL.ON) ∧ (∀ x0, touchLswResume A x0) ∧ touchSetSeq A ∧ A .saf ∧ touchLog A ∧ A (.reg R.SAF_THAW.SWOFF) ∧ A (.reg R.SAF_THAW.HANDED)
theorem touchThaw_all (h : ∀ q, A q) : touchThaw A := ⟨h _, h _, (fun _ => touchLswState_all h), h _, (fun _ => touchLswResume_all h), touchSetSeq_all h, h _, touchLog_all h, h _, h _⟩
theorem thaw_keeps  (hA : touchThaw A)  (h : Keeps A s t) : Keeps A s (State.thaw t) := by
  unfold State.thaw
  obtain ⟨_, _, _, _, _, _, _, _, _, _⟩ := hA
  repeat' (first
    | with_reducible assumption
    | intro y
    | (extract_lets +onlyGivenNames x; first | (refine cut (P := Keeps A s x) ?_ ?_; (on_goal 1 => (unfold x; clear x)); (on_goal 2 => (intro hx; first | clear_value x | skip))) | clear_value x | skip)
    | (with_reducible refine put_keepsAt (by assumption) ?_)
    | (with_reducible refine put_keeps (by assumption) ?_)
    | (with_reducible apply lswState_keeps (hA := by first | with_reducible assumption | with_reducible apply_assumption))
    | (with_reducible apply lswResume_keeps (hA := by first | with_reducible assumption | with_reducible apply_assumption))
    | (with_reducible apply setSeq_keeps (hA := by first | with_reducible assumption | with_reducible apply_assumption))
    | (with_reducible apply log_keeps (hA := by first | with_reducible assumption | with_reducible apply_assumption))
    | with_reducible apply when_keeps
    | with_reducible apply each_keeps
    | with_reducible apply keeps_ite
    | with_reducible apply keeps_foldl
    | split
    | refine keeps_ite ?_ ?_
    | with_reducible exact keeps_saf (by assumption) (by assumption))

def touchFwTake (A : Part → Prop) (u0 : Nat) : Prop := A .updN ∧ A (.reg R.UPD_FW_CTRL.ACT) ∧ A (.inst R.UPD_FW_NUM.VERSION u0 0) ∧ A (.inst R.UPD_FW_VER.FW_LEVEL u0 0) ∧ A (.inst R.UPD_FW_VER.SECVER u0 0)
theorem touchFwTake_all (h : ∀ q, A q) {u0 : Nat} : touchFwTake A u0 := ⟨h _, h _, h _, h _, h _⟩
theorem fwTake_keeps {u0 : ℕ} {b : ℕ} (hA : touchFwTake A u0)  (h : Keeps A s t) : Keeps A s (State.fwTake t u0 b) := by
  unfold State.fwTake
  obtain ⟨_, _, _, _, _⟩ := hA
  repeat' (first
    | with_reducible assumption
    | intro y
    | (extract_lets +onlyGivenNames x; first | (refine cut (P := Keeps A s x) ?_ ?_; (on_goal 1 => (unfold x; clear x)); (on_goal 2 => (intro hx; first | clear_value x | skip))) | clear_value x | skip)
    | (with_reducible refine put_keepsAt (by assumption) ?_)
    | (with_reducible refine put_keeps (by assumption) ?_)
    | with_reducible apply keeps_ite
    | split
    | refine keeps_ite ?_ ?_
    | with_reducible exact keeps_updN (by assumption) (by assumption))

def touchFwLoad (A : Part → Prop) (u0 : Nat) : Prop := A .boot ∧ touchFwTake A u0 ∧ touchLog A
theorem touchFwLoad_all (h : ∀ q, A q) {u0 : Nat} : touchFwLoad A u0 := ⟨h _, touchFwTake_all h, touchLog_all h⟩
theorem fwLoad_keeps {bad : ℕ} {u0 : ℕ} (hA : touchFwLoad A u0)  (h : Keeps A s t) : Keeps A s (State.fwLoad t bad u0) := by
  unfold State.fwLoad
  obtain ⟨_, _, _⟩ := hA
  repeat' (first
    | with_reducible assumption
    | intro y
    | (extract_lets +onlyGivenNames x; first | (refine cut (P := Keeps A s x) ?_ ?_; (on_goal 1 => (unfold x; clear x)); (on_goal 2 => (intro hx; first | clear_value x | skip))) | (refine cut (P := ∀ y, Keeps A s y → Keeps A s (x y)) ?_ ?_; (on_goal 1 => (unfold x; clear x)); (on_goal 2 => (intro hf; first | clear_value x | skip))) | (refine cut (P := ∀ y, Keeps A s (x y)) ?_ ?_; (on_goal 1 => (unfold x; clear x)); (on_goal 2 => (intro hf; first | clear_value x | skip))) | (refine cut (P := ∀ y z, Keeps A s y → Keeps A s (x y z)) ?_ ?_; (on_goal 1 => (unfold x; clear x)); (on_goal 2 => (intro hf; first | clear_value x | skip))) | (refine cut (P := ∀ y z, Keeps A s z → Keeps A s (x y z)) ?_ ?_; (on_goal 1 => (unfold x; clear x)); (on_goal 2 => (intro hf; first | clear_value x | skip))) | (refine cut (P := ∀ y z w, Keeps A s y → Keeps A s (x y z w)) ?_ ?_; (on_goal 1 => (unfold x; clear x)); (on_goal 2 => (intro hf; first | clear_value x | skip))) | (refine cut (P := ∀ (d : Nat) (g : State → State) (y : State), (∀ z, Keeps A s z → Keeps A s (g z)) → Keeps A s y → Keeps A s (x d g y)) ?_ ?_; (on_goal 1 => (unfold x; clear x)); (on_goal 2 => (intro hf; first | clear_value x | skip))) | clear_value x | skip)
    | (with_reducible apply fwTake_keeps (hA := by first | with_reducible assumption | with_reducible apply_assumption))
    | (with_reducible apply log_keeps (hA := by first | with_reducible assumption | with_reducible apply_assumption))
    | with_reducible apply keeps_ite
    | with_reducible apply hf
    | split
    | refine keeps_ite ?_ ?_
    | with_reducible exact keeps_boot (by assumption) (by assumption))

def touchHoldupOk (A : Part → Prop) : Prop := A (.reg R.PWR_HOLDUP.HOLDUP_OK) ∧ touchStopPhases A
theorem touchHoldupOk_all (h : ∀ q, A q) : touchHoldupOk A := ⟨h _, touchStopPhases_all h⟩
theorem holdupOk_keeps {ok : Bool} (hA : touchHoldupOk A)  (h : Keeps A s t) : Keeps A s (State.holdupOk t ok) := by
  unfold State.holdupOk
  obtain ⟨_, _⟩ := hA
  repeat' (first
    | with_reducible assumption
    | intro y
    | (extract_lets +onlyGivenNames x; first | (refine cut (P := Keeps A s x) ?_ ?_; (on_goal 1 => (unfold x; clear x)); (on_goal 2 => (intro hx; first | clear_value x | skip))) | clear_value x | skip)
    | (with_reducible refine putb_keepsAt (by assumption) ?_)
    | (with_reducible refine putb_keeps (by assumption) ?_)
    | (with_reducible apply stopPhases_keeps (hA := by first | with_reducible assumption | with_reducible apply_assumption))
    | with_reducible apply keeps_ite
    | split
    | refine keeps_ite ?_ ?_)

def touchHoldupShow (A : Part → Prop) : Prop := touchHoldupOk A
theorem touchHoldupShow_all (h : ∀ q, A q) : touchHoldupShow A := touchHoldupOk_all h
theorem holdupShow_keeps  (hA : touchHoldupShow A)  (h : Keeps A s t) : Keeps A s (State.holdupShow t) := by
  unfold State.holdupShow
  unfold touchHoldupShow at hA
  repeat' (first
    | with_reducible assumption
    | intro y
    | (extract_lets +onlyGivenNames x; first | (refine cut (P := Keeps A s x) ?_ ?_; (on_goal 1 => (unfold x; clear x)); (on_goal 2 => (intro hx; first | clear_value x | skip))) | clear_value x | skip)
    | (with_reducible apply holdupOk_keeps (hA := by first | with_reducible assumption | with_reducible apply_assumption))
    | with_reducible apply keeps_ite
    | split
    | refine keeps_ite ?_ ?_)

def touchEntryRaw (A : Part → Prop) : Prop := A .regs
theorem touchEntryRaw_all (h : ∀ q, A q) : touchEntryRaw A := h _
theorem entryRaw_keeps {x0 : Sys2Proof.Machine.Entry} (hA : touchEntryRaw A)  (h : Keeps A s t) : Keeps A s (State.entryRaw t x0) := by
  unfold State.entryRaw
  unfold touchEntryRaw at hA
  repeat' (first
    | with_reducible assumption
    | intro y
    | (extract_lets +onlyGivenNames x; first | (refine cut (P := Keeps A s x) ?_ ?_; (on_goal 1 => (unfold x; clear x)); (on_goal 2 => (intro hx; first | clear_value x | skip))) | clear_value x | skip)
    | (with_reducible refine keeps_setWord (by first | assumption | exact hA _) ?_)
    | with_reducible apply keeps_ite
    | split
    | refine keeps_ite ?_ ?_)

def touchImagePoints (A : Part → Prop) : Prop := A .ff
theorem touchImagePoints_all (h : ∀ q, A q) : touchImagePoints A := h _
theorem imagePoints_keeps {l : List Sys2Proof.Machine.Entry} (hA : touchImagePoints A)  (h : Keeps A s t) : Keeps A s (State.imagePoints t l) := by
  unfold State.imagePoints
  unfold touchImagePoints at hA
  repeat' (first
    | with_reducible assumption
    | intro y
    | (extract_lets +onlyGivenNames x; first | (refine cut (P := Keeps A s x) ?_ ?_; (on_goal 1 => (unfold x; clear x)); (on_goal 2 => (intro hx; first | clear_value x | skip))) | clear_value x | skip)
    | with_reducible apply keeps_ite
    | with_reducible apply keeps_foldl
    | with_reducible apply keeps_foldl2
    | with_reducible apply keeps_foldl3
    | split
    | refine keeps_ite ?_ ?_
    | with_reducible exact keeps_ff (by assumption) (by assumption))

def touchImageRoster (A : Part → Prop) : Prop := A .roster ∧ A (.reg R.SL_FLOOR_SUM.FLOOR_SUM) ∧ A (.reg R.SL_ROOT_CNT.ROSTER_N)
theorem touchImageRoster_all (h : ∀ q, A q) : touchImageRoster A := ⟨h _, h _, h _⟩
theorem imageRoster_keeps {l : List Sys2Proof.Machine.Entry} (hA : touchImageRoster A)  (h : Keeps A s t) : Keeps A s (State.imageRoster t l) := by
  unfold State.imageRoster
  obtain ⟨_, _, _⟩ := hA
  repeat' (first
    | with_reducible assumption
    | intro y
    | (extract_lets +onlyGivenNames x; first | (refine cut (P := Keeps A s x) ?_ ?_; (on_goal 1 => (unfold x; clear x)); (on_goal 2 => (intro hx; first | clear_value x | skip))) | clear_value x | skip)
    | (with_reducible refine putMax_keepsAt (by assumption) ?_)
    | (with_reducible refine putMax_keeps (by assumption) ?_)
    | (with_reducible refine put_keepsAt (by assumption) ?_)
    | (with_reducible refine put_keeps (by assumption) ?_)
    | with_reducible apply keeps_ite
    | with_reducible apply keeps_foldl
    | split
    | refine keeps_ite ?_ ?_
    | with_reducible exact keeps_roster (by assumption) (by assumption))

def touchSiteDigest (A : Part → Prop) : Prop := A .updN
theorem touchSiteDigest_all (h : ∀ q, A q) : touchSiteDigest A := h _
theorem siteDigest_keeps {dig : ℕ} (hA : touchSiteDigest A)  (h : Keeps A s t) : Keeps A s (State.siteDigest t dig) := by
  unfold State.siteDigest
  unfold touchSiteDigest at hA
  repeat' (first
    | with_reducible assumption
    | intro y
    | (extract_lets +onlyGivenNames x; first | (refine cut (P := Keeps A s x) ?_ ?_; (on_goal 1 => (unfold x; clear x)); (on_goal 2 => (intro hx; first | clear_value x | skip))) | clear_value x | skip)
    | with_reducible apply keeps_ite
    | split
    | refine keeps_ite ?_ ?_
    | with_reducible exact keeps_updN (by assumption) (by assumption))

def touchSiteTake (A : Part → Prop) : Prop := touchSiteDigest A
theorem touchSiteTake_all (h : ∀ q, A q) : touchSiteTake A := touchSiteDigest_all h
theorem siteTake_keeps {e : Sys2Proof.Machine.Sect} (hA : touchSiteTake A)  (h : Keeps A s t) : Keeps A s (State.siteTake t e) := by
  unfold State.siteTake
  unfold touchSiteTake at hA
  repeat' (first
    | with_reducible assumption
    | intro y
    | (extract_lets +onlyGivenNames x; first | (refine cut (P := Keeps A s x) ?_ ?_; (on_goal 1 => (unfold x; clear x)); (on_goal 2 => (intro hx; first | clear_value x | skip))) | clear_value x | skip)
    | (with_reducible apply siteDigest_keeps (hA := by first | with_reducible assumption | with_reducible apply_assumption))
    | with_reducible apply keeps_ite
    | split
    | refine keeps_ite ?_ ?_)

def touchSectWrite (A : Part → Prop) : Prop := touchEntryRaw A ∧ touchImagePoints A ∧ touchSiteTake A ∧ touchImageRoster A ∧ touchFloorShow A
theorem touchSectWrite_all (h : ∀ q, A q) : touchSectWrite A := ⟨touchEntryRaw_all h, touchImagePoints_all h, touchSiteTake_all h, touchImageRoster_all h, touchFloorShow_all h⟩
theorem sectWrite_keeps {e : Sys2Proof.Machine.Sect} (hA : touchSectWrite A)  (h : Keeps A s t) : Keeps A s (State.sectWrite t e) := by
  unfold State.sectWrite
  obtain ⟨_, _, _, _, _⟩ := hA
  repeat' (first
    | with_reducible assumption
    | intro y
    | (extract_lets +onlyGivenNames x; first | (refine cut (P := Keeps A s x) ?_ ?_; (on_goal 1 => (unfold x; clear x)); (on_goal 2 => (intro hx; first | clear_value x | skip))) | clear_value x | skip)
    | (with_reducible apply entryRaw_keeps (hA := by first | with_reducible assumption | with_reducible apply_assumption))
    | (with_reducible apply imagePoints_keeps (hA := by first | with_reducible assumption | with_reducible apply_assumption))
    | (with_reducible apply siteTake_keeps (hA := by first | with_reducible assumption | with_reducible apply_assumption))
    | (with_reducible apply imageRoster_keeps (hA := by first | with_reducible assumption | with_reducible apply_assumption))
    | (with_reducible apply floorShow_keeps (hA := by first | with_reducible assumption | with_reducible apply_assumption))
    | with_reducible apply keeps_ite
    | with_reducible apply keeps_foldl
    | split
    | refine keeps_ite ?_ ?_)

def touchSectLoad (A : Part → Prop) : Prop := A .boot ∧ touchSectWrite A ∧ A (.reg R.SYS_BOOT_STAT.SECT_FAIL) ∧ touchLog A
theorem touchSectLoad_all (h : ∀ q, A q) : touchSectLoad A := ⟨h _, touchSectWrite_all h, h _, touchLog_all h⟩
theorem sectLoad_keeps {bad : List ℕ} {e : Sys2Proof.Machine.Sect} (hA : touchSectLoad A)  (h : Keeps A s t) : Keeps A s (State.sectLoad bad t e) := by
  unfold State.sectLoad
  obtain ⟨_, _, _, _⟩ := hA
  repeat' (first
    | with_reducible assumption
    | intro y
    | (extract_lets +onlyGivenNames x; first | (refine cut (P := Keeps A s x) ?_ ?_; (on_goal 1 => (unfold x; clear x)); (on_goal 2 => (intro hx; first | clear_value x | skip))) | clear_value x | skip)
    | (with_reducible apply sectWrite_keeps (hA := by first | with_reducible assumption | with_reducible apply_assumption))
    | (with_reducible refine put_keepsAt (by assumption) ?_)
    | (with_reducible refine put_keeps (by assumption) ?_)
    | (with_reducible apply log_keeps (hA := by first | with_reducible assumption | with_reducible apply_assumption))
    | with_reducible apply keeps_ite
    | split
    | refine keeps_ite ?_ ?_
    | with_reducible exact keeps_boot (by assumption) (by assumption))

def touchClassReset (A : Part → Prop) : Prop := A .ff ∧ A .roster ∧ A .updN ∧ A .regs
theorem touchClassReset_all (h : ∀ q, A q) : touchClassReset A := ⟨h _, h _, h _, h _⟩
theorem classReset_keeps  (hA : touchClassReset A)  (h : Keeps A s t) : Keeps A s (State.classReset t) := by
  unfold State.classReset
  obtain ⟨_, _, _, _⟩ := hA
  repeat' (first
    | with_reducible assumption
    | intro y
    | (extract_lets +onlyGivenNames x; first | (refine cut (P := Keeps A s x) ?_ ?_; (on_goal 1 => (unfold x; clear x)); (on_goal 2 => (intro hx; first | clear_value x | skip))) | clear_value x | skip)
    | (with_reducible refine put_keepsAny (by assumption) ?_)
    | (with_reducible refine keeps_setWord (by assumption) ?_)
    | with_reducible apply keeps_ite
    | with_reducible apply keeps_foldl
    | split
    | refine keeps_ite ?_ ?_
    | with_reducible exact keeps_ff_roster_updN (by assumption) (by assumption) (by assumption) (by assumption))

def touchRoleTake (A : Part → Prop) : Prop := touchFloorShow A ∧ A (.reg R.SYS_ROLE.ROLE_ACT) ∧ A (.reg R.SYS_ROLE.STORE_GRP) ∧ A (.reg R.SYS_ROLE.DISP_CONN) ∧ A (.reg R.SYS_ROLE.OPT) ∧ A (.reg R.SYS_ROLE.ROLE_CFG) ∧ touchLog A
theorem touchRoleTake_all (h : ∀ q, A q) : touchRoleTake A := ⟨touchFloorShow_all h, h _, h _, h _, h _, h _, touchLog_all h⟩
theorem roleTake_keeps {good : Bool} {noted : Bool} (hA : touchRoleTake A)  (h : Keeps A s t) : Keeps A s (State.roleTake t good noted) := by
  unfold State.roleTake
  obtain ⟨_, _, _, _, _, _, _⟩ := hA
  repeat' (first
    | with_reducible assumption
    | intro y
    | (extract_lets +onlyGivenNames x; first | (refine cut (P := Keeps A s x) ?_ ?_; (on_goal 1 => (unfold x; clear x)); (on_goal 2 => (intro hx; first | clear_value x | skip))) | clear_value x | skip)
    | (with_reducible refine put_keepsAt (by assumption) ?_)
    | (with_reducible refine put_keeps (by assumption) ?_)
    | (with_reducible apply floorShow_keeps (hA := by first | with_reducible assumption | with_reducible apply_assumption))
    | (with_reducible apply log_keeps (hA := by first | with_reducible assumption | with_reducible apply_assumption))
    | with_reducible apply keeps_ite
    | split
    | refine keeps_ite ?_ ?_)

def touchImageAll (A : Part → Prop) : Prop := A .boot ∧ A .updN ∧ A (.reg R.UPD_STAT.MIXED) ∧ A (.reg R.SYS_BOOT_STAT.NO_IMAGE) ∧ A (.reg R.SYS_BOOT_STAT.SECT_FAIL) ∧ touchClassReset A ∧ touchRoleTake A ∧ touchLog A ∧ A (.reg R.UPD_STAT.UNSIGNED) ∧ A (.reg R.SYS_BOOT_STAT.BANK) ∧ touchSectLoad A
theorem touchImageAll_all (h : ∀ q, A q) : touchImageAll A := ⟨h _, h _, h _, h _, h _, touchClassReset_all h, touchRoleTake_all h, touchLog_all h, h _, h _, touchSectLoad_all h⟩
theorem imageAll_keeps {bad : List ℕ} (hA : touchImageAll A)  (h : Keeps A s t) : Keeps A s (State.imageAll t bad) := by
  unfold State.imageAll
  obtain ⟨_, _, _, _, _, _, _, _, _, _, _⟩ := hA
  repeat' (first
    | with_reducible assumption
    | intro y
    | (extract_lets +onlyGivenNames x; first | (refine cut (P := Keeps A s x) ?_ ?_; (on_goal 1 => (unfold x; clear x)); (on_goal 2 => (intro hx; first | clear_value x | skip))) | clear_value x | skip)
    | (with_reducible refine put_keepsAt (by assumption) ?_)
    | (with_reducible refine put_keeps (by assumption) ?_)
    | (with_reducible apply classReset_keeps (hA := by first | with_reducible assumption | with_reducible apply_assumption))
    | (with_reducible apply roleTake_keeps (hA := by first | with_reducible assumption | with_reducible apply_assumption))
    | (with_reducible apply log_keeps (hA := by first | with_reducible assumption | with_reducible apply_assumption))
    | (with_reducible apply sectLoad_keeps (hA := by first | with_reducible assumption | with_reducible apply_assumption))
    | with_reducible apply keeps_ite
    | with_reducible apply keeps_foldl
    | split
    | refine keeps_ite ?_ ?_
    | with_reducible exact keeps_boot_updN (by assumption) (by assumption) (by assumption))

def touchImageLoad (A : Part → Prop) : Prop := touchHoldupShow A ∧ touchImageAll A ∧ A .boot ∧ A .regs
theorem touchImageLoad_all (h : ∀ q, A q) : touchImageLoad A := ⟨touchHoldupShow_all h, touchImageAll_all h, h _, h _⟩
theorem imageLoad_keeps {bad : List ℕ} (hA : touchImageLoad A)  (h : Keeps A s t) : Keeps A s (State.imageLoad t bad) := by
  unfold State.imageLoad
  obtain ⟨_, _, _, _⟩ := hA
  repeat' (first
    | with_reducible assumption
    | intro y
    | (extract_lets +onlyGivenNames x; first | (refine cut (P := Keeps A s x) ?_ ?_; (on_goal 1 => (unfold x; clear x)); (on_goal 2 => (intro hx; first | clear_value x | skip))) | clear_value x | skip)
    | (with_reducible refine put_keepsAny (by assumption) ?_)
    | (with_reducible refine keeps_setWord (by assumption) ?_)
    | (with_reducible apply holdupShow_keeps (hA := by first | with_reducible assumption | with_reducible apply_assumption))
    | (with_reducible apply imageAll_keeps (hA := by first | with_reducible assumption | with_reducible apply_assumption))
    | with_reducible apply keeps_ite
    | with_reducible apply keeps_foldl
    | split
    | refine keeps_ite ?_ ?_
    | with_reducible exact keeps_boot (by assumption) (by assumption))

def touchResetD3 (A : Part → Prop) : Prop := A .capt ∧ A .needs ∧ A .saf ∧ A .sl ∧ A .mg ∧ A .upd ∧ touchStageFree A ∧ touchSessCloseAll A ∧ touchTmxClear A ∧ touchLeasesLapse A
theorem touchResetD3_all (h : ∀ q, A q) : touchResetD3 A := ⟨h _, h _, h _, h _, h _, h _, touchStageFree_all h, touchSessCloseAll_all h, touchTmxClear_all h, touchLeasesLapse_all h⟩
theorem resetD3_keeps  (hA : touchResetD3 A)  (h : Keeps A s t) : Keeps A s (State.resetD3 t) := by
  unfold State.resetD3
  obtain ⟨_, _, _, _, _, _, _, _, _, _⟩ := hA
  repeat' (first
    | with_reducible assumption
    | intro y
    | (extract_lets +onlyGivenNames x; first | (refine cut (P := Keeps A s x) ?_ ?_; (on_goal 1 => (unfold x; clear x)); (on_goal 2 => (intro hx; first | clear_value x | skip))) | clear_value x | skip)
    | (with_reducible apply stageFree_keeps (hA := by first | with_reducible assumption | with_reducible apply_assumption))
    | (with_reducible apply sessCloseAll_keeps (hA := by first | with_reducible assumption | with_reducible apply_assumption))
    | (with_reducible apply tmxClear_keeps (hA := by first | with_reducible assumption | with_reducible apply_assumption))
    | (with_reducible apply leasesLapse_keeps (hA := by first | with_reducible assumption | with_reducible apply_assumption))
    | with_reducible apply keeps_ite
    | split
    | refine keeps_ite ?_ ?_
    | with_reducible exact keeps_capt_needs_saf_sl_mg_upd (by assumption) (by assumption) (by assumption) (by assumption) (by assumption) (by assumption) (by assumption))

def touchResetPhases (A : Part → Prop) : Prop := A .phx ∧ A .grpx
theorem touchResetPhases_all (h : ∀ q, A q) : touchResetPhases A := ⟨h _, h _⟩
theorem resetPhases_keeps {doms : ℕ} (hA : touchResetPhases A)  (h : Keeps A s t) : Keeps A s (State.resetPhases t doms) := by
  unfold State.resetPhases
  obtain ⟨_, _⟩ := hA
  repeat' (first
    | with_reducible assumption
    | intro y
    | (extract_lets +onlyGivenNames x; first | (refine cut (P := Keeps A s x) ?_ ?_; (on_goal 1 => (unfold x; clear x)); (on_goal 2 => (intro hx; first | clear_value x | skip))) | clear_value x | skip)
    | with_reducible apply keeps_ite
    | split
    | refine keeps_ite ?_ ?_
    | with_reducible exact keeps_phx_grpx (by assumption) (by assumption) (by assumption))

def touchResetD7 (A : Part → Prop) : Prop := (∀ x0, touchAuxLeave A x0) ∧ (∀ x0, touchInjEnd A x0) ∧ A .le
theorem touchResetD7_all (h : ∀ q, A q) : touchResetD7 A := ⟨(fun _ => touchAuxLeave_all h), (fun _ => touchInjEnd_all h), h _⟩
theorem resetD7_keeps  (hA : touchResetD7 A)  (h : Keeps A s t) : Keeps A s (State.resetD7 t) := by
  unfold State.resetD7
  obtain ⟨_, _, _⟩ := hA
  repeat' (first
    | with_reducible assumption
    | intro y
    | (extract_lets +onlyGivenNames x; first | (refine cut (P := Keeps A s x) ?_ ?_; (on_goal 1 => (unfold x; clear x)); (on_goal 2 => (intro hx; first | clear_value x | skip))) | clear_value x | skip)
    | (with_reducible apply auxLeave_keeps (hA := by first | with_reducible assumption | with_reducible apply_assumption))
    | (with_reducible apply injEnd_keeps (hA := by first | with_reducible assumption | with_reducible apply_assumption))
    | with_reducible apply each_keeps
    | with_reducible apply keeps_ite
    | split
    | refine keeps_ite ?_ ?_
    | with_reducible exact keeps_le (by assumption) (by assumption))

def touchResetD9 (A : Part → Prop) : Prop := A .conns ∧ A .plc ∧ A .cs ∧ A .can ∧ touchSessCloseAll A
theorem touchResetD9_all (h : ∀ q, A q) : touchResetD9 A := ⟨h _, h _, h _, h _, touchSessCloseAll_all h⟩
theorem resetD9_keeps  (hA : touchResetD9 A)  (h : Keeps A s t) : Keeps A s (State.resetD9 t) := by
  unfold State.resetD9
  obtain ⟨_, _, _, _, _⟩ := hA
  repeat' (first
    | with_reducible assumption
    | intro y
    | (extract_lets +onlyGivenNames x; first | (refine cut (P := Keeps A s x) ?_ ?_; (on_goal 1 => (unfold x; clear x)); (on_goal 2 => (intro hx; first | clear_value x | skip))) | clear_value x | skip)
    | (with_reducible apply sessCloseAll_keeps (hA := by first | with_reducible assumption | with_reducible apply_assumption))
    | with_reducible apply keeps_ite
    | split
    | refine keeps_ite ?_ ?_
    | with_reducible exact keeps_conns_plc_cs_can (by assumption) (by assumption) (by assumption) (by assumption) (by assumption))

def touchResetD10 (A : Part → Prop) : Prop := A .pins ∧ A .auxx ∧ A .th
theorem touchResetD10_all (h : ∀ q, A q) : touchResetD10 A := ⟨h _, h _, h _⟩
theorem resetD10_keeps  (hA : touchResetD10 A)  (h : Keeps A s t) : Keeps A s (State.resetD10 t) := by
  unfold State.resetD10
  obtain ⟨_, _, _⟩ := hA
  repeat' (first
    | with_reducible assumption
    | intro y
    | (extract_lets +onlyGivenNames x; first | (refine cut (P := Keeps A s x) ?_ ?_; (on_goal 1 => (unfold x; clear x)); (on_goal 2 => (intro hx; first | clear_value x | skip))) | clear_value x | skip)
    | with_reducible apply keeps_ite
    | split
    | refine keeps_ite ?_ ?_
    | with_reducible exact keeps_pins_auxx_th (by assumption) (by assumption) (by assumption) (by assumption))

def touchResetHidden (A : Part → Prop) : Prop := touchResetD3 A ∧ A .pins ∧ A .tb ∧ touchResetPhases A ∧ touchGroupsIdle A ∧ touchResetD7 A ∧ touchRootReset A ∧ A .fab ∧ touchResetD9 A ∧ touchResetD10 A ∧ touchKvClear A
theorem touchResetHidden_all (h : ∀ q, A q) : touchResetHidden A := ⟨touchResetD3_all h, h _, h _, touchResetPhases_all h, touchGroupsIdle_all h, touchResetD7_all h, touchRootReset_all h, h _, touchResetD9_all h, touchResetD10_all h, touchKvClear_all h⟩
theorem resetHidden_keeps {doms : ℕ} (hA : touchResetHidden A)  (h : Keeps A s t) : Keeps A s (State.resetHidden t doms) := by
  unfold State.resetHidden
  obtain ⟨_, _, _, _, _, _, _, _, _, _, _⟩ := hA
  repeat' (first
    | with_reducible assumption
    | intro y
    | (extract_lets +onlyGivenNames x; first | (refine cut (P := Keeps A s x) ?_ ?_; (on_goal 1 => (unfold x; clear x)); (on_goal 2 => (intro hx; first | clear_value x | skip))) | clear_value x | skip)
    | (with_reducible apply resetD3_keeps (hA := by first | with_reducible assumption | with_reducible apply_assumption))
    | (with_reducible apply resetPhases_keeps (hA := by first | with_reducible assumption | with_reducible apply_assumption))
    | (with_reducible apply groupsIdle_keeps (hA := by first | with_reducible assumption | with_reducible apply_assumption))
    | (with_reducible apply resetD7_keeps (hA := by first | with_reducible assumption | with_reducible apply_assumption))
    | (with_reducible apply rootReset_keeps (hA := by first | with_reducible assumption | with_reducible apply_assumption))
    | (with_reducible apply resetD9_keeps (hA := by first | with_reducible assumption | with_reducible apply_assumption))
    | (with_reducible apply resetD10_keeps (hA := by first | with_reducible assumption | with_reducible apply_assumption))
    | (with_reducible apply kvClear_keeps (hA := by first | with_reducible assumption | with_reducible apply_assumption))
    | with_reducible apply when_keeps
    | with_reducible apply keeps_ite
    | split
    | refine keeps_ite ?_ ?_
    | with_reducible exact keeps_pins_tb (by assumption) (by assumption) (by assumption)
    | with_reducible exact keeps_fab (by assumption) (by assumption))

def touchRecordReset (A : Part → Prop) : Prop := A (.reg R.SYS_RST_INFO.DOM_MASK) ∧ A (.reg R.SYS_RST_CAUSE.SEEN) ∧ A (.reg R.SYS_RST_CAUSE.LAST) ∧ A (.reg R.SYS_RST_INFO.BOR_SRC) ∧ A (.reg R.SYS_RST_CNT.COLD) ∧ A (.reg R.SYS_RST_CNT.WARM)
theorem touchRecordReset_all (h : ∀ q, A q) : touchRecordReset A := ⟨h _, h _, h _, h _, h _, h _⟩
theorem recordReset_keeps {kind : ℕ} {doms : ℕ} (hA : touchRecordReset A)  (h : Keeps A s t) : Keeps A s (State.recordReset t kind doms) := by
  unfold State.recordReset
  obtain ⟨_, _, _, _, _, _⟩ := hA
  repeat' (first
    | with_reducible assumption
    | intro y
    | (extract_lets +onlyGivenNames x; first | (refine cut (P := Keeps A s x) ?_ ?_; (on_goal 1 => (unfold x; clear x)); (on_goal 2 => (intro hx; first | clear_value x | skip))) | clear_value x | skip)
    | (with_reducible refine put_keepsAt (by assumption) ?_)
    | (with_reducible refine put_keeps (by assumption) ?_)
    | (with_reducible refine inc_keepsAt (by assumption) ?_)
    | (with_reducible refine inc_keeps (by assumption) ?_)
    | with_reducible apply keeps_ite
    | split
    | refine keeps_ite ?_ ?_)

def touchResetStart (A : Part → Prop) : Prop := A .boot ∧ touchStopPhases A ∧ touchFreeze A ∧ A (.reg R.PWR_STATE.STATE) ∧ A (.reg R.SYS_READY.RDY) ∧ A (.reg R.SYS_READY.PIN) ∧ A (.reg R.SYS_CAL_STAT.DONE) ∧ A (.reg R.SYS_BOOT_STAT.LATE) ∧ A (.reg R.SYS_BOOT_STAT.STEP) ∧ touchGden A ∧ A (.reg R.SYS_BOOT_TIME.T_IMAGE) ∧ A (.reg R.SYS_BOOT_TIME.T_READY)
theorem touchResetStart_all (h : ∀ q, A q) : touchResetStart A := ⟨h _, touchStopPhases_all h, touchFreeze_all h, h _, h _, h _, h _, h _, h _, touchGden_all h, h _, h _⟩
theorem resetStart_keeps {kind : ℕ} {doms : ℕ} (hA : touchResetStart A)  (h : Keeps A s t) : Keeps A s (State.resetStart t kind doms) := by
  unfold State.resetStart
  obtain ⟨_, _, _, _, _, _, _, _, _, _, _, _⟩ := hA
  repeat' (first
    | with_reducible assumption
    | intro y
    | (extract_lets +onlyGivenNames x; first | (refine cut (P := Keeps A s x) ?_ ?_; (on_goal 1 => (unfold x; clear x)); (on_goal 2 => (intro hx; first | clear_value x | skip))) | clear_value x | skip)
    | (with_reducible apply stopPhases_keeps (hA := by first | with_reducible assumption | with_reducible apply_assumption))
    | (with_reducible apply freeze_keeps (hA := by first | with_reducible assumption | with_reducible apply_assumption))
    | (with_reducible refine put_keepsAt (by assumption) ?_)
    | (with_reducible refine put_keeps (by assumption) ?_)
    | (with_reducible apply gden_keeps (hA := by first | with_reducible assumption | with_reducible apply_assumption))
    | with_reducible apply keeps_ite
    | split
    | refine keeps_ite ?_ ?_
    | with_reducible exact keeps_boot (by assumption) (by assumption))

def touchEnterReset (A : Part → Prop) : Prop := A .boot ∧ touchResetHidden A ∧ touchResetStart A ∧ touchRetain A ∧ touchRecordReset A ∧ A (.reg R.PWR_DOM_STAT.IN_RST) ∧ A (.reg R.UPD_STAT.MIXED)
theorem touchEnterReset_all (h : ∀ q, A q) : touchEnterReset A := ⟨h _, touchResetHidden_all h, touchResetStart_all h, touchRetain_all h, touchRecordReset_all h, h _, h _⟩
theorem enterReset_keeps {kind : ℕ} {doms : ℕ} (hA : touchEnterReset A)  (h : Keeps A s t) : Keeps A s (State.enterReset t kind doms) := by
  unfold State.enterReset
  obtain ⟨_, _, _, _, _, _, _⟩ := hA
  repeat' (first
    | with_reducible assumption
    | intro y
    | (extract_lets +onlyGivenNames x; first | (refine cut (P := Keeps A s x) ?_ ?_; (on_goal 1 => (unfold x; clear x)); (on_goal 2 => (intro hx; first | clear_value x | skip))) | clear_value x | skip)
    | (with_reducible apply resetHidden_keeps (hA := by first | with_reducible assumption | with_reducible apply_assumption))
    | (with_reducible apply resetStart_keeps (hA := by first | with_reducible assumption | with_reducible apply_assumption))
    | (with_reducible apply retain_keeps (hA := by first | with_reducible assumption | with_reducible apply_assumption))
    | (with_reducible apply recordReset_keeps (hA := by first | with_reducible assumption | with_reducible apply_assumption))
    | (with_reducible refine put_keepsAt (by assumption) ?_)
    | (with_reducible refine put_keeps (by assumption) ?_)
    | (with_reducible refine putb_keepsAt (by assumption) ?_)
    | (with_reducible refine putb_keeps (by assumption) ?_)
    | with_reducible apply keeps_ite
    | split
    | refine keeps_ite ?_ ?_
    | with_reducible exact keeps_boot (by assumption) (by assumption))

def touchResetCause (A : Part → Prop) : Prop := A (.reg R.SYS_RST_CAUSE.COINC) ∧ A (.reg R.SYS_RST_CAUSE.SEEN) ∧ A .boot
theorem touchResetCause_all (h : ∀ q, A q) : touchResetCause A := ⟨h _, h _, h _⟩
theorem resetCause_keeps {kind : ℕ} {doms : ℕ} (hA : touchResetCause A)  (h : Keeps A s t) : Keeps A s (State.resetCause t kind doms).2 := by
  unfold State.resetCause
  obtain ⟨_, _, _⟩ := hA
  repeat' (first
    | with_reducible assumption
    | intro y
    | (extract_lets +onlyGivenNames x; first | (refine cut (P := Keeps A s x) ?_ ?_; (on_goal 1 => (unfold x; clear x)); (on_goal 2 => (intro hx; first | clear_value x | skip))) | clear_value x | skip)
    | (with_reducible refine put_keepsAt (by assumption) ?_)
    | (with_reducible refine put_keeps (by assumption) ?_)
    | with_reducible apply keeps_ite
    | with_reducible apply keeps_ite2
    | with_reducible apply keeps_ite3
    | split
    | refine keeps_ite ?_ ?_
    | with_reducible exact keeps_boot (by assumption) (by assumption))

def touchDomainsUp (A : Part → Prop) : Prop := A (.reg R.PWR_DOM_STAT.ON) ∧ A (.reg R.PWR_DOM_STAT.IN_RST)
theorem touchDomainsUp_all (h : ∀ q, A q) : touchDomainsUp A := ⟨h _, h _⟩
theorem domainsUp_keeps {doms : ℕ} (hA : touchDomainsUp A)  (h : Keeps A s t) : Keeps A s (State.domainsUp t doms) := by
  unfold State.domainsUp
  obtain ⟨_, _⟩ := hA
  repeat' (first
    | with_reducible assumption
    | intro y
    | (with_reducible refine put_keepsAt (by assumption) ?_)
    | (with_reducible refine put_keeps (by assumption) ?_)
    | with_reducible apply keeps_ite
    | split)

def touchBlock (A : Part → Prop) : Prop := A (.reg R.SYS_READY.RDY) ∧ A .boot
theorem touchBlock_all (h : ∀ q, A q) : touchBlock A := ⟨h _, h _⟩
theorem block_keeps {evr : Bool} (hA : touchBlock A)  (h : Keeps A s t) : Keeps A s (State.block t evr) := by
  unfold State.block
  obtain ⟨_, _⟩ := hA
  repeat' (first
    | with_reducible assumption
    | intro y
    | (extract_lets +onlyGivenNames x; first | (refine cut (P := Keeps A s x) ?_ ?_; (on_goal 1 => (unfold x; clear x)); (on_goal 2 => (intro hx; first | clear_value x | skip))) | clear_value x | skip)
    | (with_reducible refine put_keepsAt (by assumption) ?_)
    | (with_reducible refine put_keeps (by assumption) ?_)
    | with_reducible apply keeps_ite
    | split
    | refine keeps_ite ?_ ?_
    | with_reducible exact keeps_boot (by assumption) (by assumption))

def touchPeCal (A : Part → Prop) : Prop := A (.reg R.PE_STAT.PEB_CAL) ∧ A (.reg R.PE_STAT.PEA_CAL)
theorem touchPeCal_all (h : ∀ q, A q) : touchPeCal A := ⟨h _, h _⟩
theorem peCal_keeps  (hA : touchPeCal A)  (h : Keeps A s t) : Keeps A s (State.peCal t) := by
  unfold State.peCal
  obtain ⟨_, _⟩ := hA
  repeat' (first
    | with_reducible assumption
    | intro y
    | (extract_lets +onlyGivenNames x; first | (refine cut (P := Keeps A s x) ?_ ?_; (on_goal 1 => (unfold x; clear x)); (on_goal 2 => (intro hx; first | clear_value x | skip))) | clear_value x | skip)
    | (with_reducible refine putb_keepsAt (by assumption) ?_)
    | (with_reducible refine putb_keeps (by assumption) ?_)
    | with_reducible apply keeps_ite
    | split
    | refine keeps_ite ?_ ?_)

def touchSelfTest (A : Part → Prop) : Prop := A .boot ∧ touchPeCal A ∧ A (.reg R.SYS_CAL_STAT.DONE) ∧ A (.reg R.SYS_CAL_STAT.FAIL) ∧ A (.reg R.SYS_BOOT_STAT.ECC_FAIL) ∧ A (.reg R.SYS_BOOT_STAT.CAL_FAIL) ∧ touchLog A
theorem touchSelfTest_all (h : ∀ q, A q) : touchSelfTest A := ⟨h _, touchPeCal_all h, h _, h _, h _, h _, touchLog_all h⟩
theorem selfTest_keeps {doms : ℕ} {o : Sys2Proof.BootObs} (hA : touchSelfTest A)  (h : Keeps A s t) : Keeps A s (State.selfTest t doms o) := by
  unfold State.selfTest
  obtain ⟨_, _, _, _, _, _, _⟩ := hA
  repeat' (first
    | with_reducible assumption
    | intro y
    | (extract_lets +onlyGivenNames x; first | (refine cut (P := Keeps A s x) ?_ ?_; (on_goal 1 => (unfold x; clear x)); (on_goal 2 => (intro hx; first | clear_value x | skip))) | clear_value x | skip)
    | (with_reducible refine put_keepsAt (by assumption) ?_)
    | (with_reducible refine put_keeps (by assumption) ?_)
    | (with_reducible refine putb_keepsAt (by assumption) ?_)
    | (with_reducible refine putb_keeps (by assumption) ?_)
    | (with_reducible apply peCal_keeps (hA := by first | with_reducible assumption | with_reducible apply_assumption))
    | (with_reducible apply log_keeps (hA := by first | with_reducible assumption | with_reducible apply_assumption))
    | with_reducible apply eachBit_keeps
    | with_reducible apply keeps_ite
    | split
    | refine keeps_ite ?_ ?_
    | with_reducible exact keeps_boot (by assumption) (by assumption))

def touchFwStep (A : Part → Prop) : Prop := (∀ x0, touchFwLoad A x0) ∧ (∀ x0, touchFwTake A x0) ∧ A .upd ∧ A (.reg R.MET_FW_DIG.DIG)
theorem touchFwStep_all (h : ∀ q, A q) : touchFwStep A := ⟨(fun _ => touchFwLoad_all h), (fun _ => touchFwTake_all h), h _, h _⟩
theorem fwStep_keeps {doms : ℕ} {o : Sys2Proof.BootObs} (hA : touchFwStep A)  (h : Keeps A s t) : Keeps A s (State.fwStep t doms o) := by
  unfold State.fwStep
  obtain ⟨_, _, _, _⟩ := hA
  repeat' (first
    | with_reducible assumption
    | intro y
    | (extract_lets +onlyGivenNames x; first | (refine cut (P := Keeps A s x) ?_ ?_; (on_goal 1 => (unfold x; clear x)); (on_goal 2 => (intro hx; first | clear_value x | skip))) | clear_value x | skip)
    | (with_reducible refine put_keepsAt (by assumption) ?_)
    | (with_reducible refine put_keeps (by assumption) ?_)
    | (with_reducible apply fwLoad_keeps (hA := by first | with_reducible assumption | with_reducible apply_assumption))
    | (with_reducible apply fwTake_keeps (hA := by first | with_reducible assumption | with_reducible apply_assumption))
    | with_reducible apply each_keeps
    | with_reducible apply keeps_ite
    | split
    | refine keeps_ite ?_ ?_
    | with_reducible exact keeps_upd (by assumption) (by assumption))

def touchStartD7 (A : Part → Prop) : Prop := touchLeStart A ∧ touchSetReady A
theorem touchStartD7_all (h : ∀ q, A q) : touchStartD7 A := ⟨touchLeStart_all h, touchSetReady_all h⟩
theorem startD7_keeps  (hA : touchStartD7 A)  (h : Keeps A s t) : Keeps A s (State.startD7 t) := by
  unfold State.startD7
  obtain ⟨_, _⟩ := hA
  repeat' (first
    | with_reducible assumption
    | intro y
    | (extract_lets +onlyGivenNames x; first | (refine cut (P := Keeps A s x) ?_ ?_; (on_goal 1 => (unfold x; clear x)); (on_goal 2 => (intro hx; first | clear_value x | skip))) | clear_value x | skip)
    | (with_reducible apply leStart_keeps (hA := by first | with_reducible assumption | with_reducible apply_assumption))
    | (with_reducible apply setReady_keeps (hA := by first | with_reducible assumption | with_reducible apply_assumption))
    | with_reducible apply keeps_ite
    | split
    | refine keeps_ite ?_ ?_)

def touchStartD9 (A : Part → Prop) : Prop := touchCanPort A 1 ∧ touchCanPort A 0 ∧ touchSetReady A ∧ touchPlcEnable A ∧ touchPlcState A ∧ touchBillEnd A ∧ (∀ x0, touchConnEnd A x0)
theorem touchStartD9_all (h : ∀ q, A q) : touchStartD9 A := ⟨touchCanPort_all h, touchCanPort_all h, touchSetReady_all h, touchPlcEnable_all h, touchPlcState_all h, touchBillEnd_all h, (fun _ => touchConnEnd_all h)⟩
theorem startD9_keeps  (hA : touchStartD9 A)  (h : Keeps A s t) : Keeps A s (State.startD9 t) := by
  unfold State.startD9
  obtain ⟨_, _, _, _, _, _, _⟩ := hA
  repeat' (first
    | with_reducible assumption
    | intro y
    | (extract_lets +onlyGivenNames x; first | (refine cut (P := Keeps A s x) ?_ ?_; (on_goal 1 => (unfold x; clear x)); (on_goal 2 => (intro hx; first | clear_value x | skip))) | clear_value x | skip)
    | (with_reducible apply canPort_keeps (hA := by first | with_reducible assumption | with_reducible apply_assumption))
    | (with_reducible apply setReady_keeps (hA := by first | with_reducible assumption | with_reducible apply_assumption))
    | (with_reducible apply plcEnable_keeps (hA := by first | with_reducible assumption | with_reducible apply_assumption))
    | (with_reducible apply plcState_keeps (hA := by first | with_reducible assumption | with_reducible apply_assumption))
    | (with_reducible apply billEnd_keeps (hA := by first | with_reducible assumption | with_reducible apply_assumption))
    | (with_reducible apply connEnd_keeps (hA := by first | with_reducible assumption | with_reducible apply_assumption))
    | with_reducible apply keeps_ite
    | with_reducible apply keeps_foldl
    | split
    | refine keeps_ite ?_ ?_)

def touchLswHeld (A : Part → Prop) : Prop := touchLswBanks A ∧ A (.reg R.LSW_CH_STAT.FRAC)
theorem touchLswHeld_all (h : ∀ q, A q) : touchLswHeld A := ⟨touchLswBanks_all h, h _⟩
theorem lswHeld_keeps  (hA : touchLswHeld A)  (h : Keeps A s t) : Keeps A s (State.lswHeld t) := by
  unfold State.lswHeld
  obtain ⟨_, _⟩ := hA
  repeat' (first
    | with_reducible assumption
    | intro y
    | (extract_lets +onlyGivenNames x; first | (refine cut (P := Keeps A s x) ?_ ?_; (on_goal 1 => (unfold x; clear x)); (on_goal 2 => (intro hx; first | clear_value x | skip))) | clear_value x | skip)
    | (with_reducible refine put_keepsAt (by assumption) ?_)
    | (with_reducible refine put_keeps (by assumption) ?_)
    | (with_reducible apply lswBanks_keeps (hA := by first | with_reducible assumption | with_reducible apply_assumption))
    | with_reducible apply each_keeps
    | with_reducible apply keeps_ite
    | split
    | refine keeps_ite ?_ ?_)

def touchStartD10 (A : Part → Prop) : Prop := touchThStart A ∧ touchLswOwners A ∧ touchLswHeld A ∧ (∀ x0, touchZoneEnable A x0) ∧ A (.reg R.TH_ZONE_CFG.EN) ∧ (∀ x0, touchAuxStart A x0) ∧ A .pins ∧ touchSetReady A
theorem touchStartD10_all (h : ∀ q, A q) : touchStartD10 A := ⟨touchThStart_all h, touchLswOwners_all h, touchLswHeld_all h, (fun _ => touchZoneEnable_all h), h _, (fun _ => touchAuxStart_all h), h _, touchSetReady_all h⟩
theorem startD10_keeps  (hA : touchStartD10 A)  (h : Keeps A s t) : Keeps A s (State.startD10 t) := by
  unfold State.startD10
  obtain ⟨_, _, _, _, _, _, _, _⟩ := hA
  repeat' (first
    | with_reducible assumption
    | intro y
    | (extract_lets +onlyGivenNames x; first | (refine cut (P := Keeps A s x) ?_ ?_; (on_goal 1 => (unfold x; clear x)); (on_goal 2 => (intro hx; first | clear_value x | skip))) | clear_value x | skip)
    | (with_reducible refine put_keepsAt (by assumption) ?_)
    | (with_reducible refine put_keeps (by assumption) ?_)
    | (with_reducible apply thStart_keeps (hA := by first | with_reducible assumption | with_reducible apply_assumption))
    | (with_reducible apply lswOwners_keeps (hA := by first | with_reducible assumption | with_reducible apply_assumption))
    | (with_reducible apply lswHeld_keeps (hA := by first | with_reducible assumption | with_reducible apply_assumption))
    | (with_reducible apply zoneEnable_keeps (hA := by first | with_reducible assumption | with_reducible apply_assumption))
    | (with_reducible apply auxStart_keeps (hA := by first | with_reducible assumption | with_reducible apply_assumption))
    | (with_reducible apply setReady_keeps (hA := by first | with_reducible assumption | with_reducible apply_assumption))
    | with_reducible apply each_keeps
    | with_reducible apply keeps_ite
    | split
    | refine keeps_ite ?_ ?_
    | with_reducible exact keeps_pins (by assumption) (by assumption))

def touchTsrcShow (A : Part → Prop) : Prop := A .mg ∧ A (.reg R.SYS_TIME_STAT.TSTATE)
theorem touchTsrcShow_all (h : ∀ q, A q) : touchTsrcShow A := ⟨h _, h _⟩
theorem tsrcShow_keeps  (hA : touchTsrcShow A)  (h : Keeps A s t) : Keeps A s (State.tsrcShow t) := by
  unfold State.tsrcShow
  obtain ⟨_, _⟩ := hA
  repeat' (first
    | with_reducible assumption
    | intro y
    | (extract_lets +onlyGivenNames x; first | (refine cut (P := Keeps A s x) ?_ ?_; (on_goal 1 => (unfold x; clear x)); (on_goal 2 => (intro hx; first | clear_value x | skip))) | clear_value x | skip)
    | (with_reducible refine put_keepsAt (by assumption) ?_)
    | (with_reducible refine put_keeps (by assumption) ?_)
    | with_reducible apply keeps_ite
    | split
    | refine keeps_ite ?_ ?_
    | with_reducible exact keeps_mg (by assumption) (by assumption))

def touchNetAddr (A : Part → Prop) : Prop := A (.reg R.SYS_NET_ACT.ADDR) ∧ touchFree A
theorem touchNetAddr_all (h : ∀ q, A q) : touchNetAddr A := ⟨h _, touchFree_all h⟩
theorem netAddr_keeps  (hA : touchNetAddr A)  (h : Keeps A s t) : Keeps A s (State.netAddr t) := by
  unfold State.netAddr
  obtain ⟨_, _⟩ := hA
  repeat' (first
    | with_reducible assumption
    | intro y
    | (extract_lets +onlyGivenNames x; first | (refine cut (P := Keeps A s x) ?_ ?_; (on_goal 1 => (unfold x; clear x)); (on_goal 2 => (intro hx; first | clear_value x | skip))) | (refine cut (P := Keeps A s x.2) ?_ ?_; (on_goal 1 => (unfold x; clear x)); (on_goal 2 => (intro hx; first | clear_value x | skip))) | (refine cut (P := Keeps A s x.2.2) ?_ ?_; (on_goal 1 => (unfold x; clear x)); (on_goal 2 => (intro hx; first | clear_value x | skip))) | clear_value x | skip)
    | (with_reducible refine put_keepsAt (by assumption) ?_)
    | (with_reducible refine put_keeps (by assumption) ?_)
    | (with_reducible apply free_keeps (hA := by first | with_reducible assumption | with_reducible apply_assumption))
    | with_reducible apply keeps_ite
    | with_reducible apply keeps_ite2
    | with_reducible apply keeps_ite3
    | split
    | refine keeps_ite ?_ ?_)

def touchNetShow (A : Part → Prop) : Prop := touchFree A ∧ touchNetAddr A ∧ A (.reg R.SYS_NET_CFG.SPEED)
theorem touchNetShow_all (h : ∀ q, A q) : touchNetShow A := ⟨touchFree_all h, touchNetAddr_all h, h _⟩
theorem netShow_keeps  (hA : touchNetShow A)  (h : Keeps A s t) : Keeps A s (State.netShow t) := by
  unfold State.netShow
  obtain ⟨_, _, _⟩ := hA
  repeat' (first
    | with_reducible assumption
    | intro y
    | (extract_lets +onlyGivenNames x; first | (refine cut (P := Keeps A s x) ?_ ?_; (on_goal 1 => (unfold x; clear x)); (on_goal 2 => (intro hx; first | clear_value x | skip))) | (refine cut (P := Keeps A s x.2) ?_ ?_; (on_goal 1 => (unfold x; clear x)); (on_goal 2 => (intro hx; first | clear_value x | skip))) | (refine cut (P := Keeps A s x.2.2) ?_ ?_; (on_goal 1 => (unfold x; clear x)); (on_goal 2 => (intro hx; first | clear_value x | skip))) | clear_value x | skip)
    | (with_reducible refine put_keepsAt (by assumption) ?_)
    | (with_reducible refine put_keeps (by assumption) ?_)
    | (with_reducible apply free_keeps (hA := by first | with_reducible assumption | with_reducible apply_assumption))
    | (with_reducible apply netAddr_keeps (hA := by first | with_reducible assumption | with_reducible apply_assumption))
    | with_reducible apply keeps_ite
    | with_reducible apply keeps_ite2
    | with_reducible apply keeps_ite3
    | split
    | refine keeps_ite ?_ ?_)

def touchStartD3 (A : Part → Prop) : Prop := touchSetReady A ∧ touchTsrcShow A ∧ touchNetShow A ∧ touchSlRootStart A ∧ A .saf
theorem touchStartD3_all (h : ∀ q, A q) : touchStartD3 A := ⟨touchSetReady_all h, touchTsrcShow_all h, touchNetShow_all h, touchSlRootStart_all h, h _⟩
theorem startD3_keeps {now : ℕ} (hA : touchStartD3 A)  (h : Keeps A s t) : Keeps A s (State.startD3 t now) := by
  unfold State.startD3
  obtain ⟨_, _, _, _, _⟩ := hA
  repeat' (first
    | with_reducible assumption
    | intro y
    | (extract_lets +onlyGivenNames x; first | (refine cut (P := Keeps A s x) ?_ ?_; (on_goal 1 => (unfold x; clear x)); (on_goal 2 => (intro hx; first | clear_value x | skip))) | clear_value x | skip)
    | (with_reducible apply setReady_keeps (hA := by first | with_reducible assumption | with_reducible apply_assumption))
    | (with_reducible apply tsrcShow_keeps (hA := by first | with_reducible assumption | with_reducible apply_assumption))
    | (with_reducible apply netShow_keeps (hA := by first | with_reducible assumption | with_reducible apply_assumption))
    | (with_reducible apply slRootStart_keeps (hA := by first | with_reducible assumption | with_reducible apply_assumption))
    | with_reducible apply keeps_ite
    | split
    | refine keeps_ite ?_ ?_
    | with_reducible exact keeps_saf (by assumption) (by assumption))

def touchPartShow (A : Part → Prop) : Prop := A (.reg R.SL_STAT.PART)
theorem touchPartShow_all (h : ∀ q, A q) : touchPartShow A := h _
theorem partShow_keeps  (hA : touchPartShow A)  (h : Keeps A s t) : Keeps A s (State.partShow t) := by
  unfold State.partShow
  unfold touchPartShow at hA
  repeat' (first
    | with_reducible assumption
    | intro y
    | (extract_lets +onlyGivenNames x; first | (refine cut (P := Keeps A s x) ?_ ?_; (on_goal 1 => (unfold x; clear x)); (on_goal 2 => (intro hx; first | clear_value x | skip))) | clear_value x | skip)
    | (with_reducible refine put_keepsAt (by assumption) ?_)
    | (with_reducible refine put_keeps (by assumption) ?_)
    | with_reducible apply keeps_ite
    | split
    | refine keeps_ite ?_ ?_)

def touchRoleReady (A : Part → Prop) : Prop := A (.reg R.SYS_READY.RDY) ∧ touchSetReady A ∧ touchPartShow A
theorem touchRoleReady_all (h : ∀ q, A q) : touchRoleReady A := ⟨h _, touchSetReady_all h, touchPartShow_all h⟩
theorem roleReady_keeps  (hA : touchRoleReady A)  (h : Keeps A s t) : Keeps A s (State.roleReady t) := by
  unfold State.roleReady
  obtain ⟨_, _, _⟩ := hA
  repeat' (first
    | with_reducible assumption
    | intro y
    | (extract_lets +onlyGivenNames x; first | (refine cut (P := Keeps A s x) ?_ ?_; (on_goal 1 => (unfold x; clear x)); (on_goal 2 => (intro hx; first | clear_value x | skip))) | clear_value x | skip)
    | (with_reducible refine put_keepsAt (by assumption) ?_)
    | (with_reducible refine put_keeps (by assumption) ?_)
    | (with_reducible apply setReady_keeps (hA := by first | with_reducible assumption | with_reducible apply_assumption))
    | (with_reducible apply partShow_keeps (hA := by first | with_reducible assumption | with_reducible apply_assumption))
    | with_reducible apply keeps_ite
    | split
    | refine keeps_ite ?_ ?_)

def touchStartAll (A : Part → Prop) : Prop := touchReqShow A ∧ A (.reg R.PWR_DOM_STAT.ON) ∧ touchTbStart A ∧ touchFabStart A ∧ A (.reg R.PE_STAT.DLL_HOLD) ∧ touchSetReady A ∧ touchThermGroups A ∧ touchStartD7 A ∧ touchStartD9 A ∧ touchStartD10 A ∧ touchStartD3 A ∧ touchLswOwners A ∧ touchRoleReady A ∧ touchFindRate A
theorem touchStartAll_all (h : ∀ q, A q) : touchStartAll A := ⟨touchReqShow_all h, h _, touchTbStart_all h, touchFabStart_all h, h _, touchSetReady_all h, touchThermGroups_all h, touchStartD7_all h, touchStartD9_all h, touchStartD10_all h, touchStartD3_all h, touchLswOwners_all h, touchRoleReady_all h, touchFindRate_all h⟩
theorem startAll_keeps {doms : ℕ} {cold : Bool} {now : ℕ} (hA : touchStartAll A)  (h : Keeps A s t) : Keeps A s (State.startAll t doms cold now) := by
  unfold State.startAll
  obtain ⟨_, _, _, _, _, _, _, _, _, _, _, _, _, _⟩ := hA
  repeat' (first
    | with_reducible assumption
    | intro y
    | (extract_lets +onlyGivenNames x; first | (refine cut (P := Keeps A s x) ?_ ?_; (on_goal 1 => (unfold x; clear x)); (on_goal 2 => (intro hx; first | clear_value x | skip))) | clear_value x | skip)
    | (with_reducible refine put_keepsAt (by assumption) ?_)
    | (with_reducible refine put_keeps (by assumption) ?_)
    | (with_reducible refine putb_keepsAt (by assumption) ?_)
    | (with_reducible refine putb_keeps (by assumption) ?_)
    | (with_reducible apply reqShow_keeps (hA := by first | with_reducible assumption | with_reducible apply_assumption))
    | (with_reducible apply tbStart_keeps (hA := by first | with_reducible assumption | with_reducible apply_assumption))
    | (with_reducible apply fabStart_keeps (hA := by first | with_reducible assumption | with_reducible apply_assumption))
    | (with_reducible apply setReady_keeps (hA := by first | with_reducible assumption | with_reducible apply_assumption))
    | (with_reducible apply thermGroups_keeps (hA := by first | with_reducible assumption | with_reducible apply_assumption))
    | (with_reducible apply startD7_keeps (hA := by first | with_reducible assumption | with_reducible apply_assumption))
    | (with_reducible apply startD9_keeps (hA := by first | with_reducible assumption | with_reducible apply_assumption))
    | (with_reducible apply startD10_keeps (hA := by first | with_reducible assumption | with_reducible apply_assumption))
    | (with_reducible apply startD3_keeps (hA := by first | with_reducible assumption | with_reducible apply_assumption))
    | (with_reducible apply lswOwners_keeps (hA := by first | with_reducible assumption | with_reducible apply_assumption))
    | (with_reducible apply roleReady_keeps (hA := by first | with_reducible assumption | with_reducible apply_assumption))
    | (with_reducible apply findRate_keeps (hA := by first | with_reducible assumption | with_reducible apply_assumption))
    | with_reducible apply when_keeps
    | with_reducible apply keeps_ite
    | split
    | refine keeps_ite ?_ ?_)

def touchAbsorb (A : Part → Prop) : Prop := A (.reg R.SYS_RST_CAUSE.SEEN) ∧ A (.reg R.SYS_RST_CAUSE.COINC)
theorem touchAbsorb_all (h : ∀ q, A q) : touchAbsorb A := ⟨h _, h _⟩
theorem absorb_keeps {kind : ℕ} {also : ℕ} (hA : touchAbsorb A)  (h : Keeps A s t) : Keeps A s (State.absorb t kind also) := by
  unfold State.absorb
  obtain ⟨_, _⟩ := hA
  repeat' (first
    | with_reducible assumption
    | intro y
    | (extract_lets +onlyGivenNames x; first | (refine cut (P := Keeps A s x) ?_ ?_; (on_goal 1 => (unfold x; clear x)); (on_goal 2 => (intro hx; first | clear_value x | skip))) | clear_value x | skip)
    | (with_reducible refine put_keepsAt (by assumption) ?_)
    | (with_reducible refine put_keeps (by assumption) ?_)
    | with_reducible apply keeps_ite
    | split
    | refine keeps_ite ?_ ?_)

def touchExitReset (A : Part → Prop) : Prop := touchDomainsUp A ∧ touchAbsorb A ∧ A .boot ∧ touchMoraineFill A ∧ touchSetReady A ∧ touchResShow A ∧ touchKvStart A ∧ touchFabKeyCopy A ∧ touchFwStep A ∧ touchSelfTest A ∧ touchMoraineWarn A ∧ touchImageLoad A ∧ touchSafCopy A ∧ A (.reg R.SYS_BOOT_TIME.T_IMAGE) ∧ touchBlock A ∧ touchRefChoose A ∧ A (.reg R.SAF_STAT.WD_STOP) ∧ touchThaw A ∧ touchStartAll A ∧ touchGden A ∧ touchLog A ∧ touchStepShow A ∧ A (.reg R.SYS_BOOT_STAT.STEP)
theorem touchExitReset_all (h : ∀ q, A q) : touchExitReset A := ⟨touchDomainsUp_all h, touchAbsorb_all h, h _, touchMoraineFill_all h, touchSetReady_all h, touchResShow_all h, touchKvStart_all h, touchFabKeyCopy_all h, touchFwStep_all h, touchSelfTest_all h, touchMoraineWarn_all h, touchImageLoad_all h, touchSafCopy_all h, h _, touchBlock_all h, touchRefChoose_all h, h _, touchThaw_all h, touchStartAll_all h, touchGden_all h, touchLog_all h, touchStepShow_all h, h _⟩
theorem exitReset_keeps {o : Sys2Proof.BootObs} (hA : touchExitReset A)  (h : Keeps A s t) : Keeps A s (State.exitReset t o) := by
  unfold State.exitReset
  obtain ⟨_, _, _, _, _, _, _, _, _, _, _, _, _, _, _, _, _, _, _, _, _, _, _⟩ := hA
  repeat' (first
    | with_reducible assumption
    | intro y
    | (extract_lets +onlyGivenNames x; first | (refine cut (P := Keeps A s x) ?_ ?_; (on_goal 1 => (unfold x; clear x)); (on_goal 2 => (intro hx; first | clear_value x | skip))) | clear_value x | skip)
    | (with_reducible refine put_keepsAt (by assumption) ?_)
    | (with_reducible refine put_keeps (by assumption) ?_)
    | (with_reducible refine putMax_keepsAt (by assumption) ?_)
    | (with_reducible refine putMax_keeps (by assumption) ?_)
    | (with_reducible apply domainsUp_keeps (hA := by first | with_reducible assumption | with_reducible apply_assumption))
    | (with_reducible apply absorb_keeps (hA := by first | with_reducible assumption | with_reducible apply_assumption))
    | (with_reducible apply moraineFill_keeps (hA := by first | with_reducible assumption | with_reducible apply_assumption))
    | (with_reducible apply setReady_keeps (hA := by first | with_reducible assumption | with_reducible apply_assumption))
    | (with_reducible apply resShow_keeps (hA := by first | with_reducible assumption | with_reducible apply_assumption))
    | (with_reducible apply kvStart_keeps (hA := by first | with_reducible assumption | with_reducible apply_assumption))
    | (with_reducible apply fabKeyCopy_keeps (hA := by first | with_reducible assumption | with_reducible apply_assumption))
    | (with_reducible apply fwStep_keeps (hA := by first | with_reducible assumption | with_reducible apply_assumption))
    | (with_reducible apply selfTest_keeps (hA := by first | with_reducible assumption | with_reducible apply_assumption))
    | (with_reducible apply moraineWarn_keeps (hA := by first | with_reducible assumption | with_reducible apply_assumption))
    | (with_reducible apply imageLoad_keeps (hA := by first | with_reducible assumption | with_reducible apply_assumption))
    | (with_reducible apply safCopy_keeps (hA := by first | with_reducible assumption | with_reducible apply_assumption))
    | (with_reducible apply block_keeps (hA := by first | with_reducible assumption | with_reducible apply_assumption))
    | (with_reducible apply refChoose_keeps (hA := by first | with_reducible assumption | with_reducible apply_assumption))
    | (with_reducible apply thaw_keeps (hA := by first | with_reducible assumption | with_reducible apply_assumption))
    | (with_reducible apply startAll_keeps (hA := by first | with_reducible assumption | with_reducible apply_assumption))
    | (with_reducible apply gden_keeps (hA := by first | with_reducible assumption | with_reducible apply_assumption))
    | (with_reducible apply log_keeps (hA := by first | with_reducible assumption | with_reducible apply_assumption))
    | (with_reducible apply stepShow_keeps (hA := by first | with_reducible assumption | with_reducible apply_assumption))
    | with_reducible apply when_keeps
    | with_reducible apply keeps_ite
    | split
    | refine keeps_ite ?_ ?_
    | with_reducible exact keeps_boot (by assumption) (by assumption))

def touchWarmReset (A : Part → Prop) : Prop := touchResetCause A ∧ touchExitReset A ∧ touchEnterReset A
theorem touchWarmReset_all (h : ∀ q, A q) : touchWarmReset A := ⟨touchResetCause_all h, touchExitReset_all h, touchEnterReset_all h⟩
theorem warmReset_keeps {kind : ℕ} {doms : ℕ} {o : Sys2Proof.BootObs} (hA : touchWarmReset A)  (h : Keeps A s t) : Keeps A s (State.warmReset t kind doms o) := by
  unfold State.warmReset
  obtain ⟨_, _, _⟩ := hA
  repeat' (first
    | with_reducible assumption
    | intro y
    | (extract_lets +onlyGivenNames x; first | (refine cut (P := Keeps A s x) ?_ ?_; (on_goal 1 => (unfold x; clear x)); (on_goal 2 => (intro hx; first | clear_value x | skip))) | (refine cut (P := Keeps A s x.2) ?_ ?_; (on_goal 1 => (unfold x; clear x)); (on_goal 2 => (intro hx; first | clear_value x | skip))) | (refine cut (P := Keeps A s x.2.2) ?_ ?_; (on_goal 1 => (unfold x; clear x)); (on_goal 2 => (intro hx; first | clear_value x | skip))) | clear_value x | skip)
    | (with_reducible apply resetCause_keeps (hA := by first | with_reducible assumption | with_reducible apply_assumption))
    | (with_reducible apply exitReset_keeps (hA := by first | with_reducible assumption | with_reducible apply_assumption))
    | (with_reducible apply enterReset_keeps (hA := by first | with_reducible assumption | with_reducible apply_assumption))
    | with_reducible apply keeps_ite
    | with_reducible apply keeps_ite2
    | with_reducible apply keeps_ite3
    | split
    | refine keeps_ite ?_ ?_)

def touchColdRegs (A : Part → Prop) : Prop := A .regs
theorem touchColdRegs_all (h : ∀ q, A q) : touchColdRegs A := h _
theorem coldRegs_keeps {cold : Bool} (hA : touchColdRegs A)  (h : Keeps A s t) : Keeps A s (State.coldRegs t cold) := by
  unfold State.coldRegs
  unfold touchColdRegs at hA
  repeat' (first
    | with_reducible assumption
    | intro y
    | (extract_lets +onlyGivenNames x; first | (refine cut (P := Keeps A s x) ?_ ?_; (on_goal 1 => (unfold x; clear x)); (on_goal 2 => (intro hx; first | clear_value x | skip))) | (refine cut (P := ∀ y, Keeps A s y → Keeps A s (x y)) ?_ ?_; (on_goal 1 => (unfold x; clear x)); (on_goal 2 => (intro hf; first | clear_value x | skip))) | (refine cut (P := ∀ y, Keeps A s (x y)) ?_ ?_; (on_goal 1 => (unfold x; clear x)); (on_goal 2 => (intro hf; first | clear_value x | skip))) | (refine cut (P := ∀ y z, Keeps A s y → Keeps A s (x y z)) ?_ ?_; (on_goal 1 => (unfold x; clear x)); (on_goal 2 => (intro hf; first | clear_value x | skip))) | (refine cut (P := ∀ y z, Keeps A s z → Keeps A s (x y z)) ?_ ?_; (on_goal 1 => (unfold x; clear x)); (on_goal 2 => (intro hf; first | clear_value x | skip))) | (refine cut (P := ∀ y z w, Keeps A s y → Keeps A s (x y z w)) ?_ ?_; (on_goal 1 => (unfold x; clear x)); (on_goal 2 => (intro hf; first | clear_value x | skip))) | (refine cut (P := ∀ (d : Nat) (g : State → State) (y : State), (∀ z, Keeps A s z → Keeps A s (g z)) → Keeps A s y → Keeps A s (x d g y)) ?_ ?_; (on_goal 1 => (unfold x; clear x)); (on_goal 2 => (intro hf; first | clear_value x | skip))) | clear_value x | skip)
    | (with_reducible refine keeps_setWord (by first | assumption | exact hA _) ?_)
    | with_reducible apply keeps_ite
    | with_reducible apply keeps_foldl
    | with_reducible apply keeps_foldl2
    | with_reducible apply keeps_foldl3
    | with_reducible apply hf
    | split
    | refine keeps_ite ?_ ?_)

def touchClockStart (A : Part → Prop) : Prop := A (.reg R.BIL_STAT.CLK_VALID) ∧ A (.reg R.BIL_STAT.CLK_ST) ∧ A .bil
theorem touchClockStart_all (h : ∀ q, A q) : touchClockStart A := ⟨h _, h _, h _⟩
theorem clockStart_keeps {old : ℕ} (hA : touchClockStart A)  (h : Keeps A s t) : Keeps A s (State.clockStart t old) := by
  unfold State.clockStart
  obtain ⟨_, _, _⟩ := hA
  repeat' (first
    | with_reducible assumption
    | intro y
    | (extract_lets +onlyGivenNames x; first | (refine cut (P := Keeps A s x) ?_ ?_; (on_goal 1 => (unfold x; clear x)); (on_goal 2 => (intro hx; first | clear_value x | skip))) | clear_value x | skip)
    | (with_reducible refine put_keepsAt (by assumption) ?_)
    | (with_reducible refine put_keeps (by assumption) ?_)
    | (with_reducible refine putb_keepsAt (by assumption) ?_)
    | (with_reducible refine putb_keeps (by assumption) ?_)
    | with_reducible apply keeps_ite
    | split
    | refine keeps_ite ?_ ?_
    | with_reducible exact keeps_bil (by assumption) (by assumption))

def touchD0Cold (A : Part → Prop) : Prop := A .tmp ∧ touchLog A ∧ A (.reg R.SYS_TIME_STAT.RTC_SET) ∧ A (.reg R.SYS_RST_CAUSE.D0_COLD) ∧ touchKvColdStart A ∧ A (.reg R.BIL_TMP.TMP_PEND) ∧ A (.reg R.BIL_TMP.HIST_LOST)
theorem touchD0Cold_all (h : ∀ q, A q) : touchD0Cold A := ⟨h _, touchLog_all h, h _, h _, touchKvColdStart_all h, h _, h _⟩
theorem d0Cold_keeps  (hA : touchD0Cold A)  (h : Keeps A s t) : Keeps A s (State.d0Cold t) := by
  unfold State.d0Cold
  obtain ⟨_, _, _, _, _, _, _⟩ := hA
  repeat' (first
    | with_reducible assumption
    | intro y
    | (extract_lets +onlyGivenNames x; first | (refine cut (P := Keeps A s x) ?_ ?_; (on_goal 1 => (unfold x; clear x)); (on_goal 2 => (intro hx; first | clear_value x | skip))) | clear_value x | skip)
    | (with_reducible apply log_keeps (hA := by first | with_reducible assumption | with_reducible apply_assumption))
    | (with_reducible refine put_keepsAt (by assumption) ?_)
    | (with_reducible refine put_keeps (by assumption) ?_)
    | (with_reducible apply kvColdStart_keeps (hA := by first | with_reducible assumption | with_reducible apply_assumption))
    | with_reducible apply keeps_ite
    | split
    | refine keeps_ite ?_ ?_
    | with_reducible exact keeps_tmp (by assumption) (by assumption))

def touchSafSample (A : Part → Prop) : Prop := A (.reg R.SAF_STAT.ES2) ∧ A (.reg R.SAF_STAT.ES1)
theorem touchSafSample_all (h : ∀ q, A q) : touchSafSample A := ⟨h _, h _⟩
theorem safSample_keeps  (hA : touchSafSample A)  (h : Keeps A s t) : Keeps A s (State.safSample t) := by
  unfold State.safSample
  obtain ⟨_, _⟩ := hA
  repeat' (first
    | with_reducible assumption
    | intro y
    | (with_reducible refine putb_keepsAt (by assumption) ?_)
    | (with_reducible refine putb_keeps (by assumption) ?_)
    | with_reducible apply keeps_ite
    | split)

def touchColdReset (A : Part → Prop) : Prop := A .capt ∧ A .evr ∧ A .pins ∧ A .boot ∧ A .tb ∧ A .keep ∧ A .phx ∧ A .grpx ∧ A .auxx ∧ A .le ∧ A .ff ∧ A .conns ∧ A .needs ∧ A .lsw ∧ A .saf ∧ A .fab ∧ A .sl ∧ A .plc ∧ A .roster ∧ A .rstStamp ∧ A .th ∧ A .cm ∧ A .cs ∧ A .can ∧ A .kv ∧ A .mg ∧ A .upd ∧ A (.reg R.SYS_RST_CAUSE.COINC) ∧ touchColdRegs A ∧ touchMetRestore A ∧ touchRecordReset A ∧ touchD0Cold A ∧ A (.reg R.PWR_SUPPLY_STAT.VBAT_LOW) ∧ touchSafSample A ∧ touchClockStart A ∧ touchLogAt A ∧ touchReqSafeOff A ∧ touchLog A ∧ A (.reg R.PWR_DOM_STAT.IN_RST) ∧ A (.reg R.PWR_DOM_STAT.ON) ∧ touchExitReset A
theorem touchColdReset_all (h : ∀ q, A q) : touchColdReset A := ⟨h _, h _, h _, h _, h _, h _, h _, h _, h _, h _, h _, h _, h _, h _, h _, h _, h _, h _, h _, h _, h _, h _, h _, h _, h _, h _, h _, h _, touchColdRegs_all h, touchMetRestore_all h, touchRecordReset_all h, touchD0Cold_all h, h _, touchSafSample_all h, touchClockStart_all h, touchLogAt_all h, touchReqSafeOff_all h, touchLog_all h, h _, h _, touchExitReset_all h⟩
theorem coldReset_keeps {kind : ℕ} {cold : Bool} {o : Sys2Proof.BootObs} (hA : touchColdReset A)  (h : Keeps A s t) : Keeps A s (State.coldReset t kind cold o) := by
  unfold State.coldReset
  obtain ⟨_, _, _, _, _, _, _, _, _, _, _, _, _, _, _, _, _, _, _, _, _, _, _, _, _, _, _, _, _, _, _, _, _, _, _, _, _, _, _, _, _⟩ := hA
  repeat' (first
    | with_reducible assumption
    | intro y
    | (extract_lets +onlyGivenNames x; first | (refine cut (P := Keeps A s x) ?_ ?_; (on_goal 1 => (unfold x; clear x)); (on_goal 2 => (intro hx; first | clear_value x | skip))) | (unfold x; clear x) | clear_value x | skip)
    | (with_reducible refine put_keepsAt (by assumption) ?_)
    | (with_reducible refine put_keeps (by assumption) ?_)
    | (with_reducible apply coldRegs_keeps (hA := by first | with_reducible assumption | with_reducible apply_assumption))
    | (with_reducible apply metRestore_keeps (hA := by first | with_reducible assumption | with_reducible apply_assumption))
    | (with_reducible apply recordReset_keeps (hA := by first | with_reducible assumption | with_reducible apply_assumption))
    | (with_reducible apply d0Cold_keeps (hA := by first | with_reducible assumption | with_reducible apply_assumption))
    | (with_reducible apply safSample_keeps (hA := by first | with_reducible assumption | with_reducible apply_assumption))
    | (with_reducible apply clockStart_keeps (hA := by first | with_reducible assumption | with_reducible apply_assumption))
    | (with_reducible apply logAt_keeps (hA := by first | with_reducible assumption | with_reducible apply_assumption))
    | (with_reducible apply reqSafeOff_keeps (hA := by first | with_reducible assumption | with_reducible apply_assumption))
    | (with_reducible apply log_keeps (hA := by first | with_reducible assumption | with_reducible apply_assumption))
    | (with_reducible apply exitReset_keeps (hA := by first | with_reducible assumption | with_reducible apply_assumption))
    | with_reducible apply keeps_ite
    | split
    | refine keeps_ite ?_ ?_
    | with_reducible exact keeps_capt_evr_pins_boot_tb_keep_phx_grpx_auxx_le_ff_conns_needs_lsw_saf_fab_sl_plc_roster_rstStamp_th_cm_cs_can_kv_mg_upd (by assumption) (by assumption) (by assumption) (by assumption) (by assumption) (by assumption) (by assumption) (by assumption) (by assumption) (by assumption) (by assumption) (by assumption) (by assumption) (by assumption) (by assumption) (by assumption) (by assumption) (by assumption) (by assumption) (by assumption) (by assumption) (by assumption) (by assumption) (by assumption) (by assumption) (by assumption) (by assumption) (by first | exact List.prefix_rfl | exact List.prefix_append _ _ | exact intake_mor _ _ | exact hold78_mor _ _ | exact release_mor _) (by assumption)
    | with_reducible exact keeps_boot (by assumption) (by assumption))

end Sys2Proof.Laws
end

