-- ==== Sys2Proof/Laws/KeepsPower.lean ====
section
/-! SUPPORT. What the operations of Machine/Power.lean leave alone: for each the parts it may change (`touch…`) and its lemma. -/

namespace Sys2Proof.Laws

open Sys2Proof.Machine

set_option linter.unusedTactic false
set_option linter.unreachableTactic false
set_option linter.unusedVariables false
set_option linter.tactic.unusedName false

variable {A : Part → Prop} {s t : State}

def touchVsup (A : Part → Prop) : Prop := A (.reg R.PWR_VMON.VSUP)
theorem touchVsup_all (h : ∀ q, A q) : touchVsup A := h _
theorem vsup_keeps {mv : ℕ} (hA : touchVsup A)  (h : Keeps A s t) : Keeps A s (State.vsup t mv) := by
  unfold State.vsup
  unfold touchVsup at hA
  repeat' (first
    | with_reducible assumption
    | intro y
    | (with_reducible refine putMax_keepsAt (by assumption) ?_)
    | (with_reducible refine putMax_keeps (by assumption) ?_)
    | with_reducible apply keeps_ite
    | split)

def touchExecVsupLowBandEntry (A : Part → Prop) : Prop := touchLog A ∧ A (.reg R.PWR_SUPPLY_STAT.LOW_SEEN) ∧ A (.reg R.PWR_SUPPLY_STAT.LOW_BAND) ∧ touchVsup A
theorem touchExecVsupLowBandEntry_all (h : ∀ q, A q) : touchExecVsupLowBandEntry A := ⟨touchLog_all h, h _, h _, touchVsup_all h⟩
theorem execVsupLowBandEntry_next {mv : ℕ} {us : ℕ} (hA : touchExecVsupLowBandEntry A) : ∃ u, execVsupLowBandEntry mv us s = .next u ∧ Keeps A s u := by
  unfold execVsupLowBandEntry
  have h := Keeps.refl A s
  refine ⟨_, rfl, ?_⟩
  obtain ⟨_, _, _, _⟩ := hA
  repeat' (first
    | with_reducible assumption
    | intro y
    | (with_reducible apply log_keeps (hA := by first | with_reducible assumption | with_reducible apply_assumption))
    | (with_reducible refine put_keepsAt (by assumption) ?_)
    | (with_reducible refine put_keeps (by assumption) ?_)
    | (with_reducible apply vsup_keeps (hA := by first | with_reducible assumption | with_reducible apply_assumption))
    | with_reducible apply keeps_ite
    | split)

def touchExecVsupLowBandExit (A : Part → Prop) : Prop := touchLog A ∧ A (.reg R.PWR_SUPPLY_STAT.LOW_BAND) ∧ touchVsup A
theorem touchExecVsupLowBandExit_all (h : ∀ q, A q) : touchExecVsupLowBandExit A := ⟨touchLog_all h, h _, touchVsup_all h⟩
theorem execVsupLowBandExit_next {mv : ℕ} {us : ℕ} (hA : touchExecVsupLowBandExit A) : ∃ u, execVsupLowBandExit mv us s = .next u ∧ Keeps A s u := by
  unfold execVsupLowBandExit
  have h := Keeps.refl A s
  refine ⟨_, rfl, ?_⟩
  obtain ⟨_, _, _⟩ := hA
  repeat' (first
    | with_reducible assumption
    | intro y
    | (with_reducible apply log_keeps (hA := by first | with_reducible assumption | with_reducible apply_assumption))
    | (with_reducible refine put_keepsAt (by assumption) ?_)
    | (with_reducible refine put_keeps (by assumption) ?_)
    | (with_reducible apply vsup_keeps (hA := by first | with_reducible assumption | with_reducible apply_assumption))
    | with_reducible apply keeps_ite
    | split)

def touchExecVsupHighBandEntry (A : Part → Prop) : Prop := touchLog A ∧ A (.reg R.PWR_SUPPLY_STAT.HIGH_BAND) ∧ touchVsup A
theorem touchExecVsupHighBandEntry_all (h : ∀ q, A q) : touchExecVsupHighBandEntry A := ⟨touchLog_all h, h _, touchVsup_all h⟩
theorem execVsupHighBandEntry_next {mv : ℕ} {us : ℕ} (hA : touchExecVsupHighBandEntry A) : ∃ u, execVsupHighBandEntry mv us s = .next u ∧ Keeps A s u := by
  unfold execVsupHighBandEntry
  have h := Keeps.refl A s
  refine ⟨_, rfl, ?_⟩
  obtain ⟨_, _, _⟩ := hA
  repeat' (first
    | with_reducible assumption
    | intro y
    | (with_reducible apply log_keeps (hA := by first | with_reducible assumption | with_reducible apply_assumption))
    | (with_reducible refine put_keepsAt (by assumption) ?_)
    | (with_reducible refine put_keeps (by assumption) ?_)
    | (with_reducible apply vsup_keeps (hA := by first | with_reducible assumption | with_reducible apply_assumption))
    | with_reducible apply keeps_ite
    | split)

def touchExecVsupHighBandExit (A : Part → Prop) : Prop := touchLog A ∧ A (.reg R.PWR_SUPPLY_STAT.HIGH_BAND) ∧ touchVsup A
theorem touchExecVsupHighBandExit_all (h : ∀ q, A q) : touchExecVsupHighBandExit A := ⟨touchLog_all h, h _, touchVsup_all h⟩
theorem execVsupHighBandExit_next {mv : ℕ} {us : ℕ} (hA : touchExecVsupHighBandExit A) : ∃ u, execVsupHighBandExit mv us s = .next u ∧ Keeps A s u := by
  unfold execVsupHighBandExit
  have h := Keeps.refl A s
  refine ⟨_, rfl, ?_⟩
  obtain ⟨_, _, _⟩ := hA
  repeat' (first
    | with_reducible assumption
    | intro y
    | (with_reducible apply log_keeps (hA := by first | with_reducible assumption | with_reducible apply_assumption))
    | (with_reducible refine put_keepsAt (by assumption) ?_)
    | (with_reducible refine put_keeps (by assumption) ?_)
    | (with_reducible apply vsup_keeps (hA := by first | with_reducible assumption | with_reducible apply_assumption))
    | with_reducible apply keeps_ite
    | split)

def touchToQuiet (A : Part → Prop) : Prop := touchGden A ∧ touchStopPhases A ∧ A (.reg R.PWR_STATE.STATE)
theorem touchToQuiet_all (h : ∀ q, A q) : touchToQuiet A := ⟨touchGden_all h, touchStopPhases_all h, h _⟩
theorem toQuiet_keeps  (hA : touchToQuiet A)  (h : Keeps A s t) : Keeps A s (State.toQuiet t) := by
  unfold State.toQuiet
  obtain ⟨_, _, _⟩ := hA
  repeat' (first
    | with_reducible assumption
    | intro y
    | (with_reducible apply gden_keeps (hA := by first | with_reducible assumption | with_reducible apply_assumption))
    | (with_reducible apply stopPhases_keeps (hA := by first | with_reducible assumption | with_reducible apply_assumption))
    | (with_reducible refine put_keepsAt (by assumption) ?_)
    | (with_reducible refine put_keeps (by assumption) ?_)
    | with_reducible apply keeps_ite
    | split)

def touchExecVsupOverVoltage (A : Part → Prop) : Prop := A (.reg R.PWR_SUPPLY_STAT.HIGH_BAND) ∧ A (.reg R.PWR_SUPPLY_STAT.LOW_BAND) ∧ touchVsup A ∧ touchToQuiet A ∧ touchLog A ∧ A (.reg R.PWR_SUPPLY_STAT.OVERV_SEEN) ∧ A (.reg R.PWR_SUPPLY_STAT.OVERV)
theorem touchExecVsupOverVoltage_all (h : ∀ q, A q) : touchExecVsupOverVoltage A := ⟨h _, h _, touchVsup_all h, touchToQuiet_all h, touchLog_all h, h _, h _⟩
theorem execVsupOverVoltage_next {mv : ℕ} {us : ℕ} (hA : touchExecVsupOverVoltage A) : ∃ u, execVsupOverVoltage mv us s = .next u ∧ Keeps A s u := by
  unfold execVsupOverVoltage
  have h := Keeps.refl A s
  refine ⟨_, rfl, ?_⟩
  obtain ⟨_, _, _, _, _, _, _⟩ := hA
  repeat' (first
    | with_reducible assumption
    | intro y
    | (extract_lets +onlyGivenNames x; first | (refine cut (P := Keeps A s x) ?_ ?_; (on_goal 1 => (unfold x; clear x)); (on_goal 2 => (intro hx; first | clear_value x | skip))) | clear_value x | skip)
    | (with_reducible refine put_keepsAt (by assumption) ?_)
    | (with_reducible refine put_keeps (by assumption) ?_)
    | (with_reducible apply vsup_keeps (hA := by first | with_reducible assumption | with_reducible apply_assumption))
    | (with_reducible apply toQuiet_keeps (hA := by first | with_reducible assumption | with_reducible apply_assumption))
    | (with_reducible apply log_keeps (hA := by first | with_reducible assumption | with_reducible apply_assumption))
    | with_reducible apply keeps_ite
    | split
    | refine keeps_ite ?_ ?_)

def touchExecVsupOverVoltageExit (A : Part → Prop) : Prop := A (.reg R.PWR_SUPPLY_STAT.HIGH_BAND) ∧ A (.reg R.PWR_SUPPLY_STAT.OVERV) ∧ touchVsup A
theorem touchExecVsupOverVoltageExit_all (h : ∀ q, A q) : touchExecVsupOverVoltageExit A := ⟨h _, h _, touchVsup_all h⟩
theorem execVsupOverVoltageExit_next {mv : ℕ} {us : ℕ} (hA : touchExecVsupOverVoltageExit A) : ∃ u, execVsupOverVoltageExit mv us s = .next u ∧ Keeps A s u := by
  unfold execVsupOverVoltageExit
  have h := Keeps.refl A s
  refine ⟨_, rfl, ?_⟩
  obtain ⟨_, _, _⟩ := hA
  repeat' (first
    | with_reducible assumption
    | intro y
    | (with_reducible refine put_keepsAt (by assumption) ?_)
    | (with_reducible refine put_keeps (by assumption) ?_)
    | (with_reducible apply vsup_keeps (hA := by first | with_reducible assumption | with_reducible apply_assumption))
    | with_reducible apply keeps_ite
    | split)

def touchFailDeclare (A : Part → Prop) : Prop := A (.reg R.SYS_ROLE_CMD.APPLY) ∧ A (.reg R.PWR_HOLDUP.TESTING) ∧ A (.reg R.PWR_STATE.STATE) ∧ touchStopPhases A ∧ A .boot ∧ touchSupplyFailList A ∧ touchMetClose A ∧ touchBillClose A ∧ touchResetHidden A ∧ A (.reg R.SYS_READY.RDY) ∧ A (.reg R.PWR_DOM_STAT.ON) ∧ touchKeepCommit A ∧ touchMetCommit A ∧ A (.reg R.SYS_READY.PIN)
theorem touchFailDeclare_all (h : ∀ q, A q) : touchFailDeclare A := ⟨h _, h _, h _, touchStopPhases_all h, h _, touchSupplyFailList_all h, touchMetClose_all h, touchBillClose_all h, touchResetHidden_all h, h _, h _, touchKeepCommit_all h, touchMetCommit_all h, h _⟩
theorem failDeclare_keeps {rail : Bool} (hA : touchFailDeclare A)  (h : Keeps A s t) : Keeps A s (State.failDeclare t rail) := by
  unfold State.failDeclare
  obtain ⟨_, _, _, _, _, _, _, _, _, _, _, _, _, _⟩ := hA
  repeat' (first
    | with_reducible assumption
    | intro y
    | (extract_lets +onlyGivenNames x; first | (refine cut (P := Keeps A s x) ?_ ?_; (on_goal 1 => (unfold x; clear x)); (on_goal 2 => (intro hx; first | clear_value x | skip))) | clear_value x | skip)
    | (with_reducible refine put_keepsAt (by assumption) ?_)
    | (with_reducible refine put_keeps (by assumption) ?_)
    | (with_reducible apply stopPhases_keeps (hA := by first | with_reducible assumption | with_reducible apply_assumption))
    | (with_reducible apply supplyFailList_keeps (hA := by first | with_reducible assumption | with_reducible apply_assumption))
    | (with_reducible apply metClose_keeps (hA := by first | with_reducible assumption | with_reducible apply_assumption))
    | (with_reducible apply billClose_keeps (hA := by first | with_reducible assumption | with_reducible apply_assumption))
    | (with_reducible apply resetHidden_keeps (hA := by first | with_reducible assumption | with_reducible apply_assumption))
    | (with_reducible apply keepCommit_keeps (hA := by first | with_reducible assumption | with_reducible apply_assumption))
    | (with_reducible apply metCommit_keeps (hA := by first | with_reducible assumption | with_reducible apply_assumption))
    | with_reducible apply keeps_ite
    | split
    | refine keeps_ite ?_ ?_
    | with_reducible exact keeps_boot (by assumption) (by assumption))

def touchFailEnd (A : Part → Prop) : Prop := A (.reg R.PWR_SUPPLY_STAT.FAIL_SEEN) ∧ touchStoreAll A ∧ A .pins ∧ A .boot ∧ A .saf ∧ A (.reg R.SYS_READY.RDY) ∧ A (.reg R.PWR_DOM_STAT.IN_RST) ∧ A (.reg R.PWR_DOM_STAT.ON) ∧ A (.reg R.SYS_READY.PIN) ∧ touchColdReset A ∧ A (.reg R.SYS_RST_INFO.BOR_SRC)
theorem touchFailEnd_all (h : ∀ q, A q) : touchFailEnd A := ⟨h _, touchStoreAll_all h, h _, h _, h _, h _, h _, h _, h _, touchColdReset_all h, h _⟩
theorem failEnd_keeps {back : Bool} {o : Sys2Proof.BootObs} (hA : touchFailEnd A)  (h : Keeps A s t) : Keeps A s (State.failEnd t back o) := by
  unfold State.failEnd
  obtain ⟨_, _, _, _, _, _, _, _, _, _, _⟩ := hA
  repeat' (first
    | with_reducible assumption
    | intro y
    | (extract_lets +onlyGivenNames x; first | (refine cut (P := Keeps A s x) ?_ ?_; (on_goal 1 => (unfold x; clear x)); (on_goal 2 => (intro hx; first | clear_value x | skip))) | (unfold x; clear x) | clear_value x | skip)
    | (with_reducible refine put_keepsAt (by assumption) ?_)
    | (with_reducible refine put_keeps (by assumption) ?_)
    | (with_reducible apply storeAll_keeps (hA := by first | with_reducible assumption | with_reducible apply_assumption))
    | (with_reducible apply coldReset_keeps (hA := by first | with_reducible assumption | with_reducible apply_assumption))
    | with_reducible apply keeps_ite
    | split
    | refine keeps_ite ?_ ?_
    | with_reducible exact keeps_pins_boot_saf (by assumption) (by assumption) (by assumption) (by assumption))

def touchExecSupplyFail (A : Part → Prop) : Prop := touchFailEnd A ∧ touchFailDeclare A ∧ touchVsup A
theorem touchExecSupplyFail_all (h : ∀ q, A q) : touchExecSupplyFail A := ⟨touchFailEnd_all h, touchFailDeclare_all h, touchVsup_all h⟩
theorem execSupplyFail_next {mv : ℕ} {us : ℕ} {back : ℕ} {o : Sys2Proof.BootObs} (hA : touchExecSupplyFail A) : ∃ u, execSupplyFail mv us back o s = .next u ∧ Keeps A s u := by
  unfold execSupplyFail
  have h := Keeps.refl A s
  refine ⟨_, rfl, ?_⟩
  obtain ⟨_, _, _⟩ := hA
  repeat' (first
    | with_reducible assumption
    | intro y
    | (with_reducible apply failEnd_keeps (hA := by first | with_reducible assumption | with_reducible apply_assumption))
    | (with_reducible apply failDeclare_keeps (hA := by first | with_reducible assumption | with_reducible apply_assumption))
    | (with_reducible apply vsup_keeps (hA := by first | with_reducible assumption | with_reducible apply_assumption))
    | with_reducible apply keeps_ite
    | split)

def touchExecRailOutOfLimits (A : Part → Prop) : Prop := touchFailEnd A ∧ touchFailDeclare A ∧ touchLog A ∧ A (.reg R.PWR_DOM_FAULT.RAIL)
theorem touchExecRailOutOfLimits_all (h : ∀ q, A q) : touchExecRailOutOfLimits A := ⟨touchFailEnd_all h, touchFailDeclare_all h, touchLog_all h, h _⟩
theorem execRailOutOfLimits_next {d : ℕ} {us : ℕ} {o : Sys2Proof.BootObs} (hA : touchExecRailOutOfLimits A) : ∃ u, execRailOutOfLimits d us o s = .next u ∧ Keeps A s u := by
  unfold execRailOutOfLimits
  have h := Keeps.refl A s
  refine ⟨_, rfl, ?_⟩
  obtain ⟨_, _, _, _⟩ := hA
  repeat' (first
    | with_reducible assumption
    | intro y
    | (with_reducible apply failEnd_keeps (hA := by first | with_reducible assumption | with_reducible apply_assumption))
    | (with_reducible apply failDeclare_keeps (hA := by first | with_reducible assumption | with_reducible apply_assumption))
    | (with_reducible apply log_keeps (hA := by first | with_reducible assumption | with_reducible apply_assumption))
    | (with_reducible refine put_keepsAt (by assumption) ?_)
    | (with_reducible refine put_keeps (by assumption) ?_)
    | with_reducible apply keeps_ite
    | split)

def touchExecHoldupStoreTest (A : Part → Prop) : Prop := touchHoldupShow A ∧ A (.reg R.PWR_HOLDUP.VSTORE) ∧ A (.reg R.PWR_HOLDUP.TESTING)
theorem touchExecHoldupStoreTest_all (h : ∀ q, A q) : touchExecHoldupStoreTest A := ⟨touchHoldupShow_all h, h _, h _⟩
theorem execHoldupStoreTest_next {v : ℕ} (hA : touchExecHoldupStoreTest A) : ∃ u, execHoldupStoreTest v s = .next u ∧ Keeps A s u := by
  unfold execHoldupStoreTest
  have h := Keeps.refl A s
  refine ⟨_, rfl, ?_⟩
  obtain ⟨_, _, _⟩ := hA
  repeat' (first
    | with_reducible assumption
    | intro y
    | (extract_lets +onlyGivenNames x; first | (refine cut (P := Keeps A s x) ?_ ?_; (on_goal 1 => (unfold x; clear x)); (on_goal 2 => (intro hx; first | clear_value x | skip))) | clear_value x | skip)
    | (with_reducible refine put_keepsAt (by assumption) ?_)
    | (with_reducible refine put_keeps (by assumption) ?_)
    | (with_reducible refine putMax_keepsAt (by assumption) ?_)
    | (with_reducible refine putMax_keeps (by assumption) ?_)
    | (with_reducible apply holdupShow_keeps (hA := by first | with_reducible assumption | with_reducible apply_assumption))
    | with_reducible apply keeps_ite
    | split
    | refine keeps_ite ?_ ?_)

def touchExecHoldupTestRequest (A : Part → Prop) : Prop := touchGuarded A ∧ A (.reg R.PWR_HOLDUP.TESTING)
theorem touchExecHoldupTestRequest_all (h : ∀ q, A q) : touchExecHoldupTestRequest A := ⟨touchGuarded_all h, h _⟩
theorem execHoldupTestRequest_next {sess : ℕ} (hA : touchExecHoldupTestRequest A) : ∃ u, execHoldupTestRequest sess s = .next u ∧ Keeps A s u := by
  unfold execHoldupTestRequest
  have h := Keeps.refl A s
  refine ⟨_, rfl, ?_⟩
  obtain ⟨_, _⟩ := hA
  repeat' (first
    | with_reducible assumption
    | intro y
    | (with_reducible apply guarded_keeps (hA := by first | with_reducible assumption | with_reducible apply_assumption))
    | with_reducible apply when_keeps
    | (with_reducible refine put_keepsAt (by assumption) ?_)
    | (with_reducible refine put_keeps (by assumption) ?_)
    | with_reducible apply keeps_ite
    | split)

def touchExecHoldupTestDone (A : Part → Prop) : Prop := A (.reg R.PWR_HOLDUP.VSTORE) ∧ A (.reg R.PWR_HOLDUP.E_USABLE) ∧ A (.reg R.PWR_HOLDUP.TESTING) ∧ touchHoldupShow A ∧ A .boot ∧ touchLog A
theorem touchExecHoldupTestDone_all (h : ∀ q, A q) : touchExecHoldupTestDone A := ⟨h _, h _, h _, touchHoldupShow_all h, h _, touchLog_all h⟩
theorem execHoldupTestDone_next {e : ℕ} {v : ℕ} (hA : touchExecHoldupTestDone A) : ∃ u, execHoldupTestDone e v s = .next u ∧ Keeps A s u := by
  unfold execHoldupTestDone
  have h := Keeps.refl A s
  refine ⟨_, rfl, ?_⟩
  obtain ⟨_, _, _, _, _, _⟩ := hA
  repeat' (first
    | with_reducible assumption
    | intro y
    | (extract_lets +onlyGivenNames x; first | (refine cut (P := Keeps A s x) ?_ ?_; (on_goal 1 => (unfold x; clear x)); (on_goal 2 => (intro hx; first | clear_value x | skip))) | clear_value x | skip)
    | (with_reducible refine put_keepsAt (by assumption) ?_)
    | (with_reducible refine put_keeps (by assumption) ?_)
    | (with_reducible refine putMax_keepsAt (by assumption) ?_)
    | (with_reducible refine putMax_keeps (by assumption) ?_)
    | (with_reducible apply holdupShow_keeps (hA := by first | with_reducible assumption | with_reducible apply_assumption))
    | (with_reducible apply log_keeps (hA := by first | with_reducible assumption | with_reducible apply_assumption))
    | with_reducible apply keeps_ite
    | split
    | refine keeps_ite ?_ ?_
    | with_reducible exact keeps_boot (by assumption) (by assumption))

def touchExecVbatLow (A : Part → Prop) : Prop := A .boot ∧ A (.reg R.PWR_SUPPLY_STAT.VBAT_SEEN) ∧ A (.reg R.PWR_SUPPLY_STAT.VBAT_LOW) ∧ A (.reg R.PWR_VMON.VBAT) ∧ touchLog A
theorem touchExecVbatLow_all (h : ∀ q, A q) : touchExecVbatLow A := ⟨h _, h _, h _, h _, touchLog_all h⟩
theorem execVbatLow_next {mv : ℕ} (hA : touchExecVbatLow A) : ∃ u, execVbatLow mv s = .next u ∧ Keeps A s u := by
  unfold execVbatLow
  have h := Keeps.refl A s
  refine ⟨_, rfl, ?_⟩
  obtain ⟨_, _, _, _, _⟩ := hA
  repeat' (first
    | with_reducible assumption
    | intro y
    | (extract_lets +onlyGivenNames x; first | (refine cut (P := Keeps A s x) ?_ ?_; (on_goal 1 => (unfold x; clear x)); (on_goal 2 => (intro hx; first | clear_value x | skip))) | clear_value x | skip)
    | (with_reducible refine put_keepsAt (by assumption) ?_)
    | (with_reducible refine put_keeps (by assumption) ?_)
    | (with_reducible refine putMax_keepsAt (by assumption) ?_)
    | (with_reducible refine putMax_keeps (by assumption) ?_)
    | (with_reducible apply log_keeps (hA := by first | with_reducible assumption | with_reducible apply_assumption))
    | with_reducible apply keeps_ite
    | split
    | refine keeps_ite ?_ ?_
    | with_reducible exact keeps_boot (by assumption) (by assumption))

def touchExecVbatRestored (A : Part → Prop) : Prop := A (.reg R.PWR_SUPPLY_STAT.VBAT_LOW) ∧ A (.reg R.PWR_VMON.VBAT)
theorem touchExecVbatRestored_all (h : ∀ q, A q) : touchExecVbatRestored A := ⟨h _, h _⟩
theorem execVbatRestored_next {mv : ℕ} (hA : touchExecVbatRestored A) : ∃ u, execVbatRestored mv s = .next u ∧ Keeps A s u := by
  unfold execVbatRestored
  have h := Keeps.refl A s
  refine ⟨_, rfl, ?_⟩
  obtain ⟨_, _⟩ := hA
  repeat' (first
    | with_reducible assumption
    | intro y
    | (with_reducible refine put_keepsAt (by assumption) ?_)
    | (with_reducible refine put_keeps (by assumption) ?_)
    | (with_reducible refine putMax_keepsAt (by assumption) ?_)
    | (with_reducible refine putMax_keeps (by assumption) ?_)
    | with_reducible apply keeps_ite
    | split)

def touchQuietRequest (A : Part → Prop) : Prop := touchToQuiet A ∧ A (.reg R.PWR_STATE.RESULT) ∧ A (.reg R.PWR_STATE.CMD)
theorem touchQuietRequest_all (h : ∀ q, A q) : touchQuietRequest A := ⟨touchToQuiet_all h, h _, h _⟩
theorem quietRequest_keeps  (hA : touchQuietRequest A)  (h : Keeps A s t) : Keeps A s (State.quietRequest t) := by
  unfold State.quietRequest
  obtain ⟨_, _, _⟩ := hA
  repeat' (first
    | with_reducible assumption
    | intro y
    | (with_reducible apply toQuiet_keeps (hA := by first | with_reducible assumption | with_reducible apply_assumption))
    | (with_reducible refine put_keepsAt (by assumption) ?_)
    | (with_reducible refine put_keeps (by assumption) ?_)
    | with_reducible apply keeps_ite
    | split)

def touchExecQuietRequest (A : Part → Prop) : Prop := touchGuarded A ∧ touchQuietRequest A
theorem touchExecQuietRequest_all (h : ∀ q, A q) : touchExecQuietRequest A := ⟨touchGuarded_all h, touchQuietRequest_all h⟩
theorem execQuietRequest_next {sess : ℕ} (hA : touchExecQuietRequest A) : ∃ u, execQuietRequest sess s = .next u ∧ Keeps A s u := by
  unfold execQuietRequest
  have h := Keeps.refl A s
  refine ⟨_, rfl, ?_⟩
  obtain ⟨_, _⟩ := hA
  repeat' (first
    | with_reducible assumption
    | intro y
    | (with_reducible apply guarded_keeps (hA := by first | with_reducible assumption | with_reducible apply_assumption))
    | (with_reducible apply quietRequest_keeps (hA := by first | with_reducible assumption | with_reducible apply_assumption))
    | with_reducible apply keeps_ite
    | split)

def touchRunRequest (A : Part → Prop) : Prop := A (.reg R.PWR_STATE.CMD) ∧ A (.reg R.PWR_STATE.RESULT) ∧ touchGden A ∧ A (.reg R.PWR_STATE.STATE)
theorem touchRunRequest_all (h : ∀ q, A q) : touchRunRequest A := ⟨h _, h _, touchGden_all h, h _⟩
theorem runRequest_keeps  (hA : touchRunRequest A)  (h : Keeps A s t) : Keeps A s (State.runRequest t) := by
  unfold State.runRequest
  obtain ⟨_, _, _, _⟩ := hA
  repeat' (first
    | with_reducible assumption
    | intro y
    | (extract_lets +onlyGivenNames x; first | (refine cut (P := Keeps A s x) ?_ ?_; (on_goal 1 => (unfold x; clear x)); (on_goal 2 => (intro hx; first | clear_value x | skip))) | clear_value x | skip)
    | (with_reducible refine put_keepsAt (by assumption) ?_)
    | (with_reducible refine put_keeps (by assumption) ?_)
    | (with_reducible apply gden_keeps (hA := by first | with_reducible assumption | with_reducible apply_assumption))
    | with_reducible apply keeps_ite
    | split
    | refine keeps_ite ?_ ?_)

def touchExecRunRequest (A : Part → Prop) : Prop := touchGuarded A ∧ touchRunRequest A
theorem touchExecRunRequest_all (h : ∀ q, A q) : touchExecRunRequest A := ⟨touchGuarded_all h, touchRunRequest_all h⟩
theorem execRunRequest_next {sess : ℕ} (hA : touchExecRunRequest A) : ∃ u, execRunRequest sess s = .next u ∧ Keeps A s u := by
  unfold execRunRequest
  have h := Keeps.refl A s
  refine ⟨_, rfl, ?_⟩
  obtain ⟨_, _⟩ := hA
  repeat' (first
    | with_reducible assumption
    | intro y
    | (with_reducible apply guarded_keeps (hA := by first | with_reducible assumption | with_reducible apply_assumption))
    | (with_reducible apply runRequest_keeps (hA := by first | with_reducible assumption | with_reducible apply_assumption))
    | with_reducible apply keeps_ite
    | split)

def touchDormant (A : Part → Prop) : Prop := A .pins ∧ A .boot ∧ touchLeaveAll A ∧ (∀ x0, touchLswState A x0) ∧ A (.reg R.LSW_CH_CTRL.ON) ∧ touchRetain A ∧ touchResetHidden A ∧ A (.reg R.PWR_DOM_STAT.IN_RST) ∧ A (.reg R.PWR_DOM_STAT.ON) ∧ A (.reg R.PWR_STATE.STATE) ∧ A (.reg R.SYS_READY.RDY)
theorem touchDormant_all (h : ∀ q, A q) : touchDormant A := ⟨h _, h _, touchLeaveAll_all h, fun _ => touchLswState_all h, h _, touchRetain_all h, touchResetHidden_all h, h _, h _, h _, h _⟩
theorem dormant_keeps  (hA : touchDormant A)  (h : Keeps A s t) : Keeps A s (State.dormant t) := by
  unfold State.dormant
  obtain ⟨_, _, _, _, _, _, _, _, _, _, _⟩ := hA
  repeat' (first
    | with_reducible assumption
    | intro y
    | (extract_lets +onlyGivenNames x; first | (refine cut (P := Keeps A s x) ?_ ?_; (on_goal 1 => (unfold x; clear x)); (on_goal 2 => (intro hx; first | clear_value x | skip))) | clear_value x | skip)
    | (with_reducible apply leaveAll_keeps (hA := by first | with_reducible assumption | with_reducible apply_assumption))
    | with_reducible apply each_keeps
    | (with_reducible apply lswState_keeps (hA := by first | with_reducible assumption | with_reducible apply_assumption))
    | (with_reducible refine put_keepsAt (by assumption) ?_)
    | (with_reducible refine put_keeps (by assumption) ?_)
    | (with_reducible apply retain_keeps (hA := by first | with_reducible assumption | with_reducible apply_assumption))
    | (with_reducible apply resetHidden_keeps (hA := by first | with_reducible assumption | with_reducible apply_assumption))
    | with_reducible apply keeps_ite
    | split
    | refine keeps_ite ?_ ?_
    | with_reducible exact keeps_pins (by assumption) (by assumption)
    | with_reducible exact keeps_boot (by assumption) (by assumption))

def touchDormantRequest (A : Part → Prop) : Prop := A (.reg R.PWR_STATE.CMD) ∧ A (.reg R.PWR_STATE.RESULT) ∧ touchDormant A
theorem touchDormantRequest_all (h : ∀ q, A q) : touchDormantRequest A := ⟨h _, h _, touchDormant_all h⟩
theorem dormantRequest_keeps  (hA : touchDormantRequest A)  (h : Keeps A s t) : Keeps A s (State.dormantRequest t) := by
  unfold State.dormantRequest
  obtain ⟨_, _, _⟩ := hA
  repeat' (first
    | with_reducible assumption
    | intro y
    | (extract_lets +onlyGivenNames x; first | (refine cut (P := Keeps A s x) ?_ ?_; (on_goal 1 => (unfold x; clear x)); (on_goal 2 => (intro hx; first | clear_value x | skip))) | clear_value x | skip)
    | (with_reducible refine put_keepsAt (by assumption) ?_)
    | (with_reducible refine put_keeps (by assumption) ?_)
    | (with_reducible apply dormant_keeps (hA := by first | with_reducible assumption | with_reducible apply_assumption))
    | with_reducible apply keeps_ite
    | split
    | refine keeps_ite ?_ ?_)

def touchExecDormantRequest (A : Part → Prop) : Prop := touchGuarded A ∧ touchDormantRequest A
theorem touchExecDormantRequest_all (h : ∀ q, A q) : touchExecDormantRequest A := ⟨touchGuarded_all h, touchDormantRequest_all h⟩
theorem execDormantRequest_next {sess : ℕ} (hA : touchExecDormantRequest A) : ∃ u, execDormantRequest sess s = .next u ∧ Keeps A s u := by
  unfold execDormantRequest
  have h := Keeps.refl A s
  refine ⟨_, rfl, ?_⟩
  obtain ⟨_, _⟩ := hA
  repeat' (first
    | with_reducible assumption
    | intro y
    | (with_reducible apply guarded_keeps (hA := by first | with_reducible assumption | with_reducible apply_assumption))
    | (with_reducible apply dormantRequest_keeps (hA := by first | with_reducible assumption | with_reducible apply_assumption))
    | with_reducible apply keeps_ite
    | split)

def touchExecWake (A : Part → Prop) : Prop := A .boot ∧ A (.reg R.PWR_STATE.STATE) ∧ A (.reg R.PWR_WAKE.SRC) ∧ touchWarmReset A
theorem touchExecWake_all (h : ∀ q, A q) : touchExecWake A := ⟨h _, h _, h _, touchWarmReset_all h⟩
theorem execWake_next {src : ℕ} {o : Sys2Proof.BootObs} (hA : touchExecWake A) : ∃ u, execWake src o s = .next u ∧ Keeps A s u := by
  unfold execWake
  have h := Keeps.refl A s
  refine ⟨_, rfl, ?_⟩
  obtain ⟨_, _, _, _⟩ := hA
  repeat' (first
    | with_reducible assumption
    | intro y
    | (extract_lets +onlyGivenNames x; first | (refine cut (P := Keeps A s x) ?_ ?_; (on_goal 1 => (unfold x; clear x)); (on_goal 2 => (intro hx; first | clear_value x | skip))) | clear_value x | skip)
    | (with_reducible refine put_keepsAt (by assumption) ?_)
    | (with_reducible refine put_keeps (by assumption) ?_)
    | (with_reducible apply warmReset_keeps (hA := by first | with_reducible assumption | with_reducible apply_assumption))
    | with_reducible apply keeps_ite
    | split
    | refine keeps_ite ?_ ?_
    | with_reducible exact keeps_boot (by assumption) (by assumption))

def touchAuxGuarded (A : Part → Prop) : Prop := touchGuarded A ∧ touchReport A
theorem touchAuxGuarded_all (h : ∀ q, A q) : touchAuxGuarded A := ⟨touchGuarded_all h, touchReport_all h⟩
theorem auxGuarded_keeps {sess : ℕ} {a : ℕ} {f : Sys2Proof.Machine.Field} {g : Sys2Proof.Machine.State → Sys2Proof.Machine.State} (hA : touchAuxGuarded A) (hg : ∀ y0, Keeps A s y0 → Keeps A s (g y0)) (h : Keeps A s t) : Keeps A s (State.auxGuarded t sess a f g) := by
  unfold State.auxGuarded
  obtain ⟨_, _⟩ := hA
  repeat' (first
    | with_reducible assumption
    | intro y
    | (with_reducible apply guarded_keeps (hA := by first | with_reducible assumption | with_reducible apply_assumption))
    | (with_reducible apply report_keeps (hA := by first | with_reducible assumption | with_reducible apply_assumption))
    | with_reducible apply keeps_ite
    | with_reducible apply hg
    | split)

def touchExecAuxEnable (A : Part → Prop) (a : Nat) : Prop := touchAuxGuarded A ∧ touchAuxWrite A a
theorem touchExecAuxEnable_all (h : ∀ q, A q) {a : Nat} : touchExecAuxEnable A a := ⟨touchAuxGuarded_all h, touchAuxWrite_all h⟩
theorem execAuxEnable_next {sess : ℕ} {a : ℕ} (hA : touchExecAuxEnable A a) : ∃ u, execAuxEnable sess a s = .next u ∧ Keeps A s u := by
  unfold execAuxEnable
  have h := Keeps.refl A s
  refine ⟨_, rfl, ?_⟩
  obtain ⟨_, _⟩ := hA
  repeat' (first
    | with_reducible assumption
    | intro y
    | (with_reducible apply auxGuarded_keeps (hA := by first | with_reducible assumption | with_reducible apply_assumption))
    | (with_reducible apply auxWrite_keeps (hA := by first | with_reducible assumption | with_reducible apply_assumption))
    | with_reducible apply keeps_ite
    | split)

def touchExecAuxStop (A : Part → Prop) (a : Nat) : Prop := touchAuxGuarded A ∧ touchAuxWrite A a
theorem touchExecAuxStop_all (h : ∀ q, A q) {a : Nat} : touchExecAuxStop A a := ⟨touchAuxGuarded_all h, touchAuxWrite_all h⟩
theorem execAuxStop_next {sess : ℕ} {a : ℕ} (hA : touchExecAuxStop A a) : ∃ u, execAuxStop sess a s = .next u ∧ Keeps A s u := by
  unfold execAuxStop
  have h := Keeps.refl A s
  refine ⟨_, rfl, ?_⟩
  obtain ⟨_, _⟩ := hA
  repeat' (first
    | with_reducible assumption
    | intro y
    | (with_reducible apply auxGuarded_keeps (hA := by first | with_reducible assumption | with_reducible apply_assumption))
    | (with_reducible apply auxWrite_keeps (hA := by first | with_reducible assumption | with_reducible apply_assumption))
    | with_reducible apply keeps_ite
    | split)

def touchExecAuxSetpointChange (A : Part → Prop) : Prop := touchSetAux A
theorem touchExecAuxSetpointChange_all (h : ∀ q, A q) : touchExecAuxSetpointChange A := touchSetAux_all h
theorem execAuxSetpointChange_next {pair : ℕ} {v : ℕ} {us : ℕ} (hA : touchExecAuxSetpointChange A) : ∃ u, execAuxSetpointChange pair v us s = .next u ∧ Keeps A s u := by
  unfold execAuxSetpointChange
  have h := Keeps.refl A s
  refine ⟨_, rfl, ?_⟩
  unfold touchExecAuxSetpointChange at hA
  repeat' (first
    | with_reducible assumption
    | intro y
    | (extract_lets +onlyGivenNames x; first | (refine cut (P := Keeps A s x) ?_ ?_; (on_goal 1 => (unfold x; clear x)); (on_goal 2 => (intro hx; first | clear_value x | skip))) | clear_value x | skip)
    | with_reducible apply each_keeps
    | (with_reducible apply setAux_keeps (hA := by first | with_reducible assumption | with_reducible apply_assumption))
    | with_reducible apply keeps_ite
    | split)

def touchExecAuxPgood (A : Part → Prop) (a : Nat) : Prop := A (.inst R.PWR_AUX_STAT.PGOOD a 0) ∧ touchAuxFb A a ∧ touchSetAux A ∧ touchGden A ∧ A (.inst R.PWR_AUX_STAT.MODE a 0)
theorem touchExecAuxPgood_all (h : ∀ q, A q) {a : Nat} : touchExecAuxPgood A a := ⟨h _, touchAuxFb_all h, touchSetAux_all h, touchGden_all h, h _⟩
theorem execAuxPgood_next {a : ℕ} {fb : ℕ} {us : ℕ} (hA : touchExecAuxPgood A a) : ∃ u, execAuxPgood a fb us s = .next u ∧ Keeps A s u := by
  unfold execAuxPgood
  have h := Keeps.refl A s
  refine ⟨_, rfl, ?_⟩
  obtain ⟨_, _, _, _, _⟩ := hA
  repeat' (first
    | with_reducible assumption
    | intro y
    | (extract_lets +onlyGivenNames x; first | (refine cut (P := Keeps A s x) ?_ ?_; (on_goal 1 => (unfold x; clear x)); (on_goal 2 => (intro hx; first | clear_value x | skip))) | clear_value x | skip)
    | (with_reducible refine put_keepsAt (by assumption) ?_)
    | (with_reducible refine put_keeps (by assumption) ?_)
    | (with_reducible apply auxFb_keeps (hA := by first | with_reducible assumption | with_reducible apply_assumption))
    | (with_reducible apply setAux_keeps (hA := by first | with_reducible assumption | with_reducible apply_assumption))
    | (with_reducible apply gden_keeps (hA := by first | with_reducible assumption | with_reducible apply_assumption))
    | with_reducible apply keeps_ite
    | split
    | refine keeps_ite ?_ ?_)

def touchExecAuxPgoodLoss (A : Part → Prop) (a : Nat) : Prop := touchPgoodFalls A a ∧ touchAuxFb A a
theorem touchExecAuxPgoodLoss_all (h : ∀ q, A q) {a : Nat} : touchExecAuxPgoodLoss A a := ⟨touchPgoodFalls_all h, touchAuxFb_all h⟩
theorem execAuxPgoodLoss_next {a : ℕ} {fb : ℕ} (hA : touchExecAuxPgoodLoss A a) : ∃ u, execAuxPgoodLoss a fb s = .next u ∧ Keeps A s u := by
  unfold execAuxPgoodLoss
  have h := Keeps.refl A s
  refine ⟨_, rfl, ?_⟩
  obtain ⟨_, _⟩ := hA
  repeat' (first
    | with_reducible assumption
    | intro y
    | (extract_lets +onlyGivenNames x; first | (refine cut (P := Keeps A s x) ?_ ?_; (on_goal 1 => (unfold x; clear x)); (on_goal 2 => (intro hx; first | clear_value x | skip))) | clear_value x | skip)
    | (with_reducible apply pgoodFalls_keeps (hA := by first | with_reducible assumption | with_reducible apply_assumption))
    | (with_reducible apply auxFb_keeps (hA := by first | with_reducible assumption | with_reducible apply_assumption))
    | with_reducible apply keeps_ite
    | split
    | refine keeps_ite ?_ ?_)

def touchExecAuxFeedbackFault (A : Part → Prop) (a : Nat) : Prop := touchLog A ∧ A (.inst R.PWR_AUX_STAT.FB_FAULT a 0) ∧ touchAuxStop A a
theorem touchExecAuxFeedbackFault_all (h : ∀ q, A q) {a : Nat} : touchExecAuxFeedbackFault A a := ⟨touchLog_all h, h _, touchAuxStop_all h⟩
theorem execAuxFeedbackFault_next {a : ℕ} {ms : ℕ} (hA : touchExecAuxFeedbackFault A a) : ∃ u, execAuxFeedbackFault a ms s = .next u ∧ Keeps A s u := by
  unfold execAuxFeedbackFault
  have h := Keeps.refl A s
  refine ⟨_, rfl, ?_⟩
  obtain ⟨_, _, _⟩ := hA
  repeat' (first
    | with_reducible assumption
    | intro y
    | (extract_lets +onlyGivenNames x; first | (refine cut (P := Keeps A s x) ?_ ?_; (on_goal 1 => (unfold x; clear x)); (on_goal 2 => (intro hx; first | clear_value x | skip))) | clear_value x | skip)
    | (with_reducible refine put_keepsAt (by assumption) ?_)
    | (with_reducible refine put_keeps (by assumption) ?_)
    | (with_reducible apply log_keeps (hA := by first | with_reducible assumption | with_reducible apply_assumption))
    | (with_reducible apply auxStop_keeps (hA := by first | with_reducible assumption | with_reducible apply_assumption))
    | with_reducible apply keeps_ite
    | split
    | refine keeps_ite ?_ ?_)

def touchExecAuxBurstSleep (A : Part → Prop) (a : Nat) : Prop := touchSetAux A ∧ A (.inst R.PWR_AUX_STAT.MODE a 0) ∧ touchAuxLow A
theorem touchExecAuxBurstSleep_all (h : ∀ q, A q) {a : Nat} : touchExecAuxBurstSleep A a := ⟨touchSetAux_all h, h _, touchAuxLow_all h⟩
theorem execAuxBurstSleep_next {a : ℕ} {n : ℕ} (hA : touchExecAuxBurstSleep A a) : ∃ u, execAuxBurstSleep a n s = .next u ∧ Keeps A s u := by
  unfold execAuxBurstSleep
  have h := Keeps.refl A s
  refine ⟨_, rfl, ?_⟩
  obtain ⟨_, _, _⟩ := hA
  repeat' (first
    | with_reducible assumption
    | intro y
    | (extract_lets +onlyGivenNames x; first | (refine cut (P := Keeps A s x) ?_ ?_; (on_goal 1 => (unfold x; clear x)); (on_goal 2 => (intro hx; first | clear_value x | skip))) | clear_value x | skip)
    | (with_reducible refine put_keepsAt (by assumption) ?_)
    | (with_reducible refine put_keeps (by assumption) ?_)
    | (with_reducible apply setAux_keeps (hA := by first | with_reducible assumption | with_reducible apply_assumption))
    | (with_reducible apply auxLow_keeps (hA := by first | with_reducible assumption | with_reducible apply_assumption))
    | with_reducible apply keeps_ite
    | split
    | refine keeps_ite ?_ ?_)

def touchExecAuxBurstWake (A : Part → Prop) (a : Nat) : Prop := touchSetAux A ∧ A (.inst R.PWR_AUX_STAT.MODE a 0) ∧ touchAuxFb A a
theorem touchExecAuxBurstWake_all (h : ∀ q, A q) {a : Nat} : touchExecAuxBurstWake A a := ⟨touchSetAux_all h, h _, touchAuxFb_all h⟩
theorem execAuxBurstWake_next {a : ℕ} {fb : ℕ} (hA : touchExecAuxBurstWake A a) : ∃ u, execAuxBurstWake a fb s = .next u ∧ Keeps A s u := by
  unfold execAuxBurstWake
  have h := Keeps.refl A s
  refine ⟨_, rfl, ?_⟩
  obtain ⟨_, _, _⟩ := hA
  repeat' (first
    | with_reducible assumption
    | intro y
    | (extract_lets +onlyGivenNames x; first | (refine cut (P := Keeps A s x) ?_ ?_; (on_goal 1 => (unfold x; clear x)); (on_goal 2 => (intro hx; first | clear_value x | skip))) | clear_value x | skip)
    | (with_reducible refine put_keepsAt (by assumption) ?_)
    | (with_reducible refine put_keeps (by assumption) ?_)
    | (with_reducible apply setAux_keeps (hA := by first | with_reducible assumption | with_reducible apply_assumption))
    | (with_reducible apply auxFb_keeps (hA := by first | with_reducible assumption | with_reducible apply_assumption))
    | with_reducible apply keeps_ite
    | split
    | refine keeps_ite ?_ ?_)

def touchExecAuxSyncLock (A : Part → Prop) (a : Nat) : Prop := A (.reg R.PWR_SYNC.PRESENT) ∧ A (.reg R.PWR_SYNC.FSYNC) ∧ A (.inst R.PWR_AUX_STAT.SYNCED a 0) ∧ touchSetAux A ∧ touchLog A
theorem touchExecAuxSyncLock_all (h : ∀ q, A q) {a : Nat} : touchExecAuxSyncLock A a := ⟨h _, h _, h _, touchSetAux_all h, touchLog_all h⟩
theorem execAuxSyncLock_next {a : ℕ} {n : ℕ} {f : ℕ} (hA : touchExecAuxSyncLock A a) : ∃ u, execAuxSyncLock a n f s = .next u ∧ Keeps A s u := by
  unfold execAuxSyncLock
  have h := Keeps.refl A s
  refine ⟨_, rfl, ?_⟩
  obtain ⟨_, _, _, _, _⟩ := hA
  repeat' (first
    | with_reducible assumption
    | intro y
    | (extract_lets +onlyGivenNames x; first | (refine cut (P := Keeps A s x) ?_ ?_; (on_goal 1 => (unfold x; clear x)); (on_goal 2 => (intro hx; first | clear_value x | skip))) | clear_value x | skip)
    | (with_reducible refine put_keepsAt (by assumption) ?_)
    | (with_reducible refine put_keeps (by assumption) ?_)
    | (with_reducible refine putMax_keepsAt (by assumption) ?_)
    | (with_reducible refine putMax_keeps (by assumption) ?_)
    | (with_reducible apply setAux_keeps (hA := by first | with_reducible assumption | with_reducible apply_assumption))
    | (with_reducible apply log_keeps (hA := by first | with_reducible assumption | with_reducible apply_assumption))
    | with_reducible apply keeps_ite
    | split
    | refine keeps_ite ?_ ?_)

def touchExecAuxSyncLost (A : Part → Prop) (a : Nat) : Prop := A (.inst R.PWR_AUX_STAT.SYNC_LOST a 0) ∧ A (.inst R.PWR_AUX_STAT.SYNCED a 0) ∧ touchLog A ∧ touchSetAux A
theorem touchExecAuxSyncLost_all (h : ∀ q, A q) {a : Nat} : touchExecAuxSyncLost A a := ⟨h _, h _, touchLog_all h, touchSetAux_all h⟩
theorem execAuxSyncLost_next {a : ℕ} {t0 : ℕ} (hA : touchExecAuxSyncLost A a) : ∃ u, execAuxSyncLost a t0 s = .next u ∧ Keeps A s u := by
  unfold execAuxSyncLost
  have h := Keeps.refl A s
  refine ⟨_, rfl, ?_⟩
  obtain ⟨_, _, _, _⟩ := hA
  repeat' (first
    | with_reducible assumption
    | intro y
    | (extract_lets +onlyGivenNames x; first | (refine cut (P := Keeps A s x) ?_ ?_; (on_goal 1 => (unfold x; clear x)); (on_goal 2 => (intro hx; first | clear_value x | skip))) | clear_value x | skip)
    | (with_reducible refine put_keepsAt (by assumption) ?_)
    | (with_reducible refine put_keeps (by assumption) ?_)
    | (with_reducible apply log_keeps (hA := by first | with_reducible assumption | with_reducible apply_assumption))
    | (with_reducible apply setAux_keeps (hA := by first | with_reducible assumption | with_reducible apply_assumption))
    | with_reducible apply keeps_ite
    | split
    | refine keeps_ite ?_ ?_)

def touchExecAuxTruncation (A : Part → Prop) (a : Nat) : Prop := A (.inst R.PWR_AUX_CNT.TRUNC a 0) ∧ touchAuxLow A ∧ touchAuxFb A a
theorem touchExecAuxTruncation_all (h : ∀ q, A q) {a : Nat} : touchExecAuxTruncation A a := ⟨h _, touchAuxLow_all h, touchAuxFb_all h⟩
theorem execAuxTruncation_next {a : ℕ} {fb : ℕ} (hA : touchExecAuxTruncation A a) : ∃ u, execAuxTruncation a fb s = .next u ∧ Keeps A s u := by
  unfold execAuxTruncation
  have h := Keeps.refl A s
  refine ⟨_, rfl, ?_⟩
  obtain ⟨_, _, _⟩ := hA
  repeat' (first
    | with_reducible assumption
    | intro y
    | (with_reducible refine inc_keepsAt (by assumption) ?_)
    | (with_reducible refine inc_keeps (by assumption) ?_)
    | (with_reducible apply auxLow_keeps (hA := by first | with_reducible assumption | with_reducible apply_assumption))
    | (with_reducible apply auxFb_keeps (hA := by first | with_reducible assumption | with_reducible apply_assumption))
    | with_reducible apply keeps_ite
    | split)

def touchExecAuxBraking (A : Part → Prop) (a : Nat) : Prop := A (.inst R.PWR_AUX_STAT.BRAKE_SEEN a 0) ∧ A (.inst R.PWR_AUX_STAT.MODE a 0) ∧ touchAuxLow A ∧ touchAuxFb A a ∧ touchLog A ∧ A (.inst R.PWR_AUX_CNT.BRAKE a 0)
theorem touchExecAuxBraking_all (h : ∀ q, A q) {a : Nat} : touchExecAuxBraking A a := ⟨h _, h _, touchAuxLow_all h, touchAuxFb_all h, touchLog_all h, h _⟩
theorem execAuxBraking_next {a : ℕ} {fb : ℕ} {n : ℕ} (hA : touchExecAuxBraking A a) : ∃ u, execAuxBraking a fb n s = .next u ∧ Keeps A s u := by
  unfold execAuxBraking
  have h := Keeps.refl A s
  refine ⟨_, rfl, ?_⟩
  obtain ⟨_, _, _, _, _, _⟩ := hA
  repeat' (first
    | with_reducible assumption
    | intro y
    | (extract_lets +onlyGivenNames x; first | (refine cut (P := Keeps A s x) ?_ ?_; (on_goal 1 => (unfold x; clear x)); (on_goal 2 => (intro hx; first | clear_value x | skip))) | clear_value x | skip)
    | (with_reducible refine put_keepsAt (by assumption) ?_)
    | (with_reducible refine put_keeps (by assumption) ?_)
    | (with_reducible apply auxLow_keeps (hA := by first | with_reducible assumption | with_reducible apply_assumption))
    | (with_reducible apply auxFb_keeps (hA := by first | with_reducible assumption | with_reducible apply_assumption))
    | (with_reducible apply log_keeps (hA := by first | with_reducible assumption | with_reducible apply_assumption))
    | (with_reducible refine inc_keepsAt (by assumption) ?_)
    | (with_reducible refine inc_keeps (by assumption) ?_)
    | with_reducible apply keeps_ite
    | split
    | refine keeps_ite ?_ ?_)

def touchExecAuxBrakeRelease (A : Part → Prop) (a : Nat) : Prop := A (.inst R.PWR_AUX_STAT.MODE a 0) ∧ touchAuxFb A a
theorem touchExecAuxBrakeRelease_all (h : ∀ q, A q) {a : Nat} : touchExecAuxBrakeRelease A a := ⟨h _, touchAuxFb_all h⟩
theorem execAuxBrakeRelease_next {a : ℕ} {fb : ℕ} (hA : touchExecAuxBrakeRelease A a) : ∃ u, execAuxBrakeRelease a fb s = .next u ∧ Keeps A s u := by
  unfold execAuxBrakeRelease
  have h := Keeps.refl A s
  refine ⟨_, rfl, ?_⟩
  obtain ⟨_, _⟩ := hA
  repeat' (first
    | with_reducible assumption
    | intro y
    | (extract_lets +onlyGivenNames x; first | (refine cut (P := Keeps A s x) ?_ ?_; (on_goal 1 => (unfold x; clear x)); (on_goal 2 => (intro hx; first | clear_value x | skip))) | clear_value x | skip)
    | (with_reducible refine put_keepsAt (by assumption) ?_)
    | (with_reducible refine put_keeps (by assumption) ?_)
    | (with_reducible apply auxFb_keeps (hA := by first | with_reducible assumption | with_reducible apply_assumption))
    | with_reducible apply keeps_ite
    | split
    | refine keeps_ite ?_ ?_)

def touchExecAuxThermalWarning (A : Part → Prop) (a : Nat) : Prop := A (.inst R.PWR_AUX_STAT.TWARN a 0) ∧ touchLog A
theorem touchExecAuxThermalWarning_all (h : ∀ q, A q) {a : Nat} : touchExecAuxThermalWarning A a := ⟨h _, touchLog_all h⟩
theorem execAuxThermalWarning_next {a : ℕ} (hA : touchExecAuxThermalWarning A a) : ∃ u, execAuxThermalWarning a s = .next u ∧ Keeps A s u := by
  unfold execAuxThermalWarning
  have h := Keeps.refl A s
  refine ⟨_, rfl, ?_⟩
  obtain ⟨_, _⟩ := hA
  repeat' (first
    | with_reducible assumption
    | intro y
    | (extract_lets +onlyGivenNames x; first | (refine cut (P := Keeps A s x) ?_ ?_; (on_goal 1 => (unfold x; clear x)); (on_goal 2 => (intro hx; first | clear_value x | skip))) | clear_value x | skip)
    | (with_reducible refine putb_keepsAt (by assumption) ?_)
    | (with_reducible refine putb_keeps (by assumption) ?_)
    | (with_reducible apply log_keeps (hA := by first | with_reducible assumption | with_reducible apply_assumption))
    | with_reducible apply keeps_ite
    | split
    | refine keeps_ite ?_ ?_)

def touchExecAuxThermalShutdown (A : Part → Prop) (a : Nat) : Prop := touchLog A ∧ A (.inst R.PWR_AUX_STAT.TSHUT_SEEN a 0) ∧ touchAuxStop A a
theorem touchExecAuxThermalShutdown_all (h : ∀ q, A q) {a : Nat} : touchExecAuxThermalShutdown A a := ⟨touchLog_all h, h _, touchAuxStop_all h⟩
theorem execAuxThermalShutdown_next {a : ℕ} (hA : touchExecAuxThermalShutdown A a) : ∃ u, execAuxThermalShutdown a s = .next u ∧ Keeps A s u := by
  unfold execAuxThermalShutdown
  have h := Keeps.refl A s
  refine ⟨_, rfl, ?_⟩
  obtain ⟨_, _, _⟩ := hA
  repeat' (first
    | with_reducible assumption
    | intro y
    | (extract_lets +onlyGivenNames x; first | (refine cut (P := Keeps A s x) ?_ ?_; (on_goal 1 => (unfold x; clear x)); (on_goal 2 => (intro hx; first | clear_value x | skip))) | clear_value x | skip)
    | (with_reducible apply log_keeps (hA := by first | with_reducible assumption | with_reducible apply_assumption))
    | (with_reducible refine put_keepsAt (by assumption) ?_)
    | (with_reducible refine put_keeps (by assumption) ?_)
    | (with_reducible apply auxStop_keeps (hA := by first | with_reducible assumption | with_reducible apply_assumption))
    | with_reducible apply keeps_ite
    | split)

def touchExecAuxThermalRestart (A : Part → Prop) (a : Nat) : Prop := A (.inst R.PWR_AUX_STAT.MODE a 0) ∧ touchAuxStart A a
theorem touchExecAuxThermalRestart_all (h : ∀ q, A q) {a : Nat} : touchExecAuxThermalRestart A a := ⟨h _, touchAuxStart_all h⟩
theorem execAuxThermalRestart_next {a : ℕ} (hA : touchExecAuxThermalRestart A a) : ∃ u, execAuxThermalRestart a s = .next u ∧ Keeps A s u := by
  unfold execAuxThermalRestart
  have h := Keeps.refl A s
  refine ⟨_, rfl, ?_⟩
  obtain ⟨_, _⟩ := hA
  repeat' (first
    | with_reducible assumption
    | intro y
    | (extract_lets +onlyGivenNames x; first | (refine cut (P := Keeps A s x) ?_ ?_; (on_goal 1 => (unfold x; clear x)); (on_goal 2 => (intro hx; first | clear_value x | skip))) | clear_value x | skip)
    | (with_reducible refine put_keepsAt (by assumption) ?_)
    | (with_reducible refine put_keeps (by assumption) ?_)
    | (with_reducible apply auxStart_keeps (hA := by first | with_reducible assumption | with_reducible apply_assumption))
    | with_reducible apply keeps_ite
    | split
    | refine keeps_ite ?_ ?_)

def touchExecSnsSelectChange (A : Part → Prop) : Prop := A (.reg R.LSW_BANK.SSEL) ∧ A (.reg R.LSW_BANK.SNS_VALID) ∧ A .pins
theorem touchExecSnsSelectChange_all (h : ∀ q, A q) : touchExecSnsSelectChange A := ⟨h _, h _, h _⟩
theorem execSnsSelectChange_next {code : ℕ} {us : ℕ} {since : ℕ} {onUs : ℕ} {mv : ℕ} (hA : touchExecSnsSelectChange A) : ∃ u, execSnsSelectChange code us since onUs mv s = .next u ∧ Keeps A s u := by
  unfold execSnsSelectChange
  have h := Keeps.refl A s
  refine ⟨_, rfl, ?_⟩
  obtain ⟨_, _, _⟩ := hA
  repeat' (first
    | with_reducible assumption
    | intro y
    | (extract_lets +onlyGivenNames x; first | (refine cut (P := Keeps A s x) ?_ ?_; (on_goal 1 => (unfold x; clear x)); (on_goal 2 => (intro hx; first | clear_value x | skip))) | clear_value x | skip)
    | (with_reducible refine put_keepsAt (by assumption) ?_)
    | (with_reducible refine put_keeps (by assumption) ?_)
    | (with_reducible refine putb_keepsAt (by assumption) ?_)
    | (with_reducible refine putb_keeps (by assumption) ?_)
    | with_reducible apply keeps_ite
    | split
    | refine keeps_ite ?_ ?_
    | with_reducible exact keeps_pins (by assumption) (by assumption))

end Sys2Proof.Laws
end

