-- ==== Sys2Proof/Laws/KeepsBoot.lean ====
section
/-! SUPPORT. What the operations of Machine/Boot.lean leave alone: for each the parts it may change (`touch…`) and its lemma. -/

namespace Sys2Proof.Laws

open Sys2Proof.Machine

set_option linter.unusedTactic false
set_option linter.unreachableTactic false
set_option linter.unusedVariables false
set_option linter.tactic.unusedName false

variable {A : Part → Prop} {s t : State}

def touchDomainBegin (A : Part → Prop) : Prop := touchResetCause A ∧ touchEnterReset A
theorem touchDomainBegin_all (h : ∀ q, A q) : touchDomainBegin A := ⟨touchResetCause_all h, touchEnterReset_all h⟩
theorem domainBegin_keeps {doms : ℕ} (hA : touchDomainBegin A)  (h : Keeps A s t) : Keeps A s (State.domainBegin t doms) := by
  unfold State.domainBegin
  obtain ⟨_, _⟩ := hA
  repeat' (first
    | with_reducible assumption
    | intro y
    | (extract_lets +onlyGivenNames x; first | (refine cut (P := Keeps A s x) ?_ ?_; (on_goal 1 => (unfold x; clear x)); (on_goal 2 => (intro hx; first | clear_value x | skip))) | (refine cut (P := Keeps A s x.2) ?_ ?_; (on_goal 1 => (unfold x; clear x)); (on_goal 2 => (intro hx; first | clear_value x | skip))) | (refine cut (P := Keeps A s x.2.2) ?_ ?_; (on_goal 1 => (unfold x; clear x)); (on_goal 2 => (intro hx; first | clear_value x | skip))) | clear_value x | skip)
    | (with_reducible apply resetCause_keeps (hA := by first | with_reducible assumption | with_reducible apply_assumption))
    | (with_reducible apply enterReset_keeps (hA := by first | with_reducible assumption | with_reducible apply_assumption))
    | with_reducible apply keeps_ite
    | with_reducible apply keeps_ite2
    | with_reducible apply keeps_ite3
    | split
    | refine keeps_ite ?_ ?_)

def touchApplyWrite (A : Part → Prop) : Prop := A .boot ∧ touchLog A ∧ A (.reg R.SYS_ROLE_CMD.STATUS) ∧ touchLeasesLapse A ∧ touchToQuiet A ∧ A (.reg R.SYS_ROLE_CMD.APPLY) ∧ touchDomainBegin A
theorem touchApplyWrite_all (h : ∀ q, A q) : touchApplyWrite A := ⟨h _, touchLog_all h, h _, touchLeasesLapse_all h, touchToQuiet_all h, h _, touchDomainBegin_all h⟩
theorem applyWrite_keeps  (hA : touchApplyWrite A)  (h : Keeps A s t) : Keeps A s (State.applyWrite t) := by
  unfold State.applyWrite
  obtain ⟨_, _, _, _, _, _, _⟩ := hA
  repeat' (first
    | with_reducible assumption
    | intro y
    | (extract_lets +onlyGivenNames x; first | (refine cut (P := Keeps A s x) ?_ ?_; (on_goal 1 => (unfold x; clear x)); (on_goal 2 => (intro hx; first | clear_value x | skip))) | clear_value x | skip)
    | (with_reducible apply log_keeps (hA := by first | with_reducible assumption | with_reducible apply_assumption))
    | (with_reducible refine put_keepsAt (by assumption) ?_)
    | (with_reducible refine put_keeps (by assumption) ?_)
    | (with_reducible apply leasesLapse_keeps (hA := by first | with_reducible assumption | with_reducible apply_assumption))
    | (with_reducible apply toQuiet_keeps (hA := by first | with_reducible assumption | with_reducible apply_assumption))
    | (with_reducible apply domainBegin_keeps (hA := by first | with_reducible assumption | with_reducible apply_assumption))
    | with_reducible apply keeps_ite
    | split
    | refine keeps_ite ?_ ?_
    | with_reducible exact keeps_boot (by assumption) (by assumption))

def touchExecApply (A : Part → Prop) : Prop := touchGuarded A ∧ touchApplyWrite A
theorem touchExecApply_all (h : ∀ q, A q) : touchExecApply A := ⟨touchGuarded_all h, touchApplyWrite_all h⟩
theorem execApply_next {sess : ℕ} (hA : touchExecApply A) : ∃ u, execApply sess s = .next u ∧ Keeps A s u := by
  unfold execApply
  have h := Keeps.refl A s
  refine ⟨_, rfl, ?_⟩
  obtain ⟨_, _⟩ := hA
  repeat' (first
    | with_reducible assumption
    | intro y
    | (with_reducible apply guarded_keeps (hA := by first | with_reducible assumption | with_reducible apply_assumption))
    | (with_reducible apply applyWrite_keeps (hA := by first | with_reducible assumption | with_reducible apply_assumption))
    | with_reducible apply keeps_ite
    | split)

def touchSwitchEnd (A : Part → Prop) : Prop := touchLog A ∧ A .boot ∧ A (.reg R.UPD_STAT.OP) ∧ A (.reg R.UPD_STAT.BUSY) ∧ A (.reg R.UPD_FW_CMD.STATUS)
theorem touchSwitchEnd_all (h : ∀ q, A q) : touchSwitchEnd A := ⟨touchLog_all h, h _, h _, h _, h _⟩
theorem switchEnd_keeps {doms : ℕ} (hA : touchSwitchEnd A)  (h : Keeps A s t) : Keeps A s (State.switchEnd t doms) := by
  unfold State.switchEnd
  obtain ⟨_, _, _, _, _⟩ := hA
  repeat' (first
    | with_reducible assumption
    | intro y
    | (extract_lets +onlyGivenNames x; first | (refine cut (P := Keeps A s x) ?_ ?_; (on_goal 1 => (unfold x; clear x)); (on_goal 2 => (intro hx; first | clear_value x | skip))) | clear_value x | skip)
    | (with_reducible refine put_keepsAt (by assumption) ?_)
    | (with_reducible refine put_keeps (by assumption) ?_)
    | (with_reducible apply log_keeps (hA := by first | with_reducible assumption | with_reducible apply_assumption))
    | with_reducible apply keeps_ite
    | split
    | refine keeps_ite ?_ ?_
    | with_reducible exact keeps_boot (by assumption) (by assumption))

def touchRstDone (A : Part → Prop) : Prop := A (.reg R.PWR_DOM_RST.RST) ∧ A (.reg R.PWR_DOM_RST.RESULT)
theorem touchRstDone_all (h : ∀ q, A q) : touchRstDone A := ⟨h _, h _⟩
theorem rstDone_keeps {doms : ℕ} (hA : touchRstDone A)  (h : Keeps A s t) : Keeps A s (State.rstDone t doms) := by
  unfold State.rstDone
  obtain ⟨_, _⟩ := hA
  repeat' (first
    | with_reducible assumption
    | intro y
    | (extract_lets +onlyGivenNames x; first | (refine cut (P := Keeps A s x) ?_ ?_; (on_goal 1 => (unfold x; clear x)); (on_goal 2 => (intro hx; first | clear_value x | skip))) | clear_value x | skip)
    | (with_reducible refine put_keepsAt (by assumption) ?_)
    | (with_reducible refine put_keeps (by assumption) ?_)
    | with_reducible apply keeps_ite
    | split
    | refine keeps_ite ?_ ?_)

def touchDomainDone (A : Part → Prop) : Prop := touchExitReset A ∧ touchRstDone A ∧ touchSwitchEnd A ∧ touchLog A
theorem touchDomainDone_all (h : ∀ q, A q) : touchDomainDone A := ⟨touchExitReset_all h, touchRstDone_all h, touchSwitchEnd_all h, touchLog_all h⟩
theorem domainDone_keeps {o : Sys2Proof.BootObs} (hA : touchDomainDone A)  (h : Keeps A s t) : Keeps A s (State.domainDone t o) := by
  unfold State.domainDone
  obtain ⟨_, _, _, _⟩ := hA
  repeat' (first
    | with_reducible assumption
    | intro y
    | (extract_lets +onlyGivenNames x; first | (refine cut (P := Keeps A s x) ?_ ?_; (on_goal 1 => (unfold x; clear x)); (on_goal 2 => (intro hx; first | clear_value x | skip))) | clear_value x | skip)
    | (with_reducible apply exitReset_keeps (hA := by first | with_reducible assumption | with_reducible apply_assumption))
    | (with_reducible apply rstDone_keeps (hA := by first | with_reducible assumption | with_reducible apply_assumption))
    | (with_reducible apply switchEnd_keeps (hA := by first | with_reducible assumption | with_reducible apply_assumption))
    | (with_reducible apply log_keeps (hA := by first | with_reducible assumption | with_reducible apply_assumption))
    | with_reducible apply when_keeps
    | with_reducible apply keeps_ite
    | split
    | refine keeps_ite ?_ ?_)

def touchDomainFurther (A : Part → Prop) : Prop := A .boot ∧ touchDomainBegin A
theorem touchDomainFurther_all (h : ∀ q, A q) : touchDomainFurther A := ⟨h _, touchDomainBegin_all h⟩
theorem domainFurther_keeps  (hA : touchDomainFurther A)  (h : Keeps A s t) : Keeps A s (State.domainFurther t) := by
  unfold State.domainFurther
  obtain ⟨_, _⟩ := hA
  repeat' (first
    | with_reducible assumption
    | intro y
    | (extract_lets +onlyGivenNames x; first | (refine cut (P := Keeps A s x) ?_ ?_; (on_goal 1 => (unfold x; clear x)); (on_goal 2 => (intro hx; first | clear_value x | skip))) | clear_value x | skip)
    | (with_reducible apply domainBegin_keeps (hA := by first | with_reducible assumption | with_reducible apply_assumption))
    | with_reducible apply keeps_ite
    | split
    | refine keeps_ite ?_ ?_
    | with_reducible exact keeps_boot (by assumption) (by assumption))

def touchRoleInForce (A : Part → Prop) : Prop := A (.reg R.SYS_ROLE.STORE_GRP) ∧ A (.reg R.SYS_ROLE.DISP_CONN) ∧ A (.reg R.SYS_ROLE.OPT) ∧ touchFloorShow A ∧ A (.reg R.SYS_ROLE.ROLE_ACT) ∧ A .updN
theorem touchRoleInForce_all (h : ∀ q, A q) : touchRoleInForce A := ⟨h _, h _, h _, touchFloorShow_all h, h _, h _⟩
theorem roleInForce_keeps  (hA : touchRoleInForce A)  (h : Keeps A s t) : Keeps A s (State.roleInForce t) := by
  unfold State.roleInForce
  obtain ⟨_, _, _, _, _, _⟩ := hA
  repeat' (first
    | with_reducible assumption
    | intro y
    | (extract_lets +onlyGivenNames x; first | (refine cut (P := Keeps A s x) ?_ ?_; (on_goal 1 => (unfold x; clear x)); (on_goal 2 => (intro hx; first | clear_value x | skip))) | clear_value x | skip)
    | (with_reducible refine put_keepsAt (by assumption) ?_)
    | (with_reducible refine put_keeps (by assumption) ?_)
    | (with_reducible apply floorShow_keeps (hA := by first | with_reducible assumption | with_reducible apply_assumption))
    | with_reducible apply keeps_ite
    | split
    | refine keeps_ite ?_ ?_
    | with_reducible exact keeps_updN (by assumption) (by assumption))

def touchExecApplyComplete (A : Part → Prop) : Prop := touchSafCopy A ∧ touchRoleInForce A ∧ touchDomainFurther A ∧ touchDomainDone A ∧ touchRoleReady A ∧ touchLswOwners A ∧ touchReqShow A ∧ A (.reg R.PWR_DOM_STAT.ON) ∧ touchLog A ∧ A (.reg R.SYS_ROLE_CMD.STATUS) ∧ A (.reg R.SYS_ROLE_CMD.APPLY) ∧ A .boot ∧ touchJoinRequest A ∧ touchGden A ∧ A (.reg R.PWR_STATE.STATE)
theorem touchExecApplyComplete_all (h : ∀ q, A q) : touchExecApplyComplete A := ⟨touchSafCopy_all h, touchRoleInForce_all h, touchDomainFurther_all h, touchDomainDone_all h, touchRoleReady_all h, touchLswOwners_all h, touchReqShow_all h, h _, touchLog_all h, h _, h _, h _, touchJoinRequest_all h, touchGden_all h, h _⟩
theorem execApplyComplete_next {o : Sys2Proof.BootObs} (hA : touchExecApplyComplete A) : ∃ u, execApplyComplete o s = .next u ∧ Keeps A s u := by
  unfold execApplyComplete
  have h := Keeps.refl A s
  refine ⟨_, rfl, ?_⟩
  obtain ⟨_, _, _, _, _, _, _, _, _, _, _, _, _, _, _⟩ := hA
  repeat' (first
    | with_reducible assumption
    | intro y
    | (extract_lets +onlyGivenNames x; first | (refine cut (P := Keeps A s x) ?_ ?_; (on_goal 1 => (unfold x; clear x)); (on_goal 2 => (intro hx; first | clear_value x | skip))) | clear_value x | skip)
    | (with_reducible refine put_keepsAt (by assumption) ?_)
    | (with_reducible refine put_keeps (by assumption) ?_)
    | (with_reducible apply safCopy_keeps (hA := by first | with_reducible assumption | with_reducible apply_assumption))
    | (with_reducible apply roleInForce_keeps (hA := by first | with_reducible assumption | with_reducible apply_assumption))
    | (with_reducible apply domainFurther_keeps (hA := by first | with_reducible assumption | with_reducible apply_assumption))
    | (with_reducible apply domainDone_keeps (hA := by first | with_reducible assumption | with_reducible apply_assumption))
    | (with_reducible apply roleReady_keeps (hA := by first | with_reducible assumption | with_reducible apply_assumption))
    | (with_reducible apply lswOwners_keeps (hA := by first | with_reducible assumption | with_reducible apply_assumption))
    | (with_reducible apply reqShow_keeps (hA := by first | with_reducible assumption | with_reducible apply_assumption))
    | (with_reducible apply log_keeps (hA := by first | with_reducible assumption | with_reducible apply_assumption))
    | (with_reducible apply joinRequest_keeps (hA := by first | with_reducible assumption | with_reducible apply_assumption))
    | (with_reducible apply gden_keeps (hA := by first | with_reducible assumption | with_reducible apply_assumption))
    | with_reducible apply keeps_ite
    | split
    | refine keeps_ite ?_ ?_
    | with_reducible exact keeps_boot (by assumption) (by assumption))

def touchExecPorReset (A : Part → Prop) : Prop := touchVsup A ∧ touchColdReset A ∧ A (.reg R.SYS_RST_CAUSE.COINC)
theorem touchExecPorReset_all (h : ∀ q, A q) : touchExecPorReset A := ⟨touchVsup_all h, touchColdReset_all h, h _⟩
theorem execPorReset_next {mv : ℕ} {ms : ℕ} {cold : Bool} {o : Sys2Proof.BootObs} (hA : touchExecPorReset A) : ∃ u, execPorReset mv ms cold o s = .next u ∧ Keeps A s u := by
  unfold execPorReset
  have h := Keeps.refl A s
  refine ⟨_, rfl, ?_⟩
  obtain ⟨_, _, _⟩ := hA
  repeat' (first
    | with_reducible assumption
    | intro y
    | (with_reducible apply vsup_keeps (hA := by first | with_reducible assumption | with_reducible apply_assumption))
    | (with_reducible apply coldReset_keeps (hA := by first | with_reducible assumption | with_reducible apply_assumption))
    | (with_reducible refine put_keepsAt (by assumption) ?_)
    | (with_reducible refine put_keeps (by assumption) ?_)
    | with_reducible apply keeps_ite
    | split)

def touchPinReset (A : Part → Prop) : Prop := A .boot ∧ A .pins ∧ touchResetCause A ∧ touchEnterReset A ∧ touchExitReset A
theorem touchPinReset_all (h : ∀ q, A q) : touchPinReset A := ⟨h _, h _, touchResetCause_all h, touchEnterReset_all h, touchExitReset_all h⟩
theorem pinReset_keeps {low : Bool} {o : Sys2Proof.BootObs} (hA : touchPinReset A)  (h : Keeps A s t) : Keeps A s (State.pinReset t low o) := by
  unfold State.pinReset
  obtain ⟨_, _, _, _, _⟩ := hA
  repeat' (first
    | with_reducible assumption
    | intro y
    | (extract_lets +onlyGivenNames x; first | (refine cut (P := Keeps A s x) ?_ ?_; (on_goal 1 => (unfold x; clear x)); (on_goal 2 => (intro hx; first | clear_value x | skip))) | (refine cut (P := Keeps A s x.2) ?_ ?_; (on_goal 1 => (unfold x; clear x)); (on_goal 2 => (intro hx; first | clear_value x | skip))) | (refine cut (P := Keeps A s x.2.2) ?_ ?_; (on_goal 1 => (unfold x; clear x)); (on_goal 2 => (intro hx; first | clear_value x | skip))) | clear_value x | skip)
    | (with_reducible apply resetCause_keeps (hA := by first | with_reducible assumption | with_reducible apply_assumption))
    | (with_reducible apply enterReset_keeps (hA := by first | with_reducible assumption | with_reducible apply_assumption))
    | (with_reducible apply exitReset_keeps (hA := by first | with_reducible assumption | with_reducible apply_assumption))
    | with_reducible apply keeps_ite
    | with_reducible apply keeps_ite2
    | with_reducible apply keeps_ite3
    | split
    | refine keeps_ite ?_ ?_
    | with_reducible exact keeps_boot (by assumption) (by assumption)
    | with_reducible exact keeps_pins (by assumption) (by assumption))

def touchExecPinReset (A : Part → Prop) : Prop := A .pins ∧ touchPinReset A ∧ touchFree A
theorem touchExecPinReset_all (h : ∀ q, A q) : touchExecPinReset A := ⟨h _, touchPinReset_all h, touchFree_all h⟩
theorem execPinReset_next {ns : ℕ} {low : Bool} {o : Sys2Proof.BootObs} (hA : touchExecPinReset A) : ∃ u, execPinReset ns low o s = .next u ∧ Keeps A s u := by
  unfold execPinReset
  have h := Keeps.refl A s
  refine ⟨_, rfl, ?_⟩
  obtain ⟨_, _, _⟩ := hA
  repeat' (first
    | with_reducible assumption
    | intro y
    | (extract_lets +onlyGivenNames x; first | (refine cut (P := Keeps A s x) ?_ ?_; (on_goal 1 => (unfold x; clear x)); (on_goal 2 => (intro hx; first | clear_value x | skip))) | (refine cut (P := Keeps A s x.2) ?_ ?_; (on_goal 1 => (unfold x; clear x)); (on_goal 2 => (intro hx; first | clear_value x | skip))) | (refine cut (P := Keeps A s x.2.2) ?_ ?_; (on_goal 1 => (unfold x; clear x)); (on_goal 2 => (intro hx; first | clear_value x | skip))) | clear_value x | skip)
    | (with_reducible apply pinReset_keeps (hA := by first | with_reducible assumption | with_reducible apply_assumption))
    | (with_reducible apply free_keeps (hA := by first | with_reducible assumption | with_reducible apply_assumption))
    | with_reducible apply keeps_ite
    | with_reducible apply keeps_ite2
    | with_reducible apply keeps_ite3
    | split
    | refine keeps_ite ?_ ?_
    | with_reducible exact keeps_pins (by assumption) (by assumption))

def touchExecRstNRelease (A : Part → Prop) : Prop := A .pins ∧ touchExitReset A
theorem touchExecRstNRelease_all (h : ∀ q, A q) : touchExecRstNRelease A := ⟨h _, touchExitReset_all h⟩
theorem execRstNRelease_next {o : Sys2Proof.BootObs} (hA : touchExecRstNRelease A) : ∃ u, execRstNRelease o s = .next u ∧ Keeps A s u := by
  unfold execRstNRelease
  have h := Keeps.refl A s
  refine ⟨_, rfl, ?_⟩
  obtain ⟨_, _⟩ := hA
  repeat' (first
    | with_reducible assumption
    | intro y
    | (extract_lets +onlyGivenNames x; first | (refine cut (P := Keeps A s x) ?_ ?_; (on_goal 1 => (unfold x; clear x)); (on_goal 2 => (intro hx; first | clear_value x | skip))) | clear_value x | skip)
    | (with_reducible apply exitReset_keeps (hA := by first | with_reducible assumption | with_reducible apply_assumption))
    | with_reducible apply keeps_ite
    | split
    | refine keeps_ite ?_ ?_
    | with_reducible exact keeps_pins (by assumption) (by assumption))

def touchSoftReset (A : Part → Prop) : Prop := touchWarmReset A ∧ touchLog A ∧ A (.reg R.SYS_RST_CMD.STATUS)
theorem touchSoftReset_all (h : ∀ q, A q) : touchSoftReset A := ⟨touchWarmReset_all h, touchLog_all h, h _⟩
theorem softReset_keeps {o : Sys2Proof.BootObs} (hA : touchSoftReset A)  (h : Keeps A s t) : Keeps A s (State.softReset t o) := by
  unfold State.softReset
  obtain ⟨_, _, _⟩ := hA
  repeat' (first
    | with_reducible assumption
    | intro y
    | (extract_lets +onlyGivenNames x; first | (refine cut (P := Keeps A s x) ?_ ?_; (on_goal 1 => (unfold x; clear x)); (on_goal 2 => (intro hx; first | clear_value x | skip))) | clear_value x | skip)
    | (with_reducible apply warmReset_keeps (hA := by first | with_reducible assumption | with_reducible apply_assumption))
    | (with_reducible apply log_keeps (hA := by first | with_reducible assumption | with_reducible apply_assumption))
    | (with_reducible refine put_keepsAt (by assumption) ?_)
    | (with_reducible refine put_keeps (by assumption) ?_)
    | with_reducible apply keeps_ite
    | split
    | refine keeps_ite ?_ ?_)

def touchExecSoftReset (A : Part → Prop) : Prop := touchGuarded A ∧ touchSoftReset A
theorem touchExecSoftReset_all (h : ∀ q, A q) : touchExecSoftReset A := ⟨touchGuarded_all h, touchSoftReset_all h⟩
theorem execSoftReset_next {sess : ℕ} {o : Sys2Proof.BootObs} (hA : touchExecSoftReset A) : ∃ u, execSoftReset sess o s = .next u ∧ Keeps A s u := by
  unfold execSoftReset
  have h := Keeps.refl A s
  refine ⟨_, rfl, ?_⟩
  obtain ⟨_, _⟩ := hA
  repeat' (first
    | with_reducible assumption
    | intro y
    | (with_reducible apply guarded_keeps (hA := by first | with_reducible assumption | with_reducible apply_assumption))
    | (with_reducible apply softReset_keeps (hA := by first | with_reducible assumption | with_reducible apply_assumption))
    | with_reducible apply keeps_ite
    | split)

def touchDomainWrite (A : Part → Prop) : Prop := A (.reg R.PWR_DOM_RST.RESULT) ∧ touchDomainBegin A ∧ A (.reg R.PWR_DOM_RST.RST)
theorem touchDomainWrite_all (h : ∀ q, A q) : touchDomainWrite A := ⟨h _, touchDomainBegin_all h, h _⟩
theorem domainWrite_keeps {bits : ℕ} (hA : touchDomainWrite A)  (h : Keeps A s t) : Keeps A s (State.domainWrite t bits) := by
  unfold State.domainWrite
  obtain ⟨_, _, _⟩ := hA
  repeat' (first
    | with_reducible assumption
    | intro y
    | (extract_lets +onlyGivenNames x; first | (refine cut (P := Keeps A s x) ?_ ?_; (on_goal 1 => (unfold x; clear x)); (on_goal 2 => (intro hx; first | clear_value x | skip))) | clear_value x | skip)
    | (with_reducible refine put_keepsAt (by assumption) ?_)
    | (with_reducible refine put_keeps (by assumption) ?_)
    | (with_reducible apply domainBegin_keeps (hA := by first | with_reducible assumption | with_reducible apply_assumption))
    | with_reducible apply keeps_ite
    | split
    | refine keeps_ite ?_ ?_)

def touchExecDomainReset (A : Part → Prop) : Prop := touchGuarded A ∧ touchDomainWrite A
theorem touchExecDomainReset_all (h : ∀ q, A q) : touchExecDomainReset A := ⟨touchGuarded_all h, touchDomainWrite_all h⟩
theorem execDomainReset_next {sess : ℕ} {bits : ℕ} (hA : touchExecDomainReset A) : ∃ u, execDomainReset sess bits s = .next u ∧ Keeps A s u := by
  unfold execDomainReset
  have h := Keeps.refl A s
  refine ⟨_, rfl, ?_⟩
  obtain ⟨_, _⟩ := hA
  repeat' (first
    | with_reducible assumption
    | intro y
    | (with_reducible apply guarded_keeps (hA := by first | with_reducible assumption | with_reducible apply_assumption))
    | (with_reducible apply domainWrite_keeps (hA := by first | with_reducible assumption | with_reducible apply_assumption))
    | with_reducible apply keeps_ite
    | split)

def touchExecDomainResetComplete (A : Part → Prop) : Prop := touchDomainFurther A ∧ touchDomainDone A
theorem touchExecDomainResetComplete_all (h : ∀ q, A q) : touchExecDomainResetComplete A := ⟨touchDomainFurther_all h, touchDomainDone_all h⟩
theorem execDomainResetComplete_next {o : Sys2Proof.BootObs} (hA : touchExecDomainResetComplete A) : ∃ u, execDomainResetComplete o s = .next u ∧ Keeps A s u := by
  unfold execDomainResetComplete
  have h := Keeps.refl A s
  refine ⟨_, rfl, ?_⟩
  obtain ⟨_, _⟩ := hA
  repeat' (first
    | with_reducible assumption
    | intro y
    | (with_reducible apply domainFurther_keeps (hA := by first | with_reducible assumption | with_reducible apply_assumption))
    | (with_reducible apply domainDone_keeps (hA := by first | with_reducible assumption | with_reducible apply_assumption))
    | with_reducible apply keeps_ite
    | split)

def touchExecFabricResetCommand (A : Part → Prop) : Prop := touchResetCause A ∧ A .rstStamp ∧ touchExitReset A ∧ A (.reg R.SYS_RST_INFO.FABR_NODE) ∧ touchEnterReset A ∧ touchLog A ∧ A (.reg R.FAB_WAKE.REJ)
theorem touchExecFabricResetCommand_all (h : ∀ q, A q) : touchExecFabricResetCommand A := ⟨touchResetCause_all h, h _, touchExitReset_all h, h _, touchEnterReset_all h, touchLog_all h, h _⟩
theorem execFabricResetCommand_next {node : ℕ} {serial : ℕ} {stamp : ℕ} {tagOk : Sys2Proof.ResetTag} {o : Sys2Proof.BootObs} (hA : touchExecFabricResetCommand A) : ∃ u, execFabricResetCommand node serial stamp tagOk o s = .next u ∧ Keeps A s u := by
  unfold execFabricResetCommand
  have h := Keeps.refl A s
  refine ⟨_, rfl, ?_⟩
  obtain ⟨_, _, _, _, _, _, _⟩ := hA
  repeat' (first
    | with_reducible assumption
    | intro y
    | (extract_lets +onlyGivenNames x; first | (refine cut (P := Keeps A s x) ?_ ?_; (on_goal 1 => (unfold x; clear x)); (on_goal 2 => (intro hx; first | clear_value x | skip))) | (refine cut (P := Keeps A s x.2) ?_ ?_; (on_goal 1 => (unfold x; clear x)); (on_goal 2 => (intro hx; first | clear_value x | skip))) | (refine cut (P := Keeps A s x.2.2) ?_ ?_; (on_goal 1 => (unfold x; clear x)); (on_goal 2 => (intro hx; first | clear_value x | skip))) | clear_value x | skip)
    | (with_reducible refine put_keepsAt (by assumption) ?_)
    | (with_reducible refine put_keeps (by assumption) ?_)
    | (with_reducible refine inc_keepsAt (by assumption) ?_)
    | (with_reducible refine inc_keeps (by assumption) ?_)
    | (with_reducible apply resetCause_keeps (hA := by first | with_reducible assumption | with_reducible apply_assumption))
    | (with_reducible apply exitReset_keeps (hA := by first | with_reducible assumption | with_reducible apply_assumption))
    | (with_reducible apply enterReset_keeps (hA := by first | with_reducible assumption | with_reducible apply_assumption))
    | (with_reducible apply log_keeps (hA := by first | with_reducible assumption | with_reducible apply_assumption))
    | with_reducible apply keeps_ite
    | with_reducible apply keeps_ite2
    | with_reducible apply keeps_ite3
    | split
    | refine keeps_ite ?_ ?_
    | with_reducible exact keeps_rstStamp (by assumption) (by assumption))

def touchExecReadyRelease (A : Part → Prop) : Prop := A .saf ∧ A (.reg R.SYS_BOOT_STAT.LATE) ∧ A (.reg R.SYS_BOOT_STAT.STEP) ∧ A (.reg R.SYS_BOOT_TIME.T_READY) ∧ A (.reg R.SYS_READY.PIN) ∧ A (.reg R.SAF_WD_STAT.WD_CNT) ∧ touchLog A
theorem touchExecReadyRelease_all (h : ∀ q, A q) : touchExecReadyRelease A := ⟨h _, h _, h _, h _, h _, h _, touchLog_all h⟩
theorem execReadyRelease_next {ms : ℕ} (hA : touchExecReadyRelease A) : ∃ u, execReadyRelease ms s = .next u ∧ Keeps A s u := by
  unfold execReadyRelease
  have h := Keeps.refl A s
  refine ⟨_, rfl, ?_⟩
  obtain ⟨_, _, _, _, _, _, _⟩ := hA
  repeat' (first
    | with_reducible assumption
    | intro y
    | (extract_lets +onlyGivenNames x; first | (refine cut (P := Keeps A s x) ?_ ?_; (on_goal 1 => (unfold x; clear x)); (on_goal 2 => (intro hx; first | clear_value x | skip))) | clear_value x | skip)
    | (with_reducible refine put_keepsAt (by assumption) ?_)
    | (with_reducible refine put_keeps (by assumption) ?_)
    | (with_reducible apply log_keeps (hA := by first | with_reducible assumption | with_reducible apply_assumption))
    | with_reducible apply keeps_ite
    | split
    | refine keeps_ite ?_ ?_
    | with_reducible exact keeps_saf (by assumption) (by assumption))

def touchExecReadyDeadline (A : Part → Prop) : Prop := touchLog A ∧ A (.reg R.SYS_BOOT_STAT.LATE)
theorem touchExecReadyDeadline_all (h : ∀ q, A q) : touchExecReadyDeadline A := ⟨touchLog_all h, h _⟩
theorem execReadyDeadline_next {ms : ℕ} (hA : touchExecReadyDeadline A) : ∃ u, execReadyDeadline ms s = .next u ∧ Keeps A s u := by
  unfold execReadyDeadline
  have h := Keeps.refl A s
  refine ⟨_, rfl, ?_⟩
  obtain ⟨_, _⟩ := hA
  repeat' (first
    | with_reducible assumption
    | intro y
    | (extract_lets +onlyGivenNames x; first | (refine cut (P := Keeps A s x) ?_ ?_; (on_goal 1 => (unfold x; clear x)); (on_goal 2 => (intro hx; first | clear_value x | skip))) | clear_value x | skip)
    | (with_reducible apply log_keeps (hA := by first | with_reducible assumption | with_reducible apply_assumption))
    | (with_reducible refine put_keepsAt (by assumption) ?_)
    | (with_reducible refine put_keeps (by assumption) ?_)
    | with_reducible apply keeps_ite
    | split
    | refine keeps_ite ?_ ?_)

end Sys2Proof.Laws
end

