-- ==== Sys2Proof/Laws/KeepsCells.lean ====
section
/-! SUPPORT. What the operations of Machine/Cells.lean leave alone: for each the parts it may change (`touch…`) and its lemma. -/

namespace Sys2Proof.Laws

open Sys2Proof.Machine

set_option linter.unusedTactic false
set_option linter.unreachableTactic false
set_option linter.unusedVariables false
set_option linter.tactic.unusedName false

variable {A : Part → Prop} {s t : State}

def touchCsWake (A : Part → Prop) : Prop := touchEmit A ∧ A (.reg R.CS_STAT.STATE)
theorem touchCsWake_all (h : ∀ q, A q) : touchCsWake A := ⟨touchEmit_all h, h _⟩
theorem csWake_keeps  (hA : touchCsWake A)  (h : Keeps A s t) : Keeps A s (State.csWake t) := by
  unfold State.csWake
  obtain ⟨_, _⟩ := hA
  repeat' (first
    | with_reducible assumption
    | intro y
    | (extract_lets +onlyGivenNames x; first | (refine cut (P := Keeps A s x) ?_ ?_; (on_goal 1 => (unfold x; clear x)); (on_goal 2 => (intro hx; first | clear_value x | skip))) | clear_value x | skip)
    | (with_reducible refine put_keepsAt (by assumption) ?_)
    | (with_reducible refine put_keeps (by assumption) ?_)
    | (with_reducible apply emit_keeps (hA := by first | with_reducible assumption | with_reducible apply_assumption))
    | with_reducible apply keeps_ite
    | split
    | refine keeps_ite ?_ ?_)

def touchDiscover (A : Part → Prop) : Prop := touchEmit A
theorem touchDiscover_all (h : ∀ q, A q) : touchDiscover A := touchEmit_all h
theorem discover_keeps {dir : ℕ} {pass : ℕ} (hA : touchDiscover A)  (h : Keeps A s t) : Keeps A s (State.discover t dir pass) := by
  unfold State.discover
  unfold touchDiscover at hA
  repeat' (first
    | with_reducible assumption
    | intro y
    | (extract_lets +onlyGivenNames x; first | (refine cut (P := Keeps A s x) ?_ ?_; (on_goal 1 => (unfold x; clear x)); (on_goal 2 => (intro hx; first | clear_value x | skip))) | clear_value x | skip)
    | (with_reducible apply emit_keeps (hA := by first | with_reducible assumption | with_reducible apply_assumption))
    | with_reducible apply keeps_ite
    | split
    | refine keeps_ite ?_ ?_)

def touchExecCsWake (A : Part → Prop) : Prop := touchLog A ∧ touchCsWake A ∧ A .cs
theorem touchExecCsWake_all (h : ∀ q, A q) : touchExecCsWake A := ⟨touchLog_all h, touchCsWake_all h, h _⟩
theorem execCsWake_next  (hA : touchExecCsWake A) : ∃ u, execCsWake s = .next u ∧ Keeps A s u := by
  unfold execCsWake
  have h := Keeps.refl A s
  refine ⟨_, rfl, ?_⟩
  obtain ⟨_, _, _⟩ := hA
  repeat' (first
    | with_reducible assumption
    | intro y
    | (extract_lets +onlyGivenNames x; first | (refine cut (P := Keeps A s x) ?_ ?_; (on_goal 1 => (unfold x; clear x)); (on_goal 2 => (intro hx; first | clear_value x | skip))) | clear_value x | skip)
    | (with_reducible apply log_keeps (hA := by first | with_reducible assumption | with_reducible apply_assumption))
    | (with_reducible apply csWake_keeps (hA := by first | with_reducible assumption | with_reducible apply_assumption))
    | with_reducible apply keeps_ite
    | split
    | refine keeps_ite ?_ ?_
    | with_reducible exact keeps_cs (by assumption) (by assumption))

def touchPartition (A : Part → Prop) : Prop := A (.reg R.CS_STAT.H_A) ∧ A (.reg R.CS_UNIT_STAT.HALF)
theorem touchPartition_all (h : ∀ q, A q) : touchPartition A := ⟨h _, h _⟩
theorem partition_keeps {ha : ℕ} (hA : touchPartition A)  (h : Keeps A s t) : Keeps A s (State.partition t ha) := by
  unfold State.partition
  obtain ⟨_, _⟩ := hA
  repeat' (first
    | with_reducible assumption
    | intro y
    | with_reducible apply each_keeps
    | (with_reducible refine put_keepsAt (by assumption) ?_)
    | (with_reducible refine put_keeps (by assumption) ?_)
    | (with_reducible refine putb_keepsAt (by assumption) ?_)
    | (with_reducible refine putb_keeps (by assumption) ?_)
    | with_reducible apply keeps_ite
    | split)

def touchPerShow (A : Part → Prop) : Prop := A (.reg R.CS_PER.PER_ACT) ∧ A (.reg R.CS_PER.T_SWEEP) ∧ touchLog A
theorem touchPerShow_all (h : ∀ q, A q) : touchPerShow A := ⟨h _, h _, touchLog_all h⟩
theorem perShow_keeps  (hA : touchPerShow A)  (h : Keeps A s t) : Keeps A s (State.perShow t) := by
  unfold State.perShow
  obtain ⟨_, _, _⟩ := hA
  repeat' (first
    | with_reducible assumption
    | intro y
    | (extract_lets +onlyGivenNames x; first | (refine cut (P := Keeps A s x) ?_ ?_; (on_goal 1 => (unfold x; clear x)); (on_goal 2 => (intro hx; first | clear_value x | skip))) | clear_value x | skip)
    | (with_reducible refine put_keepsAt (by assumption) ?_)
    | (with_reducible refine put_keeps (by assumption) ?_)
    | (with_reducible apply log_keeps (hA := by first | with_reducible assumption | with_reducible apply_assumption))
    | with_reducible apply keeps_ite
    | split
    | refine keeps_ite ?_ ?_)

def touchSerialCheck (A : Part → Prop) : Prop := A (.reg R.CS_UNIT_STAT.MISMATCH) ∧ touchLog A ∧ A (.reg R.CS_STAT.ORDER_ERR)
theorem touchSerialCheck_all (h : ∀ q, A q) : touchSerialCheck A := ⟨h _, touchLog_all h, h _⟩
theorem serialCheck_keeps {ser : List (ℕ × ℕ)} (hA : touchSerialCheck A)  (h : Keeps A s t) : Keeps A s (State.serialCheck t ser) := by
  unfold State.serialCheck
  obtain ⟨_, _, _⟩ := hA
  repeat' (first
    | with_reducible assumption
    | intro y
    | (extract_lets +onlyGivenNames x; first | (refine cut (P := Keeps A s x) ?_ ?_; (on_goal 1 => (unfold x; clear x)); (on_goal 2 => (intro hx; first | clear_value x | skip))) | clear_value x | skip)
    | (with_reducible refine putb_keepsAt (by assumption) ?_)
    | (with_reducible refine putb_keeps (by assumption) ?_)
    | (with_reducible apply log_keeps (hA := by first | with_reducible assumption | with_reducible apply_assumption))
    | (with_reducible refine put_keepsAt (by assumption) ?_)
    | (with_reducible refine put_keeps (by assumption) ?_)
    | with_reducible apply keeps_ite
    | with_reducible apply keeps_foldl
    | with_reducible apply keeps_foldl2
    | with_reducible apply keeps_foldl3
    | split
    | refine keeps_ite ?_ ?_)

def touchRingRun (A : Part → Prop) : Prop := A .cs ∧ A (.reg R.CS_UNIT_STAT.STATE) ∧ A (.reg R.CS_STAT.STATE) ∧ A (.reg R.CS_STAT.N) ∧ touchPartition A ∧ A (.reg R.CS_STAT.BRK_AT) ∧ A (.reg R.CS_STAT.BROKEN) ∧ touchPerShow A
theorem touchRingRun_all (h : ∀ q, A q) : touchRingRun A := ⟨h _, h _, h _, h _, touchPartition_all h, h _, h _, touchPerShow_all h⟩
theorem ringRun_keeps {size : ℕ} {na : ℕ} {nb : ℕ} {through : Bool} (hA : touchRingRun A)  (h : Keeps A s t) : Keeps A s (State.ringRun t size na nb through) := by
  unfold State.ringRun
  obtain ⟨_, _, _, _, _, _, _, _⟩ := hA
  repeat' (first
    | with_reducible assumption
    | intro y
    | (extract_lets +onlyGivenNames x; first | (refine cut (P := Keeps A s x) ?_ ?_; (on_goal 1 => (unfold x; clear x)); (on_goal 2 => (intro hx; first | clear_value x | skip))) | clear_value x | skip)
    | (with_reducible refine put_keepsAt (by assumption) ?_)
    | (with_reducible refine put_keeps (by assumption) ?_)
    | (with_reducible apply partition_keeps (hA := by first | with_reducible assumption | with_reducible apply_assumption))
    | (with_reducible apply perShow_keeps (hA := by first | with_reducible assumption | with_reducible apply_assumption))
    | with_reducible apply each_keeps
    | with_reducible apply keeps_ite
    | with_reducible apply keeps_foldl
    | split
    | refine keeps_ite ?_ ?_
    | with_reducible exact keeps_cs (by assumption) (by assumption))

def touchRingLog (A : Part → Prop) : Prop := touchLog A
theorem touchRingLog_all (h : ∀ q, A q) : touchRingLog A := touchLog_all h
theorem ringLog_keeps  (hA : touchRingLog A)  (h : Keeps A s t) : Keeps A s (State.ringLog t) := by
  unfold State.ringLog
  unfold touchRingLog at hA
  repeat' (first
    | with_reducible assumption
    | intro y
    | (extract_lets +onlyGivenNames x; first | (refine cut (P := Keeps A s x) ?_ ?_; (on_goal 1 => (unfold x; clear x)); (on_goal 2 => (intro hx; first | clear_value x | skip))) | clear_value x | skip)
    | (with_reducible apply log_keeps (hA := by first | with_reducible assumption | with_reducible apply_assumption))
    | with_reducible apply keeps_ite
    | split
    | refine keeps_ite ?_ ?_)

def touchExecDiscovery (A : Part → Prop) : Prop := touchDiscover A ∧ A (.reg R.CS_STAT.STATE) ∧ touchSerialCheck A ∧ touchRingLog A ∧ touchRingRun A
theorem touchExecDiscovery_all (h : ∀ q, A q) : touchExecDiscovery A := ⟨touchDiscover_all h, h _, touchSerialCheck_all h, touchRingLog_all h, touchRingRun_all h⟩
theorem execDiscovery_next {ms : ℕ} {through : Bool} {na : ℕ} {nb : ℕ} {ser : List (ℕ × ℕ)} (hA : touchExecDiscovery A) : ∃ u, execDiscovery ms through na nb ser s = .next u ∧ Keeps A s u := by
  unfold execDiscovery
  have h := Keeps.refl A s
  refine ⟨_, rfl, ?_⟩
  obtain ⟨_, _, _, _, _⟩ := hA
  repeat' (first
    | with_reducible assumption
    | intro y
    | (extract_lets +onlyGivenNames x; first | (refine cut (P := Keeps A s x) ?_ ?_; (on_goal 1 => (unfold x; clear x)); (on_goal 2 => (intro hx; first | clear_value x | skip))) | clear_value x | skip)
    | (with_reducible refine put_keepsAt (by assumption) ?_)
    | (with_reducible refine put_keeps (by assumption) ?_)
    | (with_reducible apply discover_keeps (hA := by first | with_reducible assumption | with_reducible apply_assumption))
    | (with_reducible apply serialCheck_keeps (hA := by first | with_reducible assumption | with_reducible apply_assumption))
    | (with_reducible apply ringLog_keeps (hA := by first | with_reducible assumption | with_reducible apply_assumption))
    | (with_reducible apply ringRun_keeps (hA := by first | with_reducible assumption | with_reducible apply_assumption))
    | with_reducible apply keeps_ite
    | split
    | refine keeps_ite ?_ ?_)

def touchExecDiscoveryAttemptEnd (A : Part → Prop) : Prop := touchCsWake A ∧ A .cs ∧ touchSerialCheck A ∧ touchRingRun A ∧ touchLog A ∧ A (.reg R.CS_SEEN.LOST_SEEN) ∧ A (.reg R.CS_UNIT_STAT.LOST_SEEN)
theorem touchExecDiscoveryAttemptEnd_all (h : ∀ q, A q) : touchExecDiscoveryAttemptEnd A := ⟨touchCsWake_all h, h _, touchSerialCheck_all h, touchRingRun_all h, touchLog_all h, h _, h _⟩
theorem execDiscoveryAttemptEnd_next {na : ℕ} {nb : ℕ} {ser : List (ℕ × ℕ)} (hA : touchExecDiscoveryAttemptEnd A) : ∃ u, execDiscoveryAttemptEnd na nb ser s = .next u ∧ Keeps A s u := by
  unfold execDiscoveryAttemptEnd
  have h := Keeps.refl A s
  refine ⟨_, rfl, ?_⟩
  obtain ⟨_, _, _, _, _, _, _⟩ := hA
  repeat' (first
    | with_reducible assumption
    | intro y
    | (extract_lets +onlyGivenNames x; first | (refine cut (P := Keeps A s x) ?_ ?_; (on_goal 1 => (unfold x; clear x)); (on_goal 2 => (intro hx; first | clear_value x | skip))) | clear_value x | skip)
    | (with_reducible refine put_keepsAt (by assumption) ?_)
    | (with_reducible refine put_keeps (by assumption) ?_)
    | (with_reducible apply csWake_keeps (hA := by first | with_reducible assumption | with_reducible apply_assumption))
    | (with_reducible apply serialCheck_keeps (hA := by first | with_reducible assumption | with_reducible apply_assumption))
    | (with_reducible apply ringRun_keeps (hA := by first | with_reducible assumption | with_reducible apply_assumption))
    | (with_reducible apply log_keeps (hA := by first | with_reducible assumption | with_reducible apply_assumption))
    | with_reducible apply each_keeps
    | with_reducible apply keeps_ite
    | split
    | refine keeps_ite ?_ ?_
    | with_reducible exact keeps_cs (by assumption) (by assumption))

def touchSendSync (A : Part → Prop) : Prop := A .cs ∧ touchEmit A
theorem touchSendSync_all (h : ∀ q, A q) : touchSendSync A := ⟨h _, touchEmit_all h⟩
theorem sendSync_keeps {k : Sys2Proof.Machine.Sent} {flags : ℕ} (hA : touchSendSync A)  (h : Keeps A s t) : Keeps A s (State.sendSync t k flags) := by
  unfold State.sendSync
  obtain ⟨_, _⟩ := hA
  repeat' (first
    | with_reducible assumption
    | intro y
    | (extract_lets +onlyGivenNames x; first | (refine cut (P := Keeps A s x) ?_ ?_; (on_goal 1 => (unfold x; clear x)); (on_goal 2 => (intro hx; first | clear_value x | skip))) | (refine cut (P := ∀ y, Keeps A s y → Keeps A s (x y)) ?_ ?_; (on_goal 1 => (unfold x; clear x)); (on_goal 2 => (intro hf; first | clear_value x | skip))) | (refine cut (P := ∀ y, Keeps A s (x y)) ?_ ?_; (on_goal 1 => (unfold x; clear x)); (on_goal 2 => (intro hf; first | clear_value x | skip))) | (refine cut (P := ∀ y z, Keeps A s y → Keeps A s (x y z)) ?_ ?_; (on_goal 1 => (unfold x; clear x)); (on_goal 2 => (intro hf; first | clear_value x | skip))) | (refine cut (P := ∀ y z, Keeps A s z → Keeps A s (x y z)) ?_ ?_; (on_goal 1 => (unfold x; clear x)); (on_goal 2 => (intro hf; first | clear_value x | skip))) | (refine cut (P := ∀ y z w, Keeps A s y → Keeps A s (x y z w)) ?_ ?_; (on_goal 1 => (unfold x; clear x)); (on_goal 2 => (intro hf; first | clear_value x | skip))) | (refine cut (P := ∀ (d : Nat) (g : State → State) (y : State), (∀ z, Keeps A s z → Keeps A s (g z)) → Keeps A s y → Keeps A s (x d g y)) ?_ ?_; (on_goal 1 => (unfold x; clear x)); (on_goal 2 => (intro hf; first | clear_value x | skip))) | clear_value x | skip)
    | (with_reducible apply emit_keeps (hA := by first | with_reducible assumption | with_reducible apply_assumption))
    | with_reducible apply keeps_ite
    | with_reducible apply hf
    | split
    | refine keeps_ite ?_ ?_
    | with_reducible exact keeps_cs (by assumption) (by assumption))

def touchExecSweepSync (A : Part → Prop) : Prop := A .cs ∧ touchLog A ∧ A (.reg R.CS_SEEN.SKIP_SEEN) ∧ A (.reg R.CS_CNT0.SKIPPED) ∧ touchSendSync A ∧ touchPerShow A
theorem touchExecSweepSync_all (h : ∀ q, A q) : touchExecSweepSync A := ⟨h _, touchLog_all h, h _, h _, touchSendSync_all h, touchPerShow_all h⟩
theorem execSweepSync_next  (hA : touchExecSweepSync A) : ∃ u, execSweepSync s = .next u ∧ Keeps A s u := by
  unfold execSweepSync
  have h := Keeps.refl A s
  refine ⟨_, rfl, ?_⟩
  obtain ⟨_, _, _, _, _, _⟩ := hA
  repeat' (first
    | with_reducible assumption
    | intro y
    | (extract_lets +onlyGivenNames x; first | (refine cut (P := Keeps A s x) ?_ ?_; (on_goal 1 => (unfold x; clear x)); (on_goal 2 => (intro hx; first | clear_value x | skip))) | clear_value x | skip)
    | (with_reducible refine put_keepsAt (by assumption) ?_)
    | (with_reducible refine put_keeps (by assumption) ?_)
    | (with_reducible refine inc_keepsAt (by assumption) ?_)
    | (with_reducible refine inc_keeps (by assumption) ?_)
    | (with_reducible apply log_keeps (hA := by first | with_reducible assumption | with_reducible apply_assumption))
    | (with_reducible apply sendSync_keeps (hA := by first | with_reducible assumption | with_reducible apply_assumption))
    | (with_reducible apply perShow_keeps (hA := by first | with_reducible assumption | with_reducible apply_assumption))
    | with_reducible apply keeps_ite
    | split
    | refine keeps_ite ?_ ?_
    | with_reducible exact keeps_cs (by assumption) (by assumption))

def touchExecKeepaliveSync (A : Part → Prop) : Prop := touchSendSync A ∧ touchPerShow A
theorem touchExecKeepaliveSync_all (h : ∀ q, A q) : touchExecKeepaliveSync A := ⟨touchSendSync_all h, touchPerShow_all h⟩
theorem execKeepaliveSync_next {ms : ℕ} (hA : touchExecKeepaliveSync A) : ∃ u, execKeepaliveSync ms s = .next u ∧ Keeps A s u := by
  unfold execKeepaliveSync
  have h := Keeps.refl A s
  refine ⟨_, rfl, ?_⟩
  obtain ⟨_, _⟩ := hA
  repeat' (first
    | with_reducible assumption
    | intro y
    | (extract_lets +onlyGivenNames x; first | (refine cut (P := Keeps A s x) ?_ ?_; (on_goal 1 => (unfold x; clear x)); (on_goal 2 => (intro hx; first | clear_value x | skip))) | clear_value x | skip)
    | (with_reducible apply sendSync_keeps (hA := by first | with_reducible assumption | with_reducible apply_assumption))
    | (with_reducible apply perShow_keeps (hA := by first | with_reducible assumption | with_reducible apply_assumption))
    | with_reducible apply keeps_ite
    | split
    | refine keeps_ite ?_ ?_)

def touchExecRecordReceive (A : Part → Prop) : Prop := A .cs ∧ A (.reg R.CS_UNIT_BAL.PEND)
theorem touchExecRecordReceive_all (h : ∀ q, A q) : touchExecRecordReceive A := ⟨h _, h _⟩
theorem execRecordReceive_next {dir : ℕ} {p : ℕ} {sweep : ℕ} {status : ℕ} {cells : List ℕ} {t0 : ℤ} {t1 : ℤ} {mask : ℕ} {seq : ℕ} (hA : touchExecRecordReceive A) : ∃ u, execRecordReceive dir p sweep status cells t0 t1 mask seq s = .next u ∧ Keeps A s u := by
  unfold execRecordReceive
  have h := Keeps.refl A s
  refine ⟨_, rfl, ?_⟩
  obtain ⟨_, _⟩ := hA
  repeat' (first
    | with_reducible assumption
    | intro y
    | (extract_lets +onlyGivenNames x; first | (refine cut (P := Keeps A s x) ?_ ?_; (on_goal 1 => (unfold x; clear x)); (on_goal 2 => (intro hx; first | clear_value x | skip))) | clear_value x | skip)
    | (with_reducible refine put_keepsAt (by assumption) ?_)
    | (with_reducible refine put_keeps (by assumption) ?_)
    | with_reducible apply keeps_ite
    | split
    | refine keeps_ite ?_ ?_
    | with_reducible exact keeps_cs (by assumption) (by assumption))

def touchUnitCells (A : Part → Prop) : Prop := A (.reg R.CS_CELL.AGE) ∧ A (.reg R.CS_CELL.FRESH) ∧ A (.reg R.CS_CELL.DISTURBED) ∧ A (.reg R.CS_CELL.BAL) ∧ A (.reg R.CS_CELL.V) ∧ touchLog A ∧ A (.reg R.CS_CELL.FAULT)
theorem touchUnitCells_all (h : ∀ q, A q) : touchUnitCells A := ⟨h _, h _, h _, h _, h _, touchLog_all h, h _⟩
theorem unitCells_keeps {u0 : ℕ} (hA : touchUnitCells A)  (h : Keeps A s t) : Keeps A s (State.unitCells t u0) := by
  unfold State.unitCells
  obtain ⟨_, _, _, _, _, _, _⟩ := hA
  repeat' (first
    | with_reducible assumption
    | intro y
    | (extract_lets +onlyGivenNames x; first | (refine cut (P := Keeps A s x) ?_ ?_; (on_goal 1 => (unfold x; clear x)); (on_goal 2 => (intro hx; first | clear_value x | skip))) | (refine cut (P := ∀ y0, Keeps A s y0 → Keeps A s (x y0)) ?_ ?_; (on_goal 1 => (unfold x; clear x)); (on_goal 2 => (intro hf; first | clear_value x | skip))) | clear_value x | skip)
    | (with_reducible refine put_keepsAt (by assumption) ?_)
    | (with_reducible refine put_keeps (by assumption) ?_)
    | (with_reducible refine putb_keepsAt (by assumption) ?_)
    | (with_reducible refine putb_keeps (by assumption) ?_)
    | (with_reducible refine inc_keepsAt (by assumption) ?_)
    | (with_reducible refine inc_keeps (by assumption) ?_)
    | (with_reducible apply log_keeps (hA := by first | with_reducible assumption | with_reducible apply_assumption))
    | with_reducible apply each_keeps
    | with_reducible apply keeps_ite
    | with_reducible apply hf
    | with_reducible apply_assumption
    | split
    | refine keeps_ite ?_ ?_)

def touchUnitState (A : Part → Prop) : Prop := A (.reg R.CS_UNIT_STAT.T1) ∧ A (.reg R.CS_UNIT_STAT.T0) ∧ A (.reg R.CS_UNIT_STAT.STATE) ∧ A (.reg R.CS_UNIT_STAT.MISS_CNT) ∧ touchLog A ∧ A (.reg R.CS_SEEN.LOST_SEEN) ∧ A (.reg R.CS_UNIT_STAT.LOST_SEEN) ∧ touchReqSafeOff A
theorem touchUnitState_all (h : ∀ q, A q) : touchUnitState A := ⟨h _, h _, h _, h _, touchLog_all h, h _, h _, touchReqSafeOff_all h⟩
theorem unitState_keeps {u0 : ℕ} (hA : touchUnitState A)  (h : Keeps A s t) : Keeps A s (State.unitState t u0) := by
  unfold State.unitState
  obtain ⟨_, _, _, _, _, _, _, _⟩ := hA
  repeat' (first
    | with_reducible assumption
    | intro y
    | (extract_lets +onlyGivenNames x; first | (refine cut (P := Keeps A s x) ?_ ?_; (on_goal 1 => (unfold x; clear x)); (on_goal 2 => (intro hx; first | clear_value x | skip))) | clear_value x | skip)
    | (with_reducible refine puti_keepsAt (by assumption) ?_)
    | (with_reducible refine puti_keeps (by assumption) ?_)
    | (with_reducible refine put_keepsAt (by assumption) ?_)
    | (with_reducible refine put_keeps (by assumption) ?_)
    | (with_reducible apply log_keeps (hA := by first | with_reducible assumption | with_reducible apply_assumption))
    | (with_reducible refine inc_keepsAt (by assumption) ?_)
    | (with_reducible refine inc_keeps (by assumption) ?_)
    | (with_reducible apply reqSafeOff_keeps (hA := by first | with_reducible assumption | with_reducible apply_assumption))
    | with_reducible apply keeps_ite
    | split
    | refine keeps_ite ?_ ?_)

def touchLimitOne (A : Part → Prop) : Prop := touchLog A ∧ A (.reg R.CS_SEEN.LIM_SEEN) ∧ touchReqSafeOff A
theorem touchLimitOne_all (h : ∀ q, A q) : touchLimitOne A := ⟨touchLog_all h, h _, touchReqSafeOff_all h⟩
theorem limitOne_keeps {n : ℕ} {code : ℕ} {pay : List ℕ} (hA : touchLimitOne A)  (h : Keeps A s t) : Keeps A s (State.limitOne t n code pay) := by
  unfold State.limitOne
  obtain ⟨_, _, _⟩ := hA
  repeat' (first
    | with_reducible assumption
    | intro y
    | (extract_lets +onlyGivenNames x; first | (refine cut (P := Keeps A s x) ?_ ?_; (on_goal 1 => (unfold x; clear x)); (on_goal 2 => (intro hx; first | clear_value x | skip))) | clear_value x | skip)
    | (with_reducible apply log_keeps (hA := by first | with_reducible assumption | with_reducible apply_assumption))
    | (with_reducible refine put_keepsAt (by assumption) ?_)
    | (with_reducible refine put_keeps (by assumption) ?_)
    | (with_reducible apply reqSafeOff_keeps (hA := by first | with_reducible assumption | with_reducible apply_assumption))
    | with_reducible apply keeps_ite
    | split
    | refine keeps_ite ?_ ?_)

def touchCellLimits (A : Part → Prop) : Prop := A .cs ∧ touchLimitOne A
theorem touchCellLimits_all (h : ∀ q, A q) : touchCellLimits A := ⟨h _, touchLimitOne_all h⟩
theorem cellLimits_keeps  (hA : touchCellLimits A)  (h : Keeps A s t) : Keeps A s (State.cellLimits t) := by
  unfold State.cellLimits
  obtain ⟨_, _⟩ := hA
  repeat' (first
    | with_reducible assumption
    | intro y
    | (extract_lets +onlyGivenNames x; first | (refine cut (P := Keeps A s x) ?_ ?_; (on_goal 1 => (unfold x; clear x)); (on_goal 2 => (intro hx; first | clear_value x | skip))) | clear_value x | skip)
    | (with_reducible apply limitOne_keeps (hA := by first | with_reducible assumption | with_reducible apply_assumption))
    | with_reducible apply keeps_ite
    | with_reducible apply keeps_foldl
    | split
    | refine keeps_ite ?_ ?_
    | with_reducible exact keeps_cs (by assumption) (by assumption))

def touchExtremes (A : Part → Prop) : Prop := A (.reg R.CS_VEXT_IDX.VMIN_IDX) ∧ A (.reg R.CS_VEXT.VMAX) ∧ A (.reg R.CS_VEXT.VMIN) ∧ A (.reg R.LE_PARAM.VALUE) ∧ A (.reg R.CS_VEXT_IDX.VMAX_IDX)
theorem touchExtremes_all (h : ∀ q, A q) : touchExtremes A := ⟨h _, h _, h _, h _, h _⟩
theorem extremes_keeps  (hA : touchExtremes A)  (h : Keeps A s t) : Keeps A s (State.extremes t) := by
  unfold State.extremes
  obtain ⟨_, _, _, _, _⟩ := hA
  repeat' (first
    | with_reducible assumption
    | intro y
    | (extract_lets +onlyGivenNames x; first | (refine cut (P := Keeps A s x) ?_ ?_; (on_goal 1 => (unfold x; clear x)); (on_goal 2 => (intro hx; first | clear_value x | skip))) | (refine cut (P := ∀ y, Keeps A s y → Keeps A s (x y)) ?_ ?_; (on_goal 1 => (unfold x; clear x)); (on_goal 2 => (intro hf; first | clear_value x | skip))) | (refine cut (P := ∀ y, Keeps A s (x y)) ?_ ?_; (on_goal 1 => (unfold x; clear x)); (on_goal 2 => (intro hf; first | clear_value x | skip))) | (refine cut (P := ∀ y z, Keeps A s y → Keeps A s (x y z)) ?_ ?_; (on_goal 1 => (unfold x; clear x)); (on_goal 2 => (intro hf; first | clear_value x | skip))) | (refine cut (P := ∀ y z, Keeps A s z → Keeps A s (x y z)) ?_ ?_; (on_goal 1 => (unfold x; clear x)); (on_goal 2 => (intro hf; first | clear_value x | skip))) | (refine cut (P := ∀ y z w, Keeps A s y → Keeps A s (x y z w)) ?_ ?_; (on_goal 1 => (unfold x; clear x)); (on_goal 2 => (intro hf; first | clear_value x | skip))) | (refine cut (P := ∀ (d : Nat) (g : State → State) (y : State), (∀ z, Keeps A s z → Keeps A s (g z)) → Keeps A s y → Keeps A s (x d g y)) ?_ ?_; (on_goal 1 => (unfold x; clear x)); (on_goal 2 => (intro hf; first | clear_value x | skip))) | clear_value x | skip)
    | (with_reducible refine put_keepsAt (by assumption) ?_)
    | (with_reducible refine put_keeps (by assumption) ?_)
    | with_reducible apply keeps_ite
    | with_reducible apply keeps_foldl
    | with_reducible apply hf
    | split
    | refine keeps_ite ?_ ?_)

def touchQueueOrder (A : Part → Prop) : Prop := A .cs ∧ A (.reg R.CS_UNIT_BAL.PEND)
theorem touchQueueOrder_all (h : ∀ q, A q) : touchQueueOrder A := ⟨h _, h _⟩
theorem queueOrder_keeps {u0 : ℕ} {mask : ℕ} {dur : ℕ} (hA : touchQueueOrder A)  (h : Keeps A s t) : Keeps A s (State.queueOrder t u0 mask dur) := by
  unfold State.queueOrder
  obtain ⟨_, _⟩ := hA
  repeat' (first
    | with_reducible assumption
    | intro y
    | (extract_lets +onlyGivenNames x; first | (refine cut (P := Keeps A s x) ?_ ?_; (on_goal 1 => (unfold x; clear x)); (on_goal 2 => (intro hx; first | clear_value x | skip))) | clear_value x | skip)
    | (with_reducible refine put_keepsAt (by assumption) ?_)
    | (with_reducible refine put_keeps (by assumption) ?_)
    | with_reducible apply keeps_ite
    | split
    | refine keeps_ite ?_ ?_
    | with_reducible exact keeps_cs (by assumption) (by assumption))

def touchAutoBalance (A : Part → Prop) : Prop := touchQueueOrder A
theorem touchAutoBalance_all (h : ∀ q, A q) : touchAutoBalance A := touchQueueOrder_all h
theorem autoBalance_keeps  (hA : touchAutoBalance A)  (h : Keeps A s t) : Keeps A s (State.autoBalance t) := by
  unfold State.autoBalance
  unfold touchAutoBalance at hA
  repeat' (first
    | with_reducible assumption
    | intro y
    | (extract_lets +onlyGivenNames x; first | (refine cut (P := Keeps A s x) ?_ ?_; (on_goal 1 => (unfold x; clear x)); (on_goal 2 => (intro hx; first | clear_value x | skip))) | clear_value x | skip)
    | (with_reducible apply queueOrder_keeps (hA := by first | with_reducible assumption | with_reducible apply_assumption))
    | with_reducible apply keeps_ite
    | with_reducible apply keeps_foldl
    | split
    | refine keeps_ite ?_ ?_)

def touchSendOrder (A : Part → Prop) : Prop := A .cs ∧ touchEmit A
theorem touchSendOrder_all (h : ∀ q, A q) : touchSendOrder A := ⟨h _, touchEmit_all h⟩
theorem sendOrder_keeps {o : Sys2Proof.Machine.CellOrder} (hA : touchSendOrder A)  (h : Keeps A s t) : Keeps A s (State.sendOrder t o) := by
  unfold State.sendOrder
  obtain ⟨_, _⟩ := hA
  repeat' (first
    | with_reducible assumption
    | intro y
    | (extract_lets +onlyGivenNames x; first | (refine cut (P := Keeps A s x) ?_ ?_; (on_goal 1 => (unfold x; clear x)); (on_goal 2 => (intro hx; first | clear_value x | skip))) | clear_value x | skip)
    | (with_reducible apply emit_keeps (hA := by first | with_reducible assumption | with_reducible apply_assumption))
    | with_reducible apply keeps_ite
    | split
    | refine keeps_ite ?_ ?_
    | with_reducible exact keeps_cs (by assumption) (by assumption))

def touchCommandWindow (A : Part → Prop) : Prop := A .cs ∧ touchSendOrder A
theorem touchCommandWindow_all (h : ∀ q, A q) : touchCommandWindow A := ⟨h _, touchSendOrder_all h⟩
theorem commandWindow_keeps  (hA : touchCommandWindow A)  (h : Keeps A s t) : Keeps A s (State.commandWindow t) := by
  unfold State.commandWindow
  obtain ⟨_, _⟩ := hA
  repeat' (first
    | with_reducible assumption
    | intro y
    | (extract_lets +onlyGivenNames x; first | (refine cut (P := Keeps A s x) ?_ ?_; (on_goal 1 => (unfold x; clear x)); (on_goal 2 => (intro hx; first | clear_value x | skip))) | (refine cut (P := ∀ y, Keeps A s y → Keeps A s (x y)) ?_ ?_; (on_goal 1 => (unfold x; clear x)); (on_goal 2 => (intro hf; first | clear_value x | skip))) | (refine cut (P := ∀ y, Keeps A s (x y)) ?_ ?_; (on_goal 1 => (unfold x; clear x)); (on_goal 2 => (intro hf; first | clear_value x | skip))) | (refine cut (P := ∀ y z, Keeps A s y → Keeps A s (x y z)) ?_ ?_; (on_goal 1 => (unfold x; clear x)); (on_goal 2 => (intro hf; first | clear_value x | skip))) | (refine cut (P := ∀ y z, Keeps A s z → Keeps A s (x y z)) ?_ ?_; (on_goal 1 => (unfold x; clear x)); (on_goal 2 => (intro hf; first | clear_value x | skip))) | (refine cut (P := ∀ y z w, Keeps A s y → Keeps A s (x y z w)) ?_ ?_; (on_goal 1 => (unfold x; clear x)); (on_goal 2 => (intro hf; first | clear_value x | skip))) | (refine cut (P := ∀ (d : Nat) (g : State → State) (y : State), (∀ z, Keeps A s z → Keeps A s (g z)) → Keeps A s y → Keeps A s (x d g y)) ?_ ?_; (on_goal 1 => (unfold x; clear x)); (on_goal 2 => (intro hf; first | clear_value x | skip))) | clear_value x | skip)
    | (with_reducible apply sendOrder_keeps (hA := by first | with_reducible assumption | with_reducible apply_assumption))
    | with_reducible apply keeps_ite
    | with_reducible apply keeps_foldl
    | with_reducible apply hf
    | split
    | refine keeps_ite ?_ ?_
    | with_reducible exact keeps_cs (by assumption) (by assumption))

def touchSweepDone (A : Part → Prop) : Prop := touchUnitState A ∧ touchUnitCells A ∧ A (.reg R.CS_SWEEP_STAMP_LO.STAMP) ∧ A (.reg R.CS_SWEEP_STAMP_HI.STAMP) ∧ A (.reg R.CS_SWEEP.MISS) ∧ A (.reg R.CS_SWEEP.SWEEP) ∧ A (.reg R.CS_SWEEP.I_VALID) ∧ A (.reg R.CS_SWEEP_I.I) ∧ touchCellLimits A ∧ touchExtremes A ∧ A (.reg R.CS_CNT0.SWEEPS) ∧ touchAutoBalance A ∧ A .cs ∧ touchCommandWindow A
theorem touchSweepDone_all (h : ∀ q, A q) : touchSweepDone A := ⟨touchUnitState_all h, touchUnitCells_all h, h _, h _, h _, h _, h _, h _, touchCellLimits_all h, touchExtremes_all h, h _, touchAutoBalance_all h, h _, touchCommandWindow_all h⟩
theorem sweepDone_keeps  (hA : touchSweepDone A)  (h : Keeps A s t) : Keeps A s (State.sweepDone t) := by
  unfold State.sweepDone
  obtain ⟨_, _, _, _, _, _, _, _, _, _, _, _, _, _⟩ := hA
  repeat' (first
    | with_reducible assumption
    | intro y
    | (extract_lets +onlyGivenNames x; first | (refine cut (P := Keeps A s x) ?_ ?_; (on_goal 1 => (unfold x; clear x)); (on_goal 2 => (intro hx; first | clear_value x | skip))) | clear_value x | skip)
    | (with_reducible refine put_keepsAt (by assumption) ?_)
    | (with_reducible refine put_keeps (by assumption) ?_)
    | (with_reducible refine puti_keepsAt (by assumption) ?_)
    | (with_reducible refine puti_keeps (by assumption) ?_)
    | (with_reducible refine inc_keepsAt (by assumption) ?_)
    | (with_reducible refine inc_keeps (by assumption) ?_)
    | (with_reducible refine put2_keepsAt (by assumption) (by assumption) ?_)
    | (with_reducible refine put2_keeps (by assumption) (by assumption) ?_)
    | (with_reducible apply unitState_keeps (hA := by first | with_reducible assumption | with_reducible apply_assumption))
    | (with_reducible apply unitCells_keeps (hA := by first | with_reducible assumption | with_reducible apply_assumption))
    | (with_reducible apply cellLimits_keeps (hA := by first | with_reducible assumption | with_reducible apply_assumption))
    | (with_reducible apply extremes_keeps (hA := by first | with_reducible assumption | with_reducible apply_assumption))
    | (with_reducible apply autoBalance_keeps (hA := by first | with_reducible assumption | with_reducible apply_assumption))
    | (with_reducible apply commandWindow_keeps (hA := by first | with_reducible assumption | with_reducible apply_assumption))
    | with_reducible apply keeps_ite
    | with_reducible apply keeps_foldl
    | split
    | refine keeps_ite ?_ ?_
    | with_reducible exact keeps_cs (by assumption) (by assumption))

def touchExecCollectionEnd (A : Part → Prop) : Prop := touchLog A ∧ A (.reg R.CS_CNT1.MISSING) ∧ A .cs ∧ touchSweepDone A
theorem touchExecCollectionEnd_all (h : ∀ q, A q) : touchExecCollectionEnd A := ⟨touchLog_all h, h _, h _, touchSweepDone_all h⟩
theorem execCollectionEnd_next  (hA : touchExecCollectionEnd A) : ∃ u, execCollectionEnd s = .next u ∧ Keeps A s u := by
  unfold execCollectionEnd
  have h := Keeps.refl A s
  refine ⟨_, rfl, ?_⟩
  obtain ⟨_, _, _, _⟩ := hA
  repeat' (first
    | with_reducible assumption
    | intro y
    | (extract_lets +onlyGivenNames x; first | (refine cut (P := Keeps A s x) ?_ ?_; (on_goal 1 => (unfold x; clear x)); (on_goal 2 => (intro hx; first | clear_value x | skip))) | clear_value x | skip)
    | (with_reducible refine inc_keepsAt (by assumption) ?_)
    | (with_reducible refine inc_keeps (by assumption) ?_)
    | (with_reducible apply log_keeps (hA := by first | with_reducible assumption | with_reducible apply_assumption))
    | (with_reducible apply sweepDone_keeps (hA := by first | with_reducible assumption | with_reducible apply_assumption))
    | with_reducible apply keeps_ite
    | split
    | refine keeps_ite ?_ ?_
    | with_reducible exact keeps_cs (by assumption) (by assumption))

def touchExecRecollect (A : Part → Prop) : Prop := A (.reg R.CS_CNT1.RECOLL) ∧ A (.reg R.CS_STAT.STATE) ∧ A .cs ∧ touchEmit A
theorem touchExecRecollect_all (h : ∀ q, A q) : touchExecRecollect A := ⟨h _, h _, h _, touchEmit_all h⟩
theorem execRecollect_next  (hA : touchExecRecollect A) : ∃ u, execRecollect s = .next u ∧ Keeps A s u := by
  unfold execRecollect
  have h := Keeps.refl A s
  refine ⟨_, rfl, ?_⟩
  obtain ⟨_, _, _, _⟩ := hA
  repeat' (first
    | with_reducible assumption
    | intro y
    | (extract_lets +onlyGivenNames x; first | (refine cut (P := Keeps A s x) ?_ ?_; (on_goal 1 => (unfold x; clear x)); (on_goal 2 => (intro hx; first | clear_value x | skip))) | clear_value x | skip)
    | (with_reducible refine put_keepsAt (by assumption) ?_)
    | (with_reducible refine put_keeps (by assumption) ?_)
    | (with_reducible refine inc_keepsAt (by assumption) ?_)
    | (with_reducible refine inc_keeps (by assumption) ?_)
    | (with_reducible apply emit_keeps (hA := by first | with_reducible assumption | with_reducible apply_assumption))
    | with_reducible apply keeps_ite
    | split
    | refine keeps_ite ?_ ?_
    | with_reducible exact keeps_cs (by assumption) (by assumption))

def touchBreakAt (A : Part → Prop) : Prop := A (.reg R.CS_SEEN.BRK_SEEN) ∧ A (.reg R.CS_STAT.BRK_AT) ∧ A (.reg R.CS_STAT.BROKEN) ∧ touchLog A ∧ touchPartition A ∧ A .cs
theorem touchBreakAt_all (h : ∀ q, A q) : touchBreakAt A := ⟨h _, h _, h _, touchLog_all h, touchPartition_all h, h _⟩
theorem breakAt_keeps {b : ℕ} (hA : touchBreakAt A)  (h : Keeps A s t) : Keeps A s (State.breakAt t b) := by
  unfold State.breakAt
  obtain ⟨_, _, _, _, _, _⟩ := hA
  repeat' (first
    | with_reducible assumption
    | intro y
    | (extract_lets +onlyGivenNames x; first | (refine cut (P := Keeps A s x) ?_ ?_; (on_goal 1 => (unfold x; clear x)); (on_goal 2 => (intro hx; first | clear_value x | skip))) | clear_value x | skip)
    | (with_reducible refine put_keepsAt (by assumption) ?_)
    | (with_reducible refine put_keeps (by assumption) ?_)
    | (with_reducible apply log_keeps (hA := by first | with_reducible assumption | with_reducible apply_assumption))
    | (with_reducible apply partition_keeps (hA := by first | with_reducible assumption | with_reducible apply_assumption))
    | with_reducible apply keeps_ite
    | split
    | refine keeps_ite ?_ ?_
    | with_reducible exact keeps_cs (by assumption) (by assumption))

def touchExecRecollectEnd (A : Part → Prop) : Prop := touchBreakAt A ∧ touchLog A ∧ touchSweepDone A ∧ touchPerShow A ∧ A (.reg R.CS_STAT.STATE)
theorem touchExecRecollectEnd_all (h : ∀ q, A q) : touchExecRecollectEnd A := ⟨touchBreakAt_all h, touchLog_all h, touchSweepDone_all h, touchPerShow_all h, h _⟩
theorem execRecollectEnd_next  (hA : touchExecRecollectEnd A) : ∃ u, execRecollectEnd s = .next u ∧ Keeps A s u := by
  unfold execRecollectEnd
  have h := Keeps.refl A s
  refine ⟨_, rfl, ?_⟩
  obtain ⟨_, _, _, _, _⟩ := hA
  repeat' (first
    | with_reducible assumption
    | intro y
    | (extract_lets +onlyGivenNames x; first | (refine cut (P := Keeps A s x) ?_ ?_; (on_goal 1 => (unfold x; clear x)); (on_goal 2 => (intro hx; first | clear_value x | skip))) | clear_value x | skip)
    | (with_reducible refine put_keepsAt (by assumption) ?_)
    | (with_reducible refine put_keeps (by assumption) ?_)
    | (with_reducible apply breakAt_keeps (hA := by first | with_reducible assumption | with_reducible apply_assumption))
    | (with_reducible apply log_keeps (hA := by first | with_reducible assumption | with_reducible apply_assumption))
    | (with_reducible apply sweepDone_keeps (hA := by first | with_reducible assumption | with_reducible apply_assumption))
    | (with_reducible apply perShow_keeps (hA := by first | with_reducible assumption | with_reducible apply_assumption))
    | with_reducible apply keeps_ite
    | split
    | refine keeps_ite ?_ ?_)

def touchExecHealProbe (A : Part → Prop) : Prop := touchDiscover A ∧ A .cs ∧ A (.reg R.CS_STAT.N) ∧ touchPartition A ∧ A (.reg R.CS_STAT.BRK_AT) ∧ A (.reg R.CS_STAT.BROKEN) ∧ touchLog A ∧ touchPerShow A
theorem touchExecHealProbe_all (h : ∀ q, A q) : touchExecHealProbe A := ⟨touchDiscover_all h, h _, h _, touchPartition_all h, h _, h _, touchLog_all h, touchPerShow_all h⟩
theorem execHealProbe_next {reached : Bool} (hA : touchExecHealProbe A) : ∃ u, execHealProbe reached s = .next u ∧ Keeps A s u := by
  unfold execHealProbe
  have h := Keeps.refl A s
  refine ⟨_, rfl, ?_⟩
  obtain ⟨_, _, _, _, _, _, _, _⟩ := hA
  repeat' (first
    | with_reducible assumption
    | intro y
    | (extract_lets +onlyGivenNames x; first | (refine cut (P := Keeps A s x) ?_ ?_; (on_goal 1 => (unfold x; clear x)); (on_goal 2 => (intro hx; first | clear_value x | skip))) | clear_value x | skip)
    | (with_reducible refine put_keepsAt (by assumption) ?_)
    | (with_reducible refine put_keeps (by assumption) ?_)
    | (with_reducible apply discover_keeps (hA := by first | with_reducible assumption | with_reducible apply_assumption))
    | (with_reducible apply partition_keeps (hA := by first | with_reducible assumption | with_reducible apply_assumption))
    | (with_reducible apply log_keeps (hA := by first | with_reducible assumption | with_reducible apply_assumption))
    | (with_reducible apply perShow_keeps (hA := by first | with_reducible assumption | with_reducible apply_assumption))
    | with_reducible apply keeps_ite
    | split
    | refine keeps_ite ?_ ?_
    | with_reducible exact keeps_cs (by assumption) (by assumption))

def touchBalSend (A : Part → Prop) : Prop := touchQueueOrder A
theorem touchBalSend_all (h : ∀ q, A q) : touchBalSend A := touchQueueOrder_all h
theorem balSend_keeps {i : ℕ} (hA : touchBalSend A)  (h : Keeps A s t) : Keeps A s (State.balSend t i) := by
  unfold State.balSend
  unfold touchBalSend at hA
  repeat' (first
    | with_reducible assumption
    | intro y
    | (with_reducible apply queueOrder_keeps (hA := by first | with_reducible assumption | with_reducible apply_assumption))
    | with_reducible apply keeps_ite
    | split)

def touchExecOrderSend (A : Part → Prop) : Prop := touchGuarded A ∧ touchBalSend A
theorem touchExecOrderSend_all (h : ∀ q, A q) : touchExecOrderSend A := ⟨touchGuarded_all h, touchBalSend_all h⟩
theorem execOrderSend_next {sess : ℕ} {i : ℕ} (hA : touchExecOrderSend A) : ∃ u, execOrderSend sess i s = .next u ∧ Keeps A s u := by
  unfold execOrderSend
  have h := Keeps.refl A s
  refine ⟨_, rfl, ?_⟩
  obtain ⟨_, _⟩ := hA
  repeat' (first
    | with_reducible assumption
    | intro y
    | (with_reducible apply guarded_keeps (hA := by first | with_reducible assumption | with_reducible apply_assumption))
    | (with_reducible apply balSend_keeps (hA := by first | with_reducible assumption | with_reducible apply_assumption))
    | with_reducible apply keeps_ite
    | split)

def touchExecSweepStart (A : Part → Prop) : Prop := A .cs ∧ touchLaRun A ∧ A (.reg R.CS_SNAP_OFS.SNAP_OFS) ∧ A (.reg R.CS_CTRL.PER_HC) ∧ touchPerShow A
theorem touchExecSweepStart_all (h : ∀ q, A q) : touchExecSweepStart A := ⟨h _, touchLaRun_all h, h _, h _, touchPerShow_all h⟩
theorem execSweepStart_next  (hA : touchExecSweepStart A) : ∃ u, execSweepStart s = .next u ∧ Keeps A s u := by
  unfold execSweepStart
  have h := Keeps.refl A s
  refine ⟨_, rfl, ?_⟩
  obtain ⟨_, _, _, _, _⟩ := hA
  repeat' (first
    | with_reducible assumption
    | intro y
    | (extract_lets +onlyGivenNames x; first | (refine cut (P := Keeps A s x) ?_ ?_; (on_goal 1 => (unfold x; clear x)); (on_goal 2 => (intro hx; first | clear_value x | skip))) | clear_value x | skip)
    | (with_reducible apply laRun_keeps (hA := by first | with_reducible assumption | with_reducible apply_assumption))
    | (with_reducible refine put_keepsAt (by assumption) ?_)
    | (with_reducible refine put_keeps (by assumption) ?_)
    | (with_reducible apply perShow_keeps (hA := by first | with_reducible assumption | with_reducible apply_assumption))
    | with_reducible apply keeps_ite
    | split
    | refine keeps_ite ?_ ?_
    | with_reducible exact keeps_cs (by assumption) (by assumption))

def touchExecSweepStop (A : Part → Prop) : Prop := A .cs ∧ touchLaRun A
theorem touchExecSweepStop_all (h : ∀ q, A q) : touchExecSweepStop A := ⟨h _, touchLaRun_all h⟩
theorem execSweepStop_next  (hA : touchExecSweepStop A) : ∃ u, execSweepStop s = .next u ∧ Keeps A s u := by
  unfold execSweepStop
  have h := Keeps.refl A s
  refine ⟨_, rfl, ?_⟩
  obtain ⟨_, _⟩ := hA
  repeat' (first
    | with_reducible assumption
    | intro y
    | (extract_lets +onlyGivenNames x; first | (refine cut (P := Keeps A s x) ?_ ?_; (on_goal 1 => (unfold x; clear x)); (on_goal 2 => (intro hx; first | clear_value x | skip))) | clear_value x | skip)
    | (with_reducible apply laRun_keeps (hA := by first | with_reducible assumption | with_reducible apply_assumption))
    | with_reducible apply keeps_ite
    | split
    | with_reducible exact keeps_cs (by assumption) (by assumption))

def touchExecCellQuery (A : Part → Prop) : Prop := touchEmit A
theorem touchExecCellQuery_all (h : ∀ q, A q) : touchExecCellQuery A := touchEmit_all h
theorem execCellQuery_next {src : ℕ} {k : ℕ} (hA : touchExecCellQuery A) : ∃ u, execCellQuery src k s = .next u ∧ Keeps A s u := by
  unfold execCellQuery
  have h := Keeps.refl A s
  refine ⟨_, rfl, ?_⟩
  unfold touchExecCellQuery at hA
  repeat' (first
    | with_reducible assumption
    | intro y
    | (extract_lets +onlyGivenNames x; first | (refine cut (P := Keeps A s x) ?_ ?_; (on_goal 1 => (unfold x; clear x)); (on_goal 2 => (intro hx; first | clear_value x | skip))) | clear_value x | skip)
    | (with_reducible apply emit_keeps (hA := by first | with_reducible assumption | with_reducible apply_assumption))
    | with_reducible apply keeps_ite
    | split
    | refine keeps_ite ?_ ?_)

def touchExecRingLost (A : Part → Prop) : Prop := touchCsWake A ∧ A .cs
theorem touchExecRingLost_all (h : ∀ q, A q) : touchExecRingLost A := ⟨touchCsWake_all h, h _⟩
theorem execRingLost_next  (hA : touchExecRingLost A) : ∃ u, execRingLost s = .next u ∧ Keeps A s u := by
  unfold execRingLost
  have h := Keeps.refl A s
  refine ⟨_, rfl, ?_⟩
  obtain ⟨_, _⟩ := hA
  repeat' (first
    | with_reducible assumption
    | intro y
    | (extract_lets +onlyGivenNames x; first | (refine cut (P := Keeps A s x) ?_ ?_; (on_goal 1 => (unfold x; clear x)); (on_goal 2 => (intro hx; first | clear_value x | skip))) | clear_value x | skip)
    | (with_reducible apply csWake_keeps (hA := by first | with_reducible assumption | with_reducible apply_assumption))
    | with_reducible apply keeps_ite
    | split
    | refine keeps_ite ?_ ?_
    | with_reducible exact keeps_cs (by assumption) (by assumption))

def touchExecCsDisable (A : Part → Prop) : Prop := A (.reg R.CS_STAT.STATE) ∧ A .cs
theorem touchExecCsDisable_all (h : ∀ q, A q) : touchExecCsDisable A := ⟨h _, h _⟩
theorem execCsDisable_next  (hA : touchExecCsDisable A) : ∃ u, execCsDisable s = .next u ∧ Keeps A s u := by
  unfold execCsDisable
  have h := Keeps.refl A s
  refine ⟨_, rfl, ?_⟩
  obtain ⟨_, _⟩ := hA
  repeat' (first
    | with_reducible assumption
    | intro y
    | (extract_lets +onlyGivenNames x; first | (refine cut (P := Keeps A s x) ?_ ?_; (on_goal 1 => (unfold x; clear x)); (on_goal 2 => (intro hx; first | clear_value x | skip))) | clear_value x | skip)
    | (with_reducible refine put_keepsAt (by assumption) ?_)
    | (with_reducible refine put_keeps (by assumption) ?_)
    | with_reducible apply keeps_ite
    | split
    | refine keeps_ite ?_ ?_
    | with_reducible exact keeps_cs (by assumption) (by assumption))

end Sys2Proof.Laws
end

