-- ==== Sys2Proof/Laws/KeepsEventLog.lean ====
section
/-! SUPPORT. What the operations of Machine/EventLog.lean leave alone: for each the parts it may change (`touch…`) and its lemma. -/

namespace Sys2Proof.Laws

open Sys2Proof.Machine

set_option linter.unusedTactic false
set_option linter.unreachableTactic false
set_option linter.unusedVariables false
set_option linter.tactic.unusedName false

variable {A : Part → Prop} {s t : State}

def touchExecEventRecord (A : Part → Prop) : Prop := touchStoreOp A ∧ A .evr ∧ touchLog A
theorem touchExecEventRecord_all (h : ∀ q, A q) : touchExecEventRecord A := ⟨touchStoreOp_all h, h _, touchLog_all h⟩
theorem execEventRecord_next  (hA : touchExecEventRecord A) : ∃ u, execEventRecord s = .next u ∧ Keeps A s u := by
  unfold execEventRecord
  have h := Keeps.refl A s
  refine ⟨_, rfl, ?_⟩
  obtain ⟨_, _, _⟩ := hA
  repeat' (first
    | with_reducible assumption
    | intro y
    | (extract_lets +onlyGivenNames x; first | (refine cut (P := Keeps A s x) ?_ ?_; (on_goal 1 => (unfold x; clear x)); (on_goal 2 => (intro hx; first | clear_value x | skip))) | (unfold x; clear x) | clear_value x | skip)
    | (with_reducible apply storeOp_keeps (hA := by first | with_reducible assumption | with_reducible apply_assumption))
    | (with_reducible apply log_keeps (hA := by first | with_reducible assumption | with_reducible apply_assumption))
    | with_reducible apply keeps_ite
    | split
    | refine keeps_ite ?_ ?_
    | with_reducible exact keeps_evr (by assumption) (by first | exact List.prefix_rfl | exact List.prefix_append _ _ | exact intake_mor _ _ | exact hold78_mor _ _ | exact release_mor _) (by assumption))

def touchLogClear (A : Part → Prop) : Prop := A .evr ∧ touchLog A ∧ touchOpFill A
theorem touchLogClear_all (h : ∀ q, A q) : touchLogClear A := ⟨h _, touchLog_all h, touchOpFill_all h⟩
theorem logClear_keeps {sess : ℕ} {v : ℕ} (hA : touchLogClear A)  (h : Keeps A s t) : Keeps A s (State.logClear t sess v) := by
  unfold State.logClear
  obtain ⟨_, _, _⟩ := hA
  repeat' (first
    | with_reducible assumption
    | intro y
    | (extract_lets +onlyGivenNames x; first | (refine cut (P := Keeps A s x) ?_ ?_; (on_goal 1 => (unfold x; clear x)); (on_goal 2 => (intro hx; first | clear_value x | skip))) | (unfold x; clear x) | clear_value x | skip)
    | (with_reducible apply log_keeps (hA := by first | with_reducible assumption | with_reducible apply_assumption))
    | (with_reducible apply opFill_keeps (hA := by first | with_reducible assumption | with_reducible apply_assumption))
    | with_reducible apply keeps_ite
    | split
    | refine keeps_ite ?_ ?_
    | with_reducible exact keeps_evr (by assumption) (by first | exact List.prefix_rfl | exact List.prefix_append _ _ | exact intake_mor _ _ | exact hold78_mor _ _ | exact release_mor _) (by assumption))

def touchExecLogClear (A : Part → Prop) : Prop := touchReport A ∧ touchLogClear A
theorem touchExecLogClear_all (h : ∀ q, A q) : touchExecLogClear A := ⟨touchReport_all h, touchLogClear_all h⟩
theorem execLogClear_next {sess : ℕ} {v : ℕ} (hA : touchExecLogClear A) : ∃ u, execLogClear sess v s = .next u ∧ Keeps A s u := by
  unfold execLogClear
  have h := Keeps.refl A s
  refine ⟨_, rfl, ?_⟩
  obtain ⟨_, _⟩ := hA
  repeat' (first
    | with_reducible assumption
    | intro y
    | (with_reducible apply report_keeps (hA := by first | with_reducible assumption | with_reducible apply_assumption))
    | (with_reducible apply logClear_keeps (hA := by first | with_reducible assumption | with_reducible apply_assumption))
    | with_reducible apply keeps_ite
    | split)

def touchCrcFailed (A : Part → Prop) : Prop := touchLog A ∧ A (.reg R.EVR_CRC.CRC_ERR)
theorem touchCrcFailed_all (h : ∀ q, A q) : touchCrcFailed A := ⟨touchLog_all h, h _⟩
theorem crcFailed_keeps {log : ℕ} {seq : ℕ} (hA : touchCrcFailed A)  (h : Keeps A s t) : Keeps A s (State.crcFailed t log seq) := by
  unfold State.crcFailed
  obtain ⟨_, _⟩ := hA
  repeat' (first
    | with_reducible assumption
    | intro y
    | (with_reducible apply log_keeps (hA := by first | with_reducible assumption | with_reducible apply_assumption))
    | (with_reducible refine inc_keepsAt (by assumption) ?_)
    | (with_reducible refine inc_keeps (by assumption) ?_)
    | with_reducible apply keeps_ite
    | split)

def touchWindowLoad (A : Part → Prop) : Prop := touchSetSes A ∧ touchCrcFailed A
theorem touchWindowLoad_all (h : ∀ q, A q) : touchWindowLoad A := ⟨touchSetSes_all h, touchCrcFailed_all h⟩
theorem windowLoad_keeps {sess : ℕ} {v : ℕ} {ok : Bool} (hA : touchWindowLoad A)  (h : Keeps A s t) : Keeps A s (State.windowLoad t sess v ok) := by
  unfold State.windowLoad
  obtain ⟨_, _⟩ := hA
  repeat' (first
    | with_reducible assumption
    | intro y
    | (extract_lets +onlyGivenNames x; first | (refine cut (P := Keeps A s x) ?_ ?_; (on_goal 1 => (unfold x; clear x)); (on_goal 2 => (intro hx; first | clear_value x | skip))) | clear_value x | skip)
    | (with_reducible apply setSes_keeps (hA := by first | with_reducible assumption | with_reducible apply_assumption))
    | (with_reducible apply crcFailed_keeps (hA := by first | with_reducible assumption | with_reducible apply_assumption))
    | with_reducible apply keeps_ite
    | split
    | refine keeps_ite ?_ ?_)

def touchExecLogReadLoad (A : Part → Prop) : Prop := touchGuarded A ∧ touchReport A ∧ touchWindowLoad A
theorem touchExecLogReadLoad_all (h : ∀ q, A q) : touchExecLogReadLoad A := ⟨touchGuarded_all h, touchReport_all h, touchWindowLoad_all h⟩
theorem execLogReadLoad_next {sess : ℕ} {v : ℕ} {ok : Bool} (hA : touchExecLogReadLoad A) : ∃ u, execLogReadLoad sess v ok s = .next u ∧ Keeps A s u := by
  unfold execLogReadLoad
  have h := Keeps.refl A s
  refine ⟨_, rfl, ?_⟩
  obtain ⟨_, _, _⟩ := hA
  repeat' (first
    | with_reducible assumption
    | intro y
    | (with_reducible apply guarded_keeps (hA := by first | with_reducible assumption | with_reducible apply_assumption))
    | (with_reducible apply report_keeps (hA := by first | with_reducible assumption | with_reducible apply_assumption))
    | (with_reducible apply windowLoad_keeps (hA := by first | with_reducible assumption | with_reducible apply_assumption))
    | with_reducible apply keeps_ite
    | split)

def touchWindowNext (A : Part → Prop) : Prop := touchWindowLoad A
theorem touchWindowNext_all (h : ∀ q, A q) : touchWindowNext A := touchWindowLoad_all h
theorem windowNext_keeps {sess : ℕ} {ok : Bool} (hA : touchWindowNext A)  (h : Keeps A s t) : Keeps A s (State.windowNext t sess ok) := by
  unfold State.windowNext
  unfold touchWindowNext at hA
  repeat' (first
    | with_reducible assumption
    | intro y
    | (extract_lets +onlyGivenNames x; first | (refine cut (P := Keeps A s x) ?_ ?_; (on_goal 1 => (unfold x; clear x)); (on_goal 2 => (intro hx; first | clear_value x | skip))) | clear_value x | skip)
    | (with_reducible apply windowLoad_keeps (hA := by first | with_reducible assumption | with_reducible apply_assumption))
    | with_reducible apply keeps_ite
    | split
    | refine keeps_ite ?_ ?_)

def touchExecLogReadNext (A : Part → Prop) : Prop := touchReport A ∧ touchWindowNext A
theorem touchExecLogReadNext_all (h : ∀ q, A q) : touchExecLogReadNext A := ⟨touchReport_all h, touchWindowNext_all h⟩
theorem execLogReadNext_next {sess : ℕ} {ok : Bool} (hA : touchExecLogReadNext A) : ∃ u, execLogReadNext sess ok s = .next u ∧ Keeps A s u := by
  unfold execLogReadNext
  have h := Keeps.refl A s
  refine ⟨_, rfl, ?_⟩
  obtain ⟨_, _⟩ := hA
  repeat' (first
    | with_reducible assumption
    | intro y
    | (with_reducible apply report_keeps (hA := by first | with_reducible assumption | with_reducible apply_assumption))
    | (with_reducible apply windowNext_keeps (hA := by first | with_reducible assumption | with_reducible apply_assumption))
    | with_reducible apply keeps_ite
    | split)

def touchSearch (A : Part → Prop) : Prop := touchSetSes A
theorem touchSearch_all (h : ∀ q, A q) : touchSearch A := touchSetSes_all h
theorem search_keeps {sess : ℕ} {key : ℕ} {log : ℕ} (hA : touchSearch A)  (h : Keeps A s t) : Keeps A s (State.search t sess key log) := by
  unfold State.search
  unfold touchSearch at hA
  repeat' (first
    | with_reducible assumption
    | intro y
    | (extract_lets +onlyGivenNames x; first | (refine cut (P := Keeps A s x) ?_ ?_; (on_goal 1 => (unfold x; clear x)); (on_goal 2 => (intro hx; first | clear_value x | skip))) | clear_value x | skip)
    | (with_reducible apply setSes_keeps (hA := by first | with_reducible assumption | with_reducible apply_assumption))
    | with_reducible apply keeps_ite
    | split
    | refine keeps_ite ?_ ?_)

def touchExecLogSearch (A : Part → Prop) : Prop := touchGuarded A ∧ touchReport A ∧ touchSearch A
theorem touchExecLogSearch_all (h : ∀ q, A q) : touchExecLogSearch A := ⟨touchGuarded_all h, touchReport_all h, touchSearch_all h⟩
theorem execLogSearch_next {sess : ℕ} {key : ℕ} {log : ℕ} (hA : touchExecLogSearch A) : ∃ u, execLogSearch sess key log s = .next u ∧ Keeps A s u := by
  unfold execLogSearch
  have h := Keeps.refl A s
  refine ⟨_, rfl, ?_⟩
  obtain ⟨_, _, _⟩ := hA
  repeat' (first
    | with_reducible assumption
    | intro y
    | (with_reducible apply guarded_keeps (hA := by first | with_reducible assumption | with_reducible apply_assumption))
    | (with_reducible apply report_keeps (hA := by first | with_reducible assumption | with_reducible apply_assumption))
    | (with_reducible apply search_keeps (hA := by first | with_reducible assumption | with_reducible apply_assumption))
    | with_reducible apply keeps_ite
    | split)

def touchExecLogCrcCheck (A : Part → Prop) : Prop := touchCrcFailed A
theorem touchExecLogCrcCheck_all (h : ∀ q, A q) : touchExecLogCrcCheck A := touchCrcFailed_all h
theorem execLogCrcCheck_next {op : List ℕ} {mor : List ℕ} (hA : touchExecLogCrcCheck A) : ∃ u, execLogCrcCheck op mor s = .next u ∧ Keeps A s u := by
  unfold execLogCrcCheck
  have h := Keeps.refl A s
  refine ⟨_, rfl, ?_⟩
  unfold touchExecLogCrcCheck at hA
  repeat' (first
    | with_reducible assumption
    | intro y
    | (extract_lets +onlyGivenNames x; first | (refine cut (P := Keeps A s x) ?_ ?_; (on_goal 1 => (unfold x; clear x)); (on_goal 2 => (intro hx; first | clear_value x | skip))) | (refine cut (P := ∀ y, Keeps A s y → Keeps A s (x y)) ?_ ?_; (on_goal 1 => (unfold x; clear x)); (on_goal 2 => (intro hf; first | clear_value x | skip))) | (refine cut (P := ∀ y, Keeps A s (x y)) ?_ ?_; (on_goal 1 => (unfold x; clear x)); (on_goal 2 => (intro hf; first | clear_value x | skip))) | (refine cut (P := ∀ y z, Keeps A s y → Keeps A s (x y z)) ?_ ?_; (on_goal 1 => (unfold x; clear x)); (on_goal 2 => (intro hf; first | clear_value x | skip))) | (refine cut (P := ∀ y z, Keeps A s z → Keeps A s (x y z)) ?_ ?_; (on_goal 1 => (unfold x; clear x)); (on_goal 2 => (intro hf; first | clear_value x | skip))) | (refine cut (P := ∀ y z w, Keeps A s y → Keeps A s (x y z w)) ?_ ?_; (on_goal 1 => (unfold x; clear x)); (on_goal 2 => (intro hf; first | clear_value x | skip))) | (refine cut (P := ∀ (d : Nat) (g : State → State) (y : State), (∀ z, Keeps A s z → Keeps A s (g z)) → Keeps A s y → Keeps A s (x d g y)) ?_ ?_; (on_goal 1 => (unfold x; clear x)); (on_goal 2 => (intro hf; first | clear_value x | skip))) | clear_value x | skip)
    | (with_reducible apply crcFailed_keeps (hA := by first | with_reducible assumption | with_reducible apply_assumption))
    | with_reducible apply keeps_ite
    | with_reducible apply keeps_foldl
    | with_reducible apply hf
    | split
    | refine keeps_ite ?_ ?_)

def touchExecSiteMark (A : Part → Prop) : Prop := touchLaRun A ∧ touchLog A
theorem touchExecSiteMark_all (h : ∀ q, A q) : touchExecSiteMark A := ⟨touchLaRun_all h, touchLog_all h⟩
theorem execSiteMark_next  (hA : touchExecSiteMark A) : ∃ u, execSiteMark s = .next u ∧ Keeps A s u := by
  unfold execSiteMark
  have h := Keeps.refl A s
  refine ⟨_, rfl, ?_⟩
  obtain ⟨_, _⟩ := hA
  repeat' (first
    | with_reducible assumption
    | intro y
    | (with_reducible apply laRun_keeps (hA := by first | with_reducible assumption | with_reducible apply_assumption))
    | (with_reducible apply log_keeps (hA := by first | with_reducible assumption | with_reducible apply_assumption))
    | with_reducible apply keeps_ite
    | split)

end Sys2Proof.Laws
end

