-- ==== Sys2Proof/Laws/KeepsFabric.lean ====
section
/-! SUPPORT. What the operations of Machine/Fabric.lean leave alone: for each the parts it may change (`touch…`) and its lemma. -/

namespace Sys2Proof.Laws

open Sys2Proof.Machine

set_option linter.unusedTactic false
set_option linter.unreachableTactic false
set_option linter.unusedVariables false
set_option linter.tactic.unusedName false

variable {A : Part → Prop} {s t : State}

def touchSetLos (A : Part → Prop) (n : Nat) : Prop := A (.inst R.FAB_LANE_STAT.LOS n 0)
theorem touchSetLos_all (h : ∀ q, A q) {n : Nat} : touchSetLos A n := h _
theorem setLos_keeps {n : ℕ} {los : Bool} (hA : touchSetLos A n)  (h : Keeps A s t) : Keeps A s (State.setLos t n los) := by
  unfold State.setLos
  unfold touchSetLos at hA
  repeat' (first
    | with_reducible assumption
    | intro y
    | (with_reducible refine putb_keepsAt (by assumption) ?_)
    | (with_reducible refine putb_keeps (by assumption) ?_)
    | with_reducible apply keeps_ite
    | split)

def touchLaneTrain (A : Part → Prop) (n : Nat) : Prop := touchEmit A ∧ A (.inst R.FAB_LANE_STAT.STATE n 0)
theorem touchLaneTrain_all (h : ∀ q, A q) {n : Nat} : touchLaneTrain A n := ⟨touchEmit_all h, h _⟩
theorem laneTrain_keeps {n : ℕ} (hA : touchLaneTrain A n)  (h : Keeps A s t) : Keeps A s (State.laneTrain t n) := by
  unfold State.laneTrain
  obtain ⟨_, _⟩ := hA
  repeat' (first
    | with_reducible assumption
    | intro y
    | (with_reducible apply emit_keeps (hA := by first | with_reducible assumption | with_reducible apply_assumption))
    | (with_reducible refine put_keepsAt (by assumption) ?_)
    | (with_reducible refine put_keeps (by assumption) ?_)
    | with_reducible apply keeps_ite
    | split)

def touchExecLaneTrain (A : Part → Prop) (n : Nat) : Prop := touchSetLos A n ∧ touchFabStart A ∧ touchLaneTrain A n
theorem touchExecLaneTrain_all (h : ∀ q, A q) {n : Nat} : touchExecLaneTrain A n := ⟨touchSetLos_all h, touchFabStart_all h, touchLaneTrain_all h⟩
theorem execLaneTrain_next {n : ℕ} {los : Bool} (hA : touchExecLaneTrain A n) : ∃ u, execLaneTrain n los s = .next u ∧ Keeps A s u := by
  unfold execLaneTrain
  have h := Keeps.refl A s
  refine ⟨_, rfl, ?_⟩
  obtain ⟨_, _, _⟩ := hA
  repeat' (first
    | with_reducible assumption
    | intro y
    | (extract_lets +onlyGivenNames x; first | (refine cut (P := Keeps A s x) ?_ ?_; (on_goal 1 => (unfold x; clear x)); (on_goal 2 => (intro hx; first | clear_value x | skip))) | clear_value x | skip)
    | (with_reducible apply setLos_keeps (hA := by first | with_reducible assumption | with_reducible apply_assumption))
    | (with_reducible apply fabStart_keeps (hA := by first | with_reducible assumption | with_reducible apply_assumption))
    | (with_reducible apply laneTrain_keeps (hA := by first | with_reducible assumption | with_reducible apply_assumption))
    | with_reducible apply keeps_ite
    | split
    | refine keeps_ite ?_ ?_)

def touchExecLaneTrainTimeout (A : Part → Prop) (n : Nat) : Prop := A .fab ∧ A (.inst R.FAB_LANE_STAT.STATE n 0)
theorem touchExecLaneTrainTimeout_all (h : ∀ q, A q) {n : Nat} : touchExecLaneTrainTimeout A n := ⟨h _, h _⟩
theorem execLaneTrainTimeout_next {n : ℕ} {ms : ℕ} (hA : touchExecLaneTrainTimeout A n) : ∃ u, execLaneTrainTimeout n ms s = .next u ∧ Keeps A s u := by
  unfold execLaneTrainTimeout
  have h := Keeps.refl A s
  refine ⟨_, rfl, ?_⟩
  obtain ⟨_, _⟩ := hA
  repeat' (first
    | with_reducible assumption
    | intro y
    | (extract_lets +onlyGivenNames x; first | (refine cut (P := Keeps A s x) ?_ ?_; (on_goal 1 => (unfold x; clear x)); (on_goal 2 => (intro hx; first | clear_value x | skip))) | clear_value x | skip)
    | (with_reducible refine put_keepsAt (by assumption) ?_)
    | (with_reducible refine put_keeps (by assumption) ?_)
    | with_reducible apply keeps_ite
    | split
    | with_reducible exact keeps_fab (by assumption) (by assumption))

def touchExecLaneRetry (A : Part → Prop) (n : Nat) : Prop := A .fab ∧ touchSetLos A n ∧ touchLaneTrain A n
theorem touchExecLaneRetry_all (h : ∀ q, A q) {n : Nat} : touchExecLaneRetry A n := ⟨h _, touchSetLos_all h, touchLaneTrain_all h⟩
theorem execLaneRetry_next {n : ℕ} {ms : ℕ} {los : Bool} (hA : touchExecLaneRetry A n) : ∃ u, execLaneRetry n ms los s = .next u ∧ Keeps A s u := by
  unfold execLaneRetry
  have h := Keeps.refl A s
  refine ⟨_, rfl, ?_⟩
  obtain ⟨_, _, _⟩ := hA
  repeat' (first
    | with_reducible assumption
    | intro y
    | (extract_lets +onlyGivenNames x; first | (refine cut (P := Keeps A s x) ?_ ?_; (on_goal 1 => (unfold x; clear x)); (on_goal 2 => (intro hx; first | clear_value x | skip))) | clear_value x | skip)
    | (with_reducible apply setLos_keeps (hA := by first | with_reducible assumption | with_reducible apply_assumption))
    | (with_reducible apply laneTrain_keeps (hA := by first | with_reducible assumption | with_reducible apply_assumption))
    | with_reducible apply keeps_ite
    | split
    | refine keeps_ite ?_ ?_
    | with_reducible exact keeps_fab (by assumption) (by assumption))

def touchExecLaneHold (A : Part → Prop) (n : Nat) : Prop := A (.inst R.FAB_LANE_DLY.DLY n 0) ∧ A (.inst R.FAB_LANE_STAT.NBR_ID n 0) ∧ A (.inst R.FAB_LANE_STAT.STATE n 0) ∧ A (.inst R.FAB_LANE_NBR_HI.SERIAL n 0) ∧ A (.inst R.FAB_LANE_NBR_LO.SERIAL n 0) ∧ touchEmit A ∧ A .fab
theorem touchExecLaneHold_all (h : ∀ q, A q) {n : Nat} : touchExecLaneHold A n := ⟨h _, h _, h _, h _, h _, touchEmit_all h, h _⟩
theorem execLaneHold_next {n : ℕ} {node : ℕ} {dly : ℕ} {count : ℕ} {key : Sys2Proof.FabKey} (hA : touchExecLaneHold A n) : ∃ u, execLaneHold n node dly count key s = .next u ∧ Keeps A s u := by
  unfold execLaneHold
  have h := Keeps.refl A s
  refine ⟨_, rfl, ?_⟩
  obtain ⟨_, _, _, _, _, _, _⟩ := hA
  repeat' (first
    | with_reducible assumption
    | intro y
    | (extract_lets +onlyGivenNames x; first | (refine cut (P := Keeps A s x) ?_ ?_; (on_goal 1 => (unfold x; clear x)); (on_goal 2 => (intro hx; first | clear_value x | skip))) | clear_value x | skip)
    | (with_reducible refine put_keepsAt (by assumption) ?_)
    | (with_reducible refine put_keeps (by assumption) ?_)
    | (with_reducible refine putMax_keepsAt (by assumption) ?_)
    | (with_reducible refine putMax_keeps (by assumption) ?_)
    | (with_reducible apply emit_keeps (hA := by first | with_reducible assumption | with_reducible apply_assumption))
    | with_reducible apply keeps_ite
    | split
    | refine keeps_ite ?_ ?_
    | with_reducible exact keeps_fab (by assumption) (by assumption))

def touchExecLaneActive (A : Part → Prop) (n : Nat) : Prop := touchLaneDown A n ∧ touchLog A ∧ touchFabLinkUp A ∧ A (.inst R.FAB_LANE_STAT.STATE n 0) ∧ touchSetLane A
theorem touchExecLaneActive_all (h : ∀ q, A q) {n : Nat} : touchExecLaneActive A n := ⟨touchLaneDown_all h, touchLog_all h, touchFabLinkUp_all h, h _, touchSetLane_all h⟩
theorem execLaneActive_next {n : ℕ} {ms : ℕ} {downS : Option ℕ} (hA : touchExecLaneActive A n) : ∃ u, execLaneActive n ms downS s = .next u ∧ Keeps A s u := by
  unfold execLaneActive
  have h := Keeps.refl A s
  refine ⟨_, rfl, ?_⟩
  obtain ⟨_, _, _, _, _⟩ := hA
  repeat' (first
    | with_reducible assumption
    | intro y
    | (extract_lets +onlyGivenNames x; first | (refine cut (P := Keeps A s x) ?_ ?_; (on_goal 1 => (unfold x; clear x)); (on_goal 2 => (intro hx; first | clear_value x | skip))) | clear_value x | skip)
    | (with_reducible refine put_keepsAt (by assumption) ?_)
    | (with_reducible refine put_keeps (by assumption) ?_)
    | (with_reducible apply laneDown_keeps (hA := by first | with_reducible assumption | with_reducible apply_assumption))
    | (with_reducible apply log_keeps (hA := by first | with_reducible assumption | with_reducible apply_assumption))
    | (with_reducible apply fabLinkUp_keeps (hA := by first | with_reducible assumption | with_reducible apply_assumption))
    | (with_reducible apply setLane_keeps (hA := by first | with_reducible assumption | with_reducible apply_assumption))
    | with_reducible apply keeps_ite
    | split
    | refine keeps_ite ?_ ?_)

def touchExecLaneDown (A : Part → Prop) (n : Nat) : Prop := touchPlcLinkDown A ∧ touchLaneDown A n ∧ touchSetLos A n
theorem touchExecLaneDown_all (h : ∀ q, A q) {n : Nat} : touchExecLaneDown A n := ⟨touchPlcLinkDown_all h, touchLaneDown_all h, touchSetLos_all h⟩
theorem execLaneDown_next {n : ℕ} {cause : ℕ} {m : ℕ} (hA : touchExecLaneDown A n) : ∃ u, execLaneDown n cause m s = .next u ∧ Keeps A s u := by
  unfold execLaneDown
  have h := Keeps.refl A s
  refine ⟨_, rfl, ?_⟩
  obtain ⟨_, _, _⟩ := hA
  repeat' (first
    | with_reducible assumption
    | intro y
    | (extract_lets +onlyGivenNames x; first | (refine cut (P := Keeps A s x) ?_ ?_; (on_goal 1 => (unfold x; clear x)); (on_goal 2 => (intro hx; first | clear_value x | skip))) | clear_value x | skip)
    | (with_reducible apply plcLinkDown_keeps (hA := by first | with_reducible assumption | with_reducible apply_assumption))
    | (with_reducible apply laneDown_keeps (hA := by first | with_reducible assumption | with_reducible apply_assumption))
    | (with_reducible apply setLos_keeps (hA := by first | with_reducible assumption | with_reducible apply_assumption))
    | with_reducible apply keeps_ite
    | split
    | refine keeps_ite ?_ ?_)

def touchExecFrameForward (A : Part → Prop) (link : Nat) : Prop := touchInjectAll A ∧ A .fab ∧ touchRouteFrame A ∧ touchNbrLearn A link ∧ A (.inst R.FAB_LANE_ERR.CRC link 0) ∧ touchEmit A ∧ A (.inst R.FAB_LANE_ERR.REPLAY link 0)
theorem touchExecFrameForward_all (h : ∀ q, A q) {link : Nat} : touchExecFrameForward A link := ⟨touchInjectAll_all h, h _, touchRouteFrame_all h, touchNbrLearn_all h, h _, touchEmit_all h, h _⟩
theorem execFrameForward_next {link : ℕ} {crc : ℕ} {f : Sys2Proof.FabFrame} {urgent : ℕ} {pending : ℕ} {recent : ℕ} (hA : touchExecFrameForward A link) : ∃ u, execFrameForward link crc f urgent pending recent s = .next u ∧ Keeps A s u := by
  unfold execFrameForward
  have h := Keeps.refl A s
  refine ⟨_, rfl, ?_⟩
  obtain ⟨_, _, _, _, _, _, _⟩ := hA
  repeat' (first
    | with_reducible assumption
    | intro y
    | (extract_lets +onlyGivenNames x; first | (refine cut (P := Keeps A s x) ?_ ?_; (on_goal 1 => (unfold x; clear x)); (on_goal 2 => (intro hx; first | clear_value x | skip))) | clear_value x | skip)
    | (with_reducible refine inc_keepsAt (by assumption) ?_)
    | (with_reducible refine inc_keeps (by assumption) ?_)
    | (with_reducible apply injectAll_keeps (hA := by first | with_reducible assumption | with_reducible apply_assumption))
    | (with_reducible apply routeFrame_keeps (hA := by first | with_reducible assumption | with_reducible apply_assumption))
    | (with_reducible apply nbrLearn_keeps (hA := by first | with_reducible assumption | with_reducible apply_assumption))
    | (with_reducible apply emit_keeps (hA := by first | with_reducible assumption | with_reducible apply_assumption))
    | with_reducible apply when_keeps
    | with_reducible apply keeps_ite
    | split
    | refine keeps_ite ?_ ?_
    | with_reducible exact keeps_fab (by assumption) (by assumption))

def touchExecStallDiscard (A : Part → Prop) : Prop := touchDiscard A ∧ touchSetLane A
theorem touchExecStallDiscard_all (h : ∀ q, A q) : touchExecStallDiscard A := ⟨touchDiscard_all h, touchSetLane_all h⟩
theorem execStallDiscard_next {waited : ℕ} (hA : touchExecStallDiscard A) : ∃ u, execStallDiscard waited s = .next u ∧ Keeps A s u := by
  unfold execStallDiscard
  have h := Keeps.refl A s
  refine ⟨_, rfl, ?_⟩
  obtain ⟨_, _⟩ := hA
  repeat' (first
    | with_reducible assumption
    | intro y
    | (extract_lets +onlyGivenNames x; first | (refine cut (P := Keeps A s x) ?_ ?_; (on_goal 1 => (unfold x; clear x)); (on_goal 2 => (intro hx; first | clear_value x | skip))) | clear_value x | skip)
    | (with_reducible apply discard_keeps (hA := by first | with_reducible assumption | with_reducible apply_assumption))
    | (with_reducible apply setLane_keeps (hA := by first | with_reducible assumption | with_reducible apply_assumption))
    | with_reducible apply keeps_ite
    | split
    | refine keeps_ite ?_ ?_)

def touchWakeTx (A : Part → Prop) : Prop := touchEmit A
theorem touchWakeTx_all (h : ∀ q, A q) : touchWakeTx A := touchEmit_all h
theorem wakeTx_keeps {mask : ℕ} (hA : touchWakeTx A)  (h : Keeps A s t) : Keeps A s (State.wakeTx t mask) := by
  unfold State.wakeTx
  unfold touchWakeTx at hA
  repeat' (first
    | with_reducible assumption
    | intro y
    | with_reducible apply eachBit_keeps
    | (with_reducible apply emit_keeps (hA := by first | with_reducible assumption | with_reducible apply_assumption))
    | with_reducible apply keeps_ite
    | split)

def touchExecWakeTx (A : Part → Prop) : Prop := touchGuarded A ∧ touchWakeTx A
theorem touchExecWakeTx_all (h : ∀ q, A q) : touchExecWakeTx A := ⟨touchGuarded_all h, touchWakeTx_all h⟩
theorem execWakeTx_next {sess : ℕ} {mask : ℕ} (hA : touchExecWakeTx A) : ∃ u, execWakeTx sess mask s = .next u ∧ Keeps A s u := by
  unfold execWakeTx
  have h := Keeps.refl A s
  refine ⟨_, rfl, ?_⟩
  obtain ⟨_, _⟩ := hA
  repeat' (first
    | with_reducible assumption
    | intro y
    | (with_reducible apply guarded_keeps (hA := by first | with_reducible assumption | with_reducible apply_assumption))
    | (with_reducible apply wakeTx_keeps (hA := by first | with_reducible assumption | with_reducible apply_assumption))
    | with_reducible apply keeps_ite
    | split)

def touchExecAnnounceSend (A : Part → Prop) : Prop := touchTakeClass A ∧ A .fab ∧ touchSetRoot A ∧ touchAnnounce A
theorem touchExecAnnounceSend_all (h : ∀ q, A q) : touchExecAnnounceSend A := ⟨touchTakeClass_all h, h _, touchSetRoot_all h, touchAnnounce_all h⟩
theorem execAnnounceSend_next {classMs : ℕ} (hA : touchExecAnnounceSend A) : ∃ u, execAnnounceSend classMs s = .next u ∧ Keeps A s u := by
  unfold execAnnounceSend
  have h := Keeps.refl A s
  refine ⟨_, rfl, ?_⟩
  obtain ⟨_, _, _, _⟩ := hA
  repeat' (first
    | with_reducible assumption
    | intro y
    | (extract_lets +onlyGivenNames x; first | (refine cut (P := Keeps A s x) ?_ ?_; (on_goal 1 => (unfold x; clear x)); (on_goal 2 => (intro hx; first | clear_value x | skip))) | clear_value x | skip)
    | (with_reducible apply takeClass_keeps (hA := by first | with_reducible assumption | with_reducible apply_assumption))
    | (with_reducible apply setRoot_keeps (hA := by first | with_reducible assumption | with_reducible apply_assumption))
    | (with_reducible apply announce_keeps (hA := by first | with_reducible assumption | with_reducible apply_assumption))
    | with_reducible apply when_keeps
    | with_reducible apply keeps_ite
    | split
    | refine keeps_ite ?_ ?_
    | with_reducible exact keeps_fab (by assumption) (by assumption))

def touchExecEpochInstall (A : Part → Prop) : Prop := touchInstallEpoch A
theorem touchExecEpochInstall_all (h : ∀ q, A q) : touchExecEpochInstall A := touchInstallEpoch_all h
theorem execEpochInstall_next {ms : ℕ} (hA : touchExecEpochInstall A) : ∃ u, execEpochInstall ms s = .next u ∧ Keeps A s u := by
  unfold execEpochInstall
  have h := Keeps.refl A s
  refine ⟨_, rfl, ?_⟩
  unfold touchExecEpochInstall at hA
  repeat' (first
    | with_reducible assumption
    | intro y
    | (with_reducible apply installEpoch_keeps (hA := by first | with_reducible assumption | with_reducible apply_assumption))
    | with_reducible apply keeps_ite
    | split)

def touchExecAnnounceReceive (A : Part → Prop) (link : Nat) : Prop := touchNbrLearn A link ∧ A .fab ∧ touchSetRoot A ∧ touchAnnounce A ∧ touchFabJoin A
theorem touchExecAnnounceReceive_all (h : ∀ q, A q) {link : Nat} : touchExecAnnounceReceive A link := ⟨touchNbrLearn_all h, h _, touchSetRoot_all h, touchAnnounce_all h, touchFabJoin_all h⟩
theorem execAnnounceReceive_next {link : ℕ} {key : Sys2Proof.FabKey} {seq : ℕ} {member : Bool} (hA : touchExecAnnounceReceive A link) : ∃ u, execAnnounceReceive link key seq member s = .next u ∧ Keeps A s u := by
  unfold execAnnounceReceive
  have h := Keeps.refl A s
  refine ⟨_, rfl, ?_⟩
  obtain ⟨_, _, _, _, _⟩ := hA
  repeat' (first
    | with_reducible assumption
    | intro y
    | (extract_lets +onlyGivenNames x; first | (refine cut (P := Keeps A s x) ?_ ?_; (on_goal 1 => (unfold x; clear x)); (on_goal 2 => (intro hx; first | clear_value x | skip))) | clear_value x | skip)
    | (with_reducible apply nbrLearn_keeps (hA := by first | with_reducible assumption | with_reducible apply_assumption))
    | (with_reducible apply setRoot_keeps (hA := by first | with_reducible assumption | with_reducible apply_assumption))
    | (with_reducible apply announce_keeps (hA := by first | with_reducible assumption | with_reducible apply_assumption))
    | (with_reducible apply fabJoin_keeps (hA := by first | with_reducible assumption | with_reducible apply_assumption))
    | with_reducible apply when_keeps
    | with_reducible apply keeps_ite
    | split
    | refine keeps_ite ?_ ?_
    | with_reducible exact keeps_fab (by assumption) (by assumption))

def touchExecBecomeRoot (A : Part → Prop) : Prop := touchLog A ∧ touchRootOn A ∧ A (.reg R.FAB_STAT.STATE) ∧ touchSetReady A ∧ touchInstallEpoch A
theorem touchExecBecomeRoot_all (h : ∀ q, A q) : touchExecBecomeRoot A := ⟨touchLog_all h, touchRootOn_all h, h _, touchSetReady_all h, touchInstallEpoch_all h⟩
theorem execBecomeRoot_next {hc : ℕ} {now : ℕ} (hA : touchExecBecomeRoot A) : ∃ u, execBecomeRoot hc now s = .next u ∧ Keeps A s u := by
  unfold execBecomeRoot
  have h := Keeps.refl A s
  refine ⟨_, rfl, ?_⟩
  obtain ⟨_, _, _, _, _⟩ := hA
  repeat' (first
    | with_reducible assumption
    | intro y
    | (extract_lets +onlyGivenNames x; first | (refine cut (P := Keeps A s x) ?_ ?_; (on_goal 1 => (unfold x; clear x)); (on_goal 2 => (intro hx; first | clear_value x | skip))) | clear_value x | skip)
    | (with_reducible refine put_keepsAt (by assumption) ?_)
    | (with_reducible refine put_keeps (by assumption) ?_)
    | (with_reducible apply log_keeps (hA := by first | with_reducible assumption | with_reducible apply_assumption))
    | (with_reducible apply rootOn_keeps (hA := by first | with_reducible assumption | with_reducible apply_assumption))
    | (with_reducible apply setReady_keeps (hA := by first | with_reducible assumption | with_reducible apply_assumption))
    | (with_reducible apply installEpoch_keeps (hA := by first | with_reducible assumption | with_reducible apply_assumption))
    | with_reducible apply keeps_ite
    | split
    | refine keeps_ite ?_ ?_)

def touchJoinRoutes (A : Part → Prop) : Prop := touchSrcSend A
theorem touchJoinRoutes_all (h : ∀ q, A q) : touchJoinRoutes A := touchSrcSend_all h
theorem joinRoutes_keeps {id : ℕ} {hops : ℕ} {links : List (ℕ × ℕ × ℕ)} (hA : touchJoinRoutes A)  (h : Keeps A s t) : Keeps A s (State.joinRoutes t id hops links) := by
  unfold State.joinRoutes
  unfold touchJoinRoutes at hA
  repeat' (first
    | with_reducible assumption
    | intro y
    | (extract_lets +onlyGivenNames x; first | (refine cut (P := Keeps A s x) ?_ ?_; (on_goal 1 => (unfold x; clear x)); (on_goal 2 => (intro hx; first | clear_value x | skip))) | clear_value x | skip)
    | (with_reducible apply srcSend_keeps (hA := by first | with_reducible assumption | with_reducible apply_assumption))
    | with_reducible apply keeps_ite
    | with_reducible apply keeps_foldl
    | split
    | refine keeps_ite ?_ ?_)

def touchIdGrant (A : Part → Prop) : Prop := touchNbrGrant A ∧ A .fab ∧ A .sl ∧ touchSrcSend A ∧ touchJoinRoutes A
theorem touchIdGrant_all (h : ∀ q, A q) : touchIdGrant A := ⟨touchNbrGrant_all h, h _, h _, touchSrcSend_all h, touchJoinRoutes_all h⟩
theorem idGrant_keeps {id : ℕ} {serial : ℕ} {link : ℕ} {hops : ℕ} {links : List (ℕ × ℕ × ℕ)} (hA : touchIdGrant A)  (h : Keeps A s t) : Keeps A s (State.idGrant t id serial link hops links) := by
  unfold State.idGrant
  obtain ⟨_, _, _, _, _⟩ := hA
  repeat' (first
    | with_reducible assumption
    | intro y
    | (extract_lets +onlyGivenNames x; first | (refine cut (P := Keeps A s x) ?_ ?_; (on_goal 1 => (unfold x; clear x)); (on_goal 2 => (intro hx; first | clear_value x | skip))) | clear_value x | skip)
    | (with_reducible apply nbrGrant_keeps (hA := by first | with_reducible assumption | with_reducible apply_assumption))
    | (with_reducible apply srcSend_keeps (hA := by first | with_reducible assumption | with_reducible apply_assumption))
    | (with_reducible apply joinRoutes_keeps (hA := by first | with_reducible assumption | with_reducible apply_assumption))
    | with_reducible apply keeps_ite
    | split
    | refine keeps_ite ?_ ?_
    | with_reducible exact keeps_fab_sl (by assumption) (by assumption) (by assumption))

def touchExecNodeIdGrant (A : Part → Prop) : Prop := A .fab ∧ touchIdGrant A ∧ touchLog A
theorem touchExecNodeIdGrant_all (h : ∀ q, A q) : touchExecNodeIdGrant A := ⟨h _, touchIdGrant_all h, touchLog_all h⟩
theorem execNodeIdGrant_next {serial : ℕ} {sticky : ℕ} {role : Sys2Proof.JoinReq} {link : ℕ} {hops : ℕ} (hA : touchExecNodeIdGrant A) : ∃ u, execNodeIdGrant serial sticky role link hops s = .next u ∧ Keeps A s u := by
  unfold execNodeIdGrant
  have h := Keeps.refl A s
  refine ⟨_, rfl, ?_⟩
  obtain ⟨_, _, _⟩ := hA
  repeat' (first
    | with_reducible assumption
    | intro y
    | (extract_lets +onlyGivenNames x; first | (refine cut (P := Keeps A s x) ?_ ?_; (on_goal 1 => (unfold x; clear x)); (on_goal 2 => (intro hx; first | clear_value x | skip))) | clear_value x | skip)
    | (with_reducible apply idGrant_keeps (hA := by first | with_reducible assumption | with_reducible apply_assumption))
    | (with_reducible apply log_keeps (hA := by first | with_reducible assumption | with_reducible apply_assumption))
    | with_reducible apply when_keeps
    | with_reducible apply keeps_ite
    | split
    | refine keeps_ite ?_ ?_
    | with_reducible exact keeps_fab (by assumption) (by assumption))

def touchExecJoinRetry (A : Part → Prop) : Prop := touchJoinRequest A
theorem touchExecJoinRetry_all (h : ∀ q, A q) : touchExecJoinRetry A := touchJoinRequest_all h
theorem execJoinRetry_next {ms : ℕ} (hA : touchExecJoinRetry A) : ∃ u, execJoinRetry ms s = .next u ∧ Keeps A s u := by
  unfold execJoinRetry
  have h := Keeps.refl A s
  refine ⟨_, rfl, ?_⟩
  unfold touchExecJoinRetry at hA
  repeat' (first
    | with_reducible assumption
    | intro y
    | (with_reducible apply joinRequest_keeps (hA := by first | with_reducible assumption | with_reducible apply_assumption))
    | with_reducible apply keeps_ite
    | split)

def touchTakeId (A : Part → Prop) : Prop := A (.reg R.FAB_STAT.NODE_ID) ∧ A (.reg R.FAB_STICKY.STICKY_ID) ∧ touchLog A ∧ touchRelaysDrop A
theorem touchTakeId_all (h : ∀ q, A q) : touchTakeId A := ⟨h _, h _, touchLog_all h, touchRelaysDrop_all h⟩
theorem takeId_keeps {id : ℕ} (hA : touchTakeId A)  (h : Keeps A s t) : Keeps A s (State.takeId t id) := by
  unfold State.takeId
  obtain ⟨_, _, _, _⟩ := hA
  repeat' (first
    | with_reducible assumption
    | intro y
    | (extract_lets +onlyGivenNames x; first | (refine cut (P := Keeps A s x) ?_ ?_; (on_goal 1 => (unfold x; clear x)); (on_goal 2 => (intro hx; first | clear_value x | skip))) | clear_value x | skip)
    | (with_reducible refine put_keepsAt (by assumption) ?_)
    | (with_reducible refine put_keeps (by assumption) ?_)
    | with_reducible apply when_keeps
    | (with_reducible apply log_keeps (hA := by first | with_reducible assumption | with_reducible apply_assumption))
    | (with_reducible apply relaysDrop_keeps (hA := by first | with_reducible assumption | with_reducible apply_assumption))
    | with_reducible apply keeps_ite
    | split
    | refine keeps_ite ?_ ?_)

def touchExecJoinGrant (A : Part → Prop) (up : Nat) : Prop := A (.reg R.FAB_STAT.LEVEL) ∧ A (.reg R.FAB_STAT.STATE) ∧ touchTakeId A ∧ touchSetParent A ∧ touchSetDir A up ∧ (∀ x0, touchSetDir A x0) ∧ A .fab ∧ touchLog A ∧ touchSetReady A
theorem touchExecJoinGrant_all (h : ∀ q, A q) {up : Nat} : touchExecJoinGrant A up := ⟨h _, h _, touchTakeId_all h, touchSetParent_all h, touchSetDir_all h, (fun _ => touchSetDir_all h), h _, touchLog_all h, touchSetReady_all h⟩
theorem execJoinGrant_next {id : ℕ} {level : ℕ} {up : ℕ} (hA : touchExecJoinGrant A up) : ∃ u, execJoinGrant id level up s = .next u ∧ Keeps A s u := by
  unfold execJoinGrant
  have h := Keeps.refl A s
  refine ⟨_, rfl, ?_⟩
  obtain ⟨_, _, _, _, _, _, _, _, _⟩ := hA
  repeat' (first
    | with_reducible assumption
    | intro y
    | (extract_lets +onlyGivenNames x; first | (refine cut (P := Keeps A s x) ?_ ?_; (on_goal 1 => (unfold x; clear x)); (on_goal 2 => (intro hx; first | clear_value x | skip))) | clear_value x | skip)
    | (with_reducible refine put_keepsAt (by assumption) ?_)
    | (with_reducible refine put_keeps (by assumption) ?_)
    | (with_reducible apply takeId_keeps (hA := by first | with_reducible assumption | with_reducible apply_assumption))
    | (with_reducible apply setParent_keeps (hA := by first | with_reducible assumption | with_reducible apply_assumption))
    | (with_reducible apply setDir_keeps (hA := by first | with_reducible assumption | with_reducible apply_assumption))
    | (with_reducible apply log_keeps (hA := by first | with_reducible assumption | with_reducible apply_assumption))
    | (with_reducible apply setReady_keeps (hA := by first | with_reducible assumption | with_reducible apply_assumption))
    | with_reducible apply when_keeps
    | with_reducible apply keeps_ite
    | with_reducible apply keeps_foldl
    | split
    | refine keeps_ite ?_ ?_
    | with_reducible exact keeps_fab (by assumption) (by assumption))

def touchExecRootLost (A : Part → Prop) : Prop := A .fab ∧ touchFabElect A ∧ touchLog A
theorem touchExecRootLost_all (h : ∀ q, A q) : touchExecRootLost A := ⟨h _, touchFabElect_all h, touchLog_all h⟩
theorem execRootLost_next {hc : ℕ} (hA : touchExecRootLost A) : ∃ u, execRootLost hc s = .next u ∧ Keeps A s u := by
  unfold execRootLost
  have h := Keeps.refl A s
  refine ⟨_, rfl, ?_⟩
  obtain ⟨_, _, _⟩ := hA
  repeat' (first
    | with_reducible assumption
    | intro y
    | (extract_lets +onlyGivenNames x; first | (refine cut (P := Keeps A s x) ?_ ?_; (on_goal 1 => (unfold x; clear x)); (on_goal 2 => (intro hx; first | clear_value x | skip))) | clear_value x | skip)
    | (with_reducible apply fabElect_keeps (hA := by first | with_reducible assumption | with_reducible apply_assumption))
    | (with_reducible apply log_keeps (hA := by first | with_reducible assumption | with_reducible apply_assumption))
    | with_reducible apply keeps_ite
    | split
    | refine keeps_ite ?_ ?_
    | with_reducible exact keeps_fab (by assumption) (by assumption))

def touchExecFabricAlone (A : Part → Prop) : Prop := touchLog A ∧ touchSetReady A ∧ touchRootOn A ∧ touchTakeClass A ∧ A (.reg R.FAB_STAT.STATE)
theorem touchExecFabricAlone_all (h : ∀ q, A q) : touchExecFabricAlone A := ⟨touchLog_all h, touchSetReady_all h, touchRootOn_all h, touchTakeClass_all h, h _⟩
theorem execFabricAlone_next {ms : ℕ} {now : ℕ} (hA : touchExecFabricAlone A) : ∃ u, execFabricAlone ms now s = .next u ∧ Keeps A s u := by
  unfold execFabricAlone
  have h := Keeps.refl A s
  refine ⟨_, rfl, ?_⟩
  obtain ⟨_, _, _, _, _⟩ := hA
  repeat' (first
    | with_reducible assumption
    | intro y
    | (extract_lets +onlyGivenNames x; first | (refine cut (P := Keeps A s x) ?_ ?_; (on_goal 1 => (unfold x; clear x)); (on_goal 2 => (intro hx; first | clear_value x | skip))) | clear_value x | skip)
    | (with_reducible refine put_keepsAt (by assumption) ?_)
    | (with_reducible refine put_keeps (by assumption) ?_)
    | (with_reducible apply log_keeps (hA := by first | with_reducible assumption | with_reducible apply_assumption))
    | (with_reducible apply setReady_keeps (hA := by first | with_reducible assumption | with_reducible apply_assumption))
    | (with_reducible apply rootOn_keeps (hA := by first | with_reducible assumption | with_reducible apply_assumption))
    | (with_reducible apply takeClass_keeps (hA := by first | with_reducible assumption | with_reducible apply_assumption))
    | with_reducible apply keeps_ite
    | split
    | refine keeps_ite ?_ ?_)

def touchExecIdReservationExpiry (A : Part → Prop) : Prop := A .fab
theorem touchExecIdReservationExpiry_all (h : ∀ q, A q) : touchExecIdReservationExpiry A := h _
theorem execIdReservationExpiry_next {id : ℕ} {secs : ℕ} (hA : touchExecIdReservationExpiry A) : ∃ u, execIdReservationExpiry id secs s = .next u ∧ Keeps A s u := by
  unfold execIdReservationExpiry
  have h := Keeps.refl A s
  refine ⟨_, rfl, ?_⟩
  unfold touchExecIdReservationExpiry at hA
  repeat' (first
    | with_reducible assumption
    | intro y
    | (extract_lets +onlyGivenNames x; first | (refine cut (P := Keeps A s x) ?_ ?_; (on_goal 1 => (unfold x; clear x)); (on_goal 2 => (intro hx; first | clear_value x | skip))) | clear_value x | skip)
    | with_reducible apply keeps_ite
    | split
    | with_reducible exact keeps_fab (by assumption) (by assumption))

def touchExecTopologyReport (A : Part → Prop) : Prop := touchTopoTake A
theorem touchExecTopologyReport_all (h : ∀ q, A q) : touchExecTopologyReport A := touchTopoTake_all h
theorem execTopologyReport_next {node : ℕ} {links : List (ℕ × ℕ)} (hA : touchExecTopologyReport A) : ∃ u, execTopologyReport node links s = .next u ∧ Keeps A s u := by
  unfold execTopologyReport
  have h := Keeps.refl A s
  refine ⟨_, rfl, ?_⟩
  unfold touchExecTopologyReport at hA
  repeat' (first
    | with_reducible assumption
    | intro y
    | (extract_lets +onlyGivenNames x; first | (refine cut (P := Keeps A s x) ?_ ?_; (on_goal 1 => (unfold x; clear x)); (on_goal 2 => (intro hx; first | clear_value x | skip))) | clear_value x | skip)
    | (with_reducible apply topoTake_keeps (hA := by first | with_reducible assumption | with_reducible apply_assumption))
    | with_reducible apply keeps_ite
    | split
    | refine keeps_ite ?_ ?_)

def touchExecTableLoad (A : Part → Prop) : Prop := A .fab
theorem touchExecTableLoad_all (h : ∀ q, A q) : touchExecTableLoad A := h _
theorem execTableLoad_next {entries : List (ℕ × ℕ × ℕ × ℕ × ℕ)} {dirs : List (ℕ × ℕ)} {level : ℕ} (hA : touchExecTableLoad A) : ∃ u, execTableLoad entries dirs level s = .next u ∧ Keeps A s u := by
  unfold execTableLoad
  have h := Keeps.refl A s
  refine ⟨_, rfl, ?_⟩
  unfold touchExecTableLoad at hA
  repeat' (first
    | with_reducible assumption
    | intro y
    | (extract_lets +onlyGivenNames x; first | (refine cut (P := Keeps A s x) ?_ ?_; (on_goal 1 => (unfold x; clear x)); (on_goal 2 => (intro hx; first | clear_value x | skip))) | clear_value x | skip)
    | with_reducible apply keeps_ite
    | split
    | refine keeps_ite ?_ ?_
    | with_reducible exact keeps_fab (by assumption) (by assumption))

def touchExecEpochChange (A : Part → Prop) : Prop := A .fab ∧ touchEpochSwap A
theorem touchExecEpochChange_all (h : ∀ q, A q) : touchExecEpochChange A := ⟨h _, touchEpochSwap_all h⟩
theorem execEpochChange_next {sw : ℕ} (hA : touchExecEpochChange A) : ∃ u, execEpochChange sw s = .next u ∧ Keeps A s u := by
  unfold execEpochChange
  have h := Keeps.refl A s
  refine ⟨_, rfl, ?_⟩
  obtain ⟨_, _⟩ := hA
  repeat' (first
    | with_reducible assumption
    | intro y
    | (extract_lets +onlyGivenNames x; first | (refine cut (P := Keeps A s x) ?_ ?_; (on_goal 1 => (unfold x; clear x)); (on_goal 2 => (intro hx; first | clear_value x | skip))) | clear_value x | skip)
    | (with_reducible apply epochSwap_keeps (hA := by first | with_reducible assumption | with_reducible apply_assumption))
    | with_reducible apply keeps_ite
    | split
    | refine keeps_ite ?_ ?_
    | with_reducible exact keeps_fab (by assumption) (by assumption))

def touchExecEpochDrain (A : Part → Prop) : Prop := A .fab
theorem touchExecEpochDrain_all (h : ∀ q, A q) : touchExecEpochDrain A := h _
theorem execEpochDrain_next  (hA : touchExecEpochDrain A) : ∃ u, execEpochDrain s = .next u ∧ Keeps A s u := by
  unfold execEpochDrain
  have h := Keeps.refl A s
  refine ⟨_, rfl, ?_⟩
  unfold touchExecEpochDrain at hA
  repeat' (first
    | with_reducible assumption
    | intro y
    | (extract_lets +onlyGivenNames x; first | (refine cut (P := Keeps A s x) ?_ ?_; (on_goal 1 => (unfold x; clear x)); (on_goal 2 => (intro hx; first | clear_value x | skip))) | clear_value x | skip)
    | with_reducible apply keeps_ite
    | split
    | with_reducible exact keeps_fab (by assumption) (by assumption))

def touchExecEpochSwap (A : Part → Prop) : Prop := touchEpochSwap A
theorem touchExecEpochSwap_all (h : ∀ q, A q) : touchExecEpochSwap A := touchEpochSwap_all h
theorem execEpochSwap_next  (hA : touchExecEpochSwap A) : ∃ u, execEpochSwap s = .next u ∧ Keeps A s u := by
  unfold execEpochSwap
  have h := Keeps.refl A s
  refine ⟨_, rfl, ?_⟩
  unfold touchExecEpochSwap at hA
  repeat' (first
    | with_reducible assumption
    | intro y
    | (extract_lets +onlyGivenNames x; first | (refine cut (P := Keeps A s x) ?_ ?_; (on_goal 1 => (unfold x; clear x)); (on_goal 2 => (intro hx; first | clear_value x | skip))) | clear_value x | skip)
    | (with_reducible apply epochSwap_keeps (hA := by first | with_reducible assumption | with_reducible apply_assumption))
    | with_reducible apply keeps_ite
    | split)

def touchExecDelayExchange (A : Part → Prop) (n : Nat) : Prop := A .fab ∧ touchEmit A ∧ A (.inst R.FAB_LANE_DLY.DLY n 0)
theorem touchExecDelayExchange_all (h : ∀ q, A q) {n : Nat} : touchExecDelayExchange A n := ⟨h _, touchEmit_all h, h _⟩
theorem execDelayExchange_next {n : ℕ} {t1 : ℤ} {t2 : ℤ} {t3 : ℤ} {t4 : ℤ} (hA : touchExecDelayExchange A n) : ∃ u, execDelayExchange n s1 s2 s3 s4 s = .next u ∧ Keeps A s u := by
  unfold execDelayExchange
  have h := Keeps.refl A s
  refine ⟨_, rfl, ?_⟩
  obtain ⟨_, _, _⟩ := hA
  repeat' (first
    | with_reducible assumption
    | intro y
    | (extract_lets +onlyGivenNames x; first | (refine cut (P := Keeps A s x) ?_ ?_; (on_goal 1 => (unfold x; clear x)); (on_goal 2 => (intro hx; first | clear_value x | skip))) | clear_value x | skip)
    | (with_reducible apply emit_keeps (hA := by first | with_reducible assumption | with_reducible apply_assumption))
    | (with_reducible refine put_keepsAt (by assumption) ?_)
    | (with_reducible refine put_keeps (by assumption) ?_)
    | with_reducible apply keeps_ite
    | split
    | refine keeps_ite ?_ ?_
    | with_reducible exact keeps_fab (by assumption) (by assumption))

def touchExecTimeFrameSend (A : Part → Prop) : Prop := touchEmit A
theorem touchExecTimeFrameSend_all (h : ∀ q, A q) : touchExecTimeFrameSend A := touchEmit_all h
theorem execTimeFrameSend_next {k : ℕ} (hA : touchExecTimeFrameSend A) : ∃ u, execTimeFrameSend k s = .next u ∧ Keeps A s u := by
  unfold execTimeFrameSend
  have h := Keeps.refl A s
  refine ⟨_, rfl, ?_⟩
  unfold touchExecTimeFrameSend at hA
  repeat' (first
    | with_reducible assumption
    | intro y
    | (extract_lets +onlyGivenNames x; first | (refine cut (P := Keeps A s x) ?_ ?_; (on_goal 1 => (unfold x; clear x)); (on_goal 2 => (intro hx; first | clear_value x | skip))) | clear_value x | skip)
    | (with_reducible apply emit_keeps (hA := by first | with_reducible assumption | with_reducible apply_assumption))
    | with_reducible apply keeps_ite
    | with_reducible apply keeps_foldl
    | split
    | refine keeps_ite ?_ ?_)

def touchExecTimeFrameReceive (A : Part → Prop) : Prop := touchFollowSource A
theorem touchExecTimeFrameReceive_all (h : ∀ q, A q) : touchExecTimeFrameReceive A := touchFollowSource_all h
theorem execTimeFrameReceive_next {n : ℕ} {v16 : ℕ} (hA : touchExecTimeFrameReceive A) : ∃ u, execTimeFrameReceive n v16 s = .next u ∧ Keeps A s u := by
  unfold execTimeFrameReceive
  have h := Keeps.refl A s
  refine ⟨_, rfl, ?_⟩
  unfold touchExecTimeFrameReceive at hA
  repeat' (first
    | with_reducible assumption
    | intro y
    | (with_reducible apply followSource_keeps (hA := by first | with_reducible assumption | with_reducible apply_assumption))
    | with_reducible apply keeps_ite
    | split)

def touchLaRefusedNote (A : Part → Prop) : Prop := touchLog A
theorem touchLaRefusedNote_all (h : ∀ q, A q) : touchLaRefusedNote A := touchLog_all h
theorem laRefusedNote_keeps {ep : ℕ} {op : ℕ} (hA : touchLaRefusedNote A)  (h : Keeps A s t) : Keeps A s (State.laRefusedNote t ep op) := by
  unfold State.laRefusedNote
  unfold touchLaRefusedNote at hA
  repeat' (first
    | with_reducible assumption
    | intro y
    | (with_reducible apply log_keeps (hA := by first | with_reducible assumption | with_reducible apply_assumption))
    | with_reducible apply keeps_ite
    | split)

def touchExecLaunchedActionArrival (A : Part → Prop) : Prop := touchDiscard A ∧ A (.reg R.FAB_LA_CFG.LA_QUSE) ∧ A .fab ∧ touchLaRespond A ∧ touchLaRefuse A ∧ touchLaRefusedNote A
theorem touchExecLaunchedActionArrival_all (h : ∀ q, A q) : touchExecLaunchedActionArrival A := ⟨touchDiscard_all h, h _, h _, touchLaRespond_all h, touchLaRefuse_all h, touchLaRefusedNote_all h⟩
theorem execLaunchedActionArrival_next {src : ℕ} {actId : ℕ} {ack : ℕ} {target : ℕ} {ep : ℕ} {op : ℕ} {dstEp : Option ℕ} {body : List ℕ} (hA : touchExecLaunchedActionArrival A) : ∃ u, execLaunchedActionArrival src actId ack target ep op dstEp body s = .next u ∧ Keeps A s u := by
  unfold execLaunchedActionArrival
  have h := Keeps.refl A s
  refine ⟨_, rfl, ?_⟩
  obtain ⟨_, _, _, _, _, _⟩ := hA
  repeat' (first
    | with_reducible assumption
    | intro y
    | (extract_lets +onlyGivenNames x; first | (refine cut (P := Keeps A s x) ?_ ?_; (on_goal 1 => (unfold x; clear x)); (on_goal 2 => (intro hx; first | clear_value x | skip))) | clear_value x | skip)
    | (with_reducible refine put_keepsAt (by assumption) ?_)
    | (with_reducible refine put_keeps (by assumption) ?_)
    | (with_reducible apply discard_keeps (hA := by first | with_reducible assumption | with_reducible apply_assumption))
    | (with_reducible apply laRespond_keeps (hA := by first | with_reducible assumption | with_reducible apply_assumption))
    | (with_reducible apply laRefuse_keeps (hA := by first | with_reducible assumption | with_reducible apply_assumption))
    | (with_reducible apply laRefusedNote_keeps (hA := by first | with_reducible assumption | with_reducible apply_assumption))
    | with_reducible apply when_keeps
    | with_reducible apply keeps_ite
    | split
    | refine keeps_ite ?_ ?_
    | with_reducible exact keeps_fab (by assumption) (by assumption))

def touchLaOffsets (A : Part → Prop) : Prop := touchOfsArm A
theorem touchLaOffsets_all (h : ∀ q, A q) : touchLaOffsets A := touchOfsArm_all h
theorem laOffsets_keeps {target : ℕ} (hA : touchLaOffsets A)  (h : Keeps A s t) : Keeps A s (State.laOffsets t target) := by
  unfold State.laOffsets
  unfold touchLaOffsets at hA
  repeat' (first
    | with_reducible assumption
    | intro y
    | (with_reducible apply ofsArm_keeps (hA := by first | with_reducible assumption | with_reducible apply_assumption))
    | with_reducible apply keeps_ite
    | split)

def touchExecSetGroupOffset (A : Part → Prop) : Prop := touchLaRun A ∧ touchLaOffsets A ∧ A (.reg R.TB_GRP_OFS.GOFS)
theorem touchExecSetGroupOffset_all (h : ∀ q, A q) : touchExecSetGroupOffset A := ⟨touchLaRun_all h, touchLaOffsets_all h, h _⟩
theorem execSetGroupOffset_next  (hA : touchExecSetGroupOffset A) : ∃ u, execSetGroupOffset s = .next u ∧ Keeps A s u := by
  unfold execSetGroupOffset
  have h := Keeps.refl A s
  refine ⟨_, rfl, ?_⟩
  obtain ⟨_, _, _⟩ := hA
  repeat' (first
    | with_reducible assumption
    | intro y
    | (extract_lets +onlyGivenNames x; first | (refine cut (P := Keeps A s x) ?_ ?_; (on_goal 1 => (unfold x; clear x)); (on_goal 2 => (intro hx; first | clear_value x | skip))) | clear_value x | skip)
    | (with_reducible apply laRun_keeps (hA := by first | with_reducible assumption | with_reducible apply_assumption))
    | (with_reducible apply laOffsets_keeps (hA := by first | with_reducible assumption | with_reducible apply_assumption))
    | (with_reducible refine put_keepsAt (by assumption) ?_)
    | (with_reducible refine put_keeps (by assumption) ?_)
    | with_reducible apply keeps_ite
    | split
    | refine keeps_ite ?_ ?_)

def touchExecSetPhaseOffsets (A : Part → Prop) : Prop := touchLaRun A ∧ touchLaOffsets A ∧ A (.reg R.TB_PH_OFS.POFS)
theorem touchExecSetPhaseOffsets_all (h : ∀ q, A q) : touchExecSetPhaseOffsets A := ⟨touchLaRun_all h, touchLaOffsets_all h, h _⟩
theorem execSetPhaseOffsets_next  (hA : touchExecSetPhaseOffsets A) : ∃ u, execSetPhaseOffsets s = .next u ∧ Keeps A s u := by
  unfold execSetPhaseOffsets
  have h := Keeps.refl A s
  refine ⟨_, rfl, ?_⟩
  obtain ⟨_, _, _⟩ := hA
  repeat' (first
    | with_reducible assumption
    | intro y
    | (extract_lets +onlyGivenNames x; first | (refine cut (P := Keeps A s x) ?_ ?_; (on_goal 1 => (unfold x; clear x)); (on_goal 2 => (intro hx; first | clear_value x | skip))) | clear_value x | skip)
    | (with_reducible apply laRun_keeps (hA := by first | with_reducible assumption | with_reducible apply_assumption))
    | (with_reducible apply laOffsets_keeps (hA := by first | with_reducible assumption | with_reducible apply_assumption))
    | (with_reducible refine put_keepsAt (by assumption) ?_)
    | (with_reducible refine put_keeps (by assumption) ?_)
    | with_reducible apply keeps_ite
    | with_reducible apply keeps_foldl
    | split
    | refine keeps_ite ?_ ?_)

end Sys2Proof.Laws
end

