-- ==== Sys2Proof/Laws/KeepsLedger.lean ====
section
/-! SUPPORT. What the operations of Machine/Ledger.lean leave alone: for each the parts it may change (`touch…`) and its lemma. -/

namespace Sys2Proof.Laws

open Sys2Proof.Machine

set_option linter.unusedTactic false
set_option linter.unreachableTactic false
set_option linter.unusedVariables false
set_option linter.tactic.unusedName false

variable {A : Part → Prop} {s t : State}

def touchSlShow (A : Part → Prop) : Prop := touchSlSync A ∧ A (.reg R.SL_DRAW.DRAW) ∧ A (.reg R.SL_REQ.REQ) ∧ A (.reg R.SL_STAT.ACCEPT) ∧ A (.reg R.SL_STAT.PART)
theorem touchSlShow_all (h : ∀ q, A q) : touchSlShow A := ⟨touchSlSync_all h, h _, h _, h _, h _⟩
theorem slShow_keeps  (hA : touchSlShow A)  (h : Keeps A s t) : Keeps A s (State.slShow t) := by
  unfold State.slShow
  obtain ⟨_, _, _, _, _⟩ := hA
  repeat' (first
    | with_reducible assumption
    | intro y
    | (extract_lets +onlyGivenNames x; first | (refine cut (P := Keeps A s x) ?_ ?_; (on_goal 1 => (unfold x; clear x)); (on_goal 2 => (intro hx; first | clear_value x | skip))) | clear_value x | skip)
    | (with_reducible apply slSync_keeps (hA := by first | with_reducible assumption | with_reducible apply_assumption))
    | (with_reducible refine putSat_keepsAt (by assumption) ?_)
    | (with_reducible refine putSat_keeps (by assumption) ?_)
    | (with_reducible refine put_keepsAt (by assumption) ?_)
    | (with_reducible refine put_keeps (by assumption) ?_)
    | (with_reducible refine putb_keepsAt (by assumption) ?_)
    | (with_reducible refine putb_keeps (by assumption) ?_)
    | with_reducible apply keeps_ite
    | split
    | refine keeps_ite ?_ ?_)

def touchExecLedgerReport (A : Part → Prop) : Prop := touchSlShow A ∧ touchSrcSend A
theorem touchExecLedgerReport_all (h : ∀ q, A q) : touchExecLedgerReport A := ⟨touchSlShow_all h, touchSrcSend_all h⟩
theorem execLedgerReport_next {offer : ℕ} (hA : touchExecLedgerReport A) : ∃ u, execLedgerReport offer s = .next u ∧ Keeps A s u := by
  unfold execLedgerReport
  have h := Keeps.refl A s
  refine ⟨_, rfl, ?_⟩
  obtain ⟨_, _⟩ := hA
  repeat' (first
    | with_reducible assumption
    | intro y
    | (extract_lets +onlyGivenNames x; first | (refine cut (P := Keeps A s x) ?_ ?_; (on_goal 1 => (unfold x; clear x)); (on_goal 2 => (intro hx; first | clear_value x | skip))) | clear_value x | skip)
    | (with_reducible apply slShow_keeps (hA := by first | with_reducible assumption | with_reducible apply_assumption))
    | (with_reducible apply srcSend_keeps (hA := by first | with_reducible assumption | with_reducible apply_assumption))
    | with_reducible apply keeps_ite
    | split
    | refine keeps_ite ?_ ?_)

def touchSlDivide (A : Part → Prop) : Prop := (∀ x0, touchLeaseWrite A x0) ∧ touchSlSync A
theorem touchSlDivide_all (h : ∀ q, A q) : touchSlDivide A := ⟨fun _ => touchLeaseWrite_all h, touchSlSync_all h⟩
theorem slDivide_keeps {p : ℕ} {hc : ℕ} (hA : touchSlDivide A)  (h : Keeps A s t) : Keeps A s (State.slDivide t p hc) := by
  unfold State.slDivide
  obtain ⟨_, _⟩ := hA
  repeat' (first
    | with_reducible assumption
    | intro y
    | (extract_lets +onlyGivenNames x; first | (refine cut (P := Keeps A s x) ?_ ?_; (on_goal 1 => (unfold x; clear x)); (on_goal 2 => (intro hx; first | clear_value x | skip))) | (refine cut (P := ∀ y, Keeps A s y → Keeps A s (x y)) ?_ ?_; (on_goal 1 => (unfold x; clear x)); (on_goal 2 => (intro hf; first | clear_value x | skip))) | (refine cut (P := ∀ y, Keeps A s (x y)) ?_ ?_; (on_goal 1 => (unfold x; clear x)); (on_goal 2 => (intro hf; first | clear_value x | skip))) | (refine cut (P := ∀ y z, Keeps A s y → Keeps A s (x y z)) ?_ ?_; (on_goal 1 => (unfold x; clear x)); (on_goal 2 => (intro hf; first | clear_value x | skip))) | (refine cut (P := ∀ y z, Keeps A s z → Keeps A s (x y z)) ?_ ?_; (on_goal 1 => (unfold x; clear x)); (on_goal 2 => (intro hf; first | clear_value x | skip))) | (refine cut (P := ∀ y z w, Keeps A s y → Keeps A s (x y z w)) ?_ ?_; (on_goal 1 => (unfold x; clear x)); (on_goal 2 => (intro hf; first | clear_value x | skip))) | (refine cut (P := ∀ (d : Nat) (g : State → State) (y : State), (∀ z, Keeps A s z → Keeps A s (g z)) → Keeps A s y → Keeps A s (x d g y)) ?_ ?_; (on_goal 1 => (unfold x; clear x)); (on_goal 2 => (intro hf; first | clear_value x | skip))) | clear_value x | skip)
    | (with_reducible apply leaseWrite_keeps (hA := by first | with_reducible assumption | with_reducible apply_assumption))
    | (with_reducible apply slSync_keeps (hA := by first | with_reducible assumption | with_reducible apply_assumption))
    | with_reducible apply keeps_ite
    | with_reducible apply keeps_foldl
    | with_reducible apply keeps_foldl2
    | with_reducible apply keeps_foldl3
    | with_reducible apply hf
    | split
    | refine keeps_ite ?_ ?_)

def touchSlReject (A : Part → Prop) : Prop := A .sl ∧ A (.reg R.SL_STAT.REJ_SEEN) ∧ A (.reg R.SL_CNT.REJECTED) ∧ touchLog A
theorem touchSlReject_all (h : ∀ q, A q) : touchSlReject A := ⟨h _, h _, h _, touchLog_all h⟩
theorem slReject_keeps {k : ℕ} (hA : touchSlReject A)  (h : Keeps A s t) : Keeps A s (State.slReject t k) := by
  unfold State.slReject
  obtain ⟨_, _, _, _⟩ := hA
  repeat' (first
    | with_reducible assumption
    | intro y
    | (extract_lets +onlyGivenNames x; first | (refine cut (P := Keeps A s x) ?_ ?_; (on_goal 1 => (unfold x; clear x)); (on_goal 2 => (intro hx; first | clear_value x | skip))) | clear_value x | skip)
    | (with_reducible refine put_keepsAt (by assumption) ?_)
    | (with_reducible refine put_keeps (by assumption) ?_)
    | (with_reducible refine inc_keepsAt (by assumption) ?_)
    | (with_reducible refine inc_keeps (by assumption) ?_)
    | (with_reducible apply log_keeps (hA := by first | with_reducible assumption | with_reducible apply_assumption))
    | with_reducible apply keeps_ite
    | split
    | refine keeps_ite ?_ ?_
    | with_reducible exact keeps_sl (by assumption) (by assumption))

def touchSlTake (A : Part → Prop) : Prop := A (.reg R.SL_CNT.ACCEPTED) ∧ A (.reg R.SL_GEN.GEN_ACC) ∧ A (.reg R.SL_LEASE.SEQ) ∧ touchSlDivide A ∧ A (.reg R.SL_DRAW.PLEDGE) ∧ A (.reg R.SL_LEASE.LEASE) ∧ A (.reg R.SL_STAT.PLEDGED) ∧ A (.reg R.LE_PARAM.VALUE) ∧ A .sl ∧ A (.reg R.SL_CUT.CUT_ACT)
theorem touchSlTake_all (h : ∀ q, A q) : touchSlTake A := ⟨h _, h _, h _, touchSlDivide_all h, h _, h _, h _, h _, h _, h _⟩
theorem slTake_keeps {issue : ℕ} {gen : ℕ} {kw : ℕ} {hc : ℕ} {seq : ℕ} {pledge : Bool} {passed : ℕ} (hA : touchSlTake A)  (h : Keeps A s t) : Keeps A s (State.slTake t issue gen kw hc seq pledge passed) := by
  unfold State.slTake
  obtain ⟨_, _, _, _, _, _, _, _, _, _⟩ := hA
  repeat' (first
    | with_reducible assumption
    | intro y
    | (extract_lets +onlyGivenNames x; first | (refine cut (P := Keeps A s x) ?_ ?_; (on_goal 1 => (unfold x; clear x)); (on_goal 2 => (intro hx; first | clear_value x | skip))) | clear_value x | skip)
    | (with_reducible refine put_keepsAt (by assumption) ?_)
    | (with_reducible refine put_keeps (by assumption) ?_)
    | (with_reducible refine putb_keepsAt (by assumption) ?_)
    | (with_reducible refine putb_keeps (by assumption) ?_)
    | (with_reducible refine inc_keepsAt (by assumption) ?_)
    | (with_reducible refine inc_keeps (by assumption) ?_)
    | (with_reducible refine putf_keepsAt (by assumption) ?_)
    | (with_reducible refine putf_keeps (by assumption) ?_)
    | (with_reducible apply slDivide_keeps (hA := by first | with_reducible assumption | with_reducible apply_assumption))
    | with_reducible apply keeps_ite
    | split
    | refine keeps_ite ?_ ?_
    | with_reducible exact keeps_sl (by assumption) (by assumption))

def touchExecGrantAccept (A : Part → Prop) : Prop := touchSlTake A ∧ touchSlReject A
theorem touchExecGrantAccept_all (h : ∀ q, A q) : touchExecGrantAccept A := ⟨touchSlTake_all h, touchSlReject_all h⟩
theorem execGrantAccept_next {src : ℕ} {issue : ℕ} {gen : ℕ} {kw : ℕ} {hc : ℕ} {seq : ℕ} {pledge : Bool} {passed : ℕ} (hA : touchExecGrantAccept A) : ∃ u, execGrantAccept src issue gen kw hc seq pledge passed s = .next u ∧ Keeps A s u := by
  unfold execGrantAccept
  have h := Keeps.refl A s
  refine ⟨_, rfl, ?_⟩
  obtain ⟨_, _⟩ := hA
  repeat' (first
    | with_reducible assumption
    | intro y
    | (extract_lets +onlyGivenNames x; first | (refine cut (P := Keeps A s x) ?_ ?_; (on_goal 1 => (unfold x; clear x)); (on_goal 2 => (intro hx; first | clear_value x | skip))) | clear_value x | skip)
    | (with_reducible apply slTake_keeps (hA := by first | with_reducible assumption | with_reducible apply_assumption))
    | (with_reducible apply slReject_keeps (hA := by first | with_reducible assumption | with_reducible apply_assumption))
    | with_reducible apply keeps_ite
    | split)

def touchSetHolder (A : Part → Prop) : Prop := A .sl
theorem touchSetHolder_all (h : ∀ q, A q) : touchSetHolder A := h _
theorem setHolder_keeps {node : ℕ} {h0 : Sys2Proof.Machine.Holder} (hA : touchSetHolder A)  (h : Keeps A s t) : Keeps A s (State.setHolder t node h0) := by
  unfold State.setHolder
  unfold touchSetHolder at hA
  repeat' (first
    | with_reducible assumption
    | intro y
    | (extract_lets +onlyGivenNames x; first | (refine cut (P := Keeps A s x) ?_ ?_; (on_goal 1 => (unfold x; clear x)); (on_goal 2 => (intro hx; first | clear_value x | skip))) | clear_value x | skip)
    | with_reducible apply keeps_ite
    | split
    | with_reducible exact keeps_sl (by assumption) (by assumption))

def touchSlCheckReport (A : Part → Prop) : Prop := touchLog A ∧ A (.reg R.SL_STAT.FLOOR_FLT) ∧ A .sl
theorem touchSlCheckReport_all (h : ∀ q, A q) : touchSlCheckReport A := ⟨touchLog_all h, h _, h _⟩
theorem slCheckReport_keeps {now : ℕ} {node : ℕ} {was : Sys2Proof.Machine.Holder} {h0 : Sys2Proof.Machine.Holder} (hA : touchSlCheckReport A)  (h : Keeps A s t) : Keeps A s (State.slCheckReport t now node was h0) := by
  unfold State.slCheckReport
  obtain ⟨_, _, _⟩ := hA
  repeat' (first
    | with_reducible assumption
    | intro y
    | (extract_lets +onlyGivenNames x; first | (refine cut (P := Keeps A s x) ?_ ?_; (on_goal 1 => (unfold x; clear x)); (on_goal 2 => (intro hx; first | clear_value x | skip))) | clear_value x | skip)
    | (with_reducible refine put_keepsAt (by assumption) ?_)
    | (with_reducible refine put_keeps (by assumption) ?_)
    | (with_reducible apply log_keeps (hA := by first | with_reducible assumption | with_reducible apply_assumption))
    | with_reducible apply when_keeps
    | with_reducible apply keeps_ite
    | split
    | refine keeps_ite ?_ ?_
    | with_reducible exact keeps_sl (by assumption) (by assumption))

def touchSlNow (A : Part → Prop) : Prop := A .sl
theorem touchSlNow_all (h : ∀ q, A q) : touchSlNow A := h _
theorem slNow_keeps {now : ℕ} (hA : touchSlNow A)  (h : Keeps A s t) : Keeps A s (State.slNow t now) := by
  unfold State.slNow
  unfold touchSlNow at hA
  repeat' (first
    | with_reducible assumption
    | intro y
    | (extract_lets +onlyGivenNames x; first | (refine cut (P := Keeps A s x) ?_ ?_; (on_goal 1 => (unfold x; clear x)); (on_goal 2 => (intro hx; first | clear_value x | skip))) | clear_value x | skip)
    | with_reducible apply keeps_ite
    | split
    | refine keeps_ite ?_ ?_
    | with_reducible exact keeps_sl (by assumption) (by assumption))

def touchSlDisplace (A : Part → Prop) : Prop := touchSetHolder A
theorem touchSlDisplace_all (h : ∀ q, A q) : touchSlDisplace A := touchSetHolder_all h
theorem slDisplace_keeps {node : ℕ} {serial : ℕ} (hA : touchSlDisplace A)  (h : Keeps A s t) : Keeps A s (State.slDisplace t node serial) := by
  unfold State.slDisplace
  unfold touchSlDisplace at hA
  repeat' (first
    | with_reducible assumption
    | intro y
    | (extract_lets +onlyGivenNames x; first | (refine cut (P := Keeps A s x) ?_ ?_; (on_goal 1 => (unfold x; clear x)); (on_goal 2 => (intro hx; first | clear_value x | skip))) | clear_value x | skip)
    | (with_reducible apply setHolder_keeps (hA := by first | with_reducible assumption | with_reducible apply_assumption))
    | with_reducible apply keeps_ite
    | with_reducible apply keeps_foldl
    | split
    | refine keeps_ite ?_ ?_)

def touchExecLedgerReportReceive (A : Part → Prop) : Prop := touchSlNow A ∧ touchSlDisplace A ∧ A .sl ∧ touchSlCheckReport A ∧ touchSetHolder A
theorem touchExecLedgerReportReceive_all (h : ∀ q, A q) : touchExecLedgerReportReceive A := ⟨touchSlNow_all h, touchSlDisplace_all h, h _, touchSlCheckReport_all h, touchSetHolder_all h⟩
theorem execLedgerReportReceive_next {now : ℕ} {node : ℕ} {serial : ℕ} {req : ℕ} {cls : ℕ} {floor : ℕ} {lease : ℕ} {applied : ℕ} {gen : ℕ} {offer : ℕ} {digest : ℕ} {draw : ℤ} (hA : touchExecLedgerReportReceive A) : ∃ u, execLedgerReportReceive now node serial req cls floor lease applied gen offer digest draw s = .next u ∧ Keeps A s u := by
  unfold execLedgerReportReceive
  have h := Keeps.refl A s
  refine ⟨_, rfl, ?_⟩
  obtain ⟨_, _, _, _, _⟩ := hA
  repeat' (first
    | with_reducible assumption
    | intro y
    | (extract_lets +onlyGivenNames x; first | (refine cut (P := Keeps A s x) ?_ ?_; (on_goal 1 => (unfold x; clear x)); (on_goal 2 => (intro hx; first | clear_value x | skip))) | clear_value x | skip)
    | (with_reducible apply slNow_keeps (hA := by first | with_reducible assumption | with_reducible apply_assumption))
    | (with_reducible apply slDisplace_keeps (hA := by first | with_reducible assumption | with_reducible apply_assumption))
    | (with_reducible apply slCheckReport_keeps (hA := by first | with_reducible assumption | with_reducible apply_assumption))
    | (with_reducible apply setHolder_keeps (hA := by first | with_reducible assumption | with_reducible apply_assumption))
    | with_reducible apply keeps_ite
    | split
    | refine keeps_ite ?_ ?_
    | with_reducible exact keeps_sl (by assumption) (by assumption))

def touchSendGrants (A : Part → Prop) : Prop := touchSrcSend A

theorem touchSendGrants_all (h : ∀ q, A q) : touchSendGrants A := touchSrcSend_all h

theorem sendGrants_keeps {issue n : Nat} {entries : List (List Nat)} (hA : touchSendGrants A) (h : Keeps A s t) :
    Keeps A s (t.sendGrants issue entries n) := by
  induction n generalizing t entries with
  | zero => exact h
  | succ n ih =>
    simp only [State.sendGrants]
    split
    · exact h
    · exact ih (srcSend_keeps hA h)

def touchSlSelf (A : Part → Prop) : Prop := touchSlShow A ∧ touchSetHolder A
theorem touchSlSelf_all (h : ∀ q, A q) : touchSlSelf A := ⟨touchSlShow_all h, touchSetHolder_all h⟩
theorem slSelf_keeps {now : ℕ} (hA : touchSlSelf A)  (h : Keeps A s t) : Keeps A s (State.slSelf t now) := by
  unfold State.slSelf
  obtain ⟨_, _⟩ := hA
  repeat' (first
    | with_reducible assumption
    | intro y
    | (extract_lets +onlyGivenNames x; first | (refine cut (P := Keeps A s x) ?_ ?_; (on_goal 1 => (unfold x; clear x)); (on_goal 2 => (intro hx; first | clear_value x | skip))) | clear_value x | skip)
    | (with_reducible apply slShow_keeps (hA := by first | with_reducible assumption | with_reducible apply_assumption))
    | (with_reducible apply setHolder_keeps (hA := by first | with_reducible assumption | with_reducible apply_assumption))
    | with_reducible apply keeps_ite
    | split
    | refine keeps_ite ?_ ?_)

def touchSlAccounts (A : Part → Prop) : Prop := A (.reg R.SL_ROOT_CNT.PRESENT) ∧ A (.reg R.SL_ROOT_COMMIT.COMMIT) ∧ A (.reg R.SL_ROOT_POOL.POOL) ∧ A (.reg R.SL_ROOT_DRAW.DRAW_SUM) ∧ A (.reg R.SL_STAT.QUORUM) ∧ A (.reg R.SL_ROOT_WAIT.WAIT_MS)
theorem touchSlAccounts_all (h : ∀ q, A q) : touchSlAccounts A := ⟨h _, h _, h _, h _, h _, h _⟩
theorem slAccounts_keeps {now : ℕ} {pool : ℕ} {commit : ℕ} (hA : touchSlAccounts A)  (h : Keeps A s t) : Keeps A s (State.slAccounts t now pool commit) := by
  unfold State.slAccounts
  obtain ⟨_, _, _, _, _, _⟩ := hA
  repeat' (first
    | with_reducible assumption
    | intro y
    | (extract_lets +onlyGivenNames x; first | (refine cut (P := Keeps A s x) ?_ ?_; (on_goal 1 => (unfold x; clear x)); (on_goal 2 => (intro hx; first | clear_value x | skip))) | clear_value x | skip)
    | (with_reducible refine putMax_keepsAt (by assumption) ?_)
    | (with_reducible refine putMax_keeps (by assumption) ?_)
    | (with_reducible refine putSat_keepsAt (by assumption) ?_)
    | (with_reducible refine putSat_keeps (by assumption) ?_)
    | (with_reducible refine putb_keepsAt (by assumption) ?_)
    | (with_reducible refine putb_keeps (by assumption) ?_)
    | with_reducible apply keeps_ite
    | with_reducible apply keeps_foldl
    | split
    | refine keeps_ite ?_ ?_)

def touchSlNoQuorum (A : Part → Prop) : Prop := touchLog A ∧ A (.reg R.SL_ROOT_WAIT.WAIT_MS) ∧ A (.reg R.SL_STAT.QUORUM) ∧ touchSlRootState A
theorem touchSlNoQuorum_all (h : ∀ q, A q) : touchSlNoQuorum A := ⟨touchLog_all h, h _, h _, touchSlRootState_all h⟩
theorem slNoQuorum_keeps {now : ℕ} (hA : touchSlNoQuorum A)  (h : Keeps A s t) : Keeps A s (State.slNoQuorum t now) := by
  unfold State.slNoQuorum
  obtain ⟨_, _, _, _⟩ := hA
  repeat' (first
    | with_reducible assumption
    | intro y
    | (with_reducible apply log_keeps (hA := by first | with_reducible assumption | with_reducible apply_assumption))
    | (with_reducible refine put_keepsAt (by assumption) ?_)
    | (with_reducible refine put_keeps (by assumption) ?_)
    | (with_reducible apply slRootState_keeps (hA := by first | with_reducible assumption | with_reducible apply_assumption))
    | with_reducible apply keeps_ite
    | split)

def touchSlRoundState (A : Part → Prop) : Prop := touchSlNoQuorum A
theorem touchSlRoundState_all (h : ∀ q, A q) : touchSlRoundState A := touchSlNoQuorum_all h
theorem slRoundState_keeps {now : ℕ} (hA : touchSlRoundState A)  (h : Keeps A s t) : Keeps A s (State.slRoundState t now) := by
  unfold State.slRoundState
  unfold touchSlRoundState at hA
  repeat' (first
    | with_reducible assumption
    | intro y
    | (extract_lets +onlyGivenNames x; first | (refine cut (P := Keeps A s x) ?_ ?_; (on_goal 1 => (unfold x; clear x)); (on_goal 2 => (intro hx; first | clear_value x | skip))) | clear_value x | skip)
    | (with_reducible apply slNoQuorum_keeps (hA := by first | with_reducible assumption | with_reducible apply_assumption))
    | with_reducible apply when_keeps
    | with_reducible apply keeps_ite
    | split
    | refine keeps_ite ?_ ?_)

def touchSlRoundTakes (A : Part → Prop) : Prop := A .sl
theorem touchSlRoundTakes_all (h : ∀ q, A q) : touchSlRoundTakes A := h _
theorem slRoundTakes_keeps  (hA : touchSlRoundTakes A)  (h : Keeps A s t) : Keeps A s (State.slRoundTakes t) := by
  unfold State.slRoundTakes
  unfold touchSlRoundTakes at hA
  repeat' (first
    | with_reducible assumption
    | intro y
    | (extract_lets +onlyGivenNames x; first | (refine cut (P := Keeps A s x) ?_ ?_; (on_goal 1 => (unfold x; clear x)); (on_goal 2 => (intro hx; first | clear_value x | skip))) | clear_value x | skip)
    | with_reducible apply keeps_ite
    | split
    | refine keeps_ite ?_ ?_
    | with_reducible exact keeps_sl (by assumption) (by assumption))

def touchExecAllocationRound (A : Part → Prop) : Prop := touchSlRoundTakes A ∧ touchSlRoundState A ∧ touchSlNow A ∧ touchSlSelf A ∧ touchSetHolder A ∧ touchSendGrants A ∧ A .sl ∧ touchSlAccounts A ∧ touchSlTake A
theorem touchExecAllocationRound_all (h : ∀ q, A q) : touchExecAllocationRound A := ⟨touchSlRoundTakes_all h, touchSlRoundState_all h, touchSlNow_all h, touchSlSelf_all h, touchSetHolder_all h, touchSendGrants_all h, h _, touchSlAccounts_all h, touchSlTake_all h⟩
theorem execAllocationRound_next {now : ℕ} (hA : touchExecAllocationRound A) : ∃ u, execAllocationRound now s = .next u ∧ Keeps A s u := by
  unfold execAllocationRound
  have h := Keeps.refl A s
  refine ⟨_, rfl, ?_⟩
  obtain ⟨_, _, _, _, _, _, _, _, _⟩ := hA
  repeat' (first
    | with_reducible assumption
    | intro y
    | (extract_lets +onlyGivenNames x; first | (refine cut (P := Keeps A s x) ?_ ?_; (on_goal 1 => (unfold x; clear x)); (on_goal 2 => (intro hx; first | clear_value x | skip))) | clear_value x | skip)
    | (with_reducible apply slRoundTakes_keeps (hA := by first | with_reducible assumption | with_reducible apply_assumption))
    | (with_reducible apply slRoundState_keeps (hA := by first | with_reducible assumption | with_reducible apply_assumption))
    | (with_reducible apply slNow_keeps (hA := by first | with_reducible assumption | with_reducible apply_assumption))
    | (with_reducible apply slSelf_keeps (hA := by first | with_reducible assumption | with_reducible apply_assumption))
    | (with_reducible apply setHolder_keeps (hA := by first | with_reducible assumption | with_reducible apply_assumption))
    | (with_reducible apply sendGrants_keeps (hA := by first | with_reducible assumption | with_reducible apply_assumption))
    | (with_reducible apply slAccounts_keeps (hA := by first | with_reducible assumption | with_reducible apply_assumption))
    | (with_reducible apply slTake_keeps (hA := by first | with_reducible assumption | with_reducible apply_assumption))
    | with_reducible apply keeps_ite
    | with_reducible apply keeps_foldl
    | split
    | refine keeps_ite ?_ ?_
    | with_reducible exact keeps_sl (by assumption) (by assumption))

def touchExecRecordReclaim (A : Part → Prop) : Prop := touchSlNow A ∧ A .sl
theorem touchExecRecordReclaim_all (h : ∀ q, A q) : touchExecRecordReclaim A := ⟨touchSlNow_all h, h _⟩
theorem execRecordReclaim_next {node : ℕ} {now : ℕ} (hA : touchExecRecordReclaim A) : ∃ u, execRecordReclaim node now s = .next u ∧ Keeps A s u := by
  unfold execRecordReclaim
  have h := Keeps.refl A s
  refine ⟨_, rfl, ?_⟩
  obtain ⟨_, _⟩ := hA
  repeat' (first
    | with_reducible assumption
    | intro y
    | (extract_lets +onlyGivenNames x; first | (refine cut (P := Keeps A s x) ?_ ?_; (on_goal 1 => (unfold x; clear x)); (on_goal 2 => (intro hx; first | clear_value x | skip))) | clear_value x | skip)
    | (with_reducible apply slNow_keeps (hA := by first | with_reducible assumption | with_reducible apply_assumption))
    | with_reducible apply keeps_ite
    | split
    | refine keeps_ite ?_ ?_
    | with_reducible exact keeps_sl (by assumption) (by assumption))

def touchExecRecordAckDrop (A : Part → Prop) : Prop := touchSetHolder A
theorem touchExecRecordAckDrop_all (h : ∀ q, A q) : touchExecRecordAckDrop A := touchSetHolder_all h
theorem execRecordAckDrop_next {node : ℕ} {now : ℕ} (hA : touchExecRecordAckDrop A) : ∃ u, execRecordAckDrop node now s = .next u ∧ Keeps A s u := by
  unfold execRecordAckDrop
  have h := Keeps.refl A s
  refine ⟨_, rfl, ?_⟩
  unfold touchExecRecordAckDrop at hA
  repeat' (first
    | with_reducible assumption
    | intro y
    | (extract_lets +onlyGivenNames x; first | (refine cut (P := Keeps A s x) ?_ ?_; (on_goal 1 => (unfold x; clear x)); (on_goal 2 => (intro hx; first | clear_value x | skip))) | clear_value x | skip)
    | (with_reducible apply setHolder_keeps (hA := by first | with_reducible assumption | with_reducible apply_assumption))
    | with_reducible apply keeps_ite
    | split
    | refine keeps_ite ?_ ?_)

def touchExecQuorumLost (A : Part → Prop) : Prop := touchSlNoQuorum A
theorem touchExecQuorumLost_all (h : ∀ q, A q) : touchExecQuorumLost A := touchSlNoQuorum_all h
theorem execQuorumLost_next {now : ℕ} (hA : touchExecQuorumLost A) : ∃ u, execQuorumLost now s = .next u ∧ Keeps A s u := by
  unfold execQuorumLost
  have h := Keeps.refl A s
  refine ⟨_, rfl, ?_⟩
  unfold touchExecQuorumLost at hA
  repeat' (first
    | with_reducible assumption
    | intro y
    | (with_reducible apply slNoQuorum_keeps (hA := by first | with_reducible assumption | with_reducible apply_assumption))
    | with_reducible apply keeps_ite
    | split)

def touchExecQuorumGained (A : Part → Prop) : Prop := A .sl ∧ touchLog A ∧ A (.reg R.SL_GEN.GEN_OWN) ∧ A (.reg R.SL_ROOT_WAIT.WAIT_MS) ∧ A (.reg R.SL_STAT.QUORUM) ∧ touchSlRootState A
theorem touchExecQuorumGained_all (h : ∀ q, A q) : touchExecQuorumGained A := ⟨h _, touchLog_all h, h _, h _, h _, touchSlRootState_all h⟩
theorem execQuorumGained_next {now : ℕ} (hA : touchExecQuorumGained A) : ∃ u, execQuorumGained now s = .next u ∧ Keeps A s u := by
  unfold execQuorumGained
  have h := Keeps.refl A s
  refine ⟨_, rfl, ?_⟩
  obtain ⟨_, _, _, _, _, _⟩ := hA
  repeat' (first
    | with_reducible assumption
    | intro y
    | (extract_lets +onlyGivenNames x; first | (refine cut (P := Keeps A s x) ?_ ?_; (on_goal 1 => (unfold x; clear x)); (on_goal 2 => (intro hx; first | clear_value x | skip))) | clear_value x | skip)
    | (with_reducible apply log_keeps (hA := by first | with_reducible assumption | with_reducible apply_assumption))
    | (with_reducible refine put_keepsAt (by assumption) ?_)
    | (with_reducible refine put_keeps (by assumption) ?_)
    | (with_reducible apply slRootState_keeps (hA := by first | with_reducible assumption | with_reducible apply_assumption))
    | with_reducible apply keeps_ite
    | split
    | refine keeps_ite ?_ ?_
    | with_reducible exact keeps_sl (by assumption) (by assumption))

def touchExecTGenExpiry (A : Part → Prop) : Prop := touchLog A ∧ A (.reg R.SL_ROOT_WAIT.WAIT_MS) ∧ A (.reg R.SL_STAT.QUORUM) ∧ touchSlRootState A ∧ touchSlNoQuorum A
theorem touchExecTGenExpiry_all (h : ∀ q, A q) : touchExecTGenExpiry A := ⟨touchLog_all h, h _, h _, touchSlRootState_all h, touchSlNoQuorum_all h⟩
theorem execTGenExpiry_next {now : ℕ} (hA : touchExecTGenExpiry A) : ∃ u, execTGenExpiry now s = .next u ∧ Keeps A s u := by
  unfold execTGenExpiry
  have h := Keeps.refl A s
  refine ⟨_, rfl, ?_⟩
  obtain ⟨_, _, _, _, _⟩ := hA
  repeat' (first
    | with_reducible assumption
    | intro y
    | (with_reducible apply log_keeps (hA := by first | with_reducible assumption | with_reducible apply_assumption))
    | (with_reducible refine put_keepsAt (by assumption) ?_)
    | (with_reducible refine put_keeps (by assumption) ?_)
    | (with_reducible apply slRootState_keeps (hA := by first | with_reducible assumption | with_reducible apply_assumption))
    | (with_reducible apply slNoQuorum_keeps (hA := by first | with_reducible assumption | with_reducible apply_assumption))
    | with_reducible apply keeps_ite
    | split)

def touchExecPledgeExpiry (A : Part → Prop) : Prop := A (.reg R.LE_PARAM.VALUE) ∧ A (.reg R.SL_STAT.PLEDGED) ∧ A (.reg R.SL_DRAW.PLEDGE)
theorem touchExecPledgeExpiry_all (h : ∀ q, A q) : touchExecPledgeExpiry A := ⟨h _, h _, h _⟩
theorem execPledgeExpiry_next  (hA : touchExecPledgeExpiry A) : ∃ u, execPledgeExpiry s = .next u ∧ Keeps A s u := by
  unfold execPledgeExpiry
  have h := Keeps.refl A s
  refine ⟨_, rfl, ?_⟩
  obtain ⟨_, _, _⟩ := hA
  repeat' (first
    | with_reducible assumption
    | intro y
    | (with_reducible refine putf_keepsAt (by assumption) ?_)
    | (with_reducible refine putf_keeps (by assumption) ?_)
    | (with_reducible refine put_keepsAt (by assumption) ?_)
    | (with_reducible refine put_keeps (by assumption) ?_)
    | with_reducible apply keeps_ite
    | split)

def touchExecPledgeNotMet (A : Part → Prop) : Prop := touchLog A
theorem touchExecPledgeNotMet_all (h : ∀ q, A q) : touchExecPledgeNotMet A := touchLog_all h
theorem execPledgeNotMet_next {draw : ℤ} (hA : touchExecPledgeNotMet A) : ∃ u, execPledgeNotMet draw s = .next u ∧ Keeps A s u := by
  unfold execPledgeNotMet
  have h := Keeps.refl A s
  refine ⟨_, rfl, ?_⟩
  unfold touchExecPledgeNotMet at hA
  repeat' (first
    | with_reducible assumption
    | intro y
    | (with_reducible apply log_keeps (hA := by first | with_reducible assumption | with_reducible apply_assumption))
    | with_reducible apply keeps_ite
    | split)

def touchSetLimDyn (A : Part → Prop) : Prop := touchLog A ∧ A (.reg R.SL_LIMDYN.LIM_DYN)
theorem touchSetLimDyn_all (h : ∀ q, A q) : touchSetLimDyn A := ⟨touchLog_all h, h _⟩
theorem setLimDyn_keeps {v : ℕ} (hA : touchSetLimDyn A)  (h : Keeps A s t) : Keeps A s (State.setLimDyn t v) := by
  unfold State.setLimDyn
  obtain ⟨_, _⟩ := hA
  repeat' (first
    | with_reducible assumption
    | intro y
    | (with_reducible apply log_keeps (hA := by first | with_reducible assumption | with_reducible apply_assumption))
    | (with_reducible refine putMax_keepsAt (by assumption) ?_)
    | (with_reducible refine putMax_keeps (by assumption) ?_)
    | with_reducible apply keeps_ite
    | split)

def touchLimDynWrite (A : Part → Prop) : Prop := touchLog A ∧ touchSetLimDyn A
theorem touchLimDynWrite_all (h : ∀ q, A q) : touchLimDynWrite A := ⟨touchLog_all h, touchSetLimDyn_all h⟩
theorem limDynWrite_keeps {v : ℕ} (hA : touchLimDynWrite A)  (h : Keeps A s t) : Keeps A s (State.limDynWrite t v) := by
  unfold State.limDynWrite
  obtain ⟨_, _⟩ := hA
  repeat' (first
    | with_reducible assumption
    | intro y
    | (extract_lets +onlyGivenNames x; first | (refine cut (P := Keeps A s x) ?_ ?_; (on_goal 1 => (unfold x; clear x)); (on_goal 2 => (intro hx; first | clear_value x | skip))) | clear_value x | skip)
    | (with_reducible apply log_keeps (hA := by first | with_reducible assumption | with_reducible apply_assumption))
    | (with_reducible apply setLimDyn_keeps (hA := by first | with_reducible assumption | with_reducible apply_assumption))
    | with_reducible apply keeps_ite
    | split
    | refine keeps_ite ?_ ?_)

def touchLimDynAct (A : Part → Prop) : Prop := touchSetLimDyn A ∧ A .sl
theorem touchLimDynAct_all (h : ∀ q, A q) : touchLimDynAct A := ⟨touchSetLimDyn_all h, h _⟩
theorem limDynAct_keeps {v : ℕ} (hA : touchLimDynAct A)  (h : Keeps A s t) : Keeps A s (State.limDynAct t v) := by
  unfold State.limDynAct
  obtain ⟨_, _⟩ := hA
  repeat' (first
    | with_reducible assumption
    | intro y
    | (extract_lets +onlyGivenNames x; first | (refine cut (P := Keeps A s x) ?_ ?_; (on_goal 1 => (unfold x; clear x)); (on_goal 2 => (intro hx; first | clear_value x | skip))) | clear_value x | skip)
    | (with_reducible apply setLimDyn_keeps (hA := by first | with_reducible assumption | with_reducible apply_assumption))
    | with_reducible apply keeps_ite
    | split
    | refine keeps_ite ?_ ?_
    | with_reducible exact keeps_sl (by assumption) (by assumption))

def touchExecSetLimDyn (A : Part → Prop) : Prop := touchLaRun A ∧ touchLimDynAct A
theorem touchExecSetLimDyn_all (h : ∀ q, A q) : touchExecSetLimDyn A := ⟨touchLaRun_all h, touchLimDynAct_all h⟩
theorem execSetLimDyn_next  (hA : touchExecSetLimDyn A) : ∃ u, execSetLimDyn s = .next u ∧ Keeps A s u := by
  unfold execSetLimDyn
  have h := Keeps.refl A s
  refine ⟨_, rfl, ?_⟩
  obtain ⟨_, _⟩ := hA
  repeat' (first
    | with_reducible assumption
    | intro y
    | (extract_lets +onlyGivenNames x; first | (refine cut (P := Keeps A s x) ?_ ?_; (on_goal 1 => (unfold x; clear x)); (on_goal 2 => (intro hx; first | clear_value x | skip))) | clear_value x | skip)
    | (with_reducible apply laRun_keeps (hA := by first | with_reducible assumption | with_reducible apply_assumption))
    | (with_reducible apply limDynAct_keeps (hA := by first | with_reducible assumption | with_reducible apply_assumption))
    | with_reducible apply keeps_ite
    | split
    | refine keeps_ite ?_ ?_)

def touchExecCut (A : Part → Prop) : Prop := touchLaRun A ∧ A (.reg R.PE_GRP_LEASE.P_LEASE) ∧ A (.reg R.SL_STAT.CUT_SEEN) ∧ A (.reg R.SL_CUT.CUT_ACT) ∧ A (.reg R.SL_CUT.CUT_F) ∧ touchLog A ∧ A (.reg R.SL_LEASE.LEASE) ∧ A .sl ∧ touchLimDynAct A
theorem touchExecCut_all (h : ∀ q, A q) : touchExecCut A := ⟨touchLaRun_all h, h _, h _, h _, h _, touchLog_all h, h _, h _, touchLimDynAct_all h⟩
theorem execCut_next  (hA : touchExecCut A) : ∃ u, execCut s = .next u ∧ Keeps A s u := by
  unfold execCut
  have h := Keeps.refl A s
  refine ⟨_, rfl, ?_⟩
  obtain ⟨_, _, _, _, _, _, _, _, _⟩ := hA
  repeat' (first
    | with_reducible assumption
    | intro y
    | (extract_lets +onlyGivenNames x; first | (refine cut (P := Keeps A s x) ?_ ?_; (on_goal 1 => (unfold x; clear x)); (on_goal 2 => (intro hx; first | clear_value x | skip))) | clear_value x | skip)
    | (with_reducible refine put_keepsAt (by assumption) ?_)
    | (with_reducible refine put_keeps (by assumption) ?_)
    | (with_reducible apply laRun_keeps (hA := by first | with_reducible assumption | with_reducible apply_assumption))
    | (with_reducible apply log_keeps (hA := by first | with_reducible assumption | with_reducible apply_assumption))
    | (with_reducible apply limDynAct_keeps (hA := by first | with_reducible assumption | with_reducible apply_assumption))
    | with_reducible apply each_keeps
    | with_reducible apply keeps_ite
    | split
    | refine keeps_ite ?_ ?_
    | with_reducible exact keeps_sl (by assumption) (by assumption))

def touchExecLimDynWrite (A : Part → Prop) : Prop := touchGuarded A ∧ touchLimDynWrite A
theorem touchExecLimDynWrite_all (h : ∀ q, A q) : touchExecLimDynWrite A := ⟨touchGuarded_all h, touchLimDynWrite_all h⟩
theorem execLimDynWrite_next {sess : ℕ} {v : ℕ} (hA : touchExecLimDynWrite A) : ∃ u, execLimDynWrite sess v s = .next u ∧ Keeps A s u := by
  unfold execLimDynWrite
  have h := Keeps.refl A s
  refine ⟨_, rfl, ?_⟩
  obtain ⟨_, _⟩ := hA
  repeat' (first
    | with_reducible assumption
    | intro y
    | (extract_lets +onlyGivenNames x; first | (refine cut (P := Keeps A s x) ?_ ?_; (on_goal 1 => (unfold x; clear x)); (on_goal 2 => (intro hx; first | clear_value x | skip))) | clear_value x | skip)
    | (with_reducible apply guarded_keeps (hA := by first | with_reducible assumption | with_reducible apply_assumption))
    | (with_reducible apply limDynWrite_keeps (hA := by first | with_reducible assumption | with_reducible apply_assumption))
    | with_reducible apply keeps_ite
    | split
    | refine keeps_ite ?_ ?_)

def touchExecDrawOverLimit (A : Part → Prop) : Prop := touchLog A ∧ A (.reg R.SL_STAT.OVER_SEEN) ∧ A (.reg R.SL_ROOT_DRAW.DRAW_SUM)
theorem touchExecDrawOverLimit_all (h : ∀ q, A q) : touchExecDrawOverLimit A := ⟨touchLog_all h, h _, h _⟩
theorem execDrawOverLimit_next {now : ℕ} {cycles : ℕ} (hA : touchExecDrawOverLimit A) : ∃ u, execDrawOverLimit now cycles s = .next u ∧ Keeps A s u := by
  unfold execDrawOverLimit
  have h := Keeps.refl A s
  refine ⟨_, rfl, ?_⟩
  obtain ⟨_, _, _⟩ := hA
  repeat' (first
    | with_reducible assumption
    | intro y
    | (extract_lets +onlyGivenNames x; first | (refine cut (P := Keeps A s x) ?_ ?_; (on_goal 1 => (unfold x; clear x)); (on_goal 2 => (intro hx; first | clear_value x | skip))) | clear_value x | skip)
    | (with_reducible apply log_keeps (hA := by first | with_reducible assumption | with_reducible apply_assumption))
    | (with_reducible refine put_keepsAt (by assumption) ?_)
    | (with_reducible refine put_keeps (by assumption) ?_)
    | (with_reducible refine putSat_keepsAt (by assumption) ?_)
    | (with_reducible refine putSat_keeps (by assumption) ?_)
    | with_reducible apply keeps_ite
    | with_reducible apply keeps_foldl
    | split
    | refine keeps_ite ?_ ?_)

end Sys2Proof.Laws
end

