-- ==== Sys2Proof/Laws/KeepsLoop.lean ====
section
/-! SUPPORT. What the operations of Machine/Loop.lean leave alone: for each the parts it may change (`touch…`) and its lemma. -/

namespace Sys2Proof.Laws

open Sys2Proof.Machine

set_option linter.unusedTactic false
set_option linter.unreachableTactic false
set_option linter.unusedVariables false
set_option linter.tactic.unusedName false

variable {A : Part → Prop} {s t : State}

def touchSrateWrite (A : Part → Prop) : Prop := touchLog A ∧ A (.reg R.LE_CTRL.SR_STATUS) ∧ A (.reg R.LE_CTRL.SRATE) ∧ A .le
theorem touchSrateWrite_all (h : ∀ q, A q) : touchSrateWrite A := ⟨touchLog_all h, h _, h _, h _⟩
theorem srateWrite_keeps {v : ℕ} (hA : touchSrateWrite A)  (h : Keeps A s t) : Keeps A s (State.srateWrite t v) := by
  unfold State.srateWrite
  obtain ⟨_, _, _, _⟩ := hA
  repeat' (first
    | with_reducible assumption
    | intro y
    | (extract_lets +onlyGivenNames x; first | (refine cut (P := Keeps A s x) ?_ ?_; (on_goal 1 => (unfold x; clear x)); (on_goal 2 => (intro hx; first | clear_value x | skip))) | (refine cut (P := ∀ y0, Keeps A s (x y0)) ?_ ?_; (on_goal 1 => (unfold x; clear x)); (on_goal 2 => (intro hf; first | clear_value x | skip))) | clear_value x | skip)
    | (with_reducible refine put_keepsAt (by assumption) ?_)
    | (with_reducible refine put_keeps (by assumption) ?_)
    | (with_reducible apply log_keeps (hA := by first | with_reducible assumption | with_reducible apply_assumption))
    | with_reducible apply keeps_ite
    | with_reducible apply hf
    | with_reducible apply_assumption
    | split
    | refine keeps_ite ?_ ?_
    | with_reducible exact keeps_le (by assumption) (by assumption))

def touchSrateTake (A : Part → Prop) : Prop := touchLog A ∧ touchLoopLoad A ∧ A (.reg R.LE_CTRL.SR_STATUS) ∧ A (.reg R.LE_CTRL.SRATE_ACT) ∧ A .le
theorem touchSrateTake_all (h : ∀ q, A q) : touchSrateTake A := ⟨touchLog_all h, touchLoopLoad_all h, h _, h _, h _⟩
theorem srateTake_keeps  (hA : touchSrateTake A)  (h : Keeps A s t) : Keeps A s (State.srateTake t) := by
  unfold State.srateTake
  obtain ⟨_, _, _, _, _⟩ := hA
  repeat' (first
    | with_reducible assumption
    | intro y
    | (extract_lets +onlyGivenNames x; first | (refine cut (P := Keeps A s x) ?_ ?_; (on_goal 1 => (unfold x; clear x)); (on_goal 2 => (intro hx; first | clear_value x | skip))) | clear_value x | skip)
    | (with_reducible refine put_keepsAt (by assumption) ?_)
    | (with_reducible refine put_keeps (by assumption) ?_)
    | (with_reducible apply log_keeps (hA := by first | with_reducible assumption | with_reducible apply_assumption))
    | (with_reducible apply loopLoad_keeps (hA := by first | with_reducible assumption | with_reducible apply_assumption))
    | with_reducible apply keeps_ite
    | split
    | refine keeps_ite ?_ ?_
    | with_reducible exact keeps_le (by assumption) (by assumption))

def touchFfTake (A : Part → Prop) : Prop := A .le ∧ A (.reg R.LE_FF_CTRL.ACT)
theorem touchFfTake_all (h : ∀ q, A q) : touchFfTake A := ⟨h _, h _⟩
theorem ffTake_keeps  (hA : touchFfTake A)  (h : Keeps A s t) : Keeps A s (State.ffTake t) := by
  unfold State.ffTake
  obtain ⟨_, _⟩ := hA
  repeat' (first
    | with_reducible assumption
    | intro y
    | (extract_lets +onlyGivenNames x; first | (refine cut (P := Keeps A s x) ?_ ?_; (on_goal 1 => (unfold x; clear x)); (on_goal 2 => (intro hx; first | clear_value x | skip))) | clear_value x | skip)
    | (with_reducible refine put_keepsAt (by assumption) ?_)
    | (with_reducible refine put_keeps (by assumption) ?_)
    | with_reducible apply keeps_ite
    | split
    | refine keeps_ite ?_ ?_
    | with_reducible exact keeps_le (by assumption) (by assumption))

def touchAngleZero (A : Part → Prop) : Prop := touchFfTake A ∧ touchSrateTake A
theorem touchAngleZero_all (h : ∀ q, A q) : touchAngleZero A := ⟨touchFfTake_all h, touchSrateTake_all h⟩
theorem angleZero_keeps  (hA : touchAngleZero A)  (h : Keeps A s t) : Keeps A s (State.angleZero t) := by
  unfold State.angleZero
  obtain ⟨_, _⟩ := hA
  repeat' (first
    | with_reducible assumption
    | intro y
    | (extract_lets +onlyGivenNames x; first | (refine cut (P := Keeps A s x) ?_ ?_; (on_goal 1 => (unfold x; clear x)); (on_goal 2 => (intro hx; first | clear_value x | skip))) | clear_value x | skip)
    | (with_reducible apply ffTake_keeps (hA := by first | with_reducible assumption | with_reducible apply_assumption))
    | (with_reducible apply srateTake_keeps (hA := by first | with_reducible assumption | with_reducible apply_assumption))
    | with_reducible apply keeps_ite
    | split
    | refine keeps_ite ?_ ?_)

def touchInjPub (A : Part → Prop) : Prop := touchSetInjx A
theorem touchInjPub_all (h : ∀ q, A q) : touchInjPub A := touchSetInjx_all h
theorem injPub_keeps  (hA : touchInjPub A)  (h : Keeps A s t) : Keeps A s (State.injPub t) := by
  unfold State.injPub
  unfold touchInjPub at hA
  repeat' (first
    | with_reducible assumption
    | intro y
    | (extract_lets +onlyGivenNames x; first | (refine cut (P := Keeps A s x) ?_ ?_; (on_goal 1 => (unfold x; clear x)); (on_goal 2 => (intro hx; first | clear_value x | skip))) | clear_value x | skip)
    | (with_reducible apply setInjx_keeps (hA := by first | with_reducible assumption | with_reducible apply_assumption))
    | with_reducible apply each_keeps
    | with_reducible apply keeps_ite
    | split
    | refine keeps_ite ?_ ?_)

def touchCapStrobe (A : Part → Prop) : Prop := A .le ∧ touchFree A
theorem touchCapStrobe_all (h : ∀ q, A q) : touchCapStrobe A := ⟨h _, touchFree_all h⟩
theorem capStrobe_keeps  (hA : touchCapStrobe A)  (h : Keeps A s t) : Keeps A s (State.capStrobe t) := by
  unfold State.capStrobe
  obtain ⟨_, _⟩ := hA
  repeat' (first
    | with_reducible assumption
    | intro y
    | (extract_lets +onlyGivenNames x; first | (refine cut (P := Keeps A s x) ?_ ?_; (on_goal 1 => (unfold x; clear x)); (on_goal 2 => (intro hx; first | clear_value x | skip))) | (refine cut (P := Keeps A s x.2) ?_ ?_; (on_goal 1 => (unfold x; clear x)); (on_goal 2 => (intro hx; first | clear_value x | skip))) | (refine cut (P := Keeps A s x.2.2) ?_ ?_; (on_goal 1 => (unfold x; clear x)); (on_goal 2 => (intro hx; first | clear_value x | skip))) | clear_value x | skip)
    | (with_reducible apply free_keeps (hA := by first | with_reducible assumption | with_reducible apply_assumption))
    | with_reducible apply keeps_ite
    | with_reducible apply keeps_ite2
    | with_reducible apply keeps_ite3
    | with_reducible apply keeps_foldl
    | with_reducible apply keeps_foldl2
    | with_reducible apply keeps_foldl3
    | split
    | refine keeps_ite ?_ ?_
    | with_reducible exact keeps_le (by assumption) (by assumption))

def touchExecSampleStrobe (A : Part → Prop) : Prop := touchPhaseStrobe A ∧ touchFfTake A ∧ touchSrateTake A ∧ touchLog A ∧ A (.reg R.LE_STAT.OVERRUN) ∧ touchSetLx A ∧ (∀ x0, touchLoopDeliver A x0) ∧ touchCapStrobe A ∧ touchInjPub A ∧ (∀ x0, touchSlewShow A x0) ∧ (∀ x0, touchLoopUpdate A x0)
theorem touchExecSampleStrobe_all (h : ∀ q, A q) : touchExecSampleStrobe A := ⟨touchPhaseStrobe_all h, touchFfTake_all h, touchSrateTake_all h, touchLog_all h, h _, touchSetLx_all h, (fun _ => touchLoopDeliver_all h), touchCapStrobe_all h, touchInjPub_all h, (fun _ => touchSlewShow_all h), (fun _ => touchLoopUpdate_all h)⟩
theorem execSampleStrobe_next {i : ℕ} {late : ℕ} (hA : touchExecSampleStrobe A) : ∃ u, execSampleStrobe i late s = .next u ∧ Keeps A s u := by
  unfold execSampleStrobe
  have h := Keeps.refl A s
  refine ⟨_, rfl, ?_⟩
  obtain ⟨_, _, _, _, _, _, _, _, _, _, _⟩ := hA
  repeat' (first
    | with_reducible assumption
    | intro y
    | (extract_lets +onlyGivenNames x; first | (refine cut (P := Keeps A s x) ?_ ?_; (on_goal 1 => (unfold x; clear x)); (on_goal 2 => (intro hx; first | clear_value x | skip))) | clear_value x | skip)
    | (with_reducible refine put_keepsAt (by assumption) ?_)
    | (with_reducible refine put_keeps (by assumption) ?_)
    | (with_reducible apply phaseStrobe_keeps (hA := by first | with_reducible assumption | with_reducible apply_assumption))
    | (with_reducible apply ffTake_keeps (hA := by first | with_reducible assumption | with_reducible apply_assumption))
    | (with_reducible apply srateTake_keeps (hA := by first | with_reducible assumption | with_reducible apply_assumption))
    | (with_reducible apply log_keeps (hA := by first | with_reducible assumption | with_reducible apply_assumption))
    | (with_reducible apply setLx_keeps (hA := by first | with_reducible assumption | with_reducible apply_assumption))
    | (with_reducible apply loopDeliver_keeps (hA := by first | with_reducible assumption | with_reducible apply_assumption))
    | (with_reducible apply capStrobe_keeps (hA := by first | with_reducible assumption | with_reducible apply_assumption))
    | (with_reducible apply injPub_keeps (hA := by first | with_reducible assumption | with_reducible apply_assumption))
    | (with_reducible apply slewShow_keeps (hA := by first | with_reducible assumption | with_reducible apply_assumption))
    | (with_reducible apply loopUpdate_keeps (hA := by first | with_reducible assumption | with_reducible apply_assumption))
    | with_reducible apply each_keeps
    | with_reducible apply eachBit_keeps
    | with_reducible apply keeps_ite
    | split
    | refine keeps_ite ?_ ?_)

def touchExecLoopHoldExit (A : Part → Prop) (l : Nat) : Prop := touchLoopLateInit A l ∧ touchSetLx A ∧ touchLog A ∧ touchLoopState A l
theorem touchExecLoopHoldExit_all (h : ∀ q, A q) {l : Nat} : touchExecLoopHoldExit A l := ⟨touchLoopLateInit_all h, touchSetLx_all h, touchLog_all h, touchLoopState_all h⟩
theorem execLoopHoldExit_next {l : ℕ} (hA : touchExecLoopHoldExit A l) : ∃ u, execLoopHoldExit l s = .next u ∧ Keeps A s u := by
  unfold execLoopHoldExit
  have h := Keeps.refl A s
  refine ⟨_, rfl, ?_⟩
  obtain ⟨_, _, _, _⟩ := hA
  repeat' (first
    | with_reducible assumption
    | intro y
    | (extract_lets +onlyGivenNames x; first | (refine cut (P := Keeps A s x) ?_ ?_; (on_goal 1 => (unfold x; clear x)); (on_goal 2 => (intro hx; first | clear_value x | skip))) | clear_value x | skip)
    | (with_reducible apply loopLateInit_keeps (hA := by first | with_reducible assumption | with_reducible apply_assumption))
    | (with_reducible apply setLx_keeps (hA := by first | with_reducible assumption | with_reducible apply_assumption))
    | (with_reducible apply log_keeps (hA := by first | with_reducible assumption | with_reducible apply_assumption))
    | (with_reducible apply loopState_keeps (hA := by first | with_reducible assumption | with_reducible apply_assumption))
    | with_reducible apply keeps_ite
    | split
    | refine keeps_ite ?_ ?_)

def touchExecSrateChange (A : Part → Prop) : Prop := touchGuarded A ∧ touchSrateWrite A ∧ touchSrateTake A
theorem touchExecSrateChange_all (h : ∀ q, A q) : touchExecSrateChange A := ⟨touchGuarded_all h, touchSrateWrite_all h, touchSrateTake_all h⟩
theorem execSrateChange_next {sess : ℕ} {v : Option ℕ} (hA : touchExecSrateChange A) : ∃ u, execSrateChange sess v s = .next u ∧ Keeps A s u := by
  unfold execSrateChange
  have h := Keeps.refl A s
  refine ⟨_, rfl, ?_⟩
  obtain ⟨_, _, _⟩ := hA
  repeat' (first
    | with_reducible assumption
    | intro y
    | (extract_lets +onlyGivenNames x; first | (refine cut (P := Keeps A s x) ?_ ?_; (on_goal 1 => (unfold x; clear x)); (on_goal 2 => (intro hx; first | clear_value x | skip))) | clear_value x | skip)
    | (with_reducible apply guarded_keeps (hA := by first | with_reducible assumption | with_reducible apply_assumption))
    | (with_reducible apply srateWrite_keeps (hA := by first | with_reducible assumption | with_reducible apply_assumption))
    | (with_reducible apply srateTake_keeps (hA := by first | with_reducible assumption | with_reducible apply_assumption))
    | with_reducible apply keeps_ite
    | split
    | refine keeps_ite ?_ ?_)

def touchExecLoopEnable (A : Part → Prop) (l : Nat) : Prop := touchGuarded A ∧ touchLoopEnable A l
theorem touchExecLoopEnable_all (h : ∀ q, A q) {l : Nat} : touchExecLoopEnable A l := ⟨touchGuarded_all h, touchLoopEnable_all h⟩
theorem execLoopEnable_next {sess : ℕ} {l : ℕ} (hA : touchExecLoopEnable A l) : ∃ u, execLoopEnable sess l s = .next u ∧ Keeps A s u := by
  unfold execLoopEnable
  have h := Keeps.refl A s
  refine ⟨_, rfl, ?_⟩
  obtain ⟨_, _⟩ := hA
  repeat' (first
    | with_reducible assumption
    | intro y
    | (with_reducible apply guarded_keeps (hA := by first | with_reducible assumption | with_reducible apply_assumption))
    | (with_reducible apply loopEnable_keeps (hA := by first | with_reducible assumption | with_reducible apply_assumption))
    | with_reducible apply keeps_ite
    | split)

def touchExecLoopDisable (A : Part → Prop) (l : Nat) : Prop := touchGuarded A ∧ touchLoopDisable A l
theorem touchExecLoopDisable_all (h : ∀ q, A q) {l : Nat} : touchExecLoopDisable A l := ⟨touchGuarded_all h, touchLoopDisable_all h⟩
theorem execLoopDisable_next {sess : ℕ} {l : ℕ} (hA : touchExecLoopDisable A l) : ∃ u, execLoopDisable sess l s = .next u ∧ Keeps A s u := by
  unfold execLoopDisable
  have h := Keeps.refl A s
  refine ⟨_, rfl, ?_⟩
  obtain ⟨_, _⟩ := hA
  repeat' (first
    | with_reducible assumption
    | intro y
    | (with_reducible apply guarded_keeps (hA := by first | with_reducible assumption | with_reducible apply_assumption))
    | (with_reducible apply loopDisable_keeps (hA := by first | with_reducible assumption | with_reducible apply_assumption))
    | with_reducible apply keeps_ite
    | split)

def touchLoopMode (A : Part → Prop) (l : Nat) : Prop := A (.inst R.LE_L_CTRL.MODE l 0)
theorem touchLoopMode_all (h : ∀ q, A q) {l : Nat} : touchLoopMode A l := h _
theorem loopMode_keeps {l : ℕ} {man : Bool} (hA : touchLoopMode A l)  (h : Keeps A s t) : Keeps A s (State.loopMode t l man) := by
  unfold State.loopMode
  unfold touchLoopMode at hA
  repeat' (first
    | with_reducible assumption
    | intro y
    | (extract_lets +onlyGivenNames x; first | (refine cut (P := Keeps A s x) ?_ ?_; (on_goal 1 => (unfold x; clear x)); (on_goal 2 => (intro hx; first | clear_value x | skip))) | clear_value x | skip)
    | (with_reducible refine putb_keepsAt (by assumption) ?_)
    | (with_reducible refine putb_keeps (by assumption) ?_)
    | with_reducible apply keeps_ite
    | split
    | refine keeps_ite ?_ ?_)

def touchExecLoopModeChange (A : Part → Prop) (l : Nat) : Prop := touchGuarded A ∧ touchLoopMode A l
theorem touchExecLoopModeChange_all (h : ∀ q, A q) {l : Nat} : touchExecLoopModeChange A l := ⟨touchGuarded_all h, touchLoopMode_all h⟩
theorem execLoopModeChange_next {sess : ℕ} {l : ℕ} {man : Bool} (hA : touchExecLoopModeChange A l) : ∃ u, execLoopModeChange sess l man s = .next u ∧ Keeps A s u := by
  unfold execLoopModeChange
  have h := Keeps.refl A s
  refine ⟨_, rfl, ?_⟩
  obtain ⟨_, _⟩ := hA
  repeat' (first
    | with_reducible assumption
    | intro y
    | (with_reducible apply guarded_keeps (hA := by first | with_reducible assumption | with_reducible apply_assumption))
    | (with_reducible apply loopMode_keeps (hA := by first | with_reducible assumption | with_reducible apply_assumption))
    | with_reducible apply keeps_ite
    | split)

def touchExecGtCommit (A : Part → Prop) : Prop := touchGuarded A ∧ touchSetLx A
theorem touchExecGtCommit_all (h : ∀ q, A q) : touchExecGtCommit A := ⟨touchGuarded_all h, touchSetLx_all h⟩
theorem execGtCommit_next {sess : ℕ} {l : ℕ} (hA : touchExecGtCommit A) : ∃ u, execGtCommit sess l s = .next u ∧ Keeps A s u := by
  unfold execGtCommit
  have h := Keeps.refl A s
  refine ⟨_, rfl, ?_⟩
  obtain ⟨_, _⟩ := hA
  repeat' (first
    | with_reducible assumption
    | intro y
    | (extract_lets +onlyGivenNames x; first | (refine cut (P := Keeps A s x) ?_ ?_; (on_goal 1 => (unfold x; clear x)); (on_goal 2 => (intro hx; first | clear_value x | skip))) | clear_value x | skip)
    | (with_reducible apply guarded_keeps (hA := by first | with_reducible assumption | with_reducible apply_assumption))
    | (with_reducible apply setLx_keeps (hA := by first | with_reducible assumption | with_reducible apply_assumption))
    | with_reducible apply keeps_ite
    | split)

def touchExecFfSwap (A : Part → Prop) : Prop := A .le ∧ touchGuarded A
theorem touchExecFfSwap_all (h : ∀ q, A q) : touchExecFfSwap A := ⟨h _, touchGuarded_all h⟩
theorem execFfSwap_next {sess : ℕ} {mask : ℕ} (hA : touchExecFfSwap A) : ∃ u, execFfSwap sess mask s = .next u ∧ Keeps A s u := by
  unfold execFfSwap
  have h := Keeps.refl A s
  refine ⟨_, rfl, ?_⟩
  obtain ⟨_, _⟩ := hA
  repeat' (first
    | with_reducible assumption
    | intro y
    | (extract_lets +onlyGivenNames x; first | (refine cut (P := Keeps A s x) ?_ ?_; (on_goal 1 => (unfold x; clear x)); (on_goal 2 => (intro hx; first | clear_value x | skip))) | clear_value x | skip)
    | (with_reducible apply guarded_keeps (hA := by first | with_reducible assumption | with_reducible apply_assumption))
    | with_reducible apply keeps_ite
    | split
    | with_reducible exact keeps_le (by assumption) (by assumption))

def touchLaLoopRefuse (A : Part → Prop) : Prop := touchLog A
theorem touchLaLoopRefuse_all (h : ∀ q, A q) : touchLaLoopRefuse A := touchLog_all h
theorem laLoopRefuse_keeps {l : ℕ} {op : ℕ} (hA : touchLaLoopRefuse A)  (h : Keeps A s t) : Keeps A s (State.laLoopRefuse t l op) := by
  unfold State.laLoopRefuse
  unfold touchLaLoopRefuse at hA
  repeat' (first
    | with_reducible assumption
    | intro y
    | (with_reducible apply log_keeps (hA := by first | with_reducible assumption | with_reducible apply_assumption))
    | with_reducible apply keeps_ite
    | split)

def touchLaLoops (A : Part → Prop) : Prop := touchLaLoopRefuse A
theorem touchLaLoops_all (h : ∀ q, A q) : touchLaLoops A := touchLaLoopRefuse_all h
theorem laLoops_keeps {a : Sys2Proof.Machine.La} {ok : Sys2Proof.Machine.State → ℕ → Bool} {g : ℕ → Sys2Proof.Machine.State → Sys2Proof.Machine.State} (hA : touchLaLoops A) (hg : ∀ y0 y1, Keeps A s y1 → Keeps A s (g y0 y1)) (h : Keeps A s t) : Keeps A s (State.laLoops t a ok g) := by
  unfold State.laLoops
  unfold touchLaLoops at hA
  repeat' (first
    | with_reducible assumption
    | intro y
    | with_reducible apply eachBit_keeps
    | (with_reducible apply laLoopRefuse_keeps (hA := by first | with_reducible assumption | with_reducible apply_assumption))
    | with_reducible apply keeps_ite
    | with_reducible apply hok
    | with_reducible apply hg
    | split)

def touchLaLoopRun (A : Part → Prop) : Prop := touchLaRun A ∧ touchAngleZero A
theorem touchLaLoopRun_all (h : ∀ q, A q) : touchLaLoopRun A := ⟨touchLaRun_all h, touchAngleZero_all h⟩
theorem laLoopRun_keeps {op : ℕ} {g : Sys2Proof.Machine.La → Sys2Proof.Machine.State → Sys2Proof.Machine.State} (hA : touchLaLoopRun A) (hg : ∀ y0 y1, Keeps A s y1 → Keeps A s (g y0 y1)) (h : Keeps A s t) : Keeps A s (State.laLoopRun t op g) := by
  unfold State.laLoopRun
  obtain ⟨_, _⟩ := hA
  repeat' (first
    | with_reducible assumption
    | intro y
    | (extract_lets +onlyGivenNames x; first | (refine cut (P := Keeps A s x) ?_ ?_; (on_goal 1 => (unfold x; clear x)); (on_goal 2 => (intro hx; first | clear_value x | skip))) | clear_value x | skip)
    | (with_reducible apply laRun_keeps (hA := by first | with_reducible assumption | with_reducible apply_assumption))
    | (with_reducible apply angleZero_keeps (hA := by first | with_reducible assumption | with_reducible apply_assumption))
    | with_reducible apply keeps_ite
    | with_reducible apply hg
    | split
    | refine keeps_ite ?_ ?_)

def touchExecSetTarget (A : Part → Prop) : Prop := touchLaLoopRun A ∧ touchLaLoops A ∧ (∀ x0, touchSlewShow A x0) ∧ A (.reg R.LE_L_R_TGT.R_TGT)
theorem touchExecSetTarget_all (h : ∀ q, A q) : touchExecSetTarget A := ⟨touchLaLoopRun_all h, touchLaLoops_all h, (fun _ => touchSlewShow_all h), h _⟩
theorem execSetTarget_next  (hA : touchExecSetTarget A) : ∃ u, execSetTarget s = .next u ∧ Keeps A s u := by
  unfold execSetTarget
  have h := Keeps.refl A s
  refine ⟨_, rfl, ?_⟩
  obtain ⟨_, _, _, _⟩ := hA
  repeat' (first
    | with_reducible assumption
    | intro y
    | (extract_lets +onlyGivenNames x; first | (refine cut (P := Keeps A s x) ?_ ?_; (on_goal 1 => (unfold x; clear x)); (on_goal 2 => (intro hx; first | clear_value x | skip))) | clear_value x | skip)
    | (with_reducible refine putf_keepsAt (by assumption) ?_)
    | (with_reducible refine putf_keeps (by assumption) ?_)
    | (with_reducible apply laLoopRun_keeps (hA := by first | with_reducible assumption | with_reducible apply_assumption))
    | (with_reducible apply laLoops_keeps (hA := by first | with_reducible assumption | with_reducible apply_assumption))
    | (with_reducible apply slewShow_keeps (hA := by first | with_reducible assumption | with_reducible apply_assumption))
    | with_reducible apply keeps_ite
    | split
    | refine keeps_ite ?_ ?_)

def touchExecScaleTarget (A : Part → Prop) : Prop := touchLaLoopRun A ∧ touchLaLoops A ∧ (∀ x0, touchSlewShow A x0) ∧ A (.reg R.LE_L_R_TGT.R_TGT)
theorem touchExecScaleTarget_all (h : ∀ q, A q) : touchExecScaleTarget A := ⟨touchLaLoopRun_all h, touchLaLoops_all h, (fun _ => touchSlewShow_all h), h _⟩
theorem execScaleTarget_next  (hA : touchExecScaleTarget A) : ∃ u, execScaleTarget s = .next u ∧ Keeps A s u := by
  unfold execScaleTarget
  have h := Keeps.refl A s
  refine ⟨_, rfl, ?_⟩
  obtain ⟨_, _, _, _⟩ := hA
  repeat' (first
    | with_reducible assumption
    | intro y
    | (extract_lets +onlyGivenNames x; first | (refine cut (P := Keeps A s x) ?_ ?_; (on_goal 1 => (unfold x; clear x)); (on_goal 2 => (intro hx; first | clear_value x | skip))) | clear_value x | skip)
    | (with_reducible refine putf_keepsAt (by assumption) ?_)
    | (with_reducible refine putf_keeps (by assumption) ?_)
    | (with_reducible apply laLoopRun_keeps (hA := by first | with_reducible assumption | with_reducible apply_assumption))
    | (with_reducible apply laLoops_keeps (hA := by first | with_reducible assumption | with_reducible apply_assumption))
    | (with_reducible apply slewShow_keeps (hA := by first | with_reducible assumption | with_reducible apply_assumption))
    | with_reducible apply keeps_ite
    | split
    | refine keeps_ite ?_ ?_)

def touchExecSetRate (A : Part → Prop) : Prop := touchLaLoopRun A ∧ touchLaLoops A ∧ A (.reg R.LE_L_RATE.RATE)
theorem touchExecSetRate_all (h : ∀ q, A q) : touchExecSetRate A := ⟨touchLaLoopRun_all h, touchLaLoops_all h, h _⟩
theorem execSetRate_next  (hA : touchExecSetRate A) : ∃ u, execSetRate s = .next u ∧ Keeps A s u := by
  unfold execSetRate
  have h := Keeps.refl A s
  refine ⟨_, rfl, ?_⟩
  obtain ⟨_, _, _⟩ := hA
  repeat' (first
    | with_reducible assumption
    | intro y
    | (extract_lets +onlyGivenNames x; first | (refine cut (P := Keeps A s x) ?_ ?_; (on_goal 1 => (unfold x; clear x)); (on_goal 2 => (intro hx; first | clear_value x | skip))) | clear_value x | skip)
    | (with_reducible refine putf_keepsAt (by assumption) ?_)
    | (with_reducible refine putf_keeps (by assumption) ?_)
    | (with_reducible apply laLoopRun_keeps (hA := by first | with_reducible assumption | with_reducible apply_assumption))
    | (with_reducible apply laLoops_keeps (hA := by first | with_reducible assumption | with_reducible apply_assumption))
    | with_reducible apply keeps_ite
    | split
    | refine keeps_ite ?_ ?_)

def touchExecSetParameter (A : Part → Prop) : Prop := touchLaLoopRun A ∧ A (.reg R.LE_PARAM.VALUE) ∧ touchLaLoopRefuse A
theorem touchExecSetParameter_all (h : ∀ q, A q) : touchExecSetParameter A := ⟨touchLaLoopRun_all h, h _, touchLaLoopRefuse_all h⟩
theorem execSetParameter_next  (hA : touchExecSetParameter A) : ∃ u, execSetParameter s = .next u ∧ Keeps A s u := by
  unfold execSetParameter
  have h := Keeps.refl A s
  refine ⟨_, rfl, ?_⟩
  obtain ⟨_, _, _⟩ := hA
  repeat' (first
    | with_reducible assumption
    | intro y
    | (extract_lets +onlyGivenNames x; first | (refine cut (P := Keeps A s x) ?_ ?_; (on_goal 1 => (unfold x; clear x)); (on_goal 2 => (intro hx; first | clear_value x | skip))) | clear_value x | skip)
    | (with_reducible refine putf_keepsAt (by assumption) ?_)
    | (with_reducible refine putf_keeps (by assumption) ?_)
    | (with_reducible apply laLoopRun_keeps (hA := by first | with_reducible assumption | with_reducible apply_assumption))
    | (with_reducible apply laLoopRefuse_keeps (hA := by first | with_reducible assumption | with_reducible apply_assumption))
    | with_reducible apply keeps_ite
    | split
    | refine keeps_ite ?_ ?_)

def touchExecSetMode (A : Part → Prop) : Prop := touchLaLoopRun A ∧ touchLaLoops A ∧ (∀ x0, touchLoopMode A x0)
theorem touchExecSetMode_all (h : ∀ q, A q) : touchExecSetMode A := ⟨touchLaLoopRun_all h, touchLaLoops_all h, (fun _ => touchLoopMode_all h)⟩
theorem execSetMode_next  (hA : touchExecSetMode A) : ∃ u, execSetMode s = .next u ∧ Keeps A s u := by
  unfold execSetMode
  have h := Keeps.refl A s
  refine ⟨_, rfl, ?_⟩
  obtain ⟨_, _, _⟩ := hA
  repeat' (first
    | with_reducible assumption
    | intro y
    | (extract_lets +onlyGivenNames x; first | (refine cut (P := Keeps A s x) ?_ ?_; (on_goal 1 => (unfold x; clear x)); (on_goal 2 => (intro hx; first | clear_value x | skip))) | clear_value x | skip)
    | (with_reducible apply laLoopRun_keeps (hA := by first | with_reducible assumption | with_reducible apply_assumption))
    | (with_reducible apply laLoops_keeps (hA := by first | with_reducible assumption | with_reducible apply_assumption))
    | (with_reducible apply loopMode_keeps (hA := by first | with_reducible assumption | with_reducible apply_assumption))
    | with_reducible apply keeps_ite
    | split
    | refine keeps_ite ?_ ?_)

def touchInjStart (A : Part → Prop) (j : Nat) : Prop := A .le ∧ A (.inst R.LE_INJ_CTRL.STATE j 0) ∧ A (.inst R.LE_INJ_CTRL.EN j 0) ∧ touchSetInjx A ∧ touchLog A ∧ A (.inst R.LE_INJ_CTRL.END j 0)
theorem touchInjStart_all (h : ∀ q, A q) {j : Nat} : touchInjStart A j := ⟨h _, h _, h _, touchSetInjx_all h, touchLog_all h, h _⟩
theorem injStart_keeps {j : ℕ} (hA : touchInjStart A j)  (h : Keeps A s t) : Keeps A s (State.injStart t j) := by
  unfold State.injStart
  obtain ⟨_, _, _, _, _, _⟩ := hA
  repeat' (first
    | with_reducible assumption
    | intro y
    | (extract_lets +onlyGivenNames x; first | (refine cut (P := Keeps A s x) ?_ ?_; (on_goal 1 => (unfold x; clear x)); (on_goal 2 => (intro hx; first | clear_value x | skip))) | clear_value x | skip)
    | (with_reducible refine put_keepsAt (by assumption) ?_)
    | (with_reducible refine put_keeps (by assumption) ?_)
    | (with_reducible apply setInjx_keeps (hA := by first | with_reducible assumption | with_reducible apply_assumption))
    | (with_reducible apply log_keeps (hA := by first | with_reducible assumption | with_reducible apply_assumption))
    | with_reducible apply keeps_ite
    | split
    | refine keeps_ite ?_ ?_
    | with_reducible exact keeps_le (by assumption) (by assumption))

def touchInjEnable (A : Part → Prop) (j : Nat) : Prop := A (.inst R.LE_INJ_CTRL.STATE j 0) ∧ A (.inst R.LE_INJ_CTRL.EN j 0) ∧ touchInjStart A j
theorem touchInjEnable_all (h : ∀ q, A q) {j : Nat} : touchInjEnable A j := ⟨h _, h _, touchInjStart_all h⟩
theorem injEnable_keeps {j : ℕ} (hA : touchInjEnable A j)  (h : Keeps A s t) : Keeps A s (State.injEnable t j) := by
  unfold State.injEnable
  obtain ⟨_, _, _⟩ := hA
  repeat' (first
    | with_reducible assumption
    | intro y
    | (with_reducible refine put_keepsAt (by assumption) ?_)
    | (with_reducible refine put_keeps (by assumption) ?_)
    | (with_reducible apply injStart_keeps (hA := by first | with_reducible assumption | with_reducible apply_assumption))
    | with_reducible apply keeps_ite
    | split)

def touchExecStartInjector (A : Part → Prop) : Prop := touchLaLoopRun A ∧ touchLaLoops A ∧ (∀ x0, touchInjStart A x0)
theorem touchExecStartInjector_all (h : ∀ q, A q) : touchExecStartInjector A := ⟨touchLaLoopRun_all h, touchLaLoops_all h, (fun _ => touchInjStart_all h)⟩
theorem execStartInjector_next  (hA : touchExecStartInjector A) : ∃ u, execStartInjector s = .next u ∧ Keeps A s u := by
  unfold execStartInjector
  have h := Keeps.refl A s
  refine ⟨_, rfl, ?_⟩
  obtain ⟨_, _, _⟩ := hA
  repeat' (first
    | with_reducible assumption
    | intro y
    | (extract_lets +onlyGivenNames x; first | (refine cut (P := Keeps A s x) ?_ ?_; (on_goal 1 => (unfold x; clear x)); (on_goal 2 => (intro hx; first | clear_value x | skip))) | clear_value x | skip)
    | (with_reducible apply laLoopRun_keeps (hA := by first | with_reducible assumption | with_reducible apply_assumption))
    | (with_reducible apply laLoops_keeps (hA := by first | with_reducible assumption | with_reducible apply_assumption))
    | (with_reducible apply injStart_keeps (hA := by first | with_reducible assumption | with_reducible apply_assumption))
    | with_reducible apply keeps_ite
    | split
    | refine keeps_ite ?_ ?_)

def touchExecInjectorEnable (A : Part → Prop) (j : Nat) : Prop := touchGuarded A ∧ touchInjEnable A j
theorem touchExecInjectorEnable_all (h : ∀ q, A q) {j : Nat} : touchExecInjectorEnable A j := ⟨touchGuarded_all h, touchInjEnable_all h⟩
theorem execInjectorEnable_next {sess : ℕ} {j : ℕ} (hA : touchExecInjectorEnable A j) : ∃ u, execInjectorEnable sess j s = .next u ∧ Keeps A s u := by
  unfold execInjectorEnable
  have h := Keeps.refl A s
  refine ⟨_, rfl, ?_⟩
  obtain ⟨_, _⟩ := hA
  repeat' (first
    | with_reducible assumption
    | intro y
    | (with_reducible apply guarded_keeps (hA := by first | with_reducible assumption | with_reducible apply_assumption))
    | (with_reducible apply injEnable_keeps (hA := by first | with_reducible assumption | with_reducible apply_assumption))
    | with_reducible apply keeps_ite
    | split)

def touchExecInjectorStampStart (A : Part → Prop) (j : Nat) : Prop := touchInjStart A j
theorem touchExecInjectorStampStart_all (h : ∀ q, A q) {j : Nat} : touchExecInjectorStampStart A j := touchInjStart_all h
theorem execInjectorStampStart_next {j : ℕ} (hA : touchExecInjectorStampStart A j) : ∃ u, execInjectorStampStart j s = .next u ∧ Keeps A s u := by
  unfold execInjectorStampStart
  have h := Keeps.refl A s
  refine ⟨_, rfl, ?_⟩
  unfold touchExecInjectorStampStart at hA
  repeat' (first
    | with_reducible assumption
    | intro y
    | (with_reducible apply injStart_keeps (hA := by first | with_reducible assumption | with_reducible apply_assumption))
    | with_reducible apply keeps_ite
    | split)

def touchExecInjectorEnd (A : Part → Prop) (j : Nat) : Prop := touchInjEnd A j
theorem touchExecInjectorEnd_all (h : ∀ q, A q) {j : Nat} : touchExecInjectorEnd A j := touchInjEnd_all h
theorem execInjectorEnd_next {j : ℕ} (hA : touchExecInjectorEnd A j) : ∃ u, execInjectorEnd j s = .next u ∧ Keeps A s u := by
  unfold execInjectorEnd
  have h := Keeps.refl A s
  refine ⟨_, rfl, ?_⟩
  unfold touchExecInjectorEnd at hA
  repeat' (first
    | with_reducible assumption
    | intro y
    | (extract_lets +onlyGivenNames x; first | (refine cut (P := Keeps A s x) ?_ ?_; (on_goal 1 => (unfold x; clear x)); (on_goal 2 => (intro hx; first | clear_value x | skip))) | clear_value x | skip)
    | (with_reducible apply injEnd_keeps (hA := by first | with_reducible assumption | with_reducible apply_assumption))
    | with_reducible apply keeps_ite
    | split
    | refine keeps_ite ?_ ?_)

def touchExecInjectorDisable (A : Part → Prop) (j : Nat) : Prop := touchGuarded A ∧ A (.inst R.LE_INJ_CTRL.EN j 0) ∧ touchInjEnd A j
theorem touchExecInjectorDisable_all (h : ∀ q, A q) {j : Nat} : touchExecInjectorDisable A j := ⟨touchGuarded_all h, h _, touchInjEnd_all h⟩
theorem execInjectorDisable_next {sess : ℕ} {j : ℕ} (hA : touchExecInjectorDisable A j) : ∃ u, execInjectorDisable sess j s = .next u ∧ Keeps A s u := by
  unfold execInjectorDisable
  have h := Keeps.refl A s
  refine ⟨_, rfl, ?_⟩
  obtain ⟨_, _, _⟩ := hA
  repeat' (first
    | with_reducible assumption
    | intro y
    | (with_reducible apply guarded_keeps (hA := by first | with_reducible assumption | with_reducible apply_assumption))
    | (with_reducible refine put_keepsAt (by assumption) ?_)
    | (with_reducible refine put_keeps (by assumption) ?_)
    | (with_reducible apply injEnd_keeps (hA := by first | with_reducible assumption | with_reducible apply_assumption))
    | with_reducible apply keeps_ite
    | split)

def touchCapArm (A : Part → Prop) : Prop := A .le ∧ A (.reg R.LE_CAP_CTRL.STATE)
theorem touchCapArm_all (h : ∀ q, A q) : touchCapArm A := ⟨h _, h _⟩
theorem capArm_keeps  (hA : touchCapArm A)  (h : Keeps A s t) : Keeps A s (State.capArm t) := by
  unfold State.capArm
  obtain ⟨_, _⟩ := hA
  repeat' (first
    | with_reducible assumption
    | intro y
    | (extract_lets +onlyGivenNames x; first | (refine cut (P := Keeps A s x) ?_ ?_; (on_goal 1 => (unfold x; clear x)); (on_goal 2 => (intro hx; first | clear_value x | skip))) | clear_value x | skip)
    | (with_reducible refine put_keepsAt (by assumption) ?_)
    | (with_reducible refine put_keeps (by assumption) ?_)
    | with_reducible apply keeps_ite
    | split
    | with_reducible exact keeps_le (by assumption) (by assumption))

def touchExecCaptureArm (A : Part → Prop) : Prop := touchGuarded A ∧ touchCapArm A
theorem touchExecCaptureArm_all (h : ∀ q, A q) : touchExecCaptureArm A := ⟨touchGuarded_all h, touchCapArm_all h⟩
theorem execCaptureArm_next {sess : ℕ} (hA : touchExecCaptureArm A) : ∃ u, execCaptureArm sess s = .next u ∧ Keeps A s u := by
  unfold execCaptureArm
  have h := Keeps.refl A s
  refine ⟨_, rfl, ?_⟩
  obtain ⟨_, _⟩ := hA
  repeat' (first
    | with_reducible assumption
    | intro y
    | (with_reducible apply guarded_keeps (hA := by first | with_reducible assumption | with_reducible apply_assumption))
    | (with_reducible apply capArm_keeps (hA := by first | with_reducible assumption | with_reducible apply_assumption))
    | with_reducible apply keeps_ite
    | split)

def touchExecCaptureTrigger (A : Part → Prop) : Prop := A .le ∧ A (.reg R.LE_CAP_CTRL.STATE)
theorem touchExecCaptureTrigger_all (h : ∀ q, A q) : touchExecCaptureTrigger A := ⟨h _, h _⟩
theorem execCaptureTrigger_next  (hA : touchExecCaptureTrigger A) : ∃ u, execCaptureTrigger s = .next u ∧ Keeps A s u := by
  unfold execCaptureTrigger
  have h := Keeps.refl A s
  refine ⟨_, rfl, ?_⟩
  obtain ⟨_, _⟩ := hA
  repeat' (first
    | with_reducible assumption
    | intro y
    | (extract_lets +onlyGivenNames x; first | (refine cut (P := Keeps A s x) ?_ ?_; (on_goal 1 => (unfold x; clear x)); (on_goal 2 => (intro hx; first | clear_value x | skip))) | clear_value x | skip)
    | (with_reducible refine put_keepsAt (by assumption) ?_)
    | (with_reducible refine put_keeps (by assumption) ?_)
    | with_reducible apply keeps_ite
    | split
    | with_reducible exact keeps_le (by assumption) (by assumption))

def touchExecCaptureDone (A : Part → Prop) : Prop := touchLog A ∧ A (.reg R.LE_CAP_CTRL.STATE) ∧ A (.reg R.LE_CAP_STAMP_LO.STAMP) ∧ A (.reg R.LE_CAP_STAMP_HI.STAMP)
theorem touchExecCaptureDone_all (h : ∀ q, A q) : touchExecCaptureDone A := ⟨touchLog_all h, h _, h _, h _⟩
theorem execCaptureDone_next  (hA : touchExecCaptureDone A) : ∃ u, execCaptureDone s = .next u ∧ Keeps A s u := by
  unfold execCaptureDone
  have h := Keeps.refl A s
  refine ⟨_, rfl, ?_⟩
  obtain ⟨_, _, _, _⟩ := hA
  repeat' (first
    | with_reducible assumption
    | intro y
    | (extract_lets +onlyGivenNames x; first | (refine cut (P := Keeps A s x) ?_ ?_; (on_goal 1 => (unfold x; clear x)); (on_goal 2 => (intro hx; first | clear_value x | skip))) | clear_value x | skip)
    | (with_reducible apply log_keeps (hA := by first | with_reducible assumption | with_reducible apply_assumption))
    | (with_reducible refine put_keepsAt (by assumption) ?_)
    | (with_reducible refine put_keeps (by assumption) ?_)
    | (with_reducible refine put2_keepsAt (by assumption) (by assumption) ?_)
    | (with_reducible refine put2_keeps (by assumption) (by assumption) ?_)
    | with_reducible apply keeps_ite
    | split
    | refine keeps_ite ?_ ?_)

end Sys2Proof.Laws
end

