-- ==== Sys2Proof/Laws/KeepsMetrology.lean ====
section
/-! SUPPORT. What the operations of Machine/Metrology.lean leave alone: for each the parts it may change (`touch…`) and its lemma. -/

namespace Sys2Proof.Laws

open Sys2Proof.Machine

set_option linter.unusedTactic false
set_option linter.unreachableTactic false
set_option linter.unusedVariables false
set_option linter.tactic.unusedName false

variable {A : Part → Prop} {s t : State}

def touchWraps (A : Part → Prop) (p : Nat) : Prop := touchPtLog A ∧ A (.inst R.MET_PT_STAT.WRAP_SEEN p 0) ∧ touchLog A
theorem touchWraps_all (h : ∀ q, A q) {p : Nat} : touchWraps A p := ⟨touchPtLog_all h, h _, touchLog_all h⟩
theorem wraps_keeps {p : ℕ} {dir : ℕ} {old : ℕ} {new : ℕ} (hA : touchWraps A p)  (h : Keeps A s t) : Keeps A s (State.wraps t p dir old new) := by
  unfold State.wraps
  obtain ⟨_, _, _⟩ := hA
  repeat' (first
    | with_reducible assumption
    | intro y
    | (extract_lets +onlyGivenNames x; first | (refine cut (P := Keeps A s x) ?_ ?_; (on_goal 1 => (unfold x; clear x)); (on_goal 2 => (intro hx; first | clear_value x | skip))) | clear_value x | skip)
    | (with_reducible apply ptLog_keeps (hA := by first | with_reducible assumption | with_reducible apply_assumption))
    | (with_reducible refine put_keepsAt (by assumption) ?_)
    | (with_reducible refine put_keeps (by assumption) ?_)
    | (with_reducible apply log_keeps (hA := by first | with_reducible assumption | with_reducible apply_assumption))
    | with_reducible apply keeps_ite
    | split
    | refine keeps_ite ?_ ?_)

def touchBadSample (A : Part → Prop) (p : Nat) : Prop := touchPtInvalid A p ∧ touchSetPt A ∧ touchBillSample A p ∧ A (.inst R.MET_PT_GAP.GAP p 0) ∧ A (.inst R.MET_PT_STAT.GAP_SEEN p 0)
theorem touchBadSample_all (h : ∀ q, A q) {p : Nat} : touchBadSample A p := ⟨touchPtInvalid_all h, touchSetPt_all h, touchBillSample_all h, h _, h _⟩
theorem badSample_keeps {p : ℕ} {stamp : ℕ} (hA : touchBadSample A p)  (h : Keeps A s t) : Keeps A s (State.badSample t p stamp) := by
  unfold State.badSample
  obtain ⟨_, _, _, _, _⟩ := hA
  repeat' (first
    | with_reducible assumption
    | intro y
    | (extract_lets +onlyGivenNames x; first | (refine cut (P := Keeps A s x) ?_ ?_; (on_goal 1 => (unfold x; clear x)); (on_goal 2 => (intro hx; first | clear_value x | skip))) | clear_value x | skip)
    | (with_reducible refine put_keepsAt (by assumption) ?_)
    | (with_reducible refine put_keeps (by assumption) ?_)
    | (with_reducible refine putMax_keepsAt (by assumption) ?_)
    | (with_reducible refine putMax_keeps (by assumption) ?_)
    | (with_reducible apply ptInvalid_keeps (hA := by first | with_reducible assumption | with_reducible apply_assumption))
    | (with_reducible apply setPt_keeps (hA := by first | with_reducible assumption | with_reducible apply_assumption))
    | (with_reducible apply billSample_keeps (hA := by first | with_reducible assumption | with_reducible apply_assumption))
    | with_reducible apply keeps_ite
    | split
    | refine keeps_ite ?_ ?_)

def touchPulCount (A : Part → Prop) : Prop := touchSetPul A
theorem touchPulCount_all (h : ∀ q, A q) : touchPulCount A := touchSetPul_all h
theorem pulCount_keeps {p : ℕ} {old : Sys2Proof.Machine.PtAcc} {new : Sys2Proof.Machine.PtAcc} (hA : touchPulCount A)  (h : Keeps A s t) : Keeps A s (State.pulCount t p old new) := by
  unfold State.pulCount
  unfold touchPulCount at hA
  repeat' (first
    | with_reducible assumption
    | intro y
    | (extract_lets +onlyGivenNames x; first | (refine cut (P := Keeps A s x) ?_ ?_; (on_goal 1 => (unfold x; clear x)); (on_goal 2 => (intro hx; first | clear_value x | skip))) | clear_value x | skip)
    | with_reducible apply each_keeps
    | (with_reducible apply setPul_keeps (hA := by first | with_reducible assumption | with_reducible apply_assumption))
    | with_reducible apply keeps_ite
    | split
    | refine keeps_ite ?_ ?_)

def touchPeaks (A : Part → Prop) (p : Nat) : Prop := A (.inst R.MET_PT_PEAK_V.PEAK_V p 0) ∧ A (.inst R.MET_PT_PEAK_I.PEAK_I p 0) ∧ A (.inst R.MET_PT_PEAK_P.PEAK_P p 0)
theorem touchPeaks_all (h : ∀ q, A q) {p : Nat} : touchPeaks A p := ⟨h _, h _, h _⟩
theorem peaks_keeps {p : ℕ} {v : ℕ} {i : ℕ} {w : ℕ} (hA : touchPeaks A p)  (h : Keeps A s t) : Keeps A s (State.peaks t p v i w) := by
  unfold State.peaks
  obtain ⟨_, _, _⟩ := hA
  repeat' (first
    | with_reducible assumption
    | intro y
    | with_reducible apply when_keeps
    | (with_reducible refine putMax_keepsAt (by assumption) ?_)
    | (with_reducible refine putMax_keeps (by assumption) ?_)
    | with_reducible apply keeps_ite
    | split)

def touchGoodSample (A : Part → Prop) (p : Nat) : Prop := touchPtLog A ∧ touchMetShow A ∧ A (.inst R.MET_PT_STAT.VALID p 0) ∧ touchSetPt A ∧ A (.inst R.MET_PT_STAT.DIR p 0) ∧ A (.inst R.MET_PT_STAT.REV_SEEN p 0) ∧ touchWraps A p ∧ touchPulCount A ∧ touchPeaks A p ∧ touchLog A ∧ A (.inst R.MET_PT_STAT.SNAP_HELD p 0) ∧ A (.reg R.MET_SNAP.TAKEN) ∧ touchBillSample A p ∧ touchShowPt A p
theorem touchGoodSample_all (h : ∀ q, A q) {p : Nat} : touchGoodSample A p := ⟨touchPtLog_all h, touchMetShow_all h, h _, touchSetPt_all h, h _, h _, touchWraps_all h, touchPulCount_all h, touchPeaks_all h, touchLog_all h, h _, h _, touchBillSample_all h, touchShowPt_all h⟩
theorem goodSample_keeps {p : ℕ} {stamp : ℕ} {v : ℤ} {i : ℤ} (hA : touchGoodSample A p)  (h : Keeps A s t) : Keeps A s (State.goodSample t p stamp v i) := by
  unfold State.goodSample
  obtain ⟨_, _, _, _, _, _, _, _, _, _, _, _, _, _⟩ := hA
  repeat' (first
    | with_reducible assumption
    | intro y
    | (extract_lets +onlyGivenNames x; first | (refine cut (P := Keeps A s x) ?_ ?_; (on_goal 1 => (unfold x; clear x)); (on_goal 2 => (intro hx; first | clear_value x | skip))) | clear_value x | skip)
    | (with_reducible refine put_keepsAt (by assumption) ?_)
    | (with_reducible refine put_keeps (by assumption) ?_)
    | (with_reducible apply ptLog_keeps (hA := by first | with_reducible assumption | with_reducible apply_assumption))
    | (with_reducible apply metShow_keeps (hA := by first | with_reducible assumption | with_reducible apply_assumption))
    | (with_reducible apply setPt_keeps (hA := by first | with_reducible assumption | with_reducible apply_assumption))
    | (with_reducible apply wraps_keeps (hA := by first | with_reducible assumption | with_reducible apply_assumption))
    | (with_reducible apply pulCount_keeps (hA := by first | with_reducible assumption | with_reducible apply_assumption))
    | (with_reducible apply peaks_keeps (hA := by first | with_reducible assumption | with_reducible apply_assumption))
    | (with_reducible apply log_keeps (hA := by first | with_reducible assumption | with_reducible apply_assumption))
    | (with_reducible apply billSample_keeps (hA := by first | with_reducible assumption | with_reducible apply_assumption))
    | (with_reducible apply showPt_keeps (hA := by first | with_reducible assumption | with_reducible apply_assumption))
    | with_reducible apply when_keeps
    | with_reducible apply keeps_ite
    | split
    | refine keeps_ite ?_ ?_)

def touchLines (A : Part → Prop) : Prop := touchSetPt A
theorem touchLines_all (h : ∀ q, A q) : touchLines A := touchSetPt_all h
theorem lines_keeps {p : ℕ} {bv : BitVec 128} {bi : BitVec 128} (hA : touchLines A)  (h : Keeps A s t) : Keeps A s (State.lines t p bv bi) := by
  unfold State.lines
  unfold touchLines at hA
  repeat' (first
    | with_reducible assumption
    | intro y
    | (extract_lets +onlyGivenNames x; first | (refine cut (P := Keeps A s x) ?_ ?_; (on_goal 1 => (unfold x; clear x)); (on_goal 2 => (intro hx; first | clear_value x | skip))) | clear_value x | skip)
    | (with_reducible apply setPt_keeps (hA := by first | with_reducible assumption | with_reducible apply_assumption))
    | with_reducible apply keeps_ite
    | split
    | refine keeps_ite ?_ ?_)

def touchChShow (A : Part → Prop) (c : Nat) : Prop := A (.inst R.MET_CH_RAW.RAW c 0) ∧ A (.inst R.MET_CH_VAL.VAL c 0)
theorem touchChShow_all (h : ∀ q, A q) {c : Nat} : touchChShow A c := ⟨h _, h _⟩
theorem chShow_keeps {c : ℕ} {x : ℤ} (hA : touchChShow A c)  (h : Keeps A s t) : Keeps A s (State.chShow t c x) := by
  unfold State.chShow
  obtain ⟨_, _⟩ := hA
  repeat' (first
    | with_reducible assumption
    | intro y
    | (extract_lets +onlyGivenNames x; first | (refine cut (P := Keeps A s x) ?_ ?_; (on_goal 1 => (unfold x; clear x)); (on_goal 2 => (intro hx; first | clear_value x | skip))) | clear_value x | skip)
    | (with_reducible refine puti_keepsAt (by assumption) ?_)
    | (with_reducible refine puti_keeps (by assumption) ?_)
    | (with_reducible refine putf_keepsAt (by assumption) ?_)
    | (with_reducible refine putf_keeps (by assumption) ?_)
    | with_reducible apply keeps_ite
    | split
    | refine keeps_ite ?_ ?_)

def touchExecMetrologySample (A : Part → Prop) (p : Nat) : Prop := touchLines A ∧ (∀ x0, touchChShow A x0) ∧ touchBillSettle A p ∧ touchGoodSample A p ∧ touchBadSample A p
theorem touchExecMetrologySample_all (h : ∀ q, A q) {p : Nat} : touchExecMetrologySample A p := ⟨touchLines_all h, (fun _ => touchChShow_all h), touchBillSettle_all h, touchGoodSample_all h, touchBadSample_all h⟩
theorem execMetrologySample_next {p : ℕ} {xv : BitVec 128} {xi : BitVec 128} (hA : touchExecMetrologySample A p) : ∃ u, execMetrologySample p xv xi s = .next u ∧ Keeps A s u := by
  unfold execMetrologySample
  have h := Keeps.refl A s
  refine ⟨_, rfl, ?_⟩
  obtain ⟨_, _, _, _, _⟩ := hA
  repeat' (first
    | with_reducible assumption
    | intro y
    | (extract_lets +onlyGivenNames x; first | (refine cut (P := Keeps A s x) ?_ ?_; (on_goal 1 => (unfold x; clear x)); (on_goal 2 => (intro hx; first | clear_value x | skip))) | clear_value x | skip)
    | (with_reducible apply lines_keeps (hA := by first | with_reducible assumption | with_reducible apply_assumption))
    | (with_reducible apply chShow_keeps (hA := by first | with_reducible assumption | with_reducible apply_assumption))
    | (with_reducible apply billSettle_keeps (hA := by first | with_reducible assumption | with_reducible apply_assumption))
    | (with_reducible apply goodSample_keeps (hA := by first | with_reducible assumption | with_reducible apply_assumption))
    | (with_reducible apply badSample_keeps (hA := by first | with_reducible assumption | with_reducible apply_assumption))
    | with_reducible apply keeps_ite
    | split
    | refine keeps_ite ?_ ?_)

def touchExecChannelStuck (A : Part → Prop) (c : Nat) : Prop := A (.inst R.MET_CH_VAL.VAL c 0) ∧ A (.reg R.MET_CH_FLT_SEEN.STUCK_SEEN) ∧ A (.reg R.MET_CH_FLT.STUCK) ∧ touchChPoints A
theorem touchExecChannelStuck_all (h : ∀ q, A q) {c : Nat} : touchExecChannelStuck A c := ⟨h _, h _, h _, touchChPoints_all h⟩
theorem execChannelStuck_next {c : ℕ} {run : ℕ} (hA : touchExecChannelStuck A c) : ∃ u, execChannelStuck c run s = .next u ∧ Keeps A s u := by
  unfold execChannelStuck
  have h := Keeps.refl A s
  refine ⟨_, rfl, ?_⟩
  obtain ⟨_, _, _, _⟩ := hA
  repeat' (first
    | with_reducible assumption
    | intro y
    | (extract_lets +onlyGivenNames x; first | (refine cut (P := Keeps A s x) ?_ ?_; (on_goal 1 => (unfold x; clear x)); (on_goal 2 => (intro hx; first | clear_value x | skip))) | clear_value x | skip)
    | (with_reducible refine putf_keepsAt (by assumption) ?_)
    | (with_reducible refine putf_keeps (by assumption) ?_)
    | (with_reducible refine put_keepsAt (by assumption) ?_)
    | (with_reducible refine put_keeps (by assumption) ?_)
    | (with_reducible apply chPoints_keeps (hA := by first | with_reducible assumption | with_reducible apply_assumption))
    | with_reducible apply keeps_ite
    | split
    | refine keeps_ite ?_ ?_)

def touchExecChannelOverRange (A : Part → Prop) (c : Nat) : Prop := A (.inst R.MET_CH_VAL.VAL c 0) ∧ A (.reg R.MET_CH_FLT_SEEN.OVR_SEEN) ∧ A (.reg R.MET_CH_FLT.OVR) ∧ touchChPoints A
theorem touchExecChannelOverRange_all (h : ∀ q, A q) {c : Nat} : touchExecChannelOverRange A c := ⟨h _, h _, h _, touchChPoints_all h⟩
theorem execChannelOverRange_next {c : ℕ} {n : ℕ} (hA : touchExecChannelOverRange A c) : ∃ u, execChannelOverRange c n s = .next u ∧ Keeps A s u := by
  unfold execChannelOverRange
  have h := Keeps.refl A s
  refine ⟨_, rfl, ?_⟩
  obtain ⟨_, _, _, _⟩ := hA
  repeat' (first
    | with_reducible assumption
    | intro y
    | (extract_lets +onlyGivenNames x; first | (refine cut (P := Keeps A s x) ?_ ?_; (on_goal 1 => (unfold x; clear x)); (on_goal 2 => (intro hx; first | clear_value x | skip))) | clear_value x | skip)
    | (with_reducible refine putf_keepsAt (by assumption) ?_)
    | (with_reducible refine putf_keeps (by assumption) ?_)
    | (with_reducible refine put_keepsAt (by assumption) ?_)
    | (with_reducible refine put_keeps (by assumption) ?_)
    | (with_reducible apply chPoints_keeps (hA := by first | with_reducible assumption | with_reducible apply_assumption))
    | with_reducible apply keeps_ite
    | split
    | refine keeps_ite ?_ ?_)

def touchExecChannelFaultClear (A : Part → Prop) : Prop := A (.reg R.MET_CH_FLT.STUCK) ∧ A (.reg R.MET_CH_FLT.OVR)
theorem touchExecChannelFaultClear_all (h : ∀ q, A q) : touchExecChannelFaultClear A := ⟨h _, h _⟩
theorem execChannelFaultClear_next {c : ℕ} {kind : ℕ} {n : ℕ} (hA : touchExecChannelFaultClear A) : ∃ u, execChannelFaultClear c kind n s = .next u ∧ Keeps A s u := by
  unfold execChannelFaultClear
  have h := Keeps.refl A s
  refine ⟨_, rfl, ?_⟩
  obtain ⟨_, _⟩ := hA
  repeat' (first
    | with_reducible assumption
    | intro y
    | (with_reducible refine put_keepsAt (by assumption) ?_)
    | (with_reducible refine put_keeps (by assumption) ?_)
    | with_reducible apply keeps_ite
    | split)

def touchExecPointBlockPublish (A : Part → Prop) (p : Nat) : Prop := A (.inst R.MET_PT_PLOSS.PLOSS p 0) ∧ A (.inst R.MET_PT_P.P p 0) ∧ A (.inst R.MET_PT_I.I p 0) ∧ A (.inst R.MET_PT_V.V p 0) ∧ touchSetPt A
theorem touchExecPointBlockPublish_all (h : ∀ q, A q) {p : Nat} : touchExecPointBlockPublish A p := ⟨h _, h _, h _, h _, touchSetPt_all h⟩
theorem execPointBlockPublish_next {p : ℕ} (hA : touchExecPointBlockPublish A p) : ∃ u, execPointBlockPublish p s = .next u ∧ Keeps A s u := by
  unfold execPointBlockPublish
  have h := Keeps.refl A s
  refine ⟨_, rfl, ?_⟩
  obtain ⟨_, _, _, _, _⟩ := hA
  repeat' (first
    | with_reducible assumption
    | intro y
    | (extract_lets +onlyGivenNames x; first | (refine cut (P := Keeps A s x) ?_ ?_; (on_goal 1 => (unfold x; clear x)); (on_goal 2 => (intro hx; first | clear_value x | skip))) | clear_value x | skip)
    | (with_reducible refine puti_keepsAt (by assumption) ?_)
    | (with_reducible refine puti_keeps (by assumption) ?_)
    | (with_reducible apply setPt_keeps (hA := by first | with_reducible assumption | with_reducible apply_assumption))
    | with_reducible apply keeps_ite
    | split
    | refine keeps_ite ?_ ?_)

def touchExecPackCurrentRequest (A : Part → Prop) : Prop := A .cs ∧ touchEmit A ∧ touchLog A
theorem touchExecPackCurrentRequest_all (h : ∀ q, A q) : touchExecPackCurrentRequest A := ⟨h _, touchEmit_all h, touchLog_all h⟩
theorem execPackCurrentRequest_next {lateUs : ℕ} (hA : touchExecPackCurrentRequest A) : ∃ u, execPackCurrentRequest lateUs s = .next u ∧ Keeps A s u := by
  unfold execPackCurrentRequest
  have h := Keeps.refl A s
  refine ⟨_, rfl, ?_⟩
  obtain ⟨_, _, _⟩ := hA
  repeat' (first
    | with_reducible assumption
    | intro y
    | (extract_lets +onlyGivenNames x; first | (refine cut (P := Keeps A s x) ?_ ?_; (on_goal 1 => (unfold x; clear x)); (on_goal 2 => (intro hx; first | clear_value x | skip))) | clear_value x | skip)
    | (with_reducible apply emit_keeps (hA := by first | with_reducible assumption | with_reducible apply_assumption))
    | (with_reducible apply log_keeps (hA := by first | with_reducible assumption | with_reducible apply_assumption))
    | with_reducible apply keeps_ite
    | split
    | refine keeps_ite ?_ ?_
    | with_reducible exact keeps_cs (by assumption) (by assumption))

def touchExecCableTemperatureUpdate (A : Part → Prop) (p : Nat) : Prop := touchSetT A p
theorem touchExecCableTemperatureUpdate_all (h : ∀ q, A q) {p : Nat} : touchExecCableTemperatureUpdate A p := touchSetT_all h
theorem execCableTemperatureUpdate_next {p : ℕ} (hA : touchExecCableTemperatureUpdate A p) : ∃ u, execCableTemperatureUpdate p s = .next u ∧ Keeps A s u := by
  unfold execCableTemperatureUpdate
  have h := Keeps.refl A s
  refine ⟨_, rfl, ?_⟩
  unfold touchExecCableTemperatureUpdate at hA
  repeat' (first
    | with_reducible assumption
    | intro y
    | (extract_lets +onlyGivenNames x; first | (refine cut (P := Keeps A s x) ?_ ?_; (on_goal 1 => (unfold x; clear x)); (on_goal 2 => (intro hx; first | clear_value x | skip))) | clear_value x | skip)
    | (with_reducible apply setT_keeps (hA := by first | with_reducible assumption | with_reducible apply_assumption))
    | with_reducible apply keeps_ite
    | split
    | refine keeps_ite ?_ ?_)

def touchExecCableTFallback (A : Part → Prop) (p : Nat) : Prop := touchPtLog A ∧ A (.inst R.MET_PT_STAT.TFALL_SEEN p 0) ∧ A (.inst R.MET_PT_STAT.TFALL p 0) ∧ touchSetT A p
theorem touchExecCableTFallback_all (h : ∀ q, A q) {p : Nat} : touchExecCableTFallback A p := ⟨touchPtLog_all h, h _, h _, touchSetT_all h⟩
theorem execCableTFallback_next {p : ℕ} {ms : ℕ} (hA : touchExecCableTFallback A p) : ∃ u, execCableTFallback p ms s = .next u ∧ Keeps A s u := by
  unfold execCableTFallback
  have h := Keeps.refl A s
  refine ⟨_, rfl, ?_⟩
  obtain ⟨_, _, _, _⟩ := hA
  repeat' (first
    | with_reducible assumption
    | intro y
    | (extract_lets +onlyGivenNames x; first | (refine cut (P := Keeps A s x) ?_ ?_; (on_goal 1 => (unfold x; clear x)); (on_goal 2 => (intro hx; first | clear_value x | skip))) | clear_value x | skip)
    | (with_reducible refine put_keepsAt (by assumption) ?_)
    | (with_reducible refine put_keeps (by assumption) ?_)
    | (with_reducible apply ptLog_keeps (hA := by first | with_reducible assumption | with_reducible apply_assumption))
    | (with_reducible apply setT_keeps (hA := by first | with_reducible assumption | with_reducible apply_assumption))
    | with_reducible apply keeps_ite
    | split
    | refine keeps_ite ?_ ?_)

def touchExecCableTReturn (A : Part → Prop) (p : Nat) : Prop := touchPtLog A ∧ A (.inst R.MET_PT_STAT.TFALL p 0) ∧ touchSetT A p
theorem touchExecCableTReturn_all (h : ∀ q, A q) {p : Nat} : touchExecCableTReturn A p := ⟨touchPtLog_all h, h _, touchSetT_all h⟩
theorem execCableTReturn_next {p : ℕ} {secs : ℕ} (hA : touchExecCableTReturn A p) : ∃ u, execCableTReturn p secs s = .next u ∧ Keeps A s u := by
  unfold execCableTReturn
  have h := Keeps.refl A s
  refine ⟨_, rfl, ?_⟩
  obtain ⟨_, _, _⟩ := hA
  repeat' (first
    | with_reducible assumption
    | intro y
    | (extract_lets +onlyGivenNames x; first | (refine cut (P := Keeps A s x) ?_ ?_; (on_goal 1 => (unfold x; clear x)); (on_goal 2 => (intro hx; first | clear_value x | skip))) | clear_value x | skip)
    | (with_reducible refine put_keepsAt (by assumption) ?_)
    | (with_reducible refine put_keeps (by assumption) ?_)
    | (with_reducible apply ptLog_keeps (hA := by first | with_reducible assumption | with_reducible apply_assumption))
    | (with_reducible apply setT_keeps (hA := by first | with_reducible assumption | with_reducible apply_assumption))
    | with_reducible apply keeps_ite
    | split
    | refine keeps_ite ?_ ?_)

def touchExecPointEnable (A : Part → Prop) (p : Nat) : Prop := touchGuarded A ∧ touchPtEnable A p
theorem touchExecPointEnable_all (h : ∀ q, A q) {p : Nat} : touchExecPointEnable A p := ⟨touchGuarded_all h, touchPtEnable_all h⟩
theorem execPointEnable_next {sess : ℕ} {p : ℕ} (hA : touchExecPointEnable A p) : ∃ u, execPointEnable sess p s = .next u ∧ Keeps A s u := by
  unfold execPointEnable
  have h := Keeps.refl A s
  refine ⟨_, rfl, ?_⟩
  obtain ⟨_, _⟩ := hA
  repeat' (first
    | with_reducible assumption
    | intro y
    | (with_reducible apply guarded_keeps (hA := by first | with_reducible assumption | with_reducible apply_assumption))
    | (with_reducible apply ptEnable_keeps (hA := by first | with_reducible assumption | with_reducible apply_assumption))
    | with_reducible apply keeps_ite
    | split)

def touchSnapArm (A : Part → Prop) : Prop := A (.reg R.MET_SNAP.SNAP) ∧ touchSetPt A
theorem touchSnapArm_all (h : ∀ q, A q) : touchSnapArm A := ⟨h _, touchSetPt_all h⟩
theorem snapArm_keeps {p : ℕ} {at_ : Sys2Proof.Machine.SnapArm} (hA : touchSnapArm A)  (h : Keeps A s t) : Keeps A s (State.snapArm t p at_) := by
  unfold State.snapArm
  obtain ⟨_, _⟩ := hA
  repeat' (first
    | with_reducible assumption
    | intro y
    | (extract_lets +onlyGivenNames x; first | (refine cut (P := Keeps A s x) ?_ ?_; (on_goal 1 => (unfold x; clear x)); (on_goal 2 => (intro hx; first | clear_value x | skip))) | clear_value x | skip)
    | (with_reducible refine put_keepsAt (by assumption) ?_)
    | (with_reducible refine put_keeps (by assumption) ?_)
    | (with_reducible apply setPt_keeps (hA := by first | with_reducible assumption | with_reducible apply_assumption))
    | with_reducible apply keeps_ite
    | split
    | refine keeps_ite ?_ ?_)

def touchSnapRelease (A : Part → Prop) (p : Nat) : Prop := A (.reg R.MET_SNAP.SNAP) ∧ touchSetPt A ∧ touchShowPt A p ∧ A (.inst R.MET_PT_STAT.SNAP_HELD p 0) ∧ A (.reg R.MET_SNAP.TAKEN)
theorem touchSnapRelease_all (h : ∀ q, A q) {p : Nat} : touchSnapRelease A p := ⟨h _, touchSetPt_all h, touchShowPt_all h, h _, h _⟩
theorem snapRelease_keeps {p : ℕ} (hA : touchSnapRelease A p)  (h : Keeps A s t) : Keeps A s (State.snapRelease t p) := by
  unfold State.snapRelease
  obtain ⟨_, _, _, _, _⟩ := hA
  repeat' (first
    | with_reducible assumption
    | intro y
    | (extract_lets +onlyGivenNames x; first | (refine cut (P := Keeps A s x) ?_ ?_; (on_goal 1 => (unfold x; clear x)); (on_goal 2 => (intro hx; first | clear_value x | skip))) | clear_value x | skip)
    | (with_reducible refine put_keepsAt (by assumption) ?_)
    | (with_reducible refine put_keeps (by assumption) ?_)
    | (with_reducible apply setPt_keeps (hA := by first | with_reducible assumption | with_reducible apply_assumption))
    | (with_reducible apply showPt_keeps (hA := by first | with_reducible assumption | with_reducible apply_assumption))
    | with_reducible apply keeps_ite
    | split
    | refine keeps_ite ?_ ?_)

def touchSnapTarget (A : Part → Prop) : Prop := A .met
theorem touchSnapTarget_all (h : ∀ q, A q) : touchSnapTarget A := h _
theorem snapTarget_keeps  (hA : touchSnapTarget A)  (h : Keeps A s t) : Keeps A s (State.snapTarget t) := by
  unfold State.snapTarget
  unfold touchSnapTarget at hA
  repeat' (first
    | with_reducible assumption
    | intro y
    | (extract_lets +onlyGivenNames x; first | (refine cut (P := Keeps A s x) ?_ ?_; (on_goal 1 => (unfold x; clear x)); (on_goal 2 => (intro hx; first | clear_value x | skip))) | clear_value x | skip)
    | with_reducible apply keeps_ite
    | split
    | refine keeps_ite ?_ ?_
    | with_reducible exact keeps_met (by assumption) (by assumption))

def touchExecSnapshotTake (A : Part → Prop) : Prop := touchGuarded A ∧ touchSnapArm A
theorem touchExecSnapshotTake_all (h : ∀ q, A q) : touchExecSnapshotTake A := ⟨touchGuarded_all h, touchSnapArm_all h⟩
theorem execSnapshotTake_next {sess : ℕ} {mask : ℕ} (hA : touchExecSnapshotTake A) : ∃ u, execSnapshotTake sess mask s = .next u ∧ Keeps A s u := by
  unfold execSnapshotTake
  have h := Keeps.refl A s
  refine ⟨_, rfl, ?_⟩
  obtain ⟨_, _⟩ := hA
  repeat' (first
    | with_reducible assumption
    | intro y
    | (with_reducible apply guarded_keeps (hA := by first | with_reducible assumption | with_reducible apply_assumption))
    | with_reducible apply eachBit_keeps
    | (with_reducible apply snapArm_keeps (hA := by first | with_reducible assumption | with_reducible apply_assumption))
    | with_reducible apply keeps_ite
    | split)

def touchExecSnapshotRelease (A : Part → Prop) : Prop := touchGuarded A ∧ (∀ x0, touchSnapRelease A x0)
theorem touchExecSnapshotRelease_all (h : ∀ q, A q) : touchExecSnapshotRelease A := ⟨touchGuarded_all h, fun _ => touchSnapRelease_all h⟩
theorem execSnapshotRelease_next {sess : ℕ} {mask : ℕ} (hA : touchExecSnapshotRelease A) : ∃ u, execSnapshotRelease sess mask s = .next u ∧ Keeps A s u := by
  unfold execSnapshotRelease
  have h := Keeps.refl A s
  refine ⟨_, rfl, ?_⟩
  obtain ⟨_, _⟩ := hA
  repeat' (first
    | with_reducible assumption
    | intro y
    | (with_reducible apply guarded_keeps (hA := by first | with_reducible assumption | with_reducible apply_assumption))
    | with_reducible apply eachBit_keeps
    | (with_reducible apply snapRelease_keeps (hA := by first | with_reducible assumption | with_reducible apply_assumption))
    | with_reducible apply keeps_ite
    | split)

def touchExecSnapshotAction (A : Part → Prop) : Prop := touchLaRun A ∧ touchSnapArm A
theorem touchExecSnapshotAction_all (h : ∀ q, A q) : touchExecSnapshotAction A := ⟨touchLaRun_all h, touchSnapArm_all h⟩
theorem execSnapshotAction_next  (hA : touchExecSnapshotAction A) : ∃ u, execSnapshotAction s = .next u ∧ Keeps A s u := by
  unfold execSnapshotAction
  have h := Keeps.refl A s
  refine ⟨_, rfl, ?_⟩
  obtain ⟨_, _⟩ := hA
  repeat' (first
    | with_reducible assumption
    | intro y
    | (extract_lets +onlyGivenNames x; first | (refine cut (P := Keeps A s x) ?_ ?_; (on_goal 1 => (unfold x; clear x)); (on_goal 2 => (intro hx; first | clear_value x | skip))) | clear_value x | skip)
    | (with_reducible apply laRun_keeps (hA := by first | with_reducible assumption | with_reducible apply_assumption))
    | (with_reducible apply snapArm_keeps (hA := by first | with_reducible assumption | with_reducible apply_assumption))
    | with_reducible apply eachBit_keeps
    | with_reducible apply keeps_ite
    | split
    | refine keeps_ite ?_ ?_)

def touchExecSnapshotReleaseAction (A : Part → Prop) : Prop := touchLaRun A ∧ (∀ x0, touchSnapRelease A x0)
theorem touchExecSnapshotReleaseAction_all (h : ∀ q, A q) : touchExecSnapshotReleaseAction A := ⟨touchLaRun_all h, fun _ => touchSnapRelease_all h⟩
theorem execSnapshotReleaseAction_next  (hA : touchExecSnapshotReleaseAction A) : ∃ u, execSnapshotReleaseAction s = .next u ∧ Keeps A s u := by
  unfold execSnapshotReleaseAction
  have h := Keeps.refl A s
  refine ⟨_, rfl, ?_⟩
  obtain ⟨_, _⟩ := hA
  repeat' (first
    | with_reducible assumption
    | intro y
    | (with_reducible apply laRun_keeps (hA := by first | with_reducible assumption | with_reducible apply_assumption))
    | with_reducible apply eachBit_keeps
    | (with_reducible apply snapRelease_keeps (hA := by first | with_reducible assumption | with_reducible apply_assumption))
    | with_reducible apply keeps_ite
    | split)

def touchPeakClear (A : Part → Prop) (p : Nat) : Prop := A (.inst R.MET_PT_PEAK_P.PEAK_P p 0) ∧ A (.inst R.MET_PT_PEAK_I.PEAK_I p 0) ∧ A (.inst R.MET_PT_PEAK_V.PEAK_V p 0)
theorem touchPeakClear_all (h : ∀ q, A q) {p : Nat} : touchPeakClear A p := ⟨h _, h _, h _⟩
theorem peakClear_keeps {p : ℕ} (hA : touchPeakClear A p)  (h : Keeps A s t) : Keeps A s (State.peakClear t p) := by
  unfold State.peakClear
  obtain ⟨_, _, _⟩ := hA
  repeat' (first
    | with_reducible assumption
    | intro y
    | (with_reducible refine put_keepsAt (by assumption) ?_)
    | (with_reducible refine put_keeps (by assumption) ?_)
    | with_reducible apply keeps_ite
    | split)

def touchExecPeakClear (A : Part → Prop) (p : Nat) : Prop := touchGuarded A ∧ touchPeakClear A p
theorem touchExecPeakClear_all (h : ∀ q, A q) {p : Nat} : touchExecPeakClear A p := ⟨touchGuarded_all h, touchPeakClear_all h⟩
theorem execPeakClear_next {sess : ℕ} {p : ℕ} (hA : touchExecPeakClear A p) : ∃ u, execPeakClear sess p s = .next u ∧ Keeps A s u := by
  unfold execPeakClear
  have h := Keeps.refl A s
  refine ⟨_, rfl, ?_⟩
  obtain ⟨_, _⟩ := hA
  repeat' (first
    | with_reducible assumption
    | intro y
    | (with_reducible apply guarded_keeps (hA := by first | with_reducible assumption | with_reducible apply_assumption))
    | (with_reducible apply peakClear_keeps (hA := by first | with_reducible assumption | with_reducible apply_assumption))
    | with_reducible apply keeps_ite
    | split)

def touchExecOverCurrent (A : Part → Prop) (p : Nat) : Prop := touchPtLog A ∧ A (.inst R.MET_PT_STAT.OC_SEEN p 0) ∧ A (.inst R.MET_PT_STAT.OC p 0) ∧ touchReqSafeOff A
theorem touchExecOverCurrent_all (h : ∀ q, A q) {p : Nat} : touchExecOverCurrent A p := ⟨touchPtLog_all h, h _, h _, touchReqSafeOff_all h⟩
theorem execOverCurrent_next {p : ℕ} {n : ℕ} {peak : List (BitVec 63)} (hA : touchExecOverCurrent A p) : ∃ u, execOverCurrent p n peak s = .next u ∧ Keeps A s u := by
  unfold execOverCurrent
  have h := Keeps.refl A s
  refine ⟨_, rfl, ?_⟩
  obtain ⟨_, _, _, _⟩ := hA
  repeat' (first
    | with_reducible assumption
    | intro y
    | (extract_lets +onlyGivenNames x; first | (refine cut (P := Keeps A s x) ?_ ?_; (on_goal 1 => (unfold x; clear x)); (on_goal 2 => (intro hx; first | clear_value x | skip))) | clear_value x | skip)
    | (with_reducible refine put_keepsAt (by assumption) ?_)
    | (with_reducible refine put_keeps (by assumption) ?_)
    | (with_reducible apply ptLog_keeps (hA := by first | with_reducible assumption | with_reducible apply_assumption))
    | (with_reducible apply reqSafeOff_keeps (hA := by first | with_reducible assumption | with_reducible apply_assumption))
    | with_reducible apply keeps_ite
    | split
    | refine keeps_ite ?_ ?_)

def touchExecOverCurrentClear (A : Part → Prop) (p : Nat) : Prop := A (.inst R.MET_PT_STAT.OC p 0)
theorem touchExecOverCurrentClear_all (h : ∀ q, A q) {p : Nat} : touchExecOverCurrentClear A p := h _
theorem execOverCurrentClear_next {p : ℕ} {ms : ℕ} (hA : touchExecOverCurrentClear A p) : ∃ u, execOverCurrentClear p ms s = .next u ∧ Keeps A s u := by
  unfold execOverCurrentClear
  have h := Keeps.refl A s
  refine ⟨_, rfl, ?_⟩
  unfold touchExecOverCurrentClear at hA
  repeat' (first
    | with_reducible assumption
    | intro y
    | (extract_lets +onlyGivenNames x; first | (refine cut (P := Keeps A s x) ?_ ?_; (on_goal 1 => (unfold x; clear x)); (on_goal 2 => (intro hx; first | clear_value x | skip))) | clear_value x | skip)
    | (with_reducible refine put_keepsAt (by assumption) ?_)
    | (with_reducible refine put_keeps (by assumption) ?_)
    | with_reducible apply keeps_ite
    | split
    | refine keeps_ite ?_ ?_)

def touchPulLog (A : Part → Prop) : Prop := touchLog A
theorem touchPulLog_all (h : ∀ q, A q) : touchPulLog A := touchLog_all h
theorem pulLog_keeps {n : ℕ} {code : ℕ} {sev : ℕ} (hA : touchPulLog A)  (h : Keeps A s t) : Keeps A s (State.pulLog t n code sev) := by
  unfold State.pulLog
  unfold touchPulLog at hA
  repeat' (first
    | with_reducible assumption
    | intro y
    | (with_reducible apply log_keeps (hA := by first | with_reducible assumption | with_reducible apply_assumption))
    | with_reducible apply keeps_ite
    | split)

def touchExecPulseEmit (A : Part → Prop) (n : Nat) : Prop := touchSetPul A ∧ touchPulStart A n ∧ touchPulLog A ∧ A (.inst R.MET_PUL_STAT.OVF n 0) ∧ A (.inst R.MET_PUL_STAT.PEND n 0)
theorem touchExecPulseEmit_all (h : ∀ q, A q) {n : Nat} : touchExecPulseEmit A n := ⟨touchSetPul_all h, touchPulStart_all h, touchPulLog_all h, h _, h _⟩
theorem execPulseEmit_next {n : ℕ} (hA : touchExecPulseEmit A n) : ∃ u, execPulseEmit n s = .next u ∧ Keeps A s u := by
  unfold execPulseEmit
  have h := Keeps.refl A s
  refine ⟨_, rfl, ?_⟩
  obtain ⟨_, _, _, _, _⟩ := hA
  repeat' (first
    | with_reducible assumption
    | intro y
    | (extract_lets +onlyGivenNames x; first | (refine cut (P := Keeps A s x) ?_ ?_; (on_goal 1 => (unfold x; clear x)); (on_goal 2 => (intro hx; first | clear_value x | skip))) | clear_value x | skip)
    | (with_reducible apply setPul_keeps (hA := by first | with_reducible assumption | with_reducible apply_assumption))
    | (with_reducible apply pulStart_keeps (hA := by first | with_reducible assumption | with_reducible apply_assumption))
    | (with_reducible apply pulLog_keeps (hA := by first | with_reducible assumption | with_reducible apply_assumption))
    | (with_reducible refine put_keepsAt (by assumption) ?_)
    | (with_reducible refine put_keeps (by assumption) ?_)
    | with_reducible apply keeps_ite
    | split
    | refine keeps_ite ?_ ?_)

def touchExecPulseEnd (A : Part → Prop) (n : Nat) : Prop := A .pins ∧ touchSetPul A ∧ touchPulStart A n ∧ A (.inst R.MET_PUL_STAT.PEND n 0)
theorem touchExecPulseEnd_all (h : ∀ q, A q) {n : Nat} : touchExecPulseEnd A n := ⟨h _, touchSetPul_all h, touchPulStart_all h, h _⟩
theorem execPulseEnd_next {n : ℕ} {t0 : ℕ} (hA : touchExecPulseEnd A n) : ∃ u, execPulseEnd n s0 s = .next u ∧ Keeps A s u := by
  unfold execPulseEnd
  have h := Keeps.refl A s
  refine ⟨_, rfl, ?_⟩
  obtain ⟨_, _, _, _⟩ := hA
  repeat' (first
    | with_reducible assumption
    | intro y
    | (extract_lets +onlyGivenNames x; first | (refine cut (P := Keeps A s x) ?_ ?_; (on_goal 1 => (unfold x; clear x)); (on_goal 2 => (intro hx; first | clear_value x | skip))) | (refine cut (P := ∀ y, Keeps A s y → Keeps A s (x y)) ?_ ?_; (on_goal 1 => (unfold x; clear x)); (on_goal 2 => (intro hf; first | clear_value x | skip))) | (refine cut (P := ∀ y, Keeps A s (x y)) ?_ ?_; (on_goal 1 => (unfold x; clear x)); (on_goal 2 => (intro hf; first | clear_value x | skip))) | (refine cut (P := ∀ y z, Keeps A s y → Keeps A s (x y z)) ?_ ?_; (on_goal 1 => (unfold x; clear x)); (on_goal 2 => (intro hf; first | clear_value x | skip))) | (refine cut (P := ∀ y z, Keeps A s z → Keeps A s (x y z)) ?_ ?_; (on_goal 1 => (unfold x; clear x)); (on_goal 2 => (intro hf; first | clear_value x | skip))) | (refine cut (P := ∀ y z w, Keeps A s y → Keeps A s (x y z w)) ?_ ?_; (on_goal 1 => (unfold x; clear x)); (on_goal 2 => (intro hf; first | clear_value x | skip))) | (refine cut (P := ∀ (d : Nat) (g : State → State) (y : State), (∀ z, Keeps A s z → Keeps A s (g z)) → Keeps A s y → Keeps A s (x d g y)) ?_ ?_; (on_goal 1 => (unfold x; clear x)); (on_goal 2 => (intro hf; first | clear_value x | skip))) | clear_value x | skip)
    | (with_reducible apply setPul_keeps (hA := by first | with_reducible assumption | with_reducible apply_assumption))
    | (with_reducible apply pulStart_keeps (hA := by first | with_reducible assumption | with_reducible apply_assumption))
    | (with_reducible refine put_keepsAt (by assumption) ?_)
    | (with_reducible refine put_keeps (by assumption) ?_)
    | with_reducible apply keeps_ite
    | with_reducible apply hf
    | split
    | refine keeps_ite ?_ ?_
    | with_reducible exact keeps_pins (by assumption) (by assumption))

def touchExecMetrologyCommit (A : Part → Prop) : Prop := touchMetCommit A
theorem touchExecMetrologyCommit_all (h : ∀ q, A q) : touchExecMetrologyCommit A := touchMetCommit_all h
theorem execMetrologyCommit_next {secs : ℕ} (hA : touchExecMetrologyCommit A) : ∃ u, execMetrologyCommit secs s = .next u ∧ Keeps A s u := by
  unfold execMetrologyCommit
  have h := Keeps.refl A s
  refine ⟨_, rfl, ?_⟩
  unfold touchExecMetrologyCommit at hA
  repeat' (first
    | with_reducible assumption
    | intro y
    | (extract_lets +onlyGivenNames x; first | (refine cut (P := Keeps A s x) ?_ ?_; (on_goal 1 => (unfold x; clear x)); (on_goal 2 => (intro hx; first | clear_value x | skip))) | clear_value x | skip)
    | (with_reducible apply metCommit_keeps (hA := by first | with_reducible assumption | with_reducible apply_assumption))
    | with_reducible apply keeps_ite
    | split
    | refine keeps_ite ?_ ?_)

def touchPulResume (A : Part → Prop) : Prop := (∀ x0, touchPulStart A x0) ∧ A (.reg R.MET_PUL_STAT.PEND)
theorem touchPulResume_all (h : ∀ q, A q) : touchPulResume A := ⟨(fun _ => touchPulStart_all h), h _⟩
theorem pulResume_keeps  (hA : touchPulResume A)  (h : Keeps A s t) : Keeps A s (State.pulResume t) := by
  unfold State.pulResume
  obtain ⟨_, _⟩ := hA
  repeat' (first
    | with_reducible assumption
    | intro y
    | (extract_lets +onlyGivenNames x; first | (refine cut (P := Keeps A s x) ?_ ?_; (on_goal 1 => (unfold x; clear x)); (on_goal 2 => (intro hx; first | clear_value x | skip))) | clear_value x | skip)
    | (with_reducible refine put_keepsAt (by assumption) ?_)
    | (with_reducible refine put_keeps (by assumption) ?_)
    | (with_reducible apply pulStart_keeps (hA := by first | with_reducible assumption | with_reducible apply_assumption))
    | with_reducible apply each_keeps
    | with_reducible apply keeps_ite
    | split
    | refine keeps_ite ?_ ?_)

def touchExecAccumulationStart (A : Part → Prop) : Prop := touchLog A ∧ A (.reg R.MET_STAT.HOLD_WAIT) ∧ A (.reg R.MET_STAT.ACC) ∧ A (.reg R.MET_STAT.UNCLOSED) ∧ A .met ∧ touchPulResume A ∧ touchMetShow A ∧ touchSetReady A
theorem touchExecAccumulationStart_all (h : ∀ q, A q) : touchExecAccumulationStart A := ⟨touchLog_all h, h _, h _, h _, h _, touchPulResume_all h, touchMetShow_all h, touchSetReady_all h⟩
theorem execAccumulationStart_next {secs : ℕ} (hA : touchExecAccumulationStart A) : ∃ u, execAccumulationStart secs s = .next u ∧ Keeps A s u := by
  unfold execAccumulationStart
  have h := Keeps.refl A s
  refine ⟨_, rfl, ?_⟩
  obtain ⟨_, _, _, _, _, _, _, _⟩ := hA
  repeat' (first
    | with_reducible assumption
    | intro y
    | (extract_lets +onlyGivenNames x; first | (refine cut (P := Keeps A s x) ?_ ?_; (on_goal 1 => (unfold x; clear x)); (on_goal 2 => (intro hx; first | clear_value x | skip))) | clear_value x | skip)
    | (with_reducible refine put_keepsAt (by assumption) ?_)
    | (with_reducible refine put_keeps (by assumption) ?_)
    | (with_reducible apply log_keeps (hA := by first | with_reducible assumption | with_reducible apply_assumption))
    | (with_reducible apply pulResume_keeps (hA := by first | with_reducible assumption | with_reducible apply_assumption))
    | (with_reducible apply metShow_keeps (hA := by first | with_reducible assumption | with_reducible apply_assumption))
    | (with_reducible apply setReady_keeps (hA := by first | with_reducible assumption | with_reducible apply_assumption))
    | with_reducible apply keeps_ite
    | split
    | refine keeps_ite ?_ ?_
    | with_reducible exact keeps_met (by assumption) (by assumption))

def touchSealSet (A : Part → Prop) : Prop := A (.reg R.MET_SEAL.CONFIRM) ∧ A (.reg R.MET_SEAL.SET) ∧ A (.reg R.MET_SEAL.SET_STATUS) ∧ touchReserveRefused A ∧ touchReport A ∧ A (.reg R.MET_STAT.SEALED) ∧ A (.reg R.MET_SEAL.SEALED) ∧ A (.reg R.MET_SEAL.SEAL_CNT) ∧ A (.reg R.MET_PARAM_DIG.DIG) ∧ touchTmxDrop A ∧ touchLog A
theorem touchSealSet_all (h : ∀ q, A q) : touchSealSet A := ⟨h _, h _, h _, touchReserveRefused_all h, touchReport_all h, h _, h _, h _, h _, touchTmxDrop_all h, touchLog_all h⟩
theorem sealSet_keeps {sess : ℕ} {confirm : ℕ} (hA : touchSealSet A)  (h : Keeps A s t) : Keeps A s (State.sealSet t sess confirm) := by
  unfold State.sealSet
  obtain ⟨_, _, _, _, _, _, _, _, _, _, _⟩ := hA
  repeat' (first
    | with_reducible assumption
    | intro y
    | (extract_lets +onlyGivenNames x; first | (refine cut (P := Keeps A s x) ?_ ?_; (on_goal 1 => (unfold x; clear x)); (on_goal 2 => (intro hx; first | clear_value x | skip))) | clear_value x | skip)
    | (with_reducible refine put_keepsAt (by assumption) ?_)
    | (with_reducible refine put_keeps (by assumption) ?_)
    | (with_reducible apply reserveRefused_keeps (hA := by first | with_reducible assumption | with_reducible apply_assumption))
    | (with_reducible apply report_keeps (hA := by first | with_reducible assumption | with_reducible apply_assumption))
    | (with_reducible refine inc_keepsAt (by assumption) ?_)
    | (with_reducible refine inc_keeps (by assumption) ?_)
    | (with_reducible apply tmxDrop_keeps (hA := by first | with_reducible assumption | with_reducible apply_assumption))
    | (with_reducible apply log_keeps (hA := by first | with_reducible assumption | with_reducible apply_assumption))
    | with_reducible apply keeps_ite
    | split
    | refine keeps_ite ?_ ?_)

def touchExecSealSet (A : Part → Prop) : Prop := touchGuarded A ∧ touchSealSet A
theorem touchExecSealSet_all (h : ∀ q, A q) : touchExecSealSet A := ⟨touchGuarded_all h, touchSealSet_all h⟩
theorem execSealSet_next {sess : ℕ} {confirm : ℕ} (hA : touchExecSealSet A) : ∃ u, execSealSet sess confirm s = .next u ∧ Keeps A s u := by
  unfold execSealSet
  have h := Keeps.refl A s
  refine ⟨_, rfl, ?_⟩
  obtain ⟨_, _⟩ := hA
  repeat' (first
    | with_reducible assumption
    | intro y
    | (with_reducible apply guarded_keeps (hA := by first | with_reducible assumption | with_reducible apply_assumption))
    | (with_reducible apply sealSet_keeps (hA := by first | with_reducible assumption | with_reducible apply_assumption))
    | with_reducible apply keeps_ite
    | split)

end Sys2Proof.Laws
end

