-- ==== Sys2Proof/Laws/KeepsSafe.lean ====
section
/-! SUPPORT. What the operations of Machine/Safe.lean leave alone: for each the parts it may change (`touch…`) and its lemma. -/

namespace Sys2Proof.Laws

open Sys2Proof.Machine

set_option linter.unusedTactic false
set_option linter.unreachableTactic false
set_option linter.unusedVariables false
set_option linter.tactic.unusedName false

variable {A : Part → Prop} {s t : State}

def touchEstopShow (A : Part → Prop) : Prop := touchSafSample A
theorem touchEstopShow_all (h : ∀ q, A q) : touchEstopShow A := touchSafSample_all h
theorem estopShow_keeps  (hA : touchEstopShow A)  (h : Keeps A s t) : Keeps A s (State.estopShow t) := by
  unfold State.estopShow
  unfold touchEstopShow at hA
  repeat' (first
    | with_reducible assumption
    | intro y
    | (with_reducible apply safSample_keeps (hA := by first | with_reducible assumption | with_reducible apply_assumption))
    | with_reducible apply keeps_ite
    | split)

def touchExecEStop (A : Part → Prop) : Prop := touchEstopShow A ∧ A .pins ∧ A .saf ∧ touchReqSafeOff A ∧ touchLog A
theorem touchExecEStop_all (h : ∀ q, A q) : touchExecEStop A := ⟨touchEstopShow_all h, h _, h _, touchReqSafeOff_all h, touchLog_all h⟩
theorem execEStop_next {m : ℕ} {ns : ℕ} (hA : touchExecEStop A) : ∃ u, execEStop m ns s = .next u ∧ Keeps A s u := by
  unfold execEStop
  have h := Keeps.refl A s
  refine ⟨_, rfl, ?_⟩
  obtain ⟨_, _, _, _, _⟩ := hA
  repeat' (first
    | with_reducible assumption
    | intro y
    | (extract_lets +onlyGivenNames x; first | (refine cut (P := Keeps A s x) ?_ ?_; (on_goal 1 => (unfold x; clear x)); (on_goal 2 => (intro hx; first | clear_value x | skip))) | clear_value x | skip)
    | (with_reducible apply estopShow_keeps (hA := by first | with_reducible assumption | with_reducible apply_assumption))
    | (with_reducible apply reqSafeOff_keeps (hA := by first | with_reducible assumption | with_reducible apply_assumption))
    | (with_reducible apply log_keeps (hA := by first | with_reducible assumption | with_reducible apply_assumption))
    | with_reducible apply keeps_ite
    | split
    | refine keeps_ite ?_ ?_
    | with_reducible exact keeps_pins (by assumption) (by assumption)
    | with_reducible exact keeps_saf (by assumption) (by assumption))

def touchExecSoReq (A : Part → Prop) : Prop := touchGuarded A ∧ touchReqSafeOff A ∧ touchLog A
theorem touchExecSoReq_all (h : ∀ q, A q) : touchExecSoReq A := ⟨touchGuarded_all h, touchReqSafeOff_all h, touchLog_all h⟩
theorem execSoReq_next {sess : ℕ} (hA : touchExecSoReq A) : ∃ u, execSoReq sess s = .next u ∧ Keeps A s u := by
  unfold execSoReq
  have h := Keeps.refl A s
  refine ⟨_, rfl, ?_⟩
  obtain ⟨_, _, _⟩ := hA
  repeat' (first
    | with_reducible assumption
    | intro y
    | (with_reducible apply guarded_keeps (hA := by first | with_reducible assumption | with_reducible apply_assumption))
    | (with_reducible apply reqSafeOff_keeps (hA := by first | with_reducible assumption | with_reducible apply_assumption))
    | (with_reducible apply log_keeps (hA := by first | with_reducible assumption | with_reducible apply_assumption))
    | with_reducible apply keeps_ite
    | split)

def touchExecEstopDiscrepancy (A : Part → Prop) : Prop := A .saf ∧ touchLog A ∧ A (.reg R.SAF_STAT.ES_DISC)
theorem touchExecEstopDiscrepancy_all (h : ∀ q, A q) : touchExecEstopDiscrepancy A := ⟨h _, touchLog_all h, h _⟩
theorem execEstopDiscrepancy_next {ms : ℕ} (hA : touchExecEstopDiscrepancy A) : ∃ u, execEstopDiscrepancy ms s = .next u ∧ Keeps A s u := by
  unfold execEstopDiscrepancy
  have h := Keeps.refl A s
  refine ⟨_, rfl, ?_⟩
  obtain ⟨_, _, _⟩ := hA
  repeat' (first
    | with_reducible assumption
    | intro y
    | (extract_lets +onlyGivenNames x; first | (refine cut (P := Keeps A s x) ?_ ?_; (on_goal 1 => (unfold x; clear x)); (on_goal 2 => (intro hx; first | clear_value x | skip))) | clear_value x | skip)
    | (with_reducible apply log_keeps (hA := by first | with_reducible assumption | with_reducible apply_assumption))
    | (with_reducible refine put_keepsAt (by assumption) ?_)
    | (with_reducible refine put_keeps (by assumption) ?_)
    | with_reducible apply keeps_ite
    | split
    | with_reducible exact keeps_saf (by assumption) (by assumption))

def touchExecEstopRelease (A : Part → Prop) : Prop := A .pins ∧ A .saf ∧ touchEstopShow A ∧ A (.reg R.SAF_STAT.ES_DISC)
theorem touchExecEstopRelease_all (h : ∀ q, A q) : touchExecEstopRelease A := ⟨h _, h _, touchEstopShow_all h, h _⟩
theorem execEstopRelease_next {m : ℕ} (hA : touchExecEstopRelease A) : ∃ u, execEstopRelease m s = .next u ∧ Keeps A s u := by
  unfold execEstopRelease
  have h := Keeps.refl A s
  refine ⟨_, rfl, ?_⟩
  obtain ⟨_, _, _, _⟩ := hA
  repeat' (first
    | with_reducible assumption
    | intro y
    | (extract_lets +onlyGivenNames x; first | (refine cut (P := Keeps A s x) ?_ ?_; (on_goal 1 => (unfold x; clear x)); (on_goal 2 => (intro hx; first | clear_value x | skip))) | clear_value x | skip)
    | (with_reducible apply estopShow_keeps (hA := by first | with_reducible assumption | with_reducible apply_assumption))
    | (with_reducible refine put_keepsAt (by assumption) ?_)
    | (with_reducible refine put_keeps (by assumption) ?_)
    | with_reducible apply keeps_ite
    | split
    | refine keeps_ite ?_ ?_
    | with_reducible exact keeps_pins (by assumption) (by assumption)
    | with_reducible exact keeps_saf (by assumption) (by assumption))

def touchPlusOpen (A : Part → Prop) : Prop := touchSetSeq A ∧ (∀ x0, touchLatchClear A x0)
theorem touchPlusOpen_all (h : ∀ q, A q) : touchPlusOpen A := ⟨touchSetSeq_all h, fun _ => touchLatchClear_all h⟩
theorem plusOpen_keeps {c : ℕ} (hA : touchPlusOpen A)  (h : Keeps A s t) : Keeps A s (State.plusOpen t c) := by
  unfold State.plusOpen
  obtain ⟨_, _⟩ := hA
  repeat' (first
    | with_reducible assumption
    | intro y
    | (with_reducible apply setSeq_keeps (hA := by first | with_reducible assumption | with_reducible apply_assumption))
    | (with_reducible apply latchClear_keeps (hA := by first | with_reducible assumption | with_reducible apply_assumption))
    | with_reducible apply keeps_ite
    | split)

def touchExecContactorOpen (A : Part → Prop) : Prop := touchPlusOpen A
theorem touchExecContactorOpen_all (h : ∀ q, A q) : touchExecContactorOpen A := touchPlusOpen_all h
theorem execContactorOpen_next {c : ℕ} {i : ℕ} {ms : ℕ} {valid : Bool} (hA : touchExecContactorOpen A) : ∃ u, execContactorOpen c i ms valid s = .next u ∧ Keeps A s u := by
  unfold execContactorOpen
  have h := Keeps.refl A s
  refine ⟨_, rfl, ?_⟩
  unfold touchExecContactorOpen at hA
  repeat' (first
    | with_reducible assumption
    | intro y
    | (with_reducible apply plusOpen_keeps (hA := by first | with_reducible assumption | with_reducible apply_assumption))
    | with_reducible apply keeps_ite
    | split)

def touchExecSafeOffDcMinusOpen (A : Part → Prop) : Prop := touchConnOpened A ∧ (∀ x0, touchLatchClear A x0)
theorem touchExecSafeOffDcMinusOpen_all (h : ∀ q, A q) : touchExecSafeOffDcMinusOpen A := ⟨touchConnOpened_all h, fun _ => touchLatchClear_all h⟩
theorem execSafeOffDcMinusOpen_next {c : ℕ} {ms : ℕ} {t0 : ℕ} (hA : touchExecSafeOffDcMinusOpen A) : ∃ u, execSafeOffDcMinusOpen c ms s0 s = .next u ∧ Keeps A s u := by
  unfold execSafeOffDcMinusOpen
  have h := Keeps.refl A s
  refine ⟨_, rfl, ?_⟩
  obtain ⟨_, _⟩ := hA
  repeat' (first
    | with_reducible assumption
    | intro y
    | (with_reducible apply connOpened_keeps (hA := by first | with_reducible assumption | with_reducible apply_assumption))
    | (with_reducible apply latchClear_keeps (hA := by first | with_reducible assumption | with_reducible apply_assumption))
    | with_reducible apply keeps_ite
    | split)

def touchExecConnectorHeld (A : Part → Prop) : Prop := touchSetSeq A ∧ A (.reg R.SAF_STAT.HELD) ∧ A .saf ∧ touchSafDone A ∧ touchLog A
theorem touchExecConnectorHeld_all (h : ∀ q, A q) : touchExecConnectorHeld A := ⟨touchSetSeq_all h, h _, h _, touchSafDone_all h, touchLog_all h⟩
theorem execConnectorHeld_next {c : ℕ} {t0 : ℕ} {i : ℕ} (hA : touchExecConnectorHeld A) : ∃ u, execConnectorHeld c t0 i s = .next u ∧ Keeps A s u := by
  unfold execConnectorHeld
  have h := Keeps.refl A s
  refine ⟨_, rfl, ?_⟩
  obtain ⟨_, _, _, _, _⟩ := hA
  repeat' (first
    | with_reducible assumption
    | intro y
    | (extract_lets +onlyGivenNames x; first | (refine cut (P := Keeps A s x) ?_ ?_; (on_goal 1 => (unfold x; clear x)); (on_goal 2 => (intro hx; first | clear_value x | skip))) | clear_value x | skip)
    | (with_reducible refine put_keepsAt (by assumption) ?_)
    | (with_reducible refine put_keeps (by assumption) ?_)
    | (with_reducible apply setSeq_keeps (hA := by first | with_reducible assumption | with_reducible apply_assumption))
    | (with_reducible apply safDone_keeps (hA := by first | with_reducible assumption | with_reducible apply_assumption))
    | (with_reducible apply log_keeps (hA := by first | with_reducible assumption | with_reducible apply_assumption))
    | with_reducible apply keeps_ite
    | split
    | refine keeps_ite ?_ ?_
    | with_reducible exact keeps_saf (by assumption) (by assumption))

def touchExecSupplyFailContactorOpen (A : Part → Prop) : Prop := touchPlusOpen A
theorem touchExecSupplyFailContactorOpen_all (h : ∀ q, A q) : touchExecSupplyFailContactorOpen A := touchPlusOpen_all h
theorem execSupplyFailContactorOpen_next {c : ℕ} {i : ℕ} {ms : ℕ} {valid : Bool} (hA : touchExecSupplyFailContactorOpen A) : ∃ u, execSupplyFailContactorOpen c i ms valid s = .next u ∧ Keeps A s u := by
  unfold execSupplyFailContactorOpen
  have h := Keeps.refl A s
  refine ⟨_, rfl, ?_⟩
  unfold touchExecSupplyFailContactorOpen at hA
  repeat' (first
    | with_reducible assumption
    | intro y
    | (with_reducible apply plusOpen_keeps (hA := by first | with_reducible assumption | with_reducible apply_assumption))
    | with_reducible apply keeps_ite
    | split)

def touchExecSupplyFailDcMinusOpen (A : Part → Prop) : Prop := touchHeldEnds A ∧ touchSetSeq A ∧ (∀ x0, touchLatchClear A x0)
theorem touchExecSupplyFailDcMinusOpen_all (h : ∀ q, A q) : touchExecSupplyFailDcMinusOpen A := ⟨touchHeldEnds_all h, touchSetSeq_all h, (fun _ => touchLatchClear_all h)⟩
theorem execSupplyFailDcMinusOpen_next {c : ℕ} {ms : ℕ} (hA : touchExecSupplyFailDcMinusOpen A) : ∃ u, execSupplyFailDcMinusOpen c ms s = .next u ∧ Keeps A s u := by
  unfold execSupplyFailDcMinusOpen
  have h := Keeps.refl A s
  refine ⟨_, rfl, ?_⟩
  obtain ⟨_, _, _⟩ := hA
  repeat' (first
    | with_reducible assumption
    | intro y
    | (extract_lets +onlyGivenNames x; first | (refine cut (P := Keeps A s x) ?_ ?_; (on_goal 1 => (unfold x; clear x)); (on_goal 2 => (intro hx; first | clear_value x | skip))) | clear_value x | skip)
    | (with_reducible apply heldEnds_keeps (hA := by first | with_reducible assumption | with_reducible apply_assumption))
    | (with_reducible apply setSeq_keeps (hA := by first | with_reducible assumption | with_reducible apply_assumption))
    | (with_reducible apply latchClear_keeps (hA := by first | with_reducible assumption | with_reducible apply_assumption))
    | with_reducible apply keeps_ite
    | split
    | refine keeps_ite ?_ ?_)

def touchExecContactorNotOpened (A : Part → Prop) : Prop := touchLog A ∧ touchSetSeq A
theorem touchExecContactorNotOpened_all (h : ∀ q, A q) : touchExecContactorNotOpened A := ⟨touchLog_all h, touchSetSeq_all h⟩
theorem execContactorNotOpened_next {c : ℕ} {us : ℕ} (hA : touchExecContactorNotOpened A) : ∃ u, execContactorNotOpened c us s = .next u ∧ Keeps A s u := by
  unfold execContactorNotOpened
  have h := Keeps.refl A s
  refine ⟨_, rfl, ?_⟩
  obtain ⟨_, _⟩ := hA
  repeat' (first
    | with_reducible assumption
    | intro y
    | (with_reducible apply log_keeps (hA := by first | with_reducible assumption | with_reducible apply_assumption))
    | (with_reducible apply setSeq_keeps (hA := by first | with_reducible assumption | with_reducible apply_assumption))
    | with_reducible apply keeps_ite
    | split)

def touchSafClear (A : Part → Prop) : Prop := A .saf ∧ A (.reg R.SAF_CMD.STATUS) ∧ A (.reg R.SAF_FIRST.FIRST) ∧ A (.reg R.SAF_SRC.SRC) ∧ A (.reg R.SAF_STAT.DONE) ∧ A (.reg R.SAF_STAT.ACTIVE) ∧ touchGden A ∧ touchLog A
theorem touchSafClear_all (h : ∀ q, A q) : touchSafClear A := ⟨h _, h _, h _, h _, h _, h _, touchGden_all h, touchLog_all h⟩
theorem safClear_keeps  (hA : touchSafClear A)  (h : Keeps A s t) : Keeps A s (State.safClear t) := by
  unfold State.safClear
  obtain ⟨_, _, _, _, _, _, _, _⟩ := hA
  repeat' (first
    | with_reducible assumption
    | intro y
    | (extract_lets +onlyGivenNames x; first | (refine cut (P := Keeps A s x) ?_ ?_; (on_goal 1 => (unfold x; clear x)); (on_goal 2 => (intro hx; first | clear_value x | skip))) | clear_value x | skip)
    | (with_reducible refine put_keepsAt (by assumption) ?_)
    | (with_reducible refine put_keeps (by assumption) ?_)
    | (with_reducible apply gden_keeps (hA := by first | with_reducible assumption | with_reducible apply_assumption))
    | (with_reducible apply log_keeps (hA := by first | with_reducible assumption | with_reducible apply_assumption))
    | with_reducible apply keeps_ite
    | split
    | refine keeps_ite ?_ ?_
    | with_reducible exact keeps_saf (by assumption) (by assumption))

def touchExecSafeOffClear (A : Part → Prop) : Prop := touchGuarded A ∧ touchSafClear A
theorem touchExecSafeOffClear_all (h : ∀ q, A q) : touchExecSafeOffClear A := ⟨touchGuarded_all h, touchSafClear_all h⟩
theorem execSafeOffClear_next {sess : ℕ} (hA : touchExecSafeOffClear A) : ∃ u, execSafeOffClear sess s = .next u ∧ Keeps A s u := by
  unfold execSafeOffClear
  have h := Keeps.refl A s
  refine ⟨_, rfl, ?_⟩
  obtain ⟨_, _⟩ := hA
  repeat' (first
    | with_reducible assumption
    | intro y
    | (with_reducible apply guarded_keeps (hA := by first | with_reducible assumption | with_reducible apply_assumption))
    | (with_reducible apply safClear_keeps (hA := by first | with_reducible assumption | with_reducible apply_assumption))
    | with_reducible apply keeps_ite
    | split)

def touchWatchStop (A : Part → Prop) : Prop := A .saf ∧ A (.reg R.SAF_STAT.WD_STOP) ∧ touchLog A ∧ touchReqSafeOff A
theorem touchWatchStop_all (h : ∀ q, A q) : touchWatchStop A := ⟨h _, h _, touchLog_all h, touchReqSafeOff_all h⟩
theorem watchStop_keeps  (hA : touchWatchStop A)  (h : Keeps A s t) : Keeps A s (State.watchStop t) := by
  unfold State.watchStop
  obtain ⟨_, _, _, _⟩ := hA
  repeat' (first
    | with_reducible assumption
    | intro y
    | (extract_lets +onlyGivenNames x; first | (refine cut (P := Keeps A s x) ?_ ?_; (on_goal 1 => (unfold x; clear x)); (on_goal 2 => (intro hx; first | clear_value x | skip))) | clear_value x | skip)
    | (with_reducible refine put_keepsAt (by assumption) ?_)
    | (with_reducible refine put_keeps (by assumption) ?_)
    | (with_reducible apply log_keeps (hA := by first | with_reducible assumption | with_reducible apply_assumption))
    | (with_reducible apply reqSafeOff_keeps (hA := by first | with_reducible assumption | with_reducible apply_assumption))
    | with_reducible apply keeps_ite
    | split
    | refine keeps_ite ?_ ?_
    | with_reducible exact keeps_saf (by assumption) (by assumption))

def touchWdExpire (A : Part → Prop) : Prop := A .saf ∧ touchLog A ∧ A (.reg R.SAF_WD_STAT.WD_TOTAL) ∧ A (.reg R.SAF_WD_STAT.WD_CAUSE) ∧ touchResetCause A ∧ A (.reg R.SAF_WD_STAT.WD_CNT) ∧ touchEnterReset A ∧ touchExitReset A ∧ touchWatchStop A
theorem touchWdExpire_all (h : ∀ q, A q) : touchWdExpire A := ⟨h _, touchLog_all h, h _, h _, touchResetCause_all h, h _, touchEnterReset_all h, touchExitReset_all h, touchWatchStop_all h⟩
theorem wdExpire_keeps {cause : ℕ} {o : Sys2Proof.BootObs} (hA : touchWdExpire A)  (h : Keeps A s t) : Keeps A s (State.wdExpire t cause o) := by
  unfold State.wdExpire
  obtain ⟨_, _, _, _, _, _, _, _, _⟩ := hA
  repeat' (first
    | with_reducible assumption
    | intro y
    | (extract_lets +onlyGivenNames x; first | (refine cut (P := Keeps A s x) ?_ ?_; (on_goal 1 => (unfold x; clear x)); (on_goal 2 => (intro hx; first | clear_value x | skip))) | (refine cut (P := Keeps A s x.2) ?_ ?_; (on_goal 1 => (unfold x; clear x)); (on_goal 2 => (intro hx; first | clear_value x | skip))) | (refine cut (P := Keeps A s x.2.2) ?_ ?_; (on_goal 1 => (unfold x; clear x)); (on_goal 2 => (intro hx; first | clear_value x | skip))) | clear_value x | skip)
    | (with_reducible apply log_keeps (hA := by first | with_reducible assumption | with_reducible apply_assumption))
    | (with_reducible refine inc_keepsAt (by assumption) ?_)
    | (with_reducible refine inc_keeps (by assumption) ?_)
    | (with_reducible refine put_keepsAt (by assumption) ?_)
    | (with_reducible refine put_keeps (by assumption) ?_)
    | (with_reducible apply resetCause_keeps (hA := by first | with_reducible assumption | with_reducible apply_assumption))
    | (with_reducible apply enterReset_keeps (hA := by first | with_reducible assumption | with_reducible apply_assumption))
    | (with_reducible apply exitReset_keeps (hA := by first | with_reducible assumption | with_reducible apply_assumption))
    | with_reducible apply when_keeps
    | (with_reducible apply watchStop_keeps (hA := by first | with_reducible assumption | with_reducible apply_assumption))
    | with_reducible apply keeps_ite
    | with_reducible apply keeps_ite2
    | with_reducible apply keeps_ite3
    | split
    | refine keeps_ite ?_ ?_
    | with_reducible exact keeps_saf (by assumption) (by assumption))

def touchExecWatchdogKick (A : Part → Prop) : Prop := A .saf ∧ touchWdExpire A
theorem touchExecWatchdogKick_all (h : ∀ q, A q) : touchExecWatchdogKick A := ⟨h _, touchWdExpire_all h⟩
theorem execWatchdogKick_next {v : ℕ} {ms : ℕ} {o : Sys2Proof.BootObs} (hA : touchExecWatchdogKick A) : ∃ u, execWatchdogKick v ms o s = .next u ∧ Keeps A s u := by
  unfold execWatchdogKick
  have h := Keeps.refl A s
  refine ⟨_, rfl, ?_⟩
  obtain ⟨_, _⟩ := hA
  repeat' (first
    | with_reducible assumption
    | intro y
    | (extract_lets +onlyGivenNames x; first | (refine cut (P := Keeps A s x) ?_ ?_; (on_goal 1 => (unfold x; clear x)); (on_goal 2 => (intro hx; first | clear_value x | skip))) | clear_value x | skip)
    | (with_reducible apply wdExpire_keeps (hA := by first | with_reducible assumption | with_reducible apply_assumption))
    | with_reducible apply keeps_ite
    | split
    | refine keeps_ite ?_ ?_
    | with_reducible exact keeps_saf (by assumption) (by assumption))

def touchExecWatchdogExpiry (A : Part → Prop) : Prop := touchWdExpire A
theorem touchExecWatchdogExpiry_all (h : ∀ q, A q) : touchExecWatchdogExpiry A := touchWdExpire_all h
theorem execWatchdogExpiry_next {ms : ℕ} {o : Sys2Proof.BootObs} (hA : touchExecWatchdogExpiry A) : ∃ u, execWatchdogExpiry ms o s = .next u ∧ Keeps A s u := by
  unfold execWatchdogExpiry
  have h := Keeps.refl A s
  refine ⟨_, rfl, ?_⟩
  unfold touchExecWatchdogExpiry at hA
  repeat' (first
    | with_reducible assumption
    | intro y
    | (with_reducible apply wdExpire_keeps (hA := by first | with_reducible assumption | with_reducible apply_assumption))
    | with_reducible apply keeps_ite
    | split)

def touchExecLockstepError (A : Part → Prop) : Prop := touchWdExpire A
theorem touchExecLockstepError_all (h : ∀ q, A q) : touchExecLockstepError A := touchWdExpire_all h
theorem execLockstepError_next {o : Sys2Proof.BootObs} (hA : touchExecLockstepError A) : ∃ u, execLockstepError o s = .next u ∧ Keeps A s u := by
  unfold execLockstepError
  have h := Keeps.refl A s
  refine ⟨_, rfl, ?_⟩
  unfold touchExecLockstepError at hA
  repeat' (first
    | with_reducible assumption
    | intro y
    | (with_reducible apply wdExpire_keeps (hA := by first | with_reducible assumption | with_reducible apply_assumption))
    | with_reducible apply keeps_ite
    | split)

end Sys2Proof.Laws
end

