-- ==== Sys2Proof/Laws/KeepsSwitches.lean ====
section
/-! SUPPORT. What the operations of Machine/Switches.lean leave alone: for each the parts it may change (`touch…`) and its lemma. -/

namespace Sys2Proof.Laws

open Sys2Proof.Machine

set_option linter.unusedTactic false
set_option linter.unreachableTactic false
set_option linter.unusedVariables false
set_option linter.tactic.unusedName false

variable {A : Part → Prop} {s t : State}

def touchOnWrite (A : Part → Prop) (n : Nat) : Prop := touchReport A ∧ touchLswCommand A n
theorem touchOnWrite_all (h : ∀ q, A q) {n : Nat} : touchOnWrite A n := ⟨touchReport_all h, touchLswCommand_all h⟩
theorem onWrite_keeps {sess : ℕ} {n : ℕ} {on : Bool} (hA : touchOnWrite A n)  (h : Keeps A s t) : Keeps A s (State.onWrite t sess n on) := by
  unfold State.onWrite
  obtain ⟨_, _⟩ := hA
  repeat' (first
    | with_reducible assumption
    | intro y
    | (extract_lets +onlyGivenNames x; first | (refine cut (P := Keeps A s x) ?_ ?_; (on_goal 1 => (unfold x; clear x)); (on_goal 2 => (intro hx; first | clear_value x | skip))) | clear_value x | skip)
    | (with_reducible apply report_keeps (hA := by first | with_reducible assumption | with_reducible apply_assumption))
    | (with_reducible apply lswCommand_keeps (hA := by first | with_reducible assumption | with_reducible apply_assumption))
    | with_reducible apply keeps_ite
    | split
    | refine keeps_ite ?_ ?_)

def touchExecChannelOn (A : Part → Prop) (n : Nat) : Prop := touchGuarded A ∧ touchOnWrite A n
theorem touchExecChannelOn_all (h : ∀ q, A q) {n : Nat} : touchExecChannelOn A n := ⟨touchGuarded_all h, touchOnWrite_all h⟩
theorem execChannelOn_next {sess : ℕ} {n : ℕ} (hA : touchExecChannelOn A n) : ∃ u, execChannelOn sess n s = .next u ∧ Keeps A s u := by
  unfold execChannelOn
  have h := Keeps.refl A s
  refine ⟨_, rfl, ?_⟩
  obtain ⟨_, _⟩ := hA
  repeat' (first
    | with_reducible assumption
    | intro y
    | (with_reducible apply guarded_keeps (hA := by first | with_reducible assumption | with_reducible apply_assumption))
    | (with_reducible apply onWrite_keeps (hA := by first | with_reducible assumption | with_reducible apply_assumption))
    | with_reducible apply keeps_ite
    | split)

def touchExecChannelOff (A : Part → Prop) (n : Nat) : Prop := touchGuarded A ∧ touchOnWrite A n
theorem touchExecChannelOff_all (h : ∀ q, A q) {n : Nat} : touchExecChannelOff A n := ⟨touchGuarded_all h, touchOnWrite_all h⟩
theorem execChannelOff_next {sess : ℕ} {n : ℕ} (hA : touchExecChannelOff A n) : ∃ u, execChannelOff sess n s = .next u ∧ Keeps A s u := by
  unfold execChannelOff
  have h := Keeps.refl A s
  refine ⟨_, rfl, ?_⟩
  obtain ⟨_, _⟩ := hA
  repeat' (first
    | with_reducible assumption
    | intro y
    | (with_reducible apply guarded_keeps (hA := by first | with_reducible assumption | with_reducible apply_assumption))
    | (with_reducible apply onWrite_keeps (hA := by first | with_reducible assumption | with_reducible apply_assumption))
    | with_reducible apply keeps_ite
    | split)

def touchLswTrip (A : Part → Prop) (n : Nat) : Prop := A .pins ∧ touchLswProtect A ∧ touchLswPins A ∧ touchLswState A n ∧ touchLog A ∧ A (.inst R.LSW_CH_STAT.LATCH_SEEN n 0) ∧ A (.inst R.LSW_CH_CTRL.ON n 0)
theorem touchLswTrip_all (h : ∀ q, A q) {n : Nat} : touchLswTrip A n := ⟨h _, touchLswProtect_all h, touchLswPins_all h, touchLswState_all h, touchLog_all h, h _, h _⟩
theorem lswTrip_keeps {n : ℕ} {code : ℕ} {cause : ℕ} (hA : touchLswTrip A n)  (h : Keeps A s t) : Keeps A s (State.lswTrip t n code cause) := by
  unfold State.lswTrip
  obtain ⟨_, _, _, _, _, _, _⟩ := hA
  repeat' (first
    | with_reducible assumption
    | intro y
    | (extract_lets +onlyGivenNames x; first | (refine cut (P := Keeps A s x) ?_ ?_; (on_goal 1 => (unfold x; clear x)); (on_goal 2 => (intro hx; first | clear_value x | skip))) | (refine cut (P := ∀ y, Keeps A s y → Keeps A s (x y)) ?_ ?_; (on_goal 1 => (unfold x; clear x)); (on_goal 2 => (intro hf; first | clear_value x | skip))) | (refine cut (P := ∀ y, Keeps A s (x y)) ?_ ?_; (on_goal 1 => (unfold x; clear x)); (on_goal 2 => (intro hf; first | clear_value x | skip))) | (refine cut (P := ∀ y z, Keeps A s y → Keeps A s (x y z)) ?_ ?_; (on_goal 1 => (unfold x; clear x)); (on_goal 2 => (intro hf; first | clear_value x | skip))) | (refine cut (P := ∀ y z, Keeps A s z → Keeps A s (x y z)) ?_ ?_; (on_goal 1 => (unfold x; clear x)); (on_goal 2 => (intro hf; first | clear_value x | skip))) | (refine cut (P := ∀ y z w, Keeps A s y → Keeps A s (x y z w)) ?_ ?_; (on_goal 1 => (unfold x; clear x)); (on_goal 2 => (intro hf; first | clear_value x | skip))) | (refine cut (P := ∀ (d : Nat) (g : State → State) (y : State), (∀ z, Keeps A s z → Keeps A s (g z)) → Keeps A s y → Keeps A s (x d g y)) ?_ ?_; (on_goal 1 => (unfold x; clear x)); (on_goal 2 => (intro hf; first | clear_value x | skip))) | clear_value x | skip)
    | (with_reducible apply lswProtect_keeps (hA := by first | with_reducible assumption | with_reducible apply_assumption))
    | (with_reducible apply lswPins_keeps (hA := by first | with_reducible assumption | with_reducible apply_assumption))
    | (with_reducible apply lswState_keeps (hA := by first | with_reducible assumption | with_reducible apply_assumption))
    | (with_reducible apply log_keeps (hA := by first | with_reducible assumption | with_reducible apply_assumption))
    | (with_reducible refine put_keepsAt (by assumption) ?_)
    | (with_reducible refine put_keeps (by assumption) ?_)
    | with_reducible apply keeps_ite
    | with_reducible apply hf
    | split
    | refine keeps_ite ?_ ?_
    | with_reducible exact keeps_pins (by assumption) (by assumption))

def touchExecOverCurrentTrip (A : Part → Prop) (n : Nat) : Prop := A (.inst R.LSW_CH_CNT.TRIPS n 0) ∧ A (.inst R.LSW_CH_STAT.TRIP_SEEN n 0) ∧ A (.inst R.LSW_CH_MEAS.I_MEAS n 0) ∧ touchLog A ∧ touchLswTrip A n
theorem touchExecOverCurrentTrip_all (h : ∀ q, A q) {n : Nat} : touchExecOverCurrentTrip A n := ⟨h _, h _, h _, touchLog_all h, touchLswTrip_all h⟩
theorem execOverCurrentTrip_next {n : ℕ} {onMs : ℕ} {t0 : ℕ} {i : ℕ} (hA : touchExecOverCurrentTrip A n) : ∃ u, execOverCurrentTrip n onMs t0 i s = .next u ∧ Keeps A s u := by
  unfold execOverCurrentTrip
  have h := Keeps.refl A s
  refine ⟨_, rfl, ?_⟩
  obtain ⟨_, _, _, _, _⟩ := hA
  repeat' (first
    | with_reducible assumption
    | intro y
    | (extract_lets +onlyGivenNames x; first | (refine cut (P := Keeps A s x) ?_ ?_; (on_goal 1 => (unfold x; clear x)); (on_goal 2 => (intro hx; first | clear_value x | skip))) | clear_value x | skip)
    | (with_reducible refine put_keepsAt (by assumption) ?_)
    | (with_reducible refine put_keeps (by assumption) ?_)
    | (with_reducible refine putMax_keepsAt (by assumption) ?_)
    | (with_reducible refine putMax_keeps (by assumption) ?_)
    | (with_reducible refine inc_keepsAt (by assumption) ?_)
    | (with_reducible refine inc_keeps (by assumption) ?_)
    | (with_reducible apply log_keeps (hA := by first | with_reducible assumption | with_reducible apply_assumption))
    | (with_reducible apply lswTrip_keeps (hA := by first | with_reducible assumption | with_reducible apply_assumption))
    | with_reducible apply keeps_ite
    | split
    | refine keeps_ite ?_ ?_)

def touchLswShut (A : Part → Prop) (n : Nat) : Prop := touchLog A ∧ A (.inst R.LSW_CH_CNT.TSDS n 0) ∧ A (.inst R.LSW_CH_STAT.TSD_SEEN n 0) ∧ touchLswTrip A n
theorem touchLswShut_all (h : ∀ q, A q) {n : Nat} : touchLswShut A n := ⟨touchLog_all h, h _, h _, touchLswTrip_all h⟩
theorem lswShut_keeps {n : ℕ} (hA : touchLswShut A n)  (h : Keeps A s t) : Keeps A s (State.lswShut t n) := by
  unfold State.lswShut
  obtain ⟨_, _, _, _⟩ := hA
  repeat' (first
    | with_reducible assumption
    | intro y
    | (extract_lets +onlyGivenNames x; first | (refine cut (P := Keeps A s x) ?_ ?_; (on_goal 1 => (unfold x; clear x)); (on_goal 2 => (intro hx; first | clear_value x | skip))) | clear_value x | skip)
    | (with_reducible refine put_keepsAt (by assumption) ?_)
    | (with_reducible refine put_keeps (by assumption) ?_)
    | (with_reducible refine inc_keepsAt (by assumption) ?_)
    | (with_reducible refine inc_keeps (by assumption) ?_)
    | (with_reducible apply log_keeps (hA := by first | with_reducible assumption | with_reducible apply_assumption))
    | (with_reducible apply lswTrip_keeps (hA := by first | with_reducible assumption | with_reducible apply_assumption))
    | with_reducible apply keeps_ite
    | split
    | refine keeps_ite ?_ ?_)

def touchExecThermalShutdown (A : Part → Prop) (n : Nat) : Prop := touchLswJunction A n ∧ touchLswShut A n
theorem touchExecThermalShutdown_all (h : ∀ q, A q) {n : Nat} : touchExecThermalShutdown A n := ⟨touchLswJunction_all h, touchLswShut_all h⟩
theorem execThermalShutdown_next {n : ℕ} {tj : ℤ} (hA : touchExecThermalShutdown A n) : ∃ u, execThermalShutdown n tj s = .next u ∧ Keeps A s u := by
  unfold execThermalShutdown
  have h := Keeps.refl A s
  refine ⟨_, rfl, ?_⟩
  obtain ⟨_, _⟩ := hA
  repeat' (first
    | with_reducible assumption
    | intro y
    | (extract_lets +onlyGivenNames x; first | (refine cut (P := Keeps A s x) ?_ ?_; (on_goal 1 => (unfold x; clear x)); (on_goal 2 => (intro hx; first | clear_value x | skip))) | clear_value x | skip)
    | (with_reducible apply lswJunction_keeps (hA := by first | with_reducible assumption | with_reducible apply_assumption))
    | (with_reducible apply lswShut_keeps (hA := by first | with_reducible assumption | with_reducible apply_assumption))
    | with_reducible apply keeps_ite
    | split
    | refine keeps_ite ?_ ?_)

def touchLswRestart (A : Part → Prop) (n : Nat) : Prop := touchLswState A n ∧ A (.inst R.LSW_CH_STAT.RST_CNT n 0) ∧ touchLog A
theorem touchLswRestart_all (h : ∀ q, A q) {n : Nat} : touchLswRestart A n := ⟨touchLswState_all h, h _, touchLog_all h⟩
theorem lswRestart_keeps {n : ℕ} (hA : touchLswRestart A n)  (h : Keeps A s t) : Keeps A s (State.lswRestart t n) := by
  unfold State.lswRestart
  obtain ⟨_, _, _⟩ := hA
  repeat' (first
    | with_reducible assumption
    | intro y
    | (extract_lets +onlyGivenNames x; first | (refine cut (P := Keeps A s x) ?_ ?_; (on_goal 1 => (unfold x; clear x)); (on_goal 2 => (intro hx; first | clear_value x | skip))) | clear_value x | skip)
    | (with_reducible refine inc_keepsAt (by assumption) ?_)
    | (with_reducible refine inc_keeps (by assumption) ?_)
    | (with_reducible apply lswState_keeps (hA := by first | with_reducible assumption | with_reducible apply_assumption))
    | (with_reducible apply log_keeps (hA := by first | with_reducible assumption | with_reducible apply_assumption))
    | with_reducible apply keeps_ite
    | split
    | refine keeps_ite ?_ ?_)

def touchExecAutomaticRestart (A : Part → Prop) (n : Nat) : Prop := touchLswJunction A n ∧ touchLswRestart A n ∧ touchLswShut A n
theorem touchExecAutomaticRestart_all (h : ∀ q, A q) {n : Nat} : touchExecAutomaticRestart A n := ⟨touchLswJunction_all h, touchLswRestart_all h, touchLswShut_all h⟩
theorem execAutomaticRestart_next {n : ℕ} {t0 : ℕ} {tj : ℤ} (hA : touchExecAutomaticRestart A n) : ∃ u, execAutomaticRestart n t0 tj s = .next u ∧ Keeps A s u := by
  unfold execAutomaticRestart
  have h := Keeps.refl A s
  refine ⟨_, rfl, ?_⟩
  obtain ⟨_, _, _⟩ := hA
  repeat' (first
    | with_reducible assumption
    | intro y
    | (extract_lets +onlyGivenNames x; first | (refine cut (P := Keeps A s x) ?_ ?_; (on_goal 1 => (unfold x; clear x)); (on_goal 2 => (intro hx; first | clear_value x | skip))) | clear_value x | skip)
    | (with_reducible apply lswJunction_keeps (hA := by first | with_reducible assumption | with_reducible apply_assumption))
    | (with_reducible apply lswRestart_keeps (hA := by first | with_reducible assumption | with_reducible apply_assumption))
    | (with_reducible apply lswShut_keeps (hA := by first | with_reducible assumption | with_reducible apply_assumption))
    | with_reducible apply keeps_ite
    | split
    | refine keeps_ite ?_ ?_)

def touchExecRestartWindow (A : Part → Prop) (n : Nat) : Prop := A (.inst R.LSW_CH_STAT.RST_CNT n 0)
theorem touchExecRestartWindow_all (h : ∀ q, A q) {n : Nat} : touchExecRestartWindow A n := h _
theorem execRestartWindow_next {n : ℕ} {secs : ℕ} (hA : touchExecRestartWindow A n) : ∃ u, execRestartWindow n secs s = .next u ∧ Keeps A s u := by
  unfold execRestartWindow
  have h := Keeps.refl A s
  refine ⟨_, rfl, ?_⟩
  unfold touchExecRestartWindow at hA
  repeat' (first
    | with_reducible assumption
    | intro y
    | (extract_lets +onlyGivenNames x; first | (refine cut (P := Keeps A s x) ?_ ?_; (on_goal 1 => (unfold x; clear x)); (on_goal 2 => (intro hx; first | clear_value x | skip))) | clear_value x | skip)
    | (with_reducible refine put_keepsAt (by assumption) ?_)
    | (with_reducible refine put_keeps (by assumption) ?_)
    | with_reducible apply keeps_ite
    | split
    | refine keeps_ite ?_ ?_)

def touchBankMove (A : Part → Prop) : Prop := (∀ x0, touchLswState A x0)
theorem touchBankMove_all (h : ∀ q, A q) : touchBankMove A := fun _ => touchLswState_all h
theorem bankMove_keeps {b : ℕ} {old : ℕ} {new : ℕ} (hA : touchBankMove A)  (h : Keeps A s t) : Keeps A s (State.bankMove t b old new) := by
  unfold State.bankMove
  unfold touchBankMove at hA
  repeat' (first
    | with_reducible assumption
    | intro y
    | with_reducible apply each_keeps
    | (with_reducible apply lswState_keeps (hA := by first | with_reducible assumption | with_reducible apply_assumption))
    | with_reducible apply keeps_ite
    | split)

def touchBankUp (A : Part → Prop) : Prop := (∀ x0, touchLswState A x0)
theorem touchBankUp_all (h : ∀ q, A q) : touchBankUp A := (fun _ => touchLswState_all h)
theorem bankUp_keeps {b : ℕ} (hA : touchBankUp A)  (h : Keeps A s t) : Keeps A s (State.bankUp t b) := by
  unfold State.bankUp
  unfold touchBankUp at hA
  repeat' (first
    | with_reducible assumption
    | intro y
    | (extract_lets +onlyGivenNames x; first | (refine cut (P := Keeps A s x) ?_ ?_; (on_goal 1 => (unfold x; clear x)); (on_goal 2 => (intro hx; first | clear_value x | skip))) | clear_value x | skip)
    | (with_reducible apply lswState_keeps (hA := by first | with_reducible assumption | with_reducible apply_assumption))
    | with_reducible apply each_keeps
    | with_reducible apply keeps_ite
    | split
    | refine keeps_ite ?_ ?_)

def touchBankUv (A : Part → Prop) : Prop := A .lsw ∧ touchLog A ∧ touchLswBanks A
theorem touchBankUv_all (h : ∀ q, A q) : touchBankUv A := ⟨h _, touchLog_all h, touchLswBanks_all h⟩
theorem bankUv_keeps {b : ℕ} {on : Bool} (hA : touchBankUv A)  (h : Keeps A s t) : Keeps A s (State.bankUv t b on) := by
  unfold State.bankUv
  obtain ⟨_, _, _⟩ := hA
  repeat' (first
    | with_reducible assumption
    | intro y
    | (extract_lets +onlyGivenNames x; first | (refine cut (P := Keeps A s x) ?_ ?_; (on_goal 1 => (unfold x; clear x)); (on_goal 2 => (intro hx; first | clear_value x | skip))) | clear_value x | skip)
    | (with_reducible apply log_keeps (hA := by first | with_reducible assumption | with_reducible apply_assumption))
    | (with_reducible apply lswBanks_keeps (hA := by first | with_reducible assumption | with_reducible apply_assumption))
    | with_reducible apply keeps_ite
    | split
    | refine keeps_ite ?_ ?_
    | with_reducible exact keeps_lsw (by assumption) (by assumption))

def touchBankVolt (A : Part → Prop) : Prop := A (.reg R.PWR_VLS.VLSA) ∧ A (.reg R.PWR_VLS.VLSB)
theorem touchBankVolt_all (h : ∀ q, A q) : touchBankVolt A := ⟨h _, h _⟩
theorem bankVolt_keeps {b : ℕ} {mv : ℕ} (hA : touchBankVolt A)  (h : Keeps A s t) : Keeps A s (State.bankVolt t b mv) := by
  unfold State.bankVolt
  obtain ⟨_, _⟩ := hA
  repeat' (first
    | with_reducible assumption
    | intro y
    | (extract_lets +onlyGivenNames x; first | (refine cut (P := Keeps A s x) ?_ ?_; (on_goal 1 => (unfold x; clear x)); (on_goal 2 => (intro hx; first | clear_value x | skip))) | clear_value x | skip)
    | (with_reducible refine putMax_keepsAt (by assumption) ?_)
    | (with_reducible refine putMax_keeps (by assumption) ?_)
    | with_reducible apply keeps_ite
    | split
    | refine keeps_ite ?_ ?_)

def touchExecBankUndervoltage (A : Part → Prop) : Prop := touchBankVolt A ∧ touchBankUv A ∧ A (.reg R.LSW_BANK.UV_SEEN) ∧ touchBankMove A
theorem touchExecBankUndervoltage_all (h : ∀ q, A q) : touchExecBankUndervoltage A := ⟨touchBankVolt_all h, touchBankUv_all h, h _, touchBankMove_all h⟩
theorem execBankUndervoltage_next {b : ℕ} {mv : ℕ} {us : ℕ} (hA : touchExecBankUndervoltage A) : ∃ u, execBankUndervoltage b mv us s = .next u ∧ Keeps A s u := by
  unfold execBankUndervoltage
  have h := Keeps.refl A s
  refine ⟨_, rfl, ?_⟩
  obtain ⟨_, _, _, _⟩ := hA
  repeat' (first
    | with_reducible assumption
    | intro y
    | (extract_lets +onlyGivenNames x; first | (refine cut (P := Keeps A s x) ?_ ?_; (on_goal 1 => (unfold x; clear x)); (on_goal 2 => (intro hx; first | clear_value x | skip))) | clear_value x | skip)
    | (with_reducible refine put_keepsAt (by assumption) ?_)
    | (with_reducible refine put_keeps (by assumption) ?_)
    | (with_reducible apply bankVolt_keeps (hA := by first | with_reducible assumption | with_reducible apply_assumption))
    | (with_reducible apply bankUv_keeps (hA := by first | with_reducible assumption | with_reducible apply_assumption))
    | (with_reducible apply bankMove_keeps (hA := by first | with_reducible assumption | with_reducible apply_assumption))
    | with_reducible apply when_keeps
    | with_reducible apply keeps_ite
    | split
    | refine keeps_ite ?_ ?_)

def touchExecBankUndervoltageExit (A : Part → Prop) : Prop := touchBankUv A ∧ touchBankVolt A ∧ touchBankUp A
theorem touchExecBankUndervoltageExit_all (h : ∀ q, A q) : touchExecBankUndervoltageExit A := ⟨touchBankUv_all h, touchBankVolt_all h, touchBankUp_all h⟩
theorem execBankUndervoltageExit_next {b : ℕ} {mv : ℕ} (hA : touchExecBankUndervoltageExit A) : ∃ u, execBankUndervoltageExit b mv s = .next u ∧ Keeps A s u := by
  unfold execBankUndervoltageExit
  have h := Keeps.refl A s
  refine ⟨_, rfl, ?_⟩
  obtain ⟨_, _, _⟩ := hA
  repeat' (first
    | with_reducible assumption
    | intro y
    | (extract_lets +onlyGivenNames x; first | (refine cut (P := Keeps A s x) ?_ ?_; (on_goal 1 => (unfold x; clear x)); (on_goal 2 => (intro hx; first | clear_value x | skip))) | clear_value x | skip)
    | (with_reducible apply bankUv_keeps (hA := by first | with_reducible assumption | with_reducible apply_assumption))
    | (with_reducible apply bankVolt_keeps (hA := by first | with_reducible assumption | with_reducible apply_assumption))
    | (with_reducible apply bankUp_keeps (hA := by first | with_reducible assumption | with_reducible apply_assumption))
    | with_reducible apply when_keeps
    | with_reducible apply keeps_ite
    | split
    | refine keeps_ite ?_ ?_)

def touchLatchRelease (A : Part → Prop) (n : Nat) : Prop := touchLog A ∧ touchLswState A n ∧ A (.inst R.LSW_CH_STAT.RST_CNT n 0)
theorem touchLatchRelease_all (h : ∀ q, A q) {n : Nat} : touchLatchRelease A n := ⟨touchLog_all h, touchLswState_all h, h _⟩
theorem latchRelease_keeps {n : ℕ} (hA : touchLatchRelease A n)  (h : Keeps A s t) : Keeps A s (State.latchRelease t n) := by
  unfold State.latchRelease
  obtain ⟨_, _, _⟩ := hA
  repeat' (first
    | with_reducible assumption
    | intro y
    | (with_reducible apply log_keeps (hA := by first | with_reducible assumption | with_reducible apply_assumption))
    | (with_reducible apply lswState_keeps (hA := by first | with_reducible assumption | with_reducible apply_assumption))
    | (with_reducible refine put_keepsAt (by assumption) ?_)
    | (with_reducible refine put_keeps (by assumption) ?_)
    | with_reducible apply keeps_ite
    | split)

def touchExecLatchClear (A : Part → Prop) (n : Nat) : Prop := touchGuarded A ∧ touchLswJunction A n ∧ touchLatchRelease A n
theorem touchExecLatchClear_all (h : ∀ q, A q) {n : Nat} : touchExecLatchClear A n := ⟨touchGuarded_all h, touchLswJunction_all h, touchLatchRelease_all h⟩
theorem execLatchClear_next {sess : ℕ} {n : ℕ} {tj : ℤ} (hA : touchExecLatchClear A n) : ∃ u, execLatchClear sess n tj s = .next u ∧ Keeps A s u := by
  unfold execLatchClear
  have h := Keeps.refl A s
  refine ⟨_, rfl, ?_⟩
  obtain ⟨_, _, _⟩ := hA
  repeat' (first
    | with_reducible assumption
    | intro y
    | (extract_lets +onlyGivenNames x; first | (refine cut (P := Keeps A s x) ?_ ?_; (on_goal 1 => (unfold x; clear x)); (on_goal 2 => (intro hx; first | clear_value x | skip))) | clear_value x | skip)
    | (with_reducible apply guarded_keeps (hA := by first | with_reducible assumption | with_reducible apply_assumption))
    | (with_reducible apply lswJunction_keeps (hA := by first | with_reducible assumption | with_reducible apply_assumption))
    | (with_reducible apply latchRelease_keeps (hA := by first | with_reducible assumption | with_reducible apply_assumption))
    | with_reducible apply keeps_ite
    | split
    | refine keeps_ite ?_ ?_)

def touchExecSwitchChannels (A : Part → Prop) : Prop := touchLaRun A ∧ (∀ x0, touchLswCommand A x0) ∧ A .lsw
theorem touchExecSwitchChannels_all (h : ∀ q, A q) : touchExecSwitchChannels A := ⟨touchLaRun_all h, (fun _ => touchLswCommand_all h), h _⟩
theorem execSwitchChannels_next  (hA : touchExecSwitchChannels A) : ∃ u, execSwitchChannels s = .next u ∧ Keeps A s u := by
  unfold execSwitchChannels
  have h := Keeps.refl A s
  refine ⟨_, rfl, ?_⟩
  obtain ⟨_, _, _⟩ := hA
  repeat' (first
    | with_reducible assumption
    | intro y
    | (extract_lets +onlyGivenNames x; first | (refine cut (P := Keeps A s x) ?_ ?_; (on_goal 1 => (unfold x; clear x)); (on_goal 2 => (intro hx; first | clear_value x | skip))) | clear_value x | skip)
    | (with_reducible apply laRun_keeps (hA := by first | with_reducible assumption | with_reducible apply_assumption))
    | (with_reducible apply lswCommand_keeps (hA := by first | with_reducible assumption | with_reducible apply_assumption))
    | with_reducible apply each_keeps
    | with_reducible apply keeps_ite
    | split
    | refine keeps_ite ?_ ?_
    | with_reducible exact keeps_lsw (by assumption) (by assumption))

def touchExecOpenLoad (A : Part → Prop) (n : Nat) : Prop := A (.inst R.LSW_CH_MEAS.I_MEAS n 0) ∧ A (.inst R.LSW_CH_STAT.OL n 0) ∧ touchLog A
theorem touchExecOpenLoad_all (h : ∀ q, A q) {n : Nat} : touchExecOpenLoad A n := ⟨h _, h _, touchLog_all h⟩
theorem execOpenLoad_next {n : ℕ} {ms : ℕ} {i : ℕ} (hA : touchExecOpenLoad A n) : ∃ u, execOpenLoad n ms i s = .next u ∧ Keeps A s u := by
  unfold execOpenLoad
  have h := Keeps.refl A s
  refine ⟨_, rfl, ?_⟩
  obtain ⟨_, _, _⟩ := hA
  repeat' (first
    | with_reducible assumption
    | intro y
    | (extract_lets +onlyGivenNames x; first | (refine cut (P := Keeps A s x) ?_ ?_; (on_goal 1 => (unfold x; clear x)); (on_goal 2 => (intro hx; first | clear_value x | skip))) | clear_value x | skip)
    | (with_reducible refine put_keepsAt (by assumption) ?_)
    | (with_reducible refine put_keeps (by assumption) ?_)
    | (with_reducible refine putMax_keepsAt (by assumption) ?_)
    | (with_reducible refine putMax_keeps (by assumption) ?_)
    | (with_reducible apply log_keeps (hA := by first | with_reducible assumption | with_reducible apply_assumption))
    | with_reducible apply keeps_ite
    | split
    | refine keeps_ite ?_ ?_)

end Sys2Proof.Laws
end

