-- ==== Sys2Proof/Laws/KeepsTimebase.lean ====
section
/-! SUPPORT. What the operations of Machine/Timebase.lean leave alone: for each the parts it may change (`touch…`) and its lemma. -/

namespace Sys2Proof.Laws

open Sys2Proof.Machine

set_option linter.unusedTactic false
set_option linter.unreachableTactic false
set_option linter.unusedVariables false
set_option linter.tactic.unusedName false

variable {A : Part → Prop} {s t : State}

def touchExecTbAcquireLock (A : Part → Prop) : Prop := touchSetFloc A ∧ touchSetStamp A ∧ A (.reg R.TB_STAT.ACQUIRED) ∧ touchSetSrc A ∧ touchTbState A ∧ touchSetErr A ∧ A .tb ∧ touchGridSeen A ∧ touchSetReady A ∧ touchLog A ∧ touchLogNumbering A ∧ touchGridFollow A
theorem touchExecTbAcquireLock_all (h : ∀ q, A q) : touchExecTbAcquireLock A := ⟨touchSetFloc_all h, touchSetStamp_all h, h _, touchSetSrc_all h, touchTbState_all h, touchSetErr_all h, h _, touchGridSeen_all h, touchSetReady_all h, touchLog_all h, touchLogNumbering_all h, touchGridFollow_all h⟩
theorem execTbAcquireLock_next {src : ℕ} {srcStamp : ℕ} {f : ℕ} {cycles : ℕ} (hA : touchExecTbAcquireLock A) : ∃ u, execTbAcquireLock src srcStamp f cycles s = .next u ∧ Keeps A s u := by
  unfold execTbAcquireLock
  have h := Keeps.refl A s
  refine ⟨_, rfl, ?_⟩
  obtain ⟨_, _, _, _, _, _, _, _, _, _, _, _⟩ := hA
  repeat' (first
    | with_reducible assumption
    | intro y
    | (extract_lets +onlyGivenNames x; first | (refine cut (P := Keeps A s x) ?_ ?_; (on_goal 1 => (unfold x; clear x)); (on_goal 2 => (intro hx; first | clear_value x | skip))) | clear_value x | skip)
    | (with_reducible refine put_keepsAt (by assumption) ?_)
    | (with_reducible refine put_keeps (by assumption) ?_)
    | (with_reducible apply setFloc_keeps (hA := by first | with_reducible assumption | with_reducible apply_assumption))
    | (with_reducible apply setStamp_keeps (hA := by first | with_reducible assumption | with_reducible apply_assumption))
    | (with_reducible apply setSrc_keeps (hA := by first | with_reducible assumption | with_reducible apply_assumption))
    | (with_reducible apply tbState_keeps (hA := by first | with_reducible assumption | with_reducible apply_assumption))
    | (with_reducible apply setErr_keeps (hA := by first | with_reducible assumption | with_reducible apply_assumption))
    | (with_reducible apply gridSeen_keeps (hA := by first | with_reducible assumption | with_reducible apply_assumption))
    | (with_reducible apply setReady_keeps (hA := by first | with_reducible assumption | with_reducible apply_assumption))
    | (with_reducible apply log_keeps (hA := by first | with_reducible assumption | with_reducible apply_assumption))
    | (with_reducible apply logNumbering_keeps (hA := by first | with_reducible assumption | with_reducible apply_assumption))
    | (with_reducible apply gridFollow_keeps (hA := by first | with_reducible assumption | with_reducible apply_assumption))
    | with_reducible apply when_keeps
    | with_reducible apply keeps_ite
    | split
    | refine keeps_ite ?_ ?_
    | with_reducible exact keeps_tb (by assumption) (by assumption))

def touchExecTbAcquireTimeout (A : Part → Prop) : Prop := A .keep ∧ touchTbHoldover A ∧ touchSetFloc A ∧ touchSetStamp A ∧ A (.reg R.TB_STAT.ACQUIRED) ∧ touchLogNumbering A ∧ touchSetReady A
theorem touchExecTbAcquireTimeout_all (h : ∀ q, A q) : touchExecTbAcquireTimeout A := ⟨h _, touchTbHoldover_all h, touchSetFloc_all h, touchSetStamp_all h, h _, touchLogNumbering_all h, touchSetReady_all h⟩
theorem execTbAcquireTimeout_next {ms : ℕ} (hA : touchExecTbAcquireTimeout A) : ∃ u, execTbAcquireTimeout ms s = .next u ∧ Keeps A s u := by
  unfold execTbAcquireTimeout
  have h := Keeps.refl A s
  refine ⟨_, rfl, ?_⟩
  obtain ⟨_, _, _, _, _, _, _⟩ := hA
  repeat' (first
    | with_reducible assumption
    | intro y
    | (extract_lets +onlyGivenNames x; first | (refine cut (P := Keeps A s x) ?_ ?_; (on_goal 1 => (unfold x; clear x)); (on_goal 2 => (intro hx; first | clear_value x | skip))) | clear_value x | skip)
    | (with_reducible apply tbHoldover_keeps (hA := by first | with_reducible assumption | with_reducible apply_assumption))
    | (with_reducible apply setFloc_keeps (hA := by first | with_reducible assumption | with_reducible apply_assumption))
    | (with_reducible apply setStamp_keeps (hA := by first | with_reducible assumption | with_reducible apply_assumption))
    | (with_reducible refine put_keepsAt (by assumption) ?_)
    | (with_reducible refine put_keeps (by assumption) ?_)
    | (with_reducible apply logNumbering_keeps (hA := by first | with_reducible assumption | with_reducible apply_assumption))
    | (with_reducible apply setReady_keeps (hA := by first | with_reducible assumption | with_reducible apply_assumption))
    | with_reducible apply keeps_ite
    | split
    | refine keeps_ite ?_ ?_
    | with_reducible exact keeps_keep (by assumption) (by assumption))

def touchExecTbSourceLost (A : Part → Prop) : Prop := touchGridGone A ∧ touchAmpShow A ∧ A (.reg R.TB_AMP.VA) ∧ touchSetErr A ∧ touchSetSrc A ∧ touchTbState A ∧ A .tb ∧ touchTbHoldover A ∧ touchLog A
theorem touchExecTbSourceLost_all (h : ∀ q, A q) : touchExecTbSourceLost A := ⟨touchGridGone_all h, touchAmpShow_all h, h _, touchSetErr_all h, touchSetSrc_all h, touchTbState_all h, h _, touchTbHoldover_all h, touchLog_all h⟩
theorem execTbSourceLost_next {src : ℕ} {cause : ℕ} {m : ℕ} {next : Option (ℕ × ℕ × ℕ)} (hA : touchExecTbSourceLost A) : ∃ u, execTbSourceLost src cause m next s = .next u ∧ Keeps A s u := by
  unfold execTbSourceLost
  have h := Keeps.refl A s
  refine ⟨_, rfl, ?_⟩
  obtain ⟨_, _, _, _, _, _, _, _, _⟩ := hA
  repeat' (first
    | with_reducible assumption
    | intro y
    | (extract_lets +onlyGivenNames x; first | (refine cut (P := Keeps A s x) ?_ ?_; (on_goal 1 => (unfold x; clear x)); (on_goal 2 => (intro hx; first | clear_value x | skip))) | clear_value x | skip)
    | (with_reducible refine putMax_keepsAt (by assumption) ?_)
    | (with_reducible refine putMax_keeps (by assumption) ?_)
    | (with_reducible apply gridGone_keeps (hA := by first | with_reducible assumption | with_reducible apply_assumption))
    | (with_reducible apply ampShow_keeps (hA := by first | with_reducible assumption | with_reducible apply_assumption))
    | (with_reducible apply setErr_keeps (hA := by first | with_reducible assumption | with_reducible apply_assumption))
    | (with_reducible apply setSrc_keeps (hA := by first | with_reducible assumption | with_reducible apply_assumption))
    | (with_reducible apply tbState_keeps (hA := by first | with_reducible assumption | with_reducible apply_assumption))
    | (with_reducible apply tbHoldover_keeps (hA := by first | with_reducible assumption | with_reducible apply_assumption))
    | (with_reducible apply log_keeps (hA := by first | with_reducible assumption | with_reducible apply_assumption))
    | with_reducible apply when_keeps
    | with_reducible apply keeps_ite
    | split
    | refine keeps_ite ?_ ?_
    | with_reducible exact keeps_tb (by assumption) (by assumption))

def touchExecGridPhaseJump (A : Part → Prop) : Prop := touchLog A ∧ touchGridGone A ∧ touchTbHoldover A
theorem touchExecGridPhaseJump_all (h : ∀ q, A q) : touchExecGridPhaseJump A := ⟨touchLog_all h, touchGridGone_all h, touchTbHoldover_all h⟩
theorem execGridPhaseJump_next {jump : ℤ} (hA : touchExecGridPhaseJump A) : ∃ u, execGridPhaseJump jump s = .next u ∧ Keeps A s u := by
  unfold execGridPhaseJump
  have h := Keeps.refl A s
  refine ⟨_, rfl, ?_⟩
  obtain ⟨_, _, _⟩ := hA
  repeat' (first
    | with_reducible assumption
    | intro y
    | (extract_lets +onlyGivenNames x; first | (refine cut (P := Keeps A s x) ?_ ?_; (on_goal 1 => (unfold x; clear x)); (on_goal 2 => (intro hx; first | clear_value x | skip))) | clear_value x | skip)
    | (with_reducible apply log_keeps (hA := by first | with_reducible assumption | with_reducible apply_assumption))
    | (with_reducible apply gridGone_keeps (hA := by first | with_reducible assumption | with_reducible apply_assumption))
    | (with_reducible apply tbHoldover_keeps (hA := by first | with_reducible assumption | with_reducible apply_assumption))
    | with_reducible apply when_keeps
    | with_reducible apply keeps_ite
    | split
    | refine keeps_ite ?_ ?_)

def touchExecLineFault (A : Part → Prop) : Prop := touchLog A ∧ touchAmpShow A ∧ A (.reg R.TB_STAT.LINE_FLT)
theorem touchExecLineFault_all (h : ∀ q, A q) : touchExecLineFault A := ⟨touchLog_all h, touchAmpShow_all h, h _⟩
theorem execLineFault_next {lines : ℕ} (hA : touchExecLineFault A) : ∃ u, execLineFault lines s = .next u ∧ Keeps A s u := by
  unfold execLineFault
  have h := Keeps.refl A s
  refine ⟨_, rfl, ?_⟩
  obtain ⟨_, _, _⟩ := hA
  repeat' (first
    | with_reducible assumption
    | intro y
    | (extract_lets +onlyGivenNames x; first | (refine cut (P := Keeps A s x) ?_ ?_; (on_goal 1 => (unfold x; clear x)); (on_goal 2 => (intro hx; first | clear_value x | skip))) | clear_value x | skip)
    | (with_reducible refine put_keepsAt (by assumption) ?_)
    | (with_reducible refine put_keeps (by assumption) ?_)
    | (with_reducible apply log_keeps (hA := by first | with_reducible assumption | with_reducible apply_assumption))
    | (with_reducible apply ampShow_keeps (hA := by first | with_reducible assumption | with_reducible apply_assumption))
    | with_reducible apply keeps_ite
    | split
    | refine keeps_ite ?_ ?_)

def touchExecLineFaultClear (A : Part → Prop) : Prop := A (.reg R.TB_STAT.LINE_FLT)
theorem touchExecLineFaultClear_all (h : ∀ q, A q) : touchExecLineFaultClear A := h _
theorem execLineFaultClear_next {cycles : ℕ} (hA : touchExecLineFaultClear A) : ∃ u, execLineFaultClear cycles s = .next u ∧ Keeps A s u := by
  unfold execLineFaultClear
  have h := Keeps.refl A s
  refine ⟨_, rfl, ?_⟩
  unfold touchExecLineFaultClear at hA
  repeat' (first
    | with_reducible assumption
    | intro y
    | (with_reducible refine put_keepsAt (by assumption) ?_)
    | (with_reducible refine put_keeps (by assumption) ?_)
    | with_reducible apply keeps_ite
    | split)

def touchExecTbSlewEntry (A : Part → Prop) : Prop := touchTbState A ∧ touchSetErr A ∧ A (.reg R.TB_FREQ_GRID.FGRID) ∧ touchLog A ∧ A .tb
theorem touchExecTbSlewEntry_all (h : ∀ q, A q) : touchExecTbSlewEntry A := ⟨touchTbState_all h, touchSetErr_all h, h _, touchLog_all h, h _⟩
theorem execTbSlewEntry_next {e : ℤ} {f : ℕ} (hA : touchExecTbSlewEntry A) : ∃ u, execTbSlewEntry e f s = .next u ∧ Keeps A s u := by
  unfold execTbSlewEntry
  have h := Keeps.refl A s
  refine ⟨_, rfl, ?_⟩
  obtain ⟨_, _, _, _, _⟩ := hA
  repeat' (first
    | with_reducible assumption
    | intro y
    | (extract_lets +onlyGivenNames x; first | (refine cut (P := Keeps A s x) ?_ ?_; (on_goal 1 => (unfold x; clear x)); (on_goal 2 => (intro hx; first | clear_value x | skip))) | clear_value x | skip)
    | (with_reducible refine put_keepsAt (by assumption) ?_)
    | (with_reducible refine put_keeps (by assumption) ?_)
    | (with_reducible apply tbState_keeps (hA := by first | with_reducible assumption | with_reducible apply_assumption))
    | (with_reducible apply setErr_keeps (hA := by first | with_reducible assumption | with_reducible apply_assumption))
    | (with_reducible apply log_keeps (hA := by first | with_reducible assumption | with_reducible apply_assumption))
    | with_reducible apply when_keeps
    | with_reducible apply keeps_ite
    | split
    | refine keeps_ite ?_ ?_
    | with_reducible exact keeps_tb (by assumption) (by assumption))

def touchExecTbSlewLocked (A : Part → Prop) : Prop := touchLog A ∧ touchTbState A ∧ touchSetErr A ∧ A .tb
theorem touchExecTbSlewLocked_all (h : ∀ q, A q) : touchExecTbSlewLocked A := ⟨touchLog_all h, touchTbState_all h, touchSetErr_all h, h _⟩
theorem execTbSlewLocked_next {e : ℤ} {cycles : ℕ} {ms : ℕ} (hA : touchExecTbSlewLocked A) : ∃ u, execTbSlewLocked e cycles ms s = .next u ∧ Keeps A s u := by
  unfold execTbSlewLocked
  have h := Keeps.refl A s
  refine ⟨_, rfl, ?_⟩
  obtain ⟨_, _, _, _⟩ := hA
  repeat' (first
    | with_reducible assumption
    | intro y
    | (extract_lets +onlyGivenNames x; first | (refine cut (P := Keeps A s x) ?_ ?_; (on_goal 1 => (unfold x; clear x)); (on_goal 2 => (intro hx; first | clear_value x | skip))) | clear_value x | skip)
    | (with_reducible apply log_keeps (hA := by first | with_reducible assumption | with_reducible apply_assumption))
    | (with_reducible apply tbState_keeps (hA := by first | with_reducible assumption | with_reducible apply_assumption))
    | (with_reducible apply setErr_keeps (hA := by first | with_reducible assumption | with_reducible apply_assumption))
    | with_reducible apply when_keeps
    | with_reducible apply keeps_ite
    | split
    | refine keeps_ite ?_ ?_
    | with_reducible exact keeps_tb (by assumption) (by assumption))

def touchExecTbSourceTaken (A : Part → Prop) : Prop := touchGridFollow A ∧ touchSetErr A ∧ touchSetSrc A ∧ touchTbState A ∧ A .tb ∧ touchLog A
theorem touchExecTbSourceTaken_all (h : ∀ q, A q) : touchExecTbSourceTaken A := ⟨touchGridFollow_all h, touchSetErr_all h, touchSetSrc_all h, touchTbState_all h, h _, touchLog_all h⟩
theorem execTbSourceTaken_next {src : ℕ} {srcStamp : ℕ} {f : ℕ} {cycles : ℕ} (hA : touchExecTbSourceTaken A) : ∃ u, execTbSourceTaken src srcStamp f cycles s = .next u ∧ Keeps A s u := by
  unfold execTbSourceTaken
  have h := Keeps.refl A s
  refine ⟨_, rfl, ?_⟩
  obtain ⟨_, _, _, _, _, _⟩ := hA
  repeat' (first
    | with_reducible assumption
    | intro y
    | (extract_lets +onlyGivenNames x; first | (refine cut (P := Keeps A s x) ?_ ?_; (on_goal 1 => (unfold x; clear x)); (on_goal 2 => (intro hx; first | clear_value x | skip))) | clear_value x | skip)
    | (with_reducible apply gridFollow_keeps (hA := by first | with_reducible assumption | with_reducible apply_assumption))
    | (with_reducible apply setErr_keeps (hA := by first | with_reducible assumption | with_reducible apply_assumption))
    | (with_reducible apply setSrc_keeps (hA := by first | with_reducible assumption | with_reducible apply_assumption))
    | (with_reducible apply tbState_keeps (hA := by first | with_reducible assumption | with_reducible apply_assumption))
    | (with_reducible apply log_keeps (hA := by first | with_reducible assumption | with_reducible apply_assumption))
    | with_reducible apply when_keeps
    | with_reducible apply keeps_ite
    | split
    | refine keeps_ite ?_ ?_
    | with_reducible exact keeps_tb (by assumption) (by assumption))

def touchStampsMoved (A : Part → Prop) : Prop := A .phx ∧ A .plc ∧ A .bil ∧ A .cs
theorem touchStampsMoved_all (h : ∀ q, A q) : touchStampsMoved A := ⟨h _, h _, h _, h _⟩
theorem stampsMoved_keeps {k : ℤ} (hA : touchStampsMoved A)  (h : Keeps A s t) : Keeps A s (State.stampsMoved t k) := by
  unfold State.stampsMoved
  obtain ⟨_, _, _, _⟩ := hA
  repeat' (first
    | with_reducible assumption
    | intro y
    | (extract_lets +onlyGivenNames x; first | (refine cut (P := Keeps A s x) ?_ ?_; (on_goal 1 => (unfold x; clear x)); (on_goal 2 => (intro hx; first | clear_value x | skip))) | clear_value x | skip)
    | with_reducible apply keeps_ite
    | split
    | refine keeps_ite ?_ ?_
    | with_reducible exact keeps_phx_plc_bil_cs (by assumption) (by assumption) (by assumption) (by assumption) (by assumption))

def touchExecCycleRenumber (A : Part → Prop) : Prop := A (.reg R.TB_STAT.RENUM_SEEN) ∧ A (.reg R.TB_STAMP_LO.STAMP) ∧ A (.reg R.TB_STAMP_HI.STAMP) ∧ A .tb ∧ touchLog A ∧ touchStampsMoved A ∧ touchLogNumbering A ∧ A .keep ∧ touchLaRenumber A ∧ touchOfsCommitted A
theorem touchExecCycleRenumber_all (h : ∀ q, A q) : touchExecCycleRenumber A := ⟨h _, h _, h _, h _, touchLog_all h, touchStampsMoved_all h, touchLogNumbering_all h, h _, touchLaRenumber_all h, touchOfsCommitted_all h⟩
theorem execCycleRenumber_next  (hA : touchExecCycleRenumber A) : ∃ u, execCycleRenumber s = .next u ∧ Keeps A s u := by
  unfold execCycleRenumber
  have h := Keeps.refl A s
  refine ⟨_, rfl, ?_⟩
  obtain ⟨_, _, _, _, _, _, _, _, _, _⟩ := hA
  repeat' (first
    | with_reducible assumption
    | intro y
    | (extract_lets +onlyGivenNames x; first | (refine cut (P := Keeps A s x) ?_ ?_; (on_goal 1 => (unfold x; clear x)); (on_goal 2 => (intro hx; first | clear_value x | skip))) | clear_value x | skip)
    | (with_reducible refine put_keepsAt (by assumption) ?_)
    | (with_reducible refine put_keeps (by assumption) ?_)
    | (with_reducible refine put2_keepsAt (by assumption) (by assumption) ?_)
    | (with_reducible refine put2_keeps (by assumption) (by assumption) ?_)
    | (with_reducible apply log_keeps (hA := by first | with_reducible assumption | with_reducible apply_assumption))
    | (with_reducible apply stampsMoved_keeps (hA := by first | with_reducible assumption | with_reducible apply_assumption))
    | (with_reducible apply logNumbering_keeps (hA := by first | with_reducible assumption | with_reducible apply_assumption))
    | (with_reducible apply laRenumber_keeps (hA := by first | with_reducible assumption | with_reducible apply_assumption))
    | (with_reducible apply ofsCommitted_keeps (hA := by first | with_reducible assumption | with_reducible apply_assumption))
    | with_reducible apply when_keeps
    | with_reducible apply eachBit_keeps
    | with_reducible apply keeps_ite
    | split
    | refine keeps_ite ?_ ?_
    | with_reducible exact keeps_tb (by assumption) (by assumption)
    | with_reducible exact keeps_keep (by assumption) (by assumption))

def touchExecRefclkLost (A : Part → Prop) : Prop := touchLog A ∧ A (.reg R.TB_STAT.REF_LOST_SEEN) ∧ A (.reg R.TB_STAT.REF) ∧ A .keep
theorem touchExecRefclkLost_all (h : ∀ q, A q) : touchExecRefclkLost A := ⟨touchLog_all h, h _, h _, h _⟩
theorem execRefclkLost_next  (hA : touchExecRefclkLost A) : ∃ u, execRefclkLost s = .next u ∧ Keeps A s u := by
  unfold execRefclkLost
  have h := Keeps.refl A s
  refine ⟨_, rfl, ?_⟩
  obtain ⟨_, _, _, _⟩ := hA
  repeat' (first
    | with_reducible assumption
    | intro y
    | (extract_lets +onlyGivenNames x; first | (refine cut (P := Keeps A s x) ?_ ?_; (on_goal 1 => (unfold x; clear x)); (on_goal 2 => (intro hx; first | clear_value x | skip))) | clear_value x | skip)
    | (with_reducible refine put_keepsAt (by assumption) ?_)
    | (with_reducible refine put_keeps (by assumption) ?_)
    | (with_reducible apply log_keeps (hA := by first | with_reducible assumption | with_reducible apply_assumption))
    | with_reducible apply keeps_ite
    | split
    | refine keeps_ite ?_ ?_
    | with_reducible exact keeps_keep (by assumption) (by assumption))

def touchExecDllUnlock (A : Part → Prop) : Prop := A (.reg R.TB_DLL.UNLK_CNT) ∧ A (.reg R.TB_DLL.TAP_PS) ∧ A (.reg R.TB_DLL.LOCK) ∧ A (.reg R.TB_STAT.DLL_LOCK) ∧ touchLog A ∧ A (.reg R.PE_STAT.DLL_HOLD) ∧ A (.reg R.TB_STAT.DLL_UNLK_SEEN)
theorem touchExecDllUnlock_all (h : ∀ q, A q) : touchExecDllUnlock A := ⟨h _, h _, h _, h _, touchLog_all h, h _, h _⟩
theorem execDllUnlock_next {tapPs : ℕ} {periods : ℕ} (hA : touchExecDllUnlock A) : ∃ u, execDllUnlock tapPs periods s = .next u ∧ Keeps A s u := by
  unfold execDllUnlock
  have h := Keeps.refl A s
  refine ⟨_, rfl, ?_⟩
  obtain ⟨_, _, _, _, _, _, _⟩ := hA
  repeat' (first
    | with_reducible assumption
    | intro y
    | (extract_lets +onlyGivenNames x; first | (refine cut (P := Keeps A s x) ?_ ?_; (on_goal 1 => (unfold x; clear x)); (on_goal 2 => (intro hx; first | clear_value x | skip))) | clear_value x | skip)
    | (with_reducible refine inc_keepsAt (by assumption) ?_)
    | (with_reducible refine inc_keeps (by assumption) ?_)
    | (with_reducible refine putMax_keepsAt (by assumption) ?_)
    | (with_reducible refine putMax_keeps (by assumption) ?_)
    | (with_reducible refine put_keepsAt (by assumption) ?_)
    | (with_reducible refine put_keeps (by assumption) ?_)
    | (with_reducible apply log_keeps (hA := by first | with_reducible assumption | with_reducible apply_assumption))
    | with_reducible apply keeps_ite
    | split
    | refine keeps_ite ?_ ?_)

def touchExecDllRelock (A : Part → Prop) : Prop := touchLog A ∧ A (.reg R.PE_STAT.DLL_HOLD) ∧ A (.reg R.TB_DLL.TAP_PS) ∧ A (.reg R.TB_DLL.LOCK) ∧ A (.reg R.TB_STAT.DLL_LOCK)
theorem touchExecDllRelock_all (h : ∀ q, A q) : touchExecDllRelock A := ⟨touchLog_all h, h _, h _, h _, h _⟩
theorem execDllRelock_next {tapPs : ℕ} (hA : touchExecDllRelock A) : ∃ u, execDllRelock tapPs s = .next u ∧ Keeps A s u := by
  unfold execDllRelock
  have h := Keeps.refl A s
  refine ⟨_, rfl, ?_⟩
  obtain ⟨_, _, _, _, _⟩ := hA
  repeat' (first
    | with_reducible assumption
    | intro y
    | (with_reducible apply log_keeps (hA := by first | with_reducible assumption | with_reducible apply_assumption))
    | (with_reducible refine put_keepsAt (by assumption) ?_)
    | (with_reducible refine put_keeps (by assumption) ?_)
    | with_reducible apply keeps_ite
    | split)

def touchExecKeeperCommit (A : Part → Prop) : Prop := touchKeepCommit A
theorem touchExecKeeperCommit_all (h : ∀ q, A q) : touchExecKeeperCommit A := touchKeepCommit_all h
theorem execKeeperCommit_next  (hA : touchExecKeeperCommit A) : ∃ u, execKeeperCommit s = .next u ∧ Keeps A s u := by
  unfold execKeeperCommit
  have h := Keeps.refl A s
  refine ⟨_, rfl, ?_⟩
  unfold touchExecKeeperCommit at hA
  repeat' (first
    | with_reducible assumption
    | intro y
    | (extract_lets +onlyGivenNames x; first | (refine cut (P := Keeps A s x) ?_ ?_; (on_goal 1 => (unfold x; clear x)); (on_goal 2 => (intro hx; first | clear_value x | skip))) | clear_value x | skip)
    | (with_reducible apply keepCommit_keeps (hA := by first | with_reducible assumption | with_reducible apply_assumption))
    | with_reducible apply keeps_ite
    | split
    | refine keeps_ite ?_ ?_)

def touchExecNcarChange (A : Part → Prop) (g : Nat) : Prop := A (.inst R.TB_GRP_CAR.NCAR_ACT g 0)
theorem touchExecNcarChange_all (h : ∀ q, A q) {g : Nat} : touchExecNcarChange A g := h _
theorem execNcarChange_next {g : ℕ} (hA : touchExecNcarChange A g) : ∃ u, execNcarChange g s = .next u ∧ Keeps A s u := by
  unfold execNcarChange
  have h := Keeps.refl A s
  refine ⟨_, rfl, ?_⟩
  unfold touchExecNcarChange at hA
  repeat' (first
    | with_reducible assumption
    | intro y
    | (extract_lets +onlyGivenNames x; first | (refine cut (P := Keeps A s x) ?_ ?_; (on_goal 1 => (unfold x; clear x)); (on_goal 2 => (intro hx; first | clear_value x | skip))) | clear_value x | skip)
    | (with_reducible refine put_keepsAt (by assumption) ?_)
    | (with_reducible refine put_keeps (by assumption) ?_)
    | with_reducible apply keeps_ite
    | split
    | refine keeps_ite ?_ ?_)

def touchOfsCommitWrite (A : Part → Prop) : Prop := touchOfsArm A
theorem touchOfsCommitWrite_all (h : ∀ q, A q) : touchOfsCommitWrite A := touchOfsArm_all h
theorem ofsCommitWrite_keeps  (hA : touchOfsCommitWrite A)  (h : Keeps A s t) : Keeps A s (State.ofsCommitWrite t) := by
  unfold State.ofsCommitWrite
  unfold touchOfsCommitWrite at hA
  repeat' (first
    | with_reducible assumption
    | intro y
    | (with_reducible apply ofsArm_keeps (hA := by first | with_reducible assumption | with_reducible apply_assumption))
    | with_reducible apply keeps_ite
    | split)

def touchExecOffsetCommit (A : Part → Prop) : Prop := touchGuarded A ∧ touchOfsCommitWrite A
theorem touchExecOffsetCommit_all (h : ∀ q, A q) : touchExecOffsetCommit A := ⟨touchGuarded_all h, touchOfsCommitWrite_all h⟩
theorem execOffsetCommit_next {sess : ℕ} (hA : touchExecOffsetCommit A) : ∃ u, execOffsetCommit sess s = .next u ∧ Keeps A s u := by
  unfold execOffsetCommit
  have h := Keeps.refl A s
  refine ⟨_, rfl, ?_⟩
  obtain ⟨_, _⟩ := hA
  repeat' (first
    | with_reducible assumption
    | intro y
    | (with_reducible apply guarded_keeps (hA := by first | with_reducible assumption | with_reducible apply_assumption))
    | (with_reducible apply ofsCommitWrite_keeps (hA := by first | with_reducible assumption | with_reducible apply_assumption))
    | with_reducible apply keeps_ite
    | split)

def touchExecOffsetCommitTaken (A : Part → Prop) : Prop := touchOfsCommitted A
theorem touchExecOffsetCommitTaken_all (h : ∀ q, A q) : touchExecOffsetCommitTaken A := touchOfsCommitted_all h
theorem execOffsetCommitTaken_next {g : ℕ} (hA : touchExecOffsetCommitTaken A) : ∃ u, execOffsetCommitTaken g s = .next u ∧ Keeps A s u := by
  unfold execOffsetCommitTaken
  have h := Keeps.refl A s
  refine ⟨_, rfl, ?_⟩
  unfold touchExecOffsetCommitTaken at hA
  repeat' (first
    | with_reducible assumption
    | intro y
    | (with_reducible apply ofsCommitted_keeps (hA := by first | with_reducible assumption | with_reducible apply_assumption))
    | with_reducible apply keeps_ite
    | split)

def touchExecAnglePulseOut (A : Part → Prop) : Prop := A .pins ∧ A .tb
theorem touchExecAnglePulseOut_all (h : ∀ q, A q) : touchExecAnglePulseOut A := ⟨h _, h _⟩
theorem execAnglePulseOut_next  (hA : touchExecAnglePulseOut A) : ∃ u, execAnglePulseOut s = .next u ∧ Keeps A s u := by
  unfold execAnglePulseOut
  have h := Keeps.refl A s
  refine ⟨_, rfl, ?_⟩
  obtain ⟨_, _⟩ := hA
  repeat' (first
    | with_reducible assumption
    | intro y
    | (extract_lets +onlyGivenNames x; first | (refine cut (P := Keeps A s x) ?_ ?_; (on_goal 1 => (unfold x; clear x)); (on_goal 2 => (intro hx; first | clear_value x | skip))) | clear_value x | skip)
    | with_reducible apply keeps_ite
    | split
    | refine keeps_ite ?_ ?_
    | with_reducible exact keeps_pins_tb (by assumption) (by assumption) (by assumption))

def touchExecAnglePulseCapture (A : Part → Prop) : Prop := A (.reg R.TB_API_CAP_FR.FRAC) ∧ A (.reg R.TB_API_CAP_LO.STAMP) ∧ A (.reg R.TB_API_CAP_HI.STAMP) ∧ A (.reg R.TB_API_CFG.API_PRESENT) ∧ A .tb ∧ touchSetErr A
theorem touchExecAnglePulseCapture_all (h : ∀ q, A q) : touchExecAnglePulseCapture A := ⟨h _, h _, h _, h _, h _, touchSetErr_all h⟩
theorem execAnglePulseCapture_next {edge : ℕ} (hA : touchExecAnglePulseCapture A) : ∃ u, execAnglePulseCapture edge s = .next u ∧ Keeps A s u := by
  unfold execAnglePulseCapture
  have h := Keeps.refl A s
  refine ⟨_, rfl, ?_⟩
  obtain ⟨_, _, _, _, _, _⟩ := hA
  repeat' (first
    | with_reducible assumption
    | intro y
    | (extract_lets +onlyGivenNames x; first | (refine cut (P := Keeps A s x) ?_ ?_; (on_goal 1 => (unfold x; clear x)); (on_goal 2 => (intro hx; first | clear_value x | skip))) | clear_value x | skip)
    | (with_reducible refine put_keepsAt (by assumption) ?_)
    | (with_reducible refine put_keeps (by assumption) ?_)
    | (with_reducible refine putb_keepsAt (by assumption) ?_)
    | (with_reducible refine putb_keeps (by assumption) ?_)
    | (with_reducible refine put2_keepsAt (by assumption) (by assumption) ?_)
    | (with_reducible refine put2_keeps (by assumption) (by assumption) ?_)
    | (with_reducible apply setErr_keeps (hA := by first | with_reducible assumption | with_reducible apply_assumption))
    | with_reducible apply when_keeps
    | with_reducible apply keeps_ite
    | split
    | refine keeps_ite ?_ ?_
    | with_reducible exact keeps_tb (by assumption) (by assumption))

end Sys2Proof.Laws
end

