-- ==== Sys2Proof/Laws/KeepsUpdOps.lean ====
section
/-! SUPPORT. What the operations of Machine/UpdOps.lean leave alone: for each the parts it may change (`touch…`) and its lemma. -/

namespace Sys2Proof.Laws

open Sys2Proof.Machine

set_option linter.unusedTactic false
set_option linter.unreachableTactic false
set_option linter.unusedVariables false
set_option linter.tactic.unusedName false

variable {A : Part → Prop} {s t : State}

def touchUpdBegin (A : Part → Prop) : Prop := A (.reg R.UPD_STAT.OP) ∧ A (.reg R.UPD_STAT.BUSY)
theorem touchUpdBegin_all (h : ∀ q, A q) : touchUpdBegin A := ⟨h _, h _⟩
theorem updBegin_keeps {op : ℕ} (hA : touchUpdBegin A)  (h : Keeps A s t) : Keeps A s (State.updBegin t op) := by
  unfold State.updBegin
  obtain ⟨_, _⟩ := hA
  repeat' (first
    | with_reducible assumption
    | intro y
    | (with_reducible refine put_keepsAt (by assumption) ?_)
    | (with_reducible refine put_keeps (by assumption) ?_)
    | with_reducible apply keeps_ite
    | split)

def touchUpdEnd (A : Part → Prop) : Prop := A (.reg R.UPD_STAT.OP) ∧ A (.reg R.UPD_STAT.BUSY)
theorem touchUpdEnd_all (h : ∀ q, A q) : touchUpdEnd A := ⟨h _, h _⟩
theorem updEnd_keeps  (hA : touchUpdEnd A)  (h : Keeps A s t) : Keeps A s (State.updEnd t) := by
  unfold State.updEnd
  obtain ⟨_, _⟩ := hA
  repeat' (first
    | with_reducible assumption
    | intro y
    | (with_reducible refine put_keepsAt (by assumption) ?_)
    | (with_reducible refine put_keeps (by assumption) ?_)
    | with_reducible apply keeps_ite
    | split)

def touchFlBegin (A : Part → Prop) : Prop := A .upd ∧ A (.reg R.UPD_FL_CMD.FL_BUSY) ∧ A (.reg R.UPD_FL_CMD.STATUS)
theorem touchFlBegin_all (h : ∀ q, A q) : touchFlBegin A := ⟨h _, h _, h _⟩
theorem flBegin_keeps {w : Option Sys2Proof.Word} (hA : touchFlBegin A)  (h : Keeps A s t) : Keeps A s (State.flBegin t w) := by
  unfold State.flBegin
  obtain ⟨_, _, _⟩ := hA
  repeat' (first
    | with_reducible assumption
    | intro y
    | (extract_lets +onlyGivenNames x; first | (refine cut (P := Keeps A s x) ?_ ?_; (on_goal 1 => (unfold x; clear x)); (on_goal 2 => (intro hx; first | clear_value x | skip))) | clear_value x | skip)
    | (with_reducible refine put_keepsAt (by assumption) ?_)
    | (with_reducible refine put_keeps (by assumption) ?_)
    | with_reducible apply keeps_ite
    | split
    | refine keeps_ite ?_ ?_
    | with_reducible exact keeps_upd (by assumption) (by assumption))

def touchFlData (A : Part → Prop) : Prop := A (.reg R.UPD_FL_ADDR.ADDR) ∧ touchFlBegin A
theorem touchFlData_all (h : ∀ q, A q) : touchFlData A := ⟨h _, touchFlBegin_all h⟩
theorem flData_keeps {w : Sys2Proof.Word} (hA : touchFlData A)  (h : Keeps A s t) : Keeps A s (State.flData t w) := by
  unfold State.flData
  obtain ⟨_, _⟩ := hA
  repeat' (first
    | with_reducible assumption
    | intro y
    | (extract_lets +onlyGivenNames x; first | (refine cut (P := Keeps A s x) ?_ ?_; (on_goal 1 => (unfold x; clear x)); (on_goal 2 => (intro hx; first | clear_value x | skip))) | clear_value x | skip)
    | (with_reducible refine put_keepsAt (by assumption) ?_)
    | (with_reducible refine put_keeps (by assumption) ?_)
    | (with_reducible apply flBegin_keeps (hA := by first | with_reducible assumption | with_reducible apply_assumption))
    | with_reducible apply keeps_ite
    | split
    | refine keeps_ite ?_ ?_)

def touchFlErase (A : Part → Prop) : Prop := touchFlBegin A
theorem touchFlErase_all (h : ∀ q, A q) : touchFlErase A := touchFlBegin_all h
theorem flErase_keeps  (hA : touchFlErase A)  (h : Keeps A s t) : Keeps A s (State.flErase t) := by
  unfold State.flErase
  unfold touchFlErase at hA
  repeat' (first
    | with_reducible assumption
    | intro y
    | (with_reducible apply flBegin_keeps (hA := by first | with_reducible assumption | with_reducible apply_assumption))
    | with_reducible apply keeps_ite
    | split)

def touchFlSet (A : Part → Prop) : Prop := A .flash
theorem touchFlSet_all (h : ∀ q, A q) : touchFlSet A := h _
theorem flSet_keeps {a : ℕ} {b : ℕ} (hA : touchFlSet A)  (h : Keeps A s t) : Keeps A s (State.flSet t a b) := by
  unfold State.flSet
  unfold touchFlSet at hA
  exact keeps_flash hA Memory.wf_write h

def touchFlPut (A : Part → Prop) : Prop := touchFlSet A
theorem touchFlPut_all (h : ∀ q, A q) : touchFlPut A := touchFlSet_all h
theorem flPut_keeps {a : ℕ} {w : ℕ} (hA : touchFlPut A)  (h : Keeps A s t) : Keeps A s (State.flPut t a w) := by
  unfold State.flPut
  unfold touchFlPut at hA
  repeat' (first
    | with_reducible assumption
    | intro y
    | (with_reducible apply flSet_keeps (hA := by first | with_reducible assumption | with_reducible apply_assumption))
    | with_reducible apply keeps_ite
    | with_reducible apply keeps_foldl
    | with_reducible apply keeps_foldl2
    | with_reducible apply keeps_foldl3
    | split)

def touchFlSector (A : Part → Prop) : Prop := A .flash
theorem touchFlSector_all (h : ∀ q, A q) : touchFlSector A := h _
theorem flSector_keeps {a : ℕ} (hA : touchFlSector A)  (h : Keeps A s t) : Keeps A s (State.flSector t a) := by
  unfold State.flSector
  unfold touchFlSector at hA
  exact keeps_flash hA Memory.wf_eraseSector h

def touchFlDone (A : Part → Prop) : Prop := A .upd ∧ A (.reg R.UPD_FL_CMD.STATUS) ∧ A (.reg R.UPD_FL_CMD.FL_BUSY) ∧ touchFlPut A ∧ touchFree A ∧ touchFlSector A ∧ touchFlSet A
theorem touchFlDone_all (h : ∀ q, A q) : touchFlDone A := ⟨h _, h _, h _, touchFlPut_all h, touchFree_all h, touchFlSector_all h, touchFlSet_all h⟩
theorem flDone_keeps {ok : Bool} (hA : touchFlDone A)  (h : Keeps A s t) : Keeps A s (State.flDone t ok) := by
  unfold State.flDone
  obtain ⟨_, _, _, _, _, _, _⟩ := hA
  repeat' (first
    | with_reducible assumption
    | intro y
    | (extract_lets +onlyGivenNames x; first | (refine cut (P := Keeps A s x) ?_ ?_; (on_goal 1 => (unfold x; clear x)); (on_goal 2 => (intro hx; first | clear_value x | skip))) | (refine cut (P := Keeps A s x.2) ?_ ?_; (on_goal 1 => (unfold x; clear x)); (on_goal 2 => (intro hx; first | clear_value x | skip))) | (refine cut (P := Keeps A s x.2.2) ?_ ?_; (on_goal 1 => (unfold x; clear x)); (on_goal 2 => (intro hx; first | clear_value x | skip))) | clear_value x | skip)
    | (with_reducible refine put_keepsAt (by assumption) ?_)
    | (with_reducible refine put_keeps (by assumption) ?_)
    | (with_reducible apply flPut_keeps (hA := by first | with_reducible assumption | with_reducible apply_assumption))
    | (with_reducible apply free_keeps (hA := by first | with_reducible assumption | with_reducible apply_assumption))
    | (with_reducible apply flSector_keeps (hA := by first | with_reducible assumption | with_reducible apply_assumption))
    | (with_reducible apply flSet_keeps (hA := by first | with_reducible assumption | with_reducible apply_assumption))
    | with_reducible apply keeps_ite
    | with_reducible apply keeps_ite2
    | with_reducible apply keeps_ite3
    | with_reducible apply keeps_foldl
    | with_reducible apply keeps_foldl2
    | with_reducible apply keeps_foldl3
    | split
    | refine keeps_ite ?_ ?_
    | with_reducible exact keeps_upd (by assumption) (by assumption))

def touchSwitchNote (A : Part → Prop) : Prop := A .boot
theorem touchSwitchNote_all (h : ∀ q, A q) : touchSwitchNote A := h _
theorem switchNote_keeps {u0 : ℕ} {old : ℕ} (hA : touchSwitchNote A)  (h : Keeps A s t) : Keeps A s (State.switchNote t u0 old) := by
  unfold State.switchNote
  unfold touchSwitchNote at hA
  repeat' (first
    | with_reducible assumption
    | intro y
    | (extract_lets +onlyGivenNames x; first | (refine cut (P := Keeps A s x) ?_ ?_; (on_goal 1 => (unfold x; clear x)); (on_goal 2 => (intro hx; first | clear_value x | skip))) | clear_value x | skip)
    | with_reducible apply keeps_ite
    | split
    | refine keeps_ite ?_ ?_
    | with_reducible exact keeps_boot (by assumption) (by assumption))

def touchSwitchDrop (A : Part → Prop) : Prop := A .boot
theorem touchSwitchDrop_all (h : ∀ q, A q) : touchSwitchDrop A := h _
theorem switchDrop_keeps {u0 : ℕ} (hA : touchSwitchDrop A)  (h : Keeps A s t) : Keeps A s (State.switchDrop t u0) := by
  unfold State.switchDrop
  unfold touchSwitchDrop at hA
  repeat' (first
    | with_reducible assumption
    | intro y
    | (extract_lets +onlyGivenNames x; first | (refine cut (P := Keeps A s x) ?_ ?_; (on_goal 1 => (unfold x; clear x)); (on_goal 2 => (intro hx; first | clear_value x | skip))) | clear_value x | skip)
    | with_reducible apply keeps_ite
    | split
    | refine keeps_ite ?_ ?_
    | with_reducible exact keeps_boot (by assumption) (by assumption))

def touchFwName (A : Part → Prop) : Prop := A (.reg R.UPD_FW_CTRL.NEXT)
theorem touchFwName_all (h : ∀ q, A q) : touchFwName A := h _
theorem fwName_keeps {u0 : ℕ} {b : ℕ} (hA : touchFwName A)  (h : Keeps A s t) : Keeps A s (State.fwName t u0 b) := by
  unfold State.fwName
  unfold touchFwName at hA
  repeat' (first
    | with_reducible assumption
    | intro y
    | (extract_lets +onlyGivenNames x; first | (refine cut (P := Keeps A s x) ?_ ?_; (on_goal 1 => (unfold x; clear x)); (on_goal 2 => (intro hx; first | clear_value x | skip))) | clear_value x | skip)
    | (with_reducible refine put_keepsAt (by assumption) ?_)
    | (with_reducible refine put_keeps (by assumption) ?_)
    | with_reducible apply keeps_ite
    | split
    | refine keeps_ite ?_ ?_)

def touchFwSwitch (A : Part → Prop) : Prop := A (.reg R.UPD_FW_CMD.UNIT) ∧ touchUpdBegin A ∧ A (.reg R.UPD_FW_CMD.STATUS) ∧ A .updN ∧ touchSwitchNote A ∧ touchDomainBegin A ∧ touchFwName A ∧ A .boot
theorem touchFwSwitch_all (h : ∀ q, A q) : touchFwSwitch A := ⟨h _, touchUpdBegin_all h, h _, h _, touchSwitchNote_all h, touchDomainBegin_all h, touchFwName_all h, h _⟩
theorem fwSwitch_keeps {u0 : ℕ} {verified : Bool} (hA : touchFwSwitch A)  (h : Keeps A s t) : Keeps A s (State.fwSwitch t u0 verified) := by
  unfold State.fwSwitch
  obtain ⟨_, _, _, _, _, _, _, _⟩ := hA
  repeat' (first
    | with_reducible assumption
    | intro y
    | (extract_lets +onlyGivenNames x; first | (refine cut (P := Keeps A s x) ?_ ?_; (on_goal 1 => (unfold x; clear x)); (on_goal 2 => (intro hx; first | clear_value x | skip))) | clear_value x | skip)
    | (with_reducible refine put_keepsAt (by assumption) ?_)
    | (with_reducible refine put_keeps (by assumption) ?_)
    | (with_reducible apply updBegin_keeps (hA := by first | with_reducible assumption | with_reducible apply_assumption))
    | (with_reducible apply switchNote_keeps (hA := by first | with_reducible assumption | with_reducible apply_assumption))
    | (with_reducible apply domainBegin_keeps (hA := by first | with_reducible assumption | with_reducible apply_assumption))
    | (with_reducible apply fwName_keeps (hA := by first | with_reducible assumption | with_reducible apply_assumption))
    | with_reducible apply keeps_ite
    | split
    | refine keeps_ite ?_ ?_
    | with_reducible exact keeps_updN (by assumption) (by assumption)
    | with_reducible exact keeps_boot (by assumption) (by assumption))

def touchMetFwTake (A : Part → Prop) : Prop := touchFwTake A 1 ∧ touchFwName A ∧ A (.reg R.MET_FW_DIG.DIG) ∧ touchLog A
theorem touchMetFwTake_all (h : ∀ q, A q) : touchMetFwTake A := ⟨touchFwTake_all h, touchFwName_all h, h _, touchLog_all h⟩
theorem metFwTake_keeps {b : ℕ} (hA : touchMetFwTake A)  (h : Keeps A s t) : Keeps A s (State.metFwTake t b) := by
  unfold State.metFwTake
  obtain ⟨_, _, _, _⟩ := hA
  repeat' (first
    | with_reducible assumption
    | intro y
    | (extract_lets +onlyGivenNames x; first | (refine cut (P := Keeps A s x) ?_ ?_; (on_goal 1 => (unfold x; clear x)); (on_goal 2 => (intro hx; first | clear_value x | skip))) | clear_value x | skip)
    | (with_reducible apply fwTake_keeps (hA := by first | with_reducible assumption | with_reducible apply_assumption))
    | (with_reducible apply fwName_keeps (hA := by first | with_reducible assumption | with_reducible apply_assumption))
    | (with_reducible refine put_keepsAt (by assumption) ?_)
    | (with_reducible refine put_keeps (by assumption) ?_)
    | (with_reducible apply log_keeps (hA := by first | with_reducible assumption | with_reducible apply_assumption))
    | with_reducible apply keeps_ite
    | split
    | refine keeps_ite ?_ ?_)

def touchSectReload (A : Part → Prop) : Prop := A (.reg R.UPD_SECT_CMD.AT_STAMP) ∧ A (.reg R.UPD_SECT_CMD.BANK) ∧ A (.reg R.UPD_SECT_CMD.SECT) ∧ A (.reg R.UPD_SECT_RES.REFUSED) ∧ A (.reg R.UPD_SECT_RES.APPLIED) ∧ touchUpdBegin A ∧ A (.reg R.UPD_SECT_CMD.STATUS) ∧ A (.reg R.UPD_SECT_REF.FIRST_REF) ∧ A .upd ∧ touchLog A
theorem touchSectReload_all (h : ∀ q, A q) : touchSectReload A := ⟨h _, h _, h _, h _, h _, touchUpdBegin_all h, h _, h _, h _, touchLog_all h⟩
theorem sectReload_keeps {sect : ℕ} {bank : ℕ} {at_ : Bool} {verified : Bool} (hA : touchSectReload A)  (h : Keeps A s t) : Keeps A s (State.sectReload t sect bank at_ verified) := by
  unfold State.sectReload
  obtain ⟨_, _, _, _, _, _, _, _, _, _⟩ := hA
  repeat' (first
    | with_reducible assumption
    | intro y
    | (extract_lets +onlyGivenNames x; first | (refine cut (P := Keeps A s x) ?_ ?_; (on_goal 1 => (unfold x; clear x)); (on_goal 2 => (intro hx; first | clear_value x | skip))) | clear_value x | skip)
    | (with_reducible refine put_keepsAt (by assumption) ?_)
    | (with_reducible refine put_keeps (by assumption) ?_)
    | (with_reducible refine putb_keepsAt (by assumption) ?_)
    | (with_reducible refine putb_keeps (by assumption) ?_)
    | (with_reducible apply updBegin_keeps (hA := by first | with_reducible assumption | with_reducible apply_assumption))
    | (with_reducible apply log_keeps (hA := by first | with_reducible assumption | with_reducible apply_assumption))
    | with_reducible apply keeps_ite
    | split
    | refine keeps_ite ?_ ?_
    | with_reducible exact keeps_upd (by assumption) (by assumption))

def touchPkgSubmit (A : Part → Prop) : Prop := A .updN ∧ A (.reg R.UPD_PKG_CMD.PEND) ∧ A (.reg R.UPD_PKG_CMD.STATUS) ∧ touchLog A ∧ touchReserveRefused A ∧ touchReport A
theorem touchPkgSubmit_all (h : ∀ q, A q) : touchPkgSubmit A := ⟨h _, h _, h _, touchLog_all h, touchReserveRefused_all h, touchReport_all h⟩
theorem pkgSubmit_keeps {sess : ℕ} {alg : ℕ} {verified : Bool} {fwVerified : Bool} (hA : touchPkgSubmit A)  (h : Keeps A s t) : Keeps A s (State.pkgSubmit t sess alg verified fwVerified) := by
  unfold State.pkgSubmit
  obtain ⟨_, _, _, _, _, _⟩ := hA
  repeat' (first
    | with_reducible assumption
    | intro y
    | (extract_lets +onlyGivenNames x; first | (refine cut (P := Keeps A s x) ?_ ?_; (on_goal 1 => (unfold x; clear x)); (on_goal 2 => (intro hx; first | clear_value x | skip))) | clear_value x | skip)
    | (with_reducible refine put_keepsAt (by assumption) ?_)
    | (with_reducible refine put_keeps (by assumption) ?_)
    | (with_reducible apply log_keeps (hA := by first | with_reducible assumption | with_reducible apply_assumption))
    | (with_reducible apply reserveRefused_keeps (hA := by first | with_reducible assumption | with_reducible apply_assumption))
    | (with_reducible apply report_keeps (hA := by first | with_reducible assumption | with_reducible apply_assumption))
    | with_reducible apply keeps_ite
    | split
    | refine keeps_ite ?_ ?_
    | with_reducible exact keeps_updN (by assumption) (by assumption))

def touchPkgData (A : Part → Prop) : Prop := A .upd ∧ A (.reg R.UPD_PKG_ADDR.INDEX)
theorem touchPkgData_all (h : ∀ q, A q) : touchPkgData A := ⟨h _, h _⟩
theorem pkgData_keeps {w : Sys2Proof.Word} (hA : touchPkgData A)  (h : Keeps A s t) : Keeps A s (State.pkgData t w) := by
  unfold State.pkgData
  obtain ⟨_, _⟩ := hA
  repeat' (first
    | with_reducible assumption
    | intro y
    | (extract_lets +onlyGivenNames x; first | (refine cut (P := Keeps A s x) ?_ ?_; (on_goal 1 => (unfold x; clear x)); (on_goal 2 => (intro hx; first | clear_value x | skip))) | clear_value x | skip)
    | (with_reducible refine put_keepsAt (by assumption) ?_)
    | (with_reducible refine put_keeps (by assumption) ?_)
    | with_reducible apply keeps_ite
    | split
    | refine keeps_ite ?_ ?_
    | with_reducible exact keeps_upd (by assumption) (by assumption))

def touchRecalibrate (A : Part → Prop) : Prop := A .upd ∧ A (.reg R.UPD_RECAL.REFUSED) ∧ A (.reg R.UPD_RECAL.BUSY)
theorem touchRecalibrate_all (h : ∀ q, A q) : touchRecalibrate A := ⟨h _, h _, h _⟩
theorem recalibrate_keeps {req : ℕ} (hA : touchRecalibrate A)  (h : Keeps A s t) : Keeps A s (State.recalibrate t req) := by
  unfold State.recalibrate
  obtain ⟨_, _, _⟩ := hA
  repeat' (first
    | with_reducible assumption
    | intro y
    | (extract_lets +onlyGivenNames x; first | (refine cut (P := Keeps A s x) ?_ ?_; (on_goal 1 => (unfold x; clear x)); (on_goal 2 => (intro hx; first | clear_value x | skip))) | clear_value x | skip)
    | (with_reducible refine put_keepsAt (by assumption) ?_)
    | (with_reducible refine put_keeps (by assumption) ?_)
    | with_reducible apply keeps_ite
    | with_reducible apply keeps_foldl
    | split
    | refine keeps_ite ?_ ?_
    | with_reducible exact keeps_upd (by assumption) (by assumption))

def touchRecalDone (A : Part → Prop) : Prop := A (.reg R.UPD_RECAL.BUSY) ∧ A .boot ∧ A .upd ∧ touchBlock A ∧ touchPeCal A ∧ A (.reg R.SYS_BOOT_STAT.CAL_FAIL) ∧ A (.reg R.SYS_CAL_STAT.FAIL) ∧ touchSetReady A ∧ touchLog A
theorem touchRecalDone_all (h : ∀ q, A q) : touchRecalDone A := ⟨h _, h _, h _, touchBlock_all h, touchPeCal_all h, h _, h _, touchSetReady_all h, touchLog_all h⟩
theorem recalDone_keeps {fails : ℕ} (hA : touchRecalDone A)  (h : Keeps A s t) : Keeps A s (State.recalDone t fails) := by
  unfold State.recalDone
  obtain ⟨_, _, _, _, _, _, _, _, _⟩ := hA
  repeat' (first
    | with_reducible assumption
    | intro y
    | (extract_lets +onlyGivenNames x; first | (refine cut (P := Keeps A s x) ?_ ?_; (on_goal 1 => (unfold x; clear x)); (on_goal 2 => (intro hx; first | clear_value x | skip))) | clear_value x | skip)
    | (with_reducible refine put_keepsAt (by assumption) ?_)
    | (with_reducible refine put_keeps (by assumption) ?_)
    | (with_reducible refine putb_keepsAt (by assumption) ?_)
    | (with_reducible refine putb_keeps (by assumption) ?_)
    | (with_reducible apply block_keeps (hA := by first | with_reducible assumption | with_reducible apply_assumption))
    | (with_reducible apply peCal_keeps (hA := by first | with_reducible assumption | with_reducible apply_assumption))
    | (with_reducible apply setReady_keeps (hA := by first | with_reducible assumption | with_reducible apply_assumption))
    | (with_reducible apply log_keeps (hA := by first | with_reducible assumption | with_reducible apply_assumption))
    | with_reducible apply keeps_ite
    | split
    | refine keeps_ite ?_ ?_
    | with_reducible exact keeps_boot_upd (by assumption) (by assumption) (by assumption))

end Sys2Proof.Laws
end

