-- ==== Sys2Proof/Laws/KeepsVault.lean ====
section
/-! SUPPORT. What the operations of Machine/Vault.lean leave alone: for each the parts it may change (`touch…`) and its lemma. -/

namespace Sys2Proof.Laws

open Sys2Proof.Machine

set_option linter.unusedTactic false
set_option linter.unreachableTactic false
set_option linter.unusedVariables false
set_option linter.tactic.unusedName false

variable {A : Part → Prop} {s t : State}

def touchStageWrite (A : Part → Prop) : Prop := A .kv ∧ A (.reg R.KV_STAGE_ADDR.INDEX)
theorem touchStageWrite_all (h : ∀ q, A q) : touchStageWrite A := ⟨h _, h _⟩
theorem stageWrite_keeps {sess : ℕ} {w : ℕ} (hA : touchStageWrite A)  (h : Keeps A s t) : Keeps A s (State.stageWrite t sess w) := by
  unfold State.stageWrite
  obtain ⟨_, _⟩ := hA
  repeat' (first
    | with_reducible assumption
    | intro y
    | (extract_lets +onlyGivenNames x; first | (refine cut (P := Keeps A s x) ?_ ?_; (on_goal 1 => (unfold x; clear x)); (on_goal 2 => (intro hx; first | clear_value x | skip))) | clear_value x | skip)
    | (with_reducible refine put_keepsAt (by assumption) ?_)
    | (with_reducible refine put_keeps (by assumption) ?_)
    | with_reducible apply keeps_ite
    | split
    | refine keeps_ite ?_ ?_
    | with_reducible exact keeps_kv (by assumption) (by assumption))

def touchExecStageWrite (A : Part → Prop) : Prop := touchGuarded A ∧ touchStageWrite A
theorem touchExecStageWrite_all (h : ∀ q, A q) : touchExecStageWrite A := ⟨touchGuarded_all h, touchStageWrite_all h⟩
theorem execStageWrite_next {sess : ℕ} {w : ℕ} (hA : touchExecStageWrite A) : ∃ u, execStageWrite sess w s = .next u ∧ Keeps A s u := by
  unfold execStageWrite
  have h := Keeps.refl A s
  refine ⟨_, rfl, ?_⟩
  obtain ⟨_, _⟩ := hA
  repeat' (first
    | with_reducible assumption
    | intro y
    | (with_reducible apply guarded_keeps (hA := by first | with_reducible assumption | with_reducible apply_assumption))
    | (with_reducible apply stageWrite_keeps (hA := by first | with_reducible assumption | with_reducible apply_assumption))
    | with_reducible apply keeps_ite
    | split)

def touchExecStageTimeout (A : Part → Prop) : Prop := touchStageFree A
theorem touchExecStageTimeout_all (h : ∀ q, A q) : touchExecStageTimeout A := touchStageFree_all h
theorem execStageTimeout_next {ms : ℕ} (hA : touchExecStageTimeout A) : ∃ u, execStageTimeout ms s = .next u ∧ Keeps A s u := by
  unfold execStageTimeout
  have h := Keeps.refl A s
  refine ⟨_, rfl, ?_⟩
  unfold touchExecStageTimeout at hA
  repeat' (first
    | with_reducible assumption
    | intro y
    | (with_reducible apply stageFree_keeps (hA := by first | with_reducible assumption | with_reducible apply_assumption))
    | with_reducible apply keeps_ite
    | split)

def touchKvResult (A : Part → Prop) : Prop := A (.reg R.KV_CMD_STAT.RESULT) ∧ A (.reg R.KV_CMD_STAT.BUSY) ∧ A (.reg R.KV_CMD.GO) ∧ touchStageFree A ∧ touchLog A
theorem touchKvResult_all (h : ∀ q, A q) : touchKvResult A := ⟨h _, h _, h _, touchStageFree_all h, touchLog_all h⟩
theorem kvResult_keeps {sess : ℕ} {slot : ℕ} {r : ℕ} (hA : touchKvResult A)  (h : Keeps A s t) : Keeps A s (State.kvResult t sess slot r) := by
  unfold State.kvResult
  obtain ⟨_, _, _, _, _⟩ := hA
  repeat' (first
    | with_reducible assumption
    | intro y
    | (extract_lets +onlyGivenNames x; first | (refine cut (P := Keeps A s x) ?_ ?_; (on_goal 1 => (unfold x; clear x)); (on_goal 2 => (intro hx; first | clear_value x | skip))) | clear_value x | skip)
    | (with_reducible refine put_keepsAt (by assumption) ?_)
    | (with_reducible refine put_keeps (by assumption) ?_)
    | (with_reducible apply stageFree_keeps (hA := by first | with_reducible assumption | with_reducible apply_assumption))
    | (with_reducible apply log_keeps (hA := by first | with_reducible assumption | with_reducible apply_assumption))
    | with_reducible apply keeps_ite
    | split
    | refine keeps_ite ?_ ?_)

def touchKvCmdWord (A : Part → Prop) : Prop := A (.reg R.KV_CMD.USE) ∧ A (.reg R.KV_CMD.TYPE) ∧ A (.reg R.KV_CMD.SLOT) ∧ A (.reg R.KV_CMD.OP) ∧ A (.reg R.KV_CMD.WRAP_SLOT) ∧ A (.reg R.KV_CMD.WRAPPED) ∧ A (.reg R.KV_CMD.MSEAL) ∧ A (.reg R.KV_CMD.LOCKW)
theorem touchKvCmdWord_all (h : ∀ q, A q) : touchKvCmdWord A := ⟨h _, h _, h _, h _, h _, h _, h _, h _⟩
theorem kvCmdWord_keeps {op : ℕ} {slot : ℕ} {type : ℕ} {use : ℕ} {lockw : Bool} {mseal : Bool} {wrap : Option ℕ} (hA : touchKvCmdWord A)  (h : Keeps A s t) : Keeps A s (State.kvCmdWord t op slot type use lockw mseal wrap) := by
  unfold State.kvCmdWord
  obtain ⟨_, _, _, _, _, _, _, _⟩ := hA
  repeat' (first
    | with_reducible assumption
    | intro y
    | (extract_lets +onlyGivenNames x; first | (refine cut (P := Keeps A s x) ?_ ?_; (on_goal 1 => (unfold x; clear x)); (on_goal 2 => (intro hx; first | clear_value x | skip))) | clear_value x | skip)
    | (with_reducible refine put_keepsAt (by assumption) ?_)
    | (with_reducible refine put_keeps (by assumption) ?_)
    | (with_reducible refine putb_keepsAt (by assumption) ?_)
    | (with_reducible refine putb_keeps (by assumption) ?_)
    | with_reducible apply keeps_ite
    | split
    | refine keeps_ite ?_ ?_)

def touchKvCommit (A : Part → Prop) : Prop := touchSessCloseSlot A ∧ touchSetSlot A ∧ touchFabKeyCopy A
theorem touchKvCommit_all (h : ∀ q, A q) : touchKvCommit A := ⟨touchSessCloseSlot_all h, touchSetSlot_all h, touchFabKeyCopy_all h⟩
theorem kvCommit_keeps {slot : ℕ} {x0 : Sys2Proof.Machine.KvSlot} (hA : touchKvCommit A)  (h : Keeps A s t) : Keeps A s (State.kvCommit t slot x0) := by
  unfold State.kvCommit
  obtain ⟨_, _, _⟩ := hA
  repeat' (first
    | with_reducible assumption
    | intro y
    | (extract_lets +onlyGivenNames x; first | (refine cut (P := Keeps A s x) ?_ ?_; (on_goal 1 => (unfold x; clear x)); (on_goal 2 => (intro hx; first | clear_value x | skip))) | clear_value x | skip)
    | (with_reducible apply sessCloseSlot_keeps (hA := by first | with_reducible assumption | with_reducible apply_assumption))
    | (with_reducible apply setSlot_keeps (hA := by first | with_reducible assumption | with_reducible apply_assumption))
    | (with_reducible apply fabKeyCopy_keeps (hA := by first | with_reducible assumption | with_reducible apply_assumption))
    | with_reducible apply keeps_ite
    | split
    | refine keeps_ite ?_ ?_)

def touchLoadKey (A : Part → Prop) : Prop := touchKvCmdWord A ∧ touchSlotCheck A ∧ touchKvResult A ∧ touchLog A ∧ touchKvCommit A
theorem touchLoadKey_all (h : ∀ q, A q) : touchLoadKey A := ⟨touchKvCmdWord_all h, touchSlotCheck_all h, touchKvResult_all h, touchLog_all h, touchKvCommit_all h⟩
theorem loadKey_keeps {sess : ℕ} {slot : ℕ} {type : ℕ} {use : ℕ} {lockw : Bool} {mseal : Bool} {wrap : Option ℕ} {wrapOk : Bool} (hA : touchLoadKey A)  (h : Keeps A s t) : Keeps A s (State.loadKey t sess slot type use lockw mseal wrap wrapOk) := by
  unfold State.loadKey
  obtain ⟨_, _, _, _, _⟩ := hA
  repeat' (first
    | with_reducible assumption
    | intro y
    | (extract_lets +onlyGivenNames x; first | (refine cut (P := Keeps A s x) ?_ ?_; (on_goal 1 => (unfold x; clear x)); (on_goal 2 => (intro hx; first | clear_value x | skip))) | clear_value x | skip)
    | (with_reducible apply kvCmdWord_keeps (hA := by first | with_reducible assumption | with_reducible apply_assumption))
    | (with_reducible apply slotCheck_keeps (hA := by first | with_reducible assumption | with_reducible apply_assumption))
    | (with_reducible apply kvResult_keeps (hA := by first | with_reducible assumption | with_reducible apply_assumption))
    | (with_reducible apply log_keeps (hA := by first | with_reducible assumption | with_reducible apply_assumption))
    | (with_reducible apply kvCommit_keeps (hA := by first | with_reducible assumption | with_reducible apply_assumption))
    | with_reducible apply keeps_ite
    | split
    | refine keeps_ite ?_ ?_)

def touchExecLoadKey (A : Part → Prop) : Prop := touchGuarded A ∧ touchReport A ∧ touchLoadKey A
theorem touchExecLoadKey_all (h : ∀ q, A q) : touchExecLoadKey A := ⟨touchGuarded_all h, touchReport_all h, touchLoadKey_all h⟩
theorem execLoadKey_next {sess : ℕ} {slot : ℕ} {type : ℕ} {use : ℕ} {lockw : Bool} {mseal : Bool} {wrap : Option ℕ} {wrapOk : Bool} {_plain : Option (List ℕ)} (hA : touchExecLoadKey A) : ∃ u, execLoadKey sess slot type use lockw mseal wrap wrapOk _plain s = .next u ∧ Keeps A s u := by
  unfold execLoadKey
  have h := Keeps.refl A s
  refine ⟨_, rfl, ?_⟩
  obtain ⟨_, _, _⟩ := hA
  repeat' (first
    | with_reducible assumption
    | intro y
    | (extract_lets +onlyGivenNames x; first | (refine cut (P := Keeps A s x) ?_ ?_; (on_goal 1 => (unfold x; clear x)); (on_goal 2 => (intro hx; first | clear_value x | skip))) | clear_value x | skip)
    | (with_reducible apply guarded_keeps (hA := by first | with_reducible assumption | with_reducible apply_assumption))
    | (with_reducible apply report_keeps (hA := by first | with_reducible assumption | with_reducible apply_assumption))
    | (with_reducible apply loadKey_keeps (hA := by first | with_reducible assumption | with_reducible apply_assumption))
    | with_reducible apply keeps_ite
    | split
    | refine keeps_ite ?_ ?_)

def touchLoadCert (A : Part → Prop) : Prop := A (.reg R.KV_CMD.SLOT) ∧ A (.reg R.KV_CMD.OP) ∧ touchKvResult A ∧ touchLog A ∧ touchKvCommit A
theorem touchLoadCert_all (h : ∀ q, A q) : touchLoadCert A := ⟨h _, h _, touchKvResult_all h, touchLog_all h, touchKvCommit_all h⟩
theorem loadCert_keeps {sess : ℕ} {slot : ℕ} {parses : Bool} {same : Bool} {ca : Bool} (hA : touchLoadCert A)  (h : Keeps A s t) : Keeps A s (State.loadCert t sess slot parses same ca) := by
  unfold State.loadCert
  obtain ⟨_, _, _, _, _⟩ := hA
  repeat' (first
    | with_reducible assumption
    | intro y
    | (extract_lets +onlyGivenNames x; first | (refine cut (P := Keeps A s x) ?_ ?_; (on_goal 1 => (unfold x; clear x)); (on_goal 2 => (intro hx; first | clear_value x | skip))) | (refine cut (P := ∀ y0, Keeps A s (x y0)) ?_ ?_; (on_goal 1 => (unfold x; clear x)); (on_goal 2 => (intro hf; first | clear_value x | skip))) | clear_value x | skip)
    | (with_reducible refine put_keepsAt (by assumption) ?_)
    | (with_reducible refine put_keeps (by assumption) ?_)
    | (with_reducible apply kvResult_keeps (hA := by first | with_reducible assumption | with_reducible apply_assumption))
    | (with_reducible apply log_keeps (hA := by first | with_reducible assumption | with_reducible apply_assumption))
    | (with_reducible apply kvCommit_keeps (hA := by first | with_reducible assumption | with_reducible apply_assumption))
    | with_reducible apply keeps_ite
    | with_reducible apply hf
    | with_reducible apply_assumption
    | split
    | refine keeps_ite ?_ ?_)

def touchExecLoadCertificate (A : Part → Prop) : Prop := touchGuarded A ∧ touchReport A ∧ touchLoadCert A
theorem touchExecLoadCertificate_all (h : ∀ q, A q) : touchExecLoadCertificate A := ⟨touchGuarded_all h, touchReport_all h, touchLoadCert_all h⟩
theorem execLoadCertificate_next {sess : ℕ} {slot : ℕ} {parses : Bool} {same : Bool} {ca : Bool} (hA : touchExecLoadCertificate A) : ∃ u, execLoadCertificate sess slot parses same ca s = .next u ∧ Keeps A s u := by
  unfold execLoadCertificate
  have h := Keeps.refl A s
  refine ⟨_, rfl, ?_⟩
  obtain ⟨_, _, _⟩ := hA
  repeat' (first
    | with_reducible assumption
    | intro y
    | (with_reducible apply guarded_keeps (hA := by first | with_reducible assumption | with_reducible apply_assumption))
    | (with_reducible apply report_keeps (hA := by first | with_reducible assumption | with_reducible apply_assumption))
    | (with_reducible apply loadCert_keeps (hA := by first | with_reducible assumption | with_reducible apply_assumption))
    | with_reducible apply keeps_ite
    | split)

def touchGenerate (A : Part → Prop) : Prop := touchKvCmdWord A ∧ touchKvResult A ∧ touchFreeBytes A ∧ touchLog A ∧ touchKvCommit A
theorem touchGenerate_all (h : ∀ q, A q) : touchGenerate A := ⟨touchKvCmdWord_all h, touchKvResult_all h, touchFreeBytes_all h, touchLog_all h, touchKvCommit_all h⟩
theorem generate_keeps {sess : ℕ} {slot : ℕ} {type : ℕ} {use : ℕ} {lockw : Bool} {mseal : Bool} (hA : touchGenerate A)  (h : Keeps A s t) : Keeps A s (State.generate t sess slot type use lockw mseal) := by
  unfold State.generate
  obtain ⟨_, _, _, _, _⟩ := hA
  repeat' (first
    | with_reducible assumption
    | intro y
    | (extract_lets +onlyGivenNames x; first | (refine cut (P := Keeps A s x) ?_ ?_; (on_goal 1 => (unfold x; clear x)); (on_goal 2 => (intro hx; first | clear_value x | skip))) | (refine cut (P := Keeps A s x.2) ?_ ?_; (on_goal 1 => (unfold x; clear x)); (on_goal 2 => (intro hx; first | clear_value x | skip))) | (refine cut (P := Keeps A s x.2.2) ?_ ?_; (on_goal 1 => (unfold x; clear x)); (on_goal 2 => (intro hx; first | clear_value x | skip))) | clear_value x | skip)
    | (with_reducible apply kvCmdWord_keeps (hA := by first | with_reducible assumption | with_reducible apply_assumption))
    | (with_reducible apply kvResult_keeps (hA := by first | with_reducible assumption | with_reducible apply_assumption))
    | (with_reducible apply freeBytes_keeps (hA := by first | with_reducible assumption | with_reducible apply_assumption))
    | (with_reducible apply log_keeps (hA := by first | with_reducible assumption | with_reducible apply_assumption))
    | (with_reducible apply kvCommit_keeps (hA := by first | with_reducible assumption | with_reducible apply_assumption))
    | with_reducible apply keeps_ite
    | with_reducible apply keeps_ite2
    | with_reducible apply keeps_ite3
    | split
    | refine keeps_ite ?_ ?_)

def touchExecGenerate (A : Part → Prop) : Prop := touchGuarded A ∧ touchReport A ∧ touchGenerate A
theorem touchExecGenerate_all (h : ∀ q, A q) : touchExecGenerate A := ⟨touchGuarded_all h, touchReport_all h, touchGenerate_all h⟩
theorem execGenerate_next {sess : ℕ} {slot : ℕ} {type : ℕ} {use : ℕ} {lockw : Bool} {mseal : Bool} (hA : touchExecGenerate A) : ∃ u, execGenerate sess slot sype use lockw mseal s = .next u ∧ Keeps A s u := by
  unfold execGenerate
  have h := Keeps.refl A s
  refine ⟨_, rfl, ?_⟩
  obtain ⟨_, _, _⟩ := hA
  repeat' (first
    | with_reducible assumption
    | intro y
    | (with_reducible apply guarded_keeps (hA := by first | with_reducible assumption | with_reducible apply_assumption))
    | (with_reducible apply report_keeps (hA := by first | with_reducible assumption | with_reducible apply_assumption))
    | (with_reducible apply generate_keeps (hA := by first | with_reducible assumption | with_reducible apply_assumption))
    | with_reducible apply keeps_ite
    | split)

def touchKvErase (A : Part → Prop) : Prop := A (.reg R.KV_CMD.SLOT) ∧ A (.reg R.KV_CMD.OP) ∧ touchKvResult A ∧ touchLog A ∧ touchKvCommit A
theorem touchKvErase_all (h : ∀ q, A q) : touchKvErase A := ⟨h _, h _, touchKvResult_all h, touchLog_all h, touchKvCommit_all h⟩
theorem kvErase_keeps {sess : ℕ} {slot : ℕ} (hA : touchKvErase A)  (h : Keeps A s t) : Keeps A s (State.kvErase t sess slot) := by
  unfold State.kvErase
  obtain ⟨_, _, _, _, _⟩ := hA
  repeat' (first
    | with_reducible assumption
    | intro y
    | (extract_lets +onlyGivenNames x; first | (refine cut (P := Keeps A s x) ?_ ?_; (on_goal 1 => (unfold x; clear x)); (on_goal 2 => (intro hx; first | clear_value x | skip))) | clear_value x | skip)
    | (with_reducible refine put_keepsAt (by assumption) ?_)
    | (with_reducible refine put_keeps (by assumption) ?_)
    | (with_reducible apply kvResult_keeps (hA := by first | with_reducible assumption | with_reducible apply_assumption))
    | (with_reducible apply log_keeps (hA := by first | with_reducible assumption | with_reducible apply_assumption))
    | (with_reducible apply kvCommit_keeps (hA := by first | with_reducible assumption | with_reducible apply_assumption))
    | with_reducible apply keeps_ite
    | split
    | refine keeps_ite ?_ ?_)

def touchExecErase (A : Part → Prop) : Prop := touchGuarded A ∧ touchReport A ∧ touchKvErase A
theorem touchExecErase_all (h : ∀ q, A q) : touchExecErase A := ⟨touchGuarded_all h, touchReport_all h, touchKvErase_all h⟩
theorem execErase_next {sess : ℕ} {slot : ℕ} (hA : touchExecErase A) : ∃ u, execErase sess slot s = .next u ∧ Keeps A s u := by
  unfold execErase
  have h := Keeps.refl A s
  refine ⟨_, rfl, ?_⟩
  obtain ⟨_, _, _⟩ := hA
  repeat' (first
    | with_reducible assumption
    | intro y
    | (with_reducible apply guarded_keeps (hA := by first | with_reducible assumption | with_reducible apply_assumption))
    | (with_reducible apply report_keeps (hA := by first | with_reducible assumption | with_reducible apply_assumption))
    | (with_reducible apply kvErase_keeps (hA := by first | with_reducible assumption | with_reducible apply_assumption))
    | with_reducible apply keeps_ite
    | split)

def touchSetWork (A : Part → Prop) (w : Nat) : Prop := A .kv ∧ A (.inst R.KV_WORK_ATTR.USE w 0) ∧ A (.inst R.KV_WORK_ATTR.TYPE w 0) ∧ A (.inst R.KV_WORK_ATTR.VALID w 0) ∧ touchKvShow A ∧ A (.inst R.KV_WORK_ATTR.PARENT w 0) ∧ A (.inst R.KV_WORK_ATTR.DEPTH w 0)
theorem touchSetWork_all (h : ∀ q, A q) {w : Nat} : touchSetWork A w := ⟨h _, h _, h _, h _, touchKvShow_all h, h _, h _⟩
theorem setWork_keeps {w : ℕ} {type : ℕ} {use : ℕ} {depth : ℕ} {parent : ℕ} {k : List ℕ} (hA : touchSetWork A w)  (h : Keeps A s t) : Keeps A s (State.setWork t w type use depth parent k) := by
  unfold State.setWork
  obtain ⟨_, _, _, _, _, _, _⟩ := hA
  repeat' (first
    | with_reducible assumption
    | intro y
    | (extract_lets +onlyGivenNames x; first | (refine cut (P := Keeps A s x) ?_ ?_; (on_goal 1 => (unfold x; clear x)); (on_goal 2 => (intro hx; first | clear_value x | skip))) | clear_value x | skip)
    | (with_reducible refine put_keepsAt (by assumption) ?_)
    | (with_reducible refine put_keeps (by assumption) ?_)
    | (with_reducible apply kvShow_keeps (hA := by first | with_reducible assumption | with_reducible apply_assumption))
    | with_reducible apply keeps_ite
    | split
    | refine keeps_ite ?_ ?_
    | with_reducible exact keeps_kv (by assumption) (by assumption))

def touchDerive (A : Part → Prop) : Prop := A (.reg R.KV_CMD.OP) ∧ touchSlotCheck A ∧ touchKvResult A ∧ (∀ x0, touchSetWork A x0)
theorem touchDerive_all (h : ∀ q, A q) : touchDerive A := ⟨h _, touchSlotCheck_all h, touchKvResult_all h, fun _ => touchSetWork_all h⟩
theorem derive_keeps {sess : ℕ} {parentOk : Bool} (hA : touchDerive A)  (h : Keeps A s t) : Keeps A s (State.derive t sess parentOk) := by
  unfold State.derive
  obtain ⟨_, _, _, _⟩ := hA
  repeat' (first
    | with_reducible assumption
    | intro y
    | (extract_lets +onlyGivenNames x; first | (refine cut (P := Keeps A s x) ?_ ?_; (on_goal 1 => (unfold x; clear x)); (on_goal 2 => (intro hx; first | clear_value x | skip))) | clear_value x | skip)
    | (with_reducible refine put_keepsAt (by assumption) ?_)
    | (with_reducible refine put_keeps (by assumption) ?_)
    | (with_reducible apply slotCheck_keeps (hA := by first | with_reducible assumption | with_reducible apply_assumption))
    | (with_reducible apply kvResult_keeps (hA := by first | with_reducible assumption | with_reducible apply_assumption))
    | (with_reducible apply setWork_keeps (hA := by first | with_reducible assumption | with_reducible apply_assumption))
    | with_reducible apply keeps_ite
    | split
    | refine keeps_ite ?_ ?_)

def touchExecDerive (A : Part → Prop) : Prop := touchGuarded A ∧ touchReport A ∧ touchDerive A
theorem touchExecDerive_all (h : ∀ q, A q) : touchExecDerive A := ⟨touchGuarded_all h, touchReport_all h, touchDerive_all h⟩
theorem execDerive_next {sess : ℕ} {parentOk : Bool} (hA : touchExecDerive A) : ∃ u, execDerive sess parentOk s = .next u ∧ Keeps A s u := by
  unfold execDerive
  have h := Keeps.refl A s
  refine ⟨_, rfl, ?_⟩
  obtain ⟨_, _, _⟩ := hA
  repeat' (first
    | with_reducible assumption
    | intro y
    | (with_reducible apply guarded_keeps (hA := by first | with_reducible assumption | with_reducible apply_assumption))
    | (with_reducible apply report_keeps (hA := by first | with_reducible assumption | with_reducible apply_assumption))
    | (with_reducible apply derive_keeps (hA := by first | with_reducible assumption | with_reducible apply_assumption))
    | with_reducible apply keeps_ite
    | split)

def touchReservoir (A : Part → Prop) : Prop := A .vault
theorem touchReservoir_all (h : ∀ q, A q) : touchReservoir A := h _
theorem reservoir_keeps {mv : ℕ} (hA : touchReservoir A)  (h : Keeps A s t) : Keeps A s (State.reservoir t mv) := by
  unfold State.reservoir
  unfold touchReservoir at hA
  repeat' (first
    | with_reducible assumption
    | intro y
    | (extract_lets +onlyGivenNames x; first | (refine cut (P := Keeps A s x) ?_ ?_; (on_goal 1 => (unfold x; clear x)); (on_goal 2 => (intro hx; first | clear_value x | skip))) | clear_value x | skip)
    | with_reducible apply keeps_ite
    | split
    | refine keeps_ite ?_ ?_
    | with_reducible exact keeps_vault (by assumption) (by assumption))

def touchExecReservoirLow (A : Part → Prop) : Prop := touchLog A ∧ A (.reg R.KV_STAT.RES_OK) ∧ touchReservoir A
theorem touchExecReservoirLow_all (h : ∀ q, A q) : touchExecReservoirLow A := ⟨touchLog_all h, h _, touchReservoir_all h⟩
theorem execReservoirLow_next {mv : ℕ} (hA : touchExecReservoirLow A) : ∃ u, execReservoirLow mv s = .next u ∧ Keeps A s u := by
  unfold execReservoirLow
  have h := Keeps.refl A s
  refine ⟨_, rfl, ?_⟩
  obtain ⟨_, _, _⟩ := hA
  repeat' (first
    | with_reducible assumption
    | intro y
    | (extract_lets +onlyGivenNames x; first | (refine cut (P := Keeps A s x) ?_ ?_; (on_goal 1 => (unfold x; clear x)); (on_goal 2 => (intro hx; first | clear_value x | skip))) | clear_value x | skip)
    | (with_reducible refine put_keepsAt (by assumption) ?_)
    | (with_reducible refine put_keeps (by assumption) ?_)
    | (with_reducible apply log_keeps (hA := by first | with_reducible assumption | with_reducible apply_assumption))
    | (with_reducible apply reservoir_keeps (hA := by first | with_reducible assumption | with_reducible apply_assumption))
    | with_reducible apply keeps_ite
    | split
    | refine keeps_ite ?_ ?_)

def touchExecReservoirRecharged (A : Part → Prop) : Prop := A (.reg R.KV_STAT.RES_OK) ∧ touchReservoir A
theorem touchExecReservoirRecharged_all (h : ∀ q, A q) : touchExecReservoirRecharged A := ⟨h _, touchReservoir_all h⟩
theorem execReservoirRecharged_next {mv : ℕ} (hA : touchExecReservoirRecharged A) : ∃ u, execReservoirRecharged mv s = .next u ∧ Keeps A s u := by
  unfold execReservoirRecharged
  have h := Keeps.refl A s
  refine ⟨_, rfl, ?_⟩
  obtain ⟨_, _⟩ := hA
  repeat' (first
    | with_reducible assumption
    | intro y
    | (extract_lets +onlyGivenNames x; first | (refine cut (P := Keeps A s x) ?_ ?_; (on_goal 1 => (unfold x; clear x)); (on_goal 2 => (intro hx; first | clear_value x | skip))) | clear_value x | skip)
    | (with_reducible refine put_keepsAt (by assumption) ?_)
    | (with_reducible refine put_keeps (by assumption) ?_)
    | (with_reducible apply reservoir_keeps (hA := by first | with_reducible assumption | with_reducible apply_assumption))
    | with_reducible apply keeps_ite
    | split
    | refine keeps_ite ?_ ?_)

def touchTmpLatch (A : Part → Prop) : Prop := A .tmp ∧ A (.reg R.BIL_TMP.N_Q) ∧ A (.reg R.BIL_TMP.TMP_PEND) ∧ A (.reg R.BIL_TMP_CNT.TERM_CNT) ∧ A (.reg R.BIL_TMP_CNT.COVER_CNT)
theorem touchTmpLatch_all (h : ∀ q, A q) : touchTmpLatch A := ⟨h _, h _, h _, h _, h _⟩
theorem tmpLatch_keeps {term : Bool} {opened : Bool} (hA : touchTmpLatch A)  (h : Keeps A s t) : Keeps A s (State.tmpLatch t term opened) := by
  unfold State.tmpLatch
  obtain ⟨_, _, _, _, _⟩ := hA
  repeat' (first
    | with_reducible assumption
    | intro y
    | (extract_lets +onlyGivenNames x; first | (refine cut (P := Keeps A s x) ?_ ?_; (on_goal 1 => (unfold x; clear x)); (on_goal 2 => (intro hx; first | clear_value x | skip))) | clear_value x | skip)
    | (with_reducible refine put_keepsAt (by assumption) ?_)
    | (with_reducible refine put_keeps (by assumption) ?_)
    | (with_reducible refine inc_keepsAt (by assumption) ?_)
    | (with_reducible refine inc_keeps (by assumption) ?_)
    | with_reducible apply keeps_ite
    | split
    | refine keeps_ite ?_ ?_
    | with_reducible exact keeps_tmp (by assumption) (by assumption))

def touchExecTamperLoopSample (A : Part → Prop) : Prop := A .tmp ∧ A (.reg R.KV_STAT.MESH) ∧ A (.reg R.KV_STAT.LID) ∧ A (.reg R.BIL_TMP.TERM) ∧ A (.reg R.BIL_TMP.COVER) ∧ touchTmpLatch A ∧ touchDestroy A
theorem touchExecTamperLoopSample_all (h : ∀ q, A q) : touchExecTamperLoopSample A := ⟨h _, h _, h _, h _, h _, touchTmpLatch_all h, touchDestroy_all h⟩
theorem execTamperLoopSample_next {cover : Bool} {term : Bool} {lid : Bool} {mesh : Bool} (hA : touchExecTamperLoopSample A) : ∃ u, execTamperLoopSample cover term lid mesh s = .next u ∧ Keeps A s u := by
  unfold execTamperLoopSample
  have h := Keeps.refl A s
  refine ⟨_, rfl, ?_⟩
  obtain ⟨_, _, _, _, _, _, _⟩ := hA
  repeat' (first
    | with_reducible assumption
    | intro y
    | (extract_lets +onlyGivenNames x; first | (refine cut (P := Keeps A s x) ?_ ?_; (on_goal 1 => (unfold x; clear x)); (on_goal 2 => (intro hx; first | clear_value x | skip))) | clear_value x | skip)
    | (with_reducible refine putb_keepsAt (by assumption) ?_)
    | (with_reducible refine putb_keeps (by assumption) ?_)
    | (with_reducible apply tmpLatch_keeps (hA := by first | with_reducible assumption | with_reducible apply_assumption))
    | (with_reducible apply destroy_keeps (hA := by first | with_reducible assumption | with_reducible apply_assumption))
    | with_reducible apply keeps_ite
    | split
    | refine keeps_ite ?_ ?_
    | with_reducible exact keeps_tmp (by assumption) (by assumption))

def touchExecRecordSign (A : Part → Prop) : Prop := touchSlotCheck A ∧ touchRecShow A ∧ touchBilShow A ∧ A (.reg R.KV_CNT.SIGNS) ∧ A .bil
theorem touchExecRecordSign_all (h : ∀ q, A q) : touchExecRecordSign A := ⟨touchSlotCheck_all h, touchRecShow_all h, touchBilShow_all h, h _, h _⟩
theorem execRecordSign_next {ok : Bool} (hA : touchExecRecordSign A) : ∃ u, execRecordSign ok s = .next u ∧ Keeps A s u := by
  unfold execRecordSign
  have h := Keeps.refl A s
  refine ⟨_, rfl, ?_⟩
  obtain ⟨_, _, _, _, _⟩ := hA
  repeat' (first
    | with_reducible assumption
    | intro y
    | (extract_lets +onlyGivenNames x; first | (refine cut (P := Keeps A s x) ?_ ?_; (on_goal 1 => (unfold x; clear x)); (on_goal 2 => (intro hx; first | clear_value x | skip))) | clear_value x | skip)
    | (with_reducible refine inc_keepsAt (by assumption) ?_)
    | (with_reducible refine inc_keeps (by assumption) ?_)
    | (with_reducible apply slotCheck_keeps (hA := by first | with_reducible assumption | with_reducible apply_assumption))
    | (with_reducible apply recShow_keeps (hA := by first | with_reducible assumption | with_reducible apply_assumption))
    | (with_reducible apply bilShow_keeps (hA := by first | with_reducible assumption | with_reducible apply_assumption))
    | with_reducible apply keeps_ite
    | split
    | refine keeps_ite ?_ ?_
    | with_reducible exact keeps_bil (by assumption) (by assumption))

def touchExecSdpRequest (A : Part → Prop) : Prop := touchSlotCheck A ∧ touchEmit A ∧ touchLog A
theorem touchExecSdpRequest_all (h : ∀ q, A q) : touchExecSdpRequest A := ⟨touchSlotCheck_all h, touchEmit_all h, touchLog_all h⟩
theorem execSdpRequest_next {c : ℕ} {ok : Bool} (hA : touchExecSdpRequest A) : ∃ u, execSdpRequest c ok s = .next u ∧ Keeps A s u := by
  unfold execSdpRequest
  have h := Keeps.refl A s
  refine ⟨_, rfl, ?_⟩
  obtain ⟨_, _, _⟩ := hA
  repeat' (first
    | with_reducible assumption
    | intro y
    | (extract_lets +onlyGivenNames x; first | (refine cut (P := Keeps A s x) ?_ ?_; (on_goal 1 => (unfold x; clear x)); (on_goal 2 => (intro hx; first | clear_value x | skip))) | clear_value x | skip)
    | (with_reducible apply slotCheck_keeps (hA := by first | with_reducible assumption | with_reducible apply_assumption))
    | (with_reducible apply emit_keeps (hA := by first | with_reducible assumption | with_reducible apply_assumption))
    | (with_reducible apply log_keeps (hA := by first | with_reducible assumption | with_reducible apply_assumption))
    | with_reducible apply keeps_ite
    | split
    | refine keeps_ite ?_ ?_)

end Sys2Proof.Laws
end

