-- ==== Sys2Proof/Laws/KeepsWriteOps.lean ====
section
/-! SUPPORT. What the operations of Machine/WriteOps.lean leave alone: for each the parts it may change (`touch…`) and its lemma. -/

namespace Sys2Proof.Laws

open Sys2Proof.Machine

set_option linter.unusedTactic false
set_option linter.unreachableTactic false
set_option linter.unusedVariables false
set_option linter.tactic.unusedName false

variable {A : Part → Prop} {s t : State}

def touchFreeBit (A : Part → Prop) : Prop := touchFree A
theorem touchFreeBit_all (h : ∀ q, A q) : touchFreeBit A := touchFree_all h
theorem freeBit_keeps  (hA : touchFreeBit A)  (h : Keeps A s t) : Keeps A s (State.freeBit t).2 := by
  unfold State.freeBit
  unfold touchFreeBit at hA
  repeat' (first
    | with_reducible assumption
    | intro y
    | (extract_lets +onlyGivenNames x; first | (refine cut (P := Keeps A s x) ?_ ?_; (on_goal 1 => (unfold x; clear x)); (on_goal 2 => (intro hx; first | clear_value x | skip))) | (refine cut (P := Keeps A s x.2) ?_ ?_; (on_goal 1 => (unfold x; clear x)); (on_goal 2 => (intro hx; first | clear_value x | skip))) | (refine cut (P := Keeps A s x.2.2) ?_ ?_; (on_goal 1 => (unfold x; clear x)); (on_goal 2 => (intro hx; first | clear_value x | skip))) | clear_value x | skip)
    | (with_reducible apply free_keeps (hA := by first | with_reducible assumption | with_reducible apply_assumption))
    | with_reducible apply keeps_ite
    | with_reducible apply keeps_ite2
    | with_reducible apply keeps_ite3
    | split
    | refine keeps_ite ?_ ?_)

def touchFreeObs (A : Part → Prop) : Prop := touchFreeBit A ∧ touchFree A
theorem touchFreeObs_all (h : ∀ q, A q) : touchFreeObs A := ⟨touchFreeBit_all h, touchFree_all h⟩
theorem freeObs_keeps  (hA : touchFreeObs A)  (h : Keeps A s t) : Keeps A s (State.freeObs t).2 := by
  unfold State.freeObs
  obtain ⟨_, _⟩ := hA
  repeat' (first
    | with_reducible assumption
    | intro y
    | (extract_lets +onlyGivenNames x; first | (refine cut (P := Keeps A s x) ?_ ?_; (on_goal 1 => (unfold x; clear x)); (on_goal 2 => (intro hx; first | clear_value x | skip))) | (refine cut (P := Keeps A s x.2) ?_ ?_; (on_goal 1 => (unfold x; clear x)); (on_goal 2 => (intro hx; first | clear_value x | skip))) | (refine cut (P := Keeps A s x.2.2) ?_ ?_; (on_goal 1 => (unfold x; clear x)); (on_goal 2 => (intro hx; first | clear_value x | skip))) | clear_value x | skip)
    | (with_reducible apply freeBit_keeps (hA := by first | with_reducible assumption | with_reducible apply_assumption))
    | (with_reducible apply free_keeps (hA := by first | with_reducible assumption | with_reducible apply_assumption))
    | with_reducible apply keeps_ite
    | with_reducible apply keeps_ite2
    | with_reducible apply keeps_ite3
    | split
    | refine keeps_ite ?_ ?_)

def touchRefusedValue (A : Part → Prop) : Prop := touchLog A ∧ A (.reg R.LE_L_STAT.SET_WR_REF)
theorem touchRefusedValue_all (h : ∀ q, A q) : touchRefusedValue A := ⟨touchLog_all h, h _⟩
theorem refusedValue_keeps {w : Sys2Proof.Machine.Wr} {f : Sys2Proof.Machine.Field} (hA : touchRefusedValue A)  (h : Keeps A s t) : Keeps A s (State.refusedValue t w f) := by
  unfold State.refusedValue
  obtain ⟨_, _⟩ := hA
  repeat' (first
    | with_reducible assumption
    | intro y
    | (extract_lets +onlyGivenNames x; first | (refine cut (P := Keeps A s x) ?_ ?_; (on_goal 1 => (unfold x; clear x)); (on_goal 2 => (intro hx; first | clear_value x | skip))) | clear_value x | skip)
    | (with_reducible apply log_keeps (hA := by first | with_reducible assumption | with_reducible apply_assumption))
    | (with_reducible refine put_keepsAt (by assumption) ?_)
    | (with_reducible refine put_keeps (by assumption) ?_)
    | with_reducible apply keeps_ite
    | split
    | refine keeps_ite ?_ ?_)

def touchActSys (A : Part → Prop) : Prop := touchApplyWrite A ∧ touchFreeObs A ∧ touchSoftReset A ∧ touchTsrcShow A ∧ A .regs ∧ touchNetShow A ∧ touchNetAddr A ∧ touchSessCloseLevel A
theorem touchActSys_all (h : ∀ q, A q) : touchActSys A := ⟨touchApplyWrite_all h, touchFreeObs_all h, touchSoftReset_all h, touchTsrcShow_all h, h _, touchNetShow_all h, touchNetAddr_all h, touchSessCloseLevel_all h⟩
theorem actSys_keeps {w : Sys2Proof.Machine.Wr} {f : Sys2Proof.Machine.Field} (hA : touchActSys A)  (h : Keeps A s t) : Keeps A s (State.actSys t w f) := by
  unfold State.actSys
  obtain ⟨_, _, _, _, _, _, _, _⟩ := hA
  repeat' (first
    | with_reducible assumption
    | intro y
    | (extract_lets +onlyGivenNames x; first | (refine cut (P := Keeps A s x) ?_ ?_; (on_goal 1 => (unfold x; clear x)); (on_goal 2 => (intro hx; first | clear_value x | skip))) | (refine cut (P := Keeps A s x.2) ?_ ?_; (on_goal 1 => (unfold x; clear x)); (on_goal 2 => (intro hx; first | clear_value x | skip))) | (refine cut (P := Keeps A s x.2.2) ?_ ?_; (on_goal 1 => (unfold x; clear x)); (on_goal 2 => (intro hx; first | clear_value x | skip))) | clear_value x | skip)
    | (with_reducible refine put_keepsAt (by assumption) ?_)
    | (with_reducible refine put_keeps (by assumption) ?_)
    | (with_reducible refine put_keepsAny (by assumption) ?_)
    | (with_reducible refine keeps_setWord (by assumption) ?_)
    | (with_reducible apply applyWrite_keeps (hA := by first | with_reducible assumption | with_reducible apply_assumption))
    | (with_reducible apply freeObs_keeps (hA := by first | with_reducible assumption | with_reducible apply_assumption))
    | (with_reducible apply softReset_keeps (hA := by first | with_reducible assumption | with_reducible apply_assumption))
    | (with_reducible apply tsrcShow_keeps (hA := by first | with_reducible assumption | with_reducible apply_assumption))
    | (with_reducible apply netShow_keeps (hA := by first | with_reducible assumption | with_reducible apply_assumption))
    | (with_reducible apply netAddr_keeps (hA := by first | with_reducible assumption | with_reducible apply_assumption))
    | (with_reducible apply sessCloseLevel_keeps (hA := by first | with_reducible assumption | with_reducible apply_assumption))
    | with_reducible apply when_keeps
    | with_reducible apply keeps_ite
    | with_reducible apply keeps_ite2
    | with_reducible apply keeps_ite3
    | split
    | refine keeps_ite ?_ ?_)

def touchActPwr (A : Part → Prop) : Prop := touchQuietRequest A ∧ touchRunRequest A ∧ touchDormantRequest A ∧ A (.reg R.PWR_HOLDUP.TESTING) ∧ touchDomainWrite A ∧ touchHoldupShow A ∧ A .regs ∧ (∀ x0 x1, touchAuxLoop A x0 x1) ∧ (∀ x0, touchAuxSyncEn A x0) ∧ (∀ x0, touchAuxBurstEn A x0) ∧ (∀ x0, touchAuxWrite A x0) ∧ (∀ x0, touchAuxFaultClear A x0)
theorem touchActPwr_all (h : ∀ q, A q) : touchActPwr A := ⟨touchQuietRequest_all h, touchRunRequest_all h, touchDormantRequest_all h, h _, touchDomainWrite_all h, touchHoldupShow_all h, h _, (fun _ _ => touchAuxLoop_all h), (fun _ => touchAuxSyncEn_all h), (fun _ => touchAuxBurstEn_all h), (fun _ => touchAuxWrite_all h), (fun _ => touchAuxFaultClear_all h)⟩
theorem actPwr_keeps {w : Sys2Proof.Machine.Wr} {f : Sys2Proof.Machine.Field} (hA : touchActPwr A)  (h : Keeps A s t) : Keeps A s (State.actPwr t w f) := by
  unfold State.actPwr
  obtain ⟨_, _, _, _, _, _, _, _, _, _, _, _⟩ := hA
  repeat' (first
    | with_reducible assumption
    | intro y
    | (extract_lets +onlyGivenNames x; first | (refine cut (P := Keeps A s x) ?_ ?_; (on_goal 1 => (unfold x; clear x)); (on_goal 2 => (intro hx; first | clear_value x | skip))) | clear_value x | skip)
    | (with_reducible refine put_keepsAt (by assumption) ?_)
    | (with_reducible refine put_keeps (by assumption) ?_)
    | (with_reducible refine put_keepsAny (by assumption) ?_)
    | (with_reducible refine keeps_setWord (by assumption) ?_)
    | (with_reducible apply quietRequest_keeps (hA := by first | with_reducible assumption | with_reducible apply_assumption))
    | (with_reducible apply runRequest_keeps (hA := by first | with_reducible assumption | with_reducible apply_assumption))
    | (with_reducible apply dormantRequest_keeps (hA := by first | with_reducible assumption | with_reducible apply_assumption))
    | (with_reducible apply domainWrite_keeps (hA := by first | with_reducible assumption | with_reducible apply_assumption))
    | (with_reducible apply holdupShow_keeps (hA := by first | with_reducible assumption | with_reducible apply_assumption))
    | (with_reducible apply auxLoop_keeps (hA := by first | with_reducible assumption | with_reducible apply_assumption))
    | (with_reducible apply auxSyncEn_keeps (hA := by first | with_reducible assumption | with_reducible apply_assumption))
    | (with_reducible apply auxBurstEn_keeps (hA := by first | with_reducible assumption | with_reducible apply_assumption))
    | (with_reducible apply auxWrite_keeps (hA := by first | with_reducible assumption | with_reducible apply_assumption))
    | (with_reducible apply auxFaultClear_keeps (hA := by first | with_reducible assumption | with_reducible apply_assumption))
    | with_reducible apply when_keeps
    | with_reducible apply keeps_ite
    | split
    | refine keeps_ite ?_ ?_)

def touchActTb (A : Part → Prop) : Prop := touchOfsCommitWrite A
theorem touchActTb_all (h : ∀ q, A q) : touchActTb A := touchOfsCommitWrite_all h
theorem actTb_keeps {w : Sys2Proof.Machine.Wr} {f : Sys2Proof.Machine.Field} (hA : touchActTb A)  (h : Keeps A s t) : Keeps A s (State.actTb t w f) := by
  unfold State.actTb
  unfold touchActTb at hA
  repeat' (first
    | with_reducible assumption
    | intro y
    | with_reducible apply when_keeps
    | (with_reducible apply ofsCommitWrite_keeps (hA := by first | with_reducible assumption | with_reducible apply_assumption))
    | with_reducible apply keeps_ite
    | split)

def touchActPe (A : Part → Prop) : Prop := A .regs ∧ (∀ x0, touchGroupCfg A x0) ∧ touchFreeBit A ∧ (∀ x0, touchPhaseEnable A x0) ∧ (∀ x0, touchPhaseDisable A x0) ∧ touchChecksClear A ∧ (∀ x0, touchGroupEnable A x0) ∧ (∀ x0, touchGroupDisable A x0)
theorem touchActPe_all (h : ∀ q, A q) : touchActPe A := ⟨h _, (fun _ => touchGroupCfg_all h), touchFreeBit_all h, (fun _ => touchPhaseEnable_all h), (fun _ => touchPhaseDisable_all h), touchChecksClear_all h, (fun _ => touchGroupEnable_all h), (fun _ => touchGroupDisable_all h)⟩
theorem actPe_keeps {w : Sys2Proof.Machine.Wr} {f : Sys2Proof.Machine.Field} (hA : touchActPe A)  (h : Keeps A s t) : Keeps A s (State.actPe t w f) := by
  unfold State.actPe
  obtain ⟨_, _, _, _, _, _, _, _⟩ := hA
  repeat' (first
    | with_reducible assumption
    | intro y
    | (extract_lets +onlyGivenNames x; first | (refine cut (P := Keeps A s x) ?_ ?_; (on_goal 1 => (unfold x; clear x)); (on_goal 2 => (intro hx; first | clear_value x | skip))) | (refine cut (P := Keeps A s x.2) ?_ ?_; (on_goal 1 => (unfold x; clear x)); (on_goal 2 => (intro hx; first | clear_value x | skip))) | (refine cut (P := Keeps A s x.2.2) ?_ ?_; (on_goal 1 => (unfold x; clear x)); (on_goal 2 => (intro hx; first | clear_value x | skip))) | clear_value x | skip)
    | (with_reducible refine put_keepsAt (by assumption) ?_)
    | (with_reducible refine put_keeps (by assumption) ?_)
    | (with_reducible refine put_keepsAny (by assumption) ?_)
    | (with_reducible refine keeps_setWord (by assumption) ?_)
    | (with_reducible apply groupCfg_keeps (hA := by first | with_reducible assumption | with_reducible apply_assumption))
    | (with_reducible apply freeBit_keeps (hA := by first | with_reducible assumption | with_reducible apply_assumption))
    | (with_reducible apply phaseEnable_keeps (hA := by first | with_reducible assumption | with_reducible apply_assumption))
    | (with_reducible apply phaseDisable_keeps (hA := by first | with_reducible assumption | with_reducible apply_assumption))
    | (with_reducible apply checksClear_keeps (hA := by first | with_reducible assumption | with_reducible apply_assumption))
    | (with_reducible apply groupEnable_keeps (hA := by first | with_reducible assumption | with_reducible apply_assumption))
    | (with_reducible apply groupDisable_keeps (hA := by first | with_reducible assumption | with_reducible apply_assumption))
    | with_reducible apply when_keeps
    | with_reducible apply each_keeps
    | with_reducible apply keeps_ite
    | with_reducible apply keeps_ite2
    | with_reducible apply keeps_ite3
    | split
    | refine keeps_ite ?_ ?_)

def touchActLe (A : Part → Prop) : Prop := A .le ∧ A .ff ∧ touchSrateWrite A ∧ (∀ x0, touchLoopEnable A x0) ∧ (∀ x0, touchLoopDisable A x0) ∧ (∀ x0, touchLoopMode A x0) ∧ touchSetLx A ∧ (∀ x0, touchInjEnable A x0) ∧ A (.reg R.LE_INJ_CTRL.EN) ∧ (∀ x0, touchInjEnd A x0) ∧ touchCapArm A ∧ A (.reg R.LE_FF_ADDR.INDEX)
theorem touchActLe_all (h : ∀ q, A q) : touchActLe A := ⟨h _, h _, touchSrateWrite_all h, fun _ => touchLoopEnable_all h, fun _ => touchLoopDisable_all h, fun _ => touchLoopMode_all h, touchSetLx_all h, fun _ => touchInjEnable_all h, h _, fun _ => touchInjEnd_all h, touchCapArm_all h, h _⟩
theorem actLe_keeps {w : Sys2Proof.Machine.Wr} {f : Sys2Proof.Machine.Field} (hA : touchActLe A)  (h : Keeps A s t) : Keeps A s (State.actLe t w f) := by
  unfold State.actLe
  obtain ⟨_, _, _, _, _, _, _, _, _, _, _, _⟩ := hA
  repeat' (first
    | with_reducible assumption
    | intro y
    | (extract_lets +onlyGivenNames x; first | (refine cut (P := Keeps A s x) ?_ ?_; (on_goal 1 => (unfold x; clear x)); (on_goal 2 => (intro hx; first | clear_value x | skip))) | clear_value x | skip)
    | (with_reducible apply srateWrite_keeps (hA := by first | with_reducible assumption | with_reducible apply_assumption))
    | (with_reducible apply loopEnable_keeps (hA := by first | with_reducible assumption | with_reducible apply_assumption))
    | (with_reducible apply loopDisable_keeps (hA := by first | with_reducible assumption | with_reducible apply_assumption))
    | (with_reducible apply loopMode_keeps (hA := by first | with_reducible assumption | with_reducible apply_assumption))
    | with_reducible apply when_keeps
    | (with_reducible apply setLx_keeps (hA := by first | with_reducible assumption | with_reducible apply_assumption))
    | (with_reducible apply injEnable_keeps (hA := by first | with_reducible assumption | with_reducible apply_assumption))
    | (with_reducible refine put_keepsAt (by assumption) ?_)
    | (with_reducible refine put_keeps (by assumption) ?_)
    | (with_reducible apply injEnd_keeps (hA := by first | with_reducible assumption | with_reducible apply_assumption))
    | (with_reducible apply capArm_keeps (hA := by first | with_reducible assumption | with_reducible apply_assumption))
    | with_reducible apply keeps_ite
    | split
    | refine keeps_ite ?_ ?_
    | with_reducible exact keeps_le (by assumption) (by assumption)
    | with_reducible exact keeps_ff (by assumption) (by assumption))

def touchActMet (A : Part → Prop) : Prop := touchSealSet A ∧ A .regs ∧ touchSnapArm A ∧ (∀ x0, touchSnapRelease A x0) ∧ touchSnapTarget A ∧ (∀ x0, touchPeakClear A x0) ∧ (∀ x0, touchPulRestart A x0)
theorem touchActMet_all (h : ∀ q, A q) : touchActMet A := ⟨touchSealSet_all h, h _, touchSnapArm_all h, (fun _ => touchSnapRelease_all h), touchSnapTarget_all h, (fun _ => touchPeakClear_all h), (fun _ => touchPulRestart_all h)⟩
theorem actMet_keeps {w : Sys2Proof.Machine.Wr} {f : Sys2Proof.Machine.Field} (hA : touchActMet A)  (h : Keeps A s t) : Keeps A s (State.actMet t w f) := by
  unfold State.actMet
  obtain ⟨_, _, _, _, _, _, _⟩ := hA
  repeat' (first
    | with_reducible assumption
    | intro y
    | (extract_lets +onlyGivenNames x; first | (refine cut (P := Keeps A s x) ?_ ?_; (on_goal 1 => (unfold x; clear x)); (on_goal 2 => (intro hx; first | clear_value x | skip))) | clear_value x | skip)
    | (with_reducible refine put_keepsAt (by assumption) ?_)
    | (with_reducible refine put_keeps (by assumption) ?_)
    | (with_reducible refine put_keepsAny (by assumption) ?_)
    | (with_reducible refine keeps_setWord (by assumption) ?_)
    | (with_reducible apply sealSet_keeps (hA := by first | with_reducible assumption | with_reducible apply_assumption))
    | (with_reducible apply snapArm_keeps (hA := by first | with_reducible assumption | with_reducible apply_assumption))
    | (with_reducible apply snapRelease_keeps (hA := by first | with_reducible assumption | with_reducible apply_assumption))
    | (with_reducible apply snapTarget_keeps (hA := by first | with_reducible assumption | with_reducible apply_assumption))
    | (with_reducible apply peakClear_keeps (hA := by first | with_reducible assumption | with_reducible apply_assumption))
    | (with_reducible apply pulRestart_keeps (hA := by first | with_reducible assumption | with_reducible apply_assumption))
    | with_reducible apply when_keeps
    | with_reducible apply each_keeps
    | with_reducible apply keeps_ite
    | split
    | refine keeps_ite ?_ ?_)

def touchActBil (A : Part → Prop) : Prop := touchRebase A ∧ A .regs ∧ touchCalActivate A ∧ touchTmpAck A ∧ touchSessAck A ∧ A (.reg R.BIL_CAL_ADDR.INDEX) ∧ A .bil ∧ A .capt
theorem touchActBil_all (h : ∀ q, A q) : touchActBil A := ⟨touchRebase_all h, h _, touchCalActivate_all h, touchTmpAck_all h, touchSessAck_all h, h _, h _, h _⟩
theorem actBil_keeps {w : Sys2Proof.Machine.Wr} {f : Sys2Proof.Machine.Field} (hA : touchActBil A)  (h : Keeps A s t) : Keeps A s (State.actBil t w f) := by
  unfold State.actBil
  obtain ⟨_, _, _, _, _, _, _, _⟩ := hA
  repeat' (first
    | with_reducible assumption
    | intro y
    | (extract_lets +onlyGivenNames x; first | (refine cut (P := Keeps A s x) ?_ ?_; (on_goal 1 => (unfold x; clear x)); (on_goal 2 => (intro hx; first | clear_value x | skip))) | clear_value x | skip)
    | (with_reducible refine put_keepsAt (by assumption) ?_)
    | (with_reducible refine put_keeps (by assumption) ?_)
    | (with_reducible refine put_keepsAny (by assumption) ?_)
    | (with_reducible refine keeps_setWord (by assumption) ?_)
    | (with_reducible apply rebase_keeps (hA := by first | with_reducible assumption | with_reducible apply_assumption))
    | (with_reducible apply calActivate_keeps (hA := by first | with_reducible assumption | with_reducible apply_assumption))
    | (with_reducible apply tmpAck_keeps (hA := by first | with_reducible assumption | with_reducible apply_assumption))
    | (with_reducible apply sessAck_keeps (hA := by first | with_reducible assumption | with_reducible apply_assumption))
    | with_reducible apply when_keeps
    | with_reducible apply keeps_ite
    | split
    | refine keeps_ite ?_ ?_
    | with_reducible exact keeps_bil (by assumption) (by assumption)
    | with_reducible exact keeps_capt (by assumption) (by assumption))

def touchActVs (A : Part → Prop) : Prop := (∀ x0, touchAuthWrite A x0) ∧ (∀ x0, touchStopWrite A x0) ∧ (∀ x0, touchConnClr A x0)
theorem touchActVs_all (h : ∀ q, A q) : touchActVs A := ⟨fun _ => touchAuthWrite_all h, fun _ => touchStopWrite_all h, fun _ => touchConnClr_all h⟩
theorem actVs_keeps {w : Sys2Proof.Machine.Wr} {f : Sys2Proof.Machine.Field} (hA : touchActVs A)  (h : Keeps A s t) : Keeps A s (State.actVs t w f) := by
  unfold State.actVs
  obtain ⟨_, _, _⟩ := hA
  repeat' (first
    | with_reducible assumption
    | intro y
    | (extract_lets +onlyGivenNames x; first | (refine cut (P := Keeps A s x) ?_ ?_; (on_goal 1 => (unfold x; clear x)); (on_goal 2 => (intro hx; first | clear_value x | skip))) | clear_value x | skip)
    | (with_reducible apply authWrite_keeps (hA := by first | with_reducible assumption | with_reducible apply_assumption))
    | with_reducible apply when_keeps
    | (with_reducible apply stopWrite_keeps (hA := by first | with_reducible assumption | with_reducible apply_assumption))
    | (with_reducible apply connClr_keeps (hA := by first | with_reducible assumption | with_reducible apply_assumption))
    | with_reducible apply keeps_ite
    | split
    | refine keeps_ite ?_ ?_)

def touchActTh (A : Part → Prop) : Prop := (∀ x0, touchZoneEnable A x0) ∧ (∀ x0, touchZoneDisable A x0) ∧ touchFree A ∧ (∀ x0, touchShutRelease A x0) ∧ A .regs ∧ touchSnowSet A ∧ A (.reg R.TH_TS_STAT.WARN) ∧ A (.reg R.TH_TS_STAT.STATE)
theorem touchActTh_all (h : ∀ q, A q) : touchActTh A := ⟨(fun _ => touchZoneEnable_all h), (fun _ => touchZoneDisable_all h), touchFree_all h, (fun _ => touchShutRelease_all h), h _, touchSnowSet_all h, h _, h _⟩
theorem actTh_keeps {w : Sys2Proof.Machine.Wr} {f : Sys2Proof.Machine.Field} (hA : touchActTh A)  (h : Keeps A s t) : Keeps A s (State.actTh t w f) := by
  unfold State.actTh
  obtain ⟨_, _, _, _, _, _, _, _⟩ := hA
  repeat' (first
    | with_reducible assumption
    | intro y
    | (extract_lets +onlyGivenNames x; first | (refine cut (P := Keeps A s x) ?_ ?_; (on_goal 1 => (unfold x; clear x)); (on_goal 2 => (intro hx; first | clear_value x | skip))) | (refine cut (P := Keeps A s x.2) ?_ ?_; (on_goal 1 => (unfold x; clear x)); (on_goal 2 => (intro hx; first | clear_value x | skip))) | (refine cut (P := Keeps A s x.2.2) ?_ ?_; (on_goal 1 => (unfold x; clear x)); (on_goal 2 => (intro hx; first | clear_value x | skip))) | clear_value x | skip)
    | (with_reducible refine put_keepsAt (by assumption) ?_)
    | (with_reducible refine put_keeps (by assumption) ?_)
    | (with_reducible refine put_keepsAny (by assumption) ?_)
    | (with_reducible refine keeps_setWord (by assumption) ?_)
    | (with_reducible apply zoneEnable_keeps (hA := by first | with_reducible assumption | with_reducible apply_assumption))
    | (with_reducible apply zoneDisable_keeps (hA := by first | with_reducible assumption | with_reducible apply_assumption))
    | (with_reducible apply free_keeps (hA := by first | with_reducible assumption | with_reducible apply_assumption))
    | (with_reducible apply shutRelease_keeps (hA := by first | with_reducible assumption | with_reducible apply_assumption))
    | (with_reducible apply snowSet_keeps (hA := by first | with_reducible assumption | with_reducible apply_assumption))
    | with_reducible apply when_keeps
    | with_reducible apply keeps_ite
    | with_reducible apply keeps_ite2
    | with_reducible apply keeps_ite3
    | split
    | refine keeps_ite ?_ ?_)

def touchActLsw (A : Part → Prop) : Prop := (∀ x0, touchOnWrite A x0) ∧ (∀ x0, touchLatchRelease A x0)
theorem touchActLsw_all (h : ∀ q, A q) : touchActLsw A := ⟨fun _ => touchOnWrite_all h, fun _ => touchLatchRelease_all h⟩
theorem actLsw_keeps {w : Sys2Proof.Machine.Wr} {f : Sys2Proof.Machine.Field} (hA : touchActLsw A)  (h : Keeps A s t) : Keeps A s (State.actLsw t w f) := by
  unfold State.actLsw
  obtain ⟨_, _⟩ := hA
  repeat' (first
    | with_reducible assumption
    | intro y
    | (extract_lets +onlyGivenNames x; first | (refine cut (P := Keeps A s x) ?_ ?_; (on_goal 1 => (unfold x; clear x)); (on_goal 2 => (intro hx; first | clear_value x | skip))) | clear_value x | skip)
    | (with_reducible apply onWrite_keeps (hA := by first | with_reducible assumption | with_reducible apply_assumption))
    | with_reducible apply when_keeps
    | (with_reducible apply latchRelease_keeps (hA := by first | with_reducible assumption | with_reducible apply_assumption))
    | with_reducible apply keeps_ite
    | split
    | refine keeps_ite ?_ ?_)

def touchActCan (A : Part → Prop) : Prop := (∀ x0, touchCanEnable A x0) ∧ (∀ x0, touchCanInit A x0) ∧ (∀ x0, touchCanStart A x0) ∧ (∀ x0, touchCanRecover A x0) ∧ (∀ x0, touchCanUnlock A x0) ∧ (∀ x0 x1, touchTxRequest A x0 x1) ∧ touchFreeBit A ∧ (∀ x0 x1, touchTxAbort A x0 x1)
theorem touchActCan_all (h : ∀ q, A q) : touchActCan A := ⟨fun _ => touchCanEnable_all h, fun _ => touchCanInit_all h, fun _ => touchCanStart_all h, fun _ => touchCanRecover_all h, fun _ => touchCanUnlock_all h, fun _ _ => touchTxRequest_all h, touchFreeBit_all h, fun _ _ => touchTxAbort_all h⟩
theorem actCan_keeps {w : Sys2Proof.Machine.Wr} {f : Sys2Proof.Machine.Field} (hA : touchActCan A)  (h : Keeps A s t) : Keeps A s (State.actCan t w f) := by
  unfold State.actCan
  obtain ⟨_, _, _, _, _, _, _, _⟩ := hA
  repeat' (first
    | with_reducible assumption
    | intro y
    | (extract_lets +onlyGivenNames x; first | (refine cut (P := Keeps A s x) ?_ ?_; (on_goal 1 => (unfold x; clear x)); (on_goal 2 => (intro hx; first | clear_value x | skip))) | (refine cut (P := Keeps A s x.2) ?_ ?_; (on_goal 1 => (unfold x; clear x)); (on_goal 2 => (intro hx; first | clear_value x | skip))) | (refine cut (P := Keeps A s x.2.2) ?_ ?_; (on_goal 1 => (unfold x; clear x)); (on_goal 2 => (intro hx; first | clear_value x | skip))) | clear_value x | skip)
    | (with_reducible apply canEnable_keeps (hA := by first | with_reducible assumption | with_reducible apply_assumption))
    | (with_reducible apply canInit_keeps (hA := by first | with_reducible assumption | with_reducible apply_assumption))
    | (with_reducible apply canStart_keeps (hA := by first | with_reducible assumption | with_reducible apply_assumption))
    | with_reducible apply when_keeps
    | (with_reducible apply canRecover_keeps (hA := by first | with_reducible assumption | with_reducible apply_assumption))
    | (with_reducible apply canUnlock_keeps (hA := by first | with_reducible assumption | with_reducible apply_assumption))
    | (with_reducible apply txRequest_keeps (hA := by first | with_reducible assumption | with_reducible apply_assumption))
    | (with_reducible apply freeBit_keeps (hA := by first | with_reducible assumption | with_reducible apply_assumption))
    | (with_reducible apply txAbort_keeps (hA := by first | with_reducible assumption | with_reducible apply_assumption))
    | with_reducible apply keeps_ite
    | with_reducible apply keeps_ite2
    | with_reducible apply keeps_ite3
    | split
    | refine keeps_ite ?_ ?_)

def touchKvGo (A : Part → Prop) : Prop := touchFreeBit A ∧ touchLoadKey A ∧ touchLoadCert A ∧ touchGenerate A ∧ touchKvErase A ∧ touchDerive A
theorem touchKvGo_all (h : ∀ q, A q) : touchKvGo A := ⟨touchFreeBit_all h, touchLoadKey_all h, touchLoadCert_all h, touchGenerate_all h, touchKvErase_all h, touchDerive_all h⟩
theorem kvGo_keeps {sess : ℕ} (hA : touchKvGo A)  (h : Keeps A s t) : Keeps A s (State.kvGo t sess) := by
  unfold State.kvGo
  obtain ⟨_, _, _, _, _, _⟩ := hA
  repeat' (first
    | with_reducible assumption
    | intro y
    | (extract_lets +onlyGivenNames x; first | (refine cut (P := Keeps A s x) ?_ ?_; (on_goal 1 => (unfold x; clear x)); (on_goal 2 => (intro hx; first | clear_value x | skip))) | (refine cut (P := Keeps A s x.2) ?_ ?_; (on_goal 1 => (unfold x; clear x)); (on_goal 2 => (intro hx; first | clear_value x | skip))) | (refine cut (P := Keeps A s x.2.2) ?_ ?_; (on_goal 1 => (unfold x; clear x)); (on_goal 2 => (intro hx; first | clear_value x | skip))) | clear_value x | skip)
    | (with_reducible apply freeBit_keeps (hA := by first | with_reducible assumption | with_reducible apply_assumption))
    | (with_reducible apply loadKey_keeps (hA := by first | with_reducible assumption | with_reducible apply_assumption))
    | (with_reducible apply loadCert_keeps (hA := by first | with_reducible assumption | with_reducible apply_assumption))
    | (with_reducible apply generate_keeps (hA := by first | with_reducible assumption | with_reducible apply_assumption))
    | (with_reducible apply kvErase_keeps (hA := by first | with_reducible assumption | with_reducible apply_assumption))
    | (with_reducible apply derive_keeps (hA := by first | with_reducible assumption | with_reducible apply_assumption))
    | with_reducible apply keeps_ite
    | with_reducible apply keeps_ite2
    | with_reducible apply keeps_ite3
    | split
    | refine keeps_ite ?_ ?_)

def touchActKv (A : Part → Prop) : Prop := touchStageWrite A ∧ touchKvGo A
theorem touchActKv_all (h : ∀ q, A q) : touchActKv A := ⟨touchStageWrite_all h, touchKvGo_all h⟩
theorem actKv_keeps {w : Sys2Proof.Machine.Wr} {f : Sys2Proof.Machine.Field} (hA : touchActKv A)  (h : Keeps A s t) : Keeps A s (State.actKv t w f) := by
  unfold State.actKv
  obtain ⟨_, _⟩ := hA
  repeat' (first
    | with_reducible assumption
    | intro y
    | (with_reducible apply stageWrite_keeps (hA := by first | with_reducible assumption | with_reducible apply_assumption))
    | with_reducible apply when_keeps
    | (with_reducible apply kvGo_keeps (hA := by first | with_reducible assumption | with_reducible apply_assumption))
    | with_reducible apply keeps_ite
    | split)

def touchActEvr (A : Part → Prop) : Prop := touchSetSes A ∧ touchLogClear A ∧ touchFreeBit A ∧ touchWindowLoad A ∧ touchSearch A
theorem touchActEvr_all (h : ∀ q, A q) : touchActEvr A := ⟨touchSetSes_all h, touchLogClear_all h, touchFreeBit_all h, touchWindowLoad_all h, touchSearch_all h⟩
theorem actEvr_keeps {w : Sys2Proof.Machine.Wr} {f : Sys2Proof.Machine.Field} (hA : touchActEvr A)  (h : Keeps A s t) : Keeps A s (State.actEvr t w f) := by
  unfold State.actEvr
  obtain ⟨_, _, _, _, _⟩ := hA
  repeat' (first
    | with_reducible assumption
    | intro y
    | (extract_lets +onlyGivenNames x; first | (refine cut (P := Keeps A s x) ?_ ?_; (on_goal 1 => (unfold x; clear x)); (on_goal 2 => (intro hx; first | clear_value x | skip))) | (refine cut (P := Keeps A s x.2) ?_ ?_; (on_goal 1 => (unfold x; clear x)); (on_goal 2 => (intro hx; first | clear_value x | skip))) | (refine cut (P := Keeps A s x.2.2) ?_ ?_; (on_goal 1 => (unfold x; clear x)); (on_goal 2 => (intro hx; first | clear_value x | skip))) | (refine cut (P := ∀ y, Keeps A s y → Keeps A s (x y)) ?_ ?_; (on_goal 1 => (unfold x; clear x)); (on_goal 2 => (intro hf; first | clear_value x | skip))) | (refine cut (P := ∀ y, Keeps A s (x y)) ?_ ?_; (on_goal 1 => (unfold x; clear x)); (on_goal 2 => (intro hf; first | clear_value x | skip))) | (refine cut (P := ∀ y z, Keeps A s y → Keeps A s (x y z)) ?_ ?_; (on_goal 1 => (unfold x; clear x)); (on_goal 2 => (intro hf; first | clear_value x | skip))) | (refine cut (P := ∀ y z, Keeps A s z → Keeps A s (x y z)) ?_ ?_; (on_goal 1 => (unfold x; clear x)); (on_goal 2 => (intro hf; first | clear_value x | skip))) | (refine cut (P := ∀ y z w, Keeps A s y → Keeps A s (x y z w)) ?_ ?_; (on_goal 1 => (unfold x; clear x)); (on_goal 2 => (intro hf; first | clear_value x | skip))) | (refine cut (P := ∀ (d : Nat) (g : State → State) (y : State), (∀ z, Keeps A s z → Keeps A s (g z)) → Keeps A s y → Keeps A s (x d g y)) ?_ ?_; (on_goal 1 => (unfold x; clear x)); (on_goal 2 => (intro hf; first | clear_value x | skip))) | clear_value x | skip)
    | (with_reducible apply setSes_keeps (hA := by first | with_reducible assumption | with_reducible apply_assumption))
    | (with_reducible apply logClear_keeps (hA := by first | with_reducible assumption | with_reducible apply_assumption))
    | (with_reducible apply freeBit_keeps (hA := by first | with_reducible assumption | with_reducible apply_assumption))
    | (with_reducible apply windowLoad_keeps (hA := by first | with_reducible assumption | with_reducible apply_assumption))
    | (with_reducible apply search_keeps (hA := by first | with_reducible assumption | with_reducible apply_assumption))
    | with_reducible apply keeps_ite
    | with_reducible apply keeps_ite2
    | with_reducible apply keeps_ite3
    | with_reducible apply hf
    | split
    | refine keeps_ite ?_ ?_)

def touchActUpd (A : Part → Prop) : Prop := touchFlData A ∧ touchFlErase A ∧ touchFreeBit A ∧ touchSectReload A ∧ touchFwSwitch A ∧ touchPkgData A ∧ touchFree A ∧ touchPkgSubmit A ∧ touchRecalibrate A
theorem touchActUpd_all (h : ∀ q, A q) : touchActUpd A := ⟨touchFlData_all h, touchFlErase_all h, touchFreeBit_all h, touchSectReload_all h, touchFwSwitch_all h, touchPkgData_all h, touchFree_all h, touchPkgSubmit_all h, touchRecalibrate_all h⟩
theorem actUpd_keeps {w : Sys2Proof.Machine.Wr} {f : Sys2Proof.Machine.Field} (hA : touchActUpd A)  (h : Keeps A s t) : Keeps A s (State.actUpd t w f) := by
  unfold State.actUpd
  obtain ⟨_, _, _, _, _, _, _, _, _⟩ := hA
  repeat' (first
    | with_reducible assumption
    | intro y
    | (extract_lets +onlyGivenNames x; first | (refine cut (P := Keeps A s x) ?_ ?_; (on_goal 1 => (unfold x; clear x)); (on_goal 2 => (intro hx; first | clear_value x | skip))) | (refine cut (P := Keeps A s x.2) ?_ ?_; (on_goal 1 => (unfold x; clear x)); (on_goal 2 => (intro hx; first | clear_value x | skip))) | (refine cut (P := Keeps A s x.2.2) ?_ ?_; (on_goal 1 => (unfold x; clear x)); (on_goal 2 => (intro hx; first | clear_value x | skip))) | clear_value x | skip)
    | (with_reducible apply flData_keeps (hA := by first | with_reducible assumption | with_reducible apply_assumption))
    | with_reducible apply when_keeps
    | (with_reducible apply flErase_keeps (hA := by first | with_reducible assumption | with_reducible apply_assumption))
    | (with_reducible apply freeBit_keeps (hA := by first | with_reducible assumption | with_reducible apply_assumption))
    | (with_reducible apply sectReload_keeps (hA := by first | with_reducible assumption | with_reducible apply_assumption))
    | (with_reducible apply fwSwitch_keeps (hA := by first | with_reducible assumption | with_reducible apply_assumption))
    | (with_reducible apply pkgData_keeps (hA := by first | with_reducible assumption | with_reducible apply_assumption))
    | (with_reducible apply free_keeps (hA := by first | with_reducible assumption | with_reducible apply_assumption))
    | (with_reducible apply pkgSubmit_keeps (hA := by first | with_reducible assumption | with_reducible apply_assumption))
    | (with_reducible apply recalibrate_keeps (hA := by first | with_reducible assumption | with_reducible apply_assumption))
    | with_reducible apply keeps_ite
    | with_reducible apply keeps_ite2
    | with_reducible apply keeps_ite3
    | split
    | refine keeps_ite ?_ ?_)

def touchActSaf (A : Part → Prop) : Prop := touchReqSafeOff A ∧ touchLog A ∧ touchSafClear A
theorem touchActSaf_all (h : ∀ q, A q) : touchActSaf A := ⟨touchReqSafeOff_all h, touchLog_all h, touchSafClear_all h⟩
theorem actSaf_keeps {w : Sys2Proof.Machine.Wr} {f : Sys2Proof.Machine.Field} (hA : touchActSaf A)  (h : Keeps A s t) : Keeps A s (State.actSaf t w f) := by
  unfold State.actSaf
  obtain ⟨_, _, _⟩ := hA
  repeat' (first
    | with_reducible assumption
    | intro y
    | (extract_lets +onlyGivenNames x; first | (refine cut (P := Keeps A s x) ?_ ?_; (on_goal 1 => (unfold x; clear x)); (on_goal 2 => (intro hx; first | clear_value x | skip))) | clear_value x | skip)
    | (with_reducible apply reqSafeOff_keeps (hA := by first | with_reducible assumption | with_reducible apply_assumption))
    | (with_reducible apply log_keeps (hA := by first | with_reducible assumption | with_reducible apply_assumption))
    | (with_reducible apply safClear_keeps (hA := by first | with_reducible assumption | with_reducible apply_assumption))
    | with_reducible apply when_keeps
    | with_reducible apply keeps_ite
    | split
    | refine keeps_ite ?_ ?_)

def touchActTmx (A : Part → Prop) : Prop := (∀ x0, touchTmxSelect A x0)
theorem touchActTmx_all (h : ∀ q, A q) : touchActTmx A := fun _ => touchTmxSelect_all h
theorem actTmx_keeps {w : Sys2Proof.Machine.Wr} {f : Sys2Proof.Machine.Field} (hA : touchActTmx A)  (h : Keeps A s t) : Keeps A s (State.actTmx t w f) := by
  unfold State.actTmx
  unfold touchActTmx at hA
  repeat' (first
    | with_reducible assumption
    | intro y
    | (with_reducible apply tmxSelect_keeps (hA := by first | with_reducible assumption | with_reducible apply_assumption))
    | with_reducible apply keeps_ite
    | split)

def touchAct (A : Part → Prop) : Prop := touchActSys A ∧ touchActPwr A ∧ touchActTb A ∧ touchActPe A ∧ touchActLe A ∧ touchLimDynWrite A ∧ touchWakeTx A ∧ touchPlcEnable A ∧ touchSetReady A ∧ touchActMet A ∧ touchActBil A ∧ touchActVs A ∧ touchActTh A ∧ touchBalSend A ∧ touchActLsw A ∧ touchActCan A ∧ touchActKv A ∧ touchActEvr A ∧ touchActUpd A ∧ touchActSaf A ∧ touchActTmx A
theorem touchAct_all (h : ∀ q, A q) : touchAct A := ⟨touchActSys_all h, touchActPwr_all h, touchActTb_all h, touchActPe_all h, touchActLe_all h, touchLimDynWrite_all h, touchWakeTx_all h, touchPlcEnable_all h, touchSetReady_all h, touchActMet_all h, touchActBil_all h, touchActVs_all h, touchActTh_all h, touchBalSend_all h, touchActLsw_all h, touchActCan_all h, touchActKv_all h, touchActEvr_all h, touchActUpd_all h, touchActSaf_all h, touchActTmx_all h⟩
theorem act_keeps {w : Sys2Proof.Machine.Wr} {f : Sys2Proof.Machine.Field} (hA : touchAct A)  (h : Keeps A s t) : Keeps A s (State.act t w f) := by
  unfold State.act
  obtain ⟨_, _, _, _, _, _, _, _, _, _, _, _, _, _, _, _, _, _, _, _, _⟩ := hA
  repeat' (first
    | with_reducible assumption
    | intro y
    | (extract_lets +onlyGivenNames x; first | (refine cut (P := Keeps A s x) ?_ ?_; (on_goal 1 => (unfold x; clear x)); (on_goal 2 => (intro hx; first | clear_value x | skip))) | clear_value x | skip)
    | (with_reducible apply actSys_keeps (hA := by first | with_reducible assumption | with_reducible apply_assumption))
    | (with_reducible apply actPwr_keeps (hA := by first | with_reducible assumption | with_reducible apply_assumption))
    | (with_reducible apply actTb_keeps (hA := by first | with_reducible assumption | with_reducible apply_assumption))
    | (with_reducible apply actPe_keeps (hA := by first | with_reducible assumption | with_reducible apply_assumption))
    | (with_reducible apply actLe_keeps (hA := by first | with_reducible assumption | with_reducible apply_assumption))
    | (with_reducible apply limDynWrite_keeps (hA := by first | with_reducible assumption | with_reducible apply_assumption))
    | (with_reducible apply wakeTx_keeps (hA := by first | with_reducible assumption | with_reducible apply_assumption))
    | (with_reducible apply plcEnable_keeps (hA := by first | with_reducible assumption | with_reducible apply_assumption))
    | (with_reducible apply setReady_keeps (hA := by first | with_reducible assumption | with_reducible apply_assumption))
    | (with_reducible apply actMet_keeps (hA := by first | with_reducible assumption | with_reducible apply_assumption))
    | (with_reducible apply actBil_keeps (hA := by first | with_reducible assumption | with_reducible apply_assumption))
    | (with_reducible apply actVs_keeps (hA := by first | with_reducible assumption | with_reducible apply_assumption))
    | (with_reducible apply actTh_keeps (hA := by first | with_reducible assumption | with_reducible apply_assumption))
    | (with_reducible apply balSend_keeps (hA := by first | with_reducible assumption | with_reducible apply_assumption))
    | (with_reducible apply actLsw_keeps (hA := by first | with_reducible assumption | with_reducible apply_assumption))
    | (with_reducible apply actCan_keeps (hA := by first | with_reducible assumption | with_reducible apply_assumption))
    | (with_reducible apply actKv_keeps (hA := by first | with_reducible assumption | with_reducible apply_assumption))
    | (with_reducible apply actEvr_keeps (hA := by first | with_reducible assumption | with_reducible apply_assumption))
    | (with_reducible apply actUpd_keeps (hA := by first | with_reducible assumption | with_reducible apply_assumption))
    | (with_reducible apply actSaf_keeps (hA := by first | with_reducible assumption | with_reducible apply_assumption))
    | (with_reducible apply actTmx_keeps (hA := by first | with_reducible assumption | with_reducible apply_assumption))
    | with_reducible apply when_keeps
    | with_reducible apply keeps_ite
    | split
    | refine keeps_ite ?_ ?_)

def touchSetField (A : Part → Prop) : Prop := A .regs
theorem touchSetField_all (h : ∀ q, A q) : touchSetField A := h _
theorem setField_keeps {w : Sys2Proof.Machine.Wr} {f : Sys2Proof.Machine.Field} (hA : touchSetField A)  (h : Keeps A s t) : Keeps A s (State.setField t w f) := by
  unfold State.setField
  unfold touchSetField at hA
  repeat' (first
    | with_reducible assumption
    | intro y
    | (extract_lets +onlyGivenNames x; first | (refine cut (P := Keeps A s x) ?_ ?_; (on_goal 1 => (unfold x; clear x)); (on_goal 2 => (intro hx; first | clear_value x | skip))) | clear_value x | skip)
    | (with_reducible refine keeps_setWord (by first | assumption | exact hA _) ?_)
    | with_reducible apply keeps_ite
    | split
    | refine keeps_ite ?_ ?_)

def touchAfterWrite (A : Part → Prop) : Prop := touchGden A ∧ touchSrcCheck A ∧ touchConsShow A ∧ (∀ x0, touchDemTake A x0) ∧ touchFloorShow A ∧ touchLswUnnamed A ∧ touchLswPins A ∧ (∀ x0, touchSlewShow A x0) ∧ touchPlcFabOff A ∧ touchLanesOff A ∧ touchMetShow A ∧ touchRecShow A ∧ touchLswOwners A ∧ touchSafCopy A ∧ touchMoraineWarn A ∧ touchTmxShow A
theorem touchAfterWrite_all (h : ∀ q, A q) : touchAfterWrite A := ⟨touchGden_all h, touchSrcCheck_all h, touchConsShow_all h, (fun _ => touchDemTake_all h), touchFloorShow_all h, touchLswUnnamed_all h, touchLswPins_all h, (fun _ => touchSlewShow_all h), touchPlcFabOff_all h, touchLanesOff_all h, touchMetShow_all h, touchRecShow_all h, touchLswOwners_all h, touchSafCopy_all h, touchMoraineWarn_all h, touchTmxShow_all h⟩
theorem afterWrite_keeps {a : ℕ} (hA : touchAfterWrite A)  (h : Keeps A s t) : Keeps A s (State.afterWrite t a) := by
  unfold State.afterWrite
  obtain ⟨_, _, _, _, _, _, _, _, _, _, _, _, _, _, _, _⟩ := hA
  repeat' (first
    | with_reducible assumption
    | intro y
    | (extract_lets +onlyGivenNames x; first | (refine cut (P := Keeps A s x) ?_ ?_; (on_goal 1 => (unfold x; clear x)); (on_goal 2 => (intro hx; first | clear_value x | skip))) | clear_value x | skip)
    | (with_reducible apply gden_keeps (hA := by first | with_reducible assumption | with_reducible apply_assumption))
    | (with_reducible apply srcCheck_keeps (hA := by first | with_reducible assumption | with_reducible apply_assumption))
    | (with_reducible apply consShow_keeps (hA := by first | with_reducible assumption | with_reducible apply_assumption))
    | (with_reducible apply demTake_keeps (hA := by first | with_reducible assumption | with_reducible apply_assumption))
    | (with_reducible apply floorShow_keeps (hA := by first | with_reducible assumption | with_reducible apply_assumption))
    | (with_reducible apply lswUnnamed_keeps (hA := by first | with_reducible assumption | with_reducible apply_assumption))
    | (with_reducible apply lswPins_keeps (hA := by first | with_reducible assumption | with_reducible apply_assumption))
    | (with_reducible apply slewShow_keeps (hA := by first | with_reducible assumption | with_reducible apply_assumption))
    | (with_reducible apply plcFabOff_keeps (hA := by first | with_reducible assumption | with_reducible apply_assumption))
    | (with_reducible apply lanesOff_keeps (hA := by first | with_reducible assumption | with_reducible apply_assumption))
    | (with_reducible apply metShow_keeps (hA := by first | with_reducible assumption | with_reducible apply_assumption))
    | (with_reducible apply recShow_keeps (hA := by first | with_reducible assumption | with_reducible apply_assumption))
    | (with_reducible apply lswOwners_keeps (hA := by first | with_reducible assumption | with_reducible apply_assumption))
    | (with_reducible apply safCopy_keeps (hA := by first | with_reducible assumption | with_reducible apply_assumption))
    | (with_reducible apply moraineWarn_keeps (hA := by first | with_reducible assumption | with_reducible apply_assumption))
    | (with_reducible apply tmxShow_keeps (hA := by first | with_reducible assumption | with_reducible apply_assumption))
    | with_reducible apply each_keeps
    | with_reducible apply keeps_ite
    | split
    | refine keeps_ite ?_ ?_)

def touchRegWrite (A : Part → Prop) : Prop := touchSealedWrite A ∧ touchSetField A ∧ touchRefusedValue A ∧ touchAct A ∧ touchAfterWrite A
theorem touchRegWrite_all (h : ∀ q, A q) : touchRegWrite A := ⟨touchSealedWrite_all h, touchSetField_all h, touchRefusedValue_all h, touchAct_all h, touchAfterWrite_all h⟩
theorem regWrite_keeps {w : Sys2Proof.Machine.Wr} (hA : touchRegWrite A)  (h : Keeps A s t) : Keeps A s (State.regWrite t w) := by
  unfold State.regWrite
  obtain ⟨_, _, _, _, _⟩ := hA
  repeat' (first
    | with_reducible assumption
    | intro y
    | (extract_lets +onlyGivenNames x; first | (refine cut (P := Keeps A s x) ?_ ?_; (on_goal 1 => (unfold x; clear x)); (on_goal 2 => (intro hx; first | clear_value x | skip))) | clear_value x | skip)
    | (with_reducible apply sealedWrite_keeps (hA := by first | with_reducible assumption | with_reducible apply_assumption))
    | (with_reducible apply setField_keeps (hA := by first | with_reducible assumption | with_reducible apply_assumption))
    | (with_reducible apply refusedValue_keeps (hA := by first | with_reducible assumption | with_reducible apply_assumption))
    | (with_reducible apply act_keeps (hA := by first | with_reducible assumption | with_reducible apply_assumption))
    | (with_reducible apply afterWrite_keeps (hA := by first | with_reducible assumption | with_reducible apply_assumption))
    | with_reducible apply keeps_ite
    | with_reducible apply keeps_foldl
    | split
    | refine keeps_ite ?_ ?_)

def touchAccessWrite (A : Part → Prop) : Prop := touchReserveRefused A ∧ touchActTmx A ∧ touchRegWrite A
theorem touchAccessWrite_all (h : ∀ q, A q) : touchAccessWrite A := ⟨touchReserveRefused_all h, touchActTmx_all h, touchRegWrite_all h⟩
theorem accessWrite_keeps {sess : ℕ} {lvl : ℕ} {a : ℕ} {val : Sys2Proof.Word} {mask : Sys2Proof.Word} (hA : touchAccessWrite A)  (h : Keeps A s t) : Keeps A s (State.accessWrite t sess lvl a val mask).2 := by
  unfold State.accessWrite
  obtain ⟨_, _, _⟩ := hA
  repeat' (first
    | with_reducible assumption
    | intro y
    | (extract_lets +onlyGivenNames x; first | (refine cut (P := Keeps A s x) ?_ ?_; (on_goal 1 => (unfold x; clear x)); (on_goal 2 => (intro hx; first | clear_value x | skip))) | clear_value x | skip)
    | (with_reducible apply reserveRefused_keeps (hA := by first | with_reducible assumption | with_reducible apply_assumption))
    | (with_reducible apply actTmx_keeps (hA := by first | with_reducible assumption | with_reducible apply_assumption))
    | (with_reducible apply regWrite_keeps (hA := by first | with_reducible assumption | with_reducible apply_assumption))
    | with_reducible apply keeps_ite
    | with_reducible apply keeps_ite2
    | with_reducible apply keeps_ite3
    | with_reducible apply keeps_foldl
    | with_reducible apply keeps_foldl2
    | with_reducible apply keeps_foldl3
    | split
    | refine keeps_ite ?_ ?_)

end Sys2Proof.Laws
end

