-- ==== Sys2Proof/Laws/KeepsReadOps.lean ====
section
/-! SUPPORT. What the operations of Machine/ReadOps.lean leave alone: for each the parts it may change (`touch…`) and its lemma. -/

namespace Sys2Proof.Laws

open Sys2Proof.Machine

set_option linter.unusedTactic false
set_option linter.unreachableTactic false
set_option linter.unusedVariables false
set_option linter.tactic.unusedName false

variable {A : Part → Prop} {s t : State}

def touchKeepWord (A : Part → Prop) : Prop := A .capt
theorem touchKeepWord_all (h : ∀ q, A q) : touchKeepWord A := h _
theorem keepWord_keeps {k : ℕ} {w : Sys2Proof.Word} (hA : touchKeepWord A)  (h : Keeps A s t) : Keeps A s (State.keepWord t k w) := by
  unfold State.keepWord
  unfold touchKeepWord at hA
  repeat' (first
    | with_reducible assumption
    | intro y
    | (extract_lets +onlyGivenNames x; first | (refine cut (P := Keeps A s x) ?_ ?_; (on_goal 1 => (unfold x; clear x)); (on_goal 2 => (intro hx; first | clear_value x | skip))) | clear_value x | skip)
    | with_reducible apply keeps_ite
    | split
    | with_reducible exact keeps_capt (by assumption) (by assumption))

def touchCapture (A : Part → Prop) : Prop := touchKeepWord A
theorem touchCapture_all (h : ∀ q, A q) : touchCapture A := touchKeepWord_all h
theorem capture_keeps {sess : ℕ} {a : ℕ} (hA : touchCapture A)  (h : Keeps A s t) : Keeps A s (State.capture t sess a) := by
  unfold State.capture
  unfold touchCapture at hA
  repeat' (first
    | with_reducible assumption
    | intro y
    | (extract_lets +onlyGivenNames x; first | (refine cut (P := Keeps A s x) ?_ ?_; (on_goal 1 => (unfold x; clear x)); (on_goal 2 => (intro hx; first | clear_value x | skip))) | clear_value x | skip)
    | (with_reducible apply keepWord_keeps (hA := by first | with_reducible assumption | with_reducible apply_assumption))
    | with_reducible apply keeps_ite
    | with_reducible apply keeps_foldl
    | split
    | refine keeps_ite ?_ ?_)

def touchCapStep (A : Part → Prop) : Prop := A (.reg R.LE_CAP_ADDR.INDEX) ∧ A (.reg R.LE_CAP_ADDR.CH)
theorem touchCapStep_all (h : ∀ q, A q) : touchCapStep A := ⟨h _, h _⟩
theorem capStep_keeps  (hA : touchCapStep A)  (h : Keeps A s t) : Keeps A s (State.capStep t) := by
  unfold State.capStep
  obtain ⟨_, _⟩ := hA
  repeat' (first
    | with_reducible assumption
    | intro y
    | (extract_lets +onlyGivenNames x; first | (refine cut (P := Keeps A s x) ?_ ?_; (on_goal 1 => (unfold x; clear x)); (on_goal 2 => (intro hx; first | clear_value x | skip))) | clear_value x | skip)
    | (with_reducible refine put_keepsAt (by assumption) ?_)
    | (with_reducible refine put_keeps (by assumption) ?_)
    | with_reducible apply keeps_ite
    | split
    | refine keeps_ite ?_ ?_)

def touchRosterStep (A : Part → Prop) : Prop := A (.reg R.SL_ROSTER_ADDR.WORD) ∧ A (.reg R.SL_ROSTER_ADDR.INDEX)
theorem touchRosterStep_all (h : ∀ q, A q) : touchRosterStep A := ⟨h _, h _⟩
theorem rosterStep_keeps  (hA : touchRosterStep A)  (h : Keeps A s t) : Keeps A s (State.rosterStep t) := by
  unfold State.rosterStep
  obtain ⟨_, _⟩ := hA
  repeat' (first
    | with_reducible assumption
    | intro y
    | (extract_lets +onlyGivenNames x; first | (refine cut (P := Keeps A s x) ?_ ?_; (on_goal 1 => (unfold x; clear x)); (on_goal 2 => (intro hx; first | clear_value x | skip))) | clear_value x | skip)
    | (with_reducible refine put_keepsAt (by assumption) ?_)
    | (with_reducible refine put_keeps (by assumption) ?_)
    | with_reducible apply keeps_ite
    | split
    | refine keeps_ite ?_ ?_)

def touchMbRead (A : Part → Prop) : Prop := (∀ x0 x1, touchCanRead A x0 x1)
theorem touchMbRead_all (h : ∀ q, A q) : touchMbRead A := fun _ _ => touchCanRead_all h
theorem mbRead_keeps {a : ℕ} (hA : touchMbRead A)  (h : Keeps A s t) : Keeps A s (State.mbRead t a) := by
  unfold State.mbRead
  unfold touchMbRead at hA
  repeat' (first
    | with_reducible assumption
    | intro y
    | (extract_lets +onlyGivenNames x; first | (refine cut (P := Keeps A s x) ?_ ?_; (on_goal 1 => (unfold x; clear x)); (on_goal 2 => (intro hx; first | clear_value x | skip))) | clear_value x | skip)
    | (with_reducible apply canRead_keeps (hA := by first | with_reducible assumption | with_reducible apply_assumption))
    | with_reducible apply keeps_ite
    | split
    | refine keeps_ite ?_ ?_)

def touchReadEffect (A : Part → Prop) : Prop := touchCapStep A ∧ A (.reg R.LE_FF_ADDR.INDEX) ∧ touchRosterStep A ∧ A (.reg R.BIL_CAL_ADDR.INDEX) ∧ touchRecShow A ∧ A (.reg R.BIL_REC_ADDR.WORD) ∧ touchKeepWord A ∧ A (.reg R.BIL_TR_ADDR.WORD) ∧ A (.reg R.TH_SD_ADDR.WORD) ∧ A (.reg R.KV_PUB_ADDR.INDEX) ∧ touchFreeBit A ∧ touchWindowNext A ∧ touchMbRead A
theorem touchReadEffect_all (h : ∀ q, A q) : touchReadEffect A := ⟨touchCapStep_all h, h _, touchRosterStep_all h, h _, touchRecShow_all h, h _, touchKeepWord_all h, h _, h _, h _, touchFreeBit_all h, touchWindowNext_all h, touchMbRead_all h⟩
theorem readEffect_keeps {sess : ℕ} {a : ℕ} (hA : touchReadEffect A)  (h : Keeps A s t) : Keeps A s (State.readEffect t sess a) := by
  unfold State.readEffect
  obtain ⟨_, _, _, _, _, _, _, _, _, _, _, _, _⟩ := hA
  repeat' (first
    | with_reducible assumption
    | intro y
    | (extract_lets +onlyGivenNames x; first | (refine cut (P := Keeps A s x) ?_ ?_; (on_goal 1 => (unfold x; clear x)); (on_goal 2 => (intro hx; first | clear_value x | skip))) | (refine cut (P := Keeps A s x.2) ?_ ?_; (on_goal 1 => (unfold x; clear x)); (on_goal 2 => (intro hx; first | clear_value x | skip))) | (refine cut (P := Keeps A s x.2.2) ?_ ?_; (on_goal 1 => (unfold x; clear x)); (on_goal 2 => (intro hx; first | clear_value x | skip))) | clear_value x | skip)
    | (with_reducible apply capStep_keeps (hA := by first | with_reducible assumption | with_reducible apply_assumption))
    | (with_reducible refine put_keepsAt (by assumption) ?_)
    | (with_reducible refine put_keeps (by assumption) ?_)
    | (with_reducible apply rosterStep_keeps (hA := by first | with_reducible assumption | with_reducible apply_assumption))
    | (with_reducible apply recShow_keeps (hA := by first | with_reducible assumption | with_reducible apply_assumption))
    | (with_reducible apply keepWord_keeps (hA := by first | with_reducible assumption | with_reducible apply_assumption))
    | (with_reducible apply freeBit_keeps (hA := by first | with_reducible assumption | with_reducible apply_assumption))
    | (with_reducible apply windowNext_keeps (hA := by first | with_reducible assumption | with_reducible apply_assumption))
    | (with_reducible apply mbRead_keeps (hA := by first | with_reducible assumption | with_reducible apply_assumption))
    | with_reducible apply keeps_ite
    | with_reducible apply keeps_ite2
    | with_reducible apply keeps_ite3
    | with_reducible apply keeps_foldl
    | split
    | refine keeps_ite ?_ ?_)

def touchAccessRead (A : Part → Prop) : Prop := touchReadEffect A ∧ touchCapture A
theorem touchAccessRead_all (h : ∀ q, A q) : touchAccessRead A := ⟨touchReadEffect_all h, touchCapture_all h⟩
theorem accessRead_keeps {sess : ℕ} {a : ℕ} (hA : touchAccessRead A)  (h : Keeps A s t) : Keeps A s (State.accessRead t sess a).2.2 := by
  unfold State.accessRead
  obtain ⟨_, _⟩ := hA
  repeat' (first
    | with_reducible assumption
    | intro y
    | (extract_lets +onlyGivenNames x; first | (refine cut (P := Keeps A s x) ?_ ?_; (on_goal 1 => (unfold x; clear x)); (on_goal 2 => (intro hx; first | clear_value x | skip))) | clear_value x | skip)
    | (with_reducible apply readEffect_keeps (hA := by first | with_reducible assumption | with_reducible apply_assumption))
    | (with_reducible apply capture_keeps (hA := by first | with_reducible assumption | with_reducible apply_assumption))
    | with_reducible apply keeps_ite
    | with_reducible apply keeps_ite2
    | with_reducible apply keeps_ite3
    | split
    | refine keeps_ite ?_ ?_)

end Sys2Proof.Laws
end

