-- ==== Sys2Proof/Laws/KeepsMgmt.lean ====
section
/-! SUPPORT. What the operations of Machine/Mgmt.lean leave alone: for each the parts it may change (`touch…`) and its lemma. -/

namespace Sys2Proof.Laws

open Sys2Proof.Machine

set_option linter.unusedTactic false
set_option linter.unreachableTactic false
set_option linter.unusedVariables false
set_option linter.tactic.unusedName false

variable {A : Part → Prop} {s t : State}

def touchExecRegisterWrite (A : Part → Prop) : Prop := touchAccessWrite A ∧ touchReport A
theorem touchExecRegisterWrite_all (h : ∀ q, A q) : touchExecRegisterWrite A := ⟨touchAccessWrite_all h, touchReport_all h⟩
theorem execRegisterWrite_next {sess : ℕ} {a : ℕ} {val : ℕ} {mask : ℕ} (hA : touchExecRegisterWrite A) : ∃ u, execRegisterWrite sess a val mask s = .next u ∧ Keeps A s u := by
  unfold execRegisterWrite
  have h := Keeps.refl A s
  refine ⟨_, rfl, ?_⟩
  obtain ⟨_, _⟩ := hA
  repeat' (first
    | with_reducible assumption
    | intro y
    | (extract_lets +onlyGivenNames x; first | (refine cut (P := Keeps A s x) ?_ ?_; (on_goal 1 => (unfold x; clear x)); (on_goal 2 => (intro hx; first | clear_value x | skip))) | (refine cut (P := Keeps A s x.2) ?_ ?_; (on_goal 1 => (unfold x; clear x)); (on_goal 2 => (intro hx; first | clear_value x | skip))) | (refine cut (P := Keeps A s x.2.2) ?_ ?_; (on_goal 1 => (unfold x; clear x)); (on_goal 2 => (intro hx; first | clear_value x | skip))) | clear_value x | skip)
    | (with_reducible apply accessWrite_keeps (hA := by first | with_reducible assumption | with_reducible apply_assumption))
    | (with_reducible apply report_keeps (hA := by first | with_reducible assumption | with_reducible apply_assumption))
    | with_reducible apply keeps_ite
    | with_reducible apply keeps_ite2
    | with_reducible apply keeps_ite3
    | split
    | refine keeps_ite ?_ ?_)

def touchAgentFrame (A : Part → Prop) : Prop := touchFree A ∧ touchInjectAll A ∧ A .fab
theorem touchAgentFrame_all (h : ∀ q, A q) : touchAgentFrame A := ⟨touchFree_all h, touchInjectAll_all h, h _⟩
theorem agentFrame_keeps {ty : ℕ} {urg : ℕ} {dst : ℕ} {room : ℕ} {pay : ℕ → List ℕ} (hA : touchAgentFrame A)  (h : Keeps A s t) : Keeps A s (State.agentFrame t ty urg dst room pay) := by
  unfold State.agentFrame
  obtain ⟨_, _, _⟩ := hA
  repeat' (first
    | with_reducible assumption
    | intro y
    | (extract_lets +onlyGivenNames x; first | (refine cut (P := Keeps A s x) ?_ ?_; (on_goal 1 => (unfold x; clear x)); (on_goal 2 => (intro hx; first | clear_value x | skip))) | (refine cut (P := Keeps A s x.2) ?_ ?_; (on_goal 1 => (unfold x; clear x)); (on_goal 2 => (intro hx; first | clear_value x | skip))) | (refine cut (P := Keeps A s x.2.2) ?_ ?_; (on_goal 1 => (unfold x; clear x)); (on_goal 2 => (intro hx; first | clear_value x | skip))) | clear_value x | skip)
    | (with_reducible apply free_keeps (hA := by first | with_reducible assumption | with_reducible apply_assumption))
    | (with_reducible apply injectAll_keeps (hA := by first | with_reducible assumption | with_reducible apply_assumption))
    | with_reducible apply keeps_ite
    | with_reducible apply keeps_ite2
    | with_reducible apply keeps_ite3
    | split
    | refine keeps_ite ?_ ?_
    | with_reducible exact keeps_fab (by assumption) (by assumption))

def touchRelayError (A : Part → Prop) : Prop := touchEmit A
theorem touchRelayError_all (h : ∀ q, A q) : touchRelayError A := touchEmit_all h
theorem relayError_keeps {ip : ℕ} {port : ℕ} {node : ℕ} {code : ℕ} (hA : touchRelayError A)  (h : Keeps A s t) : Keeps A s (State.relayError t ip port node code) := by
  unfold State.relayError
  unfold touchRelayError at hA
  repeat' (first
    | with_reducible assumption
    | intro y
    | (with_reducible apply emit_keeps (hA := by first | with_reducible assumption | with_reducible apply_assumption))
    | with_reducible apply keeps_ite
    | split)

def touchExecGatewayRelay (A : Part → Prop) : Prop := touchAgentFrame A ∧ touchFree A ∧ touchSessShow A ∧ A .mg ∧ touchRelayError A ∧ touchEmit A
theorem touchExecGatewayRelay_all (h : ∀ q, A q) : touchExecGatewayRelay A := ⟨touchAgentFrame_all h, touchFree_all h, touchSessShow_all h, h _, touchRelayError_all h, touchEmit_all h⟩
theorem execGatewayRelay_next {ip : ℕ} {port : ℕ} {node : ℕ} {tag : Option ℕ} {bytes : List ℕ} (hA : touchExecGatewayRelay A) : ∃ u, execGatewayRelay ip port node tag bytes s = .next u ∧ Keeps A s u := by
  unfold execGatewayRelay
  have h := Keeps.refl A s
  refine ⟨_, rfl, ?_⟩
  obtain ⟨_, _, _, _, _, _⟩ := hA
  repeat' (first
    | with_reducible assumption
    | intro y
    | (extract_lets +onlyGivenNames x; first | (refine cut (P := Keeps A s x) ?_ ?_; (on_goal 1 => (unfold x; clear x)); (on_goal 2 => (intro hx; first | clear_value x | skip))) | (refine cut (P := Keeps A s x.2) ?_ ?_; (on_goal 1 => (unfold x; clear x)); (on_goal 2 => (intro hx; first | clear_value x | skip))) | (refine cut (P := Keeps A s x.2.2) ?_ ?_; (on_goal 1 => (unfold x; clear x)); (on_goal 2 => (intro hx; first | clear_value x | skip))) | clear_value x | skip)
    | (with_reducible apply agentFrame_keeps (hA := by first | with_reducible assumption | with_reducible apply_assumption))
    | (with_reducible apply free_keeps (hA := by first | with_reducible assumption | with_reducible apply_assumption))
    | (with_reducible apply sessShow_keeps (hA := by first | with_reducible assumption | with_reducible apply_assumption))
    | (with_reducible apply relayError_keeps (hA := by first | with_reducible assumption | with_reducible apply_assumption))
    | (with_reducible apply emit_keeps (hA := by first | with_reducible assumption | with_reducible apply_assumption))
    | with_reducible apply keeps_ite
    | with_reducible apply keeps_ite2
    | with_reducible apply keeps_ite3
    | split
    | refine keeps_ite ?_ ?_
    | with_reducible exact keeps_mg (by assumption) (by assumption))

def touchExecRelayEntryExpiry (A : Part → Prop) : Prop := A .mg ∧ touchSessShow A
theorem touchExecRelayEntryExpiry_all (h : ∀ q, A q) : touchExecRelayEntryExpiry A := ⟨h _, touchSessShow_all h⟩
theorem execRelayEntryExpiry_next {tag : ℕ} {secs : ℕ} (hA : touchExecRelayEntryExpiry A) : ∃ u, execRelayEntryExpiry tag secs s = .next u ∧ Keeps A s u := by
  unfold execRelayEntryExpiry
  have h := Keeps.refl A s
  refine ⟨_, rfl, ?_⟩
  obtain ⟨_, _⟩ := hA
  repeat' (first
    | with_reducible assumption
    | intro y
    | (extract_lets +onlyGivenNames x; first | (refine cut (P := Keeps A s x) ?_ ?_; (on_goal 1 => (unfold x; clear x)); (on_goal 2 => (intro hx; first | clear_value x | skip))) | clear_value x | skip)
    | (with_reducible apply sessShow_keeps (hA := by first | with_reducible assumption | with_reducible apply_assumption))
    | with_reducible apply keeps_ite
    | split
    | with_reducible exact keeps_mg (by assumption) (by assumption))

def touchShakeRefused (A : Part → Prop) (i : Nat) : Prop := touchSessClear A i ∧ touchLog A ∧ A (.reg R.SYS_MGMT_STAT.REFUSED)
theorem touchShakeRefused_all (h : ∀ q, A q) {i : Nat} : touchShakeRefused A i := ⟨touchSessClear_all h, touchLog_all h, h _⟩
theorem shakeRefused_keeps {i : ℕ} {reason : ℕ} (hA : touchShakeRefused A i)  (h : Keeps A s t) : Keeps A s (State.shakeRefused t i reason) := by
  unfold State.shakeRefused
  obtain ⟨_, _, _⟩ := hA
  repeat' (first
    | with_reducible assumption
    | intro y
    | (extract_lets +onlyGivenNames x; first | (refine cut (P := Keeps A s x) ?_ ?_; (on_goal 1 => (unfold x; clear x)); (on_goal 2 => (intro hx; first | clear_value x | skip))) | clear_value x | skip)
    | (with_reducible apply sessClear_keeps (hA := by first | with_reducible assumption | with_reducible apply_assumption))
    | (with_reducible apply log_keeps (hA := by first | with_reducible assumption | with_reducible apply_assumption))
    | (with_reducible refine inc_keepsAt (by assumption) ?_)
    | (with_reducible refine inc_keeps (by assumption) ?_)
    | with_reducible apply keeps_ite
    | split
    | refine keeps_ite ?_ ?_)

def touchSessEntry (A : Part → Prop) (i : Nat) : Prop := A (.inst R.SYS_SESS.N_SUB i 0) ∧ A (.inst R.SYS_SESS.PEER i 0) ∧ A (.inst R.SYS_SESS.VIA i 0) ∧ A (.inst R.SYS_SESS.LEVEL i 0) ∧ A (.inst R.SYS_SESS.STATE i 0)
theorem touchSessEntry_all (h : ∀ q, A q) {i : Nat} : touchSessEntry A i := ⟨h _, h _, h _, h _, h _⟩
theorem sessEntry_keeps {i : ℕ} {st : ℕ} {level : ℕ} {gateway : Option ℕ} (hA : touchSessEntry A i)  (h : Keeps A s t) : Keeps A s (State.sessEntry t i st level gateway) := by
  unfold State.sessEntry
  obtain ⟨_, _, _, _, _⟩ := hA
  repeat' (first
    | with_reducible assumption
    | intro y
    | (with_reducible refine put_keepsAt (by assumption) ?_)
    | (with_reducible refine put_keeps (by assumption) ?_)
    | (with_reducible refine putb_keepsAt (by assumption) ?_)
    | (with_reducible refine putb_keeps (by assumption) ?_)
    | with_reducible apply keeps_ite
    | split)

def touchSessOpen (A : Part → Prop) (i : Nat) : Prop := A .capt ∧ touchSetSes A ∧ touchSessEntry A i ∧ touchSessShow A ∧ touchLog A
theorem touchSessOpen_all (h : ∀ q, A q) {i : Nat} : touchSessOpen A i := ⟨h _, touchSetSes_all h, touchSessEntry_all h, touchSessShow_all h, touchLog_all h⟩
theorem sessOpen_keeps {i : ℕ} {level : ℕ} {f : Sys2Proof.Machine.Field} {gateway : Option ℕ} (hA : touchSessOpen A i)  (h : Keeps A s t) : Keeps A s (State.sessOpen t i level f gateway) := by
  unfold State.sessOpen
  obtain ⟨_, _, _, _, _⟩ := hA
  repeat' (first
    | with_reducible assumption
    | intro y
    | (extract_lets +onlyGivenNames x; first | (refine cut (P := Keeps A s x) ?_ ?_; (on_goal 1 => (unfold x; clear x)); (on_goal 2 => (intro hx; first | clear_value x | skip))) | clear_value x | skip)
    | (with_reducible apply setSes_keeps (hA := by first | with_reducible assumption | with_reducible apply_assumption))
    | (with_reducible apply sessEntry_keeps (hA := by first | with_reducible assumption | with_reducible apply_assumption))
    | (with_reducible apply sessShow_keeps (hA := by first | with_reducible assumption | with_reducible apply_assumption))
    | (with_reducible apply log_keeps (hA := by first | with_reducible assumption | with_reducible apply_assumption))
    | with_reducible apply keeps_ite
    | split
    | refine keeps_ite ?_ ?_
    | with_reducible exact keeps_capt (by assumption) (by assumption))

def touchShakeCheck (A : Part → Prop) : Prop := touchSlotBad A
theorem touchShakeCheck_all (h : ∀ q, A q) : touchShakeCheck A := touchSlotBad_all h
theorem shakeCheck_keeps {bad : List ℕ} (hA : touchShakeCheck A)  (h : Keeps A s t) : Keeps A s (State.shakeCheck t bad) := by
  unfold State.shakeCheck
  unfold touchShakeCheck at hA
  repeat' (first
    | with_reducible assumption
    | intro y
    | (extract_lets +onlyGivenNames x; first | (refine cut (P := Keeps A s x) ?_ ?_; (on_goal 1 => (unfold x; clear x)); (on_goal 2 => (intro hx; first | clear_value x | skip))) | clear_value x | skip)
    | (with_reducible apply slotBad_keeps (hA := by first | with_reducible assumption | with_reducible apply_assumption))
    | with_reducible apply keeps_ite
    | with_reducible apply keeps_foldl
    | split
    | refine keeps_ite ?_ ?_)

def touchExecHandshake (A : Part → Prop) (i : Nat) : Prop := touchShakeRefused A i ∧ touchSessEntry A i ∧ touchShakeCheck A ∧ touchSessOpen A i
theorem touchExecHandshake_all (h : ∀ q, A q) {i : Nat} : touchExecHandshake A i := ⟨touchShakeRefused_all h, touchSessEntry_all h, touchShakeCheck_all h, touchSessOpen_all h⟩
theorem execHandshake_next {i : ℕ} {gateway : Option ℕ} {complete : Sys2Proof.ShakeObs} {adm : Bool} {opr : Bool} {obs : Bool} (hA : touchExecHandshake A i) : ∃ u, execHandshake i gateway complete adm opr obs s = .next u ∧ Keeps A s u := by
  unfold execHandshake
  have h := Keeps.refl A s
  refine ⟨_, rfl, ?_⟩
  obtain ⟨_, _, _, _⟩ := hA
  repeat' (first
    | with_reducible assumption
    | intro y
    | (extract_lets +onlyGivenNames x; first | (refine cut (P := Keeps A s x) ?_ ?_; (on_goal 1 => (unfold x; clear x)); (on_goal 2 => (intro hx; first | clear_value x | skip))) | clear_value x | skip)
    | (with_reducible apply shakeRefused_keeps (hA := by first | with_reducible assumption | with_reducible apply_assumption))
    | (with_reducible apply sessEntry_keeps (hA := by first | with_reducible assumption | with_reducible apply_assumption))
    | (with_reducible apply shakeCheck_keeps (hA := by first | with_reducible assumption | with_reducible apply_assumption))
    | (with_reducible apply sessOpen_keeps (hA := by first | with_reducible assumption | with_reducible apply_assumption))
    | with_reducible apply keeps_ite
    | split
    | refine keeps_ite ?_ ?_)

def touchExecHandshakeTimeout (A : Part → Prop) (i : Nat) : Prop := touchShakeRefused A i
theorem touchExecHandshakeTimeout_all (h : ∀ q, A q) {i : Nat} : touchExecHandshakeTimeout A i := touchShakeRefused_all h
theorem execHandshakeTimeout_next {i : ℕ} {secs : ℕ} (hA : touchExecHandshakeTimeout A i) : ∃ u, execHandshakeTimeout i secs s = .next u ∧ Keeps A s u := by
  unfold execHandshakeTimeout
  have h := Keeps.refl A s
  refine ⟨_, rfl, ?_⟩
  unfold touchExecHandshakeTimeout at hA
  repeat' (first
    | with_reducible assumption
    | intro y
    | (with_reducible apply shakeRefused_keeps (hA := by first | with_reducible assumption | with_reducible apply_assumption))
    | with_reducible apply keeps_ite
    | split)

def touchExecSessionIdleClose (A : Part → Prop) (i : Nat) : Prop := touchSessClose A i
theorem touchExecSessionIdleClose_all (h : ∀ q, A q) {i : Nat} : touchExecSessionIdleClose A i := touchSessClose_all h
theorem execSessionIdleClose_next {i : ℕ} {secs : ℕ} (hA : touchExecSessionIdleClose A i) : ∃ u, execSessionIdleClose i secs s = .next u ∧ Keeps A s u := by
  unfold execSessionIdleClose
  have h := Keeps.refl A s
  refine ⟨_, rfl, ?_⟩
  unfold touchExecSessionIdleClose at hA
  repeat' (first
    | with_reducible assumption
    | intro y
    | (with_reducible apply sessClose_keeps (hA := by first | with_reducible assumption | with_reducible apply_assumption))
    | with_reducible apply keeps_ite
    | split)

def touchUnasked (A : Part → Prop) : Prop := touchEmit A
theorem touchUnasked_all (h : ∀ q, A q) : touchUnasked A := touchEmit_all h
theorem unasked_keeps {k : Sys2Proof.Machine.Sent} {sess : ℕ} {op : ℕ} {body : List ℕ} (hA : touchUnasked A)  (h : Keeps A s t) : Keeps A s (State.unasked t k sess op body) := by
  unfold State.unasked
  unfold touchUnasked at hA
  repeat' (first
    | with_reducible assumption
    | intro y
    | (with_reducible apply emit_keeps (hA := by first | with_reducible assumption | with_reducible apply_assumption))
    | with_reducible apply keeps_ite
    | split)

def touchRespond (A : Part → Prop) : Prop := touchEmit A ∧ touchSetSes A
theorem touchRespond_all (h : ∀ q, A q) : touchRespond A := ⟨touchEmit_all h, touchSetSes_all h⟩
theorem respond_keeps {sess : ℕ} {op : ℕ} {id : ℕ} {st : ℕ} {fixed : Bool} {req : List ℕ} {body : List ℕ} (hA : touchRespond A)  (h : Keeps A s t) : Keeps A s (State.respond t sess op id st fixed req body) := by
  unfold State.respond
  obtain ⟨_, _⟩ := hA
  repeat' (first
    | with_reducible assumption
    | intro y
    | (extract_lets +onlyGivenNames x; first | (refine cut (P := Keeps A s x) ?_ ?_; (on_goal 1 => (unfold x; clear x)); (on_goal 2 => (intro hx; first | clear_value x | skip))) | clear_value x | skip)
    | (with_reducible apply emit_keeps (hA := by first | with_reducible assumption | with_reducible apply_assumption))
    | (with_reducible apply setSes_keeps (hA := by first | with_reducible assumption | with_reducible apply_assumption))
    | with_reducible apply keeps_ite
    | split
    | refine keeps_ite ?_ ?_)

def touchMessage (A : Part → Prop) : Prop := touchEmit A ∧ touchRespond A
theorem touchMessage_all (h : ∀ q, A q) : touchMessage A := ⟨touchEmit_all h, touchRespond_all h⟩
theorem message_keeps {sess : ℕ} {op : ℕ} {id : ℕ} {fixed : Bool} {req : List ℕ} {g : Sys2Proof.Machine.State → ℕ × List ℕ × Sys2Proof.Machine.State} (hA : touchMessage A) (hg : ∀ y0, Keeps A s y0 → Keeps A s (g y0).2.2) (h : Keeps A s t) : Keeps A s (State.message t sess op id fixed req g) := by
  unfold State.message
  obtain ⟨_, _⟩ := hA
  repeat' (first
    | with_reducible assumption
    | intro y
    | (extract_lets +onlyGivenNames x; first | (refine cut (P := Keeps A s x) ?_ ?_; (on_goal 1 => (unfold x; clear x)); (on_goal 2 => (intro hx; first | clear_value x | skip))) | (refine cut (P := Keeps A s x.2) ?_ ?_; (on_goal 1 => (unfold x; clear x)); (on_goal 2 => (intro hx; first | clear_value x | skip))) | (refine cut (P := Keeps A s x.2.2) ?_ ?_; (on_goal 1 => (unfold x; clear x)); (on_goal 2 => (intro hx; first | clear_value x | skip))) | clear_value x | skip)
    | (with_reducible apply emit_keeps (hA := by first | with_reducible assumption | with_reducible apply_assumption))
    | (with_reducible apply respond_keeps (hA := by first | with_reducible assumption | with_reducible apply_assumption))
    | with_reducible apply keeps_ite
    | with_reducible apply keeps_ite2
    | with_reducible apply keeps_ite3
    | with_reducible apply hg
    | split
    | refine keeps_ite ?_ ?_)

def touchReadAll (A : Part → Prop) : Prop := touchAccessRead A

theorem touchReadAll_all (h : ∀ q, A q) : touchReadAll A := touchAccessRead_all h

theorem readAll_keeps {sess : Nat} {l : List Nat} (hA : touchReadAll A) (h : Keeps A s t) : Keeps A s (State.readAll sess l t).2 := by
  induction l generalizing t with
  | nil => exact h
  | cons a l ih =>
    unfold State.readAll
    split
    · exact h
    · exact ih (accessRead_keeps hA h)

def touchWriteAll (A : Part → Prop) : Prop := touchAccessWrite A

theorem touchWriteAll_all (h : ∀ q, A q) : touchWriteAll A := touchAccessWrite_all h

theorem writeAll_keeps {sess : Nat} {l : List (Nat × Nat × Nat)} (hA : touchWriteAll A) (h : Keeps A s t) :
    Keeps A s (State.writeAll sess l t).2 := by
  induction l generalizing t with
  | nil => exact h
  | cons a l ih =>
    unfold State.writeAll
    split
    · exact h
    · exact ih (accessWrite_keeps hA h)

def touchReadBlock (A : Part → Prop) : Prop := touchAccessRead A

theorem touchReadBlock_all (h : ∀ q, A q) : touchReadBlock A := touchAccessRead_all h

theorem readBlock_keeps {sess : Nat} {l : List Nat} (hA : touchReadBlock A) (h : Keeps A s t) : Keeps A s (State.readBlock sess l t).2.2 := by
  induction l generalizing t with
  | nil => exact h
  | cons a l ih =>
    unfold State.readBlock
    split
    · exact h
    · dsimp only
      split
      · exact accessRead_keeps hA h
      · exact ih (accessRead_keeps hA h)

def touchWriteBlock (A : Part → Prop) : Prop := touchAccessWrite A

theorem touchWriteBlock_all (h : ∀ q, A q) : touchWriteBlock A := touchAccessWrite_all h

theorem writeBlock_keeps {sess : Nat} {l : List (Nat × Nat)} (hA : touchWriteBlock A) (h : Keeps A s t) :
    Keeps A s (State.writeBlock sess l t).2.2 := by
  induction l generalizing t with
  | nil => exact h
  | cons a l ih =>
    unfold State.writeBlock
    split
    · exact h
    · dsimp only
      split
      · exact accessWrite_keeps hA h
      · exact ih (accessWrite_keeps hA h)

def touchHeadStatus (A : Part → Prop) : Prop := touchFree A
theorem touchHeadStatus_all (h : ∀ q, A q) : touchHeadStatus A := touchFree_all h
theorem headStatus_keeps {l : List ℕ} (hA : touchHeadStatus A)  (h : Keeps A s t) : Keeps A s (State.headStatus t l).2 := by
  unfold State.headStatus
  unfold touchHeadStatus at hA
  repeat' (first
    | with_reducible assumption
    | intro y
    | (with_reducible apply free_keeps (hA := by first | with_reducible assumption | with_reducible apply_assumption))
    | with_reducible apply keeps_ite
    | with_reducible apply keeps_ite2
    | with_reducible apply keeps_ite3
    | split)

def touchExecRead (A : Part → Prop) : Prop := touchMessage A ∧ touchReadAll A ∧ touchHeadStatus A
theorem touchExecRead_all (h : ∀ q, A q) : touchExecRead A := ⟨touchMessage_all h, touchReadAll_all h, touchHeadStatus_all h⟩
theorem execRead_next {sess : ℕ} {id : ℕ} {addrs : List ℕ} (hA : touchExecRead A) : ∃ u, execRead sess id addrs s = .next u ∧ Keeps A s u := by
  unfold execRead
  have h := Keeps.refl A s
  refine ⟨_, rfl, ?_⟩
  obtain ⟨_, _, _⟩ := hA
  repeat' (first
    | with_reducible assumption
    | intro y
    | (extract_lets +onlyGivenNames x; first | (refine cut (P := Keeps A s x) ?_ ?_; (on_goal 1 => (unfold x; clear x)); (on_goal 2 => (intro hx; first | clear_value x | skip))) | (refine cut (P := Keeps A s x.2) ?_ ?_; (on_goal 1 => (unfold x; clear x)); (on_goal 2 => (intro hx; first | clear_value x | skip))) | (refine cut (P := Keeps A s x.2.2) ?_ ?_; (on_goal 1 => (unfold x; clear x)); (on_goal 2 => (intro hx; first | clear_value x | skip))) | clear_value x | skip)
    | (with_reducible apply message_keeps (hA := by first | with_reducible assumption | with_reducible apply_assumption))
    | (with_reducible apply readAll_keeps (hA := by first | with_reducible assumption | with_reducible apply_assumption))
    | (with_reducible apply headStatus_keeps (hA := by first | with_reducible assumption | with_reducible apply_assumption))
    | with_reducible apply keeps_ite
    | with_reducible apply keeps_ite2
    | with_reducible apply keeps_ite3
    | split
    | refine keeps_ite ?_ ?_)

def touchExecWrite (A : Part → Prop) : Prop := touchMessage A ∧ touchWriteAll A ∧ touchHeadStatus A
theorem touchExecWrite_all (h : ∀ q, A q) : touchExecWrite A := ⟨touchMessage_all h, touchWriteAll_all h, touchHeadStatus_all h⟩
theorem execWrite_next {sess : ℕ} {id : ℕ} {entries : List (ℕ × ℕ × ℕ)} (hA : touchExecWrite A) : ∃ u, execWrite sess id entries s = .next u ∧ Keeps A s u := by
  unfold execWrite
  have h := Keeps.refl A s
  refine ⟨_, rfl, ?_⟩
  obtain ⟨_, _, _⟩ := hA
  repeat' (first
    | with_reducible assumption
    | intro y
    | (extract_lets +onlyGivenNames x; first | (refine cut (P := Keeps A s x) ?_ ?_; (on_goal 1 => (unfold x; clear x)); (on_goal 2 => (intro hx; first | clear_value x | skip))) | (refine cut (P := Keeps A s x.2) ?_ ?_; (on_goal 1 => (unfold x; clear x)); (on_goal 2 => (intro hx; first | clear_value x | skip))) | (refine cut (P := Keeps A s x.2.2) ?_ ?_; (on_goal 1 => (unfold x; clear x)); (on_goal 2 => (intro hx; first | clear_value x | skip))) | clear_value x | skip)
    | (with_reducible apply message_keeps (hA := by first | with_reducible assumption | with_reducible apply_assumption))
    | (with_reducible apply writeAll_keeps (hA := by first | with_reducible assumption | with_reducible apply_assumption))
    | (with_reducible apply headStatus_keeps (hA := by first | with_reducible assumption | with_reducible apply_assumption))
    | with_reducible apply keeps_ite
    | with_reducible apply keeps_ite2
    | with_reducible apply keeps_ite3
    | split
    | refine keeps_ite ?_ ?_)

def touchExecBlockRead (A : Part → Prop) : Prop := touchMessage A ∧ touchReadBlock A
theorem touchExecBlockRead_all (h : ∀ q, A q) : touchExecBlockRead A := ⟨touchMessage_all h, touchReadBlock_all h⟩
theorem execBlockRead_next {sess : ℕ} {id : ℕ} {fixed : Bool} {a : ℕ} {n : ℕ} (hA : touchExecBlockRead A) : ∃ u, execBlockRead sess id fixed a n s = .next u ∧ Keeps A s u := by
  unfold execBlockRead
  have h := Keeps.refl A s
  refine ⟨_, rfl, ?_⟩
  obtain ⟨_, _⟩ := hA
  repeat' (first
    | with_reducible assumption
    | intro y
    | (extract_lets +onlyGivenNames x; first | (refine cut (P := Keeps A s x) ?_ ?_; (on_goal 1 => (unfold x; clear x)); (on_goal 2 => (intro hx; first | clear_value x | skip))) | (refine cut (P := Keeps A s x.2) ?_ ?_; (on_goal 1 => (unfold x; clear x)); (on_goal 2 => (intro hx; first | clear_value x | skip))) | (refine cut (P := Keeps A s x.2.2) ?_ ?_; (on_goal 1 => (unfold x; clear x)); (on_goal 2 => (intro hx; first | clear_value x | skip))) | clear_value x | skip)
    | (with_reducible apply message_keeps (hA := by first | with_reducible assumption | with_reducible apply_assumption))
    | (with_reducible apply readBlock_keeps (hA := by first | with_reducible assumption | with_reducible apply_assumption))
    | with_reducible apply keeps_ite
    | with_reducible apply keeps_ite2
    | with_reducible apply keeps_ite3
    | split
    | refine keeps_ite ?_ ?_)

def touchExecBlockWrite (A : Part → Prop) : Prop := touchMessage A ∧ touchWriteBlock A
theorem touchExecBlockWrite_all (h : ∀ q, A q) : touchExecBlockWrite A := ⟨touchMessage_all h, touchWriteBlock_all h⟩
theorem execBlockWrite_next {sess : ℕ} {id : ℕ} {fixed : Bool} {a : ℕ} {words : List ℕ} (hA : touchExecBlockWrite A) : ∃ u, execBlockWrite sess id fixed a words s = .next u ∧ Keeps A s u := by
  unfold execBlockWrite
  have h := Keeps.refl A s
  refine ⟨_, rfl, ?_⟩
  obtain ⟨_, _⟩ := hA
  repeat' (first
    | with_reducible assumption
    | intro y
    | (extract_lets +onlyGivenNames x; first | (refine cut (P := Keeps A s x) ?_ ?_; (on_goal 1 => (unfold x; clear x)); (on_goal 2 => (intro hx; first | clear_value x | skip))) | (refine cut (P := Keeps A s x.2) ?_ ?_; (on_goal 1 => (unfold x; clear x)); (on_goal 2 => (intro hx; first | clear_value x | skip))) | (refine cut (P := Keeps A s x.2.2) ?_ ?_; (on_goal 1 => (unfold x; clear x)); (on_goal 2 => (intro hx; first | clear_value x | skip))) | clear_value x | skip)
    | (with_reducible apply message_keeps (hA := by first | with_reducible assumption | with_reducible apply_assumption))
    | (with_reducible apply writeBlock_keeps (hA := by first | with_reducible assumption | with_reducible apply_assumption))
    | with_reducible apply keeps_ite
    | with_reducible apply keeps_ite2
    | with_reducible apply keeps_ite3
    | split
    | refine keeps_ite ?_ ?_)

def touchExecPing (A : Part → Prop) : Prop := touchMessage A
theorem touchExecPing_all (h : ∀ q, A q) : touchExecPing A := touchMessage_all h
theorem execPing_next {sess : ℕ} {id : ℕ} (hA : touchExecPing A) : ∃ u, execPing sess id s = .next u ∧ Keeps A s u := by
  unfold execPing
  have h := Keeps.refl A s
  refine ⟨_, rfl, ?_⟩
  unfold touchExecPing at hA
  repeat' (first
    | with_reducible assumption
    | intro y
    | (with_reducible apply message_keeps (hA := by first | with_reducible assumption | with_reducible apply_assumption))
    | with_reducible apply keeps_ite
    | split)

def touchExecClose (A : Part → Prop) (sess : Nat) : Prop := touchSessClose A sess ∧ touchEmit A ∧ touchMessage A
theorem touchExecClose_all (h : ∀ q, A q) {sess : Nat} : touchExecClose A sess := ⟨touchSessClose_all h, touchEmit_all h, touchMessage_all h⟩
theorem execClose_next {sess : ℕ} {id : ℕ} {alert : Bool} (hA : touchExecClose A sess) : ∃ u, execClose sess id alert s = .next u ∧ Keeps A s u := by
  unfold execClose
  have h := Keeps.refl A s
  refine ⟨_, rfl, ?_⟩
  obtain ⟨_, _, _⟩ := hA
  repeat' (first
    | with_reducible assumption
    | intro y
    | (with_reducible apply sessClose_keeps (hA := by first | with_reducible assumption | with_reducible apply_assumption))
    | (with_reducible apply emit_keeps (hA := by first | with_reducible assumption | with_reducible apply_assumption))
    | (with_reducible apply message_keeps (hA := by first | with_reducible assumption | with_reducible apply_assumption))
    | with_reducible apply keeps_ite
    | split)

def touchSetSubs (A : Part → Prop) (sess : Nat) : Prop := A (.inst R.SYS_SESS.N_SUB sess 0) ∧ touchSetSes A
theorem touchSetSubs_all (h : ∀ q, A q) {sess : Nat} : touchSetSubs A sess := ⟨h _, touchSetSes_all h⟩
theorem setSubs_keeps {sess : ℕ} {l : List (ℕ × Sys2Proof.Machine.Sub)} (hA : touchSetSubs A sess)  (h : Keeps A s t) : Keeps A s (State.setSubs t sess l) := by
  unfold State.setSubs
  obtain ⟨_, _⟩ := hA
  repeat' (first
    | with_reducible assumption
    | intro y
    | (extract_lets +onlyGivenNames x; first | (refine cut (P := Keeps A s x) ?_ ?_; (on_goal 1 => (unfold x; clear x)); (on_goal 2 => (intro hx; first | clear_value x | skip))) | clear_value x | skip)
    | (with_reducible refine put_keepsAt (by assumption) ?_)
    | (with_reducible refine put_keeps (by assumption) ?_)
    | (with_reducible apply setSes_keeps (hA := by first | with_reducible assumption | with_reducible apply_assumption))
    | with_reducible apply keeps_ite
    | split)

def touchExecSubscribe (A : Part → Prop) (sess : Nat) : Prop := touchMessage A ∧ touchFree A ∧ touchSetSubs A sess
theorem touchExecSubscribe_all (h : ∀ q, A q) {sess : Nat} : touchExecSubscribe A sess := ⟨touchMessage_all h, touchFree_all h, touchSetSubs_all h⟩
theorem execSubscribe_next {sess : ℕ} {id : ℕ} {fixed : Bool} {sub : ℕ} {mode : ℕ} {period : ℕ} {a : ℕ} {n : ℕ} (hA : touchExecSubscribe A sess) : ∃ u, execSubscribe sess id fixed sub mode period a n s = .next u ∧ Keeps A s u := by
  unfold execSubscribe
  have h := Keeps.refl A s
  refine ⟨_, rfl, ?_⟩
  obtain ⟨_, _, _⟩ := hA
  repeat' (first
    | with_reducible assumption
    | intro y
    | (extract_lets +onlyGivenNames x; first | (refine cut (P := Keeps A s x) ?_ ?_; (on_goal 1 => (unfold x; clear x)); (on_goal 2 => (intro hx; first | clear_value x | skip))) | (refine cut (P := Keeps A s x.2) ?_ ?_; (on_goal 1 => (unfold x; clear x)); (on_goal 2 => (intro hx; first | clear_value x | skip))) | (refine cut (P := Keeps A s x.2.2) ?_ ?_; (on_goal 1 => (unfold x; clear x)); (on_goal 2 => (intro hx; first | clear_value x | skip))) | clear_value x | skip)
    | (with_reducible apply message_keeps (hA := by first | with_reducible assumption | with_reducible apply_assumption))
    | (with_reducible apply free_keeps (hA := by first | with_reducible assumption | with_reducible apply_assumption))
    | (with_reducible apply setSubs_keeps (hA := by first | with_reducible assumption | with_reducible apply_assumption))
    | with_reducible apply keeps_ite
    | with_reducible apply keeps_ite2
    | with_reducible apply keeps_ite3
    | split
    | refine keeps_ite ?_ ?_)

def touchExecUnsubscribe (A : Part → Prop) (sess : Nat) : Prop := touchMessage A ∧ touchSetSubs A sess
theorem touchExecUnsubscribe_all (h : ∀ q, A q) {sess : Nat} : touchExecUnsubscribe A sess := ⟨touchMessage_all h, touchSetSubs_all h⟩
theorem execUnsubscribe_next {sess : ℕ} {id : ℕ} {sub : ℕ} (hA : touchExecUnsubscribe A sess) : ∃ u, execUnsubscribe sess id sub s = .next u ∧ Keeps A s u := by
  unfold execUnsubscribe
  have h := Keeps.refl A s
  refine ⟨_, rfl, ?_⟩
  obtain ⟨_, _⟩ := hA
  repeat' (first
    | with_reducible assumption
    | intro y
    | (with_reducible apply message_keeps (hA := by first | with_reducible assumption | with_reducible apply_assumption))
    | (with_reducible apply setSubs_keeps (hA := by first | with_reducible assumption | with_reducible apply_assumption))
    | with_reducible apply keeps_ite
    | split)

def touchExecNotify (A : Part → Prop) (sess : Nat) : Prop := touchReadAll A ∧ touchSetSubs A sess ∧ touchUnasked A
theorem touchExecNotify_all (h : ∀ q, A q) {sess : Nat} : touchExecNotify A sess := ⟨touchReadAll_all h, touchSetSubs_all h, touchUnasked_all h⟩
theorem execNotify_next {sess : ℕ} {sub : ℕ} {hc : ℕ} (hA : touchExecNotify A sess) : ∃ u, execNotify sess sub hc s = .next u ∧ Keeps A s u := by
  unfold execNotify
  have h := Keeps.refl A s
  refine ⟨_, rfl, ?_⟩
  obtain ⟨_, _, _⟩ := hA
  repeat' (first
    | with_reducible assumption
    | intro y
    | (extract_lets +onlyGivenNames x; first | (refine cut (P := Keeps A s x) ?_ ?_; (on_goal 1 => (unfold x; clear x)); (on_goal 2 => (intro hx; first | clear_value x | skip))) | (refine cut (P := Keeps A s x.2) ?_ ?_; (on_goal 1 => (unfold x; clear x)); (on_goal 2 => (intro hx; first | clear_value x | skip))) | (refine cut (P := Keeps A s x.2.2) ?_ ?_; (on_goal 1 => (unfold x; clear x)); (on_goal 2 => (intro hx; first | clear_value x | skip))) | clear_value x | skip)
    | (with_reducible apply readAll_keeps (hA := by first | with_reducible assumption | with_reducible apply_assumption))
    | (with_reducible apply setSubs_keeps (hA := by first | with_reducible assumption | with_reducible apply_assumption))
    | (with_reducible apply unasked_keeps (hA := by first | with_reducible assumption | with_reducible apply_assumption))
    | with_reducible apply keeps_ite
    | with_reducible apply keeps_ite2
    | with_reducible apply keeps_ite3
    | split
    | refine keeps_ite ?_ ?_)

def touchExecEvents (A : Part → Prop) : Prop := touchMessage A ∧ touchSetSes A
theorem touchExecEvents_all (h : ∀ q, A q) : touchExecEvents A := ⟨touchMessage_all h, touchSetSes_all h⟩
theorem execEvents_next {sess : ℕ} {id : ℕ} {mask : ℕ} {sev : ℕ} (hA : touchExecEvents A) : ∃ u, execEvents sess id mask sev s = .next u ∧ Keeps A s u := by
  unfold execEvents
  have h := Keeps.refl A s
  refine ⟨_, rfl, ?_⟩
  obtain ⟨_, _⟩ := hA
  repeat' (first
    | with_reducible assumption
    | intro y
    | (extract_lets +onlyGivenNames x; first | (refine cut (P := Keeps A s x) ?_ ?_; (on_goal 1 => (unfold x; clear x)); (on_goal 2 => (intro hx; first | clear_value x | skip))) | clear_value x | skip)
    | (with_reducible apply message_keeps (hA := by first | with_reducible assumption | with_reducible apply_assumption))
    | (with_reducible apply setSes_keeps (hA := by first | with_reducible assumption | with_reducible apply_assumption))
    | with_reducible apply keeps_ite
    | split
    | refine keeps_ite ?_ ?_)

def touchSendRecords (A : Part → Prop) : Prop := touchUnasked A

theorem touchSendRecords_all (h : ∀ q, A q) : touchSendRecords A := touchUnasked_all h

theorem sendRecords_keeps {sess n fuel dropped : Nat} {l : List Held} (hA : touchSendRecords A) (h : Keeps A s t) :
    Keeps A s (State.sendRecords sess n fuel dropped l t) := by
  induction fuel generalizing t dropped l with
  | zero => exact h
  | succ fuel ih =>
    unfold State.sendRecords
    split
    · exact h
    · exact ih (unasked_keeps hA h)

def touchExecRecords (A : Part → Prop) : Prop := touchSendRecords A ∧ touchSetSes A
theorem touchExecRecords_all (h : ∀ q, A q) : touchExecRecords A := ⟨touchSendRecords_all h, touchSetSes_all h⟩
theorem execRecords_next {sess : ℕ} (hA : touchExecRecords A) : ∃ u, execRecords sess s = .next u ∧ Keeps A s u := by
  unfold execRecords
  have h := Keeps.refl A s
  refine ⟨_, rfl, ?_⟩
  obtain ⟨_, _⟩ := hA
  repeat' (first
    | with_reducible assumption
    | intro y
    | (extract_lets +onlyGivenNames x; first | (refine cut (P := Keeps A s x) ?_ ?_; (on_goal 1 => (unfold x; clear x)); (on_goal 2 => (intro hx; first | clear_value x | skip))) | clear_value x | skip)
    | (with_reducible apply sendRecords_keeps (hA := by first | with_reducible assumption | with_reducible apply_assumption))
    | (with_reducible apply setSes_keeps (hA := by first | with_reducible assumption | with_reducible apply_assumption))
    | with_reducible apply keeps_ite
    | split
    | refine keeps_ite ?_ ?_)

def touchKnownOr (A : Part → Prop) : Prop := touchFree A
theorem touchKnownOr_all (h : ∀ q, A q) : touchKnownOr A := touchFree_all h
theorem knownOr_keeps {v : Option ℕ} {w : ℕ} (hA : touchKnownOr A)  (h : Keeps A s t) : Keeps A s (State.knownOr t v w).2 := by
  unfold State.knownOr
  unfold touchKnownOr at hA
  repeat' (first
    | with_reducible assumption
    | intro y
    | (extract_lets +onlyGivenNames x; first | (refine cut (P := Keeps A s x) ?_ ?_; (on_goal 1 => (unfold x; clear x)); (on_goal 2 => (intro hx; first | clear_value x | skip))) | (refine cut (P := Keeps A s x.2) ?_ ?_; (on_goal 1 => (unfold x; clear x)); (on_goal 2 => (intro hx; first | clear_value x | skip))) | (refine cut (P := Keeps A s x.2.2) ?_ ?_; (on_goal 1 => (unfold x; clear x)); (on_goal 2 => (intro hx; first | clear_value x | skip))) | clear_value x | skip)
    | (with_reducible apply free_keeps (hA := by first | with_reducible assumption | with_reducible apply_assumption))
    | with_reducible apply keeps_ite
    | with_reducible apply keeps_ite2
    | with_reducible apply keeps_ite3
    | split)

def touchLocate (A : Part → Prop) : Prop := touchKnownOr A
theorem touchLocate_all (h : ∀ q, A q) : touchLocate A := touchKnownOr_all h
theorem locate_keeps {serial : ℕ} (hA : touchLocate A)  (h : Keeps A s t) : Keeps A s (State.locate t serial).2 := by
  unfold State.locate
  unfold touchLocate at hA
  repeat' (first
    | with_reducible assumption
    | intro y
    | (extract_lets +onlyGivenNames x; first | (refine cut (P := Keeps A s x) ?_ ?_; (on_goal 1 => (unfold x; clear x)); (on_goal 2 => (intro hx; first | clear_value x | skip))) | (refine cut (P := Keeps A s x.2) ?_ ?_; (on_goal 1 => (unfold x; clear x)); (on_goal 2 => (intro hx; first | clear_value x | skip))) | (refine cut (P := Keeps A s x.2.2) ?_ ?_; (on_goal 1 => (unfold x; clear x)); (on_goal 2 => (intro hx; first | clear_value x | skip))) | clear_value x | skip)
    | (with_reducible apply knownOr_keeps (hA := by first | with_reducible assumption | with_reducible apply_assumption))
    | with_reducible apply keeps_ite
    | with_reducible apply keeps_ite2
    | with_reducible apply keeps_ite3
    | split
    | refine keeps_ite ?_ ?_)

def touchExecLocate (A : Part → Prop) : Prop := A .mg ∧ touchMessage A ∧ touchLocate A
theorem touchExecLocate_all (h : ∀ q, A q) : touchExecLocate A := ⟨h _, touchMessage_all h, touchLocate_all h⟩
theorem execLocate_next {sess : ℕ} {id : ℕ} {serial : ℕ} (hA : touchExecLocate A) : ∃ u, execLocate sess id serial s = .next u ∧ Keeps A s u := by
  unfold execLocate
  have h := Keeps.refl A s
  refine ⟨_, rfl, ?_⟩
  obtain ⟨_, _, _⟩ := hA
  repeat' (first
    | with_reducible assumption
    | intro y
    | (extract_lets +onlyGivenNames x; first | (refine cut (P := Keeps A s x) ?_ ?_; (on_goal 1 => (unfold x; clear x)); (on_goal 2 => (intro hx; first | clear_value x | skip))) | (refine cut (P := Keeps A s x.2) ?_ ?_; (on_goal 1 => (unfold x; clear x)); (on_goal 2 => (intro hx; first | clear_value x | skip))) | (refine cut (P := Keeps A s x.2.2) ?_ ?_; (on_goal 1 => (unfold x; clear x)); (on_goal 2 => (intro hx; first | clear_value x | skip))) | clear_value x | skip)
    | (with_reducible apply message_keeps (hA := by first | with_reducible assumption | with_reducible apply_assumption))
    | (with_reducible apply locate_keeps (hA := by first | with_reducible assumption | with_reducible apply_assumption))
    | with_reducible apply keeps_ite
    | with_reducible apply keeps_ite2
    | with_reducible apply keeps_ite3
    | split
    | refine keeps_ite ?_ ?_
    | with_reducible exact keeps_mg (by assumption) (by assumption))

def touchExecLaunch (A : Part → Prop) : Prop := touchMessage A ∧ A .mg ∧ touchAgentFrame A
theorem touchExecLaunch_all (h : ∀ q, A q) : touchExecLaunch A := ⟨touchMessage_all h, h _, touchAgentFrame_all h⟩
theorem execLaunch_next {sess : ℕ} {id : ℕ} {dst : ℕ} {pay : List ℕ} {recent : ℕ} (hA : touchExecLaunch A) : ∃ u, execLaunch sess id dst pay recent s = .next u ∧ Keeps A s u := by
  unfold execLaunch
  have h := Keeps.refl A s
  refine ⟨_, rfl, ?_⟩
  obtain ⟨_, _, _⟩ := hA
  repeat' (first
    | with_reducible assumption
    | intro y
    | (extract_lets +onlyGivenNames x; first | (refine cut (P := Keeps A s x) ?_ ?_; (on_goal 1 => (unfold x; clear x)); (on_goal 2 => (intro hx; first | clear_value x | skip))) | clear_value x | skip)
    | (with_reducible apply message_keeps (hA := by first | with_reducible assumption | with_reducible apply_assumption))
    | (with_reducible apply agentFrame_keeps (hA := by first | with_reducible assumption | with_reducible apply_assumption))
    | with_reducible apply keeps_ite
    | split
    | refine keeps_ite ?_ ?_
    | with_reducible exact keeps_mg (by assumption) (by assumption))

def touchExecLresult (A : Part → Prop) : Prop := touchUnasked A
theorem touchExecLresult_all (h : ∀ q, A q) : touchExecLresult A := touchUnasked_all h
theorem execLresult_next {src : ℕ} {resp : List ℕ} (hA : touchExecLresult A) : ∃ u, execLresult src resp s = .next u ∧ Keeps A s u := by
  unfold execLresult
  have h := Keeps.refl A s
  refine ⟨_, rfl, ?_⟩
  unfold touchExecLresult at hA
  repeat' (first
    | with_reducible assumption
    | intro y
    | (extract_lets +onlyGivenNames x; first | (refine cut (P := Keeps A s x) ?_ ?_; (on_goal 1 => (unfold x; clear x)); (on_goal 2 => (intro hx; first | clear_value x | skip))) | clear_value x | skip)
    | (with_reducible apply unasked_keeps (hA := by first | with_reducible assumption | with_reducible apply_assumption))
    | with_reducible apply keeps_ite
    | split)

def touchRootNode (A : Part → Prop) : Prop := touchFree A
theorem touchRootNode_all (h : ∀ q, A q) : touchRootNode A := touchFree_all h
theorem rootNode_keeps {serial : ℕ} (hA : touchRootNode A)  (h : Keeps A s t) : Keeps A s (State.rootNode t serial).2 := by
  unfold State.rootNode
  unfold touchRootNode at hA
  repeat' (first
    | with_reducible assumption
    | intro y
    | (extract_lets +onlyGivenNames x; first | (refine cut (P := Keeps A s x) ?_ ?_; (on_goal 1 => (unfold x; clear x)); (on_goal 2 => (intro hx; first | clear_value x | skip))) | (refine cut (P := Keeps A s x.2) ?_ ?_; (on_goal 1 => (unfold x; clear x)); (on_goal 2 => (intro hx; first | clear_value x | skip))) | (refine cut (P := Keeps A s x.2.2) ?_ ?_; (on_goal 1 => (unfold x; clear x)); (on_goal 2 => (intro hx; first | clear_value x | skip))) | clear_value x | skip)
    | (with_reducible apply free_keeps (hA := by first | with_reducible assumption | with_reducible apply_assumption))
    | with_reducible apply keeps_ite
    | with_reducible apply keeps_ite2
    | with_reducible apply keeps_ite3
    | split
    | refine keeps_ite ?_ ?_)

def touchResetNode (A : Part → Prop) : Prop := touchRootNode A
theorem touchResetNode_all (h : ∀ q, A q) : touchResetNode A := touchRootNode_all h
theorem resetNode_keeps {serial : ℕ} (hA : touchResetNode A)  (h : Keeps A s t) : Keeps A s (State.resetNode t serial).2 := by
  unfold State.resetNode
  unfold touchResetNode at hA
  repeat' (first
    | with_reducible assumption
    | intro y
    | (extract_lets +onlyGivenNames x; first | (refine cut (P := Keeps A s x) ?_ ?_; (on_goal 1 => (unfold x; clear x)); (on_goal 2 => (intro hx; first | clear_value x | skip))) | (refine cut (P := Keeps A s x.2) ?_ ?_; (on_goal 1 => (unfold x; clear x)); (on_goal 2 => (intro hx; first | clear_value x | skip))) | (refine cut (P := Keeps A s x.2.2) ?_ ?_; (on_goal 1 => (unfold x; clear x)); (on_goal 2 => (intro hx; first | clear_value x | skip))) | clear_value x | skip)
    | (with_reducible apply rootNode_keeps (hA := by first | with_reducible assumption | with_reducible apply_assumption))
    | with_reducible apply keeps_ite
    | with_reducible apply keeps_ite2
    | with_reducible apply keeps_ite3
    | split)

def touchExecReset (A : Part → Prop) : Prop := touchMessage A ∧ touchResetNode A ∧ touchAgentFrame A ∧ A .mg
theorem touchExecReset_all (h : ∀ q, A q) : touchExecReset A := ⟨touchMessage_all h, touchResetNode_all h, touchAgentFrame_all h, h _⟩
theorem execReset_next {sess : ℕ} {id : ℕ} {serial : ℕ} {recent : ℕ} (hA : touchExecReset A) : ∃ u, execReset sess id serial recent s = .next u ∧ Keeps A s u := by
  unfold execReset
  have h := Keeps.refl A s
  refine ⟨_, rfl, ?_⟩
  obtain ⟨_, _, _, _⟩ := hA
  repeat' (first
    | with_reducible assumption
    | intro y
    | (extract_lets +onlyGivenNames x; first | (refine cut (P := Keeps A s x) ?_ ?_; (on_goal 1 => (unfold x; clear x)); (on_goal 2 => (intro hx; first | clear_value x | skip))) | (refine cut (P := Keeps A s x.2) ?_ ?_; (on_goal 1 => (unfold x; clear x)); (on_goal 2 => (intro hx; first | clear_value x | skip))) | (refine cut (P := Keeps A s x.2.2) ?_ ?_; (on_goal 1 => (unfold x; clear x)); (on_goal 2 => (intro hx; first | clear_value x | skip))) | clear_value x | skip)
    | (with_reducible apply message_keeps (hA := by first | with_reducible assumption | with_reducible apply_assumption))
    | (with_reducible apply resetNode_keeps (hA := by first | with_reducible assumption | with_reducible apply_assumption))
    | (with_reducible apply agentFrame_keeps (hA := by first | with_reducible assumption | with_reducible apply_assumption))
    | with_reducible apply keeps_ite
    | with_reducible apply keeps_ite2
    | with_reducible apply keeps_ite3
    | split
    | refine keeps_ite ?_ ?_
    | with_reducible exact keeps_mg (by assumption) (by assumption))

def touchUtcSync (A : Part → Prop) : Prop := touchLog A ∧ touchRtcSync A
theorem touchUtcSync_all (h : ∀ q, A q) : touchUtcSync A := ⟨touchLog_all h, touchRtcSync_all h⟩
theorem utcSync_keeps {step : Bool} {utc : ℕ} (hA : touchUtcSync A)  (h : Keeps A s t) : Keeps A s (State.utcSync t step utc) := by
  unfold State.utcSync
  obtain ⟨_, _⟩ := hA
  repeat' (first
    | with_reducible assumption
    | intro y
    | (with_reducible apply log_keeps (hA := by first | with_reducible assumption | with_reducible apply_assumption))
    | (with_reducible apply rtcSync_keeps (hA := by first | with_reducible assumption | with_reducible apply_assumption))
    | with_reducible apply keeps_ite
    | split)

def touchExecTime (A : Part → Prop) : Prop := touchMessage A ∧ touchUtcSync A
theorem touchExecTime_all (h : ∀ q, A q) : touchExecTime A := ⟨touchMessage_all h, touchUtcSync_all h⟩
theorem execTime_next {sess : ℕ} {id : ℕ} {utc : ℕ} {frac : ℕ} {phase : ℕ} (hA : touchExecTime A) : ∃ u, execTime sess id utc frac phase s = .next u ∧ Keeps A s u := by
  unfold execTime
  have h := Keeps.refl A s
  refine ⟨_, rfl, ?_⟩
  obtain ⟨_, _⟩ := hA
  repeat' (first
    | with_reducible assumption
    | intro y
    | (extract_lets +onlyGivenNames x; first | (refine cut (P := Keeps A s x) ?_ ?_; (on_goal 1 => (unfold x; clear x)); (on_goal 2 => (intro hx; first | clear_value x | skip))) | clear_value x | skip)
    | (with_reducible apply message_keeps (hA := by first | with_reducible assumption | with_reducible apply_assumption))
    | (with_reducible apply utcSync_keeps (hA := by first | with_reducible assumption | with_reducible apply_assumption))
    | with_reducible apply keeps_ite
    | split
    | refine keeps_ite ?_ ?_)

def touchOfsShow (A : Part → Prop) : Prop := A (.reg R.SYS_TIME_STAT.OFS)
theorem touchOfsShow_all (h : ∀ q, A q) : touchOfsShow A := h _
theorem ofsShow_keeps {ns : ℤ} (hA : touchOfsShow A)  (h : Keeps A s t) : Keeps A s (State.ofsShow t ns) := by
  unfold State.ofsShow
  unfold touchOfsShow at hA
  repeat' (first
    | with_reducible assumption
    | intro y
    | (with_reducible refine putSat_keepsAt (by assumption) ?_)
    | (with_reducible refine putSat_keeps (by assumption) ?_)
    | with_reducible apply keeps_ite
    | split)

def touchSrcState (A : Part → Prop) : Prop := A (.reg R.SYS_TIME_STAT.TSTATE) ∧ touchLog A
theorem touchSrcState_all (h : ∀ q, A q) : touchSrcState A := ⟨h _, touchLog_all h⟩
theorem srcState_keeps {n : ℕ} {st : ℕ} (hA : touchSrcState A)  (h : Keeps A s t) : Keeps A s (State.srcState t n st) := by
  unfold State.srcState
  obtain ⟨_, _⟩ := hA
  repeat' (first
    | with_reducible assumption
    | intro y
    | (extract_lets +onlyGivenNames x; first | (refine cut (P := Keeps A s x) ?_ ?_; (on_goal 1 => (unfold x; clear x)); (on_goal 2 => (intro hx; first | clear_value x | skip))) | clear_value x | skip)
    | (with_reducible refine put_keepsAt (by assumption) ?_)
    | (with_reducible refine put_keeps (by assumption) ?_)
    | (with_reducible apply log_keeps (hA := by first | with_reducible assumption | with_reducible apply_assumption))
    | with_reducible apply keeps_ite
    | split
    | refine keeps_ite ?_ ?_)

def touchExecPtpSync (A : Part → Prop) : Prop := A .mg ∧ touchOfsShow A ∧ touchSrcState A ∧ touchUtcSync A ∧ touchLog A ∧ A (.reg R.SYS_TIME_STAT.RTC_SET) ∧ A (.reg R.SYS_RTC.UTC)
theorem touchExecPtpSync_all (h : ∀ q, A q) : touchExecPtpSync A := ⟨h _, touchOfsShow_all h, touchSrcState_all h, touchUtcSync_all h, touchLog_all h, h _, h _⟩
theorem execPtpSync_next {ofs : ℤ} {utc : ℕ} {utcValid : Bool} (hA : touchExecPtpSync A) : ∃ u, execPtpSync ofs utc utcValid s = .next u ∧ Keeps A s u := by
  unfold execPtpSync
  have h := Keeps.refl A s
  refine ⟨_, rfl, ?_⟩
  obtain ⟨_, _, _, _, _, _, _⟩ := hA
  repeat' (first
    | with_reducible assumption
    | intro y
    | (extract_lets +onlyGivenNames x; first | (refine cut (P := Keeps A s x) ?_ ?_; (on_goal 1 => (unfold x; clear x)); (on_goal 2 => (intro hx; first | clear_value x | skip))) | clear_value x | skip)
    | (with_reducible apply ofsShow_keeps (hA := by first | with_reducible assumption | with_reducible apply_assumption))
    | (with_reducible apply srcState_keeps (hA := by first | with_reducible assumption | with_reducible apply_assumption))
    | (with_reducible apply utcSync_keeps (hA := by first | with_reducible assumption | with_reducible apply_assumption))
    | (with_reducible apply log_keeps (hA := by first | with_reducible assumption | with_reducible apply_assumption))
    | (with_reducible refine put_keepsAt (by assumption) ?_)
    | (with_reducible refine put_keeps (by assumption) ?_)
    | with_reducible apply keeps_ite
    | split
    | refine keeps_ite ?_ ?_
    | with_reducible exact keeps_mg (by assumption) (by assumption))

def touchExecPtpLost (A : Part → Prop) : Prop := A .mg ∧ touchSrcState A
theorem touchExecPtpLost_all (h : ∀ q, A q) : touchExecPtpLost A := ⟨h _, touchSrcState_all h⟩
theorem execPtpLost_next {intervals : ℕ} (hA : touchExecPtpLost A) : ∃ u, execPtpLost intervals s = .next u ∧ Keeps A s u := by
  unfold execPtpLost
  have h := Keeps.refl A s
  refine ⟨_, rfl, ?_⟩
  obtain ⟨_, _⟩ := hA
  repeat' (first
    | with_reducible assumption
    | intro y
    | (extract_lets +onlyGivenNames x; first | (refine cut (P := Keeps A s x) ?_ ?_; (on_goal 1 => (unfold x; clear x)); (on_goal 2 => (intro hx; first | clear_value x | skip))) | clear_value x | skip)
    | (with_reducible apply srcState_keeps (hA := by first | with_reducible assumption | with_reducible apply_assumption))
    | with_reducible apply keeps_ite
    | split
    | with_reducible exact keeps_mg (by assumption) (by assumption))

def touchExecNtpPoll (A : Part → Prop) : Prop := A .mg ∧ touchEmit A
theorem touchExecNtpPoll_all (h : ∀ q, A q) : touchExecNtpPoll A := ⟨h _, touchEmit_all h⟩
theorem execNtpPoll_next {secs : ℕ} (hA : touchExecNtpPoll A) : ∃ u, execNtpPoll secs s = .next u ∧ Keeps A s u := by
  unfold execNtpPoll
  have h := Keeps.refl A s
  refine ⟨_, rfl, ?_⟩
  obtain ⟨_, _⟩ := hA
  repeat' (first
    | with_reducible assumption
    | intro y
    | (extract_lets +onlyGivenNames x; first | (refine cut (P := Keeps A s x) ?_ ?_; (on_goal 1 => (unfold x; clear x)); (on_goal 2 => (intro hx; first | clear_value x | skip))) | clear_value x | skip)
    | (with_reducible apply emit_keeps (hA := by first | with_reducible assumption | with_reducible apply_assumption))
    | with_reducible apply keeps_ite
    | split
    | with_reducible exact keeps_mg (by assumption) (by assumption))

def touchExecNtpResponse (A : Part → Prop) : Prop := A .mg ∧ touchOfsShow A ∧ touchSrcState A ∧ touchUtcSync A
theorem touchExecNtpResponse_all (h : ∀ q, A q) : touchExecNtpResponse A := ⟨h _, touchOfsShow_all h, touchSrcState_all h, touchUtcSync_all h⟩
theorem execNtpResponse_next {stratum : ℕ} {alarm : Bool} {rootMs : ℕ} {ofs : ℤ} {utc : ℕ} (hA : touchExecNtpResponse A) : ∃ u, execNtpResponse stratum alarm rootMs ofs utc s = .next u ∧ Keeps A s u := by
  unfold execNtpResponse
  have h := Keeps.refl A s
  refine ⟨_, rfl, ?_⟩
  obtain ⟨_, _, _, _⟩ := hA
  repeat' (first
    | with_reducible assumption
    | intro y
    | (extract_lets +onlyGivenNames x; first | (refine cut (P := Keeps A s x) ?_ ?_; (on_goal 1 => (unfold x; clear x)); (on_goal 2 => (intro hx; first | clear_value x | skip))) | clear_value x | skip)
    | (with_reducible apply ofsShow_keeps (hA := by first | with_reducible assumption | with_reducible apply_assumption))
    | (with_reducible apply srcState_keeps (hA := by first | with_reducible assumption | with_reducible apply_assumption))
    | (with_reducible apply utcSync_keeps (hA := by first | with_reducible assumption | with_reducible apply_assumption))
    | with_reducible apply keeps_ite
    | split
    | refine keeps_ite ?_ ?_
    | with_reducible exact keeps_mg (by assumption) (by assumption))

def touchExecNtpLost (A : Part → Prop) : Prop := touchSrcState A
theorem touchExecNtpLost_all (h : ∀ q, A q) : touchExecNtpLost A := touchSrcState_all h
theorem execNtpLost_next  (hA : touchExecNtpLost A) : ∃ u, execNtpLost s = .next u ∧ Keeps A s u := by
  unfold execNtpLost
  have h := Keeps.refl A s
  refine ⟨_, rfl, ?_⟩
  unfold touchExecNtpLost at hA
  repeat' (first
    | with_reducible assumption
    | intro y
    | (with_reducible apply srcState_keeps (hA := by first | with_reducible assumption | with_reducible apply_assumption))
    | with_reducible apply keeps_ite
    | split)

end Sys2Proof.Laws
end

