-- ==== Sys2Proof/Laws/KeepsTick.lean ====
section
/-! SUPPORT. What the operations of Machine/Tick.lean leave alone: for each the parts it may change (`touch…`) and its lemma. -/

namespace Sys2Proof.Laws

open Sys2Proof.Machine

set_option linter.unusedTactic false
set_option linter.unreachableTactic false
set_option linter.unusedVariables false
set_option linter.tactic.unusedName false

variable {A : Part → Prop} {s t : State}

def touchSameEnds (A : Part → Prop) : Prop := A .lsw ∧ A .saf
theorem touchSameEnds_all (h : ∀ q, A q) : touchSameEnds A := ⟨h _, h _⟩
theorem sameEnds_keeps  (hA : touchSameEnds A)  (h : Keeps A s t) : Keeps A s (State.sameEnds t) := by
  unfold State.sameEnds
  obtain ⟨_, _⟩ := hA
  repeat' (first
    | with_reducible assumption
    | intro y
    | (extract_lets +onlyGivenNames x; first | (refine cut (P := Keeps A s x) ?_ ?_; (on_goal 1 => (unfold x; clear x)); (on_goal 2 => (intro hx; first | clear_value x | skip))) | clear_value x | skip)
    | with_reducible apply keeps_ite
    | split
    | refine keeps_ite ?_ ?_
    | with_reducible exact keeps_lsw_saf (by assumption) (by assumption) (by assumption))

def touchMsTick (A : Part → Prop) : Prop := A .th
theorem touchMsTick_all (h : ∀ q, A q) : touchMsTick A := h _
theorem msTick_keeps  (hA : touchMsTick A)  (h : Keeps A s t) : Keeps A s (State.msTick t) := by
  unfold State.msTick
  unfold touchMsTick at hA
  repeat' (first
    | with_reducible assumption
    | intro y
    | (extract_lets +onlyGivenNames x; first | (refine cut (P := Keeps A s x) ?_ ?_; (on_goal 1 => (unfold x; clear x)); (on_goal 2 => (intro hx; first | clear_value x | skip))) | clear_value x | skip)
    | with_reducible apply keeps_ite
    | split
    | refine keeps_ite ?_ ?_
    | with_reducible exact keeps_th (by assumption) (by assumption))

def touchTick (A : Part → Prop) : Prop := touchMsTick A ∧ touchSameEnds A ∧ touchFabTick A ∧ touchKeepTick A ∧ touchTbTick A ∧ touchAuxTick A
theorem touchTick_all (h : ∀ q, A q) : touchTick A := ⟨touchMsTick_all h, touchSameEnds_all h, touchFabTick_all h, touchKeepTick_all h, touchTbTick_all h, touchAuxTick_all h⟩
theorem tick_keeps  (hA : touchTick A)  (h : Keeps A s t) : Keeps A s (State.tick t) := by
  unfold State.tick
  obtain ⟨_, _, _, _, _, _⟩ := hA
  repeat' (first
    | with_reducible assumption
    | intro y
    | (extract_lets +onlyGivenNames x; first | (refine cut (P := Keeps A s x) ?_ ?_; (on_goal 1 => (unfold x; clear x)); (on_goal 2 => (intro hx; first | clear_value x | skip))) | clear_value x | skip)
    | (with_reducible apply msTick_keeps (hA := by first | with_reducible assumption | with_reducible apply_assumption))
    | (with_reducible apply sameEnds_keeps (hA := by first | with_reducible assumption | with_reducible apply_assumption))
    | (with_reducible apply fabTick_keeps (hA := by first | with_reducible assumption | with_reducible apply_assumption))
    | (with_reducible apply keepTick_keeps (hA := by first | with_reducible assumption | with_reducible apply_assumption))
    | (with_reducible apply tbTick_keeps (hA := by first | with_reducible assumption | with_reducible apply_assumption))
    | (with_reducible apply auxTick_keeps (hA := by first | with_reducible assumption | with_reducible apply_assumption))
    | with_reducible apply each_keeps
    | with_reducible apply keeps_ite
    | split
    | refine keeps_ite ?_ ?_)

end Sys2Proof.Laws
end

