-- ==== Sys2Proof/Laws/KeepsUpdate.lean ====
section
/-! SUPPORT. What the operations of Machine/Update.lean leave alone: for each the parts it may change (`touch…`) and its lemma. -/

namespace Sys2Proof.Laws

open Sys2Proof.Machine

set_option linter.unusedTactic false
set_option linter.unreachableTactic false
set_option linter.unusedVariables false
set_option linter.tactic.unusedName false

variable {A : Part → Prop} {s t : State}

def touchFlGuard (A : Part → Prop) : Prop := touchReport A
theorem touchFlGuard_all (h : ∀ q, A q) : touchFlGuard A := touchReport_all h
theorem flGuard_keeps {sess : ℕ} {a : ℕ} {g : Sys2Proof.Machine.State → Sys2Proof.Machine.State} (hA : touchFlGuard A) (hg : ∀ y0, Keeps A s y0 → Keeps A s (g y0)) (h : Keeps A s t) : Keeps A s (State.flGuard t sess a g) := by
  unfold State.flGuard
  unfold touchFlGuard at hA
  repeat' (first
    | with_reducible assumption
    | intro y
    | (with_reducible apply report_keeps (hA := by first | with_reducible assumption | with_reducible apply_assumption))
    | with_reducible apply keeps_ite
    | with_reducible apply hg
    | split)

def touchExecFlashProgram (A : Part → Prop) : Prop := touchFlGuard A ∧ touchFlData A
theorem touchExecFlashProgram_all (h : ∀ q, A q) : touchExecFlashProgram A := ⟨touchFlGuard_all h, touchFlData_all h⟩
theorem execFlashProgram_next {sess : ℕ} {w : ℕ} (hA : touchExecFlashProgram A) : ∃ u, execFlashProgram sess w s = .next u ∧ Keeps A s u := by
  unfold execFlashProgram
  have h := Keeps.refl A s
  refine ⟨_, rfl, ?_⟩
  obtain ⟨_, _⟩ := hA
  repeat' (first
    | with_reducible assumption
    | intro y
    | (with_reducible apply flGuard_keeps (hA := by first | with_reducible assumption | with_reducible apply_assumption))
    | (with_reducible apply flData_keeps (hA := by first | with_reducible assumption | with_reducible apply_assumption))
    | with_reducible apply keeps_ite
    | split)

def touchExecFlashErase (A : Part → Prop) : Prop := touchFlGuard A ∧ touchFlErase A
theorem touchExecFlashErase_all (h : ∀ q, A q) : touchExecFlashErase A := ⟨touchFlGuard_all h, touchFlErase_all h⟩
theorem execFlashErase_next {sess : ℕ} (hA : touchExecFlashErase A) : ∃ u, execFlashErase sess s = .next u ∧ Keeps A s u := by
  unfold execFlashErase
  have h := Keeps.refl A s
  refine ⟨_, rfl, ?_⟩
  obtain ⟨_, _⟩ := hA
  repeat' (first
    | with_reducible assumption
    | intro y
    | (with_reducible apply flGuard_keeps (hA := by first | with_reducible assumption | with_reducible apply_assumption))
    | (with_reducible apply flErase_keeps (hA := by first | with_reducible assumption | with_reducible apply_assumption))
    | with_reducible apply keeps_ite
    | split)

def touchExecFlashDone (A : Part → Prop) : Prop := touchFlDone A
theorem touchExecFlashDone_all (h : ∀ q, A q) : touchExecFlashDone A := touchFlDone_all h
theorem execFlashDone_next {ok : Bool} (hA : touchExecFlashDone A) : ∃ u, execFlashDone ok s = .next u ∧ Keeps A s u := by
  unfold execFlashDone
  have h := Keeps.refl A s
  refine ⟨_, rfl, ?_⟩
  unfold touchExecFlashDone at hA
  repeat' (first
    | with_reducible assumption
    | intro y
    | (with_reducible apply flDone_keeps (hA := by first | with_reducible assumption | with_reducible apply_assumption))
    | with_reducible apply keeps_ite
    | split)

def touchExecFirmwareSwitch (A : Part → Prop) : Prop := touchGuarded A ∧ touchFwSwitch A
theorem touchExecFirmwareSwitch_all (h : ∀ q, A q) : touchExecFirmwareSwitch A := ⟨touchGuarded_all h, touchFwSwitch_all h⟩
theorem execFirmwareSwitch_next {sess : ℕ} {u0 : ℕ} {verified : Bool} (hA : touchExecFirmwareSwitch A) : ∃ u, execFirmwareSwitch sess u0 verified s = .next u ∧ Keeps A s u := by
  unfold execFirmwareSwitch
  have h := Keeps.refl A s
  refine ⟨_, rfl, ?_⟩
  obtain ⟨_, _⟩ := hA
  repeat' (first
    | with_reducible assumption
    | intro y
    | (with_reducible apply guarded_keeps (hA := by first | with_reducible assumption | with_reducible apply_assumption))
    | (with_reducible apply fwSwitch_keeps (hA := by first | with_reducible assumption | with_reducible apply_assumption))
    | with_reducible apply keeps_ite
    | split)

def touchMetFwEnd (A : Part → Prop) : Prop := touchUpdEnd A ∧ A (.reg R.UPD_FW_CMD.STATUS)
theorem touchMetFwEnd_all (h : ∀ q, A q) : touchMetFwEnd A := ⟨touchUpdEnd_all h, h _⟩
theorem metFwEnd_keeps {st : ℕ} (hA : touchMetFwEnd A)  (h : Keeps A s t) : Keeps A s (State.metFwEnd t st) := by
  unfold State.metFwEnd
  obtain ⟨_, _⟩ := hA
  repeat' (first
    | with_reducible assumption
    | intro y
    | (with_reducible apply updEnd_keeps (hA := by first | with_reducible assumption | with_reducible apply_assumption))
    | (with_reducible refine put_keepsAt (by assumption) ?_)
    | (with_reducible refine put_keeps (by assumption) ?_)
    | with_reducible apply keeps_ite
    | split)

def touchExecMetrologyFirmwareSwitch (A : Part → Prop) : Prop := touchMetFwEnd A ∧ touchMetFwTake A ∧ A .updN ∧ touchMinsecRaise A 1 ∧ touchSwitchNote A
theorem touchExecMetrologyFirmwareSwitch_all (h : ∀ q, A q) : touchExecMetrologyFirmwareSwitch A := ⟨touchMetFwEnd_all h, touchMetFwTake_all h, h _, touchMinsecRaise_all h, touchSwitchNote_all h⟩
theorem execMetrologyFirmwareSwitch_next {ms : ℕ} {waited : ℕ} {ready : Bool} (hA : touchExecMetrologyFirmwareSwitch A) : ∃ u, execMetrologyFirmwareSwitch ms waited ready s = .next u ∧ Keeps A s u := by
  unfold execMetrologyFirmwareSwitch
  have h := Keeps.refl A s
  refine ⟨_, rfl, ?_⟩
  obtain ⟨_, _, _, _, _⟩ := hA
  repeat' (first
    | with_reducible assumption
    | intro y
    | (extract_lets +onlyGivenNames x; first | (refine cut (P := Keeps A s x) ?_ ?_; (on_goal 1 => (unfold x; clear x)); (on_goal 2 => (intro hx; first | clear_value x | skip))) | clear_value x | skip)
    | (with_reducible apply metFwEnd_keeps (hA := by first | with_reducible assumption | with_reducible apply_assumption))
    | (with_reducible apply metFwTake_keeps (hA := by first | with_reducible assumption | with_reducible apply_assumption))
    | (with_reducible apply minsecRaise_keeps (hA := by first | with_reducible assumption | with_reducible apply_assumption))
    | (with_reducible apply switchNote_keeps (hA := by first | with_reducible assumption | with_reducible apply_assumption))
    | with_reducible apply keeps_ite
    | split
    | refine keeps_ite ?_ ?_
    | with_reducible exact keeps_updN (by assumption) (by assumption))

def touchFwBack (A : Part → Prop) : Prop := touchMetFwTake A ∧ touchLog A ∧ touchWarmReset A ∧ touchFwName A
theorem touchFwBack_all (h : ∀ q, A q) : touchFwBack A := ⟨touchMetFwTake_all h, touchLog_all h, touchWarmReset_all h, touchFwName_all h⟩
theorem fwBack_keeps {u0 : ℕ} {old : ℕ} {o : Sys2Proof.BootObs} (hA : touchFwBack A)  (h : Keeps A s t) : Keeps A s (State.fwBack t u0 old o) := by
  unfold State.fwBack
  obtain ⟨_, _, _, _⟩ := hA
  repeat' (first
    | with_reducible assumption
    | intro y
    | (extract_lets +onlyGivenNames x; first | (refine cut (P := Keeps A s x) ?_ ?_; (on_goal 1 => (unfold x; clear x)); (on_goal 2 => (intro hx; first | clear_value x | skip))) | clear_value x | skip)
    | (with_reducible apply metFwTake_keeps (hA := by first | with_reducible assumption | with_reducible apply_assumption))
    | (with_reducible apply log_keeps (hA := by first | with_reducible assumption | with_reducible apply_assumption))
    | (with_reducible apply warmReset_keeps (hA := by first | with_reducible assumption | with_reducible apply_assumption))
    | (with_reducible apply fwName_keeps (hA := by first | with_reducible assumption | with_reducible apply_assumption))
    | with_reducible apply keeps_ite
    | split
    | refine keeps_ite ?_ ?_)

def touchExecFirmwareRevert (A : Part → Prop) : Prop := touchSwitchDrop A ∧ touchLog A ∧ A (.reg R.UPD_FW_CMD.STATUS) ∧ touchFwBack A
theorem touchExecFirmwareRevert_all (h : ∀ q, A q) : touchExecFirmwareRevert A := ⟨touchSwitchDrop_all h, touchLog_all h, h _, touchFwBack_all h⟩
theorem execFirmwareRevert_next {u0 : ℕ} {ms : ℕ} {o : Sys2Proof.BootObs} (hA : touchExecFirmwareRevert A) : ∃ u, execFirmwareRevert u0 ms o s = .next u ∧ Keeps A s u := by
  unfold execFirmwareRevert
  have h := Keeps.refl A s
  refine ⟨_, rfl, ?_⟩
  obtain ⟨_, _, _, _⟩ := hA
  repeat' (first
    | with_reducible assumption
    | intro y
    | (extract_lets +onlyGivenNames x; first | (refine cut (P := Keeps A s x) ?_ ?_; (on_goal 1 => (unfold x; clear x)); (on_goal 2 => (intro hx; first | clear_value x | skip))) | clear_value x | skip)
    | (with_reducible refine put_keepsAt (by assumption) ?_)
    | (with_reducible refine put_keeps (by assumption) ?_)
    | (with_reducible apply switchDrop_keeps (hA := by first | with_reducible assumption | with_reducible apply_assumption))
    | (with_reducible apply log_keeps (hA := by first | with_reducible assumption | with_reducible apply_assumption))
    | (with_reducible apply fwBack_keeps (hA := by first | with_reducible assumption | with_reducible apply_assumption))
    | with_reducible apply keeps_ite
    | split
    | refine keeps_ite ?_ ?_)

def touchExecSectionReload (A : Part → Prop) : Prop := touchGuarded A ∧ touchSectReload A
theorem touchExecSectionReload_all (h : ∀ q, A q) : touchExecSectionReload A := ⟨touchGuarded_all h, touchSectReload_all h⟩
theorem execSectionReload_next {sess : ℕ} {sect : ℕ} {bank : ℕ} {atStamp : Bool} {verified : Bool} (hA : touchExecSectionReload A) : ∃ u, execSectionReload sess sect bank atStamp verified s = .next u ∧ Keeps A s u := by
  unfold execSectionReload
  have h := Keeps.refl A s
  refine ⟨_, rfl, ?_⟩
  obtain ⟨_, _⟩ := hA
  repeat' (first
    | with_reducible assumption
    | intro y
    | (with_reducible apply guarded_keeps (hA := by first | with_reducible assumption | with_reducible apply_assumption))
    | (with_reducible apply sectReload_keeps (hA := by first | with_reducible assumption | with_reducible apply_assumption))
    | with_reducible apply keeps_ite
    | split)

def touchEntryWrite (A : Part → Prop) : Prop := touchAfterWrite A ∧ touchEntryRaw A ∧ touchAccessWrite A
theorem touchEntryWrite_all (h : ∀ q, A q) : touchEntryWrite A := ⟨touchAfterWrite_all h, touchEntryRaw_all h, touchAccessWrite_all h⟩
theorem entryWrite_keeps {x : Sys2Proof.Machine.Entry} (hA : touchEntryWrite A)  (h : Keeps A s t) : Keeps A s (State.entryWrite t x).2 := by
  unfold State.entryWrite
  obtain ⟨_, _, _⟩ := hA
  repeat' (first
    | with_reducible assumption
    | intro y
    | (extract_lets +onlyGivenNames x; first | (refine cut (P := Keeps A s x) ?_ ?_; (on_goal 1 => (unfold x; clear x)); (on_goal 2 => (intro hx; first | clear_value x | skip))) | (refine cut (P := Keeps A s x.2) ?_ ?_; (on_goal 1 => (unfold x; clear x)); (on_goal 2 => (intro hx; first | clear_value x | skip))) | (refine cut (P := Keeps A s x.2.2) ?_ ?_; (on_goal 1 => (unfold x; clear x)); (on_goal 2 => (intro hx; first | clear_value x | skip))) | clear_value x | skip)
    | (with_reducible apply afterWrite_keeps (hA := by first | with_reducible assumption | with_reducible apply_assumption))
    | (with_reducible apply entryRaw_keeps (hA := by first | with_reducible assumption | with_reducible apply_assumption))
    | (with_reducible apply accessWrite_keeps (hA := by first | with_reducible assumption | with_reducible apply_assumption))
    | with_reducible apply keeps_ite
    | with_reducible apply keeps_ite2
    | with_reducible apply keeps_ite3
    | split
    | refine keeps_ite ?_ ?_)

def touchEntryApply (A : Part → Prop) : Prop := touchEntryWrite A ∧ A (.reg R.UPD_SECT_RES.REFUSED) ∧ A (.reg R.UPD_SECT_REF.FIRST_REF) ∧ A (.reg R.UPD_SECT_RES.APPLIED)
theorem touchEntryApply_all (h : ∀ q, A q) : touchEntryApply A := ⟨touchEntryWrite_all h, h _, h _, h _⟩
theorem entryApply_keeps {x0 : Sys2Proof.Machine.Entry} (hA : touchEntryApply A)  (h : Keeps A s t) : Keeps A s (State.entryApply t x0) := by
  unfold State.entryApply
  obtain ⟨_, _, _, _⟩ := hA
  repeat' (first
    | with_reducible assumption
    | intro y
    | (extract_lets +onlyGivenNames x; first | (refine cut (P := Keeps A s x) ?_ ?_; (on_goal 1 => (unfold x; clear x)); (on_goal 2 => (intro hx; first | clear_value x | skip))) | (refine cut (P := Keeps A s x.2) ?_ ?_; (on_goal 1 => (unfold x; clear x)); (on_goal 2 => (intro hx; first | clear_value x | skip))) | (refine cut (P := Keeps A s x.2.2) ?_ ?_; (on_goal 1 => (unfold x; clear x)); (on_goal 2 => (intro hx; first | clear_value x | skip))) | clear_value x | skip)
    | (with_reducible apply entryWrite_keeps (hA := by first | with_reducible assumption | with_reducible apply_assumption))
    | (with_reducible refine put_keepsAt (by assumption) ?_)
    | (with_reducible refine put_keeps (by assumption) ?_)
    | (with_reducible refine inc_keepsAt (by assumption) ?_)
    | (with_reducible refine inc_keeps (by assumption) ?_)
    | with_reducible apply keeps_ite
    | with_reducible apply keeps_ite2
    | with_reducible apply keeps_ite3
    | split
    | refine keeps_ite ?_ ?_)

def touchRoleReload (A : Part → Prop) : Prop := A .updN ∧ A (.reg R.SYS_ROLE.ROLE_CFG) ∧ A (.reg R.UPD_SECT_RES.APPLIED)
theorem touchRoleReload_all (h : ∀ q, A q) : touchRoleReload A := ⟨h _, h _, h _⟩
theorem roleReload_keeps {l : List Sys2Proof.Machine.Entry} (hA : touchRoleReload A)  (h : Keeps A s t) : Keeps A s (State.roleReload t l) := by
  unfold State.roleReload
  obtain ⟨_, _, _⟩ := hA
  repeat' (first
    | with_reducible assumption
    | intro y
    | (extract_lets +onlyGivenNames x; first | (refine cut (P := Keeps A s x) ?_ ?_; (on_goal 1 => (unfold x; clear x)); (on_goal 2 => (intro hx; first | clear_value x | skip))) | clear_value x | skip)
    | (with_reducible refine put_keepsAt (by assumption) ?_)
    | (with_reducible refine put_keeps (by assumption) ?_)
    | with_reducible apply keeps_ite
    | with_reducible apply keeps_foldl
    | split
    | refine keeps_ite ?_ ?_
    | with_reducible exact keeps_updN (by assumption) (by assumption))

def touchSiteReload (A : Part → Prop) : Prop := A (.reg R.UPD_SECT_RES.APPLIED) ∧ touchSiteDigest A ∧ touchImageRoster A ∧ touchEntryApply A
theorem touchSiteReload_all (h : ∀ q, A q) : touchSiteReload A := ⟨h _, touchSiteDigest_all h, touchImageRoster_all h, touchEntryApply_all h⟩
theorem siteReload_keeps {dig : ℕ} {l : List Sys2Proof.Machine.Entry} (hA : touchSiteReload A)  (h : Keeps A s t) : Keeps A s (State.siteReload t dig l) := by
  unfold State.siteReload
  obtain ⟨_, _, _, _⟩ := hA
  repeat' (first
    | with_reducible assumption
    | intro y
    | (extract_lets +onlyGivenNames x; first | (refine cut (P := Keeps A s x) ?_ ?_; (on_goal 1 => (unfold x; clear x)); (on_goal 2 => (intro hx; first | clear_value x | skip))) | clear_value x | skip)
    | (with_reducible refine inc_keepsAt (by assumption) ?_)
    | (with_reducible refine inc_keeps (by assumption) ?_)
    | (with_reducible apply siteDigest_keeps (hA := by first | with_reducible assumption | with_reducible apply_assumption))
    | (with_reducible apply imageRoster_keeps (hA := by first | with_reducible assumption | with_reducible apply_assumption))
    | (with_reducible apply entryApply_keeps (hA := by first | with_reducible assumption | with_reducible apply_assumption))
    | with_reducible apply keeps_ite
    | with_reducible apply keeps_foldl
    | split
    | refine keeps_ite ?_ ?_)

def touchSectApply (A : Part → Prop) : Prop := A .upd ∧ touchRoleReload A ∧ touchSiteReload A ∧ touchEntryApply A ∧ touchLog A ∧ touchUpdEnd A ∧ A (.reg R.UPD_STAT.MIXED) ∧ A (.reg R.UPD_SECT_CMD.STATUS)
theorem touchSectApply_all (h : ∀ q, A q) : touchSectApply A := ⟨h _, touchRoleReload_all h, touchSiteReload_all h, touchEntryApply_all h, touchLog_all h, touchUpdEnd_all h, h _, h _⟩
theorem sectApply_keeps {r : Sys2Proof.Machine.Reload} (hA : touchSectApply A)  (h : Keeps A s t) : Keeps A s (State.sectApply t r) := by
  unfold State.sectApply
  obtain ⟨_, _, _, _, _, _, _, _⟩ := hA
  repeat' (first
    | with_reducible assumption
    | intro y
    | (extract_lets +onlyGivenNames x; first | (refine cut (P := Keeps A s x) ?_ ?_; (on_goal 1 => (unfold x; clear x)); (on_goal 2 => (intro hx; first | clear_value x | skip))) | clear_value x | skip)
    | (with_reducible refine put_keepsAt (by assumption) ?_)
    | (with_reducible refine put_keeps (by assumption) ?_)
    | (with_reducible apply roleReload_keeps (hA := by first | with_reducible assumption | with_reducible apply_assumption))
    | (with_reducible apply siteReload_keeps (hA := by first | with_reducible assumption | with_reducible apply_assumption))
    | (with_reducible apply entryApply_keeps (hA := by first | with_reducible assumption | with_reducible apply_assumption))
    | (with_reducible apply log_keeps (hA := by first | with_reducible assumption | with_reducible apply_assumption))
    | (with_reducible apply updEnd_keeps (hA := by first | with_reducible assumption | with_reducible apply_assumption))
    | with_reducible apply keeps_ite
    | with_reducible apply keeps_foldl
    | split
    | refine keeps_ite ?_ ?_
    | with_reducible exact keeps_upd (by assumption) (by assumption))

def touchPinApply (A : Part → Prop) : Prop := A .boot ∧ touchLog A ∧ A .regs
theorem touchPinApply_all (h : ∀ q, A q) : touchPinApply A := ⟨h _, touchLog_all h, h _⟩
theorem pinApply_keeps  (hA : touchPinApply A)  (h : Keeps A s t) : Keeps A s (State.pinApply t) := by
  unfold State.pinApply
  obtain ⟨_, _, _⟩ := hA
  repeat' (first
    | with_reducible assumption
    | intro y
    | (extract_lets +onlyGivenNames x; first | (refine cut (P := Keeps A s x) ?_ ?_; (on_goal 1 => (unfold x; clear x)); (on_goal 2 => (intro hx; first | clear_value x | skip))) | (refine cut (P := ∀ y0 y1, Keeps A s y1 → Keeps A s (x y0 y1)) ?_ ?_; (on_goal 1 => (unfold x; clear x)); (on_goal 2 => (intro hf; first | clear_value x | skip))) | clear_value x | skip)
    | (with_reducible refine put_keepsAny (by assumption) ?_)
    | (with_reducible refine keeps_setWord (by assumption) ?_)
    | (with_reducible apply log_keeps (hA := by first | with_reducible assumption | with_reducible apply_assumption))
    | with_reducible apply keeps_ite
    | with_reducible apply keeps_foldl
    | with_reducible apply hf
    | with_reducible apply_assumption
    | split
    | refine keeps_ite ?_ ?_
    | with_reducible exact keeps_boot (by assumption) (by assumption))

def touchExecSectionApply (A : Part → Prop) : Prop := touchPinApply A ∧ touchSectApply A
theorem touchExecSectionApply_all (h : ∀ q, A q) : touchExecSectionApply A := ⟨touchPinApply_all h, touchSectApply_all h⟩
theorem execSectionApply_next  (hA : touchExecSectionApply A) : ∃ u, execSectionApply s = .next u ∧ Keeps A s u := by
  unfold execSectionApply
  have h := Keeps.refl A s
  refine ⟨_, rfl, ?_⟩
  obtain ⟨_, _⟩ := hA
  repeat' (first
    | with_reducible assumption
    | intro y
    | (extract_lets +onlyGivenNames x; first | (refine cut (P := Keeps A s x) ?_ ?_; (on_goal 1 => (unfold x; clear x)); (on_goal 2 => (intro hx; first | clear_value x | skip))) | clear_value x | skip)
    | (with_reducible apply pinApply_keeps (hA := by first | with_reducible assumption | with_reducible apply_assumption))
    | (with_reducible apply sectApply_keeps (hA := by first | with_reducible assumption | with_reducible apply_assumption))
    | with_reducible apply keeps_ite
    | split
    | refine keeps_ite ?_ ?_)

def touchExecPackageSubmit (A : Part → Prop) : Prop := touchGuarded A ∧ touchPkgSubmit A
theorem touchExecPackageSubmit_all (h : ∀ q, A q) : touchExecPackageSubmit A := ⟨touchGuarded_all h, touchPkgSubmit_all h⟩
theorem execPackageSubmit_next {sess : ℕ} {alg : ℕ} {verified : Bool} {fwVerified : Bool} (hA : touchExecPackageSubmit A) : ∃ u, execPackageSubmit sess alg verified fwVerified s = .next u ∧ Keeps A s u := by
  unfold execPackageSubmit
  have h := Keeps.refl A s
  refine ⟨_, rfl, ?_⟩
  obtain ⟨_, _⟩ := hA
  repeat' (first
    | with_reducible assumption
    | intro y
    | (with_reducible apply guarded_keeps (hA := by first | with_reducible assumption | with_reducible apply_assumption))
    | (with_reducible apply pkgSubmit_keeps (hA := by first | with_reducible assumption | with_reducible apply_assumption))
    | with_reducible apply keeps_ite
    | split)

def touchExecPackageApply (A : Part → Prop) : Prop := touchSealedTick A ∧ touchPkgApply A
theorem touchExecPackageApply_all (h : ∀ q, A q) : touchExecPackageApply A := ⟨touchSealedTick_all h, touchPkgApply_all h⟩
theorem execPackageApply_next  (hA : touchExecPackageApply A) : ∃ u, execPackageApply s = .next u ∧ Keeps A s u := by
  unfold execPackageApply
  have h := Keeps.refl A s
  refine ⟨_, rfl, ?_⟩
  obtain ⟨_, _⟩ := hA
  repeat' (first
    | with_reducible assumption
    | intro y
    | (with_reducible apply sealedTick_keeps (hA := by first | with_reducible assumption | with_reducible apply_assumption))
    | (with_reducible apply pkgApply_keeps (hA := by first | with_reducible assumption | with_reducible apply_assumption))
    | with_reducible apply keeps_ite
    | split)

def touchExecRecalibration (A : Part → Prop) : Prop := touchGuarded A ∧ touchRecalibrate A
theorem touchExecRecalibration_all (h : ∀ q, A q) : touchExecRecalibration A := ⟨touchGuarded_all h, touchRecalibrate_all h⟩
theorem execRecalibration_next {sess : ℕ} {req : ℕ} (hA : touchExecRecalibration A) : ∃ u, execRecalibration sess req s = .next u ∧ Keeps A s u := by
  unfold execRecalibration
  have h := Keeps.refl A s
  refine ⟨_, rfl, ?_⟩
  obtain ⟨_, _⟩ := hA
  repeat' (first
    | with_reducible assumption
    | intro y
    | (with_reducible apply guarded_keeps (hA := by first | with_reducible assumption | with_reducible apply_assumption))
    | (with_reducible apply recalibrate_keeps (hA := by first | with_reducible assumption | with_reducible apply_assumption))
    | with_reducible apply keeps_ite
    | split)

def touchExecRecalibrationDone (A : Part → Prop) : Prop := touchRecalDone A
theorem touchExecRecalibrationDone_all (h : ∀ q, A q) : touchExecRecalibrationDone A := touchRecalDone_all h
theorem execRecalibrationDone_next {fails : ℕ} (hA : touchExecRecalibrationDone A) : ∃ u, execRecalibrationDone fails s = .next u ∧ Keeps A s u := by
  unfold execRecalibrationDone
  have h := Keeps.refl A s
  refine ⟨_, rfl, ?_⟩
  unfold touchExecRecalibrationDone at hA
  repeat' (first
    | with_reducible assumption
    | intro y
    | (with_reducible apply recalDone_keeps (hA := by first | with_reducible assumption | with_reducible apply_assumption))
    | with_reducible apply keeps_ite
    | split)

end Sys2Proof.Laws
end

