-- ==== Sys2Proof/WellFormed.lean ====
section
/-! DEFINITION. Which commands are well formed: each operand that numbers a part of the module, or that is written to a register, lies in
the range that the manual gives it. A meaning is total all the same: it leaves the state unchanged where a number names nothing. -/

namespace Sys2Proof

/-- The operand is a session of the table `SYS_SESS`, 0 to 7. -/
def okSession (v : Nat) : Bool := decide (v < 8)

/-- The operand is an aux channel, 0 to 5. -/
def okAux (v : Nat) : Bool := decide (v < 6)

/-- The operand is a power domain, 0 to 11. -/
def okDomain (v : Nat) : Bool := decide (v < 12)

/-- The operand is a phase group, 0 to 7. -/
def okGroup (v : Nat) : Bool := decide (v < 8)

/-- The operand is a phase, 0 to 95. -/
def okPhase (v : Nat) : Bool := decide (v < 96)

/-- The operand is a loop, 0 to 63. -/
def okLoop (v : Nat) : Bool := decide (v < 64)

/-- The operand is an injector, 0 or 1. -/
def okInjector (v : Nat) : Bool := decide (v < 2)

/-- The operand is a fabric lane, 0 to 7. -/
def okLane (v : Nat) : Bool := decide (v < 8)

/-- The operand is a node ID of 12 bits (R5). -/
def okNode (v : Nat) : Bool := decide (v < 4096)

/-- The operand is a station index of the powerline, 0 to 62. -/
def okStation (v : Nat) : Bool := decide (v < 63)

/-- The operand is a measurement point, 0 to 7. -/
def okPoint (v : Nat) : Bool := decide (v < 8)

/-- The operand is a metrology channel, 0 to 15. -/
def okChannel (v : Nat) : Bool := decide (v < 16)

/-- The operand is a connector, 0 or 1. -/
def okConn (v : Nat) : Bool := decide (v < 2)

/-- The operand is a temperature sensor, 0 to 47. -/
def okSensor (v : Nat) : Bool := decide (v < 48)

/-- The operand is a thermal zone, 0 to 7. -/
def okZone (v : Nat) : Bool := decide (v < 8)

/-- The operand is a load-switch channel, 0 to 15. -/
def okSwitch (v : Nat) : Bool := decide (v < 16)

/-- The operand is a CAN port, 0 or 1. -/
def okPort (v : Nat) : Bool := decide (v < 2)

/-- The operand is a message buffer, 0 to 63. -/
def okBuffer (v : Nat) : Bool := decide (v < 64)

/-- The operand is a slot of the Key Vault, 0 to 63. -/
def okSlot (v : Nat) : Bool := decide (v < 64)

/-- The operand is a firmware unit, 0 to 6. -/
def okUnit (v : Nat) : Bool := decide (v < 7)

/-- The operand is a test output, 0 to 5. -/
def okOutput (v : Nat) : Bool := decide (v < 6)

/-- The operand is a byte. -/
def okByte (v : Nat) : Bool := decide (v < 256)

/-- The operand is a value of 16 bits. -/
def okHalf (v : Nat) : Bool := decide (v < 65536)

/-- The operand is a value of 32 bits (R6). -/
def okWord (v : Nat) : Bool := decide (v < 2 ^ 32)

/-- A command is well formed. -/
def Instr.wf (i : Instr) : Bool :=
  match i with
  | .registerWrite sess a val _ => okSession sess && okWord a && okWord val
  | .apply sess => okSession sess
  | .applyComplete _ => true
  | .porReset _ _ _ _ => true
  | .pinReset _ _ _ => true
  | .softReset sess _ => okSession sess
  | .domainReset sess _ => okSession sess
  | .domainResetComplete _ => true
  | .readyRelease _ => true
  | .readyDeadline _ => true
  | .vsupLowBandEntry _ _ => true
  | .vsupLowBandExit _ _ => true
  | .vsupHighBandEntry _ _ => true
  | .vsupHighBandExit _ _ => true
  | .vsupOverVoltage _ _ => true
  | .vsupOverVoltageExit _ _ => true
  | .supplyFail _ _ _ _ => true
  | .railOutOfLimits d _ _ => okDomain d
  | .holdupStoreTest _ => true
  | .holdupTestRequest sess => okSession sess
  | .holdupTestDone _ _ => true
  | .vbatLow _ => true
  | .quietRequest sess => okSession sess
  | .runRequest sess => okSession sess
  | .dormantRequest sess => okSession sess
  | .wake _ _ => true
  | .auxEnable sess a => okSession sess && okAux a
  | .auxStop sess a => okSession sess && okAux a
  | .auxSetpointChange _ _ _ => true
  | .auxPgood a _ _ => okAux a
  | .auxPgoodLoss a _ => okAux a
  | .auxFeedbackFault a _ => okAux a
  | .auxBurstSleep a _ => okAux a
  | .auxBurstWake a _ => okAux a
  | .auxSyncLock a _ _ => okAux a
  | .auxSyncLost a _ => okAux a
  | .auxTruncation a _ => okAux a
  | .auxBraking a _ _ => okAux a
  | .auxBrakeRelease a _ => okAux a
  | .auxThermalWarning a => okAux a
  | .auxThermalShutdown a => okAux a
  | .auxThermalRestart a => okAux a
  | .snsSelectChange _ _ _ _ _ => true
  | .tbAcquireLock _ _ _ _ => true
  | .tbAcquireTimeout _ => true
  | .tbSourceLost _ _ _ _ => true
  | .gridPhaseJump _ => true
  | .lineFault _ => true
  | .lineFaultClear _ => true
  | .tbSlewEntry _ _ => true
  | .tbSlewLocked _ _ _ => true
  | .tbSourceTaken _ _ _ _ => true
  | .cycleRenumber => true
  | .refclkLost => true
  | .dllUnlock _ _ => true
  | .dllRelock _ => true
  | .keeperCommit => true
  | .ncarChange g => okGroup g
  | .offsetCommit sess => okSession sess
  | .offsetCommitTaken g => okGroup g
  | .anglePulseOut => true
  | .anglePulseCapture _ => true
  | .groupCarrierBoundary g _ => okGroup g
  | .carrierStart n _ => okPhase n
  | .halfCycleBoundary => true
  | .leaseLapse g => okGroup g
  | .overshootTruncate g _ _ => okGroup g
  | .overshootBrake g _ => okGroup g
  | .truncateTimeout g _ => okGroup g
  | .truncateRelease g _ => okGroup g
  | .brakeRelease g _ => okGroup g
  | .brakingTimeout g _ => okGroup g
  | .phaseCheckFail n => okPhase n
  | .driverFault n _ => okPhase n
  | .phaseImbalance n _ => okPhase n
  | .phaseEnable sess n _ => okSession sess && okPhase n
  | .phaseDisable sess n => okSession sess && okPhase n
  | .phaseJoin n => okPhase n
  | .groupEnable sess g => okSession sess && okGroup g
  | .groupStart g => okGroup g
  | .groupDisable sess g => okSession sess && okGroup g
  | .rampdownComplete g => okGroup g
  | .demandWatchdog g => okGroup g
  | .respaceCommit g => okGroup g
  | .sampleStrobe _ _ => true
  | .loopHoldExit l => okLoop l
  | .srateChange sess _ => okSession sess
  | .loopEnable sess l => okSession sess && okLoop l
  | .loopDisable sess l => okSession sess && okLoop l
  | .loopModeChange sess l _ => okSession sess && okLoop l
  | .gtCommit sess l => okSession sess && okLoop l
  | .ffSwap sess _ => okSession sess
  | .setTarget => true
  | .scaleTarget => true
  | .setRate => true
  | .setParameter => true
  | .setMode => true
  | .startInjector => true
  | .injectorEnable sess j => okSession sess && okInjector j
  | .injectorStampStart j => okInjector j
  | .injectorEnd j => okInjector j
  | .injectorDisable sess j => okSession sess && okInjector j
  | .captureArm sess => okSession sess
  | .captureTrigger => true
  | .captureDone => true
  | .laneTrain n _ => okLane n
  | .laneTrainTimeout n _ => okLane n
  | .laneRetry n _ _ => okLane n
  | .laneHold n node _ _ _ => okLane n && okNode node
  | .laneActive n _ _ => okLane n
  | .laneDown n _ _ => okLane n
  | .frameForward _ _ _ _ _ _ => true
  | .stallDiscard _ => true
  | .wakeTx sess _ => okSession sess
  | .announceSend _ => true
  | .announceReceive _ _ _ _ => true
  | .becomeRoot _ _ => true
  | .nodeIdGrant _ _ _ _ _ => true
  | .joinRetry _ => true
  | .joinGrant id _ _ => okNode id
  | .rootLost _ => true
  | .fabricAlone _ _ => true
  | .idReservationExpiry id _ => okNode id
  | .topologyReport node _ => okNode node
  | .tableLoad _ _ _ => true
  | .epochChange _ => true
  | .epochDrain => true
  | .epochSwap => true
  | .delayExchange n _ _ _ _ => okLane n
  | .timeFrameSend _ => true
  | .timeFrameReceive n _ => okLane n
  | .launchedActionArrival _ _ _ _ _ _ _ _ => true
  | .setGroupOffset => true
  | .setPhaseOffsets => true
  | .fabricResetCommand _ _ _ _ _ => true
  | .ledgerReport _ => true
  | .ledgerReportReceive _ node _ _ _ _ _ _ _ _ _ _ => okNode node
  | .grantAccept _ _ _ _ _ _ _ _ => true
  | .allocationRound _ => true
  | .recordReclaim node _ => okNode node
  | .recordAckDrop node _ => okNode node
  | .quorumLost _ => true
  | .quorumGained _ => true
  | .tGenExpiry _ => true
  | .pledgeExpiry => true
  | .pledgeNotMet _ => true
  | .setLimDyn => true
  | .cut => true
  | .limDynWrite sess _ => okSession sess
  | .drawOverLimit _ _ => true
  | .beaconSend => true
  | .beaconReceive _ _ node _ _ _ _ _ _ _ _ _ _ => okNode node
  | .beaconMissed => true
  | .coordinatorTakeover => true
  | .successorHandover => true
  | .plcFrameSend stn _ => okStation stn || stn == 0x3F
  | .plcFrameReceive stn _ _ _ _ _ _ _ => okStation stn
  | .plcAcknowledgement stn _ _ => okStation stn
  | .segmentDiscard stn => okStation stn
  | .associationRequest _ _ node => okNode node
  | .stationRemove stn => okStation stn
  | .sounding stn => okStation stn
  | .toneMapIssue stn _ _ _ _ => okStation stn
  | .toneMapRefresh stn _ => okStation stn
  | .linkDegraded stn => okStation stn
  | .ranging stn _ _ _ _ _ _ => okStation stn
  | .couplerAbsent _ => true
  | .couplerPresent => true
  | .metrologySample p _ _ => okPoint p
  | .channelStuck c _ => okChannel c
  | .channelOverRange c _ => okChannel c
  | .channelFaultClear c _ _ => okChannel c
  | .pointBlockPublish p => okPoint p
  | .packCurrentRequest _ => true
  | .cableTemperatureUpdate p => okPoint p
  | .cableTFallback p _ => okPoint p
  | .cableTReturn p _ => okPoint p
  | .pointEnable sess p => okSession sess && okPoint p
  | .snapshotTake sess _ => okSession sess
  | .snapshotRelease sess _ => okSession sess
  | .snapshotAction => true
  | .snapshotReleaseAction => true
  | .peakClear sess p => okSession sess && okPoint p
  | .overCurrent p _ _ => okPoint p
  | .overCurrentClear p _ => okPoint p
  | .pulseEmit _ => true
  | .pulseEnd _ _ => true
  | .metrologyCommit _ => true
  | .accumulationStart _ => true
  | .sealSet sess _ => okSession sess
  | .billingTick => true
  | .rebase sess => okSession sess
  | .calendarActivate sess => okSession sess
  | .periodCloseCommand sess => okSession sess
  | .periodCloseAction => true
  | .sessionOpen p conn _ _ _ => okPoint p && okConn conn
  | .sessionClose p _ _ => okPoint p
  | .sessionAck sess _ => okSession sess
  | .recordSign _ => true
  | .tamperLoopSample _ _ _ _ => true
  | .tamperQueueMove => true
  | .tamperAck sess => okSession sess
  | .displayFrame => true
  | .displayAnswer _ => true
  | .pageAdvance _ => true
  | .displayButtonShort => true
  | .displayButtonLong => true
  | .manualAdvanceResume _ => true
  | .interlockOpen c _ _ => okConn c
  | .proximityChange c _ _ => okConn c
  | .plugIn c _ => okConn c
  | .sdpRequest c _ => okConn c
  | .tlsSessionEstablished c => okConn c.conn
  | .plugTimeout c _ => okConn c
  | .supportedAppProtocol c => okConn c
  | .sessionSetup c _ => okConn c
  | .authorizationSetup c => okConn c
  | .authorization c _ _ _ => okConn c
  | .serviceDiscovery c => okConn c
  | .serviceDetail c => okConn c
  | .serviceSelection c _ _ => okConn c
  | .dcChargeParameterDiscovery c _ _ _ _ _ => okConn c
  | .scheduleExchange c => okConn c
  | .dcCableCheck c => okConn c
  | .dcPlusClose c _ => okConn c
  | .cableCheckStart c _ => okConn c
  | .cableCheckFinish c _ _ => okConn c
  | .dcPreCharge c _ => okConn c
  | .powerDeliveryStart c => okConn c
  | .powerDeliveryStop c => okConn c
  | .standby c => okConn c
  | .dcChargeLoop c _ _ _ _ _ _ _ => okConn c
  | .dcWeldingDetection c => okConn c
  | .sessionStop c => okConn c
  | .fastStop c _ => okConn c
  | .authWrite sess c _ => okSession sess && okConn c
  | .authTimeout c _ => okConn c
  | .preTimeout c _ => okConn c
  | .currentDecayed c _ => okConn c
  | .decayTimeout c _ => okConn c
  | .dcMinusOpen c _ => okConn c
  | .weldCheck c _ => okConn c
  | .weldCheckComplete c _ _ => okConn c
  | .unplug c _ => okConn c
  | .stopCommand sess c => okSession sess && okConn c
  | .faultClear sess c => okSession sess && okConn c
  | .launchedStop => true
  | .offerUpdate c => okConn c
  | .limitRampStep c => okConn c
  | .needFrame c => okConn c
  | .needFrameReceive g c _ _ _ _ _ _ => okGroup g && okConn c.conn
  | .allowanceFrame g => okGroup g
  | .allowanceFrameReceive c _ _ _ _ _ _ _ _ => okConn c
  | .needFrameLoss g => okGroup g
  | .feedLost c => okConn c
  | .imdUpdate c _ => okConn c
  | .imdTimeout c _ => okConn c
  | .contactorFault c _ => okConn c
  | .linkLost c _ _ => okConn c
  | .sensorSample n _ => okSensor n
  | .sensorFailed n _ => okSensor n
  | .sensorRecover n _ => okSensor n
  | .sensorSuspect n _ => okSensor n
  | .suspectRecover n _ => okSensor n
  | .snowlineExit n _ => okSensor n
  | .warnLimit _ _ => true
  | .zoneAsk z _ _ => okZone z
  | .zoneEnforce z _ => okZone z
  | .zoneShutdown z _ _ => okZone z
  | .zoneRelease z _ => okZone z
  | .shutdownRelease z _ => okZone z
  | .zoneClr sess z _ => okSession sess && okZone z
  | .zoneEnable sess z => okSession sess && okZone z
  | .cableModelUpdate _ => true
  | .modelSuspect _ => true
  | .internalSensorSample _ _ => true
  | .internalOverTemperature _ _ => true
  | .thermalRestart _ => true
  | .circuitRun _ => true
  | .circuitStop _ _ => true
  | .flowTimeout _ _ => true
  | .flowFault _ _ _ => true
  | .flowRecovered _ _ => true
  | .heaterOn _ => true
  | .heaterOff _ => true
  | .csWake => true
  | .discovery _ _ _ _ _ => true
  | .discoveryAttemptEnd _ _ _ => true
  | .sweepSync => true
  | .keepaliveSync _ => true
  | .recordReceive _ _ _ _ _ _ _ _ _ => true
  | .collectionEnd => true
  | .recollect => true
  | .recollectEnd => true
  | .healProbe _ => true
  | .orderSend sess _ => okSession sess
  | .sweepStart => true
  | .sweepStop => true
  | .cellQuery _ _ => true
  | .ringLost => true
  | .csDisable => true
  | .channelOn sess n => okSession sess && okSwitch n
  | .channelOff sess n => okSession sess && okSwitch n
  | .overCurrentTrip n _ _ _ => okSwitch n
  | .thermalShutdown n _ => okSwitch n
  | .automaticRestart n _ _ => okSwitch n
  | .restartWindow n _ => okSwitch n
  | .bankUndervoltage _ _ _ => true
  | .bankUndervoltageExit _ _ => true
  | .latchClear sess n _ => okSession sess && okSwitch n
  | .switchChannels => true
  | .openLoad n _ _ => okSwitch n
  | .canPortEnable p => okPort p
  | .canStart sess p => okSession sess && okPort p
  | .canInit sess p => okSession sess && okPort p
  | .canSync p _ => okPort p
  | .canFrameReceive p _ _ _ _ _ _ => okPort p
  | .bufferLock p b => okPort p && okBuffer b
  | .bufferReadComplete p b => okPort p && okBuffer b
  | .lockTimeout p _ => okPort p
  | .unlock sess p => okSession sess && okPort p
  | .transmitRequest sess p b => okSession sess && okPort p && okBuffer b
  | .transmitComplete p _ _ _ _ => okPort p
  | .transmitFail p _ _ _ _ => okPort p
  | .abort sess p b _ => okSession sess && okPort p && okBuffer b
  | .busOff p _ _ => okPort p
  | .busOffWait p _ => okPort p
  | .recover sess p => okSession sess && okPort p
  | .busOffRecovered p _ => okPort p
  | .errorPassive p _ _ => okPort p
  | .errorActive p _ _ => okPort p
  | .boRunClear p _ => okPort p
  | .stageWrite sess w => okSession sess && okWord w
  | .stageTimeout _ => true
  | .loadKey sess slot _ _ _ _ _ _ _ => okSession sess && okSlot slot
  | .loadCertificate sess slot _ _ _ => okSession sess && okSlot slot
  | .generate sess slot _ _ _ _ => okSession sess && okSlot slot
  | .erase sess slot => okSession sess && okSlot slot
  | .derive sess _ => okSession sess
  | .reservoirLow _ => true
  | .eventRecord => true
  | .logClear sess v => okSession sess && okWord v
  | .logReadLoad sess v _ => okSession sess && okWord v
  | .logReadNext sess _ => okSession sess
  | .logSearch sess _ _ => okSession sess
  | .logCrcCheck _ _ => true
  | .siteMark => true
  | .eStop _ _ => true
  | .soReq sess => okSession sess
  | .contactorOpen c _ _ _ => okConn c
  | .safeOffDcMinusOpen c _ _ => okConn c
  | .connectorHeld c _ _ => okConn c
  | .safeOffClear sess => okSession sess
  | .estopDiscrepancy _ => true
  | .watchdogKick _ _ _ => true
  | .watchdogExpiry _ _ => true
  | .lockstepError _ => true
  | .supplyFailContactorOpen c _ _ _ => okConn c
  | .supplyFailDcMinusOpen c _ => okConn c
  | .contactorNotOpened c _ => okConn c
  | .flashProgram sess w => okSession sess && okWord w
  | .flashErase sess => okSession sess
  | .flashDone _ => true
  | .firmwareSwitch sess u _ => okSession sess && okUnit u
  | .metrologyFirmwareSwitch _ _ _ => true
  | .firmwareRevert u _ _ => okUnit u
  | .sectionReload sess _ _ _ _ => okSession sess
  | .sectionApply => true
  | .packageSubmit sess _ _ _ => okSession sess
  | .packageApply => true
  | .recalibration sess _ => okSession sess
  | .recalibrationDone _ => true
  | .gatewayRelay _ port node _ _ => okHalf port && okNode node
  | .relayEntryExpiry _ _ => true
  | .handshake i _ _ _ _ _ => okSession i
  | .handshakeTimeout i _ => okSession i
  | .sessionIdleClose i _ => okSession i
  | .read sess id _ => okSession sess && okHalf id
  | .write sess id _ => okSession sess && okHalf id
  | .blockRead sess id _ a _ => okSession sess && okHalf id && okWord a
  | .blockWrite sess id _ a _ => okSession sess && okHalf id && okWord a
  | .subscribe sess id _ _ _ _ a _ => okSession sess && okHalf id && okWord a
  | .unsubscribe sess id _ => okSession sess && okHalf id
  | .notify sess _ _ => okSession sess
  | .events sess id _ _ => okSession sess && okHalf id
  | .records sess => okSession sess
  | .locate sess id _ => okSession sess && okHalf id
  | .launch sess id _ _ _ => okSession sess && okHalf id
  | .lresult _ _ => true
  | .reset sess id _ _ => okSession sess && okHalf id
  | .time sess id _ _ _ => okSession sess && okHalf id
  | .ping sess id => okSession sess && okHalf id
  | .close sess id _ => okSession sess && okHalf id
  | .ptpSync _ _ _ => true
  | .ptpLost _ => true
  | .ntpPoll _ => true
  | .ntpResponse _ _ _ _ _ => true
  | .ntpLost => true
  | .tmxSelect sess out code => okSession sess && okOutput out && okByte code
  | .rstNRelease _ => true
  | .estopRelease _ => true
  | .epochInstall _ => true
  | .scheduleRenegotiation c => okConn c
  | .vbatRestored _ => true
  | .reservoirRecharged _ => true

end Sys2Proof
end

