-- ==== Sys2Proof/Tests/Slice0.lean ====
section
/-! SUPPORT. Tests of the model, and witnesses that the hypotheses of its statements can be met. Expected results come from the manual's
tables or from calculation by hand. -/

-- One theorem after the other: the file takes less memory so.
set_option Elab.async false

namespace Sys2Proof.Tests

open Sys2Proof.Machine Sys2Proof.Machine.R

/-- A state with fields set: field, value, index. -/
def st (s : State) (l : List (Field × Nat × Nat)) : State := l.foldl (fun s p => s.put p.1 p.2.1 p.2.2) s

/-- A launched action that is due: endpoint, operation, body. -/
def anLa (ep op : Nat) (body : List Nat) : La := ⟨0, ep, op, 0, 7, 0, body, false⟩

/-- A record. -/
def aRec : Rec := ⟨0, 0, 0x1008, 1, 0, []⟩

/-- The state with the Moraine log full. -/
def fullMoraine (s : State) : State := { s with evr := { s.evr with mor := List.replicate 8192 ⟨0, aRec⟩ } }

/-- Cells from an address on. -/
def flashOf (a : Nat) (l : List Nat) : List Host.Cell := l.zipIdx.map fun p => (a + p.2, BitVec.ofNat 8 p.1)

/-- The header of a firmware bank of a unit with an empty body, with its SHA-384 as FIPS 180-4 gives it. -/
def fwFlash (base unit : Nat) : List Host.Cell :=
  flashOf base ([0x4D, 0x44, 0x4E, 0x46, unit, 0, 3, 0, 0, 0, 0, 0, 0, 0, 0, 0] ++ [56, 176, 96, 167, 81, 172, 150, 56, 76, 217, 50, 126, 177, 177, 227, 106, 33, 253, 183, 17, 20, 190, 7, 67,
    76, 12, 199, 191, 99, 246, 225, 218, 39, 78, 222, 191, 231, 111, 101, 251, 213, 26, 210, 241, 72, 152, 185, 91])

/-- The reset state with every domain on. -/
def baseOn : State := { State.reset with evr := { up := true } }.put PWR_DOM_STAT.ON 0xFFF

/-- With the role set of a DISPENSER, which has Metrology and Billing. -/
def baseMet : State := baseOn.put SYS_ROLE.ROLE_ACT 4

/-! ### Small tests -/

/-- The queue of the reset state is empty. -/
theorem test_reset_idle : State.reset.pending = [] := rfl

/-- The check value of the CRC-32 of R478 and R438 over "123456789", as published. -/
theorem test_crc32 : crc32 [0x31, 0x32, 0x33, 0x34, 0x35, 0x36, 0x37, 0x38, 0x39] = 0xCBF43926 := by decide +kernel

/-- The example of FIPS 197, appendix C.1. -/
theorem test_aes_fips197 : blockNat (aesBlock (List.range 16) (beBytes 16 0x00112233445566778899AABBCCDDEEFF)) =
    0x69C4E0D86A7B0430D8CDB78070B4C55A := by decide +kernel

/-- An AES-128-GCM test vector of the CAVP, with additional data and no plaintext. -/
theorem test_gcm_tag : blockNat (gcmTag (beBytes 16 0x77BE63708971C4E240D1CB79E8D77FEB) (beBytes 12 0xE0E00F19FED7BA0136A797F3)
    (beBytes 16 0x7A43EC1D9C0A5A78A0B16533A6213CAB)) = 0x209FCC8D3675ED938E9C7166709DD946 := by decide +kernel

/-- The SHA-256 of "abc", the example of FIPS 180-4. -/
theorem test_sha256_abc : sha256 [0x61, 0x62, 0x63] = 0xba7816bf8f01cfea414140de5dae2223b00361a396177a9cb410ff61f20015ad := by decide +kernel

/-- A little-endian word of four bytes. -/
theorem test_le_bytes : leBytes 4 0x12345678 = [0x78, 0x56, 0x34, 0x12] := by decide

/-- A header of R504: version 1, operation, ID and length little-endian, status, flags. -/
theorem test_msg_head : msgHead 0xF 0x1234 0 0 1 = [1, 0xF, 0x34, 0x12, 0, 0, 0, 1] := by decide

/-- A field of 24 bits takes −1 as all ones. -/
theorem test_of_signed : ofSigned 24 (-1) = 0xFFFFFF := by decide

/-- The signed value of 0x800000 in 24 bits. -/
theorem test_to_signed : toSigned 24 0x800000 = -0x800000 := by decide

/-- No row of the command table gives bits. -/
theorem test_no_word : decodeTableWord 32 0 = none := by decide

/-- A cell written with the erased value is not listed. -/
theorem test_memory_erased : Memory.write [(5, 1#8)] 5 0xFF#8 = [] := by decide

/-- Rising order is kept by a write between two cells. -/
theorem test_memory_order : Memory.write [(4, 1#8), (6, 2#8)] 5 3#8 = [(4, 1#8), (5, 3#8), (6, 2#8)] := by decide

/-! ### Ill-formed commands are refused -/

/-- A session above 7. -/
theorem test_wf_session : (Instr.apply 8).wf = false := by decide
/-- An aux channel above 5. -/
theorem test_wf_aux : (Instr.auxEnable 0 6).wf = false := by decide
/-- A domain above 11. -/
theorem test_wf_domain : ∀ o, (Instr.railOutOfLimits 12 0 o).wf = false := fun _ => rfl
/-- A group above 7. -/
theorem test_wf_group : (Instr.ncarChange 8).wf = false := by decide
/-- A phase above 95. -/
theorem test_wf_phase : ∀ o, (Instr.carrierStart 96 o).wf = false := fun _ => rfl
/-- A loop above 63. -/
theorem test_wf_loop : (Instr.loopHoldExit 64).wf = false := by decide
/-- An injector above 1. -/
theorem test_wf_injector : (Instr.injectorEnable 0 2).wf = false := by decide
/-- A lane above 7. -/
theorem test_wf_lane : (Instr.laneTrain 8 true).wf = false := by decide
/-- A node ID of more than 12 bits. -/
theorem test_wf_node : (Instr.gatewayRelay 0 0 4096 none []).wf = false := by decide
/-- A station above 62. -/
theorem test_wf_station : (Instr.plcFrameSend 64 0).wf = false := by decide
/-- A measurement point above 7. -/
theorem test_wf_point : (Instr.metrologySample 8 0 0).wf = false := by decide
/-- A metrology channel above 15. -/
theorem test_wf_channel : (Instr.channelStuck 16 0).wf = false := by decide
/-- A connector above 1. -/
theorem test_wf_conn : (Instr.sessionOpen 0 2 0 [] 0).wf = false := by decide
/-- A sensor above 47. -/
theorem test_wf_sensor : (Instr.sensorSample 48 0).wf = false := by decide
/-- A zone above 7. -/
theorem test_wf_zone : (Instr.zoneAsk 8 0 0).wf = false := by decide
/-- A load-switch channel above 15. -/
theorem test_wf_switch : (Instr.channelOn 0 16).wf = false := by decide
/-- A CAN port above 1. -/
theorem test_wf_port : (Instr.canPortEnable 2).wf = false := by decide
/-- A message buffer above 63. -/
theorem test_wf_buffer : (Instr.bufferLock 0 64).wf = false := by decide
/-- A slot above 63. -/
theorem test_wf_slot : (Instr.erase 0 64).wf = false := by decide
/-- A firmware unit above 6. -/
theorem test_wf_unit : (Instr.firmwareSwitch 0 7 true).wf = false := by decide
/-- A test output above 5. -/
theorem test_wf_output : (Instr.tmxSelect 0 6 0).wf = false := by decide
/-- A selection code of more than 8 bits. -/
theorem test_wf_byte : (Instr.tmxSelect 0 5 256).wf = false := by decide
/-- A port of more than 16 bits. -/
theorem test_wf_half : (Instr.gatewayRelay 0 65536 0 none []).wf = false := by decide
/-- An address of more than 32 bits. -/
theorem test_wf_word : (Instr.registerWrite 0 (2 ^ 32) 0 0).wf = false := by decide
/-- A command in range is taken. -/
theorem test_wf_good : (Instr.tmxSelect 7 5 255).wf = true := by decide

/-! ### Witnesses of the hypotheses -/

/-- The hypotheses of `EmptyQueueTick` can be met, clause by clause. -/
theorem witness_empty_queue_tick :
    ∃ s : State, s.pending = [] :=
  ⟨State.reset, rfl⟩

/-- The hypotheses of `QueueUntouched` can be met, clause by clause. -/
theorem witness_queue_untouched :
    ∃ (c : Instr) (l : List Instr) (s : State), s.pending = c :: l :=
  ⟨.siteMark, [], { State.reset with pending := [.siteMark] }, rfl⟩

/-- The hypotheses of `StepKeepsCanonical` can be met, clause by clause. -/
theorem witness_step_keeps_canonical :
    ∃ s t : State, Canonical s ∧ step s = .next t :=
  ⟨State.reset, _, ⟨rfl, rfl⟩, rfl⟩

/-- The hypotheses of `TimebaseResults` can be met, clause by clause. -/
theorem witness_timebase_results :
    (∃ (s : State) (src srcStamp f cycles : Nat), s.runs 4 ∧ s.get TB_STAT.STATE = 1 ∧ s.srcAllowed src ∧ (s.is TB_STAT.ROOT → src = 1 ∧ 3 ≤ cycles))
      ∧
    (∃ (s : State) (ms : Nat), s.runs 4 ∧ s.get TB_STAT.STATE = 1 ∧ 60 ≤ ms) ∧
    (∃ (s : State) (m : Nat), s.runs 4 ∧ (s.get TB_STAT.STATE = 2 ∨ s.get TB_STAT.STATE = 3) ∧ s.get TB_STAT.SRC = 3 ∧ clampN 2 32 (s.get
      TB_FOLLOW.SRC_TMO) ≤ m) ∧
    (∃ (s : State) (jump : Int), s.runs 4 ∧ (s.get TB_STAT.STATE = 2 ∨ s.get TB_STAT.STATE = 3) ∧ s.get TB_STAT.SRC = 1 ∧ s.get TB_GRID_CFG.JUMP_MAX
      * 0x10000 < jump.natAbs) ∧
    (∃ (s : State) (jump : Int), s.runs 4 ∧ s.get TB_STAT.SRC ≠ 1 ∧ s.is TB_STAT.GRID_OK ∧ s.get TB_GRID_CFG.JUMP_MAX * 0x10000 < jump.natAbs) ∧
    (∃ (s : State) (lines : Nat), s.runs 4 ∧ s.is TB_CTRL.LINES ∧ lines % 8 ≠ 0) ∧
    (∃ (s : State) (cycles : Nat), 10 ≤ cycles) ∧
    (∃ (s : State) (e : Int) (f : Nat), s.runs 4 ∧ s.get TB_STAT.STATE = 2 ∧ s.tbTol (s.get TB_STAT.SRC) < e.natAbs) ∧
    (∃ (s : State) (e : Int) (cycles ms : Nat), s.runs 4 ∧ s.get TB_STAT.STATE = 3 ∧ s.tb.renum = none ∧ e.natAbs ≤ s.tbTol (s.get TB_STAT.SRC) ∧ 2 ≤
      cycles) ∧
    (∃ (s : State) (src srcStamp f cycles : Nat), s.runs 4 ∧ s.get TB_STAT.STATE = 4 ∧ s.srcAllowed src ∧ (src = 1 → clampN 2 250 (s.get
      TB_GRID_CFG.RET_CYC) ≤ cycles) ∧ (src = 4 → if s.tb.apiLost then 3 ≤ s.tb.apiOk else s.is TB_API_CFG.API_PRESENT)) ∧
    (∃ (s : State) (k : Int), s.atAngle 0 ∧ s.tb.renum = some k ∧ s.tb.commit = none) ∧
    (∃ (s : State), s.keep.ref) ∧
    (∃ (s : State) (tapPs periods : Nat), s.runs 4 ∧ s.is TB_STAT.DLL_LOCK ∧ (tapPs < 94 ∨ 156 < tapPs) ∧ 16 ≤ periods) ∧
    (∃ (s : State) (tapPs : Nat), s.runs 4 ∧ s.get TB_STAT.DLL_LOCK = 0 ∧ 94 ≤ tapPs ∧ tapPs ≤ 156) ∧
    (∃ (s : State), s.keeper ≠ 0 ∧ (s.get2 TB_LAST_STAMP_LO.LAST TB_LAST_STAMP_HI.LAST + 2 ^ 40 ≤ s.keeper ∨ s.keeper < s.get2 TB_LAST_STAMP_LO.LAST
      TB_LAST_STAMP_HI.LAST)) ∧
    (∃ (s : State) (g : Nat), s.atAngle 0 ∧ s.tb.renum = none ∧ g < 8) ∧
    (∃ (s : State) (sess : Nat), s.writeStatus sess TB_OFS_CTRL.COMMIT = 0 ∧ s.ofsAffected ≠ 0) ∧
    (∃ (s : State) (g : Nat), s.atBoundary g ∧ s.respaceDue g = false ∧ s.tb.left = 2 ^ g ∧ s.tb.commit = some none ∧ g < 8) ∧
    (∃ (s : State), s.is TB_APO_CFG.APO_EN ∧ s.atAngle (s.get TB_APO_CFG.APO_ANG)) ∧
    (∃ (s : State) (edge : Nat), s.runs 4) :=
  ⟨⟨(fun s : State => (s.put TB_STAT.STATE 1).put TB_CTRL.SRC_EN 15) baseOn, 2, 100, 50000, 3, by decide⟩,
    ⟨(fun s : State => s.put TB_STAT.STATE 1) baseOn, 60, by decide⟩,
    ⟨(fun s : State => (s.put TB_STAT.STATE 3).put TB_STAT.SRC 3) baseOn, 32, by decide⟩,
    ⟨(fun s : State => (s.put TB_STAT.STATE 2).put TB_STAT.SRC 1) baseOn, 16777216, by decide⟩,
    ⟨(fun s : State => (s.put TB_STAT.SRC 4).put TB_STAT.GRID_OK 1) baseOn, 16777216, by decide⟩,
    ⟨(fun s : State => s.put TB_CTRL.LINES 1) baseOn, 7, by decide⟩,
    ⟨(fun s : State => s.put TB_STAT.LINE_FLT 1) baseOn, 10, by decide⟩,
    ⟨(fun s : State => s.put TB_STAT.STATE 2) baseOn, (-100000), 50000, by decide⟩,
    ⟨(fun s : State => s.put TB_STAT.STATE 3) baseOn, 0, 2, 65536, by decide⟩,
    ⟨(fun s : State => ((s.put TB_STAT.STATE 4).put TB_CTRL.SRC_EN 15).put TB_STAT.ROOT 1) baseOn, 1, 0, 50000, 250, by decide⟩,
    ⟨(fun s : State => { s.put TB_STAT.STATE 2 with tb := { s.tb with renum := some (-2), commit := none } }) baseOn, -2, by decide⟩,
    ⟨(fun s : State => { s with keep := { s.keep with ref := true } }) baseOn, by decide⟩,
    ⟨(fun s : State => s.put TB_STAT.DLL_LOCK 1) baseOn, 157, 16, by decide⟩,
    ⟨baseOn, 156, by decide⟩,
    ⟨(fun s : State => s.put TB_KEEP_HI.STAMP 256) baseOn, by decide⟩,
    ⟨(fun s : State => s.put TB_STAT.STATE 2) baseOn, 7, by decide⟩,
    ⟨(fun s : State => ((s.put SYS_SESS.STATE 2 7).put SYS_SESS.LEVEL 2 7).put TB_GRP_OFS.GOFS 9 7) baseOn, 7, by decide⟩,
    ⟨(fun s : State => { s.put TB_STAT.STATE 2 with tb := { s.tb with left := 2 ^ 7, commit := some none } }) baseOn, 7, by decide⟩,
    ⟨(fun s : State => (s.put TB_APO_CFG.APO_EN 1).put TB_STAT.STATE 2) baseOn, by decide⟩,
    ⟨baseOn, 268435455, by decide⟩⟩

/-- The hypotheses of `PhaseResults` can be met, clause by clause. -/
theorem witness_phase_results :
    (∃ (s : State) (g v : Nat), s.atBoundary g ∧ s.runs 5 ∧ g < 8 ∧ s.get PE_GRP_STAT.STATE g = 0) ∧
    (∃ (s : State) (g v : Nat), s.atBoundary g ∧ s.runs 5 ∧ g < 8 ∧ s.get PE_GRP_STAT.STATE g = 1 ∧ (s.phasesIn g 2).length < max 1 (s.get
      PE_GRP_CTRL.N_MIN g)) ∧
    (∃ (s : State) (n : Nat) (o : CarrierObs), s.atCarrier (s.get TB_GRP_CAR.NCAR_ACT (s.get PE_PH_CFG.GRP n)) (s.get TB_PH_OFS_ACT.POFS_ACT n) ∧
      s.nextCarrier n ∧ s.runs (5 + n / 48) ∧ n < 96 ∧ s.get PE_PH_STAT.STATE n = 2 ∧ s.get PE_GRP_STAT.OVS_STATE (s.get PE_PH_CFG.GRP n) = 0 ∧ s.get
      PE_GRP_SCALE.CS_SCALE (s.get PE_PH_CFG.GRP n) ≠ 0 ∧ s.dacCode n (s.grp (s.get PE_PH_CFG.GRP n)).th = some 2048 ∧ s.senseSign n * o.sensed < 0 ∧
      o.truncated = false) ∧
    (∃ (s : State) (n : Nat) (o : CarrierObs), s.atCarrier (s.get TB_GRP_CAR.NCAR_ACT (s.get PE_PH_CFG.GRP n)) (s.get TB_PH_OFS_ACT.POFS_ACT n) ∧
      s.nextCarrier n ∧ s.runs (5 + n / 48) ∧ n < 96 ∧ s.get PE_PH_STAT.STATE n = 2 ∧ s.get PE_GRP_STAT.OVS_STATE (s.get PE_PH_CFG.GRP n) = 0 ∧
      s.dacCode n (s.grp (s.get PE_PH_CFG.GRP n)).th = some 2048 ∧ 0 ≤ s.senseSign n * o.sensed) ∧
    (∃ (s : State) (g : Nat), g < 8 ∧ (s.atAngle 0 ∨ s.atAngle 0x800000)) ∧
    (∃ (s : State) (g : Nat), g < 8 ∧ s.get PE_GRP_LEASE.EXP_HC g = 0 ∧ s.get PE_GRP_LEASE.LAPSED g = 0) ∧
    (∃ (s : State) (g gvs pulses : Nat), g < 8 ∧ s.groupRuns g ∧ s.get PE_GRP_STAT.OVS_STATE g = 0 ∧ s.get PE_GRP_OVS.OVS1 g < gvs ∧ gvs < s.get
      PE_GRP_OVS.OVS2 g) ∧
    (∃ (s : State) (g gvs : Nat), g < 8 ∧ s.groupRuns g ∧ (s.get PE_GRP_STAT.OVS_STATE g = 0 ∨ s.get PE_GRP_STAT.OVS_STATE g = 1) ∧ s.get
      PE_GRP_OVS.OVS2 g ≤ gvs) ∧
    (∃ (s : State) (g periods : Nat), g < 8 ∧ s.groupRuns g ∧ s.get PE_GRP_STAT.OVS_STATE g = 1 ∧ 2 ≤ periods) ∧
    (∃ (s : State) (g gvs : Nat), g < 8 ∧ s.groupRuns g ∧ s.get PE_GRP_STAT.OVS_STATE g = 1 ∧ gvs ≤ s.get PE_GRP_OVS.OVS1 g ∧ gvs < s.get
      PE_GRP_OVS.OVS2 g) ∧
    (∃ (s : State) (g gvs : Nat), g < 8 ∧ s.groupRuns g ∧ s.get PE_GRP_STAT.OVS_STATE g = 1 ∧ gvs ≤ s.get PE_GRP_OVS.OVS1 g ∧ s.get PE_GRP_OVS.OVS2 g
      ≤ gvs) ∧
    (∃ (s : State) (g gvs : Nat), g < 8 ∧ s.groupRuns g ∧ s.get PE_GRP_STAT.OVS_STATE g = 2 ∧ gvs < s.get PE_GRP_OVR.OVR g) ∧
    (∃ (s : State) (g hc : Nat), g < 8 ∧ s.groupRuns g ∧ s.get PE_GRP_STAT.OVS_STATE g = 2 ∧ max 1 (s.get PE_GRP_OVR.BRK_MAX g) ≤ hc) ∧
    (∃ (s : State) (n code : Nat), n < 96 ∧ s.get PE_PH_STAT.STATE n = 2 ∧ s.checkDone n = some code) ∧
    (∃ (s : State) (n low : Nat), n < 96 ∧ (s.get PE_PH_STAT.STATE n = 1 ∨ s.get PE_PH_STAT.STATE n = 2) ∧ s.get PE_CTRL.FLT_FILT ≤ low ∧ s.get
      PE_GRP_CTRL.FLT_ACT (s.get PE_PH_CFG.GRP n) = 0) ∧
    (∃ (s : State) (n : Nat) (diff : Int), n < 96 ∧ s.get PE_PH_STAT.STATE n = 2 ∧ s.get PE_DIAG.IMBAL * s.get PE_GRP_RATING.I_PH_MAX (s.get
      PE_PH_CFG.GRP n) < diff.natAbs * 100) ∧
    (∃ (s : State) (sess n : Nat), n < 96 ∧ s.writeStatus sess PE_PH_CFG.EN n = 0 ∧ s.get PE_PH_STAT.STATE n = 0 ∧ s.inRun ∧ s.is
      PWR_HOLDUP.HOLDUP_OK ∧ s.gateSupply (n / 48) ∧ s.get SAF_STAT.ACTIVE = 0 ∧ bit s.upd.recal (n / 48) = false) ∧
    (∃ (s : State) (sess n : Nat), n < 96 ∧ s.writeStatus sess PE_PH_CFG.EN n = 0) ∧
    (∃ (s : State) (n : Nat), n < 96 ∧ s.atAngle 0 ∧ s.get PE_PH_STAT.STATE n = 1 ∧ s.groupRuns (s.get PE_PH_CFG.GRP n) ∧ s.is TB_STAT.DLL_LOCK ∧
      s.gateSupply (n / 48)) ∧
    (∃ (s : State) (sess g : Nat), g < 8 ∧ s.writeStatus sess PE_GRP_CTRL.EN = 0) ∧
    (∃ (s : State) (g : Nat), g < 8 ∧ s.atAngle 0 ∧ s.get PE_GRP_STAT.STATE g = 0 ∧ s.is PE_GRP_CTRL.EN g ∧ s.startOk g) ∧
    (∃ (s : State) (g : Nat), g < 8 ∧ s.atAngle 0 ∧ s.get PE_GRP_STAT.STATE g = 0 ∧ s.is PE_GRP_CTRL.EN g ∧ s.startOk g = false) ∧
    (∃ (s : State) (sess g : Nat), g < 8 ∧ s.writeStatus sess PE_GRP_CTRL.EN = 0) ∧
    (∃ (s : State) (g : Nat), g < 8 ∧ s.get PE_GRP_STAT.STATE g = 2 ∧ (s.grp g).d = 0 ∧ s.groupNearZero g) ∧
    (∃ (s : State) (g : Nat), g < 8 ∧ s.get PE_GRP_STAT.STATE g = 1 ∧ s.get PE_GRP_CTRL.DEM_SRC g ≠ 1 ∧ max 2 (s.get PE_CTRL.DEM_TMO) ≤ (s.grp
      g).demAge) ∧
    (∃ (s : State) (g : Nat), g < 8 ∧ s.atAngle 0 ∧ s.atBoundary g ∧ bit s.tb.respace g) :=
  ⟨⟨(fun s : State => s.put TB_STAT.STATE 2) baseOn, 7, 100000, by decide⟩,
    ⟨(fun s : State => (s.put TB_STAT.STATE 2).put PE_GRP_STAT.STATE 1 7) baseOn, 7, 100, by decide⟩,
    ⟨(fun s : State => ((s.put TB_STAT.STATE 2).put PE_PH_STAT.STATE 2 95).put PE_GRP_SCALE.CS_SCALE 5 0) baseOn, 95,
      { sensed := -1, ton := 100, truncated := false, mean := 5, range := false, stuck := false, othersStuck := 0, rise := 0 }, by decide⟩,
    ⟨(fun s : State => ((s.put TB_STAT.STATE 2).put PE_PH_STAT.STATE 2 95).put PE_GRP_SCALE.CS_SCALE 5 0) baseOn, 95,
      { sensed := 0, ton := 100, truncated := false, mean := 5, range := false, stuck := false, othersStuck := 0, rise := 0 }, by decide⟩,
    ⟨(fun s : State => (s.put PE_GRP_LEASE.EXP_HC 5 7).put TB_STAT.STATE 2) baseOn, 7, by decide⟩,
    ⟨(fun s : State => (s.put PE_GRP_LEASE.EXP_HC 0 7).put PE_GRP_LEASE.LAPSED 0 7) baseOn, 7, by decide⟩,
    ⟨(fun s : State => (((s.put PE_GRP_STAT.STATE 1 7).put PE_GRP_OVS.OVS1 10 7).put PE_GRP_OVS.OVS2 20 7).put PE_GRP_STAT.OVS_STATE 0 7) baseOn, 7,
      19, 3, by decide⟩,
    ⟨(fun s : State => ((s.put PE_GRP_STAT.STATE 1 7).put PE_GRP_OVS.OVS2 20 7).put PE_GRP_STAT.OVS_STATE 1 7) baseOn, 7, 20, by decide⟩,
    ⟨(fun s : State => (s.put PE_GRP_STAT.STATE 2 7).put PE_GRP_STAT.OVS_STATE 1 7) baseOn, 7, 2, by decide⟩,
    ⟨(fun s : State => (((s.put PE_GRP_STAT.STATE 1 7).put PE_GRP_OVS.OVS2 11 7).put PE_GRP_OVS.OVS1 10 7).put PE_GRP_STAT.OVS_STATE 1 7) baseOn, 7,
      10, by decide⟩,
    ⟨(fun s : State => (((s.put PE_GRP_STAT.STATE 1 7).put PE_GRP_OVS.OVS2 9 7).put PE_GRP_OVS.OVS1 10 7).put PE_GRP_STAT.OVS_STATE 1 7) baseOn, 7,
      10, by decide⟩,
    ⟨(fun s : State => ((s.put PE_GRP_STAT.STATE 1 7).put PE_GRP_OVR.OVR 10 7).put PE_GRP_STAT.OVS_STATE 2 7) baseOn, 7, 9, by decide⟩,
    ⟨(fun s : State => (s.put PE_GRP_STAT.STATE 1 7).put PE_GRP_STAT.OVS_STATE 2 7) baseOn, 7, 255, by decide⟩,
    ⟨(fun s : State => (s.put PE_PH_STAT.STATE 2 95).setPh 95 { range := 2 }) baseOn, 95, 2, by decide⟩,
    ⟨(fun s : State => (s.put PE_PH_STAT.STATE 1 95).put PE_GRP_CTRL.FLT_ACT 0 0) baseOn, 95, 255, by decide⟩,
    ⟨(fun s : State => s.put PE_PH_STAT.STATE 2 95) baseOn, 95, (-100000), by decide⟩,
    ⟨(fun s : State => st s [(SYS_SESS.STATE, 2, 7), (SYS_SESS.LEVEL, 3, 7), (PWR_HOLDUP.HOLDUP_OK, 1, 0), (SYS_ROLE.ROLE_ACT, 1, 0),
      (PWR_STATE.STATE, 0, 0), (PE_PH_STAT.STATE, 0, 95), (PWR_AUX_STAT.PGOOD, 1, 0), (PWR_AUX_STAT.PGOOD, 1, 1), (PWR_AUX_STAT.PGOOD, 1, 2),
      (PWR_AUX_STAT.PGOOD, 1, 3), (PWR_AUX_STAT.PGOOD, 1, 4), (PWR_AUX_STAT.PGOOD, 1, 5), (SAF_STAT.ACTIVE, 0, 0)]) baseOn, 7, 95, by decide⟩,
    ⟨(fun s : State => (((s.put SYS_SESS.STATE 2 7).put SYS_SESS.LEVEL 2 7).put SYS_ROLE.ROLE_ACT 1).put PE_PH_STAT.STATE 2 95) baseOn, 7, 95, by
      decide⟩,
    ⟨(fun s : State => (((s.put PE_PH_STAT.STATE 1 95).put TB_STAT.STATE 2).put TB_STAT.DLL_LOCK 1).put PE_GRP_STAT.STATE 1 0) baseOn, 95, by
      decide⟩,
    ⟨(fun s : State => ((s.put SYS_SESS.STATE 2 7).put SYS_SESS.LEVEL 3 7).put SYS_ROLE.ROLE_ACT 1) baseOn, 7, 7, by decide⟩,
    ⟨(fun s : State => st s [(TB_STAT.STATE, 2, 0), (PE_GRP_STAT.STATE, 0, 7), (PE_GRP_CTRL.EN, 1, 7), (PE_GRP_CTRL.DEM_SRC, 1, 7), (PE_GRP_OVS.OVS2,
      20, 7), (PE_GRP_OVS.OVS1, 10, 7), (PE_GRP_OVR.OVR, 5, 7), (PE_GRP_RATING.I_GRP_MAX, 5, 7), (PE_GRP_RATING.I_PH_MAX, 5, 7),
      (PE_GRP_SCALE.CS_SCALE, 5, 7), (PE_GRP_SCALE.VS_SCALE, 5, 7), (PE_GRP_CTRL.N_MIN, 1, 7), (PE_PH_STAT.STATE, 1, 95), (PE_PH_CFG.GRP, 7, 95),
      (TB_STAT.DLL_LOCK, 1, 0), (SYS_READY.RDY, 0x3FFF, 0), (SAF_STAT.ACTIVE, 0, 0), (PWR_STATE.STATE, 0, 0)]) baseOn, 7, by decide⟩,
    ⟨(fun s : State => ((s.put TB_STAT.STATE 2).put PE_GRP_STAT.STATE 0 7).put PE_GRP_CTRL.EN 1 7) baseOn, 7, by decide⟩,
    ⟨(fun s : State => (((s.put SYS_SESS.STATE 2 7).put SYS_SESS.LEVEL 3 7).put SYS_ROLE.ROLE_ACT 1).put PE_GRP_STAT.STATE 1 7) baseOn, 7, 7, by
      decide⟩,
    ⟨(fun s : State => s.put PE_GRP_STAT.STATE 2 7) baseOn, 7, by decide⟩,
    ⟨(fun s : State => ((s.put PE_GRP_STAT.STATE 1 7).put PE_GRP_CTRL.DEM_SRC 0 7).setGrp 7 { demAge := 255 }) baseOn, 7, by decide⟩,
    ⟨(fun s : State => { (s.put TB_STAT.STATE 2).put TB_OFS_CTRL.PEND 0 with tb := { s.tb with respace := 128 } }) baseOn, 7, by decide⟩⟩

/-- The hypotheses of `LoopResults` can be met, clause by clause. -/
theorem witness_loop_results :
    (∃ (s : State) (i late g : Nat), s.atStrobe i s.sRate ∧ s.runs 7 ∧ g < 8 ∧ s.get PE_GRP_CTRL.DEM_SRC g = 1) ∧
    (∃ (s : State) (l : Nat), l < 64 ∧ s.get LE_L_STAT.STATE l = 4 ∧ 4 ≤ (s.lx l).good) ∧
    (∃ (s : State) (sess v : Nat), s.writeStatus sess LE_CTRL.SRATE = 0 ∧ v < 4 ∧ s.get LE_INJ_CTRL.STATE 0 ≠ 2 ∧ s.get LE_INJ_CTRL.STATE 1 ≠ 2 ∧
      s.get LE_CAP_CTRL.STATE = 0 ∧ s.overBudget s.loopsOn (srateOf v) = none) ∧
    (∃ (s : State) (sess v : Nat), s.writeStatus sess LE_CTRL.SRATE = 0 ∧ s.get LE_CAP_CTRL.STATE = 2) ∧
    (∃ (s : State) (sess : Nat), s.atAngle 0 ∧ s.le.sratePend) ∧
    (∃ (s : State) (sess l : Nat), l < 64 ∧ s.writeStatus sess LE_L_CTRL.EN = 0 ∧ s.get LE_L_STAT.STATE l = 0 ∧ s.overBudget (s.loopsOn ++ [l])
      s.sRate = none) ∧
    (∃ (s : State) (sess l : Nat), l < 64 ∧ s.writeStatus sess LE_L_CTRL.EN = 0) ∧
    (∃ (s : State) (sess l : Nat) (man : Bool), l < 64 ∧ s.writeStatus sess LE_L_CTRL.MODE = 0) ∧
    (∃ (s : State) (l : Nat), l < 64 ∧ s.get LE_L_STAT.STATE l = 2 ∧ s.is LE_L_CTRL.MODE l ∧ (s.loopRow l).get LE_L_STAT.STATE l = 3) ∧
    (∃ (s : State) (sess l : Nat), l < 64 ∧ s.writeStatus sess LE_L_CTRL.GT_COMMIT = 0) ∧
    (∃ (s : State) (sess mask : Nat), s.writeStatus sess LE_FF_CTRL.SWAP = 0) ∧
    (∃ (s : State) (a : La) (l : Nat), s.laDue = some a ∧ a.ep = 0x012 ∧ a.op = 1 ∧ fFinite a.value ∧ l < 64 ∧ bit (bytesAt a.body 0 8) l ∧ s.get
      LE_L_STAT.STATE l ≠ 0) ∧
    (∃ (s : State) (a : La) (l : Nat), s.laDue = some a ∧ a.ep = 0x012 ∧ a.op = 2 ∧ l < 64 ∧ bit (bytesAt a.body 0 8) l ∧ s.get LE_L_STAT.STATE l ≠ 0
      ∧ s.get LE_L_SRC.SRC_T l = 0 ∧ fFinite (fMul (s.fl LE_L_R_TGT.R_TGT l) a.value)) ∧
    (∃ (s : State) (a : La) (l : Nat), s.laDue = some a ∧ a.ep = 0x012 ∧ a.op = 3 ∧ fFinite a.value ∧ fPos a.value ∧ l < 64 ∧ bit (bytesAt a.body 0
      8) l ∧ s.get LE_L_STAT.STATE l ≠ 0) ∧
    (∃ (s : State) (a : La), s.laDue = some a ∧ a.ep = 0x012 ∧ a.op = 4 ∧ fFinite a.value ∧ byteAt a.body 8 < 16) ∧
    (∃ (s : State) (a : La) (l : Nat), s.laDue = some a ∧ a.ep = 0x012 ∧ a.op = 5 ∧ l < 64 ∧ bit (bytesAt a.body 0 8) l ∧ s.get LE_L_STAT.STATE l ≠
      0) ∧
    (∃ (s : State) (a : La) (j : Nat), s.laDue = some a ∧ a.ep = 0x012 ∧ a.op = 6 ∧ byteAt a.body 8 = j ∧ j < 2 ∧ s.get LE_INJ_CTRL.STATE j ≠ 2 ∧
      s.angleZero.injOk j) ∧
    (∃ (s : State) (sess j : Nat), j < 2 ∧ s.writeStatus sess LE_INJ_CTRL.EN = 0 ∧ s.get LE_INJ_CTRL.STATE j ≠ 2 ∧ s.get LE_INJ_CTRL.START j = 0 ∧
      s.injOk j) ∧
    (∃ (s : State) (j : Nat), j < 2 ∧ s.get LE_INJ_CTRL.STATE j = 1 ∧ s.get2 LE_INJ_STAMP_LO.STAMP LE_INJ_STAMP_HI.STAMP j ≤ s.stamp ∧ s.injOk j) ∧
    (∃ (s : State) (j : Nat), j < 2 ∧ s.get LE_INJ_CTRL.STATE j = 2 ∧ s.get LE_INJ_DUR.DUR j ≠ 0 ∧ s.get LE_INJ_DUR.DUR j ≤ (s.injx j).n) ∧
    (∃ (s : State) (sess j : Nat), j < 2 ∧ s.writeStatus sess LE_INJ_CTRL.EN = 0 ∧ s.get LE_INJ_CTRL.STATE j ≠ 0) ∧
    (∃ (s : State) (sess : Nat), s.writeStatus sess LE_CAP_CTRL.ARM = 0) ∧
    (∃ (s : State), s.get LE_CAP_CTRL.STATE = 1 ∧ s.capTriggered) ∧
    (∃ (s : State), s.get LE_CAP_CTRL.STATE = 2 ∧ 8192 ≤ s.le.cap.length) :=
  ⟨⟨(fun s : State => st s [(TB_STAT.STATE, 2, 0), (LE_CTRL.SR_STATUS, 1, 0), (PE_GRP_CTRL.DEM_SRC, 1, 7)]) baseOn, 0, 0, 7, by decide⟩,
    ⟨(fun s : State => (s.put LE_L_STAT.STATE 4 63).setLx 63 { good := 4 }) baseOn, 63, by decide⟩,
    ⟨(fun s : State => st s [(SYS_SESS.STATE, 2, 7), (SYS_SESS.LEVEL, 3, 7), (SYS_ROLE.ROLE_ACT, 1, 0), (LE_CAP_CTRL.STATE, 0, 0)]) baseOn, 7, 3, by
      decide⟩,
    ⟨(fun s : State => st s [(SYS_SESS.STATE, 2, 7), (SYS_SESS.LEVEL, 3, 7), (SYS_ROLE.ROLE_ACT, 1, 0), (LE_CAP_CTRL.STATE, 2, 0)]) baseOn, 7, 1, by
      decide⟩,
    ⟨(fun s : State => { st s [(TB_STAT.STATE, 2, 0), (LE_CTRL.SR_STATUS, 1, 0)] with le := { s.le with sratePend := true } }) baseOn, 7, by decide⟩,
    ⟨(fun s : State => st s [(SYS_SESS.STATE, 2, 7), (SYS_SESS.LEVEL, 3, 7), (SYS_ROLE.ROLE_ACT, 1, 0), (LE_L_STAT.STATE, 0, 63)]) baseOn, 7, 63, by
      decide⟩,
    ⟨(fun s : State => st s [(SYS_SESS.STATE, 2, 7), (SYS_SESS.LEVEL, 3, 7), (SYS_ROLE.ROLE_ACT, 1, 0), (LE_L_STAT.STATE, 2, 63)]) baseOn, 7, 63, by
      decide⟩,
    ⟨(fun s : State => st s [(SYS_SESS.STATE, 2, 7), (SYS_SESS.LEVEL, 3, 7), (SYS_ROLE.ROLE_ACT, 1, 0), (LE_L_STAT.STATE, 2, 63)]) baseOn, 7, 63,
      true, by decide⟩,
    ⟨(fun s : State => st s [(LE_L_STAT.STATE, 2, 63), (LE_L_CTRL.MODE, 1, 63)]) baseOn, 63, by decide⟩,
    ⟨(fun s : State => st s [(SYS_SESS.STATE, 2, 7), (SYS_SESS.LEVEL, 3, 7), (SYS_ROLE.ROLE_ACT, 1, 0)]) baseOn, 7, 63, by decide⟩,
    ⟨(fun s : State => st s [(SYS_SESS.STATE, 2, 7), (SYS_SESS.LEVEL, 3, 7), (SYS_ROLE.ROLE_ACT, 1, 0)]) baseOn, 7, 65536, by decide⟩,
    ⟨(fun s : State => { st s [(TB_STAT.STATE, 2, 0), (LE_L_STAT.STATE, 2, 63)] with fab := { s.fab with la := [anLa 0x012 1 [0,0,0,0,0,0,0,128,0,0,0,0,0,0,128,63]] } }) baseOn,
      anLa 0x012 1 [0,0,0,0,0,0,0,128,0,0,0,0,0,0,128,63], 63, by decide⟩,
    ⟨(fun s : State => { st s [(TB_STAT.STATE, 2, 0), (LE_L_STAT.STATE, 2, 63), (LE_L_SRC.SRC_T, 0, 63)] with
      fab := { s.fab with la := [anLa 0x012 2 [0,0,0,0,0,0,0,128,0,0,0,0,0,0,128,63]] } }) baseOn, anLa 0x012 2 [0,0,0,0,0,0,0,128,0,0,0,0,0,0,128,63], 63, by
      decide⟩,
    ⟨(fun s : State => { st s [(TB_STAT.STATE, 2, 0), (LE_L_STAT.STATE, 2, 63)] with fab := { s.fab with la := [anLa 0x012 3 [0,0,0,0,0,0,0,128,0,0,0,0,0,0,128,63]] } }) baseOn,
      anLa 0x012 3 [0,0,0,0,0,0,0,128,0,0,0,0,0,0,128,63], 63, by decide⟩,
    ⟨(fun s : State => { s.put TB_STAT.STATE 2 with fab := { s.fab with la := [anLa 0x012 4 [0,0,0,0,0,0,0,0,15,0,0,0,0,0,128,63]] } }) baseOn, anLa 0x012 4
      [0,0,0,0,0,0,0,0,15,0,0,0,0,0,128,63], by decide⟩,
    ⟨(fun s : State => { st s [(TB_STAT.STATE, 2, 0), (LE_L_STAT.STATE, 2, 63)] with fab := { s.fab with la := [anLa 0x012 5 [0,0,0,0,0,0,0,128,0,0,0,0,0,0,128,63]] } }) baseOn,
      anLa 0x012 5 [0,0,0,0,0,0,0,128,0,0,0,0,0,0,128,63], 63, by decide⟩,
    ⟨(fun s : State => { st s [(TB_STAT.STATE, 2, 0), (LE_INJ_CTRL.STATE, 0, 1), (LE_INJ_CTRL.LOOP, 63, 1), (LE_INJ_CTRL.TYPE, 1, 1), (LE_L_STAT.STATE, 2, 63),
      (LE_INJ_F0.F0, 0x3F800000, 1), (LE_INJ_F1.F1, 0x3F800000, 1)] with fab := { s.fab with la := [anLa 0x012 6 [0,0,0,0,0,0,0,0,1]] } }) baseOn, anLa
      0x012 6 [0,0,0,0,0,0,0,0,1], 1, by decide⟩,
    ⟨(fun s : State => st s [(SYS_SESS.STATE, 2, 7), (SYS_SESS.LEVEL, 3, 7), (SYS_ROLE.ROLE_ACT, 1, 0), (LE_INJ_CTRL.STATE, 0, 1),
      (LE_INJ_CTRL.START, 0, 1), (LE_INJ_CTRL.LOOP, 63, 1), (LE_INJ_CTRL.TYPE, 1, 1), (LE_L_STAT.STATE, 2, 63), (LE_INJ_F0.F0, 0x3F800000, 1),
      (LE_INJ_F1.F1, 0x3F800000, 1)]) baseOn, 7, 1, by decide⟩,
    ⟨(fun s : State => st s [(LE_INJ_CTRL.STATE, 1, 1), (LE_INJ_CTRL.LOOP, 63, 1), (LE_INJ_CTRL.TYPE, 1, 1), (LE_L_STAT.STATE, 2, 63), (LE_INJ_F0.F0,
      0x3F800000, 1), (LE_INJ_F1.F1, 0x3F800000, 1), (LE_INJ_STAMP_HI.STAMP, 0, 1), (TB_STAMP_HI.STAMP, 5, 0)]) baseOn, 1, by decide⟩,
    ⟨(fun s : State => (st s [(LE_INJ_CTRL.STATE, 2, 1), (LE_INJ_DUR.DUR, 9, 1)]).setInjx 1 { n := 9 }) baseOn, 1, by decide⟩,
    ⟨(fun s : State => st s [(SYS_SESS.STATE, 2, 7), (SYS_SESS.LEVEL, 3, 7), (SYS_ROLE.ROLE_ACT, 1, 0), (LE_INJ_CTRL.STATE, 2, 1)]) baseOn, 7, 1, by
      decide⟩,
    ⟨(fun s : State => st s [(SYS_SESS.STATE, 2, 7), (SYS_SESS.LEVEL, 3, 7), (SYS_ROLE.ROLE_ACT, 1, 0)]) baseOn, 7, by decide⟩,
    ⟨(fun s : State => st s [(LE_CAP_CTRL.STATE, 1, 0), (LE_CAP_CTRL.TRIG, 1, 0), (LE_CAP_TSTAMP_HI.TSTAMP, 0, 0), (TB_STAMP_HI.STAMP, 5, 0)])
      baseOn, by decide⟩,
    ⟨(fun s : State => { s.put LE_CAP_CTRL.STATE 2 with le := { s.le with cap := List.replicate 8192 ⟨77, []⟩ } }) baseOn, by decide +kernel⟩⟩

/-- The hypotheses of `FabricLaneResults` can be met, clause by clause. -/
theorem witness_fabric_lane_results :
    (∃ (s : State) (n : Nat), n < 8 ∧ s.runs 8 ∧ bit (s.get FAB_CTRL.LANE_EN) n ∧ s.get FAB_LANE_STAT.STATE n = 0 ∧ bit s.fab.retry n = false) ∧
    (∃ (s : State) (n ms : Nat), n < 8 ∧ s.get FAB_LANE_STAT.STATE n = 1 ∧ 20 ≤ ms) ∧
    (∃ (s : State) (n ms : Nat), n < 8 ∧ bit s.fab.retry n ∧ 10 ≤ ms ∧ bit (s.get FAB_CTRL.LANE_EN) n ∧ s.get FAB_LANE_STAT.STATE n = 0) ∧
    (∃ (s : State) (n node dly count : Nat) (key : FabKey), n < 8 ∧ bit (s.get FAB_CTRL.LANE_EN) n ∧ s.get FAB_LANE_STAT.STATE n = 1 ∧ 16 ≤ count) ∧
    (∃ (s : State) (n ms : Nat), n < 8 ∧ s.get FAB_LANE_STAT.STATE n = 2 ∧ bit (s.get FAB_CTRL.LANE_EN) n ∧ s.get FAB_LANE_STAT.LOS n = 0 ∧ 10 ≤ ms)
      ∧
    (∃ (s : State) (n m : Nat), n < 8 ∧ s.get FAB_LANE_STAT.STATE n = 3) ∧
    (∃ (s : State) (link : Nat) (f : FabFrame) (urgent pending recent : Nat), link < 8 ∧ s.runs 8 ∧ s.linkUp link) ∧
    (∃ (s : State) (link : Nat) (f : FabFrame) (urgent pending recent : Nat), s.runs 8 ∧ s.linkUp link ∧ (link < 8 → s.rxRoom link ⟨f, link⟩) ∧ f.epo
      = s.get FAB_STAT.EPOCH % 2 ∧ f.ty = 1 ∧ f.dst / 2 ^ 11 = s.get FAB_STAT.NODE_ID ∧ s.get FAB_STAT.NODE_ID ≠ 0 ∧ s.populated (f.dst % 2 ^ 11) ∧
      pending < 256) ∧
    (∃ (s : State) (link : Nat) (f : FabFrame) (urgent pending recent : Nat), s.runs 8 ∧ s.linkUp link ∧ (link < 8 → s.rxRoom link ⟨f, link⟩) ∧ f.epo
      ≠ s.get FAB_STAT.EPOCH % 2 ∧ s.fab.switch = none) ∧
    (∃ (s : State) (waited n : Nat) (e : Egr) (q : List Egr), s.runs 8 ∧ clampN 1 100 (s.get FAB_TIMERS2.STALL_T) < waited ∧ n < 8 ∧ (s.lane n).queue
      = e :: q ∧ (s.lane n).covers e = false ∧ (∀ l < n, s.stalled l = false)) ∧
    (∃ (s : State) (sess mask n : Nat), s.writeStatus sess FAB_WAKE.WAKE_TX = 0 ∧ s.runs 8 ∧ mask = 2 ^ n ∧ n < 8 ∧ s.get FAB_LANE_STAT.STATE n ≠ 3 ∧
      bit (s.get FAB_CTRL.LANE_EN) n) ∧
    (∃ (s : State) (n : Nat) (t1 t2 t3 t4 : Int), n < 8 ∧ s.laneUp n) ∧
    (∃ (s : State) (k n : Nat), k < 8 ∧ s.runs 8 ∧ s.atAngle (k * 0x200000) ∧ (s.get FAB_STAT.STATE = 4 ∨ s.get FAB_STAT.STATE = 5) ∧ n < 8 ∧
      s.laneUp n) ∧
    (∃ (s : State) (n v16 : Nat), n < 8 ∧ s.runs 8 ∧ s.laneUp n ∧ s.is FAB_LANE_STAT.TPARENT n ∧ s.get TB_STAT.SRC = 2 ∧ (s.get TB_STAT.STATE = 2 ∨
      s.get TB_STAT.STATE = 3)) :=
  ⟨⟨(fun s : State => st s [(FAB_CTRL.LANE_EN, 255, 0), (FAB_LANE_STAT.STATE, 0, 7)]) baseOn, 7, by decide⟩,
    ⟨(fun s : State => s.put FAB_LANE_STAT.STATE 1 7) baseOn, 7, 20, by decide⟩,
    ⟨(fun s : State => { st s [(FAB_CTRL.LANE_EN, 255, 0), (FAB_LANE_STAT.STATE, 0, 7)] with fab := { s.fab with retry := 128 } }) baseOn, 7, 10, by
      decide⟩,
    ⟨(fun s : State => st s [(FAB_LANE_STAT.STATE, 1, 7), (FAB_CTRL.LANE_EN, 128, 0)]) baseOn, 7, 4096, 9, 16, ⟨1, 0, 3, 77⟩, by decide⟩,
    ⟨(fun s : State => st s [(FAB_LANE_STAT.STATE, 2, 7), (FAB_STAT.STATE, 1, 0), (FAB_CTRL.LANE_EN, 128, 0)]) baseOn, 7, 10, by decide⟩,
    ⟨(fun s : State => s.put FAB_LANE_STAT.STATE 3 7) baseOn, 7, 0, by decide⟩,
    ⟨(fun s : State => s.put FAB_LANE_STAT.STATE 3 7) baseOn, 7, ⟨0, 1, 0, 0, 0, 3, 2049, 4097, 5, [1]⟩, 0, 0, 0, by decide⟩,
    ⟨(fun s : State => st s [(FAB_LANE_STAT.STATE, 3, 7), (FAB_STAT.NODE_ID, 1, 0), (FAB_STAT.EPOCH, 0, 0)]) baseOn, 7, ⟨0, 1, 0, 0, 0, 3, 2049,
      4097, 5, [1]⟩, 0, 255, 0, by decide⟩,
    ⟨(fun s : State => { st s [(FAB_LANE_STAT.STATE, 3, 7), (FAB_STAT.NODE_ID, 1, 0), (FAB_STAT.EPOCH, 1, 0)] with
      fab := { s.fab with switch := none } }) baseOn, 7, ⟨0, 1, 0, 0, 0, 3, 2049, 4097, 5, [1]⟩, 0, 255, 0, by decide⟩,
    ⟨(fun s : State => s.setLane 7 { queue := [⟨⟨0, 1, 0, 0, 0, 3, 2049, 4097, 5, [1]⟩, 14⟩], cred0 := 0 }) baseOn, 101, 7, ⟨⟨0, 1, 0, 0, 0, 3, 2049,
      4097, 5, [1]⟩, 14⟩, [], by decide⟩,
    ⟨(fun s : State => st s [(SYS_SESS.STATE, 2, 7), (SYS_SESS.LEVEL, 3, 7), (FAB_CTRL.LANE_EN, 255, 0), (FAB_LANE_STAT.STATE, 0, 7)]) baseOn, 7,
      128, 7, by decide⟩,
    ⟨(fun s : State => s.put FAB_LANE_STAT.STATE 3 7) baseOn, 7, 0, 100, 200, 400, by decide⟩,
    ⟨(fun s : State => st s [(FAB_LANE_STAT.STATE, 3, 7), (FAB_STAT.STATE, 4, 0), (TB_STAT.STATE, 2, 0), (TB_STAMP_LO.STAMP, 14680064, 0)]) baseOn,
      7, 7, by decide⟩,
    ⟨(fun s : State => st s [(FAB_LANE_STAT.STATE, 3, 7), (FAB_LANE_STAT.TPARENT, 1, 7), (TB_STAT.SRC, 2, 0), (TB_STAT.STATE, 3, 0)]) baseOn, 7,
      123456, by decide⟩⟩

/-- The hypotheses of `FabricRootResults` can be met, clause by clause. -/
theorem witness_fabric_root_results :
    (∃ (s : State) (classMs : Nat), s.runs 8 ∧ s.get FAB_STAT.STATE = 4 ∧ s.is FAB_STAT.ROOT ∧ 1000 ≤ classMs) ∧
    (∃ (s : State) (ms : Nat), s.runs 8 ∧ s.is FAB_STAT.ROOT ∧ s.fab.due ∧ s.fab.switch = none ∧ 10 * clampN 1 255 (s.get FAB_TIMERS.EPOCH_MIN) ≤ ms)
      ∧
    (∃ (s : State) (link : Nat) (key : FabKey) (seq : Nat) (member : Bool), s.runs 8 ∧ s.linkUp link ∧ s.get FAB_STAT.STATE = 3 ∧ (s.fab.lost.any fun
      p => p.1 == key.serial && decide (seq ≤ p.2)) = false) ∧
    (∃ (s : State) (hc now : Nat), s.runs 8 ∧ s.get FAB_STAT.STATE = 2 ∧ s.is FAB_CTRL.ROOT_EN ∧ s.get FAB_STAT.ROOT = 0 ∧ s.knownBest = s.ownKey ∧
      clampN 1 16 (s.get FAB_TIMERS.ELECT_HOLD) ≤ hc) ∧
    (∃ (s : State) (serial sticky : Nat) (role : JoinReq) (link hops : Nat), s.runs 8 ∧ s.is FAB_STAT.ROOT ∧ s.get FAB_STAT.STATE = 4 ∧ 2 ≤ sticky ∧
      sticky < 4096 ∧ s.fab.ids = [] ∧ s.fab.resv = [] ∧ hops ≤ 12) ∧
    (∃ (s : State) (ms l : Nat), s.runs 8 ∧ s.get FAB_STAT.STATE = 3 ∧ 50 ≤ ms ∧ s.rootLink = some l ∧ s.fab.hold = false ∧ s.fab.ages.length < 4) ∧
    (∃ (s : State) (id level up : Nat), s.runs 8 ∧ s.get FAB_STAT.ROOT = 0 ∧ s.get FAB_STAT.STATE = 3 ∧ 2 ≤ id ∧ id < 4096 ∧ level < 32) ∧
    (∃ (s : State) (hc : Nat), s.runs 8 ∧ s.get FAB_STAT.STATE = 4 ∧ s.get FAB_STAT.ROOT = 0 ∧ clampN 2 32 (s.get FAB_TIMERS.ROOT_TMO) ≤ hc) ∧
    (∃ (s : State) (ms now : Nat), s.runs 8 ∧ s.get FAB_STAT.STATE ≤ 4 ∧ s.get FAB_STAT.ROOT = 0 ∧ s.linksUp = [] ∧ 100 ≤ ms) ∧
    (∃ (s : State) (id secs : Nat), s.get FAB_TIMERS2.ID_HOLD ≤ secs) ∧
    (∃ (s : State) (node : Nat) (links : List (Nat × Nat)), s.runs 8 ∧ s.is FAB_STAT.ROOT) ∧
    (∃ (s : State) (entries : List (Nat × Nat × Nat × Nat × Nat)) (dirs : List (Nat × Nat)) (level node pri : Nat), s.runs 8 ∧ entries = [(node, pri,
      0xF, 3, 0)] ∧ node < 4096) ∧
    (∃ (s : State) (sw : Nat), s.runs 8 ∧ s.get FAB_STAT.STATE = 4 ∧ s.fab.switch = none ∧ s.stamp < sw) ∧
    (∃ (s : State) (s0 sw : Nat), s.runs 8 ∧ s.get FAB_STAT.STATE = 4 ∧ s.fab.switch = some s0 ∧ s.fab.both ∧ s.fab.swBoth = false ∧ s.stamp < s0 ∧
      s0 < sw) ∧
    (∃ (s : State) (sw : Nat), s.fab.switch = some sw ∧ sw ≤ s.stamp + s.drainAu) ∧
    (∃ (s : State) (sw : Nat), s.fab.switch = some sw ∧ sw ≤ s.stamp ∧ s.fab.inject = []) ∧
    (∃ (s : State) (src actId ack target ep op : Nat) (dstEp : Option Nat) (body : List Nat), s.runs 8 ∧ s.laCheck target ep op dstEp body = 0 ∧
      s.fab.la = [] ∧ s.fab.done = []) ∧
    (∃ (s : State) (src actId ack target ep op : Nat) (dstEp : Option Nat) (body : List Nat), s.runs 8 ∧ s.laCheck target ep op dstEp body = 5 ∧
      s.fab.hold = false) ∧
    (∃ (s : State) (a : La), s.laDue = some a ∧ a.ep = 0x010 ∧ a.op = 1 ∧ byteAt a.body 0 < 8 ∧ bytesAt a.body 4 4 < 2 ^ 20) ∧
    (∃ (s : State) (a : La), s.laDue = some a ∧ a.ep = 0x010 ∧ a.op = 2 ∧ byteAt a.body 0 < 96 ∧ byteAt a.body 1 = 1 ∧ bytesAt a.body 4 4 < 2 ^ 20)
      :=
  ⟨⟨(fun s : State => st s [(FAB_STAT.STATE, 4, 0), (FAB_STAT.ROOT, 1, 0)]) baseOn, 1000, by decide⟩,
    ⟨(fun s : State => { st s [(FAB_STAT.ROOT, 1, 0)] with fab := { s.fab with due := true, switch := none } }) baseOn, 2550, by decide⟩,
    ⟨(fun s : State => { st s [(FAB_LANE_STAT.STATE, 3, 7), (FAB_STAT.STATE, 3, 0)] with fab := { s.fab with lost := [(1, 8)] } }) baseOn, 7, ⟨3, 0,
      0, 1⟩, 9, true, by decide⟩,
    ⟨(fun s : State => { st s [(FAB_STAT.STATE, 2, 0), (FAB_CTRL.ROOT_EN, 1, 0), (FAB_STAT.ROOT, 0, 0), (TB_STAT.ROOT, 0, 0)] with
      fab := { s.fab with heard := [] } }) baseOn, 16, 100, by decide⟩,
    ⟨(fun s : State => { st s [(FAB_STAT.STATE, 4, 0), (FAB_STAT.ROOT, 1, 0)] with fab := { s.fab with ids := [], resv := [] } }) baseOn, 77, 4095,
      ⟨3, [(0, 5, 2)]⟩, 7, 12, by decide⟩,
    ⟨(fun s : State => { st s [(FAB_STAT.STATE, 3, 0), (FAB_LANE_STAT.STATE, 3, 7)] with
      fab := { s.fab with rootKey := some ⟨2, 0, 3, 77⟩, heard := [(7, { key := ⟨2, 0, 3, 77⟩, seq := 5, member := true })], hold := false, ages := [] } }) baseOn, 50, 7, by decide⟩,
    ⟨(fun s : State => st s [(FAB_STAT.STATE, 3, 0), (FAB_STAT.ROOT, 0, 0)]) baseOn, 4095, 13, 7, by decide⟩,
    ⟨(fun s : State => st s [(FAB_STAT.STATE, 4, 0), (FAB_STAT.ROOT, 0, 0)]) baseOn, 32, by decide⟩,
    ⟨(fun s : State => st s [(FAB_STAT.STATE, 2, 0), (FAB_STAT.ROOT, 0, 0), (FAB_LANE_STAT.STATE, 0, 0), (FAB_LANE_STAT.STATE, 0, 1),
      (FAB_LANE_STAT.STATE, 0, 2), (FAB_LANE_STAT.STATE, 0, 3), (FAB_LANE_STAT.STATE, 0, 4), (FAB_LANE_STAT.STATE, 0, 5), (FAB_LANE_STAT.STATE, 0, 6),
      (FAB_LANE_STAT.STATE, 0, 7)]) baseOn, 100, 5, by decide⟩,
    ⟨(fun s : State => { s with fab := { s.fab with resv := [(7, 9)] } }) baseOn, 7, 65535, by decide⟩,
    ⟨(fun s : State => s.put FAB_STAT.ROOT 1) baseOn, 2, [(0, 1)], by decide⟩,
    ⟨baseOn, [(4095,8,15,3,0)], [(8,1),(9,1)], 4, 4095, 8, by decide⟩,
    ⟨(fun s : State => s.put FAB_STAT.STATE 4) baseOn, 18446744073709551616, by decide⟩,
    ⟨(fun s : State => { s.put FAB_STAT.STATE 4 with fab := { s.fab with switch := some (2 ^ 64), both := true, swBoth := false } }) baseOn,
      18446744073709551616, 18446744073709551617, by decide⟩,
    ⟨(fun s : State => { s with fab := { s.fab with switch := some 5 } }) baseOn, 5, by decide⟩,
    ⟨(fun s : State => { s.put TB_STAMP_HI.STAMP 5 with fab := { s.fab with switch := some 5, inject := [] } }) baseOn, 5, by decide⟩,
    ⟨(fun s : State => { st s [(FAB_LA_CFG.LA_AHEAD, 255, 0), (SYS_ROLE.ROLE_ACT, 1, 0), (SYS_ROLE_CMD.STATUS, 0, 0)] with
      fab := { s.fab with la := [], done := [] } }) baseOn, 9, 7, 2, 16777216, 16, 1, (some 16), [7,0,0,0,1,0,0,0], by decide⟩,
    ⟨(fun s : State => st s [(FAB_LA_CFG.LA_AHEAD, 255, 0), (SYS_ROLE.ROLE_ACT, 1, 0), (SYS_ROLE_CMD.STATUS, 0, 0)]) baseOn, 9, 7, 2, 0, 16, 1, (some
      16), [7,0,0,0,1,0,0,0], by decide⟩,
    ⟨(fun s : State => { s with fab := { s.fab with la := [anLa 0x010 1 [7,0,0,0,5,0,0,0]] } }) baseOn, anLa 0x010 1 [7,0,0,0,5,0,0,0], by decide⟩,
    ⟨(fun s : State => { s with fab := { s.fab with la := [anLa 0x010 2 [95,1,0,0,5,0,0,0]] } }) baseOn, anLa 0x010 2 [95,1,0,0,5,0,0,0], by decide⟩⟩

/-- The hypotheses of `LedgerResults` can be met, clause by clause. -/
theorem witness_ledger_results :
    (∃ (s : State) (offer : Nat), s.slRuns ∧ s.get FAB_STAT.STATE = 4 ∧ s.fab.hold = false ∧ s.fab.ages.length < 4) ∧
    (∃ (s : State) (now node serial req cls floor lease applied gen offer digest : Nat) (draw : Int), s.slRoot ∧ s.sl.holders = []) ∧
    (∃ (s : State) (src issue gen kw hc seq passed : Nat), s.slRuns ∧ s.slPart = 1 ∧ s.slGrantCheck src issue gen seq = 0 ∧ seq < 256 ∧ gen < 2 ^ 16
      ∧ kw < 2 ^ 16 ∧ s.get SL_CUT.CUT_ACT = 0 ∧ s.get SL_STAT.PLEDGED = 0 ∧ s.fwdGroups ≠ []) ∧
    (∃ (s : State) (src issue gen kw hc seq : Nat) (pledge : Bool) (passed : Nat), s.slRuns ∧ s.slPart = 1 ∧ s.slGrantCheck src issue gen seq = 2) ∧
    (∃ (s : State) (now node : Nat) (h : Holder), s.slRoot ∧ s.get FAB_STAT.STATE = 4 ∧ s.get SL_STAT.ROOT_STATE = 2 ∧ s.slQuorum now ∧ node < 4096 ∧
      s.sl.holders = [(node, h)] ∧ h.fresh ∧ h.ok ∧ h.excl = false ∧ h.cls = 3 ∧ h.recs = [] ∧ h.pledge = none ∧ h.offer = 0 ∧ s.get SL_TUNE.RAMP_UP =
      0 ∧ s.slFloors now ≤ s.get SL_SITE.SITE_LIM ∧ h.req ≤ s.slLimit (s.slFloors now) - s.slFloors now) ∧
    (∃ (s : State) (node now : Nat), s.slRoot) ∧
    (∃ (s : State) (node now q at_ : Nat), s.slRoot ∧ (s.holder node).applied = some (q, at_) ∧ at_ + 25000 ≤ now) ∧
    (∃ (s : State) (now : Nat), s.slRoot ∧ s.get SL_STAT.ROOT_STATE = 2 ∧ s.slQuorum now = false) ∧
    (∃ (s : State) (now : Nat), s.slRoot ∧ s.get SL_STAT.ROOT_STATE = 3 ∧ s.slQuorum now) ∧
    (∃ (s : State) (now : Nat), s.slRoot ∧ s.get SL_STAT.ROOT_STATE = 1 ∧ s.sl.tEnd ≤ 9 * now ∧ s.slQuorum now) ∧
    (∃ (s : State), s.is SL_STAT.PLEDGED ∧ s.sl.pledgeHc = 0 ∧ s.get SL_CFG.PLEDGE_PARAM < 16) ∧
    (∃ (s : State) (draw : Int), s.is SL_STAT.PLEDGED ∧ -(s.get SL_DRAW.PLEDGE : Int) < draw) ∧
    (∃ (s : State) (a : La), s.laDue = some a ∧ a.ep = 0x014 ∧ a.op = 1 ∧ s.is FAB_STAT.ROOT) ∧
    (∃ (s : State) (a : La) (g : Nat), s.laDue = some a ∧ a.ep = 0x014 ∧ a.op = 2 ∧ s.slPart = 1 ∧ g < 8) ∧
    (∃ (s : State) (sess v : Nat), s.writeStatus sess SL_LIMDYN.LIM_DYN = 0) ∧
    (∃ (s : State) (now cycles : Nat), s.slRoot ∧ 1 ≤ cycles ∧ ((s.slLimit (s.slFloors now) : Int) < s.sl.holders.foldl (fun a q => if s.slHeard now
      q.2 then a + q.2.draw else a) 0)) :=
  ⟨⟨(fun s : State => s.put FAB_STAT.STATE 4) baseOn, 5, by decide⟩,
    ⟨(fun s : State => { s.put SL_STAT.ROOT_STATE 2 with sl := { s.sl with holders := [] } }) baseOn, 5, 7, 77, 100, 3, 10, 10, 1, 1, 0, 9, (-5), by
      decide⟩,
    ⟨(fun s : State => st s [(SYS_ROLE.ROLE_ACT, 2, 0), (FAB_STAT.STATE, 4, 0), (TB_STAT.STATE, 2, 0), (TB_STAMP_HI.STAMP, 5, 0), (SL_LEASE.SEQ, 1, 0),
      (SL_GEN.GEN_ACC, 7, 0), (SL_CUT.CUT_ACT, 0, 0), (PE_GRP_RATING.I_GRP_MAX, 5, 7), (PE_GRP_CTRL.LED_EN, 1, 7)]) baseOn, 1, 21474836480, 7,
      65535, 4, 128, 2, by decide⟩,
    ⟨(fun s : State => st s [(SYS_ROLE.ROLE_ACT, 2, 0), (FAB_STAT.STATE, 4, 0), (TB_STAT.STATE, 4, 0)]) baseOn, 1, 0, 7, 65535, 4, 128, true, 2, by
      decide⟩,
    ⟨(fun s : State => { st s [(FAB_STAT.STATE, 4, 0), (SL_STAT.ROOT_STATE, 2, 0), (SL_TUNE.RAMP_UP, 0, 0), (SL_SITE.SITE_LIM, 1000, 0), (SL_LIMDYN.LIM_DYN, 50, 0), (SL_FLOOR_SUM.FLOOR_SUM, 0, 0)] with roster := [(s.serial, 0)], sl := { s.sl with holders := [(2047, { serial := 9, req := 50, cls := 3, ok := true, fresh := true, seq := 255 })] } })
      baseOn, 5, 2047, { serial := 9, req := 50, cls := 3, ok := true, fresh := true, seq := 255 }, by decide⟩,
    ⟨(fun s : State => { s.put SL_STAT.ROOT_STATE 2 with sl := { s.sl with holders := [(7, { serial := 9, recs := [⟨5, 1, 900⟩, ⟨6, 2, 901⟩] })] } })
      baseOn, 7, 100, by decide⟩,
    ⟨(fun s : State => { s.put SL_STAT.ROOT_STATE 2 with sl := { s.sl with holders := [(7, { serial := 9, applied := some (2, 5), recs := [⟨5, 1, 900⟩, ⟨6, 2, 901⟩] })] } })
      baseOn, 7, 25005, 2, 5, by decide⟩,
    ⟨(fun s : State => { s.put SL_STAT.ROOT_STATE 2 with roster := [(5, 0), (6, 0)], sl := { s.sl with holders := [] } }) baseOn, 5, by decide⟩,
    ⟨(fun s : State => { st s [(SL_STAT.ROOT_STATE, 3, 0), (SL_GEN.GEN_OWN, 65535, 0)] with roster := [(s.serial, 0)] }) baseOn, 5, by decide⟩,
    ⟨(fun s : State => { st s [(SL_STAT.ROOT_STATE, 1, 0)] with roster := [(s.serial, 0)], sl := { s.sl with tEnd := 45 } }) baseOn, 5, by decide⟩,
    ⟨(fun s : State => { st s [(SL_STAT.PLEDGED, 1, 0), (SL_DRAW.PLEDGE, 5, 0), (SL_CFG.PLEDGE_PARAM, 15, 0)] with sl := { s.sl with pledgeHc := 0 } })
      baseOn, by decide⟩,
    ⟨(fun s : State => st s [(SL_STAT.PLEDGED, 1, 0), (SL_DRAW.PLEDGE, 5, 0)]) baseOn, (-4), by decide⟩,
    ⟨(fun s : State => { s.put FAB_STAT.ROOT 1 with fab := { s.fab with la := [anLa 0x014 1 [255,255,255,0]] } }) baseOn, anLa 0x014 1 [255,255,255,0],
      by decide⟩,
    ⟨(fun s : State => { st s [(SYS_ROLE.ROLE_ACT, 2, 0), (PE_GRP_LEASE.P_LEASE, 1000, 7)] with fab := { s.fab with la := [anLa 0x014 2 [0,128,0,0,255,255,255,255]] } })
      baseOn, anLa 0x014 2 [0,128,0,0,255,255,255,255], 7, by decide⟩,
    ⟨(fun s : State => st s [(SYS_SESS.STATE, 2, 7), (SYS_SESS.LEVEL, 3, 7)]) baseOn, 7, 16777216, by decide⟩,
    ⟨(fun s : State => { st s [(SL_STAT.ROOT_STATE, 2, 0), (SL_SITE.SITE_LIM, 4, 0), (SL_FLOOR_SUM.FLOOR_SUM, 0, 0)] with sl := { s.sl with holders := [(7, { serial := 9, draw := 5, at_ := 5, fresh := true })] } })
      baseOn, 5, 1, by decide⟩⟩

/-- The hypotheses of `PowerlineResults` can be met, clause by clause. -/
theorem witness_powerline_results :
    (∃ (s : State), s.runs 9 ∧ s.get PLC_STAT.STATE = 5 ∧ s.atAngle 0 ∧ s.tb.renum = none ∧ s.stamp / 2 ^ 24 % 2 = 0 ∧ s.plc.bcnAt ≠ some (s.stamp /
      2 ^ 24) ∧ 8 ≤ s.plc.periods ∧ s.plc.pend = none) ∧
    (∃ (s : State) (v16 : PlcAt) (serial node kcls klvl kprio bpc nstn succ ver verAt : Nat) (slots : List PlcSlot) (answers : List (Nat × Nat)),
      s.runs 9 ∧ s.get PLC_STAT.STATE = 3 ∧ bpc < 2 ^ 16 ∧ ((answers.find? fun a => a.1 == s.serial) = some (s.serial, 17)) ∧ s.get2
      PLC_COORD_SER_LO.SERIAL PLC_COORD_SER_HI.SERIAL = serial) ∧
    (∃ (s : State), s.runs 9 ∧ s.get PLC_STAT.STATE = 4 ∧ s.get PLC_BEACON.MISSED = 1) ∧
    (∃ (s : State), s.runs 9 ∧ s.get PLC_STAT.STATE = 3 ∧ s.get PLC_BEACON.MISSED = 3) ∧
    (∃ (s : State), s.runs 9 ∧ s.get PLC_STAT.STATE = 4 ∧ 2 ≤ s.plc.named) ∧
    (∃ (s : State) (n : Nat), s.runs 9 ∧ s.get PLC_STAT.STATE = 5 ∧ s.plc.succ = n ∧ n ≠ 0x3F ∧ 2 ≤ s.plc.succN ∧ (s.plcLink n).serial < 2 ^ 64) ∧
    (∃ (s : State) (stn sym : Nat) (q : List Nat), s.runs 9 ∧ s.get PLC_STAT.STATE = 5 ∧ stn ≠ 0x3F ∧ (s.plcLink stn).segs = [] ∧ (s.plcLink
      stn).queue = [(true, 0, q)] ∧ (s.plcLink stn).rest = [] ∧ q ≠ [] ∧ q.length ≤ 128 ∧ (s.plcLink stn).tm = 0 ∧ s.plc.acks = [] ∧ plcSymbols true 0
      [] [q.length] + 3 ≤ min sym s.plcLeft) ∧
    (∃ (s : State) (stn dst kcls klvl kprio bpc : Nat) (erased : PlcRx) (segs : List RxSeg) (q : Nat) (d : List Nat), s.runs 9 ∧ s.get PLC_STAT.STATE
      = 4 ∧ (s.plc.links.any fun p => p.1 == stn) ∧ dst = s.get PLC_STAT.STN ∧ dst ≠ 0x3F ∧ (s.plcLink stn).rxSeq = q ∧ (s.plcLink stn).rxHold = [] ∧ q
      < 2 ^ 16 ∧ erased.energy = [] ∧ s.plcMaySend ∧ (s.plcLink stn).part = none ∧ segs = [⟨q, d, true, false, 0xFF, 0⟩]) ∧
    (∃ (s : State) (stn ackSeq : Nat) (ackMap : PlcAck) (f : List Nat), s.runs 9 ∧ (s.plc.links.any fun p => p.1 == stn) ∧ (s.plcLink
      stn).unacked.find? (fun f => f.head? == some ackSeq) = some f) ∧
    (∃ (s : State) (stn : Nat) (g : TxSeg), (s.plcLink stn).segs = [g] ∧ (s.plcLink stn).rxHold = [] ∧ (s.get PLC_CTRL.RETRY < g.tries ∨ g.first + 2
      ^ 26 ≤ s.stamp) ∧ g.due ≤ s.plcClock) ∧
    (∃ (s : State) (src serial node : Nat), s.runs 9 ∧ s.get PLC_STAT.STATE = 5 ∧ s.plc.links = [] ∧ s.plc.answers = []) ∧
    (∃ (s : State) (serial node : Nat), s.runs 9 ∧ s.get PLC_STAT.STATE = 3 ∧ s.inContention ∧ s.plc.wait = 0 ∧ s.plcNow.2 + 2 + robustSymbols 4 (2 *
      infoBits 17) ≤ 160) ∧
    (∃ (s : State) (stn : Nat), s.runs 9 ∧ s.get PLC_STAT.STATE = 5 ∧ stn ≠ 0 ∧ stn ≠ 0x3F ∧ (s.plc.links.any fun p => p.1 == stn) ∧ (s.plcLink
      stn).heardAt + 4 * twoPeriods ≤ s.stamp) ∧
    (∃ (s : State) (stn : Nat), s.plcHas stn ∧ 6 ≤ s.plcLeft ∧ (s.plcLink stn).sound) ∧
    (∃ (s : State) (stn id rate : Nat) (codes : List Nat), s.plcHas stn ∧ (s.plcLink stn).sounded ∧ (s.plcLink stn).issued = 7) ∧
    (∃ (s : State) (stn id rate : Nat) (codes : List Nat), s.plcHas stn ∧ 2 ≤ id ∧ id ≤ 7 ∧ (codes.all fun k => decide (k < 7))) ∧
    (∃ (s : State) (stn secs : Nat), s.plcHas stn ∧ 30 ≤ secs) ∧
    (∃ (s : State) (stn : Nat), s.plcHas stn ∧ (4 ≤ ((s.plcLink stn).window.filter id).length ∨ 4 ≤ ((s.plcLink stn).txWindow.filter id).length)) ∧
    (∃ (s : State) (stn : Nat) (t1 t2 t3 t4 : Int) (stableMs : Nat), s.plcHas stn ∧ s.is FAB_CTRL.PLC_EN ∧ 2 ≤ s.plcLeft ∧ (s.plcLink stn).dly = [] ∧
      (s.plcLink stn).active = false) ∧
    (∃ (s : State) (ms : Nat), s.runs 9 ∧ 2 ≤ s.get PLC_STAT.STATE ∧ 1 ≤ ms) ∧
    (∃ (s : State), s.runs 9 ∧ s.get PLC_STAT.STATE = 1) :=
  ⟨⟨(fun s : State => { st s [(PLC_STAT.STATE, 5, 0), (TB_STAT.STATE, 2, 0), (TB_STAMP_LO.STAMP, 0, 0)] with
      plc := { s.plc with pend := none, periods := 8 } }) baseOn, by decide⟩,
    ⟨(fun s : State => st s [(PLC_STAT.STATE, 3, 0)]) baseOn, ⟨0, [5, 9]⟩, 0, 2, 1, 1, 1, 65535, 5, 63, 0, 3, [], [(0, 17)], by decide⟩,
    ⟨(fun s : State => st s [(PLC_STAT.STATE, 4, 0), (PLC_BEACON.MISSED, 1, 0)]) baseOn, by decide⟩,
    ⟨(fun s : State => st s [(PLC_STAT.STATE, 3, 0), (PLC_BEACON.MISSED, 3, 0)]) baseOn, by decide⟩,
    ⟨(fun s : State => { st s [(PLC_STAT.STATE, 4, 0), (PLC_STAT.NSTN, 3, 0)] with plc := { s.plc with named := 2 } }) baseOn, by decide⟩,
    ⟨(fun s : State => { s.put PLC_STAT.STATE 5 with plc := { s.plc with succ := 17, succN := 2, links := [(17, { serial := 9 })] } }) baseOn, 17, by
      decide⟩,
    ⟨(fun s : State => { st s [(PLC_STAT.STATE, 5, 0), (TB_STAT.STATE, 2, 0), (TB_STAMP_LO.STAMP, 1000000, 0)] with
      tb := { s.tb with floc := 5 * 10 ^ 12 }, plc := { s.plc with links := [(7, { serial := 9, queue := [(true, 0, [1, 2, 3])] })] } }) baseOn, 7, 100, [1,
      2, 3], by decide⟩,
    ⟨(fun s : State => { st s [(PLC_STAT.STATE, 4, 0), (PLC_STAT.STN, 5, 0), (TB_STAT.STATE, 2, 0)] with plc := { s.plc with links := [(0,
      { serial := 9, rxSeq := 65535 })] } }) baseOn, 0, 5, 1, 1, 1, 7, ⟨2, []⟩, [⟨65535, [1, 2], true, false, 0xFF, 0⟩], 65535, [1, 2], by decide⟩,
    ⟨(fun s : State => { s with plc := { s.plc with links := [(7,
      { serial := 9, segs := [⟨5, [1], 0, 1, 0, 9⟩, ⟨6, [1], 0, 1, 0, 9⟩], unacked := [[5, 6]] })] } }) baseOn, 7, 5, ⟨1, 2⟩, [5, 6], by decide⟩,
    ⟨(fun s : State => { s with plc := { s.plc with links := [(7, { serial := 9, segs := [⟨5, [1], 0, 8, 0, 0⟩] })] } }) baseOn, 7, ⟨5, [1], 0, 8, 0,
      0⟩, by decide⟩,
    ⟨(fun s : State => { s.put PLC_STAT.STATE 5 with plc := { s.plc with links := [], answers := [] } }) baseOn, 5, 77, 3, by decide⟩,
    ⟨(fun s : State => { st s [(PLC_STAT.STATE, 3, 0), (TB_STAT.STATE, 2, 0), (TB_STAMP_LO.STAMP, 5950000, 0)] with
      tb := { s.tb with floc := 5 * 10 ^ 12 }, plc := { s.plc with wait := 0 } }) baseOn, 77, 3, by decide⟩,
    ⟨(fun s : State => { st s [(PLC_STAT.STATE, 5, 0), (TB_STAMP_LO.STAMP, 268435456, 0)] with plc := { s.plc with links := [(17, { serial := 9 })] }
      }) baseOn, 17, by decide⟩,
    ⟨(fun s : State => { st s [(PLC_STAT.STATE, 5, 0), (TB_STAT.STATE, 2, 0), (TB_STAMP_LO.STAMP, 1000000, 0)] with
      tb := { s.tb with floc := 5 * 10 ^ 12 }, plc := { s.plc with links := [(7, { serial := 9, sound := true })] } }) baseOn, 7, by decide⟩,
    ⟨(fun s : State => { st s [(PLC_STAT.STATE, 4, 0), (TB_STAT.STATE, 2, 0)] with plc := { s.plc with links := [(0,
      { serial := 9, issued := 7, sounded := true })] } }) baseOn, 0, 0, 1, [6, 5, 4], by decide⟩,
    ⟨(fun s : State => { s.put PLC_STAT.STATE 4 with plc := { s.plc with links := [(0, { serial := 9 })] } }) baseOn, 0, 7, 1, [6, 5, 4], by decide⟩,
    ⟨(fun s : State => { s.put PLC_STAT.STATE 4 with plc := { s.plc with links := [(0, { serial := 9 })] } }) baseOn, 0, 30, by decide⟩,
    ⟨(fun s : State => { s.put PLC_STAT.STATE 4 with plc := { s.plc with links := [(0,
      { serial := 9, tm := 3, window := [true, true, true, true], txWindow := [true, true, true, true] })] } }) baseOn, 0, by decide⟩,
    ⟨(fun s : State => { st s [(PLC_STAT.STATE, 5, 0), (PLC_STAT.STN, 0, 0), (FAB_CTRL.PLC_EN, 1, 0), (TB_STAT.STATE, 2, 0), (TB_STAMP_LO.STAMP,
      1000000, 0)] with tb := { s.tb with floc := 5 * 10 ^ 12 }, plc := { s.plc with links := [(7, { serial := 9 })] } }) baseOn, 7, 0, 100, 200, 400,
      0, by decide⟩,
    ⟨(fun s : State => s.put PLC_STAT.STATE 5) baseOn, 1, by decide⟩,
    ⟨(fun s : State => s.put PLC_STAT.STATE 1) baseOn, by decide⟩⟩

/-- The hypotheses of `MetrologyResults` can be met, clause by clause. -/
theorem witness_metrology_results :
    (∃ (s : State) (p : Nat) (xv xi : BitVec 128), s.metRuns ∧ p < 8 ∧ s.is MET_PT_CFG.EN p ∧ s.get MET_PT_CFG.V_CH p = 0x1F ∧ s.chOk (s.get
      MET_PT_CFG.I_CH p) = false) ∧
    (∃ (s : State) (p : Nat) (xv xi : BitVec 128), s.metRuns ∧ p < 8 ∧ s.is MET_PT_CFG.EN p ∧ s.get MET_PT_CFG.V_CH p < 16 ∧ s.chOk (s.get
      MET_PT_CFG.V_CH p) ∧ s.chOk (s.get MET_PT_CFG.I_CH p) ∧ s.get MET_PT_CFG.V_CH p ≠ s.get MET_PT_CFG.I_CH p ∧ s.is MET_PT_CFG.POL p = false ∧ s.is
      MET_STAT.ACC ∧ s.is MET_PT_CFG.CAB_EN p = false ∧ s.geti MET_REF_CORR.REF_CORR = 0 ∧ clampN 1 100 (s.get MET_PT_NOM.I_START p) * s.get
      MET_PT_NOM.I_NOM p * 10 ≤ (s.ptValue (s.get MET_PT_CFG.I_CH p) (lineTake (sinc3 (modTake xi (s.pt p).modI)) (s.pt p).lineI)).natAbs) ∧
    (∃ (s : State) (c run p : Nat), s.chOn c ∧ 256 ≤ run ∧ p < 8 ∧ s.is MET_PT_CFG.EN p ∧ s.get MET_PT_CFG.I_CH p = c ∧ s.get MET_PT_CFG.V_CH p ≠ c ∧
      s.is MET_PT_STAT.VALID p) ∧
    (∃ (s : State) (c n p : Nat), s.chOn c ∧ 4 ≤ n ∧ p < 8 ∧ s.is MET_PT_CFG.EN p ∧ s.get MET_PT_CFG.V_CH p = c ∧ s.is MET_PT_STAT.VALID p) ∧
    (∃ (s : State) (c kind n : Nat), s.chOn c ∧ 1024 ≤ n) ∧
    (∃ (s : State) (p : Nat), p < 8 ∧ 16 ≤ (s.pt p).n ∧ (s.pt p).bad = false) ∧
    (∃ (s : State) (lateUs : Nat), s.cs.busy ∧ 1000 < lateUs) ∧
    (∃ (s : State) (lateUs t0 t1 : Nat) (i0 : Int), s.cs.busy ∧ lateUs ≤ 1000 ∧ s.is MET_PT_CFG.EN (s.get CS_CTRL.PT) ∧ (s.pt (s.get
      CS_CTRL.PT)).hist = [(t1, i0, true), (t0, i0, true)] ∧ 0 < t0 ∧ t0 ≤ s.cs.cur ∧ s.cs.cur ≤ t1) ∧
    (∃ (s : State) (p : Nat), s.metRuns ∧ s.runs 10 ∧ p < 8 ∧ s.is MET_PT_CFG.EN p ∧ s.get MET_PT_CAB_T.CAB_TSRC p < 48 ∧ s.get MET_PT_STAT.TFALL p =
      0 ∧ s.get TH_TS_STAT.STATE (s.get MET_PT_CAB_T.CAB_TSRC p) = 1) ∧
    (∃ (s : State) (p ms : Nat), s.metRuns ∧ p < 8 ∧ s.is MET_PT_CFG.EN p ∧ s.get MET_PT_CAB_T.CAB_TSRC p < 48 ∧ s.get MET_PT_STAT.TFALL p = 0 ∧ s.is
      MET_PT_CFG.LEGAL p = false ∧ 1000 ≤ ms) ∧
    (∃ (s : State) (p secs : Nat), s.metRuns ∧ p < 8 ∧ s.runs 10 ∧ s.get TH_CM_CFG.EN 1 = 1 ∧ s.get MET_PT_CAB_T.CAB_TSRC p = 0x41 ∧ s.get
      TH_CM_VAL.SUSPECT 1 = 0 ∧ s.get MET_PT_STAT.TFALL p = 1 ∧ s.is MET_PT_CFG.LEGAL p ∧ 10 ≤ secs) ∧
    (∃ (s : State) (sess p : Nat), p < 8 ∧ s.writeStatus sess MET_PT_CFG.EN = 0 ∧ s.ptCfgOk p) ∧
    (∃ (s : State) (sess p : Nat), p < 8 ∧ s.writeStatus sess MET_PT_CFG.EN = 0 ∧ s.ptCfgOk p = false) ∧
    (∃ (s : State) (sess mask p : Nat), p < 8 ∧ bit mask p ∧ s.writeStatus sess MET_SNAP.SNAP = 0 ∧ s.is MET_PT_CFG.EN p) ∧
    (∃ (s : State) (sess mask p : Nat), p < 8 ∧ bit mask p ∧ s.writeStatus sess MET_SNAP.SNAP = 0) ∧
    (∃ (s : State) (a : La) (p : Nat), s.laDue = some a ∧ a.ep = 0x016 ∧ a.op = 1 ∧ p < 8 ∧ bit (byteAt a.body 0) p ∧ s.is MET_PT_CFG.EN p) ∧
    (∃ (s : State) (a : La) (p : Nat), s.laDue = some a ∧ a.ep = 0x016 ∧ a.op = 2 ∧ p < 8 ∧ bit (byteAt a.body 0) p) ∧
    (∃ (s : State) (sess p : Nat), p < 8 ∧ s.writeStatus sess MET_PT_CTRL.PEAK_CLR = 0) ∧
    (∃ (s : State) (p n : Nat) (peak : List (BitVec 63)), s.metRuns ∧ p < 8 ∧ s.is MET_PT_CFG.EN p ∧ s.get MET_PT_OC.OC_TH p ≠ 0xFFFF ∧ bit (s.get
      MET_CH_FLT.STUCK) (s.get MET_PT_CFG.I_CH p) = false ∧ s.get MET_PT_STAT.OC p = 0 ∧ s.is MET_PT_CFG.LEGAL p = false ∧ s.is MET_PT_OC.OC_ACT p =
      false ∧ max 1 (s.get MET_PT_OC.OC_N p) ≤ (peak.take n).length ∧ ((peak.take n).all fun w => decide (s.get MET_PT_OC.OC_TH p * 10 ^ 5 <
      s.fastValue p w) || decide ((sinc2 w).natAbs = 2 ^ 23))) ∧
    (∃ (s : State) (p ms : Nat), s.metRuns ∧ p < 8 ∧ 1 ≤ ms) ∧
    (∃ (s : State) (n : Nat), s.pulRuns n ∧ ((s.pul n).m + 1) * s.pulWeight n ≤ (s.pul n).count ∧ (s.pul n).phase = 0 ∧ s.get MET_PUL_STAT.PEND n =
      0) ∧
    (∃ (s : State) (n : Nat), s.pulRuns n ∧ ((s.pul n).m + 1) * s.pulWeight n ≤ (s.pul n).count ∧ (s.pul n).phase = 1 ∧ s.get MET_PUL_STAT.PEND n <
      0xFFFF) ∧
    (∃ (s : State) (n tw : Nat), n < 8 ∧ (s.pul n).phase ≠ 0 ∧ 2 * max 2 (s.get MET_PUL_CFG.PW n) ≤ tw ∧ s.get MET_PUL_STAT.PEND n = 0) ∧
    (∃ (s : State) (secs : Nat), s.metRuns ∧ s.met.closed = false ∧ 60 ≤ secs) ∧
    (∃ (s : State) (secs : Nat), s.metRuns ∧ s.get MET_STAT.ACC = 0 ∧ s.met.closed = false ∧ s.is PWR_HOLDUP.HOLDUP_OK ∧ s.met.com.closing) ∧
    (∃ (s : State) (secs : Nat), s.metRuns ∧ s.get MET_STAT.ACC = 0 ∧ s.met.closed = false ∧ s.is PWR_HOLDUP.HOLDUP_OK ∧ s.met.com.closing = false) ∧
    (∃ (s : State) (sess confirm : Nat), s.writeStatus sess MET_SEAL.SET = 0 ∧ confirm % 2 ^ 16 = s.get SYS_SERIAL_LO.SERIAL % 2 ^ 16 ∧ s.isSealed =
      false ∧ s.is MET_PT_CFG.EN 7 ∧ s.is MET_PT_CFG.LEGAL 7 ∧ (((List.range 8).all fun p => !s.is MET_PT_CFG.EN p || !s.is MET_PT_CFG.LEGAL p || s.is
      MET_PT_STAT.VALID p)) ∧ s.moraineReserve = false) ∧
    (∃ (s : State) (sess confirm : Nat), s.writeStatus sess MET_SEAL.SET = 0 ∧ confirm % 2 ^ 16 ≠ s.get SYS_SERIAL_LO.SERIAL % 2 ^ 16) :=
  ⟨⟨(fun s : State => { st s [(MET_PT_CFG.EN, 1, 7), (MET_PT_CFG.V_CH, 31, 7), (MET_PT_CFG.I_CH, 15, 7), (MET_CH_SCALE.SCALE, 0, 15)] with
      met := { s.met with closed := false } }) baseMet, 7, 0, 0, by decide⟩,
    ⟨(fun s : State => st s [(MET_PT_CFG.EN, 1, 7), (MET_PT_CFG.POL, 0, 7), (MET_PT_CFG.CAB_EN, 0, 7), (MET_PT_CFG.V_CH, 14, 7), (MET_PT_CFG.I_CH,
      15, 7), (MET_CH_FLT.OVR, 0, 0), (MET_CH_FLT.STUCK, 0, 0), (MET_CH_SCALE.SCALE, 0x3F800000, 15), (MET_CH_SCALE.SCALE, 0x3F800000, 14),
      (MET_CH_GAIN.GAIN, 0x40000000, 15), (MET_CH_GAIN.GAIN, 0x40000000, 14), (MET_STAT.ACC, 1, 0), (MET_REF_CORR.REF_CORR, 0, 0)]) baseMet, 7, 5,
      BitVec.allOnes 128, by decide +kernel⟩,
    ⟨(fun s : State => st s [(MET_STAT.BANK_ON, 15, 0), (MET_PT_CFG.EN, 1, 7), (MET_PT_CFG.V_CH, 31, 7), (MET_PT_CFG.I_CH, 15, 7),
      (MET_PT_STAT.VALID, 1, 7)]) baseMet, 15, 256, 7, by decide⟩,
    ⟨(fun s : State => st s [(MET_STAT.BANK_ON, 15, 0), (MET_PT_CFG.EN, 1, 7), (MET_PT_CFG.V_CH, 15, 7), (MET_PT_CFG.I_CH, 4, 7), (MET_PT_STAT.VALID,
      1, 7)]) baseMet, 15, 4, 7, by decide⟩,
    ⟨(fun s : State => st s [(MET_STAT.BANK_ON, 15, 0), (MET_CH_FLT.STUCK, 0x8000, 0), (MET_CH_FLT.OVR, 0x8000, 0)]) baseMet, 15, 0, 1024, by
      decide⟩,
    ⟨(fun s : State => s.setPt 7 { n := 16, sumV := 640000000, sumI := -80000, sumP := -5000000000000, sumL := 100000000000 }) baseMet, 7, by
      decide⟩,
    ⟨(fun s : State => { s with cs := { s.cs with busy := true } }) baseMet, 1001, by decide⟩,
    ⟨(fun s : State => { (s.put MET_PT_CFG.EN 1 (s.get CS_CTRL.PT)).setPt (s.get CS_CTRL.PT) { hist := [(1000, 5000, true), (1000, 5000, true)] }
      with cs := { s.cs with busy := true, cur := 1000 } }) baseMet, 1000, 1000, 1000, 5000, by decide⟩,
    ⟨(fun s : State => st s [(MET_PT_CFG.EN, 1, 7), (MET_PT_CAB_T.CAB_TSRC, 47, 7), (TH_TS_STAT.STATE, 1, 47), (MET_PT_STAT.TFALL, 0, 7),
      (TH_TS_VAL.REP, 301, 47)]) baseMet, 7, by decide⟩,
    ⟨(fun s : State => st s [(MET_PT_CFG.EN, 1, 7), (MET_PT_CFG.LEGAL, 0, 7), (MET_PT_CAB_T.CAB_TSRC, 47, 7), (MET_PT_STAT.TFALL, 0, 7),
      (MET_PT_CAB_T.CAB_TFALL, 901, 7)]) baseMet, 7, 1000, by decide⟩,
    ⟨(fun s : State => st s [(MET_PT_CFG.LEGAL, 1, 7), (TH_CM_CFG.EN, 1, 1), (MET_PT_CAB_T.CAB_TSRC, 0x41, 7), (MET_PT_STAT.TFALL, 1, 7),
      (TH_CM_VAL.SUSPECT, 0, 1), (TH_CM_VAL.T, 402, 1)]) baseMet, 7, 10, by decide⟩,
    ⟨(fun s : State => st s [(SYS_SESS.STATE, 2, 7), (SYS_SESS.LEVEL, 3, 7), (SYS_ROLE.ROLE_ACT, 1, 0), (MET_PT_CFG.V_CH, 15, 7), (MET_PT_CFG.I_CH,
      14, 7), (MET_PT_NOM.I_NOM, 200, 7), (MET_PT_CFG.LEGAL, 0, 7)]) baseMet, 7, 7, by decide⟩,
    ⟨(fun s : State => st s [(SYS_SESS.STATE, 2, 7), (SYS_SESS.LEVEL, 3, 7), (SYS_ROLE.ROLE_ACT, 1, 0), (MET_PT_CFG.V_CH, 15, 7), (MET_PT_CFG.I_CH,
      15, 7), (MET_PT_NOM.I_NOM, 200, 7), (MET_PT_CFG.LEGAL, 0, 7)]) baseMet, 7, 7, by decide⟩,
    ⟨(fun s : State => st s [(SYS_SESS.STATE, 2, 7), (SYS_SESS.LEVEL, 3, 7), (SYS_ROLE.ROLE_ACT, 1, 0), (MET_PT_CFG.EN, 1, 7)]) baseMet, 7, 255, 7,
      by decide⟩,
    ⟨(fun s : State => (st s [(SYS_SESS.STATE, 2, 7), (SYS_SESS.LEVEL, 3, 7), (SYS_ROLE.ROLE_ACT, 1, 0), (MET_SNAP.SNAP, 255, 0)]).setPt 7 {
      snap := some ({}, 9, 0) }) baseMet, 7, 255, 7, by decide⟩,
    ⟨(fun s : State => { s.put MET_PT_CFG.EN 1 7 with fab := { s.fab with la := [anLa 0x016 1 [255]] } }) baseMet, anLa 0x016 1 [255], 7, by decide⟩,
    ⟨(fun s : State => { s with fab := { s.fab with la := [anLa 0x016 2 [255]] } }) baseMet, anLa 0x016 2 [255], 7, by decide⟩,
    ⟨(fun s : State => st s [(SYS_SESS.STATE, 2, 7), (SYS_SESS.LEVEL, 3, 7), (SYS_ROLE.ROLE_ACT, 1, 0), (MET_PT_PEAK_V.PEAK_V, 9, 7)]) baseMet, 7, 7,
      by decide⟩,
    ⟨(fun s : State => st s [(MET_PT_CFG.EN, 1, 7), (MET_PT_CFG.I_CH, 15, 7), (MET_CH_FLT.STUCK, 0, 0), (MET_PT_OC.OC_TH, 500, 7), (MET_PT_OC.OC_N,
      3, 7), (MET_PT_OC.OC_ACT, 0, 7), (MET_PT_STAT.OC, 0, 7), (MET_PT_CFG.LEGAL, 0, 7)]) baseMet, 7, 3, List.replicate 3 (BitVec.allOnes 63), by
      decide +kernel⟩,
    ⟨(fun s : State => s.put MET_PT_STAT.OC 1 7) baseMet, 7, 1, by decide⟩,
    ⟨(fun s : State => { st s [(MET_PUL_CFG.EN, 1, 7), (MET_PUL_WT.WT, 1, 7), (MET_PUL_CFG.QTY, 0, 7), (MET_PUL_STAT.PEND, 0, 7), (MET_STAT.ACC, 1,
      0)] with met := { (s.setPul 7 { m := 0, count := 3515625000000000 }).met with closed := false } }) baseMet, 7, by decide⟩,
    ⟨(fun s : State => { st s [(MET_PUL_CFG.EN, 1, 7), (MET_PUL_WT.WT, 1, 7), (MET_PUL_CFG.QTY, 0, 7), (MET_PUL_STAT.PEND, 0, 7), (MET_STAT.ACC, 1,
      0)] with met := { (s.setPul 7 { m := 0, phase := 1, count := 3515625000000000 }).met with closed := false } }) baseMet, 7, by decide⟩,
    ⟨(fun s : State => (st s [(MET_PUL_CFG.PW, 255, 7), (MET_PUL_STAT.PEND, 0, 7)]).setPul 7 { phase := 2 }) baseMet, 7, 65535, by decide⟩,
    ⟨(fun s : State => { s with met := { s.met with closed := false } }) baseMet, 60, by decide⟩,
    ⟨(fun s : State => { st s [(MET_STAT.ACC, 0, 0), (PWR_HOLDUP.HOLDUP_OK, 1, 0)] with met := { s.met with closed := false, com :=
      { s.met.com with closing := true } } }) baseMet, 4294967296, by decide⟩,
    ⟨(fun s : State => { st s [(MET_STAT.ACC, 0, 0), (PWR_HOLDUP.HOLDUP_OK, 1, 0)] with met := { s.met with closed := false, com :=
      { s.met.com with closing := false } } }) baseMet, 60, by decide⟩,
    ⟨(fun s : State => st s [(SYS_SESS.STATE, 2, 7), (SYS_SESS.LEVEL, 3, 7), (SYS_ROLE.ROLE_ACT, 1, 0), (MET_SEAL.SEALED, 0, 0), (MET_PT_CFG.EN, 1,
      7), (MET_PT_CFG.LEGAL, 1, 7), (MET_PT_STAT.VALID, 1, 7), (MET_PT_CFG.LEGAL, 0, 0), (MET_PT_CFG.LEGAL, 0, 1), (MET_PT_CFG.LEGAL, 0, 2),
      (MET_PT_CFG.LEGAL, 0, 3), (MET_PT_CFG.LEGAL, 0, 4), (MET_PT_CFG.LEGAL, 0, 5), (MET_PT_CFG.LEGAL, 0, 6), (SYS_SERIAL_LO.SERIAL, 43981, 0)])
      baseMet, 7, 43981, by decide⟩,
    ⟨(fun s : State => st s [(SYS_SESS.STATE, 2, 7), (SYS_SESS.LEVEL, 3, 7), (SYS_ROLE.ROLE_ACT, 1, 0)]) baseMet, 7, 1, by decide⟩⟩

/-- The hypotheses of `BillingResults` can be met, clause by clause. -/
theorem witness_billing_results :
    (∃ (s : State), s.runs 2 ∧ s.met.closed = false ∧ s.rtc + 1 < 2 ^ 32 ∧ s.is UPD_PKG_CMD.PEND = false) ∧
    (∃ (s : State), s.runs 2 = false ∧ s.rtc + 1 < 2 ^ 32) ∧
    (∃ (s : State) (sess : Nat), s.writeStatus sess BIL_CLK_CMD.REBASE = 0 ∧ s.get BIL_STAT.CLK_ST = 4 ∧ s.moraineReserve = false) ∧
    (∃ (s : State) (sess : Nat), s.writeStatus sess BIL_CLK_CMD.REBASE = 0 ∧ s.get BIL_STAT.CLK_ST ≠ 4) ∧
    (∃ (s : State) (sess : Nat), s.writeStatus sess BIL_CAL_CTRL.ACTIVATE = 0 ∧ s.moraineReserve = false ∧ s.calCheck (1 - s.calBank) = (1, 0)) ∧
    (∃ (s : State) (sess : Nat), s.writeStatus sess BIL_CAL_CTRL.ACTIVATE = 0 ∧ s.moraineReserve = false ∧ s.calCheck (1 - s.calBank) = (2, 0)) ∧
    (∃ (s : State) (sess : Nat), s.writeStatus sess BIL_PER_CMD.CLOSE = 0) ∧
    (∃ (s : State) (a : La), s.laDue = some a ∧ a.ep = 0x017 ∧ a.op = 1) ∧
    (∃ (s : State) (p conn id : Nat) (ident : List Nat) (stamp : Nat), s.legalPts.contains p ∧ s.bil.opn = [] ∧ s.bil.sess.length < 2048 ∧ s.get
      EVR_STAT.MOR_FULL = 0 ∧ s.met.closed = false ∧ s.bilRuns) ∧
    (∃ (s : State) (p conn id : Nat) (ident : List Nat) (stamp : Nat), s.legalPts.contains p ∧ s.bil.opn = [] ∧ 8192 ≤ s.evr.mor.length ∧
      s.bil.sess.length < 2048) ∧
    (∃ (s : State) (p reason stamp : Nat) (x0 : BSess), s.bil.opn = [(p, x0)] ∧ x0.closeAt = none) ∧
    (∃ (s : State) (sess n : Nat), s.writeStatus sess BIL_SESS_ACK.ACK_NUM = 0 ∧ s.get BIL_SESS_ACK.ACK_NUM ≤ n ∧ n < 2 ^ 32) ∧
    (∃ (s : State) (r : MRec), s.runs 2 ∧ s.bil.sess = [r] ∧ r.sig = none ∧ s.slotServes (1 + byteAt r.bytes 3) 0) ∧
    (∃ (s : State), s.tmp.cover = 1 ∧ s.tmp.term = 0 ∧ s.tmp.queue.length < 16) ∧
    (∃ (s : State), s.tmp.lid = 1 ∧ s.tmp.cover = 0 ∧ s.tmp.term = 0 ∧ s.get KV_STAT.DESTROYED = 0) ∧
    (∃ (s : State), s.runs 2 ∧ s.tmp.lost = 0) ∧
    (∃ (s : State) (sess : Nat), s.writeStatus sess BIL_TMP.TMP_ACK = 0 ∧ s.moraineReserve = false ∧ s.get BIL_TMP.TMP_PEND = 1 ∧ s.get BIL_TMP.COVER
      = 0 ∧ s.get BIL_TMP.TERM = 0) ∧
    (∃ (s : State) (sess : Nat), s.writeStatus sess BIL_TMP.TMP_ACK = 0 ∧ s.moraineReserve = false ∧ s.get BIL_TMP.COVER = 1) ∧
    (∃ (s : State), s.dispRuns) ∧
    (∃ (s : State), s.dispRuns) ∧
    (∃ (s : State) (ok : List Nat), s.dispRuns ∧ ok ≠ 0x06 :: leBytes 4 s.bil.dispCrc ∧ s.bil.dispMiss = 2 ∧ s.get BIL_DISP_STAT.DISP_FLT = 0) ∧
    (∃ (s : State) (secs : Nat), s.dispRuns ∧ s.get BIL_DISP_STAT.MANUAL = 0 ∧ s.bil.dispTest = 0 ∧ clampN 2 30 s.bil.dwell ≤ secs ∧ s.get
      BIL_DISP_STAT.PAGE + 1 < s.dispSeq.length ∧ s.get BIL_DISP_STAT.PAGE < 31) ∧
    (∃ (s : State), s.dispRuns ∧ s.bil.dispTest ≠ 0) ∧
    (∃ (s : State), s.dispRuns ∧ s.bil.dispTest = 0 ∧ s.dispSeq.length ≤ s.get BIL_DISP_STAT.PAGE + 1) ∧
    (∃ (s : State), s.dispRuns) ∧
    (∃ (s : State) (secs : Nat), s.dispRuns ∧ 60 ≤ secs) :=
  ⟨⟨(fun s : State => { st s [(SYS_RTC.UTC, 1000, 0), (UPD_PKG_CMD.PEND, 0, 0), (BIL_STAT.CLK_ST, 1, 0), (BIL_BT.BT, 1000, 0)] with
      met := { s.met with closed := false } }) baseMet, by decide⟩,
    ⟨(fun s : State => st s [(SYS_RTC.UTC, 1000, 0), (PWR_DOM_STAT.ON, 0xFFB, 0)]) baseMet, by decide⟩,
    ⟨(fun s : State => st s [(SYS_SESS.STATE, 2, 7), (SYS_SESS.LEVEL, 3, 7), (SYS_ROLE.ROLE_ACT, 7, 0), (BIL_STAT.CLK_ST, 4, 0), (SYS_RTC.UTC, 1000,
      0), (BIL_EPOCH.EPOCH, 65535, 0)]) baseMet, 7, by decide⟩,
    ⟨(fun s : State => st s [(SYS_SESS.STATE, 2, 7), (SYS_SESS.LEVEL, 3, 7), (SYS_ROLE.ROLE_ACT, 7, 0), (BIL_STAT.CLK_ST, 3, 0)]) baseMet, 7, by
      decide⟩,
    ⟨(fun s : State => { st s [(SYS_SESS.STATE, 2, 7), (SYS_SESS.LEVEL, 3, 7), (SYS_ROLE.ROLE_ACT, 7, 0), (BIL_TZ.DST_EN, 0, 0),
      (BIL_CAL_CTRL.ACT_BANK, 0, 0)] with bil := { s.bil with cal := [(2048, 17#32), (2304, 2147483648#32)] } }) baseMet, 7, by decide⟩,
    ⟨(fun s : State => { st s [(SYS_SESS.STATE, 2, 7), (SYS_SESS.LEVEL, 3, 7), (SYS_ROLE.ROLE_ACT, 7, 0)] with bil := { s.bil with cal := [] } })
      baseMet, 7, by decide⟩,
    ⟨(fun s : State => st s [(SYS_SESS.STATE, 2, 7), (SYS_SESS.LEVEL, 3, 7), (SYS_ROLE.ROLE_ACT, 7, 0)]) baseMet, 7, by decide⟩,
    ⟨(fun s : State => { s with fab := { s.fab with la := [anLa 0x017 1 []] } }) baseMet, anLa 0x017 1 [], by decide⟩,
    ⟨(fun s : State => { st s [(MET_PT_CFG.EN, 1, 7), (MET_PT_CFG.LEGAL, 1, 7), (BIL_BT.BT, 55, 0)] with met := { s.met with closed := false } })
      baseMet, 7, 1, 99, [1, 2], 500, by decide⟩,
    ⟨(fun s : State => fullMoraine { st s [(MET_PT_CFG.EN, 1, 7), (MET_PT_CFG.LEGAL, 1, 7)] with
      met := { s.met with closed := false } }) baseMet, 7, 1, 99, [1, 2], 500, by decide, by decide, Nat.le_of_eq
      (List.length_replicate).symm, by decide⟩,
    ⟨(fun s : State => { s with bil := { s.bil with opn := [(7, ⟨1, 9, [], 5, none, 7, 0, 0, none⟩)] } }) baseMet, 7, 3, 500, ⟨1, 9, [], 5, none, 7,
      0, 0, none⟩, by decide⟩,
    ⟨(fun s : State => { st s [(SYS_SESS.STATE, 2, 7), (SYS_SESS.LEVEL, 3, 7), (SYS_ROLE.ROLE_ACT, 7, 0), (BIL_STORE.SESS_FULL, 1, 0),
      (BIL_SESS_ACK.ACK_NUM, 4, 0)] with bil := { s.bil with sess := [⟨2, 0, 5, [], none⟩, ⟨2, 0, 6, [], none⟩] } }) baseMet, 7, 5, by decide⟩,
    ⟨(fun s : State => { st s [(SYS_READY.RDY, 0x3FFF, 0)] with
      vault := { s.vault with slots := [(1, { type := 4, use := 1, key := some [1] })] },
      bil := { s.bil with sess := [⟨2, 0, 5, [1, 2, 0, 0], none⟩] } }) baseMet, ⟨2, 0, 5, [1, 2, 0, 0], none⟩, by decide⟩,
    ⟨(fun s : State => { s with tmp := { s.tmp with cover := 1, term := 0, queue := [] } }) baseMet, by decide⟩,
    ⟨(fun s : State => { st s [(KV_STAT.DESTROYED, 0, 0), (SYS_RTC.UTC, 44, 0)] with tmp := { s.tmp with lid := 1, cover := 0, term := 0 } })
      baseMet, by decide⟩,
    ⟨(fun s : State => { s with tmp := { s.tmp with lost := 0, queue := [⟨true, true, 5, 6⟩, ⟨true, false, 7, 8⟩] } }) baseMet, by decide⟩,
    ⟨(fun s : State => st s [(SYS_SESS.STATE, 2, 7), (SYS_SESS.LEVEL, 3, 7), (SYS_ROLE.ROLE_ACT, 7, 0), (BIL_TMP.TMP_PEND, 1, 0)]) baseMet, 7, by
      decide⟩,
    ⟨(fun s : State => st s [(SYS_SESS.STATE, 2, 7), (SYS_SESS.LEVEL, 3, 7), (SYS_ROLE.ROLE_ACT, 7, 0), (BIL_TMP.TMP_PEND, 1, 0), (BIL_TMP.COVER, 1,
      0)]) baseMet, 7, by decide⟩,
    ⟨(fun s : State => st s [(BIL_DISP_CFG.DISP_EN, 1, 0)]) baseMet, by decide⟩,
    ⟨(fun s : State => { st s [(BIL_DISP_CFG.DISP_EN, 1, 0), (BIL_DISP_STAT.DISP_FLT, 1, 0)] with bil := { s.bil with dispMiss := 3 } }) baseMet, by
      decide⟩,
    ⟨(fun s : State => { st s [(BIL_DISP_CFG.DISP_EN, 1, 0), (BIL_DISP_STAT.DISP_FLT, 0, 0)] with bil := { s.bil with dispMiss := 2 } }) baseMet, [],
      by decide⟩,
    ⟨(fun s : State => st s [(BIL_DISP_CFG.DISP_EN, 1, 0), (BIL_DISP_STAT.MANUAL, 0, 0), (BIL_DISP_STAT.PAGE, 0, 0)]) baseMet, 30, by decide⟩,
    ⟨(fun s : State => { s.put BIL_DISP_CFG.DISP_EN 1 with bil := { s.bil with dispTest := 3 } }) baseMet, by decide⟩,
    ⟨(fun s : State => st s [(BIL_DISP_CFG.DISP_EN, 1, 0), (BIL_DISP_STAT.PAGE, 31, 0)]) baseMet, by decide⟩,
    ⟨(fun s : State => st s [(BIL_DISP_CFG.DISP_EN, 1, 0), (BIL_DISP_STAT.PAGE, 31, 0)]) baseMet, by decide⟩,
    ⟨(fun s : State => st s [(BIL_DISP_CFG.DISP_EN, 1, 0), (BIL_DISP_STAT.MANUAL, 1, 0)]) baseMet, 60, by decide⟩⟩

/-- The hypotheses of `VehicleStateResults` can be met, clause by clause. -/
theorem witness_vehicle_state_results :
    (∃ (s : State) (c mv n : Nat), s.vsRuns c ∧ 10000 ≤ mv ∧ 3 ≤ n ∧ (s.put VS_CONN_STAT.IL 1 c).fastCause c = none) ∧
    (∃ (s : State) (c mv n : Nat), s.vsRuns c ∧ mv ≤ 2000 ∧ 3 ≤ n ∧ s.get VS_CONN_STAT.STATE c = 6) ∧
    (∃ (s : State) (c mv ms : Nat), s.vsRuns c ∧ 10 ≤ ms ∧ s.get VS_PROX_TH.TH_NC c * 100 < mv ∧ s.get VS_CONN_STAT.STATE c = 1) ∧
    (∃ (s : State) (c ms : Nat), s.vsRuns c ∧ s.get VS_CONN_STAT.STATE c = 0 ∧ 100 ≤ ms ∧ s.get VS_CONN_STAT.PROX c = 2 ∧ s.get VS_CONN_STAT.IL c =
      1) ∧
    (∃ (s : State) (c : Nat), s.vsRuns c ∧ (s.conn c).link ∧ 1 ≤ s.get VS_CONN_STAT.STATE c ∧ s.slotSecc (s.get VS_SECC.CERT_SLOT)) ∧
    (∃ (s : State) (h : TlsHello), s.vsRuns h.conn ∧ s.get VS_CONN_STAT.STATE h.conn = 1 ∧ s.get VS_CONN_STAT.PROX h.conn = 2 ∧ tlsAccepted h) ∧
    (∃ (s : State) (h : TlsHello), s.get VS_CONN_STAT.PROX h.conn = 2 ∧ (h.v13 = false ∨ (h.suites.all fun x => x == .other) ∨ (h.curves.all fun x =>
      x == .x448 || x == .other))) ∧
    (∃ (s : State) (c ms : Nat), s.vsRuns c ∧ s.get VS_CONN_STAT.STATE c = 1 ∧ 20000 ≤ ms) ∧
    (∃ (s : State) (c : Nat), s.vsRuns c ∧ (s.conn c).tls ∧ (s.conn c).ccDone = false ∧ s.get VS_CONN_STAT.STATE c = 2 ∧ s.fastCause c = none ∧
      s.mayClose c ∧ s.lswRuns ∧ s.get SAF_STAT.ACTIVE = 0 ∧ s.get LSW_CH_STAT.STATE (s.get VS_CONN_CFG.LS_NEG c) = 0 ∧ bit s.lsw.hot (s.get
      VS_CONN_CFG.LS_NEG c) = false ∧ s.bankUnder (bankOf (s.get VS_CONN_CFG.LS_NEG c)) = false) ∧
    (∃ (s : State) (c ms : Nat), s.vsRuns c ∧ s.get VS_CONN_STAT.STATE c = 3 ∧ (s.conn c).plus = false ∧ 20 ≤ ms ∧ s.is PWR_HOLDUP.HOLDUP_OK ∧
      s.lswRuns ∧ s.get VS_CONN_CFG.LS_POS c < 16 ∧ s.get SAF_STAT.ACTIVE = 0 ∧ s.get LSW_CH_STAT.STATE (s.get VS_CONN_CFG.LS_POS c) = 0 ∧ bit
      s.lsw.hot (s.get VS_CONN_CFG.LS_POS c) = false ∧ s.bankUnder (bankOf (s.get VS_CONN_CFG.LS_POS c)) = false) ∧
    (∃ (s : State) (c ms : Nat), s.vsRuns c ∧ s.get VS_CONN_STAT.STATE c = 3 ∧ (s.conn c).plus ∧ 50 ≤ ms ∧ s.get VS_CONN_FEED.FEED_NODE c ≠ 0) ∧
    (∃ (s : State) (c ms isoMs : Nat), s.vsRuns c ∧ s.get VS_CONN_STAT.STATE c = 4 ∧ 1000 ≤ ms ∧ isoMs ≤ ms ∧ ((s.connV c : Int) - 1000 * (s.vCc c :
      Int)).natAbs ≤ 1000 * s.get VS_CONN_SEQ.PRE_TOL c ∧ (s.conn c).isoGood) ∧
    (∃ (s : State) (sess c v : Nat), s.writeStatus sess VS_CONN_AUTH.AUTH = 0 ∧ s.vsRuns c ∧ s.get VS_CONN_STAT.STATE c = 2 ∧ v = 1) ∧
    (∃ (s : State) (sess c v : Nat), s.writeStatus sess VS_CONN_AUTH.AUTH = 0 ∧ s.vsRuns c ∧ s.get VS_CONN_STAT.STATE c = 2 ∧ s.fastCause c = none ∧
      v = 2) ∧
    (∃ (s : State) (sess c v : Nat), s.writeStatus sess VS_CONN_AUTH.AUTH = 0 ∧ s.get VS_CONN_STAT.STATE c ≠ 2) ∧
    (∃ (s : State) (c : Nat) (w : AuthWait), s.vsRuns c ∧ s.get VS_CONN_STAT.STATE c = 2 ∧ (s.get VS_CONN_AUTH.AUTH c ≠ 1 ∨ w.wrote) ∧ s.get
      VS_SECC.AUTH_TMO ≤ w.secs ∧ s.fastCause c = none) ∧
    (∃ (s : State) (c f : Nat) (w : AuthWait), s.vsRuns c ∧ s.get VS_CONN_STAT.STATE c = 2 ∧ s.get VS_CONN_AUTH.AUTH c ≠ 1 ∧ w.wrote = false ∧ s.get
      VS_SECC.AUTH_TMO ≤ w.secs ∧ s.fastCause c = some f) ∧
    (∃ (s : State) (c ms : Nat), s.vsRuns c ∧ s.get VS_CONN_STAT.STATE c = 5 ∧ s.get VS_CONN_TMO.PRE_TMO c ≤ ms) ∧
    (∃ (s : State) (c ms : Nat), s.vsRuns c ∧ s.get VS_CONN_STAT.STATE c = 7 ∧ 10 ≤ ms ∧ s.limitsAre0 c ∧ s.decayed c ∧ (s.conn c).bill = false ∧
      s.get VS_CONN_FEED.FEED_NODE c ≠ 0 ∧ s.get SAF_STAT.ACTIVE = 0 ∧ s.runs 10 ∧ s.get SAF_STAT.FRZ = 0 ∧ s.get VS_CONN_CFG.LS_POS c < 16 ∧ s.get
      LSW_CH_STAT.STATE (s.get VS_CONN_CFG.LS_POS c) ≠ 4) ∧
    (∃ (s : State) (c ms : Nat), s.vsRuns c ∧ s.get VS_CONN_STAT.STATE c = 7 ∧ s.limitsAre0 c ∧ s.get VS_CONN_TMO.DECAY_T c ≤ ms ∧ s.get
      SAF_STAT.ACTIVE = 1) ∧
    (∃ (s : State) (c ms : Nat), s.vsRuns c ∧ s.get VS_CONN_STAT.STATE c = 8 ∧ 20 ≤ ms ∧ s.decayed c ∧ s.get SAF_STAT.ACTIVE = 0 ∧ s.runs 10 ∧ s.get
      SAF_STAT.FRZ = 0 ∧ s.get VS_CONN_CFG.LS_NEG c < 16 ∧ s.get LSW_CH_STAT.STATE (s.get VS_CONN_CFG.LS_NEG c) ≠ 4) ∧
    (∃ (s : State) (c ms : Nat), s.vsRuns c ∧ s.get VS_CONN_STAT.STATE c = 8 ∧ s.minusOpen c ∧ 50 ≤ ms ∧ s.is VS_CONN_CFG.WELD_EN c = false ∧ (s.conn
      c).ct = false) ∧
    (∃ (s : State) (c ms : Nat), s.vsRuns c ∧ s.get VS_CONN_STAT.STATE c = 8 ∧ s.minusOpen c ∧ 50 ≤ ms ∧ s.is VS_CONN_CFG.WELD_EN c = false ∧ (s.conn
      c).ct) ∧
    (∃ (s : State) (c ms : Nat), s.vsRuns c ∧ s.get VS_CONN_STAT.STATE c = 8 ∧ s.minusOpen c ∧ 50 ≤ ms ∧ s.is VS_CONN_CFG.WELD_EN c ∧ s.feedRev c ≠ 0
      ∧ s.get VS_CONN_STAT.PROX c ≠ 0) ∧
    (∃ (s : State) (c ms : Nat) (followed : Bool), s.vsRuns c ∧ s.get VS_CONN_STAT.STATE c = 9 ∧ 200 ≤ ms ∧ followed = false ∧ (s.conn c).ct = false)
      ∧
    (∃ (s : State) (c ms : Nat) (followed : Bool), s.vsRuns c ∧ s.get VS_CONN_STAT.STATE c = 9 ∧ 200 ≤ ms ∧ followed) ∧
    (∃ (s : State) (c ms : Nat), s.vsRuns c ∧ s.get VS_CONN_STAT.STATE c = 0xA ∧ s.get VS_CONN_STAT.PROX c = 0 ∧ 1000 ≤ ms) ∧
    (∃ (s : State) (sess c : Nat), s.writeStatus sess VS_CONN_CMD.STOP = 0 ∧ s.vsRuns c ∧ s.fastCause c = none ∧ s.get VS_CONN_STAT.STATE c = 6) ∧
    (∃ (s : State) (sess c : Nat), s.writeStatus sess VS_CONN_CMD.CLR = 0 ∧ s.vsRuns c ∧ s.get VS_CONN_STAT.STATE c = 0xB ∧ s.get VS_CONN_STAT.PROX c
      = 0) ∧
    (∃ (s : State) (a : La), s.laDue = some a ∧ a.ep = 0x018 ∧ a.op = 1 ∧ byteAt a.body 0 = 1 ∧ s.vsRuns 0 ∧ s.fastCause 0 = none ∧ s.get
      VS_CONN_STAT.STATE 0 = 6) ∧
    (∃ (s : State) (c : Nat) (seqTimeout : Bool), s.vsRuns c ∧ s.fastCause c = none ∧ seqTimeout ∧ s.get VS_CONN_STAT.STATE c = 2) ∧
    (∃ (s : State) (c : Nat) (seqTimeout : Bool), s.vsRuns c ∧ s.get VS_CONN_STAT.IL c ≠ 1 ∧ (3 ≤ s.get VS_CONN_STAT.STATE c ∧ s.get
      VS_CONN_STAT.STATE c ≤ 6)) ∧
    (∃ (s : State) (c : Nat) (seqTimeout : Bool), s.vsRuns c ∧ s.fastCause c = some 5 ∧ (3 ≤ s.get VS_CONN_STAT.STATE c ∧ s.get VS_CONN_STAT.STATE c
      ≤ 6)) ∧
    (∃ (s : State) (c : Nat), s.vsRuns c ∧ s.get VS_CONN_FEED.FEED_NODE c ≠ 0 ∧ (3 ≤ s.get VS_CONN_STAT.STATE c ∧ s.get VS_CONN_STAT.STATE c ≤ 6) ∧ 4
      ≤ (s.conn c).age) ∧
    (∃ (s : State) (c r : Nat), s.vsRuns c ∧ s.get CAN_BUF_CTRL.DIR (s.get VS_IMD_CFG.PORT c) (s.get VS_IMD_CFG.BUF c) = 1 ∧ r < 2 ^ 16 ∧ s.get
      VS_IMD_TH.R_WARN c ≤ r ∧ s.get VS_IMD_TH.R_FAULT c ≤ r) ∧
    (∃ (s : State) (c r : Nat), s.vsRuns c ∧ s.get CAN_BUF_CTRL.DIR (s.get VS_IMD_CFG.PORT c) (s.get VS_IMD_CFG.BUF c) = 1 ∧ s.get VS_CONN_STAT.STATE
      c = 6 ∧ r < s.get VS_IMD_TH.R_WARN c ∧ r < s.get VS_IMD_TH.R_FAULT c) ∧
    (∃ (s : State) (c ms : Nat), s.vsRuns c ∧ (3 ≤ s.get VS_CONN_STAT.STATE c ∧ s.get VS_CONN_STAT.STATE c ≤ 6) ∧ 100 * s.get VS_IMD_CFG.IMD_TMO c ≤
      ms) ∧
    (∃ (s : State) (c ms : Nat), s.vsRuns c ∧ s.get VS_CONN_STAT.STATE c = 4 ∧ 1000 ≤ s.feedV c ∧ s.vFollows c = false ∧ 100 ≤ ms) ∧
    (∃ (s : State) (c : Nat) (closed : Bool) (ms : Nat), s.vsRuns c ∧ (s.conn c).tls ∧ (closed ∨ 100 ≤ ms) ∧ s.get VS_CONN_STAT.STATE c = 2) :=
  ⟨⟨(fun s : State => (st s [(SYS_ROLE.ROLE_ACT, 4, 0), (SYS_ROLE.DISP_CONN, 2, 0), (VS_CONN_STAT.IL, 1, 1), (VS_CONN_STAT.PROX, 2, 1),
      (SAF_STAT.ACTIVE, 0, 0), (PE_GRP_STAT.STATE, 1, 0), (VS_CONN_STAT.IL, 0, 1)]).setConn 1 { tls := true }) baseOn, 1, 10000, 3, by decide⟩,
    ⟨(fun s : State => (st s [(SYS_ROLE.ROLE_ACT, 4, 0), (SYS_ROLE.DISP_CONN, 2, 0), (VS_CONN_STAT.IL, 1, 1), (VS_CONN_STAT.PROX, 2, 1),
      (SAF_STAT.ACTIVE, 0, 0), (PE_GRP_STAT.STATE, 1, 0), (VS_CONN_STAT.STATE, 6, 1)]).setConn 1 { tls := true, hi := 5, lo := -5 }) baseOn, 1, 2000,
      3, by decide⟩,
    ⟨(fun s : State => (st s [(SYS_ROLE.ROLE_ACT, 4, 0), (SYS_ROLE.DISP_CONN, 2, 0), (VS_CONN_STAT.STATE, 1, 1)]).setConn 1 { link := true }) baseOn,
      1, 99999, 10, by decide⟩,
    ⟨(fun s : State => st s [(SYS_ROLE.ROLE_ACT, 4, 0), (SYS_ROLE.DISP_CONN, 2, 0), (VS_CONN_STAT.IL, 1, 1), (VS_CONN_STAT.PROX, 2, 1),
      (SAF_STAT.ACTIVE, 0, 0), (PE_GRP_STAT.STATE, 1, 0), (VS_CONN_STAT.STATE, 0, 1), (VS_CONN_AUTH.AUTH, 1, 1)]) baseOn, 1, 100, by decide⟩,
    ⟨(fun s : State => { (st s [(SYS_ROLE.ROLE_ACT, 4, 0), (SYS_ROLE.DISP_CONN, 2, 0), (VS_CONN_STAT.STATE, 1, 1), (VS_SECC.CERT_SLOT, 63, 0),
      (SYS_READY.RDY, 0x3FFF, 0)]).setConn 1 { link := true } with vault := { s.vault with slots := [(63,
      { type := 4, use := 1, key := some [1], cert := some [2] })] } }) baseOn, 1, by decide⟩,
    ⟨(fun s : State => st s [(SYS_ROLE.ROLE_ACT, 4, 0), (SYS_ROLE.DISP_CONN, 2, 0), (VS_CONN_STAT.IL, 1, 1), (VS_CONN_STAT.PROX, 2, 1),
      (SAF_STAT.ACTIVE, 0, 0), (PE_GRP_STAT.STATE, 1, 0), (VS_CONN_STAT.STATE, 1, 1)]) baseOn, ⟨1, true, [.other, .aes256GcmSha384], [.x448, .p384]⟩,
      by decide⟩,
    ⟨(fun s : State => st s [(SYS_ROLE.ROLE_ACT, 4, 0), (SYS_ROLE.DISP_CONN, 2, 0), (VS_CONN_STAT.IL, 1, 1), (VS_CONN_STAT.PROX, 2, 1),
      (SAF_STAT.ACTIVE, 0, 0), (PE_GRP_STAT.STATE, 1, 0), (VS_CONN_STAT.STATE, 1, 1)]) baseOn, ⟨1, true, [.aes128GcmSha256], [.x448]⟩, by decide⟩,
    ⟨(fun s : State => st s [(SYS_ROLE.ROLE_ACT, 4, 0), (SYS_ROLE.DISP_CONN, 2, 0), (VS_CONN_STAT.IL, 1, 1), (VS_CONN_STAT.PROX, 2, 1),
      (SAF_STAT.ACTIVE, 0, 0), (PE_GRP_STAT.STATE, 1, 0), (VS_CONN_STAT.STATE, 1, 1)]) baseOn, 1, 20000, by decide⟩,
    ⟨(fun s : State => (st s [(SYS_ROLE.ROLE_ACT, 4, 0), (SYS_ROLE.DISP_CONN, 2, 0), (VS_CONN_STAT.IL, 1, 1), (VS_CONN_STAT.PROX, 2, 1),
      (SAF_STAT.ACTIVE, 0, 0), (PE_GRP_STAT.STATE, 1, 0), (VS_CONN_FEED.VLOOP, 63, 1), (VS_CONN_STAT.STATE, 2, 1), (VS_CONN_CFG.LS_POS, 14, 1),
      (VS_CONN_CFG.LS_NEG, 15, 1), (MET_PT_STAT.VALID, 1, 0), (PWR_HOLDUP.HOLDUP_OK, 1, 0)]).setConn 1 { tls := true }) baseOn, 1, by decide⟩,
    ⟨(fun s : State => (st s [(SYS_ROLE.ROLE_ACT, 4, 0), (SYS_ROLE.DISP_CONN, 2, 0), (VS_CONN_STAT.IL, 1, 1), (VS_CONN_STAT.PROX, 2, 1),
      (SAF_STAT.ACTIVE, 0, 0), (PE_GRP_STAT.STATE, 1, 0), (VS_CONN_STAT.STATE, 3, 1), (VS_CONN_CFG.LS_POS, 14, 1), (PWR_HOLDUP.HOLDUP_OK, 1,
      0)]).setConn 1 { tls := true }) baseOn, 1, 20, by decide⟩,
    ⟨(fun s : State => (st s [(SYS_ROLE.ROLE_ACT, 4, 0), (SYS_ROLE.DISP_CONN, 2, 0), (VS_CONN_STAT.IL, 1, 1), (VS_CONN_STAT.PROX, 2, 1),
      (SAF_STAT.ACTIVE, 0, 0), (PE_GRP_STAT.STATE, 1, 0), (VS_CONN_STAT.STATE, 3, 1), (VS_CONN_FEED.FEED_NODE, 5, 1), (VS_CONN_BPT.I_PRE, 3,
      1)]).setConn 1 { plus := true, vMax := 900 }) baseOn, 1, 50, by decide⟩,
    ⟨(fun s : State => (st s [(SYS_ROLE.ROLE_ACT, 4, 0), (SYS_ROLE.DISP_CONN, 2, 0), (VS_CONN_STAT.IL, 1, 1), (VS_CONN_STAT.PROX, 2, 1),
      (SAF_STAT.ACTIVE, 0, 0), (PE_GRP_STAT.STATE, 1, 0), (VS_CONN_STAT.STATE, 4, 1), (VS_CONN_RATING.V_CONN_MAX, 0, 1), (MET_PT_V.V, 0, 0)]).setConn 1
      { isoGood := true }) baseOn, 1, 1000, 1000, by decide⟩,
    ⟨(fun s : State => st s [(SYS_SESS.STATE, 2, 7), (SYS_SESS.LEVEL, 3, 7), (SYS_ROLE.ROLE_ACT, 4, 0), (SYS_ROLE.DISP_CONN, 2, 0),
      (VS_CONN_STAT.STATE, 2, 1)]) baseOn, 7, 1, 1, by decide⟩,
    ⟨(fun s : State => (st s [(SYS_SESS.STATE, 2, 7), (SYS_SESS.LEVEL, 3, 7), (SYS_ROLE.ROLE_ACT, 4, 0), (SYS_ROLE.DISP_CONN, 2, 0),
      (VS_CONN_STAT.IL, 1, 1), (VS_CONN_STAT.PROX, 2, 1), (SAF_STAT.ACTIVE, 0, 0), (PE_GRP_STAT.STATE, 1, 0), (VS_CONN_STAT.STATE, 2, 1)]).setConn 1
      { tls := true }) baseOn, 7, 1, 2, by decide⟩,
    ⟨(fun s : State => st s [(SYS_SESS.STATE, 2, 7), (SYS_SESS.LEVEL, 3, 7), (SYS_ROLE.ROLE_ACT, 4, 0), (SYS_ROLE.DISP_CONN, 2, 0),
      (VS_CONN_STAT.STATE, 6, 1)]) baseOn, 7, 1, 2, by decide⟩,
    ⟨(fun s : State => (st s [(SYS_ROLE.ROLE_ACT, 4, 0), (SYS_ROLE.DISP_CONN, 2, 0), (VS_CONN_STAT.IL, 1, 1), (VS_CONN_STAT.PROX, 2, 1),
      (SAF_STAT.ACTIVE, 0, 0), (PE_GRP_STAT.STATE, 1, 0), (VS_CONN_STAT.STATE, 2, 1), (VS_CONN_AUTH.AUTH, 1, 1)]).setConn 1 { tls := true }) baseOn, 1,
      ⟨65535, true⟩, by decide⟩,
    ⟨(fun s : State => (st s [(SYS_ROLE.ROLE_ACT, 4, 0), (SYS_ROLE.DISP_CONN, 2, 0), (VS_CONN_STAT.IL, 1, 1), (VS_CONN_STAT.PROX, 2, 1),
      (SAF_STAT.ACTIVE, 0, 0), (PE_GRP_STAT.STATE, 1, 0), (VS_CONN_STAT.STATE, 2, 1), (VS_CONN_STAT.PROX, 1, 1)]).setConn 1 { tls := true }) baseOn, 1,
      4, ⟨65535, false⟩, by decide⟩,
    ⟨(fun s : State => st s [(SYS_ROLE.ROLE_ACT, 4, 0), (SYS_ROLE.DISP_CONN, 2, 0), (VS_CONN_STAT.STATE, 5, 1)]) baseOn, 1, 65535, by decide⟩,
    ⟨(fun s : State => (st s [(SYS_ROLE.ROLE_ACT, 4, 0), (SYS_ROLE.DISP_CONN, 2, 0), (VS_CONN_STAT.IL, 1, 1), (VS_CONN_STAT.PROX, 2, 1),
      (SAF_STAT.ACTIVE, 0, 0), (PE_GRP_STAT.STATE, 1, 0), (VS_CONN_STAT.STATE, 7, 1), (VS_CONN_CFG.LS_POS, 14, 1), (LSW_CH_STAT.STATE, 1, 14),
      (VS_CONN_FEED.FEED_NODE, 5, 1)]).setConn 1 { plus := true }) baseOn, 1, 10, by decide⟩,
    ⟨(fun s : State => st s [(SYS_ROLE.ROLE_ACT, 4, 0), (SYS_ROLE.DISP_CONN, 2, 0), (VS_CONN_STAT.STATE, 7, 1), (SAF_STAT.ACTIVE, 1, 0)]) baseOn, 1,
      65535, by decide⟩,
    ⟨(fun s : State => st s [(SYS_ROLE.ROLE_ACT, 4, 0), (SYS_ROLE.DISP_CONN, 2, 0), (VS_CONN_STAT.STATE, 8, 1), (VS_CONN_CFG.LS_NEG, 15, 1),
      (LSW_CH_STAT.STATE, 1, 15)]) baseOn, 1, 20, by decide⟩,
    ⟨(fun s : State => (st s [(SYS_ROLE.ROLE_ACT, 4, 0), (SYS_ROLE.DISP_CONN, 2, 0), (VS_CONN_STAT.STATE, 8, 1), (VS_CONN_CFG.WELD_EN, 0,
      1)]).setConn 1 {}) baseOn, 1, 50, by decide⟩,
    ⟨(fun s : State => (st s [(SYS_ROLE.ROLE_ACT, 4, 0), (SYS_ROLE.DISP_CONN, 2, 0), (VS_CONN_STAT.STATE, 8, 1), (VS_CONN_CFG.WELD_EN, 0,
      1)]).setConn 1 { ct := true }) baseOn, 1, 50, by decide⟩,
    ⟨(fun s : State => (st s [(SYS_ROLE.ROLE_ACT, 4, 0), (SYS_ROLE.DISP_CONN, 2, 0), (VS_CONN_STAT.IL, 1, 1), (VS_CONN_STAT.PROX, 2, 1),
      (SAF_STAT.ACTIVE, 0, 0), (PE_GRP_STAT.STATE, 1, 0), (VS_CONN_STAT.STATE, 8, 1), (VS_CONN_CFG.WELD_EN, 1, 1), (VS_CONN_FEED.FEED_NODE, 5,
      1)]).setConn 1 { aRev := 30 }) baseOn, 1, 50, by decide⟩,
    ⟨(fun s : State => (st s [(SYS_ROLE.ROLE_ACT, 4, 0), (SYS_ROLE.DISP_CONN, 2, 0), (VS_CONN_STAT.STATE, 9, 1)]).setConn 1 { hi := 5, lo := -5 })
      baseOn, 1, 200, false, by decide⟩,
    ⟨(fun s : State => (st s [(SYS_ROLE.ROLE_ACT, 4, 0), (SYS_ROLE.DISP_CONN, 2, 0), (VS_CONN_STAT.STATE, 9, 1)]).setConn 1 { hi := 5, lo := -5 })
      baseOn, 1, 200, true, by decide⟩,
    ⟨(fun s : State => (st s [(SYS_ROLE.ROLE_ACT, 4, 0), (SYS_ROLE.DISP_CONN, 2, 0), (VS_CONN_STAT.STATE, 0xA, 1), (VS_CONN_STAT.PROX, 0, 1),
      (VS_CONN_STAT.END, 5, 1)]).setConn 1 { link := true, tls := true }) baseOn, 1, 1000, by decide⟩,
    ⟨(fun s : State => (st s [(SYS_SESS.STATE, 2, 7), (SYS_SESS.LEVEL, 3, 7), (SYS_ROLE.ROLE_ACT, 4, 0), (SYS_ROLE.DISP_CONN, 2, 0),
      (VS_CONN_STAT.IL, 1, 1), (VS_CONN_STAT.PROX, 2, 1), (SAF_STAT.ACTIVE, 0, 0), (PE_GRP_STAT.STATE, 1, 0), (VS_CONN_STAT.STATE, 6, 1)]).setConn 1
      { tls := true, hi := 5, standby := true }) baseOn, 7, 1, by decide⟩,
    ⟨(fun s : State => (st s [(SYS_SESS.STATE, 2, 7), (SYS_SESS.LEVEL, 3, 7), (SYS_ROLE.ROLE_ACT, 4, 0), (SYS_ROLE.DISP_CONN, 2, 0),
      (VS_CONN_STAT.STATE, 0xB, 1), (VS_CONN_STAT.PROX, 0, 1)]).setConn 1 { tls := true }) baseOn, 7, 1, by decide⟩,
    ⟨(fun s : State => { (st s [(SYS_ROLE.ROLE_ACT, 4, 0), (SYS_ROLE.DISP_CONN, 2, 0), (VS_CONN_STAT.IL, 1, 0), (VS_CONN_STAT.PROX, 2, 0),
      (SAF_STAT.ACTIVE, 0, 0), (PE_GRP_STAT.STATE, 1, 0), (VS_CONN_STAT.STATE, 6, 0)]).setConn 0 { tls := true } with
      fab := { s.fab with la := [anLa 0x018 1 [1]] } }) baseOn, anLa 0x018 1 [1], by decide⟩,
    ⟨(fun s : State => (st s [(SYS_ROLE.ROLE_ACT, 4, 0), (SYS_ROLE.DISP_CONN, 2, 0), (VS_CONN_STAT.IL, 1, 1), (VS_CONN_STAT.PROX, 2, 1),
      (SAF_STAT.ACTIVE, 0, 0), (PE_GRP_STAT.STATE, 1, 0), (VS_CONN_STAT.STATE, 2, 1)]).setConn 1 { tls := true }) baseOn, 1, true, by decide⟩,
    ⟨(fun s : State => (st s [(SYS_ROLE.ROLE_ACT, 4, 0), (SYS_ROLE.DISP_CONN, 2, 0), (VS_CONN_STAT.IL, 1, 1), (VS_CONN_STAT.PROX, 2, 1),
      (SAF_STAT.ACTIVE, 0, 0), (PE_GRP_STAT.STATE, 1, 0), (VS_CONN_STAT.STATE, 6, 1), (VS_CONN_STAT.IL, 2, 1)]).setConn 1 { tls := true, hi := 7 })
      baseOn, 1, false, by decide⟩,
    ⟨(fun s : State => (st s [(SYS_ROLE.ROLE_ACT, 4, 0), (SYS_ROLE.DISP_CONN, 2, 0), (VS_CONN_STAT.IL, 1, 1), (VS_CONN_STAT.PROX, 2, 1),
      (VS_CONN_STAT.STATE, 6, 1), (VS_CONN_ISO.R_ISO, 99, 1), (VS_IMD_TH.R_FAULT, 100, 1)]).setConn 1 { tls := true, iso := true }) baseOn, 1, false,
      by decide⟩,
    ⟨(fun s : State => (st s [(SYS_ROLE.ROLE_ACT, 4, 0), (SYS_ROLE.DISP_CONN, 2, 0), (VS_CONN_STAT.IL, 1, 1), (VS_CONN_STAT.PROX, 2, 1),
      (SAF_STAT.ACTIVE, 0, 0), (PE_GRP_STAT.STATE, 1, 0), (VS_CONN_STAT.STATE, 6, 1), (VS_CONN_FEED.FEED_NODE, 5, 1)]).setConn 1
      { tls := true, hi := 7, age := 4 }) baseOn, 1, by decide⟩,
    ⟨(fun s : State => (st s [(SYS_ROLE.ROLE_ACT, 4, 0), (SYS_ROLE.DISP_CONN, 2, 0), (VS_CONN_STAT.STATE, 6, 1), (VS_CONN_STAT.IMD_WARN, 1, 1)]).put
      CAN_BUF_CTRL.DIR 1 0 0) baseOn, 1, 65535, by decide⟩,
    ⟨(fun s : State => (st s [(SYS_ROLE.ROLE_ACT, 4, 0), (SYS_ROLE.DISP_CONN, 2, 0), (VS_CONN_STAT.STATE, 6, 1), (VS_IMD_TH.R_FAULT, 100, 1),
      (VS_IMD_TH.R_WARN, 200, 1)]).put CAN_BUF_CTRL.DIR 1 0 0) baseOn, 1, 99, by decide⟩,
    ⟨(fun s : State => st s [(SYS_ROLE.ROLE_ACT, 4, 0), (SYS_ROLE.DISP_CONN, 2, 0), (VS_CONN_STAT.STATE, 3, 1)]) baseOn, 1, 25500, by decide⟩,
    ⟨(fun s : State => (st s [(SYS_ROLE.ROLE_ACT, 4, 0), (SYS_ROLE.DISP_CONN, 2, 0), (VS_CONN_STAT.STATE, 4, 1), (MET_PT_V.V, 0, 0)]).setGrp 0 { pub
      := { v := 4000 } }) baseOn, 1, 100, by decide⟩,
    ⟨(fun s : State => (st s [(SYS_ROLE.ROLE_ACT, 4, 0), (SYS_ROLE.DISP_CONN, 2, 0), (VS_CONN_STAT.STATE, 2, 1)]).setConn 1 { tls := true }) baseOn,
      1, false, 100, by decide⟩⟩

/-- The hypotheses of `VehicleMessageResults` can be met, clause by clause. -/
theorem witness_vehicle_message_results :
    (∃ (s : State) (c : Nat), s.vsRuns c ∧ (s.conn c).tls ∧ s.get VS_CONN_STAT.STATE c < 0xA) ∧
    (∃ (s : State) (c : Nat), s.vsRuns c ∧ (s.conn c).tls ∧ 0xA ≤ s.get VS_CONN_STAT.STATE c) ∧
    (∃ (s : State) (c sid : Nat), s.vsRuns c ∧ (s.conn c).tls ∧ s.get VS_CONN_STAT.STATE c < 0xA) ∧
    (∃ (s : State) (c : Nat), s.vsRuns c ∧ (s.conn c).tls ∧ s.get VS_CONN_STAT.STATE c < 0xA) ∧
    (∃ (s : State) (c : Nat) (pnc : Bool) (ident : List Nat) (chainOk : ChainObs), s.vsRuns c ∧ (s.conn c).tls ∧ s.get VS_CONN_STAT.STATE c = 2 ∧
      s.get VS_CONN_STAT.ID c = 0 ∧ pnc = false ∧ s.is VS_CONN_CFG.EIM_EN c) ∧
    (∃ (s : State) (c : Nat) (pnc : Bool) (ident : List Nat) (chainOk : ChainObs), s.vsRuns c ∧ (s.conn c).tls ∧ s.get VS_CONN_STAT.STATE c = 2 ∧
      s.get VS_CONN_STAT.ID c ≠ 0) ∧
    (∃ (s : State) (c : Nat), s.vsRuns c ∧ (s.conn c).tls ∧ s.get VS_CONN_STAT.STATE c < 0xA) ∧
    (∃ (s : State) (c : Nat), s.vsRuns c ∧ (s.conn c).tls ∧ s.get VS_CONN_STAT.STATE c < 0xA) ∧
    (∃ (s : State) (c service mode : Nat), s.vsRuns c ∧ (s.conn c).tls ∧ s.get VS_CONN_STAT.STATE c < 0xA ∧ (service = 0 ∨ service = 1 ∧ s.is
      VS_CONN_CFG.BPT_EN c) ∧ (mode = 1 ∨ mode = 2 ∧ s.is VS_CONN_CFG.DYN_EN c)) ∧
    (∃ (s : State) (c vMax vMin iMax pMax : Nat) (iDisMax : EvDis), s.vsRuns c ∧ (s.conn c).tls ∧ s.get VS_CONN_STAT.STATE c < 6) ∧
    (∃ (s : State) (c : Nat), s.vsRuns c ∧ (s.conn c).tls ∧ s.get VS_CONN_STAT.STATE c < 6) ∧
    (∃ (s : State) (c v : Nat), s.vsRuns c ∧ (s.conn c).tls ∧ ((s.get VS_CONN_STAT.STATE c = 4 ∧ (s.conn c).ccDone) ∨ s.get VS_CONN_STAT.STATE c =
      5)) ∧
    (∃ (s : State) (c : Nat), s.vsRuns c ∧ (s.conn c).tls ∧ s.get VS_CONN_STAT.STATE c = 5 ∧ s.fastCause c = none ∧ s.legalPts.contains (s.connPt c)
      = false) ∧
    (∃ (s : State) (c : Nat), s.vsRuns c ∧ (s.conn c).tls ∧ s.get VS_CONN_STAT.STATE c = 5 ∧ s.fastCause c = none ∧ s.legalPts.contains (s.connPt c)
      ∧ s.bil.opn = [] ∧ s.bil.sess.length < 2048 ∧ 8192 ≤ s.evr.mor.length) ∧
    (∃ (s : State) (c : Nat), s.vsRuns c ∧ (s.conn c).tls ∧ s.get VS_CONN_STAT.STATE c = 6 ∧ (s.conn c).standby) ∧
    (∃ (s : State) (c : Nat), s.vsRuns c ∧ (s.conn c).tls ∧ s.get VS_CONN_STAT.STATE c = 6 ∧ s.fastCause c = none) ∧
    (∃ (s : State) (c : Nat), s.vsRuns c ∧ (s.conn c).tls ∧ s.get VS_CONN_STAT.STATE c = 6) ∧
    (∃ (s : State) (c : Nat), s.vsRuns c ∧ (s.conn c).tls ∧ s.get VS_CONN_STAT.STATE c < 0xA) ∧
    (∃ (s : State) (c v : Nat) (i : Int) (vMax vMin iMax pMax : Nat) (iDisMax : EvDis), s.vsRuns c ∧ (s.conn c).tls ∧ s.get VS_CONN_STAT.STATE c = 6
      ∧ s.get VS_CONN_STAT.MODE c ≠ 2 ∧ i.natAbs < 2 ^ 15) ∧
    (∃ (s : State) (c : Nat), s.vsRuns c ∧ (s.conn c).tls ∧ s.get VS_CONN_STAT.STATE c < 0xA) ∧
    (∃ (s : State) (c : Nat), s.vsRuns c ∧ (s.conn c).tls ∧ s.get VS_CONN_STAT.STATE c = 2 ∧ s.fastCause c = none) ∧
    (∃ (s : State) (c : Nat), s.vsRuns c ∧ s.get VS_CONN_STAT.STATE c ≠ 6) ∧
    (∃ (s : State) (c : Nat), s.vsRuns c ∧ s.get VS_CONN_STAT.STATE c = 6 ∧ s.get VS_CONN_STAT.DIR c = 0 ∧ s.get VS_CONN_STAT.MODE c ≠ 2 ∧ (s.conn
      c).standby = false ∧ (s.conn c).dir = false ∧ (s.conn c).viaZero = false) ∧
    (∃ (s : State) (c : Nat), s.vsRuns c ∧ s.get VS_CONN_STAT.STATE c = 7) ∧
    (∃ (s : State) (c : Nat), s.vsRuns c ∧ s.get VS_CONN_FEED.FEED_NODE c ≠ 0 ∧ s.fab.hold = false ∧ s.fab.ages.length < 4) ∧
    (∃ (s : State) (g : Nat) (c : NeedFrom) (flags need rTgt : Nat) (uMax uMin : Int) (rate : Nat), s.outGroup g ∧ s.runs 6 ∧ flags = 1 ∧ s.is
      PE_GRP_CTRL.EN g ∧ s.get PE_GRP_CTRL.LOOP g < 64) ∧
    (∃ (s : State) (g : Nat), s.outGroup g ∧ (s.needOf g).fed ∧ s.fab.hold = false ∧ s.fab.ages.length < 4) ∧
    (∃ (s : State) (c state : Nat) (lapsed : Bool) (exp cap p v : Nat) (i : Int) (rev : Nat), s.vsRuns c ∧ s.get VS_CONN_FEED.FEED_NODE c ≠ 0 ∧ s.get
      VS_CONN_STAT.STATE c < 2) ∧
    (∃ (s : State) (g : Nat), g < 8 ∧ (s.needOf g).fed ∧ 2 ≤ (s.needOf g).age ∧ s.get PE_GRP_CTRL.LOOP g < 64 ∧ s.get PE_GRP_CTRL.EN g = 0) :=
  ⟨⟨(fun s : State => (st s [(SYS_ROLE.ROLE_ACT, 4, 0), (SYS_ROLE.DISP_CONN, 2, 0), (VS_CONN_STAT.STATE, 2, 1)]).setConn 1 { tls := true }) baseOn,
      1, by decide⟩,
    ⟨(fun s : State => (st s [(SYS_ROLE.ROLE_ACT, 4, 0), (SYS_ROLE.DISP_CONN, 2, 0), (VS_CONN_STAT.STATE, 0xA, 1)]).setConn 1 { tls := true })
      baseOn, 1, by decide⟩,
    ⟨(fun s : State => (st s [(SYS_ROLE.ROLE_ACT, 4, 0), (SYS_ROLE.DISP_CONN, 2, 0), (VS_CONN_STAT.STATE, 2, 1)]).setConn 1 { tls := true }) baseOn,
      1, 4294967295, by decide⟩,
    ⟨(fun s : State => (st s [(SYS_ROLE.ROLE_ACT, 4, 0), (SYS_ROLE.DISP_CONN, 2, 0), (VS_CONN_STAT.STATE, 2, 1)]).setConn 1 { tls := true }) baseOn,
      1, by decide⟩,
    ⟨(fun s : State => (st s [(SYS_ROLE.ROLE_ACT, 4, 0), (SYS_ROLE.DISP_CONN, 2, 0), (VS_CONN_STAT.STATE, 2, 1), (VS_CONN_CFG.EIM_EN, 1, 1)]).setConn
      1 { tls := true }) baseOn, 1, false, [1, 2, 3, 4, 5], ⟨none, []⟩, by decide⟩,
    ⟨(fun s : State => (st s [(SYS_ROLE.ROLE_ACT, 4, 0), (SYS_ROLE.DISP_CONN, 2, 0), (VS_CONN_STAT.STATE, 2, 1), (VS_CONN_STAT.ID, 2, 1),
      (VS_CONN_AUTH.AUTH, 1, 1)]).setConn 1 { tls := true }) baseOn, 1, true, [], ⟨none, []⟩, by decide⟩,
    ⟨(fun s : State => (st s [(SYS_ROLE.ROLE_ACT, 4, 0), (SYS_ROLE.DISP_CONN, 2, 0), (VS_CONN_STAT.STATE, 2, 1), (VS_CONN_CFG.BPT_EN, 1, 1)]).setConn
      1 { tls := true }) baseOn, 1, by decide⟩,
    ⟨(fun s : State => (st s [(SYS_ROLE.ROLE_ACT, 4, 0), (SYS_ROLE.DISP_CONN, 2, 0), (VS_CONN_STAT.STATE, 2, 1), (VS_CONN_CFG.DYN_EN, 1, 1)]).setConn
      1 { tls := true }) baseOn, 1, by decide⟩,
    ⟨(fun s : State => (st s [(SYS_ROLE.ROLE_ACT, 4, 0), (SYS_ROLE.DISP_CONN, 2, 0), (VS_CONN_STAT.STATE, 2, 1), (VS_CONN_CFG.DYN_EN, 1, 1),
      (VS_CONN_CFG.BPT_EN, 1, 1)]).setConn 1 { tls := true }) baseOn, 1, 1, 2, by decide⟩,
    ⟨(fun s : State => (st s [(SYS_ROLE.ROLE_ACT, 4, 0), (SYS_ROLE.DISP_CONN, 2, 0), (VS_CONN_STAT.STATE, 2, 1), (VS_CONN_RATING.I_CONN_MAX, 400, 1),
      (PE_GRP_CAP.CAP, 300, 0), (VS_CONN_ALLOW.I_THASK, 0xFFFF, 1)]).setConn 1 { tls := true }) baseOn, 1, 900, 200, 400, 300, ⟨100, 80⟩, by decide⟩,
    ⟨(fun s : State => (st s [(SYS_ROLE.ROLE_ACT, 4, 0), (SYS_ROLE.DISP_CONN, 2, 0), (VS_CONN_STAT.STATE, 2, 1), (VS_CONN_RATING.I_CONN_MAX, 400, 1),
      (PE_GRP_CAP.CAP, 300, 0), (VS_CONN_ALLOW.I_THASK, 0xFFFF, 1)]).setConn 1 { tls := true }) baseOn, 1, by decide⟩,
    ⟨(fun s : State => (st s [(SYS_ROLE.ROLE_ACT, 4, 0), (SYS_ROLE.DISP_CONN, 2, 0), (VS_CONN_STAT.STATE, 4, 1)]).setConn 1
      { tls := true, ccDone := true }) baseOn, 1, 400, by decide⟩,
    ⟨(fun s : State => (st s [(SYS_ROLE.ROLE_ACT, 4, 0), (SYS_ROLE.DISP_CONN, 2, 0), (VS_CONN_STAT.IL, 1, 1), (VS_CONN_STAT.PROX, 2, 1),
      (SAF_STAT.ACTIVE, 0, 0), (PE_GRP_STAT.STATE, 1, 0), (VS_CONN_STAT.STATE, 5, 1)]).setConn 1 { tls := true }) baseOn, 1, by decide⟩,
    ⟨(fun s : State => fullMoraine ((st s [(SYS_ROLE.ROLE_ACT, 4, 0), (SYS_ROLE.DISP_CONN, 2, 0), (VS_CONN_STAT.IL, 1, 1), (VS_CONN_STAT.PROX, 2, 1),
      (SAF_STAT.ACTIVE, 0, 0), (PE_GRP_STAT.STATE, 1, 0), (VS_CONN_STAT.STATE, 5, 1), (MET_PT_CFG.EN, 1, 0), (MET_PT_CFG.LEGAL, 1, 0)]).setConn 1
      { tls := true })) baseOn, 1, by decide, by decide, by decide, by decide, by
      decide, by decide, by decide, Nat.le_of_eq (List.length_replicate).symm⟩,
    ⟨(fun s : State => (st s [(SYS_ROLE.ROLE_ACT, 4, 0), (SYS_ROLE.DISP_CONN, 2, 0), (VS_CONN_STAT.IL, 1, 1), (VS_CONN_STAT.PROX, 2, 1),
      (VS_CONN_STAT.STATE, 6, 1)]).setConn 1 { tls := true, standby := true }) baseOn, 1, by decide⟩,
    ⟨(fun s : State => (st s [(SYS_ROLE.ROLE_ACT, 4, 0), (SYS_ROLE.DISP_CONN, 2, 0), (VS_CONN_STAT.IL, 1, 1), (VS_CONN_STAT.PROX, 2, 1),
      (SAF_STAT.ACTIVE, 0, 0), (PE_GRP_STAT.STATE, 1, 0), (VS_CONN_STAT.STATE, 6, 1)]).setConn 1 { tls := true, standby := true }) baseOn, 1, by
      decide⟩,
    ⟨(fun s : State => (st s [(SYS_ROLE.ROLE_ACT, 4, 0), (SYS_ROLE.DISP_CONN, 2, 0), (VS_CONN_STAT.STATE, 6, 1)]).setConn 1 { tls := true }) baseOn,
      1, by decide⟩,
    ⟨(fun s : State => (st s [(SYS_ROLE.ROLE_ACT, 4, 0), (SYS_ROLE.DISP_CONN, 2, 0), (VS_CONN_STAT.STATE, 6, 1)]).setConn 1 { tls := true }) baseOn,
      1, by decide⟩,
    ⟨(fun s : State => (st s [(SYS_ROLE.ROLE_ACT, 4, 0), (SYS_ROLE.DISP_CONN, 2, 0), (VS_CONN_STAT.STATE, 6, 1), (VS_CONN_STAT.MODE, 1, 1)]).setConn
      1 { tls := true }) baseOn, 1, 400, (-32767), 900, 200, 400, 300, ⟨100, 80⟩, by decide⟩,
    ⟨(fun s : State => (st s [(SYS_ROLE.ROLE_ACT, 4, 0), (SYS_ROLE.DISP_CONN, 2, 0), (VS_CONN_STAT.STATE, 9, 1)]).setConn 1 { tls := true }) baseOn,
      1, by decide⟩,
    ⟨(fun s : State => (st s [(SYS_ROLE.ROLE_ACT, 4, 0), (SYS_ROLE.DISP_CONN, 2, 0), (VS_CONN_STAT.IL, 1, 1), (VS_CONN_STAT.PROX, 2, 1),
      (SAF_STAT.ACTIVE, 0, 0), (PE_GRP_STAT.STATE, 1, 0), (VS_CONN_STAT.STATE, 2, 1)]).setConn 1 { tls := true }) baseOn, 1, by decide⟩,
    ⟨(fun s : State => st s [(SYS_ROLE.ROLE_ACT, 4, 0), (SYS_ROLE.DISP_CONN, 2, 0), (VS_CONN_STAT.STATE, 2, 1), (VS_CONN_RATING.I_CONN_MAX, 400, 1),
      (PE_GRP_CAP.CAP, 300, 0), (VS_CONN_ALLOW.I_THASK, 0xFFFF, 1)]) baseOn, 1, by decide⟩,
    ⟨(fun s : State => (st s [(SYS_ROLE.ROLE_ACT, 4, 0), (SYS_ROLE.DISP_CONN, 2, 0), (VS_CONN_STAT.STATE, 6, 1), (VS_CONN_SEQ.I_RAMP, 20, 1),
      (VS_CONN_FEED.VLOOP, 63, 1)]).setConn 1 { tls := true, vTarget := 800, lo := -50 }) baseOn, 1, by decide⟩,
    ⟨(fun s : State => (st s [(SYS_ROLE.ROLE_ACT, 4, 0), (SYS_ROLE.DISP_CONN, 2, 0), (VS_CONN_STAT.STATE, 7, 1), (VS_CONN_SEQ.I_RAMP, 20, 1),
      (VS_CONN_FEED.VLOOP, 63, 1)]).setConn 1 { tls := true, vTarget := 800, hi := 50, lo := -50 }) baseOn, 1, by decide⟩,
    ⟨(fun s : State => st s [(SYS_ROLE.ROLE_ACT, 4, 0), (SYS_ROLE.DISP_CONN, 2, 0), (VS_CONN_STAT.STATE, 6, 1), (VS_CONN_FEED.FEED_NODE, 5, 1)])
      baseOn, 1, by decide⟩,
    ⟨(fun s : State => st s [(SYS_ROLE.ROLE_ACT, 2, 0), (PE_GRP_CTRL.EN, 1, 7), (PE_GRP_CTRL.LOOP, 63, 7)]) baseOn, 7, ⟨9, 1⟩, 1, 300, 800, 400,
      (-100), 5000, by decide⟩,
    ⟨(fun s : State => (st s [(SYS_ROLE.ROLE_ACT, 2, 0)]).setNeed 7 { fed := true, conn := 1 }) baseOn, 7, by decide⟩,
    ⟨(fun s : State => st s [(SYS_ROLE.ROLE_ACT, 4, 0), (SYS_ROLE.DISP_CONN, 2, 0), (VS_CONN_STAT.STATE, 1, 1), (VS_CONN_FEED.FEED_NODE, 5, 1)])
      baseOn, 1, 1, false, 9, 300, 200, 800, (-5), 7, by decide⟩,
    ⟨(fun s : State => (st s [(PE_GRP_CTRL.LOOP, 63, 7), (PE_GRP_CTRL.EN, 0, 7)]).setNeed 7 { fed := true, conn := 1, age := 2 }) baseOn, 7, by
      decide⟩⟩

/-- The hypotheses of `ThermalSensorResults` can be met, clause by clause. -/
theorem witness_thermal_sensor_results :
    (∃ (s : State) (n mOhm : Nat) (v : Int), s.runs 10 ∧ n < 48 ∧ (s.get TH_TS_CFG.TYPE n = 1 ∨ s.get TH_TS_CFG.TYPE n = 2) ∧ s.convert n mOhm = some
      v ∧ v.natAbs < 2 ^ 15) ∧
    (∃ (s : State) (n mOhm : Nat), s.runs 10 ∧ n < 48 ∧ (s.get TH_TS_CFG.TYPE n = 1 ∨ s.get TH_TS_CFG.TYPE n = 2) ∧ s.convert n mOhm = none ∧ s.get
      TH_TS_STAT.STATE n ≠ 0) ∧
    (∃ (s : State) (n mOhm : Nat) (v : Int), s.runs 10 ∧ n < 48 ∧ s.get TH_TS_CFG.TYPE n = 2 ∧ s.get TH_TS_CFG.XGRP n = 31 ∧ s.convert n mOhm = some
      v ∧ v.natAbs < 2 ^ 15 ∧ s.get TH_TS_STAT.STATE n = 1 ∧ bit s.th.band n = false ∧ s.snowLine n ≤ v) ∧
    (∃ (s : State) (n k : Nat), s.runs 10 ∧ n < 48 ∧ s.tsOn n ∧ 3 ≤ k ∧ s.get TH_TS_STAT.STATE n ≠ 3 ∧ ((s.tsGroup n).all fun m => bit s.th.band m))
      ∧
    (∃ (s : State) (n secs : Nat), s.runs 10 ∧ n < 48 ∧ s.get TH_TS_STAT.STATE n = 3 ∧ 10 ≤ secs ∧ s.tableOk n ∧ ((s.tsGroup n).all fun m => bit
      s.th.band m)) ∧
    (∃ (s : State) (n k d : Nat), s.runs 10 ∧ n < 48 ∧ s.get TH_TS_STAT.STATE n = 1 ∧ s.get TH_TS_CFG.XGRP n < 16 ∧ max 1 (s.get TH_XGRP.NX (s.get
      TH_TS_CFG.XGRP n)) ≤ k ∧ s.deviation n = some d ∧ s.get TH_XGRP.TOL (s.get TH_TS_CFG.XGRP n) < d ∧ (((s.xgroup n).filter fun m => s.tst m !=
      3).length ≠ 2) ∧ ((s.tsGroup n).all fun m => bit s.th.band m)) ∧
    (∃ (s : State) (n secs : Nat), s.runs 10 ∧ n < 48 ∧ s.get TH_TS_STAT.STATE n = 2 ∧ 10 ≤ secs ∧ s.withinHalf n ∧ ((s.tsGroup n).all fun m => bit
      s.th.band m)) ∧
    (∃ (s : State) (n k : Nat), s.runs 10 ∧ n < 48 ∧ bit s.th.band n ∧ 1000 ≤ k ∧ s.geti TH_TS_VAL.REP n < s.snowLine n - 10 ∧ bit (s.get
      SYS_READY.RDY) 9 ∧ (((s.xgroup n).all fun m => m == n || !bit s.th.band m))) ∧
    (∃ (s : State) (m k : Nat), s.runs 10 ∧ m < 48 ∧ s.get TH_TS_STAT.STATE m ≠ 0 ∧ s.deb ≤ k ∧ s.get TH_TS_STAT.WARN m = 0 ∧ s.reaches m (s.memWarn
      m)) ∧
    (∃ (s : State) (m k : Nat), s.runs 10 ∧ m = 0x41 ∧ s.is TH_CM_CFG.EN 1 ∧ s.deb ≤ k ∧ bit s.th.cmWarn 1 ∧ s.reaches m (s.memWarn m - 10) = false)
      ∧
    (∃ (s : State) (m : Nat), s.runs 10 ∧ m < 2 ∧ s.is TH_CM_CFG.EN m ∧ s.is MET_PT_STAT.VALID (s.get TH_CM_CFG.PT m) ∧ s.coolLost m = false ∧ s.cm =
      [(m, 0)] ∧ s.get TH_CM_PAR2.RTH m = 0) ∧
    (∃ (s : State) (m : Nat), s.runs 10 ∧ m < 2 ∧ s.is TH_CM_CFG.EN m ∧ s.is MET_PT_STAT.VALID (s.get TH_CM_CFG.PT m) = false ∧ s.get
      TH_CM_VAL.SUSPECT m = 0) ∧
    (∃ (s : State) (i : Nat) (v : Int), s.runs 10 ∧ 4 ≤ i ∧ i < 16 ∧ v.natAbs < 2 ^ 15 ∧ s.get TH_INT_VAL.EXCL i = 0 ∧ 1350 ≤ v ∧ bit s.th.intWarn i
      = false) ∧
    (∃ (s : State) (i : Nat) (v : Int), s.runs 10 ∧ 4 ≤ i ∧ i < 16 ∧ v.natAbs < 2 ^ 15 ∧ v < 1350) ∧
    (∃ (s : State) (i k : Nat), s.runs 10 ∧ i < 16 ∧ 3 ≤ k ∧ (intLevels i).2 ≤ s.intRep i ∧ s.get SAF_STAT.ACTIVE = 1) :=
  ⟨⟨(fun s : State => st s [(TH_TS_CFG.TYPE, 1, 47)]) baseOn, 47, 100000, 0, by decide⟩,
    ⟨(fun s : State => st s [(TH_TS_CFG.TYPE, 1, 47), (TH_TS_STAT.STATE, 1, 47)]) baseOn, 47, 194101, by decide⟩,
    ⟨(fun s : State => st s [(TH_TS_CFG.TYPE, 2, 47), (TH_TS_CFG.XGRP, 31, 47), (TH_TS_STAT.STATE, 1, 47), (TH_TS_LIM.WARN, 0, 47), (TH_CTRL.SNOW,
      50, 0)]) baseOn, 47, 1000000, 0, by decide +kernel⟩,
    ⟨(fun s : State => { st s [(TH_TS_CFG.TYPE, 1, 47), (TH_TS_CFG.XGRP, 31, 47), (TH_TS_STAT.STATE, 1, 47)] with th := { s.th with band := 2 ^ 47 }
      }) baseOn, 47, 3, by decide⟩,
    ⟨(fun s : State => { st s [(TH_TS_CFG.TYPE, 1, 47), (TH_TS_CFG.XGRP, 31, 47), (TH_TS_STAT.STATE, 3, 47), (TH_TS_VAL.RAW, 300, 47),
      (TH_TS_VAL.REP, 900, 47)] with th := { s.th with band := 2 ^ 47 } }) baseOn, 47, 10, by decide⟩,
    ⟨(fun s : State => { st s [(TH_TS_CFG.XGRP, 0, 47), (TH_TS_CFG.XGRP, 0, 46), (TH_TS_CFG.XGRP, 0, 45), (TH_TS_STAT.STATE, 1, 47),
      (TH_TS_STAT.STATE, 1, 46), (TH_TS_STAT.STATE, 1, 45), (TH_TS_VAL.RAW, 500, 47), (TH_TS_VAL.RAW, 200, 46), (TH_TS_VAL.RAW, 200, 45), (TH_XGRP.TOL,
      50, 0), (TH_XGRP.NX, 3, 0)] with th := { s.th with band := 2 ^ 48 - 1 } }) baseOn, 47, 3, 300, by decide +kernel⟩,
    ⟨(fun s : State => { st s [(TH_TS_CFG.XGRP, 0, 47), (TH_TS_CFG.XGRP, 0, 46), (TH_TS_STAT.STATE, 2, 47), (TH_TS_STAT.STATE, 1, 46),
      (TH_TS_VAL.RAW, 300, 47), (TH_TS_VAL.RAW, 325, 46), (TH_TS_VAL.REP, 900, 47), (TH_XGRP.TOL, 50, 0)] with th := { s.th with band := 2 ^ 48 - 1 }
      }) baseOn, 47, 10, by decide +kernel⟩,
    ⟨(fun s : State => { st s [(TH_TS_STAT.SNOW, 1, 47), (TH_TS_LIM.WARN, 80, 47), (TH_CTRL.SNOW, 100, 0), (TH_TS_VAL.REP, 300, 47), (SYS_READY.RDY,
      0x200, 0)] with th := { s.th with band := 2 ^ 47 } }) baseOn, 47, 1000, by decide +kernel⟩,
    ⟨(fun s : State => st s [(TH_TS_STAT.STATE, 1, 47), (TH_TS_LIM.WARN, 80, 47), (TH_TS_VAL.REP, 800, 47), (TH_CTRL.DEB, 3, 0)]) baseOn, 47, 3, by
      decide⟩,
    ⟨(fun s : State => { st s [(TH_CM_CFG.EN, 1, 1), (TH_CM_LIM.WARN, 80, 1), (TH_CM_VAL.T, 700, 1), (TH_CTRL.DEB, 3, 0)] with
      th := { s.th with cmWarn := 2 } }) baseOn, 65, 3, by decide⟩,
    ⟨(fun s : State =>
      { st s [(TH_CM_CFG.EN, 1, 1), (MET_PT_STAT.VALID, 1, 0), (TH_CM_PAR2.TAU, 100, 1), (TH_TS_VAL.REP, 300, 0), (MET_PT_I.I, 99, 0)] with cm := [(1, 0)] })
      baseOn, 1, by decide⟩,
    ⟨(fun s : State => st s [(TH_CM_CFG.EN, 1, 1), (MET_PT_STAT.VALID, 0, 0), (TH_CM_VAL.SUSPECT, 0, 1)]) baseOn, 1, by decide⟩,
    ⟨baseOn, 15, 1350, by decide⟩,
    ⟨(fun s : State => { s with th := { s.th with intWarn := 32768 } }) baseOn, 15, (-400), by decide⟩,
    ⟨(fun s : State => st s [(TH_INT_VAL.T, 1500, 15), (SAF_STAT.ACTIVE, 1, 0)]) baseOn, 15, 3, by decide⟩⟩

/-- The hypotheses of `ThermalZoneResults` can be met, clause by clause. -/
theorem witness_thermal_zone_results :
    (∃ (s : State) (z m k : Nat), s.zoneOn z ∧ s.get TH_ZONE_STAT.STATE z = 0 ∧ (s.members z).contains m ∧ s.deb ≤ k ∧ s.reaches m (s.memThr m) ∧
      s.zoneHot z = false) ∧
    (∃ (s : State) (z m k : Nat), s.zoneHot z) ∧
    (∃ (s : State) (z tw : Nat), s.zoneOn z ∧ s.get TH_ZONE_STAT.STATE z = 1 ∧ s.zoneHot z = false ∧ s.zoneLeft z = false ∧ clampN 1 100 (s.get
      TH_CTRL.GRACE) ≤ tw ∧ s.get TH_ZONE_CFG.CONN z = 0) ∧
    (∃ (s : State) (z tw : Nat), s.zoneOn z ∧ s.get TH_ZONE_STAT.STATE z = 1 ∧ s.zoneHot z = false ∧ s.zoneLeft z = false ∧ tw < clampN 1 100 (s.get
      TH_CTRL.GRACE)) ∧
    (∃ (s : State) (z tw : Nat), (s.zoneHot z ∨ s.zoneLeft z)) ∧
    (∃ (s : State) (z m k : Nat), s.zoneOn z ∧ s.get TH_ZONE_STAT.STATE z < 3 ∧ (s.members z).contains m ∧ s.deb ≤ k ∧ s.reaches m (s.memShut m) ∧
      s.is TH_ZONE_CFG.SHUT_SO z = false ∧ s.get TH_ZONE_CFG.CONN z = 0) ∧
    (∃ (s : State) (z k : Nat), s.zoneOn z ∧ (s.get TH_ZONE_STAT.STATE z = 1 ∨ s.get TH_ZONE_STAT.STATE z = 2) ∧ s.deb ≤ k ∧ s.zoneCool z) ∧
    (∃ (s : State) (z secs : Nat), s.shutCool z secs ∧ s.is TH_ZONE_CFG.LATCH z = false) ∧
    (∃ (s : State) (sess z secs : Nat), s.writeStatus sess TH_ZONE_RST.CLR = 0 ∧ s.shutCool z secs) ∧
    (∃ (s : State) (sess z secs : Nat), s.writeStatus sess TH_ZONE_RST.CLR = 0 ∧ s.shutCool z secs = false) ∧
    (∃ (s : State) (sess z : Nat), z < 8 ∧ s.writeStatus sess TH_ZONE_CFG.EN = 0 ∧ s.zoneCfgOk z) ∧
    (∃ (s : State) (sess z : Nat), z < 8 ∧ s.writeStatus sess TH_ZONE_CFG.EN = 0 ∧ s.zoneCfgOk z = false) ∧
    (∃ (s : State) (ms : Nat), s.runs 10 ∧ 100 ≤ ms ∧ bit (s.get SYS_READY.RDY) 9 = false ∧ bit s.boot.block 9 = false ∧ (((List.range 8).all fun z
      => !s.is TH_ZONE_CFG.EN z))) ∧
    (∃ (s : State) (k : Nat), s.circuitOn k ∧ s.circuitWanted k ∧ s.lswRuns ∧ s.get TH_CC_CFG.PUMP_LS k < 16 ∧ s.ownerOf (s.get TH_CC_CFG.PUMP_LS k)
      ≠ 0 ∧ 16 ≤ s.get TH_CC_CFG.VALVE_LS k ∧ s.get SAF_STAT.ACTIVE = 0 ∧ s.get LSW_CH_STAT.STATE (s.get TH_CC_CFG.PUMP_LS k) = 0 ∧ bit s.lsw.hot
      (s.get TH_CC_CFG.PUMP_LS k) = false ∧ s.bankUnder (bankOf (s.get TH_CC_CFG.PUMP_LS k)) = false) ∧
    (∃ (s : State) (k secs : Nat), s.circuitOn k ∧ s.circuitWanted k = false ∧ 10 * s.get TH_CC_FLOW.AFTER_T k ≤ secs ∧ s.runs 10 ∧ s.get
      SAF_STAT.FRZ = 0 ∧ s.get TH_CC_CFG.PUMP_LS k < 16 ∧ s.ownerOf (s.get TH_CC_CFG.PUMP_LS k) ≠ 0 ∧ 16 ≤ s.get TH_CC_CFG.VALVE_LS k ∧ s.is
      TH_CC_CFG.HEAT_FLOW k = false ∧ s.get LSW_CH_STAT.STATE (s.get TH_CC_CFG.PUMP_LS k) ≠ 4) ∧
    (∃ (s : State) (f ms : Nat), s.runs 10 ∧ f < 4 ∧ 100 * s.get TH_FLOW_CFG.TMO f ≤ ms) ∧
    (∃ (s : State) (k run low : Nat), s.circuitOn k ∧ s.get TH_CC_STAT.RUN k = 1 ∧ s.get TH_CC_STAT.FLOW_FLT k = 0 ∧ s.flowLow k ∧ s.get
      TH_CC_FLOW.FLOW_T k < run ∧ s.get TH_CC_FLOW.FLOW_T k ≤ low ∧ s.is TH_CC_CFG.FLOW_ACT k = false ∧ s.is TH_CC_CFG.HEAT_FLOW k = false) ∧
    (∃ (s : State) (k secs : Nat), s.circuitOn k ∧ s.get TH_CC_STAT.FLOW_FLT k = 1 ∧ s.flowLow k = false ∧ 10 ≤ secs) ∧
    (∃ (s : State) (k : Nat), s.circuitOn k ∧ s.tIn k < 10 * s.geti TH_CC_HEAT.HEAT_ON k ∧ s.is TH_CC_CFG.HEAT_FLOW k = false ∧ s.get
      TH_CC_CFG.HEAT_LS k < 16 ∧ s.ownerOf (s.get TH_CC_CFG.HEAT_LS k) ≠ 0 ∧ s.lswRuns ∧ s.get SAF_STAT.ACTIVE = 0 ∧ s.get LSW_CH_STAT.STATE (s.get
      TH_CC_CFG.HEAT_LS k) = 0 ∧ bit s.lsw.hot (s.get TH_CC_CFG.HEAT_LS k) = false ∧ s.bankUnder (bankOf (s.get TH_CC_CFG.HEAT_LS k)) = false) ∧
    (∃ (s : State) (k : Nat), s.circuitOn k ∧ 10 * s.geti TH_CC_HEAT.HEAT_OFF k ≤ s.tIn k ∧ s.runs 10 ∧ s.get SAF_STAT.FRZ = 0 ∧ s.get
      TH_CC_CFG.HEAT_LS k < 16 ∧ s.ownerOf (s.get TH_CC_CFG.HEAT_LS k) ≠ 0 ∧ s.get LSW_CH_STAT.STATE (s.get TH_CC_CFG.HEAT_LS k) ≠ 4) :=
  ⟨⟨(fun s : State => st s [(SYS_READY.RDY, 0x3FFF, 0), (TH_ZONE_CFG.EN, 1, 7), (TH_ZONE_SNS0.SNS, 0x80000000, 7), (TH_TS_STAT.STATE, 1, 31),
      (TH_TS_LIM.WARN, 70, 31), (TH_TS_LIM.THR, 80, 31), (TH_TS_LIM.SHUT, 100, 31), (TH_TS_VAL.REP, 900, 31), (TH_CTRL.DEB, 3, 0), (TH_CTRL.GRACE, 50,
      0), (TH_ZONE_I.I_TOP, 500, 7), (TH_ZONE_I.I_BOT, 100, 7)]) baseOn, 7, 31, 3, by decide⟩,
    ⟨(fun s : State => { st s [(TH_ZONE_SNS0.SNS, 0x80000000, 7), (TH_TS_STAT.STATE, 1, 31), (TH_CTRL.DEB, 3, 0)] with th := { s.th with above := [(31, 3)] } }) baseOn, 7, 31,
      3, by decide⟩,
    ⟨(fun s : State => st s [(SYS_READY.RDY, 0x3FFF, 0), (TH_ZONE_CFG.EN, 1, 7), (TH_ZONE_SNS0.SNS, 0x80000000, 7), (TH_TS_STAT.STATE, 1, 31),
      (TH_TS_LIM.WARN, 70, 31), (TH_TS_LIM.THR, 80, 31), (TH_TS_LIM.SHUT, 100, 31), (TH_TS_VAL.REP, 900, 31), (TH_ZONE_STAT.STATE, 1, 7),
      (TH_CTRL.GRACE, 50, 0), (TH_ZONE_I.I_TOP, 500, 7), (TH_ZONE_I.I_BOT, 100, 7), (TH_ZONE_CFG.CONN, 0, 7)]) baseOn, 7, 50, by decide⟩,
    ⟨(fun s : State => st s [(SYS_READY.RDY, 0x3FFF, 0), (TH_ZONE_CFG.EN, 1, 7), (TH_ZONE_SNS0.SNS, 0x80000000, 7), (TH_TS_STAT.STATE, 1, 31),
      (TH_TS_LIM.WARN, 70, 31), (TH_TS_LIM.THR, 80, 31), (TH_TS_LIM.SHUT, 100, 31), (TH_TS_VAL.REP, 900, 31), (TH_ZONE_STAT.STATE, 1, 7),
      (TH_CTRL.GRACE, 50, 0)]) baseOn, 7, 49, by decide⟩,
    ⟨(fun s : State => { st s [(SYS_READY.RDY, 0x3FFF, 0), (TH_ZONE_CFG.EN, 1, 7), (TH_ZONE_SNS0.SNS, 0x80000000, 7), (TH_TS_STAT.STATE, 1, 31),
      (TH_TS_LIM.WARN, 70, 31), (TH_TS_LIM.THR, 80, 31), (TH_TS_LIM.SHUT, 100, 31), (TH_ZONE_STAT.STATE, 1, 7), (TH_CTRL.DEB, 3, 0)] with
      th := { s.th with above := [(31, 3)] } }) baseOn, 7, 50, by decide⟩,
    ⟨(fun s : State => st s [(SYS_READY.RDY, 0x3FFF, 0), (TH_ZONE_CFG.EN, 1, 7), (TH_ZONE_SNS0.SNS, 0x80000000, 7), (TH_TS_STAT.STATE, 1, 31),
      (TH_TS_LIM.WARN, 70, 31), (TH_TS_LIM.THR, 80, 31), (TH_TS_LIM.SHUT, 100, 31), (TH_TS_VAL.REP, 1000, 31), (TH_CTRL.DEB, 3, 0), (TH_ZONE_CFG.LATCH,
      1, 7), (TH_ZONE_CFG.SHUT_SO, 0, 7), (TH_ZONE_CFG.CONN, 0, 7)]) baseOn, 7, 31, 3, by decide⟩,
    ⟨(fun s : State => st s [(SYS_READY.RDY, 0x3FFF, 0), (TH_ZONE_CFG.EN, 1, 7), (TH_ZONE_SNS0.SNS, 0x80000000, 7), (TH_TS_STAT.STATE, 1, 31),
      (TH_TS_LIM.WARN, 70, 31), (TH_TS_LIM.THR, 80, 31), (TH_TS_LIM.SHUT, 100, 31), (TH_TS_VAL.REP, 300, 31), (TH_CTRL.DEB, 3, 0), (TH_ZONE_STAT.STATE,
      2, 7)]) baseOn, 7, 3, by decide⟩,
    ⟨(fun s : State => st s [(SYS_READY.RDY, 0x3FFF, 0), (TH_ZONE_CFG.EN, 1, 7), (TH_ZONE_SNS0.SNS, 0x80000000, 7), (TH_TS_STAT.STATE, 1, 31),
      (TH_TS_LIM.WARN, 70, 31), (TH_TS_LIM.THR, 80, 31), (TH_TS_LIM.SHUT, 100, 31), (TH_TS_VAL.REP, 300, 31), (TH_ZONE_STAT.STATE, 3, 7),
      (TH_ZONE_CFG.LATCH, 0, 7), (TH_ZONE_RST.RST_T, 60, 7)]) baseOn, 7, 60, by decide⟩,
    ⟨(fun s : State => st s [(SYS_SESS.STATE, 2, 7), (SYS_SESS.LEVEL, 3, 7), (SYS_ROLE.ROLE_ACT, 1, 0), (SYS_READY.RDY, 0x3FFF, 0), (TH_ZONE_CFG.EN,
      1, 7), (TH_ZONE_SNS0.SNS, 0x80000000, 7), (TH_TS_STAT.STATE, 1, 31), (TH_TS_LIM.WARN, 70, 31), (TH_TS_LIM.THR, 80, 31), (TH_TS_LIM.SHUT, 100,
      31), (TH_TS_VAL.REP, 300, 31), (TH_ZONE_STAT.STATE, 3, 7), (TH_ZONE_CFG.LATCH, 1, 7), (TH_ZONE_STAT.LATCHED, 1, 7), (TH_ZONE_RST.RST_T, 60, 7)])
      baseOn, 7, 7, 60, by decide⟩,
    ⟨(fun s : State => st s [(SYS_SESS.STATE, 2, 7), (SYS_SESS.LEVEL, 3, 7), (SYS_ROLE.ROLE_ACT, 1, 0), (SYS_READY.RDY, 0x3FFF, 0), (TH_ZONE_CFG.EN,
      1, 7), (TH_ZONE_SNS0.SNS, 0x80000000, 7), (TH_TS_STAT.STATE, 1, 31), (TH_TS_LIM.WARN, 70, 31), (TH_TS_LIM.THR, 80, 31), (TH_TS_LIM.SHUT, 100,
      31), (TH_TS_VAL.REP, 300, 31), (TH_ZONE_STAT.STATE, 3, 7), (TH_ZONE_CFG.LATCH, 1, 7), (TH_ZONE_RST.RST_T, 60, 7)]) baseOn, 7, 7, 59, by decide⟩,
    ⟨(fun s : State => st s [(SYS_SESS.STATE, 2, 7), (SYS_SESS.LEVEL, 3, 7), (SYS_ROLE.ROLE_ACT, 1, 0), (SYS_READY.RDY, 0x3FFF, 0), (TH_ZONE_CFG.EN,
      1, 7), (TH_ZONE_SNS0.SNS, 0x80000000, 7), (TH_TS_STAT.STATE, 1, 31), (TH_TS_LIM.WARN, 70, 31), (TH_TS_LIM.THR, 80, 31), (TH_TS_LIM.SHUT, 100,
      31), (TH_ZONE_CFG.EN, 0, 7), (TH_ZONE_CFG.CFG_ERR, 1, 7), (TH_ZONE_I.I_TOP, 500, 7), (TH_ZONE_I.I_BOT, 100, 7)]) baseOn, 7, 7, by decide⟩,
    ⟨(fun s : State => st s [(SYS_SESS.STATE, 2, 7), (SYS_SESS.LEVEL, 3, 7), (SYS_ROLE.ROLE_ACT, 1, 0), (SYS_READY.RDY, 0x3FFF, 0), (TH_ZONE_CFG.EN,
      1, 7), (TH_ZONE_SNS0.SNS, 0x80000000, 7), (TH_TS_STAT.STATE, 1, 31), (TH_TS_LIM.WARN, 70, 31), (TH_TS_LIM.THR, 80, 31), (TH_TS_LIM.SHUT, 100,
      31), (TH_ZONE_CFG.EN, 0, 7), (TH_ZONE_I.I_TOP, 99, 7), (TH_ZONE_I.I_BOT, 100, 7)]) baseOn, 7, 7, by decide⟩,
    ⟨(fun s : State => st s [(TH_ZONE_STAT.STATE, 3, 7), (SYS_READY.RDY, 0, 0)]) baseOn, 100, by decide⟩,
    ⟨(fun s : State => st s [(SYS_ROLE.ROLE_ACT, 4, 0), (TH_CC_CFG.EN, 1, 1), (TH_CC_CFG.PUMP_LS, 15, 1), (TH_CC_CFG.VALVE_LS, 31, 1),
      (TH_CC_TEMP.COOL_ON, 30, 1), (TH_CC_TEMP.TOUT, 47, 1), (TH_TS_VAL.REP, 300, 47)]) baseOn, 1, by decide⟩,
    ⟨(fun s : State => st s [(TH_CC_CFG.EN, 1, 1), (TH_CC_CFG.PUMP_LS, 15, 1), (TH_CC_CFG.VALVE_LS, 31, 1), (TH_CC_TEMP.COOL_ON, 30, 1),
      (TH_CC_TEMP.TOUT, 47, 1), (TH_TS_VAL.REP, 299, 47), (TH_CC_STAT.RUN, 1, 1), (LSW_CH_STAT.STATE, 1, 15), (TH_CC_FLOW.AFTER_T, 1, 1),
      (TH_CC_CFG.HEAT_FLOW, 0, 1)]) baseOn, 1, 10, by decide⟩,
    ⟨(fun s : State => st s [(TH_FLOW_VAL.FLOW, 5, 3)]) baseOn, 3, 25500, by decide⟩,
    ⟨(fun s : State => st s [(TH_CC_CFG.EN, 1, 1), (TH_CC_STAT.RUN, 1, 1), (TH_FLOW_VAL.VALID, 0, 0), (TH_CC_FLOW.FLOW_T, 9, 1), (TH_CC_CFG.FLOW_ACT,
      0, 1), (TH_CC_CFG.HEAT_FLOW, 0, 1)]) baseOn, 1, 10, 9, by decide⟩,
    ⟨(fun s : State => st s [(TH_CC_CFG.EN, 1, 1), (TH_CC_CFG.FLOW, 3, 1), (TH_CC_STAT.FLOW_FLT, 1, 1), (TH_FLOW_VAL.VALID, 1, 3), (TH_FLOW_VAL.FLOW,
      999, 3), (TH_CC_FLOW.FLOW_MIN, 999, 1)]) baseOn, 1, 10, by decide⟩,
    ⟨(fun s : State => st s [(SYS_ROLE.ROLE_ACT, 4, 0), (TH_CC_CFG.EN, 1, 1), (TH_CC_CFG.HEAT_LS, 15, 1), (TH_CC_CFG.HEAT_FLOW, 0, 1),
      (TH_CC_TEMP.TIN, 47, 1), (TH_TS_VAL.REP, 65436, 47), (TH_CC_HEAT.HEAT_ON, 5, 1)]) baseOn, 1, by decide⟩,
    ⟨(fun s : State => st s [(TH_CC_CFG.EN, 1, 1), (TH_CC_CFG.HEAT_LS, 15, 1), (TH_CC_TEMP.TIN, 47, 1), (TH_TS_VAL.REP, 100, 47),
      (TH_CC_HEAT.HEAT_OFF, 10, 1), (TH_CC_STAT.HEAT, 1, 1), (LSW_CH_STAT.STATE, 1, 15)]) baseOn, 1, by decide⟩⟩

/-- The hypotheses of `CellSupervisorResults` can be met, clause by clause. -/
theorem witness_cell_supervisor_results :
    (∃ (s : State), s.csOn ∧ s.get CS_STAT.STATE = 0) ∧
    (∃ (s : State) (ms na nb : Nat) (ser : List (Nat × Nat)), s.csOn ∧ s.get CS_STAT.STATE = 1 ∧ s.wakeMs ≤ ms ∧ (1 ≤ na ∧ na ≤ 64) ∧ ser = []) ∧
    (∃ (s : State) (ms na nb : Nat) (ser : List (Nat × Nat)), s.csOn ∧ s.get CS_STAT.STATE = 2 ∧ na + nb = s.nCfg ∧ 1 ≤ s.nCfg ∧ ser = []) ∧
    (∃ (s : State) (na nb : Nat) (ser : List (Nat × Nat)), s.csOn ∧ s.get CS_STAT.STATE = 2 ∧ na + nb < s.nCfg ∧ s.cs.attempts < 2) ∧
    (∃ (s : State) (na nb : Nat) (ser : List (Nat × Nat)), s.csOn ∧ s.get CS_STAT.STATE = 2 ∧ s.cs.attempts = 2 ∧ s.nCfg = 2 ∧ na = 1 ∧ nb = 0 ∧ ser
      = []) ∧
    (∃ (s : State), s.csOn ∧ s.get CS_STAT.STATE = 3 ∧ s.cs.sweeping ∧ s.launchedStart = none ∧ s.nextSnap ≤ s.stamp + s.tenthMsAu s.snapDly ∧ s.get
      CS_STAT.BROKEN = 0 ∧ s.cs.busy = false ∧ s.cs.endAt + s.tenthMsAu 260 ≤ s.stamp) ∧
    (∃ (s : State), s.csOn ∧ s.get CS_STAT.STATE = 3 ∧ s.cs.sweeping ∧ s.launchedStart = none ∧ s.nextSnap ≤ s.stamp + s.tenthMsAu s.snapDly ∧ s.get
      CS_STAT.BROKEN = 0 ∧ s.cs.busy) ∧
    (∃ (s : State) (ms : Nat), s.csOn ∧ s.get CS_STAT.STATE = 3 ∧ s.cs.sweeping = false ∧ s.cs.busy = false ∧ 250 ≤ ms) ∧
    (∃ (s : State) (dir p sweep status : Nat) (cells : List Nat) (t0 t1 : Int) (mask seq : Nat), s.csOn ∧ s.cs.busy ∧ sweep = s.cs.live ∧ dir = 0 ∧ 1
      ≤ p ∧ p ≤ s.cs.size ∧ s.cs.recs = [] ∧ s.cs.sent = [] ∧ s.get CS_STAT.STATE = 3) ∧
    (∃ (s : State) (dir p sweep status : Nat) (cells : List Nat) (t0 t1 : Int) (mask seq : Nat), s.csOn ∧ s.cs.busy ∧ sweep = s.cs.live ∧ dir = 1 ∧ p
      = 1 ∧ s.cs.size = 64 ∧ s.cs.sent = [⟨64, 1, 1, seq⟩]) ∧
    (∃ (s : State), s.csOn ∧ s.get CS_STAT.STATE = 3 ∧ s.cs.busy ∧ ((s.units.all fun u => (s.recOf u).isSome)) ∧ s.cs.cur < 2 ^ 64 ∧ s.cs.curI =
      none) ∧
    (∃ (s : State), s.csOn ∧ s.get CS_STAT.STATE = 3 ∧ s.cs.busy ∧ s.cs.size = 2 ∧ s.cs.found = 6 ∧ s.get CS_STAT.H_A = 2 ∧ (((s.recOf 1).map fun r
      => r.status) = some 1) ∧ s.recOf 2 = none) ∧
    (∃ (s : State), s.csOn ∧ s.get CS_STAT.STATE = 3 ∧ s.cs.busy ∧ s.cs.tail = some 0) ∧
    (∃ (s : State), s.csOn ∧ s.get CS_STAT.STATE = 4 ∧ s.cs.tail = some 0 ∧ s.get CS_STAT.H_A = 2 ∧ bit s.cs.again 1 ∧ bit s.cs.again 2 = false) ∧
    (∃ (s : State) (reached : Bool), s.csOn ∧ s.get CS_STAT.STATE = 3 ∧ s.get CS_STAT.BROKEN = 1 ∧ s.ringBusy = false ∧ s.cs.sweeping ∧ s.nextSnap ≤
      s.stamp + s.tenthMsAu s.snapDly ∧ 39 ≤ s.cs.since ∧ reached) ∧
    (∃ (s : State) (sess i : Nat), i < 64 ∧ s.writeStatus sess CS_UNIT_BAL.SEND = 0 ∧ s.get CS_CTRL.BAL_AUTO = 0) ∧
    (∃ (s : State) (sess i : Nat), s.writeStatus sess CS_UNIT_BAL.SEND = 0 ∧ s.get CS_CTRL.BAL_AUTO = 1) ∧
    (∃ (s : State) (a : La), s.laDue = some a ∧ a.ep = 0x01A ∧ a.op = 1) ∧
    (∃ (s : State) (a : La), s.laDue = some a ∧ a.ep = 0x01A ∧ a.op = 2) ∧
    (∃ (s : State) (src k : Nat), k < 1024 ∧ s.populated (0x100 + k)) ∧
    (∃ (s : State), s.csOn ∧ s.get CS_STAT.STATE = 3 ∧ 1 ≤ s.cs.size ∧ (((List.range s.cs.size).all fun i => decide (max 1 (s.get CS_CTRL.LOST_N) ≤
      s.get CS_UNIT_STAT.MISS_CNT i)))) ∧
    (∃ (s : State), s.get CS_STAT.STATE ≠ 0 ∧ s.get CS_CTRL.EN = 0) :=
  ⟨⟨(fun s : State => st s [(SYS_ROLE.ROLE_ACT, 8, 0), (CS_CTRL.EN, 1, 0)]) baseOn, by decide⟩,
    ⟨(fun s : State => st s [(SYS_ROLE.ROLE_ACT, 8, 0), (CS_CTRL.EN, 1, 0), (CS_STAT.STATE, 1, 0), (CS_CFG2.N_CFG, 64, 0)]) baseOn, 4000, 3, 0, [],
      by decide⟩,
    ⟨(fun s : State => st s [(SYS_ROLE.ROLE_ACT, 8, 0), (CS_CTRL.EN, 1, 0), (CS_STAT.STATE, 2, 0), (CS_CFG2.N_CFG, 5, 0)]) baseOn, 0, 3, 2, [], by
      decide⟩,
    ⟨(fun s : State => { st s [(SYS_ROLE.ROLE_ACT, 8, 0), (CS_CTRL.EN, 1, 0), (CS_STAT.STATE, 2, 0), (CS_CFG2.N_CFG, 1, 0)] with
      cs := { s.cs with attempts := 1 } }) baseOn, 0, 0, [], by decide⟩,
    ⟨(fun s : State => { st s [(SYS_ROLE.ROLE_ACT, 8, 0), (CS_CTRL.EN, 1, 0), (CS_STAT.STATE, 2, 0), (CS_CFG2.N_CFG, 2, 0)] with
      cs := { s.cs with attempts := 2 } }) baseOn, 1, 0, [], by decide⟩,
    ⟨(fun s : State => { st s [(SYS_ROLE.ROLE_ACT, 8, 0), (CS_CTRL.EN, 1, 0), (CS_STAT.STATE, 3, 0), (TB_STAMP_LO.STAMP, 0, 0), (TB_STAMP_HI.STAMP,
      0, 0), (CS_STAT.BROKEN, 0, 0)] with cs := { s.cs with sweeping := true, snap := none, busy := false, endAt := 0 }, tb := { s.tb with floc := 0 }
      }) baseOn, by decide⟩,
    ⟨(fun s : State => { st s [(SYS_ROLE.ROLE_ACT, 8, 0), (CS_CTRL.EN, 1, 0), (CS_STAT.STATE, 3, 0), (TB_STAMP_LO.STAMP, 0, 0), (TB_STAMP_HI.STAMP,
      0, 0), (CS_STAT.BROKEN, 0, 0)] with cs := { s.cs with sweeping := true, snap := none, busy := true }, tb := { s.tb with floc := 0 } }) baseOn, by
      decide⟩,
    ⟨(fun s : State => { st s [(SYS_ROLE.ROLE_ACT, 8, 0), (CS_CTRL.EN, 1, 0), (CS_STAT.STATE, 3, 0)] with
      cs := { s.cs with sweeping := false, busy := false } }) baseOn, 250, by decide⟩,
    ⟨(fun s : State => { st s [(SYS_ROLE.ROLE_ACT, 8, 0), (CS_CTRL.EN, 1, 0), (CS_STAT.STATE, 3, 0)] with
      cs := { s.cs with busy := true, num := 9, live := 7, size := 1, recs := [], sent := [] } }) baseOn, 0, 1, 7, 1, [37000, 37001], 25, 26, 3, 9, by
      decide⟩,
    ⟨(fun s : State => { st s [(SYS_ROLE.ROLE_ACT, 8, 0), (CS_CTRL.EN, 1, 0), (CS_STAT.STATE, 3, 0), (CS_UNIT_BAL.PEND, 1, 63)] with
      cs := { s.cs with busy := true, num := 9, live := 7, size := 64, found := 18446744073709551616, recs := [], sent := [⟨64, 1, 1, 9⟩] } }) baseOn, 1, 1,
      7, 1, [37000, 37001], 25, 26, 3, 9, by decide⟩,
    ⟨(fun s : State => { st s [(SYS_ROLE.ROLE_ACT, 8, 0), (CS_CTRL.EN, 1, 0), (CS_STAT.STATE, 3, 0)] with
      cs := { s.cs with busy := true, num := 255, size := 1, found := 2, cur := 18446744073709551615, curI := none, recs := [(1, ⟨1, [37000], 25, 26, 0, 0⟩)] }
      }) baseOn, by decide⟩,
    ⟨(fun s : State => { st s [(SYS_ROLE.ROLE_ACT, 8, 0), (CS_CTRL.EN, 1, 0), (CS_STAT.STATE, 3, 0), (CS_STAT.H_A, 2, 0)] with
      cs := { s.cs with busy := true, num := 255, size := 2, found := 6, recs := [(1, ⟨1, [37000], 25, 26, 0, 0⟩)] } }) baseOn, by decide⟩,
    ⟨(fun s : State => { st s [(SYS_ROLE.ROLE_ACT, 8, 0), (CS_CTRL.EN, 1, 0), (CS_STAT.STATE, 3, 0), (CS_STAT.H_A, 2, 0)] with
      cs := { s.cs with busy := true, tail := some 0, again := 6, size := 2 } }) baseOn, by decide⟩,
    ⟨(fun s : State => { st s [(SYS_ROLE.ROLE_ACT, 8, 0), (CS_CTRL.EN, 1, 0), (CS_STAT.STATE, 4, 0), (CS_STAT.H_A, 2, 0)] with
      cs := { s.cs with busy := true, tail := some 0, again := 2, size := 2, found := 6 } }) baseOn, by decide⟩,
    ⟨(fun s : State => { st s [(SYS_ROLE.ROLE_ACT, 8, 0), (CS_CTRL.EN, 1, 0), (CS_STAT.STATE, 3, 0), (CS_STAT.BROKEN, 1, 0), (TB_STAMP_LO.STAMP, 300000000, 0)] with cs := { s.cs with busy := false, sweeping := true, snap := some 0, since := 39, size := 63 } }) baseOn, true, by decide⟩,
    ⟨(fun s : State => { st s [(SYS_SESS.STATE, 2, 7), (SYS_SESS.LEVEL, 3, 7), (SYS_ROLE.ROLE_ACT, 8, 0), (CS_CTRL.EN, 1, 0), (CS_UNIT_BAL.MASK,
      65535, 63), (CS_UNIT_BAL.DUR, 255, 63), (CS_CTRL.BAL_AUTO, 0, 0)] with cs := { s.cs with seq := 255 } }) baseOn, 7, 63, by decide⟩,
    ⟨(fun s : State => st s [(SYS_SESS.STATE, 2, 7), (SYS_SESS.LEVEL, 3, 7), (SYS_ROLE.ROLE_ACT, 8, 0), (CS_CTRL.EN, 1, 0), (CS_CTRL.BAL_AUTO, 1,
      0)]) baseOn, 7, 63, by decide⟩,
    ⟨(fun s : State => { st s [(SYS_ROLE.ROLE_ACT, 8, 0), (CS_CTRL.EN, 1, 0)] with fab := { s.fab with la := [anLa 0x01A 1 [50, 0]] } }) baseOn, anLa
      0x01A 1 [50, 0], by decide⟩,
    ⟨(fun s : State => { st s [(SYS_ROLE.ROLE_ACT, 8, 0), (CS_CTRL.EN, 1, 0)] with cs := { s.cs with sweeping := true }, fab :=
      { s.fab with la := [anLa 0x01A 2 []] } }) baseOn, anLa 0x01A 2 [], by decide⟩,
    ⟨(fun s : State => { st s [(SYS_ROLE.ROLE_ACT, 8, 0), (CS_CTRL.EN, 1, 0), (CS_STAT.STATE, 3, 0), (CS_STAT.N, 64, 0), (CS_CELL.V, 4242, 1023),
      (CS_CFG2.N_CFG, 64, 0)] with cs := { s.cs with size := 64 } }) baseOn, 5, 1023, by decide⟩,
    ⟨(fun s : State => { st s [(SYS_ROLE.ROLE_ACT, 8, 0), (CS_CTRL.EN, 1, 0), (CS_STAT.STATE, 3, 0), (CS_CTRL.LOST_N, 3, 0), (CS_UNIT_STAT.MISS_CNT,
      3, 0)] with cs := { s.cs with size := 1 } }) baseOn, by decide⟩,
    ⟨(fun s : State => { st s [(SYS_ROLE.ROLE_ACT, 8, 0), (CS_CTRL.EN, 1, 0), (CS_STAT.STATE, 3, 0), (CS_CTRL.EN, 0, 0)] with
      cs := { s.cs with size := 1 } }) baseOn, by decide⟩⟩

/-- The hypotheses of `LoadSwitchResults` can be met, clause by clause. -/
theorem witness_load_switch_results :
    (∃ (s : State) (sess n : Nat), n < 16 ∧ s.writeStatus sess LSW_CH_CTRL.ON = 0 ∧ s.ownerOf n = 2 ∧ bit s.lsw.acted n = false ∧ s.lswRuns ∧ s.get
      LSW_CH_STAT.STATE n = 0 ∧ s.get SAF_STAT.ACTIVE = 0 ∧ bit s.lsw.hot n = false ∧ s.bankUnder (bankOf n) = false) ∧
    (∃ (s : State) (sess n : Nat), n < 16 ∧ s.writeStatus sess LSW_CH_CTRL.ON = 0 ∧ s.ownerOf n = 2 ∧ bit s.lsw.acted n = false ∧ s.lswRuns ∧ s.get
      LSW_CH_STAT.STATE n = 0 ∧ s.get SAF_STAT.ACTIVE = 0 ∧ bit s.lsw.hot n = false ∧ s.bankUnder (bankOf n)) ∧
    (∃ (s : State) (sess n : Nat), n < 16 ∧ s.writeStatus sess LSW_CH_CTRL.ON = 0 ∧ s.ownerOf n = 2 ∧ bit s.lsw.acted n = false ∧ s.lswRuns ∧ s.get
      LSW_CH_STAT.STATE n = 0 ∧ s.get SAF_STAT.ACTIVE = 0 ∧ bit s.lsw.hot n) ∧
    (∃ (s : State) (sess n : Nat), n < 16 ∧ bit s.running 11 = false) ∧
    (∃ (s : State) (sess n : Nat), n < 16 ∧ s.writeStatus sess LSW_CH_CTRL.ON = 0 ∧ s.ownerOf n ≠ 2) ∧
    (∃ (s : State) (sess n : Nat), n < 16 ∧ s.writeStatus sess LSW_CH_CTRL.ON = 0 ∧ s.ownerOf n = 2 ∧ bit s.lsw.acted n = false ∧ s.get
      LSW_CH_STAT.STATE n ≠ 4 ∧ s.get SAF_STAT.FRZ = 0) ∧
    (∃ (s : State) (n onMs tw i : Nat), s.lswRuns ∧ n < 16 ∧ s.get LSW_CH_STAT.STATE n = 1 ∧ s.get LSW_CH_CFG.T_BLANK n ≤ onMs ∧ max 1 (s.get
      LSW_CH_CFG.T_TRIP n) ≤ min tw (10 * (onMs - s.get LSW_CH_CFG.T_BLANK n)) ∧ 10 * clampN 5 80 (s.get LSW_CH_CFG.I_TRIP n) < i ∧ s.shutComes n =
      false ∧ s.get LSW_CH_CFG.OC_MODE n = 0 ∧ s.ownerOf n ≠ 0 ∧ s.isContactor n = false) ∧
    (∃ (s : State) (n onMs tw i : Nat), s.lswRuns ∧ n < 16 ∧ s.get LSW_CH_STAT.STATE n = 1 ∧ s.get LSW_CH_CFG.T_BLANK n ≤ onMs ∧ max 1 (s.get
      LSW_CH_CFG.T_TRIP n) ≤ min tw (10 * (onMs - s.get LSW_CH_CFG.T_BLANK n)) ∧ 10 * clampN 5 80 (s.get LSW_CH_CFG.I_TRIP n) < i ∧ s.shutComes n =
      false ∧ s.get LSW_CH_CFG.OC_MODE n = 1 ∧ s.exhausted n = false ∧ s.ownerOf n ≠ 0 ∧ s.isContactor n = false) ∧
    (∃ (s : State) (n : Nat) (tj : Int), n < 16 ∧ 175 ≤ tj ∧ s.get LSW_CH_STAT.STATE n = 1 ∧ s.get LSW_CH_CFG.TH_LATCH n = 1 ∧ s.ownerOf n ≠ 0 ∧
      s.isContactor n = false) ∧
    (∃ (s : State) (n tw : Nat) (tj : Int), s.lswRuns ∧ n < 16 ∧ s.get LSW_CH_STAT.STATE n = 2 ∧ max 1 (s.get LSW_CH_RST.RST_T n) ≤ tw ∧ tj < 160 ∧
      s.shutComes n = false ∧ s.bankLow (bankOf n) = false) ∧
    (∃ (s : State) (n secs : Nat), s.lswRuns ∧ n < 16 ∧ s.get LSW_CH_STAT.STATE n = 1 ∧ max 1 (s.get LSW_CH_RST.RST_WIN n) ≤ secs ∧ s.tripComes n =
      false) ∧
    (∃ (s : State) (b mv us : Nat), b = 1 ∧ s.lswRuns ∧ s.lswUsed ∧ s.bankLow 1 = false ∧ mv < 9000 ∧ 50 ≤ us) ∧
    (∃ (s : State) (b mv : Nat), b = 0 ∧ s.lswRuns ∧ s.bankLow 0 ∧ 9500 ≤ mv) ∧
    (∃ (s : State) (sess n : Nat) (tj : Int), n < 16 ∧ s.writeStatus sess LSW_CH_CTRL.CLR = 0 ∧ s.get LSW_CH_STAT.STATE n = 4 ∧ -100 ≤ tj ∧ tj < 160)
      ∧
    (∃ (s : State) (sess n : Nat) (tj : Int), n < 16 ∧ s.writeStatus sess LSW_CH_CTRL.CLR = 0 ∧ s.get LSW_CH_STAT.STATE n = 4 ∧ 160 ≤ tj) ∧
    (∃ (s : State) (a : La), s.laDue = some a ∧ a.ep = 0x01B ∧ a.op = 1 ∧ bit (bytesAt a.body 0 2) 15 ∧ bit (bytesAt a.body 2 2) 15 = false ∧ s.get
      LSW_CH_STAT.STATE 15 = 0 ∧ s.lswRuns ∧ s.get SAF_STAT.ACTIVE = 0 ∧ bit s.lsw.hot 15 = false ∧ s.bankUnder 1 = false) ∧
    (∃ (s : State) (n ms i : Nat), s.lswRuns ∧ n < 16 ∧ s.get LSW_CH_STAT.STATE n = 1 ∧ s.get LSW_CH_CFG.OL_EN n = 1 ∧ i < 5 ∧ 100 ≤ ms ∧ s.get
      LSW_CH_STAT.OL n = 0) ∧
    (∃ (s : State) (n ms i : Nat), s.lswRuns ∧ n < 16 ∧ s.get LSW_CH_STAT.STATE n = 1 ∧ s.get LSW_CH_CFG.OL_EN n = 1 ∧ 5 ≤ i) :=
  ⟨⟨(fun s : State => st s [(SYS_SESS.STATE, 2, 7), (SYS_SESS.LEVEL, 3, 7), (SYS_ROLE.ROLE_ACT, 8, 0), (CS_CTRL.EN, 1, 0)]) baseOn, 7, 15, by
      decide⟩,
    ⟨(fun s : State => { st s [(SYS_SESS.STATE, 2, 7), (SYS_SESS.LEVEL, 3, 7), (SYS_ROLE.ROLE_ACT, 8, 0), (CS_CTRL.EN, 1, 0), (PWR_VLS.VLSB, 899, 0),
      (LSW_BANK.UV_B, 1, 0)] with lsw := { s.lsw with low := 2 } }) baseOn, 7, 15, by decide⟩,
    ⟨(fun s : State => { st s [(SYS_SESS.STATE, 2, 7), (SYS_SESS.LEVEL, 3, 7), (SYS_ROLE.ROLE_ACT, 8, 0), (CS_CTRL.EN, 1, 0)] with
      lsw := { s.lsw with hot := 0x8000 } }) baseOn, 7, 15, by decide⟩,
    ⟨(fun s : State => st s [(SYS_SESS.STATE, 2, 7), (SYS_SESS.LEVEL, 3, 7), (SYS_ROLE.ROLE_ACT, 0, 0)]) baseOn, 7, 15, by decide⟩,
    ⟨(fun s : State => st s [(SYS_SESS.STATE, 2, 7), (SYS_SESS.LEVEL, 3, 7), (SYS_ROLE.ROLE_ACT, 4, 0), (SYS_ROLE.DISP_CONN, 2, 0),
      (VS_CONN_CFG.LS_POS, 15, 0)]) baseOn, 7, 15, by decide⟩,
    ⟨(fun s : State => st s [(SYS_SESS.STATE, 2, 7), (SYS_SESS.LEVEL, 3, 7), (SYS_ROLE.ROLE_ACT, 8, 0), (CS_CTRL.EN, 1, 0), (LSW_CH_STAT.STATE, 1,
      15), (LSW_STAT.OUT, 65535, 0)]) baseOn, 7, 15, by decide⟩,
    ⟨(fun s : State => st s [(SYS_ROLE.ROLE_ACT, 8, 0), (LSW_CH_STAT.STATE, 1, 15), (LSW_CH_CFG.T_BLANK, 20, 15), (LSW_CH_CFG.T_TRIP, 5, 15),
      (LSW_CH_CFG.I_TRIP, 50, 15), (LSW_CH_CFG.OC_MODE, 0, 15), (SAF_STAT.FRZ, 0, 0)]) baseOn, 15, 21, 5, 501, by decide⟩,
    ⟨(fun s : State => st s [(SYS_ROLE.ROLE_ACT, 8, 0), (LSW_CH_STAT.STATE, 1, 15), (LSW_CH_CTRL.ON, 1, 15), (LSW_CH_RST.RST_MAX, 3, 15),
      (LSW_CH_CFG.T_BLANK, 20, 15), (LSW_CH_CFG.T_TRIP, 5, 15), (LSW_CH_CFG.I_TRIP, 50, 15), (LSW_CH_CFG.OC_MODE, 1, 15), (SAF_STAT.FRZ, 0, 0)])
      baseOn, 15, 21, 5, 501, by decide⟩,
    ⟨(fun s : State => st s [(SYS_ROLE.ROLE_ACT, 8, 0), (LSW_CH_STAT.STATE, 1, 15), (LSW_CH_CFG.TH_LATCH, 1, 15), (LSW_CH_STAT.OWNER, 2, 15)])
      baseOn, 15, 175, by decide⟩,
    ⟨(fun s : State => st s [(SYS_ROLE.ROLE_ACT, 8, 0), (LSW_CH_STAT.STATE, 2, 15), (LSW_CH_RST.RST_T, 100, 15), (SAF_STAT.FRZ, 0, 0)]) baseOn, 15,
      100, 159, by decide⟩,
    ⟨(fun s : State => st s [(SYS_ROLE.ROLE_ACT, 8, 0), (LSW_CH_STAT.STATE, 1, 15), (LSW_CH_RST.RST_WIN, 60, 15), (LSW_CH_STAT.RST_CNT, 2, 15),
      (SAF_STAT.FRZ, 0, 0)]) baseOn, 15, 60, by decide⟩,
    ⟨(fun s : State => st s [(SYS_ROLE.ROLE_ACT, 8, 0), (LSW_CH_CTRL.ON, 1, 15), (LSW_CH_STAT.STATE, 1, 15), (LSW_CH_STAT.STATE, 1, 7),
      (LSW_BANK.UV_B, 0, 0)]) baseOn, 1, 8999, 50, by decide⟩,
    ⟨(fun s : State => { st s [(SYS_ROLE.ROLE_ACT, 8, 0), (LSW_CH_STAT.STATE, 3, 7), (LSW_CH_STAT.STATE, 3, 15), (LSW_BANK.UV_A, 1, 0)] with
      lsw := { s.lsw with low := 1 } }) baseOn, 0, 9500, by decide⟩,
    ⟨(fun s : State => st s [(SYS_SESS.STATE, 2, 7), (SYS_SESS.LEVEL, 3, 7), (SYS_ROLE.ROLE_ACT, 8, 0), (CS_CTRL.EN, 1, 0), (LSW_CH_STAT.STATE, 4,
      15), (LSW_STAT.LATCHED, 32768, 0)]) baseOn, 7, 15, 159, by decide⟩,
    ⟨(fun s : State => st s [(SYS_SESS.STATE, 2, 7), (SYS_SESS.LEVEL, 3, 7), (SYS_ROLE.ROLE_ACT, 8, 0), (CS_CTRL.EN, 1, 0), (LSW_CH_STAT.STATE, 4,
      15), (LSW_STAT.LATCHED, 32768, 0)]) baseOn, 7, 15, 160, by decide⟩,
    ⟨(fun s : State => { st s [(SYS_ROLE.ROLE_ACT, 8, 0), (LSW_CH_STAT.STATE, 0, 15), (LSW_CH_STAT.STATE, 1, 0), (SAF_STAT.ACTIVE, 0, 0)] with
      fab := { s.fab with la := [anLa 0x01B 1 [1, 128, 1, 0]] } }) baseOn, anLa 0x01B 1 [1, 128, 1, 0], by decide⟩,
    ⟨(fun s : State => st s [(SYS_ROLE.ROLE_ACT, 8, 0), (LSW_CH_STAT.STATE, 1, 15), (LSW_CH_CFG.OL_EN, 1, 15), (SAF_STAT.FRZ, 0, 0)]) baseOn, 15,
      100, 4, by decide⟩,
    ⟨(fun s : State => st s [(SYS_ROLE.ROLE_ACT, 8, 0), (LSW_CH_STAT.STATE, 1, 15), (LSW_CH_CFG.OL_EN, 1, 15), (LSW_CH_STAT.OL, 1, 15),
      (SAF_STAT.FRZ, 0, 0)]) baseOn, 15, 100, 5, by decide⟩⟩

/-- The hypotheses of `CanResults` can be met, clause by clause. -/
theorem witness_can_results :
    (∃ (s : State) (p : Nat), p < 2 ∧ s.runs 9 ∧ s.get CAN_STAT.STATE p = 0 ∧ s.get CAN_CTRL.EN p = 1) ∧
    (∃ (s : State) (sess p : Nat), p < 2 ∧ s.writeStatus sess CAN_CTRL.INIT = 0 ∧ s.canIn p 1 ∧ s.timingOk p) ∧
    (∃ (s : State) (sess p : Nat), p < 2 ∧ s.writeStatus sess CAN_CTRL.INIT = 0 ∧ s.canIn p 1 ∧ s.timingOk p = false) ∧
    (∃ (s : State) (sess p : Nat), p < 2 ∧ s.writeStatus sess CAN_CTRL.INIT = 0 ∧ s.runs 9 ∧ s.get CAN_STAT.STATE p ≠ 0) ∧
    (∃ (s : State) (p n : Nat), s.canIn p 2 ∧ 11 ≤ n) ∧
    (∃ (s : State) (p w0 w1 sof : Nat) (data : List Nat) (tec rec_ f : Nat), s.canIn p 3 ∧ bit w1 4 = false ∧ rxError w1 = 0 ∧ (((List.range
      32).find? fun q => s.filterTakes p q w0 w1) = some f) ∧ s.get CAN_BUF_CTRL.LOCK p (s.get CAN_FLT_DST.BUF p f) = 0 ∧ s.get CAN_BUF_CTRL.NEW p
      (s.get CAN_FLT_DST.BUF p f) = 0 ∧ tec < 256 ∧ rec_ < 128) ∧
    (∃ (s : State) (p w0 w1 sof : Nat) (data : List Nat) (tec rec_ : Nat), s.canIn p 3 ∧ bit w1 4 = false ∧ rxError w1 = 0 ∧ (((List.range 32).find?
      fun q => s.filterTakes p q w0 w1) = none)) ∧
    (∃ (s : State) (p w0 w1 sof : Nat) (data : List Nat) (tec rec_ : Nat), s.canIn p 3 ∧ bit w1 4 = false ∧ rxError w1 ≠ 0) ∧
    (∃ (s : State) (p b : Nat), p < 2 ∧ b < 64 ∧ s.runs 9 ∧ s.mbDir p b = 1 ∧ s.lockOf p = none) ∧
    (∃ (s : State) (p b : Nat), p < 2 ∧ b < 64 ∧ s.runs 9 ∧ s.mbDir p b = 1 ∧ s.lockOf p = some b ∧ lookupKey p s.can.hold = none) ∧
    (∃ (s : State) (p us b : Nat), p < 2 ∧ s.runs 9 ∧ s.lockOf p = some b ∧ 1000 ≤ us ∧ lookupKey p s.can.hold = none) ∧
    (∃ (s : State) (sess p b : Nat), p < 2 ∧ s.writeStatus sess CAN_CTRL.UNLOCK = 0 ∧ s.lockOf p = some b ∧ lookupKey p s.can.hold = none) ∧
    (∃ (s : State) (sess p b : Nat), p < 2 ∧ b < 64 ∧ s.writeStatus sess CAN_BUF_CTRL.TXREQ = 0 ∧ s.mbDir p b = 2 ∧ s.get CAN_CTRL.MODE p ≠ 1 ∧ bit
      (s.mb p b 1) 4 = false ∧ s.get CAN_STAT.STATE p = 3 ∧ s.txQueue p = [] ∧ lookupKey p s.can.offer = none) ∧
    (∃ (s : State) (p delay sof tec rec_ b : Nat), s.canIn p 3 ∧ lookupKey p s.can.offer = some b ∧ b < 64 ∧ s.tdcFrame p b = false ∧ s.get
      CAN_CTRL.MODE p = 0 ∧ tec < 256 ∧ rec_ < 128) ∧
    (∃ (s : State) (p lec : Nat) (delay : Option Nat) (tec rec_ b : Nat), s.canIn p 3 ∧ lookupKey p s.can.offer = some b ∧ b < 64 ∧ s.tdcFrame p b =
      false ∧ s.get CAN_BUF_CTRL.ONESHOT p b = 1 ∧ (0 < lec ∧ lec < 7)) ∧
    (∃ (s : State) (sess p b : Nat) (onBus : Bool), p < 2 ∧ b < 64 ∧ s.writeStatus sess CAN_BUF_CTRL.ABORT = 0 ∧ s.get CAN_BUF_CTRL.TXREQ p b = 1 ∧
      lookupKey p s.can.offer ≠ some b) ∧
    (∃ (s : State) (sess p b : Nat) (onBus : Bool), p < 2 ∧ b < 64 ∧ s.writeStatus sess CAN_BUF_CTRL.ABORT = 0 ∧ s.get CAN_BUF_CTRL.TXREQ p b = 1 ∧
      lookupKey p s.can.offer = some b ∧ onBus) ∧
    (∃ (s : State) (p tec lec : Nat), s.canIn p 3 ∧ 255 < tec ∧ s.get CAN_CTRL.BO_MAX p = 0) ∧
    (∃ (s : State) (p ms : Nat), s.canIn p 4 ∧ s.get CAN_CTRL.BO_AUTO p = 1 ∧ bit s.can.held p = false ∧ s.get CAN_CTRL.BO_WAIT p ≤ ms) ∧
    (∃ (s : State) (sess p : Nat), p < 2 ∧ s.writeStatus sess CAN_CTRL.RECOVER = 0 ∧ s.canIn p 4) ∧
    (∃ (s : State) (p n : Nat), s.canIn p 5 ∧ 128 ≤ n) ∧
    (∃ (s : State) (p tec rec_ : Nat), s.canIn p 3 ∧ (127 < tec ∨ 127 < rec_) ∧ s.get CAN_STAT.EPASS p = 0) ∧
    (∃ (s : State) (p tec rec_ : Nat), s.canIn p 3 ∧ tec < 128 ∧ rec_ < 128 ∧ s.get CAN_STAT.EPASS p = 1) ∧
    (∃ (s : State) (p ms : Nat), s.canIn p 3 ∧ 10000 ≤ ms) :=
  ⟨⟨(fun s : State => st s [(CAN_CTRL.EN, 1, 1), (CAN_STAT.STATE, 0, 1)]) baseOn, 1, by decide⟩,
    ⟨(fun s : State => st s [(SYS_SESS.STATE, 2, 7), (SYS_SESS.LEVEL, 3, 7), (SYS_ROLE.ROLE_ACT, 1, 0), (CAN_STAT.STATE, 1, 1), (CAN_CTRL.INIT, 1,
      1), (CAN_NBT.NBRP, 0, 1), (CAN_NBT.NTSEG1, 118, 1), (CAN_NBT.NTSEG2, 39, 1), (CAN_NBT.NSJW, 39, 1), (CAN_DBT.DBRP, 0, 1), (CAN_DBT.DTSEG1, 29,
      1), (CAN_DBT.DTSEG2, 8, 1), (CAN_DBT.DSJW, 8, 1), (CAN_CTRL.BRS_EN, 0, 1)]) baseOn, 7, 1, by decide⟩,
    ⟨(fun s : State => st s [(SYS_SESS.STATE, 2, 7), (SYS_SESS.LEVEL, 3, 7), (SYS_ROLE.ROLE_ACT, 1, 0), (CAN_STAT.STATE, 1, 1), (CAN_NBT.NTSEG1, 0,
      1)]) baseOn, 7, 1, by decide⟩,
    ⟨(fun s : State => { st s [(SYS_SESS.STATE, 2, 7), (SYS_SESS.LEVEL, 3, 7), (SYS_ROLE.ROLE_ACT, 1, 0), (CAN_STAT.STATE, 4, 1)] with
      can := { s.can with held := 3 } }) baseOn, 7, 1, by decide⟩,
    ⟨(fun s : State => st s [(CAN_STAT.STATE, 2, 1)]) baseOn, 1, 11, by decide⟩,
    ⟨(fun s : State => ((((st s [(CAN_STAT.STATE, 3, 1)]).put CAN_FLT_ID.FEN 1 1 31).put CAN_FLT_DST.BUF 63 1 31).put CAN_BUF_CTRL.DIR 1 1 63))
      baseOn, 1, 0, 8, 77, [1, 2, 3, 4, 5, 6, 7, 8], 3, 4, 31, by decide⟩,
    ⟨(fun s : State => st s [(CAN_STAT.STATE, 3, 1)]) baseOn, 1, 0, 8, 77, [1, 2, 3, 4, 5, 6, 7, 8], 3, 4, by decide⟩,
    ⟨(fun s : State => st s [(CAN_STAT.STATE, 3, 1)]) baseOn, 1, 0, 0x308, 77, [1, 2], 3, 4, by decide⟩,
    ⟨(fun s : State => (s.put CAN_BUF_CTRL.DIR 1 1 63)) baseOn, 1, 63, by decide⟩,
    ⟨(fun s : State => (((s.put CAN_BUF_CTRL.DIR 1 1 63).put CAN_BUF_CTRL.LOCK 1 1 63).put CAN_BUF_CTRL.NEW 1 1 63)) baseOn, 1, 63, by decide⟩,
    ⟨(fun s : State => ((s.put CAN_BUF_CTRL.DIR 1 1 63).put CAN_BUF_CTRL.LOCK 1 1 63)) baseOn, 1, 1000, 63, by decide⟩,
    ⟨(fun s : State => (((st s [(SYS_SESS.STATE, 2, 7), (SYS_SESS.LEVEL, 3, 7), (SYS_ROLE.ROLE_ACT, 1, 0)]).put CAN_BUF_CTRL.DIR 1 1 63).put
      CAN_BUF_CTRL.LOCK 1 1 63)) baseOn, 7, 1, 63, by decide⟩,
    ⟨(fun s : State => ((st s [(SYS_SESS.STATE, 2, 7), (SYS_SESS.LEVEL, 3, 7), (SYS_ROLE.ROLE_ACT, 1, 0), (CAN_STAT.STATE, 3, 1), (CAN_CTRL.MODE, 0,
      1)]).put CAN_BUF_CTRL.DIR 2 1 63)) baseOn, 7, 1, 63, by decide⟩,
    ⟨(fun s : State => { (((st s [(CAN_STAT.STATE, 3, 1), (CAN_CTRL.MODE, 0, 1)]).put CAN_BUF_CTRL.DIR 2 1 63).put CAN_BUF_CTRL.TXREQ 1 1 63) with
      can := { s.can with offer := [(1, 63)] } }) baseOn, 1, 0, 0, 255, 127, 63, by decide⟩,
    ⟨(fun s : State => { ((((st s [(CAN_STAT.STATE, 3, 1)]).put CAN_BUF_CTRL.ONESHOT 1 1 63).put CAN_BUF_CTRL.DIR 2 1 63).put CAN_BUF_CTRL.TXREQ 1 1
      63) with can := { s.can with offer := [(1, 63)] } }) baseOn, 1, 6, some 0, 255, 127, 63, by decide⟩,
    ⟨(fun s : State => (((st s [(SYS_SESS.STATE, 2, 7), (SYS_SESS.LEVEL, 3, 7), (SYS_ROLE.ROLE_ACT, 1, 0)]).put CAN_BUF_CTRL.DIR 2 1 63).put
      CAN_BUF_CTRL.TXREQ 1 1 63)) baseOn, 7, 1, 63, false, by decide⟩,
    ⟨(fun s : State => { (((st s [(SYS_SESS.STATE, 2, 7), (SYS_SESS.LEVEL, 3, 7), (SYS_ROLE.ROLE_ACT, 1, 0)]).put CAN_BUF_CTRL.DIR 2 1 63).put
      CAN_BUF_CTRL.TXREQ 1 1 63) with can := { s.can with offer := [(1, 63)] } }) baseOn, 7, 1, 63, true, by decide⟩,
    ⟨(fun s : State => { st s [(CAN_STAT.STATE, 3, 1), (CAN_CTRL.BO_MAX, 0, 1)] with can := { s.can with offer := [(1, 63)] } }) baseOn, 1, 256, 7,
      by decide⟩,
    ⟨(fun s : State => { st s [(CAN_STAT.STATE, 4, 1), (CAN_CTRL.BO_AUTO, 1, 1), (CAN_CTRL.BO_WAIT, 100, 1)] with can := { s.can with held := 1 } })
      baseOn, 1, 100, by decide⟩,
    ⟨(fun s : State => { st s [(SYS_SESS.STATE, 2, 7), (SYS_SESS.LEVEL, 3, 7), (SYS_ROLE.ROLE_ACT, 1, 0), (CAN_STAT.STATE, 4, 1)] with
      can := { s.can with held := 3 } }) baseOn, 7, 1, by decide⟩,
    ⟨(fun s : State => st s [(CAN_STAT.STATE, 5, 1), (CAN_STAT.TEC, 9, 1)]) baseOn, 1, 128, by decide⟩,
    ⟨(fun s : State => st s [(CAN_STAT.STATE, 3, 1), (CAN_STAT.EPASS, 0, 1)]) baseOn, 1, 0, 128, by decide⟩,
    ⟨(fun s : State => st s [(CAN_STAT.STATE, 3, 1), (CAN_STAT.EPASS, 1, 1)]) baseOn, 1, 127, 127, by decide⟩,
    ⟨(fun s : State => st s [(CAN_STAT.STATE, 3, 1), (CAN_STAT.BO_RUN, 3, 1)]) baseOn, 1, 10000, by decide⟩⟩

/-- The hypotheses of `VaultResults` can be met, clause by clause. -/
theorem witness_vault_results :
    (∃ (s : State) (sess w : Nat), s.writeStatus sess KV_STAGE_DATA.DATA = 0 ∧ (s.kv.owner = none ∨ s.kv.owner = some sess) ∧ w < 2 ^ 32) ∧
    (∃ (s : State) (sess w : Nat), s.writeStatus sess KV_STAGE_DATA.DATA = 0 ∧ s.kv.owner ≠ none ∧ s.kv.owner ≠ some sess) ∧
    (∃ (s : State) (ms : Nat), s.kv.owner ≠ none ∧ 1000 ≤ ms) ∧
    (∃ (s : State) (sess slot type use : Nat) (lockw mseal wrapOk : Bool) (plain : Option (List Nat)), s.writeStatus sess KV_CMD.GO = 0 ∧ s.kvReady ∧
      (s.kv.owner = none ∨ s.kv.owner = some sess) ∧ (6 ≤ slot ∧ slot < 64) ∧ s.isSealed = false ∧ (s.slot slot).used = false ∧ (s.slot slot).lockw
      = false ∧ type = 2 ∧ use = 6 ∧ s.get KV_STAGE_LEN.LEN = 32) ∧
    (∃ (s : State) (sess slot type use : Nat) (lockw mseal : Bool) (wrap : Option Nat) (wrapOk : Bool) (plain : Option (List Nat)), s.writeStatus sess
      KV_CMD.GO = 0 ∧ s.kvReady ∧ (s.kv.owner = none ∨ s.kv.owner = some sess) ∧ slot < 5) ∧
    (∃ (s : State) (sess slot : Nat) (parses same ca : Bool), s.writeStatus sess KV_CMD.GO = 0 ∧ s.kvReady ∧ (s.kv.owner = none ∨ s.kv.owner = some
      sess) ∧ (6 ≤ slot ∧ slot < 64) ∧ s.isSealed = false ∧ (s.slot slot).used = false ∧ (s.slot slot).lockw = false ∧ (s.slot slot).mseal = false ∧
      (s.slot slot).bad = false ∧ parses ∧ ca) ∧
    (∃ (s : State) (sess slot type use : Nat) (lockw mseal : Bool), s.writeStatus sess KV_CMD.GO = 0 ∧ s.kvReady ∧ (s.kv.owner = none ∨ s.kv.owner =
      some sess) ∧ (6 ≤ slot ∧ slot < 64) ∧ s.isSealed = false ∧ (s.slot slot).used = false ∧ (s.slot slot).lockw = false ∧ type = 2 ∧ use = 2) ∧
    (∃ (s : State) (sess slot : Nat), s.writeStatus sess KV_CMD.GO = 0 ∧ s.kvReady ∧ (s.kv.owner = none ∨ s.kv.owner = some sess) ∧ (6 ≤ slot ∧ slot <
      64) ∧ s.isSealed = false) ∧
    (∃ (s : State) (sess slot : Nat), s.writeStatus sess KV_CMD.GO = 0 ∧ s.runs 11 ∧ s.kv.owner ≠ none ∧ s.kv.owner ≠ some sess ∧ slot < 64) ∧
    (∃ (s : State) (sess : Nat) (parentOk : Bool) (k : List Nat) (p : Nat), s.writeStatus sess KV_CMD.GO = 0 ∧ s.kvReady ∧ (s.kv.owner = none ∨
      s.kv.owner = some sess) ∧ parentOk ∧ s.get KV_FIRN.PARENT = p ∧ p < 64 ∧ s.slot p = { type := 2, use := 6, key := some k } ∧ s.get
      KV_FIRN.TYPE = 2 ∧ s.get KV_FIRN.USE = 2 ∧ s.get KV_FIRN.LABEL_LEN = 4) ∧
    (∃ (s : State) (mv : Nat), s.runs 11 ∧ s.get KV_STAT.RES_OK = 1 ∧ mv < 4500) ∧
    (∃ (s : State) (mv : Nat), s.runs 11 ∧ 4500 ≤ mv) :=
  ⟨⟨(fun s : State => { st s [(SYS_SESS.STATE, 2, 7), (SYS_SESS.LEVEL, 3, 7), (SYS_ROLE.ROLE_ACT, 1, 0), (KV_STAGE_ADDR.INDEX, 5, 0)] with kv := { s.kv with owner := none } })
      baseOn, 7, 4294967295, by decide⟩,
    ⟨(fun s : State => { st s [(SYS_SESS.STATE, 2, 7), (SYS_SESS.LEVEL, 3, 7), (SYS_ROLE.ROLE_ACT, 1, 0)] with kv := { s.kv with owner := some 1 } })
      baseOn, 7, 1, by decide⟩,
    ⟨(fun s : State => { s with kv := { s.kv with owner := some 1, stage := [(0, 1#32)] } }) baseOn, 1000, by decide⟩,
    ⟨(fun s : State => st s [(SYS_SESS.STATE, 2, 7), (SYS_SESS.LEVEL, 3, 7), (SYS_ROLE.ROLE_ACT, 1, 0), (SYS_READY.RDY, 0x3FFF, 0), (KV_STAGE_LEN.LEN,
      32, 0)]) baseOn, 7, 63, 2, 6, true, false, true, none, by decide⟩,
    ⟨(fun s : State => st s [(SYS_SESS.STATE, 2, 7), (SYS_SESS.LEVEL, 3, 7), (SYS_ROLE.ROLE_ACT, 1, 0), (SYS_READY.RDY, 0x3FFF, 0), (KV_STAGE_LEN.LEN,
      32, 0)]) baseOn, 7, 4, 2, 6, true, false, none, true, none, by decide⟩,
    ⟨(fun s : State => st s [(SYS_SESS.STATE, 2, 7), (SYS_SESS.LEVEL, 3, 7), (SYS_ROLE.ROLE_ACT, 1, 0), (SYS_READY.RDY, 0x3FFF, 0), (KV_STAGE_LEN.LEN,
      32, 0)]) baseOn, 7, 63, true, false, true, by decide⟩,
    ⟨(fun s : State => st s [(SYS_SESS.STATE, 2, 7), (SYS_SESS.LEVEL, 3, 7), (SYS_ROLE.ROLE_ACT, 1, 0), (SYS_READY.RDY, 0x3FFF, 0)]) baseOn, 7, 63, 2,
      2, true, false, by decide⟩,
    ⟨(fun s : State => { st s [(SYS_SESS.STATE, 2, 7), (SYS_SESS.LEVEL, 3, 7), (SYS_ROLE.ROLE_ACT, 1, 0), (SYS_READY.RDY, 0x3FFF, 0)] with vault := { s.vault with slots := [(63, { type := 2, use := 2, lockw := true, key := some [1] })] } })
      baseOn, 7, 63, by decide⟩,
    ⟨(fun s : State => { st s [(SYS_SESS.STATE, 2, 7), (SYS_SESS.LEVEL, 3, 7), (SYS_ROLE.ROLE_ACT, 1, 0)] with kv := { s.kv with owner := some 1 } })
      baseOn, 7, 63, by decide⟩,
    ⟨(fun s : State => { st s [(SYS_SESS.STATE, 2, 7), (SYS_SESS.LEVEL, 3, 7), (SYS_ROLE.ROLE_ACT, 1, 0), (SYS_READY.RDY, 0x3FFF, 0), (KV_FIRN.PARENT, 62, 0), (KV_FIRN.TYPE, 2, 0), (KV_FIRN.USE, 2, 0), (KV_FIRN.LABEL_LEN, 4, 0), (KV_FIRN.TARGET, 127, 0)] with vault := { s.vault with slots := [(62, { type := 2, use := 6, key := some (List.replicate 32 7) })] } })
      baseOn, 7, true, List.replicate 32 7, 62, by decide⟩,
    ⟨(fun s : State => s.put KV_STAT.RES_OK 1) baseOn, 4499, by decide⟩,
    ⟨(fun s : State => s.put KV_STAT.RES_OK 0) baseOn, 4500, by decide⟩⟩

/-- The hypotheses of `EventRecorderResults` can be met, clause by clause. -/
theorem witness_event_recorder_results :
    (∃ (s : State) (r : Rec) (l : List Rec), s.evr.queue = r :: l ∧ s.evr.dropped = 0 ∧ s.evr.discNew = 0 ∧ s.evr.op.length < 16384) ∧
    (∃ (s : State) (sess v : Nat), s.level sess ≠ 0 ∧ s.runs 3 ∧ v < 2 ^ 32) ∧
    (∃ (s : State) (sess v : Nat) (ok : Bool) (h0 : Held), s.writeStatus sess EVR_RD_SEQ.SEQ = 0 ∧ s.runs 3 ∧ v < 2 ^ 32 ∧ nextHeld (s.logOf (s.ses
      sess).win.log) v = some h0 ∧ ok) ∧
    (∃ (s : State) (sess v : Nat) (ok : Bool) (h0 : Held), s.writeStatus sess EVR_RD_SEQ.SEQ = 0 ∧ s.runs 3 ∧ v < 2 ^ 32 ∧ nextHeld (s.logOf (s.ses
      sess).win.log) v = some h0 ∧ ok = false) ∧
    (∃ (s : State) (sess : Nat) (ok : Bool), s.level sess ≠ 0 ∧ s.runs 3 ∧ (s.ses sess).win.auto ∧ (s.ses sess).win.present ∧ nextHeld (s.logOf (s.ses
      sess).win.log) ((s.ses sess).win.seq + 1) = none) ∧
    (∃ (s : State) (sess key log : Nat) (h0 : Held), s.writeStatus sess EVR_FIND_CTRL.GO = 0 ∧ s.runs 3 ∧ key = 1 ∧ log = 0 ∧ s.evr.op = [h0] ∧ bit
      h0.rcd.src 5 = false ∧ (s.ses sess).find.lo ≤ h0.rcd.utc) ∧
    (∃ (s : State) (op mor : List Nat) (q : Nat), op = [q] ∧ mor = [] ∧ (s.evr.op.any fun h => h.seq == q)) ∧
    (∃ (s : State) (a : La), s.laDue = some a ∧ a.ep = 0x01D ∧ a.op = 1 ∧ s.laCode a = 1) :=
  ⟨⟨(fun s : State => { s.put EVR_OP_SEQ.SEQ 4294967295 with evr := { s.evr with queue := [⟨5, 6, 0x0101, 2, 1, []⟩], dropped := 0, discNew := 0, op := [] } })
      baseOn, ⟨5, 6, 0x0101, 2, 1, []⟩, [], by decide⟩,
    ⟨(fun s : State => { st s [(SYS_SESS.STATE, 2, 7), (SYS_SESS.LEVEL, 1, 7)] with evr := { s.evr with op := [⟨4, ⟨5, 6, 0x0101, 2, 1, []⟩⟩, ⟨5, ⟨5, 6, 0x0101, 2, 1, []⟩⟩] } })
      baseOn, 7, 4, by decide⟩,
    ⟨(fun s : State => { st s [(SYS_SESS.STATE, 2, 7), (SYS_SESS.LEVEL, 3, 7), (SYS_ROLE.ROLE_ACT, 1, 0)] with evr := { s.evr with op := [⟨4, ⟨5, 6, 0x0101, 2, 1, []⟩⟩] } })
      baseOn, 7, 3, true, ⟨4, ⟨5, 6, 0x0101, 2, 1, []⟩⟩, by decide⟩,
    ⟨(fun s : State => { st s [(SYS_SESS.STATE, 2, 7), (SYS_SESS.LEVEL, 3, 7), (SYS_ROLE.ROLE_ACT, 1, 0)] with evr := { s.evr with op := [⟨4, ⟨5, 6, 0x0101, 2, 1, []⟩⟩] } })
      baseOn, 7, 3, false, ⟨4, ⟨5, 6, 0x0101, 2, 1, []⟩⟩, by decide⟩,
    ⟨(fun s : State => (st s [(SYS_SESS.STATE, 2, 7), (SYS_SESS.LEVEL, 1, 7)]).setSes 7 { win := { auto := true, present := true, seq := 9 } }) baseOn,
      7, true, by decide⟩,
    ⟨(fun s : State => { st s [(SYS_SESS.STATE, 2, 7), (SYS_SESS.LEVEL, 3, 7), (SYS_ROLE.ROLE_ACT, 1, 0)] with evr := { s.evr with op := [⟨4, ⟨5, 6, 0x0101, 2, 1, []⟩⟩] } })
      baseOn, 7, 1, 0, ⟨4, ⟨5, 6, 0x0101, 2, 1, []⟩⟩, by decide⟩,
    ⟨(fun s : State => { s with evr := { s.evr with op := [⟨4, ⟨5, 6, 0x0101, 2, 1, []⟩⟩] } }) baseOn, [4], [], 4, by decide⟩,
    ⟨(fun s : State => { s.put TB_STAT.ALIGNED 1 with fab := { s.fab with la := [anLa 0x01D 1 []] } }) baseOn, anLa 0x01D 1 [], by decide⟩⟩

/-- The hypotheses of `SupplyResults` can be met, clause by clause. -/
theorem witness_supply_results :
    (∃ (s : State) (mv us : Nat), s.supplied ∧ s.vsupNormal ∧ mv < 15500 ∧ 1000 ≤ us) ∧
    (∃ (s : State) (mv us : Nat), s.supplied ∧ s.get PWR_SUPPLY_STAT.LOW_BAND = 1 ∧ 16000 ≤ mv ∧ 1000 ≤ us) ∧
    (∃ (s : State) (mv us : Nat), s.supplied ∧ s.vsupNormal ∧ 36500 < mv ∧ 1000 ≤ us) ∧
    (∃ (s : State) (mv us : Nat), s.supplied ∧ s.get PWR_SUPPLY_STAT.HIGH_BAND = 1 ∧ mv ≤ 36000 ∧ 1000 ≤ us) ∧
    (∃ (s : State) (mv us : Nat), s.supplied ∧ s.get PWR_SUPPLY_STAT.OVERV = 0 ∧ s.get PWR_STATE.STATE = 0 ∧ 38000 < mv ∧ 1000 ≤ us) ∧
    (∃ (s : State) (mv us : Nat), s.supplied ∧ s.get PWR_SUPPLY_STAT.OVERV = 1 ∧ mv < 36500 ∧ 1000 ≤ us) ∧
    (∃ (s : State) (mv us back : Nat) (o : BootObs), s.runs 1 ∧ s.boot.failing = false ∧ mv < 9000 ∧ 50 ≤ us) ∧
    (∃ (s : State) (mv us back : Nat) (o : BootObs), s.boot.failing ∧ s.boot.rail = false ∧ back < 10) ∧
    (∃ (s : State) (d us : Nat) (o : BootObs), s.runs 1 ∧ s.boot.failing = false ∧ d < 12 ∧ 10 < us) ∧
    (∃ (s : State) (v : Nat), s.supplied ∧ s.get PWR_HOLDUP.TESTING = 0 ∧ 164 ≤ v) ∧
    (∃ (s : State) (sess : Nat), s.writeStatus sess PWR_HOLDUP.TEST = 0 ∧ s.get PWR_HOLDUP.TESTING = 0 ∧ s.boot.failing = false) ∧
    (∃ (s : State) (e v : Nat), s.supplied ∧ s.get PWR_HOLDUP.TESTING = 1 ∧ 160 ≤ v ∧ 1920 ≤ e) ∧
    (∃ (s : State) (e v : Nat), s.supplied ∧ s.get PWR_HOLDUP.TESTING = 1 ∧ v < 160 ∧ e < 1920) ∧
    (∃ (s : State) (mv : Nat), s.runs 1 ∧ mv < 2600 ∧ s.get PWR_SUPPLY_STAT.VBAT_LOW = 0) ∧
    (∃ (s : State) (mv : Nat), 2600 ≤ mv) ∧
    (∃ (s : State) (sess : Nat), s.writeStatus sess PWR_STATE.CMD = 0 ∧ s.get PWR_STATE.STATE = 0) ∧
    (∃ (s : State) (sess : Nat), s.writeStatus sess PWR_STATE.CMD = 0 ∧ s.get PWR_STATE.STATE = 1 ∧ s.runRefusal = 0) ∧
    (∃ (s : State) (sess : Nat), s.writeStatus sess PWR_STATE.CMD = 0 ∧ s.get PWR_STATE.STATE = 1 ∧ s.runRefusal ≠ 0) ∧
    (∃ (s : State) (sess : Nat), s.writeStatus sess PWR_STATE.CMD = 0 ∧ s.dormantRefusal = 0) ∧
    (∃ (s : State) (sess : Nat), s.writeStatus sess PWR_STATE.CMD = 0 ∧ s.get PWR_STATE.STATE = 0) ∧
    (∃ (s : State) (src : Nat) (o : BootObs), s.boot.dormant ∧ src < 4 ∧ bit (s.get PWR_WAKE.EN) src ∧ s.supplied ∧ s.boot.kind = 0) :=
  ⟨⟨baseOn, 15499, 1000, by decide⟩,
    ⟨(fun s : State => s.put PWR_SUPPLY_STAT.LOW_BAND 1) baseOn, 16000, 1000, by decide⟩,
    ⟨baseOn, 36501, 1000, by decide⟩,
    ⟨(fun s : State => s.put PWR_SUPPLY_STAT.HIGH_BAND 1) baseOn, 36000, 1000, by decide⟩,
    ⟨(fun s : State => st s [(PWR_STATE.STATE, 0, 0), (PWR_SUPPLY_STAT.HIGH_BAND, 1, 0)]) baseOn, 38001, 1000, by decide⟩,
    ⟨(fun s : State => s.put PWR_SUPPLY_STAT.OVERV 1) baseOn, 36499, 1000, by decide⟩,
    ⟨(fun s : State => st s [(PWR_STATE.STATE, 0, 0)]) baseOn, 8999, 50, 0, ⟨[], [], 0, 0, [], 0, 100, 0, 0⟩, by decide⟩,
    ⟨(fun s : State => { s with boot := { s.boot with failing := true, rail := false } }) baseOn, 9000, 0, 9, ⟨[], [], 0, 0, [], 0, 100, 0, 0⟩, by
      decide⟩,
    ⟨(fun s : State => st s [(PWR_STATE.STATE, 0, 0)]) baseOn, 11, 11, ⟨[], [], 0, 0, [], 0, 100, 0, 0⟩, by decide⟩,
    ⟨baseOn, 164, by decide⟩,
    ⟨(fun s : State => st s [(SYS_SESS.STATE, 2, 7), (SYS_SESS.LEVEL, 3, 7), (SYS_ROLE.ROLE_ACT, 1, 0)]) baseOn, 7, by decide⟩,
    ⟨(fun s : State => s.put PWR_HOLDUP.TESTING 1) baseOn, 1920, 160, by decide⟩,
    ⟨(fun s : State => s.put PWR_HOLDUP.TESTING 1) baseOn, 1919, 159, by decide⟩,
    ⟨baseOn, 2599, by decide⟩,
    ⟨(fun s : State => s.put PWR_SUPPLY_STAT.VBAT_LOW 1) baseOn, 2600, by decide⟩,
    ⟨(fun s : State => st s [(SYS_SESS.STATE, 2, 7), (SYS_SESS.LEVEL, 3, 7), (SYS_ROLE.ROLE_ACT, 1, 0), (PWR_STATE.STATE, 0, 0)]) baseOn, 7, by decide⟩,
    ⟨(fun s : State => st s [(SYS_SESS.STATE, 2, 7), (SYS_SESS.LEVEL, 3, 7), (SYS_ROLE.ROLE_ACT, 1, 0), (PWR_STATE.STATE, 1, 0), (PWR_HOLDUP.HOLDUP_OK,
      1, 0)]) baseOn, 7, by decide⟩,
    ⟨(fun s : State => st s [(SYS_SESS.STATE, 2, 7), (SYS_SESS.LEVEL, 3, 7), (SYS_ROLE.ROLE_ACT, 1, 0), (PWR_STATE.STATE, 1, 0), (PWR_HOLDUP.HOLDUP_OK,
      0, 0)]) baseOn, 7, by decide⟩,
    ⟨(fun s : State => st s [(SYS_SESS.STATE, 2, 7), (SYS_SESS.LEVEL, 3, 7), (SYS_ROLE.ROLE_ACT, 1, 0), (PWR_STATE.STATE, 1, 0)]) baseOn, 7, by decide⟩,
    ⟨(fun s : State => st s [(SYS_SESS.STATE, 2, 7), (SYS_SESS.LEVEL, 3, 7), (SYS_ROLE.ROLE_ACT, 1, 0), (PWR_STATE.STATE, 0, 0)]) baseOn, 7, by decide⟩,
    ⟨(fun s : State => { st s [(PWR_WAKE.EN, 15, 0)] with boot := { s.boot with dormant := true, kind := 0 } }) baseOn, 3, ⟨[], [], 0, 0, [], 0, 100,
      0, 0⟩, by decide⟩⟩

/-- The hypotheses of `AuxResults` can be met, clause by clause. -/
theorem witness_aux_results :
    (∃ (s : State) (sess a : Nat), a < 6 ∧ s.writeStatus sess PWR_AUX_CTRL.EN = 0 ∧ s.runs 10 ∧ bit s.boot.cal 5 = false ∧ s.get
      PWR_AUX_STAT.FB_FAULT a = 0 ∧ s.get PWR_AUX_STAT.MODE a = 0) ∧
    (∃ (s : State) (sess a : Nat), a < 6 ∧ s.writeStatus sess PWR_AUX_CTRL.EN = 0 ∧ s.runs 10 ∧ s.get PWR_AUX_STAT.PGOOD a = 0) ∧
    (∃ (s : State) (pair v us : Nat), s.runs 10 ∧ pair = 1 ∧ v < 4 ∧ 1000 ≤ us) ∧
    (∃ (s : State) (a fb us : Nat), a < 6 ∧ s.runs 10 ∧ s.get PWR_AUX_STAT.MODE a = 1 ∧ s.get PWR_AUX_STAT.PGOOD a = 0 ∧ s.auxInBand a fb ∧ 1000 ≤
      us) ∧
    (∃ (s : State) (a fb : Nat), a < 6 ∧ s.runs 10 ∧ s.get PWR_AUX_STAT.PGOOD a = 1 ∧ s.auxInBand a fb = false) ∧
    (∃ (s : State) (a ms : Nat), a < 6 ∧ s.auxRuns a ∧ (s.aux a).good = false ∧ 20 ≤ ms) ∧
    (∃ (s : State) (a n : Nat), a < 6 ∧ s.runs 10 ∧ s.get PWR_AUX_CTRL.BURST_EN a = 1 ∧ (s.get PWR_AUX_STAT.MODE a = 1 ∨ s.get PWR_AUX_STAT.MODE a =
      2) ∧ s.auxFallback a = false ∧ 16 ≤ n ∧ s.auxLoopTh a < s.auxBurstTh a) ∧
    (∃ (s : State) (a fb : Nat), a < 6 ∧ s.runs 10 ∧ s.get PWR_AUX_STAT.MODE a = 3 ∧ 100 * fb ≤ 99 * s.auxRef a ∧ s.get PWR_AUX_STAT.PGOOD a = 1) ∧
    (∃ (s : State) (a n f : Nat), a < 6 ∧ s.auxRuns a ∧ s.get PWR_AUX_CTRL.SYNC_EN a = 1 ∧ s.get PWR_AUX_STAT.SYNCED a = 0 ∧ 8 ≤ n ∧ 8 * clampN 1000
      10000 (s.get PWR_AUX_FSW.FSW a) ≤ f ∧ f ≤ 12 * clampN 1000 10000 (s.get PWR_AUX_FSW.FSW a) ∧ (s.aux a).lost) ∧
    (∃ (s : State) (a tw : Nat), a < 6 ∧ s.runs 10 ∧ s.get PWR_AUX_STAT.SYNCED a = 1 ∧ 15 ≤ tw) ∧
    (∃ (s : State) (a fb : Nat), a < 6 ∧ s.auxRuns a ∧ s.auxOver a fb (s.get PWR_AUX_OVS.OV1 a)) ∧
    (∃ (s : State) (a fb n : Nat), a < 6 ∧ s.auxRuns a ∧ s.get PWR_AUX_STAT.MODE a ≠ 5 ∧ (s.auxOver a fb (s.get PWR_AUX_OVS.OV2 a) ∨ s.auxOver a fb
      (s.get PWR_AUX_OVS.OV1 a) ∧ 2 < n)) ∧
    (∃ (s : State) (a fb : Nat), a < 6 ∧ s.runs 10 ∧ s.get PWR_AUX_STAT.MODE a = 5 ∧ 400 * fb < s.auxRef a * (400 + s.get PWR_AUX_OVS.OV1 a) ∧ s.get
      PWR_AUX_STAT.PGOOD a = 0) ∧
    (∃ (s : State) (a n : Nat), a < 6 ∧ s.runs 10 ∧ s.get PWR_AUX_TEMP.TS_SEL a = n ∧ n < 48 ∧ 10 * (s.get PWR_AUX_TEMP.WARN a : Int) ≤ s.geti
      TH_TS_VAL.REP n ∧ s.get PWR_AUX_STAT.TWARN a = 0) ∧
    (∃ (s : State) (a n : Nat), a < 6 ∧ s.get PWR_AUX_TEMP.TS_SEL a = n ∧ n < 48 ∧ s.auxRuns a ∧ 10 * (s.get PWR_AUX_TEMP.SHUT a : Int) ≤ s.geti
      TH_TS_VAL.REP n ∧ s.get PWR_AUX_STAT.PGOOD a = 0) ∧
    (∃ (s : State) (a n : Nat), a < 6 ∧ s.get PWR_AUX_TEMP.TS_SEL a = n ∧ n < 48 ∧ s.get PWR_AUX_STAT.MODE a = 6 ∧ s.geti TH_TS_VAL.REP n ≤ 10 *
      (s.get PWR_AUX_TEMP.SHUT a : Int) - 150 ∧ s.runs 10 ∧ bit s.boot.cal 5 = false ∧ s.get PWR_AUX_STAT.FB_FAULT a = 0 ∧ s.get PWR_AUX_CTRL.EN a = 1)
      ∧
    (∃ (s : State) (code us since onUs mv : Nat), s.runs 10 ∧ code < 16 ∧ 1000 ≤ us ∧ 10 ≤ since ∧ s.get LSW_CH_STAT.STATE code = 1 ∧ 200 ≤ onUs ∧ mv
      ≤ 3300) ∧
    (∃ (s : State) (code us since onUs mv : Nat), s.runs 10 ∧ code < 16 ∧ 1000 ≤ us ∧ since < 10) :=
  ⟨⟨(fun s : State => st s [(SYS_SESS.STATE, 2, 7), (SYS_SESS.LEVEL, 3, 7), (SYS_ROLE.ROLE_ACT, 1, 0)]) baseOn, 7, 5, by decide⟩,
    ⟨(fun s : State => { st s [(SYS_SESS.STATE, 2, 7), (SYS_SESS.LEVEL, 3, 7), (SYS_ROLE.ROLE_ACT, 1, 0), (PWR_AUX_STAT.MODE, 1, 5)] with
      pins := { s.pins with auxDrv := 63 } }) baseOn, 7, 5, by decide⟩,
    ⟨baseOn, 1, 3, 1000, by decide⟩,
    ⟨(fun s : State => st s [(PWR_AUX_STAT.MODE, 1, 5), (PWR_AUX_SETPT01.SP0, 1000, 5)]) baseOn, 5, 1000, 1000, by decide⟩,
    ⟨(fun s : State => st s [(PWR_AUX_STAT.PGOOD, 1, 5), (PWR_AUX_SETPT01.SP0, 1000, 5)]) baseOn, 5, 500, by decide⟩,
    ⟨(fun s : State => st s [(PWR_AUX_STAT.MODE, 1, 5)]) baseOn, 5, 20, by decide⟩,
    ⟨(fun s : State => (st s [(PWR_AUX_STAT.MODE, 1, 5), (PWR_AUX_CTRL.LOOP, 63, 5), (PWR_AUX_CTRL.BURST_EN, 1, 5), (PWR_AUX_OVS.BURST_TH, 10, 5),
      (PWR_AUX_CS.ILIM, 100, 5)]).setAux 5 {}) baseOn, 5, 16, by decide⟩,
    ⟨(fun s : State => st s [(PWR_AUX_STAT.MODE, 3, 5), (PWR_AUX_STAT.PGOOD, 1, 5)]) baseOn, 5, 0, by decide⟩,
    ⟨(fun s : State => (st s [(PWR_AUX_STAT.MODE, 2, 5), (PWR_AUX_CTRL.SYNC_EN, 1, 5), (PWR_AUX_FSW.FSW, 1000, 5)]).setAux 5 { lost := true })
      baseOn, 5, 8, 12000, by decide⟩,
    ⟨(fun s : State => s.put PWR_AUX_STAT.SYNCED 1 5) baseOn, 5, 15, by decide⟩,
    ⟨(fun s : State => st s [(PWR_AUX_STAT.MODE, 2, 5)]) baseOn, 5, 4095, by decide⟩,
    ⟨(fun s : State => st s [(PWR_AUX_STAT.MODE, 2, 5)]) baseOn, 5, 4095, 3, by decide⟩,
    ⟨(fun s : State => (s.put PWR_AUX_STAT.MODE 5 5).setAux 5 { ref := 1000 }) baseOn, 5, 0, by decide⟩,
    ⟨(fun s : State => st s [(PWR_AUX_TEMP.TS_SEL, 47, 5), (PWR_AUX_TEMP.WARN, 90, 5), (TH_TS_VAL.REP, 900, 47)]) baseOn, 5, 47, by decide⟩,
    ⟨(fun s : State => st s [(PWR_AUX_STAT.MODE, 2, 5), (PWR_AUX_TEMP.TS_SEL, 47, 5), (PWR_AUX_TEMP.SHUT, 90, 5), (TH_TS_VAL.REP, 900, 47)]) baseOn,
      5, 47, by decide⟩,
    ⟨(fun s : State => st s [(PWR_AUX_STAT.MODE, 6, 5), (PWR_AUX_CTRL.EN, 1, 5), (PWR_AUX_TEMP.TS_SEL, 47, 5), (PWR_AUX_TEMP.SHUT, 90, 5),
      (TH_TS_VAL.REP, 750, 47)]) baseOn, 5, 47, by decide⟩,
    ⟨(fun s : State => s.put LSW_CH_STAT.STATE 1 15) baseOn, 15, 1000, 10, 200, 3300, by decide⟩,
    ⟨(fun s : State => s.put LSW_CH_STAT.STATE 1 15) baseOn, 15, 1000, 9, 200, 3300, by decide⟩⟩

/-- The hypotheses of `ResetResults` can be met, clause by clause. -/
theorem witness_reset_results :
    (∃ (s : State) (sess : Nat), s.writeStatus sess SYS_ROLE_CMD.APPLY = 0 ∧ s.get SYS_ROLE_CMD.APPLY = 0 ∧ s.applyRefusal = 0 ∧ s.runningNext =
      s.running) ∧
    (∃ (s : State) (sess : Nat), s.writeStatus sess SYS_ROLE_CMD.APPLY = 0 ∧ s.get SYS_ROLE_CMD.APPLY = 0 ∧ s.applyRefusal ≠ 0) ∧
    (∃ (s : State) (o : BootObs), s.get SYS_ROLE_CMD.APPLY = 1 ∧ s.boot.kind = 0) ∧
    (∃ (s : State) (mv ms : Nat) (cold : Bool) (o : BootObs), s.runs 1 = false ∧ s.boot.failing = false ∧ 16000 ≤ mv ∧ 10 ≤ ms) ∧
    (∃ (s : State) (mv ms : Nat) (cold : Bool) (o : BootObs), s.runs 1 = false ∧ s.boot.failing = false ∧ 16000 ≤ mv ∧ 10 ≤ ms ∧ s.flBytes 0 4 ≠
      [0x4D, 0x44, 0x4E, 0x43] ∧ s.flBytes 0x200000 4 ≠ [0x4D, 0x44, 0x4E, 0x43]) ∧
    (∃ (s : State) (ns : Nat) (low : Bool) (o : BootObs), s.supplied ∧ 1000 ≤ ns ∧ low ∧ s.boot.kind = 0) ∧
    (∃ (s : State) (ns : Nat) (low : Bool) (o : BootObs), s.supplied ∧ ns < 100) ∧
    (∃ (s : State) (o : BootObs), s.pins.rstLow ∧ s.supplied ∧ s.boot.kind = 3) ∧
    (∃ (s : State) (sess : Nat) (o : BootObs), s.writeStatus sess SYS_RST_CMD.SOFT = 0 ∧ s.softRefusal = 0 ∧ s.boot.kind = 0 ∧ s.boot.failing =
      false) ∧
    (∃ (s : State) (sess : Nat) (o : BootObs), s.writeStatus sess SYS_RST_CMD.SOFT = 0 ∧ s.softRefusal ≠ 0) ∧
    (∃ (s : State) (sess bits : Nat), s.writeStatus sess PWR_DOM_RST.RST = 0 ∧ 0 < bits ∧ bits < 2 ^ 9 ∧ s.domainRefusal (8 * bits) = 0 ∧ s.boot.kind
      = 0 ∧ s.boot.failing = false) ∧
    (∃ (s : State) (sess bits : Nat), s.writeStatus sess PWR_DOM_RST.RST = 0 ∧ 0 < bits ∧ bits < 2 ^ 9 ∧ s.domainRefusal (8 * bits) ≠ 0) ∧
    (∃ (s : State) (o : BootObs), s.boot.kind = 7 ∧ s.get SYS_ROLE_CMD.APPLY = 0 ∧ s.boot.further = 0 ∧ s.boot.swRun = none) ∧
    (∃ (s : State) (node serial stamp : Nat) (tagOk : ResetTag) (o : BootObs) (k : List Nat), s.runs 8 ∧ s.fab.key = some k ∧ tagOk.tag = resetTag k
      tagOk.dst tagOk.src tagOk.seq serial stamp tagOk.low ∧ serial = s.serial ∧ ((stamp : Int) - (s.stamp : Int)).natAbs ≤ 2 ^ 24 ∧ s.rstStamp < stamp
      ∧ s.boot.kind = 0 ∧ s.boot.failing = false) ∧
    (∃ (s : State) (node serial stamp : Nat) (tagOk : ResetTag) (o : BootObs), s.runs 8 ∧ s.resetTagOk serial stamp tagOk = false) ∧
    (∃ (s : State) (ms : Nat), s.readyHolds ∧ s.get SYS_READY.PIN = 0) ∧
    (∃ (s : State) (ms : Nat), s.supplied ∧ s.boot.dormant = false ∧ s.get SYS_READY.PIN = 0 ∧ s.get SYS_BOOT_STAT.LATE = 0 ∧ s.readyHolds = false ∧
      2367 ≤ ms) :=
  ⟨⟨(fun s : State => st s [(SYS_SESS.STATE, 2, 7), (SYS_SESS.LEVEL, 3, 7), (SYS_ROLE.ROLE_ACT, 1, 0), (SYS_ROLE.ROLE_CFG, 1, 0), (PWR_STATE.STATE,
      0, 0)]) baseOn, 7, by decide⟩,
    ⟨(fun s : State => st s [(SYS_SESS.STATE, 2, 7), (SYS_SESS.LEVEL, 3, 7), (SYS_ROLE.ROLE_ACT, 1, 0), (SYS_ROLE.ROLE_CFG, 3, 0)]) baseOn, 7, by
      decide⟩,
    ⟨(fun s : State => { st s [(SYS_ROLE_CMD.APPLY, 1, 0), (SYS_ROLE.ROLE_CFG, 8, 0)] with boot := { s.boot with kind := 0 } }) baseOn, ⟨[], [], 0,
      0, [], 0, 100, 0, 0⟩, by decide⟩,
    ⟨(fun s : State => { s.put PWR_DOM_STAT.ON 1 with boot := { s.boot with failing := false } }) baseOn, 16000, 10, true, ⟨[], [], 0, 0, [], 0, 100,
      0, 0⟩, by decide⟩,
    ⟨(fun s : State => { s.put PWR_DOM_STAT.ON 1 with boot := { s.boot with failing := false }, flash := [] }) baseOn, 16000, 10, false, ⟨[], [],
      0, 0, [], 0, 100, 0, 0⟩, by decide⟩,
    ⟨(fun s : State => { s with boot := { s.boot with kind := 0 } }) baseOn, 1000, true, ⟨[], [], 0, 0, [], 0, 100, 0, 0⟩, by decide⟩,
    ⟨baseOn, 99, true, ⟨[], [], 0, 0, [], 0, 100, 0, 0⟩, by decide⟩,
    ⟨(fun s : State => { s with boot := { s.boot with kind := 3, doms := 0xFF8 }, pins := { s.pins with rstLow := true } }) baseOn, ⟨[], [], 0, 0,
      [], 0, 100, 0, 0⟩, by decide⟩,
    ⟨(fun s : State => { st s [(SYS_SESS.STATE, 2, 7), (SYS_SESS.LEVEL, 3, 7), (SYS_ROLE.ROLE_ACT, 1, 0)] with
      boot := { s.boot with kind := 0, failing := false } }) baseOn, 7, ⟨[], [], 0, 0, [], 0, 100, 0, 0⟩, by decide⟩,
    ⟨(fun s : State => st s [(SYS_SESS.STATE, 2, 7), (SYS_SESS.LEVEL, 3, 7), (SYS_ROLE.ROLE_ACT, 1, 0), (VS_CONN_STAT.STATE, 6, 1)]) baseOn, 7, ⟨[],
      [], 0, 0, [], 0, 100, 0, 0⟩, by decide⟩,
    ⟨(fun s : State => { st s [(SYS_SESS.STATE, 2, 7), (SYS_SESS.LEVEL, 3, 7), (SYS_ROLE.ROLE_ACT, 1, 0)] with
      boot := { s.boot with kind := 0, failing := false } }) baseOn, 7, 256, by decide⟩,
    ⟨(fun s : State => st s [(SYS_SESS.STATE, 2, 7), (SYS_SESS.LEVEL, 3, 7), (SYS_ROLE.ROLE_ACT, 1, 0), (VS_CONN_STAT.STATE, 6, 1)]) baseOn, 7, 64,
      by decide⟩,
    ⟨(fun s : State => { s.put PWR_DOM_RST.RST 256 with boot := { s.boot with kind := 7, doms := 2048, further := 0, swRun := none } }) baseOn, ⟨[],
      [], 0, 0, [], 0, 100, 0, 0⟩, by decide⟩,
    ⟨(fun s : State => { s with boot := { s.boot with kind := 0, failing := false }, fab := { s.fab with key := some (List.range 16) }, rstStamp := 0
      }) baseOn, 4095, 0, 16777216, ⟨2, 3, 4, 5, resetTag (List.range 16) 2 3 4 0 16777216 5⟩, ⟨[], [], 0, 0, [], 0, 100, 0, 0⟩, List.range 16, by
      decide, rfl, by decide +kernel, by decide, by decide, by decide, by decide⟩,
    ⟨baseOn, 4095, 0, 16777216, ⟨2, 3, 4, 5, []⟩, ⟨[], [], 0, 0, [], 0, 100, 0, 0⟩, by decide⟩,
    ⟨(fun s : State => { st s [(SYS_READY.PIN, 0, 0), (PWR_HOLDUP.HOLDUP_OK, 1, 0)] with boot := { s.boot with kind := 0, dormant := false } })
      baseOn, 65535, by decide⟩,
    ⟨(fun s : State => { st s [(SYS_READY.PIN, 0, 0), (PWR_HOLDUP.HOLDUP_OK, 0, 0)] with boot := { s.boot with kind := 0, dormant := false } })
      baseOn, 2367, by decide⟩⟩

/-- The hypotheses of `SafeOffResults` can be met, clause by clause. -/
theorem witness_safe_off_results :
    (∃ (s : State) (m ns : Nat), 1000 ≤ ns ∧ (m = 1 ∨ m = 2) ∧ s.runs 1 ∧ s.boot.failing = false ∧ s.pins.estopLow = 0 ∧ s.get SAF_STAT.ACTIVE = 0) ∧
    (∃ (s : State) (m ns : Nat), ns < 1000) ∧
    (∃ (s : State) (sess : Nat), s.writeStatus sess SAF_CMD.SO_REQ = 0 ∧ s.get SAF_STAT.ACTIVE = 0) ∧
    (∃ (s : State) (c i ms : Nat) (valid : Bool), s.runs 1 ∧ c < 2 ∧ s.saf.list ≠ 2 ∧ s.boot.failing = false ∧ (s.seqOf c = 1 ∨ s.seqOf c = 4) ∧
      valid ∧ (s.pt (s.get SAF_CONN.PT c)).blockOk ∧ (s.geti MET_PT_I.I (s.get SAF_CONN.PT c)).natAbs ≤ 1000 * s.get SAF_CONN.I_OPEN c ∧ i ≤ 1000 *
      s.get SAF_CONN.I_OPEN c ∧ 10 ≤ ms ∧ s.get SAF_CONN.LS_POS c < 16) ∧
    (∃ (s : State) (c ms tw : Nat), s.runs 1 ∧ c < 2 ∧ s.saf.list ≠ 2 ∧ s.boot.failing = false ∧ s.seqOf c = 2 ∧ clampN 1 20 (s.get SAF_CFG.CT_GAP) ≤
      ms ∧ s.get SAF_CONN.LS_NEG c < 16) ∧
    (∃ (s : State) (c tw i : Nat), s.runs 1 ∧ c < 2 ∧ s.saf.list ≠ 2 ∧ s.boot.failing = false ∧ s.seqOf c = 1 ∧ 10 * max 1 (s.get SAF_CFG.SO_DECAY) ≤
      tw ∧ s.get SAF_STAT.ACTIVE = 0) ∧
    (∃ (s : State) (c i ms : Nat) (valid : Bool), s.boot.failing ∧ c < 2 ∧ s.saf.list = 2 ∧ s.seqOf c = 1 ∧ valid ∧ (s.pt (s.get SAF_CONN.PT
      c)).blockOk ∧ (s.geti MET_PT_I.I (s.get SAF_CONN.PT c)).natAbs ≤ 1000 * s.get SAF_CONN.I_OPEN c ∧ i ≤ 1000 * s.get SAF_CONN.I_OPEN c ∧ 1 ≤ ms ∧
      s.get SAF_CONN.LS_POS c < 16) ∧
    (∃ (s : State) (c ms : Nat), s.boot.failing ∧ c < 2 ∧ s.saf.list = 2 ∧ s.seqOf c = 2 ∧ 1 ≤ ms ∧ s.get SAF_CONN.LS_NEG c < 16) ∧
    (∃ (s : State) (c us : Nat), s.boot.failing ∧ c < 2 ∧ s.saf.list = 2 ∧ s.seqOf c = 1 ∧ 24050 ≤ us) ∧
    (∃ (s : State) (sess : Nat), s.writeStatus sess SAF_CMD.CLR = 0 ∧ s.get SAF_STAT.ACTIVE = 1 ∧ s.clearStatus = 1) ∧
    (∃ (s : State) (sess : Nat), s.writeStatus sess SAF_CMD.CLR = 0 ∧ s.get SAF_STAT.ACTIVE = 1 ∧ s.clearStatus ≠ 1) ∧
    (∃ (s : State) (ms : Nat), s.runs 1 ∧ s.get SAF_STAT.ES1 ≠ s.get SAF_STAT.ES2 ∧ s.get SAF_STAT.ES_DISC = 0 ∧ 10 * max 1 (s.get SAF_CFG.ES_DISC_T)
      < ms) ∧
    (∃ (s : State) (m : Nat), m = 3 ∧ s.runs 1 ∧ s.get SAF_STAT.ES_DISC = 1 ∧ s.saf.bothLow) ∧
    (∃ (s : State) (v ms : Nat) (o : BootObs), s.saf.wdRun ∧ v = s.saf.kick ∧ ms < s.wdTimes.1 ∧ s.wdTimes.2 ≤ ms) ∧
    (∃ (s : State) (v ms : Nat) (o : BootObs), s.saf.wdRun ∧ v ≠ s.saf.kick ∧ ms < s.wdTimes.1 ∧ s.runs 3 ∧ s.get SAF_STAT.WD_STOP = 0 ∧
      s.boot.failing = false ∧ s.boot.kind = 0) ∧
    (∃ (s : State) (ms : Nat) (o : BootObs), s.saf.wdRun ∧ s.wdTimes.1 ≤ ms ∧ s.runs 3 ∧ s.get SAF_STAT.WD_STOP = 0 ∧ s.boot.failing = false ∧
      s.boot.kind = 0) ∧
    (∃ (s : State) (o : BootObs), s.runs 3 ∧ s.get SAF_STAT.WD_STOP = 0 ∧ s.boot.failing = false ∧ s.boot.kind = 0) :=
  ⟨⟨(fun s : State => { s with pins := { s.pins with estopLow := 0, gden := 3, auxDrv := 63 } }) baseOn, 2, 1000, by decide⟩,
    ⟨baseOn, 3, 999, by decide⟩,
    ⟨(fun s : State => st s [(SYS_SESS.STATE, 2, 7), (SYS_SESS.LEVEL, 3, 7), (SYS_ROLE.ROLE_ACT, 1, 0)]) baseOn, 7, by decide⟩,
    ⟨(fun s : State => ({ st s [(SAF_CONN.LS_POS, 15, 1), (SAF_CONN.I_OPEN, 2, 1), (LSW_CH_STAT.STATE, 1, 15), (LSW_STAT.OUT, 65535, 0), (MET_PT_I.I,
      2000, 0)] with saf := { s.saf with list := 1, seq := [(1, 1)] }, boot := { s.boot with failing := false } }).setPt 0 { blockOk := true }) baseOn,
      1, 2000, 10, true, by decide⟩,
    ⟨(fun s : State => { st s [(SAF_CONN.LS_NEG, 15, 1), (LSW_CH_STAT.STATE, 1, 15), (LSW_STAT.OUT, 65535, 0)] with
      saf := { s.saf with list := 1, seq := [(1, 2)] }, boot := { s.boot with failing := false } }) baseOn, 1, 20, 55, by decide⟩,
    ⟨(fun s : State => { st s [(SAF_CFG.SO_DECAY, 10, 0), (SAF_STAT.ACTIVE, 0, 0)] with saf := { s.saf with list := 3, seq := [(1, 1)] }, boot :=
      { s.boot with failing := false } }) baseOn, 1, 100, 65536000, by decide⟩,
    ⟨(fun s : State => ({ st s [(SAF_CONN.LS_POS, 15, 1), (SAF_CONN.I_OPEN, 2, 1), (LSW_CH_STAT.STATE, 1, 15), (MET_PT_I.I, 2000, 0)] with
      saf := { s.saf with list := 2, seq := [(1, 1)] }, boot := { s.boot with failing := true } }).setPt 0 { blockOk := true }) baseOn, 1, 2000, 1, true, by
      decide⟩,
    ⟨(fun s : State => { st s [(SAF_CONN.LS_NEG, 15, 1), (LSW_CH_STAT.STATE, 1, 15)] with saf := { s.saf with list := 2, seq := [(1, 2)] }, boot :=
      { s.boot with failing := true } }) baseOn, 1, 1, by decide⟩,
    ⟨(fun s : State => { s with saf := { s.saf with list := 2, seq := [(1, 1)] }, boot := { s.boot with failing := true } }) baseOn, 1, 24050, by
      decide⟩,
    ⟨(fun s : State => st s [(SYS_SESS.STATE, 2, 7), (SYS_SESS.LEVEL, 3, 7), (SYS_ROLE.ROLE_ACT, 1, 0), (SAF_STAT.ACTIVE, 1, 0), (SAF_STAT.DONE, 1,
      0), (SAF_SRC.SRC, 1, 0)]) baseOn, 7, by decide⟩,
    ⟨(fun s : State => st s [(SYS_SESS.STATE, 2, 7), (SYS_SESS.LEVEL, 3, 7), (SYS_ROLE.ROLE_ACT, 1, 0), (SAF_STAT.ACTIVE, 1, 0), (SAF_STAT.DONE, 0,
      0)]) baseOn, 7, by decide⟩,
    ⟨(fun s : State => st s [(SAF_STAT.ES1, 1, 0), (SAF_CFG.ES_DISC_T, 50, 0)]) baseOn, 501, by decide⟩,
    ⟨(fun s : State => { st s [(SAF_STAT.ES_DISC, 1, 0)] with saf := { s.saf with bothLow := true }, pins := { s.pins with estopLow := 3 } }) baseOn,
      3, by decide⟩,
    ⟨(fun s : State => { st s [(SAF_WD_CFG.WD_T, 100, 0), (SAF_WD_CFG.WD_MIN, 5, 0)] with saf := { s.saf with wdRun := true, kick := 0x5A } })
      baseOn, 0x5A, 99, ⟨[], [], 0, 0, [], 0, 100, 0, 0⟩, by decide⟩,
    ⟨(fun s : State => { st s [(SAF_WD_CFG.WD_T, 100, 0)] with saf := { s.saf with wdRun := true, kick := 0x5A }, boot :=
      { s.boot with kind := 0, failing := false } }) baseOn, 0xA5, 99, ⟨[], [], 0, 0, [], 0, 100, 0, 0⟩, by decide⟩,
    ⟨(fun s : State => { st s [(SAF_WD_CFG.WD_T, 100, 0)] with saf := { s.saf with wdRun := true, kick := 0x5A }, boot :=
      { s.boot with kind := 0, failing := false } }) baseOn, 100, ⟨[], [], 0, 0, [], 0, 100, 0, 0⟩, by decide⟩,
    ⟨(fun s : State => { s with boot := { s.boot with kind := 0, failing := false } }) baseOn, ⟨[], [], 0, 0, [], 0, 100, 0, 0⟩, by decide⟩⟩

/-- The hypotheses of `UpdateResults` can be met, clause by clause. -/
theorem witness_update_results :
    (∃ (s : State) (sess w : Nat), s.wordStatus UPD_FL_DATA.DATA.addr = 0 ∧ s.level sess = 3 ∧ s.get UPD_FL_CMD.FL_BUSY = 0 ∧ s.flRefusal (s.get
      UPD_FL_ADDR.ADDR / 4 * 4) = 0) ∧
    (∃ (s : State) (sess w : Nat), s.wordStatus UPD_FL_DATA.DATA.addr = 0 ∧ s.level sess = 3 ∧ s.get UPD_FL_CMD.FL_BUSY = 0 ∧ 0x2A00000 ≤ s.get
      UPD_FL_ADDR.ADDR) ∧
    (∃ (s : State) (sess w : Nat), s.wordStatus UPD_FL_DATA.DATA.addr = 0 ∧ s.level sess ≠ 3) ∧
    (∃ (s : State) (sess : Nat), s.wordStatus UPD_FL_CMD.ERASE.addr = 0 ∧ s.level sess = 3 ∧ s.get UPD_FL_CMD.FL_BUSY = 0 ∧ s.flRefusal (s.get
      UPD_FL_ADDR.ADDR / 4 * 4) = 0) ∧
    (∃ (s : State) (sess : Nat), s.wordStatus UPD_FL_CMD.ERASE.addr = 0 ∧ s.level sess = 3 ∧ s.get UPD_FL_CMD.FL_BUSY = 0 ∧ s.get UPD_FL_ADDR.ADDR <
      0x400000 ∧ s.updN.cfg = some (s.get UPD_FL_ADDR.ADDR / 0x200000)) ∧
    (∃ (s : State) (ok : Bool) (a : Nat) (v : Word), s.runs 3 ∧ s.upd.fl = some { addr := a, word := some v } ∧ ok ∧ s.flLe a 4 = 0xFFFFFFFF) ∧
    (∃ (s : State) (ok : Bool) (a b : Nat), s.runs 3 ∧ s.upd.fl = some { addr := a, word := none } ∧ ok ∧ b / 0x10000 = a / 0x10000) ∧
    (∃ (s : State) (ok : Bool) (f : FlOp), s.runs 3 ∧ s.upd.fl = some f ∧ ok = false) ∧
    (∃ (s : State) (sess : Nat) (verified : Bool), s.writeStatus sess UPD_FW_CMD.GO = 0 ∧ s.get UPD_STAT.BUSY = 0 ∧ s.updN.unit1 = false ∧ s.get
      MET_SEAL.SEALED = 0 ∧ s.fwOk 1 (1 - s.fwBank 1) verified) ∧
    (∃ (s : State) (sess u : Nat) (verified : Bool), s.writeStatus sess UPD_FW_CMD.GO = 0 ∧ s.get UPD_STAT.BUSY = 1) ∧
    (∃ (s : State) (sess : Nat) (verified : Bool), s.writeStatus sess UPD_FW_CMD.GO = 0 ∧ s.get UPD_STAT.BUSY = 0 ∧ s.updN.unit1 = false ∧ s.get
      MET_SEAL.SEALED = 1) ∧
    (∃ (s : State) (sess u : Nat) (verified : Bool), s.writeStatus sess UPD_FW_CMD.GO = 0 ∧ s.get UPD_STAT.BUSY = 0 ∧ s.updN.unit1 = false ∧ u < 8 ∧
      u ≠ 1 ∧ verified = false) ∧
    (∃ (s : State) (sess : Nat) (verified : Bool), s.writeStatus sess UPD_FW_CMD.GO = 0 ∧ s.get UPD_STAT.BUSY = 0 ∧ s.updN.unit1 = false ∧ s.fwOk 6
      (1 - s.fwBank 6) verified ∧ s.domainRefusal 0x800 = 0 ∧ s.boot.kind = 0 ∧ s.boot.failing = false) ∧
    (∃ (s : State) (ms waited : Nat) (ready : Bool), ms = 500 ∧ 50 ≤ waited ∧ s.updN.unit1 ∧ s.get UPD_STAT.OP = 2) ∧
    (∃ (s : State) (ms waited : Nat) (ready : Bool), waited < 50) ∧
    (∃ (s : State) (u ms : Nat) (o : BootObs) (old : Nat), s.switchOf u = some old ∧ s.boot.kind = 0 ∧ u = 1 ∧ 100 ≤ ms) ∧
    (∃ (s : State) (u ms : Nat) (o : BootObs) (old : Nat), s.switchOf u = some old ∧ s.boot.kind = 0 ∧ u ≠ 1 ∧ 1000 ≤ ms ∧ s.unitIsReady u) ∧
    (∃ (s : State) (u ms : Nat) (o : BootObs) (old : Nat), s.switchOf u = some old ∧ s.boot.kind = 0 ∧ s.boot.failing = false ∧ u = 6 ∧ 1000 ≤ ms ∧
      s.unitIsReady u = false) ∧
    (∃ (s : State) (sess sect bank : Nat) (atStamp verified : Bool) (e0 : Sect), s.writeStatus sess UPD_SECT_CMD.GO = 0 ∧ s.get UPD_STAT.BUSY = 0 ∧
      s.updN.unit1 = false ∧ sect < 0x14 ∧ bank < 2 ∧ s.findSect bank sect = some e0 ∧ s.sectCheck e0 verified = 0 ∧ atStamp = false) ∧
    (∃ (s : State) (sess sect bank : Nat) (atStamp verified : Bool), s.writeStatus sess UPD_SECT_CMD.GO = 0 ∧ s.get UPD_STAT.BUSY = 1 ∧ sect < 0x100
      ∧ bank < 2) ∧
    (∃ (s : State) (sess sect bank : Nat) (atStamp verified : Bool), s.writeStatus sess UPD_SECT_CMD.GO = 0 ∧ s.get UPD_STAT.BUSY = 0 ∧ s.updN.unit1
      = false ∧ sect < 0x14 ∧ bank < 2 ∧ s.findSect bank sect = none) ∧
    (∃ (s : State) (r0 : Reload), s.boot.d2 = [] ∧ s.upd.reload = some r0 ∧ s.runs 3 ∧ r0.target ≤ s.stamp ∧ s.laWaits = false ∧ r0.sect < 0x14 ∧
      r0.entries = []) ∧
    (∃ (s : State) (r0 : Reload) (b0 : Entry), s.boot.d2 = [] ∧ s.upd.reload = some r0 ∧ s.runs 3 ∧ r0.target ≤ s.stamp ∧ s.laWaits = false ∧ r0.sect
      < 0x14 ∧ r0.entries = [b0] ∧ s.get UPD_SECT_RES.REFUSED = 0 ∧ (s.entryWrite b0).1 ∧ s.wordStatus b0.1 ≠ 0) ∧
    (∃ (s : State), s.boot.d2 = [] ∧ s.upd.reload = none) ∧
    (∃ (s : State) (sess alg : Nat) (verified fwVerified : Bool), s.writeStatus sess UPD_PKG_CMD.GO = 0 ∧ s.pkgCheck alg verified fwVerified = 1) ∧
    (∃ (s : State) (sess alg : Nat) (verified fwVerified : Bool), s.writeStatus sess UPD_PKG_CMD.GO = 0 ∧ s.pkgCheck alg verified fwVerified ≠ 1 ∧
      s.pkgCheck alg verified fwVerified ≠ 0xA) ∧
    (∃ (s : State), s.runs 2 ∧ s.get UPD_PKG_CMD.PEND = 1 ∧ s.pkgLe 32 4 ≤ s.get BIL_BT.BT ∧ s.pkgLe 6 2 = 0 ∧ s.pkgLe 5 1 = 2) ∧
    (∃ (s : State), s.get UPD_PKG_CMD.PEND = 0) ∧
    (∃ (s : State) (sess req : Nat), s.writeStatus sess UPD_RECAL.REQ = 0 ∧ s.get UPD_RECAL.BUSY = 0 ∧ 0 < req ∧ req < 64) ∧
    (∃ (s : State) (sess req : Nat), s.writeStatus sess UPD_RECAL.REQ = 0 ∧ s.get UPD_RECAL.BUSY = 1) ∧
    (∃ (s : State) (fails : Nat), s.runs 3 ∧ s.get UPD_RECAL.BUSY = 1) ∧
    (∃ (s : State), s.runs 2 ∧ s.get UPD_PKG_CMD.PEND = 1 ∧ s.pkgLe 32 4 = 0 ∧ s.pkgLe 5 1 = 1) :=
  ⟨⟨(fun s : State => st s [(SYS_SESS.STATE, 2, 7), (SYS_SESS.LEVEL, 3, 7), (SYS_ROLE.ROLE_ACT, 1, 0), (UPD_FL_ADDR.ADDR, 0x200003, 0)]) baseOn, 7,
      4294967295, by decide⟩,
    ⟨(fun s : State => st s [(SYS_SESS.STATE, 2, 7), (SYS_SESS.LEVEL, 3, 7), (SYS_ROLE.ROLE_ACT, 1, 0), (UPD_FL_ADDR.ADDR, 0x2A00000, 0)]) baseOn, 7,
      1, by decide⟩,
    ⟨(fun s : State => st s [(SYS_SESS.STATE, 2, 7), (SYS_SESS.LEVEL, 2, 7)]) baseOn, 7, 1, by decide⟩,
    ⟨(fun s : State => st s [(SYS_SESS.STATE, 2, 7), (SYS_SESS.LEVEL, 3, 7), (SYS_ROLE.ROLE_ACT, 1, 0), (UPD_FL_ADDR.ADDR, 0x29FFFFF, 0)]) baseOn, 7,
      by decide⟩,
    ⟨(fun s : State => { st s [(SYS_SESS.STATE, 2, 7), (SYS_SESS.LEVEL, 3, 7), (SYS_ROLE.ROLE_ACT, 1, 0), (UPD_FL_ADDR.ADDR, 0x3FFFFF, 0)] with updN
      := { s.updN with cfg := some 1 } }) baseOn, 7, by decide⟩,
    ⟨(fun s : State => { s with upd := { s.upd with fl := some { addr := 0x200000, word := some 0x12345678#32 } }, flash := [] }) baseOn, true,
      0x200000, 0x12345678#32, by decide⟩,
    ⟨(fun s : State => { s with upd := { s.upd with fl := some { addr := 0x20FFFF, word := none } }, flash := [(0x200000, 5#8)] }) baseOn, true,
      0x20FFFF, 0x200000, by decide⟩,
    ⟨(fun s : State => { s with upd := { s.upd with fl := some ⟨0x200000, none⟩ } }) baseOn, false, ⟨0x200000, none⟩, by decide⟩,
    ⟨(fun s : State => { st s [(SYS_SESS.STATE, 2, 7), (SYS_SESS.LEVEL, 3, 7), (SYS_ROLE.ROLE_ACT, 1, 0)] with
      flash := fwFlash 0x1600000 1, updN := { s.updN with act := 0, unit1 := false } }) baseOn, 7, true, by
      decide +kernel⟩,
    ⟨(fun s : State => st s [(SYS_SESS.STATE, 2, 7), (SYS_SESS.LEVEL, 3, 7), (SYS_ROLE.ROLE_ACT, 1, 0), (UPD_STAT.BUSY, 1, 0)]) baseOn, 7, 5, true,
      by decide⟩,
    ⟨(fun s : State => { st s [(SYS_SESS.STATE, 2, 7), (SYS_SESS.LEVEL, 3, 7), (SYS_ROLE.ROLE_ACT, 1, 0), (MET_SEAL.SEALED, 1, 0)] with
      updN := { s.updN with unit1 := false } }) baseOn, 7, true, by decide⟩,
    ⟨(fun s : State => { st s [(SYS_SESS.STATE, 2, 7), (SYS_SESS.LEVEL, 3, 7), (SYS_ROLE.ROLE_ACT, 1, 0)] with updN := { s.updN with unit1 := false }
      }) baseOn, 7, 6, false, by decide⟩,
    ⟨(fun s : State => { st s [(SYS_SESS.STATE, 2, 7), (SYS_SESS.LEVEL, 3, 7), (SYS_ROLE.ROLE_ACT, 1, 0)] with
      boot := { s.boot with kind := 0, failing := false }, flash := fwFlash 0x2900000 6,
      updN := { s.updN with act := 0, unit1 := false } }) baseOn, 7, true, by decide +kernel⟩,
    ⟨(fun s : State => { st s [(UPD_STAT.BUSY, 1, 0), (UPD_STAT.OP, 2, 0)] with updN := { s.updN with unit1 := true } }) baseOn, 500, 50, false, by
      decide⟩,
    ⟨(fun s : State => { s with updN := { s.updN with unit1 := true } }) baseOn, 500, 49, true, by decide⟩,
    ⟨(fun s : State => { s with boot := { s.boot with switched := [(6, 0), (1, 1)], kind := 0 } }) baseOn, 1, 100, ⟨[], [], 0, 0, [], 0, 100, 0, 0⟩,
      1, by decide⟩,
    ⟨(fun s : State => { s.put SYS_READY.RDY 0x3FFF with boot := { s.boot with switched := [(6, 1)], kind := 0 } }) baseOn, 6, 1000, ⟨[], [], 0, 0,
      [], 0, 100, 0, 0⟩, 1, by decide⟩,
    ⟨(fun s : State => { st s [(SYS_READY.RDY, 0, 0)] with boot := { s.boot with switched := [(6, 1)], kind := 0, failing := false } }) baseOn, 6,
      1000, ⟨[], [], 0, 0, [], 0, 100, 0, 0⟩, 1, by decide⟩,
    ⟨(fun s : State => { st s [(SYS_SESS.STATE, 2, 7), (SYS_SESS.LEVEL, 3, 7), (SYS_ROLE.ROLE_ACT, 1, 0), (UPD_CFG.CFG_ANCHOR, 10, 0),
      (SYS_READY.RDY, 0x3FFF, 0)] with vault := { s.vault with slots := [(10, { type := 8, use := 16 })] }, flash := (flashOf 0 [77, 68, 78, 67, 1, 0,
      1, 0, 0, 0, 0, 0, 0, 0, 0, 0, 0, 0, 0, 0, 0, 0, 0, 0, 140, 180, 177, 206, 11, 0, 0, 0, 44, 0, 0, 0, 0, 0, 0, 0, 0, 0, 0, 0]), updN :=
      { s.updN with unit1 := false } }) baseOn, 7, 11, 0, false, true, ⟨0, 11, 0, 0, 44, 0, 0⟩, by decide +kernel⟩,
    ⟨(fun s : State => st s [(SYS_SESS.STATE, 2, 7), (SYS_SESS.LEVEL, 3, 7), (SYS_ROLE.ROLE_ACT, 1, 0), (UPD_STAT.BUSY, 1, 0)]) baseOn, 7, 11, 0,
      false, true, by decide +kernel⟩,
    ⟨(fun s : State => { st s [(SYS_SESS.STATE, 2, 7), (SYS_SESS.LEVEL, 3, 7), (SYS_ROLE.ROLE_ACT, 1, 0)] with
      updN := { s.updN with unit1 := false }, flash := [] }) baseOn, 7, 11, 1, false, true, by decide +kernel⟩,
    ⟨(fun s : State => { st s [(UPD_STAT.BUSY, 1, 0)] with upd := { s.upd with reload := some ⟨11, 0, [], 0⟩ }, boot := { s.boot with d2 := [] } })
      baseOn, ⟨11, 0, [], 0⟩, by decide⟩,
    ⟨(fun s : State => { st s [(UPD_STAT.BUSY, 1, 0), (PWR_DOM_STAT.ON, 0xBFF, 0), (UPD_SECT_RES.REFUSED, 0, 0)] with
      upd := { s.upd with reload := some ⟨11, 0, [(TH_ZONE_SNS0.SNS.addr, 5, 0xFFFFFFFF)], 0⟩ }, boot := { s.boot with d2 := [] } }) baseOn, ⟨11, 0,
      [(TH_ZONE_SNS0.SNS.addr, 5, 0xFFFFFFFF)], 0⟩, (TH_ZONE_SNS0.SNS.addr, 5, 0xFFFFFFFF), by decide⟩,
    ⟨(fun s : State => { s with upd := { s.upd with reload := none }, boot := { s.boot with d2 := [] } }) baseOn, by decide +kernel⟩,
    ⟨(fun s : State => { st s [(SYS_SESS.STATE, 2, 7), (SYS_SESS.LEVEL, 3, 7), (SYS_ROLE.ROLE_ACT, 1, 0), (SYS_SERIAL_LO.SERIAL, 5, 0),
      (SYS_SERIAL_HI.SERIAL, 0, 0), (MET_PARAM_DIG.DIG, 0, 0), (BIL_DIG.BIL_DIG, 0, 0), (UPD_SEAL_CNT.UCNT, 0, 0), (UPD_SEAL_CFG.AUTH_SLOT, 63, 0),
      (MET_SEAL.SEALED, 1, 0), (UPD_PKG_LEN.LEN, 100, 0)] with
      upd := { s.upd with pkg := [(0, 0x504E444D#32), (1, 0x201#32), (2, 5#32), (4, 1#32)] },
      updN := { s.updN with unit1 := false } }) baseOn, 7, 0, true, true, by decide⟩,
    ⟨(fun s : State => st s [(SYS_SESS.STATE, 2, 7), (SYS_SESS.LEVEL, 3, 7), (SYS_ROLE.ROLE_ACT, 1, 0)]) baseOn, 7, 0, true, true, by decide⟩,
    ⟨(fun s : State => { st s [(UPD_PKG_CMD.PEND, 1, 0), (MET_SEAL.SEALED, 1, 0), (BIL_BT.BT, 5, 0)] with
      updN := { s.updN with pkg := [0x4D, 0x44, 0x4E, 0x50, 1, 2] ++ List.replicate 94 0 } }) baseOn, by decide⟩,
    ⟨(fun s : State => st s [(UPD_PKG_CMD.PEND, 0, 0)]) baseOn, by decide⟩,
    ⟨(fun s : State => st s [(SYS_SESS.STATE, 2, 7), (SYS_SESS.LEVEL, 3, 7), (SYS_ROLE.ROLE_ACT, 1, 0), (UPD_RECAL.BUSY, 0, 0)]) baseOn, 7, 63, by
      decide⟩,
    ⟨(fun s : State => st s [(SYS_SESS.STATE, 2, 7), (SYS_SESS.LEVEL, 3, 7), (SYS_ROLE.ROLE_ACT, 1, 0), (UPD_RECAL.BUSY, 1, 0)]) baseOn, 7, 63, by
      decide⟩,
    ⟨(fun s : State => { st s [(UPD_RECAL.BUSY, 1, 0)] with upd := { s.upd with recal := 4 } }) baseOn, 4, by decide⟩,
    ⟨(fun s : State => { st s [(UPD_PKG_CMD.PEND, 1, 0), (MET_SEAL.SEALED, 1, 0)] with
      updN := { s.updN with pkg := [0x4D, 0x44, 0x4E, 0x50, 1, 1, 1, 0] ++ List.replicate 92 0 } }) baseOn, by decide⟩⟩

/-- The hypotheses of `ManagementAccessResults` can be met, clause by clause. -/
theorem witness_management_access_results :
    (∃ (s : State) (sess val mask : Nat), 2 ≤ s.level sess ∧ s.runs 3) ∧
    (∃ (s : State) (sess a val mask : Nat), fieldsAt a = []) ∧
    (∃ (s : State) (sess a val mask : Nat), a % 4 = 0 ∧ fieldsAt a ≠ [] ∧ s.offInRole (a / 0x10000)) ∧
    (∃ (s : State) (sess val mask : Nat), s.level sess < 2 ∧ s.runs 3 ∧ mask % 2 ^ 32 ≠ 0) ∧
    (∃ (s : State) (ip port node : Nat) (bytes : List Nat), s.ethRuns ∧ node ≠ 0 ∧ node ≠ s.get FAB_STAT.NODE_ID ∧ s.get SYS_NET_CFG.RELAY_EN = 1 ∧
      (s.get FAB_STAT.STATE = 4 ∨ s.get FAB_STAT.STATE = 5) ∧ bytes.length ≤ 508 ∧ ((s.mg.relays.find? fun e => e.ip == ip && e.port == port && e.node
      == node) = none) ∧ s.mg.relays.length < 64 ∧ s.fab.hold) ∧
    (∃ (s : State) (ip port node : Nat) (bytes : List Nat), s.ethRuns ∧ node ≠ 0 ∧ node ≠ s.get FAB_STAT.NODE_ID ∧ s.get SYS_NET_CFG.RELAY_EN = 0) ∧
    (∃ (s : State) (ip port node : Nat) (bytes : List Nat) (tag : Nat) (r : Relay), s.ethRuns ∧ ((s.mg.relays.find? fun e => e.tag == tag && e.node
      == node) = some r)) ∧
    (∃ (s : State) (tag secs : Nat), s.runs 3 ∧ 120 ≤ secs) ∧
    (∃ (s : State) (tag secs : Nat), secs < 120) ∧
    (∃ (s : State) (i : Nat) (gateway : Option Nat) (adm opr obs : Bool), i < 8 ∧ s.runs 3 ∧ s.runs 9 ∧ s.get SYS_NET_CFG.ETH_EN = 1 ∧ s.get
      SYS_SESS.STATE i ≠ 2 ∧ s.slotServes 0 0 ∧ s.anchorGrants SYS_MGMT_CFG.ADM_ANCHOR adm ∧ (∀ n, gateway = some n → n < 4096) ∧ s.get
      SYS_TIME_STAT.RTC_SET = 1) ∧
    (∃ (s : State) (i : Nat) (gateway : Option Nat) (bad : List Nat) (adm opr obs : Bool), i < 8 ∧ s.runs 3 ∧ s.runs 9 ∧ s.get SYS_NET_CFG.ETH_EN = 1
      ∧ s.get SYS_SESS.STATE i ≠ 2 ∧ s.kvReady ∧ (∀ n, gateway = some n → n < 4096)) ∧
    (∃ (s : State) (i : Nat) (gateway : Option Nat) (adm opr obs : Bool), i < 8 ∧ s.runs 3 ∧ s.runs 9 ∧ s.get SYS_NET_CFG.ETH_EN = 1 ∧ s.get
      SYS_SESS.STATE i ≠ 2 ∧ s.slotServes 0 0 ∧ s.chainLevel adm opr obs = none) ∧
    (∃ (s : State) (i : Nat) (gateway : Option Nat) (adm opr obs : Bool), i < 8 ∧ s.runs 3 ∧ s.runs 9 ∧ s.get SYS_NET_CFG.ETH_EN = 1 ∧ s.get
      SYS_SESS.STATE i ≠ 2 ∧ s.slotServes 0 0) ∧
    (∃ (s : State) (i secs : Nat), i < 8 ∧ s.runs 3 ∧ s.get SYS_SESS.STATE i = 1 ∧ 10 ≤ secs) ∧
    (∃ (s : State) (i secs : Nat), secs < 10) ∧
    (∃ (s : State) (i secs : Nat), s.level i ≠ 0 ∧ s.level i ≠ 3 ∧ s.runs 3 ∧ max 10 (s.get SYS_MGMT_CFG.IDLE_T) ≤ secs) ∧
    (∃ (s : State) (i secs : Nat), secs < 10) ∧
    (∃ (s : State) (sess out code : Nat), out < 6 ∧ s.wordStatus TMX_SEL_A.SEL.addr = 0 ∧ 2 ≤ s.level sess ∧ code < 256 ∧ s.tmxRefusal sess out code
      = 0) ∧
    (∃ (s : State) (sess out code : Nat), out < 6 ∧ s.wordStatus TMX_SEL_A.SEL.addr = 0 ∧ 2 ≤ s.level sess ∧ code < 256 ∧ s.tmxRefusal sess out code
      ≠ 0) :=
  ⟨⟨(fun s : State => (st s [(SYS_SESS.STATE, 2, 7), (SYS_SESS.LEVEL, 2, 7)]).put SYS_NTP_SRV.ADDR 0xFFFF0000) baseOn, 7, 0x12345678, 0xFFFF, by
      decide⟩,
    ⟨baseOn, 7, 0x1FFFF0, 1, 1, by decide⟩,
    ⟨(fun s : State => st s [(SYS_ROLE.ROLE_ACT, 0, 0)]) baseOn, 7, 0x40000, 1, 1, by decide⟩,
    ⟨(fun s : State => st s [(SYS_SESS.STATE, 2, 7), (SYS_SESS.LEVEL, 1, 7)]) baseOn, 7, 1, 1, by decide⟩,
    ⟨(fun s : State => { st s [(SYS_NET_CFG.RELAY_EN, 1, 0), (SYS_NET_CFG.ETH_EN, 1, 0), (FAB_STAT.STATE, 4, 0), (FAB_STAT.NODE_ID, 3, 0),
      (SYS_ROLE.ROLE_ACT, 1, 0)] with fab := { s.fab with hold := true }, mg := { s.mg with relays := [] } }) baseOn, 0x0A000001, 1000, 9, [1, 2], by
      decide⟩,
    ⟨(fun s : State => st s [(SYS_NET_CFG.RELAY_EN, 0, 0), (SYS_NET_CFG.ETH_EN, 1, 0), (FAB_STAT.NODE_ID, 3, 0), (SYS_ROLE.ROLE_ACT, 1, 0)]) baseOn,
      1, 1000, 9, [1, 2], by decide⟩,
    ⟨(fun s : State => { st s [(SYS_NET_CFG.ETH_EN, 1, 0), (SYS_ROLE.ROLE_ACT, 1, 0)] with mg := { s.mg with relays := [⟨1, 1000, 9, 77⟩] } })
      baseOn, 1, 1000, 9, [1, 2], 77, ⟨1, 1000, 9, 77⟩, by decide⟩,
    ⟨(fun s : State => { s with mg := { s.mg with relays := [⟨1, 1000, 9, 77⟩] } }) baseOn, 77, 120, by decide⟩,
    ⟨(fun s : State => { s with mg := { s.mg with relays := [⟨1, 1000, 9, 77⟩] } }) baseOn, 77, 119, by decide⟩,
    ⟨(fun s : State => st s [(SYS_NET_CFG.ETH_EN, 1, 0), (SYS_ROLE.ROLE_ACT, 1, 0), (SYS_SESS.STATE, 0, 7), (SYS_READY.RDY, 0x3FFF, 0),
      (SYS_MGMT_CFG.ADM_ANCHOR, 63, 0), (SYS_TIME_STAT.RTC_SET, 1, 0)]) baseOn, 7, none, true, true, true, by decide⟩,
    ⟨(fun s : State => st s [(SYS_NET_CFG.ETH_EN, 1, 0), (SYS_ROLE.ROLE_ACT, 1, 0), (SYS_SESS.STATE, 0, 7), (SYS_READY.RDY, 0x3FFF, 0),
      (SYS_MGMT_CFG.ADM_ANCHOR, 63, 0), (SYS_TIME_STAT.RTC_SET, 1, 0)]) baseOn, 7, none, [3], true, true, true, by decide⟩,
    ⟨(fun s : State => st s [(SYS_NET_CFG.ETH_EN, 1, 0), (SYS_ROLE.ROLE_ACT, 1, 0), (SYS_SESS.STATE, 1, 7), (SYS_READY.RDY, 0x3FFF, 0),
      (SYS_MGMT_CFG.ADM_ANCHOR, 63, 0), (SYS_TIME_STAT.RTC_SET, 1, 0)]) baseOn, 7, none, false, false, false, by decide⟩,
    ⟨(fun s : State => st s [(SYS_NET_CFG.ETH_EN, 1, 0), (SYS_ROLE.ROLE_ACT, 1, 0), (SYS_SESS.STATE, 0, 7), (SYS_READY.RDY, 0x3FFF, 0),
      (SYS_MGMT_CFG.ADM_ANCHOR, 63, 0), (SYS_TIME_STAT.RTC_SET, 1, 0)]) baseOn, 7, none, true, true, true, by decide⟩,
    ⟨(fun s : State => st s [(SYS_SESS.STATE, 1, 7)]) baseOn, 7, 10, by decide⟩,
    ⟨(fun s : State => st s [(SYS_SESS.STATE, 1, 7)]) baseOn, 7, 9, by decide⟩,
    ⟨(fun s : State => st s [(SYS_SESS.STATE, 2, 7), (SYS_SESS.LEVEL, 2, 7), (SYS_MGMT_CFG.IDLE_T, 9, 0)]) baseOn, 7, 10, by decide⟩,
    ⟨(fun s : State => st s [(SYS_SESS.STATE, 2, 7), (SYS_SESS.LEVEL, 2, 7), (SYS_MGMT_CFG.IDLE_T, 9, 0)]) baseOn, 7, 9, by decide⟩,
    ⟨(fun s : State => st s [(SYS_SESS.STATE, 2, 7), (SYS_SESS.LEVEL, 3, 7), (SYS_ROLE.ROLE_ACT, 1, 0), (TMX_CTRL.EN, 1, 0)]) baseOn, 7, 5, 143, by
      decide⟩,
    ⟨(fun s : State => st s [(SYS_SESS.STATE, 2, 7), (SYS_SESS.LEVEL, 3, 7), (SYS_ROLE.ROLE_ACT, 1, 0), (MET_SEAL.SEALED, 1, 0)]) baseOn, 7, 5, 143,
      by decide⟩⟩

/-- The hypotheses of `MessageResults` can be met, clause by clause. -/
theorem witness_message_results :
    (∃ (s : State) (sess id a : Nat), s.level sess ≠ 0 ∧ lookupReq (id % 65536 :: [a].flatMap (leBytes 4)) (s.ses sess).cache = none ∧ a % 4 = 0 ∧ a <
      0x10000 ∧ fieldsAt a ≠ [] ∧ captCount a = 0 ∧ lookupKey a s.capt = none ∧ s.runs 3) ∧
    (∃ (s : State) (sess id a : Nat), s.level sess ≠ 0 ∧ lookupReq (id % 65536 :: [a].flatMap (leBytes 4)) (s.ses sess).cache = none ∧ fieldsAt a = [])
      ∧
    (∃ (s : State) (sess id : Nat) (addrs : List Nat), s.level sess ≠ 0 ∧ lookupReq (id % 65536 :: addrs.flatMap (leBytes 4)) (s.ses sess).cache = none
      ∧ 64 < addrs.length) ∧
    (∃ (s : State) (sess id v m : Nat), s.level sess ≠ 0 ∧ (lookupReq (id % 65536 :: ([(0x184, v, m)].flatMap fun e => leBytes 4 e.1 ++ leBytes 4 e.2.1
      ++ leBytes 4 e.2.2)) (s.ses sess).cache = none) ∧ 2 ≤ s.level sess ∧ s.runs 3) ∧
    (∃ (s : State) (sess id v m : Nat), s.level sess = 1 ∧ (lookupReq (id % 65536 :: ([(0x184, v, m)].flatMap fun e => leBytes 4 e.1 ++ leBytes 4 e.2.1
      ++ leBytes 4 e.2.2)) (s.ses sess).cache = none) ∧ s.runs 3 ∧ m % 2 ^ 32 ≠ 0) ∧
    (∃ (s : State) (sess id a : Nat), s.level sess ≠ 0 ∧ lookupReq (id % 65536 :: leBytes 4 a ++ leBytes 2 2 ++ [0, 0]) (s.ses sess).cache = none ∧ a %
      4 = 0 ∧ a < 0x10000 ∧ fieldsAt a ≠ [] ∧ captCount a = 0 ∧ lookupKey a s.capt = none ∧ s.runs 3) ∧
    (∃ (s : State) (sess id : Nat) (fixed : Bool) (a n : Nat), s.level sess ≠ 0 ∧ lookupReq (id % 65536 :: leBytes 4 a ++ leBytes 2 n ++ [0, 0]) (s.ses
      sess).cache = none ∧ 0 < n ∧ n ≤ 112 ∧ fieldsAt a = []) ∧
    (∃ (s : State) (sess id : Nat) (fixed : Bool) (v : Nat), s.level sess ≠ 0 ∧ lookupReq (id % 65536 :: leBytes 4 0x184 ++ leBytes 2 1 ++ [0, 0] ++
      leBytes 4 v) (s.ses sess).cache = none ∧ 2 ≤ s.level sess ∧ s.runs 3) ∧
    (∃ (s : State) (sess id : Nat) (fixed : Bool) (a : Nat) (words : List Nat), s.level sess ≠ 0 ∧ lookupReq (id % 65536 :: leBytes 4 a ++ leBytes 2
      words.length ++ [0, 0] ++ words.flatMap (leBytes 4)) (s.ses sess).cache = none ∧ words ≠ [] ∧ words.length ≤ 112 ∧ fieldsAt a = []) ∧
    (∃ (s : State) (sess id : Nat) (fixed : Bool) (sub mode period a n : Nat), s.level sess ≠ 0 ∧ lookupReq (id % 65536 :: [sub, mode] ++ leBytes 2
      period ++ leBytes 4 a ++ leBytes 2 n ++ [0, 0]) (s.ses sess).cache = none ∧ mode ≤ 1 ∧ 0 < n ∧ n ≤ 16 ∧ 10 ≤ period ∧ period ≤ 65535 ∧
      (eraseKey sub (s.ses sess).subs).length < 16 ∧ subWords (eraseKey sub (s.ses sess).subs) + n ≤ 128) ∧
    (∃ (s : State) (sess id : Nat) (fixed : Bool) (sub mode period a n : Nat), s.level sess ≠ 0 ∧ lookupReq (id % 65536 :: [sub, mode] ++ leBytes 2
      period ++ leBytes 4 a ++ leBytes 2 n ++ [0, 0]) (s.ses sess).cache = none ∧ (1 < mode ∨ n = 0 ∨ 16 < n ∨ period = 0 ∨ 65535 < period)) ∧
    (∃ (s : State) (sess id sub : Nat), s.level sess ≠ 0 ∧ lookupReq (id % 65536 :: [sub]) (s.ses sess).cache = none) ∧
    (∃ (s : State) (sess sub hc : Nat) (x : Sub), lookupKey sub (s.ses sess).subs = some x ∧ s.level sess ≠ 0 ∧ x.period ≤ hc ∧ x.mode = 0 ∧ x.count = 1
      ∧ x.addr % 4 = 0 ∧ x.addr < 0x10000 ∧ fieldsAt x.addr ≠ [] ∧ captCount x.addr = 0 ∧ lookupKey x.addr s.capt = none ∧ s.runs 3) ∧
    (∃ (s : State) (sess sub hc : Nat) (x : Sub), lookupKey sub (s.ses sess).subs = some x ∧ hc < x.period) ∧
    (∃ (s : State) (sess id mask sev : Nat), s.level sess ≠ 0 ∧ lookupReq (id % 65536 :: [mask, sev]) (s.ses sess).cache = none ∧ (s.ses sess).mask = 0)
      ∧
    (∃ (s : State) (sess : Nat) (r : Held), s.level sess ≠ 0 ∧ (s.ses sess).mask = 1 ∧ waiting s.evr.op (s.ses sess).nextOp (s.ses sess).sev = [r] ∧
      (s.ses sess).second ≠ s.rtc ∧ (s.ses sess).dropped = 0) ∧
    (∃ (s : State) (sess : Nat), (s.ses sess).mask = 0) ∧
    (∃ (s : State) (sess id : Nat), s.level sess ≠ 0 ∧ lookupReq [id % 65536] (s.ses sess).cache = none) ∧
    (∃ (s : State) (sess id : Nat) (r : List Nat), s.level sess ≠ 0 ∧ lookupReq [id % 65536] (s.ses sess).cache = some r) ∧
    (∃ (s : State) (sess id : Nat) (alert : Bool), s.level sess ≠ 0 ∧ s.level sess ≠ 3 ∧ alert) ∧
    (∃ (s : State) (sess id : Nat) (alert : Bool), s.level sess ≠ 0 ∧ s.level sess ≠ 3 ∧ alert = false ∧ lookupReq [id % 65536] (s.ses sess).cache =
      none) :=
  ⟨⟨(fun s : State => st s [(SYS_SESS.STATE, 2, 7), (SYS_SESS.LEVEL, 3, 7), (SYS_ROLE.ROLE_ACT, 1, 0)]) baseOn, 7, 65537, 0x40, by decide⟩,
    ⟨(fun s : State => st s [(SYS_SESS.STATE, 2, 7), (SYS_SESS.LEVEL, 3, 7), (SYS_ROLE.ROLE_ACT, 1, 0)]) baseOn, 7, 65537, 0x3FFC, by decide⟩,
    ⟨(fun s : State => st s [(SYS_SESS.STATE, 2, 7), (SYS_SESS.LEVEL, 3, 7), (SYS_ROLE.ROLE_ACT, 1, 0)]) baseOn, 7, 65537, (List.replicate 65 64), by
      decide⟩,
    ⟨(fun s : State => (st s [(SYS_SESS.STATE, 2, 7), (SYS_SESS.LEVEL, 3, 7), (SYS_ROLE.ROLE_ACT, 1, 0)]).put SYS_NTP_SRV.ADDR 0xFFFF0000) baseOn, 7, 3,
      0x12345678, 0xFFFF, by decide⟩,
    ⟨(fun s : State => st s [(SYS_SESS.STATE, 2, 7), (SYS_SESS.LEVEL, 1, 7)]) baseOn, 7, 3, 0x12345678, 0xFFFF, by decide⟩,
    ⟨(fun s : State => st s [(SYS_SESS.STATE, 2, 7), (SYS_SESS.LEVEL, 3, 7), (SYS_ROLE.ROLE_ACT, 1, 0)]) baseOn, 7, 9, 0x184, by decide⟩,
    ⟨(fun s : State => st s [(SYS_SESS.STATE, 2, 7), (SYS_SESS.LEVEL, 3, 7), (SYS_ROLE.ROLE_ACT, 1, 0)]) baseOn, 7, 9, false, 0x3FFC, 2, by decide⟩,
    ⟨(fun s : State => st s [(SYS_SESS.STATE, 2, 7), (SYS_SESS.LEVEL, 3, 7), (SYS_ROLE.ROLE_ACT, 1, 0)]) baseOn, 7, 9, false, 0x12345678, by decide⟩,
    ⟨(fun s : State => st s [(SYS_SESS.STATE, 2, 7), (SYS_SESS.LEVEL, 3, 7), (SYS_ROLE.ROLE_ACT, 1, 0)]) baseOn, 7, 9, false, 0x3FFC, [1, 2], by
      decide⟩,
    ⟨(fun s : State => st s [(SYS_SESS.STATE, 2, 7), (SYS_SESS.LEVEL, 3, 7), (SYS_ROLE.ROLE_ACT, 1, 0)]) baseOn, 7, 9, false, 3, 1, 10, 0x40, 16, by
      decide⟩,
    ⟨(fun s : State => st s [(SYS_SESS.STATE, 2, 7), (SYS_SESS.LEVEL, 3, 7), (SYS_ROLE.ROLE_ACT, 1, 0)]) baseOn, 7, 9, false, 3, 1, 10, 0x40, 17, by
      decide⟩,
    ⟨(fun s : State => (st s [(SYS_SESS.STATE, 2, 7), (SYS_SESS.LEVEL, 3, 7), (SYS_ROLE.ROLE_ACT, 1, 0)]).setSes 7 { subs := [(3, { mode := 1, period := 10, addr := 64, count := 1, fixed := false, seq := 5 })] })
      baseOn, 7, 9, 3, by decide⟩,
    ⟨(fun s : State => (st s [(SYS_SESS.STATE, 2, 7), (SYS_SESS.LEVEL, 3, 7), (SYS_ROLE.ROLE_ACT, 1, 0)]).setSes 7 { subs := [(3, { mode := 0, period := 10, addr := 64, count := 1, fixed := false, seq := 65535 })] })
      baseOn, 7, 3, 10, { mode := 0, period := 10, addr := 64, count := 1, fixed := false, seq := 65535 }, by decide⟩,
    ⟨(fun s : State => (st s [(SYS_SESS.STATE, 2, 7), (SYS_SESS.LEVEL, 3, 7), (SYS_ROLE.ROLE_ACT, 1, 0)]).setSes 7 { subs := [(3, { mode := 1, period := 10, addr := 64, count := 1, fixed := false, seq := 65535 })] })
      baseOn, 7, 3, 9, { mode := 1, period := 10, addr := 64, count := 1, fixed := false, seq := 65535 }, by decide⟩,
    ⟨(fun s : State => st s [(SYS_SESS.STATE, 2, 7), (SYS_SESS.LEVEL, 3, 7), (SYS_ROLE.ROLE_ACT, 1, 0), (EVR_OP_SEQ.SEQ, 12, 0)]) baseOn, 7, 9, 1, 4, by
      decide⟩,
    ⟨(fun s : State => { (st s [(SYS_SESS.STATE, 2, 7), (SYS_SESS.LEVEL, 3, 7), (SYS_ROLE.ROLE_ACT, 1, 0), (SYS_RTC.UTC, 5, 0)]).setSes 7 { mask := 1, nextOp := 4, sev := 2, second := 999999 } with evr := { s.evr with op := [⟨4, ⟨5, 6, 0x0101, 2, 1, []⟩⟩] } })
      baseOn, 7, ⟨4, ⟨5, 6, 0x0101, 2, 1, []⟩⟩, by decide⟩,
    ⟨(fun s : State => (st s [(SYS_SESS.STATE, 2, 7), (SYS_SESS.LEVEL, 3, 7), (SYS_ROLE.ROLE_ACT, 1, 0)]).setSes 7 {}) baseOn, 7, by decide⟩,
    ⟨(fun s : State => st s [(SYS_SESS.STATE, 2, 7), (SYS_SESS.LEVEL, 3, 7), (SYS_ROLE.ROLE_ACT, 1, 0)]) baseOn, 7, 65535, by decide⟩,
    ⟨(fun s : State => (st s [(SYS_SESS.STATE, 2, 7), (SYS_SESS.LEVEL, 3, 7), (SYS_ROLE.ROLE_ACT, 1, 0)]).setSes 7 { cache := [([9], [1, 15, 9, 0, 0, 0, 0, 1])] })
      baseOn, 7, 9, [1, 15, 9, 0, 0, 0, 0, 1], by decide⟩,
    ⟨(fun s : State => st s [(SYS_SESS.STATE, 2, 7), (SYS_SESS.LEVEL, 2, 7)]) baseOn, 7, 9, true, by decide⟩,
    ⟨(fun s : State => st s [(SYS_SESS.STATE, 2, 7), (SYS_SESS.LEVEL, 2, 7)]) baseOn, 7, 9, false, by decide⟩⟩

/-- The hypotheses of `RemoteAndTimeResults` can be met, clause by clause. -/
theorem witness_remote_and_time_results :
    (∃ (s : State) (sess id serial : Nat), s.level sess ≠ 0 ∧ lookupReq (id % 65536 :: leBytes 8 serial) (s.ses sess).cache = none ∧ s.get FAB_STAT.ROOT
      = 1 ∧ serial = s.serial) ∧
    (∃ (s : State) (sess id serial : Nat), s.level sess ≠ 0 ∧ lookupReq (id % 65536 :: leBytes 8 serial) (s.ses sess).cache = none ∧ s.get FAB_STAT.ROOT
      = 0) ∧
    (∃ (s : State) (sess id dst : Nat) (pay : List Nat) (recent : Nat), s.level sess = 3 ∧ lookupReq (id % 65536 :: leBytes 4 dst ++ pay) (s.ses
      sess).cache = none ∧ pay.length = 40 ∧ s.fab.hold) ∧
    (∃ (s : State) (sess id dst : Nat) (pay : List Nat) (recent : Nat), s.level sess ≠ 0 ∧ lookupReq (id % 65536 :: leBytes 4 dst ++ pay) (s.ses
      sess).cache = none ∧ s.level sess ≠ 3) ∧
    (∃ (s : State) (src : Nat) (resp : List Nat) (i : Nat), lookupKey (bytesAt resp 0 4) s.mg.launches = some i ∧ s.level i ≠ 0) ∧
    (∃ (s : State) (src : Nat) (resp : List Nat), lookupKey (bytesAt resp 0 4) s.mg.launches = none) ∧
    (∃ (s : State) (sess id serial recent n : Nat), s.level sess = 3 ∧ lookupReq (id % 65536 :: leBytes 8 serial) (s.ses sess).cache = none ∧ s.kvReady
      ∧ (s.slot 5).used ∧ serial ≠ s.serial ∧ s.mg.located = some (serial, n) ∧ s.fab.hold) ∧
    (∃ (s : State) (sess id serial recent : Nat), s.level sess = 3 ∧ lookupReq (id % 65536 :: leBytes 8 serial) (s.ses sess).cache = none ∧ s.kvReady =
      false) ∧
    (∃ (s : State) (sess id serial recent : Nat), s.level sess ≠ 0 ∧ lookupReq (id % 65536 :: leBytes 8 serial) (s.ses sess).cache = none ∧ s.level sess
      ≠ 3) ∧
    (∃ (s : State) (sess id utc frac phase : Nat), s.level sess = 3 ∧ lookupReq (id % 65536 :: leBytes 8 utc ++ leBytes 4 frac) (s.ses sess).cache =
      none ∧ s.get SYS_TIME_CFG.TSRC = 0 ∧ utc < 2 ^ 32 ∧ 1 ≤ ((utc : Int) - (s.rtc : Int)).natAbs - 1 ∧ frac < 2 ^ 32 ∧ phase < 2 ^ 32 ∧ s.get
      BIL_STAT.CLK_ST ≠ 3) ∧
    (∃ (s : State) (sess id utc frac phase : Nat), s.level sess = 3 ∧ lookupReq (id % 65536 :: leBytes 8 utc ++ leBytes 4 frac) (s.ses sess).cache =
      none ∧ s.get SYS_TIME_CFG.TSRC = 1 ∧ s.get SYS_TIME_STAT.TSTATE = 2) ∧
    (∃ (s : State) (ofs : Int) (utc : Nat) (utcValid : Bool), s.srcRuns 1 ∧ ofs.natAbs ≤ 100000 ∧ 15 ≤ s.mg.syncs ∧ s.get SYS_TIME_STAT.TSTATE ≠ 2 ∧
      utcValid = false) ∧
    (∃ (s : State) (ofs : Int) (utc : Nat) (utcValid : Bool), s.srcRuns 1 ∧ 500000000 ≤ ofs.natAbs ∧ s.get SYS_TIME_STAT.TSTATE ≠ 2 ∧ utcValid ∧ utc < 2
      ^ 32) ∧
    (∃ (s : State) (ofs : Int) (utc : Nat) (utcValid : Bool), s.srcRuns 1 ∧ 500000000 ≤ ofs.natAbs ∧ s.get SYS_TIME_STAT.TSTATE = 2 ∧ utcValid ∧ utc < 2
      ^ 32 ∧ s.mg.ptpAt ≠ some s.rtc ∧ s.get BIL_STAT.CLK_ST ≠ 3) ∧
    (∃ (s : State) (intervals : Nat), s.srcRuns 1 ∧ s.get SYS_TIME_STAT.TSTATE = 2 ∧ 3 ≤ intervals) ∧
    (∃ (s : State) (intervals : Nat), intervals < 3 ∧ (s.geti SYS_TIME_STAT.OFS).natAbs ≤ 1000) ∧
    (∃ (s : State) (secs : Nat), s.srcRuns 2 ∧ 2 ^ clampN 4 10 (s.get SYS_TIME_CFG.NTP_POLL) ≤ secs) ∧
    (∃ (s : State) (secs : Nat), secs < 16) ∧
    (∃ (s : State) (stratum : Nat) (alarm : Bool) (rootMs : Nat) (ofs : Int) (utc : Nat), s.srcRuns 2 ∧ 1 ≤ stratum ∧ stratum ≤ 15 ∧ alarm = false ∧
      rootMs ≤ 100 ∧ 500000000 ≤ ofs.natAbs ∧ utc < 2 ^ 32 ∧ s.get BIL_STAT.CLK_ST ≠ 3 ∧ s.get SYS_TIME_STAT.TSTATE ≠ 2) ∧
    (∃ (s : State) (stratum : Nat) (alarm : Bool) (rootMs : Nat) (ofs : Int) (utc : Nat), (stratum = 0 ∨ 15 < stratum ∨ alarm ∨ 100 < rootMs)) ∧
    (∃ (s : State), s.srcRuns 2 ∧ s.get SYS_TIME_STAT.TSTATE = 2 ∧ 4 ≤ s.mg.polls) :=
  ⟨⟨(fun s : State => st s [(SYS_SESS.STATE, 2, 7), (SYS_SESS.LEVEL, 3, 7), (SYS_ROLE.ROLE_ACT, 1, 0), (FAB_STAT.ROOT, 1, 0), (SYS_SERIAL_LO.SERIAL, 5,
      0), (SYS_SERIAL_HI.SERIAL, 0, 0)]) baseOn, 7, 9, 5, by decide⟩,
    ⟨(fun s : State => st s [(SYS_SESS.STATE, 2, 7), (SYS_SESS.LEVEL, 3, 7), (SYS_ROLE.ROLE_ACT, 1, 0), (FAB_STAT.ROOT, 0, 0)]) baseOn, 7, 9, 5, by
      decide⟩,
    ⟨(fun s : State => { st s [(SYS_SESS.STATE, 2, 7), (SYS_SESS.LEVEL, 3, 7), (SYS_ROLE.ROLE_ACT, 1, 0)] with fab := { s.fab with hold := true, inject := [] } })
      baseOn, 7, 9, 5, (List.replicate 40 7), 0, by decide⟩,
    ⟨(fun s : State => st s [(SYS_SESS.STATE, 2, 7), (SYS_SESS.LEVEL, 2, 7)]) baseOn, 7, 9, 5, (List.replicate 40 7), 0, by decide⟩,
    ⟨(fun s : State => { st s [(SYS_SESS.STATE, 2, 7), (SYS_SESS.LEVEL, 3, 7), (SYS_ROLE.ROLE_ACT, 1, 0)] with mg := { s.mg with launches := [(1, 7)] } })
      baseOn, 4097, [1, 0, 0, 0, 0, 0, 0, 0, 0, 0, 0, 0, 0, 0, 0, 0], 7, by decide⟩,
    ⟨(fun s : State => { s with mg := { s.mg with launches := [] } }) baseOn, 4097, [1, 0, 0, 0, 0, 0, 0, 0, 0, 0, 0, 0, 0, 0, 0, 0], by decide⟩,
    ⟨(fun s : State => { st s [(SYS_SESS.STATE, 2, 7), (SYS_SESS.LEVEL, 3, 7), (SYS_ROLE.ROLE_ACT, 1, 0), (SYS_READY.RDY, 0x3FFF, 0), (SYS_SERIAL_LO.SERIAL, 4, 0)] with vault := { s.vault with slots := [(5, { type := 2, use := 6, key := some [1] })] }, fab := { s.fab with hold := true, inject := [] }, mg := { s.mg with located := some (5, 9) } })
      baseOn, 7, 9, 5, 0, 9, by decide⟩,
    ⟨(fun s : State => st s [(SYS_SESS.STATE, 2, 7), (SYS_SESS.LEVEL, 3, 7), (SYS_ROLE.ROLE_ACT, 1, 0), (SYS_READY.RDY, 0, 0)]) baseOn, 7, 9, 5, 0, by
      decide⟩,
    ⟨(fun s : State => st s [(SYS_SESS.STATE, 2, 7), (SYS_SESS.LEVEL, 2, 7)]) baseOn, 7, 9, 5, 0, by decide⟩,
    ⟨(fun s : State => st s [(SYS_SESS.STATE, 2, 7), (SYS_SESS.LEVEL, 3, 7), (SYS_ROLE.ROLE_ACT, 1, 0), (SYS_TIME_CFG.TSRC, 0, 0), (BIL_STAT.CLK_ST, 1,
      0)]) baseOn, 7, 9, 1700000000, 0, 0, by decide⟩,
    ⟨(fun s : State => st s [(SYS_SESS.STATE, 2, 7), (SYS_SESS.LEVEL, 3, 7), (SYS_ROLE.ROLE_ACT, 1, 0), (SYS_TIME_CFG.TSRC, 1, 0),
      (SYS_TIME_STAT.TSTATE, 2, 0)]) baseOn, 7, 9, 1700000000, 0, 0, by decide⟩,
    ⟨(fun s : State => { st s [(SYS_TIME_CFG.TSRC, 1, 0), (SYS_NET_CFG.ETH_EN, 1, 0), (SYS_ROLE.ROLE_ACT, 1, 0), (SYS_TIME_STAT.TSTATE, 1, 0)] with mg := { s.mg with syncs := 15 } })
      baseOn, (-100000), 5, false, by decide⟩,
    ⟨(fun s : State => st s [(SYS_TIME_CFG.TSRC, 1, 0), (SYS_NET_CFG.ETH_EN, 1, 0), (SYS_ROLE.ROLE_ACT, 1, 0), (SYS_TIME_STAT.TSTATE, 1, 0)]) baseOn,
      500000000, 1700000000, true, by decide⟩,
    ⟨(fun s : State => { st s [(SYS_TIME_CFG.TSRC, 1, 0), (SYS_NET_CFG.ETH_EN, 1, 0), (SYS_ROLE.ROLE_ACT, 1, 0), (SYS_TIME_STAT.TSTATE, 2, 0)] with mg := { s.mg with ptpAt := none } })
      baseOn, 500000000, 1700000000, true, by decide⟩,
    ⟨(fun s : State => st s [(SYS_TIME_CFG.TSRC, 1, 0), (SYS_NET_CFG.ETH_EN, 1, 0), (SYS_ROLE.ROLE_ACT, 1, 0), (SYS_TIME_STAT.TSTATE, 2, 0)]) baseOn, 3,
      by decide⟩,
    ⟨(fun s : State => st s [(SYS_TIME_CFG.TSRC, 1, 0), (SYS_NET_CFG.ETH_EN, 1, 0), (SYS_ROLE.ROLE_ACT, 1, 0), (SYS_TIME_STAT.TSTATE, 2, 0),
      (SYS_TIME_STAT.OFS, 1000, 0)]) baseOn, 2, by decide⟩,
    ⟨(fun s : State => st s [(SYS_TIME_CFG.TSRC, 2, 0), (SYS_NET_CFG.ETH_EN, 1, 0), (SYS_ROLE.ROLE_ACT, 1, 0)]) baseOn, 1024, by decide⟩,
    ⟨(fun s : State => st s [(SYS_TIME_CFG.TSRC, 2, 0), (SYS_NET_CFG.ETH_EN, 1, 0), (SYS_ROLE.ROLE_ACT, 1, 0)]) baseOn, 15, by decide⟩,
    ⟨(fun s : State => st s [(SYS_TIME_CFG.TSRC, 2, 0), (SYS_NET_CFG.ETH_EN, 1, 0), (SYS_ROLE.ROLE_ACT, 1, 0), (SYS_TIME_STAT.TSTATE, 1, 0)]) baseOn,
      15, false, 100, (-500000000), 1700000000, by decide⟩,
    ⟨(fun s : State => st s [(SYS_TIME_CFG.TSRC, 2, 0), (SYS_NET_CFG.ETH_EN, 1, 0), (SYS_ROLE.ROLE_ACT, 1, 0)]) baseOn, 16, false, 100, 5, 1700000000,
      by decide⟩,
    ⟨(fun s : State => { st s [(SYS_TIME_CFG.TSRC, 2, 0), (SYS_NET_CFG.ETH_EN, 1, 0), (SYS_ROLE.ROLE_ACT, 1, 0), (SYS_TIME_STAT.TSTATE, 2, 0)] with mg := { s.mg with polls := 4 } })
      baseOn, by decide⟩⟩

/-- The hypotheses of `OperationalLogClear` can be met, clause by clause. -/
theorem witness_operational_log_clear :
    ∃ (s : State) (sess v : Nat), s.level sess ≠ 0 ∧ s.runs 3 ∧ v < 2 ^ 32 :=
  ⟨(fun s : State => { st s [(SYS_SESS.STATE, 2, 7), (SYS_SESS.LEVEL, 1, 7)] with evr := { s.evr with op := [⟨4, ⟨5, 6, 0x0101, 2, 1, []⟩⟩, ⟨5, ⟨5, 6, 0x0101, 2, 1, []⟩⟩] } })
      baseOn, 7, 4294967295, by decide⟩

/-- The hypotheses of `ImbalanceNoted` can be met, clause by clause. -/
theorem witness_imbalance_noted :
    (∃ (s : State) (n : Nat) (diff : Int), n < 96 ∧ s.get PE_PH_STAT.STATE n = 2 ∧ s.get PE_DIAG.IMBAL * s.get PE_GRP_RATING.I_PH_MAX (s.get
      PE_PH_CFG.GRP n) < diff.natAbs * 100) ∧
    (∃ (s : State) (n : Nat) (diff : Int), diff.natAbs * 100 ≤ s.get PE_DIAG.IMBAL * s.get PE_GRP_RATING.I_PH_MAX (s.get PE_PH_CFG.GRP n)) :=
  ⟨⟨(fun s : State => st s [(PE_PH_STAT.STATE, 2, 95), (PE_PH_CFG.GRP, 7, 95), (PE_GRP_RATING.I_PH_MAX, 20, 7), (PE_DIAG.IMBAL, 10, 0)]) baseOn, 95, 3,
      by decide⟩,
    ⟨(fun s : State => st s [(PE_PH_STAT.STATE, 2, 95), (PE_PH_CFG.GRP, 7, 95), (PE_GRP_RATING.I_PH_MAX, 20, 7), (PE_DIAG.IMBAL, 10, 0)]) baseOn, 95, 2,
      by decide⟩⟩

/-- The hypotheses of `OpenLoadDetected` can be met, clause by clause. -/
theorem witness_open_load_detected :
    (∃ (s : State) (n ms i : Nat), s.lswRuns ∧ n < 16 ∧ s.get LSW_CH_STAT.STATE n = 1 ∧ s.get LSW_CH_CFG.OL_EN n = 1 ∧ i < 5 ∧ 100 ≤ ms ∧ s.get
      LSW_CH_STAT.OL n = 0) ∧
    (∃ (s : State) (n ms i : Nat), s.lswLogic ∧ n < 16 ∧ s.get LSW_CH_CFG.OL_EN n = 0) ∧
    (∃ (s : State) (n ms i : Nat), s.lswLogic ∧ n < 16 ∧ s.get LSW_CH_STAT.STATE n ≠ 1) :=
  ⟨⟨(fun s : State => st s [(SYS_ROLE.ROLE_ACT, 8, 0), (LSW_CH_STAT.STATE, 1, 15), (LSW_CH_CFG.OL_EN, 1, 15), (SAF_STAT.FRZ, 0, 0)])
      baseOn, 15, 100, 4, by decide⟩,
    ⟨(fun s : State => st s [(SYS_ROLE.ROLE_ACT, 8, 0), (LSW_CH_STAT.STATE, 1, 15)]) baseOn, 15, 100, 4, by decide⟩,
    ⟨(fun s : State => st s [(SYS_ROLE.ROLE_ACT, 8, 0), (LSW_CH_STAT.STATE, 0, 15), (LSW_CH_CFG.OL_EN, 1, 15)]) baseOn, 15, 100, 4, by decide⟩⟩

/-- The hypotheses of `FlowFaultRule` can be met, clause by clause. -/
theorem witness_flow_fault_rule :
    (∃ (s : State) (k run low : Nat), s.circuitOn k ∧ s.get TH_CC_STAT.RUN k = 1 ∧ s.get TH_CC_STAT.FLOW_FLT k = 0 ∧ s.flowLow k ∧ s.get
      TH_CC_FLOW.FLOW_T k < run ∧ s.get TH_CC_FLOW.FLOW_T k ≤ low ∧ s.get TH_CC_CFG.FLOW_ACT k = 0) ∧
    (∃ (s : State) (k run low : Nat), s.circuitOn k ∧ s.get TH_CC_STAT.RUN k = 1 ∧ s.get TH_CC_STAT.FLOW_FLT k = 0 ∧ s.flowLow k ∧ s.get
      TH_CC_FLOW.FLOW_T k < run ∧ s.get TH_CC_FLOW.FLOW_T k ≤ low ∧ s.get TH_CC_CFG.FLOW_ACT k = 1 ∧ s.get TH_CC_TEMP.ZONE k < 8 ∧ s.get
      TH_ZONE_CFG.EN (s.get TH_CC_TEMP.ZONE k) = 1) ∧
    (∃ (s : State) (k secs : Nat), s.circuitOn k ∧ s.get TH_CC_STAT.FLOW_FLT k = 1 ∧ s.flowLow k = false ∧ 10 ≤ secs) ∧
    (∃ (s : State) (k secs : Nat), (s.flowLow k ∨ secs < 10)) :=
  ⟨⟨(fun s : State => st s [(TH_CC_CFG.EN, 1, 1), (TH_CC_STAT.RUN, 1, 1), (TH_FLOW_VAL.VALID, 0, 0), (TH_CC_FLOW.FLOW_T, 9, 1), (TH_CC_CFG.FLOW_ACT, 0,
      1), (TH_CC_CFG.HEAT_FLOW, 1, 1), (TH_CC_CFG.HEAT_LS, 15, 1), (LSW_CH_STAT.STATE, 1, 15), (LSW_CH_CTRL.ON, 1, 15), (LSW_STAT.OUT, 65535, 0)])
      baseOn, 1, 10, 9, by decide⟩,
    ⟨(fun s : State => st s [(SYS_READY.RDY, 0x3FFF, 0), (TH_ZONE_CFG.EN, 1, 7), (TH_ZONE_SNS0.SNS, 0x80000000, 7), (TH_TS_STAT.STATE, 1, 31),
      (TH_TS_LIM.WARN, 70, 31), (TH_TS_LIM.THR, 80, 31), (TH_TS_LIM.SHUT, 100, 31), (TH_CC_CFG.EN, 1, 1), (TH_CC_STAT.RUN, 1, 1),
      (TH_FLOW_VAL.VALID, 0, 0), (TH_CC_FLOW.FLOW_T, 9, 1), (TH_CC_CFG.FLOW_ACT, 1, 1), (TH_CC_CFG.HEAT_FLOW, 0, 1), (TH_CC_TEMP.ZONE, 7, 1)])
      baseOn, 1, 10, 9, by decide⟩,
    ⟨(fun s : State => st s [(TH_CC_CFG.EN, 1, 1), (TH_CC_CFG.FLOW, 3, 1), (TH_CC_STAT.FLOW_FLT, 1, 1), (TH_FLOW_VAL.VALID, 1, 3), (TH_FLOW_VAL.FLOW,
      999, 3), (TH_CC_FLOW.FLOW_MIN, 999, 1)]) baseOn, 1, 10, by decide⟩,
    ⟨(fun s : State => st s [(TH_CC_CFG.EN, 1, 1), (TH_CC_CFG.FLOW, 3, 1), (TH_CC_STAT.FLOW_FLT, 1, 1), (TH_FLOW_VAL.VALID, 1, 3), (TH_FLOW_VAL.FLOW,
      999, 3), (TH_CC_FLOW.FLOW_MIN, 999, 1)]) baseOn, 1, 9, by decide⟩⟩

/-- The hypotheses of `CoefficientsInForceKept` can be met, clause by clause. -/
theorem witness_coefficients_in_force_kept :
    ∃ (s : State) (sess a val mask : Nat) (f : Field) (l k : Nat), (f = LE_COEF_KP.K ∨ f = LE_COEF_KI.K ∨ f = LE_COEF_KD.K ∨ f = LE_COEF_TF.K) ∧ l < 64
      ∧ k < 16 ∧ a = f.at l k ∧ s.get LE_L_STAT.STATE l ≠ 0 ∧ s.get LE_L_STAT.SET l = k ∧ 2 ≤ s.level sess ∧ s.wordStatus a = 0 ∧ mask % 2 ^ 32 ≠ 0 :=
  ⟨(fun s : State => st s [(SYS_SESS.STATE, 2, 7), (SYS_SESS.LEVEL, 3, 7), (SYS_ROLE.ROLE_ACT, 1, 0), (LE_L_STAT.STATE, 2, 63), (LE_L_STAT.SET, 15,
      63)]) baseOn, 7, (LE_COEF_TF.K.at 63 15), 0x3F800000, 0xFFFFFFFF, LE_COEF_TF.K, 63, 15, by decide⟩

/-- The hypotheses of `DormantRefused` can be met, clause by clause. -/
theorem witness_dormant_refused :
    ∃ (s : State) (sess n c g : Nat), s.writeStatus sess PWR_STATE.CMD = 0 ∧ ((n < 96 ∧ s.get PE_PH_CFG.EN n = 1) ∨ (c < 2 ∧ s.contactorOn c) ∨ (s.get
      SAF_STAT.FRZ = 1 ∧ s.get SAF_FRZ.CONN ≠ 0) ∨ (c < 2 ∧ s.connActive c) ∨ (g < 8 ∧ s.get PE_GRP_LEASE.LAPSED g = 0 ∧ s.get PE_GRP_LEASE.P_LEASE
      g ≠ 0) ∨ (s.fab.la.any fun a => decide (s.stamp < a.target)) ∨ s.get PWR_SUPPLY_STAT.LOW_BAND = 1 ∨ s.get PWR_SUPPLY_STAT.HIGH_BAND = 1 ∨
      s.get PWR_SUPPLY_STAT.OVERV = 1) :=
  ⟨(fun s : State => st s [(SYS_SESS.STATE, 2, 7), (SYS_SESS.LEVEL, 3, 7), (SYS_ROLE.ROLE_ACT, 1, 0), (PE_PH_CFG.EN, 1, 95), (PWR_STATE.STATE, 1, 0)])
      baseOn, 7, 95, 1, 7, by decide⟩

/-- The hypotheses of `ActionArrivalChecks` can be met, clause by clause. -/
theorem witness_action_arrival_checks :
    (∃ (s : State) (src actId ack target ep op : Nat) (dstEp : Option Nat) (body : List Nat) (code : Nat), s.runs 8 ∧ s.fab.hold = false ∧ code =
      s.laCheck target ep op dstEp body ∧ (code = 3 ∨ code = 4 ∨ code = 5 ∨ code = 6 ∨ ((code = 7 ∨ code = 8) ∧ (s.fab.la.any fun a => a.src == src && a.actId == actId) =
      false ∧ (s.fab.done.any fun d => d == (src, actId)) = false))) ∧
    (∃ (s : State) (src actId ack target ep op : Nat) (dstEp : Option Nat) (body : List Nat), (s.laCheck target ep op dstEp body = 0 ∨ s.laCheck target
      ep op dstEp body = 7 ∨ s.laCheck target ep op dstEp body = 8) ∧ ((s.fab.la.any fun a => a.src == src && a.actId == actId) ∨ (s.fab.done.any
      fun d => d == (src, actId)))) ∧
    (∃ (s : State) (src actId ack target ep op : Nat) (dstEp : Option Nat) (body : List Nat), s.runs 8 ∧ 0x10 ≤ ep ∧ ep ≤ 0x1D ∧ (∀ e, dstEp = some e →
      e = ep) ∧ s.populated ep ∧ s.get SYS_ROLE_CMD.STATUS ≠ 1 ∧ s.stamp < target ∧ target - s.stamp ≤ s.get FAB_LA_CFG.LA_AHEAD * 2 ^ 24 ∧
      ((s.fab.la.any fun a => a.src == src && a.actId == actId) = false) ∧ ((s.fab.done.any fun d => d == (src, actId)) = false) ∧ s.fab.la.length <
      64 ∧ s.laAccepts target ep op body) :=
  ⟨⟨(fun s : State => st s [(FAB_LA_CFG.LA_AHEAD, 255, 0), (SYS_ROLE.ROLE_ACT, 1, 0), (SYS_ROLE_CMD.STATUS, 0, 0)]) baseOn, 9, 7, 2, 0, 16, 1, (some
      16), [7,0,0,0,1,0,0,0], 5, by decide⟩,
    ⟨(fun s : State => { st s [(FAB_LA_CFG.LA_AHEAD, 255, 0), (SYS_ROLE.ROLE_ACT, 1, 0), (SYS_ROLE_CMD.STATUS, 0, 0)] with fab := { s.fab with done := [(9, 7)] } })
      baseOn, 9, 7, 2, 16777216, 16, 1, (some 16), [7,0,0,0,1,0,0,0], by decide⟩,
    ⟨(fun s : State => { st s [(FAB_LA_CFG.LA_AHEAD, 255, 0), (SYS_ROLE.ROLE_ACT, 1, 0), (SYS_ROLE_CMD.STATUS, 0, 0)] with fab := { s.fab with la := [], done := [] } })
      baseOn, 9, 7, 2, 16777216, 16, 1, (some 16), [7,0,0,0,1,0,0,0], by decide⟩⟩

/-- The hypotheses of `EventMark` can be met, clause by clause. -/
theorem witness_event_mark :
    (∃ (s : State) (src actId ack target op : Nat) (dstEp : Option Nat) (body : List Nat), s.runs 8 ∧ (s.laCheck target 0x01D op dstEp body = 0 ∨
      s.laCheck target 0x01D op dstEp body = 8) ∧ ((s.fab.la.any fun a => a.src == src && a.actId == actId) = false) ∧ ((s.fab.done.any fun d => d
      == (src, actId)) = false)) ∧
    (∃ (s : State) (a : La), s.laDue = some a ∧ a.ep = 0x01D ∧ a.op = 1 ∧ s.laCode a = 1) :=
  ⟨⟨(fun s : State => { st s [(FAB_LA_CFG.LA_AHEAD, 255, 0), (SYS_ROLE.ROLE_ACT, 1, 0), (SYS_ROLE_CMD.STATUS, 0, 0)] with fab := { s.fab with la := [], done := [] } })
      baseOn, 9, 7, 2, 16777216, 2, (some 29), [], by decide⟩,
    ⟨(fun s : State => { s.put TB_STAT.ALIGNED 1 with fab := { s.fab with la := [anLa 0x01D 1 []] } }) baseOn, anLa 0x01D 1 [], by decide⟩⟩

/-- The hypotheses of `FirnDerivation` can be met, clause by clause. -/
theorem witness_firn_derivation :
    (∃ (s : State) (sess : Nat) (parentOk : Bool) (k : List Nat) (pt pu d : Nat), s.writeStatus sess KV_CMD.GO = 0 ∧ s.kvReady ∧ (s.kv.owner = none ∨
      s.kv.owner = some sess) ∧ (parentOk ∨ 64 ≤ s.get KV_FIRN.PARENT) ∧ s.firnParent = some (pt, pu, d, k) ∧ (pt = 2 ∨ pt = 3) ∧ d < 8 ∧ useAgrees
      (s.get KV_FIRN.TYPE) (s.get KV_FIRN.USE) ∧ clrBits (s.get KV_FIRN.USE) pu = 0 ∧ 1 ≤ s.get KV_FIRN.LABEL_LEN ∧ s.get KV_FIRN.LABEL_LEN ≤ 32) ∧
    (∃ (s : State) (sess : Nat) (parentOk : Bool) (k : List Nat) (pt pu d : Nat), s.writeStatus sess KV_CMD.GO = 0 ∧ s.kvReady ∧ (s.kv.owner = none ∨
      s.kv.owner = some sess) ∧ (parentOk ∨ 64 ≤ s.get KV_FIRN.PARENT) ∧ s.firnParent = some (pt, pu, d, k) ∧ (pt = 2 ∨ pt = 3) ∧ 8 ≤ d) ∧
    (∃ (s : State) (sess : Nat) (parentOk : Bool) (k : List Nat) (pt pu d : Nat), s.writeStatus sess KV_CMD.GO = 0 ∧ s.kvReady ∧ (s.kv.owner = none ∨
      s.kv.owner = some sess) ∧ (parentOk ∨ 64 ≤ s.get KV_FIRN.PARENT) ∧ s.firnParent = some (pt, pu, d, k) ∧ (pt = 2 ∨ pt = 3) ∧ d < 8 ∧ clrBits
      (s.get KV_FIRN.USE) pu ≠ 0) :=
  ⟨⟨(fun s : State => { st s [(SYS_SESS.STATE, 2, 7), (SYS_SESS.LEVEL, 3, 7), (SYS_ROLE.ROLE_ACT, 1, 0), (SYS_READY.RDY, 0x3FFF, 0), (KV_FIRN.PARENT, 62, 0), (KV_FIRN.TYPE, 2, 0), (KV_FIRN.USE, 2, 0), (KV_FIRN.LABEL_LEN, 4, 0), (KV_FIRN.TARGET, 127, 0)] with vault := { s.vault with slots := [(62, { type := 2, use := 6, key := some (List.replicate 32 7) })] } })
      baseOn, 7, true, List.replicate 32 7, 2, 6, 0, by decide⟩,
    ⟨(fun s : State => { st s [(SYS_SESS.STATE, 2, 7), (SYS_SESS.LEVEL, 3, 7), (SYS_ROLE.ROLE_ACT, 1, 0), (SYS_READY.RDY, 0x3FFF, 0), (KV_FIRN.PARENT, 255, 0), (KV_FIRN.TYPE, 2, 0), (KV_FIRN.USE, 2, 0), (KV_FIRN.LABEL_LEN, 4, 0), (KV_FIRN.TARGET, 127, 0), (KV_WORK_ATTR.VALID, 1, 127), (KV_WORK_ATTR.TYPE, 2, 127), (KV_WORK_ATTR.USE, 6, 127), (KV_WORK_ATTR.DEPTH, 8, 127)] with kv := { s.kv with owner := none, work := [(127, List.replicate 32 7)] } })
      baseOn, 7, true, List.replicate 32 7, 2, 6, 8, by decide⟩,
    ⟨(fun s : State => { st s [(SYS_SESS.STATE, 2, 7), (SYS_SESS.LEVEL, 3, 7), (SYS_ROLE.ROLE_ACT, 1, 0), (SYS_READY.RDY, 0x3FFF, 0), (KV_FIRN.PARENT, 255, 0), (KV_FIRN.TYPE, 2, 0), (KV_FIRN.USE, 2, 0), (KV_FIRN.LABEL_LEN, 4, 0), (KV_FIRN.TARGET, 127, 0), (KV_WORK_ATTR.VALID, 1, 127), (KV_WORK_ATTR.TYPE, 2, 127), (KV_WORK_ATTR.USE, 4, 127), (KV_WORK_ATTR.DEPTH, 7, 127)] with kv := { s.kv with owner := none, work := [(127, List.replicate 32 7)] } })
      baseOn, 7, true, List.replicate 32 7, 2, 4, 7, by decide⟩⟩

/-- The hypotheses of `FlashWrites` can be met, clause by clause. -/
theorem witness_flash_writes :
    (∃ c : Instr, ∀ ok, c ≠ .flashDone ok) ∧
    (∃ (s : State) (sess w : Nat), s.level sess ≠ 3) ∧
    (∃ (s : State) (sess : Nat), s.level sess ≠ 3) ∧
    (∃ (s : State) (sess a val mask : Nat), (a = UPD_FL_ADDR.ADDR.addr ∨ a = UPD_FL_DATA.DATA.addr ∨ a = UPD_FL_CMD.ERASE.addr) ∧ s.level sess ≠ 3) ∧
    (∃ (s : State) (sess w a : Nat), s.wordStatus UPD_FL_DATA.DATA.addr = 0 ∧ s.level sess = 3 ∧ s.get UPD_FL_CMD.FL_BUSY = 0 ∧ a = s.get
      UPD_FL_ADDR.ADDR / 4 * 4 ∧ ((a < 0x400000 ∧ s.updN.cfg = some (a / 0x200000)) ∨ (a < 0x2A00000 ∧ ∃ u ∈ List.range 7, bit s.boot.fwBad u =
      false ∧ (bankAt u (s.fwBank u)).1 ≤ a ∧ a < (bankAt u (s.fwBank u)).1 + (bankAt u (s.fwBank u)).2))) ∧
    (∃ (s : State) (sess a : Nat), s.wordStatus UPD_FL_CMD.ERASE.addr = 0 ∧ s.level sess = 3 ∧ s.get UPD_FL_CMD.FL_BUSY = 0 ∧ a = s.get UPD_FL_ADDR.ADDR
      / 4 * 4 ∧ ((a < 0x400000 ∧ s.updN.cfg = some (a / 0x200000)) ∨ (a < 0x2A00000 ∧ ∃ u ∈ List.range 7, bit s.boot.fwBad u = false ∧ (bankAt u
      (s.fwBank u)).1 ≤ a ∧ a < (bankAt u (s.fwBank u)).1 + (bankAt u (s.fwBank u)).2))) ∧
    (∃ (s : State) (sess : Nat), s.wordStatus UPD_FL_CMD.ERASE.addr = 0 ∧ s.level sess = 3 ∧ s.get UPD_FL_CMD.FL_BUSY = 0 ∧ 0x2A00000 ≤ s.get
      UPD_FL_ADDR.ADDR) ∧
    (∃ (s : State) (sess w : Nat), s.wordStatus UPD_FL_DATA.DATA.addr = 0 ∧ s.level sess = 3 ∧ s.get UPD_FL_CMD.FL_BUSY = 0 ∧ 0x2A00000 ≤ s.get
      UPD_FL_ADDR.ADDR) ∧
    (∃ (s : State) (ok : Bool) (a : Nat) (v : Word) (b : Nat), s.upd.fl = some { addr := a, word := some v } ∧ (b < a ∨ a + 4 ≤ b)) ∧
    (∃ (s : State) (ok : Bool) (a b : Nat), s.upd.fl = some { addr := a, word := none } ∧ b / 0x10000 ≠ a / 0x10000) :=
  ⟨⟨.flashErase 0, by intro ok h; cases h⟩,
    ⟨(fun s : State => st s [(SYS_SESS.STATE, 2, 7), (SYS_SESS.LEVEL, 2, 7)]) baseOn, 7, 1, by decide⟩,
    ⟨(fun s : State => st s [(SYS_SESS.STATE, 2, 7), (SYS_SESS.LEVEL, 2, 7)]) baseOn, 7, by decide⟩,
    ⟨(fun s : State => st s [(SYS_SESS.STATE, 2, 7), (SYS_SESS.LEVEL, 2, 7)]) baseOn, 7, UPD_FL_DATA.DATA.addr, 1, 1, by decide⟩,
    ⟨(fun s : State => { st s [(SYS_SESS.STATE, 2, 7), (SYS_SESS.LEVEL, 3, 7), (SYS_ROLE.ROLE_ACT, 1, 0), (UPD_FL_ADDR.ADDR, 0x3FFFFF, 0)] with updN := { s.updN with cfg := some 1 } })
      baseOn, 7, 1, 0x3FFFFC, by decide⟩,
    ⟨(fun s : State => { st s [(SYS_SESS.STATE, 2, 7), (SYS_SESS.LEVEL, 3, 7), (SYS_ROLE.ROLE_ACT, 1, 0), (UPD_FL_ADDR.ADDR, 0x3FFFFF, 0)] with updN := { s.updN with cfg := some 1 } })
      baseOn, 7, 0x3FFFFC, by decide⟩,
    ⟨(fun s : State => st s [(SYS_SESS.STATE, 2, 7), (SYS_SESS.LEVEL, 3, 7), (SYS_ROLE.ROLE_ACT, 1, 0), (UPD_FL_ADDR.ADDR, 0x2A00000, 0)]) baseOn, 7, by
      decide⟩,
    ⟨(fun s : State => st s [(SYS_SESS.STATE, 2, 7), (SYS_SESS.LEVEL, 3, 7), (SYS_ROLE.ROLE_ACT, 1, 0), (UPD_FL_ADDR.ADDR, 0x2A00000, 0)]) baseOn, 7, 1,
      by decide⟩,
    ⟨(fun s : State => { s with upd := { s.upd with fl := some { addr := 0x200000, word := some 0x12345678#32 } }, flash := [(0x200004, 5#8)] }) baseOn,
      true, 0x200000, 0x12345678#32, 0x200004, by decide⟩,
    ⟨(fun s : State => { s with upd := { s.upd with fl := some { addr := 0x20FFFF, word := none } }, flash := [(0x200000, 5#8), (0x210000, 6#8)] })
      baseOn, true, 0x20FFFF, 0x210000, by decide⟩⟩

/-- The hypotheses of `AddressErrors` can be met, clause by clause. -/
theorem witness_address_errors :
    (∃ (s : State) (sess a val mask : Nat), (a % 4 ≠ 0 ∨ fieldsAt a = [])) ∧
    (∃ (s : State) (sess id : Nat) (fixed : Bool) (a n : Nat), s.level sess ≠ 0 ∧ lookupReq (id % 65536 :: (leBytes 4 a ++ leBytes 2 n ++ [0, 0]))
      (s.ses sess).cache = none ∧ 0 < n ∧ n ≤ 112 ∧ (a % 4 ≠ 0 ∨ fieldsAt a = [])) :=
  ⟨⟨baseOn, 7, 0x41, 1, 1, by decide⟩,
    ⟨(fun s : State => st s [(SYS_SESS.STATE, 2, 7), (SYS_SESS.LEVEL, 3, 7), (SYS_ROLE.ROLE_ACT, 1, 0)]) baseOn, 7, 65535, true, 0x3FFC, 1, by decide⟩⟩

/-- The hypotheses of `PinLevels` can be met, clause by clause. -/
theorem witness_pin_levels :
    (∃ s : State, bit (s.get PWR_DOM_STAT.ON) 0) ∧
    (∃ (s : State) (n : Nat), bit (s.get PWR_DOM_STAT.ON) 0 ∧ n < 96 ∧ s.runs (5 + n / 48) = false) ∧
    (∃ s : State, bit (s.get PWR_DOM_STAT.ON) 0 ∧ s.is SAF_STAT.ACTIVE) ∧
    (∃ (s : State) (n : Nat), bit (s.get PWR_DOM_STAT.ON) 0 ∧ (s.runs 8 = false ∨ bit (s.get FAB_CTRL.LANE_EN) n = false)) ∧
    (∃ s : State, bit (s.get PWR_DOM_STAT.ON) 0 ∧ s.runs 10 = false) ∧
    (∃ s : State, bit (s.get PWR_DOM_STAT.ON) 0 ∧ s.runs 9 = false) ∧
    (∃ s : State, bit (s.get PWR_DOM_STAT.ON) 0 ∧ s.runs 4 = false) :=
  ⟨⟨baseOn, by decide⟩, ⟨(fun s : State => s.put PWR_DOM_STAT.ON 0xFBF) baseOn, 95, by decide⟩,
    ⟨(fun s : State => s.put SAF_STAT.ACTIVE 1) baseOn, by decide⟩, ⟨(fun s : State => s.put FAB_CTRL.LANE_EN 0x7F) baseOn, 7, by decide⟩,
    ⟨(fun s : State => s.put PWR_DOM_STAT.IN_RST 0x400) baseOn, by decide⟩, ⟨(fun s : State => s.put PWR_DOM_STAT.IN_RST 0x200) baseOn, by decide⟩,
    ⟨(fun s : State => s.put PWR_DOM_STAT.IN_RST 0x10) baseOn, by decide⟩⟩

/-- A frame that waits at an egress: virtual channel, urgent. -/
def egr (vc urg : Nat) : Egr := ⟨⟨0, 0, vc, urg, 0, 0, 0, 0, 0, List.replicate 112 0⟩, 14⟩

/-- The hypotheses of `LaneEgress` can be met, clause by clause. -/
theorem witness_lane_egress :
    (∃ (x : LaneX) (e : Egr), x.queue.find? Egr.urgent = some e ∧ x.covers e) ∧
    (∃ (x : LaneX) (a b : Egr), x.queue.find? Egr.urgent = none ∧ (x.queue.find? fun e => e.f.vc % 2 == 1) = some a ∧ (x.queue.find? fun e =>
      e.f.vc % 2 == 0 && !e.urgent) = some b ∧ x.covers a ∧ x.covers b) ∧
    (∃ (x : LaneX) (e : Egr), e.urgent = false ∧ e.f.vc % 2 = 0 ∧ x.cred0 < (e.f.pay.length + 79) / 64 + 16) ∧
    (∃ (s : State) (l : Nat) (e : Egr), s.laneUp l ∧ (s.lane l).busy = 0 ∧ (s.lane l).pick = some e ∧ s.bankOf e.f.epo ≠ none) ∧
    (∃ (s : State) (l : Nat) (e : Egr), s.laneUp l ∧ (s.lane l).busy = 0 ∧ (s.lane l).pick = some e ∧ s.bankOf e.f.epo ≠ none ∧
      (frameBytes (s.leaving e l)).length ≤ 16384) :=
  ⟨⟨{ queue := [egr 1 0, egr 0 1], cred0 := 2 }, egr 0 1, by decide⟩, ⟨{ queue := [egr 0 0, egr 1 0] }, egr 1 0, egr 0 0, by decide⟩,
    ⟨{ cred0 := 17 }, egr 0 0, by decide⟩,
    ⟨(fun s : State => (st s [(FAB_CTRL.LANE_EN, 0x80, 0), (FAB_LANE_STAT.STATE, 3, 7), (FAB_LANE_STAT.LOS, 0, 7)]).setLane 7 { queue := [egr 0 1] })
      baseOn, 7, egr 0 1, by decide⟩,
    ⟨(fun s : State => (st s [(FAB_CTRL.LANE_EN, 0x80, 0), (FAB_LANE_STAT.STATE, 3, 7), (FAB_LANE_STAT.LOS, 0, 7)]).setLane 7 { queue := [egr 0 1] })
      baseOn, 7, egr 0 1, by decide +kernel⟩⟩

/-- The hypotheses of `AuxSwitching` can be met, clause by clause. -/
theorem witness_aux_switching :
    (∃ (s : State) (a : Nat), s.auxRuns a ∧ (s.aux a).per ≤ (s.aux a).t + 4000 ∧ s.auxFallback a = false ∧ s.get PWR_AUX_STAT.MODE a ≠ 3 ∧
      s.get PWR_AUX_STAT.MODE a ≠ 5 ∧ s.is SAF_STAT.ACTIVE = false ∧ s.auxOver a (s.get PWR_AUX_STAT.FB a) (s.get PWR_AUX_OVS.OV1 a) = false) ∧
    (∃ (s : State) (a : Nat), s.auxRuns a ∧ (s.aux a).per ≤ (s.aux a).t + 4000 ∧ (s.get PWR_AUX_STAT.MODE a = 3 ∨ s.is SAF_STAT.ACTIVE)) ∧
    (∃ (s : State) (a : Nat), s.auxRuns a ∧ (s.aux a).t + 4000 < (s.aux a).per ∧ clampN 50 95 (s.get PWR_AUX_FSW.DMAX a) * (s.aux a).per ≤ 100 *
      ((s.aux a).t + 4000)) ∧
    (∃ (s : State) (a : Nat), s.auxRuns a = false) :=
  ⟨⟨(fun s : State => (st s [(PWR_AUX_STAT.MODE, 2, 5), (PWR_AUX_CTRL.LOOP, 63, 5)]).setAux 5 { per := 1000000, t := 996000, ref := 100 }) baseOn, 5,
      by decide⟩,
    ⟨(fun s : State => (s.put PWR_AUX_STAT.MODE 3 5).setAux 5 { per := 1000000, t := 996000 }) baseOn, 5, by decide⟩,
    ⟨(fun s : State => (st s [(PWR_AUX_STAT.MODE, 2, 5), (PWR_AUX_FSW.DMAX, 95, 5)]).setAux 5 { per := 1000000, t := 948000 }) baseOn, 5, by decide⟩,
    ⟨baseOn, 5, by decide⟩⟩

/-- The hypotheses of `DeliveredCertificates` can be met, clause by clause. -/
theorem witness_delivered_certificates :
    (∃ s : State, s.serial = 0x0123456789ABCDEF) ∧
    (∃ (s : State) (k : Nat), k < 5 ∧ (s.slot k).cert.isSome) ∧
    (∃ (s : State) (k : Nat), (s.slot k).type < 16 ∧ (s.slot k).use < 32) :=
  ⟨⟨(fun s : State => st s [(SYS_SERIAL_LO.SERIAL, 0x89ABCDEF, 0), (SYS_SERIAL_HI.SERIAL, 0x01234567, 0)]) baseOn, by decide⟩,
    ⟨State.reset, 4, by decide⟩, ⟨State.reset, 4, by decide⟩⟩

end Sys2Proof.Tests
end

section
/-! PROOFS. Address errors (R6): an access to an address that is not word-aligned or not listed. -/

namespace Sys2Proof.Proofs

open Sys2Proof.Machine Sys2Proof.Laws

/-! ### Messages (R504 to R508) -/

/-- A request whose ID and body are not kept is executed; where that leaves the session open, its response is the one message sent for it. -/
theorem message_of_not_kept {s : State} {sess op id : Nat} {fixed : Bool} {req : List Nat} {g : State → Nat × List Nat × State}
    (hs : s.level sess ≠ 0) (hk : lookupReq (id % 65536 :: req) (s.ses sess).cache = none) (hg : (g s).2.2.level sess ≠ 0) :
    s.message sess op id fixed req g = (g s).2.2.respond sess op (id % 65536) (g s).1 fixed req (g s).2.1 := by
  simp only [State.message, if_neg hs, hk, if_neg hg]

theorem respond_out (s : State) (sess op id st : Nat) (fixed : Bool) (req body : List Nat) :
    (s.respond sess op id st fixed req body).out =
      ⟨.response, sess, msgHead op id body.length st (if fixed then 3 else 1) ++ body⟩ :: s.out := rfl

theorem respond_unchanged (s : State) (sess op id st : Nat) (fixed : Bool) (req body : List Nat) :
    Unchanged (within [.out, .mg]) s (s.respond sess op id st fixed req body) := by
  have hA : touchRespond (within [.out, .mg]) := by
    constructor <;> simp [touchEmit, touchSetSes, within]
  exact (respond_keeps hA (Keeps.refl _ s)).same

/-! ### Blocks (R505) -/

/-- Every transport takes a count that is within both of its limits. -/
theorem le_maxEntries {s : State} {sess eth fab n : Nat} (he : n ≤ eth) (hf : n ≤ fab) : n ≤ s.maxEntries sess eth fab := by
  unfold State.maxEntries
  split
  · exact hf
  · exact he

/-- The first address of a block that is not empty is its own address, consecutive or fixed. -/
theorem blockAddrs_eq_cons {a n : Nat} (fixed : Bool) (hn : 0 < n) : ∃ l, blockAddrs a n fixed = a :: l := by
  obtain ⟨m, rfl⟩ := Nat.exists_eq_succ_of_ne_zero hn.ne'
  simp [blockAddrs, List.range_succ_eq_map]

/-! ### An address that is not aligned or not listed (R6) -/

section AddressError

variable {a : Nat} (ha : a % 4 ≠ 0 ∨ fieldsAt a = [])
include ha

theorem accessWrite_addressError (s : State) (sess lvl : Nat) (val mask : Word) : s.accessWrite sess lvl a val mask = (1, s) := by
  unfold State.accessWrite
  exact if_pos ha

theorem accessRead_addressError (s : State) (sess : Nat) : s.accessRead sess a = (1, 0, s) := by
  unfold State.accessRead
  exact if_pos ha

/-- A block read stops at its first word, with no data. -/
theorem readBlock_addressError {s : State} {sess : Nat} (hs : s.level sess ≠ 0) (l : List Nat) :
    State.readBlock sess (a :: l) s = (1, [], s) := by
  simp [State.readBlock, hs, accessRead_addressError ha]

theorem execRegisterWrite_addressError (s : State) (sess val mask : Nat) :
    execRegisterWrite sess a val mask s = .next (s.report sess 1) := by
  simp only [execRegisterWrite, accessWrite_addressError ha]

/-- BLOCK_READ answers the address error with an empty body. -/
theorem execBlockRead_addressError {s : State} {sess id n : Nat} {fixed : Bool} (hs : s.level sess ≠ 0)
    (hk : lookupReq (id % 65536 :: (leBytes 4 a ++ leBytes 2 n ++ [0, 0])) (s.ses sess).cache = none) (hn : 0 < n) (hmax : n ≤ 112) :
    execBlockRead sess id fixed a n s =
      .next (s.respond sess 3 (id % 65536) 1 fixed (leBytes 4 a ++ leBytes 2 n ++ [0, 0]) []) := by
  obtain ⟨l, hl⟩ := blockAddrs_eq_cons (a := a) fixed hn
  have hfit : ¬ s.maxEntries sess 256 112 < n := (le_maxEntries (hmax.trans (by decide)) hmax).not_gt
  have hread := readBlock_addressError ha hs l
  unfold execBlockRead
  rw [message_of_not_kept hs hk]
  · simp [hfit, hl, hread]
  · simpa [hfit, hl, hread] using hs

end AddressError

/-- Settles O55: either access fails at its first test, before it has read or written anything; what a block read changes is its response. -/
theorem addressErrors : Obligations.AddressErrors := by
  unfold Obligations.AddressErrors
  constructor
  · intro s sess a val mask ha
    exact execRegisterWrite_addressError ha s sess val mask
  · intro s sess id fixed a n hs hk hn hmax ha
    exact ⟨_, execBlockRead_addressError ha hs hk hn hmax, respond_out .., respond_unchanged ..⟩

end Sys2Proof.Proofs
end

section
/-! PROOFS. The refusal of a DORMANT request (R57, R58). The request writes `CMD` before it tests the conditions, so the tests are
carried over that write; each condition of R58 fails one of them, and the refusal then writes `RESULT` only. -/

namespace Sys2Proof.Proofs

open Sys2Proof.Machine Sys2Proof.Laws R

/-! ### Writes that a session may make -/

theorem guarded_of_writeStatus_zero {s : State} {sess i : Nat} {f : Field} (g : State → State) (h : s.writeStatus sess f i = 0) :
    s.guarded sess f g i = g s := by
  simp only [State.guarded, h]

/-! ### The tests read nothing of `CMD` -/

theorem any_range_congr {n : Nat} {p q : Nat → Bool} (h : ∀ i < n, p i = q i) : (List.range n).any p = (List.range n).any q := by
  rw [Bool.eq_iff_iff, List.any_eq_true, List.any_eq_true]
  exact exists_congr fun i => and_congr_right fun hi => by rw [h i (List.mem_range.mp hi)]

section PutCmd

variable (s : State) (v : Nat)

theorem get_put_cmd {f : Field} {i : Nat} (h : apart PWR_STATE.CMD f = true) (hi : i < f.n1) (hj : 0 < f.n2) :
    (s.put PWR_STATE.CMD v).get f i = s.get f i :=
  get_put_apart h hi hj

theorem is_put_cmd {f : Field} {i : Nat} (h : apart PWR_STATE.CMD f = true) (hi : i < f.n1) (hj : 0 < f.n2) :
    (s.put PWR_STATE.CMD v).is f i = s.is f i :=
  congrArg (· == 1) (get_put_cmd s v h hi hj)

theorem inRun_put_cmd : (s.put PWR_STATE.CMD v).inRun = s.inRun :=
  congrArg (· == 0) (get_put_cmd s v (by decide) (by decide) (by decide))

theorem anyPhase_put_cmd : (s.put PWR_STATE.CMD v).anyPhase = s.anyPhase :=
  any_range_congr fun _ hn => is_put_cmd s v (by decide) hn (by decide)

theorem contactorOn_put_cmd {c : Nat} (hc : c < 2) : (s.put PWR_STATE.CMD v).contactorOn c = s.contactorOn c := by
  unfold State.contactorOn
  rw [get_put_cmd s v (by decide) hc (by decide), get_put_cmd s v (by decide) hc (by decide), put_pins]

theorem anyContactor_put_cmd : (s.put PWR_STATE.CMD v).anyContactor = s.anyContactor := by
  unfold State.anyContactor
  rw [contactorOn_put_cmd s v (by decide), contactorOn_put_cmd s v (by decide), is_put_cmd s v (by decide) (by decide) (by decide),
    get_put_cmd s v (by decide) (by decide) (by decide)]

theorem connActive_put_cmd {c : Nat} (hc : c < 2) : (s.put PWR_STATE.CMD v).connActive c = s.connActive c := by
  unfold State.connActive
  rw [get_put_cmd s v (by decide) hc (by decide)]

theorem anySession_put_cmd : (s.put PWR_STATE.CMD v).anySession = s.anySession := by
  unfold State.anySession
  rw [connActive_put_cmd s v (by decide), connActive_put_cmd s v (by decide)]

theorem aboveFloor_put_cmd : (s.put PWR_STATE.CMD v).aboveFloor = s.aboveFloor :=
  any_range_congr fun _ hg => by
    rw [is_put_cmd s v (by decide) hg (by decide), get_put_cmd s v (by decide) hg (by decide)]

theorem stamp_put_cmd : (s.put PWR_STATE.CMD v).stamp = s.stamp := by
  unfold State.stamp State.get2
  rw [get_put_cmd s v (by decide) (by decide) (by decide), get_put_cmd s v (by decide) (by decide) (by decide)]

theorem actionWaits_put_cmd : (s.put PWR_STATE.CMD v).actionWaits = s.actionWaits := by
  unfold State.actionWaits
  rw [stamp_put_cmd, put_fab]

theorem vsupNormal_put_cmd : (s.put PWR_STATE.CMD v).vsupNormal = s.vsupNormal := by
  unfold State.vsupNormal
  rw [is_put_cmd s v (by decide) (by decide) (by decide), is_put_cmd s v (by decide) (by decide) (by decide),
    is_put_cmd s v (by decide) (by decide) (by decide)]

theorem dormantRefusal_put_cmd : (s.put PWR_STATE.CMD v).dormantRefusal = s.dormantRefusal := by
  unfold State.dormantRefusal
  rw [inRun_put_cmd, anyPhase_put_cmd, anyContactor_put_cmd, anySession_put_cmd, aboveFloor_put_cmd, actionWaits_put_cmd,
    vsupNormal_put_cmd]

end PutCmd

/-! ### What refuses the request -/

section Refusal

variable {s : State}

theorem dormantRefusal_eq_zero_iff : s.dormantRefusal = 0 ↔
    ¬ s.inRun ∧ ¬ s.anyPhase ∧ ¬ s.anyContactor ∧ ¬ s.anySession ∧ ¬ s.aboveFloor ∧ ¬ s.actionWaits ∧ s.vsupNormal := by
  simp [State.dormantRefusal, ite_eq_iff, and_assoc]

/-- A refusal's code fits `RESULT`. -/
theorem dormantRefusal_lt (s : State) : s.dormantRefusal < 16 := by
  unfold State.dormantRefusal
  split_ifs <;> decide

theorem anyPhase_of_enabled {n : Nat} (hn : n < 96) (h : s.get PE_PH_CFG.EN n = 1) : s.anyPhase = true :=
  List.any_eq_true.mpr ⟨n, List.mem_range.mpr hn, beq_iff_eq.mpr h⟩

theorem anyContactor_of_on {c : Nat} (hc : c < 2) (h : s.contactorOn c = true) : s.anyContactor = true := by
  obtain rfl | rfl : c = 0 ∨ c = 1 := by omega
  all_goals simp [State.anyContactor, h]

theorem anyContactor_of_freeze (hf : s.get SAF_STAT.FRZ = 1) (hc : s.get SAF_FRZ.CONN ≠ 0) : s.anyContactor = true := by
  simp [State.anyContactor, State.is, hf, hc]

theorem anySession_of_active {c : Nat} (hc : c < 2) (h : s.connActive c = true) : s.anySession = true := by
  obtain rfl | rfl : c = 0 ∨ c = 1 := by omega
  all_goals simp [State.anySession, h]

theorem aboveFloor_of_lease {g : Nat} (hg : g < 8) (hl : s.get PE_GRP_LEASE.LAPSED g = 0) (hp : s.get PE_GRP_LEASE.P_LEASE g ≠ 0) :
    s.aboveFloor = true :=
  List.any_eq_true.mpr ⟨g, List.mem_range.mpr hg, by simp [State.is, hl, hp]⟩

theorem vsupNormal_iff : s.vsupNormal ↔
    ¬ (s.get PWR_SUPPLY_STAT.LOW_BAND = 1 ∨ s.get PWR_SUPPLY_STAT.HIGH_BAND = 1 ∨ s.get PWR_SUPPLY_STAT.OVERV = 1) := by
  simp [State.vsupNormal, State.is, and_assoc]

/-- A refused request writes `CMD` and `RESULT`, and the module does not enter DORMANT. -/
theorem dormantRequest_of_refused (h : s.dormantRefusal ≠ 0) :
    s.dormantRequest = (s.put PWR_STATE.CMD 3).put PWR_STATE.RESULT s.dormantRefusal := by
  simp only [State.dormantRequest, dormantRefusal_put_cmd, if_neg h]

theorem execDormantRequest_of_refused {sess : Nat} (hw : s.writeStatus sess PWR_STATE.CMD = 0) (h : s.dormantRefusal ≠ 0) :
    execDormantRequest sess s = .next ((s.put PWR_STATE.CMD 3).put PWR_STATE.RESULT s.dormantRefusal) := by
  rw [execDormantRequest, guarded_of_writeStatus_zero _ hw, dormantRequest_of_refused h]

end Refusal

/-- Settles O50: each condition of R58 fails a test of the request, and a refusal leaves everything but `CMD` and `RESULT` alone. -/
theorem dormantRefused : Obligations.DormantRefused := by
  unfold Obligations.DormantRefused
  intro s sess n c g hw hcond
  have hrefused : s.dormantRefusal ≠ 0 := by
    intro h0
    obtain ⟨-, hphase, hcontactor, hsession, hlease, haction, hvsup⟩ := dormantRefusal_eq_zero_iff.mp h0
    rcases hcond with ⟨hn, hen⟩ | ⟨hc, hon⟩ | ⟨hfrz, hheld⟩ | ⟨hc, hact⟩ | ⟨hg, hlapsed, hp⟩ | hwaits | hband
    · exact hphase (anyPhase_of_enabled hn hen)
    · exact hcontactor (anyContactor_of_on hc hon)
    · exact hcontactor (anyContactor_of_freeze hfrz hheld)
    · exact hsession (anySession_of_active hc hact)
    · exact hlease (aboveFloor_of_lease hg hlapsed hp)
    · exact haction hwaits
    · exact vsupNormal_iff.mp hvsup hband
  refine ⟨_, execDormantRequest_of_refused hw hrefused, ?state, ?result, ?boot⟩
  case state =>
    rw [get_put_apart (by decide) (by decide) (by decide), get_put_cmd s 3 (by decide) (by decide) (by decide)]
  case result =>
    rw [get_put_same (by decide) (by decide) (by decide)]
    exact (Nat.mod_eq_of_lt (dormantRefusal_lt s)).trans_ne hrefused
  case boot => rw [put_boot, put_boot]

end Sys2Proof.Proofs
end

section
/-! PROOFS. The phase imbalance (R129). What one event's record does (R440, R441) is stated for every event: it follows in the intake
queue where the Event Recorder takes it, and changes no part outside the records. -/

namespace Sys2Proof.Proofs

open Sys2Proof.Machine Sys2Proof.Laws R

/-! ### The record of an event (R438 to R441) -/

theorem within_of_mem {l : List Part} {p : Part} (h : p ∈ l) : within l p := by
  cases p with
  | inst => exact .inl h
  | _ => exact h

/-- Whatever may change all parts of the records may log. -/
theorem touchLog_of_logParts {A : Part → Prop} (h : ∀ p ∈ logParts, A p) : touchLog A := by
  simp only [logParts, List.forall_mem_cons] at h
  obtain ⟨hevr, hdrop, hlast, hlost, hseq, hfull, hn, hres, -⟩ := h
  have harrive : touchArrive A := ⟨hevr, hdrop⟩
  exact ⟨⟨⟨hfull, hres, hn⟩, hseq, hevr, ⟨hevr, harrive⟩, harrive, hlast, hlost⟩, harrive⟩

theorem log_unchanged (s : State) (code sev : Nat) (pay : List Nat) : Unchanged (within logParts) s (s.log code sev pay) :=
  (log_keeps (touchLog_of_logParts fun _ => within_of_mem) (Keeps.refl _ s)).same

theorem accepts_singleton_iff {s : State} {code sev : Nat} {pay : List Nat} :
    accepts s [(code, sev, pay)] ↔ s.evr.up ∧ s.evr.queue.length < 256 ∧ s.sevKept sev := by
  simp [accepts, State.sevKept, and_assoc]

/-- An operational record that the Event Recorder takes goes to the end of its intake queue. -/
theorem arrive_queue_of_accepts {s : State} {r : Rec} (h : accepts s [(r.code, r.sev, r.pay)] = true) :
    (s.arrive r).evr.queue = s.evr.queue ++ [r] := by
  obtain ⟨hup, hroom, hsev⟩ := accepts_singleton_iff.mp h
  simp [State.arrive, Evr.intake, hup, hroom, hsev]

/-- An event below LEGAL is recorded as its code, severity and payload say. -/
theorem logged_log {s : State} {code sev : Nat} {pay : List Nat} (hsev : sev ≠ 7) :
    Logged s (s.log code sev pay) [(code, sev, pay)] := by
  intro hacc
  have hlog : s.log code sev pay = s.arrive (s.mkRec code sev pay s.keeper s.rtc) := if_neg hsev
  rw [hlog, arrive_queue_of_accepts hacc, List.map_append]
  rfl

/-! ### PHASE_IMBALANCE -/

section PhaseImbalance

variable {s : State} {n : Nat} {diff : Int}

theorem execPhaseImbalance_of_strays (hn : n < 96) (hactive : s.get PE_PH_STAT.STATE n = 2)
    (hdiff : s.get PE_DIAG.IMBAL * s.get PE_GRP_RATING.I_PH_MAX (s.get PE_PH_CFG.GRP n) < diff.natAbs * 100) :
    execPhaseImbalance n diff s = .next (s.log 0x0335 WARNING [s.get PE_PH_CFG.GRP n, n]) := by
  simp [execPhaseImbalance, hn, hactive, hdiff]

theorem execPhaseImbalance_of_within_limit
    (hdiff : diff.natAbs * 100 ≤ s.get PE_DIAG.IMBAL * s.get PE_GRP_RATING.I_PH_MAX (s.get PE_PH_CFG.GRP n)) :
    execPhaseImbalance n diff s = .next s := by
  simp [execPhaseImbalance, hdiff.not_gt]

end PhaseImbalance

/-- Settles O46: beyond the limit the command is the log of one event, and a log changes nothing outside the records; within it the
command's test fails. -/
theorem imbalanceNoted : Obligations.ImbalanceNoted := by
  unfold Obligations.ImbalanceNoted
  constructor
  · intro s n diff hn hactive hdiff
    exact ⟨_, execPhaseImbalance_of_strays hn hactive hdiff, logged_log (by decide), log_unchanged ..⟩
  · intro s n diff hdiff
    exact execPhaseImbalance_of_within_limit hdiff

end Sys2Proof.Proofs
end

section
/-! PROOFS. The coefficient set in force (R152). A coefficient is the only field of its word, so a write of the word is a write of that field;
the Loop Engine does not take it, and what the refusal leaves behind touches no coefficient. -/

namespace Sys2Proof.Proofs

open Sys2Proof.Machine Sys2Proof.Laws R

/-! ### The words of a replicated field (R9) -/

theorem exists_at_of_covers {f : Field} {a : Nat} (h : f.covers a = true) : ∃ i j, i < f.n1 ∧ j < f.n2 ∧ a = f.at i j := by
  simp only [Field.covers, Bool.and_eq_true, decide_eq_true_eq] at h
  obtain ⟨⟨⟨haddr, hi⟩, hj⟩, hrem⟩ := h
  refine ⟨_, _, hi, hj, ?_⟩
  have hcell := Nat.div_add_mod (a - f.addr) f.s1
  have hplace := Nat.div_add_mod ((a - f.addr) % f.s1) f.s2
  unfold Field.at
  omega

/-- A field covers no word outside its span of addresses. -/
theorem covers_eq_false {f : Field} {a : Nat} (h : a < f.addr ∨ f.addr + f.s1 * (f.n1 - 1) + f.s2 * (f.n2 - 1) < a) : f.covers a = false := by
  rw [Bool.eq_false_iff]
  intro hcov
  obtain ⟨i, j, hi, hj, rfl⟩ := exists_at_of_covers hcov
  have hspan := at_le_last hi hj
  omega

section Indices

variable {f : Field} {i j : Nat} (hs : f.s2 * f.n2 ≤ f.s1) (hj : j < f.n2)
include hs hj

theorem offset_lt_stride (h0 : 0 < f.s2) : f.s2 * j < f.s1 :=
  (Nat.mul_lt_mul_of_pos_left hj h0).trans_le hs

theorem at_sub_div (h0 : 0 < f.s2) : (f.at i j - f.addr) / f.s1 = i := by
  have hlt := offset_lt_stride hs hj h0
  rw [Field.at, Nat.add_assoc, Nat.add_sub_cancel_left, Nat.mul_add_div (by omega), Nat.div_eq_of_lt hlt, Nat.add_zero]

theorem at_sub_mod (h0 : 0 < f.s2) : (f.at i j - f.addr) % f.s1 = f.s2 * j := by
  rw [Field.at, Nat.add_assoc, Nat.add_sub_cancel_left, Nat.mul_add_mod, Nat.mod_eq_of_lt (offset_lt_stride hs hj h0)]

theorem covers_at (h0 : 0 < f.s2) (hi : i < f.n1) : f.covers (f.at i j) = true := by
  simp only [Field.covers, at_sub_div hs hj h0, at_sub_mod hs hj h0, Nat.mul_div_cancel_left _ h0, Nat.mul_mod_right]
  simp [Field.at, hi, hj, Nat.add_assoc]

end Indices

/-! ### The write of a word with one field (R505) -/

/-- A write that may set the only field of its word is a write of that field. -/
theorem accessWrite_of_single_field {s : State} {sess lvl a : Nat} {val mask : Word} {f : Field} (halign : a % 4 = 0)
    (hfield : fieldsAt a = [f]) (hruns : s.wordStatus a = 0) (hacc : f.acc = .rw) (hmay : s.fieldStatus lvl f a = 0)
    (hmask : mask &&& f.mask ≠ 0#32) (hblock : a / 0x10000 ≠ 19) :
    s.accessWrite sess lvl a val mask =
      (0, s.regWrite ⟨sess, lvl, a, f.mask, (s.liveWord sess a &&& ~~~mask ||| val &&& mask) &&& f.mask⟩) := by
  have hbits : f.mask ≠ 0#32 := fun h => hmask (by rw [h]; exact BitVec.and_zero)
  have hfree : ∀ req, s.reserveHolds f a req = false := fun req => by simp [State.reserveHolds, hacc]
  simp [State.accessWrite, halign, hfield, hruns, hacc, hmay, hmask, hblock, hfree, hbits]

/-- Where the block does not take the value, the write of a word's only field leaves what a refused value leaves. -/
theorem regWrite_of_single_field_refused {s : State} {w : Wr} {f : Field} (hfield : fieldsAt w.a = [f]) (hhit : w.hits f = true)
    (hacc : f.acc = .rw) (hplain : f ∉ actFields (w.a / 0x10000)) (hrefused : s.takes w f = false) :
    s.regWrite w = (s.refusedValue w f).afterWrite w.a := by
  have hacts : (actFields (w.a / 0x10000)).filter (fun g => decide (g = f)) = [] :=
    List.filter_eq_nil_iff.mpr fun g hg hgf => hplain (of_decide_eq_true hgf ▸ hg)
  simp [State.regWrite, hfield, hhit, hacc, hacts, hrefused]

/-! ### The coefficients (R152) -/

/-- The four coefficients of a set. -/
def coefFields : List Field := [LE_COEF_KP.K, LE_COEF_KI.K, LE_COEF_KD.K, LE_COEF_TF.K]

theorem coef_kind : ∀ f ∈ coefFields, leFloat f = true ∧ leCoef f = true := by decide

theorem coef_acc : ∀ f ∈ coefFields, f.acc = .rw := by decide

/-- A coefficient fills its word. -/
theorem coef_mask : ∀ f ∈ coefFields, f.mask = BitVec.allOnes 32 := by decide

theorem coef_layout : ∀ f ∈ coefFields, f.s1 = 256 ∧ f.n1 = 64 ∧ f.s2 = 16 ∧ f.n2 = 16 := by decide

/-- The first set of loop 0 holds the first word of each coefficient. -/
theorem coef_addr : ∀ f ∈ coefFields, 0x44000 ≤ f.addr ∧ f.addr < 0x44010 ∧ f.addr % 4 = 0 := by decide

theorem coef_eq_of_addr : ∀ f ∈ coefFields, ∀ g ∈ coefFields, g.addr = f.addr → g = f := by decide

/-- The other fields of the Loop Engine lie below or above the coefficients. -/
theorem coef_span : ∀ g ∈ tabLE, 0x48000 ≤ g.addr ∨ g.addr + g.s1 * (g.n1 - 1) + g.s2 * (g.n2 - 1) < 0x44000 ∨ g ∈ coefFields := by decide

theorem tabLE_filter_coef : ∀ f ∈ coefFields, tabLE.filter (· == f) = [f] := by decide

theorem coef_not_act : ∀ f ∈ coefFields, f ∉ actFields 4 := by decide

section Coefficient

variable {f : Field} {l k : Nat} (hf : f ∈ coefFields)
include hf

theorem coef_at : f.at l k = f.addr + 256 * l + 16 * k := by
  obtain ⟨hs1, -, hs2, -⟩ := coef_layout f hf
  rw [Field.at, hs1, hs2]

theorem coef_at_mod_four : f.at l k % 4 = 0 := by
  obtain ⟨-, -, halign⟩ := coef_addr f hf
  rw [coef_at hf]
  omega

theorem fieldStatus_coef {s : State} {lvl a : Nat} (hlvl : 2 ≤ lvl) : s.fieldStatus lvl f a = 0 := by
  have hother : ∀ f ∈ coefFields, f ≠ EVR_CLR.CLR_TO ∧ adminToo f = false ∧ f.addr ≠ 0x80400 ∧ f.addr ≠ 0x80404 ∧ f ≠ LSW_CH_CTRL.ON := by
    decide
  obtain ⟨hclr, hadmin, hpul, hpul', hon⟩ := hother f hf
  simp [State.fieldStatus, State.pulLocked, hclr, hlvl.not_gt, hadmin, hpul, hpul', hon, coef_acc f hf]

section Address

variable (hl : l < 64) (hk : k < 16)
include hl hk

theorem coef_at_span : 0x44000 ≤ f.at l k ∧ f.at l k < 0x48000 := by
  obtain ⟨hlow, hhigh, -⟩ := coef_addr f hf
  rw [coef_at hf]
  omega

theorem coef_at_block : f.at l k / 0x10000 = 4 := by
  have hspan := coef_at_span hf hl hk
  omega

/-- Of the Loop Engine's fields only the coefficient itself covers its word. -/
theorem covers_coef_at {g : Field} (hg : g ∈ tabLE) : g.covers (f.at l k) = (g == f) := by
  rw [Bool.eq_iff_iff, beq_iff_eq]
  constructor
  · intro hcov
    obtain ⟨i, j, hi, hj, hat⟩ := exists_at_of_covers hcov
    have hspan := coef_at_span hf hl hk
    have hgspan := at_le_last hi hj
    obtain hg | hg | hg := coef_span g hg
    · omega
    · omega
    · obtain ⟨hglow, hghigh, -⟩ := coef_addr g hg
      obtain ⟨hlow, hhigh, -⟩ := coef_addr f hf
      rw [coef_at hf, coef_at hg] at hat
      exact coef_eq_of_addr f hf g hg (by omega)
  · rintro rfl
    obtain ⟨hs1, hn1, hs2, hn2⟩ := coef_layout g hf
    exact covers_at (by rw [hs1, hs2, hn2]) (hn2 ▸ hk) (by rw [hs2]; decide) (hn1 ▸ hl)

theorem fieldsAt_coef : fieldsAt (f.at l k) = [f] := by
  rw [fieldsAt, coef_at_block hf hl hk, show tableOf 4 = tabLE from rfl,
    List.filter_congr fun g hg => covers_coef_at hf hl hk hg, tabLE_filter_coef f hf]

/-- Nothing follows from a changed coefficient. -/
theorem afterWrite_coef (s : State) : s.afterWrite (f.at l k) = s := by
  have hspan := coef_at_span hf hl hk
  have hsw : LE_L_DEST.LSW_CH.covers (f.at l k) = false := covers_eq_false (.inr (lt_of_lt_of_le (by decide) hspan.1))
  have htgt : LE_L_R_TGT.R_TGT.covers (f.at l k) = false := covers_eq_false (.inr (lt_of_lt_of_le (by decide) hspan.1))
  simp [State.afterWrite, coef_at_block hf hl hk, hsw, htgt]

end Address

/-! ### The refusal -/

section Write

variable {s : State} {w : Wr} (hk : k < 16) (ha : w.a = f.at l k)
include hk ha

theorem wr_index_coef : w.i f = l ∧ w.j f = k := by
  obtain ⟨hs1, -, hs2, hn2⟩ := coef_layout f hf
  have hs : f.s2 * f.n2 ≤ f.s1 := by rw [hs1, hs2, hn2]
  have h0 : 0 < f.s2 := by rw [hs2]; decide
  have hj : k < f.n2 := hn2 ▸ hk
  rw [Wr.i, Wr.j, ha, at_sub_div hs hj h0, at_sub_mod hs hj h0, Nat.mul_div_cancel_left _ h0]
  exact ⟨rfl, rfl⟩

theorem takes_coef_inForce (hl : l < 64) (hset : s.setInForce l k = true) : s.takes w f = false := by
  obtain ⟨hfloat, hcoef⟩ := coef_kind f hf
  obtain ⟨hi, hj⟩ := wr_index_coef hf hk ha
  simp [State.takes, ha, coef_at_block hf hl hk, hfloat, hcoef, hi, hj, hset]

theorem refusedValue_coef_inForce (hset : s.setInForce l k = true) :
    s.refusedValue w f = (s.put LE_L_STAT.SET_WR_REF 1 l).log 0x0406 NOTICE [l, k] := by
  have hgrp : ∀ f ∈ coefFields, f ≠ PE_PH_CFG.GRP := by decide
  obtain ⟨-, hcoef⟩ := coef_kind f hf
  obtain ⟨hi, hj⟩ := wr_index_coef hf hk ha
  simp [State.refusedValue, hgrp f hf, hcoef, hi, hj, hset]

end Write

/-- A session's write of a coefficient of the set in force sets `SET_WR_REF`, logs event 0x0406, reports no error, and does nothing else. -/
theorem execRegisterWrite_coef_inForce {s : State} {sess val mask : Nat} (hl : l < 64) (hk : k < 16) (hset : s.setInForce l k = true)
    (hlvl : 2 ≤ s.level sess) (hruns : s.wordStatus (f.at l k) = 0) (hmask : mask % 2 ^ 32 ≠ 0) :
    execRegisterWrite sess (f.at l k) val mask s =
      .next (((s.put LE_L_STAT.SET_WR_REF 1 l).log 0x0406 NOTICE [l, k]).report sess 0) := by
  have hacc := coef_acc f hf
  have hfield := fieldsAt_coef hf hl hk
  have hblock := coef_at_block hf hl hk
  have hmask' : BitVec.ofNat 32 mask &&& f.mask ≠ 0#32 := by
    rw [coef_mask f hf, BitVec.and_allOnes]
    intro h
    exact hmask (by simpa using congrArg BitVec.toNat h)
  have hrefused (req : Word) : s.regWrite ⟨sess, s.level sess, f.at l k, f.mask, req⟩ =
      (s.put LE_L_STAT.SET_WR_REF 1 l).log 0x0406 NOTICE [l, k] := by
    rw [regWrite_of_single_field_refused hfield (by simp [Wr.hits, coef_mask f hf]) hacc (hblock ▸ coef_not_act f hf)
      (takes_coef_inForce hf hk rfl hl hset), refusedValue_coef_inForce hf hk rfl hset, afterWrite_coef hf hl hk]
  rw [execRegisterWrite, accessWrite_of_single_field (coef_at_mod_four hf) hfield hruns hacc (fieldStatus_coef hf hlvl) hmask'
    (by rw [hblock]; decide), hrefused]

end Coefficient

theorem setInForce_iff {s : State} {l k : Nat} : s.setInForce l k ↔ s.get LE_L_STAT.STATE l ≠ 0 ∧ s.get LE_L_STAT.SET l = k := by
  simp [State.setInForce, State.loopOn]

/-! ### What a record leaves alone -/

/-- The registers that a record of an event may change are those of the Event Recorder. -/
theorem log_word_below_eventRecorder (s : State) (code sev : Nat) (pay : List Nat) {a : Nat} (ha : a < 0x100000) :
    (s.log code sev pay).word a = s.word a := by
  refine BitVec.eq_of_getLsbD_eq fun b _ => (log_unchanged s code sev pay).bits (by simp [within, logParts]) a b ?_
  rintro f i j ⟨hi, hj, rfl, -⟩
  have hbelow := (at_le_last hi hj).1.trans_lt ha
  have hreg : Part.reg f ∉ logParts := by
    simp only [logParts, List.mem_cons, Part.reg.injEq, reduceCtorEq, List.not_mem_nil, or_false, false_or]
    rintro (rfl | rfl | rfl | rfl | rfl | rfl | rfl) <;> exact absurd hbelow (by decide)
  refine ⟨hreg, ?_⟩
  rintro (hinst | hinst)
  · simp [logParts] at hinst
  · exact hreg hinst

theorem report_word (s : State) (sess code a : Nat) : (s.report sess code).word a = s.word a := rfl

/-- The write of a field that the Event Recorder does not read changes nothing of what it records. -/
theorem logged_of_put {s t : State} {f : Field} {v i j : Nat} {l : List (Nat × Nat × List Nat)}
    (hf : apart f EVR_CFG.MIN_SEV = true) (h : Logged (s.put f v i j) t l) : Logged s t l := by
  have hsev : (s.put f v i j).get EVR_CFG.MIN_SEV = s.get EVR_CFG.MIN_SEV := get_put_apart hf (by decide) (by decide)
  simpa only [Logged, accepts, put_evr, hsev] using h

/-- Settles O49: the write is refused with no more than `SET_WR_REF` put and one event logged, neither of which lies in a coefficient's
word. -/
theorem coefficientsInForceKept : Obligations.CoefficientsInForceKept := by
  unfold Obligations.CoefficientsInForceKept
  rintro s sess a val mask f l k hf hl hk rfl hstate hset hlvl hruns hmask
  have hflag : LE_L_STAT.SET_WR_REF.at l 0 < 0x44000 := (at_le_last hl (by decide)).2.trans_lt (by decide)
  have hcoef : f ∈ coefFields := by simpa [coefFields] using hf
  refine ⟨_, execRegisterWrite_coef_inForce hcoef hl hk (setInForce_iff.mpr ⟨hstate, hset⟩) hlvl hruns hmask, ?words, ?flag, ?event⟩
  case words =>
    intro g hg
    obtain ⟨hlow, hhigh⟩ := coef_at_span (f := g) hg hl hk
    rw [report_word, log_word_below_eventRecorder _ _ _ _ (hhigh.trans (by decide)), put_word_other (hflag.trans_le hlow).ne']
  case flag =>
    rw [State.get, report_word, log_word_below_eventRecorder _ _ _ _ (hflag.trans (by decide))]
    exact get_put_same hl (by decide) (by decide)
  case event =>
    exact logged_of_put (by decide) (logged_log (by decide))

end Sys2Proof.Proofs
end

section
/-! PROOFS. The checks on an arriving launched action (R195). They are not the first thing that befalls its frame: beyond 256 pending
responses it is discarded (R175), with no check of R195 and no response. -/

namespace Sys2Proof.Proofs

open Sys2Proof.Machine Sys2Proof.Laws R

/-! ### A frame beyond 256 pending responses (R175) -/

/-- What the discard of a frame may change: its counter, the second of the last event 0x060B, and that event's record. -/
def discardParts : List Part := .fab :: .reg FAB_DROP0.STALL :: .reg FAB_DROP0.EPOCH :: .reg FAB_DROP0.UNREACH :: .reg FAB_DROP0.HOPORI ::
  .reg FAB_DROP1.RSP_DROP :: logParts

theorem touchDiscard_of_discardParts {A : Part → Prop} (h : ∀ p ∈ discardParts, A p) : touchDiscard A := by
  simp only [discardParts, List.forall_mem_cons] at h
  obtain ⟨hfab, hstall, hepoch, hunreach, hhopori, hdrop, hlog⟩ := h
  exact ⟨hfab, hstall, hepoch, hunreach, hhopori, hdrop, touchLog_of_logParts hlog⟩

theorem discard_unchanged (s : State) (k : Nat) : Unchanged (within discardParts) s (s.discard k) :=
  (discard_keeps (touchDiscard_of_discardParts fun _ => within_of_mem) (Keeps.refl _ s)).same

/-- A discarded frame is answered by nothing. -/
theorem discard_out (s : State) (k : Nat) : (s.discard k).out = s.out :=
  (discard_unchanged s k).out.resolve_left (by simp [within, discardParts, logParts])

theorem not_sends_of_out_eq {s t : State} {o : Out} (h : t.out = s.out) : ¬ Sends s t o := by
  rintro ⟨l, hl⟩
  have hlen := congrArg List.length (h.symm.trans hl)
  simp only [List.length_cons, List.length_append] at hlen
  omega

/-- The frame of an action is discarded before any check of R195. -/
theorem execLaunchedActionArrival_of_responses_pending {s : State} {src actId ack target ep op : Nat} {dstEp : Option Nat} {body : List Nat}
    (hruns : s.runs 8) (hpending : 256 ≤ s.respPending) :
    execLaunchedActionArrival src actId ack target ep op dstEp body s = .next (s.discard 4) := by
  simp [execLaunchedActionArrival, hruns, hpending]

/-- Every response that waits at the source is pending. -/
theorem le_respPending (s : State) :
    (s.fab.wait.filter fun p => p.2.kind == .response || p.2.kind == .actionResponse).length ≤ s.respPending := by
  unfold State.respPending
  omega

/-! ### The counterexample -/

/-- The module runs, no epoch swap holds its frames back, and 256 responses to endpoint 0 of node 1 wait at the source. -/
def responsesPending : State :=
  { State.reset with fab := { State.reset.fab with wait := List.replicate 256 (false, ⟨.response, 2 ^ 11, [3]⟩) } }.put PWR_DOM_STAT.ON 0xFFF

theorem responsesPending_respPending : 256 ≤ responsesPending.respPending := by
  have hwait : responsesPending.fab.wait = List.replicate 256 (false, ⟨.response, 2 ^ 11, [3]⟩) := by
    rw [responsesPending, put_fab]
  have hle := le_respPending responsesPending
  rwa [hwait, List.filter_replicate_of_pos (by decide), List.length_replicate] at hle

/-- An action for the module's endpoint 0 whose target is the stamp itself fails the check for late targets. -/
theorem responsesPending_laCheck : responsesPending.laCheck 0 0 1 none [] = 5 := by decide

/-- Refutes O51: its first clause says that every refusal is sent to the source. With 256 responses pending, the frame of an action that
is too late (result 5) is discarded by R175, and nothing is sent. -/
theorem not_actionArrivalChecks : ¬ Obligations.ActionArrivalChecks := by
  unfold Obligations.ActionArrivalChecks
  rintro ⟨hrefusal, -, -⟩
  have hruns : responsesPending.runs 8 := by decide
  have hhold : responsesPending.fab.hold = false := by decide
  obtain ⟨t, hexec, -, -, -, hsends, -⟩ :=
    hrefusal responsesPending (2 ^ 11) 7 0 0 0 1 none [] 5 hruns hhold responsesPending_laCheck.symm (by decide)
  have hdiscard : t = responsesPending.discard 4 :=
    (Host.Outcome.next.inj ((execLaunchedActionArrival_of_responses_pending hruns responsesPending_respPending).symm.trans hexec)).symm
  exact not_sends_of_out_eq (hdiscard ▸ discard_out _ 4) hsends

end Sys2Proof.Proofs
end

section
/-! PROOFS. The open-load check (R394). What OPEN_LOAD does is stated once for a channel that is open-load and once for a channel that the
check does not act on; the first is two puts and the log of one event. -/

namespace Sys2Proof.Proofs

open Sys2Proof.Machine Sys2Proof.Laws R

/-! ### OPEN_LOAD -/

/-- What OPEN_LOAD of channel `n` may change: its open-load flag, the current shown, and the record of event 0x0D07. -/
def openLoadParts (n : Nat) : List Part := logParts ++ [.inst LSW_CH_STAT.OL n 0, .inst LSW_CH_MEAS.I_MEAS n 0]

theorem touchExecOpenLoad_of_openLoadParts (n : Nat) : touchExecOpenLoad (within (openLoadParts n)) n :=
  ⟨within_of_mem (by simp [openLoadParts]), within_of_mem (by simp [openLoadParts]),
    touchLog_of_logParts fun _ hp => within_of_mem (List.mem_append_left _ hp)⟩

section OpenLoad

variable {s : State} {n ms i : Nat}

theorem lswLogic_of_lswRuns (h : s.lswRuns = true) : s.lswLogic = true :=
  (Bool.and_eq_true_iff.mp h).1

/-- A channel that is ON without load for 100 ms: `I_MEAS` shows the current, `OL` is set, and 0x0D07 is logged. -/
theorem execOpenLoad_of_open (hruns : s.lswRuns = true) (hn : n < 16) (hon : s.get LSW_CH_STAT.STATE n = 1)
    (hen : s.get LSW_CH_CFG.OL_EN n = 1) (hi : i < 5) (hms : 100 ≤ ms) (hol : s.get LSW_CH_STAT.OL n = 0) :
    execOpenLoad n ms i s = .next (((s.putMax LSW_CH_MEAS.I_MEAS i n).put LSW_CH_STAT.OL 1 n).log 0x0D07 WARNING [n]) := by
  simp [execOpenLoad, State.chSt, State.is, lswLogic_of_lswRuns hruns, hruns, hn, hon, hen, hi.not_ge, hms, hol]

/-- On a channel that is not ON, or whose check is not enabled, the command only shows the current. -/
theorem execOpenLoad_of_not_checked (hlogic : s.lswLogic = true) (hn : n < 16)
    (h : s.get LSW_CH_STAT.STATE n ≠ 1 ∨ s.get LSW_CH_CFG.OL_EN n ≠ 1) :
    execOpenLoad n ms i s = .next (s.putMax LSW_CH_MEAS.I_MEAS i n) := by
  rcases h with hoff | hdisabled
  · simp [execOpenLoad, State.chSt, hlogic, hn, hoff]
  · simp [execOpenLoad, State.is, hlogic, hn, hdisabled]

/-- The frame of the command, in any case. -/
theorem execOpenLoad_unchanged {t : State} (h : execOpenLoad n ms i s = .next t) : Unchanged (within (openLoadParts n)) s t := by
  obtain ⟨u, hu, hkeeps⟩ := execOpenLoad_next (s := s) (ms := ms) (i := i) (touchExecOpenLoad_of_openLoadParts n)
  obtain rfl : u = t := Host.Outcome.next.inj (hu.symm.trans h)
  exact hkeeps.same

end OpenLoad

/-- Settles O47: the open channel's two puts and one log set `OL`, and the log of the event leaves it set; where the check does not act,
the command only shows the current. -/
theorem openLoadDetected : Obligations.OpenLoadDetected := by
  unfold Obligations.OpenLoadDetected
  refine ⟨?opened, ?disabled, ?off⟩
  case opened =>
    intro s n ms i hruns hn hon hen hi hms hol
    have hexec := execOpenLoad_of_open hruns hn hon hen hi hms hol
    refine ⟨_, hexec, ?flag, ?event, execOpenLoad_unchanged hexec⟩
    case flag =>
      have hbelow : LSW_CH_STAT.OL.at n 0 < 0x100000 := (at_le_last hn (by decide)).2.trans_lt (by decide)
      rw [State.get, log_word_below_eventRecorder _ _ _ _ hbelow]
      exact get_put_same hn (by decide) (by decide)
    case event =>
      exact logged_of_put (by decide) (logged_of_put (by decide) (logged_log (by decide)))
  case disabled =>
    intro s n ms i hlogic hn hen
    exact execOpenLoad_of_not_checked hlogic hn (.inr (by rw [hen]; decide))
  case off =>
    intro s n ms i hlogic hn hoff
    exact execOpenLoad_of_not_checked hlogic hn (.inl hoff)

end Sys2Proof.Proofs
end

section
/-! PROOFS. The Firn tree (R424, R425). DERIVE first writes `OP` and then tests the parent, so the parent is carried over that write; the
child's working slot is written whole, and no other working key is. An erasure closes the sessions that its slot admitted: the closes
release the stage, but no working key. -/

namespace Sys2Proof.Proofs

open Sys2Proof.Machine Sys2Proof.Laws R

/-! ### Entries under a key -/

theorem lookupKey_cons_same {α : Type} (k : Nat) (v : α) (l : List (Nat × α)) : lookupKey k ((k, v) :: l) = some v :=
  if_pos rfl

theorem lookupKey_cons_other {α : Type} {w k : Nat} (h : w ≠ k) (v : α) (l : List (Nat × α)) :
    lookupKey w ((k, v) :: l) = lookupKey w l :=
  if_neg h.symm

theorem lookupKey_eraseKey_other {α : Type} {w k : Nat} (h : w ≠ k) (l : List (Nat × α)) :
    lookupKey w (eraseKey k l) = lookupKey w l := by
  induction l with
  | nil => rfl
  | cons p l ih =>
    by_cases hp : p.1 = k
    · have hdrop : eraseKey k (p :: l) = eraseKey k l := List.filter_cons_of_neg (by simpa using hp)
      rw [hdrop, ih, lookupKey, if_neg (hp ▸ h.symm)]
    · have hkeep : eraseKey k (p :: l) = p :: eraseKey k l := List.filter_cons_of_pos (by simpa using hp)
      rw [hkeep, lookupKey, lookupKey, ih]

theorem get_lt (s : State) (f : Field) (i j : Nat) : s.get f i j < 2 ^ f.w :=
  Nat.mod_lt _ (Nat.two_pow_pos _)

/-! ### What leaves the working keys alone -/

theorem kv_of_keeps {s t : State} (h : Keeps (· ≠ .kv) s t) : t.kv = s.kv :=
  h.same.kv.resolve_left fun hne => hne rfl

theorem touchLog_ne_kv : touchLog (· ≠ .kv) :=
  touchLog_of_logParts (by simp [logParts])

section Work

variable (s : State)

@[simp] theorem log_kv (code sev : Nat) (pay : List Nat) : (s.log code sev pay).kv = s.kv :=
  kv_of_keeps (log_keeps touchLog_ne_kv (Keeps.refl _ s))

@[simp] theorem tmxDrop_kv (reason : Nat) : (s.tmxDrop reason).kv = s.kv :=
  kv_of_keeps (tmxDrop_keeps ⟨touchLog_ne_kv, by simp [touchTmxShow], by simp, by simp [touchTmxPut]⟩ (Keeps.refl _ s))

@[simp] theorem kvShow_kv : s.kvShow.kv = s.kv := by simp [State.kvShow]

@[simp] theorem sessShow_kv : s.sessShow.kv = s.kv := by simp [State.sessShow]

@[simp] theorem sessClear_kv (i : Nat) : (s.sessClear i).kv = s.kv := by simp [State.sessClear]

@[simp] theorem setSes_kv (i : Nat) (x : Ses) : (s.setSes i x).kv = s.kv := rfl

@[simp] theorem report_kv (sess code : Nat) : (s.report sess code).kv = s.kv := rfl

@[simp] theorem setSlot_kv (k : Nat) (x : KvSlot) : (s.setSlot k x).kv = s.kv := by simp [State.setSlot]

@[simp] theorem fabKeyCopy_kv : s.fabKeyCopy.kv = s.kv := by
  unfold State.fabKeyCopy
  split <;> rfl

/-- A release empties the stage only. -/
@[simp] theorem stageFree_work : s.stageFree.kv.work = s.kv.work := rfl

/-- A session that closes takes its stage with it, but no working key. -/
@[simp] theorem sessClose_work (i reason : Nat) : (s.sessClose i reason).kv.work = s.kv.work := by
  unfold State.sessClose
  split
  case isFalse => rfl
  extract_lets _ s0 s1 s2 s3
  have h1 : s1.kv = s.kv := by simp [s1, s0]
  have h2 : s2.kv.work = s.kv.work := by
    unfold s2
    split <;> simp [h1]
  have h3 : s3.kv.work = s.kv.work := by rw [log_kv, sessShow_kv, h2]
  split
  · rw [tmxDrop_kv, h3]
  · exact h3

@[simp] theorem sessCloseSlot_work (slot : Nat) : (s.sessCloseSlot slot).kv.work = s.kv.work := by
  unfold State.sessCloseSlot
  refine List.foldlRecOn (motive := fun t : State => t.kv.work = s.kv.work) _ _ rfl fun t ht i _ => ?_
  split
  · rw [sessClose_work, ht]
  · exact ht

@[simp] theorem kvCommit_work (slot : Nat) (x : KvSlot) : (s.kvCommit slot x).kv.work = s.kv.work := by
  unfold State.kvCommit
  extract_lets s1
  have h1 : s1.kv.work = s.kv.work := by simp [s1]
  split
  · rw [fabKeyCopy_kv, h1]
  · exact h1

@[simp] theorem kvResult_work (sess slot r : Nat) : (s.kvResult sess slot r).kv.work = s.kv.work := by
  unfold State.kvResult
  extract_lets s1 s2
  have h2 : s2.kv.work = s.kv.work := by
    unfold s2
    split_ifs <;> simp [s1]
  split
  · exact h2
  · rw [log_kv, h2]

theorem kvErase_work (sess slot : Nat) : (s.kvErase sess slot).kv.work = s.kv.work := by
  unfold State.kvErase
  extract_lets s0
  split <;> simp [s0]

/-- A command's write keeps the working keys where the write that it guards does: its refusals only report and log. -/
theorem guarded_work {s : State} {sess i : Nat} {f : Field} {g : State → State} (hg : (g s).kv.work = s.kv.work) :
    (s.guarded sess f g i).kv.work = s.kv.work := by
  unfold State.guarded
  split
  · exact hg
  · simp [State.reserveRefused]
  · rfl

end Work

/-! ### What the end of a command and a new working key show -/

section Show

variable {s : State}

/-- A command that ends writes its three fields of `KV_CMD` and `KV_CMD_STAT`, and below the Event Recorder nothing else. -/
theorem kvResult_word (sess slot r : Nat) {a : Nat} (ha : a < 0x100000) :
    (s.kvResult sess slot r).word a = (((s.put KV_CMD.GO 0).put KV_CMD_STAT.BUSY 0).put KV_CMD_STAT.RESULT r).word a := by
  unfold State.kvResult
  extract_lets s1 s2
  have h2 : s2.word a = s1.word a := by
    unfold s2
    split_ifs <;> rfl
  split
  · exact h2
  · rw [log_word_below_eventRecorder _ _ _ _ ha, h2]

theorem kvResult_result (s : State) (sess slot : Nat) {r : Nat} (hr : r < 16) :
    (s.kvResult sess slot r).get KV_CMD_STAT.RESULT = r := by
  rw [State.get, kvResult_word _ _ _ (by decide)]
  exact (get_put_same (by decide) (by decide) (by decide)).trans (Nat.mod_eq_of_lt hr)

theorem kvResult_get (sess slot r : Nat) {f : Field} {i : Nat} (hi : i < f.n1) (hj : 0 < f.n2) (hbelow : f.at i 0 < 0x100000)
    (hgo : apart KV_CMD.GO f = true) (hbusy : apart KV_CMD_STAT.BUSY f = true) (hresult : apart KV_CMD_STAT.RESULT f = true) :
    (s.kvResult sess slot r).get f i = s.get f i := by
  have hputs : (s.kvResult sess slot r).get f i = (((s.put KV_CMD.GO 0).put KV_CMD_STAT.BUSY 0).put KV_CMD_STAT.RESULT r).get f i := by
    rw [State.get, kvResult_word _ _ _ hbelow]
    rfl
  rw [hputs, get_put_apart hresult hi hj, get_put_apart hbusy hi hj, get_put_apart hgo hi hj]

theorem kvShow_get {f : Field} {i : Nat} (hi : i < f.n1) (hj : 0 < f.n2) (hused : apart KV_STAT.N_USED f = true)
    (hbad : apart KV_STAT.N_BAD f = true) (hwork : apart KV_STAT.N_WORK f = true) : s.kvShow.get f i = s.get f i := by
  unfold State.kvShow
  rw [get_put_apart hwork hi hj, get_put_apart hbad hi hj, get_put_apart hused hi hj]

variable {w type use depth parent : Nat} {k : List Nat}

theorem setWork_work : (s.setWork w type use depth parent k).kv.work = (w, k) :: eraseKey w s.kv.work := by
  simp [State.setWork]

theorem setWork_valid (hw : w < 128) : (s.setWork w type use depth parent k).get KV_WORK_ATTR.VALID w = 1 := by
  unfold State.setWork
  rw [kvShow_get hw (by decide) (by decide) (by decide) (by decide), get_put_cell (by decide), get_put_cell (by decide),
    get_put_cell (by decide), get_put_cell (by decide), get_put_same hw (by decide) (by decide)]
  rfl

theorem setWork_use (hw : w < 128) (huse : use < 32) : (s.setWork w type use depth parent k).get KV_WORK_ATTR.USE w = use := by
  unfold State.setWork
  rw [kvShow_get hw (by decide) (by decide) (by decide) (by decide), get_put_cell (by decide), get_put_cell (by decide),
    get_put_same hw (by decide) (by decide)]
  exact Nat.mod_eq_of_lt huse

theorem setWork_depth (hw : w < 128) (hdepth : depth < 16) :
    (s.setWork w type use depth parent k).get KV_WORK_ATTR.DEPTH w = depth := by
  unfold State.setWork
  rw [kvShow_get hw (by decide) (by decide) (by decide) (by decide), get_put_cell (by decide), get_put_same hw (by decide) (by decide)]
  exact Nat.mod_eq_of_lt hdepth

end Show

/-! ### The parent of a derivation (R424, R425) -/

section Parent

variable {s : State} {pt pu d : Nat} {k : List Nat} (h : s.firnParent = some (pt, pu, d, k))
include h

theorem firnParent_depth_of_slot (hp : s.get KV_FIRN.PARENT < 64) : d = 0 := by
  unfold State.firnParent at h
  simp only [hp, if_true, Option.ite_none_right_eq_some, Option.map_eq_some_iff, Prod.mk.injEq] at h
  obtain ⟨-, -, -, -, -, hd, -⟩ := h
  exact hd.symm

theorem firnParent_depth_of_work (hp : 128 ≤ s.get KV_FIRN.PARENT) :
    d = s.get KV_WORK_ATTR.DEPTH (s.get KV_FIRN.PARENT - 128) := by
  have hslot : ¬ s.get KV_FIRN.PARENT < 64 := by omega
  unfold State.firnParent at h
  simp only [hslot, hp, if_true, if_false, Option.ite_none_right_eq_some, Option.map_eq_some_iff, Prod.mk.injEq] at h
  obtain ⟨-, -, -, -, -, hd, -⟩ := h
  exact hd.symm

end Parent

/-! ### The tests read nothing of `OP` -/

section PutOp

variable (s : State) (v : Nat)

theorem get_put_op {f : Field} {i : Nat} (h : apart KV_CMD.OP f = true) (hi : i < f.n1) (hj : 0 < f.n2) :
    (s.put KV_CMD.OP v).get f i = s.get f i :=
  get_put_apart h hi hj

theorem kvReady_put_op : (s.put KV_CMD.OP v).kvReady = s.kvReady := by
  unfold State.kvReady State.runs
  rw [get_put_op s v (by decide) (by decide) (by decide), get_put_op s v (by decide) (by decide) (by decide),
    get_put_op s v (by decide) (by decide) (by decide)]

theorem slot_put_op (k : Nat) : (s.put KV_CMD.OP v).slot k = s.slot k := by
  unfold State.slot
  rw [put_vault]

theorem stageBytes_put_op (n : Nat) : (s.put KV_CMD.OP v).stageBytes n = s.stageBytes n := by
  unfold State.stageBytes
  rw [put_kv]

theorem firnParent_put_op : (s.put KV_CMD.OP v).firnParent = s.firnParent := by
  have hp : (s.put KV_CMD.OP v).get KV_FIRN.PARENT = s.get KV_FIRN.PARENT := get_put_op s v (by decide) (by decide) (by decide)
  have hw : s.get KV_FIRN.PARENT - 128 < 128 := by
    have := get_lt s KV_FIRN.PARENT 0 0
    simp only [KV_FIRN.PARENT] at this ⊢
    omega
  unfold State.firnParent State.slotServes State.is
  simp only [hp, kvReady_put_op, slot_put_op, put_kv, get_put_op s v (f := KV_WORK_ATTR.VALID) (by decide) hw (by decide),
    get_put_op s v (f := KV_WORK_ATTR.USE) (by decide) hw (by decide), get_put_op s v (f := KV_WORK_ATTR.TYPE) (by decide) hw (by decide),
    get_put_op s v (f := KV_WORK_ATTR.DEPTH) (by decide) hw (by decide)]

end PutOp

/-! ### DERIVE -/

/-- The vault serves the session's DERIVE, and the parent is a key that R424 allows: its type, usage and depth, and the key. -/
structure ParentServes (s : State) (sess : Nat) (parentOk : Bool) (pt pu d : Nat) (k : List Nat) : Prop where
  mayWrite : s.writeStatus sess KV_CMD.GO = 0
  ready : s.kvReady = true
  stage : s.kv.owner = none ∨ s.kv.owner = some sess
  checked : parentOk = true ∨ 64 ≤ s.get KV_FIRN.PARENT
  parent : s.firnParent = some (pt, pu, d, k)
  type : pt = 2 ∨ pt = 3

/-- The child by the Firn rule stands in the target working slot, before the command ends. -/
def firnChildSet (s : State) (d : Nat) (k : List Nat) : State :=
  (s.put KV_CMD.OP 5).setWork (s.get KV_FIRN.TARGET) (s.get KV_FIRN.TYPE) (s.get KV_FIRN.USE) (d + 1) (s.get KV_FIRN.PARENT)
    (firnChild k (d + 1) (s.get KV_FIRN.TYPE) (s.get KV_FIRN.USE) (s.stageBytes (s.get KV_FIRN.LABEL_LEN)))

section Derive

variable {s : State} {sess : Nat} {parentOk : Bool} {pt pu d : Nat} {k : List Nat} (h : ParentServes s sess parentOk pt pu d k)
include h

/-- With such a parent, what remains to be tested is its depth, the usage of the child, and the length of the label. -/
theorem ParentServes.exec_derive : exec (.derive sess parentOk) s = .next (
    if 8 ≤ d then (s.put KV_CMD.OP 5).kvResult sess (s.get KV_CMD.SLOT) 0xB
    else if !useAgrees (s.get KV_FIRN.TYPE) (s.get KV_FIRN.USE) || clrBits (s.get KV_FIRN.USE) pu != 0 || s.get KV_FIRN.LABEL_LEN == 0 ||
        decide (32 < s.get KV_FIRN.LABEL_LEN) then (s.put KV_CMD.OP 5).kvResult sess (s.get KV_CMD.SLOT) 6
    else (firnChildSet s d k).kvResult sess (s.get KV_CMD.SLOT) 1) := by
  have hruns : s.runs 11 = true := by
    have hready := h.ready
    simp only [State.kvReady, Bool.and_eq_true] at hready
    exact hready.1.1
  have hcheck : (if s.get KV_FIRN.PARENT < 64 then (s.put KV_CMD.OP 5).slotCheck (s.get KV_FIRN.PARENT) parentOk
      else s.put KV_CMD.OP 5) = s.put KV_CMD.OP 5 := by
    rcases h.checked with hok | hwork
    · rw [hok, State.slotCheck, if_pos rfl, ite_self]
    · exact if_neg hwork.not_gt
  have howner : (s.kv.owner.isSome && s.kv.owner != some sess) = false := by
    rcases h.stage with hnone | hsess
    · rw [hnone]; rfl
    · simp [hsess]
  have htype : (pt == 2 || pt == 3) = true := by simpa using h.type
  change execDerive sess parentOk s = _
  rw [execDerive, guarded_of_writeStatus_zero _ h.mayWrite]
  simp (disch := decide) only [State.derive, get_put_op, hruns, hcheck, put_kv, howner, kvReady_put_op, h.ready, firnParent_put_op,
    h.parent, htype, stageBytes_put_op, firnChildSet, Bool.not_true, Bool.false_eq_true, if_false]

theorem ParentServes.exec_derive_of_depth (hd : 8 ≤ d) :
    exec (.derive sess parentOk) s = .next ((s.put KV_CMD.OP 5).kvResult sess (s.get KV_CMD.SLOT) 0xB) := by
  rw [h.exec_derive, if_pos hd]

theorem ParentServes.exec_derive_of_usage (hd : d < 8) (huse : clrBits (s.get KV_FIRN.USE) pu ≠ 0) :
    exec (.derive sess parentOk) s = .next ((s.put KV_CMD.OP 5).kvResult sess (s.get KV_CMD.SLOT) 6) := by
  rw [h.exec_derive, if_neg hd.not_ge, if_pos (by simp [huse])]

theorem ParentServes.exec_derive_of_child (hd : d < 8) (hagrees : useAgrees (s.get KV_FIRN.TYPE) (s.get KV_FIRN.USE) = true)
    (huse : clrBits (s.get KV_FIRN.USE) pu = 0) (hn : 1 ≤ s.get KV_FIRN.LABEL_LEN) (hmax : s.get KV_FIRN.LABEL_LEN ≤ 32) :
    exec (.derive sess parentOk) s = .next ((firnChildSet s d k).kvResult sess (s.get KV_CMD.SLOT) 1) := by
  rw [h.exec_derive, if_neg hd.not_ge, if_neg (by simp [hagrees, huse, hmax, Nat.one_le_iff_ne_zero.mp hn])]

end Derive

theorem firnChildSet_work (s : State) (d : Nat) (k : List Nat) :
    (firnChildSet s d k).kv.work = (s.get KV_FIRN.TARGET,
      firnChild k (d + 1) (s.get KV_FIRN.TYPE) (s.get KV_FIRN.USE) (s.stageBytes (s.get KV_FIRN.LABEL_LEN))) ::
        eraseKey (s.get KV_FIRN.TARGET) s.kv.work := by
  rw [firnChildSet, setWork_work, put_kv]

/-- The end of a command leaves the attributes of the working slots alone. -/
theorem kvResult_workAttr {s : State} {sess slot r w : Nat} (hw : w < 128) :
    (s.kvResult sess slot r).get KV_WORK_ATTR.VALID w = s.get KV_WORK_ATTR.VALID w ∧
    (s.kvResult sess slot r).get KV_WORK_ATTR.DEPTH w = s.get KV_WORK_ATTR.DEPTH w ∧
    (s.kvResult sess slot r).get KV_WORK_ATTR.USE w = s.get KV_WORK_ATTR.USE w := by
  have hbelow : KV_WORK_ATTR.VALID.at w 0 < 0x100000 := (at_le_last hw (by decide)).2.trans_lt (by decide)
  exact ⟨kvResult_get _ _ _ hw (by decide) hbelow (by decide) (by decide) (by decide),
    kvResult_get _ _ _ hw (by decide) hbelow (by decide) (by decide) (by decide),
    kvResult_get _ _ _ hw (by decide) hbelow (by decide) (by decide) (by decide)⟩

/-- Settles O53: past the tests DERIVE puts the child in front of the other working keys; the two refusals and an erasure put none. -/
theorem firnDerivation : Obligations.FirnDerivation := by
  unfold Obligations.FirnDerivation
  refine ⟨?child, ?tooDeep, ?widened, ?erased⟩
  case child =>
    intro s sess parentOk k pt pu d hwrite hready howner hchecked hparent htype hd hagrees huse hn hmax
    have hserves : ParentServes s sess parentOk pt pu d k := ⟨hwrite, hready, howner, hchecked, hparent, htype⟩
    have htarget : s.get KV_FIRN.TARGET < 128 := get_lt s KV_FIRN.TARGET 0 0
    obtain ⟨hvalid, hdepth, huses⟩ := kvResult_workAttr (s := firnChildSet s d k) (sess := sess) (slot := s.get KV_CMD.SLOT) (r := 1) htarget
    refine ⟨_, hserves.exec_derive_of_child hd hagrees huse hn hmax, kvResult_result _ _ _ (by decide), hvalid.trans (setWork_valid htarget),
      hdepth.trans (setWork_depth htarget (by omega)), firnParent_depth_of_slot hparent, firnParent_depth_of_work hparent,
      huses.trans (setWork_use htarget (get_lt s KV_FIRN.USE 0 0)), ?key, ?others⟩
    case key => rw [kvResult_work, firnChildSet_work, lookupKey_cons_same]
    case others =>
      intro w _ hw
      rw [kvResult_work, firnChildSet_work, lookupKey_cons_other hw, lookupKey_eraseKey_other hw]
  case tooDeep =>
    intro s sess parentOk k pt pu d hwrite hready howner hchecked hparent htype hd
    have hserves : ParentServes s sess parentOk pt pu d k := ⟨hwrite, hready, howner, hchecked, hparent, htype⟩
    exact ⟨_, hserves.exec_derive_of_depth hd, kvResult_result _ _ _ (by decide), by rw [kvResult_work, put_kv]⟩
  case widened =>
    intro s sess parentOk k pt pu d hwrite hready howner hchecked hparent htype hd huse
    have hserves : ParentServes s sess parentOk pt pu d k := ⟨hwrite, hready, howner, hchecked, hparent, htype⟩
    exact ⟨_, hserves.exec_derive_of_usage hd huse, kvResult_result _ _ _ (by decide), by rw [kvResult_work, put_kv]⟩
  case erased =>
    intro s sess slot
    refine ⟨_, rfl, guarded_work ?_⟩
    split
    · rfl
    · exact kvErase_work s sess _

end Sys2Proof.Proofs
end

section
/-! PROOFS. The Moraine log (R446). Every command leaves a log that begins with it, and so does the tick of an empty queue: the laws of the commands and of
the tick say so beside what else each keeps, and are cited here command by command. -/

namespace Sys2Proof.Proofs

open Sys2Proof.Machine Sys2Proof.Laws

/-- Every command completes and leaves a Moraine log that begins with the old one. An operand is named where the command's law does not fix it. -/
theorem exec_next {A : Part → Prop} {s : State} (h : ∀ p, A p) : (c : Instr) → ∃ t, exec c s = .next t ∧ Keeps A s t
  | .registerWrite .. => execRegisterWrite_next (touchExecRegisterWrite_all h)
  | .apply .. => execApply_next (touchExecApply_all h)
  | .applyComplete .. => execApplyComplete_next (touchExecApplyComplete_all h)
  | .porReset .. => execPorReset_next (touchExecPorReset_all h)
  | .pinReset .. => execPinReset_next (touchExecPinReset_all h)
  | .softReset .. => execSoftReset_next (touchExecSoftReset_all h)
  | .domainReset .. => execDomainReset_next (touchExecDomainReset_all h)
  | .domainResetComplete .. => execDomainResetComplete_next (touchExecDomainResetComplete_all h)
  | .readyRelease .. => execReadyRelease_next (touchExecReadyRelease_all h)
  | .readyDeadline .. => execReadyDeadline_next (touchExecReadyDeadline_all h)
  | .vsupLowBandEntry .. => execVsupLowBandEntry_next (touchExecVsupLowBandEntry_all h)
  | .vsupLowBandExit .. => execVsupLowBandExit_next (touchExecVsupLowBandExit_all h)
  | .vsupHighBandEntry .. => execVsupHighBandEntry_next (touchExecVsupHighBandEntry_all h)
  | .vsupHighBandExit .. => execVsupHighBandExit_next (touchExecVsupHighBandExit_all h)
  | .vsupOverVoltage .. => execVsupOverVoltage_next (touchExecVsupOverVoltage_all h)
  | .vsupOverVoltageExit .. => execVsupOverVoltageExit_next (touchExecVsupOverVoltageExit_all h)
  | .supplyFail .. => execSupplyFail_next (touchExecSupplyFail_all h)
  | .railOutOfLimits .. => execRailOutOfLimits_next (touchExecRailOutOfLimits_all h)
  | .holdupStoreTest .. => execHoldupStoreTest_next (touchExecHoldupStoreTest_all h)
  | .holdupTestRequest .. => execHoldupTestRequest_next (touchExecHoldupTestRequest_all h)
  | .holdupTestDone .. => execHoldupTestDone_next (touchExecHoldupTestDone_all h)
  | .vbatLow .. => execVbatLow_next (touchExecVbatLow_all h)
  | .quietRequest .. => execQuietRequest_next (touchExecQuietRequest_all h)
  | .runRequest .. => execRunRequest_next (touchExecRunRequest_all h)
  | .dormantRequest .. => execDormantRequest_next (touchExecDormantRequest_all h)
  | .wake .. => execWake_next (touchExecWake_all h)
  | .auxEnable .. => execAuxEnable_next (touchExecAuxEnable_all h)
  | .auxStop .. => execAuxStop_next (touchExecAuxStop_all h)
  | .auxSetpointChange .. => execAuxSetpointChange_next (touchExecAuxSetpointChange_all h)
  | .auxPgood .. => execAuxPgood_next (touchExecAuxPgood_all h)
  | .auxPgoodLoss .. => execAuxPgoodLoss_next (touchExecAuxPgoodLoss_all h)
  | .auxFeedbackFault .. => execAuxFeedbackFault_next (touchExecAuxFeedbackFault_all h)
  | .auxBurstSleep .. => execAuxBurstSleep_next (touchExecAuxBurstSleep_all h)
  | .auxBurstWake .. => execAuxBurstWake_next (touchExecAuxBurstWake_all h)
  | .auxSyncLock .. => execAuxSyncLock_next (touchExecAuxSyncLock_all h)
  | .auxSyncLost .. => execAuxSyncLost_next (touchExecAuxSyncLost_all h)
  | .auxTruncation .. => execAuxTruncation_next (touchExecAuxTruncation_all h)
  | .auxBraking .. => execAuxBraking_next (touchExecAuxBraking_all h)
  | .auxBrakeRelease .. => execAuxBrakeRelease_next (touchExecAuxBrakeRelease_all h)
  | .auxThermalWarning .. => execAuxThermalWarning_next (touchExecAuxThermalWarning_all h)
  | .auxThermalShutdown .. => execAuxThermalShutdown_next (touchExecAuxThermalShutdown_all h)
  | .auxThermalRestart .. => execAuxThermalRestart_next (touchExecAuxThermalRestart_all h)
  | .snsSelectChange .. => execSnsSelectChange_next (touchExecSnsSelectChange_all h)
  | .tbAcquireLock .. => execTbAcquireLock_next (touchExecTbAcquireLock_all h)
  | .tbAcquireTimeout .. => execTbAcquireTimeout_next (touchExecTbAcquireTimeout_all h)
  | .tbSourceLost .. => execTbSourceLost_next (touchExecTbSourceLost_all h)
  | .gridPhaseJump .. => execGridPhaseJump_next (touchExecGridPhaseJump_all h)
  | .lineFault .. => execLineFault_next (touchExecLineFault_all h)
  | .lineFaultClear .. => execLineFaultClear_next (touchExecLineFaultClear_all h)
  | .tbSlewEntry .. => execTbSlewEntry_next (touchExecTbSlewEntry_all h)
  | .tbSlewLocked .. => execTbSlewLocked_next (touchExecTbSlewLocked_all h)
  | .tbSourceTaken .. => execTbSourceTaken_next (touchExecTbSourceTaken_all h)
  | .cycleRenumber => execCycleRenumber_next (touchExecCycleRenumber_all h)
  | .refclkLost => execRefclkLost_next (touchExecRefclkLost_all h)
  | .dllUnlock .. => execDllUnlock_next (touchExecDllUnlock_all h)
  | .dllRelock .. => execDllRelock_next (touchExecDllRelock_all h)
  | .keeperCommit => execKeeperCommit_next (touchExecKeeperCommit_all h)
  | .ncarChange .. => execNcarChange_next (touchExecNcarChange_all h)
  | .offsetCommit .. => execOffsetCommit_next (touchExecOffsetCommit_all h)
  | .offsetCommitTaken .. => execOffsetCommitTaken_next (touchExecOffsetCommitTaken_all h)
  | .anglePulseOut => execAnglePulseOut_next (touchExecAnglePulseOut_all h)
  | .anglePulseCapture .. => execAnglePulseCapture_next (touchExecAnglePulseCapture_all h)
  | .groupCarrierBoundary .. => execGroupCarrierBoundary_next (touchExecGroupCarrierBoundary_all h)
  | .carrierStart .. => execCarrierStart_next (touchExecCarrierStart_all h)
  | .halfCycleBoundary => execHalfCycleBoundary_next (touchExecHalfCycleBoundary_all h)
  | .leaseLapse .. => execLeaseLapse_next (touchExecLeaseLapse_all h)
  | .overshootTruncate .. => execOvershootTruncate_next (touchExecOvershootTruncate_all h)
  | .overshootBrake .. => execOvershootBrake_next (touchExecOvershootBrake_all h)
  | .truncateTimeout .. => execTruncateTimeout_next (touchExecTruncateTimeout_all h)
  | .truncateRelease .. => execTruncateRelease_next (touchExecTruncateRelease_all h)
  | .brakeRelease .. => execBrakeRelease_next (touchExecBrakeRelease_all h)
  | .brakingTimeout .. => execBrakingTimeout_next (touchExecBrakingTimeout_all h)
  | .phaseCheckFail .. => execPhaseCheckFail_next (touchExecPhaseCheckFail_all h)
  | .driverFault .. => execDriverFault_next (touchExecDriverFault_all h)
  | .phaseImbalance .. => execPhaseImbalance_next (touchExecPhaseImbalance_all h)
  | .phaseEnable .. => execPhaseEnable_next (touchExecPhaseEnable_all h)
  | .phaseDisable .. => execPhaseDisable_next (touchExecPhaseDisable_all h)
  | .phaseJoin .. => execPhaseJoin_next (touchExecPhaseJoin_all h)
  | .groupEnable .. => execGroupEnable_next (touchExecGroupEnable_all h)
  | .groupStart .. => execGroupStart_next (touchExecGroupStart_all h)
  | .groupDisable .. => execGroupDisable_next (touchExecGroupDisable_all h)
  | .rampdownComplete .. => execRampdownComplete_next (touchExecRampdownComplete_all h)
  | .demandWatchdog .. => execDemandWatchdog_next (touchExecDemandWatchdog_all h)
  | .respaceCommit .. => execRespaceCommit_next (touchExecRespaceCommit_all h)
  | .sampleStrobe .. => execSampleStrobe_next (touchExecSampleStrobe_all h)
  | .loopHoldExit .. => execLoopHoldExit_next (touchExecLoopHoldExit_all h)
  | .srateChange .. => execSrateChange_next (touchExecSrateChange_all h)
  | .loopEnable .. => execLoopEnable_next (touchExecLoopEnable_all h)
  | .loopDisable .. => execLoopDisable_next (touchExecLoopDisable_all h)
  | .loopModeChange .. => execLoopModeChange_next (touchExecLoopModeChange_all h)
  | .gtCommit .. => execGtCommit_next (touchExecGtCommit_all h)
  | .ffSwap .. => execFfSwap_next (touchExecFfSwap_all h)
  | .setTarget => execSetTarget_next (touchExecSetTarget_all h)
  | .scaleTarget => execScaleTarget_next (touchExecScaleTarget_all h)
  | .setRate => execSetRate_next (touchExecSetRate_all h)
  | .setParameter => execSetParameter_next (touchExecSetParameter_all h)
  | .setMode => execSetMode_next (touchExecSetMode_all h)
  | .startInjector => execStartInjector_next (touchExecStartInjector_all h)
  | .injectorEnable .. => execInjectorEnable_next (touchExecInjectorEnable_all h)
  | .injectorStampStart .. => execInjectorStampStart_next (touchExecInjectorStampStart_all h)
  | .injectorEnd .. => execInjectorEnd_next (touchExecInjectorEnd_all h)
  | .injectorDisable .. => execInjectorDisable_next (touchExecInjectorDisable_all h)
  | .captureArm .. => execCaptureArm_next (touchExecCaptureArm_all h)
  | .captureTrigger => execCaptureTrigger_next (touchExecCaptureTrigger_all h)
  | .captureDone => execCaptureDone_next (touchExecCaptureDone_all h)
  | .laneTrain .. => execLaneTrain_next (touchExecLaneTrain_all h)
  | .laneTrainTimeout .. => execLaneTrainTimeout_next (touchExecLaneTrainTimeout_all h)
  | .laneRetry .. => execLaneRetry_next (touchExecLaneRetry_all h)
  | .laneHold .. => execLaneHold_next (touchExecLaneHold_all h)
  | .laneActive .. => execLaneActive_next (touchExecLaneActive_all h)
  | .laneDown .. => execLaneDown_next (touchExecLaneDown_all h)
  | .frameForward .. => execFrameForward_next (touchExecFrameForward_all h)
  | .stallDiscard .. => execStallDiscard_next (touchExecStallDiscard_all h)
  | .wakeTx .. => execWakeTx_next (touchExecWakeTx_all h)
  | .announceSend .. => execAnnounceSend_next (touchExecAnnounceSend_all h)
  | .announceReceive .. => execAnnounceReceive_next (touchExecAnnounceReceive_all h)
  | .becomeRoot .. => execBecomeRoot_next (touchExecBecomeRoot_all h)
  | .nodeIdGrant serial sticky role link hops => execNodeIdGrant_next (serial := serial) (sticky := sticky) (role := role) (link := link) (hops := hops) (touchExecNodeIdGrant_all h)
  | .joinRetry .. => execJoinRetry_next (touchExecJoinRetry_all h)
  | .joinGrant .. => execJoinGrant_next (touchExecJoinGrant_all h)
  | .rootLost .. => execRootLost_next (touchExecRootLost_all h)
  | .fabricAlone .. => execFabricAlone_next (touchExecFabricAlone_all h)
  | .idReservationExpiry .. => execIdReservationExpiry_next (touchExecIdReservationExpiry_all h)
  | .topologyReport .. => execTopologyReport_next (touchExecTopologyReport_all h)
  | .tableLoad .. => execTableLoad_next (touchExecTableLoad_all h)
  | .epochChange .. => execEpochChange_next (touchExecEpochChange_all h)
  | .epochDrain => execEpochDrain_next (touchExecEpochDrain_all h)
  | .epochSwap => execEpochSwap_next (touchExecEpochSwap_all h)
  | .delayExchange _ t1 t2 t3 t4 => execDelayExchange_next (t1 := t1) (t2 := t2) (t3 := t3) (t4 := t4) (touchExecDelayExchange_all h)
  | .timeFrameSend .. => execTimeFrameSend_next (touchExecTimeFrameSend_all h)
  | .timeFrameReceive .. => execTimeFrameReceive_next (touchExecTimeFrameReceive_all h)
  | .launchedActionArrival .. => execLaunchedActionArrival_next (touchExecLaunchedActionArrival_all h)
  | .setGroupOffset => execSetGroupOffset_next (touchExecSetGroupOffset_all h)
  | .setPhaseOffsets => execSetPhaseOffsets_next (touchExecSetPhaseOffsets_all h)
  | .fabricResetCommand .. => execFabricResetCommand_next (touchExecFabricResetCommand_all h)
  | .ledgerReport .. => execLedgerReport_next (touchExecLedgerReport_all h)
  | .ledgerReportReceive .. => execLedgerReportReceive_next (touchExecLedgerReportReceive_all h)
  | .grantAccept .. => execGrantAccept_next (touchExecGrantAccept_all h)
  | .allocationRound .. => execAllocationRound_next (touchExecAllocationRound_all h)
  | .recordReclaim .. => execRecordReclaim_next (touchExecRecordReclaim_all h)
  | .recordAckDrop .. => execRecordAckDrop_next (touchExecRecordAckDrop_all h)
  | .quorumLost .. => execQuorumLost_next (touchExecQuorumLost_all h)
  | .quorumGained .. => execQuorumGained_next (touchExecQuorumGained_all h)
  | .tGenExpiry .. => execTGenExpiry_next (touchExecTGenExpiry_all h)
  | .pledgeExpiry => execPledgeExpiry_next (touchExecPledgeExpiry_all h)
  | .pledgeNotMet .. => execPledgeNotMet_next (touchExecPledgeNotMet_all h)
  | .setLimDyn => execSetLimDyn_next (touchExecSetLimDyn_all h)
  | .cut => execCut_next (touchExecCut_all h)
  | .limDynWrite .. => execLimDynWrite_next (touchExecLimDynWrite_all h)
  | .drawOverLimit .. => execDrawOverLimit_next (touchExecDrawOverLimit_all h)
  | .beaconSend => execBeaconSend_next (touchExecBeaconSend_all h)
  | .beaconReceive .. => execBeaconReceive_next (touchExecBeaconReceive_all h)
  | .beaconMissed => execBeaconMissed_next (touchExecBeaconMissed_all h)
  | .coordinatorTakeover => execCoordinatorTakeover_next (touchExecCoordinatorTakeover_all h)
  | .successorHandover => execSuccessorHandover_next (touchExecSuccessorHandover_all h)
  | .plcFrameSend .. => execPlcFrameSend_next (touchExecPlcFrameSend_all h)
  | .plcFrameReceive .. => execPlcFrameReceive_next (touchExecPlcFrameReceive_all h)
  | .plcAcknowledgement .. => execPlcAcknowledgement_next (touchExecPlcAcknowledgement_all h)
  | .segmentDiscard .. => execSegmentDiscard_next (touchExecSegmentDiscard_all h)
  | .associationRequest .. => execAssociationRequest_next (touchExecAssociationRequest_all h)
  | .stationRemove .. => execStationRemove_next (touchExecStationRemove_all h)
  | .sounding .. => execSounding_next (touchExecSounding_all h)
  | .toneMapIssue .. => execToneMapIssue_next (touchExecToneMapIssue_all h)
  | .toneMapRefresh .. => execToneMapRefresh_next (touchExecToneMapRefresh_all h)
  | .linkDegraded .. => execLinkDegraded_next (touchExecLinkDegraded_all h)
  | .ranging .. => execRanging_next (touchExecRanging_all h)
  | .couplerAbsent .. => execCouplerAbsent_next (touchExecCouplerAbsent_all h)
  | .couplerPresent => execCouplerPresent_next (touchExecCouplerPresent_all h)
  | .metrologySample .. => execMetrologySample_next (touchExecMetrologySample_all h)
  | .channelStuck .. => execChannelStuck_next (touchExecChannelStuck_all h)
  | .channelOverRange .. => execChannelOverRange_next (touchExecChannelOverRange_all h)
  | .channelFaultClear .. => execChannelFaultClear_next (touchExecChannelFaultClear_all h)
  | .pointBlockPublish .. => execPointBlockPublish_next (touchExecPointBlockPublish_all h)
  | .packCurrentRequest .. => execPackCurrentRequest_next (touchExecPackCurrentRequest_all h)
  | .cableTemperatureUpdate .. => execCableTemperatureUpdate_next (touchExecCableTemperatureUpdate_all h)
  | .cableTFallback .. => execCableTFallback_next (touchExecCableTFallback_all h)
  | .cableTReturn .. => execCableTReturn_next (touchExecCableTReturn_all h)
  | .pointEnable .. => execPointEnable_next (touchExecPointEnable_all h)
  | .snapshotTake .. => execSnapshotTake_next (touchExecSnapshotTake_all h)
  | .snapshotRelease .. => execSnapshotRelease_next (touchExecSnapshotRelease_all h)
  | .snapshotAction => execSnapshotAction_next (touchExecSnapshotAction_all h)
  | .snapshotReleaseAction => execSnapshotReleaseAction_next (touchExecSnapshotReleaseAction_all h)
  | .peakClear .. => execPeakClear_next (touchExecPeakClear_all h)
  | .overCurrent .. => execOverCurrent_next (touchExecOverCurrent_all h)
  | .overCurrentClear .. => execOverCurrentClear_next (touchExecOverCurrentClear_all h)
  | .pulseEmit .. => execPulseEmit_next (touchExecPulseEmit_all h)
  | .pulseEnd _ t => execPulseEnd_next (t0 := t) (touchExecPulseEnd_all h)
  | .metrologyCommit .. => execMetrologyCommit_next (touchExecMetrologyCommit_all h)
  | .accumulationStart .. => execAccumulationStart_next (touchExecAccumulationStart_all h)
  | .sealSet .. => execSealSet_next (touchExecSealSet_all h)
  | .billingTick => execBillingTick_next (touchExecBillingTick_all h)
  | .rebase .. => execRebase_next (touchExecRebase_all h)
  | .calendarActivate .. => execCalendarActivate_next (touchExecCalendarActivate_all h)
  | .periodCloseCommand .. => execPeriodCloseCommand_next (touchExecPeriodCloseCommand_all h)
  | .periodCloseAction => execPeriodCloseAction_next (touchExecPeriodCloseAction_all h)
  | .sessionOpen .. => execSessionOpen_next (touchExecSessionOpen_all h)
  | .sessionClose .. => execSessionClose_next (touchExecSessionClose_all h)
  | .sessionAck .. => execSessionAck_next (touchExecSessionAck_all h)
  | .recordSign .. => execRecordSign_next (touchExecRecordSign_all h)
  | .tamperLoopSample .. => execTamperLoopSample_next (touchExecTamperLoopSample_all h)
  | .tamperQueueMove => execTamperQueueMove_next (touchExecTamperQueueMove_all h)
  | .tamperAck .. => execTamperAck_next (touchExecTamperAck_all h)
  | .displayFrame => execDisplayFrame_next (touchExecDisplayFrame_all h)
  | .displayAnswer .. => execDisplayAnswer_next (touchExecDisplayAnswer_all h)
  | .pageAdvance .. => execPageAdvance_next (touchExecPageAdvance_all h)
  | .displayButtonShort => execDisplayButtonShort_next (touchExecDisplayButtonShort_all h)
  | .displayButtonLong => execDisplayButtonLong_next (touchExecDisplayButtonLong_all h)
  | .manualAdvanceResume .. => execManualAdvanceResume_next (touchExecManualAdvanceResume_all h)
  | .interlockOpen .. => execInterlockOpen_next (touchExecInterlockOpen_all h)
  | .proximityChange .. => execProximityChange_next (touchExecProximityChange_all h)
  | .plugIn .. => execPlugIn_next (touchExecPlugIn_all h)
  | .sdpRequest .. => execSdpRequest_next (touchExecSdpRequest_all h)
  | .tlsSessionEstablished .. => execTlsSessionEstablished_next (touchExecTlsSessionEstablished_all h)
  | .plugTimeout .. => execPlugTimeout_next (touchExecPlugTimeout_all h)
  | .supportedAppProtocol .. => execSupportedAppProtocol_next (touchExecSupportedAppProtocol_all h)
  | .sessionSetup .. => execSessionSetup_next (touchExecSessionSetup_all h)
  | .authorizationSetup .. => execAuthorizationSetup_next (touchExecAuthorizationSetup_all h)
  | .authorization .. => execAuthorization_next (touchExecAuthorization_all h)
  | .serviceDiscovery .. => execServiceDiscovery_next (touchExecServiceDiscovery_all h)
  | .serviceDetail .. => execServiceDetail_next (touchExecServiceDetail_all h)
  | .serviceSelection .. => execServiceSelection_next (touchExecServiceSelection_all h)
  | .dcChargeParameterDiscovery .. => execDcChargeParameterDiscovery_next (touchExecDcChargeParameterDiscovery_all h)
  | .scheduleExchange .. => execScheduleExchange_next (touchExecScheduleExchange_all h)
  | .dcCableCheck .. => execDcCableCheck_next (touchExecDcCableCheck_all h)
  | .dcPlusClose .. => execDcPlusClose_next (touchExecDcPlusClose_all h)
  | .cableCheckStart .. => execCableCheckStart_next (touchExecCableCheckStart_all h)
  | .cableCheckFinish .. => execCableCheckFinish_next (touchExecCableCheckFinish_all h)
  | .dcPreCharge .. => execDcPreCharge_next (touchExecDcPreCharge_all h)
  | .powerDeliveryStart .. => execPowerDeliveryStart_next (touchExecPowerDeliveryStart_all h)
  | .powerDeliveryStop .. => execPowerDeliveryStop_next (touchExecPowerDeliveryStop_all h)
  | .standby .. => execStandby_next (touchExecStandby_all h)
  | .dcChargeLoop .. => execDcChargeLoop_next (touchExecDcChargeLoop_all h)
  | .dcWeldingDetection .. => execDcWeldingDetection_next (touchExecDcWeldingDetection_all h)
  | .sessionStop .. => execSessionStop_next (touchExecSessionStop_all h)
  | .fastStop .. => execFastStop_next (touchExecFastStop_all h)
  | .authWrite .. => execAuthWrite_next (touchExecAuthWrite_all h)
  | .authTimeout .. => execAuthTimeout_next (touchExecAuthTimeout_all h)
  | .preTimeout .. => execPreTimeout_next (touchExecPreTimeout_all h)
  | .currentDecayed .. => execCurrentDecayed_next (touchExecCurrentDecayed_all h)
  | .decayTimeout .. => execDecayTimeout_next (touchExecDecayTimeout_all h)
  | .dcMinusOpen .. => execDcMinusOpen_next (touchExecDcMinusOpen_all h)
  | .weldCheck .. => execWeldCheck_next (touchExecWeldCheck_all h)
  | .weldCheckComplete .. => execWeldCheckComplete_next (touchExecWeldCheckComplete_all h)
  | .unplug .. => execUnplug_next (touchExecUnplug_all h)
  | .stopCommand .. => execStopCommand_next (touchExecStopCommand_all h)
  | .faultClear .. => execFaultClear_next (touchExecFaultClear_all h)
  | .launchedStop => execLaunchedStop_next (touchExecLaunchedStop_all h)
  | .offerUpdate .. => execOfferUpdate_next (touchExecOfferUpdate_all h)
  | .limitRampStep .. => execLimitRampStep_next (touchExecLimitRampStep_all h)
  | .needFrame .. => execNeedFrame_next (touchExecNeedFrame_all h)
  | .needFrameReceive .. => execNeedFrameReceive_next (touchExecNeedFrameReceive_all h)
  | .allowanceFrame .. => execAllowanceFrame_next (touchExecAllowanceFrame_all h)
  | .allowanceFrameReceive .. => execAllowanceFrameReceive_next (touchExecAllowanceFrameReceive_all h)
  | .needFrameLoss .. => execNeedFrameLoss_next (touchExecNeedFrameLoss_all h)
  | .feedLost .. => execFeedLost_next (touchExecFeedLost_all h)
  | .imdUpdate .. => execImdUpdate_next (touchExecImdUpdate_all h)
  | .imdTimeout .. => execImdTimeout_next (touchExecImdTimeout_all h)
  | .contactorFault .. => execContactorFault_next (touchExecContactorFault_all h)
  | .linkLost .. => execLinkLost_next (touchExecLinkLost_all h)
  | .sensorSample .. => execSensorSample_next (touchExecSensorSample_all h)
  | .sensorFailed .. => execSensorFailed_next (touchExecSensorFailed_all h)
  | .sensorRecover .. => execSensorRecover_next (touchExecSensorRecover_all h)
  | .sensorSuspect .. => execSensorSuspect_next (touchExecSensorSuspect_all h)
  | .suspectRecover .. => execSuspectRecover_next (touchExecSuspectRecover_all h)
  | .snowlineExit .. => execSnowlineExit_next (touchExecSnowlineExit_all h)
  | .warnLimit .. => execWarnLimit_next (touchExecWarnLimit_all h)
  | .zoneAsk .. => execZoneAsk_next (touchExecZoneAsk_all h)
  | .zoneEnforce .. => execZoneEnforce_next (touchExecZoneEnforce_all h)
  | .zoneShutdown .. => execZoneShutdown_next (touchExecZoneShutdown_all h)
  | .zoneRelease .. => execZoneRelease_next (touchExecZoneRelease_all h)
  | .shutdownRelease .. => execShutdownRelease_next (touchExecShutdownRelease_all h)
  | .zoneClr .. => execZoneClr_next (touchExecZoneClr_all h)
  | .zoneEnable .. => execZoneEnable_next (touchExecZoneEnable_all h)
  | .cableModelUpdate .. => execCableModelUpdate_next (touchExecCableModelUpdate_all h)
  | .modelSuspect .. => execModelSuspect_next (touchExecModelSuspect_all h)
  | .internalSensorSample .. => execInternalSensorSample_next (touchExecInternalSensorSample_all h)
  | .internalOverTemperature .. => execInternalOverTemperature_next (touchExecInternalOverTemperature_all h)
  | .thermalRestart .. => execThermalRestart_next (touchExecThermalRestart_all h)
  | .circuitRun .. => execCircuitRun_next (touchExecCircuitRun_all h)
  | .circuitStop .. => execCircuitStop_next (touchExecCircuitStop_all h)
  | .flowTimeout .. => execFlowTimeout_next (touchExecFlowTimeout_all h)
  | .flowFault .. => execFlowFault_next (touchExecFlowFault_all h)
  | .flowRecovered .. => execFlowRecovered_next (touchExecFlowRecovered_all h)
  | .heaterOn .. => execHeaterOn_next (touchExecHeaterOn_all h)
  | .heaterOff .. => execHeaterOff_next (touchExecHeaterOff_all h)
  | .csWake => execCsWake_next (touchExecCsWake_all h)
  | .discovery .. => execDiscovery_next (touchExecDiscovery_all h)
  | .discoveryAttemptEnd .. => execDiscoveryAttemptEnd_next (touchExecDiscoveryAttemptEnd_all h)
  | .sweepSync => execSweepSync_next (touchExecSweepSync_all h)
  | .keepaliveSync .. => execKeepaliveSync_next (touchExecKeepaliveSync_all h)
  | .recordReceive .. => execRecordReceive_next (touchExecRecordReceive_all h)
  | .collectionEnd => execCollectionEnd_next (touchExecCollectionEnd_all h)
  | .recollect => execRecollect_next (touchExecRecollect_all h)
  | .recollectEnd => execRecollectEnd_next (touchExecRecollectEnd_all h)
  | .healProbe .. => execHealProbe_next (touchExecHealProbe_all h)
  | .orderSend .. => execOrderSend_next (touchExecOrderSend_all h)
  | .sweepStart => execSweepStart_next (touchExecSweepStart_all h)
  | .sweepStop => execSweepStop_next (touchExecSweepStop_all h)
  | .cellQuery .. => execCellQuery_next (touchExecCellQuery_all h)
  | .ringLost => execRingLost_next (touchExecRingLost_all h)
  | .csDisable => execCsDisable_next (touchExecCsDisable_all h)
  | .channelOn .. => execChannelOn_next (touchExecChannelOn_all h)
  | .channelOff .. => execChannelOff_next (touchExecChannelOff_all h)
  | .overCurrentTrip .. => execOverCurrentTrip_next (touchExecOverCurrentTrip_all h)
  | .thermalShutdown .. => execThermalShutdown_next (touchExecThermalShutdown_all h)
  | .automaticRestart .. => execAutomaticRestart_next (touchExecAutomaticRestart_all h)
  | .restartWindow .. => execRestartWindow_next (touchExecRestartWindow_all h)
  | .bankUndervoltage .. => execBankUndervoltage_next (touchExecBankUndervoltage_all h)
  | .bankUndervoltageExit .. => execBankUndervoltageExit_next (touchExecBankUndervoltageExit_all h)
  | .latchClear .. => execLatchClear_next (touchExecLatchClear_all h)
  | .switchChannels => execSwitchChannels_next (touchExecSwitchChannels_all h)
  | .openLoad .. => execOpenLoad_next (touchExecOpenLoad_all h)
  | .canPortEnable .. => execCanPortEnable_next (touchExecCanPortEnable_all h)
  | .canStart .. => execCanStart_next (touchExecCanStart_all h)
  | .canInit .. => execCanInit_next (touchExecCanInit_all h)
  | .canSync .. => execCanSync_next (touchExecCanSync_all h)
  | .canFrameReceive .. => execCanFrameReceive_next (touchExecCanFrameReceive_all h)
  | .bufferLock .. => execBufferLock_next (touchExecBufferLock_all h)
  | .bufferReadComplete .. => execBufferReadComplete_next (touchExecBufferReadComplete_all h)
  | .lockTimeout .. => execLockTimeout_next (touchExecLockTimeout_all h)
  | .unlock .. => execUnlock_next (touchExecUnlock_all h)
  | .transmitRequest .. => execTransmitRequest_next (touchExecTransmitRequest_all h)
  | .transmitComplete .. => execTransmitComplete_next (touchExecTransmitComplete_all h)
  | .transmitFail .. => execTransmitFail_next (touchExecTransmitFail_all h)
  | .abort .. => execAbort_next (touchExecAbort_all h)
  | .busOff .. => execBusOff_next (touchExecBusOff_all h)
  | .busOffWait .. => execBusOffWait_next (touchExecBusOffWait_all h)
  | .recover .. => execRecover_next (touchExecRecover_all h)
  | .busOffRecovered .. => execBusOffRecovered_next (touchExecBusOffRecovered_all h)
  | .errorPassive _ tec _ => execErrorPassive_next (tec := tec) (touchExecErrorPassive_all h)
  | .errorActive _ tec _ => execErrorActive_next (tec := tec) (touchExecErrorActive_all h)
  | .boRunClear .. => execBoRunClear_next (touchExecBoRunClear_all h)
  | .stageWrite .. => execStageWrite_next (touchExecStageWrite_all h)
  | .stageTimeout .. => execStageTimeout_next (touchExecStageTimeout_all h)
  | .loadKey _ _ _ _ _ _ _ _ plain => execLoadKey_next (_plain := plain) (touchExecLoadKey_all h)
  | .loadCertificate .. => execLoadCertificate_next (touchExecLoadCertificate_all h)
  | .generate _ _ type _ _ _ => execGenerate_next (type := type) (touchExecGenerate_all h)
  | .erase .. => execErase_next (touchExecErase_all h)
  | .derive .. => execDerive_next (touchExecDerive_all h)
  | .reservoirLow .. => execReservoirLow_next (touchExecReservoirLow_all h)
  | .eventRecord => execEventRecord_next (touchExecEventRecord_all h)
  | .logClear .. => execLogClear_next (touchExecLogClear_all h)
  | .logReadLoad .. => execLogReadLoad_next (touchExecLogReadLoad_all h)
  | .logReadNext .. => execLogReadNext_next (touchExecLogReadNext_all h)
  | .logSearch .. => execLogSearch_next (touchExecLogSearch_all h)
  | .logCrcCheck .. => execLogCrcCheck_next (touchExecLogCrcCheck_all h)
  | .siteMark => execSiteMark_next (touchExecSiteMark_all h)
  | .eStop .. => execEStop_next (touchExecEStop_all h)
  | .soReq .. => execSoReq_next (touchExecSoReq_all h)
  | .contactorOpen .. => execContactorOpen_next (touchExecContactorOpen_all h)
  | .safeOffDcMinusOpen _ _ t => execSafeOffDcMinusOpen_next (t0 := t) (touchExecSafeOffDcMinusOpen_all h)
  | .connectorHeld .. => execConnectorHeld_next (touchExecConnectorHeld_all h)
  | .safeOffClear .. => execSafeOffClear_next (touchExecSafeOffClear_all h)
  | .estopDiscrepancy .. => execEstopDiscrepancy_next (touchExecEstopDiscrepancy_all h)
  | .watchdogKick .. => execWatchdogKick_next (touchExecWatchdogKick_all h)
  | .watchdogExpiry .. => execWatchdogExpiry_next (touchExecWatchdogExpiry_all h)
  | .lockstepError .. => execLockstepError_next (touchExecLockstepError_all h)
  | .supplyFailContactorOpen .. => execSupplyFailContactorOpen_next (touchExecSupplyFailContactorOpen_all h)
  | .supplyFailDcMinusOpen .. => execSupplyFailDcMinusOpen_next (touchExecSupplyFailDcMinusOpen_all h)
  | .contactorNotOpened .. => execContactorNotOpened_next (touchExecContactorNotOpened_all h)
  | .flashProgram .. => execFlashProgram_next (touchExecFlashProgram_all h)
  | .flashErase .. => execFlashErase_next (touchExecFlashErase_all h)
  | .flashDone .. => execFlashDone_next (touchExecFlashDone_all h)
  | .firmwareSwitch .. => execFirmwareSwitch_next (touchExecFirmwareSwitch_all h)
  | .metrologyFirmwareSwitch .. => execMetrologyFirmwareSwitch_next (touchExecMetrologyFirmwareSwitch_all h)
  | .firmwareRevert .. => execFirmwareRevert_next (touchExecFirmwareRevert_all h)
  | .sectionReload .. => execSectionReload_next (touchExecSectionReload_all h)
  | .sectionApply => execSectionApply_next (touchExecSectionApply_all h)
  | .packageSubmit .. => execPackageSubmit_next (touchExecPackageSubmit_all h)
  | .packageApply => execPackageApply_next (touchExecPackageApply_all h)
  | .recalibration .. => execRecalibration_next (touchExecRecalibration_all h)
  | .recalibrationDone .. => execRecalibrationDone_next (touchExecRecalibrationDone_all h)
  | .gatewayRelay .. => execGatewayRelay_next (touchExecGatewayRelay_all h)
  | .relayEntryExpiry .. => execRelayEntryExpiry_next (touchExecRelayEntryExpiry_all h)
  | .handshake .. => execHandshake_next (touchExecHandshake_all h)
  | .handshakeTimeout .. => execHandshakeTimeout_next (touchExecHandshakeTimeout_all h)
  | .sessionIdleClose .. => execSessionIdleClose_next (touchExecSessionIdleClose_all h)
  | .read .. => execRead_next (touchExecRead_all h)
  | .write .. => execWrite_next (touchExecWrite_all h)
  | .blockRead .. => execBlockRead_next (touchExecBlockRead_all h)
  | .blockWrite .. => execBlockWrite_next (touchExecBlockWrite_all h)
  | .subscribe .. => execSubscribe_next (touchExecSubscribe_all h)
  | .unsubscribe .. => execUnsubscribe_next (touchExecUnsubscribe_all h)
  | .notify .. => execNotify_next (touchExecNotify_all h)
  | .events .. => execEvents_next (touchExecEvents_all h)
  | .records .. => execRecords_next (touchExecRecords_all h)
  | .locate .. => execLocate_next (touchExecLocate_all h)
  | .launch .. => execLaunch_next (touchExecLaunch_all h)
  | .lresult .. => execLresult_next (touchExecLresult_all h)
  | .reset .. => execReset_next (touchExecReset_all h)
  | .time .. => execTime_next (touchExecTime_all h)
  | .ping .. => execPing_next (touchExecPing_all h)
  | .close .. => execClose_next (touchExecClose_all h)
  | .ptpSync .. => execPtpSync_next (touchExecPtpSync_all h)
  | .ptpLost .. => execPtpLost_next (touchExecPtpLost_all h)
  | .ntpPoll .. => execNtpPoll_next (touchExecNtpPoll_all h)
  | .ntpResponse .. => execNtpResponse_next (touchExecNtpResponse_all h)
  | .ntpLost => execNtpLost_next (touchExecNtpLost_all h)
  | .tmxSelect .. => execTmxSelect_next (touchExecTmxSelect_all h)
  | .rstNRelease .. => execRstNRelease_next (touchExecRstNRelease_all h)
  | .estopRelease .. => execEstopRelease_next (touchExecEstopRelease_all h)
  | .epochInstall .. => execEpochInstall_next (touchExecEpochInstall_all h)
  | .scheduleRenegotiation .. => execScheduleRenegotiation_next (touchExecScheduleRenegotiation_all h)
  | .vbatRestored .. => execVbatRestored_next (touchExecVbatRestored_all h)
  | .reservoirRecharged .. => execReservoirRecharged_next (touchExecReservoirRecharged_all h)

/-- So does every step, from the state with the front of the queue taken off. -/
theorem step_next {A : Part → Prop} (h : ∀ p, A p) (s : State) : ∃ t, step s = .next t ∧ Keeps A { s with pending := s.pending.tail } t := by
  unfold step
  cases hqueue : s.pending with
  | nil =>
    have hsame : { s with pending := [].tail } = s := by rw [List.tail_nil, ← hqueue]
    rw [hsame]
    exact ⟨_, rfl, tick_keeps (touchTick_all h) (Keeps.refl _ s)⟩
  | cons c rest => exact exec_next h c

/-- Settles O6: a step is a command or a tick, each of which leaves a Moraine log that begins with the old one. -/
theorem moraineKept : Obligations.MoraineKept := by
  unfold Obligations.MoraineKept
  intro s
  obtain ⟨t, hstep, hkeeps⟩ := step_next (A := fun _ => True) (fun _ => trivial) s
  exact ⟨t, hstep, hkeeps.moraine⟩

end Sys2Proof.Proofs
end

section
/-! PROOFS. The clear of the operational log (R445). LOG_CLEAR keeps the records above its value, shows the fill, and logs event 0x1002; the
record of an event goes to the intake queue, and leaves both logs and the sequence number of the operational one as they are. -/

namespace Sys2Proof.Proofs

open Sys2Proof.Machine Sys2Proof.Laws R

/-! ### What a record leaves of the logs (R439, R441) -/

/-- An operational record that arrives goes to the intake queue or to the hold: both logs stay. -/
theorem arrive_logs (s : State) (r : Rec) : (s.arrive r).evr.op = s.evr.op ∧ (s.arrive r).evr.mor = s.evr.mor := by
  unfold State.arrive Evr.intake Evr.hold78 State.inc
  split_ifs <;> simp

/-- An event below LEGAL enters neither log before the store manager writes it. -/
theorem log_logs {s : State} {code sev : Nat} {pay : List Nat} (hsev : sev ≠ 7) :
    (s.log code sev pay).evr.op = s.evr.op ∧ (s.log code sev pay).evr.mor = s.evr.mor := by
  have hlog : s.log code sev pay = s.arrive (s.mkRec code sev pay s.keeper s.rtc) := if_neg hsev
  rw [hlog]
  exact arrive_logs ..

theorem apart_opSeq_of_logParts {f : Field} (h : Part.reg f ∈ logParts) : apart f EVR_OP_SEQ.SEQ = true := by
  simp only [logParts, List.mem_cons, Part.reg.injEq, reduceCtorEq, List.not_mem_nil, or_false, false_or] at h
  rcases h with rfl | rfl | rfl | rfl | rfl | rfl | rfl <;> decide

/-- The record of an event takes no operational sequence number before the store manager writes it (R439). -/
theorem log_opSeq (s : State) (code sev : Nat) (pay : List Nat) : (s.log code sev pay).get EVR_OP_SEQ.SEQ = s.get EVR_OP_SEQ.SEQ := by
  have hkeeps : Keeps (· ∈ logParts) s (s.log code sev pay) := log_keeps (touchLog_of_logParts fun _ => id) (Keeps.refl _ s)
  refine hkeeps.get (by simp [logParts]) (by decide) (by decide) (fun _ => apart_opSeq_of_logParts) ?_
  simp [logParts]

/-! ### The fill shown -/

section Fill

variable (s : State)

theorem opFill_evr : s.opFill.evr = s.evr := by
  unfold State.opFill
  rw [put_evr, put_evr]

theorem opFill_opSeq : s.opFill.get EVR_OP_SEQ.SEQ = s.get EVR_OP_SEQ.SEQ := by
  unfold State.opFill
  rw [get_put_apart (by decide) (by decide) (by decide), get_put_apart (by decide) (by decide) (by decide)]

end Fill

/-! ### LOG_CLEAR -/

/-- The records of the operational log that a write of `v` to `CLR_TO` leaves. -/
def recordsAbove (s : State) (v : Nat) : List Held := s.evr.op.filter fun h => decide (v < h.seq) && decide (v ≠ 0xFFFFFFFF)

/-- The state in which event 0x1002 is logged. -/
def cleared (s : State) (v : Nat) : State := State.opFill { s with evr := { s.evr with op := recordsAbove s v } }

/-- What is cleared is nothing that the record of an event reads. -/
theorem logged_of_cleared {s t : State} {v : Nat} {l : List (Nat × Nat × List Nat)} (h : Logged (cleared s v) t l) : Logged s t l := by
  have hfilter : Logged { s with evr := { s.evr with op := recordsAbove s v } } t l := logged_of_put (by decide) (logged_of_put (by decide) h)
  exact hfilter

/-- A session of any level clears the log while D3 runs. -/
theorem exec_logClear {s : State} {sess v : Nat} (hlevel : s.level sess ≠ 0) (hruns : s.runs 3 = true) (hv : v < 2 ^ 32) :
    exec (.logClear sess v) s =
      .next ((cleared s v).log 0x1002 NOTICE (leBytes 4 (s.evr.op.length - (recordsAbove s v).length) ++ [s.level sess])) := by
  have harm : exec (.logClear sess v) s = execLogClear sess v s := rfl
  rw [harm, execLogClear, if_neg hlevel, hruns, Nat.mod_eq_of_lt hv]
  rfl

/-- Settles O45: the clear filters the log, shows its fill and logs event 0x1002, and neither of the last two changes a log. -/
theorem operationalLogClear : Obligations.OperationalLogClear := by
  unfold Obligations.OperationalLogClear
  intro s sess v hlevel hruns hv
  have hop (pay) : ((cleared s v).log 0x1002 NOTICE pay).evr.op = recordsAbove s v := by
    rw [(log_logs (by decide)).1, cleared, opFill_evr]
  refine ⟨_, exec_logClear hlevel hruns hv, hop _, ?seq, ?moraine, ?event⟩
  case seq => rw [log_opSeq, cleared, opFill_opSeq]; rfl
  case moraine => rw [(log_logs (by decide)).2, cleared, opFill_evr]
  case event =>
    rw [hop]
    exact logged_of_cleared (logged_log (by decide))

end Sys2Proof.Proofs
end

section
/-! PROOFS. The site mark (R451). Endpoint 0x01D takes operation 1 with an empty BODY only; any other body is outside the operation's range
(R195, result 8). -/

namespace Sys2Proof.Proofs

open Sys2Proof.Machine R

/-- Operation 1 with a body is outside the range of the Event Recorder's endpoint. -/
theorem laAccepts_siteMark_with_body (s : State) (target b : Nat) (body : List Nat) : s.laAccepts target 0x01D 1 (b :: body) = false := rfl

/-- It is refused with result 8 wherever it passes the earlier checks of R195. -/
theorem laCheck_siteMark_with_body {s : State} {target b : Nat} {body : List Nat} (hendpoint : s.hasEndpoint 0x01D = true)
    (happly : s.get SYS_ROLE_CMD.STATUS ≠ 1) (hlate : s.stamp < target)
    (hahead : target - s.stamp ≤ s.get FAB_LA_CFG.LA_AHEAD * 2 ^ 24) (hroom : s.fab.la.length < 64) :
    s.laCheck target 0x01D 1 none (b :: body) = 8 := by
  rw [State.laCheck, if_neg (by simp [hendpoint]), if_neg happly, if_neg hlate.not_ge, if_neg hahead.not_gt, if_neg hroom.not_ge,
    laAccepts_siteMark_with_body]
  rfl

/-- The module after reset, with every domain running and no action waiting. -/
def allRunning : State := State.reset.put PWR_DOM_STAT.ON 0xFFF

theorem allRunning_laCheck_siteMark_with_body : allRunning.laCheck 1 0x01D 1 none [0] = 8 :=
  laCheck_siteMark_with_body (by decide) (by decide) (by decide) (by decide) (by decide)

/-- Refutes O52: its first clause has operation 1 accepted whatever its BODY. An action of operation 1 with one byte in its BODY passes the
earlier checks of R195 and is refused with result 8, as R451 says of all but an empty BODY. -/
theorem not_eventMark : ¬ Obligations.EventMark := by
  unfold Obligations.EventMark
  rintro ⟨harrival, -⟩
  obtain ⟨t, -, haccepted, -⟩ := harrival allRunning 0 0 0 1 1 none [0] (by decide) (.inr allRunning_laCheck_siteMark_with_body) (by decide)
    (by decide)
  have hzero : allRunning.laCheck 1 0x01D 1 none [0] = 0 := haccepted.mpr rfl
  rw [allRunning_laCheck_siteMark_with_body] at hzero
  exact absurd hzero (by decide)

end Sys2Proof.Proofs
end

section
/-! PROOFS. The flash (R472). Only FLASH_DONE changes a byte of it: the law of no other command names it. What begins an operation is a write of
an ADMIN session to an address outside what is in use and what is reserved; what ends one stays within its word or its sector. -/

namespace Sys2Proof.Proofs

open Sys2Proof.Machine Sys2Proof.Laws R

/-! ### What changes the flash -/

/-- Every part of the state. -/
def anyPart (_ : Part) : Prop := True

theorem anyPart_all (p : Part) : anyPart p := trivial

/-- Every part of the state, but the flash only where the command is FLASH_DONE. -/
def mayChange (c : Instr) : Part → Prop
  | .flash => ∃ ok, c = .flashDone ok
  | _ => True

theorem mayChange_flashDone (ok : Bool) (p : Part) : mayChange (.flashDone ok) p := by
  cases p with
  | flash => exact ⟨ok, rfl⟩
  | _ => trivial

/-- A command's law that does not name the flash says the same of every part as of every part but the flash: `hflash` holds by unfolding the
parts that the law names. -/
theorem keeps_of_law {c : Instr} {s : State} {names : (Part → Prop) → Prop}
    (law : ∀ {A}, names A → ∃ t, exec c s = .next t ∧ Keeps A s t) (all : names anyPart)
    (hflash : names anyPart = names (mayChange c) := by rfl) : ∃ t, exec c s = .next t ∧ Keeps (mayChange c) s t :=
  law (hflash ▸ all)

/-- Every command completes by its law. That of FLASH_DONE alone names the flash. An operand is named where the law does not fix it. -/
theorem exec_keeps_mayChange {s : State} : (c : Instr) → ∃ t, exec c s = .next t ∧ Keeps (mayChange c) s t
  | .registerWrite .. => keeps_of_law execRegisterWrite_next (touchExecRegisterWrite_all anyPart_all)
  | .apply .. => keeps_of_law execApply_next (touchExecApply_all anyPart_all)
  | .applyComplete .. => keeps_of_law execApplyComplete_next (touchExecApplyComplete_all anyPart_all)
  | .porReset .. => keeps_of_law execPorReset_next (touchExecPorReset_all anyPart_all)
  | .pinReset .. => keeps_of_law execPinReset_next (touchExecPinReset_all anyPart_all)
  | .softReset .. => keeps_of_law execSoftReset_next (touchExecSoftReset_all anyPart_all)
  | .domainReset .. => keeps_of_law execDomainReset_next (touchExecDomainReset_all anyPart_all)
  | .domainResetComplete .. => keeps_of_law execDomainResetComplete_next (touchExecDomainResetComplete_all anyPart_all)
  | .readyRelease .. => keeps_of_law execReadyRelease_next (touchExecReadyRelease_all anyPart_all)
  | .readyDeadline .. => keeps_of_law execReadyDeadline_next (touchExecReadyDeadline_all anyPart_all)
  | .vsupLowBandEntry .. => keeps_of_law execVsupLowBandEntry_next (touchExecVsupLowBandEntry_all anyPart_all)
  | .vsupLowBandExit .. => keeps_of_law execVsupLowBandExit_next (touchExecVsupLowBandExit_all anyPart_all)
  | .vsupHighBandEntry .. => keeps_of_law execVsupHighBandEntry_next (touchExecVsupHighBandEntry_all anyPart_all)
  | .vsupHighBandExit .. => keeps_of_law execVsupHighBandExit_next (touchExecVsupHighBandExit_all anyPart_all)
  | .vsupOverVoltage .. => keeps_of_law execVsupOverVoltage_next (touchExecVsupOverVoltage_all anyPart_all)
  | .vsupOverVoltageExit .. => keeps_of_law execVsupOverVoltageExit_next (touchExecVsupOverVoltageExit_all anyPart_all)
  | .supplyFail .. => keeps_of_law execSupplyFail_next (touchExecSupplyFail_all anyPart_all)
  | .railOutOfLimits .. => keeps_of_law execRailOutOfLimits_next (touchExecRailOutOfLimits_all anyPart_all)
  | .holdupStoreTest .. => keeps_of_law execHoldupStoreTest_next (touchExecHoldupStoreTest_all anyPart_all)
  | .holdupTestRequest .. => keeps_of_law execHoldupTestRequest_next (touchExecHoldupTestRequest_all anyPart_all)
  | .holdupTestDone .. => keeps_of_law execHoldupTestDone_next (touchExecHoldupTestDone_all anyPart_all)
  | .vbatLow .. => keeps_of_law execVbatLow_next (touchExecVbatLow_all anyPart_all)
  | .quietRequest .. => keeps_of_law execQuietRequest_next (touchExecQuietRequest_all anyPart_all)
  | .runRequest .. => keeps_of_law execRunRequest_next (touchExecRunRequest_all anyPart_all)
  | .dormantRequest .. => keeps_of_law execDormantRequest_next (touchExecDormantRequest_all anyPart_all)
  | .wake .. => keeps_of_law execWake_next (touchExecWake_all anyPart_all)
  | .auxEnable .. => keeps_of_law execAuxEnable_next (touchExecAuxEnable_all anyPart_all)
  | .auxStop .. => keeps_of_law execAuxStop_next (touchExecAuxStop_all anyPart_all)
  | .auxSetpointChange .. => keeps_of_law execAuxSetpointChange_next (touchExecAuxSetpointChange_all anyPart_all)
  | .auxPgood .. => keeps_of_law execAuxPgood_next (touchExecAuxPgood_all anyPart_all)
  | .auxPgoodLoss .. => keeps_of_law execAuxPgoodLoss_next (touchExecAuxPgoodLoss_all anyPart_all)
  | .auxFeedbackFault .. => keeps_of_law execAuxFeedbackFault_next (touchExecAuxFeedbackFault_all anyPart_all)
  | .auxBurstSleep .. => keeps_of_law execAuxBurstSleep_next (touchExecAuxBurstSleep_all anyPart_all)
  | .auxBurstWake .. => keeps_of_law execAuxBurstWake_next (touchExecAuxBurstWake_all anyPart_all)
  | .auxSyncLock .. => keeps_of_law execAuxSyncLock_next (touchExecAuxSyncLock_all anyPart_all)
  | .auxSyncLost .. => keeps_of_law execAuxSyncLost_next (touchExecAuxSyncLost_all anyPart_all)
  | .auxTruncation .. => keeps_of_law execAuxTruncation_next (touchExecAuxTruncation_all anyPart_all)
  | .auxBraking .. => keeps_of_law execAuxBraking_next (touchExecAuxBraking_all anyPart_all)
  | .auxBrakeRelease .. => keeps_of_law execAuxBrakeRelease_next (touchExecAuxBrakeRelease_all anyPart_all)
  | .auxThermalWarning .. => keeps_of_law execAuxThermalWarning_next (touchExecAuxThermalWarning_all anyPart_all)
  | .auxThermalShutdown .. => keeps_of_law execAuxThermalShutdown_next (touchExecAuxThermalShutdown_all anyPart_all)
  | .auxThermalRestart .. => keeps_of_law execAuxThermalRestart_next (touchExecAuxThermalRestart_all anyPart_all)
  | .snsSelectChange .. => keeps_of_law execSnsSelectChange_next (touchExecSnsSelectChange_all anyPart_all)
  | .tbAcquireLock .. => keeps_of_law execTbAcquireLock_next (touchExecTbAcquireLock_all anyPart_all)
  | .tbAcquireTimeout .. => keeps_of_law execTbAcquireTimeout_next (touchExecTbAcquireTimeout_all anyPart_all)
  | .tbSourceLost .. => keeps_of_law execTbSourceLost_next (touchExecTbSourceLost_all anyPart_all)
  | .gridPhaseJump .. => keeps_of_law execGridPhaseJump_next (touchExecGridPhaseJump_all anyPart_all)
  | .lineFault .. => keeps_of_law execLineFault_next (touchExecLineFault_all anyPart_all)
  | .lineFaultClear .. => keeps_of_law execLineFaultClear_next (touchExecLineFaultClear_all anyPart_all)
  | .tbSlewEntry .. => keeps_of_law execTbSlewEntry_next (touchExecTbSlewEntry_all anyPart_all)
  | .tbSlewLocked .. => keeps_of_law execTbSlewLocked_next (touchExecTbSlewLocked_all anyPart_all)
  | .tbSourceTaken .. => keeps_of_law execTbSourceTaken_next (touchExecTbSourceTaken_all anyPart_all)
  | .cycleRenumber => keeps_of_law execCycleRenumber_next (touchExecCycleRenumber_all anyPart_all)
  | .refclkLost => keeps_of_law execRefclkLost_next (touchExecRefclkLost_all anyPart_all)
  | .dllUnlock .. => keeps_of_law execDllUnlock_next (touchExecDllUnlock_all anyPart_all)
  | .dllRelock .. => keeps_of_law execDllRelock_next (touchExecDllRelock_all anyPart_all)
  | .keeperCommit => keeps_of_law execKeeperCommit_next (touchExecKeeperCommit_all anyPart_all)
  | .ncarChange .. => keeps_of_law execNcarChange_next (touchExecNcarChange_all anyPart_all)
  | .offsetCommit .. => keeps_of_law execOffsetCommit_next (touchExecOffsetCommit_all anyPart_all)
  | .offsetCommitTaken .. => keeps_of_law execOffsetCommitTaken_next (touchExecOffsetCommitTaken_all anyPart_all)
  | .anglePulseOut => keeps_of_law execAnglePulseOut_next (touchExecAnglePulseOut_all anyPart_all)
  | .anglePulseCapture .. => keeps_of_law execAnglePulseCapture_next (touchExecAnglePulseCapture_all anyPart_all)
  | .groupCarrierBoundary .. => keeps_of_law execGroupCarrierBoundary_next (touchExecGroupCarrierBoundary_all anyPart_all)
  | .carrierStart .. => keeps_of_law execCarrierStart_next (touchExecCarrierStart_all anyPart_all)
  | .halfCycleBoundary => keeps_of_law execHalfCycleBoundary_next (touchExecHalfCycleBoundary_all anyPart_all)
  | .leaseLapse .. => keeps_of_law execLeaseLapse_next (touchExecLeaseLapse_all anyPart_all)
  | .overshootTruncate .. => keeps_of_law execOvershootTruncate_next (touchExecOvershootTruncate_all anyPart_all)
  | .overshootBrake .. => keeps_of_law execOvershootBrake_next (touchExecOvershootBrake_all anyPart_all)
  | .truncateTimeout .. => keeps_of_law execTruncateTimeout_next (touchExecTruncateTimeout_all anyPart_all)
  | .truncateRelease .. => keeps_of_law execTruncateRelease_next (touchExecTruncateRelease_all anyPart_all)
  | .brakeRelease .. => keeps_of_law execBrakeRelease_next (touchExecBrakeRelease_all anyPart_all)
  | .brakingTimeout .. => keeps_of_law execBrakingTimeout_next (touchExecBrakingTimeout_all anyPart_all)
  | .phaseCheckFail .. => keeps_of_law execPhaseCheckFail_next (touchExecPhaseCheckFail_all anyPart_all)
  | .driverFault .. => keeps_of_law execDriverFault_next (touchExecDriverFault_all anyPart_all)
  | .phaseImbalance .. => keeps_of_law execPhaseImbalance_next (touchExecPhaseImbalance_all anyPart_all)
  | .phaseEnable .. => keeps_of_law execPhaseEnable_next (touchExecPhaseEnable_all anyPart_all)
  | .phaseDisable .. => keeps_of_law execPhaseDisable_next (touchExecPhaseDisable_all anyPart_all)
  | .phaseJoin .. => keeps_of_law execPhaseJoin_next (touchExecPhaseJoin_all anyPart_all)
  | .groupEnable .. => keeps_of_law execGroupEnable_next (touchExecGroupEnable_all anyPart_all)
  | .groupStart .. => keeps_of_law execGroupStart_next (touchExecGroupStart_all anyPart_all)
  | .groupDisable .. => keeps_of_law execGroupDisable_next (touchExecGroupDisable_all anyPart_all)
  | .rampdownComplete .. => keeps_of_law execRampdownComplete_next (touchExecRampdownComplete_all anyPart_all)
  | .demandWatchdog .. => keeps_of_law execDemandWatchdog_next (touchExecDemandWatchdog_all anyPart_all)
  | .respaceCommit .. => keeps_of_law execRespaceCommit_next (touchExecRespaceCommit_all anyPart_all)
  | .sampleStrobe .. => keeps_of_law execSampleStrobe_next (touchExecSampleStrobe_all anyPart_all)
  | .loopHoldExit .. => keeps_of_law execLoopHoldExit_next (touchExecLoopHoldExit_all anyPart_all)
  | .srateChange .. => keeps_of_law execSrateChange_next (touchExecSrateChange_all anyPart_all)
  | .loopEnable .. => keeps_of_law execLoopEnable_next (touchExecLoopEnable_all anyPart_all)
  | .loopDisable .. => keeps_of_law execLoopDisable_next (touchExecLoopDisable_all anyPart_all)
  | .loopModeChange .. => keeps_of_law execLoopModeChange_next (touchExecLoopModeChange_all anyPart_all)
  | .gtCommit .. => keeps_of_law execGtCommit_next (touchExecGtCommit_all anyPart_all)
  | .ffSwap .. => keeps_of_law execFfSwap_next (touchExecFfSwap_all anyPart_all)
  | .setTarget => keeps_of_law execSetTarget_next (touchExecSetTarget_all anyPart_all)
  | .scaleTarget => keeps_of_law execScaleTarget_next (touchExecScaleTarget_all anyPart_all)
  | .setRate => keeps_of_law execSetRate_next (touchExecSetRate_all anyPart_all)
  | .setParameter => keeps_of_law execSetParameter_next (touchExecSetParameter_all anyPart_all)
  | .setMode => keeps_of_law execSetMode_next (touchExecSetMode_all anyPart_all)
  | .startInjector => keeps_of_law execStartInjector_next (touchExecStartInjector_all anyPart_all)
  | .injectorEnable .. => keeps_of_law execInjectorEnable_next (touchExecInjectorEnable_all anyPart_all)
  | .injectorStampStart .. => keeps_of_law execInjectorStampStart_next (touchExecInjectorStampStart_all anyPart_all)
  | .injectorEnd .. => keeps_of_law execInjectorEnd_next (touchExecInjectorEnd_all anyPart_all)
  | .injectorDisable .. => keeps_of_law execInjectorDisable_next (touchExecInjectorDisable_all anyPart_all)
  | .captureArm .. => keeps_of_law execCaptureArm_next (touchExecCaptureArm_all anyPart_all)
  | .captureTrigger => keeps_of_law execCaptureTrigger_next (touchExecCaptureTrigger_all anyPart_all)
  | .captureDone => keeps_of_law execCaptureDone_next (touchExecCaptureDone_all anyPart_all)
  | .laneTrain .. => keeps_of_law execLaneTrain_next (touchExecLaneTrain_all anyPart_all)
  | .laneTrainTimeout .. => keeps_of_law execLaneTrainTimeout_next (touchExecLaneTrainTimeout_all anyPart_all)
  | .laneRetry .. => keeps_of_law execLaneRetry_next (touchExecLaneRetry_all anyPart_all)
  | .laneHold .. => keeps_of_law execLaneHold_next (touchExecLaneHold_all anyPart_all)
  | .laneActive .. => keeps_of_law execLaneActive_next (touchExecLaneActive_all anyPart_all)
  | .laneDown .. => keeps_of_law execLaneDown_next (touchExecLaneDown_all anyPart_all)
  | .frameForward .. => keeps_of_law execFrameForward_next (touchExecFrameForward_all anyPart_all)
  | .stallDiscard .. => keeps_of_law execStallDiscard_next (touchExecStallDiscard_all anyPart_all)
  | .wakeTx .. => keeps_of_law execWakeTx_next (touchExecWakeTx_all anyPart_all)
  | .announceSend .. => keeps_of_law execAnnounceSend_next (touchExecAnnounceSend_all anyPart_all)
  | .announceReceive .. => keeps_of_law execAnnounceReceive_next (touchExecAnnounceReceive_all anyPart_all)
  | .becomeRoot .. => keeps_of_law execBecomeRoot_next (touchExecBecomeRoot_all anyPart_all)
  | .nodeIdGrant serial sticky role link hops =>
    keeps_of_law (execNodeIdGrant_next (serial := serial) (sticky := sticky) (role := role) (link := link) (hops := hops))
      (touchExecNodeIdGrant_all anyPart_all)
  | .joinRetry .. => keeps_of_law execJoinRetry_next (touchExecJoinRetry_all anyPart_all)
  | .joinGrant .. => keeps_of_law execJoinGrant_next (touchExecJoinGrant_all anyPart_all)
  | .rootLost .. => keeps_of_law execRootLost_next (touchExecRootLost_all anyPart_all)
  | .fabricAlone .. => keeps_of_law execFabricAlone_next (touchExecFabricAlone_all anyPart_all)
  | .idReservationExpiry .. => keeps_of_law execIdReservationExpiry_next (touchExecIdReservationExpiry_all anyPart_all)
  | .topologyReport .. => keeps_of_law execTopologyReport_next (touchExecTopologyReport_all anyPart_all)
  | .tableLoad .. => keeps_of_law execTableLoad_next (touchExecTableLoad_all anyPart_all)
  | .epochChange .. => keeps_of_law execEpochChange_next (touchExecEpochChange_all anyPart_all)
  | .epochDrain => keeps_of_law execEpochDrain_next (touchExecEpochDrain_all anyPart_all)
  | .epochSwap => keeps_of_law execEpochSwap_next (touchExecEpochSwap_all anyPart_all)
  | .delayExchange _ t1 t2 t3 t4 => keeps_of_law (execDelayExchange_next (t1 := t1) (t2 := t2) (t3 := t3) (t4 := t4))
      (touchExecDelayExchange_all anyPart_all)
  | .timeFrameSend .. => keeps_of_law execTimeFrameSend_next (touchExecTimeFrameSend_all anyPart_all)
  | .timeFrameReceive .. => keeps_of_law execTimeFrameReceive_next (touchExecTimeFrameReceive_all anyPart_all)
  | .launchedActionArrival .. => keeps_of_law execLaunchedActionArrival_next (touchExecLaunchedActionArrival_all anyPart_all)
  | .setGroupOffset => keeps_of_law execSetGroupOffset_next (touchExecSetGroupOffset_all anyPart_all)
  | .setPhaseOffsets => keeps_of_law execSetPhaseOffsets_next (touchExecSetPhaseOffsets_all anyPart_all)
  | .fabricResetCommand .. => keeps_of_law execFabricResetCommand_next (touchExecFabricResetCommand_all anyPart_all)
  | .ledgerReport .. => keeps_of_law execLedgerReport_next (touchExecLedgerReport_all anyPart_all)
  | .ledgerReportReceive .. => keeps_of_law execLedgerReportReceive_next (touchExecLedgerReportReceive_all anyPart_all)
  | .grantAccept .. => keeps_of_law execGrantAccept_next (touchExecGrantAccept_all anyPart_all)
  | .allocationRound .. => keeps_of_law execAllocationRound_next (touchExecAllocationRound_all anyPart_all)
  | .recordReclaim .. => keeps_of_law execRecordReclaim_next (touchExecRecordReclaim_all anyPart_all)
  | .recordAckDrop .. => keeps_of_law execRecordAckDrop_next (touchExecRecordAckDrop_all anyPart_all)
  | .quorumLost .. => keeps_of_law execQuorumLost_next (touchExecQuorumLost_all anyPart_all)
  | .quorumGained .. => keeps_of_law execQuorumGained_next (touchExecQuorumGained_all anyPart_all)
  | .tGenExpiry .. => keeps_of_law execTGenExpiry_next (touchExecTGenExpiry_all anyPart_all)
  | .pledgeExpiry => keeps_of_law execPledgeExpiry_next (touchExecPledgeExpiry_all anyPart_all)
  | .pledgeNotMet .. => keeps_of_law execPledgeNotMet_next (touchExecPledgeNotMet_all anyPart_all)
  | .setLimDyn => keeps_of_law execSetLimDyn_next (touchExecSetLimDyn_all anyPart_all)
  | .cut => keeps_of_law execCut_next (touchExecCut_all anyPart_all)
  | .limDynWrite .. => keeps_of_law execLimDynWrite_next (touchExecLimDynWrite_all anyPart_all)
  | .drawOverLimit .. => keeps_of_law execDrawOverLimit_next (touchExecDrawOverLimit_all anyPart_all)
  | .beaconSend => keeps_of_law execBeaconSend_next (touchExecBeaconSend_all anyPart_all)
  | .beaconReceive .. => keeps_of_law execBeaconReceive_next (touchExecBeaconReceive_all anyPart_all)
  | .beaconMissed => keeps_of_law execBeaconMissed_next (touchExecBeaconMissed_all anyPart_all)
  | .coordinatorTakeover => keeps_of_law execCoordinatorTakeover_next (touchExecCoordinatorTakeover_all anyPart_all)
  | .successorHandover => keeps_of_law execSuccessorHandover_next (touchExecSuccessorHandover_all anyPart_all)
  | .plcFrameSend .. => keeps_of_law execPlcFrameSend_next (touchExecPlcFrameSend_all anyPart_all)
  | .plcFrameReceive .. => keeps_of_law execPlcFrameReceive_next (touchExecPlcFrameReceive_all anyPart_all)
  | .plcAcknowledgement .. => keeps_of_law execPlcAcknowledgement_next (touchExecPlcAcknowledgement_all anyPart_all)
  | .segmentDiscard .. => keeps_of_law execSegmentDiscard_next (touchExecSegmentDiscard_all anyPart_all)
  | .associationRequest .. => keeps_of_law execAssociationRequest_next (touchExecAssociationRequest_all anyPart_all)
  | .stationRemove .. => keeps_of_law execStationRemove_next (touchExecStationRemove_all anyPart_all)
  | .sounding .. => keeps_of_law execSounding_next (touchExecSounding_all anyPart_all)
  | .toneMapIssue .. => keeps_of_law execToneMapIssue_next (touchExecToneMapIssue_all anyPart_all)
  | .toneMapRefresh .. => keeps_of_law execToneMapRefresh_next (touchExecToneMapRefresh_all anyPart_all)
  | .linkDegraded .. => keeps_of_law execLinkDegraded_next (touchExecLinkDegraded_all anyPart_all)
  | .ranging .. => keeps_of_law execRanging_next (touchExecRanging_all anyPart_all)
  | .couplerAbsent .. => keeps_of_law execCouplerAbsent_next (touchExecCouplerAbsent_all anyPart_all)
  | .couplerPresent => keeps_of_law execCouplerPresent_next (touchExecCouplerPresent_all anyPart_all)
  | .metrologySample .. => keeps_of_law execMetrologySample_next (touchExecMetrologySample_all anyPart_all)
  | .channelStuck .. => keeps_of_law execChannelStuck_next (touchExecChannelStuck_all anyPart_all)
  | .channelOverRange .. => keeps_of_law execChannelOverRange_next (touchExecChannelOverRange_all anyPart_all)
  | .channelFaultClear .. => keeps_of_law execChannelFaultClear_next (touchExecChannelFaultClear_all anyPart_all)
  | .pointBlockPublish .. => keeps_of_law execPointBlockPublish_next (touchExecPointBlockPublish_all anyPart_all)
  | .packCurrentRequest .. => keeps_of_law execPackCurrentRequest_next (touchExecPackCurrentRequest_all anyPart_all)
  | .cableTemperatureUpdate .. => keeps_of_law execCableTemperatureUpdate_next (touchExecCableTemperatureUpdate_all anyPart_all)
  | .cableTFallback .. => keeps_of_law execCableTFallback_next (touchExecCableTFallback_all anyPart_all)
  | .cableTReturn .. => keeps_of_law execCableTReturn_next (touchExecCableTReturn_all anyPart_all)
  | .pointEnable .. => keeps_of_law execPointEnable_next (touchExecPointEnable_all anyPart_all)
  | .snapshotTake .. => keeps_of_law execSnapshotTake_next (touchExecSnapshotTake_all anyPart_all)
  | .snapshotRelease .. => keeps_of_law execSnapshotRelease_next (touchExecSnapshotRelease_all anyPart_all)
  | .snapshotAction => keeps_of_law execSnapshotAction_next (touchExecSnapshotAction_all anyPart_all)
  | .snapshotReleaseAction => keeps_of_law execSnapshotReleaseAction_next (touchExecSnapshotReleaseAction_all anyPart_all)
  | .peakClear .. => keeps_of_law execPeakClear_next (touchExecPeakClear_all anyPart_all)
  | .overCurrent .. => keeps_of_law execOverCurrent_next (touchExecOverCurrent_all anyPart_all)
  | .overCurrentClear .. => keeps_of_law execOverCurrentClear_next (touchExecOverCurrentClear_all anyPart_all)
  | .pulseEmit .. => keeps_of_law execPulseEmit_next (touchExecPulseEmit_all anyPart_all)
  | .pulseEnd _ t => keeps_of_law (execPulseEnd_next (t0 := t)) (touchExecPulseEnd_all anyPart_all)
  | .metrologyCommit .. => keeps_of_law execMetrologyCommit_next (touchExecMetrologyCommit_all anyPart_all)
  | .accumulationStart .. => keeps_of_law execAccumulationStart_next (touchExecAccumulationStart_all anyPart_all)
  | .sealSet .. => keeps_of_law execSealSet_next (touchExecSealSet_all anyPart_all)
  | .billingTick => keeps_of_law execBillingTick_next (touchExecBillingTick_all anyPart_all)
  | .rebase .. => keeps_of_law execRebase_next (touchExecRebase_all anyPart_all)
  | .calendarActivate .. => keeps_of_law execCalendarActivate_next (touchExecCalendarActivate_all anyPart_all)
  | .periodCloseCommand .. => keeps_of_law execPeriodCloseCommand_next (touchExecPeriodCloseCommand_all anyPart_all)
  | .periodCloseAction => keeps_of_law execPeriodCloseAction_next (touchExecPeriodCloseAction_all anyPart_all)
  | .sessionOpen .. => keeps_of_law execSessionOpen_next (touchExecSessionOpen_all anyPart_all)
  | .sessionClose .. => keeps_of_law execSessionClose_next (touchExecSessionClose_all anyPart_all)
  | .sessionAck .. => keeps_of_law execSessionAck_next (touchExecSessionAck_all anyPart_all)
  | .recordSign .. => keeps_of_law execRecordSign_next (touchExecRecordSign_all anyPart_all)
  | .tamperLoopSample .. => keeps_of_law execTamperLoopSample_next (touchExecTamperLoopSample_all anyPart_all)
  | .tamperQueueMove => keeps_of_law execTamperQueueMove_next (touchExecTamperQueueMove_all anyPart_all)
  | .tamperAck .. => keeps_of_law execTamperAck_next (touchExecTamperAck_all anyPart_all)
  | .displayFrame => keeps_of_law execDisplayFrame_next (touchExecDisplayFrame_all anyPart_all)
  | .displayAnswer .. => keeps_of_law execDisplayAnswer_next (touchExecDisplayAnswer_all anyPart_all)
  | .pageAdvance .. => keeps_of_law execPageAdvance_next (touchExecPageAdvance_all anyPart_all)
  | .displayButtonShort => keeps_of_law execDisplayButtonShort_next (touchExecDisplayButtonShort_all anyPart_all)
  | .displayButtonLong => keeps_of_law execDisplayButtonLong_next (touchExecDisplayButtonLong_all anyPart_all)
  | .manualAdvanceResume .. => keeps_of_law execManualAdvanceResume_next (touchExecManualAdvanceResume_all anyPart_all)
  | .interlockOpen .. => keeps_of_law execInterlockOpen_next (touchExecInterlockOpen_all anyPart_all)
  | .proximityChange .. => keeps_of_law execProximityChange_next (touchExecProximityChange_all anyPart_all)
  | .plugIn .. => keeps_of_law execPlugIn_next (touchExecPlugIn_all anyPart_all)
  | .sdpRequest .. => keeps_of_law execSdpRequest_next (touchExecSdpRequest_all anyPart_all)
  | .tlsSessionEstablished .. => keeps_of_law execTlsSessionEstablished_next (touchExecTlsSessionEstablished_all anyPart_all)
  | .plugTimeout .. => keeps_of_law execPlugTimeout_next (touchExecPlugTimeout_all anyPart_all)
  | .supportedAppProtocol .. => keeps_of_law execSupportedAppProtocol_next (touchExecSupportedAppProtocol_all anyPart_all)
  | .sessionSetup .. => keeps_of_law execSessionSetup_next (touchExecSessionSetup_all anyPart_all)
  | .authorizationSetup .. => keeps_of_law execAuthorizationSetup_next (touchExecAuthorizationSetup_all anyPart_all)
  | .authorization .. => keeps_of_law execAuthorization_next (touchExecAuthorization_all anyPart_all)
  | .serviceDiscovery .. => keeps_of_law execServiceDiscovery_next (touchExecServiceDiscovery_all anyPart_all)
  | .serviceDetail .. => keeps_of_law execServiceDetail_next (touchExecServiceDetail_all anyPart_all)
  | .serviceSelection .. => keeps_of_law execServiceSelection_next (touchExecServiceSelection_all anyPart_all)
  | .dcChargeParameterDiscovery .. => keeps_of_law execDcChargeParameterDiscovery_next (touchExecDcChargeParameterDiscovery_all anyPart_all)
  | .scheduleExchange .. => keeps_of_law execScheduleExchange_next (touchExecScheduleExchange_all anyPart_all)
  | .dcCableCheck .. => keeps_of_law execDcCableCheck_next (touchExecDcCableCheck_all anyPart_all)
  | .dcPlusClose .. => keeps_of_law execDcPlusClose_next (touchExecDcPlusClose_all anyPart_all)
  | .cableCheckStart .. => keeps_of_law execCableCheckStart_next (touchExecCableCheckStart_all anyPart_all)
  | .cableCheckFinish .. => keeps_of_law execCableCheckFinish_next (touchExecCableCheckFinish_all anyPart_all)
  | .dcPreCharge .. => keeps_of_law execDcPreCharge_next (touchExecDcPreCharge_all anyPart_all)
  | .powerDeliveryStart .. => keeps_of_law execPowerDeliveryStart_next (touchExecPowerDeliveryStart_all anyPart_all)
  | .powerDeliveryStop .. => keeps_of_law execPowerDeliveryStop_next (touchExecPowerDeliveryStop_all anyPart_all)
  | .standby .. => keeps_of_law execStandby_next (touchExecStandby_all anyPart_all)
  | .dcChargeLoop .. => keeps_of_law execDcChargeLoop_next (touchExecDcChargeLoop_all anyPart_all)
  | .dcWeldingDetection .. => keeps_of_law execDcWeldingDetection_next (touchExecDcWeldingDetection_all anyPart_all)
  | .sessionStop .. => keeps_of_law execSessionStop_next (touchExecSessionStop_all anyPart_all)
  | .fastStop .. => keeps_of_law execFastStop_next (touchExecFastStop_all anyPart_all)
  | .authWrite .. => keeps_of_law execAuthWrite_next (touchExecAuthWrite_all anyPart_all)
  | .authTimeout .. => keeps_of_law execAuthTimeout_next (touchExecAuthTimeout_all anyPart_all)
  | .preTimeout .. => keeps_of_law execPreTimeout_next (touchExecPreTimeout_all anyPart_all)
  | .currentDecayed .. => keeps_of_law execCurrentDecayed_next (touchExecCurrentDecayed_all anyPart_all)
  | .decayTimeout .. => keeps_of_law execDecayTimeout_next (touchExecDecayTimeout_all anyPart_all)
  | .dcMinusOpen .. => keeps_of_law execDcMinusOpen_next (touchExecDcMinusOpen_all anyPart_all)
  | .weldCheck .. => keeps_of_law execWeldCheck_next (touchExecWeldCheck_all anyPart_all)
  | .weldCheckComplete .. => keeps_of_law execWeldCheckComplete_next (touchExecWeldCheckComplete_all anyPart_all)
  | .unplug .. => keeps_of_law execUnplug_next (touchExecUnplug_all anyPart_all)
  | .stopCommand .. => keeps_of_law execStopCommand_next (touchExecStopCommand_all anyPart_all)
  | .faultClear .. => keeps_of_law execFaultClear_next (touchExecFaultClear_all anyPart_all)
  | .launchedStop => keeps_of_law execLaunchedStop_next (touchExecLaunchedStop_all anyPart_all)
  | .offerUpdate .. => keeps_of_law execOfferUpdate_next (touchExecOfferUpdate_all anyPart_all)
  | .limitRampStep .. => keeps_of_law execLimitRampStep_next (touchExecLimitRampStep_all anyPart_all)
  | .needFrame .. => keeps_of_law execNeedFrame_next (touchExecNeedFrame_all anyPart_all)
  | .needFrameReceive .. => keeps_of_law execNeedFrameReceive_next (touchExecNeedFrameReceive_all anyPart_all)
  | .allowanceFrame .. => keeps_of_law execAllowanceFrame_next (touchExecAllowanceFrame_all anyPart_all)
  | .allowanceFrameReceive .. => keeps_of_law execAllowanceFrameReceive_next (touchExecAllowanceFrameReceive_all anyPart_all)
  | .needFrameLoss .. => keeps_of_law execNeedFrameLoss_next (touchExecNeedFrameLoss_all anyPart_all)
  | .feedLost .. => keeps_of_law execFeedLost_next (touchExecFeedLost_all anyPart_all)
  | .imdUpdate .. => keeps_of_law execImdUpdate_next (touchExecImdUpdate_all anyPart_all)
  | .imdTimeout .. => keeps_of_law execImdTimeout_next (touchExecImdTimeout_all anyPart_all)
  | .contactorFault .. => keeps_of_law execContactorFault_next (touchExecContactorFault_all anyPart_all)
  | .linkLost .. => keeps_of_law execLinkLost_next (touchExecLinkLost_all anyPart_all)
  | .sensorSample .. => keeps_of_law execSensorSample_next (touchExecSensorSample_all anyPart_all)
  | .sensorFailed .. => keeps_of_law execSensorFailed_next (touchExecSensorFailed_all anyPart_all)
  | .sensorRecover .. => keeps_of_law execSensorRecover_next (touchExecSensorRecover_all anyPart_all)
  | .sensorSuspect .. => keeps_of_law execSensorSuspect_next (touchExecSensorSuspect_all anyPart_all)
  | .suspectRecover .. => keeps_of_law execSuspectRecover_next (touchExecSuspectRecover_all anyPart_all)
  | .snowlineExit .. => keeps_of_law execSnowlineExit_next (touchExecSnowlineExit_all anyPart_all)
  | .warnLimit .. => keeps_of_law execWarnLimit_next (touchExecWarnLimit_all anyPart_all)
  | .zoneAsk .. => keeps_of_law execZoneAsk_next (touchExecZoneAsk_all anyPart_all)
  | .zoneEnforce .. => keeps_of_law execZoneEnforce_next (touchExecZoneEnforce_all anyPart_all)
  | .zoneShutdown .. => keeps_of_law execZoneShutdown_next (touchExecZoneShutdown_all anyPart_all)
  | .zoneRelease .. => keeps_of_law execZoneRelease_next (touchExecZoneRelease_all anyPart_all)
  | .shutdownRelease .. => keeps_of_law execShutdownRelease_next (touchExecShutdownRelease_all anyPart_all)
  | .zoneClr .. => keeps_of_law execZoneClr_next (touchExecZoneClr_all anyPart_all)
  | .zoneEnable .. => keeps_of_law execZoneEnable_next (touchExecZoneEnable_all anyPart_all)
  | .cableModelUpdate .. => keeps_of_law execCableModelUpdate_next (touchExecCableModelUpdate_all anyPart_all)
  | .modelSuspect .. => keeps_of_law execModelSuspect_next (touchExecModelSuspect_all anyPart_all)
  | .internalSensorSample .. => keeps_of_law execInternalSensorSample_next (touchExecInternalSensorSample_all anyPart_all)
  | .internalOverTemperature .. => keeps_of_law execInternalOverTemperature_next (touchExecInternalOverTemperature_all anyPart_all)
  | .thermalRestart .. => keeps_of_law execThermalRestart_next (touchExecThermalRestart_all anyPart_all)
  | .circuitRun .. => keeps_of_law execCircuitRun_next (touchExecCircuitRun_all anyPart_all)
  | .circuitStop .. => keeps_of_law execCircuitStop_next (touchExecCircuitStop_all anyPart_all)
  | .flowTimeout .. => keeps_of_law execFlowTimeout_next (touchExecFlowTimeout_all anyPart_all)
  | .flowFault .. => keeps_of_law execFlowFault_next (touchExecFlowFault_all anyPart_all)
  | .flowRecovered .. => keeps_of_law execFlowRecovered_next (touchExecFlowRecovered_all anyPart_all)
  | .heaterOn .. => keeps_of_law execHeaterOn_next (touchExecHeaterOn_all anyPart_all)
  | .heaterOff .. => keeps_of_law execHeaterOff_next (touchExecHeaterOff_all anyPart_all)
  | .csWake => keeps_of_law execCsWake_next (touchExecCsWake_all anyPart_all)
  | .discovery .. => keeps_of_law execDiscovery_next (touchExecDiscovery_all anyPart_all)
  | .discoveryAttemptEnd .. => keeps_of_law execDiscoveryAttemptEnd_next (touchExecDiscoveryAttemptEnd_all anyPart_all)
  | .sweepSync => keeps_of_law execSweepSync_next (touchExecSweepSync_all anyPart_all)
  | .keepaliveSync .. => keeps_of_law execKeepaliveSync_next (touchExecKeepaliveSync_all anyPart_all)
  | .recordReceive .. => keeps_of_law execRecordReceive_next (touchExecRecordReceive_all anyPart_all)
  | .collectionEnd => keeps_of_law execCollectionEnd_next (touchExecCollectionEnd_all anyPart_all)
  | .recollect => keeps_of_law execRecollect_next (touchExecRecollect_all anyPart_all)
  | .recollectEnd => keeps_of_law execRecollectEnd_next (touchExecRecollectEnd_all anyPart_all)
  | .healProbe .. => keeps_of_law execHealProbe_next (touchExecHealProbe_all anyPart_all)
  | .orderSend .. => keeps_of_law execOrderSend_next (touchExecOrderSend_all anyPart_all)
  | .sweepStart => keeps_of_law execSweepStart_next (touchExecSweepStart_all anyPart_all)
  | .sweepStop => keeps_of_law execSweepStop_next (touchExecSweepStop_all anyPart_all)
  | .cellQuery .. => keeps_of_law execCellQuery_next (touchExecCellQuery_all anyPart_all)
  | .ringLost => keeps_of_law execRingLost_next (touchExecRingLost_all anyPart_all)
  | .csDisable => keeps_of_law execCsDisable_next (touchExecCsDisable_all anyPart_all)
  | .channelOn .. => keeps_of_law execChannelOn_next (touchExecChannelOn_all anyPart_all)
  | .channelOff .. => keeps_of_law execChannelOff_next (touchExecChannelOff_all anyPart_all)
  | .overCurrentTrip .. => keeps_of_law execOverCurrentTrip_next (touchExecOverCurrentTrip_all anyPart_all)
  | .thermalShutdown .. => keeps_of_law execThermalShutdown_next (touchExecThermalShutdown_all anyPart_all)
  | .automaticRestart .. => keeps_of_law execAutomaticRestart_next (touchExecAutomaticRestart_all anyPart_all)
  | .restartWindow .. => keeps_of_law execRestartWindow_next (touchExecRestartWindow_all anyPart_all)
  | .bankUndervoltage .. => keeps_of_law execBankUndervoltage_next (touchExecBankUndervoltage_all anyPart_all)
  | .bankUndervoltageExit .. => keeps_of_law execBankUndervoltageExit_next (touchExecBankUndervoltageExit_all anyPart_all)
  | .latchClear .. => keeps_of_law execLatchClear_next (touchExecLatchClear_all anyPart_all)
  | .switchChannels => keeps_of_law execSwitchChannels_next (touchExecSwitchChannels_all anyPart_all)
  | .openLoad .. => keeps_of_law execOpenLoad_next (touchExecOpenLoad_all anyPart_all)
  | .canPortEnable .. => keeps_of_law execCanPortEnable_next (touchExecCanPortEnable_all anyPart_all)
  | .canStart .. => keeps_of_law execCanStart_next (touchExecCanStart_all anyPart_all)
  | .canInit .. => keeps_of_law execCanInit_next (touchExecCanInit_all anyPart_all)
  | .canSync .. => keeps_of_law execCanSync_next (touchExecCanSync_all anyPart_all)
  | .canFrameReceive .. => keeps_of_law execCanFrameReceive_next (touchExecCanFrameReceive_all anyPart_all)
  | .bufferLock .. => keeps_of_law execBufferLock_next (touchExecBufferLock_all anyPart_all)
  | .bufferReadComplete .. => keeps_of_law execBufferReadComplete_next (touchExecBufferReadComplete_all anyPart_all)
  | .lockTimeout .. => keeps_of_law execLockTimeout_next (touchExecLockTimeout_all anyPart_all)
  | .unlock .. => keeps_of_law execUnlock_next (touchExecUnlock_all anyPart_all)
  | .transmitRequest .. => keeps_of_law execTransmitRequest_next (touchExecTransmitRequest_all anyPart_all)
  | .transmitComplete .. => keeps_of_law execTransmitComplete_next (touchExecTransmitComplete_all anyPart_all)
  | .transmitFail .. => keeps_of_law execTransmitFail_next (touchExecTransmitFail_all anyPart_all)
  | .abort .. => keeps_of_law execAbort_next (touchExecAbort_all anyPart_all)
  | .busOff .. => keeps_of_law execBusOff_next (touchExecBusOff_all anyPart_all)
  | .busOffWait .. => keeps_of_law execBusOffWait_next (touchExecBusOffWait_all anyPart_all)
  | .recover .. => keeps_of_law execRecover_next (touchExecRecover_all anyPart_all)
  | .busOffRecovered .. => keeps_of_law execBusOffRecovered_next (touchExecBusOffRecovered_all anyPart_all)
  | .errorPassive _ tec _ => keeps_of_law (execErrorPassive_next (tec := tec)) (touchExecErrorPassive_all anyPart_all)
  | .errorActive _ tec _ => keeps_of_law (execErrorActive_next (tec := tec)) (touchExecErrorActive_all anyPart_all)
  | .boRunClear .. => keeps_of_law execBoRunClear_next (touchExecBoRunClear_all anyPart_all)
  | .stageWrite .. => keeps_of_law execStageWrite_next (touchExecStageWrite_all anyPart_all)
  | .stageTimeout .. => keeps_of_law execStageTimeout_next (touchExecStageTimeout_all anyPart_all)
  | .loadKey _ _ _ _ _ _ _ _ plain => keeps_of_law (execLoadKey_next (_plain := plain)) (touchExecLoadKey_all anyPart_all)
  | .loadCertificate .. => keeps_of_law execLoadCertificate_next (touchExecLoadCertificate_all anyPart_all)
  | .generate _ _ type _ _ _ => keeps_of_law (execGenerate_next (type := type)) (touchExecGenerate_all anyPart_all)
  | .erase .. => keeps_of_law execErase_next (touchExecErase_all anyPart_all)
  | .derive .. => keeps_of_law execDerive_next (touchExecDerive_all anyPart_all)
  | .reservoirLow .. => keeps_of_law execReservoirLow_next (touchExecReservoirLow_all anyPart_all)
  | .eventRecord => keeps_of_law execEventRecord_next (touchExecEventRecord_all anyPart_all)
  | .logClear .. => keeps_of_law execLogClear_next (touchExecLogClear_all anyPart_all)
  | .logReadLoad .. => keeps_of_law execLogReadLoad_next (touchExecLogReadLoad_all anyPart_all)
  | .logReadNext .. => keeps_of_law execLogReadNext_next (touchExecLogReadNext_all anyPart_all)
  | .logSearch .. => keeps_of_law execLogSearch_next (touchExecLogSearch_all anyPart_all)
  | .logCrcCheck .. => keeps_of_law execLogCrcCheck_next (touchExecLogCrcCheck_all anyPart_all)
  | .siteMark => keeps_of_law execSiteMark_next (touchExecSiteMark_all anyPart_all)
  | .eStop .. => keeps_of_law execEStop_next (touchExecEStop_all anyPart_all)
  | .soReq .. => keeps_of_law execSoReq_next (touchExecSoReq_all anyPart_all)
  | .contactorOpen .. => keeps_of_law execContactorOpen_next (touchExecContactorOpen_all anyPart_all)
  | .safeOffDcMinusOpen _ _ t => keeps_of_law (execSafeOffDcMinusOpen_next (t0 := t)) (touchExecSafeOffDcMinusOpen_all anyPart_all)
  | .connectorHeld .. => keeps_of_law execConnectorHeld_next (touchExecConnectorHeld_all anyPart_all)
  | .safeOffClear .. => keeps_of_law execSafeOffClear_next (touchExecSafeOffClear_all anyPart_all)
  | .estopDiscrepancy .. => keeps_of_law execEstopDiscrepancy_next (touchExecEstopDiscrepancy_all anyPart_all)
  | .watchdogKick .. => keeps_of_law execWatchdogKick_next (touchExecWatchdogKick_all anyPart_all)
  | .watchdogExpiry .. => keeps_of_law execWatchdogExpiry_next (touchExecWatchdogExpiry_all anyPart_all)
  | .lockstepError .. => keeps_of_law execLockstepError_next (touchExecLockstepError_all anyPart_all)
  | .supplyFailContactorOpen .. => keeps_of_law execSupplyFailContactorOpen_next (touchExecSupplyFailContactorOpen_all anyPart_all)
  | .supplyFailDcMinusOpen .. => keeps_of_law execSupplyFailDcMinusOpen_next (touchExecSupplyFailDcMinusOpen_all anyPart_all)
  | .contactorNotOpened .. => keeps_of_law execContactorNotOpened_next (touchExecContactorNotOpened_all anyPart_all)
  | .flashProgram .. => keeps_of_law execFlashProgram_next (touchExecFlashProgram_all anyPart_all)
  | .flashErase .. => keeps_of_law execFlashErase_next (touchExecFlashErase_all anyPart_all)
  | .flashDone ok => execFlashDone_next (touchExecFlashDone_all (mayChange_flashDone ok))
  | .firmwareSwitch .. => keeps_of_law execFirmwareSwitch_next (touchExecFirmwareSwitch_all anyPart_all)
  | .metrologyFirmwareSwitch .. => keeps_of_law execMetrologyFirmwareSwitch_next (touchExecMetrologyFirmwareSwitch_all anyPart_all)
  | .firmwareRevert .. => keeps_of_law execFirmwareRevert_next (touchExecFirmwareRevert_all anyPart_all)
  | .sectionReload .. => keeps_of_law execSectionReload_next (touchExecSectionReload_all anyPart_all)
  | .sectionApply => keeps_of_law execSectionApply_next (touchExecSectionApply_all anyPart_all)
  | .packageSubmit .. => keeps_of_law execPackageSubmit_next (touchExecPackageSubmit_all anyPart_all)
  | .packageApply => keeps_of_law execPackageApply_next (touchExecPackageApply_all anyPart_all)
  | .recalibration .. => keeps_of_law execRecalibration_next (touchExecRecalibration_all anyPart_all)
  | .recalibrationDone .. => keeps_of_law execRecalibrationDone_next (touchExecRecalibrationDone_all anyPart_all)
  | .gatewayRelay .. => keeps_of_law execGatewayRelay_next (touchExecGatewayRelay_all anyPart_all)
  | .relayEntryExpiry .. => keeps_of_law execRelayEntryExpiry_next (touchExecRelayEntryExpiry_all anyPart_all)
  | .handshake .. => keeps_of_law execHandshake_next (touchExecHandshake_all anyPart_all)
  | .handshakeTimeout .. => keeps_of_law execHandshakeTimeout_next (touchExecHandshakeTimeout_all anyPart_all)
  | .sessionIdleClose .. => keeps_of_law execSessionIdleClose_next (touchExecSessionIdleClose_all anyPart_all)
  | .read .. => keeps_of_law execRead_next (touchExecRead_all anyPart_all)
  | .write .. => keeps_of_law execWrite_next (touchExecWrite_all anyPart_all)
  | .blockRead .. => keeps_of_law execBlockRead_next (touchExecBlockRead_all anyPart_all)
  | .blockWrite .. => keeps_of_law execBlockWrite_next (touchExecBlockWrite_all anyPart_all)
  | .subscribe .. => keeps_of_law execSubscribe_next (touchExecSubscribe_all anyPart_all)
  | .unsubscribe .. => keeps_of_law execUnsubscribe_next (touchExecUnsubscribe_all anyPart_all)
  | .notify .. => keeps_of_law execNotify_next (touchExecNotify_all anyPart_all)
  | .events .. => keeps_of_law execEvents_next (touchExecEvents_all anyPart_all)
  | .records .. => keeps_of_law execRecords_next (touchExecRecords_all anyPart_all)
  | .locate .. => keeps_of_law execLocate_next (touchExecLocate_all anyPart_all)
  | .launch .. => keeps_of_law execLaunch_next (touchExecLaunch_all anyPart_all)
  | .lresult .. => keeps_of_law execLresult_next (touchExecLresult_all anyPart_all)
  | .reset .. => keeps_of_law execReset_next (touchExecReset_all anyPart_all)
  | .time .. => keeps_of_law execTime_next (touchExecTime_all anyPart_all)
  | .ping .. => keeps_of_law execPing_next (touchExecPing_all anyPart_all)
  | .close .. => keeps_of_law execClose_next (touchExecClose_all anyPart_all)
  | .ptpSync .. => keeps_of_law execPtpSync_next (touchExecPtpSync_all anyPart_all)
  | .ptpLost .. => keeps_of_law execPtpLost_next (touchExecPtpLost_all anyPart_all)
  | .ntpPoll .. => keeps_of_law execNtpPoll_next (touchExecNtpPoll_all anyPart_all)
  | .ntpResponse .. => keeps_of_law execNtpResponse_next (touchExecNtpResponse_all anyPart_all)
  | .ntpLost => keeps_of_law execNtpLost_next (touchExecNtpLost_all anyPart_all)
  | .tmxSelect .. => keeps_of_law execTmxSelect_next (touchExecTmxSelect_all anyPart_all)
  | .rstNRelease .. => keeps_of_law execRstNRelease_next (touchExecRstNRelease_all anyPart_all)
  | .estopRelease .. => keeps_of_law execEstopRelease_next (touchExecEstopRelease_all anyPart_all)
  | .epochInstall .. => keeps_of_law execEpochInstall_next (touchExecEpochInstall_all anyPart_all)
  | .scheduleRenegotiation .. => keeps_of_law execScheduleRenegotiation_next (touchExecScheduleRenegotiation_all anyPart_all)
  | .vbatRestored .. => keeps_of_law execVbatRestored_next (touchExecVbatRestored_all anyPart_all)
  | .reservoirRecharged .. => keeps_of_law execReservoirRecharged_next (touchExecReservoirRecharged_all anyPart_all)

theorem exec_flash_of_ne_flashDone {c : Instr} (s : State) (hc : ∀ ok, c ≠ .flashDone ok) : ∃ t, exec c s = .next t ∧ t.flash = s.flash := by
  obtain ⟨t, hnext, hkeeps⟩ := exec_keeps_mayChange (s := s) c
  exact ⟨t, hnext, hkeeps.same.flash.resolve_left fun ⟨ok, hok⟩ => hc ok hok⟩

/-! ### Who may write it -/

theorem flGuard_of_not_admin {s : State} {sess a : Nat} {g : State → State} (h : s.level sess ≠ 3) :
    ∃ code, s.flGuard sess a g = s.report sess code := by
  rw [State.flGuard, if_neg h]
  split <;> exact ⟨_, rfl⟩

theorem flGuard_of_admin {s : State} {sess a : Nat} {g : State → State} (hruns : s.wordStatus a = 0) (h : s.level sess = 3) :
    s.flGuard sess a g = g s := by
  simp [State.flGuard, hruns, h]

section Level

variable {s : State} {sess : Nat}

theorem exec_flashProgram_of_not_admin (w : Nat) (h : s.level sess ≠ 3) : ∃ code, exec (.flashProgram sess w) s = .next (s.report sess code) :=
  (flGuard_of_not_admin h).imp fun _ => congrArg Host.Outcome.next

theorem exec_flashErase_of_not_admin (h : s.level sess ≠ 3) : ∃ code, exec (.flashErase sess) s = .next (s.report sess code) :=
  (flGuard_of_not_admin h).imp fun _ => congrArg Host.Outcome.next

theorem exec_flashProgram_of_admin (w : Nat) (hruns : s.wordStatus UPD_FL_DATA.DATA.addr = 0) (h : s.level sess = 3) :
    exec (.flashProgram sess w) s = .next (s.flData (BitVec.ofNat 32 w)) :=
  congrArg Host.Outcome.next (flGuard_of_admin hruns h)

theorem exec_flashErase_of_admin (hruns : s.wordStatus UPD_FL_CMD.ERASE.addr = 0) (h : s.level sess = 3) :
    exec (.flashErase sess) s = .next s.flErase :=
  congrArg Host.Outcome.next (flGuard_of_admin hruns h)

end Level

/-- A write leaves the state alone where the level may write no field of the word, outside the block of test access, whose refusals leave
something behind (R523). -/
theorem accessWrite_of_refused {s : State} {sess lvl a : Nat} {val mask : Word}
    (href : ∀ f ∈ fieldsAt a, f.acc ≠ .ro → s.fieldStatus lvl f a ≠ 0) (hblock : a / 0x10000 ≠ 19) :
    (s.accessWrite sess lvl a val mask).2 = s := by
  unfold State.accessWrite
  split
  · rfl
  split
  · rfl
  have hfs : ∀ f ∈ (fieldsAt a).filter fun f => decide (f.acc ≠ .ro) && mask &&& f.mask != 0, s.fieldStatus lvl f a ≠ 0 := by
    intro f hf
    simp only [List.mem_filter, Bool.and_eq_true, decide_eq_true_eq] at hf
    obtain ⟨hf, hro, -⟩ := hf
    exact href f hf hro
  generalize (fieldsAt a).filter (fun f => decide (f.acc ≠ .ro) && mask &&& f.mask != 0) = fs at hfs
  have hmask (held : Field → Bool) :
      fs.foldl (fun m f => if s.fieldStatus lvl f a = 0 ∧ !held f then m ||| f.mask else m) 0#32 = 0#32 :=
    List.foldlRecOn (motive := (· = 0#32)) fs _ rfl fun m hm f hf => (if_neg fun h => hfs f hf h.1).trans hm
  have hheld (p : Field → Bool) : (fs.any fun f => s.fieldStatus lvl f a == 0 && p f) = false :=
    List.any_eq_false.mpr fun f hf => by simp [hfs f hf]
  simp only [hmask, hheld]
  rfl

/-- The words by which a session reaches the flash. -/
def flashWords : List Nat := [UPD_FL_ADDR.ADDR.addr, UPD_FL_DATA.DATA.addr, UPD_FL_CMD.ERASE.addr]

theorem fieldStatus_flash_of_not_admin {s : State} {lvl a : Nat} (ha : a ∈ flashWords) (hlvl : lvl ≠ 3) :
    ∀ f ∈ fieldsAt a, f.acc ≠ .ro → s.fieldStatus lvl f a ≠ 0 := by
  have hadmin : ∀ a ∈ flashWords, ∀ f ∈ fieldsAt a, f.acc ≠ .ro → f ≠ EVR_CLR.CLR_TO ∧ (f.acc = .rwa ∨ adminToo f) := by decide
  intro f hf hro
  obtain ⟨hclr, hneeds⟩ := hadmin a ha f hf hro
  have hrefused : (f.acc = .rwa ∨ f.acc = .rws ∨ adminToo f) ∧ lvl ≠ 3 := ⟨hneeds.imp_right .inr, hlvl⟩
  rw [State.fieldStatus, if_neg hclr, if_pos hrefused]
  split <;> decide

theorem exec_registerWrite_of_not_admin {s : State} {sess a : Nat} (val mask : Nat) (ha : a ∈ flashWords) (h : s.level sess ≠ 3) :
    ∃ code, exec (.registerWrite sess a val mask) s = .next (s.report sess code) := by
  have hblock : ∀ a ∈ flashWords, a / 0x10000 ≠ 19 := by decide
  have harm : exec (.registerWrite sess a val mask) s = execRegisterWrite sess a val mask s := rfl
  rw [harm, execRegisterWrite, accessWrite_of_refused (fieldStatus_flash_of_not_admin ha h) (hblock a ha)]
  exact ⟨_, rfl⟩

/-! ### What is in use and what is reserved (R471) -/

/-- The firmware banks lie above the configuration banks. -/
theorem le_bankAt_fst {u : Nat} (b : Nat) (hu : u < 7) : 0x400000 ≤ (bankAt u b).1 := by
  interval_cases u <;> simp only [bankAt] <;> omega

/-- The address lies in the configuration bank loaded at the last start, or in the bank in force of a unit. -/
def flashInUse (s : State) (a : Nat) : Prop :=
  (a < 0x400000 ∧ s.updN.cfg = some (a / 0x200000)) ∨ (a < 0x2A00000 ∧ ∃ u ∈ List.range 7, bit s.boot.fwBad u = false ∧
    (bankAt u (s.fwBank u)).1 ≤ a ∧ a < (bankAt u (s.fwBank u)).1 + (bankAt u (s.fwBank u)).2)

theorem flRefusal_of_inUse {s : State} {a : Nat} (h : flashInUse s a) : s.flRefusal a = 2 := by
  unfold State.flRefusal
  obtain ⟨ha, hcfg⟩ | ⟨ha, u, hu, hgood, hlow, hhigh⟩ := h
  · rw [if_pos ha, if_pos hcfg]
  · have habove := (le_bankAt_fst (s.fwBank u) (List.mem_range.mp hu)).trans hlow
    rw [if_neg habove.not_gt, if_neg ha.not_ge, if_pos]
    exact List.any_eq_true.mpr ⟨u, hu, by simp [hgood, hlow, hhigh]⟩

theorem flRefusal_of_reserved {s : State} {a : Nat} (h : 0x2A00000 ≤ a) : s.flRefusal a = 3 := by
  unfold State.flRefusal
  rw [if_neg (by omega), if_pos h]

section Refused

variable {s : State} {r : Nat} (href : s.flRefusal (s.get UPD_FL_ADDR.ADDR / 4 * 4) = r)
include href

theorem flBegin_of_refused (w : Option Word) (hr : r ≠ 0) : s.flBegin w = s.put UPD_FL_CMD.STATUS r := by
  subst href
  simp only [State.flBegin]

variable (hr : r ≠ 0) (hr' : r < 8) (hidle : s.get UPD_FL_CMD.FL_BUSY = 0)
include hr hr' hidle

theorem flErase_of_refused : s.flErase.upd = s.upd ∧ s.flErase.get UPD_FL_CMD.STATUS = r := by
  have heq : s.flErase = s.put UPD_FL_CMD.STATUS r := by
    simp [State.flErase, State.is, hidle, flBegin_of_refused href _ hr]
  rw [heq, put_upd, get_put_same (by decide) (by decide) (by decide)]
  exact ⟨rfl, Nat.mod_eq_of_lt hr'⟩

theorem flData_of_refused (w : Word) : (s.flData w).upd = s.upd ∧ (s.flData w).get UPD_FL_CMD.STATUS = r := by
  have heq : s.flData w = (s.put UPD_FL_CMD.STATUS r).put UPD_FL_ADDR.ADDR ((s.get UPD_FL_ADDR.ADDR + 4) % 2 ^ 26) := by
    simp [State.flData, State.is, hidle, flBegin_of_refused href _ hr]
  rw [heq, put_upd, put_upd, get_put_apart (by decide) (by decide) (by decide), get_put_same (by decide) (by decide) (by decide)]
  exact ⟨rfl, Nat.mod_eq_of_lt hr'⟩

end Refused

/-! ### What an operation leaves alone -/

theorem flByte_of_flash_eq {s t : State} (h : t.flash = s.flash) (b : Nat) : t.flByte b = s.flByte b := by
  rw [State.flByte, State.flByte, h]

theorem flSet_flByte_other {s : State} {a v b : Nat} (h : b ≠ a) : (s.flSet a v).flByte b = s.flByte b := by
  rw [State.flByte, State.flByte, State.flSet, Memory.read_write_other h]

theorem flPut_flByte_outside {s : State} {a w b : Nat} (h : b < a ∨ a + 4 ≤ b) : (s.flPut a w).flByte b = s.flByte b := by
  refine List.foldlRecOn (motive := fun t : State => t.flByte b = s.flByte b) _ _ rfl fun t ht p hp => ?_
  have hlt : p.2 < 4 := List.snd_lt_of_mem_zipIdx hp
  rw [flSet_flByte_other (by omega), ht]

theorem flSector_flByte_outside {s : State} {a b : Nat} (h : b / 0x10000 ≠ a / 0x10000) : (s.flSector a).flByte b = s.flByte b := by
  rw [State.flByte, State.flByte, State.flSector, Memory.read_eraseSector_out h]

/-- The registers show that the operation has ended; the flash is as it was. -/
def flEnded (s : State) (ok : Bool) : State :=
  ({ s with upd := { s.upd with fl := none } }.put UPD_FL_CMD.FL_BUSY 0).put UPD_FL_CMD.STATUS (if ok then 1 else 4)

theorem flEnded_flash (s : State) (ok : Bool) : (flEnded s ok).flash = s.flash := by
  simp [flEnded]

/-- A program ends with one word put at its address: its own, or what an error leaves. -/
theorem flDone_of_program {s : State} {a : Nat} {v : Word} (ok : Bool) (hop : s.upd.fl = some ⟨a, some v⟩) :
    ∃ (t : State) (w : Nat), t.flash = s.flash ∧ s.flDone ok = t.flPut a w := by
  have heq : s.flDone ok =
      if ok && ((flEnded s ok).flLe a 4 == 0xFFFFFFFF || (flEnded s ok).flLe a 4 == v.toNat) then (flEnded s ok).flPut a v.toNat
      else ((flEnded s ok).free 32).2.flPut a ((flEnded s ok).free 32).1 := by
    rw [State.flDone, hop]
    rfl
  rw [heq]
  split
  · exact ⟨_, _, flEnded_flash s ok, rfl⟩
  · exact ⟨_, _, (free_flash _ 32).trans (flEnded_flash s ok), rfl⟩

/-- A cell of the sector takes what a flash error leaves. -/
def cellLeft (t : State) (p : Nat × Byte) : State := (t.free 8).2.flSet p.1 (t.free 8).1

/-- An erase empties the sector; an error leaves something in those of its cells that were not erased. -/
theorem flDone_of_erase {s : State} {a : Nat} (ok : Bool) (hop : s.upd.fl = some ⟨a, none⟩) :
    s.flDone ok = if ok then (flEnded s ok).flSector a else
      (s.flash.filter fun p => p.1 / 0x10000 == a / 0x10000).foldl cellLeft ((flEnded s ok).flSector a) := by
  rw [← flEnded_flash s ok, State.flDone, hop]
  rfl

theorem flDone_flByte_outside_word {s : State} {a b : Nat} {v : Word} (ok : Bool) (hop : s.upd.fl = some ⟨a, some v⟩)
    (h : b < a ∨ a + 4 ≤ b) : (s.flDone ok).flByte b = s.flByte b := by
  obtain ⟨t, w, hflash, hdone⟩ := flDone_of_program ok hop
  rw [hdone, flPut_flByte_outside h, flByte_of_flash_eq hflash]

theorem flDone_flByte_outside_sector {s : State} {a b : Nat} (ok : Bool) (hop : s.upd.fl = some ⟨a, none⟩)
    (h : b / 0x10000 ≠ a / 0x10000) : (s.flDone ok).flByte b = s.flByte b := by
  have hsector : ((flEnded s ok).flSector a).flByte b = s.flByte b := by
    rw [flSector_flByte_outside h, flByte_of_flash_eq (flEnded_flash s ok)]
  rw [flDone_of_erase ok hop]
  split
  · exact hsector
  · refine List.foldlRecOn (motive := fun t : State => t.flByte b = s.flByte b) _ _ hsector fun t ht p hp => ?_
    have hcell : p.1 / 0x10000 = a / 0x10000 := by simpa using (List.mem_filter.mp hp).2
    have hother : b ≠ p.1 := by
      rintro rfl
      exact h hcell
    rw [cellLeft, flSet_flByte_other hother, flByte_of_flash_eq (free_flash t 8), ht]

/-- FLASH_DONE leaves a byte alone that the end of the operation leaves alone; with D3 off it does nothing. -/
theorem exec_flashDone_flByte {s : State} {ok : Bool} {b : Nat} (h : (s.flDone ok).flByte b = s.flByte b) :
    ∃ t, exec (.flashDone ok) s = .next t ∧ t.flByte b = s.flByte b := by
  refine ⟨_, rfl, ?_⟩
  split
  · exact h
  · rfl

/-- Settles O54: every command but FLASH_DONE keeps the flash by its law; a session below ADMIN gets no more than a report, and an address in use
or reserved no more than its `STATUS`; FLASH_DONE puts one word, or empties one sector and puts bytes in its cells. -/
theorem flashWrites : Obligations.FlashWrites := by
  unfold Obligations.FlashWrites
  refine ⟨fun c s hc => exec_flash_of_ne_flashDone s hc, ?programLevel, ?eraseLevel, ?writeLevel, ?programInUse, ?eraseInUse, ?eraseReserved,
    ?programReserved, ?programDone, ?eraseDone⟩
  case programLevel =>
    intro s sess w hlevel
    obtain ⟨code, hreport⟩ := exec_flashProgram_of_not_admin w hlevel
    exact ⟨_, hreport, rfl, rfl⟩
  case eraseLevel =>
    intro s sess hlevel
    obtain ⟨code, hreport⟩ := exec_flashErase_of_not_admin hlevel
    exact ⟨_, hreport, rfl, rfl⟩
  case writeLevel =>
    intro s sess a val mask ha hlevel
    obtain ⟨code, hreport⟩ := exec_registerWrite_of_not_admin val mask (by simpa [flashWords] using ha) hlevel
    exact ⟨_, hreport, rfl, rfl⟩
  case programInUse =>
    rintro s sess w _ hruns hlevel hidle rfl huse
    exact ⟨_, exec_flashProgram_of_admin w hruns hlevel, flData_of_refused (flRefusal_of_inUse huse) (by decide) (by decide) hidle _⟩
  case eraseInUse =>
    rintro s sess _ hruns hlevel hidle rfl huse
    exact ⟨_, exec_flashErase_of_admin hruns hlevel, flErase_of_refused (flRefusal_of_inUse huse) (by decide) (by decide) hidle⟩
  case eraseReserved =>
    intro s sess hruns hlevel hidle hreserved
    have href := flRefusal_of_reserved (s := s) (a := s.get UPD_FL_ADDR.ADDR / 4 * 4) (by omega)
    exact ⟨_, exec_flashErase_of_admin hruns hlevel, flErase_of_refused href (by decide) (by decide) hidle⟩
  case programReserved =>
    intro s sess w hruns hlevel hidle hreserved
    have href := flRefusal_of_reserved (s := s) (a := s.get UPD_FL_ADDR.ADDR / 4 * 4) (by omega)
    exact ⟨_, exec_flashProgram_of_admin w hruns hlevel, flData_of_refused href (by decide) (by decide) hidle _⟩
  case programDone =>
    intro s ok a v b hop hout
    exact exec_flashDone_flByte (flDone_flByte_outside_word ok hop hout)
  case eraseDone =>
    intro s ok a b hop hout
    exact exec_flashDone_flByte (flDone_flByte_outside_sector ok hop hout)

end Sys2Proof.Proofs
end

section
/-! PROOFS. The queue, and the canonical form of registers and flash. -/

namespace Sys2Proof.Proofs

open Sys2Proof.Machine Sys2Proof.Laws

/-- Every part of the state but the queue of commands. -/
def besideQueue : Part → Prop
  | .pending => False
  | _ => True

/-- The law of a command does not name the queue: `hqueue` holds by unfolding the parts that it names. -/
theorem pending_of_law {c : Instr} {s : State} {names : (Part → Prop) → Prop}
    (law : ∀ {A}, names A → ∃ t, exec c s = .next t ∧ Keeps A s t) (all : names anyPart)
    (hqueue : names anyPart = names besideQueue) : ∃ t, exec c s = .next t ∧ t.pending = s.pending := by
  obtain ⟨t, ht, hkeeps⟩ := law (hqueue ▸ all)
  exact ⟨t, ht, hkeeps.same.pending.resolve_left id⟩

/-- Every command completes by its law and leaves the queue as it is. An operand is named where the law does not fix it. -/
theorem exec_pending {s : State} : (c : Instr) → ∃ t, exec c s = .next t ∧ t.pending = s.pending
  | .registerWrite .. => pending_of_law execRegisterWrite_next (touchExecRegisterWrite_all anyPart_all) rfl
  | .apply .. => pending_of_law execApply_next (touchExecApply_all anyPart_all) rfl
  | .applyComplete .. => pending_of_law execApplyComplete_next (touchExecApplyComplete_all anyPart_all) rfl
  | .porReset .. => pending_of_law execPorReset_next (touchExecPorReset_all anyPart_all) rfl
  | .pinReset .. => pending_of_law execPinReset_next (touchExecPinReset_all anyPart_all) rfl
  | .softReset .. => pending_of_law execSoftReset_next (touchExecSoftReset_all anyPart_all) rfl
  | .domainReset .. => pending_of_law execDomainReset_next (touchExecDomainReset_all anyPart_all) rfl
  | .domainResetComplete .. => pending_of_law execDomainResetComplete_next (touchExecDomainResetComplete_all anyPart_all) rfl
  | .readyRelease .. => pending_of_law execReadyRelease_next (touchExecReadyRelease_all anyPart_all) rfl
  | .readyDeadline .. => pending_of_law execReadyDeadline_next (touchExecReadyDeadline_all anyPart_all) rfl
  | .vsupLowBandEntry .. => pending_of_law execVsupLowBandEntry_next (touchExecVsupLowBandEntry_all anyPart_all) rfl
  | .vsupLowBandExit .. => pending_of_law execVsupLowBandExit_next (touchExecVsupLowBandExit_all anyPart_all) rfl
  | .vsupHighBandEntry .. => pending_of_law execVsupHighBandEntry_next (touchExecVsupHighBandEntry_all anyPart_all) rfl
  | .vsupHighBandExit .. => pending_of_law execVsupHighBandExit_next (touchExecVsupHighBandExit_all anyPart_all) rfl
  | .vsupOverVoltage .. => pending_of_law execVsupOverVoltage_next (touchExecVsupOverVoltage_all anyPart_all) rfl
  | .vsupOverVoltageExit .. => pending_of_law execVsupOverVoltageExit_next (touchExecVsupOverVoltageExit_all anyPart_all) rfl
  | .supplyFail .. => pending_of_law execSupplyFail_next (touchExecSupplyFail_all anyPart_all) rfl
  | .railOutOfLimits .. => pending_of_law execRailOutOfLimits_next (touchExecRailOutOfLimits_all anyPart_all) rfl
  | .holdupStoreTest .. => pending_of_law execHoldupStoreTest_next (touchExecHoldupStoreTest_all anyPart_all) rfl
  | .holdupTestRequest .. => pending_of_law execHoldupTestRequest_next (touchExecHoldupTestRequest_all anyPart_all) rfl
  | .holdupTestDone .. => pending_of_law execHoldupTestDone_next (touchExecHoldupTestDone_all anyPart_all) rfl
  | .vbatLow .. => pending_of_law execVbatLow_next (touchExecVbatLow_all anyPart_all) rfl
  | .quietRequest .. => pending_of_law execQuietRequest_next (touchExecQuietRequest_all anyPart_all) rfl
  | .runRequest .. => pending_of_law execRunRequest_next (touchExecRunRequest_all anyPart_all) rfl
  | .dormantRequest .. => pending_of_law execDormantRequest_next (touchExecDormantRequest_all anyPart_all) rfl
  | .wake .. => pending_of_law execWake_next (touchExecWake_all anyPart_all) rfl
  | .auxEnable .. => pending_of_law execAuxEnable_next (touchExecAuxEnable_all anyPart_all) rfl
  | .auxStop .. => pending_of_law execAuxStop_next (touchExecAuxStop_all anyPart_all) rfl
  | .auxSetpointChange .. => pending_of_law execAuxSetpointChange_next (touchExecAuxSetpointChange_all anyPart_all) rfl
  | .auxPgood .. => pending_of_law execAuxPgood_next (touchExecAuxPgood_all anyPart_all) rfl
  | .auxPgoodLoss .. => pending_of_law execAuxPgoodLoss_next (touchExecAuxPgoodLoss_all anyPart_all) rfl
  | .auxFeedbackFault .. => pending_of_law execAuxFeedbackFault_next (touchExecAuxFeedbackFault_all anyPart_all) rfl
  | .auxBurstSleep .. => pending_of_law execAuxBurstSleep_next (touchExecAuxBurstSleep_all anyPart_all) rfl
  | .auxBurstWake .. => pending_of_law execAuxBurstWake_next (touchExecAuxBurstWake_all anyPart_all) rfl
  | .auxSyncLock .. => pending_of_law execAuxSyncLock_next (touchExecAuxSyncLock_all anyPart_all) rfl
  | .auxSyncLost .. => pending_of_law execAuxSyncLost_next (touchExecAuxSyncLost_all anyPart_all) rfl
  | .auxTruncation .. => pending_of_law execAuxTruncation_next (touchExecAuxTruncation_all anyPart_all) rfl
  | .auxBraking .. => pending_of_law execAuxBraking_next (touchExecAuxBraking_all anyPart_all) rfl
  | .auxBrakeRelease .. => pending_of_law execAuxBrakeRelease_next (touchExecAuxBrakeRelease_all anyPart_all) rfl
  | .auxThermalWarning .. => pending_of_law execAuxThermalWarning_next (touchExecAuxThermalWarning_all anyPart_all) rfl
  | .auxThermalShutdown .. => pending_of_law execAuxThermalShutdown_next (touchExecAuxThermalShutdown_all anyPart_all) rfl
  | .auxThermalRestart .. => pending_of_law execAuxThermalRestart_next (touchExecAuxThermalRestart_all anyPart_all) rfl
  | .snsSelectChange .. => pending_of_law execSnsSelectChange_next (touchExecSnsSelectChange_all anyPart_all) rfl
  | .tbAcquireLock .. => pending_of_law execTbAcquireLock_next (touchExecTbAcquireLock_all anyPart_all) rfl
  | .tbAcquireTimeout .. => pending_of_law execTbAcquireTimeout_next (touchExecTbAcquireTimeout_all anyPart_all) rfl
  | .tbSourceLost .. => pending_of_law execTbSourceLost_next (touchExecTbSourceLost_all anyPart_all) rfl
  | .gridPhaseJump .. => pending_of_law execGridPhaseJump_next (touchExecGridPhaseJump_all anyPart_all) rfl
  | .lineFault .. => pending_of_law execLineFault_next (touchExecLineFault_all anyPart_all) rfl
  | .lineFaultClear .. => pending_of_law execLineFaultClear_next (touchExecLineFaultClear_all anyPart_all) rfl
  | .tbSlewEntry .. => pending_of_law execTbSlewEntry_next (touchExecTbSlewEntry_all anyPart_all) rfl
  | .tbSlewLocked .. => pending_of_law execTbSlewLocked_next (touchExecTbSlewLocked_all anyPart_all) rfl
  | .tbSourceTaken .. => pending_of_law execTbSourceTaken_next (touchExecTbSourceTaken_all anyPart_all) rfl
  | .cycleRenumber => pending_of_law execCycleRenumber_next (touchExecCycleRenumber_all anyPart_all) rfl
  | .refclkLost => pending_of_law execRefclkLost_next (touchExecRefclkLost_all anyPart_all) rfl
  | .dllUnlock .. => pending_of_law execDllUnlock_next (touchExecDllUnlock_all anyPart_all) rfl
  | .dllRelock .. => pending_of_law execDllRelock_next (touchExecDllRelock_all anyPart_all) rfl
  | .keeperCommit => pending_of_law execKeeperCommit_next (touchExecKeeperCommit_all anyPart_all) rfl
  | .ncarChange .. => pending_of_law execNcarChange_next (touchExecNcarChange_all anyPart_all) rfl
  | .offsetCommit .. => pending_of_law execOffsetCommit_next (touchExecOffsetCommit_all anyPart_all) rfl
  | .offsetCommitTaken .. => pending_of_law execOffsetCommitTaken_next (touchExecOffsetCommitTaken_all anyPart_all) rfl
  | .anglePulseOut => pending_of_law execAnglePulseOut_next (touchExecAnglePulseOut_all anyPart_all) rfl
  | .anglePulseCapture .. => pending_of_law execAnglePulseCapture_next (touchExecAnglePulseCapture_all anyPart_all) rfl
  | .groupCarrierBoundary .. => pending_of_law execGroupCarrierBoundary_next (touchExecGroupCarrierBoundary_all anyPart_all) rfl
  | .carrierStart .. => pending_of_law execCarrierStart_next (touchExecCarrierStart_all anyPart_all) rfl
  | .halfCycleBoundary => pending_of_law execHalfCycleBoundary_next (touchExecHalfCycleBoundary_all anyPart_all) rfl
  | .leaseLapse .. => pending_of_law execLeaseLapse_next (touchExecLeaseLapse_all anyPart_all) rfl
  | .overshootTruncate .. => pending_of_law execOvershootTruncate_next (touchExecOvershootTruncate_all anyPart_all) rfl
  | .overshootBrake .. => pending_of_law execOvershootBrake_next (touchExecOvershootBrake_all anyPart_all) rfl
  | .truncateTimeout .. => pending_of_law execTruncateTimeout_next (touchExecTruncateTimeout_all anyPart_all) rfl
  | .truncateRelease .. => pending_of_law execTruncateRelease_next (touchExecTruncateRelease_all anyPart_all) rfl
  | .brakeRelease .. => pending_of_law execBrakeRelease_next (touchExecBrakeRelease_all anyPart_all) rfl
  | .brakingTimeout .. => pending_of_law execBrakingTimeout_next (touchExecBrakingTimeout_all anyPart_all) rfl
  | .phaseCheckFail .. => pending_of_law execPhaseCheckFail_next (touchExecPhaseCheckFail_all anyPart_all) rfl
  | .driverFault .. => pending_of_law execDriverFault_next (touchExecDriverFault_all anyPart_all) rfl
  | .phaseImbalance .. => pending_of_law execPhaseImbalance_next (touchExecPhaseImbalance_all anyPart_all) rfl
  | .phaseEnable .. => pending_of_law execPhaseEnable_next (touchExecPhaseEnable_all anyPart_all) rfl
  | .phaseDisable .. => pending_of_law execPhaseDisable_next (touchExecPhaseDisable_all anyPart_all) rfl
  | .phaseJoin .. => pending_of_law execPhaseJoin_next (touchExecPhaseJoin_all anyPart_all) rfl
  | .groupEnable .. => pending_of_law execGroupEnable_next (touchExecGroupEnable_all anyPart_all) rfl
  | .groupStart .. => pending_of_law execGroupStart_next (touchExecGroupStart_all anyPart_all) rfl
  | .groupDisable .. => pending_of_law execGroupDisable_next (touchExecGroupDisable_all anyPart_all) rfl
  | .rampdownComplete .. => pending_of_law execRampdownComplete_next (touchExecRampdownComplete_all anyPart_all) rfl
  | .demandWatchdog .. => pending_of_law execDemandWatchdog_next (touchExecDemandWatchdog_all anyPart_all) rfl
  | .respaceCommit .. => pending_of_law execRespaceCommit_next (touchExecRespaceCommit_all anyPart_all) rfl
  | .sampleStrobe .. => pending_of_law execSampleStrobe_next (touchExecSampleStrobe_all anyPart_all) rfl
  | .loopHoldExit .. => pending_of_law execLoopHoldExit_next (touchExecLoopHoldExit_all anyPart_all) rfl
  | .srateChange .. => pending_of_law execSrateChange_next (touchExecSrateChange_all anyPart_all) rfl
  | .loopEnable .. => pending_of_law execLoopEnable_next (touchExecLoopEnable_all anyPart_all) rfl
  | .loopDisable .. => pending_of_law execLoopDisable_next (touchExecLoopDisable_all anyPart_all) rfl
  | .loopModeChange .. => pending_of_law execLoopModeChange_next (touchExecLoopModeChange_all anyPart_all) rfl
  | .gtCommit .. => pending_of_law execGtCommit_next (touchExecGtCommit_all anyPart_all) rfl
  | .ffSwap .. => pending_of_law execFfSwap_next (touchExecFfSwap_all anyPart_all) rfl
  | .setTarget => pending_of_law execSetTarget_next (touchExecSetTarget_all anyPart_all) rfl
  | .scaleTarget => pending_of_law execScaleTarget_next (touchExecScaleTarget_all anyPart_all) rfl
  | .setRate => pending_of_law execSetRate_next (touchExecSetRate_all anyPart_all) rfl
  | .setParameter => pending_of_law execSetParameter_next (touchExecSetParameter_all anyPart_all) rfl
  | .setMode => pending_of_law execSetMode_next (touchExecSetMode_all anyPart_all) rfl
  | .startInjector => pending_of_law execStartInjector_next (touchExecStartInjector_all anyPart_all) rfl
  | .injectorEnable .. => pending_of_law execInjectorEnable_next (touchExecInjectorEnable_all anyPart_all) rfl
  | .injectorStampStart .. => pending_of_law execInjectorStampStart_next (touchExecInjectorStampStart_all anyPart_all) rfl
  | .injectorEnd .. => pending_of_law execInjectorEnd_next (touchExecInjectorEnd_all anyPart_all) rfl
  | .injectorDisable .. => pending_of_law execInjectorDisable_next (touchExecInjectorDisable_all anyPart_all) rfl
  | .captureArm .. => pending_of_law execCaptureArm_next (touchExecCaptureArm_all anyPart_all) rfl
  | .captureTrigger => pending_of_law execCaptureTrigger_next (touchExecCaptureTrigger_all anyPart_all) rfl
  | .captureDone => pending_of_law execCaptureDone_next (touchExecCaptureDone_all anyPart_all) rfl
  | .laneTrain .. => pending_of_law execLaneTrain_next (touchExecLaneTrain_all anyPart_all) rfl
  | .laneTrainTimeout .. => pending_of_law execLaneTrainTimeout_next (touchExecLaneTrainTimeout_all anyPart_all) rfl
  | .laneRetry .. => pending_of_law execLaneRetry_next (touchExecLaneRetry_all anyPart_all) rfl
  | .laneHold .. => pending_of_law execLaneHold_next (touchExecLaneHold_all anyPart_all) rfl
  | .laneActive .. => pending_of_law execLaneActive_next (touchExecLaneActive_all anyPart_all) rfl
  | .laneDown .. => pending_of_law execLaneDown_next (touchExecLaneDown_all anyPart_all) rfl
  | .frameForward .. => pending_of_law execFrameForward_next (touchExecFrameForward_all anyPart_all) rfl
  | .stallDiscard .. => pending_of_law execStallDiscard_next (touchExecStallDiscard_all anyPart_all) rfl
  | .wakeTx .. => pending_of_law execWakeTx_next (touchExecWakeTx_all anyPart_all) rfl
  | .announceSend .. => pending_of_law execAnnounceSend_next (touchExecAnnounceSend_all anyPart_all) rfl
  | .announceReceive .. => pending_of_law execAnnounceReceive_next (touchExecAnnounceReceive_all anyPart_all) rfl
  | .becomeRoot .. => pending_of_law execBecomeRoot_next (touchExecBecomeRoot_all anyPart_all) rfl
  | .nodeIdGrant serial sticky role link hops =>
    pending_of_law (execNodeIdGrant_next (serial := serial) (sticky := sticky) (role := role) (link := link) (hops := hops))
      (touchExecNodeIdGrant_all anyPart_all) rfl
  | .joinRetry .. => pending_of_law execJoinRetry_next (touchExecJoinRetry_all anyPart_all) rfl
  | .joinGrant .. => pending_of_law execJoinGrant_next (touchExecJoinGrant_all anyPart_all) rfl
  | .rootLost .. => pending_of_law execRootLost_next (touchExecRootLost_all anyPart_all) rfl
  | .fabricAlone .. => pending_of_law execFabricAlone_next (touchExecFabricAlone_all anyPart_all) rfl
  | .idReservationExpiry .. => pending_of_law execIdReservationExpiry_next (touchExecIdReservationExpiry_all anyPart_all) rfl
  | .topologyReport .. => pending_of_law execTopologyReport_next (touchExecTopologyReport_all anyPart_all) rfl
  | .tableLoad .. => pending_of_law execTableLoad_next (touchExecTableLoad_all anyPart_all) rfl
  | .epochChange .. => pending_of_law execEpochChange_next (touchExecEpochChange_all anyPart_all) rfl
  | .epochDrain => pending_of_law execEpochDrain_next (touchExecEpochDrain_all anyPart_all) rfl
  | .epochSwap => pending_of_law execEpochSwap_next (touchExecEpochSwap_all anyPart_all) rfl
  | .delayExchange _ t1 t2 t3 t4 => pending_of_law (execDelayExchange_next (t1 := t1) (t2 := t2) (t3 := t3) (t4 := t4))
      (touchExecDelayExchange_all anyPart_all) rfl
  | .timeFrameSend .. => pending_of_law execTimeFrameSend_next (touchExecTimeFrameSend_all anyPart_all) rfl
  | .timeFrameReceive .. => pending_of_law execTimeFrameReceive_next (touchExecTimeFrameReceive_all anyPart_all) rfl
  | .launchedActionArrival .. => pending_of_law execLaunchedActionArrival_next (touchExecLaunchedActionArrival_all anyPart_all) rfl
  | .setGroupOffset => pending_of_law execSetGroupOffset_next (touchExecSetGroupOffset_all anyPart_all) rfl
  | .setPhaseOffsets => pending_of_law execSetPhaseOffsets_next (touchExecSetPhaseOffsets_all anyPart_all) rfl
  | .fabricResetCommand .. => pending_of_law execFabricResetCommand_next (touchExecFabricResetCommand_all anyPart_all) rfl
  | .ledgerReport .. => pending_of_law execLedgerReport_next (touchExecLedgerReport_all anyPart_all) rfl
  | .ledgerReportReceive .. => pending_of_law execLedgerReportReceive_next (touchExecLedgerReportReceive_all anyPart_all) rfl
  | .grantAccept .. => pending_of_law execGrantAccept_next (touchExecGrantAccept_all anyPart_all) rfl
  | .allocationRound .. => pending_of_law execAllocationRound_next (touchExecAllocationRound_all anyPart_all) rfl
  | .recordReclaim .. => pending_of_law execRecordReclaim_next (touchExecRecordReclaim_all anyPart_all) rfl
  | .recordAckDrop .. => pending_of_law execRecordAckDrop_next (touchExecRecordAckDrop_all anyPart_all) rfl
  | .quorumLost .. => pending_of_law execQuorumLost_next (touchExecQuorumLost_all anyPart_all) rfl
  | .quorumGained .. => pending_of_law execQuorumGained_next (touchExecQuorumGained_all anyPart_all) rfl
  | .tGenExpiry .. => pending_of_law execTGenExpiry_next (touchExecTGenExpiry_all anyPart_all) rfl
  | .pledgeExpiry => pending_of_law execPledgeExpiry_next (touchExecPledgeExpiry_all anyPart_all) rfl
  | .pledgeNotMet .. => pending_of_law execPledgeNotMet_next (touchExecPledgeNotMet_all anyPart_all) rfl
  | .setLimDyn => pending_of_law execSetLimDyn_next (touchExecSetLimDyn_all anyPart_all) rfl
  | .cut => pending_of_law execCut_next (touchExecCut_all anyPart_all) rfl
  | .limDynWrite .. => pending_of_law execLimDynWrite_next (touchExecLimDynWrite_all anyPart_all) rfl
  | .drawOverLimit .. => pending_of_law execDrawOverLimit_next (touchExecDrawOverLimit_all anyPart_all) rfl
  | .beaconSend => pending_of_law execBeaconSend_next (touchExecBeaconSend_all anyPart_all) rfl
  | .beaconReceive .. => pending_of_law execBeaconReceive_next (touchExecBeaconReceive_all anyPart_all) rfl
  | .beaconMissed => pending_of_law execBeaconMissed_next (touchExecBeaconMissed_all anyPart_all) rfl
  | .coordinatorTakeover => pending_of_law execCoordinatorTakeover_next (touchExecCoordinatorTakeover_all anyPart_all) rfl
  | .successorHandover => pending_of_law execSuccessorHandover_next (touchExecSuccessorHandover_all anyPart_all) rfl
  | .plcFrameSend .. => pending_of_law execPlcFrameSend_next (touchExecPlcFrameSend_all anyPart_all) rfl
  | .plcFrameReceive .. => pending_of_law execPlcFrameReceive_next (touchExecPlcFrameReceive_all anyPart_all) rfl
  | .plcAcknowledgement .. => pending_of_law execPlcAcknowledgement_next (touchExecPlcAcknowledgement_all anyPart_all) rfl
  | .segmentDiscard .. => pending_of_law execSegmentDiscard_next (touchExecSegmentDiscard_all anyPart_all) rfl
  | .associationRequest .. => pending_of_law execAssociationRequest_next (touchExecAssociationRequest_all anyPart_all) rfl
  | .stationRemove .. => pending_of_law execStationRemove_next (touchExecStationRemove_all anyPart_all) rfl
  | .sounding .. => pending_of_law execSounding_next (touchExecSounding_all anyPart_all) rfl
  | .toneMapIssue .. => pending_of_law execToneMapIssue_next (touchExecToneMapIssue_all anyPart_all) rfl
  | .toneMapRefresh .. => pending_of_law execToneMapRefresh_next (touchExecToneMapRefresh_all anyPart_all) rfl
  | .linkDegraded .. => pending_of_law execLinkDegraded_next (touchExecLinkDegraded_all anyPart_all) rfl
  | .ranging .. => pending_of_law execRanging_next (touchExecRanging_all anyPart_all) rfl
  | .couplerAbsent .. => pending_of_law execCouplerAbsent_next (touchExecCouplerAbsent_all anyPart_all) rfl
  | .couplerPresent => pending_of_law execCouplerPresent_next (touchExecCouplerPresent_all anyPart_all) rfl
  | .metrologySample .. => pending_of_law execMetrologySample_next (touchExecMetrologySample_all anyPart_all) rfl
  | .channelStuck .. => pending_of_law execChannelStuck_next (touchExecChannelStuck_all anyPart_all) rfl
  | .channelOverRange .. => pending_of_law execChannelOverRange_next (touchExecChannelOverRange_all anyPart_all) rfl
  | .channelFaultClear .. => pending_of_law execChannelFaultClear_next (touchExecChannelFaultClear_all anyPart_all) rfl
  | .pointBlockPublish .. => pending_of_law execPointBlockPublish_next (touchExecPointBlockPublish_all anyPart_all) rfl
  | .packCurrentRequest .. => pending_of_law execPackCurrentRequest_next (touchExecPackCurrentRequest_all anyPart_all) rfl
  | .cableTemperatureUpdate .. => pending_of_law execCableTemperatureUpdate_next (touchExecCableTemperatureUpdate_all anyPart_all) rfl
  | .cableTFallback .. => pending_of_law execCableTFallback_next (touchExecCableTFallback_all anyPart_all) rfl
  | .cableTReturn .. => pending_of_law execCableTReturn_next (touchExecCableTReturn_all anyPart_all) rfl
  | .pointEnable .. => pending_of_law execPointEnable_next (touchExecPointEnable_all anyPart_all) rfl
  | .snapshotTake .. => pending_of_law execSnapshotTake_next (touchExecSnapshotTake_all anyPart_all) rfl
  | .snapshotRelease .. => pending_of_law execSnapshotRelease_next (touchExecSnapshotRelease_all anyPart_all) rfl
  | .snapshotAction => pending_of_law execSnapshotAction_next (touchExecSnapshotAction_all anyPart_all) rfl
  | .snapshotReleaseAction => pending_of_law execSnapshotReleaseAction_next (touchExecSnapshotReleaseAction_all anyPart_all) rfl
  | .peakClear .. => pending_of_law execPeakClear_next (touchExecPeakClear_all anyPart_all) rfl
  | .overCurrent .. => pending_of_law execOverCurrent_next (touchExecOverCurrent_all anyPart_all) rfl
  | .overCurrentClear .. => pending_of_law execOverCurrentClear_next (touchExecOverCurrentClear_all anyPart_all) rfl
  | .pulseEmit .. => pending_of_law execPulseEmit_next (touchExecPulseEmit_all anyPart_all) rfl
  | .pulseEnd _ t => pending_of_law (execPulseEnd_next (t0 := t)) (touchExecPulseEnd_all anyPart_all) rfl
  | .metrologyCommit .. => pending_of_law execMetrologyCommit_next (touchExecMetrologyCommit_all anyPart_all) rfl
  | .accumulationStart .. => pending_of_law execAccumulationStart_next (touchExecAccumulationStart_all anyPart_all) rfl
  | .sealSet .. => pending_of_law execSealSet_next (touchExecSealSet_all anyPart_all) rfl
  | .billingTick => pending_of_law execBillingTick_next (touchExecBillingTick_all anyPart_all) rfl
  | .rebase .. => pending_of_law execRebase_next (touchExecRebase_all anyPart_all) rfl
  | .calendarActivate .. => pending_of_law execCalendarActivate_next (touchExecCalendarActivate_all anyPart_all) rfl
  | .periodCloseCommand .. => pending_of_law execPeriodCloseCommand_next (touchExecPeriodCloseCommand_all anyPart_all) rfl
  | .periodCloseAction => pending_of_law execPeriodCloseAction_next (touchExecPeriodCloseAction_all anyPart_all) rfl
  | .sessionOpen .. => pending_of_law execSessionOpen_next (touchExecSessionOpen_all anyPart_all) rfl
  | .sessionClose .. => pending_of_law execSessionClose_next (touchExecSessionClose_all anyPart_all) rfl
  | .sessionAck .. => pending_of_law execSessionAck_next (touchExecSessionAck_all anyPart_all) rfl
  | .recordSign .. => pending_of_law execRecordSign_next (touchExecRecordSign_all anyPart_all) rfl
  | .tamperLoopSample .. => pending_of_law execTamperLoopSample_next (touchExecTamperLoopSample_all anyPart_all) rfl
  | .tamperQueueMove => pending_of_law execTamperQueueMove_next (touchExecTamperQueueMove_all anyPart_all) rfl
  | .tamperAck .. => pending_of_law execTamperAck_next (touchExecTamperAck_all anyPart_all) rfl
  | .displayFrame => pending_of_law execDisplayFrame_next (touchExecDisplayFrame_all anyPart_all) rfl
  | .displayAnswer .. => pending_of_law execDisplayAnswer_next (touchExecDisplayAnswer_all anyPart_all) rfl
  | .pageAdvance .. => pending_of_law execPageAdvance_next (touchExecPageAdvance_all anyPart_all) rfl
  | .displayButtonShort => pending_of_law execDisplayButtonShort_next (touchExecDisplayButtonShort_all anyPart_all) rfl
  | .displayButtonLong => pending_of_law execDisplayButtonLong_next (touchExecDisplayButtonLong_all anyPart_all) rfl
  | .manualAdvanceResume .. => pending_of_law execManualAdvanceResume_next (touchExecManualAdvanceResume_all anyPart_all) rfl
  | .interlockOpen .. => pending_of_law execInterlockOpen_next (touchExecInterlockOpen_all anyPart_all) rfl
  | .proximityChange .. => pending_of_law execProximityChange_next (touchExecProximityChange_all anyPart_all) rfl
  | .plugIn .. => pending_of_law execPlugIn_next (touchExecPlugIn_all anyPart_all) rfl
  | .sdpRequest .. => pending_of_law execSdpRequest_next (touchExecSdpRequest_all anyPart_all) rfl
  | .tlsSessionEstablished .. => pending_of_law execTlsSessionEstablished_next (touchExecTlsSessionEstablished_all anyPart_all) rfl
  | .plugTimeout .. => pending_of_law execPlugTimeout_next (touchExecPlugTimeout_all anyPart_all) rfl
  | .supportedAppProtocol .. => pending_of_law execSupportedAppProtocol_next (touchExecSupportedAppProtocol_all anyPart_all) rfl
  | .sessionSetup .. => pending_of_law execSessionSetup_next (touchExecSessionSetup_all anyPart_all) rfl
  | .authorizationSetup .. => pending_of_law execAuthorizationSetup_next (touchExecAuthorizationSetup_all anyPart_all) rfl
  | .authorization .. => pending_of_law execAuthorization_next (touchExecAuthorization_all anyPart_all) rfl
  | .serviceDiscovery .. => pending_of_law execServiceDiscovery_next (touchExecServiceDiscovery_all anyPart_all) rfl
  | .serviceDetail .. => pending_of_law execServiceDetail_next (touchExecServiceDetail_all anyPart_all) rfl
  | .serviceSelection .. => pending_of_law execServiceSelection_next (touchExecServiceSelection_all anyPart_all) rfl
  | .dcChargeParameterDiscovery .. => pending_of_law execDcChargeParameterDiscovery_next (touchExecDcChargeParameterDiscovery_all anyPart_all) rfl
  | .scheduleExchange .. => pending_of_law execScheduleExchange_next (touchExecScheduleExchange_all anyPart_all) rfl
  | .dcCableCheck .. => pending_of_law execDcCableCheck_next (touchExecDcCableCheck_all anyPart_all) rfl
  | .dcPlusClose .. => pending_of_law execDcPlusClose_next (touchExecDcPlusClose_all anyPart_all) rfl
  | .cableCheckStart .. => pending_of_law execCableCheckStart_next (touchExecCableCheckStart_all anyPart_all) rfl
  | .cableCheckFinish .. => pending_of_law execCableCheckFinish_next (touchExecCableCheckFinish_all anyPart_all) rfl
  | .dcPreCharge .. => pending_of_law execDcPreCharge_next (touchExecDcPreCharge_all anyPart_all) rfl
  | .powerDeliveryStart .. => pending_of_law execPowerDeliveryStart_next (touchExecPowerDeliveryStart_all anyPart_all) rfl
  | .powerDeliveryStop .. => pending_of_law execPowerDeliveryStop_next (touchExecPowerDeliveryStop_all anyPart_all) rfl
  | .standby .. => pending_of_law execStandby_next (touchExecStandby_all anyPart_all) rfl
  | .dcChargeLoop .. => pending_of_law execDcChargeLoop_next (touchExecDcChargeLoop_all anyPart_all) rfl
  | .dcWeldingDetection .. => pending_of_law execDcWeldingDetection_next (touchExecDcWeldingDetection_all anyPart_all) rfl
  | .sessionStop .. => pending_of_law execSessionStop_next (touchExecSessionStop_all anyPart_all) rfl
  | .fastStop .. => pending_of_law execFastStop_next (touchExecFastStop_all anyPart_all) rfl
  | .authWrite .. => pending_of_law execAuthWrite_next (touchExecAuthWrite_all anyPart_all) rfl
  | .authTimeout .. => pending_of_law execAuthTimeout_next (touchExecAuthTimeout_all anyPart_all) rfl
  | .preTimeout .. => pending_of_law execPreTimeout_next (touchExecPreTimeout_all anyPart_all) rfl
  | .currentDecayed .. => pending_of_law execCurrentDecayed_next (touchExecCurrentDecayed_all anyPart_all) rfl
  | .decayTimeout .. => pending_of_law execDecayTimeout_next (touchExecDecayTimeout_all anyPart_all) rfl
  | .dcMinusOpen .. => pending_of_law execDcMinusOpen_next (touchExecDcMinusOpen_all anyPart_all) rfl
  | .weldCheck .. => pending_of_law execWeldCheck_next (touchExecWeldCheck_all anyPart_all) rfl
  | .weldCheckComplete .. => pending_of_law execWeldCheckComplete_next (touchExecWeldCheckComplete_all anyPart_all) rfl
  | .unplug .. => pending_of_law execUnplug_next (touchExecUnplug_all anyPart_all) rfl
  | .stopCommand .. => pending_of_law execStopCommand_next (touchExecStopCommand_all anyPart_all) rfl
  | .faultClear .. => pending_of_law execFaultClear_next (touchExecFaultClear_all anyPart_all) rfl
  | .launchedStop => pending_of_law execLaunchedStop_next (touchExecLaunchedStop_all anyPart_all) rfl
  | .offerUpdate .. => pending_of_law execOfferUpdate_next (touchExecOfferUpdate_all anyPart_all) rfl
  | .limitRampStep .. => pending_of_law execLimitRampStep_next (touchExecLimitRampStep_all anyPart_all) rfl
  | .needFrame .. => pending_of_law execNeedFrame_next (touchExecNeedFrame_all anyPart_all) rfl
  | .needFrameReceive .. => pending_of_law execNeedFrameReceive_next (touchExecNeedFrameReceive_all anyPart_all) rfl
  | .allowanceFrame .. => pending_of_law execAllowanceFrame_next (touchExecAllowanceFrame_all anyPart_all) rfl
  | .allowanceFrameReceive .. => pending_of_law execAllowanceFrameReceive_next (touchExecAllowanceFrameReceive_all anyPart_all) rfl
  | .needFrameLoss .. => pending_of_law execNeedFrameLoss_next (touchExecNeedFrameLoss_all anyPart_all) rfl
  | .feedLost .. => pending_of_law execFeedLost_next (touchExecFeedLost_all anyPart_all) rfl
  | .imdUpdate .. => pending_of_law execImdUpdate_next (touchExecImdUpdate_all anyPart_all) rfl
  | .imdTimeout .. => pending_of_law execImdTimeout_next (touchExecImdTimeout_all anyPart_all) rfl
  | .contactorFault .. => pending_of_law execContactorFault_next (touchExecContactorFault_all anyPart_all) rfl
  | .linkLost .. => pending_of_law execLinkLost_next (touchExecLinkLost_all anyPart_all) rfl
  | .sensorSample .. => pending_of_law execSensorSample_next (touchExecSensorSample_all anyPart_all) rfl
  | .sensorFailed .. => pending_of_law execSensorFailed_next (touchExecSensorFailed_all anyPart_all) rfl
  | .sensorRecover .. => pending_of_law execSensorRecover_next (touchExecSensorRecover_all anyPart_all) rfl
  | .sensorSuspect .. => pending_of_law execSensorSuspect_next (touchExecSensorSuspect_all anyPart_all) rfl
  | .suspectRecover .. => pending_of_law execSuspectRecover_next (touchExecSuspectRecover_all anyPart_all) rfl
  | .snowlineExit .. => pending_of_law execSnowlineExit_next (touchExecSnowlineExit_all anyPart_all) rfl
  | .warnLimit .. => pending_of_law execWarnLimit_next (touchExecWarnLimit_all anyPart_all) rfl
  | .zoneAsk .. => pending_of_law execZoneAsk_next (touchExecZoneAsk_all anyPart_all) rfl
  | .zoneEnforce .. => pending_of_law execZoneEnforce_next (touchExecZoneEnforce_all anyPart_all) rfl
  | .zoneShutdown .. => pending_of_law execZoneShutdown_next (touchExecZoneShutdown_all anyPart_all) rfl
  | .zoneRelease .. => pending_of_law execZoneRelease_next (touchExecZoneRelease_all anyPart_all) rfl
  | .shutdownRelease .. => pending_of_law execShutdownRelease_next (touchExecShutdownRelease_all anyPart_all) rfl
  | .zoneClr .. => pending_of_law execZoneClr_next (touchExecZoneClr_all anyPart_all) rfl
  | .zoneEnable .. => pending_of_law execZoneEnable_next (touchExecZoneEnable_all anyPart_all) rfl
  | .cableModelUpdate .. => pending_of_law execCableModelUpdate_next (touchExecCableModelUpdate_all anyPart_all) rfl
  | .modelSuspect .. => pending_of_law execModelSuspect_next (touchExecModelSuspect_all anyPart_all) rfl
  | .internalSensorSample .. => pending_of_law execInternalSensorSample_next (touchExecInternalSensorSample_all anyPart_all) rfl
  | .internalOverTemperature .. => pending_of_law execInternalOverTemperature_next (touchExecInternalOverTemperature_all anyPart_all) rfl
  | .thermalRestart .. => pending_of_law execThermalRestart_next (touchExecThermalRestart_all anyPart_all) rfl
  | .circuitRun .. => pending_of_law execCircuitRun_next (touchExecCircuitRun_all anyPart_all) rfl
  | .circuitStop .. => pending_of_law execCircuitStop_next (touchExecCircuitStop_all anyPart_all) rfl
  | .flowTimeout .. => pending_of_law execFlowTimeout_next (touchExecFlowTimeout_all anyPart_all) rfl
  | .flowFault .. => pending_of_law execFlowFault_next (touchExecFlowFault_all anyPart_all) rfl
  | .flowRecovered .. => pending_of_law execFlowRecovered_next (touchExecFlowRecovered_all anyPart_all) rfl
  | .heaterOn .. => pending_of_law execHeaterOn_next (touchExecHeaterOn_all anyPart_all) rfl
  | .heaterOff .. => pending_of_law execHeaterOff_next (touchExecHeaterOff_all anyPart_all) rfl
  | .csWake => pending_of_law execCsWake_next (touchExecCsWake_all anyPart_all) rfl
  | .discovery .. => pending_of_law execDiscovery_next (touchExecDiscovery_all anyPart_all) rfl
  | .discoveryAttemptEnd .. => pending_of_law execDiscoveryAttemptEnd_next (touchExecDiscoveryAttemptEnd_all anyPart_all) rfl
  | .sweepSync => pending_of_law execSweepSync_next (touchExecSweepSync_all anyPart_all) rfl
  | .keepaliveSync .. => pending_of_law execKeepaliveSync_next (touchExecKeepaliveSync_all anyPart_all) rfl
  | .recordReceive .. => pending_of_law execRecordReceive_next (touchExecRecordReceive_all anyPart_all) rfl
  | .collectionEnd => pending_of_law execCollectionEnd_next (touchExecCollectionEnd_all anyPart_all) rfl
  | .recollect => pending_of_law execRecollect_next (touchExecRecollect_all anyPart_all) rfl
  | .recollectEnd => pending_of_law execRecollectEnd_next (touchExecRecollectEnd_all anyPart_all) rfl
  | .healProbe .. => pending_of_law execHealProbe_next (touchExecHealProbe_all anyPart_all) rfl
  | .orderSend .. => pending_of_law execOrderSend_next (touchExecOrderSend_all anyPart_all) rfl
  | .sweepStart => pending_of_law execSweepStart_next (touchExecSweepStart_all anyPart_all) rfl
  | .sweepStop => pending_of_law execSweepStop_next (touchExecSweepStop_all anyPart_all) rfl
  | .cellQuery .. => pending_of_law execCellQuery_next (touchExecCellQuery_all anyPart_all) rfl
  | .ringLost => pending_of_law execRingLost_next (touchExecRingLost_all anyPart_all) rfl
  | .csDisable => pending_of_law execCsDisable_next (touchExecCsDisable_all anyPart_all) rfl
  | .channelOn .. => pending_of_law execChannelOn_next (touchExecChannelOn_all anyPart_all) rfl
  | .channelOff .. => pending_of_law execChannelOff_next (touchExecChannelOff_all anyPart_all) rfl
  | .overCurrentTrip .. => pending_of_law execOverCurrentTrip_next (touchExecOverCurrentTrip_all anyPart_all) rfl
  | .thermalShutdown .. => pending_of_law execThermalShutdown_next (touchExecThermalShutdown_all anyPart_all) rfl
  | .automaticRestart .. => pending_of_law execAutomaticRestart_next (touchExecAutomaticRestart_all anyPart_all) rfl
  | .restartWindow .. => pending_of_law execRestartWindow_next (touchExecRestartWindow_all anyPart_all) rfl
  | .bankUndervoltage .. => pending_of_law execBankUndervoltage_next (touchExecBankUndervoltage_all anyPart_all) rfl
  | .bankUndervoltageExit .. => pending_of_law execBankUndervoltageExit_next (touchExecBankUndervoltageExit_all anyPart_all) rfl
  | .latchClear .. => pending_of_law execLatchClear_next (touchExecLatchClear_all anyPart_all) rfl
  | .switchChannels => pending_of_law execSwitchChannels_next (touchExecSwitchChannels_all anyPart_all) rfl
  | .openLoad .. => pending_of_law execOpenLoad_next (touchExecOpenLoad_all anyPart_all) rfl
  | .canPortEnable .. => pending_of_law execCanPortEnable_next (touchExecCanPortEnable_all anyPart_all) rfl
  | .canStart .. => pending_of_law execCanStart_next (touchExecCanStart_all anyPart_all) rfl
  | .canInit .. => pending_of_law execCanInit_next (touchExecCanInit_all anyPart_all) rfl
  | .canSync .. => pending_of_law execCanSync_next (touchExecCanSync_all anyPart_all) rfl
  | .canFrameReceive .. => pending_of_law execCanFrameReceive_next (touchExecCanFrameReceive_all anyPart_all) rfl
  | .bufferLock .. => pending_of_law execBufferLock_next (touchExecBufferLock_all anyPart_all) rfl
  | .bufferReadComplete .. => pending_of_law execBufferReadComplete_next (touchExecBufferReadComplete_all anyPart_all) rfl
  | .lockTimeout .. => pending_of_law execLockTimeout_next (touchExecLockTimeout_all anyPart_all) rfl
  | .unlock .. => pending_of_law execUnlock_next (touchExecUnlock_all anyPart_all) rfl
  | .transmitRequest .. => pending_of_law execTransmitRequest_next (touchExecTransmitRequest_all anyPart_all) rfl
  | .transmitComplete .. => pending_of_law execTransmitComplete_next (touchExecTransmitComplete_all anyPart_all) rfl
  | .transmitFail .. => pending_of_law execTransmitFail_next (touchExecTransmitFail_all anyPart_all) rfl
  | .abort .. => pending_of_law execAbort_next (touchExecAbort_all anyPart_all) rfl
  | .busOff .. => pending_of_law execBusOff_next (touchExecBusOff_all anyPart_all) rfl
  | .busOffWait .. => pending_of_law execBusOffWait_next (touchExecBusOffWait_all anyPart_all) rfl
  | .recover .. => pending_of_law execRecover_next (touchExecRecover_all anyPart_all) rfl
  | .busOffRecovered .. => pending_of_law execBusOffRecovered_next (touchExecBusOffRecovered_all anyPart_all) rfl
  | .errorPassive _ tec _ => pending_of_law (execErrorPassive_next (tec := tec)) (touchExecErrorPassive_all anyPart_all) rfl
  | .errorActive _ tec _ => pending_of_law (execErrorActive_next (tec := tec)) (touchExecErrorActive_all anyPart_all) rfl
  | .boRunClear .. => pending_of_law execBoRunClear_next (touchExecBoRunClear_all anyPart_all) rfl
  | .stageWrite .. => pending_of_law execStageWrite_next (touchExecStageWrite_all anyPart_all) rfl
  | .stageTimeout .. => pending_of_law execStageTimeout_next (touchExecStageTimeout_all anyPart_all) rfl
  | .loadKey _ _ _ _ _ _ _ _ plain => pending_of_law (execLoadKey_next (_plain := plain)) (touchExecLoadKey_all anyPart_all) rfl
  | .loadCertificate .. => pending_of_law execLoadCertificate_next (touchExecLoadCertificate_all anyPart_all) rfl
  | .generate _ _ type _ _ _ => pending_of_law (execGenerate_next (type := type)) (touchExecGenerate_all anyPart_all) rfl
  | .erase .. => pending_of_law execErase_next (touchExecErase_all anyPart_all) rfl
  | .derive .. => pending_of_law execDerive_next (touchExecDerive_all anyPart_all) rfl
  | .reservoirLow .. => pending_of_law execReservoirLow_next (touchExecReservoirLow_all anyPart_all) rfl
  | .eventRecord => pending_of_law execEventRecord_next (touchExecEventRecord_all anyPart_all) rfl
  | .logClear .. => pending_of_law execLogClear_next (touchExecLogClear_all anyPart_all) rfl
  | .logReadLoad .. => pending_of_law execLogReadLoad_next (touchExecLogReadLoad_all anyPart_all) rfl
  | .logReadNext .. => pending_of_law execLogReadNext_next (touchExecLogReadNext_all anyPart_all) rfl
  | .logSearch .. => pending_of_law execLogSearch_next (touchExecLogSearch_all anyPart_all) rfl
  | .logCrcCheck .. => pending_of_law execLogCrcCheck_next (touchExecLogCrcCheck_all anyPart_all) rfl
  | .siteMark => pending_of_law execSiteMark_next (touchExecSiteMark_all anyPart_all) rfl
  | .eStop .. => pending_of_law execEStop_next (touchExecEStop_all anyPart_all) rfl
  | .soReq .. => pending_of_law execSoReq_next (touchExecSoReq_all anyPart_all) rfl
  | .contactorOpen .. => pending_of_law execContactorOpen_next (touchExecContactorOpen_all anyPart_all) rfl
  | .safeOffDcMinusOpen _ _ t => pending_of_law (execSafeOffDcMinusOpen_next (t0 := t)) (touchExecSafeOffDcMinusOpen_all anyPart_all) rfl
  | .connectorHeld .. => pending_of_law execConnectorHeld_next (touchExecConnectorHeld_all anyPart_all) rfl
  | .safeOffClear .. => pending_of_law execSafeOffClear_next (touchExecSafeOffClear_all anyPart_all) rfl
  | .estopDiscrepancy .. => pending_of_law execEstopDiscrepancy_next (touchExecEstopDiscrepancy_all anyPart_all) rfl
  | .watchdogKick .. => pending_of_law execWatchdogKick_next (touchExecWatchdogKick_all anyPart_all) rfl
  | .watchdogExpiry .. => pending_of_law execWatchdogExpiry_next (touchExecWatchdogExpiry_all anyPart_all) rfl
  | .lockstepError .. => pending_of_law execLockstepError_next (touchExecLockstepError_all anyPart_all) rfl
  | .supplyFailContactorOpen .. => pending_of_law execSupplyFailContactorOpen_next (touchExecSupplyFailContactorOpen_all anyPart_all) rfl
  | .supplyFailDcMinusOpen .. => pending_of_law execSupplyFailDcMinusOpen_next (touchExecSupplyFailDcMinusOpen_all anyPart_all) rfl
  | .contactorNotOpened .. => pending_of_law execContactorNotOpened_next (touchExecContactorNotOpened_all anyPart_all) rfl
  | .flashProgram .. => pending_of_law execFlashProgram_next (touchExecFlashProgram_all anyPart_all) rfl
  | .flashErase .. => pending_of_law execFlashErase_next (touchExecFlashErase_all anyPart_all) rfl
  | .flashDone _ => pending_of_law execFlashDone_next (touchExecFlashDone_all anyPart_all) rfl
  | .firmwareSwitch .. => pending_of_law execFirmwareSwitch_next (touchExecFirmwareSwitch_all anyPart_all) rfl
  | .metrologyFirmwareSwitch .. => pending_of_law execMetrologyFirmwareSwitch_next (touchExecMetrologyFirmwareSwitch_all anyPart_all) rfl
  | .firmwareRevert .. => pending_of_law execFirmwareRevert_next (touchExecFirmwareRevert_all anyPart_all) rfl
  | .sectionReload .. => pending_of_law execSectionReload_next (touchExecSectionReload_all anyPart_all) rfl
  | .sectionApply => pending_of_law execSectionApply_next (touchExecSectionApply_all anyPart_all) rfl
  | .packageSubmit .. => pending_of_law execPackageSubmit_next (touchExecPackageSubmit_all anyPart_all) rfl
  | .packageApply => pending_of_law execPackageApply_next (touchExecPackageApply_all anyPart_all) rfl
  | .recalibration .. => pending_of_law execRecalibration_next (touchExecRecalibration_all anyPart_all) rfl
  | .recalibrationDone .. => pending_of_law execRecalibrationDone_next (touchExecRecalibrationDone_all anyPart_all) rfl
  | .gatewayRelay .. => pending_of_law execGatewayRelay_next (touchExecGatewayRelay_all anyPart_all) rfl
  | .relayEntryExpiry .. => pending_of_law execRelayEntryExpiry_next (touchExecRelayEntryExpiry_all anyPart_all) rfl
  | .handshake .. => pending_of_law execHandshake_next (touchExecHandshake_all anyPart_all) rfl
  | .handshakeTimeout .. => pending_of_law execHandshakeTimeout_next (touchExecHandshakeTimeout_all anyPart_all) rfl
  | .sessionIdleClose .. => pending_of_law execSessionIdleClose_next (touchExecSessionIdleClose_all anyPart_all) rfl
  | .read .. => pending_of_law execRead_next (touchExecRead_all anyPart_all) rfl
  | .write .. => pending_of_law execWrite_next (touchExecWrite_all anyPart_all) rfl
  | .blockRead .. => pending_of_law execBlockRead_next (touchExecBlockRead_all anyPart_all) rfl
  | .blockWrite .. => pending_of_law execBlockWrite_next (touchExecBlockWrite_all anyPart_all) rfl
  | .subscribe .. => pending_of_law execSubscribe_next (touchExecSubscribe_all anyPart_all) rfl
  | .unsubscribe .. => pending_of_law execUnsubscribe_next (touchExecUnsubscribe_all anyPart_all) rfl
  | .notify .. => pending_of_law execNotify_next (touchExecNotify_all anyPart_all) rfl
  | .events .. => pending_of_law execEvents_next (touchExecEvents_all anyPart_all) rfl
  | .records .. => pending_of_law execRecords_next (touchExecRecords_all anyPart_all) rfl
  | .locate .. => pending_of_law execLocate_next (touchExecLocate_all anyPart_all) rfl
  | .launch .. => pending_of_law execLaunch_next (touchExecLaunch_all anyPart_all) rfl
  | .lresult .. => pending_of_law execLresult_next (touchExecLresult_all anyPart_all) rfl
  | .reset .. => pending_of_law execReset_next (touchExecReset_all anyPart_all) rfl
  | .time .. => pending_of_law execTime_next (touchExecTime_all anyPart_all) rfl
  | .ping .. => pending_of_law execPing_next (touchExecPing_all anyPart_all) rfl
  | .close .. => pending_of_law execClose_next (touchExecClose_all anyPart_all) rfl
  | .ptpSync .. => pending_of_law execPtpSync_next (touchExecPtpSync_all anyPart_all) rfl
  | .ptpLost .. => pending_of_law execPtpLost_next (touchExecPtpLost_all anyPart_all) rfl
  | .ntpPoll .. => pending_of_law execNtpPoll_next (touchExecNtpPoll_all anyPart_all) rfl
  | .ntpResponse .. => pending_of_law execNtpResponse_next (touchExecNtpResponse_all anyPart_all) rfl
  | .ntpLost => pending_of_law execNtpLost_next (touchExecNtpLost_all anyPart_all) rfl
  | .tmxSelect .. => pending_of_law execTmxSelect_next (touchExecTmxSelect_all anyPart_all) rfl
  | .rstNRelease .. => pending_of_law execRstNRelease_next (touchExecRstNRelease_all anyPart_all) rfl
  | .estopRelease .. => pending_of_law execEstopRelease_next (touchExecEstopRelease_all anyPart_all) rfl
  | .epochInstall .. => pending_of_law execEpochInstall_next (touchExecEpochInstall_all anyPart_all) rfl
  | .scheduleRenegotiation .. => pending_of_law execScheduleRenegotiation_next (touchExecScheduleRenegotiation_all anyPart_all) rfl
  | .vbatRestored .. => pending_of_law execVbatRestored_next (touchExecVbatRestored_all anyPart_all) rfl
  | .reservoirRecharged .. => pending_of_law execReservoirRecharged_next (touchExecReservoirRecharged_all anyPart_all) rfl

theorem step_of_pending {s : State} {c : Instr} {l : List Instr} (h : s.pending = c :: l) : step s = exec c { s with pending := l } := by
  simp [step, h]

/-- Settles O3: by the laws of the commands, none of which names the queue. -/
theorem queueUntouched : Obligations.QueueUntouched := by
  refine ⟨fun c s => exec_pending c, fun c l s h => ?_⟩
  rw [step_of_pending h]
  exact exec_pending c

/-- Settles O5: by the laws of the commands and of the tick, each of which keeps the canonical form. -/
theorem stepKeepsCanonical : Obligations.StepKeepsCanonical := by
  intro s t hs hstep
  obtain ⟨u, hu, hkeeps⟩ := step_next anyPart_all s
  cases hu.symm.trans hstep
  exact hkeeps.canon hs

end Sys2Proof.Proofs
end

section
/-! PROOFS. What every command leaves unchanged. Each law of Laws/ names the parts that its command may change; what remains is that the statement's
list names them too, which holds by evaluating both. -/

namespace Sys2Proof.Proofs

open Sys2Proof.Machine Sys2Proof.Laws

/-! ### From the law of a command to its frame -/

/-- The copy of a field, at its indices, that a list names. -/
def instanceOf (l : List Part) (f : Field) : Option (Nat × Nat) :=
  l.findSome? fun
    | .inst g i j => if g == f then some (i, j) else none
    | _ => none

/-- Whether a list names the field. -/
def namesField (l : List Part) (f : Field) : Bool :=
  l.any fun
    | .reg g => g == f
    | _ => false

/-- The parts that a list names, by a test that evaluates where the instances of the list are at variable indices. -/
def named (l : List Part) : Part → Prop
  | .reg f => if namesField l f then True else False
  | .inst f i j =>
    if namesField l f then True else
      match instanceOf l f with
      | some (k, m) => k = i ∧ m = j
      | none => False
  | p => if l.contains p then True else False

/-- What `named` asks of each part, asked of the part itself: it holds of every part, and equals `named` where the list names what a law does. -/
def namesItself (l : List Part) : Part → Prop
  | .inst f i j =>
    if namesField l f then True else
      match instanceOf l f with
      | some _ => i = i ∧ j = j
      | none => True
  | _ => True

theorem namesItself_all (l : List Part) (p : Part) : namesItself l p := by
  cases p
  case inst f i j =>
    simp only [namesItself]
    split
    · trivial
    · split <;> simp
  all_goals trivial

theorem of_ite_true {b : Bool} (h : if b then True else False) : b = true := by
  cases b
  · exact h.elim
  · rfl

theorem instanceOf_mem {l : List Part} {f : Field} {i j : Nat} (h : instanceOf l f = some (i, j)) : .inst f i j ∈ l := by
  obtain ⟨p, hp, hfound⟩ := List.exists_of_findSome?_eq_some h
  cases p <;> simp_all

theorem mem_of_namesField {l : List Part} {f : Field} (h : namesField l f = true) : .reg f ∈ l := by
  obtain ⟨p, hp, hnames⟩ := List.any_eq_true.mp h
  cases p <;> simp_all

theorem within_of_field {l : List Part} {f : Field} {i j : Nat} (h : .reg f ∈ l) : within l (.inst f i j) :=
  .inr h

theorem within_of_named {l : List Part} : ∀ p, named l p → within l p := by
  intro p h
  cases p
  case reg f => exact within_of_mem (mem_of_namesField (of_ite_true h))
  case inst f i j =>
    simp only [named] at h
    split at h
    · exact within_of_field (mem_of_namesField ‹_›)
    · split at h
      · obtain ⟨rfl, rfl⟩ := h
        exact within_of_mem (instanceOf_mem ‹_›)
      · exact h.elim
  all_goals exact within_of_mem (List.contains_iff_mem.mp (of_ite_true h))

/-- The other parts that a list names which holds the whole register file. -/
def namedBesideRegisters (l : List Part) : Part → Prop
  | .reg _ => True
  | .inst _ _ _ => True
  | p => if l.contains p then True else False

theorem unchanged_of_namedBesideRegisters {l : List Part} {s t : State} (hregs : .regs ∈ l) (h : Unchanged (namedBesideRegisters l) s t) :
    Unchanged (within l) s t := by
  have mem {p : Part} (hp : if l.contains p then True else False) : within l p := within_of_mem (List.contains_iff_mem.mp (of_ite_true hp))
  cases h
  constructor
  case bits => exact fun hn => absurd hregs hn
  all_goals
    refine Or.imp_left mem ?_
    assumption

theorem frame_of_law {c : Instr} {s : State} {l : List Part} {names : (Part → Prop) → Prop}
    (law : ∀ {A}, names A → ∃ t, exec c s = .next t ∧ Keeps A s t) (all : names (namesItself l))
    (hlist : names (namesItself l) = names (named l)) : ∃ t, exec c s = .next t ∧ Unchanged (within l) s t := by
  obtain ⟨t, ht, hkeeps⟩ := law (hlist ▸ all)
  exact ⟨t, ht, (hkeeps.mono within_of_named).same⟩

/-- The frame of a command whose list holds the whole register file. -/
theorem frame_of_law_beside_registers {c : Instr} {s : State} {l : List Part} {names : (Part → Prop) → Prop}
    (law : ∀ {A}, names A → ∃ t, exec c s = .next t ∧ Keeps A s t) (all : names anyPart) (hregs : .regs ∈ l)
    (hlist : names anyPart = names (namedBesideRegisters l)) : ∃ t, exec c s = .next t ∧ Unchanged (within l) s t := by
  obtain ⟨t, ht, hkeeps⟩ := law (hlist ▸ all)
  exact ⟨t, ht, unchanged_of_namedBesideRegisters hregs hkeeps.same⟩

/-- The two directions that the list of a lane's loss names stand at different indices of one field, which `named` does not hold apart. -/
theorem laneDown_frame (s : State) (n cause m : Nat) : ∃ t, exec (.laneDown n cause m) s = .next t ∧ Unchanged (within (routeParts ++ ([.inst
    R.FAB_LANE_STAT.DIR 8 0, .inst R.FAB_LANE_STAT.DIR n 0, .inst R.FAB_LANE_STAT.DOWN_SEEN n 0, .inst R.FAB_LANE_STAT.LOS n 0, .inst
    R.FAB_LANE_STAT.STATE n 0, .reg R.FAB_LANE_STAT.TPARENT, .reg R.PLC_CNT1.DROP] : List Part))) s t := by
  refine (execLaneDown_next ?_).imp fun t ⟨ht, hkeeps⟩ => ⟨ht, hkeeps.same⟩
  repeat' first
    | (refine within_of_mem ?_; repeat constructor)
    | intro _
    | constructor

/-! ### The families of commands -/

/-- Settles O33: for each command its law names the parts that it may change, and the list of the clause names all of them. -/
theorem timebaseAndPhaseFrame : Obligations.TimebaseAndPhaseFrame :=
  ⟨fun _ _ _ _ _ => frame_of_law execTbAcquireLock_next (touchExecTbAcquireLock_all (namesItself_all _)) rfl,
   fun _ _ => frame_of_law execTbAcquireTimeout_next (touchExecTbAcquireTimeout_all (namesItself_all _)) rfl,
   fun _ _ _ _ _ => frame_of_law execTbSourceLost_next (touchExecTbSourceLost_all (namesItself_all _)) rfl,
   fun _ _ => frame_of_law execGridPhaseJump_next (touchExecGridPhaseJump_all (namesItself_all _)) rfl,
   fun _ _ => frame_of_law execLineFault_next (touchExecLineFault_all (namesItself_all _)) rfl,
   fun _ _ => frame_of_law execLineFaultClear_next (touchExecLineFaultClear_all (namesItself_all _)) rfl,
   fun _ _ _ => frame_of_law execTbSlewEntry_next (touchExecTbSlewEntry_all (namesItself_all _)) rfl,
   fun _ _ _ _ => frame_of_law execTbSlewLocked_next (touchExecTbSlewLocked_all (namesItself_all _)) rfl,
   fun _ _ _ _ _ => frame_of_law execTbSourceTaken_next (touchExecTbSourceTaken_all (namesItself_all _)) rfl,
   fun _ => frame_of_law execCycleRenumber_next (touchExecCycleRenumber_all (namesItself_all _)) rfl,
   fun _ => frame_of_law execRefclkLost_next (touchExecRefclkLost_all (namesItself_all _)) rfl,
   fun _ _ _ => frame_of_law execDllUnlock_next (touchExecDllUnlock_all (namesItself_all _)) rfl,
   fun _ _ => frame_of_law execDllRelock_next (touchExecDllRelock_all (namesItself_all _)) rfl,
   fun _ => frame_of_law execKeeperCommit_next (touchExecKeeperCommit_all (namesItself_all _)) rfl,
   fun _ _ => frame_of_law execNcarChange_next (touchExecNcarChange_all (namesItself_all _)) rfl,
   fun _ _ => frame_of_law execOffsetCommit_next (touchExecOffsetCommit_all (namesItself_all _)) rfl,
   fun _ _ => frame_of_law execOffsetCommitTaken_next (touchExecOffsetCommitTaken_all (namesItself_all _)) rfl,
   fun _ => frame_of_law execAnglePulseOut_next (touchExecAnglePulseOut_all (namesItself_all _)) rfl,
   fun _ _ => frame_of_law execAnglePulseCapture_next (touchExecAnglePulseCapture_all (namesItself_all _)) rfl,
   fun _ _ _ => frame_of_law execGroupCarrierBoundary_next (touchExecGroupCarrierBoundary_all (namesItself_all _)) rfl,
   fun _ _ _ => frame_of_law execCarrierStart_next (touchExecCarrierStart_all (namesItself_all _)) rfl,
   fun _ => frame_of_law execHalfCycleBoundary_next (touchExecHalfCycleBoundary_all (namesItself_all _)) rfl,
   fun _ _ => frame_of_law execLeaseLapse_next (touchExecLeaseLapse_all (namesItself_all _)) rfl,
   fun _ _ _ _ => frame_of_law execOvershootTruncate_next (touchExecOvershootTruncate_all (namesItself_all _)) rfl,
   fun _ _ _ => frame_of_law execOvershootBrake_next (touchExecOvershootBrake_all (namesItself_all _)) rfl,
   fun _ _ _ => frame_of_law execTruncateTimeout_next (touchExecTruncateTimeout_all (namesItself_all _)) rfl,
   fun _ _ _ => frame_of_law execTruncateRelease_next (touchExecTruncateRelease_all (namesItself_all _)) rfl,
   fun _ _ _ => frame_of_law execBrakeRelease_next (touchExecBrakeRelease_all (namesItself_all _)) rfl,
   fun _ _ _ => frame_of_law execBrakingTimeout_next (touchExecBrakingTimeout_all (namesItself_all _)) rfl,
   fun _ _ => frame_of_law execPhaseCheckFail_next (touchExecPhaseCheckFail_all (namesItself_all _)) rfl,
   fun _ _ _ => frame_of_law execDriverFault_next (touchExecDriverFault_all (namesItself_all _)) rfl,
   fun _ _ _ => frame_of_law execPhaseImbalance_next (touchExecPhaseImbalance_all (namesItself_all _)) rfl,
   fun _ _ _ _ => frame_of_law execPhaseEnable_next (touchExecPhaseEnable_all (namesItself_all _)) rfl,
   fun _ _ _ => frame_of_law execPhaseDisable_next (touchExecPhaseDisable_all (namesItself_all _)) rfl,
   fun _ _ => frame_of_law execPhaseJoin_next (touchExecPhaseJoin_all (namesItself_all _)) rfl,
   fun _ _ _ => frame_of_law execGroupEnable_next (touchExecGroupEnable_all (namesItself_all _)) rfl,
   fun _ _ => frame_of_law execGroupStart_next (touchExecGroupStart_all (namesItself_all _)) rfl,
   fun _ _ _ => frame_of_law execGroupDisable_next (touchExecGroupDisable_all (namesItself_all _)) rfl,
   fun _ _ => frame_of_law execRampdownComplete_next (touchExecRampdownComplete_all (namesItself_all _)) rfl,
   fun _ _ => frame_of_law execDemandWatchdog_next (touchExecDemandWatchdog_all (namesItself_all _)) rfl,
   fun _ _ => frame_of_law execRespaceCommit_next (touchExecRespaceCommit_all (namesItself_all _)) rfl⟩

/-- Settles O34: for each command its law names the parts that it may change, and the list of the clause names all of them. -/
theorem loopFrame : Obligations.LoopFrame :=
  ⟨fun _ _ _ => frame_of_law execSampleStrobe_next (touchExecSampleStrobe_all (namesItself_all _)) rfl,
   fun _ _ => frame_of_law execLoopHoldExit_next (touchExecLoopHoldExit_all (namesItself_all _)) rfl,
   fun _ _ _ => frame_of_law execSrateChange_next (touchExecSrateChange_all (namesItself_all _)) rfl,
   fun _ _ _ => frame_of_law execLoopEnable_next (touchExecLoopEnable_all (namesItself_all _)) rfl,
   fun _ _ _ => frame_of_law execLoopDisable_next (touchExecLoopDisable_all (namesItself_all _)) rfl,
   fun _ _ _ _ => frame_of_law execLoopModeChange_next (touchExecLoopModeChange_all (namesItself_all _)) rfl,
   fun _ _ _ => frame_of_law execGtCommit_next (touchExecGtCommit_all (namesItself_all _)) rfl,
   fun _ _ _ => frame_of_law execFfSwap_next (touchExecFfSwap_all (namesItself_all _)) rfl,
   fun _ => frame_of_law execSetTarget_next (touchExecSetTarget_all (namesItself_all _)) rfl,
   fun _ => frame_of_law execScaleTarget_next (touchExecScaleTarget_all (namesItself_all _)) rfl,
   fun _ => frame_of_law execSetRate_next (touchExecSetRate_all (namesItself_all _)) rfl,
   fun _ => frame_of_law execSetParameter_next (touchExecSetParameter_all (namesItself_all _)) rfl,
   fun _ => frame_of_law execSetMode_next (touchExecSetMode_all (namesItself_all _)) rfl,
   fun _ => frame_of_law execStartInjector_next (touchExecStartInjector_all (namesItself_all _)) rfl,
   fun _ _ _ => frame_of_law execInjectorEnable_next (touchExecInjectorEnable_all (namesItself_all _)) rfl,
   fun _ _ => frame_of_law execInjectorStampStart_next (touchExecInjectorStampStart_all (namesItself_all _)) rfl,
   fun _ _ => frame_of_law execInjectorEnd_next (touchExecInjectorEnd_all (namesItself_all _)) rfl,
   fun _ _ _ => frame_of_law execInjectorDisable_next (touchExecInjectorDisable_all (namesItself_all _)) rfl,
   fun _ _ => frame_of_law execCaptureArm_next (touchExecCaptureArm_all (namesItself_all _)) rfl,
   fun _ => frame_of_law execCaptureTrigger_next (touchExecCaptureTrigger_all (namesItself_all _)) rfl,
   fun _ => frame_of_law execCaptureDone_next (touchExecCaptureDone_all (namesItself_all _)) rfl⟩

/-- Settles O35: for each command its law names the parts that it may change, and the list of the clause names all of them. -/
theorem fabricFrame : Obligations.FabricFrame :=
  ⟨fun _ _ _ => frame_of_law execLaneTrain_next (touchExecLaneTrain_all (namesItself_all _)) rfl,
   fun _ _ _ => frame_of_law execLaneTrainTimeout_next (touchExecLaneTrainTimeout_all (namesItself_all _)) rfl,
   fun _ _ _ _ => frame_of_law execLaneRetry_next (touchExecLaneRetry_all (namesItself_all _)) rfl,
   fun _ _ _ _ _ _ => frame_of_law execLaneHold_next (touchExecLaneHold_all (namesItself_all _)) rfl,
   fun _ _ _ _ => frame_of_law execLaneActive_next (touchExecLaneActive_all (namesItself_all _)) rfl,
   laneDown_frame,
   fun _ _ _ _ _ _ _ => frame_of_law execFrameForward_next (touchExecFrameForward_all (namesItself_all _)) rfl,
   fun _ _ => frame_of_law execStallDiscard_next (touchExecStallDiscard_all (namesItself_all _)) rfl,
   fun _ _ _ => frame_of_law execWakeTx_next (touchExecWakeTx_all (namesItself_all _)) rfl,
   fun _ _ => frame_of_law execAnnounceSend_next (touchExecAnnounceSend_all (namesItself_all _)) rfl,
   fun _ _ _ _ _ => frame_of_law execAnnounceReceive_next (touchExecAnnounceReceive_all (namesItself_all _)) rfl,
   fun _ _ _ => frame_of_law execBecomeRoot_next (touchExecBecomeRoot_all (namesItself_all _)) rfl,
   fun _ serial sticky role link hops => frame_of_law
      (execNodeIdGrant_next (serial := serial) (sticky := sticky) (role := role) (link := link) (hops := hops))
     (touchExecNodeIdGrant_all (namesItself_all _)) rfl,
   fun _ _ => frame_of_law execJoinRetry_next (touchExecJoinRetry_all (namesItself_all _)) rfl,
   fun _ _ _ _ => frame_of_law execJoinGrant_next (touchExecJoinGrant_all (namesItself_all _)) rfl,
   fun _ _ => frame_of_law execRootLost_next (touchExecRootLost_all (namesItself_all _)) rfl,
   fun _ _ _ => frame_of_law execFabricAlone_next (touchExecFabricAlone_all (namesItself_all _)) rfl,
   fun _ _ _ => frame_of_law execIdReservationExpiry_next (touchExecIdReservationExpiry_all (namesItself_all _)) rfl,
   fun _ _ _ => frame_of_law execTopologyReport_next (touchExecTopologyReport_all (namesItself_all _)) rfl,
   fun _ _ _ _ => frame_of_law execTableLoad_next (touchExecTableLoad_all (namesItself_all _)) rfl,
   fun _ _ => frame_of_law execEpochChange_next (touchExecEpochChange_all (namesItself_all _)) rfl,
   fun _ => frame_of_law execEpochDrain_next (touchExecEpochDrain_all (namesItself_all _)) rfl,
   fun _ => frame_of_law execEpochSwap_next (touchExecEpochSwap_all (namesItself_all _)) rfl,
   fun _ _ t1 t2 t3 t4 => frame_of_law (execDelayExchange_next (t1 := t1) (t2 := t2) (t3 := t3) (t4 := t4))
     (touchExecDelayExchange_all (namesItself_all _)) rfl,
   fun _ _ => frame_of_law execTimeFrameSend_next (touchExecTimeFrameSend_all (namesItself_all _)) rfl,
   fun _ _ _ => frame_of_law execTimeFrameReceive_next (touchExecTimeFrameReceive_all (namesItself_all _)) rfl,
   fun _ _ _ _ _ _ _ _ _ => frame_of_law execLaunchedActionArrival_next (touchExecLaunchedActionArrival_all (namesItself_all _)) rfl,
   fun _ => frame_of_law execSetGroupOffset_next (touchExecSetGroupOffset_all (namesItself_all _)) rfl,
   fun _ => frame_of_law execSetPhaseOffsets_next (touchExecSetPhaseOffsets_all (namesItself_all _)) rfl,
   fun _ _ => frame_of_law execEpochInstall_next (touchExecEpochInstall_all (namesItself_all _)) rfl⟩

/-- Settles O36: for each command its law names the parts that it may change, and the list of the clause names all of them. -/
theorem ledgerAndPowerlineFrame : Obligations.LedgerAndPowerlineFrame :=
  ⟨fun _ _ => frame_of_law execLedgerReport_next (touchExecLedgerReport_all (namesItself_all _)) rfl,
   fun _ _ _ _ _ _ _ _ _ _ _ _ _ => frame_of_law execLedgerReportReceive_next (touchExecLedgerReportReceive_all (namesItself_all _)) rfl,
   fun _ _ _ _ _ _ _ _ _ => frame_of_law execGrantAccept_next (touchExecGrantAccept_all (namesItself_all _)) rfl,
   fun _ _ => frame_of_law execAllocationRound_next (touchExecAllocationRound_all (namesItself_all _)) rfl,
   fun _ _ _ => frame_of_law execRecordReclaim_next (touchExecRecordReclaim_all (namesItself_all _)) rfl,
   fun _ _ _ => frame_of_law execRecordAckDrop_next (touchExecRecordAckDrop_all (namesItself_all _)) rfl,
   fun _ _ => frame_of_law execQuorumLost_next (touchExecQuorumLost_all (namesItself_all _)) rfl,
   fun _ _ => frame_of_law execQuorumGained_next (touchExecQuorumGained_all (namesItself_all _)) rfl,
   fun _ _ => frame_of_law execTGenExpiry_next (touchExecTGenExpiry_all (namesItself_all _)) rfl,
   fun _ => frame_of_law execPledgeExpiry_next (touchExecPledgeExpiry_all (namesItself_all _)) rfl,
   fun _ _ => frame_of_law execPledgeNotMet_next (touchExecPledgeNotMet_all (namesItself_all _)) rfl,
   fun _ => frame_of_law execSetLimDyn_next (touchExecSetLimDyn_all (namesItself_all _)) rfl,
   fun _ => frame_of_law execCut_next (touchExecCut_all (namesItself_all _)) rfl,
   fun _ _ _ => frame_of_law execLimDynWrite_next (touchExecLimDynWrite_all (namesItself_all _)) rfl,
   fun _ _ _ => frame_of_law execDrawOverLimit_next (touchExecDrawOverLimit_all (namesItself_all _)) rfl,
   fun _ => frame_of_law execBeaconSend_next (touchExecBeaconSend_all (namesItself_all _)) rfl,
   fun _ _ _ _ _ _ _ _ _ _ _ _ _ _ => frame_of_law execBeaconReceive_next (touchExecBeaconReceive_all (namesItself_all _)) rfl,
   fun _ => frame_of_law execBeaconMissed_next (touchExecBeaconMissed_all (namesItself_all _)) rfl,
   fun _ => frame_of_law execCoordinatorTakeover_next (touchExecCoordinatorTakeover_all (namesItself_all _)) rfl,
   fun _ => frame_of_law execSuccessorHandover_next (touchExecSuccessorHandover_all (namesItself_all _)) rfl,
   fun _ _ _ => frame_of_law execPlcFrameSend_next (touchExecPlcFrameSend_all (namesItself_all _)) rfl,
   fun _ _ _ _ _ _ _ _ _ => frame_of_law execPlcFrameReceive_next (touchExecPlcFrameReceive_all (namesItself_all _)) rfl,
   fun _ _ _ _ => frame_of_law execPlcAcknowledgement_next (touchExecPlcAcknowledgement_all (namesItself_all _)) rfl,
   fun _ _ => frame_of_law execSegmentDiscard_next (touchExecSegmentDiscard_all (namesItself_all _)) rfl,
   fun _ _ _ _ => frame_of_law execAssociationRequest_next (touchExecAssociationRequest_all (namesItself_all _)) rfl,
   fun _ _ => frame_of_law execStationRemove_next (touchExecStationRemove_all (namesItself_all _)) rfl,
   fun _ _ => frame_of_law execSounding_next (touchExecSounding_all (namesItself_all _)) rfl,
   fun _ _ _ _ _ _ => frame_of_law execToneMapIssue_next (touchExecToneMapIssue_all (namesItself_all _)) rfl,
   fun _ _ _ => frame_of_law execToneMapRefresh_next (touchExecToneMapRefresh_all (namesItself_all _)) rfl,
   fun _ _ => frame_of_law execLinkDegraded_next (touchExecLinkDegraded_all (namesItself_all _)) rfl,
   fun _ _ _ _ _ _ _ _ => frame_of_law execRanging_next (touchExecRanging_all (namesItself_all _)) rfl,
   fun _ _ => frame_of_law execCouplerAbsent_next (touchExecCouplerAbsent_all (namesItself_all _)) rfl,
   fun _ => frame_of_law execCouplerPresent_next (touchExecCouplerPresent_all (namesItself_all _)) rfl⟩

/-- Settles O37: for each command its law names the parts that it may change, and the list of the clause names all of them. -/
theorem metrologyFrame : Obligations.MetrologyFrame :=
  ⟨fun _ _ _ _ => frame_of_law execMetrologySample_next (touchExecMetrologySample_all (namesItself_all _)) rfl,
   fun _ _ _ => frame_of_law execChannelStuck_next (touchExecChannelStuck_all (namesItself_all _)) rfl,
   fun _ _ _ => frame_of_law execChannelOverRange_next (touchExecChannelOverRange_all (namesItself_all _)) rfl,
   fun _ _ _ _ => frame_of_law execChannelFaultClear_next (touchExecChannelFaultClear_all (namesItself_all _)) rfl,
   fun _ _ => frame_of_law execPointBlockPublish_next (touchExecPointBlockPublish_all (namesItself_all _)) rfl,
   fun _ _ => frame_of_law execPackCurrentRequest_next (touchExecPackCurrentRequest_all (namesItself_all _)) rfl,
   fun _ _ => frame_of_law execCableTemperatureUpdate_next (touchExecCableTemperatureUpdate_all (namesItself_all _)) rfl,
   fun _ _ _ => frame_of_law execCableTFallback_next (touchExecCableTFallback_all (namesItself_all _)) rfl,
   fun _ _ _ => frame_of_law execCableTReturn_next (touchExecCableTReturn_all (namesItself_all _)) rfl,
   fun _ _ _ => frame_of_law execPointEnable_next (touchExecPointEnable_all (namesItself_all _)) rfl,
   fun _ _ _ => frame_of_law execSnapshotTake_next (touchExecSnapshotTake_all (namesItself_all _)) rfl,
   fun _ _ _ => frame_of_law execSnapshotRelease_next (touchExecSnapshotRelease_all (namesItself_all _)) rfl,
   fun _ => frame_of_law execSnapshotAction_next (touchExecSnapshotAction_all (namesItself_all _)) rfl,
   fun _ => frame_of_law execSnapshotReleaseAction_next (touchExecSnapshotReleaseAction_all (namesItself_all _)) rfl,
   fun _ _ _ => frame_of_law execPeakClear_next (touchExecPeakClear_all (namesItself_all _)) rfl,
   fun _ _ _ _ => frame_of_law execOverCurrent_next (touchExecOverCurrent_all (namesItself_all _)) rfl,
   fun _ _ _ => frame_of_law execOverCurrentClear_next (touchExecOverCurrentClear_all (namesItself_all _)) rfl,
   fun _ _ => frame_of_law execPulseEmit_next (touchExecPulseEmit_all (namesItself_all _)) rfl,
   fun _ _ x => frame_of_law (execPulseEnd_next (t0 := x)) (touchExecPulseEnd_all (namesItself_all _)) rfl,
   fun _ _ => frame_of_law execMetrologyCommit_next (touchExecMetrologyCommit_all (namesItself_all _)) rfl,
   fun _ _ => frame_of_law execAccumulationStart_next (touchExecAccumulationStart_all (namesItself_all _)) rfl,
   fun _ _ _ => frame_of_law execSealSet_next (touchExecSealSet_all (namesItself_all _)) rfl⟩

/-- Settles O38: for each command its law names the parts that it may change, and the list of the clause names all of them. -/
theorem billingFrame : Obligations.BillingFrame :=
  ⟨fun _ => frame_of_law_beside_registers execBillingTick_next (touchExecBillingTick_all anyPart_all) (by repeat constructor) rfl,
   fun _ _ => frame_of_law execRebase_next (touchExecRebase_all (namesItself_all _)) rfl,
   fun _ _ => frame_of_law execCalendarActivate_next (touchExecCalendarActivate_all (namesItself_all _)) rfl,
   fun _ _ => frame_of_law execPeriodCloseCommand_next (touchExecPeriodCloseCommand_all (namesItself_all _)) rfl,
   fun _ => frame_of_law execPeriodCloseAction_next (touchExecPeriodCloseAction_all (namesItself_all _)) rfl,
   fun _ _ _ _ _ _ => frame_of_law execSessionOpen_next (touchExecSessionOpen_all (namesItself_all _)) rfl,
   fun _ _ _ _ => frame_of_law execSessionClose_next (touchExecSessionClose_all (namesItself_all _)) rfl,
   fun _ _ _ => frame_of_law execSessionAck_next (touchExecSessionAck_all (namesItself_all _)) rfl,
   fun _ => frame_of_law execTamperQueueMove_next (touchExecTamperQueueMove_all (namesItself_all _)) rfl,
   fun _ _ => frame_of_law execTamperAck_next (touchExecTamperAck_all (namesItself_all _)) rfl,
   fun _ => frame_of_law execDisplayFrame_next (touchExecDisplayFrame_all (namesItself_all _)) rfl,
   fun _ _ => frame_of_law execDisplayAnswer_next (touchExecDisplayAnswer_all (namesItself_all _)) rfl,
   fun _ _ => frame_of_law execPageAdvance_next (touchExecPageAdvance_all (namesItself_all _)) rfl,
   fun _ => frame_of_law execDisplayButtonShort_next (touchExecDisplayButtonShort_all (namesItself_all _)) rfl,
   fun _ => frame_of_law execDisplayButtonLong_next (touchExecDisplayButtonLong_all (namesItself_all _)) rfl,
   fun _ _ => frame_of_law execManualAdvanceResume_next (touchExecManualAdvanceResume_all (namesItself_all _)) rfl⟩

/-- Settles O39: for each command its law names the parts that it may change, and the list of the clause names all of them. -/
theorem vehicleFrame : Obligations.VehicleFrame :=
  ⟨fun _ _ _ _ => frame_of_law execInterlockOpen_next (touchExecInterlockOpen_all (namesItself_all _)) rfl,
   fun _ _ _ _ => frame_of_law execProximityChange_next (touchExecProximityChange_all (namesItself_all _)) rfl,
   fun _ _ _ => frame_of_law execPlugIn_next (touchExecPlugIn_all (namesItself_all _)) rfl,
   fun _ _ => frame_of_law execTlsSessionEstablished_next (touchExecTlsSessionEstablished_all (namesItself_all _)) rfl,
   fun _ _ _ => frame_of_law execPlugTimeout_next (touchExecPlugTimeout_all (namesItself_all _)) rfl,
   fun _ _ => frame_of_law execSupportedAppProtocol_next (touchExecSupportedAppProtocol_all (namesItself_all _)) rfl,
   fun _ _ _ => frame_of_law execSessionSetup_next (touchExecSessionSetup_all (namesItself_all _)) rfl,
   fun _ _ => frame_of_law execAuthorizationSetup_next (touchExecAuthorizationSetup_all (namesItself_all _)) rfl,
   fun _ _ _ _ _ => frame_of_law execAuthorization_next (touchExecAuthorization_all (namesItself_all _)) rfl,
   fun _ _ => frame_of_law execServiceDiscovery_next (touchExecServiceDiscovery_all (namesItself_all _)) rfl,
   fun _ _ => frame_of_law execServiceDetail_next (touchExecServiceDetail_all (namesItself_all _)) rfl,
   fun _ _ _ _ => frame_of_law execServiceSelection_next (touchExecServiceSelection_all (namesItself_all _)) rfl,
   fun _ _ _ _ _ _ _ => frame_of_law execDcChargeParameterDiscovery_next (touchExecDcChargeParameterDiscovery_all (namesItself_all _)) rfl,
   fun _ _ => frame_of_law execScheduleExchange_next (touchExecScheduleExchange_all (namesItself_all _)) rfl,
   fun _ _ => frame_of_law execDcCableCheck_next (touchExecDcCableCheck_all (namesItself_all _)) rfl,
   fun _ _ _ => frame_of_law execDcPlusClose_next (touchExecDcPlusClose_all (namesItself_all _)) rfl,
   fun _ _ _ => frame_of_law execCableCheckStart_next (touchExecCableCheckStart_all (namesItself_all _)) rfl,
   fun _ _ _ _ => frame_of_law execCableCheckFinish_next (touchExecCableCheckFinish_all (namesItself_all _)) rfl,
   fun _ _ _ => frame_of_law execDcPreCharge_next (touchExecDcPreCharge_all (namesItself_all _)) rfl,
   fun _ _ => frame_of_law execPowerDeliveryStart_next (touchExecPowerDeliveryStart_all (namesItself_all _)) rfl,
   fun _ _ => frame_of_law execPowerDeliveryStop_next (touchExecPowerDeliveryStop_all (namesItself_all _)) rfl,
   fun _ _ => frame_of_law execStandby_next (touchExecStandby_all (namesItself_all _)) rfl,
   fun _ _ _ _ _ _ _ _ _ => frame_of_law execDcChargeLoop_next (touchExecDcChargeLoop_all (namesItself_all _)) rfl,
   fun _ _ => frame_of_law execDcWeldingDetection_next (touchExecDcWeldingDetection_all (namesItself_all _)) rfl,
   fun _ _ => frame_of_law execSessionStop_next (touchExecSessionStop_all (namesItself_all _)) rfl,
   fun _ _ _ => frame_of_law execFastStop_next (touchExecFastStop_all (namesItself_all _)) rfl,
   fun _ _ _ _ => frame_of_law execAuthWrite_next (touchExecAuthWrite_all (namesItself_all _)) rfl,
   fun _ _ _ => frame_of_law execAuthTimeout_next (touchExecAuthTimeout_all (namesItself_all _)) rfl,
   fun _ _ _ => frame_of_law execPreTimeout_next (touchExecPreTimeout_all (namesItself_all _)) rfl,
   fun _ _ _ => frame_of_law execCurrentDecayed_next (touchExecCurrentDecayed_all (namesItself_all _)) rfl,
   fun _ _ _ => frame_of_law execDecayTimeout_next (touchExecDecayTimeout_all (namesItself_all _)) rfl,
   fun _ _ _ => frame_of_law execDcMinusOpen_next (touchExecDcMinusOpen_all (namesItself_all _)) rfl,
   fun _ _ _ => frame_of_law execWeldCheck_next (touchExecWeldCheck_all (namesItself_all _)) rfl,
   fun _ _ _ _ => frame_of_law execWeldCheckComplete_next (touchExecWeldCheckComplete_all (namesItself_all _)) rfl,
   fun _ _ _ => frame_of_law execUnplug_next (touchExecUnplug_all (namesItself_all _)) rfl,
   fun _ _ _ => frame_of_law execStopCommand_next (touchExecStopCommand_all (namesItself_all _)) rfl,
   fun _ _ _ => frame_of_law execFaultClear_next (touchExecFaultClear_all (namesItself_all _)) rfl,
   fun _ => frame_of_law execLaunchedStop_next (touchExecLaunchedStop_all (namesItself_all _)) rfl,
   fun _ _ => frame_of_law execOfferUpdate_next (touchExecOfferUpdate_all (namesItself_all _)) rfl,
   fun _ _ => frame_of_law execLimitRampStep_next (touchExecLimitRampStep_all (namesItself_all _)) rfl,
   fun _ _ => frame_of_law execNeedFrame_next (touchExecNeedFrame_all (namesItself_all _)) rfl,
   fun _ _ _ _ _ _ _ _ _ => frame_of_law execNeedFrameReceive_next (touchExecNeedFrameReceive_all (namesItself_all _)) rfl,
   fun _ _ => frame_of_law execAllowanceFrame_next (touchExecAllowanceFrame_all (namesItself_all _)) rfl,
   fun _ _ _ _ _ _ _ _ _ _ => frame_of_law execAllowanceFrameReceive_next (touchExecAllowanceFrameReceive_all (namesItself_all _)) rfl,
   fun _ _ => frame_of_law execNeedFrameLoss_next (touchExecNeedFrameLoss_all (namesItself_all _)) rfl,
   fun _ _ => frame_of_law execFeedLost_next (touchExecFeedLost_all (namesItself_all _)) rfl,
   fun _ _ _ => frame_of_law execImdUpdate_next (touchExecImdUpdate_all (namesItself_all _)) rfl,
   fun _ _ _ => frame_of_law execImdTimeout_next (touchExecImdTimeout_all (namesItself_all _)) rfl,
   fun _ _ _ => frame_of_law execContactorFault_next (touchExecContactorFault_all (namesItself_all _)) rfl,
   fun _ _ _ _ => frame_of_law execLinkLost_next (touchExecLinkLost_all (namesItself_all _)) rfl,
   fun _ _ => frame_of_law execScheduleRenegotiation_next (touchExecScheduleRenegotiation_all (namesItself_all _)) rfl⟩

/-- Settles O40: for each command its law names the parts that it may change, and the list of the clause names all of them. -/
theorem thermalAndSwitchFrame : Obligations.ThermalAndSwitchFrame :=
  ⟨fun _ _ _ => frame_of_law execSensorSample_next (touchExecSensorSample_all (namesItself_all _)) rfl,
   fun _ _ _ => frame_of_law execSensorFailed_next (touchExecSensorFailed_all (namesItself_all _)) rfl,
   fun _ _ _ => frame_of_law execSensorRecover_next (touchExecSensorRecover_all (namesItself_all _)) rfl,
   fun _ _ _ => frame_of_law execSensorSuspect_next (touchExecSensorSuspect_all (namesItself_all _)) rfl,
   fun _ _ _ => frame_of_law execSuspectRecover_next (touchExecSuspectRecover_all (namesItself_all _)) rfl,
   fun _ _ _ => frame_of_law execSnowlineExit_next (touchExecSnowlineExit_all (namesItself_all _)) rfl,
   fun _ _ _ => frame_of_law execWarnLimit_next (touchExecWarnLimit_all (namesItself_all _)) rfl,
   fun _ _ _ _ => frame_of_law execZoneAsk_next (touchExecZoneAsk_all (namesItself_all _)) rfl,
   fun _ _ _ => frame_of_law execZoneEnforce_next (touchExecZoneEnforce_all (namesItself_all _)) rfl,
   fun _ _ _ _ => frame_of_law execZoneShutdown_next (touchExecZoneShutdown_all (namesItself_all _)) rfl,
   fun _ _ _ => frame_of_law execZoneRelease_next (touchExecZoneRelease_all (namesItself_all _)) rfl,
   fun _ _ _ => frame_of_law execShutdownRelease_next (touchExecShutdownRelease_all (namesItself_all _)) rfl,
   fun _ _ _ _ => frame_of_law execZoneClr_next (touchExecZoneClr_all (namesItself_all _)) rfl,
   fun _ _ _ => frame_of_law execZoneEnable_next (touchExecZoneEnable_all (namesItself_all _)) rfl,
   fun _ _ => frame_of_law execCableModelUpdate_next (touchExecCableModelUpdate_all (namesItself_all _)) rfl,
   fun _ _ => frame_of_law execModelSuspect_next (touchExecModelSuspect_all (namesItself_all _)) rfl,
   fun _ _ _ => frame_of_law execInternalSensorSample_next (touchExecInternalSensorSample_all (namesItself_all _)) rfl,
   fun _ _ _ => frame_of_law execInternalOverTemperature_next (touchExecInternalOverTemperature_all (namesItself_all _)) rfl,
   fun _ _ => frame_of_law execThermalRestart_next (touchExecThermalRestart_all (namesItself_all _)) rfl,
   fun _ _ => frame_of_law execCircuitRun_next (touchExecCircuitRun_all (namesItself_all _)) rfl,
   fun _ _ _ => frame_of_law execCircuitStop_next (touchExecCircuitStop_all (namesItself_all _)) rfl,
   fun _ _ _ => frame_of_law execFlowTimeout_next (touchExecFlowTimeout_all (namesItself_all _)) rfl,
   fun _ _ _ _ => frame_of_law execFlowFault_next (touchExecFlowFault_all (namesItself_all _)) rfl,
   fun _ _ _ => frame_of_law execFlowRecovered_next (touchExecFlowRecovered_all (namesItself_all _)) rfl,
   fun _ _ => frame_of_law execHeaterOn_next (touchExecHeaterOn_all (namesItself_all _)) rfl,
   fun _ _ => frame_of_law execHeaterOff_next (touchExecHeaterOff_all (namesItself_all _)) rfl,
   fun _ _ _ => frame_of_law execChannelOn_next (touchExecChannelOn_all (namesItself_all _)) rfl,
   fun _ _ _ => frame_of_law execChannelOff_next (touchExecChannelOff_all (namesItself_all _)) rfl,
   fun _ _ _ _ _ => frame_of_law execOverCurrentTrip_next (touchExecOverCurrentTrip_all (namesItself_all _)) rfl,
   fun _ _ _ => frame_of_law execThermalShutdown_next (touchExecThermalShutdown_all (namesItself_all _)) rfl,
   fun _ _ _ _ => frame_of_law execAutomaticRestart_next (touchExecAutomaticRestart_all (namesItself_all _)) rfl,
   fun _ _ _ => frame_of_law execRestartWindow_next (touchExecRestartWindow_all (namesItself_all _)) rfl,
   fun _ _ _ _ => frame_of_law execBankUndervoltage_next (touchExecBankUndervoltage_all (namesItself_all _)) rfl,
   fun _ _ _ => frame_of_law execBankUndervoltageExit_next (touchExecBankUndervoltageExit_all (namesItself_all _)) rfl,
   fun _ _ _ _ => frame_of_law execLatchClear_next (touchExecLatchClear_all (namesItself_all _)) rfl,
   fun _ => frame_of_law execSwitchChannels_next (touchExecSwitchChannels_all (namesItself_all _)) rfl,
   fun _ _ _ _ => frame_of_law execOpenLoad_next (touchExecOpenLoad_all (namesItself_all _)) rfl⟩

/-- Settles O41: for each command its law names the parts that it may change, and the list of the clause names all of them. -/
theorem cellAndCanFrame : Obligations.CellAndCanFrame :=
  ⟨fun _ => frame_of_law execCsWake_next (touchExecCsWake_all (namesItself_all _)) rfl,
   fun _ _ _ _ _ _ => frame_of_law execDiscovery_next (touchExecDiscovery_all (namesItself_all _)) rfl,
   fun _ _ _ _ => frame_of_law execDiscoveryAttemptEnd_next (touchExecDiscoveryAttemptEnd_all (namesItself_all _)) rfl,
   fun _ => frame_of_law execSweepSync_next (touchExecSweepSync_all (namesItself_all _)) rfl,
   fun _ _ => frame_of_law execKeepaliveSync_next (touchExecKeepaliveSync_all (namesItself_all _)) rfl,
   fun _ _ _ _ _ _ _ _ _ _ => frame_of_law execRecordReceive_next (touchExecRecordReceive_all (namesItself_all _)) rfl,
   fun _ => frame_of_law execCollectionEnd_next (touchExecCollectionEnd_all (namesItself_all _)) rfl,
   fun _ => frame_of_law execRecollect_next (touchExecRecollect_all (namesItself_all _)) rfl,
   fun _ => frame_of_law execRecollectEnd_next (touchExecRecollectEnd_all (namesItself_all _)) rfl,
   fun _ _ => frame_of_law execHealProbe_next (touchExecHealProbe_all (namesItself_all _)) rfl,
   fun _ _ _ => frame_of_law execOrderSend_next (touchExecOrderSend_all (namesItself_all _)) rfl,
   fun _ => frame_of_law execSweepStart_next (touchExecSweepStart_all (namesItself_all _)) rfl,
   fun _ => frame_of_law execSweepStop_next (touchExecSweepStop_all (namesItself_all _)) rfl,
   fun _ _ _ => frame_of_law execCellQuery_next (touchExecCellQuery_all (namesItself_all _)) rfl,
   fun _ => frame_of_law execRingLost_next (touchExecRingLost_all (namesItself_all _)) rfl,
   fun _ => frame_of_law execCsDisable_next (touchExecCsDisable_all (namesItself_all _)) rfl,
   fun _ _ => frame_of_law execCanPortEnable_next (touchExecCanPortEnable_all (namesItself_all _)) rfl,
   fun _ _ _ => frame_of_law execCanStart_next (touchExecCanStart_all (namesItself_all _)) rfl,
   fun _ _ _ => frame_of_law execCanInit_next (touchExecCanInit_all (namesItself_all _)) rfl,
   fun _ _ _ => frame_of_law execCanSync_next (touchExecCanSync_all (namesItself_all _)) rfl,
   fun _ _ _ _ _ _ _ _ => frame_of_law execCanFrameReceive_next (touchExecCanFrameReceive_all (namesItself_all _)) rfl,
   fun _ _ _ => frame_of_law execBufferLock_next (touchExecBufferLock_all (namesItself_all _)) rfl,
   fun _ _ _ => frame_of_law execBufferReadComplete_next (touchExecBufferReadComplete_all (namesItself_all _)) rfl,
   fun _ _ _ => frame_of_law execLockTimeout_next (touchExecLockTimeout_all (namesItself_all _)) rfl,
   fun _ _ _ => frame_of_law execUnlock_next (touchExecUnlock_all (namesItself_all _)) rfl,
   fun _ _ _ _ => frame_of_law execTransmitRequest_next (touchExecTransmitRequest_all (namesItself_all _)) rfl,
   fun _ _ _ _ _ _ => frame_of_law execTransmitComplete_next (touchExecTransmitComplete_all (namesItself_all _)) rfl,
   fun _ _ _ _ _ _ => frame_of_law execTransmitFail_next (touchExecTransmitFail_all (namesItself_all _)) rfl,
   fun _ _ _ _ _ => frame_of_law execAbort_next (touchExecAbort_all (namesItself_all _)) rfl,
   fun _ _ _ _ => frame_of_law execBusOff_next (touchExecBusOff_all (namesItself_all _)) rfl,
   fun _ _ _ => frame_of_law execBusOffWait_next (touchExecBusOffWait_all (namesItself_all _)) rfl,
   fun _ _ _ => frame_of_law execRecover_next (touchExecRecover_all (namesItself_all _)) rfl,
   fun _ _ _ => frame_of_law execBusOffRecovered_next (touchExecBusOffRecovered_all (namesItself_all _)) rfl,
   fun _ _ tec _ => frame_of_law (execErrorPassive_next (tec := tec)) (touchExecErrorPassive_all (namesItself_all _)) rfl,
   fun _ _ tec _ => frame_of_law (execErrorActive_next (tec := tec)) (touchExecErrorActive_all (namesItself_all _)) rfl,
   fun _ _ _ => frame_of_law execBoRunClear_next (touchExecBoRunClear_all (namesItself_all _)) rfl⟩

/-- Settles O42: for each command its law names the parts that it may change, and the list of the clause names all of them. -/
theorem vaultAndLogFrame : Obligations.VaultAndLogFrame :=
  ⟨fun _ _ => frame_of_law execRecordSign_next (touchExecRecordSign_all (namesItself_all _)) rfl,
   fun _ _ _ _ _ => frame_of_law execTamperLoopSample_next (touchExecTamperLoopSample_all (namesItself_all _)) rfl,
   fun _ _ _ => frame_of_law execSdpRequest_next (touchExecSdpRequest_all (namesItself_all _)) rfl,
   fun _ _ _ => frame_of_law execStageWrite_next (touchExecStageWrite_all (namesItself_all _)) rfl,
   fun _ _ => frame_of_law execStageTimeout_next (touchExecStageTimeout_all (namesItself_all _)) rfl,
   fun _ _ _ _ _ _ _ _ _ plain => frame_of_law (execLoadKey_next (_plain := plain)) (touchExecLoadKey_all (namesItself_all _)) rfl,
   fun _ _ _ _ _ _ => frame_of_law execLoadCertificate_next (touchExecLoadCertificate_all (namesItself_all _)) rfl,
   fun _ _ _ type _ _ _ => frame_of_law (execGenerate_next (type := type)) (touchExecGenerate_all (namesItself_all _)) rfl,
   fun _ _ _ => frame_of_law execErase_next (touchExecErase_all (namesItself_all _)) rfl,
   fun _ _ _ => frame_of_law execDerive_next (touchExecDerive_all (namesItself_all _)) rfl,
   fun _ _ => frame_of_law execReservoirLow_next (touchExecReservoirLow_all (namesItself_all _)) rfl,
   fun _ => frame_of_law execEventRecord_next (touchExecEventRecord_all (namesItself_all _)) rfl,
   fun _ _ _ => frame_of_law execLogClear_next (touchExecLogClear_all (namesItself_all _)) rfl,
   fun _ _ _ _ => frame_of_law execLogReadLoad_next (touchExecLogReadLoad_all (namesItself_all _)) rfl,
   fun _ _ _ => frame_of_law execLogReadNext_next (touchExecLogReadNext_all (namesItself_all _)) rfl,
   fun _ _ _ _ => frame_of_law execLogSearch_next (touchExecLogSearch_all (namesItself_all _)) rfl,
   fun _ _ _ => frame_of_law execLogCrcCheck_next (touchExecLogCrcCheck_all (namesItself_all _)) rfl,
   fun _ => frame_of_law execSiteMark_next (touchExecSiteMark_all (namesItself_all _)) rfl,
   fun _ _ => frame_of_law execReservoirRecharged_next (touchExecReservoirRecharged_all (namesItself_all _)) rfl⟩

/-- Settles O43: for each command its law names the parts that it may change, and the list of the clause names all of them. -/
theorem powerAndResetFrame : Obligations.PowerAndResetFrame :=
  ⟨fun _ _ => frame_of_law_beside_registers execApply_next (touchExecApply_all anyPart_all) (by repeat constructor) rfl,
   fun _ _ => frame_of_law_beside_registers execApplyComplete_next (touchExecApplyComplete_all anyPart_all) (by repeat constructor) rfl,
   fun _ _ _ _ _ => frame_of_law_beside_registers execPorReset_next (touchExecPorReset_all anyPart_all) (by repeat constructor) rfl,
   fun _ _ _ _ => frame_of_law_beside_registers execPinReset_next (touchExecPinReset_all anyPart_all) (by repeat constructor) rfl,
   fun _ _ _ => frame_of_law_beside_registers execSoftReset_next (touchExecSoftReset_all anyPart_all) (by repeat constructor) rfl,
   fun _ _ _ => frame_of_law_beside_registers execDomainReset_next (touchExecDomainReset_all anyPart_all) (by repeat constructor) rfl,
   fun _ _ => frame_of_law_beside_registers execDomainResetComplete_next (touchExecDomainResetComplete_all anyPart_all) (by repeat constructor) rfl,
   fun _ _ => frame_of_law execReadyRelease_next (touchExecReadyRelease_all (namesItself_all _)) rfl,
   fun _ _ => frame_of_law execReadyDeadline_next (touchExecReadyDeadline_all (namesItself_all _)) rfl,
   fun _ _ _ => frame_of_law execVsupLowBandEntry_next (touchExecVsupLowBandEntry_all (namesItself_all _)) rfl,
   fun _ _ _ => frame_of_law execVsupLowBandExit_next (touchExecVsupLowBandExit_all (namesItself_all _)) rfl,
   fun _ _ _ => frame_of_law execVsupHighBandEntry_next (touchExecVsupHighBandEntry_all (namesItself_all _)) rfl,
   fun _ _ _ => frame_of_law execVsupHighBandExit_next (touchExecVsupHighBandExit_all (namesItself_all _)) rfl,
   fun _ _ _ => frame_of_law execVsupOverVoltage_next (touchExecVsupOverVoltage_all (namesItself_all _)) rfl,
   fun _ _ _ => frame_of_law execVsupOverVoltageExit_next (touchExecVsupOverVoltageExit_all (namesItself_all _)) rfl,
   fun _ _ _ _ _ => frame_of_law_beside_registers execSupplyFail_next (touchExecSupplyFail_all anyPart_all) (by repeat constructor) rfl,
   fun _ _ _ _ => frame_of_law_beside_registers execRailOutOfLimits_next (touchExecRailOutOfLimits_all anyPart_all) (by repeat constructor) rfl,
   fun _ _ => frame_of_law execHoldupStoreTest_next (touchExecHoldupStoreTest_all (namesItself_all _)) rfl,
   fun _ _ => frame_of_law execHoldupTestRequest_next (touchExecHoldupTestRequest_all (namesItself_all _)) rfl,
   fun _ _ _ => frame_of_law execHoldupTestDone_next (touchExecHoldupTestDone_all (namesItself_all _)) rfl,
   fun _ _ => frame_of_law execVbatLow_next (touchExecVbatLow_all (namesItself_all _)) rfl,
   fun _ _ => frame_of_law execQuietRequest_next (touchExecQuietRequest_all (namesItself_all _)) rfl,
   fun _ _ => frame_of_law execRunRequest_next (touchExecRunRequest_all (namesItself_all _)) rfl,
   fun _ _ => frame_of_law_beside_registers execDormantRequest_next (touchExecDormantRequest_all anyPart_all) (by repeat constructor) rfl,
   fun _ _ _ => frame_of_law_beside_registers execWake_next (touchExecWake_all anyPart_all) (by repeat constructor) rfl,
   fun _ _ _ => frame_of_law execAuxEnable_next (touchExecAuxEnable_all (namesItself_all _)) rfl,
   fun _ _ _ => frame_of_law execAuxStop_next (touchExecAuxStop_all (namesItself_all _)) rfl,
   fun _ _ _ _ => frame_of_law execAuxSetpointChange_next (touchExecAuxSetpointChange_all (namesItself_all _)) rfl,
   fun _ _ _ _ => frame_of_law execAuxPgood_next (touchExecAuxPgood_all (namesItself_all _)) rfl,
   fun _ _ _ => frame_of_law execAuxPgoodLoss_next (touchExecAuxPgoodLoss_all (namesItself_all _)) rfl,
   fun _ _ _ => frame_of_law execAuxFeedbackFault_next (touchExecAuxFeedbackFault_all (namesItself_all _)) rfl,
   fun _ _ _ => frame_of_law execAuxBurstSleep_next (touchExecAuxBurstSleep_all (namesItself_all _)) rfl,
   fun _ _ _ => frame_of_law execAuxBurstWake_next (touchExecAuxBurstWake_all (namesItself_all _)) rfl,
   fun _ _ _ _ => frame_of_law execAuxSyncLock_next (touchExecAuxSyncLock_all (namesItself_all _)) rfl,
   fun _ _ _ => frame_of_law execAuxSyncLost_next (touchExecAuxSyncLost_all (namesItself_all _)) rfl,
   fun _ _ _ => frame_of_law execAuxTruncation_next (touchExecAuxTruncation_all (namesItself_all _)) rfl,
   fun _ _ _ _ => frame_of_law execAuxBraking_next (touchExecAuxBraking_all (namesItself_all _)) rfl,
   fun _ _ _ => frame_of_law execAuxBrakeRelease_next (touchExecAuxBrakeRelease_all (namesItself_all _)) rfl,
   fun _ _ => frame_of_law execAuxThermalWarning_next (touchExecAuxThermalWarning_all (namesItself_all _)) rfl,
   fun _ _ => frame_of_law execAuxThermalShutdown_next (touchExecAuxThermalShutdown_all (namesItself_all _)) rfl,
   fun _ _ => frame_of_law execAuxThermalRestart_next (touchExecAuxThermalRestart_all (namesItself_all _)) rfl,
   fun _ _ _ _ _ _ => frame_of_law execSnsSelectChange_next (touchExecSnsSelectChange_all (namesItself_all _)) rfl,
   fun _ _ _ _ _ _ => frame_of_law_beside_registers execFabricResetCommand_next (touchExecFabricResetCommand_all anyPart_all) (by repeat constructor) rfl,
   fun _ _ _ => frame_of_law execEStop_next (touchExecEStop_all (namesItself_all _)) rfl,
   fun _ _ => frame_of_law execSoReq_next (touchExecSoReq_all (namesItself_all _)) rfl,
   fun _ _ _ _ _ => frame_of_law execContactorOpen_next (touchExecContactorOpen_all (namesItself_all _)) rfl,
   fun _ _ _ x => frame_of_law (execSafeOffDcMinusOpen_next (t0 := x)) (touchExecSafeOffDcMinusOpen_all (namesItself_all _)) rfl,
   fun _ _ _ _ => frame_of_law execConnectorHeld_next (touchExecConnectorHeld_all (namesItself_all _)) rfl,
   fun _ _ => frame_of_law execSafeOffClear_next (touchExecSafeOffClear_all (namesItself_all _)) rfl,
   fun _ _ => frame_of_law execEstopDiscrepancy_next (touchExecEstopDiscrepancy_all (namesItself_all _)) rfl,
   fun _ _ _ _ => frame_of_law_beside_registers execWatchdogKick_next (touchExecWatchdogKick_all anyPart_all) (by repeat constructor) rfl,
   fun _ _ _ => frame_of_law_beside_registers execWatchdogExpiry_next (touchExecWatchdogExpiry_all anyPart_all) (by repeat constructor) rfl,
   fun _ _ => frame_of_law_beside_registers execLockstepError_next (touchExecLockstepError_all anyPart_all) (by repeat constructor) rfl,
   fun _ _ _ _ _ => frame_of_law execSupplyFailContactorOpen_next (touchExecSupplyFailContactorOpen_all (namesItself_all _)) rfl,
   fun _ _ _ => frame_of_law execSupplyFailDcMinusOpen_next (touchExecSupplyFailDcMinusOpen_all (namesItself_all _)) rfl,
   fun _ _ _ => frame_of_law execContactorNotOpened_next (touchExecContactorNotOpened_all (namesItself_all _)) rfl,
   fun _ _ => frame_of_law_beside_registers execRstNRelease_next (touchExecRstNRelease_all anyPart_all) (by repeat constructor) rfl,
   fun _ _ => frame_of_law execEstopRelease_next (touchExecEstopRelease_all (namesItself_all _)) rfl,
   fun _ _ => frame_of_law execVbatRestored_next (touchExecVbatRestored_all (namesItself_all _)) rfl⟩

/-- Settles O44: for each command its law names the parts that it may change, and the list of the clause names all of them. -/
theorem updateAndManagementFrame : Obligations.UpdateAndManagementFrame :=
  ⟨fun _ _ _ _ _ => frame_of_law_beside_registers execRegisterWrite_next (touchExecRegisterWrite_all anyPart_all) (by repeat constructor) rfl,
   fun _ _ _ => frame_of_law execFlashProgram_next (touchExecFlashProgram_all (namesItself_all _)) rfl,
   fun _ _ => frame_of_law execFlashErase_next (touchExecFlashErase_all (namesItself_all _)) rfl,
   fun _ _ => frame_of_law execFlashDone_next (touchExecFlashDone_all (namesItself_all _)) rfl,
   fun _ _ _ _ => frame_of_law_beside_registers execFirmwareSwitch_next (touchExecFirmwareSwitch_all anyPart_all) (by repeat constructor) rfl,
   fun _ _ _ _ => frame_of_law execMetrologyFirmwareSwitch_next (touchExecMetrologyFirmwareSwitch_all (namesItself_all _)) rfl,
   fun _ _ _ _ => frame_of_law_beside_registers execFirmwareRevert_next (touchExecFirmwareRevert_all anyPart_all) (by repeat constructor) rfl,
   fun _ _ _ _ _ _ => frame_of_law execSectionReload_next (touchExecSectionReload_all (namesItself_all _)) rfl,
   fun _ => frame_of_law_beside_registers execSectionApply_next (touchExecSectionApply_all anyPart_all) (by repeat constructor) rfl,
   fun _ _ _ _ _ => frame_of_law execPackageSubmit_next (touchExecPackageSubmit_all (namesItself_all _)) rfl,
   fun _ => frame_of_law_beside_registers execPackageApply_next (touchExecPackageApply_all anyPart_all) (by repeat constructor) rfl,
   fun _ _ _ => frame_of_law execRecalibration_next (touchExecRecalibration_all (namesItself_all _)) rfl,
   fun _ _ => frame_of_law execRecalibrationDone_next (touchExecRecalibrationDone_all (namesItself_all _)) rfl,
   fun _ _ _ _ _ _ => frame_of_law execGatewayRelay_next (touchExecGatewayRelay_all (namesItself_all _)) rfl,
   fun _ _ _ => frame_of_law execRelayEntryExpiry_next (touchExecRelayEntryExpiry_all (namesItself_all _)) rfl,
   fun _ _ _ _ _ _ _ => frame_of_law execHandshake_next (touchExecHandshake_all (namesItself_all _)) rfl,
   fun _ _ _ => frame_of_law execHandshakeTimeout_next (touchExecHandshakeTimeout_all (namesItself_all _)) rfl,
   fun _ _ _ => frame_of_law execSessionIdleClose_next (touchExecSessionIdleClose_all (namesItself_all _)) rfl,
   fun _ _ _ _ => frame_of_law execRead_next (touchExecRead_all (namesItself_all _)) rfl,
   fun _ _ _ _ => frame_of_law_beside_registers execWrite_next (touchExecWrite_all anyPart_all) (by repeat constructor) rfl,
   fun _ _ _ _ _ _ => frame_of_law execBlockRead_next (touchExecBlockRead_all (namesItself_all _)) rfl,
   fun _ _ _ _ _ _ => frame_of_law_beside_registers execBlockWrite_next (touchExecBlockWrite_all anyPart_all) (by repeat constructor) rfl,
   fun _ _ _ _ _ _ _ _ _ => frame_of_law execSubscribe_next (touchExecSubscribe_all (namesItself_all _)) rfl,
   fun _ _ _ _ => frame_of_law execUnsubscribe_next (touchExecUnsubscribe_all (namesItself_all _)) rfl,
   fun _ _ _ _ => frame_of_law execNotify_next (touchExecNotify_all (namesItself_all _)) rfl,
   fun _ _ _ _ _ => frame_of_law execEvents_next (touchExecEvents_all (namesItself_all _)) rfl,
   fun _ _ => frame_of_law execRecords_next (touchExecRecords_all (namesItself_all _)) rfl,
   fun _ _ _ _ => frame_of_law execLocate_next (touchExecLocate_all (namesItself_all _)) rfl,
   fun _ _ _ _ _ _ => frame_of_law execLaunch_next (touchExecLaunch_all (namesItself_all _)) rfl,
   fun _ _ _ => frame_of_law execLresult_next (touchExecLresult_all (namesItself_all _)) rfl,
   fun _ _ _ _ _ => frame_of_law execReset_next (touchExecReset_all (namesItself_all _)) rfl,
   fun _ _ _ _ _ _ => frame_of_law execTime_next (touchExecTime_all (namesItself_all _)) rfl,
   fun _ _ _ => frame_of_law execPing_next (touchExecPing_all (namesItself_all _)) rfl,
   fun _ _ _ _ => frame_of_law execClose_next (touchExecClose_all (namesItself_all _)) rfl,
   fun _ _ _ _ => frame_of_law execPtpSync_next (touchExecPtpSync_all (namesItself_all _)) rfl,
   fun _ _ => frame_of_law execPtpLost_next (touchExecPtpLost_all (namesItself_all _)) rfl,
   fun _ _ => frame_of_law execNtpPoll_next (touchExecNtpPoll_all (namesItself_all _)) rfl,
   fun _ _ _ _ _ _ => frame_of_law execNtpResponse_next (touchExecNtpResponse_all (namesItself_all _)) rfl,
   fun _ => frame_of_law execNtpLost_next (touchExecNtpLost_all (namesItself_all _)) rfl,
   fun _ _ _ _ => frame_of_law execTmxSelect_next (touchExecTmxSelect_all (namesItself_all _)) rfl⟩

end Sys2Proof.Proofs
end

section
/-! PROOFS. The step, the reset state, the pins, a lane's egress, the aux channels' pulses and the certificates of delivery. -/

namespace Sys2Proof.Proofs

open Sys2Proof.Machine Sys2Proof.Laws R

/-! ### The step and the reset state -/

/-- Settles O1. -/
theorem stepTakesFront : Obligations.StepTakesFront := fun _ _ => rfl

/-- Every base period forgets which load switch channels an action has commanded (R398). -/
theorem tick_lsw_acted (s : State) : s.tick.lsw.acted = 0 := rfl

/-- Refutes O2: the list of the statement holds neither the load switches' own state, nor that of the Safe-Off sequencer, nor that of Thermal.
Here an action has commanded load switch channel 0, and the base period forgets it. -/
theorem not_emptyQueueTick : ¬ Obligations.EmptyQueueTick := by
  intro h
  obtain ⟨t, -, rfl, hsame⟩ := h { State.reset with lsw := { State.reset.lsw with acted := 1 } } rfl
  have hlsw := hsame.lsw.resolve_left (by simp [within, routeParts, logParts])
  have hacted := congrArg (·.acted) hlsw
  rw [tick_lsw_acted] at hacted
  exact absurd hacted (by decide)

/-- Settles O4. -/
theorem resetCanonical : Obligations.ResetCanonical := by
  unfold Obligations.ResetCanonical Canonical
  decide

/-- Settles O56. -/
theorem resetRegisterValues : Obligations.ResetRegisterValues := by
  unfold Obligations.ResetRegisterValues
  decide

/-! ### The pins -/

section Pins

variable {s : State}

theorem pinAt_of_runs {p : Pin} (hon : bit (s.get PWR_DOM_STAT.ON) 0 = true) (hruns : s.runs p.domain = true) : s.pinAt p = s.pinRuns p := by
  simp [State.pinAt, hon, hruns]

/-- A pin whose domain is off or in reset is at the level of R42, but for a load switch output. -/
theorem pinAt_of_not_runs {p : Pin} (hon : bit (s.get PWR_DOM_STAT.ON) 0 = true) (hstop : s.runs p.domain = false) (hls : ∀ n, p ≠ .ls n) :
    s.pinAt p = p.held := by
  cases p with
  | ls n => exact absurd rfl (hls n)
  | _ => simp [State.pinAt, hon, hstop]

end Pins

/-- Settles O57: a pin's domain either runs, and what drives the pin gives its level, or holds it. -/
theorem pinLevels : Obligations.PinLevels := by
  intro s hon
  refine ⟨fun n _ hstop => ⟨?_, ?_⟩, fun a hactive => ?_, fun n hoff => ?_, fun n hstop => ?_, fun p hstop => ⟨?_, ?_, ?_⟩, fun hstop => ?_, ?_⟩
  case refine_1 => exact pinAt_of_not_runs hon hstop nofun
  case refine_2 => exact pinAt_of_not_runs hon hstop nofun
  case refine_3 =>
    cases hruns : s.runs 10
    · exact pinAt_of_not_runs hon hruns nofun
    · simp [pinAt_of_runs (p := .auxDrv a) hon hruns, State.pinRuns, hactive, levelOf]
  case refine_4 =>
    cases hruns : s.runs 8
    · exact pinAt_of_not_runs hon hruns nofun
    · have hlane : bit (s.get FAB_CTRL.LANE_EN) n = false := hoff.resolve_left (by simp [hruns])
      simp [pinAt_of_runs (p := .laneTxdis n) hon hruns, State.pinRuns, hlane, levelOf]
  case refine_5 => simp [State.pinAt, hon, Pin.domain, hstop]
  case refine_6 => exact pinAt_of_not_runs hon hstop nofun
  case refine_7 => exact pinAt_of_not_runs hon hstop nofun
  case refine_8 => exact pinAt_of_not_runs hon hstop nofun
  case refine_9 => exact pinAt_of_not_runs hon hstop nofun
  case refine_10 =>
    cases hruns : s.runs 1
    · exact (pinAt_of_not_runs (p := .ready) hon hruns nofun).trans (by simp [Pin.held])
    · simp [pinAt_of_runs (p := .ready) hon hruns, State.pinRuns, levelOf]

/-! ### A lane's egress -/

section Egress

variable {x : LaneX} {e : Egr}

theorem covers_false_of_spare (hurgent : e.urgent = false) (hvc : e.f.vc % 2 = 0) (hspare : x.cred0 < e.credits + 16) : x.covers e = false := by
  simp [LaneX.covers, hurgent, hvc, hspare]

/-- A frame is picked only where the credits cover it. -/
theorem covers_of_pick (h : x.pick = some e) : x.covers e = true := by
  have hhead (p : Egr → Bool) (a : Egr) :
      (match x.queue.find? p with | some e => if x.covers e then some e else none | none => none) = some a → x.covers a = true := by
    intro ha
    split at ha
    · split at ha <;> simp_all
    · simp at ha
  simp only [LaneX.pick, Option.or_eq_some_iff] at h
  obtain h | ⟨-, h⟩ := h
  · exact hhead _ _ h
  · split at h <;> (rw [Option.or_eq_some_iff] at h; obtain h | ⟨-, h⟩ := h <;> exact hhead _ _ h)

/-- A covered frame's credits are there, of VC1 or of VC0. -/
theorem credits_le_of_covers (h : x.covers e = true) : if e.f.vc % 2 = 1 then e.credits ≤ x.cred1 else e.credits ≤ x.cred0 := by
  by_cases hvc : e.f.vc % 2 = 1
  · simpa [LaneX.covers, hvc] using h
  · cases hurgent : e.urgent <;> simp only [LaneX.covers, hvc, hurgent, if_false, if_true, decide_eq_true_eq] at h ⊢
    · simp at h
      omega
    · exact h

end Egress

theorem replayFit_head {room seq : Nat} {b : List Nat} {l : List (Nat × List Nat)} (h : b.length ≤ room) :
    (replayFit room ((seq, b) :: l)).head? = some (seq, b) := by
  simp [replayFit, h]

theorem lane_setLane_same (s : State) (l : Nat) (x : LaneX) : (s.setLane l x).lane l = x :=
  sparseGet_sparsePut_same _ _ _ _

/-- The lane's own state after it has sent a frame. -/
def sentLane (s : State) (l : Nat) (e : Egr) : LaneX :=
  let x := s.lane l
  let b := frameBytes (s.leaving e l)
  let v1 := e.f.vc % 2 == 1
  { x with
    queue := x.queue.erase e, busy := 3200 * b.length, seq := x.seq + 1, replay := replayFit 16384 ((x.seq, b) :: x.replay)
    cred0 := if v1 then x.cred0 else x.cred0 - e.credits, cred1 := if v1 then x.cred1 - e.credits else x.cred1
    turn := if e.urgent then x.turn else !v1 }

theorem laneServe_of_pick {s : State} {l : Nat} {e : Egr} (hup : s.laneUp l = true) (hidle : (s.lane l).busy = 0)
    (hpick : (s.lane l).pick = some e) (hbank : s.bankOf e.f.epo ≠ none) :
    s.laneServe l = (s.setLane l (sentLane s l e)).emit .forwarded l ((s.lane l).seq :: frameBytes (s.leaving e l)) := by
  simp [State.laneServe, hup, hidle, hpick, hbank, sentLane]

/-- Settles O58: what is picked is covered, and what is sent leaves the lane's state as `sentLane`. -/
theorem laneEgress : Obligations.LaneEgress := by
  refine ⟨fun x e hfind hcovers => ?_, fun x a b hurgent ha hb hca hcb => ?_, fun x e hurgent hvc hspare => covers_false_of_spare hurgent hvc hspare,
    fun s l e hup hidle hpick hbank => ?_⟩
  · simp [LaneX.pick, hfind, hcovers]
  · cases hturn : x.turn <;> simp [LaneX.pick, hurgent, ha, hb, hca, hcb, hturn]
  · have hcredits := credits_le_of_covers (covers_of_pick hpick)
    rw [laneServe_of_pick hup hidle hpick hbank]
    refine ⟨rfl, ?_⟩
    rw [show ∀ d, ((s.setLane l (sentLane s l e)).emit .forwarded l d).lane l = sentLane s l e from fun d => lane_setLane_same s l _]
    refine ⟨rfl, rfl, replayFit_head, ?_, rfl⟩
    change _ + _ + e.credits = _
    by_cases hvc : e.f.vc % 2 = 1 <;> simp [hvc, sentLane] at hcredits ⊢ <;> omega

/-! ### The aux channels' pulses -/

/-- An aux channel at the end of its period in the hold-up sequence: no pulse starts, though neither Safe-Off nor another mode keeps it low. -/
def auxFailing : State :=
  let s := ((((State.reset.put PWR_DOM_STAT.ON 0xFFF).put PWR_DOM_STAT.IN_RST 0).put PWR_AUX_STAT.MODE 2 5).put PWR_AUX_CTRL.LOOP 63 5).setAux 5
    { per := 1000000, t := 996000, ref := 100 }
  { s with boot := { s.boot with failing := true } }

/-- Refutes O59: the first clause does not except the hold-up sequence of a supply failure (R51), in which no pulse starts. -/
theorem not_auxSwitching : ¬ Obligations.AuxSwitching := by
  rintro ⟨hstart, -⟩
  obtain ⟨hpulse, -⟩ := hstart auxFailing 5 (by decide) (by decide) (by decide) (by decide) (by decide) (by decide) (by decide)
  exact absurd hpulse (by decide)

/-! ### The certificates of delivery -/

section Certificates

theorem infix_der (tag : Nat) (l : List Nat) : l <:+: der tag l :=
  ⟨tag :: derLen l.length, [], by simp [der]⟩

theorem infix_flatten {l : List Nat} {parts : List (List Nat)} (h : l ∈ parts) : l <:+: parts.flatten := by
  obtain ⟨before, after, rfl⟩ := List.append_of_mem h
  exact ⟨before.flatten, after.flatten, by simp⟩

theorem infix_derSeq {l : List Nat} {parts : List (List Nat)} (h : l ∈ parts) : l <:+: derSeq parts :=
  (infix_flatten h).trans (infix_der _ _)

theorem infix_publicInfo (type : Nat) (key : List Nat) : key <:+: publicInfo type key :=
  ((List.suffix_cons 0 key).isInfix.trans (infix_der 0x03 _)).trans (infix_derSeq (by simp))

theorem infix_unitCert_of_body {s : State} {k type : Nat} {l : List Nat} (h : l <:+: s.certBody k type) : l <:+: s.unitCert k type := by
  unfold State.unitCert
  exact h.trans (infix_derSeq (by simp))

/-- The word of a slot's attributes has the length above the fields of its type, its use and its six flags. -/
theorem slotAttr_div (s : State) (k : Nat) (htype : (s.slot k).type < 16) (huse : (s.slot k).use < 32) :
    s.slotAttr k / 65536 = ((s.certOf k (s.slot k)).getD []).length := by
  have hflag (c : Bool) (i : Nat) : (if c then 2 ^ i else 0) ≤ 2 ^ i := by split <;> simp
  have h9 := hflag (fixedSlot k && (s.slot k).used) 9
  have h10 := hflag (s.slot k).lockw 10
  have h11 := hflag (s.slot k).mseal 11
  have h12 := hflag (s.slot k).cert.isSome 12
  have h13 := hflag (s.slot k).bad 13
  simp only [State.slotAttr]
  norm_num at h9 h10 h11 h12 h13 ⊢
  omega

end Certificates

/-- Settles O60: the parts of a certificate stand in the sequence that it is. -/
theorem deliveredCertificates : Obligations.DeliveredCertificates := by
  refine ⟨by decide, fun k hk => ?_, fun s hserial => ?_, fun s k hk hcert => ?_, fun s k type => ⟨?_, ?_, ?_⟩, fun s k hk => ?_, slotAttr_div⟩
  case refine_1 =>
    rw [show certExtensions k = certExtensions 1 by simp [certExtensions, hk]]
    decide
  case refine_2 =>
    rw [State.unitName, hserial]
    decide
  case refine_3 => simp [State.certOf, hk, hcert]
  case refine_4 => exact infix_unitCert_of_body (infix_derSeq (by simp))
  case refine_5 => exact infix_unitCert_of_body (infix_derSeq (by simp))
  case refine_6 => exact infix_unitCert_of_body ((infix_publicInfo type _).trans (infix_derSeq (by simp)))
  case refine_7 => simp [State.certOf, Nat.not_lt.mpr hk]

end Sys2Proof.Proofs
end

section
/-! PROOFS. Counterexamples to statements about results: for each a concrete state that meets the conditions of one clause, and a reading of the next
state that the clause gives otherwise. -/

namespace Sys2Proof.Proofs

open Sys2Proof.Machine Sys2Proof.Laws R

/-- What is read of the next state, where a command answers one. -/
def readAfter {α : Type} (read : State → α) : Host.Outcome State Fault Refusal → Option α
  | .next t => some (read t)
  | _ => none

theorem readAfter_of_next {α : Type} (read : State → α) {o : Host.Outcome State Fault Refusal} {t : State} (h : o = .next t) :
    readAfter read o = some (read t) := by
  rw [h, readAfter]

/-- A field of the next state that is given as `v`, and evaluates otherwise. -/
theorem ne_of_readAfter {α : Type} {read : State → α} {o : Host.Outcome State Fault Refusal} {t : State} {v : α} (h : o = .next t)
    (hread : readAfter read o ≠ some v) : read t ≠ v :=
  fun heq => hread ((readAfter_of_next read h).trans (congrArg some heq))

/-- The reset state with every domain on. -/
def allOn : State := State.reset.put PWR_DOM_STAT.ON 0xFFF

/-- All domains on and ready, with an ADMIN session 0. -/
def adminOpen : State := ((allOn.put SYS_SESS.STATE 2 0).put SYS_SESS.LEVEL 3 0).put SYS_READY.RDY 0xFFFF

end Sys2Proof.Proofs
end


section
namespace Sys2Proof.Proofs

open Sys2Proof.Machine Sys2Proof.Laws R

/-! ### FRAME_FORWARD (R184, R185) -/

/-- Node 1, whose lane 7 is ACTIVE and has not learnt its neighbour. -/
def neighbourUnknown : State :=
  (allOn.put FAB_LANE_STAT.STATE 3 7).put FAB_STAT.NODE_ID 1

/-- A frame to endpoint 1 of node 1 that its source, node 2, has sent itself: `HOPS` is 0. -/
def frameOfNeighbour : FabFrame :=
  { dn := 0, ty := 1, vc := 0, urg := 0, epo := 0, hops := 0, dst := 2 ^ 11 + 1, src := 2 * 2 ^ 11 + 1, seq := 5, pay := [1] }

/-- Refutes O10: its clause of the frame that is delivered says that nothing but `out` changes. From a frame with `HOPS` 0 the module also learns
its neighbour's node: here `NBR_ID` of lane 7 goes from 0 to 2. -/
theorem not_fabricLaneResults : ¬ Obligations.FabricLaneResults := by
  unfold Obligations.FabricLaneResults
  rintro ⟨-, -, -, -, -, -, -, hdelivered, -⟩
  have hexec := hdelivered neighbourUnknown 7 frameOfNeighbour 0 0 0 (by decide) (by decide) (by decide) (by decide) (by decide) (by decide)
    (by decide) (by decide) (by decide)
  have hread := readAfter_of_next (·.get FAB_LANE_STAT.NBR_ID 7) hexec
  exact absurd hread (by decide)

/-! ### FABRIC_ALONE (R178) -/

/-- Refutes O11: its clause of FABRIC_ALONE takes a Fabric in any state up to MEMBER to ALONE, and so one in OFF; but only a Fabric in TRAIN,
ELECT, JOIN or MEMBER goes there (R178), and OFF stays OFF. -/
theorem not_fabricRootResults : ¬ Obligations.FabricRootResults := by
  unfold Obligations.FabricRootResults
  rintro ⟨-, -, -, -, -, -, -, -, halone, -⟩
  obtain ⟨t, hexec, hstate, -⟩ := halone allOn 100 0 (by decide) (by decide) (by decide) (by decide) (by decide)
  exact ne_of_readAfter (read := (·.get FAB_STAT.STATE)) hexec (by decide) hstate

/-! ### LOAD_CERTIFICATE (R421) -/

/-- The Key Vault serves an ADMIN session, and the stage is said to hold 4,095 bytes. -/
def stageTooLong : State := adminOpen.put KV_STAGE_LEN.LEN 4095

/-- Refutes O23: its clause of LOAD_CERTIFICATE does not bound the length of the stage; a certificate of more than 2,048 bytes is refused with
result 8. -/
theorem not_vaultResults : ¬ Obligations.VaultResults := by
  unfold Obligations.VaultResults
  rintro ⟨-, -, -, -, -, hload, -⟩
  obtain ⟨t, hexec, -, hresult, -⟩ := hload stageTooLong 0 7 true false true (by decide) (by decide) (by decide) (by decide) (by decide) (by decide)
    (by decide) (by decide) (by decide) rfl rfl
  exact ne_of_readAfter (read := (·.get KV_CMD_STAT.RESULT)) hexec (by decide) hresult

end Sys2Proof.Proofs
end

section
/-! PROOFS. Further counterexamples to statements about results: a session on a full Moraine log, cell orders of an earlier ring, an active dynamic
limit, a settled close, a Powerline frame of another type, a held RST_N, a supply fail that runs, a node of an earlier need frame, a second count of
CAN initialisations. -/

namespace Sys2Proof.Proofs

open Sys2Proof.Machine Sys2Proof.Laws R

/-! ### LIM_DYN_WRITE (R218) -/

/-- An ADMIN session on a module that runs, in which a launched action has set the dynamic limit. -/
def limitByAction : State := { adminOpen with sl := { adminOpen.sl with limAct := true } }

/-- Refutes O12: its clause of LIM_DYN_WRITE takes the written value in any state, but while a launched action holds the limit the write is only
logged: `LIM_DYN` keeps its reset value. -/
theorem not_ledgerResults : ¬ Obligations.LedgerResults := by
  unfold Obligations.LedgerResults
  rintro ⟨-, -, -, -, -, -, -, -, -, -, -, -, -, -, hwrite, -⟩
  obtain ⟨t, hexec, hlimit, -⟩ := hwrite limitByAction 0 5 (by decide)
  exact ne_of_readAfter (read := (·.get SL_LIMDYN.LIM_DYN)) hexec (by decide) hlimit

/-! ### PLC_FRAME_RECEIVE (R233) -/

/-- Station 5 in MEMBER with a time base and one link, to station 0. -/
def plcMember : State :=
  { (((allOn.put PLC_STAT.STATE 4).put PLC_STAT.STN 5).put TB_STAT.STATE 2) with plc := { links := [(0, { serial := 9 })] } }

/-- Refutes O13: its clause of a unicast frame leaves the frame type open, but only a frame of type 2 carries segments: one of type 0 is not
taken, and `rxSeq` stays. -/
theorem not_powerlineResults : ¬ Obligations.PowerlineResults := by
  unfold Obligations.PowerlineResults
  rintro ⟨-, -, -, -, -, -, -, hreceive, -⟩
  obtain ⟨t, hexec, hseq, -⟩ := hreceive plcMember 0 5 1 1 1 7 ⟨0, []⟩ [⟨0, [1], true, false, 0xFF, 0⟩] 0 [1] (by decide) (by decide) (by decide)
    (by decide) (by decide) (by decide) (by decide) (by decide) (by decide) (by decide) (by decide) (by decide)
  exact ne_of_readAfter (read := fun t => (t.plcLink 0).rxSeq) hexec (by decide) hseq

/-! ### METROLOGY_COMMIT (R273) -/

/-- Metrology and Billing of a dispenser run; point 0 still has an interval to settle. -/
def pointLeft : State :=
  let s := allOn.put SYS_ROLE.ROLE_ACT 4
  { s with bil := { s.bil with left := [0] } }

/-- Refutes O14: its clause of METROLOGY_COMMIT has the commit hold Billing's state as it is; the commit first settles the points that are left,
so the copy has none of them. -/
theorem not_metrologyResults : ¬ Obligations.MetrologyResults := by
  unfold Obligations.MetrologyResults
  rintro ⟨-, -, -, -, -, -, -, -, -, -, -, -, -, -, -, -, -, -, -, -, -, -, -, hcommit, -⟩
  obtain ⟨t, hexec, -, -, -, hbil, -⟩ := hcommit pointLeft 60 (by decide) (by decide) (by decide)
  have hleft : t.bilCom.left = [0] := congrArg Bil.left hbil
  exact ne_of_readAfter (read := (·.bilCom.left)) hexec (by decide) hleft

/-! ### SESSION_OPEN (R296) -/

/-- Metrology and Billing of a dispenser run with the legal point 0; the Moraine log holds as many records as fit, with `MOR_FULL` not shown. -/
def moraineHeld : State :=
  let s := ((allOn.put SYS_ROLE.ROLE_ACT 4).put MET_PT_CFG.EN 1).put MET_PT_CFG.LEGAL 1
  { s with evr := { s.evr with mor := List.replicate 8192 ⟨0, ⟨0, 0, 0x1008, 1, 0, []⟩⟩ } }

/-- No session opens on a full Moraine log. -/
theorem billOpen_moraineHeld : (moraineHeld.billOpen 0 1 99 [] 0).2 = moraineHeld := by
  have hfull : 8192 ≤ moraineHeld.evr.mor.length := (List.length_replicate ..).ge
  unfold State.billOpen
  rw [if_neg (by decide), if_pos (Or.inr (Or.inl hfull)), if_neg (by decide)]

/-- Refutes O15: its clause of SESSION_OPEN asks for `MOR_FULL` = 0, where the module looks at the records the Moraine log holds. -/
theorem not_billingResults : ¬ Obligations.BillingResults := by
  unfold Obligations.BillingResults
  rintro ⟨-, -, -, -, -, -, -, -, hopen, -⟩
  obtain ⟨t, hexec, hopn, -⟩ := hopen moraineHeld 0 1 99 [] 0 (by decide) (by decide) (by decide) (by decide) (by decide) (by decide)
  have hstay : moraineHeld = t := Host.Outcome.next.inj ((congrArg Host.Outcome.next billOpen_moraineHeld).symm.trans hexec)
  subst hstay
  exact absurd hopn (by decide)

/-! ### DECAY_TIMEOUT and INTERNAL_OVER_TEMPERATURE in a supply fail (R52) -/

/-- A dispenser whose connector 1 waits for its current to decay, under Safe-Off and in a supply fail. -/
def decayInFail : State :=
  let s := ((((allOn.put SYS_ROLE.ROLE_ACT 4).put SYS_ROLE.DISP_CONN 2).put VS_CONN_STAT.STATE 7 1).put SAF_STAT.ACTIVE 1)
  { s with boot := { s.boot with failing := true } }

/-- Refutes O16: its clause of DECAY_TIMEOUT adds source 3 to `SAF_SRC` in any state under Safe-Off; while a supply fail runs no request for
Safe-Off is taken. -/
theorem not_vehicleStateResults : ¬ Obligations.VehicleStateResults := by
  unfold Obligations.VehicleStateResults
  rintro ⟨-, -, -, -, -, -, -, -, -, -, -, -, -, -, -, -, -, -, -, htimeout, -⟩
  obtain ⟨t, hexec, -, -, -, hsource, -⟩ := htimeout decayInFail 1 65535 (by decide) (by decide) (by decide) (by decide) (by decide)
  exact ne_of_readAfter (read := fun t => bit (t.get SAF_SRC.SRC) 3) hexec (by decide) hsource

/-- Internal sensor 15 reads 150 °C, under Safe-Off and in a supply fail. -/
def hotInFail : State :=
  let s := (allOn.put TH_INT_VAL.T 1500 15).put SAF_STAT.ACTIVE 1
  { s with boot := { s.boot with failing := true } }

/-- Refutes O18: its clause of INTERNAL_OVER_TEMPERATURE adds source 4 to `SAF_SRC` in any state under Safe-Off; while a supply fail runs no
request for Safe-Off is taken. -/
theorem not_thermalSensorResults : ¬ Obligations.ThermalSensorResults := by
  unfold Obligations.ThermalSensorResults
  rintro ⟨-, -, -, -, -, -, -, -, -, -, -, -, -, -, hover⟩
  obtain ⟨t, hexec, hsource, -⟩ := hover hotInFail 15 3 (by decide) (by decide) (by decide) (by decide) (by decide)
  exact ne_of_readAfter (read := fun t => bit (t.get SAF_SRC.SRC) 4) hexec (by decide) hsource

/-! ### NEED_FRAME_LOSS (R330) -/

/-- Group 7 was fed by a need frame of node 1, two frame times ago. -/
def needOfNode : State := (allOn.put PE_GRP_CTRL.LOOP 63 7).setNeed 7 { fed := true, conn := 1, age := 2, node := 1 }

/-- Refutes O17: its clause of NEED_FRAME_LOSS keeps the connector alone of what the group knew of its need frames; the node is kept too. -/
theorem not_vehicleMessageResults : ¬ Obligations.VehicleMessageResults := by
  unfold Obligations.VehicleMessageResults
  rintro ⟨-, -, -, -, -, -, -, -, -, -, -, -, -, -, -, -, -, -, -, -, -, -, -, -, -, -, -, -, hloss⟩
  obtain ⟨t, hexec, hneed, -⟩ := hloss needOfNode 7 (by decide) (by decide) (by decide) (by decide) (by decide)
  exact ne_of_readAfter (read := (·.needOf 7)) hexec (by decide) hneed

/-! ### CS_WAKE (R375) -/

/-- The Cell Supervisor is enabled and in OFF; it has numbered three orders before. -/
def ringOff : State :=
  { ((allOn.put SYS_ROLE.ROLE_ACT 8).put CS_CTRL.EN 1) with cs := { seq := 3 } }

/-- Refutes O20: its clause of CS_WAKE has everything of an earlier ring forgotten; the orders and their numbers are kept. -/
theorem not_cellSupervisorResults : ¬ Obligations.CellSupervisorResults := by
  unfold Obligations.CellSupervisorResults
  rintro ⟨hwake, -⟩
  obtain ⟨t, hexec, -, hcs, -⟩ := hwake ringOff (by decide) (by decide)
  exact ne_of_readAfter (read := (·.cs)) hexec (by decide) hcs

/-! ### CAN_INIT (R404) -/

/-- An ADMIN session; CAN port 0 is ACTIVE. -/
def canActive : State := adminOpen.put CAN_STAT.STATE 3

/-- Refutes O22: its clause of CAN_INIT has nothing of the CAN ports' memory change but the hold of the port; at a port in ACTIVE the frame in
progress ends first, which the model notes as well. -/
theorem not_canResults : ¬ Obligations.CanResults := by
  unfold Obligations.CanResults
  rintro ⟨-, -, -, hinit, -⟩
  obtain ⟨t, hexec, -, -, hcan⟩ := hinit canActive 0 0 (by decide) (by decide) (by decide) (by decide)
  exact ne_of_readAfter (read := (·.can)) hexec (by decide) hcan

/-! ### POR_RESET with RST_N low (R37, R73) -/

/-- The module is without power, and RST_N is held low. -/
def resetHeld : State := { State.reset.put PWR_DOM_STAT.ON 0 with pins := { State.reset.pins with rstLow := true } }

/-- Refutes O27: its clause of POR_RESET has the start-up sequence end in any state, but while RST_N is low the module stays in reset. -/
theorem not_resetResults : ¬ Obligations.ResetResults := by
  unfold Obligations.ResetResults
  rintro ⟨-, -, -, hpor, -⟩
  obtain ⟨t, hexec, -, hkind, -⟩ := hpor resetHeld 16000 10 true ⟨[], [], 0, 0, [], 0, 0, 0, 0⟩ (by decide) (by decide) (by decide) (by decide)
  exact ne_of_readAfter (read := (·.boot.kind)) hexec (by decide) hkind

/-! ### SO_REQ in a supply fail (R52, R456) -/

/-- An ADMIN session while a supply fail runs. -/
def adminInFail : State := { adminOpen with boot := { adminOpen.boot with failing := true } }

/-- Refutes O28: its clause of SO_REQ activates Safe-Off in any state; while a supply fail runs no request for Safe-Off is taken. -/
theorem not_safeOffResults : ¬ Obligations.SafeOffResults := by
  unfold Obligations.SafeOffResults
  rintro ⟨-, -, hreq, -⟩
  obtain ⟨t, hexec, hactive, -⟩ := hreq adminInFail 0 (by decide) (by decide)
  exact ne_of_readAfter (read := (·.get SAF_STAT.ACTIVE)) hexec (by decide) hactive

end Sys2Proof.Proofs
end

section
/-! PROOFS. Counterexamples to statements about results: an aux channel that feeds the gate drivers of an enabled phase, a read of a domain that does
not run. -/

namespace Sys2Proof.Proofs

open Sys2Proof.Machine Sys2Proof.Laws R

/-! ### AUX_FEEDBACK_FAULT (R66, R67) -/

/-- Aux channel 0 is in regulation with power-good and supplies the gate drivers of port 0, whose phase 0 is enabled; the Event Recorder is up. -/
def gateSupplyGood : State :=
  let s := (((allOn.put PWR_AUX_STAT.PGOOD 1).put PWR_AUX_STAT.MODE 2).put PWR_AUX_CTRL.GD_PH 1).put PE_PH_STAT.STATE 2
  { s with evr := { up := true } }

/-- Refutes O26: its clause of AUX_FEEDBACK_FAULT has event 0x0124 alone follow in the log; where the channel reads power-good and supplies an enabled
phase, the phase trips as well, with events of its own before it. -/
theorem not_auxResults : ¬ Obligations.AuxResults := by
  unfold Obligations.AuxResults
  rintro ⟨-, -, -, -, -, hfault, -⟩
  obtain ⟨t, hexec, -, -, -, hlog⟩ := hfault gateSupplyGood 0 20 (by decide) (by decide) (by decide) (by decide)
  exact ne_of_readAfter (read := fun t => t.evr.queue.map fun r => (r.code, r.sev, r.pay)) hexec (by decide +kernel) (hlog (by decide))

/-! ### READ (R6, R507) -/

/-- An ADMIN session 0 while D1 is in reset. -/
def readInReset : State := adminOpen.put PWR_DOM_STAT.IN_RST 2

/-- The status of the single entry of a response to READ. -/
def entryStatus (o : Out) : List Nat := o.data.drop 12

/-- Refutes O31: its clause of READ asks for D3 to run, but the word at 0x30 (`SYS_READY`) is of D1: with D1 in reset its entry is answered with
status 5. -/
theorem not_messageResults : ¬ Obligations.MessageResults := by
  unfold Obligations.MessageResults
  rintro ⟨hread, -⟩
  obtain ⟨t, hexec, hout, -⟩ := hread readInReset 0 5 0x30 (by decide) (by decide) (by decide) (by decide) (by decide) (by decide) (by decide) (by decide)
  have hstatus := congrArg (Option.map entryStatus) hout
  exact ne_of_readAfter (read := fun t => t.out.head?.map entryStatus) hexec (by decide) hstatus

end Sys2Proof.Proofs
end

section
/-! PROOFS. Readings of the next state. The law of an operation under Laws/ names the parts that it may change; a field that shares no bit with any of
them, or another part of the state, reads after the operation as before. The laws are evaluated, so no operation is unfolded here. -/

namespace Sys2Proof.Proofs

open Sys2Proof.Machine Sys2Proof.Laws R

/-- The parts that share no bit with a field, by a test that evaluates. -/
def awayFrom (g : Field) : Part → Prop
  | .reg f => if apart f g then True else False
  | .inst f _ _ => if apart f g then True else False
  | .regs => False
  | _ => True

/-- No bit of the field is one of a field that shares none with it. -/
theorem not_holdsBit_of_apart {f g : Field} {i j i' j' k : Nat} (h : apart f g = true) (hi : i < g.n1) (hj : j < g.n2) (hlo : g.lo ≤ k)
    (hhi : k < g.lo + g.w) : ¬ holdsBit f i' j' (g.at i j) k := by
  rintro ⟨hi', hj', ha, hflo, hfhi⟩
  rcases apart_at h hi' hj' hi hj with hne | hbelow | habove
  · exact hne ha
  · omega
  · omega

/-- A field reads as before where none of the parts named shares a bit with it. -/
theorem get_of_law {s t : State} {g : Field} {i j : Nat} {names : (Part → Prop) → Prop} (law : ∀ {A}, names A → Keeps A s t) (all : names anyPart)
    (hi : i < g.n1) (hj : j < g.n2) (haway : names anyPart = names (awayFrom g)) : t.get g i j = s.get g i j := by
  have hkeeps : Keeps (awayFrom g) s t := law (haway ▸ all)
  refine get_eq_of_bits fun k hlo hhi => hkeeps.same.bits id _ k fun f i' j' hbit => ⟨fun hf => ?_, fun hf => ?_⟩
  · exact not_holdsBit_of_apart (of_ite_true hf) hi hj hlo hhi hbit
  · exact not_holdsBit_of_apart (of_ite_true hf) hi hj hlo hhi hbit

section Log

variable (s : State) (code sev : Nat) (pay : List Nat)

/-- The record of an event changes no register but those of the Event Recorder that its law names. -/
theorem log_get {g : Field} {i j : Nat} (hi : i < g.n1) (hj : j < g.n2) (haway : touchLog anyPart = touchLog (awayFrom g)) :
    (s.log code sev pay).get g i j = s.get g i j :=
  get_of_law (fun h => log_keeps h (Keeps.refl _ s)) (touchLog_all anyPart_all) hi hj haway

theorem log_mg : (s.log code sev pay).mg = s.mg := (log_unchanged s code sev pay).mg.resolve_left (by simp [within, logParts])

theorem log_fab : (s.log code sev pay).fab = s.fab := (log_unchanged s code sev pay).fab.resolve_left (by simp [within, logParts])

theorem log_out : (s.log code sev pay).out = s.out := (log_unchanged s code sev pay).out.resolve_left (by simp [within, logParts])

end Log

/-- A count goes up by one, to the field's largest value at most. -/
theorem get_inc_same {s : State} {f : Field} {i j : Nat} (hi : i < f.n1) (hj : j < f.n2) (hw : f.lo + f.w ≤ 32) :
    (s.inc f i j).get f i j = min (s.get f i j + 1) (2 ^ f.w - 1) := by
  unfold State.inc
  rw [get_put_same hi hj hw]
  have hpos := Nat.two_pow_pos f.w
  exact Nat.mod_eq_of_lt (by unfold satInc; omega)

theorem get_inc_apart {s : State} {f g : Field} {i j i' j' : Nat} (h : apart f g = true) (hi : i' < g.n1) (hj : j' < g.n2) :
    (s.inc f i j).get g i' j' = s.get g i' j' := get_put_apart h hi hj

end Sys2Proof.Proofs
end

section
/-! PROOFS. The Event Recorder (R439 to R451): what the store manager writes, what a session reads through its window, and what the check of the
logs and the site mark record. -/

namespace Sys2Proof.Proofs

open Sys2Proof.Machine Sys2Proof.Laws R

variable {s : State}

/-! ### EVENT_RECORD (R439) -/

/-- The state with another Event Recorder. -/
def withEvr (s : State) (e : Evr) : State := { s with evr := e }

/-- The Event Recorder with a record at the end of the operational log. -/
def withRecord (s : State) (r : Rec) : Evr := { s.evr with op := s.evr.op ++ [(⟨s.get EVR_OP_SEQ.SEQ, r⟩ : Held)] }

/-- The operational log takes a record while it has room. -/
theorem store1_of_room {r : Rec} (hroom : s.evr.op.length < 16384) :
    s.store1 r = ((withEvr s (withRecord s r)).put EVR_OP_SEQ.SEQ (s.get EVR_OP_SEQ.SEQ + 1)).opFill := by
  unfold State.store1
  exact if_pos hroom

theorem store1_evr_of_room {r : Rec} (hroom : s.evr.op.length < 16384) : (s.store1 r).evr = withRecord s r := by
  rw [store1_of_room hroom, opFill_evr, put_evr, withEvr]

theorem storeOp_of_room {r : Rec} (hroom : s.evr.op.length < 16384) (hdisc : s.evr.discNew = 0) : s.storeOp r = s.store1 r := by
  unfold State.storeOp
  exact if_pos (.inl (by rw [store1_evr_of_room hroom]; exact hdisc))

theorem opFill_number : s.opFill.get EVR_STAT.OP_N = s.evr.op.length % 2 ^ EVR_STAT.OP_N.w := by
  unfold State.opFill
  rw [get_put_apart (by decide) (by decide) (by decide), get_put_same (by decide) (by decide) (by decide)]

/-- The Event Recorder without the record at the front of its queue. -/
def withQueue (s : State) (l : List Rec) : State := withEvr s { s.evr with queue := l }

theorem exec_eventRecord {r : Rec} {l : List Rec} (hqueue : s.evr.queue = r :: l) (hdropped : s.evr.dropped = 0) :
    exec .eventRecord s = .next ((withQueue s l).storeOp r) := by
  have harm : exec .eventRecord s = execEventRecord s := rfl
  rw [harm, execEventRecord, hqueue]
  exact congrArg Host.Outcome.next (if_pos hdropped)

/-- The store manager writes the record at the front of the intake queue. -/
theorem eventRecord_results {r : Rec} {l : List Rec} (hqueue : s.evr.queue = r :: l) (hdropped : s.evr.dropped = 0) (hdisc : s.evr.discNew = 0)
    (hroom : s.evr.op.length < 16384) : ∃ t, exec .eventRecord s = .next t ∧ t.evr.queue = l ∧
      t.evr.op = s.evr.op ++ [⟨s.get EVR_OP_SEQ.SEQ, r⟩] ∧ t.get EVR_OP_SEQ.SEQ = (s.get EVR_OP_SEQ.SEQ + 1) % 2 ^ 32 ∧
      t.get EVR_STAT.OP_N = (s.evr.op.length + 1) % 2 ^ EVR_STAT.OP_N.w := by
  have hroom' : (withQueue s l).evr.op.length < 16384 := hroom
  refine ⟨_, exec_eventRecord hqueue hdropped, ?_⟩
  rw [storeOp_of_room hroom' hdisc, store1_evr_of_room hroom', store1_of_room hroom']
  refine ⟨rfl, rfl, ?seq, ?fill⟩
  case seq =>
    rw [opFill_opSeq, get_put_same (by decide) (by decide) (by decide)]
    rfl
  case fill =>
    rw [opFill_number, put_evr]
    exact congrArg (· % _) List.length_append

/-! ### The read window (R448, R450) -/

theorem ses_setSes (s : State) (sess : Nat) (x : Ses) : (s.setSes sess x).ses sess = x := sparseGet_sparsePut_same ..

theorem inc_evr (s : State) (f : Field) (i j n : Nat) : (s.inc f i j n).evr = s.evr := put_evr ..

theorem inc_mg (s : State) (f : Field) (i j n : Nat) : (s.inc f i j n).mg = s.mg := put_mg ..

theorem inc_fab (s : State) (f : Field) (i j n : Nat) : (s.inc f i j n).fab = s.fab := put_fab ..

/-- A count that the Event Recorder does not read changes nothing of what it records. -/
theorem logged_of_inc {t : State} {f : Field} {i j n : Nat} {l : List (Nat × Nat × List Nat)} (hf : apart f EVR_CFG.MIN_SEV = true)
    (h : Logged (s.inc f i j n) t l) : Logged s t l := logged_of_put hf h

/-- A record that fails its check is counted and logged. -/
theorem crcFailed_count (s : State) (log seq : Nat) :
    (s.crcFailed log seq).get EVR_CRC.CRC_ERR = min (s.get EVR_CRC.CRC_ERR + 1) (2 ^ EVR_CRC.CRC_ERR.w - 1) := by
  unfold State.crcFailed
  rw [log_get _ _ _ _ (by decide) (by decide) rfl, get_inc_same (by decide) (by decide) (by decide)]

theorem crcFailed_logged (s : State) (log seq : Nat) : Logged s (s.crcFailed log seq) [(0x1007, FAULT, [log, 0, 0, 0] ++ leBytes 4 seq)] :=
  logged_of_inc (by decide) (logged_log (by decide))

theorem crcFailed_mg (s : State) (log seq : Nat) : (s.crcFailed log seq).mg = s.mg := by
  unfold State.crcFailed
  rw [log_mg, inc_mg]

theorem crcFailed_op (s : State) (log seq : Nat) : (s.crcFailed log seq).evr.op = s.evr.op := by
  unfold State.crcFailed
  rw [(log_logs (by decide)).1, inc_evr]

/-- The window with a record, and whether it passed its check. -/
def windowWith (w : Window) (h : Held) (ok : Bool) : Window :=
  { w with seq := h.seq, present := true, crcOk := ok, words := (List.range 8).map fun w => ofLeBytes ((h.rcd.bytes.drop (4 * w)).take 4) }

/-- The window with no record. -/
def windowEmpty (w : Window) : Window := { w with seq := 0, present := false, crcOk := false, words := [] }

/-- The session with another window. -/
def withWindow (s : State) (sess : Nat) (w : Window) : State := s.setSes sess { s.ses sess with win := w }

theorem windowLoad_of_held {sess v : Nat} {ok : Bool} {h : Held} (hnext : nextHeld (s.logOf (s.ses sess).win.log) v = some h) :
    s.windowLoad sess v ok =
      if ok then withWindow s sess (windowWith (s.ses sess).win h ok)
      else (withWindow s sess (windowWith (s.ses sess).win h ok)).crcFailed (s.ses sess).win.log h.seq := by
  simp only [State.windowLoad, hnext]
  rfl

theorem windowLoad_of_none {sess v : Nat} {ok : Bool} (hnext : nextHeld (s.logOf (s.ses sess).win.log) v = none) :
    s.windowLoad sess v ok = withWindow s sess (windowEmpty (s.ses sess).win) := by
  simp only [State.windowLoad, hnext]
  rfl

theorem withWindow_win (s : State) (sess : Nat) (w : Window) : ((withWindow s sess w).ses sess).win = w := by
  rw [withWindow, ses_setSes]

theorem withWindow_regs (s : State) (sess : Nat) (w : Window) : (withWindow s sess w).regs = s.regs := rfl

theorem withWindow_evr (s : State) (sess : Nat) (w : Window) : (withWindow s sess w).evr = s.evr := rfl

theorem withWindow_get (s : State) (sess : Nat) (w : Window) (f : Field) : (withWindow s sess w).get f = s.get f := rfl

theorem logged_of_withWindow {t : State} {sess : Nat} {w : Window} {l : List (Nat × Nat × List Nat)} (h : Logged (withWindow s sess w) t l) :
    Logged s t l := h

theorem crcFailed_ses (s : State) (log seq sess : Nat) : (s.crcFailed log seq).ses sess = s.ses sess := by
  unfold State.ses
  rw [crcFailed_mg]

theorem exec_logReadLoad {sess v : Nat} {ok : Bool} (hwrite : s.writeStatus sess EVR_RD_SEQ.SEQ = 0) (hruns : s.runs 3 = true) (hv : v < 2 ^ 32) :
    exec (.logReadLoad sess v ok) s = .next (s.windowLoad sess v ok) := by
  have harm : exec (.logReadLoad sess v ok) s = execLogReadLoad sess v ok s := rfl
  rw [harm, execLogReadLoad, guarded_of_writeStatus_zero _ hwrite, hruns, Nat.mod_eq_of_lt hv]
  rfl

theorem exec_logReadNext {sess : Nat} {ok : Bool} (hlevel : s.level sess ≠ 0) (hruns : s.runs 3 = true)
    (hauto : (s.ses sess).win.auto = true) (hpresent : (s.ses sess).win.present = true) :
    exec (.logReadNext sess ok) s = .next (s.windowLoad sess ((s.ses sess).win.seq + 1) ok) := by
  have harm : exec (.logReadNext sess ok) s = execLogReadNext sess ok s := rfl
  rw [harm, execLogReadNext, if_neg hlevel, hruns]
  simp only [State.windowNext, hauto, hpresent]
  rfl

/-- The window takes a record that passes its check. -/
theorem logReadLoad_results {sess v : Nat} {ok : Bool} {h : Held} (hwrite : s.writeStatus sess EVR_RD_SEQ.SEQ = 0) (hruns : s.runs 3 = true)
    (hv : v < 2 ^ 32) (hnext : nextHeld (s.logOf (s.ses sess).win.log) v = some h) (hok : ok = true) :
    ∃ t, exec (.logReadLoad sess v ok) s = .next t ∧ (t.ses sess).win = windowWith (s.ses sess).win h true ∧ t.regs = s.regs ∧ t.evr = s.evr := by
  subst hok
  refine ⟨_, exec_logReadLoad hwrite hruns hv, ?_⟩
  simp only [windowLoad_of_held hnext, reduceIte]
  exact ⟨withWindow_win _ _ _, withWindow_regs _ _ _, withWindow_evr _ _ _⟩

/-- The window takes a record that fails its check; the failure is counted and logged. -/
theorem logReadLoad_failed {sess v : Nat} {ok : Bool} {h : Held} (hwrite : s.writeStatus sess EVR_RD_SEQ.SEQ = 0) (hruns : s.runs 3 = true)
    (hv : v < 2 ^ 32) (hnext : nextHeld (s.logOf (s.ses sess).win.log) v = some h) (hok : ok = false) :
    ∃ t, exec (.logReadLoad sess v ok) s = .next t ∧ (t.ses sess).win.seq = h.seq ∧ (t.ses sess).win.present ∧ (t.ses sess).win.crcOk = false ∧
      t.get EVR_CRC.CRC_ERR = min (s.get EVR_CRC.CRC_ERR + 1) (2 ^ EVR_CRC.CRC_ERR.w - 1) ∧
      Logged s t [(0x1007, 4, [(s.ses sess).win.log, 0, 0, 0] ++ leBytes 4 h.seq)] := by
  subst hok
  refine ⟨_, exec_logReadLoad hwrite hruns hv, ?_⟩
  rw [windowLoad_of_held hnext, if_neg (by decide), crcFailed_ses, withWindow_win]
  exact ⟨rfl, rfl, rfl, crcFailed_count _ _ _, logged_of_withWindow (crcFailed_logged _ _ _)⟩

/-- With no further record the window is empty. -/
theorem logReadNext_results {sess : Nat} {ok : Bool} (hlevel : s.level sess ≠ 0) (hruns : s.runs 3 = true)
    (hauto : (s.ses sess).win.auto = true) (hpresent : (s.ses sess).win.present = true)
    (hnext : nextHeld (s.logOf (s.ses sess).win.log) ((s.ses sess).win.seq + 1) = none) :
    ∃ t, exec (.logReadNext sess ok) s = .next t ∧ (t.ses sess).win = windowEmpty (s.ses sess).win ∧ t.regs = s.regs := by
  refine ⟨_, exec_logReadNext hlevel hruns hauto hpresent, ?_⟩
  rw [windowLoad_of_none hnext]
  exact ⟨withWindow_win _ _ _, withWindow_regs _ _ _⟩

/-! ### LOG_SEARCH (R449) -/

/-- A search by UTC of an operational log of one record that was timed finds it, where it is not below the bound. -/
theorem logSearch_results {sess : Nat} {h : Held} (hwrite : s.writeStatus sess EVR_FIND_CTRL.GO = 0) (hruns : s.runs 3 = true)
    (hop : s.evr.op = [h]) (htimed : bit h.rcd.src 5 = false) (hlo : (s.ses sess).find.lo ≤ h.rcd.utc) :
    ∃ t, exec (.logSearch sess 1 0) s = .next t ∧ (t.ses sess).find.found ∧ (t.ses sess).find.seq = h.seq ∧ t.regs = s.regs := by
  have harm : exec (.logSearch sess 1 0) s = execLogSearch sess 1 0 s := rfl
  have hkey : h.rcd.searchKey 1 = some h.rcd.utc := by simp [Rec.searchKey, htimed]
  have hsearch : s.search sess 1 0 = s.setSes sess { s.ses sess with
      find := { (s.ses sess).find with key := 1, log := 0, found := true, seq := h.seq } } := by
    simp [State.search, State.logOf, hop, hkey, hlo, nextHeld]
  refine ⟨s.search sess 1 0, ?_, ?_⟩
  · rw [harm, execLogSearch, guarded_of_writeStatus_zero _ hwrite, hruns]
    rfl
  · rw [hsearch, ses_setSes]
    exact ⟨rfl, rfl, rfl⟩

/-! ### LOG_CRC_CHECK (R450) -/

/-- One operational record that is held and fails its check is counted and logged. -/
theorem logCrcCheck_results {q : Nat} (hheld : (s.evr.op.any fun h => h.seq == q) = true) :
    ∃ t, exec (.logCrcCheck [q] []) s = .next t ∧ t.get EVR_CRC.CRC_ERR = min (s.get EVR_CRC.CRC_ERR + 1) (2 ^ EVR_CRC.CRC_ERR.w - 1) ∧
      t.evr.op = s.evr.op ∧ Logged s t [(0x1007, 4, [0, 0, 0, 0] ++ leBytes 4 q)] := by
  have harm : exec (.logCrcCheck [q] []) s = execLogCrcCheck [q] [] s := rfl
  refine ⟨s.crcFailed 0 q, ?_, crcFailed_count _ _ _, crcFailed_op _ _ _, crcFailed_logged _ _ _⟩
  rw [harm, execLogCrcCheck]
  simp [hheld]

end Sys2Proof.Proofs
end

section
/-! PROOFS. The report of an executed action (R197) on its way. A frame of the module's own with TYPE 3 carries VC1, `DN` 0 and `HOPS` 0: while no
frame waits at an egress nothing on its path is recorded, and the queue of actions stays wherever it goes. -/

namespace Sys2Proof.Proofs

open Sys2Proof.Machine Sys2Proof.Laws R

/-! ### What the path of a frame leaves of the queue of actions -/

theorem discard_la (s : State) (k : Nat) : (s.discard k).fab.la = s.fab.la := by
  unfold State.discard
  split <;> dsimp only <;> split_ifs <;> simp only [log_fab, inc_fab]

theorem la_ite {c : Prop} [Decidable c] {a b s : State} (ha : a.fab.la = s.fab.la) (hb : b.fab.la = s.fab.la) :
    (if c then a else b).fab.la = s.fab.la := by
  split <;> assumption

theorem laneServe_la (s : State) (l : Nat) : (s.laneServe l).fab.la = s.fab.la := by
  unfold State.laneServe
  dsimp only
  split
  · rfl
  · exact la_ite rfl (la_ite (discard_la _ _) rfl)

theorem when_inc_la (s : State) (b : Bool) (f : Field) : (s.when b fun t => t.inc f).fab.la = s.fab.la := by
  cases b
  · rfl
  · exact congrArg Fab.la (put_fab _ _ _ _ _)

theorem sendOn_la (s : State) (f : FabFrame) (l urgent src : Nat) : (s.sendOn f l urgent src).fab.la = s.fab.la := by
  unfold State.sendOn
  refine la_ite (discard_la _ _) (la_ite (discard_la _ _) (la_ite ?plc ?lane))
  case plc =>
    split
    · exact when_inc_la _ _ _
    · rw [discard_la, when_inc_la]
  case lane =>
    rw [laneServe_la]
    exact when_inc_la _ _ _

theorem byEntry_la (s : State) (bank : Nat) (f : FabFrame) (urgent src : Nat) : (s.byEntry bank f urgent src).fab.la = s.fab.la := by
  unfold State.byEntry
  refine la_ite (discard_la _ _) (la_ite (la_ite (discard_la _ _) ?up) (la_ite (sendOn_la _ _ _ _ _) (la_ite (sendOn_la _ _ _ _ _) (discard_la _ _))))
  split
  · exact sendOn_la _ _ _ _ _
  · exact discard_la _ _

/-- A frame for the module itself that is not of TYPE 1 and goes on VC1 is delivered. -/
theorem deliver_of_response (s : State) (f : FabFrame) (ep pending : Nat) (hty : f.ty = 3) (hvc : f.vc = 1) :
    s.deliver f ep pending = s.emit .delivered ep (f.src :: f.ty :: f.pay) := by
  simp [State.deliver, hty, hvc]

/-- The paths of a response (R183, R185): none to node 0, delivery at the module itself, the forwarding table to another node. -/
theorem routeFrame_of_response {s : State} {f : FabFrame} {bank urgent pending src : Nat} (hbank : s.bankOf f.epo = some bank) (hty : f.ty = 3) :
    s.routeFrame f urgent pending src = if f.dst / 2 ^ 11 = 0 then s
      else if f.dst / 2 ^ 11 = s.get FAB_STAT.NODE_ID then s.deliver f (f.dst % 2 ^ 11) pending else s.byEntry bank f urgent src := by
  simp only [State.routeFrame, hbank, hty]
  simp

theorem routeFrame_la_of_response {s : State} {f : FabFrame} {bank urgent pending src : Nat} (hbank : s.bankOf f.epo = some bank) (hty : f.ty = 3)
    (hvc : f.vc = 1) : (s.routeFrame f urgent pending src).fab.la = s.fab.la := by
  rw [routeFrame_of_response hbank hty, deliver_of_response _ _ _ _ hty hvc]
  exact la_ite rfl (la_ite rfl (byEntry_la _ _ _ _ _))

/-! ### What it records -/

theorem discard_unreachable_evr (s : State) : (s.discard 2).evr = s.evr := by
  simp [State.discard, inc_evr]

/-- What is picked from one frame is that frame. -/
theorem eq_of_pick_singleton {x : LaneX} {a e : Egr} (hqueue : x.queue = [a]) (hpick : x.pick = some e) : e = a := by
  have hhead (p : Egr → Bool) (b : Egr) :
      (match x.queue.find? p with | some e => if x.covers e then some e else none | none => none) = some b → b = a := by
    rw [hqueue]
    intro hb
    cases hp : p a <;> simp only [List.find?, hp] at hb
    · cases hb
    · split at hb
      · exact (Option.some.inj hb).symm
      · cases hb
  simp only [LaneX.pick, Option.or_eq_some_iff] at hpick
  obtain h | ⟨-, h⟩ := hpick
  · exact hhead _ _ h
  · split at h <;> (rw [Option.or_eq_some_iff] at h; obtain h | ⟨-, h⟩ := h <;> exact hhead _ _ h)

/-- A lane that holds one frame, of a bank in force, records nothing in sending it. -/
theorem laneServe_evr_of_singleton {s : State} {l : Nat} {a : Egr} (hqueue : (s.lane l).queue = [a]) (hbank : s.bankOf a.f.epo ≠ none) :
    (s.laneServe l).evr = s.evr := by
  cases hpick : (s.lane l).pick with
  | none => simp [State.laneServe, hpick]
  | some e =>
    obtain rfl := eq_of_pick_singleton hqueue hpick
    by_cases hidle : (s.lane l).busy = 0 ∧ s.laneUp l = true
    · rw [laneServe_of_pick hidle.2 hidle.1 hpick hbank]
      rfl
    · have hwaits : (s.lane l).busy ≠ 0 ∨ (!s.laneUp l) = true := by
        rcases not_and_or.mp hidle with h | h
        · exact .inl h
        · exact .inr (by simpa using h)
      simp only [State.laneServe, hpick, if_pos hwaits]

/-- A frame of the module's own response: `DN`, `HOPS` and `URG` are 0. -/
def ownResponse (f : FabFrame) : Prop := f.ty = 3 ∧ f.vc = 1 ∧ f.dn = 0 ∧ f.hops = 0 ∧ f.urg = 0

theorem sendOn_evr_of_response {s : State} {f : FabFrame} {l bank : Nat} (hempty : EgressEmpty s) (hbank : s.bankOf f.epo = some bank)
    (hf : ownResponse f) : (s.sendOn f l 0 14).evr = s.evr := by
  obtain ⟨-, hvc, hdn, hhops, hurg⟩ := hf
  have hurgent : Egr.urgent ⟨f, 14⟩ = false := by simp [Egr.urgent, hurg]
  have hleaving : ¬ 24 < (s.leaving ⟨f, 14⟩ l).hops := by simp [State.leaving, hhops]
  unfold State.sendOn
  rw [if_neg (by simp [hdn]), if_neg hleaving]
  simp only [hurgent, Bool.false_and, State.when, Bool.false_eq_true, if_false]
  split
  · split
    · rfl
    · exact discard_unreachable_evr s
  · refine (laneServe_evr_of_singleton (a := ⟨f, 14⟩) ?_ ?_).trans rfl
    · rw [lane_setLane_same]
      exact congrArg (· ++ [_]) (hempty l)
    · exact fun h => nomatch hbank.symm.trans h

theorem byEntry_evr_of_response {s : State} {f : FabFrame} {bank : Nat} (hempty : EgressEmpty s) (hbank : s.bankOf f.epo = some bank)
    (hf : ownResponse f) : (s.byEntry bank f 0 14).evr = s.evr := by
  have hsend (l : Nat) : (s.sendOn f l 0 14).evr = s.evr := sendOn_evr_of_response hempty hbank hf
  have hdiscard := discard_unreachable_evr s
  unfold State.byEntry
  dsimp only
  split_ifs
  · exact hdiscard
  · exact hdiscard
  · split
    · exact hsend _
    · exact hdiscard
  · exact hsend _
  · exact hsend _
  · exact hdiscard

theorem routeFrame_evr_of_response {s : State} {f : FabFrame} {bank pending : Nat} (hempty : EgressEmpty s) (hbank : s.bankOf f.epo = some bank)
    (hf : ownResponse f) : (s.routeFrame f 0 pending 14).evr = s.evr := by
  rw [routeFrame_of_response hbank hf.1, deliver_of_response _ _ _ _ hf.1 hf.2.1]
  split_ifs
  · rfl
  · rfl
  · exact byEntry_evr_of_response hempty hbank hf

/-! ### The report of an executed action -/

theorem ownResponse_ownFrame (s : State) (dst seq : Nat) (data : List Nat) : ownResponse (s.ownFrame false .actionResponse dst seq data) :=
  ⟨rfl, rfl, rfl, rfl, rfl⟩

theorem bankOf_ownFrame (s : State) (urgent : Bool) (k : Sent) (dst seq : Nat) (data : List Nat) :
    s.bankOf (s.ownFrame urgent k dst seq data).epo = some 0 := if_pos rfl

theorem srcSend_of_actionResponse (s : State) (dst : Nat) (data : List Nat) :
    s.srcSend false .actionResponse dst data =
      if s.fab.hold then { s with fab := { s.fab with wait := s.fab.wait ++ [(false, ⟨.actionResponse, dst, data⟩)] } }
      else ((s.free 16).2.routeFrame ((s.free 16).2.ownFrame false .actionResponse dst (s.free 16).1 data) 0 0 14).emit .actionResponse dst data := by
  simp [State.srcSend, State.ownRoute]

theorem laRespond_la (s : State) (src actId code : Nat) : (s.laRespond src actId code).fab.la = s.fab.la := by
  rw [State.laRespond, srcSend_of_actionResponse]
  refine la_ite rfl ?_
  exact (routeFrame_la_of_response (bankOf_ownFrame _ _ _ _ _ _) rfl rfl).trans rfl

theorem laRespond_evr (src actId code : Nat) {s : State} (hempty : EgressEmpty s) : (s.laRespond src actId code).evr = s.evr := by
  rw [State.laRespond, srcSend_of_actionResponse]
  split
  · rfl
  · have hempty' : EgressEmpty (s.free 16).2 := hempty
    exact routeFrame_evr_of_response hempty' (bankOf_ownFrame _ _ _ _ _ _) (ownResponse_ownFrame _ _ _ _)

end Sys2Proof.Proofs
end

section
/-! PROOFS. The site mark (R451), and what each command of the Event Recorder does. -/

namespace Sys2Proof.Proofs

open Sys2Proof.Machine Sys2Proof.Laws R

variable {s : State}

/-! ### SITE_MARK (R451) -/

/-- The action leaves the queue, and its sender's identifier is remembered. -/
def actionTaken (s : State) (a : La) : State :=
  let s0 := { s with fab := { s.fab with la := s.fab.la.erase a, done := ((a.src, a.actId) :: s.fab.done).take 64 } }
  (s0.put FAB_LA_CFG.LA_QUSE s0.fab.la.length).inc FAB_LA_CNT.EXEC

/-- An action that has run as it should is taken from the queue, and reported where it asks for that. -/
theorem laFinish_of_done {a : La} (hcode : s.laCode a = 1) :
    s.laFinish a = if a.ack = 0 then actionTaken s a else (actionTaken s a).laRespond a.src a.actId 1 := by
  simp only [State.laFinish, hcode]
  simp [actionTaken]

theorem actionTaken_evr (s : State) (a : La) : (actionTaken s a).evr = s.evr := by
  rw [actionTaken, inc_evr, put_evr]

theorem actionTaken_la (s : State) (a : La) : (actionTaken s a).fab.la = s.fab.la.erase a := by
  rw [actionTaken, inc_fab, put_fab]

theorem actionTaken_lanes (s : State) (a : La) : (actionTaken s a).fab.lanes = s.fab.lanes := by
  rw [actionTaken, inc_fab, put_fab]

theorem actionTaken_count (s : State) (a : La) :
    (actionTaken s a).get FAB_LA_CNT.EXEC = min (s.get FAB_LA_CNT.EXEC + 1) (2 ^ FAB_LA_CNT.EXEC.w - 1) := by
  rw [actionTaken, get_inc_same (by decide) (by decide) (by decide), get_put_apart (by decide) (by decide) (by decide)]
  rfl

theorem egressEmpty_of_lanes {s t : State} (hlanes : t.fab.lanes = s.fab.lanes) (h : EgressEmpty s) : EgressEmpty t := by
  intro l
  have hlane : t.lane l = s.lane l := by rw [State.lane, State.lane, hlanes]
  rw [hlane, h l]

theorem laFinish_la {a : La} (hcode : s.laCode a = 1) : (s.laFinish a).fab.la = s.fab.la.erase a := by
  rw [laFinish_of_done hcode]
  split
  · exact actionTaken_la s a
  · rw [laRespond_la, actionTaken_la]

theorem laFinish_count {a : La} (hcode : s.laCode a = 1) :
    (s.laFinish a).get FAB_LA_CNT.EXEC = min (s.get FAB_LA_CNT.EXEC + 1) (2 ^ FAB_LA_CNT.EXEC.w - 1) := by
  rw [laFinish_of_done hcode]
  split
  · exact actionTaken_count s a
  · rw [← actionTaken_count s a]
    exact get_of_law (fun h => laRespond_keeps h (Keeps.refl _ _)) (touchLaRespond_all anyPart_all) (by decide) (by decide) rfl

theorem laFinish_evr {a : La} (hcode : s.laCode a = 1) (hempty : EgressEmpty s) : (s.laFinish a).evr = s.evr := by
  rw [laFinish_of_done hcode]
  split
  · exact actionTaken_evr s a
  · rw [laRespond_evr _ _ _ (egressEmpty_of_lanes (actionTaken_lanes s a) hempty), actionTaken_evr]

theorem exec_siteMark {a : La} (hdue : s.laDue = some a) (hep : a.ep = 0x01D) (hop : a.op = 1) :
    exec .siteMark s = .next ((s.log 0x1008 INFO (leBytes 4 a.actId)).laFinish a) := by
  have harm : exec .siteMark s = execSiteMark s := rfl
  rw [harm, execSiteMark]
  simp only [State.laRun, hdue, hep, hop, and_self, if_true]

/-- A log does not change whether the action is late, nor whether the stamp is aligned. -/
theorem laCode_log {code sev : Nat} {pay : List Nat} {a : La} : (s.log code sev pay).laCode a = s.laCode a := by
  unfold State.laCode State.is
  rw [log_get _ _ _ _ (by decide) (by decide) rfl]

/-- The mark is logged, and the action leaves the queue. -/
theorem siteMark_results {a : La} (hdue : s.laDue = some a) (hep : a.ep = 0x01D) (hop : a.op = 1) (hcode : s.laCode a = 1) :
    ∃ t, exec .siteMark s = .next t ∧ t.fab.la = s.fab.la.erase a ∧
      t.get FAB_LA_CNT.EXEC = min (s.get FAB_LA_CNT.EXEC + 1) (2 ^ FAB_LA_CNT.EXEC.w - 1) ∧
      (EgressEmpty s → Logged s t [(0x1008, 1, leBytes 4 a.actId)]) := by
  have hcode' : (s.log 0x1008 INFO (leBytes 4 a.actId)).laCode a = 1 := laCode_log.trans hcode
  refine ⟨_, exec_siteMark hdue hep hop, ?queue, ?count, fun hempty => ?event⟩
  case queue => rw [laFinish_la hcode', log_fab]
  case count => rw [laFinish_count hcode', log_get _ _ _ _ (by decide) (by decide) rfl]
  case event =>
    have hlanes : (s.log 0x1008 INFO (leBytes 4 a.actId)).fab.lanes = s.fab.lanes := by rw [log_fab]
    have hlog : Logged s (s.log 0x1008 INFO (leBytes 4 a.actId)) [(0x1008, 1, leBytes 4 a.actId)] := logged_log (by decide)
    unfold Logged
    rw [laFinish_evr hcode' (egressEmpty_of_lanes hlanes hempty)]
    exact hlog

/-- Settles O24: the results of each of the Event Recorder's commands, as above; the clear of the log as for O45. -/
theorem eventRecorderResults : Obligations.EventRecorderResults := by
  unfold Obligations.EventRecorderResults
  refine ⟨fun _ _ _ => eventRecord_results, ?clear, fun _ _ _ _ _ => logReadLoad_results, fun _ _ _ _ _ => logReadLoad_failed,
    fun _ _ _ => logReadNext_results, ?search, ?check, fun _ _ => siteMark_results⟩
  case clear =>
    intro s sess v hlevel hruns hv
    have hop (pay) : ((cleared s v).log 0x1002 NOTICE pay).evr.op = recordsAbove s v := by
      rw [(log_logs (by decide)).1, cleared, opFill_evr]
    refine ⟨_, exec_logClear hlevel hruns hv, hop _, ?_, ?_, ?_⟩
    · rw [log_get _ _ _ _ (by decide) (by decide) rfl, hop, cleared, opFill_number]
    · rw [(log_logs (by decide)).2, cleared, opFill_evr]
    · rw [hop]
      exact logged_of_cleared (logged_log (by decide))
  case search =>
    rintro s sess _ _ h hwrite hruns rfl rfl hop htimed hlo
    exact logSearch_results hwrite hruns hop htimed hlo
  case check =>
    rintro s _ _ q rfl rfl hheld
    exact logCrcCheck_results hheld

end Sys2Proof.Proofs
end

section
/-! PROOFS. A counterexample to a statement about results: a word programmed beyond the end of the flash. -/

namespace Sys2Proof.Proofs

open Sys2Proof.Machine Sys2Proof.Laws R

/-! ### FLASH_DONE (R472) -/

/-- D3 runs, and a word is being programmed at the first address beyond the flash. -/
def programsBeyondFlash : State := { allOn with upd := { allOn.upd with fl := some { addr := flEnd, word := some 0 } } }

/-- Refutes O29: its clause of FLASH_DONE has every address read back the word programmed there; beyond the end of the flash every byte reads
0xFF. -/
theorem not_updateResults : ¬ Obligations.UpdateResults := by
  unfold Obligations.UpdateResults
  rintro ⟨-, -, -, -, -, hprogram, -⟩
  obtain ⟨t, hexec, hbytes, -⟩ := hprogram programsBeyondFlash true flEnd 0 (by decide) rfl rfl (by decide)
  exact ne_of_readAfter (read := (·.flBytes flEnd 4)) hexec (by decide) hbytes

end Sys2Proof.Proofs
end

section
/-! PROOFS. A counterexample to the results of the load switches' commands: an over-current trip on which the Safe-Off sequencer waits. -/

namespace Sys2Proof.Proofs

open Sys2Proof.Machine Sys2Proof.Laws R

/-! ### OVER_CURRENT_TRIP (R390 to R393, R469) -/

/-- Channel 3 of a dispenser's load switches is ON and latches when it trips. Safe-Off is active and waits for connector 0, which names the channel as
its DC+ and none as its DC−, so that it has no contactor; the Event Recorder is up. -/
def tripAwaited : State :=
  let s := ((((allOn.put SYS_ROLE.ROLE_ACT 4).put LSW_CH_CFG.OC_MODE 0 3).put LSW_CH_STAT.STATE 1 3).put SAF_STAT.ACTIVE 1).put SAF_CONN.LS_POS 3
  { s with saf := { s.saf with seq := [(0, 1)] }, evr := { up := true } }

/-- Refutes O21: its clause of OVER_CURRENT_TRIP has events 0x0D01 and 0x0D04 alone follow in the log; where the sequencer waits for a connector that
names the channel, it counts as opened, and event 0x1203 follows them. -/
theorem not_loadSwitchResults : ¬ Obligations.LoadSwitchResults := by
  unfold Obligations.LoadSwitchResults
  rintro ⟨-, -, -, -, -, -, htrip, -⟩
  obtain ⟨t, hexec, -, -, -, -, -, -, hlog⟩ := htrip tripAwaited 3 100000 100000 900 (by decide) (by decide) (by decide) (by decide) (by decide)
    (by decide) (by decide) (by decide) (by decide) (by decide)
  exact ne_of_readAfter (read := fun t => t.evr.queue.map fun r => (r.code, r.sev, r.pay)) hexec (by decide) (hlog (by decide))

end Sys2Proof.Proofs
end

section
/-! PROOFS. Rules for the next state whose conditions evaluate: what a field reads after a write, a record or an operation with a law, and the records
that follow in the log after several operations. -/

namespace Sys2Proof.Proofs

open Sys2Proof.Machine Sys2Proof.Laws R

variable {s t u : State}

/-! ### Readings -/

/-- The instances below `n` of `g` share no bit with `f`. -/
def far (n : Nat) (f g : Field) : Bool := apart f g && decide (n ≤ g.n1) && decide (0 < g.n2)

/-- The instances below `n` of a field lie each in one word. -/
def fits (n : Nat) (f : Field) : Bool := decide (n ≤ f.n1) && decide (0 < f.n2) && decide (f.lo + f.w ≤ 32)

theorem far_iff {n : Nat} {f g : Field} : far n f g = true ↔ apart f g = true ∧ n ≤ g.n1 ∧ 0 < g.n2 := by
  simp [far, and_assoc]

theorem get_put_far {n i i' j v : Nat} {f g : Field} (hi : i' < n) (h : far n f g = true) : (s.put f v i j).get g i' = s.get g i' := by
  obtain ⟨hapart, hn, hj⟩ := far_iff.mp h
  exact get_put_apart hapart (hi.trans_le hn) hj

theorem get_put_here {n i v : Nat} {f : Field} (hi : i < n) (h : fits n f = true) : (s.put f v i).get f i = v % 2 ^ f.w := by
  simp only [fits, Bool.and_eq_true, decide_eq_true_eq] at h
  exact get_put_same (hi.trans_le h.1.1) h.1.2 h.2

/-- A write leaves the other instances of its field alone. -/
theorem get_put_else {i i' v : Nat} {f : Field} (hi : i' ≠ i) (h : 0 < f.s1) : (s.put f v i).get f i' = s.get f i' := by
  refine get_put_other (.inl fun heq => hi ?_)
  unfold Field.at at heq
  exact Nat.eq_of_mul_eq_mul_left h (by omega)

/-- A field shares no bit with any part of a list. -/
def clearOf (n : Nat) (g : Field) (l : List Part) : Bool :=
  decide (n ≤ g.n1) && decide (0 < g.n2) && l.all fun
    | .reg f => apart f g
    | .inst f _ _ => apart f g
    | .regs => false
    | _ => true

theorem apart_of_within {n : Nat} {g : Field} {l : List Part} (h : clearOf n g l = true) {f : Field} {i j : Nat}
    (hf : within l (.reg f) ∨ within l (.inst f i j)) : apart f g = true := by
  simp only [clearOf, Bool.and_eq_true, List.all_eq_true] at h
  rcases hf with hf | hf | hf <;> exact h.2 _ hf

theorem get_of_unchanged {n i : Nat} {g : Field} {l : List Part} (hsame : Unchanged (within l) s t) (hi : i < n) (h : clearOf n g l = true) :
    t.get g i = s.get g i := by
  have hparts := h
  simp only [clearOf, Bool.and_eq_true, decide_eq_true_eq, List.all_eq_true] at hparts
  obtain ⟨⟨hn, hj⟩, hall⟩ := hparts
  refine get_eq_of_bits fun k hlo hhi => hsame.bits (fun hregs => nomatch hall _ hregs) _ k fun f i' j' hbit => ⟨fun hf => ?_, fun hf => ?_⟩
  · exact not_holdsBit_of_apart (apart_of_within (i := i') (j := j') h (.inl hf)) (hi.trans_le hn) hj hlo hhi hbit
  · exact not_holdsBit_of_apart (apart_of_within h (.inr hf)) (hi.trans_le hn) hj hlo hhi hbit

theorem get_log_far {n i code sev : Nat} {pay : List Nat} {g : Field} (hi : i < n) (h : clearOf n g logParts = true) :
    (s.log code sev pay).get g i = s.get g i :=
  get_of_unchanged (log_unchanged s code sev pay) hi h

/-! ### Records -/

/-- These records follow in the intake queue where the Event Recorder takes them, and it goes on taking what it took before. -/
def Records (s t : State) (l : List (Nat × Nat × List Nat)) : Prop :=
  t.evr.up = s.evr.up ∧ t.get EVR_CFG.MIN_SEV = s.get EVR_CFG.MIN_SEV ∧ Logged s t l

theorem Records.logged {l : List (Nat × Nat × List Nat)} (h : Records s t l) : Logged s t l := h.2.2

/-- What the Event Recorder takes together it takes one after the other. -/
theorem accepts_append {l m : List (Nat × Nat × List Nat)} (h : accepts s (l ++ m) = true) (hup : t.evr.up = s.evr.up)
    (hsev : t.get EVR_CFG.MIN_SEV = s.get EVR_CFG.MIN_SEV) (hlength : t.evr.queue.length = s.evr.queue.length + l.length) :
    accepts t m = true := by
  simp only [accepts, List.length_append, List.all_append, Bool.and_eq_true, decide_eq_true_eq] at h ⊢
  obtain ⟨⟨hs, hroom⟩, -, hm⟩ := h
  refine ⟨⟨hup.trans hs, by omega⟩, ?_⟩
  rw [hsev]
  exact hm

theorem accepts_left {l m : List (Nat × Nat × List Nat)} (h : accepts s (l ++ m) = true) : accepts s l = true := by
  simp only [accepts, List.length_append, List.all_append, Bool.and_eq_true, decide_eq_true_eq] at h ⊢
  exact ⟨⟨h.1.1, by omega⟩, h.2.1⟩

theorem Records.trans {l m : List (Nat × Nat × List Nat)} (hsu : Records s u l) (hut : Records u t m) : Records s t (l ++ m) := by
  obtain ⟨hup, hsev, hlog⟩ := hsu
  obtain ⟨hup', hsev', hlog'⟩ := hut
  refine ⟨hup'.trans hup, hsev'.trans hsev, fun hacc => ?_⟩
  have hfirst := hlog (accepts_left hacc)
  have hlength : u.evr.queue.length = s.evr.queue.length + l.length := by simpa using congrArg List.length hfirst
  rw [hlog' (accepts_append hacc hup hsev hlength), hfirst, List.append_assoc]

/-- An operation that changes neither the Event Recorder's own state nor `MIN_SEV` records nothing. -/
theorem records_of_quiet (hevr : t.evr = s.evr) (hsev : t.get EVR_CFG.MIN_SEV = s.get EVR_CFG.MIN_SEV) : Records s t [] :=
  ⟨congrArg Evr.up hevr, hsev, fun _ => by rw [hevr, List.append_nil]⟩

theorem records_refl : Records s s [] := records_of_quiet rfl rfl

theorem arrive_up (s : State) (r : Rec) : (s.arrive r).evr.up = s.evr.up := by
  have hintake : (s.evr.intake r).up = s.evr.up := by
    unfold Evr.intake
    split <;> rfl
  have hhold : (s.evr.hold78 r).up = s.evr.up := by
    unfold Evr.hold78
    dsimp only
    split <;> rfl
  unfold State.arrive
  dsimp only
  split_ifs
  · rfl
  · exact hintake
  · rw [inc_evr]
    exact hintake
  · exact hhold

theorem records_log {code sev : Nat} {pay : List Nat} (hsev : sev ≠ 7) : Records s (s.log code sev pay) [(code, sev, pay)] := by
  have hlog : s.log code sev pay = s.arrive (s.mkRec code sev pay s.keeper s.rtc) := if_neg hsev
  refine ⟨?_, get_log_far Nat.zero_lt_one (by decide), logged_log hsev⟩
  rw [hlog, arrive_up]

theorem Records.put {f : Field} {v i j : Nat} {l : List (Nat × Nat × List Nat)} (h : Records s t l)
    (hf : apart f EVR_CFG.MIN_SEV = true) : Records s (t.put f v i j) l := by
  have hquiet : Records t (t.put f v i j) [] := records_of_quiet (put_evr ..) (get_put_apart hf (by decide) (by decide))
  simpa using h.trans hquiet

theorem Records.log {code sev : Nat} {pay : List Nat} {l : List (Nat × Nat × List Nat)} (h : Records s t l) (hsev : sev ≠ 7) :
    Records s (t.log code sev pay) (l ++ [(code, sev, pay)]) := h.trans (records_log hsev)

/-- The parts of a quiet operation: neither the Event Recorder's own state nor `MIN_SEV`. -/
def quietPart : Part → Prop
  | .evr => False
  | p => awayFrom EVR_CFG.MIN_SEV p

theorem records_of_law {names : (Part → Prop) → Prop} (law : ∀ {A}, names A → Keeps A s t) (all : names anyPart)
    (haway : names anyPart = names quietPart) : Records s t [] := by
  have hkeeps : Keeps quietPart s t := law (haway ▸ all)
  refine records_of_quiet (hkeeps.same.evr.resolve_left id) ?_
  refine get_eq_of_bits fun k hlo hhi => hkeeps.same.bits id _ k fun f i' j' hbit => ⟨fun hf => ?_, fun hf => ?_⟩
  · exact not_holdsBit_of_apart (of_ite_true hf) (by decide) (by decide) hlo hhi hbit
  · exact not_holdsBit_of_apart (of_ite_true hf) (by decide) (by decide) hlo hhi hbit

end Sys2Proof.Proofs
end

section
/-! PROOFS. What stays with the level of a session, and the response to a message. -/

namespace Sys2Proof.Proofs

open Sys2Proof.Machine Sys2Proof.Laws R

variable {s t u : State}

/-- What the Event Recorder's own state and the registers are decides about the records. -/
theorem Records.sameRegs {l : List (Nat × Nat × List Nat)} (h : Records s t l) (hevr : u.evr = t.evr) (hregs : u.regs = t.regs) : Records s u l := by
  have hquiet : Records t u [] := records_of_quiet hevr (by unfold State.get State.word; rw [hregs])
  simpa using h.trans hquiet

/-- A field reads the registers. -/
theorem get_of_regs (h : t.regs = s.regs) (f : Field) (i j : Nat) : t.get f i j = s.get f i j := by
  unfold State.get State.word
  rw [h]

theorem level_of_get {i : Nat} (hstate : i < 8 → t.get SYS_SESS.STATE i = s.get SYS_SESS.STATE i)
    (hlevel : i < 8 → t.get SYS_SESS.LEVEL i = s.get SYS_SESS.LEVEL i) : t.level i = s.level i := by
  unfold State.level
  by_cases hi : i < 8
  · rw [hstate hi, hlevel hi]
  · simp [hi]

theorem level_of_regs (h : t.regs = s.regs) (i : Nat) : t.level i = s.level i :=
  level_of_get (fun _ => get_of_regs h ..) (fun _ => get_of_regs h ..)

theorem message_answers {sess op id st : Nat} {req body : List Nat} {g : State → Nat × List Nat × State} (hs : s.level sess ≠ 0)
    (hk : lookupReq (id % 65536 :: req) (s.ses sess).cache = none) (hg : g s = (st, body, u)) (hlevel : u.level sess = s.level sess) :
    (.next (s.message sess op id false req g) : Host.Outcome State Fault Refusal) = .next (u.respond sess op (id % 65536) st false req body) := by
  rw [message_of_not_kept hs hk (by rw [hg]; exact hlevel ▸ hs), hg]

theorem respond_get (s : State) (sess op id st : Nat) (fixed : Bool) (req body : List Nat) (f : Field) (i j : Nat) :
    (s.respond sess op id st fixed req body).get f i j = s.get f i j := rfl

theorem Records.respond {l : List (Nat × Nat × List Nat)} {sess op id st : Nat} {fixed : Bool} {req body : List Nat} (h : Records s t l) :
    Records s (t.respond sess op id st fixed req body) l := h.sameRegs rfl rfl

end Sys2Proof.Proofs
end

section
/-! PROOFS. The results of the messages that act on other nodes, and of UTC. -/

namespace Sys2Proof.Proofs

open Sys2Proof.Machine Sys2Proof.Laws R

variable {s : State} {sess id serial dst recent utc : Nat} {pay : List Nat}

/-! ### LOCATE (R511) -/

theorem locate_own (hroot : s.get FAB_STAT.ROOT = 1) : s.locate s.serial =
    (some (leBytes 2 (s.get FAB_STAT.NODE_ID) ++ [s.get FAB_STAT.LEVEL, s.get SYS_ROLE.ROLE_ACT, s.get FAB_STAT.STATE], s.get FAB_STAT.NODE_ID), s) := by
  simp [State.locate, State.is, hroot]

theorem locate_of_not_root (hroot : s.get FAB_STAT.ROOT = 0) : s.locate serial = (none, s) := by
  simp [State.locate, State.is, hroot]

theorem exec_locate_own (hs : s.level sess ≠ 0) (hk : lookupReq (id % 65536 :: leBytes 8 s.serial) (s.ses sess).cache = none)
    (hroot : s.get FAB_STAT.ROOT = 1) : exec (.locate sess id s.serial) s =
      .next (({ s with mg := { s.mg with located := some (s.serial, s.get FAB_STAT.NODE_ID) } } : State).respond sess 10 (id % 65536) 0 false
        (leBytes 8 s.serial) (leBytes 2 (s.get FAB_STAT.NODE_ID) ++ [s.get FAB_STAT.LEVEL, s.get SYS_ROLE.ROLE_ACT, s.get FAB_STAT.STATE])) := by
  have harm : exec (.locate sess id s.serial) s = execLocate sess id s.serial s := rfl
  rw [harm]
  exact message_answers hs hk (by simp only [locate_own hroot]) (level_of_regs rfl _)

theorem exec_locate_of_not_root (hs : s.level sess ≠ 0) (hk : lookupReq (id % 65536 :: leBytes 8 serial) (s.ses sess).cache = none)
    (hroot : s.get FAB_STAT.ROOT = 0) : exec (.locate sess id serial) s = .next (s.respond sess 10 (id % 65536) 9 false (leBytes 8 serial) []) := by
  have harm : exec (.locate sess id serial) s = execLocate sess id serial s := rfl
  rw [harm]
  exact message_answers hs hk (by simp only [locate_of_not_root hroot]) rfl

/-! ### Frames of the agent while the injection is held (R189) -/

/-- The frame of the management agent that waits at the source. -/
theorem agentFrame_of_hold {ty urg room : Nat} {f : Nat → List Nat} (h : s.fab.hold = true) :
    s.agentFrame ty urg dst room f = { s with
      fresh := s.fresh + 1
      fab := { s.fab with inject := s.fab.inject ++ [{ dn := 0, ty, vc := 0, urg, epo := s.get FAB_STAT.EPOCH % 2, hops := 0, dst
                                                       src := s.agentSrc, seq := (s.free 16).1, pay := f (s.free 16).1 }] } } := by
  simp only [State.agentFrame, State.injectAll, State.free, h, ite_true]

/-! ### LAUNCH (R512) -/

/-- LAUNCH keeps the session that waits for the result. -/
def withLaunch (s : State) (sess : Nat) (pay : List Nat) : State :=
  { s with mg := { s.mg with launches := ((bytesAt pay 12 4, sess) :: s.mg.launches).take 64 } }

theorem exec_launch (hs : s.level sess = 3) (hk : lookupReq (id % 65536 :: leBytes 4 dst ++ pay) (s.ses sess).cache = none)
    (hpay : pay.length = 40) (hhold : s.fab.hold = true) : exec (.launch sess id dst pay recent) s =
      .next (((withLaunch s sess pay).agentFrame 2 1 (dst % 2 ^ 23) (4 - recent) fun _ => pay).respond sess 11 (id % 65536) 0 false
        (leBytes 4 dst ++ pay) []) := by
  have harm : exec (.launch sess id dst pay recent) s = execLaunch sess id dst pay recent s := rfl
  rw [harm]
  refine message_answers (by omega) hk ?_ ?_
  · simp only [hs, hpay, ne_eq, not_true, ite_false]
    rfl
  · rw [agentFrame_of_hold (s := withLaunch s sess pay) hhold]
    exact level_of_regs rfl _

theorem exec_launch_of_not_admin (hs : s.level sess ≠ 0)
    (hk : lookupReq (id % 65536 :: leBytes 4 dst ++ pay) (s.ses sess).cache = none) (hadmin : s.level sess ≠ 3) :
    exec (.launch sess id dst pay recent) s = .next (s.respond sess 11 (id % 65536) 8 false (leBytes 4 dst ++ pay) []) := by
  have harm : exec (.launch sess id dst pay recent) s = execLaunch sess id dst pay recent s := rfl
  rw [harm]
  exact message_answers hs hk (if_pos hadmin) rfl

/-! ### LRESULT (R512) -/

theorem exec_lresult {src i : Nat} {resp : List Nat} (hkey : lookupKey (bytesAt resp 0 4) s.mg.launches = some i) (hi : s.level i ≠ 0) :
    exec (.lresult src resp) s = .next (s.unasked .lresult i 0xC (leBytes 2 src ++ [0, 0] ++ resp.take 16)) := by
  have harm : exec (.lresult src resp) s = execLresult src resp s := rfl
  rw [harm, execLresult, hkey]
  simp only [if_pos hi]

theorem exec_lresult_of_unknown {src : Nat} {resp : List Nat} (hkey : lookupKey (bytesAt resp 0 4) s.mg.launches = none) :
    exec (.lresult src resp) s = .next s := by
  have harm : exec (.lresult src resp) s = execLresult src resp s := rfl
  rw [harm, execLresult, hkey]

/-! ### RESET (R513) -/

/-- RESET of another node sends a stamp above every earlier one. -/
def withReset (s : State) : State := { s with mg := { s.mg with rstSent := max s.stamp (s.mg.rstSent + 1) } }

/-- The payload of a reset frame, by its sequence number. -/
def resetPay (s : State) (serial n seq : Nat) : List Nat :=
  let stamp := max s.stamp (s.mg.rstSent + 1)
  let low := s.serial % 2 ^ 32
  resetHead serial stamp low ++ resetTag (s.fab.key.getD ((s.slot 5).key.getD [])) (2048 * n) s.agentSrc seq serial stamp low

theorem resetNode_located {n : Nat} (h : s.mg.located = some (serial, n)) : s.resetNode serial = (some n, s) := by
  simp only [State.resetNode, h, ite_true]

theorem exec_reset_other {n : Nat} (hs : s.level sess = 3) (hk : lookupReq (id % 65536 :: leBytes 8 serial) (s.ses sess).cache = none)
    (hready : s.kvReady = true) (hused : (s.slot 5).used = true) (hother : serial ≠ s.serial) (hnode : s.mg.located = some (serial, n))
    (hhold : s.fab.hold = true) : exec (.reset sess id serial recent) s =
      .next (((withReset s).agentFrame 9 1 (2048 * n) (4 - recent) (resetPay s serial n)).respond sess 13 (id % 65536) 0 false (leBytes 8 serial) []) := by
  have harm : exec (.reset sess id serial recent) s = execReset sess id serial recent s := rfl
  rw [harm]
  refine message_answers (by omega) hk ?_ ?_
  · simp only [hs, hready, hused, if_neg hother, resetNode_located hnode, ne_eq, not_true, ite_false, Bool.not_true, Bool.or_false, Bool.false_eq_true]
    rfl
  · rw [agentFrame_of_hold (s := withReset s) hhold]
    exact level_of_regs rfl _

theorem exec_reset_of_not_ready (hs : s.level sess = 3) (hk : lookupReq (id % 65536 :: leBytes 8 serial) (s.ses sess).cache = none)
    (hready : s.kvReady = false) :
    exec (.reset sess id serial recent) s = .next (s.respond sess 13 (id % 65536) 11 false (leBytes 8 serial) []) := by
  have harm : exec (.reset sess id serial recent) s = execReset sess id serial recent s := rfl
  rw [harm]
  exact message_answers (by omega) hk (by simp [hs, hready]) rfl

theorem exec_reset_of_not_admin (hs : s.level sess ≠ 0) (hk : lookupReq (id % 65536 :: leBytes 8 serial) (s.ses sess).cache = none)
    (hadmin : s.level sess ≠ 3) :
    exec (.reset sess id serial recent) s = .next (s.respond sess 13 (id % 65536) 8 false (leBytes 8 serial) []) := by
  have harm : exec (.reset sess id serial recent) s = execReset sess id serial recent s := rfl
  rw [harm]
  exact message_answers hs hk (if_pos hadmin) rfl

/-! ### Synchronisations (R284, R516) -/

/-- The signed step of the RTC to a UTC time, in the event's four bytes. -/
def rtcStep (s : State) (utc : Nat) : List Nat := leBytes 4 (ofSigned 32 ((utc : Int) - (s.rtc : Int)))

/-- The RTC is set. -/
def rtcSet (s : State) (utc : Nat) : State :=
  let t := ((s.put SYS_RTC.UTC utc).put SYS_TIME_STAT.RTC_SET 1).put BIL_SYNC.SYNC_AGE 0
  { t with bil := { t.bil with synced := true } }

theorem get_rtcSet_far {n i : Nat} {g : Field} (hi : i < n)
    (h : (far n SYS_RTC.UTC g && far n SYS_TIME_STAT.RTC_SET g && far n BIL_SYNC.SYNC_AGE g) = true) : (rtcSet s utc).get g i = s.get g i := by
  simp only [Bool.and_eq_true] at h
  obtain ⟨⟨hutc, hset⟩, hage⟩ := h
  change State.get (((s.put SYS_RTC.UTC utc).put SYS_TIME_STAT.RTC_SET 1).put BIL_SYNC.SYNC_AGE 0) g i = _
  rw [get_put_far hi hage, get_put_far hi hset, get_put_far hi hutc]

theorem rtcSync_of_clock (h : s.get BIL_STAT.CLK_ST ≠ 3) : s.rtcSync utc = (rtcSet s utc).log 0x0901 NOTICE (rtcStep s utc) := by
  have hclock : ((rtcSet s utc).log 0x0901 NOTICE (rtcStep s utc)).get BIL_STAT.CLK_ST = s.get BIL_STAT.CLK_ST := by
    rw [get_log_far Nat.zero_lt_one (by decide), get_rtcSet_far Nat.zero_lt_one (by decide)]
  have hnot : (((rtcSet s utc).log 0x0901 NOTICE (rtcStep s utc)).get BIL_STAT.CLK_ST == 3) = false := by
    rw [hclock]
    exact beq_false_of_ne h
  unfold State.rtcSync
  exact if_neg (Bool.eq_false_iff.mp hnot)

/-- A step of the RTC, with the clock of Billing running. -/
def rtcStepped (s : State) (utc : Nat) : State := ((rtcSet s utc).log 0x0901 NOTICE (rtcStep s utc)).log 0x0026 NOTICE (rtcStep s utc)

theorem utcSync_step (hclock : s.get BIL_STAT.CLK_ST ≠ 3) (hutc : utc < 2 ^ 32) : s.utcSync true utc = rtcStepped s utc := by
  rw [State.utcSync, if_pos rfl, Nat.mod_eq_of_lt hutc, rtcSync_of_clock hclock]
  rfl

theorem rtcStepped_far {n i : Nat} {g : Field} (hi : i < n)
    (h : (far n SYS_RTC.UTC g && far n SYS_TIME_STAT.RTC_SET g && far n BIL_SYNC.SYNC_AGE g) = true) (hlog : clearOf n g logParts = true) :
    (rtcStepped s utc).get g i = s.get g i := by
  rw [rtcStepped, get_log_far hi hlog, get_log_far hi hlog, get_rtcSet_far hi h]

theorem rtcStepped_get (hutc : utc < 2 ^ 32) : (rtcStepped s utc).get SYS_RTC.UTC = utc ∧ (rtcStepped s utc).get SYS_TIME_STAT.RTC_SET = 1 ∧
    (rtcStepped s utc).get BIL_SYNC.SYNC_AGE = 0 := by
  have hfar : ∀ g : Field, clearOf 1 g logParts = true → (rtcStepped s utc).get g = (rtcSet s utc).get g := fun g hg => by
    rw [rtcStepped, get_log_far Nat.zero_lt_one hg, get_log_far Nat.zero_lt_one hg]
  have hset : ∀ g : Field, (rtcSet s utc).get g = (((s.put SYS_RTC.UTC utc).put SYS_TIME_STAT.RTC_SET 1).put BIL_SYNC.SYNC_AGE 0).get g := fun _ => rfl
  refine ⟨?_, ?_, ?_⟩
  all_goals
    rw [hfar _ (by decide), hset]
    simp (disch := decide) only [get_put_far Nat.zero_lt_one, get_put_here Nat.zero_lt_one]
  · exact Nat.mod_eq_of_lt hutc
  · decide
  · decide

theorem records_rtcStepped : Records s (rtcStepped s utc) [(0x0901, 2, rtcStep s utc), (0x0026, 2, rtcStep s utc)] := by
  have hset : Records s (rtcSet s utc) [] := records_refl |>.put (by decide) |>.put (by decide) |>.put (by decide) |>.sameRegs rfl rfl
  exact hset |>.log (by decide) |>.log (by decide)

theorem rtcStepped_mg : (rtcStepped s utc).mg = s.mg := by
  simp only [rtcStepped, log_mg, rtcSet, put_mg]

/-! ### TIME (R516, R517) -/

theorem exec_time {frac phase : Nat} (hs : s.level sess = 3) (hk : lookupReq (id % 65536 :: leBytes 8 utc ++ leBytes 4 frac) (s.ses sess).cache = none)
    (hsrc : s.get SYS_TIME_CFG.TSRC = 0) (hutc : utc < 2 ^ 32) (hofs : 1 ≤ ((utc : Int) - (s.rtc : Int)).natAbs - 1) (hfrac : frac < 2 ^ 32)
    (hphase : phase < 2 ^ 32) (hclock : s.get BIL_STAT.CLK_ST ≠ 3) : exec (.time sess id utc frac phase) s =
      .next ((rtcStepped s utc).respond sess 14 (id % 65536) 0 false (leBytes 8 utc ++ leBytes 4 frac) []) := by
  have harm : exec (.time sess id utc frac phase) s = execTime sess id utc frac phase s := rfl
  have hlarge : 2 ^ 31 ≤ ((2 ^ 32 * utc + frac : Int) - (2 ^ 32 * s.rtc + phase : Int)).natAbs := by omega
  have hsync : s.utcSync (decide (2 ^ 31 ≤ ((2 ^ 32 * utc + frac : Int) - (2 ^ 32 * s.rtc + phase : Int)).natAbs)) utc = rtcStepped s utc := by
    rw [decide_eq_true hlarge, utcSync_step hclock hutc]
  have hlevel : (rtcStepped s utc).level sess = s.level sess :=
    level_of_get (fun hi => rtcStepped_far hi (by decide) (by decide)) (fun hi => rtcStepped_far hi (by decide) (by decide))
  rw [harm]
  refine message_answers (by omega) hk ?_ hlevel
  simp only [hs, hsrc, hsync, ne_eq, not_true, ite_false]
  rfl

theorem exec_time_of_locked {frac phase : Nat} (hs : s.level sess = 3)
    (hk : lookupReq (id % 65536 :: leBytes 8 utc ++ leBytes 4 frac) (s.ses sess).cache = none)
    (hsrc : s.get SYS_TIME_CFG.TSRC = 1) (hlock : s.get SYS_TIME_STAT.TSTATE = 2) : exec (.time sess id utc frac phase) s =
      .next (s.respond sess 14 (id % 65536) 10 false (leBytes 8 utc ++ leBytes 4 frac) []) := by
  have harm : exec (.time sess id utc frac phase) s = execTime sess id utc frac phase s := rfl
  rw [harm]
  exact message_answers (by omega) hk (by simp [hs, hsrc, hlock]) rfl

/-! ### PTP and NTP (R514 to R516) -/

theorem toSigned_ofSigned {w : Nat} {v : Int} (hw : 0 < w) (hlo : -2 ^ (w - 1) ≤ v) (hhi : v < 2 ^ (w - 1)) : toSigned w (ofSigned w v) = v := by
  obtain ⟨k, rfl⟩ := Nat.exists_eq_succ_of_ne_zero hw.ne'
  have htwice : (2 : Int) ^ (k + 1) = 2 * 2 ^ k := by ring
  have hcast : ((2 ^ k : Nat) : Int) = 2 ^ k := by push_cast; rfl
  have htwice' : (2 : Nat) ^ (k + 1) = 2 * 2 ^ k := by ring
  simp only [Nat.succ_eq_add_one, Nat.add_sub_cancel, toSigned, ofSigned, htwice, htwice'] at hlo hhi ⊢
  generalize (2 : Nat) ^ k = n at hcast ⊢
  generalize (2 : Int) ^ k = m at hcast hlo hhi ⊢
  subst hcast
  rcases Int.lt_or_le v 0 with hneg | hpos
  · have hmod : v % (2 * (n : Int)) = v + 2 * n := by
      rw [← Int.add_emod_right, Int.emod_eq_of_lt (by omega) (by omega)]
    rw [hmod, Nat.mod_eq_of_lt (by omega), if_neg (by omega)]
    omega
  · rw [Int.emod_eq_of_lt hpos (by omega), Nat.mod_eq_of_lt (by omega), if_pos (by omega)]
    omega

/-- An offset within the range of `OFS` is shown as it is. -/
theorem geti_ofsShow {ofs : Int} (hlo : -8388608000 ≤ ofs) (hhi : ofs < 8388608000) : (s.ofsShow ofs).geti SYS_TIME_STAT.OFS = ofs / 1000 := by
  have hclamp : clampI (-(2 : Int) ^ (SYS_TIME_STAT.OFS.w - 1)) ((2 : Int) ^ (SYS_TIME_STAT.OFS.w - 1) - 1) (ofs / 1000) = ofs / 1000 := by
    have hw : SYS_TIME_STAT.OFS.w = 24 := rfl
    rw [hw, clampI, if_neg (by omega), if_neg (by omega)]
  have hread : (s.ofsShow ofs).get SYS_TIME_STAT.OFS = ofSigned 24 (ofs / 1000) := by
    rw [State.ofsShow, State.putSat, State.puti, hclamp, get_put_here Nat.zero_lt_one (by decide)]
    refine Nat.mod_eq_of_lt ?_
    change (_ % (2 : Int) ^ 24).toNat < 2 ^ 24
    omega
  rw [State.geti, hread]
  exact toSigned_ofSigned (w := 24) (by decide) (by omega) (by omega)

/-- What a synchronisation shows before it acts: the offset, and the synchronisations in a row within 100 µs. -/
def ptpShown (s : State) (ofs : Int) (n : Nat) : State := { s.ofsShow ofs with mg := { s.mg with syncs := n } }

theorem get_ptpShown {ofs : Int} {n k i : Nat} {g : Field} (hi : i < k) (h : far k SYS_TIME_STAT.OFS g = true) :
    (ptpShown s ofs n).get g i = s.get g i := by
  change (s.ofsShow ofs).get g i = _
  exact get_put_far hi h

theorem records_ptpShown {ofs : Int} {n : Nat} : Records s (ptpShown s ofs n) [] :=
  (records_refl.put (f := SYS_TIME_STAT.OFS) (by decide)).sameRegs rfl rfl

theorem execPtpSync_locks {ofs : Int} (hruns : s.srcRuns 1 = true) (hofs : ofs.natAbs ≤ 100000) (hsyncs : 15 ≤ s.mg.syncs)
    (hstate : s.get SYS_TIME_STAT.TSTATE ≠ 2) :
    exec (.ptpSync ofs utc false) s = .next (((ptpShown s ofs 16).put SYS_TIME_STAT.TSTATE 2).log 0x0023 NOTICE [1]) := by
  have harm : exec (.ptpSync ofs utc false) s = execPtpSync ofs utc false s := rfl
  have hmin : min (s.mg.syncs + 1) 16 = 16 := by omega
  have hshown : (ptpShown s ofs 16).get SYS_TIME_STAT.TSTATE ≠ 2 := by rwa [get_ptpShown Nat.zero_lt_one (by decide)]
  have htest : 16 ≤ s.mg.syncs + 1 ∧ (ptpShown s ofs 16).get SYS_TIME_STAT.TSTATE ≠ 2 := ⟨by omega, hshown⟩
  rw [harm, execPtpSync, if_pos hruns]
  simp only [if_pos hofs, hmin]
  change Host.Outcome.next (if 16 ≤ s.mg.syncs + 1 ∧ (ptpShown s ofs 16).get SYS_TIME_STAT.TSTATE ≠ 2 then (ptpShown s ofs 16).srcState 1 2 else _) = _
  rw [if_pos htest]
  rfl

/-- A large offset restarts the count; then the lock decides. -/
theorem execPtpSync_of_large {ofs : Int} (hruns : s.srcRuns 1 = true) (hofs : 500000000 ≤ ofs.natAbs) :
    exec (.ptpSync ofs utc true) s = .next (
      let t := ptpShown s ofs 0
      if t.get SYS_TIME_STAT.TSTATE = 2 then
        if t.mg.ptpAt = some t.rtc then t else (let u := t.utcSync true utc; { u with mg := { u.mg with ptpAt := some u.rtc } })
      else ((t.put SYS_RTC.UTC (utc % 2 ^ 32)).put SYS_TIME_STAT.RTC_SET 1).log 0x0026 NOTICE (rtcStep t utc)) := by
  have harm : exec (.ptpSync ofs utc true) s = execPtpSync ofs utc true s := rfl
  have hcount : ¬ ofs.natAbs ≤ 100000 := by omega
  rw [harm, execPtpSync, if_pos hruns]
  simp only [if_neg hcount, decide_eq_true hofs, show ¬ (16 ≤ 0) by decide, false_and, if_false, Nat.zero_min, Bool.not_true, Bool.false_eq_true, if_true]
  rfl

theorem execPtpSync_steps {ofs : Int} (hruns : s.srcRuns 1 = true) (hofs : 500000000 ≤ ofs.natAbs) (hstate : s.get SYS_TIME_STAT.TSTATE ≠ 2)
    (hutc : utc < 2 ^ 32) : exec (.ptpSync ofs utc true) s =
      .next ((((ptpShown s ofs 0).put SYS_RTC.UTC utc).put SYS_TIME_STAT.RTC_SET 1).log 0x0026 NOTICE (rtcStep s utc)) := by
  have hshown : (ptpShown s ofs 0).get SYS_TIME_STAT.TSTATE ≠ 2 := by rwa [get_ptpShown Nat.zero_lt_one (by decide)]
  have hstep : rtcStep (ptpShown s ofs 0) utc = rtcStep s utc := by
    rw [rtcStep, rtcStep, State.rtc, get_ptpShown Nat.zero_lt_one (by decide)]
    rfl
  rw [execPtpSync_of_large hruns hofs]
  simp only [if_neg hshown, hstep, Nat.mod_eq_of_lt hutc]

/-- A synchronisation of the RTC that PTP keeps the time of. -/
def ptpStepped (s : State) (ofs : Int) (utc : Nat) : State :=
  let t := rtcStepped (ptpShown s ofs 0) utc
  { t with mg := { t.mg with ptpAt := some utc } }

theorem execPtpSync_syncs {ofs : Int} (hruns : s.srcRuns 1 = true) (hofs : 500000000 ≤ ofs.natAbs) (hstate : s.get SYS_TIME_STAT.TSTATE = 2)
    (hutc : utc < 2 ^ 32) (hat : s.mg.ptpAt ≠ some s.rtc) (hclock : s.get BIL_STAT.CLK_ST ≠ 3) :
    exec (.ptpSync ofs utc true) s = .next (ptpStepped s ofs utc) := by
  have hshown : (ptpShown s ofs 0).get SYS_TIME_STAT.TSTATE = 2 := by rwa [get_ptpShown Nat.zero_lt_one (by decide)]
  have hat' : ¬ (ptpShown s ofs 0).mg.ptpAt = some (ptpShown s ofs 0).rtc := by
    rw [State.rtc, get_ptpShown Nat.zero_lt_one (by decide)]
    exact hat
  have hclock' : (ptpShown s ofs 0).get BIL_STAT.CLK_ST ≠ 3 := by rwa [get_ptpShown Nat.zero_lt_one (by decide)]
  have hrtc : (rtcStepped (ptpShown s ofs 0) utc).rtc = utc := (rtcStepped_get hutc).1
  rw [execPtpSync_of_large hruns hofs]
  simp only [if_pos hshown, if_neg hat', utcSync_step hclock' hutc, hrtc]
  rfl

theorem rtcStep_ptpShown {ofs : Int} {n : Nat} : rtcStep (ptpShown s ofs n) utc = rtcStep s utc := by
  rw [rtcStep, rtcStep, State.rtc, get_ptpShown Nat.zero_lt_one (by decide)]
  rfl

theorem exec_ptpLost {intervals : Nat} (hruns : s.srcRuns 1 = true) (hstate : s.get SYS_TIME_STAT.TSTATE = 2) (hlost : 3 ≤ intervals) :
    exec (.ptpLost intervals) s =
      .next ((({ s with mg := { s.mg with syncs := 0 } } : State).put SYS_TIME_STAT.TSTATE 3).log 0x0024 WARNING [1]) := by
  have harm : exec (.ptpLost intervals) s = execPtpLost intervals s := rfl
  rw [harm, execPtpLost, if_pos (by simp [hruns, hstate, hlost])]
  rfl

theorem exec_ptpLost_of_heard {intervals : Nat} (hheard : intervals < 3) (hofs : (s.geti SYS_TIME_STAT.OFS).natAbs ≤ 1000) :
    exec (.ptpLost intervals) s = .next s := by
  have harm : exec (.ptpLost intervals) s = execPtpLost intervals s := rfl
  rw [harm, execPtpLost, if_neg]
  simp [Nat.not_le.mpr hheard, Nat.not_lt.mpr hofs]

theorem exec_ntpPoll {secs : Nat} (hruns : s.srcRuns 2 = true) (hdue : 2 ^ clampN 4 10 (s.get SYS_TIME_CFG.NTP_POLL) ≤ secs) :
    exec (.ntpPoll secs) s =
      .next (({ s with mg := { s.mg with polls := s.mg.polls + 1 } } : State).emit .ntp (s.get SYS_NTP_SRV.ADDR) []) := by
  have harm : exec (.ntpPoll secs) s = execNtpPoll secs s := rfl
  rw [harm, execNtpPoll, if_pos (by simp [hruns, hdue])]

theorem exec_ntpPoll_of_early {secs : Nat} (h : secs < 16) : exec (.ntpPoll secs) s = .next s := by
  have harm : exec (.ntpPoll secs) s = execNtpPoll secs s := rfl
  have hleast : 4 ≤ clampN 4 10 (s.get SYS_TIME_CFG.NTP_POLL) := by
    unfold clampN
    split_ifs <;> omega
  have hwait : 2 ^ 4 ≤ 2 ^ clampN 4 10 (s.get SYS_TIME_CFG.NTP_POLL) := Nat.pow_le_pow_right (by decide) hleast
  have hearly : ¬ 2 ^ clampN 4 10 (s.get SYS_TIME_CFG.NTP_POLL) ≤ secs := by omega
  rw [harm, execNtpPoll, if_neg (by simp [hearly])]

/-- An accepted NTP response shows its offset and locks. -/
def ntpShown (s : State) (ofs : Int) : State :=
  (({ s.ofsShow ofs with mg := { s.mg with polls := 0 } } : State).put SYS_TIME_STAT.TSTATE 2).log 0x0023 NOTICE [2]

theorem ntpShown_far {ofs : Int} {n i : Nat} {g : Field} (hi : i < n) (h : (far n SYS_TIME_STAT.OFS g && far n SYS_TIME_STAT.TSTATE g) = true)
    (hlog : clearOf n g logParts = true) : (ntpShown s ofs).get g i = s.get g i := by
  obtain ⟨hofs, hstate⟩ := Bool.and_eq_true_iff.mp h
  rw [ntpShown, get_log_far hi hlog, get_put_far hi hstate]
  exact get_put_far hi hofs

theorem records_ntpShown {ofs : Int} : Records s (ntpShown s ofs) [(0x0023, 2, [2])] := by
  have hshown : Records s { s.ofsShow ofs with mg := { s.mg with polls := 0 } } [] :=
    (records_refl.put (f := SYS_TIME_STAT.OFS) (by decide)).sameRegs rfl rfl
  exact hshown |>.put (by decide) |>.log (by decide)

theorem rtcStep_ntpShown {ofs : Int} : rtcStep (ntpShown s ofs) utc = rtcStep s utc := by
  rw [rtcStep, rtcStep, State.rtc, ntpShown_far Nat.zero_lt_one (by decide) (by decide)]
  rfl

theorem exec_ntpResponse {stratum rootMs : Nat} {ofs : Int} (hruns : s.srcRuns 2 = true) (hlo : 1 ≤ stratum) (hhi : stratum ≤ 15)
    (hroot : rootMs ≤ 100) (hofs : 500000000 ≤ ofs.natAbs) (hutc : utc < 2 ^ 32) (hclock : s.get BIL_STAT.CLK_ST ≠ 3)
    (hstate : s.get SYS_TIME_STAT.TSTATE ≠ 2) :
    exec (.ntpResponse stratum false rootMs ofs utc) s = .next (rtcStepped (ntpShown s ofs) utc) := by
  have harm : exec (.ntpResponse stratum false rootMs ofs utc) s = execNtpResponse stratum false rootMs ofs utc s := rfl
  have hunlocked : ({ s.ofsShow ofs with mg := { s.mg with polls := 0 } } : State).get SYS_TIME_STAT.TSTATE ≠ 2 := by
    have hshow : (s.ofsShow ofs).get SYS_TIME_STAT.TSTATE = s.get SYS_TIME_STAT.TSTATE := get_put_far Nat.zero_lt_one (by decide)
    exact hshow ▸ hstate
  have hclock' : (ntpShown s ofs).get BIL_STAT.CLK_ST ≠ 3 := by rwa [ntpShown_far Nat.zero_lt_one (by decide) (by decide)]
  rw [harm, execNtpResponse, if_pos (by simp [hruns, hlo, hhi, hroot])]
  simp only [if_neg hunlocked, decide_eq_true hofs]
  exact congrArg _ (utcSync_step hclock' hutc)

theorem exec_ntpResponse_of_refused {stratum rootMs : Nat} {alarm : Bool} {ofs : Int}
    (h : stratum = 0 ∨ 15 < stratum ∨ alarm = true ∨ 100 < rootMs) : exec (.ntpResponse stratum alarm rootMs ofs utc) s = .next s := by
  have harm : exec (.ntpResponse stratum alarm rootMs ofs utc) s = execNtpResponse stratum alarm rootMs ofs utc s := rfl
  rw [harm, execNtpResponse, if_neg]
  simp only [Bool.and_eq_true, decide_eq_true_eq, Bool.not_eq_true']
  rintro ⟨⟨⟨⟨-, hlo⟩, hhi⟩, halarm⟩, hroot⟩
  rcases h with h | h | h | h
  · omega
  · omega
  · exact absurd h (by simp [halarm])
  · omega

theorem exec_ntpLost (hruns : s.srcRuns 2 = true) (hstate : s.get SYS_TIME_STAT.TSTATE = 2) (hpolls : 4 ≤ s.mg.polls) :
    exec .ntpLost s = .next ((s.put SYS_TIME_STAT.TSTATE 3).log 0x0024 WARNING [2]) := by
  have harm : exec .ntpLost s = execNtpLost s := rfl
  rw [harm, execNtpLost, if_pos (by simp [hruns, hstate, hpolls])]
  rfl

/-- Settles O32: each command's equation gives its next state, and the rules of the readings and of the records give what it holds. -/
theorem remoteAndTimeResults : Obligations.RemoteAndTimeResults := by
  unfold Obligations.RemoteAndTimeResults
  refine ⟨?_, ?_, ?_, ?_, ?_, ?_, ?_, ?_, ?_, ?_, ?_, ?_, ?_, ?_, ?_, ?_, ?_, ?_, ?_, ?_, ?_⟩
  · rintro s sess id serial hs hk hroot rfl
    exact ⟨_, exec_locate_own hs hk hroot, rfl, rfl, rfl⟩
  · intro s sess id serial hs hk hroot
    exact ⟨_, exec_locate_of_not_root hs hk hroot, rfl, rfl⟩
  · intro s sess id dst pay recent hs hk hpay hhold
    refine ⟨_, exec_launch hs hk hpay hhold, ?_, ?_, rfl⟩
    all_goals rw [agentFrame_of_hold (s := withLaunch s sess pay) hhold]
    · rfl
    · exact List.length_append ..
  · intro s sess id dst pay recent hs hk hadmin
    exact ⟨_, exec_launch_of_not_admin hs hk hadmin, rfl, rfl, rfl⟩
  · intro s src resp i hkey hi
    exact exec_lresult hkey hi
  · intro s src resp hkey
    exact exec_lresult_of_unknown hkey
  · intro s sess id serial recent n hs hk hready hused hother hnode hhold
    refine ⟨_, exec_reset_other hs hk hready hused hother hnode hhold, ?_, ?_, ?_, rfl⟩
    all_goals rw [agentFrame_of_hold (s := withReset s) hhold]
    · rfl
    · exact List.length_append ..
    · rfl
  · intro s sess id serial recent hs hk hready
    exact ⟨_, exec_reset_of_not_ready hs hk hready, rfl, rfl, rfl⟩
  · intro s sess id serial recent hs hk hadmin
    exact ⟨_, exec_reset_of_not_admin hs hk hadmin, rfl, rfl, rfl⟩
  · intro s sess id utc frac phase hs hk hsrc hutc hofs hfrac hphase hclock
    obtain ⟨htime, hset, hage⟩ := rtcStepped_get (s := s) hutc
    exact ⟨_, exec_time hs hk hsrc hutc hofs hfrac hphase hclock, htime, hset, hage, records_rtcStepped.respond.logged, rfl⟩
  · intro s sess id utc frac phase hs hk hsrc hlock
    exact ⟨_, exec_time_of_locked hs hk hsrc hlock, rfl, rfl, rfl⟩
  · rintro s ofs utc _ hruns hofs hsyncs hstate rfl
    refine ⟨_, execPtpSync_locks hruns hofs hsyncs hstate, ?_, ?_, ?_, records_ptpShown |>.put (by decide) |>.log (by decide) |>.logged⟩
    · rw [get_log_far Nat.zero_lt_one (by decide), get_put_here Nat.zero_lt_one (by decide)]
      rfl
    · rw [State.geti, get_log_far Nat.zero_lt_one (by decide), get_put_far Nat.zero_lt_one (by decide)]
      exact geti_ofsShow (by omega) (by omega)
    · rw [log_mg, put_mg]
      rfl
  · rintro s ofs utc _ hruns hofs hstate rfl hutc
    refine ⟨_, execPtpSync_steps hruns hofs hstate hutc, ?_, ?_, ?_, ?_, records_ptpShown |>.put (by decide) |>.put (by decide) |>.log (by decide) |>.logged⟩
    · rw [get_log_far Nat.zero_lt_one (by decide), get_put_far Nat.zero_lt_one (by decide), get_put_here Nat.zero_lt_one (by decide)]
      exact Nat.mod_eq_of_lt hutc
    · rw [get_log_far Nat.zero_lt_one (by decide), get_put_here Nat.zero_lt_one (by decide)]
      rfl
    · rw [get_log_far Nat.zero_lt_one (by decide), get_put_far Nat.zero_lt_one (by decide), get_put_far Nat.zero_lt_one (by decide),
        get_ptpShown Nat.zero_lt_one (by decide)]
    · rw [log_mg, put_mg, put_mg]
      rfl
  · rintro s ofs utc _ hruns hofs hstate rfl hutc hat hclock
    obtain ⟨htime, -, hage⟩ := rtcStepped_get (s := ptpShown s ofs 0) hutc
    refine ⟨_, execPtpSync_syncs hruns hofs hstate hutc hat hclock, htime, hage, rfl, ?_⟩
    have hrecords := records_ptpShown.trans (records_rtcStepped (s := ptpShown s ofs 0) (utc := utc))
    rw [rtcStep_ptpShown] at hrecords
    exact (hrecords.sameRegs rfl rfl).logged
  · intro s intervals hruns hstate hlost
    have hsame : Records s { s with mg := { s.mg with syncs := 0 } } [] := records_refl.sameRegs rfl rfl
    refine ⟨_, exec_ptpLost hruns hstate hlost, ?_, ?_, hsame |>.put (by decide) |>.log (by decide) |>.logged⟩
    · rw [get_log_far Nat.zero_lt_one (by decide), get_put_here Nat.zero_lt_one (by decide)]
      rfl
    · rw [log_mg, put_mg]
  · intro s intervals hheard hofs
    exact exec_ptpLost_of_heard hheard hofs
  · intro s secs hruns hdue
    exact ⟨_, exec_ntpPoll hruns hdue, rfl, rfl, rfl⟩
  · intro s secs h
    exact exec_ntpPoll_of_early h
  · rintro s stratum _ rootMs ofs utc hruns hlo hhi rfl hroot hofs hutc hclock hstate
    obtain ⟨htime, -, hage⟩ := rtcStepped_get (s := ntpShown s ofs) hutc
    have hrecords := records_ntpShown.trans (records_rtcStepped (s := ntpShown s ofs) (utc := utc))
    rw [rtcStep_ntpShown] at hrecords
    refine ⟨_, exec_ntpResponse hruns hlo hhi hroot hofs hutc hclock hstate, ?_, htime, hage, ?_, hrecords.logged⟩
    · rw [rtcStepped_far Nat.zero_lt_one (by decide) (by decide), ntpShown, get_log_far Nat.zero_lt_one (by decide),
        get_put_here Nat.zero_lt_one (by decide)]
      rfl
    · rw [rtcStepped_mg, ntpShown, log_mg, put_mg]
  · intro s stratum alarm rootMs ofs utc h
    exact exec_ntpResponse_of_refused h
  · intro s hruns hstate hpolls
    refine ⟨_, exec_ntpLost hruns hstate hpolls, ?_, records_refl |>.put (by decide) |>.log (by decide) |>.logged⟩
    rw [get_log_far Nat.zero_lt_one (by decide), get_put_here Nat.zero_lt_one (by decide)]
    rfl

end Sys2Proof.Proofs
end

section
/-! PROOFS. The results of register access, of the gateway, of the handshakes and closes of sessions, and of test selections. -/

namespace Sys2Proof.Proofs

open Sys2Proof.Machine Sys2Proof.Laws R

variable {s t : State} {sess i ip port node secs out code : Nat} {gateway : Option Nat}

/-! ### A register with one field of any bits (R10, R11) -/

/-- Where the block takes the value, the write of a word's only field sets it. -/
theorem regWrite_of_single_field {w : Wr} {f : Field} (hfield : fieldsAt w.a = [f]) (hhit : w.hits f = true) (hacc : f.acc = .rw)
    (hplain : f ∉ actFields (w.a / 0x10000)) (htakes : s.takes w f = true) : s.regWrite w = (s.setField w f).afterWrite w.a := by
  have hacts : (actFields (w.a / 0x10000)).filter (fun g => decide (g = f)) = [] :=
    List.filter_eq_nil_iff.mpr fun g hg hgf => hplain (of_decide_eq_true hgf ▸ hg)
  simp [State.regWrite, hfield, hhit, hacc, hacts, htakes]

/-- A mask that covers no bit of a word's only field writes nothing. -/
theorem accessWrite_of_uncovered {lvl a : Nat} {val mask : Word} {f : Field} (halign : a % 4 = 0) (hfield : fieldsAt a = [f])
    (hruns : s.wordStatus a = 0) (hmask : mask &&& f.mask = 0#32) : s.accessWrite sess lvl a val mask = (0, s) := by
  simp [State.accessWrite, halign, hfield, hruns, hmask]

/-- A field that the level may not write refuses the access. -/
theorem accessWrite_of_level {lvl a : Nat} {val mask : Word} {f : Field} (halign : a % 4 = 0) (hfield : fieldsAt a = [f])
    (hruns : s.wordStatus a = 0) (hacc : f.acc = .rw) (hmay : s.fieldStatus lvl f a = 2) (hmask : mask &&& f.mask ≠ 0#32)
    (hblock : a / 0x10000 ≠ 19) : s.accessWrite sess lvl a val mask = (2, s) := by
  simp [State.accessWrite, halign, hfield, hruns, hacc, hmay, hmask, hblock]

theorem wordStatus_ntpServer (h : s.runs 3 = true) : s.wordStatus 0x184 = 0 := by
  have hruns : s.wordRuns 0x184 = true := h
  have hrole : s.offInRole (0x184 / 0x10000) = false := rfl
  rw [State.wordStatus, hrole, hruns]
  rfl

theorem fieldsAt_ntpServer : fieldsAt 0x184 = [SYS_NTP_SRV.ADDR] := by decide

theorem fieldStatus_ntpServer {lvl : Nat} (h : 2 ≤ lvl) : s.fieldStatus lvl SYS_NTP_SRV.ADDR 0x184 = 0 := by
  have hpulse : s.pulLocked SYS_NTP_SRV.ADDR 0x184 = false := by simp [State.pulLocked, SYS_NTP_SRV.ADDR]
  rw [State.fieldStatus, if_neg (by decide), if_neg (by omega), if_neg fun h => absurd h.1 (by decide), if_neg fun h => absurd h.1 (by decide),
    if_neg (by simp [hpulse]), if_neg fun h => absurd h.1 (by decide)]

theorem afterWrite_ntpServer : s.afterWrite 0x184 = s := by
  simp [State.afterWrite]

theorem hit_ntpServer {lvl : Nat} {req : Word} : Wr.hits ⟨sess, lvl, 0x184, SYS_NTP_SRV.ADDR.mask, req⟩ SYS_NTP_SRV.ADDR = true := by
  change (SYS_NTP_SRV.ADDR.mask &&& SYS_NTP_SRV.ADDR.mask != 0) = true
  decide

/-- The masked write of the NTP server's address. -/
def ntpMerged (s : State) (val mask : Nat) : Word :=
  (s.word 0x184 &&& ~~~(BitVec.ofNat 32 mask)) ||| (BitVec.ofNat 32 val &&& BitVec.ofNat 32 mask)

theorem liveWord_ntpServer : s.liveWord sess 0x184 = s.word 0x184 := by
  have hall : ~~~(woMask 0x184) = BitVec.allOnes 32 := by decide
  have hlive : s.liveWord sess 0x184 = s.word 0x184 &&& ~~~(woMask 0x184) := rfl
  rw [hlive, hall, BitVec.and_allOnes]

theorem exec_registerWrite_ntpServer {val mask : Nat} (hlevel : 2 ≤ s.level sess) (hruns : s.runs 3 = true) :
    ∃ t : State, exec (.registerWrite sess 0x184 val mask) s = .next (t.report sess 0) ∧ t.word 0x184 = ntpMerged s val mask ∧ t.out = s.out := by
  have harm : exec (.registerWrite sess 0x184 val mask) s = execRegisterWrite sess 0x184 val mask s := rfl
  have hall : ∀ w : Word, w &&& SYS_NTP_SRV.ADDR.mask = w := fun w => by
    have hmask : SYS_NTP_SRV.ADDR.mask = BitVec.allOnes 32 := by decide
    rw [hmask, BitVec.and_allOnes]
  rw [harm, execRegisterWrite]
  by_cases hmask : BitVec.ofNat 32 mask = 0#32
  · refine ⟨s, ?_, ?_, rfl⟩
    · rw [accessWrite_of_uncovered (by decide) fieldsAt_ntpServer (wordStatus_ntpServer hruns) (by rw [hall, hmask])]
    · have hall : ~~~(0#32) = BitVec.allOnes 32 := by decide
      rw [ntpMerged, hmask, hall, BitVec.and_allOnes, BitVec.and_zero, BitVec.or_zero]
  · have htaken : s.regWrite ⟨sess, s.level sess, 0x184, SYS_NTP_SRV.ADDR.mask, ntpMerged s val mask⟩ =
        (s.setField ⟨sess, s.level sess, 0x184, SYS_NTP_SRV.ADDR.mask, ntpMerged s val mask⟩ SYS_NTP_SRV.ADDR).afterWrite 0x184 := by
      have hplain : SYS_NTP_SRV.ADDR ∉ actFields (0x184 / 0x10000) := by decide
      exact regWrite_of_single_field fieldsAt_ntpServer hit_ntpServer rfl hplain (by simp [State.takes])
    have hset : s.setField ⟨sess, s.level sess, 0x184, SYS_NTP_SRV.ADDR.mask, ntpMerged s val mask⟩ SYS_NTP_SRV.ADDR =
        s.setWord 0x184 ((s.word 0x184 &&& ~~~SYS_NTP_SRV.ADDR.mask) ||| (ntpMerged s val mask &&& SYS_NTP_SRV.ADDR.mask)) := rfl
    have hnone : s.word 0x184 &&& ~~~SYS_NTP_SRV.ADDR.mask = 0#32 := by
      have hmask : ~~~SYS_NTP_SRV.ADDR.mask = 0#32 := by decide
      rw [hmask, BitVec.and_zero]
    rw [hset, hnone, BitVec.zero_or, hall, afterWrite_ntpServer] at htaken
    refine ⟨s.setWord 0x184 (ntpMerged s val mask), ?_, sparseGet_sparsePut_same .., rfl⟩
    rw [accessWrite_of_single_field (by decide) fieldsAt_ntpServer (wordStatus_ntpServer hruns) rfl (fieldStatus_ntpServer hlevel)
      (by rwa [hall]) (by decide), liveWord_ntpServer, hall]
    exact congrArg (fun t : State => Host.Outcome.next (t.report sess 0)) htaken

theorem exec_registerWrite_offInRole {a val mask : Nat} (halign : a % 4 = 0) (hlisted : fieldsAt a ≠ []) (hoff : s.offInRole (a / 0x10000) = true) :
    exec (.registerWrite sess a val mask) s = .next (s.report sess 4) := by
  have harm : exec (.registerWrite sess a val mask) s = execRegisterWrite sess a val mask s := rfl
  have hstatus : s.wordStatus a = 4 := by rw [State.wordStatus, if_pos hoff]
  rw [harm, execRegisterWrite]
  simp [State.accessWrite, halign, hlisted, hstatus]

theorem exec_registerWrite_of_level {val mask : Nat} (hlevel : s.level sess < 2) (hruns : s.runs 3 = true) (hmask : mask % 2 ^ 32 ≠ 0) :
    exec (.registerWrite sess 0x184 val mask) s = .next (s.report sess 2) := by
  have harm : exec (.registerWrite sess 0x184 val mask) s = execRegisterWrite sess 0x184 val mask s := rfl
  have hcovered : BitVec.ofNat 32 mask &&& SYS_NTP_SRV.ADDR.mask ≠ 0#32 := by
    have hall : SYS_NTP_SRV.ADDR.mask = BitVec.allOnes 32 := by decide
    rw [hall, BitVec.and_allOnes]
    exact fun h => hmask (by simpa using congrArg BitVec.toNat h)
  have hmay : s.fieldStatus (s.level sess) SYS_NTP_SRV.ADDR 0x184 = 2 := by
    rw [State.fieldStatus, if_neg (by decide), if_pos hlevel]
  rw [harm, execRegisterWrite, accessWrite_of_level (by decide) fieldsAt_ntpServer (wordStatus_ntpServer hruns) rfl hmay hcovered (by decide)]

/-! ### What the management registers show -/

theorem sessShow_far {n : Nat} {g : Field} (hi : i < n)
    (h : (far n SYS_MGMT_STAT.N_SESS g && far n SYS_MGMT_STAT.N_ADMIN g && far n SYS_MGMT_STAT.N_RELAY g) = true) :
    s.sessShow.get g i = s.get g i := by
  simp only [Bool.and_eq_true] at h
  obtain ⟨⟨hsess, hadmin⟩, hrelay⟩ := h
  unfold State.sessShow
  rw [get_put_far hi hrelay, get_put_far hi hadmin, get_put_far hi hsess]

theorem openSessions_of_get (h : ∀ i < 8, t.get SYS_SESS.STATE i = s.get SYS_SESS.STATE i) : t.openSessions = s.openSessions :=
  List.filter_congr fun i hi => by rw [h i (List.mem_range.mp hi)]

theorem openSessions_sessShow : s.sessShow.openSessions = s.openSessions := openSessions_of_get fun _ hi => sessShow_far hi (by decide)

theorem openSessions_log {sev : Nat} {pay : List Nat} : (s.log code sev pay).openSessions = s.openSessions :=
  openSessions_of_get fun _ hi => get_log_far hi (by decide)

theorem sessShow_sessions : s.sessShow.get SYS_MGMT_STAT.N_SESS = s.openSessions.length := by
  have hle : s.openSessions.length ≤ 8 := List.length_filter_le ..
  unfold State.sessShow
  rw [get_put_far Nat.zero_lt_one (by decide), get_put_far Nat.zero_lt_one (by decide), get_put_here Nat.zero_lt_one (by decide)]
  exact Nat.mod_eq_of_lt (hle.trans_lt (by decide))

theorem sessShow_relays : s.sessShow.get SYS_MGMT_STAT.N_RELAY = s.mg.relays.length % 2 ^ SYS_MGMT_STAT.N_RELAY.w := by
  unfold State.sessShow
  rw [get_put_here Nat.zero_lt_one (by decide)]

theorem sessShow_mg : s.sessShow.mg = s.mg := by simp [State.sessShow]

theorem records_sessShow : Records s s.sessShow [] :=
  records_refl |>.put (by decide) |>.put (by decide) |>.put (by decide)

/-! ### The gateway (R495 to R497) -/

theorem relayRefusal_of_room {known : Bool} {len : Nat} (hen : s.get SYS_NET_CFG.RELAY_EN = 1)
    (hstate : s.get FAB_STAT.STATE = 4 ∨ s.get FAB_STAT.STATE = 5) (hlen : len ≤ 508) (hroom : s.mg.relays.length < 64) :
    s.relayRefusal known len = 0 := by
  have hfabric : ¬ (s.get FAB_STAT.STATE ≠ 4 ∧ s.get FAB_STAT.STATE ≠ 5) := by omega
  have hfull : ¬ 64 ≤ s.mg.relays.length := by omega
  have hfit : ¬ 510 < len + 2 := by omega
  simp only [State.relayRefusal, State.is, hen, if_neg hfabric, if_neg hfit, hfull]
  simp

theorem relayRefusal_of_disabled {known : Bool} {len : Nat} (hen : s.get SYS_NET_CFG.RELAY_EN = 0) : s.relayRefusal known len = 1 := by
  simp [State.relayRefusal, State.is, hen]

section Held

variable {ty urg dst room : Nat} {f : Nat → List Nat} (h : s.fab.hold = true)
include h

theorem agentFrame_mg : (s.agentFrame ty urg dst room f).mg = s.mg := by rw [agentFrame_of_hold h]

theorem agentFrame_out : (s.agentFrame ty urg dst room f).out = s.out := by rw [agentFrame_of_hold h]

theorem agentFrame_regs : (s.agentFrame ty urg dst room f).regs = s.regs := by rw [agentFrame_of_hold h]

theorem agentFrame_inject : (s.agentFrame ty urg dst room f).fab.inject.length = s.fab.inject.length + 1 := by
  rw [agentFrame_of_hold h]
  exact List.length_append

end Held

/-- The relay entry of a new client. -/
def withRelay (s : State) (ip port node : Nat) : State :=
  let t := { s with fresh := s.fresh + 1 }
  ({ t with mg := { t.mg with relays := t.mg.relays ++ [{ ip, port, node, tag := t.relayTag (s.free 16).1 }] } } : State).sessShow

theorem withRelay_relays : (withRelay s ip port node).mg.relays = s.mg.relays ++
    [{ ip, port, node, tag := ({ s with fresh := s.fresh + 1 } : State).relayTag (s.free 16).1 }] := by
  rw [withRelay, sessShow_mg]

theorem withRelay_shown (hroom : s.mg.relays.length < 64) :
    (withRelay s ip port node).get SYS_MGMT_STAT.N_RELAY = (withRelay s ip port node).mg.relays.length := by
  have hw : (2 : Nat) ^ SYS_MGMT_STAT.N_RELAY.w = 128 := rfl
  rw [withRelay, sessShow_relays, sessShow_mg, hw]
  refine Nat.mod_eq_of_lt ?_
  simp only [List.length_append, List.length_singleton]
  omega

theorem withRelay_fab : (withRelay s ip port node).fab = s.fab := by simp [withRelay, State.sessShow]

theorem withRelay_out : (withRelay s ip port node).out = s.out := by simp [withRelay, State.sessShow]

theorem exec_gatewayRelay_new {bytes : List Nat} (heth : s.ethRuns = true) (hnode : node ≠ 0) (hother : node ≠ s.get FAB_STAT.NODE_ID)
    (hen : s.get SYS_NET_CFG.RELAY_EN = 1) (hstate : s.get FAB_STAT.STATE = 4 ∨ s.get FAB_STAT.STATE = 5) (hlen : bytes.length ≤ 508)
    (hnone : (s.mg.relays.find? fun e => e.ip == ip && e.port == port && e.node == node) = none) (hroom : s.mg.relays.length < 64) :
    exec (.gatewayRelay ip port node none bytes) s = .next ((withRelay s ip port node).agentFrame 1 0 (2048 * node + 1) 0 fun _ =>
      leBytes 2 (({ s with fresh := s.fresh + 1 } : State).relayTag (s.free 16).1) ++ bytes) := by
  have harm : exec (.gatewayRelay ip port node none bytes) s = execGatewayRelay ip port node none bytes s := rfl
  have hreach : ¬ ((!s.ethRuns) = true ∨ node = 0 ∨ node = s.get FAB_STAT.NODE_ID) := by simp [heth, hnode, hother]
  rw [harm, execGatewayRelay]
  simp only [if_neg hreach, hnone, relayRefusal_of_room hen hstate hlen hroom]
  rfl

theorem exec_gatewayRelay_disabled {bytes : List Nat} (heth : s.ethRuns = true) (hnode : node ≠ 0) (hother : node ≠ s.get FAB_STAT.NODE_ID)
    (hen : s.get SYS_NET_CFG.RELAY_EN = 0) : exec (.gatewayRelay ip port node none bytes) s = .next (s.relayError ip port node 1) := by
  have harm : exec (.gatewayRelay ip port node none bytes) s = execGatewayRelay ip port node none bytes s := rfl
  have hreach : ¬ ((!s.ethRuns) = true ∨ node = 0 ∨ node = s.get FAB_STAT.NODE_ID) := by simp [heth, hnode, hother]
  rw [harm, execGatewayRelay]
  simp only [if_neg hreach, relayRefusal_of_disabled hen]

theorem exec_gatewayRelay_answer {bytes : List Nat} {tag : Nat} {r : Relay} (heth : s.ethRuns = true)
    (hfound : (s.mg.relays.find? fun e => e.tag == tag && e.node == node) = some r) : exec (.gatewayRelay ip port node (some tag) bytes) s =
      .next (s.emit .relay r.ip ([r.port, 1, 0] ++ leBytes 2 node ++ [0, 0, 0, 0] ++ bytes)) := by
  have harm : exec (.gatewayRelay ip port node (some tag) bytes) s = execGatewayRelay ip port node (some tag) bytes s := rfl
  rw [harm, execGatewayRelay]
  simp only [hfound, if_pos heth]

theorem exec_relayEntryExpiry {tag : Nat} (hruns : s.runs 3 = true) (hsecs : 120 ≤ secs) : exec (.relayEntryExpiry tag secs) s =
    .next ({ s with mg := { s.mg with relays := s.mg.relays.filter fun e => e.tag != tag } } : State).sessShow := by
  have harm : exec (.relayEntryExpiry tag secs) s = execRelayEntryExpiry tag secs s := rfl
  rw [harm, execRelayEntryExpiry, if_pos (by simp [hruns, hsecs])]

theorem exec_relayEntryExpiry_of_early {tag : Nat} (hsecs : secs < 120) : exec (.relayEntryExpiry tag secs) s = .next s := by
  have harm : exec (.relayEntryExpiry tag secs) s = execRelayEntryExpiry tag secs s := rfl
  rw [harm, execRelayEntryExpiry, if_neg (by simp [Nat.not_le.mpr hsecs])]

/-! ### Handshakes (R499 to R502) -/

theorem level_of_not_open (h : s.get SYS_SESS.STATE i ≠ 2) : s.level i = 0 := by
  rw [State.level, if_neg fun hopen => h hopen.2]

theorem level_of_open (hi : i < 8) (h : s.get SYS_SESS.STATE i = 2) : s.level i = s.get SYS_SESS.LEVEL i := by
  rw [State.level, if_pos ⟨hi, h⟩]

theorem open_of_level (h : s.level i ≠ 0) : i < 8 ∧ s.get SYS_SESS.STATE i = 2 := by
  by_contra hclosed
  exact h (by rw [State.level, if_neg hclosed])

theorem records_sessEntry {st level : Nat} : Records s (s.sessEntry i st level gateway) [] := by
  unfold State.sessEntry State.putb
  exact records_refl |>.put (by decide) |>.put (by decide) |>.put (by decide) |>.put (by decide) |>.put (by decide)

section Entry

variable (hi : i < 8)
include hi

theorem sessEntry_state {st level : Nat} (hst : st < 4) : (s.sessEntry i st level gateway).get SYS_SESS.STATE i = st := by
  unfold State.sessEntry State.putb
  simp (disch := decide) only [get_put_far hi]
  rw [get_put_here hi (by decide)]
  exact Nat.mod_eq_of_lt hst

theorem sessEntry_level {st level : Nat} (hlevel : level < 4) : (s.sessEntry i st level gateway).get SYS_SESS.LEVEL i = level := by
  unfold State.sessEntry State.putb
  simp (disch := decide) only [get_put_far hi]
  rw [get_put_here hi (by decide)]
  exact Nat.mod_eq_of_lt hlevel

theorem sessEntry_via {st level : Nat} : (s.sessEntry i st level gateway).get SYS_SESS.VIA i = if gateway.isSome then 1 else 0 := by
  unfold State.sessEntry State.putb
  simp (disch := decide) only [get_put_far hi]
  rw [get_put_here hi (by decide)]
  split <;> rfl

theorem sessEntry_peer {st level : Nat} (hnode : ∀ n, gateway = some n → n < 4096) :
    (s.sessEntry i st level gateway).get SYS_SESS.PEER i = gateway.getD 0 := by
  unfold State.sessEntry State.putb
  simp (disch := decide) only [get_put_far hi]
  rw [get_put_here hi (by decide)]
  cases gateway with
  | none => rfl
  | some n => exact Nat.mod_eq_of_lt (hnode n rfl)

theorem sessEntry_subscriptions {st level : Nat} : (s.sessEntry i st level gateway).get SYS_SESS.N_SUB i = 0 := by
  unfold State.sessEntry State.putb
  rw [get_put_here hi (by decide)]
  rfl

end Entry

/-- A session that opens, before its event. -/
def opened (s : State) (i level anchor : Nat) (gateway : Option Nat) : State :=
  let t := (s.sessEntry i 2 level gateway).setSes i { anchor }
  { t with capt := t.capt.filter fun (p : Nat × Word) => p.1 / 0x2000000 != i + 1 }.sessShow

theorem sessOpen_of_rtc {level : Nat} {f : Field} (h : s.get SYS_TIME_STAT.RTC_SET = 1) : s.sessOpen i level f gateway =
    (opened s i level (s.get f) gateway).log 0x0020 INFO ([i, level, if gateway.isSome then 1 else 0, 0] ++ leBytes 2 (gateway.getD 0)) :=
  if_pos (beq_iff_eq.mpr h)

theorem opened_get {level anchor : Nat} {f : Field} (hi : i < 8)
    (h : (far 8 SYS_MGMT_STAT.N_SESS f && far 8 SYS_MGMT_STAT.N_ADMIN f && far 8 SYS_MGMT_STAT.N_RELAY f) = true) :
    (opened s i level anchor gateway).get f i = (s.sessEntry i 2 level gateway).get f i := by
  rw [opened, sessShow_far hi h]
  rfl

theorem opened_ses {level anchor : Nat} : (opened s i level anchor gateway).ses i = { anchor } := by
  rw [State.ses, opened, sessShow_mg]
  exact sparseGet_sparsePut_same ..

theorem records_opened {level anchor : Nat} : Records s (opened s i level anchor gateway) [] := by
  have hbefore : Records s { (s.sessEntry i 2 level gateway).setSes i { anchor } with
      capt := ((s.sessEntry i 2 level gateway).setSes i { anchor }).capt.filter fun (p : Nat × Word) => p.1 / 0x2000000 != i + 1 } [] :=
    records_sessEntry.sameRegs rfl rfl
  exact hbefore.trans records_sessShow

section Handshake

variable (hi : i < 8) (hruns : s.runs 3 = true) (hruns9 : s.runs 9 = true) (heth : s.get SYS_NET_CFG.ETH_EN = 1)
  (hstate : s.get SYS_SESS.STATE i ≠ 2)
include hi hruns hruns9 heth hstate

/-- A handshake that can be served completes or goes on. -/
theorem exec_handshake {o : ShakeObs} {adm opr obs : Bool} (hready : s.kvReady = true) : exec (.handshake i gateway o adm opr obs) s = .next (
    if !o.done then s.sessEntry i 1 0 gateway
    else
      let t := s.shakeCheck o.bad
      if !t.slotServes 0 0 then t.shakeRefused i 4
      else match t.chainLevel adm opr obs with
        | some (level, f) => t.sessOpen i level f gateway
        | none => t.shakeRefused i 1) := by
  have harm : exec (.handshake i gateway o adm opr obs) s = execHandshake i gateway o adm opr obs s := rfl
  have hserved : ¬ (8 ≤ i ∨ (!s.runs 3) = true ∨ (!s.runs 9) = true ∨ gateway.isNone = true ∧ (!s.is SYS_NET_CFG.ETH_EN) = true) := by
    simp [hi, hruns, hruns9, State.is, heth]
  have hnot : ¬ (!s.kvReady) = true := by simp [hready]
  rw [harm, execHandshake, if_neg hserved, if_neg hstate, if_neg hnot] <;> rfl

end Handshake

theorem kvReady_of_slotServes {k use : Nat} (h : s.slotServes k use = true) : s.kvReady = true := by
  simp only [State.slotServes, Bool.and_eq_true] at h
  exact h.1.1.1.1

theorem shakeCheck_nil : s.shakeCheck [] = s := by simp [State.shakeCheck]

/-! ### A refused handshake -/

/-- The entry of a refused handshake is free again. -/
def shakeFreed (s : State) (i : Nat) : State := if s.get SYS_SESS.STATE i = 1 then s.sessClear i else s

theorem shakeRefused_eq {reason : Nat} : s.shakeRefused i reason = ((shakeFreed s i).inc SYS_MGMT_STAT.REFUSED).log 0x0022 WARNING [reason] := rfl

theorem sessClear_state (hi : i < 8) : (s.sessClear i).get SYS_SESS.STATE i = 0 := by
  unfold State.sessClear
  simp (disch := decide) only [get_put_far hi]
  rw [get_put_here hi (by decide)]
  rfl

theorem sessClear_far {n k : Nat} {g : Field} (hk : k < n)
    (h : (far n SYS_SESS.STATE g && far n SYS_SESS.LEVEL g && far n SYS_SESS.VIA g && far n SYS_SESS.PEER g && far n SYS_SESS.N_SUB g) = true) :
    (s.sessClear i).get g k = s.get g k := by
  simp only [Bool.and_eq_true] at h
  obtain ⟨⟨⟨⟨hstate, hlevel⟩, hvia⟩, hpeer⟩, hsub⟩ := h
  unfold State.sessClear
  rw [get_put_far hk hsub, get_put_far hk hpeer, get_put_far hk hvia, get_put_far hk hlevel, get_put_far hk hstate]

theorem records_sessClear : Records s (s.sessClear i) [] :=
  records_refl |>.put (by decide) |>.put (by decide) |>.put (by decide) |>.put (by decide) |>.put (by decide)

theorem shakeRefused_state {reason : Nat} (hi : i < 8) :
    (s.shakeRefused i reason).get SYS_SESS.STATE i = if s.get SYS_SESS.STATE i = 1 then 0 else s.get SYS_SESS.STATE i := by
  rw [shakeRefused_eq, get_log_far hi (by decide), State.inc, get_put_far hi (by decide), shakeFreed]
  split
  · exact sessClear_state hi
  · rfl

theorem shakeRefused_count {reason : Nat} : (s.shakeRefused i reason).get SYS_MGMT_STAT.REFUSED =
    min (s.get SYS_MGMT_STAT.REFUSED + 1) (2 ^ SYS_MGMT_STAT.REFUSED.w - 1) := by
  have hfreed : (shakeFreed s i).get SYS_MGMT_STAT.REFUSED = s.get SYS_MGMT_STAT.REFUSED := by
    rw [shakeFreed]
    split
    · exact sessClear_far Nat.zero_lt_one (by decide)
    · rfl
  rw [shakeRefused_eq, get_log_far Nat.zero_lt_one (by decide), get_inc_same (by decide) (by decide) (by decide), hfreed]

theorem records_shakeRefused {reason : Nat} : Records s (s.shakeRefused i reason) [(0x0022, 3, [reason])] := by
  have hfreed : Records s (shakeFreed s i) [] := by
    rw [shakeFreed]
    split
    · exact records_sessClear
    · exact records_refl
  have hcount : Records s ((shakeFreed s i).inc SYS_MGMT_STAT.REFUSED) [] := hfreed.put (by decide)
  exact hcount.log (by decide)

theorem shakeRefused_slot {reason k : Nat} : (s.shakeRefused i reason).slot k = s.slot k := by
  have hclear : (s.sessClear i).vault = s.vault := by simp [State.sessClear]
  have hvault : (s.shakeRefused i reason).vault = s.vault := by
    have hlog := (log_unchanged ((shakeFreed s i).inc SYS_MGMT_STAT.REFUSED) 0x0022 WARNING [reason]).vault.resolve_left (by simp [within, logParts])
    rw [shakeRefused_eq, hlog, State.inc, put_vault, shakeFreed]
    split
    · exact hclear
    · rfl
  rw [State.slot, State.slot, hvault]

/-! ### A slot that fails its check (R419) -/

theorem slotBad_slot {k : Nat} (hused : (s.slot k).used = true) (hgood : (s.slot k).bad = false) :
    (s.slotBad k).slot k = { s.slot k with bad := true } := by
  have hvault := (log_unchanged (s.setSlot k { s.slot k with bad := true }) 0x0F05 FAULT [k]).vault.resolve_left (by simp [within, logParts])
  have hset : (s.setSlot k { s.slot k with bad := true }).vault.slots = sparsePut {} k { s.slot k with bad := true } s.vault.slots := by
    simp [State.setSlot, State.kvShow]
  rw [State.slotBad, if_pos (by simp [hused, hgood]), State.slot, hvault, hset, sparseGet_sparsePut_same]

theorem slotBad_of_bad {k : Nat} (h : (s.slot k).bad = true) : s.slotBad k = s := by
  rw [State.slotBad, if_neg (by simp [h])]

theorem records_setSlot {k : Nat} {x : KvSlot} : Records s (s.setSlot k x) [] := by
  have hslots : Records s { s with vault := { s.vault with slots := sparsePut {} k x s.vault.slots } } [] := records_refl.sameRegs rfl rfl
  unfold State.setSlot State.kvShow
  exact hslots |>.put (by decide) |>.put (by decide) |>.put (by decide)

theorem records_slotBad {k : Nat} (hused : (s.slot k).used = true) (hgood : (s.slot k).bad = false) :
    Records s (s.slotBad k) [(0x0F05, 4, [k])] := by
  rw [State.slotBad, if_pos (by simp [hused, hgood])]
  exact records_setSlot.log (by decide)

theorem slotBad_state {k : Nat} (hi : i < 8) : (s.slotBad k).get SYS_SESS.STATE i = s.get SYS_SESS.STATE i := by
  rw [State.slotBad]
  split
  · rw [get_log_far hi (by decide), State.setSlot, kvShow_get hi (by decide) (by decide) (by decide) (by decide)]
    rfl
  · rfl

/-- A slot is found bad once, whatever uses it. -/
theorem shakeCheck_first (hused : (s.slot 0).used = true) (hgood : (s.slot 0).bad = false) : s.shakeCheck [0] = s.slotBad 0 := by
  have hagain : ∀ l : List Nat, ∀ t : State, (t.slot 0).bad = true → (l.filter [0].contains).foldl (fun (t : State) k => t.slotBad k) t = t := by
    intro l t ht
    refine List.foldlRecOn (motive := (· = t)) _ _ rfl ?_
    rintro _ rfl k hk
    obtain rfl : k = 0 := by simpa using (List.mem_filter.mp hk).2
    exact slotBad_of_bad ht
  exact hagain _ _ (by rw [slotBad_slot hused hgood])

/-! ### Closes (R502) -/

/-- The entry and the own state of a session that closes. -/
def closing (s : State) (i : Nat) : State :=
  let t := { s with mg := { s.mg with launches := s.mg.launches.map fun (p : Nat × Nat) => if p.2 = i then (p.1, 8) else p } }
  let u := (t.sessClear i).setSes i {}
  if u.kv.owner = some i then u.stageFree else u

/-- A session that closes, before its event. -/
def closed (s : State) (i : Nat) : State := (closing s i).sessShow

theorem sessClose_of_not_admin {reason : Nat} (hopen : s.get SYS_SESS.STATE i = 2) (hlevel : s.get SYS_SESS.LEVEL i ≠ 3) :
    s.sessClose i reason = (closed s i).log 0x0021 INFO [i, reason] :=
  (if_pos hopen).trans (if_neg fun h => hlevel h.1)

theorem closed_state (hi : i < 8) : (closed s i).get SYS_SESS.STATE i = 0 := by
  rw [closed, sessShow_far hi (by decide), closing]
  split <;> exact sessClear_state hi

theorem closed_ses : (closed s i).ses i = {} := by
  rw [State.ses, closed, sessShow_mg, closing]
  split <;> exact sparseGet_sparsePut_same ..

theorem records_closed : Records s (closed s i) [] := by
  have hclosing : Records s (closing s i) [] := by
    have hlaunches : Records s { s with mg := { s.mg with launches := s.mg.launches.map fun (p : Nat × Nat) => if p.2 = i then (p.1, 8) else p } } [] :=
      records_refl.sameRegs rfl rfl
    dsimp only [closing]
    split <;> exact (hlaunches.trans records_sessClear).sameRegs rfl rfl
  exact hclosing.trans records_sessShow

end Sys2Proof.Proofs
end

section
/-! PROOFS. The results of test selections, and of the commands of management access. -/

namespace Sys2Proof.Proofs

open Sys2Proof.Machine Sys2Proof.Laws R

variable {s t : State} {sess out code : Nat}

/-! ### Test selections (R523) -/

theorem exec_tmxSelect (hout : out < 6) (hruns : s.wordStatus TMX_SEL_A.SEL.addr = 0) (hlevel : 2 ≤ s.level sess) (hcode : code < 256) :
    exec (.tmxSelect sess out code) s = .next (s.tmxSelect sess out code) := by
  have harm : exec (.tmxSelect sess out code) s = execTmxSelect sess out code s := rfl
  rw [harm, execTmxSelect, if_neg (by omega), if_neg (not_not.mpr hruns)]
  simp only [if_neg (Nat.not_lt.mpr hlevel), Nat.mod_eq_of_lt hcode]

theorem tmxCode_of_get (hout : out < 6) (ha : ∀ i < 2, t.get TMX_SEL_A.SEL i = s.get TMX_SEL_A.SEL i)
    (hd : ∀ i < 4, t.get TMX_SEL_D.SEL i = s.get TMX_SEL_D.SEL i) : t.tmxCode out = s.tmxCode out := by
  unfold State.tmxCode
  split
  · exact ha _ (by omega)
  · exact hd _ (by omega)

theorem tmxPut_code (hout : out < 6) (hcode : code < 256) : (s.tmxPut out code).tmxCode out = code := by
  unfold State.tmxPut State.tmxCode State.putb
  by_cases h : out < 2
  · simp only [if_pos h]
    rw [get_put_far h (by decide), get_put_here h (by decide)]
    exact Nat.mod_eq_of_lt hcode
  · have hd : out - 2 < 4 := by omega
    simp only [if_neg h]
    rw [get_put_far hd (by decide), get_put_here hd (by decide)]
    exact Nat.mod_eq_of_lt hcode

theorem tmxShow_far {n k : Nat} {g : Field} (hk : k < n) (h : (far n TMX_STAT.ACT_A g && far n TMX_STAT.ACT_D g) = true) :
    s.tmxShow.get g k = s.get g k := by
  obtain ⟨ha, hd⟩ := Bool.and_eq_true_iff.mp h
  unfold State.tmxShow
  rw [get_put_far hk hd, get_put_far hk ha]

theorem records_tmxPut : Records s (s.tmxPut out code) [] := by
  unfold State.tmxPut State.putb
  split
  · exact records_refl |>.put (by decide) |>.put (by decide)
  · exact records_refl |>.put (by decide) |>.put (by decide)

theorem tmxRefusal_lt : s.tmxRefusal sess out code < 8 := by
  unfold State.tmxRefusal
  split_ifs <;> decide

section Accepted

variable (h : s.tmxRefusal sess out code = 0)
include h

theorem tmxSelect_accepted : s.tmxSelect sess out code = (((s.tmxPut out code).put TMX_CTRL.STATUS 1).tmxShow).log 0x1301 INFO [out, code] := by
  rw [State.tmxSelect, h]
  rfl

theorem tmxSelect_accepted_code (hout : out < 6) (hcode : code < 256) : (s.tmxSelect sess out code).tmxCode out = code := by
  rw [tmxSelect_accepted h]
  refine (tmxCode_of_get hout ?_ ?_).trans (tmxPut_code (s := s) hout hcode)
  all_goals
    intro i hi
    rw [get_log_far hi (by decide), tmxShow_far hi (by decide), get_put_far hi (by decide)]

theorem tmxSelect_accepted_status : (s.tmxSelect sess out code).get TMX_CTRL.STATUS = 1 := by
  rw [tmxSelect_accepted h, get_log_far Nat.zero_lt_one (by decide), tmxShow_far Nat.zero_lt_one (by decide),
    get_put_here Nat.zero_lt_one (by decide)]
  rfl

theorem records_tmxSelect_accepted : Records s (s.tmxSelect sess out code) [(0x1301, 1, [out, code])] := by
  rw [tmxSelect_accepted h]
  unfold State.tmxShow
  exact records_tmxPut |>.put (by decide) |>.put (by decide) |>.put (by decide) |>.log (by decide)

end Accepted

section Refused

variable (h : s.tmxRefusal sess out code ≠ 0)
include h

theorem tmxSelect_refused : s.tmxSelect sess out code =
    (s.put TMX_CTRL.STATUS (s.tmxRefusal sess out code)).log 0x1302 WARNING [out, code, s.tmxRefusal sess out code] := by
  obtain ⟨n, hn⟩ := Nat.exists_eq_succ_of_ne_zero h
  rw [State.tmxSelect, hn]
  rfl

theorem tmxSelect_refused_code (hout : out < 6) : (s.tmxSelect sess out code).tmxCode out = s.tmxCode out := by
  rw [tmxSelect_refused h]
  refine tmxCode_of_get hout ?_ ?_
  all_goals
    intro i hi
    rw [get_log_far hi (by decide), get_put_far hi (by decide)]

theorem tmxSelect_refused_status : (s.tmxSelect sess out code).get TMX_CTRL.STATUS = s.tmxRefusal sess out code := by
  rw [tmxSelect_refused h, get_log_far Nat.zero_lt_one (by decide), get_put_here Nat.zero_lt_one (by decide)]
  exact Nat.mod_eq_of_lt tmxRefusal_lt

theorem records_tmxSelect_refused : Records s (s.tmxSelect sess out code) [(0x1302, 3, [out, code, s.tmxRefusal sess out code])] := by
  rw [tmxSelect_refused h]
  exact records_refl |>.put (by decide) |>.log (by decide)

end Refused

/-- Settles O30: each command's equation gives its next state; what the session table shows follows from the entry that is written or cleared. -/
theorem managementAccessResults : Obligations.ManagementAccessResults := by
  unfold Obligations.ManagementAccessResults
  refine ⟨?_, ?_, ?_, ?_, ?_, ?_, ?_, ?_, ?_, ?_, ?_, ?_, ?_, ?_, ?_, ?_, ?_, ?_, ?_⟩
  · intro s sess val mask hlevel hruns
    obtain ⟨t, hexec, hword, hout⟩ := exec_registerWrite_ntpServer (val := val) (mask := mask) hlevel hruns
    refine ⟨_, hexec, hword, ?_⟩
    simp [Outs, State.report, State.emit, hout]
  · intro s sess a val mask hlisted
    exact execRegisterWrite_addressError (.inr hlisted) s sess val mask
  · intro s sess a val mask halign hlisted hoff
    exact exec_registerWrite_offInRole halign hlisted hoff
  · intro s sess val mask hlevel hruns hmask
    exact exec_registerWrite_of_level hlevel hruns hmask
  · intro s ip port node bytes heth hnode hother hen hstate hlen hnone hroom hhold
    have hheld : (withRelay s ip port node).fab.hold = true := (congrArg Fab.hold withRelay_fab).trans hhold
    refine ⟨_, exec_gatewayRelay_new heth hnode hother hen hstate hlen hnone hroom, ?_, ?_, ?_, ?_⟩
    · rw [agentFrame_mg hheld]
      exact withRelay_relays
    · rw [get_of_regs (agentFrame_regs hheld), agentFrame_mg hheld]
      exact withRelay_shown hroom
    · rw [agentFrame_inject hheld, withRelay_fab]
    · rw [agentFrame_out hheld, withRelay_out]
  · intro s ip port node bytes heth hnode hother hen
    exact exec_gatewayRelay_disabled heth hnode hother hen
  · intro s ip port node bytes tag r heth hfound
    exact exec_gatewayRelay_answer heth hfound
  · intro s tag secs hruns hsecs
    refine ⟨_, exec_relayEntryExpiry hruns hsecs, congrArg Mg.relays sessShow_mg, sessShow_relays.trans ?_⟩
    rw [sessShow_mg]
  · intro s tag secs hsecs
    exact exec_relayEntryExpiry_of_early hsecs
  · intro s i gateway adm opr obs hi hruns hruns9 heth hstate hserves hgrants hnode hrtc
    have hlevel : s.chainLevel adm opr obs = some (3, SYS_MGMT_CFG.ADM_ANCHOR) := if_pos hgrants
    have hexec := exec_handshake (gateway := gateway) (o := ⟨true, []⟩) (adm := adm) (opr := opr) (obs := obs) hi hruns hruns9 heth hstate
      (kvReady_of_slotServes hserves)
    simp only [shakeCheck_nil, hserves, hlevel, sessOpen_of_rtc hrtc, Bool.not_true, Bool.false_eq_true, ite_false] at hexec
    have hget : ∀ f : Field, clearOf 8 f logParts = true →
        (far 8 SYS_MGMT_STAT.N_SESS f && far 8 SYS_MGMT_STAT.N_ADMIN f && far 8 SYS_MGMT_STAT.N_RELAY f) = true →
        ((opened s i 3 (s.get SYS_MGMT_CFG.ADM_ANCHOR) gateway).log 0x0020 INFO
          ([i, 3, if gateway.isSome then 1 else 0, 0] ++ leBytes 2 (gateway.getD 0))).get f i = (s.sessEntry i 2 3 gateway).get f i :=
      fun f hlog hfar => (get_log_far hi hlog).trans (opened_get hi hfar)
    have hopen := (hget SYS_SESS.STATE (by decide) (by decide)).trans (sessEntry_state hi (by decide))
    refine ⟨_, hexec, hopen, ?_, ?_, ?_, ?_, ?_, ?_, (records_opened.log (by decide)).logged⟩
    · rw [level_of_open hi hopen, hget _ (by decide) (by decide), sessEntry_level hi (by decide)]
    · rw [hget _ (by decide) (by decide), sessEntry_via hi]
    · rw [hget _ (by decide) (by decide), sessEntry_peer hi hnode]
    · rw [hget _ (by decide) (by decide), sessEntry_subscriptions hi]
    · rw [State.ses, log_mg]
      exact opened_ses
    · rw [openSessions_log, get_log_far Nat.zero_lt_one (by decide), opened, openSessions_sessShow, sessShow_sessions]
  · intro s i gateway bad adm opr obs hi hruns hruns9 heth hstate hready hnode
    have hopen : (s.sessEntry i 1 0 gateway).get SYS_SESS.STATE i = 1 := sessEntry_state hi (by decide)
    refine ⟨_, exec_handshake hi hruns hruns9 heth hstate hready, hopen, level_of_not_open ?_, ?_⟩
    · exact hopen.trans_ne (by decide)
    · simp [State.sessEntry, State.putb]
  · intro s i gateway adm opr obs hi hruns hruns9 heth hstate hserves hnone
    have hexec := exec_handshake (gateway := gateway) (o := ⟨true, []⟩) (adm := adm) (opr := opr) (obs := obs) hi hruns hruns9 heth hstate
      (kvReady_of_slotServes hserves)
    simp only [shakeCheck_nil, hserves, hnone, Bool.not_true, Bool.false_eq_true, ite_false] at hexec
    have hfree := shakeRefused_state (s := s) (reason := 1) hi
    refine ⟨_, hexec, level_of_not_open ?_, ?_, shakeRefused_count, records_shakeRefused.logged⟩
    all_goals
      rw [hfree]
      split <;> omega
  · intro s i gateway adm opr obs hi hruns hruns9 heth hstate hserves
    obtain ⟨hused, hgood⟩ : (s.slot 0).used = true ∧ (s.slot 0).bad = false := by
      simp only [State.slotServes, Bool.and_eq_true, Bool.not_eq_true'] at hserves
      exact ⟨hserves.1.1.1.2, hserves.1.1.2⟩
    have hbad : (s.slotBad 0).slotServes 0 0 = false := by simp [State.slotServes, slotBad_slot hused hgood]
    have hexec := exec_handshake (gateway := gateway) (o := ⟨true, [0]⟩) (adm := adm) (opr := opr) (obs := obs) hi hruns hruns9 heth hstate
      (kvReady_of_slotServes hserves)
    simp only [shakeCheck_first hused hgood, hbad, Bool.not_true, Bool.not_false, Bool.false_eq_true, ite_false, ite_true] at hexec
    refine ⟨_, hexec, level_of_not_open ?_, ?_, ((records_slotBad hused hgood).trans records_shakeRefused).logged⟩
    · rw [shakeRefused_state hi, slotBad_state hi]
      split <;> omega
    · rw [shakeRefused_slot, slotBad_slot hused hgood]
  · intro s i secs hi hruns hstate hsecs
    have harm : exec (.handshakeTimeout i secs) s = execHandshakeTimeout i secs s := rfl
    rw [execHandshakeTimeout, if_pos ⟨hi, hruns, hstate, hsecs⟩] at harm
    refine ⟨_, harm, ?_, shakeRefused_count, records_shakeRefused.logged⟩
    rw [shakeRefused_state hi, if_pos hstate]
  · intro s i secs hsecs
    have harm : exec (.handshakeTimeout i secs) s = execHandshakeTimeout i secs s := rfl
    rwa [execHandshakeTimeout, if_neg (by omega)] at harm
  · intro s i secs hlevel hadmin hruns hsecs
    obtain ⟨hi, hopen⟩ := open_of_level hlevel
    rw [level_of_open hi hopen] at hadmin
    have harm : exec (.sessionIdleClose i secs) s = execSessionIdleClose i secs s := rfl
    rw [execSessionIdleClose, if_pos ⟨hlevel, hruns, hsecs⟩, sessClose_of_not_admin hopen hadmin] at harm
    have hclosed : ((closed s i).log 0x0021 INFO [i, 2]).get SYS_SESS.STATE i = 0 := by
      rw [get_log_far hi (by decide), closed_state hi]
    refine ⟨_, harm, hclosed, level_of_not_open ?_, ?_, ?_, (records_closed.log (by decide)).logged⟩
    · exact hclosed.trans_ne (by decide)
    · rw [State.ses, log_mg]
      exact closed_ses
    · rw [openSessions_log, get_log_far Nat.zero_lt_one (by decide), closed, openSessions_sessShow, sessShow_sessions]
  · intro s i secs hsecs
    have harm : exec (.sessionIdleClose i secs) s = execSessionIdleClose i secs s := rfl
    rwa [execSessionIdleClose, if_neg (by omega)] at harm
  · intro s sess out code hout hruns hlevel hcode h
    exact ⟨_, exec_tmxSelect hout hruns hlevel hcode, tmxSelect_accepted_code h hout hcode, tmxSelect_accepted_status h,
      (records_tmxSelect_accepted h).logged⟩
  · intro s sess out code hout hruns hlevel hcode h
    exact ⟨_, exec_tmxSelect hout hruns hlevel hcode, tmxSelect_refused_code h hout, tmxSelect_refused_status h,
      (records_tmxSelect_refused h).logged⟩

end Sys2Proof.Proofs
end

section
/-! PROOFS. The zones of Thermal: what their registers show, what the allowance rests on, and the results of the zone commands. -/

namespace Sys2Proof.Proofs

open Sys2Proof.Machine Sys2Proof.Laws R

variable {s t : State} {z m k st v secs sess tw : Nat}

/-! ### Loops over nothing -/

theorem eachBit_zero {n : Nat} {g : Nat → State → State} : s.eachBit n 0 g = s := by
  refine List.foldlRecOn (motive := (· = s)) _ _ rfl ?_
  rintro _ rfl i -
  exact if_neg (by simp [bit])

theorem each_eq_self {n : Nat} {g : Nat → State → State} (h : ∀ i < n, g i s = s) : s.each n g = s := by
  refine List.foldlRecOn (motive := (· = s)) _ _ rfl ?_
  rintro _ rfl i hi
  exact h i (List.mem_range.mp hi)

/-! ### What an allowance rests on (R346) -/

/-- The fields that members, margins and allowances read, each with the number of its instances. -/
def thermInputs : List (Nat × Field) :=
  [(48, TH_TS_STAT.STATE), (8, TH_ZONE_SNS0.SNS), (8, TH_ZONE_SNS1.SNS), (8, TH_ZONE_SNS1.CM), (2, TH_CM_CFG.EN), (48, TH_TS_VAL.REP),
   (2, TH_CM_VAL.T), (48, TH_TS_LIM.THR), (48, TH_TS_LIM.SHUT), (2, TH_CM_LIM.THR), (2, TH_CM_LIM.SHUT), (8, TH_ZONE_I.I_TOP), (8, TH_ZONE_I.I_BOT)]

/-- Two states agree on what the allowances rest on. -/
def SameTherm (s t : State) : Prop := (∀ p ∈ thermInputs, ∀ i < p.1, t.get p.2 i = s.get p.2 i) ∧ t.cm = s.cm

theorem SameTherm.get (h : SameTherm s t) {n i : Nat} {f : Field} (hi : i < n) (hf : (n, f) ∈ thermInputs) : t.get f i = s.get f i :=
  h.1 (n, f) hf i hi

/-- A field shares no bit with what the allowances rest on. -/
def thermFar (f : Field) : Bool := thermInputs.all fun p => far p.1 f p.2

theorem SameTherm.put {f : Field} {i j : Nat} (h : SameTherm s t) (hf : thermFar f = true) : SameTherm s (t.put f v i j) := by
  refine ⟨fun p hp k hk => ?_, (put_cm ..).trans h.2⟩
  rw [get_put_far hk (List.all_eq_true.mp hf p hp)]
  exact h.1 p hp k hk

theorem sameTherm_refl : SameTherm s s := ⟨fun _ _ _ _ => rfl, rfl⟩

/-- A member is a sensor, or a cable model by its number of R351. -/
theorem member_cases (hm : m ∈ s.members z) : m < 48 ∨ ∃ k < 2, m = 0x40 + k := by
  simp only [State.members, List.mem_append, List.mem_filter, List.mem_map, List.mem_range] at hm
  rcases hm with ⟨hm, -⟩ | ⟨k, ⟨hk, -⟩, rfl⟩
  · exact .inl hm
  · exact .inr ⟨k, hk, rfl⟩

section Same

variable (h : SameTherm s t)
include h

theorem SameTherm.members (hz : z < 8) : t.members z = s.members z := by
  unfold State.members State.tst State.is
  rw [h.get hz (by decide), h.get hz (by decide), h.get hz (by decide)]
  dsimp only
  refine congrArg₂ (· ++ ·) (List.filter_congr fun n hn => ?_) (congrArg (List.map _) (List.filter_congr fun k hk => ?_))
  · rw [h.get (List.mem_range.mp hn) (by decide)]
  · rw [h.get (List.mem_range.mp hk) (by decide)]

theorem SameTherm.memVal (hm : m < 48 ∨ ∃ k < 2, m = 0x40 + k) : t.memVal m = s.memVal m := by
  unfold State.memVal State.geti
  rcases hm with hm | ⟨k, hk, rfl⟩
  · rw [if_pos hm, if_pos hm, h.get hm (by decide)]
  · rw [if_neg (by omega), if_neg (by omega), Nat.add_sub_cancel_left, h.get hk (by decide)]

theorem SameTherm.memThr (hm : m < 48 ∨ ∃ k < 2, m = 0x40 + k) : t.memThr m = s.memThr m := by
  unfold State.memThr State.geti
  rcases hm with hm | ⟨k, hk, rfl⟩
  · rw [if_pos hm, if_pos hm, h.get hm (by decide)]
  · rw [if_neg (by omega), if_neg (by omega), Nat.add_sub_cancel_left, h.get hk (by decide)]

theorem SameTherm.memShut (hm : m < 48 ∨ ∃ k < 2, m = 0x40 + k) : t.memShut m = s.memShut m := by
  unfold State.memShut State.geti
  rcases hm with hm | ⟨k, hk, rfl⟩
  · rw [if_pos hm, if_pos hm, h.get hm (by decide)]
  · rw [if_neg (by omega), if_neg (by omega), Nat.add_sub_cancel_left, h.get hk (by decide)]

theorem SameTherm.memFine (hm : m < 48 ∨ ∃ k < 2, m = 0x40 + k) : t.memFine m = s.memFine m := by
  unfold State.memFine
  rw [h.memVal hm, h.2]

theorem SameTherm.margin (hz : z < 8) : t.margin z = s.margin z := by
  unfold State.margin
  rw [h.members hz]
  refine List.foldl_ext _ _ _ fun b m hm => ?_
  have hcases := member_cases hm
  rw [h.memFine hcases, h.memThr hcases, h.memShut hcases]

theorem SameTherm.allowance (hz : z < 8) : t.allowance z = s.allowance z := by
  unfold State.allowance
  rw [h.margin hz, h.get hz (by decide), h.get hz (by decide)]

end Same

/-! ### A zone in a state of R347 -/

theorem zoneState_far {f : Field} {i : Nat} (hi : i < f.n1) (hj : 0 < f.n2) (haway : touchZoneState anyPart z = touchZoneState (awayFrom f) z) :
    (s.zoneState z st).get f i = s.get f i :=
  get_of_law (fun h => zoneState_keeps h (Keeps.refl _ s)) (touchZoneState_all anyPart_all) hi hj haway

theorem thermOut_far {f : Field} {i : Nat} (hi : i < f.n1) (hj : 0 < f.n2) (haway : touchThermOut anyPart = touchThermOut (awayFrom f)) :
    s.thermOut.get f i = s.get f i :=
  get_of_law (fun h => thermOut_keeps h (Keeps.refl _ s)) (touchThermOut_all anyPart_all) hi hj haway

theorem records_zoneState : Records s (s.zoneState z st) [] :=
  records_of_law (fun h => zoneState_keeps h (Keeps.refl _ s)) (touchZoneState_all anyPart_all) rfl

section Zone

variable (hz : z < 8)
include hz

theorem zoneState_state (hst : st < 4) : (s.zoneState z st).get TH_ZONE_STAT.STATE z = st := by
  rw [State.zoneState, thermOut_far hz (by decide) rfl, State.zoneShow, State.putSat, State.puti, State.putMax, get_put_far hz (by decide),
    get_put_far hz (by decide), get_put_far hz (by decide), get_put_here hz (by decide)]
  exact Nat.mod_eq_of_lt hst

/-- The allowance that a zone shows in a state. -/
theorem zoneState_allow (hst : st < 4) : (s.zoneState z st).get TH_ZONE_ALLOW.ALLOW z =
    min (if st = 0 then 0xFFFF else if st = 3 then 0 else s.allowance z) 0xFFFF := by
  have hstate : (s.put TH_ZONE_STAT.STATE st z).get TH_ZONE_STAT.STATE z = st := by
    rw [get_put_here hz (by decide)]
    exact Nat.mod_eq_of_lt hst
  have hsame : SameTherm s (s.put TH_ZONE_STAT.STATE st z) := sameTherm_refl.put (by decide)
  rw [State.zoneState, thermOut_far hz (by decide) rfl, State.zoneShow, State.putMax, get_put_here hz (by decide), hstate, hsame.allowance hz]
  exact Nat.mod_eq_of_lt ((Nat.min_le_right ..).trans_lt (by decide))

end Zone

theorem zoneOn_lt (h : s.zoneOn z = true) : z < 8 := by
  simp only [State.zoneOn, Bool.and_eq_true, decide_eq_true_eq] at h
  exact h.1.2

/-! ### Asks and enforcement (R347) -/

/-- A zone asks. -/
def asked (s : State) (z : Nat) : State := (s.put TH_ZONE_STAT.GRACE_LEFT (clampN 1 100 (s.get TH_CTRL.GRACE)) z).zoneState z 1

theorem exec_zoneAsk (hon : s.zoneOn z = true) (hstate : s.get TH_ZONE_STAT.STATE z = 0) (hm : (s.members z).contains m = true) (hk : s.deb ≤ k)
    (hreach : s.reaches m (s.memThr m) = true) (hcold : s.zoneHot z = false) : exec (.zoneAsk z m k) s =
      .next ((asked s z).log 0x0B06 WARNING ([z, 0] ++ leBytes 2 ((asked s z).get TH_ZONE_ALLOW.ALLOW z))) := by
  have harm : exec (.zoneAsk z m k) s = execZoneAsk z m k s := rfl
  rw [harm, execZoneAsk, if_pos (by simp only [hon, hstate, hm, hk, hreach, hcold]; rfl)]
  rfl

theorem exec_zoneAsk_of_hot (hhot : s.zoneHot z = true) : exec (.zoneAsk z m k) s = .next s := by
  have harm : exec (.zoneAsk z m k) s = execZoneAsk z m k s := rfl
  rw [harm, execZoneAsk, if_neg (by simp [hhot])]

theorem clampN_le {lo hi n : Nat} (h : lo ≤ hi) : clampN lo hi n ≤ hi := by
  unfold clampN
  split_ifs <;> omega

theorem sameTherm_asked : SameTherm s (s.put TH_ZONE_STAT.GRACE_LEFT v z) := sameTherm_refl.put (by decide)

/-- Enforcement of a zone, before its event. -/
def enforced (s : State) (z : Nat) : State := ((s.put TH_ZONE_STAT.GRACE_LEFT 0 z).put TH_ZONE_STAT.ENF_SEEN 1 z).zoneState z 2

section Enforce

variable (hon : s.zoneOn z = true) (hstate : s.get TH_ZONE_STAT.STATE z = 1) (hcold : s.zoneHot z = false) (hstays : s.zoneLeft z = false)
include hon hstate hcold hstays

theorem exec_zoneEnforce (hgrace : clampN 1 100 (s.get TH_CTRL.GRACE) ≤ tw) (hconn : s.get TH_ZONE_CFG.CONN z = 0) : exec (.zoneEnforce z tw) s =
    .next ((enforced s z).log 0x0B07 WARNING ([z, 0] ++ leBytes 2 ((enforced s z).get TH_ZONE_ALLOW.ALLOW z))) := by
  have harm : exec (.zoneEnforce z tw) s = execZoneEnforce z tw s := rfl
  rw [harm, execZoneEnforce]
  simp only [hon, hstate, hcold, hstays, hconn, if_neg (Nat.not_lt.mpr hgrace)]
  rfl

theorem exec_zoneEnforce_of_grace (hgrace : tw < clampN 1 100 (s.get TH_CTRL.GRACE)) : exec (.zoneEnforce z tw) s =
    .next (s.put TH_ZONE_STAT.GRACE_LEFT (clampN 1 100 (s.get TH_CTRL.GRACE) - tw) z) := by
  have harm : exec (.zoneEnforce z tw) s = execZoneEnforce z tw s := rfl
  rw [harm, execZoneEnforce]
  simp only [hon, hstate, hcold, hstays, if_pos hgrace]
  rfl

end Enforce

theorem exec_zoneEnforce_of_other (h : s.zoneHot z = true ∨ s.zoneLeft z = true) : exec (.zoneEnforce z tw) s = .next s := by
  have harm : exec (.zoneEnforce z tw) s = execZoneEnforce z tw s := rfl
  rw [harm, execZoneEnforce, if_neg]
  rcases h with h | h <;> simp [h]

/-! ### Shutdowns (R350, R351) -/

/-- The allowance just before a shutdown. -/
def sdAllow (s : State) (z : Nat) : Nat := if s.get TH_ZONE_STAT.STATE z = 0 then s.get TH_ZONE_I.I_TOP z else s.get TH_ZONE_ALLOW.ALLOW z

/-- A zone in SHUTDOWN, before its event. -/
def shutDown (s : State) (z : Nat) : State := ((s.put TH_ZONE_STAT.GRACE_LEFT 0 z).put TH_ZONE_STAT.SHUT_SEEN 1 z).zoneState z 3

/-- A shutdown that no connector follows. -/
def shutLogged (s : State) (z cause : Nat) : State :=
  ((shutDown s z).log 0x0B09 TRIP [z, cause]).when (s.is TH_ZONE_CFG.LATCH z) fun t => t.put TH_ZONE_STAT.LATCHED 1 z

theorem zoneShut_alone {cause sensor : Nat} {x : Int} (hconn : s.get TH_ZONE_CFG.CONN z = 0) (hso : s.is TH_ZONE_CFG.SHUT_SO z = false) :
    s.zoneShut z cause sensor x = (shutLogged s z cause).sdWrite z cause sensor (s.is TH_ZONE_CFG.LATCH z) x (sdAllow s z)
      (s.get TH_ZONE_CFG.GRPS z) 0 := by
  rw [State.zoneShut]
  simp only [hconn, hso, eachBit_zero]
  rfl

theorem sdWrite_far {cause sensor a grps conn i : Nat} {latch : Bool} {x : Int} {f : Field} (hi : i < f.n1) (hj : 0 < f.n2)
    (haway : touchSdWrite anyPart = touchSdWrite (awayFrom f)) : (s.sdWrite z cause sensor latch x a grps conn).get f i = s.get f i :=
  get_of_law (fun h => sdWrite_keeps h (Keeps.refl _ s)) (touchSdWrite_all anyPart_all) hi hj haway

theorem records_sdWrite {cause sensor a grps conn : Nat} {latch : Bool} {x : Int} :
    Records s (s.sdWrite z cause sensor latch x a grps conn) [] :=
  records_of_law (fun h => sdWrite_keeps h (Keeps.refl _ s)) (touchSdWrite_all anyPart_all) rfl

theorem sdWrite_count {cause sensor a grps conn : Nat} {latch : Bool} {x : Int} : (s.sdWrite z cause sensor latch x a grps conn).get TH_SD_CNT.SD_CNT =
    min (s.get TH_SD_CNT.SD_CNT + 1) (2 ^ TH_SD_CNT.SD_CNT.w - 1) := by
  rw [State.sdWrite, get_put_far Nat.zero_lt_one (by decide), get_inc_same (by decide) (by decide) (by decide)]
  rfl

/-- The record written is the newest, and names the zone, the cause and the sensor. -/
theorem sdWrite_head {cause sensor a grps conn : Nat} {latch : Bool} {x : Int} (hz : z < 256) (hcause : cause < 256) :
    ((s.sdWrite z cause sensor latch x a grps conn).sd.head?.map fun r => (r.sensor, byteAt r.bytes 12, byteAt r.bytes 13)) =
      some (sensor, z, cause) := by
  have hzone : ∀ l : List Nat, byteAt (leBytes 8 s.keeper ++ leBytes 4 s.rtc ++ z :: cause :: l) 12 = z := fun _ => Nat.mod_eq_of_lt hz
  have hbyte : ∀ l : List Nat, byteAt (leBytes 8 s.keeper ++ leBytes 4 s.rtc ++ z :: cause :: l) 13 = cause := fun _ => Nat.mod_eq_of_lt hcause
  rw [State.sdWrite, put_sd, State.inc, put_sd]
  simp only [List.append_assoc] at hzone hbyte
  simp only [List.take_succ_cons, List.head?_cons, Option.map_some, List.append_assoc, List.cons_append, List.nil_append, hzone, hbyte]

theorem shutCause_lt : s.shutCause m < 256 := by
  unfold State.shutCause
  split <;> decide

theorem exec_zoneShutdown (hon : s.zoneOn z = true) (hstate : s.get TH_ZONE_STAT.STATE z < 3) (hm : (s.members z).contains m = true)
    (hk : s.deb ≤ k) (hreach : s.reaches m (s.memShut m) = true) :
    exec (.zoneShutdown z m k) s = .next (s.zoneShut z (s.shutCause m) m (s.memVal m)) := by
  have harm : exec (.zoneShutdown z m k) s = execZoneShutdown z m k s := rfl
  rw [harm, execZoneShutdown, if_pos (by simp only [hon, hm, hk, hreach]; rfl), if_pos (by omega)]

/-- What the event and the latch leave of a shutdown. -/
theorem shutLogged_far {cause n i : Nat} {f : Field} (hi : i < n) (hlog : clearOf n f logParts = true) (hlatch : far n TH_ZONE_STAT.LATCHED f = true) :
    (shutLogged s z cause).get f i = (shutDown s z).get f i := by
  unfold shutLogged State.when
  split
  · rw [get_put_far hi hlatch, get_log_far hi hlog]
  · rw [get_log_far hi hlog]

theorem records_shutLogged {cause : Nat} : Records s (shutLogged s z cause) [(0x0B09, 5, [z, cause])] := by
  have hshut : Records s (shutDown s z) [] :=
    (records_refl |>.put (f := TH_ZONE_STAT.GRACE_LEFT) (by decide) |>.put (f := TH_ZONE_STAT.SHUT_SEEN) (by decide)).trans records_zoneState
  unfold shutLogged State.when
  split
  · exact hshut |>.log (by decide) |>.put (by decide)
  · exact hshut |>.log (by decide)

/-! ### Releases (R347, R352) -/

/-- A zone is released, before its event. -/
def released (s : State) (z : Nat) : State := (s.put TH_ZONE_STAT.GRACE_LEFT 0 z).zoneState z 0

theorem exec_zoneRelease (hon : s.zoneOn z = true) (hstate : s.get TH_ZONE_STAT.STATE z = 1 ∨ s.get TH_ZONE_STAT.STATE z = 2) (hk : s.deb ≤ k)
    (hcool : s.zoneCool z = true) : exec (.zoneRelease z k) s = .next ((released s z).log 0x0B08 NOTICE [z]) := by
  have harm : exec (.zoneRelease z k) s = execZoneRelease z k s := rfl
  have hst : (s.get TH_ZONE_STAT.STATE z == 1 || s.get TH_ZONE_STAT.STATE z == 2) = true := by simpa using hstate
  rw [harm, execZoneRelease]
  simp only [hon, hst, hk, hcool]
  rfl

/-- A shutdown is released, before its event. -/
def shutReleased (s : State) (z : Nat) : State := (({ s with sd := sdRelease z s.rtc s.sd } : State).put TH_ZONE_STAT.LATCHED 0 z).zoneState z 0

theorem shutRelease_eq : s.shutRelease z = (shutReleased s z).log 0x0B0A NOTICE [z] := rfl

/-- Every part but the shutdown records. -/
def besideSd : Part → Prop
  | .sd => False
  | _ => True

theorem zoneState_sd : (s.zoneState z st).sd = s.sd := by
  have hnames : touchZoneState anyPart z = touchZoneState besideSd z := rfl
  exact (zoneState_keeps (hnames ▸ touchZoneState_all anyPart_all) (Keeps.refl _ s)).same.sd.resolve_left id

theorem shutReleased_sd : (shutReleased s z).sd = sdRelease z s.rtc s.sd := by
  rw [shutReleased, zoneState_sd, put_sd]

theorem shutCool_lt (h : s.shutCool z secs = true) : z < 8 := by
  simp only [State.shutCool, Bool.and_eq_true, decide_eq_true_eq] at h
  exact h.1.1.1.2

theorem exec_shutdownRelease (hcool : s.shutCool z secs = true) (hlatch : s.is TH_ZONE_CFG.LATCH z = false) :
    exec (.shutdownRelease z secs) s = .next (s.shutRelease z) := by
  have harm : exec (.shutdownRelease z secs) s = execShutdownRelease z secs s := rfl
  rw [harm, execShutdownRelease, if_pos (by simp [hcool, hlatch])]

theorem exec_zoneClr (hmay : s.writeStatus sess TH_ZONE_RST.CLR = 0) (hcool : s.shutCool z secs = true) :
    exec (.zoneClr sess z secs) s = .next (s.shutRelease z) := by
  have harm : exec (.zoneClr sess z secs) s = execZoneClr sess z secs s := rfl
  rw [harm, execZoneClr, guarded_of_writeStatus_zero _ hmay, if_pos hcool]

theorem exec_zoneClr_of_warm (hmay : s.writeStatus sess TH_ZONE_RST.CLR = 0) (hwarm : s.shutCool z secs = false) :
    exec (.zoneClr sess z secs) s = .next s := by
  have harm : exec (.zoneClr sess z secs) s = execZoneClr sess z secs s := rfl
  rw [harm, execZoneClr, guarded_of_writeStatus_zero _ hmay, if_neg (by simp [hwarm])]

/-- What a released shutdown shows. -/
theorem shutRelease_results (hz : z < 8) : (s.shutRelease z).get TH_ZONE_STAT.STATE z = 0 ∧ (s.shutRelease z).get TH_ZONE_STAT.LATCHED z = 0 ∧
    (s.shutRelease z).get TH_ZONE_ALLOW.ALLOW z = 0xFFFF ∧ (s.shutRelease z).sd = sdRelease z s.rtc s.sd ∧
    Logged s (s.shutRelease z) [(0x0B0A, 2, [z])] := by
  rw [shutRelease_eq]
  have hbefore : Records s ({ s with sd := sdRelease z s.rtc s.sd } : State) [] := records_refl.sameRegs rfl rfl
  refine ⟨?_, ?_, ?_, ?_, ((hbefore.put (f := TH_ZONE_STAT.LATCHED) (by decide)).trans records_zoneState |>.log (by decide)).logged⟩
  · rw [get_log_far hz (by decide), shutReleased, zoneState_state hz (by decide)]
  · rw [get_log_far hz (by decide), shutReleased, zoneState_far hz (by decide) rfl, get_put_here hz (by decide)]
    rfl
  · rw [get_log_far hz (by decide), shutReleased, zoneState_allow hz (by decide)]
    rfl
  · have hlog := (log_unchanged (shutReleased s z) 0x0B0A NOTICE [z]).sd.resolve_left (by simp [within, logParts])
    rw [hlog, shutReleased_sd]

/-! ### EN of a zone (R346) -/

theorem exec_zoneEnable (hz : z < 8) (hmay : s.writeStatus sess TH_ZONE_CFG.EN = 0) : exec (.zoneEnable sess z) s = .next (s.zoneEnable z) := by
  have harm : exec (.zoneEnable sess z) s = execZoneEnable sess z s := rfl
  rw [harm, execZoneEnable, if_neg (by omega), guarded_of_writeStatus_zero _ hmay]

theorem zoneShow_far {f : Field} {i : Nat} (hi : i < f.n1) (hj : 0 < f.n2) (haway : touchZoneShow anyPart z = touchZoneShow (awayFrom f) z) :
    (s.zoneShow z).get f i = s.get f i :=
  get_of_law (fun h => zoneShow_keeps h (Keeps.refl _ s)) (touchZoneShow_all anyPart_all) hi hj haway

end Sys2Proof.Proofs
end

section
/-! PROOFS. The restart of Thermal and the coolant circuits, and the results of Thermal's zone and circuit commands. -/

namespace Sys2Proof.Proofs

open Sys2Proof.Machine Sys2Proof.Laws R

variable {s t : State} {z k n secs ms f v : Nat}

/-! ### The restart (R353) -/

theorem zonesIn_lt {st : Nat} : s.zonesIn st < 2 ^ 8 := by
  refine List.foldlRecOn (motive := (· < 2 ^ 8)) _ _ (by decide) fun a ha z hz => ?_
  have hz' : z < 8 := List.mem_range.mp hz
  split
  · exact Nat.or_lt_two_pow ha (Nat.pow_lt_pow_right (by decide) hz')
  · exact ha

theorem thermWrite_enforced : s.thermWrite.get TH_STAT.ZONE_ENF = s.zonesIn 2 := by
  rw [State.thermWrite, get_put_far Nat.zero_lt_one (by decide), get_put_here Nat.zero_lt_one (by decide)]
  exact Nat.mod_eq_of_lt zonesIn_lt

theorem thermWrite_shut : s.thermWrite.get TH_STAT.ZONE_SHUT = s.zonesIn 3 := by
  rw [State.thermWrite, get_put_here Nat.zero_lt_one (by decide)]
  exact Nat.mod_eq_of_lt zonesIn_lt

theorem thermWrite_far {g : Field} {i : Nat} (hi : i < g.n1) (hj : 0 < g.n2) (haway : touchThermWrite anyPart = touchThermWrite (awayFrom g)) :
    s.thermWrite.get g i = s.get g i :=
  get_of_law (fun h => thermWrite_keeps h (Keeps.refl _ s)) (touchThermWrite_all anyPart_all) hi hj haway

/-- Every part but what the module does not lose. -/
def besideBoot : Part → Prop
  | .boot => False
  | _ => True

theorem thermWrite_boot : s.thermWrite.boot = s.boot := by
  have hnames : touchThermWrite anyPart = touchThermWrite besideBoot := rfl
  exact (thermWrite_keeps (hnames ▸ touchThermWrite_all anyPart_all) (Keeps.refl _ s)).same.boot.resolve_left id

theorem setReady_far {g : Field} {i j : Nat} (hi : i < g.n1) (hj : 0 < g.n2) (haway : touchSetReady anyPart = touchSetReady (awayFrom g)) :
    (s.setReady j).get g i = s.get g i :=
  get_of_law (fun h => setReady_keeps h (Keeps.refl _ s)) (touchSetReady_all anyPart_all) hi hj haway

/-- Thermal's ready bit is set where nothing blocks it. -/
theorem setReady_thermal (hblock : bit s.boot.block 9 = false) (hclear : bit (s.get SYS_READY.RDY) 9 = false) :
    bit ((s.setReady 9).get SYS_READY.RDY) 9 = true := by
  have hkeep : (s.setReady 9).get SYS_READY.RDY = (s.put SYS_READY.RDY (setBit (s.get SYS_READY.RDY) 9)).get SYS_READY.RDY := by
    rw [State.setReady, if_neg (by simp [hblock, hclear])]
    refine get_of_law (names := fun A => (∀ u, touchMinsecRaise A u) ∧ touchStepShow A) (fun h => ?_)
      ⟨fun _ => touchMinsecRaise_all anyPart_all, touchStepShow_all anyPart_all⟩ (by decide) (by decide) rfl
    refine stepShow_keeps h.2 (each_keeps (fun u t ht => ?_) (Keeps.refl _ _))
    split
    · exact minsecRaise_keeps (h.1 u) ht
    · exact ht
  have hw : SYS_READY.RDY.w = 14 := rfl
  rw [hkeep, get_put_here Nat.zero_lt_one (by decide), hw, bit, setBit, Nat.testBit_mod_two_pow, Nat.testBit_or, Nat.testBit_two_pow_self]
  simp

/-- Every sensor shows whether it is sampled fast. -/
def snowAll (s : State) : State := s.each 48 fun n t => if t.tst n = 0 then t else t.putb TH_TS_STAT.SNOW (t.fastSampled n) n

theorem snowAll_far {g : Field} {i : Nat} (hi : i < g.n1) (hj : 0 < g.n2) (haway : apart TH_TS_STAT.SNOW g = true) :
    (snowAll s).get g i = s.get g i := by
  refine get_of_law (names := fun A => A (.reg TH_TS_STAT.SNOW)) (fun h => each_keeps (fun n t ht => ?_) (Keeps.refl _ s)) trivial hi hj ?_
  · split
    · exact ht
    · exact put_keeps h ht
  · exact (if_pos haway).symm

theorem exec_thermalRestart (hruns : s.runs 10 = true) (hms : 100 ≤ ms) (hclear : bit (s.get SYS_READY.RDY) 9 = false)
    (hnone : ((List.range 8).all fun z => !s.is TH_ZONE_CFG.EN z) = true) :
    exec (.thermalRestart ms) s = .next (snowAll (s.thermWrite.setReady 9)) := by
  have harm : exec (.thermalRestart ms) s = execThermalRestart ms s := rfl
  rw [harm, execThermalRestart, if_pos (by simp [hruns, hms, hclear])]
  dsimp only
  rw [each_eq_self (n := 8)]
  · rfl
  · intro z hz
    have hoff : s.is TH_ZONE_CFG.EN z = false := by simpa using List.all_eq_true.mp hnone z (List.mem_range.mpr hz)
    exact if_neg (by simp [hoff])

/-! ### A channel that its owner switches (R387, R392) -/

theorem lswState_state {st : Nat} (hn : n < 16) (hst : st < 8) : (s.lswState n st).get LSW_CH_STAT.STATE n = st := by
  have hput : (s.lswState n st).get LSW_CH_STAT.STATE n = (s.put LSW_CH_STAT.STATE st n).get LSW_CH_STAT.STATE n := by
    unfold State.lswState State.when
    extract_lets upd s1 s2 s3 fr s4
    have hs3 : s3.get LSW_CH_STAT.STATE n = s1.get LSW_CH_STAT.STATE n := by
      rw [get_put_far hn (by decide), get_put_far hn (by decide)]
    have hs4 : s4.get LSW_CH_STAT.STATE n = s1.get LSW_CH_STAT.STATE n := by
      unfold s4
      split
      · rw [get_put_far hn (by decide), get_put_far hn (by decide), hs3]
      · rw [get_put_far hn (by decide), hs3]
    change (if _ then _ else _ : State).get LSW_CH_STAT.STATE n = _
    split
    · rw [get_put_far hn (by decide), hs4]
    · exact hs4
  rw [hput, get_put_here hn (by decide)]
  exact Nat.mod_eq_of_lt hst

theorem lswState_far {st i : Nat} {g : Field} (hi : i < g.n1) (hj : 0 < g.n2) (haway : touchLswState anyPart n = touchLswState (awayFrom g) n) :
    (s.lswState n st).get g i = s.get g i :=
  get_of_law (fun h => lswState_keeps h (Keeps.refl _ s)) (touchLswState_all anyPart_all) hi hj haway

theorem lswCommand_on (hruns : s.lswRuns = true) (hsafe : s.get SAF_STAT.ACTIVE = 0) (hstate : s.get LSW_CH_STAT.STATE n = 0)
    (hcool : bit s.lsw.hot n = false) (hbank : s.bankUnder (bankOf n) = false) :
    s.lswCommand n true = (s.put LSW_CH_CTRL.ON 1 n).lswState n 1 := by
  have hbank' : (s.put LSW_CH_CTRL.ON 1 n).bankUnder (bankOf n) = false := by
    rw [← hbank, State.bankUnder, State.bankUnder, State.bankLow, State.bankLow, put_lsw, get_put_far Nat.zero_lt_one (by decide),
      get_put_far Nat.zero_lt_one (by decide)]
  simp only [State.lswRuns, State.lswLogic, Bool.and_eq_true, Bool.not_eq_true'] at hruns
  obtain ⟨⟨hdomain, hrole⟩, hthaw⟩ := hruns
  have hsafe' : s.is SAF_STAT.ACTIVE = false := by simp [State.is, hsafe]
  simp [State.lswCommand, State.lswEnter, hstate, hdomain, hrole, hthaw, hsafe', hcool, hbank']

theorem lswCommand_off (hruns : s.runs 10 = true) (hthaw : s.get SAF_STAT.FRZ = 0) (hstate : s.get LSW_CH_STAT.STATE n ≠ 4) :
    s.lswCommand n false = (s.put LSW_CH_CTRL.ON 0 n).lswState n 0 := by
  simp [State.lswCommand, hstate, hruns, State.is, hthaw]

/-- What the owner's switching leaves of a channel. -/
theorem switched_on (hn : n < 16) : ((s.put LSW_CH_CTRL.ON 1 n).lswState n 1).get LSW_CH_CTRL.ON n = 1 := by
  rw [lswState_far hn (by decide) rfl, get_put_here hn (by decide)]
  rfl

theorem switched_off (hn : n < 16) : ((s.put LSW_CH_CTRL.ON 0 n).lswState n 0).get LSW_CH_CTRL.ON n = 0 := by
  rw [lswState_far hn (by decide) rfl, get_put_here hn (by decide)]
  rfl

theorem ownerOf_thermal (hnames : s.thNames n = true) (h : s.ownerOf n ≠ 0) : s.ownerOf n = 1 := by
  unfold State.ownerOf at h ⊢
  split at h
  · exact absurd rfl h
  · rw [if_neg ‹_›, if_pos hnames]

section Circuit

variable (hon : s.circuitOn k = true)
include hon

theorem circuitOn_lt : k < 2 := by
  simp only [State.circuitOn, Bool.and_eq_true, decide_eq_true_eq] at hon
  exact hon.1.2

theorem circuitOn_enabled : s.is TH_CC_CFG.EN k = true := by
  simp only [State.circuitOn, Bool.and_eq_true] at hon
  exact hon.2

theorem thNames_pump : s.thNames (s.get TH_CC_CFG.PUMP_LS k) = true :=
  List.any_eq_true.mpr ⟨k, List.mem_range.mpr (circuitOn_lt hon), by simp [circuitOn_enabled hon]⟩

theorem thNames_heater : s.thNames (s.get TH_CC_CFG.HEAT_LS k) = true :=
  List.any_eq_true.mpr ⟨k, List.mem_range.mpr (circuitOn_lt hon), by simp [circuitOn_enabled hon]⟩

/-- A circuit without a valve channel switches its pump. -/
theorem circuitSwitch_pump {on : Bool} (hpump : s.get TH_CC_CFG.PUMP_LS k < 16) (hown : s.ownerOf (s.get TH_CC_CFG.PUMP_LS k) ≠ 0)
    (hvalve : 16 ≤ s.get TH_CC_CFG.VALVE_LS k) :
    s.circuitSwitch k on = (s.lswCommand (s.get TH_CC_CFG.PUMP_LS k) on).putb TH_CC_STAT.RUN on k := by
  have howner := ownerOf_thermal (thNames_pump hon) hown
  rw [State.circuitSwitch]
  dsimp only
  rw [if_neg fun h => absurd h.1 (by omega), if_pos ⟨hpump, howner⟩]

theorem heatSwitch_heater {on : Bool} (hheat : s.get TH_CC_CFG.HEAT_LS k < 16) (hown : s.ownerOf (s.get TH_CC_CFG.HEAT_LS k) ≠ 0) :
    s.heatSwitch k on = (s.lswCommand (s.get TH_CC_CFG.HEAT_LS k) on).putb TH_CC_STAT.HEAT on k :=
  if_pos ⟨hheat, ownerOf_thermal (thNames_heater hon) hown⟩

end Circuit

theorem heatFlow_of_free (h : s.is TH_CC_CFG.HEAT_FLOW k = false) : s.heatFlow k = s := if_neg (by simp [h])

/-! ### The commands of the circuits (R354 to R357) -/

theorem exec_circuitRun (hon : s.circuitOn k = true) (hwanted : s.circuitWanted k = true) :
    exec (.circuitRun k) s = .next (s.circuitSwitch k true) := by
  have harm : exec (.circuitRun k) s = execCircuitRun k s := rfl
  rw [harm, execCircuitRun, if_pos (by simp [hon, hwanted])]

theorem exec_circuitStop (hon : s.circuitOn k = true) (hwanted : s.circuitWanted k = false) (hsecs : 10 * s.get TH_CC_FLOW.AFTER_T k ≤ secs) :
    exec (.circuitStop k secs) s = .next ((s.circuitSwitch k false).heatFlow k) := by
  have harm : exec (.circuitStop k secs) s = execCircuitStop k secs s := rfl
  rw [harm, execCircuitStop, if_pos (by simp [hon, hwanted, hsecs])]

theorem exec_flowTimeout (hruns : s.runs 10 = true) (hf : f < 4) (hms : 100 * s.get TH_FLOW_CFG.TMO f ≤ ms) :
    exec (.flowTimeout f ms) s = .next ((s.put TH_FLOW_VAL.FLOW 0 f).put TH_FLOW_VAL.VALID 0 f) := by
  have harm : exec (.flowTimeout f ms) s = execFlowTimeout f ms s := rfl
  rw [harm, execFlowTimeout, if_pos (by simp [hruns, hf, hms])]

/-- A flow fault that shuts nothing down. -/
def flowFaulted (s : State) (k : Nat) : State := ((s.put TH_CC_STAT.FLOW_FLT 1 k).put TH_CC_STAT.FLOW_SEEN 1 k).log 0x0B0B FAULT [k]

theorem exec_flowFault {run low : Nat} (hon : s.circuitOn k = true) (hrun : s.get TH_CC_STAT.RUN k = 1) (hgood : s.get TH_CC_STAT.FLOW_FLT k = 0)
    (hlow : s.flowLow k = true) (hlong : s.get TH_CC_FLOW.FLOW_T k < run) (hlasts : s.get TH_CC_FLOW.FLOW_T k ≤ low)
    (hact : s.is TH_CC_CFG.FLOW_ACT k = false) (hfree : s.is TH_CC_CFG.HEAT_FLOW k = false) :
    exec (.flowFault k run low) s = .next (flowFaulted s k) := by
  have harm : exec (.flowFault k run low) s = execFlowFault k run low s := rfl
  have hk := circuitOn_lt hon
  have hfree' : (flowFaulted s k).is TH_CC_CFG.HEAT_FLOW k = false := by
    rw [State.is, flowFaulted, get_log_far hk (by decide), get_put_far hk (by decide), get_put_far hk (by decide)]
    exact hfree
  have htest : (s.circuitOn k && s.is TH_CC_STAT.RUN k && !s.is TH_CC_STAT.FLOW_FLT k && s.flowLow k &&
      decide (s.get TH_CC_FLOW.FLOW_T k < run) && decide (s.get TH_CC_FLOW.FLOW_T k ≤ low)) = true := by
    simp [hon, State.is, hrun, hgood, hlow, hlong, hlasts]
  rw [harm, execFlowFault]
  simp only [if_pos htest, hact, Bool.false_and, Bool.false_eq_true, if_false]
  exact congrArg _ (heatFlow_of_free hfree')

theorem exec_flowRecovered (hon : s.circuitOn k = true) (hfault : s.get TH_CC_STAT.FLOW_FLT k = 1) (hflow : s.flowLow k = false) (hsecs : 10 ≤ secs) :
    exec (.flowRecovered k secs) s = .next ((s.put TH_CC_STAT.FLOW_FLT 0 k).log 0x0B0C INFO [k]) := by
  have harm : exec (.flowRecovered k secs) s = execFlowRecovered k secs s := rfl
  rw [harm, execFlowRecovered, if_pos (by simp [hon, State.is, hfault, hflow, hsecs])]

theorem exec_heaterOn (hon : s.circuitOn k = true) (hcold : s.tIn k < 10 * s.geti TH_CC_HEAT.HEAT_ON k)
    (hfree : s.is TH_CC_CFG.HEAT_FLOW k = false) : exec (.heaterOn k) s = .next (s.heatSwitch k true) := by
  have harm : exec (.heaterOn k) s = execHeaterOn k s := rfl
  rw [harm, execHeaterOn, if_pos (by simp [hon, hcold, hfree])]

theorem exec_heaterOff (hon : s.circuitOn k = true) (hwarm : 10 * s.geti TH_CC_HEAT.HEAT_OFF k ≤ s.tIn k) :
    exec (.heaterOff k) s = .next (s.heatSwitch k false) := by
  have harm : exec (.heaterOff k) s = execHeaterOff k s := rfl
  have hk := circuitOn_lt hon
  rw [harm, execHeaterOff, if_neg (by omega), if_neg (by simp [hon]), if_pos hwarm]

/-! ### The obligation -/

/-- Settles O19: each command's equation gives its next state; what a zone and a channel show follows from the operations that put them into a state. -/
theorem thermalZoneResults : Obligations.ThermalZoneResults := by
  unfold Obligations.ThermalZoneResults
  refine ⟨?_, ?_, ?_, ?_, ?_, ?_, ?_, ?_, ?_, ?_, ?_, ?_, ?_, ?_, ?_, ?_, ?_, ?_, ?_, ?_⟩
  · intro s z m k hon hstate hm hk hreach hcold
    have hz := zoneOn_lt hon
    have hgrace : clampN 1 100 (s.get TH_CTRL.GRACE) < 2 ^ 7 := (clampN_le (by decide)).trans_lt (by decide)
    have hallow : (asked s z).get TH_ZONE_ALLOW.ALLOW z = min (s.allowance z) 0xFFFF := by
      rw [asked, zoneState_allow hz (by decide), (sameTherm_refl.put (by decide)).allowance hz]
      rfl
    have hrecords : Records s (asked s z) [] := (records_refl.put (f := TH_ZONE_STAT.GRACE_LEFT) (by decide)).trans records_zoneState
    refine ⟨_, exec_zoneAsk hon hstate hm hk hreach hcold, ?_, ?_, ?_, ?_⟩
    · rw [get_log_far hz (by decide), asked, zoneState_state hz (by decide)]
    · rw [get_log_far hz (by decide), asked, zoneState_far hz (by decide) rfl, get_put_here hz (by decide)]
      exact Nat.mod_eq_of_lt hgrace
    · rw [get_log_far hz (by decide), hallow]
    · rw [get_log_far hz (by decide)]
      exact (hrecords.log (by decide)).logged
  · intro s z m k hhot
    exact exec_zoneAsk_of_hot hhot
  · intro s z tw hon hstate hcold hstays hgrace hconn
    have hz := zoneOn_lt hon
    have hallow : (enforced s z).get TH_ZONE_ALLOW.ALLOW z = min (s.allowance z) 0xFFFF := by
      rw [enforced, zoneState_allow hz (by decide), ((sameTherm_refl.put (by decide)).put (by decide)).allowance hz]
      rfl
    have hrecords : Records s (enforced s z) [] :=
      (records_refl |>.put (f := TH_ZONE_STAT.GRACE_LEFT) (by decide) |>.put (f := TH_ZONE_STAT.ENF_SEEN) (by decide)).trans records_zoneState
    refine ⟨_, exec_zoneEnforce hon hstate hcold hstays hgrace hconn, ?_, ?_, ?_, ?_, ?_⟩
    · rw [get_log_far hz (by decide), enforced, zoneState_state hz (by decide)]
    · rw [get_log_far hz (by decide), enforced, zoneState_far hz (by decide) rfl, get_put_far hz (by decide), get_put_here hz (by decide)]
      rfl
    · rw [get_log_far hz (by decide), enforced, zoneState_far hz (by decide) rfl, get_put_here hz (by decide)]
      rfl
    · rw [get_log_far hz (by decide), hallow]
    · rw [get_log_far hz (by decide)]
      exact (hrecords.log (by decide)).logged
  · intro s z tw hon hstate hcold hstays hgrace
    exact exec_zoneEnforce_of_grace hon hstate hcold hstays hgrace
  · intro s z tw h
    exact exec_zoneEnforce_of_other h
  · intro s z m k hon hstate hm hk hreach hso hconn
    have hz := zoneOn_lt hon
    have hexec := exec_zoneShutdown hon hstate hm hk hreach
    rw [zoneShut_alone hconn hso] at hexec
    refine ⟨_, hexec, ?_, ?_, ?_, ?_, ?_, sdWrite_head (by omega) shutCause_lt, (records_shutLogged.trans records_sdWrite).logged⟩
    · rw [sdWrite_far hz (by decide) rfl, shutLogged_far hz (by decide) (by decide), shutDown, zoneState_state hz (by decide)]
    · rw [sdWrite_far hz (by decide) rfl, shutLogged_far hz (by decide) (by decide), shutDown, zoneState_far hz (by decide) rfl,
        get_put_here hz (by decide)]
      rfl
    · rw [sdWrite_far hz (by decide) rfl, shutLogged_far hz (by decide) (by decide), shutDown, zoneState_allow hz (by decide)]
      rfl
    · intro hlatch
      rw [sdWrite_far hz (by decide) rfl, shutLogged, hlatch, State.when, if_pos rfl, get_put_here hz (by decide)]
      rfl
    · rw [sdWrite_count, shutLogged_far Nat.zero_lt_one (by decide) (by decide), shutDown, zoneState_far (by decide) (by decide) rfl,
        get_put_far Nat.zero_lt_one (by decide), get_put_far Nat.zero_lt_one (by decide)]
  · intro s z k hon hstate hk hcool
    have hz := zoneOn_lt hon
    have hrecords : Records s (released s z) [] := (records_refl.put (f := TH_ZONE_STAT.GRACE_LEFT) (by decide)).trans records_zoneState
    refine ⟨_, exec_zoneRelease hon hstate hk hcool, ?_, ?_, ?_, (hrecords.log (by decide)).logged⟩
    · rw [get_log_far hz (by decide), released, zoneState_state hz (by decide)]
    · rw [get_log_far hz (by decide), released, zoneState_far hz (by decide) rfl, get_put_here hz (by decide)]
      rfl
    · rw [get_log_far hz (by decide), released, zoneState_allow hz (by decide)]
      rfl
  · intro s z secs hcool hlatch
    exact ⟨_, exec_shutdownRelease hcool hlatch, shutRelease_results (shutCool_lt hcool)⟩
  · intro s sess z secs hmay hcool
    exact ⟨_, exec_zoneClr hmay hcool, shutRelease_results (shutCool_lt hcool)⟩
  · intro s sess z secs hmay hwarm
    exact exec_zoneClr_of_warm hmay hwarm
  · intro s sess z hz hmay hok
    have hexec := exec_zoneEnable hz hmay
    rw [State.zoneEnable, if_pos hok] at hexec
    refine ⟨_, hexec, ?_, ?_, ?_⟩
    · rw [zoneShow_far hz (by decide) rfl, get_put_far hz (by decide), get_put_here hz (by decide)]
      rfl
    · rw [zoneShow_far hz (by decide) rfl, get_put_here hz (by decide)]
      rfl
    · rw [zoneShow_far hz (by decide) rfl, get_put_far hz (by decide), get_put_far hz (by decide)]
  · intro s sess z hz hmay hbad
    have hexec := exec_zoneEnable hz hmay
    rwa [State.zoneEnable, if_neg (by simp [hbad])] at hexec
  · intro s ms hruns hms hclear hblock hnone
    refine ⟨_, exec_thermalRestart hruns hms hclear hnone, ?_, ?_, ?_⟩
    · rw [snowAll_far (by decide) (by decide) (by decide)]
      refine setReady_thermal ?_ ?_
      · rwa [thermWrite_boot]
      · rwa [thermWrite_far (by decide) (by decide) rfl]
    · rw [snowAll_far (by decide) (by decide) (by decide), setReady_far (by decide) (by decide) rfl, thermWrite_enforced]
      rfl
    · rw [snowAll_far (by decide) (by decide) (by decide), setReady_far (by decide) (by decide) rfl, thermWrite_shut]
      rfl
  · intro s k hon hwanted hruns hpump hown hvalve hsafe hstate hcool hbank
    have hk := circuitOn_lt hon
    have hexec := exec_circuitRun hon hwanted
    rw [circuitSwitch_pump hon hpump hown hvalve, lswCommand_on hruns hsafe hstate hcool hbank, State.putb] at hexec
    refine ⟨_, hexec, ?_, ?_, ?_⟩
    · rw [get_put_here hk (by decide)]
      rfl
    · rw [get_put_far hpump (by decide), switched_on hpump]
    · rw [get_put_far hpump (by decide), lswState_state hpump (by decide)]
  · intro s k secs hon hwanted hsecs hruns hthaw hpump hown hvalve hfree hstate
    have hk := circuitOn_lt hon
    have hexec := exec_circuitStop hon hwanted hsecs
    rw [circuitSwitch_pump hon hpump hown hvalve, lswCommand_off hruns hthaw hstate, State.putb, heatFlow_of_free] at hexec
    · refine ⟨_, hexec, ?_, ?_, ?_⟩
      · rw [get_put_here hk (by decide)]
        rfl
      · rw [get_put_far hpump (by decide), switched_off hpump]
      · rw [get_put_far hpump (by decide), lswState_state hpump (by decide)]
    · rw [State.is, get_put_far hk (by decide), lswState_far hk (by decide) rfl, get_put_far hk (by decide)]
      exact hfree
  · intro s f ms hruns hf hms
    exact exec_flowTimeout hruns hf hms
  · intro s k run low hon hrun hgood hlow hlong hlasts hact hfree
    have hk := circuitOn_lt hon
    refine ⟨_, exec_flowFault hon hrun hgood hlow hlong hlasts hact hfree, ?_, ?_, ?_,
      (records_refl |>.put (by decide) |>.put (by decide) |>.log (by decide)).logged⟩
    · rw [flowFaulted, get_log_far hk (by decide), get_put_far hk (by decide), get_put_here hk (by decide)]
      rfl
    · rw [flowFaulted, get_log_far hk (by decide), get_put_here hk (by decide)]
      rfl
    · rw [flowFaulted, get_log_far hk (by decide), get_put_far hk (by decide), get_put_far hk (by decide), hrun]
  · intro s k secs hon hfault hflow hsecs
    have hk := circuitOn_lt hon
    refine ⟨_, exec_flowRecovered hon hfault hflow hsecs, ?_, ?_, (records_refl |>.put (by decide) |>.log (by decide)).logged⟩
    · rw [get_log_far hk (by decide), get_put_here hk (by decide)]
      rfl
    · rw [get_log_far hk (by decide), get_put_far hk (by decide)]
  · intro s k hon hcold hfree hheat hown hruns hsafe hstate hcool hbank
    have hk := circuitOn_lt hon
    have hexec := exec_heaterOn hon hcold hfree
    rw [heatSwitch_heater hon hheat hown, lswCommand_on hruns hsafe hstate hcool hbank, State.putb] at hexec
    refine ⟨_, hexec, ?_, ?_, ?_⟩
    · rw [get_put_here hk (by decide)]
      rfl
    · rw [get_put_far hheat (by decide), switched_on hheat]
    · rw [get_put_far hheat (by decide), lswState_state hheat (by decide)]
  · intro s k hon hwarm hruns hthaw hheat hown hstate
    have hk := circuitOn_lt hon
    have hexec := exec_heaterOff hon hwarm
    rw [heatSwitch_heater hon hheat hown, lswCommand_off hruns hthaw hstate, State.putb] at hexec
    refine ⟨_, hexec, ?_, ?_, ?_⟩
    · rw [get_put_here hk (by decide)]
      rfl
    · rw [get_put_far hheat (by decide), switched_off hheat]
    · rw [get_put_far hheat (by decide), lswState_state hheat (by decide)]

end Sys2Proof.Proofs
end

section
/-! PROOFS. The Timebase: what its states show, and the results of its commands. -/

namespace Sys2Proof.Proofs

open Sys2Proof.Machine Sys2Proof.Laws R

variable {s t : State} {src srcStamp f cycles ms m g st v edge sess : Nat} {e jump : Int}

/-! ### Quantities of two words -/

theorem get2_put2 {lo hi : Field} (hlo : fits 1 lo = true) (hhi : fits 1 hi = true) (hfar : far 1 hi lo = true) (hwlo : lo.w = 32) (hwhi : hi.w = 32)
    (hv : v < 2 ^ 64) : (s.put2 lo hi v).get2 lo hi = v := by
  unfold State.put2 State.get2
  rw [get_put_far Nat.zero_lt_one hfar, get_put_here Nat.zero_lt_one hlo, get_put_here Nat.zero_lt_one hhi, hwlo, hwhi, Nat.mod_mod,
    Nat.mod_eq_of_lt (a := v / 2 ^ 32) (by omega), Nat.mod_add_div]

theorem get_put2_far {lo hi g : Field} {i : Nat} (hi' : i < n) (hlo : far n lo g = true) (hhi : far n hi g = true) :
    (s.put2 lo hi v).get g i = s.get g i := by
  unfold State.put2
  rw [get_put_far hi' hhi, get_put_far hi' hlo]

theorem get2_of_get {lo hi : Field} (hlo : t.get lo = s.get lo) (hhi : t.get hi = s.get hi) : t.get2 lo hi = s.get2 lo hi := by
  unfold State.get2
  rw [hlo, hhi]

theorem get2_lt {lo hi : Field} (hwlo : lo.w = 32) (hwhi : hi.w = 32) : s.get2 lo hi < 2 ^ 64 := by
  have hl := get_lt s lo 0 0
  have hh := get_lt s hi 0 0
  rw [hwlo] at hl
  rw [hwhi] at hh
  unfold State.get2
  omega

theorem ofSigned_lt {w : Nat} {i : Int} : ofSigned w i < 2 ^ w := by
  have hpos : (0 : Int) < (2 : Int) ^ w := by positivity
  have hlt := Int.emod_lt_of_pos i hpos
  have hnonneg := Int.emod_nonneg i hpos.ne'
  have hcast : ((2 ^ w : Nat) : Int) = (2 : Int) ^ w := by push_cast; rfl
  unfold ofSigned
  omega

/-! ### Parts of the state that a field does not read -/

theorem get_tb {x : Tb} {h : Field} {i j : Nat} : ({ s with tb := x } : State).get h i j = s.get h i j := rfl

theorem get_keep {x : Keeper} {h : Field} {i j : Nat} : ({ s with keep := x } : State).get h i j = s.get h i j := rfl

theorem log_tb {code sev : Nat} {pay : List Nat} : (s.log code sev pay).tb = s.tb :=
  (log_unchanged s code sev pay).tb.resolve_left (by simp [within, logParts])

theorem log_keep {code sev : Nat} {pay : List Nat} : (s.log code sev pay).keep = s.keep :=
  (log_unchanged s code sev pay).keep.resolve_left (by simp [within, logParts])

theorem Records.tb {l : List (Nat × Nat × List Nat)} {x : Tb} (h : Records s t l) : Records s { t with tb := x } l := h.sameRegs rfl rfl

theorem Records.keep {l : List (Nat × Nat × List Nat)} {x : Keeper} (h : Records s t l) : Records s { t with keep := x } l := h.sameRegs rfl rfl

/-- The registers that only the Timebase's shared operations show. -/
theorem log_far1 {code sev : Nat} {pay : List Nat} {h : Field} (haway : clearOf 1 h logParts = true) : (s.log code sev pay).get h = s.get h :=
  get_log_far Nat.zero_lt_one haway

/-! ### The states of R87 -/

section States

variable {h : Field}

theorem tbState_far (hf : far 1 TB_STAT.STATE h = true) (ha : far 1 TB_STAT.ALIGNED h = true) : (s.tbState st).get h = s.get h := by
  rw [State.tbState, State.putb, get_put_far Nat.zero_lt_one ha, get_put_far Nat.zero_lt_one hf]

theorem tbState_state (hst : st < 8) : (s.tbState st).get TB_STAT.STATE = st := by
  rw [State.tbState, State.putb, get_put_far Nat.zero_lt_one (by decide), get_put_here Nat.zero_lt_one (by decide)]
  exact Nat.mod_eq_of_lt hst

theorem tbState_aligned : (s.tbState st).get TB_STAT.ALIGNED = if st = 2 then 1 else 0 := by
  rw [State.tbState, State.putb, get_put_here Nat.zero_lt_one (by decide)]
  rcases eq_or_ne st 2 with rfl | hst
  · rfl
  · simp [hst]

theorem setSrc_far (hf : far 1 TB_STAT.SRC h = true) (hp : far 1 PLC_STAT.TIME_SRC h = true) : (s.setSrc m).get h = s.get h := by
  rw [State.setSrc, State.putb, get_put_far Nat.zero_lt_one hp, get_put_far Nat.zero_lt_one hf]
  rfl

theorem setSrc_src (hm : m < 8) : (s.setSrc m).get TB_STAT.SRC = m := by
  rw [State.setSrc, State.putb, get_put_far Nat.zero_lt_one (by decide), get_put_here Nat.zero_lt_one (by decide)]
  exact Nat.mod_eq_of_lt hm

theorem setErr_far (hf : far 1 TB_ERR.ERR h = true) : (s.setErr e).get h = s.get h := by
  rw [State.setErr, State.puti, get_put_far Nat.zero_lt_one hf]
  rfl

theorem setErr_err : (s.setErr e).get TB_ERR.ERR = ofSigned 28 e := by
  rw [State.setErr, State.puti, get_put_here Nat.zero_lt_one (by decide)]
  exact Nat.mod_eq_of_lt ofSigned_lt

theorem setFloc_far (hf : far 1 TB_FREQ_LOC.FLOC h = true) (hi : far 1 TB_INC.INC h = true) : (s.setFloc v).get h = s.get h := by
  rw [State.setFloc]
  dsimp only
  rw [get_put_far Nat.zero_lt_one hi, get_put_far Nat.zero_lt_one hf]
  rfl

theorem setReady_one {k : Nat} (hf : 0 < h.n1) (hj : 0 < h.n2) (haway : touchSetReady anyPart = touchSetReady (awayFrom h)) :
    (s.setReady k).get h = s.get h :=
  get_of_law (fun hA => setReady_keeps hA (Keeps.refl _ s)) (touchSetReady_all anyPart_all) hf hj haway

theorem gridSeen_far (hf : 0 < h.n1) (hj : 0 < h.n2) (haway : touchGridSeen anyPart = touchGridSeen (awayFrom h)) :
    (s.gridSeen v f).get h = s.get h :=
  get_of_law (fun hA => gridSeen_keeps hA (Keeps.refl _ s)) (touchGridSeen_all anyPart_all) hf hj haway

theorem ampShow_far (hf : 0 < h.n1) (hj : 0 < h.n2) (haway : touchAmpShow anyPart = touchAmpShow (awayFrom h)) : s.ampShow.get h = s.get h :=
  get_of_law (fun hA => ampShow_keeps hA (Keeps.refl _ s)) (touchAmpShow_all anyPart_all) hf hj haway

theorem gridSeen_ok : (s.gridSeen v f).get TB_STAT.GRID_OK = 1 := by
  rw [State.gridSeen, ampShow_far (by decide) (by decide) rfl, State.puti, get_put_far Nat.zero_lt_one (by decide),
    get_put_far Nat.zero_lt_one (by decide), get_put_here Nat.zero_lt_one (by decide)]
  rfl

end States

theorem records_tbState : Records s (s.tbState st) [] := records_refl |>.put (f := TB_STAT.STATE) (by decide) |>.put (by decide)

theorem records_setSrc : Records s (s.setSrc m) [] := records_refl |>.tb |>.put (f := TB_STAT.SRC) (by decide) |>.put (by decide)

theorem records_setErr : Records s (s.setErr e) [] := records_refl |>.tb |>.put (by decide)

theorem records_tbHoldover : Records s s.tbHoldover [] :=
  records_of_law (fun h => tbHoldover_keeps h (Keeps.refl _ s)) (touchTbHoldover_all anyPart_all) rfl

theorem records_gridFollow : Records s (s.gridFollow v f) [] :=
  records_of_law (fun h => gridFollow_keeps h (Keeps.refl _ s)) (touchGridFollow_all anyPart_all) rfl

/-! ### HOLDOVER -/

theorem tbHoldover_state : s.tbHoldover.get TB_STAT.STATE = 4 := by
  rw [State.tbHoldover, get_tb, get_put_far Nat.zero_lt_one (by decide), setSrc_far (by decide) (by decide), tbState_state (by decide)]

theorem tbHoldover_src : s.tbHoldover.get TB_STAT.SRC = 0 := by
  rw [State.tbHoldover, get_tb, get_put_far Nat.zero_lt_one (by decide), setSrc_src (by decide)]

theorem tbHoldover_aligned : s.tbHoldover.get TB_STAT.ALIGNED = 0 := by
  rw [State.tbHoldover, get_tb, get_put_far Nat.zero_lt_one (by decide), setSrc_far (by decide) (by decide), tbState_aligned]
  rfl

theorem tbHoldover_cycles : s.tbHoldover.get TB_HOLD.HOLD_CYC = 0 := by
  rw [State.tbHoldover, get_tb, get_put_here Nat.zero_lt_one (by decide)]
  rfl

theorem tbHoldover_far {h : Field} (hf : 0 < h.n1) (hj : 0 < h.n2) (haway : touchTbHoldover anyPart = touchTbHoldover (awayFrom h)) :
    s.tbHoldover.get h = s.get h :=
  get_of_law (fun hA => tbHoldover_keeps hA (Keeps.refl _ s)) (touchTbHoldover_all anyPart_all) hf hj haway

end Sys2Proof.Proofs
end

section
/-! PROOFS. The results of the Timebase's commands (R86 to R104). -/

namespace Sys2Proof.Proofs

open Sys2Proof.Machine Sys2Proof.Laws R

variable {s t : State} {src srcStamp f cycles ms m g st v edge sess taps : Nat} {e jump k : Int}

/-! ### The start of the Timebase (R87, R97) -/

/-- The stamp that a lock takes over. -/
def lockStamp (s : State) (srcStamp f : Nat) : Nat :=
  if s.is TB_STAT.ROOT then s.restartCycle * 2 ^ 24 + s.compensated srcStamp f % 2 ^ 24 else srcStamp

/-- The Timebase has locked, before what the grid shows. -/
def lockTaken (s : State) (src v f : Nat) : State :=
  let s1 := (s.setStamp v).setFloc (f * mHz)
  ((({ s1 with tb := { s1.tb with fsrc := f * mHz, acq := false } }.setErr 0).tbState 2).setSrc src).put TB_STAT.ACQUIRED 1

/-- The Timebase has locked. -/
def locked (s : State) (src v f : Nat) : State :=
  ((((lockTaken s src v f).when (src == 1) fun t => t.gridSeen v f).setReady 0).logNumbering (v / 2 ^ 24 % 2 ^ 40)).log 0x0201 NOTICE [src]

theorem srcAllowed_bounds (h : s.srcAllowed src = true) : 1 ≤ src ∧ src ≤ 4 := by
  simp only [State.srcAllowed, Bool.and_eq_true, decide_eq_true_eq] at h
  exact h.1.1

theorem exec_tbAcquireLock (hruns : s.runs 4 = true) (hstate : s.get TB_STAT.STATE = 1) (hallowed : s.srcAllowed src = true)
    (hroot : s.is TB_STAT.ROOT = true → src = 1 ∧ 3 ≤ cycles) :
    exec (.tbAcquireLock src srcStamp f cycles) s = .next (locked s src (lockStamp s srcStamp f) f) := by
  have harm : exec (.tbAcquireLock src srcStamp f cycles) s = execTbAcquireLock src srcStamp f cycles s := rfl
  have hmay : (!s.is TB_STAT.ROOT || (src == 1 && decide (3 ≤ cycles))) = true := by
    cases hr : s.is TB_STAT.ROOT
    · rfl
    · simp [hroot hr]
  rw [harm, execTbAcquireLock]
  dsimp only
  rw [if_pos (by rw [hruns, hstate, hallowed, hmay]; rfl)]
  rfl

/-- A field that neither the grid's measurement nor the end of a lock shows. -/
theorem locked_far {h : Field} (hlog : clearOf 1 h logParts = true) (hready : touchSetReady anyPart = touchSetReady (awayFrom h))
    (hgrid : touchGridSeen anyPart = touchGridSeen (awayFrom h)) (hi : 0 < h.n1) (hj : 0 < h.n2) :
    (locked s src v f).get h = (lockTaken s src v f).get h := by
  rw [locked, log_far1 hlog, State.logNumbering, log_far1 hlog, setReady_one hi hj hready, State.when]
  split
  · exact gridSeen_far hi hj hgrid
  · rfl

theorem locked_gridOk (hsrc : src = 1) : (locked s src v f).get TB_STAT.GRID_OK = 1 := by
  rw [locked, log_far1 (by decide), State.logNumbering, log_far1 (by decide), setReady_one (by decide) (by decide) rfl, hsrc,
    State.when, if_pos (beq_self_eq_true 1), gridSeen_ok]

/-- The restart value is taken over, before what shows it. -/
def restarted (s : State) : State :=
  let s1 := ((s.setStamp (s.restartCycle * 2 ^ 24)).setFloc s.nominal).tbHoldover
  { s1 with keep := { s1.keep with restarted := !s1.is TB_STAT.ROOT } }.put TB_STAT.ACQUIRED 1

theorem exec_tbAcquireTimeout (hruns : s.runs 4 = true) (hstate : s.get TB_STAT.STATE = 1) (hms : 60 ≤ ms) :
    exec (.tbAcquireTimeout ms) s = .next (((restarted s).setReady 0).logNumbering s.restartCycle) := by
  have harm : exec (.tbAcquireTimeout ms) s = execTbAcquireTimeout ms s := rfl
  rw [harm, execTbAcquireTimeout, if_pos (by simp [hruns, hstate, hms])]
  rfl

theorem setStamp_stamp : (s.setStamp v).stamp = v % 2 ^ 64 := by
  rw [State.stamp, State.setStamp]
  exact get2_put2 (by decide) (by decide) (by decide) rfl rfl (Nat.mod_lt _ (by decide))

theorem lockTaken_stamp : (lockTaken s src v f).stamp = v % 2 ^ 64 := by
  have hkeep : ∀ h : Field, h = TB_STAMP_LO.STAMP ∨ h = TB_STAMP_HI.STAMP → (lockTaken s src v f).get h = (s.setStamp v).get h := by
    rintro h (rfl | rfl) <;>
      rw [lockTaken, get_put_far Nat.zero_lt_one (by decide), setSrc_far (by decide) (by decide), tbState_far (by decide) (by decide),
        setErr_far (by decide), get_tb, setFloc_far (by decide) (by decide)]
  rw [← setStamp_stamp (s := s)]
  exact get2_of_get (hkeep _ (.inl rfl)) (hkeep _ (.inr rfl))

theorem locked_stamp : (locked s src v f).stamp = v % 2 ^ 64 := by
  rw [← lockTaken_stamp (s := s) (src := src) (f := f)]
  exact get2_of_get (locked_far (by decide) rfl rfl (by decide) (by decide)) (locked_far (by decide) rfl rfl (by decide) (by decide))

/-- A field that neither readiness nor the event of the new numbering shows. -/
theorem restart_far {h : Field} (hlog : clearOf 1 h logParts = true) (hready : touchSetReady anyPart = touchSetReady (awayFrom h)) (hi : 0 < h.n1)
    (hj : 0 < h.n2) : (((restarted s).setReady 0).logNumbering v).get h = (restarted s).get h := by
  rw [State.logNumbering, log_far1 hlog, setReady_one hi hj hready]

theorem restart_stamp : (((restarted s).setReady 0).logNumbering v).stamp = s.restartCycle * 2 ^ 24 % 2 ^ 64 := by
  have hkeep : ∀ h : Field, h = TB_STAMP_LO.STAMP ∨ h = TB_STAMP_HI.STAMP →
      (((restarted s).setReady 0).logNumbering v).get h = (s.setStamp (s.restartCycle * 2 ^ 24)).get h := by
    rintro h (rfl | rfl) <;>
      rw [restart_far (by decide) rfl (by decide) (by decide), restarted, get_put_far Nat.zero_lt_one (by decide), get_keep,
        tbHoldover_far (by decide) (by decide) rfl, setFloc_far (by decide) (by decide)]
  rw [← setStamp_stamp]
  exact get2_of_get (hkeep _ (.inl rfl)) (hkeep _ (.inr rfl))

/-! ### Loss of a source (R87, R93, R104) -/

/-- A follower's source is lost and no other is given. -/
def sourceLost (s : State) (src : Nat) : State := { s.tbHoldover with tb := s.tbHoldover.tb.lose src }

theorem exec_tbSourceLost (hruns : s.runs 4 = true) (hstate : s.get TB_STAT.STATE = 2 ∨ s.get TB_STAT.STATE = 3) (hsrc : s.get TB_STAT.SRC = 3)
    (hm : clampN 2 32 (s.get TB_FOLLOW.SRC_TMO) ≤ m) :
    exec (.tbSourceLost 3 2 m none) s = .next ((sourceLost s 3).log 0x0206 WARNING [3]) := by
  have harm : exec (.tbSourceLost 3 2 m none) s = execTbSourceLost 3 2 m none s := rfl
  have hsel : ((s.get TB_STAT.STATE == 2 || s.get TB_STAT.STATE == 3) && s.get TB_STAT.SRC == 3) = true := by simpa [hsrc] using hstate
  have hfound : s.lossFound 3 2 m = some (0x0206, [3]) := by simp [State.lossFound, hm]
  rw [harm, execTbSourceLost]
  simp only [hsel, hfound, hruns]
  rfl

theorem gridGone_ok : s.gridGone.get TB_STAT.GRID_OK = 0 := by
  rw [State.gridGone, get_put_far Nat.zero_lt_one (by decide), get_put_far Nat.zero_lt_one (by decide), get_put_far Nat.zero_lt_one (by decide),
    get_put_here Nat.zero_lt_one (by decide)]
  rfl

theorem gridGone_seen : s.gridGone.get TB_STAT.GRID_LOST_SEEN = 1 := by
  rw [State.gridGone, get_put_here Nat.zero_lt_one (by decide)]
  rfl

theorem gridGone_far {h : Field} (hf : 0 < h.n1) (hj : 0 < h.n2) (haway : touchGridGone anyPart = touchGridGone (awayFrom h)) :
    s.gridGone.get h = s.get h :=
  get_of_law (fun hA => gridGone_keeps hA (Keeps.refl _ s)) (touchGridGone_all anyPart_all) hf hj haway

theorem records_gridGone : Records s s.gridGone [] :=
  records_of_law (fun h => gridGone_keeps h (Keeps.refl _ s)) (touchGridGone_all anyPart_all) rfl

theorem exec_gridPhaseJump_of_followed (hruns : s.runs 4 = true) (hstate : s.get TB_STAT.STATE = 2 ∨ s.get TB_STAT.STATE = 3)
    (hsrc : s.get TB_STAT.SRC = 1) (hjump : s.get TB_GRID_CFG.JUMP_MAX * 0x10000 < jump.natAbs) :
    exec (.gridPhaseJump jump) s = .next (s.gridGone.tbHoldover.log 0x0205 WARNING (leBytes 4 (ofSigned 32 jump))) := by
  have harm : exec (.gridPhaseJump jump) s = execGridPhaseJump jump s := rfl
  have hsel : ((s.get TB_STAT.STATE == 2 || s.get TB_STAT.STATE == 3) && s.get TB_STAT.SRC == 1) = true := by simpa [hsrc] using hstate
  rw [harm, execGridPhaseJump]
  simp only [hsel, hruns, hjump]
  rfl

theorem exec_gridPhaseJump_of_measured (hruns : s.runs 4 = true) (hsrc : s.get TB_STAT.SRC ≠ 1) (hok : s.is TB_STAT.GRID_OK = true)
    (hjump : s.get TB_GRID_CFG.JUMP_MAX * 0x10000 < jump.natAbs) :
    exec (.gridPhaseJump jump) s = .next (s.gridGone.log 0x0205 WARNING (leBytes 4 (ofSigned 32 jump))) := by
  have harm : exec (.gridPhaseJump jump) s = execGridPhaseJump jump s := rfl
  have hsel : ((s.get TB_STAT.STATE == 2 || s.get TB_STAT.STATE == 3) && s.get TB_STAT.SRC == 1) = false := by simp [hsrc]
  rw [harm, execGridPhaseJump]
  simp only [hsel, hruns, hok, hjump]
  rfl

theorem exec_lineFault {lines : Nat} (hruns : s.runs 4 = true) (hlines : s.is TB_CTRL.LINES = true) (hfault : lines % 8 ≠ 0) :
    exec (.lineFault lines) s = .next (((s.put TB_STAT.LINE_FLT 1).ampShow).log 0x020B WARNING [lines % 8]) := by
  have harm : exec (.lineFault lines) s = execLineFault lines s := rfl
  rw [harm, execLineFault, if_pos (by simp [hruns, hlines, hfault])]

theorem records_ampShow : Records s s.ampShow [] :=
  records_of_law (fun h => ampShow_keeps h (Keeps.refl _ s)) (touchAmpShow_all anyPart_all) rfl

/-! ### SLEW (R87, R90) -/

/-- LOCKED is left, before its event. -/
def slewEntered (s : State) (e : Int) (f : Nat) : State :=
  let s1 := ((s.setErr e).tbState 3).when (s.get TB_STAT.SRC == 1) fun t => t.put TB_FREQ_GRID.FGRID f
  { s1 with tb := { s1.tb with fsrc := f * mHz } }

theorem exec_tbSlewEntry (hruns : s.runs 4 = true) (hstate : s.get TB_STAT.STATE = 2) (htol : s.tbTol (s.get TB_STAT.SRC) < e.natAbs) :
    exec (.tbSlewEntry e f) s = .next ((slewEntered s e f).log 0x0203 NOTICE (leBytes 4 (ofSigned 32 e))) := by
  have harm : exec (.tbSlewEntry e f) s = execTbSlewEntry e f s := rfl
  rw [harm, execTbSlewEntry, if_pos (by simp [hruns, hstate, htol])]
  rfl

theorem slewEntered_far {h : Field} (hf : far 1 TB_FREQ_GRID.FGRID h = true) : (slewEntered s e f).get h = ((s.setErr e).tbState 3).get h := by
  rw [slewEntered, get_tb, State.when]
  split
  · exact get_put_far Nat.zero_lt_one hf
  · rfl

theorem records_slewEntered : Records s (slewEntered s e f) [] := by
  have hbefore : Records s ((s.setErr e).tbState 3) [] := records_setErr.trans records_tbState
  refine Records.tb ?_
  unfold State.when
  split
  · exact hbefore.put (by decide)
  · exact hbefore

/-- The error in its field of 28 bits. -/
theorem ofSigned_mod : ofSigned 32 e % 2 ^ TB_ERR.ERR.w = ofSigned 28 e := by
  have hw : TB_ERR.ERR.w = 28 := rfl
  rw [hw]
  unfold ofSigned
  omega

/-- SLEW ends, before what a first LOCKED logs. -/
def slewEnded (s : State) (e : Int) (ms : Nat) : State := ((s.setErr e).tbState 2).log 0x0204 INFO (leBytes 2 (min ms 0xFFFF))

/-- The first LOCKED since ACQUIRE is logged. -/
def firstLocked (t : State) : State := { t with tb := { t.tb with acq := false } }.log 0x0201 NOTICE [t.get TB_STAT.SRC]

theorem exec_tbSlewLocked (hruns : s.runs 4 = true) (hstate : s.get TB_STAT.STATE = 3) (hrenum : s.tb.renum = none)
    (htol : e.natAbs ≤ s.tbTol (s.get TB_STAT.SRC)) (hcycles : 2 ≤ cycles) :
    exec (.tbSlewLocked e cycles ms) s = .next ((slewEnded s e ms).when s.tb.acq firstLocked) := by
  have harm : exec (.tbSlewLocked e cycles ms) s = execTbSlewLocked e cycles ms s := rfl
  rw [harm, execTbSlewLocked, if_pos (by simp [hruns, hstate, hrenum, htol, hcycles])]
  rfl

theorem slewEnded_far {h : Field} (hlog : clearOf 1 h logParts = true) (hf : far 1 TB_STAT.STATE h = true) (ha : far 1 TB_STAT.ALIGNED h = true)
    (he : far 1 TB_ERR.ERR h = true) : (slewEnded s e ms).get h = s.get h := by
  rw [slewEnded, log_far1 hlog, tbState_far hf ha, setErr_far he]

theorem firstLocked_far {h : Field} (hlog : clearOf 1 h logParts = true) : (firstLocked t).get h = t.get h := by
  rw [firstLocked, log_far1 hlog, get_tb]

theorem when_firstLocked_far {b : Bool} {h : Field} (hlog : clearOf 1 h logParts = true) : (t.when b firstLocked).get h = t.get h := by
  cases b
  · rfl
  · exact firstLocked_far hlog

theorem slewEnded_acq : (slewEnded s e ms).tb.acq = s.tb.acq := by
  rw [slewEnded, log_tb, State.tbState, State.putb, put_tb, put_tb, State.setErr, State.puti, put_tb]

theorem slewLocked_acq : ((slewEnded s e ms).when s.tb.acq firstLocked).tb.acq = false := by
  cases hacq : s.tb.acq
  · exact slewEnded_acq.trans hacq
  · have hlog : (firstLocked (slewEnded s e ms)).tb = { (slewEnded s e ms).tb with acq := false } := log_tb
    exact congrArg Tb.acq hlog

theorem records_slewLocked : Records s ((slewEnded s e ms).when s.tb.acq firstLocked)
    ((0x0204, 1, leBytes 2 (min ms 0xFFFF)) :: if s.tb.acq then [(0x0201, 2, [s.get TB_STAT.SRC])] else []) := by
  have hended : Records s (slewEnded s e ms) [(0x0204, 1, leBytes 2 (min ms 0xFFFF))] :=
    (records_setErr.trans records_tbState).log (by decide)
  cases s.tb.acq
  · exact hended
  · have hsrc := slewEnded_far (s := s) (e := e) (ms := ms) (h := TB_STAT.SRC) (by decide) (by decide) (by decide) (by decide)
    have hfirst : Records s (firstLocked (slewEnded s e ms))
        [(0x0204, 1, leBytes 2 (min ms 0xFFFF)), (0x0201, 2, [(slewEnded s e ms).get TB_STAT.SRC])] := by
      unfold firstLocked
      exact hended.tb.log (by decide)
    rw [← hsrc]
    exact hfirst

/-! ### A source is taken (R87, R92) -/

/-- What a source that qualifies shows of the grid. -/
def sourceSeen (s : State) (src srcStamp f : Nat) : State :=
  if src = 1 then s.gridFollow (s.compensated srcStamp f) f else s

/-- The difference to the stamp of a source that is taken. -/
def sourceGap (s : State) (src srcStamp f : Nat) : Int :=
  toSigned 64 ((if src = 1 then s.compensated srcStamp f else srcStamp) + 2 ^ 64 - s.stamp)

/-- A source is taken, before its event. -/
def sourceTaken (s : State) (src srcStamp f : Nat) : State :=
  let t := (((sourceSeen s src srcStamp f).tbState 3).setSrc src).setErr (toSigned 24 (ofSigned 24 (sourceGap s src srcStamp f)) * 16)
  { t with tb := { t.tb with fsrc := f * mHz, renum := s.renumFor src (sourceGap s src srcStamp f) } }

theorem exec_tbSourceTaken (hruns : s.runs 4 = true) (hstate : s.get TB_STAT.STATE = 4) (hallowed : s.srcAllowed src = true)
    (hgrid : src = 1 → clampN 2 250 (s.get TB_GRID_CFG.RET_CYC) ≤ cycles)
    (hpulse : src = 4 → if s.tb.apiLost then 3 ≤ s.tb.apiOk else s.is TB_API_CFG.API_PRESENT = true) :
    exec (.tbSourceTaken src srcStamp f cycles) s = .next ((sourceTaken s src srcStamp f).log 0x0207 NOTICE [src]) := by
  have harm : exec (.tbSourceTaken src srcStamp f cycles) s = execTbSourceTaken src srcStamp f cycles s := rfl
  have hqual : (if src = 1 then decide (clampN 2 250 (s.get TB_GRID_CFG.RET_CYC) ≤ cycles)
      else if src = 4 then (if s.tb.apiLost then decide (3 ≤ s.tb.apiOk) else s.is TB_API_CFG.API_PRESENT) else true) = true := by
    split_ifs with h1 h4 hlost
    · exact decide_eq_true (hgrid h1)
    · exact decide_eq_true (by simpa [hlost] using hpulse h4)
    · simpa [hlost] using hpulse h4
    · rfl
  have hseen : (s.when (true && src == 1 && true) fun t => t.gridFollow (if src = 1 then s.compensated srcStamp f else srcStamp) f) =
      sourceSeen s src srcStamp f := by
    unfold sourceSeen State.when
    by_cases h1 : src = 1 <;> simp [h1]
  rw [harm, execTbSourceTaken]
  simp only [hqual, hruns, hallowed, hseen, hstate]
  rfl

theorem records_sourceSeen : Records s (sourceSeen s src srcStamp f) [] := by
  unfold sourceSeen
  split
  · exact records_gridFollow
  · exact records_refl

theorem sourceTaken_records : Records s (sourceTaken s src srcStamp f) [] :=
  ((records_sourceSeen.trans records_tbState).trans records_setSrc).trans records_setErr |>.tb

theorem gridFollow_ok : (s.gridFollow v f).get TB_STAT.GRID_OK = 1 := by
  rw [State.gridFollow]
  split
  · rw [setErr_far (by decide), get_tb, gridSeen_ok]
  · exact gridSeen_ok

/-! ### Renumbering, the reference and the delay line (R92, R94, R95) -/

/-- The cycles are renumbered, before the events. -/
def renumbered (s : State) (k : Int) : State :=
  (({ s with tb := { s.tb with renum := none } }.put2 TB_STAMP_LO.STAMP TB_STAMP_HI.STAMP (ofSigned 64 (s.stamp + k * 2 ^ 24))).put
    TB_STAT.RENUM_SEEN 1).stampsMoved k

/-- A follower that took its restart value logs the new numbering. -/
def numberingShown (t : State) (new : Nat) : State :=
  t.when t.keep.restarted fun t => { t with keep := { t.keep with restarted := false } }.logNumbering (new / 2 ^ 24)

/-- A renumbering, before an offset commit that it skips over. -/
def renumberLogged (s : State) (k : Int) : State :=
  (numberingShown ((renumbered s k).log 0x0208 WARNING (leBytes 8 (ofSigned 64 k))) (ofSigned 64 (s.stamp + k * 2 ^ 24))).laRenumber s.stamp
    (ofSigned 64 (s.stamp + k * 2 ^ 24))

theorem numberingShown_tb : (numberingShown t v).tb = t.tb := by
  unfold numberingShown State.when
  split
  · exact log_tb
  · rfl

theorem numberingShown_far {h : Field} (hlog : clearOf 1 h logParts = true) : (numberingShown t v).get h = t.get h := by
  unfold numberingShown State.when
  split
  · exact log_far1 hlog
  · rfl

theorem renumberLogged_tb : (renumberLogged s k).tb = { s.tb with renum := none } := by
  have hla : (renumberLogged s k).tb = (numberingShown ((renumbered s k).log 0x0208 WARNING (leBytes 8 (ofSigned 64 k)))
    (ofSigned 64 (s.stamp + k * 2 ^ 24))).tb := rfl
  have hmoved : (renumbered s k).tb = (({ s with tb := { s.tb with renum := none } }.put2 TB_STAMP_LO.STAMP TB_STAMP_HI.STAMP
    (ofSigned 64 (s.stamp + k * 2 ^ 24))).put TB_STAT.RENUM_SEEN 1).tb := rfl
  rw [hla, numberingShown_tb, log_tb, hmoved, put_tb, State.put2, put_tb, put_tb]

theorem renumberLogged_far {h : Field} (hlog : clearOf 1 h logParts = true) : (renumberLogged s k).get h =
    (({ s with tb := { s.tb with renum := none } }.put2 TB_STAMP_LO.STAMP TB_STAMP_HI.STAMP (ofSigned 64 (s.stamp + k * 2 ^ 24))).put
      TB_STAT.RENUM_SEEN 1).get h := by
  have hla : (renumberLogged s k).get h = (numberingShown ((renumbered s k).log 0x0208 WARNING (leBytes 8 (ofSigned 64 k)))
    (ofSigned 64 (s.stamp + k * 2 ^ 24))).get h := rfl
  rw [hla, numberingShown_far hlog, log_far1 hlog]
  rfl

theorem renumberLogged_stamp : (renumberLogged s k).stamp = ofSigned 64 (s.stamp + k * 2 ^ 24) := by
  have hget : ∀ h : Field, h = TB_STAMP_LO.STAMP ∨ h = TB_STAMP_HI.STAMP → (renumberLogged s k).get h =
      ({ s with tb := { s.tb with renum := none } }.put2 TB_STAMP_LO.STAMP TB_STAMP_HI.STAMP (ofSigned 64 (s.stamp + k * 2 ^ 24))).get h := by
    rintro h (rfl | rfl) <;> rw [renumberLogged_far (by decide), get_put_far Nat.zero_lt_one (by decide)]
  rw [State.stamp, get2_of_get (hget _ (.inl rfl)) (hget _ (.inr rfl))]
  exact get2_put2 (by decide) (by decide) (by decide) rfl rfl ofSigned_lt

theorem exec_cycleRenumber (hangle : s.atAngle 0 = true) (hk : s.tb.renum = some k) (hcommit : s.tb.commit = none) :
    exec (.cycleRenumber) s = .next (renumberLogged s k) := by
  have harm : exec (.cycleRenumber) s = execCycleRenumber s := rfl
  have hnone : (renumberLogged s k).tb.commit = none := by rw [renumberLogged_tb, hcommit]
  rw [harm, execCycleRenumber, hk]
  dsimp only
  rw [if_pos hangle]
  refine congrArg Host.Outcome.next ?_
  change (match (renumberLogged s k).tb.commit with | some (some c) => _ | _ => renumberLogged s k) = _
  rw [hnone]

theorem exec_refclkLost (href : s.keep.ref = true) : exec (.refclkLost) s =
    .next ((({ s with keep := { s.keep with ref := false } }.put TB_STAT.REF 0).put TB_STAT.REF_LOST_SEEN 1).log 0x0209 FAULT) := by
  have harm : exec (.refclkLost) s = execRefclkLost s := rfl
  rw [harm, execRefclkLost, if_pos href]

/-- The delay line is unlocked, before the events. -/
def dllUnlocked (s : State) (taps : Nat) : State :=
  (((((s.put TB_STAT.DLL_LOCK 0).put TB_DLL.LOCK 0).putMax TB_DLL.TAP_PS taps).inc TB_DLL.UNLK_CNT).put TB_STAT.DLL_UNLK_SEEN 1).put PE_STAT.DLL_HOLD 1

theorem exec_dllUnlock {periods : Nat} (hruns : s.runs 4 = true) (hlock : s.is TB_STAT.DLL_LOCK = true) (htap : taps < 94 ∨ 156 < taps)
    (hlong : 16 ≤ periods) :
    exec (.dllUnlock taps periods) s = .next (((dllUnlocked s taps).log 0x020A FAULT).log 0x0336 WARNING [0xFF]) := by
  have harm : exec (.dllUnlock taps periods) s = execDllUnlock taps periods s := rfl
  have hfar : 31 < ((taps : Int) - 125).natAbs := by omega
  rw [harm, execDllUnlock, if_pos (by simp [hruns, hlock, hfar, hlong])]
  rfl

/-- The delay line locks again, before the event. -/
def dllRelocked (s : State) (taps : Nat) : State :=
  (((s.put TB_STAT.DLL_LOCK 1).put TB_DLL.LOCK 1).put TB_DLL.TAP_PS taps).put PE_STAT.DLL_HOLD 0

theorem exec_dllRelock (hruns : s.runs 4 = true) (hlock : s.get TB_STAT.DLL_LOCK = 0) (hlow : 94 ≤ taps) (hhigh : taps ≤ 156) :
    exec (.dllRelock taps) s = .next ((dllRelocked s taps).log 0x020C NOTICE) := by
  have harm : exec (.dllRelock taps) s = execDllRelock taps s := rfl
  have hnear : ((taps : Int) - 125).natAbs ≤ 31 := by omega
  rw [harm, execDllRelock, if_pos (by simp [hruns, hnear, State.is, hlock])]
  rfl

/-! ### The keeper (R96) -/

/-- The keeper's stamp is committed. -/
def keeperCommitted (s : State) : State :=
  { s with keep := { s.keep with commitRtc := s.rtc, commitInc := s.keep.inc } }.put2 TB_LAST_STAMP_LO.LAST TB_LAST_STAMP_HI.LAST s.keeper

theorem exec_keeperCommit (hset : s.keeper ≠ 0) (hdue : s.get2 TB_LAST_STAMP_LO.LAST TB_LAST_STAMP_HI.LAST + 2 ^ 40 ≤ s.keeper ∨
    s.keeper < s.get2 TB_LAST_STAMP_LO.LAST TB_LAST_STAMP_HI.LAST) : exec (.keeperCommit) s = .next (keeperCommitted s) := by
  have harm : exec (.keeperCommit) s = execKeeperCommit s := rfl
  rw [harm, execKeeperCommit, if_pos hdue, State.keepCommit, if_neg hset]
  rfl

/-! ### Offsets (R100) -/

theorem exec_offsetCommit (hmay : s.writeStatus sess TB_OFS_CTRL.COMMIT = 0) : exec (.offsetCommit sess) s = .next s.ofsCommitWrite := by
  have harm : exec (.offsetCommit sess) s = execOffsetCommit sess s := rfl
  rw [harm, execOffsetCommit, guarded_of_writeStatus_zero _ hmay]

theorem ofsArm_of_some {groups : Nat} {at_ : Option Nat} (h : groups ≠ 0) :
    s.ofsArm groups at_ = { s with tb := { s.tb with commit := some at_, left := groups } }.put TB_OFS_CTRL.PEND 1 := if_neg h

/-- A group takes its shadows: the targets of its phases follow its own. -/
theorem ofsTake_tb : (s.ofsTake g).tb.left = s.tb.left ∧ (s.ofsTake g).tb.gTgt = sparsePut 0 g (s.get TB_GRP_OFS.GOFS g) s.tb.gTgt := by
  unfold State.ofsTake
  exact List.foldlRecOn (motive := fun t : State => t.tb.left = s.tb.left ∧ t.tb.gTgt = sparsePut 0 g (s.get TB_GRP_OFS.GOFS g) s.tb.gTgt)
    _ _ ⟨rfl, rfl⟩ fun t ht _ _ => ht

theorem clrBit_two_pow : clrBit (2 ^ g) g = 0 := by
  have hbit : bit (2 ^ g) g = true := by simp [bit]
  rw [clrBit, if_pos hbit, Nat.sub_self]

/-- The last group that a commit affects has taken it. -/
def commitEnded (s : State) (g : Nat) : State :=
  { s.ofsTake g with tb := { (s.ofsTake g).tb with left := 0, commit := none } }.put TB_OFS_CTRL.PEND 0

theorem exec_offsetCommitTaken (hbound : s.atBoundary g = true) (hrespace : s.respaceDue g = false) (hleft : s.tb.left = 2 ^ g)
    (hcommit : s.tb.commit = some none) : exec (.offsetCommitTaken g) s = .next (commitEnded s g) := by
  have harm : exec (.offsetCommitTaken g) s = execOffsetCommitTaken g s := rfl
  have hbit : bit (2 ^ g) g = true := by simp [bit]
  have hdue : s.ofsDue g = true := by simp [State.ofsDue, hbound, hrespace, hleft, hbit, hcommit]
  have hclear : clrBit (s.ofsTake g).tb.left g = 0 := by rw [ofsTake_tb.1, hleft, clrBit_two_pow]
  rw [harm, execOffsetCommitTaken, if_pos hdue, State.ofsCommitted]
  dsimp only
  rw [hclear]
  rfl

/-! ### The angle pulse (R102, R103) -/

/-- The pulse begins. -/
def pulseOut (s : State) : State :=
  { s with tb := { s.tb with apoLeft := clampN 1 1000 (s.get TB_APO_W.APO_W) * 250 }, pins := { s.pins with apo := true } }

theorem exec_anglePulseOut (hen : s.is TB_APO_CFG.APO_EN = true) (hangle : s.atAngle (s.get TB_APO_CFG.APO_ANG) = true) :
    exec (.anglePulseOut) s = .next (pulseOut s) := by
  have harm : exec (.anglePulseOut) s = execAnglePulseOut s := rfl
  rw [harm, execAnglePulseOut, if_pos (by simp [hen, hangle])]
  rfl

/-- The edge is captured. -/
def edgeCaptured (s : State) (edge : Nat) : State :=
  (s.put2 TB_API_CAP_LO.STAMP TB_API_CAP_HI.STAMP (edge / 16 % 2 ^ 64)).put TB_API_CAP_FR.FRAC (edge % 16)

theorem edgeCaptured_stamp : (edgeCaptured s edge).get2 TB_API_CAP_LO.STAMP TB_API_CAP_HI.STAMP = edge / 16 % 2 ^ 64 := by
  unfold edgeCaptured
  rw [get2_of_get (get_put_far Nat.zero_lt_one (by decide)) (get_put_far Nat.zero_lt_one (by decide))]
  exact get2_put2 (by decide) (by decide) (by decide) rfl rfl (Nat.mod_lt _ (by decide))

/-- An edge that is accepted is heard, and gives the error where the pulse is the source followed. -/
def edgeHeard (t : State) (edge : Nat) (e : Int) (ok : Bool) : State :=
  t.when ok fun u => { u with tb := u.tb.hear 4 (ofSigned 68 ((edge : Int) + e)) (t.tbUses 4) }.when (t.tbUses 4) fun u => u.setErr e

theorem edgeHeard_far {b : Bool} {h : Field} (herr : far 1 TB_ERR.ERR h = true) : (edgeHeard t edge e b).get h = t.get h := by
  unfold edgeHeard State.when
  split
  · split
    · rw [setErr_far herr, get_tb]
    · rfl
  · rfl

/-- What the capture of an edge shows beside its stamp. -/
def edgeShown (s : State) (edge : Nat) (present : Bool) (ok : State → Bool) : State :=
  let t := (edgeCaptured s edge).putb TB_API_CFG.API_PRESENT present
  { t with tb := { t.tb with apiOk := if ok t then t.tb.apiOk + 1 else 0, apiFirst := false } }

theorem edgeShown_far {present : Bool} {ok : State → Bool} {h : Field} (hpresent : far 1 TB_API_CFG.API_PRESENT h = true) :
    (edgeShown s edge present ok).get h = (edgeCaptured s edge).get h := by
  rw [edgeShown, get_tb, State.putb, get_put_far Nat.zero_lt_one hpresent]

theorem exec_anglePulseCapture (hruns : s.runs 4 = true) : ∃ present ok e b,
    exec (.anglePulseCapture edge) s = .next (edgeHeard (edgeShown s edge present ok) edge e b) := by
  have harm : exec (.anglePulseCapture edge) s = execAnglePulseCapture edge s := rfl
  let e : Int := toSigned 28 (s.get TB_API_CFG.API_ANG * 16 + 2 ^ 72 - edge)
  let gap := edge / 16 % 2 ^ 64 + 2 ^ 64 - s.get2 TB_API_CAP_LO.STAMP TB_API_CAP_HI.STAMP
  let present := decide (s.get2 TB_API_CAP_LO.STAMP TB_API_CAP_HI.STAMP ≠ 0) && decide (2 ^ 24 - 0x40000 ≤ gap % 2 ^ 64) &&
    decide (gap % 2 ^ 64 ≤ 2 ^ 24 + 0x40000)
  let ok : State → Bool := fun t => decide (e.natAbs ≤ 0x40000 * 16) || (t.get TB_STAT.SRC == 4 && t.tb.apiFirst)
  refine ⟨present, ok, e, ok ((edgeCaptured s edge).putb TB_API_CFG.API_PRESENT present), ?_⟩
  rw [harm, execAnglePulseCapture, if_pos hruns]
  rfl

end Sys2Proof.Proofs
end

section
/-! PROOFS. The results of the Timebase's commands, settled. -/

namespace Sys2Proof.Proofs

open Sys2Proof.Machine Sys2Proof.Laws R

variable {s : State} {src v f m g : Nat} {e k : Int}

/-- Settles O7: each command's next state, and what its fields read there. -/
theorem timebaseResults : Obligations.TimebaseResults := by
  unfold Obligations.TimebaseResults
  refine ⟨?_, ?_, ?_, ?_, ?_, ?_, ?_, ?_, ?_, ?_, ?_, ?_, ?_, ?_, ?_, ?_, ?_, ?_, ?_, ?_⟩
  · intro s src srcStamp f cycles hruns hstate hallowed hroot
    have hsrc := srcAllowed_bounds hallowed
    refine ⟨_, exec_tbAcquireLock hruns hstate hallowed hroot, ?_, ?_, ?_, ?_, ?_, fun hnot => ?_, locked_gridOk⟩
    · rw [locked_far (by decide) rfl rfl (by decide) (by decide), lockTaken, get_put_far Nat.zero_lt_one (by decide),
        setSrc_far (by decide) (by decide), tbState_state (by decide)]
    · rw [locked_far (by decide) rfl rfl (by decide) (by decide), lockTaken, get_put_far Nat.zero_lt_one (by decide), setSrc_src (by omega)]
    · rw [locked_far (by decide) rfl rfl (by decide) (by decide), lockTaken, get_put_far Nat.zero_lt_one (by decide),
        setSrc_far (by decide) (by decide), tbState_aligned, if_pos rfl]
    · rw [locked_far (by decide) rfl rfl (by decide) (by decide), lockTaken, get_put_here Nat.zero_lt_one (by decide)]
      rfl
    · rw [locked_far (by decide) rfl rfl (by decide) (by decide), lockTaken, get_put_far Nat.zero_lt_one (by decide),
        setSrc_far (by decide) (by decide), tbState_far (by decide) (by decide), setErr_err]
      rfl
    · rw [locked_stamp, lockStamp, if_neg (by simp [hnot])]
  · intro s ms hruns hstate hms
    refine ⟨_, exec_tbAcquireTimeout hruns hstate hms, ?_, ?_, ?_, ?_, restart_stamp⟩
    · rw [restart_far (by decide) rfl (by decide) (by decide), restarted, get_put_far Nat.zero_lt_one (by decide), get_keep, tbHoldover_state]
    · rw [restart_far (by decide) rfl (by decide) (by decide), restarted, get_put_far Nat.zero_lt_one (by decide), get_keep, tbHoldover_src]
    · rw [restart_far (by decide) rfl (by decide) (by decide), restarted, get_put_far Nat.zero_lt_one (by decide), get_keep, tbHoldover_aligned]
    · rw [restart_far (by decide) rfl (by decide) (by decide), restarted, get_put_here Nat.zero_lt_one (by decide)]
      rfl
  · intro s m hruns hstate hsrc hm
    refine ⟨_, exec_tbSourceLost hruns hstate hsrc hm, ?_, ?_, ?_, (records_tbHoldover.tb.log (by decide)).logged⟩
    · rw [log_far1 (by decide), sourceLost, get_tb, tbHoldover_state]
    · rw [log_far1 (by decide), sourceLost, get_tb, tbHoldover_src]
    · rw [log_far1 (by decide), sourceLost, get_tb, tbHoldover_cycles]
  · intro s jump hruns hstate hsrc hjump
    refine ⟨_, exec_gridPhaseJump_of_followed hruns hstate hsrc hjump, ?_, ?_, ?_, ?_,
      ((records_gridGone.trans records_tbHoldover).log (by decide)).logged⟩
    · rw [log_far1 (by decide), tbHoldover_state]
    · rw [log_far1 (by decide), tbHoldover_src]
    · rw [log_far1 (by decide), tbHoldover_far (by decide) (by decide) rfl, gridGone_ok]
    · rw [log_far1 (by decide), tbHoldover_far (by decide) (by decide) rfl, gridGone_seen]
  · intro s jump hruns hsrc hok hjump
    refine ⟨_, exec_gridPhaseJump_of_measured hruns hsrc hok hjump, ?_, ?_, ?_, (records_gridGone.log (by decide)).logged⟩
    · rw [log_far1 (by decide), gridGone_far (by decide) (by decide) rfl]
    · rw [log_far1 (by decide), gridGone_far (by decide) (by decide) rfl]
    · rw [log_far1 (by decide), gridGone_ok]
  · intro s lines hruns hlines hfault
    refine ⟨_, exec_lineFault hruns hlines hfault, ?_,
      (((records_refl.put (f := TB_STAT.LINE_FLT) (by decide)).trans records_ampShow).log (by decide)).logged⟩
    rw [log_far1 (by decide), ampShow_far (by decide) (by decide) rfl, get_put_here Nat.zero_lt_one (by decide)]
    rfl
  · intro s cycles hcycles
    have harm : exec (.lineFaultClear cycles) s = execLineFaultClear cycles s := rfl
    rw [harm, execLineFaultClear, if_pos (decide_eq_true hcycles)]
  · intro s e f hruns hstate htol
    refine ⟨_, exec_tbSlewEntry hruns hstate htol, ?_, ?_, ?_, ?_, (records_slewEntered.log (by decide)).logged⟩
    · rw [log_far1 (by decide), slewEntered_far (by decide), tbState_state (by decide)]
    · rw [log_far1 (by decide), slewEntered_far (by decide), tbState_aligned]
      rfl
    · rw [log_far1 (by decide), slewEntered_far (by decide), tbState_far (by decide) (by decide), setErr_err, ofSigned_mod]
    · rw [log_tb]
      rfl
  · intro s e cycles ms hruns hstate hrenum htol hcycles
    refine ⟨_, exec_tbSlewLocked hruns hstate hrenum htol hcycles, ?_, ?_, slewLocked_acq, records_slewLocked.logged⟩
    · rw [when_firstLocked_far (by decide), slewEnded, log_far1 (by decide), tbState_state (by decide)]
    · rw [when_firstLocked_far (by decide), slewEnded, log_far1 (by decide), tbState_aligned, if_pos rfl]
  · intro s src srcStamp f cycles hruns hstate hallowed hgrid hpulse
    have hsrc := srcAllowed_bounds hallowed
    refine ⟨_, exec_tbSourceTaken hruns hstate hallowed hgrid hpulse, ?_, ?_, ?_, fun hone => ?_, (sourceTaken_records.log (by decide)).logged⟩
    · rw [log_far1 (by decide), sourceTaken, get_tb, setErr_far (by decide), setSrc_far (by decide) (by decide), tbState_state (by decide)]
    · rw [log_far1 (by decide), sourceTaken, get_tb, setErr_far (by decide), setSrc_src (by omega)]
    · rw [log_tb, sourceTaken]
    · rw [log_far1 (by decide), sourceTaken, get_tb, setErr_far (by decide), setSrc_far (by decide) (by decide),
        tbState_far (by decide) (by decide), sourceSeen, if_pos hone, gridFollow_ok]
  · intro s k hangle hk hcommit
    refine ⟨_, exec_cycleRenumber hangle hk hcommit, renumberLogged_stamp, ?_, ?_⟩
    · rw [renumberLogged_far (by decide), get_put_here Nat.zero_lt_one (by decide)]
      rfl
    · rw [renumberLogged_tb]
  · intro s href
    refine ⟨_, exec_refclkLost href, ?_, ?_,
      (records_refl |>.keep |>.put (f := TB_STAT.REF) (by decide) |>.put (f := TB_STAT.REF_LOST_SEEN) (by decide) |>.log (by decide)).logged⟩
    · rw [log_far1 (by decide), get_put_far Nat.zero_lt_one (by decide), get_put_here Nat.zero_lt_one (by decide)]
      rfl
    · rw [log_far1 (by decide), get_put_here Nat.zero_lt_one (by decide)]
      rfl
  · intro s taps periods hruns hlock htap hlong
    refine ⟨_, exec_dllUnlock hruns hlock htap hlong, ?_, ?_, ?_, ?_, ?_⟩
    · rw [log_far1 (by decide), log_far1 (by decide), dllUnlocked, State.inc, State.putMax]
      simp (disch := decide) only [get_put_far Nat.zero_lt_one, get_put_here Nat.zero_lt_one]
      rfl
    · rw [log_far1 (by decide), log_far1 (by decide), dllUnlocked, State.inc, State.putMax]
      simp (disch := decide) only [get_put_far Nat.zero_lt_one, get_put_here Nat.zero_lt_one]
      rfl
    · rw [log_far1 (by decide), log_far1 (by decide), dllUnlocked, get_put_far Nat.zero_lt_one (by decide),
        get_put_here Nat.zero_lt_one (by decide)]
      rfl
    · rw [log_far1 (by decide), log_far1 (by decide), dllUnlocked, get_put_here Nat.zero_lt_one (by decide)]
      rfl
    · have hbefore : Records s (dllUnlocked s taps) [] := records_refl |>.put (f := TB_STAT.DLL_LOCK) (by decide)
        |>.put (f := TB_DLL.LOCK) (by decide) |>.put (f := TB_DLL.TAP_PS) (by decide) |>.put (f := TB_DLL.UNLK_CNT) (by decide)
        |>.put (f := TB_STAT.DLL_UNLK_SEEN) (by decide) |>.put (by decide)
      exact ((hbefore.log (by decide)).log (by decide)).logged
  · intro s taps hruns hlock hlow hhigh
    refine ⟨_, exec_dllRelock hruns hlock hlow hhigh, ?_, ?_, ?_, ?_, ?_⟩
    · rw [log_far1 (by decide), dllRelocked]
      simp (disch := decide) only [get_put_far Nat.zero_lt_one, get_put_here Nat.zero_lt_one]
      rfl
    · rw [log_far1 (by decide), dllRelocked]
      simp (disch := decide) only [get_put_far Nat.zero_lt_one, get_put_here Nat.zero_lt_one]
      rfl
    · rw [log_far1 (by decide), dllRelocked, get_put_far Nat.zero_lt_one (by decide), get_put_here Nat.zero_lt_one (by decide)]
      exact Nat.mod_eq_of_lt (hhigh.trans_lt (by decide))
    · rw [log_far1 (by decide), dllRelocked, get_put_here Nat.zero_lt_one (by decide)]
      rfl
    · have hbefore : Records s (dllRelocked s taps) [] := records_refl |>.put (f := TB_STAT.DLL_LOCK) (by decide)
        |>.put (f := TB_DLL.LOCK) (by decide) |>.put (f := TB_DLL.TAP_PS) (by decide) |>.put (by decide)
      exact (hbefore.log (by decide)).logged
  · intro s hset hdue
    refine ⟨_, exec_keeperCommit hset hdue, ?_, get2_put2 (by decide) (by decide) (by decide) rfl rfl (get2_lt rfl rfl), ?_⟩
    · rw [keeperCommitted, State.put2, put_keep, put_keep]
    · rw [keeperCommitted, State.put2, put_keep, put_keep]
  · intro s g hangle hrenum hg
    have harm : exec (.ncarChange g) s = execNcarChange g s := rfl
    rw [harm, execNcarChange, if_pos (by simp [hangle, State.renumDue, hrenum, hg])]
    rfl
  · intro s sess hmay hgroups
    have hexec := exec_offsetCommit hmay
    rw [State.ofsCommitWrite, ofsArm_of_some hgroups] at hexec
    refine ⟨_, hexec, ?_, ?_, ?_⟩
    · rw [get_put_here Nat.zero_lt_one (by decide)]
      rfl
    · rw [put_tb]
    · rw [put_tb]
  · intro s g hbound hrespace hleft hcommit hg
    refine ⟨_, exec_offsetCommitTaken hbound hrespace hleft hcommit, ?_, ?_, ?_, ?_⟩
    · rw [commitEnded, put_tb]
    · rw [commitEnded, put_tb]
    · rw [commitEnded, get_put_here Nat.zero_lt_one (by decide)]
      rfl
    · rw [commitEnded, put_tb]
      dsimp only
      rw [ofsTake_tb.2, sparseGet_sparsePut_same]
  · intro s hen hangle
    exact ⟨_, exec_anglePulseOut hen hangle, rfl, rfl⟩
  · intro s edge hruns
    obtain ⟨present, ok, e, b, hexec⟩ := exec_anglePulseCapture (edge := edge) hruns
    have hkeep : ∀ h : Field, far 1 TB_ERR.ERR h = true → far 1 TB_API_CFG.API_PRESENT h = true →
        (edgeHeard (edgeShown s edge present ok) edge e b).get h = (edgeCaptured s edge).get h :=
      fun h herr hpresent => (edgeHeard_far herr).trans (edgeShown_far hpresent)
    refine ⟨_, hexec, ?_, ?_⟩
    · rw [get2_of_get (hkeep _ (by decide) (by decide)) (hkeep _ (by decide) (by decide)), edgeCaptured_stamp]
    · rw [hkeep _ (by decide) (by decide), edgeCaptured, get_put_here Nat.zero_lt_one (by decide)]
      exact Nat.mod_eq_of_lt (Nat.mod_lt _ (by decide))

end Sys2Proof.Proofs
end

section
/-! PROOFS. The Phase Engine: phases and groups in their states (R130, R132), and what faults and losses leave of them. -/

namespace Sys2Proof.Proofs

open Sys2Proof.Machine Sys2Proof.Laws R

variable {s t : State} {g k m n st code cause v : Nat} {l : List Nat}

/-! ### Bit maps -/

theorem bit_clrBit_self : bit (clrBit m k) k = false := by
  unfold clrBit
  split
  next h =>
    have hodd : m / 2 ^ k % 2 = 1 := by simpa [bit, Nat.testBit_eq_decide_div_mod_eq] using h
    have hpos := Nat.two_pow_pos k
    have hdiv : (m - 2 ^ k) / 2 ^ k = m / 2 ^ k - 1 := by
      have hsub := Nat.sub_mul_div m (2 ^ k) 1
      rwa [Nat.mul_one] at hsub
    simp only [bit, Nat.testBit_eq_decide_div_mod_eq, hdiv, decide_eq_false_iff_not]
    omega
  next h => simpa using h

theorem bit_setBit_mod {w : Nat} (hk : k < w) : bit (setBit m k % 2 ^ w) k = true := by
  rw [bit, setBit, Nat.testBit_mod_two_pow, Nat.testBit_or, Nat.testBit_two_pow_self]
  simp [hk]

/-! ### The phases of a group -/

/-- Every phase is in the same group and in the same state. -/
def SamePhases (s t : State) : Prop :=
  ∀ n < 96, t.get PE_PH_CFG.GRP n = s.get PE_PH_CFG.GRP n ∧ t.get PE_PH_STAT.STATE n = s.get PE_PH_STAT.STATE n

theorem phasesOf_of_get (h : ∀ n < 96, t.get PE_PH_CFG.GRP n = s.get PE_PH_CFG.GRP n) : t.phasesOf g = s.phasesOf g :=
  List.filter_congr fun n hn => by rw [h n (List.mem_range.mp hn)]

theorem SamePhases.phasesIn (h : SamePhases s t) : t.phasesIn g st = s.phasesIn g st := by
  unfold State.phasesIn
  rw [phasesOf_of_get fun n hn => (h n hn).1]
  refine List.filter_congr fun n hn => ?_
  rw [(h n (List.mem_range.mp (List.mem_filter.mp hn).1)).2]

theorem SamePhases.trans {u : State} (hst : SamePhases s t) (htu : SamePhases t u) : SamePhases s u :=
  fun n hn => ⟨(htu n hn).1.trans (hst n hn).1, (htu n hn).2.trans (hst n hn).2⟩

theorem samePhases_of_regs (h : t.regs = s.regs) : SamePhases s t := fun _ _ => ⟨get_of_regs h .., get_of_regs h ..⟩

theorem samePhases_of_law {names : (Part → Prop) → Prop} (law : ∀ {A}, names A → Keeps A s t) (all : names anyPart)
    (hgrp : names anyPart = names (awayFrom PE_PH_CFG.GRP)) (hstate : names anyPart = names (awayFrom PE_PH_STAT.STATE)) : SamePhases s t :=
  fun _ hn => ⟨get_of_law law all hn (by decide) hgrp, get_of_law law all hn (by decide) hstate⟩

theorem samePhases_put {f : Field} {i j : Nat} (hgrp : far 96 f PE_PH_CFG.GRP = true) (hstate : far 96 f PE_PH_STAT.STATE = true) :
    SamePhases s (s.put f v i j) := fun _ hn => ⟨get_put_far hn hgrp, get_put_far hn hstate⟩

theorem samePhases_log {sev : Nat} {pay : List Nat} : SamePhases s (s.log code sev pay) :=
  fun _ hn => ⟨get_log_far hn (by decide), get_log_far hn (by decide)⟩

theorem phasesOf_lt (h : n ∈ s.phasesOf g) : n < 96 := List.mem_range.mp (List.mem_filter.mp h).1

theorem phasesIn_lt (h : n ∈ s.phasesIn g st) : n < 96 := phasesOf_lt (List.mem_filter.mp h).1

theorem length_phasesIn_le : (s.phasesIn g st).length ≤ 96 := by
  have hof : (s.phasesOf g).length ≤ (List.range 96).length := List.length_filter_le ..
  exact (List.length_filter_le ..).trans (by simpa using hof)

/-! ### A phase in a state of R130 -/

theorem phaseState_far {f : Field} {i : Nat} (hi : i < f.n1) (hj : 0 < f.n2) (haway : touchPhaseState anyPart n = touchPhaseState (awayFrom f) n) :
    (s.phaseState n st).get f i = s.get f i :=
  get_of_law (fun h => phaseState_keeps h (Keeps.refl _ s)) (touchPhaseState_all anyPart_all) hi hj haway

theorem records_phaseState : Records s (s.phaseState n st) [] :=
  records_of_law (fun h => phaseState_keeps h (Keeps.refl _ s)) (touchPhaseState_all anyPart_all) rfl

theorem phaseState_state (hn : n < 96) (hst : st < 4) : (s.phaseState n st).get PE_PH_STAT.STATE n = st := by
  rw [State.phaseState]
  dsimp only
  rw [get_put_far hn (by decide), get_put_far hn (by decide), get_put_far hn (by decide), get_put_here hn (by decide)]
  exact Nat.mod_eq_of_lt hst

theorem phaseState_else (hm : m < 96) (hne : m ≠ n) : (s.phaseState n st).get PE_PH_STAT.STATE m = s.get PE_PH_STAT.STATE m := by
  rw [State.phaseState]
  dsimp only
  rw [get_put_far hm (by decide), get_put_far hm (by decide), get_put_far hm (by decide), get_put_else hne (by decide)]

/-- An active phase shows in the map of its word. -/
theorem phaseState_act (hn : n < 96) : bit ((s.phaseState n 2).get PE_PH_ACT.ACT (n / 32)) (n % 32) = true := by
  have hw : n / 32 < 3 := by omega
  rw [State.phaseState]
  dsimp only
  rw [get_put_far hw (by decide), get_put_far hw (by decide), get_put_here hw (by decide)]
  exact bit_setBit_mod (Nat.mod_lt _ (by decide))

theorem phaseState_pins : (s.phaseState n st).pins = s.pins := by
  rw [State.phaseState]
  dsimp only
  rw [put_pins, put_pins, put_pins, put_pins]

/-! ### All phases of a list in a state -/

/-- An operation puts a phase into a state, and leaves the others and the groups alone. -/
structure PutsPhase (g : State → Nat → State) (st : Nat) : Prop where
  here : ∀ t n, n < 96 → (g t n).get PE_PH_STAT.STATE n = st
  other : ∀ t n m, m < 96 → m ≠ n → (g t n).get PE_PH_STAT.STATE m = t.get PE_PH_STAT.STATE m
  grp : ∀ t n m, m < 96 → (g t n).get PE_PH_CFG.GRP m = t.get PE_PH_CFG.GRP m

theorem putsPhase_phaseState (hst : st < 4) : PutsPhase (fun t n => t.phaseState n st) st where
  here _ _ hn := phaseState_state hn hst
  other _ _ _ hm hne := phaseState_else hm hne
  grp _ _ _ hm := phaseState_far hm (by decide) rfl

section Fold

variable {op : State → Nat → State} (hop : PutsPhase op st)
include hop

theorem foldl_phases_grp (l : List Nat) (s : State) (hm : m < 96) : (l.foldl op s).get PE_PH_CFG.GRP m = s.get PE_PH_CFG.GRP m :=
  List.foldlRecOn (motive := fun t : State => t.get PE_PH_CFG.GRP m = s.get PE_PH_CFG.GRP m) l op rfl fun t ht n _ => (hop.grp t n m hm).trans ht

theorem foldl_phases_state (l : List Nat) (s : State) (hm : m < 96) :
    (l.foldl op s).get PE_PH_STAT.STATE m = if m ∈ l then st else s.get PE_PH_STAT.STATE m := by
  induction l generalizing s with
  | nil => simp
  | cons n l ih =>
    rw [List.foldl_cons, ih]
    by_cases hl : m ∈ l
    · simp [hl]
    · by_cases hne : m = n
      · subst hne
        simp [hl, hop.here s m hm]
      · simp [hl, hne, hop.other s n m hm hne]

/-- Once every phase of a group in one state is put into another, none is left in the first. -/
theorem phasesIn_foldl_nil {from_ : Nat} (hne : st ≠ from_) (hin : s.phasesIn g from_ = l) : (l.foldl op s).phasesIn g from_ = [] := by
  refine List.eq_nil_iff_forall_not_mem.mpr fun m hm => ?_
  have hlt := phasesIn_lt hm
  simp only [State.phasesIn, State.phasesOf, List.mem_filter, beq_iff_eq] at hm
  rw [foldl_phases_grp hop _ _ hlt, foldl_phases_state hop _ _ hlt] at hm
  obtain ⟨⟨hrange, hgrp⟩, hstate⟩ := hm
  by_cases hmem : m ∈ l
  · rw [if_pos hmem] at hstate
    exact hne hstate
  · rw [if_neg hmem] at hstate
    refine hmem (hin ▸ ?_)
    simp [State.phasesIn, State.phasesOf, hrange, hgrp, hstate]

end Fold

/-! ### A group in a state of R132 -/

theorem groupState_far {f : Field} {i : Nat} (hi : i < f.n1) (hj : 0 < f.n2) (haway : touchGroupState anyPart g = touchGroupState (awayFrom f) g) :
    (s.groupState g st).get f i = s.get f i :=
  get_of_law (fun h => groupState_keeps h (Keeps.refl _ s)) (touchGroupState_all anyPart_all) hi hj haway

theorem groupRest_far {f : Field} {i : Nat} (hi : i < f.n1) (hj : 0 < f.n2) (haway : touchGroupRest anyPart g = touchGroupRest (awayFrom f) g) :
    (s.groupRest g).get f i = s.get f i :=
  get_of_law (fun h => groupRest_keeps h (Keeps.refl _ s)) (touchGroupRest_all anyPart_all) hi hj haway

theorem records_groupState : Records s (s.groupState g st) [] :=
  records_of_law (fun h => groupState_keeps h (Keeps.refl _ s)) (touchGroupState_all anyPart_all) rfl

theorem samePhases_groupState : SamePhases s (s.groupState g st) :=
  samePhases_of_law (fun h => groupState_keeps h (Keeps.refl _ s)) (touchGroupState_all anyPart_all) rfl rfl

theorem groupState_state (hg : g < 8) (hst : st < 4) : (s.groupState g st).get PE_GRP_STAT.STATE g = st := by
  rw [State.groupState]
  dsimp only
  have hmod : st % 2 ^ PE_GRP_STAT.STATE.w = st := Nat.mod_eq_of_lt hst
  split
  · rw [get_put_far hg (by decide), get_put_far hg (by decide), get_put_here hg (by decide), hmod]
  · rw [groupRest_far hg (by decide) rfl, get_put_far hg (by decide), get_put_far hg (by decide), get_put_here hg (by decide), hmod]

theorem groupState_fault (hg : g < 8) : bit ((s.groupState g 3).get PE_STAT.GRP_FAULT) g = true := by
  rw [State.groupState]
  dsimp only
  rw [if_neg (by decide), groupRest_far (by decide) (by decide) rfl, get_put_here Nat.zero_lt_one (by decide)]
  exact bit_setBit_mod hg

theorem groupGatesLow_get (f : Field) (i j : Nat) : (s.groupGatesLow g).get f i j = s.get f i j := by
  refine get_of_regs ?_ f i j
  exact List.foldlRecOn (motive := fun t : State => t.regs = s.regs) _ _ rfl fun t ht n _ => ht

theorem records_groupGatesLow : Records s (s.groupGatesLow g) [] := by
  refine List.foldlRecOn (motive := fun t : State => Records s t []) _ _ records_refl fun t ht n _ => ?_
  exact ht.sameRegs rfl rfl

/-- The phases of a list wait, and the gates of their group are low. -/
def waitLow (s : State) (g : Nat) : State := (s.phasesIn g 2).foldl (fun t n => t.phaseState n 1) (s.groupGatesLow g)

theorem waitLow_none : (waitLow s g).phasesIn g 2 = [] := by
  refine phasesIn_foldl_nil (putsPhase_phaseState (by decide)) (by decide) ?_
  exact SamePhases.phasesIn fun n _ => ⟨groupGatesLow_get .., groupGatesLow_get ..⟩

theorem records_waitLow : Records s (waitLow s g) [] := by
  refine List.foldlRecOn (motive := fun t : State => Records s t []) _ _ records_groupGatesLow fun t ht n _ => ?_
  exact ht.trans records_phaseState

/-! ### A group in FAULT (R127, R132) -/

/-- The event of a group's fault. -/
def faultCode (cause : Nat) : Nat := if cause = 2 then 0x0322 else 0x0330

theorem groupFault_of_runs (hruns : s.groupRuns g = true) : s.groupFault g cause =
    (((waitLow s g).groupState g 3).put PE_GRP_STAT.FLT_CAUSE cause g).log (faultCode cause) TRIP [g] := by
  rw [State.groupFault, if_pos hruns]
  rfl

section Fault

variable (hg : g < 8) (hruns : s.groupRuns g = true)
include hg hruns

theorem groupFault_state : (s.groupFault g cause).get PE_GRP_STAT.STATE g = 3 := by
  rw [groupFault_of_runs hruns, get_log_far hg (by decide), get_put_far hg (by decide), groupState_state hg (by decide)]

theorem groupFault_cause (hcause : cause < 8) : (s.groupFault g cause).get PE_GRP_STAT.FLT_CAUSE g = cause := by
  rw [groupFault_of_runs hruns, get_log_far hg (by decide), get_put_here hg (by decide)]
  exact Nat.mod_eq_of_lt hcause

theorem groupFault_shown : bit ((s.groupFault g cause).get PE_STAT.GRP_FAULT) g = true := by
  rw [groupFault_of_runs hruns, get_log_far Nat.zero_lt_one (by decide), get_put_far Nat.zero_lt_one (by decide), groupState_fault hg]

end Fault

theorem groupFault_none (hruns : s.groupRuns g = true) : (s.groupFault g cause).phasesIn g 2 = [] := by
  rw [groupFault_of_runs hruns]
  refine (SamePhases.phasesIn ?_).trans (waitLow_none (s := s))
  exact (samePhases_groupState.trans (samePhases_put (by decide) (by decide))).trans samePhases_log

theorem records_groupFault (hruns : s.groupRuns g = true) : Records s (s.groupFault g cause) [(faultCode cause, 5, [g])] := by
  rw [groupFault_of_runs hruns]
  exact ((records_waitLow.trans records_groupState).put (f := PE_GRP_STAT.FLT_CAUSE) (by decide)).log (by decide)

/-! ### A phase is TRIPPED (R126) -/

/-- A phase is TRIPPED, before its group learns of it. -/
def tripped (s : State) (n code : Nat) : State :=
  (((s.phaseGatesLow n).phaseState n 3).put PE_PH_STAT.FLT_CODE code n).inc PE_PH_CNT.TRIPS n

theorem phaseTrip_of_active (hact : s.get PE_PH_STAT.STATE n = 2) : s.phaseTrip n code =
    (((tripped s n code).put PE_GRP_STAT.PHLOSS_SEEN 1 (s.get PE_PH_CFG.GRP n)).groupChanged (s.get PE_PH_CFG.GRP n) true).log 0x0310 WARNING
      [n, code, s.get PE_PH_CFG.GRP n, ((tripped s n code).phasesIn (s.get PE_PH_CFG.GRP n) 2).length] := by
  rw [State.phaseTrip, if_pos (by rw [hact]; rfl)]
  rfl

theorem phaseTrip_of_not_active (hact : s.get PE_PH_STAT.STATE n ≠ 2) : s.phaseTrip n code = tripped s n code := by
  rw [State.phaseTrip, if_neg (by simpa using hact)]
  rfl

theorem groupChanged_get {loss : Bool} (f : Field) (i j : Nat) : (s.groupChanged g loss).get f i j = s.get f i j := rfl

/-- What the group learns of a loss shows in none of these fields. -/
theorem phaseTrip_far {f : Field} {i : Nat} (hi : i < k) (hlog : clearOf k f logParts = true) (hseen : far k PE_GRP_STAT.PHLOSS_SEEN f = true) :
    (s.phaseTrip n code).get f i = (tripped s n code).get f i := by
  by_cases hact : s.get PE_PH_STAT.STATE n = 2
  · rw [phaseTrip_of_active hact, get_log_far hi hlog, groupChanged_get, get_put_far hi hseen]
  · rw [phaseTrip_of_not_active hact]

theorem log_pins {sev : Nat} {pay : List Nat} : (s.log code sev pay).pins = s.pins :=
  (log_unchanged s code sev pay).pins.resolve_left (by simp [within, logParts])

theorem log_grpx {sev : Nat} {pay : List Nat} : (s.log code sev pay).grpx = s.grpx :=
  (log_unchanged s code sev pay).grpx.resolve_left (by simp [within, logParts])

theorem tripped_pins : (tripped s n code).pins = (s.phaseGatesLow n).pins := by
  rw [tripped, State.inc, put_pins, put_pins, phaseState_pins]

theorem phaseTrip_pins : (s.phaseTrip n code).pins = (s.phaseGatesLow n).pins := by
  by_cases hact : s.get PE_PH_STAT.STATE n = 2
  · rw [phaseTrip_of_active hact, log_pins]
    exact (put_pins ..).trans tripped_pins
  · rw [phaseTrip_of_not_active hact, tripped_pins]

theorem phaseGatesLow_low : bit (s.phaseGatesLow n).pins.gateH n = false ∧ bit (s.phaseGatesLow n).pins.gateL n = false :=
  ⟨bit_clrBit_self, bit_clrBit_self⟩

theorem phaseTrip_state (hn : n < 96) : (s.phaseTrip n code).get PE_PH_STAT.STATE n = 3 := by
  rw [phaseTrip_far hn (by decide) (by decide), tripped, State.inc, get_put_far hn (by decide), get_put_far hn (by decide),
    phaseState_state hn (by decide)]

theorem phaseTrip_code (hn : n < 96) (hcode : code < 16) : (s.phaseTrip n code).get PE_PH_STAT.FLT_CODE n = code := by
  rw [phaseTrip_far hn (by decide) (by decide), tripped, State.inc, get_put_far hn (by decide), get_put_here hn (by decide)]
  exact Nat.mod_eq_of_lt hcode

end Sys2Proof.Proofs
end

section
/-! PROOFS. The results of the Phase Engine's commands (R98 to R134). -/

namespace Sys2Proof.Proofs

open Sys2Proof.Machine Sys2Proof.Laws R

variable {s t : State} {g k m n st code cause v gvs pulses periods low sess : Nat} {o : CarrierObs}

/-! ### The boundary of a group's carrier (R114, R126) -/

/-- A group's number of active phases is computed again. -/
def counted (s : State) (g : Nat) : State :=
  if s.groupRuns g then s.put PE_GRP_STAT.N_ACT (s.phasesIn g 2).length g else s.put PE_GRP_STAT.N_ACT 0 g

theorem ceilings_eq : s.ceilings g =
    ((counted s g).putMax PE_GRP_CAP.CAP (((counted s g).capOf g ((counted s g).capN g)).1 / 1000000) g).put PE_GRP_CAP.CAP_SRC
      ((counted s g).capOf g ((counted s g).capN g)).2 g := rfl

theorem counted_far {f : Field} {i : Nat} (hi : i < k) (hf : far k PE_GRP_STAT.N_ACT f = true) : (counted s g).get f i = s.get f i := by
  unfold counted
  split <;> exact get_put_far hi hf

theorem ceilings_far {f : Field} {i : Nat} (hi : i < k) (hn : far k PE_GRP_STAT.N_ACT f = true) (hc : far k PE_GRP_CAP.CAP f = true)
    (hsrc : far k PE_GRP_CAP.CAP_SRC f = true) : (s.ceilings g).get f i = s.get f i := by
  rw [ceilings_eq, get_put_far hi hsrc, State.putMax, get_put_far hi hc, counted_far hi hn]

theorem ceilings_active (hg : g < 8) :
    (s.ceilings g).get PE_GRP_STAT.N_ACT g = if s.groupRuns g then (s.phasesIn g 2).length else 0 := by
  have hmod : (s.phasesIn g 2).length % 2 ^ PE_GRP_STAT.N_ACT.w = (s.phasesIn g 2).length :=
    Nat.mod_eq_of_lt (length_phasesIn_le.trans_lt (by decide))
  rw [ceilings_eq, get_put_far hg (by decide), State.putMax, get_put_far hg (by decide), counted]
  split
  · rw [get_put_here hg (by decide), hmod]
  · rw [get_put_here hg (by decide)]
    rfl

/-- The group's voltage is taken and its ceilings are computed. -/
def measured (s : State) (g v : Nat) : State := ((s.ofsSlew g).truncReport g).putMax PE_GRP_MEAS.V_GRP v g

theorem measured_far {f : Field} {i : Nat} (hi : i < f.n1) (hj : 0 < f.n2)
    (haway : touchOfsSlew anyPart g = touchOfsSlew (awayFrom f) g) (htrunc : touchTruncReport anyPart = touchTruncReport (awayFrom f))
    (hv : far f.n1 PE_GRP_MEAS.V_GRP f = true) : (measured s g v).get f i = s.get f i := by
  rw [measured, State.putMax, get_put_far hi hv,
    get_of_law (fun h => truncReport_keeps h (Keeps.refl _ _)) (touchTruncReport_all anyPart_all) hi hj htrunc,
    get_of_law (fun h => ofsSlew_keeps h (Keeps.refl _ _)) (touchOfsSlew_all anyPart_all) hi hj haway]

theorem measured_state (hg : g < 8) : (measured s g v).get PE_GRP_STAT.STATE g = s.get PE_GRP_STAT.STATE g :=
  measured_far hg (by decide) rfl rfl (by decide)

theorem samePhases_measured : SamePhases s (measured s g v) :=
  fun _ hn => ⟨measured_far hn (by decide) rfl rfl (by decide), measured_far hn (by decide) rfl rfl (by decide)⟩

theorem groupRuns_of_state (h : t.get PE_GRP_STAT.STATE g = s.get PE_GRP_STAT.STATE g) : t.groupRuns g = s.groupRuns g := by
  unfold State.groupRuns
  rw [h]

/-- The changes that a boundary finds are reported, and a manual demand is taken. -/
def reported (s : State) (g old : Nat) : State := (s.afterChange g old).demTake g

theorem reported_far {f : Field} {i old : Nat} (hi : i < f.n1) (hj : 0 < f.n2) (hchange : touchAfterChange anyPart = touchAfterChange (awayFrom f))
    (hdem : touchDemTake anyPart g = touchDemTake (awayFrom f) g) : (reported s g old).get f i = s.get f i := by
  rw [reported, get_of_law (fun h => demTake_keeps h (Keeps.refl _ _)) (touchDemTake_all anyPart_all) hi hj hdem,
    get_of_law (fun h => afterChange_keeps h (Keeps.refl _ _)) (touchAfterChange_all anyPart_all) hi hj hchange]

section Boundary

variable (hbound : s.atBoundary g = true) (hruns : s.runs 5 = true) (hg : g < 8)
include hbound hruns hg

theorem exec_groupCarrierBoundary_of_idle (hidle : s.get PE_GRP_STAT.STATE g = 0) :
    exec (.groupCarrierBoundary g v) s = .next (reported ((measured s g v).ceilings g) g (s.get PE_GRP_CAP.CAP g)) := by
  have harm : exec (.groupCarrierBoundary g v) s = execGroupCarrierBoundary g v s := rfl
  have hstate : ((measured s g v).ceilings g).get PE_GRP_STAT.STATE g = 0 := by
    rw [ceilings_far hg (by decide) (by decide) (by decide), measured_state hg, hidle]
  have hrest : ((measured s g v).ceilings g).groupRuns g = false := by simp [State.groupRuns, hstate]
  have hrest' : (reported ((measured s g v).ceilings g) g (s.get PE_GRP_CAP.CAP g)).groupRuns g = false := by
    rw [groupRuns_of_state (reported_far hg (by decide) rfl rfl), hrest]
  rw [harm, execGroupCarrierBoundary, if_pos (by simp [hbound, hg]), if_pos (by simp [hruns])]
  refine congrArg Host.Outcome.next ((if_neg ?_).trans (if_neg ?_))
  · simp only [measured] at hrest
    simp [hrest]
  · simp only [reported, measured] at hrest'
    simp [hrest']

theorem exec_groupCarrierBoundary_of_few (hrun : s.get PE_GRP_STAT.STATE g = 1)
    (hfew : (s.phasesIn g 2).length < max 1 (s.get PE_GRP_CTRL.N_MIN g)) :
    exec (.groupCarrierBoundary g v) s = .next (((measured s g v).ceilings g).groupFault g 1) := by
  have harm : exec (.groupCarrierBoundary g v) s = execGroupCarrierBoundary g v s := rfl
  have hruns' : (measured s g v).groupRuns g = true := by simp [State.groupRuns, measured_state hg, hrun]
  have hbelow : (((measured s g v).ceilings g).groupRuns g && decide (((measured s g v).ceilings g).get PE_GRP_STAT.N_ACT g <
      max 1 (((measured s g v).ceilings g).get PE_GRP_CTRL.N_MIN g))) = true := by
    rw [groupRuns_of_state (ceilings_far hg (by decide) (by decide) (by decide)), ceilings_active hg, hruns', samePhases_measured.phasesIn,
      ceilings_far hg (by decide) (by decide) (by decide), measured_far hg (by decide) rfl rfl (by decide)]
    simpa using hfew
  rw [harm, execGroupCarrierBoundary, if_pos (by simp [hbound, hg]), if_pos (by simp [hruns])]
  exact congrArg Host.Outcome.next (if_pos hbelow)

end Boundary

/-! ### The start of a phase's carrier (R108 to R110) -/

/-- A pulse starts: no overshoot, and the sensed current is below the threshold. -/
def pulseStarts (s : State) (n : Nat) (o : CarrierObs) : Bool :=
  s.get PE_GRP_STAT.OVS_STATE (s.get PE_PH_CFG.GRP n) == 0 && decide (s.senseSign n * o.sensed < ((s.carrierCode n o).1 : Int) - 2048)

/-- The on-time of a carrier. -/
def onTime (s : State) (n : Nat) (o : CarrierObs) : Nat :=
  if pulseStarts s n o then clampN (s.tonMin n) (max (s.tonMin n) (s.tonMax n)) o.ton else 0

/-- The code and the current of a carrier are shown, and its gates driven. -/
def carrierShown (s : State) (n : Nat) (o : CarrierObs) : State :=
  (((s.carrierCode n o).2.2.put PE_PH_MEAS.TH (s.carrierCode n o).1 n).putSat PE_PH_STAT.I_AVG (s.carrierCode n o).2.1 n).gatesAfter n

/-- What the phase holds after a carrier. -/
def carrierKept (s : State) (n : Nat) (o : CarrierObs) : PhX :=
  { (carrierShown s n o).checkCounts n o (if pulseStarts s n o then some (onTime s n o) else none) with
    th := (s.grp (s.get PE_PH_CFG.GRP n)).th, slope := s.get PE_GRP_PWM.SLOPE (s.get PE_PH_CFG.GRP n)
    dac := (256 * (s.carrierCode n o).1 : Int) - (s.get PE_GRP_PWM.SLOPE (s.get PE_PH_CFG.GRP n) * onTime s n o : Nat), at_ := some s.stamp }

/-- A carrier, before the count of truncated pulses. -/
def carrierRun (s : State) (n : Nat) (o : CarrierObs) : State :=
  (((carrierShown s n o).putMax PE_PH_MEAS.TON (onTime s n o) n).setPh n (carrierKept s n o)).phSlew (s.get PE_PH_CFG.GRP n) n

theorem exec_carrierStart (hcarrier : s.atCarrier (s.get TB_GRP_CAR.NCAR_ACT (s.get PE_PH_CFG.GRP n)) (s.get TB_PH_OFS_ACT.POFS_ACT n) = true)
    (hnext : s.nextCarrier n = true) (hruns : s.runs (5 + n / 48) = true) (hn : n < 96) (hact : s.get PE_PH_STAT.STATE n = 2) :
    exec (.carrierStart n o) s = .next ((carrierRun s n o).when (pulseStarts s n o && o.truncated) fun t => t.inc PE_PH_CNT.TRUNC n) := by
  have harm : exec (.carrierStart n o) s = execCarrierStart n o s := rfl
  have hruns' : s.runs (5 + portOf n) = true := hruns
  rw [harm, execCarrierStart]
  dsimp only
  rw [if_pos (by simp only [hcarrier, hnext, hruns', hn, hact]; rfl)]
  rfl

theorem when_inc_far {b : Bool} {f h : Field} {i j : Nat} (hi : i < k) (hf : far k f h = true) :
    (t.when b fun u => u.inc f j).get h i = t.get h i := by
  cases b
  · rfl
  · exact get_put_far hi hf

theorem carrierCode_regs : (s.carrierCode n o).2.2.regs = s.regs := by
  unfold State.carrierCode
  dsimp only
  split <;> split <;> rfl

theorem gatesAfter_get (f : Field) (i j : Nat) : (s.gatesAfter n).get f i j = s.get f i j := by
  unfold State.gatesAfter
  split <;> rfl

theorem phSlew_far {f : Field} {i : Nat} (hi : i < k) (hf : far k TB_PH_OFS_ACT.POFS_ACT f = true) : (s.phSlew g n).get f i = s.get f i :=
  get_put_far hi hf

theorem setPh_get {x : PhX} (f : Field) (i j : Nat) : (s.setPh n x).get f i j = s.get f i j := rfl

theorem carrierCode_of_dac (hdac : s.dacCode n (s.grp (s.get PE_PH_CFG.GRP n)).th = some 2048) : (s.carrierCode n o).1 = 2048 := by
  unfold State.carrierCode
  rw [hdac]
  dsimp only
  split <;> rfl

theorem carrierRun_th (hn : n < 96) : (carrierRun s n o).get PE_PH_MEAS.TH n = (s.carrierCode n o).1 % 2 ^ 12 := by
  rw [carrierRun, phSlew_far hn (by decide), setPh_get, State.putMax, get_put_far hn (by decide), carrierShown, gatesAfter_get, State.putSat,
    State.puti, get_put_far hn (by decide), get_put_here hn (by decide)]
  rfl

theorem carrierRun_ton (hn : n < 96) : (carrierRun s n o).get PE_PH_MEAS.TON n = min (onTime s n o) (2 ^ 16 - 1) := by
  rw [carrierRun, phSlew_far hn (by decide), setPh_get, State.putMax, get_put_here hn (by decide)]
  exact Nat.mod_eq_of_lt ((Nat.min_le_right ..).trans_lt (by decide))

theorem tonMin_pos : 0 < s.tonMin n := by
  unfold State.tonMin
  split <;> omega

theorem onTime_pos (hpulse : pulseStarts s n o = true) : 0 < onTime s n o := by
  have hpos := tonMin_pos (s := s) (n := n)
  rw [onTime, if_pos hpulse, clampN]
  split_ifs <;> omega

theorem when_inc_ph {b : Bool} {f : Field} {j : Nat} : (t.when b fun u => u.inc f j).ph n = t.ph n := by
  cases b
  · rfl
  · exact congrArg (sparseGet {} n) (put_phx ..)

theorem carrierRun_ph : (carrierRun s n o).ph n = carrierKept s n o := by
  unfold carrierRun State.phSlew State.ph
  rw [put_phx]
  exact sparseGet_sparsePut_same ..

/-! ### Leases and half-cycles (R115) -/

/-- A lease counts down at a half-cycle. -/
def leaseDown (t : State) (g : Nat) : State :=
  if t.get PE_GRP_LEASE.EXP_HC g = 0 then t else t.put PE_GRP_LEASE.EXP_HC (t.get PE_GRP_LEASE.EXP_HC g - 1) g

/-- Every lease, and a pledge, counts down, before what the ledger shows. -/
def leasesDown (s : State) : State :=
  let s1 := s.each 8 fun g t => leaseDown t g
  { s1 with sl := { s1.sl with pledgeHc := s1.sl.pledgeHc - 1 } }

theorem exec_halfCycleBoundary (hangle : s.atAngle 0 = true ∨ s.atAngle 0x800000 = true) :
    exec (.halfCycleBoundary) s = .next (leasesDown s).slSync.halfCycleAges := by
  have harm : exec (.halfCycleBoundary) s = execHalfCycleBoundary s := rfl
  rw [harm, execHalfCycleBoundary, if_pos (by simpa using hangle)]
  rfl

theorem leaseDown_here (hg : g < 8) : (leaseDown t g).get PE_GRP_LEASE.EXP_HC g = t.get PE_GRP_LEASE.EXP_HC g - 1 := by
  have hlt := get_lt t PE_GRP_LEASE.EXP_HC g 0
  unfold leaseDown
  split
  next h => omega
  next h =>
    rw [get_put_here hg (by decide)]
    exact Nat.mod_eq_of_lt (by omega)

theorem leaseDown_else (hne : m ≠ g) : (leaseDown t g).get PE_GRP_LEASE.EXP_HC m = t.get PE_GRP_LEASE.EXP_HC m := by
  unfold leaseDown
  split
  · rfl
  · exact get_put_else hne (by decide)

/-- What an operation for each index changes at an index, where each leaves the others' alone. -/
theorem each_get {op : Nat → State → State} {f : Field} {φ : Nat → Nat} (hhere : ∀ t, (op g t).get f g = φ (t.get f g))
    (hother : ∀ t, ∀ i ≠ g, (op i t).get f g = t.get f g) : (s.each k op).get f g = if g < k then φ (s.get f g) else s.get f g := by
  induction k with
  | zero => rfl
  | succ k ih =>
    have hstep : s.each (k + 1) op = op k (s.each k op) := by simp [State.each, List.range_succ]
    rw [hstep]
    rcases Nat.lt_trichotomy g k with hlt | rfl | hgt
    · rw [hother _ _ (by omega), ih, if_pos hlt, if_pos (by omega)]
    · rw [hhere, ih, if_neg (by omega), if_pos (by omega)]
    · rw [hother _ _ (by omega), ih, if_neg (by omega), if_neg (by omega)]

theorem leasesDown_lease (hg : g < 8) : (leasesDown s).get PE_GRP_LEASE.EXP_HC g = s.get PE_GRP_LEASE.EXP_HC g - 1 := by
  have heach : (s.each 8 fun g t => leaseDown t g).get PE_GRP_LEASE.EXP_HC g = if g < 8 then s.get PE_GRP_LEASE.EXP_HC g - 1 else
      s.get PE_GRP_LEASE.EXP_HC g :=
    each_get (φ := fun e => e - 1) (fun _ => leaseDown_here hg) fun _ _ hne => leaseDown_else hne.symm
  rw [if_pos hg] at heach
  exact heach

theorem leasesDown_pledge : (leasesDown s).sl.pledgeHc = s.sl.pledgeHc - 1 := by
  have hsl : (s.each 8 fun g t => leaseDown t g).sl = s.sl := by
    refine List.foldlRecOn (motive := fun t : State => t.sl = s.sl) _ _ rfl fun t ht g _ => ?_
    dsimp only [leaseDown]
    split
    · exact ht
    · rw [put_sl, ht]
  rw [leasesDown]
  dsimp only
  rw [hsl]

/-- Every part but the Share Ledger's own state. -/
def besideLedger : Part → Prop
  | .sl => False
  | _ => True

theorem ledgerShown_sl : s.slSync.halfCycleAges.sl = s.sl := by
  have hages : touchHalfCycleAges anyPart = touchHalfCycleAges besideLedger := rfl
  have hsync : touchSlSync anyPart = touchSlSync besideLedger := rfl
  have hkeeps : Keeps besideLedger s s.slSync.halfCycleAges :=
    halfCycleAges_keeps (hages ▸ touchHalfCycleAges_all anyPart_all) (slSync_keeps (hsync ▸ touchSlSync_all anyPart_all) (Keeps.refl _ s))
  exact hkeeps.same.sl.resolve_left id

theorem slSync_far {f : Field} {i : Nat} (hi : i < f.n1) (hj : 0 < f.n2) (haway : touchSlSync anyPart = touchSlSync (awayFrom f)) :
    s.slSync.get f i = s.get f i :=
  get_of_law (fun h => slSync_keeps h (Keeps.refl _ s)) (touchSlSync_all anyPart_all) hi hj haway

theorem halfCycleAges_far {f : Field} {i : Nat} (hi : i < f.n1) (hj : 0 < f.n2)
    (haway : touchHalfCycleAges anyPart = touchHalfCycleAges (awayFrom f)) : s.halfCycleAges.get f i = s.get f i :=
  get_of_law (fun h => halfCycleAges_keeps h (Keeps.refl _ s)) (touchHalfCycleAges_all anyPart_all) hi hj haway

theorem exec_leaseLapse (hg : g < 8) (hzero : s.get PE_GRP_LEASE.EXP_HC g = 0) (hset : s.get PE_GRP_LEASE.LAPSED g = 0) :
    exec (.leaseLapse g) s = .next ((s.put PE_GRP_LEASE.LAPSED 1 g).slSync.log 0x0334 INFO [g]) := by
  have harm : exec (.leaseLapse g) s = execLeaseLapse g s := rfl
  rw [harm, execLeaseLapse, if_pos (by simp [hg, hzero, State.is, hset])]

/-! ### Overshoot (R121 to R123) -/

theorem ovsActs_of_other (hst : s.get PE_GRP_STAT.OVS_STATE g ≠ st) : s.ovsActs g st = false := by
  simp [State.ovsActs, hst]

section Overshoot

variable (hg : g < 8) (hruns : s.groupRuns g = true)
include hg hruns

theorem ovsActs_of_state (hst : s.get PE_GRP_STAT.OVS_STATE g = st) : s.ovsActs g st = true := by
  simp [State.ovsActs, hg, hruns, hst]

/-- Pulses are truncated, before the group counts them. -/
def truncated (s : State) (g pulses : Nat) : State :=
  ((((s.checksClear g).truncReport g).put PE_GRP_STAT.OVS_STATE 1 g).put PE_GRP_STAT.TRUNC_SEEN 1 g).inc PE_GRP_CNT.TRUNC g 0 pulses

theorem exec_overshootTruncate (hnormal : s.get PE_GRP_STAT.OVS_STATE g = 0) (habove : s.get PE_GRP_OVS.OVS1 g < gvs)
    (hbelow : gvs < s.get PE_GRP_OVS.OVS2 g) : ∃ x, exec (.overshootTruncate g gvs pulses) s = .next ((truncated s g pulses).setGrp g x) := by
  have harm : exec (.overshootTruncate g gvs pulses) s = execOvershootTruncate g gvs pulses s := rfl
  rw [harm, execOvershootTruncate, if_pos (by simp only [ovsActs_of_state hg hruns hnormal, habove, hbelow]; rfl)]
  exact ⟨_, rfl⟩

end Overshoot

theorem setGrp_get {x : GrpX} (f : Field) (i j : Nat) : (s.setGrp g x).get f i j = s.get f i j := rfl

theorem checksClear_regs : (s.checksClear g).regs = s.regs :=
  List.foldlRecOn (motive := fun t : State => t.regs = s.regs) _ _ rfl fun _ ht _ _ => ht

theorem records_checksClear : Records s (s.checksClear g) [] := by
  refine List.foldlRecOn (motive := fun t : State => Records s t []) _ _ records_refl fun t ht n _ => ?_
  exact ht.sameRegs rfl rfl

theorem brake_state (hg : g < 8) : (s.brake g).get PE_GRP_STAT.OVS_STATE g = 2 ∧ (s.brake g).get PE_GRP_STAT.BRK_SEEN g = 1 := by
  rw [State.brake, State.inc, get_put_far hg (by decide), get_put_far hg (by decide), get_put_here hg (by decide), get_put_far hg (by decide),
    get_put_here hg (by decide)]
  exact ⟨rfl, rfl⟩

theorem brakeLogged_state (hg : g < 8) : ((s.brake g).log 0x0321 WARNING [g]).get PE_GRP_STAT.OVS_STATE g = 2 ∧
    ((s.brake g).log 0x0321 WARNING [g]).get PE_GRP_STAT.BRK_SEEN g = 1 := by
  rw [get_log_far hg (by decide), get_log_far hg (by decide)]
  exact brake_state hg

theorem records_brakeLogged : Records s ((s.brake g).log 0x0321 WARNING [g]) [(0x0321, 3, [g])] := by
  have hbrake : Records s (s.brake g) [] := (records_checksClear.trans records_groupGatesLow) |>.put (f := PE_GRP_STAT.OVS_STATE) (by decide)
    |>.put (f := PE_GRP_STAT.BRK_SEEN) (by decide) |>.put (by decide)
  exact hbrake.log (by decide)

section Acts

variable (hg : g < 8) (hruns : s.groupRuns g = true)
include hg hruns

theorem exec_overshootBrake_of_normal (hst : s.get PE_GRP_STAT.OVS_STATE g = 0) (habove : s.get PE_GRP_OVS.OVS2 g ≤ gvs) :
    exec (.overshootBrake g gvs) s = .next (s.brake g) := by
  have harm : exec (.overshootBrake g gvs) s = execOvershootBrake g gvs s := rfl
  rw [harm, execOvershootBrake, if_pos (decide_eq_true habove), if_pos (ovsActs_of_state hg hruns hst)]

theorem exec_overshootBrake_of_truncate (hst : s.get PE_GRP_STAT.OVS_STATE g = 1) (habove : s.get PE_GRP_OVS.OVS2 g ≤ gvs) :
    exec (.overshootBrake g gvs) s = .next ((s.brake g).log 0x0321 WARNING [g]) := by
  have harm : exec (.overshootBrake g gvs) s = execOvershootBrake g gvs s := rfl
  have hnot : s.ovsActs g 0 = false := ovsActs_of_other (by omega)
  rw [harm, execOvershootBrake, if_pos (decide_eq_true habove), if_neg (by simp [hnot]), if_pos (ovsActs_of_state hg hruns hst)]

theorem exec_truncateTimeout (hst : s.get PE_GRP_STAT.OVS_STATE g = 1) (hlong : 2 ≤ periods) :
    exec (.truncateTimeout g periods) s = .next ((s.brake g).log 0x0321 WARNING [g]) := by
  have harm : exec (.truncateTimeout g periods) s = execTruncateTimeout g periods s := rfl
  rw [harm, execTruncateTimeout, if_pos (by simp [ovsActs_of_state hg hruns hst, hlong])]

theorem exec_truncateRelease_of_below (hst : s.get PE_GRP_STAT.OVS_STATE g = 1) (hone : gvs ≤ s.get PE_GRP_OVS.OVS1 g)
    (htwo : gvs < s.get PE_GRP_OVS.OVS2 g) : exec (.truncateRelease g gvs) s = .next (s.put PE_GRP_STAT.OVS_STATE 0 g) := by
  have harm : exec (.truncateRelease g gvs) s = execTruncateRelease g gvs s := rfl
  rw [harm, execTruncateRelease, if_pos (by simp [ovsActs_of_state hg hruns hst, hone]), if_neg (by omega)]

theorem exec_truncateRelease_of_above (hst : s.get PE_GRP_STAT.OVS_STATE g = 1) (hone : gvs ≤ s.get PE_GRP_OVS.OVS1 g)
    (htwo : s.get PE_GRP_OVS.OVS2 g ≤ gvs) : exec (.truncateRelease g gvs) s = .next ((s.brake g).log 0x0321 WARNING [g]) := by
  have harm : exec (.truncateRelease g gvs) s = execTruncateRelease g gvs s := rfl
  rw [harm, execTruncateRelease, if_pos (by simp [ovsActs_of_state hg hruns hst, hone]), if_pos htwo]

theorem exec_brakeRelease (hst : s.get PE_GRP_STAT.OVS_STATE g = 2) (hbelow : gvs < s.get PE_GRP_OVR.OVR g) :
    exec (.brakeRelease g gvs) s = .next (s.put PE_GRP_STAT.OVS_STATE 0 g) := by
  have harm : exec (.brakeRelease g gvs) s = execBrakeRelease g gvs s := rfl
  rw [harm, execBrakeRelease, if_pos (by simp [ovsActs_of_state hg hruns hst, hbelow])]

theorem exec_brakingTimeout {hc : Nat} (hst : s.get PE_GRP_STAT.OVS_STATE g = 2) (hlong : max 1 (s.get PE_GRP_OVR.BRK_MAX g) ≤ hc) :
    exec (.brakingTimeout g hc) s = .next (s.groupFault g 2) := by
  have harm : exec (.brakingTimeout g hc) s = execBrakingTimeout g hc s := rfl
  rw [harm, execBrakingTimeout, if_pos (by simp only [ovsActs_of_state hg hruns hst, hlong]; rfl)]

end Acts

/-! ### Faults of a phase (R124, R128, R129) -/

theorem exec_phaseCheckFail (hn : n < 96) (hact : s.get PE_PH_STAT.STATE n = 2) (hdone : s.checkDone n = some code) :
    exec (.phaseCheckFail n) s = .next (s.phaseTrip n code) := by
  have harm : exec (.phaseCheckFail n) s = execPhaseCheckFail n s := rfl
  rw [harm, execPhaseCheckFail, if_pos (by simp [hn, hact]), hdone]

theorem checkDone_lt (hdone : s.checkDone n = some code) : code < 16 := by
  unfold State.checkDone at hdone
  dsimp only at hdone
  split_ifs at hdone <;> simp only [Option.some.injEq] at hdone <;> omega

/-- The input of a driver fault shows, with its event. -/
def driverFaulted (s : State) (n : Nat) : State := (s.put PE_PH_STAT.FLT_IN 1 n).log 0x0311 FAULT [n, s.get PE_PH_CFG.GRP n]

theorem driverFaulted_far {f : Field} {i : Nat} (hi : i < k) (hlog : clearOf k f logParts = true) (hin : far k PE_PH_STAT.FLT_IN f = true) :
    (driverFaulted s n).get f i = s.get f i := by
  rw [driverFaulted, get_log_far hi hlog, get_put_far hi hin]

theorem tripped_far {f : Field} {i : Nat} (hi : i < f.n1) (hj : 0 < f.n2) (haway : touchPhaseTrip anyPart n = touchPhaseTrip (awayFrom f) n) :
    (s.phaseTrip n code).get f i = s.get f i :=
  get_of_law (fun h => phaseTrip_keeps h (Keeps.refl _ s)) (touchPhaseTrip_all anyPart_all) hi hj haway

theorem get_grp_lt (i : Nat) : s.get PE_PH_CFG.GRP i < 8 := get_lt s PE_PH_CFG.GRP i 0

theorem exec_driverFault (hn : n < 96) (hst : s.get PE_PH_STAT.STATE n = 1 ∨ s.get PE_PH_STAT.STATE n = 2)
    (hlow : s.get PE_CTRL.FLT_FILT ≤ low) (hact : s.get PE_GRP_CTRL.FLT_ACT (s.get PE_PH_CFG.GRP n) = 0) :
    exec (.driverFault n low) s = .next ((driverFaulted s n).phaseTrip n 5) := by
  have harm : exec (.driverFault n low) s = execDriverFault n low s := rfl
  have hst' : (s.get PE_PH_STAT.STATE n == 1 || s.get PE_PH_STAT.STATE n == 2) = true := by simpa using hst
  have hkeep : ((driverFaulted s n).phaseTrip n 5).get PE_GRP_CTRL.FLT_ACT (s.get PE_PH_CFG.GRP n) = 0 := by
    rw [tripped_far (get_grp_lt n) (by decide) rfl, driverFaulted_far (get_grp_lt n) (by decide) (by decide), hact]
  rw [harm, execDriverFault]
  dsimp only
  rw [if_pos (by simp only [hn, hst', hlow]; rfl)]
  unfold driverFaulted at hkeep
  rw [hkeep]
  rfl

theorem exec_phaseImbalance {diff : Int} (hn : n < 96) (hact : s.get PE_PH_STAT.STATE n = 2)
    (hlarge : s.get PE_DIAG.IMBAL * s.get PE_GRP_RATING.I_PH_MAX (s.get PE_PH_CFG.GRP n) < diff.natAbs * 100) :
    exec (.phaseImbalance n diff) s = .next (s.log 0x0335 WARNING [s.get PE_PH_CFG.GRP n, n]) := by
  have harm : exec (.phaseImbalance n diff) s = execPhaseImbalance n diff s := rfl
  rw [harm, execPhaseImbalance, if_pos (by simp [hn, hact, hlarge])]

/-! ### Phases on and off (R130) -/

/-- A phase is enabled and waits. -/
def enabled (s : State) (n : Nat) : State :=
  (((s.put PE_PH_CFG.EN 1 n).putb PE_PH_STAT.FLT_IN false n).phaseState n 1).put PE_PH_STAT.FLT_CODE 0 n

theorem exec_phaseEnable (hn : n < 96) (hmay : s.writeStatus sess PE_PH_CFG.EN n = 0) (hoff : s.get PE_PH_STAT.STATE n = 0)
    (hrun : s.inRun = true) (hhold : s.is PWR_HOLDUP.HOLDUP_OK = true) (hsupply : s.gateSupply (n / 48) = true)
    (hsafe : s.get SAF_STAT.ACTIVE = 0) (hrecal : bit s.upd.recal (n / 48) = false) :
    exec (.phaseEnable sess n false) s = .next ((enabled s n).groupCfg (s.get PE_PH_CFG.GRP n)) := by
  have harm : exec (.phaseEnable sess n false) s = execPhaseEnable sess n false s := rfl
  rw [harm, execPhaseEnable, guarded_of_writeStatus_zero _ hmay, State.phaseEnable, if_pos]
  · rfl
  · have hidle : s.is SAF_STAT.ACTIVE = false := by simp [State.is, hsafe]
    simp only [portOf, hn, hoff, hrun, hhold, hsupply, hrecal, hidle]
    rfl

theorem groupCfg_far {f : Field} {i : Nat} (hi : i < k) (hf : far k PE_GRP_STAT.N_CFG f = true) : (s.groupCfg g).get f i = s.get f i :=
  get_put_far hi hf

theorem samePhases_groupCfg : SamePhases s (s.groupCfg g) := samePhases_put (by decide) (by decide)

/-- A phase is disabled; its group learns of the loss of an active one. -/
def disabled (s : State) (n : Nat) : State :=
  (s.phaseOff n).when (s.get PE_PH_STAT.STATE n == 2) fun t => t.groupChanged (s.get PE_PH_CFG.GRP n) true

theorem exec_phaseDisable (hn : n < 96) (hmay : s.writeStatus sess PE_PH_CFG.EN n = 0) :
    exec (.phaseDisable sess n) s = .next ((disabled s n).groupCfg (s.get PE_PH_CFG.GRP n)) := by
  have harm : exec (.phaseDisable sess n) s = execPhaseDisable sess n s := rfl
  rw [harm, execPhaseDisable, guarded_of_writeStatus_zero _ hmay, State.phaseDisable, if_neg (by omega)]
  rfl

theorem disabled_regs : (disabled s n).regs = (s.phaseOff n).regs := by
  unfold disabled State.when
  split <;> rfl

theorem disabled_pins : (disabled s n).pins = (s.phaseGatesLow n).pins := by
  have hoff : (s.phaseOff n).pins = (s.phaseGatesLow n).pins := by rw [State.phaseOff, put_pins, phaseState_pins]
  unfold disabled State.when
  split <;> exact hoff

theorem exec_phaseJoin (hn : n < 96) (hangle : s.atAngle 0 = true) (hwait : s.get PE_PH_STAT.STATE n = 1)
    (hruns : s.groupRuns (s.get PE_PH_CFG.GRP n) = true) (hlock : s.is TB_STAT.DLL_LOCK = true) (hsupply : s.gateSupply (n / 48) = true) :
    exec (.phaseJoin n) s = .next ((s.phaseActive n).groupChanged (s.get PE_PH_CFG.GRP n) false) := by
  have harm : exec (.phaseJoin n) s = execPhaseJoin n s := rfl
  rw [harm, execPhaseJoin, if_pos]
  simp only [portOf, hn, hangle, hwait, hruns, hlock, hsupply]
  rfl

theorem groupChanged_changed {loss : Bool} : ((s.groupChanged g loss).grp g).changed = true := by
  rw [State.groupChanged, State.grp]
  exact congrArg GrpX.changed (sparseGet_sparsePut_same ..)

theorem putsPhase_phaseActive : PutsPhase State.phaseActive 2 where
  here _ _ hn := phaseState_state hn (by decide)
  other _ _ _ hm hne := phaseState_else hm hne
  grp _ _ _ hm := phaseState_far hm (by decide) rfl

/-! ### Groups on and off (R131, R132) -/

theorem exec_groupEnable (hmay : s.writeStatus sess PE_GRP_CTRL.EN = 0) : exec (.groupEnable sess g) s = .next (s.groupEnable g) := by
  have harm : exec (.groupEnable sess g) s = execGroupEnable sess g s := rfl
  rw [harm, execGroupEnable, guarded_of_writeStatus_zero _ hmay]

theorem groupEnable_en (hg : g < 8) : (s.groupEnable g).get PE_GRP_CTRL.EN g = 1 := by
  have hput : (s.put PE_GRP_CTRL.EN 1 g).get PE_GRP_CTRL.EN g = 1 := get_put_here hg (by decide)
  rw [State.groupEnable, if_neg (by omega)]
  dsimp only
  split
  · rw [State.putb, get_put_far hg (by decide), hput]
  · exact hput

theorem groupEnable_of_not_idle (hg : g < 8) (hst : s.get PE_GRP_STAT.STATE g ≠ 0) : s.groupEnable g = s.put PE_GRP_CTRL.EN 1 g := by
  rw [State.groupEnable, if_neg (by omega)]
  dsimp only
  rw [if_neg]
  rwa [get_put_far hg (by decide)]

/-- Every waiting phase of a group is active. -/
def joined (s : State) (g : Nat) : State := (s.phasesIn g 1).foldl State.phaseActive s

/-- A group runs, before its event. -/
def started (s : State) (g : Nat) : State :=
  ((((((joined s g).setGrp g ((joined s g).grp g).started).groupState g 1).put PE_GRP_STAT.N_ACT ((joined s g).phasesIn g 2).length g).put
    PE_GRP_STAT.FLT_CAUSE 0 g).put PE_GRP_STAT.START_BLK 0 g).groupCfg g

section Start

variable (hg : g < 8) (hangle : s.atAngle 0 = true) (hidle : s.get PE_GRP_STAT.STATE g = 0) (hen : s.is PE_GRP_CTRL.EN g = true)
include hg hangle hidle hen

theorem exec_groupStart (hok : s.startOk g = true) :
    exec (.groupStart g) s = .next ((started s g).log 0x0301 NOTICE [g, ((joined s g).phasesIn g 2).length]) := by
  have harm : exec (.groupStart g) s = execGroupStart g s := rfl
  rw [harm, execGroupStart, if_pos (by simp only [hg, hangle, hidle, hen]; rfl), if_pos hok]
  rfl

theorem exec_groupStart_of_not_ok (hok : s.startOk g = false) : exec (.groupStart g) s = .next (s.put PE_GRP_STAT.START_BLK 1 g) := by
  have harm : exec (.groupStart g) s = execGroupStart g s := rfl
  rw [harm, execGroupStart, if_pos (by simp only [hg, hangle, hidle, hen]; rfl), if_neg (by simp [hok])]

end Start

theorem samePhases_started : SamePhases (joined s g) (started s g) :=
  (((((samePhases_of_regs (t := (joined s g).setGrp g ((joined s g).grp g).started) rfl).trans samePhases_groupState).trans
    (samePhases_put (by decide) (by decide))).trans (samePhases_put (by decide) (by decide))).trans
    (samePhases_put (by decide) (by decide))).trans samePhases_groupCfg

theorem joined_none : (joined s g).phasesIn g 1 = [] := phasesIn_foldl_nil putsPhase_phaseActive (by decide) rfl

theorem exec_groupDisable (hmay : s.writeStatus sess PE_GRP_CTRL.EN = 0) : exec (.groupDisable sess g) s = .next (s.groupDisable g) := by
  have harm : exec (.groupDisable sess g) s = execGroupDisable sess g s := rfl
  rw [harm, execGroupDisable, guarded_of_writeStatus_zero _ hmay]

/-- A group is no longer enabled. -/
def unwanted (s : State) (g : Nat) : State := (s.put PE_GRP_CTRL.EN 0 g).put PE_GRP_STAT.START_BLK 0 g

theorem unwanted_state (hg : g < 8) : (unwanted s g).get PE_GRP_STAT.STATE g = s.get PE_GRP_STAT.STATE g := by
  rw [unwanted, get_put_far hg (by decide), get_put_far hg (by decide)]

section Disable

variable (hg : g < 8)
include hg

theorem groupDisable_of_run (h : s.get PE_GRP_STAT.STATE g = 1) : s.groupDisable g = (unwanted s g).groupRampdown g := by
  have hstate := (unwanted_state (s := s) hg).trans h
  unfold unwanted at hstate
  rw [State.groupDisable, if_neg (by omega)]
  simp only [hstate]
  rfl

theorem groupDisable_of_fault (h : s.get PE_GRP_STAT.STATE g = 3) : s.groupDisable g = (unwanted s g).groupState g 0 := by
  have hstate := (unwanted_state (s := s) hg).trans h
  unfold unwanted at hstate
  rw [State.groupDisable, if_neg (by omega)]
  simp only [hstate]
  rfl

theorem groupDisable_of_other (h1 : s.get PE_GRP_STAT.STATE g ≠ 1) (h3 : s.get PE_GRP_STAT.STATE g ≠ 3) : s.groupDisable g = unwanted s g := by
  have hstate := unwanted_state (s := s) hg
  unfold unwanted at hstate
  rw [State.groupDisable, if_neg (by omega)]
  dsimp only
  rw [hstate]
  split
  next h => exact absurd h h1
  next h => exact absurd h h3
  next => rfl

end Disable

theorem groupRampdown_far {f : Field} {i : Nat} (hi : i < f.n1) (hj : 0 < f.n2) (haway : touchGroupState anyPart g = touchGroupState (awayFrom f) g) :
    (s.groupRampdown g).get f i = s.get f i := by
  rw [State.groupRampdown, groupState_far hi hj haway]
  rfl

theorem groupRampdown_state (hg : g < 8) : (s.groupRampdown g).get PE_GRP_STAT.STATE g = 2 := groupState_state hg (by decide)

theorem records_groupRampdown : Records s (s.groupRampdown g) [] :=
  (records_refl.sameRegs (u := s.setGrp g { s.grp g with rampD0 := (s.grp g).d, rampPs := 0 }) rfl rfl).trans records_groupState

theorem groupDisable_far {f : Field} (hg : g < 8) (hi : g < f.n1) (hj : 0 < f.n2)
    (haway : touchGroupState anyPart g = touchGroupState (awayFrom f) g) : (s.groupDisable g).get f g = (unwanted s g).get f g := by
  by_cases h1 : s.get PE_GRP_STAT.STATE g = 1
  · rw [groupDisable_of_run hg h1, groupRampdown_far hi hj haway]
  · by_cases h3 : s.get PE_GRP_STAT.STATE g = 3
    · rw [groupDisable_of_fault hg h3, groupState_far hi hj haway]
    · rw [groupDisable_of_other hg h1 h3]

theorem exec_rampdownComplete (hg : g < 8) (hdown : s.get PE_GRP_STAT.STATE g = 2) (hzero : (s.grp g).d = 0) (hnear : s.groupNearZero g = true) :
    exec (.rampdownComplete g) s = .next ((((waitLow s g).groupState g 0).put PE_GRP_STAT.N_ACT 0 g).log 0x0302 INFO [g]) := by
  have harm : exec (.rampdownComplete g) s = execRampdownComplete g s := rfl
  rw [harm, execRampdownComplete, if_pos (by simp only [hg, hdown, hzero, hnear]; rfl)]
  rfl

theorem exec_demandWatchdog (hg : g < 8) (hrun : s.get PE_GRP_STAT.STATE g = 1) (hsrc : s.get PE_GRP_CTRL.DEM_SRC g ≠ 1)
    (hage : max 2 (s.get PE_CTRL.DEM_TMO) ≤ (s.grp g).demAge) : exec (.demandWatchdog g) s =
    .next ((((s.groupRampdown g).put PE_GRP_CTRL.EN 0 g).put PE_GRP_STAT.WDOG_SEEN 1 g).log 0x0331 WARNING [g]) := by
  have harm : exec (.demandWatchdog g) s = execDemandWatchdog g s := rfl
  have hsrc' : (s.get PE_GRP_CTRL.DEM_SRC g != 1) = true := by simpa using hsrc
  rw [harm, execDemandWatchdog, if_pos (by simp only [hg, hrun, hsrc', hage]; rfl)]

/-! ### Re-spacing (R118, R119) -/

/-- The automatic offsets of a group are written. -/
def spaced (s : State) (g : Nat) : State :=
  (s.phasesIn g 2).foldl (fun t n => t.put TB_PH_OFS.POFS
    ((2 * (t.rankOf (s.phasesIn g 2) n) * 2 ^ 20 + (s.phasesIn g 2).length) / (2 * (s.phasesIn g 2).length) % 2 ^ 20) n) s

/-- The automatic offsets are written, and no re-spacing of the group waits. -/
def respaced (s : State) (g : Nat) : State := { spaced s g with tb := { (spaced s g).tb with respace := clrBit (spaced s g).tb.respace g } }

theorem exec_respaceCommit (hdue : s.respaceDue g = true) (hbound : s.atBoundary g = true) : exec (.respaceCommit g) s =
    .next (((respaced s g).ofsTake g).log 0x0333 INFO [g, (s.phasesIn g 2).length, 0]) := by
  have harm : exec (.respaceCommit g) s = execRespaceCommit g s := rfl
  rw [harm, execRespaceCommit, if_pos (by simp only [hdue, hbound]; rfl)]
  rfl

theorem spaced_far {f : Field} {i : Nat} (hi : i < k) (hf : far k TB_PH_OFS.POFS f = true) : (spaced s g).get f i = s.get f i :=
  List.foldlRecOn (motive := fun t : State => t.get f i = s.get f i) _ _ rfl fun _ ht _ _ => (get_put_far hi hf).trans ht

theorem records_spaced : Records s (spaced s g) [] :=
  List.foldlRecOn (motive := fun t : State => Records s t []) _ _ records_refl fun _ ht _ _ => ht.put (by decide)

theorem ofsTake_respace : (s.ofsTake g).tb.respace = s.tb.respace := by
  unfold State.ofsTake
  exact List.foldlRecOn (motive := fun t : State => t.tb.respace = s.tb.respace) _ _ rfl fun t ht _ _ => ht

theorem records_ofsTake : Records s (s.ofsTake g) [] :=
  records_of_law (fun h => ofsTake_keeps h (Keeps.refl _ s)) (touchOfsTake_all anyPart_all) rfl

end Sys2Proof.Proofs
end

section
/-! PROOFS. The results of the Phase Engine's commands, settled. -/

namespace Sys2Proof.Proofs

open Sys2Proof.Machine Sys2Proof.Laws R

/-- Settles O8: each command's next state, and what its fields read there. -/
theorem phaseResults : Obligations.PhaseResults := by
  unfold Obligations.PhaseResults
  refine ⟨?_, ?_, ?_, ?_, ?_, ?_, ?_, ?_, ?_, ?_, ?_, ?_, ?_, ?_, ?_, ?_, ?_, ?_, ?_, ?_, ?_, ?_, ?_, ?_, ?_, ?_⟩
  · intro s g v hbound hruns hg hidle
    refine ⟨_, exec_groupCarrierBoundary_of_idle hbound hruns hg hidle, ?_, ?_, ?_⟩
    · rw [reported_far hg (by decide) rfl rfl, ceilings_far hg (by decide) (by decide) (by decide), measured, State.putMax, get_put_here hg (by decide)]
      exact Nat.mod_eq_of_lt ((Nat.min_le_right ..).trans_lt (by decide))
    · rw [reported_far hg (by decide) rfl rfl, ceilings_active hg, if_neg]
      simp [State.groupRuns, measured_state hg, hidle]
    · rw [reported_far hg (by decide) rfl rfl, ceilings_far hg (by decide) (by decide) (by decide), measured_state hg, hidle]
  · intro s g v hbound hruns hg hrun hfew
    have hruns' : ((measured s g v).ceilings g).groupRuns g = true := by
      rw [groupRuns_of_state (ceilings_far hg (by decide) (by decide) (by decide))]
      simp [State.groupRuns, measured_state hg, hrun]
    exact ⟨_, exec_groupCarrierBoundary_of_few hbound hruns hg hrun hfew, groupFault_state hg hruns', groupFault_cause hg hruns' (by decide),
      groupFault_shown hg hruns'⟩
  · intro s n o hcarrier hnext hruns hn hact hovs _ hdac hsense htrunc
    have hcode := carrierCode_of_dac (o := o) hdac
    have hpulse : pulseStarts s n o = true := by
      simp only [pulseStarts, hovs, hcode]
      simpa using hsense
    refine ⟨_, exec_carrierStart hcarrier hnext hruns hn hact, ?_, ?_, ?_, ?_⟩
    · rw [when_inc_far hn (by decide), carrierRun_th hn, hcode]
      rfl
    · have hpos := onTime_pos hpulse
      rw [when_inc_far hn (by decide), carrierRun_ton hn]
      omega
    · rw [when_inc_ph, carrierRun_ph]
      rfl
    · rw [when_inc_ph, carrierRun_ph]
      rfl
  · intro s n o hcarrier hnext hruns hn hact hovs hdac hsense
    have hcode := carrierCode_of_dac (o := o) hdac
    have hpulse : pulseStarts s n o = false := by
      simp only [pulseStarts, hovs, hcode]
      simpa using hsense
    refine ⟨_, exec_carrierStart hcarrier hnext hruns hn hact, ?_⟩
    rw [when_inc_far hn (by decide), carrierRun_ton hn, onTime, if_neg (by simp [hpulse])]
    rfl
  · intro s g hg hangle
    refine ⟨_, exec_halfCycleBoundary hangle, ?_, ?_⟩
    · rw [halfCycleAges_far hg (by decide) rfl, slSync_far hg (by decide) rfl, leasesDown_lease hg]
    · rw [ledgerShown_sl, leasesDown_pledge]
  · intro s g hg hzero hset
    have hbefore : Records s (s.put PE_GRP_LEASE.LAPSED 1 g).slSync [] := (records_refl.put (f := PE_GRP_LEASE.LAPSED) (by decide)).trans
      (records_of_law (fun h => slSync_keeps h (Keeps.refl _ _)) (touchSlSync_all anyPart_all) rfl)
    refine ⟨_, exec_leaseLapse hg hzero hset, ?_, (hbefore.log (by decide)).logged⟩
    rw [get_log_far hg (by decide), slSync_far hg (by decide) rfl, get_put_here hg (by decide)]
    rfl
  · intro s g gvs pulses hg hruns hnormal habove hbelow
    obtain ⟨x, hexec⟩ := exec_overshootTruncate (pulses := pulses) hg hruns hnormal habove hbelow
    refine ⟨_, hexec, ?_, ?_⟩
    · rw [setGrp_get, truncated, State.inc, get_put_far hg (by decide), get_put_far hg (by decide), get_put_here hg (by decide)]
      rfl
    · rw [setGrp_get, truncated, State.inc, get_put_far hg (by decide), get_put_here hg (by decide)]
      rfl
  · intro s g gvs hg hruns hst habove
    rcases hst with hst | hst
    · exact ⟨_, exec_overshootBrake_of_normal hg hruns hst habove, brake_state hg⟩
    · exact ⟨_, exec_overshootBrake_of_truncate hg hruns hst habove, brakeLogged_state hg⟩
  · intro s g periods hg hruns hst hlong
    have hstate := brakeLogged_state (s := s) hg
    exact ⟨_, exec_truncateTimeout hg hruns hst hlong, hstate.1, hstate.2, records_brakeLogged.logged⟩
  · intro s g gvs hg hruns hst hone htwo
    exact exec_truncateRelease_of_below hg hruns hst hone htwo
  · intro s g gvs hg hruns hst hone htwo
    have hstate := brakeLogged_state (s := s) hg
    exact ⟨_, exec_truncateRelease_of_above hg hruns hst hone htwo, hstate.1, hstate.2, records_brakeLogged.logged⟩
  · intro s g gvs hg hruns hst hbelow
    exact exec_brakeRelease hg hruns hst hbelow
  · intro s g hc hg hruns hst hlong
    exact ⟨_, exec_brakingTimeout hg hruns hst hlong, groupFault_state hg hruns, groupFault_cause hg hruns (by decide), groupFault_none hruns,
      (records_groupFault hruns).logged⟩
  · intro s n code hn hact hdone
    refine ⟨_, exec_phaseCheckFail hn hact hdone, phaseTrip_state hn, phaseTrip_code hn (checkDone_lt hdone), ?_, ?_⟩
    · rw [phaseTrip_of_active hact, get_log_far (get_grp_lt n) (by decide), groupChanged_get, get_put_here (get_grp_lt n) (by decide)]
      rfl
    · rw [phaseTrip_pins]
      exact phaseGatesLow_low
  · intro s n low hn hst hlow hact
    refine ⟨_, exec_driverFault hn hst hlow hact, phaseTrip_state hn, phaseTrip_code hn (by decide), ?_, ?_⟩
    · rw [tripped_far hn (by decide) rfl, driverFaulted, get_log_far hn (by decide), get_put_here hn (by decide)]
      rfl
    · rw [phaseTrip_pins]
      exact phaseGatesLow_low
  · intro s n diff hn hact hlarge
    exact ⟨_, exec_phaseImbalance hn hact hlarge, (records_log (by decide)).logged, rfl⟩
  · intro s sess n hn hmay hoff hrun hhold hsupply hsafe hrecal
    refine ⟨_, exec_phaseEnable hn hmay hoff hrun hhold hsupply hsafe hrecal, ?_, ?_, ?_⟩
    · rw [groupCfg_far hn (by decide), enabled, get_put_far hn (by decide), phaseState_far hn (by decide) rfl, State.putb,
        get_put_far hn (by decide), get_put_here hn (by decide)]
      rfl
    · rw [groupCfg_far hn (by decide), enabled, get_put_far hn (by decide), phaseState_state hn (by decide)]
    · rw [groupCfg_far hn (by decide), enabled, get_put_here hn (by decide)]
      rfl
  · intro s sess n hn hmay
    refine ⟨_, exec_phaseDisable hn hmay, ?_, ?_, ?_⟩
    · rw [groupCfg_far hn (by decide), get_of_regs disabled_regs, State.phaseOff, get_put_here hn (by decide)]
      rfl
    · rw [groupCfg_far hn (by decide), get_of_regs disabled_regs, State.phaseOff, get_put_far hn (by decide), phaseState_state hn (by decide)]
    · rw [State.groupCfg, put_pins, disabled_pins]
      exact phaseGatesLow_low
  · intro s n hn hangle hwait hruns hlock hsupply
    refine ⟨_, exec_phaseJoin hn hangle hwait hruns hlock hsupply, ?_, ?_, groupChanged_changed⟩
    · rw [groupChanged_get, State.phaseActive, phaseState_state hn (by decide)]
    · rw [groupChanged_get, State.phaseActive]
      exact phaseState_act hn
  · intro s sess g hg hmay
    exact ⟨_, exec_groupEnable hmay, groupEnable_en hg, groupEnable_of_not_idle hg⟩
  · intro s g hg hangle hidle hen hok
    have hsame : SamePhases (joined s g) ((started s g).log 0x0301 NOTICE [g, ((joined s g).phasesIn g 2).length]) :=
      samePhases_started.trans samePhases_log
    refine ⟨_, exec_groupStart hg hangle hidle hen hok, ?_, ?_, ?_, ?_, ?_⟩
    · rw [get_log_far hg (by decide), started, groupCfg_far hg (by decide), get_put_far hg (by decide), get_put_far hg (by decide),
        get_put_far hg (by decide), groupState_state hg (by decide)]
    · rw [hsame.phasesIn, get_log_far hg (by decide), started, groupCfg_far hg (by decide), get_put_far hg (by decide),
        get_put_far hg (by decide), get_put_here hg (by decide)]
      exact Nat.mod_eq_of_lt (length_phasesIn_le.trans_lt (by decide))
    · rw [hsame.phasesIn, joined_none]
    · rw [get_log_far hg (by decide), started, groupCfg_far hg (by decide), get_put_far hg (by decide), get_put_here hg (by decide)]
      rfl
    · rw [get_log_far hg (by decide), started, groupCfg_far hg (by decide), get_put_here hg (by decide)]
      rfl
  · intro s g hg hangle hidle hen hok
    exact exec_groupStart_of_not_ok hg hangle hidle hen hok
  · intro s sess g hg hmay
    refine ⟨_, exec_groupDisable hmay, ?_, ?_, fun hrun => ?_, fun hfault => ?_⟩
    · rw [groupDisable_far hg hg (by decide) rfl, unwanted, get_put_far hg (by decide), get_put_here hg (by decide)]
      rfl
    · rw [groupDisable_far hg hg (by decide) rfl, unwanted, get_put_here hg (by decide)]
      rfl
    · rw [groupDisable_of_run hg hrun, groupRampdown_state hg]
    · rw [groupDisable_of_fault hg hfault, groupState_state hg (by decide)]
  · intro s g hg hdown hzero hnear
    refine ⟨_, exec_rampdownComplete hg hdown hzero hnear, ?_, ?_, ?_, ?_⟩
    · rw [get_log_far hg (by decide), get_put_far hg (by decide), groupState_state hg (by decide)]
    · rw [get_log_far hg (by decide), get_put_here hg (by decide)]
      rfl
    · refine (SamePhases.phasesIn ?_).trans (waitLow_none (s := s))
      exact (samePhases_groupState.trans (samePhases_put (by decide) (by decide))).trans samePhases_log
    · exact (((records_waitLow.trans records_groupState).put (f := PE_GRP_STAT.N_ACT) (by decide)).log (by decide)).logged
  · intro s g hg hrun hsrc hage
    refine ⟨_, exec_demandWatchdog hg hrun hsrc hage, ?_, ?_, ?_, ?_⟩
    · rw [get_log_far hg (by decide), get_put_far hg (by decide), get_put_far hg (by decide), groupRampdown_state hg]
    · rw [get_log_far hg (by decide), get_put_far hg (by decide), get_put_here hg (by decide)]
      rfl
    · rw [get_log_far hg (by decide), get_put_here hg (by decide)]
      rfl
    · exact (records_groupRampdown |>.put (f := PE_GRP_CTRL.EN) (by decide) |>.put (f := PE_GRP_STAT.WDOG_SEEN) (by decide)
        |>.log (by decide)).logged
  · intro s g hg hangle hbound hwaits
    have hdue : s.respaceDue g = true := by simp [State.respaceDue, hangle, hwaits]
    have hbefore : Records s ((respaced s g).ofsTake g) [] := records_spaced.tb.trans records_ofsTake
    refine ⟨_, exec_respaceCommit hdue hbound, ?_, ?_, (hbefore.log (by decide)).logged⟩
    · rw [log_tb, ofsTake_respace]
      exact bit_clrBit_self
    · rw [log_tb, ofsTake_tb.2, sparseGet_sparsePut_same]
      exact spaced_far hg (by decide)

end Sys2Proof.Proofs
end

section
/-! PROOFS. The Loop Engine: what a record leaves of a source and of an injector's conditions, and what launched operations find (R146, R164,
R165, R168). -/

namespace Sys2Proof.Proofs

open Sys2Proof.Machine Sys2Proof.Laws R

variable {s t : State} {l j m n k st c : Nat}

/-! ### Beside the log -/

/-- Two states agree on what an injector's conditions read, which no record changes. -/
structure SameButLog (s t : State) : Prop where
  get : ∀ {n i : Nat} {f : Field}, i < n → clearOf n f logParts = true → t.get f i = s.get f i
  tb : t.tb = s.tb
  le : t.le = s.le
  auxx : t.auxx = s.auxx
  met : t.met = s.met

theorem log_le {code sev : Nat} {pay : List Nat} : (s.log code sev pay).le = s.le :=
  (log_unchanged s code sev pay).le.resolve_left (by simp [within, logParts])

theorem sameButLog_refl : SameButLog s s := ⟨fun _ _ => rfl, rfl, rfl, rfl, rfl⟩

theorem SameButLog.log {code sev : Nat} {pay : List Nat} (h : SameButLog s t) : SameButLog s (t.log code sev pay) where
  get hi hf := (get_log_far hi hf).trans (h.get hi hf)
  tb := log_tb.trans h.tb
  le := log_le.trans h.le
  auxx := ((log_unchanged t code sev pay).auxx.resolve_left (by simp [within, logParts])).trans h.auxx
  met := ((log_unchanged t code sev pay).met.resolve_left (by simp [within, logParts])).trans h.met

/-- A value that a source gives where it is valid and finite. -/
def checked (ok : Bool) (v : Word) : Option Word := if ok && fFinite v then some v else none

theorem checked_congr {r r' : Bool} {v v' : Word} (hr : r = r') (hv : k < n → v = v') :
    checked (r && decide (k < n)) v = checked (r' && decide (k < n)) v' := by
  unfold checked
  subst hr
  by_cases hk : k < n
  · rw [hv hk]
  · simp [hk]

theorem checked_congr_and {r r' q q' b b' : Bool} {v v' : Word} (hr : r = r') (hq : k < n → q = q') (hb : b = b') (hv : k < n → v = v') :
    checked (r && decide (k < n) && q && b) v = checked (r' && decide (k < n) && q' && b') v' := by
  unfold checked
  subst hr hb
  by_cases hk : k < n
  · rw [hv hk, hq hk]
  · simp [hk]

section Same

variable (h : SameButLog s t)
include h

theorem SameButLog.one {f : Field} (hf : clearOf 1 f logParts = true) : t.get f = s.get f := h.get Nat.zero_lt_one hf

theorem SameButLog.runs : t.runs m = s.runs m := by
  unfold State.runs
  rw [h.one (by decide), h.one (by decide)]

theorem SameButLog.subReady : t.subReady m = s.subReady m := by
  unfold State.subReady State.running State.is
  rw [h.one (by decide), h.one (by decide), h.one (by decide), h.one (by decide)]

theorem SameButLog.source (code : Nat) : t.source code = s.source code := by
  unfold State.source
  generalize code / 256 = c
  generalize code % 256 = i
  dsimp only
  split
  case h_1 => rfl
  case h_2 => exact checked_congr h.subReady fun hi => by unfold State.geti; rw [h.get hi (by decide)]
  case h_3 => exact checked_congr h.subReady fun hi => by rw [h.get hi (by decide)]
  case h_4 => exact checked_congr h.subReady fun hi => by rw [h.get hi (by decide)]
  case h_5 =>
    refine checked_congr h.subReady fun hi => ?_
    unfold State.pAllow State.is
    rw [h.get hi (by decide), h.get hi (by decide), h.get hi (by decide)]
  case h_6 => exact checked_congr h.runs fun hi => by rw [h.get hi (by decide)]
  case h_7 => exact checked_congr h.subReady fun hi => by unfold State.geti; rw [h.get hi (by decide)]
  case h_8 => exact checked_congr h.subReady fun hi => by unfold State.geti; rw [h.get hi (by decide)]
  case h_9 => exact checked_congr h.subReady fun hi => by rw [h.get hi (by decide)]
  case h_10 =>
    exact checked_congr_and h.subReady (fun hi => by unfold State.is; rw [h.get hi (by decide)]) (by rw [h.met]) fun hi => by
      unfold State.geti; rw [h.get hi (by decide)]
  case h_11 =>
    exact checked_congr_and h.subReady (fun hi => by unfold State.is; rw [h.get hi (by decide)]) (by rw [h.met]) fun hi => by
      unfold State.geti; rw [h.get hi (by decide)]
  case h_12 =>
    exact checked_congr_and h.subReady (fun hi => by unfold State.is; rw [h.get hi (by decide)]) (by rw [h.met]) fun hi => by
      unfold State.geti; rw [h.get hi (by decide)]
  case h_13 => exact checked_congr h.subReady fun hi => by unfold State.fl; rw [h.get hi (by decide)]
  case h_14 => exact checked_congr h.subReady fun hi => by unfold State.fl; rw [h.get hi (by decide)]
  case h_15 => exact checked_congr h.subReady fun hi => by unfold State.fl; rw [h.get hi (by decide)]
  case h_16 => exact checked_congr h.subReady fun hi => by unfold State.fl; rw [h.get hi (by decide)]
  case h_17 => exact checked_congr h.subReady fun _ => by unfold State.lx; rw [h.le]
  case h_18 => exact checked_congr h.subReady fun _ => by unfold State.injx; rw [h.le]
  case h_19 => exact checked_congr h.subReady fun hi => by unfold State.fl; rw [h.get hi (by decide)]
  case h_20 => rfl

theorem SameButLog.consumer (hl : l < 64) : t.consumer l = s.consumer l := by
  unfold State.consumer
  have hgroups : (List.range 8).find? (fun g => t.get PE_GRP_CTRL.LOOP g == l) = (List.range 8).find? fun g => s.get PE_GRP_CTRL.LOOP g == l :=
    List.find?_congr fun g hg => by rw [h.get (List.mem_range.mp hg) (by decide)]
  have haux : (List.range 6).find? (fun a => t.get PWR_AUX_CTRL.LOOP a == l) = (List.range 6).find? fun a => s.get PWR_AUX_CTRL.LOOP a == l :=
    List.find?_congr fun a ha => by rw [h.get (List.mem_range.mp ha) (by decide)]
  rw [hgroups, haux, h.get hl (by decide)]

theorem SameButLog.auxNaming : t.auxNaming l = s.auxNaming l :=
  List.find?_congr fun a ha => by rw [h.get (List.mem_range.mp ha) (by decide)]

theorem SameButLog.loopY (hl : l < 64) : t.loopY l = s.loopY l := by
  unfold State.loopY State.fl
  rw [h.auxNaming, h.get hl (by decide), h.get hl (by decide), h.get hl (by decide)]
  simp only [h.source]

theorem SameButLog.loopTarget (hl : l < 64) : t.loopTarget l = s.loopTarget l := by
  unfold State.loopTarget State.fl
  rw [h.auxNaming, h.get hl (by decide), h.get hl (by decide)]
  cases ha : s.auxNaming l with
  | none => simp only [h.source]
  | some a =>
    have hlt : a < 6 := List.mem_range.mp (List.mem_of_find?_eq_some ha)
    have hset : t.auxSetpoint a = s.auxSetpoint a := by
      unfold State.auxSetpoint State.aux
      rw [h.auxx, h.get hlt (by decide), h.get hlt (by decide), h.get hlt (by decide), h.get hlt (by decide)]
    simp only [hset]

end Same

/-- The consumers that a loop may have: a group, an aux channel, a load switch, or none. -/
theorem consumer_cases : (∃ g < 8, s.consumer l = 0x10 + g) ∨ (∃ a < 6, s.consumer l = 0x20 + a) ∨ (∃ n < 16, s.consumer l = 0x30 + n) ∨
    s.consumer l = 0 := by
  unfold State.consumer
  split
  next g hg => exact .inl ⟨g, List.mem_range.mp (List.mem_of_find?_eq_some hg), rfl⟩
  next =>
    split
    next a ha => exact .inr (.inl ⟨a, List.mem_range.mp (List.mem_of_find?_eq_some ha), rfl⟩)
    next =>
      dsimp only
      split
      next hn => exact .inr (.inr (.inl ⟨_, hn, rfl⟩))
      next => exact .inr (.inr (.inr rfl))

section Same

variable (h : SameButLog s t)
include h

theorem SameButLog.taken (hl : l < 64) : t.taken (t.consumer l) = s.taken (s.consumer l) := by
  rw [h.consumer hl]
  unfold State.taken
  rcases consumer_cases (s := s) (l := l) with ⟨g, hg, hc⟩ | ⟨a, ha, hc⟩ | ⟨n, hn, hc⟩ | hc
  · have hdiv : (0x10 + g) / 16 = 1 := by omega
    have hmod : (0x10 + g) % 16 = g := by omega
    simp only [hc, hdiv, hmod, h.get hg (f := PE_GRP_STAT.STATE) (by decide)]
  · have hdiv : (0x20 + a) / 16 = 2 := by omega
    have hmod : (0x20 + a) % 16 = a := by omega
    simp only [hc, hdiv, hmod, h.get ha (f := PWR_AUX_STAT.MODE) (by decide)]
  · have hdiv : (0x30 + n) / 16 = 3 := by omega
    have hmod : (0x30 + n) % 16 = n := by omega
    simp only [hc, hdiv, hmod, h.get hn (f := LSW_CH_STAT.STATE) (by decide)]
  · simp only [hc, Nat.zero_div]

theorem SameButLog.injOk (hj : j < 2) : t.injOk j = s.injOk j := by
  have hl : s.get LE_INJ_CTRL.LOOP j < 64 := get_lt s LE_INJ_CTRL.LOOP j 0
  unfold State.injOk State.is State.fl State.sRate
  simp only [h.get hj (f := LE_INJ_CTRL.LOOP) (by decide), h.get hl (f := LE_L_STAT.STATE) (by decide), h.get hl (f := LE_L_CTRL.MODE) (by decide),
    h.get hl (f := LE_L_CTRL.DIV) (by decide), h.one (f := LE_CTRL.SRATE_ACT) (by decide), h.tb, h.taken hl, h.loopY hl, h.loopTarget hl,
    h.get hj (f := LE_INJ_CTRL.TYPE) (by decide), h.get hj (f := LE_INJ_F0.F0) (by decide), h.get hj (f := LE_INJ_F1.F1) (by decide)]

end Same

/-! ### Launched operations of the Loop Engine (R164, R168) -/

/-- What each index of a loop finds, and what one of them leaves. -/
theorem each_reaches {op : Nat → State → State} {P Q : State → Prop} (hk : k < n) (hs : P s) (hbefore : ∀ t, ∀ i ≠ k, P t → P (op i t))
    (hact : ∀ t, P t → Q (op k t)) (hafter : ∀ t, ∀ i ≠ k, Q t → Q (op i t)) : Q (s.each n op) := by
  have hall : ∀ m, if k < m then Q (s.each m op) else P (s.each m op) := by
    intro m
    induction m with
    | zero => exact hs
    | succ m ih =>
      have hstep : s.each (m + 1) op = op m (s.each m op) := by simp [State.each, List.range_succ]
      rw [hstep]
      rcases Nat.lt_trichotomy k m with hlt | rfl | hgt
      · rw [if_pos (by omega)]
        rw [if_pos hlt] at ih
        exact hafter _ _ (by omega) ih
      · rw [if_pos (by omega)]
        rw [if_neg (by omega)] at ih
        exact hact _ ih
      · rw [if_neg (by omega)]
        rw [if_neg (by omega)] at ih
        exact hbefore _ _ (by omega) ih
  have hn := hall n
  rwa [if_pos hk] at hn

/-- What a loop finds of a launched action, and what the action leaves of it. -/
theorem laLoops_reaches {a : La} {ok : State → Nat → Bool} {op : Nat → State → State} {P Q : State → Prop} (hl : l < 64)
    (hmask : bit (bytesAt a.body 0 8) l = true) (hs : P s) (hbefore : ∀ t, ∀ i ≠ l, P t → P (op i t))
    (hlogP : ∀ t i, P t → P (t.laLoopRefuse i a.op)) (hmay : ∀ t, P t → t.loopOn l = true ∧ ok t l = true) (hact : ∀ t, P t → Q (op l t))
    (hafter : ∀ t, ∀ i ≠ l, Q t → Q (op i t)) (hlogQ : ∀ t i, Q t → Q (t.laLoopRefuse i a.op)) : Q (s.laLoops a ok op) := by
  refine each_reaches (P := P) hl hs (fun t i hi ht => ?_) (fun t ht => ?_) fun t i hi ht => ?_
  · dsimp only
    split
    · split
      · exact hbefore t i hi ht
      · exact hlogP t i ht
    · exact ht
  · obtain ⟨hon, hok⟩ := hmay t ht
    dsimp only
    rw [if_pos hmask, if_pos (by rw [hon, hok]; rfl)]
    exact hact t ht
  · dsimp only
    split
    · split
      · exact hafter t i hi ht
      · exact hlogQ t i ht
    · exact ht

theorem angleZero_far {f : Field} {i : Nat} (hi : i < f.n1) (hj : 0 < f.n2) (haway : touchAngleZero anyPart = touchAngleZero (awayFrom f)) :
    s.angleZero.get f i = s.get f i :=
  get_of_law (fun h => angleZero_keeps h (Keeps.refl _ s)) (touchAngleZero_all anyPart_all) hi hj haway

theorem laFinish_far {a : La} {f : Field} {i : Nat} (hi : i < f.n1) (hj : 0 < f.n2) (haway : touchLaFinish anyPart = touchLaFinish (awayFrom f)) :
    (s.laFinish a).get f i = s.get f i :=
  get_of_law (fun h => laFinish_keeps h (Keeps.refl _ s)) (touchLaFinish_all anyPart_all) hi hj haway

/-- An executed action leaves the queue, whatever its outcome. -/
theorem laFinish_queue (a : La) : (s.laFinish a).fab.la = s.fab.la.erase a := by
  have htaken : ∀ c, (if c = 1 ∧ a.ack = 0 then actionTaken s a else (actionTaken s a).laRespond a.src a.actId c).fab.la = s.fab.la.erase a := by
    intro c
    split
    · exact actionTaken_la s a
    · rw [laRespond_la, actionTaken_la]
  have hdef : s.laFinish a =
      if s.laCode a = 1 then (if s.laCode a = 1 ∧ a.ack = 0 then actionTaken s a else (actionTaken s a).laRespond a.src a.actId (s.laCode a))
      else (if s.laCode a = 1 ∧ a.ack = 0 then actionTaken s a else (actionTaken s a).laRespond a.src a.actId (s.laCode a)).log 0x060A WARNING
        [s.laCode a] := rfl
  rw [hdef]
  split
  · exact htaken _
  · rw [log_fab]
    exact htaken _

theorem laLoopRun_of_due {a : La} {op : Nat} {g : La → State → State} (hdue : s.laDue = some a) (hep : a.ep = 0x012) (hop : a.op = op) :
    s.laLoopRun op g = (g a s.angleZero).laFinish a := by
  simp only [State.laLoopRun, State.laRun, hdue, hep, hop, and_self, if_true]

/-- Every part but the Fabric's own state. -/
def besideFab : Part → Prop
  | .fab => False
  | _ => True

theorem fab_of_law {names : (Part → Prop) → Prop} (law : ∀ {A}, names A → Keeps A s t) (all : names anyPart)
    (haway : names anyPart = names besideFab) : t.fab = s.fab :=
  ((law (haway ▸ all) : Keeps besideFab s t).same.fab).resolve_left id

theorem angleZero_fab : s.angleZero.fab = s.fab :=
  fab_of_law (fun h => angleZero_keeps h (Keeps.refl _ s)) (touchAngleZero_all anyPart_all) rfl

theorem slewShow_far {f : Field} {i : Nat} (hi : i < f.n1) (hj : 0 < f.n2) (haway : touchSlewShow anyPart l = touchSlewShow (awayFrom f) l) :
    (s.slewShow l).get f i = s.get f i :=
  get_of_law (fun h => slewShow_keeps h (Keeps.refl _ s)) (touchSlewShow_all anyPart_all) hi hj haway

theorem slewShow_fab : (s.slewShow l).fab = s.fab :=
  fab_of_law (fun h => slewShow_keeps h (Keeps.refl _ s)) (touchSlewShow_all anyPart_all) rfl

theorem laLoops_fab {a : La} {ok : State → Nat → Bool} {op : Nat → State → State} (hop : ∀ t i, (op i t).fab = t.fab) :
    (s.laLoops a ok op).fab = s.fab := by
  refine List.foldlRecOn (motive := fun t : State => t.fab = s.fab) _ _ rfl fun t ht i _ => ?_
  dsimp only
  split
  · split
    · exact (hop t i).trans ht
    · exact (log_fab ..).trans ht
  · exact ht

theorem putf_toNat {f : Field} {w : Word} {i : Nat} (hi : i < n) (hf : fits n f = true) (hw : f.w = 32) : (s.putf f w i).get f i = w.toNat := by
  rw [State.putf, get_put_here hi hf, hw]
  exact Nat.mod_eq_of_lt w.isLt

theorem laLoopRefuse_far {f : Field} {i op : Nat} (hi : i < n) (hf : clearOf n f logParts = true) : (s.laLoopRefuse l op).get f i = s.get f i :=
  get_log_far hi hf

theorem loopOn_of_state (h : s.get LE_L_STAT.STATE l ≠ 0) : s.loopOn l = true := by simpa [State.loopOn] using h

end Sys2Proof.Proofs
end

section
/-! PROOFS. The results of the Loop Engine's launched operations, and of its injectors and its capture (R164 to R167). -/

namespace Sys2Proof.Proofs

open Sys2Proof.Machine Sys2Proof.Laws R

variable {s t : State} {l j m n k st c v sess : Nat} {a : La}

/-! ### Launched operations (R164) -/

section Launch

variable (hdue : s.laDue = some a) (hep : a.ep = 0x012)
include hdue hep

theorem exec_setTarget (hop : a.op = 1) : exec (.setTarget) s =
    .next ((s.angleZero.laLoops a (fun _ _ => fFinite a.value) fun l u => (u.putf LE_L_R_TGT.R_TGT a.value l).slewShow l).laFinish a) := by
  have harm : exec (.setTarget) s = execSetTarget s := rfl
  rw [harm, execSetTarget, laLoopRun_of_due hdue hep hop]

/-- The target that SCALE_TARGET gives a loop. -/
def scaled (u : State) (a : La) (l : Nat) : Word := fMul (u.fl LE_L_R_TGT.R_TGT l) a.value

theorem exec_scaleTarget (hop : a.op = 2) : exec (.scaleTarget) s =
    .next ((s.angleZero.laLoops a (fun u l => u.get LE_L_SRC.SRC_T l == 0 && fFinite (scaled u a l))
      fun l u => (u.putf LE_L_R_TGT.R_TGT (scaled u a l) l).slewShow l).laFinish a) := by
  have harm : exec (.scaleTarget) s = execScaleTarget s := rfl
  rw [harm, execScaleTarget, laLoopRun_of_due hdue hep hop]
  rfl

theorem exec_setRate (hop : a.op = 3) : exec (.setRate) s = .next ((s.angleZero.laLoops a (fun _ _ => fFinite a.value && fPos a.value)
    fun l u => u.putf LE_L_RATE.RATE a.value l).laFinish a) := by
  have harm : exec (.setRate) s = execSetRate s := rfl
  rw [harm, execSetRate, laLoopRun_of_due hdue hep hop]

theorem exec_setParameter (hop : a.op = 4) (hfinite : fFinite a.value = true) (hi : byteAt a.body 8 < 16) :
    exec (.setParameter) s = .next ((s.angleZero.putf LE_PARAM.VALUE a.value (byteAt a.body 8)).laFinish a) := by
  have harm : exec (.setParameter) s = execSetParameter s := rfl
  rw [harm, execSetParameter, laLoopRun_of_due hdue hep hop]
  dsimp only
  rw [if_pos ⟨hi, hfinite⟩]

theorem exec_setMode (hop : a.op = 5) : exec (.setMode) s =
    .next ((s.angleZero.laLoops a (fun _ _ => true) fun l u => u.loopMode l (!fEq a.value 0#32)).laFinish a) := by
  have harm : exec (.setMode) s = execSetMode s := rfl
  rw [harm, execSetMode, laLoopRun_of_due hdue hep hop]

end Launch

theorem laFinish_done {u : State} (hu : u.fab = s.angleZero.fab) : (u.laFinish a).fab.la = s.fab.la.erase a := by
  rw [laFinish_queue, hu, angleZero_fab]

section Loops

variable (hl : l < 64) (hmask : bit (bytesAt a.body 0 8) l = true) (hon : s.get LE_L_STAT.STATE l ≠ 0)
include hl hmask hon

theorem setTarget_target (hfinite : fFinite a.value = true) :
    (s.laLoops a (fun _ _ => fFinite a.value) fun l u => (u.putf LE_L_R_TGT.R_TGT a.value l).slewShow l).get LE_L_R_TGT.R_TGT l = a.value.toNat := by
  refine laLoops_reaches (P := fun t => t.get LE_L_STAT.STATE l ≠ 0) (Q := fun t => t.get LE_L_R_TGT.R_TGT l = a.value.toNat) hl hmask hon
    ?_ ?_ (fun t ht => ⟨loopOn_of_state ht, hfinite⟩) ?_ ?_ ?_
  · intro t i _ ht
    rwa [slewShow_far hl (by decide) rfl, State.putf, get_put_far hl (by decide)]
  · intro t i ht
    rwa [laLoopRefuse_far hl (by decide)]
  · intro t _
    rw [slewShow_far hl (by decide) rfl, putf_toNat hl (by decide) rfl]
  · intro t i hi ht
    rwa [slewShow_far hl (by decide) rfl, State.putf, get_put_else hi.symm (by decide)]
  · intro t i ht
    rwa [laLoopRefuse_far hl (by decide)]

theorem scaleTarget_target (hsrc : s.get LE_L_SRC.SRC_T l = 0) (hfinite : fFinite (scaled s a l) = true) :
    (s.laLoops a (fun u l => u.get LE_L_SRC.SRC_T l == 0 && fFinite (scaled u a l))
      fun l u => (u.putf LE_L_R_TGT.R_TGT (scaled u a l) l).slewShow l).get LE_L_R_TGT.R_TGT l = (scaled s a l).toNat := by
  refine laLoops_reaches
    (P := fun t => t.get LE_L_STAT.STATE l ≠ 0 ∧ t.get LE_L_SRC.SRC_T l = 0 ∧ t.get LE_L_R_TGT.R_TGT l = s.get LE_L_R_TGT.R_TGT l)
    (Q := fun t => t.get LE_L_R_TGT.R_TGT l = (scaled s a l).toNat) hl hmask ⟨hon, hsrc, rfl⟩ ?_ ?_ ?_ ?_ ?_ ?_
  · rintro t i hi ⟨hstate, hzero, hsame⟩
    refine ⟨?_, ?_, ?_⟩
    · rwa [slewShow_far hl (by decide) rfl, State.putf, get_put_far hl (by decide)]
    · rwa [slewShow_far hl (by decide) rfl, State.putf, get_put_far hl (by decide)]
    · rwa [slewShow_far hl (by decide) rfl, State.putf, get_put_else hi.symm (by decide)]
  · rintro t i ⟨hstate, hzero, hsame⟩
    rw [laLoopRefuse_far hl (by decide), laLoopRefuse_far hl (by decide), laLoopRefuse_far hl (by decide)]
    exact ⟨hstate, hzero, hsame⟩
  · rintro t ⟨hstate, hzero, hsame⟩
    refine ⟨loopOn_of_state hstate, ?_⟩
    simp only [scaled, State.fl] at hfinite
    simp only [scaled, State.fl, hzero, hsame, hfinite]
    rfl
  · rintro t ⟨_, _, hsame⟩
    rw [slewShow_far hl (by decide) rfl, putf_toNat hl (by decide) rfl, scaled, State.fl, hsame]
    rfl
  · intro t i hi ht
    rwa [slewShow_far hl (by decide) rfl, State.putf, get_put_else hi.symm (by decide)]
  · intro t i ht
    rwa [laLoopRefuse_far hl (by decide)]

theorem setRate_rate (hfinite : fFinite a.value = true) (hpos : fPos a.value = true) :
    (s.laLoops a (fun _ _ => fFinite a.value && fPos a.value) fun l u => u.putf LE_L_RATE.RATE a.value l).get LE_L_RATE.RATE l =
      a.value.toNat := by
  refine laLoops_reaches (P := fun t => t.get LE_L_STAT.STATE l ≠ 0) (Q := fun t => t.get LE_L_RATE.RATE l = a.value.toNat) hl hmask hon
    ?_ ?_ (fun t ht => ⟨loopOn_of_state ht, by rw [hfinite, hpos]; rfl⟩) ?_ ?_ ?_
  · intro t i _ ht
    rwa [State.putf, get_put_far hl (by decide)]
  · intro t i ht
    rwa [laLoopRefuse_far hl (by decide)]
  · intro t _
    exact putf_toNat hl (by decide) rfl
  · intro t i hi ht
    rwa [State.putf, get_put_else hi.symm (by decide)]
  · intro t i ht
    rwa [laLoopRefuse_far hl (by decide)]

theorem setMode_mode {b : Bool} : (s.laLoops a (fun _ _ => true) fun l u => u.loopMode l b).get LE_L_CTRL.MODE l = if b then 1 else 0 := by
  refine laLoops_reaches (P := fun t => t.get LE_L_STAT.STATE l ≠ 0) (Q := fun t => t.get LE_L_CTRL.MODE l = if b then 1 else 0) hl hmask hon
    ?_ ?_ (fun t ht => ⟨loopOn_of_state ht, rfl⟩) ?_ ?_ ?_
  · intro t i _ ht
    rwa [State.loopMode, State.putb, get_put_far hl (by decide)]
  · intro t i ht
    rwa [laLoopRefuse_far hl (by decide)]
  · intro t _
    rw [State.loopMode, State.putb, get_put_here hl (by decide)]
    cases b <;> rfl
  · intro t i hi ht
    rwa [State.loopMode, State.putb, get_put_else hi.symm (by decide)]
  · intro t i ht
    rwa [laLoopRefuse_far hl (by decide)]

end Loops

/-! ### Injectors (R165, R166) -/

/-- An injector starts, before its event. -/
def injStarted (s : State) (j : Nat) : State :=
  let s1 := ((s.setInjx j {}).put LE_INJ_CTRL.EN 1 j).put LE_INJ_CTRL.STATE 2 j
  { s1.put LE_INJ_CTRL.END 0 j with le := { s1.le with injStarted := true } }

theorem injStart_of_ok (hok : s.injOk j = true) : s.injStart j = (injStarted s j).log 0x0408 NOTICE [s.get LE_INJ_CTRL.LOOP j, j] := by
  rw [State.injStart, if_pos hok]
  rfl

theorem injStarted_get (f : Field) (i : Nat) : (injStarted s j).get f i =
    ((((s.setInjx j {}).put LE_INJ_CTRL.EN 1 j).put LE_INJ_CTRL.STATE 2 j).put LE_INJ_CTRL.END 0 j).get f i := rfl

theorem setInjx_get {x : InjX} (f : Field) (i k : Nat) : (s.setInjx j x).get f i k = s.get f i k := rfl

theorem records_injStarted : Records s (injStarted s j) [] := by
  have hput : Records s ((((s.setInjx j {}).put LE_INJ_CTRL.EN 1 j).put LE_INJ_CTRL.STATE 2 j).put LE_INJ_CTRL.END 0 j) [] :=
    (records_refl.sameRegs (u := s.setInjx j {}) rfl rfl) |>.put (f := LE_INJ_CTRL.EN) (by decide) |>.put (f := LE_INJ_CTRL.STATE) (by decide)
      |>.put (by decide)
  exact hput.sameRegs rfl rfl

section Inj

variable (hj : j < 2)
include hj

/-- What a started injector shows. -/
theorem injStart_results (hok : s.injOk j = true) : (s.injStart j).get LE_INJ_CTRL.STATE j = 2 ∧ (s.injStart j).get LE_INJ_CTRL.EN j = 1 ∧
    (s.injStart j).get LE_INJ_CTRL.END j = 0 := by
  rw [injStart_of_ok hok, get_log_far hj (by decide), get_log_far hj (by decide), get_log_far hj (by decide), injStarted_get, injStarted_get,
    injStarted_get]
  refine ⟨?_, ?_, ?_⟩
  · rw [get_put_far hj (by decide), get_put_here hj (by decide)]
    rfl
  · rw [get_put_far hj (by decide), get_put_far hj (by decide), get_put_here hj (by decide)]
    rfl
  · rw [get_put_here hj (by decide)]
    rfl

end Inj

theorem injStart_injx (hok : s.injOk j = true) : (s.injStart j).injx j = {} := by
  have hput : (((s.setInjx j {}).put LE_INJ_CTRL.EN 1 j).put LE_INJ_CTRL.STATE 2 j).le.inj = (s.setInjx j {}).le.inj := by rw [put_le, put_le]
  have hle : (injStarted s j).le.inj = (s.setInjx j {}).le.inj := hput
  rw [injStart_of_ok hok, State.injx, log_le, hle]
  exact sparseGet_sparsePut_same ..

theorem injStart_fab (hok : s.injOk j = true) : (s.injStart j).fab = s.fab := by
  have hput : (((((s.setInjx j {}).put LE_INJ_CTRL.EN 1 j).put LE_INJ_CTRL.STATE 2 j).put LE_INJ_CTRL.END 0 j)).fab = s.fab := by
    rw [put_fab, put_fab, put_fab]
    rfl
  rw [injStart_of_ok hok, log_fab]
  exact hput

/-- An injector ends, before its event. -/
def injEnded (s : State) (j reason : Nat) : State :=
  (((s.setInjx j { pub := (s.injx j).pub }).put LE_INJ_CTRL.STATE 0 j).put LE_INJ_CTRL.EN 0 j).put LE_INJ_CTRL.END reason j

theorem injEnd_of_running {reason : Nat} (h : s.get LE_INJ_CTRL.STATE j ≠ 0) :
    s.injEnd j reason = (injEnded s j reason).log 0x0409 NOTICE [s.get LE_INJ_CTRL.LOOP j, j, reason] := if_neg h

theorem injEnded_injx {reason : Nat} : (injEnded s j reason).injx j = { pub := (s.injx j).pub } := by
  rw [injEnded, State.injx, put_le, put_le, put_le]
  exact sparseGet_sparsePut_same ..

theorem records_injEnded {reason : Nat} : Records s (injEnded s j reason) [] :=
  (records_refl.sameRegs (u := s.setInjx j { pub := (s.injx j).pub }) rfl rfl) |>.put (f := LE_INJ_CTRL.STATE) (by decide)
    |>.put (f := LE_INJ_CTRL.EN) (by decide) |>.put (by decide)

theorem injEnd_results {reason : Nat} (hj : j < 2) (h : s.get LE_INJ_CTRL.STATE j ≠ 0) (hreason : reason < 8) :
    (s.injEnd j reason).get LE_INJ_CTRL.STATE j = 0 ∧ (s.injEnd j reason).get LE_INJ_CTRL.EN j = 0 ∧
      (s.injEnd j reason).get LE_INJ_CTRL.END j = reason := by
  rw [injEnd_of_running h, get_log_far hj (by decide), get_log_far hj (by decide), get_log_far hj (by decide), injEnded]
  refine ⟨?_, ?_, ?_⟩
  · rw [get_put_far hj (by decide), get_put_far hj (by decide), get_put_here hj (by decide)]
    rfl
  · rw [get_put_far hj (by decide), get_put_here hj (by decide)]
    rfl
  · rw [get_put_here hj (by decide)]
    exact Nat.mod_eq_of_lt hreason

/-- The loops of a launched start that are OFF are reported. -/
def startReported (s : State) (a : La) : State := s.angleZero.laLoops a (fun _ _ => true) fun _ u => u

theorem startReported_same : SameButLog s.angleZero (startReported s a) := by
  refine List.foldlRecOn (motive := fun t : State => SameButLog s.angleZero t) _ _ sameButLog_refl fun t ht i _ => ?_
  dsimp only
  split
  · split
    · exact ht
    · exact ht.log
  · exact ht

theorem startReported_fab : (startReported s a).fab = s.angleZero.fab := laLoops_fab fun _ _ => rfl

theorem startReported_ok (hj : j < 2) : (startReported s a).injOk j = s.angleZero.injOk j := startReported_same.injOk hj

theorem exec_startInjector (hdue : s.laDue = some a) (hep : a.ep = 0x012) (hop : a.op = 6) (hbyte : byteAt a.body 8 = j) (hj : j < 2)
    (hstate : s.get LE_INJ_CTRL.STATE j ≠ 2) : exec (.startInjector) s = .next (((startReported s a).injStart j).laFinish a) := by
  have harm : exec (.startInjector) s = execStartInjector s := rfl
  have hidle : (startReported s a).get LE_INJ_CTRL.STATE j ≠ 2 := by
    rwa [startReported_same.get hj (by decide), angleZero_far hj (by decide) rfl]
  rw [harm, execStartInjector, laLoopRun_of_due hdue hep hop]
  unfold startReported at hidle
  dsimp only
  rw [hbyte, if_pos ⟨hj, hidle⟩]
  rfl

theorem exec_injectorEnable (hj : j < 2) (hmay : s.writeStatus sess LE_INJ_CTRL.EN = 0) (hidle : s.get LE_INJ_CTRL.STATE j ≠ 2)
    (hstart : s.get LE_INJ_CTRL.START j = 0) : exec (.injectorEnable sess j) s = .next (s.injStart j) := by
  have harm : exec (.injectorEnable sess j) s = execInjectorEnable sess j s := rfl
  rw [harm, execInjectorEnable, if_neg (by omega), guarded_of_writeStatus_zero _ hmay, State.injEnable, if_neg hidle,
    if_neg (by simp [State.is, hstart])]

theorem exec_injectorStampStart (hj : j < 2) (hwait : s.get LE_INJ_CTRL.STATE j = 1)
    (hstamp : s.get2 LE_INJ_STAMP_LO.STAMP LE_INJ_STAMP_HI.STAMP j ≤ s.stamp) : exec (.injectorStampStart j) s = .next (s.injStart j) := by
  have harm : exec (.injectorStampStart j) s = execInjectorStampStart j s := rfl
  rw [harm, execInjectorStampStart, if_pos (by simp [hj, hwait, hstamp])]

theorem exec_injectorEnd (hj : j < 2) (hrun : s.get LE_INJ_CTRL.STATE j = 2) (hset : s.get LE_INJ_DUR.DUR j ≠ 0)
    (hup : s.get LE_INJ_DUR.DUR j ≤ (s.injx j).n) : exec (.injectorEnd j) s = .next (s.injEnd j 1) := by
  have harm : exec (.injectorEnd j) s = execInjectorEnd j s := rfl
  rw [harm, execInjectorEnd, if_pos (by simp [hj, hrun]), if_pos ⟨hset, hup⟩]

theorem exec_injectorDisable (hj : j < 2) (hmay : s.writeStatus sess LE_INJ_CTRL.EN = 0) :
    exec (.injectorDisable sess j) s = .next ((s.injEnd j 2).put LE_INJ_CTRL.EN 0 j) := by
  have harm : exec (.injectorDisable sess j) s = execInjectorDisable sess j s := rfl
  rw [harm, execInjectorDisable, if_neg (by omega), guarded_of_writeStatus_zero _ hmay]

/-! ### The capture (R167) -/

theorem exec_captureArm (hmay : s.writeStatus sess LE_CAP_CTRL.ARM = 0) : exec (.captureArm sess) s = .next s.capArm := by
  have harm : exec (.captureArm sess) s = execCaptureArm sess s := rfl
  rw [harm, execCaptureArm, guarded_of_writeStatus_zero _ hmay]

/-- The samples before the trigger are kept. -/
def triggered (s : State) : State :=
  { s with le := { s.le with cap := s.le.cap.take (s.get LE_CAP_PRE.PRE) } }.put LE_CAP_CTRL.STATE 2

theorem exec_captureTrigger (harmed : s.get LE_CAP_CTRL.STATE = 1) (hhit : s.capTriggered = true) :
    exec (.captureTrigger) s = .next (triggered s) := by
  have harm : exec (.captureTrigger) s = execCaptureTrigger s := rfl
  rw [harm, execCaptureTrigger, if_pos (by simp [harmed, hhit])]
  rfl

/-- The capture is full, before its event. -/
def captured (s : State) (first : CapS) : State := (s.put2 LE_CAP_STAMP_LO.STAMP LE_CAP_STAMP_HI.STAMP first.stamp).put LE_CAP_CTRL.STATE 3

theorem exec_captureDone {first : CapS} (hfill : s.get LE_CAP_CTRL.STATE = 2) (hfull : 8192 ≤ s.le.cap.length)
    (hfirst : s.le.cap.getLast? = some first) : exec (.captureDone) s = .next ((captured s first).log 0x040A INFO) := by
  have harm : exec (.captureDone) s = execCaptureDone s := rfl
  rw [harm, execCaptureDone, if_pos (by simp [hfill, hfull])]
  simp only [hfirst]
  rfl

theorem get2_put2_mod {lo hi : Field} (hlo : fits 1 lo = true) (hhi : fits 1 hi = true) (hfar : far 1 hi lo = true) (hwlo : lo.w = 32)
    (hwhi : hi.w = 32) : (s.put2 lo hi v).get2 lo hi = v % 2 ^ 64 := by
  have hsplit : v % 2 ^ 64 = v % 2 ^ 32 + 2 ^ 32 * (v / 2 ^ 32 % 2 ^ 32) := by omega
  unfold State.put2 State.get2
  rw [get_put_far Nat.zero_lt_one hfar, get_put_here Nat.zero_lt_one hlo, get_put_here Nat.zero_lt_one hhi, hwlo, hwhi, Nat.mod_mod, hsplit]

theorem captured_stamp {first : CapS} : ((captured s first).log 0x040A INFO).get2 LE_CAP_STAMP_LO.STAMP LE_CAP_STAMP_HI.STAMP =
    first.stamp % 2 ^ 64 := by
  have hkeep : ∀ h : Field, h = LE_CAP_STAMP_LO.STAMP ∨ h = LE_CAP_STAMP_HI.STAMP → ((captured s first).log 0x040A INFO).get h =
      (s.put2 LE_CAP_STAMP_LO.STAMP LE_CAP_STAMP_HI.STAMP first.stamp).get h := by
    rintro h (rfl | rfl) <;> rw [log_far1 (by decide), captured, get_put_far Nat.zero_lt_one (by decide)]
  rw [get2_of_get (hkeep _ (.inl rfl)) (hkeep _ (.inr rfl))]
  exact get2_put2_mod (by decide) (by decide) (by decide) rfl rfl

end Sys2Proof.Proofs
end

section
/-! PROOFS. The Loop Engine: loops on and off, the sample rate, and what a strobe leaves of the swaps (R139, R141, R142, R155, R158). -/

namespace Sys2Proof.Proofs

open Sys2Proof.Machine Sys2Proof.Laws R

variable {s t : State} {l j m n g st c v sess : Nat}

/-! ### What the laws say of the Loop Engine's own state -/

/-- Every part but the Loop Engine's own state. -/
def besideLe : Part → Prop
  | .le => False
  | _ => True

theorem le_of_law {names : (Part → Prop) → Prop} (law : ∀ {A}, names A → Keeps A s t) (all : names anyPart)
    (haway : names anyPart = names besideLe) : t.le = s.le :=
  ((law (haway ▸ all) : Keeps besideLe s t).same.le).resolve_left id

theorem loopState_far {f : Field} {i : Nat} (hi : i < f.n1) (hj : 0 < f.n2) (haway : touchLoopState anyPart l = touchLoopState (awayFrom f) l) :
    (s.loopState l st).get f i = s.get f i :=
  get_of_law (fun h => loopState_keeps h (Keeps.refl _ s)) (touchLoopState_all anyPart_all) hi hj haway

theorem loopState_le : (s.loopState l st).le = s.le :=
  le_of_law (fun h => loopState_keeps h (Keeps.refl _ s)) (touchLoopState_all anyPart_all) rfl

theorem records_loopState : Records s (s.loopState l st) [] :=
  records_of_law (fun h => loopState_keeps h (Keeps.refl _ s)) (touchLoopState_all anyPart_all) rfl

theorem auxOf_far {op : Nat → State → State} {f : Field} {i : Nat} (hop : ∀ t a, (op a t).get f i = t.get f i) :
    (s.auxOf l op).get f i = s.get f i := by
  refine List.foldlRecOn (motive := fun t : State => t.get f i = s.get f i) _ _ rfl fun t ht a _ => ?_
  dsimp only
  split
  · exact (hop t a).trans ht
  · exact ht

theorem auxJoin_far {f : Field} {i a : Nat} (hi : i < n) (hf : far n PWR_AUX_STAT.MODE f = true) : (s.auxJoin a).get f i = s.get f i := by
  unfold State.auxJoin
  split
  · exact get_put_far hi hf
  · rfl

theorem loopShown_state {a b w : Nat} (hl : l < 64) (hst : st < 8) :
    (((s.put LE_L_STAT.STATE st l).put LE_RUN.RUN a w).put LE_HOLD.HOLD b w).get LE_L_STAT.STATE l = st := by
  rw [get_put_far hl (by decide), get_put_far hl (by decide), get_put_here hl (by decide)]
  exact Nat.mod_eq_of_lt hst

theorem loopState_state (hl : l < 64) (hst : st < 8) : (s.loopState l st).get LE_L_STAT.STATE l = st := by
  rw [State.loopState]
  dsimp only
  by_cases hleft : s.get LE_L_STAT.STATE l = 4 ∧ st ≠ 4
  · rw [if_pos hleft, auxOf_far fun t a => auxJoin_far hl (by decide), loopShown_state hl hst]
  · rw [if_neg hleft, loopShown_state hl hst]

theorem loopLoad_far {f : Field} (hi : l < n) (hk : far n LE_STAT.K f = true) (hmax : far n LE_STAT.LOAD_MAX f = true)
    (hen : far n LE_STAT.N_EN f = true) : s.loopLoad.get f l = s.get f l := by
  rw [State.loopLoad, get_put_far hi hk, get_put_far hi hmax, get_put_far hi hen]

theorem loopLoad_le : s.loopLoad.le = s.le := by rw [State.loopLoad, put_le, put_le, put_le]

theorem records_loopLoad : Records s s.loopLoad [] :=
  records_refl |>.put (f := LE_STAT.N_EN) (by decide) |>.put (f := LE_STAT.LOAD_MAX) (by decide) |>.put (by decide)

theorem setLx_get {x : LoopX} (f : Field) (i k : Nat) : (s.setLx l x).get f i k = s.get f i k := rfl

theorem lx_setLx {x : LoopX} : (s.setLx l x).lx l = x := sparseGet_sparsePut_same ..

theorem lx_of_loops (h : t.le.loops = s.le.loops) (l : Nat) : t.lx l = s.lx l := by
  unfold State.lx
  rw [h]

theorem injLeave_far {f : Field} {i : Nat} (hi : i < f.n1) (hj : 0 < f.n2) (haway : touchInjLeave anyPart = touchInjLeave (awayFrom f)) :
    (s.injLeave l).get f i = s.get f i :=
  get_of_law (fun h => injLeave_keeps h (Keeps.refl _ s)) (touchInjLeave_all anyPart_all) hi hj haway

/-- The end of an injector changes of the Loop Engine's own state the injectors' only. -/
theorem injEnd_le {reason : Nat} : (s.injEnd j reason).le = { s.le with inj := (s.injEnd j reason).le.inj } := by
  by_cases h : s.get LE_INJ_CTRL.STATE j = 0
  · rw [State.injEnd, if_pos h]
  · rw [injEnd_of_running h, log_le, injEnded, put_le, put_le, put_le]
    rfl

theorem injLeave_le : ∃ inj, (s.injLeave l).le = { s.le with inj := inj } := by
  refine List.foldlRecOn (motive := fun t : State => ∃ inj, t.le = { s.le with inj := inj }) _ _ ⟨s.le.inj, rfl⟩ ?_
  rintro t ⟨inj, ht⟩ j -
  dsimp only
  split
  · exact ⟨_, injEnd_le.trans (by rw [ht])⟩
  · exact ⟨inj, ht⟩

theorem injLeave_lx (m : Nat) : (s.injLeave l).lx m = s.lx m := by
  obtain ⟨inj, hle⟩ := injLeave_le (s := s) (l := l)
  unfold State.lx
  rw [hle]

theorem loopState_lx (m : Nat) : (s.loopState l st).lx m = s.lx m := by
  unfold State.lx
  rw [loopState_le]

theorem loopLoad_lx (m : Nat) : s.loopLoad.lx m = s.lx m := by
  unfold State.lx
  rw [loopLoad_le]

/-! ### HOLD is left (R155, R162) -/

/-- A loop that has held long enough tracks, before its event. -/
def holdLeft (s : State) (l : Nat) : State :=
  ((s.setLx l { s.lx l with good := 0, track := true }).loopLateInit l ((s.loopY l).getD 0#32)).loopState l 1

theorem exec_loopHoldExit (hl : l < 64) (hhold : s.get LE_L_STAT.STATE l = 4) (hgood : 4 ≤ (s.lx l).good) :
    exec (.loopHoldExit l) s = .next ((holdLeft s l).log 0x0405 INFO [l]) := by
  have harm : exec (.loopHoldExit l) s = execLoopHoldExit l s := rfl
  rw [harm, execLoopHoldExit, if_pos (by simp [hl, hhold, hgood])]
  rfl

theorem loopLateInit_good {y : Word} : ((s.loopLateInit l y).lx l).good = (s.lx l).good := by
  unfold State.loopLateInit
  dsimp only
  split
  · have hle : ∀ b : Bool, ((((s.setLx l { s.lx l with yf := y, initPend := false }).putf LE_L_Y.Y y l).when b fun t => t.putf LE_L_R.R y l)).le =
        (s.setLx l { s.lx l with yf := y, initPend := false }).le := by
      intro b
      cases b
      · exact put_le ..
      · exact (put_le ..).trans (put_le ..)
    rw [lx_of_loops (congrArg Le.loops (hle _)), lx_setLx]
  · rfl

theorem records_loopLateInit {y : Word} : Records s (s.loopLateInit l y) [] :=
  records_of_law (fun h => loopLateInit_keeps h (Keeps.refl _ s)) (touchLoopLateInit_all anyPart_all) rfl

theorem records_setLx {x : LoopX} : Records s (s.setLx l x) [] := records_refl.sameRegs rfl rfl

/-! ### The sample rate (R139) -/

theorem exec_srateChange_of_value (hmay : s.writeStatus sess LE_CTRL.SRATE = 0) : exec (.srateChange sess (some v)) s = .next (s.srateWrite v) := by
  have harm : exec (.srateChange sess (some v)) s = execSrateChange sess (some v) s := rfl
  rw [harm, execSrateChange, guarded_of_writeStatus_zero _ hmay]

theorem srateWrite_of_free (hv : v < 4) (hinj : s.get LE_INJ_CTRL.STATE 0 ≠ 2) (hinj' : s.get LE_INJ_CTRL.STATE 1 ≠ 2)
    (hcap : s.get LE_CAP_CTRL.STATE = 0) (hbudget : s.overBudget s.loopsOn (srateOf v) = none) :
    s.srateWrite v = { (s.put LE_CTRL.SRATE v).put LE_CTRL.SR_STATUS 1 with le := { s.le with sratePend := true } } := by
  rw [State.srateWrite]
  dsimp only
  rw [if_neg (by omega), if_neg (by simp [Nat.mod_eq_of_lt hv, hbudget])]

theorem srateWrite_of_capture (hcap : s.get LE_CAP_CTRL.STATE = 2) :
    s.srateWrite v = (s.put LE_CTRL.SR_STATUS 4).log 0x0402 WARNING [4] := by
  rw [State.srateWrite]
  dsimp only
  rw [if_pos (.inr (.inr (.inr hcap)))]

/-- The pending rate comes into force, before its event. -/
def rateTaken (s : State) : State :=
  (({ s with le := { s.le with sratePend := false } }.put LE_CTRL.SRATE_ACT (s.get LE_CTRL.SRATE)).put LE_CTRL.SR_STATUS 2).loopLoad

theorem srateTake_of_pending (hpend : s.le.sratePend = true) : s.srateTake = (rateTaken s).log 0x0401 INFO [s.get LE_CTRL.SRATE] := if_pos hpend

theorem rateTaken_act : (rateTaken s).get LE_CTRL.SRATE_ACT = s.get LE_CTRL.SRATE := by
  rw [rateTaken, loopLoad_far Nat.zero_lt_one (by decide) (by decide) (by decide), get_put_far Nat.zero_lt_one (by decide),
    get_put_here Nat.zero_lt_one (by decide)]
  exact Nat.mod_eq_of_lt (get_lt s LE_CTRL.SRATE 0 0)

theorem rateTaken_status : (rateTaken s).get LE_CTRL.SR_STATUS = 2 := by
  rw [rateTaken, loopLoad_far Nat.zero_lt_one (by decide) (by decide) (by decide), get_put_here Nat.zero_lt_one (by decide)]
  rfl

theorem records_rateTaken : Records s (rateTaken s) [] := by
  have hput : Records s (({ s with le := { s.le with sratePend := false } }.put LE_CTRL.SRATE_ACT (s.get LE_CTRL.SRATE)).put LE_CTRL.SR_STATUS 2) [] :=
    (records_refl.sameRegs (u := { s with le := { s.le with sratePend := false } }) rfl rfl) |>.put (f := LE_CTRL.SRATE_ACT) (by decide)
      |>.put (by decide)
  exact hput.trans records_loopLoad

theorem exec_srateChange_of_angle (hangle : s.atAngle 0 = true) : exec (.srateChange sess none) s = .next s.srateTake := by
  have harm : exec (.srateChange sess none) s = execSrateChange sess none s := rfl
  rw [harm, execSrateChange, if_pos hangle]

/-! ### Loops on and off (R141, R155) -/

/-- A loop is admitted. -/
def admitted (s : State) (l : Nat) : State :=
  ((((s.put LE_L_CTRL.EN 1 l).put LE_L_STAT.REFUSED 0 l).loopInit l).loopState l (if s.is LE_L_CTRL.MODE l then 3 else 1)).loopLoad

theorem exec_loopEnable (hl : l < 64) (hmay : s.writeStatus sess LE_L_CTRL.EN = 0) (hoff : s.get LE_L_STAT.STATE l = 0)
    (hbudget : s.overBudget (s.loopsOn ++ [l]) s.sRate = none) : exec (.loopEnable sess l) s = .next (admitted s l) := by
  have harm : exec (.loopEnable sess l) s = execLoopEnable sess l s := rfl
  rw [harm, execLoopEnable, if_neg (by omega), guarded_of_writeStatus_zero _ hmay, State.loopEnable, if_neg (by simp [State.loopOn, hoff]), hbudget]
  rfl

theorem loopInit_far {f : Field} {i : Nat} (hi : i < f.n1) (hj : 0 < f.n2) (haway : touchLoopInit anyPart l = touchLoopInit (awayFrom f) l) :
    (s.loopInit l).get f i = s.get f i :=
  get_of_law (fun h => loopInit_keeps h (Keeps.refl _ s)) (touchLoopInit_all anyPart_all) hi hj haway

theorem exec_loopDisable (hl : l < 64) (hmay : s.writeStatus sess LE_L_CTRL.EN = 0) : exec (.loopDisable sess l) s = .next (s.loopDisable l) := by
  have harm : exec (.loopDisable sess l) s = execLoopDisable sess l s := rfl
  rw [harm, execLoopDisable, if_neg (by omega), guarded_of_writeStatus_zero _ hmay]

theorem loopDisable_out : ((s.loopDisable l).lx l).out = none := by
  rw [State.loopDisable, loopLoad_lx, injLeave_lx, loopState_lx, lx_setLx]

theorem exec_loopModeChange {man : Bool} (hl : l < 64) (hmay : s.writeStatus sess LE_L_CTRL.MODE = 0) :
    exec (.loopModeChange sess l man) s = .next (s.putb LE_L_CTRL.MODE man l) := by
  have harm : exec (.loopModeChange sess l man) s = execLoopModeChange sess l man s := rfl
  rw [harm, execLoopModeChange, if_neg (by omega), guarded_of_writeStatus_zero _ hmay]
  rfl

theorem loopRow_of_manual (hauto : s.get LE_L_STAT.STATE l = 2) (hman : s.is LE_L_CTRL.MODE l = true) :
    s.loopRow l = ((s.loopState l 3).injLeave l).log 0x0407 INFO [l, 3] := by
  simp only [State.loopRow, hauto, hman, if_true]

theorem exec_gtCommit (hl : l < 64) (hmay : s.writeStatus sess LE_L_CTRL.GT_COMMIT = 0) :
    exec (.gtCommit sess l) s = .next (s.setLx l { s.lx l with gtPend := true }) := by
  have harm : exec (.gtCommit sess l) s = execGtCommit sess l s := rfl
  rw [harm, execGtCommit, if_neg (by omega), guarded_of_writeStatus_zero _ hmay]

theorem exec_ffSwap (hmay : s.writeStatus sess LE_FF_CTRL.SWAP = 0) :
    exec (.ffSwap sess m) s = .next { s with le := { s.le with swap := s.le.swap ||| m % 2 ^ 16 } } := by
  have harm : exec (.ffSwap sess m) s = execFfSwap sess m s := rfl
  rw [harm, execFfSwap, guarded_of_writeStatus_zero _ hmay]

end Sys2Proof.Proofs
end

section
/-! PROOFS. What a sample strobe leaves of a manual demand, of the swaps and of the sample rate in force (R107, R139, R142, R158). -/

namespace Sys2Proof.Proofs

open Sys2Proof.Machine Sys2Proof.Laws R

variable {s t u : State} {l j m n g st c v i late : Nat}

/-! ### Swaps that wait -/

theorem injLeave_swap : (s.injLeave l).le.swap = s.le.swap := by
  obtain ⟨inj, hle⟩ := injLeave_le (s := s) (l := l)
  rw [hle]

theorem loopHold_swap {cause : Nat} : (s.loopHold l cause).le.swap = s.le.swap := by
  rw [State.loopHold, log_le, injLeave_swap, put_le, loopState_le]
  rfl

theorem loopLateInit_swap {y : Word} : (s.loopLateInit l y).le.swap = s.le.swap := by
  unfold State.loopLateInit State.when State.putf
  dsimp only
  split
  · split
    · rw [put_le, put_le]
      rfl
    · rw [put_le]
      rfl
  · rfl

theorem loopRow_swap : (s.loopRow l).le.swap = s.le.swap := by
  unfold State.loopRow
  dsimp only
  split
  · split
    · rw [loopState_le]
    · split
      · rw [loopState_le]
        rfl
      · rfl
  · split
    · rw [log_le, injLeave_swap, loopState_le]
    · split
      · rfl
      · rw [injLeave_swap, loopState_le]
  · split
    · rfl
    · rw [log_le, loopState_le]
      rfl
  · rfl

theorem injSignal_le {ts : Word} : (s.injSignal j ts).2.2.le = s.le := by
  unfold State.injSignal
  dsimp only
  split
  · rfl
  · dsimp only
    split
    · split <;> rfl
    · rfl

theorem injections_swap {ts : Word} : (s.injections l ts).2.2.le.swap = s.le.swap := by
  refine List.foldlRecOn (motive := fun a : Word × Word × State => a.2.2.le.swap = s.le.swap) _ _ rfl fun a ha j _ => ?_
  have hset : ((a.2.2.injSignal j ts).2.2.setInjx j (a.2.2.injSignal j ts).2.1).le.swap = s.le.swap := by
    rw [State.setInjx]
    exact (congrArg Le.swap injSignal_le).trans ha
  dsimp only
  split
  · split <;> exact hset
  · exact ha

theorem swap_of_ite {p : Prop} [Decidable p] {x y : State} (hx : x.le.swap = m) (hy : y.le.swap = m) : (if p then x else y).le.swap = m := by
  split
  · exact hx
  · exact hy

theorem swap_of_put {f : Field} {k o : Nat} (h : s.le.swap = m) : (s.put f v k o).le.swap = m := by rwa [put_le]

theorem loopOutput_swap {k : LoopCalc} {preset : Bool} : (s.loopOutput l k preset).le.swap = s.le.swap := by
  unfold State.loopOutput State.when State.putf State.putb
  dsimp only
  refine swap_of_ite loopHold_swap (swap_of_ite (swap_of_put ?_) ?_)
  all_goals
    refine swap_of_ite (swap_of_put ?_) ?_
    all_goals
      simp only [put_le]
      rfl

theorem swap_of_ite_state {p : Prop} [Decidable p] {x y : Word × Word × State} (hx : x.2.2.le.swap = m) (hy : y.2.2.le.swap = m) :
    (if p then x else y).2.2.le.swap = m := by
  split
  · exact hx
  · exact hy

theorem loopUpdate_swap : (s.loopUpdate l i).le.swap = s.le.swap := by
  unfold State.loopUpdate
  split
  · rfl
  · rfl
  · rfl
  · exact loopHold_swap
  · exact loopHold_swap
  · have hrow : ∀ y b, (if b = true then (s.loopLateInit l y).setLx l { (s.loopLateInit l y).lx l with track := false }
        else (s.loopLateInit l y).loopRow l).le.swap = s.le.swap :=
      fun y b => swap_of_ite loopLateInit_swap (loopRow_swap.trans loopLateInit_swap)
    refine swap_of_ite (loopHold_swap.trans loopLateInit_swap) (loopOutput_swap.trans (swap_of_ite ?_ ?_))
    · exact swap_of_ite_state (injections_swap.trans (hrow _ _)) (hrow _ _)
    · exact swap_of_ite_state (injections_swap.trans (hrow _ _)) (hrow _ _)

theorem swap_of_each {op : Nat → State → State} (hop : ∀ t i, (op i t).le.swap = t.le.swap) : (s.each n op).le.swap = s.le.swap :=
  List.foldlRecOn (motive := fun t : State => t.le.swap = s.le.swap) _ _ rfl fun t ht i _ => (hop t i).trans ht

theorem loopDeliver_swap : (s.loopDeliver l).le.swap = s.le.swap := by
  have hdemand : ∀ u : Word, ∀ t : State, ((t.each 8 fun g t =>
      if t.get PE_GRP_CTRL.LOOP g == l && t.get PE_GRP_CTRL.DEM_SRC g != 1 then
        (t.putf PE_GRP_DEM.DEM u g).setGrp g { t.grp g with demAge := 0 } else t).each 6 fun a t =>
      if t.get PWR_AUX_CTRL.LOOP a == l then t.setAux a { t.aux a with th := u } else t).le.swap = t.le.swap := by
    intro u t
    rw [swap_of_each, swap_of_each]
    · intro t i
      dsimp only
      split
      · exact congrArg Le.swap (put_le ..)
      · rfl
    · intro t i
      dsimp only
      split <;> rfl
  have hfraction : ∀ t : State, ∀ n u, (t.lswFraction n u).le = t.le := by
    intro t n u
    unfold State.lswFraction
    split
    · exact put_le ..
    · rfl
  unfold State.loopDeliver
  split
  · rfl
  · dsimp only
    split
    · rw [hfraction, hdemand, State.putf, put_le]
      rfl
    · rw [hdemand, State.putf, put_le]
      rfl

theorem capStrobe_swap : s.capStrobe.le.swap = s.le.swap := by
  unfold State.capStrobe
  dsimp only
  split
  · rfl
  · split
    · rfl
    · refine List.foldlRecOn (motive := fun a : List Word × State => a.2.le.swap = s.le.swap) _ _ rfl fun a ha k _ => ?_
      split <;> exact ha

theorem injPub_swap : s.injPub.le.swap = s.le.swap := swap_of_each fun _ _ => rfl

/-- Every operation of a strobe after the swaps leaves the demand of a manual group, the swaps and the rate as they are. -/
structure StrobeKeeps (g : Nat) (s t : State) : Prop where
  src : t.get PE_GRP_CTRL.DEM_SRC g = s.get PE_GRP_CTRL.DEM_SRC g
  dem : s.get PE_GRP_CTRL.DEM_SRC g = 1 → t.get PE_GRP_DEM.DEM g = s.get PE_GRP_DEM.DEM g
  swap : t.le.swap = s.le.swap
  act : t.get LE_CTRL.SRATE_ACT = s.get LE_CTRL.SRATE_ACT
  status : t.get LE_CTRL.SR_STATUS = s.get LE_CTRL.SR_STATUS

theorem strobeKeeps_refl : StrobeKeeps g s s := ⟨rfl, fun _ => rfl, rfl, rfl, rfl⟩

theorem StrobeKeeps.trans (hst : StrobeKeeps g s t) (htu : StrobeKeeps g t u) : StrobeKeeps g s u where
  src := htu.src.trans hst.src
  dem h := (htu.dem (hst.src.trans h)).trans (hst.dem h)
  swap := htu.swap.trans hst.swap
  act := htu.act.trans hst.act
  status := htu.status.trans hst.status

theorem strobeKeeps_each {op : Nat → State → State} (hop : ∀ t i, StrobeKeeps g t (op i t)) : StrobeKeeps g s (s.each n op) :=
  List.foldlRecOn (motive := StrobeKeeps g s) _ _ strobeKeeps_refl fun t ht i _ => ht.trans (hop t i)

section Strobe

variable (hg : g < 8)
include hg

theorem strobeKeeps_of_law {names : (Part → Prop) → Prop} (law : ∀ {A}, names A → Keeps A s t) (all : names anyPart)
    (hsrc : names anyPart = names (awayFrom PE_GRP_CTRL.DEM_SRC)) (hdem : names anyPart = names (awayFrom PE_GRP_DEM.DEM))
    (hact : names anyPart = names (awayFrom LE_CTRL.SRATE_ACT)) (hstatus : names anyPart = names (awayFrom LE_CTRL.SR_STATUS))
    (hswap : t.le.swap = s.le.swap) : StrobeKeeps g s t where
  src := get_of_law law all hg (by decide) hsrc
  dem _ := get_of_law law all hg (by decide) hdem
  swap := hswap
  act := get_of_law law all (by decide) (by decide) hact
  status := get_of_law law all (by decide) (by decide) hstatus

theorem strobeKeeps_put {f : Field} {k : Nat} (hsrc : far 8 f PE_GRP_CTRL.DEM_SRC = true) (hdem : far 8 f PE_GRP_DEM.DEM = true)
    (hact : far 1 f LE_CTRL.SRATE_ACT = true) (hstatus : far 1 f LE_CTRL.SR_STATUS = true) : StrobeKeeps g s (s.put f v k) where
  src := get_put_far hg hsrc
  dem _ := get_put_far hg hdem
  swap := congrArg Le.swap (put_le ..)
  act := get_put_far Nat.zero_lt_one hact
  status := get_put_far Nat.zero_lt_one hstatus

theorem strobeKeeps_loopUpdate : StrobeKeeps g s (s.loopUpdate l i) :=
  strobeKeeps_of_law hg (fun h => loopUpdate_keeps h (Keeps.refl _ s)) (touchLoopUpdate_all anyPart_all) rfl rfl rfl rfl loopUpdate_swap

theorem strobeKeeps_slewShow : StrobeKeeps g s (s.slewShow l) := by
  have hle : (s.slewShow l).le = s.le := le_of_law (fun h => slewShow_keeps h (Keeps.refl _ s)) (touchSlewShow_all anyPart_all) rfl
  exact strobeKeeps_of_law hg (fun h => slewShow_keeps h (Keeps.refl _ s)) (touchSlewShow_all anyPart_all) rfl rfl rfl rfl (congrArg Le.swap hle)

theorem strobeKeeps_sampled : StrobeKeeps g s s.injPub.capStrobe :=
  strobeKeeps_of_law hg (fun h => capStrobe_keeps h.1 (injPub_keeps h.2 (Keeps.refl _ s)))
    (names := fun A => touchCapStrobe A ∧ touchInjPub A) ⟨touchCapStrobe_all anyPart_all, touchInjPub_all anyPart_all⟩ rfl rfl rfl rfl
    (capStrobe_swap.trans injPub_swap)

theorem strobeKeeps_log {code sev : Nat} {pay : List Nat} : StrobeKeeps g s (s.log code sev pay) where
  src := get_log_far hg (by decide)
  dem _ := get_log_far hg (by decide)
  swap := congrArg Le.swap log_le
  act := get_log_far Nat.zero_lt_one (by decide)
  status := get_log_far Nat.zero_lt_one (by decide)

/-- The output of a loop reaches no manual group. -/
theorem strobeKeeps_demand {w : Word} {k : Nat} : StrobeKeeps g s (if s.get PE_GRP_CTRL.LOOP k == l && s.get PE_GRP_CTRL.DEM_SRC k != 1 then
    (s.putf PE_GRP_DEM.DEM w k).setGrp k { s.grp k with demAge := 0 } else s) := by
  split
  next hto =>
    refine ⟨get_put_far hg (by decide), fun hman => ?_, congrArg Le.swap (put_le ..), get_put_far Nat.zero_lt_one (by decide),
      get_put_far Nat.zero_lt_one (by decide)⟩
    have hne : g ≠ k := by
      rintro rfl
      simp [hman] at hto
    exact get_put_else hne (by decide)
  next => exact strobeKeeps_refl

theorem strobeKeeps_loopDeliver : StrobeKeeps g s (s.loopDeliver l) := by
  unfold State.loopDeliver
  split
  · exact strobeKeeps_refl
  next w _ =>
    have hshown : StrobeKeeps g s ((s.setLx l { s.lx l with out := none }).putf LE_L_U.U w l) :=
      (⟨rfl, fun _ => rfl, rfl, rfl, rfl⟩ : StrobeKeeps g s (s.setLx l { s.lx l with out := none })).trans
        (strobeKeeps_put hg (f := LE_L_U.U) (by decide) (by decide) (by decide) (by decide))
    have hgroups := hshown.trans (strobeKeeps_each (n := 8) fun t k => strobeKeeps_demand (l := l) (w := w) (k := k) (s := t) hg)
    have haux := hgroups.trans (strobeKeeps_each (n := 6) (op := fun a t =>
      if t.get PWR_AUX_CTRL.LOOP a == l then t.setAux a { t.aux a with th := w } else t) fun t a => by
        dsimp only
        split
        · exact ⟨rfl, fun _ => rfl, rfl, rfl, rfl⟩
        · exact strobeKeeps_refl)
    dsimp only
    split
    · refine haux.trans ?_
      unfold State.lswFraction
      split
      · exact (strobeKeeps_put hg (f := LSW_CH_STAT.FRAC) (by decide) (by decide) (by decide) (by decide)).trans
          ⟨rfl, fun _ => rfl, rfl, rfl, rfl⟩
      · exact strobeKeeps_refl
    · exact haux

end Strobe

/-! ### The strobe -/

/-- The strobe of the Phase Engine, and at angle 0 the new rate and the swaps. -/
def strobeBegun (s : State) (i : Nat) : State := if i = 0 then s.phaseStrobe.srateTake.ffTake else s.phaseStrobe

/-- What a strobe does for the loops. -/
def strobeLoops (t : State) (i late : Nat) : State :=
  ((((t.eachBit 64 late fun l t => ((t.setLx l { t.lx l with out := none }).put LE_STAT.OVERRUN 1).log 0x040B FAULT ([l] ++ leBytes 2 i)).each 64
    fun l t => t.loopDeliver l).injPub.capStrobe).each 64 fun l t => (if t.loopOn l && t.loopDue l i then t.loopUpdate l i else t).slewShow l)

theorem exec_sampleStrobe (hstrobe : s.atStrobe i s.sRate = true) (hruns : s.runs 7 = true) :
    exec (.sampleStrobe i late) s = .next (strobeLoops (strobeBegun s i) i late) := by
  have harm : exec (.sampleStrobe i late) s = execSampleStrobe i late s := rfl
  have hon : s.phaseStrobe.get PWR_DOM_STAT.ON = s.get PWR_DOM_STAT.ON :=
    get_of_law (fun h => phaseStrobe_keeps h (Keeps.refl _ s)) (touchPhaseStrobe_all anyPart_all) (by decide) (by decide) rfl
  have hreset : s.phaseStrobe.get PWR_DOM_STAT.IN_RST = s.get PWR_DOM_STAT.IN_RST :=
    get_of_law (fun h => phaseStrobe_keeps h (Keeps.refl _ s)) (touchPhaseStrobe_all anyPart_all) (by decide) (by decide) rfl
  have hruns' : s.phaseStrobe.runs 7 = true := by
    unfold State.runs
    rw [hon, hreset]
    exact hruns
  rw [harm, execSampleStrobe, if_neg (by simp [hstrobe]), if_neg (by simp [hruns'])]
  rfl

theorem strobeLoops_keeps (hg : g < 8) : StrobeKeeps g t (strobeLoops t i late) := by
  have hlate : StrobeKeeps g t (t.eachBit 64 late fun l t => ((t.setLx l { t.lx l with out := none }).put LE_STAT.OVERRUN 1).log 0x040B FAULT
      ([l] ++ leBytes 2 i)) := by
    refine strobeKeeps_each fun t l => ?_
    dsimp only
    split
    · exact ((⟨rfl, fun _ => rfl, rfl, rfl, rfl⟩ : StrobeKeeps g t (t.setLx l { t.lx l with out := none })).trans
        (strobeKeeps_put hg (by decide) (by decide) (by decide) (by decide))).trans (strobeKeeps_log hg)
    · exact strobeKeeps_refl
  refine ((hlate.trans (strobeKeeps_each fun t l => strobeKeeps_loopDeliver hg)).trans (strobeKeeps_sampled hg)).trans (strobeKeeps_each fun t l => ?_)
  refine StrobeKeeps.trans ?_ (strobeKeeps_slewShow hg)
  split
  · exact strobeKeeps_loopUpdate hg
  · exact strobeKeeps_refl

/-- The strobe of the Phase Engine shows a manual demand. -/
theorem phaseStrobe_demand (hg : g < 8) (hman : s.get PE_GRP_CTRL.DEM_SRC g = 1) :
    s.phaseStrobe.get PE_GRP_DEM.DEM g = s.get PE_GRP_DEM_MAN.DEM_MAN g := by
  have hpub : ∀ f : Field, (s.each 96 fun n t => t.setPh n { t.ph n with pub := t.get PE_PH_STAT.STATE n }).get f g = s.get f g := fun f =>
    List.foldlRecOn (motive := fun t : State => t.get f g = s.get f g) _ _ rfl fun t ht n _ => ht
  refine each_reaches (k := g) (P := fun t => t.get PE_GRP_CTRL.DEM_SRC g = 1 ∧ t.get PE_GRP_DEM_MAN.DEM_MAN g = s.get PE_GRP_DEM_MAN.DEM_MAN g)
    (Q := fun t => t.get PE_GRP_DEM.DEM g = s.get PE_GRP_DEM_MAN.DEM_MAN g) hg ⟨(hpub _).trans hman, hpub _⟩ ?_ ?_ ?_
  · rintro t k hk ⟨hsrc, hdem⟩
    dsimp only
    rw [setGrp_get, setGrp_get, State.putSat, State.puti, get_put_far hg (by decide), get_put_far hg (by decide), State.demTake]
    split
    · rw [get_put_far hg (by decide), get_put_far hg (by decide)]
      exact ⟨hsrc, hdem⟩
    · exact ⟨hsrc, hdem⟩
  · rintro t ⟨hsrc, hdem⟩
    dsimp only
    rw [setGrp_get, State.putSat, State.puti, get_put_far hg (by decide), State.demTake, if_pos hsrc, get_put_here hg (by decide), hdem]
    exact Nat.mod_eq_of_lt (get_lt s PE_GRP_DEM_MAN.DEM_MAN g 0)
  · intro t k hk hdem
    dsimp only
    rw [setGrp_get, State.putSat, State.puti, get_put_far hg (by decide), State.demTake]
    split
    · rwa [get_put_else hk.symm (by decide)]
    · exact hdem

theorem rateSwapped_far {f : Field} (hi : g < f.n1) (hj : 0 < f.n2) (hrate : touchSrateTake anyPart = touchSrateTake (awayFrom f))
    (hswap : touchFfTake anyPart = touchFfTake (awayFrom f)) : s.srateTake.ffTake.get f g = s.get f g := by
  rw [get_of_law (fun h => ffTake_keeps h (Keeps.refl _ _)) (touchFfTake_all anyPart_all) hi hj hswap,
    get_of_law (fun h => srateTake_keeps h (Keeps.refl _ _)) (touchSrateTake_all anyPart_all) hi hj hrate]

theorem strobeBegun_demand (hg : g < 8) (hman : s.get PE_GRP_CTRL.DEM_SRC g = 1) :
    (strobeBegun s i).get PE_GRP_DEM.DEM g = s.get PE_GRP_DEM_MAN.DEM_MAN g := by
  unfold strobeBegun
  split
  · rw [rateSwapped_far hg (by decide) rfl rfl, phaseStrobe_demand hg hman]
  · exact phaseStrobe_demand hg hman

theorem strobeBegun_src (hg : g < 8) : (strobeBegun s i).get PE_GRP_CTRL.DEM_SRC g = s.get PE_GRP_CTRL.DEM_SRC g := by
  have hstrobe : s.phaseStrobe.get PE_GRP_CTRL.DEM_SRC g = s.get PE_GRP_CTRL.DEM_SRC g :=
    get_of_law (fun h => phaseStrobe_keeps h (Keeps.refl _ s)) (touchPhaseStrobe_all anyPart_all) hg (by decide) rfl
  unfold strobeBegun
  split
  · rw [rateSwapped_far hg (by decide) rfl rfl, hstrobe]
  · exact hstrobe

theorem ffTake_swap : s.ffTake.le.swap = 0 := congrArg Le.swap (put_le ..)

theorem ffTake_far {f : Field} (hf : far 1 LE_FF_CTRL.ACT f = true) : s.ffTake.get f = s.get f := get_put_far Nat.zero_lt_one hf

/-- The pending rate comes into force at angle 0. -/
theorem strobeBegun_rate (hpend : s.le.sratePend = true) : (strobeBegun s 0).get LE_CTRL.SRATE_ACT = s.get LE_CTRL.SRATE ∧
    (strobeBegun s 0).get LE_CTRL.SR_STATUS = 2 := by
  have hle : s.phaseStrobe.le = s.le := le_of_law (fun h => phaseStrobe_keeps h (Keeps.refl _ s)) (touchPhaseStrobe_all anyPart_all) rfl
  have hrate : s.phaseStrobe.get LE_CTRL.SRATE = s.get LE_CTRL.SRATE :=
    get_of_law (fun h => phaseStrobe_keeps h (Keeps.refl _ s)) (touchPhaseStrobe_all anyPart_all) (by decide) (by decide) rfl
  have hpend' : s.phaseStrobe.le.sratePend = true := by rw [hle, hpend]
  rw [strobeBegun, if_pos rfl, ffTake_far (by decide), ffTake_far (by decide), srateTake_of_pending hpend', log_far1 (by decide),
    log_far1 (by decide), rateTaken_act, rateTaken_status, hrate]
  exact ⟨rfl, rfl⟩

end Sys2Proof.Proofs
end

section
/-! PROOFS. The results of the Loop Engine's commands, settled. -/

namespace Sys2Proof.Proofs

open Sys2Proof.Machine Sys2Proof.Laws R

/-- Settles O9: each command's next state, and what its fields read there. -/
theorem loopResults : Obligations.LoopResults := by
  unfold Obligations.LoopResults
  refine ⟨?_, ?_, ?_, ?_, ?_, ?_, ?_, ?_, ?_, ?_, ?_, ?_, ?_, ?_, ?_, ?_, ?_, ?_, ?_, ?_, ?_, ?_, ?_, ?_⟩
  · intro s i late g hstrobe hruns hg hman
    have hkeep := strobeLoops_keeps (t := strobeBegun s i) (i := i) (late := late) hg
    refine ⟨_, exec_sampleStrobe hstrobe hruns, ?_, fun hzero => ?_, fun hzero hpend => ?_⟩
    · rw [hkeep.dem ((strobeBegun_src hg).trans hman), strobeBegun_demand hg hman]
    · rw [hkeep.swap, strobeBegun, if_pos hzero, ffTake_swap]
    · have hrate := strobeBegun_rate hpend
      subst hzero
      exact ⟨hkeep.act.trans hrate.1, hkeep.status.trans hrate.2⟩
  · intro s l hl hhold hgood
    refine ⟨_, exec_loopHoldExit hl hhold hgood, ?_, ?_, ?_⟩
    · rw [get_log_far hl (by decide), holdLeft, loopState_state hl (by decide)]
    · rw [lx_of_loops (congrArg Le.loops log_le), holdLeft, loopState_lx, loopLateInit_good, lx_setLx]
    · exact (((records_setLx.trans records_loopLateInit).trans records_loopState).log (by decide)).logged
  · intro s sess v hmay hv hinj hinj' hcap hbudget
    rw [exec_srateChange_of_value hmay, srateWrite_of_free hv hinj hinj' hcap hbudget]
  · intro s sess v hmay hcap
    have hexec := exec_srateChange_of_value (v := v) hmay
    rw [srateWrite_of_capture hcap] at hexec
    refine ⟨_, hexec, ?_, ?_, ?_, (records_refl.put (f := LE_CTRL.SR_STATUS) (by decide) |>.log (by decide)).logged⟩
    · rw [log_le, put_le]
    · rw [log_far1 (by decide), get_put_far Nat.zero_lt_one (by decide)]
    · rw [log_far1 (by decide), get_put_here Nat.zero_lt_one (by decide)]
      rfl
  · intro s sess hangle hpend
    have hexec := exec_srateChange_of_angle (sess := sess) hangle
    rw [srateTake_of_pending hpend] at hexec
    refine ⟨_, hexec, ?_, ?_, (records_rateTaken.log (by decide)).logged⟩
    · rw [log_far1 (by decide), rateTaken_act]
    · rw [log_far1 (by decide), rateTaken_status]
  · intro s sess l hl hmay hoff hbudget
    refine ⟨_, exec_loopEnable hl hmay hoff hbudget, ?_, ?_, ?_⟩
    · rw [admitted, loopLoad_far hl (by decide) (by decide) (by decide), loopState_far hl (by decide) rfl, loopInit_far hl (by decide) rfl,
        get_put_far hl (by decide), get_put_here hl (by decide)]
      rfl
    · rw [admitted, loopLoad_far hl (by decide) (by decide) (by decide), loopState_far hl (by decide) rfl, loopInit_far hl (by decide) rfl,
        get_put_here hl (by decide)]
      rfl
    · rw [admitted, loopLoad_far hl (by decide) (by decide) (by decide), loopState_state hl (by split <;> decide)]
  · intro s sess l hl hmay
    refine ⟨_, exec_loopDisable hl hmay, ?_, ?_, loopDisable_out⟩
    · rw [State.loopDisable, loopLoad_far hl (by decide) (by decide) (by decide), injLeave_far hl (by decide) rfl, loopState_far hl (by decide) rfl,
        setLx_get, get_put_here hl (by decide)]
      rfl
    · rw [State.loopDisable, loopLoad_far hl (by decide) (by decide) (by decide), injLeave_far hl (by decide) rfl, loopState_state hl (by decide)]
  · intro s sess l man hl hmay
    exact exec_loopModeChange hl hmay
  · intro s l hl hauto hman
    rw [loopRow_of_manual hauto hman, get_log_far hl (by decide), injLeave_far hl (by decide) rfl, loopState_state hl (by decide)]
  · intro s sess l hl hmay
    exact ⟨_, exec_gtCommit hl hmay, lx_setLx, rfl⟩
  · intro s sess mask hmay
    exact exec_ffSwap hmay
  · intro s a l hdue hep hop hfinite hl hmask hon
    have hon' : s.angleZero.get LE_L_STAT.STATE l ≠ 0 := by rwa [angleZero_far hl (by decide) rfl]
    refine ⟨_, exec_setTarget hdue hep hop, ?_, laFinish_done (laLoops_fab fun t i => ?_)⟩
    · rw [laFinish_far hl (by decide) rfl, setTarget_target hl hmask hon' hfinite]
    · rw [slewShow_fab, State.putf, put_fab]
  · intro s a l hdue hep hop hl hmask hon hsrc hfinite
    have hon' : s.angleZero.get LE_L_STAT.STATE l ≠ 0 := by rwa [angleZero_far hl (by decide) rfl]
    have hsrc' : s.angleZero.get LE_L_SRC.SRC_T l = 0 := by rwa [angleZero_far hl (by decide) rfl]
    have hscaled : scaled s.angleZero a l = fMul (s.fl LE_L_R_TGT.R_TGT l) a.value := by
      rw [scaled, State.fl, angleZero_far hl (by decide) rfl]
      rfl
    refine ⟨_, exec_scaleTarget hdue hep hop, ?_, laFinish_done (laLoops_fab fun t i => ?_)⟩
    · rw [laFinish_far hl (by decide) rfl, scaleTarget_target hl hmask hon' hsrc' (hscaled ▸ hfinite), hscaled]
    · rw [slewShow_fab, State.putf, put_fab]
  · intro s a l hdue hep hop hfinite hpos hl hmask hon
    have hon' : s.angleZero.get LE_L_STAT.STATE l ≠ 0 := by rwa [angleZero_far hl (by decide) rfl]
    refine ⟨_, exec_setRate hdue hep hop, ?_, laFinish_done (laLoops_fab fun t i => put_fab ..)⟩
    rw [laFinish_far hl (by decide) rfl, setRate_rate hl hmask hon' hfinite hpos]
  · intro s a hdue hep hop hfinite hi
    refine ⟨_, exec_setParameter hdue hep hop hfinite hi, ?_, laFinish_done (put_fab ..)⟩
    rw [laFinish_far hi (by decide) rfl, putf_toNat hi (by decide) rfl]
  · intro s a l hdue hep hop hl hmask hon
    have hon' : s.angleZero.get LE_L_STAT.STATE l ≠ 0 := by rwa [angleZero_far hl (by decide) rfl]
    refine ⟨_, exec_setMode hdue hep hop, ?_, laFinish_done (laLoops_fab fun t i => put_fab ..)⟩
    rw [laFinish_far hl (by decide) rfl, setMode_mode hl hmask hon']
    cases fEq a.value 0#32 <;> rfl
  · intro s a j hdue hep hop hbyte hj hstate hok
    have hok' : (startReported s a).injOk j = true := (startReported_ok hj).trans hok
    obtain ⟨hrun, hen, hend⟩ := injStart_results hj hok'
    refine ⟨_, exec_startInjector hdue hep hop hbyte hj hstate, ?_, ?_, ?_, laFinish_done ((injStart_fab hok').trans startReported_fab)⟩
    · rw [laFinish_far hj (by decide) rfl, hrun]
    · rw [laFinish_far hj (by decide) rfl, hen]
    · rw [laFinish_far hj (by decide) rfl, hend]
  · intro s sess j hj hmay hidle hstart hok
    obtain ⟨hrun, hen, -⟩ := injStart_results hj hok
    refine ⟨_, exec_injectorEnable hj hmay hidle hstart, hrun, hen, injStart_injx hok, ?_⟩
    rw [injStart_of_ok hok]
    exact (records_injStarted.log (by decide)).logged
  · intro s j hj hwait hstamp hok
    exact ⟨_, exec_injectorStampStart hj hwait hstamp, injStart_results hj hok⟩
  · intro s j hj hrun hset hup
    have hne : s.get LE_INJ_CTRL.STATE j ≠ 0 := by omega
    obtain ⟨hstate, hen, hend⟩ := injEnd_results hj hne (reason := 1) (by decide)
    refine ⟨_, exec_injectorEnd hj hrun hset hup, hstate, hen, hend, ?_, ?_⟩
    · rw [injEnd_of_running hne, State.injx, log_le]
      exact injEnded_injx
    · rw [injEnd_of_running hne]
      exact (records_injEnded.log (by decide)).logged
  · intro s sess j hj hmay hne
    obtain ⟨hstate, hen, hend⟩ := injEnd_results hj hne (reason := 2) (by decide)
    refine ⟨_, exec_injectorDisable hj hmay, ?_, ?_, ?_⟩
    · rw [get_put_far hj (by decide), hstate]
    · rw [get_put_here hj (by decide)]
      rfl
    · rw [get_put_far hj (by decide), hend]
  · intro s sess hmay
    refine ⟨_, exec_captureArm hmay, ?_, ?_⟩
    · rw [State.capArm, get_put_here Nat.zero_lt_one (by decide)]
      split <;> rfl
    · rw [State.capArm, put_le]
  · intro s harmed hhit
    refine ⟨_, exec_captureTrigger harmed hhit, ?_, ?_⟩
    · rw [triggered, get_put_here Nat.zero_lt_one (by decide)]
      rfl
    · rw [triggered, put_le]
  · intro s hfill hfull
    have hne : s.le.cap ≠ [] := by
      intro h
      rw [h] at hfull
      exact absurd hfull (by decide)
    have hfirst := List.getLast?_eq_some_getLast hne
    refine ⟨_, exec_captureDone hfill hfull hfirst, ?_, ?_, ?_⟩
    · rw [log_far1 (by decide), captured, get_put_here Nat.zero_lt_one (by decide)]
      rfl
    · rw [captured_stamp, hfirst]
      rfl
    · exact (records_refl |>.put (f := LE_CAP_STAMP_LO.STAMP) (by decide) |>.put (f := LE_CAP_STAMP_HI.STAMP) (by decide)
        |>.put (f := LE_CAP_CTRL.STATE) (by decide) |>.log (by decide)).logged

end Sys2Proof.Proofs
end

section
/-! PROOFS. The supply's bands, the hold-up store, VBAT, and the requests for QUIET and RUN. -/

namespace Sys2Proof.Proofs

open Sys2Proof.Machine Sys2Proof.Laws R

variable {s t : State} {mv us v e sess n : Nat}

theorem setBoot_get {b : Boot} (f : Field) (i j : Nat) : ({ s with boot := b } : State).get f i j = s.get f i j := rfl

theorem setBoot_evr {b : Boot} : ({ s with boot := b } : State).evr = s.evr := rfl

theorem get_putMax_here {i : Nat} {f : Field} (hi : i < n) (h : fits n f = true) : (s.putMax f v i).get f i = min v (2 ^ f.w - 1) := by
  rw [State.putMax, get_put_here hi h]
  exact Nat.mod_eq_of_lt ((Nat.min_le_right ..).trans_lt (Nat.sub_lt (Nat.two_pow_pos _) Nat.one_pos))

theorem get_putMax_far {i i' j : Nat} {f g : Field} (hi : i' < n) (h : far n f g = true) : (s.putMax f v i j).get g i' = s.get g i' :=
  get_put_far hi h

theorem get_putb_here {b : Bool} {i : Nat} {f : Field} (hi : i < n) (h : fits n f = true) (hw : 1 ≤ f.w) :
    (s.putb f b i).get f i = if b then 1 else 0 := by
  rw [State.putb, get_put_here hi h]
  refine Nat.mod_eq_of_lt ?_
  have htwo : 2 ^ 1 ≤ 2 ^ f.w := Nat.pow_le_pow_right (by decide) hw
  cases b <;> simp only [if_true, Bool.false_eq_true, if_false] <;> omega

/-! ### Every phase stops (R57) -/

theorem stopPhases_far {f : Field} {i : Nat} (hi : i < f.n1) (hj : 0 < f.n2) (haway : touchStopPhases anyPart = touchStopPhases (awayFrom f)) :
    s.stopPhases.get f i = s.get f i :=
  get_of_law (fun h => stopPhases_keeps h (Keeps.refl _ s)) (touchStopPhases_all anyPart_all) hi hj haway

theorem stopPhases_gates : s.stopPhases.pins.gateH = 0 ∧ s.stopPhases.pins.gateL = 0 := by
  rw [State.stopPhases]
  exact ⟨rfl, rfl⟩

theorem gden_get (f : Field) (i j : Nat) : s.gden.get f i j = s.get f i j := rfl

theorem gden_gates : s.gden.pins.gateH = s.pins.gateH ∧ s.gden.pins.gateL = s.pins.gateL := ⟨rfl, rfl⟩

theorem phaseStop_state (hn : n < 96) : (s.phaseStop n).get PE_PH_STAT.STATE n = 0 := by
  rw [State.phaseStop, State.phaseOff, get_put_far hn (by decide), phaseState_state hn (by decide)]

theorem phaseStop_else {m : Nat} (hm : m < 96) (hne : m ≠ n) : (s.phaseStop n).get PE_PH_STAT.STATE m = s.get PE_PH_STAT.STATE m := by
  rw [State.phaseStop, State.phaseOff, get_put_far hm (by decide), phaseState_else hm hne]
  rfl

/-- No phase is ACTIVE once every phase has been stopped. -/
theorem stopPhases_state (hn : n < 96) : s.stopPhases.get PE_PH_STAT.STATE n ≠ 2 := by
  have hcfg : ∀ (t : State) (g : Nat), (t.groupCfg g).get PE_PH_STAT.STATE n = t.get PE_PH_STAT.STATE n := fun t g => get_put_far hn (by decide)
  have hgates : ∀ t : State, t.gatesLow.get PE_PH_STAT.STATE n = t.get PE_PH_STAT.STATE n := fun _ => rfl
  rw [State.stopPhases, hgates]
  refine List.foldlRecOn (motive := fun t : State => t.get PE_PH_STAT.STATE n ≠ 2) _ _ ?_ fun t ht g _ => ?_
  · refine each_reaches (P := fun _ => True) (Q := fun t => t.get PE_PH_STAT.STATE n ≠ 2) hn trivial (fun _ _ _ _ => trivial)
      (fun t _ => ?_) fun t i hne ht => ?_
    · split
      next h => rw [phaseStop_state hn]; decide
      next h => simpa using (Bool.or_eq_false_iff.mp (Bool.eq_false_iff.mpr h)).2
    · split
      · rwa [phaseStop_else hn (Ne.symm hne)]
      · exact ht
  · rwa [hcfg]

/-! ### The bands of VSUP (R48) -/

/-- VSUP in 10 mV fits its field while it is below 655 V. -/
theorem vsup_eq (h : mv < 655360) : s.vsup mv = s.put PWR_VMON.VSUP (mv / 10) := by
  have hw : 2 ^ PWR_VMON.VSUP.w - 1 = 65535 := rfl
  rw [State.vsup, State.putMax, hw, Nat.min_eq_left (by omega)]

theorem exec_lowBandEntry (hsup : s.supplied = true) (hnormal : s.vsupNormal = true) (hmv : mv < 15500) (hus : 1000 ≤ us) :
    exec (.vsupLowBandEntry mv us) s =
      .next ((((s.vsup mv).put PWR_SUPPLY_STAT.LOW_BAND 1).put PWR_SUPPLY_STAT.LOW_SEEN 1).log 0x0101 NOTICE) := by
  have harm : exec (.vsupLowBandEntry mv us) s = execVsupLowBandEntry mv us s := rfl
  rw [harm, execVsupLowBandEntry, if_pos (by simp [hsup, hnormal, hmv, hus])]

theorem exec_lowBandExit (hsup : s.supplied = true) (hband : s.get PWR_SUPPLY_STAT.LOW_BAND = 1) (hmv : 16000 ≤ mv) (hus : 1000 ≤ us) :
    exec (.vsupLowBandExit mv us) s = .next (((s.vsup mv).put PWR_SUPPLY_STAT.LOW_BAND 0).log 0x0102 INFO) := by
  have harm : exec (.vsupLowBandExit mv us) s = execVsupLowBandExit mv us s := rfl
  rw [harm, execVsupLowBandExit, if_pos (by simp [hsup, State.is, hband, hmv, hus])]

theorem exec_highBandEntry (hsup : s.supplied = true) (hnormal : s.vsupNormal = true) (hmv : 36500 < mv) (hus : 1000 ≤ us) :
    exec (.vsupHighBandEntry mv us) s = .next (((s.vsup mv).put PWR_SUPPLY_STAT.HIGH_BAND 1).log 0x0109 NOTICE) := by
  have harm : exec (.vsupHighBandEntry mv us) s = execVsupHighBandEntry mv us s := rfl
  rw [harm, execVsupHighBandEntry, if_pos (by simp [hsup, hnormal, hmv, hus])]

theorem exec_highBandExit (hsup : s.supplied = true) (hband : s.get PWR_SUPPLY_STAT.HIGH_BAND = 1) (hmv : mv ≤ 36000) (hus : 1000 ≤ us) :
    exec (.vsupHighBandExit mv us) s = .next (((s.vsup mv).put PWR_SUPPLY_STAT.HIGH_BAND 0).log 0x010A INFO) := by
  have harm : exec (.vsupHighBandExit mv us) s = execVsupHighBandExit mv us s := rfl
  rw [harm, execVsupHighBandExit, if_pos (by simp [hsup, State.is, hband, hmv, hus])]

/-- The over-voltage band is shown and logged. -/
def overVolted (s : State) (mv : Nat) : State :=
  (((((s.vsup mv).put PWR_SUPPLY_STAT.LOW_BAND 0).put PWR_SUPPLY_STAT.HIGH_BAND 0).put PWR_SUPPLY_STAT.OVERV 1).put
    PWR_SUPPLY_STAT.OVERV_SEEN 1).log 0x0104 FAULT

theorem exec_overVoltage (hsup : s.supplied = true) (hband : s.get PWR_SUPPLY_STAT.OVERV = 0) (hmv : 38000 < mv) (hus : 1000 ≤ us) :
    exec (.vsupOverVoltage mv us) s = .next (overVolted s mv).toQuiet := by
  have harm : exec (.vsupOverVoltage mv us) s = execVsupOverVoltage mv us s := rfl
  rw [harm, execVsupOverVoltage, if_pos (by simp [hsup, State.is, hband, hmv, hus])]
  rfl

theorem exec_overVoltageExit (hsup : s.supplied = true) (hband : s.get PWR_SUPPLY_STAT.OVERV = 1) (hmv : mv < 36500) (hus : 1000 ≤ us) :
    exec (.vsupOverVoltageExit mv us) s = .next (((s.vsup mv).put PWR_SUPPLY_STAT.OVERV 0).put PWR_SUPPLY_STAT.HIGH_BAND 1) := by
  have harm : exec (.vsupOverVoltageExit mv us) s = execVsupOverVoltageExit mv us s := rfl
  rw [harm, execVsupOverVoltageExit, if_pos (by simp [hsup, State.is, hband, hmv, hus])]

/-- A module in RUN leaves it with every phase stopped. -/
theorem toQuiet_of_run (h : s.get PWR_STATE.STATE = 0) : s.toQuiet = (s.put PWR_STATE.STATE 1).stopPhases.gden := if_pos (by simp [State.inRun, h])

theorem toQuiet_state (h : s.get PWR_STATE.STATE = 0) : s.toQuiet.get PWR_STATE.STATE = 1 := by
  rw [toQuiet_of_run h, gden_get, stopPhases_far (by decide) (by decide) rfl, get_put_here Nat.zero_lt_one (by decide)]
  rfl

theorem toQuiet_far {f : Field} (h : s.get PWR_STATE.STATE = 0) (hf : 0 < f.n1) (hj : 0 < f.n2)
    (haway : touchStopPhases anyPart = touchStopPhases (awayFrom f)) (hst : far 1 PWR_STATE.STATE f = true) : s.toQuiet.get f = s.get f := by
  rw [toQuiet_of_run h, gden_get, stopPhases_far hf hj haway, get_put_far Nat.zero_lt_one hst]

theorem toQuiet_gates (h : s.get PWR_STATE.STATE = 0) : s.toQuiet.pins.gateH = 0 ∧ s.toQuiet.pins.gateL = 0 := by
  rw [toQuiet_of_run h, gden_gates.1, gden_gates.2]
  exact stopPhases_gates

theorem overVolted_get {f : Field} (hlog : clearOf 1 f logParts = true) (h4 : far 1 PWR_SUPPLY_STAT.OVERV_SEEN f = true)
    (h3 : far 1 PWR_SUPPLY_STAT.OVERV f = true) : (overVolted s mv).get f =
      (((s.vsup mv).put PWR_SUPPLY_STAT.LOW_BAND 0).put PWR_SUPPLY_STAT.HIGH_BAND 0).get f := by
  rw [overVolted, log_far1 hlog, get_put_far Nat.zero_lt_one h4, get_put_far Nat.zero_lt_one h3]

theorem overVolted_state : (overVolted s mv).get PWR_STATE.STATE = s.get PWR_STATE.STATE := by
  rw [overVolted_get (by decide) (by decide) (by decide), get_put_far Nat.zero_lt_one (by decide), get_put_far Nat.zero_lt_one (by decide),
    State.vsup, get_putMax_far Nat.zero_lt_one (by decide)]

/-! ### The hold-up store and VBAT (R50, R53) -/

/-- `HOLDUP_OK` as R50 has it follow the store and its last test. -/
def storeGood (s : State) : Bool :=
  decide (160 ≤ s.get PWR_HOLDUP.VSTORE) && (match s.boot.storeTest with | none => false | some p => p || !s.is PWR_HOLDUP.HOLDUP_ENF)

theorem holdupShow_eq : s.holdupShow = s.holdupOk (storeGood s) := rfl

theorem holdupOk_true : s.holdupOk true = s.putb PWR_HOLDUP.HOLDUP_OK true := rfl

theorem holdupOk_false : s.holdupOk false = (s.putb PWR_HOLDUP.HOLDUP_OK false).stopPhases := rfl

theorem holdupOk_shown {b : Bool} : (s.holdupOk b).get PWR_HOLDUP.HOLDUP_OK = if b then 1 else 0 := by
  cases b
  · rw [holdupOk_false, stopPhases_far (by decide) (by decide) rfl, get_putb_here Nat.zero_lt_one (by decide) (by decide)]
  · rw [holdupOk_true, get_putb_here Nat.zero_lt_one (by decide) (by decide)]

theorem holdupShow_far {f : Field} (hi : 0 < f.n1) (hj : 0 < f.n2) (haway : touchHoldupShow anyPart = touchHoldupShow (awayFrom f)) :
    s.holdupShow.get f = s.get f :=
  get_of_law (fun h => holdupShow_keeps h (Keeps.refl _ s)) (touchHoldupShow_all anyPart_all) hi hj haway

theorem exec_holdupStoreTest (hsup : s.supplied = true) (hv : 164 ≤ v) :
    exec (.holdupStoreTest v) s = .next ((s.putMax PWR_HOLDUP.VSTORE v).holdupShow.put PWR_HOLDUP.TESTING 1) := by
  have harm : exec (.holdupStoreTest v) s = execHoldupStoreTest v s := rfl
  rw [harm, execHoldupStoreTest, if_pos hsup]
  exact congrArg _ (if_pos hv)

/-- A store at 40 V or above is good by its test alone. -/
theorem storeGood_putMax (hv : 160 ≤ v) : storeGood (s.putMax PWR_HOLDUP.VSTORE v) = true ↔
    s.boot.storeTest = some true ∨ (s.boot.storeTest ≠ none ∧ s.get PWR_HOLDUP.HOLDUP_ENF = 0) := by
  have hstore : 160 ≤ (s.putMax PWR_HOLDUP.VSTORE v).get PWR_HOLDUP.VSTORE := by
    rw [get_putMax_here Nat.zero_lt_one (by decide)]
    exact Nat.le_min.mpr ⟨hv, by decide⟩
  have henf : (s.putMax PWR_HOLDUP.VSTORE v).get PWR_HOLDUP.HOLDUP_ENF = s.get PWR_HOLDUP.HOLDUP_ENF := get_putMax_far Nat.zero_lt_one (by decide)
  have hboot : (s.putMax PWR_HOLDUP.VSTORE v).boot = s.boot := put_boot ..
  rw [storeGood, hboot, State.is, henf, decide_eq_true hstore, Bool.true_and]
  have hlt : s.get PWR_HOLDUP.HOLDUP_ENF < 2 := get_lt ..
  rcases s.boot.storeTest with _ | _ | _
  · simp
  · simp only [Bool.false_or, Bool.not_eq_true', beq_eq_false_iff_ne, Option.some.injEq, Bool.false_eq_true, false_or, reduceCtorEq, not_false_eq_true,
      true_and, ne_eq]
    omega
  · simp

theorem exec_holdupTestRequest (hmay : s.writeStatus sess PWR_HOLDUP.TEST = 0) (htest : s.get PWR_HOLDUP.TESTING = 0)
    (hfail : s.boot.failing = false) : exec (.holdupTestRequest sess) s = .next (s.put PWR_HOLDUP.TESTING 1) := by
  have harm : exec (.holdupTestRequest sess) s = execHoldupTestRequest sess s := rfl
  rw [harm, execHoldupTestRequest, guarded_of_writeStatus_zero _ hmay, State.when, if_pos (by simp [State.is, htest, hfail])]

/-- The store as its test has measured it. -/
def storeMeasured (s : State) (e v : Nat) : State :=
  ((s.put PWR_HOLDUP.TESTING 0).putMax PWR_HOLDUP.E_USABLE e).putMax PWR_HOLDUP.VSTORE v

/-- The store with the result of its test, before `HOLDUP_OK` follows. -/
def storeTested (s : State) (e v : Nat) : State :=
  { storeMeasured s e v with boot := { (storeMeasured s e v).boot with storeTest := some (decide (1920 ≤ e)) } }

theorem exec_holdupTestDone (hsup : s.supplied = true) (htest : s.get PWR_HOLDUP.TESTING = 1) : exec (.holdupTestDone e v) s =
    .next (if e < 1920 then (storeTested s e v).holdupShow.log 0x0106 FAULT else (storeTested s e v).holdupShow) := by
  have harm : exec (.holdupTestDone e v) s = execHoldupTestDone e v s := rfl
  rw [harm, execHoldupTestDone, if_pos (by simp [hsup, State.is, htest])]
  rfl

theorem storeTested_get (f : Field) (i j : Nat) : (storeTested s e v).get f i j = (storeMeasured s e v).get f i j := by
  rw [storeTested, setBoot_get]

theorem storeTested_testing : (storeTested s e v).get PWR_HOLDUP.TESTING = 0 := by
  rw [storeTested_get, storeMeasured, get_putMax_far Nat.zero_lt_one (by decide), get_putMax_far Nat.zero_lt_one (by decide),
    get_put_here Nat.zero_lt_one (by decide)]
  rfl

theorem storeTested_energy : (storeTested s e v).get PWR_HOLDUP.E_USABLE = min e (2 ^ PWR_HOLDUP.E_USABLE.w - 1) := by
  rw [storeTested_get, storeMeasured, get_putMax_far Nat.zero_lt_one (by decide), get_putMax_here Nat.zero_lt_one (by decide)]

theorem storeTested_store : (storeTested s e v).get PWR_HOLDUP.VSTORE = min v (2 ^ PWR_HOLDUP.VSTORE.w - 1) := by
  rw [storeTested_get, storeMeasured, get_putMax_here Nat.zero_lt_one (by decide)]

theorem storeGood_of_passed (hv : 160 ≤ v) (he : 1920 ≤ e) : storeGood (storeTested s e v) = true := by
  have hstore : 160 ≤ (storeTested s e v).get PWR_HOLDUP.VSTORE := by
    rw [storeTested_store]
    exact Nat.le_min.mpr ⟨hv, by decide⟩
  have htest : (storeTested s e v).boot.storeTest = some (decide (1920 ≤ e)) := rfl
  rw [storeGood, htest, decide_eq_true hstore, decide_eq_true he]
  rfl

theorem storeGood_of_low (hv : v < 160) : storeGood (storeTested s e v) = false := by
  have hstore : ¬ 160 ≤ (storeTested s e v).get PWR_HOLDUP.VSTORE := by
    rw [storeTested_store]
    exact Nat.not_le.mpr ((Nat.min_le_left ..).trans_lt hv)
  rw [storeGood, decide_eq_false hstore, Bool.false_and]

/-- VBAT as it reads when it is low. -/
def batteryLow (s : State) (mv : Nat) : State :=
  ((s.putMax PWR_VMON.VBAT mv).put PWR_SUPPLY_STAT.VBAT_LOW 1).put PWR_SUPPLY_STAT.VBAT_SEEN 1

theorem batteryLow_far {f : Field} (h1 : far 1 PWR_VMON.VBAT f = true) (h2 : far 1 PWR_SUPPLY_STAT.VBAT_LOW f = true)
    (h3 : far 1 PWR_SUPPLY_STAT.VBAT_SEEN f = true) : (batteryLow s mv).get f = s.get f := by
  rw [batteryLow, get_put_far Nat.zero_lt_one h3, get_put_far Nat.zero_lt_one h2, get_putMax_far Nat.zero_lt_one h1]

theorem exec_vbatLow (hruns : s.runs 1 = true) (hmv : mv < 2600) (hlow : s.get PWR_SUPPLY_STAT.VBAT_LOW = 0) :
    exec (.vbatLow mv) s = .next ((batteryLow s mv).log 0x0105 WARNING) := by
  have harm : exec (.vbatLow mv) s = execVbatLow mv s := rfl
  have hruns' : (batteryLow s mv).runs 1 = true := by
    rw [State.runs, batteryLow_far (by decide) (by decide) (by decide), batteryLow_far (by decide) (by decide) (by decide)]
    exact hruns
  rw [harm, execVbatLow, if_pos (by simp [State.is, hlow, hmv])]
  exact congrArg _ (if_pos hruns')

theorem exec_vbatRestored (hmv : 2600 ≤ mv) :
    exec (.vbatRestored mv) s = .next ((s.putMax PWR_VMON.VBAT mv).put PWR_SUPPLY_STAT.VBAT_LOW 0) := by
  have harm : exec (.vbatRestored mv) s = execVbatRestored mv s := rfl
  rw [harm, execVbatRestored, if_pos hmv]

/-! ### Requests for QUIET and RUN (R57) -/

theorem exec_quietRequest (hmay : s.writeStatus sess PWR_STATE.CMD = 0) : exec (.quietRequest sess) s = .next s.quietRequest := by
  have harm : exec (.quietRequest sess) s = execQuietRequest sess s := rfl
  rw [harm, execQuietRequest, guarded_of_writeStatus_zero _ hmay]

theorem exec_runRequest (hmay : s.writeStatus sess PWR_STATE.CMD = 0) : exec (.runRequest sess) s = .next s.runRequest := by
  have harm : exec (.runRequest sess) s = execRunRequest sess s := rfl
  rw [harm, execRunRequest, guarded_of_writeStatus_zero _ hmay]

/-- What a RUN request tests does not depend on the command that asks. -/
theorem runRefusal_put : (s.put PWR_STATE.CMD v).runRefusal = s.runRefusal := by
  rw [State.runRefusal, State.runRefusal, State.is, State.is, State.is, get_put_far Nat.zero_lt_one (by decide),
    get_put_far Nat.zero_lt_one (by decide), get_put_far Nat.zero_lt_one (by decide), get_put_far Nat.zero_lt_one (by decide)]
  rfl

theorem runRefusal_lt : s.runRefusal < 16 := by
  rw [State.runRefusal]
  split_ifs <;> decide

/-- A RUN request from QUIET with its result, before the module leaves QUIET. -/
def runAnswered (s : State) : State := (s.put PWR_STATE.CMD 2).put PWR_STATE.RESULT s.runRefusal

theorem runRequest_of_quiet (h : s.get PWR_STATE.STATE = 1) :
    s.runRequest = if s.runRefusal = 0 then ((runAnswered s).put PWR_STATE.STATE 0).gden else runAnswered s := by
  have hquiet : (s.put PWR_STATE.CMD 2).inRun = false := by
    rw [State.inRun, get_put_far Nat.zero_lt_one (by decide), h]
    rfl
  rw [State.runRequest, if_neg (by simp [hquiet]), runRefusal_put]
  rfl

theorem runAnswered_result : (runAnswered s).get PWR_STATE.RESULT = s.runRefusal := by
  rw [runAnswered, get_put_here Nat.zero_lt_one (by decide)]
  exact Nat.mod_eq_of_lt runRefusal_lt

end Sys2Proof.Proofs
end

section
/-! PROOFS. The hold-up sequence (R51, R52). -/

namespace Sys2Proof.Proofs

open Sys2Proof.Machine Sys2Proof.Laws R

variable {s t : State} {mv us back d : Nat} {rail : Bool} {o : BootObs}

/-! ### What the sequence brings down -/

/-- The gates and their supply are low, and the Safe-Off sequencer works on the list of a supply fail. -/
structure Quelled (t : State) : Prop where
  gateH : t.pins.gateH = 0
  gateL : t.pins.gateL = 0
  gden : t.pins.gden = 0
  list : t.saf.list = 2

/-- Every part but the pins and the Safe-Off sequencer. -/
def besidePinsSaf : Part → Prop
  | .pins => False
  | .saf => False
  | _ => True

theorem quelled_of_law {names : (Part → Prop) → Prop} (h : Quelled s) (law : ∀ {A}, names A → Keeps A s t) (all : names anyPart)
    (haway : names anyPart = names besidePinsSaf) : Quelled t := by
  have hkeeps : Keeps besidePinsSaf s t := law (haway ▸ all)
  have hpins : t.pins = s.pins := hkeeps.same.pins.resolve_left id
  have hsaf : t.saf = s.saf := hkeeps.same.saf.resolve_left id
  exact ⟨hpins ▸ h.gateH, hpins ▸ h.gateL, hpins ▸ h.gden, hsaf ▸ h.list⟩

theorem quelled_when {c : Bool} {g : State → State} (h : Quelled s) (hg : ∀ t, Quelled t → Quelled (g t)) : Quelled (s.when c g) := by
  unfold State.when
  split
  · exact hg s h
  · exact h

theorem quelled_put {f : Field} {v i j : Nat} (h : Quelled s) : Quelled (s.put f v i j) := by
  have hpins : (s.put f v i j).pins = s.pins := put_pins ..
  have hsaf : (s.put f v i j).saf = s.saf := put_saf ..
  exact ⟨hpins ▸ h.gateH, hpins ▸ h.gateL, hpins ▸ h.gden, hsaf ▸ h.list⟩

theorem quelled_setSeq {c v : Nat} (h : Quelled s) : Quelled (s.setSeq c v) := ⟨h.gateH, h.gateL, h.gden, h.list⟩

theorem quelled_supplyFailList : Quelled s.supplyFailList := by
  rw [State.supplyFailList]
  refine List.foldlRecOn (motive := Quelled) _ _ ⟨rfl, rfl, rfl, rfl⟩ fun t ht c _ => ?_
  dsimp only
  split_ifs
  · exact ht
  · exact quelled_setSeq ht
  · exact quelled_setSeq ht

theorem quelled_resetD3 (h : Quelled s) : Quelled s.resetD3 := by
  have hclosed : Quelled ((s.leasesLapse.tmxClear.sessCloseAll 3).stageFree) := by
    refine quelled_of_law (names := fun A => touchLeasesLapse A ∧ touchTmxClear A ∧ touchSessCloseAll A ∧ touchStageFree A) h (fun hA => ?_)
      ⟨touchLeasesLapse_all anyPart_all, touchTmxClear_all anyPart_all, touchSessCloseAll_all anyPart_all, touchStageFree_all anyPart_all⟩ rfl
    exact stageFree_keeps hA.2.2.2 (sessCloseAll_keeps hA.2.2.1 (tmxClear_keeps hA.2.1 (leasesLapse_keeps hA.1 (Keeps.refl _ s))))
  exact ⟨hclosed.gateH, hclosed.gateL, hclosed.gden, hclosed.list⟩

theorem quelled_resetHidden {doms : Nat} (h : Quelled s) : Quelled (s.resetHidden doms) := by
  rw [State.resetHidden]
  have h1 : Quelled (s.when (bit doms 3) State.resetD3) := quelled_when h fun _ => quelled_resetD3
  have h2 := quelled_when (c := bit doms 4) (g := fun t => { t with tb := {}, pins := { t.pins with apo := false } }) h1
    fun t ht => ⟨ht.gateH, ht.gateL, ht.gden, ht.list⟩
  have h3 := quelled_when (c := Nat.land doms 0x70 != 0) (g := State.groupsIdle) h2
    fun t ht => quelled_of_law ht (fun hA => groupsIdle_keeps hA (Keeps.refl _ t)) (touchGroupsIdle_all anyPart_all) rfl
  have h4 := quelled_of_law h3 (fun hA => resetPhases_keeps (doms := doms) hA (Keeps.refl _ _)) (touchResetPhases_all anyPart_all) rfl
  have h5 := quelled_when (c := bit doms 7) (g := State.resetD7) h4
    fun t ht => quelled_of_law ht (fun hA => resetD7_keeps hA (Keeps.refl _ t)) (touchResetD7_all anyPart_all) rfl
  have h6 := quelled_when (c := bit doms 8) (g := fun t => { t.rootReset doms with fab := {} }) h5 fun t ht => by
    have hroot : Quelled (t.rootReset doms) := quelled_of_law ht (fun hA => rootReset_keeps hA (Keeps.refl _ t)) (touchRootReset_all anyPart_all) rfl
    exact ⟨hroot.gateH, hroot.gateL, hroot.gden, hroot.list⟩
  have h7 := quelled_when (c := bit doms 9) (g := State.resetD9) h6
    fun t ht => quelled_of_law ht (fun hA => resetD9_keeps hA (Keeps.refl _ t)) (touchResetD9_all anyPart_all) rfl
  have h8 := quelled_when (c := bit doms 10) (g := State.resetD10) h7 fun t ht => ⟨ht.gateH, ht.gateL, ht.gden, ht.list⟩
  exact quelled_when h8 fun t ht => quelled_of_law ht (fun hA => kvClear_keeps hA (Keeps.refl _ t)) (touchKvClear_all anyPart_all) rfl

/-! ### Its declaration (R51) -/

/-- The supply fail is declared: QUIET, and nothing else in progress. -/
def failMarked (s : State) (rail : Bool) : State :=
  let s1 := ((s.stopPhases.put PWR_STATE.STATE 1).put PWR_HOLDUP.TESTING 0).put SYS_ROLE_CMD.APPLY 0
  { s1 with boot := { s1.boot with kind := 0, doms := 0, further := 0, failing := true, rail := rail, apply := 0, applyRan := false } }

/-- Accumulation and billing close, before D3 to D9 and D11 go off. -/
def failClosed (s : State) : State := if bit s.supplyFailList.metClose.running 7 then s.supplyFailList.metClose.billClose else s.supplyFailList.metClose

/-- What the domains that go off lose. -/
def failReset (s : State) : State := (failClosed s).resetHidden 0xBF8

/-- The domains that stay on, and the ready bits that stay set. -/
def failDown (s : State) (rail : Bool) : State :=
  let s7 := (s.put PWR_DOM_STAT.ON (Nat.land (s.get PWR_DOM_STAT.ON) 0x407)).put SYS_READY.RDY (clrBits (s.get SYS_READY.RDY) (readyIn 0xBF8))
  if rail then s7.put SYS_READY.PIN 0 else s7

theorem failDeclare_eq : s.failDeclare rail =
    ((failDown (failReset (failMarked s rail)) rail).metCommit (s.is MET_STAT.ACC || s.met.com.closing)).keepCommit := rfl

def touchFailReset (A : Part → Prop) : Prop := touchSupplyFailList A ∧ touchMetClose A ∧ touchBillClose A ∧ touchResetHidden A

theorem touchFailReset_all : touchFailReset anyPart :=
  ⟨touchSupplyFailList_all anyPart_all, touchMetClose_all anyPart_all, touchBillClose_all anyPart_all, touchResetHidden_all anyPart_all⟩

theorem failReset_keeps {A : Part → Prop} (hA : touchFailReset A) : Keeps A s (failReset s) := by
  obtain ⟨hlist, hmet, hbill, hreset⟩ := hA
  have hclose : Keeps A s s.supplyFailList.metClose := metClose_keeps hmet (supplyFailList_keeps hlist (Keeps.refl _ s))
  exact resetHidden_keeps hreset (keeps_ite (billClose_keeps hbill hclose) hclose)

def touchFailCommit (A : Part → Prop) : Prop := touchMetCommit A ∧ touchKeepCommit A

theorem touchFailCommit_all : touchFailCommit anyPart := ⟨touchMetCommit_all anyPart_all, touchKeepCommit_all anyPart_all⟩

theorem failCommit_keeps {A : Part → Prop} {closing : Bool} (hA : touchFailCommit A) : Keeps A s (s.metCommit closing).keepCommit :=
  keepCommit_keeps hA.2 (metCommit_keeps hA.1 (Keeps.refl _ s))

theorem failReset_far {f : Field} (hi : 0 < f.n1) (hj : 0 < f.n2) (haway : touchFailReset anyPart = touchFailReset (awayFrom f)) :
    (failReset s).get f = s.get f :=
  get_of_law (fun h => failReset_keeps h) touchFailReset_all hi hj haway

theorem failDown_far {f : Field} (hon : far 1 PWR_DOM_STAT.ON f = true) (hrdy : far 1 SYS_READY.RDY f = true) (hpin : far 1 SYS_READY.PIN f = true) :
    (failDown s rail).get f = s.get f := by
  have hdown : ((s.put PWR_DOM_STAT.ON (Nat.land (s.get PWR_DOM_STAT.ON) 0x407)).put SYS_READY.RDY (clrBits (s.get SYS_READY.RDY) (readyIn 0xBF8))).get f =
      s.get f := by
    rw [get_put_far Nat.zero_lt_one hrdy, get_put_far Nat.zero_lt_one hon]
  rw [failDown]
  cases rail
  · rw [if_neg (by decide), hdown]
  · rw [if_pos rfl, get_put_far Nat.zero_lt_one hpin, hdown]

theorem failDown_on : (failDown s rail).get PWR_DOM_STAT.ON = Nat.land (s.get PWR_DOM_STAT.ON) 0x407 := by
  have hdown : ((s.put PWR_DOM_STAT.ON (Nat.land (s.get PWR_DOM_STAT.ON) 0x407)).put SYS_READY.RDY
      (clrBits (s.get SYS_READY.RDY) (readyIn 0xBF8))).get PWR_DOM_STAT.ON = Nat.land (s.get PWR_DOM_STAT.ON) 0x407 := by
    rw [get_put_far Nat.zero_lt_one (by decide), get_put_here Nat.zero_lt_one (by decide)]
    exact Nat.mod_eq_of_lt (Nat.and_lt_two_pow _ (by decide))
  rw [failDown]
  cases rail
  · rw [if_neg (by decide), hdown]
  · rw [if_pos rfl, get_put_far Nat.zero_lt_one (by decide), hdown]

theorem failDown_boot : (failDown s rail).boot = s.boot := by
  rw [failDown]
  cases rail <;> simp

theorem failDeclare_far {f : Field} (hi : 0 < f.n1) (hj : 0 < f.n2) (hcommit : touchFailCommit anyPart = touchFailCommit (awayFrom f)) :
    (s.failDeclare rail).get f = (failDown (failReset (failMarked s rail)) rail).get f :=
  get_of_law (fun h => failDeclare_eq ▸ failCommit_keeps h) touchFailCommit_all hi hj hcommit

theorem boot_of_law {names : (Part → Prop) → Prop} (law : ∀ {A}, names A → Keeps A s t) (all : names anyPart)
    (haway : names anyPart = names besideBoot) : t.boot = s.boot := (law (haway ▸ all)).same.boot.resolve_left id

theorem failDeclare_boot : (s.failDeclare rail).boot = (failMarked s rail).boot := by
  have hcommit : (s.failDeclare rail).boot = (failDown (failReset (failMarked s rail)) rail).boot :=
    boot_of_law (fun h => failDeclare_eq ▸ failCommit_keeps h) touchFailCommit_all rfl
  have hreset : (failReset (failMarked s rail)).boot = (failMarked s rail).boot := boot_of_law (fun h => failReset_keeps h) touchFailReset_all rfl
  rw [hcommit, failDown_boot, hreset]

theorem failMarked_get (f : Field) (i j : Nat) : (failMarked s rail).get f i j =
    (((s.stopPhases.put PWR_STATE.STATE 1).put PWR_HOLDUP.TESTING 0).put SYS_ROLE_CMD.APPLY 0).get f i j := by
  rw [failMarked, setBoot_get]

theorem failDeclare_failing : (s.failDeclare rail).boot.failing = true ∧ (s.failDeclare rail).boot.rail = rail := by
  rw [failDeclare_boot]
  exact ⟨rfl, rfl⟩

theorem failDeclare_state : (s.failDeclare rail).get PWR_STATE.STATE = 1 := by
  rw [failDeclare_far (by decide) (by decide) rfl, failDown_far (by decide) (by decide) (by decide), failReset_far (by decide) (by decide) rfl,
    failMarked_get, get_put_far Nat.zero_lt_one (by decide), get_put_far Nat.zero_lt_one (by decide), get_put_here Nat.zero_lt_one (by decide)]
  rfl

theorem failDeclare_testing : (s.failDeclare rail).get PWR_HOLDUP.TESTING = 0 := by
  rw [failDeclare_far (by decide) (by decide) rfl, failDown_far (by decide) (by decide) (by decide), failReset_far (by decide) (by decide) rfl,
    failMarked_get, get_put_far Nat.zero_lt_one (by decide), get_put_here Nat.zero_lt_one (by decide)]
  rfl

theorem failDeclare_on : (s.failDeclare rail).get PWR_DOM_STAT.ON = Nat.land (s.get PWR_DOM_STAT.ON) 0x407 := by
  rw [failDeclare_far (by decide) (by decide) rfl, failDown_on, failReset_far (by decide) (by decide) rfl, failMarked_get,
    get_put_far Nat.zero_lt_one (by decide), get_put_far Nat.zero_lt_one (by decide), get_put_far Nat.zero_lt_one (by decide),
    stopPhases_far (by decide) (by decide) rfl]

theorem failDeclare_rail : (s.failDeclare rail).get PWR_DOM_FAULT.RAIL = s.get PWR_DOM_FAULT.RAIL := by
  rw [failDeclare_far (by decide) (by decide) rfl, failDown_far (by decide) (by decide) (by decide), failReset_far (by decide) (by decide) rfl,
    failMarked_get, get_put_far Nat.zero_lt_one (by decide), get_put_far Nat.zero_lt_one (by decide), get_put_far Nat.zero_lt_one (by decide),
    stopPhases_far (by decide) (by decide) rfl]

theorem quelled_failDeclare : Quelled (s.failDeclare rail) := by
  have hclosed : Quelled (failClosed (failMarked s rail)) := by
    refine quelled_of_law (names := fun A => touchMetClose A ∧ touchBillClose A)
      (quelled_supplyFailList (s := failMarked s rail)) (fun hA => ?_)
      ⟨touchMetClose_all anyPart_all, touchBillClose_all anyPart_all⟩ rfl
    have hmet := metClose_keeps hA.1 (Keeps.refl _ (failMarked s rail).supplyFailList)
    exact keeps_ite (billClose_keeps hA.2 hmet) hmet
  have hreset : Quelled (failReset (failMarked s rail)) := quelled_resetHidden hclosed
  have hdown : Quelled (failDown (failReset (failMarked s rail)) rail) := by
    rw [failDown]
    cases rail
    · rw [if_neg (by decide)]
      exact quelled_put (quelled_put hreset)
    · rw [if_pos rfl]
      exact quelled_put (quelled_put (quelled_put hreset))
  exact quelled_of_law hdown (fun h => failDeclare_eq ▸ failCommit_keeps h) touchFailCommit_all rfl

theorem exec_supplyFail (hruns : s.runs 1 = true) (hfail : s.boot.failing = false) (hmv : mv < 9000) (hus : 50 ≤ us) :
    exec (.supplyFail mv us back o) s = .next ((s.vsup mv).failDeclare false) := by
  have harm : exec (.supplyFail mv us back o) s = execSupplyFail mv us back o s := rfl
  rw [harm, execSupplyFail, if_neg (by simp [hfail]), if_pos (by simp [hruns, hmv, hus])]

/-- A rail out of limits is shown and logged. -/
def railShown (s : State) (d : Nat) : State := (s.put PWR_DOM_FAULT.RAIL (setBit (s.get PWR_DOM_FAULT.RAIL) d)).log 0x0108 FAULT [d]

theorem exec_railOutOfLimits (hruns : s.runs 1 = true) (hfail : s.boot.failing = false) (hd : d < 12) (hus : 10 < us) :
    exec (.railOutOfLimits d us o) s = .next ((railShown s d).failDeclare true) := by
  have harm : exec (.railOutOfLimits d us o) s = execRailOutOfLimits d us o s := rfl
  rw [harm, execRailOutOfLimits, if_neg (by simp [hfail]), if_pos (by simp [hruns, hd, hus])]
  rfl

/-! ### Its last step (R51, R442) -/

theorem store1_queue {r : Rec} : (s.store1 r).evr.queue = s.evr.queue := by
  rw [State.store1]
  dsimp only
  split_ifs
  · rw [opFill_evr, put_evr]
  · rw [opFill_evr, put_evr]
  · rw [inc_evr]

/-- The store manager takes no record from the queue by itself. -/
theorem storeOp_queue {r : Rec} : (s.storeOp r).evr.queue = s.evr.queue := by
  rw [State.storeOp]
  dsimp only
  split
  · exact store1_queue
  · unfold State.when
    split
    · exact store1_queue.trans store1_queue
    · exact store1_queue

theorem storeAll_queue : s.storeAll.evr.queue = [] := by
  have hput : ∀ (t : State) (code : Nat) (pay : List Nat), t.evr.queue = [] →
      (t.when (t.sevKept WARNING) fun u => u.storeOp (u.mkRec code WARNING pay u.keeper u.rtc)).evr.queue = [] := by
    intro t code pay ht
    unfold State.when
    split
    · exact storeOp_queue.trans ht
    · exact ht
  rw [State.storeAll]
  refine hput _ _ _ ?_
  rw [State.when]
  have hstored : ∀ (l : List Rec) (t : State), t.evr.queue = [] → (l.foldl (fun (t : State) r => t.storeOp r) t).evr.queue = [] :=
    fun l t ht => List.foldlRecOn (motive := fun t : State => t.evr.queue = []) _ _ ht fun t ht r _ => storeOp_queue.trans ht
  split
  · exact hput _ _ _ (hstored _ _ rfl)
  · exact hstored _ _ rfl

/-- The module with its supply gone: D0 keeps what it keeps. -/
def unpowered (s : State) : State :=
  let s2 := s.storeAll.put PWR_SUPPLY_STAT.FAIL_SEEN 1
  { s2 with
    pins := { rstLow := s2.pins.rstLow, estopLow := s2.pins.estopLow, plcDet := s2.pins.plcDet, sns := none }
    boot := { vbatEvent := s2.boot.vbatEvent }, saf := {} }

/-- What the registers of D0 show then. -/
def supplyGone (s : State) : State :=
  ((((unpowered s).put PWR_DOM_STAT.ON 1).put PWR_DOM_STAT.IN_RST 0).put SYS_READY.RDY 0).put SYS_READY.PIN 0

theorem exec_supplyFail_again (hfail : s.boot.failing = true) (hrail : s.boot.rail = false) (hback : back < 10) :
    exec (.supplyFail mv us back o) s = .next (supplyGone s) := by
  have harm : exec (.supplyFail mv us back o) s = execSupplyFail mv us back o s := rfl
  have hnot : decide (10 ≤ back) = false := decide_eq_false (by omega)
  rw [harm, execSupplyFail, if_pos hfail, hnot, State.failEnd, if_neg (by simp [hrail]), if_neg (by decide)]
  rfl

theorem setPowered_get {p : Pins} {b : Boot} {a : Saf} (f : Field) (i j : Nat) :
    ({ s with pins := p, boot := b, saf := a } : State).get f i j = s.get f i j := rfl

theorem unpowered_get (f : Field) (i j : Nat) : (unpowered s).get f i j = (s.storeAll.put PWR_SUPPLY_STAT.FAIL_SEEN 1).get f i j := by
  rw [unpowered, setPowered_get]

theorem supplyGone_boot : (supplyGone s).boot = (unpowered s).boot := by rw [supplyGone, put_boot, put_boot, put_boot, put_boot]

theorem supplyGone_pins : (supplyGone s).pins = (unpowered s).pins := by rw [supplyGone, put_pins, put_pins, put_pins, put_pins]

theorem supplyGone_queue : (supplyGone s).evr.queue = [] := by
  have hevr : (unpowered s).evr = (s.storeAll.put PWR_SUPPLY_STAT.FAIL_SEEN 1).evr := rfl
  rw [supplyGone, put_evr, put_evr, put_evr, put_evr, hevr, put_evr, storeAll_queue]

theorem supplyGone_seen : (supplyGone s).get PWR_SUPPLY_STAT.FAIL_SEEN = 1 := by
  rw [supplyGone, get_put_far Nat.zero_lt_one (by decide), get_put_far Nat.zero_lt_one (by decide), get_put_far Nat.zero_lt_one (by decide),
    get_put_far Nat.zero_lt_one (by decide), unpowered_get, get_put_here Nat.zero_lt_one (by decide)]
  rfl

theorem supplyGone_on : (supplyGone s).get PWR_DOM_STAT.ON = 1 := by
  rw [supplyGone, get_put_far Nat.zero_lt_one (by decide), get_put_far Nat.zero_lt_one (by decide), get_put_far Nat.zero_lt_one (by decide),
    get_put_here Nat.zero_lt_one (by decide)]
  rfl

theorem supplyGone_inRst : (supplyGone s).get PWR_DOM_STAT.IN_RST = 0 := by
  rw [supplyGone, get_put_far Nat.zero_lt_one (by decide), get_put_far Nat.zero_lt_one (by decide), get_put_here Nat.zero_lt_one (by decide)]
  rfl

theorem supplyGone_ready : (supplyGone s).get SYS_READY.RDY = 0 := by
  rw [supplyGone, get_put_far Nat.zero_lt_one (by decide), get_put_here Nat.zero_lt_one (by decide)]
  rfl

theorem supplyGone_pin : (supplyGone s).get SYS_READY.PIN = 0 := by
  rw [supplyGone, get_put_here Nat.zero_lt_one (by decide)]
  rfl

end Sys2Proof.Proofs
end

section
/-! PROOFS. The entry to DORMANT (R57, R58). -/

namespace Sys2Proof.Proofs

open Sys2Proof.Machine Sys2Proof.Laws R

variable {s t : State} {sess : Nat}

/-! ### The answer -/

theorem exec_dormantRequest (hmay : s.writeStatus sess PWR_STATE.CMD = 0) (hfree : s.dormantRefusal = 0) : exec (.dormantRequest sess) s =
    .next ((s.put PWR_STATE.CMD 3).put PWR_STATE.RESULT 0).dormant := by
  have harm : exec (.dormantRequest sess) s = execDormantRequest sess s := rfl
  rw [harm, execDormantRequest, guarded_of_writeStatus_zero _ hmay, State.dormantRequest, dormantRefusal_put_cmd, hfree, if_pos rfl]

theorem dormantRefusal_of_run (h : s.get PWR_STATE.STATE = 0) : s.dormantRefusal = 0xA := if_pos (by simp [State.inRun, h])

/-! ### The entry -/

/-- A word outside the scope of a reset keeps its value. -/
theorem retain_far {doms : Nat} {keep : Cls → Bool} {f : Field} {i j : Nat} (h : inScope doms (f.at i j) = false) :
    (s.retain doms keep).get f i j = s.get f i j := by
  have hword : (s.retain doms keep).word (f.at i j) = s.word (f.at i j) := by
    refine List.foldlRecOn (motive := fun t : State => t.word (f.at i j) = s.word (f.at i j)) _ _ rfl fun t ht p _ => ?_
    split
    next hscope =>
      have hne : f.at i j ≠ p.1 := by
        rintro heq
        rw [← heq, h] at hscope
        exact Bool.false_ne_true hscope
      rw [setWord_word_other hne, ht]
    next => exact ht
  rw [State.get, State.get, hword]

/-- One load switch as the module enters DORMANT. -/
def switchSlept (n : Nat) (t : State) : State :=
  let t1 := { t with pins := { t.pins with latch := clrBit t.pins.latch n } }
  if t1.chSt n = 4 then t1 else (t1.put LSW_CH_CTRL.ON 0 n).lswState n 0

theorem setPins_get {p : Pins} (f : Field) (i j : Nat) : ({ s with pins := p } : State).get f i j = s.get f i j := rfl

theorem switchSlept_result {n : Nat} : (switchSlept n s).get PWR_STATE.RESULT = s.get PWR_STATE.RESULT := by
  rw [switchSlept]
  split
  · exact setPins_get ..
  · rw [lswState_far (by decide) (by decide) rfl, get_put_far Nat.zero_lt_one (by decide)]
    exact setPins_get ..

theorem switches_result : (s.leaveAll.each 16 switchSlept).get PWR_STATE.RESULT = s.get PWR_STATE.RESULT := by
  have hleave : s.leaveAll.get PWR_STATE.RESULT = s.get PWR_STATE.RESULT :=
    get_of_law (fun h => leaveAll_keeps h (Keeps.refl _ s)) (touchLeaveAll_all anyPart_all) (by decide) (by decide) rfl
  exact List.foldlRecOn (motive := fun t : State => t.get PWR_STATE.RESULT = s.get PWR_STATE.RESULT) _ _ hleave
    fun t ht n _ => switchSlept_result.trans ht

theorem hidden_result {doms : Nat} : (s.resetHidden doms).get PWR_STATE.RESULT = s.get PWR_STATE.RESULT :=
  get_of_law (fun h => resetHidden_keeps h (Keeps.refl _ _)) (touchResetHidden_all anyPart_all) (by decide) (by decide) rfl

/-- What the module shows of DORMANT, and the result of the request that it keeps. -/
theorem dormant_results : s.dormant.get PWR_STATE.STATE = 2 ∧ s.dormant.get PWR_STATE.RESULT = s.get PWR_STATE.RESULT ∧
    s.dormant.get PWR_DOM_STAT.ON = 0x107 ∧ s.dormant.get PWR_DOM_STAT.IN_RST = 0xFF8 ∧ s.dormant.boot.dormant = true := by
  unfold State.dormant
  extract_lets s1 s2 s3 s4 s5
  have hs3 : s3.get PWR_STATE.RESULT = s.get PWR_STATE.RESULT :=
    ((retain_far (by decide)).trans hidden_result).trans switches_result
  have hs4 : s4 = (s3.put PWR_DOM_STAT.ON 0x107).put PWR_DOM_STAT.IN_RST warmDoms := rfl
  have hs5 : s5 = (s4.put SYS_READY.RDY (clrBits (s4.get SYS_READY.RDY) (readyIn warmDoms))).put PWR_STATE.STATE 2 := rfl
  refine ⟨(setBoot_get ..).trans ?_, (setBoot_get ..).trans ?_, (setBoot_get ..).trans ?_, (setBoot_get ..).trans ?_, rfl⟩
  · rw [hs5, get_put_here Nat.zero_lt_one (by decide)]
    rfl
  · rw [hs5, get_put_far Nat.zero_lt_one (by decide), get_put_far Nat.zero_lt_one (by decide), hs4, get_put_far Nat.zero_lt_one (by decide),
      get_put_far Nat.zero_lt_one (by decide), hs3]
  · rw [hs5, get_put_far Nat.zero_lt_one (by decide), get_put_far Nat.zero_lt_one (by decide), hs4, get_put_far Nat.zero_lt_one (by decide),
      get_put_here Nat.zero_lt_one (by decide)]
    rfl
  · rw [hs5, get_put_far Nat.zero_lt_one (by decide), get_put_far Nat.zero_lt_one (by decide), hs4, get_put_here Nat.zero_lt_one (by decide)]
    rfl

end Sys2Proof.Proofs
end

section
/-! PROOFS. The restart that a WAKE begins (R57, R59), and the results of the supply's commands. -/

namespace Sys2Proof.Proofs

open Sys2Proof.Machine Sys2Proof.Laws R

/-! ### Bits -/

theorem bit_clrBits (i : Nat) : ∀ m k : Nat, bit (clrBits m k) i = (bit m i && !bit k i) := by
  simp only [bit, clrBits]
  have hodd : ∀ m k : Nat, (m &&& k) % 2 = 1 ↔ m % 2 = 1 ∧ k % 2 = 1 := fun m k => by simp
  induction i with
  | zero =>
    intro m k
    have hle : m &&& k ≤ m := Nat.and_le_left
    have hand := hodd m k
    rw [Bool.eq_iff_iff]
    simp only [Nat.testBit_zero, decide_eq_true_eq, Bool.and_eq_true, Bool.not_eq_true', decide_eq_false_iff_not]
    omega
  | succ i ih =>
    intro m k
    have hle : m &&& k ≤ m := Nat.and_le_left
    have hand := hodd m k
    have hhalf : (m &&& k) / 2 = m / 2 &&& k / 2 := Nat.and_div_two
    have hsub : (m - (m &&& k)) / 2 = m / 2 - (m / 2 &&& k / 2) := by omega
    rw [Nat.testBit_succ, Nat.testBit_succ, Nat.testBit_succ, hsub, ih]

theorem clrBit_eq (m i : Nat) : clrBit m i = clrBits m (2 ^ i) := by
  rw [clrBit, clrBits, Nat.and_two_pow]
  cases h : bit m i
  · simp [show m.testBit i = false from h]
  · simp [show m.testBit i = true from h]

section Waking

variable {s t u : State} {src k : Nat} {l l' : Nat → Prop} {o : BootObs} {doms : Nat}

/-! ### What a wake's restart does not lose -/

/-- A module on its way from DORMANT to QUIET: the wake source is shown, the restart is of a kind, the cause of the last reset is what it is, and the
Fabric is not ready. -/
structure Waking (src k : Nat) (l : Nat → Prop) (t : State) : Prop where
  dormant : t.boot.dormant = false
  kind : t.boot.kind = k
  state : t.get PWR_STATE.STATE = 1
  source : bit (t.get PWR_WAKE.SRC) src = true
  last : l (t.get SYS_RST_CAUSE.LAST)
  dark : bit (t.get SYS_READY.RDY) 3 = false

/-- The field shares no bit with those of a wake. -/
def wakingFar (f : Field) : Bool := apart f PWR_STATE.STATE && apart f PWR_WAKE.SRC && apart f SYS_RST_CAUSE.LAST && apart f SYS_READY.RDY

/-- The parts that share no bit with the fields of a wake, but for the boot state. -/
def wakingPart : Part → Prop
  | .boot => False
  | .reg f => if wakingFar f then True else False
  | .inst f _ _ => if wakingFar f then True else False
  | .regs => False
  | _ => True

theorem wakingFar_iff {f : Field} : wakingFar f = true ↔
    apart f PWR_STATE.STATE = true ∧ apart f PWR_WAKE.SRC = true ∧ apart f SYS_RST_CAUSE.LAST = true ∧ apart f SYS_READY.RDY = true := by
  simp [wakingFar, and_assoc]

/-- The fields of a wake. -/
def wakingFields : List Field := [PWR_STATE.STATE, PWR_WAKE.SRC, SYS_RST_CAUSE.LAST, SYS_READY.RDY]

theorem apart_of_waking {f g : Field} (h : wakingFar f = true) (hg : g ∈ wakingFields) : apart f g = true := by
  obtain ⟨hstate, hsource, hlast, hready⟩ := wakingFar_iff.mp h
  simp only [wakingFields, List.mem_cons, List.not_mem_nil, or_false] at hg
  rcases hg with rfl | rfl | rfl | rfl <;> assumption

theorem waking_single {g : Field} (hg : g ∈ wakingFields) : 0 < g.n1 ∧ 0 < g.n2 := by
  simp only [wakingFields, List.mem_cons, List.not_mem_nil, or_false] at hg
  rcases hg with rfl | rfl | rfl | rfl <;> decide

theorem waking_of_gets (h : Waking src k l s) (hget : ∀ g ∈ wakingFields, t.get g = s.get g) (hdormant : t.boot.dormant = s.boot.dormant)
    (hkind : t.boot.kind = s.boot.kind) : Waking src k l t where
  dormant := hdormant.trans h.dormant
  kind := hkind.trans h.kind
  state := (hget _ (by simp [wakingFields])).trans h.state
  source := (hget PWR_WAKE.SRC (by simp [wakingFields])).symm ▸ h.source
  last := (hget SYS_RST_CAUSE.LAST (by simp [wakingFields])).symm ▸ h.last
  dark := (hget SYS_READY.RDY (by simp [wakingFields])).symm ▸ h.dark

theorem waking_of_regs (h : Waking src k l s) (hregs : t.regs = s.regs) (hdormant : t.boot.dormant = s.boot.dormant)
    (hkind : t.boot.kind = s.boot.kind) : Waking src k l t := waking_of_gets h (fun _ _ => get_of_regs hregs ..) hdormant hkind

theorem waking_of_law {names : (Part → Prop) → Prop} (h : Waking src k l s) (law : ∀ {A}, names A → Keeps A s t) (all : names anyPart)
    (haway : names anyPart = names wakingPart) : Waking src k l t := by
  have hkeeps : Keeps wakingPart s t := law (haway ▸ all)
  have hboot : t.boot = s.boot := hkeeps.same.boot.resolve_left id
  refine waking_of_gets h (fun g hg => ?_) (by rw [hboot]) (by rw [hboot])
  obtain ⟨hi, hj⟩ := waking_single hg
  refine get_eq_of_bits fun k hlo hhi => hkeeps.same.bits id _ k fun f i' j' hbit => ⟨fun hf => ?_, fun hf => ?_⟩
  · exact not_holdsBit_of_apart (apart_of_waking (of_ite_true hf) hg) hi hj hlo hhi hbit
  · exact not_holdsBit_of_apart (apart_of_waking (of_ite_true hf) hg) hi hj hlo hhi hbit

theorem waking_put {f : Field} {v i j : Nat} (h : Waking src k l s) (hf : wakingFar f = true) : Waking src k l (s.put f v i j) := by
  have hboot : (s.put f v i j).boot = s.boot := put_boot ..
  refine waking_of_gets h (fun g hg => ?_) (by rw [hboot]) (by rw [hboot])
  obtain ⟨hi, hj⟩ := waking_single hg
  exact get_put_apart (apart_of_waking hf hg) hi hj

theorem waking_when {c : Bool} {g : State → State} (h : Waking src k l s) (hg : ∀ t, Waking src k l t → Waking src k l (g t)) :
    Waking src k l (s.when c g) := by
  unfold State.when
  split
  · exact hg s h
  · exact h

theorem waking_ite {c : Prop} [Decidable c] (ht : Waking src k l t) (hu : Waking src k l u) : Waking src k l (if c then t else u) := by
  split
  · exact ht
  · exact hu

theorem waking_foldl {α : Type} {op : State → α → State} {m : List α} (h : Waking src k l s)
    (hop : ∀ t x, Waking src k l t → Waking src k l (op t x)) : Waking src k l (m.foldl op s) :=
  List.foldlRecOn (motive := Waking src k l) _ _ h fun t ht x _ => hop t x ht

theorem waking_each {n : Nat} {op : Nat → State → State} (h : Waking src k l s) (hop : ∀ t i, Waking src k l t → Waking src k l (op i t)) :
    Waking src k l (s.each n op) := waking_foldl h hop

theorem waking_log {code sev : Nat} {pay : List Nat} (h : Waking src k l s) : Waking src k l (s.log code sev pay) :=
  waking_of_law h (fun hA => log_keeps hA (Keeps.refl _ s)) (touchLog_all anyPart_all) rfl

theorem waking_mark {b : Boot} (h : Waking src k l s) (hdormant : b.dormant = s.boot.dormant) (hkind : b.kind = s.boot.kind) :
    Waking src k l { s with boot := b } := waking_of_regs h rfl hdormant hkind

theorem waking_setKv {v : Kv} (h : Waking src k l s) : Waking src k l { s with kv := v } := waking_of_regs h rfl rfl rfl

theorem waking_setUpd {v : Upd} (h : Waking src k l s) : Waking src k l { s with upd := v } := waking_of_regs h rfl rfl rfl

theorem waking_setPins {v : Pins} (h : Waking src k l s) : Waking src k l { s with pins := v } := waking_of_regs h rfl rfl rfl

theorem waking_setSaf {v : Saf} (h : Waking src k l s) : Waking src k l { s with saf := v } := waking_of_regs h rfl rfl rfl

theorem waking_setTb {v : Tb} (h : Waking src k l s) : Waking src k l { s with tb := v } := waking_of_regs h rfl rfl rfl

theorem waking_gden (h : Waking src k l s) : Waking src k l s.gden := waking_of_regs h rfl rfl rfl

/-- Ready bits may change, so long as the Fabric's stays clear. -/
theorem waking_ready {m : Nat} (h : Waking src k l s) (hm : bit m 3 = false) : Waking src k l (s.put SYS_READY.RDY m) where
  dormant := by rw [put_boot, h.dormant]
  kind := by rw [put_boot, h.kind]
  state := (get_put_far Nat.zero_lt_one (by decide)).trans h.state
  source := by rw [get_put_far Nat.zero_lt_one (by decide), h.source]
  last := by rw [get_put_far Nat.zero_lt_one (by decide)]; exact h.last
  dark := by
    have hw : SYS_READY.RDY.w = 14 := rfl
    rw [get_put_here Nat.zero_lt_one (by decide), hw, bit, Nat.testBit_mod_two_pow]
    simp [show m.testBit 3 = false from hm]

theorem waking_setReady {i : Nat} (h : Waking src k l s) (hi : i ≠ 3) : Waking src k l (s.setReady i) := by
  rw [State.setReady]
  split
  · exact h
  · have hset : bit (setBit (s.get SYS_READY.RDY) i) 3 = false := by
      rw [bit, setBit, Nat.testBit_or, Nat.testBit_two_pow_of_ne hi, Bool.or_false]
      exact h.dark
    have hraised : Waking src k l ((s.put SYS_READY.RDY (setBit (s.get SYS_READY.RDY) i)).each 7 fun u t =>
        if bit (unitReady u) i then t.minsecRaise u else t) :=
      waking_each (waking_ready h hset) fun t u ht =>
        waking_ite (waking_of_law ht (fun hA => minsecRaise_keeps hA (Keeps.refl _ t)) (touchMinsecRaise_all anyPart_all) rfl) ht
    exact waking_ite (waking_of_law hraised (fun hA => releaseHold_keeps hA (Keeps.refl _ _)) (touchReleaseHold_all anyPart_all) rfl)
      (waking_of_law hraised (fun hA => stepShow_keeps hA (Keeps.refl _ _)) (touchStepShow_all anyPart_all) rfl)

/-! ### The reset that it begins (R70, R79) -/

theorem waking_kvClear (h : Waking src k l s) : Waking src k l s.kvClear := by
  rw [State.kvClear]
  have hcleared : Waking src k l ({ s with kv := {} } : State) := waking_setKv h
  have heach := waking_each (n := 128) hcleared fun t w ht => waking_put (v := 0) (i := w) (j := 0) (waking_put (v := 0) (i := w) (j := 0)
    (waking_put (v := 0) (i := w) (j := 0) (waking_put (v := 0) (i := w) (j := 0) (waking_put (f := KV_WORK_ATTR.VALID) (v := 0) (i := w) (j := 0) ht
      (by decide)) (f := KV_WORK_ATTR.TYPE) (by decide)) (f := KV_WORK_ATTR.USE) (by decide)) (f := KV_WORK_ATTR.DEPTH) (by decide))
    (f := KV_WORK_ATTR.PARENT) (by decide)
  refine waking_ready (waking_put (waking_put heach (by decide)) (by decide)) ?_
  rw [clrBit_eq, bit_clrBits, heach.dark]
  rfl

theorem waking_resetHidden (h : Waking src k l s) : Waking src k l (s.resetHidden doms) := by
  rw [State.resetHidden]
  have h1 := waking_when (c := bit doms 3) (g := State.resetD3) h
    fun t ht => waking_of_law ht (fun hA => resetD3_keeps hA (Keeps.refl _ t)) (touchResetD3_all anyPart_all) rfl
  have h2 := waking_when (c := bit doms 4) (g := fun t => { t with tb := {}, pins := { t.pins with apo := false } }) h1
    fun t ht => waking_of_regs ht rfl rfl rfl
  have h3 := waking_when (c := Nat.land doms 0x70 != 0) (g := State.groupsIdle) h2
    fun t ht => waking_of_law ht (fun hA => groupsIdle_keeps hA (Keeps.refl _ t)) (touchGroupsIdle_all anyPart_all) rfl
  have h4 := waking_of_law h3 (fun hA => resetPhases_keeps (doms := doms) hA (Keeps.refl _ _)) (touchResetPhases_all anyPart_all) rfl
  have h5 := waking_when (c := bit doms 7) (g := State.resetD7) h4
    fun t ht => waking_of_law ht (fun hA => resetD7_keeps hA (Keeps.refl _ t)) (touchResetD7_all anyPart_all) rfl
  have h6 := waking_when (c := bit doms 8) (g := fun t => { t.rootReset doms with fab := {} }) h5 fun t ht => by
    have hroot : Waking src k l (t.rootReset doms) :=
      waking_of_law ht (fun hA => rootReset_keeps hA (Keeps.refl _ t)) (touchRootReset_all anyPart_all) rfl
    exact waking_of_regs hroot rfl rfl rfl
  have h7 := waking_when (c := bit doms 9) (g := State.resetD9) h6
    fun t ht => waking_of_law ht (fun hA => resetD9_keeps hA (Keeps.refl _ t)) (touchResetD9_all anyPart_all) rfl
  have h8 := waking_when (c := bit doms 10) (g := State.resetD10) h7 fun t ht => waking_of_regs ht rfl rfl rfl
  exact waking_when h8 fun t ht => waking_kvClear ht

/-- The registers of D1 stay through a reset of D3 to D11. -/
theorem waking_retain {keep : Cls → Bool} (h : Waking src k l s) : Waking src k (fun _ => True) (s.retain warmDoms keep) where
  dormant := by rw [boot_of_law (fun hA => retain_keeps hA (Keeps.refl _ s)) (touchRetain_all anyPart_all) rfl, h.dormant]
  kind := by rw [boot_of_law (fun hA => retain_keeps hA (Keeps.refl _ s)) (touchRetain_all anyPart_all) rfl, h.kind]
  state := (retain_far (by decide)).trans h.state
  source := by rw [retain_far (by decide), h.source]
  last := trivial
  dark := by rw [retain_far (by decide), h.dark]

theorem recordReset_warm : s.recordReset 7 doms = (((s.put SYS_RST_CAUSE.LAST 7).put SYS_RST_CAUSE.SEEN (setBit (s.get SYS_RST_CAUSE.SEEN) 6)).put
    SYS_RST_INFO.DOM_MASK doms).put SYS_RST_INFO.BOR_SRC 0 := rfl

theorem waking_recordReset (h : Waking src k (fun _ => True) s) : Waking src k (· = 7) (s.recordReset 7 doms) := by
  have hlast : Waking src k (· = 7) (s.put SYS_RST_CAUSE.LAST 7) := by
    refine ⟨?_, ?_, ?_, ?_, get_put_here Nat.zero_lt_one (by decide), ?_⟩
    · rw [put_boot, h.dormant]
    · rw [put_boot, h.kind]
    · rw [get_put_far Nat.zero_lt_one (by decide), h.state]
    · rw [get_put_far Nat.zero_lt_one (by decide), h.source]
    · rw [get_put_far Nat.zero_lt_one (by decide), h.dark]
  rw [recordReset_warm]
  exact waking_put (waking_put (waking_put hlast (by decide)) (by decide)) (by decide)

/-- The module with every phase stopped, before its ready bits and its start-up progress clear. -/
def frozen (s : State) : State :=
  { (s.freeze 7).stopPhases with boot := { (s.freeze 7).stopPhases.boot with kind := 7, doms := warmDoms } }

/-- The same in QUIET, not ready. -/
def unready (s : State) : State :=
  (((frozen s).put PWR_STATE.STATE 1).put SYS_READY.PIN 0).put SYS_READY.RDY
    (clrBits (((frozen s).put PWR_STATE.STATE 1).get SYS_READY.RDY) (readyIn warmDoms))

theorem resetStart_eq : s.resetStart 7 warmDoms =
    ((((((unready s).put SYS_BOOT_STAT.STEP 0).put SYS_BOOT_STAT.LATE 0).put SYS_CAL_STAT.DONE 0).put SYS_BOOT_TIME.T_READY 0xFFFF).put
      SYS_BOOT_TIME.T_IMAGE 0xFFFF).gden := rfl

theorem freeze_dormant {kind : Nat} : (s.freeze kind).boot.dormant = s.boot.dormant := by
  rw [State.freeze]
  split
  · rfl
  · dsimp only
    rw [boot_of_law (fun hA => log_keeps hA (Keeps.refl _ _)) (touchLog_all anyPart_all) rfl,
      boot_of_law (fun hA => lswPins_keeps hA (Keeps.refl _ _)) (touchLswPins_all anyPart_all) rfl]
    simp only [put_boot]

theorem frozen_dormant : (frozen s).boot.dormant = s.boot.dormant := by
  have hstop : (s.freeze 7).stopPhases.boot = (s.freeze 7).boot :=
    boot_of_law (fun hA => stopPhases_keeps hA (Keeps.refl _ _)) (touchStopPhases_all anyPart_all) rfl
  have hsame : (frozen s).boot.dormant = (s.freeze 7).stopPhases.boot.dormant := rfl
  rw [hsame, hstop, freeze_dormant]

theorem frozen_source : (frozen s).get PWR_WAKE.SRC = s.get PWR_WAKE.SRC := by
  rw [frozen, setBoot_get, stopPhases_far (by decide) (by decide) rfl]
  exact get_of_law (fun hA => freeze_keeps hA (Keeps.refl _ s)) (touchFreeze_all anyPart_all) (by decide) (by decide) rfl

theorem waking_resetStart (hdormant : s.boot.dormant = false) (hsource : bit (s.get PWR_WAKE.SRC) src = true) :
    Waking src 7 (fun _ => True) (s.resetStart 7 warmDoms) := by
  have hunready : Waking src 7 (fun _ => True) (unready s) := by
    refine ⟨?_, ?_, ?_, ?_, trivial, ?_⟩
    · rw [unready, put_boot, put_boot, put_boot, frozen_dormant, hdormant]
    · rw [unready, put_boot, put_boot, put_boot]
      rfl
    · rw [unready, get_put_far Nat.zero_lt_one (by decide), get_put_far Nat.zero_lt_one (by decide), get_put_here Nat.zero_lt_one (by decide)]
      rfl
    · rw [unready, get_put_far Nat.zero_lt_one (by decide), get_put_far Nat.zero_lt_one (by decide), get_put_far Nat.zero_lt_one (by decide),
        frozen_source, hsource]
    · have hw : SYS_READY.RDY.w = 14 := rfl
      have hclear : bit (clrBits (((frozen s).put PWR_STATE.STATE 1).get SYS_READY.RDY) (readyIn warmDoms)) 3 = false := by
        rw [bit_clrBits, show bit (readyIn warmDoms) 3 = true by decide, Bool.not_true, Bool.and_false]
      rw [unready, get_put_here Nat.zero_lt_one (by decide), hw, bit, Nat.testBit_mod_two_pow]
      simp only [bit] at hclear
      rw [hclear, Bool.and_false]
  rw [resetStart_eq]
  have hshown := waking_put (f := SYS_BOOT_TIME.T_READY) (v := 0xFFFF) (i := 0) (j := 0) (waking_put (f := SYS_CAL_STAT.DONE) (v := 0) (i := 0) (j := 0)
    (waking_put (f := SYS_BOOT_STAT.LATE) (v := 0) (i := 0) (j := 0) (waking_put (f := SYS_BOOT_STAT.STEP) (v := 0) (i := 0) (j := 0) hunready
      (by decide)) (by decide)) (by decide)) (by decide)
  exact waking_gden (waking_put hshown (by decide))

/-- A reset of D3 ends an apply. -/
theorem waking_unapplied {b : Bool} (h : Waking src k l s) :
    Waking src k l { s.putb UPD_STAT.MIXED b with boot := { s.boot with apply := 0, applyRan := false } } := by
  have hput : Waking src k l (s.putb UPD_STAT.MIXED b) := waking_put h (by decide)
  exact waking_mark hput (h.dormant.trans hput.dormant.symm) (h.kind.trans hput.kind.symm)

theorem waking_enterReset (hdormant : s.boot.dormant = false) (hsource : bit (s.get PWR_WAKE.SRC) src = true) :
    Waking src 7 (· = 7) (s.enterReset 7 warmDoms) := by
  unfold State.enterReset
  extract_lets s1 s2 s3
  have h1 : Waking src 7 (fun _ => True) s1 := waking_resetHidden (waking_resetStart hdormant hsource)
  have h2 : Waking src 7 (fun _ => True) s2 := waking_retain h1
  have h3 : Waking src 7 (· = 7) s3 := waking_recordReset (waking_put h2 (by decide))
  rw [if_pos (by decide)]
  exact waking_unapplied h3

/-! ### The start-up sequence to step 9 (R73, R77) -/

theorem waking_kvStart {puf : List PufRead} {bad : List Nat} (h : Waking src k l s) : Waking src k l (s.kvStart puf bad) := by
  have hclear := waking_kvClear h
  rw [State.kvStart]
  split
  · exact waking_of_law hclear (fun hA => kvWipe_keeps hA (Keeps.refl _ _)) (touchKvWipe_all anyPart_all) rfl
  · split
    · exact waking_log (waking_put (waking_put hclear (by decide)) (by decide))
    next e n _ =>
      extract_lets s1 s2 s3 slots kv s4
      have h1 : Waking src k l s1 := waking_put (waking_put (waking_put (waking_put hclear (by decide)) (by decide)) (by decide)) (by decide)
      have h2 : Waking src k l s2 := waking_log (waking_put h1 (by decide))
      have h3 : Waking src k l s3 := waking_ite (waking_log h2) h2
      have hslots : Waking src k l slots :=
        waking_of_law h3 (fun hA => slotsCheck_keeps hA (Keeps.refl _ _)) (touchSlotsCheck_all anyPart_all) rfl
      have h4 : Waking src k l s4 := waking_setKv hslots
      exact waking_of_law (waking_setReady h4 (by decide)) (fun hA => kvShow_keeps hA (Keeps.refl _ _)) (touchKvShow_all anyPart_all) rfl

theorem waking_fwTake {i b : Nat} (h : Waking src k l s) : Waking src k l (s.fwTake i b) :=
  waking_of_law h (fun hA => fwTake_keeps hA (Keeps.refl _ s)) (touchFwTake_all anyPart_all) rfl

theorem waking_fwLoad {bad i : Nat} (h : Waking src k l s) : Waking src k l (s.fwLoad bad i) := by
  rw [State.fwLoad]
  dsimp only
  split
  · exact waking_mark (waking_fwTake h) rfl rfl
  · split
    · exact waking_mark (waking_fwTake (waking_log h)) rfl rfl
    · exact waking_mark (waking_log (waking_log h)) rfl rfl

theorem waking_fwStep (h : Waking src k l s) : Waking src k l (s.fwStep doms o) := by
  unfold State.fwStep
  extract_lets s1 upd s2
  have h1 : Waking src k l s1 := waking_each h fun t i ht => waking_ite (waking_fwLoad ht) (waking_ite (waking_fwTake ht) ht)
  have h2 : Waking src k l s2 := waking_ite (waking_setUpd h1) h1
  exact waking_ite (waking_put h2 (by decide)) h2

theorem waking_selfTest (h : Waking src k l s) : Waking src k l (s.selfTest doms o) := by
  unfold State.selfTest
  extract_lets items fails ram boot s1 s2 s3 s4
  have h1 : Waking src k l s1 := waking_mark h rfl rfl
  have h2 : Waking src k l s2 :=
    waking_of_law (waking_put (waking_put h1 (by decide)) (by decide)) (fun hA => peCal_keeps hA (Keeps.refl _ _)) (touchPeCal_all anyPart_all) rfl
  have h3 : Waking src k l s3 := waking_put (waking_put h2 (by decide)) (by decide)
  have h4 : Waking src k l s4 := waking_ite h3 (waking_log h3)
  exact waking_each h4 fun t i ht => waking_ite (waking_log ht) ht

theorem waking_block {evr : Bool} (h : Waking src k l s) : Waking src k l (s.block evr) := by
  unfold State.block
  extract_lets m
  have hmark : Waking src k l { s with boot := { s.boot with block := m } } := waking_mark h rfl rfl
  refine waking_ready hmark ?_
  rw [bit_clrBits, h.dark, Bool.false_and]

theorem waking_setStamp {v : Nat} (h : Waking src k l s) : Waking src k l (s.setStamp v) :=
  waking_of_law h (fun hA => setStamp_keeps hA (Keeps.refl _ _)) (touchSetStamp_all anyPart_all) rfl

theorem waking_ofsStart (h : Waking src k l s) : Waking src k l s.ofsStart :=
  waking_of_law h (fun hA => ofsStart_keeps hA (Keeps.refl _ s)) (touchOfsStart_all anyPart_all) rfl

theorem waking_tbHoldover (h : Waking src k l s) : Waking src k l s.tbHoldover :=
  waking_of_law h (fun hA => tbHoldover_keeps hA (Keeps.refl _ s)) (touchTbHoldover_all anyPart_all) rfl

theorem waking_tbStart (h : Waking src k l s) : Waking src k l (s.tbStart false) := by
  unfold State.tbStart
  extract_lets s0 s1 acq tb s2
  have h0 : Waking src k l s0 :=
    waking_put (waking_put (waking_put (waking_ofsStart (waking_setTb h)) (by decide)) (by decide)) (by decide)
  have h1 : Waking src k l s1 := waking_put h0 (by decide)
  have h2 : Waking src k l s2 :=
    waking_of_law (waking_setStamp h1) (fun hA => setFloc_keeps hA (Keeps.refl _ _)) (touchSetFloc_all anyPart_all) rfl
  have hacq : Waking src k l acq :=
    waking_of_law (waking_setStamp h1) (fun hA => tbState_keeps hA (Keeps.refl _ _)) (touchTbState_all anyPart_all) rfl
  refine waking_ite ?_ ?_
  · exact waking_setTb hacq
  · exact waking_setReady (waking_put (waking_tbHoldover (waking_setTb h2)) (by decide)) (by decide)

theorem waking_startD7 (h : Waking src k l s) : Waking src k l s.startD7 := by
  have hstart : Waking src k l s.leStart := waking_of_law h (fun hA => leStart_keeps hA (Keeps.refl _ s)) (touchLeStart_all anyPart_all) rfl
  exact waking_ite (waking_ite (waking_setReady hstart (by decide)) hstart) h

theorem waking_startD9 (h : Waking src k l s) : Waking src k l s.startD9 := by
  unfold State.startD9
  extract_lets s1 s2 s3 s4
  have h1 : Waking src k l s1 :=
    waking_of_law (waking_of_law h (fun hA => canPort_keeps hA (Keeps.refl _ s)) (touchCanPort_all anyPart_all) rfl)
      (fun hA => canPort_keeps hA (Keeps.refl _ _)) (touchCanPort_all anyPart_all) rfl
  have h2 : Waking src k l s2 :=
    waking_ite (waking_setReady (waking_of_law h1 (fun hA => plcEnable_keeps hA (Keeps.refl _ _)) (touchPlcEnable_all anyPart_all) rfl) (by decide))
      (waking_of_law h1 (fun hA => plcState_keeps hA (Keeps.refl _ _)) (touchPlcState_all anyPart_all) rfl)
  have h3 : Waking src k l s3 := waking_ite (waking_setReady h2 (by decide)) h2
  have h4 : Waking src k l s4 := waking_ite (waking_setReady h3 (by decide)) h3
  exact waking_foldl h4 fun t q ht =>
    waking_of_law (waking_of_law ht (fun hA => connEnd_keeps hA (Keeps.refl _ t)) (touchConnEnd_all anyPart_all) rfl)
      (fun hA => billEnd_keeps hA (Keeps.refl _ _)) (touchBillEnd_all anyPart_all) rfl

theorem waking_startD10 (h : Waking src k l s) : Waking src k l s.startD10 := by
  unfold State.startD10
  extract_lets s0 s1 s2 pins s3
  have h0 : Waking src k l s0 :=
    waking_of_law h (names := fun A => touchLswHeld A ∧ touchLswOwners A ∧ touchThStart A)
      (fun hA => thStart_keeps hA.2.2 (lswOwners_keeps hA.2.1 (lswHeld_keeps hA.1 (Keeps.refl _ s))))
      ⟨touchLswHeld_all anyPart_all, touchLswOwners_all anyPart_all, touchThStart_all anyPart_all⟩ rfl
  have h1 : Waking src k l s1 := waking_each h0 fun t z ht =>
    waking_ite (waking_of_law (waking_put ht (by decide)) (fun hA => zoneEnable_keeps hA (Keeps.refl _ _)) (touchZoneEnable_all anyPart_all) rfl) ht
  have h2 : Waking src k l s2 := waking_each h1 fun t a ht =>
    waking_ite (waking_of_law ht (fun hA => auxStart_keeps hA (Keeps.refl _ _)) (touchAuxStart_all anyPart_all) rfl) ht
  have h3 : Waking src k l s3 := waking_setPins h2
  exact waking_ite (waking_setReady h3 (by decide)) h3

theorem waking_startD3 {now : Nat} (h : Waking src k l s) : Waking src k l (s.startD3 now) := by
  unfold State.startD3
  extract_lets s1 s2
  have hnet : Waking src k l s.netShow.tsrcShow :=
    waking_of_law h (names := fun A => touchNetShow A ∧ touchTsrcShow A) (fun hA => tsrcShow_keeps hA.2 (netShow_keeps hA.1 (Keeps.refl _ s)))
      ⟨touchNetShow_all anyPart_all, touchTsrcShow_all anyPart_all⟩ rfl
  have h1 : Waking src k l s1 := waking_setReady hnet (by decide)
  have h2 : Waking src k l s2 :=
    waking_ite (waking_of_law h1 (fun hA => slRootStart_keeps hA (Keeps.refl _ _)) (touchSlRootStart_all anyPart_all) rfl) h1
  exact waking_setSaf h2

theorem waking_roleReady (h : Waking src k l s) : Waking src k l s.roleReady := by
  unfold State.roleReady
  extract_lets s1 s2
  have h1 : Waking src k l s1 := by
    refine waking_ready h ?_
    have hdark : (s.get SYS_READY.RDY).testBit 3 = false := h.dark
    exact (Nat.testBit_and ..).trans (by rw [hdark, Bool.false_and])
  have h2 : Waking src k l s2 := waking_ite (waking_setReady h1 (by decide)) h1
  exact waking_of_law (waking_ite (waking_setReady h2 (by decide)) h2) (fun hA => partShow_keeps hA (Keeps.refl _ _)) (touchPartShow_all anyPart_all) rfl

theorem waking_startAll {now : Nat} {cold : Bool} (h : Waking src k l s) (hcold : cold = false) : Waking src k l (s.startAll doms cold now) := by
  subst hcold
  unfold State.startAll
  extract_lets s0 s1 s1' s2 s2' s3 s4
  have h0 : Waking src k l s0 :=
    waking_of_law (waking_put h (by decide)) (fun hA => reqShow_keeps hA (Keeps.refl _ _)) (touchReqShow_all anyPart_all) rfl
  have h1 : Waking src k l s1 := waking_when (waking_when h0 fun _ => waking_tbStart) fun t ht =>
    waking_of_law ht (fun hA => fabStart_keeps hA (Keeps.refl _ t)) (touchFabStart_all anyPart_all) rfl
  have h1' : Waking src k l s1' := waking_when h1 fun t ht => waking_put ht (by decide)
  have h2 : Waking src k l s2 := waking_ite (waking_setReady h1' (by decide)) h1'
  have h2' : Waking src k l s2' := waking_when h2 fun t ht =>
    waking_of_law ht (fun hA => thermGroups_keeps hA (Keeps.refl _ t)) (touchThermGroups_all anyPart_all) rfl
  have h3 : Waking src k l s3 :=
    waking_when (waking_when (waking_when h2' fun _ => waking_startD7) fun _ => waking_startD9) fun _ => waking_startD10
  have h4 : Waking src k l s4 := waking_when h3 fun _ => waking_startD3
  exact waking_of_law (waking_when (waking_roleReady h4) fun t ht =>
    waking_of_law ht (fun hA => findRate_keeps hA (Keeps.refl _ t)) (touchFindRate_all anyPart_all) rfl)
    (fun hA => lswOwners_keeps hA (Keeps.refl _ _)) (touchLswOwners_all anyPart_all) rfl

/-! ### The restart and its end -/

/-- Step 10 waits for the Fabric. -/
theorem stepShow_of_dark (hstep : s.get SYS_BOOT_STAT.STEP = 9) (hdark : bit (s.get SYS_READY.RDY) 3 = false) : s.stepShow = s := by
  rw [State.stepShow, hstep]
  exact if_neg (by simp [hdark])

theorem waking_poweredUp {kind also : Nat} (h : Waking src k l s) : Waking src k l ((s.absorb kind also).domainsUp doms) :=
  waking_of_law h (names := fun A => touchAbsorb A ∧ touchDomainsUp A)
    (fun hA => domainsUp_keeps hA.2 (absorb_keeps hA.1 (Keeps.refl _ _))) ⟨touchAbsorb_all anyPart_all, touchDomainsUp_all anyPart_all⟩ rfl

/-- The end of a restart of some domains: it loads no image and chooses no reference. -/
theorem waking_exitReset (h : Waking src 7 l s) : Waking src 0 l (s.exitReset o) ∧ (s.exitReset o).get SYS_BOOT_STAT.STEP = 9 := by
  unfold State.exitReset
  extract_lets kind doms boot s0 s1 s2 s3 s4 s5 s5' boot' s6 s7
  have hkind : kind = 7 := h.kind
  have h0 : Waking src 7 l s0 := waking_poweredUp (waking_mark h rfl rfl)
  have h1 : Waking src 7 l s1 := waking_of_law (waking_setReady h0 (by decide)) (fun hA => moraineFill_keeps hA (Keeps.refl _ _))
    (touchMoraineFill_all anyPart_all) rfl
  have h2 : Waking src 7 l s2 := waking_when (waking_when h1 fun t ht =>
      waking_of_law (waking_kvStart ht) (fun hA => resShow_keeps hA (Keeps.refl _ _)) (touchResShow_all anyPart_all) rfl) fun t ht =>
    waking_of_law ht (fun hA => fabKeyCopy_keeps hA (Keeps.refl _ t)) (touchFabKeyCopy_all anyPart_all) rfl
  have h3 : Waking src 7 l s3 := waking_fwStep (waking_selfTest h2)
  have hs4 : s4 = s3 := if_neg (by omega)
  have h5 : Waking src 7 l s5 := by
    have h4 : Waking src 7 l s4 := hs4 ▸ h3
    exact waking_of_law (waking_put (waking_block h4) (by decide)) (fun hA => safCopy_keeps hA (Keeps.refl _ _)) (touchSafCopy_all anyPart_all) rfl
  have hs5 : s5' = s5 := if_neg (by omega)
  have h5' : Waking src 7 l s5' := hs5 ▸ h5
  have h6 : Waking src 0 l s6 := ⟨h5'.dormant, rfl, h5'.state, h5'.source, h5'.last, h5'.dark⟩
  have h7 : Waking src 0 l s7 := waking_of_law (waking_startAll h6 (decide_eq_false (by omega))) (fun hA => thaw_keeps hA (Keeps.refl _ _))
    (touchThaw_all anyPart_all) rfl
  have hstep : Waking src 0 l (s7.put SYS_BOOT_STAT.STEP 9) := waking_put h7 (by decide)
  have hnine : (s7.put SYS_BOOT_STAT.STEP 9).get SYS_BOOT_STAT.STEP = 9 := get_put_here Nat.zero_lt_one (by decide)
  rw [stepShow_of_dark hnine hstep.dark, gden_get, log_far1 (by decide), hnine]
  exact ⟨waking_gden (waking_log hstep), rfl⟩

/-- The module is no longer in DORMANT. -/
def roused (s : State) : State := { s with boot := { s.boot with dormant := false } }

theorem roused_boot : (roused s).boot.dormant = false ∧ (roused s).boot.kind = s.boot.kind ∧ (roused s).boot.failing = s.boot.failing :=
  ⟨rfl, rfl, rfl⟩

theorem roused_get (f : Field) (i j : Nat) : (roused s).get f i j = s.get f i j := rfl

/-- The module leaves DORMANT for QUIET by a wake. -/
def woken (s : State) (src : Nat) : State :=
  roused ((s.put PWR_WAKE.SRC (setBit (s.get PWR_WAKE.SRC) src)).put PWR_STATE.STATE 1)

theorem woken_boot : (woken s src).boot.dormant = false ∧ (woken s src).boot.kind = s.boot.kind ∧ (woken s src).boot.failing = s.boot.failing := by
  rw [woken, roused_boot.2.1, roused_boot.2.2, put_boot, put_boot]
  exact ⟨roused_boot.1, rfl, rfl⟩

theorem woken_source (hsrc : src < 4) : bit ((woken s src).get PWR_WAKE.SRC) src = true := by
  rw [woken, roused_get, get_put_far Nat.zero_lt_one (by decide), get_put_here Nat.zero_lt_one (by decide)]
  exact bit_setBit_mod hsrc

theorem resetCause_free (hfail : s.boot.failing = false) (hkind : s.boot.kind = 0) : s.resetCause 7 doms = (true, s.put SYS_RST_CAUSE.COINC 0) := by
  rw [State.resetCause, if_neg (by simp [hfail]), if_pos hkind]

theorem warmReset_free (hfail : s.boot.failing = false) (hkind : s.boot.kind = 0) :
    s.warmReset 7 doms o = ((s.put SYS_RST_CAUSE.COINC 0).enterReset 7 doms).exitReset o := by
  rw [State.warmReset, resetCause_free hfail hkind]
  exact if_pos rfl

theorem exec_wake (hdormant : s.boot.dormant = true) (hsrc : src < 4) (hen : bit (s.get PWR_WAKE.EN) src = true) (hsup : s.supplied = true)
    (hkind : s.boot.kind = 0) : exec (.wake src o) s = .next ((((woken s src).put SYS_RST_CAUSE.COINC 0).enterReset 7 warmDoms).exitReset o) := by
  have harm : exec (.wake src o) s = execWake src o s := rfl
  have hmodel : execWake src o s = .next ((woken s src).warmReset 7 warmDoms o) := by
    rw [execWake, if_pos (by simp [hdormant, hsrc, hen, hsup])]
    rfl
  have hfail : s.boot.failing = false := by
    rw [State.supplied, Bool.and_eq_true, Bool.not_eq_true'] at hsup
    exact hsup.2
  obtain ⟨-, hkind', hfail'⟩ := woken_boot (s := s) (src := src)
  rw [harm, hmodel, warmReset_free (hfail'.trans hfail) (hkind'.trans hkind)]

theorem waking_wake (hsrc : src < 4) : Waking src 0 (· = 7) ((((woken s src).put SYS_RST_CAUSE.COINC 0).enterReset 7 warmDoms).exitReset o) ∧
    ((((woken s src).put SYS_RST_CAUSE.COINC 0).enterReset 7 warmDoms).exitReset o).get SYS_BOOT_STAT.STEP = 9 := by
  refine waking_exitReset (waking_enterReset ?_ ?_)
  · rw [put_boot, woken_boot.1]
  · rw [get_put_far Nat.zero_lt_one (by decide), woken_source hsrc]

end Waking

end Sys2Proof.Proofs
end

section
/-! PROOFS. The results of the supply's commands and of the operating states. -/

namespace Sys2Proof.Proofs

open Sys2Proof.Machine Sys2Proof.Laws R

/-- Settles O25: each clause reads the next state of its command; what a WAKE restarts keeps the five facts of `Waking`. -/
theorem supplyResults : Obligations.SupplyResults := by
  unfold Obligations.SupplyResults
  refine ⟨?_, ?_, ?_, ?_, ?_, ?_, ?_, ?_, ?_, ?_, ?_, ?_, ?_, ?_, ?_, ?_, ?_, ?_, ?_, ?_, ?_⟩
  · intro s mv us hsup hnormal hmv hus
    refine ⟨_, exec_lowBandEntry hsup hnormal hmv hus, ?_, ?_, ?_, ?_⟩
    · rw [log_far1 (by decide), get_put_far Nat.zero_lt_one (by decide), get_put_here Nat.zero_lt_one (by decide)]
      rfl
    · rw [log_far1 (by decide), get_put_here Nat.zero_lt_one (by decide)]
      rfl
    · rw [log_far1 (by decide), get_put_far Nat.zero_lt_one (by decide), get_put_far Nat.zero_lt_one (by decide), vsup_eq (by omega),
        get_put_here Nat.zero_lt_one (by decide)]
      exact Nat.mod_eq_of_lt (show mv / 10 < 65536 by omega)
    · exact (((records_refl.put (f := PWR_VMON.VSUP) (by decide)).put (f := PWR_SUPPLY_STAT.LOW_BAND) (by decide)).put
        (f := PWR_SUPPLY_STAT.LOW_SEEN) (by decide)).log (by decide) |>.logged
  · intro s mv us hsup hband hmv hus
    refine ⟨_, exec_lowBandExit hsup hband hmv hus, ?_, ?_, ?_, ?_⟩
    · rw [log_far1 (by decide), get_put_here Nat.zero_lt_one (by decide)]
      rfl
    · rw [log_far1 (by decide), get_put_far Nat.zero_lt_one (by decide), State.vsup, get_putMax_far Nat.zero_lt_one (by decide)]
    · rw [log_far1 (by decide), get_put_far Nat.zero_lt_one (by decide), State.vsup, get_putMax_here Nat.zero_lt_one (by decide)]
    · exact ((records_refl.put (f := PWR_VMON.VSUP) (by decide)).put (f := PWR_SUPPLY_STAT.LOW_BAND) (by decide)).log (by decide) |>.logged
  · intro s mv us hsup hnormal hmv hus
    refine ⟨_, exec_highBandEntry hsup hnormal hmv hus, ?_, ?_⟩
    · rw [log_far1 (by decide), get_put_here Nat.zero_lt_one (by decide)]
      rfl
    · exact ((records_refl.put (f := PWR_VMON.VSUP) (by decide)).put (f := PWR_SUPPLY_STAT.HIGH_BAND) (by decide)).log (by decide) |>.logged
  · intro s mv us hsup hband hmv hus
    refine ⟨_, exec_highBandExit hsup hband hmv hus, ?_, ?_, ?_⟩
    · rw [log_far1 (by decide), get_put_here Nat.zero_lt_one (by decide)]
      rfl
    · rw [log_far1 (by decide), get_put_far Nat.zero_lt_one (by decide), vsup_eq (by omega), get_put_here Nat.zero_lt_one (by decide)]
      exact Nat.mod_eq_of_lt (show mv / 10 < 65536 by omega)
    · exact ((records_refl.put (f := PWR_VMON.VSUP) (by decide)).put (f := PWR_SUPPLY_STAT.HIGH_BAND) (by decide)).log (by decide) |>.logged
  · intro s mv us hsup hband hrun hmv hus
    have hstate : (overVolted s mv).get PWR_STATE.STATE = 0 := overVolted_state.trans hrun
    refine ⟨_, exec_overVoltage hsup hband hmv hus, ?_, ?_, ?_, toQuiet_state hstate, toQuiet_gates hstate⟩
    · rw [toQuiet_far hstate (by decide) (by decide) rfl (by decide), overVolted, log_far1 (by decide), get_put_far Nat.zero_lt_one (by decide),
        get_put_here Nat.zero_lt_one (by decide)]
      rfl
    · rw [toQuiet_far hstate (by decide) (by decide) rfl (by decide), overVolted, log_far1 (by decide), get_put_here Nat.zero_lt_one (by decide)]
      rfl
    · rw [toQuiet_far hstate (by decide) (by decide) rfl (by decide), overVolted_get (by decide) (by decide) (by decide),
        get_put_here Nat.zero_lt_one (by decide)]
      rfl
  · intro s mv us hsup hband hmv hus
    rw [exec_overVoltageExit hsup hband hmv hus, vsup_eq (by omega)]
  · intro s mv us back o hruns hfail hmv hus
    have hq : Quelled ((s.vsup mv).failDeclare false) := quelled_failDeclare
    refine ⟨_, exec_supplyFail hruns hfail hmv hus, failDeclare_failing.1, failDeclare_failing.2, failDeclare_state, ?_, failDeclare_testing,
      ⟨hq.gateH, hq.gateL, hq.gden⟩, hq.list⟩
    rw [failDeclare_on, State.vsup, get_putMax_far Nat.zero_lt_one (by decide)]
  · intro s mv us back o hfail hrail hback
    refine ⟨_, exec_supplyFail_again hfail hrail hback, ?_, supplyGone_queue, supplyGone_on, supplyGone_inRst, supplyGone_seen, supplyGone_ready,
      supplyGone_pin, ?_⟩
    · rw [supplyGone_boot]
      rfl
    · rw [supplyGone_pins]
      exact ⟨rfl, rfl, rfl⟩
  · intro s d us o hruns hfail hd hus
    have hq : Quelled ((railShown s d).failDeclare true) := quelled_failDeclare
    refine ⟨_, exec_railOutOfLimits hruns hfail hd hus, failDeclare_failing.1, failDeclare_failing.2, ?_, failDeclare_state, ?_,
      ⟨hq.gateH, hq.gateL, hq.gden⟩⟩
    · rw [failDeclare_rail, railShown, log_far1 (by decide), get_put_here Nat.zero_lt_one (by decide)]
      exact bit_setBit_mod hd
    · rw [failDeclare_on, railShown, log_far1 (by decide), get_put_far Nat.zero_lt_one (by decide)]
  · intro s v hsup _ hv
    refine ⟨_, exec_holdupStoreTest hsup hv, ?_, ?_, ?_⟩
    · rw [get_put_far Nat.zero_lt_one (by decide), holdupShow_far (by decide) (by decide) rfl, get_putMax_here Nat.zero_lt_one (by decide)]
    · rw [get_put_here Nat.zero_lt_one (by decide)]
      rfl
    · rw [get_put_far Nat.zero_lt_one (by decide), holdupShow_eq, holdupOk_shown]
      exact if_congr (storeGood_putMax (by omega)) rfl rfl
  · intro s sess hmay htest hfail
    exact exec_holdupTestRequest hmay htest hfail
  · intro s e v hsup htest hv he
    have hgood : (storeTested s e v).holdupShow = (storeTested s e v).putb PWR_HOLDUP.HOLDUP_OK true := by
      rw [holdupShow_eq, storeGood_of_passed hv he, holdupOk_true]
    refine ⟨_, (exec_holdupTestDone hsup htest).trans (congrArg _ (if_neg (by omega))), ?_, ?_, ?_, ?_, ?_⟩
    · rw [holdupShow_far (by decide) (by decide) rfl, storeTested_testing]
    · rw [hgood, get_putb_here Nat.zero_lt_one (by decide) (by decide), if_pos rfl]
    · rw [holdupShow_far (by decide) (by decide) rfl, storeTested_energy]
    · rw [holdupShow_far (by decide) (by decide) rfl, storeTested_store]
    · have hevr : (storeTested s e v).evr = (storeMeasured s e v).evr := by rw [storeTested, setBoot_evr]
      rw [hgood, State.putb, put_evr, hevr, storeMeasured, State.putMax, State.putMax, put_evr, put_evr, put_evr]
  · intro s e v hsup htest hv he
    have hlow : (storeTested s e v).holdupShow = ((storeTested s e v).putb PWR_HOLDUP.HOLDUP_OK false).stopPhases := by
      rw [holdupShow_eq, storeGood_of_low hv, holdupOk_false]
    refine ⟨_, (exec_holdupTestDone hsup htest).trans (congrArg _ (if_pos he)), ?_, ?_, ?_, ?_⟩
    · rw [log_far1 (by decide), holdupShow_far (by decide) (by decide) rfl, storeTested_testing]
    · rw [log_far1 (by decide), hlow, stopPhases_far (by decide) (by decide) rfl, get_putb_here Nat.zero_lt_one (by decide) (by decide)]
      rfl
    · rw [List.all_eq_true]
      intro n hn
      have hlt : n < 96 := List.mem_range.mp hn
      rw [bne_iff_ne, get_log_far hlt (by decide), hlow]
      exact stopPhases_state hlt
    · rw [log_pins, hlow]
      exact stopPhases_gates
  · intro s mv hruns hmv hlow
    refine ⟨_, exec_vbatLow hruns hmv hlow, ?_, ?_, ?_, ?_⟩
    · rw [log_far1 (by decide), batteryLow, get_put_far Nat.zero_lt_one (by decide), get_put_here Nat.zero_lt_one (by decide)]
      rfl
    · rw [log_far1 (by decide), batteryLow, get_put_here Nat.zero_lt_one (by decide)]
      rfl
    · rw [log_far1 (by decide), batteryLow, get_put_far Nat.zero_lt_one (by decide), get_put_far Nat.zero_lt_one (by decide),
        get_putMax_here Nat.zero_lt_one (by decide)]
      exact Nat.min_eq_left (show mv ≤ 65535 by omega)
    · exact (((records_refl.put (f := PWR_VMON.VBAT) (by decide)).put (f := PWR_SUPPLY_STAT.VBAT_LOW) (by decide)).put
        (f := PWR_SUPPLY_STAT.VBAT_SEEN) (by decide)).log (by decide) |>.logged
  · intro s mv hmv
    exact exec_vbatRestored hmv
  · intro s sess hmay hrun
    have hstate : ((s.put PWR_STATE.CMD 1).put PWR_STATE.RESULT 0).get PWR_STATE.STATE = 0 := by
      rw [get_put_far Nat.zero_lt_one (by decide), get_put_far Nat.zero_lt_one (by decide), hrun]
    refine ⟨_, exec_quietRequest hmay, toQuiet_state hstate, ?_, ?_, toQuiet_gates hstate⟩
    · rw [State.quietRequest, toQuiet_far hstate (by decide) (by decide) rfl (by decide), get_put_far Nat.zero_lt_one (by decide),
        get_put_here Nat.zero_lt_one (by decide)]
      rfl
    · rw [State.quietRequest, toQuiet_far hstate (by decide) (by decide) rfl (by decide), get_put_here Nat.zero_lt_one (by decide)]
      rfl
  · intro s sess hmay hquiet hmayRun
    have hrun : s.runRequest = ((runAnswered s).put PWR_STATE.STATE 0).gden := (runRequest_of_quiet hquiet).trans (if_pos hmayRun)
    refine ⟨_, exec_runRequest hmay, ?_, ?_, ?_⟩
    · rw [hrun, gden_get, get_put_here Nat.zero_lt_one (by decide)]
      rfl
    · rw [hrun, gden_get, get_put_far Nat.zero_lt_one (by decide), runAnswered, get_put_far Nat.zero_lt_one (by decide),
        get_put_here Nat.zero_lt_one (by decide)]
      rfl
    · rw [hrun, gden_get, get_put_far Nat.zero_lt_one (by decide), runAnswered_result, hmayRun]
  · intro s sess hmay hquiet hrefused
    have hstay : s.runRequest = runAnswered s := (runRequest_of_quiet hquiet).trans (if_neg hrefused)
    refine ⟨_, exec_runRequest hmay, ?_, ?_, ?_⟩
    · rw [hstay, runAnswered, get_put_far Nat.zero_lt_one (by decide), get_put_far Nat.zero_lt_one (by decide), hquiet]
    · rw [hstay, runAnswered_result]
    · rw [hstay, runAnswered, put_pins, put_pins]
  · intro s sess hmay hfree
    obtain ⟨hstate, hresult, hon, hrst, hdormant⟩ := dormant_results (s := (s.put PWR_STATE.CMD 3).put PWR_STATE.RESULT 0)
    refine ⟨_, exec_dormantRequest hmay hfree, hstate, ?_, hon, hrst, hdormant⟩
    rw [hresult, get_put_here Nat.zero_lt_one (by decide)]
    rfl
  · intro s sess hmay hrun
    have hrefused : s.dormantRefusal = 0xA := dormantRefusal_of_run hrun
    have harm : exec (.dormantRequest sess) s = execDormantRequest sess s := rfl
    rw [harm, execDormantRequest_of_refused hmay (by rw [hrefused]; decide), hrefused]
  · intro s src o hdormant hsrc hen hsup hkind
    obtain ⟨hwake, hstep⟩ := waking_wake (s := s) (o := o) hsrc
    exact ⟨_, exec_wake hdormant hsrc hen hsup hkind, hwake.dormant, hwake.kind, hwake.source, hwake.state, hwake.last, hstep⟩

end Sys2Proof.Proofs
end
